-- ==== Sys2Proof/Word.lean ====
section
/-! DEFINITION. The word types of the VZ8100 model (spec/00_scope.md R7: a word is 32 bits, multi-byte fields are little-endian). -/

namespace Sys2Proof

/-- One byte. -/
abbrev Byte := BitVec 8

/-- A word is 32 bits (R7). -/
abbrev Word := BitVec 32

/-- A camp command word (R146: 16 bytes). -/
abbrev CmdWord := BitVec 128

/-- A map with natural keys, held as a list whose keys rise strictly. -/
abbrev NMap (α : Type) := List (Nat × α)

end Sys2Proof
end

