-- ==== Sys2Proof/Syntax.lean ====
section
/-! DEFINITION. The commands that the module takes: one constructor of `Instr` per row of spec/opcode_table.json, and the data
that the rows carry. Where a structure is laid out in bytes by the spec it is carried as bytes, and the machine reads its fields. -/

namespace Sys2Proof

/-- Owner lock record fields (R441). -/
structure LockRecord where
  lock : Bool
  counter : Nat
  deriving DecidableEq, Repr

/-- The fields of a copy of the boot header (R429). -/
structure BootHeader where
  generation : Nat
  active : Nat
  trial : Option Nat
  trialStarts : Nat
  windowS : Nat
  deriving DecidableEq, Repr

/-- A 32-byte event record (R450). -/
structure EventRec where
  time : Nat
  source : Nat
  cls : Nat
  code : Nat
  pitch : Nat
  detail : List Byte
  deriving DecidableEq, Repr

/-- A physical sector of the critical-event ring (R461): the 64 bytes of its header and the records written in it, in order. -/
structure RingSector where
  header : List Byte
  records : List EventRec
  deriving DecidableEq, Repr

/-- A lane that was retired in a physical camp: camp, core and lane (R94, R459). -/
structure LaneLoss where
  phys : Nat
  core : Nat
  lane : Nat
  deriving DecidableEq, Repr

/-- What the fuses hold (R400, R431, R443, R446, R459): physical camps, cores (camp and core) and lanes that were retired at manufacture among it. -/
structure Fuses where
  ownerHash : Option Nat
  minRelease : Nat
  uniqueSecret : List Byte
  retiredCamps : List Nat
  retiredCores : List (Nat × Nat)
  retiredLanes : List LaneLoss
  mac : List Nat
  romDigest : Nat
  deriving DecidableEq, Repr

/-- Contents of the configuration NVM (R428) and the fuses. A copy of the boot header is its 32 bytes, none before one is written. `sectors` holds
the physical sectors of the critical-event ring: 0 to 127 at 0x0A10_0000, 128 to 143 the spares at 0x0A90_0000 (R463); `head` is the ring
position at which records are appended. -/
structure Nvm where
  header0 : List Byte
  header1 : List Byte
  fwA : List Byte
  fwB : List Byte
  cfgA : List Byte
  cfgB : List Byte
  lock : LockRecord
  certs : List Byte
  pqCerts : List Byte
  sectors : NMap RingSector
  head : Nat
  sparesUsed : Nat
  fuses : Fuses
  deriving DecidableEq, Repr

/-- What the boot ROM, the Ranger and the supply controller find when VAUX becomes good (R435 phases 1 to 3, R465, R479). -/
structure BootFindings where
  now : Nat
  pairsAgree : Bool
  xspiUp : Bool
  mainGood : Bool
  backupGood : Bool
  straps : BitVec 4
  nor : Option Nvm
  fwSigA : Bool
  fwSigB : Bool
  cfgSigA : Bool
  cfgSigB : Bool
  deriving DecidableEq, Repr

/-- What HBM training finds in one channel of a stack (R246 phases 3 to 5). -/
structure ChannelReport where
  failedLanes : Nat
  spareLanes : Nat
  uncorrectable : Bool
  deriving DecidableEq, Repr

/-- What HBM training finds in one stack (R246 phases 1 and 2). -/
structure StackReport where
  identified : Bool
  channels : List ChannelReport
  deriving DecidableEq, Repr

/-- What a capacity port finds at start (R255). -/
structure PortReport where
  present : Bool
  type3 : Bool
  capacity : Nat
  width : Nat
  rate : Nat
  ideStarted : Bool
  deriving DecidableEq, Repr

/-- The answer of a pitch-group member to the digest exchange (R437, R438): its digest, whether it is ready, and whether the group is disabled on it. -/
structure MemberAnswer where
  device : Nat
  digest : Option Nat
  ready : Bool
  disabled : Bool
  deriving DecidableEq, Repr

/-- A tensor of a model package: its header and payload (R32), where the working copy lies and where the golden copy lies. -/
structure TensorImage where
  address : Nat
  header : List Byte
  payload : List Byte
  golden : Nat
  deriving DecidableEq, Repr

/-- A camp program of a model package (R174): 32 header bytes, command words, the pitch-relative camps that hold it, whether it is a variant for
reference mode (R294), and for each REQOUT, by its command index, the linear operations whose operand it forms (R298, R305; DESIGN CHOICE:
notes/assumptions/24.md). -/
structure ProgramImage where
  header : List Byte
  words : List CmdWord
  camps : List Nat
  reference : Bool
  forms : NMap (List Nat)
  deriving DecidableEq, Repr

/-- A slot descriptor that the Ranger builds from the package (R157), with the contents of a persistent slot. -/
structure SlotImage where
  base : Nat
  size : Nat
  home : Nat
  producer : Nat
  readers : Nat
  persistent : Bool
  contents : List Byte
  deriving DecidableEq, Repr

/-- What a package gives for one layer of the module's range (R214, R215, R296 and what the module's engines need of the model and no rule
lays out: DESIGN CHOICE, notes/assumptions/51.md). -/
structure LayerImage where
  layer : Nat
  kvHeads : Nat
  headDim : Nat
  lanternFactor : Word
  quality : List Byte
  appendSlot : Nat
  sidecarOps : List Nat
  sidecarFeatures : List Nat
  thresholds : List Word
  columnTiles : List Nat
  deriving DecidableEq, Repr

/-- A coded region of a package or of the master weights (R275, R276). -/
structure CodedRegion where
  address : Nat
  blocks : Nat
  writable : Bool
  golden : Nat
  bytes : List Byte
  deriving DecidableEq, Repr

/-- A model package (R13, R33, R174, R296). -/
structure PackageImage where
  digest : Nat
  vocab : Nat
  region : Option Nat
  tensors : List TensorImage
  programs : List ProgramImage
  slots : List SlotImage
  layers : List LayerImage
  coded : List CodedRegion
  deriving DecidableEq, Repr

/-- What an uncorrectable HBM word holds (R33, R252): a word of a weight region's working copy or of a tensor's row-start table, a page's hot
copy, its summary, a superpage's summary, its descriptor, a prefix-tree node, one sequence's staging buffer, page list or table data, a
pitch's master weights or optimiser state, a spill record of a pitch's hash accumulator (R243), or nothing. -/
inductive HbmContent where
  | weights
  | rowStarts (pitch tensor : Nat)
  | page (pitch page : Nat)
  | summary (pitch page : Nat)
  | super (seq layer index : Nat)
  | descriptor (pitch page : Nat)
  | treeNode (pitch node : Nat)
  | sequence (seq : Nat)
  | master (pitch : Nat)
  | spill (pitch : Nat)
  | unallocated
  deriving DecidableEq, Repr

/-- What an array check finds while a row moves data (R117, R242, R243, R250, R252, R257). A Larder word is named by what it holds: a
weight-stream buffer word by the DA of the payload word that it copies, a slot word by its byte in the slot, the others by their place in
their area (R240). `da` of a correction is a DA of the Larder; `poison` says that the golden read which the response needs returns poison or an
error response. -/
inductive Finding where
  | larderCorrected (da bit : Nat)
  | larderWeightBuffer (offset word : Nat)
  | larderSlot (slot byte : Nat)
  | larderRunAhead (offset : Nat)
  | larderHash (inst entry : Nat)
  | larderStaging (da seq : Nat)
  | larderRanger (offset : Nat)
  | hashResidue (inst entry : Nat)
  | scratchCorrected (core byte bit : Nat)
  | scratchUncorrectable (core byte : Nat)
  | hbmCorrected (da symbol : Nat)
  | hbmBad (da : Nat) (address : Bool) (content : HbmContent) (poison : Bool)
  | cxlBad (da : Nat) (content : HbmContent)
  deriving DecidableEq, Repr

/-- A residue mismatch that the lanes or FMA units of a core report (R90, R142): the lane mode of the pass (for an FMA unit the row's
opcode is reported), expected and observed residue. -/
structure Mismatch where
  core : Nat
  unit : Nat
  mode : Nat
  expected : Nat
  observed : Nat
  deriving DecidableEq, Repr

/-- A datagram of the request transport as it arrives (R347), with the verdict of its authentication tag (R349), and what its frame says (R400): the
Ethernet port, the VLAN tag if it has one, its IPv6 destination and its UDP port. -/
structure Datagram where
  now : Nat
  ethPort : Nat
  vlan : Option Nat
  dest : List Byte
  destPort : Nat
  session : Nat
  magic : Nat
  version : Nat
  type : Nat
  seq : Nat
  ack : Nat
  body : List Byte
  tagOk : Bool
  deriving DecidableEq, Repr

/-- Host memory that the device reads for a submission entry (R337, R340): token array, parameter block, bitmap and descriptor. -/
structure FetchedData where
  entry : List Byte
  params : List Byte
  bitmap : List Byte
  data : List Byte
  deriving DecidableEq, Repr

/-- A frame on a fabric link (R390). -/
structure Frame where
  ctrl : BitVec 64
  payload : List Byte
  deriving DecidableEq, Repr

/-- How a function is reset (R423). -/
inductive ResetKind where
  | functionLevel (fn : Nat)
  | vfDisable
  | numVfs (n : Nat)
  | pf
  | hotReset
  | linkDown
  deriving DecidableEq, Repr

/-- A source of an image: a RESUME source entry or a park destination (R309, R325, R338); an address of host memory lies in the space of the
function `space`, that which gave the command (R411). -/
structure ImageSource where
  flags : Nat
  destKind : Nat
  address : Nat
  length : Nat
  session : Nat
  space : Nat
  deriving DecidableEq, Repr

/-- What reading an image's header, directory and non-page records gives (R317 to R321): plaintext bytes, with the tag verdicts. -/
structure ImageRead where
  header : List Byte
  directory : List Byte
  directoryTag : Bool
  recordsTag : Bool
  records : List (List Byte)
  deriving DecidableEq, Repr

/-- The FP32 logits of the last new token of a row (R356): how the Ranger takes them from LDACC is not stated, so the row brings them
(DESIGN CHOICE: notes/assumptions/51.md). -/
structure RowLogits where
  seq : Nat
  logits : List Word
  deriving DecidableEq, Repr

/-- One query head of the row's first new token (R215): A8 codes and block exponents, for KV head `kvHead`. Where Lantern reads them is not
stated, so the row brings them (DESIGN CHOICE: notes/assumptions/51.md). -/
structure LanternQuery where
  kvHead : Nat
  codes : List Int
  exps : List Nat
  deriving DecidableEq, Repr

/-- An SPDM request (R447). -/
structure SpdmRequest where
  code : Nat
  param1 : Nat
  param2 : Nat
  transport : Nat
  deriving DecidableEq, Repr

/-- An ICMPv6 message (R400). -/
structure IcmpMessage where
  port : Nat
  vlan : Option Nat
  dest : List Byte
  type : Nat
  source : List Byte
  target : List Byte
  value : Nat
  payload : List Byte
  deriving DecidableEq, Repr

/-- The request parameters (R339). -/
structure SampleParams where
  temperature : Word
  topP : Word
  topK : Nat
  progress : Nat
  seed : Nat
  outAddress : Nat
  bitmap : Option (List Byte)
  stops : List Nat
  deriving DecidableEq, Repr

/-- A row of the length table that the lead sends (R185, R361), with the request parameters for the last module when the row's request is
generating (R356). -/
structure LengthRow where
  handle : Nat
  contextLength : Nat
  newTokens : Nat
  tokenBase : Nat
  flags : Nat
  streamId : Nat
  mask : Nat
  sample : Option SampleParams
  deriving DecidableEq, Repr

/-- A decision of the lead that takes effect at a start tick (R229, R361): creation with adopted tokens (R230), insertion of the node of a
chunk for a sequence whose tokens are given (R231), removal of a node by its hash (R231), truncation, fork, park, resume in place, resume from
images under the lead's handle with the source entries of every module (R325), and free. `image` is what the module has read of its own image. -/
inductive LeadDecision where
  | create (handle streamId : Nat) (adopted : List Nat)
  | insert (handle chunk : Nat) (tokens : List Nat)
  | remove (hash : Nat)
  | truncate (handle length : Nat)
  | fork (parent child : Nat)
  | park (handle tag : Nat) (descriptor : List Byte)
  | devicePark (handle : Nat)
  | checkInPlace (handle tag : Nat) (image : Option ImageRead)
  | resumeInPlace (handle tag : Nat) (image : Option ImageRead)
  | resume (handle tag : Nat) (sources : List Byte) (image : ImageRead)
  | free (handle : Nat)
  deriving DecidableEq, Repr

/-- Where a firmware update message comes from (R442): a mailbox, with the posts that land between its taking and its
acknowledgement (R419), or a SUBMIT datagram of the management session. -/
inductive FwSource where
  | mailbox (fn mb : Nat) (posts : List (NMap Word))
  | session (d : Datagram)
  deriving DecidableEq, Repr

/-- The commands, one constructor per row of spec/opcode_table.json. `now` is the Cairn count (R401) at which the row happens. -/
inductive Instr where
  -- start-up
  | vauxGood (f : BootFindings)
  | hbmTrainingDone (reports : List StackReport)
  | linksTrained (links : List Bool) (ports : List PortReport) (eth : List Bool) (hostRate hostWidth : Nat)
  | linkIdentity (link device peerLink : Nat)
  | configCheck (inlet backupMv : Nat)
  | capacityClearDone
  | groupJoin (now : Nat) (answers : NMap (List MemberAnswer))
  | groupDigestRetry (pitch : Nat) (answers : List MemberAnswer) (joinTime : Nat)
  | groupJoined (pitch now : Nat)
  | modReset (lowUs : Nat) (f : BootFindings)
  -- package and program start
  | modelPackageLoad (pitch : Nat) (pkg : PackageImage)
  | programStart (pitch camp program first tableSlot : Nat) (params : List Word) (ready : NMap Nat)
  -- camp commands (R149): w is the 128-bit command word of R147
  | cNop (camp : Nat) (w : CmdWord)
  | cEnd (camp : Nat) (w : CmdWord)
  | cSetwin (camp : Nat) (w : CmdWord)
  | cWdog (camp : Nat) (w : CmdWord)
  | cLoop (camp : Nat) (w : CmdWord)
  | cFence (camp : Nat) (w : CmdWord)
  | cSlotrd (camp : Nat) (w : CmdWord) (found : List Finding)
  | cSlotwr (camp : Nat) (w : CmdWord) (found : List Finding)
  | cMemrd (camp : Nat) (w : CmdWord) (found : List Finding)
  | cMemwr (camp : Nat) (w : CmdWord) (found : List Finding)
  | cWstream (camp : Nat) (w : CmdWord) (found : List Finding)
  | cTilecfg (camp : Nat) (w : CmdWord)
  | cTile (camp : Nat) (w : CmdWord) (found : List Finding)
  | cVld (camp : Nat) (w : CmdWord) (found : List Finding)
  | cVst (camp : Nat) (w : CmdWord) (found : List Finding)
  | cTred (camp : Nat) (w : CmdWord) (found : List Finding)
  | cSignal (camp : Nat) (w : CmdWord)
  | cWait (camp : Nat) (w : CmdWord)
  | cTake (camp : Nat) (w : CmdWord)
  | cTopk (camp : Nat) (w : CmdWord) (found : List Finding)
  | cHopen (camp : Nat) (w : CmdWord) (found : List Finding)
  | cHadd (camp : Nat) (w : CmdWord) (found : List Finding)
  | cHclose (camp : Nat) (w : CmdWord)
  | hashCloseMerge (inst : Nat) (found : List Finding)
  | cReserved (camp : Nat) (w : CmdWord)
  -- vector operations (R124), carried by a VOP word
  | vNop (camp : Nat) (w : CmdWord)
  | vAdd (camp : Nat) (w : CmdWord) (mis : List (List Mismatch))
  | vMul (camp : Nat) (w : CmdWord) (mis : List (List Mismatch))
  | vFma (camp : Nat) (w : CmdWord) (mis : List (List Mismatch))
  | vMin (camp : Nat) (w : CmdWord)
  | vMax (camp : Nat) (w : CmdWord)
  | vCmpeq (camp : Nat) (w : CmdWord)
  | vCmplt (camp : Nat) (w : CmdWord)
  | vCmple (camp : Nat) (w : CmdWord)
  | vSel (camp : Nat) (w : CmdWord)
  | vCvtfi (camp : Nat) (w : CmdWord)
  | vCvtif (camp : Nat) (w : CmdWord)
  | vCvtbf (camp : Nat) (w : CmdWord)
  | vExpx (camp : Nat) (w : CmdWord)
  | vExpi (camp : Nat) (w : CmdWord)
  | vScalb (camp : Nat) (w : CmdWord)
  | vSumg (camp : Nat) (w : CmdWord) (mis : List (List Mismatch))
  | vMaxg (camp : Nat) (w : CmdWord)
  | vLdacc (camp : Nat) (w : CmdWord) (mis : List (List Mismatch))
  | vLdacca (camp : Nat) (w : CmdWord) (mis : List (List Mismatch))
  | vLdaccm (camp : Nat) (w : CmdWord) (mis : List (List Mismatch))
  | vReqacc (camp : Nat) (w : CmdWord) (mis : List (List Mismatch))
  | vReqreg (camp : Nat) (w : CmdWord)
  | vReqout (camp : Nat) (w : CmdWord) (found : List Finding)
  | vExp2 (camp : Nat) (w : CmdWord) (mis : List (List Mismatch))
  | vRcp (camp : Nat) (w : CmdWord) (mis : List (List Mismatch))
  | vRsq (camp : Nat) (w : CmdWord) (mis : List (List Mismatch))
  | vRotcs (camp : Nat) (w : CmdWord) (mis : List (List Mismatch))
  | vReserved (camp : Nat) (w : CmdWord)
  -- lanes, tile runs, slots, waits
  | lanePass (camp core lane : Nat) (observed : Option Nat)
  | runAhead (camp index : Nat) (found : List Finding)
  | tileRunJoin (camp core base : Nat) (wide : Bool)
  | weightRefetched (pitch da : Nat) (poison : Bool)
  | slotFilled (pitch slot : Nat) (found : List Finding)
  | slotDrained (pitch slot : Nat)
  | syncTimeout (camp now : Nat)
  -- group step, selection, pages
  | groupStepStart (pitch now : Nat) (table : List LengthRow) (decisions : List LeadDecision) (masks : NMap Nat)
  | stepCloseReport (pitch position now : Nat) (tokens : NMap Nat)
  | lanternSelect (pitch row layer : Nat) (queries : List LanternQuery) (found : List Finding)
  | chunkListsReady (pitch layer : Nat)
  | pagePromotionStart (pitch page : Nat)
  | pagePromotionDone (pitch page : Nat) (poison digestOk : Bool)
  | pageDemotionStart (pitch : Nat)
  | pageDemotionDone (pitch page : Nat) (found : List Finding)
  | pageRefetched (pitch page : Nat) (warmOk : Bool)
  | stepBoundary (pitch now : Nat) (logits : List RowLogits) (found : List Finding)
  -- sequence commands (R338); rid numbers an accepted command
  | qCreate (rid now : Nat)
  | qContinue (rid now : Nat)
  | qTruncate (rid : Nat)
  | truncationCopyDone (rid : Nat) (found : List Finding)
  | qFork (rid : Nat)
  | qPark (rid : Nat)
  | parkFormDone (seq : Nat) (exported : NMap (List Byte)) (found : List Finding)
  | parkCommit (seq : Nat) (error : Bool)
  | qResume (rid : Nat) (image : Option ImageRead)
  | resumeRecordsRead (rid : Nat) (peer : Option (Nat × Nat))
  | pageImport (pitch page : Nat) (tagOk digestOk : Bool) (payload : List Byte)
  | imageReadTimeout (pitch page : Nat)
  | qStatus (rid : Nat) (peers : List (List Byte))
  | qFree (rid : Nat)
  -- host port
  | submissionDoorbell (fn ring : Nat) (value : Word)
  | completionDoorbell (fn ring : Nat) (value : Word)
  | submissionFetch (fn ring now : Nat) (d : Option FetchedData) (poisoned : Bool)
  | mailboxPost (fn mb : Nat) (words : NMap Word)
  | collisionClear (fn mb : Nat) (value : Word)
  | cairnLoRead (fn : Nat)
  | supplyLatchClear (value : Word)
  | registerWrite (fn bar offset : Nat) (value : Word)
  | ringCreate (fn mb : Nat) (posts : List (NMap Word))
  | ringDestroy (fn mb : Nat) (posts : List (NMap Word))
  | attachBegin (fn mb : Nat) (posts : List (NMap Word))
  | attach (fn mb : Nat) (posts : List (NMap Word))
  -- firmware update
  | fwWrite (src : FwSource) (dma : List Byte)
  | fwVerify (src : FwSource) (sigOk : Bool) (refusing : List Nat)
  | fwActivate (src : FwSource) (refusing : List Nat)
  | fwDisarm (src : FwSource) (refusing : List Nat)
  | fwConfirm (src : FwSource) (refusing : List Nat)
  | lockWrite (src : FwSource) (dma : List Byte) (sigOk : Bool)
  | fwStatus (src : FwSource)
  | fwArmedRestart (f : BootFindings)
  | firmwareBlock (pkt : List Byte) (sigOk : Bool) (refusing : List Nat)
  -- resets of functions
  | functionReset (kind : ResetKind) (rate width : Nat)
  | functionResetDone (fn : Nat)
  -- Ethernet
  | openSession (d : Datagram)
  | submitPart (d : Datagram)
  | ackMsg (d : Datagram)
  | imageData (d : Datagram)
  | invalidDatagram (d : Datagram)
  | ackTimer (session now : Nat)
  | datagramResend (session now : Nat)
  | ethLink (port : Nat) (up : Bool)
  -- fabric
  | flitData (link : Nat) (f : Frame)
  | flitIdle (link : Nat) (f : Frame)
  | retryRequest (link : Nat) (f : Frame)
  | linkDown (link now : Nat)
  | linkUp (link device peerLink now : Nat)
  | linkLost (link now : Nat)
  | slotTransfer (pitch now : Nat) (descriptor : List Byte) (found : List Finding)
  | slotDataPacket (pkt : List Byte) (destOffset : Nat)
  | transferResponse (pkt : List Byte)
  | transferResend (transfer now : Nat)
  | managementMessage (pkt : List Byte)
  | timeRequest (now : Nat)
  | timeRequestReceived (link : Nat) (f : Frame) (t2 t2frac t3 t3frac : Nat)
  | timeResponse (link : Nat) (f : Frame) (t4 t4frac : Nat)
  | ppsEdge
  -- capacity ports, HBM, retention
  | cxlLinkDown (port now : Nat)
  | cxlRetrainDone (port now : Nat)
  | cxlPortLost (port now : Nat)
  | patrolScrub (da : Nat) (errors : List (BitVec 16)) (content : HbmContent) (poison : Bool)
  | stackTemperatureReading (stack : Nat) (temp : Int) (now : Nat)
  | retentionClose (unit now : Nat)
  | retentionEntered (unit : Nat)
  | lateWake (unit : Nat)
  | wakeDone (unit : Nat)
  -- reliability
  | rangerLockstep (pair : Nat) (f : BootFindings)
  | sectorErase (headOk eraseOk programOk : Bool)
  -- power and cooling
  | mainFailure (now millivolts : Nat)
  | mainRestored (now : Nat) (f : BootFindings)
  | powerLoss
  | backupPark (now : Nat)
  | governorLower (now power power20 : Nat)
  | governorRaise (now power : Nat)
  | junctionReading (now : Nat) (sensors : List (List Int))
  | coolantHigh (now inlet : Nat)
  | coolantCapLifted (now inlet : Nat)
  | vauxLoss
  | vinBackupOutOfRange (millivolts : Nat) (f : BootFindings)
  | vddCoreGood
  | arraysTested (failedCamps : List Nat)
  | freedRangeScrubbed (index : Nat)
  | spdmRequest (r : SpdmRequest)
  | icmpv6Message (m : IcmpMessage)
  deriving DecidableEq, Repr

end Sys2Proof
end

