-- ==== Sys2Proof/Config.lean ====
section
/-! DEFINITION. What an implementation fixes, and the values that the spec leaves open: constants without a body, so that no
proof can see what they are (DESIGN CHOICE: notes/assumptions/3.md, 10.md). -/

namespace Sys2Proof.Config

/-- Bytes drawn from the device's entropy source (R317, R349, R421): a free value for each draw. -/
opaque entropy : Nat → Nat → List Byte

/-- A free 32-bit value for a result that the spec does not state (DESIGN CHOICE: notes/assumptions/3.md). -/
opaque freeWord : Nat → Word

/-- A free natural number: an order or a choice that the spec leaves open (DESIGN CHOICE: notes/assumptions/3.md). -/
opaque freeNat : Nat → Nat

/-- The code of a layer's input that a weight gradient takes as its multiplier (R97), by stream ID, position, layer and feature: the spec does
not say where the device keeps it (DESIGN CHOICE: notes/assumptions/22.md). -/
opaque inputCode : Nat → Nat → Nat → Nat → BitVec 16

/-- The block exponent of that input, by stream ID, position, layer and block of 32 features (DESIGN CHOICE: notes/assumptions/22.md). -/
opaque inputExp : Nat → Nat → Nat → Nat → BitVec 8

/-- The place of the last candidate that a sampler keeps where no sum of R356 reaches the threshold, by those sums: the spec states none (DESIGN CHOICE:
notes/assumptions/3.md). -/
opaque lastCandidate : List Word → Nat

/-- SHA-384 (FIPS 180-4), which the spec names and does not define: a 384-bit digest of a byte string (PRESUMED: notes/assumptions/10.md). -/
opaque sha384 : List Byte → Nat

/-- HMAC-SHA-384 (key, message), named by R323, R349, R375 and R421 and not defined by the spec (PRESUMED: notes/assumptions/10.md). -/
opaque hmacSha384 : List Byte → List Byte → List Byte

/-- AES-256-GCM encryption of a plaintext under (key, IV, additional data): ciphertext followed by the tag (R323, R349). -/
opaque gcmSeal : List Byte → List Byte → List Byte → List Byte → List Byte

/-- AES-256-GCM opening of a ciphertext followed by its tag under (key, IV, additional data); none where the tag does not fit (R375; PRESUMED:
notes/assumptions/10.md). -/
opaque gcmOpen : List Byte → List Byte → List Byte → List Byte → Option (List Byte)

/-- The P-384 ECDH shared secret of a secret key with a public key; none where that is no point of the curve (R375, R446; PRESUMED:
notes/assumptions/10.md). -/
opaque ecdhSecret : List Byte → List Byte → Option (List Byte)

/-- The ML-KEM-1024 shared secret that a secret key draws from a ciphertext (R375, R446; PRESUMED: notes/assumptions/10.md). -/
opaque kemSecret : List Byte → List Byte → List Byte

/-- The key pair that TCG DICE derives from a unique secret for an algorithm and a measurement: its secret and its public part (R446; PRESUMED:
notes/assumptions/41.md). -/
opaque diceKey : List Byte → Nat → List Byte → List Byte × List Byte

/-- The certificate that a secret key issues for a public key (R446; PRESUMED: notes/assumptions/41.md). -/
opaque certificate : List Byte → List Byte → List Byte

/-- The ECDSA P-384 signature of a secret key over bytes (R447; PRESUMED: notes/assumptions/41.md). -/
opaque ecdsaP384 : List Byte → List Byte → List Byte

/-- Toldun's PCI-SIG vendor ID, to which the spec gives no number (R407; DESIGN CHOICE: notes/assumptions/8.md). -/
opaque vendorId : Nat

/-- Usable camps of the module (R15). -/
def camps : Nat := 20000
/-- Cores of a camp (R15). -/
def coresPerCamp : Nat := 16
/-- Lanes of a core (R15). -/
def lanes : Nat := 128
/-- Spare lanes of a core (R15). -/
def spareLanes : Nat := 4
/-- Scratchpad bytes of a core (R152). -/
def scratchpadBytes : Nat := 32768
/-- Spare physical camps of a die (R15). -/
def spareCampsPerDie : Nat := 60
/-- Command words of a camp's command memory (R146). -/
def commandWords : Nat := 4096
/-- The capability word of every core (R152): 32 KiB, 16 banks, 8 windows, 128 lanes, 8 accumulator slots. -/
def capability : Word := 0x08808420#32

end Sys2Proof.Config
end

