-- ==== Sys2Proof/Machine/State.lean ====
section
/-! DEFINITION. The state of the module as plain data: every register, buffer, queue, counter, mode and pin that the spec gives it
(INVENTORY.md lists each field with its rule), the reasons a step can stop, and the state after reset. -/

namespace Sys2Proof.Machine

/-! ### Why a step stops -/

/-- A step that the spec says never happens. -/
inductive Fault where
  /-- An access to a device address outside every region of R237, which the rule says is never issued. Raised by the rows that
  move memory words named by an operand (patrol scrub). Safe: the model stops where the hardware does nothing. -/
  | daUnmapped
  deriving DecidableEq, Repr

/-- A command that the model gives no effect. -/
inductive Refusal where
  /-- An operand names a unit that the module does not have (camp 20,000, link 24, pitch 64, function 65). Raised by every row
  that takes a unit number. Safe: the model stops, and no such command exists on the hardware. -/
  | noSuchUnit
  /-- The command has no meaning yet. Raised by the dispatch of a row without a meaning. Safe: the model stops. -/
  | notModelled (mnemonic : String)
  deriving DecidableEq, Repr

/-- The answer of one command. -/
abbrev Answer (σ : Type) := Host.Outcome σ Fault Refusal

/-! ### Outputs, time and event records -/

/-- What the header of an Ethernet frame of the module says (R400): the port, its fused MAC address, its tag control field when the port tags its frames,
and the IPv6 address on the link to which the frame goes: the destination's, or the gateway's where it lies outside the port's prefix. -/
structure FrameHead where
  port : Nat
  mac : Nat
  tag : Option Nat
  nextHop : List Byte
  deriving DecidableEq, Repr

/-- The addresses of a datagram of the module: IPv6 source and destination, and UDP ports (R366, R400). -/
structure DatagramHead where
  frame : FrameHead
  source : List Byte
  dest : List Byte
  localPort : Nat
  peerPort : Nat
  deriving DecidableEq, Repr

/-- What the module sends: DMA writes and reads on the host port, interrupts, datagrams, fabric frames, the identity frames of links (R385), answers
to management buses, and ICMPv6 messages. A datagram carries its plaintext body and its bytes on the wire (R347, R349). -/
inductive Output where
  | dmaWrite (fn iova : Nat) (bytes : List Byte)
  | dmaRead (fn iova length : Nat)
  | interrupt (fn vector : Nat)
  | datagram (head : DatagramHead) (session type seq ack : Nat) (body wire : List Byte)
  | frame (link : Nat) (f : Frame)
  | identity (link device peerLink : Nat)
  | spdm (transport : Nat) (bytes : List Byte)
  | icmp (head : FrameHead) (type : Nat) (dest payload : List Byte)
  | read (value : Word)
  deriving DecidableEq, Repr

/-- The Cairn counter (R401 to R405): the count has 64 bits and its fraction 8. `asked` are the links that a root has asked for a locked neighbour, and
`ppsSeen` says that the root has taken a PPS edge, or that the parent says so of the root. -/
structure Cairn where
  count : Nat
  frac : Nat
  locked : Bool
  good : Nat
  holdover : Bool
  slew : Int
  exchange : Nat
  t1 : Option (Nat × Nat)
  parent : Option Nat
  depth : Nat
  steppedPps : Bool
  tookNeighbour : Bool
  asked : List Nat
  ppsSeen : Bool
  offset : Int
  deriving DecidableEq, Repr

/-- Event records (R413, R450, R463) and the once-in-a-second marks of R242, R250, R363, R406, R427, R473 and R476. -/
structure EventLog where
  written : Nat
  window : List EventRec
  seen : NMap Nat
  counted : NMap Nat
  ramRing : List EventRec
  inRam : Bool
  waiting : List EventRec
  deriving DecidableEq, Repr

/-! ### Configuration in force -/

/-- Lantern block of a profile (R214). -/
structure LanternBlock where
  k : Nat
  sink : Nat
  recent : Nat
  lookahead : Nat
  selection : Bool
  hotHigh : Nat
  hotLow : Nat
  deriving DecidableEq, Repr

/-- Quality block of a profile (R295). -/
structure QualityBlock where
  lookoutLog2 : Nat
  reference : Bool
  wideLayers : Nat
  wideRows : Nat
  deriving DecidableEq, Repr

/-- Serving block of a profile (R352). -/
structure ServingBlock where
  prefillChunk : Nat
  rows : Nat
  tokens : Nat
  deriving DecidableEq, Repr

/-- Arithmetic profile of a pitch (R365); `blocksOk` says that the blocks are within R214, R295 and R352. -/
structure Profile where
  lantern : LanternBlock
  quality : QualityBlock
  serving : ServingBlock
  activation : Nat
  layers : Nat
  tags : List Nat
  digest : Nat
  blocksOk : Bool
  deriving DecidableEq, Repr

/-- A session table entry (R366). -/
structure SessionEntry where
  session : Nat
  port : Nat
  localPort : Nat
  peerPort : Nat
  peer : List Byte
  deriving DecidableEq, Repr

/-- A pitch-group entry (R433). -/
structure GroupEntry where
  pitch : Nat
  pitchGroup : Nat
  groupSize : Nat
  groupPosition : Nat
  firstLayer : Nat
  layers : Nat
  members : List Nat
  deriving DecidableEq, Repr

/-- The key set of a pitch (R375): 96 bytes held in Ranger storage. -/
structure KeySet where
  seed : Nat
  prefixKey : Nat
  waypoint : List Byte
  transport : List Byte
  deriving DecidableEq, Repr

/-- A pitch record (R364) with what it locates; `reservedZero` says that every field is in its range and every reserved one zero. -/
structure PitchRecord where
  pitch : Nat
  enabled : Bool
  sealed : Bool
  x0 : Nat
  y0 : Nat
  width : Nat
  height : Nat
  spares : Nat
  hash : Nat
  hbmBase : Nat
  hbmSize : Nat
  seqFirst : Nat
  seqCount : Nat
  syncFirst : Nat
  syncCount : Nat
  slots : Nat
  larder : List Nat
  capacity : List (Nat × Nat)
  shares : List Nat
  sessions : List SessionEntry
  parkKind : Nat
  parkSession : Nat
  parkAddress : Nat
  parkLength : Nat
  regions : Nat
  profile : Profile
  group : GroupEntry
  keys : Option KeySet
  reservedZero : Bool
  deriving DecidableEq, Repr

/-- A shared region (R371). -/
structure RegionEntry where
  region : Nat
  hbm : Nat
  length : Nat
  golden : Nat
  deriving DecidableEq, Repr

/-- A fabric link entry (R384). -/
structure LinkEntry where
  link : Nat
  port : Nat
  peerDevice : Nat
  peerLink : Nat
  timeRank : Nat
  deriving DecidableEq, Repr

/-- A capacity-port declaration (R433). -/
structure PortDecl where
  port : Nat
  present : Bool
  ide : Bool
  capacity : Nat
  deriving DecidableEq, Repr

/-- An Ethernet port entry (R433). -/
structure EthEntry where
  port : Nat
  inUse : Bool
  tagged : Bool
  vlan : Nat
  prefixLength : Nat
  address : List Byte
  gateway : List Byte
  deriving DecidableEq, Repr

/-- The power section (R468). -/
structure PowerSection where
  limit : Nat
  backupLimit : Nat
  coolant : Nat
  backupFitted : Bool
  bankRetention : Bool
  channelRetention : Bool
  sealedPoint : Nat
  backupPolicy : Nat
  backupParkS : Nat
  reservedZero : Bool
  deriving DecidableEq, Repr

/-- The configuration in force (R431 to R434). -/
structure Configuration where
  generation : Nat
  deviceId : Nat
  digest : Nat
  pitches : List PitchRecord
  regions : List RegionEntry
  links : List LinkEntry
  ports : List PortDecl
  hostPort : Bool
  eth : List EthEntry
  timeRoot : Nat
  ppsUsed : Bool
  power : PowerSection
  successors : List Nat
  management : Option SessionEntry
  managementKeys : Option KeySet
  managementKeysOk : Bool
  reservedZero : Bool
  deriving DecidableEq, Repr

/-! ### Start-up and update -/

/-- An armed restart (R445). -/
structure Arming where
  time : Nat
  trial : Bool
  deriving DecidableEq, Repr

/-- What FW_VERIFY found in the slot that is not in use (R442, R443). -/
structure Verified where
  target : Nat
  digest : Nat
  release : Nat
  arith : Nat
  configFormat : Nat
  length : Nat
  deriving DecidableEq, Repr

/-- A forwarded image in transit into this module (R444): its first 16 digest bytes, and the length of each block by its offset. -/
structure ChainIn where
  imageId : Nat
  target : Nat
  length : Nat
  received : NMap Nat
  deriving DecidableEq, Repr

/-- A key pair: its secret part, which never leaves the Ranger, and its public part (R446). -/
structure KeyPair where
  secretPart : List Byte
  publicPart : List Byte
  deriving DecidableEq, Repr

/-- The identity that the module derives from its fused unique secret (R446): the DeviceID pairs of ECDSA P-384 and ML-DSA-65, the key-agreement pairs
of P-384 ECDH and ML-KEM-1024, the alias pairs, and the certificates that the DeviceID key gives the key-agreement and alias pairs. -/
structure Identity where
  deviceEc : KeyPair
  devicePq : KeyPair
  agreeEc : KeyPair
  agreeKem : KeyPair
  aliasEc : KeyPair
  aliasPq : KeyPair
  agreeCert : List Byte
  aliasCert : List Byte
  aliasPqCert : List Byte
  deriving DecidableEq, Repr

/-- Start-up and update state (R18, R413, R434 to R446). Phase 0 is off, 1 to 11 the phases of R435, 12 ready, 13 stopped in
phase 2 (R439), 14 stopped at phase 9 (R437). `subFirmware` is the image from which the subordinate processors have been loaded (R21). -/
structure Boot where
  phase : Nat
  arraysDone : Bool
  hbmDone : Bool
  linksDone : Bool
  clearDone : Bool
  ready : Bool
  configRefused : Bool
  slot : Nat
  onTrial : Bool
  release : Nat
  configFormat : Nat
  cfgSlot : Option Nat
  cfgSigOk : Bool
  readyAt : Option Nat
  arm : Option Arming
  verified : List Verified
  chain : Option ChainIn
  campMap : NMap Nat
  fencedLogical : List Nat
  retiredPhys : List Nat
  straps : BitVec 4
  subFirmware : Option (List Byte)
  identity : Option Identity
  deriving DecidableEq, Repr

/-! ### Power and cooling -/

/-- One compute die: its operating point and thermal state (R471, R473, R475, R476); junction in 1/16 degrees. `hotPoint` is the point to which a hot
stack holds it, and `hotTook` says that the stack rule took a point that no later rule has lowered. -/
structure Die where
  point : Nat
  junction : Int
  throttled : Bool
  limited : Bool
  hot : Bool
  hotPoint : Nat
  hotTook : Bool
  coolSince : Option Nat
  lastThrottle : Option Nat
  deriving DecidableEq, Repr

/-- Supplies, supply controller register and governor (R465 to R482). `toPark` holds the sequences that policy 2 parks at their next step boundary
(R474). -/
structure Power where
  vaux : Bool
  rails : Bool
  mainGood : Bool
  backupGood : Bool
  onBackup : Bool
  trip : Bool
  tripDie : Option Nat
  powerLoss : Bool
  inlet : Nat
  power : Nat
  backupSince : Option Nat
  parked : Bool
  toPark : List Nat
  dies : List Die
  coolantHigh : Bool
  lastChange : Nat
  belowSince : Option Nat
  lastLower : Option Nat
  emergencyAt : Option Nat
  deriving DecidableEq, Repr

/-! ### Memory system -/

/-- State of an HBM stack (R247, R248, R473). -/
structure Stack where
  temp : Int
  mult : Nat
  throttle : Bool
  coolSince : Option Nat
  deriving DecidableEq, Repr

/-- State of a capacity port (R254 to R258). -/
inductive PortState where
  | down | up | refused | retraining | lost
  deriving DecidableEq, Repr

/-- A capacity port. -/
structure CapPort where
  state : PortState
  capacity : Nat
  downSince : Option Nat
  cleared : Bool
  deriving DecidableEq, Repr

/-- The retention state of a Larder bank or HBM channel (R260): phase 1 ends with its row, so a closed unit is draining. -/
inductive UnitState where
  | active | draining | retained | waking
  deriving DecidableEq, Repr

/-- A bank or channel: its state, its counter of admitted accesses (0 between rows, since a row completes its accesses), the accesses
that wait for a wake (R260, R261), and the Cairn count of its latest access (R259). -/
structure RetUnit where
  state : UnitState
  inFlight : Nat
  waiting : Nat
  last : Nat
  deriving DecidableEq, Repr

/-- A freed range that waits for its zeros (R374): no allocation takes it before. -/
structure ScrubRange where
  da : Nat
  length : Nat
  deriving DecidableEq, Repr

/-- The memory system (R237 to R261, R374, R460). -/
structure Memory where
  bytes : List Host.Cell
  n : Nat
  retired : List Nat
  marked : List Nat
  corrSeconds : NMap (List Nat)
  hbmStacks : List Stack
  ports : List CapPort
  units : NMap RetUnit
  late : NMap Nat
  scrub : List ScrubRange
  deriving DecidableEq, Repr

/-! ### Fabric and Ethernet -/

/-- State of a fabric link (R382, R385, R393). -/
inductive LinkState where
  | down | trained | up | refused | retraining | lost
  deriving DecidableEq, Repr

/-- A fabric link (R390 to R393): sequence numbers, credits, retry buffer, receive buffer and the packet that is being assembled. -/
structure Link where
  state : LinkState
  txSeq : Nat
  rxSeq : Nat
  acked : Nat
  credits : List Nat
  owed : List Nat
  retry : List Frame
  discarding : Bool
  sameAck : Nat
  lastRetryAck : Option Nat
  partialPkt : List Byte
  inbox : List (List Byte)
  downSince : Option Nat
  deriving DecidableEq, Repr

/-- A transfer descriptor (R395). -/
structure TransferDesc where
  port : Nat
  coded : Bool
  destDevice : Nat
  pitchGroup : Nat
  destPitch : Nat
  srcSlot : Nat
  destSlot : Nat
  length : Nat
  srcOffset : Nat
  destOffset : Nat
  deriving DecidableEq, Repr

/-- A transfer that the module sends (R395, R397, R398). -/
structure Send where
  pitch : Nat
  desc : TransferDesc
  packets : List (List Byte)
  lastSent : Nat
  resends : Nat
  blockResent : List Nat
  lost : Bool
  deriving DecidableEq, Repr

/-- A transfer that lands (R396, R397): bodies by their offset in the stream, and the faults of each block. -/
structure Recv where
  source : Nat
  transfer : Nat
  pitch : Nat
  slot : Nat
  destOffset : Nat
  length : Nat
  coded : Bool
  landed : NMap (List Byte)
  failed : NMap Nat
  done : List Nat
  deriving DecidableEq, Repr

/-- The fabric side of the module; `grant` is the next slot of the frame of 1,000 flit grants of its egress arbiter, and `turn` the pitch that
the round-robin grant served last (R379, R399). -/
structure Fabric where
  links : List Link
  sends : NMap Send
  nextTransfer : Nat
  recvs : List Recv
  doneTransfers : List (Nat × Nat)
  waiting : List (Nat × List Byte)
  mgmtIn : List (List Byte)
  grant : Nat
  turn : Nat
  deriving DecidableEq, Repr

/-- A message of a session that the peer has not acknowledged (R350). -/
structure Unacked where
  seq : Nat
  ack : Nat
  type : Nat
  body : List Byte
  sentAt : Nat
  attempts : Nat
  deriving DecidableEq, Repr

/-- A SUBMIT in parts (R348, R351). -/
structure PartialSubmit where
  tag : Nat
  parts : Nat
  got : NMap (List Byte)
  deriving DecidableEq, Repr

/-- A session of the request transport with its key (R347 to R351); `images` are the image bytes that IMAGE_DATA messages have brought, by tag
and offset (R348). -/
structure Session where
  isOpen : Bool
  lost : Bool
  key : List Byte
  rh : List Byte
  rd : List Byte
  txSeq : Nat
  highest : Nat
  contiguous : Nat
  accepted : List Nat
  unacked : List Unacked
  ackDue : Option Nat
  held : List (List Byte)
  submits : List PartialSubmit
  images : NMap (NMap (List Byte))
  deriving DecidableEq, Repr

/-- The Ethernet ports (R400): link, and what neighbour discovery and packet-too-big messages have taught. -/
structure Ethernet where
  up : List Bool
  neighbours : List (List Byte)
  pathMtu : NMap Nat
  sessions : NMap Session
  deriving DecidableEq, Repr

/-! ### Host port -/

/-- A ring (R344, R345, R414 to R416). -/
structure Ring where
  pitch : Nat
  completion : Nat
  entries : Nat
  base : Nat
  vector : Nat
  position : Nat
  fetchError : Bool
  doorbell : Nat
  inFlight : Nat
  phase : Bool
  held : List (List Byte × Bool)
  deriving DecidableEq, Repr

/-- Mailbox states (R417, R419). -/
inductive MailState where
  | empty | posted | taken | takenPosted
  deriving DecidableEq, Repr

/-- A mailbox block (R417, R418): sender's staging, the posted message, the taken message, reply, and its registers. -/
structure Mailbox where
  staging : List Word
  message : List Word
  reply : List Word
  state : MailState
  collision : Bool
  postedSeq : Nat
  takenSeq : Nat
  ackCode : Nat
  ackSeq : Nat
  ackValid : Bool
  vector : Nat
  ackInt : Bool
  deriving DecidableEq, Repr

/-- An entry of an MSI-X table (R412, R422): message address and data, its mask bit, and its pending bit. -/
structure MsixEntry where
  address : Nat
  data : Nat
  masked : Bool
  waiting : Bool
  deriving DecidableEq, Repr

/-- A PCIe function: 0 is the PF, n + 1 is VF n (R409, R412, R413, R421, R424). -/
structure Function where
  resetting : Bool
  attached : Bool
  challenge : Option (List Byte)
  sub : NMap Ring
  comp : NMap Ring
  mail : NMap Mailbox
  cairnHi : Nat
  eventVector : Nat
  eventInt : Bool
  msixEnable : Bool
  msixMask : Bool
  msix : NMap MsixEntry
  deriving DecidableEq, Repr

/-- The host port (R407, R408): SR-IOV's VF Enable and NumVFs, the uncorrectable error status of AER, and whether link IDE is on. -/
structure HostPort where
  up : Bool
  refused : Bool
  vfEnable : Bool
  numVfs : Nat
  aer : Word
  ide : Bool
  fns : NMap Function
  deriving DecidableEq, Repr

/-! ### Sequences -/

/-- Sequence states (R335). -/
inductive SeqState where
  | free | idle | running | parked | held
  deriving DecidableEq, Repr

/-- The counter record of a (sequence, layer) (R299). -/
structure Counters where
  saturated : Nat
  zero : Nat
  replays : Nat
  wide : Nat
  preshift : Nat
  promoted : Nat
  samples : Nat
  exceeds : Nat
  deriving DecidableEq, Repr

/-- The latch record of a (sequence, layer) (R303). -/
structure Latch where
  history : Nat
  level : Nat
  denied : Bool
  position : Nat
  deriving DecidableEq, Repr

/-- The header of a staging buffer (R207) and where it lies; `staged` counts the committed tokens and those of the step, `inLarder` says that
the buffer is kept in the Larder (R208), and `boundTag` is the tag at the last step boundary (R210). -/
structure Staging where
  tag : Nat
  count : Nat
  staged : Nat
  firstPosition : Nat
  address : Nat
  inLarder : Bool
  boundTag : Nat
  deriving DecidableEq, Repr

/-- One KV head's record of a page or superpage summary (R211). -/
structure SummaryRec where
  codes : List Int
  exps : List Nat
  r : Word
  deriving DecidableEq, Repr

/-- What the sequence table holds for one layer of the module's range (R206, R207, R213, R299, R302, R303). `listAt` are the pitch addresses of the
4 KiB pieces of its page list in HBM, and `superAt` those of its superpage summaries, by their number (R206). -/
structure LayerState where
  pages : List Nat
  listAt : List Nat
  superAt : List Nat
  staging : Staging
  supers : NMap (List SummaryRec)
  counters : Counters
  latch : Latch
  stepBlocks : Nat
  stepSaturated : Nat
  pendingPages : List Nat
  deriving DecidableEq, Repr

/-- A latch decision in the journal (R236, R320). -/
structure Decision where
  layer : Nat
  level : Nat
  denied : Bool
  position : Nat
  deriving DecidableEq, Repr

/-- A journal entry (R236, R320). -/
structure JournalEntry where
  length : Nat
  step : Nat
  pending : Option Nat
  latches : List Latch
  decisions : List Decision
  deriving DecidableEq, Repr

/-- Where a command came from: a function and the completion ring that takes its completions (R344), a session, or the device. -/
inductive Origin where
  | ring (fn ring : Nat)
  | session (n : Nat)
  | device
  deriving DecidableEq, Repr

/-- A park in phases 3 and 4 (R313): `tag` is that of the PARK, under which a session gets the image (R348), and a host buffer lies in the space of the
function `space` (R411). -/
structure ParkState where
  rid : Option Nat
  device : Bool
  disposition : Nat
  destKind : Nat
  destAddress : Nat
  destLength : Nat
  session : Nat
  phase : Nat
  imageLength : Nat
  tag : Nat
  space : Nat
  deriving DecidableEq, Repr

/-- A resumed sequence whose pages are being imported (R327, R330, R331, R342): the RESUME's tag and origin, whether the import notice is
still to be sent, whether the resume was one from an image, and where the payload records of its EXPORTED pages lie in the image: offset
and length by page number. -/
structure Import where
  tag : Nat
  origin : Origin
  notice : Bool
  fromImage : Bool
  places : NMap (Nat × Nat)
  deriving DecidableEq, Repr

/-- An entry of the sequence table (R291, R293, R310, R319, R333 to R336). -/
structure SeqEntry where
  generation : Nat
  state : SeqState
  hold : Nat
  holdRegion : Option Nat
  inexact : Bool
  exported : Option ImageSource
  importing : Option Import
  source : Option ImageSource
  pitch : Nat
  streamId : Nat
  length : Nat
  step : Nat
  pending : Option Nat
  tokens : List Nat
  insert : Bool
  node : Option Nat
  links : NMap Nat
  layers : List LayerState
  journal : List JournalEntry
  park : Option ParkState
  readyAt : Nat
  deriving DecidableEq, Repr

/-- Where an accepted command stands (R341, R358). -/
inductive ReqState where
  | queued | ready | inFlight | copying | reading
  deriving DecidableEq, Repr

/-- An accepted command (R340). `clearedHold` is the hold cause that it has cleared before its first step (R336, R425). -/
structure Request where
  rid : Nat
  origin : Origin
  opcode : Nat
  flags : Nat
  tag : Nat
  handle : Nat
  pitch : Nat
  deadline : Nat
  maxNew : Nat
  count : Nat
  data : Nat
  tokens : List Nat
  params : SampleParams
  descriptor : List Byte
  image : Option ImageRead
  undo : Bool
  state : ReqState
  consumed : Nat
  produced : Nat
  adopted : Nat
  sinceProgress : Nat
  clearedHold : Nat
  deriving DecidableEq, Repr

/-! ### Pitches -/

/-- Page states (R205). -/
inductive PageState where
  | free | pending | hot | warm | both | promoting | demoting | exported | invalid (code : Nat)
  deriving DecidableEq, Repr

/-- A page descriptor (R204) with the pitch address of its summary, its summary record (R211), and the marks of a copy in progress. -/
structure Page where
  state : PageState
  tag : Nat
  layer : Nat
  firstPosition : Nat
  refcount : Nat
  kvHeads : Nat
  dim32 : Nat
  hot : Nat
  warm : Nat
  summaryAt : Nat
  summary : List SummaryRec
  digest : Nat
  lastSelected : Nat
  wanted : Bool
  doomed : Bool
  deriving DecidableEq, Repr

/-- A node of the tree of shared beginnings (R228). The tree's key of a node is its pitch address; `parent` is that of the node for the chunk
before it. -/
structure TreeNode where
  hash : Nat
  parent : Nat
  chunk : Nat
  pages : List Nat
  latches : List Latch
  lastUsed : Nat
  users : Nat
  tokens : List Nat
  deriving DecidableEq, Repr

/-- Slot states (R158). -/
inductive SlotState where
  | empty | filling | full | draining
  deriving DecidableEq, Repr

/-- A slot descriptor (R157) with its releases (R159) and, for a persistent slot, the state of the last boundary (R160). -/
structure Slot where
  base : Nat
  size : Nat
  home : Nat
  producer : Nat
  readers : Nat
  persistent : Bool
  state : SlotState
  closing : Bool
  released : List Nat
  contents : List Byte
  bState : SlotState
  bReleased : List Nat
  deriving DecidableEq, Repr

/-- A sync object (R161). -/
structure Sync where
  count : Nat
  consumer : Option Nat
  deriving DecidableEq, Repr

/-- A tensor of a loaded package: header fields, row-start table (R33) and block CRCs (R454). -/
structure LoadedTensor where
  address : Nat
  format : Nat
  n : Nat
  m : Nat
  expOffset : Int
  k : Nat
  rows : Nat
  scale : Word
  payloadBytes : Nat
  golden : Nat
  rowStarts : List Nat
  crcs : List Nat
  faulty : List Nat
  deriving DecidableEq, Repr

/-- A camp program in command memory (R146, R174), with the linear operations whose operand each REQOUT forms, by command index (R298, R305). -/
structure LoadedProgram where
  program : Nat
  commands : Nat
  watchdogUs : Nat
  base : Nat
  camps : List Nat
  forms : NMap (List Nat)
  deriving DecidableEq, Repr

/-- A package in service (R33, R175, R296, R456). `codedFaulty` lists the blocks of coded regions whose golden copy has failed, by region
address and block number. -/
structure LoadedPackage where
  digest : Nat
  vocab : Nat
  region : Option Nat
  tensors : List LoadedTensor
  programs : List LoadedProgram
  layers : List LayerImage
  coded : List CodedRegion
  codedFaulty : List (Nat × Nat)
  restored : Option Nat
  deriving DecidableEq, Repr

/-- A row of a micro-batch (R185, R353, R354). -/
structure MicroRow where
  seq : Nat
  rid : Option Nat
  contextLength : Nat
  newTokens : Nat
  tokenBase : Nat
  flags : Nat
  mask : Nat
  tokens : List Nat
  sample : Option SampleParams
  deriving DecidableEq, Repr

/-- Pages chosen for a row and layer (R216), predicted for the next step (R219), the pitch address of the row's chunk list once it has been
written (R217), and the chunk ranges of its splits: first chunk and the chunk after the last (R196). -/
structure Chosen where
  seq : Nat
  layer : Nat
  pages : List Nat
  predicted : List Nat
  list : Option Nat
  splits : List (Nat × Nat)
  deriving DecidableEq, Repr

/-- A repair that a run of an abandoned step was waiting for (R454, R457, R459): the weight block at a DA, a lane that mismatched again, or the core of
a run that may not be repeated. -/
inductive Repair where
  | block (da : Nat)
  | lane (camp core : Nat) (m : Mismatch)
  | core (camp core : Nat) (m : Mismatch)
  deriving DecidableEq, Repr

/-- Run-time state of a pitch; `repairs` are those that wait before the step runs again (R459); `loadResult` is the return code of the latest package load (R33, R175, R296). `preshifted` lists the
positions of R80 that the step has counted (sequence handle, token position, layer, operation, reduction position), `kvNoted` the chunks of
R201 that it has reported (sequence handle, layer, KV head, K or V, first position), and `blindNoted` the rows without a visible key that it
has counted (R198: sequence handle, layer, KV head, query head, token position), and `nanScores` the scores of visible pairs that have been read as
NaN (the same five, then the key's position). `sent` says that the step has begun to send its hidden states (phase 8 of R29), and `toInsert` holds the
rows whose completed chunks the lead still has to insert at the group's step boundary (R229, R231). `lookout` is the Lookout buffer, and `lookoutRead` holds what
LDACC has read of a sampled tile: sequence, layer, whether the tile ran in A16, and its eight values (R298). `readySyncs` are the sync objects that the step's start messages name, by layer
(R217), `decisions` the lead's decisions that the next start tick sends to the other modules of its group (R229, R361), `carried` predicted pages that an earlier step left in the promotion queue (R219), and `tableChunks` the pitch addresses of the 4 KiB pieces of the page table (R203). -/
structure Pitch where
  enabled : Bool
  stopped : Bool
  groupDisabled : Bool
  joinAt : Option Nat
  package : Option LoadedPackage
  loadResult : Option Nat
  slots : NMap Slot
  syncs : NMap Sync
  pages : NMap Page
  tree : NMap TreeNode
  stepCount : Nat
  groupStep : Nat
  inStep : Bool
  batch : List MicroRow
  batches : NMap (List MicroRow)
  tableSlot : Option Nat
  readySyncs : NMap Nat
  chosen : List Chosen
  carried : List Nat
  decisions : List LeadDecision
  tableChunks : List Nat
  reports : List Nat
  nextTick : Option Nat
  timeouts : Nat
  uncorrectable : Nat
  lookout : List (Nat × Nat × List Word)
  lookoutRead : List (Nat × Nat × Bool × List Word)
  blindNoted : List (Nat × Nat × Nat × Nat × Nat)
  nanScores : List (Nat × Nat × Nat × Nat × Nat × Nat)
  sent : Bool
  toInsert : List MicroRow
  spareUsed : List Nat
  campOf : NMap Nat
  reruns : Nat
  repairs : List Repair
  preshifted : List (Nat × Nat × Nat × Nat × Nat)
  kvNoted : List (Nat × Nat × Nat × Nat × Nat)
  demoting : Bool
  allocated : NMap Nat
  deriving DecidableEq, Repr

/-! ### Camps -/

/-- An accumulator: its value and the residue carried with it (R66, R74). -/
structure Acc where
  v : Int
  res : Nat
  deriving DecidableEq, Repr

/-- The format of an operand code as the gather stage issues it (R307, R485, R486): outlier codes take passes of their own. -/
inductive CodeForm where
  | a4 | a8 | a16 | outlier
  deriving DecidableEq, Repr

/-- One addition of a lane (R64, R66, R76): reduction position, sign, operand with its residue, shift, and whether the position ends with
it. -/
structure LaneOp where
  pos : Nat
  sigma : Int
  op : Int
  opRes : Nat
  sh : Nat
  last : Bool
  deriving DecidableEq, Repr

/-- One pass in a lane's operand queue: its tile (key of R131), slab, the lane mode in which it is issued (R485), its addition, and in dual
A4 mode the addition of the odd position that the lane makes in the same step (R70). -/
structure Pass where
  tile : Nat
  slab : Nat
  mode : Nat
  first : LaneOp
  second : Option LaneOp
  deriving DecidableEq, Repr

/-- One product of an element (R69, R77 to R80, R82): reduction position, operand code, pre-shift, generator value, alignment shift,
the code's format, the multiplier's (sign, place) pairs, and the token and position that R80 counts: sequence handle, token position,
reduction position. -/
structure Term where
  pos : Nat
  code : Int
  pre : Nat
  u : Nat
  align : Nat
  form : CodeForm
  mult : List (Int × Nat)
  charge : Option (Nat × Nat × Nat)
  deriving DecidableEq, Repr

/-- An operand code of a tile row as the gather stage issues it (R98 stage 4, R486): reduction position, code, scale exponent and
format. -/
structure OpCode where
  pos : Nat
  code : Int
  exp : Int
  form : CodeForm
  deriving DecidableEq, Repr

/-- What the gather stage has read of a tile row (R78, R150): its activation row, sequence handle, generator coordinates x0, x2 and sub,
base exponent e_lo, and operand codes. -/
structure RowRead where
  act : Nat
  handle : Option Nat
  pos : Nat
  stream : Nat
  sub : Nat
  unit : Int
  codes : List OpCode
  deriving DecidableEq, Repr

/-- An output element of a tile (R73, R82); `score` says that it is the score of a pair that the row's mask
shows, and of which KV head and key position (R192, R198); `result` is the sum that the join of a wide rerun delivered (R84, R85). -/
structure Elem where
  row : Nat
  col : Nat
  score : Option (Nat × Nat)
  level : Nat
  done : Bool
  overflowed : Bool
  result : Int
  terms : List Term
  deriving DecidableEq, Repr

/-- The state of a tile run (R84, R85, R89, R91, R106, R225). -/
inductive RunState where
  | running
  | awaitingBlock (da : Nat)
  | awaitingPage (page : Nat)
  | accepted
  deriving DecidableEq, Repr

/-- A weight format fault that reached issue (R105 to R108), or an uncorrectable weight word (code 0; R252). `block` is the DA of the
first byte of the block of R106 that holds it. -/
structure WeightMark where
  code : Nat
  da : Nat
  row : Nat
  bit : Nat
  block : Nat
  deriving DecidableEq, Repr

/-- The weight stream of a tile of modes 0 to 4: tensor, bound rows, orientation, and the tile's first column and slice (R95, R150). -/
structure TileSource where
  tensor : LoadedTensor
  firstRow : Nat
  rowCount : Nat
  transposed : Bool
  col0 : Nat
  k0 : Nat
  k : Nat
  deriving DecidableEq, Repr

/-- A decoded slot between stages 3 and 4 of the engine (R102): reduction position, (sign, place) pairs, and any fault mark. -/
structure DecodedSlot where
  pos : Nat
  mult : List (Int × Nat)
  mark : Option WeightMark
  deriving DecidableEq, Repr

/-- A tile on one core: its configuration, elements, run and what the lanes reported (R73 to R92, R131). The run goes through the engine
of R98: `coming` are the slots that the decoder has still to give and `decoded` its queue of at most 16 slots, by column stream (R102);
`plan` are the positions that stage 4 has still to compact, and `feed` the expanded passes that wait for the lane queues (R88), each with
its lane. -/
structure TileRun where
  base : Nat
  wide : Bool
  height : Nat
  mode : Nat
  layer : Nat
  op : Nat
  src : Option TileSource
  rows : List RowRead
  elems : List Elem
  run : Nat
  wideRerun : Bool
  half : Nat
  state : RunState
  discards : Nat
  lastMis : List Nat
  mark : Option WeightMark
  mis : List Mismatch
  slots : List (List DecodedSlot)
  coming : List (List DecodedSlot)
  decoded : List (List DecodedSlot)
  plan : NMap (List (Nat × Pass))
  feed : List (Nat × Pass)
  deriving DecidableEq, Repr

/-- A value of the requantisation buffer (R134): exact m * 2^e, or the bits of a non-finite FP32 value. -/
inductive ReqVal where
  | exact (m e : Int)
  | special (w : Word)
  deriving DecidableEq, Repr

/-- The requantisation buffer of a core (R134). -/
structure ReqBuf where
  cells : NMap ReqVal
  tags : NMap (Nat × Nat)
  deriving DecidableEq, Repr

/-- A core (R15, R74, R88, R92, R121, R134, R152, R153): `queues` are the operand queues of its lanes. -/
structure Core where
  retired : Bool
  lanesRetired : List Nat
  laneMap : NMap Nat
  sp : List Host.Cell
  win : NMap (BitVec 64)
  t : NMap (List Word)
  sreg : NMap Word
  acc : NMap Acc
  tiles : List TileRun
  queues : NMap (List Pass)
  req : ReqBuf
  deriving DecidableEq, Repr

/-- A loop in progress (R151). -/
structure LoopFrame where
  start : Nat
  stop : Nat
  count : Nat
  i : Nat
  spStride : Nat
  slotStride : Nat
  deriving DecidableEq, Repr

/-- Why a camp waits (R89, R119, R146, R149, R164), or a memory access that its unit does not admit yet (R248, R258, R260). The first five are
timed by the watchdog, the others are not (R165). -/
inductive WaitReason where
  | slotRead (n : Nat)
  | slotWrite (n : Nat)
  | sync (n : Nat)
  | hopen (inst : Nat)
  | hclose (inst : Nat)
  | join
  | fence
  | memory
  | slice (d : Nat)
  | wake
  deriving DecidableEq, Repr

/-- A blocked wait (R164, R165): its reason, the command, the Cairn count when it blocked, and whether what it waits for has come, so that the
command is taken again. -/
structure Blocked where
  reason : WaitReason
  w : CmdWord
  since : Nat
  ready : Bool
  deriving DecidableEq, Repr

/-- A running program of a camp sequencer (R146, R151, R165, R174, R176). `pc` counts commands from the program's base. -/
structure Program where
  number : Nat
  base : Nat
  commands : Nat
  pc : Nat
  tableSlot : Nat
  params : List Word
  limitUs : Nat
  loops : List LoopFrame
  deriving DecidableEq, Repr

/-- A multiplier descriptor that a WSTREAM bound (R182). -/
structure MultDesc where
  product : Nat
  kvHead : Nat
  ones : Bool
  group : Nat
  headDim : Nat
  layer : Nat
  chunks : List (Nat × Nat × Nat × Nat)
  deriving DecidableEq, Repr

/-- The weight stream of a camp (R149, R150). -/
inductive Stream where
  | weights (tensor : LoadedTensor) (firstRow rowCount : Nat)
  | chunks (d : MultDesc)
  deriving DecidableEq, Repr

/-- The TILECFG in force (R149). -/
structure TileCfg where
  task : Nat
  k0 : Nat
  rowBase : Nat
  firstAct : Nat
  kTotal : Nat
  layer : Nat
  deriving DecidableEq, Repr

/-- Data of a run-ahead read in the Larder buffer of the camp (R170, R171); `noted` are the corrections that the read met, which are reported when
the data is read in order. -/
structure RunAheadEntry where
  index : Nat
  da : Nat
  bytes : List Byte
  stale : Bool
  noted : List Finding
  deriving DecidableEq, Repr

/-- A camp (R15, R146, R150, R170, R367). -/
structure Camp where
  fenced : Bool
  cmdMem : NMap CmdWord
  prog : Option Program
  blocked : Option Blocked
  stream : Option Stream
  cfg : Option TileCfg
  ahead : List RunAheadEntry
  cores : NMap Core
  deriving DecidableEq, Repr

/-- An entry of a hash accumulator (R113), with the residue modulo 7 that its adder carries (R117). -/
structure HashEntry where
  key : Nat
  sum : Int
  res : Nat
  count : Nat
  deriving DecidableEq, Repr

/-- An open epoch (R115 to R119); `closing` holds the sync object of its HCLOSE and the camp that waits for the merge. -/
structure Epoch where
  pitch : Nat
  maxContributions : Nat
  spillBase : Nat
  outBase : Nat
  contributions : Nat
  spilled : Nat
  closing : Option (Nat × Nat)
  deriving DecidableEq, Repr

/-- A hash accumulator instance (R113): its entries by 4 * bucket + way. -/
structure HashInst where
  epoch : Option Epoch
  entries : NMap HashEntry
  deriving DecidableEq, Repr

/-- What a checkpoint of a Ranger pair holds of the state that the pair keeps beside the module's (R447, R453): the step boundary's Cairn count and how
far SPDM has been negotiated. -/
structure Checkpoint where
  time : Nat
  spdmVersion : Bool
  spdmAlgorithms : Bool
  deriving DecidableEq, Repr

/-- The Ranger pairs with the last checkpoint of each (R453) and the SPDM responder (R447). -/
structure Ranger where
  pairMismatch : NMap Nat
  spdmVersion : Bool
  spdmAlgorithms : Bool
  checkpoints : NMap Checkpoint
  deriving DecidableEq, Repr

/-! ### The whole module -/

/-- The module's state. -/
structure State where
  pending : List Instr
  out : List Output
  freeCtr : Nat
  cairn : Cairn
  ev : EventLog
  nvm : Nvm
  boot : Boot
  cfg : Option Configuration
  pw : Power
  mem : Memory
  fab : Fabric
  eth : Ethernet
  host : HostPort
  seqs : NMap SeqEntry
  reqs : List Request
  reqNext : Nat
  pitches : NMap Pitch
  camps : NMap Camp
  hash : List HashInst
  ranger : Ranger
  deriving DecidableEq, Repr

/-! ### Reset -/

/-- The Cairn counter before its first step (R405). -/
def Cairn.reset : Cairn where
  count := 0
  frac := 0
  locked := false
  good := 0
  holdover := false
  slew := 0
  exchange := 0
  t1 := none
  parent := none
  depth := 0
  steppedPps := false
  tookNeighbour := false
  asked := []
  ppsSeen := false
  offset := 0

/-- No event has been written (R413). -/
def EventLog.reset : EventLog where
  written := 0
  window := []
  seen := []
  counted := []
  ramRing := []
  inRam := false
  waiting := []

/-- A blank NOR and fuses that are not enrolled (DESIGN CHOICE: notes/assumptions/4.md). -/
def Nvm.blank : Nvm where
  header0 := []
  header1 := []
  fwA := []
  fwB := []
  cfgA := []
  cfgB := []
  lock := ⟨false, 0⟩
  certs := []
  pqCerts := []
  sectors := []
  head := 0
  sparesUsed := 0
  fuses := ⟨none, 0, [], [], [], [], [], 0⟩

/-- Before VAUX is good no start phase has run (R435). -/
def Boot.reset : Boot where
  phase := 0
  arraysDone := false
  hbmDone := false
  linksDone := false
  clearDone := false
  ready := false
  configRefused := false
  slot := 0
  onTrial := false
  release := 0
  configFormat := 0
  cfgSlot := none
  cfgSigOk := false
  readyAt := none
  arm := none
  verified := []
  chain := none
  campMap := []
  fencedLogical := []
  retiredPhys := []
  straps := 0#4
  subFirmware := none
  identity := none

/-- A die at point 0 (R470). -/
def Die.reset : Die where
  point := 0
  junction := 0
  throttled := false
  limited := false
  hot := false
  hotPoint := 0
  hotTook := false
  coolSince := none
  lastThrottle := none

/-- No supply is good (R482's reset column). -/
def Power.reset : Power where
  vaux := false
  rails := false
  mainGood := false
  backupGood := false
  onBackup := false
  trip := false
  tripDie := none
  powerLoss := false
  inlet := 0
  power := 0
  backupSince := none
  parked := false
  toPark := []
  dies := List.replicate 8 Die.reset
  coolantHigh := false
  lastChange := 0
  belowSince := none
  lastLower := none
  emergencyAt := none

/-- A stack before its first reading (R247: base interval). -/
def Stack.reset : Stack where
  temp := 0
  mult := 1
  throttle := false
  coolSince := none

/-- A port before training (R255). -/
def CapPort.reset : CapPort where
  state := .down
  capacity := 0
  downSince := none
  cleared := false

/-- Memory with nothing listed (R374) and N not yet fixed (R413: hbm_gib 0). -/
def Memory.reset : Memory where
  bytes := []
  n := 0
  retired := []
  marked := []
  corrSeconds := []
  hbmStacks := List.replicate 16 Stack.reset
  ports := List.replicate 8 CapPort.reset
  units := []
  late := []
  scrub := []

/-- A link that is down, with the credits of R391. -/
def Link.reset : Link where
  state := .down
  txSeq := 0
  rxSeq := 0
  acked := 4095
  credits := [32, 448, 32]
  owed := [0, 0, 0]
  retry := []
  discarding := false
  sameAck := 0
  lastRetryAck := none
  partialPkt := []
  inbox := []
  downSince := none

/-- The fabric before training. -/
def Fabric.reset : Fabric where
  links := List.replicate 24 Link.reset
  sends := []
  nextTransfer := 0
  recvs := []
  doneTransfers := []
  waiting := []
  mgmtIn := []
  grant := 0
  turn := 0

/-- The Ethernet ports before training. -/
def Ethernet.reset : Ethernet where
  up := [false, false]
  neighbours := []
  pathMtu := []
  sessions := []

/-- A mailbox at its reset values (R417; staging, message and reply: notes/assumptions/8.md). -/
def Mailbox.reset : Mailbox where
  staging := List.replicate 15 0#32
  message := List.replicate 16 0#32
  reply := List.replicate 16 0#32
  state := .empty
  collision := false
  postedSeq := 0
  takenSeq := 0
  ackCode := 0
  ackSeq := 0
  ackValid := false
  vector := 0
  ackInt := false

/-- A function at its reset values (R413, R414, R417, R424). -/
def Function.reset : Function where
  resetting := false
  attached := false
  challenge := none
  sub := []
  comp := []
  mail := []
  cairnHi := 0
  eventVector := 0
  eventInt := false
  msixEnable := false
  msixMask := false
  msix := []

/-- The host port before training. -/
def HostPort.reset : HostPort where
  up := false
  refused := false
  vfEnable := false
  numVfs := 0
  aer := 0#32
  ide := false
  fns := []

/-- Counters at zero (R299). -/
def Counters.zeros : Counters := ⟨0, 0, 0, 0, 0, 0, 0, 0⟩

/-- A latch record that has seen no outcome (R303). -/
def Latch.fresh : Latch := ⟨0, 0, false, 0⟩

/-- An empty staging buffer (R207). -/
def Staging.fresh : Staging := ⟨0, 0, 0, 0, 0, false, 0⟩

/-- A layer of a sequence that holds no token. -/
def LayerState.fresh : LayerState where
  pages := []
  listAt := []
  superAt := []
  staging := Staging.fresh
  supers := []
  counters := Counters.zeros
  latch := Latch.fresh
  stepBlocks := 0
  stepSaturated := 0
  pendingPages := []

/-- A free entry at generation 1 (R333). -/
def SeqEntry.fresh : SeqEntry where
  generation := 1
  state := .free
  hold := 0
  holdRegion := none
  inexact := false
  exported := none
  importing := none
  source := none
  pitch := 0
  streamId := 0
  length := 0
  step := 0
  pending := none
  tokens := []
  insert := false
  node := none
  links := []
  layers := []
  journal := []
  park := none
  readyAt := 0

/-- A free page descriptor (R205). -/
def Page.fresh : Page where
  state := .free
  tag := 0
  layer := 0
  firstPosition := 0
  refcount := 0
  kvHeads := 0
  dim32 := 0
  hot := 0
  warm := 0
  summaryAt := 0
  summary := []
  digest := 0
  lastSelected := 0
  wanted := false
  doomed := false

/-- A sync object at zero without a consumer (R161). -/
def Sync.fresh : Sync := ⟨0, none⟩

/-- A pitch that nothing has used. -/
def Pitch.fresh : Pitch where
  enabled := false
  stopped := false
  groupDisabled := false
  joinAt := none
  package := none
  loadResult := none
  slots := []
  syncs := []
  pages := []
  tree := []
  stepCount := 0
  groupStep := 0
  inStep := false
  batch := []
  batches := []
  tableSlot := none
  readySyncs := []
  chosen := []
  carried := []
  decisions := []
  tableChunks := []
  reports := []
  nextTick := none
  timeouts := 0
  uncorrectable := 0
  lookout := []
  lookoutRead := []
  blindNoted := []
  nanScores := []
  sent := false
  toInsert := []
  spareUsed := []
  campOf := []
  reruns := 0
  repairs := []
  preshifted := []
  kvNoted := []
  demoting := false
  allocated := []

/-- An empty requantisation buffer (R134). -/
def ReqBuf.fresh : ReqBuf := ⟨[], []⟩

/-- A core whose registers and scratchpad hold zero (R121, R153, R374; accumulators: DESIGN CHOICE: notes/assumptions/9.md). -/
def Core.fresh : Core where
  retired := false
  lanesRetired := []
  laneMap := []
  sp := []
  win := []
  t := []
  sreg := []
  acc := []
  tiles := []
  queues := []
  req := ReqBuf.fresh

/-- A camp that runs no program. -/
def Camp.fresh : Camp where
  fenced := false
  cmdMem := []
  prog := none
  blocked := none
  stream := none
  cfg := none
  ahead := []
  cores := []

/-- A closed hash accumulator instance with free entries (R113). -/
def HashInst.fresh : HashInst := ⟨none, []⟩

/-- The Ranger before its first mismatch. -/
def Ranger.reset : Ranger := ⟨[], false, false, []⟩

/-- The module without power, before VAUX becomes good: a start begins at VAUX good (R465). -/
def State.reset : State where
  pending := []
  out := []
  freeCtr := 0
  cairn := Cairn.reset
  ev := EventLog.reset
  nvm := Nvm.blank
  boot := Boot.reset
  cfg := none
  pw := Power.reset
  mem := Memory.reset
  fab := Fabric.reset
  eth := Ethernet.reset
  host := HostPort.reset
  seqs := []
  reqs := []
  reqNext := 0
  pitches := []
  camps := []
  hash := List.replicate 8 HashInst.fresh
  ranger := Ranger.reset

end Sys2Proof.Machine
end

