-- ==== Sys2Proof/Machine/Ops.lean ====
section
/-! DEFINITION. The named operations over the state: sparse maps, byte memory, little-endian fields, event records, free values,
and the accessors of camps, cores, pitches and sequences. -/

namespace Sys2Proof.Machine

/-! ### Sparse maps -/

/-- The value at a key, if the map lists one. -/
def mget {α : Type} : NMap α → Nat → Option α
  | [], _ => none
  | (a, v) :: t, k => if a = k then some v else mget t k

/-- Put a value at a key, keeping the keys rising. -/
def mset {α : Type} : NMap α → Nat → α → NMap α
  | [], k, v => [(k, v)]
  | (a, w) :: t, k, v =>
    if k < a then (k, v) :: (a, w) :: t
    else if k = a then (k, v) :: t
    else (a, w) :: mset t k v

/-- Take a key out of a map. -/
def mdel {α : Type} : NMap α → Nat → NMap α
  | [], _ => []
  | (a, w) :: t, k => if a = k then mdel t k else (a, w) :: mdel t k

/-- The keys of a map rise strictly. -/
def keysRise {α : Type} : NMap α → Bool
  | [] => true
  | [_] => true
  | a :: b :: t => decide (a.1 < b.1) && keysRise (b :: t)

/-- The value at a key, or a default. -/
def mgetD {α : Type} (m : NMap α) (k : Nat) (d : α) : α := (mget m k).getD d

/-- The first key and value that satisfy a test. -/
def mfind {α : Type} (m : NMap α) (p : Nat → α → Bool) : Option (Nat × α) :=
  m.find? fun kv => p kv.1 kv.2

/-- Apply a function to every value. -/
def mmap {α : Type} (m : NMap α) (f : Nat → α → α) : NMap α := m.map fun kv => (kv.1, f kv.1 kv.2)

/-! ### Bytes and memory -/

/-- What a memory byte that nothing has written reads as: arrays are zeroed at each start (R374). -/
def unlisted : Byte := 0#8

/-- Read one byte. -/
def rdByte (m : List Host.Cell) (a : Nat) : Byte := mgetD m a unlisted

/-- Write one byte, keeping the canonical form: the value that an unlisted address reads as is not listed. -/
def wrByte (m : List Host.Cell) (a : Nat) (b : Byte) : List Host.Cell :=
  if b = unlisted then mdel m a else mset m a b

/-- Read `n` bytes from address `a`. -/
def rdBytes (m : List Host.Cell) (a n : Nat) : List Byte := (List.range n).map fun i => rdByte m (a + i)

/-- Write bytes from address `a` upward. -/
def wrBytes (m : List Host.Cell) (a : Nat) : List Byte → List Host.Cell
  | [] => m
  | b :: t => wrBytes (wrByte m a b) (a + 1) t

/-- The canonical form of a memory: addresses rise strictly and no entry equals what an unlisted address reads as. -/
def memWf (m : List Host.Cell) : Bool := keysRise m && m.all fun c => decide (c.2 ≠ unlisted)

/-- Write `n` zero bytes from address `a` (R374): the range becomes unlisted. -/
def zeroRange (m : List Host.Cell) (a n : Nat) : List Host.Cell := m.filter fun c => !(decide (a ≤ c.1) && decide (c.1 < a + n))

/-- The value of little-endian bytes (R7). -/
def leVal : List Byte → Nat
  | [] => 0
  | b :: t => b.toNat + 256 * leVal t

/-- The little-endian field of `n` bytes at offset `off` (R7, R10). -/
def leAt (bs : List Byte) (off n : Nat) : Nat := leVal ((bs.drop off).take n)

/-- `n` little-endian bytes of a value (R7). -/
def leBytes : Nat → Nat → List Byte
  | 0, _ => []
  | n + 1, v => BitVec.ofNat 8 v :: leBytes n (v / 256)

/-- Bits [hi:lo] of a natural number (R7). -/
def bitsOf (v hi lo : Nat) : Nat := (v / 2 ^ lo) % 2 ^ (hi + 1 - lo)

/-- Bit n of a natural number (R7). -/
def bitOf (v n : Nat) : Bool := (v / 2 ^ n) % 2 = 1

/-- Whether every byte of a range is zero: reserved fields (R9). -/
def zerosAt (bs : List Byte) (off n : Nat) : Bool := ((bs.drop off).take n).all fun b => decide (b = 0#8)

/-- Extend a byte list with zeros to a length. -/
def padTo (n : Nat) (bs : List Byte) : List Byte := bs.take n ++ List.replicate (n - bs.length) 0#8

/-- A big-endian number of n bytes. -/
def beBytes (n v : Nat) : List Byte := (leBytes n v).reverse

/-- ASCII bytes of a string. -/
def ascii (t : String) : List Byte := t.toList.map fun c => BitVec.ofNat 8 c.toNat

/-- One bit of the reflected CRC-32C (R266). -/
def crc32cBit (c : Nat) : Nat := if c % 2 = 1 then (c / 2) ^^^ 0x82F63B78 else c / 2

/-- One byte of the reflected CRC-32C. -/
def crc32cByte (c : Nat) (b : Byte) : Nat :=
  let x := c ^^^ b.toNat
  crc32cBit (crc32cBit (crc32cBit (crc32cBit (crc32cBit (crc32cBit (crc32cBit (crc32cBit x)))))))

/-- CRC-32C with the parameters of RFC 3720 (R266). -/
def crc32c (bs : List Byte) : Nat := (bs.foldl crc32cByte 0xFFFFFFFF) ^^^ 0xFFFFFFFF

/-- Read a two's-complement value of w bits from a natural number. -/
def signed (w v : Nat) : Int := if v % 2 ^ w < 2 ^ (w - 1) then (v % 2 ^ w : Nat) else (v % 2 ^ w : Nat) - (2 ^ w : Nat)

/-- The natural number whose w low bits hold a two's-complement integer. -/
def unsignedOf (w : Nat) (i : Int) : Nat := (i % (2 ^ w : Nat)).toNat

/-- Residue modulo 7 of an integer, 0 to 6 (R90, R117). -/
def res7 (v : Int) : Nat := (v % 7).toNat

/-- Ceiling of a quotient of naturals. -/
def ceilDiv (a b : Nat) : Nat := (a + b - 1) / b

/-- Put a value at an index of a list. -/
def lset {α : Type} (l : List α) (i : Nat) (v : α) : List α := l.set i v

/-- Put an element before the first one of a list that it may stand before. -/
def insertBy {α : Type} (le : α → α → Bool) (a : α) : List α → List α
  | [] => [a]
  | b :: t => if le a b then a :: b :: t else b :: insertBy le a t

/-- A list in the order of a test; equal elements keep their order. -/
def sortBy {α : Type} (le : α → α → Bool) : List α → List α
  | [] => []
  | a :: t => insertBy le a (sortBy le t)

/-! ### Return codes (R14) -/

/-- DONE. -/
def rcDone : Nat := 0x0000
/-- ACCEPTED. -/
def rcAccepted : Nat := 0x0001
/-- BUSY. -/
def rcBusy : Nat := 0x0010
/-- REFUSED_STATE. -/
def rcRefusedState : Nat := 0x0011
/-- REFUSED_LOCK. -/
def rcRefusedLock : Nat := 0x0012
/-- REFUSED_SUPPLY. -/
def rcRefusedSupply : Nat := 0x0013
/-- REFUSED_MOVING. -/
def rcRefusedMoving : Nat := 0x0014
/-- BAD_ARGUMENT. -/
def rcBadArgument : Nat := 0x0020
/-- BAD_HANDLE. -/
def rcBadHandle : Nat := 0x0021
/-- NOT_PERMITTED. -/
def rcNotPermitted : Nat := 0x0030
/-- INTEGRITY_FAIL. -/
def rcIntegrityFail : Nat := 0x0040
/-- AUTH_FAIL. -/
def rcAuthFail : Nat := 0x0041
/-- NO_CAPACITY. -/
def rcNoCapacity : Nat := 0x0050
/-- DEADLINE_PASSED. -/
def rcDeadlinePassed : Nat := 0x0060
/-- VERSION_MISMATCH. -/
def rcVersionMismatch : Nat := 0x0070
/-- INTERNAL. -/
def rcInternal : Nat := 0xFFFF

/-! ### Free values -/

/-- A free natural number, and the state with the counter advanced (DESIGN CHOICE: notes/assumptions/3.md). -/
def drawNat (s : State) : Nat × State := (Config.freeNat s.freeCtr, { s with freeCtr := s.freeCtr + 1 })

/-- Bytes from the entropy source (R317, R349, R421), and the state with the counter advanced. -/
def drawBytes (s : State) (n : Nat) : List Byte × State :=
  (padTo n (Config.entropy s.freeCtr n), { s with freeCtr := s.freeCtr + 1 })

/-! ### Time -/

/-- A count is 64 bits of nanoseconds (R401). -/
def count64 (n : Nat) : Nat := n % 2 ^ 64

/-- The count when a row happens at `now`: the count never runs backwards (R403). -/
def atTime (s : State) (now : Nat) : State := { s with cairn := { s.cairn with count := max s.cairn.count (count64 now) } }

/-- The count after a nanosecond of the reference (R401), with the correction of the tick rate (R403): 1/256 ns each 40 ns, 98 ppm. -/
def tick (c : Cairn) : Cairn :=
  if c.count % 40 = 0 ∧ 0 < c.slew then
    if c.frac = 255 then { c with count := count64 (c.count + 2), frac := 0, slew := c.slew - 1 }
    else { c with count := count64 (c.count + 1), frac := c.frac + 1, slew := c.slew - 1 }
  else if c.count % 40 = 0 ∧ c.slew < 0 then
    if c.frac = 0 then { c with frac := 255, slew := c.slew + 1 }
    else { c with count := count64 (c.count + 1), frac := c.frac - 1, slew := c.slew + 1 }
  else { c with count := count64 (c.count + 1) }

/-- A nanosecond passes (R401): the effect of a step on an empty queue (DESIGN CHOICE: notes/assumptions/1.md). -/
def idle (s : State) : State := { s with cairn := tick s.cairn }

/-- The Cairn second of the present count. -/
def second (s : State) : Nat := s.cairn.count / 1000000000

/-! ### Event records (R450 to R452, R461, R462) -/

/-- Source ID of a camp sequencer (R451). -/
def srcCamp (camp : Nat) : Nat := 0x200000 + camp
/-- Source ID of a host function and mailbox (R418, R451). -/
def srcFn (fn mb : Nat) : Nat := 256 * fn + mb
/-- Source ID of a fabric peer (R451). -/
def srcPeer (device : Nat) : Nat := 0x300000 + device
/-- Source ID of an Ethernet session (R451). -/
def srcSession (n : Nat) : Nat := 0x400000 + n
/-- Source ID of the management session (R451). -/
def srcManagement : Nat := 0x500000
/-- Source ID of a Ranger core (R451): which of the eight cores acts is a free value (DESIGN CHOICE: notes/assumptions/11.md). -/
def srcRanger (s : State) : Nat := 0x100000 + Config.freeNat s.freeCtr % 8

/-- The pitch field of an event that belongs to no pitch (R450). -/
def noPitch : Nat := 0xFFFF

/-- Which records are critical (R452). -/
def isCritical (cls code : Nat) (attempt : Nat) : Bool :=
  if cls = 0x01 ∨ cls = 0x03 ∨ cls = 0x08 ∨ cls = 0x09 ∨ cls = 0x0A ∨ cls = 0x0B then true
  else if cls = 0x02 then decide (code = 0x0602 ∨ code = 0x0604 ∨ code = 0x0606 ∨ code = 0x0607 ∨ code = 0x0608)
  else if cls = 0x05 then decide ((0x0703 ≤ code ∧ code ≤ 0x0705) ∨ (0x0E07 ≤ code ∧ code ≤ 0x0E09))
  else if cls = 0x06 then decide (code = 0x0C01 ∨ (code = 0x0C02 ∧ attempt = 2) ∨ code = 0x0C07)
  else if cls = 0x07 then decide (code = 0x0D06)
  else if cls = 0x0C then decide (code = 0x0901 ∨ code = 0x0A03)
  else false

/-- The attempt byte of a fabric record (R406: detail offset 28). -/
def attemptOf (detail : List Byte) : Nat := leAt detail 12 1

/-- An event record in its layout (R450). -/
def eventBytes (e : EventRec) : List Byte :=
  leBytes 8 e.time ++ leBytes 3 e.source ++ leBytes 1 e.cls ++ leBytes 2 e.code ++ leBytes 2 e.pitch ++ padTo 16 e.detail

/-- Records that one sector of the critical-event ring holds (R461). -/
def sectorRecords : Nat := 2046

/-- The 64-byte header of a sector (R461): its CRC-32C covers bytes 0 to 59. -/
def sectorHeader (seq pos erases : Nat) : List Byte :=
  let b := ascii "VZER" ++ leBytes 4 seq ++ leBytes 2 pos ++ leBytes 2 0 ++ leBytes 4 erases ++ leBytes 44 0
  b ++ leBytes 4 (crc32c b)

/-- Sequence of a header. -/
def sectorSeq (x : RingSector) : Nat := leAt x.header 4 4
/-- Ring position that a header names. -/
def sectorIndex (x : RingSector) : Nat := leAt x.header 8 2
/-- Erase count of a header. -/
def sectorErases (x : RingSector) : Nat := leAt x.header 12 4

/-- A header is valid (R461): magic, reserved fields and CRC. -/
def headerValid (x : RingSector) : Bool :=
  decide (x.header.length = 64) && decide (x.header.take 4 = ascii "VZER") && decide (sectorIndex x < 128) && zerosAt x.header 10 2 && zerosAt x.header 16 44
    && decide (leAt x.header 60 4 = crc32c (x.header.take 60))

/-- A sector that has been opened at a ring position and holds no record. -/
def freshSector (seq pos erases : Nat) : RingSector := ⟨sectorHeader seq pos erases, []⟩

/-- The physical sector that holds a ring position: the last spare that was taken for it, else its own (R463). -/
def sectorOf (n : Nvm) (pos : Nat) : Nat :=
  (((List.range 16).map fun k => 143 - k).find? fun k => (mget n.sectors k).any fun x => headerValid x && decide (sectorIndex x = pos)).getD pos

/-- The sector of the ring position at which records are appended; before any was opened it is a fresh one (notes/assumptions/33.md). -/
def headSector (n : Nvm) : RingSector := mgetD n.sectors (sectorOf n n.head) (freshSector 0 n.head 0)

/-- The last n elements of a list. -/
def lastN {α : Type} (n : Nat) (l : List α) : List α := (l.reverse.take n).reverse

/-- Append a critical record at the head of the ring; a full sector keeps it waiting until SECTOR_ERASE opens the next position
(R462); a ring in Ranger memory holds at most 65,536 records (R463). -/
def appendCritical (s : State) (e : EventRec) : State :=
  if s.ev.inRam then
    { s with ev := { s.ev with ramRing := lastN 65536 (s.ev.ramRing ++ [e]) } }
  else
    let sec := headSector s.nvm
    if sec.records.length < sectorRecords ∧ s.ev.waiting = [] then
      { s with nvm := { s.nvm with sectors := mset s.nvm.sectors (sectorOf s.nvm s.nvm.head) { sec with records := sec.records ++ [e] } } }
    else { s with ev := { s.ev with waiting := s.ev.waiting ++ [e] } }

/-- Vectors of a function's MSI-X table (R407). -/
def vectorsOf (fn : Nat) : Nat := if fn = 0 then 64 else 32

/-- An entry of an MSI-X table that has not been written: masked, as PCIe resets it (notes/assumptions/8.md). -/
def freshMsix : MsixEntry := ⟨0, 0, true, false⟩

/-- Raise an interrupt (R417, R422): a vector beyond the function's table raises none; under the masking rules of PCIe a masked vector, and any vector
of a function that is masked as a whole, is kept pending, and a function whose MSI-X is not enabled raises none (PRESUMED: notes/assumptions/8.md). -/
def raiseInterrupt (s : State) (fn vector : Nat) : State :=
  let f := mgetD s.host.fns fn Function.reset
  if vector < vectorsOf fn ∧ f.msixEnable then
    let x := mgetD f.msix vector freshMsix
    if x.masked ∨ f.msixMask then
      { s with host := { s.host with fns := mset s.host.fns fn { f with msix := mset f.msix vector { x with waiting := true } } } }
    else { s with out := s.out ++ [.interrupt fn vector] }
  else s

/-- Write an event record (R413, R450, R452): the window keeps the latest 1,024, event_count rises, the PF may be interrupted. -/
def writeEvent (s : State) (source cls code pitch : Nat) (detail : List Byte) : State :=
  let e : EventRec := ⟨s.cairn.count, source, cls, code, pitch, padTo 16 detail⟩
  let s1 := { s with ev := { s.ev with written := (s.ev.written + 1) % 2 ^ 32, window := lastN 1024 (s.ev.window ++ [e]) } }
  let s2 := if isCritical cls code (attemptOf e.detail) then appendCritical s1 e else s1
  let pf := mgetD s2.host.fns 0 Function.reset
  if pf.eventInt then raiseInterrupt s2 0 pf.eventVector else s2

/-- Write an event record whose source is a Ranger core. -/
def rangerEvent (s : State) (cls code pitch : Nat) (detail : List Byte) : State :=
  writeEvent { s with freeCtr := s.freeCtr + 1 } (srcRanger s) cls code pitch detail

/-- The mark under which once-in-a-second events are kept. -/
def eventKey (code unit : Nat) : Nat := code * 2 ^ 32 + unit

/-- The first occurrence in a Cairn second writes a record; later ones in that second are counted only (R262, R363, R406, R427, R473). -/
def eventOnce (s : State) (code unit : Nat) (write : State → State) : State :=
  let key := eventKey code unit
  let s1 := { s with ev := { s.ev with counted := mset s.ev.counted key (mgetD s.ev.counted key 0 + 1) } }
  if mget s.ev.seen key = some (second s) then s1
  else write { s1 with ev := { s1.ev with seen := mset s1.ev.seen key (second s) } }

/-! ### Accessors -/

/-- A camp. -/
def campOf (s : State) (camp : Nat) : Camp := mgetD s.camps camp Camp.fresh
/-- Put a camp. -/
def putCamp (s : State) (camp : Nat) (c : Camp) : State := { s with camps := mset s.camps camp c }
/-- A core of a camp. -/
def coreOf (c : Camp) (core : Nat) : Core := mgetD c.cores core Core.fresh
/-- Put a core. -/
def putCore (c : Camp) (core : Nat) (k : Core) : Camp := { c with cores := mset c.cores core k }
/-- Change a core of a camp. -/
def onCore (s : State) (camp core : Nat) (f : Core → Core) : State :=
  let c := campOf s camp
  putCamp s camp (putCore c core (f (coreOf c core)))
/-- Run-time state of a pitch. -/
def pitchOf (s : State) (p : Nat) : Pitch := mgetD s.pitches p Pitch.fresh
/-- Put a pitch. -/
def putPitch (s : State) (p : Nat) (x : Pitch) : State := { s with pitches := mset s.pitches p x }
/-- Change a pitch. -/
def onPitch (s : State) (p : Nat) (f : Pitch → Pitch) : State := putPitch s p (f (pitchOf s p))
/-- A sequence-table entry by index. -/
def seqOf (s : State) (i : Nat) : SeqEntry := mgetD s.seqs i SeqEntry.fresh
/-- Put a sequence-table entry. -/
def putSeq (s : State) (i : Nat) (e : SeqEntry) : State := { s with seqs := mset s.seqs i e }
/-- Change a sequence-table entry. -/
def onSeq (s : State) (i : Nat) (f : SeqEntry → SeqEntry) : State := putSeq s i (f (seqOf s i))
/-- A function of the host port; the PF is always attached (R421). -/
def fnOf (s : State) (fn : Nat) : Function :=
  let f := mgetD s.host.fns fn Function.reset
  if fn = 0 then { f with attached := true } else f
/-- Put a function. -/
def putFn (s : State) (fn : Nat) (f : Function) : State := { s with host := { s.host with fns := mset s.host.fns fn f } }
/-- A fabric link. -/
def linkAt (s : State) (l : Nat) : Option Link := s.fab.links[l]?
/-- Put a fabric link. -/
def putLink (s : State) (l : Nat) (k : Link) : State := { s with fab := { s.fab with links := lset s.fab.links l k } }
/-- A session of the request transport; none is open before its first OPEN. -/
def sessionOf (s : State) (n : Nat) : Session :=
  mgetD s.eth.sessions n ⟨false, false, [], [], [], 1, 0, 0, [], [], none, [], [], []⟩
/-- Put a session. -/
def putSession (s : State) (n : Nat) (x : Session) : State := { s with eth := { s.eth with sessions := mset s.eth.sessions n x } }
/-- Send something. -/
def send (s : State) (o : Output) : State := { s with out := s.out ++ [o] }

/-- The configuration record of a pitch. -/
def recordOf (s : State) (p : Nat) : Option PitchRecord :=
  match s.cfg with
  | none => none
  | some c => c.pitches.find? fun r => decide (r.pitch = p)

/-- The lead of a group of more than one module notes a decision for the other modules (R229, R361). -/
def tellGroup (s : State) (p : Nat) (d : LeadDecision) : State :=
  match recordOf s p with
  | none => s
  | some r =>
    if r.group.groupPosition = 0 ∧ 1 < r.group.groupSize then onPitch s p fun x => { x with decisions := x.decisions ++ [d] } else s

/-- Transport key of a pitch (R349, R375, R421). -/
def transportKey (s : State) (p : Nat) : List Byte := (((recordOf s p).bind (·.keys)).map (·.transport)).getD []

/-- The pitch whose session table names a session (R366). -/
def sessionPitch (s : State) (n : Nat) : Option Nat :=
  match s.cfg with
  | none => none
  | some c => (c.pitches.find? fun r => r.sessions.any fun e => decide (e.session = n)).map (·.pitch)

/-- The session is the configuration's management session (R442). -/
def isManagement (s : State) (n : Nat) : Bool := (s.cfg.bind (·.management)).any fun e => decide (e.session = n)

/-- The entry of a session in the configuration (R366, R433). -/
def sessionEntry (s : State) (n : Nat) : Option SessionEntry :=
  match s.cfg with
  | none => none
  | some c => (((c.pitches.map (·.sessions)).flatten) ++ c.management.toList).find? fun e => decide (e.session = n)

/-- Two addresses agree in their first n bits. -/
def samePrefix (n : Nat) (a b : List Byte) : Bool :=
  (List.range n).all fun i => decide (bitOf (leAt a (i / 8) 1) (7 - i % 8) = bitOf (leAt b (i / 8) 1) (7 - i % 8))

/-- The head of a frame that an Ethernet port sends to an address (R400). -/
def frameHead (s : State) (port : Nat) (dest : List Byte) : FrameHead :=
  match s.cfg.bind fun c => c.eth[port]? with
  | none => ⟨port, s.nvm.fuses.mac.getD port 0, none, dest⟩
  | some e =>
    ⟨port, s.nvm.fuses.mac.getD port 0, if e.tagged then some e.vlan else none, if samePrefix e.prefixLength e.address dest then dest else e.gateway⟩

/-- The addresses of a session's datagrams (R366, R400). -/
def datagramHead (s : State) (n : Nat) : DatagramHead :=
  match sessionEntry s n with
  | none => ⟨frameHead s 0 [], [], [], 0, 0⟩
  | some e => ⟨frameHead s e.port e.peer, ((s.cfg.bind fun c => c.eth[e.port]?).map (·.address)).getD [], e.peer, e.localPort, e.peerPort⟩

/-- Neighbour solicitation (R400: ICMPv6 neighbour discovery). -/
def icmpSolicit : Nat := 135

/-- The device asks for a neighbour that it does not know before it sends to it (R400; DESIGN CHOICE: notes/assumptions/40.md). -/
def solicit (s : State) (h : FrameHead) : State :=
  if h.nextHop ∈ s.eth.neighbours then s else send s (.icmp h icmpSolicit h.nextHop [])

/-- The transport key of a session: its pitch's, or that of the management session's key block (R349, R442). -/
def sessionTransportKey (s : State) (n : Nat) : List Byte :=
  match sessionPitch s n with
  | some p => transportKey s p
  | none => ((s.cfg.bind (·.managementKeys)).map (·.transport)).getD []

/-- A sequence handle names entry [15:0] at generation [31:16] (R13, R333). -/
def handleIndex (h : Nat) : Nat := h % 65536
/-- The generation of a handle (R13, R333). -/
def handleGeneration (h : Nat) : Nat := h / 65536 % 65536
/-- The handle of an entry. -/
def handleOf (s : State) (i : Nat) : Nat := (seqOf s i).generation * 65536 + i
/-- The generation after a free: 65,535 returns to 1, and 0 is never issued (R333). -/
def nextGeneration (g : Nat) : Nat := if g ≥ 65535 then 1 else g + 1

/-- A handle names a sequence of the pitch (R334). -/
def handleOk (s : State) (p h : Nat) : Bool :=
  match recordOf s p with
  | none => false
  | some r =>
    let i := handleIndex h
    let e := seqOf s i
    decide (r.seqFirst ≤ i ∧ i < r.seqFirst + r.seqCount) && decide (e.state ≠ .free) && decide (e.generation = handleGeneration h)
      && decide (e.pitch = p)

/-- Free an entry: its generation rises by 1 (R333). -/
def freeEntry (s : State) (i : Nat) : State :=
  onSeq s i fun e => { SeqEntry.fresh with generation := nextGeneration e.generation }

/-- The free entry with the lowest index of a pitch's allotment (R340). -/
def freeIndex (s : State) (r : PitchRecord) : Option Nat :=
  ((List.range r.seqCount).map (· + r.seqFirst)).find? fun i => decide ((seqOf s i).state = .free)

/-! ### Addresses -/

/-- Base DA of Larder slice d (R237). -/
def larderBase (d : Nat) : Nat := 0x400000000000 + d * 0x30000000
/-- Base DA of capacity port p (R237). -/
def portBase (p : Nat) : Nat := 0x1000000000000 + p * 0x20000000000
/-- Whether a DA lies in a region of R237. -/
def daMapped (s : State) (da : Nat) : Bool :=
  decide (da < s.mem.n * 2 ^ 30) || decide (0x400000000000 ≤ da ∧ da < 0x400180000000)
    || decide (0x1000000000000 ≤ da ∧ da < 0x1100000000000) || decide (0x80000000000000 ≤ da ∧ da < 2 ^ 56)

/-- Bank, row and global bank of a Larder byte (R239). -/
def larderLocate (da : Nat) : Nat × Nat × Nat :=
  let d := (da - larderBase 0) / 0x30000000
  let l := (da - larderBase d) / 64
  let b := (bitsOf l 9 0) ^^^ (bitsOf l 19 10) ^^^ (bitsOf l 23 20)
  (d, b, bitsOf l 23 10)

/-- Stack, channel, pseudo-channel and granule of an HBM byte with every channel in service (R244). -/
def hbmLocateFull (da : Nat) : Nat × Nat × Nat × Nat :=
  let g := bitsOf da 39 8
  let p := (bitsOf g 9 0) ^^^ (bitsOf g 19 10) ^^^ (bitsOf g 29 20) ^^^ (bitsOf g 31 30)
  (bitsOf p 9 6, bitsOf p 5 1, p % 2, bitsOf g 31 10)

/-- The working pseudo-channels in ascending order (R245). -/
def workingChannels (s : State) : List Nat := (List.range 1024).filter fun c => decide (c ∉ s.mem.retired)

/-- The pseudo-channel (64 × stack + 2 × channel + pseudo-channel) that holds an HBM byte, and its granule within it (R244, R245). -/
def hbmPlace (s : State) (da : Nat) : Nat × Nat :=
  if s.mem.retired = [] then
    let (st, ch, pc, n) := hbmLocateFull da
    (64 * st + 2 * ch + pc, n)
  else ((workingChannels s).getD (da / 256 % s.mem.n) 0, da / 256 / s.mem.n)

/-- The pseudo-channel of an HBM byte. -/
def hbmChannel (s : State) (da : Nat) : Nat := (hbmPlace s da).1

/-- Bank of a scratchpad byte (R155). -/
def scratchBank (hash : Bool) (a : Nat) : Nat :=
  if hash then (bitsOf a 6 3) ^^^ (bitsOf a 10 7) ^^^ (bitsOf a 14 11) else bitsOf a 6 3

end Sys2Proof.Machine
end

