-- ==== Sys2Proof/Machine/Complete.lean ====
section
/-! DEFINITION. Completions (R342, R345, R346, R422), transport messages (R347 to R350), and holding a sequence (R336). -/

namespace Sys2Proof.Machine

/-! ### Rings (R344 to R346, R414, R416, R422) -/

/-- A ring that has been created and not used (R414). -/
def freshRing (pitch completion entries base vector : Nat) : Ring :=
  ⟨pitch, completion, entries, base, vector, 0, false, 0, 0, true, []⟩

/-- Write one completion at the device's completion tail (R345): the phase bit is bit 0 of byte 7 and inverts on each pass. -/
def writeEntry (s : State) (fn ring : Nat) (k : Ring) (bytes : List Byte) (int : Bool) : State :=
  let flags := (bytes.getD 7 0#8).toNat / 2 * 2 + (if k.phase then 1 else 0)
  let out := (padTo 32 bytes).set 7 (BitVec.ofNat 8 flags)
  let next := (k.position + 1) % k.entries
  let k1 := { k with position := next, inFlight := k.inFlight + 1, phase := if next = 0 then !k.phase else k.phase }
  let f := fnOf s fn
  let s1 := send (putFn s fn { f with comp := mset f.comp ring k1 }) (.dmaWrite fn (k.base + 32 * k.position) out)
  if int then raiseInterrupt s1 fn k.vector else s1

/-- Post a completion on a ring: a full ring holds it in order (R346); a ring that no longer exists takes none (R425). -/
def postRing (s : State) (fn ring : Nat) (bytes : List Byte) (int : Bool) : State :=
  let f := fnOf s fn
  match mget f.comp ring with
  | none => s
  | some k =>
    if k.inFlight < k.entries ∧ k.held = [] then writeEntry s fn ring k bytes int
    else putFn s fn { f with comp := mset f.comp ring { k with held := k.held ++ [(bytes, int)] } }

/-- Post the completions that a ring holds while it has room (R346). -/
def flushHeld (fn ring : Nat) : Nat → State → State
  | 0, s => s
  | n + 1, s =>
    match mget (fnOf s fn).comp ring with
    | none => s
    | some k =>
      match k.held with
      | [] => s
      | (bytes, int) :: rest =>
        if k.inFlight < k.entries then flushHeld fn ring n (writeEntry s fn ring { k with held := rest } bytes int) else s

/-! ### Transport messages (R347 to R350) -/

/-- Types of R348. -/
def msgOpenAck : Nat := 0x02
/-- COMPLETE (R348). -/
def msgComplete : Nat := 0x04
/-- ACK (R348). -/
def msgAck : Nat := 0x05
/-- IMAGE_DATA (R348). -/
def msgImageData : Nat := 0x06
/-- IMAGE_READ (R348). -/
def msgImageRead : Nat := 0x07

/-- The cleartext header of a datagram (R347, R442). -/
def datagramHeader (s : State) (n type length seq ack : Nat) : List Byte :=
  [0x54#8, if isManagement s n then 0x4D#8 else 0x56#8, 0x01#8] ++ leBytes 1 type ++ leBytes 2 n ++ leBytes 2 length ++ leBytes 8 seq
    ++ leBytes 8 ack ++ leBytes 8 0

/-- The session key (R349). -/
def sessionKey (transport : List Byte) (n : Nat) (rh rd : List Byte) : List Byte :=
  (Config.hmacSha384 transport (ascii "VZ8100 session" ++ leBytes 2 n ++ rh ++ rd)).take 32

/-- The bytes of a message from the device (R347, R349): an OPEN_ACK is authenticated under the transport key, with its body as additional data
only; other messages are encrypted under the session key, with their header as additional data. -/
def wireBytes (s : State) (n type seq ack : Nat) (body : List Byte) : List Byte :=
  let header := datagramHeader s n type body.length seq ack
  if type = msgOpenAck then header ++ body ++ padTo 16 (Config.gcmSeal (sessionTransportKey s n) (body.take 12) body [])
  else
    header ++ padTo (body.length + 16)
      (Config.gcmSeal (sessionOf s n).key (leBytes 8 seq ++ leBytes 2 n ++ [1#8, 0#8]) header body)

/-- Send a message of a session (R347): it takes the next seq, carries the acknowledgement, and is kept until it is acknowledged. -/
def sendMessage (s : State) (n type : Nat) (body : List Byte) : State :=
  let x := sessionOf s n
  let u : Unacked := ⟨x.txSeq, x.contiguous, type, body, s.cairn.count, 1⟩
  send (solicit (putSession s n { x with txSeq := x.txSeq + 1, unacked := x.unacked ++ [u], ackDue := none }) (datagramHead s n).frame)
    (.datagram (datagramHead s n) n type x.txSeq x.contiguous body (wireBytes s n type x.txSeq x.contiguous body))

/-- Send a COMPLETE, or hold it while the session is lost or not open (R350). -/
def sendComplete (s : State) (n : Nat) (body : List Byte) : State :=
  let x := sessionOf s n
  if x.isOpen ∧ ¬x.lost then sendMessage s n msgComplete body
  else putSession s n { x with held := x.held ++ [body] }

/-! ### Completions (R342) -/

/-- The flags byte of a completion without its phase: inexact, progress, import notice, end. -/
def compFlags (inexact progress notice : Bool) (endCode : Nat) : Nat :=
  (if inexact then 2 else 0) + (if progress then 4 else 0) + (if notice then 8 else 0) + 16 * (endCode % 8)

/-- A completion of 32 bytes (R342). -/
def completion (tag result opcode flags handle produced consumed length value : Nat) : List Byte :=
  leBytes 4 tag ++ leBytes 2 result ++ leBytes 1 opcode ++ leBytes 1 flags ++ leBytes 4 handle ++ leBytes 4 produced
    ++ leBytes 4 consumed ++ leBytes 4 length ++ leBytes 8 value

/-- Tokens that a COMPLETE holds beside its completion: its body has at most 8,896 bytes (R347). -/
def completeTokens : Nat := 2216

/-- The completion as a progress completion that counts `later` tokens fewer; that of a CREATE keeps the adopted length (R342). -/
def asProgress (bytes : List Byte) (later : Nat) : List Byte :=
  bytes.take 4 ++ leBytes 2 rcAccepted ++ (bytes.drop 6).take 1 ++ leBytes 1 ((bytes.getD 7 0#8).toNat % 4 + 4) ++ (bytes.drop 8).take 4
    ++ leBytes 4 (leAt bytes 12 4 - later) ++ (bytes.drop 16).take 8
    ++ (if leAt bytes 6 1 = 1 then (bytes.drop 24).take 8 else leBytes 8 0)

/-- A completion followed by tokens; tokens beyond what a datagram holds go before it in progress completions (R342, R347, R348; DESIGN CHOICE:
notes/assumptions/40.md). -/
def sendTokens (n : Nat) (bytes : List Byte) : Nat → List Nat → State → State
  | 0, _, s => s
  | k + 1, tokens, s =>
    if tokens.length ≤ completeTokens then sendComplete s n (bytes ++ (tokens.map (leBytes 4)).flatten)
    else
      let rest := tokens.drop completeTokens
      sendTokens n bytes k rest (sendComplete s n (asProgress bytes rest.length ++ ((tokens.take completeTokens).map (leBytes 4)).flatten))

/-- Answer a command: on its completion ring, or in a COMPLETE followed by the tokens produced since the tag's previous one (R348). -/
def answer (s : State) (o : Origin) (int : Bool) (bytes : List Byte) (tokens : List Nat) : State :=
  match o with
  | .ring fn ring => postRing s fn ring bytes int
  | .session n => sendTokens n bytes (tokens.length + 1) tokens s
  | .device => s

/-- The tokens of a sequence in order, with a sampled token that has not run. -/
def outputTokens (e : SeqEntry) : List Nat := e.tokens ++ e.pending.toList

/-- End a request with its final completion (R342): the length and the inexact mark are those of the sequence that the handle names in the
request's pitch, and nothing is said of another pitch's (R334); a CREATE's value is the adopted length. -/
def finish (s : State) (r : Request) (result endCode handle value : Nat) : State :=
  let e := seqOf s (handleIndex handle)
  let known := decide (e.state ≠ .free) && decide (e.generation = handleGeneration handle) && decide (e.pitch = r.pitch)
  let bytes := completion r.tag result r.opcode (compFlags (known && e.inexact) false false endCode) handle r.produced r.consumed
    (if known then e.length else 0) (if r.opcode = 1 then r.adopted else value)
  let toks := lastN r.sinceProgress (outputTokens e)
  let s1 := answer s r.origin (bitOf r.flags 2) bytes (if known then toks else [])
  { s1 with reqs := s1.reqs.filter fun q => decide (q.rid ≠ r.rid) }

/-- End a request that never came to have a sequence, or whose handle stands as given. -/
def finishPlain (s : State) (r : Request) (result : Nat) : State := finish s r result 0 r.handle 0

/-- A request by its number. -/
def reqOf (s : State) (rid : Nat) : Option Request := s.reqs.find? fun r => decide (r.rid = rid)

/-- Change a request. -/
def onReq (s : State) (rid : Nat) (f : Request → Request) : State :=
  { s with reqs := s.reqs.map fun r => if r.rid = rid then f r else r }

/-- The running request of a sequence: READY or IN_FLIGHT (R358). -/
def runningReq (s : State) (i : Nat) : Option Request :=
  s.reqs.find? fun r => decide (handleIndex r.handle = i) && decide (r.handle = handleOf s i)
    && decide (r.opcode = 1 ∨ r.opcode = 2) && decide (r.state = .ready ∨ r.state = .inFlight)

/-- The function in whose space the addresses of a command lie (R309, R411): the one whose ring gave it, and otherwise the pitch's VF. -/
def spaceOf (o : Origin) (p : Nat) : Nat :=
  match o with
  | .ring fn _ => fn
  | _ => p + 1

/-- The session number of a request's origin; 0xFFFF for a ring (R363). -/
def originSession : Origin → Nat
  | .session n => n
  | _ => 0xFFFF

/-! ### Holding a sequence (R336, R363) -/

/-- Detail bytes of the events of R363. -/
def servingDetail (handle tag session result hold : Nat) : List Byte :=
  leBytes 4 handle ++ leBytes 4 tag ++ leBytes 2 session ++ leBytes 2 result ++ leBytes 1 hold ++ leBytes 3 0

/-- Detail bytes of the events of R332. -/
def waypointDetail (handle stream result phase initiator : Nat) : List Byte :=
  leBytes 4 handle ++ leBytes 4 stream ++ leBytes 2 result ++ leBytes 1 phase ++ leBytes 1 initiator ++ leBytes 4 0

/-- End a park in phases 3 and 4 without its commit (R314, R315): the sequence stays parked as under KEEP, the park completes with the
given code and value unless its completion is discarded, and PARK_ABORTED is written. -/
def endPark (s : State) (i : Nat) (result value : Nat) (silent : Bool) : State :=
  let e := seqOf s i
  match e.park with
  | none => s
  | some k =>
    let s1 := putSeq s i { e with park := none }
    let s2 := rangerEvent s1 0x0C 0x0901 e.pitch
      (waypointDetail (handleOf s i) e.streamId result k.phase (if k.device then 1 else 0))
    match k.rid.bind (reqOf s2) with
    | none => s2
    | some r =>
      if silent then { s2 with reqs := s2.reqs.filter fun q => decide (q.rid ≠ r.rid) }
      else finish s2 r result 0 r.handle value

/-- The park of a sequence whose state has an uncorrectable word aborts (R314); in a stopped pitch the sequence is not parked any longer (R458). -/
def losePark (s : State) (i : Nat) : State :=
  let e := seqOf s i
  let s1 := endPark s i rcIntegrityFail 0 false
  if e.park ≠ none ∧ (pitchOf s e.pitch).stopped then onSeq s1 i fun e => { e with state := .idle } else s1

/-- The waiting CONTINUEs of a sequence. -/
def waitingContinues (s : State) (i : Nat) : List Request :=
  s.reqs.filter fun q => decide (q.handle = handleOf s i) && decide (q.opcode = 2) && decide (q.state = .queued)

/-- Complete requests with a code and end 5. -/
def endHeld (result : Nat) : List Request → State → State
  | [], s => s
  | q :: t, s => endHeld result t (finish s q result 5 q.handle 0)

/-- Put a sequence into HELD with a cause (R336) and write SEQUENCE_HELD where it was not HELD already (R363); its running request completes with the
given code and end 5. Cause 4 never clears, so a later cause does not replace it, and it ends the sequence's waiting CONTINUEs too (R14, R225, R330).
A parked sequence stays parked and keeps the cause, without the event, since it does not enter HELD (R314, R363; DEDUCED: notes/assumptions/28.md);
an uncorrectable word of its state aborts its park (R314). A held sequence gets no import notice (R342). The event carries a result code only where
a request is given one (R363). -/
def holdSeq (s0 : State) (i cause result : Nat) : State :=
  let s := if cause = 4 then losePark s0 i else s0
  let e := seqOf s i
  if e.state = .free then s
  else
    let c := if e.hold = 4 then 4 else cause
    let waiting := if cause = 4 then waitingContinues s i else []
    let s1 := putSeq s i { e with
      state := if e.state = .parked then .parked else .held
      hold := c
      importing := e.importing.map fun m => { m with notice := false } }
    match runningReq s i with
    | none =>
      endHeld result waiting (if e.state = .parked ∨ e.state = .held then s1
        else rangerEvent s1 0x0C 0x0A03 e.pitch (servingDetail (handleOf s i) 0 0xFFFF 0 c))
    | some r =>
      let s2 := rangerEvent s1 0x0C 0x0A03 e.pitch (servingDetail (handleOf s i) r.tag (originSession r.origin) result c)
      endHeld result waiting (finish s2 r result 5 r.handle 0)

/-- Hold several sequences. -/
def holdAll (cause result : Nat) : List Nat → State → State
  | [], s => s
  | i :: t, s => holdAll cause result t (holdSeq s i cause result)

end Sys2Proof.Machine
end

