-- ==== Sys2Proof/Machine/Fp.lean ====
section
/-! DEFINITION. FP32 and BF16 arithmetic (R58 to R61, R127 to R129): exact dyadic values, one rounding to nearest even, and the
fixed function sequences of R137 to R140 with their tables. -/

namespace Sys2Proof.Machine

/-! ### Exact values and rounding -/

/-- The exact value m * 2^e. -/
structure Dy where
  m : Int
  e : Int
  deriving DecidableEq, Repr

/-- Round a quotient of naturals to nearest, ties to even (R61). -/
def rneDiv (n d : Nat) : Nat :=
  let q := n / d
  let r := n % d
  if 2 * r < d then q else if d < 2 * r then q + 1 else q + q % 2

/-- Round a magnitude n * 2^e to an integer, ties to even (R61). -/
def rneMag (n : Nat) (e : Int) : Nat := if 0 ≤ e then n * 2 ^ e.toNat else rneDiv n (2 ^ (-e).toNat)

/-- Round m * 2^e to the nearest integer, ties to even (R61). -/
def rneInt (d : Dy) : Int := if 0 ≤ d.m then (rneMag d.m.natAbs d.e : Nat) else -((rneMag d.m.natAbs d.e : Nat) : Int)

/-- Floor of m * 2^e. -/
def floorDy (d : Dy) : Int := if 0 ≤ d.e then d.m * 2 ^ d.e.toNat else d.m / 2 ^ (-d.e).toNat

/-- Ceiling of m * 2^e. -/
def ceilDy (d : Dy) : Int := -floorDy ⟨-d.m, d.e⟩

/-- The number of bits of a natural number. -/
def bitLen (n : Nat) : Nat := if n = 0 then 0 else Nat.log2 n + 1

/-- Product of exact values. -/
def dyMul (a b : Dy) : Dy := ⟨a.m * b.m, a.e + b.e⟩

/-- Sum of exact values. -/
def dyAdd (a b : Dy) : Dy :=
  if a.e ≤ b.e then ⟨a.m + b.m * 2 ^ (b.e - a.e).toNat, a.e⟩ else ⟨a.m * 2 ^ (a.e - b.e).toNat + b.m, b.e⟩

/-- Negation of an exact value. -/
def dyNeg (a : Dy) : Dy := ⟨-a.m, a.e⟩

/-- Whether one exact value is below another. -/
def dyLt (a b : Dy) : Bool := decide ((dyAdd a (dyNeg b)).m < 0)

/-- Whether one exact value is at most another. -/
def dyLe (a b : Dy) : Bool := decide ((dyAdd a (dyNeg b)).m ≤ 0)

/-- Magnitude of an exact value. -/
def dyAbs (a : Dy) : Dy := ⟨a.m.natAbs, a.e⟩

/-- Scale an exact value by 2^k. -/
def dyScale (a : Dy) (k : Int) : Dy := ⟨a.m, a.e + k⟩

/-- The integer n as an exact value. -/
def dyInt (n : Int) : Dy := ⟨n, 0⟩

/-- floor(log2 n) of a positive magnitude n * 2^e. -/
def dyLog2 (a : Dy) : Int := a.e + (bitLen a.m.natAbs : Int) - 1

/-- The one NaN result of the vector engine (R127). -/
def qNaN : Word := 0x7FC00000#32

/-- A signed word from a sign and magnitude bits. -/
def withSign (neg : Bool) (n : Nat) : Word := BitVec.ofNat 32 (if neg then 2 ^ 31 + n else n)

/-- Round a non-zero magnitude n * 2^e to binary32 with the given sign, to nearest even, with subnormals (R59, R127). -/
def roundMag (neg : Bool) (n : Nat) (e : Int) : Word :=
  let top := e + (bitLen n : Int) - 1
  let q : Int := max (top - 23) (-149)
  let m := rneMag n (e - q)
  let bits := (q + 149).toNat * 2 ^ 23 + m
  if bits ≥ 0x7F800000 then withSign neg 0x7F800000 else withSign neg bits

/-- rne32: round an exact value once to binary32 (R136). An exact zero gives +0. -/
def rne32 (d : Dy) : Word := if d.m = 0 then 0#32 else roundMag (decide (d.m < 0)) d.m.natAbs d.e

/-- Sign bit of a binary32 pattern. -/
def fpNeg (w : Word) : Bool := w.getLsbD 31
/-- Exponent field, bits [30:23]. -/
def fpExp (w : Word) : Nat := bitsOf w.toNat 30 23
/-- Fraction field, bits [22:0]. -/
def fpFrac (w : Word) : Nat := bitsOf w.toNat 22 0
/-- NaN test. -/
def isNaN (w : Word) : Bool := decide (fpExp w = 255 ∧ fpFrac w ≠ 0)
/-- Infinity test. -/
def isInf (w : Word) : Bool := decide (fpExp w = 255 ∧ fpFrac w = 0)
/-- Zero test. -/
def isZero (w : Word) : Bool := decide (fpExp w = 0 ∧ fpFrac w = 0)
/-- Exact value of a finite binary32 pattern (R58). -/
def fpDy (w : Word) : Dy :=
  let mag : Int := if fpExp w = 0 then fpFrac w else 2 ^ 23 + fpFrac w
  ⟨if fpNeg w then -mag else mag, if fpExp w = 0 then -149 else (fpExp w : Int) - 150⟩
/-- Infinity of a sign. -/
def infOf (neg : Bool) : Word := withSign neg 0x7F800000
/-- Zero of a sign. -/
def zeroOf (neg : Bool) : Word := withSign neg 0
/-- Invert the sign bit (R127: exact). -/
def flipSign (w : Word) : Word := w ^^^ 0x80000000#32
/-- Clear the sign bit (R127: exact). -/
def clearSign (w : Word) : Word := w &&& 0x7FFFFFFF#32

/-! ### Native arithmetic (R127 to R129) -/

/-- The sum of a product p (exact, with the sign of a zero product) and b, rounded once; the sign of a zero result follows IEEE 754. -/
def addExact (p : Dy) (pNeg : Bool) (b : Word) : Word :=
  let sum := dyAdd p (fpDy b)
  if sum.m ≠ 0 then rne32 sum
  else if p.m = 0 ∧ isZero b then zeroOf (pNeg && fpNeg b)
  else 0#32

/-- ADD: a + b, one rounding (R127). -/
def fpAdd (a b : Word) : Word :=
  if isNaN a || isNaN b then qNaN
  else if isInf a then (if isInf b && (fpNeg a != fpNeg b) then qNaN else a)
  else if isInf b then b
  else addExact (fpDy a) (fpNeg a) b

/-- MUL: a × b, one rounding (R127). -/
def fpMul (a b : Word) : Word :=
  let neg := fpNeg a != fpNeg b
  if isNaN a || isNaN b then qNaN
  else if isInf a || isInf b then (if isZero a || isZero b then qNaN else infOf neg)
  else
    let p := dyMul (fpDy a) (fpDy b)
    if p.m = 0 then zeroOf neg else rne32 p

/-- FMA: a × b + c, one rounding (R59, R127). -/
def fpFma (a b c : Word) : Word :=
  let neg := fpNeg a != fpNeg b
  if isNaN a || isNaN b || isNaN c then qNaN
  else if isInf a || isInf b then
    (if isZero a || isZero b then qNaN
     else if isInf c && (fpNeg c != neg) then qNaN else infOf neg)
  else if isInf c then c
  else addExact (dyMul (fpDy a) (fpDy b)) neg c

/-- An integer that orders finite and infinite binary32 patterns, with −0 below +0. -/
def fpKey (w : Word) : Int := if fpNeg w then 2147483647 - (w.toNat : Int) else w.toNat

/-- MIN (R128). -/
def fpMin (a b : Word) : Word :=
  if isNaN a && isNaN b then qNaN else if isNaN a then b else if isNaN b then a
  else if fpKey a ≤ fpKey b then a else b

/-- MAX (R128). -/
def fpMax (a b : Word) : Word :=
  if isNaN a && isNaN b then qNaN else if isNaN a then b else if isNaN b then a
  else if fpKey a ≤ fpKey b then b else a

/-- Equality: −0 and +0 are equal, a NaN equals nothing (R128). -/
def fpEq (a b : Word) : Bool := !isNaN a && !isNaN b && (decide (a = b) || (isZero a && isZero b))

/-- Less than (R128). -/
def fpLt (a b : Word) : Bool := !isNaN a && !isNaN b && !(isZero a && isZero b) && decide (fpKey a < fpKey b)

/-- Less than or equal (R128). -/
def fpLe (a b : Word) : Bool := fpLt a b || fpEq a b

/-- The mask of a comparison (R124). -/
def maskOf (b : Bool) : Word := if b then 0xFFFFFFFF#32 else 0#32

/-- Clamp an integer to the signed 32-bit range and hold it as its pattern (R129). -/
def satWord (i : Int) : Word := BitVec.ofInt 32 (max (-2147483648) (min 2147483647 i))

/-- CVTFI: nearest even, saturating, 0 for a NaN (R129). -/
def cvtFI (a : Word) : Word :=
  if isNaN a then 0#32
  else if isInf a then (if fpNeg a then 0x80000000#32 else 0x7FFFFFFF#32)
  else satWord (rneInt (fpDy a))

/-- CVTIF: a signed 32-bit integer to FP32, nearest even (R129). -/
def cvtIF (a : Word) : Word := rne32 (dyInt a.toInt)

/-- Round a finite or infinite FP32 value to BF16 and hold it widened; a NaN keeps its upper half with the quiet bit set (R58). -/
def toBF16 (a : Word) : Nat :=
  if isNaN a then (a.toNat / 65536) ||| 0x0040
  else if isInf a then a.toNat / 65536
  else
    let mag := a.toNat % 2 ^ 31
    let r := rneDiv mag 65536
    (if fpNeg a then 0x8000 else 0) + (if r ≥ 0x7F80 then 0x7F80 else r)

/-- Widen a BF16 pattern exactly (R58). -/
def fromBF16 (n : Nat) : Word := BitVec.ofNat 32 (n % 65536 * 65536)

/-- CVTBF: rounded by R58 and held widened; a NaN gives 0x7FC0_0000 (R124, R127). -/
def cvtBF (a : Word) : Word := if isNaN a then qNaN else fromBF16 (toBF16 a)

/-- EXPX: bits [30:23] as an integer (R124). -/
def expX (a : Word) : Word := BitVec.ofNat 32 (fpExp a)

/-- EXPI: a with bits [30:23] replaced by bits [7:0] of b (R124). -/
def expI (a b : Word) : Word := (a &&& 0x807FFFFF#32) ||| BitVec.ofNat 32 (b.toNat % 256 * 2 ^ 23)

/-- SCALB by an integer: one rounding, overflow to infinity, one rounding into the subnormal range (R129). -/
def scalbInt (a : Word) (k : Int) : Word :=
  if isNaN a then qNaN
  else if isInf a || isZero a then a
  else
    let d := dyScale (fpDy a) k
    roundMag (fpNeg a) d.m.natAbs d.e

/-- SCALB: a × 2^b, with b a signed integer (R124, R129). -/
def scalb (a b : Word) : Word := scalbInt a b.toInt

/-! ### Function sequences (R136 to R140) -/

/-- c1 = ln 2 (R137). -/
def expC1 : Word := 0x3F317218#32

/-- c2 = (ln 2)^2 / 2 (R137). -/
def expC2 : Word := 0x3E75FDF0#32

/-- c3 = (ln 2)^3 / 6 (R137). -/
def expC3 : Word := 0x3D635847#32

/-- s3 = -1/6 (R140). -/
def rotS3 : Word := 0xBE2AAAAB#32

/-- g4 = 1/24 (R140). -/
def rotG4 : Word := 0x3D2AAAAB#32

/-- log2 e rounded by rne32 (R356). -/
def log2e : Word := 0x3FB8AA3B#32

/-- T[j] = 2^(j/64) for j = 0 to 63, rounded by rne32 (R137). -/
def expTable : List Word :=
  [0x3F800000#32, 0x3F8164D2#32, 0x3F82CD87#32, 0x3F843A29#32, 0x3F85AAC3#32, 0x3F871F62#32, 0x3F88980F#32, 0x3F8A14D5#32,
   0x3F8B95C2#32, 0x3F8D1ADF#32, 0x3F8EA43A#32, 0x3F9031DC#32, 0x3F91C3D3#32, 0x3F935A2B#32, 0x3F94F4F0#32, 0x3F96942D#32,
   0x3F9837F0#32, 0x3F99E046#32, 0x3F9B8D3A#32, 0x3F9D3EDA#32, 0x3F9EF532#32, 0x3FA0B051#32, 0x3FA27043#32, 0x3FA43516#32,
   0x3FA5FED7#32, 0x3FA7CD94#32, 0x3FA9A15B#32, 0x3FAB7A3A#32, 0x3FAD583F#32, 0x3FAF3B79#32, 0x3FB123F6#32, 0x3FB311C4#32] ++
  [0x3FB504F3#32, 0x3FB6FD92#32, 0x3FB8FBAF#32, 0x3FBAFF5B#32, 0x3FBD08A4#32, 0x3FBF179A#32, 0x3FC12C4D#32, 0x3FC346CD#32,
   0x3FC5672A#32, 0x3FC78D75#32, 0x3FC9B9BE#32, 0x3FCBEC15#32, 0x3FCE248C#32, 0x3FD06334#32, 0x3FD2A81E#32, 0x3FD4F35B#32,
   0x3FD744FD#32, 0x3FD99D16#32, 0x3FDBFBB8#32, 0x3FDE60F5#32, 0x3FE0CCDF#32, 0x3FE33F89#32, 0x3FE5B907#32, 0x3FE8396A#32,
   0x3FEAC0C7#32, 0x3FED4F30#32, 0x3FEFE4BA#32, 0x3FF28177#32, 0x3FF5257D#32, 0x3FF7D0DF#32, 0x3FFA83B3#32, 0x3FFD3E0C#32]

/-- R[j] = 1 / (1 + (j + 0.5) / 128), rounded to nearest even at 9 significant bits (R138). -/
def rcpTable : List Word :=
  [0x3F7F0000#32, 0x3F7D0000#32, 0x3F7B0000#32, 0x3F790000#32, 0x3F778000#32, 0x3F758000#32, 0x3F738000#32, 0x3F720000#32,
   0x3F700000#32, 0x3F6E8000#32, 0x3F6C8000#32, 0x3F6B0000#32, 0x3F690000#32, 0x3F678000#32, 0x3F660000#32, 0x3F648000#32,
   0x3F630000#32, 0x3F610000#32, 0x3F5F8000#32, 0x3F5E0000#32, 0x3F5C8000#32, 0x3F5B0000#32, 0x3F598000#32, 0x3F588000#32,
   0x3F570000#32, 0x3F558000#32, 0x3F540000#32, 0x3F528000#32, 0x3F518000#32, 0x3F500000#32, 0x3F4E8000#32, 0x3F4D8000#32] ++
  [0x3F4C0000#32, 0x3F4B0000#32, 0x3F498000#32, 0x3F488000#32, 0x3F470000#32, 0x3F460000#32, 0x3F450000#32, 0x3F438000#32,
   0x3F428000#32, 0x3F418000#32, 0x3F400000#32, 0x3F3F0000#32, 0x3F3E0000#32, 0x3F3D0000#32, 0x3F3C0000#32, 0x3F3A8000#32,
   0x3F398000#32, 0x3F388000#32, 0x3F378000#32, 0x3F368000#32, 0x3F358000#32, 0x3F348000#32, 0x3F338000#32, 0x3F328000#32,
   0x3F318000#32, 0x3F308000#32, 0x3F2F8000#32, 0x3F2F0000#32, 0x3F2E0000#32, 0x3F2D0000#32, 0x3F2C0000#32, 0x3F2B0000#32] ++
  [0x3F2A0000#32, 0x3F298000#32, 0x3F288000#32, 0x3F278000#32, 0x3F270000#32, 0x3F260000#32, 0x3F250000#32, 0x3F248000#32,
   0x3F238000#32, 0x3F228000#32, 0x3F220000#32, 0x3F210000#32, 0x3F200000#32, 0x3F1F8000#32, 0x3F1E8000#32, 0x3F1E0000#32,
   0x3F1D0000#32, 0x3F1C8000#32, 0x3F1B8000#32, 0x3F1B0000#32, 0x3F1A0000#32, 0x3F198000#32, 0x3F190000#32, 0x3F180000#32,
   0x3F178000#32, 0x3F168000#32, 0x3F160000#32, 0x3F158000#32, 0x3F148000#32, 0x3F140000#32, 0x3F138000#32, 0x3F128000#32] ++
  [0x3F120000#32, 0x3F118000#32, 0x3F108000#32, 0x3F100000#32, 0x3F0F8000#32, 0x3F0F0000#32, 0x3F0E0000#32, 0x3F0D8000#32,
   0x3F0D0000#32, 0x3F0C8000#32, 0x3F0B8000#32, 0x3F0B0000#32, 0x3F0A8000#32, 0x3F0A0000#32, 0x3F098000#32, 0x3F090000#32,
   0x3F080000#32, 0x3F078000#32, 0x3F070000#32, 0x3F068000#32, 0x3F060000#32, 0x3F058000#32, 0x3F050000#32, 0x3F048000#32,
   0x3F040000#32, 0x3F038000#32, 0x3F030000#32, 0x3F028000#32, 0x3F020000#32, 0x3F018000#32, 0x3F010000#32, 0x3F008000#32]

/-- Q[j] = 1 / sqrt(1 + (j + 0.5) / 32), rounded to nearest even at 9 significant bits (R139). -/
def rsqTable : List Word :=
  [0x3F7E0000#32, 0x3F7A0000#32, 0x3F768000#32, 0x3F730000#32, 0x3F6F8000#32, 0x3F6C8000#32, 0x3F698000#32, 0x3F668000#32,
   0x3F638000#32, 0x3F610000#32, 0x3F5E0000#32, 0x3F5B8000#32, 0x3F590000#32, 0x3F568000#32, 0x3F548000#32, 0x3F520000#32,
   0x3F500000#32, 0x3F4E0000#32, 0x3F4C0000#32, 0x3F4A0000#32, 0x3F480000#32, 0x3F460000#32, 0x3F440000#32, 0x3F428000#32,
   0x3F408000#32, 0x3F3F0000#32, 0x3F3D8000#32, 0x3F3B8000#32, 0x3F3A0000#32, 0x3F388000#32, 0x3F370000#32, 0x3F358000#32] ++
  [0x3F348000#32, 0x3F330000#32, 0x3F318000#32, 0x3F308000#32, 0x3F2F0000#32, 0x3F2D8000#32, 0x3F2C8000#32, 0x3F2B8000#32,
   0x3F2A0000#32, 0x3F290000#32, 0x3F280000#32, 0x3F268000#32, 0x3F258000#32, 0x3F248000#32, 0x3F238000#32, 0x3F228000#32,
   0x3F218000#32, 0x3F208000#32, 0x3F1F8000#32, 0x3F1E8000#32, 0x3F1D8000#32, 0x3F1C8000#32, 0x3F1B8000#32, 0x3F1B0000#32,
   0x3F1A0000#32, 0x3F190000#32, 0x3F180000#32, 0x3F178000#32, 0x3F168000#32, 0x3F160000#32, 0x3F150000#32, 0x3F140000#32] ++
  [0x3F138000#32, 0x3F128000#32, 0x3F120000#32, 0x3F110000#32, 0x3F108000#32, 0x3F0F8000#32, 0x3F0F0000#32, 0x3F0E8000#32,
   0x3F0D8000#32, 0x3F0D0000#32, 0x3F0C8000#32, 0x3F0B8000#32, 0x3F0B0000#32, 0x3F0A8000#32, 0x3F0A0000#32, 0x3F090000#32,
   0x3F088000#32, 0x3F080000#32, 0x3F078000#32, 0x3F068000#32, 0x3F060000#32, 0x3F058000#32, 0x3F050000#32, 0x3F048000#32,
   0x3F040000#32, 0x3F038000#32, 0x3F030000#32, 0x3F028000#32, 0x3F020000#32, 0x3F018000#32, 0x3F010000#32, 0x3F008000#32]

/-- cs[j] = cos(2 pi j / 512) for j = 0 to 64, rounded by rne32 (R140). -/
def rotCos : List Word :=
  [0x3F800000#32, 0x3F7FFB11#32, 0x3F7FEC43#32, 0x3F7FD397#32, 0x3F7FB10F#32, 0x3F7F84AB#32, 0x3F7F4E6D#32, 0x3F7F0E58#32,
   0x3F7EC46D#32, 0x3F7E70B0#32, 0x3F7E1324#32, 0x3F7DABCC#32, 0x3F7D3AAC#32, 0x3F7CBFC9#32, 0x3F7C3B28#32, 0x3F7BACCD#32,
   0x3F7B14BE#32, 0x3F7A7302#32, 0x3F79C79D#32, 0x3F791298#32, 0x3F7853F8#32, 0x3F778BC5#32, 0x3F76BA07#32, 0x3F75DEC6#32,
   0x3F74FA0B#32, 0x3F740BDD#32, 0x3F731447#32, 0x3F721352#32, 0x3F710908#32, 0x3F6FF573#32, 0x3F6ED89E#32, 0x3F6DB293#32] ++
  [0x3F6C835E#32, 0x3F6B4B0C#32, 0x3F6A09A7#32, 0x3F68BF3C#32, 0x3F676BD8#32, 0x3F660F88#32, 0x3F64AA59#32, 0x3F633C5A#32,
   0x3F61C598#32, 0x3F604621#32, 0x3F5EBE05#32, 0x3F5D2D53#32, 0x3F5B941A#32, 0x3F59F26A#32, 0x3F584853#32, 0x3F5695E5#32,
   0x3F54DB31#32, 0x3F531849#32, 0x3F514D3D#32, 0x3F4F7A1F#32, 0x3F4D9F02#32, 0x3F4BBBF8#32, 0x3F49D112#32, 0x3F47DE65#32,
   0x3F45E403#32, 0x3F43E200#32, 0x3F41D870#32, 0x3F3FC767#32, 0x3F3DAEF9#32, 0x3F3B8F3B#32, 0x3F396842#32, 0x3F373A23#32] ++
  [0x3F3504F3#32]

/-- sn[j] = sin(2 pi j / 512) for j = 0 to 64, rounded by rne32 (R140). -/
def rotSin : List Word :=
  [0x00000000#32, 0x3C490E90#32, 0x3CC90AB0#32, 0x3D16C32C#32, 0x3D48FB30#32, 0x3D7B2B74#32, 0x3D96A905#32, 0x3DAFB680#32,
   0x3DC8BD36#32, 0x3DE1BC2E#32, 0x3DFAB273#32, 0x3E09CF86#32, 0x3E164083#32, 0x3E22ABB6#32, 0x3E2F10A2#32, 0x3E3B6ECF#32,
   0x3E47C5C2#32, 0x3E541501#32, 0x3E605C13#32, 0x3E6C9A7F#32, 0x3E78CFCC#32, 0x3E827DC0#32, 0x3E888E93#32, 0x3E8E9A22#32,
   0x3E94A031#32, 0x3E9AA086#32, 0x3EA09AE5#32, 0x3EA68F12#32, 0x3EAC7CD4#32, 0x3EB263EF#32, 0x3EB8442A#32, 0x3EBE1D4A#32] ++
  [0x3EC3EF15#32, 0x3EC9B953#32, 0x3ECF7BCA#32, 0x3ED53641#32, 0x3EDAE880#32, 0x3EE0924F#32, 0x3EE63375#32, 0x3EEBCBBB#32,
   0x3EF15AEA#32, 0x3EF6E0CB#32, 0x3EFC5D27#32, 0x3F00E7E4#32, 0x3F039C3D#32, 0x3F064B82#32, 0x3F08F59B#32, 0x3F0B9A6B#32,
   0x3F0E39DA#32, 0x3F10D3CD#32, 0x3F13682A#32, 0x3F15F6D9#32, 0x3F187FC0#32, 0x3F1B02C6#32, 0x3F1D7FD1#32, 0x3F1FF6CB#32,
   0x3F226799#32, 0x3F24D225#32, 0x3F273656#32, 0x3F299415#32, 0x3F2BEB4A#32, 0x3F2E3BDE#32, 0x3F3085BB#32, 0x3F32C8C9#32] ++
  [0x3F3504F3#32]

/-- floor(2 pi * 2^256): the exact 2 pi of R140 to 256 binary places (DEDUCED: notes/assumptions/12.md). -/
def twoPi256 : Int := 0x6487ED5110B4611A62633145C06E0E68948127044533E63A0105DF531D89CD912

/-- EXP2 (R137). -/
def exp2 (x : Word) : Word :=
  if isNaN x then qNaN
  else
    let x1 := fpMin (fpMax x 0xC3170000#32) 0x43010000#32
    let xd := fpDy x1
    let k := rneInt (dyScale xd 6)
    let r := dyAdd xd (dyNeg (dyScale (dyInt k) (-6)))
    let j := k % 64
    let n := (k - j) / 64
    let q1 := rne32 (dyAdd (dyMul (fpDy expC3) r) (fpDy expC2))
    let q2 := rne32 (dyAdd (dyMul (fpDy q1) r) (fpDy expC1))
    let q3 := rne32 (dyMul (fpDy q2) r)
    let t := fpDy (expTable.getD j.toNat 0#32)
    let y := rne32 (dyAdd (dyMul t (fpDy q3)) t)
    rne32 (dyScale (fpDy y) n)

/-- A finite non-zero magnitude as m * 2^e with 1 ≤ m < 2 (R138, R139): the integer significand, its place, and e. -/
def normalise (x : Word) : Dy × Int :=
  let d := dyAbs (fpDy x)
  let e := dyLog2 d
  (dyScale d (-e), e)

/-- One Newton step of RCP (R138). -/
def rcpStep (m : Dy) (y : Word) : Word :=
  let t := rne32 (dyAdd (dyInt 1) (dyNeg (dyMul m (fpDy y))))
  rne32 (dyAdd (dyMul (fpDy y) (fpDy t)) (fpDy y))

/-- RCP (R138). -/
def rcp (x : Word) : Word :=
  if isNaN x then qNaN
  else if isZero x then infOf (fpNeg x)
  else if isInf x then zeroOf (fpNeg x)
  else
    let (m, e) := normalise x
    let j := floorDy (dyScale (dyAdd m (dyInt (-1))) 7)
    let y := rcpStep m (rcpStep m (rcpTable.getD j.toNat 0#32))
    let d := dyScale (fpDy y) (-e)
    roundMag (fpNeg x) d.m.natAbs d.e

/-- One step of RSQ (R139). -/
def rsqStep (m : Dy) (y : Word) : Word :=
  let h := rne32 (dyMul m (fpDy y))
  let t := rne32 (dyAdd (dyInt 1) (dyNeg (dyMul (fpDy h) (fpDy y))))
  rne32 (dyAdd (dyMul (dyScale (fpDy y) (-1)) (fpDy t)) (fpDy y))

/-- RSQ (R139). -/
def rsq (x : Word) : Word :=
  if isNaN x then qNaN
  else if isZero x then infOf (fpNeg x)
  else if fpNeg x then qNaN
  else if isInf x then 0#32
  else
    let (m0, e0) := normalise x
    let m := if e0 % 2 = 0 then m0 else dyScale m0 1
    let e := if e0 % 2 = 0 then e0 else e0 - 1
    let j := floorDy (dyScale (dyAdd m (dyInt (-1))) 5)
    let y := rsqStep m (rsqStep m (rsqTable.getD j.toNat 0#32))
    rne32 (dyScale (fpDy y) (-(e / 2)))

/-- ROTCS: cosine and sine of the phase p * f in units of 2^-64 turns (R140). The negative of a zero has the other sign (DESIGN CHOICE:
notes/assumptions/12.md). -/
def rotcs (p f : Nat) : Word × Word :=
  let phi := (p * f) % 2 ^ 64
  let qd := phi / 2 ^ 62
  let w := phi % 2 ^ 62
  let swap := decide (w ≥ 2 ^ 61)
  let v := if swap then 2 ^ 62 - w else w
  let j := v / 2 ^ 55
  let t : Nat := v - j * 2 ^ 55
  let dl := rne32 ⟨twoPi256 * (t : Int), -320⟩
  let d2 := rne32 (dyMul (fpDy dl) (fpDy dl))
  let sd := rne32 (dyAdd (dyMul (fpDy (rne32 (dyMul (fpDy d2) (fpDy rotS3)))) (fpDy dl)) (fpDy dl))
  let cd := rne32 (dyAdd (dyMul (fpDy (rne32 (dyAdd (dyMul (fpDy d2) (fpDy rotG4)) ⟨-1, -1⟩))) (fpDy d2)) (dyInt 1))
  let cj := rotCos.getD j 0#32
  let sj := rotSin.getD j 0#32
  let co := rne32 (dyAdd (dyMul (fpDy cj) (fpDy cd)) (dyNeg (fpDy (rne32 (dyMul (fpDy sj) (fpDy sd))))))
  let si := rne32 (dyAdd (dyMul (fpDy sj) (fpDy cd)) (fpDy (rne32 (dyMul (fpDy cj) (fpDy sd)))))
  let (c, s) := if swap then (si, co) else (co, si)
  if qd = 0 then (c, s) else if qd = 1 then (flipSign s, c) else if qd = 2 then (flipSign c, flipSign s) else (s, flipSign c)

end Sys2Proof.Machine
end

