-- ==== Sys2Proof/Machine/Keyed.lean ====
section
/-! DEFINITION. The keyed counter generator (R287 to R292), the chunk hash (R227), CRC-32C (R266), CRC-24 (R390) and the HBM
symbol code (R249, R250). -/

namespace Sys2Proof.Machine

/-- A 128-bit block as four little-endian 32-bit words (R287). -/
structure Block4 where
  x0 : Nat
  x1 : Nat
  x2 : Nat
  x3 : Nat
  deriving DecidableEq, Repr

/-- rotl(x, n, 32) (R12). -/
def rotl32 (x n : Nat) : Nat := (x * 2 ^ n % 2 ^ 32) ||| (x / 2 ^ (32 - n))

/-- Addition modulo 2^32 (R287). -/
def add32 (a b : Nat) : Nat := (a + b) % 2 ^ 32

/-- Word i of a key (R287). -/
def keyWord (k : Block4) (i : Nat) : Nat := if i = 0 then k.x0 else if i = 1 then k.x1 else if i = 2 then k.x2 else k.x3

/-- One round of P (R287). -/
def genRound (k : Block4) (r : Nat) (x : Block4) : Block4 :=
  let a0 := add32 x.x0 x.x1
  let a1 := rotl32 x.x1 7 ^^^ a0
  let a2 := add32 x.x2 x.x3
  let a3 := rotl32 x.x3 13 ^^^ a2
  ⟨a0 ^^^ keyWord k ((r + 1) % 4), a3, add32 a2 (r + 1), a1⟩

/-- The rounds r to r + n - 1 of P. -/
def genRounds (k : Block4) : Nat → Nat → Block4 → Block4
  | _, 0, x => x
  | r, n + 1, x => genRounds k (r + 1) n (genRound k r x)

/-- The keyed permutation P (R287): the key is added, then ten rounds run. -/
def genP (k x : Block4) : Block4 :=
  genRounds k 0 10 ⟨x.x0 ^^^ k.x0, x.x1 ^^^ k.x1, x.x2 ^^^ k.x2, x.x3 ^^^ k.x3⟩

/-- A 128-bit number as a block. -/
def blockOf (v : Nat) : Block4 := ⟨v % 2 ^ 32, v / 2 ^ 32 % 2 ^ 32, v / 2 ^ 64 % 2 ^ 32, v / 2 ^ 96 % 2 ^ 32⟩

/-- The counter of R290. -/
def counterBlock (x0 x1 streamId layer op sub domain : Nat) : Block4 :=
  ⟨x0 % 2 ^ 32, x1 % 2 ^ 32, streamId % 2 ^ 32, layer % 65536 + op % 256 * 65536 + sub % 64 * 2 ^ 24 + domain % 4 * 2 ^ 30⟩

/-- A stochastic rounding takes U := bits [31:8] of word x0 of G (R288). -/
def genU (seed : Nat) (c : Block4) : Nat := (genP (blockOf seed) c).x0 / 256

/-- Absorb the 256 token IDs of a chunk, four at a time (R227). -/
def absorbTokens (k : Block4) : Nat → Block4 → List Nat → Block4
  | 0, s, _ => s
  | n + 1, s, ts =>
    let s' := genP k ⟨s.x0 ^^^ ts.getD 0 0, s.x1 ^^^ ts.getD 1 0, s.x2 ^^^ ts.getD 2 0, s.x3 ^^^ ts.getD 3 0⟩
    absorbTokens k n s' (ts.drop 4)

/-- The hash of chunk i (R227), from the hash of the chunk before it (0 before the first). -/
def chunkHash (key prev i : Nat) (tokens : List Nat) : Nat :=
  let k := blockOf key
  let s0 := genP k ⟨prev % 2 ^ 32, prev / 2 ^ 32 % 2 ^ 32, i % 2 ^ 32, 0⟩
  let s := absorbTokens k 64 s0 tokens
  s.x0 + 2 ^ 32 * s.x1

/-! ### CRC-24 -/

/-- One bit of the CRC-24 of RFC 4880, most significant bit first (R390). -/
def crc24Bit (c : Nat) : Nat := let d := c * 2; if d ≥ 2 ^ 24 then (d ^^^ 0x1864CFB) % 2 ^ 24 else d

/-- One byte of the CRC-24. -/
def crc24Byte (c : Nat) (b : Byte) : Nat :=
  let x := c ^^^ (b.toNat * 65536)
  crc24Bit (crc24Bit (crc24Bit (crc24Bit (crc24Bit (crc24Bit (crc24Bit (crc24Bit x)))))))

/-- CRC-24 over bits [39:0] of a control word and the payload bytes (R390). -/
def frameCrc (ctrl : Nat) (payload : List Byte) : Nat := (leBytes 5 ctrl ++ payload).foldl crc24Byte 0xB704CE

/-! ### The HBM symbol code (R249, R250) -/

/-- Multiply a GF(2^16) element by α modulo x^16 + x^12 + x^3 + x + 1 (R249). -/
def gfAlpha (a : Nat) : Nat := let d := a * 2; if d ≥ 65536 then (d ^^^ 0x1100B) % 65536 else d

/-- Product in GF(2^16), by the bits of the second factor. -/
def gfMulN : Nat → Nat → Nat → Nat
  | 0, _, _ => 0
  | n + 1, a, b => (if b % 2 = 1 then a else 0) ^^^ gfMulN n (gfAlpha a) (b / 2)

/-- Product in GF(2^16). -/
def gfMul (a b : Nat) : Nat := gfMulN 16 a b

/-- α^n. -/
def gfPow : Nat → Nat
  | 0 => 1
  | n + 1 => gfAlpha (gfPow n)

/-- Value at x of the polynomial with coefficients c_0, c_1, ... -/
def gfEval (x : Nat) : List Nat → Nat
  | [] => 0
  | c :: t => c ^^^ gfMul x (gfEval x t)

/-- The four address symbols u[16] to u[19] (R249). -/
def addressSymbols (da : Nat) : List Nat := [bitsOf da 20 5, bitsOf da 36 21, bitsOf da 52 37, bitsOf da 55 53]

/-- The sixteen data symbols of a 32-byte word (R249). -/
def dataSymbols (bs : List Byte) : List Nat := (List.range 16).map fun i => leAt bs (2 * i) 2

/-- Divide by g(x): one step of polynomial division from the highest coefficient (R249). The remainder is c_2 x^2 + c_1 x + c_0. -/
def rsStep (g : Nat × Nat × Nat) (r : Nat × Nat × Nat) (u : Nat) : Nat × Nat × Nat :=
  let (c0, c1, c2) := r
  let f := u ^^^ c2
  (gfMul f g.1, c0 ^^^ gfMul f g.2.1, c1 ^^^ gfMul f g.2.2)

/-- g(x) = (x + α)(x + α^2)(x + α^3) without its leading term: coefficients of 1, x and x^2. -/
def rsGenerator : Nat × Nat × Nat :=
  let a := gfPow 1
  let b := gfPow 2
  let c := gfPow 3
  (gfMul (gfMul a b) c, gfMul a b ^^^ gfMul a c ^^^ gfMul b c, a ^^^ b ^^^ c)

/-- The three check symbols of a word at a DA (R249). -/
def checkSymbols (da : Nat) (bs : List Byte) : List Nat :=
  let u := dataSymbols bs ++ addressSymbols da
  let (c0, c1, c2) := u.reverse.foldl (rsStep rsGenerator) (0, 0, 0)
  [c0, c1, c2]

/-- What a read of an HBM word finds (R250). -/
inductive WordCheck where
  | clean
  | corrected (symbol value : Nat)
  | uncorrectable
  | address
  deriving DecidableEq, Repr

/-- The syndromes of the codeword read at a DA: check symbols 0 to 2, then data and address symbols. -/
def syndromes (da : Nat) (symbols : List (BitVec 16)) : Nat × Nat × Nat :=
  let s := symbols.map BitVec.toNat
  let cw := (s.drop 16).take 3 ++ s.take 16 ++ addressSymbols da
  (gfEval (gfPow 1) cw, gfEval (gfPow 2) cw, gfEval (gfPow 3) cw)

/-- The place of a single error with the given syndromes, counted in the codeword (0 to 2 the check symbols, 3 to 18 the data
symbols, 19 to 22 the address symbols). -/
def errorPlace (s1 s2 s3 : Nat) : Option Nat :=
  (List.range 23).find? fun p => decide (gfMul s1 (gfPow p) = s2 ∧ gfMul s2 (gfPow p) = s3 ∧ s1 ≠ 0)

/-- The inverse of α^p times a syndrome: the error value, found as s1 * α^(65535 - p). -/
def gfPowFast (n : Nat) : Nat :=
  (List.range 16).foldl (fun acc i =>
    let sq := (List.range i).foldl (fun a _ => gfMul a a) 2
    if bitOf n i then gfMul acc sq else acc) 1

/-- Check a word of sixteen data symbols and three check symbols read at a DA (R250): one erroneous stored symbol is corrected, two
are detected, and a syndrome that points to an address symbol is an address error. Symbol numbers are 0 to 15 for data and 16 to 18
for check symbols (R263). -/
def checkWord (da : Nat) (symbols : List (BitVec 16)) : WordCheck :=
  let (s1, s2, s3) := syndromes da symbols
  if s1 = 0 ∧ s2 = 0 ∧ s3 = 0 then .clean
  else
    match errorPlace s1 s2 s3 with
    | none => .uncorrectable
    | some p =>
      if p ≥ 19 then .address
      else
        let v := gfMul s1 (gfPowFast (65535 - p))
        if p < 3 then .corrected (16 + p) v else .corrected (p - 3) v

/-- The data bytes of the word after a correction. -/
def correctedBytes (symbols : List (BitVec 16)) (symbol value : Nat) : List Byte :=
  let s := (symbols.take 16).map BitVec.toNat
  ((List.range 16).map fun i => leBytes 2 (if i = symbol then s.getD i 0 ^^^ value else s.getD i 0)).flatten

end Sys2Proof.Machine
end

