-- ==== Sys2Proof/Machine/Formats.lean ====
section
/-! DEFINITION. Number formats (R32 to R62): the weight tensor header, T5, N:M and P8 weights, activation rows, block scaling and
requantisation, outlier sidecars, key-value page formats, gradients and re-ternarised weights. -/

namespace Sys2Proof.Machine

/-! ### The weight tensor header (R32, R33) -/

/-- Fields of a 32-byte weight tensor header (R32). -/
structure WeightHeader where
  format : Nat
  n : Nat
  m : Nat
  expOffset : Int
  k : Nat
  rows : Nat
  scale : Word
  payloadBytes : Nat
  reservedZero : Bool
  deriving DecidableEq, Repr

/-- Read a header (R32). -/
def parseHeader (bs : List Byte) : WeightHeader where
  format := leAt bs 0 1
  n := leAt bs 1 1
  m := leAt bs 2 1
  expOffset := signed 8 (leAt bs 3 1)
  k := leAt bs 4 4
  rows := leAt bs 8 4
  scale := BitVec.ofNat 32 (leAt bs 12 4)
  payloadBytes := leAt bs 16 4
  reservedZero := zerosAt bs 20 12

/-- The checks of R33 that need no payload. -/
def headerOk (h : WeightHeader) : Bool :=
  let fmtOk :=
    if h.format = 1 then decide (h.n = 0 ∧ h.m = 0 ∧ h.expOffset = 0 ∧ h.payloadBytes = h.rows * ceilDiv h.k 5)
    else if h.format = 2 then decide ((h.n = 1 ∨ h.n = 2 ∨ h.n = 4) ∧ (h.m = 8 ∨ h.m = 16) ∧ h.expOffset = 0)
    else if h.format = 3 then decide (h.n = 0 ∧ h.m = 0 ∧ h.payloadBytes = h.rows * h.k)
    else false
  fmtOk && decide (1 ≤ h.k ∧ h.k ≤ 2 ^ 24) && decide (1 ≤ h.rows ∧ h.rows ≤ 2 ^ 24)
    && !(isZero h.scale || isInf h.scale || isNaN h.scale) && h.reservedZero

/-! ### Weights: a code value, or the event code of a fault with the bit where it lies (R35, R107, R108) -/

/-- A fault found while decoding weights: event code (R107), byte offset in the payload of the 64-bit word, and bit. -/
structure FormatFault where
  code : Nat
  word : Nat
  bit : Nat
  deriving DecidableEq, Repr

/-- The trits of a T5 byte (R36). -/
def t5Trit (b i : Nat) : Int := ((b / 3 ^ i % 3 : Nat) : Int) - 1

/-- The trit at reduction position k of a T5 row that starts at byte `start`, validated by R37 and R38 for the whole byte. -/
def t5At (payload : List Byte) (start kTot k : Nat) : Except FormatFault Int :=
  let j := k / 5
  let off := start + j
  let b := leAt payload off 1
  let pad := (List.range 5).any fun i => decide (5 * j + i ≥ kTot) && decide (t5Trit b i ≠ 0)
  let place : Nat × Nat := (off / 8 * 8, off % 8 * 8)
  if b ≥ 243 then .error ⟨0x0101, place.1, place.2⟩
  else if pad then .error ⟨0x0102, place.1, place.2⟩
  else .ok (t5Trit b (k % 5))

/-- A P8 code as (sign, place) pairs of its terms (R43, R69), or none where R44 makes it a fault. -/
def p8Terms (b : Nat) : Option (List (Int × Nat)) :=
  let s : Int := if bitOf b 7 then -1 else 1
  let kind := bitsOf b 6 5
  let e1 := bitsOf b 4 2
  let d := bitsOf b 1 0
  if kind = 0 then (if b = 0 then some [] else none)
  else if kind = 1 then (if d = 0 then some [(s, e1)] else none)
  else if e1 < 1 + d then none
  else some [(s, e1), (if kind = 2 then s else -s, e1 - 1 - d)]

/-- The code value of P8 terms (R43). -/
def termsValue (ts : List (Int × Nat)) : Int := ts.foldl (fun acc t => acc + t.1 * 2 ^ t.2) 0

/-- The P8 code at reduction position k of a row (R43, R44). -/
def p8At (payload : List Byte) (start k : Nat) : Except FormatFault (List (Int × Nat)) :=
  let off := start + k
  match p8Terms (leAt payload off 1) with
  | some ts => .ok ts
  | none => .error ⟨0x0108, off / 8 * 8, off % 8 * 8⟩

/-- The 64-bit word at word index i of an N:M payload (R40). -/
def nmWord (payload : List Byte) (i : Nat) : Nat := leAt payload (8 * i) 8

/-- Whether bits lo to 63 of a word are all ones (R40). -/
def onesFrom (w lo : Nat) : Bool := decide (w / 2 ^ lo = 2 ^ (64 - lo) - 1)

/-- The slots of a group: signs and indices (R39). -/
def nmSlots (b w : Nat) : Nat → Nat → List (Int × Nat)
  | 0, _ => []
  | c + 1, bit => ((if bitOf w bit then -1 else 1 : Int), bitsOf w (bit + b) (bit + 1)) :: nmSlots b w c (bit + 1 + b)

/-- Indices rise strictly (R42). -/
def risesStrictly : List Nat → Bool
  | a :: b :: t => decide (a < b) && risesStrictly (b :: t)
  | _ => true

/-- Where the N:M decoder stands: word index and bit. -/
structure NmPos where
  word : Nat
  bit : Nat
  deriving DecidableEq, Repr

/-- Decode the next group of an N:M row (R39 to R42). `stop` is the first word that does not belong to the row. `fuel` bounds the
moves to a next word. The order of a group's faults (DEDUCED) and the bit that NM_ORDER and NM_TAIL name, the group's first (DESIGN CHOICE):
notes/assumptions/46.md. -/
def nmGroup (payload : List Byte) (n m : Nat) (remaining stop : Nat) : Nat → NmPos → Except FormatFault (List (Int × Nat) × NmPos)
  | 0, p => .error ⟨0x0107, 8 * p.word, p.bit⟩
  | fuel + 1, p =>
    let b := if m = 8 then 3 else 4
    if p.word ≥ stop then .error ⟨0x0107, 8 * (p.word - 1), 0⟩
    else
      let w := nmWord payload p.word
      if p.bit + 3 > 64 then
        if p.bit < 64 ∧ !onesFrom w p.bit then .error ⟨0x0104, 8 * p.word, p.bit⟩
        else nmGroup payload n m remaining stop fuel ⟨p.word + 1, 0⟩
      else
        let c := bitsOf w (p.bit + 2) p.bit
        if c = 7 then
          if onesFrom w p.bit then nmGroup payload n m remaining stop fuel ⟨p.word + 1, 0⟩
          else .error ⟨0x0104, 8 * p.word, p.bit⟩
        else if c > n then .error ⟨0x0103, 8 * p.word, p.bit⟩
        else
          let endBit := p.bit + 3 + c * (1 + b)
          if endBit > 64 then .error ⟨0x0104, 8 * p.word, p.bit⟩
          else
            let ss := nmSlots b w c (p.bit + 3)
            let idx := ss.map (·.2)
            if !risesStrictly idx then .error ⟨0x0105, 8 * p.word, p.bit⟩
            else if idx.any (fun i => decide (i ≥ remaining)) then .error ⟨0x0106, 8 * p.word, p.bit⟩
            else .ok (ss, ⟨p.word, endBit⟩)

/-- Decode groups g to g + count - 1 of an N:M row into (position, sign) slots (R39 to R42). -/
def nmGroups (payload : List Byte) (n m k stop : Nat) : Nat → Nat → NmPos → Except FormatFault (List (Nat × Int) × NmPos)
  | 0, _, p => .ok ([], p)
  | count + 1, g, p =>
    match nmGroup payload n m (k - g * m) stop (stop - p.word + 1) p with
    | .error f => .error f
    | .ok (ss, p1) =>
      match nmGroups payload n m k stop count (g + 1) p1 with
      | .error f => .error f
      | .ok (rest, p2) => .ok (ss.map (fun s => (g * m + s.2, s.1)) ++ rest, p2)

/-- Decode a whole N:M row from its first word to the first word of the next row, or the payload's end (R40, R42): the slots and the
word after the row. -/
def nmRow (payload : List Byte) (n m k first stop : Nat) : Except FormatFault (List (Nat × Int) × Nat) :=
  match nmGroups payload n m k stop (ceilDiv k m) 0 ⟨first, 0⟩ with
  | .error f => .error f
  | .ok (slots, p) =>
    if p.bit < 64 ∧ !onesFrom (nmWord payload p.word) p.bit then .error ⟨0x0104, 8 * p.word, p.bit⟩
    else .ok (slots, p.word + 1)

/-- The walk of R33: the first word of every row, or none where a group breaks R39 to R42 or the payload ends early. -/
def nmWalk (payload : List Byte) (n m k : Nat) : Nat → Nat → Option (List Nat × Nat)
  | 0, w => some ([], w)
  | rows + 1, w =>
    match nmRow payload n m k w (payload.length / 8) with
    | .error _ => none
    | .ok (_, next) =>
      match nmWalk payload n m k rows next with
      | none => none
      | some (ts, e) => some (w :: ts, e)

/-- The row-start table of an N:M payload, when the walk of R33 accepts it. -/
def rowStarts (h : WeightHeader) (payload : List Byte) : Option (List Nat) :=
  match nmWalk payload h.n h.m h.k h.rows 0 with
  | none => none
  | some (ts, e) => if e * 8 = payload.length ∧ h.payloadBytes = payload.length then some ts else none

/-! ### Blocks and requantisation (R46 to R51) -/

/-- Least code of a format: 0 A4, 1 A8, 2 A16 (R46). -/
def qMin (fmt : Nat) : Int := if fmt = 0 then -8 else if fmt = 1 then -128 else -32768
/-- Greatest code of a format (R46). -/
def qMax (fmt : Nat) : Int := if fmt = 0 then 7 else if fmt = 1 then 127 else 32767

/-- Whether rne(x * 2^-s) lies in the range for every value (R50). -/
def fitsAt (lo hi : Int) (xs : List Dy) (s : Int) : Bool :=
  xs.all fun x => let q := rneInt (dyScale x (-s)); decide (lo ≤ q ∧ q ≤ hi)

/-- Search downward for the smallest fitting s: a fit at s stays a fit above it. -/
def shrink (lo hi : Int) (xs : List Dy) : Nat → Int → Int
  | 0, s => s
  | n + 1, s => if fitsAt lo hi xs (s - 1) then shrink lo hi xs n (s - 1) else s

/-- The smallest s of R50 for a block that is not all zero: from a place at which every value rounds to 0 or ±1, downward. -/
def blockShift (lo hi : Int) (xs : List Dy) : Int :=
  let tops := (xs.filter fun x => decide (x.m ≠ 0)).map fun x => dyLog2 x
  let top := tops.foldl max (tops.headD 0)
  shrink lo hi xs 40 (top + 1)

/-- Clamp a code, and say whether it was clamped. -/
def clampQ (lo hi q : Int) : Int × Bool := if q < lo then (lo, true) else if hi < q then (hi, true) else (q, false)

/-- A block formed by R50 and R51: exponent, codes, clamped codes counted as saturation, whether the block saturated, and whether it
counts as zero (R300). -/
structure Block where
  e : Nat
  codes : List Int
  saturated : Nat
  zero : Bool
  nonfinite : Bool
  deriving DecidableEq, Repr

/-- Codes at the fixed exponent 254, each clamp counted (R50, R51). -/
def codesAt254 (lo hi : Int) (xs : List Dy) : List (Int × Bool) :=
  xs.map fun x => clampQ lo hi (rneInt (dyScale x (-127)))

/-- R50 for finite values. -/
def formFinite (lo hi : Int) (xs : List Dy) : Block :=
  if xs.all fun x => decide (x.m = 0) then ⟨0, xs.map fun _ => 0, 0, false, false⟩
  else
    let s := blockShift lo hi xs
    let e := 127 + s
    if e > 254 then
      let cs := codesAt254 lo hi xs
      ⟨254, cs.map (·.1), (cs.filter (·.2)).length, false, false⟩
    else if e < 1 then
      let cs := xs.map fun x => rneInt (dyScale x 126)
      ⟨1, cs, 0, cs.all fun c => decide (c = 0), false⟩
    else ⟨e.toNat, xs.map fun x => rneInt (dyScale x (-s)), 0, false, false⟩

/-- The exact value of a requantisation input, or none for a NaN or infinity. -/
def reqDy : ReqVal → Option Dy
  | .exact m e => some ⟨m, e⟩
  | .special _ => none

/-- A NaN input. -/
def reqNaN : ReqVal → Bool
  | .special w => isNaN w
  | _ => false

/-- An infinite input. -/
def reqInf : ReqVal → Bool
  | .special w => isInf w
  | _ => false

/-- Form one block by R50 and R51. -/
def formBlock (fmt : Nat) (xs : List ReqVal) : Block :=
  let lo := qMin fmt
  let hi := qMax fmt
  if xs.any reqInf then
    let cs := xs.map fun x =>
      match x with
      | .exact m e => let c := clampQ lo hi (rneInt (dyScale ⟨m, e⟩ (-127))); (c.1, if c.2 then 1 else 0)
      | .special w => if isNaN w then ((0 : Int), 1) else if fpNeg w then (lo, 1) else (hi, 1)
    ⟨254, cs.map (·.1), (cs.map (·.2)).sum, false, true⟩
  else if xs.any reqNaN then
    let b := formFinite lo hi (xs.map fun x => (reqDy x).getD ⟨0, 0⟩)
    { b with saturated := b.saturated + (xs.filter reqNaN).length, nonfinite := true }
  else formFinite lo hi (xs.map fun x => (reqDy x).getD ⟨0, 0⟩)

/-- An FP32 value as a requantisation input (R50). -/
def reqOfWord (w : Word) : ReqVal := if fpExp w = 255 then .special w else .exact (fpDy w).m (fpDy w).e

/-- The value of an activation code: q × 2^(E − 127), in units of the tensor scale (R47). -/
def codeDy (q : Int) (e : Nat) : Dy := ⟨q, (e : Int) - 127⟩

/-- G8 gradient block (R56): codes by stochastic rounding with the 24-bit values us. -/
def formG8 (xs : List ReqVal) (us : List Nat) : Block :=
  let fin := xs.map fun x => (reqDy x).getD ⟨0, 0⟩
  let code (x : Dy) (s : Int) (u : Nat) : Int := floorDy (dyAdd (dyScale x (-s)) ⟨u, -24⟩)
  let within (s : Int) : Bool := fin.all fun x => dyLe (dyScale (dyAbs x) (-s)) (dyInt 127)
  let nonf := xs.any fun x => reqInf x || reqNaN x
  let spec := (xs.filter fun x => reqInf x || reqNaN x).length
  let atE (e : Nat) : List (Int × Bool) :=
    (xs.zip us).map fun xu =>
      match xu.1 with
      | .exact m ex => clampQ (-127) 127 (code ⟨m, ex⟩ ((e : Int) - 127) xu.2)
      | .special w => if isNaN w then (0, false) else if fpNeg w then (-127, false) else (127, false)
  if xs.any reqInf then
    let cs := atE 254
    ⟨254, cs.map (·.1), (cs.filter (·.2)).length + spec, false, true⟩
  else if fin.all fun x => decide (x.m = 0) then ⟨0, xs.map fun _ => 0, spec, false, nonf⟩
  else
    let tops := (fin.filter fun x => decide (x.m ≠ 0)).map fun x => dyLog2 x
    let top := tops.foldl max (tops.headD 0)
    let s := (List.range 10).foldl (fun (s : Int) _ => if within (s - 1) then s - 1 else s) (top + 1)
    let e := 127 + s
    if e > 254 then let cs := atE 254; ⟨254, cs.map (·.1), (cs.filter (·.2)).length + spec, false, nonf⟩
    else
      let ee := if e < 1 then 1 else e.toNat
      let cs := (atE ee).map (·.1)
      ⟨ee, cs, spec, decide (e < 1) && cs.all (fun c => decide (c = 0)), nonf⟩

/-- The draws of a G8 block (R289, R292): domain 0, the token's position, the feature, and the operation that the forming command names. -/
def g8Draws (seed stream pos layer op feature n : Nat) : List Nat :=
  (List.range n).map fun k => genU seed (counterBlock pos (feature + k) stream layer op 0 0)

/-- Form a G8 block of a token's gradient from its first feature on (R56, R292). No command of R125 or R149 forms one: REQOUT has no such format (R135),
so this is the rule that a command would follow (notes/assumptions/24.md). -/
def formGradient (seed stream pos layer op feature : Nat) (xs : List ReqVal) : Block := formG8 xs (g8Draws seed stream pos layer op feature xs.length)

/-- A G8 code as it is read: −128 is taken as itself (R56). -/
def readG8 (b : Nat) : Int := signed 8 b

/-- Re-ternarise a master weight against θ (R57): the trit, and whether the weight is a NaN. -/
def ternarise (w theta : Word) : Int × Bool :=
  if isNaN w then (0, true)
  else if fpLt theta w then (1, false)
  else if fpLt w (flipSign theta) then (-1, false)
  else (0, false)

/-! ### Outlier sidecars (R52 to R54) -/

/-- A valid sidecar entry: feature index in the group and BF16 value. -/
structure Outlier where
  index : Nat
  value : Nat
  deriving DecidableEq, Repr

/-- The entry at 4 * i of a sidecar (R52): index, valid, reserved, value. -/
def sidecarEntry (bs : List Byte) (i : Nat) : Nat × Bool × Nat × Nat :=
  let w := leAt bs (4 * i) 4
  (bitsOf w 6 0, bitOf w 7, bitsOf w 15 8, bitsOf w 31 16)

/-- The marker that a group with more than four outliers carries (R307). -/
def isMarker (bs : List Byte) : Bool :=
  decide (leAt bs 0 4 = 127) && zerosAt bs 4 12

/-- Take entries up to the first offending one (R54). -/
def sidecarTake : List (Nat × Bool × Nat × Nat) → Option Nat → List Outlier × Bool
  | [], _ => ([], false)
  | (idx, valid, resv, v) :: t, prev =>
    let orderOk := match prev with
      | none => true
      | some p => decide (p < idx)
    if resv ≠ 0 then ([], true)
    else if valid then
      if orderOk then
        let (os, bad) := sidecarTake t (some idx)
        (⟨idx, v⟩ :: os, bad)
      else ([], true)
    else ([], t.any fun x => x.2.1 || decide (x.2.2.1 ≠ 0))

/-- The entries of a sidecar that the device uses, and whether it is malformed (R54). -/
def readSidecar (bs : List Byte) : List Outlier × Bool :=
  if isMarker bs then ([], false) else sidecarTake ((List.range 4).map (sidecarEntry bs)) none

/-- Write a sidecar (R52): valid entries first. -/
def writeSidecar (os : List Outlier) : List Byte :=
  padTo 16 ((os.map fun o => leBytes 4 (o.index + 128 + o.value * 65536)).flatten)

/-- The sidecar of a promoted group (R307). -/
def markerSidecar : List Byte := padTo 16 (leBytes 4 127)

/-- The BF16 value of an outlier as sign and magnitude codes (R178, R486): c and e with value c × 2^(e − 134). -/
def bf16Code (v : Nat) : Int × Nat :=
  let ef := bitsOf v 14 7
  let sig : Int := if ef = 0 then bitsOf v 6 0 else 128 + bitsOf v 6 0
  (if bitOf v 15 then -sig else sig, max ef 1)

/-- The two parts of a split BF16 element: h in −16..15 and l in 0..15 with c = 16 h + l (R178, R486). -/
def splitCode (c : Int) : Int × Int := ((c - c % 16) / 16, c % 16)

/-! ### Activation row layout (R46, R48) -/

/-- Bytes of an activation row of F features (R48). -/
def rowBytes (fmt f : Nat) (sidecar : Bool) : Nat :=
  if sidecar then f + ceilDiv f 32 + 16 * (f / 128) + f
  else (if fmt = 2 then 2 * f else f) + ceilDiv f 32

/-- Offset of the block exponents of a row (R48). -/
def expOffsetOf (fmt f : Nat) (sidecar : Bool) : Nat := if sidecar then f else if fmt = 2 then 2 * f else f

/-- The code of feature i of a row held in one format (R46, R48). -/
def rowCode (row : List Byte) (fmt f : Nat) (sidecar : Bool) (i : Nat) : Int :=
  if fmt = 0 then signed 4 (let b := leAt row (i / 2) 1; if i % 2 = 0 then b % 16 else b / 16)
  else if fmt = 1 then signed 8 (leAt row i 1)
  else
    let loOff := if sidecar then f + ceilDiv f 32 + 16 * (f / 128) else f
    signed 8 (leAt row i 1) * 256 + (leAt row (loOff + i) 1 : Nat)

/-- The code of feature i of a promoted block (R307): A8 codes split over the A4 region, or A16 with a lo extension. -/
def promotedCode (row : List Byte) (fmt f i : Nat) : Int :=
  let j := i / 32
  if fmt = 0 then
    signed 8 (if i % 32 < 16 then leAt row (16 * j + i % 32) 1 else leAt row (f / 2 + 16 * j + (i % 32 - 16)) 1)
  else signed 8 (leAt row i 1) * 256 + (leAt row (f + ceilDiv f 32 + 16 * (f / 128) + i) 1 : Nat)

/-- The block exponent of feature i (R47, R48). -/
def rowExp (row : List Byte) (fmt f : Nat) (sidecar : Bool) (i : Nat) : Nat := leAt row (expOffsetOf fmt f sidecar + i / 32) 1

/-- The sidecar of the group that holds feature i (R48, R52). -/
def rowSidecar (row : List Byte) (f i : Nat) : List Byte := (row.drop (f + ceilDiv f 32 + 16 * (i / 128))).take 16

/-- Pack codes as A4 nibbles, low nibble first (R46). -/
def packA4 : List Int → List Byte
  | [] => []
  | [a] => [BitVec.ofNat 8 (unsignedOf 4 a)]
  | a :: b :: t => BitVec.ofNat 8 (unsignedOf 4 a + 16 * unsignedOf 4 b) :: packA4 t

/-- Codes as A8 bytes (R46). -/
def packA8 (qs : List Int) : List Byte := qs.map fun q => BitVec.ofNat 8 (unsignedOf 8 q)

/-- The hi plane of A16 codes (R46). -/
def packHi (qs : List Int) : List Byte := qs.map fun q => BitVec.ofNat 8 (unsignedOf 8 ((q - q % 256) / 256))

/-- The lo plane of A16 codes (R46). -/
def packLo (qs : List Int) : List Byte := qs.map fun q => BitVec.ofNat 8 (q % 256).toNat

/-! ### Key-value formats (R55, R202) -/

/-- Bytes of a key row of a page (R202). -/
def keyRowBytes (tag d : Nat) : Nat := if tag = 0 then d / 2 + d / 32 else if tag = 3 then 2 * d else d + d / 32
/-- Bytes of a value row of a page (R202). -/
def valueRowBytes (tag d : Nat) : Nat := if tag = 0 ∨ tag = 2 then d / 2 + d / 32 else if tag = 3 then 2 * d else d + d / 32
/-- Bytes per token per KV head (R55). -/
def kvBytes (tag d : Nat) : Nat := keyRowBytes tag d + valueRowBytes tag d
/-- Tags that R55 defines. -/
def tagOk (tag : Nat) : Bool := decide (tag ≤ 3)
/-- Payload bytes of a page (R202). -/
def pageBytes (tag heads d : Nat) : Nat := heads * 256 * kvBytes tag d
/-- Offset of a key row: head h, token t (R202). -/
def keyRowOffset (tag d h t : Nat) : Nat := h * 256 * kvBytes tag d + t * keyRowBytes tag d
/-- Offset of a value row: head h, token t (R202). -/
def valueRowOffset (tag d h t : Nat) : Nat := h * 256 * kvBytes tag d + 256 * keyRowBytes tag d + t * valueRowBytes tag d

/-- The exact key or value element of a row in units of the static scale, with whether it is non-finite (R47, R178, R179). -/
def kvElement (narrow : Bool) (bf16 : Bool) (row : List Byte) (d f : Nat) : Dy × Bool :=
  if bf16 then
    let v := leAt row (2 * f) 2
    if bitsOf v 14 7 = 255 then (⟨0, 0⟩, true)
    else
      let (c, e) := bf16Code v
      (⟨c, (e : Int) - 134⟩, false)
  else if narrow then
    (codeDy (signed 4 (let b := leAt row (f / 2) 1; if f % 2 = 0 then b % 16 else b / 16)) (leAt row (d / 2 + f / 32) 1), false)
  else (codeDy (signed 8 (leAt row f 1)) (leAt row (d + f / 32) 1), false)

/-- A key element of a page payload (R202). -/
def keyElement (tag : Nat) (payload : List Byte) (d h t f : Nat) : Dy × Bool :=
  kvElement (decide (tag = 0)) (decide (tag = 3)) ((payload.drop (keyRowOffset tag d h t)).take (keyRowBytes tag d)) d f

end Sys2Proof.Machine
end

