-- ==== Sys2Proof/Machine/Store.lean ====
section
/-! DEFINITION. Shared operations over pitches and the context store: rectangles and camps (R367), pitch addresses (R368, R369),
space in a pitch's HBM and capacity quotas (R221, R222, R374), page references (R205, R221, R233), staging buffers (R207 to R209). -/

namespace Sys2Proof.Machine

/-! ### Rectangles (R16, R17, R240, R367) -/

/-- The logical camp of pitch-relative camp u + v × W before any take-over (R367). -/
def rectCamp (r : PitchRecord) (rel : Nat) : Nat :=
  (r.y0 + rel / r.width) % 100 * 200 + (r.x0 + rel % r.width) % 200

/-- The place of a logical camp in a rectangle, if it lies there (R367). -/
def relInRect (r : PitchRecord) (camp : Nat) : Option Nat :=
  let u := (camp % 200 + 200 - r.x0 % 200) % 200
  let v := (camp / 200 + 100 - r.y0 % 100) % 100
  if u < r.width ∧ v < r.height then some (u + v * r.width) else none

/-- Pitch-relative camps that programs name: all but the spares (R367). -/
def namedCamps (r : PitchRecord) : Nat := r.width * r.height - r.spares

/-- The logical camp that bears a pitch-relative number, after take-overs (R457). -/
def logicalCamp (s : State) (r : PitchRecord) (rel : Nat) : Nat := mgetD (pitchOf s r.pitch).campOf rel (rectCamp r rel)

/-- The pitch and pitch-relative number under which a camp runs programs (R367, R457). -/
def homeOf (s : State) (camp : Nat) : Option (PitchRecord × Nat) :=
  match s.cfg with
  | none => none
  | some c =>
    c.pitches.findSome? fun r =>
      let x := pitchOf s r.pitch
      match mfind x.campOf fun _ l => decide (l = camp) with
      | some (rel, _) => some (r, rel)
      | none =>
        match relInRect r camp with
        | none => none
        | some rel => if rel < namedCamps r ∧ mget x.campOf rel = none then some (r, rel) else none

/-- Larder slice of a logical camp: its die (R17). -/
def sliceOf (camp : Nat) : Nat := camp % 200 / 25

/-- Sum of the slice's quotas of every configured pitch with a lower ID (R240). -/
def quotaBefore (s : State) (p slice : Nat) : Nat :=
  match s.cfg with
  | none => 0
  | some c => ((c.pitches.filter fun r => decide (r.pitch < p)).map fun r => r.larder.getD slice 0).sum

/-- DA of a slot's first byte (R240, R241). -/
def slotDa (s : State) (r : PitchRecord) (x : Slot) : Nat :=
  let slice := sliceOf (logicalCamp s r x.home)
  larderBase slice + 0x0E000000 + 65536 * quotaBefore s r.pitch slice + x.base

/-! ### Pitch addresses (R368, R369) -/

/-- ADDRESS (R369). -/
def codeAddress : Nat := 0x0107
/-- READ_ONLY (R369). -/
def codeReadOnly : Nat := 0x0108

/-- Translate a pitch address for a reference of `len` bytes, or give the containment code (R368, R369). -/
def translate (s : State) (r : PitchRecord) (a len : Nat) (write : Bool) : Except Nat Nat :=
  let seg := bitsOf a 46 44
  let o := bitsOf a 43 0
  if seg = 0 then
    if o + len ≤ r.hbmSize * 2 ^ 30 then .ok (r.hbmBase * 2 ^ 30 + o) else .error codeAddress
  else if seg = 1 then
    if write then .error codeReadOnly
    else
      let reg := bitsOf a 43 40
      let q := bitsOf a 39 0
      match s.cfg with
      | none => .error codeAddress
      | some c =>
        match c.regions.find? fun e => decide (e.region = reg) with
        | none => .error codeAddress
        | some e => if bitOf r.regions reg ∧ q + len ≤ e.length then .ok (e.hbm + q) else .error codeAddress
  else if seg = 2 then
    let port := bitsOf a 43 41
    let q := bitsOf a 40 0
    let (base, size) := r.capacity.getD port (0, 0)
    if q + len ≤ size * 2 ^ 30 then .ok (portBase port + base * 2 ^ 30 + q) else .error codeAddress
  else .error codeAddress

/-- DA of a pitch address that the Ranger itself formed. -/
def daOf (s : State) (r : PitchRecord) (a : Nat) : Nat :=
  match translate s r a 0 false with
  | .ok d => d
  | .error _ => 0

/-- DA of the golden copy of what lies at a pitch address: for a shared region the same place from the region's golden DA, and otherwise at the
pitch address that the package gives it (R35, R371). -/
def goldenOf (s : State) (r : PitchRecord) (a golden : Nat) : Nat :=
  if bitsOf a 46 44 = 1 then
    match (s.cfg.map (·.regions)).bind fun l => l.find? fun e => decide (e.region = bitsOf a 43 40) with
    | none => 0
    | some e => e.golden + bitsOf a 39 0
  else daOf s r golden

/-- DA of a pitch's own address. -/
def pitchDa (s : State) (p a : Nat) : Nat :=
  match recordOf s p with
  | none => 0
  | some r => daOf s r a

/-- Whether two ranges meet. -/
def overlaps (a la b lb : Nat) : Bool := decide (a < b + lb) && decide (b < a + la)

/-- A write makes run-ahead data of the range stale (R171). -/
def staleAhead (c : Camp) (da n : Nat) : Camp :=
  { c with ahead := c.ahead.map fun e => if overlaps da n e.da e.bytes.length then { e with stale := true } else e }

/-- Put bytes into the device memory; run-ahead data of the range becomes stale (R171). -/
def pokeBytes (s : State) (da : Nat) (bs : List Byte) : State :=
  { s with mem := { s.mem with bytes := wrBytes s.mem.bytes da bs }
           camps := mmap s.camps fun _ c => staleAhead c da bs.length }

/-- Read bytes of the device memory. -/
def peekBytes (s : State) (da n : Nat) : List Byte := rdBytes s.mem.bytes da n

/-! ### Space in the quotas (R374; the placement is the model's choice, DESIGN CHOICE: notes/assumptions/13.md) -/

/-- The next multiple of 4,096 at or above n (R203). -/
def align4k (n : Nat) : Nat := (n + 4095) / 4096 * 4096

/-- The lowest 4 KiB-aligned place of `len` bytes below `limit` that meets no blocked range; place 0 is never given, since a page
address of 0 means that there is no copy (R204). -/
def firstFit (blocked : List (Nat × Nat)) (limit len : Nat) : Option Nat :=
  let places := 4096 :: blocked.map fun b => max 4096 (align4k (b.1 + b.2))
  let fit := places.filter fun o => decide (o + len ≤ limit) && blocked.all fun b => !overlaps o len b.1 b.2
  match fit with
  | [] => none
  | o :: t => some (t.foldl min o)

/-- Ranges of a segment that an allocation may not take, as offsets from the segment base `seg` (a pitch address): ranges in use, and the
package's tensors and coded regions. -/
def usedIn (s : State) (r : PitchRecord) (seg size : Nat) : List (Nat × Nat) :=
  let x := pitchOf s r.pitch
  let used := (x.allocated.filter fun e => decide (seg ≤ e.1 ∧ e.1 < seg + size)).map fun e => (e.1 - seg, e.2)
  let pk : List (Nat × Nat) := match x.package with
    | none => []
    | some k =>
      (k.tensors.map fun t => (t.address, 32 + t.payloadBytes)) ++ (k.coded.map fun c => (c.address, 4160 * c.blocks + 64))
  used ++ (pk.filter fun e => decide (seg ≤ e.1 ∧ e.1 < seg + size)).map fun e => (e.1 - seg, e.2)

/-- Freed ranges of a segment with first DA `da` that wait for their zeros (R374), as offsets. -/
def scrubIn (s : State) (da size : Nat) : List (Nat × Nat) :=
  (s.mem.scrub.filter fun e => decide (da ≤ e.da ∧ e.da < da + size)).map fun e => (e.da - da, e.length)

/-- The scrubs of the freed ranges that meet a range complete: the allocation that needs the range has waited for them (R374). -/
def finishScrubs (s : State) (da len : Nat) : State :=
  let due := s.mem.scrub.filter fun e => overlaps da len e.da e.length
  { s with mem := { s.mem with
      bytes := due.foldl (fun m e => zeroRange m e.da e.length) s.mem.bytes
      scrub := s.mem.scrub.filter fun e => !overlaps da len e.da e.length } }

/-- Place `len` bytes in a segment: where no scrub waits if there is such a place, otherwise after the scrubs of the place found. -/
def placeIn (s : State) (r : PitchRecord) (seg da size len : Nat) : Option (Nat × State) :=
  let used := usedIn s r seg size
  match firstFit (used ++ scrubIn s da size) size len with
  | some o => some (o, s)
  | none =>
    match firstFit used size len with
    | some o => some (o, finishScrubs s (da + o) len)
    | none => none

/-- Take `len` bytes of the pitch's HBM quota: a pitch address of segment 0. -/
def allocHot (s : State) (p len : Nat) : Option (Nat × State) :=
  match recordOf s p with
  | none => none
  | some r =>
    let size := r.hbmSize * 2 ^ 30
    match placeIn s r 0 (r.hbmBase * 2 ^ 30) size len with
    | none => none
    | some (o, s1) => some (o, onPitch s1 p fun x => { x with allocated := mset x.allocated o len })

/-- The base pitch address of port q (R368). -/
def portSeg (q : Nat) : Nat := 2 * 2 ^ 44 + q * 2 ^ 41

/-- The ports of a pitch's capacity quota (R256). -/
def quotaPorts (r : PitchRecord) : List Nat := (List.range 8).filter fun q => decide (0 < (r.capacity.getD q (0, 0)).2)

/-- Take `len` bytes of the pitch's capacity quota for page number n: a pitch address of segment 2 on the (n mod P)-th port of the quota
(R256). -/
def allocWarm (s : State) (p n len : Nat) : Option (Nat × State) :=
  match recordOf s p with
  | none => none
  | some r =>
    let ports := quotaPorts r
    match (ports[n % ports.length]?).filter fun q => (s.mem.ports[q]?).all fun k => decide (k.state ≠ .lost) with
    | none => none
    | some q =>
      let (base, gib) := r.capacity.getD q (0, 0)
      let size := gib * 2 ^ 30
      match placeIn s r (portSeg q) (portBase q + base * 2 ^ 30) size len with
      | none => none
      | some (o, s1) => some (portSeg q + o, onPitch s1 p fun x => { x with allocated := mset x.allocated (portSeg q + o) len })

/-- Give a range back: it waits for its zeros before any allocation takes it (R374). -/
def freeRange (s : State) (p a : Nat) : State :=
  match recordOf s p, mget (pitchOf s p).allocated a with
  | some r, some len =>
    let s1 := onPitch s p fun x => { x with allocated := mdel x.allocated a }
    { s1 with mem := { s1.mem with scrub := s1.mem.scrub ++ [⟨daOf s r a, len⟩] } }
  | _, _ => s

/-! ### Bytes of the store's tables (R203, R204, R211, R228) -/

/-- The code of a page state (R205). -/
def pageStateCode : PageState → Nat
  | .free => 0x00
  | .pending => 0x01
  | .hot => 0x02
  | .warm => 0x03
  | .both => 0x04
  | .promoting => 0x05
  | .demoting => 0x06
  | .exported => 0x07
  | .invalid c => c

/-- A page descriptor (R204). -/
def pageDescriptor (g : Page) : List Byte :=
  leBytes 1 (pageStateCode g.state) ++ leBytes 1 g.tag ++ leBytes 2 g.layer ++ leBytes 4 g.firstPosition ++ leBytes 4 g.refcount
    ++ leBytes 1 g.kvHeads ++ leBytes 1 g.dim32 ++ leBytes 2 0 ++ leBytes 8 g.hot ++ leBytes 8 g.warm ++ leBytes 8 g.summaryAt
    ++ beBytes 16 g.digest ++ leBytes 4 g.lastSelected ++ leBytes 4 0

/-- One record of a summary (R211). -/
def summaryBytes (x : SummaryRec) : List Byte :=
  let b := (x.codes.map fun c => BitVec.ofInt 8 c) ++ (x.exps.map fun e => BitVec.ofNat 8 e) ++ leBytes 4 x.r.toNat
  padTo (ceilDiv b.length 8 * 8) b

/-- Bytes of one record of a summary for head dimension d (R211). -/
def summaryLength (d : Nat) : Nat := ceilDiv (d + d / 32 + 4) 8 * 8

/-- A latch record (R303). -/
def latchBytes (l : Latch) : List Byte :=
  leBytes 8 l.history ++ leBytes 1 l.level ++ leBytes 1 (if l.denied then 1 else 0) ++ leBytes 2 0 ++ leBytes 4 l.position

/-- Bytes of a prefix-tree node with its page numbers and latches for L layers (R228). -/
def nodeLength (layers : Nat) : Nat := 1088 + 4 * layers + 16 * layers

/-- A prefix-tree node at pitch address `a`, followed by its page numbers and its copy of the latch state (R228). -/
def nodeBytes (a : Nat) (n : TreeNode) : List Byte :=
  let l := n.pages.length
  leBytes 8 n.hash ++ leBytes 8 n.parent ++ leBytes 4 n.chunk ++ leBytes 4 l ++ leBytes 8 (a + 1088) ++ leBytes 8 (a + 1088 + 4 * l)
    ++ leBytes 4 n.lastUsed ++ leBytes 4 n.users ++ leBytes 16 0 ++ padTo 1024 ((n.tokens.map (leBytes 4)).flatten)
    ++ (n.pages.map (leBytes 4)).flatten ++ (n.latches.map latchBytes).flatten

/-- Descriptors in one 4 KiB piece of a page table (DESIGN CHOICE: notes/assumptions/13.md). -/
def piecePages : Nat := 64

/-- The ranges of a pitch's HBM quota that hold its page table, summaries and prefix tree, with their bytes (R203, R206, R228). -/
def storeView (x : Pitch) : List (Nat × List Byte) :=
  (x.tableChunks.zipIdx.map fun c =>
      (c.1, ((List.range piecePages).map fun k => pageDescriptor (mgetD x.pages (piecePages * c.2 + k) Page.fresh)).flatten))
    ++ ((x.pages.filter fun g => decide (g.2.summaryAt ≠ 0)).map fun g => (g.2.summaryAt, (g.2.summary.map summaryBytes).flatten))
    ++ x.tree.map fun n => (n.1, nodeBytes n.1 n.2)

/-- Page numbers in one 4 KiB piece of a page list (DESIGN CHOICE: notes/assumptions/13.md). -/
def listPages : Nat := 1024

/-- A piece of a page list: the numbers of its pages, and 0xFFFF_FFFF, which names no page, after the last (R203, R206). -/
def listBytes (pages : List Nat) (k : Nat) : List Byte :=
  ((List.range listPages).map fun i => leBytes 4 (pages.getD (listPages * k + i) 0xFFFFFFFF)).flatten

/-- The page list and the superpage summaries of a layer, with their bytes (R206, R211, R213). -/
def layerView (l : LayerState) : List (Nat × List Byte) :=
  (l.listAt.zipIdx.map fun a => (a.1, listBytes l.pages a.2))
    ++ l.superAt.zipIdx.map fun a => (a.1, ((mgetD l.supers a.2 []).map summaryBytes).flatten)

/-- Those of a pitch's sequences. -/
def seqViews (s : State) (p : Nat) : List (Nat × List Byte) :=
  ((s.seqs.filter fun e => decide (e.2.pitch = p ∧ e.2.state ≠ .free)).map fun e => (e.2.layers.map layerView).flatten).flatten

/-- Bytes at a pitch address whose first byte has the given DA: the store's tables show as their bytes. -/
def readPitch (s : State) (p a da n : Nat) : List Byte :=
  let v := storeView (pitchOf s p) ++ seqViews s p
  (List.range n).map fun i =>
    ((v.find? fun e => decide (e.1 ≤ a + i ∧ a + i < e.1 + e.2.length)).map fun e => e.2.getD (a + i - e.1) 0#8).getD (rdByte s.mem.bytes (da + i))

/-! ### Pages (R204, R205, R221, R233) -/

/-- A page descriptor. -/
def pageOf (s : State) (p n : Nat) : Page := mgetD (pitchOf s p).pages n Page.fresh
/-- Put a page descriptor. -/
def putPage (s : State) (p n : Nat) (g : Page) : State := onPitch s p fun x => { x with pages := mset x.pages n g }
/-- Payload bytes of a page (R202). -/
def payloadBytes (g : Page) : Nat := pageBytes g.tag g.kvHeads (32 * g.dim32)

/-- Pitch address of a copy of a page that may be read, the hot one first; 0 where there is none (R205). -/
def copyAt (g : Page) : Nat :=
  match g.state with
  | .pending => g.hot
  | .hot => g.hot
  | .both => g.hot
  | .demoting => g.hot
  | .warm => g.warm
  | .promoting => g.warm
  | _ => 0

/-- Give back a range whose address may be 0, which is none. -/
def freeIf (s : State) (p a : Nat) : State := if a = 0 then s else freeRange s p a

/-- Free a page: its copies and its summary are released, and it waits for no promotion (R221, R233). -/
def freePage (s : State) (p n : Nat) : State :=
  let g := pageOf s p n
  let s1 := putPage (freeIf (freeIf (freeIf s p g.hot) p g.warm) p g.summaryAt) p n Page.fresh
  onPitch s1 p fun x => { x with carried := x.carried.filter fun k => decide (k ≠ n) }

/-- Drop one reference: at 0 the page becomes FREE, and a copy in progress completes first (R221). -/
def dropRef (s : State) (p n : Nat) : State :=
  let g := pageOf s p n
  let g1 := { g with refcount := g.refcount - 1 }
  if g1.refcount = 0 then
    if g.state = .promoting ∨ g.state = .demoting then putPage s p n { g1 with doomed := true } else freePage s p n
  else putPage s p n g1

/-- Drop the references of a list of pages. -/
def dropRefs (p : Nat) : List Nat → State → State
  | [], s => s
  | n :: t, s => dropRefs p t (dropRef s p n)

/-- Add one reference to each page of a list (R230, R232). -/
def addRefs (p : Nat) : List Nat → State → State
  | [], s => s
  | n :: t, s => addRefs p t (putPage s p n { pageOf s p n with refcount := (pageOf s p n).refcount + 1 })

/-- Whether a reference can be added to every page (R233). -/
def refsFit (s : State) (p : Nat) (ns : List Nat) : Bool := ns.all fun n => decide ((pageOf s p n).refcount < 2 ^ 32 - 1)

/-- The lowest page number whose descriptor is FREE. -/
def freePageNumber (s : State) (p : Nat) : Nat :=
  let ps := (pitchOf s p).pages
  ((List.range (ps.length + 1)).find? fun n => decide ((mgetD ps n Page.fresh).state = .free)).getD ps.length

/-- Free pages of a list whatever their references: PENDING pages of an abandoned step (R210, R221). -/
def freePages (p : Nat) : List Nat → State → State
  | [], s => s
  | n :: t, s => freePages p t (freePage s p n)

/-! ### Staging (R207 to R210) -/

/-- Format tag, KV heads and head dimension of a layer of the pitch: the profile's tag and the package's shape. -/
def layerShape (s : State) (p layer : Nat) : Nat × Nat × Nat :=
  match recordOf s p with
  | none => (0, 1, 32)
  | some r =>
    let tag := r.profile.tags.getD (layer - r.group.firstLayer) 0
    match (pitchOf s p).package with
    | none => (tag, 1, 32)
    | some k =>
      match k.layers.find? fun l => decide (l.layer = layer) with
      | none => (tag, 1, 32)
      | some l => (tag, l.kvHeads, l.headDim)

/-- Bytes of one staging half: the header of R207 and a payload of 256 tokens in the largest format. A buffer has two halves: the
committed part is not overwritten while a step goes on at the next page position (R209; DESIGN CHOICE: notes/assumptions/13.md). -/
def stagingHalf (heads dim : Nat) : Nat := 64 + pageBytes 3 heads dim

/-- First byte of the half of a staging buffer that takes the step's tokens: the first half until a flush, then the second (R209). -/
def stagingBase (l : LayerState) (half : Nat) : Nat :=
  if l.staging.firstPosition = 256 * l.pages.length then l.staging.address else l.staging.address + half

/-- Pitch address of the staging half in use of the layer in place j of the pitch's range, which is the data field of its staging chunk
(R183, R209); none where the layer has no buffer. -/
def stagingData (s : State) (p : Nat) (l : LayerState) (j : Nat) : Option Nat :=
  if l.staging.address = 0 then none
  else
    let first := ((recordOf s p).map (·.group.firstLayer)).getD 0
    let (_, heads, dim) := layerShape s p (first + j)
    some (stagingBase l (stagingHalf heads dim))

/-- Take back the appends of the step of one sequence (R210): PENDING pages are freed and staging keeps its committed contents. -/
def discardAppends (s : State) (i : Nat) : State :=
  let e := seqOf s i
  let s1 := freePages e.pitch ((e.layers.map (·.pendingPages)).flatten) s
  onSeq s1 i fun e => { e with layers := e.layers.map fun l =>
    { l with pendingPages := [], stepBlocks := 0, stepSaturated := 0
             staging := { l.staging with
               staged := l.staging.count, firstPosition := 256 * l.pages.length, tag := l.staging.boundTag } } }

/-- Take back the appends of several sequences. -/
def discardAll : List Nat → State → State
  | [], s => s
  | i :: t, s => discardAll t (discardAppends s i)

/-- The rows of sequences leave the micro-batch of the module, and the lead's record of the micro-batches in flight. -/
def leaveBatch (s : State) (p : Nat) (is : List Nat) : State :=
  onPitch s p fun x => { x with
    batch := x.batch.filter fun r => !is.contains r.seq
    batches := mmap x.batches fun _ b => b.filter fun r => !is.contains r.seq }

/-- Hold a sequence at its last step boundary (R225, R243, R252): its appends are discarded and its row leaves the micro-batch. -/
def holdAtBoundary (s : State) (i cause result : Nat) : State :=
  let p := (seqOf s i).pitch
  let s1 := holdSeq (discardAppends s i) i cause result
  leaveBatch s1 p [i]

/-- Hold several sequences at their last step boundary. -/
def holdAllAtBoundary (cause result : Nat) : List Nat → State → State
  | [], s => s
  | i :: t, s => holdAllAtBoundary cause result t (holdAtBoundary s i cause result)

/-- The sequences of a pitch that satisfy a test, in ascending index. -/
def seqsWhere (s : State) (p : Nat) (f : Nat → SeqEntry → Bool) : List Nat :=
  (s.seqs.filter fun kv => decide (kv.2.state ≠ .free) && decide (kv.2.pitch = p) && f kv.1 kv.2).map (·.1)

/-- The sequences that reference a page, committed or PENDING. -/
def holdersOf (s : State) (p n : Nat) : List Nat :=
  seqsWhere s p fun _ e => e.layers.any fun l => l.pages.contains n || l.pendingPages.contains n

end Sys2Proof.Machine
end

