-- ==== Sys2Proof/Machine/Summary.lean ====
section
/-! DEFINITION. Summaries of the context store (R211 to R213), and their recomputation from the payloads (R252). -/

namespace Sys2Proof.Machine

/-! ### Summaries (R211 to R213) -/

/-- Sum of exact values. -/
def dySum (xs : List Dy) : Dy := xs.foldl dyAdd ⟨0, 0⟩

/-- A8 codes and exponents of exact values by R50 and R51, in blocks of 32. -/
def requantA8 : Nat → List Dy → List Int × List Nat
  | 0, _ => ([], [])
  | n + 1, xs =>
    let b := formBlock 1 ((xs.take 32).map fun x => .exact x.m x.e)
    let r := requantA8 n (xs.drop 32)
    (b.codes ++ r.1, b.e :: r.2)

/-- Dequantised centroid of a record at feature f (R212). -/
def centroidAt (x : SummaryRec) (f : Nat) : Dy := codeDy (x.codes.getD f 0) (x.exps.getD (f / 32) 0)

/-- r := 0 if d = 0 else rne32(d × rsq(d)) (R212, R215). -/
def rootOf (d : Word) : Word := if isZero d then 0#32 else fpMul d (rsq d)

/-- A square. -/
def dySq (x : Dy) : Dy := dyMul x x

/-- The greatest of exact values that are not negative. -/
def dyMax (xs : List Dy) : Dy := xs.foldl (fun a b => if dyLt a b then b else a) ⟨0, 0⟩

/-- The summary record of one KV head of a page (R212). -/
def headSummary (tag : Nat) (payload : List Byte) (d h : Nat) : SummaryRec :=
  let v (t f : Nat) : Dy := (keyElement tag payload d h t f).1
  let mu := (List.range d).map fun f => dyScale (dySum ((List.range 256).map fun t => v t f)) (-8)
  let q := requantA8 (d / 32) mu
  let x : SummaryRec := ⟨q.1, q.2, 0#32⟩
  let dist := dyMax ((List.range 256).map fun t => dySum ((List.range d).map fun f => dySq (dyAdd (v t f) (dyNeg (centroidAt x f)))))
  { x with r := rootOf (rne32 dist) }

/-- The page summary (R211, R212). -/
def pageSummary (tag heads d : Nat) (payload : List Byte) : List SummaryRec := (List.range heads).map (headSummary tag payload d)

/-- The superpage record of one KV head from the page summaries (R213). -/
def superHead (d : Nat) (pages : List SummaryRec) : SummaryRec :=
  let mu := (List.range d).map fun f => dyScale (dySum (pages.map fun p => centroidAt p f)) (-6)
  let q := requantA8 (d / 32) mu
  let x : SummaryRec := ⟨q.1, q.2, 0#32⟩
  let far (p : SummaryRec) : Word :=
    fpAdd (rootOf (rne32 (dySum ((List.range d).map fun f => dySq (dyAdd (centroidAt p f) (dyNeg (centroidAt x f))))))) p.r
  { x with r := match pages with
      | [] => 0#32
      | p :: t => t.foldl (fun m p => fpMax m (far p)) (far p) }

/-- The summary of superpage s of a layer, from its 64 pages (R213). -/
def superSummary (s : State) (p heads d : Nat) (pages : List Nat) : List SummaryRec :=
  (List.range heads).map fun h => superHead d (pages.map fun n => (pageOf s p n).summary.getD h ⟨[], [], 0#32⟩)

/-- A page summary is computed again from the payload (R212, R252). -/
def resummarise (s : State) (p n : Nat) : State :=
  let g := pageOf s p n
  let a := copyAt g
  if a = 0 then s
  else putPage s p n { g with summary := pageSummary g.tag g.kvHeads (32 * g.dim32) (peekBytes s (pitchDa s p a) (payloadBytes g)) }

/-- The summary of a complete superpage of layer place j of a sequence is computed again from its pages' summaries (R213, R252). -/
def resuper (s : State) (i j k : Nat) : State :=
  let e := seqOf s i
  match e.layers[j]? with
  | none => s
  | some l =>
    if l.pages.length < 64 * k + 64 then s
    else
      let pages := (l.pages.drop (64 * k)).take 64
      let g := pageOf s e.pitch (pages.headD 0)
      let sum := superSummary s e.pitch g.kvHeads (32 * g.dim32) pages
      onSeq s i fun e => { e with layers := e.layers.set j { l with supers := mset l.supers k sum } }

end Sys2Proof.Machine
end

