-- ==== Sys2Proof/Machine/Codec.lean ====
section
/-! DEFINITION. The lossless coders (R264 to R284): block headers, the zero-run coder, the exponent coder, blocks and streams. -/

namespace Sys2Proof.Machine

/-- Decode faults (R268, R270, R274, R266) with their event codes (R284). -/
inductive DecodeFault where
  | frame | form | crc
  deriving DecidableEq, Repr

/-- Event code of a decode fault (R284). -/
def decodeCode : DecodeFault → Nat
  | .frame => 0x0801
  | .form => 0x0802
  | .crc => 0x0803

/-! ### The zero-run coder (R269, R270) -/

/-- The run cap: 255, or 7 in bounded form (R269). -/
def runCap (bounded : Bool) : Nat := if bounded then 7 else 255

/-- Split bytes into groups of eight (R269). -/
def groups8 : Nat → List Byte → List (List Byte)
  | 0, _ => []
  | n + 1, bs => if bs = [] then [] else bs.take 8 :: groups8 n (bs.drop 8)

/-- Whether every byte of a group is zero. -/
def allZero (g : List Byte) : Bool := g.all fun b => decide (b = 0#8)

/-- A literal token (R269). -/
def literalToken (g : List Byte) : List Byte :=
  let mask := ((List.range g.length).map fun i => if g.getD i 0#8 = 0#8 then 0 else 2 ^ i).sum
  BitVec.ofNat 8 mask :: g.filter fun b => decide (b ≠ 0#8)

/-- How many zero groups stand at the head of a list, at most a cap. -/
def zeroRun : Nat → List (List Byte) → Nat
  | 0, _ => 0
  | _, [] => 0
  | n + 1, g :: t => if allZero g then 1 + zeroRun n t else 0

/-- Encode groups (R269); `skip` groups have been taken by a run. -/
def encodeGroups (cap : Nat) : Nat → List (List Byte) → List Byte
  | _, [] => []
  | skip + 1, _ :: t => encodeGroups cap skip t
  | 0, g :: t =>
    if allZero g then
      let r := zeroRun cap t
      0#8 :: BitVec.ofNat 8 r :: encodeGroups cap r t
    else literalToken g ++ encodeGroups cap 0 t

/-- Zero-run encoding of a block (R269). -/
def zeroRunEncode (bounded : Bool) (bs : List Byte) : List Byte := encodeGroups (runCap bounded) 0 (groups8 bs.length bs)

/-- Take the bytes of a literal token: one per mask bit, each non-zero (R270). -/
def takeLiteral (mask : Nat) : Nat → Nat → List Byte → Except DecodeFault (List Byte × List Byte)
  | 0, _, rest => .ok ([], rest)
  | n + 1, i, rest =>
    if bitOf mask i then
      match rest with
      | [] => .error .form
      | b :: t =>
        if b = 0#8 then .error .form
        else match takeLiteral mask n (i + 1) t with
          | .error f => .error f
          | .ok (bs, r) => .ok (b :: bs, r)
    else match takeLiteral mask n (i + 1) rest with
      | .error f => .error f
      | .ok (bs, r) => .ok (0#8 :: bs, r)

/-- Decode tokens until `left` bytes have been produced (R270). `prevShort` says that the token before was a run token whose run byte
lies below the cap. -/
def decodeTokens (cap : Nat) : Nat → Nat → Bool → List Byte → Except DecodeFault (List Byte)
  | 0, left, _, rest => if left = 0 ∧ rest = [] then .ok [] else .error .form
  | fuel + 1, left, prevShort, rest =>
    if left = 0 then (if rest = [] then .ok [] else .error .form)
    else
      match rest with
      | [] => .error .form
      | m :: t =>
        if m = 0#8 then
          match t with
          | [] => .error .form
          | r :: t2 =>
            let groupsLeft := ceilDiv left 8
            if r.toNat > cap ∨ 1 + r.toNat > groupsLeft ∨ prevShort then .error .form
            else
              let n := min left (8 * (1 + r.toNat))
              match decodeTokens cap fuel (left - n) (decide (r.toNat < cap)) t2 with
              | .error f => .error f
              | .ok bs => .ok (List.replicate n 0#8 ++ bs)
        else
          let n := min left 8
          if m.toNat / 2 ^ n ≠ 0 then .error .form
          else
            match takeLiteral m.toNat n 0 t with
            | .error f => .error f
            | .ok (g, t2) =>
              match decodeTokens cap fuel (left - n) false t2 with
              | .error f => .error f
              | .ok bs => .ok (g ++ bs)

/-- Zero-run decoding of a payload to in_len bytes (R270). -/
def zeroRunDecode (bounded : Bool) (inLen : Nat) (payload : List Byte) : Except DecodeFault (List Byte) :=
  decodeTokens (runCap bounded) (inLen + 1) inLen false payload

/-! ### The exponent coder (R271 to R274) -/

/-- The BF16 values of a block. -/
def bf16Values (bs : List Byte) : List Nat := (List.range (bs.length / 2)).map fun i => leAt bs (2 * i) 2

/-- The exponent field of a BF16 value (R271). -/
def expField (v : Nat) : Nat := bitsOf v 14 7

/-- The sign-mantissa byte of a BF16 value (R271). -/
def signMantissa (v : Nat) : Byte := BitVec.ofNat 8 (v / 32768 * 128 + v % 128)

/-- Header values of a sub-block (R272, R273): z, e_min and w. -/
def subHeader (bounded : Bool) (es : List Nat) : Bool × Nat × Nat :=
  let z := !bounded && es.any (fun e => decide (e = 0)) && es.any (fun e => decide (e ≠ 0))
  let coded := if z then es.filter (fun e => decide (e ≠ 0)) else es
  let lo := coded.foldl min (coded.headD 0)
  let hi := coded.foldl max 0
  (z, lo, bitLen (hi - lo))
where
  bitLen (n : Nat) : Nat := if n = 0 then 0 else Nat.log2 n + 1

/-- The bits of a sub-block, as (value, width) fields in order (R272). -/
def subFields (bounded : Bool) (es : List Nat) : List (Nat × Nat) :=
  let (z, lo, w) := subHeader bounded es
  let head := (lo + 256 * w + (if z then 4096 else 0), 16)
  let mask := ((List.range es.length).map fun j => if es.getD j 1 = 0 then 2 ^ j else 0).sum
  let codes := (if z then es.filter (fun e => decide (e ≠ 0)) else es).map fun e => (e - lo, w)
  head :: (if z then (mask, 32) :: codes else codes)

/-- Sub-blocks of 32 fields (R271). -/
def subBlocks : Nat → List Nat → List (List Nat)
  | 0, _ => []
  | n + 1, es => if es = [] then [] else es.take 32 :: subBlocks n (es.drop 32)

/-- Concatenate fields from bit 0 upward, as one number and its bit length (R271). -/
def packFields (fs : List (Nat × Nat)) : Nat × Nat :=
  fs.foldr (fun f acc => (f.1 + 2 ^ f.2 * acc.1, f.2 + acc.2)) (0, 0)

/-- Exponent encoding of a block (R271 to R273). -/
def exponentEncode (bounded : Bool) (bs : List Byte) : List Byte :=
  let vs := bf16Values bs
  let fs := ((subBlocks vs.length (vs.map expField)).map (subFields bounded)).flatten
  let (v, n) := packFields fs
  vs.map signMantissa ++ leBytes (ceilDiv n 8) v

/-- Read the codes of a sub-block: a field marked in the mask is zero (R272). -/
def readCodes (stream mask lo w : Nat) (z : Bool) : Nat → Nat → Nat → Except DecodeFault (List Nat × Nat)
  | 0, _, at_ => .ok ([], at_)
  | n + 1, j, at_ =>
    if z && bitOf mask j then
      match readCodes stream mask lo w z n (j + 1) at_ with
      | .error f => .error f
      | .ok (es, e) => .ok (0 :: es, e)
    else
      let c := stream / 2 ^ at_ % 2 ^ w
      if lo + c > 255 then .error .form
      else match readCodes stream mask lo w z n (j + 1) (at_ + w) with
        | .error f => .error f
        | .ok (es, e) => .ok ((lo + c) :: es, e)

/-- Decode the sub-blocks of an exponent stream, checking the canonical form (R272 to R274). -/
def decodeSubs (bounded : Bool) (stream bits : Nat) : Nat → Nat → Nat → Except DecodeFault (List Nat)
  | 0, left, at_ => if left = 0 ∧ bits < at_ + 8 ∧ stream / 2 ^ at_ = 0 ∧ at_ ≤ bits then .ok [] else .error .form
  | fuel + 1, left, at_ =>
    if left = 0 then (if bits < at_ + 8 ∧ stream / 2 ^ at_ = 0 ∧ at_ ≤ bits then .ok [] else .error .form)
    else if at_ + 16 > bits then .error .form
    else
      let h := stream / 2 ^ at_ % 65536
      let lo := h % 256
      let w := bitsOf h 11 8
      let z := bitOf h 12
      let cnt := min left 32
      if w > 8 ∨ bitsOf h 15 13 ≠ 0 ∨ (z ∧ bounded) then .error .form
      else
        let mask := if z then stream / 2 ^ (at_ + 16) % 2 ^ 32 else 0
        let from_ := at_ + 16 + (if z then 32 else 0)
        if mask / 2 ^ cnt ≠ 0 ∨ from_ > bits then .error .form
        else
          match readCodes stream mask lo w z cnt 0 from_ with
          | .error f => .error f
          | .ok (es, e) =>
            if e > bits ∨ subHeader bounded es ≠ (z, lo, w) then .error .form
            else match decodeSubs bounded stream bits fuel (left - cnt) e with
              | .error f => .error f
              | .ok rest => .ok (es ++ rest)

/-- Exponent decoding of a payload to in_len bytes (R271, R274). -/
def exponentDecode (bounded : Bool) (inLen : Nat) (payload : List Byte) : Except DecodeFault (List Byte) :=
  let n := inLen / 2
  if payload.length < n then .error .form
  else
    let sm := payload.take n
    let rest := payload.drop n
    match decodeSubs bounded (leVal rest) (8 * rest.length) n n 0 with
    | .error f => .error f
    | .ok es =>
      .ok (((List.range n).map fun i =>
        let b := (sm.getD i 0#8).toNat
        leBytes 2 (b / 128 * 32768 + es.getD i 0 * 128 + b % 128)).flatten)

/-! ### Blocks (R264 to R268) -/

/-- Coder codes (R265). -/
def coderZeroRun : Nat := 1
/-- Exponent coder code (R265). -/
def coderExponent : Nat := 2

/-- A coded block: 16-byte header and payload (R265 to R267). A payload that would not be shorter is stored raw. -/
def encodeBlock (coder : Nat) (bounded : Bool) (input : List Byte) : List Byte :=
  let coded := if coder = coderZeroRun then zeroRunEncode bounded input else exponentEncode bounded input
  let raw := decide (coded.length ≥ input.length)
  let payload := if raw then input else coded
  let head := leBytes 1 coder ++ leBytes 1 ((if raw then 1 else 0) + (if bounded then 2 else 0)) ++ leBytes 2 input.length
    ++ leBytes 2 payload.length ++ leBytes 2 0
  head ++ leBytes 4 (crc32c (head ++ input)) ++ leBytes 4 0 ++ payload

/-- Cut an input into blocks of 4,096 bytes and code each (R264). -/
def encodeBlocks (coder : Nat) (bounded : Bool) : Nat → List Byte → List (List Byte)
  | 0, _ => []
  | n + 1, bs => if bs = [] then [] else encodeBlock coder bounded (bs.take 4096) :: encodeBlocks coder bounded n (bs.drop 4096)

/-- The coded stream of an input (R264). -/
def encodeStream (coder : Nat) (bounded : Bool) (bs : List Byte) : List Byte := (encodeBlocks coder bounded (bs.length + 1) bs).flatten

/-- Decode one block at the head of a byte list: its decoded bytes and the bytes after it (R265 to R268, R283). -/
def decodeBlock (needBounded : Bool) (bs : List Byte) : Except DecodeFault (List Byte × List Byte) :=
  let coder := leAt bs 0 1
  let flags := leAt bs 1 1
  let inLen := leAt bs 2 2
  let outLen := leAt bs 4 2
  let raw := bitOf flags 0
  let bounded := bitOf flags 1
  if bs.length < 16 then .error .frame
  else if ¬(coder = 1 ∨ coder = 2) ∨ inLen = 0 ∨ inLen > 4096 ∨ (coder = 2 ∧ inLen % 2 = 1) then .error .frame
  else if (raw ∧ outLen ≠ inLen) ∨ (¬raw ∧ outLen ≥ inLen) then .error .frame
  else if flags / 4 ≠ 0 ∨ ¬zerosAt bs 6 2 ∨ ¬zerosAt bs 12 4 ∨ (needBounded ∧ ¬bounded) then .error .frame
  else
    let payload := (bs.drop 16).take outLen
    let rest := bs.drop (16 + outLen)
    let dec := if raw then (if payload.length = inLen then .ok payload else .error .form)
      else if coder = 1 then zeroRunDecode bounded inLen payload else exponentDecode bounded inLen payload
    match dec with
    | .error f => .error f
    | .ok out => if crc32c (bs.take 8 ++ out) = leAt bs 8 4 then .ok (out, rest) else .error .crc

/-- The bytes of a read-only packed region (R276): a table of 4-byte offsets in 64-byte units, then blocks at 64-byte boundaries. -/
def packedBlock (region : List Byte) (i : Nat) : List Byte := region.drop (64 * leAt region (4 * i) 4)

/-- Where block i of a writable framed region starts (R276). -/
def frameAt (base i : Nat) : Nat := base + 4160 * i

end Sys2Proof.Machine
end

