-- ==== Sys2Proof/Machine/Abandon.lean ====
section
/-! DEFINITION. What ends a step early: abandoning a step (R119, R160, R166, R167, R210), camp faults (R167 to R169), uncorrectable words
(R243), the fencing of a camp and its spare (R457, R458, R464), and parks that the device starts or aborts (R311, R314, R316, R332). -/

namespace Sys2Proof.Machine

/-! ### Parks (R311, R314, R316, R332) -/

/-- End every queued CREATE, CONTINUE, TRUNCATE and FORK of a sequence that is being parked with REFUSED_STATE (R311, R341). -/
def endQueued : List Request → State → State
  | [], s => s
  | r :: t, s => endQueued t (finish s r rcRefusedState 0 r.handle 0)

/-- The waiting commands of a sequence that a park ends. -/
def queuedOf (s : State) (i : Nat) : List Request :=
  s.reqs.filter fun r => decide (r.handle = handleOf s i) && decide (r.state = .queued) && decide (1 ≤ r.opcode ∧ r.opcode ≤ 4)

/-- Abort a park (R314). A sequence of a stopped pitch whose park aborts is HELD with cause 5 (R336, R458). -/
def abortPark (s : State) (i : Nat) (result value : Nat) (silent : Bool) : State :=
  let e := seqOf s i
  match e.park with
  | none => s
  | some _ =>
    let s1 := endPark s i result value silent
    if (pitchOf s1 e.pitch).stopped then holdSeq (onSeq s1 i fun e => { e with state := .idle }) i 5 rcRefusedState else s1

/-- Start a park of the device's own (R316): EXPORT to the pitch's default destination, on every module of a group when the lead starts it (R313). The
running request ends with REFUSED_STATE and end 4 (R311); a hold cause stays in the entry. -/
def devicePark (s : State) (r : PitchRecord) (i : Nat) : State :=
  let e := seqOf s i
  if e.state = .free ∨ e.exported ≠ none ∨ e.park ≠ none then s
  else
    let s1 := match runningReq s i with
      | none => s
      | some q => finish s q rcRefusedState 4 q.handle 0
    let s2 := endQueued (queuedOf s1 i) s1
    let k : ParkState := ⟨none, true, 1, r.parkKind, r.parkAddress, r.parkLength, r.parkSession, 3, 0, 0, r.pitch + 1⟩
    let s3 := tellGroup (onSeq s2 i fun e => { e with state := .parked, park := some k }) r.pitch (.devicePark (handleOf s i))
    if r.parkKind = 0 then abortPark s3 i rcIntegrityFail 0 false else s3

/-- Start device parks for a list of sequences. -/
def deviceParks (r : PitchRecord) : List Nat → State → State
  | [], s => s
  | i :: t, s => deviceParks r t (devicePark s r i)

/-! ### Lanes and cores of a run (R91 to R94) -/

/-- Detail bytes of the residue records (R94). -/
def residueDetail (camp core : Nat) (m : Mismatch) (spares : Nat) : List Byte :=
  leBytes 4 (camp * 16 + core) ++ leBytes 1 m.unit ++ leBytes 1 m.mode ++ leBytes 1 m.expected ++ leBytes 1 m.observed ++ leBytes 1 spares

/-- Write a residue record of the lanes (R93). -/
def residueEvent (s : State) (camp core p code : Nat) (m : Mismatch) (spares : Nat) : State :=
  writeEvent s (srcCamp camp) 0x01 code p (residueDetail camp core m spares)

/-- The physical lanes that mismatched in a run, ascending, each with its first mismatch. A lane that holds several elements of the tile is fed
by position and, at one position, in ascending row, so its first mismatch is the first in that order (R94; DESIGN CHOICE:
notes/assumptions/22.md). -/
def misLanes (t : TileRun) : List Mismatch :=
  ((List.range 132).filterMap fun l => t.mis.find? fun m => decide (m.unit = l))

/-- Map a retired physical lane's position onto the next spare lane (R92). -/
def retireLane (k : Core) (phys : Nat) : Core :=
  let spare := Config.lanes + k.lanesRetired.length
  let pos := match mfind k.laneMap fun _ p => decide (p = phys) with
    | some (l, _) => l
    | none => phys
  { k with lanesRetired := k.lanesRetired ++ [phys], laneMap := mset k.laneMap pos spare }

/-- Spare lanes left in a core. -/
def spareLanesLeft (k : Core) : Nat := Config.spareLanes - k.lanesRetired.length

/-- Retire the lanes of a list, one record each (R92, R93). -/
def retireLanes (camp core p : Nat) : List Mismatch → State → State
  | [], s => s
  | m :: t, s =>
    let s1 := onCore s camp core fun k => retireLane k m.unit
    retireLanes camp core p t (residueEvent s1 camp core p 0x0002 m (spareLanesLeft (coreOf (campOf s1 camp) core)))

/-- The lanes that mismatched in a run and in its last discard: they are retired (R92). -/
def lanesDue (t : TileRun) : List Mismatch := (misLanes t).filter fun m => decide (m.unit ∈ t.lastMis)

/-- The mismatch under which a discard of the run retires its core: a fourth discard, or a lane without a spare (R92, R94). -/
def coreLoss (core : Nat) (k : Core) (t : TileRun) : Option Mismatch :=
  let first := (misLanes t).headD ⟨core, 0, 0, 0, 0⟩
  if t.discards + 1 = 4 then some first
  else if spareLanesLeft k < (lanesDue t).length then some (((lanesDue t).drop (spareLanesLeft k)).headD first)
  else none

/-! ### Camps that leave service (R457, R458, R464) -/

/-- The core field of a camp-level command (R169). -/
def noCore : Nat := 0xFF

/-- Detail bytes of the events of R464. -/
def wearDetail (camp core left unit count address : Nat) : List Byte :=
  leBytes 2 camp ++ leBytes 1 core ++ leBytes 1 left ++ leBytes 2 unit ++ leBytes 2 count ++ leBytes 8 address

/-- Write the package contents of the persistent slots homed at a pitch-relative camp (R160, R457). -/
def refillSlots (r : PitchRecord) (rel : Nat) : NMap Slot → State → State
  | [], s => s
  | (_, x) :: t, s =>
    refillSlots r rel t (if x.persistent ∧ x.home = rel then pokeBytes s (slotDa s r x) (padTo x.size x.contents) else s)

/-- The lowest-numbered spare camp of the pitch that has not been used (R457). -/
def nextSpare (s : State) (r : PitchRecord) : Option Nat :=
  ((List.range r.spares).map (· + namedCamps r)).find? fun k => decide (k ∉ (pitchOf s r.pitch).spareUsed)

/-- Spare camps of a pitch that are left. -/
def sparesLeft (s : State) (r : PitchRecord) : Nat := r.spares - (pitchOf s r.pitch).spareUsed.length

/-- Fence the camp of a retired core after the pitch's step has been abandoned (R457): a spare camp takes the camp's number, or the pitch stops and its
sequences are parked. -/
def fenceOne (s : State) (camp core : Nat) : State :=
  let s1 := putCamp s camp { campOf s camp with fenced := true }
  match homeOf s camp with
  | none => s1
  | some (r, rel) =>
    let p := r.pitch
    let s2 := writeEvent s1 (srcCamp camp) 0x01 0x0E01 p (wearDetail camp core (sparesLeft s1 r) 0 0 0)
    match nextSpare s2 r with
    | some k =>
      let spare := rectCamp r k
      let words := (campOf s2 camp).cmdMem
      let s4 := onPitch s2 p fun x => { x with spareUsed := x.spareUsed ++ [k], campOf := mset x.campOf rel spare }
      let s5 := putCamp s4 spare { campOf s4 spare with cmdMem := words }
      let s6 := refillSlots r rel (pitchOf s5 p).slots s5
      writeEvent s6 (srcCamp camp) 0x01 0x0E02 p (wearDetail spare noCore (sparesLeft s6 r) rel 0 0)
    | none =>
      if (pitchOf s2 p).stopped then s2
      else
        let s4 := onPitch (leaveBatch s2 p (seqsWhere s2 p fun _ _ => true)) p fun x => { x with stopped := true, inStep := false }
        let s5 := writeEvent s4 (srcCamp camp) 0x01 0x0E03 p (wearDetail camp noCore 0 0 0 0)
        deviceParks r (seqsWhere s5 p fun _ _ => true) s5

/-! ### Abandoning a step (R119, R156, R160, R161, R166, R167, R210) -/

/-- Stop a camp: its program, waits, bindings, run-ahead data and tiles are dropped, windows and scratchpads cleared. -/
def stopCamp (c : Camp) : Camp :=
  { c with prog := none, blocked := none, stream := none, cfg := none, ahead := []
           cores := mmap c.cores fun _ k => { k with sp := [], win := [], acc := [], tiles := [], queues := [], req := ReqBuf.fresh } }

/-- Whether a camp runs programs of a pitch. -/
def campIn (s : State) (p camp : Nat) : Bool :=
  match homeOf s camp with
  | some (r, _) => decide (r.pitch = p)
  | none => false

/-- Stop every camp program of a pitch (R167). -/
def stopCamps (s : State) (p : Nat) : State :=
  { s with camps := mmap s.camps fun n c => if campIn s p n then stopCamp c else c }

/-- Close every open epoch of a pitch without output and free its entries (R119). -/
def closeEpochs (s : State) (p : Nat) : State :=
  { s with hash := s.hash.map fun h => match h.epoch with
      | some e => if e.pitch = p then HashInst.fresh else h
      | none => h }

/-- Slots at a step boundary after an abandoned step: persistent slots return to the last boundary, the others are EMPTY (R160). -/
def restoreSlot (x : Slot) : Slot :=
  if x.persistent then { x with state := x.bState, released := x.bReleased, closing := false }
  else { x with state := .empty, released := [], closing := false }

/-- Release the chunk lists of a step (R217). -/
def freeLists (p : Nat) : List Chosen → State → State
  | [], s => s
  | c :: t, s => freeLists p t (match c.list with
    | none => s
    | some a => freeRange s p a)

/-! ### Repairs of the runs that are abandoned (R454, R459) -/

/-- The runs of a pitch's camps that are not accepted, in cores and camps that are in service. -/
def openRuns (s : State) (p : Nat) : List (Nat × Nat × TileRun) :=
  ((s.camps.filter fun c => campIn s p c.1 && !c.2.fenced).map fun c =>
    ((c.2.cores.filter fun k => !k.2.retired).map fun k => (k.2.tiles.filter fun t => decide (t.state ≠ .accepted)).map fun t => (c.1, k.1, t)).flatten).flatten

/-- The repairs that a run not yet accepted is due: the block that it waits for or has marked, or what its mismatches retire. -/
def runRepairs (s : State) (camp core : Nat) (t : TileRun) : List Repair :=
  match t.state, t.mark with
  | .awaitingBlock da, _ => [.block da]
  | .running, some m => if m.code = 1 then [] else [.block m.block]
  | .running, none =>
    if t.mis = [] then []
    else match coreLoss core (coreOf (campOf s camp) core) t with
      | some m => [.core camp core m]
      | none => (lanesDue t).map fun m => .lane camp core m
  | _, _ => []

/-- The repairs that a pitch's runs are due, without repeats. -/
def repairsDue (s : State) (p : Nat) : List Repair :=
  ((openRuns s p).map fun x => runRepairs s x.1 x.2.1 x.2.2).flatten.eraseDups

/-- Abandon the step of a pitch back to the last step boundary (R166, R167, R210); the repairs that its runs were due are kept (R459). -/
def abandonStep (s : State) (p : Nat) : State :=
  let due := repairsDue s p
  let s1 := closeEpochs (stopCamps s p) p
  let s2 := discardAll ((pitchOf s1 p).batch.map (·.seq)) s1
  let s3 := freeLists p (pitchOf s2 p).chosen s2
  onPitch s3 p fun x => { x with
    slots := mmap x.slots fun _ t => restoreSlot t
    syncs := mmap x.syncs fun _ _ => Sync.fresh
    repairs := x.repairs ++ due.filter fun d => decide (d ∉ x.repairs)
    chosen := []
    lookout := []
    lookoutRead := []
    sent := false
    readySyncs := []
    tableSlot := none }

/-- Retire a core whose run was abandoned (R92, R457); a camp that has left service is not fenced again. -/
def loseCore (s : State) (camp core p : Nat) (m : Mismatch) : State :=
  if (campOf s camp).fenced then s
  else
    let s1 := residueEvent s camp core p 0x0003 m (spareLanesLeft (coreOf (campOf s camp) core))
    fenceOne (onCore s1 camp core fun k => { k with retired := true }) camp core

/-- Make one repair (R459). A block stays due until WEIGHT_REFETCHED has read it again. -/
def makeRepair (s : State) (p : Nat) : Repair → State
  | .block da => onPitch s p fun x => { x with repairs := x.repairs ++ [.block da] }
  | .lane camp core m =>
    let k := coreOf (campOf s camp) core
    if (campOf s camp).fenced ∨ m.unit ∈ k.lanesRetired then s
    else if spareLanesLeft k = 0 then loseCore s camp core p m else retireLanes camp core p [m] s
  | .core camp core m => loseCore s camp core p m

/-- Make the repairs of a list in order. -/
def makeRepairs (p : Nat) : List Repair → State → State
  | [], s => s
  | d :: t, s => makeRepairs p t (makeRepair s p d)

/-- Make every repair that a pitch is due before its step runs (R459). -/
def repairNow (s : State) (p : Nat) : State := makeRepairs p (pitchOf s p).repairs (onPitch s p fun x => { x with repairs := [] })

/-- A block is due no more in the pitches of a list. -/
def dropBlock (da : Nat) : List Nat → State → State
  | [], s => s
  | p :: t, s => dropBlock da t (onPitch s p fun x => { x with repairs := x.repairs.filter fun d => decide (d ≠ .block da) })

/-- Abandon the step and run it again: the micro-batch stays (R166), and the repairs come first (R459). -/
def rerunStep (s : State) (p : Nat) : State := repairNow (onPitch (abandonStep s p) p fun x => { x with reruns := x.reruns + 1 }) p

/-- Abandon the step and hold the micro-batch's sequences with cause 1 (R167, R243). -/
def failStep (s : State) (p result : Nat) : State :=
  let s1 := abandonStep s p
  let held := (pitchOf s1 p).batch.map (·.seq)
  let s2 := holdAll 1 result held s1
  onPitch (leaveBatch s2 p held) p fun x => { x with
    inStep := false, timeouts := 0, uncorrectable := 0, preshifted := [], kvNoted := [], blindNoted := []
    nanScores := [] }

/-- An uncorrectable word in a scratchpad, slot, run-ahead buffer or hash accumulator (R243): the first in a step runs it again, the
second holds its sequences with INTEGRITY_FAIL. -/
def uncorrectableWord (s : State) (p : Nat) : State :=
  if (pitchOf s p).uncorrectable = 0 then onPitch (rerunStep s p) p fun x => { x with uncorrectable := 1 }
  else failStep s p rcIntegrityFail

/-! ### Camp faults (R167 to R169) -/

/-- A program or containment fault of a camp program. -/
structure CampFault where
  cls : Nat
  code : Nat
  core : Nat
  object : Nat
  deriving DecidableEq, Repr

/-- Program fault of class 0x0C. -/
def progFault (code core object : Nat) : CampFault := ⟨0x0C, code, core, object⟩
/-- Containment fault of class 0x0A. -/
def containFault (code core object : Nat) : CampFault := ⟨0x0A, code, core, object⟩
/-- BAD_FIELD (R168). -/
def badField (core : Nat) : CampFault := progFault 0x0302 core 0

/-- Detail bytes of a camp fault record (R169). -/
def campDetail (camp command core opcode attempt object : Nat) : List Byte :=
  leBytes 2 camp ++ leBytes 2 command ++ leBytes 1 core ++ leBytes 1 opcode ++ leBytes 1 attempt ++ leBytes 1 0
    ++ leBytes 4 object ++ leBytes 4 0

/-- The command index at which a camp stands. -/
def commandIndex (c : Camp) : Nat :=
  match c.prog with
  | none => 0
  | some p => p.base + p.pc

/-- Raise a camp fault (R167): the pitch's programs stop, the step is abandoned, a record is written, the micro-batch's sequences are
held and their requests complete with INTERNAL. -/
def raiseFault (s : State) (camp : Nat) (f : CampFault) (opcode attempt : Nat) : State :=
  match homeOf s camp with
  | none => s
  | some (r, _) =>
    let idx := commandIndex (campOf s camp)
    let s1 := writeEvent s (srcCamp camp) f.cls f.code r.pitch (campDetail camp idx f.core opcode attempt f.object)
    failStep s1 r.pitch rcInternal

/-! ### Fencing a camp (R457) -/

/-- Fence the camp of a retired core (R457): the pitch's step is abandoned, a spare camp takes the camp's number and the step runs again, or the pitch
stops and its sequences are parked. -/
def fenceCamp (s : State) (camp core : Nat) : State :=
  match homeOf s camp with
  | none => putCamp s camp { stopCamp (campOf s camp) with fenced := true }
  | some (r, _) => fenceOne (rerunStep (putCamp s camp { campOf s camp with fenced := true }) r.pitch) camp core

end Sys2Proof.Machine
end

