-- ==== Sys2Proof/Machine/MemEvents.lean ====
section
/-! DEFINITION. Events of the memory arrays (R226, R262, R263), lost pages (R225), and the marking of pseudo-channels (R460). -/

namespace Sys2Proof.Machine

/-- Detail bytes of the memory events (R263). -/
def memDetail (address unit index channel position value : Nat) : List Byte :=
  leBytes 8 address ++ leBytes 1 unit ++ leBytes 1 index ++ leBytes 1 channel ++ leBytes 1 position ++ leBytes 1 value ++ leBytes 3 0

/-- The position field when nothing was corrected (R263). -/
def noPosition : Nat := 0xFF

/-- Detail bytes of the page events (R226). -/
def pageDetail (page layer state copy first held : Nat) : List Byte :=
  leBytes 4 page ++ leBytes 2 layer ++ leBytes 1 state ++ leBytes 1 copy ++ leBytes 4 first ++ leBytes 4 held

/-- The state that a lost page is given: an invalid code, so that neither copy is read (R205, R225; DESIGN CHOICE: notes/assumptions/14.md). -/
def lostState : PageState := .invalid 0xFF

/-- A page without a good copy is lost (R225, R226): each sequence that references it is held with cause 4. `code` is PAGE_LOST, or
PAGE_DIGEST where an imported page fails its digest (R324). A page that no reference names becomes FREE (R221). -/
def pageLost (s : State) (p n copy code : Nat) : State :=
  let g := pageOf s p n
  if g.doomed then freePage s p n
  else
  let hs := holdersOf s p n
  let s1 := rangerEvent s 0x03 code p (pageDetail n g.layer (pageStateCode g.state) copy g.firstPosition hs.length)
  holdAllAtBoundary 4 rcIntegrityFail hs (putPage s1 p n { g with state := lostState })

/-- Lose every page of a list. -/
def pagesLost (p copy : Nat) : List Nat → State → State
  | [], s => s
  | n :: t, s => pagesLost p copy t (pageLost s p n copy 0x0402)

/-! ### Pseudo-channels (R460) -/

/-- Mark a pseudo-channel for repair (R460, R464); a channel is marked once. -/
def markChannel (s : State) (ch seconds : Nat) : State :=
  if ch ∈ s.mem.marked then s
  else
    rangerEvent { s with mem := { s.mem with marked := s.mem.marked ++ [ch] } } 0x05 0x0E07 noPitch
      (wearDetail 0 noCore 0 ch seconds 0)

/-- The distinct Cairn seconds of the last 60 s with corrections in a pseudo-channel (R460). -/
def correctionSeconds (s : State) (ch : Nat) : List Nat := (mgetD s.mem.corrSeconds ch []).filter fun u => decide (second s < u + 60)

/-- A correction in a pseudo-channel: 8 distinct Cairn seconds with corrections within any 60 s mark it (R460). -/
def countCorrection (s : State) (ch : Nat) : State :=
  let t := second s
  let old := correctionSeconds s ch
  let recent := if t ∈ old then old else old ++ [t]
  let s1 := { s with mem := { s.mem with corrSeconds := mset s.mem.corrSeconds ch recent } }
  if 8 ≤ recent.length then markChannel s1 ch recent.length else s1

/-- The pitch whose HBM quota holds a byte; none for a shared region or unallotted space. -/
def hbmOwner (s : State) (da : Nat) : Nat :=
  match s.cfg with
  | none => noPitch
  | some c =>
    match c.pitches.find? fun r => decide (r.hbmBase * 2 ^ 30 ≤ da ∧ da < (r.hbmBase + r.hbmSize) * 2 ^ 30) with
    | some r => r.pitch
    | none => noPitch

/-- HBM_CORRECTED once per pseudo-channel and Cairn second (R250, R262). -/
def hbmCorrected (s : State) (source da symbol : Nat) : State :=
  let ch := hbmChannel s da
  let s1 := eventOnce s 0x0605 ch fun s =>
    writeEvent s source 0x02 0x0605 (hbmOwner s da) (memDetail da 2 (ch / 64) (ch % 64) symbol 0)
  countCorrection s1 ch

/-- HBM_UNCORRECTABLE or HBM_ADDRESS (R250, R252, R262); the pseudo-channel is marked (R460). -/
def hbmBad (s : State) (source da : Nat) (address : Bool) : State :=
  let ch := hbmChannel s da
  let s1 := writeEvent s source 0x02 (if address then 0x0607 else 0x0606) (hbmOwner s da)
    (memDetail da 2 (ch / 64) (ch % 64) noPosition 0)
  markChannel s1 ch (correctionSeconds s1 ch).length

/-- Take a prefix-tree node out: its page references are dropped and its space is freed (R231, R252). -/
def removeNode (s : State) (p n : Nat) : State :=
  match mget (pitchOf s p).tree n with
  | none => s
  | some t => dropRefs p t.pages (freeRange (onPitch s p fun x => { x with tree := mdel x.tree n }) p n)

/-- Run again the step of every pitch with rows on the module (R243, R453). -/
def rerunAll : List Nat → State → State
  | [], s => s
  | p :: t, s => rerunAll t (if (pitchOf s p).batch = [] then s else rerunStep s p)

/-- The bank of R239 that a Larder byte lies in, numbered over the module. -/
def globalBank (da : Nat) : Nat :=
  let (slice, b, _) := larderLocate da
  1024 * slice + b

/-- LARDER_UNCORRECTABLE (R243, R262). -/
def larderBad (s : State) (source p da : Nat) : State :=
  writeEvent s source 0x02 0x0602 p (memDetail da 0 ((larderLocate da).1) 0 noPosition 0)

end Sys2Proof.Machine
end

