-- ==== Sys2Proof/Machine/Weights.lean ====
section
/-! DEFINITION. Weight regions and coded regions: refetch from the golden copy (R35, R454), the model integrity fault (R455), and reads and
stores of coded regions (R264 to R284). -/

namespace Sys2Proof.Machine

/-! ### Regions (R371, R455) -/

/-- The region field of the weight events: 0 to 15, or 0xFFFF for private weights (R464). -/
def regionField (s : State) (p : Nat) : Nat :=
  match (pitchOf s p).package with
  | some k => k.region.getD 0xFFFF
  | none => 0xFFFF

/-- The pitches whose records reference a shared region (R364, R371). -/
def pitchesOfRegion (s : State) (g : Nat) : List Nat :=
  (((s.cfg.map (·.pitches)).getD []).filter fun r => bitOf r.regions g).map (·.pitch)

/-- The pitches that reference the region that a pitch's package lies in (R372, R455). -/
def regionPitches (s : State) (p : Nat) : List Nat :=
  match (pitchOf s p).package.bind (·.region) with
  | none => [p]
  | some g => pitchesOfRegion s g

/-- The pitches whose package lies in the same region as a pitch's. -/
def sharersOf (s : State) (p : Nat) : List Nat :=
  let g := (pitchOf s p).package.bind (·.region)
  (regionPitches s p).filter fun q => decide (((pitchOf s q).package.bind (·.region)) = g)

/-- The sequences of a pitch with a command running or queued; on a module that is not the lead, to which the lead alone gives the commands,
those with a row in its micro-batch (R340, R361, R455). -/
def busySeqs (s : State) (p : Nat) : List Nat :=
  seqsWhere s p fun i e => (s.reqs.any fun r => decide (r.handle = e.generation * 65536 + i))
    || (pitchOf s p).batch.any fun m => decide (m.seq = i)

/-- Note the region of a cause-3 hold. -/
def noteRegion (g : Option Nat) : List Nat → State → State
  | [], s => s
  | i :: t, s => noteRegion g t (onSeq s i fun e => if e.state = .held ∧ e.hold = 3 then { e with holdRegion := g } else e)

/-- Abandon the step of each pitch of a list and hold its busy sequences with cause 3 (R455). -/
def holdRegions (g : Option Nat) : List Nat → State → State
  | [], s => s
  | p :: t, s =>
    let s1 := abandonStep s p
    let busy := busySeqs s1 p
    let s2 := noteRegion g busy (holdAll 3 rcIntegrityFail busy s1)
    holdRegions g t (onPitch (leaveBatch s2 p busy) p fun x => { x with inStep := false })

/-- A block of a pitch's region has a model integrity fault that no reload has mended (R455, R456). -/
def regionFaulty (s : State) (p : Nat) : Bool :=
  (regionPitches s p).any fun q => ((pitchOf s q).package).any fun k => (k.tensors.any fun t => decide (t.faulty ≠ [])) || decide (k.codedFaulty ≠ [])

/-- A model integrity fault at a DA (R35, R455): every pitch that references the region abandons its step and its busy sequences are held
with cause 3; one MODEL_INTEGRITY record per region, at its first faulting block. -/
def modelIntegrity (s : State) (p da : Nat) : State :=
  let ps := regionPitches s p
  let g := (pitchOf s p).package.bind (·.region)
  let s1 := holdRegions g ps s
  if regionFaulty s p then s1 else rangerEvent s1 0x03 0x0E05 p (wearDetail 0 noCore 0 (regionField s p) ps.length da)

/-- WEIGHT_REFETCHED (R454, R464). -/
def weightRefetchedEvent (s : State) (p da : Nat) : State :=
  rangerEvent s 0x03 0x0E04 p (wearDetail 0 noCore 0 (regionField s p) 0 da)

/-- The port that holds a DA of the capacity region. -/
def portOfDa (da : Nat) : Nat := (da - portBase 0) / 0x20000000000

/-- The state of the capacity port that a DA lies on; none outside the capacity region. -/
def portStateAt (s : State) (da : Nat) : Option PortState :=
  if portBase 0 ≤ da ∧ da < portBase 8 then (s.mem.ports[portOfDa da]?).map (·.state) else none

/-- An access at a DA waits: its capacity port is being retrained (R258). -/
def portWaits (s : State) (da : Nat) : Bool := decide (portStateAt s da = some .retraining)

/-- A DA lies on a capacity port that is not in service until the next start (R255, R258). -/
def portGone (s : State) (da : Nat) : Bool := (portStateAt s da).any fun k => decide (k ≠ .up ∧ k ≠ .retraining)

/-- DA of the first payload byte of a tensor. -/
def payloadDa (s : State) (r : PitchRecord) (t : LoadedTensor) : Nat := daOf s r t.address + 32

/-- The golden block has failed (R35, R455): the tensor's block is noted as faulty and the region has a model integrity fault. -/
def goldenFailed (s : State) (p da : Nat) (t : LoadedTensor) (j : Nat) : State :=
  onPitch (dropBlock da (regionPitches s p) (modelIntegrity s p da)) p fun x => { x with package := x.package.map fun k => { k with
    tensors := k.tensors.map fun y => if y.address = t.address ∧ j ∉ y.faulty then { y with faulty := y.faulty ++ [j] } else y } }

/-- The golden copy of block i of a coded region has failed (R35, R283, R455): the block is noted as faulty. -/
def codedFailed (s : State) (p da : Nat) (c : CodedRegion) (i : Nat) : State :=
  onPitch (modelIntegrity s p da) p fun x => { x with package := x.package.map fun k =>
    if (c.address, i) ∈ k.codedFaulty then k else { k with codedFaulty := k.codedFaulty ++ [(c.address, i)] } }

/-- CXL_UNCORRECTABLE: poison, an error response, or a check of R257 that failed (R262). -/
def cxlEvent (s : State) (source p da : Nat) : State :=
  writeEvent s source 0x02 0x0608 p (memDetail da 3 (portOfDa da) 0 noPosition 0)

/-- CXL_UNCORRECTABLE for an access of the Ranger. -/
def cxlBad (s : State) (p da : Nat) : State := cxlEvent { s with freeCtr := s.freeCtr + 1 } (srcRanger s) p da

/-! ### Coded regions (R275, R276, R283, R284) -/

/-- The coded region of the pitch's package that holds a pitch address. A pitch address below base + 4,096 × blocks names a decoded
byte of the region (DEDUCED: notes/assumptions/18.md). -/
def codedAt (s : State) (p a : Nat) : Option CodedRegion :=
  match (pitchOf s p).package with
  | none => none
  | some k => k.coded.find? fun c => decide (c.address ≤ a ∧ a < c.address + 4096 * c.blocks)

/-- Where block i of a coded region begins, from its first byte (R276). -/
def blockStart (s : State) (c : CodedRegion) (base i : Nat) : Nat :=
  if c.writable then base + 4160 * i else base + 64 * leAt (peekBytes s (base + 4 * i) 4) 0 4

/-- Every sequence of a pitch depends on its master weights and optimiser state (DESIGN CHOICE: notes/assumptions/42.md). -/
def dependents (s : State) (p : Nat) : List Nat := seqsWhere s p fun _ _ => true

/-- Bytes that a block's header and out_len cover (R276). -/
def frameLength (s : State) (at_ : Nat) : Nat := min 4112 (16 + leAt (peekBytes s at_ 16) 4 2)

/-- The 64-byte lines of a block that a read fetches (R276). -/
def blockLines (s : State) (at_ : Nat) : Nat × Nat := (at_, ceilDiv (frameLength s at_) 64 * 64)

/-- Blocks of a coded region that hold decoded bytes o to o + n − 1. -/
def blocksOf (o n : Nat) : List Nat := (List.range ((o + n - 1) / 4096 + 1 - o / 4096)).map (· + o / 4096)

/-- The ranges of device memory that a read of decoded bytes o to o + n − 1 of a coded region fetches: table entries of a packed region, and the
lines of its blocks (R276). -/
def codedReads (s : State) (r : PitchRecord) (c : CodedRegion) (o n : Nat) : List (Nat × Nat) :=
  let base := daOf s r c.address
  let is := blocksOf o n
  (if c.writable then [] else [(base + 4 * (o / 4096), 4 * is.length)]) ++ is.map fun i => blockLines s (blockStart s c base i)

/-- The ranges that a write of decoded bytes o to o + n − 1 of a coded region meets: the frames (R276, R277). -/
def codedWrites (s : State) (r : PitchRecord) (c : CodedRegion) (o n : Nat) : List (Nat × Nat) :=
  (blocksOf o n).map fun i => (frameAt (daOf s r c.address) i, 4160)

/-- Decode block i of a coded region whose first byte lies at a DA. -/
def readBlock (s : State) (c : CodedRegion) (base i : Nat) (bounded : Bool) : Except DecodeFault (List Byte) :=
  let at_ := blockStart s c base i
  match decodeBlock bounded (peekBytes s at_ (frameLength s at_)) with
  | .ok (bs, _) => .ok bs
  | .error f => .error f

/-- Detail bytes of the decode fault events (R284). -/
def decodeDetail (address : Nat) (head : List Byte) (sender attempt : Nat) : List Byte :=
  leBytes 8 address ++ padTo 2 head ++ padTo 2 (head.drop 2) ++ leBytes 2 sender ++ leBytes 1 attempt ++ leBytes 1 0

/-- Write the event of a decode fault of a package region or of master weights (R284). -/
def decodeEvent (s : State) (source p at_ : Nat) (f : DecodeFault) : State :=
  writeEvent s source 0x03 (decodeCode f) p (decodeDetail at_ (peekBytes s at_ 4) 0 0)

/-- Block i of a package region is fetched again from its golden copy (R35, R252, R283): the block's bytes, or none where that copy fails or lies on a
lost port, which is a model integrity fault. `poison` says that its read returns poison or an error response (R254, R257). -/
def refetchCoded (source p : Nat) (c : CodedRegion) (base gbase : Nat) (poison : Bool) (i : Nat) (s : State) : State × Option (List Byte) :=
  let at_ := blockStart s c base i
  let g0 := blockStart s c gbase i
  if portGone s gbase then (codedFailed s p at_ c i, none)
  else if poison then (codedFailed (cxlEvent s source p g0) p at_ c i, none)
  else
    match readBlock s c gbase i true with
    | .error g =>
      let s1 := decodeEvent s source p g0 g
      (codedFailed (if g = .crc then cxlEvent s1 source p g0 else s1) p at_ c i, none)
    | .ok bs => (weightRefetchedEvent (pokeBytes s at_ (peekBytes s g0 (frameLength s g0))) p at_, some bs)

/-- Blocks of a coded region that were read: their bytes, and the state with the events and refetches; or none where the region's fault
ends the command. `poison` says that the read of the golden copy returns poison or an error response (R254, R257). -/
def readBlocks (source p : Nat) (c : CodedRegion) (base gbase : Nat) (poison : Bool) : List Nat → State → State × Option (List Byte)
  | [], s => (s, some [])
  | i :: t, s =>
    match readBlock s c base i false with
    | .ok bs =>
      match readBlocks source p c base gbase poison t s with
      | (s1, some rest) => (s1, some (bs ++ rest))
      | (s1, none) => (s1, none)
    | .error f =>
      let s1 := decodeEvent s source p (blockStart s c base i) f
      if c.writable = false ∧ portWaits s gbase then (s, none)
      else if c.writable then (holdAllAtBoundary 4 rcIntegrityFail (dependents s1 p) s1, none)
      else
        match refetchCoded source p c base gbase poison i s1 with
        | (s2, none) => (s2, none)
        | (s2, some bs) =>
          match readBlocks source p c base gbase poison t s2 with
          | (s3, some rest) => (s3, some (bs ++ rest))
          | (s3, none) => (s3, none)

/-- Read decoded bytes o to o + n − 1 of a coded region. -/
def readCoded (s : State) (source : Nat) (r : PitchRecord) (c : CodedRegion) (o n : Nat) (poison : Bool) : State × Option (List Byte) :=
  match readBlocks source r.pitch c (daOf s r c.address) (goldenOf s r c.address c.golden) poison (blocksOf o n) s with
  | (s1, some bs) => (s1, some ((bs.drop (o % 4096)).take n))
  | (s1, none) => (s1, none)

/-- Decoded bytes of a region whose blocks have been read without a fault; a block that faults gives zeros, and the read that met the fault has
ended its command. -/
def codedBytes (s : State) (r : PitchRecord) (c : CodedRegion) (o n : Nat) : List Byte :=
  let block (i : Nat) : List Byte := match readBlock s c (daOf s r c.address) i false with
    | .ok bs => padTo 4096 bs
    | .error _ => List.replicate 4096 0#8
  ((((blocksOf o n).map block).flatten).drop (o % 4096)).take n

/-- Bytes at a pitch address on their way to the weight-stream buffer: a package region in coded form is decoded (R275). -/
def streamBytes (s : State) (r : PitchRecord) (a n : Nat) : List Byte :=
  match codedAt s r.pitch a with
  | none => peekBytes s (daOf s r a) n
  | some g => codedBytes s r g (a - g.address) n

/-- The ranges of device memory that such a read fetches. -/
def streamRanges (s : State) (r : PitchRecord) (a n : Nat) : List (Nat × Nat) :=
  match codedAt s r.pitch a with
  | none => [(daOf s r a, n)]
  | some g => codedReads s r g (a - g.address) n

/-- Store decoded bytes into the frames of a writable coded region: each frame is written whole (R276, R277). -/
def storeBlocks (r : PitchRecord) (c : CodedRegion) (base : Nat) : List Nat → List Byte → State → State
  | [], _, s => s
  | i :: t, bs, s => storeBlocks r c base t (bs.drop 4096) (pokeBytes s (frameAt base i) (encodeBlock coderExponent false (bs.take 4096)))

/-- Replace bytes o to o + |bs| − 1 of a byte string. -/
def patch (old : List Byte) (o : Nat) (bs : List Byte) : List Byte := old.take o ++ bs ++ old.drop (o + bs.length)

/-- Write decoded bytes into a writable coded region (R275 to R277). -/
def writeCoded (s : State) (source : Nat) (r : PitchRecord) (c : CodedRegion) (o : Nat) (bs : List Byte) : State × Bool :=
  let is := blocksOf o bs.length
  let base := daOf s r c.address
  if o % 4096 = 0 ∧ bs.length % 4096 = 0 then (storeBlocks r c base is bs s, true)
  else match readBlocks source r.pitch c base 0 false is s with
  | (s1, none) => (s1, false)
  | (s1, some old) => (storeBlocks r c base is (patch old (o % 4096) bs) s1, true)

end Sys2Proof.Machine
end

