-- ==== Sys2Proof/Machine/Findings.lean ====
section
/-! DEFINITION. What an array check finds while a row moves data, and what follows (R33, R242, R243, R250 to R252, R257, R263). Choices the
spec leaves: notes/assumptions/42.md. -/

namespace Sys2Proof.Machine

/-! ### Addresses in a Larder slice (R239, R240) -/

/-- A camp's place among the 2,500 camps of its slice (DESIGN CHOICE: notes/assumptions/42.md). -/
def campInSlice (camp : Nat) : Nat := camp / 200 * 25 + camp % 25

/-- First byte of a camp's run-ahead buffer (R170, R240). -/
def aheadBase (camp : Nat) : Nat := larderBase (sliceOf camp) + 65536 * campInSlice camp

/-- First byte of a slice's weight-stream buffers (R240). -/
def weightBufferBase (camp : Nat) : Nat := larderBase (sliceOf camp) + 0x09C40000

/-- Entry k of a hash accumulator instance (R113, R240). -/
def hashEntryDa (inst k : Nat) : Nat := larderBase inst + 0x0DC40000 + 16 * k

/-- First byte of a slice's Ranger area (R240). -/
def rangerAreaBase (camp : Nat) : Nat := larderBase (sliceOf camp) + 0x0DCC0000

/-! ### Uncorrectable Larder and scratchpad words (R243) -/

/-- A persistent slot with an uncorrectable word (R243): the Ranger refills it and the step runs again; another slot: R243's first row. -/
def slotBad (s : State) (p slot : Nat) : State :=
  match mget (pitchOf s p).slots slot, recordOf s p with
  | some x, some r =>
    if x.persistent then
      let s1 := rerunStep s p
      pokeBytes s1 (slotDa s1 r x) (padTo x.size x.contents)
    else uncorrectableWord s p
  | _, _ => uncorrectableWord s p

/-- DA of a byte of a slot of the pitch; 0 where there is no such slot. -/
def slotByteDa (s : State) (p slot byte : Nat) : Nat :=
  match mget (pitchOf s p).slots slot, recordOf s p with
  | some x, some r => slotDa s r x + byte
  | _, _ => 0

/-! ### Uncorrectable words of HBM and of capacity ports (R33, R35, R252, R257) -/

/-- The tensor of a pitch whose range from `start` holds a DA, and its block (R106). -/
def tensorWith (s : State) (start : PitchRecord → LoadedTensor → Nat) (da : Nat) : Option (PitchRecord × LoadedTensor × Nat) :=
  match s.cfg with
  | none => none
  | some c =>
    c.pitches.findSome? fun r =>
      match (pitchOf s r.pitch).package with
      | none => none
      | some k =>
        (k.tensors.find? fun t => decide (start r t ≤ da ∧ da < start r t + t.payloadBytes)).map fun t => (r, t, (da - start r t) / 4096)

/-- The tensor whose working copy holds a DA. -/
def tensorHolding (s : State) (da : Nat) : Option (PitchRecord × LoadedTensor × Nat) := tensorWith s (payloadDa s) da

/-- First byte of the golden copy of a payload. -/
def goldenDa (s : State) (r : PitchRecord) (t : LoadedTensor) : Nat := goldenOf s r t.address t.golden + 32

/-- The package region in coded form whose block holds a DA: its pitch, the region and the block (R252, R276). -/
def codedHolding (s : State) (da : Nat) : Option (PitchRecord × CodedRegion × Nat) :=
  (((s.cfg.map (·.pitches)).getD [])).findSome? fun r =>
    ((((pitchOf s r.pitch).package.map (·.coded)).getD []).filter fun c => !c.writable).findSome? fun c =>
      ((List.range c.blocks).find? fun i =>
        let x := blockLines s (blockStart s c (daOf s r c.address) i)
        decide (x.1 ≤ da ∧ da < x.1 + x.2)).map fun i => (r, c, i)

/-- Refetch the block of a package region in coded form that holds a DA (R252, R283). -/
def scrubCoded (s : State) (da : Nat) (poison : Bool) : State :=
  match codedHolding s da with
  | none => s
  | some (r, c, i) =>
    let g := goldenOf s r c.address c.golden
    if portWaits s g then s
    else (refetchCoded (srcRanger s) r.pitch c (daOf s r c.address) g poison i { s with freeCtr := s.freeCtr + 1 }).1

/-- Refetch the weight block that holds a DA from its golden copy (R35, R252, R257, R454); `poison` says that its read returns poison. -/
def scrubWeights (s : State) (da : Nat) (poison : Bool) : State :=
  match tensorHolding s da with
  | none => scrubCoded s da poison
  | some (r, t, j) =>
    let n := min 4096 (t.payloadBytes - 4096 * j)
    let g := goldenDa s r t + 4096 * j
    let at_ := payloadDa s r t + 4096 * j
    let bs := peekBytes s g n
    if portWaits s g then s
    else if portGone s g then goldenFailed s r.pitch at_ t j
    else if poison ∨ crc32c bs ≠ t.crcs.getD j 0 then goldenFailed (cxlBad s r.pitch g) r.pitch at_ t j
    else weightRefetchedEvent (pokeBytes s at_ bs) r.pitch at_

/-- The first block of a golden payload whose CRC-32C differs from the package's (R257, R454). -/
def badGolden (t : LoadedTensor) (payload : List Byte) : Option Nat :=
  (List.range (ceilDiv t.payloadBytes 4096)).find? fun j => decide (crc32c ((payload.drop (4096 * j)).take 4096) ≠ t.crcs.getD j 0)

/-- The row-start table of a tensor is rebuilt from the golden copy, each block of which is checked as where a block of the working copy is
fetched again (R33, R257). A rebuild that no one block explains names the payload's first (DESIGN CHOICE: notes/assumptions/44.md). -/
def rebuildRowStarts (s : State) (p k : Nat) (poison : Bool) : State :=
  match recordOf s p, ((pitchOf s p).package.map (·.tensors)).bind (·[k]?) with
  | some r, some t =>
    let g := goldenDa s r t
    let at_ := payloadDa s r t
    if portWaits s g then s
    else if portGone s g then goldenFailed s p at_ t 0
    else if poison then goldenFailed (cxlBad s p g) p at_ t 0
    else
      let payload := peekBytes s g t.payloadBytes
      match badGolden t payload with
      | some j => goldenFailed (cxlBad s p (g + 4096 * j)) p (at_ + 4096 * j) t j
      | none =>
      match rowStarts (parseHeader (peekBytes s (goldenOf s r t.address t.golden) 32)) payload with
      | none => goldenFailed s p at_ t 0
      | some rows =>
        let fix (y : LoadedTensor) : LoadedTensor := if y.address = t.address then { y with rowStarts := rows } else y
        weightRefetchedEvent (onPitch s p fun x => { x with package := x.package.map fun k => { k with tensors := k.tensors.map fix } }) p at_
  | _, _ => s

/-- The hot copy of a page is uncorrectable (R225, R252): with a warm copy the tile stalls until PAGE_REFETCHED, a copy that a promotion is still
writing is written from the warm one, and otherwise the page is lost. -/
def hotCopyBad (s : State) (p n : Nat) : State :=
  match (pageOf s p n).state with
  | .both => s
  | .promoting => s
  | _ => pageLost s p n 0 0x0402

/-- The warm copy of a page is uncorrectable (R225, R257): without a hot copy the page is lost. -/
def warmCopyBad (s : State) (p n : Nat) : State :=
  match (pageOf s p n).state with
  | .warm => pageLost s p n 1 0x0402
  | .promoting => pageLost s p n 1 0x0402
  | _ => s

/-- The response to an uncorrectable HBM word at a DA, by what it holds (R33, R225, R252). A tile takes its own response to weights, at its join
(R106): `tile` says that the word was read for one. -/
def contentBad (s : State) (da : Nat) (tile poison : Bool) : HbmContent → State
  | .weights => if tile then s else scrubWeights s da poison
  | .rowStarts p k => rebuildRowStarts s p k poison
  | .page p n => hotCopyBad s p n
  | .summary p n => resummarise s p n
  | .super i layer k => resuper s i (layer - ((recordOf s (seqOf s i).pitch).map (·.group.firstLayer)).getD 0) k
  | .descriptor p n => holdAllAtBoundary 4 rcIntegrityFail (holdersOf s p n) s
  | .treeNode p n => removeNode s p n
  | .sequence i => holdAtBoundary s i 4 rcIntegrityFail
  | .master p => holdAllAtBoundary 4 rcIntegrityFail (dependents s p) s
  | .spill p => uncorrectableWord s p
  | .unallocated => s

/-- The response to an uncorrectable word of a capacity port (R257): a page's warm copy by R225, a golden block by R35. -/
def capacityBad (s : State) (da : Nat) : HbmContent → State
  | .page p n => warmCopyBad s p n
  | .weights =>
    (match tensorWith s (goldenDa s) da with
    | some (r, t, j) => goldenFailed s r.pitch (payloadDa s r t + 4096 * j) t j
    | none => s)
  | other => contentBad s da false true other

/-! ### Findings -/

/-- LARDER_UNCORRECTABLE and its response. -/
def larderFound (s : State) (camp p da : Nat) (k : State → State) : State := k (larderBad s (srcCamp camp) p da)

/-- An uncorrectable entry of a hash accumulator, which a residue mismatch of its adder is handled as, with its record (R117, R243, R449; DEDUCED:
notes/assumptions/52.md). -/
def hashEntryBad (s : State) (camp p inst entry : Nat) : State := larderFound s camp p (hashEntryDa inst entry) fun s => uncorrectableWord s p

/-- The scratchpad address of R263. -/
def scratchAddress (camp core byte : Nat) : Nat := (camp * 16 + core) * 2 ^ 15 + byte

/-- What a check finds while a row of a camp moves data, and the response (R117, R242, R243, R250, R252, R257). A golden read that the response
needs returns poison where the findings say so. -/
def applyFinding (s : State) (camp p : Nat) (tile : Bool) : Finding → State
  | .larderCorrected da bit =>
    eventOnce s 0x0601 (globalBank da) fun s =>
      writeEvent s (srcCamp camp) 0x02 0x0601 p (memDetail da 0 ((larderLocate da).1) 0 bit 0)
  | .larderWeightBuffer offset _ => larderFound s camp p (weightBufferBase camp + offset) id
  | .larderSlot slot byte => larderFound s camp p (slotByteDa s p slot byte) fun s => slotBad s p slot
  | .larderRunAhead offset => larderFound s camp p (aheadBase camp + offset) fun s => uncorrectableWord s p
  | .larderHash inst entry => hashEntryBad s camp p inst entry
  | .larderStaging da seq => larderFound s camp p da fun s => holdAtBoundary s seq 4 rcIntegrityFail
  | .larderRanger offset => larderFound s camp p (rangerAreaBase camp + offset) fun s => rerunAll (s.pitches.map (·.1)) s
  | .hashResidue inst entry => hashEntryBad s camp p inst entry
  | .scratchCorrected core byte _ =>
    eventOnce s 0x0603 (camp * 16 + core) fun s =>
      writeEvent s (srcCamp camp) 0x02 0x0603 p (memDetail (scratchAddress camp core byte) 1 0 0 noPosition 0)
  | .scratchUncorrectable core byte =>
    uncorrectableWord (writeEvent s (srcCamp camp) 0x02 0x0604 p (memDetail (scratchAddress camp core byte) 1 0 0 noPosition 0)) p
  | .hbmCorrected da symbol => hbmCorrected s (srcCamp camp) da symbol
  | .hbmBad da address content poison => contentBad (hbmBad s (srcCamp camp) da address) da tile poison content
  | .cxlBad da content => capacityBad (cxlEvent s (srcCamp camp) p da) da content

/-- A read of the golden copy of weights returns poison or an error response (R254, R257). -/
def goldenPoison (found : List Finding) : Bool := found.any fun f => match f with
  | .cxlBad _ .weights => true
  | _ => false

/-- The findings of a command in a coded region: poison of the golden copy is acted on where that copy is read. -/
def codedFindings (found : List Finding) : List Finding := found.filter fun f => match f with
  | .cxlBad _ .weights => false
  | _ => true

/-- Whether a finding ends the command: the step has been abandoned. -/
def stopsCommand : Finding → Bool
  | .larderSlot _ _ => true
  | .larderRunAhead _ => true
  | .larderHash _ _ => true
  | .larderRanger _ => true
  | .hashResidue _ _ => true
  | .scratchUncorrectable _ _ => true
  | .hbmBad _ _ (.spill _) _ => true
  | .cxlBad _ (.spill _) => true
  | _ => false

/-- The golden copy that the response to a finding reads lies on a port that is being retrained, so the read that met it waits (R33, R258); a tile
takes its response to weights at its join. -/
def findingWaits (s : State) (tile : Bool) : Finding → Bool
  | .hbmBad da _ .weights _ => !tile && (match tensorHolding s da with
    | some (r, t, j) => portWaits s (goldenDa s r t + 4096 * j)
    | none => (codedHolding s da).any fun x => portWaits s (goldenOf s x.1 x.2.1.address x.2.1.golden))
  | .hbmBad _ _ (.rowStarts p k) _ =>
    (match recordOf s p, ((pitchOf s p).package.map (·.tensors)).bind (·[k]?) with
    | some r, some t => portWaits s (goldenDa s r t)
    | _, _ => false)
  | _ => false

/-- Apply findings in order, up to and with the first that abandons the step. The flag says that one did. -/
def applyFindings (camp p : Nat) (tile : Bool) : List Finding → State → State × Bool
  | [], s => (s, false)
  | f :: t, s =>
    if stopsCommand f then (applyFinding s camp p tile f, true) else applyFindings camp p tile t (applyFinding s camp p tile f)

/-- What a check finds while the Ranger or the Lantern engine reads device memory, and the response (R243, R250, R252, R257). The Ranger's own area is
that of slice 0 (DESIGN CHOICE: notes/assumptions/42.md). -/
def rangerFinding (s0 : State) (p : Nat) (f : Finding) : State :=
  let s := { s0 with freeCtr := s0.freeCtr + 1 }
  let larder (da : Nat) (k : State → State) : State := k (larderBad s (srcRanger s0) p da)
  match f with
  | .larderCorrected da bit =>
    eventOnce s0 0x0601 (globalBank da) fun s =>
      writeEvent { s with freeCtr := s.freeCtr + 1 } (srcRanger s) 0x02 0x0601 p (memDetail da 0 ((larderLocate da).1) 0 bit 0)
  | .larderSlot slot byte => larder (slotByteDa s p slot byte) fun s => slotBad s p slot
  | .larderStaging da seq => larder da fun s => holdAtBoundary s seq 4 rcIntegrityFail
  | .larderRanger offset => larder (rangerAreaBase 0 + offset) fun s => rerunAll (s.pitches.map (·.1)) s
  | .hbmCorrected da symbol => hbmCorrected s (srcRanger s0) da symbol
  | .hbmBad da address content poison => contentBad (hbmBad s (srcRanger s0) da address) da false poison content
  | .cxlBad da content => capacityBad (cxlBad s0 p da) da content
  | _ => s0

/-- The responses to what such reads find. -/
def rangerFindings (p : Nat) : List Finding → State → State
  | [], s => s
  | f :: t, s => rangerFindings p t (rangerFinding s p f)

end Sys2Proof.Machine
end

