-- ==== Sys2Proof/Machine/Access.lean ====
section
/-! DEFINITION. Which accesses to memory wait (R248, R258, R260, R261): capacity ports that are not in service, throttled stacks, and banks and
channels in retention. -/

namespace Sys2Proof.Machine

/-! ### Retention units (R259 to R261) -/

/-- A bank or channel. -/
def unitAt (s : State) (u : Nat) : RetUnit := mgetD s.mem.units u ⟨.active, 0, 0, 0⟩
/-- Put a bank or channel. -/
def putUnit (s : State) (u : Nat) (x : RetUnit) : State := { s with mem := { s.mem with units := mset s.mem.units u x } }

/-- The retention unit is a Larder bank. -/
def isBank (u : Nat) : Bool := decide (u < 8192)

/-- The late-wake counter of a unit: its slice, or 16 + its stack (R261). -/
def lateCounter (u : Nat) : Nat := if isBank u then u / 1024 else 16 + (u - 8192) / 32

/-- Count a late wake (R261). -/
def countLate (s : State) (u : Nat) : State :=
  { s with mem := { s.mem with late := mset s.mem.late (lateCounter u) (mgetD s.mem.late (lateCounter u) 0 + 1) } }

/-- An access arrives after the close (R261): it cancels the close, or starts the wake, or waits for the wake that another started. -/
def lateAccess (s : State) (u : Nat) : State :=
  let x := unitAt s u
  match x.state with
  | .active => s
  | .draining => countLate (putUnit s u { x with state := .active, last := s.cairn.count }) u
  | .retained => countLate (putUnit s u { x with state := .waking, waiting := 1 }) u
  | .waking => countLate (putUnit s u { x with waiting := x.waiting + 1 }) u

/-- An access that a unit in service admits; its moment is noted (R259). -/
def touchUnit (s : State) (u : Nat) : State :=
  let s1 := lateAccess s u
  putUnit s1 u { unitAt s1 u with last := s.cairn.count }

/-- Touch the units of a list. -/
def touchUnits : List Nat → State → State
  | [], s => s
  | u :: t, s => touchUnits t (touchUnit s u)

/-- An access arrives at every unit of a list that does not admit it. -/
def wakeUnits : List Nat → State → State
  | [], s => s
  | u :: t, s => wakeUnits t (if (unitAt s u).state = .retained ∨ (unitAt s u).state = .waking then lateAccess s u else s)

/-- The HBM channel of a byte as a retention unit. -/
def channelUnit (s : State) (da : Nat) : Nat := let ch := hbmChannel s da; 8192 + 32 * (ch / 64) + ch % 64 / 2

/-- The retention units of a range: the banks of its Larder lines, or the channels of its HBM granules. -/
def unitsOf (s : State) (da n : Nat) : List Nat :=
  if n = 0 then []
  else if larderBase 0 ≤ da ∧ da < larderBase 8 then ((List.range ((da + n - 1) / 64 + 1 - da / 64)).map fun i => globalBank (da / 64 * 64 + 64 * i)).eraseDups
  else if da < s.mem.n * 2 ^ 30 then
    ((List.range ((da + n - 1) / 256 + 1 - da / 256)).map fun i => channelUnit s (da / 256 * 256 + 256 * i)).eraseDups
  else []

/-- The power policy lets units into retention, or some unit has been there. -/
def usesRetention (s : State) : Bool :=
  !s.mem.units.isEmpty || (s.cfg.map fun c => c.power.bankRetention || c.power.channelRetention).getD false

/-- The units that an access to some ranges meets; where nothing can be retained none is asked. -/
def unitsAsked (s : State) (rs : List (Nat × Nat)) : List Nat :=
  if usesRetention s then ((rs.map fun r => unitsOf s r.1 r.2).flatten).eraseDups else []

/-! ### Ports and stacks (R248, R258) -/

/-- Whether an access must stall: the capacity port under the address is not in service (R258; DEDUCED: notes/assumptions/19.md). -/
def portStalls (s : State) (da : Nat) : Bool := (portStateAt s da).any fun k => decide (k ≠ .up)

/-- The stack of an HBM byte is throttled, so the access waits (R248). -/
def stackWaits (s : State) (da : Nat) : Bool := decide (da < s.mem.n * 2 ^ 30) && (s.mem.hbmStacks.getD (hbmChannel s da / 64) Stack.reset).throttle

/-- A range of some bytes that some port or stack does not admit. -/
def rangeStalls (s : State) (r : Nat × Nat) : Bool :=
  decide (r.2 ≠ 0) && (portStalls s r.1 || ((s.mem.hbmStacks.any (·.throttle)) && (List.range ((r.1 + r.2 + 255) / 256 - r.1 / 256)).any fun i => stackWaits s (r.1 / 256 * 256 + 256 * i)))

/-- A row of the Ranger or the Lantern engine accesses ranges of device memory: nothing happens while a port, a stack, a bank or a channel does not
admit them (R248, R258, R260, R261). -/
def rangerAccess (s : State) (rs : List (Nat × Nat)) (k : State → State) : State :=
  let us := unitsAsked s rs
  if rs.any (rangeStalls s) then s
  else if us.any fun u => decide ((unitAt s u).state = .retained ∨ (unitAt s u).state = .waking) then wakeUnits us s
  else k (touchUnits us s)

/-- Such a row that reads: nothing happens either while a response to what the checks find waits for a port (R258); the responses come before the
row's effect. -/
def rangerReads (s : State) (p : Nat) (found : List Finding) (rs : List (Nat × Nat)) (k : State → State) : State :=
  if found.any (findingWaits s false) then s else rangerAccess s rs fun s1 => k (rangerFindings p found s1)

end Sys2Proof.Machine
end

