-- ==== Sys2Proof/WellFormed.lean ====
section
/-! DEFINITION. Well-formed commands: every operand that names a unit of the module names one that exists, and operands of fixed
length have it. A command outside these bounds is not one that the module can receive. -/

namespace Sys2Proof

/-- A logical camp (R15). -/
def campOk (c : Nat) : Bool := decide (c < Config.camps)
/-- A core of a camp (R15). -/
def coreOk (c : Nat) : Bool := decide (c < Config.coresPerCamp)
/-- A pitch (R364). -/
def pitchOk (p : Nat) : Bool := decide (p < 64)
/-- A PCIe function: 0 is the PF, 1 to 64 are VFs 0 to 63 (R407). -/
def fnOk (f : Nat) : Bool := decide (f < 65)
/-- A mailbox of a function: 256 of the PF, 4 of a VF (R412). -/
def mailOk (f m : Nat) : Bool := fnOk f && decide (m < (if f = 0 then 256 else 4))
/-- A ring of a function (R412). -/
def ringOk (f r : Nat) : Bool := fnOk f && decide (r < 16)
/-- A fabric link (R382). -/
def linkOk (l : Nat) : Bool := decide (l < 24)
/-- A capacity port (R254). -/
def portOk (p : Nat) : Bool := decide (p < 8)
/-- An Ethernet port (R400). -/
def ethOk (p : Nat) : Bool := decide (p < 2)
/-- A hash accumulator instance (R113). -/
def hashOk (i : Nat) : Bool := decide (i < 8)
/-- An HBM stack (R244). -/
def stackOk (k : Nat) : Bool := decide (k < 16)
/-- A retention unit: Larder bank 0 to 8191 or HBM channel 8192 + 32 × stack + channel (R259). -/
def unitOk (u : Nat) : Bool := decide (u < 8192 + 512)
/-- A sequence-table entry (R333). -/
def seqOk (i : Nat) : Bool := decide (i < 65536)

/-- The source of a firmware update message (R442). -/
def fwSourceOk : FwSource → Bool
  | .mailbox fn mb _ => mailOk fn mb
  | .session _ => true

/-- How a function is reset (R423). -/
def resetKindOk : ResetKind → Bool
  | .functionLevel fn => fnOk fn
  | _ => true

/-- A command that the module can receive. -/
def Instr.wellFormed (i : Instr) : Bool :=
  match i with
  | .hbmTrainingDone reports => decide (reports.length = 16)
  | .linksTrained links ports eth _ _ => decide (links.length = 24 ∧ ports.length = 8 ∧ eth.length = 2)
  | .linkIdentity link _ _ => linkOk link
  | .groupDigestRetry pitch _ _ => pitchOk pitch
  | .groupJoined pitch _ => pitchOk pitch
  | .modelPackageLoad pitch _ => pitchOk pitch
  | .programStart pitch camp _ _ _ params _ => pitchOk pitch && campOk camp && decide (params.length = 8)
  | .cNop camp _ => campOk camp
  | .cEnd camp _ => campOk camp
  | .cSetwin camp _ => campOk camp
  | .cWdog camp _ => campOk camp
  | .cLoop camp _ => campOk camp
  | .cFence camp _ => campOk camp
  | .cSlotrd camp _ _ => campOk camp
  | .cSlotwr camp _ _ => campOk camp
  | .cMemrd camp _ _ => campOk camp
  | .cMemwr camp _ _ => campOk camp
  | .cWstream camp _ _ => campOk camp
  | .cTilecfg camp _ => campOk camp
  | .cTile camp _ _ => campOk camp
  | .cVld camp _ _ => campOk camp
  | .cVst camp _ _ => campOk camp
  | .cTred camp _ _ => campOk camp
  | .cSignal camp _ => campOk camp
  | .cWait camp _ => campOk camp
  | .cTake camp _ => campOk camp
  | .cTopk camp _ _ => campOk camp
  | .cHopen camp _ _ => campOk camp
  | .cHadd camp _ _ => campOk camp
  | .cHclose camp _ => campOk camp
  | .hashCloseMerge inst _ => hashOk inst
  | .cReserved camp _ => campOk camp
  | .vNop camp _ => campOk camp
  | .vAdd camp _ _ => campOk camp
  | .vMul camp _ _ => campOk camp
  | .vFma camp _ _ => campOk camp
  | .vMin camp _ => campOk camp
  | .vMax camp _ => campOk camp
  | .vCmpeq camp _ => campOk camp
  | .vCmplt camp _ => campOk camp
  | .vCmple camp _ => campOk camp
  | .vSel camp _ => campOk camp
  | .vCvtfi camp _ => campOk camp
  | .vCvtif camp _ => campOk camp
  | .vCvtbf camp _ => campOk camp
  | .vExpx camp _ => campOk camp
  | .vExpi camp _ => campOk camp
  | .vScalb camp _ => campOk camp
  | .vSumg camp _ _ => campOk camp
  | .vMaxg camp _ => campOk camp
  | .vLdacc camp _ _ => campOk camp
  | .vLdacca camp _ _ => campOk camp
  | .vLdaccm camp _ _ => campOk camp
  | .vReqacc camp _ _ => campOk camp
  | .vReqreg camp _ => campOk camp
  | .vReqout camp _ _ => campOk camp
  | .vExp2 camp _ _ => campOk camp
  | .vRcp camp _ _ => campOk camp
  | .vRsq camp _ _ => campOk camp
  | .vRotcs camp _ _ => campOk camp
  | .vReserved camp _ => campOk camp
  | .lanePass camp core lane _ => campOk camp && coreOk core && decide (lane < Config.lanes)
  | .runAhead camp _ _ => campOk camp
  | .tileRunJoin camp core _ _ => campOk camp && coreOk core
  | .weightRefetched pitch _ _ => pitchOk pitch
  | .slotFilled pitch _ _ => pitchOk pitch
  | .slotDrained pitch _ => pitchOk pitch
  | .syncTimeout camp _ => campOk camp
  | .groupStepStart pitch _ _ _ _ => pitchOk pitch
  | .stepCloseReport pitch _ _ _ => pitchOk pitch
  | .lanternSelect pitch _ _ _ _ => pitchOk pitch
  | .chunkListsReady pitch _ => pitchOk pitch
  | .pagePromotionStart pitch _ => pitchOk pitch
  | .pagePromotionDone pitch _ _ _ => pitchOk pitch
  | .pageDemotionStart pitch => pitchOk pitch
  | .pageDemotionDone pitch _ _ => pitchOk pitch
  | .pageRefetched pitch _ _ => pitchOk pitch
  | .stepBoundary pitch _ _ _ => pitchOk pitch
  | .parkFormDone seq _ _ => seqOk seq
  | .parkCommit seq _ => seqOk seq
  | .pageImport pitch _ _ _ _ => pitchOk pitch
  | .imageReadTimeout pitch _ => pitchOk pitch
  | .submissionDoorbell fn ring _ => ringOk fn ring
  | .completionDoorbell fn ring _ => ringOk fn ring
  | .submissionFetch fn ring _ _ _ => ringOk fn ring
  | .mailboxPost fn mb _ => mailOk fn mb
  | .collisionClear fn mb _ => mailOk fn mb
  | .cairnLoRead fn => fnOk fn
  | .registerWrite fn _ _ _ => fnOk fn
  | .ringCreate fn mb _ => mailOk fn mb
  | .ringDestroy fn mb _ => mailOk fn mb
  | .attachBegin fn mb _ => mailOk fn mb
  | .attach fn mb _ => mailOk fn mb
  | .fwWrite src _ => fwSourceOk src
  | .fwVerify src _ _ => fwSourceOk src
  | .fwActivate src _ => fwSourceOk src
  | .fwDisarm src _ => fwSourceOk src
  | .fwConfirm src _ => fwSourceOk src
  | .lockWrite src _ _ => fwSourceOk src
  | .fwStatus src => fwSourceOk src
  | .functionReset kind _ _ => resetKindOk kind
  | .functionResetDone fn => fnOk fn
  | .ethLink port _ => ethOk port
  | .flitData link _ => linkOk link
  | .flitIdle link _ => linkOk link
  | .retryRequest link _ => linkOk link
  | .linkDown link _ => linkOk link
  | .linkUp link _ _ _ => linkOk link
  | .linkLost link _ => linkOk link
  | .slotTransfer pitch _ _ _ => pitchOk pitch
  | .timeRequestReceived link _ _ _ _ _ => linkOk link
  | .timeResponse link _ _ _ => linkOk link
  | .cxlLinkDown port _ => portOk port
  | .cxlRetrainDone port _ => portOk port
  | .cxlPortLost port _ => portOk port
  | .patrolScrub _ errors _ _ => decide (errors.length = 19)
  | .stackTemperatureReading stack _ _ => stackOk stack
  | .retentionClose unit _ => unitOk unit
  | .retentionEntered unit => unitOk unit
  | .lateWake unit => unitOk unit
  | .wakeDone unit => unitOk unit
  | .rangerLockstep pair _ => decide (pair < 4)
  | .junctionReading _ sensors => decide (sensors.length = 8)
  | .arraysTested failedCamps => failedCamps.all campOk
  | .icmpv6Message m => ethOk m.port
  | .vauxGood _ => true
  | .configCheck _ _ => true
  | .capacityClearDone => true
  | .groupJoin _ _ => true
  | .modReset _ _ => true
  | .qCreate _ _ => true
  | .qContinue _ _ => true
  | .qTruncate _ => true
  | .truncationCopyDone _ _ => true
  | .qFork _ => true
  | .qPark _ => true
  | .qResume _ _ => true
  | .resumeRecordsRead _ _ => true
  | .qStatus _ _ => true
  | .qFree _ => true
  | .supplyLatchClear _ => true
  | .fwArmedRestart _ => true
  | .firmwareBlock _ _ _ => true
  | .openSession _ => true
  | .submitPart _ => true
  | .ackMsg _ => true
  | .imageData _ => true
  | .invalidDatagram _ => true
  | .ackTimer _ _ => true
  | .datagramResend _ _ => true
  | .slotDataPacket _ _ => true
  | .transferResponse _ => true
  | .transferResend _ _ => true
  | .managementMessage _ => true
  | .timeRequest _ => true
  | .ppsEdge => true
  | .sectorErase _ _ _ => true
  | .mainFailure _ _ => true
  | .mainRestored _ _ => true
  | .powerLoss => true
  | .backupPark _ => true
  | .governorLower _ _ _ => true
  | .governorRaise _ _ => true
  | .coolantHigh _ _ => true
  | .coolantCapLifted _ _ => true
  | .vauxLoss => true
  | .vinBackupOutOfRange _ _ => true
  | .vddCoreGood => true
  | .freedRangeScrubbed _ => true
  | .spdmRequest _ => true

end Sys2Proof
end

