-- ==== Sys2Proof/Machine/Sequencer.lean ====
section
/-! DEFINITION. The camp sequencer: taking a command word in program order (R146 to R148), loops (R151), waits (R164, R165), windows
(R153, R154) and slots (R157 to R159). Each command's meaning is a function to `CmdRes`, which `settle` applies. -/

namespace Sys2Proof.Machine

/-! ### Fields (R147, R148) -/

/-- Bits [hi:lo] of a command word. -/
def fld (w : CmdWord) (hi lo : Nat) : Nat := bitsOf w.toNat hi lo
/-- Bit n of a command word. -/
def flag (w : CmdWord) (n : Nat) : Bool := bitOf w.toNat n
/-- The opcode (R147). -/
def cmdOpcode (w : CmdWord) : Nat := fld w 7 0
/-- The task window (R147). -/
def cmdTask (w : CmdWord) : Nat := fld w 10 8
/-- The ra bit (R147). -/
def cmdRa (w : CmdWord) : Bool := flag w 11
/-- The cores of the mask, in ascending order: their place in the list is their rank (R148). -/
def cmdCores (w : CmdWord) : List Nat := (List.range 16).filter fun c => flag w (16 + c)
/-- The lowest core of the mask, which a fault that concerns the whole mask names (R169; DESIGN CHOICE: notes/assumptions/15.md). -/
def lowCore (w : CmdWord) : Nat := (cmdCores w).headD noCore
/-- A field in which 0 encodes 2^24 (R149). -/
def orMax (v : Nat) : Nat := if v = 0 then 2 ^ 24 else v

/-- The bits that a list of fields covers. -/
def maskOfFields (fs : List (Nat × Nat)) : Nat := fs.foldl (fun m f => m ||| (2 ^ (f.1 + 1) - 2 ^ f.2)) 0

/-- Every bit outside the header's fields and the listed fields is zero (R147, R149). -/
def reservedClear (w : CmdWord) (fs : List (Nat × Nat)) : Bool :=
  decide (w.toNat &&& (2 ^ 128 - 1 - maskOfFields ((11, 0) :: (31, 16) :: fs)) = 0)

/-! ### Results -/

/-- What a command of the sequencer comes to: it completes, it waits, it raises a fault, or the step has been abandoned. -/
inductive CmdRes where
  | done (s : State)
  | wait (r : WaitReason)
  | fault (f : CampFault)
  | settled (s : State)

/-- Where a command runs: its camp, pitch, pitch-relative number, program and word, and what the enclosing loops add to scratchpad
offsets and slot numbers (R151). -/
structure Ctx where
  camp : Nat
  pr : PitchRecord
  rel : Nat
  prog : Program
  w : CmdWord
  sp : Nat
  slot : Nat
  deriving DecidableEq, Repr

/-- Sum of i × stride over the enclosing loops (R151). -/
def strideSum (f : LoopFrame → Nat) (ls : List LoopFrame) : Nat := (ls.map fun l => l.i * f l).sum

/-! ### Program order (R146, R151) -/

/-- Where the program goes when it stands at `pc`: an innermost body that ends there runs again or is left (R151). -/
def closeLoops : List LoopFrame → Nat → List LoopFrame × Nat
  | [], pc => ([], pc)
  | l :: t, pc =>
    if pc = l.stop then
      if l.i + 1 < l.count then ({ l with i := l.i + 1 } :: t, l.start) else closeLoops t pc
    else (l :: t, pc)

/-- Move a camp's program to command `pc` under the loops `ls`; a program that runs past its last command faults (R146). -/
def moveTo (s : State) (camp : Nat) (ls : List LoopFrame) (pc : Nat) : State :=
  let c := campOf s camp
  match c.prog with
  | none => s
  | some p =>
    let (ls', pc') := closeLoops ls pc
    let s1 := putCamp s camp { c with prog := some { p with loops := ls', pc := pc' }, blocked := none }
    if p.commands ≤ pc' then raiseFault s1 camp (badField noCore) 0 0 else s1

/-- The command has completed: the program goes on at the next one. -/
def advance (s : State) (camp : Nat) : State :=
  match (campOf s camp).prog with
  | none => s
  | some p => moveTo s camp p.loops (p.pc + 1)

/-- Record a wait; the moment at which it blocked stays while the same command waits for the same thing (R165). -/
def block (s : State) (camp : Nat) (w : CmdWord) (r : WaitReason) : State :=
  let c := campOf s camp
  match c.blocked with
  | some b =>
    putCamp s camp { c with blocked := some (if b.reason = r ∧ b.w = w then { b with ready := false } else ⟨r, w, s.cairn.count, false⟩) }
  | none => putCamp s camp { c with blocked := some ⟨r, w, s.cairn.count, false⟩ }

/-- Apply what a command came to. -/
def settle (s : State) (camp : Nat) (w : CmdWord) : CmdRes → State
  | .done s1 => advance s1 camp
  | .wait r => block s camp w r
  | .fault f => raiseFault s camp f (cmdOpcode w) 0
  | .settled s1 => s1

/-- The sequencer takes a command word only where its program stands at it (R146); otherwise nothing happens
(DESIGN CHOICE: notes/assumptions/16.md). `mine` says that the word is one of the row's. -/
def takeCommand (s : State) (camp : Nat) (w : CmdWord) (mine : Bool) (f : Ctx → State → CmdRes) : State :=
  let c := campOf s camp
  match homeOf s camp, c.prog with
  | some (r, rel), some p =>
    if mine ∧ ¬c.fenced ∧ p.pc < p.commands ∧ mget c.cmdMem (p.base + p.pc) = some w then
      settle s camp w (f ⟨camp, r, rel, p, w, strideSum (·.spStride) p.loops, strideSum (·.slotStride) p.loops⟩ s)
    else s
  | _, _ => s

/-- A row that is a camp command. -/
def runCommand (s : State) (camp : Nat) (w : CmdWord) (mine : Bool) (f : Ctx → State → CmdRes) : Answer State :=
  if campOk camp then .next (takeCommand s camp w mine f) else .refused .noSuchUnit

/-- A command that acts on cores: a field rule, a set reserved bit or an empty mask is BAD_FIELD (R148, R150). -/
def coreCommand (w : CmdWord) (fields : List (Nat × Nat)) (rule : Bool) (k : List Nat → CmdRes) : CmdRes :=
  if ¬reservedClear w fields ∨ ¬rule ∨ cmdCores w = [] then .fault (badField (lowCore w)) else k (cmdCores w)

/-- A camp-level command: a field rule or a set reserved bit is BAD_FIELD (R150). -/
def campCommand (w : CmdWord) (fields : List (Nat × Nat)) (rule : Bool) (k : CmdRes) : CmdRes :=
  if ¬reservedClear w fields ∨ ¬rule then .fault (badField noCore) else k

/-- The first fault among checks of each core in rank order. -/
def firstFault (cores : List Nat) (check : Nat → Nat → Option CampFault) : Option CampFault :=
  (cores.zipIdx.findSome? fun cq => check cq.2 cq.1)

/-- Go on unless a core's check faults. -/
def unlessFault (f : Option CampFault) (k : CmdRes) : CmdRes :=
  match f with
  | some x => .fault x
  | none => k

/-! ### Windows (R153, R154) -/

/-- A window register. -/
def winOf (k : Core) (n : Nat) : BitVec 64 := mgetD k.win n 0
/-- First byte of a window in 8-byte units (R153). -/
def winBase (v : BitVec 64) : Nat := bitsOf v.toNat 15 0
/-- Length of a window in 8-byte units (R153). -/
def winLength (v : BitVec 64) : Nat := bitsOf v.toNat 31 16
/-- The resident bit (R153). -/
def winResident (v : BitVec 64) : Bool := v.getLsbD 32
/-- The writable bit (R153). -/
def winWritable (v : BitVec 64) : Bool := v.getLsbD 34

/-- The fault of a scratchpad reference of offset o and length l in 8-byte units, if any (R154): WINDOW, then WINDOW_WRITE. -/
def windowFault (k : Core) (core task o l : Nat) (write : Bool) : Option CampFault :=
  let v := winOf k task
  if winLength v < o + l ∨ Config.scratchpadBytes / 8 < winBase v + winLength v then some (containFault 0x0101 core task)
  else if write ∧ ¬winWritable v then some (containFault 0x0102 core task)
  else none

/-- Scratchpad byte address of offset o in a window (R148). -/
def windowByte (k : Core) (task o : Nat) : Nat := 8 * (winBase (winOf k task) + o)

/-- Check one reference on each core of a mask. -/
def windowFaults (c : Camp) (cores : List Nat) (task o l : Nat) (write : Bool) : Option CampFault :=
  firstFault cores fun _ core => windowFault (coreOf c core) core task o l write

/-- Change each core of a list, with its rank. -/
def eachCore (f : Nat → Nat → Core → Core) : List (Nat × Nat) → Camp → Camp
  | [], c => c
  | (core, q) :: t, c => eachCore f t (putCore c core (f q core (coreOf c core)))

/-- Change each core of the mask, with its rank. -/
def onCores (s : State) (camp : Nat) (cores : List Nat) (f : Nat → Nat → Core → Core) : State :=
  putCamp s camp (eachCore f cores.zipIdx (campOf s camp))

/-- Write bytes into a scratchpad through a window. -/
def spWrite (k : Core) (task o : Nat) (bs : List Byte) : Core := { k with sp := wrBytes k.sp (windowByte k task o) bs }
/-- Read bytes of a scratchpad through a window. -/
def spRead (k : Core) (task o n : Nat) : List Byte := rdBytes k.sp (windowByte k task o) n

/-! ### Slots (R157 to R159) -/

/-- A slot of the pitch, if its number lies within the pitch's slots (R157). -/
def slotOf (s : State) (r : PitchRecord) (n : Nat) : Option Slot :=
  if n < r.slots then mget (pitchOf s r.pitch).slots n else none

/-- SLOT_RANGE (R157, R168). -/
def slotRange (core n : Nat) : CampFault := containFault 0x0103 core n

/-- A read by a camp proceeds: the slot is FULL and the camp has not released this fill (R158, R159). -/
def canRead (x : Slot) (rel : Nat) : Bool := decide (x.state = .full) && decide (rel ∉ x.released)

/-- A write proceeds: the slot is EMPTY, or FILLING without a closing write on its way (R158). -/
def canWrite (x : Slot) : Bool := decide (x.state = .empty) || (decide (x.state = .filling) && !x.closing)

/-- One releasing read for a camp: after `readers` of them the slot drains (R158, R159). -/
def releaseSlot (x : Slot) (rel : Nat) : Slot :=
  let rs := x.released ++ [rel]
  { x with released := rs, state := if x.readers ≤ rs.length then .draining else x.state }

/-- A write leaves the slot FILLING; a closing write makes it FULL once its transfers have landed (R158, SLOT_FILLED). -/
def fillSlot (x : Slot) (close : Bool) : Slot :=
  { x with state := .filling, closing := close, released := if x.state = .empty then [] else x.released }

/-- Put a slot. -/
def putSlot (s : State) (p n : Nat) (x : Slot) : State := onPitch s p fun y => { y with slots := mset y.slots n x }

/-- Resolve a slot of the pitch or raise SLOT_RANGE. -/
def withSlot (s : State) (c : Ctx) (n core : Nat) (k : Slot → CmdRes) : CmdRes :=
  match slotOf s c.pr n with
  | none => .fault (slotRange core n)
  | some x => k x

/-- A transfer of `l` bytes at slot byte `o` + rank × `step` lies within the slot on every core (R157). -/
def slotFaults (cores : List Nat) (x : Slot) (n o step l : Nat) : Option CampFault :=
  firstFault cores fun q core => if x.size < o + q * step + l then some (slotRange core n) else none

/-- A Larder slice admits no camp access: its die is held at point 0 by its junction (R476). -/
def sliceLimited (s : State) (d : Nat) : Bool := (s.pw.dies[d]?).any (·.limited)

/-- The slice of a slot admits no camp access. -/
def slicePaused (s : State) (r : PitchRecord) (x : Slot) : Bool := sliceLimited s (sliceOf (logicalCamp s r x.home))

/-- A read of a slot waits until it may proceed (R158, R476). -/
def reading (c : Ctx) (s : State) (x : Slot) (n : Nat) (k : CmdRes) : CmdRes :=
  if canRead x c.rel ∧ slicePaused s c.pr x = false then k else .wait (.slotRead n)

/-- A write of a slot: a camp that is not the producer faults (R159), and a write waits until it may proceed (R158, R476). -/
def writing (c : Ctx) (s : State) (x : Slot) (n core : Nat) (k : CmdRes) : CmdRes :=
  if x.producer ≠ c.rel then .fault (progFault 0x0304 core n)
  else if canWrite x ∧ slicePaused s c.pr x = false then k else .wait (.slotWrite n)

/-- Apply the findings of the array checks to a command that completes (R242, R243): an abandoned step replaces its effect. -/
def withFindings (c : Ctx) (found : List Finding) (s : State) (k : State → CmdRes) : CmdRes :=
  if found.any (findingWaits s false) then .wait .memory
  else match applyFindings c.camp c.pr.pitch false found s with
  | (s1, true) => .settled s1
  | (s1, false) => k s1

/-- Apply the findings of a tile's reads; weights have their own response at its join (R106). -/
def withTileFindings (c : Ctx) (found : List Finding) (s : State) (k : State → CmdRes) : CmdRes :=
  if found.any (findingWaits s true) then .wait .memory
  else match applyFindings c.camp c.pr.pitch true found s with
  | (s1, true) => .settled s1
  | (s1, false) => k s1

/-- A command accesses ranges of device memory: every byte passes through the slice of the camp's die (R19), which may be paused (R476; DEDUCED:
notes/assumptions/43.md), and it waits while a port, a stack, a bank or a channel does not admit them (R248, R258, R260, R261). -/
def access (c : Ctx) (s : State) (rs : List (Nat × Nat)) (k : State → CmdRes) : CmdRes :=
  let us := unitsAsked s rs
  if rs ≠ [] ∧ sliceLimited s (sliceOf c.camp) then .wait (.slice (sliceOf c.camp))
  else if rs.any (rangeStalls s) then .wait .memory
  else if us.any fun u => decide ((unitAt s u).state = .retained ∨ (unitAt s u).state = .waking) then
    let waits := (campOf s c.camp).blocked.any fun b => decide (b.reason = .wake ∧ b.w = c.w)
    .settled (block (if waits then s else wakeUnits us s) c.camp c.w .wake)
  else k (touchUnits us s)

/-- A read of package memory on its way to the weight-stream buffer: the blocks of a coded region are checked, and a fault that the golden copy does
not mend ends the command (R275, R283). -/
def withStream (c : Ctx) (poison : Bool) : List (Nat × Nat) → State → (State → CmdRes) → CmdRes
  | [], s, k => k s
  | (a, n) :: t, s, k =>
    match codedAt s c.pr.pitch a with
    | none => withStream c poison t s k
    | some g =>
      match readCoded s (srcCamp c.camp) c.pr g (a - g.address) n poison with
      | (s1, none) => .settled s1
      | (s1, some _) => withStream c poison t s1 k

/-! ### Sync objects (R161 to R164) -/

/-- A sync object of the pitch. -/
def syncOf (s : State) (p n : Nat) : Sync := mgetD (pitchOf s p).syncs n Sync.fresh
/-- Put a sync object. -/
def putSync (s : State) (p n : Nat) (y : Sync) : State := onPitch s p fun x => { x with syncs := mset x.syncs n y }
/-- SYNC_RANGE: a sync object beyond the pitch's objects (R168). -/
def syncRange (n : Nat) : CampFault := containFault 0x0104 noCore n

/-- The value field of a SYNC word (R149). -/
def syncValue (w : CmdWord) : Nat := fld w 95 64

/-- Complete one camp's WAIT or TAKE if the object's count now satisfies it (R162, R163). -/
def releaseWaiter (s : State) (p n camp : Nat) : State :=
  match (campOf s camp).blocked with
  | none => s
  | some b =>
    if b.reason = .sync n ∧ campIn s p camp then
      let y := syncOf s p n
      if syncValue b.w ≤ y.count then
        if fld b.w 51 48 = 2 then
          advance (putSync s p n ⟨y.count - syncValue b.w, some (srcCamp camp)⟩) camp
        else advance s camp
      else s
    else s

/-- Complete the waits on an object that are now satisfied, in ascending camp order (R164). -/
def releaseWaiters (p n : Nat) : List Nat → State → State
  | [], s => s
  | camp :: t, s => releaseWaiters p n t (releaseWaiter s p n camp)

/-- Add to a sync object, or none where the count would pass 2^32 − 1 (R162, R163). -/
def signalSync (s : State) (p n v : Nat) : Option State :=
  let y := syncOf s p n
  if 2 ^ 32 - 1 < y.count + v then none
  else
    let s1 := putSync s p n { y with count := y.count + v }
    some (releaseWaiters p n (s1.camps.map (·.1)) s1)

/-- End the waits of a pitch's camps that wait for one of the given reasons: their commands are taken again, and one that still has to wait
goes on with the time at which it blocked (R164, R165; DEDUCED: notes/assumptions/17.md). -/
def releaseBlocked (s : State) (p : Nat) (f : WaitReason → Bool) : State :=
  { s with camps := mmap s.camps fun n c =>
      match c.blocked with
      | some b => if f b.reason ∧ campIn s p n then { c with blocked := some { b with ready := true } } else c
      | none => c }

end Sys2Proof.Machine
end

