-- ==== Sys2Proof/Machine/Camp.lean ====
section
/-! DEFINITION. Camp commands other than tiles, vector operations, top-k and hash accumulators (R146 to R176): NOP, END, SETWIN, WDOG,
LOOP, FENCE, SLOTRD, SLOTWR, MEMRD, MEMWR, WSTREAM, TILECFG, VLD, VST, SYNC, reserved opcodes, and run-ahead. -/

namespace Sys2Proof.Machine

/-! ### NOP, END, SETWIN, WDOG, LOOP, FENCE -/

/-- NOP (R149, opcode 0x00). -/
def doNop (c : Ctx) (s : State) : CmdRes := campCommand c.w [] true (.done s)

/-- NOP. -/
def execCNop (camp : Nat) (w : CmdWord) (s : State) : Answer State :=
  runCommand s camp w (decide (cmdOpcode w = 0x00)) doNop

/-- Whether a core still has a tile that its join has not accepted. -/
def coreBusy (k : Core) : Bool := k.tiles.any fun t => decide (t.state ≠ .accepted)

/-- Whether an earlier command of the camp has not completed: a tile run (R146). -/
def campBusy (c : Camp) : Bool := c.cores.any fun kv => coreBusy kv.2

/-- A closing write of the camp has transfers that have not landed (R158): SLOT_FILLED is still to come. -/
def landing (s : State) (r : PitchRecord) (rel : Nat) : Bool :=
  (pitchOf s r.pitch).slots.any fun x => decide (x.2.state = .filling) && x.2.closing && decide (x.2.producer = rel)

/-- A FENCE or END still waits for an earlier command of the camp: a tile run, or a closing write (R149). -/
def fenceWaits (c : Ctx) (s : State) : Bool := campBusy (campOf s c.camp) || landing s c.pr c.rel

/-- The program has ended: its run-ahead data is dropped (R146, R171). -/
def endProgram (s : State) (camp : Nat) : State :=
  putCamp s camp { campOf s camp with prog := none, blocked := none, ahead := [] }

/-- END (R149, opcode 0x01): [47:32] sync object, [48] signal; waits for every command of the program, untimed (R165). -/
def doEnd (c : Ctx) (s : State) : CmdRes :=
  let n := fld c.w 47 32
  campCommand c.w [(48, 32)] true <|
    if flag c.w 48 ∧ c.pr.syncCount ≤ n then .fault (syncRange n)
    else if fenceWaits c s then .wait .fence
    else if flag c.w 48 then
      match signalSync (endProgram s c.camp) c.pr.pitch n 1 with
      | none => .fault (progFault 0x0306 noCore n)
      | some s1 => .settled s1
    else .settled (endProgram s c.camp)

/-- END. -/
def execCEnd (camp : Nat) (w : CmdWord) (s : State) : Answer State :=
  runCommand s camp w (decide (cmdOpcode w = 0x01)) doEnd

/-- The window register that SETWIN loads (R149, R153). -/
def setwinValue (w : CmdWord) : BitVec 64 :=
  BitVec.ofNat 64 (fld w 79 64 + fld w 95 80 * 2 ^ 16 + fld w 96 96 * 2 ^ 32 + fld w 97 97 * 2 ^ 33 + fld w 98 98 * 2 ^ 34)

/-- SETWIN (R149, opcode 0x02): [34:32] window, [79:64] base, [95:80] length, [96] resident, [97] hash, [98] writable. -/
def doSetwin (c : Ctx) (s : State) : CmdRes :=
  coreCommand c.w [(34, 32), (98, 64)] true fun cores =>
    .done (onCores s c.camp cores fun _ _ k => { k with win := mset k.win (fld c.w 34 32) (setwinValue c.w) })

/-- SETWIN. -/
def execCSetwin (camp : Nat) (w : CmdWord) (s : State) : Answer State :=
  runCommand s camp w (decide (cmdOpcode w = 0x02)) doSetwin

/-- Change the program of a camp. -/
def onProg (s : State) (camp : Nat) (f : Program → Program) : State :=
  let c := campOf s camp
  putCamp s camp { c with prog := c.prog.map f }

/-- WDOG (R149, opcode 0x03): [63:32] limit in µs, 1 to 1,000,000; 0 means 1,000. -/
def doWdog (c : Ctx) (s : State) : CmdRes :=
  let v := fld c.w 63 32
  campCommand c.w [(63, 32)] (decide (v ≤ 1000000)) <|
    .done (onProg s c.camp fun p => { p with limitUs := if v = 0 then 1000 else v })

/-- WDOG. -/
def execCWdog (camp : Nat) (w : CmdWord) (s : State) : Answer State :=
  runCommand s camp w (decide (cmdOpcode w = 0x03)) doWdog

/-- The count of a LOOP: a parameter register, or [87:64] (R151). -/
def loopCount (p : Program) (w : CmdWord) : Nat :=
  if flag w 52 then (p.params.getD (fld w 51 48) 0#32).toNat else fld w 87 64

/-- The rules of a LOOP (R149 to R151): body 1 to 4,095, a count of 1 or more unless a parameter gives it, parameter index 0 to 7, at most
four levels, and a body within the program and the enclosing body. Another parameter index is BAD_FIELD (DESIGN CHOICE:
notes/assumptions/15.md). -/
def loopRule (p : Program) (w : CmdWord) : Bool :=
  let stop := p.pc + 1 + fld w 47 32
  decide (1 ≤ fld w 47 32 ∧ fld w 47 32 ≤ 4095) && (if flag w 52 then decide (fld w 51 48 < 8) else decide (1 ≤ fld w 87 64))
    && decide (p.loops.length < 4) && decide (stop ≤ p.commands)
    && (match p.loops with
      | [] => true
      | l :: _ => decide (stop ≤ l.stop))

/-- LOOP (R149, R151, opcode 0x04). -/
def doLoop (c : Ctx) (s : State) : CmdRes :=
  let p := c.prog
  let stop := p.pc + 1 + fld c.w 47 32
  campCommand c.w [(52, 32), (87, 64), (127, 96)] (loopRule p c.w) <|
    if loopCount p c.w = 0 then .settled (moveTo s c.camp p.loops stop)
    else
      .settled (moveTo s c.camp (⟨p.pc + 1, stop, loopCount p c.w, 0, fld c.w 111 96, fld c.w 127 112⟩ :: p.loops) (p.pc + 1))

/-- LOOP. -/
def execCLoop (camp : Nat) (w : CmdWord) (s : State) : Answer State :=
  runCommand s camp w (decide (cmdOpcode w = 0x04)) doLoop

/-- FENCE (R149, opcode 0x05): waits until every earlier command has completed, untimed (R165). -/
def doFence (c : Ctx) (s : State) : CmdRes :=
  campCommand c.w [] true (if fenceWaits c s then .wait .fence else .done s)

/-- FENCE. -/
def execCFence (camp : Nat) (w : CmdWord) (s : State) : Answer State :=
  runCommand s camp w (decide (cmdOpcode w = 0x05)) doFence

/-! ### Routing (R172) -/

/-- Steps along one axis from a to b, of `size` places, when the rectangle spans all of them or not: the coordinates that the route
visits (R172). -/
def axisRoute (span size a b : Nat) : List Nat :=
  if span = size then
    let fwd := (b + size - a) % size
    if fwd ≤ size - fwd then (List.range fwd).map fun i => (a + i + 1) % size
    else (List.range (size - fwd)).map fun i => (a + size - (i + 1)) % size
  else if a ≤ b then (List.range (b - a)).map fun i => a + i + 1
  else (List.range (a - b)).map fun i => a - (i + 1)

/-- Whether every hop of the route from pitch-relative camp a to b stays inside the rectangle: first along u, then along v (R172). -/
def routeStays (r : PitchRecord) (a b : Nat) : Bool :=
  (axisRoute r.width 200 (a % r.width) (b % r.width)).all (fun u => decide (u < r.width))
    && (axisRoute r.height 100 (a / r.width) (b / r.width)).all fun v => decide (v < r.height)

/-- ROUTE_ESCAPE (R168, R172). -/
def routed (c : Ctx) (x : Slot) (n : Nat) (k : CmdRes) : CmdRes :=
  if routeStays c.pr c.rel x.home then k else .fault (containFault 0x0106 (lowCore c.w) n)

/-! ### SLOTRD and SLOTWR -/

/-- Fields of SLOTRD and SLOTWR (R149). -/
def slotFields : List (Nat × Nat) := [(52, 32), (119, 64)]

/-- SLOTRD (R149, R158, R159, opcode 0x06): each core reads `length` units at slot offset + rank × length. -/
def doSlotrd (found : List Finding) (c : Ctx) (s : State) : CmdRes :=
  let n := fld c.w 51 32 + c.slot
  let o := fld c.w 79 64 + c.sp
  let l := fld c.w 95 80
  let so := 8 * fld c.w 119 96
  coreCommand c.w slotFields (decide (1 ≤ l)) fun cores =>
    unlessFault (windowFaults (campOf s c.camp) cores (cmdTask c.w) o l true) <|
    withSlot s c n (lowCore c.w) fun x =>
    unlessFault (slotFaults cores x n so (8 * l) (8 * l)) <|
    routed c x n <| reading c s x n <|
    access c s [(slotDa s c.pr x + so, 8 * l * cores.length)] fun s0 =>
    withFindings c found s0 fun s1 =>
      let da := slotDa s1 c.pr x
      let s2 := onCores s1 c.camp cores fun q _ k => spWrite k (cmdTask c.w) o (peekBytes s1 (da + so + 8 * q * l) (8 * l))
      .done (if flag c.w 52 then putSlot s2 c.pr.pitch n (releaseSlot x c.rel) else s2)

/-- SLOTRD. -/
def execCSlotrd (camp : Nat) (w : CmdWord) (found : List Finding) (s : State) : Answer State :=
  runCommand s camp w (decide (cmdOpcode w = 0x06)) (doSlotrd found)

/-- Store each core's bytes into a slot: the core of rank q at slot byte o + q × step. -/
def storeRanks (da o step : Nat) (get : Nat → List Byte) : List (Nat × Nat) → State → State
  | [], s => s
  | (core, q) :: t, s => storeRanks da o step get t (pokeBytes s (da + o + q * step) (get core))

/-- SLOTWR (R149, R158, R159, opcode 0x07). -/
def doSlotwr (found : List Finding) (c : Ctx) (s : State) : CmdRes :=
  let n := fld c.w 51 32 + c.slot
  let o := fld c.w 79 64 + c.sp
  let l := fld c.w 95 80
  let so := 8 * fld c.w 119 96
  coreCommand c.w slotFields (decide (1 ≤ l)) fun cores =>
    let cm := campOf s c.camp
    unlessFault (windowFaults cm cores (cmdTask c.w) o l false) <|
    withSlot s c n (lowCore c.w) fun x =>
    unlessFault (slotFaults cores x n so (8 * l) (8 * l)) <|
    routed c x n <| writing c s x n (lowCore c.w) <|
    access c s [(slotDa s c.pr x + so, 8 * l * cores.length)] fun s0 =>
    withFindings c found s0 fun s1 =>
      let s2 := storeRanks (slotDa s1 c.pr x) so (8 * l) (fun core => spRead (coreOf cm core) (cmdTask c.w) o (8 * l)) cores.zipIdx s1
      .done (putSlot s2 c.pr.pitch n (fillSlot x (flag c.w 52)))

/-- SLOTWR. -/
def execCSlotwr (camp : Nat) (w : CmdWord) (found : List Finding) (s : State) : Answer State :=
  runCommand s camp w (decide (cmdOpcode w = 0x07)) (doSlotwr found)

/-! ### MEMRD and MEMWR (R149, R368, R369) -/

/-- Fields of MEMRD and MEMWR. -/
def memFields : List (Nat × Nat) := [(111, 32)]

/-- The fault of a pitch-address reference, with the object field of R369: address bits [46:15]. A 48-bit address above 47 bits lies in no
segment. -/
def addressFault (s : State) (r : PitchRecord) (core a len : Nat) (write : Bool) : Option CampFault :=
  let obj := bitsOf a 46 15
  if 2 ^ 47 ≤ a then some (containFault codeAddress core obj)
  else
    match translate s r a len write with
    | .ok _ => none
    | .error e => some (containFault e core obj)

/-- The entry of the camp's run-ahead buffer for the command at hand, if its data may be used (R170, R171). -/
def aheadFor (c : Ctx) (s : State) (da n : Nat) : Option (List Byte) :=
  ((campOf s c.camp).ahead.find? fun e =>
    decide (e.index = c.prog.base + c.prog.pc) && decide (e.da = da) && decide (e.bytes.length = n) && !e.stale).map (·.bytes)

/-- The corrections that run-ahead reads of the command at hand have met (R171). -/
def aheadNotes (c : Ctx) (s : State) : List Finding :=
  (((campOf s c.camp).ahead.filter fun e => decide (e.index = c.prog.base + c.prog.pc) && !e.stale).map (·.noted)).flatten

/-- Drop the run-ahead entry of the command at hand. -/
def dropAhead (c : Ctx) (s : State) : State :=
  let k := campOf s c.camp
  putCamp s c.camp { k with ahead := k.ahead.filter fun e => decide (e.index ≠ c.prog.base + c.prog.pc) }

/-- Put a byte string into the scratchpads of the cores of a mask, `n` bytes to each in rank order. -/
def scatterRanks (c : Ctx) (cores : List Nat) (o n : Nat) (bs : List Byte) (s : State) : State :=
  onCores s c.camp cores fun q _ k => spWrite k (cmdTask c.w) o ((bs.drop (q * n)).take n)

/-- The references of a transfer lie within bound, and one that begins in a coded region ends in it (R369; DESIGN CHOICE:
notes/assumptions/18.md). -/
def memFault (s : State) (r : PitchRecord) (cores : List Nat) (a l : Nat) (write : Bool) : Option CampFault :=
  firstFault cores fun q core =>
    let b := a + 8 * q * l
    match addressFault s r core b (8 * l) write with
    | some f => some f
    | none => (codedAt s r.pitch a).bind fun g =>
      if g.address + 4096 * g.blocks < b + 8 * l then some (containFault codeAddress core (bitsOf b 46 15)) else none

/-- MEMRD (R149, opcode 0x08): reads pitch memory at address + 8 × rank × length; a coded region is decoded (R275). Run-ahead data of the context
store's tables that have changed since is read again (R171). -/
def doMemrd (found : List Finding) (c : Ctx) (s : State) : CmdRes :=
  let a := fld c.w 79 32
  let o := fld c.w 95 80 + c.sp
  let l := fld c.w 111 96
  coreCommand c.w memFields (decide (1 ≤ l) && decide (a % 8 = 0)) fun cores =>
    let n := 8 * l * cores.length
    unlessFault (windowFaults (campOf s c.camp) cores (cmdTask c.w) o l true) <|
    unlessFault (memFault s c.pr cores a l false) <|
    match codedAt s c.pr.pitch a with
    | some g =>
      access c s (codedReads s c.pr g (a - g.address) n) fun s0 => withFindings c (codedFindings found) s0 fun s1 =>
      (match readCoded s1 (srcCamp c.camp) c.pr g (a - g.address) n (goldenPoison found) with
      | (s2, none) => .settled s2
      | (s2, some bs) => .done (scatterRanks c cores o (8 * l) bs (dropAhead c s2)))
    | none =>
      let da := daOf s c.pr a
      match (aheadFor c s da n).filter fun bs => decide (bs = readPitch s c.pr.pitch a da n) with
      | some bs => withFindings c (aheadNotes c s ++ found) s fun s1 => .done (scatterRanks c cores o (8 * l) bs (dropAhead c s1))
      | none =>
        access c s [(da, n)] fun s0 => withFindings c found s0 fun s1 =>
        .done (scatterRanks c cores o (8 * l) (readPitch s1 c.pr.pitch a da n) (dropAhead c s1))

/-- MEMRD. -/
def execCMemrd (camp : Nat) (w : CmdWord) (found : List Finding) (s : State) : Answer State :=
  runCommand s camp w (decide (cmdOpcode w = 0x08)) (doMemrd found)

/-- The bytes that the cores of a mask give, in rank order. -/
def gatherRanks (c : Ctx) (cores : List Nat) (o n : Nat) (s : State) : List Byte :=
  (cores.map fun core => spRead (coreOf (campOf s c.camp) core) (cmdTask c.w) o n).flatten

/-- MEMWR (R149, opcode 0x09): writes each core's bytes to pitch memory; a writable coded region is encoded (R275 to R277). -/
def doMemwr (found : List Finding) (c : Ctx) (s : State) : CmdRes :=
  let a := fld c.w 79 32
  let o := fld c.w 95 80 + c.sp
  let l := fld c.w 111 96
  coreCommand c.w memFields (decide (1 ≤ l) && decide (a % 8 = 0)) fun cores =>
    unlessFault (windowFaults (campOf s c.camp) cores (cmdTask c.w) o l false) <|
    unlessFault (memFault s c.pr cores a l true) <|
    let bs := gatherRanks c cores o (8 * l) s
    match (codedAt s c.pr.pitch a).filter (·.writable) with
    | some g =>
      access c s (codedWrites s c.pr g (a - g.address) bs.length) fun s0 => withFindings c found s0 fun s1 =>
      (match writeCoded s1 (srcCamp c.camp) c.pr g (a - g.address) bs with
      | (s2, false) => .settled s2
      | (s2, true) => .done s2)
    | none =>
      access c s [(daOf s c.pr a, bs.length)] fun s0 => withFindings c found s0 fun s1 => .done (pokeBytes s1 (daOf s1 c.pr a) bs)

/-- MEMWR. -/
def execCMemwr (camp : Nat) (w : CmdWord) (found : List Finding) (s : State) : Answer State :=
  runCommand s camp w (decide (cmdOpcode w = 0x09)) (doMemwr found)

/-! ### WSTREAM and TILECFG (R149, R150, R182 to R184) -/

/-- The tensor that a header at a pitch address describes; the row-start table and block CRCs are those of the loaded package (R33, R454). -/
def tensorAt (s : State) (p a : Nat) (h : WeightHeader) : LoadedTensor :=
  let known : Option LoadedTensor := (pitchOf s p).package.bind fun k => k.tensors.find? fun t => decide (t.address = a)
  { address := a, format := h.format, n := h.n, m := h.m, expOffset := h.expOffset, k := h.k, rows := h.rows, scale := h.scale
    payloadBytes := h.payloadBytes
    golden := (known.map (·.golden)).getD 0
    rowStarts := (known.map (·.rowStarts)).getD []
    crcs := (known.map (·.crcs)).getD []
    faulty := (known.map (·.faulty)).getD [] }

/-- Chunk-list entries in memory: (data, first position, tokens, tag), or none where one breaks R183 and R184. -/
def parseChunks (prev : Option Nat) : Nat → List Byte → Option (List (Nat × Nat × Nat × Nat))
  | 0, _ => some []
  | n + 1, bs =>
    let first := leAt bs 8 4
    let tagByte := leAt bs 13 1
    let ordered : Bool := match prev with
      | none => true
      | some p => decide (p < first)
    if first % 256 ≠ 0 ∨ tagByte / 16 ≠ 0 ∨ ¬zerosAt bs 14 2 ∨ ¬ordered then none
    else (parseChunks (some first) n (bs.drop 16)).map fun t => (leAt bs 0 8, first, leAt bs 12 1 + 1, tagByte % 16) :: t

/-- The fields of a multiplier descriptor lie in range (R182, R184). -/
def multOk (bs : List Byte) : Bool :=
  let product := leAt bs 0 1
  let flags := leAt bs 2 1
  let dim := leAt bs 4 2
  decide (product = 1 ∨ product = 2) && decide (leAt bs 1 1 ≤ 63) && decide (flags ≤ 1) && !(decide (product = 1) && decide (flags = 1))
    && decide (1 ≤ leAt bs 3 1 ∧ leAt bs 3 1 ≤ 64) && decide (32 ≤ dim ∧ dim ≤ 256 ∧ dim % 32 = 0) && zerosAt bs 6 2
    && decide (1 ≤ leAt bs 8 4 ∧ leAt bs 8 4 ≤ 65536) && decide (leAt bs 16 8 % 16 = 0) && zerosAt bs 24 8

/-- A chunk whose tag R55 does not define is an invalid tag of its page (R184, R225): the sequences that hold the page are held; a
staging chunk's sequence is held likewise. -/
def badTagPage (s : State) (p data : Nat) : Option Nat :=
  (mfind (pitchOf s p).pages fun _ g => decide (g.state ≠ .free ∧ g.hot = data)).map (·.1)

/-- Lose the pages of the chunks with undefined tags. -/
def loseBadTags (p : Nat) : List (Nat × Nat × Nat × Nat) → State → State
  | [], s => s
  | (data, _, _, tag) :: t, s =>
    loseBadTags p t (if tagOk tag then s
      else match badTagPage s p data with
        | some n => pageLost s p n 0 0x0402
        | none => holdAllAtBoundary 4 rcIntegrityFail
            (seqsWhere s p fun _ e => e.layers.zipIdx.any fun l => decide (stagingData s p l.1 l.2 = some data)) s)

/-- Bind a kind-1 stream: a multiplier descriptor and its chunk list (R182 to R184). -/
def bindMult (found : List Finding) (c : Ctx) (a : Nat) (s : State) : CmdRes :=
  if a % 32 ≠ 0 then .fault (badField noCore)
  else
    unlessFault (addressFault s c.pr noCore a 32 false) <|
    access c s (streamRanges s c.pr a 32) fun s => withStream c (goldenPoison found) [(a, 32)] s fun s =>
    let d := streamBytes s c.pr a 32
    let n := leAt d 8 4
    let list := leAt d 16 8
    if ¬multOk d then .fault (badField noCore)
    else
      unlessFault (addressFault s c.pr noCore list (16 * n) false) <|
      access c s (streamRanges s c.pr list (16 * n)) fun s0 => withFindings c (codedFindings found) s0 fun s3 =>
      withStream c (goldenPoison found) [(list, 16 * n)] s3 fun s1 =>
      match parseChunks none n (streamBytes s1 c.pr list (16 * n)) with
      | none => .fault (badField noCore)
      | some chunks =>
        if chunks.any fun x => !tagOk x.2.2.2 then .settled (loseBadTags c.pr.pitch chunks s1)
        else
          let m : MultDesc := ⟨leAt d 0 1, leAt d 1 1, decide (leAt d 2 1 = 1), leAt d 3 1, leAt d 4 2, leAt d 12 4, chunks⟩
          .done (putCamp s1 c.camp { campOf s1 c.camp with stream := some (.chunks m) })

/-- Bind a kind-0 stream: a weight tensor header, checked as R33 except for the N:M walk (R150), after the read of its bytes has been admitted
(R258). -/
def bindWeights (found : List Finding) (c : Ctx) (a : Nat) (s : State) : CmdRes :=
  unlessFault (addressFault s c.pr noCore a 32 false) <|
  let ahead := if (codedAt s c.pr.pitch a).isSome then none else aheadFor c s (daOf s c.pr a) 32
  access c s (if ahead.isSome then [] else streamRanges s c.pr a 32) fun s0 =>
  withFindings c (codedFindings ((if ahead.isSome then aheadNotes c s0 else []) ++ found)) s0 fun s3 =>
  withStream c (goldenPoison found) [(a, 32)] s3 fun s2 =>
  let h := parseHeader (ahead.getD (streamBytes s2 c.pr a 32))
  let t := tensorAt s2 c.pr.pitch a h
  if ¬headerOk h ∨ (h.format = 2 ∧ t.rowStarts = []) then .fault (badField noCore)
  else
    unlessFault (addressFault s2 c.pr noCore a (32 + h.payloadBytes) false) <|
    let s1 := dropAhead c s2
    .done (putCamp s1 c.camp { campOf s1 c.camp with stream := some (.weights t (fld c.w 103 80) (fld c.w 127 104)) })

/-- WSTREAM (R149, R150, opcode 0x0A): [78:32] pitch address, [79] kind, [103:80] first stored row, [127:104] row count, which is 1 or more. -/
def doWstream (found : List Finding) (c : Ctx) (s : State) : CmdRes :=
  let a := fld c.w 78 32
  campCommand c.w [(127, 32)] (decide (1 ≤ fld c.w 127 104)) <|
    if flag c.w 79 then bindMult found c a s else bindWeights found c a s

/-- WSTREAM. -/
def execCWstream (camp : Nat) (w : CmdWord) (found : List Finding) (s : State) : Answer State :=
  runCommand s camp w (decide (cmdOpcode w = 0x0A)) (doWstream found)

/-- TILECFG (R149, R150, opcode 0x0B): [55:32] k0, [71:56] row base, [87:72] first activation row, [111:88] K_total, [127:112] layer. -/
def doTilecfg (c : Ctx) (s : State) : CmdRes :=
  campCommand c.w [(127, 32)] true <|
    .done (putCamp s c.camp { campOf s c.camp with
      cfg := some ⟨cmdTask c.w, fld c.w 55 32, fld c.w 71 56 + c.sp, fld c.w 87 72, orMax (fld c.w 111 88), fld c.w 127 112⟩ })

/-- TILECFG. -/
def execCTilecfg (camp : Nat) (w : CmdWord) (s : State) : Answer State :=
  runCommand s camp w (decide (cmdOpcode w = 0x0B)) doTilecfg

/-! ### VLD and VST (R122, R149, R150) -/

/-- A tile register. -/
def tOf (k : Core) (n : Nat) : List Word := mgetD k.t n (List.replicate 128 0#32)
/-- A scalar register. -/
def sOf (k : Core) (n : Nat) : Word := mgetD k.sreg n 0#32
/-- Write a tile register. -/
def setT (k : Core) (n : Nat) (v : List Word) : Core := { k with t := mset k.t n v }
/-- Write a scalar register. -/
def setS (k : Core) (n : Nat) (v : Word) : Core := { k with sreg := mset k.sreg n v }

/-- Elements in memory: four bytes each, or two bytes of BF16, which widen exactly (R122). -/
def loadElems (bf : Bool) (n : Nat) (bs : List Byte) : List Word :=
  (List.range n).map fun i => if bf then fromBF16 (leAt bs (2 * i) 2) else BitVec.ofNat 32 (leAt bs (4 * i) 4)

/-- Put loaded elements into the register that a VLD names. -/
def loadInto (w : CmdWord) (k : Core) (vs : List Word) : Core :=
  if flag w 38 then setS k (fld w 34 32) (vs.headD 0#32) else setT k (fld w 34 32) vs

/-- Elements of the register that a VLD or VST names. -/
def regCount (scalar : Bool) : Nat := if scalar then 1 else 128

/-- VLD (R149, opcode 0x0E): source 0 scratchpad, 1 slot (a read that releases nothing), 2 the capability word (R152). -/
def doVld (found : List Finding) (c : Ctx) (s : State) : CmdRes :=
  let src := fld c.w 37 36
  let cnt := regCount (flag c.w 38)
  let size := (if flag c.w 35 then 2 else 4) * cnt
  let o := fld c.w 79 64 + c.sp
  let n := fld c.w 99 80 + c.slot
  let so := 8 * fld c.w 123 100
  coreCommand c.w [(38, 32), (123, 64)] (decide (src ≠ 3) && !(decide (src = 2) && !flag c.w 38)) fun cores =>
    if src = 0 then
      unlessFault (windowFaults (campOf s c.camp) cores (cmdTask c.w) o (ceilDiv size 8) false) <|
      withFindings c found s fun s1 =>
      .done (onCores s1 c.camp cores fun _ _ k => loadInto c.w k (loadElems (flag c.w 35) cnt (spRead k (cmdTask c.w) o size)))
    else if src = 1 then
      withSlot s c n (lowCore c.w) fun x =>
      unlessFault (slotFaults cores x n so 0 size) <|
      routed c x n <| reading c s x n <|
      access c s [(slotDa s c.pr x + so, size)] fun s0 => withFindings c found s0 fun s1 =>
      let vs := loadElems (flag c.w 35) cnt (peekBytes s1 (slotDa s1 c.pr x + so) size)
      .done (onCores s1 c.camp cores fun _ _ k => loadInto c.w k vs)
    else .done (onCores s c.camp cores fun _ _ k => setS k (fld c.w 34 32) Config.capability)

/-- VLD. -/
def execCVld (camp : Nat) (w : CmdWord) (found : List Finding) (s : State) : Answer State :=
  runCommand s camp w (decide (cmdOpcode w = 0x0E)) (doVld found)

/-- The trit of an element of a T5 store: ±1.0 and ±0, a NaN master weight counting as 0 (R145); other values have none. -/
def storeTrit (v : Word) : Option Int :=
  if isNaN v ∨ isZero v then some 0 else if v = 0x3F800000#32 then some 1 else if v = 0xBF800000#32 then some (-1) else none

/-- Pack trits as T5 bytes, with zero trits at the end (R36, R38). -/
def packT5 : Nat → List Int → List Byte
  | 0, _ => []
  | n + 1, ts =>
    BitVec.ofNat 8 ((List.range 5).map fun i => (ts.getD i 0 + 1).toNat * 3 ^ i).sum :: packT5 n (ts.drop 5)

/-- The bytes of a store: FP32, BF16 rounded by R58, or T5 (R149). -/
def storeBytes (fmt : Nat) (vs : List Word) : List Byte :=
  if fmt = 0 then (vs.map fun v => leBytes 4 v.toNat).flatten
  else if fmt = 1 then (vs.map fun v => leBytes 2 (toBF16 v)).flatten
  else packT5 (ceilDiv vs.length 5) (vs.map fun v => (storeTrit v).getD 0)

/-- Bytes of a store (R149). -/
def storeSize (fmt : Nat) (scalar : Bool) : Nat :=
  if scalar then (if fmt = 0 then 4 else if fmt = 1 then 2 else 1) else if fmt = 0 then 512 else if fmt = 1 then 256 else 26

/-- The elements that a VST stores. -/
def stored (w : CmdWord) (k : Core) : List Word :=
  if flag w 38 then [sOf k (fld w 34 32)] else tOf k (fld w 34 32)

/-- Detail bytes of the quality events (R308). -/
def qualityDetail (handle layer level format position value : Nat) : List Byte :=
  leBytes 4 handle ++ leBytes 2 layer ++ leBytes 1 level ++ leBytes 1 format ++ leBytes 4 position ++ leBytes 4 value

/-- MASTER_NAN for each NaN of a T5 store (R145, R308): the position field holds the element index. -/
def masterNan (camp p layer : Nat) : List (Word × Nat) → State → State
  | [], s => s
  | (v, i) :: t, s =>
    masterNan camp p layer t (if isNaN v then writeEvent s (srcCamp camp) 0x04 0x0503 p (qualityDetail 0 layer 0 0 i 0) else s)

/-- MASTER_NAN over the cores of a store. -/
def masterNans (c : Ctx) (cores : List Nat) (s : State) : State :=
  let k := campOf s c.camp
  masterNan c.camp c.pr.pitch ((k.cfg.map (·.layer)).getD 0) ((cores.map fun core => (stored c.w (coreOf k core)).zipIdx).flatten) s

/-- VST (R145, R149, R150, opcode 0x0F): formats FP32, BF16 and T5, to the scratchpad or to a slot at slot offset + rank × size. -/
def doVst (found : List Finding) (c : Ctx) (s : State) : CmdRes :=
  let fmt := fld c.w 36 35
  let size := storeSize fmt (flag c.w 38)
  let o := fld c.w 79 64 + c.sp
  let n := fld c.w 99 80 + c.slot
  let so := 8 * fld c.w 123 100
  let units := ceilDiv size 8
  coreCommand c.w [(39, 32), (123, 64)] (decide (fmt ≠ 3)) fun cores =>
    let cm := campOf s c.camp
    let bytes (core : Nat) : List Byte := storeBytes fmt (stored c.w (coreOf cm core))
    let trits := if fmt = 2 then
        firstFault cores fun _ core =>
          if (stored c.w (coreOf cm core)).any fun v => (storeTrit v).isNone then some (progFault 0x0308 core 0) else none
      else none
    let note (s : State) : State := if fmt = 2 then masterNans c cores s else s
    if flag c.w 37 then
      withSlot s c n (lowCore c.w) fun x =>
      unlessFault (slotFaults cores x n so (8 * units) size) <|
      unlessFault trits <|
      routed c x n <| writing c s x n (lowCore c.w) <|
      access c s [(slotDa s c.pr x + so, 8 * units * cores.length)] fun s0 => withFindings c found s0 fun s1 =>
      .done (putSlot (storeRanks (slotDa s1 c.pr x) so (8 * units) bytes cores.zipIdx (note s1)) c.pr.pitch n (fillSlot x (flag c.w 39)))
    else
      unlessFault (windowFaults cm cores (cmdTask c.w) o units true) <|
      unlessFault trits <|
      withFindings c found s fun s1 =>
      .done (onCores (note s1) c.camp cores fun _ core k => spWrite k (cmdTask c.w) o (bytes core))

/-- VST. -/
def execCVst (camp : Nat) (w : CmdWord) (found : List Finding) (s : State) : Answer State :=
  runCommand s camp w (decide (cmdOpcode w = 0x0F)) (doVst found)

/-! ### SYNC (R162 to R164) -/

/-- Fields of SYNC (R149). -/
def syncFields : List (Nat × Nat) := [(51, 32), (95, 64)]

/-- A SYNC word of an operation. -/
def isSync (w : CmdWord) (op : Nat) : Bool := decide (cmdOpcode w = 0x11) && decide (fld w 51 48 = op)

/-- SIGNAL (R162, R163): adds the value and releases the waits that are now satisfied; a reserved operation 0x3 to 0xF is BAD_FIELD. -/
def doSignal (c : Ctx) (s : State) : CmdRes :=
  let n := fld c.w 47 32
  campCommand c.w syncFields (decide (fld c.w 51 48 = 0)) <|
    if c.pr.syncCount ≤ n then .fault (syncRange n)
    else
      match signalSync s c.pr.pitch n (syncValue c.w) with
      | none => .fault (progFault 0x0306 noCore n)
      | some s1 => .done s1

/-- SIGNAL. -/
def execCSignal (camp : Nat) (w : CmdWord) (s : State) : Answer State :=
  runCommand s camp w (decide (cmdOpcode w = 0x11) && !isSync w 1 && !isSync w 2) doSignal

/-- WAIT (R162): blocks until the count reaches the value. -/
def doWait (c : Ctx) (s : State) : CmdRes :=
  let n := fld c.w 47 32
  campCommand c.w syncFields true <|
    if c.pr.syncCount ≤ n then .fault (syncRange n)
    else if syncValue c.w ≤ (syncOf s c.pr.pitch n).count then .done s
    else .wait (.sync n)

/-- WAIT. -/
def execCWait (camp : Nat) (w : CmdWord) (s : State) : Answer State := runCommand s camp w (isSync w 1) doWait

/-- TAKE (R162, R163): the first TAKE on an object in a step makes the camp its consumer; another consumer faults. -/
def doTake (c : Ctx) (s : State) : CmdRes :=
  let n := fld c.w 47 32
  let y := syncOf s c.pr.pitch n
  let me := srcCamp c.camp
  campCommand c.w syncFields true <|
    if c.pr.syncCount ≤ n then .fault (syncRange n)
    else if y.consumer ≠ none ∧ y.consumer ≠ some me then .fault (progFault 0x0305 noCore n)
    else if syncValue c.w ≤ y.count then .done (putSync s c.pr.pitch n ⟨y.count - syncValue c.w, some me⟩)
    else .settled (block (putSync s c.pr.pitch n { y with consumer := some me }) c.camp c.w (.sync n))

/-- TAKE. -/
def execCTake (camp : Nat) (w : CmdWord) (s : State) : Answer State := runCommand s camp w (isSync w 2) doTake

/-! ### Reserved opcodes (R149, R168) -/

/-- An opcode of 0x16 to 0xFF: RESERVED_OPCODE, whatever else the command holds. -/
def doReserved (_ : Ctx) (_ : State) : CmdRes := .fault (progFault 0x0301 noCore 0)

/-- A reserved command opcode. -/
def execCReserved (camp : Nat) (w : CmdWord) (s : State) : Answer State :=
  runCommand s camp w (decide (0x16 ≤ cmdOpcode w)) doReserved

/-! ### Run-ahead (R170, R171) -/

/-- Byte of the payload at which a stored row begins (R34 to R38, R41, R44). -/
def rowOffset (t : LoadedTensor) (n : Nat) : Nat :=
  if t.format = 1 then n * ceilDiv t.k 5 else if t.format = 3 then n * t.k else 8 * t.rowStarts.getD n (t.payloadBytes / 8)

/-- The stored rows that the tile of core rank q of a TILE reads: the rows of its slice in a transposed stream, else those of its eight columns
(R95, R150). -/
def tileRowRange (w : CmdWord) (cfg : TileCfg) (first count rows q : Nat) : Nat × Nat :=
  let (a, b) := if flag w 38 then (max first cfg.k0, cfg.k0 + orMax (fld w 87 64))
    else (first + fld w 111 88 + q * fld w 127 112, first + fld w 111 88 + q * fld w 127 112 + 8)
  (a, min b (min (first + count) rows))

/-- The ranges of device memory that hold the rows of the tiles of a TILE (R103). -/
def tileRanges (s : State) (r : PitchRecord) (w : CmdWord) (cfg : TileCfg) (t : LoadedTensor) (first count : Nat) : List (Nat × Nat) :=
  (List.range (cmdCores w).length).filterMap fun q =>
    let (a, b) := tileRowRange w cfg first count t.rows q
    if a < b then some (payloadDa s r t + rowOffset t a, rowOffset t b - rowOffset t a) else none

/-- The ranges that a run-ahead read of a command covers: MEMRD's data, WSTREAM's header, or the rows of the tiles that a TILE names; a reference
out of bound reads nothing. -/
def aheadRanges (s : State) (r : PitchRecord) (c : Camp) (w : CmdWord) : List (Nat × Nat) :=
  let range (a n : Nat) : List (Nat × Nat) :=
    match translate s r a n false with
    | .ok d => [(d, n)]
    | .error _ => []
  if cmdOpcode w = 0x08 then range (fld w 79 32) (8 * fld w 111 96 * (cmdCores w).length)
  else if cmdOpcode w = 0x0A then range (fld w 78 32) 32
  else if cmdOpcode w = 0x0C then
    match c.stream, c.cfg with
    | some (.weights t first count), some cfg => tileRanges s r w cfg t first count
    | _, _ => []
  else []

/-- The first bytes of some ranges, as many as a size holds. -/
def fitRanges : Nat → List (Nat × Nat) → List (Nat × Nat)
  | _, [] => []
  | room, (da, n) :: t => if n ≤ room then (da, n) :: fitRanges (room - n) t else if room = 0 then [] else [(da, room)]

/-- A finding that makes a word unusable. -/
def isBad : Finding → Bool
  | .larderCorrected _ _ => false
  | .scratchCorrected _ _ _ => false
  | .hbmCorrected _ _ => false
  | _ => true

/-- RUN_AHEAD (R170): the sequencer begins a command with ra = 1, up to 64 commands ahead. It writes nothing but the camp's run-ahead
buffer of 64 KiB in the Larder, from which the oldest data is reclaimed (R171). Data with an uncorrectable word is dropped (R243), nothing is
read while a port, a stack, a bank or a channel does not admit the read (R248, R258, R261), and what the checks correct is reported when the data is
read in order. -/
def doRunAhead (found : List Finding) (s : State) (camp index : Nat) : State :=
  let c := campOf s camp
  match homeOf s camp, c.prog, mget c.cmdMem index with
  | some (r, _), some p, some w =>
    let here := p.base + p.pc
    let ranges := fitRanges 65536 (aheadRanges s r c w)
    if here < index ∧ index ≤ here + 64 ∧ index < p.base + p.commands ∧ cmdRa w ∧ ranges ≠ [] ∧ sliceLimited s (sliceOf camp) = false then
      rangerAccess s ranges fun s1 =>
      let c1 := campOf s1 camp
      if found.any isBad then s1
      else
        let read (x : Nat × Nat) : List Byte :=
          if cmdOpcode w = 0x08 then readPitch s1 r.pitch (fld w 79 32) x.1 x.2 else peekBytes s1 x.1 x.2
        let new := ranges.zipIdx.map fun x => (⟨index, x.1.1, read x.1, false, if x.2 = 0 then found else []⟩ : RunAheadEntry)
        let kept := c1.ahead.filter fun x => decide (x.index ≠ index)
        putCamp s1 camp { c1 with ahead := fitAhead (kept.length + new.length) (kept ++ new) }
    else s
  | _, _, _ => s
where
  /-- Drop the oldest entries while the buffer holds more than 64 KiB. -/
  fitAhead : Nat → List RunAheadEntry → List RunAheadEntry
    | 0, l => l
    | n + 1, l => if 65536 < (l.map (·.bytes.length)).sum then fitAhead n (l.drop 1) else l

/-- RUN_AHEAD. -/
def execRunAhead (camp index : Nat) (found : List Finding) (s : State) : Answer State :=
  if campOk camp then .next (doRunAhead found s camp index) else .refused .noSuchUnit

end Sys2Proof.Machine
end

