-- ==== Sys2Proof/Machine/Table.lean ====
section
/-! DEFINITION. The length table of a step (R176, R185), the rows and tokens it names (R150), and the counters of a sequence and layer
(R87, R299, R300). -/

namespace Sys2Proof.Machine

/-- An entry of the length table (R185). -/
structure TableRow where
  handle : Nat
  context : Nat
  newTokens : Nat
  base : Nat
  flags : Nat
  stream : Nat
  mask : Nat
  deriving DecidableEq, Repr

/-- The length table as the gather stage reads it. -/
structure LengthTable where
  tokens : Nat
  rows : List TableRow
  deriving DecidableEq, Repr

/-- Read an entry (R185). -/
def tableEntry (bs : List Byte) : TableRow :=
  ⟨leAt bs 0 4, leAt bs 4 4, leAt bs 8 4, leAt bs 12 4, leAt bs 16 1, leAt bs 20 4, leAt bs 24 8⟩

/-- Read the entries. -/
def tableEntries : Nat → List Byte → List TableRow
  | 0, _ => []
  | n + 1, bs => tableEntry bs :: tableEntries n (bs.drop 32)

/-- Read the table from a slot's bytes (R185). -/
def parseTable (bs : List Byte) : LengthTable := ⟨leAt bs 4 4, tableEntries (min 256 (leAt bs 0 4)) (bs.drop 32)⟩

/-- The table's bytes for a micro-batch (R185). -/
def tableBytes (s : State) (rows : List MicroRow) : List Byte :=
  leBytes 4 rows.length ++ leBytes 4 (rows.map (·.newTokens)).sum ++ leBytes 24 0
    ++ (rows.map fun m =>
      leBytes 4 (handleOf s m.seq) ++ leBytes 4 m.contextLength ++ leBytes 4 m.newTokens ++ leBytes 4 m.tokenBase ++ leBytes 1 m.flags
        ++ leBytes 3 0 ++ leBytes 4 (seqOf s m.seq).streamId ++ leBytes 8 m.mask).flatten

/-- A command that needs the table: it waits while the slot is not FULL (R176), and an entry that passes 2^32 is BAD_FIELD (R185). -/
def withTable (c : Ctx) (s : State) (core : Nat) (k : LengthTable → CmdRes) : CmdRes :=
  let n := c.prog.tableSlot
  withSlot s c n core fun x =>
    reading c s x n <|
    let t := parseTable (peekBytes s (slotDa s c.pr x) x.size)
    if t.rows.any fun r => decide (2 ^ 32 < r.context + r.newTokens) then .fault (badField core) else k t

/-- The entry that holds an activation row (R150); none at or beyond the table's tokens (R185). -/
def rowAt (t : LengthTable) (a : Nat) : Option TableRow :=
  if t.tokens ≤ a then none else t.rows.find? fun r => decide (r.base ≤ a ∧ a < r.base + r.newTokens)

/-- The position of an activation row in its sequence (R150). -/
def positionAt (r : TableRow) (a : Nat) : Nat := r.context + a - r.base

/-- Whether a handle names a sequence of the table. -/
def seqLive (s : State) (h : Nat) : Bool :=
  let e := seqOf s (handleIndex h)
  decide (e.state ≠ .free) && decide (e.generation = handleGeneration h)

/-- Place of a layer in a sequence's records: its distance from the first layer of the module's range. -/
def layerIndex (s : State) (p layer : Nat) : Nat :=
  match recordOf s p with
  | none => layer
  | some r => layer - r.group.firstLayer

/-- Change the record of a (sequence, layer). -/
def onLayer (s : State) (p h layer : Nat) (f : LayerState → LayerState) : State :=
  if seqLive s h then
    let j := layerIndex s p layer
    onSeq s (handleIndex h) fun e =>
      match e.layers[j]? with
      | none => e
      | some l => { e with layers := e.layers.set j (f l) }
  else s

/-- The record of a (sequence, layer). -/
def layerAt (s : State) (p h layer : Nat) : LayerState :=
  if seqLive s h then (seqOf s (handleIndex h)).layers.getD (layerIndex s p layer) LayerState.fresh else LayerState.fresh

/-- A count of `w` bits saturates at its largest value (R299). -/
def bump (w c n : Nat) : Nat := min (2 ^ w - 1) (c + n)

/-- Add to the saturated counter (R299, R300). -/
def countSaturated (s : State) (p h layer n : Nat) : State :=
  onLayer s p h layer fun l => { l with counters := { l.counters with saturated := bump 32 l.counters.saturated n } }

/-- Add to the zero counter (R299, R300). -/
def countZero (s : State) (p h layer n : Nat) : State :=
  onLayer s p h layer fun l => { l with counters := { l.counters with zero := bump 32 l.counters.zero n } }

/-- Add to the replays counter (R87, R299). -/
def countReplays (s : State) (p h layer n : Nat) : State :=
  onLayer s p h layer fun l => { l with counters := { l.counters with replays := bump 32 l.counters.replays n } }

/-- Add to the wide counter (R87, R299). -/
def countWide (s : State) (p h layer n : Nat) : State :=
  onLayer s p h layer fun l => { l with counters := { l.counters with wide := bump 32 l.counters.wide n } }

/-- Add to the preshift counter (R80, R87, R299). -/
def countPreshift (s : State) (p h layer n : Nat) : State :=
  onLayer s p h layer fun l => { l with counters := { l.counters with preshift := bump 32 l.counters.preshift n } }

/-- Add to the promoted counter (R299, R307). -/
def countPromoted (s : State) (p h layer n : Nat) : State :=
  onLayer s p h layer fun l => { l with counters := { l.counters with promoted := bump 32 l.counters.promoted n } }

end Sys2Proof.Machine
end

