-- ==== Sys2Proof/Machine/Scatter.lean ====
section
/-! DEFINITION. Top-k and merge (R109 to R112) and the hash accumulators (R113 to R120). -/

namespace Sys2Proof.Machine

/-! ### Top-k (R109 to R112) -/

/-- An element or entry: its bits and position. -/
structure Ranked where
  v : Word
  pos : Nat
  deriving DecidableEq, Repr

/-- The position of a filler entry (R109). -/
def fillerPos : Nat := 0xFFFFFFFF

/-- Whether a ranks before b (R110): FP32 when `int` is false. -/
def ranksBefore (int : Bool) (a b : Ranked) : Bool :=
  if int then
    if b.v.toInt < a.v.toInt then true else if a.v.toInt < b.v.toInt then false else decide (a.pos < b.pos)
  else if isNaN a.v then isNaN b.v && decide (a.pos < b.pos)
  else if isNaN b.v then true
  else if fpLt b.v a.v then true
  else if fpLt a.v b.v then false
  else decide (a.pos < b.pos)

/-- Insert into a descending list. -/
def insertRanked (int : Bool) (e : Ranked) : List Ranked → List Ranked
  | [] => [e]
  | a :: t => if ranksBefore int e a then e :: a :: t else a :: insertRanked int e t

/-- The first k of a list of elements in the order of R110. -/
def selectTop (int : Bool) (k : Nat) (es : List Ranked) : List Ranked :=
  es.foldl (fun acc e => (insertRanked int e acc).take k) []

/-- A filler entry (R109). -/
def fillerEntry (int : Bool) : Ranked := ⟨if int then 0x80000000#32 else 0xFF800000#32, fillerPos⟩

/-- The output of k entries (R109, R111). -/
def topBytes (int : Bool) (k : Nat) (es : List Ranked) : List Byte :=
  ((es ++ List.replicate (k - es.length) (fillerEntry int)).map fun e => leBytes 4 e.v.toNat ++ leBytes 4 e.pos).flatten

/-- Input elements of a selection: positions from 0 (R109). -/
def inputElems (n : Nat) (bs : List Byte) : List Ranked :=
  (List.range n).map fun i => ⟨BitVec.ofNat 32 (leAt bs (4 * i) 4), i⟩

/-- Entries of the lists of a merge, fillers left out (R109, R112). -/
def inputEntries (n : Nat) (bs : List Byte) : List Ranked :=
  ((List.range n).map fun i => (⟨BitVec.ofNat 32 (leAt bs (8 * i) 4), leAt bs (8 * i + 4) 4⟩ : Ranked)).filter fun e =>
    decide (e.pos ≠ fillerPos)

/-- Count the NaN inputs of a selection for a micro-batch row and the layer of the TILECFG in force (R111): once for the command, whatever its
cores (DESIGN CHOICE: notes/assumptions/20.md). -/
def countTopNan (c : Ctx) (row : Nat) (nans : Nat) (s : State) (k : State → CmdRes) : CmdRes :=
  match (campOf s c.camp).cfg with
  | none => k s
  | some g =>
    if nans = 0 then k s
    else withTable c s (lowCore c.w) fun t =>
      match t.rows[row]? with
      | none => k s
      | some r => k (countSaturated s c.pr.pitch r.handle g.layer nans)

/-- TOPK (R149, opcode 0x12): [51:32] slot, [52] release, [79:64] output offset, [103:80] n, [111:104] k − 1, [112] type, [117:113]
lists − 1, [125:118] micro-batch row. -/
def doTopk (found : List Finding) (c : Ctx) (s : State) : CmdRes :=
  let n := fld c.w 51 32 + c.slot
  let o := fld c.w 79 64 + c.sp
  let len := orMax (fld c.w 103 80)
  let k := fld c.w 111 104 + 1
  let int := flag c.w 112
  let lists := fld c.w 117 113 + 1
  let size := if lists = 1 then 4 * len else 8 * k * lists
  coreCommand c.w [(52, 32), (125, 64)] (decide (c.pr.slots ≤ n) || (mget (pitchOf s c.pr.pitch).slots n).isSome) fun cores =>
    unlessFault (windowFaults (campOf s c.camp) cores (cmdTask c.w) o k true) <|
    withSlot s c n (lowCore c.w) fun x =>
    unlessFault (slotFaults cores x n 0 0 size) <|
    routed c x n <| reading c s x n <|
    access c s [(slotDa s c.pr x, size)] fun s0 => withFindings c found s0 fun s3 =>
    let bs := peekBytes s3 (slotDa s3 c.pr x) size
    let es := if lists = 1 then inputElems len bs else inputEntries (k * lists) bs
    let out := topBytes int k (selectTop int k es)
    let nans := if lists = 1 ∧ ¬int then (es.filter fun e => isNaN e.v).length else 0
    countTopNan c (fld c.w 125 118) nans s3 fun s1 =>
      let s2 := onCores s1 c.camp cores fun _ _ kc => spWrite kc (cmdTask c.w) o out
      .done (if flag c.w 52 then putSlot s2 c.pr.pitch n (releaseSlot x c.rel) else s2)

/-- TOPK. -/
def execCTopk (camp : Nat) (w : CmdWord) (found : List Finding) (s : State) : Answer State :=
  runCommand s camp w (decide (cmdOpcode w = 0x12)) (doTopk found)

/-! ### Hash accumulators (R113 to R120) -/

/-- A hash accumulator instance. -/
def hashOf (s : State) (i : Nat) : HashInst := s.hash.getD i HashInst.fresh
/-- Put an instance. -/
def putHash (s : State) (i : Nat) (h : HashInst) : State := { s with hash := lset s.hash i h }

/-- The bucket of a key (R114). -/
def bucketOf (key : Nat) : Nat := (bitsOf key 12 0) ^^^ (bitsOf key 25 13) ^^^ (bitsOf key 31 26)

/-- HASH_INSTANCE (R116, R168). -/
def hashInstance (i : Nat) : CampFault := containFault 0x0105 noCore i
/-- HASH_LIMIT (R118, R168). -/
def hashLimit (core i : Nat) : CampFault := progFault 0x0307 core i

/-- HOPEN (R115, R116, R149, opcode 0x13): the descriptor at a 32-byte aligned pitch address. -/
def doHopen (found : List Finding) (c : Ctx) (s : State) : CmdRes :=
  let a := fld c.w 79 32
  campCommand c.w [(79, 32)] (decide (a % 32 = 0)) <|
    unlessFault (addressFault s c.pr noCore a 32 false) <|
    access c s [(daOf s c.pr a, 32)] fun s0 => withFindings c found s0 fun s =>
    let d := peekBytes s (daOf s c.pr a) 32
    let i := leAt d 0 1
    let max := leAt d 4 4
    if 7 < i ∨ max = 0 ∨ 2 ^ 24 ≤ max ∨ ¬zerosAt d 1 3 ∨ ¬zerosAt d 24 8 then .fault (progFault 0x0302 noCore i)
    else if ¬bitOf c.pr.hash i then .fault (hashInstance i)
    else
      match (hashOf s i).epoch with
      | some _ => .wait (.hopen i)
      | none => .done (putHash s i ⟨some ⟨c.pr.pitch, max, leAt d 8 8, leAt d 16 8, 0, 0, none⟩, []⟩)

/-- HOPEN. -/
def execCHopen (camp : Nat) (w : CmdWord) (found : List Finding) (s : State) : Answer State :=
  runCommand s camp w (decide (cmdOpcode w = 0x13)) (doHopen found)

/-- Where a key goes: the way that holds it, or else the lowest free way of its bucket (R117). -/
def wayOf (h : HashInst) (key : Nat) : Option Nat :=
  let b := bucketOf key
  let ways := (List.range 4).map (4 * b + ·)
  match ways.find? fun w => (mget h.entries w).any fun e => decide (e.key = key) with
  | some w => some w
  | none => ways.find? fun w => (mget h.entries w).isNone

/-- An entry with one more contribution: its sum, the residue that the adder carries, and its count (R117). -/
def addEntry (old : HashEntry) (v : Int) : HashEntry :=
  { old with sum := old.sum + v, res := res7 ((old.res : Int) + v), count := old.count + 1 }

/-- Apply one contribution to an open instance (R117): an entry, or a spill record. -/
def contribute (s : State) (r : PitchRecord) (i key : Nat) (v : Int) : State :=
  let h := hashOf s i
  match h.epoch with
  | none => s
  | some e =>
    let e1 := { e with contributions := e.contributions + 1 }
    match wayOf h key with
    | some w =>
      putHash s i ⟨some e1, mset h.entries w (addEntry ((mget h.entries w).getD ⟨key, 0, 0, 0⟩) v)⟩
    | none =>
      let s1 := putHash s i ⟨some { e1 with spilled := e.spilled + 1 }, h.entries⟩
      pokeBytes s1 (daOf s r (e.spillBase + 16 * e.spilled)) (leBytes 4 key ++ leBytes 8 (unsignedOf 64 v) ++ leBytes 4 0)

/-- Apply contributions in order. -/
def contributeAll (r : PitchRecord) (i : Nat) : List (Nat × Int) → State → State
  | [], s => s
  | (k, v) :: t, s => contributeAll r i t (contribute s r i k v)

/-- The records of a core's scratchpad: key at offset 0, signed 64-bit value at offset 8 (R149). -/
def hashRecords (n : Nat) (bs : List Byte) : List (Nat × Int) :=
  (List.range n).map fun j => (leAt bs (16 * j) 4, signed 64 (leAt bs (16 * j + 8) 8))

/-- The first contribution that an epoch refuses: one beyond max_contributions, or a value out of range (R118, R168). -/
def firstRefused (e : Epoch) (recs : List (Nat × Int)) : Option Nat :=
  (recs.zipIdx.find? fun x => decide (e.maxContributions ≤ e.contributions + x.2) || decide (2 ^ 47 ≤ x.1.2.natAbs)).map (·.2)

/-- HADD (R117, R118, R149, opcode 0x14): [47:32] scratchpad offset, 16-byte aligned, [63:48] record count, [66:64] instance; cores in rank
order. An epoch that is being closed takes nothing from another camp (DESIGN CHOICE: notes/assumptions/52.md). -/
def doHadd (found : List Finding) (c : Ctx) (s : State) : CmdRes :=
  let o := fld c.w 47 32 + c.sp
  let n := fld c.w 63 48
  let i := fld c.w 66 64
  coreCommand c.w [(66, 32)] (decide (1 ≤ n) && decide (o % 2 = 0)) fun cores =>
    unlessFault (windowFaults (campOf s c.camp) cores (cmdTask c.w) o (2 * n) false) <|
    let recs := (cores.map fun core => hashRecords n (spRead (coreOf (campOf s c.camp) core) (cmdTask c.w) o (16 * n))).flatten
    match (hashOf s i).epoch with
    | none => .fault (hashLimit (lowCore c.w) i)
    | some e =>
      if e.pitch ≠ c.pr.pitch ∨ e.closing ≠ none then .fault (hashLimit (lowCore c.w) i)
      else
        unlessFault ((firstRefused e recs).map fun j => hashLimit (cores.getD (j / n) noCore) i) <|
        let spilled := ((hashOf (contributeAll c.pr i recs s) i).epoch.map (·.spilled)).getD 0
        unlessFault (if e.spilled < spilled then addressFault s c.pr (lowCore c.w) e.spillBase (16 * spilled) true else none) <|
        if sliceLimited s i ∨ sliceLimited s (sliceOf c.camp) then .wait (.slice (if sliceLimited s i then i else sliceOf c.camp)) else
        access c s [(daOf s c.pr (e.spillBase + 16 * e.spilled), 16 * (spilled - e.spilled))] fun s0 =>
        withFindings c found s0 fun s1 => .done (contributeAll c.pr i recs s1)

/-- HADD. -/
def execCHadd (camp : Nat) (w : CmdWord) (found : List Finding) (s : State) : Answer State :=
  runCommand s camp w (decide (cmdOpcode w = 0x14)) (doHadd found)

/-- HCLOSE (R119, R146, R149, opcode 0x15): [34:32] instance, [63:48] sync object. The camp stands at the command until HASH_CLOSE_MERGE has
merged the instance; a second one on an epoch that is being closed is HASH_LIMIT (DESIGN CHOICE: notes/assumptions/52.md). -/
def doHclose (c : Ctx) (s : State) : CmdRes :=
  let i := fld c.w 34 32
  let n := fld c.w 63 48
  campCommand c.w [(34, 32), (63, 48)] true <|
    if ¬bitOf c.pr.hash i then .fault (hashInstance i)
    else if c.pr.syncCount ≤ n then .fault (syncRange n)
    else
      let h := hashOf s i
      match h.epoch with
      | none => .fault (hashLimit noCore i)
      | some e =>
        if e.pitch = c.pr.pitch ∧ e.closing = some (n, c.camp) then .wait (.hclose i)
        else if e.pitch ≠ c.pr.pitch ∨ e.closing ≠ none then .fault (hashLimit noCore i)
        else .settled (block (putHash s i { h with epoch := some { e with closing := some (n, c.camp) } }) c.camp c.w (.hclose i))

/-- HCLOSE. -/
def execCHclose (camp : Nat) (w : CmdWord) (s : State) : Answer State :=
  runCommand s camp w (decide (cmdOpcode w = 0x15)) doHclose

/-- Add a run to a list of (key, sum, count) in ascending key. -/
def mergeRun (key : Nat) (v : Int) (n : Nat) : List (Nat × Int × Nat) → List (Nat × Int × Nat)
  | [] => [(key, v, n)]
  | (k, sum, cnt) :: t =>
    if key < k then (key, v, n) :: (k, sum, cnt) :: t
    else if key = k then (k, sum + v, cnt + n) :: t
    else (k, sum, cnt) :: mergeRun key v n t

/-- The spill records of an epoch (R117). -/
def spillRecords (n : Nat) (bs : List Byte) : List (Nat × Int) :=
  (List.range n).map fun j => (leAt bs (16 * j) 4, signed 64 (leAt bs (16 * j + 4) 8))

/-- The merged runs of an instance (R119). -/
def mergedRuns (entries : NMap HashEntry) (spills : List (Nat × Int)) : List (Nat × Int × Nat) :=
  let a := entries.foldl (fun acc e => if 0 < e.2.count then mergeRun e.2.key e.2.sum e.2.count acc else acc) []
  spills.foldl (fun acc kv => mergeRun kv.1 kv.2 1 acc) a

/-- The output of a close (R113, R119). -/
def closeBytes (runs : List (Nat × Int × Nat)) : List Byte :=
  (runs.map fun r => leBytes 4 r.1 ++ leBytes 9 (unsignedOf 72 r.2.1) ++ leBytes 3 r.2.2).flatten
    ++ leBytes 4 runs.length ++ leBytes 12 0

/-- HASH_CLOSE_MERGE (R116, R119, R120): merge, write the output, free the entries, add 1 to the sync object, and release waiting opens; the
HCLOSE has then completed, and its camp goes on. A fault of the merge is the HCLOSE's. -/
def mergeHash (s : State) (i : Nat) : State :=
  let h := hashOf s i
  match h.epoch with
  | none => s
  | some e =>
    match e.closing, recordOf s e.pitch with
    | some (n, camp), some r =>
      let spills := spillRecords e.spilled (peekBytes s (daOf s r e.spillBase) (16 * e.spilled))
      let out := closeBytes (mergedRuns h.entries spills)
      match addressFault s r noCore e.outBase out.length true with
      | some f => raiseFault s camp f 0x15 0
      | none =>
        let s1 := putHash (pokeBytes s (daOf s r e.outBase) out) i HashInst.fresh
        let s2 := releaseBlocked s1 e.pitch fun w => decide (w = .hopen i)
        match signalSync s2 e.pitch n 1 with
        | some s3 => advance s3 camp
        | none => raiseFault s2 camp (progFault 0x0306 noCore n) 0x15 0
    | _, _ => s

/-- The ranges of pitch memory that the merge of an instance reads and writes: spill records and output (R117, R119). -/
def mergeRanges (s : State) (i : Nat) : List (Nat × Nat) :=
  let h := hashOf s i
  match h.epoch with
  | none => []
  | some e =>
    match recordOf s e.pitch with
    | none => []
    | some r =>
      let spills := spillRecords e.spilled (peekBytes s (daOf s r e.spillBase) (16 * e.spilled))
      [(daOf s r e.spillBase, 16 * e.spilled), (daOf s r e.outBase, (closeBytes (mergedRuns h.entries spills)).length)]

/-- The merge with what the checks of its reads find (R117, R243): an uncorrectable entry or spill record abandons the step. It waits while its
memory does not admit it (R248, R258, R260). -/
def doHashClose (found : List Finding) (s : State) (i : Nat) : State :=
  match (hashOf s i).epoch.bind fun e => e.closing.map fun k => (e.pitch, k.2) with
  | none => s
  | some (p, camp) =>
    rangerAccess s (mergeRanges s i) fun s0 =>
    match applyFindings camp p false found s0 with
    | (s1, true) => s1
    | (s1, false) => mergeHash s1 i

/-- HASH_CLOSE_MERGE. -/
def execHashCloseMerge (inst : Nat) (found : List Finding) (s : State) : Answer State :=
  if hashOk inst then .next (doHashClose found s inst) else .refused .noSuchUnit

end Sys2Proof.Machine
end

