-- ==== Sys2Proof/Machine/Gather.lean ====
section
/-! DEFINITION. The gather stage (R98 to R108, R150, R485, R486): masks (R187 to R189), weights of a stream, operand codes of a tile row,
scale alignment (R77 to R80), attention products (R177 to R185), and the passes of a product (R68 to R71). -/

namespace Sys2Proof.Machine

/-! ### Masks (R187 to R189) -/

/-- A mask descriptor in memory (R187): first query tile, query tiles, key tiles, its flags and its bitmaps. -/
structure MaskDesc where
  qTile0 : Nat
  qTiles : Nat
  kTiles : Nat
  flags : List Byte
  bitmaps : List Byte
  deriving DecidableEq, Repr

/-- Bytes of the padded flag array (R187). -/
def maskFlagBytes (qTiles kTiles : Nat) : Nat := ceilDiv (ceilDiv (qTiles * kTiles) 4) 64 * 64

/-- Read a descriptor (R187). -/
def parseMask (bs : List Byte) : MaskDesc :=
  let q := leAt bs 4 4
  let k := leAt bs 8 4
  let n := maskFlagBytes q k
  ⟨leAt bs 0 4, q, k, (bs.drop 32).take n, (bs.drop (32 + n)).take (8192 * leAt bs 12 4)⟩

/-- The flag of the tile of a given index (R187). -/
def maskFlag (m : MaskDesc) (i : Nat) : Nat := leAt m.flags (i / 4) 1 / 4 ^ (i % 4) % 4

/-- How many tiles before index i carry a bitmap (R187). -/
def bitmapsBefore (m : MaskDesc) (i : Nat) : Nat := ((List.range i).filter fun j => decide (maskFlag m j = 2)).length

/-- Whether a descriptor makes the pair of query position q and key position k visible (R188, R189). -/
def maskVisible (m : MaskDesc) (q k : Nat) : Bool :=
  let a := q / 256
  let b := k / 256
  if a < m.qTile0 ∨ m.qTile0 + m.qTiles ≤ a ∨ m.kTiles ≤ b then decide (k ≤ q)
  else
    let i := (a - m.qTile0) * m.kTiles + b
    let f := maskFlag m i
    if f = 0 then false
    else if f = 1 then true
    else if f = 2 then bitOf (leAt m.bitmaps (8192 * bitmapsBefore m i + 32 * (q % 256) + k % 256 / 8) 1) (k % 8)
    else decide (k ≤ q)

/-- Bytes of a mask descriptor with its flags and bitmaps, from its header (R187). -/
def maskBytes (h : List Byte) : Nat := 32 + maskFlagBytes (leAt h 4 4) (leAt h 8 4) + 8192 * leAt h 12 4

/-- A row's mask, if its flags name one (R185). -/
def rowMask (s : State) (r : PitchRecord) (t : TableRow) : Option MaskDesc :=
  if bitOf t.flags 2 then
    let da := daOf s r t.mask
    let h := peekBytes s da 32
    some (parseMask (peekBytes s da (maskBytes h)))
  else none

/-- A key exists for a row up to the position of its last new token (R185). -/
def keyExists (t : TableRow) (k : Nat) : Bool := decide (k < t.context + t.newTokens)

/-- Whether a query of a row sees a key (R185, R189). -/
def pairVisible (m : Option MaskDesc) (t : TableRow) (q k : Nat) : Bool :=
  keyExists t k && (match m with
    | none => decide (k ≤ q)
    | some d => maskVisible d q k)

/-- Whether any query of a row sees any of the keys k0 to k0 + n − 1 (R185). -/
def chunkVisible (m : Option MaskDesc) (t : TableRow) (k0 n : Nat) : Bool :=
  (List.range t.newTokens).any fun i => (List.range n).any fun j => pairVisible m t (t.context + i) (k0 + j)

/-! ### Weights (R36 to R44, R95, R104) -/

/-- The multiplier passes of a trit. -/
def tritTerms (t : Int) : List (Int × Nat) := if t = 0 then [] else [(t, 0)]

/-- The weight of stored row n at original position j of a tensor, as (sign, place) pairs, or the fault that reading it meets: every
code that the engine must read to reach it is validated (R98, R103 to R105). -/
def weightAt (t : LoadedTensor) (payload : List Byte) (n j : Nat) : Except FormatFault (List (Int × Nat)) :=
  if t.format = 1 then
    match t5At payload (n * ceilDiv t.k 5) t.k j with
    | .ok v => .ok (tritTerms v)
    | .error f => .error f
  else if t.format = 3 then p8At payload (n * t.k) j
  else
    let first := t.rowStarts.getD n 0
    let stop := t.rowStarts.getD (n + 1) (t.payloadBytes / 8)
    match nmGroups payload t.n t.m t.k stop (j / t.m + 1) 0 ⟨first, 0⟩ with
    | .error f => .error f
    | .ok (slots, p) =>
      if t.k ≤ (j / t.m + 1) * t.m ∧ p.bit < 64 ∧ !onesFrom (nmWord payload p.word) p.bit then .error ⟨0x0104, 8 * p.word, p.bit⟩
      else if t.k ≤ (j / t.m + 1) * t.m ∧ p.word + 1 ≠ stop then .error ⟨0x0107, 8 * p.word, 0⟩
      else .ok (tritTerms (((slots.find? fun x => decide (x.1 = j)).map (·.2)).getD 0))

/-- Stored row and original position of stream column c at reduction position k; none where the weight is zero because the place lies
outside the bound stream (R95, R150). -/
def weightPlace (x : TileSource) (c k : Nat) : Option (Nat × Nat) :=
  if x.transposed then
    if c < x.tensor.k ∧ x.firstRow ≤ k ∧ k < x.firstRow + x.rowCount ∧ k < x.tensor.rows then some (k, c) else none
  else if c < x.rowCount ∧ x.firstRow + c < x.tensor.rows ∧ k < x.tensor.k then some (x.firstRow + c, k) else none

/-- The weight of a stream column at a reduction position. -/
def streamWeight (x : TileSource) (payload : List Byte) (c k : Nat) : Except (FormatFault × Nat) (List (Int × Nat)) :=
  match weightPlace x c k with
  | none => .ok []
  | some (n, j) =>
    match weightAt x.tensor payload n j with
    | .ok w => .ok w
    | .error f => .error (f, n)

/-- A fault that decoding meets: the code's fault, its stored row, and the column and reduction position of the slot it marks. -/
structure SlotFault where
  fault : FormatFault
  row : Nat
  col : Nat
  pos : Nat

/-- The weights of one reduction position, columns from `c` on, up to the first fault in column order (R100, R105). -/
def weightsAt (x : TileSource) (payload : List Byte) (k : Nat) : List Nat → List (List (Int × Nat)) × Option SlotFault
  | [] => ([], none)
  | c :: t =>
    match streamWeight x payload (x.col0 + c) k with
    | .error f => ([], some ⟨f.1, f.2, c, k⟩)
    | .ok w => let r := weightsAt x payload k t; (w :: r.1, r.2)

/-- The weights of the slice in ascending reduction order, up to the first fault in issue order (R100, R105). -/
def sliceWeights (x : TileSource) (payload : List Byte) : List Nat → NMap (List (List (Int × Nat))) × Option SlotFault
  | [] => ([], none)
  | k :: t =>
    match weightsAt x payload k (List.range 8) with
    | (ws, some f) => ([(k, ws)], some f)
    | (ws, none) => let r := sliceWeights x payload t; ((k, ws) :: r.1, r.2)

/-- The mark of a fault at a payload word (R106, R108). -/
def markOf (s : State) (r : PitchRecord) (t : LoadedTensor) (f : FormatFault) (row : Nat) : WeightMark :=
  let da := payloadDa s r t
  ⟨f.code, da + f.word, row, f.bit, da + f.word / 4096 * 4096⟩

/-- What the engine reads of a tile's slice: its weights up to the first mark, that mark, and the decoded slots of each column stream with
the marked slot last (R98, R102, R105). -/
structure SliceRead where
  weights : NMap (List (List (Int × Nat)))
  mark : Option WeightMark
  slots : List (List DecodedSlot)

/-- The slots of column c: non-zero weights, and the marked slot. -/
def columnSlots (ws : NMap (List (List (Int × Nat)))) (mark : Option (WeightMark × SlotFault)) (c : Nat) : List DecodedSlot :=
  (ws.filterMap fun x => match x.2.getD c [] with
    | [] => none
    | m => some (⟨x.1, m, none⟩ : DecodedSlot)) ++
  (match mark with
    | some (m, f) => if f.col = c then [⟨f.pos, [], some m⟩] else []
    | none => [])

/-- A payload word that no format takes: T5 bytes above 0xF2, P8 codes of kind 0 that are not 0, or an N:M fill that is not all ones
(R37, R40, R44). -/
def badWord (fmt : Nat) : List Byte := if fmt = 1 then leBytes 8 (2 ^ 64 - 1) else if fmt = 3 then List.replicate 8 1#8 else leBytes 8 7

/-- The payload as the decoder meets it: an uncorrectable word of the working copy, or of its copy in the weight-stream buffer, holds no code
(R242, R252). -/
def payloadRead (s : State) (r : PitchRecord) (t : LoadedTensor) (bad : Option Nat) : List Byte :=
  let bs := streamBytes s r (t.address + 32) t.payloadBytes
  match bad with
  | none => bs
  | some da => let o := (da - payloadDa s r t) / 8 * 8; bs.take o ++ badWord t.format ++ bs.drop (o + 8)

/-- The weights of a tile's slice as the engine now reads them, up to the mark that reaches issue; `bad` is the DA of an uncorrectable
word with the code that marks it: 0 in the working copy (R252), 1 in the weight-stream buffer (R243). -/
def readWeights (s : State) (r : PitchRecord) (x : TileSource) (bad : Option (Nat × Nat)) : SliceRead :=
  let (ws, f) := sliceWeights x (payloadRead s r x.tensor (bad.map (·.1))) ((List.range x.k).map (· + x.k0))
  let mark := f.map fun f =>
    let m := markOf s r x.tensor f.fault f.row
    (match bad with
      | some (da, code) => if da / 8 = m.da / 8 then { m with code := code, row := 0, bit := 0 } else m
      | none => m, f)
  ⟨ws, mark.map (·.1), (List.range 8).map (columnSlots ws mark)⟩

/-! ### Operand codes of a row in modes 0 to 4 (R46 to R48, R52, R307, R485, R486) -/

/-- The base operand format of a mode (R485). -/
def baseFormat (r : PitchRecord) (mode : Nat) (transposed : Bool) : Nat :=
  if mode = 0 then 1 else if mode = 1 then 0 else if mode = 2 ∨ mode = 4 then 2
  else if transposed then 1 else if r.profile.activation = 0 then 0 else 1

/-- A format widened by a latch level (R305). -/
def widen (fmt level : Nat) : Nat := min 2 (fmt + level)

/-- Whether feature i of a sidecar row lies in a promoted group (R307). -/
def promotedAt (row : List Byte) (fmt f : Nat) (sidecar : Bool) (i : Nat) : Bool :=
  sidecar && decide (fmt ≠ 2) && decide (i / 128 < f / 128) && isMarker (rowSidecar row f i)

/-- The form of a code of a format. -/
def formOf (fmt : Nat) : CodeForm := if fmt = 0 then .a4 else if fmt = 1 then .a8 else .a16

/-- The block code of feature i and its form: a promoted block is one format wider than its row (R307). -/
def blockCode (row : List Byte) (fmt f : Nat) (sidecar : Bool) (i : Nat) : Int × CodeForm :=
  if promotedAt row fmt f sidecar i then (promotedCode row fmt f i, formOf (fmt + 1)) else (rowCode row fmt f sidecar i, formOf fmt)

/-- The outliers of the group that holds feature i (R52, R54, R486). -/
def groupOutliers (row : List Byte) (fmt f : Nat) (sidecar : Bool) (i : Nat) : List Outlier :=
  if sidecar ∧ fmt ≠ 2 ∧ i / 128 < f / 128 then (readSidecar (rowSidecar row f i)).1 else []

/-- The outlier codes h and l of an entry at feature i (R486); an entry with exponent field 255 reads as zero. -/
def outlierCodes (i v : Nat) : List OpCode :=
  if bitsOf v 14 7 = 255 then []
  else
    let (c, e) := bf16Code v
    let (h, l) := splitCode c
    [⟨i, h, (e : Int) - 3, .outlier⟩, ⟨i, l, (e : Int) - 7, .outlier⟩]

/-- The operand codes at feature i, in issue order: the block code unless its block has E = 0 or an outlier stands there, then h and l. -/
def codesAt (row : List Byte) (fmt f : Nat) (sidecar : Bool) (i : Nat) : List OpCode :=
  let e := rowExp row fmt f sidecar i
  let (q, form) := blockCode row fmt f sidecar i
  match (groupOutliers row fmt f sidecar i).find? fun o => decide (o.index = i % 128) with
  | some o => outlierCodes i o.value
  | none => if e = 0 then [] else [⟨i, q, e, form⟩]

/-- The scale exponents of a whole row (R77, R78, R486). -/
def rowExps (row : List Byte) (fmt f : Nat) (sidecar : Bool) : List Int :=
  (((List.range f).map fun i => (codesAt row fmt f sidecar i).map (·.exp))).flatten

/-- Whether a row has a block taken in two bytes (R307). -/
def rowTwoByte (row : List Byte) (fmt f : Nat) (sidecar : Bool) : Bool :=
  decide (fmt = 2) || (decide (fmt = 1) && (List.range (f / 128)).any fun g => promotedAt row fmt f sidecar (128 * g))

/-- The window W of R78 in modes 0 to 4, of the widest format present. -/
def windowOf (p8 two : Bool) : Int := if p8 then (if two then 0 else 8) else if two then 7 else 15

/-- e_lo := max(e_min, e_hi − W) (R78); 0 where no position contributes. -/
def eLow (es : List Int) (w : Int) : Int :=
  match es with
  | [] => 0
  | e :: t => max (t.foldl min e) (t.foldl max e - w)

/-- What a sidecar row's malformed sidecars and non-finite outliers come to: the feature index of each malformed sidecar, with the count of
outlier entries with exponent field 255 (R54, R486). The index is that of the first feature of the sidecar's group, 128 × g
(DESIGN CHOICE: notes/assumptions/47.md). -/
def sidecarFaults (row : List Byte) (fmt f : Nat) (sidecar : Bool) : List Nat × Nat :=
  if sidecar ∧ fmt ≠ 2 then
    let gs := List.range (f / 128)
    ((gs.filter fun g => (readSidecar (rowSidecar row f (128 * g))).2).map (128 * ·),
      ((gs.map fun g => ((readSidecar (rowSidecar row f (128 * g))).1.filter fun o => decide (bitsOf o.value 14 7 = 255)).length)).sum)
  else ([], 0)

/-! ### Products (R77 to R80, R82) -/

/-- The generator of a pitch (R288, R289). -/
def seedOf (r : PitchRecord) : Nat := (r.keys.map (·.seed)).getD 0

/-- A product's place in the generator and in the counts: x0, x1, x2 and sub of R292, and the sequence handle, token position and reduction
position that R80 counts. -/
structure TermPlace where
  x0 : Nat
  x1 : Nat
  x2 : Nat
  sub : Nat
  charge : Option (Nat × Nat × Nat)
  deriving DecidableEq, Repr

/-- The place of a product of a row's token at coordinate x1, counted at reduction position k (R80, R292). -/
def rowPlace (rr : RowRead) (x1 k : Nat) : TermPlace := ⟨rr.pos, x1, rr.stream, rr.sub, rr.handle.map fun h => (h, rr.pos, k)⟩

/-- The product of an operand code with a multiplier of scale exponent `me` (0 in modes 0 to 4) in a row of unit `unit`. -/
def termOf (seed layer op : Nat) (unit : Int) (pl : TermPlace) (c : OpCode) (me : Int) (mult : List (Int × Nat)) : Term :=
  let d := c.exp + me - unit
  ⟨c.pos, c.code, (-d).toNat, genU seed (counterBlock pl.x0 pl.x1 pl.x2 layer op pl.sub 0), d.toNat, c.form, mult, pl.charge⟩

/-- The terms of column c of a row against the weights of the slice: a zero weight takes no pass (R99). -/
def columnTerms (seed layer op : Nat) (rr : RowRead) (ws : NMap (List (List (Int × Nat)))) (c : Nat) : List Term :=
  rr.codes.filterMap fun x =>
    match (mgetD ws x.pos []).getD c [] with
    | [] => none
    | m => some (termOf seed layer op rr.unit (rowPlace rr x.pos x.pos) x 0 m)

/-- The elements of a tile from its rows and weights. -/
def elemsOf (seed layer op : Nat) (rows : List RowRead) (ws : NMap (List (List (Int × Nat)))) : List Elem :=
  (rows.zipIdx.map fun rj => (List.range 8).map fun c =>
    (⟨rj.2, c, none, 0, false, false, 0, columnTerms seed layer op rj.1 ws c⟩ : Elem)).flatten

/-- The operand code of a product at a level (R82). -/
def levelCode (t : Term) (level : Nat) : Int :=
  let l := if level = 4 then 0 else level
  if l + t.pre = 0 then t.code else floorDy (dyAdd ⟨t.code, -((l + t.pre : Nat) : Int)⟩ ⟨t.u, -24⟩)

/-- The lane mode in which a code of a TILE's mode is issued (R307, R485, R486): modes 5 and 6 keep theirs. -/
def codeMode (mode : Nat) (f : CodeForm) : Nat :=
  if 5 ≤ mode then (if f = .a16 then 6 else 5)
  else if 3 ≤ mode then (if f = .a16 then 4 else 3)
  else if f = .a4 then 1 else if f = .a16 then 2 else 0

/-- The additions of a product at a level in the order of R69: hi byte before lo byte, and within it the multiplier's terms or planes. -/
def termOps (t : Term) (level : Nat) : List LaneOp :=
  let q := levelCode t level
  let parts : List (Int × Nat) := if t.form = .a16 then [((q - q % 256) / 256, 8), (q % 256, 0)] else [(q, 0)]
  (parts.map fun p => t.mult.map fun m => (⟨t.pos, m.1, p.1, res7 p.1, m.2 + p.2 + t.align, false⟩ : LaneOp)).flatten

/-- Mark the last addition of every position: there the partial sum S_k stands (R76). -/
def markLast : List (LaneOp × CodeForm) → List (LaneOp × CodeForm)
  | [] => []
  | (x, f) :: t => ({ x with last := t.head?.all fun y => decide (y.1.pos ≠ x.pos) }, f) :: markLast t

/-- Additions as passes: in dual A4 mode the addition of an even position and that of the odd position after it make one pass (R70). -/
def pairOps (tile slab mode : Nat) : List (LaneOp × CodeForm) → List Pass
  | [] => []
  | [(x, f)] => [⟨tile, slab, codeMode mode f, x, none⟩]
  | (x, f) :: (y, g) :: t =>
    if codeMode mode f = 1 ∧ codeMode mode g = 1 ∧ x.pos % 2 = 0 ∧ y.pos = x.pos + 1 then
      ⟨tile, slab, 1, x, some y⟩ :: pairOps tile slab mode t
    else ⟨tile, slab, codeMode mode f, x, none⟩ :: pairOps tile slab mode ((y, g) :: t)

/-- The passes of an element at its level, for a tile of key `tile`. -/
def elemPasses (tile mode : Nat) (e : Elem) : List Pass :=
  pairOps tile (e.row / 16) mode (markLast ((e.terms.map fun t => (termOps t e.level).map fun x => (x, t.form)).flatten))

/-! ### Attention products (R177 to R185; DEDUCED: notes/assumptions/20.md) -/

/-- A key of a bound chunk list: its chunk's DA, place in the chunk, position and tag. -/
structure KeyRef where
  da : Nat
  t : Nat
  pos : Nat
  tag : Nat
  chunk : Nat
  deriving DecidableEq, Repr

/-- Whether a pitch address is that of the staging buffer half of some (sequence, layer) of the pitch that takes tokens (R183, R207, R209). -/
def isStaging (s : State) (p a : Nat) : Bool :=
  s.seqs.any fun e => decide (e.2.pitch = p ∧ e.2.state ≠ .free) && (e.2.layers.zipIdx.any fun l => decide (stagingData s p l.1 l.2 = some a))

/-- DA of the first payload byte of a chunk: a staging buffer has a 64-byte header (R207). -/
def chunkDa (s : State) (r : PitchRecord) (data : Nat) : Nat := daOf s r data + (if isStaging s r.pitch data then 64 else 0)

/-- The keys of a chunk list in order: key index i is the i-th (R177, R183). -/
def keysOf (s : State) (r : PitchRecord) (d : MultDesc) : List KeyRef :=
  (d.chunks.zipIdx.map fun x =>
    let da := chunkDa s r x.1.1
    (List.range x.1.2.2.1).map fun t => (⟨da, t, x.1.2.1 + t, x.1.2.2.2, x.2⟩ : KeyRef)).flatten

/-- A multiplier element: code, scale exponent (0: contributes nothing) and the generator coordinate offset of its part (R178, R180). -/
structure MultElem where
  code : Int
  exp : Int
  deriving DecidableEq, Repr

/-- Multiplier bits w of a tag for a product (R177). -/
def multBits (score : Bool) (tag : Nat) : Nat :=
  if tag = 3 then 5 else if score then (if tag = 0 then 4 else 8) else if tag = 1 then 8 else 4

/-- The stored element of a key or value row at feature f: its multiplier elements, and whether it is non-finite (R178 to R180). -/
def storedElem (s : State) (d : MultDesc) (score : Bool) (k : KeyRef) (f : Nat) : List MultElem × Bool :=
  let off := if score then keyRowOffset k.tag d.headDim d.kvHead k.t else valueRowOffset k.tag d.headDim d.kvHead k.t
  let a := k.da + off
  if k.tag = 3 then
    let v := leAt (peekBytes s (a + 2 * f) 2) 0 2
    if bitsOf v 14 7 = 255 then ([⟨0, 0⟩, ⟨0, 0⟩], true)
    else
      let (c, e) := bf16Code v
      let (h, l) := splitCode c
      ([⟨h, (e : Int) + 4⟩, ⟨l, e⟩], false)
  else if multBits score k.tag = 4 then
    let b := leAt (peekBytes s (a + f / 2) 1) 0 1
    ([⟨signed 4 (if f % 2 = 0 then b % 16 else b / 16), leAt (peekBytes s (a + d.headDim / 2 + f / 32) 1) 0 1⟩], false)
  else ([⟨signed 8 (leAt (peekBytes s (a + f) 1) 0 1), leAt (peekBytes s (a + d.headDim + f / 32) 1) 0 1⟩], false)

/-- The multiplier elements of value column c: a feature, the ones column, or none: further columns take no passes (R181). -/
def valueElem (s : State) (d : MultDesc) (k : KeyRef) (c : Nat) : List MultElem × Bool :=
  if c < d.headDim then storedElem s d false k c
  else if c = d.headDim ∧ d.ones then (if k.tag = 3 then [⟨0, 0⟩, ⟨1, 127⟩] else [⟨1, 127⟩], false)
  else ([], false)

/-- The planes of a w-bit code (R69): (sign, place) for each plane in `planes`, sign 0 for a clear bit. -/
def planeTerms (w : Nat) (planes : List Nat) (code : Int) : List (Int × Nat) :=
  let u := unsignedOf w code
  planes.map fun b => (if bitOf u b then (if b + 1 = w then -1 else 1) else 0, b)

/-- The planes that are set in at least one element of a broadcast group (R71). -/
def groupPlanes (w : Nat) (codes : List Int) : List Nat :=
  (List.range w).filter fun b => codes.any fun c => bitOf (unsignedOf w c) b

/-- The products of one operand code with one part of the multipliers of the eight columns, by column; a column without an element takes
no pass, and one whose element is zero takes the steps of its broadcast group with σ = 0 (R71, R181). -/
def partTerms (seed layer op : Nat) (unit : Int) (pl : TermPlace) (c : OpCode) (w : Nat) (ms : List (Option MultElem)) : List (List Term) :=
  let live (m : MultElem) : Int := if m.exp = 0 then 0 else m.code
  let planes := groupPlanes w ((ms.filterMap id).map live)
  ms.map fun m => match m with
    | none => []
    | some m =>
      if planes = [] then []
      else if m.exp = 0 then [termOf seed layer op unit { pl with charge := none } c (unit - c.exp) (planeTerms w planes 0)]
      else [termOf seed layer op unit pl c m.exp (planeTerms w planes m.code)]

/-- Append column lists. -/
def joinCols (a b : List (List Term)) : List (List Term) := (List.range 8).map fun c => a.getD c [] ++ b.getD c []

/-- Read a two-byte or one-byte operand row of an attention product: codes with their exponents (R48, R177, R195). -/
def attnCode (row : List Byte) (two unsignedHi : Bool) (f i : Nat) : Int × Nat :=
  let e := rowExp row (if two then 2 else 1) f false i
  if two then
    let hi := leAt row i 1
    ((if unsignedHi then (hi : Int) else signed 8 hi) * 256 + (leAt row (f + i) 1 : Nat), e)
  else (signed 8 (leAt row i 1), e)

/-- The rows of an attention tile before alignment: a row's table entry, token and head (R177). -/
structure AttnRow where
  entry : TableRow
  act : Nat
  head : Nat
  bytes : List Byte
  two : Bool
  deriving DecidableEq, Repr

/-- The (query, key) tile of a query position and a key position reads page data: its flag is not 0b00 (R187 to R189). -/
def tileReads (m : Option MaskDesc) (q k : Nat) : Bool :=
  match m with
  | none => true
  | some d =>
    let a := q / 256
    let b := k / 256
    if a < d.qTile0 ∨ d.qTile0 + d.qTiles ≤ a ∨ d.kTiles ≤ b then true
    else decide (maskFlag d ((a - d.qTile0) * d.kTiles + b) ≠ 0)

/-- The key exists for the row and its chunk is read (R185). -/
def keyLive (m : Option MaskDesc) (t : TableRow) (d : MultDesc) (k : KeyRef) : Bool :=
  keyExists t k.pos && (match d.chunks[k.chunk]? with
    | some x => chunkVisible m t x.2.1 x.2.2.1
    | none => false)

/-- The scale exponents of the row over every element of the chunks `cs` (R77, R78, R180). -/
def attnExps (s : State) (r : PitchRecord) (d : MultDesc) (a : AttnRow) (two : Bool) (f : Nat) (keys : List KeyRef) (cs : List Nat) : List Int :=
  let m := rowMask s r a.entry
  let live := keys.zipIdx.filter fun k => decide (k.1.chunk ∈ cs) && keyLive m a.entry d k.1
  let add (e : Nat) (ms : List MultElem) : List Int := if e = 0 then [] else (ms.filter fun x => decide (x.exp ≠ 0)).map fun x => (e : Int) + x.exp
  (live.map fun k =>
    if d.product = 1 then
      ((List.range d.headDim).map fun i => add (attnCode a.bytes two false f i).2 (storedElem s d true k.1 i).1).flatten
    else
      let e := (attnCode a.bytes two two f k.2).2
      ((List.range (if d.ones then d.headDim + 1 else d.headDim)).map fun c => add e (valueElem s d k.1 c).1).flatten).flatten

/-- The eight columns' terms of an attention row over reduction positions `ks` (R177, R180, R188). A split element has reduction positions
2i and 2i + 1; what R80 counts is the reduction index of R180: that element in a score product, the key position in a value product. -/
def attnTerms (s : State) (seed layer op : Nat) (d : MultDesc) (a : AttnRow) (m : Option MaskDesc) (f : Nat) (keys : List KeyRef) (col0 : Nat)
    (rr : RowRead) : List Nat → List (List Term)
  | [] => []
  | i :: t =>
    let rest := attnTerms s seed layer op d a m f keys col0 rr t
    let score := decide (d.product = 1)
    let (q, e) := attnCode a.bytes a.two (!score && a.two) f i
    let cols : List (List MultElem) := (List.range 8).map fun c =>
      let key := if score then keys[col0 + c]? else keys[i]?
      match key with
      | none => []
      | some k =>
        if keyLive m a.entry d k && tileReads m rr.pos k.pos then
          (if score then (if i < d.headDim then (storedElem s d true k i).1 else []) else (valueElem s d k (col0 + c)).1)
        else []
    let tags : List Nat := (List.range 8).map fun c => ((if score then keys[col0 + c]? else keys[i]?).map (·.tag)).getD 0
    let w := ((tags.map (multBits score)).foldl max 0)
    let parts := (cols.map (·.length)).foldl max 0
    let base := if score then i else ((keys[i]?).map (·.pos)).getD 0
    if e = 0 then rest
    else
      (List.range parts).foldr (fun p acc =>
        let x1 := if score ∧ parts = 2 then 2 * base + p else base
        let pos := if parts = 2 then 2 * i + p else i
        joinCols (partTerms seed layer op rr.unit (rowPlace rr x1 x1) ⟨pos, q, e, if a.two then .a16 else .a8⟩ w
          (cols.map fun ms => if ms = [] then none else some (ms.getD p ⟨0, 0⟩))) acc) rest

/-- Non-finite stored elements of a whole chunk for the keys that exist for a row, in the K or the V rows of the KV head (R179, R201). -/
def chunkNonfinite (s : State) (d : MultDesc) (keys : List KeyRef) (i : Nat) (live : KeyRef → Bool) : Nat :=
  let score := decide (d.product = 1)
  ((keys.filter fun k => decide (k.chunk = i) && live k).map fun k =>
    ((List.range d.headDim).filter fun f => (storedElem s d score k f).2).length).sum

end Sys2Proof.Machine
end

