-- ==== Sys2Proof/Machine/Tile.lean ====
section
/-! DEFINITION. Tiles (R73 to R97, R105 to R108, R131, R150, R173): the TILE command, the lane pass, the completion join with its replays and
residue discards, the refetch of a weight block, and TRED. -/

namespace Sys2Proof.Machine

/-! ### The accumulator file (R74) -/

/-- 32-bit slots that a tile takes: first and end (R74). -/
def tileSpan (base : Nat) (wide : Bool) (height : Nat) : Nat × Nat :=
  if wide then (2 * base, 2 * base + height / 8) else (base, base + height / 16)

/-- Two tiles share a slot. -/
def spansMeet (a b : Nat × Nat) : Bool := decide (a.1 < b.2) && decide (b.1 < a.2)

/-- The tile of a core under a base and width (R131). -/
def tileAt (k : Core) (base : Nat) (wide : Bool) : Option TileRun :=
  k.tiles.find? fun t => decide (t.base = base) && decide (t.wide = wide)

/-- Put a tile in place of the one under its base and width. -/
def putTile (k : Core) (t : TileRun) : Core :=
  { k with tiles := (k.tiles.filter fun x => !(decide (x.base = t.base) && decide (x.wide = t.wide))) ++ [t] }

/-- Where a lane holds an accumulator: a 32-bit slot, a pair of an even slot and the odd slot after it (R74), or a 64-bit register beside the
file. -/
inductive AccPlace where
  | slot (n : Nat)
  | pair (n : Nat)
  | beside (n : Nat)
  deriving DecidableEq, Repr

/-- The accumulator of a slab of a tile (R73, R74). In the wide rerun each half of a tile of 128 rows takes the pairs of the whole file
(R85); a wide rerun of a smaller tile has registers beside the file, since the slots after its own may hold other tiles in flight
(DESIGN CHOICE: notes/assumptions/22.md). -/
def accPlace (t : TileRun) (slab : Nat) : AccPlace :=
  if t.wide then .pair (t.base + slab)
  else if t.wideRerun then (if t.height = 128 then .pair (slab % 4) else .beside (t.base + slab))
  else .slot (t.base + slab)

/-- Key of a lane's slot n in the accumulator file. -/
def slotKey (lane n : Nat) : Nat := 16 * lane + n

/-- Read an accumulator with its residue: a pair holds its low half in the even slot and its high half in the odd one (R74). -/
def readAcc (acc : NMap Acc) (lane : Nat) : AccPlace → Acc
  | .slot n => mgetD acc (slotKey lane n) ⟨0, 0⟩
  | .pair n =>
    let lo := mgetD acc (slotKey lane (2 * n)) ⟨0, 0⟩
    ⟨(mgetD acc (slotKey lane (2 * n + 1)) ⟨0, 0⟩).v * 2 ^ 32 + lo.v, lo.res⟩
  | .beside n => mgetD acc (slotKey lane (8 + n)) ⟨0, 0⟩

/-- Write an accumulator; a wide one carries one residue for its 64-bit value (R74). -/
def writeAcc (acc : NMap Acc) (lane : Nat) (x : Acc) : AccPlace → NMap Acc
  | .slot n => mset acc (slotKey lane n) x
  | .pair n => mset (mset acc (slotKey lane (2 * n)) ⟨x.v % 2 ^ 32, x.res⟩) (slotKey lane (2 * n + 1)) ⟨x.v / 2 ^ 32, 0⟩
  | .beside n => mset acc (slotKey lane (8 + n)) x

/-- The lane of an element (R73). -/
def elemLane (e : Elem) : Nat := 8 * (e.row % 16) + e.col

/-- The accumulator of an element. -/
def elemAcc (acc : NMap Acc) (t : TileRun) (e : Elem) : Acc := readAcc acc (elemLane e) (accPlace t (e.row / 16))

/-- The sum that an element's run delivered: its accumulator's, or what the join of its wide rerun took from the file (R84, R85). -/
def sumAt (k : Core) (t : TileRun) (e : Elem) : Int := if t.wideRerun then e.result else (elemAcc k.acc t e).v

/-! ### Starting a run (R84, R85, R88, R89) -/

/-- The elements that take part in a run: those that are not done, or in the wide rerun every element of the half. -/
def inRun (t : TileRun) (e : Elem) : Bool :=
  if t.wideRerun then decide (t.height ≠ 128 ∨ e.row / 64 = t.half) else !e.done

/-- Key of a tile of a core: base slot and width (R131). -/
def tileKey (t : TileRun) : Nat := 2 * t.base + (if t.wide then 1 else 0)

/-- The passes of the run by reduction position, ascending, and at each position by row and column (R76, R98 stages 4 and 5). -/
def planOf (t : TileRun) : NMap (List (Nat × Pass)) :=
  (t.elems.filter (inRun t)).foldl (fun m e =>
    (elemPasses (tileKey t) t.mode e).foldl (fun m p => mset m p.first.pos (mgetD m p.first.pos [] ++ [(elemLane e, p)])) m) []

/-- Zero the accumulators of the run's elements (R89). -/
def clearAccs (t : TileRun) (acc : NMap Acc) : NMap Acc :=
  (t.elems.filter (inRun t)).foldl (fun a e => writeAcc a (elemLane e) ⟨0, 0⟩ (accPlace t (e.row / 16))) acc

/-- Entries of a lane's operand queue (R88). -/
def queueEntries : Nat := 32

/-- Slots of the decode queue of a column stream (R102). -/
def decodeEntries : Nat := 16

/-- The passes that wait in a lane's queue. -/
def queueOf (k : Core) (lane : Nat) : List Pass := mgetD k.queues lane []

/-- Put a lane's queue; an empty one is not listed. -/
def putQueue (k : Core) (lane : Nat) (q : List Pass) : Core :=
  { k with queues := if q = [] then mdel k.queues lane else mset k.queues lane q }

/-- A lane's queue is full: the stage that feeds a tile waits, since every lane of a core takes part in each tile (R73, R88). -/
def queuesFull (k : Core) : Bool := k.queues.any fun q => decide (queueEntries ≤ q.2.length)

/-- Slots of each column stream's queue that the other tiles of a core hold: the queue is the core's (R102). -/
def heldSlots (k : Core) (t : TileRun) : List Nat :=
  (List.range 8).map fun c => ((k.tiles.filter fun x => decide (tileKey x ≠ tileKey t)).map fun x => (x.decoded.getD c []).length).sum

/-- The decoder fills the queue of each column stream and waits where it is full (R102); `held` are the slots of the other tiles. -/
def decodeMore (held : List Nat) (t : TileRun) : TileRun :=
  let room (c : Nat) : Nat := decodeEntries - ((t.decoded.getD c []).length + held.getD c 0)
  { t with decoded := (List.range 8).map fun c => t.decoded.getD c [] ++ (t.coming.getD c []).take (room c)
           coming := (List.range 8).map fun c => (t.coming.getD c []).drop (room c) }

/-- Stage 4 takes the slots of a reduction position, and of those before it, out of the decode queue. -/
def compactAt (t : TileRun) (pos : Nat) : TileRun := { t with decoded := t.decoded.map fun q => q.filter fun x => decide (pos < x.pos) }

/-- Stage 4 takes slots out of the queue up to a reduction position, and the decoder fills the room (R102). `fuel` bounds the slots left. -/
def reachSlot (held : List Nat) (pos : Nat) : Nat → TileRun → TileRun
  | 0, t => t
  | n + 1, t =>
    let t1 := decodeMore held { t with decoded := t.decoded.map fun q => q.filter fun x => decide (pos ≤ x.pos) }
    if t1.coming = t.coming then t1 else reachSlot held pos n t1

/-- A slot up to a reduction position is not decoded yet: the compaction stage waits (R102). -/
def slotMissing (t : TileRun) (pos : Nat) : Bool := t.coming.any fun q => q.any fun x => decide (x.pos ≤ pos)

/-- Feed a tile's passes to the lane queues in the order of the plan until a queue is full, or until the slots of the next position are not
decoded (R88, R98, R102). `fuel` bounds the passes and positions that are left. -/
def pumpTile (held : List Nat) : Nat → Core → TileRun → Core × TileRun
  | 0, k, t => (k, t)
  | n + 1, k, t =>
    match t.feed with
    | (lane, p) :: rest =>
      if queueEntries ≤ (queueOf k lane).length then (k, t)
      else
        let k1 := putQueue k lane (queueOf k lane ++ [p])
        let t1 := { t with feed := rest }
        if queueEntries ≤ (queueOf k1 lane).length then (k1, t1) else pumpTile held n k1 t1
    | [] =>
      match t.plan with
      | [] => (k, { t with coming := List.replicate 8 [], decoded := List.replicate 8 [] })
      | (pos, ps) :: rest =>
        let t1 := reachSlot held pos ((t.coming.map List.length).sum + 1) t
        if slotMissing t1 pos then (k, t1) else pumpTile held n k { compactAt t1 pos with plan := rest, feed := ps }

/-- Passes and positions that a tile has still to feed, and its end. -/
def pumpFuel (t : TileRun) : Nat := t.feed.length + (t.plan.map fun x => x.2.length + 1).sum + 1

/-- Feed one tile unless a lane's queue is full. -/
def feedTile (k : Core) (t : TileRun) : Core :=
  if queuesFull k ∨ t.state ≠ .running then k
  else
    let held := heldSlots k t
    let (k1, t1) := pumpTile held (pumpFuel t) k (decodeMore held t)
    { k1 with tiles := k1.tiles.map fun x => if tileKey x = tileKey t then t1 else x }

/-- Feed the tiles of a core in the order in which they were issued: which tile's operands arrive first is the model's choice
(DESIGN CHOICE: notes/assumptions/22.md). -/
def feedCore (k : Core) : Core := k.tiles.foldl feedTile k

/-- Take the passes of a tile out of the lane queues: at the join, and where a tile is cancelled (R89). -/
def purgeTile (k : Core) (key : Nat) : Core :=
  { k with queues := (k.queues.map fun q => (q.1, q.2.filter fun p => decide (p.tile ≠ key))).filter fun q => decide (q.2 ≠ []) }

/-- Begin a run of a tile: its accumulators are cleared and its passes go through the engine to the lane queues. A marked slot ends the
issue: the passes before it are the run's (R105, R106). -/
def beginRun (k : Core) (t : TileRun) : Core :=
  let t1 := { t with state := .running, mis := [], feed := [], coming := t.slots, decoded := List.replicate 8 []
                     elems := t.elems.map fun e => { e with overflowed := false } }
  let k1 := putTile { purgeTile k (tileKey t) with acc := clearAccs t1 k.acc } { t1 with plan := planOf t1 }
  feedCore k1

/-! ### TILE (R149, R150) -/

/-- Rows of a TILE's tile. -/
def tileRows (w : CmdWord) : Nat := 16 * 2 ^ fld w 36 35

/-- The field rules of a TILE that need no stream (R74, R150). -/
def tileRule (w : CmdWord) : Bool :=
  let base := fld w 41 39
  decide (fld w 34 32 ≠ 7)
    && (if flag w 37 then decide (base + tileRows w / 16 ≤ 4 ∧ tileRows w ≠ 128) else decide (base + tileRows w / 16 ≤ 8))

/-- A mode fits a stream (R150). -/
def modeFits (mode : Nat) (st : Stream) : Bool :=
  match st with
  | .weights t _ _ => decide (mode = 5 ∨ mode = 6) || (if mode ≤ 2 then decide (t.format = 1 ∨ t.format = 2) else decide (t.format = 3))
  | .chunks _ => decide (mode = 5 ∨ mode = 6)

/-- The package's record of a layer. -/
def layerImage (s : State) (p layer : Nat) : Option LayerImage :=
  (pitchOf s p).package.bind fun k => k.layers.find? fun l => decide (l.layer = layer)

/-- Whether the operand rows of an operation of a layer carry sidecars (R52; DEDUCED: notes/assumptions/21.md); none do in reference mode (R294). -/
def sidecarOp (s : State) (r : PitchRecord) (layer op : Nat) : Bool :=
  match layerImage s r.pitch layer with
  | none => false
  | some l => !r.profile.quality.reference && l.sidecarOps.contains op

/-- The latch level of a sequence's layer; reference mode has no latches (R294, R303). -/
def latchLevel (s : State) (r : PitchRecord) (h layer : Nat) : Nat :=
  if r.profile.quality.reference then 0 else (layerAt s r.pitch h layer).latch.level

/-- Activation row and head of tile row j (R150, R177). -/
def tileRowAct (st : Stream) (cfg : TileCfg) (j : Nat) : Nat × Nat :=
  match st with
  | .weights _ _ _ => (cfg.firstAct + j, 0)
  | .chunks d => ((cfg.firstAct + j) / d.group, (cfg.firstAct + j) % d.group)

/-- The operand format of a tile row: 0 A4, 1 A8, 2 A16 (R177, R185, R485); linear operations run in A16 in reference mode (R294). -/
def tileRowFormat (s : State) (c : Ctx) (st : Stream) (cfg : TileCfg) (e : TableRow) : Nat :=
  let mode := fld c.w 34 32
  match st with
  | .weights _ _ _ =>
    if 5 ≤ mode then (if mode = 6 then 2 else 1)
    else
      let base := if c.pr.profile.quality.reference ∧ flag c.w 38 = false then 2 else baseFormat c.pr mode (flag c.w 38)
      if flag c.w 38 then base else widen base (latchLevel s c.pr e.handle cfg.layer)
  | .chunks d => if d.product = 1 then (if bitOf e.flags 1 then 2 else 1) else if mode = 6 then 2 else 1

/-- Bytes of a row of a weight gradient: the G8 codes of its tokens, then one exponent byte per token, whose scale exponent enters the sum
at its own position (R97; DESIGN CHOICE: notes/assumptions/22.md). -/
def gradientBytes (two : Bool) (kTotal : Nat) : Nat := (if two then 2 * kTotal else kTotal) + kTotal

/-- A gradient row stands in a TILE: mode 5 or 6 over a weight stream. -/
def gradientRows (w : CmdWord) (st : Stream) : Bool :=
  match st with
  | .weights _ _ _ => decide (5 ≤ fld w 34 32)
  | .chunks _ => false

/-- Whether a tile's rows carry sidecars. -/
def tileSidecar (s : State) (c : Ctx) (st : Stream) (cfg : TileCfg) : Bool :=
  match st with
  | .weights _ _ _ => decide (fld c.w 34 32 ≤ 4) && sidecarOp s c.pr cfg.layer (fld c.w 49 42)
  | .chunks _ => false

/-- Offset of tile row j in the task window, in 8-byte units (R150). -/
def tileRowOffset (c : Ctx) (cfg : TileCfg) (j : Nat) : Nat := cfg.rowBase + j * fld c.w 63 50

/-- A tile row with its table entry, where a token stands in it (R150, R185). -/
def tileRowEntry (tbl : LengthTable) (st : Stream) (cfg : TileCfg) (j : Nat) : Option TableRow := rowAt tbl (tileRowAct st cfg j).1

/-- The gather stage reads tile row j: a token stands in it, or it is a row of a weight gradient, whose rows are output features. -/
def tileRowRead (w : CmdWord) (tbl : LengthTable) (st : Stream) (cfg : TileCfg) (j : Nat) : Bool :=
  match st with
  | .weights _ _ _ => decide (5 ≤ fld w 34 32) || (tileRowEntry tbl st cfg j).isSome
  | .chunks _ => (tileRowEntry tbl st cfg j).isSome

/-- The window fault of the rows that are read (R154). -/
def tileRowFault (s : State) (c : Ctx) (st : Stream) (cfg : TileCfg) (tbl : LengthTable) : Option CampFault :=
  let core := lowCore c.w
  (List.range (tileRows c.w)).findSome? fun j =>
    if tileRowRead c.w tbl st cfg j then
      let fmt := match tileRowEntry tbl st cfg j with
        | some e => tileRowFormat s c st cfg e
        | none => if fld c.w 34 32 = 6 then 2 else 1
      let n := if gradientRows c.w st then gradientBytes (decide (fld c.w 34 32 = 6)) cfg.kTotal
        else rowBytes fmt cfg.kTotal (tileSidecar s c st cfg)
      windowFault (coreOf (campOf s c.camp) core) core cfg.task (tileRowOffset c cfg j) (ceilDiv n 8) false
    else none

/-- The bytes of a tile row. -/
def tileRowBytes (s : State) (c : Ctx) (cfg : TileCfg) (fmt : Nat) (sidecar : Bool) (j : Nat) : List Byte :=
  spRead (coreOf (campOf s c.camp) (lowCore c.w)) cfg.task (tileRowOffset c cfg j) (rowBytes fmt cfg.kTotal sidecar)

/-- A row that takes no pass. -/
def emptyRow (act : Nat) : RowRead := ⟨act, none, 0, 0, 0, 0, []⟩

/-- Reduction positions of the slice. -/
def sliceRange (w : CmdWord) (cfg : TileCfg) : List Nat := (List.range (orMax (fld w 87 64))).map (· + cfg.k0)

/-- Read one row of a tile in modes 0 to 4 (R78, R150, R485, R486). -/
def readLinear (s : State) (c : Ctx) (st : Stream) (cfg : TileCfg) (tbl : LengthTable) (j : Nat) : RowRead :=
  let act := (tileRowAct st cfg j).1
  match tileRowEntry tbl st cfg j with
  | none => emptyRow act
  | some e =>
    let mode := fld c.w 34 32
    let fmt := tileRowFormat s c st cfg e
    let sc := tileSidecar s c st cfg
    let row := tileRowBytes s c cfg fmt sc j
    let unit := eLow (rowExps row fmt cfg.kTotal sc) (windowOf (decide (3 ≤ mode)) (rowTwoByte row fmt cfg.kTotal sc))
    ⟨act, some e.handle, positionAt e act, e.stream, 0, unit, ((sliceRange c.w cfg).map (codesAt row fmt cfg.kTotal sc)).flatten⟩

/-- Quality event and count of the sidecars of a row that is read (R54, R486). The whole row's sidecars are read again, and its entries with
exponent field 255 counted again, at each TILE that reads the row (DESIGN CHOICE: notes/assumptions/47.md). -/
def noteSidecars (s : State) (c : Ctx) (st : Stream) (cfg : TileCfg) (tbl : LengthTable) (j : Nat) : State :=
  match tileRowEntry tbl st cfg j with
  | none => s
  | some e =>
    let fmt := tileRowFormat s c st cfg e
    let sc := tileSidecar s c st cfg
    let (bad, special) := sidecarFaults (tileRowBytes s c cfg fmt sc j) fmt cfg.kTotal sc
    let act := (tileRowAct st cfg j).1
    let lvl := latchLevel s c.pr e.handle cfg.layer
    let s1 := if special = 0 then s else countSaturated s c.pr.pitch e.handle cfg.layer special
    bad.foldl (fun s f => writeEvent s (srcCamp c.camp) 0x04 0x0502 c.pr.pitch
      (qualityDetail e.handle cfg.layer lvl fmt (positionAt e act) f)) s1

/-- Note the sidecars of every row. -/
def noteRows (c : Ctx) (st : Stream) (cfg : TileCfg) (tbl : LengthTable) : List Nat → State → State
  | [], s => s
  | j :: t, s => noteRows c st cfg tbl t (noteSidecars s c st cfg tbl j)

/-- The attention rows of a tile, by row number. -/
def attnRowAt (s : State) (c : Ctx) (st : Stream) (cfg : TileCfg) (tbl : LengthTable) (j : Nat) : Option AttnRow :=
  (tileRowEntry tbl st cfg j).map fun e =>
    let fmt := tileRowFormat s c st cfg e
    ⟨e, (tileRowAct st cfg j).1, (tileRowAct st cfg j).2, tileRowBytes s c cfg fmt false j, decide (fmt = 2)⟩

/-- The chunks that a tile's slice meets: those of its eight columns in a score product, those of its key positions in a value product. -/
def tileChunks (d : MultDesc) (keys : List KeyRef) (col0 : Nat) (ks : List Nat) : List Nat :=
  ((if d.product = 1 then (List.range 8).map (· + col0) else ks).filterMap fun i => (keys[i]?).map (·.chunk)).dedup

/-- The query positions of a TILE's rows. -/
def tileQueries (c : Ctx) (st : Stream) (cfg : TileCfg) (tbl : LengthTable) : List Nat :=
  (List.range (tileRows c.w)).filterMap fun j => (tileRowEntry tbl st cfg j).map fun e => positionAt e (tileRowAct st cfg j).1

/-- Chunk i is read for the queries of a TILE: the (query, key) tile of one of them reads page data (R187, R188). A chunk lies in one key
tile. -/
def chunkReadBy (m : Option MaskDesc) (qs : List Nat) (d : MultDesc) (i : Nat) : Bool :=
  match d.chunks[i]? with
  | some x => qs.any fun q => tileReads m q x.2.1
  | none => false

/-- Read one row of an attention tile and form the terms of its eight columns (R177 to R181); `qs` are the query positions of the TILE. -/
def readAttn (s : State) (c : Ctx) (cfg : TileCfg) (d : MultDesc) (keys : List KeyRef) (qs : List Nat) (col0 : Nat) (act : Nat)
    (a : Option AttnRow) : RowRead × List (List Term) :=
  match a with
  | none => (emptyRow act, [])
  | some a =>
    let ks := sliceRange c.w cfg
    let cs := (tileChunks d keys col0 ks).filter (chunkReadBy (rowMask s c.pr a.entry) qs d)
    let w := ((cs.filterMap fun i => (d.chunks[i]?).map fun x => multBits (decide (d.product = 1)) x.2.2.2)).foldl max 0
    let es := attnExps s c.pr d a a.two cfg.kTotal keys cs
    let unit := eLow es ((if a.two then 8 else 16) - (w : Int))
    let rr : RowRead := ⟨a.act, some a.entry.handle, positionAt a.entry a.act, a.entry.stream, a.head, unit, []⟩
    (rr, attnTerms s (seedOf c.pr) cfg.layer (fld c.w 49 42) d a (rowMask s c.pr a.entry) cfg.kTotal keys col0 rr ks)

/-- A tile before its first run. -/
def freshTile (w : CmdWord) (layer : Nat) (src : Option TileSource) (rows : List RowRead) (elems : List Elem)
    (mark : Option WeightMark) (slots : List (List DecodedSlot)) : TileRun where
  base := fld w 41 39
  wide := flag w 37
  height := tileRows w
  mode := fld w 34 32
  layer := layer
  op := fld w 49 42
  src := src
  rows := rows
  elems := elems
  run := 0
  wideRerun := false
  half := 0
  state := .running
  discards := 0
  lastMis := []
  mark := mark
  mis := []
  slots := slots
  coming := []
  decoded := []
  plan := []
  feed := []

/-- Elements from the column terms of each row; `shown` says of which visible pair a row and column hold the score. -/
def elemsFrom (shown : Nat → Nat → Option (Nat × Nat)) (rows : List (List (List Term))) : List Elem :=
  (rows.zipIdx.map fun x => (List.range 8).map fun c => (⟨x.2, c, shown x.2 c, 0, false, false, 0, x.1.getD c []⟩ : Elem)).flatten

/-- An uncorrectable weight word among findings, with its mark's code: 0 for one of the working copy (R252), 1 for one of the weight-stream
buffer (R243). -/
def findingWord : List Finding → Option (Nat × Nat)
  | [] => none
  | .hbmBad da _ .weights _ :: _ => some (da, 0)
  | .larderWeightBuffer _ word :: _ => some (word, 1)
  | _ :: l => findingWord l

/-- A page whose hot copy a tile must wait for: it has a warm copy (R225, R252). -/
def findingPage (s : State) (p : Nat) : List Finding → Option Nat
  | [] => none
  | .hbmBad _ _ (.page pitch page) _ :: l =>
    if pitch = p ∧ (pageOf s p page).state = .both then some page else findingPage s p l
  | _ :: l => findingPage s p l

/-- The tile of the core of rank q in modes 0 to 4. -/
def linearTile (s : State) (c : Ctx) (cfg : TileCfg) (t : LoadedTensor) (fr rc : Nat) (rows : List RowRead) (found : List Finding) (q : Nat) : TileRun :=
  let src : TileSource := ⟨t, fr, rc, flag c.w 38, fld c.w 111 88 + q * fld c.w 127 112, cfg.k0, orMax (fld c.w 87 64)⟩
  let x := readWeights s c.pr src (findingWord found)
  freshTile c.w cfg.layer (some src) rows (elemsOf (seedOf c.pr) cfg.layer (fld c.w 49 42) rows x.weights) x.mark x.slots

/-! ### Weight gradients (R68, R96, R97, R292; DESIGN CHOICE: notes/assumptions/22.md) -/

/-- The multiplier element of a token at an input feature: the layer's A8 or A4 input at its position. No rule says where the device keeps
it, so its code and block exponent are free values of the token's coordinates. -/
def inputElem (layer w : Nat) (e : TableRow) (pos feature : Nat) : MultElem :=
  ⟨signed w ((Config.inputCode e.stream pos layer feature).toNat % 2 ^ w), (Config.inputExp e.stream pos layer (feature / 32)).toNat⟩

/-- Bits of the layer's input: A4 or A8 by the pitch's activation format (R97, R365). -/
def inputBits (r : PitchRecord) : Nat := if r.profile.activation = 0 then 4 else 8

/-- The code and the exponent of token k in a gradient row: a G8 code, or a two-byte one whose high and low halves lie apart as in an A16
row (R177), and the token's own exponent byte (R97). -/
def gradientCode (row : List Byte) (two : Bool) (kTotal k : Nat) : Int × Nat :=
  if two then (signed 8 (leAt row k 1) * 256 + (leAt row (kTotal + k) 1 : Nat), leAt row (2 * kTotal + k) 1)
  else (signed 8 (leAt row k 1), leAt row (kTotal + k) 1)

/-- The tile row of output feature `n` of a weight gradient, and the terms of its eight columns: the reduction runs over the tokens of the
step, the operand at token k is the code of the row at position k, and the multiplier that token's input at the column's feature. e_hi and
e_min are taken over the tile's own eight columns, and its rows belong to no sequence (DESIGN CHOICE: notes/assumptions/22.md). -/
def readGradient (s : State) (c : Ctx) (cfg : TileCfg) (tbl : LengthTable) (col0 j : Nat) : RowRead × List (List Term) :=
  let n := cfg.firstAct + j
  let two := decide (fld c.w 34 32 = 6)
  let row := spRead (coreOf (campOf s c.camp) (lowCore c.w)) cfg.task (tileRowOffset c cfg j) (gradientBytes two cfg.kTotal)
  let w := inputBits c.pr
  let code (k : Nat) : Int × Nat := gradientCode row two cfg.kTotal k
  let elems (e : TableRow) (k : Nat) : List MultElem := (List.range 8).map fun i => inputElem cfg.layer w e (positionAt e k) (col0 + i)
  let es := ((List.range (min tbl.tokens cfg.kTotal)).map fun k => match rowAt tbl k with
    | none => []
    | some e => if (code k).2 = 0 then [] else
        ((elems e k).filter fun m => decide (m.exp ≠ 0)).map fun m => ((code k).2 : Int) + m.exp).flatten
  let unit := eLow es ((if two then 8 else 16) - (w : Int))
  let rr : RowRead := { emptyRow n with unit := unit }
  (rr, (sliceRange c.w cfg).foldr (fun k acc => match rowAt tbl k with
    | none => acc
    | some e =>
      let pos := positionAt e k
      if (code k).2 = 0 then acc
      else joinCols (partTerms (seedOf c.pr) cfg.layer (fld c.w 49 42) unit ⟨pos, n, e.stream, 0, some (e.handle, pos, k)⟩
        ⟨k, (code k).1, (code k).2, if two then .a16 else .a8⟩ w ((elems e k).map some)) acc) [])

/-- The tile of the core of rank q in a weight gradient. -/
def gradientTile (s : State) (c : Ctx) (cfg : TileCfg) (tbl : LengthTable) (q : Nat) : TileRun :=
  let rows := (List.range (tileRows c.w)).map (readGradient s c cfg tbl (fld c.w 111 88 + q * fld c.w 127 112))
  freshTile c.w cfg.layer none (rows.map (·.1)) (elemsFrom (fun _ _ => none) (rows.map (·.2))) none []

/-- The score of tile row j and key index n, where it is that of a visible pair: KV head and key position (R188, R189, R192). -/
def scoreShown (s : State) (c : Ctx) (st : Stream) (cfg : TileCfg) (d : MultDesc) (tbl : LengthTable) (keys : List KeyRef) (j n : Nat) :
    Option (Nat × Nat) :=
  match tileRowEntry tbl st cfg j, keys[n]? with
  | some e, some k =>
    if d.product = 1 ∧ pairVisible (rowMask s c.pr e) e (positionAt e (tileRowAct st cfg j).1) k.pos then some (d.kvHead, k.pos) else none
  | _, _ => none

/-- The tile of the core of rank q in an attention product. -/
def attnTile (s : State) (c : Ctx) (st : Stream) (cfg : TileCfg) (d : MultDesc) (tbl : LengthTable) (keys : List KeyRef) (q : Nat) : TileRun :=
  let col0 := fld c.w 111 88 + q * fld c.w 127 112
  let rows := (List.range (tileRows c.w)).map fun j =>
    readAttn s c cfg d keys (tileQueries c st cfg tbl) col0 (tileRowAct st cfg j).1 (attnRowAt s c st cfg tbl j)
  let shown (j i : Nat) : Option (Nat × Nat) := scoreShown s c st cfg d tbl keys j (col0 + i)
  freshTile c.w cfg.layer none (rows.map (·.1)) (elemsFrom shown (rows.map (·.2))) none []

/-- Drop the tiles of a core that share a slot with a new one (R131). -/
def dropTiles (k : Core) (span : Nat × Nat) : Core :=
  { k with tiles := k.tiles.filter fun t => !spansMeet span (tileSpan t.base t.wide t.height) }

/-- Issue a tile to a core: phase 1 of R89. A tile that waits for a page starts when the page has been fetched again. -/
def issueTile (k : Core) (t : TileRun) (page : Option Nat) : Core :=
  let k1 := dropTiles k (tileSpan t.base t.wide t.height)
  match page with
  | none => beginRun k1 t
  | some n => putTile k1 { t with state := .awaitingPage n }

/-- What R80 counts of a tile: token and reduction position of each pre-shifted product. A position whose weight is zero, or whose multiplier
has no plane set, in every column has no product and is not counted (DESIGN CHOICE: notes/assumptions/22.md). -/
def preshifts (t : TileRun) : List (Nat × Nat × Nat) :=
  (t.elems.map fun e => (e.terms.filter fun x => decide (x.pre ≠ 0)).filterMap (·.charge)).flatten

/-- Count pre-shifted positions: each once per token, layer, operation and reduction position (R80, R87). -/
def countPre (p layer op : Nat) : List (Nat × Nat × Nat) → State → State
  | [], s => s
  | (h, pos, k) :: t, s =>
    if (pitchOf s p).preshifted.contains (h, pos, layer, op, k) then countPre p layer op t s
    else
      countPre p layer op t (countPreshift (onPitch s p fun x => { x with preshifted := x.preshifted ++ [(h, pos, layer, op, k)] }) p h layer 1)

/-- Issue tiles to the cores of a list of (core, rank, tile). -/
def issueTiles (c : Ctx) (page : Option Nat) : List (Nat × TileRun) → State → State
  | [], s => s
  | (core, t) :: l, s =>
    issueTiles c page l (countPre c.pr.pitch t.layer t.op (preshifts t) (onCore s c.camp core fun k => issueTile k t page))

/-- KV_NONFINITE and the count of non-finite elements of a chunk (R179, R201): one record per chunk, the first time that a product of the step
reads it for a sequence, layer, KV head and K or V (DESIGN CHOICE: notes/assumptions/20.md). -/
def noteChunk (c : Ctx) (d : MultDesc) (h first n : Nat) (s : State) : State :=
  let which := if d.product = 1 then 0 else 1
  if n = 0 ∨ (pitchOf s c.pr.pitch).kvNoted.contains (h, d.layer, d.kvHead, which, first) then s
  else
    let s1 := onPitch s c.pr.pitch fun x => { x with kvNoted := x.kvNoted ++ [(h, d.layer, d.kvHead, which, first)] }
    let s2 := writeEvent s1 (srcCamp c.camp) 0x04 0x0201 c.pr.pitch
      (leBytes 4 h ++ leBytes 2 d.layer ++ leBytes 1 d.kvHead ++ leBytes 1 which ++ leBytes 4 first ++ leBytes 2 n)
    countSaturated s2 c.pr.pitch h d.layer n

/-- Note the chunks of a list that a tile's slices read. -/
def noteChunks (c : Ctx) (d : MultDesc) (e : TableRow) (keys : List KeyRef) (live : KeyRef → Bool) : List Nat → State → State
  | [], s => s
  | i :: t, s =>
    let first := ((d.chunks[i]?).map (·.2.1)).getD 0
    noteChunks c d e keys live t (noteChunk c d e.handle first (chunkNonfinite s d keys i live) s)

/-- The chunks that the tiles of a TILE read: those that its slices meet, where a key of the chunk is visible to the row and a (query, key)
tile of the TILE reads page data (R185, R188). `e` is the table entry of its first row with a token. -/
def chunksRead (s : State) (c : Ctx) (st : Stream) (cfg : TileCfg) (d : MultDesc) (tbl : LengthTable) (e : TableRow) (keys : List KeyRef)
    (cores : List Nat) : List Nat :=
  let m := rowMask s c.pr e
  let qs := tileQueries c st cfg tbl
  (((cores.zipIdx.map fun x => tileChunks d keys (fld c.w 111 88 + x.2 * fld c.w 127 112) (sliceRange c.w cfg)).flatten).dedup).filter fun i =>
    chunkReadBy m qs d i && (match d.chunks[i]? with
      | some x => chunkVisible m e x.2.1 x.2.2.1
      | none => false)

/-- The chunks that a product has bound: first position and tokens of each. -/
def boundChunks (d : MultDesc) : List (Nat × Nat) := d.chunks.map fun x => (x.2.1, x.2.2.1)

/-- The chunks of a row's list for a layer: first position and tokens of each (R183, R217); those that the camp has bound where no list of the
row has been written. -/
def listedChunks (s : State) (r : PitchRecord) (layer : Nat) (bound : List (Nat × Nat)) (seq : Nat) : List (Nat × Nat) :=
  match (pitchOf s r.pitch).chosen.find? fun x => decide (x.seq = seq ∧ x.layer = layer) with
  | none => bound
  | some x =>
    match x.list, x.splits.getLast? with
    | some a, some (_, n) => (parseChunks none n (peekBytes s (daOf s r a) (16 * n))).elim bound fun l => l.map fun y => (y.2.1, y.2.2.1)
    | _, _ => bound

/-- Tile row j of a score product is a query without a visible key (R198). -/
def blindRow (s : State) (c : Ctx) (st : Stream) (cfg : TileCfg) (d : MultDesc) (tbl : LengthTable) (j : Nat) : Option (Nat × Nat × Nat) :=
  match tileRowEntry tbl st cfg j with
  | none => none
  | some e =>
    let (act, head) := tileRowAct st cfg j
    let m := rowMask s c.pr e
    let q := positionAt e act
    if (listedChunks s c.pr d.layer (boundChunks d) (handleIndex e.handle)).any fun x => (List.range x.2).any fun i => pairVisible m e q (x.1 + i) then none
    else some (e.handle, head, q)

/-- Count one query whose merge gives 0.0: once in a step (R198, R300). -/
def countBlind (s : State) (p h layer kvHead head q : Nat) : State :=
  if (pitchOf s p).blindNoted.contains (h, layer, kvHead, head, q) then s
  else countZero (onPitch s p fun x => { x with blindNoted := x.blindNoted ++ [(h, layer, kvHead, head, q)] }) p h layer 1

/-- Count the queries of a score tile that no key answers, whose merge gives 0.0: each once in a step (R198, R300; DESIGN CHOICE:
notes/assumptions/20.md). -/
def noteBlind (c : Ctx) (st : Stream) (cfg : TileCfg) (d : MultDesc) (tbl : LengthTable) : List Nat → State → State
  | [], s => s
  | j :: t, s =>
    noteBlind c st cfg d tbl t (match blindRow s c st cfg d tbl j with
      | none => s
      | some (h, head, q) => countBlind s c.pr.pitch h d.layer d.kvHead head q)

/-- Form and issue the tiles of a TILE that nothing holds back. -/
def runTile (c : Ctx) (cores : List Nat) (st : Stream) (cfg : TileCfg) (tbl : LengthTable) (found : List Finding) (s : State) : State :=
  let js := List.range (tileRows c.w)
  match st with
  | .weights t fr rc =>
    if 5 ≤ fld c.w 34 32 then issueTiles c none (cores.zipIdx.map fun x => (x.1, gradientTile s c cfg tbl x.2)) (dropAhead c s)
    else
      let rows := js.map (readLinear s c st cfg tbl)
      let tiles := cores.zipIdx.map fun x => (x.1, linearTile s c cfg t fr rc rows found x.2)
      issueTiles c none tiles (noteRows c st cfg tbl js (dropAhead c s))
  | .chunks d =>
    let keys := keysOf s c.pr d
    let tiles := cores.zipIdx.map fun x => (x.1, attnTile s c st cfg d tbl keys x.2)
    let s1 := match js.findSome? (tileRowEntry tbl st cfg) with
      | none => s
      | some e => noteChunks c d e keys (keyLive (rowMask s c.pr e) e d) (chunksRead s c st cfg d tbl e keys cores) s
    let s2 := if d.product = 1 then noteBlind c st cfg d tbl js s1 else s1
    issueTiles c (findingPage s c.pr.pitch found) tiles s2

/-- The chunks that a TILE reads for its first row with a token: data address, offset of the rows of the KV head and their length (R183, R188,
R202). -/
def chunkReads (s : State) (c : Ctx) (st : Stream) (cfg : TileCfg) (d : MultDesc) (tbl : LengthTable) (cores : List Nat) :
    List (Nat × Nat × Nat) :=
  let keys := keysOf s c.pr d
  let off := if d.product = 1 then keyRowOffset else valueRowOffset
  match (List.range (tileRows c.w)).findSome? (tileRowEntry tbl st cfg) with
  | none => []
  | some e =>
    ((chunksRead s c st cfg d tbl e keys cores).filterMap fun i => d.chunks[i]?).map fun x =>
      let a := off x.2.2.2 d.headDim d.kvHead 0
      (x.1, a, off x.2.2.2 d.headDim d.kvHead x.2.2.1 - a)

/-- The payload ranges of the chunks that a TILE reads. -/
def chunkRanges (s : State) (c : Ctx) (st : Stream) (cfg : TileCfg) (d : MultDesc) (tbl : LengthTable) (cores : List Nat) : List (Nat × Nat) :=
  (chunkReads s c st cfg d tbl cores).map fun x => (chunkDa s c.pr x.1 + x.2.1, x.2.2)

/-- A chunk that a TILE reads lies out of its segment's bound (R369, R380): its data address is a pitch address. -/
def chunkFault (s : State) (c : Ctx) (st : Stream) (cfg : TileCfg) (tbl : LengthTable) (cores : List Nat) : Option CampFault :=
  match st with
  | .weights _ _ _ => none
  | .chunks d => (chunkReads s c st cfg d tbl cores).findSome? fun x =>
    addressFault s c.pr (lowCore c.w) x.1 ((if isStaging s c.pr.pitch x.1 then 64 else 0) + x.2.1 + x.2.2) false

/-- The mask descriptor of a table entry lies out of its segment's bound (R187, R369). -/
def maskFault (s : State) (c : Ctx) (st : Stream) (cfg : TileCfg) (tbl : LengthTable) : Option CampFault :=
  let get (e : TableRow) : Option CampFault :=
    match addressFault s c.pr (lowCore c.w) e.mask 32 false with
    | some f => some f
    | none => addressFault s c.pr (lowCore c.w) e.mask (maskBytes (peekBytes s (daOf s c.pr e.mask) 32)) false
  match st with
  | .weights _ _ _ => none
  | .chunks _ => ((List.range (tileRows c.w)).filterMap (tileRowEntry tbl st cfg)).findSome? fun e => if bitOf e.flags 2 then get e else none

/-- The stored rows of a weight stream that a TILE reads, by pitch address. -/
def tileStreams (w : CmdWord) (cfg : TileCfg) (t : LoadedTensor) (first count : Nat) : List (Nat × Nat) :=
  (List.range (cmdCores w).length).filterMap fun q =>
    let (a, b) := tileRowRange w cfg first count t.rows q
    if a < b then some (t.address + 32 + rowOffset t a, rowOffset t b - rowOffset t a) else none

/-- The ranges of device memory that a TILE reads; weight rows that a run-ahead read has brought are not read again (R170). -/
def tileReadRanges (s : State) (c : Ctx) (cores : List Nat) (st : Stream) (cfg : TileCfg) (tbl : LengthTable) : List (Nat × Nat) :=
  match st with
  | .weights t fr rc =>
    if 5 ≤ fld c.w 34 32 then []
    else if (codedAt s c.pr.pitch t.address).isSome then
      ((tileStreams c.w cfg t fr rc).map fun x => streamRanges s c.pr x.1 x.2).flatten
    else (tileRanges s c.pr c.w cfg t fr rc).filter fun x => (aheadFor c s x.1 x.2).isNone
  | .chunks d => chunkRanges s c st cfg d tbl cores

/-- The reads of a TILE that pass a coded region on their way to the weight-stream buffer (R275). -/
def streamsOf (c : Ctx) (st : Stream) (cfg : TileCfg) : List (Nat × Nat) :=
  match st with
  | .weights t fr rc => if 5 ≤ fld c.w 34 32 then [] else tileStreams c.w cfg t fr rc
  | .chunks _ => []

/-- TILE (R84, R149, R150, opcode 0x0C). -/
def doTile (found : List Finding) (c : Ctx) (s : State) : CmdRes :=
  let cm := campOf s c.camp
  coreCommand c.w [(127, 32)] (tileRule c.w) fun cores =>
    match cm.stream, cm.cfg with
    | some st, some cfg =>
      if cfg.kTotal < cfg.k0 + orMax (fld c.w 87 64) ∨ ¬modeFits (fld c.w 34 32) st then .fault (badField (lowCore c.w))
      else
        withTable c s (lowCore c.w) fun tbl =>
        unlessFault (tileRowFault s c st cfg tbl) <|
        unlessFault (maskFault s c st cfg tbl) <|
        unlessFault (chunkFault s c st cfg tbl cores) <|
        let span := tileSpan (fld c.w 41 39) (flag c.w 37) (tileRows c.w)
        if cores.any fun core => (coreOf cm core).tiles.any fun t =>
            decide (t.state ≠ .accepted) && spansMeet span (tileSpan t.base t.wide t.height) then .wait .join
        else access c s (tileReadRanges s c cores st cfg tbl) fun s0 => withTileFindings c (aheadNotes c s0 ++ found) s0 fun s2 =>
          withStream c (goldenPoison found) (streamsOf c st cfg) s2 fun s1 => .done (runTile c cores st cfg tbl found s1)
    | _, _ => .fault (badField (lowCore c.w))

/-- TILE. -/
def execCTile (camp : Nat) (w : CmdWord) (found : List Finding) (s : State) : Answer State :=
  runCommand s camp w (decide (cmdOpcode w = 0x0C)) (doTile found)

/-! ### LANE_PASS (R64 to R66, R70, R81, R88, R90) -/

/-- A partial sum lies within a 32-bit accumulator (R65, R81). -/
def fits32 (v : Int) : Bool := decide (-2147483648 ≤ v ∧ v ≤ 2147483647)

/-- Physical lane of a lane position (R92). -/
def physLane (k : Core) (lane : Nat) : Nat := mgetD k.laneMap lane lane

/-- One addition: acc := acc + σ × (op << sh), with its residue check (R64, R66, R90). `seen` is the observed residue where the residue tree
gives another one than that of the result. The flag says that the partial sum that ends a position overflowed (R65, R81). -/
def laneAdd (k : Core) (t : TileRun) (core lane slab mode : Nat) (x : LaneOp) (seen : Option Nat) : Core × TileRun × Bool :=
  let a := readAcc k.acc lane (accPlace t slab)
  let v := a.v + x.sigma * (x.op * 2 ^ x.sh)
  let predicted := res7 ((a.res : Int) + x.sigma * ((x.opRes : Int) * 2 ^ (x.sh % 3)))
  let observed := seen.getD (res7 v)
  let bad := decide (observed ≠ predicted) || decide (a.res = 7) || decide (x.opRes = 7)
  let t1 := if bad then { t with mis := t.mis ++ [⟨core, physLane k lane, mode, predicted, observed⟩] } else t
  ({ k with acc := writeAcc k.acc lane ⟨v, res7 v⟩ (accPlace t slab) }, t1, x.last && !t.wide && !t.wideRerun && !fits32 v)

/-- An element has overflowed: its remaining passes are dropped (R84). -/
def stopElem (k : Core) (t : TileRun) (lane slab : Nat) : Core :=
  let other (p : Pass) : Bool := !(decide (p.tile = tileKey t) && decide (p.slab = slab))
  let keep (x : Nat × Pass) : Bool := decide (x.1 ≠ lane) || other x.2
  let mark (e : Elem) : Elem := if elemLane e = lane ∧ e.row / 16 = slab then { e with overflowed := true } else e
  putQueue (putTile k { t with elems := t.elems.map mark, feed := t.feed.filter keep
                               plan := (t.plan.map fun x => (x.1, x.2.filter keep)).filter fun x => decide (x.2 ≠ []) })
    lane ((queueOf k lane).filter other)

/-- One lane step of a pass (R64, R70): its addition, then in dual A4 mode that of the odd position. The observed residue of the row is
that of the even position's addition (DESIGN CHOICE: notes/assumptions/22.md). -/
def passStep (k : Core) (t : TileRun) (core lane : Nat) (p : Pass) (seen : Option Nat) : Core :=
  let (k1, t1, ovf) := laneAdd k t core lane p.slab p.mode p.first seen
  if ovf then stopElem k1 t1 lane p.slab
  else
    match p.second with
    | none => putTile k1 t1
    | some x =>
      let (k2, t2, ovf2) := laneAdd k1 t1 core lane p.slab p.mode x none
      if ovf2 then stopElem k2 t2 lane p.slab else putTile k2 t2

/-- A lane takes the pass at the head of its queue, and the stages before it go on (R88). -/
def laneStep (k : Core) (core lane : Nat) (seen : Option Nat) : Core :=
  match queueOf k lane with
  | [] => k
  | p :: q =>
    let k1 := putQueue k lane q
    match k1.tiles.find? fun t => decide (tileKey t = p.tile) with
    | none => feedCore k1
    | some t => feedCore (passStep k1 t core lane p seen)

/-- LANE_PASS: a lane takes a pass from its operand queue; a lane whose queue is empty takes no step (R64). -/
def execLanePass (camp core lane : Nat) (observed : Option Nat) (s : State) : Answer State :=
  if campOk camp ∧ coreOk core ∧ lane < Config.lanes then
    if queueOf (coreOf (campOf s camp) core) lane = [] then .next s else .next (onCore s camp core fun k => laneStep k core lane observed)
  else .refused .noSuchUnit

/-! ### TILE_RUN_JOIN (R84, R85, R89, R91 to R94, R106) -/

/-- Every lane has drained the run (R89). -/
def drained (k : Core) (t : TileRun) : Bool :=
  decide (t.plan = [] ∧ t.feed = []) && k.queues.all fun q => q.2.all fun p => decide (p.tile ≠ tileKey t)

/-- Retire a core (R92): its record, and its camp is fenced (R457). -/
def retireCore (s : State) (camp core p : Nat) (m : Mismatch) : State :=
  let k := coreOf (campOf s camp) core
  let s1 := residueEvent s camp core p 0x0003 m (spareLanesLeft k)
  fenceCamp (onCore s1 camp core fun k => { k with retired := true }) camp core

/-- A run is discarded for residue mismatches (R91 to R93): it is repeated at the same levels, after a lane that mismatched again has been
mapped to a spare; a fourth discard, or a lane without a spare, retires the core. -/
def discardRun (s : State) (camp core p : Nat) (t : TileRun) : State :=
  let k := coreOf (campOf s camp) core
  match coreLoss core k t with
  | some m => retireCore s camp core p m
  | none =>
    let ms := misLanes t
    let s1 := if lanesDue t = [] then residueEvent s camp core p 0x0001 (ms.headD ⟨core, 0, 0, 0, 0⟩) (spareLanesLeft k)
      else retireLanes camp core p (lanesDue t) s
    onCore s1 camp core fun k => beginRun k { t with discards := t.discards + 1, lastMis := ms.map (·.unit) }

/-- Count elements of the tile in the rows' sequences (R87). -/
def countElems (f : State → Nat → Nat → Nat → Nat → State) (p : Nat) (t : TileRun) : List Elem → State → State
  | [], s => s
  | e :: l, s =>
    countElems f p t l (match (t.rows[e.row]?).bind (·.handle) with
      | none => s
      | some h => f s p h t.layer 1)

/-- The run is accepted: the vector engine may read the tile, and the waits on the join end (R89, R131). -/
def acceptTile (s : State) (camp core p : Nat) (t : TileRun) : State :=
  let s1 := countElems countWide p t (t.elems.filter fun e => decide (e.level = 4)) s
  let s2 := onCore s1 camp core fun k => putTile k { t with state := .accepted, elems := t.elems.map fun e => { e with done := true } }
  releaseBlocked s2 p fun r => decide (r = .join ∨ r = .fence)

/-- Begin the next run of a tile with the discard record cleared. -/
def nextRun (s : State) (camp core : Nat) (t : TileRun) : State := onCore s camp core fun k => beginRun k { t with discards := 0, lastMis := [] }

/-- The sums of a wide rerun's elements leave the accumulator file at the join. -/
def takeResults (k : Core) (t : TileRun) : TileRun :=
  { t with elems := t.elems.map fun e => if inRun t e then { e with result := (elemAcc k.acc t e).v } else e }

/-- The run has drained without a mismatch: it is accepted, replayed one level up, or the tile is rerun wide (R84, R85). The second half of a
tile of 128 rows takes the whole file, so the join of the first half keeps its sums, and the tile is delivered whole after the second
(DESIGN CHOICE: notes/assumptions/22.md). -/
def decideRun (s : State) (camp core p : Nat) (t : TileRun) : State :=
  if t.wideRerun then
    let t1 := takeResults (coreOf (campOf s camp) core) t
    if t.height = 128 ∧ t.half = 0 then nextRun s camp core { t1 with half := 1 } else acceptTile s camp core p t1
  else
    let ovf := t.elems.filter fun e => e.overflowed
    let s1 := countElems countReplays p t ovf s
    let t1 := { t with elems := t.elems.map fun e => if e.overflowed then { e with level := e.level + 1 } else { e with done := true } }
    if ovf = [] then acceptTile s1 camp core p t1
    else if t.run < 3 then nextRun s1 camp core { t1 with run := t.run + 1 }
    else
      nextRun s1 camp core { t1 with wideRerun := true, half := 0
                                     elems := t1.elems.map fun e => if e.done then e else { e with level := 4 } }

/-- Write the record of a weight format fault (R107, R108); an uncorrectable word has written its own. -/
def markEvent (s : State) (camp p : Nat) (m : WeightMark) (copy : Nat) : State :=
  if m.code ≤ 1 then s
  else writeEvent s (srcCamp camp) 0x03 m.code p (leBytes 8 m.da ++ leBytes 4 m.row ++ leBytes 1 m.bit ++ leBytes 1 copy)

/-- Decode the slice of a waiting tile again. -/
def reread (s : State) (r : PitchRecord) (t : TileRun) : TileRun :=
  match t.src with
  | none => t
  | some x =>
    let y := readWeights s r x none
    { t with
      mark := y.mark, slots := y.slots
      elems := t.elems.map fun e =>
        { e with terms := columnTerms (seedOf r) t.layer t.op (t.rows.getD e.row (emptyRow 0)) y.weights e.col } }

/-- Repeat every waiting run at its levels after the block has been written (R106, R243, R454). The runs of a shared region's block may be those of
several pitches. -/
def repeatRuns (r0 : PitchRecord) : List (Nat × Nat × TileRun) → State → State
  | [], s => s
  | (camp, core, t) :: l, s =>
    let r := ((homeOf s camp).map (·.1)).getD r0
    let t1 := reread s r t
    repeatRuns r0 l (countPre r.pitch t1.layer t1.op (preshifts t1) (onCore s camp core fun k => beginRun k t1))

/-- TILE_RUN_JOIN on a tile whose lanes have all reported. A run with a mark is discarded (R106): the block is fetched again from the golden copy,
or for a word of the weight-stream buffer from HBM, where it is at hand (R243). A residue mismatch of the same run is not followed (DESIGN CHOICE:
notes/assumptions/47.md). -/
def joinRun (s : State) (camp core : Nat) (r : PitchRecord) (t : TileRun) : State :=
  match t.mark with
  | some m =>
    if m.code = 1 then repeatRuns r [(camp, core, { t with elems := t.elems.map fun e => { e with overflowed := false } })] s
    else
      onCore (markEvent s camp r.pitch m 0) camp core fun k =>
        putTile k { t with state := .awaitingBlock m.block, mark := none, mis := [], elems := t.elems.map fun e => { e with overflowed := false } }
  | none => if t.mis = [] then decideRun s camp core r.pitch t else discardRun s camp core r.pitch t

/-- TILE_RUN_JOIN: it happens once every lane of the tile has completed or stopped every element of the run (R89). -/
def execTileRunJoin (camp core base : Nat) (wide : Bool) (s : State) : Answer State :=
  if campOk camp ∧ coreOk core then
    match homeOf s camp, tileAt (coreOf (campOf s camp) core) base wide with
    | some (r, _), some t => if t.state = .running ∧ drained (coreOf (campOf s camp) core) t then .next (joinRun s camp core r t) else .next s
    | _, _ => .next s
  else .refused .noSuchUnit

/-! ### WEIGHT_REFETCHED (R35, R106, R257, R454, R455) -/

/-- The tiles that wait for a block, of the camps of every pitch that references the region (R454): camp, core and tile. -/
def waitingFor (s : State) (p da : Nat) : List (Nat × Nat × TileRun) :=
  ((s.camps.filter fun c => (regionPitches s p).any fun q => campIn s q c.1).map fun c =>
    (c.2.cores.map fun k => (k.2.tiles.filter fun t => decide (t.state = .awaitingBlock da)).map fun t => (c.1, k.1, t)).flatten).flatten

/-- Refetch the block for the waiting tiles. -/
def refetchBlock (s : State) (r : PitchRecord) (da : Nat) (poison : Bool) (camp : Nat) (x : TileSource) (ws : List (Nat × Nat × TileRun)) : State :=
  let t := x.tensor
  let p := r.pitch
  let j := (da - payloadDa s r t) / 4096
  let n := min 4096 (t.payloadBytes - 4096 * j)
  let g := goldenOf s r t.address t.golden + 32 + 4096 * j
  let bs := peekBytes s g n
  if portWaits s g then s
  else if portGone s g then goldenFailed s p da t j
  else if poison ∨ crc32c bs ≠ t.crcs.getD j 0 then goldenFailed (cxlBad s p g) p da t j
  else
    let s1 := weightRefetchedEvent (dropBlock da (regionPitches s p) (pokeBytes s da bs)) p da
    match (ws.map fun w => reread s1 (((homeOf s1 w.1).map (·.1)).getD r) w.2.2).findSome? fun t => t.mark.filter fun m => decide (m.block = da) with
    | some m => goldenFailed (markEvent s1 camp p { m with da := m.da - da + g } 1) p da t j
    | none => repeatRuns r ws s1

/-- Refetch a block for which only runs of an abandoned step were waiting (R454, R459). -/
def refetchDue (s : State) (p da : Nat) (poison : Bool) : State :=
  match tensorHolding s da with
  | none => dropBlock da (regionPitches s p) s
  | some (r, t, j) => if portWaits s (goldenDa s r t + 4096 * j) then s else dropBlock da (regionPitches s p) (scrubWeights s da poison)

/-- WEIGHT_REFETCHED: the block at `da` has been read from the golden copy; nothing happens where no run waits for it. -/
def execWeightRefetched (pitch da : Nat) (poison : Bool) (s : State) : Answer State :=
  if pitchOk pitch then
    match recordOf s pitch with
    | none => .next s
    | some r =>
      let ws := waitingFor s pitch da
      match ws with
      | (camp, _, t) :: _ =>
        (match t.src with
        | some x => .next (refetchBlock s r da poison camp x ws)
        | none => .next s)
      | [] => .next (if Repair.block da ∈ (pitchOf s pitch).repairs then refetchDue s pitch da poison else s)
  else .refused .noSuchUnit

/-! ### TRED (R86, R173) -/

/-- The level by which an element's accumulator exceeds the row's base unit (R83). -/
def levelShift (level : Nat) : Nat := if level = 4 then 0 else level

/-- The partial of element (r, c) of a tile in the row's base unit (R83, R86). -/
def partialAt (k : Core) (t : TileRun) (e : Elem) : Int :=
  sumAt k t e * 2 ^ levelShift e.level

/-- Byte of the partial of core rank q in the slot (R173). -/
def partialByte (rows q : Nat) (e : Elem) : Nat := 8 * (q * rows * 8 + e.row * 8 + e.col)

/-- The sums of a core, by element: its own partials and those of the input slot. -/
def tredSums (k : Core) (t : TileRun) (slot : Option (List Byte)) (q : Nat) : List (Elem × Int) :=
  t.elems.map fun e =>
    let own := partialAt k t e
    match slot with
    | none => (e, own)
    | some bs => (e, own + signed 64 (leAt bs (partialByte t.height q e) 8))

/-- Write sums into a tile's own accumulators, in the row's base unit. -/
def tredIntoTile (k : Core) (t : TileRun) (sums : List (Elem × Int)) : Core :=
  let acc := sums.foldl (fun a x => writeAcc a (elemLane x.1) ⟨x.2, res7 x.2⟩ (accPlace t (x.1.row / 16))) k.acc
  putTile { k with acc := acc } { t with elems := sums.map fun x => { x.1 with level := 0, result := x.2 } }

/-- The bytes of the sums of a core in the order of the slot. -/
def tredBytes (sums : List (Elem × Int)) : List Byte := (sums.map fun x => leBytes 8 (unsignedOf 64 x.2)).flatten

/-- Apply the sums on every core. -/
def tredStore (c : Ctx) (base : Nat) (wide : Bool) (slot : Option (List Byte)) (cores : List Nat) (s : State) : State :=
  onCores s c.camp cores fun q _ k =>
    match tileAt k base wide with
    | none => k
    | some t => tredIntoTile k t (tredSums k t slot q)

/-- The output of a TRED: into the tiles, or into the output slot with a closing write. -/
def tredOut (found : List Finding) (c : Ctx) (cores : List Nat) (height : Nat) (slot : Option (List Byte)) (s : State) : CmdRes :=
  let base := fld c.w 56 54
  let wide := flag c.w 57
  if flag c.w 53 then withFindings c found s fun s1 => .done (tredStore c base wide slot cores s1)
  else
    let n := fld c.w 83 64 + c.slot
    withSlot s c n (lowCore c.w) fun x =>
      let get (q core : Nat) : List Byte := match tileAt (coreOf (campOf s c.camp) core) base wide with
        | none => []
        | some t => tredBytes (tredSums (coreOf (campOf s c.camp) core) t slot q)
      let bs := (cores.zipIdx.map fun y => get y.2 y.1).flatten
      unlessFault (slotFaults cores x n 0 (64 * height) (64 * height)) <|
      routed c x n <| writing c s x n (lowCore c.w) <|
      access c s [(slotDa s c.pr x, bs.length)] fun s0 => withFindings c found s0 fun s1 =>
      .done (putSlot (pokeBytes s1 (slotDa s1 c.pr x) bs) c.pr.pitch n (fillSlot x true))

/-- TRED (R149, R173, opcode 0x10): [51:32] input slot, [52] first, [53] last, [56:54] tile base, [57] tile wide, [83:64] output slot. -/
def doTred (found : List Finding) (c : Ctx) (s : State) : CmdRes :=
  let base := fld c.w 56 54
  let wide := flag c.w 57
  let cm := campOf s c.camp
  coreCommand c.w [(57, 32), (83, 64)] (!flag c.w 53 || wide) fun cores =>
    let tiles := cores.map fun core => tileAt (coreOf cm core) base wide
    let height := ((tiles.headD none).map (·.height)).getD 0
    if (tiles.any fun t => t.isNone) ∨ (tiles.any fun t => decide ((t.map (·.height)).getD 0 ≠ height)) then .fault (badField (lowCore c.w))
    else if tiles.any fun t => decide ((t.map (·.state)) ≠ some .accepted) then .wait .join
    else if flag c.w 52 then tredOut found c cores height none s
    else
      let n := fld c.w 51 32 + c.slot
      withSlot s c n (lowCore c.w) fun x =>
        unlessFault (slotFaults cores x n 0 (64 * height) (64 * height)) <|
        routed c x n <| reading c s x n <|
        access c s [(slotDa s c.pr x, 64 * height * cores.length)] fun s2 =>
        match tredOut found c cores height (some (peekBytes s2 (slotDa s2 c.pr x) x.size)) s2 with
        | .done s1 =>
          (match slotOf s1 c.pr n with
          | none => .done s1
          | some y => .done (putSlot s1 c.pr.pitch n (releaseSlot y c.rel)))
        | other => other

/-- TRED. -/
def execCTred (camp : Nat) (w : CmdWord) (found : List Finding) (s : State) : Answer State :=
  runCommand s camp w (decide (cmdOpcode w = 0x10)) (doTred found)

end Sys2Proof.Machine
end

