-- ==== Sys2Proof/Machine/Vector.lean ====
section
/-! DEFINITION. The vector engine (R121 to R145): the operation word, native arithmetic, accumulator reads, the requantisation buffer, the
function sequences, the residue check of its FMA units (R142), and the Lookout choice (R297). -/

namespace Sys2Proof.Machine

/-! ### The operation word (R123 to R125) -/

/-- The vector operation field of a VOP command (R149). -/
def vopWord (w : CmdWord) : Nat := fld w 63 32
/-- Its opcode. -/
def vopOp (w : CmdWord) : Nat := bitsOf (vopWord w) 5 0
/-- Its destination. -/
def vopD (w : CmdWord) : Nat := bitsOf (vopWord w) 8 6
/-- Its a field. -/
def vopA (w : CmdWord) : Nat := bitsOf (vopWord w) 12 9
/-- Its imm field. -/
def vopImm (w : CmdWord) : Nat := bitsOf (vopWord w) 31 24
/-- The repeat field (R149). -/
def vopRepeat (w : CmdWord) : Nat := fld w 79 64

/-- VECTOR_FAULT (R125, R168). -/
def vectorFault (w : CmdWord) : CampFault := progFault 0x0303 (lowCore w) 0

/-- A VOP of an operation that uses the imm bits of `mask` (R123, R125, R149). -/
def vopCommand (w : CmdWord) (mask : Nat) (k : List Nat → CmdRes) : CmdRes :=
  coreCommand w [(99, 32)] (decide (1 ≤ vopRepeat w)) fun cores =>
    if vopImm w &&& (255 - mask) ≠ 0 then .fault (vectorFault w) else k cores

/-- A row of the vector engine: a VOP word with the row's operation. -/
def runVop (s : State) (camp : Nat) (w : CmdWord) (op : Nat) (f : Ctx → State → CmdRes) : Answer State :=
  runCommand s camp w (decide (cmdOpcode w = 0x0D) && decide (vopOp w = op)) f

/-- A source: a tile register, or a scalar register for all elements (R121, R123). -/
def vopSource (k : Core) (n : Nat) : List Word := if n < 8 then tOf k n else List.replicate 128 (sOf k (n - 8))

/-- Source a with its modifiers: abs_a before neg_a (R123). -/
def sourceA (k : Core) (w : CmdWord) : List Word :=
  let v := vopWord w
  (vopSource k (vopA w)).map fun x =>
    let y := if bitOf v 22 then clearSign x else x
    if bitOf v 21 then flipSign y else y

/-- Source b with neg_b (R123). -/
def sourceB (k : Core) (w : CmdWord) : List Word :=
  let v := vopWord w
  (vopSource k (bitsOf v 16 13)).map fun x => if bitOf v 23 then flipSign x else x

/-- Source c (R123). -/
def sourceC (k : Core) (w : CmdWord) : List Word := vopSource k (bitsOf (vopWord w) 20 17)

/-- Apply a function n times. -/
def iterate {α : Type} (f : α → α) : Nat → α → α
  | 0, x => x
  | n + 1, x => iterate f n (f x)

/-- The operation on one core: every source is read before d is written (R126). -/
def elemStep (w : CmdWord) (f : Word → Word → Word → Word) (k : Core) : Core :=
  let a := sourceA k w
  let b := sourceB k w
  let c := sourceC k w
  setT k (vopD w) ((List.range 128).map fun i => f (a.getD i 0#32) (b.getD i 0#32) (c.getD i 0#32))

/-- Run a step on every core of the mask, repeat times (R149). -/
def vopRun (c : Ctx) (cores : List Nat) (f : Core → Core) (s : State) : State :=
  onCores s c.camp cores fun _ _ k => iterate f (vopRepeat c.w) k

/-- An elementwise operation without imm bits. -/
def doElem (f : Word → Word → Word → Word) (c : Ctx) (s : State) : CmdRes :=
  vopCommand c.w 0 fun cores => .done (vopRun c cores (elemStep c.w f) s)

/-! ### Residue mismatches of the FMA units (R142) -/

/-- The mismatch that a discarded command reports: that of the lowest-numbered unit. -/
def fmaReport (ms : List Mismatch) : Mismatch :=
  ((List.range 4).findSome? fun u => ms.find? fun m => decide (m.unit = u)).getD ⟨0, 0, 0, 0, 0⟩

/-- Retire cores of a camp. -/
def retireCores (camp : Nat) : List Nat → State → State
  | [], s => s
  | core :: l, s => retireCores camp l (onCore s camp core fun k => { k with retired := true })

/-- Discarded commands, oldest first, each with the mismatches of its FMA units: a record each; a unit that mismatches again, or a fourth
discard, retires the core. The flag says that a core has been retired. Every core with a unit that mismatches again is retired; the one
record names the core, unit and residues of one mismatch (DESIGN CHOICE: notes/assumptions/47.md). -/
def fmaDiscards (c : Ctx) : Nat → List (Nat × Nat) → List (List Mismatch) → State → State × Bool
  | _, _, [], s => (s, false)
  | n, seen, ms :: t, s =>
    if ms = [] then fmaDiscards c n seen t s
    else
      let again := ms.filter fun m => decide ((m.core, m.unit) ∈ seen)
      let m := fmaReport ms
      let spares (core : Nat) : Nat := spareLanesLeft (coreOf (campOf s c.camp) core)
      if again ≠ [] ∨ n + 1 = 4 then
        let core := if again = [] then m.core else (fmaReport again).core
        let s1 := residueEvent s c.camp core c.pr.pitch 0x0005 { m with unit := 0x80 + m.unit, mode := vopOp c.w } (spares core)
        (fenceCamp (retireCores c.camp (core :: again.map (·.core)) s1) c.camp core, true)
      else
        let s1 := residueEvent s c.camp m.core c.pr.pitch 0x0004 { m with unit := 0x80 + m.unit, mode := vopOp c.w } (spares m.core)
        fmaDiscards c (n + 1) (seen ++ ms.map fun m => (m.core, m.unit)) t s1

/-- A command that uses the FMA units: the discards that precede its completion, then its effect (R142). -/
def withFma (mis : List (List Mismatch)) (c : Ctx) (s : State) (k : State → CmdRes) : CmdRes :=
  match fmaDiscards c 0 [] mis s with
  | (s1, true) => .settled s1
  | (s1, false) => k s1

/-- An elementwise operation of the FMA units. -/
def doFmaElem (f : Word → Word → Word → Word) (mis : List (List Mismatch)) (c : Ctx) (s : State) : CmdRes :=
  vopCommand c.w 0 fun cores => withFma mis c s fun s1 => .done (vopRun c cores (elemStep c.w f) s1)

/-! ### Native operations (R124, R127 to R130) -/

/-- NOP. -/
def execVNop (camp : Nat) (w : CmdWord) (s : State) : Answer State :=
  runVop s camp w 0x00 fun c s => vopCommand c.w 0 fun _ => .done s

/-- ADD. -/
def execVAdd (camp : Nat) (w : CmdWord) (mis : List (List Mismatch)) (s : State) : Answer State :=
  runVop s camp w 0x01 (doFmaElem (fun a b _ => fpAdd a b) mis)

/-- MUL. -/
def execVMul (camp : Nat) (w : CmdWord) (mis : List (List Mismatch)) (s : State) : Answer State :=
  runVop s camp w 0x02 (doFmaElem (fun a b _ => fpMul a b) mis)

/-- FMA. -/
def execVFma (camp : Nat) (w : CmdWord) (mis : List (List Mismatch)) (s : State) : Answer State :=
  runVop s camp w 0x03 (doFmaElem fpFma mis)

/-- MIN. -/
def execVMin (camp : Nat) (w : CmdWord) (s : State) : Answer State := runVop s camp w 0x04 (doElem fun a b _ => fpMin a b)

/-- MAX. -/
def execVMax (camp : Nat) (w : CmdWord) (s : State) : Answer State := runVop s camp w 0x05 (doElem fun a b _ => fpMax a b)

/-- CMPEQ. -/
def execVCmpeq (camp : Nat) (w : CmdWord) (s : State) : Answer State := runVop s camp w 0x06 (doElem fun a b _ => maskOf (fpEq a b))

/-- CMPLT. -/
def execVCmplt (camp : Nat) (w : CmdWord) (s : State) : Answer State := runVop s camp w 0x07 (doElem fun a b _ => maskOf (fpLt a b))

/-- CMPLE. -/
def execVCmple (camp : Nat) (w : CmdWord) (s : State) : Answer State := runVop s camp w 0x08 (doElem fun a b _ => maskOf (fpLe a b))

/-- SEL: a where c has any bit set, otherwise b. -/
def execVSel (camp : Nat) (w : CmdWord) (s : State) : Answer State := runVop s camp w 0x09 (doElem fun a b c => if c = 0#32 then b else a)

/-- CVTFI. -/
def execVCvtfi (camp : Nat) (w : CmdWord) (s : State) : Answer State := runVop s camp w 0x0A (doElem fun a _ _ => cvtFI a)

/-- CVTIF. -/
def execVCvtif (camp : Nat) (w : CmdWord) (s : State) : Answer State := runVop s camp w 0x0B (doElem fun a _ _ => cvtIF a)

/-- CVTBF. -/
def execVCvtbf (camp : Nat) (w : CmdWord) (s : State) : Answer State := runVop s camp w 0x0C (doElem fun a _ _ => cvtBF a)

/-- EXPX. -/
def execVExpx (camp : Nat) (w : CmdWord) (s : State) : Answer State := runVop s camp w 0x0D (doElem fun a _ _ => expX a)

/-- EXPI. -/
def execVExpi (camp : Nat) (w : CmdWord) (s : State) : Answer State := runVop s camp w 0x0E (doElem fun a b _ => expI a b)

/-- SCALB. -/
def execVScalb (camp : Nat) (w : CmdWord) (s : State) : Answer State := runVop s camp w 0x0F (doElem fun a b _ => scalb a b)

/-- The elements of a group reduced in ascending order (R130). -/
def groupFold (f : Word → Word → Word) : List Word → Word
  | [] => 0#32
  | x :: t => t.foldl f x

/-- A group operation: 8 or 16 consecutive elements by imm[0]; the result goes to every element of its group (R130). -/
def groupStep (w : CmdWord) (f : Word → Word → Word) (k : Core) : Core :=
  let n := if bitOf (vopImm w) 0 then 16 else 8
  let a := sourceA k w
  setT k (vopD w) (((List.range (128 / n)).map fun g => List.replicate n (groupFold f ((a.drop (n * g)).take n))).flatten)

/-- SUMG (R130). -/
def execVSumg (camp : Nat) (w : CmdWord) (mis : List (List Mismatch)) (s : State) : Answer State :=
  runVop s camp w 0x10 fun c s => vopCommand c.w 1 fun cores =>
    withFma mis c s fun s1 => .done (vopRun c cores (groupStep c.w fpAdd) s1)

/-- MAXG (R128, R130). -/
def execVMaxg (camp : Nat) (w : CmdWord) (s : State) : Answer State :=
  runVop s camp w 0x11 fun c s => vopCommand c.w 1 fun cores => .done (vopRun c cores (groupStep c.w fpMax) s)

/-! ### Accumulator reads (R131 to R133) -/

/-- Tile base slot of a VOP (R149). -/
def vopBase (w : CmdWord) : Nat := fld w 98 96
/-- Tile wide flag of a VOP (R149). -/
def vopWide (w : CmdWord) : Bool := flag w 99
/-- The slab that imm[2:0] selects (R131). -/
def vopSlab (w : CmdWord) : Nat := bitsOf (vopImm w) 2 0

/-- The accumulator of lane i of a slab with its unit exponent u (R83, R131, R132); the accumulator of a row that took no pass is zero. -/
def accRead (k : Core) (t : TileRun) (slab i : Nat) : Int × Int :=
  let row := 16 * slab + i / 8
  let bias : Int := if 5 ≤ t.mode then 254 else 127
  let rr := t.rows.getD row (emptyRow 0)
  match t.elems[8 * row + i % 8]? with
  | none => (0, 0)
  | some e => (sumAt k t e, rr.unit + (levelShift e.level : Nat) - bias)

/-- LDACC of one element: the exact product rounded once, with the sign of a zero (R132). Where the accumulator is negative and m is a zero
its sign enters, as IEEE 754 gives a product (DESIGN CHOICE: notes/assumptions/22.md). -/
def ldacc (a u : Int) (m : Word) : Word :=
  if isNaN m then qNaN
  else if isInf m then (if a = 0 then qNaN else infOf (decide (a < 0) != fpNeg m))
  else
    let p := dyMul ⟨a, u⟩ (fpDy m)
    if p.m = 0 then zeroOf (if a = 0 then fpNeg m else decide (a < 0) != fpNeg m) else rne32 p

/-- LDACCA of one element (R133); the sign of a zero product as for LDACC. -/
def ldacca (a u : Int) (m b : Word) : Word :=
  let neg := if a = 0 then fpNeg m else decide (a < 0) != fpNeg m
  if isNaN m || isNaN b then qNaN
  else if isInf m then
    (if a = 0 then qNaN else if isInf b && (fpNeg b != neg) then qNaN else infOf neg)
  else if isInf b then b
  else addExact (dyMul ⟨a, u⟩ (fpDy m)) neg b

/-- LDACCM of one element (R133); the sign of a zero result as for LDACC, with that of b. -/
def ldaccm (a u : Int) (m b : Word) : Word :=
  let neg := ((if a = 0 then false else decide (a < 0)) != fpNeg m) != fpNeg b
  if isNaN m || isNaN b then qNaN
  else if isInf m || isInf b then (if a = 0 ∨ isZero m ∨ isZero b then qNaN else infOf neg)
  else
    let p := dyMul (dyMul ⟨a, u⟩ (fpDy m)) (fpDy b)
    if p.m = 0 then zeroOf neg else rne32 p

/-- The operations that read a tile: a fault where a core names no tile or a slab outside it, a wait until the tile is accepted
(R125, R131). -/
def withTiles (c : Ctx) (s : State) (cores : List Nat) (k : CmdRes) : CmdRes :=
  let cm := campOf s c.camp
  let tiles := cores.map fun core => (core, tileAt (coreOf cm core) (vopBase c.w) (vopWide c.w))
  match tiles.find? fun t => decide (((t.2.map (·.height)).getD 0) ≤ 16 * vopSlab c.w) with
  | some (core, _) => .fault (progFault 0x0303 core 0)
  | none => if tiles.any fun t => decide (t.2.map (·.state) ≠ some .accepted) then .wait .join else k

/-- One accumulator read into register d. -/
def accStep (w : CmdWord) (f : Int → Int → Word → Word → Word) (k : Core) : Core :=
  match tileAt k (vopBase w) (vopWide w) with
  | none => k
  | some t =>
    let a := sourceA k w
    let b := sourceB k w
    setT k (vopD w) ((List.range 128).map fun i =>
      let r := accRead k t (vopSlab w) i
      f r.1 r.2 (a.getD i 0#32) (b.getD i 0#32))

/-- A score that R192 counts: a NaN, or a value outside −2^24..2^24. -/
def badScore (v : Word) : Bool := isNaN v || isInf v || dyLt (dyInt (2 ^ 24)) (dyAbs (fpDy v))

/-- The NaN and clamped scores of visible pairs in a slab that has been read, row by row, for the rows' sequences (R192, R300). The score is the
value that the read of a score tile delivers (DESIGN CHOICE: notes/assumptions/20.md). -/
def countScores (p : Nat) (t : TileRun) (slab : Nat) (vs : List Word) : List Nat → State → State
  | [], s => s
  | r :: l, s =>
    let row := 16 * slab + r
    let bad := ((List.range 8).filter fun c => ((t.elems[8 * row + c]?).bind (·.score)).isSome && badScore (vs.getD (8 * r + c) 0#32)).length
    countScores p t slab vs l (match bad, (t.rows[row]?).bind (·.handle) with
      | 0, _ => s
      | _, none => s
      | n + 1, some h => countSaturated s p h t.layer (n + 1))

/-- The length-table entry of a sequence in the step at hand (R185). -/
def stepEntry (s : State) (r : PitchRecord) (h : Nat) : Option TableRow :=
  (pitchOf s r.pitch).tableSlot.bind fun n => (slotOf s r n).bind fun x =>
    (parseTable (peekBytes s (slotDa s r x) x.size)).rows.find? fun e => decide (e.handle = h)

/-- The visible pairs of a row whose scores have been read as NaN: KV head and key position (R192). -/
def nanPairs (t : TileRun) (row r : Nat) (vs : List Word) : List (Nat × Nat) :=
  (List.range 8).filterMap fun c => ((t.elems[8 * row + c]?).bind (·.score)).filter fun _ => isNaN (vs.getD (8 * r + c) 0#32)

/-- Every visible key of a query has a NaN score, which R192 hides, so that its merge gives 0.0 (R198). -/
def allNaN (s : State) (r : PitchRecord) (layer : Nat) (bound : List (Nat × Nat)) (e : TableRow) (kvHead head q : Nat) : Bool :=
  let m := rowMask s r e
  (listedChunks s r layer bound (handleIndex e.handle)).all fun x => (List.range x.2).all fun i =>
    !pairVisible m e q (x.1 + i) || (pitchOf s r.pitch).nanScores.contains (e.handle, layer, kvHead, head, q, x.1 + i)

/-- Note the NaN scores of a slab that has been read, row by row, and count the queries that have no other visible key (R198; DESIGN CHOICE:
notes/assumptions/20.md). -/
def noteNaN (r : PitchRecord) (t : TileRun) (slab : Nat) (vs : List Word) (bound : List (Nat × Nat)) : List Nat → State → State
  | [], s => s
  | j :: l, s =>
    let row := 16 * slab + j
    let rr := t.rows.getD row (emptyRow 0)
    noteNaN r t slab vs bound l (match nanPairs t row j vs, rr.handle.bind (stepEntry s r) with
      | (kv, k) :: ks, some e =>
        let s1 := onPitch s r.pitch fun y => { y with
          nanScores := y.nanScores ++ ((kv, k) :: ks).map fun x => (e.handle, t.layer, x.1, rr.sub, rr.pos, x.2) }
        if allNaN s1 r t.layer bound e kv rr.sub rr.pos then countBlind s1 r.pitch e.handle t.layer kv rr.sub rr.pos else s1
      | _, _ => s)

/-! ### The Lookout choice (R296 to R298) -/

/-- Operations listed in a layer's quality record (R296): their count and numbers. -/
def qualityOps (q : List Byte) : List Nat := (List.range (leAt q 6 1)).map fun i => leAt q (8 + i) 1

/-- Whether the step of a sequence is sampled at a layer, with the chosen operation and column tile (R297). -/
def lookoutChoice (s : State) (r : PitchRecord) (i layer : Nat) : Option (Nat × Nat) :=
  let q := r.profile.quality
  let e := seqOf s i
  match layerImage s r.pitch layer with
  | none => none
  | some l =>
    let ops := qualityOps l.quality
    if q.reference ∨ q.lookoutLog2 = 0 ∨ ops = [] then none
    else
      let g := genP (blockOf (seedOf r)) (counterBlock e.step 0 e.streamId layer 0 0 2)
      if g.x0 % 2 ^ q.lookoutLog2 ≠ 0 then none
      else
        let k := g.x1 % ops.length
        let tiles := l.columnTiles.getD k 0
        if tiles = 0 then none else some (ops.getD k 0, g.x2 % tiles)

/-- The operand of every linear operation of a row at a layer is A16 already, so that no sample is taken (R297, R305). -/
def rowIsA16 (s : State) (r : PitchRecord) (h layer : Nat) : Bool := decide (2 ≤ r.profile.activation + latchLevel s r h layer)

/-- The operation and column tile at which the token of an activation row is sampled: the first new token of its sequence (R297). -/
def sampledAt (s : State) (r : PitchRecord) (h act layer : Nat) : Option (Nat × Nat) :=
  let i := handleIndex h
  if seqLive s h ∧ rowIsA16 s r h layer = false ∧ ((pitchOf s r.pitch).batch.any fun m => decide (m.seq = i ∧ m.tokenBase = act)) then
    lookoutChoice s r i layer
  else none

/-- What LDACC reads of the sampled column tile of a sampled token: y_c of the tile's own run, w_c of its run in mode 2 or 4 (R298). Which tile is
the c-th column tile of an operation: notes/assumptions/25.md (DEDUCED). -/
def noteLookout (r : PitchRecord) (t : TileRun) (slab : Nat) (vs : List Word) : List Nat → State → State
  | [], s => s
  | j :: l, s =>
    let rr := t.rows.getD (16 * slab + j) (emptyRow 0)
    noteLookout r t slab vs l (match t.src, rr.handle with
      | some x, some h =>
        (match sampledAt s r h rr.act t.layer with
        | some (op, tile) =>
          if op = t.op ∧ x.transposed = false ∧ 8 * tile = x.firstRow + x.col0 then
            onPitch s r.pitch fun y => { y with
              lookoutRead := y.lookoutRead ++ [(handleIndex h, t.layer, decide (t.mode = 2 ∨ t.mode = 4), (vs.drop (8 * j)).take 8)] }
          else s
        | none => s)
      | _, _ => s)

/-- The chunks of the score product that a camp has bound for a layer. -/
def scoreBound (s : State) (c : Ctx) (layer : Nat) : List (Nat × Nat) :=
  match (campOf s c.camp).stream with
  | some (.chunks d) => if d.product = 1 ∧ d.layer = layer then boundChunks d else []
  | _ => []

/-- What the sequencer notes of the values that an accumulator read has delivered to the cores. -/
def noteReads (c : Ctx) (ldacc : Bool) : List Nat → State → State
  | [], s => s
  | core :: l, s =>
    let k := coreOf (campOf s c.camp) core
    noteReads c ldacc l (match tileAt k (vopBase c.w) (vopWide c.w) with
      | none => s
      | some t =>
        let vs := tOf k (vopD c.w)
        let s0 := countScores c.pr.pitch t (vopSlab c.w) vs (List.range 16) s
        let s1 := noteNaN c.pr t (vopSlab c.w) vs (scoreBound s c t.layer) (List.range 16) s0
        if ldacc then noteLookout c.pr t (vopSlab c.w) vs (List.range 16) s1 else s1)

/-- An accumulator read with imm[2:0]. -/
def doAcc (ldacc : Bool) (f : Int → Int → Word → Word → Word) (mis : List (List Mismatch)) (c : Ctx) (s : State) : CmdRes :=
  vopCommand c.w 0x07 fun cores => withTiles c s cores <|
    withFma mis c s fun s1 => .done (noteReads c ldacc cores (vopRun c cores (accStep c.w f) s1))

/-- LDACC (R132). -/
def execVLdacc (camp : Nat) (w : CmdWord) (mis : List (List Mismatch)) (s : State) : Answer State :=
  runVop s camp w 0x12 (doAcc true (fun a u m _ => ldacc a u m) mis)

/-- LDACCA (R133). -/
def execVLdacca (camp : Nat) (w : CmdWord) (mis : List (List Mismatch)) (s : State) : Answer State := runVop s camp w 0x13 (doAcc false ldacca mis)

/-- LDACCM (R133). -/
def execVLdaccm (camp : Nat) (w : CmdWord) (mis : List (List Mismatch)) (s : State) : Answer State := runVop s camp w 0x14 (doAcc false ldaccm mis)

/-! ### The requantisation buffer (R134) -/

/-- Column group j of a fill: imm[7:4]. -/
def vopGroup (w : CmdWord) : Nat := bitsOf (vopImm w) 7 4

/-- Put a value at row r and feature f of the buffer. -/
def putCell (b : NMap ReqVal) (r f : Nat) (v : ReqVal) : NMap ReqVal := mset b (128 * r + f) v

/-- Fill column group j with the values of 128 elements: element 8 r + c goes to row r, feature 8 j + c. -/
def fillGroup (b : NMap ReqVal) (j : Nat) (vs : List ReqVal) : NMap ReqVal :=
  vs.zipIdx.foldl (fun b v => putCell b (v.2 / 8) (8 * j + v.2 % 8) v.1) b

/-- a × m × 2^u held exactly, or a non-finite value. -/
def reqAcc (a u : Int) (m : Word) : ReqVal :=
  if isNaN m then .special qNaN
  else if isInf m then .special (if a = 0 then qNaN else infOf (decide (a < 0) != fpNeg m))
  else
    let p := dyMul ⟨a, u⟩ (fpDy m)
    .exact p.m p.e

/-- Tag the sixteen buffer rows: an activation row with its layer, or none (R134). -/
def tagRows (tags : NMap (Nat × Nat)) (f : Nat → Option (Nat × Nat)) : NMap (Nat × Nat) :=
  (List.range 16).foldl (fun m r => match f r with
    | some x => mset m r x
    | none => mdel m r) tags

/-- REQACC on one core. -/
def reqaccStep (w : CmdWord) (k : Core) : Core :=
  match tileAt k (vopBase w) (vopWide w) with
  | none => k
  | some t =>
    let a := sourceA k w
    let slab := vopSlab w
    let vs := (List.range 128).map fun i =>
      let r := accRead k t slab i
      reqAcc r.1 r.2 (a.getD i 0#32)
    let tag (r : Nat) : Option (Nat × Nat) :=
      let rr := t.rows.getD (16 * slab + r) (emptyRow 0)
      if rr.handle = none then none else some (rr.act, t.layer)
    { k with req := ⟨fillGroup k.req.cells (vopGroup w) vs, tagRows k.req.tags tag⟩ }

/-- REQACC (R134): imm[2:0] slab, imm[7:4] column group. Its products a_i × m_i are significand products of the FMA units (R142). -/
def execVReqacc (camp : Nat) (w : CmdWord) (mis : List (List Mismatch)) (s : State) : Answer State :=
  runVop s camp w 0x15 fun c s => vopCommand c.w 0xF7 fun cores => withTiles c s cores <|
    withFma mis c s fun s1 => .done (vopRun c cores (reqaccStep c.w) s1)

/-- REQREG on one core, with the TILECFG in force. -/
def reqregStep (w : CmdWord) (cfg : Option TileCfg) (k : Core) : Core :=
  let tag (r : Nat) : Option (Nat × Nat) := cfg.map fun x => (x.firstAct + r, x.layer)
  { k with req := ⟨fillGroup k.req.cells (vopGroup w) ((sourceA k w).map reqOfWord), tagRows k.req.tags tag⟩ }

/-- REQREG (R134): imm[7:4] column group. -/
def execVReqreg (camp : Nat) (w : CmdWord) (s : State) : Answer State :=
  runVop s camp w 0x16 fun c s => vopCommand c.w 0xF0 fun cores =>
    .done (vopRun c cores (reqregStep c.w (campOf s c.camp).cfg) s)

/-! ### REQOUT (R50, R51, R53, R135, R305, R307) -/

/-- Round an exact value once to BF16, to nearest even, with subnormals (R53, R58). -/
def bf16Of (d : Dy) : Nat :=
  if d.m = 0 then 0
  else
    let n := d.m.natAbs
    let top := d.e + (bitLen n : Int) - 1
    let q : Int := max (top - 7) (-133)
    let bits := (q + 133).toNat * 128 + rneMag n (d.e - q)
    (if d.m < 0 then 0x8000 else 0) + min bits 0x7F80

/-- The BF16 value of an outlier. -/
def outlierValue : ReqVal → Nat
  | .exact m e => bf16Of ⟨m, e⟩
  | .special w => toBF16 w

/-- A feature is an outlier when its magnitude exceeds the threshold (R53). -/
def isOutlier (theta : Word) : ReqVal → Bool
  | .exact m e => dyLt (fpDy theta) (dyAbs ⟨m, e⟩)
  | .special w => isInf w

/-- A threshold that R135 refuses. -/
def badThreshold (w : Word) : Bool := isNaN w || isInf w || isZero w || fpNeg w

/-- A buffer row in feature order. -/
def bufferRow (b : NMap ReqVal) (r : Nat) : List ReqVal := (List.range 128).map fun f => mgetD b (128 * r + f) (.exact 0 0)

/-- What REQOUT forms of one row: its format, the four blocks, whether they are promoted, and its sidecar entries. -/
structure FormedRow where
  fmt : Nat
  blocks : List Block
  promoted : Bool
  sidecar : Option (List Byte)

/-- A block from which infinite features have been taken as outliers: they are inputs of the requantisation all the same, so each is counted as
saturation and the block has received a non-finite input (R51, R53; DESIGN CHOICE: notes/assumptions/47.md). -/
def noteInfinite (b : Block) (xs : List ReqVal) : Block :=
  let n := (xs.filter reqInf).length
  { b with saturated := b.saturated + n, nonfinite := b.nonfinite || decide (0 < n) }

/-- Form a row (R53, R135, R307): `theta` is the threshold where sidecars are on. -/
def formRow (fmt : Nat) (theta : Option Word) (xs : List ReqVal) : FormedRow :=
  let blocks (f : Nat) (ys : List ReqVal) : List Block := (List.range 4).map fun j => formBlock f ((ys.drop (32 * j)).take 32)
  match theta with
  | none => ⟨fmt, blocks fmt xs, false, none⟩
  | some th =>
    if fmt = 2 then ⟨2, blocks 2 xs, false, some (List.replicate 16 0#8)⟩
    else
      let outs := xs.zipIdx.filter fun x => isOutlier th x.1
      if 4 < outs.length then ⟨fmt, blocks (fmt + 1) xs, true, some markerSidecar⟩
      else
        let ys := xs.map fun x => if isOutlier th x then .exact 0 0 else x
        let bs := (blocks fmt ys).zipIdx.map fun b => noteInfinite b.1 ((xs.drop (32 * b.2)).take 32)
        ⟨fmt, bs, false, some (writeSidecar (outs.map fun x => ⟨x.2, outlierValue x.1⟩))⟩

/-- The bytes of a formed row in the layout of R48 and R307, F = 128, as (offset, bytes) pieces. -/
def rowPieces (r : FormedRow) : List (Nat × List Byte) :=
  let codes := (r.blocks.map (·.codes)).flatten
  let exps : List Byte := r.blocks.map fun b => BitVec.ofNat 8 b.e
  let sc := r.sidecar.isSome
  let loOff := if sc then 128 + 4 + 16 else 128
  let split : List (Nat × List Byte) :=
    ((List.range 4).map fun j =>
      let bs := packA8 ((codes.drop (32 * j)).take 32)
      [(16 * j, bs.take 16), (64 + 16 * j, bs.drop 16)]).flatten
  let body : List (Nat × List Byte) :=
    if r.promoted ∧ r.fmt = 0 then split
    else if r.fmt = 0 then [(0, packA4 codes)]
    else if r.fmt = 1 ∧ ¬r.promoted then [(0, packA8 codes)]
    else [(0, packHi codes), (loOff, packLo codes)]
  body ++ [(expOffsetOf r.fmt 128 sc, exps)] ++ (match r.sidecar with
    | none => []
    | some bs => [(132, bs)])

/-- Bytes that a row of REQOUT takes (R154). -/
def rowSize (fmt : Nat) (sidecar : Bool) : Nat := ceilDiv (rowBytes fmt 128 sidecar) 8 * 8

/-- Write the pieces of a row into a scratchpad at a byte address. -/
def writePieces (a : Nat) : List (Nat × List Byte) → List Host.Cell → List Host.Cell
  | [], m => m
  | (o, bs) :: t, m => writePieces a t (wrBytes m (a + o) bs)

/-- Write rows one after another. -/
def writeRows (sc : Bool) : Nat → List FormedRow → List Host.Cell → List Host.Cell
  | _, [], m => m
  | a, r :: t, m => writeRows sc (a + rowSize r.fmt sc) t (writePieces a (rowPieces r) m)

/-- The linear operations whose operand the REQOUT at hand forms (R298, R305): the package lists them by the command's place in its program
(DESIGN CHOICE: notes/assumptions/24.md). -/
def formsOf (s : State) (c : Ctx) : List Nat :=
  (((pitchOf s c.pr.pitch).package.bind fun k => k.programs.find? fun p => decide (p.program = c.prog.number ∧ p.base = c.prog.base)).bind
    fun p => mget p.forms c.prog.pc).getD []

/-- The output format of a buffer row: imm[1:0]; the operand of a linear operation is A16 in reference mode (R294), and else widened by the latch
level of the sequence and layer that the row carries (R305). -/
def outFormat (s : State) (c : Ctx) (tbl : Option LengthTable) (tag : Option (Nat × Nat)) : Nat :=
  let r := c.pr
  let fmt := bitsOf (vopImm c.w) 1 0
  if formsOf s c = [] then fmt
  else if r.profile.quality.reference then 2
  else match tag, tbl with
  | some (act, layer), some t =>
    (match rowAt t act with
    | some e => widen fmt (latchLevel s r e.handle layer)
    | none => fmt)
  | _, _ => fmt

/-- NONFINITE_INPUT of the blocks of a row that received a non-finite input (R51, R308). -/
def nonfiniteEvents (camp p handle layer level fmt pos : Nat) : List (Block × Nat) → List ReqVal → State → State
  | [], _, s => s
  | (b, j) :: t, xs, s =>
    let at_ := ((List.range 32).find? fun i => reqNaN (xs.getD (32 * j + i) (.exact 0 0)) || reqInf (xs.getD (32 * j + i) (.exact 0 0))).getD 0
    nonfiniteEvents camp p handle layer level fmt pos t xs
      (if b.nonfinite then writeEvent s (srcCamp camp) 0x04 0x0501 p (qualityDetail handle layer level fmt pos (32 * j + at_)) else s)

/-- Count what a row's blocks give: saturated codes, zero blocks, promoted blocks, and the step's blocks for the monitor (R300, R302, R307). -/
def countRow (s : State) (p h layer : Nat) (f : FormedRow) : State :=
  let sat := (f.blocks.map (·.saturated)).sum
  let s1 := countSaturated s p h layer sat
  let s2 := countZero s1 p h layer (f.blocks.filter (·.zero)).length
  let s3 := if f.promoted then countPromoted s2 p h layer 4 else s2
  onLayer s3 p h layer fun l => { l with
    stepBlocks := l.stepBlocks + 4
    stepSaturated := l.stepSaturated + (f.blocks.filter fun b => decide (b.saturated ≠ 0)).length }

/-- The token's values before requantisation, rounded to BF16, in the Lookout buffer, where the REQOUT forms the operand of the chosen operation
(R298; DEDUCED: notes/assumptions/25.md). -/
def lookoutWrite (s : State) (c : Ctx) (e : TableRow) (act layer : Nat) (xs : List ReqVal) : State :=
  match sampledAt s c.pr e.handle act layer with
  | none => s
  | some (op, _) =>
    if op ∈ formsOf s c then
      onPitch s c.pr.pitch fun x => { x with lookout := x.lookout ++ [(handleIndex e.handle, layer, xs.map fun v => fromBF16 (outlierValue v))] }
    else s

/-- Charge one row of a REQOUT to what the row carries (R134, R135). -/
def chargeRow (s : State) (c : Ctx) (tbl : Option LengthTable) (tag : Option (Nat × Nat)) (f : FormedRow) (xs : List ReqVal) : State :=
  let p := c.pr.pitch
  let entry : Option (TableRow × Nat × Nat) := match tag, tbl with
    | some (act, layer), some t => (rowAt t act).map fun e => (e, act, layer)
    | _, _ => none
  match entry with
  | none => nonfiniteEvents c.camp p 0 0 0 f.fmt 0 f.blocks.zipIdx xs s
  | some (e, act, layer) =>
    let s1 := nonfiniteEvents c.camp p e.handle layer (latchLevel s c.pr e.handle layer) f.fmt (positionAt e act) f.blocks.zipIdx xs s
    lookoutWrite (countRow s1 p e.handle layer f) c e act layer xs

/-- Charge the rows of one core. -/
def chargeRows (c : Ctx) (tbl : Option LengthTable) : List (FormedRow × List ReqVal × Option (Nat × Nat)) → State → State
  | [], s => s
  | (f, xs, tag) :: t, s => chargeRows c tbl t (chargeRow s c tbl tag f xs)

/-- Whether a REQOUT writes sidecars: imm[2] asks for outliers, and the pitch is not in reference mode (R135, R294). -/
def outSidecar (c : Ctx) : Bool := bitOf (vopImm c.w) 2 && !c.pr.profile.quality.reference

/-- The threshold of a REQOUT on a core: the scalar register as it stands, since R135 reads S[a − 8] and names no modifier of source a
(DESIGN CHOICE: notes/assumptions/24.md). -/
def outThreshold (c : Ctx) (k : Core) : Option Word := if outSidecar c then some (sOf k (vopA c.w - 8)) else none

/-- The rows that a core's REQOUT forms, with their inputs and tags. -/
def outRows (s : State) (c : Ctx) (tbl : Option LengthTable) (k : Core) : List (FormedRow × List ReqVal × Option (Nat × Nat)) :=
  (List.range 16).map fun r =>
    let tag := mget k.req.tags r
    let xs := bufferRow k.req.cells r
    (formRow (outFormat s c tbl tag) (outThreshold c k) xs, xs, tag)

/-- Length of a REQOUT's output in 8-byte units (R154). -/
def outUnits (c : Ctx) (rows : List (FormedRow × List ReqVal × Option (Nat × Nat))) : Nat :=
  (rows.map fun r => rowSize r.1.fmt (outSidecar c)).sum / 8

/-- Offset of a REQOUT in its window. -/
def outOffset (c : Ctx) : Nat := fld c.w 95 80 + c.sp

/-- One REQOUT on one core: write the rows, charge them and clear the buffer (R135). -/
def outCore (c : Ctx) (tbl : Option LengthTable) (core : Nat) (s : State) : State :=
  let k := coreOf (campOf s c.camp) core
  let rows := outRows s c tbl k
  let sp := writeRows (outSidecar c) (windowByte k (cmdTask c.w) (outOffset c)) (rows.map (·.1)) k.sp
  chargeRows c tbl rows (onCore s c.camp core fun k => { k with sp := sp, req := ReqBuf.fresh })

/-- REQOUT on every core of the mask. -/
def outCores (c : Ctx) (tbl : Option LengthTable) : List Nat → State → State
  | [], s => s
  | core :: t, s => outCores c tbl t (outCore c tbl core s)

/-- REQOUT with the table at hand. -/
def finishOut (found : List Finding) (c : Ctx) (s : State) (cores : List Nat) (tbl : Option LengthTable) : CmdRes :=
  let cm := campOf s c.camp
  unlessFault (firstFault cores fun _ core =>
    windowFault (coreOf cm core) core (cmdTask c.w) (outOffset c) (outUnits c (outRows s c tbl (coreOf cm core))) true) <|
  withFindings c found s fun s1 => .done (iterate (outCores c tbl cores) (vopRepeat c.w) s1)

/-- REQOUT (R135): imm[1:0] format, imm[2] outliers against S[a − 8]. -/
def doReqout (found : List Finding) (c : Ctx) (s : State) : CmdRes :=
  vopCommand c.w 0x07 fun cores =>
    let cm := campOf s c.camp
    let bad (core : Nat) : Bool :=
      bitOf (vopImm c.w) 2 && (decide (vopA c.w < 8) || badThreshold (sOf (coreOf cm core) (vopA c.w - 8)))
    if bitsOf (vopImm c.w) 1 0 = 3 then .fault (vectorFault c.w)
    else
      match cores.find? bad with
      | some core => .fault (progFault 0x0303 core 0)
      | none =>
        if cores.all fun core => decide ((coreOf cm core).req.tags = []) then finishOut found c s cores none
        else withTable c s (lowCore c.w) fun tbl => finishOut found c s cores (some tbl)

/-- REQOUT. -/
def execVReqout (camp : Nat) (w : CmdWord) (found : List Finding) (s : State) : Answer State := runVop s camp w 0x17 (doReqout found)

/-! ### Function sequences (R136 to R140) -/

/-- EXP2. -/
def execVExp2 (camp : Nat) (w : CmdWord) (mis : List (List Mismatch)) (s : State) : Answer State :=
  runVop s camp w 0x18 (doFmaElem (fun a _ _ => exp2 a) mis)

/-- RCP. -/
def execVRcp (camp : Nat) (w : CmdWord) (mis : List (List Mismatch)) (s : State) : Answer State :=
  runVop s camp w 0x19 (doFmaElem (fun a _ _ => rcp a) mis)

/-- RSQ. -/
def execVRsq (camp : Nat) (w : CmdWord) (mis : List (List Mismatch)) (s : State) : Answer State :=
  runVop s camp w 0x1A (doFmaElem (fun a _ _ => rsq a) mis)

/-- ROTCS on one core: the cosine to T[d], the sine to T[d + 1] (R140). -/
def rotStep (w : CmdWord) (k : Core) : Core :=
  let a := sourceA k w
  let b := sourceB k w
  let c := sourceC k w
  let r := (List.range 128).map fun i => rotcs (a.getD i 0#32).toNat ((b.getD i 0#32).toNat + 2 ^ 32 * (c.getD i 0#32).toNat)
  setT (setT k (vopD w) (r.map (·.1))) (vopD w + 1) (r.map (·.2))

/-- ROTCS (R125, R140): an odd d is a program fault. -/
def execVRotcs (camp : Nat) (w : CmdWord) (mis : List (List Mismatch)) (s : State) : Answer State :=
  runVop s camp w 0x1B fun c s => vopCommand c.w 0 fun cores =>
    if vopD c.w % 2 = 1 then .fault (vectorFault c.w) else withFma mis c s fun s1 => .done (vopRun c cores (rotStep c.w) s1)

/-- A reserved vector opcode, 0x1C to 0x3F (R125). -/
def doVReserved (c : Ctx) (_ : State) : CmdRes :=
  coreCommand c.w [(99, 32)] (decide (1 ≤ vopRepeat c.w)) fun _ => .fault (vectorFault c.w)

/-- A reserved vector opcode. -/
def execVReserved (camp : Nat) (w : CmdWord) (s : State) : Answer State :=
  runCommand s camp w (decide (cmdOpcode w = 0x0D) && decide (0x1C ≤ vopOp w)) doVReserved

end Sys2Proof.Machine
end

