-- ==== Sys2Proof/Machine/Context.lean ====
section
/-! DEFINITION. The context store (R202 to R225): summaries, Lantern scoring and selection, chunk lists, appends to staging with their
flushes, and the moves of pages between the tiers. -/

namespace Sys2Proof.Machine

/-! ### Lantern (R214 to R219) -/

/-- The score of a record of KV head h against one query head (R215). -/
def headScore (m : Word) (x : SummaryRec) (q : LanternQuery) : Word :=
  let v (f : Nat) : Dy := codeDy (q.codes.getD f 0) (q.exps.getD (f / 32) 0)
  let fs := List.range q.codes.length
  let dot := dySum (fs.map fun f => dyMul (v f) (centroidAt x f))
  let sq := rne32 (dySum (fs.map fun f => dySq (v f)))
  fpAdd (ldacc dot.m dot.e m) (fpMul (fpMul (rootOf sq) x.r) m)

/-- The greater of two scores, a NaN lowest (R110, R215). -/
def betterScore (a b : Word) : Word := if ranksBefore false ⟨b, 0⟩ ⟨a, 1⟩ then b else a

/-- The score of a page or superpage: the largest over the query heads (R215). -/
def recordScore (m : Word) (recs : List SummaryRec) (qs : List LanternQuery) : Word :=
  match qs with
  | [] => qNaN
  | q :: t =>
    let sc (q : LanternQuery) : Word := headScore m (recs.getD q.kvHead ⟨[], [], 0#32⟩) q
    t.foldl (fun a q => betterScore a (sc q)) (sc q)

/-- What a selection yields: chosen page-list indices in ascending order, and the candidates in rank order (R216, R219). -/
structure Selection where
  chosen : List Nat
  ranked : List Nat

/-- The choice of R216 for a layer of n committed pages. -/
def selectPages (b : LanternBlock) (exact_ : Bool) (n : Nat) (superScore pageScore : Nat → Word) : Selection :=
  let fixed := (List.range n).filter fun i => decide (i < b.sink) || decide (n ≤ i + b.recent)
  if exact_ ∨ n ≤ fixed.length + b.k then ⟨List.range n, []⟩
  else
    let full := n / 64
    let sup := (selectTop false (min 32 full) ((List.range full).map fun i => ⟨superScore i, i⟩)).map (·.pos)
    let cand := (List.range n).filter fun i => (decide (64 * full ≤ i) || sup.contains (i / 64)) && !fixed.contains i
    let ranked := (selectTop false (b.k + b.lookahead) (cand.map fun i => ⟨pageScore i, i⟩)).map (·.pos)
    let top := ranked.take b.k
    ⟨(List.range n).filter fun i => fixed.contains i || top.contains i, ranked⟩

/-- Put the choice of a row and layer in place of an earlier one. -/
def putChosen (l : List Chosen) (c : Chosen) : List Chosen :=
  (l.filter fun x => !(decide (x.seq = c.seq) && decide (x.layer = c.layer))) ++ [c]

/-- Write last_selected of the chosen pages, and note those that must be fetched on demand (R216, R220). -/
def markSelected (p step : Nat) : List Nat → State → State
  | [], s => s
  | n :: t, s =>
    let g := pageOf s p n
    let far := decide (g.state = .warm ∨ g.state = .exported)
    markSelected p step t (putPage s p n { g with lastSelected := step % 2 ^ 32, wanted := g.wanted || far })

/-- The choice for a row of the micro-batch and a layer. -/
def selectRow (s : State) (r : PitchRecord) (m : MicroRow) (layer : Nat) (qs : List LanternQuery) : State :=
  let p := r.pitch
  let j := layerIndex s p layer
  match (seqOf s m.seq).layers[j]? with
  | none => s
  | some l =>
    let factor := ((layerImage s p layer).map (·.lanternFactor)).getD 0#32
    let page (i : Nat) : Nat := l.pages.getD i 0
    let sel := selectPages r.profile.lantern (bitOf m.flags 0) l.pages.length
      (fun i => recordScore factor (mgetD l.supers i []) qs)
      (fun i => recordScore factor (pageOf s p (page i)).summary qs)
    let chosen := sel.chosen.map page
    let next := ((sel.ranked.drop r.profile.lantern.k).map page)
    let s1 := markSelected p (pitchOf s p).stepCount chosen s
    onPitch s1 p fun x => { x with chosen := putChosen x.chosen ⟨m.seq, layer, chosen, chosen ++ next, none, []⟩ }

/-- The row has a chunk list for the layer already. -/
def hasList (s : State) (p seq layer : Nat) : Bool :=
  (pitchOf s p).chosen.any fun c => decide (c.seq = seq ∧ c.layer = layer) && c.list.isSome

/-- The ranges of device memory that hold the summaries of a sequence's layer. -/
def summaryRanges (s : State) (p seq j : Nat) : List (Nat × Nat) :=
  ((((seqOf s seq).layers.getD j LayerState.fresh).pages.map (pageOf s p)).filter fun g => decide (g.summaryAt ≠ 0)).map fun g =>
    (pitchDa s p g.summaryAt, g.kvHeads * summaryLength (32 * g.dim32))

/-- LANTERN_SELECT for a row and layer (R215, R216, R219): before the row's chunk list is written. -/
def doLantern (s : State) (r : PitchRecord) (row layer : Nat) (qs : List LanternQuery) (found : List Finding) : State :=
  let p := r.pitch
  match (pitchOf s p).batch[row]? with
  | none => s
  | some m =>
    if m.newTokens = 0 ∨ hasList s p m.seq layer then s
    else
      rangerReads s p found (summaryRanges s p m.seq (layerIndex s p layer)) fun s2 =>
        if m ∈ (pitchOf s2 p).batch then selectRow s2 r m layer qs else s2

/-- LANTERN_SELECT: the row is one of the micro-batch and the layer one of the module's range; otherwise nothing is selected. -/
def execLanternSelect (pitch row layer : Nat) (queries : List LanternQuery) (found : List Finding) (s : State) : Answer State :=
  if pitchOk pitch then
    match recordOf s pitch with
    | none => .next s
    | some r => .next (doLantern s r row layer queries found)
  else .refused .noSuchUnit

/-! ### Hot space (R222, R224) -/

/-- Pages that a chunk list of the current step names: chosen and PENDING pages (R217). -/
def listedPages (s : State) (p : Nat) : List Nat :=
  let x := pitchOf s p
  (x.chosen.map (·.pages)).flatten ++ (x.batch.map fun m => ((seqOf s m.seq).layers.map (·.pendingPages)).flatten).flatten

/-- The lower of two pages in the order of R222 and R223: ascending last_selected, then ascending number. -/
def earlierPage (s : State) (p a b : Nat) : Bool :=
  let x := (pageOf s p a).lastSelected
  let y := (pageOf s p b).lastSelected
  decide (x < y) || (decide (x = y) && decide (a < b))

/-- The first page of a list in the order of R222. -/
def firstPage (s : State) (p : Nat) : List Nat → Option Nat
  | [] => none
  | a :: t => some (t.foldl (fun m b => if earlierPage s p b m then b else m) a)

/-- Pages of a pitch in a state. -/
def pagesIn (s : State) (p : Nat) (st : PageState) : List Nat :=
  ((pitchOf s p).pages.filter fun g => decide (g.2.state = st)).map (·.1)

/-- The next victim of R222. -/
def nextVictim (s : State) (p : Nat) : Option Nat :=
  let listed := listedPages s p
  firstPage s p ((pagesIn s p .both).filter fun n => !listed.contains n)

/-- Drop the hot copy of a BOTH page (R221). -/
def dropHot (s : State) (p n : Nat) : State :=
  let g := pageOf s p n
  putPage (freeRange s p g.hot) p n { g with state := .warm, hot := 0 }

/-- The prefix-tree node that goes first when a pitch needs space: users 0, in ascending last_used, then ascending chunk (R231); only the
lead decides removals (R229), and in a group only between its steps, so that they take effect at a step boundary. -/
def idleNode (s : State) (p : Nat) : Option Nat :=
  match recordOf s p with
  | none => none
  | some r =>
    if r.group.groupPosition ≠ 0 ∨ (1 < r.group.groupSize ∧ (pitchOf s p).inStep) then none
    else
      let before (a b : Nat × TreeNode) : Bool :=
        decide (a.2.lastUsed < b.2.lastUsed) || (decide (a.2.lastUsed = b.2.lastUsed) && decide (a.2.chunk < b.2.chunk))
      match (pitchOf s p).tree.filter fun n => decide (n.2.users = 0) with
      | [] => none
      | a :: t => some (t.foldl (fun m b => if before b m then b else m) a).1

/-- An idle node goes, on every module of the group (R229, R231). -/
def removeIdle (s : State) (p k : Nat) : State :=
  tellGroup (removeNode s p k) p (.remove (((mget (pitchOf s p).tree k).map (·.hash)).getD 0))

/-- Hot space of `len` bytes, dropping hot copies of BOTH pages (R222) and then idle nodes of the prefix tree (R231) while there is none. -/
def hotSpace (p len : Nat) : Nat → State → Option (Nat × State)
  | 0, s => allocHot s p len
  | n + 1, s =>
    match allocHot s p len with
    | some r => some r
    | none =>
      match nextVictim s p with
      | some v => hotSpace p len n (dropHot s p v)
      | none =>
        match idleNode s p with
        | some k => hotSpace p len n (removeIdle s p k)
        | none => none

/-- Steps that `hotSpace` and `warmSpace` may take. -/
def spaceFuel (s : State) (p : Nat) : Nat := (pitchOf s p).pages.length + (pitchOf s p).tree.length

/-- Hot space of `len` bytes. -/
def roomFor (s : State) (p len : Nat) : Option (Nat × State) := hotSpace p len (spaceFuel s p) s

/-- Warm space for page number n, removing idle nodes of the prefix tree while there is none (R231). -/
def warmSpace (p n len : Nat) : Nat → State → Option (Nat × State)
  | 0, s => allocWarm s p n len
  | k + 1, s =>
    match allocWarm s p n len with
    | some r => some r
    | none =>
      match idleNode s p with
      | some t => warmSpace p n len k (removeIdle s p t)
      | none => none

/-- A page of a sequence in phases 3 and 4 of a park starts no promotion or demotion (R313). -/
def pageParks (s : State) (p n : Nat) : Bool := (holdersOf s p n).any fun i => ((seqOf s i).park).isSome

/-- A HOT page is demoted and its hot copy dropped, where there is warm space (R221, R224) and its capacity port is not being retrained (R258). A node
that went for the space may have taken the page with it. -/
def demoteNow (s : State) (p n : Nat) : Option State :=
  let g := pageOf s p n
  match warmSpace p n (payloadBytes g) (spaceFuel s p) s with
  | none => none
  | some (a, s1) =>
    if portStalls s1 (pitchDa s1 p a) then none else
    let s2 := pokeBytes s1 (pitchDa s1 p a) (peekBytes s1 (pitchDa s1 p g.hot) (payloadBytes g))
    if (pageOf s1 p n).state = .hot then some (dropHot (putPage s2 p n { pageOf s2 p n with state := .both, warm := a }) p n)
    else some (freeRange s1 p a)

/-- Hot space for a flush: where there is none, HOT pages that no chunk list of the step names are demoted in the order of R223 while there is warm
space (R224; DESIGN CHOICE: notes/assumptions/13.md). -/
def flushRoom (p len : Nat) : Nat → State → Option (Nat × State)
  | 0, s => roomFor s p len
  | k + 1, s =>
    match roomFor s p len with
    | some r => some r
    | none =>
      match firstPage s p ((pagesIn s p .hot).filter fun n => !(listedPages s p).contains n && !pageParks s p n) with
      | none => none
      | some n =>
        match demoteNow s p n with
        | none => none
        | some s1 => flushRoom p len k s1

/-- Space for a flush or a staging buffer. -/
def spaceNow (s : State) (p len : Nat) : Option (Nat × State) := flushRoom p len (pitchOf s p).pages.length s

/-- The piece of the page table that holds page number n is in the pitch's HBM quota (R203). -/
def withPiece (s : State) (p n : Nat) : Option State :=
  if n / piecePages < (pitchOf s p).tableChunks.length then some s
  else (spaceNow s p 4096).map fun r => onPitch r.2 p fun x => { x with tableChunks := x.tableChunks ++ [r.1] }

/-- A free page number, with the space of its descriptor and of its summary (R203, R206): number, summary address and state. -/
def newPage (s : State) (p heads d : Nat) : Option (Nat × Nat × State) :=
  let n := freePageNumber s p
  match withPiece s p n with
  | none => none
  | some s1 => (spaceNow s1 p (heads * summaryLength d)).map fun r => (n, r.1, r.2)

/-! ### Page lists and superpage summaries in HBM (R206; DESIGN CHOICE: notes/assumptions/13.md) -/

/-- Take `k` places of `len` bytes in the pitch's HBM quota. -/
def takePlaces (p len : Nat) : Nat → State → Option (List Nat × State)
  | 0, s => some ([], s)
  | k + 1, s =>
    match spaceNow s p len with
    | none => none
    | some (a, s1) => (takePlaces p len k s1).map fun x => (a :: x.1, x.2)

/-- Give places back. -/
def freePlaces (p : Nat) : List Nat → State → State
  | [], s => s
  | a :: t, s => freePlaces p t (freeRange s p a)

/-- The places of a table that shall have `n`: more are taken, or those beyond are given back. -/
def fitPlaces (s : State) (p len n : Nat) (have_ : List Nat) : Option (List Nat × State) :=
  (takePlaces p len (n - have_.length) s).map fun x => (have_.take n ++ x.1, freePlaces p (have_.drop n) x.2)

/-- The page list and the superpage summaries of a layer have the places in HBM that its committed and PENDING pages need (R206). None where there is
no space. -/
def fitLayer (s : State) (p i j : Nat) : Option State :=
  match (seqOf s i).layers[j]? with
  | none => some s
  | some l =>
    let n := l.pages.length + l.pendingPages.length
    let first := ((recordOf s p).map (·.group.firstLayer)).getD 0
    let (_, heads, d) := layerShape s p (first + j)
    match fitPlaces s p 4096 (ceilDiv n listPages) l.listAt with
    | none => none
    | some (lists, s1) =>
      (fitPlaces s1 p (heads * summaryLength d) (n / 64) l.superAt).map fun x =>
        onSeq x.2 i fun e => match e.layers[j]? with
          | none => e
          | some l => { e with layers := e.layers.set j { l with listAt := lists, superAt := x.1 } }

/-- Those of the layers of a list. -/
def fitLayers (p i : Nat) : List Nat → State → Option State
  | [], s => some s
  | j :: t, s =>
    match fitLayer s p i j with
    | none => none
    | some s1 => fitLayers p i t s1

/-- Those of every layer of a sequence. -/
def fitSeq (s : State) (p i : Nat) : Option State := fitLayers p i (List.range (seqOf s i).layers.length) s

/-! ### Appends (R207 to R209; DESIGN CHOICE: notes/assumptions/13.md, 26.md) -/

/-- The micro-batch that the module runs in a group step (R353). -/
def microBatchOf (r : PitchRecord) (n j : Nat) : Nat := (n + r.group.groupSize - j % r.group.groupSize) % r.group.groupSize

/-- The rows of the next micro-batch of the module, as far as they are known (R208, R353). -/
def nextRows (s : State) (p : Nat) : List MicroRow :=
  match recordOf s p with
  | none => []
  | some r => mgetD (pitchOf s p).batches (microBatchOf r ((pitchOf s p).groupStep + 1) r.group.groupPosition) []

/-- The sequence belongs to the current or the next micro-batch of the module (R208). -/
def nearRows (s : State) (p i : Nat) : Bool := ((pitchOf s p).batch ++ nextRows s p).any fun m => decide (m.seq = i)

/-- Give a layer without a staging buffer one with a place in the pitch's HBM quota, kept in the Larder while the sequence is near, with the tag
of the moment where it is empty (R208; DESIGN CHOICE: notes/assumptions/13.md); none where there is no space. -/
def openStaging (s : State) (i j tag len : Nat) : Option State :=
  let e := seqOf s i
  match e.layers[j]? with
  | none => some s
  | some l =>
    let t : Staging := if l.staging.staged = 0 then { l.staging with tag := tag } else l.staging
    let near := nearRows s e.pitch i
    let put (s : State) (t : Staging) : State := onSeq s i fun e => { e with layers := e.layers.set j { l with staging := t } }
    if l.staging.address ≠ 0 then some (put s t)
    else (spaceNow s e.pitch (2 * len)).map fun r => put r.2 { t with address := r.1, inLarder := near }

/-- Write one token's K and V rows of a layer at place t of a staging half: `rows` holds each head's K row, then its V row. -/
def putToken (s : State) (r : PitchRecord) (base tag heads d t : Nat) (rows : List Byte) : State :=
  let kb := keyRowBytes tag d
  let vb := valueRowBytes tag d
  (List.range heads).foldl (fun s h =>
    let o := (kb + vb) * h
    let s1 := pokeBytes s (daOf s r (base + 64 + keyRowOffset tag d h t)) ((rows.drop o).take kb)
    pokeBytes s1 (daOf s r (base + 64 + valueRowOffset tag d h t)) ((rows.drop (o + kb)).take vb)) s

/-- Change a layer of a sequence by its place. -/
def onLayerAt (s : State) (i j : Nat) (f : LayerState → LayerState) : State :=
  onSeq s i fun e => match e.layers[j]? with
    | none => e
    | some l => { e with layers := e.layers.set j (f l) }

/-- Copy 256 staged tokens to a new page in state PENDING; staging continues at the next page position (R209, R221). None where there is neither
hot nor warm space. -/
def flushStaging (s : State) (r : PitchRecord) (i layer j heads d : Nat) : Option State :=
  match (seqOf s i).layers[j]? with
  | none => some s
  | some l =>
    let tag := l.staging.tag
    let len := pageBytes tag heads d
    match newPage s r.pitch heads d with
    | none => none
    | some (n, sum, s0) =>
    match spaceNow s0 r.pitch len with
    | none => none
    | some (a, s1) =>
      let src := stagingBase l (stagingHalf heads d)
      let payload := peekBytes s1 (daOf s1 r (src + 64)) len
      let g : Page := { Page.fresh with
        state := .pending, tag := tag, layer := layer, firstPosition := l.staging.firstPosition, kvHeads := heads, dim32 := d / 32, hot := a
        summaryAt := sum }
      let s2 := putPage (pokeBytes s1 (daOf s1 r a) payload) r.pitch n g
      fitLayer (onLayerAt s2 i j fun l => { l with
        pendingPages := l.pendingPages ++ [n]
        staging := { l.staging with staged := 0, firstPosition := l.staging.firstPosition + 256 } }) r.pitch i j

/-- Append tokens of a layer in position order, flushing at 256. None where there is no space. -/
def appendTokens (r : PitchRecord) (i layer j heads d : Nat) : List (List Byte) → State → Option State
  | [], s => some s
  | rows :: t, s =>
    let tag0 := r.profile.tags.getD j 0
    match openStaging s i j tag0 (stagingHalf heads d) with
    | none => none
    | some s1 =>
    match (seqOf s1 i).layers[j]? with
    | none => some s1
    | some l =>
      let tag := l.staging.tag
      let s2 := putToken s1 r (stagingBase l (stagingHalf heads d)) tag heads d l.staging.staged rows
      let s3 := onLayerAt s2 i j fun l => { l with staging := { l.staging with staged := l.staging.staged + 1 } }
      if l.staging.staged + 1 = 256 then
        match flushStaging s3 r i layer j heads d with
        | none => none
        | some s4 => appendTokens r i layer j heads d t s4
      else appendTokens r i layer j heads d t s3

/-- A flush found neither hot nor warm space (R224): an idle sequence is parked to the pitch's destination; with none to park, the
sequence is held at its last step boundary with cause 2 and its request completes with NO_CAPACITY. -/
def noSpace (s : State) (r : PitchRecord) (i : Nat) : State :=
  match seqsWhere s r.pitch (fun _ e => decide (e.state = .idle) && decide (e.park = none)) with
  | k :: _ => if r.parkKind ≠ 0 then devicePark s r k else holdAtBoundary s i 2 rcNoCapacity
  | [] => holdAtBoundary s i 2 rcNoCapacity

/-- Append the tokens of each row of the micro-batch from the bytes of an append slot; or the sequence whose tokens found no space. -/
def appendRows (r : PitchRecord) (layer j heads d : Nat) (bs : List Byte) : List MicroRow → State → Except Nat State
  | [], s => .ok s
  | m :: t, s =>
    let tag := ((seqOf s m.seq).layers.getD j LayerState.fresh).staging.tag
    let tag1 := if ((seqOf s m.seq).layers.getD j LayerState.fresh).staging.staged = 0 then r.profile.tags.getD j 0 else tag
    let size := heads * (keyRowBytes tag1 d + valueRowBytes tag1 d)
    let rows := (List.range m.newTokens).map fun k => (bs.drop (size * (m.tokenBase + k))).take size
    match appendTokens r m.seq layer j heads d rows s with
    | some s1 => appendRows r layer j heads d bs t s1
    | none => .error m.seq

/-- The layer whose append slot a slot is (DEDUCED: notes/assumptions/26.md). -/
def appendLayer (s : State) (p slot : Nat) : Option LayerImage :=
  (pitchOf s p).package.bind fun k => k.layers.find? fun l => decide (l.appendSlot = slot)

/-- The Larder takes K and V of the step's tokens out of a full append slot (R209; phase 4 of R29). Where a flush finds no space nothing is
appended, and the flag is false. -/
def appendSlotFull (s : State) (r : PitchRecord) (x : Slot) (l : LayerImage) : State × Bool :=
  match appendRows r l.layer (layerIndex s r.pitch l.layer) l.kvHeads l.headDim (peekBytes s (slotDa s r x) x.size) (pitchOf s r.pitch).batch s with
  | .ok s1 => (s1, true)
  | .error i => (noSpace s r i, false)

/-- The staging buffers of a layer of the micro-batch's rows, and their PENDING pages. -/
def stagingRanges (s : State) (r : PitchRecord) (layer : Nat) : List (Nat × Nat) :=
  let j := layerIndex s r.pitch layer
  let (_, heads, dim) := layerShape s r.pitch layer
  (((pitchOf s r.pitch).batch.map fun m =>
    let l := (seqOf s m.seq).layers.getD j LayerState.fresh
    (if l.staging.address = 0 then [] else [(daOf s r (stagingBase l (stagingHalf heads dim)), stagingHalf heads dim)])
      ++ l.pendingPages.map fun n => (pitchDa s r.pitch (pageOf s r.pitch n).hot, payloadBytes (pageOf s r.pitch n)))).flatten

/-- The ranges of device memory that an append of a layer meets: the append slot, and the staging buffers and PENDING pages before it and after it;
`s1` is the state to which it leads (R209, R248, R259). -/
def appendRanges (s s1 : State) (r : PitchRecord) (x : Slot) (layer : Nat) : List (Nat × Nat) :=
  (slotDa s r x, x.size) :: (stagingRanges s r layer ++ stagingRanges s1 r layer)

/-! ### Chunk lists (R183, R209, R217) -/

/-- One chunk-list entry (R183). -/
def chunkEntry (data first tokens tag : Nat) : List Byte :=
  leBytes 8 data ++ leBytes 4 first ++ leBytes 1 (tokens - 1) ++ leBytes 1 tag ++ leBytes 2 0

/-- The chunk list of a row and layer: chosen pages, PENDING pages, staging (R209, R217). -/
def chunkList (s : State) (p : Nat) (l : LayerState) (heads d : Nat) (pages : List Nat) : List Byte :=
  let entry (n : Nat) : List Byte := let g := pageOf s p n; chunkEntry g.hot g.firstPosition 256 g.tag
  ((pages ++ l.pendingPages).map entry).flatten ++
    (if l.staging.staged = 0 then []
     else chunkEntry (stagingBase l (stagingHalf heads d)) l.staging.firstPosition l.staging.staged l.staging.tag)

/-- A page can be read from its hot copy (R221, R223). -/
def hasHot (g : Page) : Bool :=
  decide (g.state = .hot) || decide (g.state = .both) || decide (g.state = .demoting) || decide (g.state = .pending)

/-- The splits of a row of T tokens in C chunks: n_s := min(64, max(1, ceil(T / 4,096))), and split j takes chunks floor(j × C / n_s) up to, but
not with, floor((j + 1) × C / n_s) (R196). -/
def splitRanges (tokens chunks : Nat) : List (Nat × Nat) :=
  let n := min 64 (max 1 (ceilDiv tokens 4096))
  (List.range n).map fun j => (j * chunks / n, (j + 1) * chunks / n)

/-- Write the chunk list of one choice into memory of the pitch's HBM quota, and divide it into splits; none where there is no space. -/
def writeList (s : State) (r : PitchRecord) (c : Chosen) : Option (State × Chosen) :=
  let j := layerIndex s r.pitch c.layer
  match (seqOf s c.seq).layers[j]?, layerImage s r.pitch c.layer with
  | some l, some g =>
    let bs := chunkList s r.pitch l g.kvHeads g.headDim c.pages
    let tokens := 256 * (c.pages.length + l.pendingPages.length) + l.staging.staged
    (roomFor s r.pitch bs.length).map fun x =>
      (pokeBytes x.2 (daOf x.2 r x.1) bs, { c with list := some x.1, splits := splitRanges tokens (bs.length / 16) })
  | _, _ => some (s, c)

/-- Write the lists of a layer's choices; none where one finds no space. -/
def writeLists (r : PitchRecord) (layer : Nat) : List Chosen → State → Option State
  | [], s => some s
  | c :: t, s =>
    if c.layer = layer ∧ c.list = none then
      match writeList s r c with
      | none => none
      | some w => writeLists r layer t (onPitch w.1 r.pitch fun x => { x with chosen := putChosen x.chosen w.2 })
    else writeLists r layer t s

/-- Phase 4 of R29 has staged the step's tokens of a row for a layer. -/
def staged (s : State) (p layer : Nat) (m : MicroRow) : Bool :=
  let l := (seqOf s m.seq).layers.getD (layerIndex s p layer) LayerState.fresh
  decide (256 * (l.pages.length + l.pendingPages.length) + l.staging.staged = m.contextLength + m.newTokens)

/-- The ranges of the chunk lists of a layer. -/
def listRanges (s : State) (r : PitchRecord) (layer : Nat) : List (Nat × Nat) :=
  ((pitchOf s r.pitch).chosen.filter fun c => decide (c.layer = layer)).filterMap fun c =>
    c.list.map fun a => (daOf s r a, 16 * ((c.splits.getLast?).map (·.2)).getD 0)

/-- CHUNK_LISTS_READY (R29, R217): once the step's tokens are staged, every row has its choice for the layer, every listed page a hot copy and the
start message has named the layer's sync object, the lists are written and that object is signalled, once in a step. -/
def doChunkLists (s : State) (r : PitchRecord) (layer : Nat) : State :=
  let x := pitchOf s r.pitch
  let rows := x.batch.filter fun m => decide (m.newTokens ≠ 0)
  let mine := x.chosen.filter fun c => decide (c.layer = layer)
  let ready := rows.all fun m => mine.any fun c => decide (c.seq = m.seq)
  let hot := mine.all fun c => c.pages.all fun n => hasHot (pageOf s r.pitch n)
  match mget x.readySyncs layer with
  | none => s
  | some n =>
    if ready ∧ hot ∧ rows.all (staged s r.pitch layer) ∧ (mine.any fun c => c.list.isNone) then
      match writeLists r layer mine s with
      | none => s
      | some s0 => rangerAccess s (listRanges s0 r layer) fun s2 =>
        match writeLists r layer mine s2 with
        | none => s2
        | some s1 => (signalSync s1 r.pitch n 1).getD s1
    else s

/-- CHUNK_LISTS_READY. -/
def execChunkListsReady (pitch layer : Nat) (s : State) : Answer State :=
  if pitchOk pitch then
    match recordOf s pitch with
    | none => .next s
    | some r => .next (doChunkLists s r layer)
  else .refused .noSuchUnit

/-! ### Promotion and demotion (R219 to R223, R257) -/

/-- The step's predictions in the order of R219: row by row in micro-batch order. -/
def predictions (x : Pitch) : List Nat :=
  (x.batch.map fun m => ((x.chosen.filter fun c => decide (c.seq = m.seq)).map (·.predicted)).flatten).flatten

/-- Pages that wait for promotion, in order: those wanted on demand first, then the predicted ones, an earlier step's first (R219, R220). -/
def promotionQueue (s : State) (p : Nat) : List Nat :=
  let x := pitchOf s p
  (((x.pages.filter fun g => g.2.wanted).map (·.1)) ++ x.carried ++ predictions x).filter fun n =>
    decide ((pageOf s p n).state = .warm) && !pageParks s p n

/-- The promotion of a page may start: no on-demand page waits before it, and among predicted ones it is the first (R219, R220). -/
def mayPromote (s : State) (p n : Nat) : Bool :=
  let g := pageOf s p n
  decide (g.state = .warm) && !pageParks s p n && (g.wanted || decide ((promotionQueue s p).head? = some n))

/-- PAGE_PROMOTION_START (R221, R222): WARM becomes PROMOTING when hot space is found; otherwise the promotion waits. -/
def execPagePromotionStart (pitch page : Nat) (s : State) : Answer State :=
  if pitchOk pitch then
    if mayPromote s pitch page then
      match roomFor s pitch (payloadBytes (pageOf s pitch page)) with
      | none => .next s
      | some (a, s1) =>
        if (pageOf s1 pitch page).state = .warm then .next (putPage s1 pitch page { pageOf s1 pitch page with state := .promoting, hot := a })
        else .next (freeRange s1 pitch a)
    else .next s
  else .refused .noSuchUnit

/-- CXL_UNCORRECTABLE of a page's warm copy (R257, R263). -/
def warmBad (s : State) (p n : Nat) : State := cxlBad s p (pitchDa s p (pageOf s p n).warm)

/-- A page that a step has fetched on demand has arrived: waits on the chunk-list objects of the layers that chose it are timed from now on (R31,
R165, R220; DEDUCED: notes/assumptions/17.md). -/
def restartWaits (s : State) (p n : Nat) : State :=
  let x := pitchOf s p
  let of_ (y : WaitReason) : Bool := match y with
    | .sync k => x.readySyncs.any fun z => decide (z.2 = k) && x.chosen.any fun c => decide (c.layer = z.1) && c.pages.contains n
    | _ => false
  { s with camps := mmap s.camps fun c y => match y.blocked with
      | some b => if of_ b.reason ∧ campIn s p c then { y with blocked := some { b with since := s.cairn.count } } else y
      | none => y }

/-- PAGE_PROMOTION_DONE (R221, R225, R257): the hot copy has been written and checked. -/
def doPromotionDone (s : State) (p n : Nat) (ok : Bool) : State :=
  let g := pageOf s p n
  if g.state ≠ .promoting then s
  else rangerAccess s [(pitchDa s p g.warm, payloadBytes g), (pitchDa s p g.hot, payloadBytes g)] fun s =>
  if g.doomed then freePage s p n
  else if ok then
    let s1 := pokeBytes s (pitchDa s p g.hot) (peekBytes s (pitchDa s p g.warm) (payloadBytes g))
    restartWaits (putPage s1 p n { g with state := .both, wanted := false }) p n
  else
    let s1 := freeRange (warmBad s p n) p g.hot
    pageLost (putPage s1 p n { g with hot := 0 }) p n 1 0x0402

/-- PAGE_PROMOTION_DONE. -/
def execPagePromotionDone (pitch page : Nat) (poison digestOk : Bool) (s : State) : Answer State :=
  if pitchOk pitch then .next (doPromotionDone s pitch page (!poison && digestOk)) else .refused .noSuchUnit

/-- Bytes of hot copies of a pitch, those being demoted left out (R223). -/
def hotBytes (s : State) (p : Nat) : Nat :=
  (((pitchOf s p).pages.filter fun g => decide (g.2.hot ≠ 0 ∧ g.2.state ≠ .demoting)).map fun g => payloadBytes g.2).sum

/-- HBM page occupancy exceeds a percentage of the quota (R223). -/
def occupancyAbove (s : State) (r : PitchRecord) (percent : Nat) : Bool :=
  decide (percent * (r.hbmSize * 2 ^ 30) < 100 * hotBytes s r.pitch)

/-- PAGE_DEMOTION_START (R221, R223): above hot_high, and until hot_low, the first HOT page starts its demotion when there is warm space. -/
def doDemotionStart (s : State) (r : PitchRecord) : State :=
  let p := r.pitch
  let b := r.profile.lantern
  let going := occupancyAbove s r b.hotHigh || ((pitchOf s p).demoting && occupancyAbove s r b.hotLow)
  let s0 := onPitch s p fun x => { x with demoting := going }
  if going then
    match firstPage s0 p ((pagesIn s0 p .hot).filter fun n => !pageParks s0 p n) with
    | none => s0
    | some n =>
      (match warmSpace p n (payloadBytes (pageOf s0 p n)) (spaceFuel s0 p) s0 with
      | none => s0
      | some (a, s1) =>
        if (pageOf s1 p n).state = .hot then putPage s1 p n { pageOf s1 p n with state := .demoting, warm := a } else freeRange s1 p a)
  else s0

/-- PAGE_DEMOTION_START. -/
def execPageDemotionStart (pitch : Nat) (s : State) : Answer State :=
  if pitchOk pitch then
    match recordOf s pitch with
    | none => .next s
    | some r => .next (doDemotionStart s r)
  else .refused .noSuchUnit

/-- PAGE_DEMOTION_DONE (R221, R223): the warm copy has been written; the hot copy is dropped while occupancy is above hot_low, unless a
chunk list of the step names the page. -/
def doDemotionDone (s : State) (r : PitchRecord) (n : Nat) (found : List Finding) : State :=
  let p := r.pitch
  let g := pageOf s p n
  if g.state ≠ .demoting then s
  else rangerReads s p found [(pitchDa s p g.warm, payloadBytes g), (pitchDa s p g.hot, payloadBytes g)] fun s =>
  if (pageOf s p n).state ≠ .demoting then s
  else if g.doomed then freePage s p n
  else
    let payload := peekBytes s (pitchDa s p g.hot) (payloadBytes g)
    let s1 := putPage (pokeBytes s (pitchDa s p g.warm) payload) p n { g with state := .both }
    if occupancyAbove s1 r r.profile.lantern.hotLow ∧ ¬(listedPages s1 p).contains n then dropHot s1 p n else s1

/-- PAGE_DEMOTION_DONE. -/
def execPageDemotionDone (pitch page : Nat) (found : List Finding) (s : State) : Answer State :=
  if pitchOk pitch then
    match recordOf s pitch with
    | none => .next s
    | some r => .next (doDemotionDone s r page found)
  else .refused .noSuchUnit

/-! ### PAGE_REFETCHED (R225, R252) -/

/-- Start the runs of tiles that wait for a page. -/
def startWaiting (n : Nat) (k : Core) : Core :=
  (k.tiles.filter fun t => decide (t.state = .awaitingPage n)).foldl beginRun k

/-- Start them on every camp of a pitch. -/
def startWaitingAll (s : State) (p n : Nat) : State :=
  { s with camps := mmap s.camps fun c x => if campIn s p c then { x with cores := mmap x.cores fun _ k => startWaiting n k } else x }

/-- PAGE_REFETCHED: the hot copy is restored from the warm one and the runs repeat; with a bad warm copy too the page is lost (R225). -/
def doPageRefetched (s : State) (p n : Nat) (warmOk : Bool) : State :=
  let g := pageOf s p n
  if g.state ≠ .both then s
  else rangerAccess s [(pitchDa s p g.warm, payloadBytes g), (pitchDa s p g.hot, payloadBytes g)] fun s =>
  if warmOk then
    let s1 := pokeBytes s (pitchDa s p g.hot) (peekBytes s (pitchDa s p g.warm) (payloadBytes g))
    startWaitingAll (rangerEvent s1 0x03 0x0401 p (pageDetail n g.layer (pageStateCode g.state) 0 g.firstPosition 0)) p n
  else startWaitingAll (pageLost (warmBad s p n) p n 1 0x0402) p n

/-- PAGE_REFETCHED. -/
def execPageRefetched (pitch page : Nat) (warmOk : Bool) (s : State) : Answer State :=
  if pitchOk pitch then .next (doPageRefetched s pitch page warmOk) else .refused .noSuchUnit

end Sys2Proof.Machine
end

