-- ==== Sys2Proof/Machine/Egress.lean ====
section
/-! DEFINITION. What the module sends over the tensor fabric (R379, R387, R389 to R392, R394, R399): frames and control words, packets, the egress
arbiter, and management messages to other modules. Choices the spec leaves: notes/assumptions/27.md, 38.md. -/

namespace Sys2Proof.Machine

/-! ### Links and ports (R384, R388) -/

/-- The configured entry of a link. -/
def linkEntry (s : State) (l : Nat) : Option LinkEntry := s.cfg.bind fun c => c.links[l]?

/-- The links that work in a logical port (R388). -/
def workingLinks (s : State) (port : Nat) : List Nat :=
  (List.range 24).filter fun l =>
    ((linkEntry s l).any fun e => decide (e.port = port)) && (linkAt s l).any fun k => decide (k.state = .up)

/-! ### Frames (R390) -/

/-- Frame type (R390). -/
def frType (f : Frame) : Nat := bitsOf f.ctrl.toNat 3 0
/-- Virtual channel of a data frame (R390). -/
def frVc (f : Frame) : Nat := bitsOf f.ctrl.toNat 6 4
/-- The first flit of a packet (R390). -/
def frFirst (f : Frame) : Bool := bitOf f.ctrl.toNat 7
/-- Sequence number (R390). -/
def frSeq (f : Frame) : Nat := bitsOf f.ctrl.toNat 19 8
/-- Acknowledged sequence number (R390). -/
def frAck (f : Frame) : Nat := bitsOf f.ctrl.toNat 31 20
/-- Channel of the returned credits (R390). -/
def frCreditVc (f : Frame) : Nat := bitsOf f.ctrl.toNat 34 32
/-- Credits returned (R390). -/
def frCredits (f : Frame) : Nat := bitsOf f.ctrl.toNat 39 35

/-- A frame whose CRC is right. -/
def frameOk (f : Frame) : Bool :=
  decide (f.payload.length = 256) && decide (bitsOf f.ctrl.toNat 63 40 = frameCrc f.ctrl.toNat f.payload)

/-- A frame with its CRC (R390). -/
def makeFrame (type vc : Nat) (first : Bool) (seq ack creditVc credits : Nat) (payload : List Byte) : Frame :=
  let low := type + 2 ^ 4 * vc + (if first then 2 ^ 7 else 0) + 2 ^ 8 * seq + 2 ^ 20 * ack + 2 ^ 32 * creditVc + 2 ^ 35 * credits
  ⟨BitVec.ofNat 64 (low + 2 ^ 40 * frameCrc low payload), payload⟩

/-- The seq before a seq, modulo 4,096. -/
def seqBefore (n : Nat) : Nat := (n + 4095) % 4096

/-- Credits that a frame can return: the lowest channel that is owed any, at most 31 of them (R390). -/
def creditsToReturn (owed : List Nat) : Nat × Nat :=
  match (List.range 3).find? fun v => decide (0 < owed.getD v 0) with
  | none => (0, 0)
  | some v => (v, min 31 (owed.getD v 0))

/-- Change one element of a list of numbers. -/
def lmod (l : List Nat) (i : Nat) (f : Nat → Nat) : List Nat := l.set i (f (l.getD i 0))

/-- A frame without data: it consumes no seq and no credit, and carries ack and credits (R390). -/
def sendPlain (s : State) (l type : Nat) (payload : List Byte) : State :=
  match linkAt s l with
  | none => s
  | some k =>
    let (v, n) := creditsToReturn k.owed
    send (putLink s l { k with owed := lmod k.owed v (· - n) }) (.frame l (makeFrame type 0 false 0 (seqBefore k.rxSeq) v n payload))

/-- A payload of zeros. -/
def zeroPayload : List Byte := List.replicate 256 0#8

/-- An idle frame, which returns ack and credits. -/
def sendIdle (s : State) (l : Nat) : State := sendPlain s l 0 zeroPayload

/-- A retry request (R392). -/
def sendRetry (s : State) (l : Nat) : State := sendPlain s l 2 zeroPayload

/-- A data frame: it takes a credit and the next seq, and stays in the retry buffer (R391, R392). -/
def sendData (s : State) (l vc : Nat) (first : Bool) (payload : List Byte) : State :=
  match linkAt s l with
  | none => s
  | some k =>
    let (v, n) := creditsToReturn k.owed
    let f := makeFrame 1 vc first k.txSeq (seqBefore k.rxSeq) v n payload
    let k1 := { k with
      txSeq := (k.txSeq + 1) % 4096, credits := lmod k.credits vc (· - 1), owed := lmod k.owed v (· - n), retry := k.retry ++ [f] }
    send (putLink s l k1) (.frame l f)

/-! ### Packets (R387, R391, R394) -/

/-- The virtual channel of a packet kind (R391). -/
def kindVc (kind : Nat) : Nat := if kind = 1 then 1 else if kind = 2 then 2 else 0
/-- The virtual channel of a packet. -/
def packetVc (pkt : List Byte) : Nat := kindVc (leAt pkt 0 1)
/-- The body of a packet (R394). -/
def packetBody (pkt : List Byte) : List Byte := (pkt.drop 32).take (leAt pkt 10 2)

/-- Cut a packet into flits of 256 bytes. -/
def flitsOf : Nat → List Byte → List (List Byte)
  | 0, _ => []
  | n + 1, bs => if bs = [] then [] else bs.take 256 :: flitsOf n (bs.drop 256)

/-- The working link of a port that a packet takes: the one with the most credits on its channel, lowest number on a tie (R387), of those that
hold credits and retry-buffer room for it (R391, R392) and carry no other packet (DESIGN CHOICE: notes/assumptions/38.md). -/
def startLink (s : State) (busy : List Nat) (port vc flits : Nat) : Option Nat :=
  let free (l : Nat) : Nat := ((linkAt s l).map fun k => k.credits.getD vc 0).getD 0
  let fits := (workingLinks s port).filter fun l =>
    decide (l ∉ busy) && (linkAt s l).any fun k => decide (flits ≤ k.credits.getD vc 0) && decide (k.retry.length + flits ≤ 1024)
  fits.foldl (fun (best : Option Nat) l => match best with
    | none => some l
    | some b => if free b < free l then some l else some b) none

/-- The last packet of a transfer starts its wait for a response (R398). -/
def noteSent (s : State) (pkt : List Byte) : State :=
  if leAt pkt 0 1 = 1 then
    match mget s.fab.sends (leAt pkt 12 4) with
    | none => s
    | some x => { s with fab := { s.fab with sends := mset s.fab.sends (leAt pkt 12 4) { x with lastSent := s.cairn.count } } }
  else s

/-- The pitch for which a packet is sent: that of its transfer; a response or a management packet belongs to none. -/
def packetOwner (s : State) (pkt : List Byte) : Nat :=
  if leAt pkt 0 1 = 1 then ((mget s.fab.sends (leAt pkt 12 4)).map (·.pitch)).getD noPitch else noPitch

/-- A packet that a link can take now. -/
structure Startable where
  owner : Nat
  port : Nat
  pkt : List Byte
  link : Nat

/-- The waiting packets that can start: packets of a pitch, a port and a channel stay in order (R387, R389); `seen` holds those that have gone
before. -/
def startable (s : State) (busy : List Nat) : List (Nat × List Byte) → List (Nat × Nat × Nat) → List Startable
  | [], _ => []
  | (port, pkt) :: t, seen =>
    let key := (packetOwner s pkt, port, packetVc pkt)
    if key ∈ seen then startable s busy t seen
    else
      match startLink s busy port (packetVc pkt) (pkt.length / 256) with
      | none => startable s busy t (key :: seen)
      | some l => ⟨key.1, port, pkt, l⟩ :: startable s busy t (key :: seen)

/-- The sealed pitch to which slot i of the frame of 1,000 grants belongs: the first whose cumulative fabric share exceeds i (R379). -/
def slotOwner (s : State) (i : Nat) : Option Nat :=
  let rs := sortBy (fun (a b : PitchRecord) => decide (a.pitch ≤ b.pitch)) (((s.cfg.map (·.pitches)).getD []).filter (·.sealed))
  let sums := (rs.foldl (fun (acc : Nat × List (Nat × Nat)) r =>
    let n := acc.1 + r.shares.getD 3 0
    (n, acc.2 ++ [(n, r.pitch)])) (0, [])).2
  (sums.find? fun x => decide (i < x.1)).map (·.2)

/-- The pitch is sealed. -/
def isSealed (s : State) (p : Nat) : Bool := (recordOf s p).any (·.sealed)

/-- The owner after the one served last, round-robin in ascending number (R379). -/
def nextTurn (last : Nat) (owners : List Nat) : Option Nat :=
  let least (l : List Nat) : Option Nat := match l with
    | [] => none
    | a :: t => some (t.foldl min a)
  match least (owners.filter fun p => decide (last < p)) with
  | some p => some p
  | none => least owners

/-- The next grant of the device's egress arbiter among owners with work, with its slot: a sealed slot goes to its owner or stays idle, another goes
round-robin to the owners that are not sealed (R379, R399). -/
def grantOf (s : State) (owners : List Nat) : Nat → Nat → Option (Nat × Nat)
  | 0, _ => none
  | n + 1, i =>
    let next := match slotOwner s i with
      | some p => if owners.contains p then some p else none
      | none => nextTurn s.fab.turn (owners.filter fun p => !isSealed s p)
    match next with
    | some p => some (p, i)
    | none => grantOf s owners n ((i + 1) % 1000)

/-- A packet that is on its way out over a link: its channel, whether its first flit is still to go, and the flits left. -/
structure Live where
  owner : Nat
  link : Nat
  vc : Nat
  first : Bool
  left : List (List Byte)

/-- A packet starts on a link (R387). -/
def startPacket (s : State) (x : Startable) : State × Live :=
  (noteSent { s with fab := { s.fab with waiting := s.fab.waiting.erase (x.port, x.pkt) } } x.pkt,
    ⟨x.owner, x.link, packetVc x.pkt, true, flitsOf 16 x.pkt⟩)

/-- One flit of a packet goes out in grant slot i (R379, R399). -/
def sendFlit (s : State) (y : Live) (i : Nat) : State :=
  let s1 := { s with fab := { s.fab with grant := (i + 1) % 1000, turn := if isSealed s y.owner then s.fab.turn else y.owner } }
  match y.left with
  | [] => s1
  | p :: _ => sendData s1 y.link y.vc y.first p

/-- The packets on their way, after a flit of one of them: a link carries one packet at a time. -/
def afterFlit (y : Live) (live : List Live) : List Live :=
  let others := live.filter fun z => decide (z.link ≠ y.link)
  if y.left.tail = [] then others else others ++ [{ y with first := false, left := y.left.tail }]

/-- The packet of which the owner of a grant sends a flit: one that is on its way, or the next that can start. -/
def flitOf (s : State) (live : List Live) (xs : List Startable) (p : Nat) : Option (State × Live) :=
  match live.find? fun y => decide (y.owner = p) with
  | some y => some (s, y)
  | none => (xs.find? fun x => decide (x.owner = p)).map (startPacket s)

/-- Send up to n flits, each in a grant slot of the egress arbiter that belongs to its pitch (R379, R399): a packet starts in a slot of its owner's, and
its other flits take later slots of the owner's. -/
def pumpN : Nat → List Live → State → State
  | 0, _, s => s
  | n + 1, live, s =>
    let xs := startable s (live.map (·.link)) s.fab.waiting []
    match grantOf s (live.map (·.owner) ++ xs.map (·.owner)) 1000 s.fab.grant with
    | none => s
    | some (p, i) =>
      match flitOf s live xs p with
      | none => s
      | some (s1, y) => pumpN n (afterFlit y live) (sendFlit s1 y i)

/-- Flits of the packets that wait. -/
def waitingFlits (s : State) : Nat := (s.fab.waiting.map fun w => w.2.length / 256 + 1).sum

/-- Start the packets that can start. -/
def pump (s : State) : State := pumpN (waitingFlits s) [] s

/-- Give packets to a port. -/
def sendPackets (s : State) (port : Nat) (pkts : List (List Byte)) : State :=
  pump { s with fab := { s.fab with waiting := s.fab.waiting ++ pkts.map fun p => (port, p) } }

/-- Header fields of a packet (R394). -/
structure PacketHead where
  kind : Nat
  dest : Nat
  group : Nat
  pitch : Nat
  coded : Bool
  last : Bool
  transfer : Nat
  slot : Nat
  offset : Nat
  stream : Nat

/-- This module's fabric device ID (R431). -/
def deviceId (s : State) : Nat := (s.cfg.map (·.deviceId)).getD 0

/-- A packet (R394), with the bytes after its body free (notes/assumptions/38.md). -/
def makePacket (src : Nat) (padding : List Byte) (h : PacketHead) (body : List Byte) : List Byte :=
  let flits := ceilDiv (32 + body.length) 256
  let head := leBytes 1 h.kind ++ leBytes 1 flits ++ leBytes 2 h.dest ++ leBytes 2 src ++ leBytes 2 h.group ++ leBytes 1 h.pitch
    ++ leBytes 1 ((if h.coded then 1 else 0) + (if h.last then 2 else 0)) ++ leBytes 2 body.length ++ leBytes 4 h.transfer
    ++ leBytes 4 h.slot ++ leBytes 4 h.offset ++ leBytes 4 h.stream ++ leBytes 4 0
  head ++ body ++ padTo (256 * flits - 32 - body.length) padding

/-! ### Management messages (R394, R361) -/

/-- The logical port that leads to a module: the one whose neighbour it is, and otherwise the lowest in use, behind which a switch forwards by device ID
(R399; DESIGN CHOICE: notes/assumptions/27.md). -/
def portTo (s : State) (device : Nat) : Nat :=
  let used := ((s.cfg.map (·.links)).getD []).filter fun e => decide (e.port ≠ 0xFF)
  match used.find? fun e => decide (e.peerDevice = device) with
  | some e => e.port
  | none => (used.map (·.port)).foldl min 0xFF

/-- Cut a message into pieces of 61 bytes, which follow the three bytes of a stamp. -/
def messagePieces : Nat → List Byte → List (List Byte)
  | 0, _ => []
  | n + 1, bs => if bs = [] then [] else padTo 61 (bs.take 61) :: messagePieces n (bs.drop 61)

/-- The packets of a message from this module's Ranger to another's: bodies of 64 bytes, each stamped with source class 0x3 and this module's ID (R394);
header fields that the spec does not give for them are free (notes/assumptions/38.md). -/
def messagePackets (s : State) (device group pitch transfer : Nat) (padding msg : List Byte) : List (List Byte) :=
  (messagePieces (msg.length / 61 + 1) msg).map fun b =>
    makePacket (deviceId s) padding ⟨3, device, group, pitch, false, true, transfer, 0, 0, 0⟩ (leBytes 3 (srcPeer (deviceId s)) ++ b)

/-- Send a message to the Ranger of another module of a pitch's group over the fabric management channel, virtual channel 0 (R361, R391, R394). -/
def sendPeer (s : State) (r : PitchRecord) (device : Nat) (msg : List Byte) : State :=
  let (padding, s1) := drawBytes s 256
  let (n, s2) := drawNat s1
  sendPackets s2 (portTo s2 device) (messagePackets s2 device r.group.pitchGroup (n / 2 ^ 32 % 64) (n % 2 ^ 32) padding msg)

end Sys2Proof.Machine
end

