-- ==== Sys2Proof/Machine/Waits.lean ====
section
/-! DEFINITION. What starts, ends and times the waits of camp programs: the program start (R146, R156, R176), the landing and draining of slot
transfers (R158, R159), and sync timeouts (R165, R166). -/

namespace Sys2Proof.Machine

/-! ### PROGRAM_START (R156, R174, R176) -/

/-- A scratchpad byte inside a resident window (R153, R156). -/
def residentByte (k : Core) (a : Nat) : Bool :=
  (List.range 8).any fun n =>
    let v := winOf k n
    winResident v && decide (8 * winBase v ≤ a ∧ a < 8 * (winBase v + winLength v))

/-- A core at the start of a program: registers zero, bytes outside resident windows zero, no tile issued (R121, R131, R156, R176), and an empty
requantisation buffer: R134 does not say what a later program finds in it (DESIGN CHOICE: notes/assumptions/9.md). -/
def startCore (k : Core) : Core :=
  { k with t := [], sreg := [], tiles := [], queues := [], req := ReqBuf.fresh, sp := k.sp.filter fun c => residentByte k c.1 }

/-- Write the step's length table into a slot that is EMPTY, and make it FULL (R176, R185). -/
def writeTable (s : State) (r : PitchRecord) (n : Nat) : State :=
  match slotOf s r n with
  | none => s
  | some x =>
    if x.state = .empty then
      let s1 := pokeBytes s (slotDa s r x) ((tableBytes s (pitchOf s r.pitch).batch).take x.size)
      releaseBlocked (putSlot s1 r.pitch n { x with state := .full, closing := false, released := [] }) r.pitch fun w => decide (w = .slotRead n)
    else s

/-- The limit of a program: its header's watchdog_us, 0 meaning 1,000 (R165, R174). -/
def startLimit (k : LoadedProgram) : Nat := if k.watchdogUs = 0 then 1000 else k.watchdogUs

/-- PROGRAM_START: in a step, whose first phase composes it (R29), the Ranger starts a program of the pitch's package on a camp that holds it and runs none (R146, R176). A first command at or
beyond the program's last is past its end: BAD_FIELD (R146). The start message also names the sync objects of the layers' chunk lists (R217). -/
def startProgram (s : State) (r : PitchRecord) (camp rel : Nat) (k : LoadedProgram) (first slot : Nat) (params : List Word) (ready : NMap Nat) :
    State :=
  let c := campOf s camp
  if (pitchOf s r.pitch).inStep = false ∨ (pitchOf s r.pitch).repairs ≠ [] ∨ c.prog ≠ none ∨ c.fenced ∨ rel ∉ k.camps then s
  else
    let p : Program := ⟨k.program, k.base, k.commands, first, slot, params, startLimit k, []⟩
    let c1 := { c with prog := some p, blocked := none, stream := none, cfg := none, ahead := [], cores := mmap c.cores fun _ x => startCore x }
    let s0 := onPitch (putCamp s camp c1) r.pitch fun x => { x with readySyncs := ready.foldl (fun m y => mset m y.1 y.2) x.readySyncs }
    let s1 := writeTable s0 r slot
    if k.commands ≤ first then raiseFault s1 camp (badField noCore) 0 0 else s1

/-- PROGRAM_START. -/
def execProgramStart (pitch camp program first tableSlot : Nat) (params : List Word) (ready : NMap Nat) (s : State) : Answer State :=
  if campOk camp ∧ pitchOk pitch then
    match homeOf s camp with
    | none => .next s
    | some (r, rel) =>
      match (pitchOf s pitch).package.bind fun k => k.programs.find? fun x => decide (x.program = program) && x.camps.contains rel with
      | some k => if r.pitch = pitch then .next (startProgram s r camp rel k first tableSlot params ready) else .next s
      | none => .next s
  else .refused .noSuchUnit

/-! ### SLOT_FILLED and SLOT_DRAINED (R158, R159) -/

/-- The Larder engines take one releasing read of an append slot; they are no camp (R157, R209). -/
def engineReader : Nat := 0xFFFF

/-- A slot whose fill has landed is FULL (R158). -/
def filled (x : Slot) : Slot := { x with state := .full, closing := false }

/-- Put a filled slot; its readers go on (R158, R164), and so does a FENCE or END that waits for the landing (R149). -/
def fillDone (s : State) (p n : Nat) (x : Slot) : State := releaseBlocked (putSlot s p n x) p fun w => decide (w = .slotRead n ∨ w = .fence)

/-- SLOT_FILLED: every transfer of a closing write has landed (R158). An append slot's tokens go to staging (R209). -/
def doSlotFilled (s : State) (r : PitchRecord) (n : Nat) (found : List Finding) : State :=
  match slotOf s r n with
  | none => s
  | some x =>
    if x.state = .filling ∧ x.closing then
      match appendLayer s r.pitch n with
      | none => fillDone s r.pitch n (filled x)
      | some l =>
        rangerReads s r.pitch found (appendRanges s (appendSlotFull s r x l).1 r x l.layer) fun s0 =>
          if found.any stopsCommand ∨ (found ≠ [] ∧ (slotOf s0 r n) ≠ some x) then s0
          else
            let (s1, ok) := appendSlotFull s0 r x l
            if ok then fillDone s1 r.pitch n (releaseSlot (filled x) engineReader) else s1
    else s

/-- SLOT_FILLED. -/
def execSlotFilled (pitch slot : Nat) (found : List Finding) (s : State) : Answer State :=
  if pitchOk pitch then
    match recordOf s pitch with
    | none => .next s
    | some r => .next (doSlotFilled s r slot found)
  else .refused .noSuchUnit

/-- SLOT_DRAINED: the reads in flight of a DRAINING slot have completed, so it is EMPTY and its writers go on (R158, R164). -/
def doSlotDrained (s : State) (r : PitchRecord) (n : Nat) : State :=
  match slotOf s r n with
  | none => s
  | some x =>
    if x.state = .draining then
      releaseBlocked (putSlot s r.pitch n { x with state := .empty, released := [] }) r.pitch fun w => decide (w = .slotWrite n)
    else s

/-- SLOT_DRAINED. -/
def execSlotDrained (pitch slot : Nat) (s : State) : Answer State :=
  if pitchOk pitch then
    match recordOf s pitch with
    | none => .next s
    | some r => .next (doSlotDrained s r slot)
  else .refused .noSuchUnit

/-! ### SYNC_TIMEOUT (R165 to R169) -/

/-- A wait that the watchdog times (R165): the handshakes of R164, and the waits that a paused slice causes (R476). Another memory access that its unit
does not admit yet is none. -/
def timed : WaitReason → Bool
  | .join => false
  | .fence => false
  | .memory => false
  | .wake => false
  | _ => true

/-- What a wait waits for, as the object field of its record (R169). -/
def waitObject : WaitReason → Nat
  | .slotRead n => n
  | .slotWrite n => n
  | .sync n => n
  | .hopen i => i
  | .hclose i => i
  | .join => 0
  | .fence => 0
  | .memory => 0
  | .slice d => d
  | .wake => 0

/-- The core field of the record of a wait: the lowest core of a core command's mask, 0xFF for a camp-level command (R169). -/
def waitCore (b : Blocked) : Nat :=
  match b.reason with
  | .sync _ => noCore
  | .hopen _ => noCore
  | .hclose _ => noCore
  | _ => lowCore b.w

/-- A wait on a layer's chunk-list object stalls for a page that is being fetched on demand: the step does not fail (R31, R220; DEDUCED:
notes/assumptions/17.md). -/
def fetchStalls (s : State) (p : Nat) : WaitReason → Bool
  | .sync n =>
    let x := pitchOf s p
    x.readySyncs.any fun y => decide (y.2 = n) && x.chosen.any fun c => decide (c.layer = y.1) && c.pages.any fun k => !hasHot (pageOf s p k)
  | _ => false

/-- SYNC_TIMEOUT (R165 to R167): a timed wait that is not satisfied has reached the program's limit. The first in a step runs the step again, the second holds its
sequences. -/
def doTimeout (s : State) (camp : Nat) : State :=
  let c := campOf s camp
  match homeOf s camp, c.prog, c.blocked with
  | some (r, _), some p, some b =>
    if timed b.reason ∧ b.ready = false ∧ fetchStalls s r.pitch b.reason = false ∧ b.since + 1000 * p.limitUs ≤ s.cairn.count then
      let n := (pitchOf s r.pitch).timeouts
      if n = 0 then
        let s1 := writeEvent s (srcCamp camp) 0x0C 0x0309 r.pitch
          (campDetail camp (commandIndex c) (waitCore b) (cmdOpcode b.w) 1 (waitObject b.reason))
        onPitch (rerunStep s1 r.pitch) r.pitch fun x => { x with timeouts := 1 }
      else raiseFault s camp (progFault 0x0309 (waitCore b) (waitObject b.reason)) (cmdOpcode b.w) 2
    else s
  | _, _, _ => s

/-- SYNC_TIMEOUT. -/
def execSyncTimeout (camp now : Nat) (s : State) : Answer State :=
  if campOk camp then .next (doTimeout (atTime s now) camp) else .refused .noSuchUnit

end Sys2Proof.Machine
end

