-- ==== Sys2Proof/Machine/Sequence.lean ====
section
/-! DEFINITION. Sequences (R227 to R236, R291, R293, R299, R310 to R316, R333 to R336): truncation, the prefix tree, adoption, forks, freeing,
and phase 2 of a park, on the lead and, by the lead's decisions, on every module of a pitch group. -/

namespace Sys2Proof.Machine

/-! ### Shapes -/

/-- KV heads and head dimension of layer place j of a pitch. -/
def shapeAt (s : State) (r : PitchRecord) (j : Nat) : Nat × Nat :=
  match layerImage s r.pitch (r.group.firstLayer + j) with
  | none => (1, 32)
  | some l => (l.kvHeads, l.headDim)

/-- Write the header of a staging buffer (R207). -/
def stagingHeader (s : State) (r : PitchRecord) (i j : Nat) : State :=
  match (seqOf s i).layers[j]? with
  | none => s
  | some l =>
    if l.staging.address = 0 then s
    else
      pokeBytes s (daOf s r l.staging.address)
        (leBytes 4 (handleOf s i) ++ leBytes 2 (r.group.firstLayer + j) ++ leBytes 1 l.staging.tag ++ leBytes 1 l.staging.count
          ++ leBytes 4 l.staging.firstPosition ++ leBytes 52 0)

/-! ### Truncation (R235, R236) -/

/-- Copy the tokens that stay of page p into staging, with the page's tag (R235). None where the layer needs a buffer and there is no space. -/
def reopenPage (s : State) (r : PitchRecord) (i j p count : Nat) : Option State :=
  match (seqOf s i).layers[j]? with
  | none => some s
  | some l =>
    let n := l.pages.getD p 0
    let g := pageOf s r.pitch n
    let (heads, d) := shapeAt s r j
    (openStaging s i j g.tag (stagingHalf heads d)).map fun s1 =>
      match (seqOf s1 i).layers[j]? with
      | none => s1
      | some l1 =>
        let g := pageOf s1 r.pitch n
        let s2 := pokeBytes s1 (daOf s1 r (l1.staging.address + 64)) (peekBytes s1 (daOf s1 r (copyAt g)) (payloadBytes g))
        onLayerAt s2 i j fun l => { l with staging := { l.staging with tag := g.tag, boundTag := g.tag, count := count, staged := count } }

/-- Truncate one layer to length n (R213, R235). -/
def truncateLayer (s : State) (r : PitchRecord) (i n j : Nat) : Option State :=
  match (seqOf s i).layers[j]? with
  | none => some s
  | some l =>
    let p := n / 256
    let opened :=
      if n % 256 = 0 then some (onLayerAt s i j fun l => { l with staging := { l.staging with count := 0, staged := 0 } })
      else if p < l.pages.length then reopenPage s r i j p (n % 256)
      else some (onLayerAt s i j fun l => { l with staging := { l.staging with count := n - 256 * p, staged := n - 256 * p } })
    opened.map fun s1 =>
    let s2 := dropRefs r.pitch (l.pages.drop p).reverse s1
    let s3 := onLayerAt s2 i j fun l => { l with
      pages := l.pages.take p, supers := l.supers.filter fun x => decide (64 * x.1 + 64 ≤ p)
      staging := { l.staging with firstPosition := 256 * min p l.pages.length } }
    stagingHeader ((fitLayer s3 r.pitch i j).getD s3) r i j

/-- Truncate a list of layers. -/
def truncateLayers (r : PitchRecord) (i n : Nat) : List Nat → State → Option State
  | [], s => some s
  | j :: t, s =>
    match truncateLayer s r i n j with
    | none => none
    | some s1 => truncateLayers r i n t s1

/-- The pages that a sequence still has to import, in ascending layer and position (R327). -/
def toImport (s : State) (i : Nat) : List Nat :=
  let e := seqOf s i
  ((e.layers.map (·.pages)).flatten).filter fun n => decide ((pageOf s e.pitch n).state = .exported)

/-- Send the import notice and write IMPORT_DONE once nothing is left to import (R330 to R332, R342). -/
def importDone (s : State) (i : Nat) : State :=
  let e := seqOf s i
  match e.importing with
  | none => s
  | some m =>
    if toImport s i ≠ [] then s
    else
      let s1 := putSeq s i { e with importing := none, source := none }
      let s2 := rangerEvent s1 0x0C 0x0903 e.pitch (waypointDetail (handleOf s i) e.streamId rcDone 0 0)
      if m.notice then
        answer s2 m.origin true (completion m.tag rcDone 6 (compFlags e.inexact false true 0) (handleOf s i) 0 0 e.length 0) []
      else s2

/-- The entry with the largest length not above n, and the entries up to it (R236). -/
def journalAt (js : List JournalEntry) (n : Nat) : Option JournalEntry × List JournalEntry :=
  let kept := js.filter fun e => decide (e.length ≤ n)
  (kept.getLast?, kept)

/-- Reapply the decisions that came from positions below n (R236). -/
def reapply (firstLayer n : Nat) (ls : List Latch) (ds : List Decision) : List Latch :=
  ds.foldl (fun ls d =>
    if d.position < n then
      let j := d.layer - firstLayer
      match ls[j]? with
      | none => ls
      | some x => ls.set j { x with level := d.level, denied := d.denied, history := 0 }
    else ls) ls

/-- The sequence-table entry truncated to length n: the journal entry restored, and its decisions from positions below n reapplied (R236); those of
removed tokens are gone with them. -/
def truncateEntry (r : PitchRecord) (n : Nat) (e : SeqEntry) : SeqEntry :=
    let (je, kept) := journalAt e.journal n
    match je with
    | none => { e with length := n, tokens := e.tokens.take n, pending := none }
    | some x =>
      let ds := x.decisions.filter fun d => decide (d.position < n)
      let ls := reapply r.group.firstLayer n x.latches ds
      { e with
        length := n
        tokens := e.tokens.take n
        step := x.step
        pending := if x.length = n then x.pending else none
        journal := kept.dropLast ++ [{ x with decisions := ds }]
        links := e.links.filter fun c => decide (c.1 < n / 256)
        layers := (e.layers.zip (ls ++ List.replicate (e.layers.length - ls.length) Latch.fresh)).map fun y => { y.1 with latch := y.2 } }

/-- Truncate a sequence to length n (R234 to R236); where no page is left to import the import is done (R331). None where a page is reopened and
there is no space for its staging buffer (DESIGN CHOICE: notes/assumptions/13.md). -/
def truncateSeq (s : State) (r : PitchRecord) (i n : Nat) : Option State :=
  (truncateLayers r i n (List.range (seqOf s i).layers.length) s).map fun s1 => importDone (onSeq s1 i (truncateEntry r n)) i

/-- The lead module of a pitch group composes and decides (R229, R355, R361). -/
def isLead (r : PitchRecord) : Bool := decide (r.group.groupPosition = 0)
/-- The last module of a pitch group samples (R356). -/
def isLast (r : PitchRecord) : Bool := decide (r.group.groupPosition + 1 = r.group.groupSize)

/-- The first 16 bytes of the SHA-384 digest of a payload (R204). -/
def pageDigest (payload : List Byte) : Nat := Config.sha384 payload / 2 ^ 256

/-- The journal entry of a step boundary; the last 64 are kept (R236). -/
def journalNote (s : State) (i : Nat) : State :=
  onSeq s i fun e =>
    let x : JournalEntry := ⟨e.length, e.step, e.pending, e.layers.map (·.latch), []⟩
    { e with journal := lastN 64 (e.journal ++ [x]) }

/-! ### The prefix tree (R227, R228, R231) -/

/-- The pitch's prefix key (R375). -/
def prefixKey (r : PitchRecord) : Nat := (r.keys.map (·.prefixKey)).getD 0

/-- Hashes of the first n chunks of a token sequence (R227). -/
def chunkHashes (key prev : Nat) : Nat → Nat → List Nat → List Nat
  | _, 0, _ => []
  | i, n + 1, ts =>
    let h := chunkHash key prev i (ts.take 256)
    h :: chunkHashes key h (i + 1) n (ts.drop 256)

/-- The node of chunk i with a hash, a parent and 256 tokens (R228), by its pitch address; 0 is no parent. -/
def findNode (s : State) (p i hash parent : Nat) (tokens : List Nat) : Option Nat :=
  (mfind (pitchOf s p).tree fun _ n =>
    decide (n.chunk = i) && decide (n.hash = hash) && decide (n.parent = parent) && decide (n.tokens = tokens)).map (·.1)

/-- The nodes that match a token sequence from chunk 0, in order (R230). -/
def matchChain (s : State) (p key : Nat) : Nat → Nat → Nat → Nat → List Nat → List Nat
  | 0, _, _, _, _ => []
  | n + 1, i, prev, parent, ts =>
    let h := chunkHash key prev i (ts.take 256)
    match findNode s p i h parent (ts.take 256) with
    | none => []
    | some k => k :: matchChain s p key n (i + 1) h k (ts.drop 256)

/-- Insert the node of chunk i of a sequence, when the tree holds none and holds the node before it, a reference can be taken, and the pitch's HBM
quota has space for the node (R228, R231, R233; DESIGN CHOICE: notes/assumptions/13.md, where the space is made as for a flush), and tell the group (R229). A resumed sequence's earlier tokens are not known (`unknownToken`), so it inserts none (DEDUCED: notes/assumptions/28.md). -/
def insertNode (s : State) (r : PitchRecord) (i c : Nat) (tokens : List Nat) : State :=
  let p := r.pitch
  let e := seqOf s i
  let key := prefixKey r
  let chain := matchChain s p key (c + 1) 0 0 0 tokens
  if chain.length ≠ c ∨ (tokens.any fun t => decide (2 ^ 32 ≤ t)) ∨ (e.layers.any fun l => decide (l.pages.length ≤ c)) then s
  else
    let pages := e.layers.map fun l => l.pages.getD c 0
    if ¬refsFit s p pages then s
    else
      let h := (chunkHashes key 0 0 (c + 1) tokens).getLastD 0
      let n : TreeNode := ⟨h, chain.getLastD 0, c, pages, e.layers.map (·.latch), (pitchOf s p).stepCount % 2 ^ 32, 0, (tokens.drop (256 * c)).take 256⟩
      match spaceNow s p (nodeLength pages.length) with
      | none => s
      | some (k, s1) => tellGroup (onPitch (addRefs p pages s1) p fun x => { x with tree := mset x.tree k n }) p (.insert (handleOf s i) c tokens)

/-! ### Creation and adoption (R230) -/

/-- The token of a position that the module does not know: of a sequence that was resumed from an image, or that the lead made known. No token
ID has this value. -/
def unknownToken : Nat := 2 ^ 32

/-- The adopted nodes of an input of `count` tokens: the matching chain, cut so that at least one input token is left to run (R230). -/
def adoptChain (s : State) (r : PitchRecord) (tokens : List Nat) : List Nat :=
  (matchChain s r.pitch (prefixKey r) (tokens.length / 256) 0 0 0 tokens).take ((tokens.length - 1) / 256)

/-- A node of the tree. -/
def nodeOf (s : State) (p k : Nat) : TreeNode := mgetD (pitchOf s p).tree k ⟨0, 0, 0, [], [], 0, 0, []⟩

/-- The pages of a chain of nodes. -/
def chainPages (s : State) (p : Nat) (chain : List Nat) : List Nat := (chain.map fun k => (nodeOf s p k).pages).flatten

/-- The superpage records of a layer's page list (R213). -/
def supersOf (s : State) (p heads d : Nat) (pages : List Nat) : NMap (List SummaryRec) :=
  (List.range (pages.length / 64)).map fun k => (k, superSummary s p heads d ((pages.drop (64 * k)).take 64))

/-- The layer at place j of a sequence created with adopted nodes (R230). -/
def adoptedLayer (s : State) (r : PitchRecord) (chain : List Nat) (j : Nat) : LayerState :=
  let p := r.pitch
  let pages := chain.map fun k => (nodeOf s p k).pages.getD j 0
  let (heads, d) := shapeAt s r j
  let last := match chain.getLast? with
    | none => Latch.fresh
    | some k => (nodeOf s p k).latches.getD j Latch.fresh
  { LayerState.fresh with
    pages := pages, supers := supersOf s p heads d pages, latch := last
    staging := { Staging.fresh with firstPosition := 256 * chain.length } }

/-- The step count at which nodes of a chain were last used. -/
def touchNodes (s : State) (p : Nat) (chain : List Nat) : State :=
  onPitch s p fun x =>
    let touched := mmap x.tree fun k n => if chain.contains k then { n with lastUsed := x.stepCount % 2 ^ 32 } else n
    { x with tree := touched }

/-- One more sequence, or one fewer, that was created from a node (R228). -/
def nodeUsers (s : State) (p : Nat) (node : Option Nat) (f : Nat → Nat) : State :=
  match node with
  | none => s
  | some k => onPitch s p fun x => { x with tree := mmap x.tree fun m n => if m = k then { n with users := f n.users } else n }

/-- A sequence that has come to reference a lost page is held (R225). -/
def holdIfLost (s : State) (i : Nat) : State :=
  let e := seqOf s i
  if ((e.layers.map (·.pages)).flatten).any fun n => decide ((pageOf s e.pitch n).state = lostState) then holdSeq s i 4 rcIntegrityFail else s

/-- Create a sequence in a free entry (R230, R291, R293, R299): running, at the adopted length, with its first journal entry (R236). -/
def createSeq (s : State) (r : PitchRecord) (i : Nat) (chain : List Nat) (tokens : List Nat) (insert : Bool) : State :=
  let p := r.pitch
  let n := 256 * chain.length
  let s1 := nodeUsers (touchNodes (addRefs p (chainPages s p chain) s) p chain) p chain.getLast? (· + 1)
  let e := seqOf s1 i
  let e1 : SeqEntry := { SeqEntry.fresh with
    generation := e.generation, state := .running, pitch := p, streamId := handleOf s1 i
    length := n, tokens := tokens.take n, insert := insert, node := chain.getLast?
    links := chain.zipIdx.map fun k => (k.2, (nodeOf s1 p k.1).hash)
    layers := (List.range r.profile.layers).map (adoptedLayer s1 r chain)
    readyAt := s1.cairn.count }
  journalNote (putSeq s1 i e1) i

/-! ### Forks (R232) -/

/-- Give a layer of a forked sequence its own staging buffer with the parent's committed tokens. None where there is no space. -/
def copyStaging (s : State) (r : PitchRecord) (i j : Nat) : Option State :=
  match (seqOf s i).layers[j]? with
  | none => some s
  | some l =>
    if l.staging.address = 0 ∨ l.staging.count = 0 then
      some (onLayerAt s i j fun l => { l with staging := { l.staging with address := 0 } })
    else
      let (heads, d) := shapeAt s r j
      let half := stagingHalf heads d
      match spaceNow s r.pitch (2 * half) with
      | none => none
      | some (a, s1) =>
        let s2 := pokeBytes s1 (daOf s1 r a) (peekBytes s1 (daOf s1 r l.staging.address) half)
        some (stagingHeader (onLayerAt s2 i j fun l => { l with staging := { l.staging with address := a, inLarder := false } }) r i j)

/-- Copy the staging buffers of the layers of a list. -/
def copyStagings (r : PitchRecord) (i : Nat) : List Nat → State → Option State
  | [], s => some s
  | j :: t, s =>
    match copyStaging s r i j with
    | none => none
    | some s1 => copyStagings r i t s1

/-- Fork sequence i into the free entry k (R232): every committed page is referenced, staging, latch and sampler state and the journal are copied,
page lists and superpage summaries take places of their own (R206), an import under way goes on for the child without a notice (R327, R330), counters start at zero, and the stream ID is the new handle. A fork is a creation (R291), from which steps are counted (R293), so the child and
its journal stand at step 0 (DEDUCED: notes/assumptions/28.md). None is NO_CAPACITY (R233). -/
def forkSeq (s : State) (r : PitchRecord) (i k : Nat) : Option State :=
  let e := seqOf s i
  let pages := (e.layers.map (·.pages)).flatten
  if refsFit s r.pitch pages then
    let child : SeqEntry := { e with
      generation := (seqOf s k).generation, streamId := handleOf s k, node := none, exported := none, step := 0
      importing := e.importing.map fun m => { m with notice := false }
      journal := e.journal.map fun x => { x with step := 0 }
      layers := e.layers.map fun l => { l with counters := Counters.zeros, listAt := [], superAt := [] }, park := none, state := .idle }
    (copyStagings r k (List.range e.layers.length) (putSeq (addRefs r.pitch pages s) k child)).bind fun s1 => fitSeq s1 r.pitch k
  else none

/-! ### Freeing (R233, R310) -/

/-- Free the staging buffers, page lists and superpage summaries of a sequence. -/
def freeStagings (p : Nat) : List LayerState → State → State
  | [], s => s
  | l :: t, s => freeStagings p t (freePlaces p (l.listAt ++ l.superAt) (freeIf s p l.staging.address))

/-- Drop every reference of a sequence and free its entry (R233, R310, R338). -/
def releaseSeq (s : State) (i : Nat) : State :=
  let e := seqOf s i
  let s1 := dropRefs e.pitch ((e.layers.map (·.pages)).flatten) s
  freeEntry (nodeUsers (freeStagings e.pitch e.layers s1) e.pitch e.node (· - 1)) i

/-- The lead frees a sequence on every module of its group (R338, R361). -/
def freeSeq (s : State) (i : Nat) : State :=
  let p := (seqOf s i).pitch
  tellGroup (releaseSeq s i) p (.free (handleOf s i))

/-! ### Phase 2 of a park (R310 to R313) -/

/-- A park descriptor (R309). -/
structure ParkDesc where
  handle : Nat
  disposition : Nat
  flags : Nat
  destKind : Nat
  address : Nat
  length : Nat
  session : Nat
  deriving DecidableEq, Repr

/-- Read a park descriptor of 32 bytes. -/
def parkDesc (bs : List Byte) : ParkDesc :=
  ⟨leAt bs 0 4, leAt bs 4 1, leAt bs 5 1, leAt bs 6 1, leAt bs 8 8, leAt bs 16 8, leAt bs 24 2⟩

/-- The sequence is marked parked, and a park that writes an image enters phase 3 (R313); the command has the given tag, and its addresses lie in the
given function's space. -/
def beginPark (s : State) (i : Nat) (rid : Option Nat) (tag space : Nat) (d : ParkDesc) : State :=
  onSeq s i fun e => { e with
    state := .parked
    park := if d.disposition = 0 then none
      else some ⟨rid, false, d.disposition, d.destKind, d.address, d.length, d.session, 3, 0, tag, space⟩ }

/-- Counters start at zero when a sequence is resumed (R299). -/
def zeroCounters (e : SeqEntry) : SeqEntry := { e with layers := e.layers.map fun l => { l with counters := Counters.zeros } }

/-- A sequence parked on its pitch is resumed in place (R325): it is IDLE again, or enters HELD while its hold cause stands (R363;
DEDUCED: notes/assumptions/28.md). The pages that its image holds, at the given places, are imported from the recorded destination; with none the resume
has no import and no notice (R342). -/
def resumeInPlace (s : State) (i tag : Nat) (o : Origin) (places : NMap (Nat × Nat)) : State :=
  let s1 := onSeq s i fun e =>
    let e1 := zeroCounters { e with state := if e.hold = 0 then .idle else .held }
    match e.exported with
    | none => e1
    | some x =>
      if toImport s i = [] then { e1 with exported := none }
      else { e1 with exported := none, source := some x, importing := some ⟨tag, o, decide (e.hold = 0), false, places⟩ }
  let e := seqOf s i
  if e.hold = 0 then s1 else rangerEvent s1 0x0C 0x0A03 e.pitch (servingDetail (handleOf s i) 0 0xFFFF 0 e.hold)

end Sys2Proof.Machine
end

