-- ==== Sys2Proof/Machine/Waypoint.lean ====
section
/-! DEFINITION. Waypoint images (R317 to R324, R326, R327): the plaintext of every record, the layout and sealing of an image, and what is
read back from one. -/

namespace Sys2Proof.Machine

/-- The value of big-endian bytes. -/
def beAt (bs : List Byte) (off n : Nat) : Nat := leVal ((bs.drop off).take n).reverse

/-- The next multiple of 64 at or above n (R318). -/
def align64 (n : Nat) : Nat := ceilDiv n 64 * 64

/-! ### Record plaintexts (R319 to R322) -/

/-- A record of an image after the directory. -/
structure ImageRec where
  kind : Nat
  layer : Nat
  plain : List Byte
  deriving DecidableEq, Repr

/-- The pending count and the eight pending tokens. -/
def pendingBytes (p : Option Nat) : List Byte × List Byte :=
  (leBytes 1 p.toList.length, padTo 32 ((p.toList.map (leBytes 4)).flatten))

/-- Kind 0x0001: sequence state. -/
def stateRecord (e : SeqEntry) : List Byte :=
  let (n, ts) := pendingBytes e.pending
  leBytes 8 e.step ++ leBytes 4 e.length ++ n ++ leBytes 3 0 ++ ts ++ leBytes 16 0

/-- Read a latch record. -/
def latchOf (bs : List Byte) : Latch := ⟨leAt bs 0 8, leAt bs 8 1, bitOf (leAt bs 9 1) 0, leAt bs 12 4⟩

/-- A counter record (R299). -/
def counterBytes (c : Counters) : List Byte :=
  leBytes 4 c.saturated ++ leBytes 4 c.zero ++ leBytes 4 c.replays ++ leBytes 4 c.wide ++ leBytes 4 c.preshift ++ leBytes 4 c.promoted
    ++ leBytes 2 c.samples ++ leBytes 2 c.exceeds ++ leBytes 4 0

/-- A journal entry (R320). -/
def journalBytes (j : JournalEntry) : List Byte :=
  let (n, ts) := pendingBytes j.pending
  leBytes 4 j.length ++ leBytes 4 j.decisions.length ++ leBytes 8 j.step ++ n ++ leBytes 15 0 ++ ts ++ (j.latches.map latchBytes).flatten
    ++ (j.decisions.map fun d => leBytes 2 d.layer ++ leBytes 1 d.level ++ leBytes 1 (if d.denied then 1 else 0) ++ leBytes 4 d.position).flatten

/-- Read n journal entries of a sequence with L layers. -/
def journalOf (layers : Nat) : Nat → List Byte → List JournalEntry
  | 0, _ => []
  | n + 1, bs =>
    let d := leAt bs 4 4
    let pend := if leAt bs 16 1 = 0 then none else some (leAt bs 32 4)
    let ls := (List.range layers).map fun j => latchOf (bs.drop (64 + 16 * j))
    let ds : List Decision := (List.range d).map fun k =>
      let o := 64 + 16 * layers + 8 * k
      ⟨leAt bs o 2, leAt bs (o + 2) 1, bitOf (leAt bs (o + 3) 1) 0, leAt bs (o + 4) 4⟩
    ⟨leAt bs 0 4, leAt bs 8 8, pend, ls, ds⟩ :: journalOf layers n (bs.drop (64 + 16 * layers + 8 * d))

/-- Kind 0x0003: journal, oldest entry first. -/
def journalRecord (e : SeqEntry) : List Byte := leBytes 4 e.journal.length ++ leBytes 12 0 ++ (e.journal.map journalBytes).flatten

/-- Kind 0x0004: prefix links. -/
def linksRecord (e : SeqEntry) : List Byte :=
  leBytes 4 e.links.length ++ leBytes 4 0 ++ (e.links.map fun l => leBytes 4 l.1 ++ leBytes 4 0 ++ leBytes 8 l.2).flatten

/-- A staging payload with its rows at and beyond `count` zero (R319): each region of each KV head keeps its first rows. -/
def clearRows (tag heads d count : Nat) (bs : List Byte) : List Byte :=
  let kb := keyRowBytes tag d
  let vb := valueRowBytes tag d
  ((List.range heads).map fun h =>
    padTo (256 * kb) ((bs.drop (keyRowOffset tag d h 0)).take (count * kb))
      ++ padTo (256 * vb) ((bs.drop (valueRowOffset tag d h 0)).take (count * vb))).flatten

/-- Kind 0x0005: the staging buffer of a layer. -/
def stagingRecord (s : State) (r : PitchRecord) (i j : Nat) (l : LayerState) : List Byte :=
  let (heads, d) := shapeAt s r j
  let g := l.staging
  let payload := if g.address = 0 then [] else peekBytes s (daOf s r (g.address + 64)) (pageBytes g.tag heads d)
  leBytes 4 (handleOf s i) ++ leBytes 2 (r.group.firstLayer + j) ++ leBytes 1 g.tag ++ leBytes 1 g.count ++ leBytes 4 g.firstPosition
    ++ leBytes 52 0 ++ clearRows g.tag heads d g.count payload

/-- Read one record of a summary. -/
def summaryOf (d : Nat) (bs : List Byte) : SummaryRec :=
  ⟨(bs.take d).map BitVec.toInt, ((bs.drop d).take (d / 32)).map BitVec.toNat, BitVec.ofNat 32 (leAt bs (d + d / 32) 4)⟩

/-- Read the k-th summary of a layer. -/
def summaryAt (heads d k : Nat) (bs : List Byte) : List SummaryRec :=
  (List.range heads).map fun h => summaryOf d (bs.drop (summaryLength d * (heads * k + h)))

/-- Kind 0x0007: page summaries in page order, then superpage summaries. -/
def summariesRecord (s : State) (p : Nat) (l : LayerState) : List Byte :=
  ((l.pages.map fun n => ((pageOf s p n).summary.map summaryBytes).flatten).flatten)
    ++ (l.supers.map fun x => (x.2.map summaryBytes).flatten).flatten

/-- A page whose payload the module can read, or read back (R321, R336). -/
def pageReadable (g : Page) : Bool := decide (copyAt g ≠ 0) || decide (g.state = .exported)

/-- The payload of a page; that of an EXPORTED page has been read back from the sequence's earlier image (R321): `back` holds those by page
number. -/
def payloadOf (s : State) (p : Nat) (back : NMap (List Byte)) (n : Nat) : List Byte :=
  let g := pageOf s p n
  if g.state = .exported then padTo (payloadBytes g) (mgetD back n []) else peekBytes s (pitchDa s p (copyAt g)) (payloadBytes g)

/-- The payloads of the readable pages of a list, with their page numbers. -/
def payloadsOf (s : State) (p : Nat) (back : NMap (List Byte)) (ns : List Nat) : List (Nat × List Byte) :=
  (ns.filter fun n => pageReadable (pageOf s p n)).map fun n => (n, payloadOf s p back n)

/-- A page-list entry (R321): `first` is the number of the layer's first payload record; a page without a readable copy has record 0. -/
def pageListEntry (s : State) (p first : Nat) (pay : List (Nat × List Byte)) (n : Nat) : List Byte :=
  let g := pageOf s p n
  let (k, dg) : Nat × List Byte := match pay.findIdx? fun x => decide (x.1 = n) with
    | some k => (first + k, beBytes 48 (Config.sha384 ((pay.getD k (0, [])).2)))
    | none => (0, leBytes 48 0)
  leBytes 1 (pageStateCode g.state) ++ leBytes 1 g.tag ++ leBytes 2 0 ++ leBytes 4 k ++ leBytes 8 0 ++ dg

/-- Kind 0x0006: the page list of a layer. -/
def pageListRecord (s : State) (p first : Nat) (pay : List (Nat × List Byte)) (l : LayerState) : List Byte :=
  leBytes 4 l.pages.length ++ leBytes 12 0 ++ (l.pages.map (pageListEntry s p first pay)).flatten

/-- The records of the layers from place j on: kinds 0x0005, 0x0006 and 0x0007, layer by layer. -/
def layerRecords (s : State) (r : PitchRecord) (i : Nat) : Nat → Nat → List LayerState → List (List (Nat × List Byte)) → List ImageRec
  | _, _, [], _ => []
  | j, first, l :: t, pays =>
    let pay := pays.headD []
    let layer := r.group.firstLayer + j
    ⟨5, layer, stagingRecord s r i j l⟩ :: ⟨6, layer, pageListRecord s r.pitch first pay l⟩ :: ⟨7, layer, summariesRecord s r.pitch l⟩
      :: layerRecords s r i (j + 1) (first + pay.length) t pays.tail

/-- Every record after the directory, in the order of R319. -/
def imageRecords (s : State) (r : PitchRecord) (i : Nat) (back : NMap (List Byte)) : List ImageRec :=
  let e := seqOf s i
  let pays := e.layers.map fun l => payloadsOf s r.pitch back l.pages
  let head : List ImageRec :=
    [⟨1, 0, stateRecord e⟩, ⟨2, 0, (e.layers.map fun l => latchBytes l.latch).flatten⟩, ⟨3, 0, journalRecord e⟩, ⟨4, 0, linksRecord e⟩]
  let body := layerRecords s r i 0 (5 + 3 * e.layers.length) e.layers pays
  let pages := (pays.zipIdx.map fun x => x.1.map fun b => (⟨8, r.group.firstLayer + x.2, b.2⟩ : ImageRec)).flatten
  head ++ body ++ pages

/-! ### Layout and sealing (R317, R318, R323) -/

/-- Offsets of records in the image from an offset on; ciphertext has the length of its plaintext and the tag has 16 bytes. -/
def recordOffsets : Nat → List ImageRec → List Nat
  | _, [] => []
  | o, x :: t => o :: recordOffsets (align64 (o + x.plain.length + 16)) t

/-- Bytes of the directory plaintext for n records. -/
def directoryLength (n : Nat) : Nat := 64 + 16 * n

/-- The offset of record 1. -/
def firstOffset (n : Nat) : Nat := align64 (128 + directoryLength n + 16)

/-- The length of the whole image. -/
def imageLength (xs : List ImageRec) : Nat :=
  let os := recordOffsets (firstOffset xs.length) xs
  os.getLastD 128 + (xs.getLastD ⟨0, 0, []⟩).plain.length + 16

/-- The generator seed's check bytes (R318). -/
def seedCheck (r : PitchRecord) : List Byte := (beBytes 48 (Config.sha384 (ascii "VZ8100 seed" ++ leBytes 16 (seedOf r)))).take 8

/-- The directory (R318). -/
def directoryPlain (r : PitchRecord) (xs : List ImageRec) : List Byte :=
  let os := recordOffsets (firstOffset xs.length) xs
  leBytes 4 xs.length ++ leBytes 4 0 ++ beBytes 48 r.profile.digest ++ seedCheck r
    ++ ((xs.zip os).map fun x => leBytes 8 x.2 ++ leBytes 4 x.1.plain.length ++ leBytes 2 x.1.kind ++ leBytes 2 x.1.layer).flatten

/-- The package digest of a pitch. -/
def packageDigest (s : State) (p : Nat) : Nat := ((pitchOf s p).package.map (·.digest)).getD 0

/-- The image header (R317). -/
def imageHeader (s : State) (r : PitchRecord) (i : Nat) (released : Bool) (salt : List Byte) (xs : List ImageRec) : List Byte :=
  let e := seqOf s i
  ascii "VZWP" ++ leBytes 2 1 ++ leBytes 2 1 ++ leBytes 4 ((if e.inexact then 1 else 0) + (if released then 2 else 0))
    ++ leBytes 4 (xs.length + 1) ++ leBytes 8 (imageLength xs) ++ beBytes 48 (packageDigest s r.pitch) ++ padTo 32 salt
    ++ leBytes 4 (handleOf s i) ++ leBytes 4 e.streamId ++ leBytes 4 e.length ++ leBytes 2 r.group.firstLayer ++ leBytes 2 e.layers.length
    ++ leBytes 2 r.group.groupSize ++ leBytes 2 r.group.groupPosition ++ leBytes 4 (directoryLength xs.length)

/-- The waypoint key of a pitch (R375). -/
def waypointKey (r : PitchRecord) : List Byte := (r.keys.map (·.waypoint)).getD []

/-- Seal record n under the image key (R323). -/
def sealRecord (key header : List Byte) (n : Nat) (plain : List Byte) : List Byte :=
  padTo (plain.length + 16) (Config.gcmSeal key (leBytes 4 n ++ leBytes 8 0) header plain)

/-- The sealed image: header, directory and records, each at its offset. -/
def sealImage (r : PitchRecord) (header salt : List Byte) (xs : List ImageRec) : List Byte :=
  let key := (Config.hmacSha384 (waypointKey r) (ascii "VZ8100 waypoint" ++ salt)).take 32
  let dir := sealRecord key header 0 (directoryPlain r xs)
  let start := padTo (firstOffset xs.length) (header ++ dir)
  let recs := xs.zipIdx.map fun x =>
    let b := sealRecord key header (x.2 + 1) x.1.plain
    if x.2 + 1 = xs.length then b else padTo (align64 b.length) b
  start ++ recs.flatten

/-- Send an image to a session in IMAGE_DATA messages (R348) of at most 8,896 bytes (R347). -/
def sendImage (n tag : Nat) : Nat → Nat → List Byte → State → State
  | 0, _, _, s => s
  | k + 1, o, bs, s =>
    if bs = [] then s
    else sendImage n tag k (o + 8880) (bs.drop 8880) (sendMessage s n msgImageData (leBytes 4 tag ++ leBytes 4 0 ++ leBytes 8 o ++ bs.take 8880))

/-! ### Reading an image (R326, R327) -/

/-- Whether every record kind of a directory is known (R319). -/
def kindsKnown (dir : List Byte) : Bool :=
  (List.range (leAt dir 0 4)).all fun k => decide (1 ≤ leAt dir (64 + 16 * k + 12) 2 ∧ leAt dir (64 + 16 * k + 12) 2 ≤ 8)

/-- Magic, format and record kinds are known (check 2). -/
def imageKnown (m : ImageRead) : Bool :=
  decide (m.header.take 4 = ascii "VZWP") && decide (leAt m.header 4 2 = 1) && kindsKnown m.directory

/-- The image names the module's place (check 5). -/
def imagePlace (r : PitchRecord) (m : ImageRead) : Bool :=
  decide (leAt m.header 116 2 = r.group.firstLayer) && decide (leAt m.header 118 2 = r.profile.layers)
    && decide (leAt m.header 120 2 = r.group.groupSize) && decide (leAt m.header 122 2 = r.group.groupPosition)

/-- Arithmetic version, profile digest and seed check match (check 6). -/
def imageExact (r : PitchRecord) (m : ImageRead) : Bool :=
  decide (leAt m.header 6 2 = 1) && decide (beAt m.directory 8 48 = r.profile.digest) && decide ((m.directory.drop 56).take 8 = seedCheck r)

/-- A source entry's fields are valid (check 1; R309, R325, R338). -/
def sourceOk (r : PitchRecord) (x : ImageSource) (bs : List Byte) : Bool :=
  decide (x.flags < 2) && zerosAt bs 2 2 && zerosAt bs 22 10
    && (decide (x.destKind = 1 ∧ x.session = 0xFFFF)
      || (decide (x.destKind = 2 ∧ x.address = 0 ∧ x.length = 0) && r.sessions.any fun e => decide (e.session = x.session)))

/-- Read a source entry (R338) of a command whose addresses lie in a function's space. -/
def sourceOf (space : Nat) (bs : List Byte) : ImageSource := ⟨leAt bs 0 1, leAt bs 1 1, leAt bs 4 8, leAt bs 12 8, leAt bs 20 2, space⟩

/-- A record of an image by its place after the directory. -/
def recordAt (m : ImageRead) (k : Nat) : List Byte := m.records.getD k []

/-- Give the layers of an image their staging buffers (check 7). None where the pitch has no space. -/
def reserveStaging (r : PitchRecord) (i : Nat) (m : ImageRead) : List Nat → State → Option State
  | [], s => some s
  | j :: t, s =>
    let b := recordAt m (4 + 3 * j)
    let (heads, d) := shapeAt s r j
    let tag := leAt b 6 1 % 16
    let g : Staging := ⟨tag, leAt b 7 1, leAt b 7 1, leAt b 8 4, 0, false, tag⟩
    let put (s : State) (a : Nat) : State := onLayerAt s i j fun l => { l with staging := { g with address := a } }
    if g.count = 0 then reserveStaging r i m t (put s 0)
    else
      match spaceNow s r.pitch (2 * stagingHalf heads d) with
      | none => none
      | some (a, s1) => reserveStaging r i m t (put s1 a)

/-- The entry of a sequence that is being read from an image: parked until every record has been read (R327). -/
def imageEntry (s : State) (r : PitchRecord) (i : Nat) (m : ImageRead) (x : ImageSource) : SeqEntry :=
  let st := recordAt m 0
  let ls := r.profile.layers
  { SeqEntry.fresh with
    generation := (seqOf s i).generation, state := .parked, pitch := r.pitch, streamId := leAt m.header 108 4
    inexact := bitOf (leAt m.header 8 4) 0 || !imageExact r m
    length := leAt st 8 4, step := leAt st 0 8, pending := if leAt st 12 1 = 0 then none else some (leAt st 16 4)
    tokens := List.replicate (leAt st 8 4) unknownToken
    links := (List.range (leAt (recordAt m 3) 0 4)).map fun k => (leAt (recordAt m 3) (8 + 16 * k) 4, leAt (recordAt m 3) (16 + 16 * k) 8)
    layers := (List.range ls).map fun j => { LayerState.fresh with latch := latchOf ((recordAt m 1).drop (16 * j)) }
    journal := journalOf ls (leAt (recordAt m 2) 0 4) ((recordAt m 2).drop 16)
    source := some x }

/-- The page of a tree node that a prefix link names, when its digest is that of the list entry and it is not lost (R225, R327). -/
def linkedPage (s : State) (p j k digest : Nat) (e : SeqEntry) : Option Nat :=
  match mget e.links k with
  | none => none
  | some h =>
    (pitchOf s p).tree.findSome? fun n =>
      let pg := n.2.pages.getD j 0
      if n.2.hash = h ∧ n.2.chunk = k ∧ (pageOf s p pg).digest = digest ∧ (pageOf s p pg).state ≠ lostState then some pg else none

/-- Add page k of layer j: a reference to a page of the tree, or a new descriptor in state EXPORTED with its summary (R327). None where the
reference cannot be taken or the pitch has no space (R233, R326 check 7). -/
def addPage (s : State) (r : PitchRecord) (i j k : Nat) (m : ImageRead) : Option State :=
  let add (s : State) (n : Nat) : State := onLayerAt s i j fun l => { l with pages := l.pages ++ [n] }
  let p := r.pitch
  let (heads, d) := shapeAt s r j
  let entry := (recordAt m (5 + 3 * j)).drop (16 + 64 * k)
  let digest := beAt entry 16 16
  match linkedPage s p j k digest (seqOf s i) with
  | some n => if refsFit s p [n] then some (add (addRefs p [n] s) n) else none
  | none =>
    (newPage s p heads d).map fun x =>
      let g : Page := { Page.fresh with
        state := .exported, tag := leAt entry 1 1, layer := r.group.firstLayer + j, firstPosition := 256 * k, refcount := 1
        kvHeads := heads, dim32 := d / 32, summaryAt := x.2.1, summary := summaryAt heads d k (recordAt m (6 + 3 * j)), digest := digest }
      add (putPage x.2.2 p x.1 g) x.1

/-- Add the pages of a layer. -/
def addPages (r : PitchRecord) (i j : Nat) (m : ImageRead) : List Nat → State → Option State
  | [], s => some s
  | k :: t, s =>
    match addPage s r i j k m with
    | none => none
    | some s1 => addPages r i j m t s1

/-- Read the records of the layers of a list: staging contents, pages and superpage summaries (R327). None where there is no space. -/
def readLayers (r : PitchRecord) (i : Nat) (m : ImageRead) : List Nat → State → Option State
  | [], s => some s
  | j :: t, s =>
    let (heads, d) := shapeAt s r j
    let count := leAt (recordAt m (5 + 3 * j)) 0 4
    let a := ((seqOf s i).layers.getD j LayerState.fresh).staging.address
    let s1 := if a = 0 then s else pokeBytes s (daOf s r (a + 64)) ((recordAt m (4 + 3 * j)).drop 64)
    let sup : NMap (List SummaryRec) := (List.range (count / 64)).map fun k => (k, summaryAt heads d (count + k) (recordAt m (6 + 3 * j)))
    match addPages r i j m (List.range count) s1 with
    | none => none
    | some s2 =>
      match fitLayer (onLayerAt s2 i j fun l => { l with supers := sup }) r.pitch i j with
      | none => none
      | some s3 => readLayers r i m t (stagingHeader s3 r i j)

/-- Put back the summaries of a sequence's EXPORTED pages of a layer, as its image gives them. None where there is no space for one. -/
def restoreSummaries (s : State) (p heads d j : Nat) (m : ImageRead) : List (Nat × Nat) → Option State
  | [] => some s
  | (n, k) :: t =>
    let g := pageOf s p n
    if g.state = .exported ∧ g.summaryAt = 0 then
      match spaceNow s p (heads * summaryLength d) with
      | none => none
      | some (a, s1) =>
        restoreSummaries (putPage s1 p n { pageOf s1 p n with summaryAt := a, summary := summaryAt heads d k (recordAt m (6 + 3 * j)) })
          p heads d j m t
    else restoreSummaries s p heads d j m t

/-- Put back the summaries of every layer of a list. -/
def restoreLayers (r : PitchRecord) (i : Nat) (m : ImageRead) : List Nat → State → Option State
  | [], s => some s
  | j :: t, s =>
    let (heads, d) := shapeAt s r j
    let pages := ((seqOf s i).layers.getD j LayerState.fresh).pages
    match restoreSummaries s r.pitch heads d j m pages.zipIdx with
    | none => none
    | some s1 => restoreLayers r i m t s1

/-! ### The checks of a module (R324, R326) -/

/-- The source entry of a module among those of its group, by its place (R325, R338). -/
def sourceFor (sources : List Byte) (r : PitchRecord) : List Byte := (sources.drop (32 * r.group.groupPosition)).take 32

/-- Checks 1 to 6 of R326 on a module's own image, in order: the first that fails, with its return code. `count` is the number of images that
the resume names. -/
def resumeCheck (s : State) (r : PitchRecord) (count : Nat) (bs : List Byte) (m : ImageRead) : Option (Nat × Nat) :=
  let x := sourceOf 0 bs
  if count ≠ r.group.groupSize ∨ sourceOk r x bs = false then some (1, rcBadArgument)
  else if imageKnown m = false then some (2, rcVersionMismatch)
  else if m.directoryTag = false then some (3, rcAuthFail)
  else if (pitchOf s r.pitch).package = none ∨ beAt m.header 24 48 ≠ packageDigest s r.pitch then some (4, rcVersionMismatch)
  else if imagePlace r m = false then some (5, rcBadArgument)
  else if imageExact r m = false ∧ bitOf x.flags 0 = false then some (6, rcVersionMismatch)
  else none

/-- Every check of R326 on a module's image, for a sequence in entry i: the failed check and its return code, or the state with the entry and
its staging buffers. Check 7 asks that the pages' summaries and descriptors find space too. -/
def takeImage (s : State) (r : PitchRecord) (i count space : Nat) (bs : List Byte) (m : ImageRead) : Except (Nat × Nat) State :=
  match resumeCheck s r count bs m with
  | some e => .error e
  | none =>
    let layers := List.range r.profile.layers
    match reserveStaging r i m layers (putSeq s i (imageEntry s r i m (sourceOf space bs))) with
    | none => .error (7, rcNoCapacity)
    | some s1 =>
      if (readLayers r i m layers s1).isNone then .error (7, rcNoCapacity)
      else if m.recordsTag = false then .error (8, rcAuthFail)
      else .ok s1

/-! ### Reading from an image (R324, R325, R327, R348) -/

/-- The range of the image that a record takes with its tag, by its place after the directory. -/
def recordRange (m : ImageRead) (k : Nat) : Nat × Nat := (leAt m.directory (64 + 16 * k) 8, leAt m.directory (72 + 16 * k) 4 + 16)

/-- The ranges of an image that are still to be read before its records are known: the header, then the directory, then every record but the
page payloads. Nothing more is read after a tag that fails. -/
def nextReads (m : ImageRead) : List (Nat × Nat) :=
  if m.header.length < 128 then [(0, 128)]
  else if m.directoryTag = false then []
  else if m.directory = [] then [(128, leAt m.header 124 4 + 16)]
  else if m.recordsTag = false then []
  else
    let plain := (List.range (leAt m.directory 0 4)).filter fun k => decide (leAt m.directory (76 + 16 * k) 2 < 8)
    if m.records.length < plain.length then plain.map (recordRange m) else []

/-- The ranges that a module reads in turn of an image of which `m` is what reading it gave: those of the header, the directory and the records. -/
def allReads (m : ImageRead) : List (Nat × Nat) :=
  nextReads ⟨[], [], true, true, []⟩ ++ nextReads ⟨m.header, [], true, true, []⟩ ++ nextReads ⟨m.header, m.directory, m.directoryTag, true, []⟩

/-- Read a range of an image: from host memory in the source's space, or from the session under the resume's tag, where a first read leaves nothing of
an earlier one (R325, R348, R411). -/
def askRange (s : State) (x : ImageSource) (tag : Nat) (a : Nat × Nat) : State :=
  if x.destKind = 2 then
    let n := sessionOf s x.session
    let s1 := if a.1 = 0 then putSession s x.session { n with images := mdel n.images tag } else s
    sendMessage s1 x.session msgImageRead (leBytes 4 tag ++ leBytes 4 0 ++ leBytes 8 a.1 ++ leBytes 4 a.2)
  else send s (.dmaRead x.space (x.address + a.1) a.2)

/-- Read several ranges. -/
def askRanges (x : ImageSource) (tag : Nat) : List (Nat × Nat) → State → State
  | [], s => s
  | a :: t, s => askRanges x tag t (askRange s x tag a)

/-- Where the payload records of a sequence's EXPORTED pages lie in its image, by page number (R321). -/
def payloadPlaces (s : State) (i : Nat) (m : ImageRead) : NMap (Nat × Nat) :=
  let e := seqOf s i
  let layer (x : LayerState × Nat) : List (Nat × Nat × Nat) :=
    x.1.pages.zipIdx.map fun n => (n.1, recordRange m (leAt (recordAt m (5 + 3 * x.2)) (20 + 64 * n.2) 4 - 1))
  (((e.layers.zipIdx.map layer).flatten).filter fun n => decide ((pageOf s e.pitch n.1).state = .exported)).foldl (fun a n => mset a n.1 n.2) []

/-- The page that a sequence imports next: one that a step chose, or the first in its own order (R220, R327). -/
def nextImport (s : State) (i : Nat) : Option Nat :=
  let ns := toImport s i
  match ns.find? fun n => (pageOf s (seqOf s i).pitch n).wanted with
  | some n => some n
  | none => ns.head?

/-- Read the payload of the page that a sequence imports next (R327, R348). -/
def askPage (s : State) (i : Nat) : State :=
  let e := seqOf s i
  match e.importing, e.source, nextImport s i with
  | some m, some x, some n =>
    (match mget m.places n with
    | some a => askRange s x m.tag a
    | none => s)
  | _, _, _ => s

/-- The sequence of a resume from images is IDLE, and imports its EXPORTED pages (R327, R331). -/
def imageTaken (s : State) (i tag : Nat) (o : Origin) (m : ImageRead) : State :=
  let places := payloadPlaces s i m
  askPage (onSeq s i fun e => { e with state := .idle, importing := if toImport s i = [] then none else some ⟨tag, o, true, true, places⟩ }) i

/-- A parked sequence is resumed in place, and its EXPORTED pages, whose summaries its image gives, are imported (R325). None where there is no
space. -/
def resumeExported (s : State) (r : PitchRecord) (i tag : Nat) (o : Origin) (m : ImageRead) : Option State :=
  (restoreLayers r i m (List.range (seqOf s i).layers.length) s).map fun s1 =>
    importDone (askPage (resumeInPlace s1 i tag o (payloadPlaces s1 i m)) i) i

end Sys2Proof.Machine
end

