-- ==== Sys2Proof/Machine/Decisions.lean ====
section
/-! DEFINITION. The lead's decisions for the modules of a pitch group (R229, R313, R325, R361): how another module applies them at a start
tick, and their bytes on the fabric management channel. Choices the spec leaves: notes/assumptions/27.md. -/

namespace Sys2Proof.Machine

/-! ### Applying decisions -/

/-- An entry for a handle that the lead has allocated (R325). -/
def openEntry (s : State) (h : Nat) : State := putSeq s (handleIndex h) { SeqEntry.fresh with generation := handleGeneration h }

/-- A sequence that this module could not give what the decision asks for is held for want of capacity (R233, R336). -/
def heldEntry (s : State) (r : PitchRecord) (h : Nat) : State :=
  let i := handleIndex h
  holdSeq (putSeq s i { SeqEntry.fresh with
    generation := handleGeneration h, state := .idle, pitch := r.pitch, streamId := h
    layers := List.replicate r.profile.layers LayerState.fresh }) i 2 rcNoCapacity

/-- RESUME_REFUSED of an image (R326, R332). -/
def refusedEvent (s : State) (p check result : Nat) (m : ImageRead) : State :=
  rangerEvent s 0x0C 0x0902 p (waypointDetail (leAt m.header 104 4) (leAt m.header 108 4) result check 0)

/-- Tell the lead that a resume is refused here (R326): handle, check and return code. -/
def tellRefusal (s : State) (r : PitchRecord) (h check result : Nat) : State :=
  sendPeer s r (r.group.members.headD 0) (leBytes 4 h ++ leBytes 4 check ++ leBytes 4 result)

/-- A resume from images on a module that is not the lead: its own image is read under the resume's tag (R348), checked and taken under the lead's
handle; a refusal leaves no effect and is told to the lead (R325 to R327). -/
def followResume (s0 : State) (r : PitchRecord) (h tag : Nat) (sources : List Byte) (m : ImageRead) : State :=
  let i := handleIndex h
  let x := sourceOf (r.pitch + 1) (sourceFor sources r)
  let s := if sourceOk r x (sourceFor sources r) then askRanges x tag (allReads m) s0 else s0
  match takeImage (openEntry s h) r i (sources.length / 32) x.space (sourceFor sources r) m with
  | .error e => tellRefusal (refusedEvent s r.pitch e.1 e.2 m) r h e.1 e.2
  | .ok s1 =>
    match readLayers r i m (List.range r.profile.layers) s1 with
    | none => tellRefusal (refusedEvent s r.pitch 7 rcNoCapacity m) r h 7 rcNoCapacity
    | some s2 => holdIfLost (imageTaken s2 i tag .device m) i

/-- The lead asks whether a resume in place may go on: the module reads its own image under the resume's tag, and a tag that fails, or pages for whose
summaries there is no space, refuses the resume (R324, R348). Nothing else changes before the lead has heard every module. -/
def followCheck (s0 : State) (r : PitchRecord) (h tag : Nat) (image : Option ImageRead) : State :=
  let i := handleIndex h
  let e := seqOf s0 i
  match e.exported, image with
  | some x, some m =>
    if e.state ≠ .parked then s0
    else
      let s := askRanges x tag (allReads m) s0
      if m.directoryTag = false ∨ m.recordsTag = false then tellRefusal s r h 8 rcAuthFail
      else if (resumeExported s r i tag .device m).isNone then tellRefusal s r h 7 rcNoCapacity
      else s
  | _, _ => s0

/-- A resume in place on a module that is not the lead: the summaries of EXPORTED pages come from the module's image, whose tags have been checked
(R324, R325). -/
def followInPlace (s : State) (r : PitchRecord) (h tag : Nat) (image : Option ImageRead) : State :=
  let i := handleIndex h
  let e := seqOf s i
  if e.state ≠ .parked then s
  else
    match e.exported, image with
    | none, _ => resumeInPlace s i tag .device []
    | some _, none => s
    | some _, some m => (resumeExported s r i tag .device m).getD (holdSeq s i 2 rcNoCapacity)

/-- A fork under the handle that the lead has given the child (R232, R313). -/
def followFork (s : State) (r : PitchRecord) (parent child : Nat) : State :=
  match forkSeq (openEntry s child) r (handleIndex parent) (handleIndex child) with
  | none => heldEntry s r child
  | some s1 => holdIfLost s1 (handleIndex child)

/-- Apply one decision on a module that is not the lead (R229, R313, R361). -/
def applyDecision (s : State) (r : PitchRecord) : LeadDecision → State
  | .create h stream adopted =>
    let i := handleIndex h
    let s0 := openEntry s h
    let chain := matchChain s0 r.pitch (prefixKey r) (adopted.length / 256) 0 0 0 adopted
    match fitSeq (createSeq s0 r i chain adopted false) r.pitch i with
    | some s1 =>
      if chain.length = adopted.length / 256 then holdIfLost (onSeq s1 i fun e => { e with streamId := stream }) i
      else heldEntry s r h
    | none => heldEntry s r h
  | .insert h chunk tokens => if handleOk s r.pitch h then insertNode s r (handleIndex h) chunk tokens else s
  | .remove hash =>
    match mfind (pitchOf s r.pitch).tree fun _ n => decide (n.hash = hash) with
    | none => s
    | some (k, _) => removeNode s r.pitch k
  | .truncate h n =>
    if handleOk s r.pitch h then (truncateSeq s r (handleIndex h) n).getD (holdAtBoundary s (handleIndex h) 2 rcNoCapacity) else s
  | .fork parent child => if handleOk s r.pitch parent then followFork s r parent child else s
  | .park h tag desc => if handleOk s r.pitch h then beginPark s (handleIndex h) none tag (r.pitch + 1) (parkDesc desc) else s
  | .devicePark h => if handleOk s r.pitch h then devicePark s r (handleIndex h) else s
  | .checkInPlace h tag image => if handleOk s r.pitch h then followCheck s r h tag image else s
  | .resumeInPlace h tag image => if handleOk s r.pitch h then followInPlace s r h tag image else s
  | .resume h tag sources image => followResume s r h tag sources image
  | .free h => if handleOk s r.pitch h then releaseSeq s (handleIndex h) else s

/-- Apply the decisions of a start tick in order. -/
def applyDecisions (r : PitchRecord) : List LeadDecision → State → State
  | [], s => s
  | d :: t, s => applyDecisions r t (applyDecision s r d)

/-! ### Bytes of decisions -/

/-- A count and its tokens. -/
def tokenBytes (ts : List Nat) : List Byte := leBytes 4 ts.length ++ (ts.map (leBytes 4)).flatten

/-- A decision as the lead sends it; what a module has read of its own image is no part of it. -/
def decisionBytes : LeadDecision → List Byte
  | .create h stream adopted => leBytes 4 1 ++ leBytes 4 h ++ leBytes 4 stream ++ tokenBytes adopted
  | .insert h chunk tokens => leBytes 4 2 ++ leBytes 4 h ++ leBytes 4 chunk ++ tokenBytes tokens
  | .remove hash => leBytes 4 3 ++ leBytes 8 hash
  | .truncate h n => leBytes 4 4 ++ leBytes 4 h ++ leBytes 4 n
  | .fork parent child => leBytes 4 5 ++ leBytes 4 parent ++ leBytes 4 child
  | .park h tag desc => leBytes 4 6 ++ leBytes 4 h ++ leBytes 4 tag ++ padTo 32 desc
  | .resumeInPlace h tag _ => leBytes 4 7 ++ leBytes 4 h ++ leBytes 4 tag
  | .resume h tag sources _ => leBytes 4 8 ++ leBytes 4 h ++ leBytes 4 tag ++ leBytes 4 sources.length ++ sources
  | .free h => leBytes 4 9 ++ leBytes 4 h
  | .devicePark h => leBytes 4 10 ++ leBytes 4 h
  | .checkInPlace h tag _ => leBytes 4 11 ++ leBytes 4 h ++ leBytes 4 tag

/-- The request parameters of a generating row, for the module that samples (R339, R356): the block of R339, then its bitmap. -/
def samplingBytes (q : SampleParams) : List Byte :=
  let map := q.bitmap.getD []
  leBytes 4 q.temperature.toNat ++ leBytes 4 q.topP.toNat ++ leBytes 2 q.topK ++ leBytes 2 q.progress ++ leBytes 4 q.seed ++ leBytes 8 q.outAddress
    ++ leBytes 8 map.length ++ leBytes 4 0 ++ leBytes 1 q.stops.length ++ leBytes 3 0 ++ padTo 24 ((q.stops.map (leBytes 4)).flatten) ++ map

/-- The message of a start tick to another module (R361): the tick, the length table, the request parameters of its generating rows, and the
decisions. -/
def startMessage (tick : Nat) (table : List Byte) (samples : List (Option SampleParams)) (ds : List LeadDecision) : List Byte :=
  leBytes 8 tick ++ table
    ++ (samples.map fun q => match q with
      | none => leBytes 4 0
      | some q => leBytes 4 1 ++ samplingBytes q).flatten
    ++ leBytes 4 ds.length ++ (ds.map decisionBytes).flatten

end Sys2Proof.Machine
end

