-- ==== Sys2Proof/Machine/Serving.lean ====
section
/-! DEFINITION. Steps of a pitch: micro-batches (R353 to R360), group steps (R361, R362), the sampler (R356, R357), and
the step boundary (R210, R231, R236, R298, R302 to R306). -/

namespace Sys2Proof.Machine

/-! ### Composition (R224, R306, R353 to R355, R360) -/

/-- A sequence has a row in a micro-batch. -/
def inFlight (s : State) (p i : Nat) : Bool :=
  let x := pitchOf s p
  (x.batch.any fun m => decide (m.seq = i)) || x.batches.any fun b => b.2.any fun m => decide (m.seq = i)

/-- The inputs of a request that have not entered a step: adopted tokens never do (R230, R354). -/
def unconsumed (q : Request) : List Nat := q.tokens.drop (q.adopted + q.consumed)

/-- The tokens of a row (R354): the pending token, then inputs, up to prefill_chunk. -/
def rowTokens (r : PitchRecord) (e : SeqEntry) (q : Request) : List Nat := (e.pending.toList ++ unconsumed q).take r.profile.serving.prefillChunk

/-- Bytes of the pages that a row may fill in a layer: the first has the tag of the staged tokens, later ones the pitch's (R208, R224). -/
def filledDemand (s : State) (r : PitchRecord) (j : Nat) (l : LayerState) (new : Nat) : Nat :=
  let (heads, d) := shapeAt s r j
  let tag := r.profile.tags.getD j 0
  let n := (l.staging.count + new) / 256
  if n = 0 then 0 else pageBytes (if l.staging.count = 0 then tag else l.staging.tag) heads d + (n - 1) * pageBytes tag heads d

/-- Bytes of the committed pages that a row may be given in a layer: as many as it can choose, of the largest of the layer's pages (R216, R224). -/
def chosenDemand (s : State) (r : PitchRecord) (l : LayerState) (exact_ : Bool) : Nat :=
  let b := r.profile.lantern
  let n := if exact_ then l.pages.length else min l.pages.length (b.k + b.sink + b.recent)
  n * (l.pages.map fun k => payloadBytes (pageOf s r.pitch k)).foldl max 0

/-- HBM bytes that a row may need (R224). -/
def rowDemand (s : State) (r : PitchRecord) (e : SeqEntry) (exact_ : Bool) (new : Nat) : Nat :=
  (e.layers.zipIdx.map fun lj => chosenDemand s r lj.1 exact_ + filledDemand s r lj.2 lj.1 new).sum

/-- HBM bytes that a row's new pages need. -/
def newDemand (s : State) (r : PitchRecord) (m : MicroRow) : Nat :=
  ((seqOf s m.seq).layers.zipIdx.map fun lj => filledDemand s r lj.2 lj.1 m.newTokens).sum

/-- Bytes of a pitch's HBM quota that its pages may take: what the package, staging buffers, tables and lists leave (R224). -/
def pageRoom (s : State) (r : PitchRecord) : Nat :=
  let size := r.hbmSize * 2 ^ 30
  let hot := (((pitchOf s r.pitch).pages.filter fun g => decide (g.2.hot ≠ 0)).map fun g => payloadBytes g.2).sum
  size + hot - ((usedIn s r 0 size).map (·.2)).sum

/-- A row that carries an A16 layer reached by latch (R306). -/
def isWideRow (r : PitchRecord) (e : SeqEntry) : Bool :=
  !r.profile.quality.reference && decide (r.profile.activation < 2)
    && e.layers.any fun l => decide (2 ≤ r.profile.activation + l.latch.level)

/-- Every row of a pitch without selection, or in reference mode, attends to every page (R214, R294). -/
def exactRows (r : PitchRecord) : Bool := !r.profile.lantern.selection || r.profile.quality.reference

/-- The flags of a row (R185, R294). -/
def rowFlags (r : PitchRecord) (mask : Option Nat) : Nat :=
  (if exactRows r then 1 else 0) + (if r.profile.quality.reference then 2 else 0) + (if mask.isSome then 4 else 0)

/-- A mask descriptor is well formed: `bitmaps` counts the tiles with flag 0b10 and the reserved bytes are zero (R190). -/
def maskOk (s : State) (r : PitchRecord) (a : Nat) : Bool :=
  let da := daOf s r a
  let h := peekBytes s da 32
  let m := parseMask (peekBytes s da (32 + maskFlagBytes (leAt h 4 4) (leAt h 8 4)))
  decide (bitmapsBefore m (m.qTiles * m.kTiles) = leAt h 12 4) && zerosAt h 16 16

/-- End a request of a running sequence, which becomes IDLE; a CREATE that a function reset has undone frees its sequence (R425). -/
def endRequest (s : State) (i : Nat) (q : Request) (result endCode : Nat) : State :=
  let s1 := finish (onSeq s i fun e => if e.state = .running then { e with state := .idle } else e) q result endCode q.handle
    (if q.opcode = 1 then q.adopted else 0)
  if q.undo then freeSeq s1 i else s1

/-! ### Preempting parks (R311) -/

/-- A park with preempt goes ahead of the requests that it ends (R311). -/
def preempts (q : Request) : Bool := decide (q.opcode = 5) && bitOf (leAt q.descriptor 5 1) 0

/-- The requests of a handle accepted before a request. -/
def earlierOf (s : State) (q : Request) : List Request :=
  (s.reqs.takeWhile fun x => decide (x.rid ≠ q.rid)).filter fun x => decide (x.handle = q.handle)

/-- An accepted park stops the running request of a sequence at its next step boundary, whatever else of the sequence waits before it (R311), unless a
fork is pending, for which the park will be refused (R312). -/
def preempted (s : State) (i : Nat) : Bool :=
  s.reqs.any fun q => preempts q && decide (q.handle = handleOf s i ∧ q.state = .queued)
    && (earlierOf s q).all fun x => decide (x.opcode ≠ 4)

/-- What is left for the rest of a composition: rows, tokens, bytes of the HBM quota and wide rows. -/
structure Room where
  rows : Nat
  tokens : Nat
  bytes : Nat
  wide : Nat

/-- The running sequences of a pitch that are not in flight, in the order of R355. -/
def readySeqs (s : State) (p : Nat) : List Nat :=
  let l := seqsWhere s p fun i e => decide (e.state = .running) && !inFlight s p i
  sortBy (fun a b =>
    decide ((seqOf s a).readyAt < (seqOf s b).readyAt) || (decide ((seqOf s a).readyAt = (seqOf s b).readyAt) && decide (a ≤ b))) l

/-- Admit the sequences of a list into the micro-batch, in order, each if it fits (R355); requests that need no further step end (R185,
R190, R354, R360), and one that a park preempts takes none (R311). -/
def takeRows (r : PitchRecord) (tick : Nat) (masks : NMap Nat) : Room → List MicroRow → List Nat → State → State × List MicroRow
  | _, rows, [], s => (s, rows)
  | room, rows, i :: t, s =>
    let e := seqOf s i
    match runningReq s i with
    | none => takeRows r tick masks room rows t s
    | some q =>
      let toks := rowTokens r e q
      let mask := mget masks i
      let wide := isWideRow r e
      let bytes := rowDemand s r e (exactRows r) toks.length
      if preempted s i then takeRows r tick masks room rows t s
      else if q.deadline ≠ 0 ∧ q.deadline ≤ tick then takeRows r tick masks room rows t (endRequest s i q rcDeadlinePassed 3)
      else if toks = [] then takeRows r tick masks room rows t (endRequest s i q rcDone 1)
      else if 2 ^ 32 < e.length + toks.length then takeRows r tick masks room rows t (endRequest s i q rcNoCapacity 0)
      else if (mask.map (maskOk s r)).getD true = false then takeRows r tick masks room rows t (endRequest s i q rcBadArgument 0)
      else if room.rows = 0 ∨ room.tokens < toks.length ∨ room.bytes < bytes ∨ (wide ∧ room.wide = 0) then takeRows r tick masks room rows t s
      else
        let base := (rows.map (·.newTokens)).sum
        let m : MicroRow := ⟨i, some q.rid, e.length, toks.length, base, rowFlags r mask, mask.getD 0, toks, none⟩
        let s1 := onReq s q.rid fun q => { q with state := .inFlight, clearedHold := 0, consumed := q.consumed + (toks.length - e.pending.toList.length) }
        takeRows r tick masks ⟨room.rows - 1, room.tokens - toks.length, room.bytes - bytes, if wide then room.wide - 1 else room.wide⟩ (rows ++ [m]) t s1

/-- The micro-batch that the lead composes for a start tick (R355). -/
def compose (s : State) (r : PitchRecord) (tick : Nat) (masks : NMap Nat) : State × List MicroRow :=
  let v := r.profile.serving
  takeRows r tick masks ⟨v.rows, v.tokens, pageRoom s r, r.profile.quality.wideRows⟩ [] (readySeqs s r.pitch) s

/-! ### Group steps (R361, R362) -/

/-- The first multiple of 1,000 ns at or after a time (R362). -/
def nextMicro (t : Nat) : Nat := ceilDiv t 1000 * 1000

/-- Make a sequence of the lead's table known on a module that is not the lead (R361). -/
def followRow (s : State) (r : PitchRecord) (x : LengthRow) : State :=
  let i := handleIndex x.handle
  let e := seqOf s i
  if e.state ≠ .free ∧ e.generation = handleGeneration x.handle then
    onSeq s i fun e => { e with state := if e.state = .idle then .running else e.state }
  else
    putSeq s i { SeqEntry.fresh with
      generation := handleGeneration x.handle, state := .running, pitch := r.pitch, streamId := x.streamId, length := x.contextLength
      tokens := List.replicate x.contextLength unknownToken
      layers := List.replicate r.profile.layers LayerState.fresh }

/-- Make every row of the lead's table known. -/
def followRows (r : PitchRecord) : List LengthRow → State → State
  | [], s => s
  | x :: t, s => followRows r t (followRow s r x)

/-- The micro-batch that the lead's table describes. -/
def tableRows (table : List LengthRow) : List MicroRow :=
  table.map fun x =>
    ⟨handleIndex x.handle, none, x.contextLength, x.newTokens, x.tokenBase, x.flags, x.mask, List.replicate x.newTokens unknownToken, x.sample⟩

/-- Staging buffers are in the Larder while their sequence has a row of the micro-batch or of the next one, and otherwise in the pitch's HBM quota
(R208). -/
def placeStagings (s : State) (p : Nat) (rows : List MicroRow) : State :=
  let near (i : Nat) : Bool := (rows ++ nextRows s p).any fun m => decide (m.seq = i)
  let move (i : Nat) (l : LayerState) : LayerState :=
    { l with staging := { l.staging with inLarder := near i && decide (l.staging.address ≠ 0) } }
  { s with seqs := mmap s.seqs fun i e => if e.pitch = p then { e with layers := e.layers.map (move i) } else e }

/-- Enter a step with a micro-batch. -/
def enterStep (s : State) (p m : Nat) (rows : List MicroRow) : State :=
  onPitch (placeStagings s p rows) p fun x => { x with
    inStep := true, batch := rows, batches := mset x.batches m rows, timeouts := 0, uncorrectable := 0 }

/-- The lead of a group removes idle nodes at a start tick until the new pages of its rows find space (R229, R231; DESIGN CHOICE:
notes/assumptions/27.md). -/
def trimTree (p need : Nat) : Nat → State → State
  | 0, s => s
  | n + 1, s =>
    if (allocHot s p need).isSome then s
    else
      match idleNode s p with
      | none => s
      | some k => trimTree p need n (removeIdle s p k)

/-- The parameters with which a row is sampled: those that came with the lead's table, or those of the lead's own request when all its inputs
have entered a step (R356). -/
def rowSampling (s : State) (m : MicroRow) : Option SampleParams :=
  match m.sample with
  | some q => some q
  | none =>
    match m.rid.bind (reqOf s) with
    | none => none
    | some q => if unconsumed q = [] ∧ q.maxNew ≠ 0 then some q.params else none

/-- The lead sends the start of group step n to the other modules from position j on: each gets the table of the micro-batch that it runs, and the
decisions since the last step (R353, R361). -/
def sendStarts (r : PitchRecord) (n tick : Nat) (ds : List LeadDecision) : List Nat → State → State
  | [], s => s
  | j :: t, s =>
    let rows := mgetD (pitchOf s r.pitch).batches (microBatchOf r n j) []
    let body := startMessage tick (tableBytes s rows) (rows.map (rowSampling s)) ds
    sendStarts r n tick ds t (sendPeer s r (r.group.members.getD j 0) body)

/-- The lead starts group step n with a micro-batch: its decisions go out with the start (R229, R361). -/
def leadStart (s : State) (r : PitchRecord) (n tick : Nat) (rows : List MicroRow) : State :=
  let p := r.pitch
  let s0 := if 1 < r.group.groupSize then trimTree p ((rows.map (newDemand s r)).sum) (pitchOf s p).tree.length s else s
  let s1 := enterStep s0 p (microBatchOf r n 0) rows
  let s2 := sendStarts r n tick (pitchOf s1 p).decisions ((List.range (r.group.groupSize - 1)).map (· + 1)) s1
  onPitch s2 p fun x => { x with decisions := [] }

/-- The lead of a stopped pitch starts no step; the parks and frees that it still takes go to the other modules without one (R313, R338, R458; DESIGN
CHOICE: notes/assumptions/27.md). -/
def tellStopped (s : State) (r : PitchRecord) (tick : Nat) : State :=
  let p := r.pitch
  let ds := (pitchOf s p).decisions
  if isLead r ∧ ds ≠ [] then
    let s1 := sendStarts r (pitchOf s p).groupStep tick ds ((List.range (r.group.groupSize - 1)).map (· + 1)) s
    onPitch s1 p fun x => { x with decisions := [] }
  else s

/-- GROUP_STEP_START (R353, R355, R360 to R362): the start tick is the first multiple of 1,000 ns that the reports of the last step allow. -/
def startStep (s0 : State) (r : PitchRecord) (table : List LengthRow) (decisions : List LeadDecision) (masks : NMap Nat) : State :=
  let p := r.pitch
  let s := if (pitchOf s0 p).inStep then s0 else repairNow s0 p
  let x := pitchOf s p
  let tick := x.nextTick.getD (nextMicro s.cairn.count)
  let m := microBatchOf r x.groupStep r.group.groupPosition
  if ¬x.enabled ∨ x.groupDisabled ∨ x.inStep ∨ s.cairn.count < tick ∨ x.package = none then s
  else if x.stopped then tellStopped s r tick
  else if isLead r then
    let (s1, rows) := compose s r tick masks
    leadStart s1 r x.groupStep tick rows
  else enterStep (followRows r table (applyDecisions r decisions s)) p m (tableRows table)

/-- GROUP_STEP_START. -/
def execGroupStepStart (pitch now : Nat) (table : List LengthRow) (decisions : List LeadDecision) (masks : NMap Nat) (s : State) : Answer State :=
  if pitchOk pitch then
    match recordOf s pitch with
    | none => .next s
    | some r => .next (startStep (atTime s now) r table decisions masks)
  else .refused .noSuchUnit

/-! ### The sampler (R356, R357) -/

/-- Token v may be sampled (R339). -/
def allowed (q : SampleParams) (v : Nat) : Bool :=
  match q.bitmap with
  | none => true
  | some bs => bitOf (leAt bs (v / 8) 1) (v % 8)

/-- Logits with disallowed tokens at −∞ (R356). -/
def maskedLogits (q : SampleParams) (ls : List Word) : List Word := ls.zipIdx.map fun x => if allowed q x.2 then x.1 else infOf true

/-- acc[j] for the candidates (R356). -/
def accSums (c v0 : Word) : Word → List Ranked → List Word
  | _, [] => []
  | a, x :: t =>
    let a1 := fpAdd a (exp2 (fpMul (fpAdd x.v (flipSign v0)) c))
    a1 :: accSums c v0 a1 t

/-- Sample one token at a position (R356). Where no acc[j] reaches the threshold the spec states no n: it is a free value. -/
def sampleToken (seed pos stream : Nat) (q : SampleParams) (logits : List Word) : Nat :=
  let ls := (maskedLogits q logits).zipIdx.map fun x => (⟨x.1, x.2⟩ : Ranked)
  if isZero q.temperature then ((selectTop false 1 ls).headD ⟨0#32, 0⟩).pos
  else
    let top := selectTop false q.topK ls
    let c := fpMul log2e (rcp q.temperature)
    let acc := accSums c (top.headD ⟨0#32, 0⟩).v 0#32 top
    let last := acc.getLastD 0#32
    let th := fpMul q.topP last
    let u := genU seed (counterBlock pos q.seed stream 0 0 0 1)
    let n := (acc.findIdx? fun a => fpLe th a).getD (Config.lastCandidate acc % max 1 top.length)
    let an := fpDy (acc.getD n 0#32)
    let t := if isNaN (acc.getD n 0#32) || isInf (acc.getD n 0#32) then fpMul (rne32 ⟨u, -24⟩) (acc.getD n 0#32) else rne32 (dyMul ⟨u, -24⟩ an)
    let j := ((List.range (n + 1)).find? fun j => fpLt t (acc.getD j 0#32)).getD n
    (top.getD j ⟨0#32, 0⟩).pos

/-- Write token k of a request to out_address + 4 k (R342); a session takes its tokens in COMPLETE. -/
def writeToken (s : State) (q : Request) (k token : Nat) : State :=
  match q.origin with
  | .ring fn _ => send s (.dmaWrite fn (q.params.outAddress + 4 * k) (leBytes 4 token))
  | _ => s

/-- A progress completion after every p tokens (R342). -/
def progress (s : State) (i : Nat) (q : Request) : State :=
  if q.params.progress ≠ 0 ∧ q.produced % q.params.progress = 0 then
    let e := seqOf s i
    let bytes := completion q.tag rcAccepted q.opcode (compFlags e.inexact true false 0) q.handle q.produced q.consumed e.length
      (if q.opcode = 1 then q.adopted else 0)
    let s1 := answer s q.origin true bytes (lastN q.sinceProgress (outputTokens e))
    onReq s1 q.rid fun q => { q with sinceProgress := 0 }
  else s

/-- A sampled token is pending; where the journal has an entry of this boundary already, it is in that entry too (R236). -/
def setPending (e : SeqEntry) (token at_ : Nat) : SeqEntry :=
  { e with
    pending := some token, readyAt := at_
    journal := e.journal.dropLast ++ (e.journal.getLast?.map fun x => if x.length = e.length then { x with pending := some token } else x).toList }

/-- A row's step has closed on the last module with a sampled token: it is appended and written, a progress completion that is due goes out, and
the request ends or goes on (R342, R357 to R359); a preempting park ends it (R311). -/
def takeToken (s : State) (i : Nat) (q : Request) (token : Nat) : State :=
  let q1 := { q with produced := q.produced + 1, sinceProgress := q.sinceProgress + 1, state := .ready }
  let s1 := onReq (writeToken s q q.produced token) q.rid fun _ => q1
  let s2 := progress (onSeq s1 i fun e => setPending e token s1.cairn.count) i q1
  let q2 := (reqOf s2 q.rid).getD q1
  if q.params.stops.contains token then endRequest s2 i q2 rcDone 2
  else if q.maxNew ≤ q2.produced then endRequest s2 i q2 rcDone 1
  else if preempted s2 i then endRequest s2 i q2 rcRefusedState 4
  else s2

/-- A request goes on to its next step, unless a park preempts it (R311, R358). -/
def nextStep (s : State) (i : Nat) (q : Request) : State :=
  if preempted s i then endRequest s i q rcRefusedState 4
  else onReq (onSeq s i fun e => { e with readyAt := s.cairn.count }) q.rid fun q => { q with state := .ready }

/-- Close one row of a micro-batch on the lead (R354, R358). -/
def closeRow (s : State) (m : MicroRow) (token : Option Nat) : State :=
  match m.rid.bind (reqOf s) with
  | none => s
  | some q =>
    if (seqOf s m.seq).state ≠ .running then s
    else if unconsumed q ≠ [] then nextStep s m.seq q
    else if q.maxNew = 0 then endRequest s m.seq q rcDone 1
    else
      match token with
      | none => nextStep s m.seq q
      | some t => takeToken s m.seq q t

/-- Close the rows of a micro-batch with the tokens sampled for its sequences. -/
def closeRows (tokens : NMap Nat) : List MicroRow → State → State
  | [], s => s
  | m :: t, s => closeRows tokens t (closeRow s m (mget tokens m.seq))

/-- Sample for the rows whose request is generating (R356). -/
def sampleRows (r : PitchRecord) (logits : List RowLogits) : List MicroRow → State → NMap Nat → NMap Nat
  | [], _, acc => acc
  | m :: t, s, acc =>
    match rowSampling s m, logits.find? fun l => decide (l.seq = m.seq) with
    | some q, some l =>
      let e := seqOf s m.seq
      sampleRows r logits t s (mset acc m.seq (sampleToken (seedOf r) e.length e.streamId q l.logits))
    | _, _ => sampleRows r logits t s acc

/-! ### Commits (R210, R213) -/

/-- Commit the PENDING pages of a layer (R210): summary, HOT, refcount 1, page list, and the superpage that the page completes (R213). -/
def commitPages (r : PitchRecord) (i j : Nat) : List Nat → State → State
  | [], s => s
  | n :: t, s =>
    let p := r.pitch
    let g := pageOf s p n
    let d := 32 * g.dim32
    let payload := peekBytes s (daOf s r g.hot) (payloadBytes g)
    if g.state ≠ .pending then commitPages r i j t s else
    let s1 := putPage s p n { g with state := .hot, refcount := 1, summary := pageSummary g.tag g.kvHeads d payload, digest := pageDigest payload }
    let s2 := onLayerAt s1 i j fun l => { l with pages := l.pages ++ [n] }
    let pages := ((seqOf s2 i).layers.getD j LayerState.fresh).pages
    let s3 := if pages.length % 64 = 0 then
        let k := pages.length / 64 - 1
        let sum := superSummary s2 p g.kvHeads d (pages.drop (64 * k))
        onLayerAt s2 i j fun l => { l with supers := mset l.supers k sum }
      else s2
    commitPages r i j t s3

/-- Commit a layer of a sequence: its PENDING pages, then its staging buffer. -/
def commitLayer (s : State) (r : PitchRecord) (i j : Nat) : State :=
  match (seqOf s i).layers[j]? with
  | none => s
  | some l =>
    let (heads, d) := shapeAt s r j
    let half := stagingHalf heads d
    let moved := if l.pendingPages = [] ∨ l.staging.staged = 0 then s
      else pokeBytes s (daOf s r l.staging.address) (peekBytes s (daOf s r (l.staging.address + half)) half)
    let s1 := commitPages r i j l.pendingPages moved
    let s2 := onLayerAt s1 i j fun l => { l with
      pendingPages := [], stepBlocks := 0, stepSaturated := 0
      staging := { l.staging with count := l.staging.staged, firstPosition := 256 * l.pages.length, boundTag := l.staging.tag } }
    stagingHeader s2 r i j

/-- Commit the layers of a list. -/
def commitLayers (r : PitchRecord) (i : Nat) : List Nat → State → State
  | [], s => s
  | j :: t, s => commitLayers r i t (commitLayer s r i j)

/-! ### Outcomes and latches (R298, R302 to R306) -/

/-- The comparison of R298: d, and whether the sample exceeds. -/
def lookoutCompare (tau : Word) (normal wide : List Word) : Word × Bool :=
  let pairs := normal.zip wide
  let fold (xs : List Word) : Word := match xs with
    | [] => 0#32
    | x :: t => t.foldl fpMax x
  let d := fold (pairs.map fun x => clearSign (fpAdd x.1 (flipSign x.2)))
  let n := fold (pairs.map fun x => clearSign x.2)
  (d, (pairs.any fun x => isNaN x.1 || isNaN x.2) || fpLt (fpMul tau n) d || (isZero n && fpLt 0#32 d))

/-- The counter monitor's limit of a layer (R296). -/
def satLimit (s : State) (p layer : Nat) : Nat := ((layerImage s p layer).map fun l => leAt l.quality 4 2).getD 0

/-- The Lookout threshold of a layer (R296). -/
def lookoutTau (s : State) (p layer : Nat) : Word := ((layerImage s p layer).map fun l => BitVec.ofNat 32 (leAt l.quality 0 4)).getD 0#32

/-- The eight values that LDACC has read of the chosen tile of a sampled row, from the normal tile or from the one run in A16 (R298). -/
def lookoutSide (s : State) (p i layer : Nat) (wide : Bool) : Option (List Word) :=
  ((pitchOf s p).lookoutRead.find? fun x => decide (x.1 = i ∧ x.2.1 = layer ∧ x.2.2.1 = wide)).map (·.2.2.2)

/-- The outcome that a step yields for a row and layer: whether it exceeded, its value field, and whether it is a Lookout sample (R297, R298,
R302). -/
def outcomeOf (s : State) (r : PitchRecord) (i layer : Nat) (l : LayerState) : Option (Bool × Nat × Bool) :=
  let q := r.profile.quality
  if q.reference then none
  else if q.lookoutLog2 = 0 then
    let lim := satLimit s r.pitch layer
    if lim = 0 then none else some (decide (lim * l.stepBlocks < 1024 * l.stepSaturated), l.stepSaturated, false)
  else if (lookoutChoice s r i layer).isNone ∨ rowIsA16 s r (handleOf s i) layer then none
  else
    match lookoutSide s r.pitch i layer false, lookoutSide s r.pitch i layer true with
    | some y, some w =>
      let c := lookoutCompare (lookoutTau s r.pitch layer) y w
      some (c.2, c.1.toNat, true)
    | _, _ => none

/-- Layers of a sequence at A16 by latch (R306). -/
def wideLayers (r : PitchRecord) (e : SeqEntry) : Nat :=
  if 2 ≤ r.profile.activation then 0 else (e.layers.filter fun l => decide (2 ≤ r.profile.activation + l.latch.level)).length

/-- Note a decision in the last journal entry: it is one of the step that followed that entry (R236). -/
def noteDecision (s : State) (i : Nat) (d : Decision) : State :=
  onSeq s i fun e => { e with journal := e.journal.dropLast ++ (match e.journal.getLast? with
    | none => []
    | some x => [{ x with decisions := x.decisions ++ [d] }]) }

/-- Apply one outcome to the latch of a layer (R304 to R306, R308). -/
def applyOutcome (s : State) (r : PitchRecord) (i j : Nat) (o : Bool) (value : Nat) : State :=
  let e := seqOf s i
  match e.layers[j]? with
  | none => s
  | some l =>
    let layer := r.group.firstLayer + j
    let k := l.latch
    let hist := (2 * k.history + (if o then 1 else 0)) % 2 ^ 64
    if ¬o ∨ k.history % 2 ^ 63 = 0 then onLayerAt s i j fun l => { l with latch := { l.latch with history := hist } }
    else
      let fmt := widen r.profile.activation k.level
      let note (s : State) (x : Latch) : State :=
        noteDecision (onLayerAt s i j fun l => { l with latch := x }) i ⟨layer, x.level, x.denied, e.length⟩
      let detail (x : Latch) (f v : Nat) : List Byte := qualityDetail (handleOf s i) layer x.level f e.length v
      if 2 ≤ fmt then note s { k with history := 0 }
      else if fmt + 1 = 2 ∧ r.profile.quality.wideLayers ≤ wideLayers r e then
        let x := { k with history := 0, denied := true }
        let s1 := note s x
        if k.denied then s1 else rangerEvent s1 0x04 0x0505 r.pitch (detail x 2 0)
      else
        let x := { k with history := 0, level := k.level + 1, position := e.length }
        rangerEvent (note s x) 0x04 0x0504 r.pitch (detail x (fmt + 1) value)

/-- Apply the outcomes of a row in ascending layer order, counting samples (R299, R304). -/
def applyOutcomes (r : PitchRecord) (i : Nat) : List Nat → State → State
  | [], s => s
  | j :: t, s =>
    match (seqOf s i).layers[j]? with
    | none => applyOutcomes r i t s
    | some l =>
      match outcomeOf s r i (r.group.firstLayer + j) l with
      | none => applyOutcomes r i t s
      | some (o, v, sample) =>
        let s1 := if sample then onLayerAt s i j fun l => { l with counters := { l.counters with
            samples := bump 16 l.counters.samples 1, exceeds := bump 16 l.counters.exceeds (if o then 1 else 0) } } else s
        applyOutcomes r i t (applyOutcome s1 r i j o v)

/-! ### Insertion (R231) -/

/-- Insert the nodes of the chunks of a list. -/
def insertNodes (r : PitchRecord) (i : Nat) : List Nat → State → State
  | [], s => s
  | c :: t, s => insertNodes r i t (insertNode s r i c (seqOf s i).tokens)

/-! ### STEP_BOUNDARY (R29 phase 9) -/

/-- Insert the nodes of the chunks that a row has completed, on the lead (R229, R231). -/
def insertRow (s : State) (r : PitchRecord) (m : MicroRow) : State :=
  let a := m.contextLength / 256
  if (seqOf s m.seq).insert ∧ isLead r then
    insertNodes r m.seq ((List.range ((m.contextLength + m.newTokens) / 256 - a)).map (· + a)) s
  else s

/-- Insert the nodes of every row. -/
def insertRows (r : PitchRecord) : List MicroRow → State → State
  | [], s => s
  | m :: t, s => insertRows r t (insertRow s r m)

/-- Commit one row: outcomes, pages, length and step number, and, where no other module has to commit the chunks too, tree nodes. -/
def commitRow (s : State) (r : PitchRecord) (m : MicroRow) : State :=
  let i := m.seq
  let e := seqOf s i
  if e.state = .free ∨ m.newTokens = 0 then s
  else
    let js := List.range e.layers.length
    let s1 := applyOutcomes r i js s
    let s2 := commitLayers r i js s1
    let s3 := onSeq s2 i fun e => { e with length := e.length + m.newTokens, step := e.step + 1, tokens := e.tokens ++ m.tokens, pending := none }
    if isLast r then insertRow s3 r m else s3

/-- Commit every row of the micro-batch. -/
def commitRows (r : PitchRecord) : List MicroRow → State → State
  | [], s => s
  | m :: t, s => commitRows r t (commitRow s r m)

/-- Write the journal entries of the rows. -/
def journalRows : List MicroRow → State → State
  | [], s => s
  | m :: t, s => journalRows t (if (seqOf s m.seq).state = .free ∨ m.newTokens = 0 then s else journalNote s m.seq)

/-- A slot at a step boundary (R160): a persistent slot keeps its state and releases, the others are EMPTY. -/
def boundarySlot (x : Slot) : Slot :=
  if x.persistent then { x with bState := x.state, bReleased := x.released }
  else { x with state := .empty, closing := false, released := [] }

/-- Every window register and scratchpad of the pitch is cleared (R156). -/
def clearCamp (c : Camp) : Camp := { c with cores := mmap c.cores fun _ k => { k with sp := [], win := [] } }

/-- Predicted pages that still wait for promotion at a step boundary stay queued (R219). -/
def stillWaiting (s : State) (p : Nat) : List Nat :=
  ((pitchOf s p).carried ++ predictions (pitchOf s p)).eraseDups.filter fun n => decide ((pageOf s p n).state = .warm)

/-- Slots, sync counts, scratchpads, windows and the step's notes are cleared (R156, R160, R161). -/
def clearStep (s : State) (p : Nat) : State :=
  let s1 := freeLists p (pitchOf s p).chosen s
  let s2 := { s1 with camps := mmap s1.camps fun n c => if campIn s1 p n then clearCamp c else c }
  onPitch s2 p fun x => { x with
    slots := mmap x.slots fun _ t => boundarySlot t
    syncs := []
    chosen := []
    carried := stillWaiting s p
    readySyncs := []
    lookout := []
    lookoutRead := []
    preshifted := []
    kvNoted := []
    blindNoted := []
    nanScores := []
    sent := false
    batch := []
    inStep := false
    tableSlot := none
    stepCount := x.stepCount + 1 }

/-- Clear the cause-3 holds on a region, or on private weights, of the pitches that reference it (R456): a sequence without other cause is IDLE
again. -/
def clearHolds (s : State) (g : Option Nat) (ps : List Nat) : State :=
  { s with seqs := mmap s.seqs fun _ e =>
      if e.pitch ∈ ps ∧ e.hold = 3 ∧ e.holdRegion = g then { e with hold := 0, holdRegion := none, state := if e.state = .held then .idle else e.state } else e }

/-- MODEL_RESTORED at the next step boundary after a matching reload, once for a region (R456). -/
def restoreModel (s : State) (p : Nat) : State :=
  match (pitchOf s p).package with
  | none => s
  | some k =>
    match k.restored with
    | none => s
    | some da =>
      let ps := sharersOf s p
      let s1 := { s with pitches := mmap s.pitches fun q x =>
        if q ∈ ps then { x with package := x.package.map fun k => { k with restored := none } } else x }
      rangerEvent (clearHolds s1 k.region (regionPitches s p)) 0x03 0x0E06 p (wearDetail 0 noCore 0 (regionField s1 p) 0 da)

/-- Report the close of the step: the lead notes it, another module sends it to the lead, the last one with the sampled tokens (R362;
DESIGN CHOICE: notes/assumptions/27.md). -/
def reportClose (s : State) (r : PitchRecord) (tokens : NMap Nat) : State :=
  if isLead r then onPitch s r.pitch fun x => { x with reports := x.reports ++ [0] }
  else
    let body := (tokens.map fun t => leBytes 4 (handleOf s t.1) ++ leBytes 4 t.2).flatten
    onPitch (sendPeer s r (r.group.members.headD 0) body) r.pitch fun x => { x with groupStep := x.groupStep + 1 }

/-- Every module has reported: the lead inserts the nodes of the chunks that the group has committed (R229, R231), and the next step starts at the
first multiple of 1,000 ns at least 20 µs later (R362). -/
def allReported (s : State) (r : PitchRecord) : State :=
  let x := pitchOf s r.pitch
  if (List.range r.group.groupSize).all fun j => x.reports.contains j then
    onPitch (insertRows r x.toInsert s) r.pitch fun x => { x with
      reports := [], toInsert := [], groupStep := x.groupStep + 1, nextTick := some (nextMicro (s.cairn.count + 20000)) }
  else s

/-- A program of the pitch still runs on a camp. -/
def programsRun (s : State) (p : Nat) : Bool := s.camps.any fun c => c.2.prog.isSome && campIn s p c.1

/-- A row has gone through phases 4 and 5 of R29 in a layer: its tokens are staged, and its chunk list is written where the start messages name
the layer's sync object (R217). -/
def layerDone (s : State) (r : PitchRecord) (m : MicroRow) (layer : Nat) : Bool :=
  staged s r.pitch layer m && ((mget (pitchOf s r.pitch).readySyncs layer).isNone || hasList s r.pitch m.seq layer)

/-- Every row has gone through the phases of the step in every layer of the module's range (R29). -/
def phasesDone (s : State) (r : PitchRecord) : Bool :=
  (pitchOf s r.pitch).batch.all fun m => decide (m.newTokens = 0)
    || ((List.range r.profile.layers).map (· + r.group.firstLayer)).all (layerDone s r m)

/-- Phase 8 of R29 is done: on the last module the logits of every row whose request is generating are there, and on another one the hidden states
have been sent, and nothing that the pitch sends is still under way. -/
def sendDone (s : State) (r : PitchRecord) (logits : List RowLogits) : Bool :=
  let x := pitchOf s r.pitch
  if isLast r then x.batch.all fun m => (rowSampling s m).isNone || logits.any fun l => decide (l.seq = m.seq)
  else (x.batch.all fun m => decide (m.newTokens = 0)) || (x.sent && !s.fab.sends.any fun y => decide (y.2.pitch = r.pitch))

/-- The staging buffers of the micro-batch's rows (R207). -/
def boundaryRanges (s : State) (r : PitchRecord) : List (Nat × Nat) :=
  ((List.range r.profile.layers).map fun j => stagingRanges s r (r.group.firstLayer + j)).flatten

/-- Park the sequences of a pitch that policy 2 has marked and that are in no step any more (R316, R474). -/
def parkMarked (s : State) (r : PitchRecord) : State :=
  let due := s.pw.toPark.filter fun h => decide ((seqOf s (handleIndex h)).pitch = r.pitch) && !inFlight s r.pitch (handleIndex h)
  deviceParks r ((due.filter fun h => decide (handleOf s (handleIndex h) = h)).map handleIndex)
    { s with pw := { s.pw with toPark := s.pw.toPark.filter fun h => decide (h ∉ due) } }

/-- Each Ranger pair checkpoints its state at a step boundary (R453). -/
def checkpointPairs (s : State) : State :=
  let c : Checkpoint := ⟨s.cairn.count, s.ranger.spdmVersion, s.ranger.spdmAlgorithms⟩
  { s with ranger := { s.ranger with checkpoints := (List.range 4).map fun k => (k, c) } }

/-- STEP_BOUNDARY (phase 9 of R29): it happens once every row has gone through the earlier phases and every program of the step has ended; what the
checks of the staging buffers find comes before it (R242, R243). -/
def boundary (s0 : State) (r : PitchRecord) (logits : List RowLogits) (found : List Finding) : State :=
  let p := r.pitch
  if ¬(pitchOf s0 p).inStep ∨ programsRun s0 p ∨ phasesDone s0 r = false ∨ sendDone s0 r logits = false then s0
  else rangerReads s0 p found (boundaryRanges s0 r) fun s =>
    if found.any stopsCommand then s else
    let x := pitchOf s p
    let s1 := commitRows r x.batch s
    let tokens := if isLast r then sampleRows r logits x.batch s1 [] else []
    let s3 := if isLast r ∧ isLead r then closeRows tokens x.batch (onPitch s1 p fun x => { x with batches := [] }) else s1
    let s4 := clearStep (journalRows x.batch s3) p
    checkpointPairs (parkMarked (allReported (reportClose (restoreModel s4 p) r tokens) r) r)

/-- STEP_BOUNDARY. -/
def execStepBoundary (pitch now : Nat) (logits : List RowLogits) (found : List Finding) (s : State) : Answer State :=
  if pitchOk pitch then
    match recordOf s pitch with
    | none => .next s
    | some r => .next (boundary (atTime s now) r logits found)
  else .refused .noSuchUnit

/-! ### STEP_CLOSE_REPORT (R358, R362) -/

/-- The lead receives a close report; that of the last module carries the tokens of the micro-batch that it ran (R353, R362). -/
def takeReport (s : State) (r : PitchRecord) (position : Nat) (tokens : NMap Nat) : State :=
  let p := r.pitch
  let x := pitchOf s p
  if ¬isLead r ∨ position = 0 ∨ r.group.groupSize ≤ position ∨ x.reports.contains position then s
  else
    let s1 := onPitch s p fun x => { x with reports := x.reports ++ [position] }
    let s2 := if position + 1 = r.group.groupSize then
        let m := microBatchOf r x.groupStep position
        let rows := mgetD x.batches m []
        closeRows tokens rows (onPitch s1 p fun x => { x with batches := mdel x.batches m, toInsert := rows })
      else s1
    parkMarked (allReported s2 r) r

/-- STEP_CLOSE_REPORT. -/
def execStepCloseReport (pitch position now : Nat) (tokens : NMap Nat) (s : State) : Answer State :=
  if pitchOk pitch then
    match recordOf s pitch with
    | none => .next s
    | some r => .next (takeReport (atTime s now) r position tokens)
  else .refused .noSuchUnit

end Sys2Proof.Machine
end

