-- ==== Sys2Proof/Machine/SeqCmds.lean ====
section
/-! DEFINITION. The commands of sequences (R337 to R343): CREATE, CONTINUE, TRUNCATE, FORK, PARK with its phases, RESUME with the import of
pages, STATUS and FREE. A command acts when it is the first of its sequence and the sequence is at a step boundary (R341). -/

namespace Sys2Proof.Machine

/-! ### When a command acts (R311, R334, R341) -/

/-- A command of no sequence: CREATE, and a RESUME from images. -/
def namesNone (q : Request) : Bool := decide (q.opcode = 1) || (decide (q.opcode = 6) && decide (q.handle = 0))

/-- The sequence is at a step boundary with no park in progress, and every earlier command of it has completed or is one that a preempting park ends
there (R311, R341). -/
def atBoundary (s : State) (q : Request) : Bool :=
  let i := handleIndex q.handle
  !inFlight s q.pitch i && ((seqOf s i).park).isNone
    && (earlierOf s q).all fun x => preempted s i && decide (x.opcode ≤ 4) && decide (x.state = .queued ∨ x.state = .ready)

/-- What the lead of a group decides for every module takes effect at one step boundary of all: the other modules take it at the start of their next
step, and the lead between two steps of its own (R229, R361). -/
def groupOpen (s : State) (r : PitchRecord) (op : Nat) : Bool :=
  decide (r.group.groupSize ≤ 1 ∨ op = 2 ∨ op = 7) || !(pitchOf s r.pitch).inStep

/-- The accepted command of a number, with its pitch record, when it may act. -/
def dueReq (s : State) (rid op : Nat) : Option (Request × PitchRecord) :=
  match reqOf s rid with
  | none => none
  | some q =>
    match recordOf s q.pitch with
    | none => none
    | some r => if q.opcode = op ∧ (q.state = .queued ∨ (op = 6 ∧ q.state = .copying)) ∧ (namesNone q ∨ atBoundary s q) ∧ groupOpen s r op then some (q, r) else none

/-- End the requests that a preempting park stops: the running one with end 4, the queued ones without tokens (R311). -/
def preemptRequests (s : State) (i : Nat) : State :=
  let s1 := match runningReq s i with
    | none => s
    | some x => finish (onSeq s i fun e => { e with state := .idle }) x rcRefusedState 4 x.handle 0
  endQueued (queuedOf s1 i) s1

/-- A due command finds its sequence at the step boundary at which a preempting park stops the requests (R311). -/
def afterPreempt (s : State) (q : Request) : State :=
  if ¬namesNone q ∧ preempted s (handleIndex q.handle) then preemptRequests s (handleIndex q.handle) else s

/-- Act on a due command: a handle that no longer names a sequence is answered BAD_HANDLE (R334), a preempting park stops the sequence's requests (R311),
a stopped pitch refuses all but PARK, STATUS and FREE (R458), and an armed module refuses what makes a sequence live (R445). -/
def onDue (s0 : State) (rid op : Nat) (f : State → Request → PitchRecord → State) : State :=
  match dueReq s0 rid op with
  | none => s0
  | some (q, r) =>
    if ¬namesNone q ∧ handleOk s0 q.pitch q.handle = false then finishPlain s0 q rcBadHandle
    else
      let s := afterPreempt s0 q
      if op ≤ 4 ∧ ¬namesNone q ∧ preempted s0 (handleIndex q.handle) then s
      else if (pitchOf s q.pitch).stopped ∧ op ≠ 5 ∧ op ≠ 7 ∧ op ≠ 8 then finishPlain s q rcRefusedState
      else if s.boot.arm ≠ none ∧ (op = 1 ∨ op = 4 ∨ op = 6) then finishPlain s q rcRefusedState
      else f s q r

/-! ### CREATE and CONTINUE (R230, R336, R341, R358) -/

/-- CREATE (R230, R338, R340): a free entry, the adopted prefix with its page lists (R206), and a running request; a lost page among the adopted ones holds the sequence at
once (R225). -/
def doCreate (s : State) (q : Request) (r : PitchRecord) : State :=
  match freeIndex s r with
  | none => finishPlain s q rcNoCapacity
  | some i =>
    let chain := if bitOf q.flags 0 then adoptChain s r q.tokens else []
    if refsFit s r.pitch (chainPages s r.pitch chain) then
      match fitSeq (createSeq s r i chain q.tokens (bitOf q.flags 1)) r.pitch i with
      | none => finishPlain s q rcNoCapacity
      | some s1 =>
        let h := handleOf s1 i
        let s2 := onReq s1 q.rid fun q => { q with handle := h, adopted := 256 * chain.length, state := .ready }
        holdIfLost (tellGroup s2 r.pitch (.create h h (q.tokens.take (256 * chain.length)))) i
    else finishPlain s q rcNoCapacity

/-- CREATE. -/
def execQCreate (rid now : Nat) (s : State) : Answer State := .next (onDue (atTime s now) rid 1 doCreate)

/-- CONTINUE (R336, R338, R341): an IDLE sequence runs, causes 1 and 2 of a hold are cleared, and the rest is refused. -/
def doContinue (s : State) (q : Request) : State :=
  let i := handleIndex q.handle
  let e := seqOf s i
  let run := onReq (onSeq s i fun e => { e with state := .running, hold := 0, insert := bitOf q.flags 1, readyAt := s.cairn.count }) q.rid
    fun q => { q with state := .ready, clearedHold := e.hold }
  match e.state with
  | .idle => run
  | .held => if e.hold = 1 ∨ e.hold = 2 then run else finishPlain s q (if e.hold = 3 then rcIntegrityFail else rcRefusedState)
  | _ => finishPlain s q rcRefusedState

/-- CONTINUE. -/
def execQContinue (rid now : Nat) (s : State) : Answer State := .next (onDue (atTime s now) rid 2 fun s q _ => doContinue s q)

/-! ### TRUNCATE (R234 to R236) -/

/-- The oldest length that the journal of a sequence holds (R236). -/
def oldestLength (e : SeqEntry) : Nat := (e.journal.head?.map (·.length)).getD 0

/-- A page that a truncation would reopen and that has no hot copy to read (R235). -/
def reopensWarm (s : State) (i n : Nat) : Bool :=
  let e := seqOf s i
  decide (n % 256 ≠ 0) && e.layers.any fun l => match l.pages[n / 256]? with
    | none => false
    | some k => let g := pageOf s e.pitch k; decide (copyAt g = 0 ∨ copyAt g ≠ g.hot)

/-- Truncate, on every module of the group, and complete the command: with NO_CAPACITY where a reopened page finds no space (DESIGN CHOICE:
notes/assumptions/13.md). -/
def finishTruncate (s : State) (q : Request) (r : PitchRecord) : State :=
  match truncateSeq s r (handleIndex q.handle) q.count with
  | none => finishPlain s q rcNoCapacity
  | some s1 => finishPlain (tellGroup s1 r.pitch (.truncate q.handle q.count)) q rcDone

/-- TRUNCATE (R234, R235, R341): it completes at once, or when the copy of a WARM page is done. -/
def doTruncate (s : State) (q : Request) (r : PitchRecord) : State :=
  let i := handleIndex q.handle
  let e := seqOf s i
  if e.state = .parked ∨ e.state = .held then finishPlain s q rcRefusedState
  else if e.length < q.count then finishPlain s q rcBadArgument
  else if q.count < oldestLength e then finishPlain s q rcRefusedState
  else if reopensWarm s i q.count then onReq s q.rid fun q => { q with state := .copying }
  else finishTruncate s q r

/-- TRUNCATE. -/
def execQTruncate (rid : Nat) (s : State) : Answer State := .next (onDue s rid 3 doTruncate)

/-- Every page that the truncation copies from has a copy on the module. -/
def copiesReady (s : State) (i n : Nat) : Bool :=
  let e := seqOf s i
  e.layers.all fun l => match l.pages[n / 256]? with
    | none => true
    | some k => decide (copyAt (pageOf s e.pitch k) ≠ 0)

/-- The ranges of memory that a truncation's copies read: the copies of the pages to reopen (R235). -/
def copyRanges (s : State) (r : PitchRecord) (i n : Nat) : List (Nat × Nat) :=
  let e := seqOf s i
  ((e.layers.filterMap fun l => l.pages[n / 256]?).map (pageOf s e.pitch)).map fun g => (pitchDa s r.pitch (copyAt g), payloadBytes g)

/-- The copies of a truncation have been read, with what the checks found (R235, R250, R254): a page that is lost ends the TRUNCATE with
INTEGRITY_FAIL (R14), and in a pitch that has been stopped meanwhile it is refused (R458). -/
def doCopyDone (s : State) (q : Request) (r : PitchRecord) (found : List Finding) : State :=
  let i := handleIndex q.handle
  if (pitchOf s q.pitch).stopped then finishPlain s q rcRefusedState
  else if copiesReady s i q.count = false ∨ groupOpen s r 3 = false then s
  else rangerReads s q.pitch found (copyRanges s r i q.count) fun s =>
    if found.any stopsCommand then s
    else if (seqOf s i).hold = 4 then finishPlain s q rcIntegrityFail
    else finishTruncate s q r

/-- TRUNCATION_COPY_DONE (R235). -/
def execTruncationCopyDone (rid : Nat) (found : List Finding) (s : State) : Answer State :=
  match reqOf s rid with
  | none => .next s
  | some q =>
    match recordOf s q.pitch with
    | none => .next s
    | some r => if q.opcode = 3 ∧ q.state = .copying then .next (doCopyDone s q r found) else .next s

/-! ### FORK and FREE (R232, R233, R338) -/

/-- FORK (R232, R338): the parent must be IDLE; the completion carries the new handle, and the parent's as its value. -/
def doFork (s : State) (q : Request) (r : PitchRecord) : State :=
  let i := handleIndex q.handle
  if (seqOf s i).state ≠ .idle then finishPlain s q rcRefusedState
  else
    match freeIndex s r with
    | none => finishPlain s q rcNoCapacity
    | some k =>
      match forkSeq s r i k with
      | none => finishPlain s q rcNoCapacity
      | some s1 =>
        let h := handleOf s1 k
        holdIfLost (finish (tellGroup s1 r.pitch (.fork q.handle h)) q rcDone 0 h q.handle) k

/-- FORK. -/
def execQFork (rid : Nat) (s : State) : Answer State := .next (onDue s rid 4 doFork)

/-- FREE (R338): it completes with the length of the sequence, whose references are dropped and whose entry is freed. -/
def doFree (s : State) (q : Request) : State := freeSeq (finishPlain s q rcDone) (handleIndex q.handle)

/-- FREE. -/
def execQFree (rid : Nat) (s : State) : Answer State := .next (onDue s rid 8 fun s q _ => doFree s q)

/-! ### PARK (R309 to R316) -/

/-- A fork or adoption of the sequence is pending (R312): a FORK waits before the park, or the lead has still to send one to its group (DEDUCED:
notes/assumptions/28.md). -/
def forkPending (s : State) (q : Request) : Bool :=
  ((earlierOf s q).any fun x => decide (x.opcode = 4))
    || (pitchOf s q.pitch).decisions.any fun d => match d with
      | .fork h _ => decide (h = q.handle)
      | .create h _ adopted => decide (h = q.handle) && !adopted.isEmpty
      | _ => false

/-- PARK (R310 to R313): KEEP completes at phase 2; EXPORT and RELEASE enter phase 3, and the command completes at phase 5. -/
def doPark (s : State) (q : Request) : State :=
  let i := handleIndex q.handle
  let d := parkDesc q.descriptor
  let e := seqOf s i
  if e.exported ≠ none ∨ (e.state = .parked ∧ d.disposition = 0) ∨ forkPending s q then finishPlain s q rcRefusedState
  else
    let s1 := tellGroup (beginPark s i (some q.rid) q.tag (spaceOf q.origin q.pitch) d) q.pitch (.park q.handle q.tag q.descriptor)
    if d.disposition = 0 then finishPlain s1 q rcDone else onReq s1 q.rid fun q => { q with state := .inFlight }

/-- PARK. -/
def execQPark (rid : Nat) (s : State) : Answer State := .next (onDue s rid 5 fun s q _ => doPark s q)

/-- A page of the sequence is being promoted or demoted (R313). -/
def pagesMove (s : State) (e : SeqEntry) : Bool :=
  ((e.layers.map (·.pages)).flatten).any fun n =>
    let g := pageOf s e.pitch n
    decide (g.state = .promoting) || decide (g.state = .demoting)

/-- The ranges of memory that forming an image reads: the payloads of the readable pages and the staging buffers (R313). -/
def formRanges (s : State) (r : PitchRecord) (i : Nat) : List (Nat × Nat) :=
  let e := seqOf s i
  let gs := (((e.layers.map (·.pages)).flatten).map (pageOf s r.pitch)).filter fun g => decide (copyAt g ≠ 0)
  (gs.map fun g => (pitchDa s r.pitch (copyAt g), payloadBytes g))
    ++ (e.layers.filter fun l => decide (l.staging.address ≠ 0)).map fun l => (daOf s r l.staging.address, 64)

/-- An EXPORTED page whose payload has been read back with a digest that fails (R321, R324). -/
def badBack (s : State) (i : Nat) (back : NMap (List Byte)) : Option Nat :=
  let p := (seqOf s i).pitch
  (toImport s i).find? fun n =>
    let g := pageOf s p n
    (mget back n).any fun b => decide (pageDigest (padTo (payloadBytes g) b) ≠ g.digest)

/-- PARK_FORM_DONE (R313, R315, R317 to R323): once no page moves and the payload of every EXPORTED page has been read back (`back`, by page
number), the staging buffers are in HBM and the image length is known; what the checks of the pages and buffers find comes before (R250, R254), and
a word of a staging buffer that is lost has aborted the park (R314); a destination that is too small ends the park with NO_CAPACITY and the
length, otherwise the sealed image is written and phase 4 begins. A payload read back that fails its digest is handled as PAGE_DIGEST (R324). -/
def doFormDone (s : State) (r : PitchRecord) (i : Nat) (back : NMap (List Byte)) (found : List Finding) : State :=
  let e := seqOf s i
  match e.park with
  | none => s
  | some k =>
    if k.phase ≠ 3 ∨ pagesMove s e ∨ ((toImport s i).any fun n => (mget back n).isNone) then s
    else
    match badBack s i back with
    | some n => pageLost s r.pitch n 2 0x0403
    | none =>
    rangerReads s r.pitch found (formRanges s r i) fun s =>
      if found.any stopsCommand ∨ (seqOf s i).park ≠ some k then s else
      let s1 := onSeq s i fun e => { e with layers := e.layers.map fun l => { l with staging := { l.staging with inLarder := false } } }
      let xs := imageRecords s1 r i back
      let len := imageLength xs
      if k.destKind = 1 ∧ k.destLength < len then abortPark s1 i rcNoCapacity len false
      else
        let (salt, s2) := drawBytes s1 32
        let image := sealImage r (imageHeader s2 r i (decide (k.disposition = 2)) salt xs) salt xs
        let s3 := if k.destKind = 1 then send s2 (.dmaWrite k.space k.destAddress image)
          else sendImage k.session k.tag (image.length / 8880 + 1) 0 image s2
        onSeq s3 i fun e => { e with park := some { k with phase := 4, imageLength := len } }

/-- PARK_FORM_DONE. -/
def execParkFormDone (seq : Nat) (exported : NMap (List Byte)) (found : List Finding) (s : State) : Answer State :=
  if seqOk seq then
    match recordOf s (seqOf s seq).pitch with
    | none => .next s
    | some r => .next (doFormDone s r seq exported found)
  else .refused .noSuchUnit

/-- A page whose only reference is the sequence becomes EXPORTED, and its copies and summary are freed (R310, R221). -/
def exportPage (s : State) (p n : Nat) : State :=
  let g := pageOf s p n
  if g.refcount = 1 ∧ (g.state = .hot ∨ g.state = .warm ∨ g.state = .both) then
    putPage (freeIf (freeIf (freeIf s p g.hot) p g.warm) p g.summaryAt) p n
      { g with state := .exported, hot := 0, warm := 0, summaryAt := 0, summary := [] }
  else s

/-- Export the pages of a list. -/
def exportPages (p : Nat) : List Nat → State → State
  | [], s => s
  | n :: t, s => exportPages p t (exportPage s p n)

/-- Complete the command of a park with DONE and the image length (R342); a park of the device's own has none. -/
def completePark (s : State) (k : ParkState) : State :=
  match k.rid.bind (reqOf s) with
  | none => s
  | some q => finish s q rcDone 0 q.handle k.imageLength

/-- The destination has acknowledged the last byte (R313): a session has acknowledged every IMAGE_DATA of the park. -/
def imageAcked (s : State) (k : ParkState) : Bool :=
  decide (k.destKind ≠ 2)
    || !(sessionOf s k.session).unacked.any fun u => decide (u.type = msgImageData) && decide (leAt u.body 0 4 = k.tag % 2 ^ 32)

/-- PARK_COMMIT (R310, R313): phase 5; `error` says that the destination reports an error, which aborts the park (R314). -/
def doParkCommit (s : State) (i : Nat) (error : Bool) : State :=
  let e := seqOf s i
  match e.park with
  | none => s
  | some k =>
    if k.phase ≠ 4 then s
    else if error then abortPark s i rcIntegrityFail 0 false
    else if imageAcked s k = false then s
    else
      let s1 := completePark (putSeq s i { e with park := none }) k
      if k.disposition = 2 then releaseSeq s1 i
      else
        let s2 := exportPages e.pitch ((e.layers.map (·.pages)).flatten) s1
        onSeq s2 i fun e => { e with exported := some ⟨0, k.destKind, k.destAddress, k.imageLength, k.session, k.space⟩ }

/-- PARK_COMMIT. -/
def execParkCommit (seq : Nat) (error : Bool) (s : State) : Answer State :=
  if seqOk seq then .next (doParkCommit s seq error) else .refused .noSuchUnit

/-! ### RESUME (R325 to R330) -/

/-- Refuse a resume from images (R326, R332): no effect is kept, RESUME_REFUSED names the check, and the command completes. -/
def refuseResume (s : State) (q : Request) (check result : Nat) (m : ImageRead) : State :=
  finish (refusedEvent s q.pitch check result m) q result 0 0 0

/-- An image of which nothing has been read. -/
def noImage : ImageRead := ⟨[], [], true, true, []⟩

/-- A session has sent the header that is read (R348). -/
def headerHeld (s : State) (x : ImageSource) (tag : Nat) (m : ImageRead) : Bool :=
  decide (x.destKind ≠ 2) || decide (m.header = [])
    || decide (m.header = (mgetD (mgetD (sessionOf s x.session).images tag []) 0 []).take 128)

/-- Go on with an image: its next ranges are read, or everything is there and `k` takes it (R325, R327, R348). -/
def withImage (s : State) (q : Request) (x : ImageSource) (m : ImageRead) (k : State → State) : State :=
  if headerHeld s x q.tag m = false then s
  else
    match nextReads m with
    | [] => k s
    | rs => askRanges x q.tag rs (onReq s q.rid fun q => { q with state := .copying })

/-- RESUME from images, checks 7 and 8 (R326): an entry and staging space are taken, the other modules of the group follow, and the records are
read. -/
def resumeImage (s : State) (q : Request) (r : PitchRecord) (m : ImageRead) : State :=
  match freeIndex s r with
  | none => refuseResume s q 7 rcNoCapacity m
  | some i =>
    match takeImage s r i q.count (spaceOf q.origin q.pitch) (sourceFor q.descriptor r) m with
    | .error e => refuseResume s q e.1 e.2 m
    | .ok s1 =>
      let h := handleOf s1 i
      tellGroup (onReq s1 q.rid fun q => { q with handle := h, image := some m, state := .reading }) r.pitch (.resume h q.tag q.descriptor noImage)

/-- A check of R326 that what has been read of an image fails already: check 1, the header's magic and format, and once the directory has been
read or has failed its tag the others before check 7. -/
def earlyCheck (s : State) (q : Request) (r : PitchRecord) (m : ImageRead) : Option (Nat × Nat) :=
  let bs := sourceFor q.descriptor r
  if q.count ≠ r.group.groupSize ∨ sourceOk r (sourceOf 0 bs) bs = false then some (1, rcBadArgument)
  else if m.header.length < 128 then none
  else if m.directory ≠ [] ∨ m.directoryTag = false ∨ imageKnown m = false then resumeCheck s r q.count bs m
  else none

/-- The sequence is resumed in place on every module of the group, and the command completes (R325). -/
def finishInPlace (s : State) (q : Request) (r : PitchRecord) (m : ImageRead) : State :=
  match resumeExported (finishPlain s q rcDone) r (handleIndex q.handle) q.tag q.origin m with
  | none => finishPlain s q rcNoCapacity
  | some s1 => tellGroup s1 r.pitch (.resumeInPlace q.handle q.tag none)

/-- RESUME in place (R325): the sequence must be parked; the summaries of its EXPORTED pages come from its image, whose tags are checked
(R324). On a group the other modules check theirs first (DESIGN CHOICE: notes/assumptions/27.md), and the resume completes when the lead has heard
them. -/
def resumeHere (s : State) (q : Request) (r : PitchRecord) (m : ImageRead) : State :=
  let i := handleIndex q.handle
  let e := seqOf s i
  if e.state ≠ .parked then finishPlain s q rcRefusedState
  else
    match e.exported with
    | none => finishPlain (tellGroup (resumeInPlace s i q.tag q.origin []) r.pitch (.resumeInPlace q.handle q.tag none)) q rcDone
    | some x =>
      withImage s q x m fun s =>
        if m.directoryTag = false ∨ m.recordsTag = false then finishPlain s q rcAuthFail
        else if r.group.groupSize ≤ 1 then finishInPlace s q r m
        else tellGroup (onReq s q.rid fun q => { q with image := some m, state := .reading }) r.pitch (.checkInPlace q.handle q.tag none)

/-- RESUME (R325, R326): `image` is what reading the image has given so far; where more is needed it is read, and the command waits. -/
def doResume (image : Option ImageRead) (s : State) (q : Request) (r : PitchRecord) : State :=
  let m := image.getD noImage
  if q.handle ≠ 0 ∧ q.count = 0 then resumeHere s q r m
  else
    match earlyCheck s q r m with
    | some e => refuseResume s q e.1 e.2 m
    | none => withImage s q (sourceOf (spaceOf q.origin q.pitch) (sourceFor q.descriptor r)) m fun s => resumeImage s q r m

/-- RESUME. -/
def execQResume (rid : Nat) (image : Option ImageRead) (s : State) : Answer State := .next (onDue s rid 6 (doResume image))

/-- A resume is refused after its entry was taken: the entry goes, here and on the other modules (R326). One in place leaves the sequence parked. -/
def dropResume (s : State) (q : Request) : State := if q.count = 0 then s else freeSeq s (handleIndex q.handle)

/-- The handle of a refused resume's completion: one from images has none (R342). -/
def refusedHandle (q : Request) : Nat := if q.count = 0 then q.handle else 0

/-- RESUME_RECORDS_READ (R327, R330): pages are referenced or created EXPORTED, the sequence is IDLE, and the resume completes with the new
handle. `peer` is the check and return code with which another module of the group refuses the resume (R324, R326). In a pitch that has been stopped
meanwhile it is refused (R458). -/
def doRecordsRead (s : State) (q : Request) (r : PitchRecord) (peer : Option (Nat × Nat)) : State :=
  if (pitchOf s q.pitch).stopped then finish (dropResume s q) q rcRefusedState 0 (refusedHandle q) 0 else
  match q.image, peer with
  | none, _ => s
  | some _, some e => finish (dropResume s q) q e.2 0 (refusedHandle q) 0
  | some m, none =>
    let i := handleIndex q.handle
    if q.count = 0 then
      (if groupOpen s r 6 then (if (seqOf s i).state = .parked then finishInPlace s q r m else finishPlain s q rcRefusedState) else s)
    else
    match readLayers r i m (List.range r.profile.layers) s with
    | none => refuseResume (dropResume s q) q 7 rcNoCapacity m
    | some s1 => holdIfLost (finish (imageTaken s1 i q.tag q.origin m) q rcDone 0 q.handle 0) i

/-- RESUME_RECORDS_READ. -/
def execResumeRecordsRead (rid : Nat) (peer : Option (Nat × Nat)) (s : State) : Answer State :=
  match reqOf s rid with
  | none => .next s
  | some q =>
    match recordOf s q.pitch with
    | none => .next s
    | some r => if q.opcode = 6 ∧ q.state = .reading then .next (doRecordsRead s q r peer) else .next s

/-! ### The import of pages (R220, R324, R327, R330) -/

/-- The page may be imported now: pages that a step chooses come first, then the sequence's own order (R220, R327). -/
def mayImport (s : State) (p i n : Nat) : Bool := (pageOf s p n).wanted || decide (nextImport s i = some n)

/-- The sequence whose import brings a page next: the first that imports the page from its image and whose turn the page is (R327). -/
def importer (s : State) (p n : Nat) : Option Nat :=
  (seqsWhere s p fun i e => (e.importing.any fun m => (mget m.places n).isSome) && mayImport s p i n).head?

/-- The summary of an imported page: the one held, or the one of its payload (R212). -/
def importedSummary (g : Page) (payload : List Byte) : List SummaryRec :=
  if g.summary = [] then pageSummary g.tag g.kvHeads (32 * g.dim32) payload else g.summary

/-- The payload of an imported page lands at a pitch address, and the next page is read (R327); nothing happens while the place does not admit the
write (R258). -/
def landImport (s0 : State) (p n i : Nat) (bs : List Byte) (hot : Bool) : Option (Nat × State) → State
  | none => s0
  | some (a, s) =>
    let g := pageOf s p n
    if rangeStalls s (pitchDa s p a, bs.length) then s0
    else if g.state ≠ .exported then freeRange s p a
    else
      let g1 := { g with state := if hot then .hot else .warm, wanted := false, summary := importedSummary g bs }
      importDone (askPage (putPage (pokeBytes s (pitchDa s p a) bs) p n (if hot then { g1 with hot := a } else { g1 with warm := a })) i) i

/-- A page that is not imported is lost, and the import goes on with the next (R225, R330). -/
def importLost (s : State) (p n code i : Nat) : State := importDone (askPage (pageLost s p n 2 code) i) i

/-- PAGE_IMPORT (R220, R221, R324, R327): a chosen page enters the hot tier, another the warm tier; a page that fails its tag or digest is
handled as PAGE_DIGEST. -/
def doPageImport (s : State) (p n : Nat) (ok : Bool) (payload : List Byte) : State :=
  let g := pageOf s p n
  match importer s p n with
  | none => s
  | some i =>
    if g.state ≠ .exported then s
    else if ok = false then importLost s p n 0x0403 i
    else
      let bs := padTo (payloadBytes g) payload
      landImport s p n i bs g.wanted (if g.wanted then roomFor s p bs.length else warmSpace p n bs.length (spaceFuel s p) s)

/-- PAGE_IMPORT. -/
def execPageImport (pitch page : Nat) (tagOk digestOk : Bool) (payload : List Byte) (s : State) : Answer State :=
  if pitchOk pitch then .next (doPageImport s pitch page (tagOk && digestOk) payload) else .refused .noSuchUnit

/-- IMAGE_READ_TIMEOUT (R330): the page is lost and the sequences that hold it are held; the import goes on with the next page. -/
def doReadTimeout (s : State) (p n : Nat) : State :=
  match importer s p n with
  | none => s
  | some i =>
    if (pageOf s p n).state = .exported then importLost s p n 0x0402 i else s

/-- IMAGE_READ_TIMEOUT. -/
def execImageReadTimeout (pitch page : Nat) (s : State) : Answer State :=
  if pitchOk pitch then .next (doReadTimeout s pitch page) else .refused .noSuchUnit

/-! ### STATUS (R343) -/

/-- The code of a sequence state (R335). -/
def seqStateCode : SeqState → Nat
  | .free => 0
  | .idle => 1
  | .running => 2
  | .parked => 3
  | .held => 4

/-- The status record (R343); `peers` are the records of the layers of the group's other modules, in group_position order. -/
def statusRecord (s : State) (i : Nat) (peers : List Byte) : List Byte :=
  let e := seqOf s i
  let flags := (if e.inexact then 1 else 0) + (if e.exported.isSome then 2 else 0) + (if e.importing.isSome then 4 else 0)
  let mine := (e.layers.map fun l => counterBytes l.counters ++ latchBytes l.latch).flatten
  leBytes 4 (handleOf s i) ++ leBytes 1 (seqStateCode e.state) ++ leBytes 1 (if e.state = .held then e.hold else 0) ++ leBytes 1 flags
    ++ leBytes 1 e.pending.toList.length ++ leBytes 4 e.streamId ++ leBytes 4 e.length ++ leBytes 8 e.step ++ leBytes 4 (e.pending.getD 0)
    ++ leBytes 4 (e.layers.length + peers.length / 48) ++ mine ++ peers

/-- STATUS (R343): the record is written to the output buffer, which must be large enough. `peers` holds, for each module after the lead, the
records of its layers; the command waits until all are there. The record of a session's STATUS stays in the device's copy of the request (DESIGN
CHOICE: notes/assumptions/30.md). -/
def doStatus (peers : List (List Byte)) (s : State) (q : Request) (r : PitchRecord) : State :=
  let others := (peers.map fun b => padTo (48 * ceilDiv b.length 48) b).flatten
  let bs := statusRecord s (handleIndex q.handle) others
  if peers.length + 1 ≠ r.group.groupSize then s
  else if q.descriptor.length < bs.length then finishPlain s q rcBadArgument
  else
    let s1 := match q.origin with
      | .ring fn _ => send s (.dmaWrite fn q.data bs)
      | _ => s
    finish s1 q rcDone 0 q.handle bs.length

/-- STATUS. -/
def execQStatus (rid : Nat) (peers : List (List Byte)) (s : State) : Answer State := .next (onDue s rid 7 (doStatus peers))

end Sys2Proof.Machine
end

