-- ==== Sys2Proof/Machine/Accept.lean ====
section
/-! DEFINITION. The acceptance of a submission entry (R337 to R340): reading its fields, the refusals, and the accepted command. -/

namespace Sys2Proof.Machine

/-! ### Fields of an entry (R337, R339) -/

/-- A 64-byte submission entry. -/
structure Entry where
  opcode : Nat
  flags : Nat
  tag : Nat
  handle : Nat
  count : Nat
  data : Nat
  deadline : Nat
  params : Nat
  maxNew : Nat
  reservedZero : Bool
  deriving DecidableEq, Repr

/-- Read an entry. -/
def entryOf (bs : List Byte) : Entry :=
  ⟨leAt bs 0 1, leAt bs 1 1, leAt bs 4 4, leAt bs 8 4, leAt bs 12 4, leAt bs 16 8, leAt bs 24 8, leAt bs 32 8, leAt bs 40 4,
    zerosAt bs 2 2 && zerosAt bs 44 20⟩

/-- CREATE and CONTINUE generate. -/
def generates (op : Nat) : Bool := decide (op = 1) || decide (op = 2)

/-- Fields that the opcode does not use are zero, and flags are those that it takes (R337, R338; DEDUCED: notes/assumptions/31.md). -/
def fieldsOk (e : Entry) : Bool :=
  e.reservedZero && decide (1 ≤ e.opcode ∧ e.opcode ≤ 8) && decide (e.flags < 8)
    && (decide (e.opcode = 1) || !bitOf e.flags 0) && (generates e.opcode || !bitOf e.flags 1)
    && (decide (e.opcode ≠ 1) || decide (e.handle = 0))
    && (generates e.opcode || decide (e.opcode = 3) || decide (e.opcode = 6) || decide (e.count = 0))
    && (generates e.opcode || decide (5 ≤ e.opcode ∧ e.opcode ≤ 7) || decide (e.data = 0))
    && (generates e.opcode || decide (e.deadline = 0 ∧ e.params = 0 ∧ e.maxNew = 0))
    && decide (e.maxNew ≤ 2 ^ 24) && (decide (e.opcode ≠ 6) || decide (e.handle = 0) || decide (e.count = 0))

/-- Read the request parameters (R339); `bitmap` is the vocabulary bitmap when one is given. -/
def paramsOf (bs bitmap : List Byte) : SampleParams :=
  ⟨BitVec.ofNat 32 (leAt bs 0 4), BitVec.ofNat 32 (leAt bs 4 4), leAt bs 8 2, leAt bs 10 2, leAt bs 12 4, leAt bs 16 8,
    if leAt bs 24 8 = 0 then none else some bitmap, (List.range (leAt bs 36 1)).map fun k => leAt bs (40 + 4 * k) 4⟩

/-- The parameters lie in their ranges (R339, R340). -/
def paramsOk (bs bitmap : List Byte) (vocab : Nat) : Bool :=
  let t : Word := BitVec.ofNat 32 (leAt bs 0 4)
  let p : Word := BitVec.ofNat 32 (leAt bs 4 4)
  let one : Word := 0x3F800000#32
  decide (bs.length = 64) && !isNaN t && !isInf t && (isZero t || !t.msb) && fpLt 0#32 p && fpLe p one
    && decide (1 ≤ leAt bs 8 2 ∧ leAt bs 8 2 ≤ 256) && decide (leAt bs 36 1 ≤ 6) && zerosAt bs 37 3
    && decide (leAt bs 32 4 = vocab)
    && (decide (leAt bs 24 8 = 0)
      || (decide (bitmap.length = ceilDiv vocab 8) && (List.range vocab).any fun v => bitOf (leAt bitmap (v / 8) 1) (v % 8)))

/-- The tokens of an array. -/
def tokensOf (n : Nat) (bs : List Byte) : List Nat := (List.range n).map fun k => leAt bs (4 * k) 4

/-- A park descriptor is valid (R309, R340). -/
def parkOk (r : PitchRecord) (handle : Nat) (bs : List Byte) : Bool :=
  let d := parkDesc bs
  decide (bs.length = 32) && decide (d.handle = handle) && decide (d.disposition < 3) && decide (d.flags < 2) && zerosAt bs 7 1 && zerosAt bs 26 6
    && (if d.disposition = 0 then decide (d.destKind = 0) else decide (d.destKind = 1 ∨ d.destKind = 2))
    && (if d.destKind = 1 then true else decide (d.address = 0 ∧ d.length = 0))
    && (if d.destKind = 2 then r.sessions.any fun e => decide (e.session = d.session) else decide (d.session = 0xFFFF))

/-- The vocabulary of a pitch's model (R339, R340). -/
def vocabOf (s : State) (p : Nat) : Nat := ((pitchOf s p).package.map (·.vocab)).getD 0

/-- The reserved bits and bytes of every source entry are zero (R338, R340). -/
def sourcesZero (n : Nat) (bs : List Byte) : Bool :=
  (List.range n).all fun k => decide (leAt bs (32 * k) 1 < 2) && zerosAt bs (32 * k + 2) 2 && zerosAt bs (32 * k + 22) 10

/-- The arguments of an entry are valid (R309, R337 to R340). -/
def argumentsOk (s : State) (r : PitchRecord) (e : Entry) (d : FetchedData) : Bool :=
  fieldsOk e &&
    (if generates e.opcode then
      decide (d.data.length = 4 * e.count) && paramsOk d.params d.bitmap (vocabOf s r.pitch)
        && (tokensOf e.count d.data).all (fun t => decide (t < vocabOf s r.pitch)) && (decide (e.opcode = 2) || decide (e.count ≠ 0))
    else if e.opcode = 5 then parkOk r e.handle d.data
    else if e.opcode = 6 then decide (d.data.length = 32 * e.count) && sourcesZero e.count d.data
    else true)

/-! ### Acceptance (R340) -/

/-- The pitch accepts commands (R364, R437). -/
def pitchServes (s : State) (p : Nat) : Bool :=
  match recordOf s p with
  | none => false
  | some r => r.enabled && (pitchOf s p).enabled && !(pitchOf s p).groupDisabled

/-- The pitch's allotment has a free entry for a CREATE or FORK (R340). -/
def entryLeft (s : State) (r : PitchRecord) : Bool := (freeIndex s r).isSome

/-- The commands that a sequence has queued (R340). -/
def queuedCount (s : State) (h : Nat) : Nat := (s.reqs.filter fun q => decide (q.handle = h) && decide (q.state = .queued)).length

/-- The refusal of an entry at acceptance, if there is one (R340, R334, R364, R445, R458; the order: DEDUCED: notes/assumptions/31.md). -/
def refusalOf (s : State) (r : PitchRecord) (e : Entry) (d : FetchedData) : Option Nat :=
  let none_ := decide (e.opcode = 1) || (decide (e.opcode = 6) && decide (e.handle = 0) && decide (e.count ≠ 0))
  if argumentsOk s r e d = false then some rcBadArgument
  else if pitchServes s r.pitch = false ∨ isLead r = false then some rcNotPermitted
  else if none_ = false ∧ handleOk s r.pitch e.handle = false then some rcBadHandle
  else if (pitchOf s r.pitch).stopped ∧ e.opcode ≠ 5 ∧ e.opcode ≠ 7 ∧ e.opcode ≠ 8 then some rcRefusedState
  else if s.boot.arm ≠ none ∧ (e.opcode = 1 ∨ e.opcode = 4 ∨ e.opcode = 6) then some rcRefusedState
  else if (e.opcode = 1 ∨ e.opcode = 4) ∧ entryLeft s r = false then some rcNoCapacity
  else if none_ = false ∧ 16 ≤ queuedCount s e.handle then some rcBusy
  else none

/-- The command of an entry, with its number. -/
def requestOf (rid : Nat) (o : Origin) (p : Nat) (e : Entry) (d : FetchedData) : Request where
  rid := rid
  origin := o
  opcode := e.opcode
  flags := e.flags
  tag := e.tag
  handle := e.handle
  pitch := p
  deadline := e.deadline
  maxNew := e.maxNew
  count := e.count
  data := e.data
  tokens := if generates e.opcode then tokensOf e.count d.data else []
  params := paramsOf d.params d.bitmap
  descriptor := if generates e.opcode then [] else d.data
  image := none
  undo := false
  state := .queued
  consumed := 0
  produced := 0
  adopted := 0
  sinceProgress := 0
  clearedHold := 0

/-- Accept an entry, or refuse it with a final completion (R340). -/
def acceptEntry (s : State) (o : Origin) (p : Nat) (d : FetchedData) : State :=
  let e := entryOf d.entry
  let q := requestOf s.reqNext o p e d
  let s1 := { s with reqNext := s.reqNext + 1 }
  match recordOf s p with
  | none => finishPlain s1 q rcNotPermitted
  | some r =>
    match refusalOf s r e d with
    | some code => finishPlain s1 q code
    | none => { s1 with reqs := s1.reqs ++ [q] }

end Sys2Proof.Machine
end

