-- ==== Sys2Proof/Machine/Datagrams.lean ====
section
/-! DEFINITION. Datagrams of the request transport and of the management session as they arrive (R347 to R350, R366, R400, R442): which are taken, and
what taking one does to its session. Choices the spec leaves: notes/assumptions/40.md. -/

namespace Sys2Proof.Machine

/-! ### Datagrams (R347 to R350, R366, R442) -/

/-- The magic of the request transport: bytes 0x54 0x56 (R347). -/
def magicRequest : Nat := 0x5654
/-- The magic of the management session: bytes 0x54 0x4D (R442). -/
def magicManagement : Nat := 0x4D54

/-- A frame reaches the IPv6 layer of a port: the port is in use and its link up, and the frame carries a tag of the port's VLAN where the port tags its
frames (R400). -/
def frameReaches (s : State) (port : Nat) (vlan : Option Nat) (dest : List Byte) : Bool :=
  s.eth.up.getD port false && (s.cfg.bind fun c => c.eth[port]?).any fun e =>
    e.inUse && decide (dest = e.address) && decide (vlan.map (· % 4096) = if e.tagged then some (e.vlan % 4096) else none)

/-- A UDP port that the configuration gives a session at an Ethernet port; datagrams to another are dropped (R400). -/
def localPortOk (s : State) (port localPort : Nat) : Bool :=
  s.cfg.any fun c => (((c.pitches.map (·.sessions)).flatten) ++ c.management.toList).any fun e => decide (e.port = port ∧ e.localPort = localPort)

/-- A datagram of a known session to one of the device's UDP ports, under its magic, with version 1 and a body that fits (R347, R350, R400). On a module whose configuration is refused only
the management session is open (R437). -/
def knownDatagram (s : State) (d : Datagram) : Bool :=
  decide (d.version = 1) && decide (d.body.length ≤ 8896) && frameReaches s d.ethPort d.vlan d.dest && localPortOk s d.ethPort d.destPort
    && ((decide (d.magic = magicRequest) && !s.boot.configRefused && (sessionPitch s d.session).isSome) || (decide (d.magic = magicManagement) && isManagement s d.session))

/-- A session with a key that is not lost. -/
def sessionLive (x : Session) : Bool := x.isOpen && !x.lost

/-- A seq that has not been accepted and lies less than 1,024 beyond the highest (R350). -/
def seqFresh (x : Session) (q : Nat) : Bool := decide (x.contiguous < q) && decide (q ∉ x.accepted) && decide (q < x.highest + 1024)

/-- A datagram of a live session that passes its tag. -/
def datagramOk (s : State) (d : Datagram) : Bool := knownDatagram s d && d.tagOk && sessionLive (sessionOf s d.session)

/-- The highest seq without gaps, and the seqs accepted beyond it. -/
def closeGaps : Nat → Nat → List Nat → Nat × List Nat
  | 0, c, l => (c, l)
  | n + 1, c, l => if c + 1 ∈ l then closeGaps n (c + 1) (l.filter fun q => decide (q ≠ c + 1)) else (c, l)

/-- Accept a datagram: its seq, its acknowledgement of this side's messages, and an acknowledgement that is due within 100 µs (R347, R350). -/
def acceptDatagram (s : State) (d : Datagram) : State :=
  let x := sessionOf s d.session
  let (c, l) := closeGaps (x.accepted.length + 1) x.contiguous (x.accepted ++ [d.seq])
  putSession s d.session { x with
    contiguous := c, accepted := l, highest := max x.highest d.seq
    unacked := x.unacked.filter fun u => decide (d.ack < u.seq), ackDue := some (s.cairn.count + 100000) }

/-- A row of a message type: a fresh message is accepted and acts, another does nothing here. -/
def withDatagram (s : State) (d : Datagram) (type : Nat) (f : State → State) : State :=
  let s1 := atTime s d.now
  if d.type = type ∧ datagramOk s1 d ∧ seqFresh (sessionOf s1 d.session) d.seq then f (acceptDatagram s1 d) else s1

end Sys2Proof.Machine
end

