-- ==== Sys2Proof/Machine/ConfigImage.lean ====
section
/-! DEFINITION. The configuration image (R364 to R366, R371, R384, R386, R431 to R434, R468): its directory and sections, and the checks of
R373. -/

namespace Sys2Proof.Machine

/-! ### Directory and sections (R431 to R433) -/

/-- Bytes of a signature block (R430). -/
def signatureBytes : Nat := 96 + 4627

/-- A directory entry: type, reserved field, length and offset. -/
structure Section where
  type : Nat
  reserved : Nat
  length : Nat
  offset : Nat
  deriving DecidableEq, Repr

/-- The directory of an image (R432). -/
def sectionsOf (bs : List Byte) : List Section :=
  (List.range (leAt bs 64 4)).map fun k =>
    let o := 72 + 16 * k
    ⟨leAt bs o 2, leAt bs (o + 2) 2, leAt bs (o + 4) 4, leAt bs (o + 8) 8⟩

/-- The section of a type. -/
def sectionOf (bs : List Byte) (type : Nat) : Option Section := (sectionsOf bs).find? fun x => decide (x.type = type)

/-- The bytes of a section; none of them where the section is absent. -/
def sectionBytes (bs : List Byte) (type : Nat) : List Byte :=
  match sectionOf bs type with
  | none => []
  | some x => (bs.drop x.offset).take x.length

/-- The first pair of elements of a list that a test finds. -/
def firstPair {α : Type} (bad : α → α → Bool) : List α → Option (α × α)
  | [] => none
  | a :: t =>
    match t.find? (bad a) with
    | some b => some (a, b)
    | none => firstPair bad t

/-- Whether the elements of a list differ pairwise under a key. -/
def distinctBy {α : Type} (key : α → Nat) (l : List α) : Bool := (firstPair (fun a b => decide (key a = key b)) l).isNone

/-- Bytes of a pitch-group entry with a given number of members (R433). -/
def groupEntryBytes (size : Nat) : Nat := ceilDiv (16 + 2 * size) 8 * 8

/-- The group entries of a section, at most n of them, each as its bytes; none where they do not fill it. -/
def groupEntries : Nat → List Byte → Option (List (List Byte))
  | 0, bs => if bs = [] then some [] else none
  | n + 1, bs =>
    if bs = [] then some []
    else
      let len := groupEntryBytes (leAt bs 4 2)
      if bs.length < len then none
      else match groupEntries n (bs.drop len) with
        | none => none
        | some t => some (bs.take len :: t)

/-- The length of a section matches its type (R433). -/
def sectionLength (bs : List Byte) (x : Section) : Bool :=
  if x.type = 1 then decide (x.length % 192 = 0 ∧ 192 ≤ x.length ∧ x.length ≤ 64 * 192)
  else if x.type = 2 then decide (x.length % 40 = 0 ∧ 40 ≤ x.length ∧ x.length ≤ 16 * 40)
  else if x.type = 3 then decide (x.length = 192)
  else if x.type = 4 then decide (x.length = 64)
  else if x.type = 5 then decide (x.length = 8)
  else if x.type = 6 then decide (x.length = 96)
  else if x.type = 7 then decide (x.length = 8)
  else if x.type = 8 then decide (x.length = 32)
  else if x.type = 9 then decide (x.length = 24)
  else if x.type = 10 then decide (x.length = 1820)
  else if x.type = 11 then
    match groupEntries 64 (sectionBytes bs 11) with
    | none => false
    | some es => decide (es.length * 192 = (sectionBytes bs 1).length)
  else decide (x.length % 8 = 0 ∧ 8 ≤ x.length)

/-- The section types that must be present (R433). -/
def requiredTypes : List Nat := [1, 3, 4, 5, 6, 7, 8, 9, 11, 12]

/-- A structure of `len` bytes at an offset lies in the pitch data section (R432). -/
def inPitchData (bs : List Byte) (offset len : Nat) : Bool :=
  match sectionOf bs 12 with
  | none => false
  | some x => decide (x.offset ≤ offset) && decide (offset + len ≤ x.offset + x.length)

/-- The raw bytes of the pitch records. -/
def rawRecords (bs : List Byte) : List (List Byte) :=
  let b := sectionBytes bs 1
  (List.range (b.length / 192)).map fun k => (b.drop (192 * k)).take 192

/-- The offsets of a record lie in the pitch data section: session table, profile and key block. -/
def recordOffsetsOk (bs r : List Byte) : Bool :=
  inPitchData bs (leAt r 96 8) (32 * leAt r 94 2) && inPitchData bs (leAt r 136 8) (leAt r 132 4) && inPitchData bs (leAt r 144 8) 1788

/-- The rules of R432. -/
def directoryOk (bs : List Byte) : Bool :=
  let xs := sectionsOf bs
  let last := leAt bs 16 8 - signatureBytes
  decide (1 ≤ xs.length ∧ xs.length ≤ 32) && zerosAt bs 68 4
    && (xs.all fun x => decide (x.reserved = 0 ∧ 1 ≤ x.type ∧ x.type ≤ 12 ∧ x.offset % 8 = 0 ∧ 72 + 16 * xs.length ≤ x.offset
      ∧ x.offset + x.length ≤ last) && sectionLength bs x)
    && distinctBy (·.type) xs && (firstPair (fun a b => overlaps a.offset a.length b.offset b.length) xs).isNone
    && (requiredTypes.all fun t => (sectionOf bs t).isSome) && (rawRecords bs).all (recordOffsetsOk bs)

/-! ### Structures -/

/-- Lantern block (R214). -/
def lanternOf (b : List Byte) : LanternBlock :=
  ⟨leAt b 0 2, leAt b 2 1, leAt b 3 1, leAt b 4 1, bitOf (leAt b 5 1) 0, leAt b 6 1, leAt b 7 1⟩

/-- The ranges of R214. -/
def lanternOk (b : List Byte) : Bool :=
  let x := lanternOf b
  decide (1 ≤ x.k ∧ x.k ≤ 256 ∧ 1 ≤ x.sink ∧ x.sink ≤ 4 ∧ 1 ≤ x.recent ∧ x.recent ≤ 16 ∧ x.lookahead ≤ 64 ∧ leAt b 5 1 < 2
    ∧ 50 ≤ x.hotHigh ∧ x.hotHigh ≤ 98 ∧ 10 ≤ x.hotLow ∧ x.hotLow < x.hotHigh)

/-- Quality block (R295). -/
def qualityOf (b : List Byte) : QualityBlock := ⟨leAt b 0 1, bitOf (leAt b 1 1) 0, leAt b 2 1, leAt b 4 2⟩

/-- The ranges of R295. -/
def qualityOk (b : List Byte) : Bool :=
  let x := qualityOf b
  decide ((x.lookoutLog2 = 0 ∨ (4 ≤ x.lookoutLog2 ∧ x.lookoutLog2 ≤ 16)) ∧ leAt b 1 1 < 2 ∧ leAt b 3 1 = 0 ∧ leAt b 6 2 = 0
    ∧ x.wideRows ≤ 256 ∧ (x.wideLayers = 0 ∨ 1 ≤ x.wideRows))

/-- Serving block (R352). -/
def servingOf (b : List Byte) : ServingBlock := ⟨leAt b 0 2, leAt b 2 2, leAt b 4 4⟩

/-- The ranges of R352. -/
def servingOk (b : List Byte) : Bool :=
  let x := servingOf b
  decide (x.prefillChunk % 256 = 0 ∧ 256 ≤ x.prefillChunk ∧ x.prefillChunk ≤ 16384 ∧ 1 ≤ x.rows ∧ x.rows ≤ 256
    ∧ x.prefillChunk ≤ x.tokens ∧ x.tokens ≤ 65536) && zerosAt b 8 8

/-- The arithmetic profile (R365). -/
def profileOf (b : List Byte) : Profile where
  lantern := lanternOf b
  quality := qualityOf (b.drop 8)
  serving := servingOf (b.drop 16)
  activation := leAt b 32 1
  layers := leAt b 34 2
  tags := (b.drop 64).map BitVec.toNat
  digest := Config.sha384 b
  blocksOk := lanternOk b && qualityOk (b.drop 8) && servingOk (b.drop 16)

/-- The profile's own fields are in range, and its length is 64 + L (R365, check 1). -/
def profileOk (b : List Byte) : Bool :=
  decide (leAt b 32 1 ≤ 2 ∧ leAt b 33 1 = 0 ∧ 1 ≤ leAt b 34 2 ∧ leAt b 34 2 ≤ 256 ∧ b.length = 64 + leAt b 34 2) && zerosAt b 36 28
    && (b.drop 64).all fun t => tagOk t.toNat

/-- A session table entry (R366). -/
def sessionEntryOf (b : List Byte) : SessionEntry := ⟨leAt b 0 2, leAt b 2 1, leAt b 4 2, leAt b 6 2, (b.drop 8).take 16⟩

/-- Its ranges. -/
def sessionEntryOk (b : List Byte) : Bool := decide (leAt b 2 1 < 2 ∧ leAt b 3 1 = 0) && zerosAt b 24 8

/-- A pitch-group entry (R433). -/
def groupEntryOf (b : List Byte) : GroupEntry :=
  ⟨leAt b 0 1, leAt b 2 2, leAt b 4 2, leAt b 6 2, leAt b 8 2, leAt b 10 2, (List.range (leAt b 4 2)).map fun k => leAt b (16 + 2 * k) 2⟩

/-- Its ranges. -/
def groupEntryOk (b : List Byte) : Bool :=
  let x := groupEntryOf b
  decide (leAt b 1 1 = 0 ∧ 8 ≤ x.groupSize ∧ x.groupSize ≤ 256 ∧ x.groupPosition < x.groupSize ∧ 1 ≤ x.layers ∧ x.layers ≤ 256)
    && zerosAt b 12 4 && zerosAt b (16 + 2 * x.groupSize) 6 && x.members.all fun m => decide (m < 4096)

/-- The group entry of a pitch; an all-zero entry, which no range admits, where there is none. -/
def rawGroup (bs : List Byte) (pitch : Nat) : List Byte :=
  (((groupEntries 64 (sectionBytes bs 11)).getD []).find? fun b => decide (leAt b 0 1 = pitch)).getD (leBytes 16 0)

/-- A key set of 96 bytes (R375). -/
def keySetOf (b : List Byte) : KeySet := ⟨leAt b 0 16, leAt b 16 16, (b.drop 32).take 32, (b.drop 64).take 32⟩

/-- Open a key block under a pitch ID byte and additional data (R375, R433): the key-encryption key comes from the ECDH and the ML-KEM secret, and
the set is bytes 1,676 to 1,787. -/
def openKeyBlock (d : Identity) (id : Nat) (aad block : List Byte) : Option (List Byte) :=
  let bytes (o n : Nat) : List Byte := (block.drop o).take n
  match Config.ecdhSecret d.agreeEc.secretPart (bytes 0 96) with
  | none => none
  | some secret =>
    let kek := (Config.hmacSha384 (secret ++ Config.kemSecret d.agreeKem.secretPart (bytes 96 1568)) (ascii "VZ8100 pitch keys" ++ leBytes 1 id)).take 32
    (Config.gcmOpen kek (bytes 1664 12) aad (bytes 1676 112)).filter fun b => decide (b.length = 96)

/-- The ranges of a pitch record and of what it locates (check 1 of R373). -/
def pitchRecordOk (bs r : List Byte) : Bool :=
  let sess := (List.range (leAt r 94 2)).map fun k => (bs.drop (leAt r 96 8 + 32 * k)).take 32
  let prof := (bs.drop (leAt r 136 8)).take (leAt r 132 4)
  decide (leAt r 0 1 < 64 ∧ leAt r 1 1 < 4 ∧ leAt r 2 1 < 200 ∧ leAt r 3 1 < 100 ∧ 1 ≤ leAt r 4 1 ∧ leAt r 4 1 ≤ 200 ∧ 1 ≤ leAt r 5 1
    ∧ leAt r 5 1 ≤ 100 ∧ leAt r 6 1 ≤ 15 ∧ 1 ≤ leAt r 10 2 ∧ leAt r 10 2 ≤ 1024 ∧ 1 ≤ leAt r 16 4 ∧ leAt r 16 4 ≤ 65536
    ∧ 1 ≤ leAt r 24 4 ∧ leAt r 24 4 ≤ 65536 ∧ 1 ≤ leAt r 28 4 ∧ leAt r 28 4 ≤ 2 ^ 20)
    && ((List.range 8).all fun k => decide (leAt r (32 + 2 * k) 2 ≤ 8704)) && ((List.range 7).all fun k => decide (leAt r (80 + 2 * k) 2 ≤ 1000))
    && decide (leAt r 94 2 ≤ 16)
    && (if leAt r 104 1 = 1 then decide (leAt r 106 2 = 0xFFFF) else decide (leAt r 104 1 = 2 ∧ leAt r 112 8 = 0 ∧ leAt r 120 8 = 0))
    && zerosAt r 105 1 && zerosAt r 108 4 && zerosAt r 130 2 && zerosAt r 152 40
    && sess.all sessionEntryOk && profileOk prof && groupEntryOk (rawGroup bs (leAt r 0 1))

/-- Read a pitch record (R364). -/
def pitchRecordOf (d : Identity) (bs r : List Byte) : PitchRecord where
  pitch := leAt r 0 1
  enabled := bitOf (leAt r 1 1) 0
  sealed := bitOf (leAt r 1 1) 1
  x0 := leAt r 2 1
  y0 := leAt r 3 1
  width := leAt r 4 1
  height := leAt r 5 1
  spares := leAt r 6 1
  hash := leAt r 7 1
  hbmBase := leAt r 8 2
  hbmSize := leAt r 10 2
  seqFirst := leAt r 12 4
  seqCount := leAt r 16 4
  syncFirst := leAt r 20 4
  syncCount := leAt r 24 4
  slots := leAt r 28 4
  larder := (List.range 8).map fun k => leAt r (32 + 2 * k) 2
  capacity := (List.range 8).map fun k => (leAt r (48 + 4 * k) 2, leAt r (50 + 4 * k) 2)
  shares := (List.range 7).map fun k => leAt r (80 + 2 * k) 2
  sessions := (List.range (leAt r 94 2)).map fun k => sessionEntryOf ((bs.drop (leAt r 96 8 + 32 * k)).take 32)
  parkKind := leAt r 104 1
  parkSession := leAt r 106 2
  parkAddress := leAt r 112 8
  parkLength := leAt r 120 8
  regions := leAt r 128 2
  profile := profileOf ((bs.drop (leAt r 136 8)).take (leAt r 132 4))
  group := groupEntryOf (rawGroup bs (leAt r 0 1))
  keys := (openKeyBlock d (leAt r 0 1) r ((bs.drop (leAt r 144 8)).take 1788)).map keySetOf
  reservedZero := pitchRecordOk bs r

/-- The k-th piece of n bytes of a section. -/
def piece (b : List Byte) (n k : Nat) : List Byte := (b.drop (n * k)).take n

/-- The links of a port: an allowed count, all with one peer device (R386). -/
def bundleOk (ls : List LinkEntry) (port : Nat) : Bool :=
  let mine := ls.filter fun l => decide (l.port = port)
  [0, 1, 2, 3, 4, 6, 8, 12, 24].contains mine.length && mine.all fun l => decide (l.peerDevice = (mine.head?.map (·.peerDevice)).getD 0)

/-- The ranges of the power section (R468, R469). -/
def powerRanges (b : List Byte) : Bool :=
  decide (250 ≤ leAt b 0 2 ∧ leAt b 0 2 ≤ 500 ∧ 250 ≤ leAt b 2 2 ∧ leAt b 2 2 ≤ leAt b 0 2 ∧ 1 ≤ leAt b 4 1 ∧ leAt b 4 1 ≤ 3
    ∧ leAt b 5 1 < 8 ∧ leAt b 6 1 ≤ 4 ∧ leAt b 7 1 ≤ 2 ∧ leAt b 8 2 ≤ 3600) && zerosAt b 10 22

/-- The sections other than pitches and pitch data are within their ranges (R384, R386, R431, R433, R468, R469; check 1 of R373). -/
def otherSectionsOk (bs : List Byte) (links : List LinkEntry) : Bool :=
  let lk := sectionBytes bs 3
  let pt := sectionBytes bs 4
  let hp := sectionBytes bs 5
  let et := sectionBytes bs 6
  let tm := sectionBytes bs 7
  let pw := sectionBytes bs 8
  let ch := sectionBytes bs 9
  let mg := sectionBytes bs 10
  let rg := sectionBytes bs 2
  zerosAt bs 6 2 && zerosAt bs 26 38 && decide (leAt bs 24 2 < 4096)
    && ((List.range 24).all fun k =>
      let b := piece lk 8 k
      decide (leAt b 0 1 = k ∧ (leAt b 1 1 < 24 ∨ leAt b 1 1 = 0xFF) ∧ leAt b 2 2 < 4096 ∧ leAt b 4 1 < 24) && zerosAt b 6 2
        && (decide (leAt b 1 1 ≠ 0xFF) || zerosAt b 2 4))
    && ((List.range 24).all (bundleOk links))
    && ((List.range 8).all fun k =>
      let b := piece pt 8 k
      decide (leAt b 0 1 = k ∧ leAt b 1 1 < 4) && zerosAt b 4 4
        && (if bitOf (leAt b 1 1) 0 then decide (1 ≤ leAt b 2 2 ∧ leAt b 2 2 ≤ 2048) else decide (leAt b 2 2 = 0)))
    && decide (leAt hp 0 1 < 2) && zerosAt hp 1 7
    && ((List.range 2).all fun k =>
      let b := piece et 48 k
      decide (leAt b 0 1 = k ∧ leAt b 1 1 < 4 ∧ leAt b 2 2 < 32768 ∧ 1 ≤ leAt b 4 1 ∧ leAt b 4 1 ≤ 128) && zerosAt b 5 3 && zerosAt b 40 8)
    && decide (leAt tm 0 2 < 4096 ∧ leAt tm 2 1 < 2) && zerosAt tm 3 5
    && powerRanges pw
    && decide (leAt ch 0 1 ≤ 8) && zerosAt ch 1 7
    && ((List.range 8).all fun k => decide (leAt ch (8 + 2 * k) 2 < 4096) && (decide (k < leAt ch 0 1) || decide (leAt ch (8 + 2 * k) 2 = 0)))
    && (decide (mg = []) || sessionEntryOk mg)
    && ((List.range (rg.length / 40)).all fun k =>
      let b := piece rg 40 k
      decide (leAt b 0 1 < 16 ∧ leAt b 8 8 % 2 ^ 30 = 0 ∧ leAt b 16 8 ≤ 2 ^ 40) && zerosAt b 1 7 && zerosAt b 32 8)
    && distinctBy (fun k => leAt (piece rg 40 k) 0 1) (List.range (rg.length / 40))

/-- Link entries (R384). -/
def linksOf (bs : List Byte) : List LinkEntry :=
  (List.range 24).map fun k =>
    let b := piece (sectionBytes bs 3) 8 k
    ⟨leAt b 0 1, leAt b 1 1, leAt b 2 2, leAt b 4 1, leAt b 5 1⟩

/-- The power section (R468). -/
def powerOf (b : List Byte) : PowerSection :=
  ⟨leAt b 0 2, leAt b 2 2, leAt b 4 1, bitOf (leAt b 5 1) 0, bitOf (leAt b 5 1) 1, bitOf (leAt b 5 1) 2, leAt b 6 1, leAt b 7 1, leAt b 8 2, powerRanges b⟩

/-- The management session's key set: its block is opened with pitch ID byte 0xFF and the session entry as additional data (R433). -/
def managementSet (d : Identity) (bs : List Byte) : Option (List Byte) :=
  let b := sectionBytes bs 10
  if b = [] then none else openKeyBlock d 0xFF (b.take 32) (b.drop 32)

/-- The management key set: opened, and with every key but the transport key zero (R433). -/
def managementOk (d : Identity) (bs : List Byte) : Bool := decide (sectionBytes bs 10 = []) || (managementSet d bs).any fun b => zerosAt b 0 64

/-- The entries of the Ethernet section (R433). -/
def ethOf (bs : List Byte) : List EthEntry :=
  (List.range 2).map fun k =>
    let b := piece (sectionBytes bs 6) 48 k
    ⟨leAt b 0 1, bitOf (leAt b 1 1) 0, bitOf (leAt b 1 1) 1, leAt b 2 2, leAt b 4 1, (b.drop 8).take 16, (b.drop 24).take 16⟩

/-- The session entry of the management section, if there is one (R433). -/
def managementOf (bs : List Byte) : Option SessionEntry := if sectionBytes bs 10 = [] then none else some (sessionEntryOf (sectionBytes bs 10))

/-- Read a configuration image whose directory keeps R432; `d` opens its key blocks. -/
def configurationOf (d : Identity) (bs : List Byte) : Configuration where
  generation := leAt bs 8 8
  deviceId := leAt bs 24 2
  digest := Config.sha384 (bs.take (leAt bs 16 8))
  pitches := (rawRecords bs).map (pitchRecordOf d bs)
  regions := (List.range ((sectionBytes bs 2).length / 40)).map fun k =>
    let b := piece (sectionBytes bs 2) 40 k
    ⟨leAt b 0 1, leAt b 8 8, leAt b 16 8, leAt b 24 8⟩
  links := linksOf bs
  ports := (List.range 8).map fun k =>
    let b := piece (sectionBytes bs 4) 8 k
    ⟨leAt b 0 1, bitOf (leAt b 1 1) 0, bitOf (leAt b 1 1) 1, leAt b 2 2⟩
  hostPort := bitOf (leAt (sectionBytes bs 5) 0 1) 0
  eth := ethOf bs
  timeRoot := leAt (sectionBytes bs 7) 0 2
  ppsUsed := bitOf (leAt (sectionBytes bs 7) 2 1) 0
  power := powerOf (sectionBytes bs 8)
  successors := (List.range (leAt (sectionBytes bs 9) 0 1)).map fun k => leAt (sectionBytes bs 9) (8 + 2 * k) 2
  management := managementOf bs
  managementKeys := (managementSet d bs).map keySetOf
  managementKeysOk := managementOk d bs
  reservedZero := otherSectionsOk bs (linksOf bs)

/-- What a module keeps of a configuration whose signature verified and whose directory breaks R432: its management session with the Ethernet ports that
carry it, so that the session stays open (R437); the host port is used for the update messages (notes/assumptions/35.md). -/
def managementOnly (d : Identity) (bs : List Byte) : Configuration where
  generation := leAt bs 8 8
  deviceId := leAt bs 24 2
  digest := Config.sha384 (bs.take (leAt bs 16 8))
  pitches := []
  regions := []
  links := []
  ports := []
  hostPort := true
  eth := ethOf bs
  timeRoot := 0
  ppsUsed := false
  power := powerOf []
  successors := []
  management := managementOf bs
  managementKeys := (managementSet d bs).map keySetOf
  managementKeysOk := managementOk d bs
  reservedZero := false

/-- Whether a stored slot holds a configuration image that the firmware can read: magic and format (R431, R434). -/
def imageReadable (bs : List Byte) (format : Nat) : Bool := decide (bs.take 4 = ascii "VZCF") && decide (leAt bs 4 2 = format)

/-! ### The checks of R373 -/

/-- A failed check: its number, the pitch, and the other pitch. -/
structure CheckFailure where
  check : Nat
  pitch : Nat
  other : Nat
  deriving DecidableEq, Repr

/-- No pitch. -/
def noneInvolved : Nat := 0xFF

/-- A check that each record must pass alone. -/
def eachRecord (n : Nat) (rs : List PitchRecord) (ok : PitchRecord → Bool) : Option CheckFailure :=
  (rs.find? fun r => !ok r).map fun r => ⟨n, r.pitch, noneInvolved⟩

/-- A check that no two records may break together. -/
def pairRecords (n : Nat) (rs : List PitchRecord) (bad : PitchRecord → PitchRecord → Bool) : Option CheckFailure :=
  (firstPair bad rs).map fun x => ⟨n, x.1.pitch, x.2.pitch⟩

/-- A check of the module as a whole. -/
def moduleCheck (n : Nat) (ok : Bool) : Option CheckFailure := if ok then none else some ⟨n, noneInvolved, noneInvolved⟩

/-- The first failure of a list of checks. -/
def firstFailure (l : List (Option CheckFailure)) : Option CheckFailure := l.findSome? id

/-- Two rectangles share a camp (R367). -/
def rectsMeet (a b : PitchRecord) : Bool :=
  (List.range Config.camps).any fun c => (relInRect a c).isSome && (relInRect b c).isSome

/-- The HBM range of a quota. -/
def quotaRange (r : PitchRecord) : Nat × Nat := (r.hbmBase * 2 ^ 30, r.hbmSize * 2 ^ 30)

/-- A port holds an accepted expander. -/
def portAccepted (s : State) (q : Nat) : Bool :=
  match s.mem.ports[q]? with
  | none => false
  | some x => decide (x.state ≠ .refused ∧ x.state ≠ .lost ∧ x.state ≠ .down)

/-- Capacity in GiB of the declared and accepted expander of a port (R255). -/
def portGib (s : State) (c : Configuration) (q : Nat) : Nat :=
  match c.ports[q]? with
  | none => 0
  | some d => if d.present && portAccepted s q then d.capacity else 0

/-- The ranges of a record on the capacity ports, as DAs. -/
def capacityRanges (r : PitchRecord) : List (Nat × Nat) :=
  (r.capacity.zipIdx.filter fun x => decide (x.1.2 ≠ 0)).map fun x => (portBase x.2 + x.1.1 * 2 ^ 30, x.1.2 * 2 ^ 30)

/-- Two lists of ranges meet. -/
def rangesMeet (a b : List (Nat × Nat)) : Bool := a.any fun x => b.any fun y => overlaps x.1 x.2 y.1 y.2

/-- A golden copy lies on an accepted expander (R371). -/
def goldenOk (s : State) (c : Configuration) (g : RegionEntry) : Bool :=
  let q := (g.golden - portBase 0) / 0x20000000000
  decide (portBase 0 ≤ g.golden ∧ q < 8 ∧ g.golden + g.length ≤ portBase q + portGib s c q * 2 ^ 30)

/-- The shares of a record (check 10). -/
def sharesOk (r : PitchRecord) : Bool := r.shares.all fun x => if r.sealed then decide (1 ≤ x) else decide (x = 0)

/-- The sum of the sealed shares of a resource. -/
def shareSum (rs : List PitchRecord) (k : Nat) : Nat := ((rs.filter (·.sealed)).map fun r => r.shares.getD k 0).sum

/-- Check 11 of a record alone. -/
def groupOk (c : Configuration) (r : PitchRecord) : Bool :=
  r.profile.blocksOk && decide (r.profile.layers = r.group.layers) && decide (r.group.members[r.group.groupPosition]? = some c.deviceId)

/-- The session numbers of a record (check 9). -/
def sessionNumbers (r : PitchRecord) : List Nat := r.sessions.map (·.session)

/-- The session numbers of a record differ from each other and from the management session's (check 9). -/
def ownSessionsOk (c : Configuration) (r : PitchRecord) : Bool :=
  distinctBy id (sessionNumbers r ++ (c.management.map (·.session)).toList)

/-- Two records have a session number in common (check 9). -/
def sessionsMeet (a b : PitchRecord) : Bool := (sessionNumbers a).any fun n => (sessionNumbers b).contains n

/-- The first check of R373 that fails. -/
def checkConfiguration (s : State) (c : Configuration) : Option CheckFailure :=
  let rs := c.pitches
  firstFailure [
    moduleCheck 1 c.reservedZero,
    eachRecord 1 rs (·.reservedZero),
    pairRecords 1 rs fun a b => decide (a.pitch = b.pitch),
    eachRecord 2 rs fun r => decide (r.spares < r.width * r.height) && s.boot.fencedLogical.all fun x => (relInRect r x).isNone,
    pairRecords 3 rs rectsMeet,
    moduleCheck 4 (c.regions.all fun g => decide (g.hbm + g.length ≤ s.mem.n * 2 ^ 30)),
    eachRecord 4 rs fun r => decide (r.hbmBase + r.hbmSize ≤ s.mem.n),
    pairRecords 4 rs fun a b => rangesMeet [quotaRange a] [quotaRange b],
    eachRecord 4 rs fun r => !rangesMeet [quotaRange r] (c.regions.map fun g => (g.hbm, g.length)),
    moduleCheck 4 (firstPair (fun a b : RegionEntry => overlaps a.hbm a.length b.hbm b.length) c.regions).isNone,
    moduleCheck 5 ((List.range 8).all fun k => decide ((rs.map fun r => r.larder.getD k 0).sum ≤ 8704)),
    eachRecord 6 rs fun r => r.capacity.zipIdx.all fun x => decide (x.1.2 = 0) || decide (x.1.1 + x.1.2 ≤ portGib s c x.2),
    moduleCheck 6 (c.regions.all (goldenOk s c)),
    pairRecords 6 rs fun a b => rangesMeet (capacityRanges a) (capacityRanges b),
    eachRecord 6 rs fun r => !rangesMeet (capacityRanges r) (c.regions.map fun g => (g.golden, g.length)),
    moduleCheck 6 (firstPair (fun a b : RegionEntry => overlaps a.golden a.length b.golden b.length) c.regions).isNone,
    eachRecord 7 rs fun r => decide (r.seqFirst + r.seqCount ≤ 65536 ∧ r.syncFirst + r.syncCount ≤ 65536),
    pairRecords 7 rs fun a b => overlaps a.seqFirst a.seqCount b.seqFirst b.seqCount || overlaps a.syncFirst a.syncCount b.syncFirst b.syncCount,
    pairRecords 8 rs fun a b => decide (a.hash &&& b.hash ≠ 0),
    eachRecord 9 rs (ownSessionsOk c),
    pairRecords 9 rs sessionsMeet,
    eachRecord 9 rs fun r => decide (r.parkKind ≠ 2) || r.sessions.any fun e => decide (e.session = r.parkSession),
    eachRecord 10 rs sharesOk,
    moduleCheck 10 ((List.range 7).all fun k => decide (shareSum rs k ≤ 1000)),
    eachRecord 11 rs (groupOk c),
    pairRecords 11 rs fun a b => decide (a.group.pitchGroup = b.group.pitchGroup),
    eachRecord 12 rs fun r => (List.range 16).all fun k => !bitOf r.regions k || c.regions.any fun g => decide (g.region = k),
    eachRecord 13 rs fun r => r.keys.isSome,
    moduleCheck 13 c.managementKeysOk]

end Sys2Proof.Machine
end

