-- ==== Sys2Proof/Machine/HostPort.lean ====
section
/-! DEFINITION. The host port (R407 to R427): doorbells, submission fetches, mailboxes, rings, attachment, registers, and the reset of functions
with work in flight. -/

namespace Sys2Proof.Machine

/-! ### Functions -/

/-- Detail bytes of the events of R427. -/
def hostDetail (fn object rate value address : Nat) : List Byte :=
  leBytes 1 fn ++ leBytes 1 object ++ leBytes 2 rate ++ leBytes 4 value ++ leBytes 8 address

/-- The pitch of a function: VF n serves pitch n (R409); the PF belongs to no pitch. -/
def fnPitch (fn : Nat) : Nat := if fn = 0 then noPitch else fn - 1

/-- A VF whose pitch has no record, is not enabled (R410), or belongs to a group that is disabled (R438). -/
def fnBarred (s : State) (fn : Nat) : Bool :=
  if fn = 0 then false
  else match recordOf s (fn - 1) with
    | none => true
    | some r => !r.enabled || (pitchOf s (fn - 1)).groupDisabled

/-- The VFs that exist: SR-IOV's VF Enable is set, and NumVFs counts them from the first (R407). -/
def vfs (s : State) : List Nat := if s.host.vfEnable then (List.range s.host.numVfs).map (· + 1) else []

/-- A function exists: the PF, or a VF that SR-IOV has enabled (R407, R409). -/
def fnExists (s : State) (fn : Nat) : Bool := decide (fn = 0) || (s.host.vfEnable && decide (fn ≤ s.host.numVfs))

/-- Writes of the host reach a function: the port is up, and the function exists and is not being reset (R407, R408, R424). -/
def fnReachable (s : State) (fn : Nat) : Bool := s.host.up && fnExists s fn && !(fnOf s fn).resetting

/-! ### Doorbells (R415, R416) -/

/-- DOORBELL_INVALID, once per function and Cairn second (R416, R427). -/
def doorbellInvalid (s : State) (fn object : Nat) (value : Word) : State :=
  eventOnce s 0x0D02 fn fun s => writeEvent s (srcFn fn 0) 0x07 0x0D02 (fnPitch fn) (hostDetail fn object 0 value.toNat 0)

/-- Reads of the entries that a new tail makes visible. -/
def readEntries (fn base entries : Nat) : Nat → Nat → State → State
  | 0, _, s => s
  | n + 1, k, s => readEntries fn base entries n ((k + 1) % entries) (send s (.dmaRead fn (base + 64 * k) 64))

/-- A doorbell value names an index of the ring, and its reserved bits are zero (R415, R416). -/
def doorbellOk (k : Ring) (value : Word) : Bool := decide (value.toNat < k.entries) && decide (value.toNat < 65536)

/-- SUBMISSION_DOORBELL (R345, R416): the new tail, from which the device reads entries. -/
def doSubmissionDoorbell (s : State) (fn ring : Nat) (value : Word) : State :=
  if fnReachable s fn = false ∨ fnBarred s fn then s
  else
    let f := fnOf s fn
    match mget f.sub ring with
    | none => doorbellInvalid s fn ring value
    | some k =>
      if k.fetchError ∨ doorbellOk k value = false then doorbellInvalid s fn ring value
      else
        let n := (value.toNat + k.entries - k.doorbell) % k.entries
        let s1 := putFn s fn { f with sub := mset f.sub ring { k with doorbell := value.toNat } }
        readEntries fn k.base k.entries n k.doorbell s1

/-- SUBMISSION_DOORBELL. -/
def execSubmissionDoorbell (fn ring : Nat) (value : Word) (s : State) : Answer State :=
  if ringOk fn ring then .next (doSubmissionDoorbell s fn ring value) else .refused .noSuchUnit

/-- Entries that a new head frees: the distance from the old head; the old head on a full ring frees all (R345, R416; DESIGN CHOICE: notes/assumptions/32.md). -/
def freedBy (k : Ring) (head : Nat) : Nat :=
  let old := (k.position + k.entries - k.inFlight % k.entries) % k.entries
  let n := (head + k.entries - old) % k.entries
  if n = 0 ∧ k.inFlight = k.entries then k.entries else n

/-- COMPLETION_DOORBELL (R345, R346, R416): entries are freed and the completions that the ring holds are posted; a head beyond the tail is
ignored. -/
def doCompletionDoorbell (s : State) (fn ring : Nat) (value : Word) : State :=
  if fnReachable s fn = false ∨ fnBarred s fn then s
  else
    let f := fnOf s fn
    match mget f.comp ring with
    | none => doorbellInvalid s fn (16 + ring) value
    | some k =>
      if doorbellOk k value = false then doorbellInvalid s fn (16 + ring) value
      else if k.inFlight < freedBy k value.toNat then s
      else
        let k1 := { k with doorbell := value.toNat, inFlight := k.inFlight - freedBy k value.toNat }
        flushHeld fn ring k.held.length (putFn s fn { f with comp := mset f.comp ring k1 })

/-- COMPLETION_DOORBELL. -/
def execCompletionDoorbell (fn ring : Nat) (value : Word) (s : State) : Answer State :=
  if ringOk fn ring then .next (doCompletionDoorbell s fn ring value) else .refused .noSuchUnit

/-! ### SUBMISSION_FETCH (R340, R346, R416) -/

/-- The completion ring of a submission ring has room (R346). -/
def completionRoom (f : Function) (k : Ring) : Bool :=
  match mget f.comp k.completion with
  | none => true
  | some c => decide (c.inFlight < c.entries) && decide (c.held = [])

/-- The ranges of host memory that an entry names and that the device reads for it (R339, R340, R411): its parameter block, the bitmap that the block
names, and its tokens, descriptor or sources. -/
def entryReads (d : FetchedData) : List (Nat × Nat) :=
  let e := entryOf d.entry
  let gen := generates e.opcode
  let n := if gen then 4 * e.count else if e.opcode = 5 then 32 else if e.opcode = 6 then 32 * e.count else 0
  (if gen then [(e.params, 64)] else [])
    ++ (if gen ∧ leAt d.params 24 8 ≠ 0 then [(leAt d.params 24 8, ceilDiv (leAt d.params 32 4) 8)] else [])
    ++ (if n = 0 then [] else [(e.data, n)])

/-- Reads of host memory in the space of a function (R411). -/
def sendReads (fn : Nat) : List (Nat × Nat) → State → State
  | [], s => s
  | x :: t, s => sendReads fn t (send s (.dmaRead fn x.1 x.2))

/-- SUBMISSION_FETCH: the entry at the ring's head has been read with its data, or the read has failed; a poisoned answer is an uncorrectable error of
AER (R407: bit 12 of its status, as PCIe has it). -/
def doSubmissionFetch (s0 : State) (fn ring : Nat) (d : Option FetchedData) (poisoned : Bool) : State :=
  let s := if fnReachable s0 fn ∧ d = none ∧ poisoned then { s0 with host := { s0.host with aer := s0.host.aer ||| 0x1000#32 } } else s0
  let f := fnOf s fn
  match mget f.sub ring with
  | none => s
  | some k =>
    if fnReachable s fn = false ∨ fnBarred s fn ∨ k.fetchError ∨ k.position = k.doorbell ∨ completionRoom f k = false then s
    else
      match d with
      | none =>
        let s1 := putFn s fn { f with sub := mset f.sub ring { k with fetchError := true } }
        writeEvent s1 (srcFn fn 0) 0x07 0x0D03 (fnPitch fn) (hostDetail fn ring 0 0 (k.base + 64 * k.position))
      | some d =>
        let s1 := sendReads fn (entryReads d) (putFn s fn { f with sub := mset f.sub ring { k with position := (k.position + 1) % k.entries } })
        acceptEntry s1 (.ring fn k.completion) (if fn = 0 then k.pitch else fn - 1) d

/-- SUBMISSION_FETCH. -/
def execSubmissionFetch (fn ring now : Nat) (d : Option FetchedData) (poisoned : Bool) (s : State) : Answer State :=
  if ringOk fn ring then .next (doSubmissionFetch (atTime s now) fn ring d poisoned) else .refused .noSuchUnit

/-! ### Mailboxes (R417 to R420) -/

/-- A mailbox of a function. -/
def mailOf (s : State) (fn mb : Nat) : Mailbox := mgetD (fnOf s fn).mail mb Mailbox.reset
/-- Put a mailbox. -/
def putMail (s : State) (fn mb : Nat) (m : Mailbox) : State :=
  let f := fnOf s fn
  putFn s fn { f with mail := mset f.mail mb m }

/-- Stage words 1 to 15 of a write (R417). -/
def stageWords (l : List Word) (words : NMap Word) : List Word :=
  words.foldl (fun l w => if 1 ≤ w.1 ∧ w.1 ≤ 15 then l.set (w.1 - 1) w.2 else l) l

/-- The number after a post's number: 1 to 255, then 1 again (R418). -/
def nextPost (n : Nat) : Nat := if n = 255 then 1 else n + 1

/-- The word 0 that is posted: the type with the sender's source ID (R418). -/
def stampWord (fn mb : Nat) (w : Word) : Word := BitVec.ofNat 32 (bitsOf w.toNat 31 24 * 2 ^ 24 + srcFn fn mb)

/-- MAILBOX_COLLISION, once per function and Cairn second (R419, R427). -/
def collisionEvent (s : State) (fn mb : Nat) : State :=
  eventOnce s 0x0D04 fn fun s => writeEvent s (srcFn fn mb) 0x07 0x0D04 (fnPitch fn) (hostDetail fn mb 0 0 0)

/-- A write request to the msg words of a mailbox: words 1 to 15 are staged, then word 0 posts (R418, R419). -/
def mailWrite (s : State) (fn mb : Nat) (words : NMap Word) : State :=
  if fnReachable s fn = false then s
  else
    let m := mailOf s fn mb
    let m1 := { m with staging := stageWords m.staging words }
    match mget words 0 with
    | none => putMail s fn mb m1
    | some w =>
      let m2 := { m1 with message := stampWord fn mb w :: m1.staging, postedSeq := nextPost m.postedSeq }
      match m.state with
      | .empty => putMail s fn mb { m2 with state := .posted }
      | .posted => collisionEvent (putMail s fn mb { m2 with collision := true }) fn mb
      | .taken => putMail s fn mb { m2 with state := .takenPosted }
      | .takenPosted => collisionEvent (putMail s fn mb { m2 with collision := true }) fn mb

/-- MAILBOX_POST. -/
def execMailboxPost (fn mb : Nat) (words : NMap Word) (s : State) : Answer State :=
  if mailOk fn mb then .next (mailWrite s fn mb words) else .refused .noSuchUnit

/-- COLLISION_CLEAR (R417): writing 1 to bit [2] of mb_status. -/
def execCollisionClear (fn mb : Nat) (value : Word) (s : State) : Answer State :=
  if mailOk fn mb then
    if fnReachable s fn ∧ value.getLsbD 2 then .next (putMail s fn mb { mailOf s fn mb with collision := false }) else .next s
  else .refused .noSuchUnit

/-- The Ranger takes the message of a mailbox (R419). -/
def takeMail (s : State) (fn mb : Nat) : State :=
  let m := mailOf s fn mb
  putMail s fn mb { m with state := .taken, takenSeq := m.postedSeq }

/-- The Ranger writes a reply and acknowledges the message it took (R417, R419, R422). -/
def ackMail (s : State) (fn mb code : Nat) (reply : List Word) : State :=
  let m := mailOf s fn mb
  let s1 := putMail s fn mb { m with
    state := if m.state = .takenPosted then .posted else .empty
    reply := (0#32 :: reply) ++ List.replicate (15 - reply.length) 0#32
    ackCode := code, ackSeq := m.takenSeq, ackValid := true }
  if m.ackInt then raiseInterrupt s1 fn m.vector else s1

/-- Posts that land while a message is taken (R419). -/
def mailWrites (fn mb : Nat) : List (NMap Word) → State → State
  | [], s => s
  | w :: t, s => mailWrites fn mb t (mailWrite s fn mb w)

/-- The type of a message. -/
def mailType (msg : List Word) : Nat := bitsOf (msg.headD 0#32).toNat 31 24

/-- Word n of a message as a number. -/
def wordAt (msg : List Word) (n : Nat) : Nat := (msg.getD n 0#32).toNat

/-- The message types that the spec names (R420, R442). -/
def mailKnown (t : Nat) : Bool := decide (1 ≤ t ∧ t ≤ 4) || decide (0x10 ≤ t ∧ t ≤ 0x14) || decide (t = 0x16 ∨ t = 0x17)

/-- The answer of a message before its own action: a barred VF, a firmware message of a VF and, on a module whose configuration is refused,
any message but the PF's firmware messages get NOT_PERMITTED; an unknown type gets BAD_ARGUMENT (R410, R420, R437, R442;
notes/assumptions/8.md). -/
def mailBarred (s : State) (fn t : Nat) : Option Nat :=
  if fnBarred s fn then some rcNotPermitted
  else if 0x10 ≤ t ∧ t ≤ 0x1F then (if fn ≠ 0 then some rcNotPermitted else if mailKnown t then none else some rcBadArgument)
  else if s.boot.configRefused then some rcNotPermitted
  else if mailKnown t then none else some rcBadArgument

/-- What the Ranger's action on a message gives: the state, the return code and the reply words from word 1 on. -/
structure MailResult where
  state : State
  code : Nat
  reply : List Word

/-- The Ranger takes the message of a mailbox, if it is posted and is of the type of the row or has a fixed answer; posts that land meanwhile are
stored; the action runs, and the message is acknowledged (R419). From phase 9 of a start onward the mailboxes accept messages: one that was posted
earlier waits (R435; notes/assumptions/8.md). -/
def mailRun (s : State) (fn mb type : Nat) (posts : List (NMap Word)) (act : List Word → State → MailResult) : State :=
  let m := mailOf s fn mb
  let t := mailType m.message
  if fnReachable s fn = false ∨ s.boot.phase < 9 ∨ m.state ≠ .posted then s
  else
    match mailBarred s fn t with
    | some code => ackMail (mailWrites fn mb posts (takeMail s fn mb)) fn mb code []
    | none =>
      if t = type then
        let x := act m.message (mailWrites fn mb posts (takeMail s fn mb))
        ackMail x.state fn mb x.code x.reply
      else s

/-! ### Rings and attachment (R344, R420, R421) -/

/-- Bytes of words 1 to n of a message. -/
def wordBytes (msg : List Word) (n : Nat) : List Byte := (((msg.drop 1).take n).map fun w => leBytes 4 w.toNat).flatten

/-- n is a power of two from 64 to 65,536. -/
def ringSize (n : Nat) : Bool := (List.range 11).any fun k => decide (n = 64 * 2 ^ k)

/-- The fields of a ring descriptor lie in range (R344, R420). -/
def ringDescOk (s : State) (fn : Nat) (bs : List Byte) : Bool :=
  let kind := leAt bs 0 1
  decide (kind < 2) && decide (leAt bs 1 1 < 16) && ringSize (leAt bs 4 4) && decide (leAt bs 8 8 % 4096 = 0) && zerosAt bs 18 14
    && (decide (fn ≠ 0) || (recordOf s (leAt bs 2 1)).isSome)
    && (if kind = 1 then decide (leAt bs 16 2 < vectorsOf fn) else (mget (fnOf s fn).comp (leAt bs 3 1)).isSome)

/-- RING_CREATE (R344, R420). -/
def actRingCreate (fn : Nat) (msg : List Word) (s : State) : MailResult :=
  let bs := wordBytes msg 8
  let f := fnOf s fn
  let ring := leAt bs 1 1
  let k := freshRing (if fn = 0 then leAt bs 2 1 else fn - 1) (leAt bs 3 1) (leAt bs 4 4) (leAt bs 8 8) (leAt bs 16 2)
  if f.attached = false then ⟨s, rcNotPermitted, []⟩
  else if ringDescOk s fn bs = false then ⟨s, rcBadArgument, []⟩
  else if leAt bs 0 1 = 0 then
    if (mget f.sub ring).isSome then ⟨s, rcRefusedState, []⟩ else ⟨putFn s fn { f with sub := mset f.sub ring k }, rcDone, []⟩
  else
    if (mget f.comp ring).isSome then ⟨s, rcRefusedState, []⟩ else ⟨putFn s fn { f with comp := mset f.comp ring k }, rcDone, []⟩

/-- RING_CREATE. -/
def execRingCreate (fn mb : Nat) (posts : List (NMap Word)) (s : State) : Answer State :=
  if mailOk fn mb then .next (mailRun s fn mb 0x01 posts (actRingCreate fn)) else .refused .noSuchUnit

/-- RING_DESTROY (R420): a submission ring in fetch error is not active (R414), and holds no completion ring. -/
def actRingDestroy (fn : Nat) (msg : List Word) (s : State) : MailResult :=
  let w := wordAt msg 1
  let f := fnOf s fn
  let ring := bitsOf w 11 8
  if w ≠ w % 2 + 256 * ring then ⟨s, rcBadArgument, []⟩
  else if w % 2 = 0 then
    if (mget f.sub ring).isNone then ⟨s, rcRefusedState, []⟩ else ⟨putFn s fn { f with sub := mdel f.sub ring }, rcDone, []⟩
  else
    if (mget f.comp ring).isNone ∨ (f.sub.any fun k => decide (k.2.completion = ring) && !k.2.fetchError) then ⟨s, rcRefusedState, []⟩
    else ⟨putFn s fn { f with comp := mdel f.comp ring }, rcDone, []⟩

/-- RING_DESTROY. -/
def execRingDestroy (fn mb : Nat) (posts : List (NMap Word)) (s : State) : Answer State :=
  if mailOk fn mb then .next (mailRun s fn mb 0x02 posts (actRingDestroy fn)) else .refused .noSuchUnit

/-- ATTACH_BEGIN (R420, R421): a fresh challenge in reply words 1 to 4; for a VF only. -/
def actAttachBegin (fn : Nat) (_msg : List Word) (s : State) : MailResult :=
  if fn = 0 then ⟨s, rcNotPermitted, []⟩
  else
    let (c, s1) := drawBytes s 16
    ⟨putFn s1 fn { fnOf s1 fn with challenge := some c }, rcDone, (List.range 4).map fun k => BitVec.ofNat 32 (leAt c (4 * k) 4)⟩

/-- ATTACH_BEGIN. -/
def execAttachBegin (fn mb : Nat) (posts : List (NMap Word)) (s : State) : Answer State :=
  if mailOk fn mb then .next (mailRun s fn mb 0x03 posts (actAttachBegin fn)) else .refused .noSuchUnit

/-- The response that attaches a VF (R421). -/
def attachResponse (s : State) (p : Nat) (challenge : List Byte) : List Byte :=
  padTo 16 (Config.hmacSha384 (transportKey s p) (ascii "VZ8100 attach" ++ leBytes 1 p ++ challenge))

/-- ATTACH (R420, R421): the right response attaches the VF; a wrong one discards the challenge and writes ATTACH_FAILED. The PF, which has no challenge,
fails too. -/
def actAttach (fn mb : Nat) (msg : List Word) (s : State) : MailResult :=
  let f := fnOf s fn
  match f.challenge with
  | some c =>
    if wordBytes msg 4 = attachResponse s (fn - 1) c then ⟨putFn s fn { f with attached := true }, rcDone, []⟩
    else
      let s1 := putFn s fn { f with challenge := none }
      ⟨writeEvent s1 (srcFn fn mb) 0x07 0x0D05 (fnPitch fn) (hostDetail fn mb 0 0 0), rcAuthFail, []⟩
  | none => ⟨writeEvent s (srcFn fn mb) 0x07 0x0D05 (fnPitch fn) (hostDetail fn mb 0 0 0), rcAuthFail, []⟩

/-- ATTACH. -/
def execAttach (fn mb : Nat) (posts : List (NMap Word)) (s : State) : Answer State :=
  if mailOk fn mb then .next (mailRun s fn mb 0x04 posts (actAttach fn mb)) else .refused .noSuchUnit

/-! ### Registers (R8, R9, R412, R413, R417, R422) -/

/-- SUPPLY_LATCH_CLEAR (R482): bits [3] trip and [4] power_loss are cleared by writing 1. -/
def execSupplyLatchClear (value : Word) (s : State) : Answer State :=
  .next { s with pw := { s.pw with trip := s.pw.trip && !value.getLsbD 3, powerLoss := s.pw.powerLoss && !value.getLsbD 4 } }

/-- A write to an MSI-X table entry: address low and high, data, and the mask bit; an unmasked entry sends what it held pending (R412, R422). -/
def msixWrite (s : State) (fn entry word : Nat) (value : Word) : State :=
  let f := fnOf s fn
  let x := mgetD f.msix entry freshMsix
  let v := value.toNat
  let put (x : MsixEntry) : State := putFn s fn { f with msix := mset f.msix entry x }
  if word = 0 then put { x with address := x.address / 2 ^ 32 * 2 ^ 32 + v }
  else if word = 1 then put { x with address := x.address % 2 ^ 32 + v * 2 ^ 32 }
  else if word = 2 then put { x with data := v }
  else
    let m := value.getLsbD 0
    if m = false ∧ x.waiting ∧ f.msixEnable ∧ f.msixMask = false then send (put { x with masked := false, waiting := false }) (.interrupt fn entry)
    else put { x with masked := m }

/-- Bytes of a function's BAR (R412). -/
def barSize (fn bar : Nat) : Nat := if bar = 0 then (if fn = 0 then 2 ^ 26 else 2 ^ 20) else if bar = 2 then 4096 else 0

/-- A write to a register that has no row of its own (R8, R9): event_vector and event_int of the PF, the MSI-X table, staging words, mb_ctrl; every
other register is read-only, reserved or absent, and the write has no effect. -/
def doRegisterWrite (s : State) (fn bar offset : Nat) (value : Word) : State :=
  if fnReachable s fn = false ∨ bar ≠ 0 ∨ barSize fn bar ≤ offset then s
  else if offset = 0x024 then
    if fn = 0 then putFn s 0 { fnOf s 0 with eventVector := bitsOf value.toNat 10 0, eventInt := value.getLsbD 16 } else s
  else if 0x2000 ≤ offset ∧ offset < 0x2000 + 16 * vectorsOf fn ∧ offset % 4 = 0 then
    msixWrite s fn ((offset - 0x2000) / 16) (offset % 16 / 4) value
  else if 0x10000 ≤ offset ∧ offset % 4 = 0 ∧ mailOk fn ((offset - 0x10000) / 256) then
    let mb := (offset - 0x10000) / 256
    let o := offset % 256
    if 4 ≤ o ∧ o < 64 then mailWrite s fn mb [(o / 4, value)]
    else if o = 136 then putMail s fn mb { mailOf s fn mb with vector := bitsOf value.toNat 10 0, ackInt := value.getLsbD 16 }
    else s
  else s

/-! ### Resets of functions (R423 to R426) -/

/-- A request came from a function. -/
def fromFn (fn : Nat) (q : Request) : Bool :=
  match q.origin with
  | .ring f _ => decide (f = fn)
  | _ => false

/-- Take a request out, without a completion. -/
def dropReq (s : State) (rid : Nat) : State := { s with reqs := s.reqs.filter fun q => decide (q.rid ≠ rid) }

/-- A request in flight goes on without its function: the step completes, the request ends at its boundary, and nothing is posted; a CREATE is undone
there (R359, R425). -/
def cutRequest (q : Request) : Request :=
  { q with
    origin := .device
    undo := decide (q.opcode = 1)
    maxNew := if unconsumed q ≠ [] ∨ q.maxNew = 0 then 0 else q.produced + 1
    tokens := q.tokens.take (q.adopted + q.consumed) }

/-- End one accepted command of a function that is reset (R425). The flag counts a command dropped or undone. -/
def endFor (s : State) (q : Request) : State × Nat :=
  let i := handleIndex q.handle
  let named := decide (q.handle ≠ 0) && handleOk s q.pitch q.handle
  match q.state with
  | .queued => (dropReq s q.rid, 1)
  | .copying => (dropReq s q.rid, 1)
  | .ready =>
    let s1 := dropReq s q.rid
    if q.opcode = 1 ∧ named then (freeSeq s1 i, 1)
    else (onSeq s1 i fun e => if e.state = .running then { e with state := if q.clearedHold = 0 then .idle else .held, hold := q.clearedHold } else e, 1)
  | .inFlight =>
    if q.opcode = 5 then (abortPark s i rcIntegrityFail 0 true, 0)
    else (onReq s q.rid cutRequest, if q.opcode = 1 then 1 else 0)
  | .reading => (dropResume (dropReq s q.rid) q, 1)

/-- End the accepted commands of a function in order, counting those dropped or undone. -/
def endCommands : List Request → State → Nat → State × Nat
  | [], s, n => (s, n)
  | q :: t, s, n => let x := endFor s q; endCommands t x.1 (n + x.2)

/-- Parks to the memory of a function that is reset abort (R314, R425). -/
def abortParksTo (fn : Nat) : List Nat → State → State
  | [], s => s
  | i :: t, s =>
    let e := seqOf s i
    abortParksTo fn t (match e.park with
      | none => s
      | some k => if k.destKind = 1 ∧ k.space = fn then abortPark s i rcIntegrityFail 0 false else s)

/-- No import notice of a RESUME of the function is sent any more (R424, R425). -/
def dropNotices (s : State) (fn : Nat) : State :=
  { s with seqs := mmap s.seqs fun _ e => { e with importing := e.importing.map fun m =>
      match m.origin with
      | .ring f _ => if f = fn then { m with notice := false } else m
      | _ => m } }

/-- The sequence of a CREATE whose final completion a full ring still holds (R346). -/
def heldCreate (bs : List Byte) : Option Nat :=
  if leAt bs 6 1 = 1 ∧ bitOf (leAt bs 7 1) 2 = false then some (leAt bs 8 4) else none

/-- Such CREATEs are undone: the device frees their sequences at the next step boundary, by a FREE of its own (R425). -/
def undoCreates : List Nat → State → State × Nat
  | [], s => (s, 0)
  | h :: t, s =>
    let p := (seqOf s (handleIndex h)).pitch
    if handleOk s p h then
      let q := requestOf s.reqNext .device p ⟨8, 0, 0, h, 0, 0, 0, 0, 0, true⟩ ⟨[], [], [], []⟩
      let x := undoCreates t { s with reqNext := s.reqNext + 1, reqs := s.reqs ++ [q] }
      (x.1, x.2 + 1)
    else undoCreates t s

/-- Reset one function (R424, R425): stopped and purged, its accepted commands ended, FUNCTION_RESET written. -/
def resetFn (s : State) (fn : Nat) : State :=
  let held := ((fnOf s fn).comp.map fun k => k.2.held.filterMap fun x => heldCreate x.1).flatten
  let s1 := putFn s fn { Function.reset with resetting := true }
  let (s2, n) := endCommands (s1.reqs.filter (fromFn fn)) s1 0
  let (s3, m) := undoCreates held s2
  let s4 := dropNotices (abortParksTo fn (s3.seqs.map (·.1)) s3) fn
  writeEvent s4 (srcFn fn 0) 0x07 0x0D01 (fnPitch fn) (hostDetail fn 0xFF 0 (n + m) 0)

/-- Reset the functions of a list. -/
def resetFns : List Nat → State → State
  | [], s => s
  | fn :: t, s => resetFns t (resetFn s fn)

/-- VF Enable is cleared: every VF is reset and exists no more (R407, R423). -/
def vfsOff (s : State) : State :=
  let s1 := resetFns (vfs s) s
  { s1 with host := { s1.host with vfEnable := false } }

/-- NumVFs is changed, which resets every VF (R423); TotalVFs bounds it (R407). -/
def vfsCount (s : State) (n : Nat) : State :=
  let s1 := resetFns (vfs s) s
  { s1 with host := { s1.host with numVfs := min n 64 } }

/-- A reset of the PF, which also resets every VF, as SR-IOV requires, and VF Enable and NumVFs (R423). -/
def resetPf (s : State) : State :=
  let s1 := vfsOff (resetFn s 0)
  { s1 with host := { s1.host with numVfs := 0 } }

/-- The port trains at its one rate and width, or is refused (R408). -/
def hostTrain (s : State) (rate width : Nat) : State :=
  if rate = 64 ∧ width = 16 then { s with host := { s.host with up := true, refused := false } }
  else
    writeEvent { s with host := { s.host with up := false, refused := true } } (srcFn 0 0) 0x07 0x0D06 noPitch
      (hostDetail 0 0xFF (rate % 256 + 256 * (width % 256)) 0 0)

/-- Link IDE ends with the link (R407). -/
def ideOff (s : State) : State := { s with host := { s.host with ide := false } }

/-- FUNCTION_RESET (R423 to R425): `rate` and `width` are those at which the port trains again after a hot reset or a link-down. -/
def doFunctionReset (s : State) (kind : ResetKind) (rate width : Nat) : State :=
  match kind with
  | .functionLevel fn => if fn = 0 then resetPf s else if fnExists s fn then resetFn s fn else s
  | .vfDisable => vfsOff s
  | .numVfs n => vfsCount s n
  | .pf => resetPf s
  | .hotReset => hostTrain (ideOff (resetPf s)) rate width
  | .linkDown => hostTrain (ideOff (resetPf s)) rate width

/-- The function that a reset names. -/
def resetNames : ResetKind → Bool
  | .functionLevel fn => fnOk fn
  | _ => true

/-- FUNCTION_RESET. -/
def execFunctionReset (kind : ResetKind) (rate width : Nat) (s : State) : Answer State :=
  if resetNames kind then
    if s.host.up then .next (doFunctionReset s kind rate width) else .next s
  else .refused .noSuchUnit

/-- FUNCTION_RESET_DONE (R424, phase 4): the function answers as reset. -/
def execFunctionResetDone (fn : Nat) (s : State) : Answer State :=
  if fnOk fn then .next (putFn s fn { mgetD s.host.fns fn Function.reset with resetting := false }) else .refused .noSuchUnit

/-! ### The configuration space (R407, R422, R423; its offsets: DESIGN CHOICE: notes/assumptions/8.md) -/

/-- The number that names a function's configuration space in place of a BAR. -/
def configSpace : Nat := 7

/-- Send the pending interrupts that are masked no more (R422). -/
def sendPending (fn : Nat) : List Nat → State → State
  | [], s => s
  | v :: t, s =>
    let f := fnOf s fn
    let x := mgetD f.msix v freshMsix
    sendPending fn t (if x.waiting ∧ x.masked = false ∧ f.msixEnable ∧ f.msixMask = false then
        send (putFn s fn { f with msix := mset f.msix v { x with waiting := false } }) (.interrupt fn v)
      else s)

/-- A write to the configuration space: MSI-X Enable and Function Mask, and on the PF the AER status, VF Enable, NumVFs and Link IDE enable; every other
byte is read-only or absent. -/
def doConfigWrite (s : State) (fn offset : Nat) (value : Word) : State :=
  if s.host.up = false ∨ fnExists s fn = false then s
  else if offset = 0x40 then
    sendPending fn (List.range (vectorsOf fn)) (putFn s fn { fnOf s fn with msixEnable := value.getLsbD 31, msixMask := value.getLsbD 30 })
  else if fn ≠ 0 then s
  else if offset = 0x104 then { s with host := { s.host with aer := s.host.aer &&& ~~~value } }
  else if offset = 0x168 then
    (if value.getLsbD 0 then { s with host := { s.host with vfEnable := true } } else if s.host.vfEnable then vfsOff s else s)
  else if offset = 0x170 then (if min (bitsOf value.toNat 15 0) 64 = s.host.numVfs then s else vfsCount s (bitsOf value.toNat 15 0))
  else if offset = 0x20C then { s with host := { s.host with ide := value.getLsbD 0 } }
  else s

/-- REGISTER_WRITE. -/
def execRegisterWrite (fn bar offset : Nat) (value : Word) (s : State) : Answer State :=
  if fnOk fn then .next (if bar = configSpace then doConfigWrite s fn offset value else doRegisterWrite s fn bar offset value)
  else .refused .noSuchUnit

end Sys2Proof.Machine
end

