-- ==== Sys2Proof/Machine/Startup.lean ====
section
/-! DEFINITION. A start (R18, R94, R245, R246, R255, R385, R405, R408, R429 to R439, R459, R465, R470, R479): from VAUX good to ready. -/

namespace Sys2Proof.Machine

/-! ### Events (R448, R484) -/

/-- Detail bytes of the events of R448. -/
def bootDetail (release slot target result peer group : Nat) : List Byte :=
  leBytes 4 release ++ leBytes 1 slot ++ leBytes 1 target ++ leBytes 2 result ++ leBytes 2 peer ++ leBytes 2 group ++ leBytes 4 0

/-- Detail bytes of the events of R484; the temperature is signed. -/
def powerDetail (unit point : Nat) (temperature : Int) (voltage power : Nat) : List Byte :=
  leBytes 1 unit ++ leBytes 1 point ++ leBytes 2 (unsignedOf 16 temperature) ++ leBytes 2 voltage ++ leBytes 2 0 ++ leBytes 4 power ++ leBytes 4 0

/-- The unit, point or slot field when there is none. -/
def noUnit : Nat := 0xFF

/-! ### Boot headers and images (R429, R430, R439) -/

/-- The 32 bytes of a boot header copy (R429). -/
def bootHeaderBytes (h : BootHeader) : List Byte :=
  let b := ascii "VZBH" ++ leBytes 4 h.generation ++ leBytes 1 h.active ++ leBytes 1 (h.trial.getD 0xFF) ++ leBytes 1 h.trialStarts ++ leBytes 1 0
    ++ leBytes 4 h.windowS ++ leBytes 12 0
  b ++ leBytes 4 (crc32c b)

/-- The fields of a boot header copy that is valid: its magic, its reserved bytes and its CRC-32C (R429; notes/assumptions/33.md). -/
def bootHeaderOf (bs : List Byte) : Option BootHeader :=
  if bs.length = 32 ∧ bs.take 4 = ascii "VZBH" ∧ zerosAt bs 11 1 ∧ zerosAt bs 16 12 ∧ leAt bs 28 4 = crc32c (bs.take 28) then
    some ⟨leAt bs 4 4, leAt bs 8 1, if leAt bs 9 1 = 0xFF then none else some (leAt bs 9 1), leAt bs 10 1, leAt bs 12 4⟩
  else none

/-- The boot header in force: of the valid copies the one with the higher generation; none is valid on a blank device (DESIGN CHOICE: notes/assumptions/33.md). -/
def headerOf (n : Nvm) : BootHeader :=
  match bootHeaderOf n.header0, bootHeaderOf n.header1 with
  | some a, some b => if a.generation < b.generation then b else a
  | some a, none => a
  | none, some b => b
  | none, none => ⟨0, 0, none, 0, 60⟩

/-- The copy in force is the first one. -/
def firstInForce (n : Nvm) : Bool :=
  match bootHeaderOf n.header0, bootHeaderOf n.header1 with
  | some a, some b => decide (b.generation ≤ a.generation)
  | some _, none => true
  | _, _ => false

/-- Write a new copy of the boot header into the other sector, with the next generation (R429). -/
def writeHeader (n : Nvm) (h : BootHeader) : Nvm :=
  let b := bootHeaderBytes { h with generation := (headerOf n).generation + 1 }
  if firstInForce n then { n with header1 := b } else { n with header0 := b }

/-- A firmware slot. -/
def fwSlot (n : Nvm) (slot : Nat) : List Byte := if slot = 0 then n.fwA else n.fwB
/-- A configuration slot. -/
def cfgSlot (n : Nvm) (slot : Nat) : List Byte := if slot = 0 then n.cfgA else n.cfgB

/-- A firmware header is well formed, and its length lies within the slot (R430). -/
def fwHeaderOk (bs : List Byte) : Bool :=
  decide (bs.take 4 = ascii "VZFW") && decide (leAt bs 4 2 = 1) && zerosAt bs 14 2 && zerosAt bs 24 40
    && decide (64 + signatureBytes ≤ leAt bs 16 8 ∧ leAt bs 16 8 ≤ 2 ^ 26)

/-- The image in a firmware slot verifies (R435 phase 2, R439): its header, both signatures, and check 7 of R443 (notes/assumptions/33.md). -/
def slotVerifies (n : Nvm) (f : BootFindings) (slot : Nat) : Bool :=
  fwHeaderOk (fwSlot n slot) && (if slot = 0 then f.fwSigA else f.fwSigB) && decide (leAt (fwSlot n slot) 6 2 = 1)
    && decide (n.fuses.minRelease ≤ leAt (fwSlot n slot) 8 4)

/-- What phase 2 chooses (R439): the slot, if any verifies, whether it is on trial, the NOR with its boot header, and whether a trial was given up. -/
structure SlotChoice where
  slot : Option Nat
  onTrial : Bool
  nvm : Nvm
  rolledBack : Bool
  active : Nat

/-- The choice of a firmware slot (R439). -/
def chooseSlot (n : Nvm) (f : BootFindings) : SlotChoice :=
  let h := headerOf n
  let active (n : Nvm) (back : Bool) : SlotChoice := ⟨if slotVerifies n f h.active then some h.active else none, false, n, back, h.active⟩
  match h.trial with
  | none => active n false
  | some t =>
    if h.trialStarts = 0 ∧ slotVerifies n f t then ⟨some t, true, writeHeader n { h with trialStarts := 1 }, false, h.active⟩
    else active (writeHeader n { h with trial := none }) true

/-! ### The configuration slot (R434) -/

/-- A configuration slot qualifies: the module is enrolled, the signatures verify, and the format is that of the firmware (R431, R434). -/
def slotQualifies (n : Nvm) (f : BootFindings) (format slot : Nat) : Bool :=
  n.fuses.ownerHash.isSome && (if slot = 0 then f.cfgSigA else f.cfgSigB) && imageReadable (cfgSlot n slot) format

/-- The configuration slot of a start: of those that qualify the one with the higher generation (R434). -/
def chooseConfig (n : Nvm) (f : BootFindings) (format : Nat) : Option Nat :=
  let a := slotQualifies n f format 0
  let b := slotQualifies n f format 1
  if a && b then some (if leAt n.cfgA 8 8 < leAt n.cfgB 8 8 then 1 else 0)
  else if a then some 0 else if b then some 1 else none

/-- Refuse the configuration with CONFIG_REFUSED (R432, R436, R470). -/
def refuseConfig (s : State) : State :=
  let s1 := { s with boot := { s.boot with configRefused := true } }
  rangerEvent s1 0x0B 0x0B02 noPitch (bootDetail 0 (s.boot.cfgSlot.getD noUnit) 1 0 0 0)

/-! ### What survives a removal of the rails (R316, R453, R467, R477) -/

/-- The ring positions whose sector has a valid header, with that sector (R461, R463). -/
def ringSectors (n : Nvm) : List (Nat × RingSector) :=
  (List.range 128).filterMap fun k => ((mget n.sectors (sectorOf n k)).filter fun x => headerValid x && decide (sectorIndex x = k)).map fun x => (k, x)

/-- The ring position whose sector has the valid header of highest sequence (R462). -/
def newestSector (n : Nvm) : Nat :=
  ((ringSectors n).foldl (fun (m : Nat × Nat) x => if m.2 < sectorSeq x.2 + 1 then (x.1, sectorSeq x.2 + 1) else m) (0, 0)).1

/-- The module without its rails: NOR, fuses, the supply controller's latches, the straps that it has read and the readings of its sensors and monitors
stay (R465, R479, R482), everything else is at its reset value. -/
def railsOff (s : State) : State :=
  { State.reset with
    pending := s.pending
    out := s.out
    freeCtr := s.freeCtr
    nvm := { s.nvm with head := newestSector s.nvm }
    boot := { Boot.reset with straps := s.boot.straps }
    pw := { Power.reset with vaux := s.pw.vaux, mainGood := s.pw.mainGood, backupGood := s.pw.backupGood
                             trip := s.pw.trip, tripDie := s.pw.tripDie, powerLoss := s.pw.powerLoss, inlet := s.pw.inlet
                             dies := s.pw.dies.map fun d => { Die.reset with junction := d.junction } } }

/-- THERMAL_TRIP and POWER_LOSS of the latches, which are then cleared (R467, R476, R482). -/
def reportLatches (s : State) : State :=
  let s1 := if s.pw.trip then
      rangerEvent { s with pw := { s.pw with trip := false, tripDie := none } } 0x09 0x0F13 noPitch (powerDetail (s.pw.tripDie.getD noUnit) noUnit 0 0 0)
    else s
  if s1.pw.powerLoss then
    rangerEvent { s1 with pw := { s1.pw with powerLoss := false } } 0x08 0x0F05 noPitch (powerDetail noUnit noUnit 0 0 0)
  else s1

/-- The identity that TCG DICE derives from the unique secret and the measurement of the running firmware (R446; the numbers of the algorithms:
PRESUMED: notes/assumptions/41.md). -/
def identityOf (secret : List Byte) (measurement : Nat) : Identity :=
  let key (n : Nat) (m : List Byte) : KeyPair := let x := Config.diceKey secret n m; ⟨x.1, x.2⟩
  let m := beBytes 48 measurement
  let d := key 0 []
  let dq := key 1 []
  let a := key 2 []
  let k := key 3 []
  let l := key 4 m
  let lq := key 5 m
  ⟨d, dq, a, k, l, lq, Config.certificate d.secretPart (a.publicPart ++ k.publicPart), Config.certificate d.secretPart l.publicPart,
    Config.certificate dq.secretPart lq.publicPart⟩

/-- Phase 3 of a start: the configuration slot is chosen, or the configuration is refused; where its signature verified, the management session is kept
(R437). -/
def takeConfig (s : State) (f : BootFindings) : State :=
  let fmt := s.boot.configFormat
  match chooseConfig s.nvm f fmt with
  | none => refuseConfig s
  | some k =>
    let bs := cfgSlot s.nvm k
    let s1 := { s with boot := { s.boot with cfgSlot := some k, cfgSigOk := true } }
    let d := s.boot.identity.getD (identityOf s.nvm.fuses.uniqueSecret 0)
    if directoryOk bs then { s1 with cfg := some (configurationOf d bs) }
    else refuseConfig { s1 with cfg := some (managementOnly d bs) }

/-- The active firmware image (R430). -/
def activeImage (s : State) : List Byte := (fwSlot s.nvm s.boot.slot).take (leAt (fwSlot s.nvm s.boot.slot) 16 8)

/-- SHA-384 of the active firmware image (R437, R447). -/
def firmwareDigest (s : State) : Nat := Config.sha384 (activeImage s)

/-- Phases 1 to 3 of a start whose Ranger rails are up (R435): the boot ROM's checks, the firmware slot, the identity and the configuration. It stands in
phase 1 where a check fails, in 13 where no firmware slot verifies (R439), and otherwise waits in phase 4 for VDD_CORE. -/
def bootOn (s1 : State) (f : BootFindings) : State :=
  if f.pairsAgree = false ∨ f.xspiUp = false then s1
  else
    let c := chooseSlot s1.nvm f
    let s0 := { s1 with nvm := c.nvm }
    let s2 := if c.rolledBack then rangerEvent s0 0x0B 0x0B07 noPitch (bootDetail (leAt (fwSlot c.nvm c.active) 8 4) c.active 0 0 0 0) else s0
    match c.slot with
    | none => { s2 with boot := { s2.boot with phase := 13 } }
    | some k =>
      let bs := fwSlot c.nvm k
      let s3 := { s2 with boot := { s2.boot with phase := 4, slot := k, onTrial := c.onTrial, release := leAt bs 8 4, configFormat := leAt bs 12 2 } }
      let s4 := { s3 with boot := { s3.boot with identity := some (identityOf s3.nvm.fuses.uniqueSecret (firmwareDigest s3)) } }
      let s5 := if c.onTrial then rangerEvent s4 0x0B 0x0B05 noPitch (bootDetail (leAt bs 8 4) k 0 0 0 0) else s4
      takeConfig (reportLatches s5) f

/-- The 54 V inputs bring up the Ranger and PHY rails in phase 1, once one of them is in range (R465); a start on VIN_BACKUP runs on backup from then on
(R474). -/
def raiseRails (s : State) (f : BootFindings) : State :=
  if s.pw.mainGood || s.pw.backupGood then
    let back := !s.pw.mainGood
    bootOn { s with pw := { s.pw with rails := true, onBackup := back, backupSince := if back then some s.cairn.count else none } } f
  else s

/-- A start from phase 1 (R435, R465): without an input in range it waits there for one. -/
def startUp (s : State) (f : BootFindings) : State :=
  let s0 := railsOff s
  let n := f.nor.getD s0.nvm
  raiseRails { s0 with
    nvm := { n with head := newestSector n }
    pw := { s0.pw with vaux := true, mainGood := f.mainGood, backupGood := f.backupGood }
    boot := { s0.boot with phase := 1 } } f

/-- An input has come into range while a start waits for one in phase 1 (R465). -/
def startWaits (s : State) : Bool := s.pw.vaux && decide (s.boot.phase = 1) && !s.pw.rails

/-- VAUX_GOOD (R435, R465, R479): the straps are read, and a start begins. -/
def execVauxGood (f : BootFindings) (s : State) : Answer State := .next (startUp { s with boot := { s.boot with straps := f.straps } } f)

/-- MOD_RESET (R479): held low for 1 ms or more, every rail except VAUX is removed and a start begins on release; a shorter pulse does nothing, and so
does one without VAUX, on which a start depends (R465). -/
def execModReset (lowUs : Nat) (f : BootFindings) (s : State) : Answer State :=
  if 1000 ≤ lowUs ∧ s.pw.vaux then .next (startUp s f) else .next s

/-- VDD_CORE_GOOD (R21, R435 phases 4 and 5): VDD_CORE is good on every die, and the subordinate processors are loaded from the active firmware
image. -/
def execVddCoreGood (s : State) : Answer State :=
  if s.boot.phase = 4 then .next { s with boot := { s.boot with phase := 6, subFirmware := some (activeImage s) } } else .next s

/-! ### Phase 6: arrays and the camp map (R17, R18, R94, R459; the numbers of physical camps: DESIGN CHOICE: notes/assumptions/34.md) -/

/-- The camp map while it is built: physical camps of moved logical ones, physical camps out of use, and fenced logical camps. -/
structure CampMap where
  map : NMap Nat
  retired : List Nat
  fenced : List Nat
  deriving DecidableEq, Repr

/-- Spare k of a die is physical camp 20,000 + 60 × die + k; a logical camp's own physical camp has its number. -/
def spareCamp (die k : Nat) : Nat := 20000 + Config.spareCampsPerDie * die + k

/-- The physical camp of a logical one. -/
def physOf (m : CampMap) (c : Nat) : Nat := mgetD m.map c c

/-- The first spare camp of a die that is in use by no logical camp and not retired. -/
def freeSpare (m : CampMap) (die : Nat) : Option Nat :=
  ((List.range Config.spareCampsPerDie).map (spareCamp die)).find? fun p =>
    decide (p ∉ m.retired) && !(m.map.any fun e => decide (e.2 = p))

/-- Retire the physical camp of a logical camp: a spare camp of its die takes the logical position, or it is fenced (R18). -/
def retireCamp (m : CampMap) (c : Nat) : CampMap :=
  let m1 := { m with retired := m.retired ++ [physOf m c] }
  match freeSpare m1 (sliceOf c) with
  | some p => { m1 with map := mset m1.map c p }
  | none => { m1 with fenced := m1.fenced ++ [c] }

/-- Retirements made at manufacture (R459): spare camps are only out of use. -/
def fusedMap (retired : List Nat) : CampMap :=
  (retired.filter fun p => decide (p < Config.camps)).foldl retireCamp ⟨[], retired.filter fun p => decide (Config.camps ≤ p), []⟩

/-- The physical camps that the fuses take out of use: retired ones, and those of a retired core, since a camp serves with all its cores (R15, R457, R459;
DEDUCED: notes/assumptions/34.md). -/
def fusedCamps (f : Fuses) : List Nat := (f.retiredCamps ++ f.retiredCores.map (·.1)).eraseDups

/-- The records of the critical-event ring, oldest sector first; sectors without a valid header are not read (R461 to R463). -/
def ringRecords (n : Nvm) : List EventRec :=
  ((sortBy (fun a b => decide (sectorSeq a ≤ sectorSeq b)) ((ringSectors n).map (·.2))).map (·.records)).flatten

/-- Replay the records of repairs in order: CAMP_FENCED moves a logical camp, LANE_RETIRED names a lane of the camp that was there (R94, R459). -/
def replayRepairs : List EventRec → CampMap → List LaneLoss → CampMap × List LaneLoss
  | [], m, ls => (m, ls)
  | e :: t, m, ls =>
    if e.cls = 0x01 ∧ e.code = 0x0E01 then replayRepairs t (retireCamp m (leAt e.detail 0 2)) ls
    else if e.cls = 0x01 ∧ e.code = 0x0002 then
      let core := leAt e.detail 0 4
      replayRepairs t m (ls ++ [⟨physOf m (core / 16), core % 16, leAt e.detail 4 1⟩])
    else replayRepairs t m ls

/-- Retire again the lanes of the physical camps that logical camps now have (R94). -/
def reapplyLanes (m : CampMap) : List LaneLoss → State → State
  | [], s => s
  | l :: t, s =>
    reapplyLanes m t (match (List.range Config.camps).find? fun c => decide (physOf m c = l.phys) && decide (c ∉ m.fenced) with
      | none => s
      | some c => onCore s c l.core fun k => retireLane k l.lane)

/-- Fence the logical camps of a list. -/
def fenceAll : List Nat → State → State
  | [], s => s
  | c :: t, s => fenceAll t (putCamp s c { campOf s c with fenced := true })

/-- Phase 9 can begin: arrays, memory and links are done. -/
def reachCheck (s : State) : State :=
  if s.boot.phase = 6 ∧ s.boot.arraysDone ∧ s.boot.hbmDone ∧ s.boot.linksDone then { s with boot := { s.boot with phase := 9 } } else s

/-- Retire the physical camps that fail their test at this start. Each is recorded by CAMP_FENCED under the logical camp that it stood for, so that
later starts replay it in its place among the repairs (R18, R459; DEDUCED: notes/assumptions/34.md). -/
def failCamps : List Nat → State × CampMap → State × CampMap
  | [], x => x
  | c :: t, (s, m) =>
    failCamps t (if m.fenced.contains c then (s, m)
      else (rangerEvent s 0x01 0x0E01 noPitch (wearDetail c noCore 0 0 0 0), retireCamp m c))

/-- ARRAYS_TESTED (R18, R94, R435 phase 6, R459): `failedCamps` are the logical camps whose physical camp fails its test at this start. -/
def doArraysTested (s : State) (failedCamps : List Nat) : State :=
  let (m, lanes) := replayRepairs (ringRecords s.nvm) (fusedMap (fusedCamps s.nvm.fuses)) s.nvm.fuses.retiredLanes
  let (s0, m1) := failCamps failedCamps (s, m)
  let s1 := { s0 with boot := { s0.boot with campMap := m1.map, retiredPhys := m1.retired, fencedLogical := m1.fenced, arraysDone := true } }
  reachCheck (fenceAll m1.fenced (reapplyLanes m1 lanes s1))

/-- ARRAYS_TESTED. -/
def execArraysTested (failedCamps : List Nat) (s : State) : Answer State :=
  if failedCamps.all campOk then
    if s.boot.phase = 6 ∧ s.boot.arraysDone = false then .next (doArraysTested s failedCamps) else .next s
  else .refused .noSuchUnit

/-! ### Phase 7: HBM (R245, R246) -/

/-- A channel is retired: its stack failed, it has more failed lanes than spares, or a word is uncorrectable (R246 phases 2, 4 and 5). -/
def channelLost (k : StackReport) (c : ChannelReport) : Bool := !k.identified || decide (c.spareLanes < c.failedLanes) || c.uncorrectable

/-- The pseudo-channels that training retires, in ascending order; a stack or channel without a report has failed. -/
def retiredChannels (reports : List StackReport) : List Nat :=
  (List.range 1024).filter fun p =>
    match reports[p / 64]? with
    | none => true
    | some k =>
      match k.channels[p % 64 / 2]? with
      | none => true
      | some c => channelLost k c

/-- HBM_CHANNEL_RETIRED for each pseudo-channel (R246 phase 6, R262). -/
def channelRecords : List Nat → State → State
  | [], s => s
  | p :: t, s => channelRecords t (rangerEvent s 0x05 0x0703 noPitch (memDetail 0 2 (p / 64) (p % 64) noPosition 0))

/-- HBM_TRAINING_DONE (R245, R246): N and the map are fixed. -/
def execHbmTrainingDone (reports : List StackReport) (s : State) : Answer State :=
  if s.boot.phase = 6 ∧ s.boot.hbmDone = false then
    let lost := retiredChannels reports
    let s1 := { s with mem := { s.mem with n := 1024 - lost.length, retired := lost }, boot := { s.boot with hbmDone := true } }
    .next (reachCheck (channelRecords lost s1))
  else .next s

/-! ### Phase 8: links (R255, R385, R408) -/

/-- A port is refused (R255). -/
def portRefused (d : PortDecl) (x : PortReport) : Bool :=
  if d.present then
    !x.present || !x.type3 || decide (x.capacity ≠ d.capacity) || decide (x.width < 16) || decide (x.rate < 64) || (d.ide && !x.ideStarted)
  else x.present

/-- The state of each capacity port after training, with the record of a refusal (R255, R262). -/
def trainPorts (c : Configuration) : List (PortReport × Nat) → State → State
  | [], s => s
  | (x, q) :: t, s =>
    let d := c.ports.getD q ⟨q, false, false, 0⟩
    let put (p : CapPort) (s : State) : State := { s with mem := { s.mem with ports := lset s.mem.ports q p } }
    if portRefused d x then
      trainPorts c t (rangerEvent (put { CapPort.reset with state := .refused } s) 0x05 0x0704 noPitch (memDetail 0 3 q 0 noPosition 0))
    else if d.present then trainPorts c t (put { CapPort.reset with state := .up, capacity := d.capacity } s)
    else trainPorts c t (put CapPort.reset s)

/-- The state of each fabric link after training: a link of no port is powered down (R382, R384). -/
def trainLinks (c : Configuration) (links : List Bool) : List Link :=
  (List.range 24).map fun k =>
    let used := (c.links[k]?).any fun e => decide (e.port ≠ 0xFF)
    if used && links.getD k false then { Link.reset with state := .trained } else Link.reset

/-- Detail bytes of the events of R406. -/
def fabricDetail (link port peer transfer value attempt : Nat) : List Byte :=
  leBytes 1 link ++ leBytes 1 port ++ leBytes 2 peer ++ leBytes 4 transfer ++ leBytes 4 value ++ leBytes 1 attempt ++ leBytes 3 0

/-- The identity frame of this end of a link (R385). -/
def sendIdentity (s : State) (l : Nat) : State := send s (.identity l (deviceId s) l)

/-- The identity frames of the links of a list that have trained. -/
def sendIdentities : List Nat → State → State
  | [], s => s
  | l :: t, s => sendIdentities t (if (linkAt s l).any fun k => decide (k.state = .trained) then sendIdentity s l else s)

/-- ETH_LINK for each Ethernet port of a list whose link has come up (R406). -/
def ethUpRecords : List Nat → State → State
  | [], s => s
  | p :: t, s =>
    ethUpRecords t (if s.eth.up.getD p false then rangerEvent s 0x06 0x0C09 noPitch (fabricDetail p 0xFF 0 0 (s.eth.up.filter id).length 0) else s)

/-- LINKS_TRAINED (R435 phase 8): fabric links, capacity ports, Ethernet ports and the host port have trained or failed. Without a readable
configuration only the host port is used, for the update messages, and with one whose signature alone is good the Ethernet ports of its management
session too (R437; DESIGN CHOICE: notes/assumptions/35.md). -/
def doLinksTrained (s : State) (links : List Bool) (ports : List PortReport) (eth : List Bool) (hostRate hostWidth : Nat) : State :=
  let s0 := { s with boot := { s.boot with linksDone := true } }
  match s0.cfg with
  | none => reachCheck (hostTrain s0 hostRate hostWidth)
  | some c =>
    let s1 := if s0.boot.configRefused then s0
      else trainPorts c (ports.zipIdx.take 8) { s0 with fab := { s0.fab with links := trainLinks c links } }
    let up := (List.range 2).map fun k => eth.getD k false && (c.eth[k]?).any (·.inUse)
    let s2 := sendIdentities (List.range 24) (ethUpRecords (List.range 2) { s1 with eth := { s1.eth with up := up } })
    reachCheck (if c.hostPort then hostTrain s2 hostRate hostWidth else s2)

/-- LINKS_TRAINED. -/
def execLinksTrained (links : List Bool) (ports : List PortReport) (eth : List Bool) (hostRate hostWidth : Nat) (s : State) : Answer State :=
  if s.boot.phase = 6 ∧ s.boot.linksDone = false then .next (doLinksTrained s links ports eth hostRate hostWidth) else .next s

/-- A link event, with the number of working links of its port (R406). -/
def linkEvent (s : State) (l code peer attempt : Nat) : State :=
  let port := ((linkEntry s l).map (·.port)).getD 0xFF
  rangerEvent s 0x06 code noPitch (fabricDetail l port peer 0 (workingLinks s port).length attempt)

/-- LINK_IDENTITY (R385): the neighbour's identity frame accepts or refuses a trained link. -/
def doLinkIdentity (s : State) (l device peerLink : Nat) : State :=
  match linkAt s l, linkEntry s l with
  | some k, some e =>
    if k.state ≠ .trained then s
    else if e.peerDevice = device ∧ e.peerLink = peerLink then linkEvent (putLink s l { k with state := .up }) l 0x0C03 device 0
    else linkEvent (putLink s l { k with state := .refused }) l 0x0C01 device 0
  | _, _ => s

/-- LINK_IDENTITY. -/
def execLinkIdentity (link device peerLink : Nat) (s : State) : Answer State :=
  if linkOk link then .next (doLinkIdentity s link device peerLink) else .refused .noSuchUnit

/-! ### Phases 9 and 10: the check and the clear (R373, R389, R436, R470) -/

/-- A configured fabric port has no accepted link (R389, R436). -/
def portWithoutLink (s : State) (c : Configuration) : Bool :=
  c.links.any fun e => decide (e.port ≠ 0xFF) && decide (workingLinks s e.port = [])

/-- The inlet range of a coolant class in °C, and its highest point (R469). -/
def coolantRange (cls : Nat) : Nat × Nat × Nat := if cls = 1 then (17, 25, 4) else if cls = 2 then (17, 32, 3) else (17, 40, 2)

/-- Peak prefill input power at an operating point, in 10 W units (R472). -/
def peakPower (point : Nat) : Nat := [290, 350, 430, 520, 610].getD point 610

/-- The power section may be used (R470, first two cases). -/
def powerOk (p : PowerSection) : Bool :=
  p.reservedZero && decide (p.sealedPoint ≤ (coolantRange p.coolant).2.2) && decide (peakPower p.sealedPoint ≤ p.limit)

/-- The voltage lies in the operating range, in mV (R465). -/
def inRange54 (mv : Nat) : Bool := decide (44000 ≤ mv ∧ mv ≤ 59500)

/-- The rules of R470 and R389: records of the inputs, and whether the configuration is refused. -/
def powerChecks (s : State) (c : Configuration) (inlet backupMv : Nat) : State × Bool :=
  let badBackup := c.power.backupFitted && !inRange54 backupMv
  let hotInlet := decide ((coolantRange c.power.coolant).2.1 < inlet)
  let s1 := if badBackup then rangerEvent s 0x08 0x0F03 noPitch (powerDetail 1 noUnit 0 (backupMv / 10) s.pw.power) else s
  let s2 := if hotInlet then rangerEvent s1 0x09 0x0F14 noPitch (powerDetail noUnit noUnit (16 * inlet) 0 s.pw.power) else s1
  (s2, !powerOk c.power || badBackup || hotInlet || portWithoutLink s c)

/-- Write PITCH_CHECK (R373). -/
def pitchCheckEvent (s : State) (x : CheckFailure) : State :=
  rangerEvent s 0x0B 0x0B01 noPitch (leBytes 1 x.check ++ leBytes 1 x.pitch ++ leBytes 1 x.other ++ leBytes 13 0)

/-- PORT_DOWN for each configured port without an accepted link (R389, R406). -/
def portDownRecords (c : Configuration) : List Nat → State → State
  | [], s => s
  | p :: t, s =>
    let mine := c.links.find? fun e => decide (e.port = p)
    portDownRecords c t (match mine with
      | none => s
      | some e =>
        if workingLinks s p = [] then rangerEvent s 0x06 0x0C04 noPitch (fabricDetail 0xFF p e.peerDevice 0 0 0) else s)

/-- Run-time state of each pitch of the configuration before its package is loaded. -/
def openPitches (c : Configuration) : NMap Pitch := c.pitches.foldl (fun m r => mset m r.pitch Pitch.fresh) []

/-- The sealed operating point, or 0 (R378, R473). -/
def startPoint (c : Configuration) : Nat := if c.pitches.any (·.sealed) then c.power.sealedPoint else 0

/-- Phase 9 (R373, R436, R437, R470): a refused module stops there (14), another goes on to clear its expanders. -/
def doConfigCheck (s : State) (inlet backupMv : Nat) : State :=
  let s0 := { s with pw := { s.pw with inlet := inlet } }
  let stop (s : State) : State := { s with boot := { s.boot with phase := 14 } }
  match s0.cfg with
  | none => stop s0
  | some c =>
    if s0.boot.configRefused then stop s0 else
    let (s1, bad) := powerChecks (portDownRecords c (List.range 24) s0) c inlet backupMv
    let fail := checkConfiguration s1 c
    let s2 := match fail with
      | none => s1
      | some x => pitchCheckEvent { s1 with boot := { s1.boot with configRefused := true } } x
    if bad then stop (refuseConfig s2)
    else if fail.isSome then stop s2
    else
      { s2 with
        boot := { s2.boot with phase := 10 }
        pitches := openPitches c
        pw := { s2.pw with dies := s2.pw.dies.map fun d => { d with point := startPoint c } } }

/-- CONFIG_CHECK. -/
def execConfigCheck (inlet backupMv : Nat) (s : State) : Answer State :=
  if s.boot.phase = 9 then .next (doConfigCheck s inlet backupMv) else .next s

/-- CAPACITY_CLEAR_DONE (R254, R435 phase 10). -/
def execCapacityClearDone (s : State) : Answer State :=
  if s.boot.phase = 10 then
    .next { s with
      boot := { s.boot with phase := 11, clearDone := true }
      mem := { s.mem with ports := s.mem.ports.map fun p => { p with cleared := decide (p.state = .up) } } }
  else .next s

/-! ### Phase 11: the join (R403, R437, R438) -/

/-- The members of a group other than this module. -/
def otherMembers (r : PitchRecord) : List Nat := (r.group.members.zipIdx.filter fun m => decide (m.2 ≠ r.group.groupPosition)).map (·.1)

/-- The answer of a member. -/
def answerOf (l : List MemberAnswer) (device : Nat) : Option MemberAnswer := l.find? fun a => decide (a.device = device)

/-- The first member, in group order, that has not answered or whose digest differs (R437; DESIGN CHOICE: notes/assumptions/36.md). -/
def mismatchOf (s : State) (r : PitchRecord) (l : List MemberAnswer) : Option Nat :=
  (otherMembers r).find? fun d => match answerOf l d with
    | none => true
    | some a => decide (a.digest ≠ some (firmwareDigest s))

/-- Send this module's firmware digest to members of a pitch's group over the fabric management channel (R437, R438; DESIGN CHOICE of the message:
notes/assumptions/36.md). -/
def sendDigest (r : PitchRecord) : List Nat → State → State
  | [], s => s
  | d :: t, s => sendDigest r t (sendPeer s r d (leBytes 4 r.pitch ++ beBytes 48 (firmwareDigest s) ++ leBytes 1 (if s.boot.ready then 1 else 0)))

/-- The digests of every enabled pitch go to the other members of its group. -/
def sendDigests : List PitchRecord → State → State
  | [], s => s
  | r :: t, s => sendDigests t (if r.enabled then sendDigest r (otherMembers r) s else s)

/-- A member on which the group is disabled: this module joins it at the time that the lead names (R438). -/
def joinsLate (l : List MemberAnswer) : Bool := l.any (·.disabled)

/-- Compare digests for each enabled pitch: its group works, or stays disabled with GROUP_MISMATCH (R437); where the digests are equal and the group
waits on another member, the module joins it with the others (R438). -/
def joinPitches (answers : NMap (List MemberAnswer)) : List PitchRecord → State → State
  | [], s => s
  | r :: t, s =>
    joinPitches answers t
      (if r.enabled then
        match mismatchOf s r (mgetD answers r.pitch []) with
        | none => onPitch s r.pitch fun x => { x with enabled := true, groupDisabled := joinsLate (mgetD answers r.pitch []) }
        | some d =>
          rangerEvent (onPitch s r.pitch fun x => { x with enabled := true, groupDisabled := true }) 0x0B 0x0B09 r.pitch
            (bootDetail s.boot.release s.boot.slot 0 0 d r.group.pitchGroup)
      else s)

/-- The links that may serve time, working and ranked. -/
def timeLinks (s : State) : List (Nat × LinkEntry) :=
  (List.range 24).filterMap fun l =>
    match linkAt s l, linkEntry s l with
    | some k, some e => if k.state = .up ∧ e.timeRank ≠ 0 then some (l, e) else none
    | _, _ => none

/-- The root has looked for a locked neighbour: it has taken one's count, or has asked on each of its time links (R405). -/
def rootLooked (s : State) : Bool := s.cairn.tookNeighbour || (timeLinks s).all fun x => decide (x.1 ∈ s.cairn.asked)

/-- The module's count is settled: it is locked, or it is the time root, has looked for a locked neighbour and, where it uses PPS, has stepped at the
first edge (R403, R405). -/
def timeSettled (s : State) (c : Configuration) : Bool :=
  s.cairn.locked || (decide (c.deviceId = c.timeRoot) && rootLooked s && (!c.ppsUsed || s.cairn.steppedPps))

/-- GROUP_JOIN (R435 phase 11, R437): digests are compared, and the module becomes ready once Cairn is locked. -/
def execGroupJoin (now : Nat) (answers : NMap (List MemberAnswer)) (s : State) : Answer State :=
  match s.cfg with
  | none => .next s
  | some c =>
    if s.boot.phase = 11 ∧ timeSettled s c then
      let s1 := atTime s now
      let s2 := joinPitches answers c.pitches (sendDigests c.pitches s1)
      .next { s2 with boot := { s2.boot with phase := 12, ready := true, readyAt := some s2.cairn.count } }
    else .next s

/-- Every member has answered, is ready, and has this module's digest (R438). -/
def allAgree (s : State) (r : PitchRecord) (l : List MemberAnswer) : Bool :=
  (otherMembers r).all fun d => (answerOf l d).any fun a => a.ready && decide (a.digest = some (firmwareDigest s))

/-- The lead names the join time to the other members (R438; DESIGN CHOICE of the message: notes/assumptions/36.md). -/
def nameTime (r : PitchRecord) (time : Nat) : List Nat → State → State
  | [], s => s
  | d :: t, s => nameTime r time t (sendPeer s r d (leBytes 4 r.pitch ++ leBytes 8 time))

/-- GROUP_DIGEST_RETRY (R438): digests are exchanged again; when all agree, the time that the lead names, at least 1 s ahead, is taken. -/
def doDigestRetry (s0 : State) (r : PitchRecord) (answers : List MemberAnswer) (joinTime : Nat) : State :=
  if (pitchOf s0 r.pitch).groupDisabled then
    let s := sendDigest r (otherMembers r) s0
    if allAgree s r answers ∧ s.cairn.count + 1000000000 ≤ joinTime then
      onPitch (if r.group.groupPosition = 0 then nameTime r joinTime (otherMembers r) s else s) r.pitch fun x => { x with joinAt := some joinTime }
    else s
  else s0

/-- GROUP_DIGEST_RETRY. -/
def execGroupDigestRetry (pitch : Nat) (answers : List MemberAnswer) (joinTime : Nat) (s : State) : Answer State :=
  if pitchOk pitch then
    match recordOf s pitch with
    | none => .next s
    | some r => .next (doDigestRetry s r answers joinTime)
  else .refused .noSuchUnit

/-- GROUP_JOINED (R438): at the named time the group's pitches are enabled. -/
def doGroupJoined (s : State) (r : PitchRecord) : State :=
  match (pitchOf s r.pitch).joinAt with
  | none => s
  | some t =>
    if s.cairn.count < t then s
    else
      rangerEvent (onPitch s r.pitch fun x => { x with groupDisabled := false, joinAt := none }) 0x0B 0x0B0A r.pitch
        (bootDetail s.boot.release s.boot.slot 0 0 (r.group.members.headD 0) r.group.pitchGroup)

/-- GROUP_JOINED. -/
def execGroupJoined (pitch now : Nat) (s : State) : Answer State :=
  if pitchOk pitch then
    match recordOf s pitch with
    | none => .next s
    | some r => .next (doGroupJoined (atTime s now) r)
  else .refused .noSuchUnit

end Sys2Proof.Machine
end

