-- ==== Sys2Proof/Machine/Fabric.lean ====
section
/-! DEFINITION. The tensor fabric (R382 to R406): arriving frames, credits and retry, links that go down and return,
slot transfers, and the Cairn time frames. Choices the spec leaves: notes/assumptions/37.md, 38.md. -/

namespace Sys2Proof.Machine

/-! ### Receiving (R390 to R392) -/

/-- Frames sent and not acknowledged. -/
def outstanding (k : Link) : Nat := (k.txSeq + 4095 - k.acked) % 4096

/-- Packets of the retry buffer that have been acknowledged whole leave it (R388, R392). -/
def pruneRetry (l : List Frame) (acked : Nat) : List Frame :=
  let cuts := (List.range (acked + 1)).filter fun j => decide (j = l.length) || (l[j]?).any frFirst
  l.drop (cuts.getLast?.getD 0)

/-- Take the ack of a frame; one that names no outstanding frame changes nothing. -/
def takeAck (k : Link) (a : Nat) : Link :=
  if (a + 4096 - k.acked) % 4096 ≤ outstanding k then
    let k1 := { k with acked := a }
    { k1 with retry := pruneRetry k.retry (k.retry.length - outstanding k1) }
  else k

/-- Credits advertised per channel (R391). -/
def advertised : List Nat := [32, 448, 32]

/-- Take the credits that a frame returns; a link never holds more than were advertised. -/
def takeCredits (k : Link) (v n : Nat) : Link := { k with credits := lmod k.credits v fun c => min (advertised.getD v 0) (c + n) }

/-- Take the ack and the credits of a frame (R390). -/
def takeControl (k : Link) (f : Frame) : Link := takeCredits (takeAck k (frAck f)) (frCreditVc f) (frCredits f)

/-- FLIT_RETRY, the first in each Cairn second (R406). -/
def flitRetry (s : State) (l : Nat) : State :=
  eventOnce s 0x0C05 0 fun s => linkEvent s l 0x0C05 (((linkEntry s l).map (·.peerDevice)).getD 0) 0

/-- A frame that is not taken: it is discarded with those after it, and a retry request goes out (R392). -/
def refuseFrame (s : State) (l : Nat) (k : Link) : State := flitRetry (sendRetry (putLink s l { k with discarding := true }) l) l

/-- The flits of a packet have all arrived: it waits in the receive buffer; a packet of another kind is dropped (R394). -/
def completePacket (k : Link) (vc : Nat) (pkt : List Byte) : Link :=
  let n := pkt.length / 256
  let kind := leAt pkt 0 1
  if 1 ≤ kind ∧ kind ≤ 4 ∧ kindVc kind = vc then { k with partialPkt := [], inbox := k.inbox ++ [pkt] }
  else { k with partialPkt := [], owed := lmod k.owed vc (· + n) }

/-- A data frame in order: its flit joins the packet being assembled. -/
def acceptFlit (k : Link) (f : Frame) : Link :=
  let k1 := takeControl { k with rxSeq := (k.rxSeq + 1) % 4096, discarding := false } f
  if ¬frFirst f ∧ k.partialPkt = [] then { k1 with owed := lmod k1.owed (frVc f) (· + 1) }
  else
    let pkt := if frFirst f then f.payload else k.partialPkt ++ f.payload
    let n := leAt pkt 1 1
    if n = 0 ∨ 16 < n then { k1 with partialPkt := [], owed := lmod k1.owed (frVc f) (· + pkt.length / 256) }
    else if 256 * n ≤ pkt.length then completePacket k1 (frVc f) pkt
    else { k1 with partialPkt := pkt }

/-- FLIT_DATA (R391, R392): a data frame arrives, or a frame that fails its CRC or names an invalid type or channel. -/
def doFlitData (s : State) (l : Nat) (f : Frame) : State :=
  match linkAt s l with
  | none => s
  | some k =>
    if k.state ≠ .up then s
    else if frameOk f ∧ (frType f = 0 ∨ frType f = 2 ∨ frType f = 3) then s
    else if frameOk f ∧ frType f = 1 ∧ frVc f < 3 then
      if frSeq f = k.rxSeq then pump (sendIdle (putLink s l (acceptFlit k f)) l)
      else if k.discarding then s
      else refuseFrame s l k
    else refuseFrame s l k

/-- FLIT_DATA. -/
def execFlitData (link : Nat) (f : Frame) (s : State) : Answer State :=
  if linkOk link then .next (doFlitData s link f) else .refused .noSuchUnit

/-- FLIT_IDLE (R390): an idle frame returns its ack and credits. -/
def doFlitIdle (s : State) (l : Nat) (f : Frame) : State :=
  match linkAt s l with
  | none => s
  | some k => if k.state = .up ∧ frameOk f ∧ frType f = 0 then pump (putLink s l (takeControl k f)) else s

/-- FLIT_IDLE. -/
def execFlitIdle (link : Nat) (f : Frame) (s : State) : Answer State :=
  if linkOk link then .next (doFlitIdle s link f) else .refused .noSuchUnit

/-- Send frames of the retry buffer again, unchanged. -/
def resendFrames (l : Nat) : List Frame → State → State
  | [], s => s
  | f :: t, s => resendFrames l t (send s (.frame l f))

/-- RETRY_REQUEST (R392, R393): every frame from ack + 1 is sent again; after the eighth request in a row with one ack nothing is, and the link is
down by LINK_DOWN. -/
def doRetryRequest (s : State) (l : Nat) (f : Frame) : State :=
  match linkAt s l with
  | none => s
  | some k =>
    if k.state = .up ∧ frameOk f ∧ frType f = 2 then
      let n := if k.lastRetryAck = some (frAck f) then k.sameAck + 1 else 1
      let k1 := { takeControl k f with lastRetryAck := some (frAck f), sameAck := n }
      let s1 := flitRetry (putLink s l k1) l
      if 8 ≤ n then s1 else pump (resendFrames l (k1.retry.drop (k1.retry.length - outstanding k1)) s1)
    else s

/-- RETRY_REQUEST. -/
def execRetryRequest (link : Nat) (f : Frame) (s : State) : Answer State :=
  if linkOk link then .next (doRetryRequest s link f) else .refused .noSuchUnit

/-! ### Time parent and holdover (R401, R403) -/

/-- The link of the time parent: the working link with the lowest rank (R401). -/
def timeParent (s : State) : Option Nat :=
  (timeLinks s).foldl (fun (best : Option (Nat × Nat)) x => match best with
    | none => some (x.2.timeRank, x.1)
    | some b => if x.2.timeRank < b.1 then some (x.2.timeRank, x.1) else some b) none |>.map (·.2)

/-- The module is the time root of its domain (R401). -/
def isRoot (s : State) : Bool := s.cfg.any fun c => decide (c.deviceId = c.timeRoot)

/-- A Cairn event: the offset in 1/256 ns (R406). -/
def cairnEvent (s : State) (code : Nat) : State :=
  rangerEvent s 0x06 code noPitch (fabricDetail 0xFF 0xFF 0 0 (unsignedOf 32 s.cairn.offset) 0)

/-- A locked device without a working time parent enters holdover (R403). -/
def holdover (s : State) : State :=
  if s.cairn.locked ∧ s.cairn.holdover = false ∧ isRoot s = false ∧ timeParent s = none then
    cairnEvent { s with cairn := { s.cairn with holdover := true, parent := none } } 0x0C07
  else s

/-! ### Links that fail (R388, R389, R393) -/

/-- The packets whose frames stand in a retry buffer. -/
def packetsOf (l : List Frame) : List (List Byte) :=
  (l.foldl (fun (acc : List (List Byte)) f =>
    if frFirst f then f.payload :: acc
    else match acc with
      | [] => []
      | p :: t => (p ++ f.payload) :: t) []).reverse

/-- The packets of a link that were not completely acknowledged wait again at their port (R388). -/
def requeue (s : State) (l : Nat) (k : Link) : State :=
  let port := ((linkEntry s l).map (·.port)).getD 0xFF
  { s with fab := { s.fab with waiting := ((packetsOf k.retry).map fun p => (port, p)) ++ s.fab.waiting } }

/-- The neighbour that the configuration expects on a link. -/
def neighbourOf (s : State) (l : Nat) : Nat := ((linkEntry s l).map (·.peerDevice)).getD 0

/-- LINK_DOWN (R393): the link goes down and retrains once. -/
def doLinkDown (s : State) (l : Nat) : State :=
  match linkAt s l with
  | none => s
  | some k =>
    if k.state = .up then
      let s1 := putLink s l { k with state := .retraining, downSince := some s.cairn.count, partialPkt := [] }
      holdover (linkEvent s1 l 0x0C02 (neighbourOf s l) 1)
    else s

/-- LINK_DOWN. -/
def execLinkDown (link now : Nat) (s : State) : Answer State :=
  if linkOk link then .next (doLinkDown (atTime s now) link) else .refused .noSuchUnit

/-- 100 ms have passed since a link or port went down (R258, R393). -/
def overdue (s : State) (since : Option Nat) : Bool := since.all fun t => decide (t + 100000000 < s.cairn.count)

/-- PORT_DOWN where no link of a link's port works any longer (R389). -/
def portDown (s : State) (l : Nat) : State :=
  if workingLinks s (((linkEntry s l).map (·.port)).getD 0xFF) = [] then linkEvent s l 0x0C04 (neighbourOf s l) 0 else s

/-- LINK_UP (R385, R393): within 100 ms the link trains again; the ends exchange their identities, and with the configured neighbour the link returns with
seq, ack and credits reset. Its unacknowledged packets are sent again; a link to another neighbour is refused. -/
def doLinkUp (s0 : State) (l device peerLink : Nat) : State :=
  match linkAt s0 l, linkEntry s0 l with
  | some k, some e =>
    if k.state = .retraining ∧ overdue s0 k.downSince = false then
      let s := sendIdentity s0 l
      if e.peerDevice = device ∧ e.peerLink = peerLink then
        let s1 := requeue (putLink s l { Link.reset with state := .up, inbox := k.inbox }) l k
        pump (linkEvent s1 l 0x0C03 device 0)
      else
        let s1 := requeue (putLink s l { Link.reset with state := .refused, inbox := k.inbox }) l k
        pump (holdover (portDown (linkEvent s1 l 0x0C01 device 0) l))
    else s0
  | _, _ => s0

/-- LINK_UP. -/
def execLinkUp (link device peerLink now : Nat) (s : State) : Answer State :=
  if linkOk link then .next (doLinkUp (atTime s now) link device peerLink) else .refused .noSuchUnit

/-- LINK_LOST (R388, R389, R393): after 100 ms the link is lost until the next start; its packets go to another link of the port, or wait. -/
def doLinkLost (s : State) (l : Nat) : State :=
  match linkAt s l with
  | none => s
  | some k =>
    if k.state = .retraining ∧ overdue s k.downSince then
      let s1 := requeue (putLink s l { Link.reset with state := .lost, inbox := k.inbox }) l k
      let s2 := linkEvent s1 l 0x0C02 (neighbourOf s l) 2
      pump (holdover (portDown s2 l))
    else s

/-- LINK_LOST. -/
def execLinkLost (link now : Nat) (s : State) : Answer State :=
  if linkOk link then .next (doLinkLost (atTime s now) link) else .refused .noSuchUnit

/-! ### Taking packets from the receive buffers -/

/-- The link at whose buffer a packet is next on its channel. -/
def linkWith (s : State) (pkt : List Byte) : Option Nat :=
  (List.range 24).find? fun l =>
    (linkAt s l).any fun k => decide ((k.inbox.find? fun q => decide (packetVc q = packetVc pkt)) = some pkt)

/-- A packet leaves a receive buffer, and its credits are returned (R391). -/
def takePacket (s : State) (l : Nat) (pkt : List Byte) : State :=
  match linkAt s l with
  | none => s
  | some k =>
    let k1 := { k with inbox := k.inbox.erase pkt, owed := lmod k.owed (packetVc pkt) (· + pkt.length / 256) }
    let s1 := putLink s l k1
    if k.state = .up then sendIdle s1 l else s1

/-- A row on a packet that has arrived: it acts where the packet is next in a receive buffer. -/
def withPacket (s : State) (kind : Nat) (pkt : List Byte) (f : Nat → State) : State :=
  if leAt pkt 0 1 = kind then
    match linkWith s pkt with
    | none => s
    | some l => f l
  else s

/-! ### Slot transfers: the sender (R395, R397, R398) -/

/-- The transfer descriptor (R395). -/
def transferDesc (bs : List Byte) : TransferDesc where
  port := leAt bs 0 1
  coded := bitOf (leAt bs 1 1) 0
  destDevice := leAt bs 2 2
  pitchGroup := leAt bs 4 2
  destPitch := leAt bs 6 1
  srcSlot := leAt bs 8 4
  destSlot := leAt bs 12 4
  length := leAt bs 16 4
  srcOffset := leAt bs 20 4
  destOffset := leAt bs 24 4

/-- A descriptor's fields are in range and its reserved bits zero (R395). -/
def descOk (bs : List Byte) : Bool :=
  decide (leAt bs 0 1 < 24) && decide (leAt bs 1 1 < 2) && decide (leAt bs 2 2 < 4096) && zerosAt bs 7 1 && zerosAt bs 28 4
    && decide (1 ≤ leAt bs 16 4 ∧ leAt bs 16 4 ≤ 2 ^ 30)

/-- Cut a stream into bodies of 4,064 bytes (R395). -/
def bodies : Nat → List Byte → List (List Byte)
  | 0, _ => []
  | n + 1, bs => if bs = [] then [] else bs.take 4064 :: bodies n (bs.drop 4064)

/-- The packets of a transfer. -/
def transferPackets (s : State) (d : TransferDesc) (number : Nat) (stream padding : List Byte) : List (List Byte) :=
  let bs := bodies (stream.length / 4064 + 1) stream
  (bs.zipIdx).map fun b =>
    makePacket (deviceId s) padding
      ⟨1, d.destDevice, d.pitchGroup, d.destPitch, d.coded, decide (b.2 + 1 = bs.length), number, d.destSlot, 4064 * b.2, stream.length⟩ b.1

/-- Send the stream of a transfer that has been read (R395). -/
def startTransfer (s : State) (r : PitchRecord) (d : TransferDesc) (raw : List Byte) : State :=
  let stream := if d.coded then encodeStream coderZeroRun false raw else raw
  let (padding, s1) := drawBytes s 4096
  let n := s1.fab.nextTransfer
  let pkts := transferPackets s1 d n stream padding
  let x : Send := ⟨r.pitch, d, pkts, s1.cairn.count, 0, [], false⟩
  let s2 := onPitch s1 r.pitch fun y => { y with sent := y.sent || y.inStep }
  sendPackets { s2 with fab := { s2.fab with sends := mset s2.fab.sends n x, nextTransfer := (n + 1) % 2 ^ 32 } } d.port pkts

/-- SLOT_TRANSFER (R395): the engine reads a FULL slot without releasing it, cuts the stream and sends it. A word that its check finds
uncorrectable is never used (R242, R243). -/
def doSlotTransfer (s : State) (r : PitchRecord) (bs : List Byte) (found : List Finding) : State :=
  let d := transferDesc bs
  match slotOf s r d.srcSlot with
  | none => s
  | some x =>
    if descOk bs ∧ x.state = .full ∧ d.srcOffset + d.length ≤ x.size then
      let a := slotDa s r x + d.srcOffset
      rangerAccess s [(a, d.length)] fun s =>
        let s1 := rangerFindings r.pitch found s
        if found.any stopsCommand then s1 else startTransfer s1 r d (peekBytes s1 a d.length)
    else s

/-- SLOT_TRANSFER. -/
def execSlotTransfer (pitch now : Nat) (descriptor : List Byte) (found : List Finding) (s : State) : Answer State :=
  if pitchOk pitch then
    match recordOf s pitch with
    | none => .next s
    | some r => .next (doSlotTransfer (atTime s now) r descriptor found)
  else .refused .noSuchUnit

/-- Where the blocks of a coded stream start and end (R265). -/
def blockSpan (stream : List Byte) : Nat → Nat → Nat × Nat
  | 0, at_ => (at_, at_ + 16 + leAt stream (at_ + 4) 2)
  | n + 1, at_ => blockSpan stream n (at_ + 16 + leAt stream (at_ + 4) 2)

/-- A packet of a transfer that holds bytes of a range of the stream. -/
def meetsRange (pkt : List Byte) (a b : Nat) : Bool := decide (leAt pkt 20 4 < b) && decide (a < leAt pkt 20 4 + leAt pkt 10 2)

/-- The response to a transfer (R397): DONE makes the releasing read; INTEGRITY_FAIL sends the block's packets again once. -/
def doResponse (s : State) (pkt : List Byte) : State :=
  let n := leAt pkt 12 4
  let result := leAt (packetBody pkt) 0 2
  let block := leAt (packetBody pkt) 2 4
  match mget s.fab.sends n with
  | none => s
  | some x =>
    if leAt pkt 4 2 % 4096 ≠ x.desc.destDevice then s
    else if result = rcDone then
      let s1 := { s with fab := { s.fab with sends := mdel s.fab.sends n, waiting := s.fab.waiting.filter fun q => !decide (q.2 ∈ x.packets) } }
      match (recordOf s1 x.pitch).bind fun r => slotOf s1 r x.desc.srcSlot with
      | some k => if k.state = .full then putSlot s1 x.pitch x.desc.srcSlot (releaseSlot k engineReader) else s1
      | none => s1
    else if result = rcIntegrityFail ∧ block ∉ x.blockResent then
      let (a, b) := blockSpan (x.packets.map packetBody).flatten block 0
      let again := x.packets.filter fun p => meetsRange p a b
      let x1 := { x with blockResent := x.blockResent ++ [block], lastSent := s.cairn.count }
      sendPackets { s with fab := { s.fab with sends := mset s.fab.sends n x1 } } x.desc.port again
    else s

/-- TRANSFER_RESPONSE. -/
def execTransferResponse (pkt : List Byte) (s : State) : Answer State :=
  .next (withPacket s 2 pkt fun l => pump (doResponse (takePacket s l pkt) pkt))

/-- TRANSFER_RESEND (R398): 200 µs after the last packet without a response the whole transfer is sent again, up to four times; then
TRANSFER_LOST. -/
def doTransferResend (s : State) (n : Nat) : State :=
  match mget s.fab.sends n with
  | none => s
  | some x =>
    if x.lost ∨ (s.fab.waiting.any fun q => decide (q.2 ∈ x.packets)) ∨ s.cairn.count < x.lastSent + 200000 then s
    else if x.resends < 4 then
      sendPackets { s with fab := { s.fab with sends := mset s.fab.sends n { x with resends := x.resends + 1, lastSent := s.cairn.count } } }
        x.desc.port x.packets
    else
      let s1 := { s with fab := { s.fab with sends := mset s.fab.sends n { x with lost := true } } }
      let peer := ((s.cfg.bind fun c => c.links.find? fun e => decide (e.port = x.desc.port)).map (·.peerDevice)).getD 0
      rangerEvent s1 0x06 0x0C06 x.pitch (fabricDetail 0xFF x.desc.port peer n 0 0)

/-- TRANSFER_RESEND. -/
def execTransferResend (transfer now : Nat) (s : State) : Answer State := .next (doTransferResend (atTime s now) transfer)

/-! ### Slot transfers: the receiver (R283, R284, R396, R397) -/

/-- Where a received stream is complete from its first byte. -/
def contiguous (parts : NMap (List Byte)) : Nat := parts.foldl (fun e p => if p.1 ≤ e then max e (p.1 + p.2.length) else e) 0

/-- The bytes of a complete stream. -/
def joinParts (parts : NMap (List Byte)) (n : Nat) : List Byte :=
  rdBytes (parts.foldl (fun m p => wrBytes m p.1 p.2) []) 0 n

/-- The bytes of a range of the stream have all arrived. -/
def covered (parts : NMap (List Byte)) (a n : Nat) : Bool :=
  decide (a + n ≤ parts.foldl (fun e p => if p.1 ≤ e then max e (p.1 + p.2.length) else e) a)

/-- A block of a coded stream whose bytes have all arrived: its index, its places in the stream and among the decoded bytes, and its bytes. -/
structure ArrivedBlock where
  index : Nat
  place : Nat
  out : Nat
  bytes : List Byte

/-- The blocks of a coded stream that have arrived whole (R265, R397): a header says where the next block begins and how many bytes its own decodes to. -/
def arrivedBlocks (parts : NMap (List Byte)) (stream : List Byte) : Nat → Nat → Nat → Nat → List ArrivedBlock
  | 0, _, _, _ => []
  | fuel + 1, i, a, out =>
    if stream.length ≤ a ∨ covered parts a (min 16 (stream.length - a)) = false then []
    else
      let n := min (16 + leAt stream (a + 4) 2) (stream.length - a)
      let rest := arrivedBlocks parts stream fuel (i + 1) (a + n) (out + leAt stream (a + 2) 2)
      if covered parts a n then ⟨i, a, out, (stream.drop a).take n⟩ :: rest else rest

/-- The blocks of a transfer that have arrived and have not been decoded yet. -/
def newBlocks (v : Recv) : List ArrivedBlock :=
  (arrivedBlocks v.landed (joinParts v.landed v.length) (v.length / 16 + 1) 0 0 0).filter fun b => decide (b.index ∉ v.done)

/-- A decode fault of a fabric transfer (R284). -/
def codecEvent (s : State) (p src attempt : Nat) (f : DecodeFault) (head : List Byte) : State :=
  writeEvent s (srcPeer src) 0x06 (decodeCode f) p (decodeDetail 0 head src attempt)

/-- The logical port that leads to a device: the link on which its packet came. -/
def portOfLink (s : State) (l : Nat) : Nat := ((linkEntry s l).map (·.port)).getD 0xFF

/-- Send a response on virtual channel 2 (R397); header fields that the spec does not give for a response are free (notes/assumptions/38.md). -/
def sendResponse (s : State) (port dest group transfer result block : Nat) : State :=
  let (padding, s1) := drawBytes s 256
  let (n, s2) := drawNat s1
  let head : PacketHead := ⟨2, dest, group, n % 256, false, true, transfer, n / 256 % 2 ^ 32, 0, 6⟩
  sendPackets s2 port [makePacket (deviceId s2) padding head (leBytes 2 result ++ leBytes 4 block)]

/-- Put a transfer that lands. -/
def putRecv (s : State) (x : Recv) : State :=
  { s with fab := { s.fab with
      recvs := (s.fab.recvs.filter fun q => !(decide (q.source = x.source) && decide (q.transfer = x.transfer))) ++ [x] } }

/-- A transfer goes no further. -/
def dropRecv (s : State) (v : Recv) : State :=
  { s with fab := { s.fab with recvs := s.fab.recvs.filter fun q => !(decide (q.source = v.source) && decide (q.transfer = v.transfer)) } }

/-- A transfer is complete: the last 256 numbers of each source are remembered (R397). -/
def endRecv (s : State) (source transfer : Nat) : State :=
  let mine := (s.fab.doneTransfers.filter fun d => decide (d.1 = source)) ++ [(source, transfer)]
  { s with fab := { s.fab with
      recvs := s.fab.recvs.filter fun q => !(decide (q.source = source) && decide (q.transfer = transfer))
      doneTransfers := (s.fab.doneTransfers.filter fun d => decide (d.1 ≠ source)) ++ lastN 256 mine } }

/-- FABRIC_FOREIGN (R396). -/
def fabricForeign (s : State) (l p src transfer : Nat) : State :=
  writeEvent s (srcPeer src) 0x0A 0x0109 p (fabricDetail l (portOfLink s l) src transfer 0 0)

/-- Every byte has landed and passed its checks: the closing write (R278, R397), and DONE. -/
def landed (s : State) (l : Nat) (r : PitchRecord) (v : Recv) (x : Slot) : State :=
  let s1 := putSlot s r.pitch v.slot (fillSlot x true)
  sendResponse (endRecv s1 v.source v.transfer) (portOfLink s l) v.source r.group.pitchGroup v.transfer rcDone 0

/-- A block fails (R283, R397): it is asked for once more, and its packets have to arrive again; a second fault is an uncorrectable word of a slot that
is not persistent (R243), and ends the transfer. -/
def blockFailed (s : State) (l : Nat) (r : PitchRecord) (v : Recv) (b : ArrivedBlock) (f : DecodeFault) : State × Option Recv :=
  let n := mgetD v.failed b.index 0 + 1
  let s1 := codecEvent s r.pitch v.source (min n 2) f (b.bytes.take 16)
  if 2 ≤ n then (uncorrectableWord (dropRecv s1 v) r.pitch, none)
  else
    let v1 := { v with failed := mset v.failed b.index n, landed := v.landed.filter fun p => !overlaps p.1 p.2.length b.place b.bytes.length }
    (sendResponse s1 (portOfLink s l) v.source r.group.pitchGroup v.transfer rcIntegrityFail b.index, some v1)

/-- Decode the blocks of a list and land their bytes (R278, R397); a block that would land beyond the slot is foreign (R396). None where the transfer has
ended. -/
def landBlocks (l : Nat) (r : PitchRecord) (x : Slot) : List ArrivedBlock → State → Recv → State × Option Recv
  | [], s, v => (s, some v)
  | b :: t, s, v =>
    match decodeBlock false b.bytes with
    | .error f =>
      (match blockFailed s l r v b f with
      | (s1, none) => (s1, none)
      | (s1, some v1) => landBlocks l r x t s1 v1)
    | .ok (out, _) =>
      if x.size < v.destOffset + b.out + out.length then (fabricForeign (dropRecv s v) l r.pitch v.source v.transfer, none)
      else landBlocks l r x t (pokeBytes s (slotDa s r x + v.destOffset + b.out) out) { v with done := v.done ++ [b.index] }

/-- The transfer goes on, or every byte of its stream has landed. -/
def landedMore (s : State) (l : Nat) (r : PitchRecord) (v : Recv) (x : Slot) : State :=
  let s1 := putRecv s v
  if contiguous v.landed < v.length then s1 else landed s1 l r v x

/-- Land the body of a packet (R397): the bytes of a raw stream at once, and each block of a coded one when all its bytes have arrived. -/
def landBody (s : State) (l : Nat) (r : PitchRecord) (v : Recv) (x : Slot) (offset : Nat) (body : List Byte) : State :=
  let v1 := { v with landed := mset v.landed offset body }
  let x1 := fillSlot x false
  let s1 := putSlot s r.pitch v.slot x1
  if v.coded then
    match landBlocks l r x1 (newBlocks v1) s1 v1 with
    | (s2, none) => s2
    | (s2, some v2) => landedMore s2 l r v2 x1
  else landedMore (pokeBytes s1 (slotDa s r x + v.destOffset + offset) body) l r v1 x1

/-- The pitch and slot that a slot data packet may land in (R396). -/
def landingSlot (s : State) (pkt : List Byte) : Option (PitchRecord × Slot) :=
  match recordOf s (leAt pkt 8 1) with
  | none => none
  | some r =>
    match slotOf s r (leAt pkt 16 4) with
    | none => none
    | some x =>
      if r.group.pitchGroup = leAt pkt 6 2 ∧ leAt pkt 4 2 % 4096 ∈ r.group.members ∧ x.producer = 0xFFFF then some (r, x) else none

/-- The transfer to which a packet belongs; its first packet begins it. -/
def recvOf (s : State) (pkt : List Byte) (destOffset : Nat) : Recv :=
  let src := leAt pkt 4 2 % 4096
  let n := leAt pkt 12 4
  (s.fab.recvs.find? fun q => decide (q.source = src) && decide (q.transfer = n)).getD
    ⟨src, n, leAt pkt 8 1, leAt pkt 16 4, destOffset, leAt pkt 24 4, bitOf (leAt pkt 9 1) 0, [], [], []⟩

/-- The bytes of device memory to which a packet's body lands: a raw body at its offset, and the coded blocks that it completes at theirs. -/
def landingRanges (s : State) (r : PitchRecord) (v : Recv) (x : Slot) (offset : Nat) (body : List Byte) : List (Nat × Nat) :=
  let a := slotDa s r x + v.destOffset
  if v.coded then (newBlocks { v with landed := mset v.landed offset body }).map fun b => (a + b.out, leAt b.bytes 2 2)
  else [(a + offset, body.length)]

/-- SLOT_DATA_PACKET (R396, R397). A packet whose slot cannot be written yet, or whose banks do not admit the write (R260), stays in the buffer
(R158). -/
def doSlotData (s : State) (l : Nat) (pkt : List Byte) (destOffset : Nat) : State :=
  let src := leAt pkt 4 2 % 4096
  let n := leAt pkt 12 4
  let body := packetBody pkt
  let offset := leAt pkt 20 4
  if (src, n) ∈ s.fab.doneTransfers then pump (takePacket s l pkt)
  else
    let v := recvOf s pkt destOffset
    match landingSlot s pkt with
    | none =>
      let p := if (recordOf s (leAt pkt 8 1)).isSome then leAt pkt 8 1 else noPitch
      pump (fabricForeign (takePacket s l pkt) l p src n)
    | some (r, x) =>
      if ¬v.coded ∧ x.size < v.destOffset + offset + body.length then pump (fabricForeign (takePacket s l pkt) l r.pitch src n)
      else if canWrite x then rangerAccess s (landingRanges s r v x offset body) fun s => pump (landBody (takePacket s l pkt) l r v x offset body)
      else s

/-- SLOT_DATA_PACKET; `destOffset` is the dest_offset of the transfer's descriptor, which no packet carries (notes/assumptions/38.md). -/
def execSlotDataPacket (pkt : List Byte) (destOffset : Nat) (s : State) : Answer State :=
  .next (withPacket s 1 pkt fun l => doSlotData s l pkt destOffset)

/-! ### Management messages (R394) -/

/-- A message stamped with source class 0x3 and the sender's device ID (R394, R418). -/
def stampPeer (src : Nat) (msg : List Byte) : List Byte := leBytes 3 (srcPeer src) ++ (padTo 64 msg).drop 3

/-- MANAGEMENT_MESSAGE (R394): the message goes to the Ranger's mailbox. -/
def execManagementMessage (pkt : List Byte) (s : State) : Answer State :=
  .next (withPacket s 3 pkt fun l =>
    let s1 := takePacket s l pkt
    pump { s1 with fab := { s1.fab with mgmtIn := s1.fab.mgmtIn ++ [stampPeer (leAt pkt 4 2 % 4096) (packetBody pkt)] } })

/-! ### Cairn time frames (R401 to R405) -/

/-- The payload of a time frame (R402); a child says of the root's PPS what its parent says. -/
def timePayload (s : State) (kind exchange t1 t2 t3 f1 f2 f3 : Nat) : List Byte :=
  let root := (s.cfg.map (·.timeRoot)).getD 0
  let depth := if isRoot s then 0 else s.cairn.depth
  padTo 256 (leBytes 1 kind ++ leBytes 1 depth ++ leBytes 2 root ++ leBytes 4 exchange ++ leBytes 8 t1 ++ leBytes 8 t2 ++ leBytes 8 t3
    ++ leBytes 1 f1 ++ leBytes 1 f2 ++ leBytes 1 f3 ++ leBytes 1 ((if s.cairn.locked then 1 else 0) + (if s.cairn.ppsSeen then 2 else 0)))

/-- The link on which a module asks for the time: a child its parent's; a root that looks for a locked neighbour before it is ready, the first of its
time links, in ascending rank, on which it has not asked (R401, R405). -/
def timeAsked (s : State) : Option Nat :=
  if isRoot s = false then timeParent s
  else if s.boot.ready ∨ s.cairn.tookNeighbour then none
  else ((sortBy (fun a b => decide (a.2.timeRank ≤ b.2.timeRank)) (timeLinks s)).find? fun x => decide (x.1 ∉ s.cairn.asked)).map (·.1)

/-- TIME_REQUEST (R402): a child sends its parent a time frame with its count. -/
def doTimeRequest (s : State) : State :=
  match timeAsked s with
  | none => s
  | some l =>
    let x := (s.cairn.exchange + 1) % 2 ^ 32
    let asked := if isRoot s then s.cairn.asked ++ [l] else s.cairn.asked
    let s1 := { s with cairn := { s.cairn with exchange := x, t1 := some (s.cairn.count, s.cairn.frac), parent := some l, asked := asked } }
    sendPlain s1 l 3 (timePayload s1 1 x s1.cairn.count 0 0 s1.cairn.frac 0 0)

/-- TIME_REQUEST. -/
def execTimeRequest (now : Nat) (s : State) : Answer State := .next (doTimeRequest (atTime s now))

/-- A time frame arrives on a working link and passes its CRC: its ack and credits are taken (R390), and `k` acts on its payload. -/
def withTimeFrame (s : State) (l : Nat) (f : Frame) (k : State → State) : State :=
  match linkAt s l with
  | none => s
  | some x => if x.state = .up ∧ frameOk f ∧ frType f = 3 then pump (k (putLink s l (takeControl x f))) else s

/-- A module serves time: a root only when it has looked for a locked neighbour (R405). -/
def servesTime (s : State) : Bool := !isRoot s || s.boot.ready || rootLooked s

/-- TIME_REQUEST_RECEIVED (R402): the parent answers with the counts at arrival and departure. -/
def doTimeAnswer (s : State) (l : Nat) (payload : List Byte) (t2 t2frac t3 t3frac : Nat) : State :=
  if leAt payload 0 1 = 1 ∧ servesTime s then
    sendPlain (atTime s t3) l 3 (timePayload s 2 (leAt payload 4 4) (leAt payload 8 8) (count64 t2) (count64 t3) (leAt payload 32 1) (t2frac % 256)
      (t3frac % 256))
  else s

/-- TIME_REQUEST_RECEIVED. -/
def execTimeRequestReceived (link : Nat) (f : Frame) (t2 t2frac t3 t3frac : Nat) (s : State) : Answer State :=
  if linkOk link then .next (withTimeFrame s link f fun s => doTimeAnswer s link f.payload t2 t2frac t3 t3frac) else .refused .noSuchUnit

/-- A count with its fraction, in 1/256 ns. -/
def fine (count frac : Nat) : Int := (256 * count + frac : Nat)

/-- offset := ((t2 − t1) − (t4 − t3)) / 2 in 1/256 ns (R402). -/
def exchangeOffset (payload : List Byte) (t1 : Nat × Nat) (t4 t4frac : Nat) : Int :=
  ((fine (leAt payload 16 8) (leAt payload 33 1) - fine t1.1 t1.2) - (fine t4 t4frac - fine (leAt payload 24 8) (leAt payload 34 1))) / 2

/-- delay := ((t2 − t1) + (t4 − t3)) / 2 in 1/256 ns (R402): the child computes it, and nothing else depends on it. -/
def exchangeDelay (payload : List Byte) (t1 : Nat × Nat) (t4 t4frac : Nat) : Int :=
  ((fine (leAt payload 16 8) (leAt payload 33 1) - fine t1.1 t1.2) + (fine t4 t4frac - fine (leAt payload 24 8) (leAt payload 34 1))) / 2

/-- Step the count by an offset in 1/256 ns (R403). -/
def stepCount (c : Cairn) (offset : Int) : Cairn :=
  let v := (fine c.count c.frac + offset).toNat
  { c with count := count64 (v / 256), frac := v % 256 }

/-- Count an exchange toward the lock (R403): after 16 in a row with |offset| below 1 ns the device is locked. -/
def countExchange (s : State) (offset : Int) : State :=
  let good := if offset.natAbs < 256 then s.cairn.good + 1 else 0
  let s1 := { s with cairn := { s.cairn with good := min good 16, offset := offset } }
  if 16 ≤ good ∧ s.cairn.locked = false then cairnEvent { s1 with cairn := { s1.cairn with locked := true } } 0x0C08 else s1

/-- TIME_RESPONSE (R402, R403, R405): the offset steps the count before the module is ready, and slews it afterwards. A device that is locked and
whose parent's link has failed meanwhile enters holdover. -/
def doTimeResponse (s : State) (l : Nat) (payload : List Byte) (t4 t4frac : Nat) : State :=
  match s.cairn.t1 with
  | none => s
  | some t1 =>
    if leAt payload 0 1 ≠ 2 ∨ leAt payload 4 4 ≠ s.cairn.exchange ∨ s.cairn.parent ≠ some l then s
    else
      let offset := exchangeOffset payload t1 t4 t4frac
      let s1 := { atTime s t4 with cairn := { (atTime s t4).cairn with t1 := none } }
      if isRoot s1 then
        if bitOf (leAt payload 35 1) 0 ∧ s1.boot.ready = false ∧ s1.cairn.tookNeighbour = false then { s1 with cairn := { stepCount s1.cairn offset with tookNeighbour := true } } else s1
      else
        let c := if s1.boot.ready then { s1.cairn with slew := offset } else stepCount s1.cairn offset
        holdover (countExchange { s1 with cairn := { c with depth := (leAt payload 1 1 + 1) % 256, holdover := false, ppsSeen := bitOf (leAt payload 35 1) 1 } } offset)

/-- TIME_RESPONSE. -/
def execTimeResponse (link : Nat) (f : Frame) (t4 t4frac : Nat) (s : State) : Answer State :=
  if linkOk link then .next (withTimeFrame s link f fun s => doTimeResponse s link f.payload t4 t4frac) else .refused .noSuchUnit

/-- How far the nearest whole second lies from a count, in 1/256 ns. -/
def secondOffset (c : Cairn) : Int :=
  let v := 256 * (c.count % 1000000000) + c.frac
  if v < 128 * 1000000000 then -(v : Nat) else (256 * 1000000000 - v : Nat)

/-- PPS_EDGE (R405): the root steps once to the next whole second before it is ready; each later edge disciplines its rate. -/
def doPpsEdge (s : State) : State :=
  if isRoot s ∧ s.cfg.any (·.ppsUsed) then
    if s.cairn.steppedPps = false ∧ s.boot.ready = false then
      { s with cairn := { s.cairn with
          count := count64 ((s.cairn.count / 1000000000 + 1) * 1000000000), frac := 0, steppedPps := true, ppsSeen := true } }
    else { s with cairn := { s.cairn with slew := secondOffset s.cairn, ppsSeen := true } }
  else s

/-- PPS_EDGE. -/
def execPpsEdge (s : State) : Answer State := .next (doPpsEdge s)

end Sys2Proof.Machine
end

