-- ==== Sys2Proof/Machine/Update.lean ====
section
/-! DEFINITION. Firmware and configuration update (R428 to R431, R440 to R445): the update messages of a mailbox and of the management session,
the slots of the NOR, chain forwarding, and the armed restart. Choices the spec leaves: notes/assumptions/39.md. -/

namespace Sys2Proof.Machine

/-! ### Slots (R428, R434, R439, R442) -/

/-- The slot of a target that is in use: the firmware slot that runs, or the configuration slot of this start. -/
def slotInUse (s : State) (target : Nat) : Nat := if target = 0 then s.boot.slot else s.boot.cfgSlot.getD 1

/-- The slot of a target that is not in use (R442). -/
def spareSlot (s : State) (target : Nat) : Nat := 1 - slotInUse s target

/-- Bytes of a target's slot (R428). -/
def slotBytes (target : Nat) : Nat := if target = 0 then 2 ^ 26 else 2 ^ 24

/-- An erased byte of the NOR. -/
def erased : Byte := 0xFF#8

/-- Contents of a slot. -/
def slotData (n : Nvm) (target slot : Nat) : List Byte := if target = 0 then fwSlot n slot else cfgSlot n slot

/-- Put the contents of a slot. -/
def putSlotData (n : Nvm) (target slot : Nat) (bs : List Byte) : Nvm :=
  if target = 0 then (if slot = 0 then { n with fwA := bs } else { n with fwB := bs })
  else (if slot = 0 then { n with cfgA := bs } else { n with cfgB := bs })

/-- Extend bytes with erased ones to a length. -/
def padErased (n : Nat) (bs : List Byte) : List Byte := bs.take n ++ List.replicate (n - bs.length) erased

/-- Write bytes at an offset of the slot that is not in use; what was verified there no longer is. -/
def writeSlot (s : State) (target offset : Nat) (data : List Byte) : State :=
  let k := spareSlot s target
  let old := slotData s.nvm target k
  let new := padErased offset old ++ data ++ old.drop (offset + data.length)
  { s with nvm := putSlotData s.nvm target k new
           boot := { s.boot with verified := s.boot.verified.filter fun v => decide (v.target ≠ target) } }

/-- Erase the slot that is not in use (R442). -/
def eraseSlot (s : State) (target : Nat) : State :=
  { s with nvm := putSlotData s.nvm target (spareSlot s target) []
           boot := { s.boot with verified := s.boot.verified.filter fun v => decide (v.target ≠ target) } }

/-- The image in a slot: as many bytes as its header names. -/
def slotImage (bs : List Byte) : List Byte := padErased (leAt bs 16 8) bs

/-! ### The checks of R443 -/

/-- A pitch is moving (R331): a park in phases 3 to 5, or a resume from an image whose pages are not all imported. -/
def moving (s : State) : Bool :=
  (s.seqs.any fun e => (e.2.park.any fun k => decide (3 ≤ k.phase)) || e.2.importing.any (·.fromImage))
    || s.reqs.any fun r => decide (r.state = .reading) || (decide (r.state = .copying) && namesNone r)

/-- A configuration image's header is well formed, and its length lies within the slot (R431). -/
def cfgHeaderOk (bs : List Byte) : Bool :=
  decide (bs.take 4 = ascii "VZCF") && zerosAt bs 6 2 && zerosAt bs 26 38
    && decide (64 + signatureBytes ≤ leAt bs 16 8 ∧ leAt bs 16 8 ≤ 2 ^ 24)

/-- A configuration format that the running firmware or a verified image reads (R434, R443). -/
def formatKnown (s : State) (format : Nat) : Bool :=
  decide (format = s.boot.configFormat) || s.boot.verified.any fun v => decide (v.target = 0 ∧ v.configFormat = format)

/-- Checks 5 to 7 on the slot that is not in use (R443). -/
def slotCheck (s : State) (target : Nat) (sigOk : Bool) : Nat :=
  let bs := slotData s.nvm target (spareSlot s target)
  if (if target = 0 then fwHeaderOk bs else cfgHeaderOk bs) = false then rcIntegrityFail
  else if sigOk = false then rcAuthFail
  else if target = 0 then
    (if leAt bs 6 2 ≠ 1 ∨ leAt bs 8 4 < s.nvm.fuses.minRelease then rcVersionMismatch else rcDone)
  else (if formatKnown s (leAt bs 4 2) then rcDone else rcVersionMismatch)

/-- Release number of an image: a configuration image has none. -/
def imageRelease (target : Nat) (bs : List Byte) : Nat := if target = 0 then leAt bs 8 4 else 0
/-- Arithmetic version of an image: a configuration image has none. -/
def imageArith (target : Nat) (bs : List Byte) : Nat := if target = 0 then leAt bs 6 2 else 0
/-- Configuration format of an image. -/
def imageFormat (target : Nat) (bs : List Byte) : Nat := if target = 0 then leAt bs 12 2 else leAt bs 4 2

/-- FW_VERIFY_FAIL (R448). -/
def verifyFail (s : State) (target code : Nat) : State :=
  let bs := slotData s.nvm target (spareSlot s target)
  rangerEvent s 0x0B 0x0B03 noPitch (bootDetail (imageRelease target bs) (spareSlot s target) target code 0 0)

/-- Verify the slot that is not in use: the image is noted as verified, or FW_VERIFY_FAIL is written. -/
def verifySlot (s : State) (target : Nat) (sigOk : Bool) : State × Nat :=
  let bs := slotData s.nvm target (spareSlot s target)
  let code := slotCheck s target sigOk
  if code = rcDone then
    let v : Verified := ⟨target, Config.sha384 (slotImage bs), imageRelease target bs, imageArith target bs, imageFormat target bs, leAt bs 16 8⟩
    ({ s with boot := { s.boot with verified := (s.boot.verified.filter fun x => decide (x.target ≠ target)) ++ [v] } }, code)
  else (verifyFail s target code, code)

/-! ### Chain forwarding (R444) -/

/-- Bytes 0 to 15 of an image digest. -/
def imageId (digest : Nat) : List Byte := (beBytes 48 digest).take 16

/-- The port that leads to a successor, if its management link is up: one of the port's links works (R399, R444). -/
def successorPort (s : State) (device : Nat) : Option Nat := if workingLinks s (portTo s device) = [] then none else some (portTo s device)

/-- The successors of the update chain, in order (R444). -/
def successorsOf (s : State) : List Nat := (s.cfg.map (·.successors)).getD []

/-- The header of a firmware block (R444). -/
def blockHead (op target offset bytes length : Nat) (id : List Byte) : List Byte :=
  leBytes 1 op ++ leBytes 1 target ++ leBytes 2 0 ++ leBytes 4 offset ++ leBytes 2 bytes ++ leBytes 2 0 ++ leBytes 4 length ++ padTo 16 id

/-- Cut an image into blocks of 4,032 bytes. -/
def fwBlocks : Nat → List Byte → List (List Byte)
  | 0, _ => []
  | n + 1, bs => if bs = [] then [] else bs.take 4032 :: fwBlocks n (bs.drop 4032)

/-- Send firmware blocks to a successor; header fields that the spec does not give for this kind are free (notes/assumptions/38.md). -/
def sendBlocksTo (s : State) (d port : Nat) (blocks : List (List Byte)) : State :=
  let (n, s1) := drawNat s
  let (padding, s2) := drawBytes s1 4096
  let head : PacketHead := ⟨4, d, n % 65536, n / 65536 % 256, false, true, n / 2 ^ 24 % 2 ^ 32, 0, 0, 0⟩
  sendPackets s2 port (blocks.map fun b => makePacket (deviceId s2) padding head b)

/-- Forward an operation along a list of successors (R444): one without a working link is skipped, one that refuses the operation has had its first block
and is left, and the first that takes it gets every block. `refusing` are those that refuse; how they say so is not stated (DESIGN CHOICE:
notes/assumptions/39.md). -/
def forwardTo (refusing : List Nat) (blocks : List (List Byte)) : List Nat → State → State
  | [], s => s
  | d :: t, s =>
    match successorPort s d with
    | none => forwardTo refusing blocks t s
    | some port =>
      if d ∈ refusing then forwardTo refusing blocks t (sendBlocksTo s d port (blocks.take 1)) else sendBlocksTo s d port blocks

/-- Forward blocks along the update chain. -/
def sendBlocks (s : State) (refusing : List Nat) (blocks : List (List Byte)) : State := forwardTo refusing blocks (successorsOf s) s

/-- Forward a verified image (R444). -/
def forwardImage (s : State) (refusing : List Nat) (target : Nat) : State :=
  let img := slotImage (slotData s.nvm target (spareSlot s target))
  let id := imageId (Config.sha384 img)
  sendBlocks s refusing (((fwBlocks (img.length / 4032 + 1) img).zipIdx).map fun b =>
    blockHead 0x10 target (4032 * b.2) b.1.length img.length id ++ b.1)

/-- The image that an operation concerns: an ACTIVATE names it, a DISARM or CONFIRM concerns the image that runs (R442, R444; notes/assumptions/39.md). -/
def opImage (s : State) (op : Nat) (msg : List Word) : List Byte :=
  if op = 0x12 then ((List.range 4).map fun k => leBytes 4 (wordAt msg (4 + k))).flatten else imageId (firmwareDigest s)

/-- Forward an ACTIVATE, DISARM or CONFIRM: its data is the message (notes/assumptions/39.md). -/
def forwardOp (s : State) (refusing : List Nat) (op : Nat) (msg : List Word) : State :=
  let data := padTo 64 ((msg.map fun w => leBytes 4 w.toNat).flatten)
  sendBlocks s refusing [blockHead op 0 0 64 0 (opImage s op msg) ++ data]

/-! ### Where update messages come from (R442) -/

/-- A SUBMIT of the management session that is taken: its seq is fresh, and its body is one 64-byte message and up to 8,192 data bytes (R347, R350,
R442). -/
def managementSubmit (s : State) (d : Datagram) : Bool :=
  decide (d.type = 0x03) && isManagement s d.session && datagramOk s d && seqFresh (sessionOf s d.session) d.seq
    && decide (64 ≤ d.body.length ∧ d.body.length ≤ 64 + 8192)

/-- The message of a SUBMIT of the management session, stamped with source class 0x5 (R442). -/
def sessionWords (d : Datagram) : List Word :=
  BitVec.ofNat 32 (leAt d.body 3 1 * 2 ^ 24 + srcManagement) :: (List.range 15).map fun k => BitVec.ofNat 32 (leAt d.body (4 + 4 * k) 4)

/-- Run an update message from its source: a mailbox, or the management session, which answers with a COMPLETE of the return code and the reply
words (notes/assumptions/39.md). The action knows whether the data is inline. -/
def fwRun (s : State) (src : FwSource) (type : Nat) (act : Bool → List Byte → List Word → State → MailResult) (dma : List Byte) : State :=
  match src with
  | .mailbox fn mb posts => mailRun s fn mb type posts (act false dma)
  | .session d =>
    let s1 := atTime s d.now
    if managementSubmit s1 d then
      let msg := sessionWords d
      let t := mailType msg
      let s2 := acceptDatagram s1 d
      let reply (x : MailResult) : State :=
        sendMessage x.state d.session msgComplete (leBytes 4 x.code ++ (x.reply.map fun w => leBytes 4 w.toNat).flatten)
      if t < 0x10 ∨ ¬mailKnown t then reply ⟨s2, rcBadArgument, []⟩
      else if t = type then reply (act true (d.body.drop 64) msg s2)
      else s1
    else s1

/-- A row that runs an update message. -/
def fwRow (s : State) (src : FwSource) (type : Nat) (act : Bool → List Byte → List Word → State → MailResult) (dma : List Byte) : Answer State :=
  if fwSourceOk src then .next (fwRun s src type act dma) else .refused .noSuchUnit

/-- Function of a source whose memory the device reads. -/
def readIova (s : State) (inline : Bool) (iova len : Nat) : State := if inline then s else send s (.dmaRead 0 iova len)

/-- The IOVA of two words. -/
def iovaAt (msg : List Word) (n : Nat) : Nat := wordAt msg n + 2 ^ 32 * wordAt msg (n + 1)

/-- The values of FW_WRITE are allowed (R442). -/
def fwWriteArgs (inline : Bool) (data : List Byte) (msg : List Word) : Bool :=
  let unit := if inline then 8192 else 65536
  decide (wordAt msg 1 < 2) && decide (wordAt msg 2 % unit = 0) && decide (1 ≤ wordAt msg 5 ∧ wordAt msg 5 ≤ unit)
    && decide ((iovaAt msg 3 = 0) = (inline = true)) && decide (wordAt msg 2 + wordAt msg 5 ≤ slotBytes (wordAt msg 1))
    && (!inline || decide (wordAt msg 5 ≤ data.length))

/-- FW_WRITE (R442, R443). -/
def actFwWrite (inline : Bool) (data : List Byte) (msg : List Word) (s : State) : MailResult :=
  let target := wordAt msg 1
  if fwWriteArgs inline data msg = false then ⟨s, rcBadArgument, []⟩
  else if s.pw.onBackup then ⟨s, rcRefusedSupply, []⟩
  else if s.nvm.lock.lock then ⟨s, rcRefusedLock, []⟩
  else if moving s then ⟨s, rcRefusedMoving, []⟩
  else if target = 1 ∧ s.boot.onTrial then ⟨s, rcRefusedState, []⟩
  else
    let s1 := readIova s inline (iovaAt msg 3) (wordAt msg 5)
    let s2 := if wordAt msg 2 = 0 then eraseSlot s1 target else s1
    ⟨writeSlot s2 target (wordAt msg 2) (data.take (wordAt msg 5)), rcDone, []⟩

/-- FW_WRITE. -/
def execFwWrite (src : FwSource) (dma : List Byte) (s : State) : Answer State := fwRow s src 0x10 actFwWrite dma

/-- The words of a digest, bytes in the digest's order (R442). -/
def digestWords (digest : Nat) : List Word := (List.range 12).map fun k => BitVec.ofNat 32 (leAt (beBytes 48 digest) (4 * k) 4)

/-- FW_VERIFY (R442 to R444): the slot is verified, and forwarded when the message asks for it. -/
def actFwVerify (sigOk : Bool) (refusing : List Nat) (_inline : Bool) (_data : List Byte) (msg : List Word) (s : State) : MailResult :=
  let w := wordAt msg 1
  if 4 ≤ w then ⟨s, rcBadArgument, []⟩
  else
    let target := w % 2
    let bs := slotData s.nvm target (spareSlot s target)
    let (s1, code) := verifySlot s target sigOk
    if code = rcDone then
      let s2 := if bitOf w 1 then forwardImage s1 refusing target else s1
      ⟨s2, rcDone, digestWords (Config.sha384 (slotImage bs)) ++
        [BitVec.ofNat 32 (imageRelease target bs), BitVec.ofNat 32 (imageArith target bs + 65536 * imageFormat target bs)]⟩
    else ⟨s1, code, []⟩

/-- FW_VERIFY. -/
def execFwVerify (src : FwSource) (sigOk : Bool) (refusing : List Nat) (s : State) : Answer State := fwRow s src 0x11 (actFwVerify sigOk refusing) []

/-! ### Activation (R440, R445) -/

/-- Every sequence is FREE, or PARKED with an exported image (R445). -/
def allExported (s : State) : Bool :=
  s.seqs.all fun e => decide (e.2.state = .free) || (decide (e.2.state = .parked) && e.2.exported.isSome)

/-- The slot not in use holds a verified image whose digest begins with the ID (R445). -/
def trialReady (s : State) (id : List Byte) : Bool := s.boot.verified.any fun v => decide (v.target = 0 ∧ imageId v.digest = id)

/-- FW_ACTIVATE is accepted (R445). -/
def activateOk (s : State) (time : Nat) (trial : Bool) (id : List Byte) : Bool :=
  decide (s.cairn.count + 10000000000 ≤ time) && (!trial || trialReady s id) && allExported s

/-- Arm a restart, or refuse (R443, R445). -/
def activate (s : State) (msg : List Word) : State × Nat :=
  let time := iovaAt msg 1
  let trial := bitOf (wordAt msg 3) 0
  let id := ((List.range 4).map fun k => leBytes 4 (wordAt msg (4 + k))).flatten
  if 4 ≤ wordAt msg 3 then (s, rcBadArgument)
  else if trial ∧ s.pw.onBackup then (s, rcRefusedSupply)
  else if trial ∧ s.nvm.lock.lock then (s, rcRefusedLock)
  else if moving s then (s, rcRefusedMoving)
  else if activateOk s time trial id = false then (s, rcRefusedState)
  else
    let slot := if trial then spareSlot s 0 else s.boot.slot
    let rel := if trial then imageRelease 0 (slotData s.nvm 0 slot) else s.boot.release
    let s1 := { s with boot := { s.boot with arm := some ⟨time, trial⟩ } }
    (rangerEvent s1 0x0B 0x0B04 noPitch (bootDetail rel slot 0 0 0 0), rcDone)

/-- Forward a message that the module has acted on or refused, when its flag asks for it (R444). -/
def forwarded (s : State) (refusing : List Nat) (op : Nat) (flag : Bool) (msg : List Word) : State := if flag then forwardOp s refusing op msg else s

/-- FW_ACTIVATE (R442 to R445). -/
def actFwActivate (refusing : List Nat) (_inline : Bool) (_data : List Byte) (msg : List Word) (s : State) : MailResult :=
  let (s1, code) := activate s msg
  ⟨forwarded s1 refusing 0x12 (bitOf (wordAt msg 3) 1) msg, code, []⟩

/-- FW_ACTIVATE. -/
def execFwActivate (src : FwSource) (refusing : List Nat) (s : State) : Answer State := fwRow s src 0x12 (actFwActivate refusing) []

/-- FW_DISARM (R442): an arming is cleared. -/
def disarm (s : State) (msg : List Word) : State × Nat :=
  if wordAt msg 1 ≠ 0 ∧ wordAt msg 1 ≠ 2 then (s, rcBadArgument)
  else ({ s with boot := { s.boot with arm := none } }, rcDone)

/-- FW_DISARM. -/
def actFwDisarm (refusing : List Nat) (_inline : Bool) (_data : List Byte) (msg : List Word) (s : State) : MailResult :=
  let (s1, code) := disarm s msg
  ⟨forwarded s1 refusing 0x13 (bitOf (wordAt msg 1) 1) msg, code, []⟩

/-- FW_DISARM. -/
def execFwDisarm (src : FwSource) (refusing : List Nat) (s : State) : Answer State := fwRow s src 0x13 (actFwDisarm refusing) []

/-- The confirmation window is open: the module runs its trial slot and became ready at most window_s seconds ago (R440). -/
def windowOpen (s : State) : Bool :=
  s.boot.onTrial && s.boot.readyAt.any fun t => decide (s.cairn.count ≤ t + (headerOf s.nvm).windowS * 1000000000)

/-- FW_CONFIRM (R440). -/
def confirm (s : State) (msg : List Word) : State × Nat :=
  if wordAt msg 1 ≠ 0 ∧ wordAt msg 1 ≠ 2 then (s, rcBadArgument)
  else if windowOpen s = false then (s, rcRefusedState)
  else
    let h := { headerOf s.nvm with active := s.boot.slot, trial := none, trialStarts := 0 }
    let s1 := { s with nvm := writeHeader s.nvm h, boot := { s.boot with onTrial := false } }
    (rangerEvent s1 0x0B 0x0B06 noPitch (bootDetail s.boot.release s.boot.slot 0 0 0 0), rcDone)

/-- FW_CONFIRM. -/
def actFwConfirm (refusing : List Nat) (_inline : Bool) (_data : List Byte) (msg : List Word) (s : State) : MailResult :=
  let (s1, code) := confirm s msg
  ⟨forwarded s1 refusing 0x14 (bitOf (wordAt msg 1) 1) msg, code, []⟩

/-- FW_CONFIRM. -/
def execFwConfirm (src : FwSource) (refusing : List Nat) (s : State) : Answer State := fwRow s src 0x14 (actFwConfirm refusing) []

/-! ### The owner lock and the status (R441, R442) -/

/-- A lock record is well formed (R441). -/
def lockRecordOk (bs : List Byte) : Bool :=
  decide (bs.length = 4800) && decide (bs.take 4 = ascii "VZLK") && decide (leAt bs 4 1 < 2) && zerosAt bs 5 3 && zerosAt bs 16 60
    && zerosAt bs 4799 1

/-- LOCK_WRITE (R441 to R443): a signature that fails check 6 writes FW_VERIFY_FAIL, of no slot and no release (R448; notes/assumptions/39.md). -/
def actLockWrite (sigOk : Bool) (inline : Bool) (data : List Byte) (msg : List Word) (s : State) : MailResult :=
  let iova := iovaAt msg 1
  if (iova = 0) ≠ (inline = true) then ⟨s, rcBadArgument, []⟩
  else
    let s1 := readIova s inline iova 4800
    if lockRecordOk data = false then ⟨s1, rcBadArgument, []⟩
    else if sigOk = false ∨ s1.nvm.fuses.ownerHash.isNone then
      ⟨rangerEvent s1 0x0B 0x0B03 noPitch (bootDetail 0 noUnit 0 rcAuthFail 0 0), rcAuthFail, []⟩
    else if leAt data 8 8 ≤ s1.nvm.lock.counter then ⟨s1, rcAuthFail, []⟩
    else ⟨{ s1 with nvm := { s1.nvm with lock := ⟨decide (leAt data 4 1 = 1), leAt data 8 8⟩ } }, rcDone, []⟩

/-- LOCK_WRITE. -/
def execLockWrite (src : FwSource) (dma : List Byte) (sigOk : Bool) (s : State) : Answer State := fwRow s src 0x16 (actLockWrite sigOk) dma

/-- Reply word 1 of FW_STATUS (R442). -/
def statusWord (s : State) : Nat :=
  let h := headerOf s.nvm
  h.active % 2 + 2 * (h.trial.getD 3 % 4) + 8 * (h.trialStarts % 2) + (if s.boot.arm.isSome then 16 else 0) + (if s.nvm.lock.lock then 32 else 0)

/-- FW_STATUS (R442): no armed time reads as 0. -/
def actFwStatus (_inline : Bool) (_data : List Byte) (_msg : List Word) (s : State) : MailResult :=
  let t := (s.boot.arm.map (·.time)).getD 0
  ⟨s, rcDone, [BitVec.ofNat 32 (statusWord s), BitVec.ofNat 32 t, BitVec.ofNat 32 (t / 2 ^ 32)]⟩

/-- FW_STATUS. -/
def execFwStatus (src : FwSource) (s : State) : Answer State := fwRow s src 0x17 actFwStatus []

/-! ### FW_ARMED_RESTART (R445) -/

/-- At the armed time the trial changes are made and the module restarts; on VIN_BACKUP it disarms. -/
def doArmedRestart (s : State) (f : BootFindings) : State :=
  match s.boot.arm with
  | none => s
  | some a =>
    if s.cairn.count < a.time then s
    else
      let s1 := { s with boot := { s.boot with arm := none } }
      let slot := if a.trial then spareSlot s 0 else s.boot.slot
      if s.pw.onBackup then
        rangerEvent s1 0x0B 0x0B08 noPitch (bootDetail (imageRelease 0 (slotData s.nvm 0 slot)) slot 0 0 0 0)
      else
        let h := { headerOf s.nvm with trial := some slot, trialStarts := 0 }
        startUp (if a.trial then { s1 with nvm := writeHeader s1.nvm h } else s1) { f with nor := none }

/-- FW_ARMED_RESTART. -/
def execFwArmedRestart (f : BootFindings) (s : State) : Answer State := .next (doArmedRestart (atTime s f.now) f)

/-! ### FIRMWARE_BLOCK (R444) -/

/-- Checks 1 to 4 of R443 for a forwarded write: a refused one is dropped. -/
def writeRefused (s : State) (target : Nat) : Bool :=
  s.pw.onBackup || s.nvm.lock.lock || moving s || (decide (target = 1) && s.boot.onTrial)

/-- The image is complete: the module verifies it, and forwards it in turn, since an image that arrives on the chain was sent with its forward flag set
(R444). -/
def chainDone (s : State) (refusing : List Nat) (c : ChainIn) (sigOk : Bool) : State :=
  let (s1, code) := verifySlot { s with boot := { s.boot with chain := none } } c.target sigOk
  if code = rcDone then forwardImage s1 refusing c.target else s1

/-- A block of a forwarded image: the first one of an image erases the slot. -/
def chainBlock (s : State) (refusing : List Nat) (target offset length id : Nat) (data : List Byte) (sigOk : Bool) : State :=
  if writeRefused s target ∨ slotBytes target < length ∨ length < offset + data.length then s
  else
    let fresh : ChainIn := ⟨id, target, length, []⟩
    let (c, s1) := match s.boot.chain with
      | some c => if c.imageId = id ∧ c.target = target ∧ c.length = length then (c, s) else (fresh, eraseSlot s target)
      | none => (fresh, eraseSlot s target)
    let c1 := { c with received := mset c.received offset data.length }
    let s2 := writeSlot { s1 with boot := { s1.boot with chain := some c1 } } target offset data
    if (c1.received.map (·.2)).sum < length then s2 else chainDone s2 refusing c1 sigOk

/-- FIRMWARE_BLOCK: an image block, or a forwarded ACTIVATE, DISARM or CONFIRM. -/
def doFirmwareBlock (s : State) (refusing : List Nat) (body : List Byte) (sigOk : Bool) : State :=
  let op := leAt body 0 1
  let n := leAt body 8 2
  let data := (body.drop 32).take n
  let msg := (List.range 16).map fun k => BitVec.ofNat 32 (leAt data (4 * k) 4)
  if 2 ≤ leAt body 1 1 ∨ ¬zerosAt body 2 2 ∨ ¬zerosAt body 10 2 ∨ 4032 < n then s
  else if op = 0x10 then chainBlock s refusing (leAt body 1 1) (leAt body 4 4) (leAt body 12 4) (leAt body 16 16) data sigOk
  else if op = 0x12 then forwarded (activate s msg).1 refusing op (bitOf (wordAt msg 3) 1) msg
  else if op = 0x13 then forwarded (disarm s msg).1 refusing op (bitOf (wordAt msg 1) 1) msg
  else if op = 0x14 then forwarded (confirm s msg).1 refusing op (bitOf (wordAt msg 1) 1) msg
  else s

/-- FIRMWARE_BLOCK. -/
def execFirmwareBlock (pkt : List Byte) (sigOk : Bool) (refusing : List Nat) (s : State) : Answer State :=
  .next (withPacket s 4 pkt fun l => pump (doFirmwareBlock (takePacket s l pkt) refusing (packetBody pkt) sigOk))

end Sys2Proof.Machine
end

