-- ==== Sys2Proof/Machine/Registers.lean ====
section
/-! DEFINITION. What a read of a register gives (R8, R9, R412 to R415, R417, R450, R482): write-only fields, reserved fields and bytes that no
table names read as zero. The one row that reads a register is CAIRN_LO_READ, since its read changes the state. -/

namespace Sys2Proof.Machine

/-- A number with the value v from bit n on. -/
def field (v n : Nat) : Nat := v * 2 ^ n

/-- A flag at bit n. -/
def flagAt (b : Bool) (n : Nat) : Nat := if b then 2 ^ n else 0

/-! ### Identity, status and rings (R413, R414) -/

/-- Some pitch is sealed, or for a VF its own. -/
def sealedFor (s : State) (fn : Nat) : Bool := s.cfg.any fun c => c.pitches.any fun r => r.sealed && (decide (fn = 0) || decide (r.pitch + 1 = fn))

/-- The status register (R413). -/
def statusRegister (s : State) (fn : Nat) : Nat :=
  flagAt s.boot.ready 0 + flagAt s.pw.onBackup 1 + flagAt s.boot.configRefused 2 + flagAt s.nvm.lock.lock 3 + flagAt (moving s) 4
    + flagAt (sealedFor s fn) 5

/-- An identity or status register by its offset (R413). -/
def identityRegister (s : State) (fn offset : Nat) : Nat :=
  let f := fnOf s fn
  if offset = 0x000 then 0x00A18100
  else if offset = 0x004 then 0x0001 + field s.boot.release 16
  else if offset = 0x008 then statusRegister s fn
  else if offset = 0x00C then s.mem.n % 2 ^ 11
  else if offset = 0x010 then s.cairn.count % 2 ^ 32
  else if offset = 0x014 then f.cairnHi
  else if offset = 0x018 then deviceId s
  else if offset = 0x01C then fn + field (if fn = 0 then 0xFF else fn - 1) 8 + flagAt f.attached 16
  else if fn ≠ 0 then 0
  else if offset = 0x020 then s.ev.written
  else if offset = 0x024 then f.eventVector + flagAt f.eventInt 16
  else 0

/-- A ring status register (R414). -/
def ringRegister (k : Option Ring) : Nat :=
  match k with
  | none => 0
  | some k => k.position % 2 ^ 16 + field (if k.fetchError then 2 else 1) 16

/-! ### MSI-X, mailboxes and the event window (R412, R417, R422, R450) -/

/-- A word of the MSI-X table. -/
def msixWord (x : MsixEntry) (word : Nat) : Nat :=
  if word = 0 then x.address % 2 ^ 32
  else if word = 1 then x.address / 2 ^ 32
  else if word = 2 then x.data
  else flagAt x.masked 0

/-- A word of the pending-bit array. -/
def pbaWord (f : Function) (word : Nat) : Nat :=
  ((List.range 32).map fun k => flagAt (mgetD f.msix (32 * word + k) freshMsix).waiting k).sum

/-- The code of a mailbox state (R417). -/
def mailStateCode : MailState → Nat
  | .empty => 0
  | .posted => 1
  | .taken => 2
  | .takenPosted => 3

/-- A word of a mailbox block by its offset (R417): msg is write-only. -/
def mailRegister (m : Mailbox) (o : Nat) : Nat :=
  if 64 ≤ o ∧ o < 128 then wordAt m.reply ((o - 64) / 4)
  else if o = 128 then mailStateCode m.state + flagAt m.collision 2 + field m.postedSeq 8
  else if o = 132 then m.ackCode + field m.ackSeq 16 + flagAt m.ackValid 24
  else if o = 136 then m.vector + flagAt m.ackInt 16
  else 0

/-- The record of the event window at place i: the latest of those with that number modulo 1,024 (R413). -/
def windowRecord (s : State) (i : Nat) : List Byte :=
  let n := s.ev.window.length
  let first := (s.ev.written + 2 ^ 32 - n) % 2 ^ 32
  ((s.ev.window.zipIdx.find? fun x => decide ((first + x.2) % 1024 = i)).map fun x => eventBytes x.1).getD (List.replicate 32 0#8)

/-- A word of the configuration space (R407; offsets: DESIGN CHOICE: notes/assumptions/8.md): vendor and device ID, the MSI-X
control, and on the PF AER, SR-IOV and Link IDE. -/
def configRegister (s : State) (fn offset : Nat) : Nat :=
  let f := fnOf s fn
  if offset = 0 then Config.vendorId % 2 ^ 16 + field (if fn = 0 then 0x8100 else 0x8101) 16
  else if offset = 0x40 then 0x11 + field (vectorsOf fn - 1) 16 + flagAt f.msixMask 30 + flagAt f.msixEnable 31
  else if fn ≠ 0 then 0
  else if offset = 0x104 then s.host.aer.toNat
  else if offset = 0x168 then flagAt s.host.vfEnable 0
  else if offset = 0x16C then 64 + field 64 16
  else if offset = 0x170 then s.host.numVfs
  else if offset = 0x174 then 1 + field 1 16
  else if offset = 0x178 then field 0x8101 16
  else if offset = 0x20C then flagAt s.host.ide 0
  else 0

/-! ### A read -/

/-- The 32-bit word that a read of a register gives (R8, R9, R412); `offset` is a multiple of 4. The doorbells of BAR2 are write-only (R415). -/
def readRegister (s : State) (fn bar offset : Nat) : Word :=
  let f := fnOf s fn
  let v : Nat :=
    if bar = configSpace then configRegister s fn offset
    else if bar ≠ 0 ∨ barSize fn bar ≤ offset then 0
    else if offset < 0x1000 then identityRegister s fn offset
    else if offset < 0x1040 then ringRegister (mget f.sub ((offset - 0x1000) / 4))
    else if offset < 0x1080 then ringRegister (mget f.comp ((offset - 0x1040) / 4))
    else if 0x2000 ≤ offset ∧ offset < 0x2000 + 16 * vectorsOf fn then
      msixWord (mgetD f.msix ((offset - 0x2000) / 16) freshMsix) (offset % 16 / 4)
    else if 0x2800 ≤ offset ∧ offset < 0x2800 + vectorsOf fn / 8 then pbaWord f ((offset - 0x2800) / 4)
    else if 0x100000 ≤ offset ∧ offset < 0x108000 ∧ fn = 0 then leAt (windowRecord s ((offset - 0x100000) / 32)) (offset % 32) 4
    else if 0x10000 ≤ offset ∧ mailOk fn ((offset - 0x10000) / 256) then mailRegister (mailOf s fn ((offset - 0x10000) / 256)) (offset % 256)
    else 0
  BitVec.ofNat 32 v

/-- A register of the supply controller (R482): the hottest junction is in whole degrees. -/
def supplyRegister (s : State) (offset : Nat) : Word :=
  let p := s.pw
  let point := (p.dies.map (·.point)).foldl max 0
  let hot := (p.dies.map fun d => (d.junction / 16).toNat).foldl max 0
  BitVec.ofNat 32
    (if offset = 0 then
      flagAt p.mainGood 0 + flagAt p.backupGood 1 + flagAt p.onBackup 2 + flagAt p.trip 3 + flagAt p.powerLoss 4 + field (point % 8) 5
        + field (p.inlet % 256) 8 + field (hot % 256) 16 + field s.boot.straps.toNat 24
    else if offset = 4 then p.power % 2 ^ 16
    else 0)

/-- CAIRN_LO_READ (R413): the read gives bits [31:0] of the count, and cairn_hi latches bits [63:32]. -/
def execCairnLoRead (fn : Nat) (s : State) : Answer State :=
  if fnOk fn then
    if s.host.up ∧ fnExists s fn then
      .next (send (putFn s fn { fnOf s fn with cairnHi := s.cairn.count / 2 ^ 32 % 2 ^ 32 }) (.read (readRegister s fn 0 0x010)))
    else .next s
  else .refused .noSuchUnit

end Sys2Proof.Machine
end

