-- ==== Sys2Proof/Machine/Ethernet.lean ====
section
/-! DEFINITION. The Ethernet ports (R400) with the request transport (R347 to R351), neighbour discovery, and the SPDM responder (R446, R447).
Choices the spec leaves: notes/assumptions/40.md, 41.md. -/

namespace Sys2Proof.Machine

/-! ### Sessions that open and are lost (R314, R349, R350) -/

/-- Abort the parks to a session (R314). -/
def abortSessionParks (n : Nat) : List Nat → State → State
  | [], s => s
  | i :: t, s =>
    abortSessionParks n t (match (seqOf s i).park with
      | none => s
      | some k => if k.destKind = 2 ∧ k.session = n then abortPark s i rcIntegrityFail 0 false else s)

/-- The session is lost or its key is dropped: parks abort, and completions that were not acknowledged wait for the next OPEN. -/
def dropSession (s : State) (n : Nat) : State :=
  let x := sessionOf s n
  let waiting := (x.unacked.filter fun u => decide (u.type = msgComplete)).map (·.body)
  let s1 := putSession s n { x with lost := true, held := waiting ++ x.held, unacked := [], ackDue := none }
  abortSessionParks n (s1.seqs.map (·.1)) s1

/-- Send the completions that waited. -/
def sendHeld (n : Nat) : List (List Byte) → State → State
  | [], s => s
  | b :: t, s => sendHeld n t (sendMessage s n msgComplete b)

/-- OPEN (R349): a new session key from both sides' random bytes, with seq from 1 in both directions; parks on the old key abort. -/
def doOpen (s : State) (d : Datagram) : State :=
  if d.type = 0x01 ∧ knownDatagram s d ∧ d.tagOk ∧ d.body.length = 16 then
    let s1 := dropSession s d.session
    let (rd, s2) := drawBytes s1 16
    let x := sessionOf s2 d.session
    let s3 := putSession s2 d.session { x with
      isOpen := true, lost := false, key := sessionKey (sessionTransportKey s2 d.session) d.session d.body rd, rh := d.body, rd := rd
      txSeq := 1, highest := 1, contiguous := 1, accepted := [], unacked := [], held := [], images := [] }
    sendHeld d.session x.held (sendMessage s3 d.session msgOpenAck rd)
  else s

/-- OPEN. -/
def execOpenSession (d : Datagram) (s : State) : Answer State := .next (doOpen (atTime s d.now) d)

/-! ### SUBMIT (R348, R351) -/

/-- The bytes of a request from an offset within it. -/
def partAt (req : List Byte) (o n : Nat) : List Byte := (req.drop o).take n

/-- What an assembled request holds: entry, parameter block, bitmap, and tokens, descriptor or output buffer, found by the offsets in it (R348). A request whose
out_address is not zero has no valid parameter block. -/
def assembled (req : List Byte) : FetchedData :=
  let e := entryOf (req.take 64)
  let ps := partAt req e.params 64
  let gen := generates e.opcode
  let n := if gen then 4 * e.count else if e.opcode = 5 then 32 else if e.opcode = 6 then 32 * e.count else if e.opcode = 7 then req.length else 0
  { entry := padTo 64 (req.take 64)
    params := if gen ∧ leAt ps 16 8 = 0 then ps else []
    bitmap := if gen ∧ leAt ps 24 8 ≠ 0 then partAt req (leAt ps 24 8) (ceilDiv (leAt ps 32 4) 8) else []
    data := partAt req e.data n }

/-- A part of a tag joins those that have arrived; with every part the request is accepted (R340, R351). -/
def takePart (s : State) (n p : Nat) (body : List Byte) : State :=
  let tag := leAt body 0 4
  let part := leAt body 4 2
  let parts := leAt body 6 2
  let x := sessionOf s n
  let old : PartialSubmit := (x.submits.find? fun w => decide (w.tag = tag)).getD ⟨tag, parts, []⟩
  let others := x.submits.filter fun w => decide (w.tag ≠ tag)
  let new : PartialSubmit := { old with got := if (mget old.got part).isSome then old.got else mset old.got part (body.drop 8) }
  if new.got.length < new.parts then putSession s n { x with submits := others ++ [new] }
  else acceptEntry (putSession s n { x with submits := others }) (.session n) p (assembled ((new.got.map (·.2)).flatten))

/-- SUBMIT (R348, R351, R442): a part of a request; on the management session the message is acted on by its own row. -/
def doSubmit (s : State) (d : Datagram) : State :=
  if d.type = 0x03 ∧ datagramOk s d ∧ seqFresh (sessionOf s d.session) d.seq = false ∧ d.seq ≤ (sessionOf s d.session).highest then
    putSession s d.session { sessionOf s d.session with ackDue := some (s.cairn.count + 100000) }
  else if isManagement s d.session then s
  else
    withDatagram s d 0x03 fun s =>
      match sessionPitch s d.session with
      | none => s
      | some p => if d.body.length < 8 then s else takePart s d.session p d.body

/-- SUBMIT. -/
def execSubmitPart (d : Datagram) (s : State) : Answer State := .next (doSubmit (atTime s d.now) d)

/-! ### Other messages (R348, R350) -/

/-- ACK (R350): it acknowledges the device's messages. -/
def execAckMsg (d : Datagram) (s : State) : Answer State := .next (withDatagram s d msgAck id)

/-- Image bytes that have arrived for a tag, at their offset (R348). -/
def storeImage (s : State) (n : Nat) (body : List Byte) : State :=
  let x := sessionOf s n
  let tag := leAt body 0 4
  putSession s n { x with images := mset x.images tag (mset (mgetD x.images tag []) (leAt body 8 8) (body.drop 16)) }

/-- IMAGE_DATA (R348): image bytes arrive for a resume from the session. -/
def execImageData (d : Datagram) (s : State) : Answer State :=
  .next (withDatagram s d msgImageData fun s => if d.body.length < 16 then s else storeImage s d.session d.body)

/-- INVALID_DATAGRAM (R350, R363): it is dropped; a failed tag writes SESSION_AUTH, the first in each Cairn second. -/
def doInvalidDatagram (s : State) (d : Datagram) : State :=
  if knownDatagram s d ∧ d.tagOk = false then
    eventOnce s 0x0A01 0 fun s =>
      writeEvent s (if isManagement s d.session then srcManagement else srcSession d.session) 0x0C 0x0A01 ((sessionPitch s d.session).getD noPitch)
        (servingDetail 0 0 d.session 0 0)
  else s

/-- INVALID_DATAGRAM. -/
def execInvalidDatagram (d : Datagram) (s : State) : Answer State := .next (doInvalidDatagram (atTime s d.now) d)

/-- ACK_TIMER (R350): an ACK for messages that have not been acknowledged. -/
def doAckTimer (s : State) (n : Nat) : State :=
  let x := sessionOf s n
  if sessionLive x ∧ x.ackDue.isSome then sendMessage s n msgAck [] else s

/-- ACK_TIMER. -/
def execAckTimer (session now : Nat) (s : State) : Answer State := .next (doAckTimer (atTime s now) session)

/-- Send the messages again that have waited 2 ms, unchanged (R350). -/
def resendDue (n now : Nat) : List Unacked → State → State
  | [], s => s
  | u :: t, s =>
    if u.sentAt + 2000000 ≤ now then
      let x := sessionOf s n
      let again := x.unacked.map fun v => if v.seq = u.seq then { v with sentAt := now, attempts := v.attempts + 1 } else v
      resendDue n now t (send (putSession s n { x with unacked := again })
        (.datagram (datagramHead s n) n u.type u.seq u.ack u.body (wireBytes s n u.type u.seq u.ack u.body)))
    else resendDue n now t s

/-- SESSION_LOST (R350, R363). -/
def sessionLost (s : State) (n : Nat) : State :=
  writeEvent (dropSession s n) (if isManagement s n then srcManagement else srcSession n) 0x0C 0x0A02 ((sessionPitch s n).getD noPitch)
    (servingDetail 0 0 n 0 0)

/-- DATAGRAM_RESEND (R350): after 32 attempts the session is lost. -/
def doResend (s : State) (n : Nat) : State :=
  let x := sessionOf s n
  if sessionLive x = false then s
  else if x.unacked.any fun u => decide (32 ≤ u.attempts ∧ u.sentAt + 2000000 ≤ s.cairn.count) then sessionLost s n
  else resendDue n s.cairn.count x.unacked s

/-- DATAGRAM_RESEND. -/
def execDatagramResend (session now : Nat) (s : State) : Answer State := .next (doResend (atTime s now) session)

/-! ### Ports (R400, R406) -/

/-- ETH_LINK (R400, R406): the link of a configured port goes up or down; its sessions stay. -/
def doEthLink (s : State) (port : Nat) (up : Bool) : State :=
  if (s.cfg.bind fun c => c.eth[port]?).any (·.inUse) ∧ s.eth.up.getD port false ≠ up then
    let s1 := { s with eth := { s.eth with up := s.eth.up.set port up } }
    rangerEvent s1 0x06 0x0C09 noPitch (fabricDetail port 0xFF 0 0 (s1.eth.up.filter id).length 0)
  else s

/-- ETH_LINK. -/
def execEthLink (port : Nat) (up : Bool) (s : State) : Answer State :=
  if ethOk port then .next (doEthLink s port up) else .refused .noSuchUnit

/-- Neighbour advertisement. -/
def icmpAdvertise : Nat := 136
/-- Echo request. -/
def icmpEcho : Nat := 128
/-- Echo reply. -/
def icmpEchoReply : Nat := 129
/-- Packet too big. -/
def icmpTooBig : Nat := 2

/-- A neighbour has been learnt. -/
def learnNeighbour (s : State) (a : List Byte) : State :=
  if a ∈ s.eth.neighbours then s else { s with eth := { s.eth with neighbours := s.eth.neighbours ++ [a] } }

/-- The address under which a port takes a solicitation: its own, or the solicited-node multicast address of it (RFC 4861). -/
def solicitedNode (a : List Byte) : List Byte :=
  [0xFF#8, 0x02#8] ++ List.replicate 9 0#8 ++ [0x01#8, 0xFF#8] ++ a.drop 13

/-- A message of at most a frame's 9,018 bytes: Ethernet header and check, IPv6 header, and the ICMPv6 header of an echo (R400). -/
def icmpFits (m : IcmpMessage) : Bool := decide (m.payload.length ≤ 9018 - 18 - 40 - 8)

/-- ICMPV6_MESSAGE (R400): discovery and echo are answered, packet-too-big lowers the path's MTU, other messages are dropped. -/
def doIcmp (s : State) (m : IcmpMessage) : State :=
  match s.cfg.bind fun c => c.eth[m.port]? with
  | none => s
  | some e =>
    let dest := if m.type = icmpSolicit ∧ m.dest = solicitedNode e.address then e.address else m.dest
    let h := frameHead s m.port m.source
    if frameReaches s m.port m.vlan dest = false ∨ icmpFits m = false then s
    else if m.type = icmpEcho then send (solicit s h) (.icmp h icmpEchoReply m.source m.payload)
    else if m.type = icmpSolicit then
      (if m.target = e.address then send (learnNeighbour s m.source) (.icmp h icmpAdvertise m.source e.address) else s)
    else if m.type = icmpAdvertise then learnNeighbour s m.target
    else if m.type = icmpTooBig then { s with eth := { s.eth with pathMtu := mset s.eth.pathMtu (leVal m.target) m.value } }
    else s

/-- ICMPV6_MESSAGE. -/
def execIcmpv6Message (m : IcmpMessage) (s : State) : Answer State :=
  if ethOk m.port then .next (doIcmp s m) else .refused .noSuchUnit

/-! ### SPDM (R446, R447; codes and framing of DMTF SPDM 1.3: PRESUMED: notes/assumptions/41.md) -/

/-- The measurements of R447, by index from 1. -/
def measurements (s : State) : List (List Byte) :=
  let f := s.nvm.fuses
  [beBytes 48 f.romDigest, beBytes 48 (firmwareDigest s),
    if s.boot.configRefused then List.replicate 48 0#8 else beBytes 48 ((s.cfg.map (·.digest)).getD 0),
    beBytes 48 (f.ownerHash.getD 0), leBytes 4 f.minRelease ++ leBytes 1 0xA1]

/-- An SPDM message: version 1.3, code, two parameters and a body. -/
def spdmMessage (code p1 p2 : Nat) (body : List Byte) : List Byte := leBytes 1 0x13 ++ leBytes 1 code ++ leBytes 1 p1 ++ leBytes 1 p2 ++ body

/-- The supported requests after GET_VERSION and GET_CAPABILITIES. -/
def spdmAfterAlgorithms (code : Nat) : Bool := decide (code = 0x81 ∨ code = 0x82 ∨ code = 0x83 ∨ code = 0xE0)

/-- The certificate chain of a slot: slot 0 holds the P-384 chain, slot 1 the ML-DSA-65 chain (R447). -/
def certChain (n : Nvm) (slot : Nat) : List Byte := if slot = 0 then n.certs else if slot = 1 then n.pqCerts else []

/-- The body of ALGORITHMS: DMTF measurements, ECDSA P-384 and SHA-384 are selected, and nothing else (R447; DMTF SPDM 1.3: PRESUMED:
notes/assumptions/41.md). -/
def spdmAlgorithmBody : List Byte :=
  leBytes 2 36 ++ leBytes 1 1 ++ leBytes 1 0 ++ leBytes 4 4 ++ leBytes 4 0x80 ++ leBytes 4 2 ++ leBytes 16 0

/-- The certificate chain that a slot answers with: the stored one, and the certificate of the running firmware's alias key (R446, R447; PRESUMED:
notes/assumptions/41.md). -/
def spdmChain (s : State) (slot : Nat) : List Byte :=
  certChain s.nvm slot ++ match s.boot.identity with
    | none => []
    | some d => if slot = 0 then d.aliasCert else if slot = 1 then d.aliasPqCert else []

/-- A body with the ECDSA P-384 signature of the alias key over it (R446, R447; what is signed: PRESUMED: notes/assumptions/41.md). -/
def spdmSigned (s : State) (body : List Byte) : List Byte :=
  body ++ match s.boot.identity with
    | none => []
    | some d => Config.ecdsaP384 d.aliasEc.secretPart body

/-- The SHA-384 digest of a slot's chain. -/
def chainDigest (s : State) (slot : Nat) : List Byte := beBytes 48 (Config.sha384 (spdmChain s slot))

/-- The body of a response: digests and chains of the two slots, a signed challenge, or measurements, signed where the request asks for it; bytes that the
spec leaves to the standard are free. -/
def spdmBody (s : State) (r : SpdmRequest) (free : List Byte) : List Byte :=
  if r.code = 0x81 then chainDigest s 0 ++ chainDigest s 1
  else if r.code = 0x82 then spdmChain s (r.param1 % 16)
  else if r.code = 0x83 then spdmSigned s (chainDigest s (r.param1 % 16) ++ free)
  else if r.code = 0xE0 then
    let b := (if r.param2 = 0 then [] else if r.param2 = 0xFF then (measurements s).flatten else (measurements s).getD (r.param2 - 1) []) ++ free
    if bitOf r.param1 0 then spdmSigned s b else b
  else free

/-- A bus over which the responder answers: PCIe VDM to the PF, I3C, or the management session (R447). -/
def spdmReachable (s : State) (transport : Nat) : Bool :=
  if transport = 0 then s.host.up
  else if transport = 1 then s.pw.vaux
  else decide (transport = 2) && (s.cfg.bind (·.management)).any fun e => sessionLive (sessionOf s e.session)

/-- SPDM_REQUEST (R447). -/
def doSpdm (s : State) (r : SpdmRequest) : State :=
  if spdmReachable s r.transport = false then s
  else
    let reply (s : State) (bytes : List Byte) : State := send s (.spdm r.transport bytes)
    let (free, s1) := drawBytes s 256
    if r.code = 0x84 then
      reply { s1 with ranger := { s1.ranger with spdmVersion := true, spdmAlgorithms := false } } (leBytes 1 0x10 ++ leBytes 1 0x04 ++ leBytes 2 0 ++ free)
    else if s.ranger.spdmVersion ∧ (r.code = 0xE1 ∨ r.code = 0xE3) then
      reply { s1 with ranger := { s1.ranger with spdmAlgorithms := s1.ranger.spdmAlgorithms || decide (r.code = 0xE3) } }
        (spdmMessage (r.code - 0x80) 0 0 (if r.code = 0xE3 then spdmAlgorithmBody else free))
    else if s.ranger.spdmAlgorithms ∧ spdmAfterAlgorithms r.code then reply s1 (spdmMessage (r.code - 0x80) r.param1 r.param2 (spdmBody s r free))
    else reply s (spdmMessage 0x7F (if spdmAfterAlgorithms r.code ∨ r.code = 0xE1 ∨ r.code = 0xE3 then 0x04 else 0x07) 0 [])

/-- SPDM_REQUEST. -/
def execSpdmRequest (r : SpdmRequest) (s : State) : Answer State := .next (doSpdm s r)

end Sys2Proof.Machine
end

