-- ==== Sys2Proof/Machine/MemRows.lean ====
section
/-! DEFINITION. What the memory system does on its own (R247 to R261, R374, R453, R460 to R463): capacity ports that fail, patrol scrub, stack
temperatures, retention, scrubs of freed ranges, Ranger lockstep, and the sectors of the critical-event ring. Choices the spec leaves:
notes/assumptions/42.md. -/

namespace Sys2Proof.Machine

/-! ### Capacity ports (R258) -/

/-- Change a capacity port. -/
def onPort (s : State) (q : Nat) (f : CapPort → CapPort) : State :=
  { s with mem := { s.mem with ports := s.mem.ports.zipIdx.map fun x => if x.2 = q then f x.1 else x.1 } }

/-- A capacity port. -/
def portAt (s : State) (q : Nat) : CapPort := s.mem.ports.getD q CapPort.reset

/-- CXL_LINK_DOWN (R258): the link retrains once, and accesses wait. -/
def execCxlLinkDown (port now : Nat) (s : State) : Answer State :=
  if portOk port then
    let s1 := atTime s now
    if (portAt s port).state = .up then .next (onPort s1 port fun k => { k with state := .retraining, downSince := some s1.cairn.count })
    else .next s1
  else .refused .noSuchUnit

/-- 100 ms have passed since a port went down (R258). -/
def portOverdue (s : State) (k : CapPort) : Bool := k.downSince.all fun t => decide (t + 100000000 < s.cairn.count)

/-- CXL_RETRAIN_DONE (R258): within 100 ms the link returns, and the accesses complete. -/
def execCxlRetrainDone (port now : Nat) (s : State) : Answer State :=
  if portOk port then
    let s1 := atTime s now
    if (portAt s port).state = .retraining ∧ portOverdue s1 (portAt s port) = false then
      .next (onPort s1 port fun k => { k with state := .up, downSince := none })
    else .next s1
  else .refused .noSuchUnit

/-- A range on a lost port is no longer the pitch's: nothing can scrub it. -/
def dropRange (s : State) (p a : Nat) : State := onPitch s p fun x => { x with allocated := mdel x.allocated a }

/-- A page whose warm copy was on a lost port: BOTH, and a demotion under way, become HOT; WARM and PROMOTING pages are lost (R258). -/
def loseWarm (s : State) (p n : Nat) : State :=
  let g := pageOf s p n
  let s1 := dropRange s p g.warm
  match g.state with
  | .both => putPage s1 p n { g with state := .hot, warm := 0 }
  | .demoting => if g.doomed then freePage (putPage s1 p n { g with warm := 0 }) p n else putPage s1 p n { g with state := .hot, warm := 0 }
  | .warm => pageLost (putPage s1 p n { g with warm := 0 }) p n 1 0x0402
  | .promoting => pageLost (freeRange (putPage s1 p n { g with warm := 0, hot := 0 }) p g.hot) p n 1 0x0402
  | _ => s

/-- The warm copies of a pitch's pages on a port. -/
def loseWarms (q p : Nat) : List Nat → State → State
  | [], s => s
  | n :: t, s =>
    let a := pitchDa s p (pageOf s p n).warm
    loseWarms q p t (if (pageOf s p n).warm ≠ 0 ∧ portBase q ≤ a ∧ a < portBase (q + 1) then loseWarm s p n else s)

/-- The pages of every pitch of a list. -/
def loseAllWarm (q : Nat) : List Nat → State → State
  | [], s => s
  | p :: t, s => loseAllWarm q t (loseWarms q p ((pitchOf s p).pages.map (·.1)) s)

/-- CXL_PORT_LOST (R258, R262): after 100 ms the port is lost until the next start. -/
def doPortLost (s : State) (q : Nat) : State :=
  if (portAt s q).state = .retraining ∧ portOverdue s (portAt s q) then
    let s1 := onPort s q fun k => { k with state := .lost }
    let s2 := rangerEvent s1 0x05 0x0705 noPitch (memDetail 0 3 q 0 noPosition 0)
    loseAllWarm q (s2.pitches.map (·.1)) s2
  else s

/-- CXL_PORT_LOST. -/
def execCxlPortLost (port now : Nat) (s : State) : Answer State :=
  if portOk port then .next (doPortLost (atTime s now) port) else .refused .noSuchUnit

/-! ### Patrol scrub (R250 to R252) -/

/-- An uncorrectable word that the scrub finds (R251, R252): as if in-order data had read it. -/
def scrubBad (s : State) (da : Nat) (address : Bool) (content : HbmContent) (poison : Bool) : State :=
  contentBad (hbmBad s (srcRanger s) da address) da false poison content

/-- The codeword that HBM holds for the word at a DA: 16 data symbols and the three check symbols that its write formed (R249). -/
def storedSymbols (s : State) (da : Nat) : List Nat :=
  let bs := peekBytes s da 32
  dataSymbols bs ++ checkSymbols da bs

/-- The symbols that a read returns: the stored ones with the errors that the array has put on them. -/
def readSymbols (s : State) (da : Nat) (errors : List (BitVec 16)) : List (BitVec 16) :=
  (storedSymbols s da).zipIdx.map fun x => BitVec.ofNat 16 x.1 ^^^ errors.getD x.2 0#16

/-- PATROL_SCRUB of an HBM word (R250, R251): a corrected word is written back, and an uncorrectable one is acted on by what it holds. -/
def doPatrolScrub (s : State) (da : Nat) (errors : List (BitVec 16)) (content : HbmContent) (poison : Bool) : State :=
  let symbols := readSymbols s da errors
  match checkWord da symbols with
  | .clean => s
  | .corrected symbol value => hbmCorrected (pokeBytes s da (correctedBytes symbols symbol value)) (srcRanger s) da symbol
  | .uncorrectable => scrubBad s da false content poison
  | .address => scrubBad s da true content poison

/-- PATROL_SCRUB (R251); the scrub's access waits as any other does. -/
def execPatrolScrub (da : Nat) (errors : List (BitVec 16)) (content : HbmContent) (poison : Bool) (s : State) : Answer State :=
  if s.mem.n * 2 ^ 30 ≤ da ∨ da % 32 ≠ 0 then .fault .daUnmapped
  else .next (rangerAccess s [(da, 32)] fun s1 => doPatrolScrub s1 da errors content poison)

/-! ### Stack temperature (R247, R248, R473) -/

/-- The multiplier that a reading asks for, from the one in force, in 1/16 °C (R247). -/
def nextMult (m : Nat) (t : Int) : Nat :=
  let up := if 16 * 95 ≤ t then 4 else if 16 * 85 ≤ t then 2 else 1
  let stays := if m = 4 ∧ 16 * 92 < t then 4 else if 2 ≤ m ∧ 16 * 82 < t then 2 else 1
  max up stays

/-- Stack throttle after a reading (R247, R248). -/
def nextThrottle (on : Bool) (t : Int) : Bool := decide (16 * 105 ≤ t) || (on && decide (16 * 102 < t))

/-- Whole degrees of a reading, as a byte. -/
def degrees (t : Int) : Nat := unsignedOf 8 (t / 16)

/-- Change a die. -/
def onDie (s : State) (d : Nat) (f : Die → Die) : State :=
  { s with pw := { s.pw with dies := s.pw.dies.zipIdx.map fun x => if x.2 = d then f x.1 else x.1 } }

/-- A die. -/
def dieAt (s : State) (d : Nat) : Die := s.pw.dies.getD d Die.reset

/-- The highest point that the coolant class allows, one lower while COOLANT_HIGH holds (R469, R473). -/
def classCap (s : State) : Nat :=
  let c := ((s.cfg.map (·.power.coolant)).map fun k => (coolantRange k).2.2).getD 0
  if s.pw.coolantHigh then c - 1 else c

/-- The sealed pitches (R378). -/
def sealedPitches (s : State) : List PitchRecord := ((s.cfg.map (·.pitches)).getD []).filter (·.sealed)

/-- The governor runs: phase 9 has passed (R470). -/
def governs (s : State) : Bool := decide (10 ≤ s.boot.phase ∧ s.boot.phase ≤ 12)

/-- The highest point that the rules other than the input limit leave a die (R378, R473, R476): a hot stack holds it at the point to which it fell. -/
def dieCap (s : State) (d : Nat) : Nat :=
  let sealed_ := ((s.cfg.map (·.power.sealedPoint)).getD 0)
  let c := if sealedPitches s = [] then classCap s else min (classCap s) sealed_
  let x := dieAt s d
  if x.throttled ∨ x.limited then x.point else if x.hot then min c x.hotPoint else c

/-- Set a die's point; the moment of the last change of any point is noted (R473). A lower point is that of the rule which lowers: none that the stack
rule took is given back any more (DEDUCED: notes/assumptions/43.md). -/
def setPoint (s : State) (d point : Nat) : State :=
  if (dieAt s d).point = point then s
  else
    let s1 := onDie s d fun x => { x with point := point, hotTook := x.hotTook && decide (x.point < point) }
    { s1 with pw := { s1.pw with lastChange := s1.cairn.count } }

/-- A stack above 100 °C lowers its die one point (R473); a die at point 0 has none to give. -/
def stackHot (s : State) (k : Nat) (t : Int) : State :=
  let d := k / 2
  if (dieAt s d).hot then s
  else
    let q := (dieAt s d).point
    let p := q - 1
    let s1 := onDie (setPoint s d p) d fun x => { x with hot := true, hotPoint := p, hotTook := decide (0 < q) }
    rangerEvent s1 0x09 0x0F15 noPitch (powerDetail k p t 0 s.pw.power)

/-- A stack has read 97 °C or lower for 1 s. -/
def stackCool (s : State) (k : Nat) : Bool :=
  ((s.mem.hbmStacks.getD k Stack.reset).coolSince).any fun t => decide (t + 1000000000 ≤ s.cairn.count)

/-- Both stacks of a die are cool: the point that the stack rule took is given back, as far as the other rules allow (R473), and never before phase 9 has
passed (R470). -/
def stackRestore (s : State) (d : Nat) : State :=
  let x := dieAt s d
  if x.hot ∧ stackCool s (2 * d) ∧ stackCool s (2 * d + 1) then
    let s1 := onDie s d fun x => { x with hot := false, hotTook := false }
    if x.hotTook ∧ governs s then setPoint s1 d (min (dieCap s1 d) (x.point + 1)) else s1
  else s

/-- STACK_TEMPERATURE_READING (R247, R248, R473); the reading is in 1/16 °C. -/
def doStackReading (s : State) (k : Nat) (t : Int) : State :=
  let old := s.mem.hbmStacks.getD k Stack.reset
  let m := nextMult old.mult t
  let thr := nextThrottle old.throttle t
  let cool := if t ≤ 16 * 97 then some (old.coolSince.getD s.cairn.count) else none
  let s1 := { s with mem := { s.mem with hbmStacks := s.mem.hbmStacks.set k ⟨t, m, thr, cool⟩ } }
  let s2 := if m = old.mult then s1 else rangerEvent s1 0x05 0x0701 noPitch (memDetail 0 2 k 0 noPosition m)
  let s3 := if thr = old.throttle then s2 else rangerEvent s2 0x05 0x0702 noPitch (memDetail 0 2 k 0 noPosition (degrees t))
  stackRestore (if 16 * 100 < t then stackHot s3 k t else s3) (k / 2)

/-- STACK_TEMPERATURE_READING. -/
def execStackTemperatureReading (stack : Nat) (temp : Int) (now : Nat) (s : State) : Answer State :=
  if stackOk stack then .next (doStackReading (atTime s now) stack temp) else .refused .noSuchUnit

/-! ### Retention (R259 to R261) -/

/-- Retention is allowed: by the power policy, and by the sealed pitches (R259, R468). -/
def mayRetain (s : State) (u : Nat) : Bool :=
  match s.cfg with
  | none => false
  | some c =>
    if isBank u then
      c.power.bankRetention && (sealedPitches s).all fun r => decide (r.larder.getD (u / 1024) 0 = 0) || !(pitchOf s r.pitch).inStep
    else c.power.channelRetention && decide (sealedPitches s = [])

/-- How long a unit must have been idle, in ns (R259): 10 µs for a bank, 100 µs for a channel. -/
def idleNs (u : Nat) : Nat := if isBank u then 10000 else 100000

/-- No access has met the unit for so long (R259). -/
def idleLong (s : State) (u : Nat) : Bool := decide ((unitAt s u).last + idleNs u ≤ s.cairn.count)

/-- The page's hot copy is being written or read by a move under way. -/
def moveMeets (s : State) (u p : Nat) (g : Page) : Bool :=
  decide (g.state = .promoting ∨ g.state = .demoting) && (unitsOf s (pitchDa s p g.hot) (payloadBytes g)).contains u

/-- The admitted accesses that have not completed: those of page moves under way. Every other access completes within its row (R260; DESIGN
CHOICE: notes/assumptions/42.md). -/
def admitted (s : State) (u : Nat) : Nat :=
  ((s.pitches.map fun x => (x.2.pages.filter fun y => moveMeets s u x.1 y.2).length)).sum

/-- RETENTION_CLOSE (R259, R260): a unit that has been idle closes its admission, and drains. -/
def doRetentionClose (s : State) (u : Nat) : State :=
  let x := unitAt s u
  if x.state = .active ∧ mayRetain s u ∧ idleLong s u then putUnit s u { x with state := .draining, inFlight := admitted s u } else s

/-- RETENTION_CLOSE. -/
def execRetentionClose (unit now : Nat) (s : State) : Answer State :=
  if unitOk unit then .next (doRetentionClose (atTime s now) unit) else .refused .noSuchUnit

/-- RETENTION_ENTERED (R259, R260): once the counter of admitted accesses is zero the unit retains; a unit that may no longer do so returns to
service. -/
def doRetentionEntered (s : State) (u : Nat) : State :=
  let x := unitAt s u
  let n := admitted s u
  if x.state ≠ .draining then s
  else if mayRetain s u = false then putUnit s u { x with state := .active, inFlight := n }
  else if n = 0 then putUnit s u { x with state := .retained, inFlight := 0 }
  else putUnit s u { x with inFlight := n }

/-- RETENTION_ENTERED. -/
def execRetentionEntered (unit : Nat) (s : State) : Answer State :=
  if unitOk unit then .next (doRetentionEntered s unit) else .refused .noSuchUnit

/-- LATE_WAKE (R261). -/
def execLateWake (unit : Nat) (s : State) : Answer State :=
  if unitOk unit then .next (lateAccess s unit) else .refused .noSuchUnit

/-- WAKE_DONE (R260, R261): the unit is in service, and the accesses that waited are admitted. A wake that no access started is the power
manager's own (DEDUCED: notes/assumptions/42.md). -/
def doWakeDone (s : State) (u : Nat) : State :=
  let x := unitAt s u
  if x.state = .waking ∨ x.state = .retained then putUnit s u { x with state := .active, waiting := 0 } else s

/-- WAKE_DONE. -/
def execWakeDone (unit : Nat) (s : State) : Answer State :=
  if unitOk unit then .next (doWakeDone s unit) else .refused .noSuchUnit

/-! ### FREED_RANGE_SCRUBBED (R374) -/

/-- A freed range has been written with zeros: allocations may take it. -/
def execFreedRangeScrubbed (index : Nat) (s : State) : Answer State :=
  match s.mem.scrub[index]? with
  | none => .next s
  | some x => .next { s with mem := { s.mem with bytes := zeroRange s.mem.bytes x.da x.length, scrub := s.mem.scrub.eraseIdx index } }

/-! ### RANGER_LOCKSTEP (R453) -/

/-- A pair restarts from its last checkpoint, and before the first one as reset (R453; what of the pair's state is its own: DESIGN CHOICE:
notes/assumptions/42.md). -/
def restorePair (s : State) (pair : Nat) : State :=
  let c := mgetD s.ranger.checkpoints pair ⟨0, false, false⟩
  { s with ranger := { s.ranger with spdmVersion := c.spdmVersion, spdmAlgorithms := c.spdmAlgorithms } }

/-- The members of a pair disagree: it restarts from its checkpoint, and every pitch with rows runs its step again; a second mismatch of the pair in one
Cairn second restarts the module. -/
def doLockstep (s : State) (pair : Nat) (f : BootFindings) : State :=
  let s1 := rangerEvent s 0x01 0x0E0A noPitch (wearDetail 0 pair 0 0 0 0)
  if mget s.ranger.pairMismatch pair = some (second s) then startUp s1 { f with nor := none }
  else
    let s2 := restorePair { s1 with ranger := { s1.ranger with pairMismatch := mset s1.ranger.pairMismatch pair (second s) } } pair
    rerunAll (s2.pitches.map (·.1)) s2

/-- RANGER_LOCKSTEP. -/
def execRangerLockstep (pair : Nat) (f : BootFindings) (s : State) : Answer State :=
  if pair < 4 then .next (doLockstep (atTime s f.now) pair f) else .refused .noSuchUnit

/-! ### SECTOR_ERASE (R461 to R463) -/

/-- A record that states a repair (R462). -/
def isRepair (e : EventRec) : Bool :=
  (decide (e.cls = 0x01) && decide (e.code = 0x0002 ∨ e.code = 0x0003 ∨ e.code = 0x0005 ∨ e.code = 0x0E01))
    || (decide (e.cls = 0x05) && decide (e.code = 0x0E07))

/-- The ring keeps to Ranger memory: no spare sector is left (R463). -/
def ringToRam (s : State) (pos : Nat) : State :=
  let s1 := { s with ev := { s.ev with inRam := true, ramRing := lastN 65536 (ringRecords s.nvm ++ s.ev.waiting), waiting := [] } }
  rangerEvent s1 0x05 0x0E09 noPitch (wearDetail 0 noCore 0 pos 0 0)

/-- A repair of a later record replaces the one that a record states: the camp of a retired lane or core has been fenced since, so that another physical
camp has its number (R18, R459). -/
def repairGone (e : EventRec) (later : List EventRec) : Bool :=
  decide (e.cls = 0x01 ∧ e.code ≠ 0x0E01)
    && later.any fun x => decide (x.cls = 0x01 ∧ x.code = 0x0E01) && decide (leAt x.detail 0 2 = leAt e.detail 0 4 / 16)

/-- The records of a sector that state a repair still applied, given the records after it in the ring (R462). -/
def keptRepairs (rest : List EventRec) : List EventRec → List EventRec
  | [] => []
  | e :: t => if isRepair e && !repairGone e (t ++ rest) then e :: keptRepairs rest t else keptRepairs rest t

/-- NOR offset of a physical sector of the ring (R428, R461, R463). -/
def norOffset (k : Nat) : Nat := if k < 128 then 0x0A100000 + 65536 * k else 0x0A900000 + 65536 * (k - 128)

/-- The 65,536 bytes of a sector (R461): its header, its records at offsets 64 + 32 × i, and unwritten bytes, all of whose bits are 1. -/
def sectorBytes (x : RingSector) : List Byte :=
  let b := x.header ++ (x.records.map eventBytes).flatten
  b ++ List.replicate (65536 - b.length) 0xFF#8

/-- The repairs that a ring position's sector states; a sector without a valid header is not read. -/
def repairsAt (n : Nvm) (pos : Nat) : List EventRec :=
  let rest := (((ringSectors n).filter fun x => decide (x.1 ≠ pos)).map (·.2.records)).flatten
  (((ringSectors n).find? fun x => decide (x.1 = pos)).map fun x => keptRepairs rest x.2.records).getD []

/-- Open a ring position on a physical sector, with the repairs that its sector held and the records that wait (R462). -/
def openSector (s : State) (pos phys erases : Nat) : State :=
  let l := repairsAt s.nvm pos ++ s.ev.waiting
  let sec : RingSector := ⟨sectorHeader (sectorSeq (headSector s.nvm) + 1) pos erases, l.take sectorRecords⟩
  { s with nvm := { s.nvm with sectors := mset s.nvm.sectors phys sec, head := pos }, ev := { s.ev with waiting := l.drop sectorRecords } }

/-- A sector of a ring position has failed verification (R463): `open_` puts the position on the lowest unused spare, or the ring goes on in Ranger
memory. -/
def remapSector (s : State) (pos : Nat) (open_ : State → Nat → State) : State :=
  let k := s.nvm.sparesUsed
  if k < 16 then
    let s1 := open_ { s with nvm := { s.nvm with sparesUsed := k + 1 } } (128 + k)
    rangerEvent s1 0x05 0x0E08 noPitch (wearDetail 0 noCore (15 - k) pos 0 (norOffset (128 + k)))
  else ringToRam s pos

/-- The head's records move to a physical sector, whose header takes the ring position (R463; DEDUCED: notes/assumptions/42.md). -/
def moveHead (s : State) (phys : Nat) : State :=
  let x := headSector s.nvm
  { s with nvm := { s.nvm with sectors := mset s.nvm.sectors phys ⟨sectorHeader (sectorSeq x) s.nvm.head 0, x.records⟩ } }

/-- SECTOR_ERASE (R462, R463). A program of a record that failed verification puts the head on a spare sector; otherwise, when the head is full, the next
ring position is erased and opened, on a spare sector when the erase or the program of its header fails. -/
def doSectorErase (s : State) (headOk ok : Bool) : State :=
  if s.ev.inRam then s
  else if headOk = false then remapSector s s.nvm.head moveHead
  else if (headSector s.nvm).records.length < sectorRecords then s
  else
    let pos := (s.nvm.head + 1) % 128
    let phys := sectorOf s.nvm pos
    if ok then openSector s pos phys (sectorErases (mgetD s.nvm.sectors phys (freshSector 0 pos 0)) + 1)
    else remapSector s pos fun s k => openSector s pos k 0

/-- SECTOR_ERASE. -/
def execSectorErase (headOk eraseOk programOk : Bool) (s : State) : Answer State := .next (doSectorErase s headOk (eraseOk && programOk))

end Sys2Proof.Machine
end

