-- ==== Sys2Proof/Machine/Package.lean ====
section
/-! DEFINITION. The load of a model package (R13, R32, R33, R53, R157, R174, R175, R276, R296, R372, R454, R456). Choices the spec leaves:
notes/assumptions/44.md. -/

namespace Sys2Proof.Machine

/-! ### Checks -/

/-- A weight tensor may be loaded (R33): its header, the length of its payload, and the walk of an N:M payload. -/
def tensorLoads (t : TensorImage) : Bool :=
  let h := parseHeader t.header
  headerOk h && decide (t.payload.length = h.payloadBytes) && (decide (h.format ≠ 2) || (rowStarts h t.payload).isSome)

/-- Finite and above zero. -/
def positive (w : Word) : Bool := !isNaN w && !isInf w && !isZero w && !w.msb

/-- A quality record is within its ranges (R296). -/
def qualityRecordOk (q : List Byte) : Bool :=
  positive (BitVec.ofNat 32 (leAt q 0 4)) && decide (leAt q 4 2 ≤ 1024) && decide (1 ≤ leAt q 6 1 ∧ leAt q 6 1 ≤ 8) && zerosAt q 7 1
    && zerosAt q (8 + leAt q 6 1) (8 - leAt q 6 1)

/-- A layer of the package may be loaded: its quality record, its outlier thresholds (R53), and the feature counts of its sidecar tensors (R296). -/
def layerLoads (l : LayerImage) : Bool :=
  qualityRecordOk l.quality && l.thresholds.all positive && l.sidecarFeatures.all fun f => decide (f % 128 = 0)

/-- Scratchpad bytes that a program requires (R174). -/
def minScratchpad (p : ProgramImage) : Nat := leAt p.header 12 4
/-- Program number (R174). -/
def programNumber (p : ProgramImage) : Nat := leAt p.header 2 2
/-- Commands of a program (R174). -/
def programCommands (p : ProgramImage) : Nat := leAt p.header 4 2

/-- A variant of a program number that may be loaded: one for the pitch's mode that fits the scratchpad (R152, R294). -/
def variantFits (r : PitchRecord) (n : Nat) (p : ProgramImage) : Bool :=
  decide (programNumber p = n ∧ p.reference = r.profile.quality.reference ∧ minScratchpad p ≤ Config.scratchpadBytes)

/-- Checks 1 to 7 of R175 on a program, in order: the refusal of the first that fails. -/
def programRefusal (r : PitchRecord) (all : List ProgramImage) (p : ProgramImage) : Option Nat :=
  let h := p.header
  if leAt h 0 2 ≠ 1 then some rcBadArgument
  else if programCommands p = 0 ∨ 4096 < programCommands p then some rcBadArgument
  else if zerosAt h 6 2 = false ∨ zerosAt h 28 4 = false then some rcBadArgument
  else if 1000000 < leAt h 8 4 then some rcBadArgument
  else if leAt h 24 4 ≠ 1 then some rcVersionMismatch
  else if r.slots < leAt h 16 4 ∨ r.syncCount < leAt h 20 4 then some rcBadArgument
  else if (all.any (variantFits r (programNumber p))) = false then some rcVersionMismatch
  else none

/-- The variant of a program number that is loaded: of those for the pitch's mode, the largest min_scratchpad that fits (R152, R294). -/
def chosenVariant (r : PitchRecord) (all : List ProgramImage) (n : Nat) : Option ProgramImage :=
  (all.filter (variantFits r n)).foldl
    (fun (b : Option ProgramImage) p => match b with
      | none => some p
      | some q => if minScratchpad q < minScratchpad p then some p else some q) none

/-- The variants that are loaded, in the order of their program numbers' first appearance. -/
def chosenPrograms (r : PitchRecord) (all : List ProgramImage) : List ProgramImage :=
  ((all.map programNumber).eraseDups).filterMap (chosenVariant r all)

/-- The commands that a pitch-relative camp holds. -/
def campWords (ps : List ProgramImage) (rel : Nat) : Nat := ((ps.filter fun p => p.camps.contains rel).map programCommands).sum

/-- The programs of one camp fit together in its command memory (R175, check 8). -/
def programsFit (ps : List ProgramImage) : Bool :=
  ((ps.map (·.camps)).flatten).all fun rel => decide (campWords ps rel ≤ Config.commandWords)

/-! ### Places (R157, R367 to R369, R372, R380) -/

/-- A range that the package names lies within bound; in segment 1 it lies in the region that the package is loaded into. -/
def placeOk (s : State) (r : PitchRecord) (k : PackageImage) (a n : Nat) : Bool :=
  decide (a < 2 ^ 47) && (translate s r a n false).isOk && (decide (bitsOf a 46 44 ≠ 1) || decide (k.region = some (bitsOf a 43 40)))

/-- The golden copy of a range: the region's own for a shared region, and otherwise a range of the pitch outside every shared region. -/
def goldenPlaceOk (s : State) (r : PitchRecord) (k : PackageImage) (a golden n : Nat) : Bool :=
  decide (bitsOf a 46 44 = 1) || (placeOk s r k golden n && decide (bitsOf golden 46 44 ≠ 1))

/-- The copies of a tensor lie within bound. -/
def tensorPlaced (s : State) (r : PitchRecord) (k : PackageImage) (t : TensorImage) : Bool :=
  let n := 32 + t.payload.length
  placeOk s r k t.address n && goldenPlaceOk s r k t.address t.golden n

/-- A coded region lies within bound: a writable one with room for every frame, outside the shared regions, which nothing but a load or a refetch
writes (R276, R372). -/
def codedPlaced (s : State) (r : PitchRecord) (k : PackageImage) (c : CodedRegion) : Bool :=
  let n := if c.writable then 4160 * c.blocks else c.bytes.length
  decide (c.bytes.length ≤ n) && placeOk s r k c.address n
    && (if c.writable then decide (bitsOf c.address 46 44 ≠ 1) else goldenPlaceOk s r k c.address c.golden n)

/-- A slot's fields are within their ranges, and it lies in the pitch's quota of its home's slice (R157, R240, R241, R367). -/
def slotPlaced (s : State) (r : PitchRecord) (x : SlotImage) : Bool :=
  let n := namedCamps r
  decide (x.home < n ∧ (x.producer < n ∨ x.producer = 0xFFFF)) && decide (1 ≤ x.readers ∧ x.readers ≤ 255)
    && decide (x.base % 64 = 0 ∧ 64 ≤ x.size ∧ x.size ≤ 2 ^ 30)
    && decide (x.base + x.size ≤ 65536 * r.larder.getD (sliceOf (logicalCamp s r x.home)) 0)
    && decide (x.contents.length ≤ x.size)

/-- Everything that the package places lies in what the pitch's record gives it, so that a load changes nothing of another pitch (R380; the
refusal is a DESIGN CHOICE: notes/assumptions/44.md). -/
def packagePlaced (s : State) (r : PitchRecord) (k : PackageImage) : Bool :=
  (k.region.all fun g => bitOf r.regions g) && k.tensors.all (tensorPlaced s r k) && k.coded.all (codedPlaced s r k)
    && decide (k.slots.length ≤ r.slots) && k.slots.all (slotPlaced s r)
    && k.programs.all fun p => p.camps.all fun rel => decide (rel < namedCamps r)

/-- The refusal of a package (R33, R53, R175, R296): tensors and layers first, then its places, then the programs in order. -/
def packageRefusal (s : State) (r : PitchRecord) (k : PackageImage) : Option Nat :=
  if k.tensors.all tensorLoads = false ∨ k.layers.all layerLoads = false ∨ packagePlaced s r k = false then some rcBadArgument
  else
    match k.programs.findSome? (programRefusal r k.programs) with
    | some code => some code
    | none => if programsFit (chosenPrograms r k.programs) then none else some rcBadArgument

/-! ### Effects of a first load -/

/-- CRC-32C of each 4,096-byte block of a payload (R106, R454). -/
def blockCrcs : Nat → List Byte → List Nat
  | 0, _ => []
  | n + 1, bs => if bs = [] then [] else crc32c (bs.take 4096) :: blockCrcs n (bs.drop 4096)

/-- A tensor in service. The row-start table of R33 is kept in the machine's state beside the tensor that it belongs to, and takes no place in
device memory (DESIGN CHOICE: notes/assumptions/44.md). -/
def loadedTensor (t : TensorImage) : LoadedTensor :=
  let h := parseHeader t.header
  { address := t.address, format := h.format, n := h.n, m := h.m, expOffset := h.expOffset, k := h.k, rows := h.rows, scale := h.scale
    payloadBytes := h.payloadBytes, golden := t.golden
    rowStarts := if h.format = 2 then (rowStarts h t.payload).getD [] else []
    crcs := blockCrcs (t.payload.length / 4096 + 1) t.payload, faulty := [] }

/-- Write the working and the golden copy of each tensor. -/
def writeTensors (r : PitchRecord) : List TensorImage → State → State
  | [], s => s
  | t :: ts, s =>
    let bs := padTo 32 t.header ++ t.payload
    writeTensors r ts (pokeBytes (pokeBytes s (daOf s r t.address) bs) (goldenOf s r t.address t.golden) bs)

/-- Write the coded regions; a writable one has no golden copy (R275, R276). -/
def writeCodedRegions (r : PitchRecord) : List CodedRegion → State → State
  | [], s => s
  | c :: cs, s =>
    let s1 := pokeBytes s (daOf s r c.address) c.bytes
    writeCodedRegions r cs (if c.writable then s1 else pokeBytes s1 (goldenOf s r c.address c.golden) c.bytes)

/-- A slot from its image: a persistent slot is filled by the Ranger once (R157, R160). -/
def slotOfImage (x : SlotImage) : Slot :=
  let st : SlotState := if x.persistent then .full else .empty
  { base := x.base, size := x.size, home := x.home, producer := x.producer, readers := x.readers, persistent := x.persistent
    state := st, closing := false, released := [], contents := x.contents, bState := st, bReleased := [] }

/-- Write the contents of the persistent slots. -/
def fillPersistent (r : PitchRecord) : List Slot → State → State
  | [], s => s
  | x :: t, s => fillPersistent r t (if x.persistent then pokeBytes s (slotDa s r x) (padTo x.size x.contents) else s)

/-- Put words into command memory from a place on. -/
def putWords : Nat → List CmdWord → NMap CmdWord → NMap CmdWord
  | _, [], m => m
  | a, w :: t, m => putWords (a + 1) t (mset m a w)

/-- Put a program into the command memory of camps, after the words that each holds; the entries say where it lies. -/
def placeProgram (r : PitchRecord) (p : ProgramImage) : List Nat → State × List LoadedProgram → State × List LoadedProgram
  | [], x => x
  | rel :: t, (s, done) =>
    let base := ((done.filter fun k => k.camps.contains rel).map (·.commands)).sum
    let camp := logicalCamp s r rel
    let c := campOf s camp
    let s1 := putCamp s camp { c with cmdMem := putWords base (p.words.take (programCommands p)) c.cmdMem }
    placeProgram r p t (s1, done ++ [⟨programNumber p, programCommands p, leAt p.header 8 4, base, [rel], p.forms⟩])

/-- Put the programs of a package in place. -/
def placePrograms (r : PitchRecord) : List ProgramImage → State × List LoadedProgram → State × List LoadedProgram
  | [], x => x
  | p :: t, x => placePrograms r t (placeProgram r p p.camps x)

/-- Empty the command memory of the camps that a package names. -/
def clearCommands (r : PitchRecord) : List Nat → State → State
  | [], s => s
  | rel :: t, s =>
    let camp := logicalCamp s r rel
    clearCommands r t (putCamp s camp { campOf s camp with cmdMem := [] })

/-- A first load: weights, coded regions, programs, slots and layer records come into service. -/
def loadPackage (s : State) (r : PitchRecord) (k : PackageImage) : State :=
  let s1 := writeCodedRegions r k.coded (writeTensors r k.tensors s)
  let ps := chosenPrograms r k.programs
  let (s2, programs) := placePrograms r ps (clearCommands r ((ps.map (·.camps)).flatten) s1, [])
  let slots := k.slots.map slotOfImage
  let s3 := fillPersistent r slots s2
  onPitch s3 r.pitch fun x => { x with
    package := some ⟨k.digest, k.vocab, k.region, k.tensors.map loadedTensor, programs, k.layers, k.coded, [], none⟩
    slots := slots.zipIdx.map fun e => (e.2, e.1)
    loadResult := some rcDone }

/-! ### A reload (R456) -/

/-- Bytes of block j of a payload. -/
def payloadBlock (bs : List Byte) (j : Nat) : List Byte := (bs.drop (4096 * j)).take 4096

/-- The faulting blocks of a tensor that the reload gives well: each is checked against its CRC-32C. -/
def goodBlocks (t : LoadedTensor) (i : TensorImage) : List Nat :=
  t.faulty.filter fun j => decide (crc32c (payloadBlock i.payload j) = t.crcs.getD j 0)

/-- Write blocks of a payload into the working and the golden copy of the tensor in service. -/
def writeBlocks (r : PitchRecord) (x : LoadedTensor) (i : TensorImage) : List Nat → State → State
  | [], s => s
  | j :: t, s =>
    let bs := payloadBlock i.payload j
    let s1 := pokeBytes s (daOf s r x.address + 32 + 4096 * j) bs
    writeBlocks r x i t (pokeBytes s1 (goldenOf s1 r x.address x.golden + 32 + 4096 * j) bs)

/-- Restore the faulting blocks of the tensors of a package. -/
def restoreTensors (r : PitchRecord) (imgs : List TensorImage) : List LoadedTensor → State → State
  | [], s => s
  | t :: ts, s =>
    restoreTensors r imgs ts (match imgs.find? fun i => decide (i.address = t.address) with
      | none => s
      | some i => writeBlocks r t i (goodBlocks t i) s)

/-- Where block i of a packed region lies from the region's first byte, by the region's own table (R276). -/
def packedOffset (c : CodedRegion) (i : Nat) : Nat := 64 * leAt c.bytes (4 * i) 4

/-- Block i of a region in coded form as a reload gives it: header and payload, or none where it fails its CRC-32C or does not fit the place of the
block in service (R282, R456). -/
def codedGood (c img : CodedRegion) (i : Nat) : Option (List Byte) :=
  let bs := img.bytes.drop (packedOffset c i)
  let frame := bs.take (min 4112 (16 + leAt bs 4 2))
  if packedOffset c i + frame.length ≤ c.bytes.length then
    match decodeBlock true frame with
    | .ok _ => some frame
    | .error _ => none
  else none

/-- A reload's copy of the region of a faulting block. -/
def codedImage (imgs : List CodedRegion) (a i : Nat) (c : CodedRegion) : Option (List Byte) :=
  (imgs.find? fun g => decide (g.address = a)).bind fun g => codedGood c g i

/-- A faulting block of a region in coded form that the reload gives well. -/
def codedMended (imgs : List CodedRegion) (k : LoadedPackage) (x : Nat × Nat) : Option (CodedRegion × List Byte) :=
  (k.coded.find? fun c => decide (c.address = x.1)).bind fun c => (codedImage imgs x.1 x.2 c).map fun bs => (c, bs)

/-- Write the faulting blocks of regions in coded form into both copies. -/
def restoreCoded (r : PitchRecord) (imgs : List CodedRegion) (k : LoadedPackage) : List (Nat × Nat) → State → State
  | [], s => s
  | x :: t, s =>
    restoreCoded r imgs k t (match codedMended imgs k x with
      | none => s
      | some (c, bs) =>
        let o := packedOffset c x.2
        pokeBytes (pokeBytes s (daOf s r c.address + o) bs) (goldenOf s r c.address c.golden + o) bs)

/-- The tensors after a reload: blocks that came well are no longer faulty. -/
def healed (imgs : List TensorImage) (ts : List LoadedTensor) : List LoadedTensor :=
  ts.map fun t => match imgs.find? fun i => decide (i.address = t.address) with
    | none => t
    | some i => { t with faulty := t.faulty.filter fun j => decide (j ∉ goodBlocks t i) }

/-- DA of the first faulting block of some packages of one region, 0 when none faults. -/
def firstFaulty (s : State) (r : PitchRecord) (ks : List LoadedPackage) : Nat :=
  match ((ks.map (·.tensors)).flatten).find? fun t => decide (t.faulty ≠ []) with
  | some t => daOf s r t.address + 32 + 4096 * t.faulty.headD 0
  | none =>
    match ks.findSome? fun k => (k.codedFaulty.head?).bind fun x => (k.coded.find? fun c => decide (c.address = x.1)).map fun c => (c, x.2) with
    | some (c, i) => daOf s r c.address + packedOffset c i
    | none => 0

/-- The package of a pitch after a reload; with every block well, MODEL_RESTORED follows at the next step boundary. -/
def healPackage (img : PackageImage) (da : Nat) (k : LoadedPackage) : LoadedPackage :=
  let ts := healed img.tensors k.tensors
  let cs := k.codedFaulty.filter fun x => (codedMended img.coded k x).isNone
  { k with tensors := ts, codedFaulty := cs
           restored := if (ts.all fun t => decide (t.faulty = [])) ∧ cs = [] then some da else k.restored }

/-- Heal the package of every pitch that references the region. -/
def healAll (img : PackageImage) (da : Nat) : List Nat → State → State
  | [], s => s
  | p :: t, s => healAll img da t (onPitch s p fun x => { x with package := x.package.map (healPackage img da) })

/-- Restore the faulting blocks of every pitch of a list. -/
def restoreAll (r : PitchRecord) (img : PackageImage) : List Nat → State → State
  | [], s => s
  | p :: t, s =>
    restoreAll r img t (match (pitchOf s p).package with
      | none => s
      | some k => restoreCoded r img.coded k k.codedFaulty (restoreTensors r img.tensors k.tensors s))

/-- A reload of the package that is in the region: every faulting block that it gives well is written again, at the place that the package in service
gives it. -/
def reloadPackage (s : State) (r : PitchRecord) (k : PackageImage) : State :=
  let ps := sharersOf s r.pitch
  let da := firstFaulty s r (ps.filterMap fun p => (pitchOf s p).package)
  let s3 := healAll k da ps (restoreAll r k ps s)
  let left := regionFaulty s3 r.pitch
  onPitch s3 r.pitch fun x => { x with loadResult := some (if left then rcIntegrityFail else rcDone) }

/-! ### MODEL_PACKAGE_LOAD -/

/-- The pitches that would be touched by a load: those whose records reference the package's region, and the pitch itself (R372). -/
def loadPitches (s : State) (p : Nat) (k : PackageImage) : List Nat :=
  match k.region with
  | none => [p]
  | some g => p :: (pitchesOfRegion s g).filter fun q => decide (q ≠ p)

/-- The digest of the package that the pitch holds, or that another pitch holds in the same region. -/
def regionDigest (s : State) (p : Nat) (k : PackageImage) : Option Nat :=
  (loadPitches s p k).findSome? fun q =>
    ((pitchOf s q).package.filter fun x => decide (q = p ∨ x.region = k.region)).map (·.digest)

/-- MODEL_PACKAGE_LOAD: it waits while a pitch that references the region has a step in flight (R372), the region that the package names or the one
that holds the pitch's package; a region that holds a package takes only
the same package again (R456); a first load is checked. -/
def doPackageLoad (s : State) (r : PitchRecord) (k : PackageImage) : State :=
  let answer (code : Nat) : State := onPitch s r.pitch fun x => { x with loadResult := some code }
  if (loadPitches s r.pitch k ++ regionPitches s r.pitch).any fun p => (pitchOf s p).inStep then s
  else if (regionDigest s r.pitch k).any fun d => decide (d ≠ k.digest) then answer rcVersionMismatch
  else if (pitchOf s r.pitch).package.isSome then reloadPackage s r k
  else
    match packageRefusal s r k with
    | some code => answer code
    | none => loadPackage s r k

/-- MODEL_PACKAGE_LOAD. -/
def execModelPackageLoad (pitch : Nat) (pkg : PackageImage) (s : State) : Answer State :=
  if pitchOk pitch then
    match recordOf s pitch with
    | none => .next s
    | some r => .next (doPackageLoad s r pkg)
  else .refused .noSuchUnit

end Sys2Proof.Machine
end

