-- ==== Sys2Proof/Machine/Power.lean ====
section
/-! DEFINITION. Power and cooling (R465 to R484): main failure and return, power loss, backup policy, the governor, junction and coolant limits,
and the pins and registers of the supply controller. Choices the spec leaves: notes/assumptions/43.md. -/

namespace Sys2Proof.Machine

/-! ### Pins and registers (R479, R482) -/

/-- ALERT_N is asserted: on backup, while a die is throttled or limited, or while config_refused is set (R479). -/
def alertAsserted (s : State) : Bool := s.pw.onBackup || s.boot.configRefused || s.pw.dies.any fun d => d.throttled || d.limited

/-- PWR_GOOD: every rail derived from 54 V is good (R479), VDD_CORE, which comes up in phase 4, among them (R465). -/
def pwrGood (s : State) : Bool := s.pw.rails && decide (5 ≤ s.boot.phase ∧ s.boot.phase ≠ 13)

/-- The hottest junction, in 1/16 °C. -/
def hottest (s : State) : Int := (s.pw.dies.map (·.junction)).foldl max 0

/-- The highest operating point among the dies. -/
def highestPoint (s : State) : Nat := (s.pw.dies.map (·.point)).foldl max 0

/-! ### Limits (R468, R473) -/

/-- The active input limit in W (R468, R473). -/
def activeLimit (s : State) : Nat :=
  match s.cfg with
  | none => 0
  | some c => 10 * (if s.pw.onBackup then c.power.backupLimit else c.power.limit)

/-- Note a reading of the 1 ms average, and since when it has been below 0.9 × the limit (R473). -/
def notePower (s : State) (power : Nat) : State :=
  let below := decide (10 * power < 9 * activeLimit s)
  { s with pw := { s.pw with power := power, belowSince := if below then some (s.pw.belowSince.getD s.cairn.count) else none } }

/-- Start to count again below the limit now in force. -/
def restartBelow (s : State) : State := notePower { s with pw := { s.pw with belowSince := none } } s.pw.power

/-- Every die of a list falls to a point, if it stands above it. -/
def capDies (cap : Nat) : List Nat → State → State
  | [], s => s
  | d :: t, s => capDies cap t (setPoint s d (min cap (dieAt s d).point))

/-- The dies. -/
def allDies : List Nat := List.range 8

/-- Every die falls one point. -/
def lowerAll : List Nat → State → State
  | [], s => s
  | d :: t, s => lowerAll t (setPoint s d ((dieAt s d).point - 1))

/-! ### Supplies (R465 to R467, R484) -/

/-- INPUT_RANGE of an input: 0 main, 1 backup (R484). -/
def inputRange (s : State) (input mv : Nat) : State := rangerEvent s 0x08 0x0F03 noPitch (powerDetail input noUnit 0 (mv / 10) s.pw.power)

/-- The supply controller's monitor finds VIN_MAIN out of its range: main_good clears, and INPUT_RANGE is written where the Ranger has its rails (R482,
R484). -/
def mainLeaves (s : State) (mv : Nat) : State :=
  if s.pw.mainGood = false ∨ inRange54 mv then s
  else
    let s1 := { s with pw := { s.pw with mainGood := false } }
    if s.pw.rails then inputRange s1 0 mv else s1

/-- MAIN_FAILURE (R466): VIN_MAIN has left its range; once it has been below 42 V or above 60 V for 5 µs, the load moves to a good VIN_BACKUP, and every
die is shed. -/
def doMainFailure (s : State) (mv : Nat) : State :=
  let s1 := mainLeaves s mv
  if s.pw.rails = false ∨ s.pw.onBackup ∨ (42000 ≤ mv ∧ mv ≤ 60000) then s1
  else
    if s1.pw.backupGood then
      let s2 := { s1 with pw := { s1.pw with onBackup := true, backupSince := some s1.cairn.count, parked := false } }
      rangerEvent (restartBelow (capDies 0 allDies s2)) 0x08 0x0F01 noPitch (powerDetail 0 0 0 (mv / 10) s2.pw.power)
    else s1

/-- MAIN_FAILURE. -/
def execMainFailure (now millivolts : Nat) (s : State) : Answer State := .next (doMainFailure (atTime s now) millivolts)

/-- MAIN_RESTORED (R467): VIN_MAIN has stayed within 46 to 59.5 V for 100 ms; the module returns to main. Without the rails only the supply controller's
main_good follows (R482), and a start that waits in phase 1 for an input goes on (R465). -/
def doMainRestored (s : State) (f : BootFindings) : State :=
  if s.pw.rails = false then
    let s1 := { s with pw := { s.pw with mainGood := s.pw.vaux } }
    if startWaits s then raiseRails s1 f else s1
  else if s.pw.onBackup then
    let s1 := { s with pw := { s.pw with mainGood := true, onBackup := false, backupSince := none, parked := false } }
    rangerEvent (restartBelow s1) 0x08 0x0F02 noPitch (powerDetail 0 noUnit 0 0 s1.pw.power)
  else { s with pw := { s.pw with mainGood := true } }

/-- MAIN_RESTORED. -/
def execMainRestored (now : Nat) (f : BootFindings) (s : State) : Answer State := .next (doMainRestored (atTime s now) f)

/-- POWER_LOSS (R467, R477): both inputs have failed; every rail but VAUX is removed, the loss is latched, and only what the NOR and exported
images hold survives. -/
def execPowerLoss (s : State) : Answer State :=
  if s.pw.rails then
    let s1 := railsOff s
    .next { s1 with pw := { s1.pw with mainGood := false, backupGood := false, powerLoss := true } }
  else .next s

/-- VAUX_LOSS (R465, R481): the supply controller too loses its state, its latches among it; the NOR and fuses stay. -/
def execVauxLoss (s : State) : Answer State :=
  let s1 := railsOff s
  .next { s1 with pw := Power.reset, boot := Boot.reset }

/-- VIN_BACKUP_OUT_OF_RANGE (R482, R484): VIN_BACKUP leaves 44 to 59.5 V, so that backup_good clears, and INPUT_RANGE is written where the Ranger has its
rails; a reading within the range sets backup_good again, and a start that waits in phase 1 for an input goes on (R465; DEDUCED:
notes/assumptions/43.md). -/
def doVinBackup (s : State) (mv : Nat) (f : BootFindings) : State :=
  if s.pw.vaux = false then s
  else if inRange54 mv then
    let s1 := { s with pw := { s.pw with backupGood := true } }
    if startWaits s then raiseRails s1 f else s1
  else if s.pw.backupGood then
    let s1 := { s with pw := { s.pw with backupGood := false } }
    if s.pw.rails then inputRange s1 1 mv else s1
  else s

/-- VIN_BACKUP_OUT_OF_RANGE. -/
def execVinBackupOutOfRange (millivolts : Nat) (f : BootFindings) (s : State) : Answer State := .next (doVinBackup s millivolts f)

/-- The sequences of a pitch that the backup policy parks now: the IDLE ones, or every one that is not parked and runs no row (R474). -/
def policySeqs (s : State) (policy p : Nat) : List Nat :=
  seqsWhere s p fun i e =>
    if policy = 1 then decide (e.state = .idle)
    else decide (e.state ≠ .parked) && !inFlight s p i

/-- Start the parks of the backup policy in the pitches that the module leads. -/
def policyParks (policy : Nat) : List PitchRecord → State → State
  | [], s => s
  | r :: t, s => policyParks policy t (if r.enabled ∧ isLead r then deviceParks r (policySeqs s policy r.pitch) s else s)

/-- The handles of the sequences of the led pitches that are in a step and are not parked: policy 2 parks each at its step boundary (R474). -/
def policyMarks (s : State) (c : Configuration) : List Nat :=
  ((c.pitches.filter fun r => r.enabled && isLead r).map fun r =>
    (seqsWhere s r.pitch fun i e => decide (e.state ≠ .parked) && inFlight s r.pitch i).map (handleOf s)).flatten

/-- Park the marked sequences that are in no step any more, in every led pitch. -/
def parkAllMarked : List PitchRecord → State → State
  | [], s => s
  | r :: t, s => parkAllMarked t (if isLead r then parkMarked s r else s)

/-- BACKUP_PARK (R474): after backup_park_s seconds on backup, policies 1 and 2 park; a sequence that is in a step is marked, and parks at its boundary
even after a return to main. -/
def doBackupPark (s0 : State) : State :=
  let s := parkAllMarked ((s0.cfg.map (·.pitches)).getD []) s0
  match s.cfg, s.pw.backupSince with
  | some c, some t =>
    let k := c.power.backupPolicy
    if s.pw.onBackup = false ∨ s.pw.parked ∨ k = 0 ∨ s.cairn.count < t + c.power.backupParkS * 1000000000 then s
    else
      let marks := if k = 2 then policyMarks s c else []
      let s1 := policyParks k c.pitches s
      { s1 with pw := { s1.pw with parked := true, toPark := s1.pw.toPark ++ marks.filter fun h => decide (h ∉ s1.pw.toPark) } }
  | _, _ => s

/-- BACKUP_PARK. -/
def execBackupPark (now : Nat) (s : State) : Answer State := .next (doBackupPark (atTime s now))

/-! ### The governor (R473) -/

/-- POWER_LIMITED, the first in each Cairn second (R473). -/
def powerLimited (s : State) (die point : Nat) : State :=
  eventOnce s 0x0F04 0 fun s => rangerEvent s 0x08 0x0F04 noPitch (powerDetail (if s.pw.onBackup then 1 else 0) (if die < 8 then point else noUnit) 0 0 s.pw.power)

/-- The die at the highest point, lowest number on a tie. -/
def highestDie (s : State) : Nat :=
  allDies.foldl (fun b d => if (dieAt s b).point < (dieAt s d).point then d else b) 0

/-- A time has come that is at least `gap` after a moment, if there was one. -/
def since (s : State) (t : Option Nat) (gap : Nat) : Bool := t.all fun u => decide (u + gap ≤ s.cairn.count)

/-- GOVERNOR_LOWER (R473): above 1.1 × the limit over 20 µs every die falls at once; above the limit one die falls each 1 ms. -/
def doGovernorLower (s0 : State) (power power20 : Nat) : State :=
  let s := notePower s0 power
  let n := activeLimit s
  if governs s = false ∨ highestPoint s = 0 then s
  else if 11 * n < 10 * power20 ∧ since s s.pw.emergencyAt 20000 then
    let s1 := lowerAll allDies { s with pw := { s.pw with emergencyAt := some s.cairn.count } }
    powerLimited s1 8 0
  else if n < power ∧ since s s.pw.lastLower 1000000 then
    let d := highestDie s
    let s1 := setPoint { s with pw := { s.pw with lastLower := some s.cairn.count } } d ((dieAt s d).point - 1)
    powerLimited s1 d (dieAt s1 d).point
  else s

/-- GOVERNOR_LOWER. -/
def execGovernorLower (now power power20 : Nat) (s : State) : Answer State := .next (doGovernorLower (atTime s now) power power20)

/-- The die that may rise: of those that the other rules let rise the one at the lowest point, lowest number on a tie. -/
def lowestDie (s : State) : Option Nat :=
  (allDies.filter fun d => decide ((dieAt s d).point < dieCap s d)).foldl (fun (b : Option Nat) d => match b with
    | none => some d
    | some e => if (dieAt s d).point < (dieAt s e).point then some d else some e) none

/-- GOVERNOR_RAISE (R473): power has stayed below 0.9 × the limit for 100 ms since the later of that and the last change of a point. -/
def doGovernorRaise (s0 : State) (power : Nat) : State :=
  let s := notePower s0 power
  match s.pw.belowSince, lowestDie s with
  | some t, some d =>
    if governs s ∧ max t s.pw.lastChange + 100000000 ≤ s.cairn.count then setPoint s d ((dieAt s d).point + 1) else s
  | _, _ => s

/-- GOVERNOR_RAISE. -/
def execGovernorRaise (now power : Nat) (s : State) : Answer State := .next (doGovernorRaise (atTime s now) power)

/-! ### Junctions (R475, R476) -/

/-- The highest sensor of a die, in 1/16 °C (R475). -/
def junctionOf (l : List Int) : Int :=
  match l with
  | [] => 0
  | a :: t => t.foldl max a

/-- A die after a reading: what it has of throttle and limit (R476). -/
def nextDie (x : Die) (j : Int) (now : Nat) : Die :=
  let cool := if j ≤ 16 * 97 then some (x.coolSince.getD now) else none
  { x with
    junction := j, coolSince := cool
    limited := decide (16 * 105 ≤ j) || (x.limited && decide (16 * 103 < j))
    throttled := decide (16 * 100 ≤ j) || (x.throttled && !cool.any fun t => decide (t + 100000000 ≤ now)) }

/-- TJ_THROTTLE, the first in each Cairn second (R476). -/
def throttleEvent (s : State) (d : Nat) : State :=
  eventOnce s 0x0F11 0 fun s => rangerEvent s 0x09 0x0F11 noPitch (powerDetail d (dieAt s d).point (dieAt s d).junction 0 s.pw.power)

/-- The point of a die after a reading: 0 while limited, one lower each 1 ms at 100 °C or above; every reading of 100 °C or above is reported. -/
def throttlePoint (s : State) (d : Nat) : State :=
  let x := dieAt s d
  let s1 := if x.limited then setPoint s d 0
    else if 16 * 100 ≤ x.junction ∧ since s x.lastThrottle 1000000 then
      setPoint (onDie s d fun x => { x with lastThrottle := some s.cairn.count }) d (x.point - 1)
    else s
  if 16 * 100 ≤ x.junction then throttleEvent s1 d else s1

/-- The access that waits has come to be possible: the slot is FULL for a reader, EMPTY for a writer (R158, R164), and the slice admits accesses (R476). -/
def slotCame (s : State) (r : PitchRecord) : WaitReason → Bool
  | .slotRead n => (slotOf s r n).any fun x => decide (x.state = .full)
  | .slotWrite n => (slotOf s r n).any fun x => decide (x.state = .empty)
  | .slice d => !sliceLimited s d
  | _ => false

/-- Camps whose slot accesses the pause alone kept waiting go on (R164, R476); the others wait on, and their time runs on (R165). -/
def resumeSlots : List Nat → State → State
  | [], s => s
  | p :: t, s =>
    resumeSlots t (match recordOf s p with
      | none => s
      | some r => releaseBlocked s p (slotCame s r))

/-- A reading of one die. -/
def readDie (s : State) (d : Nat) (j : Int) : State :=
  let old := dieAt s d
  let s1 := throttlePoint (onDie s d fun x => nextDie x j s.cairn.count) d
  let x := dieAt s1 d
  if x.limited ∧ old.limited = false then rangerEvent s1 0x09 0x0F12 noPitch (powerDetail d 0 j 0 s1.pw.power)
  else if old.limited ∧ x.limited = false then resumeSlots (s1.pitches.map (·.1)) s1
  else s1

/-- Readings of the dies in order. -/
def readDies : List (List Int × Nat) → State → State
  | [], s => s
  | (l, d) :: t, s => readDies t (readDie s d (junctionOf l))

/-- Readings of the sensors, which VAUX feeds, while the dies are off (R465, R482). -/
def senseDies : List (List Int × Nat) → State → State
  | [], s => s
  | (l, d) :: t, s => senseDies t (onDie s d fun x => { x with junction := junctionOf l })

/-- JUNCTION_READING (R476, R477): at 110 °C the supply controller removes every rail but VAUX and latches the trip. -/
def doJunctions (s : State) (sensors : List (List Int)) : State :=
  let ls := sensors.zipIdx.take 8
  if s.pw.rails = false then (if s.pw.vaux then senseDies ls s else s)
  else
    match ls.find? fun x => decide (16 * 110 ≤ junctionOf x.1) with
    | some x =>
      let s1 := railsOff s
      let s2 := senseDies ls s1
      { s2 with pw := { s2.pw with trip := true, tripDie := some x.2 } }
    | none => readDies ls s

/-- JUNCTION_READING; readings are in 1/16 °C. -/
def execJunctionReading (now : Nat) (sensors : List (List Int)) (s : State) : Answer State := .next (doJunctions (atTime s now) sensors)

/-! ### Coolant (R469, R473, R478) -/

/-- The highest inlet temperature of the class in force, in °C (R469). -/
def inletMax (s : State) : Nat := ((s.cfg.map (·.power.coolant)).map fun k => (coolantRange k).2.1).getD 0

/-- The lowest inlet temperature of the class in force, in °C (R469). -/
def inletMin (s : State) : Nat := ((s.cfg.map (·.power.coolant)).map fun k => (coolantRange k).1).getD 0

/-- COOLANT_HIGH (R478): the inlet has read more than 2 °C above its class for 10 s. -/
def doCoolantHigh (s : State) (inlet : Nat) : State :=
  let s1 := { s with pw := { s.pw with inlet := inlet } }
  if s.cfg.isSome ∧ s.pw.coolantHigh = false ∧ inletMax s + 2 < inlet then
    let s2 := { s1 with pw := { s1.pw with coolantHigh := true } }
    rangerEvent (capDies (classCap s2) allDies s2) 0x09 0x0F14 noPitch (powerDetail noUnit noUnit (16 * inlet) 0 s2.pw.power)
  else s1

/-- COOLANT_HIGH. -/
def execCoolantHigh (now inlet : Nat) (s : State) : Answer State := .next (doCoolantHigh (atTime s now) inlet)

/-- COOLANT_CAP_LIFTED (R478): the inlet has been back within its range for 60 s. -/
def doCoolantLifted (s : State) (inlet : Nat) : State :=
  let s1 := { s with pw := { s.pw with inlet := inlet } }
  if inletMin s ≤ inlet ∧ inlet ≤ inletMax s then { s1 with pw := { s1.pw with coolantHigh := false } } else s1

/-- COOLANT_CAP_LIFTED. -/
def execCoolantCapLifted (now inlet : Nat) (s : State) : Answer State := .next (doCoolantLifted (atTime s now) inlet)

end Sys2Proof.Machine
end

