-- ==== Sys2Proof/Machine/Dispatch.lean ====
section
/-! DEFINITION. The meaning of every command: one arm per constructor of `Instr`, each one call of its meaning. -/

namespace Sys2Proof.Machine

/-- A command's effect on everything but the queue. -/
def exec (i : Instr) (s : State) : Host.Outcome State Fault Refusal :=
  match i with
  | .vauxGood f => Sys2Proof.Machine.execVauxGood f s
  | .hbmTrainingDone reports => Sys2Proof.Machine.execHbmTrainingDone reports s
  | .linksTrained links ports eth hostRate hostWidth => Sys2Proof.Machine.execLinksTrained links ports eth hostRate hostWidth s
  | .linkIdentity link device peerLink => Sys2Proof.Machine.execLinkIdentity link device peerLink s
  | .configCheck inlet backupMv => Sys2Proof.Machine.execConfigCheck inlet backupMv s
  | .capacityClearDone => Sys2Proof.Machine.execCapacityClearDone s
  | .groupJoin now answers => Sys2Proof.Machine.execGroupJoin now answers s
  | .groupDigestRetry pitch answers joinTime => Sys2Proof.Machine.execGroupDigestRetry pitch answers joinTime s
  | .groupJoined pitch now => Sys2Proof.Machine.execGroupJoined pitch now s
  | .modReset lowUs f => Sys2Proof.Machine.execModReset lowUs f s
  | .modelPackageLoad pitch pkg => Sys2Proof.Machine.execModelPackageLoad pitch pkg s
  | .programStart pitch camp program first tableSlot params ready => Sys2Proof.Machine.execProgramStart pitch camp program first tableSlot params ready s
  | .cNop camp w => Sys2Proof.Machine.execCNop camp w s
  | .cEnd camp w => Sys2Proof.Machine.execCEnd camp w s
  | .cSetwin camp w => Sys2Proof.Machine.execCSetwin camp w s
  | .cWdog camp w => Sys2Proof.Machine.execCWdog camp w s
  | .cLoop camp w => Sys2Proof.Machine.execCLoop camp w s
  | .cFence camp w => Sys2Proof.Machine.execCFence camp w s
  | .cSlotrd camp w found => Sys2Proof.Machine.execCSlotrd camp w found s
  | .cSlotwr camp w found => Sys2Proof.Machine.execCSlotwr camp w found s
  | .cMemrd camp w found => Sys2Proof.Machine.execCMemrd camp w found s
  | .cMemwr camp w found => Sys2Proof.Machine.execCMemwr camp w found s
  | .cWstream camp w found => Sys2Proof.Machine.execCWstream camp w found s
  | .cTilecfg camp w => Sys2Proof.Machine.execCTilecfg camp w s
  | .cTile camp w found => Sys2Proof.Machine.execCTile camp w found s
  | .cVld camp w found => Sys2Proof.Machine.execCVld camp w found s
  | .cVst camp w found => Sys2Proof.Machine.execCVst camp w found s
  | .cTred camp w found => Sys2Proof.Machine.execCTred camp w found s
  | .cSignal camp w => Sys2Proof.Machine.execCSignal camp w s
  | .cWait camp w => Sys2Proof.Machine.execCWait camp w s
  | .cTake camp w => Sys2Proof.Machine.execCTake camp w s
  | .cTopk camp w found => Sys2Proof.Machine.execCTopk camp w found s
  | .cHopen camp w found => Sys2Proof.Machine.execCHopen camp w found s
  | .cHadd camp w found => Sys2Proof.Machine.execCHadd camp w found s
  | .cHclose camp w => Sys2Proof.Machine.execCHclose camp w s
  | .hashCloseMerge inst found => Sys2Proof.Machine.execHashCloseMerge inst found s
  | .cReserved camp w => Sys2Proof.Machine.execCReserved camp w s
  | .vNop camp w => Sys2Proof.Machine.execVNop camp w s
  | .vAdd camp w mis => Sys2Proof.Machine.execVAdd camp w mis s
  | .vMul camp w mis => Sys2Proof.Machine.execVMul camp w mis s
  | .vFma camp w mis => Sys2Proof.Machine.execVFma camp w mis s
  | .vMin camp w => Sys2Proof.Machine.execVMin camp w s
  | .vMax camp w => Sys2Proof.Machine.execVMax camp w s
  | .vCmpeq camp w => Sys2Proof.Machine.execVCmpeq camp w s
  | .vCmplt camp w => Sys2Proof.Machine.execVCmplt camp w s
  | .vCmple camp w => Sys2Proof.Machine.execVCmple camp w s
  | .vSel camp w => Sys2Proof.Machine.execVSel camp w s
  | .vCvtfi camp w => Sys2Proof.Machine.execVCvtfi camp w s
  | .vCvtif camp w => Sys2Proof.Machine.execVCvtif camp w s
  | .vCvtbf camp w => Sys2Proof.Machine.execVCvtbf camp w s
  | .vExpx camp w => Sys2Proof.Machine.execVExpx camp w s
  | .vExpi camp w => Sys2Proof.Machine.execVExpi camp w s
  | .vScalb camp w => Sys2Proof.Machine.execVScalb camp w s
  | .vSumg camp w mis => Sys2Proof.Machine.execVSumg camp w mis s
  | .vMaxg camp w => Sys2Proof.Machine.execVMaxg camp w s
  | .vLdacc camp w mis => Sys2Proof.Machine.execVLdacc camp w mis s
  | .vLdacca camp w mis => Sys2Proof.Machine.execVLdacca camp w mis s
  | .vLdaccm camp w mis => Sys2Proof.Machine.execVLdaccm camp w mis s
  | .vReqacc camp w mis => Sys2Proof.Machine.execVReqacc camp w mis s
  | .vReqreg camp w => Sys2Proof.Machine.execVReqreg camp w s
  | .vReqout camp w found => Sys2Proof.Machine.execVReqout camp w found s
  | .vExp2 camp w mis => Sys2Proof.Machine.execVExp2 camp w mis s
  | .vRcp camp w mis => Sys2Proof.Machine.execVRcp camp w mis s
  | .vRsq camp w mis => Sys2Proof.Machine.execVRsq camp w mis s
  | .vRotcs camp w mis => Sys2Proof.Machine.execVRotcs camp w mis s
  | .vReserved camp w => Sys2Proof.Machine.execVReserved camp w s
  | .lanePass camp core lane observed => Sys2Proof.Machine.execLanePass camp core lane observed s
  | .runAhead camp index found => Sys2Proof.Machine.execRunAhead camp index found s
  | .tileRunJoin camp core base wide => Sys2Proof.Machine.execTileRunJoin camp core base wide s
  | .weightRefetched pitch da poison => Sys2Proof.Machine.execWeightRefetched pitch da poison s
  | .slotFilled pitch slot found => Sys2Proof.Machine.execSlotFilled pitch slot found s
  | .slotDrained pitch slot => Sys2Proof.Machine.execSlotDrained pitch slot s
  | .syncTimeout camp now => Sys2Proof.Machine.execSyncTimeout camp now s
  | .groupStepStart pitch now table decisions masks => Sys2Proof.Machine.execGroupStepStart pitch now table decisions masks s
  | .stepCloseReport pitch position now tokens => Sys2Proof.Machine.execStepCloseReport pitch position now tokens s
  | .lanternSelect pitch row layer queries found => Sys2Proof.Machine.execLanternSelect pitch row layer queries found s
  | .chunkListsReady pitch layer => Sys2Proof.Machine.execChunkListsReady pitch layer s
  | .pagePromotionStart pitch page => Sys2Proof.Machine.execPagePromotionStart pitch page s
  | .pagePromotionDone pitch page poison digestOk => Sys2Proof.Machine.execPagePromotionDone pitch page poison digestOk s
  | .pageDemotionStart pitch => Sys2Proof.Machine.execPageDemotionStart pitch s
  | .pageDemotionDone pitch page found => Sys2Proof.Machine.execPageDemotionDone pitch page found s
  | .pageRefetched pitch page warmOk => Sys2Proof.Machine.execPageRefetched pitch page warmOk s
  | .stepBoundary pitch now logits found => Sys2Proof.Machine.execStepBoundary pitch now logits found s
  | .qCreate rid now => Sys2Proof.Machine.execQCreate rid now s
  | .qContinue rid now => Sys2Proof.Machine.execQContinue rid now s
  | .qTruncate rid => Sys2Proof.Machine.execQTruncate rid s
  | .truncationCopyDone rid found => Sys2Proof.Machine.execTruncationCopyDone rid found s
  | .qFork rid => Sys2Proof.Machine.execQFork rid s
  | .qPark rid => Sys2Proof.Machine.execQPark rid s
  | .parkFormDone seq exported found => Sys2Proof.Machine.execParkFormDone seq exported found s
  | .parkCommit seq error => Sys2Proof.Machine.execParkCommit seq error s
  | .qResume rid image => Sys2Proof.Machine.execQResume rid image s
  | .resumeRecordsRead rid peer => Sys2Proof.Machine.execResumeRecordsRead rid peer s
  | .pageImport pitch page tagOk digestOk payload => Sys2Proof.Machine.execPageImport pitch page tagOk digestOk payload s
  | .imageReadTimeout pitch page => Sys2Proof.Machine.execImageReadTimeout pitch page s
  | .qStatus rid peers => Sys2Proof.Machine.execQStatus rid peers s
  | .qFree rid => Sys2Proof.Machine.execQFree rid s
  | .submissionDoorbell fn ring value => Sys2Proof.Machine.execSubmissionDoorbell fn ring value s
  | .completionDoorbell fn ring value => Sys2Proof.Machine.execCompletionDoorbell fn ring value s
  | .submissionFetch fn ring now d poisoned => Sys2Proof.Machine.execSubmissionFetch fn ring now d poisoned s
  | .mailboxPost fn mb words => Sys2Proof.Machine.execMailboxPost fn mb words s
  | .collisionClear fn mb value => Sys2Proof.Machine.execCollisionClear fn mb value s
  | .cairnLoRead fn => Sys2Proof.Machine.execCairnLoRead fn s
  | .supplyLatchClear value => Sys2Proof.Machine.execSupplyLatchClear value s
  | .registerWrite fn bar offset value => Sys2Proof.Machine.execRegisterWrite fn bar offset value s
  | .ringCreate fn mb posts => Sys2Proof.Machine.execRingCreate fn mb posts s
  | .ringDestroy fn mb posts => Sys2Proof.Machine.execRingDestroy fn mb posts s
  | .attachBegin fn mb posts => Sys2Proof.Machine.execAttachBegin fn mb posts s
  | .attach fn mb posts => Sys2Proof.Machine.execAttach fn mb posts s
  | .fwWrite src dma => Sys2Proof.Machine.execFwWrite src dma s
  | .fwVerify src sigOk refusing => Sys2Proof.Machine.execFwVerify src sigOk refusing s
  | .fwActivate src refusing => Sys2Proof.Machine.execFwActivate src refusing s
  | .fwDisarm src refusing => Sys2Proof.Machine.execFwDisarm src refusing s
  | .fwConfirm src refusing => Sys2Proof.Machine.execFwConfirm src refusing s
  | .lockWrite src dma sigOk => Sys2Proof.Machine.execLockWrite src dma sigOk s
  | .fwStatus src => Sys2Proof.Machine.execFwStatus src s
  | .fwArmedRestart f => Sys2Proof.Machine.execFwArmedRestart f s
  | .firmwareBlock pkt sigOk refusing => Sys2Proof.Machine.execFirmwareBlock pkt sigOk refusing s
  | .functionReset kind rate width => Sys2Proof.Machine.execFunctionReset kind rate width s
  | .functionResetDone fn => Sys2Proof.Machine.execFunctionResetDone fn s
  | .openSession d => Sys2Proof.Machine.execOpenSession d s
  | .submitPart d => Sys2Proof.Machine.execSubmitPart d s
  | .ackMsg d => Sys2Proof.Machine.execAckMsg d s
  | .imageData d => Sys2Proof.Machine.execImageData d s
  | .invalidDatagram d => Sys2Proof.Machine.execInvalidDatagram d s
  | .ackTimer session now => Sys2Proof.Machine.execAckTimer session now s
  | .datagramResend session now => Sys2Proof.Machine.execDatagramResend session now s
  | .ethLink port up => Sys2Proof.Machine.execEthLink port up s
  | .flitData link f => Sys2Proof.Machine.execFlitData link f s
  | .flitIdle link f => Sys2Proof.Machine.execFlitIdle link f s
  | .retryRequest link f => Sys2Proof.Machine.execRetryRequest link f s
  | .linkDown link now => Sys2Proof.Machine.execLinkDown link now s
  | .linkUp link device peerLink now => Sys2Proof.Machine.execLinkUp link device peerLink now s
  | .linkLost link now => Sys2Proof.Machine.execLinkLost link now s
  | .slotTransfer pitch now descriptor found => Sys2Proof.Machine.execSlotTransfer pitch now descriptor found s
  | .slotDataPacket pkt destOffset => Sys2Proof.Machine.execSlotDataPacket pkt destOffset s
  | .transferResponse pkt => Sys2Proof.Machine.execTransferResponse pkt s
  | .transferResend transfer now => Sys2Proof.Machine.execTransferResend transfer now s
  | .managementMessage pkt => Sys2Proof.Machine.execManagementMessage pkt s
  | .timeRequest now => Sys2Proof.Machine.execTimeRequest now s
  | .timeRequestReceived link f t2 t2frac t3 t3frac => Sys2Proof.Machine.execTimeRequestReceived link f t2 t2frac t3 t3frac s
  | .timeResponse link f t4 t4frac => Sys2Proof.Machine.execTimeResponse link f t4 t4frac s
  | .ppsEdge => Sys2Proof.Machine.execPpsEdge s
  | .cxlLinkDown port now => Sys2Proof.Machine.execCxlLinkDown port now s
  | .cxlRetrainDone port now => Sys2Proof.Machine.execCxlRetrainDone port now s
  | .cxlPortLost port now => Sys2Proof.Machine.execCxlPortLost port now s
  | .patrolScrub da errors content poison => Sys2Proof.Machine.execPatrolScrub da errors content poison s
  | .stackTemperatureReading stack temp now => Sys2Proof.Machine.execStackTemperatureReading stack temp now s
  | .retentionClose unit now => Sys2Proof.Machine.execRetentionClose unit now s
  | .retentionEntered unit => Sys2Proof.Machine.execRetentionEntered unit s
  | .lateWake unit => Sys2Proof.Machine.execLateWake unit s
  | .wakeDone unit => Sys2Proof.Machine.execWakeDone unit s
  | .rangerLockstep pair f => Sys2Proof.Machine.execRangerLockstep pair f s
  | .sectorErase headOk eraseOk programOk => Sys2Proof.Machine.execSectorErase headOk eraseOk programOk s
  | .mainFailure now millivolts => Sys2Proof.Machine.execMainFailure now millivolts s
  | .mainRestored now f => Sys2Proof.Machine.execMainRestored now f s
  | .powerLoss => Sys2Proof.Machine.execPowerLoss s
  | .backupPark now => Sys2Proof.Machine.execBackupPark now s
  | .governorLower now power power20 => Sys2Proof.Machine.execGovernorLower now power power20 s
  | .governorRaise now power => Sys2Proof.Machine.execGovernorRaise now power s
  | .junctionReading now sensors => Sys2Proof.Machine.execJunctionReading now sensors s
  | .coolantHigh now inlet => Sys2Proof.Machine.execCoolantHigh now inlet s
  | .coolantCapLifted now inlet => Sys2Proof.Machine.execCoolantCapLifted now inlet s
  | .vauxLoss => Sys2Proof.Machine.execVauxLoss s
  | .vinBackupOutOfRange millivolts f => Sys2Proof.Machine.execVinBackupOutOfRange millivolts f s
  | .vddCoreGood => Sys2Proof.Machine.execVddCoreGood s
  | .arraysTested failedCamps => Sys2Proof.Machine.execArraysTested failedCamps s
  | .freedRangeScrubbed index => Sys2Proof.Machine.execFreedRangeScrubbed index s
  | .spdmRequest r => Sys2Proof.Machine.execSpdmRequest r s
  | .icmpv6Message m => Sys2Proof.Machine.execIcmpv6Message m s

end Sys2Proof.Machine
end

