-- ==== Sys2Proof/Safety.lean ====
section
/-! DEFINITION. What counts as a sound state, and the terms in which claims are stated. -/

namespace Sys2Proof.Machine

/-! ### Sound states -/

/-- The device memory is in canonical form: addresses rise strictly and no entry equals what an unlisted address reads as. -/
def State.memOk (s : State) : Bool := memWf s.mem.bytes

/-- The scratchpads of every camp are in canonical form. -/
def State.scratchOk (s : State) : Bool := s.camps.all fun c => c.2.cores.all fun k => memWf k.2.sp

/-- The event window, event_count and the ring in Ranger memory hold what they can hold, and there are eight hash accumulator instances
(R113, R413, R450, R463). -/
def State.logOk (s : State) : Bool :=
  decide (s.ev.window.length ≤ 1024) && decide (s.ev.written < 2 ^ 32) && decide (s.ev.ramRing.length ≤ 65536) && decide (s.hash.length = 8)

/-! ### A camp's sequencer at a command (R146) -/

/-- The sequencer of `camp`, which has pitch-relative number `rel` in the pitch of record `r`, runs program `p`, is not fenced, and stands
at the command word `w`. -/
abbrev AtCommand (s : State) (camp : Nat) (w : CmdWord) (r : PitchRecord) (rel : Nat) (p : Program) : Prop :=
  camp < Config.camps ∧ homeOf s camp = some (r, rel) ∧ (campOf s camp).prog = some p ∧ (campOf s camp).fenced = false
    ∧ p.pc < p.commands ∧ mget (campOf s camp).cmdMem (p.base + p.pc) = some w

/-- The context in which a command runs: the enclosing loops add i × stride to scratchpad offsets and slot numbers (R151). -/
abbrev ctxAt (camp : Nat) (r : PitchRecord) (rel : Nat) (p : Program) (w : CmdWord) : Ctx :=
  ⟨camp, r, rel, p, w, strideSum (·.spStride) p.loops, strideSum (·.slotStride) p.loops⟩

/-- The program at its next command: the innermost body that ends there runs again or is left (R146, R151). -/
abbrev nextProg (p : Program) : Program :=
  { p with loops := (closeLoops p.loops (p.pc + 1)).1, pc := (closeLoops p.loops (p.pc + 1)).2 }

/-- The program has a command after the one at hand (R146: it ends with END). -/
abbrev HasNext (p : Program) : Prop := (closeLoops p.loops (p.pc + 1)).2 < p.commands

/-- The word is well formed for its opcode: no reserved bit is set (R147, R149). -/
abbrev FieldsClear (w : CmdWord) (opcode : Nat) (fields : List (Nat × Nat)) : Prop :=
  cmdOpcode w = opcode ∧ reservedClear w fields = true

/-- The state in which only camp `camp` differs from `s`: its program has gone on to the next command, its wait is cleared, and its cores
are those of `t`. -/
abbrev OnlyCoresOf (s t : State) (camp : Nat) (p : Program) : Prop :=
  t = putCamp s camp { campOf s camp with prog := some (nextProg p), blocked := none, cores := (campOf t camp).cores }

/-- The command has changed the cores of the list by `f` of the rank and the core, and nothing else but that its program has gone on. -/
abbrev CoresChanged (s t : State) (camp : Nat) (p : Program) (cores : List Nat) (f : Nat → Core → Core) : Prop :=
  OnlyCoresOf s t camp p
    ∧ (∀ c q, (c, q) ∈ cores.zipIdx → coreOf (campOf t camp) c = f q (coreOf (campOf s camp) c))
    ∧ ∀ c, c ∉ cores → coreOf (campOf t camp) c = coreOf (campOf s camp) c

/-- The window register of the word's task holds bytes `o` to `o + l` (in 8-byte units) on every core of the mask, and admits a write
where one is made (R154). -/
abbrev WindowHolds (s : State) (camp : Nat) (w : CmdWord) (o l : Nat) (write : Bool) : Prop :=
  ∀ c ∈ cmdCores w, windowFault (coreOf (campOf s camp) c) c (cmdTask w) o l write = none

/-- Every port, stack, bank and channel under the ranges admits an access (R248, R258, R260, R261). -/
abbrev Admitted (s : State) (rs : List (Nat × Nat)) : Prop :=
  rs.any (rangeStalls s) = false ∧ ∀ u ∈ unitsAsked s rs, (unitAt s u).state ≠ .retained ∧ (unitAt s u).state ≠ .waking

/-- Such an access is admitted to the camp, whose own Larder slice is not limited (R476). -/
abbrev CampAdmitted (s : State) (camp : Nat) (rs : List (Nat × Nat)) : Prop :=
  (rs = [] ∨ sliceLimited s (sliceOf camp) = false) ∧ Admitted s rs

/-- The coded regions under the ranges, if any, decode on the way to the command, which leaves `s1`: `s` itself where none is coded (R275, R283). -/
abbrev StreamDecodes (c : Ctx) (ranges : List (Nat × Nat)) (s s1 : State) : Prop :=
  withStream c false ranges s .done = .done s1 ∧ ((∀ x ∈ ranges, codedAt s c.pr.pitch x.1 = none) → s1 = s)

/-- The state in which the banks and channels under the ranges have noted an access (R259, R261): nothing but their retention records differs. -/
abbrev touched (s : State) (rs : List (Nat × Nat)) : State := touchUnits (unitsAsked s rs) s

/-- Findings of the array checks that abandon the step, and whose responses wait for no port, take the place of the command's effect (R242, R243). -/
abbrev FindingsEnd (s : State) (rs : List (Nat × Nat)) (camp p : Nat) (row : List Finding → Instr) : Prop :=
  ∀ found u, found.any (findingWaits (touched s rs) false) = false → applyFindings camp p false found (touched s rs) = (u, true) →
    exec (row found) s = .next u

/-- Bytes of device memory outside a range read as before. -/
abbrev MemoryElsewhere (s t : State) (a n : Nat) : Prop :=
  ∀ x, x < a ∨ a + n ≤ x → rdByte t.mem.bytes x = rdByte s.mem.bytes x

/-- A packet given to a port again waits there, or its first flit has gone out since `s` (R387, R397, R398). -/
abbrev SentAgain (s t : State) (port : Nat) (p : List Byte) : Prop :=
  (port, p) ∈ t.fab.waiting ∨ ∃ l f, Output.frame l f ∈ t.out.drop s.out.length ∧ f.payload = p.take 256

/-- A vector operation word of opcode `op` that uses only the imm bits of `mask` (R123, R125, R149). -/
abbrev VectorWord (w : CmdWord) (op mask : Nat) : Prop :=
  FieldsClear w 0x0D [(99, 32)] ∧ vopOp w = op ∧ 1 ≤ vopRepeat w ∧ cmdCores w ≠ [] ∧ vopImm w &&& (255 - mask) = 0

/-- An elementwise operation of the vector engine: its row, its opcode and what it computes from elements of a, b and c. -/
structure ElementRow where
  row : Nat → CmdWord → Instr
  op : Nat
  f : Word → Word → Word → Word

/-- The elementwise operations (R124, R136 to R139), where the FMA units' residue check finds nothing. -/
def elementRows : List ElementRow :=
  [⟨fun c w => .vAdd c w [], 0x01, fun a b _ => fpAdd a b⟩, ⟨fun c w => .vMul c w [], 0x02, fun a b _ => fpMul a b⟩,
   ⟨fun c w => .vFma c w [], 0x03, fpFma⟩, ⟨.vMin, 0x04, fun a b _ => fpMin a b⟩, ⟨.vMax, 0x05, fun a b _ => fpMax a b⟩,
   ⟨.vCmpeq, 0x06, fun a b _ => if fpEq a b then 0xFFFFFFFF#32 else 0#32⟩,
   ⟨.vCmplt, 0x07, fun a b _ => if fpLt a b then 0xFFFFFFFF#32 else 0#32⟩,
   ⟨.vCmple, 0x08, fun a b _ => if fpLe a b then 0xFFFFFFFF#32 else 0#32⟩,
   ⟨.vSel, 0x09, fun a b c => if c = 0#32 then b else a⟩, ⟨.vCvtfi, 0x0A, fun a _ _ => cvtFI a⟩, ⟨.vCvtif, 0x0B, fun a _ _ => cvtIF a⟩,
   ⟨.vCvtbf, 0x0C, fun a _ _ => cvtBF a⟩, ⟨.vExpx, 0x0D, fun a _ _ => expX a⟩, ⟨.vExpi, 0x0E, fun a b _ => expI a b⟩,
   ⟨.vScalb, 0x0F, fun a b _ => scalb a b⟩, ⟨fun c w => .vExp2 c w [], 0x18, fun a _ _ => exp2 a⟩, ⟨fun c w => .vRcp c w [], 0x19, fun a _ _ => rcp a⟩,
   ⟨fun c w => .vRsq c w [], 0x1A, fun a _ _ => rsq a⟩]

/-- Each core of the mask has an accepted tile under the word's base and width, with the slab inside it (R131). -/
abbrev TilesReady (s : State) (camp : Nat) (w : CmdWord) : Prop :=
  ∀ c ∈ cmdCores w, (tileAt (coreOf (campOf s camp) c) (vopBase w) (vopWide w)).any fun t =>
    decide (t.state = .accepted) && decide (16 * vopSlab w < t.height)

/-- The length table that a command over tagged rows needs, or none where no buffer row of the cores is tagged (R135, R176). -/
abbrev TableFor (s : State) (r : PitchRecord) (rel : Nat) (p : Program) (cores : List Nat) (camp : Nat) (tbl : Option LengthTable) : Prop :=
  let untagged := cores.all fun c => decide ((coreOf (campOf s camp) c).req.tags = [])
  match slotOf s r p.tableSlot with
  | none => untagged = true ∧ tbl = none
  | some x =>
    if untagged then tbl = none
    else
      let t := parseTable (peekBytes s (slotDa s r x) x.size)
      canRead x rel = true ∧ slicePaused s r x = false ∧ (∀ e ∈ t.rows, e.context + e.newTokens ≤ 2 ^ 32) ∧ tbl = some t

/-- The accepted command `rid` of opcode `op` is due as request `q` of the pitch of record `r` (R334, R341), and neither a stopped pitch (R458)
nor an armed restart (R445) refuses it. -/
abbrev Due (s : State) (rid op : Nat) (q : Request) (r : PitchRecord) : Prop :=
  dueReq s rid op = some (q, r) ∧ (namesNone q = true ∨ handleOk s q.pitch q.handle = true)
    ∧ (pitchOf s q.pitch).stopped = false ∧ s.boot.arm = none

/-- Such a command may act, since no preempting park ends the requests of its sequence (R311). -/
abbrev MayAct (s : State) (rid op : Nat) (q : Request) (r : PitchRecord) : Prop :=
  Due s rid op q r ∧ (namesNone q = true ∨ preempted s (handleIndex q.handle) = false)

end Sys2Proof.Machine
end

