-- ==== Sys2Proof/Certificates/Slice0/Obligations.lean ====
section
/-! DEFINITION. The statements for the provers. -/

section

open Sys2Proof Sys2Proof.Machine

/-! ### The queue and the whole machine -/

/-- A step takes the command at the front of the queue and runs it on the state with the queue's rest. -/
def Obligations.StepRunsTheFrontCommand : Prop :=
  ∀ (s : State) (c : Instr) (rest : List Instr), s.pending = c :: rest → step s = exec c { s with pending := rest }

/-- On an empty queue the model lets one nanosecond pass (DESIGN CHOICE, notes/assumptions/1.md): nothing but the Cairn counter changes, the
counter of 64 bits does not run backwards but for its wrap (R403), and without a correction in progress it counts one (R401). -/
def Obligations.EmptyQueueCountsANanosecond : Prop :=
  ∀ s : State, s.pending = [] →
    ∃ t, step s = .next t ∧ t = { s with cairn := t.cairn } ∧ (s.cairn.count + 2 < 2 ^ 64 → s.cairn.count ≤ t.cairn.count)
      ∧ (s.cairn.slew = 0 → t.cairn = { s.cairn with count := (s.cairn.count + 1) % 2 ^ 64 })

/-- Every well-formed command answers a next state, but for a patrol scrub of an address that HBM does not have (R237), which stops. -/
def Obligations.WellFormedCommandsComplete : Prop :=
  ∀ (c : Instr) (s : State), c.wellFormed = true →
    (∃ t, exec c s = .next t)
      ∨ (∃ da errors content poison, c = .patrolScrub da errors content poison ∧ (s.mem.n * 2 ^ 30 ≤ da ∨ da % 32 ≠ 0) ∧ exec c s = .fault .daUnmapped)

/-- Every step keeps device memory and every scratchpad in canonical form: addresses rise strictly and no entry equals what an unlisted
address reads as. -/
def Obligations.MemoryStaysCanonical : Prop :=
  ∀ s t : State, s.memOk = true → s.scratchOk = true → step s = .next t → t.memOk = true ∧ t.scratchOk = true

/-- Every step keeps the event window at its latest 1,024 records, event_count a 32-bit number, and eight hash accumulator instances (R113,
R413). -/
def Obligations.EventLogStaysBounded : Prop :=
  ∀ s t : State, s.logOk = true → step s = .next t → t.logOk = true

/-- The state after reset is canonical, has an empty log and no command waiting; no pitch, no sequence and no camp program is there.
(Canonical form and the empty lists are of the model: notes/assumptions/3.md.) -/
def Obligations.ResetStateIsSound : Prop :=
  State.reset.memOk = true ∧ State.reset.scratchOk = true ∧ State.reset.logOk = true ∧ State.reset.pending = [] ∧ State.reset.pitches = []
    ∧ State.reset.ev.written = 0 ∧ (∀ i, (seqOf State.reset i).state = .free) ∧ (∀ c, (campOf State.reset c).prog = none)

/-- While a module is ready its Cairn count never runs backwards (R403): no step between two ready states lowers it, short of the end of its
64 bits. -/
def Obligations.CountNeverRunsBackwards : Prop :=
  ∀ s t : State, s.boot.ready = true → s.cairn.count + 2 < 2 ^ 64 → step s = .next t → t.boot.ready = true → s.cairn.count ≤ t.cairn.count

/-- The bucket of a key is the exclusive or of its bits 12 to 0, 25 to 13 and 31 to 26 (R114). -/
def Obligations.HashBucketFoldsTheKey : Prop :=
  ∀ key : Word, BitVec.ofNat 13 (bucketOf key.toNat)
      = key.extractLsb' 0 13 ^^^ key.extractLsb' 13 13 ^^^ (key.extractLsb' 26 6).setWidth 13
    ∧ bucketOf key.toNat < 8192

/-- A VF whose pitch has no record, is not enabled, or is disabled with its group (R438) answers every mailbox message, which the mailboxes
accept from phase 9 of a start on (R435), with NOT_PERMITTED, and ignores its doorbells (R410). -/
def Obligations.BarredFunctionsAreNotServed : Prop :=
  ∀ (s : State) (fn : Nat), 1 ≤ fn → fn < 65 → fnReachable s fn = true →
    (recordOf s (fn - 1) = none ∨ ∃ r, recordOf s (fn - 1) = some r ∧ (r.enabled = false ∨ (pitchOf s (fn - 1)).groupDisabled = true)) →
      (∀ (mb : Nat) (dma : List Byte) (ok : Bool), mailOk fn mb = true → 9 ≤ s.boot.phase → (mailOf s fn mb).state = .posted →
        ∀ c ∈ [Instr.ringCreate fn mb [], .ringDestroy fn mb [], .attachBegin fn mb [], .attach fn mb [], .fwWrite (.mailbox fn mb []) dma,
            .fwVerify (.mailbox fn mb []) ok [], .fwActivate (.mailbox fn mb []) [], .fwDisarm (.mailbox fn mb []) [], .fwConfirm (.mailbox fn mb []) [],
            .lockWrite (.mailbox fn mb []) dma ok, .fwStatus (.mailbox fn mb [])],
          ∃ t, exec c s = .next t ∧ (mailOf t fn mb).ackCode = 0x0030 ∧ (mailOf t fn mb).ackValid = true
            ∧ (mailOf t fn mb).ackSeq = (mailOf s fn mb).postedSeq ∧ (mailOf t fn mb).state = .empty ∧ t = { s with host := t.host, out := t.out })
      ∧ ∀ (ring : Nat) (value : Word), ring < 16 →
          exec (.submissionDoorbell fn ring value) s = .next s ∧ exec (.completionDoorbell fn ring value) s = .next s

/-- The order of R110 is total: a larger value ranks first; for FP32 the zeros are equal and a NaN ranks below every number; equal values
and two NaNs rank by position, the lower first; of two different positions exactly one ranks first, and the order is transitive. An entry
holds the input's bits unchanged. -/
def Obligations.RankingIsTotal : Prop :=
  (∀ a b : Ranked,
      (b.v.toInt < a.v.toInt → ranksBefore true a b = true)
      ∧ (fpLt b.v a.v = true → ranksBefore false a b = true)
      ∧ (isNaN a.v = false → isNaN b.v = true → ranksBefore false a b = true)
      ∧ (isZero a.v = true → isZero b.v = true → ranksBefore false a b = decide (a.pos < b.pos))
      ∧ (isNaN a.v = true → isNaN b.v = true → ranksBefore false a b = decide (a.pos < b.pos))
      ∧ (∀ int, a.v = b.v → ranksBefore int a b = decide (a.pos < b.pos)))
  ∧ (∀ (int : Bool) (a b c : Ranked), (a.pos ≠ b.pos → ranksBefore int a b = !ranksBefore int b a)
      ∧ (ranksBefore int a b = true → ranksBefore int b c = true → ranksBefore int a c = true))
  ∧ ∀ (int : Bool) (e : Ranked), (topBytes int 1 [e]).take 4 = leBytes 4 e.v.toNat

/-! ### Camp commands -/

/-- NOP, FENCE with no tile run or closing write under way, and the vector NOP change nothing but the camp's place in its program. WDOG sets
the program's watchdog limit, 0 meaning 1,000 µs; LOOP enters its body or, with a count of 0, goes past it; TILECFG binds the tile
configuration (R149, R151). END of a program with no tile run or closing write under way ends the program, drops its run-ahead data (R146,
R171), and signals the sync object that it names (R149, R162). Completes: cNop, cEnd, cWdog, cLoop, cFence, cTilecfg, vNop. -/
def Obligations.SequencerCommandsMoveTheProgram : Prop :=
  (∀ (s : State) (camp : Nat) (w : CmdWord) (r : PitchRecord) (rel : Nat) (p : Program),
    AtCommand s camp w r rel p → HasNext p →
      let t := putCamp s camp { campOf s camp with prog := some (nextProg p), blocked := none }
      (FieldsClear w 0x00 [] → exec (.cNop camp w) s = .next t)
      ∧ (FieldsClear w 0x05 [] → campBusy (campOf s camp) = false → landing s r rel = false → exec (.cFence camp w) s = .next t)
      ∧ (VectorWord w 0x00 0 → exec (.vNop camp w) s = .next t))
  ∧ (∀ (s : State) (camp : Nat) (w : CmdWord) (r : PitchRecord) (rel : Nat) (p : Program),
    AtCommand s camp w r rel p →
      (FieldsClear w 0x03 [(63, 32)] → fld w 63 32 ≤ 1000000 → HasNext p →
        exec (.cWdog camp w) s = .next (putCamp s camp { campOf s camp with
          prog := some { nextProg p with limitUs := if fld w 63 32 = 0 then 1000 else fld w 63 32 }, blocked := none }))
      ∧ (FieldsClear w 0x04 [(52, 32), (87, 64), (127, 96)] → loopRule p w = true → 0 < loopCount p w →
        exec (.cLoop camp w) s = .next (putCamp s camp { campOf s camp with
          prog := some { p with
            loops := ⟨p.pc + 1, p.pc + 1 + fld w 47 32, loopCount p w, 0, fld w 111 96, fld w 127 112⟩ :: p.loops, pc := p.pc + 1 }
          blocked := none }))
      ∧ (FieldsClear w 0x04 [(52, 32), (87, 64), (127, 96)] → loopRule p w = true → loopCount p w = 0 →
        exec (.cLoop camp w) s = .next (moveTo s camp p.loops (p.pc + 1 + fld w 47 32)))
      ∧ (FieldsClear w 0x0B [(127, 32)] → HasNext p →
        exec (.cTilecfg camp w) s = .next (putCamp s camp { campOf s camp with
          prog := some (nextProg p), blocked := none
          cfg := some ⟨cmdTask w, fld w 55 32, fld w 71 56 + strideSum (·.spStride) p.loops, fld w 87 72, orMax (fld w 111 88), fld w 127 112⟩ })))
  ∧ (∀ (s : State) (camp : Nat) (w : CmdWord) (r : PitchRecord) (rel : Nat) (p : Program),
    AtCommand s camp w r rel p → FieldsClear w 0x01 [(48, 32)] → campBusy (campOf s camp) = false → landing s r rel = false →
      let t := putCamp s camp { campOf s camp with prog := none, blocked := none, ahead := [] }
      (flag w 48 = false → exec (.cEnd camp w) s = .next t)
      ∧ (flag w 48 = true → fld w 47 32 < r.syncCount → ∀ u, signalSync t r.pitch (fld w 47 32) 1 = some u →
          exec (.cEnd camp w) s = .next u))

/-- SETWIN loads a window register of every core of the mask with the word's base, length and bits (R149, R153). VLD writes a register of
every core of the mask from its window or from a slot, or the capability word to a scalar register, and nothing else; a slot read by VLD is
not released (R122, R149, R152). VST to the scratchpad, in FP32, in BF16, or in T5 of ±1, ±0 and NaN (a zero trit, R145), stores a register
of every core of the mask in its window and changes no device memory, and without a NaN nothing else; to a slot it stores the registers at
slot offset + rank × size, and every other byte of device memory reads as before (R149, R150). Completes: cSetwin, cVld, cVst. -/
def Obligations.WindowsAndRegistersAreLoadedAndStored : Prop :=
  (∀ (s : State) (camp : Nat) (w : CmdWord) (r : PitchRecord) (rel : Nat) (p : Program),
    AtCommand s camp w r rel p → HasNext p → FieldsClear w 0x02 [(34, 32), (98, 64)] → cmdCores w ≠ [] →
      ∃ t, exec (.cSetwin camp w) s = .next t
        ∧ CoresChanged s t camp p (cmdCores w) (fun _ k => { k with win := mset k.win (fld w 34 32) (setwinValue w) })
        ∧ winBase (setwinValue w) = fld w 79 64 ∧ winLength (setwinValue w) = fld w 95 80
        ∧ winResident (setwinValue w) = flag w 96 ∧ winWritable (setwinValue w) = flag w 98)
  ∧ (∀ (s : State) (camp : Nat) (w : CmdWord) (r : PitchRecord) (rel : Nat) (p : Program),
    AtCommand s camp w r rel p → HasNext p → FieldsClear w 0x0E [(38, 32), (123, 64)] → cmdCores w ≠ [] →
    let cnt := if flag w 38 then 1 else 128
    let size := (if flag w 35 then 2 else 4) * cnt
    let o := fld w 79 64 + strideSum (·.spStride) p.loops
    let n := fld w 99 80 + strideSum (·.slotStride) p.loops
    let so := 8 * fld w 123 100;
      (fld w 37 36 = 0 → WindowHolds s camp w o ((size + 7) / 8) false →
        ∃ t, exec (.cVld camp w []) s = .next t
          ∧ CoresChanged s t camp p (cmdCores w) fun _ k => loadInto w k (loadElems (flag w 35) cnt (spRead k (cmdTask w) o size)))
      ∧ (fld w 37 36 = 1 → ∀ x, slotOf s r n = some x → so + size ≤ x.size → routeStays r rel x.home = true → canRead x rel = true →
          slicePaused s r x = false → CampAdmitted s camp [(slotDa s r x + so, size)] →
        FindingsEnd s [(slotDa s r x + so, size)] camp r.pitch (.cVld camp w ·)
        ∧ ∃ t, exec (.cVld camp w []) s = .next t
          ∧ CoresChanged (touched s [(slotDa s r x + so, size)]) t camp p (cmdCores w) fun _ k =>
              loadInto w k (loadElems (flag w 35) cnt (peekBytes s (slotDa s r x + so) size)))
      ∧ (fld w 37 36 = 2 → flag w 38 = true →
        ∃ t, exec (.cVld camp w []) s = .next t
          ∧ CoresChanged s t camp p (cmdCores w) fun _ k => { k with sreg := mset k.sreg (fld w 34 32) 0x08808420#32 }))
  ∧ (∀ (s : State) (camp : Nat) (w : CmdWord) (r : PitchRecord) (rel : Nat) (p : Program),
    AtCommand s camp w r rel p → HasNext p → FieldsClear w 0x0F [(39, 32), (123, 64)] → cmdCores w ≠ [] → fld w 36 35 ≤ 2 →
    (fld w 36 35 = 2 → ∀ c ∈ cmdCores w, ∀ v ∈ stored w (coreOf (campOf s camp) c), storeTrit v ≠ none) →
    let size := storeSize (fld w 36 35) (flag w 38)
    let o := fld w 79 64 + strideSum (·.spStride) p.loops
    let n := fld w 99 80 + strideSum (·.slotStride) p.loops
    let so := 8 * fld w 123 100
    let units := (size + 7) / 8
    let bytes (c : Nat) : List Byte := storeBytes (fld w 36 35) (stored w (coreOf (campOf s camp) c));
      (flag w 37 = false → WindowHolds s camp w o units true →
        ∃ t, exec (.cVst camp w []) s = .next t
          ∧ (∀ c ∈ cmdCores w, coreOf (campOf t camp) c = spWrite (coreOf (campOf s camp) c) (cmdTask w) o (bytes c))
          ∧ (∀ c, c ∉ cmdCores w → coreOf (campOf t camp) c = coreOf (campOf s camp) c) ∧ t.mem = s.mem
          ∧ ((fld w 36 35 = 2 → ∀ c ∈ cmdCores w, ∀ v ∈ stored w (coreOf (campOf s camp) c), isNaN v = false) → OnlyCoresOf s t camp p))
      ∧ (flag w 37 = true → ∀ x, slotOf s r n = some x → so + ((cmdCores w).length - 1) * (8 * units) + size ≤ x.size →
          routeStays r rel x.home = true → x.producer = rel → canWrite x = true → slicePaused s r x = false →
          CampAdmitted s camp [(slotDa s r x + so, 8 * units * (cmdCores w).length)] →
        ∃ t, exec (.cVst camp w []) s = .next t
          ∧ (∀ c q, (c, q) ∈ (cmdCores w).zipIdx → peekBytes t (slotDa s r x + so + q * (8 * units)) (bytes c).length = bytes c)
          ∧ (∀ x', (∀ c q, (c, q) ∈ (cmdCores w).zipIdx →
                x' < slotDa s r x + so + q * (8 * units) ∨ slotDa s r x + so + q * (8 * units) + (bytes c).length ≤ x') →
              rdByte t.mem.bytes x' = rdByte s.mem.bytes x')
          ∧ slotOf t r n = some (fillSlot x (flag w 39)) ∧ (campOf t camp).cores = (campOf s camp).cores))

/-- SIGNAL adds its value to a sync object, where no camp of the pitch waits on it; the waits on it that the new count satisfies complete in
the SIGNAL (R162, R164; DEDUCED: notes/assumptions/17.md), a TAKE with its subtraction. Where the count would pass 2^32 − 1 the SIGNAL is a
program fault (R163). A satisfied WAIT only goes on. A satisfied TAKE subtracts its value and makes the camp the object's consumer; every
other sync object of the pitch stays as it was (R162, R163). Completes: cSignal, cWait, cTake. -/
def Obligations.SyncCommandsMoveTheirCount : Prop :=
  (∀ (s : State) (camp : Nat) (w : CmdWord) (r : PitchRecord) (rel : Nat) (p : Program),
    AtCommand s camp w r rel p → HasNext p → FieldsClear w 0x11 [(51, 32), (95, 64)] → fld w 51 48 = 0 →
    let n := fld w 47 32
    let total := (syncOf s r.pitch n).count + syncValue w
    let waits (c : Nat) (b : Blocked) : Prop := (campOf s c).blocked = some b ∧ campIn s r.pitch c = true ∧ b.reason = .sync n
    let gone (u : State) (c : Nat) : Prop := ∃ q, (campOf s c).prog = some q ∧ campOf u c = { campOf s c with prog := some (nextProg q), blocked := none };
      n < r.syncCount →
      (2 ^ 32 ≤ total → exec (.cSignal camp w) s = .next (raiseFault s camp (progFault 0x0306 0xFF n) 0x11 0))
      ∧ (total < 2 ^ 32 →
        ∃ u, signalSync s r.pitch n (syncValue w) = some u ∧ exec (.cSignal camp w) s = .next (advance u camp)
        ∧ ((∀ c b, ¬waits c b) → u = putSync s r.pitch n { syncOf s r.pitch n with count := total })
        ∧ ((∀ c b, waits c b → fld b.w 51 48 ≠ 2 ∧ ∃ q, (campOf s c).prog = some q ∧ HasNext q) →
            (syncOf u r.pitch n).count = total ∧ ∀ c b, waits c b →
              (syncValue b.w ≤ total → gone u c) ∧ (total < syncValue b.w → campOf u c = campOf s c))
        ∧ ∀ d q b, (∀ c b', waits c b' → c = d) → waits d b → (campOf s d).prog = some q → HasNext q → fld b.w 51 48 = 2 →
            (syncValue b.w ≤ total → syncOf u r.pitch n = ⟨total - syncValue b.w, some (srcCamp d)⟩ ∧ gone u d)))
  ∧ (∀ (s : State) (camp : Nat) (w : CmdWord) (r : PitchRecord) (rel : Nat) (p : Program),
    AtCommand s camp w r rel p → HasNext p → reservedClear w [(51, 32), (95, 64)] = true → fld w 47 32 < r.syncCount →
      syncValue w ≤ (syncOf s r.pitch (fld w 47 32)).count →
      (isSync w 1 = true → exec (.cWait camp w) s
          = .next (putCamp s camp { campOf s camp with prog := some (nextProg p), blocked := none }))
      ∧ (isSync w 2 = true →
          ((syncOf s r.pitch (fld w 47 32)).consumer = none ∨ (syncOf s r.pitch (fld w 47 32)).consumer = some (srcCamp camp)) →
          ∃ t, exec (.cTake camp w) s = .next t
            ∧ syncOf t r.pitch (fld w 47 32)
                = ⟨(syncOf s r.pitch (fld w 47 32)).count - syncValue w, some (srcCamp camp)⟩
            ∧ (∀ n, n ≠ fld w 47 32 → syncOf t r.pitch n = syncOf s r.pitch n)
            ∧ (campOf t camp).prog = some (nextProg p) ∧ t = { s with camps := t.camps, pitches := t.pitches }))

/-- SLOTRD brings `length` units from slot offset + rank × length to each core's window (R149); a releasing read counts for the camp and
drains the slot after its last reader (R158, R159). No device memory changes. A finding that abandons the step takes the place of the read
(R243). SLOTWR stores each core's window bytes at slot offset + rank × length: every other byte of device memory reads as before, and the
slot is FILLING (R149, R157 to R159). A finding that abandons the step takes the place of the write (R243). Completes: cSlotrd, cSlotwr. -/
def Obligations.SlotCommandsMoveTheirBytes : Prop :=
  (∀ (s : State) (camp : Nat) (w : CmdWord) (r : PitchRecord) (rel : Nat) (p : Program) (x : Slot),
    AtCommand s camp w r rel p → HasNext p → FieldsClear w 0x06 [(52, 32), (119, 64)] → cmdCores w ≠ [] → 1 ≤ fld w 95 80 →
    let n := fld w 51 32 + strideSum (·.slotStride) p.loops
    let o := fld w 79 64 + strideSum (·.spStride) p.loops
    let l := fld w 95 80
    let so := 8 * fld w 119 96
    WindowHolds s camp w o l true → slotOf s r n = some x → so + (cmdCores w).length * (8 * l) ≤ x.size →
    routeStays r rel x.home = true → canRead x rel = true → slicePaused s r x = false →
    let rs := [(slotDa s r x + so, 8 * l * (cmdCores w).length)]
    CampAdmitted s camp rs → FindingsEnd s rs camp r.pitch (.cSlotrd camp w ·)
      ∧ ∃ t, exec (.cSlotrd camp w []) s = .next t
        ∧ (∀ c q, (c, q) ∈ (cmdCores w).zipIdx → coreOf (campOf t camp) c
            = spWrite (coreOf (campOf s camp) c) (cmdTask w) o (peekBytes s (slotDa s r x + so + 8 * q * l) (8 * l)))
        ∧ (∀ c, c ∉ cmdCores w → coreOf (campOf t camp) c = coreOf (campOf s camp) c)
        ∧ slotOf t r n = some (if flag w 52 then releaseSlot x rel else x)
        ∧ t.mem.bytes = s.mem.bytes ∧ t = { touched s rs with camps := t.camps, pitches := t.pitches })
  ∧ (∀ (s : State) (camp : Nat) (w : CmdWord) (r : PitchRecord) (rel : Nat) (p : Program) (x : Slot),
    AtCommand s camp w r rel p → HasNext p → FieldsClear w 0x07 [(52, 32), (119, 64)] → cmdCores w ≠ [] → 1 ≤ fld w 95 80 →
    let n := fld w 51 32 + strideSum (·.slotStride) p.loops
    let o := fld w 79 64 + strideSum (·.spStride) p.loops
    let l := fld w 95 80
    let so := 8 * fld w 119 96
    WindowHolds s camp w o l false → slotOf s r n = some x → so + (cmdCores w).length * (8 * l) ≤ x.size →
    routeStays r rel x.home = true → x.producer = rel → canWrite x = true → slicePaused s r x = false →
    let rs := [(slotDa s r x + so, 8 * l * (cmdCores w).length)]
    CampAdmitted s camp rs → FindingsEnd s rs camp r.pitch (.cSlotwr camp w ·)
      ∧ ∃ t, exec (.cSlotwr camp w []) s = .next t
        ∧ (∀ c q, (c, q) ∈ (cmdCores w).zipIdx →
            peekBytes t (slotDa s r x + so + q * (8 * l)) (8 * l) = spRead (coreOf (campOf s camp) c) (cmdTask w) o (8 * l))
        ∧ MemoryElsewhere s t (slotDa s r x + so) ((cmdCores w).length * (8 * l))
        ∧ slotOf t r n = some (fillSlot x (flag w 52))
        ∧ (campOf t camp).cores = (campOf s camp).cores)

/-- MEMRD of plain pitch memory brings `length` units from address + 8 × rank × length to each core's window, and MEMWR of plain pitch
memory stores each core's bytes there: every other byte of device memory reads as before (R149, R368). A read takes data that run-ahead
brought for it in place of the memory's where they are the same bytes (R170, R171), and a finding that abandons the step takes the place of
the transfer (R243). MEMRD of a coded region brings its decoded bytes to the cores' windows, and MEMWR of a writable coded region encodes
theirs (R275 to R277). Where the region's fault ends the command, nothing else happens. Completes: cMemrd, cMemwr. -/
def Obligations.MemoryCommandsMoveTheirBytes : Prop :=
  (∀ (s : State) (camp : Nat) (w : CmdWord) (r : PitchRecord) (rel : Nat) (p : Program),
    AtCommand s camp w r rel p → HasNext p → reservedClear w [(111, 32)] = true → cmdCores w ≠ [] → 1 ≤ fld w 111 96 →
    let a := fld w 79 32
    let o := fld w 95 80 + strideSum (·.spStride) p.loops
    let l := fld w 111 96
    let n := 8 * l * (cmdCores w).length
    let c := ctxAt camp r rel p w
    let rs := [(daOf s r a, n)]
    a % 8 = 0 →
      (cmdOpcode w = 0x08 → WindowHolds s camp w o l true → codedAt s r.pitch a = none → memFault s r (cmdCores w) a l false = none →
        let now := readPitch s r.pitch a (daOf s r a) n;
        (∀ bs, aheadFor c s (daOf s r a) n = some bs → bs = now → aheadNotes c s = [] →
          exec (.cMemrd camp w []) s = .next (advance (scatterRanks c (cmdCores w) o (8 * l) bs (dropAhead c s)) camp))
        ∧ (aheadFor c s (daOf s r a) n ≠ some now → CampAdmitted s camp rs →
          FindingsEnd s rs camp r.pitch (.cMemrd camp w ·)
          ∧ ∃ t, exec (.cMemrd camp w []) s = .next t
          ∧ CoresChanged (dropAhead c (touched s rs)) t camp p (cmdCores w) fun q k =>
              spWrite k (cmdTask w) o ((now.drop (q * (8 * l))).take (8 * l))))
      ∧ (cmdOpcode w = 0x09 → WindowHolds s camp w o l false → ((codedAt s r.pitch a).all fun g => !g.writable) = true →
        memFault s r (cmdCores w) a l true = none → CampAdmitted s camp rs →
        FindingsEnd s rs camp r.pitch (.cMemwr camp w ·)
        ∧ ∃ t, exec (.cMemwr camp w []) s = .next t
          ∧ (∀ c q, (c, q) ∈ (cmdCores w).zipIdx →
              peekBytes t (daOf s r a + q * (8 * l)) (8 * l) = spRead (coreOf (campOf s camp) c) (cmdTask w) o (8 * l))
          ∧ MemoryElsewhere s t (daOf s r a) ((cmdCores w).length * (8 * l))
          ∧ (campOf t camp).cores = (campOf s camp).cores))
  ∧ (∀ (s : State) (camp : Nat) (w : CmdWord) (r : PitchRecord) (rel : Nat) (p : Program) (g : CodedRegion),
    AtCommand s camp w r rel p → reservedClear w [(111, 32)] = true → cmdCores w ≠ [] → 1 ≤ fld w 111 96 →
    let a := fld w 79 32
    let o := fld w 95 80 + strideSum (·.spStride) p.loops
    let l := fld w 111 96
    let c := ctxAt camp r rel p w
    let n := 8 * l * (cmdCores w).length
    let rd := codedReads s r g (a - g.address) n
    let wr := codedWrites s r g (a - g.address) (gatherRanks c (cmdCores w) o (8 * l) s).length
    a % 8 = 0 → codedAt s r.pitch a = some g →
      (cmdOpcode w = 0x08 → CampAdmitted s camp rd → WindowHolds s camp w o l true → memFault s r (cmdCores w) a l false = none →
        ∀ s1 bs, readCoded (touched s rd) (srcCamp camp) r g (a - g.address) n false = (s1, bs) →
          exec (.cMemrd camp w []) s = .next (match bs with
            | some bs => advance (scatterRanks c (cmdCores w) o (8 * l) bs (dropAhead c s1)) camp
            | none => s1))
      ∧ (cmdOpcode w = 0x09 → CampAdmitted s camp wr → WindowHolds s camp w o l false → memFault s r (cmdCores w) a l true = none →
        g.writable = true → ∀ s1 ok, writeCoded (touched s wr) (srcCamp camp) r g (a - g.address) (gatherRanks c (cmdCores w) o (8 * l) s) = (s1, ok) →
          exec (.cMemwr camp w []) s = .next (if ok then advance s1 camp else s1)))

/-- WSTREAM of kind 0 binds the weight tensor whose header stands at its address, or in data that run-ahead brought for it (R170), with its
first stored row and row count (R33, R150); an N:M tensor is one that the package has loaded, with its row-start table. WSTREAM of kind 1
binds the multiplier descriptor at its address with its chunk list (R182 to R184). What stands in a coded region is decoded on the way
(R275). Nothing else changes. TILE with a bound stream and configuration, rows that the window holds, a readable length table and no
unaccepted tile in its accumulators issues its tiles (R131, R149, R150); the camp goes on at once (R89), and a finding that abandons the
step takes the place of the tiles (R243). Each core of the mask then holds a tile under the word's base and width, in the word's mode.
Weights of a coded region are decoded on the way (R275). Completes: cWstream, cTile. -/
def Obligations.StreamsAndTilesIssue : Prop :=
  (∀ (s : State) (camp : Nat) (w : CmdWord) (r : PitchRecord) (rel : Nat) (p : Program),
    AtCommand s camp w r rel p → HasNext p → FieldsClear w 0x0A [(127, 32)] → 1 ≤ fld w 127 104 →
    let a := fld w 78 32
    let c := ctxAt camp r rel p w
    let bound (s1 : State) (x : Stream) : State :=
      putCamp s1 camp { campOf s1 camp with prog := some (nextProg p), blocked := none, stream := some x };
      (flag w 79 = false → addressFault s r noCore a 32 false = none →
        let ahead := if (codedAt s r.pitch a).isSome then none else aheadFor c s (daOf s r a) 32
        let rs := if ahead.isSome then [] else streamRanges s r a 32
        (ahead.isSome = true → aheadNotes c s = []) → CampAdmitted s camp rs →
        ∀ s1, StreamDecodes c [(a, 32)] (touched s rs) s1 →
        let h := parseHeader (ahead.getD (streamBytes s1 r a 32))
        headerOk h = true → (h.format = 2 → (tensorAt s1 r.pitch a h).rowStarts ≠ []) →
        addressFault s1 r noCore a (32 + h.payloadBytes) false = none →
        exec (.cWstream camp w []) s = .next (bound (dropAhead c s1) (.weights (tensorAt s1 r.pitch a h) (fld w 103 80) (fld w 127 104))))
      ∧ (flag w 79 = true → a % 32 = 0 → addressFault s r noCore a 32 false = none →
        CampAdmitted s camp (streamRanges s r a 32) →
        ∀ s1, StreamDecodes c [(a, 32)] (touched s (streamRanges s r a 32)) s1 →
        let d := streamBytes s1 r a 32
        let n := leAt d 8 4
        let list := leAt d 16 8
        multOk d = true →
        let rs := streamRanges s1 r list (16 * n)
        addressFault s1 r noCore list (16 * n) false = none → CampAdmitted s1 camp rs →
        ∀ s2, StreamDecodes c [(list, 16 * n)] (touched s1 rs) s2 →
        ∀ chunks, parseChunks none n (streamBytes s2 r list (16 * n)) = some chunks → (∀ x ∈ chunks, tagOk x.2.2.2 = true) →
        exec (.cWstream camp w []) s
          = .next (bound s2 (.chunks ⟨leAt d 0 1, leAt d 1 1, decide (leAt d 2 1 = 1), leAt d 3 1, leAt d 4 2, leAt d 12 4, chunks⟩))))
  ∧ (∀ (s : State) (camp : Nat) (w : CmdWord) (r : PitchRecord) (rel : Nat) (p : Program) (st : Stream) (cfg : TileCfg) (x : Slot),
    AtCommand s camp w r rel p → HasNext p → FieldsClear w 0x0C [(127, 32)] → tileRule w = true → cmdCores w ≠ [] →
    (campOf s camp).stream = some st → (campOf s camp).cfg = some cfg → cfg.k0 + orMax (fld w 87 64) ≤ cfg.kTotal →
    modeFits (fld w 34 32) st = true → slotOf s r p.tableSlot = some x → canRead x rel = true → slicePaused s r x = false →
    let tbl := parseTable (peekBytes s (slotDa s r x) x.size)
    let c := ctxAt camp r rel p w
    (∀ e ∈ tbl.rows, e.context + e.newTokens ≤ 2 ^ 32) → tileRowFault s c st cfg tbl = none → maskFault s c st cfg tbl = none →
    chunkFault s c st cfg tbl (cmdCores w) = none →
    (∀ k ∈ cmdCores w, ∀ t ∈ (coreOf (campOf s camp) k).tiles,
      t.state = .accepted ∨ spansMeet (tileSpan (fld w 41 39) (flag w 37) (tileRows w)) (tileSpan t.base t.wide t.height) = false) →
    let rs := tileReadRanges s c (cmdCores w) st cfg tbl
    CampAdmitted s camp rs → aheadNotes c s = [] →
      (∀ found u, found.any (findingWaits (touched s rs) true) = false → applyFindings camp r.pitch true found (touched s rs) = (u, true) →
        exec (.cTile camp w found) s = .next u)
      ∧ ∀ s1, StreamDecodes c (streamsOf c st cfg) (touched s rs) s1 →
        exec (.cTile camp w []) s = .next (advance (runTile c (cmdCores w) st cfg tbl [] s1) camp)
        ∧ ∀ t, exec (.cTile camp w []) s = .next t →
          t.mem = s1.mem ∧ ((∀ x ∈ streamsOf c st cfg, codedAt s r.pitch x.1 = none) → t.mem.bytes = s.mem.bytes)
          ∧ ∀ k ∈ cmdCores w, ∃ y, tileAt (coreOf (campOf t camp) k) (fld w 41 39) (flag w 37) = some y
            ∧ y.mode = fld w 34 32 ∧ y.height = tileRows w ∧ y.layer = cfg.layer)

/-- An elementwise operation runs `repeat` times on every core of the mask; each run writes element i of T[d] with the operation on element
i of its sources, all of which are read before T[d] is written (R126), and nothing else. Commands that use the FMA units (R142): fewer than
four discards, no FMA unit of a core in two of them, leave a record each, and the command then runs as if none had been discarded; the
fourth discard retires a core, whose camp is fenced, and the command writes nothing. Completes: vAdd, vMul, vFma, vMin, vMax, vCmpeq,
vCmplt, vCmple, vSel, vCvtfi, vCvtif, vCvtbf, vExpx, vExpi, vScalb, vExp2, vRcp, vRsq. -/
def Obligations.ElementwiseOperationsWriteTheirRegister : Prop :=
  (∀ x ∈ elementRows, ∀ (s : State) (camp : Nat) (w : CmdWord) (r : PitchRecord) (rel : Nat) (p : Program),
    AtCommand s camp w r rel p → HasNext p → VectorWord w x.op 0 →
      ∃ t, exec (x.row camp w) s = .next t
        ∧ CoresChanged s t camp p (cmdCores w) fun _ k =>
            iterate (fun k => { k with t := mset k.t (vopD w) ((List.range 128).map fun i =>
              x.f ((sourceA k w).getD i 0#32) ((sourceB k w).getD i 0#32) ((sourceC k w).getD i 0#32)) }) (vopRepeat w) k)
  ∧ (∀ (s : State) (camp : Nat) (w : CmdWord) (r : PitchRecord) (rel : Nat) (p : Program) (mis : List (List Mismatch)),
    AtCommand s camp w r rel p →
    let discards := mis.filter fun ms => decide (ms ≠ []);
    ∀ y ∈ [((.vAdd : Nat → CmdWord → List (List Mismatch) → Instr), 0x01, 0), (.vMul, 0x02, 0), (.vFma, 0x03, 0), (.vSumg, 0x10, 1),
        (.vLdacc, 0x12, 0x07), (.vLdacca, 0x13, 0x07), (.vLdaccm, 0x14, 0x07), (.vExp2, 0x18, 0), (.vRcp, 0x19, 0), (.vRsq, 0x1A, 0),
        (.vRotcs, 0x1B, 0), (.vReqacc, 0x15, 0xF7)],
      VectorWord w y.2.1 y.2.2 → (y.2.1 ∈ [0x12, 0x13, 0x14, 0x15] → TilesReady s camp w) → (y.2.1 = 0x1B → vopD w % 2 = 0) →
        (discards.length < 4 →
          discards.Pairwise (fun a b => ∀ m ∈ a, ∀ n ∈ b, (m.core, m.unit) ≠ (n.core, n.unit)) →
          ∃ u, exec (y.1 camp w mis) s = exec (y.1 camp w []) u ∧ (discards ≠ [] → u.ev.written = (s.ev.written + discards.length) % 2 ^ 32)
            ∧ u = { s with ev := u.ev, host := u.host, out := u.out, nvm := u.nvm })
        ∧ (4 ≤ discards.length → ∃ t, exec (y.1 camp w mis) s = .next t ∧ (campOf t camp).fenced = true))

/-- SUMG and MAXG write every element of a group of 8 or 16 of T[d] with the reduction of the group of a in ascending order (R130), and
ROTCS with an even d writes the cosines to T[d] and the sines to T[d + 1] (R140); nothing else changes. The accumulator reads write the
named register of every core of the mask, and beside it only the program, the saturation counters of their rows' sequences (R192) and what
the Lookout has read (R298) move; the fills of the requantisation buffer change the buffer of every core of the mask and nothing else (R131
to R134). Completes: vSumg, vMaxg, vReqacc, vReqreg, vRotcs, vLdacc, vLdacca, vLdaccm. -/
def Obligations.GroupsRotationsAndAccumulatorReads : Prop :=
  (∀ (s : State) (camp : Nat) (w : CmdWord) (r : PitchRecord) (rel : Nat) (p : Program),
    AtCommand s camp w r rel p → HasNext p →
      (VectorWord w 0x10 1 → ∃ t, exec (.vSumg camp w []) s = .next t
        ∧ CoresChanged s t camp p (cmdCores w) fun _ k => iterate (groupStep w fpAdd) (vopRepeat w) k)
      ∧ (VectorWord w 0x11 1 → ∃ t, exec (.vMaxg camp w) s = .next t
        ∧ CoresChanged s t camp p (cmdCores w) fun _ k => iterate (groupStep w fpMax) (vopRepeat w) k)
      ∧ (VectorWord w 0x1B 0 → vopD w % 2 = 0 → ∃ t, exec (.vRotcs camp w []) s = .next t
        ∧ CoresChanged s t camp p (cmdCores w) fun _ k => iterate (rotStep w) (vopRepeat w) k))
  ∧ (∀ (s : State) (camp : Nat) (w : CmdWord) (r : PitchRecord) (rel : Nat) (p : Program),
    AtCommand s camp w r rel p → HasNext p →
      (∀ y ∈ [((fun c w => .vLdacc c w [] : Nat → CmdWord → Instr), 0x12, fun a u m (_ : Word) => ldacc a u m),
          (fun c w => .vLdacca c w [], 0x13, ldacca), (fun c w => .vLdaccm c w [], 0x14, ldaccm)],
        VectorWord w y.2.1 0x07 → TilesReady s camp w → ∃ t, exec (y.1 camp w) s = .next t
          ∧ (∀ c ∈ cmdCores w, coreOf (campOf t camp) c = iterate (accStep w y.2.2) (vopRepeat w) (coreOf (campOf s camp) c))
          ∧ (∀ c, c ∉ cmdCores w → coreOf (campOf t camp) c = coreOf (campOf s camp) c)
          ∧ (campOf t camp).prog = some (nextProg p)
          ∧ t = { s with camps := t.camps, seqs := t.seqs, pitches := t.pitches }
          ∧ (∀ d, d ≠ camp → campOf t d = campOf s d)
          ∧ (∀ q, pitchOf t q = { pitchOf s q with lookoutRead := (pitchOf t q).lookoutRead })
          ∧ (y.2.1 ≠ 0x12 → t.pitches = s.pitches)
          ∧ ∀ i, seqOf t i = { seqOf s i with layers := (seqOf t i).layers })
      ∧ (VectorWord w 0x15 0xF7 → TilesReady s camp w → ∃ t, exec (.vReqacc camp w []) s = .next t
          ∧ CoresChanged s t camp p (cmdCores w) fun _ k => iterate (reqaccStep w) (vopRepeat w) k)
      ∧ (VectorWord w 0x16 0xF0 → ∃ t, exec (.vReqreg camp w) s = .next t
          ∧ CoresChanged s t camp p (cmdCores w) fun _ k => iterate (reqregStep w (campOf s camp).cfg) (vopRepeat w) k))

/-- REQOUT with a usable format and thresholds, whose rows fit the window of every core of the mask, runs `repeat` times over those cores
under the length table that it needs, or under none where no buffer row is tagged (R135, R176). Over untagged buffers one run writes the
sixteen rows that it forms to the window of each core and clears its buffer, and device memory does not change. (Widening and the order of
cores: notes/assumptions/24.md.) Completes: vReqout. -/
def Obligations.ReqoutFormsAndWritesRows : Prop :=
  ∀ (s : State) (camp : Nat) (w : CmdWord) (r : PitchRecord) (rel : Nat) (p : Program) (tbl : Option LengthTable),
    AtCommand s camp w r rel p → HasNext p → VectorWord w 0x17 0x07 → bitsOf (vopImm w) 1 0 ≠ 3 →
    (bitOf (vopImm w) 2 = true → 8 ≤ vopA w ∧ ∀ c ∈ cmdCores w, badThreshold (sOf (coreOf (campOf s camp) c) (vopA w - 8)) = false) →
    TableFor s r rel p (cmdCores w) camp tbl →
    let o := fld w 95 80 + strideSum (·.spStride) p.loops
    (∀ c ∈ cmdCores w, windowFault (coreOf (campOf s camp) c) c (cmdTask w) o
      (outUnits (ctxAt camp r rel p w) (outRows s (ctxAt camp r rel p w) tbl (coreOf (campOf s camp) c))) true = none) →
      exec (.vReqout camp w []) s
          = .next (advance (iterate (outCores (ctxAt camp r rel p w) tbl (cmdCores w)) (vopRepeat w) s) camp)
      ∧ (tbl = none → vopRepeat w = 1 → ∃ t, exec (.vReqout camp w []) s = .next t ∧ t.mem = s.mem
        ∧ (∀ c ∈ cmdCores w, coreOf (campOf t camp) c = { coreOf (campOf s camp) c with
            sp := writeRows (outSidecar (ctxAt camp r rel p w)) (windowByte (coreOf (campOf s camp) c) (cmdTask w) o)
              ((outRows s (ctxAt camp r rel p w) none (coreOf (campOf s camp) c)).map (·.1)) (coreOf (campOf s camp) c).sp
            req := ⟨[], []⟩ })
        ∧ ∀ c, c ∉ cmdCores w → coreOf (campOf t camp) c = coreOf (campOf s camp) c)

/-- TOPK writes k entries, the elements or entries of its slot in the order of R110 with fillers at the end (R109, R111), to the window of
every core of the mask, and releases the slot where the word says so; NaN inputs are counted for the micro-batch row that the word names
(R111), and without them no sequence changes. A finding that abandons the step takes the place of the selection (R243). The selection is in
the order of R110: of two elements that it keeps, the one that ranks first stands first, and no element that it leaves out ranks before one
that it keeps. Completes: cTopk. -/
def Obligations.TopkWritesTheHighestRanked : Prop :=
  (∀ (s : State) (camp : Nat) (w : CmdWord) (r : PitchRecord) (rel : Nat) (p : Program) (x : Slot),
    AtCommand s camp w r rel p → HasNext p → FieldsClear w 0x12 [(52, 32), (125, 64)] → cmdCores w ≠ [] →
    let n := fld w 51 32 + strideSum (·.slotStride) p.loops
    let o := fld w 79 64 + strideSum (·.spStride) p.loops
    let len := orMax (fld w 103 80)
    let k := fld w 111 104 + 1
    let lists := fld w 117 113 + 1
    let size := if lists = 1 then 4 * len else 8 * k * lists
    let bs := peekBytes s (slotDa s r x) size
    let es := if lists = 1 then inputElems len bs else inputEntries (k * lists) bs
    WindowHolds s camp w o k true → slotOf s r n = some x → size ≤ x.size → routeStays r rel x.home = true → canRead x rel = true →
    slicePaused s r x = false → CampAdmitted s camp [(slotDa s r x, size)] →
    let nans := if lists = 1 ∧ flag w 112 = false then (es.filter fun e => isNaN e.v).length else 0
    (nans = 0 ∨ (campOf s camp).cfg = none ∨ ∃ y, slotOf s r p.tableSlot = some y ∧ canRead y rel = true ∧ slicePaused s r y = false
      ∧ ∀ e ∈ (parseTable (peekBytes s (slotDa s r y) y.size)).rows, e.context + e.newTokens ≤ 2 ^ 32) →
      FindingsEnd s [(slotDa s r x, size)] camp r.pitch (.cTopk camp w ·)
      ∧ ∃ t, exec (.cTopk camp w []) s = .next t
        ∧ (∀ c ∈ cmdCores w, coreOf (campOf t camp) c
            = spWrite (coreOf (campOf s camp) c) (cmdTask w) o (topBytes (flag w 112) k (selectTop (flag w 112) k es)))
        ∧ (∀ c, c ∉ cmdCores w → coreOf (campOf t camp) c = coreOf (campOf s camp) c)
        ∧ slotOf t r n = some (if flag w 52 then releaseSlot x rel else x)
        ∧ t = { touched s [(slotDa s r x, size)] with camps := t.camps, pitches := t.pitches, seqs := t.seqs }
        ∧ (nans = 0 → t.seqs = s.seqs)
        ∧ ∀ g y e, nans ≠ 0 → (campOf s camp).cfg = some g → slotOf s r p.tableSlot = some y →
            (parseTable (peekBytes s (slotDa s r y) y.size)).rows[fld w 125 118]? = some e →
            t.seqs = (countSaturated s r.pitch e.handle g.layer nans).seqs)
  ∧ (∀ (int : Bool) (k : Nat) (es : List Ranked), (es.map (·.pos)).Nodup →
    (selectTop int k es).Pairwise (fun a b => ranksBefore int a b = true)
      ∧ (selectTop int k es).length = min k es.length
      ∧ (∀ a ∈ selectTop int k es, a ∈ es)
      ∧ ∀ a ∈ es, a ∉ selectTop int k es → ∀ b ∈ selectTop int k es, ranksBefore int b a = true)

/-- HOPEN opens a closed instance for the pitch with the descriptor's limits and free entries, and the camp goes on (R115, R116). HCLOSE
marks an open instance as closing with its sync object, and the camp waits at the command for the merge (R119, R146). Each changes that
instance alone. HADD adds the records of its cores, in rank order, within the instance's limits, and the camp goes on (R117, R118). A
finding that abandons the step takes the place of the sums (R243). HADD of one record whose key has a way, or whose bucket has a free way,
adds its value to the entry's sum and 1 to its count, and carries the adder's residue; a record without a way goes to the next place of the
epoch's spill area, and every other byte of device memory reads as before (R117). Each counts one contribution. A closing merge writes the
merged runs at the output address, frees the instance and adds 1 to the sync object (R119): the instance is closed again with no entry, the
camp at its HCLOSE goes on, and every other byte of device memory reads as before. Completes: cHopen, cHadd, cHclose, hashCloseMerge. -/
def Obligations.HashAccumulatorsSumAndClose : Prop :=
  (∀ (s : State) (camp : Nat) (w : CmdWord) (r : PitchRecord) (rel : Nat) (p : Program),
    AtCommand s camp w r rel p → HasNext p →
      (FieldsClear w 0x13 [(79, 32)] → fld w 79 32 % 32 = 0 → addressFault s r noCore (fld w 79 32) 32 false = none →
        let d := peekBytes s (daOf s r (fld w 79 32)) 32
        let i := leAt d 0 1
        i ≤ 7 → 1 ≤ leAt d 4 4 → leAt d 4 4 < 2 ^ 24 → zerosAt d 1 3 = true → zerosAt d 24 8 = true → bitOf r.hash i = true →
        (hashOf s i).epoch = none → CampAdmitted s camp [(daOf s r (fld w 79 32), 32)] →
          exec (.cHopen camp w []) s
            = .next (putCamp
                { touched s [(daOf s r (fld w 79 32), 32)] with
                  hash := s.hash.set i ⟨some ⟨r.pitch, leAt d 4 4, leAt d 8 8, leAt d 16 8, 0, 0, none⟩, []⟩ }
                camp { campOf s camp with prog := some (nextProg p), blocked := none }))
      ∧ (FieldsClear w 0x15 [(34, 32), (63, 48)] → bitOf r.hash (fld w 34 32) = true → fld w 63 48 < r.syncCount →
        ∀ e, (hashOf s (fld w 34 32)).epoch = some e → e.pitch = r.pitch → e.closing = none →
          ∃ b, b.reason = .hclose (fld w 34 32) ∧ b.w = w ∧ b.ready = false
            ∧ exec (.cHclose camp w) s
              = .next (putCamp
                  { s with
                    hash := s.hash.set (fld w 34 32)
                      { hashOf s (fld w 34 32) with epoch := some { e with closing := some (fld w 63 48, camp) } } }
                  camp { campOf s camp with blocked := some b })))
  ∧ (∀ (s : State) (camp : Nat) (w : CmdWord) (r : PitchRecord) (rel : Nat) (p : Program) (e : Epoch),
    AtCommand s camp w r rel p → HasNext p → FieldsClear w 0x14 [(66, 32)] → cmdCores w ≠ [] → 1 ≤ fld w 63 48 →
    let o := fld w 47 32 + strideSum (·.spStride) p.loops
    let i := fld w 66 64
    let recs := ((cmdCores w).map fun core =>
      hashRecords (fld w 63 48) (spRead (coreOf (campOf s camp) core) (cmdTask w) o (16 * fld w 63 48))).flatten
    let spilled := ((hashOf (contributeAll r i recs s) i).epoch.map (·.spilled)).getD 0
    let rs := [(daOf s r (e.spillBase + 16 * e.spilled), 16 * (spilled - e.spilled))]
    o % 2 = 0 → WindowHolds s camp w o (2 * fld w 63 48) false → (hashOf s i).epoch = some e → e.pitch = r.pitch → e.closing = none →
    e.contributions + recs.length ≤ e.maxContributions → (∀ kv ∈ recs, kv.2.natAbs < 2 ^ 47) →
    (e.spilled < spilled → addressFault s r (lowCore w) e.spillBase (16 * spilled) true = none) →
    sliceLimited s i = false → CampAdmitted s camp rs →
      FindingsEnd s rs camp r.pitch (.cHadd camp w ·)
      ∧ exec (.cHadd camp w []) s = .next (advance (contributeAll r i recs (touched s rs)) camp))
  ∧ (∀ (s : State) (camp : Nat) (w : CmdWord) (r : PitchRecord) (rel : Nat) (p : Program) (core : Nat) (e : Epoch),
    AtCommand s camp w r rel p → HasNext p → FieldsClear w 0x14 [(66, 32)] → cmdCores w = [core] → fld w 63 48 = 1 →
    let o := fld w 47 32 + strideSum (·.spStride) p.loops
    let i := fld w 66 64
    let rec1 := spRead (coreOf (campOf s camp) core) (cmdTask w) o 16
    let key := leAt rec1 0 4
    let v := signed 64 (leAt rec1 8 8)
    o % 2 = 0 → WindowHolds s camp w o 2 false → i < s.hash.length → (hashOf s i).epoch = some e → e.pitch = r.pitch → e.closing = none →
    e.contributions < e.maxContributions → v.natAbs < 2 ^ 47 → sliceLimited s i = false → sliceLimited s (sliceOf camp) = false →
      (∀ way, wayOf (hashOf s i) key = some way →
        ∃ t, exec (.cHadd camp w []) s = .next t ∧ t = { s with camps := t.camps, hash := t.hash } ∧ (campOf t camp).cores = (campOf s camp).cores
        ∧ hashOf t i = ⟨some { e with contributions := e.contributions + 1 },
            mset (hashOf s i).entries way
              (match mget (hashOf s i).entries way with
              | some old => ⟨old.key, old.sum + v, res7 ((old.res : Int) + v), old.count + 1⟩
              | none => ⟨key, v, res7 v, 1⟩)⟩)
      ∧ (wayOf (hashOf s i) key = none → addressFault s r core e.spillBase (16 * (e.spilled + 1)) true = none →
        let a := daOf s r (e.spillBase + 16 * e.spilled)
        Admitted s [(a, 16)] →
        ∃ t, exec (.cHadd camp w []) s = .next t ∧ (campOf t camp).cores = (campOf s camp).cores
        ∧ hashOf t i = ⟨some { e with contributions := e.contributions + 1, spilled := e.spilled + 1 }, (hashOf s i).entries⟩
        ∧ peekBytes t a 16 = leBytes 4 key ++ leBytes 8 (unsignedOf 64 v) ++ leBytes 4 0 ∧ MemoryElsewhere s t a 16))
  ∧ (∀ (s : State) (i n camp : Nat) (r : PitchRecord) (e : Epoch) (p : Program),
    i < 8 → i < s.hash.length → (campOf s camp).prog = some p → HasNext p → (hashOf s i).epoch = some e → e.closing = some (n, camp) → recordOf s e.pitch = some r →
    let spills := spillRecords e.spilled (peekBytes s (daOf s r e.spillBase) (16 * e.spilled))
    let out := closeBytes (mergedRuns (hashOf s i).entries spills)
    addressFault s r noCore e.outBase out.length true = none → (syncOf s e.pitch n).count + 1 < 2 ^ 32 →
    (∀ c b, (campOf s c).blocked = some b → b.reason ≠ .sync n) → Admitted s (mergeRanges s i) →
      ∃ t, exec (.hashCloseMerge i []) s = .next t ∧ (campOf t camp).prog = some (nextProg p) ∧ (campOf t camp).blocked = none
        ∧ hashOf t i = ⟨none, []⟩
        ∧ peekBytes t (daOf s r e.outBase) out.length = out ∧ MemoryElsewhere s t (daOf s r e.outBase) out.length
        ∧ (syncOf t e.pitch n).count = (syncOf s e.pitch n).count + 1)

/-- TRED that ends in the tiles makes each partial, in the row's base unit, with that of the input slot where the word names one, the sum of
the tile, at level 0 (R86, R173); it releases the input slot (R158), device memory does not change, and without an input slot nothing else
does. TRED through slots: with an input slot the sums are the core's partials plus those of the slot, which it releases; without `last` they
go to the output slot in rank order, which is left FILLING by its closing write, and every other byte of device memory reads as before
(R158, R173). Completes: cTred. -/
def Obligations.TredReducesTiles : Prop :=
  (∀ (s : State) (camp : Nat) (w : CmdWord) (r : PitchRecord) (rel : Nat) (p : Program) (h : Nat) (y : Option Slot),
    AtCommand s camp w r rel p → HasNext p → FieldsClear w 0x10 [(57, 32), (83, 64)] → cmdCores w ≠ [] →
    flag w 57 = true → flag w 53 = true →
    let m := fld w 51 32 + strideSum (·.slotStride) p.loops
    (flag w 52 = true → y = none) → (flag w 52 = false → y = slotOf s r m ∧ y.any fun z =>
        decide (64 * h * (cmdCores w).length ≤ z.size) && routeStays r rel z.home && canRead z rel && !slicePaused s r z) →
    (∀ z, y = some z → CampAdmitted s camp [(slotDa s r z, 64 * h * (cmdCores w).length)]) →
    (∀ c ∈ cmdCores w, ∃ t, tileAt (coreOf (campOf s camp) c) (fld w 56 54) true = some t ∧ t.state = .accepted ∧ t.height = h) →
      ∃ t, exec (.cTred camp w []) s = .next t
        ∧ (∀ c q, (c, q) ∈ (cmdCores w).zipIdx → coreOf (campOf t camp) c = (let k := coreOf (campOf s camp) c
            match tileAt k (fld w 56 54) true with
            | none => k
            | some x => tredIntoTile k x (tredSums k x (y.map fun z => peekBytes s (slotDa s r z) z.size) q)))
        ∧ (∀ c, c ∉ cmdCores w → coreOf (campOf t camp) c = coreOf (campOf s camp) c)
        ∧ t.mem.bytes = s.mem.bytes ∧ (∀ z, y = some z → slotOf t r m = some (releaseSlot z rel)) ∧ (y = none → OnlyCoresOf s t camp p))
  ∧ (∀ (s : State) (camp : Nat) (w : CmdWord) (r : PitchRecord) (rel : Nat) (p : Program) (h : Nat) (x : Slot) (y : Option Slot),
    AtCommand s camp w r rel p → HasNext p → FieldsClear w 0x10 [(57, 32), (83, 64)] → cmdCores w ≠ [] → flag w 53 = false →
    (∀ c ∈ cmdCores w, ∃ t, tileAt (coreOf (campOf s camp) c) (fld w 56 54) (flag w 57) = some t ∧ t.state = .accepted ∧ t.height = h) →
    let n := fld w 83 64 + strideSum (·.slotStride) p.loops
    let m := fld w 51 32 + strideSum (·.slotStride) p.loops
    let bytes := 64 * h * (cmdCores w).length
    slotOf s r n = some x → bytes ≤ x.size → routeStays r rel x.home = true → x.producer = rel → canWrite x = true → slicePaused s r x = false →
    (flag w 52 = true → y = none) → (flag w 52 = false → m ≠ n ∧ y = slotOf s r m ∧ y.any fun z =>
        decide (bytes ≤ z.size) && routeStays r rel z.home && canRead z rel && !slicePaused s r z) →
    let sums (c q : Nat) : List (Elem × Int) :=
      match tileAt (coreOf (campOf s camp) c) (fld w 56 54) (flag w 57) with
      | none => []
      | some t => tredSums (coreOf (campOf s camp) c) t (y.map fun z => peekBytes s (slotDa s r z) z.size) q
    let out := ((cmdCores w).zipIdx.map fun z => tredBytes (sums z.1 z.2)).flatten
    (∀ z, y = some z → CampAdmitted s camp [(slotDa s r z, bytes)]) → CampAdmitted s camp [(slotDa s r x, out.length)] →
      ∃ t, exec (.cTred camp w []) s = .next t
        ∧ peekBytes t (slotDa s r x) out.length = out ∧ MemoryElsewhere s t (slotDa s r x) out.length
        ∧ slotOf t r n = some (fillSlot x true)
        ∧ (∀ z, y = some z → slotOf t r m = some (releaseSlot z rel))
        ∧ (campOf t camp).cores = (campOf s camp).cores)

/-- A lane whose operand queue has a pass takes it: acc := acc + σ × (op << sh), with the residue of the new value (R64, R66), and in dual
A4 mode the addition of the odd position in the same step (R70). Where the partial sum that ends a position passes the 32-bit accumulator,
the element has overflowed (R65, R81, R84). No other accumulator changes, and a lane whose queue is empty takes no step. A run that the
lanes have not drained, or a tile that waits, does not join; a drained one does (R89). Without a mark, a mismatch or an overflow it is
accepted: the camp's waits on it end, and no accumulator changes (R84, R89, R131). With an element whose partial sum overflowed it is run
again one level up (R84). A mismatch discards it (R91): it is run again from its first position, with LANE_RESIDUE's record, or with the
lanes retired that mismatched in its last discard as well (R92, R93); a fourth discard, or a lane without a spare, retires the core. A mark
for a damaged block discards it, and the tile waits for the block (R106); a mark of the decoder alone runs it again. Over a mismatch the
mark counts (DESIGN CHOICE: notes/assumptions/22.md). Completes: lanePass, tileRunJoin. -/
def Obligations.LanesAccumulateAndRunsEnd : Prop :=
  (∀ (s : State) (camp core lane : Nat) (observed : Option Nat), camp < 20000 → core < 16 → lane < 128 →
    let k := coreOf (campOf s camp) core;
      (queueOf k lane = [] → exec (.lanePass camp core lane observed) s = .next s)
      ∧ (∀ y p q, queueOf k lane = p :: q → (k.tiles.find? fun t => decide (tileKey t = p.tile)) = some y →
          let at_ := accPlace y p.slab
          let v := (readAcc k.acc lane at_).v + p.first.sigma * (p.first.op * 2 ^ p.first.sh)
          let ovf := p.first.last && !y.wide && !y.wideRerun && !fits32 v
          let acc1 := writeAcc k.acc lane ⟨v, res7 v⟩ at_
          ∃ t, exec (.lanePass camp core lane observed) s = .next t
            ∧ (p.second = none ∨ ovf = true → (coreOf (campOf t camp) core).acc = acc1)
            ∧ (ovf = true → ∀ z ∈ (coreOf (campOf t camp) core).tiles, tileKey z = p.tile →
                ∀ e ∈ z.elems, elemLane e = lane → e.row / 16 = p.slab → e.overflowed = true)
            ∧ (∀ x, p.second = some x → ovf = false →
                let v2 := v + x.sigma * (x.op * 2 ^ x.sh)
                (coreOf (campOf t camp) core).acc = writeAcc acc1 lane ⟨v2, res7 v2⟩ at_)
            ∧ (coreOf (campOf t camp) core).sp = k.sp ∧ (coreOf (campOf t camp) core).t = k.t ∧ (coreOf (campOf t camp) core).sreg = k.sreg
            ∧ (∀ d, d ≠ core → coreOf (campOf t camp) d = coreOf (campOf s camp) d)
            ∧ t = putCamp s camp { campOf s camp with cores := (campOf t camp).cores }))
  ∧ (∀ (s : State) (camp core base : Nat) (wide : Bool) (r : PitchRecord) (rel : Nat) (y : TileRun), camp < 20000 → core < 16 →
    homeOf s camp = some (r, rel) → tileAt (coreOf (campOf s camp) core) base wide = some y →
      (y.state ≠ .running ∨ drained (coreOf (campOf s camp) core) y = false → exec (.tileRunJoin camp core base wide) s = .next s)
      ∧ (y.state = .running → drained (coreOf (campOf s camp) core) y = true →
      exec (.tileRunJoin camp core base wide) s = .next (joinRun s camp core r y)
      ∧ (y.mark = none → y.mis = [] → y.wideRerun = false →
      ((∀ e ∈ y.elems, e.overflowed = false ∧ e.level ≠ 4) →
        ∃ t z, exec (.tileRunJoin camp core base wide) s = .next t
          ∧ tileAt (coreOf (campOf t camp) core) base wide = some z ∧ z.state = .accepted
          ∧ (coreOf (campOf t camp) core).acc = (coreOf (campOf s camp) core).acc
          ∧ (∀ b, (campOf s camp).blocked = some b → b.reason = .join ∨ b.reason = .fence → (campOf t camp).blocked = some { b with ready := true })
          ∧ t = { s with camps := t.camps })
      ∧ ((∃ e ∈ y.elems, e.overflowed = true) → y.run < 3 →
        ∃ t z, exec (.tileRunJoin camp core base wide) s = .next t
          ∧ tileAt (coreOf (campOf t camp) core) base wide = some z ∧ z.state = .running ∧ z.run = y.run + 1
          ∧ z.elems.length = y.elems.length
          ∧ (∀ (j : Nat) (e f : Elem), y.elems[j]? = some e → z.elems[j]? = some f →
              f.overflowed = false ∧ f.level = if e.overflowed then e.level + 1 else e.level)))
      ∧ (y.mark = none → y.mis ≠ [] →
        let k := coreOf (campOf s camp) core
        (∀ m, coreLoss core k y = some m → exec (.tileRunJoin camp core base wide) s = .next (retireCore s camp core r.pitch m))
        ∧ (coreLoss core k y = none →
          let s1 := if lanesDue y = [] then residueEvent s camp core r.pitch 0x0001 ((misLanes y).headD ⟨core, 0, 0, 0, 0⟩) (spareLanesLeft k)
            else retireLanes camp core r.pitch (lanesDue y) s
          ∃ t z, exec (.tileRunJoin camp core base wide) s = .next t
            ∧ tileAt (coreOf (campOf t camp) core) base wide = some z ∧ z.state = .running ∧ z.run = y.run ∧ z.discards = y.discards + 1
            ∧ z.mis = [] ∧ z.lastMis = (misLanes y).map (·.unit) ∧ t = { s1 with camps := t.camps }))
      ∧ ∀ m, y.mark = some m →
        (m.code ≠ 1 → ∃ t z, exec (.tileRunJoin camp core base wide) s = .next t
          ∧ tileAt (coreOf (campOf t camp) core) base wide = some z ∧ z.state = .awaitingBlock m.block ∧ z.mark = none ∧ z.mis = []
          ∧ t = { markEvent s camp r.pitch m 0 with camps := t.camps })
        ∧ (m.code = 1 → ∃ t z, exec (.tileRunJoin camp core base wide) s = .next t
          ∧ tileAt (coreOf (campOf t camp) core) base wide = some z ∧ z.state = .running ∧ z.discards = y.discards)))

/-- A run-ahead read of a command up to 64 ahead with ra set fills the camp's run-ahead buffer of 64 KiB with what the command would read,
and keeps what the checks noted for the command itself; it changes nothing else (R170, R171). Data with an uncorrectable word is dropped
(R243), and a limited Larder slice refuses the read (R476). A golden block whose CRC fits is written over the damaged block of the working
copy, with a record, and the waiting runs are repeated (R35, R106, R454), in every pitch that shares the region. A block that no run waits
for is read again where an abandoned step left it to be repaired (R459), and changes nothing otherwise. Completes: runAhead,
weightRefetched. -/
def Obligations.RunAheadAndGoldenBlocks : Prop :=
  (∀ (s : State) (camp index : Nat) (r : PitchRecord) (rel : Nat) (p : Program) (w : CmdWord), camp < 20000 →
    homeOf s camp = some (r, rel) → (campOf s camp).prog = some p → mget (campOf s camp).cmdMem index = some w → cmdRa w = true →
    p.base + p.pc < index → index ≤ p.base + p.pc + 64 → index < p.base + p.commands →
    let ranges := fitRanges 65536 (aheadRanges s r (campOf s camp) w)
    ranges ≠ [] →
      (∀ found, sliceLimited s (sliceOf camp) = true → exec (.runAhead camp index found) s = .next s)
      ∧ (CampAdmitted s camp ranges → ∀ found,
        (found.any isBad = true → exec (.runAhead camp index found) s = .next (touched s ranges))
        ∧ (found.any isBad = false → ∃ t, exec (.runAhead camp index found) s = .next t
          ∧ t = putCamp (touched s ranges) camp { campOf s camp with ahead := (campOf t camp).ahead }
          ∧ (∀ (j : Nat) (x : Nat × Nat), ranges[j]? = some x →
              ⟨index, x.1, if cmdOpcode w = 0x08 then readPitch s r.pitch (fld w 79 32) x.1 x.2 else peekBytes s x.1 x.2, false,
                if j = 0 then found else []⟩ ∈ (campOf t camp).ahead)
          ∧ ((campOf t camp).ahead.map (·.bytes.length)).sum ≤ 65536)))
  ∧ (∀ (s : State) (pitch da : Nat) (poison : Bool) (r : PitchRecord), pitch < 64 → recordOf s pitch = some r →
    (waitingFor s pitch da = [] →
      exec (.weightRefetched pitch da poison) s
        = .next (if Repair.block da ∈ (pitchOf s pitch).repairs then refetchDue s pitch da poison else s))
    ∧ (∀ camp core y x l, waitingFor s pitch da = (camp, core, y) :: l → y.src = some x →
        let j := (da - payloadDa s r x.tensor) / 4096
        let n := min 4096 (x.tensor.payloadBytes - 4096 * j)
        let g := goldenOf s r x.tensor.address x.tensor.golden + 32 + 4096 * j
        let bs := peekBytes s g n
        let s1 := weightRefetchedEvent (dropBlock da (regionPitches s r.pitch) (pokeBytes s da bs)) r.pitch da
        portWaits s g = false → portGone s g = false → poison = false → crc32c bs = x.tensor.crcs.getD j 0 →
        (∀ z ∈ (camp, core, y) :: l, ∀ m, (reread s1 (((homeOf s1 z.1).map (·.1)).getD r) z.2.2).mark = some m → m.block ≠ da) →
          exec (.weightRefetched pitch da poison) s = .next (repeatRuns r ((camp, core, y) :: l) s1)
          ∧ peekBytes s1 da n = bs ∧ MemoryElsewhere s s1 da n))

/-- A program that the package gives to an idle camp starts at its first command with its parameters and limit; its registers and tiles are
those of a fresh core and bytes outside resident windows are zero (R146, R156, R165, R176). Its pitch is in a step and no repair is due
(R29, R459). Where the table's slot is EMPTY its bytes become those of the step's length table and it is FULL (R185), and the pitch notes
the sync objects of the layers' chunk lists that the start message names (R217). When the transfers of a closing write have landed the slot
is FULL, and when the reads of a draining slot have completed it is EMPTY and released by none; the waits for it end, and no other slot
changes (R158, R164). The tokens of a filled append slot go to staging (R209) by way of appendSlotFull; a batch of one token puts the
token's rows of K and V after the tokens staged (the order of the slot's bytes is DEDUCED: notes/assumptions/26.md). A finding that abandons
the step takes the place of the append (R243). Completes: programStart, slotFilled, slotDrained. -/
def Obligations.ProgramsStartAndSlotsFill : Prop :=
  (∀ (s : State) (pitch camp program first slot : Nat) (params : List Word) (ready : NMap Nat) (r : PitchRecord) (rel : Nat) (k : LoadedProgram),
    camp < 20000 → pitch < 64 → homeOf s camp = some (r, rel) → r.pitch = pitch →
    ((pitchOf s pitch).package.bind fun g => g.programs.find? fun x => decide (x.program = program) && x.camps.contains rel) = some k →
    (campOf s camp).prog = none → (campOf s camp).fenced = false → first < k.commands →
    (pitchOf s pitch).inStep = true → (pitchOf s pitch).repairs = [] →
      ∃ t, exec (.programStart pitch camp program first slot params ready) s = .next t
        ∧ (pitchOf t pitch).readySyncs = ready.foldl (fun m y => mset m y.1 y.2) (pitchOf s pitch).readySyncs
        ∧ (campOf t camp).prog = some ⟨k.program, k.base, k.commands, first, slot, params, if k.watchdogUs = 0 then 1000 else k.watchdogUs, []⟩
        ∧ (campOf t camp).stream = none ∧ (campOf t camp).cfg = none ∧ (campOf t camp).cmdMem = (campOf s camp).cmdMem
        ∧ (∀ c, coreOf (campOf t camp) c = startCore (coreOf (campOf s camp) c))
        ∧ (∀ x, slotOf s r slot = some x → x.state = .empty → ∃ y, slotOf t r slot = some y ∧ y.state = .full
            ∧ let bs := (tableBytes s (pitchOf s pitch).batch).take x.size
              peekBytes t (slotDa s r x) bs.length = bs ∧ MemoryElsewhere s t (slotDa s r x) bs.length))
  ∧ (∀ (s : State) (pitch n : Nat) (r : PitchRecord) (x : Slot), pitch < 64 → recordOf s pitch = some r → r.pitch = pitch → slotOf s r n = some x →
    (x.state = .filling → x.closing = true → ∀ l, appendLayer s pitch n = some l →
      let rs := appendRanges s (appendSlotFull s r x l).1 r x l.layer
      Admitted s rs →
      (∀ found, found.any stopsCommand = true → found.any (findingWaits s false) = false →
        exec (.slotFilled pitch n found) s = .next (rangerFindings pitch found (touched s rs)))
      ∧ ∀ u, appendSlotFull (touched s rs) r x l = (u, true) →
        exec (.slotFilled pitch n []) s = .next (fillDone u pitch n (releaseSlot (filled x) engineReader))
        ∧ ∀ m z, (pitchOf s pitch).batch = [m] → m.newTokens = 1 → (seqOf s m.seq).layers[layerIndex s pitch l.layer]? = some z →
          z.staging.address ≠ 0 → 1 ≤ z.staging.staged → z.staging.staged < 255 →
            let size := l.kvHeads * (keyRowBytes z.staging.tag l.headDim + valueRowBytes z.staging.tag l.headDim)
            u.mem.bytes = (putToken s r (stagingBase z (stagingHalf l.kvHeads l.headDim)) z.staging.tag l.kvHeads l.headDim z.staging.staged
              (((peekBytes s (slotDa s r x) x.size).drop (size * m.tokenBase)).take size)).mem.bytes
            ∧ ((seqOf u m.seq).layers[layerIndex s pitch l.layer]?.map (·.staging.staged)) = some (z.staging.staged + 1))
    ∧ (x.state = .filling → x.closing = true → appendLayer s pitch n = none →
      ∃ t, exec (.slotFilled pitch n []) s = .next t ∧ slotOf t r n = some { x with state := .full, closing := false }
        ∧ (∀ m, m ≠ n → slotOf t r m = slotOf s r m) ∧ t = { s with camps := t.camps, pitches := t.pitches }
        ∧ ∀ c b, (campOf s c).blocked = some b → b.reason = .slotRead n → campIn s pitch c = true → (campOf t c).blocked = some { b with ready := true })
    ∧ (x.state = .draining →
      ∃ t, exec (.slotDrained pitch n) s = .next t ∧ slotOf t r n = some { x with state := .empty, released := [] }
        ∧ (∀ m, m ≠ n → slotOf t r m = slotOf s r m) ∧ t = { s with camps := t.camps, pitches := t.pitches }
        ∧ ∀ c b, (campOf s c).blocked = some b → b.reason = .slotWrite n → campIn s pitch c = true → (campOf t c).blocked = some { b with ready := true }))

/-- A reserved camp opcode raises RESERVED_OPCODE and a reserved vector opcode raises VECTOR_FAULT on the lowest core of the mask, whatever
else the fault does (R125, R149, R168). A timed wait that has reached its limit writes SYNC_TIMEOUT; the first in a step runs the step again
with its micro-batch, a later one holds the sequences of the micro-batch with cause 1 (R165 to R167). A wait on the object of a layer whose
page is still being fetched is not timed out (R31, R220). The record's core is the lowest of the command's mask, or 0xFF (DESIGN CHOICE:
notes/assumptions/15.md). A camp fault stops every program of its pitch, empties the micro-batch and holds its sequences with cause 1, ends
the step and returns the slots that do not persist to EMPTY (R160, R167). Completes: cReserved, vReserved, syncTimeout. -/
def Obligations.TimeoutsAndFaultsStopTheStep : Prop :=
  (∀ (s : State) (camp : Nat) (w : CmdWord) (r : PitchRecord) (rel : Nat) (p : Program),
    AtCommand s camp w r rel p →
      (0x16 ≤ cmdOpcode w →
        exec (.cReserved camp w) s = .next (raiseFault s camp ⟨0x0C, 0x0301, 0xFF, 0⟩ (cmdOpcode w) 0))
      ∧ (FieldsClear w 0x0D [(99, 32)] → 0x1C ≤ vopOp w → 1 ≤ vopRepeat w → cmdCores w ≠ [] →
        exec (.vReserved camp w) s = .next (raiseFault s camp ⟨0x0C, 0x0303, (cmdCores w).headD 0xFF, 0⟩ 0x0D 0)))
  ∧ (∀ (s : State) (camp now : Nat) (r : PitchRecord) (rel : Nat) (p : Program) (b : Blocked), camp < 20000 →
    homeOf s camp = some (r, rel) → (campOf s camp).prog = some p → (campOf s camp).blocked = some b → timed b.reason = true → b.ready = false →
    b.since + 1000 * p.limitUs ≤ (atTime s now).cairn.count →
    let detail (attempt : Nat) : List Byte :=
      campDetail camp (p.base + p.pc) (waitCore b) (cmdOpcode b.w) attempt (waitObject b.reason)
    let event (attempt : Nat) : State := writeEvent (atTime s now) (0x200000 + camp) 0x0C 0x0309 r.pitch (detail attempt);
      (fetchStalls s r.pitch b.reason = true → exec (.syncTimeout camp now) s = .next (atTime s now))
      ∧ (fetchStalls s r.pitch b.reason = false → (pitchOf s r.pitch).timeouts = 0 →
        ∃ t, exec (.syncTimeout camp now) s = .next t ∧ (pitchOf t r.pitch).timeouts = 1 ∧ (campOf t camp).prog = none
          ∧ t = onPitch (rerunStep (event 1) r.pitch) r.pitch (fun x => { x with timeouts := 1 })
          ∧ ((pitchOf s r.pitch).repairs = [] → repairsDue s r.pitch = [] →
              t.ev = (event 1).ev ∧ (pitchOf t r.pitch).inStep = (pitchOf s r.pitch).inStep ∧ (pitchOf t r.pitch).batch = (pitchOf s r.pitch).batch
              ∧ (pitchOf t r.pitch).reruns = (pitchOf s r.pitch).reruns + 1 ∧ (pitchOf t r.pitch).chosen = []
              ∧ (∀ n x, mget (pitchOf t r.pitch).slots n = some x → x.persistent = false → x.state = .empty ∧ x.released = [])
              ∧ ∀ c, campIn s r.pitch c = true → (campOf t c).prog = none))
      ∧ (fetchStalls s r.pitch b.reason = false → (pitchOf s r.pitch).timeouts ≠ 0 →
        ∃ t, exec (.syncTimeout camp now) s = .next t ∧ t = failStep (event 2) r.pitch 0xFFFF
          ∧ (pitchOf t r.pitch).inStep = false ∧ (pitchOf t r.pitch).batch = []
          ∧ ∀ m ∈ (pitchOf s r.pitch).batch, (seqOf s m.seq).state ≠ .free →
            (seqOf t m.seq).hold = (if (seqOf s m.seq).hold = 4 then 4 else 1)
              ∧ (seqOf t m.seq).state = if (seqOf s m.seq).state = .parked then .parked else .held))
  ∧ (∀ (s : State) (camp : Nat) (f : CampFault) (opcode attempt : Nat) (r : PitchRecord) (rel : Nat), homeOf s camp = some (r, rel) →
    let t := raiseFault s camp f opcode attempt
    (pitchOf t r.pitch).batch = [] ∧ (pitchOf t r.pitch).inStep = false ∧ (∀ c, campIn s r.pitch c = true → (campOf t c).prog = none)
      ∧ (∀ m ∈ (pitchOf s r.pitch).batch, (seqOf s m.seq).state ≠ .free →
          (seqOf t m.seq).hold = (if (seqOf s m.seq).hold = 4 then 4 else 1)
            ∧ (seqOf t m.seq).state = if (seqOf s m.seq).state = .parked then .parked else .held)
      ∧ ∀ n x, mget (pitchOf t r.pitch).slots n = some x → x.persistent = false → x.state = .empty ∧ x.released = [])

/-! ### Selection, pages and steps -/

/-- LANTERN_SELECT of a row with new tokens, before its chunk list is written, records the choice of its layer in place of an earlier one,
writes last_selected of the chosen pages, and changes nothing outside the pitch (R216, R220). A layer that attends exactly, or that has no
more pages than fixed pages and k, has every page chosen in order (R214, R216). Findings of its reads are acted on first (R252). The splits
of a row follow one another and cover its chunks: n_s of them (R196). CHUNK_LISTS_READY for a layer whose step's tokens are staged, whose
rows are all chosen and whose listed pages are hot writes the layer's lists and adds 1 to the sync object that the start message has named
for it, once in a step (R29, R217); before that nothing happens. Completes: lanternSelect, chunkListsReady. -/
def Obligations.SelectionsAreRecorded : Prop :=
  (∀ (s : State) (pitch row layer : Nat) (qs : List LanternQuery) (r : PitchRecord) (m : MicroRow) (l : LayerState),
    pitch < 64 → recordOf s pitch = some r → r.pitch = pitch → (pitchOf s pitch).batch[row]? = some m → m.newTokens ≠ 0 →
    (seqOf s m.seq).layers[layerIndex s pitch layer]? = some l →
    let rs := summaryRanges s pitch m.seq (layerIndex s pitch layer)
    let b := r.profile.lantern
    let fixed := (List.range l.pages.length).filter fun i => decide (i < b.sink) || decide (l.pages.length ≤ i + b.recent);
      (hasList s pitch m.seq layer = true → ∀ found, exec (.lanternSelect pitch row layer qs found) s = .next s)
      ∧ (hasList s pitch m.seq layer = false → Admitted s rs →
      (∀ found, found.any (findingWaits s false) = false → let u := rangerFindings pitch found (touched s rs)
        exec (.lanternSelect pitch row layer qs found) s = .next (if m ∈ (pitchOf u pitch).batch then selectRow u r m layer qs else u))
      ∧ ∃ t c, exec (.lanternSelect pitch row layer qs []) s = .next t ∧ t = { touched s rs with pitches := t.pitches }
        ∧ c ∈ (pitchOf t pitch).chosen ∧ c.seq = m.seq ∧ c.layer = layer ∧ c.list = none
        ∧ (∀ d ∈ (pitchOf t pitch).chosen, d.seq = m.seq → d.layer = layer → d = c)
        ∧ (∀ n ∈ c.pages, (pageOf t pitch n).lastSelected = (pitchOf s pitch).stepCount % 2 ^ 32)
        ∧ (∀ n, n ∉ c.pages → pageOf t pitch n = pageOf s pitch n)
        ∧ (bitOf m.flags 0 = true ∨ l.pages.length ≤ fixed.length + b.k → c.pages = l.pages)))
  ∧ (∀ (tokens chunks : Nat),
    let n := min 64 (max 1 ((tokens + 4095) / 4096))
    let l := splitRanges tokens chunks
    l.length = n ∧ (l.head?.map (·.1)) = some 0 ∧ (l.getLast?.map (·.2)) = some chunks
      ∧ ∀ (j : Nat) (a b : Nat × Nat), l[j]? = some a → l[j + 1]? = some b → a.1 ≤ a.2 ∧ a.2 = b.1 ∧ b.1 ≤ b.2)
  ∧ (∀ (s : State) (pitch layer : Nat) (r : PitchRecord),
    pitch < 64 → recordOf s pitch = some r → r.pitch = pitch →
    let x := pitchOf s pitch
    let rows := x.batch.filter fun m => decide (m.newTokens ≠ 0)
    let mine := x.chosen.filter fun c => decide (c.layer = layer)
    let ready := rows.all fun m => mine.any fun c => decide (c.seq = m.seq)
    let hot := mine.all fun c => c.pages.all fun n => hasHot (pageOf s pitch n);
      (∀ o u, mget x.readySyncs layer = some o → ready = true → hot = true → rows.all (staged s pitch layer) = true →
        (∃ c ∈ mine, c.list = none) → writeLists r layer mine s = some u → Admitted s (listRanges u r layer) → (syncOf s pitch o).count + 1 < 2 ^ 32 →
        (∀ c b, (campOf s c).blocked = some b → b.reason ≠ .sync o) →
        ∃ t, exec (.chunkListsReady pitch layer) s = .next t
          ∧ (syncOf t pitch o).count = (syncOf s pitch o).count + 1
          ∧ ((layerImage s pitch layer).isSome = true → (∀ c ∈ mine, layerIndex s pitch layer < (seqOf s c.seq).layers.length) →
              ∀ c ∈ (pitchOf t pitch).chosen, c.layer = layer → c.list ≠ none))
      ∧ (mget x.readySyncs layer = none ∨ ready = false ∨ hot = false ∨ rows.all (staged s pitch layer) = false ∨ (∀ c ∈ mine, c.list ≠ none) →
          exec (.chunkListsReady pitch layer) s = .next s))

/-- A selection that is not exact keeps the sink and recent pages and at most k others, in ascending order and without repeats (R214, R216). -/
def Obligations.LanternKeepsSinkAndRecentPages : Prop :=
  ∀ (b : LanternBlock) (n : Nat) (f g : Nat → Word),
    let sel := selectPages b false n f g
    sel.chosen.Pairwise (· < ·) ∧ (∀ i ∈ sel.chosen, i < n)
      ∧ (∀ i, i < n → i < b.sink ∨ n ≤ i + b.recent → i ∈ sel.chosen)
      ∧ (sel.chosen.filter fun i => !(decide (i < b.sink) || decide (n ≤ i + b.recent))).length ≤ b.k

/-- A promotion: with hot space the WARM page is PROMOTING at its new hot address, and without it the promotion waits; when the copy has
been written and checked the page is BOTH, its payload stands at both addresses, and every other byte of device memory reads as before
(R221, R222). A page that nothing references any more is freed, and one whose warm copy fails its check is lost (R221, R225, R257). A
demotion above the high mark makes the first HOT page of the order of R222 DEMOTING at its warm address; when the copy has been written the
page has its payload there, as BOTH, or as WARM where its hot copy is dropped (R221, R223). A BOTH page whose hot copy is read again from a
good warm copy keeps its descriptor, has the warm payload at its hot address, and every other byte of device memory reads as before (R225,
R252). With a warm copy that fails too the page is lost (R225). Completes: pagePromotionStart, pagePromotionDone, pageDemotionStart,
pageDemotionDone, pageRefetched. -/
def Obligations.PagesMoveBetweenHotAndWarm : Prop :=
  (∀ (s : State) (pitch n : Nat) (r : PitchRecord), pitch < 64 → recordOf s pitch = some r →
    (mayPromote s pitch n = false ∨ roomFor s pitch (payloadBytes (pageOf s pitch n)) = none → exec (.pagePromotionStart pitch n) s = .next s)
    ∧ (∀ a s1, mayPromote s pitch n = true → roomFor s pitch (payloadBytes (pageOf s pitch n)) = some (a, s1) →
      exec (.pagePromotionStart pitch n) s = .next (if (pageOf s1 pitch n).state = .warm
        then putPage s1 pitch n { pageOf s1 pitch n with state := .promoting, hot := a } else freeRange s1 pitch a))
    ∧ (∀ a s1, mayPromote s pitch n = true → allocHot s pitch (payloadBytes (pageOf s pitch n)) = some (a, s1) →
      ∃ t, exec (.pagePromotionStart pitch n) s = .next t ∧ pageOf t pitch n = { pageOf s pitch n with state := .promoting, hot := a }
        ∧ ∀ m, m ≠ n → pageOf t pitch m = pageOf s pitch m)
    ∧ (let g := pageOf s pitch n
      let rs := [(pitchDa s pitch g.warm, payloadBytes g), (pitchDa s pitch g.hot, payloadBytes g)]
      g.state = .promoting → Admitted s rs →
      (g.doomed = true → ∀ poison ok, exec (.pagePromotionDone pitch n poison ok) s = .next (freePage (touched s rs) pitch n))
      ∧ (g.doomed = false → ∀ poison ok, (poison = true ∨ ok = false) → exec (.pagePromotionDone pitch n poison ok) s
          = .next (pageLost (putPage (freeRange (warmBad (touched s rs) pitch n) pitch g.hot) pitch n { g with hot := 0 }) pitch n 1 0x0402))
      ∧ (g.doomed = false → ∃ t, exec (.pagePromotionDone pitch n false true) s = .next t
        ∧ pageOf t pitch n = { g with state := .both, wanted := false } ∧ (∀ m, m ≠ n → pageOf t pitch m = pageOf s pitch m)
        ∧ peekBytes t (pitchDa s pitch g.hot) (payloadBytes g) = peekBytes s (pitchDa s pitch g.warm) (payloadBytes g)
        ∧ MemoryElsewhere s t (pitchDa s pitch g.hot) (payloadBytes g))))
  ∧ (∀ (s : State) (pitch n : Nat) (r : PitchRecord), pitch < 64 → recordOf s pitch = some r → r.pitch = pitch →
    (∀ a s1, let s0 := onPitch s pitch fun x => { x with demoting := true }
      occupancyAbove s r r.profile.lantern.hotHigh = true →
      firstPage s0 pitch ((pagesIn s0 pitch .hot).filter fun m => !pageParks s0 pitch m) = some n →
      allocWarm s0 pitch n (payloadBytes (pageOf s pitch n)) = some (a, s1) →
      ∃ t, exec (.pageDemotionStart pitch) s = .next t ∧ pageOf t pitch n = { pageOf s pitch n with state := .demoting, warm := a }
        ∧ ∀ m, m ≠ n → pageOf t pitch m = pageOf s pitch m)
    ∧ (let g := pageOf s pitch n
      let rs := [(pitchDa s pitch g.warm, payloadBytes g), (pitchDa s pitch g.hot, payloadBytes g)]
      g.state = .demoting → Admitted s rs →
      (g.doomed = true → exec (.pageDemotionDone pitch n []) s = .next (freePage (touched s rs) pitch n))
      ∧ (g.doomed = false → ∃ t, exec (.pageDemotionDone pitch n []) s = .next t
        ∧ (pageOf t pitch n = { g with state := .both } ∨ pageOf t pitch n = { g with state := .warm, hot := 0 })
        ∧ (∀ m, m ≠ n → pageOf t pitch m = pageOf s pitch m)
        ∧ peekBytes t (pitchDa s pitch g.warm) (payloadBytes g) = peekBytes s (pitchDa s pitch g.hot) (payloadBytes g)
        ∧ MemoryElsewhere s t (pitchDa s pitch g.warm) (payloadBytes g))))
  ∧ (∀ (s : State) (pitch n : Nat) (r : PitchRecord), pitch < 64 → recordOf s pitch = some r →
    let g := pageOf s pitch n
    let rs := [(pitchDa s pitch g.warm, payloadBytes g), (pitchDa s pitch g.hot, payloadBytes g)]
    g.state = .both → Admitted s rs →
      exec (.pageRefetched pitch n false) s
        = .next (startWaitingAll (pageLost (warmBad (touched s rs) pitch n) pitch n 1 0x0402) pitch n)
      ∧ ∃ t, exec (.pageRefetched pitch n true) s = .next t ∧ (∀ m, pageOf t pitch m = pageOf s pitch m)
        ∧ peekBytes t (pitchDa s pitch g.hot) (payloadBytes g) = peekBytes s (pitchDa s pitch g.warm) (payloadBytes g)
        ∧ MemoryElsewhere s t (pitchDa s pitch g.hot) (payloadBytes g))

/-- A group step of an enabled pitch at or after its start tick makes the repairs that are due (R459) and enters the step with its
micro-batch: the one that the lead composes (R355), or the rows of the lead's table on another module (R361). A stopped pitch only tells its
group (R458). A step boundary ends the step once no program of the pitch runs, every row has gone through the phases of the step and its
send is done: the last module has the logits of the rows that it samples, another has sent its hidden states on (R29); before that only time
passes. The micro-batch and the choices are gone, every sync count is 0, the slots that do not persist are EMPTY, every window and
scratchpad of the pitch is clear, and each Ranger pair has its checkpoint (R156, R160, R161, R453). The lead takes the close report of
another module once; when every module has reported, the next step starts at the first multiple of 1,000 ns at least 20 µs later (R362).
Completes: groupStepStart, stepCloseReport, stepBoundary. -/
def Obligations.StepsBeginAndEnd : Prop :=
  (∀ (s : State) (pitch now : Nat) (table : List LengthRow) (decisions : List LeadDecision) (masks : NMap Nat) (r : PitchRecord),
    pitch < 64 → recordOf s pitch = some r → r.pitch = pitch → (pitchOf s pitch).inStep = false →
    let s1 := repairNow (atTime s now) pitch
    let x := pitchOf s1 pitch
    let tick := x.nextTick.getD (nextMicro s1.cairn.count)
    x.enabled = true → x.groupDisabled = false → x.package ≠ none → x.inStep = false → tick ≤ s1.cairn.count →
      (x.stopped = true → exec (.groupStepStart pitch now table decisions masks) s = .next (tellStopped s1 r tick))
      ∧ (x.stopped = false → ∃ t, exec (.groupStepStart pitch now table decisions masks) s = .next t
        ∧ (pitchOf t pitch).inStep = true ∧ (pitchOf t pitch).timeouts = 0 ∧ (pitchOf t pitch).uncorrectable = 0
        ∧ (pitchOf t pitch).batch = (if isLead r then (compose s1 r tick masks).2 else tableRows table)))
  ∧ (∀ (s : State) (pitch now : Nat) (logits : List RowLogits) (r : PitchRecord),
    pitch < 64 → recordOf s pitch = some r → r.pitch = pitch →
    let s1 := atTime s now
    let ended := (pitchOf s pitch).inStep && !programsRun s pitch && phasesDone s r && sendDone s r logits;
      (ended = false → ∀ found, exec (.stepBoundary pitch now logits found) s = .next s1)
      ∧ (ended = true → Admitted s1 (boundaryRanges s1 r) →
        (∀ found, found.any stopsCommand = true → found.any (findingWaits s1 false) = false →
          exec (.stepBoundary pitch now logits found) s = .next (rangerFindings pitch found (touched s1 (boundaryRanges s1 r))))
      ∧ ∃ t, exec (.stepBoundary pitch now logits []) s = .next t
        ∧ (pitchOf t pitch).inStep = false ∧ (pitchOf t pitch).batch = [] ∧ (pitchOf t pitch).chosen = []
        ∧ (pitchOf t pitch).stepCount = (pitchOf s pitch).stepCount + 1
        ∧ (∀ n, syncOf t pitch n = ⟨0, none⟩)
        ∧ (∀ n x, mget (pitchOf t pitch).slots n = some x → x.persistent = false → x.state = .empty)
        ∧ (∀ c k, campIn s pitch c = true → (coreOf (campOf t c) k).sp = [] ∧ (coreOf (campOf t c) k).win = [])
        ∧ t.ranger = { s.ranger with
            checkpoints := (List.range 4).map fun k => (k, ⟨t.cairn.count, s.ranger.spdmVersion, s.ranger.spdmAlgorithms⟩) }))
  ∧ (∀ (s : State) (pitch position now : Nat) (tokens : NMap Nat) (r : PitchRecord),
    pitch < 64 → recordOf s pitch = some r → r.pitch = pitch → isLead r = true → 0 < position → position < r.group.groupSize →
    position ∉ (pitchOf s pitch).reports →
    let reports := (pitchOf s pitch).reports ++ [position]
      ∃ t, exec (.stepCloseReport pitch position now tokens) s = .next t
        ∧ (if ∀ j, j < r.group.groupSize → j ∈ reports then
            (pitchOf t pitch).reports = [] ∧ (pitchOf t pitch).groupStep = (pitchOf s pitch).groupStep + 1
              ∧ (pitchOf t pitch).nextTick = some (nextMicro ((atTime s now).cairn.count + 20000))
          else (pitchOf t pitch).reports = reports ∧ (pitchOf t pitch).groupStep = (pitchOf s pitch).groupStep))

/-- Every row that the lead composes for a tick fits: at most `rows` rows with at most `tokens` tokens together, each of 1 to prefill_chunk
tokens, and token bases that follow one another (R185, R354, R355). -/
def Obligations.ComposedBatchesStayWithinTheProfile : Prop :=
  ∀ (s : State) (r : PitchRecord) (tick : Nat) (masks : NMap Nat),
    let rows := (compose s r tick masks).2
    rows.length ≤ r.profile.serving.rows ∧ (rows.map (·.newTokens)).sum ≤ r.profile.serving.tokens
      ∧ (∀ m ∈ rows, 1 ≤ m.newTokens ∧ m.newTokens ≤ r.profile.serving.prefillChunk ∧ m.tokens.length = m.newTokens)
      ∧ ∀ (j : Nat) (m : MicroRow), rows[j]? = some m → m.tokenBase = ((rows.take j).map (·.newTokens)).sum

/-- The boundary commits a row of the micro-batch: the sequence's length and step number advance, its tokens are appended and its pending
token is taken (R210). -/
def Obligations.CommittedRowsAdvanceTheirSequence : Prop :=
  ∀ (s : State) (r : PitchRecord) (m : MicroRow),
    (seqOf s m.seq).state ≠ .free → m.newTokens ≠ 0 →
      let e := seqOf s m.seq
      let f := seqOf (commitRow s r m) m.seq
      f.length = e.length + m.newTokens ∧ f.step = e.step + 1 ∧ f.tokens = e.tokens ++ m.tokens ∧ f.pending = none
        ∧ f.state = e.state ∧ f.generation = e.generation
        ∧ ∀ l ∈ f.layers, l.pendingPages = [] ∧ l.staging.count = l.staging.staged

/-- At temperature 0 the sampler takes the position of the greatest allowed logit, the lowest among equals, and draws nothing: seed,
position and stream make no difference (R110, R356). -/
def Obligations.GreedySamplingTakesTheMaximum : Prop :=
  ∀ (seed pos stream : Nat) (q : SampleParams) (ls : List Word), isZero q.temperature = true → ls ≠ [] →
    let v := sampleToken seed pos stream q ls
    let at_ (i : Nat) : Ranked := ⟨(maskedLogits q ls).getD i 0#32, i⟩;
      (∀ seed' pos' stream', sampleToken seed' pos' stream' q ls = v) ∧ v < ls.length
        ∧ ∀ i, i < ls.length → i ≠ v → ranksBefore false (at_ v) (at_ i) = true

/-! ### Sequences -/

/-- CREATE takes the lowest free entry of the pitch's allotment: a running sequence with the adopted tokens of the matching chain, and a
READY request with its handle; no other entry changes, and no byte of device memory but where its page lists find their place (R206, R230,
R338, R358). With a lost page among the adopted ones the sequence is HELD with cause 4 at once (R225). CONTINUE runs an IDLE sequence, or
one held with cause 1 or 2, whose cause it clears; every other entry stays as it was (R336, R338). Another sequence refuses it, with
INTEGRITY_FAIL where it is held with cause 3 (R336). A due CONTINUE, TRUNCATE or FORK of a sequence that a preempting park stops ends with
the sequence's other requests (R311). FORK of an IDLE sequence makes the lowest free entry an IDLE sequence of the same length and tokens,
with its own stream and with counters at zero; the parent stays as it was (R232, R338), and a child that references a lost page is HELD
(R225). Its step counts from the fork (R293; the model's reading: notes/assumptions/28.md). FREE frees the entry, whose generation rises
(R333, R338). Completes: qCreate, qContinue, qTruncate, qFork, qFree. -/
def Obligations.SequencesAreCreatedForkedAndFreed : Prop :=
  (∀ (s : State) (rid now : Nat) (q : Request) (r : PitchRecord) (i : Nat), MayAct s rid 1 q r → freeIndex s r = some i →
    let chain := if bitOf q.flags 0 then adoptChain s r q.tokens else [];
    let lost := ((List.range r.profile.layers).map (adoptedLayer s r chain)).any fun l => l.pages.any fun n =>
      decide ((pageOf s r.pitch n).state = lostState);
    ∀ u, refsFit s r.pitch (chainPages s r.pitch chain) = true →
    fitSeq (createSeq (atTime s now) r i chain q.tokens (bitOf q.flags 1)) r.pitch i = some u →
      ∃ t, exec (.qCreate rid now) s = .next t ∧ t.mem = u.mem ∧ (chain = [] → t.mem = s.mem)
        ∧ (seqOf t i).state = (if lost then .held else .running) ∧ (seqOf t i).hold = (if lost then 4 else 0) ∧ (seqOf t i).generation = (seqOf s i).generation ∧ (seqOf t i).pitch = r.pitch
        ∧ (seqOf t i).length = 256 * chain.length ∧ (seqOf t i).tokens = q.tokens.take (256 * chain.length) ∧ (seqOf t i).step = 0
        ∧ (seqOf t i).streamId = handleOf s i ∧ (∀ j, j ≠ i → seqOf t j = seqOf s j)
        ∧ (lost = false → ∃ q1, reqOf t rid = some q1 ∧ q1.handle = handleOf s i ∧ q1.state = .ready ∧ q1.adopted = 256 * chain.length))
  ∧ (∀ (s : State) (rid now : Nat) (q : Request) (r : PitchRecord),
    (namesNone q = false → preempted s (handleIndex q.handle) = true →
      (Due s rid 2 q r → exec (.qContinue rid now) s = .next (preemptRequests (atTime s now) (handleIndex q.handle)))
      ∧ (Due s rid 3 q r → exec (.qTruncate rid) s = .next (preemptRequests s (handleIndex q.handle)))
      ∧ (Due s rid 4 q r → exec (.qFork rid) s = .next (preemptRequests s (handleIndex q.handle))))
    ∧ (MayAct s rid 2 q r →
    let i := handleIndex q.handle
    let e := seqOf s i
    let runs := e.state = .idle ∨ (e.state = .held ∧ (e.hold = 1 ∨ e.hold = 2));
    (¬runs → exec (.qContinue rid now) s = .next (finishPlain (atTime s now) q (if e.state = .held ∧ e.hold = 3 then 0x0040 else 0x0011)))
    ∧ (runs →
      ∃ t q1, exec (.qContinue rid now) s = .next t
        ∧ seqOf t i = { e with state := .running, hold := 0, insert := bitOf q.flags 1, readyAt := (atTime s now).cairn.count }
        ∧ (∀ j, j ≠ i → seqOf t j = seqOf s j) ∧ reqOf t rid = some q1 ∧ q1.state = .ready ∧ q1.clearedHold = e.hold ∧ t.mem = s.mem ∧ t.pitches = s.pitches)))
  ∧ (∀ (s : State) (rid : Nat) (q : Request) (r : PitchRecord),
    let i := handleIndex q.handle
    let e := seqOf s i;
      (∀ k s1, MayAct s rid 4 q r → e.state = .idle → freeIndex s r = some k → forkSeq s r i k = some s1 →
        ∃ t, exec (.qFork rid) s = .next t ∧ reqOf t rid = none ∧ seqOf t i = e
          ∧ ((∀ l ∈ e.layers, ∀ n ∈ l.pages, (pageOf s1 e.pitch n).state ≠ lostState) → (seqOf t k).state = .idle)
          ∧ ((∃ l ∈ e.layers, ∃ n ∈ l.pages, (pageOf s1 e.pitch n).state = lostState) → (seqOf t k).state = .held)
          ∧ (seqOf t k).length = e.length ∧ (seqOf t k).tokens = e.tokens ∧ (seqOf t k).step = 0
          ∧ (seqOf t k).streamId = handleOf s k ∧ (seqOf t k).generation = (seqOf s k).generation
          ∧ ∀ l ∈ (seqOf t k).layers, l.counters = ⟨0, 0, 0, 0, 0, 0, 0, 0⟩)
      ∧ (Due s rid 8 q r → exec (.qFree rid) s = .next (doFree (afterPreempt s q) q))
      ∧ (MayAct s rid 8 q r →
        ∃ t, exec (.qFree rid) s = .next t ∧ reqOf t rid = none ∧ (seqOf t i).state = .free
          ∧ (seqOf t i).generation = (if 65535 ≤ e.generation then 1 else e.generation + 1)
          ∧ ∀ j, j ≠ i → seqOf t j = seqOf s j))

/-- TRUNCATE within the journal sets the sequence's length and drops the tokens beyond it, and completes (R234 to R236); where the page to
reopen has no hot copy the command waits for the copy, whose end completes it (R235), with INTEGRITY_FAIL where the page is lost (R14), or
refuses it in a pitch stopped meanwhile (R458). A length outside the journal is refused (R234, R236). Completes: qTruncate,
truncationCopyDone. -/
def Obligations.TruncateSetsTheLength : Prop :=
  ∀ (s : State) (rid : Nat) (q : Request) (r : PitchRecord),
    let i := handleIndex q.handle
    let e := seqOf s i;
      (MayAct s rid 3 q r → e.state ≠ .parked → e.state ≠ .held →
        (e.length < q.count → exec (.qTruncate rid) s = .next (finishPlain s q 0x0020))
        ∧ (q.count ≤ e.length → q.count < oldestLength e → exec (.qTruncate rid) s = .next (finishPlain s q 0x0011)))
      ∧ (MayAct s rid 3 q r → e.state ≠ .parked → e.state ≠ .held → q.count ≤ e.length → oldestLength e ≤ q.count →
        (reopensWarm s i q.count = false → truncateSeq s r i q.count ≠ none →
          ∃ t, exec (.qTruncate rid) s = .next t ∧ (seqOf t i).length = q.count ∧ (seqOf t i).tokens = e.tokens.take q.count
            ∧ (∀ j, j ≠ i → seqOf t j = seqOf s j) ∧ reqOf t rid = none)
        ∧ (reopensWarm s i q.count = true →
          ∃ t q1, exec (.qTruncate rid) s = .next t ∧ reqOf t rid = some q1 ∧ q1.state = .copying ∧ t = { s with reqs := t.reqs }))
      ∧ (reqOf s rid = some q → recordOf s q.pitch = some r → q.opcode = 3 → q.state = .copying →
        let rs := copyRanges s r i q.count;
        ((pitchOf s q.pitch).stopped = true → ∀ found, exec (.truncationCopyDone rid found) s = .next (finishPlain s q 0x0011))
        ∧ ((pitchOf s q.pitch).stopped = false → copiesReady s i q.count = true → groupOpen s r 3 = true → Admitted s rs →
          (∀ found, found.any stopsCommand = true → found.any (findingWaits s false) = false →
            exec (.truncationCopyDone rid found) s = .next (rangerFindings q.pitch found (touched s rs)))
          ∧ (e.hold = 4 → exec (.truncationCopyDone rid []) s = .next (finishPlain (touched s rs) q 0x0040))
          ∧ (e.hold ≠ 4 → truncateSeq (touched s rs) r i q.count ≠ none → ∃ t, exec (.truncationCopyDone rid []) s = .next t ∧ (seqOf t i).length = q.count ∧ (seqOf t i).tokens = e.tokens.take q.count
            ∧ (∀ j, j ≠ i → seqOf t j = seqOf s j) ∧ reqOf t rid = none)))

/-- PARK marks the sequence parked: with KEEP it completes at once, and with EXPORT or RELEASE the park enters phase 3 (R310, R313). With
preempt the running request and the waiting ones of the sequence end first (R311). A sequence that is exported, that KEEP finds parked, or
of which a fork is pending refuses it (R312). Phase 3 of a park ends once no page moves and every EXPORTED page has been read back: the
image is written to a destination that is large enough, and phase 4 begins with its length (R313, R317, R321); a smaller one ends the park,
and a payload that fails its digest is lost (R315, R324). Phase 4 waits for the destination's acknowledgement, and its error ends the park
(R313, R314). Phase 5 frees a released sequence, and leaves an exported one parked with its image's place recorded (R310, R313). Completes:
qPark, parkFormDone, parkCommit. -/
def Obligations.ParksWriteTheirImage : Prop :=
  (∀ (s : State) (rid : Nat) (q : Request) (r : PitchRecord), Due s rid 5 q r →
    let i := handleIndex q.handle
    (preempted s i = true → ∀ x ∈ s.reqs, x.rid = rid → x.opcode = 5) →
    let u := afterPreempt s q
    let e := seqOf u i
    let d := parkDesc q.descriptor
    (e.exported ≠ none ∨ (e.state = .parked ∧ d.disposition = 0) ∨ forkPending u q = true → exec (.qPark rid) s = .next (finishPlain u q 0x0011))
    ∧ (e.exported = none → ¬(e.state = .parked ∧ d.disposition = 0) → forkPending u q = false →
      ∃ t, exec (.qPark rid) s = .next t ∧ (∀ j, j ≠ i → seqOf t j = seqOf s j) ∧ t.mem = s.mem
        ∧ (∀ m, pitchOf t m = { pitchOf s m with decisions := (pitchOf t m).decisions })
        ∧ (preempted s i = true → (∀ x, runningReq s i = some x → reqOf t x.rid = none) ∧ ∀ x ∈ queuedOf s i, reqOf t x.rid = none)
        ∧ (d.disposition = 0 → seqOf t i = { e with state := .parked, park := none } ∧ reqOf t rid = none)
        ∧ (d.disposition ≠ 0 →
            seqOf t i = { e with
              state := .parked
              park := some ⟨some rid, false, d.disposition, d.destKind, d.address, d.length, d.session, 3, 0, q.tag, spaceOf q.origin q.pitch⟩ }
            ∧ ∃ q1, reqOf t rid = some q1 ∧ q1.state = .inFlight)))
  ∧ (∀ (s : State) (i : Nat) (r : PitchRecord) (k : ParkState) (back : NMap (List Byte)), i < 65536 → recordOf s (seqOf s i).pitch = some r →
    (seqOf s i).park = some k →
    let len := imageLength (imageRecords s r i back);
      (k.phase ≠ 3 ∨ pagesMove s (seqOf s i) = true ∨ (∃ n ∈ toImport s i, mget back n = none) → ∀ found, exec (.parkFormDone i back found) s = .next s)
      ∧ (k.phase = 3 → pagesMove s (seqOf s i) = false → (∀ n ∈ toImport s i, mget back n ≠ none) →
        (∀ n, badBack s i back = some n → ∀ found, exec (.parkFormDone i back found) s = .next (pageLost s r.pitch n 2 0x0403))
        ∧ (badBack s i back = none → Admitted s (formRanges s r i) →
        (∀ found, found.any stopsCommand = true → found.any (findingWaits s false) = false →
          exec (.parkFormDone i back found) s = .next (rangerFindings r.pitch found (touched s (formRanges s r i))))
        ∧ ∃ t, exec (.parkFormDone i back []) s = .next t ∧ t.mem.bytes = s.mem.bytes
          ∧ (k.destKind = 1 → k.destLength < len → (seqOf t i).park = none)
          ∧ ((k.destKind = 1 → len ≤ k.destLength) → (seqOf t i).park = some { k with phase := 4, imageLength := len }
            ∧ (seqOf t i).state = (seqOf s i).state ∧ t.pitches = s.pitches
            ∧ (k.destKind = 1 → ∃ image, t.out = s.out ++ [.dmaWrite k.space k.destAddress image]))))
      ∧ (k.phase = 4 → exec (.parkCommit i true) s = .next (abortPark s i 0x0040 0 false))
      ∧ (k.phase = 4 → imageAcked s k = false → exec (.parkCommit i false) s = .next s)
      ∧ (k.phase = 4 → imageAcked s k = true →
        ∃ t, exec (.parkCommit i false) s = .next t
          ∧ (k.disposition = 2 → (seqOf t i).state = .free)
          ∧ (k.disposition ≠ 2 → (seqOf t i).park = none ∧ (seqOf t i).state = (seqOf s i).state
              ∧ (seqOf t i).exported = some ⟨0, k.destKind, k.destAddress, k.imageLength, k.session, k.space⟩
              ∧ ∀ n ∈ ((seqOf s i).layers.map (·.pages)).flatten, (pageOf s (seqOf s i).pitch n).refcount = 1 →
                  ((pageOf s (seqOf s i).pitch n).state = .hot ∨ (pageOf s (seqOf s i).pitch n).state = .warm
                    ∨ (pageOf s (seqOf s i).pitch n).state = .both) →
                  (pageOf t (seqOf s i).pitch n).state = .exported ∧ (pageOf t (seqOf s i).pitch n).hot = 0
                    ∧ (pageOf t (seqOf s i).pitch n).warm = 0)
          ∧ ∀ q, k.rid = some q.rid → reqOf s q.rid = some q → reqOf t q.rid = none))

/-- RESUME in place makes a parked sequence IDLE, or HELD while its hold cause stands, and completes; its counters start at zero (R299,
R325). A resume of an exported sequence of one module restores it from its image; on a group the other modules check their images first
(DESIGN CHOICE: notes/assumptions/27.md). RESUME from an image reads what it lacks of the image first (R348); a check that fails refuses it
(R326), and an image that passes every check takes an entry, and when the records are read on every module the sequence is IDLE and the
resume completes (R326, R327, R330), unless its pitch has been stopped (R458). A page whose payload is good is imported when its turn comes:
a chosen page becomes HOT and another WARM at the space found for it, with the payload there and no byte elsewhere changed (R220, R221,
R327). One that fails its tag or digest, or whose read times out, is lost, no byte of device memory changes, and the import goes on with the
next page (R324, R330, R331). (A hold cause is kept through a park: notes/assumptions/28.md.) Completes: qResume, resumeRecordsRead,
pageImport, imageReadTimeout. -/
def Obligations.ResumesBringTheSequenceBack : Prop :=
  (∀ (s : State) (rid : Nat) (q : Request) (r : PitchRecord),
    let i := handleIndex q.handle
    let e := seqOf s i
    let x0 := sourceOf (spaceOf q.origin q.pitch) (sourceFor q.descriptor r);
      (∀ image, Due s rid 6 q r → exec (.qResume rid image) s = .next (doResume image (afterPreempt s q) q r))
      ∧ (∀ image, MayAct s rid 6 q r → q.handle ≠ 0 → q.count = 0 → e.state ≠ .parked → exec (.qResume rid image) s = .next (finishPlain s q 0x0011))
      ∧ (∀ image, MayAct s rid 6 q r → q.handle ≠ 0 → q.count = 0 → e.state = .parked → e.exported = none →
        ∃ t, exec (.qResume rid image) s = .next t ∧ reqOf t rid = none
          ∧ (seqOf t i).state = (if e.hold = 0 then .idle else .held) ∧ (seqOf t i).length = e.length ∧ (seqOf t i).tokens = e.tokens
          ∧ (∀ l ∈ (seqOf t i).layers, l.counters = ⟨0, 0, 0, 0, 0, 0, 0, 0⟩) ∧ ∀ j, j ≠ i → seqOf t j = seqOf s j)
      ∧ (∀ m x, MayAct s rid 6 q r → q.handle ≠ 0 → q.count = 0 → e.state = .parked → e.exported = some x → headerHeld s x q.tag m = true →
        nextReads m = [] →
          (m.directoryTag = false ∨ m.recordsTag = false → exec (.qResume rid (some m)) s = .next (finishPlain s q 0x0041))
          ∧ (m.directoryTag = true → m.recordsTag = true → 1 < r.group.groupSize →
            ∃ t, exec (.qResume rid (some m)) s = .next t ∧ t.seqs = s.seqs ∧ t.mem = s.mem
              ∧ (r.group.groupPosition = 0 → recordOf s r.pitch = some r →
                  (pitchOf t r.pitch).decisions = (pitchOf s r.pitch).decisions ++ [.checkInPlace q.handle q.tag none]))
          ∧ (m.directoryTag = true → m.recordsTag = true → r.group.groupSize ≤ 1 →
            ∀ s1, resumeExported (finishPlain s q 0x0000) r i q.tag q.origin m = some s1 →
            exec (.qResume rid (some m)) s = .next (tellGroup s1 r.pitch (.resumeInPlace q.handle q.tag none))))
      ∧ (∀ m f, MayAct s rid 6 q r → (q.handle = 0 ∨ q.count ≠ 0) → earlyCheck s q r m = some f →
          exec (.qResume rid (some m)) s = .next (refuseResume s q f.1 f.2 m))
      ∧ (∀ m, MayAct s rid 6 q r → (q.handle = 0 ∨ q.count ≠ 0) → earlyCheck s q r m = none → headerHeld s x0 q.tag m = true → nextReads m ≠ [] →
          ∃ t q1, exec (.qResume rid (some m)) s = .next t ∧ reqOf t rid = some q1 ∧ q1 = { q with state := .copying } ∧ t.seqs = s.seqs)
      ∧ (∀ m k s1, MayAct s rid 6 q r → (q.handle = 0 ∨ q.count ≠ 0) → earlyCheck s q r m = none → headerHeld s x0 q.tag m = true → nextReads m = [] →
        freeIndex s r = some k → takeImage s r k q.count (spaceOf q.origin q.pitch) (sourceFor q.descriptor r) m = .ok s1 →
          ∃ t q1, exec (.qResume rid (some m)) s = .next t ∧ reqOf t rid = some q1 ∧ q1.state = .reading ∧ q1.handle = handleOf s1 k
            ∧ (seqOf t k).state = .parked ∧ (seqOf t k).generation = (seqOf s k).generation)
      ∧ (∀ m, reqOf s rid = some q → recordOf s q.pitch = some r → q.opcode = 6 → q.state = .reading → q.image = some m →
        ((pitchOf s q.pitch).stopped = true → ∀ peer,
          exec (.resumeRecordsRead rid peer) s = .next (finish (dropResume s q) q 0x0011 0 (refusedHandle q) 0))
        ∧ ((pitchOf s q.pitch).stopped = false →
          (∀ f, exec (.resumeRecordsRead rid (some f)) s = .next (finish (dropResume s q) q f.2 0 (refusedHandle q) 0))
          ∧ (q.count = 0 → groupOpen s r 6 = true → e.state = .parked → exec (.resumeRecordsRead rid none) s = .next (finishInPlace s q r m))
          ∧ (q.count ≠ 0 → ∀ s1, readLayers r i m (List.range r.profile.layers) s = some s1 →
            (∀ l ∈ (seqOf s1 i).layers, ∀ n ∈ l.pages, (pageOf s1 (seqOf s1 i).pitch n).state ≠ lostState) →
            ∃ t, exec (.resumeRecordsRead rid none) s = .next t ∧ reqOf t rid = none ∧ (seqOf t i).state = .idle))))
  ∧ (∀ (s : State) (p n i : Nat) (r : PitchRecord), p < 64 → recordOf s p = some r → importer s p n = some i → (pageOf s p n).state = .exported →
    let g := pageOf s p n;
      (∀ payload a s1, payload.length = payloadBytes g →
        (∀ tag digest, (tag && digest) = false →
          exec (.pageImport p n tag digest payload) s = .next (importLost s p n 0x0403 i) ∧ (importLost s p n 0x0403 i).mem.bytes = s.mem.bytes)
        ∧ (g.wanted = true → allocHot s p (payloadBytes g) = some (a, s1) → rangeStalls s1 (pitchDa s p a, payload.length) = false →
          ∃ t, exec (.pageImport p n true true payload) s = .next t ∧ (pageOf t p n).state = .hot ∧ (pageOf t p n).hot = a
            ∧ (pageOf t p n).wanted = false ∧ peekBytes t (pitchDa s p a) payload.length = payload
            ∧ MemoryElsewhere s1 t (pitchDa s p a) payload.length)
        ∧ (g.wanted = false → allocWarm s p n (payloadBytes g) = some (a, s1) → rangeStalls s1 (pitchDa s p a, payload.length) = false →
          ∃ t, exec (.pageImport p n true true payload) s = .next t ∧ (pageOf t p n).state = .warm ∧ (pageOf t p n).warm = a
            ∧ peekBytes t (pitchDa s p a) payload.length = payload ∧ MemoryElsewhere s1 t (pitchDa s p a) payload.length))
      ∧ exec (.imageReadTimeout p n) s = .next (importLost s p n 0x0402 i) ∧ (importLost s p n 0x0402 i).mem.bytes = s.mem.bytes)

/-- STATUS with the records of the group's other modules writes a record to the output buffer of a ring's command that begins with the
handle, the state's code and the length, completes, and changes no sequence, no pitch and no memory; a buffer that is too small is refused,
and before every module has answered the command waits (R343). Holding a sequence (R336): one that is not parked is HELD with the cause,
cause 4 standing against a later one, and the running request of the sequence is no longer there; a parked one stays parked and keeps the
cause, and cause 4 ends its park (R314), after which a sequence of a stopped pitch is HELD (R458). (A parked sequence stays parked and keeps
the cause: notes/assumptions/28.md.) Completes: qStatus. -/
def Obligations.StatusAndHoldingOfASequence : Prop :=
  (∀ (s : State) (rid : Nat) (peers : List (List Byte)) (q : Request) (r : PitchRecord), Due s rid 7 q r →
    let i := handleIndex q.handle
    let e := seqOf s i
    let bs := statusRecord s i (peers.map fun b => padTo (48 * ceilDiv b.length 48) b).flatten;
      (exec (.qStatus rid peers) s = .next (doStatus peers (afterPreempt s q) q r))
      ∧ (MayAct s rid 7 q r → peers.length + 1 ≠ r.group.groupSize → exec (.qStatus rid peers) s = .next s)
      ∧ (MayAct s rid 7 q r → peers.length + 1 = r.group.groupSize → q.descriptor.length < bs.length → exec (.qStatus rid peers) s = .next (finishPlain s q 0x0020))
      ∧ (MayAct s rid 7 q r → peers.length + 1 = r.group.groupSize → bs.length ≤ q.descriptor.length →
        ∃ t, exec (.qStatus rid peers) s = .next t ∧ (∀ fn ring, q.origin = .ring fn ring → Output.dmaWrite fn q.data bs ∈ t.out)
        ∧ bs.length = 32 + 48 * (e.layers.length + (peers.map fun b => ceilDiv b.length 48).sum)
        ∧ bs.take 4 = leBytes 4 (handleOf s i) ∧ (bs.drop 4).take 1 = leBytes 1 (seqStateCode e.state) ∧ (bs.drop 12).take 4 = leBytes 4 e.length
        ∧ reqOf t rid = none ∧ t.seqs = s.seqs ∧ t.pitches = s.pitches ∧ t.mem = s.mem))
  ∧ (∀ (s : State) (i cause result : Nat), (seqOf s i).state ≠ .free →
    let t := holdSeq s i cause result
    let ended := cause = 4 ∧ (seqOf s i).park ≠ none ∧ (pitchOf s (seqOf s i).pitch).stopped = true
    (seqOf t i).state = (if (seqOf s i).state = .parked ∧ ¬ended then .parked else .held)
      ∧ (seqOf t i).hold = (if (seqOf s i).hold = 4 then 4 else cause) ∧ (cause = 4 → (seqOf t i).park = none) ∧ (seqOf t i).length = (seqOf s i).length
      ∧ (∀ j, j ≠ i → seqOf t j = seqOf s j) ∧ (∀ q, runningReq s i = some q → reqOf t q.rid = none) ∧ t.mem = s.mem)

/-! ### Host port and firmware update -/

/-- A submission doorbell with a valid value is the ring's new tail, and the device reads the entries that it makes visible (R345, R416). A
completion doorbell with a valid head frees the entries up to it, and the completions that the ring holds are posted in order while there is
room (R345, R346, R416); a head beyond the tail is ignored. A submission entry that is read with room for its completion moves the ring's
head; an entry that nothing refuses becomes an accepted command at the end of the queue (R340, R346), and what the entry names is read from
the function's memory (R411). An entry that cannot be read stops the ring (R427), and a poisoned answer sets AER's status (R407; the bit:
PRESUMED, notes/assumptions/8.md). (The old head on a full ring frees every entry: notes/assumptions/32.md.) Completes: submissionDoorbell,
completionDoorbell, submissionFetch. -/
def Obligations.RingsMoveWithTheirDoorbells : Prop :=
  (∀ (s : State) (fn ring : Nat) (value : Word) (k : Ring), fn < 65 → ring < 16 → fnReachable s fn = true → fnBarred s fn = false →
    mget (fnOf s fn).sub ring = some k → k.fetchError = false → doorbellOk k value = true →
      ∃ t, exec (.submissionDoorbell fn ring value) s = .next t
        ∧ mget (fnOf t fn).sub ring = some { k with doorbell := value.toNat }
        ∧ (∀ j, j ≠ ring → mget (fnOf t fn).sub j = mget (fnOf s fn).sub j)
        ∧ t.out.length = s.out.length + (value.toNat + k.entries - k.doorbell) % k.entries
        ∧ t = { s with host := t.host, out := t.out })
  ∧ (∀ (s : State) (fn ring : Nat) (value : Word) (k : Ring), fn < 65 → ring < 16 → fnReachable s fn = true → fnBarred s fn = false →
    mget (fnOf s fn).comp ring = some k → doorbellOk k value = true →
    let left := k.inFlight - freedBy k value.toNat
    let posted := min k.held.length (k.entries - left);
      (freedBy k value.toNat ≤ k.inFlight →
        ∃ t k2, exec (.completionDoorbell fn ring value) s = .next t ∧ mget (fnOf t fn).comp ring = some k2
          ∧ k2.doorbell = value.toNat ∧ k2.inFlight = left + posted ∧ k2.held = k.held.drop posted
          ∧ t = { s with host := t.host, out := t.out })
      ∧ (k.inFlight < freedBy k value.toNat → exec (.completionDoorbell fn ring value) s = .next s))
  ∧ (∀ (s : State) (fn ring now : Nat) (k : Ring), fn < 65 → ring < 16 → fnReachable s fn = true → fnBarred s fn = false →
    mget (fnOf s fn).sub ring = some k → k.fetchError = false → k.position ≠ k.doorbell → completionRoom (fnOf s fn) k = true →
      (∀ d r, recordOf s (if fn = 0 then k.pitch else fn - 1) = some r → refusalOf s r (entryOf d.entry) d = none →
        ∀ poisoned, ∃ t, exec (.submissionFetch fn ring now (some d) poisoned) s = .next t
          ∧ (∀ x ∈ entryReads d, Output.dmaRead fn x.1 x.2 ∈ t.out)
          ∧ t.reqs = s.reqs ++ [requestOf s.reqNext (.ring fn k.completion) (if fn = 0 then k.pitch else fn - 1) (entryOf d.entry) d]
          ∧ t.reqNext = s.reqNext + 1 ∧ mget (fnOf t fn).sub ring = some { k with position := (k.position + 1) % k.entries }
          ∧ t.seqs = s.seqs ∧ t.mem = s.mem)
      ∧ ∀ poisoned, ∃ t, exec (.submissionFetch fn ring now none poisoned) s = .next t ∧ mget (fnOf t fn).sub ring = some { k with fetchError := true }
          ∧ t.host.aer = (if poisoned then s.host.aer ||| 0x1000#32 else s.host.aer)
          ∧ t.reqs = s.reqs ∧ t.ev.written = (s.ev.written + 1) % 2 ^ 32)

/-- A post with word 0 replaces the posted message, its words 1 to 15 staged and word 0 stamped with the sender (R417, R418); an EMPTY
mailbox is then posted, one whose message is taken has the next one posted, and otherwise the collision bit is set (R419). Writing 1 to bit
[2] of mb_status clears that bit and nothing else in the mailbox. Messages that the Ranger takes from a posted mailbox, from phase 9 of a
start on (R344, R420, R421, R435): RING_CREATE and RING_DESTROY make and remove a ring, ATTACH_BEGIN draws a challenge of 16 bytes, and
ATTACH with the right response attaches the VF; with any other it fails with AUTH_FAIL and a record, and the challenge is discarded. Each of
the others acknowledges with DONE under the number of the post, and leaves the mailbox EMPTY (R419). Completes: mailboxPost, collisionClear,
ringCreate, ringDestroy, attachBegin, attach. -/
def Obligations.MailboxesCarryMessages : Prop :=
  (∀ (s : State) (fn mb : Nat), mailOk fn mb = true → fnReachable s fn = true →
      (∀ words w, mget words 0 = some w →
        ∃ t, exec (.mailboxPost fn mb words) s = .next t
          ∧ (mailOf t fn mb).message = stampWord fn mb w :: stageWords (mailOf s fn mb).staging words
          ∧ (mailOf t fn mb).postedSeq = (if (mailOf s fn mb).postedSeq = 255 then 1 else (mailOf s fn mb).postedSeq + 1)
          ∧ (mailOf t fn mb).state = (match (mailOf s fn mb).state with
              | .empty => .posted
              | .posted => .posted
              | .taken => .takenPosted
              | .takenPosted => .takenPosted)
          ∧ ((mailOf s fn mb).state = .posted ∨ (mailOf s fn mb).state = .takenPosted → (mailOf t fn mb).collision = true)
          ∧ ((mailOf s fn mb).state = .empty ∨ (mailOf s fn mb).state = .taken → t = { s with host := t.host }))
      ∧ (∀ value : Word, value.getLsbD 2 = true →
        ∃ t, exec (.collisionClear fn mb value) s = .next t ∧ mailOf t fn mb = { mailOf s fn mb with collision := false }
          ∧ t = { s with host := t.host }))
  ∧ (∀ (s : State) (fn mb : Nat), mailOk fn mb = true → fnReachable s fn = true → 9 ≤ s.boot.phase → (mailOf s fn mb).state = .posted →
    fnBarred s fn = false →
    s.boot.configRefused = false →
    let msg := (mailOf s fn mb).message
    let acked (t : State) : Prop := (mailOf t fn mb).state = .empty ∧ (mailOf t fn mb).ackCode = 0 ∧ (mailOf t fn mb).ackValid = true
      ∧ (mailOf t fn mb).ackSeq = (mailOf s fn mb).postedSeq
    let bs := wordBytes msg 8
    let f := fnOf s fn;
      (mailType msg = 0x01 → f.attached = true → ringDescOk s fn bs = true →
        let k := freshRing (if fn = 0 then leAt bs 2 1 else fn - 1) (leAt bs 3 1) (leAt bs 4 4) (leAt bs 8 8) (leAt bs 16 2);
        (leAt bs 0 1 = 0 → mget f.sub (leAt bs 1 1) = none →
          ∃ t, exec (.ringCreate fn mb []) s = .next t ∧ acked t ∧ mget (fnOf t fn).sub (leAt bs 1 1) = some k)
        ∧ (leAt bs 0 1 = 1 → mget f.comp (leAt bs 1 1) = none →
          ∃ t, exec (.ringCreate fn mb []) s = .next t ∧ acked t ∧ mget (fnOf t fn).comp (leAt bs 1 1) = some k))
      ∧ (mailType msg = 0x02 → let w := wordAt msg 1; let ring := bitsOf w 11 8; w = w % 2 + 256 * ring →
        (w % 2 = 0 → mget f.sub ring ≠ none →
          ∃ t, exec (.ringDestroy fn mb []) s = .next t ∧ acked t ∧ mget (fnOf t fn).sub ring = none)
        ∧ (w % 2 = 1 → mget f.comp ring ≠ none → (∀ x ∈ f.sub, x.2.completion ≠ ring ∨ x.2.fetchError = true) →
          ∃ t, exec (.ringDestroy fn mb []) s = .next t ∧ acked t ∧ mget (fnOf t fn).comp ring = none))
      ∧ (mailType msg = 0x03 → fn ≠ 0 →
        ∃ t c, exec (.attachBegin fn mb []) s = .next t ∧ acked t ∧ (fnOf t fn).challenge = some c ∧ c.length = 16)
      ∧ (mailType msg = 0x04 → fn ≠ 0 → ∀ c, f.challenge = some c → wordBytes msg 4 = attachResponse s (fn - 1) c →
        ∃ t, exec (.attach fn mb []) s = .next t ∧ acked t ∧ (fnOf t fn).attached = true)
      ∧ (mailType msg = 0x04 → (∀ c, f.challenge = some c → wordBytes msg 4 ≠ attachResponse s (fn - 1) c) →
        ∃ t, exec (.attach fn mb []) s = .next t ∧ (mailOf t fn mb).state = .empty ∧ (mailOf t fn mb).ackCode = 0x41
          ∧ (fnOf t fn).challenge = none ∧ (fnOf t fn).attached = f.attached ∧ t.ev.written = (s.ev.written + 1) % 2 ^ 32))

/-- Reading CAIRN_LO gives bits [31:0] of the count and latches bits [63:32] in cairn_hi of the function (R413); writing 1 to bits [3] and
[4] of the supply register clears trip and power_loss (R482). A read of the msg words of a mailbox, of a doorbell, and of an offset that no
table names gives zero (R8, R9, R415, R417). A register write in BAR 0 sets event_vector and event_int of the PF, or the mask bit of an
MSI-X entry, whose pending interrupt an unmasked entry sends where MSI-X is enabled and the function is not masked (R412, R413, R422); a
register that takes no write is left as it was (R9). In the configuration space, whose offsets are the model's (DESIGN CHOICE:
notes/assumptions/8.md), MSI-X Enable and Function Mask of a function and VF Enable of the PF are set, and a cleared VF Enable resets every
VF (R407, R422, R423). A function that is reset on its own, or the PF with every VF, holds its reset values and is being reset, and a reset
of the PF clears VF Enable and NumVFs (R423, R424); a hot reset trains the port again at its one rate and width (R408). A VF that does not
exist is not reset. When the reset is done the function is reachable. (An MSI-X entry is masked at reset: notes/assumptions/8.md.)
Completes: cairnLoRead, supplyLatchClear, registerWrite, functionReset, functionResetDone. -/
def Obligations.RegistersAndFunctionResets : Prop :=
  (∀ s : State,
    (∀ fn, fn < 65 → s.host.up = true → fnExists s fn = true →
      ∃ t, exec (.cairnLoRead fn) s = .next t ∧ (fnOf t fn).cairnHi = s.cairn.count / 2 ^ 32 % 2 ^ 32
        ∧ t.out = s.out ++ [.read (BitVec.ofNat 32 (s.cairn.count % 2 ^ 32))] ∧ (∀ g, g ≠ fn → fnOf t g = fnOf s g)
        ∧ t = { s with host := t.host, out := t.out })
    ∧ (∀ fn offset, fn < 65 → readRegister s fn 2 offset = 0#32
        ∧ (∀ mb o, mailOk fn mb = true → o < 64 → readRegister s fn 0 (0x10000 + 256 * mb + o) = 0#32)
        ∧ (0x028 ≤ offset → offset < 0x1000 → readRegister s fn 0 offset = 0#32))
    ∧ ∀ value : Word, exec (.supplyLatchClear value) s = .next { s with
        pw := { s.pw with trip := s.pw.trip && !value.getLsbD 3, powerLoss := s.pw.powerLoss && !value.getLsbD 4 } })
  ∧ (∀ (s : State) (fn : Nat) (value : Word), fn < 65 → fnReachable s fn = true →
    (fn = 0 → ∃ t, exec (.registerWrite fn 0 0x024 value) s = .next t ∧ (fnOf t 0).eventVector = value.toNat % 2048
      ∧ (fnOf t 0).eventInt = value.getLsbD 16 ∧ t = { s with host := t.host })
    ∧ (∀ e, e < vectorsOf fn → let x := mgetD (fnOf s fn).msix e ⟨0, 0, true, false⟩
      let sends := x.waiting && !value.getLsbD 0 && (fnOf s fn).msixEnable && !(fnOf s fn).msixMask
      ∃ t, exec (.registerWrite fn 0 (0x2000 + 16 * e + 12) value) s = .next t
        ∧ mget (fnOf t fn).msix e = some { x with masked := value.getLsbD 0, waiting := x.waiting && !sends }
        ∧ t.out = (if sends then s.out ++ [.interrupt fn e] else s.out))
    ∧ (∀ o, o < 0x024 → exec (.registerWrite fn 0 o value) s = .next s)
    ∧ (∃ t, exec (.registerWrite fn 7 0x40 value) s = .next t
        ∧ (fnOf t fn).msixEnable = value.getLsbD 31 ∧ (fnOf t fn).msixMask = value.getLsbD 30)
    ∧ (fn = 0 → exec (.registerWrite 0 7 0x168 value) s = .next (if value.getLsbD 0 then { s with host := { s.host with vfEnable := true } }
        else if s.host.vfEnable then vfsOff s else s)))
  ∧ (∀ (s : State) (rate width : Nat), s.host.up = true →
    let cleared (t : State) (fn : Nat) : Prop := mget t.host.fns fn = some ⟨true, false, none, [], [], [], 0, 0, false, false, false, []⟩
    let all (t : State) : Prop := cleared t 0 ∧ (∀ fn ∈ vfs s, cleared t fn) ∧ t.host.vfEnable = false ∧ t.host.numVfs = 0;
    (∀ fn, fn < 65 → fn ≠ 0 →
      (fnExists s fn = true → ∃ t, exec (.functionReset (.functionLevel fn) rate width) s = .next t ∧ cleared t fn ∧ t.host.up = true)
      ∧ (fnExists s fn = false → exec (.functionReset (.functionLevel fn) rate width) s = .next s))
    ∧ (∃ t, exec (.functionReset (.functionLevel 0) rate width) s = .next t ∧ all t ∧ t.host.up = true)
    ∧ (∃ t, exec (.functionReset .pf rate width) s = .next t ∧ all t ∧ t.host.up = true)
    ∧ (∃ t, exec (.functionReset .vfDisable rate width) s = .next t ∧ (∀ fn ∈ vfs s, cleared t fn) ∧ t.host.vfEnable = false)
    ∧ (∃ t, exec (.functionReset .hotReset rate width) s = .next t ∧ all t ∧ t.host.ide = false
        ∧ t.host.up = (decide (rate = 64) && decide (width = 16)))
    ∧ (∀ fn, fn < 65 → ∃ t, exec (.functionResetDone fn) s = .next t ∧ (fnOf t fn).resetting = false
        ∧ (∀ g, g ≠ fn → fnOf t g = fnOf s g) ∧ t = { s with host := t.host }))

/-- The update messages of R442 run alike from a mailbox of the PF, which is acknowledged with their code and reply, and from a SUBMIT of an
open management session, stamped with source class 0x5, which is answered with a COMPLETE; another type in such a SUBMIT is answered
BAD_ARGUMENT, and another datagram has no effect. Each update message that is posted in a mailbox of the PF, from phase 9 of a start on, and
that R443 lets pass completes, is acknowledged with DONE, and has its effect: FW_WRITE writes the slot that is not in use, FW_VERIFY notes
the image as verified, FW_ACTIVATE arms a restart, FW_DISARM clears it, FW_CONFIRM makes the trial slot active, LOCK_WRITE sets the lock,
FW_STATUS answers with the boot status and the armed time (R440 to R445). FW_WRITE is refused in the order of R443. What the update messages
do when nothing refuses them (R440 to R445): FW_WRITE puts its data at its offset of the slot that is not in use and leaves the slot in use
as it was; FW_VERIFY notes a good image; FW_ACTIVATE arms a restart and FW_DISARM clears it; FW_CONFIRM makes the trial slot the active one;
LOCK_WRITE sets the lock record. An armed restart comes at its time and not before (R445): on VIN_BACKUP the module disarms with a record;
otherwise it starts up again with no arming, and for a trial with the slot that is not in use on trial. A firmware block that a neighbour
sends (R444): the first block of an image that nothing refuses erases the slot that is not in use and puts its data at its offset, and the
slot in use stays as it was; a forwarded DISARM clears an armed restart. (The form of the session answer and erased bytes:
notes/assumptions/39.md.) Completes: fwWrite, fwVerify, fwActivate, fwDisarm, fwConfirm, lockWrite, fwStatus, fwArmedRestart, firmwareBlock. -/
def Obligations.UpdatesWriteAndRestart : Prop :=
  (∀ (s : State) (dma : List Byte) (ok : Bool) (refusing : List Nat),
    (∀ (mb : Nat) (posts : List (NMap Word)), mb < 256 → fnReachable s 0 = true → 9 ≤ s.boot.phase → (mailOf s 0 mb).state = .posted →
      let msg := (mailOf s 0 mb).message
      let s1 := mailWrites 0 mb posts (takeMail s 0 mb)
      let src := FwSource.mailbox 0 mb posts
      let done (x : MailResult) : State := ackMail x.state 0 mb x.code x.reply;
      (mailType msg = 0x10 → exec (.fwWrite src dma) s = .next (done (actFwWrite false dma msg s1)))
      ∧ (mailType msg = 0x11 → exec (.fwVerify src ok refusing) s = .next (done (actFwVerify ok refusing false [] msg s1)))
      ∧ (mailType msg = 0x12 → exec (.fwActivate src refusing) s = .next (done (actFwActivate refusing false [] msg s1)))
      ∧ (mailType msg = 0x13 → exec (.fwDisarm src refusing) s = .next (done (actFwDisarm refusing false [] msg s1)))
      ∧ (mailType msg = 0x14 → exec (.fwConfirm src refusing) s = .next (done (actFwConfirm refusing false [] msg s1)))
      ∧ (mailType msg = 0x16 → exec (.lockWrite src dma ok) s = .next (done (actLockWrite ok false dma msg s1)))
      ∧ (mailType msg = 0x17 → exec (.fwStatus src) s = .next (done (actFwStatus false [] msg s1))))
    ∧ (∀ d : Datagram,
      let s0 := atTime s d.now
      let msg := sessionWords d
      let data := d.body.drop 64
      let s1 := acceptDatagram s0 d
      let src := FwSource.session d
      let done (x : MailResult) : State :=
        sendMessage x.state d.session 0x04 (leBytes 4 x.code ++ (x.reply.map fun w => leBytes 4 w.toNat).flatten);
      (managementSubmit s0 d = false → exec (.fwWrite src dma) s = .next s0 ∧ exec (.fwStatus src) s = .next s0)
      ∧ (managementSubmit s0 d = true →
        ((mailType msg < 0x10 ∨ mailKnown (mailType msg) = false) → exec (.fwStatus src) s = .next (done ⟨s1, 0x20, []⟩))
        ∧ (msg.headD 0#32).toNat % 2 ^ 24 = srcManagement
        ∧ (mailType msg = 0x10 → exec (.fwWrite src dma) s = .next (done (actFwWrite true data msg s1)))
        ∧ (mailType msg = 0x11 → exec (.fwVerify src ok refusing) s = .next (done (actFwVerify ok refusing true data msg s1)))
        ∧ (mailType msg = 0x12 → exec (.fwActivate src refusing) s = .next (done (actFwActivate refusing true data msg s1)))
        ∧ (mailType msg = 0x13 → exec (.fwDisarm src refusing) s = .next (done (actFwDisarm refusing true data msg s1)))
        ∧ (mailType msg = 0x14 → exec (.fwConfirm src refusing) s = .next (done (actFwConfirm refusing true data msg s1)))
        ∧ (mailType msg = 0x16 → exec (.lockWrite src dma ok) s = .next (done (actLockWrite ok true data msg s1)))
        ∧ (mailType msg = 0x17 → exec (.fwStatus src) s = .next (done (actFwStatus true data msg s1))))))
  ∧ (∀ (s : State) (mb : Nat) (dma : List Byte) (ok : Bool) (refusing : List Nat), mb < 256 → fnReachable s 0 = true → 9 ≤ s.boot.phase → (mailOf s 0 mb).state = .posted →
    let msg := (mailOf s 0 mb).message
    let src := FwSource.mailbox 0 mb []
    let acked (t : State) (code : Nat) : Prop := (mailOf t 0 mb).state = .empty ∧ (mailOf t 0 mb).ackCode = code
      ∧ (mailOf t 0 mb).ackValid = true ∧ (mailOf t 0 mb).ackSeq = (mailOf s 0 mb).postedSeq
    let trial := bitOf (wordAt msg 3) 0
    let id := ((List.range 4).map fun k => leBytes 4 (wordAt msg (4 + k))).flatten;
      (mailType msg = 0x10 → fwWriteArgs false dma msg = true →
        ∃ t, exec (.fwWrite src dma) s = .next t
          ∧ (let refusal : Option Nat := if s.pw.onBackup = true then some rcRefusedSupply
              else if s.nvm.lock.lock = true then some rcRefusedLock
              else if moving s = true then some rcRefusedMoving
              else if wordAt msg 1 = 1 ∧ s.boot.onTrial = true then some rcRefusedState else none
            match refusal with
            | some code => acked t code ∧ t.nvm = s.nvm
            | none => acked t 0 ∧ slotData t.nvm (wordAt msg 1) (slotInUse s (wordAt msg 1)) = slotData s.nvm (wordAt msg 1) (slotInUse s (wordAt msg 1))
                ∧ ((slotData t.nvm (wordAt msg 1) (spareSlot s (wordAt msg 1))).drop (wordAt msg 2)).take (dma.take (wordAt msg 5)).length
                  = dma.take (wordAt msg 5)))
      ∧ (mailType msg = 0x11 → wordAt msg 1 < 4 →
        ∃ t, exec (.fwVerify src ok refusing) s = .next t ∧ acked t (slotCheck s (wordAt msg 1 % 2) ok) ∧ t.nvm = s.nvm
          ∧ (slotCheck s (wordAt msg 1 % 2) ok = 0 → ∃ v ∈ t.boot.verified, v.target = wordAt msg 1 % 2
              ∧ v.digest = Config.sha384 (slotImage (slotData s.nvm (wordAt msg 1 % 2) (spareSlot s (wordAt msg 1 % 2))))))
      ∧ (mailType msg = 0x12 → wordAt msg 3 < 4 → ¬(trial = true ∧ (s.pw.onBackup = true ∨ s.nvm.lock.lock = true)) → moving s = false →
        activateOk s (iovaAt msg 1) trial id = true →
        ∃ t, exec (.fwActivate src refusing) s = .next t ∧ acked t 0 ∧ t.boot.arm = some ⟨iovaAt msg 1, trial⟩ ∧ t.nvm = s.nvm)
      ∧ (mailType msg = 0x13 → wordAt msg 1 = 0 ∨ wordAt msg 1 = 2 →
        ∃ t, exec (.fwDisarm src refusing) s = .next t ∧ acked t 0 ∧ t.boot.arm = none ∧ t.nvm = s.nvm)
      ∧ (mailType msg = 0x14 → wordAt msg 1 = 0 ∨ wordAt msg 1 = 2 → windowOpen s = true →
        (headerOf s.nvm).generation + 1 < 2 ^ 32 → s.boot.slot < 2 →
        ∃ t, exec (.fwConfirm src refusing) s = .next t ∧ acked t 0 ∧ t.boot.onTrial = false ∧ (headerOf t.nvm).active = s.boot.slot
          ∧ (headerOf t.nvm).trial = none ∧ (headerOf t.nvm).trialStarts = 0)
      ∧ (mailType msg = 0x16 → iovaAt msg 1 ≠ 0 → lockRecordOk dma = true → ok = true → s.nvm.fuses.ownerHash ≠ none →
        s.nvm.lock.counter < leAt dma 8 8 →
        ∃ t, exec (.lockWrite src dma ok) s = .next t ∧ acked t 0 ∧ t.nvm.lock = ⟨decide (leAt dma 4 1 = 1), leAt dma 8 8⟩)
      ∧ (mailType msg = 0x17 →
        ∃ t, exec (.fwStatus src) s = .next t ∧ acked t 0 ∧ t.nvm = s.nvm ∧ t.boot = s.boot ∧ wordAt (mailOf t 0 mb).reply 1 = statusWord s
          ∧ wordAt (mailOf t 0 mb).reply 2 + 2 ^ 32 * wordAt (mailOf t 0 mb).reply 3 = (s.boot.arm.map (·.time)).getD 0 % 2 ^ 64))
  ∧ (∀ (s : State) (inline ok : Bool) (refusing : List Nat) (data : List Byte) (msg : List Word),
    (fwWriteArgs inline data msg = true → s.pw.onBackup = false → s.nvm.lock.lock = false → moving s = false →
      ¬(wordAt msg 1 = 1 ∧ s.boot.onTrial = true) →
        let x := actFwWrite inline data msg s
        let part := data.take (wordAt msg 5)
        x.code = 0 ∧ ((slotData x.state.nvm (wordAt msg 1) (spareSlot s (wordAt msg 1))).drop (wordAt msg 2)).take part.length = part
          ∧ slotData x.state.nvm (wordAt msg 1) (slotInUse s (wordAt msg 1)) = slotData s.nvm (wordAt msg 1) (slotInUse s (wordAt msg 1)))
    ∧ (wordAt msg 1 < 2 → slotCheck s (wordAt msg 1) ok = 0 →
        (actFwVerify ok refusing inline data msg s).code = 0
          ∧ ∃ v ∈ (actFwVerify ok refusing inline data msg s).state.boot.verified, v.target = wordAt msg 1
              ∧ v.digest = Config.sha384 (slotImage (slotData s.nvm (wordAt msg 1) (spareSlot s (wordAt msg 1)))))
    ∧ (wordAt msg 3 = 0 → moving s = false → s.cairn.count + 10000000000 ≤ iovaAt msg 1 → allExported s = true →
        (actFwActivate refusing inline data msg s).code = 0 ∧ (actFwActivate refusing inline data msg s).state.boot.arm = some ⟨iovaAt msg 1, false⟩)
    ∧ (wordAt msg 1 = 0 → (actFwDisarm refusing inline data msg s).code = 0 ∧ (actFwDisarm refusing inline data msg s).state.boot.arm = none)
    ∧ (wordAt msg 1 = 0 → windowOpen s = true → (headerOf s.nvm).generation + 1 < 2 ^ 32 → s.boot.slot < 2 →
        let x := actFwConfirm refusing inline data msg s
        x.code = 0 ∧ x.state.boot.onTrial = false ∧ (headerOf x.state.nvm).active = s.boot.slot ∧ (headerOf x.state.nvm).trial = none)
    ∧ ((iovaAt msg 1 = 0 ↔ inline = true) → lockRecordOk data = true → s.nvm.fuses.ownerHash ≠ none → s.nvm.lock.counter < leAt data 8 8 →
        let x := actLockWrite true inline data msg s
        x.code = 0 ∧ x.state.nvm.lock = ⟨decide (leAt data 4 1 = 1), leAt data 8 8⟩))
  ∧ (∀ (s : State) (f : BootFindings) (a : Arming), s.boot.arm = some a →
    let s1 := atTime s f.now
    let s2 := { s1 with boot := { s1.boot with arm := none } };
      (s1.cairn.count < a.time → exec (.fwArmedRestart f) s = .next s1)
      ∧ (a.time ≤ s1.cairn.count → s.pw.onBackup = true →
        ∃ t, exec (.fwArmedRestart f) s = .next t ∧ t.boot = s2.boot ∧ t.ev.written = (s.ev.written + 1) % 2 ^ 32 ∧ t.mem = s.mem)
      ∧ (a.time ≤ s1.cairn.count → s.pw.onBackup = false →
        exec (.fwArmedRestart f) s = .next (startUp (if a.trial then { s2 with nvm := writeHeader s.nvm { headerOf s.nvm with
          trial := some (spareSlot s 0), trialStarts := 0 } } else s2) { f with nor := none })))
  ∧ (∀ (s : State) (pkt : List Byte) (sigOk : Bool) (refusing : List Nat) (l : Nat), leAt pkt 0 1 = 4 → linkWith s pkt = some l →
    let body := packetBody pkt
    let target := leAt body 1 1
    let o := leAt body 4 4
    let data := (body.drop 32).take (leAt body 8 2);
      (target < 2 → zerosAt body 2 2 = true → zerosAt body 10 2 = true → leAt body 8 2 ≤ 4032 →
        (leAt body 0 1 = 0x10 → writeRefused s target = false → leAt body 12 4 ≤ slotBytes target → o + data.length ≤ leAt body 12 4 →
          s.boot.chain = none → data.length < leAt body 12 4 →
          ∃ t, exec (.firmwareBlock pkt sigOk refusing) s = .next t
            ∧ slotData t.nvm target (spareSlot s target) = List.replicate o 0xFF#8 ++ data
            ∧ slotData t.nvm target (slotInUse s target) = slotData s.nvm target (slotInUse s target)
            ∧ t.boot.chain = some ⟨leAt body 16 16, target, leAt body 12 4, [(o, data.length)]⟩ ∧ t.mem = s.mem ∧ t.seqs = s.seqs)
        ∧ (leAt body 0 1 = 0x13 → leAt data 4 4 = 0 →
          ∃ t, exec (.firmwareBlock pkt sigOk refusing) s = .next t ∧ t.boot.arm = none ∧ t.nvm = s.nvm ∧ t.mem = s.mem ∧ t.seqs = s.seqs)))

/-! ### Fabric -/

/-- Frames on a working link (R390 to R392). A data frame in order is accepted: the next seq is expected. A frame that fails its CRC, or a
data frame out of order while none is discarded, or of no type or channel that R390 names, is refused with a retry request that carries the
ack. An idle frame returns its ack and credits. A retry request is answered with every frame after its ack, until it is the eighth in a row
with one ack (R393). None changes the memory or a slot. (notes/assumptions/37.md says what the spec leaves open here.) Completes: flitData,
flitIdle, retryRequest. -/
def Obligations.FramesAreAcceptedOrSentAgain : Prop :=
  ∀ (s : State) (l : Nat) (f : Frame) (k : Link), l < 24 → linkAt s l = some k → k.state = .up →
    (frameOk f = true → frType f = 1 → frVc f < 3 → frSeq f = k.rxSeq →
      ∃ t k2, exec (.flitData l f) s = .next t ∧ linkAt t l = some k2 ∧ k2.rxSeq = (k.rxSeq + 1) % 4096 ∧ k2.discarding = false
        ∧ t.mem = s.mem ∧ t.pitches = s.pitches)
    ∧ ((frameOk f = false ∨ 3 < frType f ∨ (frType f = 1 ∧ 3 ≤ frVc f)
        ∨ (frType f = 1 ∧ frVc f < 3 ∧ frSeq f ≠ k.rxSeq ∧ k.discarding = false)) →
      ∃ t k2 g, exec (.flitData l f) s = .next t ∧ linkAt t l = some k2 ∧ k2.rxSeq = k.rxSeq ∧ k2.discarding = true
        ∧ Output.frame l g ∈ t.out ∧ frType g = 2 ∧ frAck g = (k.rxSeq + 4095) % 4096 ∧ t.mem = s.mem ∧ t.pitches = s.pitches)
    ∧ (frameOk f = true → frType f = 0 →
      ∃ t k2, exec (.flitIdle l f) s = .next t ∧ linkAt t l = some k2 ∧ k2.rxSeq = k.rxSeq ∧ k2.acked = (takeAck k (frAck f)).acked
        ∧ (s.fab.waiting = [] → t = putLink s l (takeCredits (takeAck k (frAck f)) (frCreditVc f) (frCredits f)))
        ∧ t.mem = s.mem ∧ t.pitches = s.pitches)
    ∧ (frameOk f = true → frType f = 2 →
      let n := if k.lastRetryAck = some (frAck f) then k.sameAck + 1 else 1
      let k1 := takeControl k f
      ∃ t k2, exec (.retryRequest l f) s = .next t ∧ linkAt t l = some k2 ∧ k2.rxSeq = k.rxSeq ∧ k2.acked = k1.acked ∧ k2.sameAck = n
        ∧ (n < 8 → ∃ pre post, t.out = pre ++ (k1.retry.drop (k1.retry.length - outstanding k1)).map (Output.frame l) ++ post)
        ∧ t.mem = s.mem ∧ t.pitches = s.pitches)

/-- A working link that goes down retrains (R393). Within 100 ms it returns with its counters reset and the packets of its receive buffer
kept, where the neighbour's identity is the configured one, and is refused otherwise (R385); later than that it is lost. No other link
changes its state. Completes: linkDown, linkUp, linkLost. -/
def Obligations.LinksGoDownAndReturn : Prop :=
  ∀ (s : State) (l now : Nat) (k : Link), l < 24 → linkAt s l = some k →
    let c := (atTime s now).cairn.count
    (k.state = .up →
      ∃ t, exec (.linkDown l now) s = .next t
        ∧ linkAt t l = some { k with state := .retraining, downSince := some c, partialPkt := [] }
        ∧ (∀ j, j ≠ l → linkAt t j = linkAt s j) ∧ t.fab.waiting = s.fab.waiting ∧ t.mem = s.mem ∧ t.pitches = s.pitches)
    ∧ (∀ d e, k.state = .retraining → k.downSince = some d → linkEntry s l = some e →
      (∀ device peer, c ≤ d + 100000000 →
        ∃ t k2, exec (.linkUp l device peer now) s = .next t ∧ linkAt t l = some k2 ∧ k2.inbox = k.inbox ∧ k2.rxSeq = 0
          ∧ k2.state = (if e.peerDevice = device ∧ e.peerLink = peer then .up else .refused)
          ∧ (∀ j, j ≠ l → (linkAt t j).map (·.state) = (linkAt s j).map (·.state)) ∧ t.mem = s.mem ∧ t.pitches = s.pitches)
      ∧ (d + 100000000 < c →
        ∃ t k2, exec (.linkLost l now) s = .next t ∧ linkAt t l = some k2 ∧ k2.state = .lost ∧ k2.inbox = k.inbox
          ∧ (∀ j, j ≠ l → (linkAt t j).map (·.state) = (linkAt s j).map (·.state)) ∧ t.mem = s.mem ∧ t.pitches = s.pitches))

/-- SLOT_TRANSFER of a FULL slot records the transfer under the next number, cuts the stream into the packets of R395, and does not release
the slot; where a word of the slot is found uncorrectable no transfer begins (R243). SLOT_DATA_PACKET (R396, R397): a raw body lands at its
offset in the slot, which it leaves FILLING, and no other byte of device memory changes; the last body makes the closing write and the
transfer is remembered as complete. A coded block lands decoded when all its bytes have arrived (R278), and one that fails its first
decoding is recorded and asked for again (R284, R397). A packet that names no slot of the group's pitch, or lies beyond its slot, changes no
memory. One whose slot cannot be written yet (R158), or whose banks, channels and ports do not admit the write (R258, R260;
notes/assumptions/37.md), stays in its buffer, and no byte of memory changes. The device's own egress arbiter (R379, R399): a grant goes to
an owner of a waiting packet; a slot of a sealed pitch goes to that pitch alone, and a slot of none goes round-robin, in ascending number
after the owner served last, to the owners that are not sealed. A slot that belongs to none is granted at once when such an owner has work.
Each flit takes one slot, of its packet's own pitch (which flits follow one another on a link: notes/assumptions/38.md). (dest_offset is an
operand of the row: notes/assumptions/38.md.) Completes: slotTransfer, slotDataPacket. -/
def Obligations.TransfersAreCutAndLand : Prop :=
  (∀ (s : State) (pitch now : Nat) (descriptor : List Byte) (r : PitchRecord) (x : Slot), pitch < 64 → recordOf s pitch = some r →
    let d := transferDesc descriptor
    slotOf s r d.srcSlot = some x → descOk descriptor = true → x.state = .full → d.srcOffset + d.length ≤ x.size →
    Admitted (atTime s now) [(slotDa s r x + d.srcOffset, d.length)] →
    let raw := peekBytes s (slotDa s r x + d.srcOffset) d.length;
      (∃ t v, exec (.slotTransfer pitch now descriptor []) s = .next t ∧ mget t.fab.sends s.fab.nextTransfer = some v
        ∧ v.desc = d ∧ v.pitch = r.pitch ∧ v.resends = 0 ∧ v.lost = false
        ∧ (v.packets.map packetBody).flatten = (if d.coded then encodeStream coderZeroRun false raw else raw)
        ∧ (∀ p ∈ v.packets, (packetBody p).length ≤ 4064)
        ∧ t.fab.nextTransfer = (s.fab.nextTransfer + 1) % 2 ^ 32 ∧ t.mem.bytes = s.mem.bytes
        ∧ ∀ q, pitchOf t q = { pitchOf s q with sent := (pitchOf t q).sent })
      ∧ (∀ n byte, ∃ t, exec (.slotTransfer pitch now descriptor [.larderSlot n byte]) s = .next t ∧ t.fab = s.fab))
  ∧ (∀ (s : State) (pkt : List Byte) (destOffset l : Nat), leAt pkt 0 1 = 1 → linkWith s pkt = some l →
    (leAt pkt 4 2 % 4096, leAt pkt 12 4) ∉ s.fab.doneTransfers →
    let v := recvOf s pkt destOffset
    let body := packetBody pkt
    let o := leAt pkt 20 4
    let parts := mset v.landed o body;
      (∀ r x, landingSlot s pkt = some (r, x) → v.slot = leAt pkt 16 4 → canWrite x = true →
        Admitted s (landingRanges s r v x o body) →
        (v.coded = false → v.destOffset + o + body.length ≤ x.size →
          ∃ t, exec (.slotDataPacket pkt destOffset) s = .next t
            ∧ peekBytes t (slotDa s r x + v.destOffset + o) body.length = body
            ∧ MemoryElsewhere s t (slotDa s r x + v.destOffset + o) body.length
            ∧ slotOf t r v.slot = some (fillSlot x (decide (v.length ≤ contiguous parts)))
            ∧ (v.length ≤ contiguous parts → (v.source, v.transfer) ∈ t.fab.doneTransfers))
        ∧ (∀ b, v.coded = true → newBlocks { v with landed := parts } = [b] →
          (∀ out coded, decodeBlock false b.bytes = .ok (out, coded) → v.destOffset + b.out + out.length ≤ x.size →
            ∃ t, exec (.slotDataPacket pkt destOffset) s = .next t
              ∧ peekBytes t (slotDa s r x + v.destOffset + b.out) out.length = out
              ∧ MemoryElsewhere s t (slotDa s r x + v.destOffset + b.out) out.length
              ∧ slotOf t r v.slot = some (fillSlot x (decide (v.length ≤ contiguous parts)))
              ∧ (v.length ≤ contiguous parts → (v.source, v.transfer) ∈ t.fab.doneTransfers))
          ∧ (∀ e, decodeBlock false b.bytes = .error e → mgetD v.failed b.index 0 = 0 →
            ∃ t, exec (.slotDataPacket pkt destOffset) s = .next t ∧ t.mem.bytes = s.mem.bytes ∧ t.ev.written = (s.ev.written + 1) % 2 ^ 32)))
      ∧ ((landingSlot s pkt = none ∨ ∃ r x, landingSlot s pkt = some (r, x) ∧ v.coded = false ∧ x.size < v.destOffset + o + body.length) →
        ∃ t, exec (.slotDataPacket pkt destOffset) s = .next t ∧ t.mem = s.mem ∧ t.pitches = s.pitches
          ∧ t.ev.written = (s.ev.written + 1) % 2 ^ 32)
      ∧ (∀ r x, landingSlot s pkt = some (r, x) → v.coded = true ∨ v.destOffset + o + body.length ≤ x.size →
        (canWrite x = false → exec (.slotDataPacket pkt destOffset) s = .next s)
        ∧ (canWrite x = true → ¬Admitted s (landingRanges s r v x o body) →
          ∃ t, exec (.slotDataPacket pkt destOffset) s = .next t ∧ t.fab = s.fab ∧ t.mem.bytes = s.mem.bytes ∧ t.pitches = s.pitches)))
  ∧ (∀ (s : State) (owners : List Nat) (i : Nat), i < 1000 →
    (∀ p j, grantOf s owners 1000 i = some (p, j) → p ∈ owners ∧ j < 1000
      ∧ (∀ q, slotOwner s j = some q → p = q)
      ∧ (slotOwner s j = none → isSealed s p = false
        ∧ ((s.fab.turn < p ∧ ∀ q ∈ owners, isSealed s q = false → s.fab.turn < q → p ≤ q)
          ∨ (∀ q ∈ owners, isSealed s q = false → q ≤ s.fab.turn ∧ p ≤ q))))
    ∧ (slotOwner s i = none → (∃ q ∈ owners, isSealed s q = false) → ∃ p, grantOf s owners 1000 i = some (p, i))
    ∧ (∀ q ∈ owners, slotOwner s i = some q → grantOf s owners 1000 i = some (q, i))
    ∧ ∀ live xs p s1 y, flitOf s live xs p = some (s1, y) → y.owner = p ∧ (sendFlit s1 y i).fab.grant = (i + 1) % 1000)

/-- A response DONE from the destination ends the transfer and makes the releasing read of its slot, where it is FULL; INTEGRITY_FAIL for a
block has the packets of that block sent again, once (R397). Without a response, 200 µs after its last packet every packet of a transfer is
sent again, four times; the fifth time it is lost (R398). A packet that is sent again waits at its port or has gone out. A management
message reaches the Ranger's mailbox with the sender's ID (R394). Completes: transferResponse, transferResend, managementMessage. -/
def Obligations.TransfersEndOrAreSentAgain : Prop :=
  (∀ (s : State) (pkt : List Byte) (l : Nat) (x : Send) (r : PitchRecord) (k : Slot), leAt pkt 0 1 = 2 → linkWith s pkt = some l →
    mget s.fab.sends (leAt pkt 12 4) = some x → leAt pkt 4 2 % 4096 = x.desc.destDevice → leAt (packetBody pkt) 0 2 = 0 →
    recordOf s x.pitch = some r → slotOf s r x.desc.srcSlot = some k → k.state = .full →
      ∃ t, exec (.transferResponse pkt) s = .next t ∧ mget t.fab.sends (leAt pkt 12 4) = none
        ∧ slotOf t r x.desc.srcSlot = some (releaseSlot k 0xFFFF) ∧ t.mem = s.mem)
  ∧ (∀ (s : State) (pkt : List Byte) (l : Nat) (x : Send), leAt pkt 0 1 = 2 → linkWith s pkt = some l →
    mget s.fab.sends (leAt pkt 12 4) = some x → leAt pkt 4 2 % 4096 = x.desc.destDevice → leAt (packetBody pkt) 0 2 = rcIntegrityFail →
    leAt (packetBody pkt) 2 4 ∉ x.blockResent →
      ∃ t y, exec (.transferResponse pkt) s = .next t ∧ mget t.fab.sends (leAt pkt 12 4) = some y ∧ y.packets = x.packets ∧ y.desc = x.desc
        ∧ y.blockResent = x.blockResent ++ [leAt (packetBody pkt) 2 4]
        ∧ (let span := blockSpan (x.packets.map packetBody).flatten (leAt (packetBody pkt) 2 4) 0
          ∀ p ∈ x.packets, p ≠ [] → meetsRange p span.1 span.2 = true → SentAgain s t x.desc.port p)
        ∧ t.mem = s.mem ∧ t.pitches = s.pitches)
  ∧ (∀ (s : State) (n now : Nat) (x : Send), mget s.fab.sends n = some x → x.lost = false → (∀ q ∈ s.fab.waiting, q.2 ∉ x.packets) →
    x.lastSent + 200000 ≤ (atTime s now).cairn.count →
      ∃ t y, exec (.transferResend n now) s = .next t ∧ mget t.fab.sends n = some y ∧ y.packets = x.packets ∧ y.desc = x.desc
        ∧ (x.resends < 4 → y.resends = x.resends + 1 ∧ y.lost = false ∧ ∀ p ∈ x.packets, p ≠ [] → SentAgain s t x.desc.port p)
        ∧ (4 ≤ x.resends → y = { x with lost := true } ∧ t.ev.written = (s.ev.written + 1) % 2 ^ 32)
        ∧ t.mem = s.mem ∧ t.pitches = s.pitches)
  ∧ (∀ (s : State) (pkt : List Byte) (l : Nat), leAt pkt 0 1 = 3 → linkWith s pkt = some l →
      ∃ t, exec (.managementMessage pkt) s = .next t
        ∧ t.fab.mgmtIn = s.fab.mgmtIn ++ [stampPeer (leAt pkt 4 2 % 4096) (packetBody pkt)] ∧ t.mem = s.mem ∧ t.pitches = s.pitches)

/-- The exchange of time (R402, R403, R405): a child sends its parent a request with its count; the parent returns it with its counts at
arrival and departure, a root only once it has looked for a locked neighbour; the response steps the count by the offset before the child is
ready and sets the correction afterwards; a root that is not ready asks its time links in ascending rank and takes the count of a locked
neighbour once. A time frame that fails its CRC has no effect. An edge of the pulse input steps a root that is not ready to the next whole
second, once. The count has 64 bits. (Rounding of the offset and the slew: notes/assumptions/37.md.) Completes: timeRequest,
timeRequestReceived, timeResponse, ppsEdge. -/
def Obligations.TimeExchangesCorrectTheCount : Prop :=
  (∀ (s : State) (now l : Nat), timeAsked (atTime s now) = some l →
      ∃ t f, exec (.timeRequest now) s = .next t ∧ t.out = s.out ++ [.frame l f] ∧ frType f = 3 ∧ leAt f.payload 0 1 = 1
        ∧ leAt f.payload 4 4 = t.cairn.exchange ∧ leAt f.payload 8 8 = (atTime s now).cairn.count % 2 ^ 64
        ∧ t.cairn.t1 = some ((atTime s now).cairn.count, s.cairn.frac) ∧ t.cairn.parent = some l
        ∧ (isRoot s = true → t.cairn.asked = s.cairn.asked ++ [l]))
  ∧ (∀ (s : State) (l : Nat) (f : Frame) (k : Link), l < 24 → linkAt s l = some k → k.state = .up →
    (frameOk f = false → (∀ a b c d, exec (.timeRequestReceived l f a b c d) s = .next s) ∧ ∀ a b, exec (.timeResponse l f a b) s = .next s)
    ∧ (frameOk f = true → frType f = 3 →
      (∀ t2 t2frac t3 t3frac, leAt f.payload 0 1 = 1 → servesTime s = true →
        ∃ t g post, exec (.timeRequestReceived l f t2 t2frac t3 t3frac) s = .next t ∧ t.out = s.out ++ [.frame l g] ++ post ∧ frType g = 3
          ∧ leAt g.payload 0 1 = 2 ∧ leAt g.payload 4 4 = leAt f.payload 4 4 ∧ leAt g.payload 8 8 = leAt f.payload 8 8
          ∧ leAt g.payload 16 8 = t2 % 2 ^ 64 ∧ leAt g.payload 24 8 = t3 % 2 ^ 64)
      ∧ (∀ t4 t4frac t1, s.cairn.t1 = some t1 → leAt f.payload 0 1 = 2 → leAt f.payload 4 4 = s.cairn.exchange → s.cairn.parent = some l →
        let offset := exchangeOffset f.payload t1 t4 t4frac
        let c := (atTime s t4).cairn.count
        let steps := 0 ≤ fine c s.cairn.frac + offset ∧ fine c s.cairn.frac + offset < 2 ^ 72;
          (isRoot s = true → bitOf (leAt f.payload 35 1) 0 = true → s.boot.ready = false → s.cairn.tookNeighbour = false → steps →
            ∃ t, exec (.timeResponse l f t4 t4frac) s = .next t ∧ t.cairn.t1 = none ∧ t.cairn.tookNeighbour = true
              ∧ fine t.cairn.count t.cairn.frac = fine c s.cairn.frac + offset ∧ t = { s with cairn := t.cairn, fab := t.fab, out := t.out })
          ∧ (isRoot s = false →
          ∃ t, exec (.timeResponse l f t4 t4frac) s = .next t ∧ t.cairn.offset = offset ∧ t.cairn.t1 = none
            ∧ t.cairn.holdover = (t.cairn.locked && (timeParent s).isNone)
            ∧ (s.boot.ready = true → t.cairn.slew = offset ∧ t.cairn.count = c ∧ t.cairn.frac = s.cairn.frac)
            ∧ (s.boot.ready = false → steps → fine t.cairn.count t.cairn.frac = fine c s.cairn.frac + offset)
            ∧ t.cairn.good = (if offset.natAbs < 256 then min (s.cairn.good + 1) 16 else 0)
            ∧ (t.cairn.good = 16 → t.cairn.locked = true)
            ∧ t.cairn.ppsSeen = bitOf (leAt f.payload 35 1) 1))))
  ∧ (∀ s : State, isRoot s = true → s.cfg.any (·.ppsUsed) = true →
      (s.cairn.steppedPps = false → s.boot.ready = false → s.cairn.count + 1000000000 < 2 ^ 64 →
        ∃ t, exec .ppsEdge s = .next t ∧ t.cairn.count % 1000000000 = 0 ∧ s.cairn.count < t.cairn.count
          ∧ t.cairn.count ≤ s.cairn.count + 1000000000 ∧ t.cairn.frac = 0 ∧ t.cairn.ppsSeen = true ∧ t = { s with cairn := t.cairn })
      ∧ ((s.cairn.steppedPps = true ∨ s.boot.ready = true) →
        exec .ppsEdge s = .next { s with cairn := { s.cairn with slew := secondOffset s.cairn, ppsSeen := true } }))
  ∧ (∀ s : State, isRoot s = false ∨ s.cfg.any (·.ppsUsed) = false → exec .ppsEdge s = .next s)

/-! ### Ethernet and SPDM -/

/-- Datagrams of a known session (R347 to R351). OPEN with a good tag opens the session under a new key, with seq 1 accepted, and answers
OPEN_ACK with the 16 bytes that the device draws. A fresh ACK or IMAGE_DATA is accepted: it acknowledges this side's messages, its seq is
not fresh again, and image bytes are kept at their offset. A SUBMIT that completes its tag becomes an accepted command where nothing refuses
it, a part of several is kept, and a seq accepted before is only acknowledged again; one of the management session is left to its own
command (R442). A datagram whose tag fails is dropped; the first in a Cairn second writes SESSION_AUTH (R363). Timers and ports (R350, R400,
R406): a due acknowledgement goes out as an ACK; messages without an acknowledgement for 2 ms are sent again, and after 32 attempts the
session is lost; a configured port's link follows its state with a record; echo requests, solicitations and advertisements to the address of
a port in use are answered or learnt, a packet-too-big message sets the path's MTU, and what is not for the port has no effect. (ACKs carry
a seq and OPEN takes seq 1: notes/assumptions/40.md.) Completes: openSession, submitPart, ackMsg, imageData, invalidDatagram, ackTimer,
datagramResend, ethLink, icmpv6Message. -/
def Obligations.SessionsCarryDatagrams : Prop :=
  (∀ (s : State) (d : Datagram),
    let x := sessionOf s d.session
    let s1 := atTime s d.now;
      (d.type = 0x01 → knownDatagram s d = true → d.tagOk = true → d.body.length = 16 →
        ∃ t, exec (.openSession d) s = .next t ∧ (sessionOf t d.session).isOpen = true ∧ (sessionOf t d.session).lost = false
          ∧ (sessionOf t d.session).rh = d.body ∧ (sessionOf t d.session).rd.length = 16 ∧ (sessionOf t d.session).contiguous = 1
          ∧ (sessionOf t d.session).key = sessionKey (sessionTransportKey s d.session) d.session d.body (sessionOf t d.session).rd
          ∧ Output.datagram (datagramHead s d.session) d.session 0x02 1 1 (sessionOf t d.session).rd (wireBytes s d.session 0x02 1 1 (sessionOf t d.session).rd) ∈ t.out
          ∧ t.mem = s.mem)
      ∧ (datagramOk s d = true → seqFresh x d.seq = true →
        let took (t : State) : Prop := seqFresh (sessionOf t d.session) d.seq = false
          ∧ (sessionOf t d.session).unacked = x.unacked.filter (fun u => decide (d.ack < u.seq))
          ∧ (sessionOf t d.session).ackDue = some ((atTime s d.now).cairn.count + 100000);
        (d.type = msgAck → ∃ t, exec (.ackMsg d) s = .next t ∧ took t ∧ t = { s1 with eth := t.eth })
        ∧ (d.type = msgImageData → ∃ t, exec (.imageData d) s = .next t ∧ took t ∧ t = { s1 with eth := t.eth }
          ∧ (16 ≤ d.body.length →
            mget (mgetD (sessionOf t d.session).images (leAt d.body 0 4) []) (leAt d.body 8 8) = some (d.body.drop 16)))
        ∧ (∀ p r, d.type = 0x03 → isManagement s d.session = false → sessionPitch s d.session = some p → recordOf s p = some r → 8 ≤ d.body.length →
          let old : PartialSubmit := (x.submits.find? fun w => decide (w.tag = leAt d.body 0 4)).getD ⟨leAt d.body 0 4, leAt d.body 6 2, []⟩
          let got := if (mget old.got (leAt d.body 4 2)).isSome then old.got else mset old.got (leAt d.body 4 2) (d.body.drop 8)
          let a := assembled (got.map (·.2)).flatten;
            (old.parts ≤ got.length → refusalOf s r (entryOf a.entry) a = none →
              ∃ t, exec (.submitPart d) s = .next t ∧ took t
                ∧ t.reqs = s.reqs ++ [requestOf s.reqNext (.session d.session) p (entryOf a.entry) a] ∧ t.seqs = s.seqs ∧ t.mem = s.mem)
            ∧ (got.length < old.parts →
              ∃ t, exec (.submitPart d) s = .next t ∧ took t ∧ t.reqs = s.reqs ∧ t.seqs = s.seqs ∧ t.mem = s.mem
                ∧ { old with got := got } ∈ (sessionOf t d.session).submits)))
      ∧ (datagramOk s d = true → seqFresh x d.seq = false → d.seq ≤ x.highest → d.type = 0x03 →
        ∃ t, exec (.submitPart d) s = .next t ∧ sessionOf t d.session = { x with ackDue := some ((atTime s d.now).cairn.count + 100000) }
          ∧ t = { s1 with eth := t.eth })
      ∧ (d.type = 0x03 → isManagement s d.session = true → (d.seq ≤ x.highest → seqFresh x d.seq = true) → exec (.submitPart d) s = .next s1)
      ∧ (knownDatagram s d = true → d.tagOk = false →
        ∃ t, exec (.invalidDatagram d) s = .next t ∧ t.eth = s.eth ∧ t.reqs = s.reqs ∧ t.seqs = s.seqs ∧ t.mem = s.mem
          ∧ t.ev.written = (if mget s.ev.seen (eventKey 0x0A01 0) = some (second s1) then s.ev.written else (s.ev.written + 1) % 2 ^ 32)))
  ∧ ((∀ (s : State) (n now : Nat),
    let x := sessionOf s n
    let c := (atTime s now).cairn.count
    x.isOpen = true → x.lost = false →
      (x.ackDue ≠ none →
        ∃ t, exec (.ackTimer n now) s = .next t ∧ t.out = (solicit s (datagramHead s n).frame).out ++ [.datagram (datagramHead s n) n msgAck x.txSeq x.contiguous [] (wireBytes s n msgAck x.txSeq x.contiguous [])]
          ∧ (sessionOf t n).ackDue = none ∧ (sessionOf t n).txSeq = x.txSeq + 1 ∧ t = { atTime s now with eth := t.eth, out := t.out })
      ∧ ((∀ u ∈ x.unacked, u.attempts < 32) →
        ∃ t, exec (.datagramResend n now) s = .next t
          ∧ t.out = s.out ++ (x.unacked.filter (fun u => decide (u.sentAt + 2000000 ≤ c))).map
              (fun u => .datagram (datagramHead s n) n u.type u.seq u.ack u.body (wireBytes s n u.type u.seq u.ack u.body))
          ∧ (sessionOf t n).unacked.map (·.seq) = x.unacked.map (·.seq) ∧ t = { atTime s now with eth := t.eth, out := t.out })
      ∧ (∀ u ∈ x.unacked, 32 ≤ u.attempts → u.sentAt + 2000000 ≤ c →
        ∃ t, exec (.datagramResend n now) s = .next t ∧ (sessionOf t n).lost = true ∧ (sessionOf t n).unacked = []))
  ∧ (∀ (s : State) (port : Nat) (up : Bool) (c : Configuration) (e : EthEntry), port < 2 → port < s.eth.up.length → s.cfg = some c → c.eth[port]? = some e →
    e.inUse = true → s.eth.up.getD port false ≠ up →
      ∃ t, exec (.ethLink port up) s = .next t ∧ t.eth = { s.eth with up := s.eth.up.set port up } ∧ t.ev.written = (s.ev.written + 1) % 2 ^ 32
        ∧ t.mem = s.mem ∧ t.seqs = s.seqs)
  ∧ (∀ (s : State) (m : IcmpMessage) (c : Configuration) (e : EthEntry), m.port < 2 → s.cfg = some c → c.eth[m.port]? = some e →
    let h := frameHead s m.port m.source;
      (frameReaches s m.port m.vlan m.dest = true → icmpFits m = true →
        (m.type = 128 → exec (.icmpv6Message m) s = .next (send (solicit s h) (.icmp h 129 m.source m.payload)))
        ∧ (m.type = 135 → m.target = e.address →
          exec (.icmpv6Message m) s = .next (send (learnNeighbour s m.source) (.icmp h 136 m.source e.address)))
        ∧ (m.type = 136 → exec (.icmpv6Message m) s = .next (learnNeighbour s m.target))
        ∧ (m.type = 2 → exec (.icmpv6Message m) s
            = .next { s with eth := { s.eth with pathMtu := mset s.eth.pathMtu (leVal m.target) m.value } }))
      ∧ (m.type = 135 → m.dest = solicitedNode e.address → m.target = e.address → frameReaches s m.port m.vlan e.address = true → icmpFits m = true →
        exec (.icmpv6Message m) s = .next (send (learnNeighbour s m.source) (.icmp h 136 m.source e.address)))
      ∧ (m.type ≠ 135 → frameReaches s m.port m.vlan m.dest = false ∨ icmpFits m = false → exec (.icmpv6Message m) s = .next s)))

/-- The SPDM responder over a reachable transport answers every request with one message (R447): GET_VERSION begins; after the negotiation a
request for certificates returns the chain of the slot it names, one for digests the SHA-384 digests of both chains, and one for a
measurement begins with that measurement; a request that comes too early or is not supported is answered with ERROR and changes nothing.
(Codes and framing are PRESUMED of DMTF SPDM 1.3: notes/assumptions/41.md.) Completes: spdmRequest. -/
def Obligations.SpdmRequestsAreAnswered : Prop :=
  ∀ (s : State) (q : SpdmRequest), spdmReachable s q.transport = true →
    ∃ t bytes, exec (.spdmRequest q) s = .next t ∧ t.out = s.out ++ [.spdm q.transport bytes]
      ∧ t = { s with ranger := t.ranger, out := t.out, freeCtr := t.freeCtr }
      ∧ (q.code = 0x84 → t.ranger.spdmVersion = true ∧ t.ranger.spdmAlgorithms = false)
      ∧ (q.code = 0xE3 → s.ranger.spdmVersion = true → t.ranger.spdmAlgorithms = true)
      ∧ (s.ranger.spdmAlgorithms = true → q.code = 0x82 → bytes.drop 4 = spdmChain s (q.param1 % 16))
      ∧ (s.ranger.spdmAlgorithms = true → q.code = 0x81 → bytes.drop 4 = chainDigest s 0 ++ chainDigest s 1)
      ∧ (s.ranger.spdmVersion = true → q.code = 0xE3 → bytes.drop 4 = spdmAlgorithmBody)
      ∧ (∀ m, s.ranger.spdmAlgorithms = true → q.code = 0xE0 → q.param2 ≠ 0 → q.param2 ≠ 0xFF → (measurements s)[q.param2 - 1]? = some m →
          m <+: bytes.drop 4)
      ∧ (q.code ≠ 0x84 → s.ranger.spdmVersion = false → s.ranger.spdmAlgorithms = false →
          t = send s (.spdm q.transport bytes) ∧ leAt bytes 1 1 = 0x7F)

/-! ### Memory, retention and reliability -/

/-- A capacity port that goes down retrains (R258): within 100 ms it returns, and later it is lost. The other ports stay as they were; a
port that no page's warm copy lies on is lost with one record and without a change of any pitch. Completes: cxlLinkDown, cxlRetrainDone,
cxlPortLost. -/
def Obligations.CapacityPortsGoDownAndReturn : Prop :=
  ∀ (s : State) (q now : Nat), q < 8 → q < s.mem.ports.length →
    let k := portAt s q
    let c := (atTime s now).cairn.count
    (k.state = .up →
      ∃ t, exec (.cxlLinkDown q now) s = .next t ∧ portAt t q = { k with state := .retraining, downSince := some c }
        ∧ (∀ j, j ≠ q → portAt t j = portAt s j) ∧ t = { atTime s now with mem := { s.mem with ports := t.mem.ports } })
    ∧ (∀ d, k.state = .retraining → k.downSince = some d →
      (c ≤ d + 100000000 →
        ∃ t, exec (.cxlRetrainDone q now) s = .next t ∧ portAt t q = { k with state := .up, downSince := none }
          ∧ (∀ j, j ≠ q → portAt t j = portAt s j) ∧ t = { atTime s now with mem := { s.mem with ports := t.mem.ports } })
      ∧ (d + 100000000 < c →
        ∃ t, exec (.cxlPortLost q now) s = .next t ∧ portAt t q = { k with state := .lost } ∧ (∀ j, j ≠ q → portAt t j = portAt s j)
          ∧ ((∀ p n, (pageOf s p n).warm = 0 ∨ pitchDa s p (pageOf s p n).warm < portBase q ∨ portBase (q + 1) ≤ pitchDa s p (pageOf s p n).warm) →
              t.pitches = s.pitches ∧ t.seqs = s.seqs ∧ t.mem.bytes = s.mem.bytes ∧ t.ev.written = (s.ev.written + 1) % 2 ^ 32)))

/-- A patrol scrub of a mapped word, whose errors lie over the codeword that its write formed (R249 to R252): a clean word changes nothing;
a correctable one is written back corrected, and no other byte changes; an uncorrectable one, or one of a wrong address, marks its
pseudo-channel (R460); a damaged weight block is written again and a row-start table is rebuilt from a golden copy whose blocks all pass
their CRC-32C (R33, R35, R252), and a prefix-tree node is removed. Completes: patrolScrub. -/
def Obligations.PatrolScrubRepairsWords : Prop :=
  ∀ (s : State) (da : Nat) (errors : List (BitVec 16)) (content : HbmContent) (poison : Bool), da < s.mem.n * 2 ^ 30 → da % 32 = 0 →
    Admitted s [(da, 32)] →
    let symbols := readSymbols s da errors;
    (checkWord da symbols = .clean → exec (.patrolScrub da errors content poison) s = .next (touched s [(da, 32)]))
    ∧ (∀ symbol value, checkWord da symbols = .corrected symbol value →
      let fixed := correctedBytes symbols symbol value
      ∃ t, exec (.patrolScrub da errors content poison) s = .next t ∧ peekBytes t da fixed.length = fixed ∧ MemoryElsewhere s t da fixed.length
        ∧ t.pitches = s.pitches ∧ t.seqs = s.seqs)
    ∧ (checkWord da symbols = .uncorrectable ∨ checkWord da symbols = .address →
      (content = .unallocated →
        ∃ t, exec (.patrolScrub da errors content poison) s = .next t ∧ hbmChannel s da ∈ t.mem.marked ∧ t.mem.bytes = s.mem.bytes
          ∧ t.pitches = s.pitches ∧ t.seqs = s.seqs)
      ∧ (∀ r x j, content = .weights → tensorHolding s da = some (r, x, j) →
        let n := min 4096 (x.payloadBytes - 4096 * j)
        let g := goldenDa s r x + 4096 * j
        let a := payloadDa s r x + 4096 * j
        portWaits s g = false → portGone s g = false → poison = false → crc32c (peekBytes s g n) = x.crcs.getD j 0 →
          ∃ t, exec (.patrolScrub da errors content poison) s = .next t ∧ hbmChannel s da ∈ t.mem.marked
            ∧ peekBytes t a n = peekBytes s g n ∧ MemoryElsewhere s t a n)
      ∧ (∀ p k r x rows, content = .rowStarts p k → recordOf s p = some r → ((pitchOf s p).package.map (·.tensors)).bind (·[k]?) = some x →
        portWaits s (goldenDa s r x) = false → portGone s (goldenDa s r x) = false → poison = false →
        badGolden x (peekBytes s (goldenDa s r x) x.payloadBytes) = none →
        rowStarts (parseHeader (peekBytes s (goldenOf s r x.address x.golden) 32)) (peekBytes s (goldenDa s r x) x.payloadBytes) = some rows →
          ∃ t, exec (.patrolScrub da errors content poison) s = .next t ∧ hbmChannel s da ∈ t.mem.marked ∧ t.mem.bytes = s.mem.bytes
            ∧ ((pitchOf t p).package.map (·.tensors)).bind (·[k]?) = some { x with rowStarts := rows })
      ∧ (∀ p n, content = .treeNode p n →
        ∃ t, exec (.patrolScrub da errors content poison) s = .next t ∧ hbmChannel s da ∈ t.mem.marked ∧ mget (pitchOf t p).tree n = none))

/-- A stack's refresh multiplier follows its temperature, in 1/16 °C: 4 from 95 °C on until 92 °C is reached, 2 from 85 °C on until 82 °C is
reached, else 1 (R247); it is throttled from 105 °C on until 102 °C is reached (R248). A bank idle for 10 µs or a channel idle for 100 µs
that may retain closes and drains; it retains once the page moves that it had admitted have ended, and where it may no longer retain it
returns to service. An access after the close is late: it cancels a drain, starts a wake, or waits for one, and each counts in the unit's
late-wake counter; the wake returns the unit to service (R259 to R261). (No access is in flight between rows: notes/assumptions/42.md.)
Completes: stackTemperatureReading, retentionClose, retentionEntered, lateWake, wakeDone. -/
def Obligations.TemperaturesAndRetentionMoveTheirUnit : Prop :=
  (∀ (s : State) (k now : Nat) (temp : Int), k < 16 → k < s.mem.hbmStacks.length →
    let old := s.mem.hbmStacks.getD k Stack.reset
      ∃ t, exec (.stackTemperatureReading k temp now) s = .next t
        ∧ (let new := t.mem.hbmStacks.getD k Stack.reset
          new.temp = temp
          ∧ (16 * 95 ≤ temp → new.mult = 4)
          ∧ (16 * 92 < temp → temp < 16 * 95 → new.mult = if old.mult = 4 then 4 else 2)
          ∧ (16 * 85 ≤ temp → temp ≤ 16 * 92 → new.mult = 2)
          ∧ (16 * 82 < temp → temp < 16 * 85 → new.mult = if 2 ≤ old.mult then 2 else 1)
          ∧ (temp ≤ 16 * 82 → new.mult = 1)
          ∧ (16 * 105 ≤ temp → new.throttle = true)
          ∧ (16 * 102 < temp → temp < 16 * 105 → new.throttle = old.throttle)
          ∧ (temp ≤ 16 * 102 → new.throttle = false))
        ∧ (∀ j, j ≠ k → t.mem.hbmStacks[j]? = s.mem.hbmStacks[j]?) ∧ t.mem.bytes = s.mem.bytes ∧ t.pitches = s.pitches)
  ∧ (∀ (s : State) (u now : Nat), u < 8704 →
    let x := unitAt s u
    let moved (t : State) (y : RetUnit) : Prop := unitAt t u = y ∧ ∀ v, v ≠ u → unitAt t v = unitAt s v
    let late (t : State) : Prop := mgetD t.mem.late (lateCounter u) 0 = mgetD s.mem.late (lateCounter u) 0 + 1;
      (x.state = .active → mayRetain s u = true → x.last + (if u < 8192 then 10000 else 100000) ≤ (atTime s now).cairn.count →
        ∃ t, exec (.retentionClose u now) s = .next t ∧ moved t { x with state := .draining, inFlight := admitted s u }
          ∧ t.mem.bytes = s.mem.bytes)
      ∧ (mayRetain s u = false ∨ (atTime s now).cairn.count < x.last + (if u < 8192 then 10000 else 100000) →
        exec (.retentionClose u now) s = .next (atTime s now))
      ∧ (x.state = .active → exec (.lateWake u) s = .next s)
      ∧ (x.state = .draining → mayRetain s u = true → admitted s u = 0 →
        ∃ t, exec (.retentionEntered u) s = .next t ∧ moved t { x with state := .retained, inFlight := 0 } ∧ t.mem.bytes = s.mem.bytes)
      ∧ (x.state = .draining → mayRetain s u = true → 0 < admitted s u →
        ∃ t, exec (.retentionEntered u) s = .next t ∧ moved t { x with inFlight := admitted s u } ∧ t.mem.bytes = s.mem.bytes)
      ∧ (x.state = .draining → mayRetain s u = false →
        ∃ t, exec (.retentionEntered u) s = .next t ∧ moved t { x with state := .active, inFlight := admitted s u }
          ∧ t.mem.bytes = s.mem.bytes)
      ∧ (x.state = .draining → ∃ t, exec (.lateWake u) s = .next t ∧ moved t { x with state := .active, last := s.cairn.count } ∧ late t)
      ∧ (x.state = .retained → ∃ t, exec (.lateWake u) s = .next t ∧ moved t { x with state := .waking, waiting := 1 } ∧ late t)
      ∧ (x.state = .waking → ∃ t, exec (.lateWake u) s = .next t ∧ moved t { x with waiting := x.waiting + 1 } ∧ late t)
      ∧ (x.state = .waking ∨ x.state = .retained →
        ∃ t, exec (.wakeDone u) s = .next t ∧ moved t { x with state := .active, waiting := 0 } ∧ t.mem.bytes = s.mem.bytes))

/-- A freed range that has been scrubbed reads as zero and may be allocated, and every other byte reads as before (R374). A pair of Ranger
cores that disagree for the first time in a Cairn second is noted and goes back to its checkpoint, and the second time the module restarts
(R453; what a checkpoint holds: notes/assumptions/42.md). A full sector gives way to the next ring position: it is erased and opened with
the repairs that it alone still holds and the records that wait, on the lowest spare sector where the erase or program fails; a sector in
use whose program fails moves to a spare with its records, and without a spare the ring keeps to memory (R461 to R463; what moves with a
sector: notes/assumptions/42.md). (notes/assumptions/42.md.) Completes: rangerLockstep, sectorErase, freedRangeScrubbed. -/
def Obligations.ScrubLockstepAndSectorErase : Prop :=
  (∀ (s : State) (i : Nat) (x : ScrubRange), s.mem.scrub[i]? = some x →
      ∃ t, exec (.freedRangeScrubbed i) s = .next t ∧ t.mem.scrub = s.mem.scrub.eraseIdx i
        ∧ (∀ a, x.da ≤ a → a < x.da + x.length → rdByte t.mem.bytes a = 0#8) ∧ MemoryElsewhere s t x.da x.length
        ∧ t = { s with mem := t.mem })
  ∧ (∀ (s : State) (pair : Nat) (f : BootFindings), pair < 4 →
    let s1 := atTime s f.now
    let written := rangerEvent s1 0x01 0x0E0A noPitch (wearDetail 0 pair 0 0 0 0);
      (mget s.ranger.pairMismatch pair = some (second s1) → exec (.rangerLockstep pair f) s = .next (startUp written { f with nor := none }))
      ∧ (mget s.ranger.pairMismatch pair ≠ some (second s1) →
        ∃ t, exec (.rangerLockstep pair f) s = .next t ∧ mget t.ranger.pairMismatch pair = some (second s1)
          ∧ (let c := mgetD s.ranger.checkpoints pair ⟨0, false, false⟩; t.ranger.spdmVersion = c.spdmVersion ∧ t.ranger.spdmAlgorithms = c.spdmAlgorithms)
          ∧ ((∀ p ∈ s.pitches, p.2.batch = []) → t.pitches = s.pitches ∧ t.seqs = s.seqs ∧ t.mem = s.mem
              ∧ t.ev.written = (s.ev.written + 1) % 2 ^ 32)))
  ∧ (∀ (s : State) (headOk eraseOk programOk : Bool),
    let cur := headSector s.nvm
    let pos := (s.nvm.head + 1) % 128
    let phys := sectorOf s.nvm pos
    let old := mgetD s.nvm.sectors phys (freshSector 0 pos 0)
    let l := repairsAt s.nvm pos ++ s.ev.waiting
    let spare := 128 + s.nvm.sparesUsed
    let full := headOk = true ∧ sectorRecords ≤ cur.records.length
    s.ev.inRam = false →
      (full → (eraseOk && programOk) = true →
        ∃ t, exec (.sectorErase headOk eraseOk programOk) s = .next t ∧ t.nvm.head = pos ∧ t.ev.waiting = l.drop sectorRecords
          ∧ mget t.nvm.sectors phys = some ⟨sectorHeader (sectorSeq cur + 1) pos (sectorErases old + 1), l.take sectorRecords⟩
          ∧ (∀ k, k ≠ phys → mget t.nvm.sectors k = mget s.nvm.sectors k)
          ∧ t = { s with nvm := t.nvm, ev := { s.ev with waiting := t.ev.waiting } })
      ∧ (full → (eraseOk && programOk) = false → s.nvm.sparesUsed < 16 →
        ∃ t x, exec (.sectorErase headOk eraseOk programOk) s = .next t ∧ t.nvm.head = pos ∧ t.nvm.sparesUsed = s.nvm.sparesUsed + 1
          ∧ mget t.nvm.sectors spare = some ⟨sectorHeader (sectorSeq cur + 1) pos 0, x⟩ ∧ l.take sectorRecords <+: x ∧ t.ev.inRam = false)
      ∧ (headOk = false → s.nvm.sparesUsed < 16 →
        ∃ t x, exec (.sectorErase headOk eraseOk programOk) s = .next t ∧ t.nvm.head = s.nvm.head ∧ t.nvm.sparesUsed = s.nvm.sparesUsed + 1
          ∧ mget t.nvm.sectors spare = some ⟨sectorHeader (sectorSeq cur) s.nvm.head 0, x⟩ ∧ cur.records <+: x ∧ t.ev.inRam = false)
      ∧ (headOk = false ∨ (full ∧ (eraseOk && programOk) = false) → 16 ≤ s.nvm.sparesUsed →
        ∃ t, exec (.sectorErase headOk eraseOk programOk) s = .next t ∧ t.ev.inRam = true ∧ t.ev.waiting = [] ∧ t.nvm = s.nvm)
      ∧ (headOk = true → cur.records.length < sectorRecords → exec (.sectorErase headOk eraseOk programOk) s = .next s))

/-! ### Power, start-up and package load -/

/-- The supplies (R465 to R467, R474, R481, R482, R484). A main input out of 42 to 60 V fails: a good backup takes the load with every die
at point 0, and its return takes it back; one out of its operating range alone is reported. A power loss or a loss of VAUX removes the
rails: device memory and every pitch are at their reset value and the fuses and images of the NOR stay. A backup input out of range is no
longer good, and one back in range is good again (notes/assumptions/43.md); an input that comes into range lets a start that waits for one
go on. The backup policy parks, and a sequence in a step parks at its boundary. (notes/assumptions/43.md.) Completes: mainFailure,
mainRestored, powerLoss, backupPark, vauxLoss, vinBackupOutOfRange. -/
def Obligations.SuppliesFailAndReturn : Prop :=
  ∀ (s : State),
    (∀ now mv, s.pw.rails = true → s.pw.onBackup = false → (mv < 42000 ∨ 60000 < mv) →
      ∃ t, exec (.mainFailure now mv) s = .next t ∧ t.pw.mainGood = false ∧ t.mem = s.mem ∧ t.seqs = s.seqs ∧ t.pitches = s.pitches
        ∧ (s.pw.backupGood = true → t.pw.onBackup = true ∧ t.pw.backupSince = some (atTime s now).cairn.count ∧ t.pw.parked = false
            ∧ ∀ d, d < 8 → (dieAt t d).point = 0)
        ∧ (s.pw.backupGood = false → t.pw.onBackup = s.pw.onBackup ∧ t.pw.dies = s.pw.dies))
    ∧ (∀ now mv, s.pw.rails = true → s.pw.mainGood = true → 42000 ≤ mv → mv ≤ 60000 → (mv < 44000 ∨ 59500 < mv) →
      ∃ t, exec (.mainFailure now mv) s = .next t ∧ t.pw = { s.pw with mainGood := false } ∧ t.ev.written = (s.ev.written + 1) % 2 ^ 32
        ∧ t.mem = s.mem ∧ t.seqs = s.seqs)
    ∧ (∀ now f, s.pw.rails = true →
      ∃ t, exec (.mainRestored now f) s = .next t ∧ t.pw.mainGood = true ∧ t.pw.onBackup = false ∧ t.pw.dies = s.pw.dies ∧ t.mem = s.mem
        ∧ t.seqs = s.seqs ∧ t.pitches = s.pitches)
    ∧ (∀ now f, s.pw.rails = false → startWaits s = false →
      exec (.mainRestored now f) s = .next { atTime s now with pw := { s.pw with mainGood := s.pw.vaux } })
    ∧ (∀ now f, startWaits s = true →
      ∃ t, exec (.mainRestored now f) s = .next t ∧ t.pw.rails = true ∧ t.pw.mainGood = true ∧ t.pw.onBackup = false)
    ∧ (s.pw.rails = true →
      ∃ t, exec .powerLoss s = .next t ∧ t.pw.powerLoss = true ∧ t.pw.rails = false ∧ t.pw.mainGood = false ∧ t.pw.backupGood = false
        ∧ t.boot.straps = s.boot.straps ∧ t.nvm = { s.nvm with head := t.nvm.head } ∧ t.mem = State.reset.mem ∧ t.pitches = State.reset.pitches
        ∧ t.seqs = State.reset.seqs)
    ∧ (∃ t, exec .vauxLoss s = .next t ∧ t.pw = Power.reset ∧ t.nvm = { s.nvm with head := t.nvm.head } ∧ t.mem = State.reset.mem
        ∧ t.pitches = State.reset.pitches ∧ t.seqs = State.reset.seqs)
    ∧ (∀ mv f, s.pw.vaux = true → s.pw.rails = true → s.pw.backupGood = true → (mv < 44000 ∨ 59500 < mv) →
      ∃ t, exec (.vinBackupOutOfRange mv f) s = .next t ∧ t.pw = { s.pw with backupGood := false } ∧ t.ev.written = (s.ev.written + 1) % 2 ^ 32
        ∧ t.mem = s.mem ∧ t.seqs = s.seqs)
    ∧ (∀ mv f, s.pw.vaux = true → startWaits s = false → 44000 ≤ mv → mv ≤ 59500 →
      exec (.vinBackupOutOfRange mv f) s = .next { s with pw := { s.pw with backupGood := true } })
    ∧ (∀ mv f, startWaits s = true → s.pw.mainGood = false → 44000 ≤ mv → mv ≤ 59500 →
      ∃ t, exec (.vinBackupOutOfRange mv f) s = .next t ∧ t.pw.rails = true ∧ t.pw.onBackup = true ∧ t.pw.backupSince = some s.cairn.count)
    ∧ (∀ now c b, s.cfg = some c → s.pw.backupSince = some b → s.pw.onBackup = true → s.pw.parked = false → c.power.backupPolicy = 1 →
      b + c.power.backupParkS * 1000000000 ≤ (atTime s now).cairn.count → (s.seqs.map (·.1)).Nodup → (c.pitches.map (·.pitch)).Nodup →
      ∃ t, exec (.backupPark now) s = .next t ∧ t.pw = { s.pw with parked := true, toPark := t.pw.toPark }
        ∧ ∀ r ∈ c.pitches, r.enabled = true → isLead r = true → r.parkKind ≠ 0 → ∀ i, (seqOf s i).state = .idle → (seqOf s i).pitch = r.pitch →
            (seqOf s i).exported = none → (seqOf s i).park = none → (seqOf t i).state = .parked)
    ∧ (∀ now c b, s.cfg = some c → s.pw.backupSince = some b → s.pw.onBackup = true → s.pw.parked = false → c.power.backupPolicy = 2 →
      b + c.power.backupParkS * 1000000000 ≤ (atTime s now).cairn.count → (s.seqs.map (·.1)).Nodup → (c.pitches.map (·.pitch)).Nodup →
      ∃ t, exec (.backupPark now) s = .next t
        ∧ ∀ r ∈ c.pitches, r.enabled = true → isLead r = true → r.parkKind ≠ 0 → ∀ i, (seqOf s i).state ≠ .free → (seqOf s i).state ≠ .parked →
            (seqOf s i).pitch = r.pitch → (seqOf s i).exported = none → (seqOf s i).park = none →
              (inFlight s r.pitch i = false → (seqOf t i).state = .parked) ∧ (inFlight s r.pitch i = true → handleOf s i ∈ t.pw.toPark))
    ∧ (∀ now c, s.cfg = some c → (s.seqs.map (·.1)).Nodup → (∀ e ∈ s.seqs, e.1 < 65536) → (c.pitches.map (·.pitch)).Nodup →
      ∃ t, exec (.backupPark now) s = .next t
        ∧ ∀ r ∈ c.pitches, isLead r = true → r.parkKind ≠ 0 → ∀ i, handleOf s i ∈ s.pw.toPark →
            (seqOf s i).state ≠ .free → (seqOf s i).pitch = r.pitch → inFlight s r.pitch i = false → (seqOf s i).exported = none →
            (seqOf s i).park = none → (seqOf t i).state = .parked ∧ handleOf s i ∉ t.pw.toPark)

/-- The governor (R473) lowers every die a point above 1.1 times the limit, lowers the highest die above the limit, and raises the lowest
that may rise after 100 ms below 0.9 times the limit. Completes: governorLower, governorRaise. -/
def Obligations.GovernorMovesOperatingPoints : Prop :=
  ∀ (s : State) (now power : Nat), s.pw.dies.length = 8 → governs s = true →
    let c := (atTime s now).cairn.count
    let n := activeLimit s;
      (∀ power20, 0 < highestPoint s → 11 * n < 10 * power20 → (∀ u, s.pw.emergencyAt = some u → u + 20000 ≤ c) →
        ∃ t, exec (.governorLower now power power20) s = .next t ∧ (∀ d, d < 8 → (dieAt t d).point = (dieAt s d).point - 1)
          ∧ t.pw.emergencyAt = some c ∧ t.pw.power = power ∧ t.mem = s.mem ∧ t.pitches = s.pitches)
      ∧ (∀ power20, 0 < highestPoint s → 10 * power20 ≤ 11 * n → n < power → (∀ u, s.pw.lastLower = some u → u + 1000000 ≤ c) →
        ∃ t, exec (.governorLower now power power20) s = .next t ∧ (dieAt t (highestDie s)).point = (dieAt s (highestDie s)).point - 1
          ∧ (dieAt s (highestDie s)).point = highestPoint s ∧ (∀ d, d ≠ highestDie s → dieAt t d = dieAt s d) ∧ t.pw.lastLower = some c
          ∧ t.mem = s.mem ∧ t.pitches = s.pitches)
      ∧ (∀ b d, 10 * power < 9 * n → s.pw.belowSince = some b → lowestDie s = some d → max b s.pw.lastChange + 100000000 ≤ c →
        ∃ t, exec (.governorRaise now power) s = .next t ∧ (dieAt t d).point = (dieAt s d).point + 1
          ∧ (∀ e, e ≠ d → dieAt t e = dieAt s e) ∧ t.mem = s.mem ∧ t.pitches = s.pitches)

/-- Junctions and coolant (R475 to R478), in 1/16 °C and °C: a die at 110 °C trips the module, which loses its rails; otherwise a die is
limited at point 0 from 105 °C until 103 °C is reached, and throttled from 100 °C. A hot inlet caps every die one point below its class; the
cap is lifted when the inlet is back. Completes: junctionReading, coolantHigh, coolantCapLifted. -/
def Obligations.TemperatureLimits : Prop :=
  ∀ (s : State) (now : Nat),
    (∀ sensors : List (List Int), s.pw.rails = true → s.pw.dies.length = 8 → sensors.length = 8 →
      let j (d : Nat) : Int := junctionOf (sensors.getD d []);
        ((∃ d, d < 8 ∧ 16 * 110 ≤ j d) →
          ∃ t, exec (.junctionReading now sensors) s = .next t ∧ t.pw.trip = true ∧ t.pw.rails = false ∧ t.mem = State.reset.mem
            ∧ t.pitches = State.reset.pitches ∧ t.nvm = { s.nvm with head := t.nvm.head })
        ∧ ((∀ d, d < 8 → j d < 16 * 110) →
          ∃ t, exec (.junctionReading now sensors) s = .next t ∧ t.mem = s.mem ∧ t.seqs = s.seqs ∧ ∀ d, d < 8 →
            (dieAt t d).junction = j d
            ∧ (16 * 105 ≤ j d → (dieAt t d).limited = true ∧ (dieAt t d).point = 0)
            ∧ (16 * 103 < j d → j d < 16 * 105 → (dieAt t d).limited = (dieAt s d).limited)
            ∧ (j d ≤ 16 * 103 → (dieAt t d).limited = false)
            ∧ (16 * 100 ≤ j d → (dieAt t d).throttled = true)
            ∧ ((dieAt t d).point ≤ (dieAt s d).point)))
    ∧ (∀ inlet c, s.cfg = some c → s.pw.coolantHigh = false → inletMax s + 2 < inlet →
      ∃ t, exec (.coolantHigh now inlet) s = .next t ∧ t.pw.coolantHigh = true ∧ t.pw.inlet = inlet
        ∧ (∀ d, d < 8 → (dieAt t d).point = min (classCap t) (dieAt s d).point) ∧ t.ev.written = (s.ev.written + 1) % 2 ^ 32 ∧ t.mem = s.mem)
    ∧ (∀ inlet, inletMin s ≤ inlet → inlet ≤ inletMax s →
      exec (.coolantCapLifted now inlet) s = .next { atTime s now with pw := { s.pw with inlet := inlet, coolantHigh := false } })

/-- A start (R435, R439, R465, R479), at VAUX good, which reads the straps, or at the release of a reset of 1 ms or more: it waits in phase
1 for a 54 V input in range and stands there where the boot ROM's checks fail, stands in phase 13 where no firmware slot verifies, and else
waits in phase 4 with the chosen slot, the identity of its image, its configuration in force or refused, and every other state at its reset
value. A shorter reset pulse does nothing, and so does one without VAUX. A refused configuration whose signature verified keeps its
management session alone (R437; notes/assumptions/35.md). The check (R373, R436, R470): a configuration that passes opens its pitches and
leads to phase 10 with every die at the starting point; another is refused and the module stands in phase 14, as it does where the
configuration was refused before (R437). Completes: vauxGood, configCheck, modReset. -/
def Obligations.StartsAreCheckedAndRefused : Prop :=
  (∀ (s : State) (f : BootFindings) (us : Nat),
    let n := f.nor.getD s.nvm
    let started (straps : BitVec 4) (t : State) : Prop :=
      t.mem = State.reset.mem ∧ t.seqs = State.reset.seqs ∧ t.pitches = State.reset.pitches ∧ t.camps = State.reset.camps ∧ t.boot.straps = straps
        ∧ t.pw.vaux = true ∧ t.pw.rails = (f.mainGood || f.backupGood) ∧ t.pw.onBackup = (!f.mainGood && f.backupGood)
        ∧ (let bad := f.pairsAgree = false ∨ f.xspiUp = false ∨ (f.mainGood = false ∧ f.backupGood = false)
          (bad → t.boot.phase = 1 ∧ t.cfg = none)
          ∧ (¬bad → (chooseSlot n f).slot = none → t.boot.phase = 13 ∧ t.cfg = none)
          ∧ (∀ k, ¬bad → (chooseSlot n f).slot = some k →
              let d := identityOf n.fuses.uniqueSecret (Config.sha384 ((fwSlot n k).take (leAt (fwSlot n k) 16 8)))
              let chosen := chooseConfig n f (leAt (fwSlot n k) 12 2)
              t.boot.phase = 4 ∧ t.boot.slot = k ∧ t.boot.onTrial = (chooseSlot n f).onTrial ∧ t.boot.identity = some d
              ∧ (chosen = none → t.boot.configRefused = true ∧ t.cfg = none)
              ∧ (∀ j, chosen = some j → directoryOk (cfgSlot n j) = true → t.boot.configRefused = false ∧ t.cfg = some (configurationOf d (cfgSlot n j)))
              ∧ (∀ j, chosen = some j → directoryOk (cfgSlot n j) = false → t.boot.configRefused = true ∧ t.cfg = some (managementOnly d (cfgSlot n j)))))
    (us < 1000 ∨ s.pw.vaux = false → exec (.modReset us f) s = .next s)
    ∧ (∃ t, exec (.vauxGood f) s = .next t ∧ started f.straps t)
    ∧ (1000 ≤ us → s.pw.vaux = true → ∃ t, exec (.modReset us f) s = .next t ∧ started s.boot.straps t))
  ∧ (∀ (s : State) (inlet mv : Nat), s.boot.phase = 9 →
    (s.cfg = none → exec (.configCheck inlet mv) s = .next { s with pw := { s.pw with inlet := inlet }, boot := { s.boot with phase := 14 } })
    ∧ (∀ c, s.cfg = some c → s.boot.configRefused = true →
        exec (.configCheck inlet mv) s = .next { s with pw := { s.pw with inlet := inlet }, boot := { s.boot with phase := 14 } })
    ∧ ∀ c, s.cfg = some c → s.boot.configRefused = false →
      let passes := powerOk c.power = true ∧ (c.power.backupFitted = true → 44000 ≤ mv ∧ mv ≤ 59500) ∧ inlet ≤ (coolantRange c.power.coolant).2.1
        ∧ portWithoutLink s c = false ∧ checkConfiguration s c = none
      ∃ t, exec (.configCheck inlet mv) s = .next t ∧ t.mem = s.mem ∧ t.cfg = s.cfg
        ∧ (passes → t.boot.phase = 10 ∧ t.boot.configRefused = false ∧ t.pitches = openPitches c
            ∧ t.pw.dies = s.pw.dies.map (fun d => { d with point := startPoint c }))
        ∧ (¬passes → t.boot.phase = 14 ∧ t.boot.configRefused = true ∧ t.pitches = s.pitches))

/-- The phases up to the check (R18, R246, R254, R385, R435): VDD_CORE good loads the subordinate processors from the active image (R21) and
leads to the tests; arrays, HBM and links end their part once, and the last of them leads to phase 9; the clear of the expanders leads to
phase 11. A camp that fails is fenced or has a spare camp of its die; a trained link sends the module's identity, works where the
neighbour's is the expected one, and is refused where it is another. With a refused configuration the links of no port train (R437;
notes/assumptions/35.md). (Numbers of spare camps: notes/assumptions/34.md.) Completes: hbmTrainingDone, linksTrained, linkIdentity,
capacityClearDone, vddCoreGood, arraysTested. -/
def Obligations.StartUpPhasesFollow : Prop :=
  ∀ s : State,
    (s.boot.phase = 4 → exec .vddCoreGood s = .next { s with boot := { s.boot with phase := 6, subFirmware := some (activeImage s) } })
    ∧ (∀ failed, failed.all campOk = true → s.boot.phase = 6 → s.boot.arraysDone = false →
      ∃ t, exec (.arraysTested failed) s = .next t ∧ t.boot.arraysDone = true
        ∧ t.boot.phase = (if s.boot.hbmDone = true ∧ s.boot.linksDone = true then 9 else 6)
        ∧ (∀ c ∈ t.boot.fencedLogical, (campOf t c).fenced = true)
        ∧ (∀ c ∈ failed, c ∈ t.boot.fencedLogical ∨ ∃ k, mget t.boot.campMap c = some (spareCamp (sliceOf c) k)) ∧ t.mem = s.mem)
    ∧ (∀ reports, s.boot.phase = 6 → s.boot.hbmDone = false →
      ∃ t, exec (.hbmTrainingDone reports) s = .next t ∧ t.boot.hbmDone = true
        ∧ t.boot.phase = (if s.boot.arraysDone = true ∧ s.boot.linksDone = true then 9 else 6)
        ∧ t.mem = { s.mem with n := 1024 - (retiredChannels reports).length, retired := retiredChannels reports })
    ∧ (∀ links ports eth rate width c, s.cfg = some c → s.boot.phase = 6 → s.boot.linksDone = false →
      ∃ t, exec (.linksTrained links ports eth rate width) s = .next t ∧ t.boot.linksDone = true
        ∧ t.boot.phase = (if s.boot.arraysDone = true ∧ s.boot.hbmDone = true then 9 else 6)
        ∧ (s.boot.configRefused = false → t.fab.links = trainLinks c links
            ∧ ∀ l, l < 24 → (linkAt t l).any (fun k => decide (k.state = .trained)) = true → Output.identity l c.deviceId l ∈ t.out)
        ∧ (s.boot.configRefused = true → t.fab = s.fab ∧ t.mem = s.mem)
        ∧ t.eth.up = (List.range 2).map (fun k => eth.getD k false && (c.eth[k]?).any (·.inUse)))
    ∧ (∀ links ports eth rate width, s.cfg = none → s.boot.phase = 6 → s.boot.linksDone = false →
      ∃ t, exec (.linksTrained links ports eth rate width) s = .next t ∧ t.boot.linksDone = true
        ∧ t.boot.phase = (if s.boot.arraysDone = true ∧ s.boot.hbmDone = true then 9 else 6)
        ∧ t.host.up = (decide (rate = 64) && decide (width = 16)) ∧ t.fab = s.fab ∧ t.eth = s.eth)
    ∧ (∀ l device peer k e, l < 24 → linkAt s l = some k → linkEntry s l = some e → k.state = .trained →
      ∃ t, exec (.linkIdentity l device peer) s = .next t
        ∧ linkAt t l = some { k with state := if e.peerDevice = device ∧ e.peerLink = peer then .up else .refused }
        ∧ (∀ j, j ≠ l → linkAt t j = linkAt s j) ∧ t.ev.written = (s.ev.written + 1) % 2 ^ 32 ∧ t.mem = s.mem)
    ∧ (s.boot.phase = 10 → exec .capacityClearDone s = .next { s with
        boot := { s.boot with phase := 11, clearDone := true }
        mem := { s.mem with ports := s.mem.ports.map fun p => { p with cleared := decide (p.state = .up) } } })

/-- The join (R435, R437, R438): a module whose count is settled is ready, and the pitches of a group whose members all have its digest are
enabled, the others disabled for groups, and so is a group that waits on another member, which is joined with the others. When every member
agrees later, the time that the lead names at least 1 s ahead is taken, and at that time the pitch's group works. Completes: groupJoin,
groupDigestRetry, groupJoined. -/
def Obligations.GroupsJoin : Prop :=
  (∀ (s : State) (now : Nat) (answers : NMap (List MemberAnswer)) (c : Configuration), s.cfg = some c → s.boot.phase = 11 → timeSettled s c = true →
    (c.pitches.map (·.pitch)).Nodup →
      ∃ t, exec (.groupJoin now answers) s = .next t ∧ t.boot.phase = 12 ∧ t.boot.ready = true
        ∧ t.boot.readyAt = some (atTime s now).cairn.count ∧ t.mem = s.mem
        ∧ ∀ r ∈ c.pitches, r.enabled = true → pitchOf t r.pitch
            = { pitchOf s r.pitch with enabled := true, groupDisabled := (mismatchOf s r (mgetD answers r.pitch [])).isSome || joinsLate (mgetD answers r.pitch []) })
  ∧ (∀ (s : State) (pitch joinTime : Nat) (answers : List MemberAnswer) (r : PitchRecord), pitch < 64 → recordOf s pitch = some r →
    (pitchOf s pitch).groupDisabled = true →
      let agreed := allAgree s r answers = true ∧ s.cairn.count + 1000000000 ≤ joinTime
      ∃ t, exec (.groupDigestRetry pitch answers joinTime) s = .next t ∧ (∀ p, p ≠ pitch → pitchOf t p = pitchOf s p) ∧ t.mem = s.mem ∧ t.seqs = s.seqs
        ∧ (agreed → pitchOf t pitch = { pitchOf s pitch with joinAt := some joinTime }) ∧ (¬agreed → pitchOf t pitch = pitchOf s pitch))
  ∧ (∀ (s : State) (pitch now t0 : Nat) (r : PitchRecord), pitch < 64 → recordOf s pitch = some r → (pitchOf s pitch).joinAt = some t0 →
    t0 ≤ (atTime s now).cairn.count →
      ∃ t, exec (.groupJoined pitch now) s = .next t ∧ pitchOf t pitch = { pitchOf s pitch with groupDisabled := false, joinAt := none }
        ∧ (∀ p, p ≠ pitch → pitchOf t p = pitchOf s p) ∧ t.ev.written = (s.ev.written + 1) % 2 ^ 32 ∧ t.mem = s.mem)

/-- The load of a model package (R33, R175, R296, R372, R456): a pitch without a package takes one that passes its checks, with its tensors,
layers and slots in service, and its result is DONE; one that fails a check is refused with that code; another package over a region is
VERSION_MISMATCH. The same package again ends with DONE or INTEGRITY_FAIL. A load waits while a pitch of the region has a step in flight.
(The order of the checks: notes/assumptions/44.md.) Completes: modelPackageLoad. -/
def Obligations.PackageLoadIsChecked : Prop :=
  ∀ (s : State) (pitch : Nat) (k : PackageImage) (r : PitchRecord), pitch < 64 → recordOf s pitch = some r →
    ((∃ p ∈ loadPitches s pitch k ++ regionPitches s pitch, (pitchOf s p).inStep = true) → exec (.modelPackageLoad pitch k) s = .next s)
    ∧ ((∀ p ∈ loadPitches s pitch k ++ regionPitches s pitch, (pitchOf s p).inStep = false) →
      (∀ d, regionDigest s pitch k = some d → d ≠ k.digest →
        exec (.modelPackageLoad pitch k) s = .next (onPitch s pitch fun x => { x with loadResult := some rcVersionMismatch }))
      ∧ ((∀ d, regionDigest s pitch k = some d → d = k.digest) → (pitchOf s pitch).package = none →
        (∀ code, packageRefusal s r k = some code →
          exec (.modelPackageLoad pitch k) s = .next (onPitch s pitch fun x => { x with loadResult := some code }))
        ∧ (packageRefusal s r k = none →
          ∃ t g, exec (.modelPackageLoad pitch k) s = .next t ∧ (pitchOf t pitch).package = some g ∧ g.digest = k.digest ∧ g.vocab = k.vocab
            ∧ g.tensors = k.tensors.map loadedTensor ∧ g.layers = k.layers ∧ g.coded = k.coded ∧ (pitchOf t pitch).loadResult = some rcDone
            ∧ (∀ n x, k.slots[n]? = some x → mget (pitchOf t pitch).slots n = some (slotOfImage x))
            ∧ (∀ p, p ≠ pitch → pitchOf t p = pitchOf s p) ∧ t.seqs = s.seqs))
      ∧ ((∀ d, regionDigest s pitch k = some d → d = k.digest) → (pitchOf s pitch).package ≠ none →
        ∃ t, exec (.modelPackageLoad pitch k) s = .next t ∧ t.seqs = s.seqs
          ∧ ((pitchOf t pitch).loadResult = some rcDone ∨ (pitchOf t pitch).loadResult = some rcIntegrityFail)))

end
end

