-- ==== Sys2Proof/Laws/Maps.lean ====
section
/-! SUPPORT. The laws of the sparse maps: a read after a write gives what was written, a write leaves every other key alone, and writes
keep the keys rising. -/

namespace Sys2Proof.Machine

variable {α : Type}

@[simp] theorem mget_nil (k : Nat) : mget ([] : NMap α) k = none := rfl

@[simp] theorem mget_mset_same (m : NMap α) (k : Nat) (v : α) : mget (mset m k v) k = some v := by
  induction m with
  | nil => simp [mset, mget]
  | cons h t ih =>
    obtain ⟨a, w⟩ := h
    simp only [mset]
    split
    · simp [mget]
    · split
      · simp [mget]
      · rename_i h1 h2
        simp [mget, ih, Ne.symm h2]

theorem mget_mset_ne (m : NMap α) {k j : Nat} (v : α) (h : j ≠ k) : mget (mset m k v) j = mget m j := by
  induction m with
  | nil => simp [mset, mget, Ne.symm h]
  | cons c t ih =>
    obtain ⟨a, w⟩ := c
    simp only [mset]
    split
    · simp [mget, Ne.symm h]
    · split
      · rename_i h1 h2
        subst h2
        simp [mget, Ne.symm h]
      · simp only [mget, ih]

theorem mget_mset (m : NMap α) (k j : Nat) (v : α) : mget (mset m k v) j = if j = k then some v else mget m j := by
  by_cases h : j = k
  · simp [h]
  · simp [h, mget_mset_ne]

@[simp] theorem mget_mdel_same (m : NMap α) (k : Nat) : mget (mdel m k) k = none := by
  induction m with
  | nil => rfl
  | cons c t ih =>
    obtain ⟨a, w⟩ := c
    simp only [mdel]
    split
    · exact ih
    · rename_i h
      simp [mget, h, ih]

theorem mget_mdel_ne (m : NMap α) {k j : Nat} (h : j ≠ k) : mget (mdel m k) j = mget m j := by
  induction m with
  | nil => rfl
  | cons c t ih =>
    obtain ⟨a, w⟩ := c
    simp only [mdel]
    split
    · rename_i h1
      subst h1
      simp [mget, ih, Ne.symm h]
    · simp [mget, ih]

@[simp] theorem mgetD_mset_same (m : NMap α) (k : Nat) (v d : α) : mgetD (mset m k v) k d = v := by simp [mgetD]

theorem mgetD_mset_ne (m : NMap α) {k j : Nat} (v d : α) (h : j ≠ k) : mgetD (mset m k v) j d = mgetD m j d := by
  simp [mgetD, mget_mset_ne m v h]

theorem mget_mmap (m : NMap α) (f : Nat → α → α) (k : Nat) : mget (mmap m f) k = (mget m k).map (f k) := by
  induction m with
  | nil => rfl
  | cons c t ih =>
    obtain ⟨a, w⟩ := c
    simp only [mmap, List.map_cons, mget] at *
    by_cases h : a = k
    · simp [h]
    · simp [h, ih]

/-- The keys rise: the first is below every key of the rest. -/
theorem keysRise_cons (c : Nat × α) (t : NMap α) : keysRise (c :: t) = true ↔ (∀ d ∈ t, c.1 < d.1) ∧ keysRise t = true := by
  induction t generalizing c with
  | nil => simp [keysRise]
  | cons d t ih =>
    simp only [keysRise, Bool.and_eq_true, decide_eq_true_eq]
    rw [ih d]
    constructor
    · rintro ⟨h1, h2, h3⟩
      refine ⟨?_, h2, h3⟩
      intro e he
      rcases List.mem_cons.1 he with rfl | he
      · exact h1
      · exact lt_trans h1 (h2 e he)
    · rintro ⟨h1, h2, h3⟩
      exact ⟨h1 d (by simp), h2, h3⟩

theorem mem_mset {m : NMap α} {k : Nat} {v : α} {c : Nat × α} (h : c ∈ mset m k v) : c = (k, v) ∨ c ∈ m := by
  induction m with
  | nil => simpa [mset] using h
  | cons d t ih =>
    obtain ⟨a, w⟩ := d
    simp only [mset] at h
    split at h
    · rcases List.mem_cons.1 h with h | h
      · exact .inl h
      · exact .inr h
    · split at h
      · rcases List.mem_cons.1 h with h | h
        · exact .inl h
        · exact .inr (List.mem_cons_of_mem _ h)
      · rcases List.mem_cons.1 h with h | h
        · exact .inr (h ▸ List.mem_cons_self)
        · rcases ih h with h | h
          · exact .inl h
          · exact .inr (List.mem_cons_of_mem _ h)

theorem mem_mdel {m : NMap α} {k : Nat} {c : Nat × α} (h : c ∈ mdel m k) : c ∈ m := by
  induction m with
  | nil => exact h
  | cons d t ih =>
    obtain ⟨a, w⟩ := d
    simp only [mdel] at h
    split at h
    · exact List.mem_cons_of_mem _ (ih h)
    · rcases List.mem_cons.1 h with h | h
      · exact h ▸ List.mem_cons_self
      · exact List.mem_cons_of_mem _ (ih h)

theorem keysRise_mset {m : NMap α} (k : Nat) (v : α) (h : keysRise m = true) : keysRise (mset m k v) = true := by
  induction m with
  | nil => simp [mset, keysRise]
  | cons d t ih =>
    obtain ⟨a, w⟩ := d
    have ⟨h1, h2⟩ := (keysRise_cons _ _).1 h
    simp only [mset]
    split
    · rename_i hk
      refine (keysRise_cons _ _).2 ⟨?_, h⟩
      intro e he
      rcases List.mem_cons.1 he with rfl | he
      · exact hk
      · exact lt_trans hk (h1 e he)
    · split
      · rename_i hk
        refine (keysRise_cons _ _).2 ⟨?_, h2⟩
        intro e he
        have := h1 e he
        simp_all
      · rename_i hk hk'
        refine (keysRise_cons _ _).2 ⟨?_, ih h2⟩
        intro e he
        rcases mem_mset he with rfl | he
        · have : ¬k < a := hk
          have : k ≠ a := hk'
          show a < k
          omega
        · exact h1 e he

theorem keysRise_mdel {m : NMap α} (k : Nat) (h : keysRise m = true) : keysRise (mdel m k) = true := by
  induction m with
  | nil => rfl
  | cons d t ih =>
    obtain ⟨a, w⟩ := d
    have ⟨h1, h2⟩ := (keysRise_cons _ _).1 h
    simp only [mdel]
    split
    · exact ih h2
    · exact (keysRise_cons _ _).2 ⟨fun e he => h1 e (mem_mdel he), ih h2⟩

theorem keysRise_filter {m : NMap α} (p : Nat × α → Bool) (h : keysRise m = true) : keysRise (m.filter p) = true := by
  induction m with
  | nil => rfl
  | cons d t ih =>
    have ⟨h1, h2⟩ := (keysRise_cons _ _).1 h
    simp only [List.filter_cons]
    split
    · exact (keysRise_cons _ _).2 ⟨fun e he => h1 e (List.mem_of_mem_filter he), ih h2⟩
    · exact ih h2

theorem keysRise_mmap {m : NMap α} (f : Nat → α → α) (h : keysRise m = true) : keysRise (mmap m f) = true := by
  induction m with
  | nil => rfl
  | cons d t ih =>
    have ⟨h1, h2⟩ := (keysRise_cons _ _).1 h
    refine (keysRise_cons _ _).2 ⟨?_, ih h2⟩
    intro e he
    obtain ⟨x, hx, rfl⟩ := List.mem_map.1 he
    exact h1 x hx

end Sys2Proof.Machine
end

