-- ==== Sys2Proof/Laws/Access.lean ====
section
/-! SUPPORT. What an access to device memory does: it is admitted, or it waits (R248, R258, R260, R261); and what findings of the array checks do when
there are none (R242, R243). -/

namespace Sys2Proof.Machine

/-! ### Retention units -/

@[simp] theorem unitAt_putUnit (s : State) (u : Nat) (x : RetUnit) : unitAt (putUnit s u x) u = x := by
  simp [unitAt, putUnit, mgetD]

theorem unitAt_putUnit_of_ne (s : State) {u v : Nat} (x : RetUnit) (h : v ≠ u) : unitAt (putUnit s u x) v = unitAt s v := by
  exact mgetD_mset_ne _ x _ h

/-- No unit that is asked turns an admitted access away. -/
theorem admitted_units {s : State} {rs : List (Nat × Nat)} (h : Admitted s rs) :
    ((unitsAsked s rs).any fun u => decide ((unitAt s u).state = .retained ∨ (unitAt s u).state = .waking)) = false := by
  rw [List.any_eq_false]
  intro u hu
  have := h.2 u hu
  simp [this.1, this.2]

/-! ### Accesses -/

/-- A command whose ranges are admitted, in a slice that takes accesses, goes on from the state in which their units have noted the access. -/
theorem access_admitted {s : State} {rs : List (Nat × Nat)} {c : Ctx} (h : CampAdmitted s c.camp rs) (k : State → CmdRes) :
    access c s rs k = k (touched s rs) := by
  have hs : ¬(rs ≠ [] ∧ sliceLimited s (sliceOf c.camp) = true) := by
    rcases h.1 with h1 | h1 <;> simp [h1]
  unfold access
  dsimp only
  rw [if_neg hs, admitted_units h.2, h.2.1]
  rfl

/-- A command whose slice is paused waits for it, and nothing else happens. -/
theorem access_paused {s : State} {rs : List (Nat × Nat)} {c : Ctx} (hr : rs ≠ []) (h : sliceLimited s (sliceOf c.camp) = true) (k : State → CmdRes) :
    access c s rs k = .wait (.slice (sliceOf c.camp)) := by
  unfold access
  simp [hr, h]

/-- A command on a port or stack that does not admit its ranges waits, and nothing else happens. -/
theorem access_stalls {s : State} {rs : List (Nat × Nat)} {c : Ctx} (hs : sliceLimited s (sliceOf c.camp) = false)
    (h : rs.any (rangeStalls s) = true) (k : State → CmdRes) : access c s rs k = .wait .memory := by
  unfold access
  simp [h, hs]

/-- A row of the Ranger whose ranges are admitted does the same. -/
theorem rangerAccess_admitted {s : State} {rs : List (Nat × Nat)} (h : Admitted s rs) (k : State → State) :
    rangerAccess s rs k = k (touched s rs) := by
  unfold rangerAccess
  dsimp only
  rw [admitted_units h, h.1]
  rfl

/-- A row of the Ranger on a port or stack that does not admit its ranges changes nothing. -/
theorem rangerAccess_stalls {s : State} {rs : List (Nat × Nat)} (h : rs.any (rangeStalls s) = true) (k : State → State) :
    rangerAccess s rs k = s := by
  unfold rangerAccess
  simp [h]

/-- Where nothing can be retained, an access asks no unit. -/
theorem unitsAsked_of_not_usesRetention {s : State} (h : usesRetention s = false) (rs : List (Nat × Nat)) : unitsAsked s rs = [] := by
  simp [unitsAsked, h]

/-! ### Findings -/

@[simp] theorem applyFindings_nil (camp p : Nat) (tile : Bool) (s : State) : applyFindings camp p tile [] s = (s, false) := rfl

/-- A finding that abandons the step is the last one to act. -/
theorem applyFindings_stops {f : Finding} (h : stopsCommand f = true) (camp p : Nat) (tile : Bool) (t : List Finding) (s : State) :
    applyFindings camp p tile (f :: t) s = (applyFinding s camp p tile f, true) := by
  simp [applyFindings, h]

/-- Another finding acts, and those after it follow. -/
theorem applyFindings_goes {f : Finding} (h : stopsCommand f = false) (camp p : Nat) (tile : Bool) (t : List Finding) (s : State) :
    applyFindings camp p tile (f :: t) s = applyFindings camp p tile t (applyFinding s camp p tile f) := by
  simp [applyFindings, h]

end Sys2Proof.Machine
end

