-- ==== Sys2Proof/Laws/FabricFrames.lean ====
section
/-! SUPPORT. Frames that the module makes pass their own CRC and carry their fields (R390). -/

namespace Sys2Proof.Machine

theorem leBytes_mod (n v : Nat) : leBytes n (v % 256 ^ n) = leBytes n v := by
  induction n generalizing v with
  | zero => rfl
  | succ n ih =>
    unfold leBytes
    have e : v % 256 ^ (n + 1) / 256 = v / 256 % 256 ^ n := by
      rw [Nat.pow_succ, Nat.mul_comm, Nat.mod_mul_right_div_self]
    rw [e, ih]
    congr 1
    apply BitVec.eq_of_toNat_eq
    simp only [BitVec.toNat_ofNat]
    rw [show (2 : Nat) ^ 8 = 256 from rfl]
    exact Nat.mod_mod_of_dvd v ⟨256 ^ n, by rw [Nat.pow_succ, Nat.mul_comm]⟩

theorem crc24Bit_lt (c : Nat) : crc24Bit c < 2 ^ 24 := by
  unfold crc24Bit
  dsimp only
  split
  · exact Nat.mod_lt _ (by decide)
  · omega

theorem crc24Byte_lt (c : Nat) (b : Byte) : crc24Byte c b < 2 ^ 24 := by
  unfold crc24Byte
  dsimp only
  exact crc24Bit_lt _

theorem foldl_crc24_lt (l : List Byte) (c : Nat) (hc : c < 2 ^ 24) : l.foldl crc24Byte c < 2 ^ 24 := by
  induction l generalizing c with
  | nil => exact hc
  | cons a t ih => rw [List.foldl_cons]; exact ih (crc24Byte c a) (crc24Byte_lt c a)

theorem frameCrc_lt (ctrl : Nat) (payload : List Byte) : frameCrc ctrl payload < 2 ^ 24 := by
  unfold frameCrc
  generalize leBytes 5 ctrl ++ payload = l
  exact foldl_crc24_lt l 0xB704CE (by decide)

/-- The CRC covers bits [39:0] of the control word (R390). -/
theorem frameCrc_mod (ctrl : Nat) (payload : List Byte) : frameCrc (ctrl % 2 ^ 40) payload = frameCrc ctrl payload := by
  have h := leBytes_mod 5 ctrl
  rw [show (256 : Nat) ^ 5 = 2 ^ 40 from rfl] at h
  unfold frameCrc
  rw [h]

/-- The control word of a frame that the module makes. -/
theorem makeFrame_ctrl (type vc : Nat) (first : Bool) (seq ack creditVc credits : Nat) (payload : List Byte) (h1 : type < 16) (h2 : vc < 8)
    (h3 : seq < 4096) (h4 : ack < 4096) (h5 : creditVc < 8) (h6 : credits < 32) :
    let low := type + 2 ^ 4 * vc + (if first then 2 ^ 7 else 0) + 2 ^ 8 * seq + 2 ^ 20 * ack + 2 ^ 32 * creditVc + 2 ^ 35 * credits
    (makeFrame type vc first seq ack creditVc credits payload).ctrl.toNat = low + 2 ^ 40 * frameCrc low payload ∧ low < 2 ^ 40 := by
  intro low
  have hl : low < 2 ^ 40 := by
    have : (if first then 2 ^ 7 else 0) ≤ (2 : Nat) ^ 7 := by split <;> omega
    simp only [low]; omega
  have hc := frameCrc_lt low payload
  refine ⟨?_, hl⟩
  show (low + 2 ^ 40 * frameCrc low payload) % 2 ^ 64 = _
  exact Nat.mod_eq_of_lt (by omega)

/-- A frame that the module makes passes its CRC and carries its fields (R390). -/
theorem frameOk_makeFrame (type vc : Nat) (first : Bool) (seq ack creditVc credits : Nat) (payload : List Byte) (hp : payload.length = 256)
    (h1 : type < 16) (h2 : vc < 8) (h3 : seq < 4096) (h4 : ack < 4096) (h5 : creditVc < 8) (h6 : credits < 32) :
    frameOk (makeFrame type vc first seq ack creditVc credits payload) = true := by
  obtain ⟨e, hl⟩ := makeFrame_ctrl type vc first seq ack creditVc credits payload h1 h2 h3 h4 h5 h6
  have hc := frameCrc_lt (type + 2 ^ 4 * vc + (if first then 2 ^ 7 else 0) + 2 ^ 8 * seq + 2 ^ 20 * ack + 2 ^ 32 * creditVc + 2 ^ 35 * credits) payload
  unfold frameOk
  rw [e]
  generalize type + 2 ^ 4 * vc + (if first then 2 ^ 7 else 0) + 2 ^ 8 * seq + 2 ^ 20 * ack + 2 ^ 32 * creditVc + 2 ^ 35 * credits = low at *
  have hf : frameCrc (low + 2 ^ 40 * frameCrc low payload) payload = frameCrc low payload := by
    rw [← frameCrc_mod (low + _), Nat.add_mul_mod_self_left, Nat.mod_eq_of_lt hl]
  have hb : bitsOf (low + 2 ^ 40 * frameCrc low payload) 63 40 = frameCrc low payload := by
    unfold bitsOf
    rw [Nat.add_mul_div_left _ _ (by decide), Nat.div_eq_of_lt hl, Nat.zero_add]
    exact Nat.mod_eq_of_lt hc
  have hq : (makeFrame type vc first seq ack creditVc credits payload).payload = payload := rfl
  rw [hq, hf, hb, hp, decide_eq_true rfl, decide_eq_true rfl]
  rfl

/-- The fields of a frame that the module makes (R390). -/
theorem fields_makeFrame (type vc : Nat) (first : Bool) (seq ack creditVc credits : Nat) (payload : List Byte) (h1 : type < 16) (h2 : vc < 8)
    (h3 : seq < 4096) (h4 : ack < 4096) (h5 : creditVc < 8) (h6 : credits < 32) :
    let f := makeFrame type vc first seq ack creditVc credits payload
    frType f = type ∧ frVc f = vc ∧ frSeq f = seq ∧ frAck f = ack ∧ frCreditVc f = creditVc ∧ frCredits f = credits := by
  intro f
  obtain ⟨e, -⟩ := makeFrame_ctrl type vc first seq ack creditVc credits payload h1 h2 h3 h4 h5 h6
  generalize frameCrc _ payload = c at e
  have hb : (if first then 2 ^ 7 else 0) = 2 ^ 7 * (if first then 1 else 0) := by split <;> rfl
  rw [hb] at e
  have hb1 : (if first then 1 else 0) ≤ 1 := by split <;> omega
  generalize (if first then 1 else 0) = b at e hb1
  unfold frType frVc frSeq frAck frCreditVc frCredits bitsOf
  simp only [f, e]
  refine ⟨?_, ?_, ?_, ?_, ?_, ?_⟩ <;> omega

end Sys2Proof.Machine
end

