-- ==== Sys2Proof/Laws/State.lean ====
section
/-! SUPPORT. What each named update of the state does to each field: one lemma per field per update, so that no proof unfolds a record
update. -/

namespace Sys2Proof.Machine

/-! ### putCamp -/

@[simp] theorem putCamp_pending (s : State) (c : Nat) (x : Camp) : (putCamp s c x).pending = s.pending := rfl
@[simp] theorem putCamp_out (s : State) (c : Nat) (x : Camp) : (putCamp s c x).out = s.out := rfl
@[simp] theorem putCamp_freeCtr (s : State) (c : Nat) (x : Camp) : (putCamp s c x).freeCtr = s.freeCtr := rfl
@[simp] theorem putCamp_cairn (s : State) (c : Nat) (x : Camp) : (putCamp s c x).cairn = s.cairn := rfl
@[simp] theorem putCamp_ev (s : State) (c : Nat) (x : Camp) : (putCamp s c x).ev = s.ev := rfl
@[simp] theorem putCamp_nvm (s : State) (c : Nat) (x : Camp) : (putCamp s c x).nvm = s.nvm := rfl
@[simp] theorem putCamp_boot (s : State) (c : Nat) (x : Camp) : (putCamp s c x).boot = s.boot := rfl
@[simp] theorem putCamp_cfg (s : State) (c : Nat) (x : Camp) : (putCamp s c x).cfg = s.cfg := rfl
@[simp] theorem putCamp_pw (s : State) (c : Nat) (x : Camp) : (putCamp s c x).pw = s.pw := rfl
@[simp] theorem putCamp_mem (s : State) (c : Nat) (x : Camp) : (putCamp s c x).mem = s.mem := rfl
@[simp] theorem putCamp_fab (s : State) (c : Nat) (x : Camp) : (putCamp s c x).fab = s.fab := rfl
@[simp] theorem putCamp_eth (s : State) (c : Nat) (x : Camp) : (putCamp s c x).eth = s.eth := rfl
@[simp] theorem putCamp_host (s : State) (c : Nat) (x : Camp) : (putCamp s c x).host = s.host := rfl
@[simp] theorem putCamp_seqs (s : State) (c : Nat) (x : Camp) : (putCamp s c x).seqs = s.seqs := rfl
@[simp] theorem putCamp_reqs (s : State) (c : Nat) (x : Camp) : (putCamp s c x).reqs = s.reqs := rfl
@[simp] theorem putCamp_reqNext (s : State) (c : Nat) (x : Camp) : (putCamp s c x).reqNext = s.reqNext := rfl
@[simp] theorem putCamp_pitches (s : State) (c : Nat) (x : Camp) : (putCamp s c x).pitches = s.pitches := rfl
@[simp] theorem putCamp_camps (s : State) (c : Nat) (x : Camp) : (putCamp s c x).camps = mset s.camps c x := rfl
@[simp] theorem putCamp_hash (s : State) (c : Nat) (x : Camp) : (putCamp s c x).hash = s.hash := rfl
@[simp] theorem putCamp_ranger (s : State) (c : Nat) (x : Camp) : (putCamp s c x).ranger = s.ranger := rfl

/-! ### onCore -/

@[simp] theorem onCore_pending (s : State) (c k : Nat) (f : Core → Core) : (onCore s c k f).pending = s.pending := rfl
@[simp] theorem onCore_out (s : State) (c k : Nat) (f : Core → Core) : (onCore s c k f).out = s.out := rfl
@[simp] theorem onCore_freeCtr (s : State) (c k : Nat) (f : Core → Core) : (onCore s c k f).freeCtr = s.freeCtr := rfl
@[simp] theorem onCore_cairn (s : State) (c k : Nat) (f : Core → Core) : (onCore s c k f).cairn = s.cairn := rfl
@[simp] theorem onCore_ev (s : State) (c k : Nat) (f : Core → Core) : (onCore s c k f).ev = s.ev := rfl
@[simp] theorem onCore_nvm (s : State) (c k : Nat) (f : Core → Core) : (onCore s c k f).nvm = s.nvm := rfl
@[simp] theorem onCore_boot (s : State) (c k : Nat) (f : Core → Core) : (onCore s c k f).boot = s.boot := rfl
@[simp] theorem onCore_cfg (s : State) (c k : Nat) (f : Core → Core) : (onCore s c k f).cfg = s.cfg := rfl
@[simp] theorem onCore_pw (s : State) (c k : Nat) (f : Core → Core) : (onCore s c k f).pw = s.pw := rfl
@[simp] theorem onCore_mem (s : State) (c k : Nat) (f : Core → Core) : (onCore s c k f).mem = s.mem := rfl
@[simp] theorem onCore_fab (s : State) (c k : Nat) (f : Core → Core) : (onCore s c k f).fab = s.fab := rfl
@[simp] theorem onCore_eth (s : State) (c k : Nat) (f : Core → Core) : (onCore s c k f).eth = s.eth := rfl
@[simp] theorem onCore_host (s : State) (c k : Nat) (f : Core → Core) : (onCore s c k f).host = s.host := rfl
@[simp] theorem onCore_seqs (s : State) (c k : Nat) (f : Core → Core) : (onCore s c k f).seqs = s.seqs := rfl
@[simp] theorem onCore_reqs (s : State) (c k : Nat) (f : Core → Core) : (onCore s c k f).reqs = s.reqs := rfl
@[simp] theorem onCore_reqNext (s : State) (c k : Nat) (f : Core → Core) : (onCore s c k f).reqNext = s.reqNext := rfl
@[simp] theorem onCore_pitches (s : State) (c k : Nat) (f : Core → Core) : (onCore s c k f).pitches = s.pitches := rfl
@[simp] theorem onCore_hash (s : State) (c k : Nat) (f : Core → Core) : (onCore s c k f).hash = s.hash := rfl
@[simp] theorem onCore_ranger (s : State) (c k : Nat) (f : Core → Core) : (onCore s c k f).ranger = s.ranger := rfl

/-! ### putPitch -/

@[simp] theorem putPitch_pending (s : State) (p : Nat) (x : Pitch) : (putPitch s p x).pending = s.pending := rfl
@[simp] theorem putPitch_out (s : State) (p : Nat) (x : Pitch) : (putPitch s p x).out = s.out := rfl
@[simp] theorem putPitch_freeCtr (s : State) (p : Nat) (x : Pitch) : (putPitch s p x).freeCtr = s.freeCtr := rfl
@[simp] theorem putPitch_cairn (s : State) (p : Nat) (x : Pitch) : (putPitch s p x).cairn = s.cairn := rfl
@[simp] theorem putPitch_ev (s : State) (p : Nat) (x : Pitch) : (putPitch s p x).ev = s.ev := rfl
@[simp] theorem putPitch_nvm (s : State) (p : Nat) (x : Pitch) : (putPitch s p x).nvm = s.nvm := rfl
@[simp] theorem putPitch_boot (s : State) (p : Nat) (x : Pitch) : (putPitch s p x).boot = s.boot := rfl
@[simp] theorem putPitch_cfg (s : State) (p : Nat) (x : Pitch) : (putPitch s p x).cfg = s.cfg := rfl
@[simp] theorem putPitch_pw (s : State) (p : Nat) (x : Pitch) : (putPitch s p x).pw = s.pw := rfl
@[simp] theorem putPitch_mem (s : State) (p : Nat) (x : Pitch) : (putPitch s p x).mem = s.mem := rfl
@[simp] theorem putPitch_fab (s : State) (p : Nat) (x : Pitch) : (putPitch s p x).fab = s.fab := rfl
@[simp] theorem putPitch_eth (s : State) (p : Nat) (x : Pitch) : (putPitch s p x).eth = s.eth := rfl
@[simp] theorem putPitch_host (s : State) (p : Nat) (x : Pitch) : (putPitch s p x).host = s.host := rfl
@[simp] theorem putPitch_seqs (s : State) (p : Nat) (x : Pitch) : (putPitch s p x).seqs = s.seqs := rfl
@[simp] theorem putPitch_reqs (s : State) (p : Nat) (x : Pitch) : (putPitch s p x).reqs = s.reqs := rfl
@[simp] theorem putPitch_reqNext (s : State) (p : Nat) (x : Pitch) : (putPitch s p x).reqNext = s.reqNext := rfl
@[simp] theorem putPitch_pitches (s : State) (p : Nat) (x : Pitch) : (putPitch s p x).pitches = mset s.pitches p x := rfl
@[simp] theorem putPitch_camps (s : State) (p : Nat) (x : Pitch) : (putPitch s p x).camps = s.camps := rfl
@[simp] theorem putPitch_hash (s : State) (p : Nat) (x : Pitch) : (putPitch s p x).hash = s.hash := rfl
@[simp] theorem putPitch_ranger (s : State) (p : Nat) (x : Pitch) : (putPitch s p x).ranger = s.ranger := rfl

/-! ### onPitch -/

@[simp] theorem onPitch_pending (s : State) (p : Nat) (f : Pitch → Pitch) : (onPitch s p f).pending = s.pending := rfl
@[simp] theorem onPitch_out (s : State) (p : Nat) (f : Pitch → Pitch) : (onPitch s p f).out = s.out := rfl
@[simp] theorem onPitch_freeCtr (s : State) (p : Nat) (f : Pitch → Pitch) : (onPitch s p f).freeCtr = s.freeCtr := rfl
@[simp] theorem onPitch_cairn (s : State) (p : Nat) (f : Pitch → Pitch) : (onPitch s p f).cairn = s.cairn := rfl
@[simp] theorem onPitch_ev (s : State) (p : Nat) (f : Pitch → Pitch) : (onPitch s p f).ev = s.ev := rfl
@[simp] theorem onPitch_nvm (s : State) (p : Nat) (f : Pitch → Pitch) : (onPitch s p f).nvm = s.nvm := rfl
@[simp] theorem onPitch_boot (s : State) (p : Nat) (f : Pitch → Pitch) : (onPitch s p f).boot = s.boot := rfl
@[simp] theorem onPitch_cfg (s : State) (p : Nat) (f : Pitch → Pitch) : (onPitch s p f).cfg = s.cfg := rfl
@[simp] theorem onPitch_pw (s : State) (p : Nat) (f : Pitch → Pitch) : (onPitch s p f).pw = s.pw := rfl
@[simp] theorem onPitch_mem (s : State) (p : Nat) (f : Pitch → Pitch) : (onPitch s p f).mem = s.mem := rfl
@[simp] theorem onPitch_fab (s : State) (p : Nat) (f : Pitch → Pitch) : (onPitch s p f).fab = s.fab := rfl
@[simp] theorem onPitch_eth (s : State) (p : Nat) (f : Pitch → Pitch) : (onPitch s p f).eth = s.eth := rfl
@[simp] theorem onPitch_host (s : State) (p : Nat) (f : Pitch → Pitch) : (onPitch s p f).host = s.host := rfl
@[simp] theorem onPitch_seqs (s : State) (p : Nat) (f : Pitch → Pitch) : (onPitch s p f).seqs = s.seqs := rfl
@[simp] theorem onPitch_reqs (s : State) (p : Nat) (f : Pitch → Pitch) : (onPitch s p f).reqs = s.reqs := rfl
@[simp] theorem onPitch_reqNext (s : State) (p : Nat) (f : Pitch → Pitch) : (onPitch s p f).reqNext = s.reqNext := rfl
@[simp] theorem onPitch_pitches (s : State) (p : Nat) (f : Pitch → Pitch) : (onPitch s p f).pitches = mset s.pitches p (f (pitchOf s p)) := rfl
@[simp] theorem onPitch_camps (s : State) (p : Nat) (f : Pitch → Pitch) : (onPitch s p f).camps = s.camps := rfl
@[simp] theorem onPitch_hash (s : State) (p : Nat) (f : Pitch → Pitch) : (onPitch s p f).hash = s.hash := rfl
@[simp] theorem onPitch_ranger (s : State) (p : Nat) (f : Pitch → Pitch) : (onPitch s p f).ranger = s.ranger := rfl

/-! ### putSeq -/

@[simp] theorem putSeq_pending (s : State) (i : Nat) (e : SeqEntry) : (putSeq s i e).pending = s.pending := rfl
@[simp] theorem putSeq_out (s : State) (i : Nat) (e : SeqEntry) : (putSeq s i e).out = s.out := rfl
@[simp] theorem putSeq_freeCtr (s : State) (i : Nat) (e : SeqEntry) : (putSeq s i e).freeCtr = s.freeCtr := rfl
@[simp] theorem putSeq_cairn (s : State) (i : Nat) (e : SeqEntry) : (putSeq s i e).cairn = s.cairn := rfl
@[simp] theorem putSeq_ev (s : State) (i : Nat) (e : SeqEntry) : (putSeq s i e).ev = s.ev := rfl
@[simp] theorem putSeq_nvm (s : State) (i : Nat) (e : SeqEntry) : (putSeq s i e).nvm = s.nvm := rfl
@[simp] theorem putSeq_boot (s : State) (i : Nat) (e : SeqEntry) : (putSeq s i e).boot = s.boot := rfl
@[simp] theorem putSeq_cfg (s : State) (i : Nat) (e : SeqEntry) : (putSeq s i e).cfg = s.cfg := rfl
@[simp] theorem putSeq_pw (s : State) (i : Nat) (e : SeqEntry) : (putSeq s i e).pw = s.pw := rfl
@[simp] theorem putSeq_mem (s : State) (i : Nat) (e : SeqEntry) : (putSeq s i e).mem = s.mem := rfl
@[simp] theorem putSeq_fab (s : State) (i : Nat) (e : SeqEntry) : (putSeq s i e).fab = s.fab := rfl
@[simp] theorem putSeq_eth (s : State) (i : Nat) (e : SeqEntry) : (putSeq s i e).eth = s.eth := rfl
@[simp] theorem putSeq_host (s : State) (i : Nat) (e : SeqEntry) : (putSeq s i e).host = s.host := rfl
@[simp] theorem putSeq_seqs (s : State) (i : Nat) (e : SeqEntry) : (putSeq s i e).seqs = mset s.seqs i e := rfl
@[simp] theorem putSeq_reqs (s : State) (i : Nat) (e : SeqEntry) : (putSeq s i e).reqs = s.reqs := rfl
@[simp] theorem putSeq_reqNext (s : State) (i : Nat) (e : SeqEntry) : (putSeq s i e).reqNext = s.reqNext := rfl
@[simp] theorem putSeq_pitches (s : State) (i : Nat) (e : SeqEntry) : (putSeq s i e).pitches = s.pitches := rfl
@[simp] theorem putSeq_camps (s : State) (i : Nat) (e : SeqEntry) : (putSeq s i e).camps = s.camps := rfl
@[simp] theorem putSeq_hash (s : State) (i : Nat) (e : SeqEntry) : (putSeq s i e).hash = s.hash := rfl
@[simp] theorem putSeq_ranger (s : State) (i : Nat) (e : SeqEntry) : (putSeq s i e).ranger = s.ranger := rfl

/-! ### onSeq -/

@[simp] theorem onSeq_pending (s : State) (i : Nat) (f : SeqEntry → SeqEntry) : (onSeq s i f).pending = s.pending := rfl
@[simp] theorem onSeq_out (s : State) (i : Nat) (f : SeqEntry → SeqEntry) : (onSeq s i f).out = s.out := rfl
@[simp] theorem onSeq_freeCtr (s : State) (i : Nat) (f : SeqEntry → SeqEntry) : (onSeq s i f).freeCtr = s.freeCtr := rfl
@[simp] theorem onSeq_cairn (s : State) (i : Nat) (f : SeqEntry → SeqEntry) : (onSeq s i f).cairn = s.cairn := rfl
@[simp] theorem onSeq_ev (s : State) (i : Nat) (f : SeqEntry → SeqEntry) : (onSeq s i f).ev = s.ev := rfl
@[simp] theorem onSeq_nvm (s : State) (i : Nat) (f : SeqEntry → SeqEntry) : (onSeq s i f).nvm = s.nvm := rfl
@[simp] theorem onSeq_boot (s : State) (i : Nat) (f : SeqEntry → SeqEntry) : (onSeq s i f).boot = s.boot := rfl
@[simp] theorem onSeq_cfg (s : State) (i : Nat) (f : SeqEntry → SeqEntry) : (onSeq s i f).cfg = s.cfg := rfl
@[simp] theorem onSeq_pw (s : State) (i : Nat) (f : SeqEntry → SeqEntry) : (onSeq s i f).pw = s.pw := rfl
@[simp] theorem onSeq_mem (s : State) (i : Nat) (f : SeqEntry → SeqEntry) : (onSeq s i f).mem = s.mem := rfl
@[simp] theorem onSeq_fab (s : State) (i : Nat) (f : SeqEntry → SeqEntry) : (onSeq s i f).fab = s.fab := rfl
@[simp] theorem onSeq_eth (s : State) (i : Nat) (f : SeqEntry → SeqEntry) : (onSeq s i f).eth = s.eth := rfl
@[simp] theorem onSeq_host (s : State) (i : Nat) (f : SeqEntry → SeqEntry) : (onSeq s i f).host = s.host := rfl
@[simp] theorem onSeq_seqs (s : State) (i : Nat) (f : SeqEntry → SeqEntry) : (onSeq s i f).seqs = mset s.seqs i (f (seqOf s i)) := rfl
@[simp] theorem onSeq_reqs (s : State) (i : Nat) (f : SeqEntry → SeqEntry) : (onSeq s i f).reqs = s.reqs := rfl
@[simp] theorem onSeq_reqNext (s : State) (i : Nat) (f : SeqEntry → SeqEntry) : (onSeq s i f).reqNext = s.reqNext := rfl
@[simp] theorem onSeq_pitches (s : State) (i : Nat) (f : SeqEntry → SeqEntry) : (onSeq s i f).pitches = s.pitches := rfl
@[simp] theorem onSeq_camps (s : State) (i : Nat) (f : SeqEntry → SeqEntry) : (onSeq s i f).camps = s.camps := rfl
@[simp] theorem onSeq_hash (s : State) (i : Nat) (f : SeqEntry → SeqEntry) : (onSeq s i f).hash = s.hash := rfl
@[simp] theorem onSeq_ranger (s : State) (i : Nat) (f : SeqEntry → SeqEntry) : (onSeq s i f).ranger = s.ranger := rfl

/-! ### freeEntry -/

@[simp] theorem freeEntry_pending (s : State) (i : Nat) : (freeEntry s i).pending = s.pending := rfl
@[simp] theorem freeEntry_out (s : State) (i : Nat) : (freeEntry s i).out = s.out := rfl
@[simp] theorem freeEntry_freeCtr (s : State) (i : Nat) : (freeEntry s i).freeCtr = s.freeCtr := rfl
@[simp] theorem freeEntry_cairn (s : State) (i : Nat) : (freeEntry s i).cairn = s.cairn := rfl
@[simp] theorem freeEntry_ev (s : State) (i : Nat) : (freeEntry s i).ev = s.ev := rfl
@[simp] theorem freeEntry_nvm (s : State) (i : Nat) : (freeEntry s i).nvm = s.nvm := rfl
@[simp] theorem freeEntry_boot (s : State) (i : Nat) : (freeEntry s i).boot = s.boot := rfl
@[simp] theorem freeEntry_cfg (s : State) (i : Nat) : (freeEntry s i).cfg = s.cfg := rfl
@[simp] theorem freeEntry_pw (s : State) (i : Nat) : (freeEntry s i).pw = s.pw := rfl
@[simp] theorem freeEntry_mem (s : State) (i : Nat) : (freeEntry s i).mem = s.mem := rfl
@[simp] theorem freeEntry_fab (s : State) (i : Nat) : (freeEntry s i).fab = s.fab := rfl
@[simp] theorem freeEntry_eth (s : State) (i : Nat) : (freeEntry s i).eth = s.eth := rfl
@[simp] theorem freeEntry_host (s : State) (i : Nat) : (freeEntry s i).host = s.host := rfl
@[simp] theorem freeEntry_reqs (s : State) (i : Nat) : (freeEntry s i).reqs = s.reqs := rfl
@[simp] theorem freeEntry_reqNext (s : State) (i : Nat) : (freeEntry s i).reqNext = s.reqNext := rfl
@[simp] theorem freeEntry_pitches (s : State) (i : Nat) : (freeEntry s i).pitches = s.pitches := rfl
@[simp] theorem freeEntry_camps (s : State) (i : Nat) : (freeEntry s i).camps = s.camps := rfl
@[simp] theorem freeEntry_hash (s : State) (i : Nat) : (freeEntry s i).hash = s.hash := rfl
@[simp] theorem freeEntry_ranger (s : State) (i : Nat) : (freeEntry s i).ranger = s.ranger := rfl

/-! ### putFn -/

@[simp] theorem putFn_pending (s : State) (n : Nat) (f : Function) : (putFn s n f).pending = s.pending := rfl
@[simp] theorem putFn_out (s : State) (n : Nat) (f : Function) : (putFn s n f).out = s.out := rfl
@[simp] theorem putFn_freeCtr (s : State) (n : Nat) (f : Function) : (putFn s n f).freeCtr = s.freeCtr := rfl
@[simp] theorem putFn_cairn (s : State) (n : Nat) (f : Function) : (putFn s n f).cairn = s.cairn := rfl
@[simp] theorem putFn_ev (s : State) (n : Nat) (f : Function) : (putFn s n f).ev = s.ev := rfl
@[simp] theorem putFn_nvm (s : State) (n : Nat) (f : Function) : (putFn s n f).nvm = s.nvm := rfl
@[simp] theorem putFn_boot (s : State) (n : Nat) (f : Function) : (putFn s n f).boot = s.boot := rfl
@[simp] theorem putFn_cfg (s : State) (n : Nat) (f : Function) : (putFn s n f).cfg = s.cfg := rfl
@[simp] theorem putFn_pw (s : State) (n : Nat) (f : Function) : (putFn s n f).pw = s.pw := rfl
@[simp] theorem putFn_mem (s : State) (n : Nat) (f : Function) : (putFn s n f).mem = s.mem := rfl
@[simp] theorem putFn_fab (s : State) (n : Nat) (f : Function) : (putFn s n f).fab = s.fab := rfl
@[simp] theorem putFn_eth (s : State) (n : Nat) (f : Function) : (putFn s n f).eth = s.eth := rfl
@[simp] theorem putFn_seqs (s : State) (n : Nat) (f : Function) : (putFn s n f).seqs = s.seqs := rfl
@[simp] theorem putFn_reqs (s : State) (n : Nat) (f : Function) : (putFn s n f).reqs = s.reqs := rfl
@[simp] theorem putFn_reqNext (s : State) (n : Nat) (f : Function) : (putFn s n f).reqNext = s.reqNext := rfl
@[simp] theorem putFn_pitches (s : State) (n : Nat) (f : Function) : (putFn s n f).pitches = s.pitches := rfl
@[simp] theorem putFn_camps (s : State) (n : Nat) (f : Function) : (putFn s n f).camps = s.camps := rfl
@[simp] theorem putFn_hash (s : State) (n : Nat) (f : Function) : (putFn s n f).hash = s.hash := rfl
@[simp] theorem putFn_ranger (s : State) (n : Nat) (f : Function) : (putFn s n f).ranger = s.ranger := rfl

/-! ### putLink -/

@[simp] theorem putLink_pending (s : State) (l : Nat) (k : Link) : (putLink s l k).pending = s.pending := rfl
@[simp] theorem putLink_out (s : State) (l : Nat) (k : Link) : (putLink s l k).out = s.out := rfl
@[simp] theorem putLink_freeCtr (s : State) (l : Nat) (k : Link) : (putLink s l k).freeCtr = s.freeCtr := rfl
@[simp] theorem putLink_cairn (s : State) (l : Nat) (k : Link) : (putLink s l k).cairn = s.cairn := rfl
@[simp] theorem putLink_ev (s : State) (l : Nat) (k : Link) : (putLink s l k).ev = s.ev := rfl
@[simp] theorem putLink_nvm (s : State) (l : Nat) (k : Link) : (putLink s l k).nvm = s.nvm := rfl
@[simp] theorem putLink_boot (s : State) (l : Nat) (k : Link) : (putLink s l k).boot = s.boot := rfl
@[simp] theorem putLink_cfg (s : State) (l : Nat) (k : Link) : (putLink s l k).cfg = s.cfg := rfl
@[simp] theorem putLink_pw (s : State) (l : Nat) (k : Link) : (putLink s l k).pw = s.pw := rfl
@[simp] theorem putLink_mem (s : State) (l : Nat) (k : Link) : (putLink s l k).mem = s.mem := rfl
@[simp] theorem putLink_eth (s : State) (l : Nat) (k : Link) : (putLink s l k).eth = s.eth := rfl
@[simp] theorem putLink_host (s : State) (l : Nat) (k : Link) : (putLink s l k).host = s.host := rfl
@[simp] theorem putLink_seqs (s : State) (l : Nat) (k : Link) : (putLink s l k).seqs = s.seqs := rfl
@[simp] theorem putLink_reqs (s : State) (l : Nat) (k : Link) : (putLink s l k).reqs = s.reqs := rfl
@[simp] theorem putLink_reqNext (s : State) (l : Nat) (k : Link) : (putLink s l k).reqNext = s.reqNext := rfl
@[simp] theorem putLink_pitches (s : State) (l : Nat) (k : Link) : (putLink s l k).pitches = s.pitches := rfl
@[simp] theorem putLink_camps (s : State) (l : Nat) (k : Link) : (putLink s l k).camps = s.camps := rfl
@[simp] theorem putLink_hash (s : State) (l : Nat) (k : Link) : (putLink s l k).hash = s.hash := rfl
@[simp] theorem putLink_ranger (s : State) (l : Nat) (k : Link) : (putLink s l k).ranger = s.ranger := rfl

/-! ### putSession -/

@[simp] theorem putSession_pending (s : State) (n : Nat) (x : Session) : (putSession s n x).pending = s.pending := rfl
@[simp] theorem putSession_out (s : State) (n : Nat) (x : Session) : (putSession s n x).out = s.out := rfl
@[simp] theorem putSession_freeCtr (s : State) (n : Nat) (x : Session) : (putSession s n x).freeCtr = s.freeCtr := rfl
@[simp] theorem putSession_cairn (s : State) (n : Nat) (x : Session) : (putSession s n x).cairn = s.cairn := rfl
@[simp] theorem putSession_ev (s : State) (n : Nat) (x : Session) : (putSession s n x).ev = s.ev := rfl
@[simp] theorem putSession_nvm (s : State) (n : Nat) (x : Session) : (putSession s n x).nvm = s.nvm := rfl
@[simp] theorem putSession_boot (s : State) (n : Nat) (x : Session) : (putSession s n x).boot = s.boot := rfl
@[simp] theorem putSession_cfg (s : State) (n : Nat) (x : Session) : (putSession s n x).cfg = s.cfg := rfl
@[simp] theorem putSession_pw (s : State) (n : Nat) (x : Session) : (putSession s n x).pw = s.pw := rfl
@[simp] theorem putSession_mem (s : State) (n : Nat) (x : Session) : (putSession s n x).mem = s.mem := rfl
@[simp] theorem putSession_fab (s : State) (n : Nat) (x : Session) : (putSession s n x).fab = s.fab := rfl
@[simp] theorem putSession_host (s : State) (n : Nat) (x : Session) : (putSession s n x).host = s.host := rfl
@[simp] theorem putSession_seqs (s : State) (n : Nat) (x : Session) : (putSession s n x).seqs = s.seqs := rfl
@[simp] theorem putSession_reqs (s : State) (n : Nat) (x : Session) : (putSession s n x).reqs = s.reqs := rfl
@[simp] theorem putSession_reqNext (s : State) (n : Nat) (x : Session) : (putSession s n x).reqNext = s.reqNext := rfl
@[simp] theorem putSession_pitches (s : State) (n : Nat) (x : Session) : (putSession s n x).pitches = s.pitches := rfl
@[simp] theorem putSession_camps (s : State) (n : Nat) (x : Session) : (putSession s n x).camps = s.camps := rfl
@[simp] theorem putSession_hash (s : State) (n : Nat) (x : Session) : (putSession s n x).hash = s.hash := rfl
@[simp] theorem putSession_ranger (s : State) (n : Nat) (x : Session) : (putSession s n x).ranger = s.ranger := rfl

/-! ### send -/

@[simp] theorem send_pending (s : State) (o : Output) : (send s o).pending = s.pending := rfl
@[simp] theorem send_out (s : State) (o : Output) : (send s o).out = s.out ++ [o] := rfl
@[simp] theorem send_freeCtr (s : State) (o : Output) : (send s o).freeCtr = s.freeCtr := rfl
@[simp] theorem send_cairn (s : State) (o : Output) : (send s o).cairn = s.cairn := rfl
@[simp] theorem send_ev (s : State) (o : Output) : (send s o).ev = s.ev := rfl
@[simp] theorem send_nvm (s : State) (o : Output) : (send s o).nvm = s.nvm := rfl
@[simp] theorem send_boot (s : State) (o : Output) : (send s o).boot = s.boot := rfl
@[simp] theorem send_cfg (s : State) (o : Output) : (send s o).cfg = s.cfg := rfl
@[simp] theorem send_pw (s : State) (o : Output) : (send s o).pw = s.pw := rfl
@[simp] theorem send_mem (s : State) (o : Output) : (send s o).mem = s.mem := rfl
@[simp] theorem send_fab (s : State) (o : Output) : (send s o).fab = s.fab := rfl
@[simp] theorem send_eth (s : State) (o : Output) : (send s o).eth = s.eth := rfl
@[simp] theorem send_host (s : State) (o : Output) : (send s o).host = s.host := rfl
@[simp] theorem send_seqs (s : State) (o : Output) : (send s o).seqs = s.seqs := rfl
@[simp] theorem send_reqs (s : State) (o : Output) : (send s o).reqs = s.reqs := rfl
@[simp] theorem send_reqNext (s : State) (o : Output) : (send s o).reqNext = s.reqNext := rfl
@[simp] theorem send_pitches (s : State) (o : Output) : (send s o).pitches = s.pitches := rfl
@[simp] theorem send_camps (s : State) (o : Output) : (send s o).camps = s.camps := rfl
@[simp] theorem send_hash (s : State) (o : Output) : (send s o).hash = s.hash := rfl
@[simp] theorem send_ranger (s : State) (o : Output) : (send s o).ranger = s.ranger := rfl

/-! ### atTime -/

@[simp] theorem atTime_pending (s : State) (n : Nat) : (atTime s n).pending = s.pending := rfl
@[simp] theorem atTime_out (s : State) (n : Nat) : (atTime s n).out = s.out := rfl
@[simp] theorem atTime_freeCtr (s : State) (n : Nat) : (atTime s n).freeCtr = s.freeCtr := rfl
@[simp] theorem atTime_ev (s : State) (n : Nat) : (atTime s n).ev = s.ev := rfl
@[simp] theorem atTime_nvm (s : State) (n : Nat) : (atTime s n).nvm = s.nvm := rfl
@[simp] theorem atTime_boot (s : State) (n : Nat) : (atTime s n).boot = s.boot := rfl
@[simp] theorem atTime_cfg (s : State) (n : Nat) : (atTime s n).cfg = s.cfg := rfl
@[simp] theorem atTime_pw (s : State) (n : Nat) : (atTime s n).pw = s.pw := rfl
@[simp] theorem atTime_mem (s : State) (n : Nat) : (atTime s n).mem = s.mem := rfl
@[simp] theorem atTime_fab (s : State) (n : Nat) : (atTime s n).fab = s.fab := rfl
@[simp] theorem atTime_eth (s : State) (n : Nat) : (atTime s n).eth = s.eth := rfl
@[simp] theorem atTime_host (s : State) (n : Nat) : (atTime s n).host = s.host := rfl
@[simp] theorem atTime_seqs (s : State) (n : Nat) : (atTime s n).seqs = s.seqs := rfl
@[simp] theorem atTime_reqs (s : State) (n : Nat) : (atTime s n).reqs = s.reqs := rfl
@[simp] theorem atTime_reqNext (s : State) (n : Nat) : (atTime s n).reqNext = s.reqNext := rfl
@[simp] theorem atTime_pitches (s : State) (n : Nat) : (atTime s n).pitches = s.pitches := rfl
@[simp] theorem atTime_camps (s : State) (n : Nat) : (atTime s n).camps = s.camps := rfl
@[simp] theorem atTime_hash (s : State) (n : Nat) : (atTime s n).hash = s.hash := rfl
@[simp] theorem atTime_ranger (s : State) (n : Nat) : (atTime s n).ranger = s.ranger := rfl

/-! ### idle -/

@[simp] theorem idle_pending (s : State) : (idle s).pending = s.pending := rfl
@[simp] theorem idle_out (s : State) : (idle s).out = s.out := rfl
@[simp] theorem idle_freeCtr (s : State) : (idle s).freeCtr = s.freeCtr := rfl
@[simp] theorem idle_cairn (s : State) : (idle s).cairn = tick s.cairn := rfl
@[simp] theorem idle_ev (s : State) : (idle s).ev = s.ev := rfl
@[simp] theorem idle_nvm (s : State) : (idle s).nvm = s.nvm := rfl
@[simp] theorem idle_boot (s : State) : (idle s).boot = s.boot := rfl
@[simp] theorem idle_cfg (s : State) : (idle s).cfg = s.cfg := rfl
@[simp] theorem idle_pw (s : State) : (idle s).pw = s.pw := rfl
@[simp] theorem idle_mem (s : State) : (idle s).mem = s.mem := rfl
@[simp] theorem idle_fab (s : State) : (idle s).fab = s.fab := rfl
@[simp] theorem idle_eth (s : State) : (idle s).eth = s.eth := rfl
@[simp] theorem idle_host (s : State) : (idle s).host = s.host := rfl
@[simp] theorem idle_seqs (s : State) : (idle s).seqs = s.seqs := rfl
@[simp] theorem idle_reqs (s : State) : (idle s).reqs = s.reqs := rfl
@[simp] theorem idle_reqNext (s : State) : (idle s).reqNext = s.reqNext := rfl
@[simp] theorem idle_pitches (s : State) : (idle s).pitches = s.pitches := rfl
@[simp] theorem idle_camps (s : State) : (idle s).camps = s.camps := rfl
@[simp] theorem idle_hash (s : State) : (idle s).hash = s.hash := rfl
@[simp] theorem idle_ranger (s : State) : (idle s).ranger = s.ranger := rfl

/-! ### drawNat -/

@[simp] theorem drawNat_pending (s : State) : ((drawNat s).2).pending = s.pending := rfl
@[simp] theorem drawNat_out (s : State) : ((drawNat s).2).out = s.out := rfl
@[simp] theorem drawNat_freeCtr (s : State) : ((drawNat s).2).freeCtr = s.freeCtr + 1 := rfl
@[simp] theorem drawNat_cairn (s : State) : ((drawNat s).2).cairn = s.cairn := rfl
@[simp] theorem drawNat_ev (s : State) : ((drawNat s).2).ev = s.ev := rfl
@[simp] theorem drawNat_nvm (s : State) : ((drawNat s).2).nvm = s.nvm := rfl
@[simp] theorem drawNat_boot (s : State) : ((drawNat s).2).boot = s.boot := rfl
@[simp] theorem drawNat_cfg (s : State) : ((drawNat s).2).cfg = s.cfg := rfl
@[simp] theorem drawNat_pw (s : State) : ((drawNat s).2).pw = s.pw := rfl
@[simp] theorem drawNat_mem (s : State) : ((drawNat s).2).mem = s.mem := rfl
@[simp] theorem drawNat_fab (s : State) : ((drawNat s).2).fab = s.fab := rfl
@[simp] theorem drawNat_eth (s : State) : ((drawNat s).2).eth = s.eth := rfl
@[simp] theorem drawNat_host (s : State) : ((drawNat s).2).host = s.host := rfl
@[simp] theorem drawNat_seqs (s : State) : ((drawNat s).2).seqs = s.seqs := rfl
@[simp] theorem drawNat_reqs (s : State) : ((drawNat s).2).reqs = s.reqs := rfl
@[simp] theorem drawNat_reqNext (s : State) : ((drawNat s).2).reqNext = s.reqNext := rfl
@[simp] theorem drawNat_pitches (s : State) : ((drawNat s).2).pitches = s.pitches := rfl
@[simp] theorem drawNat_camps (s : State) : ((drawNat s).2).camps = s.camps := rfl
@[simp] theorem drawNat_hash (s : State) : ((drawNat s).2).hash = s.hash := rfl
@[simp] theorem drawNat_ranger (s : State) : ((drawNat s).2).ranger = s.ranger := rfl

/-! ### drawBytes -/

@[simp] theorem drawBytes_pending (s : State) (n : Nat) : ((drawBytes s n).2).pending = s.pending := rfl
@[simp] theorem drawBytes_out (s : State) (n : Nat) : ((drawBytes s n).2).out = s.out := rfl
@[simp] theorem drawBytes_freeCtr (s : State) (n : Nat) : ((drawBytes s n).2).freeCtr = s.freeCtr + 1 := rfl
@[simp] theorem drawBytes_cairn (s : State) (n : Nat) : ((drawBytes s n).2).cairn = s.cairn := rfl
@[simp] theorem drawBytes_ev (s : State) (n : Nat) : ((drawBytes s n).2).ev = s.ev := rfl
@[simp] theorem drawBytes_nvm (s : State) (n : Nat) : ((drawBytes s n).2).nvm = s.nvm := rfl
@[simp] theorem drawBytes_boot (s : State) (n : Nat) : ((drawBytes s n).2).boot = s.boot := rfl
@[simp] theorem drawBytes_cfg (s : State) (n : Nat) : ((drawBytes s n).2).cfg = s.cfg := rfl
@[simp] theorem drawBytes_pw (s : State) (n : Nat) : ((drawBytes s n).2).pw = s.pw := rfl
@[simp] theorem drawBytes_mem (s : State) (n : Nat) : ((drawBytes s n).2).mem = s.mem := rfl
@[simp] theorem drawBytes_fab (s : State) (n : Nat) : ((drawBytes s n).2).fab = s.fab := rfl
@[simp] theorem drawBytes_eth (s : State) (n : Nat) : ((drawBytes s n).2).eth = s.eth := rfl
@[simp] theorem drawBytes_host (s : State) (n : Nat) : ((drawBytes s n).2).host = s.host := rfl
@[simp] theorem drawBytes_seqs (s : State) (n : Nat) : ((drawBytes s n).2).seqs = s.seqs := rfl
@[simp] theorem drawBytes_reqs (s : State) (n : Nat) : ((drawBytes s n).2).reqs = s.reqs := rfl
@[simp] theorem drawBytes_reqNext (s : State) (n : Nat) : ((drawBytes s n).2).reqNext = s.reqNext := rfl
@[simp] theorem drawBytes_pitches (s : State) (n : Nat) : ((drawBytes s n).2).pitches = s.pitches := rfl
@[simp] theorem drawBytes_camps (s : State) (n : Nat) : ((drawBytes s n).2).camps = s.camps := rfl
@[simp] theorem drawBytes_hash (s : State) (n : Nat) : ((drawBytes s n).2).hash = s.hash := rfl
@[simp] theorem drawBytes_ranger (s : State) (n : Nat) : ((drawBytes s n).2).ranger = s.ranger := rfl

/-! ### Accessors after updates -/

@[simp] theorem campOf_putCamp (s : State) (c : Nat) (x : Camp) : campOf (putCamp s c x) c = x := by simp [campOf, mgetD_mset_same]
theorem campOf_putCamp_ne (s : State) {c d : Nat} (x : Camp) (h : d ≠ c) : campOf (putCamp s c x) d = campOf s d := by
  simp [campOf, mgetD_mset_ne _ _ _ h]
@[simp] theorem coreOf_putCore (c : Camp) (k : Nat) (x : Core) : coreOf (putCore c k x) k = x := by simp [coreOf, putCore, mgetD_mset_same]
theorem coreOf_putCore_ne (c : Camp) {k j : Nat} (x : Core) (h : j ≠ k) : coreOf (putCore c k x) j = coreOf c j := by
  simp [coreOf, putCore, mgetD_mset_ne _ _ _ h]
@[simp] theorem pitchOf_putPitch (s : State) (p : Nat) (x : Pitch) : pitchOf (putPitch s p x) p = x := by simp [pitchOf, mgetD_mset_same]
theorem pitchOf_putPitch_ne (s : State) {p q : Nat} (x : Pitch) (h : q ≠ p) : pitchOf (putPitch s p x) q = pitchOf s q := by
  simp [pitchOf, mgetD_mset_ne _ _ _ h]
@[simp] theorem pitchOf_onPitch (s : State) (p : Nat) (f : Pitch → Pitch) : pitchOf (onPitch s p f) p = f (pitchOf s p) := by
  simp [onPitch]
theorem pitchOf_onPitch_ne (s : State) {p q : Nat} (f : Pitch → Pitch) (h : q ≠ p) : pitchOf (onPitch s p f) q = pitchOf s q :=
  pitchOf_putPitch_ne s _ h
@[simp] theorem seqOf_putSeq (s : State) (i : Nat) (e : SeqEntry) : seqOf (putSeq s i e) i = e := by simp [seqOf, mgetD_mset_same]
theorem seqOf_putSeq_ne (s : State) {i j : Nat} (e : SeqEntry) (h : j ≠ i) : seqOf (putSeq s i e) j = seqOf s j := by
  simp [seqOf, mgetD_mset_ne _ _ _ h]
@[simp] theorem seqOf_onSeq (s : State) (i : Nat) (f : SeqEntry → SeqEntry) : seqOf (onSeq s i f) i = f (seqOf s i) := by simp [onSeq]
theorem seqOf_onSeq_ne (s : State) {i j : Nat} (f : SeqEntry → SeqEntry) (h : j ≠ i) : seqOf (onSeq s i f) j = seqOf s j :=
  seqOf_putSeq_ne s _ h
@[simp] theorem campOf_onPitch (s : State) (p c : Nat) (f : Pitch → Pitch) : campOf (onPitch s p f) c = campOf s c := rfl
@[simp] theorem pitchOf_putCamp (s : State) (c p : Nat) (x : Camp) : pitchOf (putCamp s c x) p = pitchOf s p := rfl
@[simp] theorem recordOf_putCamp (s : State) (c p : Nat) (x : Camp) : recordOf (putCamp s c x) p = recordOf s p := rfl
@[simp] theorem recordOf_onPitch (s : State) (q p : Nat) (f : Pitch → Pitch) : recordOf (onPitch s q f) p = recordOf s p := rfl
@[simp] theorem recordOf_onSeq (s : State) (i p : Nat) (f : SeqEntry → SeqEntry) : recordOf (onSeq s i f) p = recordOf s p := rfl

/-! ### Reset -/

@[simp] theorem reset_pending : State.reset.pending = [] := rfl
@[simp] theorem reset_cfg : State.reset.cfg = none := rfl
@[simp] theorem reset_mem : State.reset.mem = Memory.reset := rfl
@[simp] theorem reset_camps : State.reset.camps = [] := rfl
@[simp] theorem reset_seqs : State.reset.seqs = [] := rfl

end Sys2Proof.Machine
end

