-- ==== Sys2Proof/Laws/Frames.lean ====
section
/-! SUPPORT. What each shared operation leaves unchanged: one lemma per operation, whose equations rewrite a field of the result to the field
before it. -/

namespace Sys2Proof.Machine

set_option linter.all false

@[simp] theorem appendCritical_keeps (s : State) (e : EventRec) :
    (appendCritical s e).cairn = s.cairn ∧ (appendCritical s e).boot = s.boot ∧ (appendCritical s e).cfg = s.cfg
    ∧ (appendCritical s e).pw = s.pw ∧ (appendCritical s e).mem = s.mem ∧ (appendCritical s e).fab = s.fab
    ∧ (appendCritical s e).eth = s.eth ∧ (appendCritical s e).seqs = s.seqs ∧ (appendCritical s e).reqs = s.reqs
    ∧ (appendCritical s e).pitches = s.pitches ∧ (appendCritical s e).camps = s.camps ∧ (appendCritical s e).hash = s.hash := by
  refine ⟨?_, ?_, ?_, ?_, ?_, ?_, ?_, ?_, ?_, ?_, ?_, ?_⟩ <;>
    (simp only [appendCritical] <;> (repeat' split) <;> first | (simp; done) | rfl)

@[simp] theorem raiseInterrupt_keeps (s : State) (fn : Nat) (vector : Nat) :
    (raiseInterrupt s fn vector).cairn = s.cairn ∧ (raiseInterrupt s fn vector).ev = s.ev ∧ (raiseInterrupt s fn vector).boot = s.boot
    ∧ (raiseInterrupt s fn vector).cfg = s.cfg ∧ (raiseInterrupt s fn vector).pw = s.pw ∧ (raiseInterrupt s fn vector).mem = s.mem
    ∧ (raiseInterrupt s fn vector).fab = s.fab ∧ (raiseInterrupt s fn vector).eth = s.eth ∧ (raiseInterrupt s fn vector).seqs = s.seqs
    ∧ (raiseInterrupt s fn vector).reqs = s.reqs ∧ (raiseInterrupt s fn vector).pitches = s.pitches
    ∧ (raiseInterrupt s fn vector).camps = s.camps ∧ (raiseInterrupt s fn vector).hash = s.hash := by
  refine ⟨?_, ?_, ?_, ?_, ?_, ?_, ?_, ?_, ?_, ?_, ?_, ?_, ?_⟩ <;>
    (simp only [raiseInterrupt] <;> (repeat' split) <;> first | (simp; done) | rfl)

@[simp] theorem writeEvent_keeps (s : State) (source : Nat) (cls : Nat) (code : Nat) (pitch : Nat) (detail : List Byte) :
    (writeEvent s source cls code pitch detail).cairn = s.cairn ∧ (writeEvent s source cls code pitch detail).boot = s.boot
    ∧ (writeEvent s source cls code pitch detail).cfg = s.cfg ∧ (writeEvent s source cls code pitch detail).pw = s.pw
    ∧ (writeEvent s source cls code pitch detail).mem = s.mem ∧ (writeEvent s source cls code pitch detail).fab = s.fab
    ∧ (writeEvent s source cls code pitch detail).eth = s.eth ∧ (writeEvent s source cls code pitch detail).seqs = s.seqs
    ∧ (writeEvent s source cls code pitch detail).reqs = s.reqs ∧ (writeEvent s source cls code pitch detail).pitches = s.pitches
    ∧ (writeEvent s source cls code pitch detail).camps = s.camps ∧ (writeEvent s source cls code pitch detail).hash = s.hash := by
  refine ⟨?_, ?_, ?_, ?_, ?_, ?_, ?_, ?_, ?_, ?_, ?_, ?_⟩ <;>
    (simp only [writeEvent] <;> (repeat' split) <;> first | (simp; done) | rfl)

@[simp] theorem rangerEvent_keeps (s : State) (cls : Nat) (code : Nat) (pitch : Nat) (detail : List Byte) :
    (rangerEvent s cls code pitch detail).cairn = s.cairn ∧ (rangerEvent s cls code pitch detail).boot = s.boot
    ∧ (rangerEvent s cls code pitch detail).cfg = s.cfg ∧ (rangerEvent s cls code pitch detail).pw = s.pw
    ∧ (rangerEvent s cls code pitch detail).mem = s.mem ∧ (rangerEvent s cls code pitch detail).fab = s.fab
    ∧ (rangerEvent s cls code pitch detail).eth = s.eth ∧ (rangerEvent s cls code pitch detail).seqs = s.seqs
    ∧ (rangerEvent s cls code pitch detail).reqs = s.reqs ∧ (rangerEvent s cls code pitch detail).pitches = s.pitches
    ∧ (rangerEvent s cls code pitch detail).camps = s.camps ∧ (rangerEvent s cls code pitch detail).hash = s.hash := by
  refine ⟨?_, ?_, ?_, ?_, ?_, ?_, ?_, ?_, ?_, ?_, ?_, ?_⟩ <;>
    simp [rangerEvent]

@[simp] theorem putSlot_keeps (s : State) (p : Nat) (n : Nat) (x : Slot) :
    (putSlot s p n x).cairn = s.cairn ∧ (putSlot s p n x).ev = s.ev ∧ (putSlot s p n x).boot = s.boot ∧ (putSlot s p n x).cfg = s.cfg
    ∧ (putSlot s p n x).pw = s.pw ∧ (putSlot s p n x).mem = s.mem ∧ (putSlot s p n x).fab = s.fab ∧ (putSlot s p n x).eth = s.eth
    ∧ (putSlot s p n x).seqs = s.seqs ∧ (putSlot s p n x).reqs = s.reqs ∧ (putSlot s p n x).camps = s.camps
    ∧ (putSlot s p n x).hash = s.hash := by
  refine ⟨?_, ?_, ?_, ?_, ?_, ?_, ?_, ?_, ?_, ?_, ?_, ?_⟩ <;>
    simp [putSlot]

@[simp] theorem putSync_keeps (s : State) (p : Nat) (n : Nat) (y : Sync) :
    (putSync s p n y).cairn = s.cairn ∧ (putSync s p n y).ev = s.ev ∧ (putSync s p n y).boot = s.boot ∧ (putSync s p n y).cfg = s.cfg
    ∧ (putSync s p n y).pw = s.pw ∧ (putSync s p n y).mem = s.mem ∧ (putSync s p n y).fab = s.fab ∧ (putSync s p n y).eth = s.eth
    ∧ (putSync s p n y).seqs = s.seqs ∧ (putSync s p n y).reqs = s.reqs ∧ (putSync s p n y).camps = s.camps
    ∧ (putSync s p n y).hash = s.hash := by
  refine ⟨?_, ?_, ?_, ?_, ?_, ?_, ?_, ?_, ?_, ?_, ?_, ?_⟩ <;>
    simp [putSync]

@[simp] theorem onCores_keeps (s : State) (camp : Nat) (cores : List Nat) (f : Nat → Nat → Core → Core) :
    (onCores s camp cores f).cairn = s.cairn ∧ (onCores s camp cores f).ev = s.ev ∧ (onCores s camp cores f).boot = s.boot
    ∧ (onCores s camp cores f).cfg = s.cfg ∧ (onCores s camp cores f).pw = s.pw ∧ (onCores s camp cores f).mem = s.mem
    ∧ (onCores s camp cores f).fab = s.fab ∧ (onCores s camp cores f).eth = s.eth ∧ (onCores s camp cores f).seqs = s.seqs
    ∧ (onCores s camp cores f).reqs = s.reqs ∧ (onCores s camp cores f).pitches = s.pitches ∧ (onCores s camp cores f).hash = s.hash := by
  refine ⟨?_, ?_, ?_, ?_, ?_, ?_, ?_, ?_, ?_, ?_, ?_, ?_⟩ <;>
    simp [onCores]

@[simp] theorem releaseBlocked_keeps (s : State) (p : Nat) (f : WaitReason → Bool) :
    (releaseBlocked s p f).cairn = s.cairn ∧ (releaseBlocked s p f).ev = s.ev ∧ (releaseBlocked s p f).boot = s.boot
    ∧ (releaseBlocked s p f).cfg = s.cfg ∧ (releaseBlocked s p f).pw = s.pw ∧ (releaseBlocked s p f).mem = s.mem
    ∧ (releaseBlocked s p f).fab = s.fab ∧ (releaseBlocked s p f).eth = s.eth ∧ (releaseBlocked s p f).seqs = s.seqs
    ∧ (releaseBlocked s p f).reqs = s.reqs ∧ (releaseBlocked s p f).pitches = s.pitches ∧ (releaseBlocked s p f).hash = s.hash := by
  refine ⟨?_, ?_, ?_, ?_, ?_, ?_, ?_, ?_, ?_, ?_, ?_, ?_⟩ <;>
    simp [releaseBlocked]

@[simp] theorem pokeBytes_keeps (s : State) (da : Nat) (bs : List Byte) :
    (pokeBytes s da bs).cairn = s.cairn ∧ (pokeBytes s da bs).ev = s.ev ∧ (pokeBytes s da bs).boot = s.boot
    ∧ (pokeBytes s da bs).cfg = s.cfg ∧ (pokeBytes s da bs).pw = s.pw ∧ (pokeBytes s da bs).fab = s.fab
    ∧ (pokeBytes s da bs).eth = s.eth ∧ (pokeBytes s da bs).seqs = s.seqs ∧ (pokeBytes s da bs).reqs = s.reqs
    ∧ (pokeBytes s da bs).pitches = s.pitches ∧ (pokeBytes s da bs).hash = s.hash := by
  refine ⟨?_, ?_, ?_, ?_, ?_, ?_, ?_, ?_, ?_, ?_, ?_⟩ <;>
    simp [pokeBytes]

@[simp] theorem finishScrubs_keeps (s : State) (da : Nat) (len : Nat) :
    (finishScrubs s da len).cairn = s.cairn ∧ (finishScrubs s da len).ev = s.ev ∧ (finishScrubs s da len).boot = s.boot
    ∧ (finishScrubs s da len).cfg = s.cfg ∧ (finishScrubs s da len).pw = s.pw ∧ (finishScrubs s da len).fab = s.fab
    ∧ (finishScrubs s da len).eth = s.eth ∧ (finishScrubs s da len).seqs = s.seqs ∧ (finishScrubs s da len).reqs = s.reqs
    ∧ (finishScrubs s da len).pitches = s.pitches ∧ (finishScrubs s da len).camps = s.camps ∧ (finishScrubs s da len).hash = s.hash := by
  refine ⟨?_, ?_, ?_, ?_, ?_, ?_, ?_, ?_, ?_, ?_, ?_, ?_⟩ <;>
    simp [finishScrubs]

@[simp] theorem freeRange_keeps (s : State) (p : Nat) (a : Nat) :
    (freeRange s p a).cairn = s.cairn ∧ (freeRange s p a).ev = s.ev ∧ (freeRange s p a).boot = s.boot ∧ (freeRange s p a).cfg = s.cfg
    ∧ (freeRange s p a).pw = s.pw ∧ (freeRange s p a).fab = s.fab ∧ (freeRange s p a).eth = s.eth ∧ (freeRange s p a).seqs = s.seqs
    ∧ (freeRange s p a).reqs = s.reqs ∧ (freeRange s p a).camps = s.camps ∧ (freeRange s p a).hash = s.hash := by
  refine ⟨?_, ?_, ?_, ?_, ?_, ?_, ?_, ?_, ?_, ?_, ?_⟩ <;>
    (simp only [freeRange] <;> (repeat' split) <;> first | (simp; done) | rfl)

@[simp] theorem putPage_keeps (s : State) (p : Nat) (n : Nat) (g : Page) :
    (putPage s p n g).cairn = s.cairn ∧ (putPage s p n g).ev = s.ev ∧ (putPage s p n g).boot = s.boot ∧ (putPage s p n g).cfg = s.cfg
    ∧ (putPage s p n g).pw = s.pw ∧ (putPage s p n g).mem = s.mem ∧ (putPage s p n g).fab = s.fab ∧ (putPage s p n g).eth = s.eth
    ∧ (putPage s p n g).seqs = s.seqs ∧ (putPage s p n g).reqs = s.reqs ∧ (putPage s p n g).camps = s.camps
    ∧ (putPage s p n g).hash = s.hash := by
  refine ⟨?_, ?_, ?_, ?_, ?_, ?_, ?_, ?_, ?_, ?_, ?_, ?_⟩ <;>
    simp [putPage]

@[simp] theorem freeIf_keeps (s : State) (p : Nat) (a : Nat) :
    (freeIf s p a).cairn = s.cairn ∧ (freeIf s p a).ev = s.ev ∧ (freeIf s p a).boot = s.boot ∧ (freeIf s p a).cfg = s.cfg
    ∧ (freeIf s p a).pw = s.pw ∧ (freeIf s p a).fab = s.fab ∧ (freeIf s p a).eth = s.eth ∧ (freeIf s p a).seqs = s.seqs
    ∧ (freeIf s p a).reqs = s.reqs ∧ (freeIf s p a).camps = s.camps ∧ (freeIf s p a).hash = s.hash := by
  refine ⟨?_, ?_, ?_, ?_, ?_, ?_, ?_, ?_, ?_, ?_, ?_⟩ <;>
    (simp only [freeIf] <;> (repeat' split) <;> first | (simp; done) | rfl)

@[simp] theorem freePage_keeps (s : State) (p : Nat) (n : Nat) :
    (freePage s p n).cairn = s.cairn ∧ (freePage s p n).ev = s.ev ∧ (freePage s p n).boot = s.boot ∧ (freePage s p n).cfg = s.cfg
    ∧ (freePage s p n).pw = s.pw ∧ (freePage s p n).fab = s.fab ∧ (freePage s p n).eth = s.eth ∧ (freePage s p n).seqs = s.seqs
    ∧ (freePage s p n).reqs = s.reqs ∧ (freePage s p n).camps = s.camps ∧ (freePage s p n).hash = s.hash := by
  refine ⟨?_, ?_, ?_, ?_, ?_, ?_, ?_, ?_, ?_, ?_, ?_⟩ <;>
    simp [freePage]

@[simp] theorem dropRef_keeps (s : State) (p : Nat) (n : Nat) :
    (dropRef s p n).cairn = s.cairn ∧ (dropRef s p n).ev = s.ev ∧ (dropRef s p n).boot = s.boot ∧ (dropRef s p n).cfg = s.cfg
    ∧ (dropRef s p n).pw = s.pw ∧ (dropRef s p n).fab = s.fab ∧ (dropRef s p n).eth = s.eth ∧ (dropRef s p n).seqs = s.seqs
    ∧ (dropRef s p n).reqs = s.reqs ∧ (dropRef s p n).camps = s.camps ∧ (dropRef s p n).hash = s.hash := by
  refine ⟨?_, ?_, ?_, ?_, ?_, ?_, ?_, ?_, ?_, ?_, ?_⟩ <;>
    (simp only [dropRef] <;> (repeat' split) <;> first | (simp; done) | rfl)

@[simp] theorem dropRefs_keeps (p : Nat) (x : List Nat) (s : State) :
    (dropRefs p x s).cairn = s.cairn ∧ (dropRefs p x s).ev = s.ev ∧ (dropRefs p x s).boot = s.boot ∧ (dropRefs p x s).cfg = s.cfg
    ∧ (dropRefs p x s).pw = s.pw ∧ (dropRefs p x s).fab = s.fab ∧ (dropRefs p x s).eth = s.eth ∧ (dropRefs p x s).seqs = s.seqs
    ∧ (dropRefs p x s).reqs = s.reqs ∧ (dropRefs p x s).camps = s.camps ∧ (dropRefs p x s).hash = s.hash := by
  refine ⟨?_, ?_, ?_, ?_, ?_, ?_, ?_, ?_, ?_, ?_, ?_⟩ <;>
    (induction x generalizing s with
    | nil => rfl
    | cons a t ih => rw [dropRefs]; exact (ih _).trans (by first | (simp; done) | ((repeat' split) <;> first | (simp; done) | rfl)))

@[simp] theorem addRefs_keeps (p : Nat) (x : List Nat) (s : State) :
    (addRefs p x s).cairn = s.cairn ∧ (addRefs p x s).ev = s.ev ∧ (addRefs p x s).boot = s.boot ∧ (addRefs p x s).cfg = s.cfg
    ∧ (addRefs p x s).pw = s.pw ∧ (addRefs p x s).mem = s.mem ∧ (addRefs p x s).fab = s.fab ∧ (addRefs p x s).eth = s.eth
    ∧ (addRefs p x s).seqs = s.seqs ∧ (addRefs p x s).reqs = s.reqs ∧ (addRefs p x s).camps = s.camps ∧ (addRefs p x s).hash = s.hash := by
  refine ⟨?_, ?_, ?_, ?_, ?_, ?_, ?_, ?_, ?_, ?_, ?_, ?_⟩ <;>
    (induction x generalizing s with
    | nil => rfl
    | cons a t ih => rw [addRefs]; exact (ih _).trans (by first | (simp; done) | ((repeat' split) <;> first | (simp; done) | rfl)))

@[simp] theorem freePages_keeps (p : Nat) (x : List Nat) (s : State) :
    (freePages p x s).cairn = s.cairn ∧ (freePages p x s).ev = s.ev ∧ (freePages p x s).boot = s.boot ∧ (freePages p x s).cfg = s.cfg
    ∧ (freePages p x s).pw = s.pw ∧ (freePages p x s).fab = s.fab ∧ (freePages p x s).eth = s.eth ∧ (freePages p x s).seqs = s.seqs
    ∧ (freePages p x s).reqs = s.reqs ∧ (freePages p x s).camps = s.camps ∧ (freePages p x s).hash = s.hash := by
  refine ⟨?_, ?_, ?_, ?_, ?_, ?_, ?_, ?_, ?_, ?_, ?_⟩ <;>
    (induction x generalizing s with
    | nil => rfl
    | cons a t ih => rw [freePages]; exact (ih _).trans (by first | (simp; done) | ((repeat' split) <;> first | (simp; done) | rfl)))

@[simp] theorem discardAppends_keeps (s : State) (i : Nat) :
    (discardAppends s i).cairn = s.cairn ∧ (discardAppends s i).ev = s.ev ∧ (discardAppends s i).boot = s.boot
    ∧ (discardAppends s i).cfg = s.cfg ∧ (discardAppends s i).pw = s.pw ∧ (discardAppends s i).fab = s.fab
    ∧ (discardAppends s i).eth = s.eth ∧ (discardAppends s i).reqs = s.reqs ∧ (discardAppends s i).camps = s.camps
    ∧ (discardAppends s i).hash = s.hash := by
  refine ⟨?_, ?_, ?_, ?_, ?_, ?_, ?_, ?_, ?_, ?_⟩ <;>
    simp [discardAppends]

@[simp] theorem discardAll_keeps (x : List Nat) (s : State) :
    (discardAll x s).cairn = s.cairn ∧ (discardAll x s).ev = s.ev ∧ (discardAll x s).boot = s.boot ∧ (discardAll x s).cfg = s.cfg
    ∧ (discardAll x s).pw = s.pw ∧ (discardAll x s).fab = s.fab ∧ (discardAll x s).eth = s.eth ∧ (discardAll x s).reqs = s.reqs
    ∧ (discardAll x s).camps = s.camps ∧ (discardAll x s).hash = s.hash := by
  refine ⟨?_, ?_, ?_, ?_, ?_, ?_, ?_, ?_, ?_, ?_⟩ <;>
    (induction x generalizing s with
    | nil => rfl
    | cons a t ih => rw [discardAll]; exact (ih _).trans (by first | (simp; done) | ((repeat' split) <;> first | (simp; done) | rfl)))

@[simp] theorem writeEntry_keeps (s : State) (fn : Nat) (ring : Nat) (k : Ring) (bytes : List Byte) (int : Bool) :
    (writeEntry s fn ring k bytes int).cairn = s.cairn ∧ (writeEntry s fn ring k bytes int).ev = s.ev
    ∧ (writeEntry s fn ring k bytes int).boot = s.boot ∧ (writeEntry s fn ring k bytes int).cfg = s.cfg
    ∧ (writeEntry s fn ring k bytes int).pw = s.pw ∧ (writeEntry s fn ring k bytes int).mem = s.mem
    ∧ (writeEntry s fn ring k bytes int).fab = s.fab ∧ (writeEntry s fn ring k bytes int).eth = s.eth
    ∧ (writeEntry s fn ring k bytes int).seqs = s.seqs ∧ (writeEntry s fn ring k bytes int).reqs = s.reqs
    ∧ (writeEntry s fn ring k bytes int).pitches = s.pitches ∧ (writeEntry s fn ring k bytes int).camps = s.camps
    ∧ (writeEntry s fn ring k bytes int).hash = s.hash := by
  refine ⟨?_, ?_, ?_, ?_, ?_, ?_, ?_, ?_, ?_, ?_, ?_, ?_, ?_⟩ <;>
    (simp only [writeEntry] <;> (repeat' split) <;> first | (simp; done) | rfl)

@[simp] theorem postRing_keeps (s : State) (fn : Nat) (ring : Nat) (bytes : List Byte) (int : Bool) :
    (postRing s fn ring bytes int).cairn = s.cairn ∧ (postRing s fn ring bytes int).ev = s.ev
    ∧ (postRing s fn ring bytes int).boot = s.boot ∧ (postRing s fn ring bytes int).cfg = s.cfg
    ∧ (postRing s fn ring bytes int).pw = s.pw ∧ (postRing s fn ring bytes int).mem = s.mem
    ∧ (postRing s fn ring bytes int).fab = s.fab ∧ (postRing s fn ring bytes int).eth = s.eth
    ∧ (postRing s fn ring bytes int).seqs = s.seqs ∧ (postRing s fn ring bytes int).reqs = s.reqs
    ∧ (postRing s fn ring bytes int).pitches = s.pitches ∧ (postRing s fn ring bytes int).camps = s.camps
    ∧ (postRing s fn ring bytes int).hash = s.hash := by
  refine ⟨?_, ?_, ?_, ?_, ?_, ?_, ?_, ?_, ?_, ?_, ?_, ?_, ?_⟩ <;>
    (simp only [postRing] <;> (repeat' split) <;> first | (simp; done) | rfl)

@[simp] theorem flushHeld_keeps (fn : Nat) (ring : Nat) (x : Nat) (s : State) :
    (flushHeld fn ring x s).cairn = s.cairn ∧ (flushHeld fn ring x s).ev = s.ev ∧ (flushHeld fn ring x s).boot = s.boot
    ∧ (flushHeld fn ring x s).cfg = s.cfg ∧ (flushHeld fn ring x s).pw = s.pw ∧ (flushHeld fn ring x s).mem = s.mem
    ∧ (flushHeld fn ring x s).fab = s.fab ∧ (flushHeld fn ring x s).eth = s.eth ∧ (flushHeld fn ring x s).seqs = s.seqs
    ∧ (flushHeld fn ring x s).reqs = s.reqs ∧ (flushHeld fn ring x s).pitches = s.pitches ∧ (flushHeld fn ring x s).camps = s.camps
    ∧ (flushHeld fn ring x s).hash = s.hash := by
  refine ⟨?_, ?_, ?_, ?_, ?_, ?_, ?_, ?_, ?_, ?_, ?_, ?_, ?_⟩ <;>
    (induction x generalizing s with
    | zero => rfl
    | succ n ih => simp only [flushHeld] <;> (repeat' split) <;> first | rfl | (simp; done) | exact (ih _).trans (by first | (simp; done) | ((repeat' split) <;> first | (simp; done) | rfl)) | (rw [ih]; done) | (rw [ih]; simp; done))

@[simp] theorem solicit_keeps (s : State) (h : FrameHead) :
    (solicit s h).cairn = s.cairn ∧ (solicit s h).ev = s.ev ∧ (solicit s h).boot = s.boot ∧ (solicit s h).cfg = s.cfg
    ∧ (solicit s h).pw = s.pw ∧ (solicit s h).mem = s.mem ∧ (solicit s h).fab = s.fab ∧ (solicit s h).eth = s.eth
    ∧ (solicit s h).seqs = s.seqs ∧ (solicit s h).reqs = s.reqs ∧ (solicit s h).pitches = s.pitches ∧ (solicit s h).camps = s.camps
    ∧ (solicit s h).hash = s.hash := by
  refine ⟨?_, ?_, ?_, ?_, ?_, ?_, ?_, ?_, ?_, ?_, ?_, ?_, ?_⟩ <;>
    (simp only [solicit] <;> (repeat' split) <;> first | (simp; done) | rfl)

@[simp] theorem sendMessage_keeps (s : State) (n : Nat) (type : Nat) (body : List Byte) :
    (sendMessage s n type body).cairn = s.cairn ∧ (sendMessage s n type body).ev = s.ev ∧ (sendMessage s n type body).boot = s.boot
    ∧ (sendMessage s n type body).cfg = s.cfg ∧ (sendMessage s n type body).pw = s.pw ∧ (sendMessage s n type body).mem = s.mem
    ∧ (sendMessage s n type body).fab = s.fab ∧ (sendMessage s n type body).seqs = s.seqs ∧ (sendMessage s n type body).reqs = s.reqs
    ∧ (sendMessage s n type body).pitches = s.pitches ∧ (sendMessage s n type body).camps = s.camps
    ∧ (sendMessage s n type body).hash = s.hash := by
  refine ⟨?_, ?_, ?_, ?_, ?_, ?_, ?_, ?_, ?_, ?_, ?_, ?_⟩ <;>
    simp [sendMessage]

@[simp] theorem sendComplete_keeps (s : State) (n : Nat) (body : List Byte) :
    (sendComplete s n body).cairn = s.cairn ∧ (sendComplete s n body).ev = s.ev ∧ (sendComplete s n body).boot = s.boot
    ∧ (sendComplete s n body).cfg = s.cfg ∧ (sendComplete s n body).pw = s.pw ∧ (sendComplete s n body).mem = s.mem
    ∧ (sendComplete s n body).fab = s.fab ∧ (sendComplete s n body).seqs = s.seqs ∧ (sendComplete s n body).reqs = s.reqs
    ∧ (sendComplete s n body).pitches = s.pitches ∧ (sendComplete s n body).camps = s.camps ∧ (sendComplete s n body).hash = s.hash := by
  refine ⟨?_, ?_, ?_, ?_, ?_, ?_, ?_, ?_, ?_, ?_, ?_, ?_⟩ <;>
    (simp only [sendComplete] <;> (repeat' split) <;> first | (simp; done) | rfl)

@[simp] theorem sendTokens_keeps (n : Nat) (bytes : List Byte) (x : Nat) (y : List Nat) (s : State) :
    (sendTokens n bytes x y s).cairn = s.cairn ∧ (sendTokens n bytes x y s).ev = s.ev ∧ (sendTokens n bytes x y s).boot = s.boot
    ∧ (sendTokens n bytes x y s).cfg = s.cfg ∧ (sendTokens n bytes x y s).pw = s.pw ∧ (sendTokens n bytes x y s).mem = s.mem
    ∧ (sendTokens n bytes x y s).fab = s.fab ∧ (sendTokens n bytes x y s).seqs = s.seqs ∧ (sendTokens n bytes x y s).reqs = s.reqs
    ∧ (sendTokens n bytes x y s).pitches = s.pitches ∧ (sendTokens n bytes x y s).camps = s.camps
    ∧ (sendTokens n bytes x y s).hash = s.hash := by
  refine ⟨?_, ?_, ?_, ?_, ?_, ?_, ?_, ?_, ?_, ?_, ?_, ?_⟩ <;>
    (induction x generalizing y s with
    | zero => rfl
    | succ n ih => simp only [sendTokens] <;> (repeat' split) <;> first | rfl | (simp; done) | exact (ih _).trans (by first | (simp; done) | ((repeat' split) <;> first | (simp; done) | rfl)) | (rw [ih]; done) | (rw [ih]; simp; done))

@[simp] theorem answer_keeps (s : State) (o : Origin) (int : Bool) (bytes : List Byte) (tokens : List Nat) :
    (answer s o int bytes tokens).cairn = s.cairn ∧ (answer s o int bytes tokens).ev = s.ev
    ∧ (answer s o int bytes tokens).boot = s.boot ∧ (answer s o int bytes tokens).cfg = s.cfg ∧ (answer s o int bytes tokens).pw = s.pw
    ∧ (answer s o int bytes tokens).mem = s.mem ∧ (answer s o int bytes tokens).fab = s.fab
    ∧ (answer s o int bytes tokens).seqs = s.seqs ∧ (answer s o int bytes tokens).reqs = s.reqs
    ∧ (answer s o int bytes tokens).pitches = s.pitches ∧ (answer s o int bytes tokens).camps = s.camps
    ∧ (answer s o int bytes tokens).hash = s.hash := by
  refine ⟨?_, ?_, ?_, ?_, ?_, ?_, ?_, ?_, ?_, ?_, ?_, ?_⟩ <;>
    (simp only [answer] <;> (repeat' split) <;> first | (simp; done) | rfl)

@[simp] theorem finish_keeps (s : State) (r : Request) (result : Nat) (endCode : Nat) (handle : Nat) (value : Nat) :
    (finish s r result endCode handle value).cairn = s.cairn ∧ (finish s r result endCode handle value).ev = s.ev
    ∧ (finish s r result endCode handle value).boot = s.boot ∧ (finish s r result endCode handle value).cfg = s.cfg
    ∧ (finish s r result endCode handle value).pw = s.pw ∧ (finish s r result endCode handle value).mem = s.mem
    ∧ (finish s r result endCode handle value).fab = s.fab ∧ (finish s r result endCode handle value).seqs = s.seqs
    ∧ (finish s r result endCode handle value).pitches = s.pitches ∧ (finish s r result endCode handle value).camps = s.camps
    ∧ (finish s r result endCode handle value).hash = s.hash := by
  refine ⟨?_, ?_, ?_, ?_, ?_, ?_, ?_, ?_, ?_, ?_, ?_⟩ <;>
    simp [finish]

@[simp] theorem finishPlain_keeps (s : State) (r : Request) (result : Nat) :
    (finishPlain s r result).cairn = s.cairn ∧ (finishPlain s r result).ev = s.ev ∧ (finishPlain s r result).boot = s.boot
    ∧ (finishPlain s r result).cfg = s.cfg ∧ (finishPlain s r result).pw = s.pw ∧ (finishPlain s r result).mem = s.mem
    ∧ (finishPlain s r result).fab = s.fab ∧ (finishPlain s r result).seqs = s.seqs ∧ (finishPlain s r result).pitches = s.pitches
    ∧ (finishPlain s r result).camps = s.camps ∧ (finishPlain s r result).hash = s.hash := by
  refine ⟨?_, ?_, ?_, ?_, ?_, ?_, ?_, ?_, ?_, ?_, ?_⟩ <;>
    simp [finishPlain]

@[simp] theorem onReq_keeps (s : State) (rid : Nat) (f : Request → Request) :
    (onReq s rid f).cairn = s.cairn ∧ (onReq s rid f).ev = s.ev ∧ (onReq s rid f).boot = s.boot ∧ (onReq s rid f).cfg = s.cfg
    ∧ (onReq s rid f).pw = s.pw ∧ (onReq s rid f).mem = s.mem ∧ (onReq s rid f).fab = s.fab ∧ (onReq s rid f).eth = s.eth
    ∧ (onReq s rid f).seqs = s.seqs ∧ (onReq s rid f).pitches = s.pitches ∧ (onReq s rid f).camps = s.camps
    ∧ (onReq s rid f).hash = s.hash := by
  refine ⟨?_, ?_, ?_, ?_, ?_, ?_, ?_, ?_, ?_, ?_, ?_, ?_⟩ <;>
    simp [onReq]

@[simp] theorem tellGroup_keeps (s : State) (p : Nat) (d : LeadDecision) :
    (tellGroup s p d).cairn = s.cairn ∧ (tellGroup s p d).ev = s.ev ∧ (tellGroup s p d).boot = s.boot ∧ (tellGroup s p d).cfg = s.cfg
    ∧ (tellGroup s p d).pw = s.pw ∧ (tellGroup s p d).mem = s.mem ∧ (tellGroup s p d).fab = s.fab ∧ (tellGroup s p d).eth = s.eth
    ∧ (tellGroup s p d).seqs = s.seqs ∧ (tellGroup s p d).reqs = s.reqs ∧ (tellGroup s p d).camps = s.camps
    ∧ (tellGroup s p d).hash = s.hash := by
  refine ⟨?_, ?_, ?_, ?_, ?_, ?_, ?_, ?_, ?_, ?_, ?_, ?_⟩ <;>
    (simp only [tellGroup] <;> (repeat' split) <;> first | (simp; done) | rfl)

@[simp] theorem endPark_keeps (s : State) (i : Nat) (result : Nat) (value : Nat) (silent : Bool) :
    (endPark s i result value silent).cairn = s.cairn ∧ (endPark s i result value silent).boot = s.boot
    ∧ (endPark s i result value silent).cfg = s.cfg ∧ (endPark s i result value silent).pw = s.pw
    ∧ (endPark s i result value silent).mem = s.mem ∧ (endPark s i result value silent).fab = s.fab
    ∧ (endPark s i result value silent).pitches = s.pitches ∧ (endPark s i result value silent).camps = s.camps
    ∧ (endPark s i result value silent).hash = s.hash := by
  refine ⟨?_, ?_, ?_, ?_, ?_, ?_, ?_, ?_, ?_⟩ <;>
    (simp only [endPark] <;> (repeat' split) <;> first | (simp; done) | rfl)

@[simp] theorem losePark_keeps (s : State) (i : Nat) :
    (losePark s i).cairn = s.cairn ∧ (losePark s i).boot = s.boot ∧ (losePark s i).cfg = s.cfg ∧ (losePark s i).pw = s.pw
    ∧ (losePark s i).mem = s.mem ∧ (losePark s i).fab = s.fab ∧ (losePark s i).pitches = s.pitches ∧ (losePark s i).camps = s.camps
    ∧ (losePark s i).hash = s.hash := by
  refine ⟨?_, ?_, ?_, ?_, ?_, ?_, ?_, ?_, ?_⟩ <;>
    (simp only [losePark] <;> (repeat' split) <;> first | (simp; done) | rfl)

@[simp] theorem endHeld_keeps (result : Nat) (x : List Request) (s : State) :
    (endHeld result x s).cairn = s.cairn ∧ (endHeld result x s).ev = s.ev ∧ (endHeld result x s).boot = s.boot
    ∧ (endHeld result x s).cfg = s.cfg ∧ (endHeld result x s).pw = s.pw ∧ (endHeld result x s).mem = s.mem
    ∧ (endHeld result x s).fab = s.fab ∧ (endHeld result x s).seqs = s.seqs ∧ (endHeld result x s).pitches = s.pitches
    ∧ (endHeld result x s).camps = s.camps ∧ (endHeld result x s).hash = s.hash := by
  refine ⟨?_, ?_, ?_, ?_, ?_, ?_, ?_, ?_, ?_, ?_, ?_⟩ <;>
    (induction x generalizing s with
    | nil => rfl
    | cons a t ih => rw [endHeld]; exact (ih _).trans (by first | (simp; done) | ((repeat' split) <;> first | (simp; done) | rfl)))

@[simp] theorem holdSeq_keeps (s0 : State) (i : Nat) (cause : Nat) (result : Nat) :
    (holdSeq s0 i cause result).cairn = s0.cairn ∧ (holdSeq s0 i cause result).boot = s0.boot
    ∧ (holdSeq s0 i cause result).cfg = s0.cfg ∧ (holdSeq s0 i cause result).pw = s0.pw ∧ (holdSeq s0 i cause result).mem = s0.mem
    ∧ (holdSeq s0 i cause result).fab = s0.fab ∧ (holdSeq s0 i cause result).pitches = s0.pitches
    ∧ (holdSeq s0 i cause result).camps = s0.camps ∧ (holdSeq s0 i cause result).hash = s0.hash := by
  refine ⟨?_, ?_, ?_, ?_, ?_, ?_, ?_, ?_, ?_⟩ <;>
    (simp only [holdSeq] <;> (repeat' split) <;> first | (simp; done) | rfl)

@[simp] theorem holdAll_keeps (cause : Nat) (result : Nat) (x : List Nat) (s : State) :
    (holdAll cause result x s).cairn = s.cairn ∧ (holdAll cause result x s).boot = s.boot ∧ (holdAll cause result x s).cfg = s.cfg
    ∧ (holdAll cause result x s).pw = s.pw ∧ (holdAll cause result x s).mem = s.mem ∧ (holdAll cause result x s).fab = s.fab
    ∧ (holdAll cause result x s).pitches = s.pitches ∧ (holdAll cause result x s).camps = s.camps
    ∧ (holdAll cause result x s).hash = s.hash := by
  refine ⟨?_, ?_, ?_, ?_, ?_, ?_, ?_, ?_, ?_⟩ <;>
    (induction x generalizing s with
    | nil => rfl
    | cons a t ih => rw [holdAll]; exact (ih _).trans (by first | (simp; done) | ((repeat' split) <;> first | (simp; done) | rfl)))

@[simp] theorem leaveBatch_keeps (s : State) (p : Nat) (is : List Nat) :
    (leaveBatch s p is).cairn = s.cairn ∧ (leaveBatch s p is).ev = s.ev ∧ (leaveBatch s p is).boot = s.boot
    ∧ (leaveBatch s p is).cfg = s.cfg ∧ (leaveBatch s p is).pw = s.pw ∧ (leaveBatch s p is).mem = s.mem
    ∧ (leaveBatch s p is).fab = s.fab ∧ (leaveBatch s p is).eth = s.eth ∧ (leaveBatch s p is).seqs = s.seqs
    ∧ (leaveBatch s p is).reqs = s.reqs ∧ (leaveBatch s p is).camps = s.camps ∧ (leaveBatch s p is).hash = s.hash := by
  refine ⟨?_, ?_, ?_, ?_, ?_, ?_, ?_, ?_, ?_, ?_, ?_, ?_⟩ <;>
    simp [leaveBatch]

@[simp] theorem holdAtBoundary_keeps (s : State) (i : Nat) (cause : Nat) (result : Nat) :
    (holdAtBoundary s i cause result).cairn = s.cairn ∧ (holdAtBoundary s i cause result).boot = s.boot
    ∧ (holdAtBoundary s i cause result).cfg = s.cfg ∧ (holdAtBoundary s i cause result).pw = s.pw
    ∧ (holdAtBoundary s i cause result).fab = s.fab ∧ (holdAtBoundary s i cause result).camps = s.camps
    ∧ (holdAtBoundary s i cause result).hash = s.hash := by
  refine ⟨?_, ?_, ?_, ?_, ?_, ?_, ?_⟩ <;>
    simp [holdAtBoundary]

@[simp] theorem holdAllAtBoundary_keeps (cause : Nat) (result : Nat) (x : List Nat) (s : State) :
    (holdAllAtBoundary cause result x s).cairn = s.cairn ∧ (holdAllAtBoundary cause result x s).boot = s.boot
    ∧ (holdAllAtBoundary cause result x s).cfg = s.cfg ∧ (holdAllAtBoundary cause result x s).pw = s.pw
    ∧ (holdAllAtBoundary cause result x s).fab = s.fab ∧ (holdAllAtBoundary cause result x s).camps = s.camps
    ∧ (holdAllAtBoundary cause result x s).hash = s.hash := by
  refine ⟨?_, ?_, ?_, ?_, ?_, ?_, ?_⟩ <;>
    (induction x generalizing s with
    | nil => rfl
    | cons a t ih => rw [holdAllAtBoundary]; exact (ih _).trans (by first | (simp; done) | ((repeat' split) <;> first | (simp; done) | rfl)))

@[simp] theorem endQueued_keeps (x : List Request) (s : State) :
    (endQueued x s).cairn = s.cairn ∧ (endQueued x s).ev = s.ev ∧ (endQueued x s).boot = s.boot ∧ (endQueued x s).cfg = s.cfg
    ∧ (endQueued x s).pw = s.pw ∧ (endQueued x s).mem = s.mem ∧ (endQueued x s).fab = s.fab ∧ (endQueued x s).seqs = s.seqs
    ∧ (endQueued x s).pitches = s.pitches ∧ (endQueued x s).camps = s.camps ∧ (endQueued x s).hash = s.hash := by
  refine ⟨?_, ?_, ?_, ?_, ?_, ?_, ?_, ?_, ?_, ?_, ?_⟩ <;>
    (induction x generalizing s with
    | nil => rfl
    | cons a t ih => rw [endQueued]; exact (ih _).trans (by first | (simp; done) | ((repeat' split) <;> first | (simp; done) | rfl)))

@[simp] theorem abortPark_keeps (s : State) (i : Nat) (result : Nat) (value : Nat) (silent : Bool) :
    (abortPark s i result value silent).cairn = s.cairn ∧ (abortPark s i result value silent).boot = s.boot
    ∧ (abortPark s i result value silent).cfg = s.cfg ∧ (abortPark s i result value silent).pw = s.pw
    ∧ (abortPark s i result value silent).mem = s.mem ∧ (abortPark s i result value silent).fab = s.fab
    ∧ (abortPark s i result value silent).pitches = s.pitches ∧ (abortPark s i result value silent).camps = s.camps
    ∧ (abortPark s i result value silent).hash = s.hash := by
  refine ⟨?_, ?_, ?_, ?_, ?_, ?_, ?_, ?_, ?_⟩ <;>
    (simp only [abortPark] <;> (repeat' split) <;> first | (simp; done) | rfl)

@[simp] theorem devicePark_keeps (s : State) (r : PitchRecord) (i : Nat) :
    (devicePark s r i).cairn = s.cairn ∧ (devicePark s r i).boot = s.boot ∧ (devicePark s r i).cfg = s.cfg
    ∧ (devicePark s r i).pw = s.pw ∧ (devicePark s r i).mem = s.mem ∧ (devicePark s r i).fab = s.fab
    ∧ (devicePark s r i).camps = s.camps ∧ (devicePark s r i).hash = s.hash := by
  refine ⟨?_, ?_, ?_, ?_, ?_, ?_, ?_, ?_⟩ <;>
    (simp only [devicePark] <;> (repeat' split) <;> first | (simp; done) | rfl)

@[simp] theorem deviceParks_keeps (r : PitchRecord) (x : List Nat) (s : State) :
    (deviceParks r x s).cairn = s.cairn ∧ (deviceParks r x s).boot = s.boot ∧ (deviceParks r x s).cfg = s.cfg
    ∧ (deviceParks r x s).pw = s.pw ∧ (deviceParks r x s).mem = s.mem ∧ (deviceParks r x s).fab = s.fab
    ∧ (deviceParks r x s).camps = s.camps ∧ (deviceParks r x s).hash = s.hash := by
  refine ⟨?_, ?_, ?_, ?_, ?_, ?_, ?_, ?_⟩ <;>
    (induction x generalizing s with
    | nil => rfl
    | cons a t ih => rw [deviceParks]; exact (ih _).trans (by first | (simp; done) | ((repeat' split) <;> first | (simp; done) | rfl)))

@[simp] theorem stopCamps_keeps (s : State) (p : Nat) :
    (stopCamps s p).cairn = s.cairn ∧ (stopCamps s p).ev = s.ev ∧ (stopCamps s p).boot = s.boot ∧ (stopCamps s p).cfg = s.cfg
    ∧ (stopCamps s p).pw = s.pw ∧ (stopCamps s p).mem = s.mem ∧ (stopCamps s p).fab = s.fab ∧ (stopCamps s p).eth = s.eth
    ∧ (stopCamps s p).seqs = s.seqs ∧ (stopCamps s p).reqs = s.reqs ∧ (stopCamps s p).pitches = s.pitches
    ∧ (stopCamps s p).hash = s.hash := by
  refine ⟨?_, ?_, ?_, ?_, ?_, ?_, ?_, ?_, ?_, ?_, ?_, ?_⟩ <;>
    simp [stopCamps]

@[simp] theorem closeEpochs_keeps (s : State) (p : Nat) :
    (closeEpochs s p).cairn = s.cairn ∧ (closeEpochs s p).ev = s.ev ∧ (closeEpochs s p).boot = s.boot ∧ (closeEpochs s p).cfg = s.cfg
    ∧ (closeEpochs s p).pw = s.pw ∧ (closeEpochs s p).mem = s.mem ∧ (closeEpochs s p).fab = s.fab ∧ (closeEpochs s p).eth = s.eth
    ∧ (closeEpochs s p).seqs = s.seqs ∧ (closeEpochs s p).reqs = s.reqs ∧ (closeEpochs s p).pitches = s.pitches
    ∧ (closeEpochs s p).camps = s.camps := by
  refine ⟨?_, ?_, ?_, ?_, ?_, ?_, ?_, ?_, ?_, ?_, ?_, ?_⟩ <;>
    simp [closeEpochs]

@[simp] theorem freeLists_keeps (p : Nat) (x : List Chosen) (s : State) :
    (freeLists p x s).cairn = s.cairn ∧ (freeLists p x s).ev = s.ev ∧ (freeLists p x s).boot = s.boot ∧ (freeLists p x s).cfg = s.cfg
    ∧ (freeLists p x s).pw = s.pw ∧ (freeLists p x s).fab = s.fab ∧ (freeLists p x s).eth = s.eth ∧ (freeLists p x s).seqs = s.seqs
    ∧ (freeLists p x s).reqs = s.reqs ∧ (freeLists p x s).camps = s.camps ∧ (freeLists p x s).hash = s.hash := by
  refine ⟨?_, ?_, ?_, ?_, ?_, ?_, ?_, ?_, ?_, ?_, ?_⟩ <;>
    (induction x generalizing s with
    | nil => rfl
    | cons a t ih => rw [freeLists]; exact (ih _).trans (by first | (simp; done) | ((repeat' split) <;> first | (simp; done) | rfl)))

@[simp] theorem abandonStep_keeps (s : State) (p : Nat) :
    (abandonStep s p).cairn = s.cairn ∧ (abandonStep s p).ev = s.ev ∧ (abandonStep s p).boot = s.boot ∧ (abandonStep s p).cfg = s.cfg
    ∧ (abandonStep s p).pw = s.pw ∧ (abandonStep s p).fab = s.fab ∧ (abandonStep s p).eth = s.eth ∧ (abandonStep s p).reqs = s.reqs := by
  refine ⟨?_, ?_, ?_, ?_, ?_, ?_, ?_, ?_⟩ <;>
    simp [abandonStep]

@[simp] theorem refillSlots_keeps (r : PitchRecord) (rel : Nat) (x : NMap Slot) (s : State) :
    (refillSlots r rel x s).cairn = s.cairn ∧ (refillSlots r rel x s).ev = s.ev ∧ (refillSlots r rel x s).boot = s.boot
    ∧ (refillSlots r rel x s).cfg = s.cfg ∧ (refillSlots r rel x s).pw = s.pw ∧ (refillSlots r rel x s).fab = s.fab
    ∧ (refillSlots r rel x s).eth = s.eth ∧ (refillSlots r rel x s).seqs = s.seqs ∧ (refillSlots r rel x s).reqs = s.reqs
    ∧ (refillSlots r rel x s).pitches = s.pitches ∧ (refillSlots r rel x s).hash = s.hash := by
  refine ⟨?_, ?_, ?_, ?_, ?_, ?_, ?_, ?_, ?_, ?_, ?_⟩ <;>
    (induction x generalizing s with
    | nil => rfl
    | cons a t ih => rw [refillSlots]; exact (ih _).trans (by first | (simp; done) | ((repeat' split) <;> first | (simp; done) | rfl)))

@[simp] theorem fenceOne_keeps (s : State) (camp : Nat) (core : Nat) :
    (fenceOne s camp core).cairn = s.cairn ∧ (fenceOne s camp core).boot = s.boot ∧ (fenceOne s camp core).cfg = s.cfg
    ∧ (fenceOne s camp core).pw = s.pw ∧ (fenceOne s camp core).fab = s.fab ∧ (fenceOne s camp core).hash = s.hash := by
  refine ⟨?_, ?_, ?_, ?_, ?_, ?_⟩ <;>
    (simp only [fenceOne] <;> (repeat' split) <;> first | (simp; done) | rfl)

@[simp] theorem residueEvent_keeps (s : State) (camp : Nat) (core : Nat) (p : Nat) (code : Nat) (m : Mismatch) (spares : Nat) :
    (residueEvent s camp core p code m spares).cairn = s.cairn ∧ (residueEvent s camp core p code m spares).boot = s.boot
    ∧ (residueEvent s camp core p code m spares).cfg = s.cfg ∧ (residueEvent s camp core p code m spares).pw = s.pw
    ∧ (residueEvent s camp core p code m spares).mem = s.mem ∧ (residueEvent s camp core p code m spares).fab = s.fab
    ∧ (residueEvent s camp core p code m spares).eth = s.eth ∧ (residueEvent s camp core p code m spares).seqs = s.seqs
    ∧ (residueEvent s camp core p code m spares).reqs = s.reqs ∧ (residueEvent s camp core p code m spares).pitches = s.pitches
    ∧ (residueEvent s camp core p code m spares).camps = s.camps ∧ (residueEvent s camp core p code m spares).hash = s.hash := by
  refine ⟨?_, ?_, ?_, ?_, ?_, ?_, ?_, ?_, ?_, ?_, ?_, ?_⟩ <;>
    simp [residueEvent]

@[simp] theorem loseCore_keeps (s : State) (camp : Nat) (core : Nat) (p : Nat) (m : Mismatch) :
    (loseCore s camp core p m).cairn = s.cairn ∧ (loseCore s camp core p m).boot = s.boot ∧ (loseCore s camp core p m).cfg = s.cfg
    ∧ (loseCore s camp core p m).pw = s.pw ∧ (loseCore s camp core p m).fab = s.fab ∧ (loseCore s camp core p m).hash = s.hash := by
  refine ⟨?_, ?_, ?_, ?_, ?_, ?_⟩ <;>
    (simp only [loseCore] <;> (repeat' split) <;> first | (simp; done) | rfl)

@[simp] theorem retireLanes_keeps (camp : Nat) (core : Nat) (p : Nat) (x : List Mismatch) (s : State) :
    (retireLanes camp core p x s).cairn = s.cairn ∧ (retireLanes camp core p x s).boot = s.boot
    ∧ (retireLanes camp core p x s).cfg = s.cfg ∧ (retireLanes camp core p x s).pw = s.pw ∧ (retireLanes camp core p x s).mem = s.mem
    ∧ (retireLanes camp core p x s).fab = s.fab ∧ (retireLanes camp core p x s).eth = s.eth
    ∧ (retireLanes camp core p x s).seqs = s.seqs ∧ (retireLanes camp core p x s).reqs = s.reqs
    ∧ (retireLanes camp core p x s).pitches = s.pitches ∧ (retireLanes camp core p x s).hash = s.hash := by
  refine ⟨?_, ?_, ?_, ?_, ?_, ?_, ?_, ?_, ?_, ?_, ?_⟩ <;>
    (induction x generalizing s with
    | nil => rfl
    | cons a t ih => rw [retireLanes]; exact (ih _).trans (by first | (simp; done) | ((repeat' split) <;> first | (simp; done) | rfl)))

@[simp] theorem makeRepair_keeps (s : State) (p : Nat) (x : Repair) :
    (makeRepair s p x).cairn = s.cairn ∧ (makeRepair s p x).boot = s.boot ∧ (makeRepair s p x).cfg = s.cfg
    ∧ (makeRepair s p x).pw = s.pw ∧ (makeRepair s p x).fab = s.fab ∧ (makeRepair s p x).hash = s.hash := by
  refine ⟨?_, ?_, ?_, ?_, ?_, ?_⟩ <;>
    (simp only [makeRepair] <;> (repeat' split) <;> first | (simp; done) | rfl)

@[simp] theorem makeRepairs_keeps (p : Nat) (x : List Repair) (s : State) :
    (makeRepairs p x s).cairn = s.cairn ∧ (makeRepairs p x s).boot = s.boot ∧ (makeRepairs p x s).cfg = s.cfg
    ∧ (makeRepairs p x s).pw = s.pw ∧ (makeRepairs p x s).fab = s.fab ∧ (makeRepairs p x s).hash = s.hash := by
  refine ⟨?_, ?_, ?_, ?_, ?_, ?_⟩ <;>
    (induction x generalizing s with
    | nil => rfl
    | cons a t ih => rw [makeRepairs]; exact (ih _).trans (by first | (simp; done) | ((repeat' split) <;> first | (simp; done) | rfl)))

@[simp] theorem repairNow_keeps (s : State) (p : Nat) :
    (repairNow s p).cairn = s.cairn ∧ (repairNow s p).boot = s.boot ∧ (repairNow s p).cfg = s.cfg ∧ (repairNow s p).pw = s.pw
    ∧ (repairNow s p).fab = s.fab ∧ (repairNow s p).hash = s.hash := by
  refine ⟨?_, ?_, ?_, ?_, ?_, ?_⟩ <;>
    simp [repairNow]

@[simp] theorem rerunStep_keeps (s : State) (p : Nat) :
    (rerunStep s p).cairn = s.cairn ∧ (rerunStep s p).boot = s.boot ∧ (rerunStep s p).cfg = s.cfg ∧ (rerunStep s p).pw = s.pw
    ∧ (rerunStep s p).fab = s.fab := by
  refine ⟨?_, ?_, ?_, ?_, ?_⟩ <;>
    simp [rerunStep]

@[simp] theorem failStep_keeps (s : State) (p : Nat) (result : Nat) :
    (failStep s p result).cairn = s.cairn ∧ (failStep s p result).boot = s.boot ∧ (failStep s p result).cfg = s.cfg
    ∧ (failStep s p result).pw = s.pw ∧ (failStep s p result).fab = s.fab := by
  refine ⟨?_, ?_, ?_, ?_, ?_⟩ <;>
    simp [failStep]

@[simp] theorem uncorrectableWord_keeps (s : State) (p : Nat) :
    (uncorrectableWord s p).cairn = s.cairn ∧ (uncorrectableWord s p).boot = s.boot ∧ (uncorrectableWord s p).cfg = s.cfg
    ∧ (uncorrectableWord s p).pw = s.pw ∧ (uncorrectableWord s p).fab = s.fab := by
  refine ⟨?_, ?_, ?_, ?_, ?_⟩ <;>
    (simp only [uncorrectableWord] <;> (repeat' split) <;> first | (simp; done) | rfl)

@[simp] theorem fenceCamp_keeps (s : State) (camp : Nat) (core : Nat) :
    (fenceCamp s camp core).cairn = s.cairn ∧ (fenceCamp s camp core).boot = s.boot ∧ (fenceCamp s camp core).cfg = s.cfg
    ∧ (fenceCamp s camp core).pw = s.pw ∧ (fenceCamp s camp core).fab = s.fab := by
  refine ⟨?_, ?_, ?_, ?_, ?_⟩ <;>
    (simp only [fenceCamp] <;> (repeat' split) <;> first | (simp; done) | rfl)

@[simp] theorem raiseFault_keeps (s : State) (camp : Nat) (f : CampFault) (opcode : Nat) (attempt : Nat) :
    (raiseFault s camp f opcode attempt).cairn = s.cairn ∧ (raiseFault s camp f opcode attempt).boot = s.boot
    ∧ (raiseFault s camp f opcode attempt).cfg = s.cfg ∧ (raiseFault s camp f opcode attempt).pw = s.pw
    ∧ (raiseFault s camp f opcode attempt).fab = s.fab := by
  refine ⟨?_, ?_, ?_, ?_, ?_⟩ <;>
    (simp only [raiseFault] <;> (repeat' split) <;> first | (simp; done) | rfl)

@[simp] theorem moveTo_keeps (s : State) (camp : Nat) (ls : List LoopFrame) (pc : Nat) :
    (moveTo s camp ls pc).cairn = s.cairn ∧ (moveTo s camp ls pc).boot = s.boot ∧ (moveTo s camp ls pc).cfg = s.cfg
    ∧ (moveTo s camp ls pc).pw = s.pw ∧ (moveTo s camp ls pc).fab = s.fab := by
  refine ⟨?_, ?_, ?_, ?_, ?_⟩ <;>
    (simp only [moveTo] <;> (repeat' split) <;> first | (simp; done) | rfl)

@[simp] theorem advance_keeps (s : State) (camp : Nat) :
    (advance s camp).cairn = s.cairn ∧ (advance s camp).boot = s.boot ∧ (advance s camp).cfg = s.cfg ∧ (advance s camp).pw = s.pw
    ∧ (advance s camp).fab = s.fab := by
  refine ⟨?_, ?_, ?_, ?_, ?_⟩ <;>
    (simp only [advance] <;> (repeat' split) <;> first | (simp; done) | rfl)

@[simp] theorem block_keeps (s : State) (camp : Nat) (w : CmdWord) (r : WaitReason) :
    (block s camp w r).cairn = s.cairn ∧ (block s camp w r).ev = s.ev ∧ (block s camp w r).boot = s.boot
    ∧ (block s camp w r).cfg = s.cfg ∧ (block s camp w r).pw = s.pw ∧ (block s camp w r).mem = s.mem ∧ (block s camp w r).fab = s.fab
    ∧ (block s camp w r).eth = s.eth ∧ (block s camp w r).seqs = s.seqs ∧ (block s camp w r).reqs = s.reqs
    ∧ (block s camp w r).pitches = s.pitches ∧ (block s camp w r).hash = s.hash := by
  refine ⟨?_, ?_, ?_, ?_, ?_, ?_, ?_, ?_, ?_, ?_, ?_, ?_⟩ <;>
    (simp only [block] <;> (repeat' split) <;> first | (simp; done) | rfl)

@[simp] theorem putHash_keeps (s : State) (i : Nat) (h : HashInst) :
    (putHash s i h).cairn = s.cairn ∧ (putHash s i h).ev = s.ev ∧ (putHash s i h).boot = s.boot ∧ (putHash s i h).cfg = s.cfg
    ∧ (putHash s i h).pw = s.pw ∧ (putHash s i h).mem = s.mem ∧ (putHash s i h).fab = s.fab ∧ (putHash s i h).eth = s.eth
    ∧ (putHash s i h).seqs = s.seqs ∧ (putHash s i h).reqs = s.reqs ∧ (putHash s i h).pitches = s.pitches
    ∧ (putHash s i h).camps = s.camps := by
  refine ⟨?_, ?_, ?_, ?_, ?_, ?_, ?_, ?_, ?_, ?_, ?_, ?_⟩ <;>
    simp [putHash]

@[simp] theorem releaseWaiter_keeps (s : State) (p : Nat) (n : Nat) (camp : Nat) :
    (releaseWaiter s p n camp).cairn = s.cairn ∧ (releaseWaiter s p n camp).boot = s.boot ∧ (releaseWaiter s p n camp).cfg = s.cfg
    ∧ (releaseWaiter s p n camp).pw = s.pw ∧ (releaseWaiter s p n camp).fab = s.fab := by
  refine ⟨?_, ?_, ?_, ?_, ?_⟩ <;>
    (simp only [releaseWaiter] <;> (repeat' split) <;> first | (simp; done) | rfl)

@[simp] theorem releaseWaiters_keeps (p : Nat) (n : Nat) (x : List Nat) (s : State) :
    (releaseWaiters p n x s).cairn = s.cairn ∧ (releaseWaiters p n x s).boot = s.boot ∧ (releaseWaiters p n x s).cfg = s.cfg
    ∧ (releaseWaiters p n x s).pw = s.pw ∧ (releaseWaiters p n x s).fab = s.fab := by
  refine ⟨?_, ?_, ?_, ?_, ?_⟩ <;>
    (induction x generalizing s with
    | nil => rfl
    | cons a t ih => rw [releaseWaiters]; exact (ih _).trans (by first | (simp; done) | ((repeat' split) <;> first | (simp; done) | rfl)))

@[simp] theorem pageLost_keeps (s : State) (p : Nat) (n : Nat) (copy : Nat) (code : Nat) :
    (pageLost s p n copy code).cairn = s.cairn ∧ (pageLost s p n copy code).boot = s.boot ∧ (pageLost s p n copy code).cfg = s.cfg
    ∧ (pageLost s p n copy code).pw = s.pw ∧ (pageLost s p n copy code).fab = s.fab ∧ (pageLost s p n copy code).camps = s.camps
    ∧ (pageLost s p n copy code).hash = s.hash := by
  refine ⟨?_, ?_, ?_, ?_, ?_, ?_, ?_⟩ <;>
    (simp only [pageLost] <;> (repeat' split) <;> first | (simp; done) | rfl)

@[simp] theorem pagesLost_keeps (p : Nat) (copy : Nat) (x : List Nat) (s : State) :
    (pagesLost p copy x s).cairn = s.cairn ∧ (pagesLost p copy x s).boot = s.boot ∧ (pagesLost p copy x s).cfg = s.cfg
    ∧ (pagesLost p copy x s).pw = s.pw ∧ (pagesLost p copy x s).fab = s.fab ∧ (pagesLost p copy x s).camps = s.camps
    ∧ (pagesLost p copy x s).hash = s.hash := by
  refine ⟨?_, ?_, ?_, ?_, ?_, ?_, ?_⟩ <;>
    (induction x generalizing s with
    | nil => rfl
    | cons a t ih => rw [pagesLost]; exact (ih _).trans (by first | (simp; done) | ((repeat' split) <;> first | (simp; done) | rfl)))

@[simp] theorem markChannel_keeps (s : State) (ch : Nat) (seconds : Nat) :
    (markChannel s ch seconds).cairn = s.cairn ∧ (markChannel s ch seconds).boot = s.boot ∧ (markChannel s ch seconds).cfg = s.cfg
    ∧ (markChannel s ch seconds).pw = s.pw ∧ (markChannel s ch seconds).fab = s.fab ∧ (markChannel s ch seconds).eth = s.eth
    ∧ (markChannel s ch seconds).seqs = s.seqs ∧ (markChannel s ch seconds).reqs = s.reqs
    ∧ (markChannel s ch seconds).pitches = s.pitches ∧ (markChannel s ch seconds).camps = s.camps
    ∧ (markChannel s ch seconds).hash = s.hash := by
  refine ⟨?_, ?_, ?_, ?_, ?_, ?_, ?_, ?_, ?_, ?_, ?_⟩ <;>
    (simp only [markChannel] <;> (repeat' split) <;> first | (simp; done) | rfl)

@[simp] theorem countCorrection_keeps (s : State) (ch : Nat) :
    (countCorrection s ch).cairn = s.cairn ∧ (countCorrection s ch).boot = s.boot ∧ (countCorrection s ch).cfg = s.cfg
    ∧ (countCorrection s ch).pw = s.pw ∧ (countCorrection s ch).fab = s.fab ∧ (countCorrection s ch).eth = s.eth
    ∧ (countCorrection s ch).seqs = s.seqs ∧ (countCorrection s ch).reqs = s.reqs ∧ (countCorrection s ch).pitches = s.pitches
    ∧ (countCorrection s ch).camps = s.camps ∧ (countCorrection s ch).hash = s.hash := by
  refine ⟨?_, ?_, ?_, ?_, ?_, ?_, ?_, ?_, ?_, ?_, ?_⟩ <;>
    (simp only [countCorrection] <;> (repeat' split) <;> first | (simp; done) | rfl)

@[simp] theorem hbmBad_keeps (s : State) (source : Nat) (da : Nat) (address : Bool) :
    (hbmBad s source da address).cairn = s.cairn ∧ (hbmBad s source da address).boot = s.boot
    ∧ (hbmBad s source da address).cfg = s.cfg ∧ (hbmBad s source da address).pw = s.pw ∧ (hbmBad s source da address).fab = s.fab
    ∧ (hbmBad s source da address).eth = s.eth ∧ (hbmBad s source da address).seqs = s.seqs
    ∧ (hbmBad s source da address).reqs = s.reqs ∧ (hbmBad s source da address).pitches = s.pitches
    ∧ (hbmBad s source da address).camps = s.camps ∧ (hbmBad s source da address).hash = s.hash := by
  refine ⟨?_, ?_, ?_, ?_, ?_, ?_, ?_, ?_, ?_, ?_, ?_⟩ <;>
    simp [hbmBad]

@[simp] theorem hotCopyBad_keeps (s : State) (p : Nat) (n : Nat) :
    (hotCopyBad s p n).cairn = s.cairn ∧ (hotCopyBad s p n).boot = s.boot ∧ (hotCopyBad s p n).cfg = s.cfg
    ∧ (hotCopyBad s p n).pw = s.pw ∧ (hotCopyBad s p n).fab = s.fab ∧ (hotCopyBad s p n).camps = s.camps
    ∧ (hotCopyBad s p n).hash = s.hash := by
  refine ⟨?_, ?_, ?_, ?_, ?_, ?_, ?_⟩ <;>
    (simp only [hotCopyBad] <;> (repeat' split) <;> first | (simp; done) | rfl)

@[simp] theorem removeNode_keeps (s : State) (p : Nat) (n : Nat) :
    (removeNode s p n).cairn = s.cairn ∧ (removeNode s p n).ev = s.ev ∧ (removeNode s p n).boot = s.boot
    ∧ (removeNode s p n).cfg = s.cfg ∧ (removeNode s p n).pw = s.pw ∧ (removeNode s p n).fab = s.fab ∧ (removeNode s p n).eth = s.eth
    ∧ (removeNode s p n).seqs = s.seqs ∧ (removeNode s p n).reqs = s.reqs ∧ (removeNode s p n).camps = s.camps
    ∧ (removeNode s p n).hash = s.hash := by
  refine ⟨?_, ?_, ?_, ?_, ?_, ?_, ?_, ?_, ?_, ?_, ?_⟩ <;>
    (simp only [removeNode] <;> (repeat' split) <;> first | (simp; done) | rfl)

@[simp] theorem rerunAll_keeps (x : List Nat) (s : State) :
    (rerunAll x s).cairn = s.cairn ∧ (rerunAll x s).boot = s.boot ∧ (rerunAll x s).cfg = s.cfg ∧ (rerunAll x s).pw = s.pw
    ∧ (rerunAll x s).fab = s.fab := by
  refine ⟨?_, ?_, ?_, ?_, ?_⟩ <;>
    (induction x generalizing s with
    | nil => rfl
    | cons a t ih => rw [rerunAll]; exact (ih _).trans (by first | (simp; done) | ((repeat' split) <;> first | (simp; done) | rfl)))

@[simp] theorem larderBad_keeps (s : State) (source : Nat) (p : Nat) (da : Nat) :
    (larderBad s source p da).cairn = s.cairn ∧ (larderBad s source p da).boot = s.boot ∧ (larderBad s source p da).cfg = s.cfg
    ∧ (larderBad s source p da).pw = s.pw ∧ (larderBad s source p da).mem = s.mem ∧ (larderBad s source p da).fab = s.fab
    ∧ (larderBad s source p da).eth = s.eth ∧ (larderBad s source p da).seqs = s.seqs ∧ (larderBad s source p da).reqs = s.reqs
    ∧ (larderBad s source p da).pitches = s.pitches ∧ (larderBad s source p da).camps = s.camps
    ∧ (larderBad s source p da).hash = s.hash := by
  refine ⟨?_, ?_, ?_, ?_, ?_, ?_, ?_, ?_, ?_, ?_, ?_, ?_⟩ <;>
    simp [larderBad]

@[simp] theorem cxlEvent_keeps (s : State) (source : Nat) (p : Nat) (da : Nat) :
    (cxlEvent s source p da).cairn = s.cairn ∧ (cxlEvent s source p da).boot = s.boot ∧ (cxlEvent s source p da).cfg = s.cfg
    ∧ (cxlEvent s source p da).pw = s.pw ∧ (cxlEvent s source p da).mem = s.mem ∧ (cxlEvent s source p da).fab = s.fab
    ∧ (cxlEvent s source p da).eth = s.eth ∧ (cxlEvent s source p da).seqs = s.seqs ∧ (cxlEvent s source p da).reqs = s.reqs
    ∧ (cxlEvent s source p da).pitches = s.pitches ∧ (cxlEvent s source p da).camps = s.camps ∧ (cxlEvent s source p da).hash = s.hash := by
  refine ⟨?_, ?_, ?_, ?_, ?_, ?_, ?_, ?_, ?_, ?_, ?_, ?_⟩ <;>
    simp [cxlEvent]

@[simp] theorem cxlBad_keeps (s : State) (p : Nat) (da : Nat) :
    (cxlBad s p da).cairn = s.cairn ∧ (cxlBad s p da).boot = s.boot ∧ (cxlBad s p da).cfg = s.cfg ∧ (cxlBad s p da).pw = s.pw
    ∧ (cxlBad s p da).mem = s.mem ∧ (cxlBad s p da).fab = s.fab ∧ (cxlBad s p da).eth = s.eth ∧ (cxlBad s p da).seqs = s.seqs
    ∧ (cxlBad s p da).reqs = s.reqs ∧ (cxlBad s p da).pitches = s.pitches ∧ (cxlBad s p da).camps = s.camps
    ∧ (cxlBad s p da).hash = s.hash := by
  refine ⟨?_, ?_, ?_, ?_, ?_, ?_, ?_, ?_, ?_, ?_, ?_, ?_⟩ <;>
    simp [cxlBad]

@[simp] theorem weightRefetchedEvent_keeps (s : State) (p : Nat) (da : Nat) :
    (weightRefetchedEvent s p da).cairn = s.cairn ∧ (weightRefetchedEvent s p da).boot = s.boot
    ∧ (weightRefetchedEvent s p da).cfg = s.cfg ∧ (weightRefetchedEvent s p da).pw = s.pw ∧ (weightRefetchedEvent s p da).mem = s.mem
    ∧ (weightRefetchedEvent s p da).fab = s.fab ∧ (weightRefetchedEvent s p da).eth = s.eth
    ∧ (weightRefetchedEvent s p da).seqs = s.seqs ∧ (weightRefetchedEvent s p da).reqs = s.reqs
    ∧ (weightRefetchedEvent s p da).pitches = s.pitches ∧ (weightRefetchedEvent s p da).camps = s.camps
    ∧ (weightRefetchedEvent s p da).hash = s.hash := by
  refine ⟨?_, ?_, ?_, ?_, ?_, ?_, ?_, ?_, ?_, ?_, ?_, ?_⟩ <;>
    simp [weightRefetchedEvent]

@[simp] theorem noteRegion_keeps (g : Option Nat) (x : List Nat) (s : State) :
    (noteRegion g x s).cairn = s.cairn ∧ (noteRegion g x s).ev = s.ev ∧ (noteRegion g x s).boot = s.boot
    ∧ (noteRegion g x s).cfg = s.cfg ∧ (noteRegion g x s).pw = s.pw ∧ (noteRegion g x s).mem = s.mem ∧ (noteRegion g x s).fab = s.fab
    ∧ (noteRegion g x s).eth = s.eth ∧ (noteRegion g x s).reqs = s.reqs ∧ (noteRegion g x s).pitches = s.pitches
    ∧ (noteRegion g x s).camps = s.camps ∧ (noteRegion g x s).hash = s.hash := by
  refine ⟨?_, ?_, ?_, ?_, ?_, ?_, ?_, ?_, ?_, ?_, ?_, ?_⟩ <;>
    (induction x generalizing s with
    | nil => rfl
    | cons a t ih => rw [noteRegion]; exact (ih _).trans (by first | (simp; done) | ((repeat' split) <;> first | (simp; done) | rfl)))

@[simp] theorem holdRegions_keeps (g : Option Nat) (x : List Nat) (s : State) :
    (holdRegions g x s).cairn = s.cairn ∧ (holdRegions g x s).boot = s.boot ∧ (holdRegions g x s).cfg = s.cfg
    ∧ (holdRegions g x s).pw = s.pw ∧ (holdRegions g x s).fab = s.fab := by
  refine ⟨?_, ?_, ?_, ?_, ?_⟩ <;>
    (induction x generalizing s with
    | nil => rfl
    | cons a t ih => rw [holdRegions]; exact (ih _).trans (by first | (simp; done) | ((repeat' split) <;> first | (simp; done) | rfl)))

@[simp] theorem modelIntegrity_keeps (s : State) (p : Nat) (da : Nat) :
    (modelIntegrity s p da).cairn = s.cairn ∧ (modelIntegrity s p da).boot = s.boot ∧ (modelIntegrity s p da).cfg = s.cfg
    ∧ (modelIntegrity s p da).pw = s.pw ∧ (modelIntegrity s p da).fab = s.fab := by
  refine ⟨?_, ?_, ?_, ?_, ?_⟩ <;>
    (simp only [modelIntegrity] <;> (repeat' split) <;> first | (simp; done) | rfl)

@[simp] theorem dropBlock_keeps (da : Nat) (x : List Nat) (s : State) :
    (dropBlock da x s).cairn = s.cairn ∧ (dropBlock da x s).ev = s.ev ∧ (dropBlock da x s).boot = s.boot
    ∧ (dropBlock da x s).cfg = s.cfg ∧ (dropBlock da x s).pw = s.pw ∧ (dropBlock da x s).mem = s.mem ∧ (dropBlock da x s).fab = s.fab
    ∧ (dropBlock da x s).eth = s.eth ∧ (dropBlock da x s).seqs = s.seqs ∧ (dropBlock da x s).reqs = s.reqs
    ∧ (dropBlock da x s).camps = s.camps ∧ (dropBlock da x s).hash = s.hash := by
  refine ⟨?_, ?_, ?_, ?_, ?_, ?_, ?_, ?_, ?_, ?_, ?_, ?_⟩ <;>
    (induction x generalizing s with
    | nil => rfl
    | cons a t ih => rw [dropBlock]; exact (ih _).trans (by first | (simp; done) | ((repeat' split) <;> first | (simp; done) | rfl)))

@[simp] theorem goldenFailed_keeps (s : State) (p : Nat) (da : Nat) (t : LoadedTensor) (j : Nat) :
    (goldenFailed s p da t j).cairn = s.cairn ∧ (goldenFailed s p da t j).boot = s.boot ∧ (goldenFailed s p da t j).cfg = s.cfg
    ∧ (goldenFailed s p da t j).pw = s.pw ∧ (goldenFailed s p da t j).fab = s.fab := by
  refine ⟨?_, ?_, ?_, ?_, ?_⟩ <;>
    simp [goldenFailed]

@[simp] theorem putUnit_keeps (s : State) (u : Nat) (x : RetUnit) :
    (putUnit s u x).cairn = s.cairn ∧ (putUnit s u x).ev = s.ev ∧ (putUnit s u x).boot = s.boot ∧ (putUnit s u x).cfg = s.cfg
    ∧ (putUnit s u x).pw = s.pw ∧ (putUnit s u x).fab = s.fab ∧ (putUnit s u x).eth = s.eth ∧ (putUnit s u x).seqs = s.seqs
    ∧ (putUnit s u x).reqs = s.reqs ∧ (putUnit s u x).pitches = s.pitches ∧ (putUnit s u x).camps = s.camps
    ∧ (putUnit s u x).hash = s.hash := by
  refine ⟨?_, ?_, ?_, ?_, ?_, ?_, ?_, ?_, ?_, ?_, ?_, ?_⟩ <;>
    simp [putUnit]

@[simp] theorem countLate_keeps (s : State) (u : Nat) :
    (countLate s u).cairn = s.cairn ∧ (countLate s u).ev = s.ev ∧ (countLate s u).boot = s.boot ∧ (countLate s u).cfg = s.cfg
    ∧ (countLate s u).pw = s.pw ∧ (countLate s u).fab = s.fab ∧ (countLate s u).eth = s.eth ∧ (countLate s u).seqs = s.seqs
    ∧ (countLate s u).reqs = s.reqs ∧ (countLate s u).pitches = s.pitches ∧ (countLate s u).camps = s.camps
    ∧ (countLate s u).hash = s.hash := by
  refine ⟨?_, ?_, ?_, ?_, ?_, ?_, ?_, ?_, ?_, ?_, ?_, ?_⟩ <;>
    simp [countLate]

@[simp] theorem lateAccess_keeps (s : State) (u : Nat) :
    (lateAccess s u).cairn = s.cairn ∧ (lateAccess s u).ev = s.ev ∧ (lateAccess s u).boot = s.boot ∧ (lateAccess s u).cfg = s.cfg
    ∧ (lateAccess s u).pw = s.pw ∧ (lateAccess s u).fab = s.fab ∧ (lateAccess s u).eth = s.eth ∧ (lateAccess s u).seqs = s.seqs
    ∧ (lateAccess s u).reqs = s.reqs ∧ (lateAccess s u).pitches = s.pitches ∧ (lateAccess s u).camps = s.camps
    ∧ (lateAccess s u).hash = s.hash := by
  refine ⟨?_, ?_, ?_, ?_, ?_, ?_, ?_, ?_, ?_, ?_, ?_, ?_⟩ <;>
    (simp only [lateAccess] <;> (repeat' split) <;> first | (simp; done) | rfl)

@[simp] theorem touchUnit_keeps (s : State) (u : Nat) :
    (touchUnit s u).cairn = s.cairn ∧ (touchUnit s u).ev = s.ev ∧ (touchUnit s u).boot = s.boot ∧ (touchUnit s u).cfg = s.cfg
    ∧ (touchUnit s u).pw = s.pw ∧ (touchUnit s u).fab = s.fab ∧ (touchUnit s u).eth = s.eth ∧ (touchUnit s u).seqs = s.seqs
    ∧ (touchUnit s u).reqs = s.reqs ∧ (touchUnit s u).pitches = s.pitches ∧ (touchUnit s u).camps = s.camps
    ∧ (touchUnit s u).hash = s.hash := by
  refine ⟨?_, ?_, ?_, ?_, ?_, ?_, ?_, ?_, ?_, ?_, ?_, ?_⟩ <;>
    simp [touchUnit]

@[simp] theorem touchUnits_keeps (x : List Nat) (s : State) :
    (touchUnits x s).cairn = s.cairn ∧ (touchUnits x s).ev = s.ev ∧ (touchUnits x s).boot = s.boot ∧ (touchUnits x s).cfg = s.cfg
    ∧ (touchUnits x s).pw = s.pw ∧ (touchUnits x s).fab = s.fab ∧ (touchUnits x s).eth = s.eth ∧ (touchUnits x s).seqs = s.seqs
    ∧ (touchUnits x s).reqs = s.reqs ∧ (touchUnits x s).pitches = s.pitches ∧ (touchUnits x s).camps = s.camps
    ∧ (touchUnits x s).hash = s.hash := by
  refine ⟨?_, ?_, ?_, ?_, ?_, ?_, ?_, ?_, ?_, ?_, ?_, ?_⟩ <;>
    (induction x generalizing s with
    | nil => rfl
    | cons a t ih => rw [touchUnits]; exact (ih _).trans (by first | (simp; done) | ((repeat' split) <;> first | (simp; done) | rfl)))

@[simp] theorem wakeUnits_keeps (x : List Nat) (s : State) :
    (wakeUnits x s).cairn = s.cairn ∧ (wakeUnits x s).ev = s.ev ∧ (wakeUnits x s).boot = s.boot ∧ (wakeUnits x s).cfg = s.cfg
    ∧ (wakeUnits x s).pw = s.pw ∧ (wakeUnits x s).fab = s.fab ∧ (wakeUnits x s).eth = s.eth ∧ (wakeUnits x s).seqs = s.seqs
    ∧ (wakeUnits x s).reqs = s.reqs ∧ (wakeUnits x s).pitches = s.pitches ∧ (wakeUnits x s).camps = s.camps
    ∧ (wakeUnits x s).hash = s.hash := by
  refine ⟨?_, ?_, ?_, ?_, ?_, ?_, ?_, ?_, ?_, ?_, ?_, ?_⟩ <;>
    (induction x generalizing s with
    | nil => rfl
    | cons a t ih => rw [wakeUnits]; exact (ih _).trans (by first | (simp; done) | ((repeat' split) <;> first | (simp; done) | rfl)))

@[simp] theorem onLayer_keeps (s : State) (p : Nat) (h : Nat) (layer : Nat) (f : LayerState → LayerState) :
    (onLayer s p h layer f).cairn = s.cairn ∧ (onLayer s p h layer f).ev = s.ev ∧ (onLayer s p h layer f).boot = s.boot
    ∧ (onLayer s p h layer f).cfg = s.cfg ∧ (onLayer s p h layer f).pw = s.pw ∧ (onLayer s p h layer f).mem = s.mem
    ∧ (onLayer s p h layer f).fab = s.fab ∧ (onLayer s p h layer f).eth = s.eth ∧ (onLayer s p h layer f).reqs = s.reqs
    ∧ (onLayer s p h layer f).pitches = s.pitches ∧ (onLayer s p h layer f).camps = s.camps ∧ (onLayer s p h layer f).hash = s.hash := by
  refine ⟨?_, ?_, ?_, ?_, ?_, ?_, ?_, ?_, ?_, ?_, ?_, ?_⟩ <;>
    (simp only [onLayer] <;> (repeat' split) <;> first | (simp; done) | rfl)

@[simp] theorem countSaturated_keeps (s : State) (p : Nat) (h : Nat) (layer : Nat) (n : Nat) :
    (countSaturated s p h layer n).cairn = s.cairn ∧ (countSaturated s p h layer n).ev = s.ev
    ∧ (countSaturated s p h layer n).boot = s.boot ∧ (countSaturated s p h layer n).cfg = s.cfg
    ∧ (countSaturated s p h layer n).pw = s.pw ∧ (countSaturated s p h layer n).mem = s.mem
    ∧ (countSaturated s p h layer n).fab = s.fab ∧ (countSaturated s p h layer n).eth = s.eth
    ∧ (countSaturated s p h layer n).reqs = s.reqs ∧ (countSaturated s p h layer n).pitches = s.pitches
    ∧ (countSaturated s p h layer n).camps = s.camps ∧ (countSaturated s p h layer n).hash = s.hash := by
  refine ⟨?_, ?_, ?_, ?_, ?_, ?_, ?_, ?_, ?_, ?_, ?_, ?_⟩ <;>
    simp [countSaturated]

@[simp] theorem countZero_keeps (s : State) (p : Nat) (h : Nat) (layer : Nat) (n : Nat) :
    (countZero s p h layer n).cairn = s.cairn ∧ (countZero s p h layer n).ev = s.ev ∧ (countZero s p h layer n).boot = s.boot
    ∧ (countZero s p h layer n).cfg = s.cfg ∧ (countZero s p h layer n).pw = s.pw ∧ (countZero s p h layer n).mem = s.mem
    ∧ (countZero s p h layer n).fab = s.fab ∧ (countZero s p h layer n).eth = s.eth ∧ (countZero s p h layer n).reqs = s.reqs
    ∧ (countZero s p h layer n).pitches = s.pitches ∧ (countZero s p h layer n).camps = s.camps
    ∧ (countZero s p h layer n).hash = s.hash := by
  refine ⟨?_, ?_, ?_, ?_, ?_, ?_, ?_, ?_, ?_, ?_, ?_, ?_⟩ <;>
    simp [countZero]

@[simp] theorem countReplays_keeps (s : State) (p : Nat) (h : Nat) (layer : Nat) (n : Nat) :
    (countReplays s p h layer n).cairn = s.cairn ∧ (countReplays s p h layer n).ev = s.ev ∧ (countReplays s p h layer n).boot = s.boot
    ∧ (countReplays s p h layer n).cfg = s.cfg ∧ (countReplays s p h layer n).pw = s.pw ∧ (countReplays s p h layer n).mem = s.mem
    ∧ (countReplays s p h layer n).fab = s.fab ∧ (countReplays s p h layer n).eth = s.eth ∧ (countReplays s p h layer n).reqs = s.reqs
    ∧ (countReplays s p h layer n).pitches = s.pitches ∧ (countReplays s p h layer n).camps = s.camps
    ∧ (countReplays s p h layer n).hash = s.hash := by
  refine ⟨?_, ?_, ?_, ?_, ?_, ?_, ?_, ?_, ?_, ?_, ?_, ?_⟩ <;>
    simp [countReplays]

@[simp] theorem countWide_keeps (s : State) (p : Nat) (h : Nat) (layer : Nat) (n : Nat) :
    (countWide s p h layer n).cairn = s.cairn ∧ (countWide s p h layer n).ev = s.ev ∧ (countWide s p h layer n).boot = s.boot
    ∧ (countWide s p h layer n).cfg = s.cfg ∧ (countWide s p h layer n).pw = s.pw ∧ (countWide s p h layer n).mem = s.mem
    ∧ (countWide s p h layer n).fab = s.fab ∧ (countWide s p h layer n).eth = s.eth ∧ (countWide s p h layer n).reqs = s.reqs
    ∧ (countWide s p h layer n).pitches = s.pitches ∧ (countWide s p h layer n).camps = s.camps
    ∧ (countWide s p h layer n).hash = s.hash := by
  refine ⟨?_, ?_, ?_, ?_, ?_, ?_, ?_, ?_, ?_, ?_, ?_, ?_⟩ <;>
    simp [countWide]

@[simp] theorem countPreshift_keeps (s : State) (p : Nat) (h : Nat) (layer : Nat) (n : Nat) :
    (countPreshift s p h layer n).cairn = s.cairn ∧ (countPreshift s p h layer n).ev = s.ev
    ∧ (countPreshift s p h layer n).boot = s.boot ∧ (countPreshift s p h layer n).cfg = s.cfg ∧ (countPreshift s p h layer n).pw = s.pw
    ∧ (countPreshift s p h layer n).mem = s.mem ∧ (countPreshift s p h layer n).fab = s.fab ∧ (countPreshift s p h layer n).eth = s.eth
    ∧ (countPreshift s p h layer n).reqs = s.reqs ∧ (countPreshift s p h layer n).pitches = s.pitches
    ∧ (countPreshift s p h layer n).camps = s.camps ∧ (countPreshift s p h layer n).hash = s.hash := by
  refine ⟨?_, ?_, ?_, ?_, ?_, ?_, ?_, ?_, ?_, ?_, ?_, ?_⟩ <;>
    simp [countPreshift]

@[simp] theorem countPromoted_keeps (s : State) (p : Nat) (h : Nat) (layer : Nat) (n : Nat) :
    (countPromoted s p h layer n).cairn = s.cairn ∧ (countPromoted s p h layer n).ev = s.ev
    ∧ (countPromoted s p h layer n).boot = s.boot ∧ (countPromoted s p h layer n).cfg = s.cfg ∧ (countPromoted s p h layer n).pw = s.pw
    ∧ (countPromoted s p h layer n).mem = s.mem ∧ (countPromoted s p h layer n).fab = s.fab ∧ (countPromoted s p h layer n).eth = s.eth
    ∧ (countPromoted s p h layer n).reqs = s.reqs ∧ (countPromoted s p h layer n).pitches = s.pitches
    ∧ (countPromoted s p h layer n).camps = s.camps ∧ (countPromoted s p h layer n).hash = s.hash := by
  refine ⟨?_, ?_, ?_, ?_, ?_, ?_, ?_, ?_, ?_, ?_, ?_, ?_⟩ <;>
    simp [countPromoted]

@[simp] theorem linkEvent_keeps (s : State) (l : Nat) (code : Nat) (peer : Nat) (attempt : Nat) :
    (linkEvent s l code peer attempt).cairn = s.cairn ∧ (linkEvent s l code peer attempt).boot = s.boot
    ∧ (linkEvent s l code peer attempt).cfg = s.cfg ∧ (linkEvent s l code peer attempt).pw = s.pw
    ∧ (linkEvent s l code peer attempt).mem = s.mem ∧ (linkEvent s l code peer attempt).fab = s.fab
    ∧ (linkEvent s l code peer attempt).eth = s.eth ∧ (linkEvent s l code peer attempt).seqs = s.seqs
    ∧ (linkEvent s l code peer attempt).reqs = s.reqs ∧ (linkEvent s l code peer attempt).pitches = s.pitches
    ∧ (linkEvent s l code peer attempt).camps = s.camps ∧ (linkEvent s l code peer attempt).hash = s.hash := by
  refine ⟨?_, ?_, ?_, ?_, ?_, ?_, ?_, ?_, ?_, ?_, ?_, ?_⟩ <;>
    simp [linkEvent]

@[simp] theorem sendPlain_keeps (s : State) (l : Nat) (type : Nat) (payload : List Byte) :
    (sendPlain s l type payload).cairn = s.cairn ∧ (sendPlain s l type payload).ev = s.ev ∧ (sendPlain s l type payload).boot = s.boot
    ∧ (sendPlain s l type payload).cfg = s.cfg ∧ (sendPlain s l type payload).pw = s.pw ∧ (sendPlain s l type payload).mem = s.mem
    ∧ (sendPlain s l type payload).eth = s.eth ∧ (sendPlain s l type payload).seqs = s.seqs
    ∧ (sendPlain s l type payload).reqs = s.reqs ∧ (sendPlain s l type payload).pitches = s.pitches
    ∧ (sendPlain s l type payload).camps = s.camps ∧ (sendPlain s l type payload).hash = s.hash := by
  refine ⟨?_, ?_, ?_, ?_, ?_, ?_, ?_, ?_, ?_, ?_, ?_, ?_⟩ <;>
    (simp only [sendPlain] <;> (repeat' split) <;> first | (simp; done) | rfl)

@[simp] theorem sendIdle_keeps (s : State) (l : Nat) :
    (sendIdle s l).cairn = s.cairn ∧ (sendIdle s l).ev = s.ev ∧ (sendIdle s l).boot = s.boot ∧ (sendIdle s l).cfg = s.cfg
    ∧ (sendIdle s l).pw = s.pw ∧ (sendIdle s l).mem = s.mem ∧ (sendIdle s l).eth = s.eth ∧ (sendIdle s l).seqs = s.seqs
    ∧ (sendIdle s l).reqs = s.reqs ∧ (sendIdle s l).pitches = s.pitches ∧ (sendIdle s l).camps = s.camps ∧ (sendIdle s l).hash = s.hash := by
  refine ⟨?_, ?_, ?_, ?_, ?_, ?_, ?_, ?_, ?_, ?_, ?_, ?_⟩ <;>
    simp [sendIdle]

@[simp] theorem sendRetry_keeps (s : State) (l : Nat) :
    (sendRetry s l).cairn = s.cairn ∧ (sendRetry s l).ev = s.ev ∧ (sendRetry s l).boot = s.boot ∧ (sendRetry s l).cfg = s.cfg
    ∧ (sendRetry s l).pw = s.pw ∧ (sendRetry s l).mem = s.mem ∧ (sendRetry s l).eth = s.eth ∧ (sendRetry s l).seqs = s.seqs
    ∧ (sendRetry s l).reqs = s.reqs ∧ (sendRetry s l).pitches = s.pitches ∧ (sendRetry s l).camps = s.camps
    ∧ (sendRetry s l).hash = s.hash := by
  refine ⟨?_, ?_, ?_, ?_, ?_, ?_, ?_, ?_, ?_, ?_, ?_, ?_⟩ <;>
    simp [sendRetry]

@[simp] theorem sendData_keeps (s : State) (l : Nat) (vc : Nat) (first : Bool) (payload : List Byte) :
    (sendData s l vc first payload).cairn = s.cairn ∧ (sendData s l vc first payload).ev = s.ev
    ∧ (sendData s l vc first payload).boot = s.boot ∧ (sendData s l vc first payload).cfg = s.cfg
    ∧ (sendData s l vc first payload).pw = s.pw ∧ (sendData s l vc first payload).mem = s.mem
    ∧ (sendData s l vc first payload).eth = s.eth ∧ (sendData s l vc first payload).seqs = s.seqs
    ∧ (sendData s l vc first payload).reqs = s.reqs ∧ (sendData s l vc first payload).pitches = s.pitches
    ∧ (sendData s l vc first payload).camps = s.camps ∧ (sendData s l vc first payload).hash = s.hash := by
  refine ⟨?_, ?_, ?_, ?_, ?_, ?_, ?_, ?_, ?_, ?_, ?_, ?_⟩ <;>
    (simp only [sendData] <;> (repeat' split) <;> first | (simp; done) | rfl)

@[simp] theorem sendFlit_keeps (s : State) (y : Live) (i : Nat) :
    (sendFlit s y i).cairn = s.cairn ∧ (sendFlit s y i).ev = s.ev ∧ (sendFlit s y i).boot = s.boot ∧ (sendFlit s y i).cfg = s.cfg
    ∧ (sendFlit s y i).pw = s.pw ∧ (sendFlit s y i).mem = s.mem ∧ (sendFlit s y i).eth = s.eth ∧ (sendFlit s y i).seqs = s.seqs
    ∧ (sendFlit s y i).reqs = s.reqs ∧ (sendFlit s y i).pitches = s.pitches ∧ (sendFlit s y i).camps = s.camps
    ∧ (sendFlit s y i).hash = s.hash := by
  refine ⟨?_, ?_, ?_, ?_, ?_, ?_, ?_, ?_, ?_, ?_, ?_, ?_⟩ <;>
    (simp only [sendFlit] <;> (repeat' split) <;> first | (simp; done) | rfl)

@[simp] theorem noteSent_keeps (s : State) (pkt : List Byte) :
    (noteSent s pkt).cairn = s.cairn ∧ (noteSent s pkt).ev = s.ev ∧ (noteSent s pkt).boot = s.boot ∧ (noteSent s pkt).cfg = s.cfg
    ∧ (noteSent s pkt).pw = s.pw ∧ (noteSent s pkt).mem = s.mem ∧ (noteSent s pkt).eth = s.eth ∧ (noteSent s pkt).seqs = s.seqs
    ∧ (noteSent s pkt).reqs = s.reqs ∧ (noteSent s pkt).pitches = s.pitches ∧ (noteSent s pkt).camps = s.camps
    ∧ (noteSent s pkt).hash = s.hash := by
  refine ⟨?_, ?_, ?_, ?_, ?_, ?_, ?_, ?_, ?_, ?_, ?_, ?_⟩ <;>
    (simp only [noteSent] <;> (repeat' split) <;> first | (simp; done) | rfl)

theorem flitOf_keeps {s s1 : State} {live : List Live} {xs : List Startable} {p : Nat} {y : Live} (h : flitOf s live xs p = some (s1, y)) :
    s1.cairn = s.cairn ∧ s1.ev = s.ev ∧ s1.boot = s.boot ∧ s1.cfg = s.cfg ∧ s1.pw = s.pw ∧ s1.mem = s.mem ∧ s1.eth = s.eth
    ∧ s1.seqs = s.seqs ∧ s1.reqs = s.reqs ∧ s1.pitches = s.pitches ∧ s1.camps = s.camps ∧ s1.hash = s.hash := by
  unfold flitOf at h
  split at h
  · obtain ⟨rfl, rfl⟩ := Prod.mk.inj (Option.some.inj h)
    simp
  · obtain ⟨x, hx, e⟩ := Option.map_eq_some_iff.1 h
    obtain ⟨rfl, rfl⟩ := Prod.mk.inj e
    simp [startPacket]

@[simp] theorem pumpN_keeps (n : Nat) (live : List Live) (s : State) :
    (pumpN n live s).cairn = s.cairn ∧ (pumpN n live s).ev = s.ev ∧ (pumpN n live s).boot = s.boot ∧ (pumpN n live s).cfg = s.cfg
    ∧ (pumpN n live s).pw = s.pw ∧ (pumpN n live s).mem = s.mem ∧ (pumpN n live s).eth = s.eth ∧ (pumpN n live s).seqs = s.seqs
    ∧ (pumpN n live s).reqs = s.reqs ∧ (pumpN n live s).pitches = s.pitches ∧ (pumpN n live s).camps = s.camps
    ∧ (pumpN n live s).hash = s.hash := by
  induction n generalizing live s with
  | zero => simp [pumpN]
  | succ n ih =>
    unfold pumpN
    dsimp only
    (repeat' split)
    · simp
    · simp
    · next h => simp [ih, flitOf_keeps h]

@[simp] theorem pump_keeps (s : State) :
    (pump s).cairn = s.cairn ∧ (pump s).ev = s.ev ∧ (pump s).boot = s.boot ∧ (pump s).cfg = s.cfg ∧ (pump s).pw = s.pw
    ∧ (pump s).mem = s.mem ∧ (pump s).eth = s.eth ∧ (pump s).seqs = s.seqs ∧ (pump s).reqs = s.reqs ∧ (pump s).pitches = s.pitches
    ∧ (pump s).camps = s.camps ∧ (pump s).hash = s.hash := by
  refine ⟨?_, ?_, ?_, ?_, ?_, ?_, ?_, ?_, ?_, ?_, ?_, ?_⟩ <;>
    simp [pump]

@[simp] theorem sendPackets_keeps (s : State) (port : Nat) (pkts : List (List Byte)) :
    (sendPackets s port pkts).cairn = s.cairn ∧ (sendPackets s port pkts).ev = s.ev ∧ (sendPackets s port pkts).boot = s.boot
    ∧ (sendPackets s port pkts).cfg = s.cfg ∧ (sendPackets s port pkts).pw = s.pw ∧ (sendPackets s port pkts).mem = s.mem
    ∧ (sendPackets s port pkts).eth = s.eth ∧ (sendPackets s port pkts).seqs = s.seqs ∧ (sendPackets s port pkts).reqs = s.reqs
    ∧ (sendPackets s port pkts).pitches = s.pitches ∧ (sendPackets s port pkts).camps = s.camps
    ∧ (sendPackets s port pkts).hash = s.hash := by
  refine ⟨?_, ?_, ?_, ?_, ?_, ?_, ?_, ?_, ?_, ?_, ?_, ?_⟩ <;>
    simp [sendPackets]

@[simp] theorem takePacket_keeps (s : State) (l : Nat) (pkt : List Byte) :
    (takePacket s l pkt).cairn = s.cairn ∧ (takePacket s l pkt).ev = s.ev ∧ (takePacket s l pkt).boot = s.boot
    ∧ (takePacket s l pkt).cfg = s.cfg ∧ (takePacket s l pkt).pw = s.pw ∧ (takePacket s l pkt).mem = s.mem
    ∧ (takePacket s l pkt).eth = s.eth ∧ (takePacket s l pkt).seqs = s.seqs ∧ (takePacket s l pkt).reqs = s.reqs
    ∧ (takePacket s l pkt).pitches = s.pitches ∧ (takePacket s l pkt).camps = s.camps ∧ (takePacket s l pkt).hash = s.hash := by
  refine ⟨?_, ?_, ?_, ?_, ?_, ?_, ?_, ?_, ?_, ?_, ?_, ?_⟩ <;>
    (simp only [takePacket] <;> (repeat' split) <;> first | (simp; done) | rfl)

@[simp] theorem cairnEvent_keeps (s : State) (code : Nat) :
    (cairnEvent s code).cairn = s.cairn ∧ (cairnEvent s code).boot = s.boot ∧ (cairnEvent s code).cfg = s.cfg
    ∧ (cairnEvent s code).pw = s.pw ∧ (cairnEvent s code).mem = s.mem ∧ (cairnEvent s code).fab = s.fab
    ∧ (cairnEvent s code).eth = s.eth ∧ (cairnEvent s code).seqs = s.seqs ∧ (cairnEvent s code).reqs = s.reqs
    ∧ (cairnEvent s code).pitches = s.pitches ∧ (cairnEvent s code).camps = s.camps ∧ (cairnEvent s code).hash = s.hash := by
  refine ⟨?_, ?_, ?_, ?_, ?_, ?_, ?_, ?_, ?_, ?_, ?_, ?_⟩ <;>
    simp [cairnEvent]

@[simp] theorem holdover_keeps (s : State) :
    (holdover s).boot = s.boot ∧ (holdover s).cfg = s.cfg ∧ (holdover s).pw = s.pw ∧ (holdover s).mem = s.mem
    ∧ (holdover s).fab = s.fab ∧ (holdover s).eth = s.eth ∧ (holdover s).seqs = s.seqs ∧ (holdover s).reqs = s.reqs
    ∧ (holdover s).pitches = s.pitches ∧ (holdover s).camps = s.camps ∧ (holdover s).hash = s.hash := by
  refine ⟨?_, ?_, ?_, ?_, ?_, ?_, ?_, ?_, ?_, ?_, ?_⟩ <;>
    (simp only [holdover] <;> (repeat' split) <;> first | (simp; done) | rfl)

@[simp] theorem requeue_keeps (s : State) (l : Nat) (k : Link) :
    (requeue s l k).cairn = s.cairn ∧ (requeue s l k).ev = s.ev ∧ (requeue s l k).boot = s.boot ∧ (requeue s l k).cfg = s.cfg
    ∧ (requeue s l k).pw = s.pw ∧ (requeue s l k).mem = s.mem ∧ (requeue s l k).eth = s.eth ∧ (requeue s l k).seqs = s.seqs
    ∧ (requeue s l k).reqs = s.reqs ∧ (requeue s l k).pitches = s.pitches ∧ (requeue s l k).camps = s.camps
    ∧ (requeue s l k).hash = s.hash := by
  refine ⟨?_, ?_, ?_, ?_, ?_, ?_, ?_, ?_, ?_, ?_, ?_, ?_⟩ <;>
    simp [requeue]

@[simp] theorem putMail_keeps (s : State) (fn : Nat) (mb : Nat) (m : Mailbox) :
    (putMail s fn mb m).cairn = s.cairn ∧ (putMail s fn mb m).ev = s.ev ∧ (putMail s fn mb m).boot = s.boot
    ∧ (putMail s fn mb m).cfg = s.cfg ∧ (putMail s fn mb m).pw = s.pw ∧ (putMail s fn mb m).mem = s.mem
    ∧ (putMail s fn mb m).fab = s.fab ∧ (putMail s fn mb m).eth = s.eth ∧ (putMail s fn mb m).seqs = s.seqs
    ∧ (putMail s fn mb m).reqs = s.reqs ∧ (putMail s fn mb m).pitches = s.pitches ∧ (putMail s fn mb m).camps = s.camps
    ∧ (putMail s fn mb m).hash = s.hash := by
  refine ⟨?_, ?_, ?_, ?_, ?_, ?_, ?_, ?_, ?_, ?_, ?_, ?_, ?_⟩ <;>
    simp [putMail]

@[simp] theorem takeMail_keeps (s : State) (fn : Nat) (mb : Nat) :
    (takeMail s fn mb).cairn = s.cairn ∧ (takeMail s fn mb).ev = s.ev ∧ (takeMail s fn mb).boot = s.boot
    ∧ (takeMail s fn mb).cfg = s.cfg ∧ (takeMail s fn mb).pw = s.pw ∧ (takeMail s fn mb).mem = s.mem ∧ (takeMail s fn mb).fab = s.fab
    ∧ (takeMail s fn mb).eth = s.eth ∧ (takeMail s fn mb).seqs = s.seqs ∧ (takeMail s fn mb).reqs = s.reqs
    ∧ (takeMail s fn mb).pitches = s.pitches ∧ (takeMail s fn mb).camps = s.camps ∧ (takeMail s fn mb).hash = s.hash := by
  refine ⟨?_, ?_, ?_, ?_, ?_, ?_, ?_, ?_, ?_, ?_, ?_, ?_, ?_⟩ <;>
    simp [takeMail]

@[simp] theorem ackMail_keeps (s : State) (fn : Nat) (mb : Nat) (code : Nat) (reply : List Word) :
    (ackMail s fn mb code reply).cairn = s.cairn ∧ (ackMail s fn mb code reply).ev = s.ev ∧ (ackMail s fn mb code reply).boot = s.boot
    ∧ (ackMail s fn mb code reply).cfg = s.cfg ∧ (ackMail s fn mb code reply).pw = s.pw ∧ (ackMail s fn mb code reply).mem = s.mem
    ∧ (ackMail s fn mb code reply).fab = s.fab ∧ (ackMail s fn mb code reply).eth = s.eth ∧ (ackMail s fn mb code reply).seqs = s.seqs
    ∧ (ackMail s fn mb code reply).reqs = s.reqs ∧ (ackMail s fn mb code reply).pitches = s.pitches
    ∧ (ackMail s fn mb code reply).camps = s.camps ∧ (ackMail s fn mb code reply).hash = s.hash := by
  refine ⟨?_, ?_, ?_, ?_, ?_, ?_, ?_, ?_, ?_, ?_, ?_, ?_, ?_⟩ <;>
    (simp only [ackMail] <;> (repeat' split) <;> first | (simp; done) | rfl)

@[simp] theorem dropReq_keeps (s : State) (rid : Nat) :
    (dropReq s rid).cairn = s.cairn ∧ (dropReq s rid).ev = s.ev ∧ (dropReq s rid).boot = s.boot ∧ (dropReq s rid).cfg = s.cfg
    ∧ (dropReq s rid).pw = s.pw ∧ (dropReq s rid).mem = s.mem ∧ (dropReq s rid).fab = s.fab ∧ (dropReq s rid).eth = s.eth
    ∧ (dropReq s rid).seqs = s.seqs ∧ (dropReq s rid).pitches = s.pitches ∧ (dropReq s rid).camps = s.camps
    ∧ (dropReq s rid).hash = s.hash := by
  refine ⟨?_, ?_, ?_, ?_, ?_, ?_, ?_, ?_, ?_, ?_, ?_, ?_⟩ <;>
    simp [dropReq]

@[simp] theorem onDie_keeps (s : State) (d : Nat) (f : Die → Die) :
    (onDie s d f).cairn = s.cairn ∧ (onDie s d f).ev = s.ev ∧ (onDie s d f).boot = s.boot ∧ (onDie s d f).cfg = s.cfg
    ∧ (onDie s d f).mem = s.mem ∧ (onDie s d f).fab = s.fab ∧ (onDie s d f).eth = s.eth ∧ (onDie s d f).seqs = s.seqs
    ∧ (onDie s d f).reqs = s.reqs ∧ (onDie s d f).pitches = s.pitches ∧ (onDie s d f).camps = s.camps ∧ (onDie s d f).hash = s.hash := by
  refine ⟨?_, ?_, ?_, ?_, ?_, ?_, ?_, ?_, ?_, ?_, ?_, ?_⟩ <;>
    simp [onDie]

@[simp] theorem setPoint_keeps (s : State) (d : Nat) (point : Nat) :
    (setPoint s d point).cairn = s.cairn ∧ (setPoint s d point).ev = s.ev ∧ (setPoint s d point).boot = s.boot
    ∧ (setPoint s d point).cfg = s.cfg ∧ (setPoint s d point).mem = s.mem ∧ (setPoint s d point).fab = s.fab
    ∧ (setPoint s d point).eth = s.eth ∧ (setPoint s d point).seqs = s.seqs ∧ (setPoint s d point).reqs = s.reqs
    ∧ (setPoint s d point).pitches = s.pitches ∧ (setPoint s d point).camps = s.camps ∧ (setPoint s d point).hash = s.hash := by
  refine ⟨?_, ?_, ?_, ?_, ?_, ?_, ?_, ?_, ?_, ?_, ?_, ?_⟩ <;>
    (simp only [setPoint] <;> (repeat' split) <;> first | (simp; done) | rfl)

@[simp] theorem capDies_keeps (cap : Nat) (x : List Nat) (s : State) :
    (capDies cap x s).cairn = s.cairn ∧ (capDies cap x s).ev = s.ev ∧ (capDies cap x s).boot = s.boot ∧ (capDies cap x s).cfg = s.cfg
    ∧ (capDies cap x s).mem = s.mem ∧ (capDies cap x s).fab = s.fab ∧ (capDies cap x s).eth = s.eth ∧ (capDies cap x s).seqs = s.seqs
    ∧ (capDies cap x s).reqs = s.reqs ∧ (capDies cap x s).pitches = s.pitches ∧ (capDies cap x s).camps = s.camps
    ∧ (capDies cap x s).hash = s.hash := by
  refine ⟨?_, ?_, ?_, ?_, ?_, ?_, ?_, ?_, ?_, ?_, ?_, ?_⟩ <;>
    (induction x generalizing s with
    | nil => rfl
    | cons a t ih => rw [capDies]; exact (ih _).trans (by first | (simp; done) | ((repeat' split) <;> first | (simp; done) | rfl)))

@[simp] theorem lowerAll_keeps (x : List Nat) (s : State) :
    (lowerAll x s).cairn = s.cairn ∧ (lowerAll x s).ev = s.ev ∧ (lowerAll x s).boot = s.boot ∧ (lowerAll x s).cfg = s.cfg
    ∧ (lowerAll x s).mem = s.mem ∧ (lowerAll x s).fab = s.fab ∧ (lowerAll x s).eth = s.eth ∧ (lowerAll x s).seqs = s.seqs
    ∧ (lowerAll x s).reqs = s.reqs ∧ (lowerAll x s).pitches = s.pitches ∧ (lowerAll x s).camps = s.camps ∧ (lowerAll x s).hash = s.hash := by
  refine ⟨?_, ?_, ?_, ?_, ?_, ?_, ?_, ?_, ?_, ?_, ?_, ?_⟩ <;>
    (induction x generalizing s with
    | nil => rfl
    | cons a t ih => rw [lowerAll]; exact (ih _).trans (by first | (simp; done) | ((repeat' split) <;> first | (simp; done) | rfl)))

@[simp] theorem notePower_keeps (s : State) (power : Nat) :
    (notePower s power).cairn = s.cairn ∧ (notePower s power).ev = s.ev ∧ (notePower s power).boot = s.boot
    ∧ (notePower s power).cfg = s.cfg ∧ (notePower s power).mem = s.mem ∧ (notePower s power).fab = s.fab
    ∧ (notePower s power).eth = s.eth ∧ (notePower s power).seqs = s.seqs ∧ (notePower s power).reqs = s.reqs
    ∧ (notePower s power).pitches = s.pitches ∧ (notePower s power).camps = s.camps ∧ (notePower s power).hash = s.hash := by
  refine ⟨?_, ?_, ?_, ?_, ?_, ?_, ?_, ?_, ?_, ?_, ?_, ?_⟩ <;>
    simp [notePower]

@[simp] theorem onPort_keeps (s : State) (q : Nat) (f : CapPort → CapPort) :
    (onPort s q f).cairn = s.cairn ∧ (onPort s q f).ev = s.ev ∧ (onPort s q f).boot = s.boot ∧ (onPort s q f).cfg = s.cfg
    ∧ (onPort s q f).pw = s.pw ∧ (onPort s q f).fab = s.fab ∧ (onPort s q f).eth = s.eth ∧ (onPort s q f).seqs = s.seqs
    ∧ (onPort s q f).reqs = s.reqs ∧ (onPort s q f).pitches = s.pitches ∧ (onPort s q f).camps = s.camps ∧ (onPort s q f).hash = s.hash := by
  refine ⟨?_, ?_, ?_, ?_, ?_, ?_, ?_, ?_, ?_, ?_, ?_, ?_⟩ <;>
    simp [onPort]

@[simp] theorem parkMarked_keeps (s : State) (r : PitchRecord) :
    (parkMarked s r).cairn = s.cairn ∧ (parkMarked s r).boot = s.boot ∧ (parkMarked s r).cfg = s.cfg ∧ (parkMarked s r).mem = s.mem
    ∧ (parkMarked s r).fab = s.fab ∧ (parkMarked s r).camps = s.camps ∧ (parkMarked s r).hash = s.hash := by
  refine ⟨?_, ?_, ?_, ?_, ?_, ?_, ?_⟩ <;>
    simp [parkMarked]

@[simp] theorem parkAllMarked_keeps (x : List PitchRecord) (s : State) :
    (parkAllMarked x s).cairn = s.cairn ∧ (parkAllMarked x s).boot = s.boot ∧ (parkAllMarked x s).cfg = s.cfg
    ∧ (parkAllMarked x s).mem = s.mem ∧ (parkAllMarked x s).fab = s.fab ∧ (parkAllMarked x s).camps = s.camps
    ∧ (parkAllMarked x s).hash = s.hash := by
  refine ⟨?_, ?_, ?_, ?_, ?_, ?_, ?_⟩ <;>
    (induction x generalizing s with
    | nil => rfl
    | cons a t ih => rw [parkAllMarked]; exact (ih _).trans (by first | (simp; done) | ((repeat' split) <;> first | (simp; done) | rfl)))

@[simp] theorem policyParks_keeps (policy : Nat) (x : List PitchRecord) (s : State) :
    (policyParks policy x s).cairn = s.cairn ∧ (policyParks policy x s).boot = s.boot ∧ (policyParks policy x s).cfg = s.cfg
    ∧ (policyParks policy x s).pw = s.pw ∧ (policyParks policy x s).mem = s.mem ∧ (policyParks policy x s).fab = s.fab
    ∧ (policyParks policy x s).camps = s.camps ∧ (policyParks policy x s).hash = s.hash := by
  refine ⟨?_, ?_, ?_, ?_, ?_, ?_, ?_, ?_⟩ <;>
    (induction x generalizing s with
    | nil => rfl
    | cons a t ih => rw [policyParks]; exact (ih _).trans (by first | (simp; done) | ((repeat' split) <;> first | (simp; done) | rfl)))

@[simp] theorem writeSlot_keeps (s : State) (target : Nat) (offset : Nat) (data : List Byte) :
    (writeSlot s target offset data).cairn = s.cairn ∧ (writeSlot s target offset data).ev = s.ev
    ∧ (writeSlot s target offset data).cfg = s.cfg ∧ (writeSlot s target offset data).pw = s.pw
    ∧ (writeSlot s target offset data).mem = s.mem ∧ (writeSlot s target offset data).fab = s.fab
    ∧ (writeSlot s target offset data).eth = s.eth ∧ (writeSlot s target offset data).seqs = s.seqs
    ∧ (writeSlot s target offset data).reqs = s.reqs ∧ (writeSlot s target offset data).pitches = s.pitches
    ∧ (writeSlot s target offset data).camps = s.camps ∧ (writeSlot s target offset data).hash = s.hash := by
  refine ⟨?_, ?_, ?_, ?_, ?_, ?_, ?_, ?_, ?_, ?_, ?_, ?_⟩ <;>
    simp [writeSlot]

@[simp] theorem eraseSlot_keeps (s : State) (target : Nat) :
    (eraseSlot s target).cairn = s.cairn ∧ (eraseSlot s target).ev = s.ev ∧ (eraseSlot s target).cfg = s.cfg
    ∧ (eraseSlot s target).pw = s.pw ∧ (eraseSlot s target).mem = s.mem ∧ (eraseSlot s target).fab = s.fab
    ∧ (eraseSlot s target).eth = s.eth ∧ (eraseSlot s target).seqs = s.seqs ∧ (eraseSlot s target).reqs = s.reqs
    ∧ (eraseSlot s target).pitches = s.pitches ∧ (eraseSlot s target).camps = s.camps ∧ (eraseSlot s target).hash = s.hash := by
  refine ⟨?_, ?_, ?_, ?_, ?_, ?_, ?_, ?_, ?_, ?_, ?_, ?_⟩ <;>
    simp [eraseSlot]

@[simp] theorem sendBlocksTo_keeps (s : State) (d : Nat) (port : Nat) (blocks : List (List Byte)) :
    (sendBlocksTo s d port blocks).cairn = s.cairn ∧ (sendBlocksTo s d port blocks).ev = s.ev
    ∧ (sendBlocksTo s d port blocks).boot = s.boot ∧ (sendBlocksTo s d port blocks).cfg = s.cfg
    ∧ (sendBlocksTo s d port blocks).pw = s.pw ∧ (sendBlocksTo s d port blocks).mem = s.mem
    ∧ (sendBlocksTo s d port blocks).eth = s.eth ∧ (sendBlocksTo s d port blocks).seqs = s.seqs
    ∧ (sendBlocksTo s d port blocks).reqs = s.reqs ∧ (sendBlocksTo s d port blocks).pitches = s.pitches
    ∧ (sendBlocksTo s d port blocks).camps = s.camps ∧ (sendBlocksTo s d port blocks).hash = s.hash := by
  refine ⟨?_, ?_, ?_, ?_, ?_, ?_, ?_, ?_, ?_, ?_, ?_, ?_⟩ <;>
    simp [sendBlocksTo]

@[simp] theorem forwardTo_keeps (refusing : List Nat) (blocks : List (List Byte)) (x : List Nat) (s : State) :
    (forwardTo refusing blocks x s).cairn = s.cairn ∧ (forwardTo refusing blocks x s).ev = s.ev
    ∧ (forwardTo refusing blocks x s).boot = s.boot ∧ (forwardTo refusing blocks x s).cfg = s.cfg
    ∧ (forwardTo refusing blocks x s).pw = s.pw ∧ (forwardTo refusing blocks x s).mem = s.mem
    ∧ (forwardTo refusing blocks x s).eth = s.eth ∧ (forwardTo refusing blocks x s).seqs = s.seqs
    ∧ (forwardTo refusing blocks x s).reqs = s.reqs ∧ (forwardTo refusing blocks x s).pitches = s.pitches
    ∧ (forwardTo refusing blocks x s).camps = s.camps ∧ (forwardTo refusing blocks x s).hash = s.hash := by
  refine ⟨?_, ?_, ?_, ?_, ?_, ?_, ?_, ?_, ?_, ?_, ?_, ?_⟩ <;>
    (induction x generalizing s with
    | nil => rfl
    | cons a t ih => simp only [forwardTo] <;> (repeat' split) <;> first | rfl | (simp; done) | exact (ih _).trans (by first | (simp; done) | ((repeat' split) <;> first | (simp; done) | rfl)) | (rw [ih]; done) | (rw [ih]; simp; done))

@[simp] theorem sendBlocks_keeps (s : State) (refusing : List Nat) (blocks : List (List Byte)) :
    (sendBlocks s refusing blocks).cairn = s.cairn ∧ (sendBlocks s refusing blocks).ev = s.ev
    ∧ (sendBlocks s refusing blocks).boot = s.boot ∧ (sendBlocks s refusing blocks).cfg = s.cfg
    ∧ (sendBlocks s refusing blocks).pw = s.pw ∧ (sendBlocks s refusing blocks).mem = s.mem
    ∧ (sendBlocks s refusing blocks).eth = s.eth ∧ (sendBlocks s refusing blocks).seqs = s.seqs
    ∧ (sendBlocks s refusing blocks).reqs = s.reqs ∧ (sendBlocks s refusing blocks).pitches = s.pitches
    ∧ (sendBlocks s refusing blocks).camps = s.camps ∧ (sendBlocks s refusing blocks).hash = s.hash := by
  refine ⟨?_, ?_, ?_, ?_, ?_, ?_, ?_, ?_, ?_, ?_, ?_, ?_⟩ <;>
    simp [sendBlocks]

@[simp] theorem forwardImage_keeps (s : State) (refusing : List Nat) (target : Nat) :
    (forwardImage s refusing target).cairn = s.cairn ∧ (forwardImage s refusing target).ev = s.ev
    ∧ (forwardImage s refusing target).boot = s.boot ∧ (forwardImage s refusing target).cfg = s.cfg
    ∧ (forwardImage s refusing target).pw = s.pw ∧ (forwardImage s refusing target).mem = s.mem
    ∧ (forwardImage s refusing target).eth = s.eth ∧ (forwardImage s refusing target).seqs = s.seqs
    ∧ (forwardImage s refusing target).reqs = s.reqs ∧ (forwardImage s refusing target).pitches = s.pitches
    ∧ (forwardImage s refusing target).camps = s.camps ∧ (forwardImage s refusing target).hash = s.hash := by
  refine ⟨?_, ?_, ?_, ?_, ?_, ?_, ?_, ?_, ?_, ?_, ?_, ?_⟩ <;>
    simp [forwardImage]

@[simp] theorem forwardOp_keeps (s : State) (refusing : List Nat) (op : Nat) (msg : List Word) :
    (forwardOp s refusing op msg).cairn = s.cairn ∧ (forwardOp s refusing op msg).ev = s.ev
    ∧ (forwardOp s refusing op msg).boot = s.boot ∧ (forwardOp s refusing op msg).cfg = s.cfg ∧ (forwardOp s refusing op msg).pw = s.pw
    ∧ (forwardOp s refusing op msg).mem = s.mem ∧ (forwardOp s refusing op msg).eth = s.eth
    ∧ (forwardOp s refusing op msg).seqs = s.seqs ∧ (forwardOp s refusing op msg).reqs = s.reqs
    ∧ (forwardOp s refusing op msg).pitches = s.pitches ∧ (forwardOp s refusing op msg).camps = s.camps
    ∧ (forwardOp s refusing op msg).hash = s.hash := by
  refine ⟨?_, ?_, ?_, ?_, ?_, ?_, ?_, ?_, ?_, ?_, ?_, ?_⟩ <;>
    simp [forwardOp]

end Sys2Proof.Machine
end

