-- ==== Sys2Proof/Laws/Memory.lean ====
section
/-! SUPPORT. The laws of byte memory: reads after writes, and every operation keeps the canonical form. -/

namespace Sys2Proof.Machine

@[simp] theorem rdByte_wrByte_same (m : List Host.Cell) (a : Nat) (b : Byte) : rdByte (wrByte m a b) a = b := by
  unfold rdByte wrByte mgetD
  split
  · rename_i h
    simp [h]
  · simp

theorem rdByte_wrByte_ne (m : List Host.Cell) {a x : Nat} (b : Byte) (h : x ≠ a) : rdByte (wrByte m a b) x = rdByte m x := by
  unfold rdByte wrByte mgetD
  split
  · rw [mget_mdel_ne m h]
  · rw [mget_mset_ne m b h]

/-- A byte outside the written range is left alone. -/
theorem rdByte_wrBytes_out (bs : List Byte) (m : List Host.Cell) (a x : Nat) (h : x < a ∨ a + bs.length ≤ x) :
    rdByte (wrBytes m a bs) x = rdByte m x := by
  induction bs generalizing m a with
  | nil => rfl
  | cons b t ih =>
    simp only [List.length_cons] at h
    rw [wrBytes, ih _ _ (by omega), rdByte_wrByte_ne _ _ (by omega)]

/-- A written byte reads back. -/
theorem rdByte_wrBytes_in (bs : List Byte) (m : List Host.Cell) (a i : Nat) (h : i < bs.length) :
    rdByte (wrBytes m a bs) (a + i) = bs.getD i 0#8 := by
  induction bs generalizing m a i with
  | nil => simp at h
  | cons b t ih =>
    cases i with
    | zero => rw [wrBytes, rdByte_wrBytes_out _ _ _ _ (by omega)]; simp
    | succ i =>
      have := ih (wrByte m a b) (a + 1) i (by simpa using h)
      rw [wrBytes, show a + (i + 1) = a + 1 + i by omega, this]
      simp

@[simp] theorem length_rdBytes (m : List Host.Cell) (a n : Nat) : (rdBytes m a n).length = n := by simp [rdBytes]

/-- A range that has just been written reads back whole. -/
theorem rdBytes_wrBytes (m : List Host.Cell) (a : Nat) (bs : List Byte) : rdBytes (wrBytes m a bs) a bs.length = bs := by
  apply List.ext_getElem
  · simp
  · intro i h1 h2
    simp only [rdBytes, List.getElem_map, List.getElem_range]
    rw [rdByte_wrBytes_in _ _ _ _ h2]
    simp [List.getD, h2]

theorem memWf_iff (m : List Host.Cell) : memWf m = true ↔ keysRise m = true ∧ ∀ c ∈ m, c.2 ≠ unlisted := by
  simp [memWf]

theorem memWf_nil : memWf [] = true := rfl

theorem memWf_wrByte {m : List Host.Cell} (a : Nat) (b : Byte) (h : memWf m = true) : memWf (wrByte m a b) = true := by
  rw [memWf_iff] at *
  unfold wrByte
  split
  · exact ⟨keysRise_mdel a h.1, fun c hc => h.2 c (mem_mdel hc)⟩
  · rename_i hb
    refine ⟨keysRise_mset a b h.1, fun c hc => ?_⟩
    rcases mem_mset hc with rfl | hc
    · exact hb
    · exact h.2 c hc

theorem memWf_wrBytes {m : List Host.Cell} (a : Nat) (bs : List Byte) (h : memWf m = true) : memWf (wrBytes m a bs) = true := by
  induction bs generalizing m a with
  | nil => exact h
  | cons b t ih => exact ih (a + 1) (memWf_wrByte a b h)

theorem memWf_zeroRange {m : List Host.Cell} (a n : Nat) (h : memWf m = true) : memWf (zeroRange m a n) = true := by
  rw [memWf_iff] at *
  exact ⟨keysRise_filter _ h.1, fun c hc => h.2 c (List.mem_of_mem_filter hc)⟩

theorem mget_filter_key {α : Type} (m : NMap α) (p : Nat → Bool) (x : Nat) :
    mget (m.filter fun c => p c.1) x = if p x then mget m x else none := by
  induction m with
  | nil => simp
  | cons c t ih =>
    obtain ⟨b, v⟩ := c
    by_cases hp : p b = true
    · simp only [List.filter_cons, hp, if_true, mget, ih]
      by_cases hb : b = x
      · subst hb; simp [hp]
      · simp [hb]
    · simp only [List.filter_cons, hp, mget]
      by_cases hb : b = x
      · subst hb; simp [hp, ih]
      · simpa [hb] using ih

/-- A zeroed range reads as zero, and every other byte is left alone. -/
theorem rdByte_zeroRange (m : List Host.Cell) (a n x : Nat) :
    rdByte (zeroRange m a n) x = if a ≤ x ∧ x < a + n then 0#8 else rdByte m x := by
  have h := mget_filter_key m (fun b => !(decide (a ≤ b) && decide (b < a + n))) x
  unfold rdByte zeroRange mgetD
  rw [h]
  by_cases hr : a ≤ x ∧ x < a + n
  · simp [hr, unlisted]
  · have : (!(decide (a ≤ x) && decide (x < a + n))) = true := by simp; omega
    simp [this, hr]

end Sys2Proof.Machine
end

