-- ==== Sys2Proof/Laws/Sound.lean ====
section
/-! SUPPORT. What the shared operations do to the event log, to device memory and to a scratchpad: the sound forms of Safety are kept. -/

namespace Sys2Proof.Machine

/-! ### The event log (R413, R450) -/

/-- A list cut back to its last `n` elements has at most `n`. -/
theorem length_lastN {α : Type} (n : Nat) (l : List α) : (lastN n l).length ≤ n := by
  unfold lastN
  rw [List.length_reverse, List.length_take]
  exact Nat.min_le_left _ _

/-- The last `n` elements are those that stay when the others are dropped. -/
theorem lastN_eq_drop {α : Type} (n : Nat) (l : List α) : lastN n l = l.drop (l.length - n) := by
  unfold lastN
  rw [List.take_reverse, List.reverse_reverse]

/-- A list that is short enough is kept whole. -/
theorem lastN_of_le {α : Type} {n : Nat} {l : List α} (h : l.length ≤ n) : lastN n l = l := by
  rw [lastN_eq_drop, Nat.sub_eq_zero_of_le h, List.drop_zero]

/-- Event bookkeeping of a critical record touches neither the window nor the count, and the ring in Ranger memory stays in bounds. -/
theorem appendCritical_log (s : State) (e : EventRec) :
    (appendCritical s e).ev.window = s.ev.window ∧ (appendCritical s e).ev.written = s.ev.written
      ∧ ((appendCritical s e).ev.ramRing = s.ev.ramRing ∨ (appendCritical s e).ev.ramRing.length ≤ 65536) := by
  unfold appendCritical
  split
  · exact ⟨rfl, rfl, .inr (length_lastN 65536 _)⟩
  · dsimp only
    split
    · exact ⟨rfl, rfl, .inl rfl⟩
    · exact ⟨rfl, rfl, .inl rfl⟩

theorem raiseInterrupt_ev (s : State) (fn vector : Nat) : (raiseInterrupt s fn vector).ev = s.ev := by simp

/-- A record counts one, and the window keeps the latest 1,024 records (R413). -/
theorem writeEvent_log (s : State) (source cls code pitch : Nat) (detail : List Byte) :
    let t := writeEvent s source cls code pitch detail
    t.ev.window = lastN 1024 (s.ev.window ++ [⟨s.cairn.count, source, cls, code, pitch, padTo 16 detail⟩]) ∧ t.ev.written = (s.ev.written + 1) % 2 ^ 32
      ∧ (t.ev.ramRing = s.ev.ramRing ∨ t.ev.ramRing.length ≤ 65536) := by
  have a := fun s e => (appendCritical_log s e).1
  have b := fun s e => (appendCritical_log s e).2.1
  have c := fun s e => (appendCritical_log s e).2.2
  unfold writeEvent
  dsimp only
  split <;> split <;>
    first
    | (rw [raiseInterrupt_ev]; exact ⟨a _ _, b _ _, c _ _⟩)
    | exact ⟨a _ _, b _ _, c _ _⟩
    | (rw [raiseInterrupt_ev]; exact ⟨rfl, rfl, .inl rfl⟩)
    | exact ⟨rfl, rfl, .inl rfl⟩

theorem writeEvent_logOk {s : State} (source cls code pitch : Nat) (detail : List Byte) (h : s.logOk = true) :
    (writeEvent s source cls code pitch detail).logOk = true := by
  have w := writeEvent_log s source cls code pitch detail
  have k : (writeEvent s source cls code pitch detail).hash = s.hash := by simp
  simp only [State.logOk, Bool.and_eq_true, decide_eq_true_eq] at h ⊢
  refine ⟨⟨⟨?_, ?_⟩, w.2.2.elim (fun e => e ▸ h.1.2) (fun e => e)⟩, ?_⟩
  · rw [w.1]; exact length_lastN _ _
  · rw [w.2.1]; exact Nat.mod_lt _ (by decide)
  · rw [k]; exact h.2

theorem rangerEvent_logOk {s : State} (cls code pitch : Nat) (detail : List Byte) (h : s.logOk = true) :
    (rangerEvent s cls code pitch detail).logOk = true := by
  unfold rangerEvent
  exact writeEvent_logOk _ _ _ _ _ (by simpa [State.logOk] using h)

/-- An event that is written once in a Cairn second keeps the log sound where its writing does. -/
theorem eventOnce_logOk {s : State} (code unit : Nat) (f : State → State) (hf : ∀ s, s.logOk = true → (f s).logOk = true)
    (h : s.logOk = true) : (eventOnce s code unit f).logOk = true := by
  unfold eventOnce
  dsimp only
  split
  · simpa [State.logOk] using h
  · exact hf _ (by simpa [State.logOk] using h)

/-! ### Device memory -/

theorem pokeBytes_memOk {s : State} (da : Nat) (bs : List Byte) (h : s.memOk = true) : (pokeBytes s da bs).memOk = true := by
  simp only [State.memOk, pokeBytes] at h ⊢
  exact memWf_wrBytes da bs h

/-- Bytes that have been put read back. -/
theorem peekBytes_pokeBytes (s : State) (da : Nat) (bs : List Byte) : peekBytes (pokeBytes s da bs) da bs.length = bs :=
  rdBytes_wrBytes s.mem.bytes da bs

/-- Putting bytes leaves every other byte as it was. -/
theorem pokeBytes_elsewhere (s : State) (da : Nat) (bs : List Byte) : MemoryElsewhere s (pokeBytes s da bs) da bs.length :=
  fun x h => rdByte_wrBytes_out bs s.mem.bytes da x h

theorem finishScrubs_memOk {s : State} (da len : Nat) (h : s.memOk = true) : (finishScrubs s da len).memOk = true := by
  simp only [State.memOk, finishScrubs] at h ⊢
  generalize s.mem.scrub.filter (fun e => overlaps da len e.da e.length) = l
  generalize s.mem.bytes = m at h
  induction l generalizing m with
  | nil => exact h
  | cons a t ih => exact ih _ (memWf_zeroRange a.da a.length h)

theorem freeRange_bytes (s : State) (p a : Nat) : (freeRange s p a).mem.bytes = s.mem.bytes := by
  unfold freeRange
  split <;> rfl

theorem freeIf_bytes (s : State) (p a : Nat) : (freeIf s p a).mem.bytes = s.mem.bytes := by
  unfold freeIf
  split
  · rfl
  · exact freeRange_bytes s p a

theorem freePage_bytes (s : State) (p n : Nat) : (freePage s p n).mem.bytes = s.mem.bytes := by
  simp [freePage, freeIf_bytes]

theorem dropRef_bytes (s : State) (p n : Nat) : (dropRef s p n).mem.bytes = s.mem.bytes := by
  unfold dropRef
  dsimp only
  split
  · split
    · simp
    · exact freePage_bytes s p n
  · simp

theorem dropRefs_bytes (p : Nat) (l : List Nat) (s : State) : (dropRefs p l s).mem.bytes = s.mem.bytes := by
  induction l generalizing s with
  | nil => rfl
  | cons a t ih => exact (ih _).trans (dropRef_bytes s p a)

/-! ### Scratchpads -/

theorem spWrite_wf {k : Core} (task o : Nat) (bs : List Byte) (h : memWf k.sp = true) : memWf (spWrite k task o bs).sp = true :=
  memWf_wrBytes _ bs h

theorem putCamp_scratchOk {s : State} (camp : Nat) (c : Camp) (h : s.scratchOk = true)
    (hc : c.cores.all (fun k => memWf k.2.sp) = true) : (putCamp s camp c).scratchOk = true := by
  simp only [State.scratchOk, putCamp, List.all_eq_true] at h hc ⊢
  intro x hx
  rcases mem_mset hx with rfl | hm
  · exact hc
  · exact h x hm

end Sys2Proof.Machine
end

