-- ==== Sys2Proof/Tests/Slice0.lean ====
section
/-! SUPPORT. Tests of single steps against values taken from the spec, and a witness for the hypotheses of each statement. -/

namespace Sys2Proof.Tests

open Sys2Proof Sys2Proof.Machine

set_option Elab.async false

/-! ### Small states -/

/-- A profile of two layers: Lantern with k 2, one sink page and one recent page, 8 rows, 64 tokens and chunks of 32. -/
def profileT : Profile :=
  ⟨⟨2, 1, 1, 1, true, 80, 60⟩, ⟨8, false, 0, 0⟩, ⟨32, 8, 64⟩, 8, 2, [0, 0], 77, true⟩

/-- A group of one module with two layers. -/
def groupT : GroupEntry := ⟨0, 1, 1, 0, 0, 2, [5]⟩

/-- A pitch of two camps at the origin with 1 GiB of HBM, 16 sync objects and 8 slots. -/
def recT : PitchRecord where
  pitch := 0
  enabled := true
  sealed := false
  x0 := 0
  y0 := 0
  width := 2
  height := 1
  spares := 0
  hash := 255
  hbmBase := 0
  hbmSize := 1
  seqFirst := 0
  seqCount := 8
  syncFirst := 0
  syncCount := 16
  slots := 8
  larder := List.replicate 8 16
  capacity := (0, 1) :: List.replicate 7 (0, 0)
  shares := []
  sessions := [⟨3, 0, 4791, 4791, List.replicate 16 1#8⟩]
  parkKind := 1
  parkSession := 0
  parkAddress := 0x1000
  parkLength := 0x100000
  regions := 1
  profile := profileT
  group := groupT
  keys := some ⟨1, 2, [], []⟩
  reservedZero := true

/-- A configuration with that pitch, device 5, one shared region, links 0 and 1, and the management session 9. -/
def cfgT : Configuration where
  generation := 1
  deviceId := 5
  digest := 99
  pitches := [recT]
  regions := [⟨0, 0x40000000, 0x1000, 0x2000000⟩]
  links := [⟨0, 0, 6, 0, 1⟩, ⟨1, 1, 7, 0, 0⟩]
  ports := [⟨0, true, false, 1⟩]
  hostPort := true
  eth := [⟨0, true, false, 0, 64, List.replicate 16 2#8, List.replicate 16 3#8⟩, ⟨1, false, false, 0, 64, [], []⟩]
  timeRoot := 6
  ppsUsed := true
  power := ⟨1000, 300, 1, true, false, false, 4, 1, 10, true⟩
  successors := []
  management := some ⟨9, 0, 4791, 4791, []⟩
  managementKeys := none
  managementKeysOk := true
  reservedZero := true

/-- A ready module under that configuration: HBM of 1,024 GiB, the main supply, and the pitch enabled. -/
def readyT : State :=
  { State.reset with
    cfg := some cfgT
    boot := { Boot.reset with phase := 12, ready := true }
    pw := { Power.reset with vaux := true, rails := true, mainGood := true }
    mem := { Memory.reset with n := 1024 }
    host := { HostPort.reset with up := true, vfEnable := true, numVfs := 64 }
    pitches := [(0, { Pitch.fresh with enabled := true })] }

/-- The ready module whose Ethernet port 0 is up. -/
def onlineT : State := { readyT with eth := { readyT.eth with up := [true, false] } }

/-- A command word of fields (lowest bit, value). -/
def wordT (fs : List (Nat × Nat)) : CmdWord := BitVec.ofNat 128 (fs.map fun f => f.2 * 2 ^ f.1).sum

/-- A program of two commands with its length table in slot 7. -/
def progT : Program := ⟨1, 0, 2, 0, 7, List.replicate 8 0#32, 1000, []⟩

/-- A camp whose program stands at a word; core 0 has a writable window 0 of the whole scratchpad. -/
def campT (w : CmdWord) : Camp :=
  { Camp.fresh with cmdMem := [(0, w)], prog := some progT, cores := [(0, { Core.fresh with win := [(0, 0x410000000#64)] })] }

/-- The ready module with that camp as camp 0. -/
def atT (w : CmdWord) : State := { readyT with camps := [(0, campT w)] }

/-- A slot of 4,096 bytes at home in camp 0, produced by camp 0, with one reader. -/
def slotT (st : SlotState) : Slot := ⟨0, 4096, 0, 0, 1, false, st, false, [], [], .empty, []⟩

/-- The state with slot `n` of pitch 0. -/
def withSlotT (s : State) (n : Nat) (x : Slot) : State := putSlot s 0 n x

/-- Whether an answer is a next state. -/
def goesOn (a : Answer State) : Bool := match a with
  | .next _ => true
  | .fault _ => false
  | .refused _ => false

/-- The next state of an answer, or the state before power where it is none. -/
def after (a : Answer State) : State := match a with
  | .next t => t
  | .fault _ => State.reset
  | .refused _ => State.reset

/-! ### Well-formed commands -/

/-- A command for a unit that the module does not have, one for each check (R15, R113, R244, R254, R259, R333, R364, R382, R400, R407, R412). -/
theorem test_illFormed_refused :
    ([.cNop 20000 0, .lanePass 0 16 0 none, .lanePass 0 0 128 none, .slotFilled 64 0 [], .cairnLoRead 65, .mailboxPost 0 256 [], .mailboxPost 1 4 [],
      .submissionDoorbell 0 16 0, .linkDown 24 0, .cxlLinkDown 8 0, .ethLink 2 true, .hashCloseMerge 8 [], .stackTemperatureReading 16 0 0,
      .wakeDone 8704, .parkCommit 65536 false, .hbmTrainingDone [], .linksTrained [] [] [] 0 0, .patrolScrub 0 [] .unallocated false, .rangerLockstep 4
        ⟨0, true, true, true, true, 0#4, none, true, true, true, true⟩, .junctionReading 0 [], .arraysTested [20000],
      .functionReset (.functionLevel 65) 0 0, .fwStatus (.mailbox 65 0 []), .programStart 0 0 0 0 0 [] [], .icmpv6Message ⟨2, none, [], 0, [], [], 0, []⟩]
      : List Instr).all (fun c => !c.wellFormed) = true := by decide +kernel

/-- The last unit of each kind is one that the module has. -/
theorem test_wellFormed_boundaries :
    ([.cNop 19999 0, .lanePass 19999 15 127 none, .slotFilled 63 0 [], .cairnLoRead 64, .mailboxPost 0 255 [], .mailboxPost 64 3 [],
      .submissionDoorbell 64 15 0, .linkDown 23 0, .cxlLinkDown 7 0, .ethLink 1 true, .hashCloseMerge 7 [], .stackTemperatureReading 15 0 0,
      .wakeDone 8703, .parkCommit 65535 false, .patrolScrub 32 (List.replicate 19 0#16) .unallocated false] : List Instr).all (·.wellFormed) = true := by
  decide +kernel

/-- No row of the table has bits, so no word spells a command, and the queue stays as it was. -/
theorem test_noWord_spellsACommand : decodeTableWord 32 0 = none ∧ State.reset.withFetchWord 32 0xFFFFFFFF = State.reset := by decide +kernel

/-! ### Witnesses: the queue and the whole machine -/

theorem witness_StepRunsTheFrontCommand : ({ readyT with pending := [.ppsEdge, .powerLoss] } : State).pending = .ppsEdge :: [.powerLoss] := rfl

theorem witness_EmptyQueueCountsANanosecond :
    State.reset.pending = [] ∧ State.reset.cairn.slew = 0 ∧ ({ State.reset with cairn := { Cairn.reset with slew := -1 } } : State).cairn.slew ≠ 0 := by
  decide +kernel

/-- The last mapped 32 bytes complete, and the first address beyond them stops (R237). -/
theorem witness_WellFormedCommandsComplete :
    (Instr.patrolScrub (1024 * 2 ^ 30 - 32) (List.replicate 19 0#16) .unallocated false).wellFormed = true
      ∧ goesOn (exec (.patrolScrub (1024 * 2 ^ 30 - 32) (List.replicate 19 0#16) .unallocated false) readyT) = true
      ∧ goesOn (exec (.patrolScrub (1024 * 2 ^ 30) (List.replicate 19 0#16) .unallocated false) readyT) = false := by decide +kernel

theorem witness_MemoryStaysCanonical :
    let s := { readyT with mem := { readyT.mem with bytes := [(3, 1#8), (9, 2#8)] }, pending := [.cairnLoRead 64] }
    s.memOk = true ∧ s.scratchOk = true ∧ goesOn (step s) = true := by decide +kernel

theorem witness_EventLogStaysBounded :
    let s := { readyT with pending := [.ethLink 0 true], ev := { EventLog.reset with written := 2 ^ 32 - 1 } }
    s.logOk = true ∧ (after (step s)).ev.written = 0 := by decide +kernel

theorem witness_CountNeverRunsBackwards :
    let s := { readyT with pending := [.ppsEdge] }
    s.boot.ready = true ∧ s.cairn.count + 2 < 2 ^ 64 ∧ (after (step s)).boot.ready = true := by decide +kernel

/-- A VF without a record, one whose pitch is not enabled, and one whose pitch is disabled with its group, at the first and the last function, with a posted
mailbox. -/
theorem witness_BarredFunctionsAreNotServed :
    let posted (s : State) (fn : Nat) : State := putFn s fn { Function.reset with mail := [(3, { Mailbox.reset with state := .posted })] }
    let a := posted readyT 64
    let b := posted { readyT with cfg := some { cfgT with pitches := [{ recT with enabled := false }] } } 1
    let g := onPitch (posted readyT 1) 0 fun x => { x with groupDisabled := true }
    fnReachable a 64 = true ∧ recordOf a 63 = none ∧ mailOk 64 3 = true ∧ 9 ≤ a.boot.phase ∧ 9 ≤ b.boot.phase ∧ (mailOf a 64 3).state = .posted
      ∧ fnReachable b 1 = true ∧ (recordOf b 0).map (·.enabled) = some false ∧ fnReachable g 1 = true ∧ recordOf g 0 = some recT
      ∧ (pitchOf g 0).groupDisabled = true ∧ mailOk 1 3 = true ∧ (mailOf b 1 3).state = .posted := by decide +kernel

/-- 2.0 before 1.0, a number before a NaN, equal zeros and two NaNs by position, and three entries of rising rank. -/
theorem witness_RankingIsTotal :
    (1#32 : Word).toInt < (2#32 : Word).toInt ∧ fpLt 0x3F800000#32 0x40000000#32 = true ∧ isNaN 0x3F800000#32 = false ∧ isNaN 0x7FC00000#32 = true
      ∧ isZero 0x80000000#32 = true ∧ isZero 0#32 = true ∧ (0 : Nat) ≠ 1
      ∧ ranksBefore true ⟨3#32, 0⟩ ⟨2#32, 1⟩ = true ∧ ranksBefore true ⟨2#32, 1⟩ ⟨2#32, 2⟩ = true := by decide +kernel

/-! ### Witnesses: camp commands -/

/-- Camp 0 stands at each word. -/
abbrev Stands (w : CmdWord) : Prop := AtCommand (atT w) 0 w recT 0 progT ∧ HasNext progT

/-- The finding ends a command of camp 0 over that state (R243), and no port keeps it waiting. -/
abbrev Ends (s : State) (f : Finding) : Prop := findingWaits s false f = false ∧ (applyFindings 0 0 false [f] s).2 = true

theorem witness_SequencerCommandsMoveTheProgram :
    let vnop := wordT [(0, 0x0D), (16, 1), (64, 1)]
    let fence := wordT [(0, 5)]
    Stands (wordT []) ∧ FieldsClear (wordT []) 0x00 [] ∧ Stands fence ∧ FieldsClear fence 0x05 []
      ∧ campBusy (campT fence) = false ∧ landing (atT fence) recT 0 = false ∧ Stands vnop ∧ VectorWord vnop 0x00 0 := by decide +kernel

theorem witness_SequencerCommandsMoveTheProgram_limits :
    let wdog (v : Nat) := wordT [(0, 0x03), (32, v)]
    let loop (n : Nat) := wordT [(0, 0x04), (32, 1), (64, n)]
    let bare := wordT [(0, 0x04), (32, 1), (48, 7), (52, 1)]
    let cfg := wordT [(0, 0x0B), (32, 5), (88, 0), (112, 65535)]
    Stands (wdog 0) ∧ FieldsClear (wdog 1000000) 0x03 [(63, 32)] ∧ fld (wdog 1000000) 63 32 ≤ 1000000
      ∧ Stands (loop 2) ∧ FieldsClear (loop 2) 0x04 [(52, 32), (87, 64), (127, 96)] ∧ loopRule progT (loop 2) = true ∧ 0 < loopCount progT (loop 2)
      ∧ Stands bare ∧ FieldsClear bare 0x04 [(52, 32), (87, 64), (127, 96)] ∧ loopRule progT bare = true ∧ loopCount progT bare = 0
      ∧ Stands cfg ∧ FieldsClear cfg 0x0B [(127, 32)] := by decide +kernel

theorem witness_SequencerCommandsMoveTheProgram_end :
    let w := wordT [(0, 0x01), (32, 15), (48, 1)]
    AtCommand (atT w) 0 w recT 0 progT ∧ FieldsClear w 0x01 [(48, 32)] ∧ FieldsClear (wordT [(0, 1)]) 0x01 [(48, 32)]
      ∧ flag (wordT [(0, 1)]) 48 = false ∧ campBusy (campT w) = false ∧ landing (atT w) recT 0 = false ∧ flag w 48 = true ∧ fld w 47 32 < recT.syncCount
      ∧ (signalSync (putCamp (atT w) 0 { campT w with prog := none, blocked := none, ahead := [] }) 0 15 1).isSome = true := by decide +kernel

theorem witness_WindowsAndRegistersAreLoadedAndStored :
    let setwin := wordT [(0, 0x02), (16, 0x8001), (32, 7), (64, 0), (80, 4096), (98, 1)]
    let vld (src : Nat) := wordT [(0, 0x0E), (16, 1), (32, 5), (36, src), (64, 4032)]
    let cap := wordT [(0, 0x0E), (16, 1), (32, 5), (36, 2), (38, 1)]
    let s := withSlotT (atT (vld 1)) 0 (slotT .full)
    Stands setwin ∧ FieldsClear setwin 0x02 [(34, 32), (98, 64)] ∧ cmdCores setwin ≠ []
      ∧ Stands (vld 0) ∧ FieldsClear (vld 0) 0x0E [(38, 32), (123, 64)] ∧ cmdCores (vld 0) ≠ [] ∧ fld (vld 0) 37 36 = 0
      ∧ WindowHolds (atT (vld 0)) 0 (vld 0) 4032 64 false
      ∧ AtCommand s 0 (vld 1) recT 0 progT ∧ FieldsClear (vld 1) 0x0E [(38, 32), (123, 64)] ∧ fld (vld 1) 37 36 = 1
      ∧ slotOf s recT 0 = some (slotT .full) ∧ 512 ≤ (slotT .full).size ∧ routeStays recT 0 0 = true ∧ canRead (slotT .full) 0 = true
      ∧ slicePaused s recT (slotT .full) = false ∧ Stands cap ∧ FieldsClear cap 0x0E [(38, 32), (123, 64)] ∧ fld cap 37 36 = 2 ∧ flag cap 38 = true := by decide +kernel

theorem witness_WindowsAndRegistersAreLoadedAndStored_admitted :
    let s := withSlotT (atT (wordT [(0, 0x0E), (16, 1), (32, 5), (36, 1), (64, 4032)])) 0 (slotT .full)
    CampAdmitted s 0 [(slotDa s recT (slotT .full), 512)] ∧ Ends s (.larderSlot 0 0) := by decide +kernel

theorem witness_WindowsAndRegistersAreLoadedAndStored_store :
    let vst (fmt slot : Nat) := wordT [(0, 0x0F), (16, 1), (35, fmt), (37, slot), (39, slot), (64, 4032)]
    let tst := wordT [(0, 0x0F), (16, 1), (35, 2), (38, 1), (64, 4095)]
    let s := withSlotT (atT (vst 1 1)) 0 (slotT .empty)
    Stands tst ∧ FieldsClear tst 0x0F [(39, 32), (123, 64)] ∧ cmdCores tst ≠ [] ∧ fld tst 36 35 = 2
      ∧ ((stored tst (coreOf (campT tst) 0)).all fun v => decide (storeTrit v ≠ none)) = true
      ∧ Stands (vst 0 0) ∧ fld (vst 0 0) 36 35 = 0 ∧ flag (vst 0 0) 37 = false ∧ WindowHolds (atT (vst 0 0)) 0 (vst 0 0) 4032 64 true
      ∧ AtCommand s 0 (vst 1 1) recT 0 progT ∧ flag (vst 1 1) 37 = true ∧ FieldsClear (vst 1 1) 0x0F [(39, 32), (123, 64)]
      ∧ slotOf s recT 0 = some (slotT .empty) ∧ routeStays recT 0 0 = true ∧ (slotT .empty).producer = 0 ∧ canWrite (slotT .empty) = true
      ∧ slicePaused s recT (slotT .empty) = false ∧ 256 ≤ (slotT .empty).size
      ∧ CampAdmitted s 0 [(slotDa s recT (slotT .empty), 256)] := by decide +kernel

theorem witness_SyncCommandsMoveTheirCount :
    let signal := wordT [(0, 0x11), (32, 15), (64, 2 ^ 32 - 1)]
    let wait := wordT [(0, 0x11), (32, 0), (48, 1), (64, 3)]
    let take := wordT [(0, 0x11), (32, 0), (48, 2), (64, 3)]
    let s (w : CmdWord) (c : Option Nat) := putSync (atT w) 0 0 ⟨3, c⟩
    Stands signal ∧ FieldsClear signal 0x11 [(51, 32), (95, 64)] ∧ fld signal 51 48 = 0 ∧ fld signal 47 32 < recT.syncCount
      ∧ (syncOf (atT signal) 0 15).count + syncValue signal < 2 ^ 32 ∧ (∀ c ∈ (atT signal).camps.map (·.1), (campOf (atT signal) c).blocked = none)
      ∧ AtCommand (s wait none) 0 wait recT 0 progT ∧ reservedClear wait [(51, 32), (95, 64)] = true ∧ isSync wait 1 = true
      ∧ syncValue wait ≤ (syncOf (s wait none) 0 0).count
      ∧ AtCommand (s take none) 0 take recT 0 progT ∧ isSync take 2 = true ∧ syncValue take ≤ (syncOf (s take none) 0 0).count
      ∧ (syncOf (s take none) 0 0).consumer = none ∧ (syncOf (s take (some (srcCamp 0))) 0 0).consumer = some (srcCamp 0) := by decide +kernel

/-- A camp that waits for 2, one that waits for 9 and one that takes 2, where a SIGNAL adds 2; and a SIGNAL past the greatest count. -/
theorem witness_SyncCommandsMoveTheirCount_waits :
    let signal := wordT [(0, 0x11), (32, 15), (64, 2)]
    let word (how n : Nat) := wordT [(0, 0x11), (32, 15), (48, how), (64, n)]
    let s (l : List CmdWord) : State := { readyT with
      camps := (0, campT signal) :: l.zipIdx.map fun x => (x.2 + 1, { campT x.1 with blocked := some ⟨.sync 15, x.1, 0, 0⟩ }) }
    let freed (l : List CmdWord) (c : Nat) : Bool := (signalSync (s l) 0 15 2).any fun u => decide ((campOf u c).blocked = none)
    AtCommand (s [word 1 2]) 0 signal recT 0 progT ∧ HasNext progT ∧ campIn (s [word 1 2]) 0 1 = true ∧ syncValue (word 1 2) = 2
      ∧ freed [word 1 2] 1 = true ∧ fld (word 1 9) 51 48 ≠ 2 ∧ freed [word 1 9] 1 = false ∧ fld (word 2 2) 51 48 = 2 ∧ freed [word 2 2] 1 = true
      ∧ 2 ^ 32 ≤ (syncOf (putSync (atT signal) 0 15 ⟨2 ^ 32 - 2, none⟩) 0 15).count + syncValue signal := by decide +kernel

theorem witness_SlotCommandsMoveTheirBytes :
    let rd := wordT [(0, 0x06), (16, 1), (32, 7), (52, 1), (64, 3584), (80, 512)]
    let wr := wordT [(0, 0x07), (16, 1), (32, 7), (52, 1), (64, 3584), (80, 512)]
    let s := withSlotT (atT rd) 7 (slotT .full)
    let t := withSlotT (atT wr) 7 (slotT .empty)
    AtCommand s 0 rd recT 0 progT ∧ FieldsClear rd 0x06 [(52, 32), (119, 64)] ∧ cmdCores rd ≠ [] ∧ 1 ≤ fld rd 95 80
      ∧ WindowHolds s 0 rd 3584 512 true ∧ slotOf s recT 7 = some (slotT .full) ∧ 8 * 512 ≤ (slotT .full).size ∧ routeStays recT 0 0 = true
      ∧ canRead (slotT .full) 0 = true ∧ slicePaused s recT (slotT .full) = false
      ∧ AtCommand t 0 wr recT 0 progT ∧ FieldsClear wr 0x07 [(52, 32), (119, 64)] ∧ WindowHolds t 0 wr 3584 512 false
      ∧ slotOf t recT 7 = some (slotT .empty) ∧ (slotT .empty).producer = 0 ∧ canWrite (slotT .empty) = true
      ∧ CampAdmitted s 0 [(slotDa s recT (slotT .full), 4096)] ∧ Ends s (.scratchUncorrectable 0 0) ∧ CampAdmitted t 0 [(slotDa t recT (slotT .empty), 4096)]
      ∧ Ends t (.larderSlot 7 0) := by decide +kernel

/-- A coded region of one block that may be written. -/
def codedT : CodedRegion := ⟨0x8000, 1, true, 0, []⟩

/-- A package with the coded region, and nothing else. -/
def packageT : LoadedPackage := ⟨7, 16, none, [], [⟨1, 2, 1000, 0, [0], []⟩], [], [codedT], [], none⟩

/-- The state with the package in service, whose coded region holds a block of eight zeros. -/
def packedT (s : State) : State :=
  pokeBytes (onPitch s 0 fun x => { x with package := some packageT }) 0x8000 (encodeBlock coderZeroRun false (List.replicate 8 0#8))

/-- A read by two cores, one whose data run-ahead has brought, and a write, at the last addresses of the pitch. -/
theorem witness_MemoryCommandsMoveTheirBytes :
    let rd := wordT [(0, 0x08), (16, 3), (32, 2 ^ 30 - 16), (80, 0), (96, 1)]
    let wr := wordT [(0, 0x09), (16, 1), (32, 2 ^ 30 - 8), (80, 4095), (96, 1)]
    let k : Core := { Core.fresh with win := [(0, 0x410000000#64)] }
    let two : State := { atT rd with camps := [(0, { campT rd with cores := [(0, k), (1, k)] })] }
    let brought := putCamp two 0 { campOf two 0 with ahead := [⟨0, 2 ^ 30 - 16, List.replicate 16 0#8, false, []⟩] }
    AtCommand two 0 rd recT 0 progT ∧ reservedClear rd [(111, 32)] = true ∧ cmdCores rd = [0, 1] ∧ codedAt two 0 (2 ^ 30 - 16) = none
      ∧ (campOf two 0).ahead = [] ∧ cmdOpcode rd = 0x08 ∧ WindowHolds two 0 rd 0 1 true ∧ daOf two recT (2 ^ 30 - 16) = 2 ^ 30 - 16
      ∧ memFault two recT [0, 1] (2 ^ 30 - 16) 1 false = none ∧ CampAdmitted two 0 [(2 ^ 30 - 16, 16)] ∧ Ends two (.scratchUncorrectable 1 0)
      ∧ aheadFor (ctxAt 0 recT 0 progT rd) brought (2 ^ 30 - 16) 16 = some (readPitch brought 0 (2 ^ 30 - 16) (2 ^ 30 - 16) 16)
      ∧ aheadNotes (ctxAt 0 recT 0 progT rd) brought = []
      ∧ Stands wr ∧ reservedClear wr [(111, 32)] = true ∧ cmdOpcode wr = 0x09 ∧ WindowHolds (atT wr) 0 wr 4095 1 false
      ∧ memFault (atT wr) recT [0] (2 ^ 30 - 8) 1 true = none ∧ codedAt (atT wr) 0 (2 ^ 30 - 8) = none ∧ CampAdmitted (atT wr) 0 [(2 ^ 30 - 8, 8)]
      ∧ Ends (atT wr) (.scratchUncorrectable 0 0) := by decide +kernel

theorem witness_MemoryCommandsMoveTheirBytes_coded :
    let crd := wordT [(0, 0x08), (16, 1), (32, 0x8000), (96, 1)]
    let cwr := wordT [(0, 0x09), (16, 1), (32, 0x8000), (96, 1)]
    AtCommand (packedT (atT crd)) 0 crd recT 0 progT ∧ codedAt (packedT (atT crd)) 0 0x8000 = some codedT ∧ WindowHolds (packedT (atT crd)) 0 crd 0 1 true
      ∧ CampAdmitted (packedT (atT crd)) 0 (codedReads (packedT (atT crd)) recT codedT 0 8)
      ∧ CampAdmitted (packedT (atT cwr)) 0 (codedWrites (packedT (atT cwr)) recT codedT 0 8)
      ∧ memFault (packedT (atT crd)) recT [0] 0x8000 1 false = none ∧ memFault (packedT (atT cwr)) recT [0] 0x8000 1 true = none
      ∧ (readCoded (packedT (atT crd)) (srcCamp 0) recT codedT 0 8 false).2.isSome = true
      ∧ AtCommand (packedT (atT cwr)) 0 cwr recT 0 progT ∧ codedT.writable = true ∧ WindowHolds (packedT (atT cwr)) 0 cwr 0 1 false
      ∧ (writeCoded (packedT (atT cwr)) (srcCamp 0) recT codedT 0 (List.replicate 8 0#8)).2 = true := by decide +kernel

/-- A T5 tensor of one row of five zero trits at pitch address 0x4000, with its golden copy at 0x6000. -/
def tensorT : LoadedTensor := ⟨0x4000, 1, 0, 0, 0, 5, 1, 0x3F800000#32, 1, 0x6000, [], [crc32c [0x79#8]], []⟩

/-- Its 32 header bytes and its payload byte (R32, R36). -/
def headerT : List Byte :=
  leBytes 4 1 ++ leBytes 4 5 ++ leBytes 4 1 ++ leBytes 4 0x3F800000 ++ leBytes 4 1 ++ leBytes 12 0

/-- A tile of 16 rows in one slot, in mode 0. -/
def tileT (st : RunState) : TileRun :=
  ⟨0, false, 16, 0, 0, 0, none, [], [⟨0, 0, none, 0, false, false, 0, []⟩], 0, false, 0, st, 0, [], none, [], [], [], [], [], []⟩

/-- Camp 0 at a word, with one tile and a requantisation buffer in core 0. -/
def tiledT (w : CmdWord) (t : TileRun) : State :=
  { readyT with camps := [(0, { campT w with cores := [(0, { Core.fresh with win := [(0, 0x410000000#64)], tiles := [t] })] })] }

/-- The ranges decode, and leave the state as it was. -/
def decodesT (c : Ctx) (ranges : List (Nat × Nat)) (s : State) : Bool :=
  match withStream c false ranges s .done with
  | .done t => decide (t = s)
  | .wait _ => false
  | .fault _ => false
  | .settled _ => false

/-- A T5 tensor, and a multiplier descriptor of K for KV head 0 whose list has one chunk of a page (R182, R183). -/
theorem witness_StreamsAndTilesIssue :
    let w := wordT [(0, 0x0A), (32, 0x4000), (104, 1)]
    let s := pokeBytes (atT w) 0x4000 (headerT ++ [0x79#8])
    let h := parseHeader (peekBytes s (daOf s recT 0x4000) 32)
    let v := wordT [(0, 0x0A), (32, 0x4000), (79, 1), (104, 1)]
    let entry := leBytes 8 0x6000 ++ leBytes 4 0 ++ leBytes 1 255 ++ leBytes 1 0 ++ leBytes 2 0
    let d := leBytes 1 1 ++ leBytes 1 0 ++ leBytes 1 0 ++ leBytes 1 4 ++ leBytes 2 128 ++ leBytes 2 0 ++ leBytes 4 1 ++ leBytes 4 0 ++ leBytes 8 0x5000 ++ leBytes 8 0
    let u := pokeBytes (pokeBytes (atT v) 0x4000 d) 0x5000 entry
    AtCommand s 0 w recT 0 progT ∧ HasNext progT ∧ FieldsClear w 0x0A [(127, 32)] ∧ flag w 79 = false ∧ 1 ≤ fld w 127 104
      ∧ (campOf s 0).ahead = [] ∧ addressFault s recT noCore 0x4000 32 false = none ∧ headerOk h = true ∧ h.format ≠ 2
      ∧ addressFault s recT noCore 0x4000 (32 + h.payloadBytes) false = none ∧ CampAdmitted s 0 (streamRanges s recT 0x4000 32)
      ∧ codedAt s 0 0x4000 = none ∧ decodesT (ctxAt 0 recT 0 progT w) [(0x4000, 32)] s = true
      ∧ AtCommand u 0 v recT 0 progT ∧ FieldsClear v 0x0A [(127, 32)] ∧ flag v 79 = true ∧ 1 ≤ fld v 127 104 ∧ multOk d = true
      ∧ streamBytes u recT 0x4000 32 = d ∧ addressFault u recT noCore 0x5000 16 false = none
      ∧ CampAdmitted u 0 (streamRanges u recT 0x4000 32) ∧ CampAdmitted u 0 (streamRanges u recT 0x5000 16)
      ∧ decodesT (ctxAt 0 recT 0 progT v) [(0x5000, 16)] u = true
      ∧ ((parseChunks none 1 (streamBytes u recT 0x5000 16)).any fun l => l.all fun x => tagOk x.2.2.2) = true := by decide +kernel

/-- A tile under an empty length table, for one core that holds an accepted tile. -/
theorem witness_StreamsAndTilesIssue_tile :
    let w := wordT [(0, 0x0C), (16, 1), (64, 5)]
    let cfg : TileCfg := ⟨0, 0, 0, 0, 5, 0⟩
    let st : Stream := .weights tensorT 0 1
    let s0 := tiledT w (tileT .accepted)
    let s := withSlotT (putCamp s0 0 { campOf s0 0 with stream := some st, cfg := some cfg }) 7 (slotT .full)
    let tbl := parseTable (peekBytes s (slotDa s recT (slotT .full)) 4096)
    AtCommand s 0 w recT 0 progT ∧ FieldsClear w 0x0C [(127, 32)] ∧ tileRule w = true ∧ cmdCores w ≠ [] ∧ (campOf s 0).stream = some st
      ∧ (campOf s 0).cfg = some cfg ∧ cfg.k0 + orMax (fld w 87 64) ≤ cfg.kTotal ∧ modeFits (fld w 34 32) st = true
      ∧ slotOf s recT progT.tableSlot = some (slotT .full) ∧ canRead (slotT .full) 0 = true ∧ slicePaused s recT (slotT .full) = false
      ∧ (∀ e ∈ tbl.rows, e.context + e.newTokens ≤ 2 ^ 32) ∧ tileRowFault s (ctxAt 0 recT 0 progT w) st cfg tbl = none
      ∧ maskFault s (ctxAt 0 recT 0 progT w) st cfg tbl = none ∧ chunkFault s (ctxAt 0 recT 0 progT w) st cfg tbl [0] = none
      ∧ (∀ t ∈ (coreOf (campOf s 0) 0).tiles, t.state = .accepted)
      ∧ CampAdmitted s 0 (tileReadRanges s (ctxAt 0 recT 0 progT w) [0] st cfg tbl) ∧ aheadNotes (ctxAt 0 recT 0 progT w) s = []
      ∧ findingWaits s true (.larderRunAhead 0) = false ∧ (applyFindings 0 0 true [.larderRunAhead 0] s).2 = true
      ∧ decodesT (ctxAt 0 recT 0 progT w) (streamsOf (ctxAt 0 recT 0 progT w) st cfg) s = true := by decide +kernel

/-- The words of the vector operations. -/
def vopT (op imm : Nat) : CmdWord := wordT [(0, 0x0D), (16, 1), (32, op), (56, imm), (64, 65535)]

theorem witness_ElementwiseOperationsWriteTheirRegister :
    (∀ x ∈ elementRows, AtCommand (atT (vopT x.op 0)) 0 (vopT x.op 0) recT 0 progT ∧ VectorWord (vopT x.op 0) x.op 0) ∧ elementRows.length = 18 := by
  decide +kernel

/-- A discard of an EXP2 and of a LDACC over an accepted tile, and four of them (R142). -/
theorem witness_ElementwiseOperationsWriteTheirRegister_discards :
    let m (unit : Nat) : List Mismatch := [⟨0, unit, 0, 1, 2⟩]
    let s := tiledT (vopT 0x12 0) (tileT .accepted)
    VectorWord (vopT 0x18 0) 0x18 0 ∧ AtCommand s 0 (vopT 0x12 0) recT 0 progT ∧ VectorWord (vopT 0x12 0) 0x12 0x07 ∧ TilesReady s 0 (vopT 0x12 0)
      ∧ ([m 0, [], m 1].filter fun ms => decide (ms ≠ [])).length = 2 ∧ ((m 0).all fun x => (m 1).all fun y => decide ((x.core, x.unit) ≠ (y.core, y.unit))) = true
      ∧ 4 ≤ ([m 0, m 1, m 2, m 3].filter fun ms => decide (ms ≠ [])).length := by decide +kernel

theorem witness_GroupsRotationsAndAccumulatorReads :
    VectorWord (vopT 0x10 1) 0x10 1 ∧ VectorWord (vopT 0x11 0) 0x11 1 ∧ VectorWord (vopT 0x1B 0) 0x1B 0 ∧ vopD (vopT 0x1B 0) % 2 = 0
      ∧ Stands (vopT 0x10 1) := by decide +kernel

theorem witness_GroupsRotationsAndAccumulatorReads_tiles :
    let s (w : CmdWord) := tiledT w (tileT .accepted)
    VectorWord (vopT 0x12 0x07) 0x12 0x07 ∧ VectorWord (vopT 0x13 0) 0x13 0x07 ∧ VectorWord (vopT 0x14 0) 0x14 0x07
      ∧ TilesReady (s (vopT 0x13 0)) 0 (vopT 0x13 0) ∧ AtCommand (s (vopT 0x13 0)) 0 (vopT 0x13 0) recT 0 progT
      ∧ VectorWord (vopT 0x15 0xF0) 0x15 0xF7 ∧ TilesReady (s (vopT 0x15 0xF0)) 0 (vopT 0x15 0xF0) ∧ VectorWord (vopT 0x16 0xF0) 0x16 0xF0 := by
  decide +kernel

/-- Core 0 has a window and a scalar register with a threshold of 1.0, and its buffer holds the given tags. -/
def reqT (tags : NMap (Nat × Nat)) : State :=
  withSlotT { readyT with camps := [(0, { campT 0 with cores :=
    [(0, { Core.fresh with win := [(0, 0x410000000#64)], req := ⟨[], tags⟩, sreg := [(0, 0x3F800000#32)] })] })] } 7 (slotT .full)

theorem witness_TableFor_untagged : TableFor (reqT []) recT 0 progT [0] 0 none := by
  unfold TableFor
  rw [show slotOf (reqT []) recT progT.tableSlot = some (slotT .full) from by decide +kernel]
  decide +kernel

theorem witness_TableFor_tagged :
    TableFor (reqT [(0, (0, 0))]) recT 0 progT [0] 0 (some (parseTable (peekBytes (reqT [(0, (0, 0))]) (slotDa (reqT [(0, (0, 0))]) recT (slotT .full)) 4096))) := by
  unfold TableFor
  rw [show slotOf (reqT [(0, (0, 0))]) recT progT.tableSlot = some (slotT .full) from by decide +kernel]
  decide +kernel

/-- REQOUT of an untagged buffer, and one whose tagged row needs the length table. -/
theorem witness_ReqoutFormsAndWritesRows :
    let w := wordT [(0, 0x0D), (16, 1), (32, 0x17), (56, 2), (64, 1)]
    let s := atT w
    AtCommand s 0 w recT 0 progT ∧ VectorWord w 0x17 0x07 ∧ bitsOf (vopImm w) 1 0 ≠ 3 ∧ bitOf (vopImm w) 2 = false ∧ vopRepeat w = 1
      ∧ (∀ c ∈ cmdCores w, windowFault (coreOf (campOf s 0) c) c (cmdTask w) 0
          (outUnits (ctxAt 0 recT 0 progT w) (outRows s (ctxAt 0 recT 0 progT w) none (coreOf (campOf s 0) c))) true = none) := by decide +kernel

theorem witness_ReqoutFormsAndWritesRows_tagged :
    let w := wordT [(0, 0x0D), (16, 1), (32, 0x17), (41, 8), (56, 6), (64, 1)]
    let s0 := reqT [(0, (0, 0))]
    let s := putCamp s0 0 { campT w with cores := (campOf s0 0).cores }
    let tbl := parseTable (peekBytes s (slotDa s recT (slotT .full)) 4096)
    AtCommand s 0 w recT 0 progT ∧ VectorWord w 0x17 0x07 ∧ bitOf (vopImm w) 2 = true ∧ 8 ≤ vopA w
      ∧ badThreshold (sOf (coreOf (campOf s 0) 0) (vopA w - 8)) = false ∧ cmdCores w = [0]
      ∧ windowFault (coreOf (campOf s 0) 0) 0 (cmdTask w) 0 (outUnits (ctxAt 0 recT 0 progT w) (outRows s (ctxAt 0 recT 0 progT w) (some tbl) (coreOf (campOf s 0) 0))) true = none := by
  decide +kernel

theorem witness_TopkWritesTheHighestRanked :
    let w := wordT [(0, 0x12), (16, 1), (52, 1), (64, 4092), (80, 8), (104, 3)]
    let m := wordT [(0, 0x12), (16, 1), (64, 0), (104, 0), (113, 31)]
    let s := withSlotT (atT w) 0 (slotT .full)
    AtCommand s 0 w recT 0 progT ∧ FieldsClear w 0x12 [(52, 32), (125, 64)] ∧ cmdCores w ≠ [] ∧ WindowHolds s 0 w 4092 4 true
      ∧ slotOf s recT 0 = some (slotT .full) ∧ 32 ≤ (slotT .full).size ∧ routeStays recT 0 0 = true ∧ canRead (slotT .full) 0 = true
      ∧ slicePaused s recT (slotT .full) = false ∧ ((inputElems 8 (peekBytes s (slotDa s recT (slotT .full)) 32)).all fun e => !isNaN e.v) = true
      ∧ CampAdmitted s 0 [(slotDa s recT (slotT .full), 32)] ∧ Ends s (.larderSlot 0 0)
      ∧ Stands m ∧ FieldsClear m 0x12 [(52, 32), (125, 64)] ∧ fld m 117 113 + 1 = 32
      ∧ (([⟨3#32, 0⟩, ⟨2#32, 1⟩] : List Ranked).map (·.pos)).Nodup := by decide +kernel

/-- One NaN input of row 0, whose length table names handle 0x10000. -/
theorem witness_TopkWritesTheHighestRanked_nan :
    let w := wordT [(0, 0x12), (16, 1), (52, 1), (64, 4092), (80, 8), (104, 3)]
    let g : TileCfg := ⟨0, 0, 0, 0, 5, 0⟩
    let s0 := withSlotT (withSlotT (putCamp (atT w) 0 { campT w with cfg := some g }) 0 (slotT .full)) 7 { slotT .full with base := 64 }
    let s := pokeBytes (pokeBytes s0 (slotDa s0 recT (slotT .full)) (leBytes 4 0x7FC00000)) (slotDa s0 recT { slotT .full with base := 64 })
      (leBytes 4 1 ++ leBytes 12 0 ++ leBytes 4 0x10000 ++ leBytes 12 0)
    let y := { slotT .full with base := 64 }
    AtCommand s 0 w recT 0 progT ∧ slotOf s recT 0 = some (slotT .full) ∧ (campOf s 0).cfg = some g ∧ slotOf s recT progT.tableSlot = some y
      ∧ ((inputElems 8 (peekBytes s (slotDa s recT (slotT .full)) 32)).filter fun e => isNaN e.v).length = 1 ∧ canRead y 0 = true ∧ slicePaused s recT y = false
      ∧ ((parseTable (peekBytes s (slotDa s recT y) y.size)).rows.all fun e => decide (e.context + e.newTokens ≤ 2 ^ 32)) = true
      ∧ ((parseTable (peekBytes s (slotDa s recT y) y.size)).rows[fld w 125 118]?).isSome = true := by decide +kernel

/-- An open epoch of pitch 0. -/
def epochT (closing : Option (Nat × Nat)) : Epoch := ⟨0, 2, 0x10000, 0x20000, 1, 0, closing⟩

/-- Instance 7 with that epoch. -/
def hashT (s : State) (closing : Option (Nat × Nat)) : State := { s with hash := s.hash.set 7 ⟨some (epochT closing), [(0, ⟨0, 5, 5, 1⟩)]⟩ }

theorem witness_HashAccumulatorsSumAndClose :
    let op := wordT [(0, 0x13), (32, 0x100)]
    let so := pokeBytes (atT op) 0x100 (leBytes 1 7 ++ leBytes 3 0 ++ leBytes 4 (2 ^ 24 - 1) ++ leBytes 8 0x10000 ++ leBytes 8 0x20000 ++ leBytes 8 0)
    let d := peekBytes so (daOf so recT 0x100) 32
    let cl := wordT [(0, 0x15), (32, 7), (48, 15)]
    AtCommand so 0 op recT 0 progT ∧ FieldsClear op 0x13 [(79, 32)] ∧ fld op 79 32 % 32 = 0 ∧ addressFault so recT noCore 0x100 32 false = none
      ∧ leAt d 0 1 = 7 ∧ 1 ≤ leAt d 4 4 ∧ leAt d 4 4 < 2 ^ 24 ∧ zerosAt d 1 3 = true ∧ zerosAt d 24 8 = true ∧ bitOf recT.hash 7 = true
      ∧ (hashOf so 7).epoch = none ∧ CampAdmitted so 0 [(daOf so recT 0x100, 32)]
      ∧ AtCommand (hashT (atT cl) none) 0 cl recT 0 progT ∧ FieldsClear cl 0x15 [(34, 32), (63, 48)] ∧ fld cl 34 32 = 7 ∧ fld cl 63 48 < recT.syncCount
      ∧ (hashOf (hashT (atT cl) none) 7).epoch = some (epochT none) := by decide +kernel

/-- A record for the key that has a way, and one whose bucket has free ways, from one core; the records of two cores. -/
theorem witness_HashAccumulatorsSumAndClose_add :
    let w := wordT [(0, 0x14), (16, 1), (32, 0), (48, 1), (64, 7)]
    let s := hashT (atT w) none
    let v := wordT [(0, 0x14), (16, 3), (32, 0), (48, 1), (64, 7)]
    let k : Core := { Core.fresh with win := [(0, 0x410000000#64)] }
    let e := { epochT none with maxContributions := 3 }
    let two := { atT v with camps := [(0, { campT v with cores := [(0, k), (1, { k with sp := [(0, 1#8)] })] })], hash := readyT.hash.set 7 ⟨some e, []⟩ }
    let recs := ([0, 1].map fun core => hashRecords 1 (spRead (coreOf (campOf two 0) core) 0 0 16)).flatten
    AtCommand s 0 w recT 0 progT ∧ FieldsClear w 0x14 [(66, 32)] ∧ cmdCores w = [0] ∧ fld w 63 48 = 1 ∧ WindowHolds s 0 w 0 2 false
      ∧ 7 < s.hash.length ∧ (hashOf s 7).epoch = some (epochT none) ∧ (epochT none).contributions < (epochT none).maxContributions
      ∧ (signed 64 (leAt (spRead (coreOf (campOf s 0) 0) 0 0 16) 8 8)).natAbs < 2 ^ 47 ∧ wayOf (hashOf s 7) 0 = some 0 ∧ wayOf (hashOf s 7) 1 ≠ none
      ∧ AtCommand two 0 v recT 0 progT ∧ cmdCores v = [0, 1] ∧ WindowHolds two 0 v 0 2 false ∧ (hashOf two 7).epoch = some e
      ∧ e.contributions + recs.length = e.maxContributions ∧ (∀ kv ∈ recs, kv.2.natAbs < 2 ^ 47) ∧ sliceLimited two 7 = false
      ∧ sliceLimited two (sliceOf 0) = false ∧ CampAdmitted two 0 [(daOf two recT e.spillBase, 0)] ∧ Ends two (.larderHash 7 0) := by decide +kernel

/-- Bucket 0 is full, so the record of key 0x2001 goes to the spill area. -/
theorem witness_HashAccumulatorsSumAndClose_spill :
    let w := wordT [(0, 0x14), (16, 1), (32, 0), (48, 1), (64, 7)]
    let full : HashInst := ⟨some (epochT none), [(0, ⟨0, 5, 5, 1⟩), (1, ⟨0x4002, 1, 1, 1⟩), (2, ⟨0x6003, 1, 1, 1⟩), (3, ⟨0x8004, 1, 1, 1⟩)]⟩
    let k : Core := { Core.fresh with win := [(0, 0x410000000#64)], sp := [(0, 1#8), (1, 0x20#8), (8, 3#8)] }
    let s := { readyT with camps := [(0, { campT w with cores := [(0, k)] })], hash := readyT.hash.set 7 full }
    AtCommand s 0 w recT 0 progT ∧ WindowHolds s 0 w 0 2 false ∧ (hashOf s 7).epoch = some (epochT none)
      ∧ leAt (spRead (coreOf (campOf s 0) 0) 0 0 16) 0 4 = 0x2001 ∧ wayOf (hashOf s 7) 0x2001 = none
      ∧ addressFault s recT 0 0x10000 16 true = none ∧ Admitted s [(daOf s recT 0x10000, 16)]
      ∧ ((hashOf (contributeAll recT 7 [(0x2001, 3)] s) 7).epoch.map (·.spilled)) = some 1 := by decide +kernel

/-- A close that writes one run, for camp 0 at its HCLOSE. -/
theorem witness_HashAccumulatorsSumAndClose_close :
    let cl := wordT [(0, 0x15), (32, 7), (48, 15)]
    let c := hashT { readyT with camps := [(0, { campT cl with blocked := some ⟨.hclose 7, cl, 0, false⟩ })] } (some (15, 0))
    7 < c.hash.length ∧ (campOf c 0).prog = some progT ∧ (hashOf c 7).epoch = some (epochT (some (15, 0))) ∧ recordOf c 0 = some recT
      ∧ addressFault c recT noCore 0x20000 (closeBytes (mergedRuns (hashOf c 7).entries (spillRecords 0 []))).length true = none
      ∧ (syncOf c 0 15).count + 1 < 2 ^ 32 ∧ (∀ k ∈ c.camps.map (·.1), ∀ b ∈ (campOf c k).blocked, b.reason ≠ .sync 15)
      ∧ Admitted c (mergeRanges c 7) := by decide +kernel

/-- A reduction that ends in a wide tile, without an input slot and with one, and one through slots 0 and 1. -/
theorem witness_TredReducesTiles :
    let w := wordT [(0, 0x10), (16, 1), (52, 1), (53, 1), (57, 1)]
    let y := { tileT .accepted with wide := true }
    let s := tiledT w y
    let v := wordT [(0, 0x10), (16, 1), (64, 1)]
    let t := withSlotT (withSlotT (tiledT v (tileT .accepted)) 0 (slotT .full)) 1 (slotT .empty)
    let n := wordT [(0, 0x10), (16, 1), (53, 1), (57, 1)]
    let u := withSlotT (tiledT n y) 0 (slotT .full)
    AtCommand s 0 w recT 0 progT ∧ FieldsClear w 0x10 [(57, 32), (83, 64)] ∧ cmdCores w = [0] ∧ flag w 57 = true ∧ flag w 53 = true ∧ flag w 52 = true
      ∧ tileAt (coreOf (campOf s 0) 0) 0 true = some y ∧ y.state = .accepted ∧ y.height = 16
      ∧ AtCommand t 0 v recT 0 progT ∧ FieldsClear v 0x10 [(57, 32), (83, 64)] ∧ flag v 53 = false ∧ flag v 52 = false
      ∧ tileAt (coreOf (campOf t 0) 0) 0 false = some (tileT .accepted) ∧ slotOf t recT 1 = some (slotT .empty) ∧ 64 * 16 ≤ (slotT .empty).size
      ∧ routeStays recT 0 0 = true ∧ canWrite (slotT .empty) = true ∧ slicePaused t recT (slotT .empty) = false
      ∧ slotOf t recT 0 = some (slotT .full) ∧ canRead (slotT .full) 0 = true ∧ AtCommand u 0 n recT 0 progT ∧ flag n 53 = true ∧ flag n 52 = false := by
  decide +kernel

theorem witness_TredReducesTiles_admitted :
    let v := wordT [(0, 0x10), (16, 1), (64, 1)]
    let t := withSlotT (withSlotT (tiledT v (tileT .accepted)) 0 (slotT .full)) 1 (slotT .empty)
    CampAdmitted t 0 [(slotDa t recT (slotT .full), 1024)] ∧ CampAdmitted t 0 [(slotDa t recT (slotT .empty), 1024)]
      ∧ (tredBytes (tredSums (coreOf (campOf t 0) 0) (tileT .accepted) (some (peekBytes t (slotDa t recT (slotT .full)) 4096)) 0)).length ≤ 1024 := by decide +kernel

/-- A pass of dual A4 in lane 127, one whose position ends past the 32-bit accumulator, an empty lane, and runs that have not been drained, that end
and that are run again. -/
theorem witness_LanesAccumulateAndRunsEnd :
    let x : LaneOp := ⟨0, 1, 3, 3, 4, true⟩
    let s (p : Pass) (y : TileRun) := { readyT with camps := [(0, { campT 0 with cores := [(0, { Core.fresh with tiles := [y], queues := [(127, [p])] })] })] }
    let pair : Pass := ⟨0, 0, 1, x, some { x with pos := 1, sigma := -1 }⟩
    let past : Pass := ⟨0, 0, 0, { x with op := 2 ^ 31, sh := 0 }, none⟩
    let big : TileRun := { tileT .running with elems := [⟨0, 0, none, 0, true, true, 0, []⟩], run := 2 }
    let done := tiledT 0 (tileT .running)
    queueOf (coreOf (campOf (s pair (tileT .running)) 0) 0) 0 = [] ∧ queueOf (coreOf (campOf (s pair (tileT .running)) 0) 0) 127 = [pair]
      ∧ ([tileT .running].find? fun t => decide (tileKey t = pair.tile)) = some (tileT .running)
      ∧ fits32 ((readAcc (coreOf (campOf (s pair (tileT .running)) 0) 0).acc 127 (accPlace (tileT .running) 0)).v + 48) = true
      ∧ past.first.last = true ∧ fits32 (past.first.sigma * (past.first.op * 2 ^ past.first.sh)) = false
      ∧ drained (coreOf (campOf (s pair (tileT .running)) 0) 0) (tileT .running) = false
      ∧ homeOf done 0 = some (recT, 0) ∧ tileAt (coreOf (campOf done 0) 0) 0 false = some (tileT .running)
      ∧ drained (coreOf (campOf done 0) 0) (tileT .running) = true ∧ (tileT .running).mark = none ∧ (tileT .running).mis = [] ∧ (tileT .running).wideRerun = false
      ∧ (∀ e ∈ (tileT .running).elems, e.overflowed = false ∧ e.level ≠ 4) ∧ (∃ e ∈ big.elems, e.overflowed = true) ∧ big.run < 3
      ∧ drained (coreOf (campOf (tiledT 0 big) 0) 0) big = true := by decide +kernel

/-- A mismatch in lane 5, first and again, one in a fourth discard, and marks of a damaged block and of the decoder (R91 to R93, R106). -/
theorem witness_LanesAccumulateAndRunsEnd_discards :
    let m : Mismatch := ⟨0, 5, 0, 1, 2⟩
    let y (n : Nat) (last : List Nat) : TileRun := { tileT .running with mis := [m], lastMis := last, discards := n }
    let marked (code : Nat) : TileRun := { tileT .running with mark := some ⟨code, 0x4020, 0, 0, 0x4020⟩ }
    let k (t : TileRun) : Core := coreOf (campOf (tiledT 0 t) 0) 0
    (∀ t ∈ [y 0 [], y 1 [5], y 3 [], marked 1, marked 2], tileAt (k t) 0 false = some t ∧ drained (k t) t = true ∧ t.state = .running)
      ∧ coreLoss 0 (k (y 0 [])) (y 0 []) = none ∧ lanesDue (y 0 []) = [] ∧ coreLoss 0 (k (y 1 [5])) (y 1 [5]) = none ∧ lanesDue (y 1 [5]) = [m]
      ∧ coreLoss 0 (k (y 3 [])) (y 3 []) = some m ∧ (marked 2).mark.map (·.code) = some 2 ∧ (marked 1).mark.map (·.code) = some 1 := by decide +kernel

theorem witness_RunAheadAndGoldenBlocks :
    let w := wordT [(0, 0x08), (11, 1), (16, 1), (32, 0x1000), (96, 512)]
    let p : Program := { progT with commands := 65 }
    let s := { readyT with camps := [(0, { campT 0 with cmdMem := [(0, 0), (64, w)], prog := some p })] }
    homeOf s 0 = some (recT, 0) ∧ (campOf s 0).prog = some p ∧ mget (campOf s 0).cmdMem 64 = some w ∧ cmdRa w = true ∧ 64 ≤ p.base + p.pc + 64
      ∧ 64 < p.base + p.commands ∧ fitRanges 65536 (aheadRanges s recT (campOf s 0) w) = [(0x1000, 4096)] ∧ CampAdmitted s 0 [(0x1000, 4096)]
      ∧ sliceLimited { s with pw := { s.pw with dies := { Die.reset with limited := true } :: s.pw.dies.tail } } (sliceOf 0) = true
      ∧ isBad (.hbmBad 0x1000 false .weights false) = true := by decide +kernel

theorem witness_RunAheadAndGoldenBlocks_golden :
    let y : TileRun := { tileT (.awaitingBlock 0x4020) with src := some ⟨tensorT, 0, 1, false, 0, 0, 5⟩, elems := [] }
    let s := pokeBytes (tiledT 0 y) 0x6020 [0x79#8]
    waitingFor readyT 0 0x4020 = [] ∧ waitingFor s 0 0x4020 = [(0, 0, y)] ∧ payloadDa s recT tensorT = 0x4020
      ∧ daOf s recT tensorT.golden + 32 = 0x6020 ∧ portWaits s 0x6020 = false ∧ portGone s 0x6020 = false
      ∧ crc32c (peekBytes s 0x6020 1) = tensorT.crcs.getD 0 0
      ∧ (reread (weightRefetchedEvent (dropBlock 0x4020 (regionPitches s 0) (pokeBytes s 0x4020 [0x79#8])) 0 0x4020) recT y).mark = none := by decide +kernel

/-- A package with two layers, whose append slots are 0 and 1. -/
def layeredT : LoadedPackage :=
  { packageT with layers := [⟨0, 1, 32, 0#32, [], 0, [], [], [], []⟩, ⟨1, 1, 32, 0#32, [], 1, [], [], [], []⟩] }

theorem witness_ProgramsStartAndSlotsFill :
    let s := onPitch (withSlotT (packedT { readyT with camps := [(0, { campT 0 with prog := none })] }) 7 (slotT .empty)) 0 fun x => { x with inStep := true }
    let f := withSlotT readyT 7 { slotT .filling with closing := true }
    let d := withSlotT readyT 7 (slotT .draining)
    homeOf s 0 = some (recT, 0) ∧ ((pitchOf s 0).package.bind fun g => g.programs.find? fun x => decide (x.program = 1) && x.camps.contains 0) = some ⟨1, 2, 1000, 0, [0], []⟩
      ∧ (campOf s 0).prog = none ∧ (campOf s 0).fenced = false ∧ (pitchOf s 0).inStep = true ∧ (pitchOf s 0).repairs = [] ∧ slotOf s recT 7 = some (slotT .empty)
      ∧ slotOf f recT 7 = some { slotT .filling with closing := true } ∧ appendLayer f 0 7 = none ∧ slotOf d recT 7 = some (slotT .draining) := by
  decide +kernel

/-- The append slot of layer 0 takes no row in a step without a micro-batch, and one row of a token beside four staged ones. -/
theorem witness_ProgramsStartAndSlotsFill_append :
    let x := { slotT .filling with closing := true }
    let f := withSlotT (onPitch readyT 0 fun x => { x with package := some layeredT }) 0 x
    let l : LayerState := { LayerState.fresh with staging := { LayerState.fresh.staging with count := 3, staged := 4, address := 0x20000 } }
    let g := { onPitch f 0 (fun y => { y with batch := [⟨0, none, 3, 1, 0, 0, 0, [4], none⟩] }) with
      seqs := [(0, { SeqEntry.fresh with state := .running, length := 3, tokens := [1, 2, 3], layers := [l, l] })] }
    ((appendLayer f 0 0).any fun l => (appendSlotFull f recT x l).2) = true ∧ ((appendLayer g 0 0).any fun l => (appendSlotFull g recT x l).2) = true
      ∧ ((appendLayer g 0 0).any fun l => decide (Admitted g (appendRanges g (appendSlotFull g recT x l).1 recT x l.layer))) = true
      ∧ findingWaits g false (.larderSlot 0 0) = false ∧ stopsCommand (.larderSlot 0 0) = true := by decide +kernel

theorem witness_TimeoutsAndFaultsStopTheStep :
    let r := wordT [(0, 0x16)]
    let v := wordT [(0, 0x0D), (16, 0x8000), (32, 0x1C), (64, 1)]
    let b : Blocked := ⟨.sync 3, wordT [(0, 0x11), (48, 1), (32, 3)], 5, false⟩
    let s := { readyT with camps := [(0, { campT b.w with blocked := some b })], cairn := { Cairn.reset with count := 1000005 } }
    Stands r ∧ 0x16 ≤ cmdOpcode r ∧ Stands v ∧ FieldsClear v 0x0D [(99, 32)] ∧ 0x1C ≤ vopOp v ∧ 1 ≤ vopRepeat v ∧ cmdCores v ≠ []
      ∧ homeOf s 0 = some (recT, 0) ∧ (campOf s 0).prog = some progT ∧ (campOf s 0).blocked = some b ∧ timed b.reason = true ∧ b.ready = false
      ∧ b.since + 1000 * progT.limitUs ≤ max s.cairn.count 0 ∧ (pitchOf s 0).timeouts = 0 ∧ fetchStalls s 0 b.reason = false ∧ (pitchOf s 0).repairs = [] ∧ repairsDue s 0 = []
      ∧ fetchStalls (onPitch s 0 fun x => { x with readySyncs := [(0, 3)], chosen := [⟨0, 0, [1], [], none, []⟩] }) 0 b.reason = true
      ∧ (pitchOf (onPitch s 0 fun x => { x with timeouts := 1 }) 0).timeouts ≠ 0 := by decide +kernel

/-! ### Witnesses: selection, pages and steps -/

/-- A sequence of pitch 0 with two layers. -/
def seqT (st : SeqState) : SeqEntry :=
  { SeqEntry.fresh with state := st, length := 3, tokens := [1, 2, 3], layers := [LayerState.fresh, LayerState.fresh], journal := [⟨0, 0, none, [], []⟩] }

/-- Entry 0 of the pitch holds a sequence, and a step runs one row of it with one new token, which both layers have staged. -/
def stepT (flags : Nat) : State :=
  let l : LayerState := { LayerState.fresh with staging := { LayerState.fresh.staging with count := 3, staged := 4 } }
  { onPitch readyT 0 (fun x => { x with inStep := true, package := some layeredT, batch := [⟨0, none, 3, 1, 0, flags, 0, [4], none⟩] }) with
    seqs := [(0, { seqT .running with layers := [l, l] })] }

/-- A row that attends exactly, whose layer has no page, before and after its chunk list has been written. -/
theorem witness_SelectionsAreRecorded :
    let s := stepT 1
    let m : MicroRow := ⟨0, none, 3, 1, 0, 1, 0, [4], none⟩
    let w := onPitch s 0 fun x => { x with chosen := [⟨0, 0, [], [], some 0x1000, []⟩] }
    recordOf s 0 = some recT ∧ recT.pitch = 0 ∧ (pitchOf s 0).batch[0]? = some m ∧ m.newTokens ≠ 0 ∧ layerIndex s 0 1 = 1
      ∧ ((seqOf s 0).layers[layerIndex s 0 1]?).isSome = true ∧ bitOf m.flags 0 = true ∧ hasList s 0 0 1 = false
      ∧ Admitted s (summaryRanges s 0 0 (layerIndex s 0 1)) ∧ hasList w 0 0 0 = true := by decide +kernel

/-- Layer 0 is chosen and its list can be written, with object 2 named for it; before that it is not. -/
theorem witness_SelectionsAreRecorded_lists :
    let c := onPitch (stepT 1) 0 fun x => { x with chosen := [⟨0, 0, [], [], none, []⟩], readySyncs := [(0, 2)] }
    let mine := (pitchOf c 0).chosen.filter fun c => decide (c.layer = 0)
    mget (pitchOf c 0).readySyncs 0 = some 2
      ∧ (((pitchOf c 0).batch.filter fun m => decide (m.newTokens ≠ 0)).all fun m => mine.any fun c => decide (c.seq = m.seq)) = true
      ∧ ((pitchOf c 0).batch.all (staged c 0 0)) = true ∧ ((writeLists recT 0 mine c).any fun u => decide (Admitted u (listRanges u recT 0))) = true ∧ (syncOf c 0 2).count + 1 < 2 ^ 32
      ∧ (∀ k ∈ c.camps.map (·.1), (campOf c k).blocked = none) ∧ (layerImage c 0 0).isSome = true ∧ 0 < (seqOf c 0).layers.length
      ∧ mget (pitchOf (stepT 1) 0).readySyncs 0 = none
      ∧ (mine.all fun c => c.pages.all fun n => hasHot (pageOf readyT 0 n)) = true := by decide +kernel

theorem witness_LanternKeepsSinkAndRecentPages :
    (selectPages profileT.lantern false 8 (fun i => BitVec.ofNat 32 i) (fun _ => 0#32)).chosen.length = 4 := by decide +kernel

/-- Page 1 of pitch 0 with a payload of 8,704 bytes (R202: tag 0, one KV head of 32 elements). -/
def pageT (st : PageState) (hot warm : Nat) : Page := { Page.fresh with state := st, refcount := 1, kvHeads := 1, dim32 := 1, hot := hot, warm := warm }

/-- The module with that page, and capacity port 0 in service. -/
def pagedT (g : Page) : State :=
  { onPitch readyT 0 (fun x => { x with pages := [(1, g)] }) with mem := { readyT.mem with ports := (CapPort.mk .up 1 none true) :: List.replicate 7 CapPort.reset } }

theorem witness_PagesMoveBetweenHotAndWarm :
    let w := pagedT { pageT .warm 0 0x200000001000 with wanted := true }
    let p := pagedT (pageT .promoting 0x1000 0x200000001000)
    let d := pagedT (pageT .demoting 0x1000 0x200000001000)
    let b := pagedT (pageT .both 0x1000 0x200000001000)
    let rs (s : State) := [(pitchDa s 0 0x200000001000, 8704), (pitchDa s 0 0x1000, 8704)]
    mayPromote w 0 1 = true ∧ (allocHot w 0 (payloadBytes (pageOf w 0 1))).isSome = true ∧ (roomFor w 0 (payloadBytes (pageOf w 0 1))).isSome = true
      ∧ mayPromote p 0 1 = false ∧ (pageOf p 0 1).state = .promoting ∧ payloadBytes (pageOf p 0 1) = 8704
      ∧ Admitted p (rs p) ∧ (pageOf p 0 1).doomed = false ∧ (pageOf d 0 1).state = .demoting
      ∧ Admitted d (rs d) ∧ (pageOf d 0 1).doomed = false ∧ (pageOf b 0 1).state = .both ∧ Admitted b (rs b) := by decide +kernel

/-- A page on its way that nothing references any more. -/
theorem witness_PagesMoveBetweenHotAndWarm_doomed :
    let s (st : PageState) := pagedT { pageT st 0x1000 0x200000001000 with doomed := true, refcount := 0 }
    (pageOf (s .promoting) 0 1).doomed = true ∧ (pageOf (s .demoting) 0 1).doomed = true
      ∧ Admitted (s .promoting) [(pitchDa (s .promoting) 0 0x200000001000, 8704), (pitchDa (s .promoting) 0 0x1000, 8704)] := by decide +kernel

/-- HBM of the pitch is occupied beyond the high mark of 0 %. -/
theorem witness_PagesMoveBetweenHotAndWarm_high :
    let r := { recT with profile := { profileT with lantern := { profileT.lantern with hotHigh := 0, hotLow := 0 } } }
    let s := { pagedT (pageT .hot 0x1000 0) with cfg := some { cfgT with pitches := [r] } }
    let s0 := onPitch s 0 fun x => { x with demoting := true }
    recordOf s 0 = some r ∧ r.pitch = 0 ∧ occupancyAbove s r r.profile.lantern.hotHigh = true
      ∧ firstPage s0 0 ((pagesIn s0 0 .hot).filter fun m => !pageParks s0 0 m) = some 1
      ∧ (allocWarm s0 0 1 (payloadBytes (pageOf s 0 1))).isSome = true := by decide +kernel

theorem witness_StepsBeginAndEnd :
    let s := packedT readyT
    let e := stepT 0
    let r := { recT with group := { groupT with groupSize := 2, members := [5, 6] } }
    let l := { s with cfg := some { cfgT with pitches := [r] } }
    recordOf s 0 = some recT ∧ (pitchOf s 0).enabled = true ∧ (pitchOf s 0).stopped = false ∧ (pitchOf s 0).groupDisabled = false
      ∧ (pitchOf s 0).inStep = false ∧ (pitchOf s 0).package ≠ none ∧ (pitchOf s 0).nextTick.getD (nextMicro s.cairn.count) ≤ s.cairn.count
      ∧ (pitchOf e 0).inStep = true ∧ programsRun e 0 = false ∧ phasesDone e recT = true ∧ sendDone e recT [] = true
      ∧ Admitted e (boundaryRanges e recT) ∧ findingWaits e false (.larderRanger 0) = false ∧ stopsCommand (.larderRanger 0) = true
      ∧ (pitchOf (repairNow s 0) 0).inStep = false ∧ (pitchOf (onPitch s 0 fun x => { x with stopped := true }) 0).stopped = true ∧ recordOf l 0 = some r ∧ isLead r = true ∧ 1 < r.group.groupSize
      ∧ 1 ∉ (pitchOf l 0).reports := by decide +kernel

/-- A layer has not staged the row's token. -/
theorem witness_StepsBeginAndEnd_unstaged :
    let s := { stepT 0 with seqs := [(0, seqT .running)] }
    (pitchOf s 0).inStep = true ∧ programsRun s 0 = false ∧ phasesDone s recT = false := by decide +kernel

theorem witness_CommittedRowsAdvanceTheirSequence :
    (seqOf (stepT 0) 0).state ≠ .free ∧ (pitchOf (stepT 0) 0).batch[0]?.map (·.newTokens) = some 1 := by decide +kernel

/-- Parameters of a greedy request. -/
def greedyT : SampleParams := ⟨0#32, 0x3F800000#32, 0, 0, 0, 0, none, []⟩

theorem witness_GreedySamplingTakesTheMaximum : isZero greedyT.temperature = true ∧ ([0x3F800000#32] : List Word) ≠ [] := by decide +kernel

/-! ### Witnesses: sequences -/

/-- A request for handle 0x10000 (entry 0 at generation 1) or for none. -/
def requestT (op handle count : Nat) (desc : List Byte) (st : ReqState) : Request :=
  ⟨0, .ring 1 0, op, 0, 7, handle, 0, 0, 4, count, 0x5000, [1, 2], greedyT, desc, none, false, st, 0, 0, 0, 0, 0⟩

/-- The module with one sequence and one request. -/
def askedT (e : SeqEntry) (q : Request) : State := { packedT readyT with seqs := [(0, e)], reqs := [q], reqNext := 1 }

theorem witness_SequencesAreCreatedForkedAndFreed :
    let q := fun op => requestT op 0x10000 0 [] .queued
    let create := askedT (seqT .idle) (requestT 1 0 0 [] .queued)
    let run := askedT (seqT .idle) (q 2)
    let held := askedT { seqT .held with hold := 2 } (q 2)
    let fork := askedT (seqT .idle) (q 4)
    MayAct create 0 1 (requestT 1 0 0 [] .queued) recT ∧ freeIndex create recT = some 1 ∧ refsFit create 0 (chainPages create 0 []) = true
      ∧ (fitSeq (createSeq create recT 1 [] [1, 2] false) 0 1).isSome = true
      ∧ MayAct run 0 2 (q 2) recT ∧ (seqOf run 0).state = .idle ∧ MayAct held 0 2 (q 2) recT ∧ (seqOf held 0).hold = 2
      ∧ MayAct fork 0 4 (q 4) recT ∧ freeIndex fork recT = some 1 ∧ (forkSeq fork recT 0 1).isSome = true
      ∧ MayAct (askedT (seqT .parked) (q 8)) 0 8 (q 8) recT ∧ Due (askedT (seqT .parked) (q 8)) 0 8 (q 8) recT := by decide +kernel

/-- CREATE that adopts a lost page, CONTINUE of a sequence held with cause 3, and FORK of one that references a lost page (R225, R336). -/
theorem witness_SequencesAreCreatedForkedAndFreed_lost :
    let q := fun op => requestT op 0x10000 0 [] .queued
    let e : SeqEntry := { seqT .idle with layers := [{ LayerState.fresh with pages := [1] }] }
    let s := { askedT e (q 4) with pitches := (onPitch (packedT readyT) 0 fun x => { x with pages := [(1, pageT lostState 0 0)] }).pitches }
    let h := askedT { seqT .held with hold := 3 } (q 2)
    MayAct s 0 4 (q 4) recT ∧ (seqOf s 0).state = .idle ∧ freeIndex s recT = some 1
      ∧ ((forkSeq s recT 0 1).any fun t => decide ((pageOf t 0 1).state = lostState)) = true
      ∧ MayAct h 0 2 (q 2) recT ∧ (seqOf h 0).state = .held ∧ (seqOf h 0).hold = 3 := by decide +kernel

/-- The first 256 tokens of a CREATE stand in the prefix tree, and one layer's page of them is lost. -/
theorem witness_SequencesAreCreatedForkedAndFreed_adopts :
    let toks := List.replicate 257 1
    let q := { requestT 1 0 0 [] .queued with flags := 1, tokens := toks }
    let s0 := { packedT readyT with reqs := [q], reqNext := 1 }
    let node : TreeNode := ⟨chunkHash (prefixKey recT) 0 0 (toks.take 256), 0, 0, [1, 2], [], 0, 0, toks.take 256⟩
    let s := onPitch s0 0 fun x => { x with pages := [(1, pageT .hot 0x1000 0), (2, pageT lostState 0 0)], tree := [(1, node)] }
    let chain := adoptChain s recT q.tokens
    MayAct s 0 1 q recT ∧ chain = [1] ∧ refsFit s 0 (chainPages s 0 chain) = true
      ∧ (fitSeq (createSeq s recT 0 chain toks false) 0 0).isSome = true
      ∧ (((List.range recT.profile.layers).map (adoptedLayer s recT chain)).any fun l => l.pages.any fun n => decide ((pageOf s 0 n).state = lostState)) = true := by
  decide +kernel

/-- A preempting PARK stands behind a due CONTINUE, TRUNCATE and FORK of its sequence (R311). -/
theorem witness_SequencesAreCreatedForkedAndFreed_preempted :
    let park := { requestT 5 0x10000 0 (leBytes 5 0 ++ leBytes 27 1) .queued with rid := 1 }
    let q := fun op => requestT op 0x10000 0 [] .queued
    let s := fun op => { askedT (seqT .idle) (q op) with reqs := [q op, park] }
    Due (s 2) 0 2 (q 2) recT ∧ preempted (s 2) 0 = true ∧ Due (s 3) 0 3 (q 3) recT ∧ preempted (s 3) 0 = true
      ∧ namesNone (q 2) = false ∧ (earlierOf (s 4) park).length = 1 := by decide +kernel

theorem witness_TruncateSetsTheLength :
    let q := requestT 3 0x10000 0 [] .queued
    let c := requestT 3 0x10000 2 [] .copying
    let s := askedT (seqT .idle) q
    let warm : SeqEntry := { seqT .idle with layers := [{ LayerState.fresh with pages := [1] }] }
    let q2 := { q with count := 2 }
    let w := { askedT warm q2 with pitches := (pagedT (pageT .warm 0 0x200000001000)).pitches }
    MayAct s 0 3 q recT ∧ (seqOf s 0).state ≠ .parked ∧ (seqOf s 0).state ≠ .held ∧ q.count ≤ (seqOf s 0).length ∧ oldestLength (seqOf s 0) ≤ q.count
      ∧ reopensWarm s 0 q.count = false ∧ (truncateSeq s recT 0 q.count).isSome = true
      ∧ MayAct w 0 3 q2 recT ∧ q2.count ≤ (seqOf w 0).length ∧ oldestLength (seqOf w 0) ≤ q2.count ∧ reopensWarm w 0 q2.count = true
      ∧ reqOf (askedT (seqT .idle) c) 0 = some c ∧ c.state = .copying ∧ copiesReady (askedT (seqT .idle) c) 0 2 = true
      ∧ (pitchOf (askedT (seqT .idle) c) 0).stopped = false ∧ groupOpen (askedT (seqT .idle) c) recT 3 = true
      ∧ Admitted (askedT (seqT .idle) c) (copyRanges (askedT (seqT .idle) c) recT 0 2) ∧ (seqOf (askedT (seqT .idle) c) 0).hold ≠ 4
      ∧ (truncateSeq (askedT (seqT .idle) c) recT 0 2).isSome = true := by decide +kernel

/-- A count beyond the length, and one before the oldest journal entry. -/
theorem witness_TruncateSetsTheLength_refused :
    let q (n : Nat) := requestT 3 0x10000 n [] .queued
    let s (n : Nat) := askedT { seqT .idle with journal := [⟨2, 1, none, [], []⟩, ⟨3, 2, none, [], []⟩] } (q n)
    MayAct (s 4) 0 3 (q 4) recT ∧ (seqOf (s 4) 0).length < 4 ∧ MayAct (s 1) 0 3 (q 1) recT ∧ 1 < oldestLength (seqOf (s 1) 0) := by decide +kernel

theorem witness_ParksWriteTheirImage :
    let d (disp pre : Nat) : List Byte := leBytes 4 0 ++ leBytes 1 disp ++ leBytes 1 pre ++ leBytes 1 1 ++ leBytes 1 0 ++ leBytes 8 0x1000 ++ leBytes 8 0x100000 ++ leBytes 8 0xFFFF
    let q (disp pre : Nat) := requestT 5 0x10000 0 (d disp pre) .queued
    let k (phase : Nat) : ParkState := ⟨none, true, 1, 1, 0x1000, 0x100000, 0xFFFF, phase, 0, 0, 1⟩
    let e (phase : Nat) : SeqEntry := { seqT .parked with park := some (k phase), layers := [] }
    let s (phase : Nat) := askedT (e phase) (q 0 0)
    let run := { requestT 2 0x10000 0 [] .ready with rid := 1 }
    let pre := { askedT (seqT .running) (q 2 1) with reqs := [run, q 2 1] }
    Due (askedT (seqT .idle) (q 0 0)) 0 5 (q 0 0) recT ∧ preempted (askedT (seqT .idle) (q 0 0)) 0 = false ∧ (parkDesc (d 0 0)).disposition = 0
      ∧ Due pre 0 5 (q 2 1) recT ∧ (parkDesc (d 2 1)).disposition = 2 ∧ preempted pre 0 = true ∧ (runningReq pre 0).isSome = true
      ∧ (∀ x ∈ pre.reqs, x.rid = 0 → x.opcode = 5) ∧ (seqOf (afterPreempt pre (q 2 1)) 0).exported = none
      ∧ (seqOf (afterPreempt pre (q 2 1)) 0).state = .idle ∧ forkPending (afterPreempt pre (q 2 1)) (q 2 1) = false
      ∧ Due (askedT (seqT .parked) (q 0 0)) 0 5 (q 0 0) recT
      ∧ (seqOf (s 3) 0).park = some (k 3) ∧ pagesMove (s 3) (e 3) = false ∧ toImport (s 3) 0 = [] ∧ badBack (s 3) 0 [] = none
      ∧ Admitted (s 3) (formRanges (s 3) recT 0)
      ∧ imageLength (imageRecords (s 3) recT 0 []) ≤ (k 3).destLength ∧ (seqOf (s 4) 0).park = some (k 4) ∧ imageAcked (s 4) (k 4) = true
      ∧ recordOf (s 3) (seqOf (s 3) 0).pitch = some recT := by decide +kernel

/-- An open session with 1 accepted and one message that waits for its acknowledgement. -/
def sessionT : Session := ⟨true, false, [], [], [], 2, 1, 1, [], [⟨1, 0, 4, [], 0, 31⟩], some 9, [], [], []⟩

/-- An EXPORTED page that is read back with a payload that fails its digest, and a destination over the network that has not acknowledged (R313, R324). -/
theorem witness_ParksWriteTheirImage_back :
    let k (phase kind : Nat) : ParkState := ⟨none, true, 1, kind, 0, 0, 3, phase, 0, 7, 1⟩
    let e (phase kind : Nat) : SeqEntry := { seqT .parked with park := some (k phase kind), layers := [{ LayerState.fresh with pages := [1] }] }
    let s (phase kind : Nat) := { pagedT { pageT .exported 0 0 with digest := 1 } with seqs := [(0, e phase kind)] }
    let w := putSession (s 4 2) 3 { sessionT with unacked := [⟨1, 0, msgImageData, leBytes 4 7, 0, 0⟩] }
    toImport (s 3 1) 0 = [1] ∧ (mget ([(1, [])] : NMap (List Byte)) 1).isSome = true ∧ imageAcked w (k 4 2) = false ∧ imageAcked (s 4 2) (k 4 2) = true := by
  decide +kernel

/-- An image of pitch 0 without tokens (R317, R318), which asks to be taken although its arithmetic differs. -/
def imageT : ImageRead where
  header := [0x56#8, 0x5A#8, 0x57#8, 0x50#8] ++ leBytes 2 1 ++ leBytes 2 1 ++ leBytes 16 0 ++ List.replicate 47 0#8 ++ [7#8] ++ leBytes 32 0
    ++ leBytes 12 0 ++ leBytes 2 0 ++ leBytes 2 2 ++ leBytes 2 1 ++ leBytes 2 0 ++ leBytes 4 64
  directory := leBytes 64 0
  directoryTag := true
  recordsTag := true
  records := []

/-- Source entry of an image in host memory (R325). -/
def srcT : List Byte := leBytes 1 1 ++ leBytes 1 1 ++ leBytes 2 0 ++ leBytes 8 0x1000 ++ leBytes 8 0x1000 ++ leBytes 2 0xFFFF ++ leBytes 10 0

theorem witness_ResumesBringTheSequenceBack :
    let here := requestT 6 0x10000 0 [] .queued
    let img := requestT 6 0 1 srcT .queued
    let read := { requestT 6 0x10000 1 srcT .reading with image := some imageT }
    let s := askedT (seqT .idle) img
    let early := { imageT with directory := [], recordsTag := false }
    MayAct (askedT (seqT .parked) here) 0 6 here recT ∧ (seqOf (askedT (seqT .parked) here) 0).state = .parked
      ∧ (seqOf (askedT (seqT .parked) here) 0).exported = none
      ∧ MayAct s 0 6 img recT ∧ earlyCheck s img recT imageT = none ∧ headerHeld s (sourceOf 1 (sourceFor srcT recT)) 7 imageT = true ∧ nextReads imageT = []
      ∧ freeIndex s recT = some 1 ∧ (match takeImage s recT 1 1 1 (sourceFor srcT recT) imageT with
        | .ok _ => true
        | .error _ => false) = true
      ∧ nextReads early ≠ [] ∧ earlyCheck s img recT early = none
      ∧ (earlyCheck s img recT { imageT with header := leBytes 128 0 }).isSome = true
      ∧ reqOf (askedT (seqT .parked) read) 0 = some read ∧ read.state = .reading ∧ read.image = some imageT := by decide +kernel

/-- An exported sequence without pages that is resumed in place, and an image whose layers hold nothing. -/
theorem witness_ResumesBringTheSequenceBack_exported :
    let here := requestT 6 0x10000 0 [] .queued
    let e : SeqEntry := { seqT .parked with exported := some ⟨1, 1, 0x1000, 0x1000, 0xFFFF, 1⟩ }
    let s := askedT e here
    let read := { requestT 6 0x10000 1 srcT .reading with image := some imageT }
    let t := askedT (seqT .parked) read
    MayAct s 0 6 here recT ∧ (seqOf s 0).exported = some ⟨1, 1, 0x1000, 0x1000, 0xFFFF, 1⟩ ∧ headerHeld s ⟨1, 1, 0x1000, 0x1000, 0xFFFF, 1⟩ here.tag imageT = true
      ∧ (resumeExported (finishPlain s here 0x0000) recT 0 here.tag here.origin imageT).isSome = true
      ∧ ((readLayers recT 0 imageT (List.range recT.profile.layers) t).any fun u =>
          (seqOf u 0).layers.all fun l => l.pages.all fun n => decide ((pageOf u 0 n).state ≠ lostState)) = true := by decide +kernel

/-- On a group of two the members check their images before a resume in place, which ends when they have answered. -/
theorem witness_ResumesBringTheSequenceBack_group :
    let here := requestT 6 0x10000 0 [] .queued
    let read := { requestT 6 0x10000 0 [] .reading with image := some imageT }
    let r := { recT with group := { groupT with groupSize := 2, members := [5, 6] } }
    let x : ImageSource := ⟨1, 1, 0x1000, 0x1000, 0xFFFF, 1⟩
    let s (q : Request) : State := { askedT { seqT .parked with exported := some x } q with cfg := some { cfgT with pitches := [r] } }
    MayAct (s here) 0 6 here r ∧ (seqOf (s here) 0).exported = some x ∧ headerHeld (s here) x here.tag imageT = true ∧ nextReads imageT = []
      ∧ imageT.directoryTag = true ∧ imageT.recordsTag = true ∧ 1 < r.group.groupSize ∧ r.group.groupPosition = 0 ∧ recordOf (s here) r.pitch = some r
      ∧ reqOf (s read) 0 = some read ∧ (pitchOf (s read) 0).stopped = false ∧ groupOpen (s read) r 6 = true ∧ (seqOf (s read) 0).state = .parked := by decide +kernel

theorem witness_ResumesBringTheSequenceBack_page :
    let e : SeqEntry := { seqT .idle with importing := some ⟨7, .device, false, true, [(1, (0, 0))]⟩, layers := [{ LayerState.fresh with pages := [1] }] }
    let s (wanted : Bool) := { pagedT { pageT .exported 0 0 with wanted := wanted } with seqs := [(0, e)] }
    importer (s true) 0 1 = some 0 ∧ (pageOf (s true) 0 1).state = .exported ∧ mayImport (s true) 0 0 1 = true ∧ mayImport (s false) 0 0 1 = true
      ∧ ((allocHot (s true) 0 8704).any fun x => !rangeStalls x.2 (pitchDa (s true) 0 x.1, 8704)) = true
      ∧ ((allocWarm (s false) 0 1 8704).any fun x => !rangeStalls x.2 (pitchDa (s false) 0 x.1, 8704)) = true
      ∧ payloadBytes (pageOf (s true) 0 1) = 8704 := by decide +kernel

/-- STATUS with a buffer of the record's length, with one that is too small, and in a group of two; sequences that run and that are parked. -/
theorem witness_StatusAndHoldingOfASequence :
    let q (n : Nat) := requestT 7 0x10000 0 (List.replicate n 0#8) .queued
    let s (n : Nat) := askedT (seqT .held) (q n)
    let r := { recT with group := { groupT with groupSize := 2, members := [5, 6] } }
    MayAct (s 128) 0 7 (q 128) recT ∧ (q 128).origin = .ring 1 0 ∧ ([] : List (List Byte)).length + 1 = recT.group.groupSize
      ∧ (statusRecord (s 128) 0 []).length = 128 ∧ 127 < (statusRecord (s 127) 0 []).length ∧ ([] : List (List Byte)).length + 1 ≠ r.group.groupSize
      ∧ (seqOf (askedT (seqT .running) (q 0)) 0).state ≠ .free ∧ (seqOf (askedT (seqT .parked) (q 0)) 0).state = .parked := by decide +kernel

/-! ### Witnesses: host port and firmware update -/

/-- The function of pitch 0, attached, with submission ring 15 and completion ring 0 of 64 entries. -/
def subT (doorbell : Nat) : Ring := ⟨0, 0, 64, 0x10000, 0, 0, false, doorbell, 0, true, []⟩
/-- A completion ring of 64 entries with `n` in flight and one completion held. -/
def compT (n : Nat) : Ring := ⟨0, 0, 64, 0x20000, 3, 0, false, 0, n, true, [(leBytes 32 1, false)]⟩
/-- The state with those rings on function 1. -/
def ringsT (sub comp : Ring) : State := putFn (packedT readyT) 1 { Function.reset with attached := true, sub := [(15, sub)], comp := [(0, comp)] }

theorem witness_RingsMoveWithTheirDoorbells :
    let s := ringsT (subT 0) (compT 64)
    let e := ringsT (subT 0) { compT 3 with position := 3 }
    1 < 65 ∧ fnReachable s 1 = true ∧ fnBarred s 1 = false ∧ mget (fnOf s 1).sub 15 = some (subT 0) ∧ doorbellOk (subT 0) 63#32 = true
      ∧ mget (fnOf s 1).comp 0 = some (compT 64) ∧ doorbellOk (compT 64) 0#32 = true ∧ freedBy (compT 64) 0 = 64
      ∧ mget (fnOf e 1).comp 0 = some { compT 3 with position := 3 } ∧ freedBy { compT 3 with position := 3 } 3 = 3
      ∧ freedBy { compT 3 with position := 3 } 4 = 4 := by decide +kernel

/-- A FREE of the sequence in entry 0 (R337, R338). -/
def freeEntryT : FetchedData := ⟨leBytes 1 8 ++ leBytes 3 0 ++ leBytes 4 77 ++ leBytes 4 0x10000 ++ leBytes 52 0, [], [], []⟩

theorem witness_RingsMoveWithTheirDoorbells_fetch :
    let s := { ringsT (subT 1) { compT 63 with held := [] } with seqs := [(0, seqT .idle)] }
    mget (fnOf s 1).sub 15 = some (subT 1) ∧ (subT 1).fetchError = false ∧ (subT 1).position ≠ (subT 1).doorbell
      ∧ completionRoom (fnOf s 1) (subT 1) = true ∧ recordOf s 0 = some recT ∧ refusalOf s recT (entryOf freeEntryT.entry) freeEntryT = none := by
  decide +kernel

/-- A mailbox of a function with a message in a state. -/
def mailT (fn mb : Nat) (st : MailState) (msg : List Word) (f : Function) : State :=
  putFn (packedT readyT) fn { f with mail := [(mb, { Mailbox.reset with state := st, message := msg, postedSeq := 255 })] }

/-- RING_CREATE of completion ring 15, and RING_DESTROY of it (R344, R420). -/
theorem witness_MailboxesCarryMessages :
    let f : Function := { Function.reset with attached := true, challenge := some (List.replicate 16 0#8) }
    let create := 0x01000000#32 :: [0x0F01#32, 64#32, 0x1000#32, 0#32, 31#32, 0#32, 0#32, 0#32]
    let sub := 0x01000000#32 :: [0x0F00#32, 65536#32, 0x1000#32, 0#32, 0#32, 0#32, 0#32, 0#32]
    let a := mailT 1 3 .posted create f
    let b := mailT 1 3 .posted sub { f with comp := [(0, compT 0)] }
    mailOk 1 3 = true ∧ fnReachable a 1 = true ∧ mget ([(0, 0x05000000#32)] : NMap Word) 0 = some 0x05000000#32 ∧ (4#32 : Word).getLsbD 2 = true
      ∧ 9 ≤ a.boot.phase ∧ (mailOf a 1 3).state = .posted ∧ fnBarred a 1 = false ∧ a.boot.configRefused = false ∧ mailType create = 0x01 ∧ (fnOf a 1).attached = true
      ∧ ringDescOk a 1 (wordBytes create 8) = true ∧ leAt (wordBytes create 8) 0 1 = 1 ∧ mget (fnOf a 1).comp 15 = none
      ∧ ringDescOk b 1 (wordBytes sub 8) = true ∧ leAt (wordBytes sub 8) 0 1 = 0 ∧ mget (fnOf b 1).sub 15 = none := by decide +kernel

theorem witness_MailboxesCarryMessages_destroy :
    let d (w : Word) := mailT 1 0 .posted [0x02000000#32, w] { Function.reset with attached := true, sub := [(15, subT 0)], comp := [(0, compT 0), (14, compT 0)] }
    mailType [0x02000000#32, 0x0F00#32] = 0x02 ∧ wordAt [0x02000000#32, 0x0F00#32] 1 = 0 + 256 * 15 ∧ mget (fnOf (d 0x0F00#32) 1).sub 15 ≠ none
      ∧ wordAt [0x02000000#32, 0x0E01#32] 1 = 1 + 256 * 14 ∧ mget (fnOf (d 0x0E01#32) 1).comp 14 ≠ none
      ∧ (∀ x ∈ (fnOf (d 0x0E01#32) 1).sub, x.2.completion ≠ 14) ∧ mailType [0x03000000#32] = 0x03 := by decide +kernel

/-- The four words of sixteen bytes. -/
def wordsT (bs : List Byte) : List Word := (List.range 4).map fun i => BitVec.ofNat 32 (leAt bs (4 * i) 4)

theorem leBytes_four (a b c d : Byte) : leBytes 4 (BitVec.ofNat 32 (leVal [a, b, c, d])).toNat = [a, b, c, d] := by
  have ha := a.isLt; have hb := b.isLt; have hc := c.isLt; have hd := d.isLt
  simp only [leBytes, leVal, BitVec.toNat_ofNat, List.cons.injEq, and_true]
  refine ⟨?_, ?_, ?_, ?_⟩ <;> apply BitVec.eq_of_toNat_eq <;> simp only [BitVec.toNat_ofNat] <;> omega

/-- The response of R421 is a message of sixteen bytes, whatever the function that makes it. -/
theorem witness_MailboxesCarryMessages_attach :
    let c := List.replicate 16 0#8
    let s := mailT 1 0 .posted [] { Function.reset with challenge := some c }
    (fnOf s 1).challenge = some c ∧ ∃ msg, mailType msg = 0x04 ∧ wordBytes msg 4 = attachResponse s 0 c := by
  refine ⟨by decide +kernel, ?_⟩
  generalize hr : attachResponse _ 0 _ = r
  have hl : r.length = 16 := by
    rw [← hr]; unfold attachResponse padTo
    simp only [List.length_append, List.length_take, List.length_replicate]; omega
  refine ⟨0x04000000#32 :: wordsT r, (by decide : bitsOf (0x04000000#32 : Word).toNat 31 24 = 4), ?_⟩
  match r, hl with
  | [a, b, c, d, e, f, g, h, i, j, k, l, m, n, o, p], _ =>
    have x := leBytes_four
    show leBytes 4 (BitVec.ofNat 32 (leVal [a, b, c, d])).toNat ++ (leBytes 4 (BitVec.ofNat 32 (leVal [e, f, g, h])).toNat
      ++ (leBytes 4 (BitVec.ofNat 32 (leVal [i, j, k, l])).toNat ++ (leBytes 4 (BitVec.ofNat 32 (leVal [m, n, o, p])).toNat ++ []))) = _
    simp only [x]; rfl

theorem witness_RegistersAndFunctionResets :
    let w : MsixEntry := ⟨0x1000, 9, true, true⟩
    let s := putFn readyT 64 { Function.reset with msix := [(31, w)], msixEnable := true }
    (fnOf s 64).msixEnable = true ∧ (fnOf s 64).msixMask = false ∧ fnExists s 64 = true ∧ s.host.vfEnable = true ∧ (vfs s).length = 64 ∧ 64 < 65 ∧ s.host.up = true ∧ fnReachable s 64 = true ∧ fnReachable s 0 = true ∧ 31 < vectorsOf 64 ∧ ¬(32 < vectorsOf 64) ∧ 63 < vectorsOf 0
      ∧ (mgetD (fnOf s 64).msix 31 ⟨0, 0, true, false⟩).waiting = true ∧ (2#32 : Word).getLsbD 0 = false := by decide +kernel

/-- An update message of the PF's mailbox 255, and of the management session. -/
theorem witness_UpdatesWriteAndRestart :
    let msg := [0x17000000#32]
    let s := mailT 0 255 .posted msg Function.reset
    let m := putSession onlineT 9 sessionT
    let d : Datagram := ⟨5, 0, none, List.replicate 16 2#8, 4791, 9, magicManagement, 1, 0x03, 2, 0, leBytes 4 0x17000000 ++ leBytes 60 0, true⟩
    fnReachable s 0 = true ∧ 9 ≤ s.boot.phase ∧ (mailOf s 0 255).state = .posted ∧ mailType (mailOf s 0 255).message = 0x17
      ∧ m.cfg.bind (·.management) = some ⟨9, 0, 4791, 4791, []⟩ ∧ (sessionOf m 9).isOpen = true ∧ managementSubmit (atTime m d.now) d = true
      ∧ mailType (sessionWords d) = 0x17 ∧ managementSubmit (atTime readyT d.now) d = false := by decide +kernel

/-- The header of a firmware image of the least length (R430). -/
def fwImageT : List Byte := [0x56#8, 0x5A#8, 0x46#8, 0x57#8] ++ leBytes 2 1 ++ leBytes 2 1 ++ leBytes 8 0 ++ leBytes 8 (64 + signatureBytes) ++ leBytes 40 0

theorem witness_UpdatesWriteAndRestart_writes :
    let last := [0x10000000#32, 1#32, BitVec.ofNat 32 (2 ^ 24 - 65536), 1#32, 0#32, 65536#32]
    let inl := [0x10000000#32, 0#32, 0#32, 0#32, 0#32, 1#32]
    let s := { readyT with nvm := { readyT.nvm with fwA := fwImageT, fwB := fwImageT } }
    fwWriteArgs false [] last = true ∧ fwWriteArgs true [7#8] inl = true ∧ s.pw.onBackup = false ∧ s.nvm.lock.lock = false ∧ moving s = false
      ∧ s.boot.onTrial = false ∧ slotCheck s 0 true = 0 ∧ wordAt [0x12000000#32, 10000000000#32, 2#32, 0#32] 3 = 0
      ∧ s.cairn.count + 10000000000 ≤ iovaAt [0x12000000#32, BitVec.ofNat 32 10000000000, 2#32, 0#32] 1 ∧ allExported s = true := by decide +kernel

/-- FW_ACTIVATE without a trial in mailbox 255, ten seconds ahead. -/
theorem witness_UpdatesWriteAndRestart_messages :
    let msg := [0x12000000#32, BitVec.ofNat 32 10000000000, 2#32, 0#32, 0#32, 0#32, 0#32, 0#32]
    let s := mailT 0 255 .posted msg Function.reset
    fnReachable s 0 = true ∧ 9 ≤ s.boot.phase ∧ (mailOf s 0 255).state = .posted ∧ (mailOf s 0 255).message = msg ∧ mailType msg = 0x12 ∧ wordAt msg 3 < 4
      ∧ bitOf (wordAt msg 3) 0 = false ∧ moving s = false ∧ activateOk s (iovaAt msg 1) false [] = true ∧ wordAt [0x11000000#32, 3#32] 1 < 4 := by decide +kernel

theorem witness_UpdatesWriteAndRestart_confirm :
    let s := { readyT with boot := { readyT.boot with onTrial := true, readyAt := some 0 }, nvm := { readyT.nvm with fuses := ⟨some 3, 0, [], [], [], [], [], 0⟩ }
                           cairn := { Cairn.reset with count := 60000000000 } }
    let rec1 : List Byte := [0x56#8, 0x5A#8, 0x4C#8, 0x4B#8] ++ leBytes 1 1 ++ leBytes 3 0 ++ leBytes 8 1 ++ List.replicate 4784 0#8
    windowOpen s = true ∧ lockRecordOk rec1 = true ∧ s.nvm.fuses.ownerHash ≠ none ∧ s.nvm.lock.counter < leAt rec1 8 8
      ∧ iovaAt [0x16000000#32, 1#32, 0#32] 1 ≠ 0 ∧ iovaAt [0x16000000#32, 0#32, 0#32] 1 = 0 := by decide +kernel

/-- Findings of a start at which everything is good, with the NOR's contents. -/
def findingsT (n : Option Nvm) : BootFindings := ⟨5, true, true, true, true, 0#4, n, true, true, true, true⟩

theorem witness_UpdatesWriteAndRestart_restart :
    let s (t : Nat) := { readyT with boot := { readyT.boot with arm := some ⟨t, true⟩ } }
    (s 5).boot.arm = some ⟨5, true⟩ ∧ 5 ≤ (atTime (s 5) (findingsT none).now).cairn.count ∧ (atTime (s 6) (findingsT none).now).cairn.count < 6
      ∧ (s 5).pw.onBackup = false ∧ ({ s 5 with pw := { (s 5).pw with onBackup := true } } : State).pw.onBackup = true := by decide +kernel

/-- A packet of a kind from a device with a body, and the module with it in the receive buffer of link 23. -/
def packetT (kind : Nat) (head : List Byte) (body : List Byte) : List Byte :=
  leBytes 1 kind ++ leBytes 3 0 ++ leBytes 2 6 ++ leBytes 4 0 ++ leBytes 2 body.length ++ padTo 20 head ++ body

/-- A working link with packets in its receive buffer. -/
def upLinkT (inbox : List (List Byte)) : Link := { Link.reset with state := .up, inbox := inbox }

/-- The module whose link 23 works. -/
def linkedT (s : State) (inbox : List (List Byte)) : State := putLink s 23 (upLinkT inbox)

theorem witness_UpdatesWriteAndRestart_blocks :
    let blk (op len : Nat) (data : List Byte) := packetT 4 [] (leBytes 1 op ++ leBytes 1 1 ++ leBytes 2 0 ++ leBytes 4 0 ++ leBytes 2 data.length ++ leBytes 2 0 ++ leBytes 4 len ++ leBytes 16 9 ++ data)
    let a := blk 0x10 (2 ^ 24) [1#8, 2#8]
    let b := blk 0x13 0 (leBytes 64 0)
    leAt a 0 1 = 4 ∧ linkWith (linkedT readyT [a]) a = some 23 ∧ leAt (packetBody a) 1 1 = 1 ∧ zerosAt (packetBody a) 2 2 = true
      ∧ zerosAt (packetBody a) 10 2 = true ∧ leAt (packetBody a) 8 2 = 2 ∧ leAt (packetBody a) 0 1 = 0x10 ∧ leAt (packetBody a) 12 4 = slotBytes 1
      ∧ writeRefused readyT 1 = false ∧ linkWith (linkedT readyT [b]) b = some 23 ∧ leAt (packetBody b) 0 1 = 0x13
      ∧ leAt ((packetBody b).drop 32) 4 4 = 0 := by decide +kernel

/-! ### Witnesses: fabric -/

/-- A frame of a type with the flit's zeros. -/
def frameT (type seq ack : Nat) : Frame := makeFrame type 0 false seq ack 0 0 (List.replicate 256 0#8)

theorem frameT_ok (type seq ack : Nat) (h1 : type < 16) (h2 : seq < 4096) (h3 : ack < 4096) :
    frameOk (frameT type seq ack) = true ∧ frType (frameT type seq ack) = type ∧ frVc (frameT type seq ack) = 0
      ∧ frSeq (frameT type seq ack) = seq ∧ frAck (frameT type seq ack) = ack := by
  have f := fields_makeFrame type 0 false seq ack 0 0 (List.replicate 256 0#8) h1 (by decide) h2 h3 (by decide) (by decide)
  exact ⟨frameOk_makeFrame type 0 false seq ack 0 0 _ (List.length_replicate ..) h1 (by decide) h2 h3 (by decide) (by decide), f.1, f.2.1, f.2.2.1, f.2.2.2.1⟩

/-- A data frame in order at the last number, one that is not the next, an idle frame, a frame that is too short, and a seventh retry request. -/
theorem witness_FramesAreAcceptedOrSentAgain :
    let k : Link := { upLinkT [] with rxSeq := 4095, lastRetryAck := some 4095, sameAck := 6 }
    let s := putLink readyT 23 k
    linkAt s 23 = some k ∧ k.state = .up ∧ k.discarding = false ∧ s.fab.waiting = [] ∧ frameOk ⟨0, []⟩ = false
      ∧ (frameOk (frameT 1 4095 4095) = true ∧ frType (frameT 1 4095 4095) = 1 ∧ frVc (frameT 1 4095 4095) = 0
        ∧ frSeq (frameT 1 4095 4095) = k.rxSeq ∧ frAck (frameT 1 4095 4095) = 4095)
      ∧ (frType (frameT 1 0 0) = 1 ∧ frSeq (frameT 1 0 0) = 0) ∧ (frameOk (frameT 0 0 0) = true ∧ frType (frameT 0 0 0) = 0)
      ∧ (frameOk (frameT 2 0 4095) = true ∧ frType (frameT 2 0 4095) = 2 ∧ k.lastRetryAck = some (frAck (frameT 2 0 4095))) := by
  have a := frameT_ok 1 4095 4095 (by decide) (by decide) (by decide)
  have b := frameT_ok 1 0 0 (by decide) (by decide) (by decide)
  have c := frameT_ok 0 0 0 (by decide) (by decide) (by decide)
  have d := frameT_ok 2 0 4095 (by decide) (by decide) (by decide)
  exact ⟨by decide, by decide, by decide, by decide, by decide, a, ⟨b.2.1, b.2.2.2.1⟩, ⟨c.1, c.2.1⟩, d.1, d.2.1, by rw [d.2.2.2.2]⟩

/-- At 100 ms the link returns, with its neighbour's identity or another one, and a nanosecond later it is lost. -/
theorem witness_LinksGoDownAndReturn :
    let k : Link := { upLinkT [] with state := .retraining, downSince := some 5 }
    let s := putLink readyT 1 k
    linkAt (linkedT readyT []) 23 = some (upLinkT []) ∧ (upLinkT []).state = .up ∧ linkAt s 1 = some k ∧ k.state = .retraining ∧ k.downSince = some 5
      ∧ (linkEntry s 1).map (fun e => (e.peerDevice, e.peerLink)) = some (7, 0)
      ∧ (atTime s 100000005).cairn.count ≤ 5 + 100000000 ∧ 5 + 100000000 < (atTime s 100000006).cairn.count := by decide +kernel

/-- A transfer descriptor (R395): link 0, device 6, group 1, pitch 0, slots 0 to 0, 4,096 bytes. -/
def descT (coded : Nat) : List Byte := leBytes 1 0 ++ leBytes 1 coded ++ leBytes 2 6 ++ leBytes 2 1 ++ leBytes 2 0 ++ leBytes 4 0 ++ leBytes 4 0 ++ leBytes 4 4096 ++ leBytes 12 0

/-- The pitch belongs to a group of two modules, 5 and 6, and its slot 0 is filled from outside. -/
def pairT (st : SlotState) (members : List Nat) : State :=
  withSlotT { readyT with cfg := some { cfgT with pitches := [{ recT with group := { groupT with groupSize := 2, members := members } }] } } 0
    { slotT st with producer := 0xFFFF }

/-- A slot data packet of transfer 9 from device 6 (R396): stream offset 0, a stream of `n` bytes. -/
def dataT (coded n : Nat) (body : List Byte) : List Byte :=
  leBytes 1 1 ++ leBytes 3 0 ++ leBytes 2 6 ++ leBytes 2 1 ++ leBytes 1 0 ++ leBytes 1 coded ++ leBytes 2 body.length ++ leBytes 4 9 ++ leBytes 4 0
    ++ leBytes 4 0 ++ leBytes 4 n ++ leBytes 4 0 ++ body

theorem witness_TransfersAreCutAndLand :
    let s := withSlotT readyT 0 (slotT .full)
    let r : PitchRecord := { recT with group := { groupT with groupSize := 2, members := [5, 6] } }
    let x : Slot := { slotT .empty with producer := 0xFFFF }
    let raw := dataT 0 3 [1#8, 2#8, 3#8]
    let blk := encodeBlock coderZeroRun false (List.replicate 8 0#8)
    let cod := dataT 1 blk.length blk
    let t (p : List Byte) := linkedT (pairT .empty [5, 6]) [p]
    slotOf s recT (transferDesc (descT 1)).srcSlot = some (slotT .full) ∧ descOk (descT 1) = true ∧ (slotT .full).state = .full
      ∧ (transferDesc (descT 1)).srcOffset + (transferDesc (descT 1)).length ≤ (slotT .full).size
      ∧ Admitted (atTime s 0) [(slotDa s recT (slotT .full) + (transferDesc (descT 1)).srcOffset, (transferDesc (descT 1)).length)]
      ∧ Admitted (t raw) (landingRanges (t raw) r (recvOf (t raw) raw 4093) x 0 (packetBody raw))
      ∧ Admitted (t cod) (landingRanges (t cod) r (recvOf (t cod) cod 0) x 0 blk)
      ∧ leAt raw 0 1 = 1 ∧ linkWith (t raw) raw = some 23 ∧ landingSlot (t raw) raw = some (r, x) ∧ canWrite x = true
      ∧ (recvOf (t raw) raw 4093).slot = leAt raw 16 4 ∧ (recvOf (t raw) raw 4093).coded = false ∧ 4093 + 0 + (packetBody raw).length ≤ x.size
      ∧ (recvOf (t raw) raw 4093).length ≤ contiguous (mset (recvOf (t raw) raw 4093).landed 0 (packetBody raw))
      ∧ landingSlot (t cod) cod = some (r, x) ∧ (recvOf (t cod) cod 0).coded = true ∧ packetBody cod = blk
      ∧ (newBlocks { recvOf (t cod) cod 0 with landed := [(0, blk)] }).map (·.bytes) = [blk]
      ∧ mgetD (recvOf (t cod) cod 0).failed 0 0 = 0 := by decide +kernel

/-- A raw body whose slot is still read. -/
theorem witness_TransfersAreCutAndLand_waits :
    let raw := dataT 0 3 [1#8, 2#8, 3#8]
    let t := linkedT (pairT .full [5, 6]) [raw]
    let r : PitchRecord := { recT with group := { groupT with groupSize := 2, members := [5, 6] } }
    let e := linkedT (pairT .empty [5, 6]) [raw]
    let z := { e with mem := { e.mem with units := [(515, ⟨.retained, 0, 0, 0⟩)] } }
    ¬Admitted z (landingRanges z r (recvOf z raw 0) { slotT .empty with producer := 0xFFFF } 0 (packetBody raw)) ∧
    (leAt raw 4 2 % 4096, leAt raw 12 4) ∉ t.fab.doneTransfers ∧ (landingSlot t raw).map (fun x => canWrite x.2) = some false
      ∧ (recvOf t raw 0).coded = false ∧ (packetBody raw).length = 3 := by decide +kernel

/-- Pitch 1 is sealed and holds the fabric's slots 0 to 9; slot 10 belongs to none (R399). -/
theorem witness_TransfersAreCutAndLand_egress :
    let s := { readyT with cfg := some { cfgT with pitches := [recT, { recT with pitch := 1, sealed := true, shares := [0, 0, 0, 10] }] } }
    slotOwner s 9 = some 1 ∧ slotOwner s 10 = none ∧ isSealed s 0 = false ∧ grantOf s [0, 1] 1000 9 = some (1, 9) ∧ grantOf s [0, 1] 1000 10 = some (0, 10)
      ∧ grantOf s [1] 1000 10 = some (1, 0)
      ∧ (flitOf s [⟨1, 0, 1, true, [[]]⟩] [] 1).isSome = true := by decide +kernel

theorem witness_TransfersAreCutAndLand_coded :
    let blk := encodeBlock coderZeroRun false (List.replicate 8 0#8)
    let raw := dataT 0 3 [1#8, 2#8, 3#8]
    let bad := blk.set 15 1#8
    (match decodeBlock false blk with
      | .ok x => decide (x.1 = List.replicate 8 0#8)
      | .error _ => false) = true
      ∧ (match decodeBlock false bad with
        | .ok _ => false
        | .error _ => true) = true ∧ landingSlot (linkedT (pairT .empty [5]) [raw]) raw = none := by decide +kernel

theorem witness_TransfersEndOrAreSentAgain :
    let d := transferDesc (descT 0)
    let x (n : Nat) : Send := ⟨0, d, [], 0, n, [], false⟩
    let resp := leBytes 1 2 ++ leBytes 3 0 ++ leBytes 2 6 ++ leBytes 2 1 ++ leBytes 2 0 ++ leBytes 2 16 ++ leBytes 4 9 ++ leBytes 16 0 ++ leBytes 16 0
    let s (n : Nat) := withSlotT { linkedT readyT [resp] with fab := { (linkedT readyT [resp]).fab with sends := [(9, x n)] } } 0 (slotT .full)
    let m := packetT 3 [] (leBytes 64 0)
    leAt resp 0 1 = 2 ∧ linkWith (s 0) resp = some 23 ∧ mget (s 0).fab.sends (leAt resp 12 4) = some (x 0)
      ∧ leAt resp 4 2 % 4096 = d.destDevice ∧ leAt (packetBody resp) 0 2 = 0 ∧ slotOf (s 0) recT d.srcSlot = some (slotT .full)
      ∧ (slotT .full).state = .full ∧ mget (s 3).fab.sends 9 = some (x 3) ∧ mget (s 4).fab.sends 9 = some (x 4)
      ∧ (∀ q ∈ (s 3).fab.waiting, q.2 ∉ (x 3).packets) ∧ (x 3).lastSent + 200000 ≤ max (s 3).cairn.count 200000
      ∧ leAt m 0 1 = 3 ∧ linkWith (linkedT readyT [m]) m = some 23 := by decide +kernel

/-- A response INTEGRITY_FAIL for block 5, which has not been sent again. -/
theorem witness_TransfersEndOrAreSentAgain_block :
    let d := transferDesc (descT 1)
    let x : Send := ⟨0, d, [], 0, 0, [], false⟩
    let resp := leBytes 1 2 ++ leBytes 3 0 ++ leBytes 2 6 ++ leBytes 2 1 ++ leBytes 2 0 ++ leBytes 2 16 ++ leBytes 4 9 ++ leBytes 16 0 ++ leBytes 2 rcIntegrityFail
      ++ leBytes 4 5 ++ leBytes 10 0
    let s := { linkedT readyT [resp] with fab := { (linkedT readyT [resp]).fab with sends := [(9, x)] } }
    leAt resp 0 1 = 2 ∧ linkWith s resp = some 23 ∧ mget s.fab.sends (leAt resp 12 4) = some x ∧ leAt resp 4 2 % 4096 = d.destDevice
      ∧ leAt (packetBody resp) 0 2 = rcIntegrityFail ∧ leAt (packetBody resp) 2 4 ∉ x.blockResent := by decide +kernel

/-- A time frame, whose payload is zero beyond some bytes. -/
def timeFrameT (head : List Byte) : Frame := makeFrame 3 0 false 0 0 0 0 (padTo 256 head)

theorem timeFrameT_ok (head : List Byte) (h : head.length ≤ 256) :
    frameOk (timeFrameT head) = true ∧ frType (timeFrameT head) = 3 ∧ (timeFrameT head).payload = padTo 256 head := by
  have f := fields_makeFrame 3 0 false 0 0 0 0 (padTo 256 head) (by decide) (by decide) (by decide) (by decide) (by decide) (by decide)
  refine ⟨frameOk_makeFrame 3 0 false 0 0 0 0 _ ?_ (by decide) (by decide) (by decide) (by decide) (by decide) (by decide), f.1, rfl⟩
  unfold padTo
  simp only [List.length_append, List.length_take, List.length_replicate]
  omega

/-- A child that asks its parent, a frame that fails its CRC, and roots with the pulse input. -/
theorem witness_TimeExchangesCorrectTheCount :
    let s := putLink (putLink readyT 0 (upLinkT [])) 1 (upLinkT [])
    let resp := padTo 256 (leBytes 1 2 ++ leBytes 3 0 ++ leBytes 4 7)
    let c : State := { s with cairn := { Cairn.reset with exchange := 7, t1 := some (5, 255), parent := some 0, good := 15 } }
    let b : State := { c with boot := { c.boot with ready := false } }
    let root : State := { readyT with cfg := some { cfgT with timeRoot := 5 } }
    timeAsked (atTime s 0) = some 0 ∧ servesTime s = true ∧ linkAt s 0 = some (upLinkT []) ∧ frameOk ⟨0, []⟩ = false
      ∧ leAt (padTo 256 (leBytes 1 1)) 0 1 = 1 ∧ c.cairn.t1 = some (5, 255) ∧ leAt resp 0 1 = 2 ∧ leAt resp 4 4 = c.cairn.exchange ∧ c.cairn.parent = some 0
      ∧ isRoot c = false ∧ c.boot.ready = true ∧ b.boot.ready = false
      ∧ 0 ≤ fine (atTime b 600).cairn.count b.cairn.frac + exchangeOffset resp (5, 255) 600 0
      ∧ fine (atTime b 600).cairn.count b.cairn.frac + exchangeOffset resp (5, 255) 600 0 < 2 ^ 72
      ∧ isRoot root = true ∧ root.cfg.any (·.ppsUsed) = true ∧ root.boot.ready = true ∧ root.cairn.steppedPps = false
      ∧ root.cairn.count + 1000000000 < 2 ^ 64 := by decide +kernel

theorem witness_TimeExchangesCorrectTheCount_frames :
    (frameOk (timeFrameT (leBytes 1 1)) = true ∧ frType (timeFrameT (leBytes 1 1)) = 3)
      ∧ (frameOk (timeFrameT (leBytes 1 2 ++ leBytes 3 0 ++ leBytes 4 7)) = true ∧ frType (timeFrameT (leBytes 1 2 ++ leBytes 3 0 ++ leBytes 4 7)) = 3) :=
  ⟨⟨(timeFrameT_ok _ (by decide)).1, (timeFrameT_ok _ (by decide)).2.1⟩, (timeFrameT_ok _ (by decide)).1, (timeFrameT_ok _ (by decide)).2.1⟩

/-- A root that is not ready and has taken no neighbour's count, and the response of a locked neighbour. -/
theorem witness_TimeExchangesCorrectTheCount_root :
    let payload := leBytes 1 2 ++ leBytes 3 0 ++ leBytes 4 7 ++ leBytes 8 5 ++ leBytes 8 155 ++ leBytes 8 155 ++ leBytes 3 0 ++ leBytes 1 1 ++ leBytes 220 0
    let s : State := { readyT with cfg := some { cfgT with timeRoot := 5 }, boot := { readyT.boot with ready := false }
                                   cairn := { Cairn.reset with exchange := 7, t1 := some (5, 0), parent := some 0 } }
    let up := putLink s 0 (upLinkT [])
    isRoot s = true ∧ bitOf (leAt payload 35 1) 0 = true ∧ timeAsked (atTime up 0) = some 0 ∧ s.cairn.tookNeighbour = false ∧ leAt payload 4 4 = s.cairn.exchange
      ∧ 0 ≤ fine (atTime s 105).cairn.count s.cairn.frac + exchangeOffset payload (5, 0) 105 0
      ∧ fine (atTime s 105).cairn.count s.cairn.frac + exchangeOffset payload (5, 0) 105 0 < 2 ^ 72 ∧ isRoot readyT = false := by decide +kernel

/-! ### Witnesses: Ethernet and SPDM -/

/-- A datagram of session 3 with a good tag. -/
def datagramT (type seq : Nat) (body : List Byte) : Datagram := ⟨5, 0, none, List.replicate 16 2#8, 4791, 3, magicRequest, 1, type, seq, 0, body, true⟩

theorem witness_SessionsCarryDatagrams :
    let s := { putSession (packedT onlineT) 3 sessionT with seqs := [(0, seqT .idle)] }
    let part (n : Nat) := datagramT 0x03 1024 (leBytes 4 77 ++ leBytes 2 0 ++ leBytes 2 n ++ freeEntryT.entry)
    knownDatagram onlineT (datagramT 0x01 1 (leBytes 16 0)) = true ∧ datagramOk s (datagramT msgAck 2 []) = true ∧ seqFresh (sessionOf s 3) 2 = true
      ∧ seqFresh (sessionOf s 3) 1024 = true ∧ seqFresh (sessionOf s 3) 1025 = false ∧ datagramOk s (part 1) = true ∧ sessionPitch s 3 = some 0
      ∧ recordOf s 0 = some recT ∧ 8 ≤ (part 1).body.length ∧ (∀ w ∈ (sessionOf s 3).submits, w.tag ≠ 77)
      ∧ refusalOf s recT (entryOf (assembled ((part 1).body.drop 8)).entry) (assembled ((part 1).body.drop 8)) = none
      ∧ leAt (part 2).body 6 2 = 2 ∧ datagramOk s (part 2) = true := by decide +kernel

/-- An OPEN, image data, a seq that has been accepted, a datagram with a bad tag, and ICMPv6 messages of the port in use. -/
theorem witness_SessionsCarryDatagrams_others :
    let s := putSession onlineT 3 sessionT
    let image := datagramT msgImageData 2 (leBytes 4 7 ++ leBytes 4 0 ++ leBytes 8 128 ++ [1#8])
    let old := datagramT 0x03 1 []
    let u := onlineT
    let mine := List.replicate 16 2#8
    frameReaches u 0 none mine = true ∧ icmpFits ⟨0, none, mine, 128, [], [], 0, []⟩ = true ∧ frameReaches u 0 (some 3) mine = false
      ∧ isManagement (putSession u 9 sessionT) 9 = true ∧ isManagement s 3 = false ∧ (datagramT 0x01 1 (leBytes 16 0)).body.length = 16 ∧ datagramOk s image = true ∧ seqFresh (sessionOf s 3) 2 = true ∧ 16 ≤ image.body.length
      ∧ datagramOk s old = true ∧ seqFresh (sessionOf s 3) 1 = false ∧ 1 ≤ (sessionOf s 3).highest
      ∧ knownDatagram s { old with tagOk := false } = true
      ∧ (cfgT.eth[0]?).map (·.inUse) = some true ∧ u.cfg = some cfgT ∧ u.eth.up.getD 0 false = true := by decide +kernel

theorem witness_SessionsCarryDatagrams_timers :
    let s := putSession readyT 3 sessionT
    let lost := putSession readyT 3 { sessionT with unacked := [⟨1, 0, 4, [], 0, 32⟩] }
    (sessionOf s 3).isOpen = true ∧ (sessionOf s 3).lost = false ∧ (sessionOf s 3).ackDue ≠ none ∧ (∀ u ∈ (sessionOf s 3).unacked, u.attempts < 32)
      ∧ (∃ u ∈ (sessionOf lost 3).unacked, 32 ≤ u.attempts ∧ u.sentAt + 2000000 ≤ max lost.cairn.count 2000000)
      ∧ 0 < readyT.eth.up.length ∧ readyT.cfg = some cfgT ∧ (cfgT.eth[0]?).map (·.inUse) = some true ∧ readyT.eth.up.getD 0 false ≠ true
      ∧ ({ readyT with eth := { readyT.eth with up := [true, false] } } : State).eth.up.getD 0 false = true := by decide +kernel

theorem witness_SpdmRequestsAreAnswered :
    spdmReachable readyT 0 = true ∧ spdmReachable readyT 1 = true ∧ spdmReachable (putSession readyT 9 sessionT) 2 = true
      ∧ (measurements readyT).length = 5 ∧ readyT.ranger.spdmVersion = false ∧ readyT.ranger.spdmAlgorithms = false := by decide +kernel

/-! ### Witnesses: memory, retention and reliability -/

/-- At 100 ms the port returns, and a nanosecond later it is lost. -/
theorem witness_CapacityPortsGoDownAndReturn :
    let k : CapPort := ⟨.retraining, 1, some 5, true⟩
    let s := { readyT with mem := { readyT.mem with ports := List.replicate 7 ⟨.up, 1, none, true⟩ ++ [k] } }
    7 < s.mem.ports.length ∧ (portAt s 0).state = .up ∧ portAt s 7 = k ∧ k.state = .retraining ∧ k.downSince = some 5
      ∧ max s.cairn.count 100000005 ≤ 5 + 100000000 ∧ 5 + 100000000 < max s.cairn.count 100000006
      ∧ pageOf s 0 0 = Page.fresh ∧ Page.fresh.warm = 0 := by decide +kernel

/-- The codeword stored at address 0, with symbol 15 or two symbols changed, and the codeword of address 0 read at address 32; a weight block, a row-start
table of one row of 1:8, and a tree node. -/
theorem witness_PatrolScrubRepairsWords :
    let z := List.replicate 19 0#16
    let s := onPitch readyT 0 fun x => { x with package := some { packageT with tensors := [tensorT] } }
    let g := pokeBytes s 0x6020 [0x79#8]
    (0 : Nat) < s.mem.n * 2 ^ 30 ∧ Admitted s [(0, 32)] ∧ checkWord 0 (readSymbols s 0 []) = .clean
      ∧ checkWord 0 (readSymbols s 0 (z.set 15 0x8001#16)) = .corrected 15 0x8001
      ∧ checkWord 0 (readSymbols s 0 ((z.set 3 1#16).set 9 7#16)) = .uncorrectable
      ∧ checkWord 32 (readSymbols s 32 ((storedSymbols s 32).map (BitVec.ofNat 16))) = .address
      ∧ tensorHolding g 0x4020 = some (recT, tensorT, 0) ∧ goldenDa g recT tensorT = 0x6020 ∧ portWaits g 0x6020 = false
      ∧ portGone g 0x6020 = false ∧ crc32c (peekBytes g 0x6020 1) = tensorT.crcs.getD 0 0 := by decide +kernel

theorem witness_PatrolScrubRepairsWords_rowStarts :
    let x : LoadedTensor := { tensorT with format := 2, n := 1, m := 8, k := 8, payloadBytes := 8, crcs := [crc32c (leBytes 8 (2 ^ 64 - 8))] }
    let s0 := onPitch readyT 0 fun y => { y with package := some { packageT with tensors := [x] } }
    let s := pokeBytes s0 0x6000 (leBytes 1 2 ++ leBytes 1 1 ++ leBytes 1 8 ++ leBytes 1 0 ++ leBytes 4 8 ++ leBytes 4 1 ++ leBytes 4 0x3F800000 ++ leBytes 4 8 ++ leBytes 12 0
      ++ leBytes 8 (2 ^ 64 - 8))
    ((pitchOf s 0).package.map (·.tensors)).bind (·[0]?) = some x ∧ goldenDa s recT x = 0x6020 ∧ portWaits s 0x6020 = false ∧ portGone s 0x6020 = false
      ∧ rowStarts (parseHeader (peekBytes s (goldenOf s recT x.address x.golden) 32)) (peekBytes s 0x6020 8) = some [0]
      ∧ badGolden x (peekBytes s (goldenDa s recT x) 8) = none := by decide +kernel

theorem witness_TemperaturesAndRetentionMoveTheirUnit :
    let r : PowerSection := { cfgT.power with bankRetention := true, channelRetention := true }
    let s := { readyT with cfg := some { cfgT with power := r } }
    let u (k : Nat) (st : UnitState) := { s with mem := { s.mem with units := [(k, ⟨st, 0, 0, 1⟩)] } }
    let moving := { u 0 .draining with pitches := (pagedT (pageT .promoting 0x1000 0x200000001000)).pitches }
    15 < s.mem.hbmStacks.length ∧ (unitAt s 8703).state = .active ∧ (unitAt s 8703).last + 100000 ≤ max s.cairn.count 100000
      ∧ max s.cairn.count 9999 < (unitAt s 0).last + 10000 ∧ mayRetain readyT 0 = false
      ∧ mayRetain (u 8191 .draining) 8191 = true ∧ admitted (u 8191 .draining) 8191 = 0
      ∧ 0 < admitted { moving with mem := { moving.mem with units := [(channelUnit moving 0x1000, ⟨.draining, 0, 0, 1⟩)] } } (channelUnit moving 0x1000) ∧ mayRetain s 8703 = true ∧ mayRetain s 0 = true
      ∧ unitAt (u 8191 .draining) 8191 = ⟨.draining, 0, 0, 1⟩ ∧ unitAt (u 8192 .retained) 8192 = ⟨.retained, 0, 0, 1⟩
      ∧ unitAt (u 8703 .waking) 8703 = ⟨.waking, 0, 0, 1⟩ := by decide +kernel

/-- A ring whose head, position 127 in its own sector, holds so many records, with so many spares used. -/
def ringT (records used : Nat) : Nvm :=
  { Nvm.blank with sectors := [(127, ⟨sectorHeader 4 127 0, List.replicate records ⟨0, 0, 1, 1, 0, []⟩⟩)], head := 127, sparesUsed := used }

theorem ringT_head (records used : Nat) : (headSector (ringT records used)).records = List.replicate records ⟨0, 0, 1, 1, 0, []⟩ := by
  have h : headSector (ringT records used) = ⟨sectorHeader 4 127 0, List.replicate records ⟨0, 0, 1, 1, 0, []⟩⟩ := by rfl
  rw [h]

theorem witness_ScrubLockstepAndSectorErase :
    let s := { readyT with mem := { readyT.mem with scrub := [⟨0x1000, 0x2000⟩] }, ranger := { Ranger.reset with pairMismatch := [(3, 0)] } }
    let n (records used : Nat) := { readyT with nvm := ringT records used }
    s.mem.scrub[0]? = some ⟨0x1000, 0x2000⟩ ∧ mget s.ranger.pairMismatch 3 = some (second (atTime s 999999999))
      ∧ mget s.ranger.pairMismatch 3 ≠ some (second (atTime s 1000000000)) ∧ (∀ p ∈ s.pitches, p.2.batch = [])
      ∧ (n 2046 0).ev.inRam = false ∧ sectorRecords ≤ (headSector (n 2046 0).nvm).records.length ∧ (headSector (n 2045 0).nvm).records.length < sectorRecords
      ∧ (n 2046 15).nvm.sparesUsed < 16 ∧ 16 ≤ (n 2046 16).nvm.sparesUsed := by
  refine ⟨by decide, by decide, by decide, by decide, rfl, ?_, ?_, by decide, by decide⟩
  · rw [ringT_head, List.length_replicate, show sectorRecords = 2046 from rfl]
  · rw [ringT_head, List.length_replicate, show sectorRecords = 2046 from rfl]
    decide

/-! ### Witnesses: power, start-up and package load -/

theorem witness_SuppliesFailAndReturn :
    let power (s : State) (main backup rails : Bool) : State := { s with pw := { s.pw with mainGood := main, backupGood := backup, rails := rails } }
    let b := power readyT true true true
    let off := power readyT false false false
    let w : State := { off with boot := { Boot.reset with phase := 1 } }
    readyT.pw.rails = true ∧ readyT.pw.onBackup = false ∧ readyT.pw.mainGood = true ∧ readyT.pw.backupGood = false ∧ b.pw.backupGood = true
      ∧ (41999 < 42000 ∧ 60000 < 60001) ∧ (42000 ≤ 43999 ∧ 43999 < 44000) ∧ (59500 < 59501 ∧ 59501 ≤ 60000)
      ∧ off.pw.rails = false ∧ startWaits off = false ∧ startWaits w = true ∧ w.pw.mainGood = false ∧ b.pw.vaux = true ∧ b.pw.rails = true
      ∧ startWaits b = false := by decide +kernel

/-- On backup for its time, under a policy and with a row in the batch or none, and with a sequence marked to park. -/
theorem witness_SuppliesFailAndReturn_policies :
    let p (policy : Nat) (batch : List MicroRow) : State := { onPitch readyT 0 (fun x => { x with batch := batch }) with
      cfg := some { cfgT with power := { cfgT.power with backupPolicy := policy } }
      pw := { readyT.pw with onBackup := true, backupGood := true, backupSince := some 5 }
      seqs := [(0, seqT .idle)] }
    let row : MicroRow := ⟨0, none, 3, 1, 0, 0, 0, [4], none⟩
    let m : State := { p 1 [] with pw := { (p 1 []).pw with toPark := [handleOf (p 1 []) 0] } }
    let late (s : State) : Bool := s.pw.onBackup && !s.pw.parked && decide (s.pw.backupSince = some 5)
      && decide (5 + cfgT.power.backupParkS * 1000000000 ≤ max s.cairn.count 10000000005) && decide (s.seqs.map (·.1)).Nodup
      && decide (∀ e ∈ s.seqs, e.1 < 65536) && decide ((seqOf s 0).state = .idle) && decide ((seqOf s 0).pitch = recT.pitch)
      && decide ((seqOf s 0).exported = none) && decide ((seqOf s 0).park = none)
    late (p 1 []) = true ∧ late (p 2 []) = true ∧ late (p 2 [row]) = true ∧ late m = true ∧ (cfgT.pitches.map (·.pitch)).Nodup
      ∧ recT.enabled = true ∧ isLead recT = true ∧ recT.parkKind ≠ 0 ∧ inFlight (p 2 []) 0 0 = false ∧ inFlight (p 2 [row]) 0 0 = true
      ∧ handleOf m 0 ∈ m.pw.toPark ∧ inFlight m 0 0 = false := by decide +kernel

/-- Dies at a point of 3, but die 7 at 4. -/
def diesT : List Die := (List.range 8).map fun d => { Die.reset with point := if d = 7 then 4 else 3 }

theorem witness_GovernorMovesOperatingPoints :
    let s := { readyT with pw := { readyT.pw with dies := diesT, belowSince := some 0 } }
    s.pw.dies.length = 8 ∧ governs s = true ∧ activeLimit s = 10000 ∧ 0 < highestPoint s ∧ 11 * activeLimit s < 10 * 11001
      ∧ ¬(11 * activeLimit s < 10 * 11000) ∧ activeLimit s < 10001 ∧ highestDie s = 7 ∧ lowestDie s = some 0
      ∧ 10 * 8999 < 9 * activeLimit s ∧ max 0 s.pw.lastChange + 100000000 ≤ max s.cairn.count 100000000 := by decide +kernel

theorem witness_TemperatureLimits :
    let hot (d : Nat) (v : Int) : List (List Int) := (List.range 8).map fun k => if k = d then [v, 0] else [0]
    readyT.pw.rails = true ∧ readyT.pw.dies.length = 8 ∧ (hot 7 1760).length = 8 ∧ (∃ d, d < 8 ∧ 16 * 110 ≤ junctionOf ((hot 7 1760).getD d []))
      ∧ (∀ d, d < 8 → junctionOf ((hot 7 1759).getD d []) < 16 * 110) ∧ 16 * 105 ≤ junctionOf ((hot 7 1759).getD 7 [])
      ∧ readyT.pw.coolantHigh = false ∧ inletMax readyT = 25 ∧ inletMax readyT + 2 < 28 ∧ inletMin readyT ≤ 25 ∧ 25 ≤ inletMax readyT := by decide +kernel

/-- A section directory and its sections, zeros but for the pitch record (R432, R433). -/
def cfgImageT : List Byte :=
  let lens := [(1, 192), (3, 192), (4, 64), (5, 8), (6, 96), (7, 8), (8, 32), (9, 24), (11, 16), (12, 1792)]
  let dir := (List.range 10).map fun k =>
    let x := lens.getD k (0, 0)
    leBytes 2 x.1 ++ leBytes 2 0 ++ leBytes 4 x.2 ++ leBytes 8 (232 + ((lens.take k).map (·.2)).sum)
  [0x56#8, 0x5A#8, 0x43#8, 0x46#8] ++ leBytes 2 3 ++ leBytes 2 0 ++ leBytes 8 1 ++ leBytes 8 (232 + 2424 + signatureBytes) ++ leBytes 2 5 ++ leBytes 38 0
    ++ leBytes 4 10 ++ leBytes 4 0 ++ dir.flatten
    ++ (leBytes 96 0 ++ leBytes 8 864 ++ leBytes 32 0 ++ leBytes 8 864 ++ leBytes 8 864 ++ leBytes 40 0) ++ leBytes 440 0 ++ leBytes 1792 0

/-- A NOR whose first slots hold that firmware, for configuration format 3, and that configuration. -/
def norT : Nvm :=
  { Nvm.blank with
    fwA := [0x56#8, 0x5A#8, 0x46#8, 0x57#8] ++ leBytes 2 1 ++ leBytes 2 1 ++ leBytes 4 0 ++ leBytes 2 3 ++ leBytes 2 0 ++ leBytes 8 (64 + signatureBytes) ++ leBytes 40 0
    cfgA := cfgImageT, fuses := ⟨some 3, 0, [], [], [], [], [], 0⟩ }

theorem witness_StartsChooseASlotAndWait :
    (findingsT none).pairsAgree = true ∧ (findingsT none).mainGood = true ∧ (chooseSlot Nvm.blank (findingsT none)).slot = none
      ∧ (chooseSlot norT (findingsT (some norT))).slot = some 0 ∧ chooseConfig norT (findingsT (some norT)) (leAt (fwSlot norT 0) 12 2) = some 0
      ∧ chooseConfig norT (findingsT (some norT)) 4 = none ∧ readyT.pw.vaux = true ∧ State.reset.pw.vaux = false
      ∧ directoryOk (cfgSlot norT 1) = false ∧ (999 < 1000 ∧ 1000 ≤ 1000) := by decide +kernel

theorem witness_StartsChooseASlotAndWait_directory : directoryOk (cfgSlot norT 0) = true := by decide +kernel

/-- A module at the check, with a configuration that passes, with one that does not, with none, and with one that was refused before. -/
theorem witness_ConfigurationCheckOpensOrRefuses :
    let c := { cfgT with regions := [], links := [], pitches := [{ recT with capacity := [], regions := 0 }] }
    let s (d : Option Configuration) (refused : Bool) := { readyT with cfg := d, boot := { Boot.reset with phase := 9, configRefused := refused } }
    (s (some c) false).boot.phase = 9 ∧ (s none true).cfg = none ∧ (s (some c) true).boot.configRefused = true ∧ (s (some c) false).boot.configRefused = false
      ∧ powerOk c.power = true ∧ c.power.backupFitted = true ∧ 25 ≤ (coolantRange c.power.coolant).2.1
      ∧ portWithoutLink (s (some c) false) c = false ∧ checkConfiguration (s (some c) false) c = none
      ∧ checkConfiguration (s (some c) false) { c with pitches := [{ recT with spares := 2 }] } ≠ none := by decide +kernel

theorem witness_StartUpPhasesFollow :
    let s := { readyT with boot := { Boot.reset with phase := 6 } }
    let t := putLink s 1 { Link.reset with state := .trained }
    ([0, 19999] : List Nat).all campOk = true ∧ s.boot.phase = 6 ∧ s.boot.arraysDone = false ∧ s.boot.hbmDone = false ∧ s.boot.linksDone = false
      ∧ s.boot.configRefused = false ∧ ({ s with boot := { s.boot with configRefused := true } } : State).boot.configRefused = true ∧ ({ s with cfg := none } : State).cfg = none ∧ ({ s with boot := { s.boot with phase := 4 } } : State).boot.phase = 4
      ∧ ({ s with boot := { s.boot with phase := 10 } } : State).boot.phase = 10 ∧ s.cfg = some cfgT ∧ linkAt t 1 = some { Link.reset with state := .trained } ∧ linkEntry t 1 = some ⟨1, 1, 7, 0, 0⟩ := by decide +kernel

theorem witness_GroupsJoin :
    let s := { readyT with boot := { Boot.reset with phase := 11 }, cairn := { Cairn.reset with locked := true } }
    let r : PitchRecord := { recT with group := { groupT with groupSize := 2, members := [5, 6] } }
    let d := onPitch { readyT with cfg := some { cfgT with pitches := [r] } } 0 fun x => { x with groupDisabled := true, joinAt := some 7 }
    s.cfg = some cfgT ∧ s.boot.phase = 11 ∧ timeSettled s cfgT = true ∧ (cfgT.pitches.map (·.pitch)).Nodup ∧ recordOf d 0 = some r
      ∧ (pitchOf d 0).groupDisabled = true ∧ d.cairn.count + 1000000000 ≤ 1000000000 ∧ (pitchOf d 0).joinAt = some 7 ∧ 7 ≤ max d.cairn.count 7 := by
  decide +kernel

/-- Every member agrees, whatever the digest of the running firmware is. -/
theorem witness_GroupsJoin_agree :
    let r : PitchRecord := { recT with group := { groupT with groupSize := 2, members := [5, 6] } }
    ∃ l, allAgree readyT r l = true :=
  ⟨[⟨6, some (firmwareDigest readyT), true, false⟩], by simp [allAgree, otherMembers, answerOf, recT, groupT, cfgT, readyT]⟩

/-- A package without tensors whose only program fits, and one whose program is of another version. -/
def imagePackageT (version : Nat) : PackageImage :=
  ⟨7, 16, none, [], [⟨leBytes 2 1 ++ leBytes 2 1 ++ leBytes 2 2 ++ leBytes 2 0 ++ leBytes 4 1000000 ++ leBytes 4 32768 ++ leBytes 4 8 ++ leBytes 4 16 ++ leBytes 4 version
    ++ leBytes 4 0, [0, 1], [0], false, []⟩], [⟨0, 64, 0, 0, 1, false, []⟩], [], []⟩

theorem witness_PackageLoadIsChecked :
    let busy := onPitch readyT 0 fun x => { x with inStep := true }
    (∃ p ∈ loadPitches busy 0 (imagePackageT 1) ++ regionPitches busy 0, (pitchOf busy p).inStep = true)
      ∧ (∀ p ∈ loadPitches readyT 0 (imagePackageT 1) ++ regionPitches readyT 0, (pitchOf readyT p).inStep = false) ∧ regionDigest readyT 0 (imagePackageT 1) = none
      ∧ (pitchOf readyT 0).package = none ∧ packageRefusal readyT recT (imagePackageT 1) = none
      ∧ packageRefusal readyT recT (imagePackageT 2) ≠ none
      ∧ regionDigest (packedT readyT) 0 (imagePackageT 1) = some (imagePackageT 1).digest ∧ (pitchOf (packedT readyT) 0).package ≠ none
      ∧ regionDigest (packedT readyT) 0 { imagePackageT 1 with digest := 8 } ≠ some 8 := by decide +kernel

/-! ### Arithmetic: the spec's examples -/

/-- R58: two ties, one to the even neighbour below and one away from an odd one; a NaN keeps its upper half with the quiet bit. -/
theorem test_bf16_roundsToEven : toBF16 0x3F808000#32 = 0x3F80 ∧ toBF16 0x3F818000#32 = 0x3F82 ∧ toBF16 0x7F800001#32 = 0x7FC0 := by decide +kernel

/-- R51's example: 1,000, −250 and 20 in units of 2^−10 as A8 give 125, −31 and 2 with E = 120, and as A4 give 4, −1 and 0 with E = 125. -/
theorem test_requantisation_example :
    let xs : List ReqVal := [.exact 1000 (-10), .exact (-250) (-10), .exact 20 (-10)] ++ List.replicate 29 (.exact 0 0)
    ((formBlock 1 xs).codes.take 4 = [125, -31, 2, 0] ∧ (formBlock 1 xs).e = 120) ∧ (formBlock 0 xs).codes.take 4 = [4, -1, 0, 0] ∧ (formBlock 0 xs).e = 125 := by
  decide +kernel

/-- R51: an infinity takes exponent 254, a NaN is 0, and +∞ is the largest code. -/
theorem test_requantisation_nonFinite :
    (formBlock 1 ([.special 0x7F800000#32, .special 0x7FC00000#32] ++ List.replicate 30 (.exact 0 0))).codes.take 2 = [127, 0]
      ∧ (formBlock 1 ([.special 0x7F800000#32] ++ List.replicate 31 (.exact 0 0))).e = 254 := by decide +kernel

/-- R133's example: 4,700 units of 2^−9 with m = 0.25 give 3.294921875 with b = 1.0, and 6.884765625 times b = 3.0. -/
theorem test_accumulatorReads_example :
    ldacca 4700 (-9) 0x3E800000#32 0x3F800000#32 = 0x4052E000#32 ∧ ldaccm 4700 (-9) 0x3E800000#32 0x40400000#32 = 0x40DC5000#32 := by decide +kernel

/-- R137 to R139: NaN gives 0x7FC00000, exp2(−∞) is +0, 1/−0 is −∞, and the square root of −1 has no value. -/
theorem test_specialInputs :
    exp2 0x7FC00001#32 = 0x7FC00000#32 ∧ exp2 0xFF800000#32 = 0#32 ∧ exp2 0x7F800000#32 = 0x7F800000#32 ∧ rcp 0x80000000#32 = 0xFF800000#32
      ∧ rsq 0xBF800000#32 = 0x7FC00000#32 ∧ rsq 0x80000000#32 = 0xFF800000#32 := by decide +kernel

/-- One rounding in a × b + c (R59): (1 + 3·2^−23)² − 1 is 1.5·2^−21 + 9·2^−46, which is 2 units of the last place above 1.5·2^−21 where a product rounded first would give none. -/
theorem test_fma_roundsOnce : fpFma 0x3F800003#32 0x3F800003#32 0xBF800000#32 = 0x35400002#32 := by decide +kernel

/-- R36 and R37: byte 0x79 holds five zero trits, 242 five trits of +1, and 0xF3 is invalid. -/
theorem test_t5_trits :
    (match t5At [0x79#8] 0 5 4 with | .ok t => t = 0 | .error _ => false) = true
      ∧ (match t5At [0xF2#8] 0 5 0 with | .ok t => t = 1 | .error _ => false) = true
      ∧ (match t5At [0xF3#8] 0 5 0 with | .ok _ => false | .error f => f.code = 0x0101) = true := by decide +kernel

/-- R114: the three pieces of a key lie on one another. -/
theorem test_bucket_folds : bucketOf 0x00002001 = 0 ∧ bucketOf 0x04000000 = 1 ∧ bucketOf 0xFFFFFFFF = 0x3F := by decide +kernel

/-! ### Camp commands -/

/-- SETWIN and then the register (R149, R153): base 2, length 3, writable. -/
theorem test_setwin_loads :
    let w := wordT [(0, 0x02), (16, 0x8000), (32, 7), (64, 2), (80, 3), (98, 1)]
    let k := coreOf (campOf (after (exec (.cSetwin 0 w) (atT w))) 0) 15
    winBase (winOf k 7) = 2 ∧ winLength (winOf k 7) = 3 ∧ winWritable (winOf k 7) = true ∧ winResident (winOf k 7) = false := by decide +kernel

/-- A set reserved bit of a NOP is BAD_FIELD (R147, R150, R168): the program stops and the pitch's step ends. -/
theorem test_reservedBit_faults :
    let w := wordT [(32, 1)]
    let t := after (exec (.cNop 0 w) (atT w))
    (campOf t 0).prog = none ∧ t.ev.window.map (fun e => (e.cls, e.code)) = [(0x0C, 0x0302)] := by decide +kernel

/-- A command that the program does not stand at changes nothing (notes/assumptions/16.md). -/
theorem test_otherCommand_ignored : after (exec (.cNop 0 (wordT [(0, 5)])) (atT (wordT []))) = atT (wordT []) := by decide +kernel

/-- WDOG 0 means 1,000 µs (R149). -/
theorem test_wdog_default :
    let w := wordT [(0, 0x03)]
    ((campOf (after (exec (.cWdog 0 w) (atT w))) 0).prog.map fun p => (p.limitUs, p.pc)) = some (1000, 1) := by decide +kernel

/-- A loop whose count is 0 goes past its body, to command 2 of three (R151). -/
theorem test_loop_zeroCount :
    let w := wordT [(0, 0x04), (32, 1), (48, 7), (52, 1)]
    let s := putCamp (atT w) 0 { campT w with prog := some { progT with commands := 3 } }
    ((campOf (after (exec (.cLoop 0 w) s)) 0).prog.map (·.pc)) = some 2 := by decide +kernel

/-- VLD of the capability word (R152). -/
theorem test_vld_capability :
    let w := wordT [(0, 0x0E), (16, 1), (32, 5), (36, 2), (38, 1)]
    sOf (coreOf (campOf (after (exec (.cVld 0 w []) (atT w))) 0) 0) 5 = 0x08808420#32 := by decide +kernel

/-- A scalar VST in BF16 writes two bytes, low byte first (R58, R149). -/
theorem test_vst_bf16 :
    let w := wordT [(0, 0x0F), (16, 1), (35, 1), (38, 1), (64, 1)]
    let k : Core := { Core.fresh with win := [(0, 0x410000000#64)], sreg := [(0, 0x3F818000#32)] }
    let s := putCamp (atT w) 0 { campT w with cores := [(0, k)] }
    (coreOf (campOf (after (exec (.cVst 0 w []) s)) 0) 0).sp = [(8, 0x82#8), (9, 0x3F#8)] := by decide +kernel

/-- A write beyond the pitch's HBM is ADDRESS, and one of a shared region READ_ONLY (R368, R369). -/
theorem test_memwr_containment :
    addressFault readyT recT 0 (2 ^ 30 - 8) 16 true = some (containFault 0x0107 0 (bitsOf (2 ^ 30 - 8) 46 15))
      ∧ addressFault readyT recT 0 (2 ^ 44) 8 true = some (containFault 0x0108 0 (2 ^ 29)) ∧ addressFault readyT recT 0 (2 ^ 44) 8 false = none := by
  decide +kernel

/-- The last reader's releasing read drains the slot (R158, R159). -/
theorem test_slotrd_drains :
    let w := wordT [(0, 0x06), (16, 1), (52, 1), (80, 1)]
    let s := pokeBytes (withSlotT (atT w) 0 (slotT .full)) (slotDa readyT recT (slotT .full)) [7#8]
    let t := after (exec (.cSlotrd 0 w []) s)
    ((slotOf t recT 0).map fun x => (x.state, x.released)) = some (.draining, [0]) ∧ (coreOf (campOf t 0) 0).sp = [(0, 7#8)] := by decide +kernel

/-- A write by a camp that is not the producer faults with 0x0304 (R159, R168). -/
theorem test_slotwr_notProducer :
    let w := wordT [(0, 0x07), (16, 1), (80, 1)]
    let t := after (exec (.cSlotwr 0 w []) (withSlotT (atT w) 0 { slotT .empty with producer := 1 }))
    t.ev.window.map (fun e => (e.cls, e.code)) = [(0x0C, 0x0304)] := by decide +kernel

/-- SIGNAL completes a WAIT of another camp whose value is reached (R162, R164). -/
theorem test_signal_releasesWait :
    let w := wordT [(0, 0x11), (32, 3), (64, 2)]
    let v := wordT [(0, 0x11), (32, 3), (48, 1), (64, 2)]
    let c : Camp := { campT v with blocked := some ⟨.sync 3, v, 0, false⟩ }
    let t := after (exec (.cSignal 0 w) { readyT with camps := [(0, campT w), (1, c)] })
    (syncOf t 0 3).count = 2 ∧ (campOf t 1).blocked = none ∧ (campOf t 1).prog.map (·.pc) = some 1 := by decide +kernel

/-- Top 2 of 1.0, NaN, 3.0 and 3.0 are positions 2 and 3 (R109, R110). -/
theorem test_topk_order :
    (selectTop false 2 [⟨0x3F800000#32, 0⟩, ⟨0x7FC00000#32, 1⟩, ⟨0x40400000#32, 2⟩, ⟨0x40400000#32, 3⟩]).map (·.pos) = [2, 3] := by decide +kernel

/-- A record for a key that is there adds to its sum and count (R117, R118). -/
theorem test_hadd_sums :
    let w := wordT [(0, 0x14), (16, 1), (48, 1), (64, 7)]
    let s := hashT (atT w) none
    let k : Core := { Core.fresh with win := [(0, 0x410000000#64)], sp := [(8, 9#8)] }
    let t := after (exec (.cHadd 0 w []) (putCamp s 0 { campT w with cores := [(0, k)] }))
    mget (hashOf t 7).entries 0 = some ⟨0, 14, 0, 2⟩ ∧ (hashOf t 7).epoch.map (·.contributions) = some 2 := by decide +kernel

/-- A pass adds σ × (op << sh) and carries its residue (R64, R66): 3 << 4 = 48, and 48 mod 7 = 6. -/
theorem test_lanePass_accumulates :
    let k0 : Core := { Core.fresh with tiles := [tileT .running], queues := [(5, [⟨0, 0, 0, ⟨0, 1, 3, 3, 4, false⟩, none⟩])] }
    let k := coreOf (campOf (after (exec (.lanePass 0 0 5 none) { readyT with camps := [(0, { campT 0 with cores := [(0, k0)] })] })) 0) 0
    readAcc k.acc 5 (accPlace (tileT .running) 0) = ⟨48, 6⟩ ∧ k.queues = [] := by decide +kernel

/-- A reserved opcode (R149, R168). -/
theorem test_reservedOpcode :
    let w := wordT [(0, 0xFF)]
    (after (exec (.cReserved 0 w) (atT w))).ev.window.map (fun e => (e.cls, e.code, e.pitch)) = [(0x0C, 0x0301, 0)] := by decide +kernel

/-! ### Sequences, host port and update -/

/-- FREE raises the generation, and 65,535 returns to 1 (R333). -/
theorem test_free_generation :
    let s (g : Nat) := { readyT with seqs := [(0, { seqT .idle with generation := g })], reqs := [requestT 8 (g * 65536) 0 [] .queued] }
    (seqOf (after (exec (.qFree 0) (s 1))) 0).generation = 2 ∧ (seqOf (after (exec (.qFree 0) (s 65535))) 0).generation = 1
      ∧ (seqOf (after (exec (.qFree 0) (s 1))) 0).state = .free := by decide +kernel

/-- A post stamps word 0 with the sender and writes post number 1 after 255 (R417, R418). -/
theorem test_mailbox_post :
    let m := mailOf (after (exec (.mailboxPost 1 3 [(0, 0x03FFFFFF#32)]) (mailT 1 3 .empty [] Function.reset))) 1 3
    m.state = .posted ∧ m.postedSeq = 1 ∧ m.message.headD 0#32 = 0x03000103#32 := by decide +kernel

/-- CAIRN_LO latches the upper half of the count (R413). -/
theorem test_cairnLo_latches :
    (fnOf (after (exec (.cairnLoRead 0) { readyT with cairn := { Cairn.reset with count := 0x500000007 } })) 0).cairnHi = 5 := by decide +kernel

/-- A blank device stands in phase 13, with no configuration (R439). -/
theorem test_blankStart : (after (exec (.vauxGood (findingsT none)) State.reset)).boot.phase = 13 := by decide +kernel

/-- The first configuration slot of the NOR is in force after phase 3 (R434, R435). -/
theorem test_start_takesConfiguration :
    let t := after (exec (.vauxGood (findingsT (some norT))) State.reset)
    t.boot.phase = 4 ∧ t.boot.slot = 0 ∧ (t.cfg.map fun c => (c.generation, c.deviceId, c.pitches.length)) = some (1, 5, 1) := by decide +kernel

/-! ### Fabric, memory and power -/

/-- A parent's response 100 ns ahead steps a count that is not ready (R402, R403): t1 = 5, t2 = t3 = 155, t4 = 105. -/
theorem test_timeResponse_steps :
    let payload := leBytes 1 2 ++ leBytes 3 0 ++ leBytes 4 7 ++ leBytes 8 5 ++ leBytes 8 155 ++ leBytes 8 155 ++ leBytes 224 0
    let s := { linkedT readyT [] with boot := { readyT.boot with ready := false }, cairn := { Cairn.reset with exchange := 7, t1 := some (5, 0), parent := some 23 } }
    (doTimeResponse s 23 payload 105 0).cairn.count = 205 := by decide +kernel

/-- An edge of the pulse input steps the root to the next whole second (R405). -/
theorem test_pps_steps :
    let s := { readyT with boot := { readyT.boot with ready := false }, cfg := some { cfgT with timeRoot := 5 }, cairn := { Cairn.reset with count := 1500000000 } }
    (after (exec .ppsEdge s)).cairn.count = 2000000000 := by decide +kernel

/-- A wrong symbol of the codeword that was stored is put right, and its word is written back (R249 to R252). -/
theorem test_scrub_corrects :
    let t := after (exec (.patrolScrub 0 ((List.replicate 19 0#16).set 15 0x8001#16) .unallocated false) (pokeBytes readyT 30 [1#8, 0x80#8]))
    peekBytes t 30 2 = [1#8, 0x80#8] ∧ t.ev.written = 1 := by decide +kernel

/-- 110 °C trips the module, and 109 °C and 15/16 limits the die at point 0 (R475, R476). -/
theorem test_junction_limits :
    let hot (v : Int) : List (List Int) := (List.range 8).map fun k => if k = 7 then [v] else [0]
    (after (exec (.junctionReading 5 (hot 1760)) readyT)).pw.trip = true ∧ (dieAt (after (exec (.junctionReading 5 (hot 1759)) readyT)) 7).limited = true
      ∧ (after (exec (.junctionReading 5 (hot 1759)) readyT)).pw.rails = true := by decide +kernel

/-- Power above 1.1 times the limit lowers every die by one point (R473). -/
theorem test_governor_lowersAll :
    let t := after (exec (.governorLower 20000 10000 11001) { readyT with pw := { readyT.pw with dies := diesT } })
    (t.pw.dies.map (·.point)) = [2, 2, 2, 2, 2, 2, 2, 3] := by decide +kernel

/-- GET_VERSION of SPDM is answered, and a request for certificates before the negotiation with ERROR (R447). -/
theorem test_spdm_error :
    ((after (exec (.spdmRequest ⟨0x82, 0, 0, 1⟩) readyT)).out.map fun o => match o with
      | .spdm _ bs => leAt bs 1 1
      | _ => 0) = [0x7F] := by decide +kernel

end Sys2Proof.Tests
end

section
/-! PROOF. O3: which commands answer a next state (R5, R237, R251). -/

namespace Sys2Proof.Machine

/-! ### Answers that are next states -/

/-- The answer is a next state. -/
def Completes (a : Answer State) : Prop := ∃ t, a = .next t

theorem completes_next (t : State) : Completes (.next t) := ⟨t, rfl⟩

/-- Both branches of a condition on the state answer a next state. -/
theorem Completes.ite {p : Prop} [Decidable p] {a b : Answer State} (ha : Completes a) (hb : Completes b) :
    Completes (if p then a else b) := by
  split
  · exact ha
  · exact hb

/-- A row whose unit exists answers as the row does. -/
theorem Completes.unit {p : Prop} [Decidable p] {a b : Answer State} (h : p) (ha : Completes a) : Completes (if p then a else b) := by
  rwa [if_pos h]

/-- A row of a pitch or sequence that exists changes nothing where no configuration record is there. -/
theorem completes_withRecord {ok : Bool} {o : Option PitchRecord} {s : State} {f : PitchRecord → State} (h : ok = true) :
    Completes (if ok then
      match o with
      | none => .next s
      | some r => .next (f r)
      else .refused .noSuchUnit) := by
  refine .unit h ?_
  cases o with
  | none => exact completes_next s
  | some r => exact completes_next (f r)

/-- The sequencer of a camp that exists takes the command or leaves it. -/
theorem runCommand_completes {camp : Nat} (h : campOk camp = true) (s : State) (w : CmdWord) (mine : Bool) (f : Ctx → State → CmdRes) :
    Completes (runCommand s camp w mine f) :=
  .unit h (completes_next _)

/-! ### Rows of a shape of their own -/

theorem execProgramStart_completes {pitch camp : Nat} (hc : campOk camp = true) (hp : pitchOk pitch = true)
    (program first tableSlot : Nat) (params : List Word) (ready : NMap Nat) (s : State) :
    Completes (execProgramStart pitch camp program first tableSlot params ready s) := by
  unfold execProgramStart
  rw [if_pos ⟨hc, hp⟩]
  split
  · exact completes_next s
  · split
    · exact .ite (completes_next _) (completes_next s)
    · exact completes_next s

theorem execTileRunJoin_completes {camp core : Nat} (hc : campOk camp = true) (hk : coreOk core = true) (base : Nat) (wide : Bool) (s : State) :
    Completes (execTileRunJoin camp core base wide s) := by
  unfold execTileRunJoin
  rw [if_pos ⟨hc, hk⟩]
  split
  · exact .ite (completes_next _) (completes_next s)
  · exact completes_next s

theorem execWeightRefetched_completes {pitch : Nat} (hp : pitchOk pitch = true) (da : Nat) (poison : Bool) (s : State) :
    Completes (execWeightRefetched pitch da poison s) := by
  unfold execWeightRefetched
  rw [if_pos hp]
  split
  · exact completes_next s
  · dsimp only
    split
    · split
      · exact completes_next _
      · exact completes_next s
    · exact completes_next _

theorem execPagePromotionStart_completes {pitch : Nat} (hp : pitchOk pitch = true) (page : Nat) (s : State) :
    Completes (execPagePromotionStart pitch page s) := by
  unfold execPagePromotionStart
  rw [if_pos hp]
  split
  · split
    · exact completes_next s
    · exact .ite (completes_next _) (completes_next _)
  · exact completes_next s

theorem execTruncationCopyDone_completes (rid : Nat) (found : List Finding) (s : State) : Completes (execTruncationCopyDone rid found s) := by
  unfold execTruncationCopyDone
  split
  · exact completes_next s
  · split
    · exact completes_next s
    · exact .ite (completes_next _) (completes_next s)

theorem execResumeRecordsRead_completes (rid : Nat) (peer : Option (Nat × Nat)) (s : State) : Completes (execResumeRecordsRead rid peer s) := by
  unfold execResumeRecordsRead
  split
  · exact completes_next s
  · split
    · exact completes_next s
    · exact .ite (completes_next _) (completes_next s)

theorem execGroupJoin_completes (now : Nat) (answers : NMap (List MemberAnswer)) (s : State) : Completes (execGroupJoin now answers s) := by
  unfold execGroupJoin
  split
  · exact completes_next s
  · exact .ite (completes_next _) (completes_next s)

theorem execFreedRangeScrubbed_completes (index : Nat) (s : State) : Completes (execFreedRangeScrubbed index s) := by
  unfold execFreedRangeScrubbed
  split
  · exact completes_next s
  · exact completes_next _

/-- A scrub of a 32-byte word of the HBM in service answers a next state, and any other scrub stops (R237, R251). -/
theorem execPatrolScrub_completes_or_stops (da : Nat) (errors : List (BitVec 16)) (content : HbmContent) (poison : Bool) (s : State) :
    Completes (execPatrolScrub da errors content poison s)
      ∨ ((s.mem.n * 2 ^ 30 ≤ da ∨ da % 32 ≠ 0) ∧ execPatrolScrub da errors content poison s = .fault .daUnmapped) := by
  unfold execPatrolScrub
  split
  · rename_i h
    exact .inr ⟨h, rfl⟩
  · exact .inl (completes_next _)

/-! ### Every row -/

/-- Every row but the patrol scrub refuses nothing but a unit that the module does not have, and a well-formed command names none (R5;
notes/assumptions/49.md). The rows are grouped by the shape of their arm. -/
theorem exec_completes (c : Instr) (s : State) (hc : c.wellFormed = true)
    (hn : ∀ da errors content poison, c ≠ .patrolScrub da errors content poison) : Completes (exec c s) := by
  cases c with
  | cNop | cEnd | cSetwin | cWdog | cLoop | cFence | cSlotrd | cSlotwr | cMemrd | cMemwr | cWstream | cTilecfg | cTile | cVld | cVst | cTred
  | cSignal | cWait | cTake | cTopk | cHopen | cHadd | cHclose | cReserved | vNop | vAdd | vMul | vFma | vMin | vMax | vCmpeq | vCmplt | vCmple
  | vSel | vCvtfi | vCvtif | vCvtbf | vExpx | vExpi | vScalb | vSumg | vMaxg | vLdacc | vLdacca | vLdaccm | vReqacc | vReqreg | vReqout | vExp2
  | vRcp | vRsq | vRotcs | vReserved => exact runCommand_completes hc _ _ _ _
  | linkIdentity | hashCloseMerge | runAhead | syncTimeout | pagePromotionDone | pageRefetched | parkCommit | pageImport | imageReadTimeout
  | submissionDoorbell | completionDoorbell | submissionFetch | mailboxPost | registerWrite | ringCreate | ringDestroy | attachBegin | attach
  | fwWrite | fwVerify | fwActivate | fwDisarm | fwConfirm | lockWrite | fwStatus | functionResetDone | ethLink | flitData | flitIdle
  | retryRequest | linkDown | linkUp | linkLost | timeRequestReceived | timeResponse | cxlPortLost | stackTemperatureReading | retentionClose
  | retentionEntered | lateWake | wakeDone | icmpv6Message => exact .unit hc (completes_next _)
  | rangerLockstep => exact .unit (of_decide_eq_true hc) (completes_next _)
  | groupDigestRetry | groupJoined | modelPackageLoad | slotFilled | slotDrained | groupStepStart | stepCloseReport | lanternSelect
  | chunkListsReady | pageDemotionStart | pageDemotionDone | stepBoundary | parkFormDone | slotTransfer => exact completes_withRecord hc
  | collisionClear | cairnLoRead | functionReset | cxlLinkDown | cxlRetrainDone | arraysTested =>
    exact .unit hc (.ite (completes_next _) (completes_next _))
  | lanePass =>
    simp only [Instr.wellFormed, Bool.and_eq_true, decide_eq_true_eq, and_assoc] at hc
    exact .unit hc (.ite (completes_next _) (completes_next _))
  | programStart =>
    simp only [Instr.wellFormed, Bool.and_eq_true] at hc
    obtain ⟨⟨hpitch, hcamp⟩, -⟩ := hc
    exact execProgramStart_completes hcamp hpitch _ _ _ _ _ _
  | tileRunJoin =>
    simp only [Instr.wellFormed, Bool.and_eq_true] at hc
    obtain ⟨hcamp, hcore⟩ := hc
    exact execTileRunJoin_completes hcamp hcore _ _ _
  | weightRefetched => exact execWeightRefetched_completes hc _ _ _
  | pagePromotionStart => exact execPagePromotionStart_completes hc _ _
  | truncationCopyDone => exact execTruncationCopyDone_completes _ _ _
  | resumeRecordsRead => exact execResumeRecordsRead_completes _ _ _
  | groupJoin => exact execGroupJoin_completes _ _ _
  | freedRangeScrubbed => exact execFreedRangeScrubbed_completes _ _
  | hbmTrainingDone | linksTrained | configCheck | capacityClearDone | modReset | powerLoss | vddCoreGood =>
    exact .ite (completes_next _) (completes_next _)
  | patrolScrub da errors content poison => exact absurd rfl (hn da errors content poison)
  | vauxGood | qCreate | qContinue | qTruncate | qFork | qPark | qResume | qStatus | qFree | supplyLatchClear | fwArmedRestart | firmwareBlock
  | openSession | submitPart | ackMsg | imageData | invalidDatagram | ackTimer | datagramResend | slotDataPacket | transferResponse
  | transferResend | managementMessage | timeRequest | ppsEdge | sectorErase | mainFailure | mainRestored | backupPark | governorLower
  | governorRaise | junctionReading | coolantHigh | coolantCapLifted | vauxLoss | vinBackupOutOfRange | spdmRequest => exact completes_next _

/-- Settles O3: a patrol scrub answers or stops by its address, and no other row stops at all. That the scrub stops there is the model's choice
(notes/assumptions/49.md). -/
theorem wellFormedCommandsComplete : Obligations.WellFormedCommandsComplete := by
  unfold Obligations.WellFormedCommandsComplete
  intro c s hc
  by_cases hs : ∃ da errors content poison, c = .patrolScrub da errors content poison
  · obtain ⟨da, errors, content, poison, rfl⟩ := hs
    rcases execPatrolScrub_completes_or_stops da errors content poison s with h | ⟨hda, h⟩
    · exact .inl h
    · exact .inr ⟨da, errors, content, poison, rfl, hda, h⟩
  · exact .inl (exec_completes c s hc fun da errors content poison h => hs ⟨da, errors, content, poison, h⟩)

end Sys2Proof.Machine
end

section
/-! SUPPORT. What a register access does at a function of the host port (R8, R9, R412 to R417, R422, R482). -/

namespace Sys2Proof.Machine

/-! ### Functions of the host port -/

theorem fnOf_putFn_same (s : State) (fn : Nat) (f : Function) :
    fnOf (putFn s fn f) fn = if fn = 0 then { f with attached := true } else f := by
  simp [fnOf, putFn]

theorem fnOf_putFn_ne (s : State) {fn g : Nat} (f : Function) (h : g ≠ fn) : fnOf (putFn s fn f) g = fnOf s g := by
  simp [fnOf, putFn, mgetD_mset_ne _ _ _ h]

/-- The MSI-X state of a function that has been put. -/
@[simp] theorem fnOf_putFn_msix (s : State) (fn : Nat) (f : Function) : (fnOf (putFn s fn f) fn).msix = f.msix := by
  rw [fnOf_putFn_same]
  split <;> rfl

@[simp] theorem fnOf_putFn_msixEnable (s : State) (fn : Nat) (f : Function) : (fnOf (putFn s fn f) fn).msixEnable = f.msixEnable := by
  rw [fnOf_putFn_same]
  split <;> rfl

@[simp] theorem fnOf_putFn_msixMask (s : State) (fn : Nat) (f : Function) : (fnOf (putFn s fn f) fn).msixMask = f.msixMask := by
  rw [fnOf_putFn_same]
  split <;> rfl

@[simp] theorem fnOf_putFn_cairnHi (s : State) (fn : Nat) (f : Function) : (fnOf (putFn s fn f) fn).cairnHi = f.cairnHi := by
  rw [fnOf_putFn_same]
  split <;> rfl

@[simp] theorem fnOf_putFn_resetting (s : State) (fn : Nat) (f : Function) : (fnOf (putFn s fn f) fn).resetting = f.resetting := by
  rw [fnOf_putFn_same]
  split <;> rfl

@[simp] theorem fnOf_send (s : State) (o : Output) (fn : Nat) : fnOf (send s o) fn = fnOf s fn := rfl

/-- A reachable function exists, and the port is up. -/
theorem fnReachable_up {s : State} {fn : Nat} (h : fnReachable s fn = true) : s.host.up = true ∧ fnExists s fn = true := by
  simp only [fnReachable, Bool.and_eq_true] at h
  exact h.1

/-! ### Reads -/

/-- Every register of R412 to R417 lies in BAR 0. -/
theorem barSize_zero_ge (fn : Nat) : 2 ^ 20 ≤ barSize fn 0 := by
  rw [barSize, if_pos rfl]
  split <;> norm_num

theorem vectorsOf_le (fn : Nat) : vectorsOf fn ≤ 64 := by
  unfold vectorsOf
  split <;> norm_num

theorem readRegister_cairnLo (s : State) (fn : Nat) : readRegister s fn 0 0x010 = BitVec.ofNat 32 (s.cairn.count % 2 ^ 32) := by
  have hbar : ¬barSize fn 0 ≤ 0x010 := by have := barSize_zero_ge fn; omega
  simp [readRegister, configSpace, hbar, identityRegister]

/-- The doorbells of BAR 2 are write-only (R415). -/
theorem readRegister_doorbell (s : State) (fn offset : Nat) : readRegister s fn 2 offset = 0#32 := by
  simp [readRegister, configSpace]

/-- The identity registers end at 0x028 (R413). -/
theorem readRegister_unnamed (s : State) (fn : Nat) {offset : Nat} (hlo : 0x028 ≤ offset) (hhi : offset < 0x1000) :
    readRegister s fn 0 offset = 0#32 := by
  have hid : identityRegister s fn offset = 0 := by
    simp only [identityRegister]
    iterate 8 rw [if_neg (by omega)]
    split
    · rfl
    · rw [if_neg (by omega), if_neg (by omega)]
  have hbar : ¬barSize fn 0 ≤ offset := by have := barSize_zero_ge fn; omega
  simp [readRegister, configSpace, hbar, hhi, hid]

/-- The msg words of a mailbox block are write-only (R417). -/
theorem readRegister_msg (s : State) {fn mb o : Nat} (hmb : mailOk fn mb = true) (ho : o < 64) :
    readRegister s fn 0 (0x10000 + 256 * mb + o) = 0#32 := by
  have hlt : mb < 256 := by
    simp only [mailOk, Bool.and_eq_true, decide_eq_true_eq] at hmb
    split at hmb <;> omega
  have hbar : ¬barSize fn 0 ≤ 0x10000 + 256 * mb + o := by have := barSize_zero_ge fn; omega
  have hvec := vectorsOf_le fn
  have hblock : (0x10000 + 256 * mb + o - 0x10000) / 256 = mb := by omega
  have hword : (0x10000 + 256 * mb + o) % 256 = o := by omega
  have hmail : mailRegister (mailOf s fn mb) o = 0 := by
    simp only [mailRegister]
    iterate 4 rw [if_neg (by omega)]
  have hspace : ¬0 = configSpace := by decide
  simp only [readRegister]
  rw [if_neg hspace, if_neg (by omega)]
  iterate 6 rw [if_neg (by omega)]
  rw [hblock, hword, hmail, if_pos ⟨by omega, hmb⟩]

/-- CAIRN_LO_READ at a function that exists (R413). -/
theorem exec_cairnLoRead {s : State} {fn : Nat} (hfn : fn < 65) (hup : s.host.up = true) (hex : fnExists s fn = true) :
    exec (.cairnLoRead fn) s
      = .next (send (putFn s fn { fnOf s fn with cairnHi := s.cairn.count / 2 ^ 32 % 2 ^ 32 }) (.read (BitVec.ofNat 32 (s.cairn.count % 2 ^ 32)))) := by
  show execCairnLoRead fn s = _
  simp only [execCairnLoRead, fnOk, decide_eq_true hfn, hup, hex, and_self, if_true, readRegister_cairnLo]

/-! ### Writes -/

theorem exec_registerWrite_bar0 {fn : Nat} (hfn : fn < 65) (offset : Nat) (value : Word) (s : State) :
    exec (.registerWrite fn 0 offset value) s = .next (doRegisterWrite s fn 0 offset value) := by
  show execRegisterWrite fn 0 offset value s = _
  simp [execRegisterWrite, fnOk, hfn, configSpace]

theorem exec_registerWrite_config {fn : Nat} (hfn : fn < 65) (offset : Nat) (value : Word) (s : State) :
    exec (.registerWrite fn 7 offset value) s = .next (doConfigWrite s fn offset value) := by
  show execRegisterWrite fn 7 offset value s = _
  simp [execRegisterWrite, fnOk, hfn, configSpace]

/-- The event interrupt of the PF (R413). -/
theorem doRegisterWrite_event {s : State} (hr : fnReachable s 0 = true) (value : Word) :
    doRegisterWrite s 0 0 0x024 value = putFn s 0 { fnOf s 0 with eventVector := value.toNat % 2048, eventInt := value.getLsbD 16 } := by
  have hbar : ¬barSize 0 0 ≤ 0x024 := by decide
  simp [doRegisterWrite, hr, hbar, bitsOf]

/-- The last word of an MSI-X entry is its mask bit (R412, R422). -/
theorem doRegisterWrite_msixMask {s : State} {fn e : Nat} (hr : fnReachable s fn = true) (he : e < vectorsOf fn) (value : Word) :
    doRegisterWrite s fn 0 (0x2000 + 16 * e + 12) value = msixWrite s fn e 3 value := by
  have hvec := vectorsOf_le fn
  have hbar : ¬barSize fn 0 ≤ 0x2000 + 16 * e + 12 := by have := barSize_zero_ge fn; omega
  have hentry : (0x2000 + 16 * e + 12 - 0x2000) / 16 = e := by omega
  have hword : (0x2000 + 16 * e + 12) % 16 / 4 = 3 := by omega
  unfold doRegisterWrite
  rw [if_neg (by simp [hr, hbar]), if_neg (by omega), if_pos (by omega), hentry, hword]

/-- An identity or status register takes no write (R9). -/
theorem doRegisterWrite_identity {s : State} {o : Nat} (ho : o < 0x024) (fn : Nat) (value : Word) : doRegisterWrite s fn 0 o value = s := by
  unfold doRegisterWrite
  split
  · rfl
  · iterate 3 rw [if_neg (by omega)]

/-- The mask bit of an MSI-X entry is set, and the entry sends what it held pending where nothing masks it any more (R422). -/
theorem msixWrite_mask {s : State} {fn e : Nat} {x : MsixEntry} {value : Word} {m : Bool} (hx : mgetD (fnOf s fn).msix e freshMsix = x)
    (hm : value.getLsbD 0 = m) :
    let sends := x.waiting && !m && (fnOf s fn).msixEnable && !(fnOf s fn).msixMask
    mget (fnOf (msixWrite s fn e 3 value) fn).msix e = some { x with masked := m, waiting := x.waiting && !sends }
      ∧ (msixWrite s fn e 3 value).out = if sends then s.out ++ [.interrupt fn e] else s.out := by
  intro sends
  simp only [msixWrite, hx, hm]
  iterate 3 rw [if_neg (by decide)]
  by_cases h : m = false ∧ x.waiting = true ∧ (fnOf s fn).msixEnable = true ∧ (fnOf s fn).msixMask = false
  · have hs : sends = true := by
      obtain ⟨hv, hw, he, hm⟩ := h
      simp [sends, hv, hw, he, hm]
    rw [if_pos h, hs]
    simp [h.1]
  · have hs : sends = false := by
      simp only [sends]
      grind
    rw [if_neg h, hs]
    simp

/-! ### The configuration space (R407, R422, R423) -/

/-- Sending what was pending leaves MSI-X Enable and Function Mask. -/
theorem sendPending_msixControl (fn : Nat) (vs : List Nat) (s : State) :
    (fnOf (sendPending fn vs s) fn).msixEnable = (fnOf s fn).msixEnable ∧ (fnOf (sendPending fn vs s) fn).msixMask = (fnOf s fn).msixMask := by
  induction vs generalizing s with
  | nil => exact ⟨rfl, rfl⟩
  | cons v t ih =>
    rw [sendPending]
    obtain ⟨he, hm⟩ := ih _
    rw [he, hm]
    split <;> simp

theorem doConfigWrite_msixControl {s : State} {fn : Nat} (hr : fnReachable s fn = true) (value : Word) :
    (fnOf (doConfigWrite s fn 0x40 value) fn).msixEnable = value.getLsbD 31
      ∧ (fnOf (doConfigWrite s fn 0x40 value) fn).msixMask = value.getLsbD 30 := by
  obtain ⟨hup, hex⟩ := fnReachable_up hr
  simp [doConfigWrite, hup, hex, sendPending_msixControl]

theorem doConfigWrite_vfEnable {s : State} (hr : fnReachable s 0 = true) (value : Word) :
    doConfigWrite s 0 0x168 value
      = if value.getLsbD 0 then { s with host := { s.host with vfEnable := true } } else if s.host.vfEnable then vfsOff s else s := by
  obtain ⟨hup, hex⟩ := fnReachable_up hr
  simp [doConfigWrite, hup, hex]

end Sys2Proof.Machine
end

section
/-! SUPPORT. What a reset of a function leaves cleared (R423 to R425): what it ends may still be answered on a ring or raise an interrupt;
a function at its reset values has no ring, no enabled vector and no event interrupt, so nothing of that reaches it. -/

namespace Sys2Proof.Machine

/-! ### Cleared functions -/

/-- The function holds its reset values and is being reset. -/
def Cleared (s : State) (fn : Nat) : Prop := mget s.host.fns fn = some { Function.reset with resetting := true }

/-- `t` differs from `s` at the host port only in functions that are not cleared in `s`. -/
structure KeepsCleared (s t : State) : Prop where
  port : t.host = { s.host with fns := t.host.fns }
  cleared : ∀ fn, Cleared s fn → Cleared t fn

theorem KeepsCleared.of_host_eq {s t : State} (h : t.host = s.host) : KeepsCleared s t :=
  ⟨by rw [h], fun fn hfn => by rwa [Cleared, h]⟩

theorem KeepsCleared.refl (s : State) : KeepsCleared s s := .of_host_eq rfl

theorem KeepsCleared.trans {s t u : State} (h₁ : KeepsCleared s t) (h₂ : KeepsCleared t u) : KeepsCleared s u :=
  ⟨by rw [h₂.port, h₁.port], fun fn hfn => h₂.cleared fn (h₁.cleared fn hfn)⟩

/-- A change elsewhere than at the host port before. -/
theorem KeepsCleared.before {s t u : State} (h : KeepsCleared t u) (hst : t.host = s.host) : KeepsCleared s u :=
  (KeepsCleared.of_host_eq hst).trans h

/-- A change elsewhere than at the host port after. -/
theorem KeepsCleared.after {s t u : State} (h : KeepsCleared s t) (htu : u.host = t.host) : KeepsCleared s u :=
  h.trans (.of_host_eq htu)

theorem cleared_mgetD {s : State} {fn : Nat} (h : Cleared s fn) : mgetD s.host.fns fn Function.reset = { Function.reset with resetting := true } := by
  simp [mgetD, show mget s.host.fns fn = _ from h]

/-- A cleared function has no ring. -/
theorem cleared_comp {s : State} {fn : Nat} (h : Cleared s fn) : (fnOf s fn).comp = [] := by
  simp only [fnOf, cleared_mgetD h]
  split <;> rfl

/-- Putting a function that is not cleared leaves the cleared ones alone. -/
theorem putFn_keepsCleared {s : State} {fn : Nat} (f : Function) (h : ¬Cleared s fn) : KeepsCleared s (putFn s fn f) := by
  refine ⟨rfl, fun g hg => ?_⟩
  have hne : g ≠ fn := fun he => h (he ▸ hg)
  exact (mget_mset_ne _ _ hne).trans hg

/-- A reset puts the function into its reset values, and leaves cleared functions cleared. -/
theorem putFn_reset_keepsCleared (s : State) (fn : Nat) : KeepsCleared s (putFn s fn { Function.reset with resetting := true }) := by
  refine ⟨rfl, fun g hg => ?_⟩
  by_cases he : g = fn
  · subst he
    exact mget_mset_same _ _ _
  · exact (mget_mset_ne _ _ he).trans hg

theorem putFn_reset_cleared (s : State) (fn : Nat) : Cleared (putFn s fn { Function.reset with resetting := true }) fn :=
  mget_mset_same _ _ _

/-! ### Interrupts and events -/

/-- A cleared function has MSI-X disabled, so that no interrupt reaches it (R422). -/
theorem raiseInterrupt_keepsCleared (s : State) (fn vector : Nat) : KeepsCleared s (raiseInterrupt s fn vector) := by
  simp only [raiseInterrupt]
  split
  · next h =>
    have hc : ¬Cleared s fn := by
      intro hc
      rw [cleared_mgetD hc] at h
      exact absurd h.2 (by decide)
    split
    · exact putFn_keepsCleared _ hc
    · exact .of_host_eq rfl
  · exact .refl s

theorem appendCritical_host (s : State) (e : EventRec) : (appendCritical s e).host = s.host := by
  simp only [appendCritical]
  split
  · rfl
  · split <;> rfl

theorem writeEvent_keepsCleared (s : State) (source cls code pitch : Nat) (detail : List Byte) :
    KeepsCleared s (writeEvent s source cls code pitch detail) := by
  unfold writeEvent
  extract_lets e ev s₁ s₂ pf
  have hlog : KeepsCleared s s₂ := by
    unfold s₂
    split
    · exact .of_host_eq (appendCritical_host s₁ e)
    · exact .of_host_eq rfl
  split
  · exact hlog.trans (raiseInterrupt_keepsCleared s₂ 0 _)
  · exact hlog

theorem rangerEvent_keepsCleared (s : State) (cls code pitch : Nat) (detail : List Byte) :
    KeepsCleared s (rangerEvent s cls code pitch detail) :=
  (writeEvent_keepsCleared _ _ _ _ _ _).before rfl

/-! ### Completions -/

theorem writeEntry_keepsCleared {s : State} {fn : Nat} (h : ¬Cleared s fn) (ring : Nat) (k : Ring) (bytes : List Byte) (int : Bool) :
    KeepsCleared s (writeEntry s fn ring k bytes int) := by
  simp only [writeEntry]
  have hput (f : Function) (o : Output) : KeepsCleared s (send (putFn s fn f) o) := (putFn_keepsCleared f h).after rfl
  split
  · exact (hput _ _).trans (raiseInterrupt_keepsCleared _ _ _)
  · exact hput _ _

/-- A completion needs a ring, and a cleared function has none (R425). -/
theorem postRing_keepsCleared (s : State) (fn ring : Nat) (bytes : List Byte) (int : Bool) : KeepsCleared s (postRing s fn ring bytes int) := by
  simp only [postRing]
  split
  · exact .refl s
  · next k hk =>
    have hc : ¬Cleared s fn := by
      intro hc
      rw [cleared_comp hc] at hk
      exact absurd hk (by simp)
    split
    · exact writeEntry_keepsCleared hc _ _ _ _
    · exact putFn_keepsCleared _ hc

theorem sendMessage_host (s : State) (n type : Nat) (body : List Byte) : (sendMessage s n type body).host = s.host := by
  simp only [sendMessage, solicit]
  split <;> rfl

theorem sendComplete_host (s : State) (n : Nat) (body : List Byte) : (sendComplete s n body).host = s.host := by
  simp only [sendComplete]
  split
  · exact sendMessage_host _ _ _ _
  · rfl

theorem sendTokens_host (n : Nat) (bytes : List Byte) (k : Nat) (tokens : List Nat) (s : State) :
    (sendTokens n bytes k tokens s).host = s.host := by
  induction k generalizing tokens s with
  | zero => rfl
  | succ k ih =>
    simp only [sendTokens]
    split
    · exact sendComplete_host _ _ _
    · exact (ih _ _).trans (sendComplete_host _ _ _)

theorem answer_keepsCleared (s : State) (o : Origin) (int : Bool) (bytes : List Byte) (tokens : List Nat) :
    KeepsCleared s (answer s o int bytes tokens) := by
  cases o with
  | ring fn ring => exact postRing_keepsCleared s fn ring bytes int
  | session n => exact .of_host_eq (sendTokens_host n bytes _ tokens s)
  | device => exact .refl s

theorem finish_keepsCleared (s : State) (r : Request) (result endCode handle value : Nat) :
    KeepsCleared s (finish s r result endCode handle value) :=
  (answer_keepsCleared s r.origin _ _ _).after rfl

theorem endHeld_keepsCleared (result : Nat) (qs : List Request) (s : State) : KeepsCleared s (endHeld result qs s) := by
  induction qs generalizing s with
  | nil => exact .refl s
  | cons q t ih => exact (finish_keepsCleared s q result 5 q.handle 0).trans (ih _)

/-! ### Parks and holds -/

theorem endPark_keepsCleared (s : State) (i result value : Nat) (silent : Bool) : KeepsCleared s (endPark s i result value silent) := by
  simp only [endPark]
  split
  · exact .refl s
  · next k _ =>
    have hevent (e : SeqEntry) (detail : List Byte) : KeepsCleared s (rangerEvent (putSeq s i e) 0x0C 0x0901 (seqOf s i).pitch detail) :=
      (rangerEvent_keepsCleared _ _ _ _ _).before rfl
    split
    · exact hevent _ _
    · split
      · exact (hevent _ _).after rfl
      · exact (hevent _ _).trans (finish_keepsCleared _ _ _ _ _ _)

theorem losePark_keepsCleared (s : State) (i : Nat) : KeepsCleared s (losePark s i) := by
  simp only [losePark]
  split
  · exact (endPark_keepsCleared s i _ _ _).after rfl
  · exact endPark_keepsCleared s i _ _ _

theorem holdSeq_keepsCleared (s : State) (i cause result : Nat) : KeepsCleared s (holdSeq s i cause result) := by
  have hlose : KeepsCleared s (if cause = 4 then losePark s i else s) := by
    split
    · exact losePark_keepsCleared s i
    · exact .refl s
  simp only [holdSeq]
  generalize (if cause = 4 then losePark s i else s) = s₁ at hlose ⊢
  refine hlose.trans ?_
  split
  · exact .refl s₁
  · split
    · refine KeepsCleared.trans ?_ (endHeld_keepsCleared _ _ _)
      split
      · exact .of_host_eq rfl
      · exact (rangerEvent_keepsCleared _ _ _ _ _).before rfl
    · refine KeepsCleared.trans ?_ (endHeld_keepsCleared _ _ _)
      refine KeepsCleared.trans ?_ (finish_keepsCleared _ _ _ _ _ _)
      exact (rangerEvent_keepsCleared _ _ _ _ _).before rfl

theorem abortPark_keepsCleared (s : State) (i result value : Nat) (silent : Bool) : KeepsCleared s (abortPark s i result value silent) := by
  simp only [abortPark]
  split
  · exact .refl s
  · have hend := endPark_keepsCleared s i result value silent
    split
    · exact hend.trans ((holdSeq_keepsCleared _ _ _ _).before rfl)
    · exact hend

theorem abortParksTo_keepsCleared (fn : Nat) (is : List Nat) (s : State) : KeepsCleared s (abortParksTo fn is s) := by
  induction is generalizing s with
  | nil => exact .refl s
  | cons i t ih =>
    refine KeepsCleared.trans ?_ (ih _)
    split
    · exact .refl s
    · split
      · exact abortPark_keepsCleared _ _ _ _ _
      · exact .refl s

/-! ### Sequences that are freed -/

theorem freeRange_host (s : State) (p a : Nat) : (freeRange s p a).host = s.host := by
  simp only [freeRange]
  split <;> rfl

theorem freeIf_host (s : State) (p a : Nat) : (freeIf s p a).host = s.host := by
  unfold freeIf
  split
  · rfl
  · exact freeRange_host s p a

theorem freePage_host (s : State) (p n : Nat) : (freePage s p n).host = s.host := by
  simp only [freePage, putPage, onPitch_host, freeIf_host]

theorem dropRef_host (s : State) (p n : Nat) : (dropRef s p n).host = s.host := by
  simp only [dropRef]
  split
  · split
    · rfl
    · exact freePage_host s p n
  · rfl

theorem dropRefs_host (p : Nat) (ns : List Nat) (s : State) : (dropRefs p ns s).host = s.host := by
  induction ns generalizing s with
  | nil => rfl
  | cons n t ih => exact (ih _).trans (dropRef_host s p n)

theorem freePlaces_host (p : Nat) (as : List Nat) (s : State) : (freePlaces p as s).host = s.host := by
  induction as generalizing s with
  | nil => rfl
  | cons a t ih => exact (ih _).trans (freeRange_host s p a)

theorem freeStagings_host (p : Nat) (ls : List LayerState) (s : State) : (freeStagings p ls s).host = s.host := by
  induction ls generalizing s with
  | nil => rfl
  | cons l t ih => exact (ih _).trans ((freePlaces_host _ _ _).trans (freeIf_host _ _ _))

theorem nodeUsers_host (s : State) (p : Nat) (node : Option Nat) (f : Nat → Nat) : (nodeUsers s p node f).host = s.host := by
  cases node <;> rfl

theorem tellGroup_host (s : State) (p : Nat) (d : LeadDecision) : (tellGroup s p d).host = s.host := by
  simp only [tellGroup]
  split
  · rfl
  · split <;> rfl

theorem freeSeq_host (s : State) (i : Nat) : (freeSeq s i).host = s.host := by
  simp only [freeSeq, releaseSeq, tellGroup_host, freeEntry_host, nodeUsers_host, freeStagings_host, dropRefs_host]

theorem dropResume_host (s : State) (q : Request) : (dropResume s q).host = s.host := by
  unfold dropResume
  split
  · rfl
  · exact freeSeq_host s _

/-! ### The commands of a function that is reset -/

theorem endFor_keepsCleared (s : State) (q : Request) : KeepsCleared s (endFor s q).1 := by
  simp only [endFor]
  split
  · exact .of_host_eq rfl
  · exact .of_host_eq rfl
  · split
    · exact .of_host_eq (freeSeq_host _ _)
    · exact .of_host_eq rfl
  · split
    · exact abortPark_keepsCleared _ _ _ _ _
    · exact .of_host_eq rfl
  · exact .of_host_eq (dropResume_host _ q)

theorem endCommands_keepsCleared (qs : List Request) (s : State) (n : Nat) : KeepsCleared s (endCommands qs s n).1 := by
  induction qs generalizing s n with
  | nil => exact .refl s
  | cons q t ih => exact (endFor_keepsCleared s q).trans (ih _ _)

theorem undoCreates_host (hs : List Nat) (s : State) : (undoCreates hs s).1.host = s.host := by
  induction hs generalizing s with
  | nil => rfl
  | cons h t ih =>
    simp only [undoCreates]
    split
    · exact ih _
    · exact ih s

theorem dropNotices_host (s : State) (fn : Nat) : (dropNotices s fn).host = s.host := rfl

/-! ### Resets of functions (R423 to R425) -/

theorem resetFn_keepsCleared (s : State) (fn : Nat) : KeepsCleared s (resetFn s fn) ∧ Cleared (resetFn s fn) fn := by
  have hrest : KeepsCleared (putFn s fn { Function.reset with resetting := true }) (resetFn s fn) := by
    unfold resetFn
    refine KeepsCleared.trans ?_ (writeEvent_keepsCleared _ _ _ _ _ _)
    refine KeepsCleared.after ?_ (dropNotices_host _ _)
    refine KeepsCleared.trans ?_ (abortParksTo_keepsCleared _ _ _)
    refine KeepsCleared.after ?_ (undoCreates_host _ _)
    exact endCommands_keepsCleared _ _ 0
  exact ⟨(putFn_reset_keepsCleared s fn).trans hrest, hrest.cleared fn (putFn_reset_cleared s fn)⟩

theorem resetFns_keepsCleared (fns : List Nat) (s : State) :
    KeepsCleared s (resetFns fns s) ∧ ∀ fn ∈ fns, Cleared (resetFns fns s) fn := by
  induction fns generalizing s with
  | nil => exact ⟨.refl s, fun _ h => absurd h List.not_mem_nil⟩
  | cons a t ih =>
    obtain ⟨hkeep, hclear⟩ := resetFn_keepsCleared s a
    obtain ⟨hrest, hall⟩ := ih (resetFn s a)
    refine ⟨hkeep.trans hrest, fun fn hfn => ?_⟩
    rcases List.mem_cons.1 hfn with rfl | hfn
    · exact hrest.cleared fn hclear
    · exact hall fn hfn

/-- Clearing VF Enable clears every VF that was there and no register of the port but VF Enable (R423). -/
theorem vfsOff_clears (s : State) :
    (vfsOff s).host = { s.host with vfEnable := false, fns := (vfsOff s).host.fns } ∧ (∀ fn, Cleared s fn → Cleared (vfsOff s) fn)
      ∧ ∀ fn ∈ vfs s, Cleared (vfsOff s) fn := by
  obtain ⟨hkeep, hall⟩ := resetFns_keepsCleared (vfs s) s
  refine ⟨?_, hkeep.cleared, hall⟩
  simp only [vfsOff]
  rw [hkeep.port]

/-- Everything that a reset of the PF clears (R423, R424): the PF and every VF, and VF Enable and NumVFs; `t` is after it. -/
structure PfCleared (s t : State) : Prop where
  pf : Cleared t 0
  vf : ∀ fn ∈ vfs s, Cleared t fn
  vfEnable : t.host.vfEnable = false
  numVfs : t.host.numVfs = 0

theorem vfs_of_keepsCleared {s t : State} (h : KeepsCleared s t) : vfs t = vfs s := by
  unfold vfs
  rw [h.port]

theorem resetPf_clears (s : State) : PfCleared s (resetPf s) ∧ (resetPf s).host.up = s.host.up ∧ (resetPf s).host.ide = s.host.ide := by
  obtain ⟨hkeep, hpf⟩ := resetFn_keepsCleared s 0
  obtain ⟨hport, hold, hall⟩ := vfsOff_clears (resetFn s 0)
  rw [vfs_of_keepsCleared hkeep] at hall
  have hhost : (resetPf s).host = { (vfsOff (resetFn s 0)).host with numVfs := 0 } := rfl
  have hfns (fn : Nat) (h : Cleared (vfsOff (resetFn s 0)) fn) : Cleared (resetPf s) fn := by rwa [Cleared, hhost]
  rw [hport, hkeep.port] at hhost
  refine ⟨⟨hfns 0 (hold 0 hpf), fun fn hfn => hfns fn (hall fn hfn), ?_, ?_⟩, ?_, ?_⟩ <;> rw [hhost]

/-- The port trains again at its one rate and width, or stays down (R408), and what a reset has cleared stays so. -/
theorem hostTrain_cleared {s t : State} (h : PfCleared s t) (rate width : Nat) :
    PfCleared s (hostTrain t rate width) ∧ (hostTrain t rate width).host.ide = t.host.ide
      ∧ (hostTrain t rate width).host.up = (decide (rate = 64) && decide (width = 16)) := by
  unfold hostTrain
  split
  · next hok => exact ⟨⟨h.pf, h.vf, h.vfEnable, h.numVfs⟩, rfl, by simp [hok]⟩
  · next hbad =>
    have hkeep := writeEvent_keepsCleared { t with host := { t.host with up := false, refused := true } } (srcFn 0 0) 0x07 0x0D06 noPitch
      (hostDetail 0 0xFF (rate % 256 + 256 * (width % 256)) 0 0)
    refine ⟨⟨hkeep.cleared 0 h.pf, fun fn hfn => hkeep.cleared fn (h.vf fn hfn), ?_, ?_⟩, ?_, ?_⟩
    · rw [hkeep.port]
      exact h.vfEnable
    · rw [hkeep.port]
      exact h.numVfs
    · rw [hkeep.port]
    · rw [hkeep.port, ← Bool.decide_and, decide_eq_false hbad]

/-- FUNCTION_RESET while the port is up (R423). -/
theorem exec_functionReset {s : State} (hup : s.host.up = true) {kind : ResetKind} (hk : resetNames kind = true) (rate width : Nat) :
    exec (.functionReset kind rate width) s = .next (doFunctionReset s kind rate width) := by
  show execFunctionReset kind rate width s = _
  rw [execFunctionReset, if_pos hk, if_pos hup]

/-- FUNCTION_RESET_DONE makes the function reachable again and leaves every other (R424). -/
theorem exec_functionResetDone (s : State) {fn : Nat} (hfn : fn < 65) :
    exec (.functionResetDone fn) s = .next (putFn s fn { mgetD s.host.fns fn Function.reset with resetting := false }) := by
  show execFunctionResetDone fn s = _
  simp [execFunctionResetDone, fnOk, hfn]

/-- A reset of one VF (R423). -/
theorem doFunctionReset_vf {s : State} {fn : Nat} (hne : fn ≠ 0) (rate width : Nat) :
    doFunctionReset s (.functionLevel fn) rate width = if fnExists s fn then resetFn s fn else s := by
  rw [doFunctionReset, if_neg hne]

/-- Link IDE is no part of what a reset of the PF clears. -/
theorem ideOff_cleared {s t : State} (h : PfCleared s t) : PfCleared s (ideOff t) := ⟨h.pf, h.vf, h.vfEnable, h.numVfs⟩

theorem ideOff_ide (s : State) : (ideOff s).host.ide = false := rfl

/-- A hot reset clears what a reset of the PF clears, ends Link IDE (R407) and trains the port again (R408). -/
theorem hotReset_clears (s : State) (rate width : Nat) :
    PfCleared s (doFunctionReset s .hotReset rate width) ∧ (doFunctionReset s .hotReset rate width).host.ide = false
      ∧ (doFunctionReset s .hotReset rate width).host.up = (decide (rate = 64) && decide (width = 16)) := by
  obtain ⟨hpf, -⟩ := resetPf_clears s
  obtain ⟨hclear, hide, hup⟩ := hostTrain_cleared (ideOff_cleared hpf) rate width
  exact ⟨hclear, hide.trans (ideOff_ide _), hup⟩

/-! ### O41 -/

/-- Settles O41: a register access is a read or an update of the function's own registers; a reset leaves the functions that it names at their reset
values, since nothing of what it ends reaches a function without rings and vectors. -/
theorem registersAndFunctionResets : Obligations.RegistersAndFunctionResets := by
  unfold Obligations.RegistersAndFunctionResets
  refine ⟨fun s => ⟨?_, ?_, fun _ => rfl⟩, fun s fn value hfn hr => ⟨?_, ?_, ?_, ?_, ?_⟩, fun s rate width hup => ?_⟩
  · intro fn hfn hport hex
    exact ⟨_, exec_cairnLoRead hfn hport hex, by simp, rfl, fun g hg => fnOf_putFn_ne s _ hg, rfl⟩
  · intro fn offset _
    exact ⟨readRegister_doorbell s fn offset, fun mb o hmb ho => readRegister_msg s hmb ho, fun hlo hhi => readRegister_unnamed s fn hlo hhi⟩
  · rintro rfl
    refine ⟨_, exec_registerWrite_bar0 hfn _ value s, ?_⟩
    rw [doRegisterWrite_event hr, fnOf_putFn_same]
    exact ⟨rfl, rfl, rfl⟩
  · intro e he x sends
    refine ⟨_, exec_registerWrite_bar0 hfn _ value s, ?_⟩
    rw [doRegisterWrite_msixMask hr he]
    exact msixWrite_mask rfl rfl
  · intro o ho
    rw [exec_registerWrite_bar0 hfn, doRegisterWrite_identity ho]
  · exact ⟨_, exec_registerWrite_config hfn _ value s, doConfigWrite_msixControl hr value⟩
  · rintro rfl
    rw [exec_registerWrite_config hfn, doConfigWrite_vfEnable hr]
  · obtain ⟨hpf, hpfUp, hpfIde⟩ := resetPf_clears s
    obtain ⟨hvfHost, hvfOld, hvf⟩ := vfsOff_clears s
    obtain ⟨hhot, hhotIde, hhotUp⟩ := hotReset_clears s rate width
    have hnames {fn : Nat} (hfn : fn < 65) : resetNames (.functionLevel fn) = true := decide_eq_true hfn
    refine ⟨fun fn hfn hne => ⟨fun hex => ?_, fun hex => ?_⟩, ?_, ?_, ?_, ?_, fun fn hfn => ?_⟩
    · obtain ⟨hkeep, hclear⟩ := resetFn_keepsCleared s fn
      refine ⟨resetFn s fn, ?_, hclear, ?_⟩
      · rw [exec_functionReset hup (hnames hfn), doFunctionReset_vf hne, if_pos hex]
      · rw [hkeep.port, hup]
    · rw [exec_functionReset hup (hnames hfn), doFunctionReset_vf hne, hex, if_neg Bool.false_ne_true]
    · exact ⟨_, exec_functionReset hup rfl rate width, ⟨hpf.pf, hpf.vf, hpf.vfEnable, hpf.numVfs⟩, hpfUp.trans hup⟩
    · exact ⟨_, exec_functionReset hup rfl rate width, ⟨hpf.pf, hpf.vf, hpf.vfEnable, hpf.numVfs⟩, hpfUp.trans hup⟩
    · refine ⟨_, exec_functionReset hup rfl rate width, hvf, ?_⟩
      rw [doFunctionReset, hvfHost]
    · exact ⟨_, exec_functionReset hup rfl rate width, ⟨hhot.pf, hhot.vf, hhot.vfEnable, hhot.numVfs⟩, hhotIde, hhotUp⟩
    · exact ⟨_, exec_functionResetDone s hfn, by simp, fun g hg => fnOf_putFn_ne s _ hg, rfl⟩

end Sys2Proof.Machine
end

section
/-! SUPPORT. What making space in the HBM quota of a pitch (R222, R231, R374) leaves unchanged, and that it asks nothing of the retention units. -/

namespace Sys2Proof.Machine

/-! ### Pages -/

@[simp] theorem pageOf_putPage_same (s : State) (p n : Nat) (g : Page) : pageOf (putPage s p n g) p n = g := by
  simp [pageOf, putPage, pitchOf_onPitch]

theorem pageOf_putPage_ne (s : State) (p : Nat) {n m : Nat} (g : Page) (h : m ≠ n) : pageOf (putPage s p n g) p m = pageOf s p m := by
  simp only [pageOf, putPage, pitchOf_onPitch]
  exact mgetD_mset_ne _ _ _ h

/-! ### What a step's lists and signals rest on -/

/-- From `s` to `t` nothing changes of what a chunk list and a signal rest on: configuration, sequences, the waits of camps, and the sync objects
and package of the pitch. -/
structure KeepsSyncs (p : Nat) (s t : State) : Prop where
  cfg : t.cfg = s.cfg
  seqs : t.seqs = s.seqs
  blocked : ∀ c, (campOf t c).blocked = (campOf s c).blocked
  syncs : (pitchOf t p).syncs = (pitchOf s p).syncs
  package : (pitchOf t p).package = (pitchOf s p).package

/-- Nor does any choice of the step change. -/
structure KeepsChoices (p : Nat) (s t : State) : Prop extends KeepsSyncs p s t where
  chosen : (pitchOf t p).chosen = (pitchOf s p).chosen

theorem KeepsSyncs.refl (p : Nat) (s : State) : KeepsSyncs p s s := ⟨rfl, rfl, fun _ => rfl, rfl, rfl⟩

theorem KeepsSyncs.trans {p : Nat} {s t u : State} (h₁ : KeepsSyncs p s t) (h₂ : KeepsSyncs p t u) : KeepsSyncs p s u :=
  ⟨h₂.cfg.trans h₁.cfg, h₂.seqs.trans h₁.seqs, fun c => (h₂.blocked c).trans (h₁.blocked c), h₂.syncs.trans h₁.syncs,
    h₂.package.trans h₁.package⟩

theorem KeepsChoices.refl (p : Nat) (s : State) : KeepsChoices p s s := ⟨.refl p s, rfl⟩

theorem KeepsChoices.trans {p : Nat} {s t u : State} (h₁ : KeepsChoices p s t) (h₂ : KeepsChoices p t u) : KeepsChoices p s u :=
  ⟨h₁.toKeepsSyncs.trans h₂.toKeepsSyncs, h₂.chosen.trans h₁.chosen⟩

/-- A change of the pitch that leaves its sync objects and its package. -/
theorem onPitch_keepsSyncs (s : State) (p : Nat) (f : Pitch → Pitch) (hsyncs : (f (pitchOf s p)).syncs = (pitchOf s p).syncs)
    (hpackage : (f (pitchOf s p)).package = (pitchOf s p).package) : KeepsSyncs p s (onPitch s p f) :=
  ⟨rfl, rfl, fun _ => rfl, by rw [pitchOf_onPitch, hsyncs], by rw [pitchOf_onPitch, hpackage]⟩

theorem onPitch_keepsChoices (s : State) (p : Nat) (f : Pitch → Pitch) (hsyncs : (f (pitchOf s p)).syncs = (pitchOf s p).syncs)
    (hpackage : (f (pitchOf s p)).package = (pitchOf s p).package) (hchosen : (f (pitchOf s p)).chosen = (pitchOf s p).chosen) :
    KeepsChoices p s (onPitch s p f) :=
  ⟨onPitch_keepsSyncs s p f hsyncs hpackage, by rw [pitchOf_onPitch, hchosen]⟩

/-- A change of memory alone. -/
theorem withMem_keepsChoices (p : Nat) (s : State) (m : Memory) : KeepsChoices p s { s with mem := m } :=
  ⟨⟨rfl, rfl, fun _ => rfl, rfl, rfl⟩, rfl⟩

theorem KeepsSyncs.layerIndex {p : Nat} {s t : State} (h : KeepsSyncs p s t) (layer : Nat) : layerIndex t p layer = layerIndex s p layer := by
  simp [Machine.layerIndex, recordOf, h.cfg]

theorem KeepsSyncs.layerImage {p : Nat} {s t : State} (h : KeepsSyncs p s t) (layer : Nat) : layerImage t p layer = layerImage s p layer := by
  simp [Machine.layerImage, h.package]

theorem KeepsSyncs.seqOf {p : Nat} {s t : State} (h : KeepsSyncs p s t) (i : Nat) : seqOf t i = seqOf s i := by
  simp [Machine.seqOf, h.seqs]

theorem KeepsSyncs.syncOf {p : Nat} {s t : State} (h : KeepsSyncs p s t) (n : Nat) : syncOf t p n = syncOf s p n := by
  simp [Machine.syncOf, h.syncs]

/-! ### Retention units -/

/-- The state with other retention units and late-wake counters (R259, R261). -/
def withUnits (s : State) (us : NMap RetUnit) (late : NMap Nat) : State := { s with mem := { s.mem with units := us, late := late } }

/-- An access that is noted changes the retention units and late-wake counters alone. -/
theorem touchUnits_eq (l : List Nat) (s : State) : ∃ us late, touchUnits l s = withUnits s us late := by
  induction l generalizing s with
  | nil => exact ⟨s.mem.units, s.mem.late, rfl⟩
  | cons u t ih =>
    obtain ⟨us, late, h⟩ : ∃ us late, touchUnit s u = withUnits s us late := by
      unfold touchUnit lateAccess
      dsimp only
      split <;> exact ⟨_, _, rfl⟩
    rw [touchUnits, h]
    exact ih (withUnits s us late)

/-- A place and state found, with other retention units. -/
def placeWithUnits (us : NMap RetUnit) (late : NMap Nat) (x : Nat × State) : Nat × State := (x.1, withUnits x.2 us late)

section
variable (us : NMap RetUnit) (late : NMap Nat)

theorem freeRange_withUnits (s : State) (p a : Nat) : freeRange (withUnits s us late) p a = withUnits (freeRange s p a) us late := by
  simp only [freeRange, show recordOf (withUnits s us late) p = recordOf s p from rfl,
    show pitchOf (withUnits s us late) p = pitchOf s p from rfl]
  split <;> rfl

theorem freeIf_withUnits (s : State) (p a : Nat) : freeIf (withUnits s us late) p a = withUnits (freeIf s p a) us late := by
  unfold freeIf
  split
  · rfl
  · exact freeRange_withUnits us late s p a

theorem onPitch_withUnits (s : State) (p : Nat) (f : Pitch → Pitch) : onPitch (withUnits s us late) p f = withUnits (onPitch s p f) us late := rfl

theorem putPage_withUnits (s : State) (p n : Nat) (g : Page) : putPage (withUnits s us late) p n g = withUnits (putPage s p n g) us late := rfl

theorem freePage_withUnits (s : State) (p n : Nat) : freePage (withUnits s us late) p n = withUnits (freePage s p n) us late := by
  simp only [freePage, show pageOf (withUnits s us late) p n = pageOf s p n from rfl, freeIf_withUnits, putPage_withUnits]
  rfl

theorem dropRef_withUnits (s : State) (p n : Nat) : dropRef (withUnits s us late) p n = withUnits (dropRef s p n) us late := by
  simp only [dropRef, show pageOf (withUnits s us late) p n = pageOf s p n from rfl, freePage_withUnits, putPage_withUnits]
  split
  · split <;> rfl
  · rfl

theorem dropRefs_withUnits (p : Nat) (l : List Nat) (s : State) : dropRefs p l (withUnits s us late) = withUnits (dropRefs p l s) us late := by
  induction l generalizing s with
  | nil => rfl
  | cons n t ih => rw [dropRefs, dropRef_withUnits, ih]; rfl

theorem removeNode_withUnits (s : State) (p k : Nat) : removeNode (withUnits s us late) p k = withUnits (removeNode s p k) us late := by
  simp only [removeNode, show pitchOf (withUnits s us late) p = pitchOf s p from rfl, onPitch_withUnits, freeRange_withUnits, dropRefs_withUnits]
  split <;> rfl

theorem tellGroup_withUnits (s : State) (p : Nat) (d : LeadDecision) : tellGroup (withUnits s us late) p d = withUnits (tellGroup s p d) us late := by
  simp only [tellGroup, show recordOf (withUnits s us late) p = recordOf s p from rfl]
  split
  · rfl
  · split <;> rfl

theorem removeIdle_withUnits (s : State) (p k : Nat) : removeIdle (withUnits s us late) p k = withUnits (removeIdle s p k) us late := by
  simp only [removeIdle, removeNode_withUnits, tellGroup_withUnits]
  rfl

theorem dropHot_withUnits (s : State) (p n : Nat) : dropHot (withUnits s us late) p n = withUnits (dropHot s p n) us late := by
  simp only [dropHot, show pageOf (withUnits s us late) p n = pageOf s p n from rfl, freeRange_withUnits, putPage_withUnits]

theorem placeIn_withUnits (s : State) (r : PitchRecord) (seg da size len : Nat) :
    placeIn (withUnits s us late) r seg da size len = (placeIn s r seg da size len).map (placeWithUnits us late) := by
  simp only [placeIn, show usedIn (withUnits s us late) r seg size = usedIn s r seg size from rfl,
    show scrubIn (withUnits s us late) da size = scrubIn s da size from rfl]
  split
  · rfl
  · split <;> rfl

theorem allocHot_withUnits (s : State) (p len : Nat) :
    allocHot (withUnits s us late) p len = (allocHot s p len).map (placeWithUnits us late) := by
  simp only [allocHot, show recordOf (withUnits s us late) p = recordOf s p from rfl]
  split
  · rfl
  · rw [placeIn_withUnits]
    cases placeIn s _ 0 _ _ len with
    | none => rfl
    | some x => rfl

theorem hotSpace_withUnits (p len n : Nat) (s : State) :
    hotSpace p len n (withUnits s us late) = (hotSpace p len n s).map (placeWithUnits us late) := by
  induction n generalizing s with
  | zero => exact allocHot_withUnits us late s p len
  | succ n ih =>
    simp only [hotSpace, allocHot_withUnits, show nextVictim (withUnits s us late) p = nextVictim s p from rfl,
      show idleNode (withUnits s us late) p = idleNode s p from rfl, dropHot_withUnits, removeIdle_withUnits, ih]
    cases allocHot s p len with
    | some x => rfl
    | none =>
      cases nextVictim s p with
      | some v => rfl
      | none =>
        cases idleNode s p with
        | some k => rfl
        | none => rfl

theorem roomFor_withUnits (s : State) (p len : Nat) : roomFor (withUnits s us late) p len = (roomFor s p len).map (placeWithUnits us late) :=
  hotSpace_withUnits us late p len (spaceFuel s p) s

theorem writeList_withUnits (s : State) (r : PitchRecord) (c : Chosen) :
    writeList (withUnits s us late) r c = (writeList s r c).map fun w => (withUnits w.1 us late, w.2) := by
  simp only [writeList, show seqOf (withUnits s us late) c.seq = seqOf s c.seq from rfl,
    show layerIndex (withUnits s us late) r.pitch c.layer = layerIndex s r.pitch c.layer from rfl,
    show layerImage (withUnits s us late) r.pitch c.layer = layerImage s r.pitch c.layer from rfl, roomFor_withUnits]
  split
  · simp only [Option.map_map]
    rfl
  · rfl

/-- The lists of a layer are written whatever the retention units hold. -/
theorem writeLists_withUnits (r : PitchRecord) (layer : Nat) (l : List Chosen) (s : State) :
    writeLists r layer l (withUnits s us late) = (writeLists r layer l s).map fun t => withUnits t us late := by
  induction l generalizing s with
  | nil => rfl
  | cons c t ih =>
    simp only [writeLists, writeList_withUnits]
    split
    · cases writeList s r c with
      | none => rfl
      | some w => exact ih (onPitch w.1 r.pitch fun x => { x with chosen := putChosen x.chosen w.2 })
    · exact ih s

end

/-! ### Making space -/

theorem freeRange_keepsChoices (s : State) (p a : Nat) : KeepsChoices p s (freeRange s p a) := by
  unfold freeRange
  split
  · exact (onPitch_keepsChoices s p _ rfl rfl rfl).trans (withMem_keepsChoices p _ _)
  · exact .refl p s

theorem freeIf_keepsChoices (s : State) (p a : Nat) : KeepsChoices p s (freeIf s p a) := by
  unfold freeIf
  split
  · exact .refl p s
  · exact freeRange_keepsChoices s p a

theorem putPage_keepsChoices (s : State) (p n : Nat) (g : Page) : KeepsChoices p s (putPage s p n g) :=
  onPitch_keepsChoices s p _ rfl rfl rfl

theorem freePage_keepsChoices (s : State) (p n : Nat) : KeepsChoices p s (freePage s p n) := by
  unfold freePage
  exact ((((freeIf_keepsChoices s p _).trans (freeIf_keepsChoices _ p _)).trans (freeIf_keepsChoices _ p _)).trans
    (putPage_keepsChoices _ p n _)).trans (onPitch_keepsChoices _ p _ rfl rfl rfl)

theorem dropRef_keepsChoices (s : State) (p n : Nat) : KeepsChoices p s (dropRef s p n) := by
  unfold dropRef
  dsimp only
  split
  · split
    · exact putPage_keepsChoices s p n _
    · exact freePage_keepsChoices s p n
  · exact putPage_keepsChoices s p n _

theorem dropRefs_keepsChoices (p : Nat) (l : List Nat) (s : State) : KeepsChoices p s (dropRefs p l s) := by
  induction l generalizing s with
  | nil => exact .refl p s
  | cons n t ih => exact (dropRef_keepsChoices s p n).trans (ih _)

theorem removeNode_keepsChoices (s : State) (p k : Nat) : KeepsChoices p s (removeNode s p k) := by
  unfold removeNode
  split
  · exact .refl p s
  · exact ((onPitch_keepsChoices s p _ rfl rfl rfl).trans (freeRange_keepsChoices _ p k)).trans (dropRefs_keepsChoices p _ _)

theorem tellGroup_keepsChoices (s : State) (p : Nat) (d : LeadDecision) : KeepsChoices p s (tellGroup s p d) := by
  unfold tellGroup
  split
  · exact .refl p s
  · split
    · exact onPitch_keepsChoices s p _ rfl rfl rfl
    · exact .refl p s

theorem removeIdle_keepsChoices (s : State) (p k : Nat) : KeepsChoices p s (removeIdle s p k) :=
  (removeNode_keepsChoices s p k).trans (tellGroup_keepsChoices _ p _)

theorem dropHot_keepsChoices (s : State) (p n : Nat) : KeepsChoices p s (dropHot s p n) :=
  (freeRange_keepsChoices s p _).trans (putPage_keepsChoices _ p n _)

theorem placeIn_keepsChoices {s : State} {r : PitchRecord} {seg da size len : Nat} {x : Nat × State} (h : placeIn s r seg da size len = some x)
    (p : Nat) : KeepsChoices p s x.2 := by
  simp only [placeIn] at h
  split at h
  · obtain rfl := Option.some.inj h
    exact .refl p s
  · split at h
    · obtain rfl := Option.some.inj h
      exact withMem_keepsChoices p s _
    · exact nomatch h

theorem allocHot_keepsChoices {s : State} {p len : Nat} {x : Nat × State} (h : allocHot s p len = some x) : KeepsChoices p s x.2 := by
  simp only [allocHot] at h
  split at h
  · exact nomatch h
  · split at h
    · exact nomatch h
    · next o s₁ hplace =>
      obtain rfl := Option.some.inj h
      have hs₁ : KeepsChoices p s s₁ := placeIn_keepsChoices hplace p
      dsimp only
      exact hs₁.trans (onPitch_keepsChoices s₁ p _ rfl rfl rfl)

theorem hotSpace_keepsChoices {p len n : Nat} {s : State} {x : Nat × State} (h : hotSpace p len n s = some x) : KeepsChoices p s x.2 := by
  induction n generalizing s with
  | zero => exact allocHot_keepsChoices h
  | succ n ih =>
    rw [hotSpace] at h
    split at h
    · next halloc =>
      obtain rfl := Option.some.inj h
      exact allocHot_keepsChoices halloc
    · split at h
      · exact (dropHot_keepsChoices s p _).trans (ih h)
      · split at h
        · exact (removeIdle_keepsChoices s p _).trans (ih h)
        · exact nomatch h

theorem roomFor_keepsChoices {s : State} {p len : Nat} {x : Nat × State} (h : roomFor s p len = some x) : KeepsChoices p s x.2 :=
  hotSpace_keepsChoices h

/-- Bytes that are put make run-ahead data stale, and leave the waits of the camps. -/
theorem campOf_pokeBytes_blocked (s : State) (da : Nat) (bs : List Byte) (c : Nat) :
    (campOf (pokeBytes s da bs) c).blocked = (campOf s c).blocked := by
  simp only [campOf, mgetD, pokeBytes, mget_mmap]
  cases mget s.camps c with
  | none => rfl
  | some x => rfl

theorem pokeBytes_keepsChoices (p : Nat) (s : State) (da : Nat) (bs : List Byte) : KeepsChoices p s (pokeBytes s da bs) :=
  ⟨⟨rfl, rfl, campOf_pokeBytes_blocked s da bs, rfl, rfl⟩, rfl⟩

end Sys2Proof.Machine
end

section
/-! PROOF. O27: selections, splits and chunk lists (R29, R196, R214, R216, R217, R220). -/

namespace Sys2Proof.Machine

/-! ### Splits (R196) -/

/-- The bounds of split `j`: both are quotients by the number of splits. -/
theorem splitRanges_getElem? {tokens chunks j : Nat} {a : Nat × Nat} (h : (splitRanges tokens chunks)[j]? = some a) :
    a = (j * chunks / min 64 (max 1 (ceilDiv tokens 4096)), (j + 1) * chunks / min 64 (max 1 (ceilDiv tokens 4096))) := by
  simp only [splitRanges, List.getElem?_map, Option.map_eq_some_iff] at h
  obtain ⟨i, hi, rfl⟩ := h
  obtain ⟨hlt, rfl⟩ := List.getElem?_eq_some_iff.1 hi
  simp

theorem length_splitRanges (tokens chunks : Nat) : (splitRanges tokens chunks).length = min 64 (max 1 (ceilDiv tokens 4096)) := by
  simp [splitRanges]

/-- The splits follow one another from chunk 0 to the last, since each bound is the quotient of a rising product. -/
theorem splitRanges_cover (tokens chunks : Nat) :
    let n := min 64 (max 1 ((tokens + 4095) / 4096))
    let l := splitRanges tokens chunks
    l.length = n ∧ (l.head?.map (·.1)) = some 0 ∧ (l.getLast?.map (·.2)) = some chunks
      ∧ ∀ (j : Nat) (a b : Nat × Nat), l[j]? = some a → l[j + 1]? = some b → a.1 ≤ a.2 ∧ a.2 = b.1 ∧ b.1 ≤ b.2 := by
  intro n l
  have hlen : l.length = n := length_splitRanges tokens chunks
  have hn : 0 < n := by omega
  have hget (j : Nat) (hj : j < n) : l[j]? = some (j * chunks / n, (j + 1) * chunks / n) := by
    have hjl : j < l.length := by omega
    rw [List.getElem?_eq_getElem hjl]
    exact congrArg some (splitRanges_getElem? (List.getElem?_eq_getElem hjl))
  have hle (j : Nat) : j * chunks / n ≤ (j + 1) * chunks / n :=
    Nat.div_le_div_right (Nat.mul_le_mul_right chunks (Nat.le_succ j))
  refine ⟨hlen, ?_, ?_, fun j a b ha hb => ?_⟩
  · rw [List.head?_eq_getElem?, hget 0 hn]
    simp
  · rw [List.getLast?_eq_getElem?, hlen, hget (n - 1) (by omega), Nat.sub_add_cancel hn]
    simp [Nat.mul_div_cancel_left chunks hn]
  · obtain rfl := splitRanges_getElem? ha
    obtain rfl := splitRanges_getElem? hb
    exact ⟨hle j, rfl, hle (j + 1)⟩

/-! ### Choices (R214, R216) -/

/-- A layer of `n` pages attends exactly, or has no more pages than fixed pages and k. -/
def ChoosesAll (b : LanternBlock) (exact_ : Bool) (n : Nat) : Prop :=
  exact_ = true ∨ n ≤ ((List.range n).filter fun i => decide (i < b.sink) || decide (n ≤ i + b.recent)).length + b.k

/-- Such a layer has every page chosen, in order. -/
theorem selectPages_all {b : LanternBlock} {exact_ : Bool} {n : Nat} (h : ChoosesAll b exact_ n) (f g : Nat → Word) : (selectPages b exact_ n f g).chosen = List.range n :=
  congrArg Selection.chosen (if_pos h)

theorem mem_putChosen (l : List Chosen) (c : Chosen) : c ∈ putChosen l c := List.mem_append_right _ List.mem_cons_self

/-- Another choice in the list was there before, and is of another row or layer. -/
theorem of_mem_putChosen {l : List Chosen} {c d : Chosen} (h : d ∈ putChosen l c) : d = c ∨ (d ∈ l ∧ ¬(d.seq = c.seq ∧ d.layer = c.layer)) := by
  rcases List.mem_append.1 h with h | h
  · obtain ⟨hmem, hne⟩ := List.mem_filter.1 h
    exact .inr ⟨hmem, by simpa [← not_and_or] using hne⟩
  · exact .inl (List.mem_singleton.1 h)

/-- Writing last_selected changes pitches alone. -/
theorem markSelected_eq (p step : Nat) (l : List Nat) (s : State) :
    markSelected p step l s = { s with pitches := (markSelected p step l s).pitches } := by
  induction l generalizing s with
  | nil => rfl
  | cons n t ih => exact ih _

theorem pageOf_markSelected_ne (p step : Nat) {n : Nat} {l : List Nat} (s : State) (h : n ∉ l) :
    pageOf (markSelected p step l s) p n = pageOf s p n := by
  induction l generalizing s with
  | nil => rfl
  | cons a t ih =>
    obtain ⟨hne, ht⟩ := not_or.1 (List.mem_cons.not.1 h)
    exact (ih _ ht).trans (pageOf_putPage_ne s p _ hne)

theorem lastSelected_markSelected (p step : Nat) {n : Nat} {l : List Nat} (s : State) (h : n ∈ l ∨ (pageOf s p n).lastSelected = step % 2 ^ 32) :
    (pageOf (markSelected p step l s) p n).lastSelected = step % 2 ^ 32 := by
  induction l generalizing s with
  | nil => exact h.resolve_left List.not_mem_nil
  | cons a t ih =>
    refine ih _ ?_
    by_cases ha : n = a
    · rw [ha]
      exact .inr (congrArg Page.lastSelected (pageOf_putPage_same s p a _))
    · rw [pageOf_putPage_ne s p _ ha]
      exact h.imp_left fun hn => (List.mem_cons.1 hn).resolve_left ha

/-- The choice of a row marks the chosen pages and takes the place of an earlier one; where nothing is left out its pages are the layer's, in order. -/
theorem selectRow_eq {s : State} {r : PitchRecord} {m : MicroRow} {layer : Nat} {l : LayerState}
    (hl : (seqOf s m.seq).layers[layerIndex s r.pitch layer]? = some l) (qs : List LanternQuery) :
    ∃ pages predicted, selectRow s r m layer qs
        = onPitch (markSelected r.pitch (pitchOf s r.pitch).stepCount pages s) r.pitch
            (fun x => { x with chosen := putChosen x.chosen ⟨m.seq, layer, pages, predicted, none, []⟩ })
      ∧ (ChoosesAll r.profile.lantern (bitOf m.flags 0) l.pages.length → pages = l.pages) := by
  unfold selectRow
  simp only [hl]
  refine ⟨_, _, rfl, fun hall => ?_⟩
  rw [selectPages_all hall]
  exact List.ext_getElem (by simp) fun i h₁ h₂ => by simp [h₂]

theorem exec_lanternSelect {s : State} {r : PitchRecord} {pitch : Nat} (hp : pitch < 64) (hr : recordOf s pitch = some r) (row layer : Nat)
    (qs : List LanternQuery) (found : List Finding) :
    exec (.lanternSelect pitch row layer qs found) s = .next (doLantern s r row layer qs found) := by
  show execLanternSelect pitch row layer qs found s = _
  rw [execLanternSelect, if_pos (by simpa [pitchOk] using hp), hr]

theorem doLantern_listed {s : State} {r : PitchRecord} {row layer : Nat} {m : MicroRow} (hm : (pitchOf s r.pitch).batch[row]? = some m)
    (hlist : hasList s r.pitch m.seq layer = true) (qs : List LanternQuery) (found : List Finding) : doLantern s r row layer qs found = s := by
  unfold doLantern
  simp only [hm]
  rw [if_pos (.inr hlist)]

/-- Before the chunk list is written, findings are acted on and the row is then chosen for, if it is still in the micro-batch (R252). -/
theorem doLantern_reads {s : State} {r : PitchRecord} {row layer : Nat} {m : MicroRow} (hm : (pitchOf s r.pitch).batch[row]? = some m)
    (hnew : m.newTokens ≠ 0) (hlist : hasList s r.pitch m.seq layer = false)
    (hadm : Admitted s (summaryRanges s r.pitch m.seq (layerIndex s r.pitch layer))) (qs : List LanternQuery) {found : List Finding}
    (hfound : found.any (findingWaits s false) = false) :
    let u := rangerFindings r.pitch found (touched s (summaryRanges s r.pitch m.seq (layerIndex s r.pitch layer)))
    doLantern s r row layer qs found = if m ∈ (pitchOf u r.pitch).batch then selectRow u r m layer qs else u := by
  unfold doLantern
  simp only [hm]
  rw [if_neg (by simp [hnew, hlist]), rangerReads, hfound, if_neg Bool.false_ne_true, rangerAccess_admitted hadm]

/-- Without findings the row is still in the micro-batch. -/
theorem doLantern_selects {s : State} {r : PitchRecord} {row layer : Nat} {m : MicroRow} (hm : (pitchOf s r.pitch).batch[row]? = some m)
    (hnew : m.newTokens ≠ 0) (hlist : hasList s r.pitch m.seq layer = false)
    (hadm : Admitted s (summaryRanges s r.pitch m.seq (layerIndex s r.pitch layer))) (qs : List LanternQuery) :
    doLantern s r row layer qs [] = selectRow (touched s (summaryRanges s r.pitch m.seq (layerIndex s r.pitch layer))) r m layer qs := by
  refine (doLantern_reads hm hnew hlist hadm qs rfl).trans (if_pos ?_)
  simpa [rangerFindings, pitchOf] using List.mem_of_getElem? hm

/-- A choice of a row: its record in the pitch and the marks of its pages (R216, R220). -/
theorem selectRow_spec {s : State} {r : PitchRecord} {m : MicroRow} {layer : Nat} {l : LayerState}
    (hl : (seqOf s m.seq).layers[layerIndex s r.pitch layer]? = some l) (qs : List LanternQuery) :
    let t := selectRow s r m layer qs
    ∃ c, t = { s with pitches := t.pitches } ∧ c ∈ (pitchOf t r.pitch).chosen ∧ c.seq = m.seq ∧ c.layer = layer ∧ c.list = none
      ∧ (∀ d ∈ (pitchOf t r.pitch).chosen, d.seq = m.seq → d.layer = layer → d = c)
      ∧ (∀ n ∈ c.pages, (pageOf t r.pitch n).lastSelected = (pitchOf s r.pitch).stepCount % 2 ^ 32)
      ∧ (∀ n, n ∉ c.pages → pageOf t r.pitch n = pageOf s r.pitch n)
      ∧ (ChoosesAll r.profile.lantern (bitOf m.flags 0) l.pages.length → c.pages = l.pages) := by
  obtain ⟨pages, predicted, heq, hall⟩ := selectRow_eq hl qs
  intro t
  have hpage (n : Nat) : pageOf t r.pitch n = pageOf (markSelected r.pitch (pitchOf s r.pitch).stepCount pages s) r.pitch n := by
    simp only [t, heq, pageOf, pitchOf_onPitch]
  obtain ⟨old, hchosen⟩ : ∃ old, (pitchOf t r.pitch).chosen = putChosen old ⟨m.seq, layer, pages, predicted, none, []⟩ := by
    simp only [t, heq, pitchOf_onPitch]
    exact ⟨_, rfl⟩
  refine ⟨⟨m.seq, layer, pages, predicted, none, []⟩, ?_, hchosen ▸ mem_putChosen old _, rfl, rfl, rfl, fun d hd hseq hlayer => ?_,
    fun n hn => ?_, fun n hn => ?_, hall⟩
  · simp only [t, heq, onPitch, putPitch]
    rw [markSelected_eq]
  · rw [hchosen] at hd
    exact (of_mem_putChosen hd).resolve_right fun h => h.2 ⟨hseq, hlayer⟩
  · rw [hpage]
    exact lastSelected_markSelected r.pitch _ _ (.inl hn)
  · rw [hpage]
    exact pageOf_markSelected_ne r.pitch _ _ hn

/-! ### Chunk lists (R29, R217) -/

/-- A list that is written takes space, and its choice names the place where the layer has a record in the package and the sequence. -/
theorem writeList_spec {s : State} {r : PitchRecord} {c : Chosen} {w : State × Chosen} (h : writeList s r c = some w) :
    KeepsChoices r.pitch s w.1 ∧ w.2.seq = c.seq ∧ w.2.layer = c.layer
      ∧ ((layerImage s r.pitch c.layer).isSome = true → layerIndex s r.pitch c.layer < (seqOf s c.seq).layers.length → w.2.list ≠ none) := by
  unfold writeList at h
  dsimp only at h
  split at h
  · obtain ⟨x, hroom, rfl⟩ := Option.map_eq_some_iff.1 h
    exact ⟨(roomFor_keepsChoices hroom).trans (pokeBytes_keepsChoices _ _ _ _), rfl, rfl, fun _ _ => Option.some_ne_none _⟩
  · next hnone =>
    obtain rfl := Option.some.inj h
    refine ⟨.refl _ s, rfl, rfl, fun himage hlen => ?_⟩
    obtain ⟨g, hg⟩ := Option.isSome_iff_exists.1 himage
    exact absurd hg (hnone _ g (List.getElem?_eq_getElem hlen))

/-- One list of a layer written and its choice put in place. -/
theorem listWritten_keepsSyncs {s : State} {r : PitchRecord} {c : Chosen} {w : State × Chosen} (h : writeList s r c = some w) :
    KeepsSyncs r.pitch s (onPitch w.1 r.pitch fun x => { x with chosen := putChosen x.chosen w.2 }) :=
  (writeList_spec h).1.toKeepsSyncs.trans (onPitch_keepsSyncs w.1 r.pitch _ rfl rfl)

theorem writeLists_keepsSyncs {r : PitchRecord} {layer : Nat} {l : List Chosen} {s u : State} (h : writeLists r layer l s = some u) :
    KeepsSyncs r.pitch s u := by
  induction l generalizing s with
  | nil =>
    obtain rfl := Option.some.inj h
    exact .refl _ s
  | cons c t ih =>
    rw [writeLists] at h
    split at h
    · split at h
      · exact nomatch h
      · next hw => exact (listWritten_keepsSyncs hw).trans (ih h)
    · exact ih h

/-- Once the lists of the choices of a layer are written every choice of the layer names its list, where the choices without one were among them. -/
theorem writeLists_listed {r : PitchRecord} {layer : Nat} {l : List Chosen} {s u : State} (h : writeLists r layer l s = some u)
    (himage : (layerImage s r.pitch layer).isSome = true)
    (hlen : ∀ c ∈ l, layerIndex s r.pitch layer < (seqOf s c.seq).layers.length)
    (hopen : ∀ d ∈ (pitchOf s r.pitch).chosen, d.layer = layer → d.list = none → d ∈ l) :
    ∀ d ∈ (pitchOf u r.pitch).chosen, d.layer = layer → d.list ≠ none := by
  induction l generalizing s with
  | nil =>
    obtain rfl := Option.some.inj h
    exact fun d hd hlayer hnone => List.not_mem_nil (hopen d hd hlayer hnone)
  | cons c t ih =>
    rw [writeLists] at h
    have hlenT (d : Chosen) (hd : d ∈ t) := hlen d (List.mem_cons_of_mem c hd)
    split at h
    · next hc =>
      obtain ⟨rfl, -⟩ := hc
      split at h
      · exact nomatch h
      · next w hw =>
        have hkeep := listWritten_keepsSyncs hw
        obtain ⟨hchoices, hseq, hlayer, hlisted⟩ := writeList_spec hw
        refine ih h ?_ (fun d hd => ?_) fun d hd hdl hdn => ?_
        · rwa [hkeep.layerImage]
        · rw [hkeep.layerIndex, hkeep.seqOf]
          exact hlenT d hd
        · rw [pitchOf_onPitch] at hd
          rcases of_mem_putChosen hd with rfl | ⟨hold, hne⟩
          · exact absurd hdn (hlisted himage (hlen c List.mem_cons_self))
          · rw [hchoices.chosen] at hold
            refine (List.mem_cons.1 (hopen d hold hdl hdn)).resolve_left fun hdc => hne ?_
            exact ⟨hdc ▸ hseq.symm, hdl.trans hlayer.symm⟩
    · next hc =>
      refine ih h himage hlenT fun d hd hdl hdn => ?_
      refine (List.mem_cons.1 (hopen d hd hdl hdn)).resolve_left fun hdc => hc ?_
      exact ⟨hdc ▸ hdl, hdc ▸ hdn⟩

/-! ### The signal (R162, R164) -/

/-- Where no camp waits on the object no wait ends. -/
theorem releaseWaiters_of_none {s : State} {n : Nat} (h : ∀ c b, (campOf s c).blocked = some b → b.reason ≠ .sync n) (p : Nat) (l : List Nat) :
    releaseWaiters p n l s = s := by
  induction l with
  | nil => rfl
  | cons c t ih =>
    have hone : releaseWaiter s p n c = s := by
      unfold releaseWaiter
      split
      · rfl
      · next b hb => rw [if_neg fun hw => h c b hb hw.1]
    rw [releaseWaiters, hone, ih]

theorem signalSync_of_none {s : State} {p n v : Nat} (hcount : (syncOf s p n).count + v < 2 ^ 32)
    (h : ∀ c b, (campOf s c).blocked = some b → b.reason ≠ .sync n) :
    signalSync s p n v = some (putSync s p n { syncOf s p n with count := (syncOf s p n).count + v }) := by
  unfold signalSync
  dsimp only
  rw [if_neg (by omega)]
  exact congrArg some (releaseWaiters_of_none (s := putSync s p n _) h p _)

@[simp] theorem syncOf_putSync_same (s : State) (p n : Nat) (y : Sync) : syncOf (putSync s p n y) p n = y := by
  simp [syncOf, putSync]

theorem chosen_putSync (s : State) (p n : Nat) (y : Sync) : (pitchOf (putSync s p n y) p).chosen = (pitchOf s p).chosen := by
  simp [putSync]

/-! ### CHUNK_LISTS_READY -/

/-- The rows of the micro-batch with new tokens. -/
def newRows (s : State) (p : Nat) : List MicroRow := (pitchOf s p).batch.filter fun m => decide (m.newTokens ≠ 0)

/-- The choices of a layer. -/
def choicesOf (s : State) (p layer : Nat) : List Chosen := (pitchOf s p).chosen.filter fun c => decide (c.layer = layer)

/-- The layer's lists can be written: every row is chosen for, every chosen page is hot, the step's tokens are staged, and a list is missing. -/
def ListsDue (s : State) (p layer : Nat) : Prop :=
  ((newRows s p).all fun m => (choicesOf s p layer).any fun c => decide (c.seq = m.seq)) = true
    ∧ ((choicesOf s p layer).all fun c => c.pages.all fun n => hasHot (pageOf s p n)) = true
    ∧ (newRows s p).all (staged s p layer) = true ∧ ((choicesOf s p layer).any fun c => c.list.isNone) = true

theorem exec_chunkListsReady {s : State} {r : PitchRecord} {pitch : Nat} (hp : pitch < 64) (hr : recordOf s pitch = some r) (layer : Nat) :
    exec (.chunkListsReady pitch layer) s = .next (doChunkLists s r layer) := by
  show execChunkListsReady pitch layer s = _
  rw [execChunkListsReady, if_pos (by simpa [pitchOk] using hp), hr]

theorem doChunkLists_unnamed {s : State} {r : PitchRecord} {layer : Nat} (h : mget (pitchOf s r.pitch).readySyncs layer = none) :
    doChunkLists s r layer = s := by
  unfold doChunkLists
  simp only [h]

theorem doChunkLists_notDue {s : State} {r : PitchRecord} {layer : Nat} (h : ¬ListsDue s r.pitch layer) : doChunkLists s r layer = s := by
  unfold doChunkLists
  dsimp only
  split
  · rfl
  · exact if_neg h

/-- The lists are written from the state in which the accesses to them have been noted, and the object named for the layer is signalled. -/
theorem doChunkLists_due {s u : State} {r : PitchRecord} {layer o : Nat} (hsync : mget (pitchOf s r.pitch).readySyncs layer = some o)
    (hdue : ListsDue s r.pitch layer) (hwrite : writeLists r layer (choicesOf s r.pitch layer) s = some u)
    (hadm : Admitted s (listRanges u r layer)) :
    ∃ us late, doChunkLists s r layer = (signalSync (withUnits u us late) r.pitch o 1).getD (withUnits u us late) := by
  obtain ⟨us, late, htouch⟩ := touchUnits_eq (unitsAsked s (listRanges u r layer)) s
  have hwrite₂ : writeLists r layer (choicesOf s r.pitch layer) (withUnits s us late) = some (withUnits u us late) := by
    rw [writeLists_withUnits, hwrite]
    rfl
  refine ⟨us, late, ?_⟩
  unfold doChunkLists
  simp only [hsync]
  refine (if_pos hdue).trans ?_
  unfold choicesOf at hwrite hwrite₂
  simp only [hwrite]
  rw [rangerAccess_admitted hadm, touched, htouch]
  simp only [hwrite₂]

/-- Where no camp waits on the object its count rises by one, and every choice of the layer names its list. -/
theorem doChunkLists_signals {s u : State} {r : PitchRecord} {layer o : Nat} (hsync : mget (pitchOf s r.pitch).readySyncs layer = some o)
    (hdue : ListsDue s r.pitch layer) (hwrite : writeLists r layer (choicesOf s r.pitch layer) s = some u)
    (hadm : Admitted s (listRanges u r layer)) (hcount : (syncOf s r.pitch o).count + 1 < 2 ^ 32)
    (hnone : ∀ c b, (campOf s c).blocked = some b → b.reason ≠ .sync o) :
    let t := doChunkLists s r layer
    (syncOf t r.pitch o).count = (syncOf s r.pitch o).count + 1
      ∧ ((layerImage s r.pitch layer).isSome = true →
          (∀ c ∈ choicesOf s r.pitch layer, layerIndex s r.pitch layer < (seqOf s c.seq).layers.length) →
          ∀ c ∈ (pitchOf t r.pitch).chosen, c.layer = layer → c.list ≠ none) := by
  obtain ⟨us, late, hdo⟩ := doChunkLists_due hsync hdue hwrite hadm
  have hkeep := writeLists_keepsSyncs hwrite
  have hsyncU : syncOf (withUnits u us late) r.pitch o = syncOf s r.pitch o := hkeep.syncOf o
  have hnoneU (c : Nat) (b : Blocked) (hb : (campOf (withUnits u us late) c).blocked = some b) : b.reason ≠ .sync o :=
    hnone c b ((hkeep.blocked c).symm.trans hb)
  dsimp only
  rw [hdo, signalSync_of_none (by rwa [hsyncU]) hnoneU, Option.getD_some, syncOf_putSync_same, chosen_putSync, hsyncU]
  refine ⟨rfl, fun himage hlen => ?_⟩
  change ∀ c ∈ (pitchOf u r.pitch).chosen, c.layer = layer → c.list ≠ none
  exact writeLists_listed hwrite himage hlen fun d hd hlayer _ => List.mem_filter.2 ⟨hd, decide_eq_true hlayer⟩

/-! ### O27 -/

/-- Settles O27: a choice is recorded by `putChosen` and `markSelected`; the bounds of the splits are quotients of a rising product; and making space
for the lists changes neither the step's choices nor the waits and the sync objects. -/
theorem selectionsAreRecorded : Obligations.SelectionsAreRecorded := by
  unfold Obligations.SelectionsAreRecorded
  refine ⟨?_, splitRanges_cover, ?_⟩
  · rintro s pitch row layer qs r m l hp hr rfl hm hnew hl
    simp only [exec_lanternSelect hp hr]
    refine ⟨fun hlist found => congrArg _ (doLantern_listed hm hlist qs found), fun hlist hadm =>
      ⟨fun found hfound => congrArg _ (doLantern_reads hm hnew hlist hadm qs hfound), ?_⟩⟩
    rw [doLantern_selects hm hnew hlist hadm]
    obtain ⟨us, late, htouch⟩ := touchUnits_eq (unitsAsked s (summaryRanges s r.pitch m.seq (layerIndex s r.pitch layer))) s
    rw [touched, htouch]
    obtain ⟨c, hspec⟩ := selectRow_spec (s := withUnits s us late) hl qs
    exact ⟨_, c, rfl, hspec⟩
  · rintro s pitch layer r hp hr rfl
    simp only [exec_chunkListsReady hp hr]
    refine ⟨fun o u hsync hready hhot hstaged hopen hwrite hadm hcount hnone => ?_, fun h => congrArg _ ?_⟩
    · obtain ⟨c, hc, hlist⟩ := hopen
      have hdue : ListsDue s r.pitch layer := ⟨hready, hhot, hstaged, List.any_eq_true.2 ⟨c, hc, by simp [hlist]⟩⟩
      exact ⟨_, rfl, doChunkLists_signals hsync hdue hwrite hadm hcount hnone⟩
    · rcases h with h | h
      · exact doChunkLists_unnamed h
      · refine doChunkLists_notDue fun ⟨hready, hhot, hstaged, hopen⟩ => ?_
        rcases h with h | h | h | h
        · exact Bool.false_ne_true (h.symm.trans hready)
        · exact Bool.false_ne_true (h.symm.trans hhot)
        · exact Bool.false_ne_true (h.symm.trans hstaged)
        · obtain ⟨c, hc, hlist⟩ := List.any_eq_true.1 hopen
          exact h c hc (Option.isNone_iff_eq_none.1 hlist)

end Sys2Proof.Machine
end

section
/-! PROOF. O58: the phases of a start up to the check (R18, R246, R254, R385, R435). Each stage is followed by what it leaves unchanged, so that
a row's effect is read off the stage that makes it. -/

namespace Sys2Proof.Machine

/-! ### Phases -/

/-- The check begins once arrays, memory and links are done, and nothing but the phase changes. -/
theorem reachCheck_eq (s : State) :
    reachCheck s = { s with boot := { s.boot with
      phase := if s.boot.phase = 6 ∧ s.boot.arraysDone = true ∧ s.boot.hbmDone = true ∧ s.boot.linksDone = true then 9 else s.boot.phase } } := by
  unfold reachCheck
  split <;> rfl

/-! ### The camp map -/

/-- A logical camp is fenced, or a spare camp of its die stands in its place (R18). -/
def OutOfPlace (m : CampMap) (c : Nat) : Prop := c ∈ m.fenced ∨ ∃ k, mget m.map c = some (spareCamp (sliceOf c) k)

/-- A free spare camp of a die is one of its spares. -/
theorem spare_of_freeSpare {m : CampMap} {die p : Nat} (h : freeSpare m die = some p) : ∃ k, p = spareCamp die k := by
  obtain ⟨k, -, hk⟩ := List.mem_map.1 (List.mem_of_find?_eq_some h)
  exact ⟨k, hk.symm⟩

theorem outOfPlace_retireCamp_same (m : CampMap) (c : Nat) : OutOfPlace (retireCamp m c) c := by
  unfold retireCamp
  extract_lets m₁
  split
  · next p hp =>
    obtain ⟨k, rfl⟩ := spare_of_freeSpare hp
    exact .inr ⟨k, mget_mset_same _ _ _⟩
  · exact .inl (by simp)

/-- Retiring another camp leaves the place of a camp as it is. -/
theorem outOfPlace_retireCamp_ne {m : CampMap} {c d : Nat} (hne : c ≠ d) (h : OutOfPlace m c) : OutOfPlace (retireCamp m d) c := by
  unfold retireCamp
  extract_lets m₁
  split
  · exact h.imp_right fun ⟨k, hk⟩ => ⟨k, (mget_mset_ne _ _ hne).trans hk⟩
  · exact h.imp_left fun hc => List.mem_append_left _ hc

theorem OutOfPlace.retireCamp {m : CampMap} {c : Nat} (h : OutOfPlace m c) (d : Nat) : OutOfPlace (retireCamp m d) c := by
  by_cases hd : c = d
  · exact hd ▸ outOfPlace_retireCamp_same m c
  · exact outOfPlace_retireCamp_ne hd h

/-- The records of failed camps touch neither the start's state nor memory. -/
theorem failCamps_keeps (l : List Nat) (s : State) (m : CampMap) :
    (failCamps l (s, m)).1.boot = s.boot ∧ (failCamps l (s, m)).1.mem = s.mem := by
  induction l generalizing s m with
  | nil => exact ⟨rfl, rfl⟩
  | cons c t ih =>
    rw [failCamps]
    split
    · exact ih s m
    · simpa using ih (rangerEvent s 0x01 0x0E01 noPitch (wearDetail c noCore 0 0 0 0)) (Machine.retireCamp m c)

/-- A camp that fails its test is out of its place, and so is one that was before. -/
theorem failCamps_outOfPlace (l : List Nat) (s : State) (m : CampMap) {c : Nat} (h : c ∈ l ∨ OutOfPlace m c) :
    OutOfPlace (failCamps l (s, m)).2 c := by
  induction l generalizing s m with
  | nil => exact h.resolve_left List.not_mem_nil
  | cons d t ih =>
    rw [failCamps]
    split
    · next hd =>
      refine ih s m ?_
      rcases h with h | h
      · rcases List.mem_cons.1 h with rfl | h
        · exact .inr (.inl (List.contains_iff_mem.1 hd))
        · exact .inl h
      · exact .inr h
    · refine ih _ _ ?_
      rcases h with h | h
      · rcases List.mem_cons.1 h with rfl | h
        · exact .inr (outOfPlace_retireCamp_same m c)
        · exact .inl h
      · exact .inr (h.retireCamp d)

theorem reapplyLanes_keeps (m : CampMap) (l : List LaneLoss) (s : State) :
    (reapplyLanes m l s).boot = s.boot ∧ (reapplyLanes m l s).mem = s.mem := by
  induction l generalizing s with
  | nil => exact ⟨rfl, rfl⟩
  | cons a t ih =>
    rw [reapplyLanes]
    split
    · exact ih s
    · exact ih _

theorem fenceAll_keeps (l : List Nat) (s : State) : (fenceAll l s).boot = s.boot ∧ (fenceAll l s).mem = s.mem := by
  induction l generalizing s with
  | nil => exact ⟨rfl, rfl⟩
  | cons c t ih => exact ih _

theorem fenceAll_fences (l : List Nat) (s : State) {c : Nat} (h : c ∈ l ∨ (campOf s c).fenced = true) :
    (campOf (fenceAll l s) c).fenced = true := by
  induction l generalizing s with
  | nil => exact h.resolve_left List.not_mem_nil
  | cons d t ih =>
    refine ih _ ?_
    by_cases hd : c = d
    · exact .inr (by rw [hd, campOf_putCamp])
    · rw [campOf_putCamp_ne _ _ hd]
      exact h.imp_left fun hc => (List.mem_cons.1 hc).resolve_left hd

/-! ### Memory -/

theorem channelRecords_keeps (l : List Nat) (s : State) :
    (channelRecords l s).boot = s.boot ∧ (channelRecords l s).mem = s.mem := by
  induction l generalizing s with
  | nil => exact ⟨rfl, rfl⟩
  | cons p t ih =>
    rw [channelRecords]
    simpa using ih (rangerEvent s 0x05 0x0703 noPitch (memDetail 0 2 (p / 64) (p % 64) noPosition 0))

/-! ### Links -/

theorem trainPorts_keeps (c : Configuration) (l : List (PortReport × Nat)) (s : State) :
    (trainPorts c l s).boot = s.boot ∧ (trainPorts c l s).cfg = s.cfg ∧ (trainPorts c l s).fab = s.fab := by
  induction l generalizing s with
  | nil => exact ⟨rfl, rfl, rfl⟩
  | cons a t ih =>
    rw [trainPorts]
    dsimp only
    split
    · refine ⟨(ih _).1.trans ?_, (ih _).2.1.trans ?_, (ih _).2.2.trans ?_⟩ <;> simp
    · split <;> exact ih _

theorem ethUpRecords_keeps (l : List Nat) (s : State) :
    (ethUpRecords l s).boot = s.boot ∧ (ethUpRecords l s).cfg = s.cfg ∧ (ethUpRecords l s).mem = s.mem ∧ (ethUpRecords l s).fab = s.fab
      ∧ (ethUpRecords l s).eth = s.eth := by
  induction l generalizing s with
  | nil => exact ⟨rfl, rfl, rfl, rfl, rfl⟩
  | cons p t ih =>
    rw [ethUpRecords]
    split
    · simpa using ih (rangerEvent s 0x06 0x0C09 noPitch (fabricDetail p 0xFF 0 0 (s.eth.up.filter id).length 0))
    · exact ih s

/-- Sending identities changes the outputs alone. -/
theorem sendIdentities_eq (l : List Nat) (s : State) : sendIdentities l s = { s with out := (sendIdentities l s).out } := by
  induction l generalizing s with
  | nil => rfl
  | cons a t ih =>
    rw [sendIdentities]
    split
    · exact ih (sendIdentity s a)
    · exact ih s

theorem sendIdentities_out_subset (l : List Nat) (s : State) : s.out ⊆ (sendIdentities l s).out := by
  induction l generalizing s with
  | nil => exact List.Subset.refl _
  | cons a t ih =>
    rw [sendIdentities]
    split
    · exact List.Subset.trans (List.subset_append_left _ _) (ih (sendIdentity s a))
    · exact ih s

/-- Each trained link of the list sends the module's identity (R385). -/
theorem identity_mem_sendIdentities {l : Nat} {ls : List Nat} (s : State) (hl : l ∈ ls)
    (h : (linkAt s l).any (fun k => decide (k.state = .trained)) = true) : Output.identity l (deviceId s) l ∈ (sendIdentities ls s).out := by
  induction ls generalizing s with
  | nil => exact absurd hl List.not_mem_nil
  | cons a t ih =>
    rw [sendIdentities]
    rcases List.mem_cons.1 hl with rfl | hl
    · rw [if_pos h]
      exact sendIdentities_out_subset t _ (List.mem_append_right _ List.mem_cons_self)
    · split
      · exact ih (sendIdentity s a) hl h
      · exact ih s hl h

/-! ### The host port -/

theorem raiseInterrupt_out_subset (s : State) (fn vector : Nat) : s.out ⊆ (raiseInterrupt s fn vector).out := by
  simp only [raiseInterrupt]
  split
  · split
    · exact List.Subset.refl _
    · exact List.subset_append_left _ _
  · exact List.Subset.refl _

theorem appendCritical_out (s : State) (e : EventRec) : (appendCritical s e).out = s.out := by
  simp only [appendCritical]
  split
  · rfl
  · split <;> rfl

/-- A record may add an interrupt to the outputs and takes none away. -/
theorem writeEvent_out_subset (s : State) (source cls code pitch : Nat) (detail : List Byte) :
    s.out ⊆ (writeEvent s source cls code pitch detail).out := by
  unfold writeEvent
  extract_lets e ev s₁ s₂ pf
  have hlog : s₂.out = s.out := by
    unfold s₂
    split
    · exact appendCritical_out s₁ e
    · rfl
  split
  · exact hlog ▸ raiseInterrupt_out_subset s₂ 0 _
  · exact hlog ▸ List.Subset.refl _

/-- The port trains at its one rate and width, or stays down (R408). -/
theorem hostTrain_keeps (s : State) (rate width : Nat) :
    (hostTrain s rate width).boot = s.boot ∧ (hostTrain s rate width).mem = s.mem ∧ (hostTrain s rate width).fab = s.fab
      ∧ (hostTrain s rate width).eth = s.eth ∧ s.out ⊆ (hostTrain s rate width).out := by
  unfold hostTrain
  split
  · exact ⟨rfl, rfl, rfl, rfl, List.Subset.refl _⟩
  · exact ⟨by simp, by simp, by simp, by simp,
      writeEvent_out_subset { s with host := { s.host with up := false, refused := true } } _ _ _ _ _⟩

theorem hostTrain_up (s : State) (rate width : Nat) : (hostTrain s rate width).host.up = (decide (rate = 64) && decide (width = 16)) := by
  unfold hostTrain
  split
  · next hok => simp [hok]
  · next hbad =>
    rw [(writeEvent_keepsCleared _ _ _ _ _ _).port, ← Bool.decide_and, decide_eq_false hbad]

/-! ### The rows -/

/-- ARRAYS_TESTED makes a camp map in which every failed camp is out of its place, and fences the camps that the map names. -/
theorem doArraysTested_stages (s : State) (failed : List Nat) : ∃ m u, doArraysTested s failed = reachCheck (fenceAll m.fenced u)
    ∧ u.boot = { s.boot with campMap := m.map, retiredPhys := m.retired, fencedLogical := m.fenced, arraysDone := true } ∧ u.mem = s.mem
    ∧ ∀ c ∈ failed, OutOfPlace m c := by
  refine ⟨_, _, rfl, ?_, ?_, fun c hc => failCamps_outOfPlace failed s _ (.inl hc)⟩
  · rw [(reapplyLanes_keeps _ _ _).1, (failCamps_keeps _ _ _).1]
  · rw [(reapplyLanes_keeps _ _ _).2, (failCamps_keeps _ _ _).2]

theorem exec_arraysTested {s : State} {failed : List Nat} (hok : failed.all campOk = true) (hphase : s.boot.phase = 6)
    (hdone : s.boot.arraysDone = false) :
    ∃ t, exec (.arraysTested failed) s = .next t ∧ t.boot.arraysDone = true
      ∧ t.boot.phase = (if s.boot.hbmDone = true ∧ s.boot.linksDone = true then 9 else 6)
      ∧ (∀ c ∈ t.boot.fencedLogical, (campOf t c).fenced = true)
      ∧ (∀ c ∈ failed, c ∈ t.boot.fencedLogical ∨ ∃ k, mget t.boot.campMap c = some (spareCamp (sliceOf c) k)) ∧ t.mem = s.mem := by
  obtain ⟨m, u, hdo, hboot, hmem, hplace⟩ := doArraysTested_stages s failed
  obtain ⟨hfenceBoot, hfenceMem⟩ := fenceAll_keeps m.fenced u
  refine ⟨doArraysTested s failed, ?_, ?_⟩
  · show execArraysTested failed s = _
    rw [execArraysTested, if_pos hok, if_pos ⟨hphase, hdone⟩]
  · rw [hdo, reachCheck_eq, hfenceBoot, hboot]
    exact ⟨rfl, by simp [hphase], fun c hc => fenceAll_fences m.fenced u (.inl hc), hplace, hfenceMem.trans hmem⟩

/-- The end of training with any channels lost: the working ones are fixed (R246). -/
theorem channelsFixed_spec {s : State} (hphase : s.boot.phase = 6) (lost : List Nat) :
    let t := reachCheck (channelRecords lost
      { s with mem := { s.mem with n := 1024 - lost.length, retired := lost }, boot := { s.boot with hbmDone := true } })
    t.boot.hbmDone = true ∧ t.boot.phase = (if s.boot.arraysDone = true ∧ s.boot.linksDone = true then 9 else 6)
      ∧ t.mem = { s.mem with n := 1024 - lost.length, retired := lost } := by
  obtain ⟨hboot, hmem⟩ := channelRecords_keeps lost
    { s with mem := { s.mem with n := 1024 - lost.length, retired := lost }, boot := { s.boot with hbmDone := true } }
  rw [reachCheck_eq, hboot]
  exact ⟨rfl, by simp [hphase], hmem⟩

theorem exec_hbmTrainingDone {s : State} (hphase : s.boot.phase = 6) (hdone : s.boot.hbmDone = false) (reports : List StackReport) :
    ∃ t, exec (.hbmTrainingDone reports) s = .next t ∧ t.boot.hbmDone = true
      ∧ t.boot.phase = (if s.boot.arraysDone = true ∧ s.boot.linksDone = true then 9 else 6)
      ∧ t.mem = { s.mem with n := 1024 - (retiredChannels reports).length, retired := retiredChannels reports } :=
  ⟨_, show execHbmTrainingDone reports s = _ by rw [execHbmTrainingDone, if_pos ⟨hphase, hdone⟩],
    channelsFixed_spec hphase (retiredChannels reports)⟩

/-- The fabric links and the capacity ports of a configuration have trained; those of a refused one train not at all (R437). -/
def fabricTrained (s : State) (c : Configuration) (links : List Bool) (ports : List PortReport) : State :=
  if s.boot.configRefused then s else trainPorts c (ports.zipIdx.take 8) { s with fab := { s.fab with links := trainLinks c links } }

theorem fabricTrained_spec (s : State) (c : Configuration) (links : List Bool) (ports : List PortReport) :
    (fabricTrained s c links ports).boot = s.boot ∧ (fabricTrained s c links ports).cfg = s.cfg
      ∧ (s.boot.configRefused = false → (fabricTrained s c links ports).fab.links = trainLinks c links)
      ∧ (s.boot.configRefused = true → (fabricTrained s c links ports).fab = s.fab ∧ (fabricTrained s c links ports).mem = s.mem) := by
  unfold fabricTrained
  split
  · next href => exact ⟨rfl, rfl, fun h => absurd (href.symm.trans h) (by decide), fun _ => ⟨rfl, rfl⟩⟩
  · next hgood =>
    obtain ⟨hboot, hcfg, hfab⟩ := trainPorts_keeps c (ports.zipIdx.take 8) { s with fab := { s.fab with links := trainLinks c links } }
    exact ⟨hboot, hcfg, fun _ => congrArg Fabric.links hfab, fun h => absurd h hgood⟩

/-- The Ethernet ports that are in use have come up or not, with their records. -/
def ethReported (s : State) (c : Configuration) (eth : List Bool) : State :=
  ethUpRecords (List.range 2) { s with eth := { s.eth with up := (List.range 2).map fun k => eth.getD k false && (c.eth[k]?).any (·.inUse) } }

theorem ethReported_spec (s : State) (c : Configuration) (eth : List Bool) :
    (ethReported s c eth).boot = s.boot ∧ (ethReported s c eth).cfg = s.cfg ∧ (ethReported s c eth).mem = s.mem
      ∧ (ethReported s c eth).fab = s.fab
      ∧ (ethReported s c eth).eth.up = (List.range 2).map (fun k => eth.getD k false && (c.eth[k]?).any (·.inUse)) := by
  obtain ⟨hboot, hcfg, hmem, hfab, heth⟩ := ethUpRecords_keeps (List.range 2)
    { s with eth := { s.eth with up := (List.range 2).map fun k => eth.getD k false && (c.eth[k]?).any (·.inUse) } }
  exact ⟨hboot, hcfg, hmem, hfab, congrArg Ethernet.up heth⟩

/-- Everything that LINKS_TRAINED reports before identities are sent and the host port trains. -/
def linksReported (s : State) (c : Configuration) (links : List Bool) (ports : List PortReport) (eth : List Bool) : State :=
  ethReported (fabricTrained { s with boot := { s.boot with linksDone := true } } c links ports) c eth

theorem linksReported_spec (s : State) (c : Configuration) (links : List Bool) (ports : List PortReport) (eth : List Bool) :
    let u := linksReported s c links ports eth
    u.boot = { s.boot with linksDone := true } ∧ u.cfg = s.cfg
      ∧ u.eth.up = (List.range 2).map (fun k => eth.getD k false && (c.eth[k]?).any (·.inUse))
      ∧ (s.boot.configRefused = false → u.fab.links = trainLinks c links) ∧ (s.boot.configRefused = true → u.fab = s.fab ∧ u.mem = s.mem) := by
  obtain ⟨hboot, hcfg, hgood, hrefused⟩ := fabricTrained_spec { s with boot := { s.boot with linksDone := true } } c links ports
  obtain ⟨hbootE, hcfgE, hmemE, hfabE, hup⟩ := ethReported_spec (fabricTrained { s with boot := { s.boot with linksDone := true } } c links ports) c eth
  refine ⟨hbootE.trans hboot, hcfgE.trans hcfg, hup, fun h => ?_, fun h => ⟨?_, ?_⟩⟩
  · exact (congrArg Fabric.links hfabE).trans (hgood h)
  · exact hfabE.trans (hrefused h).1
  · exact hmemE.trans (hrefused h).2

/-- With a configuration the identities are sent once the links have been reported, and the host port trains where the configuration has it. -/
theorem doLinksTrained_configured {s : State} {c : Configuration} (hcfg : s.cfg = some c) (links : List Bool) (ports : List PortReport)
    (eth : List Bool) (rate width : Nat) :
    doLinksTrained s links ports eth rate width =
      let u := sendIdentities (List.range 24) (linksReported s c links ports eth)
      reachCheck (if c.hostPort then hostTrain u rate width else u) := by
  unfold doLinksTrained linksReported ethReported fabricTrained
  simp only [hcfg]

/-- Without a configuration the host port alone trains (R437). -/
theorem doLinksTrained_unconfigured {s : State} (hcfg : s.cfg = none) (links : List Bool) (ports : List PortReport) (eth : List Bool)
    (rate width : Nat) :
    doLinksTrained s links ports eth rate width
      = reachCheck (hostTrain { s with boot := { s.boot with linksDone := true } } rate width) := by
  unfold doLinksTrained
  simp only [hcfg]

theorem exec_linksTrained {s : State} (hphase : s.boot.phase = 6) (hdone : s.boot.linksDone = false) (links : List Bool)
    (ports : List PortReport) (eth : List Bool) (rate width : Nat) :
    exec (.linksTrained links ports eth rate width) s = .next (doLinksTrained s links ports eth rate width) := by
  show execLinksTrained links ports eth rate width s = _
  rw [execLinksTrained, if_pos ⟨hphase, hdone⟩]

/-- The host port, where it trains, changes nothing of the start, the links and the Ethernet ports, and takes back no output. -/
theorem hostTrainIf_keeps (b : Bool) (s : State) (rate width : Nat) :
    let t := if b then hostTrain s rate width else s
    t.boot = s.boot ∧ t.mem = s.mem ∧ t.fab = s.fab ∧ t.eth = s.eth ∧ s.out ⊆ t.out := by
  cases b
  · exact ⟨rfl, rfl, rfl, rfl, List.Subset.refl _⟩
  · exact hostTrain_keeps s rate width

theorem doLinksTrained_configured_spec {s : State} {c : Configuration} (hcfg : s.cfg = some c) (hphase : s.boot.phase = 6) (links : List Bool)
    (ports : List PortReport) (eth : List Bool) (rate width : Nat) :
    let t := doLinksTrained s links ports eth rate width
    t.boot.linksDone = true ∧ t.boot.phase = (if s.boot.arraysDone = true ∧ s.boot.hbmDone = true then 9 else 6)
      ∧ (s.boot.configRefused = false → t.fab.links = trainLinks c links
          ∧ ∀ l, l < 24 → (linkAt t l).any (fun k => decide (k.state = .trained)) = true → Output.identity l c.deviceId l ∈ t.out)
      ∧ (s.boot.configRefused = true → t.fab = s.fab ∧ t.mem = s.mem)
      ∧ t.eth.up = (List.range 2).map (fun k => eth.getD k false && (c.eth[k]?).any (·.inUse)) := by
  rw [doLinksTrained_configured hcfg]
  obtain ⟨hboot, hcfgU, heth, htrain, hrefused⟩ := linksReported_spec s c links ports eth
  generalize linksReported s c links ports eth = u at *
  dsimp only at *
  have hident (l : Nat) (hl : l < 24) := identity_mem_sendIdentities u (List.mem_range.2 hl)
  have hdevice : deviceId u = c.deviceId := by simp [deviceId, hcfgU, hcfg]
  rw [hdevice] at hident
  obtain ⟨hbootT, hmemT, hfabT, hethT, houtT⟩ := hostTrainIf_keeps c.hostPort (sendIdentities (List.range 24) u) rate width
  generalize (if c.hostPort then hostTrain (sendIdentities (List.range 24) u) rate width else sendIdentities (List.range 24) u) = t at *
  rw [sendIdentities_eq] at hbootT hmemT hfabT hethT
  dsimp only at hbootT hmemT hfabT hethT
  rw [reachCheck_eq, hbootT, hboot]
  refine ⟨rfl, by simp [hphase], fun h => ⟨hfabT ▸ htrain h, fun l hl htr => ?_⟩, fun h => ?_, hethT ▸ heth⟩
  · refine houtT (hident l hl ?_)
    simpa [linkAt, hfabT] using htr
  · exact ⟨hfabT.trans (hrefused h).1, hmemT.trans (hrefused h).2⟩

theorem doLinksTrained_unconfigured_spec {s : State} (hcfg : s.cfg = none) (hphase : s.boot.phase = 6) (links : List Bool)
    (ports : List PortReport) (eth : List Bool) (rate width : Nat) :
    let t := doLinksTrained s links ports eth rate width
    t.boot.linksDone = true ∧ t.boot.phase = (if s.boot.arraysDone = true ∧ s.boot.hbmDone = true then 9 else 6)
      ∧ t.host.up = (decide (rate = 64) && decide (width = 16)) ∧ t.fab = s.fab ∧ t.eth = s.eth := by
  rw [doLinksTrained_unconfigured hcfg, reachCheck_eq]
  obtain ⟨hboot, -, hfab, heth, -⟩ := hostTrain_keeps { s with boot := { s.boot with linksDone := true } } rate width
  rw [hboot]
  exact ⟨rfl, by simp [hphase], hostTrain_up _ rate width, hfab, heth⟩

/-! ### Identities (R385) -/

theorem linkAt_putLink_same {s : State} {l : Nat} {k₀ : Link} (h : linkAt s l = some k₀) (k : Link) : linkAt (putLink s l k) l = some k := by
  obtain ⟨hl, -⟩ := List.getElem?_eq_some_iff.1 h
  exact List.getElem?_set_self hl

theorem linkAt_putLink_ne (s : State) {l j : Nat} (k : Link) (h : j ≠ l) : linkAt (putLink s l k) j = linkAt s j :=
  List.getElem?_set_ne h.symm

/-- An event of a link counts one, and leaves every link as it is. -/
theorem linkEvent_linkAt (s : State) (l code peer attempt j : Nat) : linkAt (linkEvent s l code peer attempt) j = linkAt s j := by
  simp [linkAt]

theorem linkEvent_written (s : State) (l code peer attempt : Nat) : (linkEvent s l code peer attempt).ev.written = (s.ev.written + 1) % 2 ^ 32 :=
  (writeEvent_log _ _ _ _ _ _).2.1

/-- The identity of a neighbour puts a trained link into service, or refuses it, with one record. -/
theorem doLinkIdentity_trained {s : State} {l : Nat} {k : Link} {e : LinkEntry} (hk : linkAt s l = some k) (he : linkEntry s l = some e)
    (htr : k.state = .trained) (device peer : Nat) :
    ∃ code, doLinkIdentity s l device peer
      = linkEvent (putLink s l { k with state := if e.peerDevice = device ∧ e.peerLink = peer then .up else .refused }) l code device 0 := by
  unfold doLinkIdentity
  simp only [hk, he]
  rw [if_neg (by simp [htr])]
  split
  · exact ⟨_, rfl⟩
  · exact ⟨_, rfl⟩

/-! ### O58 -/

/-- Settles O58: each row is a run of stages that ends with `reachCheck`; the stage that makes an effect gives it, and the others keep it. -/
theorem startUpPhasesFollow : Obligations.StartUpPhasesFollow := by
  unfold Obligations.StartUpPhasesFollow
  refine fun s => ⟨fun hphase => ?_, fun failed hok hphase hdone => exec_arraysTested hok hphase hdone,
    fun reports hphase hdone => exec_hbmTrainingDone hphase hdone reports, ?_, ?_, ?_, fun hphase => ?_⟩
  · show execVddCoreGood s = _
    rw [execVddCoreGood, if_pos hphase]
  · intro links ports eth rate width c hcfg hphase hdone
    exact ⟨_, exec_linksTrained hphase hdone links ports eth rate width, doLinksTrained_configured_spec hcfg hphase links ports eth rate width⟩
  · intro links ports eth rate width hcfg hphase hdone
    exact ⟨_, exec_linksTrained hphase hdone links ports eth rate width, doLinksTrained_unconfigured_spec hcfg hphase links ports eth rate width⟩
  · intro l device peer k e hl hk he htr
    obtain ⟨code, hdo⟩ := doLinkIdentity_trained hk he htr device peer
    refine ⟨doLinkIdentity s l device peer, ?_, ?_⟩
    · show execLinkIdentity l device peer s = _
      rw [execLinkIdentity, if_pos (by simpa [linkOk] using hl)]
    · rw [hdo]
      simp only [linkEvent_linkAt, linkEvent_written]
      exact ⟨linkAt_putLink_same hk _, fun j hj => linkAt_putLink_ne s _ hj, rfl, by simp⟩
  · show execCapacityClearDone s = _
    rw [execCapacityClearDone, if_pos hphase]

end Sys2Proof.Machine
end

section
/-! PROOF. O60: the load of a model package (R33, R175, R296, R372, R456). A first load writes memory, command memory and one pitch; a reload writes
memory and packages. -/

namespace Sys2Proof.Machine

/-! ### What the writes of a load leave -/

/-- From `s` to `t` no pitch and no sequence changes. -/
structure KeepsServing (s t : State) : Prop where
  pitches : t.pitches = s.pitches
  seqs : t.seqs = s.seqs

theorem KeepsServing.refl (s : State) : KeepsServing s s := ⟨rfl, rfl⟩

theorem KeepsServing.trans {s t u : State} (h₁ : KeepsServing s t) (h₂ : KeepsServing t u) : KeepsServing s u :=
  ⟨h₂.pitches.trans h₁.pitches, h₂.seqs.trans h₁.seqs⟩

theorem pokeBytes_keepsServing (s : State) (da : Nat) (bs : List Byte) : KeepsServing s (pokeBytes s da bs) := ⟨rfl, rfl⟩

theorem writeTensors_keepsServing (r : PitchRecord) (ts : List TensorImage) (s : State) : KeepsServing s (writeTensors r ts s) := by
  induction ts generalizing s with
  | nil => exact .refl s
  | cons t ts ih => exact ((pokeBytes_keepsServing s _ _).trans (pokeBytes_keepsServing _ _ _)).trans (ih _)

theorem writeCodedRegions_keepsServing (r : PitchRecord) (cs : List CodedRegion) (s : State) :
    KeepsServing s (writeCodedRegions r cs s) := by
  induction cs generalizing s with
  | nil => exact .refl s
  | cons c cs ih =>
    refine KeepsServing.trans ?_ (ih _)
    split
    · exact pokeBytes_keepsServing s _ _
    · exact (pokeBytes_keepsServing s _ _).trans (pokeBytes_keepsServing _ _ _)

theorem clearCommands_keepsServing (r : PitchRecord) (rels : List Nat) (s : State) : KeepsServing s (clearCommands r rels s) := by
  induction rels generalizing s with
  | nil => exact .refl s
  | cons rel t ih => exact KeepsServing.trans (t := putCamp s _ _) ⟨rfl, rfl⟩ (ih _)

theorem placeProgram_keepsServing (r : PitchRecord) (p : ProgramImage) (rels : List Nat) (x : State × List LoadedProgram) :
    KeepsServing x.1 (placeProgram r p rels x).1 := by
  induction rels generalizing x with
  | nil => exact .refl x.1
  | cons rel t ih =>
    obtain ⟨s, done⟩ := x
    exact KeepsServing.trans (t := putCamp s _ _) ⟨rfl, rfl⟩ (ih (_, _))

theorem placePrograms_keepsServing (r : PitchRecord) (ps : List ProgramImage) (x : State × List LoadedProgram) :
    KeepsServing x.1 (placePrograms r ps x).1 := by
  induction ps generalizing x with
  | nil => exact .refl x.1
  | cons p t ih => exact (placeProgram_keepsServing r p p.camps x).trans (ih _)

theorem fillPersistent_keepsServing (r : PitchRecord) (xs : List Slot) (s : State) : KeepsServing s (fillPersistent r xs s) := by
  induction xs generalizing s with
  | nil => exact .refl s
  | cons x t ih =>
    refine KeepsServing.trans ?_ (ih _)
    split
    · exact pokeBytes_keepsServing s _ _
    · exact .refl s

/-! ### A first load -/

/-- A list numbered from `i` on, read at a number. -/
theorem mget_zipIdx {α : Type} (l : List α) (i n : Nat) : mget ((l.zipIdx i).map fun e => (e.2, e.1)) (i + n) = l[n]? := by
  induction l generalizing i n with
  | nil => rfl
  | cons a t ih =>
    rw [List.zipIdx_cons, List.map_cons, mget]
    cases n with
    | zero => simp
    | succ n =>
      have hne : i ≠ i + (n + 1) := by omega
      simpa [hne, Nat.add_assoc, Nat.add_comm 1 n] using ih (i + 1) n

/-- A first load is a run of writes that change no pitch, and then the package, the slots and the result of its own pitch. -/
theorem loadPackage_stages (s : State) (r : PitchRecord) (k : PackageImage) : ∃ u programs, KeepsServing s u
    ∧ loadPackage s r k = onPitch u r.pitch fun x => { x with
        package := some ⟨k.digest, k.vocab, k.region, k.tensors.map loadedTensor, programs, k.layers, k.coded, [], none⟩
        slots := (k.slots.map slotOfImage).zipIdx.map fun e => (e.2, e.1)
        loadResult := some rcDone } := by
  refine ⟨_, _, ?_, rfl⟩
  refine KeepsServing.trans ?_ (fillPersistent_keepsServing r _ _)
  refine KeepsServing.trans ?_ (placePrograms_keepsServing r _ (_, []))
  refine KeepsServing.trans ?_ (clearCommands_keepsServing r _ _)
  exact (writeTensors_keepsServing r _ s).trans (writeCodedRegions_keepsServing r _ _)

theorem KeepsServing.pitchOf {s t : State} (h : KeepsServing s t) (p : Nat) : pitchOf t p = pitchOf s p := by
  simp [Machine.pitchOf, h.pitches]

/-- What a first load puts into service (R33, R157, R175), and that no other pitch and no sequence changes (R380). -/
theorem loadPackage_spec (s : State) (r : PitchRecord) (k : PackageImage) :
    let t := loadPackage s r k
    (∃ g, (pitchOf t r.pitch).package = some g ∧ g.digest = k.digest ∧ g.vocab = k.vocab ∧ g.tensors = k.tensors.map loadedTensor
      ∧ g.layers = k.layers ∧ g.coded = k.coded)
    ∧ (pitchOf t r.pitch).loadResult = some rcDone
    ∧ (∀ n x, k.slots[n]? = some x → mget (pitchOf t r.pitch).slots n = some (slotOfImage x))
    ∧ (∀ p, p ≠ r.pitch → pitchOf t p = pitchOf s p) ∧ t.seqs = s.seqs := by
  obtain ⟨u, programs, hkeep, hload⟩ := loadPackage_stages s r k
  simp only [hload, pitchOf_onPitch]
  refine ⟨⟨_, rfl, rfl, rfl, rfl, rfl, rfl⟩, trivial, fun n x hx => ?_, fun p hp => ?_, hkeep.seqs⟩
  · have h := mget_zipIdx (k.slots.map slotOfImage) 0 n
    rwa [Nat.zero_add, List.getElem?_map, hx] at h
  · rw [pitchOf_onPitch_ne u _ hp, hkeep.pitchOf]

/-! ### A reload (R456) -/

theorem writeBlocks_keepsServing (r : PitchRecord) (x : LoadedTensor) (i : TensorImage) (js : List Nat) (s : State) :
    KeepsServing s (writeBlocks r x i js s) := by
  induction js generalizing s with
  | nil => exact .refl s
  | cons j t ih => exact ((pokeBytes_keepsServing s _ _).trans (pokeBytes_keepsServing _ _ _)).trans (ih _)

theorem restoreTensors_keepsServing (r : PitchRecord) (imgs : List TensorImage) (ts : List LoadedTensor) (s : State) :
    KeepsServing s (restoreTensors r imgs ts s) := by
  induction ts generalizing s with
  | nil => exact .refl s
  | cons t ts ih =>
    refine KeepsServing.trans ?_ (ih _)
    split
    · exact .refl s
    · exact writeBlocks_keepsServing r _ _ _ s

theorem restoreCoded_keepsServing (r : PitchRecord) (imgs : List CodedRegion) (k : LoadedPackage) (xs : List (Nat × Nat)) (s : State) :
    KeepsServing s (restoreCoded r imgs k xs s) := by
  induction xs generalizing s with
  | nil => exact .refl s
  | cons x t ih =>
    refine KeepsServing.trans ?_ (ih _)
    split
    · exact .refl s
    · exact (pokeBytes_keepsServing s _ _).trans (pokeBytes_keepsServing _ _ _)

theorem restoreAll_keepsServing (r : PitchRecord) (img : PackageImage) (ps : List Nat) (s : State) :
    KeepsServing s (restoreAll r img ps s) := by
  induction ps generalizing s with
  | nil => exact .refl s
  | cons p t ih =>
    refine KeepsServing.trans ?_ (ih _)
    split
    · exact .refl s
    · exact (restoreTensors_keepsServing r _ _ s).trans (restoreCoded_keepsServing r _ _ _ _)

theorem healAll_seqs (img : PackageImage) (da : Nat) (ps : List Nat) (s : State) : (healAll img da ps s).seqs = s.seqs := by
  induction ps generalizing s with
  | nil => rfl
  | cons p t ih => exact ih _

/-- A reload ends with DONE, or with INTEGRITY_FAIL where a block of the region still faults. -/
theorem reloadPackage_spec (s : State) (r : PitchRecord) (k : PackageImage) :
    let t := reloadPackage s r k
    t.seqs = s.seqs ∧ ((pitchOf t r.pitch).loadResult = some rcDone ∨ (pitchOf t r.pitch).loadResult = some rcIntegrityFail) := by
  unfold reloadPackage
  extract_lets ps da u left
  have hseqs : u.seqs = s.seqs := (healAll_seqs k da ps _).trans (restoreAll_keepsServing r k ps s).seqs
  refine ⟨hseqs, ?_⟩
  rw [pitchOf_onPitch]
  cases left
  · exact .inl rfl
  · exact .inr rfl

/-! ### The cases of MODEL_PACKAGE_LOAD -/

theorem recordOf_pitch {s : State} {p : Nat} {r : PitchRecord} (h : recordOf s p = some r) : r.pitch = p := by
  unfold recordOf at h
  split at h
  · exact nomatch h
  · simpa using List.find?_some h

theorem exec_modelPackageLoad {s : State} {r : PitchRecord} {pitch : Nat} (hp : pitch < 64) (hr : recordOf s pitch = some r)
    (k : PackageImage) : exec (.modelPackageLoad pitch k) s = .next (doPackageLoad s r k) := by
  show execModelPackageLoad pitch k s = _
  rw [execModelPackageLoad, if_pos (by simpa [pitchOk] using hp), hr]

/-- A pitch that the load would touch has a step in flight (R372). -/
abbrev LoadWaits (s : State) (p : Nat) (k : PackageImage) : Prop :=
  ∃ q ∈ loadPitches s p k ++ regionPitches s p, (pitchOf s q).inStep = true

/-- No region that the load would touch holds another package (R456). -/
abbrev SamePackage (s : State) (p : Nat) (k : PackageImage) : Prop := ∀ d, regionDigest s p k = some d → d = k.digest

theorem regionDigest_same {s : State} {p : Nat} {k : PackageImage} (h : SamePackage s p k) :
    ¬(regionDigest s p k).any (fun d => decide (d ≠ k.digest)) = true := by
  cases hd : regionDigest s p k with
  | none => simp
  | some d => simp [h d hd]

theorem doPackageLoad_waits {s : State} {r : PitchRecord} {k : PackageImage} (h : LoadWaits s r.pitch k) : doPackageLoad s r k = s := by
  rw [doPackageLoad, if_pos (by simpa only [List.any_eq_true] using h)]

section
variable {s : State} {r : PitchRecord} {k : PackageImage} (hstep : ¬LoadWaits s r.pitch k)
include hstep

theorem doPackageLoad_other {d : Nat} (hd : regionDigest s r.pitch k = some d) (hne : d ≠ k.digest) :
    doPackageLoad s r k = onPitch s r.pitch fun x => { x with loadResult := some rcVersionMismatch } := by
  rw [doPackageLoad, if_neg (by simpa only [List.any_eq_true] using hstep), if_pos (by simp [hd, hne])]

variable (hsame : SamePackage s r.pitch k)
include hsame

theorem doPackageLoad_reloads (hsome : (pitchOf s r.pitch).package ≠ none) : doPackageLoad s r k = reloadPackage s r k := by
  rw [doPackageLoad, if_neg (by simpa only [List.any_eq_true] using hstep), if_neg (regionDigest_same hsame),
    if_pos (Option.isSome_iff_ne_none.2 hsome)]

theorem doPackageLoad_refuses (hnone : (pitchOf s r.pitch).package = none) {code : Nat} (hcode : packageRefusal s r k = some code) :
    doPackageLoad s r k = onPitch s r.pitch fun x => { x with loadResult := some code } := by
  rw [doPackageLoad, if_neg (by simpa only [List.any_eq_true] using hstep), if_neg (regionDigest_same hsame), if_neg (by simp [hnone]), hcode]

theorem doPackageLoad_loads (hnone : (pitchOf s r.pitch).package = none) (hok : packageRefusal s r k = none) :
    doPackageLoad s r k = loadPackage s r k := by
  rw [doPackageLoad, if_neg (by simpa only [List.any_eq_true] using hstep), if_neg (regionDigest_same hsame), if_neg (by simp [hnone]), hok]

end

/-! ### O60 -/

/-- Settles O60: the branches of `doPackageLoad` are the statement's clauses; a first load and a reload have a lemma each. -/
theorem packageLoadIsChecked : Obligations.PackageLoadIsChecked := by
  unfold Obligations.PackageLoadIsChecked
  intro s pitch k r hp hr
  have hexec := exec_modelPackageLoad hp hr k
  obtain rfl := recordOf_pitch hr
  refine ⟨fun hwaits => ?_, fun hidle => ?_⟩
  · rw [hexec, doPackageLoad_waits hwaits]
  have hstep : ¬LoadWaits s r.pitch k := fun ⟨q, hq, hin⟩ => absurd hin (by simp [hidle q hq])
  refine ⟨fun d hd hne => ?_, fun hsame hnone => ⟨fun code hcode => ?_, fun hok => ?_⟩, fun hsame hsome => ?_⟩
  · rw [hexec, doPackageLoad_other hstep hd hne]
  · rw [hexec, doPackageLoad_refuses hstep hsame hnone hcode]
  · obtain ⟨⟨g, hg, hdigest, hvocab, htensors, hlayers, hcoded⟩, hresult, hslots, hpitches, hseqs⟩ := loadPackage_spec s r k
    refine ⟨_, g, ?_, hg, hdigest, hvocab, htensors, hlayers, hcoded, hresult, hslots, hpitches, hseqs⟩
    rw [hexec, doPackageLoad_loads hstep hsame hnone hok]
  · refine ⟨_, ?_, reloadPackage_spec s r k⟩
    rw [hexec, doPackageLoad_reloads hstep hsame hsome]

end Sys2Proof.Machine
end

section
/-! PROOF. O51: patrol scrub (R33, R35, R250 to R252, R460). What an uncorrectable word leaves of the store is stated once; each content's response
follows from there. -/

namespace Sys2Proof.Machine

/-! ### What the record of a bad word leaves -/

/-- From `s` to `t` nothing changes of what a response to a bad word reads: configuration, pitches, sequences, bytes of memory and capacity ports. -/
structure KeepsStore (s t : State) : Prop where
  cfg : t.cfg = s.cfg
  pitches : t.pitches = s.pitches
  seqs : t.seqs = s.seqs
  bytes : t.mem.bytes = s.mem.bytes
  ports : t.mem.ports = s.mem.ports

theorem KeepsStore.trans {s t u : State} (h₁ : KeepsStore s t) (h₂ : KeepsStore t u) : KeepsStore s u :=
  ⟨h₂.cfg.trans h₁.cfg, h₂.pitches.trans h₁.pitches, h₂.seqs.trans h₁.seqs, h₂.bytes.trans h₁.bytes, h₂.ports.trans h₁.ports⟩

theorem withUnits_keepsStore (s : State) (us : NMap RetUnit) (late : NMap Nat) : KeepsStore s (withUnits s us late) :=
  ⟨rfl, rfl, rfl, rfl, rfl⟩

theorem markChannel_mem (s : State) (ch seconds : Nat) :
    (markChannel s ch seconds).mem = { s.mem with marked := if ch ∈ s.mem.marked then s.mem.marked else s.mem.marked ++ [ch] } := by
  unfold markChannel
  split <;> simp

/-- The pseudo-channel of a bad word is marked (R460). -/
theorem hbmBad_marks (s : State) (source da : Nat) (address : Bool) :
    KeepsStore s (hbmBad s source da address) ∧ hbmChannel s da ∈ (hbmBad s source da address).mem.marked := by
  have hmem : (hbmBad s source da address).mem
      = { s.mem with marked := if hbmChannel s da ∈ s.mem.marked then s.mem.marked else s.mem.marked ++ [hbmChannel s da] } := by
    simp only [hbmBad, markChannel_mem, writeEvent_keeps]
  refine ⟨⟨by simp, by simp, by simp, by rw [hmem], by rw [hmem]⟩, ?_⟩
  rw [hmem]
  show _ ∈ ite _ _ _
  split
  · assumption
  · simp

theorem countCorrection_bytes (s : State) (ch : Nat) : (countCorrection s ch).mem.bytes = s.mem.bytes := by
  unfold countCorrection
  extract_lets t old recent s₁
  split
  · rw [markChannel_mem]
  · rfl

/-- An event that is written once in a Cairn second, of which the writing leaves a field as it is, leaves that field as it is. -/
theorem eventOnce_field {α : Type} (g : State → α) (hev : ∀ s e, g { s with ev := e } = g s) {f : State → State} (hf : ∀ s, g (f s) = g s)
    (s : State) (code unit : Nat) : g (eventOnce s code unit f) = g s := by
  unfold eventOnce
  dsimp only
  split
  · exact hev s _
  · exact (hf _).trans ((hev _ _).trans (hev s _))

/-- A correction is recorded and counted in its channel; no byte, pitch or sequence changes. -/
theorem hbmCorrected_keepsBytes (s : State) (source da symbol : Nat) :
    (hbmCorrected s source da symbol).mem.bytes = s.mem.bytes ∧ (hbmCorrected s source da symbol).pitches = s.pitches
      ∧ (hbmCorrected s source da symbol).seqs = s.seqs := by
  unfold hbmCorrected
  dsimp only
  refine ⟨?_, ?_, ?_⟩
  · rw [countCorrection_bytes]
    exact eventOnce_field (·.mem.bytes) (fun _ _ => rfl) (fun _ => by simp) s _ _
  · simp only [countCorrection_keeps]
    exact eventOnce_field (·.pitches) (fun _ _ => rfl) (fun _ => by simp) s _ _
  · simp only [countCorrection_keeps]
    exact eventOnce_field (·.seqs) (fun _ _ => rfl) (fun _ => by simp) s _ _

section
variable {s t : State} (h : KeepsStore s t)
include h

theorem KeepsStore.daOf (r : PitchRecord) (a : Nat) : daOf t r a = daOf s r a := by
  simp [Machine.daOf, translate, h.cfg]

theorem KeepsStore.goldenOf (r : PitchRecord) (a golden : Nat) : goldenOf t r a golden = goldenOf s r a golden := by
  simp [Machine.goldenOf, h.cfg, h.daOf]

theorem KeepsStore.payloadDa (r : PitchRecord) (x : LoadedTensor) : payloadDa t r x = payloadDa s r x := by
  simp [Machine.payloadDa, h.daOf]

theorem KeepsStore.goldenDa (r : PitchRecord) (x : LoadedTensor) : goldenDa t r x = goldenDa s r x := by
  simp [Machine.goldenDa, h.goldenOf]

theorem KeepsStore.pitchOf (p : Nat) : pitchOf t p = pitchOf s p := by simp [Machine.pitchOf, h.pitches]

theorem KeepsStore.recordOf (p : Nat) : recordOf t p = recordOf s p := by simp [Machine.recordOf, h.cfg]

theorem KeepsStore.peekBytes (da n : Nat) : peekBytes t da n = peekBytes s da n := by simp [Machine.peekBytes, h.bytes]

theorem KeepsStore.portWaits (da : Nat) : portWaits t da = portWaits s da := by simp [Machine.portWaits, portStateAt, h.ports]

theorem KeepsStore.portGone (da : Nat) : portGone t da = portGone s da := by simp [Machine.portGone, portStateAt, h.ports]

theorem KeepsStore.tensorHolding (da : Nat) : tensorHolding t da = tensorHolding s da := by
  have hstart : Machine.payloadDa t = Machine.payloadDa s := funext fun r => funext fun x => h.payloadDa r x
  simp only [Machine.tensorHolding, tensorWith, hstart, h.cfg, h.pitchOf]

end

/-! ### The scrub of a word -/

theorem exec_patrolScrub {s : State} {da : Nat} (hda : da < s.mem.n * 2 ^ 30) (halign : da % 32 = 0) (hadmit : Admitted s [(da, 32)])
    (errors : List (BitVec 16)) (content : HbmContent) (poison : Bool) :
    exec (.patrolScrub da errors content poison) s = .next (doPatrolScrub (touched s [(da, 32)]) da errors content poison) := by
  show execPatrolScrub da errors content poison s = _
  rw [execPatrolScrub, if_neg (by omega), rangerAccess_admitted hadmit]

theorem readSymbols_withUnits (s : State) (us : NMap RetUnit) (late : NMap Nat) (da : Nat) (errors : List (BitVec 16)) :
    readSymbols (withUnits s us late) da errors = readSymbols s da errors := rfl

section
variable {s : State} {da : Nat} {errors : List (BitVec 16)} (us : List Nat) (content : HbmContent) (poison : Bool)

theorem doPatrolScrub_clean (h : checkWord da (readSymbols s da errors) = .clean) :
    doPatrolScrub (touchUnits us s) da errors content poison = touchUnits us s := by
  obtain ⟨units, late, htouch⟩ := touchUnits_eq us s
  unfold doPatrolScrub
  simp only [htouch, readSymbols_withUnits, h]

/-- A corrected word is written back, and nothing else of memory changes. -/
theorem doPatrolScrub_corrected {symbol value : Nat} (h : checkWord da (readSymbols s da errors) = .corrected symbol value) :
    let fixed := correctedBytes (readSymbols s da errors) symbol value
    let t := doPatrolScrub (touchUnits us s) da errors content poison
    t.mem.bytes = wrBytes s.mem.bytes da fixed ∧ t.pitches = s.pitches ∧ t.seqs = s.seqs := by
  obtain ⟨units, late, htouch⟩ := touchUnits_eq us s
  unfold doPatrolScrub
  simp only [htouch, readSymbols_withUnits, h]
  exact hbmCorrected_keepsBytes (pokeBytes (withUnits s units late) da _) _ _ _

/-- A bad word is recorded and marked before the response to what it holds, and the response finds the store as it was. -/
theorem doPatrolScrub_bad
    (h : checkWord da (readSymbols s da errors) = .uncorrectable ∨ checkWord da (readSymbols s da errors) = .address) :
    ∃ u, KeepsStore s u ∧ hbmChannel s da ∈ u.mem.marked
      ∧ doPatrolScrub (touchUnits us s) da errors content poison = contentBad u da false poison content := by
  obtain ⟨units, late, htouch⟩ := touchUnits_eq us s
  have hmark (address : Bool) := hbmBad_marks (withUnits s units late) (srcRanger (withUnits s units late)) da address
  have hkeep := withUnits_keepsStore s units late
  unfold doPatrolScrub
  rcases h with h | h <;> simp only [htouch, readSymbols_withUnits, h]
  · exact ⟨_, hkeep.trans (hmark false).1, (hmark false).2, rfl⟩
  · exact ⟨_, hkeep.trans (hmark true).1, (hmark true).2, rfl⟩

end

/-- Memory in which bytes have been put holds them there, and elsewhere what it held. -/
theorem written_of_mem_eq {s t : State} {da : Nat} {bs : List Byte} (h : t.mem = (pokeBytes s da bs).mem) :
    peekBytes t da bs.length = bs ∧ MemoryElsewhere s t da bs.length := by
  unfold MemoryElsewhere peekBytes
  rw [h]
  exact ⟨peekBytes_pokeBytes s da bs, pokeBytes_elsewhere s da bs⟩

/-! ### Weights and row-start tables (R33, R35, R252) -/

/-- A weight block whose golden copy is good is written again. -/
theorem scrubWeights_refetches {s : State} {da : Nat} {r : PitchRecord} {x : LoadedTensor} {j : Nat} (hx : tensorHolding s da = some (r, x, j))
    (hwaits : portWaits s (goldenDa s r x + 4096 * j) = false) (hgone : portGone s (goldenDa s r x + 4096 * j) = false)
    (hcrc : crc32c (peekBytes s (goldenDa s r x + 4096 * j) (min 4096 (x.payloadBytes - 4096 * j))) = x.crcs.getD j 0) :
    scrubWeights s da false = weightRefetchedEvent (pokeBytes s (payloadDa s r x + 4096 * j)
      (peekBytes s (goldenDa s r x + 4096 * j) (min 4096 (x.payloadBytes - 4096 * j)))) r.pitch (payloadDa s r x + 4096 * j) := by
  unfold scrubWeights
  simp [hx, hwaits, hgone, hcrc]

/-- A row-start table whose golden copy is good is rebuilt: its tensor has the new rows, and no byte of memory changes. -/
theorem rebuildRowStarts_rebuilds {s : State} {p k : Nat} {r : PitchRecord} {x : LoadedTensor} {rows : List Nat} (hr : recordOf s p = some r)
    (hx : ((pitchOf s p).package.map (·.tensors)).bind (·[k]?) = some x) (hwaits : portWaits s (goldenDa s r x) = false)
    (hgone : portGone s (goldenDa s r x) = false) (hgood : badGolden x (peekBytes s (goldenDa s r x) x.payloadBytes) = none)
    (hrows : rowStarts (parseHeader (peekBytes s (goldenOf s r x.address x.golden) 32)) (peekBytes s (goldenDa s r x) x.payloadBytes) = some rows) :
    let t := rebuildRowStarts s p k false
    t.mem = s.mem ∧ ((pitchOf t p).package.map (·.tensors)).bind (·[k]?) = some { x with rowStarts := rows } := by
  have hpitch (u : State) (da : Nat) : pitchOf (weightRefetchedEvent u p da) p = pitchOf u p := by simp [pitchOf]
  unfold rebuildRowStarts
  simp only [hr, hx, hwaits, hgone, hgood, hrows, Bool.false_eq_true, if_false]
  refine ⟨by simp, ?_⟩
  rw [hpitch, pitchOf_onPitch]
  obtain ⟨g, hg, hk⟩ : ∃ g, (pitchOf s p).package = some g ∧ g.tensors[k]? = some x := by
    simpa [Option.bind_eq_some_iff] using hx
  simp [hg, hk]

/-! ### Nodes of the tree (R231, R252) -/

/-- From `s` to `t` the tree of the pitch and the marked channels stay. -/
structure KeepsTree (p : Nat) (s t : State) : Prop where
  tree : (pitchOf t p).tree = (pitchOf s p).tree
  marked : t.mem.marked = s.mem.marked

theorem KeepsTree.refl (p : Nat) (s : State) : KeepsTree p s s := ⟨rfl, rfl⟩

theorem KeepsTree.trans {p : Nat} {s t u : State} (h₁ : KeepsTree p s t) (h₂ : KeepsTree p t u) : KeepsTree p s u :=
  ⟨h₂.tree.trans h₁.tree, h₂.marked.trans h₁.marked⟩

theorem onPitch_keepsTree (s : State) (p : Nat) (f : Pitch → Pitch) (hf : (f (pitchOf s p)).tree = (pitchOf s p).tree) :
    KeepsTree p s (onPitch s p f) := ⟨by rw [pitchOf_onPitch, hf], rfl⟩

theorem freeRange_keepsTree (s : State) (p a : Nat) : KeepsTree p s (freeRange s p a) := by
  unfold freeRange
  split
  · exact (onPitch_keepsTree s p _ rfl).trans ⟨rfl, rfl⟩
  · exact .refl p s

theorem freeIf_keepsTree (s : State) (p a : Nat) : KeepsTree p s (freeIf s p a) := by
  unfold freeIf
  split
  · exact .refl p s
  · exact freeRange_keepsTree s p a

theorem putPage_keepsTree (s : State) (p n : Nat) (g : Page) : KeepsTree p s (putPage s p n g) := onPitch_keepsTree s p _ rfl

theorem freePage_keepsTree (s : State) (p n : Nat) : KeepsTree p s (freePage s p n) := by
  unfold freePage
  exact ((((freeIf_keepsTree s p _).trans (freeIf_keepsTree _ p _)).trans (freeIf_keepsTree _ p _)).trans
    (putPage_keepsTree _ p n _)).trans (onPitch_keepsTree _ p _ rfl)

theorem dropRef_keepsTree (s : State) (p n : Nat) : KeepsTree p s (dropRef s p n) := by
  unfold dropRef
  dsimp only
  split
  · split
    · exact putPage_keepsTree s p n _
    · exact freePage_keepsTree s p n
  · exact putPage_keepsTree s p n _

theorem dropRefs_keepsTree (p : Nat) (l : List Nat) (s : State) : KeepsTree p s (dropRefs p l s) := by
  induction l generalizing s with
  | nil => exact .refl p s
  | cons n t ih => exact (dropRef_keepsTree s p n).trans (ih _)

/-- A node that is removed is no longer in the tree. -/
theorem removeNode_removes (s : State) (p n : Nat) :
    mget (pitchOf (removeNode s p n) p).tree n = none ∧ (removeNode s p n).mem.marked = s.mem.marked := by
  unfold removeNode
  split
  · next hnone => exact ⟨hnone, rfl⟩
  · next x _ =>
    have hkeep := (freeRange_keepsTree (onPitch s p fun x => { x with tree := mdel x.tree n }) p n).trans (dropRefs_keepsTree p x.pages _)
    refine ⟨?_, hkeep.marked⟩
    rw [hkeep.tree, pitchOf_onPitch]
    exact mget_mdel_same _ n

/-! ### O51 -/

/-- Settles O51: a clean or corrected word by `doPatrolScrub`; for a bad one the record leaves the store as it was, so the statement's hypotheses on it
hold where the response reads it. -/
theorem patrolScrubRepairsWords : Obligations.PatrolScrubRepairsWords := by
  unfold Obligations.PatrolScrubRepairsWords
  intro s da errors content poison hda halign hadmit symbols
  rw [exec_patrolScrub hda halign hadmit]
  refine ⟨fun hclean => ?_, fun symbol value hcorr => ?_, fun hbad => ?_⟩
  · rw [doPatrolScrub_clean _ content poison hclean]
  · obtain ⟨hbytes, hpitches, hseqs⟩ := doPatrolScrub_corrected (unitsAsked s [(da, 32)]) content poison hcorr
    refine ⟨_, rfl, ?_, fun x hx => ?_, hpitches, hseqs⟩
    · rw [peekBytes, hbytes, rdBytes_wrBytes]
    · rw [hbytes, rdByte_wrBytes_out _ _ _ _ hx]
  · obtain ⟨u, hkeep, hmark, hdo⟩ := doPatrolScrub_bad (unitsAsked s [(da, 32)]) content poison hbad
    rw [hdo]
    refine ⟨?_, fun r x j => ?_, fun p k r x rows => ?_, fun p n => ?_⟩
    · rintro rfl
      exact ⟨u, rfl, hmark, hkeep.bytes, hkeep.pitches, hkeep.seqs⟩
    · rintro rfl hx n g a hwaits hgone rfl hcrc
      have hlen : (peekBytes s g n).length = n := length_rdBytes _ _ _
      have hg : goldenDa u r x + 4096 * j = g := by rw [hkeep.goldenDa]
      have hwrite : scrubWeights u da false = weightRefetchedEvent (pokeBytes u a (peekBytes s g n)) r.pitch a := by
        rw [scrubWeights_refetches ((hkeep.tensorHolding da).trans hx) (by rw [hg, hkeep.portWaits, hwaits]) (by rw [hg, hkeep.portGone, hgone])
          (by rw [hg, hkeep.peekBytes, hcrc]), hg, hkeep.payloadDa, hkeep.peekBytes]
      have hmem : (scrubWeights u da false).mem = (pokeBytes u a (peekBytes s g n)).mem := by rw [hwrite]; simp
      obtain ⟨hread, helse⟩ := written_of_mem_eq hmem
      rw [hlen] at hread helse
      exact ⟨_, rfl, (congrArg Memory.marked hmem) ▸ hmark, hread, fun y hy => (helse y hy).trans (by rw [hkeep.bytes])⟩
    · rintro rfl hr hx hwaits hgone rfl hgood hrows
      obtain ⟨hmem, htensor⟩ := rebuildRowStarts_rebuilds ((hkeep.recordOf p).trans hr) (by rw [hkeep.pitchOf, hx])
        (by rw [hkeep.goldenDa, hkeep.portWaits, hwaits]) (by rw [hkeep.goldenDa, hkeep.portGone, hgone])
        (by rw [hkeep.goldenDa, hkeep.peekBytes, hgood]) (by rw [hkeep.goldenDa, hkeep.goldenOf, hkeep.peekBytes, hkeep.peekBytes, hrows])
      exact ⟨_, rfl, hmem ▸ hmark, (congrArg Memory.bytes hmem).trans hkeep.bytes, htensor⟩
    · rintro rfl
      obtain ⟨htree, hmarked⟩ := removeNode_removes u p n
      exact ⟨_, rfl, hmarked ▸ hmark, htree⟩

end Sys2Proof.Machine
end

section
/-! PROOF. O24: run-ahead reads (R170, R171, R243, R476) and the golden blocks of weights (R35, R106, R454, R459). -/

namespace Sys2Proof.Machine

/-! ### The run-ahead buffer (R170, R171) -/

/-- The ranges that are kept fill no more than the room. -/
theorem sum_fitRanges_le (room : Nat) (l : List (Nat × Nat)) : ((fitRanges room l).map (·.2)).sum ≤ room := by
  induction l generalizing room with
  | nil => exact Nat.zero_le room
  | cons x t ih =>
    obtain ⟨da, n⟩ := x
    rw [fitRanges]
    split
    · have h := ih (room - n)
      rw [List.map_cons, List.sum_cons]
      omega
    · split <;> simp

/-- Dropping the oldest entries leaves the new ones, which fit, and no more than 64 KiB. -/
theorem fitAhead_keeps_new {new : List RunAheadEntry} (hnew : (new.map (·.bytes.length)).sum ≤ 65536) {n : Nat} {kept : List RunAheadEntry}
    (hn : kept.length ≤ n) :
    new ⊆ doRunAhead.fitAhead n (kept ++ new) ∧ ((doRunAhead.fitAhead n (kept ++ new)).map (·.bytes.length)).sum ≤ 65536 := by
  induction n generalizing kept with
  | zero =>
    obtain rfl := List.length_eq_zero_iff.1 (Nat.le_zero.1 hn)
    exact ⟨List.Subset.refl new, hnew⟩
  | succ n ih =>
    rw [doRunAhead.fitAhead]
    split
    · next hfull =>
      cases kept with
      | nil => exact absurd hnew (by simpa using hfull)
      | cons e t => exact ih (Nat.le_of_succ_le_succ hn)
    · next hfits => exact ⟨List.subset_append_right kept new, Nat.le_of_not_lt hfits⟩

/-- The bytes that a run-ahead read of a range gives; MEMRD's show the store's tables. -/
def aheadBytes (s : State) (r : PitchRecord) (w : CmdWord) (x : Nat × Nat) : List Byte :=
  if cmdOpcode w = 0x08 then readPitch s r.pitch (fld w 79 32) x.1 x.2 else peekBytes s x.1 x.2

/-- The entries that a run-ahead read adds; the first keeps what the checks noted. -/
def aheadEntries (s : State) (r : PitchRecord) (w : CmdWord) (index : Nat) (found : List Finding) (ranges : List (Nat × Nat)) :
    List RunAheadEntry :=
  ranges.zipIdx.map fun x => ⟨index, x.1.1, aheadBytes s r w x.1, false, if x.2 = 0 then found else []⟩

theorem length_aheadBytes (s : State) (r : PitchRecord) (w : CmdWord) (x : Nat × Nat) : (aheadBytes s r w x).length = x.2 := by
  unfold aheadBytes
  split
  · simp [readPitch]
  · exact length_rdBytes _ _ _

theorem sum_aheadEntries (s : State) (r : PitchRecord) (w : CmdWord) (index : Nat) (found : List Finding) (ranges : List (Nat × Nat)) :
    ((aheadEntries s r w index found ranges).map (·.bytes.length)).sum = (ranges.map (·.2)).sum := by
  have hmap : (aheadEntries s r w index found ranges).map (·.bytes.length) = (ranges.zipIdx.map Prod.fst).map (·.2) := by
    rw [aheadEntries, List.map_map, List.map_map]
    exact List.map_congr_left fun x _ => length_aheadBytes s r w x.1
  rw [hmap, List.zipIdx_map_fst]

theorem mem_aheadEntries (s : State) (r : PitchRecord) (w : CmdWord) (index : Nat) (found : List Finding) {ranges : List (Nat × Nat)} {j : Nat}
    {x : Nat × Nat} (h : ranges[j]? = some x) :
    (⟨index, x.1, aheadBytes s r w x, false, if j = 0 then found else []⟩ : RunAheadEntry) ∈ aheadEntries s r w index found ranges :=
  List.mem_map.2 ⟨(x, j), List.mk_mem_zipIdx_iff_getElem?.2 h, rfl⟩

/-! ### RUN_AHEAD -/

/-- A run-ahead read of word `w` at `index` is due: the command lies up to 64 ahead and has ra set (R170). -/
structure AheadDue (s : State) (camp index : Nat) (r : PitchRecord) (rel : Nat) (p : Program) (w : CmdWord) : Prop where
  home : homeOf s camp = some (r, rel)
  prog : (campOf s camp).prog = some p
  word : mget (campOf s camp).cmdMem index = some w
  ra : cmdRa w = true
  after : p.base + p.pc < index
  near : index ≤ p.base + p.pc + 64
  inside : index < p.base + p.commands
  reads : fitRanges 65536 (aheadRanges s r (campOf s camp) w) ≠ []

theorem campOk_of_lt {camp : Nat} (h : camp < Config.camps) : campOk camp = true := decide_eq_true h

theorem exec_runAhead {camp : Nat} (hc : camp < 20000) (s : State) (index : Nat) (found : List Finding) :
    exec (.runAhead camp index found) s = .next (doRunAhead found s camp index) := by
  show execRunAhead camp index found s = _
  rw [execRunAhead, if_pos (campOk_of_lt hc)]

section
variable {s : State} {camp index : Nat} {r : PitchRecord} {rel : Nat} {p : Program} {w : CmdWord} (h : AheadDue s camp index r rel p w)
  (found : List Finding)
include h

theorem doRunAhead_limited (hlim : sliceLimited s (sliceOf camp) = true) : doRunAhead found s camp index = s := by
  unfold doRunAhead
  simp [h.home, h.prog, h.word, hlim]

/-- The state after a read that is admitted, and whose data is good. -/
def aheadFilled (s : State) (camp index : Nat) (r : PitchRecord) (w : CmdWord) (found : List Finding) (ranges : List (Nat × Nat)) : State :=
  let kept := (campOf s camp).ahead.filter fun x => decide (x.index ≠ index)
  let new := aheadEntries s r w index found ranges
  putCamp (touched s ranges) camp { campOf s camp with ahead := doRunAhead.fitAhead (kept.length + new.length) (kept ++ new) }

theorem doRunAhead_admitted (hadmit : CampAdmitted s camp (fitRanges 65536 (aheadRanges s r (campOf s camp) w))) :
    doRunAhead found s camp index = if found.any isBad then touched s (fitRanges 65536 (aheadRanges s r (campOf s camp) w))
      else aheadFilled s camp index r w found (fitRanges 65536 (aheadRanges s r (campOf s camp) w)) := by
  obtain ⟨hslice, hports⟩ := hadmit
  have hopen : sliceLimited s (sliceOf camp) = false := hslice.resolve_left h.reads
  obtain ⟨us, late, htouch⟩ := touchUnits_eq (unitsAsked s (fitRanges 65536 (aheadRanges s r (campOf s camp) w))) s
  unfold doRunAhead
  simp only [h.home, h.prog, h.word]
  rw [if_pos ⟨h.after, h.near, h.inside, h.ra, h.reads, hopen⟩, rangerAccess_admitted hports]
  simp only [aheadFilled, touched, htouch]
  rfl

end

/-- What a good read leaves in the buffer: its own data, and no more than 64 KiB. -/
theorem aheadFilled_ahead (s : State) (camp index : Nat) (r : PitchRecord) (w : CmdWord) (found : List Finding) (l : List (Nat × Nat)) :
    let t := aheadFilled s camp index r w found (fitRanges 65536 l)
    t = putCamp (touched s (fitRanges 65536 l)) camp { campOf s camp with ahead := (campOf t camp).ahead }
      ∧ aheadEntries s r w index found (fitRanges 65536 l) ⊆ (campOf t camp).ahead
      ∧ ((campOf t camp).ahead.map (·.bytes.length)).sum ≤ 65536 := by
  have hnew := (sum_aheadEntries s r w index found (fitRanges 65536 l)).trans_le (sum_fitRanges_le 65536 l)
  simp only [aheadFilled, campOf_putCamp]
  exact ⟨trivial, fitAhead_keeps_new hnew (Nat.le_add_right _ _)⟩

/-! ### WEIGHT_REFETCHED -/

theorem exec_weightRefetched_unawaited {s : State} {pitch da : Nat} {r : PitchRecord} (hp : pitch < 64) (hr : recordOf s pitch = some r)
    (hws : waitingFor s pitch da = []) (poison : Bool) :
    exec (.weightRefetched pitch da poison) s
      = .next (if Repair.block da ∈ (pitchOf s pitch).repairs then refetchDue s pitch da poison else s) := by
  show execWeightRefetched pitch da poison s = _
  unfold execWeightRefetched
  rw [if_pos (by simpa [pitchOk] using hp)]
  simp only [hr, hws]

theorem exec_weightRefetched_awaited {s : State} {pitch da : Nat} {r : PitchRecord} (hp : pitch < 64) (hr : recordOf s pitch = some r)
    {camp core : Nat} {y : TileRun} {x : TileSource} {l : List (Nat × Nat × TileRun)} (hws : waitingFor s pitch da = (camp, core, y) :: l)
    (hx : y.src = some x) (poison : Bool) :
    exec (.weightRefetched pitch da poison) s = .next (refetchBlock s r da poison camp x ((camp, core, y) :: l)) := by
  show execWeightRefetched pitch da poison s = _
  unfold execWeightRefetched
  rw [if_pos (by simpa [pitchOk] using hp)]
  simp only [hr, hws, hx]

/-- A golden block that is good is written over the damaged one, with its record; it is due no more where the region is shared. -/
def blockMended (s : State) (r : PitchRecord) (da : Nat) (bs : List Byte) : State :=
  weightRefetchedEvent (dropBlock da (regionPitches s r.pitch) (pokeBytes s da bs)) r.pitch da

/-- Where no waiting run meets a fault of the block again, every one is repeated. -/
theorem refetchBlock_repeats {s : State} {r : PitchRecord} {da camp : Nat} {x : TileSource} {ws : List (Nat × Nat × TileRun)} {g n : Nat}
    {bs : List Byte} (hg : goldenOf s r x.tensor.address x.tensor.golden + 32 + 4096 * ((da - payloadDa s r x.tensor) / 4096) = g)
    (hn : min 4096 (x.tensor.payloadBytes - 4096 * ((da - payloadDa s r x.tensor) / 4096)) = n) (hbs : peekBytes s g n = bs)
    (hwaits : portWaits s g = false) (hgone : portGone s g = false)
    (hcrc : crc32c bs = x.tensor.crcs.getD ((da - payloadDa s r x.tensor) / 4096) 0)
    (hgood : ∀ z ∈ ws, ∀ m, (reread (blockMended s r da bs) (((homeOf (blockMended s r da bs) z.1).map (·.1)).getD r) z.2.2).mark = some m →
      m.block ≠ da) :
    refetchBlock s r da false camp x ws = repeatRuns r ws (blockMended s r da bs) := by
  have hnone : (ws.map fun z => reread (blockMended s r da bs) (((homeOf (blockMended s r da bs) z.1).map (·.1)).getD r) z.2.2).findSome?
      (fun t => t.mark.filter fun m => decide (m.block = da)) = none := by
    rw [List.findSome?_eq_none_iff]
    intro t ht
    obtain ⟨z, hz, rfl⟩ := List.mem_map.1 ht
    rw [Option.filter_eq_none_iff]
    exact fun m hm => by simpa using hgood z hz m hm
  unfold refetchBlock
  simp only [hg, hn, hbs, hwaits, hgone, hcrc, Bool.false_eq_true, if_false, ne_eq, not_true_eq_false, or_self]
  rw [blockMended] at hnone
  simp only [hnone, blockMended]

/-! ### O24 -/

/-- Settles O24: a run-ahead read is `aheadFilled` where it is admitted and good; a good golden block leads to `repeatRuns` from the mended state. -/
theorem runAheadAndGoldenBlocks : Obligations.RunAheadAndGoldenBlocks := by
  unfold Obligations.RunAheadAndGoldenBlocks
  refine ⟨?_, fun s pitch da poison r hp hr => ⟨fun hws => ?_, ?_⟩⟩
  · intro s camp index r rel p w hc hhome hprog hword hra hafter hnear hinside ranges hne
    have hdue : AheadDue s camp index r rel p w := ⟨hhome, hprog, hword, hra, hafter, hnear, hinside, hne⟩
    simp only [exec_runAhead hc]
    refine ⟨fun found hlim => by rw [doRunAhead_limited hdue found hlim], fun hadmit found => ?_⟩
    rw [doRunAhead_admitted hdue found hadmit]
    refine ⟨fun hbad => by rw [if_pos hbad], fun hgood => ⟨_, by rw [if_neg (by simp [hgood])], ?_⟩⟩
    obtain ⟨hframe, hnew, hsum⟩ := aheadFilled_ahead s camp index r w found (aheadRanges s r (campOf s camp) w)
    exact ⟨hframe, fun j x hx => hnew (mem_aheadEntries s r w index found hx), hsum⟩
  · exact exec_weightRefetched_unawaited hp hr hws poison
  · intro camp core y x l hws hx j n g bs s1 hwaits hgone hpoison hcrc hgood
    subst hpoison
    have hlen : bs.length = n := length_rdBytes _ _ _
    obtain ⟨hread, helse⟩ := written_of_mem_eq (s := s) (t := s1) (da := da) (bs := bs) (by simp [s1])
    refine ⟨?_, hlen ▸ hread, hlen ▸ helse⟩
    rw [exec_weightRefetched_awaited hp hr hws hx, refetchBlock_repeats rfl rfl rfl hwaits hgone hcrc hgood]
    rfl

end Sys2Proof.Machine
end

section
/-! SUPPORT. How a camp command runs at its word: it is taken (R146), its accesses are admitted, what it reads of a coded region is decoded (R275), and
its program goes on (R151). -/

namespace Sys2Proof.Machine

/-! ### Camps that are put twice -/

theorem mset_mset {α : Type} (m : NMap α) (k : Nat) (v w : α) : mset (mset m k v) k w = mset m k w := by
  induction m with
  | nil => simp [mset]
  | cons h t ih =>
    obtain ⟨a, u⟩ := h
    by_cases hlt : k < a
    · simp [mset, hlt]
    · by_cases heq : k = a
      · simp [mset, heq]
      · simp [mset, hlt, heq, ih]

theorem putCamp_putCamp (s : State) (c : Nat) (x y : Camp) : putCamp (putCamp s c x) c y = putCamp s c y := by
  simp only [putCamp, mset_mset]

/-! ### Taking a command and going on -/

/-- A command is taken where its camp's program stands at the word. -/
theorem runCommand_at {s : State} {camp : Nat} {w : CmdWord} {r : PitchRecord} {rel : Nat} {p : Program} (h : AtCommand s camp w r rel p)
    {mine : Bool} (hmine : mine = true) (f : Ctx → State → CmdRes) :
    runCommand s camp w mine f = .next (settle s camp w (f (ctxAt camp r rel p w) s)) := by
  obtain ⟨hcamp, hhome, hprog, hfence, hpc, hword⟩ := h
  unfold runCommand takeCommand
  rw [if_pos (campOk_of_lt hcamp)]
  simp only [hhome, hprog]
  rw [if_pos ⟨hmine, by simp [hfence], hpc, hword⟩]

/-- A program that has a command after this one goes on to it. -/
theorem advance_of_hasNext {s : State} {camp : Nat} {p : Program} (hprog : (campOf s camp).prog = some p) (hnext : HasNext p) :
    advance s camp = putCamp s camp { campOf s camp with prog := some (nextProg p), blocked := none } := by
  unfold advance moveTo
  simp only [hprog]
  rw [if_neg (by simpa using hnext)]

theorem campCommand_clear {w : CmdWord} {fields : List (Nat × Nat)} {rule : Bool} (hclear : reservedClear w fields = true) (hrule : rule = true)
    (k : CmdRes) : campCommand w fields rule k = k := by
  simp [campCommand, hclear, hrule]

theorem coreCommand_clear {w : CmdWord} {fields : List (Nat × Nat)} {rule : Bool} (hclear : reservedClear w fields = true) (hrule : rule = true)
    (hcores : cmdCores w ≠ []) (k : List Nat → CmdRes) : coreCommand w fields rule k = k (cmdCores w) := by
  simp [coreCommand, hclear, hrule, hcores]

theorem unlessFault_none {f : Option CampFault} (h : f = none) (k : CmdRes) : unlessFault f k = k := by rw [h]; rfl

theorem aheadNotes_touched (c : Ctx) (s : State) (rs : List (Nat × Nat)) : aheadNotes c (touched s rs) = aheadNotes c s := by
  simp [aheadNotes, campOf]

/-! ### Reads of coded regions (R275, R283) -/

/-- From `s` to `t` the program of every camp stays. -/
abbrev KeepsPrograms (s t : State) : Prop := ∀ camp, (campOf t camp).prog = (campOf s camp).prog

theorem keepsPrograms_of_camps {s t : State} (h : t.camps = s.camps) : KeepsPrograms s t := fun camp => by simp [campOf, h]

theorem pokeBytes_keepsPrograms (s : State) (da : Nat) (bs : List Byte) : KeepsPrograms s (pokeBytes s da bs) := by
  intro camp
  simp only [campOf, mgetD, pokeBytes, mget_mmap]
  cases mget s.camps camp with
  | none => rfl
  | some x => rfl

theorem weightRefetchedEvent_keepsPrograms (s : State) (p da : Nat) : KeepsPrograms s (weightRefetchedEvent s p da) :=
  keepsPrograms_of_camps (by simp)

/-- A block that its golden copy mends is written again, and every program stays. -/
theorem refetchCoded_keepsPrograms {source p : Nat} {c : CodedRegion} {base gbase i : Nat} {poison : Bool} {s t : State} {bs : List Byte}
    (h : refetchCoded source p c base gbase poison i s = (t, some bs)) : KeepsPrograms s t := by
  unfold refetchCoded at h
  dsimp only at h
  split at h
  · simp at h
  · split at h
    · simp at h
    · split at h
      · simp at h
      · obtain ⟨rfl, -⟩ := Prod.mk.inj h
        exact fun camp => (weightRefetchedEvent_keepsPrograms _ _ _ camp).trans (pokeBytes_keepsPrograms s _ _ camp)

theorem readBlocks_keepsPrograms {source p : Nat} {c : CodedRegion} {base gbase : Nat} {poison : Bool} {is : List Nat} {s t : State}
    {bs : List Byte} (h : readBlocks source p c base gbase poison is s = (t, some bs)) : KeepsPrograms s t := by
  induction is generalizing s bs with
  | nil =>
    obtain ⟨rfl, -⟩ := Prod.mk.inj h
    exact fun _ => rfl
  | cons i is ih =>
    rw [readBlocks] at h
    split at h
    · split at h
      · next hrest =>
        obtain ⟨rfl, -⟩ := Prod.mk.inj h
        exact ih hrest
      · simp at h
    · dsimp only at h
      split at h
      · simp at h
      · split at h
        · simp at h
        · split at h
          · simp at h
          · next hfetch =>
            split at h
            · next hrest =>
              obtain ⟨rfl, -⟩ := Prod.mk.inj h
              intro camp
              rw [ih hrest camp, refetchCoded_keepsPrograms hfetch camp]
              exact keepsPrograms_of_camps (by simp [decodeEvent]) camp
            · simp at h

/-- What follows a read that decodes runs on the state that it leaves, with every program as it was. -/
theorem withStream_done {c : Ctx} {poison : Bool} {rs : List (Nat × Nat)} {s t : State} (h : withStream c poison rs s .done = .done t) :
    (∀ k, withStream c poison rs s k = k t) ∧ KeepsPrograms s t := by
  induction rs generalizing s with
  | nil =>
    obtain rfl : s = t := CmdRes.done.inj h
    exact ⟨fun _ => rfl, fun _ => rfl⟩
  | cons x rs ih =>
    obtain ⟨a, n⟩ := x
    simp only [withStream] at h ⊢
    split
    · next hcoded =>
      rw [hcoded] at h
      exact ih h
    · next g hcoded =>
      rw [hcoded] at h
      dsimp only at h
      split at h
      · exact nomatch h
      · next hread =>
        obtain ⟨hk, hprog⟩ := ih h
        refine ⟨hk, fun camp => (hprog camp).trans ?_⟩
        unfold readCoded at hread
        split at hread
        · next hblocks =>
          obtain ⟨rfl, -⟩ := Prod.mk.inj hread
          exact readBlocks_keepsPrograms hblocks camp
        · simp at hread

end Sys2Proof.Machine
end

section
/-! PROOF. O16: WSTREAM and TILE (R33, R89, R131, R149, R150, R170, R182 to R184, R243, R275). -/

namespace Sys2Proof.Machine

/-! ### WSTREAM -/

/-- A camp whose stream has been bound goes on to its next command. -/
theorem advance_bound {s : State} {camp : Nat} {p : Program} (hprog : (campOf s camp).prog = some p) (hnext : HasNext p) (x : Stream) :
    advance (putCamp s camp { campOf s camp with stream := some x }) camp
      = putCamp s camp { campOf s camp with prog := some (nextProg p), blocked := none, stream := some x } := by
  rw [advance_of_hasNext (by simpa using hprog) hnext, campOf_putCamp, putCamp_putCamp]

/-- Kind 0 binds the tensor of the header at the address, or of the header that run-ahead brought. -/
theorem bindWeights_binds {c : Ctx} {a : Nat} {s t : State} {ahead : Option (List Byte)} {rs : List (Nat × Nat)}
    (hahead : (if (codedAt s c.pr.pitch a).isSome then none else aheadFor c s (daOf s c.pr a) 32) = ahead)
    (hrs : (if ahead.isSome then [] else streamRanges s c.pr a 32) = rs) (haddr : addressFault s c.pr noCore a 32 false = none)
    (hnotes : ahead.isSome = true → aheadNotes c s = []) (hadmit : CampAdmitted s c.camp rs)
    (hdecode : withStream c false [(a, 32)] (touched s rs) .done = .done t) {h : WeightHeader}
    (hh : parseHeader (ahead.getD (streamBytes t c.pr a 32)) = h) (hok : headerOk h = true)
    (hrows : h.format = 2 → (tensorAt t c.pr.pitch a h).rowStarts ≠ [])
    (hbound : addressFault t c.pr noCore a (32 + h.payloadBytes) false = none) :
    bindWeights [] c a s = .done (putCamp (dropAhead c t) c.camp { campOf (dropAhead c t) c.camp with
      stream := some (.weights (tensorAt t c.pr.pitch a h) (fld c.w 103 80) (fld c.w 127 104)) }) := by
  have hfound : codedFindings ((if ahead.isSome then aheadNotes c (touched s rs) else []) ++ []) = [] := by
    rw [aheadNotes_touched, List.append_nil]
    split
    · next hsome => rw [hnotes hsome]; rfl
    · rfl
  unfold bindWeights
  rw [unlessFault_none haddr]
  dsimp only
  rw [hahead, hrs, access_admitted hadmit, hfound]
  show withStream c (goldenPoison []) _ _ _ = _
  rw [show goldenPoison [] = false from rfl, (withStream_done hdecode).1]
  rw [hh, if_neg (by simpa [hok] using hrows), unlessFault_none hbound]

/-- Kind 1 binds the multiplier descriptor at the address with its chunk list. -/
theorem bindMult_binds {c : Ctx} {a : Nat} {s t u : State} {d : List Byte} {chunks : List (Nat × Nat × Nat × Nat)} (halign : a % 32 = 0)
    (haddr : addressFault s c.pr noCore a 32 false = none) (hadmit : CampAdmitted s c.camp (streamRanges s c.pr a 32))
    (hdecode : withStream c false [(a, 32)] (touched s (streamRanges s c.pr a 32)) .done = .done t) (hd : streamBytes t c.pr a 32 = d)
    (hok : multOk d = true) (hlist : addressFault t c.pr noCore (leAt d 16 8) (16 * leAt d 8 4) false = none)
    (hadmit' : CampAdmitted t c.camp (streamRanges t c.pr (leAt d 16 8) (16 * leAt d 8 4)))
    (hdecode' : withStream c false [(leAt d 16 8, 16 * leAt d 8 4)] (touched t (streamRanges t c.pr (leAt d 16 8) (16 * leAt d 8 4))) .done
      = .done u)
    (hchunks : parseChunks none (leAt d 8 4) (streamBytes u c.pr (leAt d 16 8) (16 * leAt d 8 4)) = some chunks)
    (htags : ∀ x ∈ chunks, tagOk x.2.2.2 = true) :
    bindMult [] c a s = .done (putCamp u c.camp { campOf u c.camp with
      stream := some (.chunks ⟨leAt d 0 1, leAt d 1 1, decide (leAt d 2 1 = 1), leAt d 3 1, leAt d 4 2, leAt d 12 4, chunks⟩) }) := by
  unfold bindMult
  rw [if_neg (by simpa using halign), unlessFault_none haddr, access_admitted hadmit, show goldenPoison [] = false from rfl,
    (withStream_done hdecode).1]
  dsimp only
  rw [hd, if_neg (by simp [hok]), unlessFault_none hlist, access_admitted hadmit']
  show withStream c false _ _ _ = _
  rw [(withStream_done hdecode').1]
  simp only [hchunks]
  rw [if_neg (by simpa using htags)]

/-! ### Tiles that are issued (R88, R89, R131) -/

/-- The fields of a tile that TILE gives and no run changes. -/
structure SameShape (t u : TileRun) : Prop where
  base : u.base = t.base
  wide : u.wide = t.wide
  height : u.height = t.height
  mode : u.mode = t.mode
  layer : u.layer = t.layer

theorem SameShape.refl (t : TileRun) : SameShape t t := ⟨rfl, rfl, rfl, rfl, rfl⟩

theorem SameShape.trans {t u v : TileRun} (h₁ : SameShape t u) (h₂ : SameShape u v) : SameShape t v :=
  ⟨h₂.base.trans h₁.base, h₂.wide.trans h₁.wide, h₂.height.trans h₁.height, h₂.mode.trans h₁.mode, h₂.layer.trans h₁.layer⟩

theorem SameShape.tileKey {t u : TileRun} (h : SameShape t u) : tileKey u = tileKey t := by
  simp [Machine.tileKey, h.base, h.wide]

/-- A key names one base and one width. -/
theorem tileKey_eq_iff (t u : TileRun) : tileKey t = tileKey u ↔ t.base = u.base ∧ t.wide = u.wide := by
  have hbit (x : TileRun) : (if x.wide then 1 else 0) = x.wide.toNat := by cases x.wide <;> rfl
  have ht := t.wide.toNat_lt
  have hu := u.wide.toNat_lt
  simp only [tileKey, hbit]
  constructor
  · intro h
    have hwide : t.wide.toNat = u.wide.toNat := by omega
    exact ⟨by omega, by rw [← Bool.ofNat_toNat t.wide, hwide, Bool.ofNat_toNat]⟩
  · rintro ⟨hbase, hwide⟩
    rw [hbase, hwide]

theorem decodeMore_sameShape (held : List Nat) (t : TileRun) (decoded : List (List DecodedSlot)) :
    SameShape t (decodeMore held { t with decoded := decoded }) := ⟨rfl, rfl, rfl, rfl, rfl⟩

theorem reachSlot_sameShape (held : List Nat) (pos n : Nat) (t : TileRun) : SameShape t (reachSlot held pos n t) := by
  induction n generalizing t with
  | zero => exact .refl t
  | succ n ih =>
    rw [reachSlot]
    split
    · exact ⟨rfl, rfl, rfl, rfl, rfl⟩
    · exact (decodeMore_sameShape held t _).trans (ih _)

/-- Feeding a tile fills lane queues; the core's tiles stay, and the tile keeps its shape. -/
theorem pumpTile_keeps (held : List Nat) (n : Nat) (k : Core) (t : TileRun) :
    (pumpTile held n k t).1.tiles = k.tiles ∧ SameShape t (pumpTile held n k t).2 := by
  induction n generalizing k t with
  | zero => exact ⟨rfl, .refl t⟩
  | succ n ih =>
    rw [pumpTile]
    split
    · next lane p rest _ =>
      have hfed : SameShape t { t with feed := rest } := ⟨rfl, rfl, rfl, rfl, rfl⟩
      split
      · exact ⟨rfl, .refl t⟩
      · dsimp only
        split
        · exact ⟨rfl, hfed⟩
        · exact ⟨(ih _ _).1, hfed.trans (ih _ _).2⟩
    · split
      · exact ⟨rfl, ⟨rfl, rfl, rfl, rfl, rfl⟩⟩
      · next pos ps rest _ =>
        have hreach := reachSlot_sameShape held pos ((t.coming.map List.length).sum + 1) t
        dsimp only
        split
        · exact ⟨rfl, hreach⟩
        · have hnext : SameShape t { compactAt (reachSlot held pos ((t.coming.map List.length).sum + 1) t) pos with plan := rest, feed := ps } :=
            ⟨hreach.base, hreach.wide, hreach.height, hreach.mode, hreach.layer⟩
          exact ⟨(ih _ _).1, hnext.trans (ih _ _).2⟩

/-- The core holds the tile of `t`'s base and width, and every tile under them has `t`'s shape. -/
structure HoldsTile (t : TileRun) (k : Core) : Prop where
  some_tile : ∃ u ∈ k.tiles, SameShape t u
  only_tile : ∀ u ∈ k.tiles, tileKey u = tileKey t → SameShape t u

theorem HoldsTile.exists_tileAt {t : TileRun} {k : Core} (h : HoldsTile t k) : ∃ y, tileAt k t.base t.wide = some y ∧ SameShape t y := by
  obtain ⟨u, hu, hshape⟩ := h.some_tile
  have hfind : (tileAt k t.base t.wide).isSome := List.find?_isSome.2 ⟨u, hu, by simp [hshape.base, hshape.wide]⟩
  obtain ⟨y, hy⟩ := Option.isSome_iff_exists.1 hfind
  refine ⟨y, hy, h.only_tile y (List.mem_of_find?_eq_some hy) ((tileKey_eq_iff y t).2 ?_)⟩
  simpa using List.find?_some hy

/-- A tile of the same shape is held as well. -/
theorem HoldsTile.congr {t u : TileRun} {k : Core} (h : HoldsTile t k) (hshape : SameShape u t) : HoldsTile u k where
  some_tile := h.some_tile.imp fun _ hv => ⟨hv.1, hshape.trans hv.2⟩
  only_tile v hv hkey := hshape.trans (h.only_tile v hv (hkey.trans hshape.tileKey.symm))

/-- A tile that is put is the one under its base and width. -/
theorem putTile_holds (k : Core) {t u : TileRun} (hshape : SameShape t u) : HoldsTile t (putTile k u) where
  some_tile := ⟨u, List.mem_append_right _ List.mem_cons_self, hshape⟩
  only_tile v hv hkey := by
    rcases List.mem_append.1 hv with hold | hnew
    · have hne := (List.mem_filter.1 hold).2
      obtain ⟨hbase, hwide⟩ := (tileKey_eq_iff v u).1 (hkey.trans hshape.tileKey.symm)
      simp [hbase, hwide] at hne
    · exact List.mem_singleton.1 hnew ▸ hshape

theorem feedTile_holds {t u : TileRun} {k : Core} (h : HoldsTile t k) (hu : tileKey u = tileKey t → SameShape t u) :
    HoldsTile t (feedTile k u) := by
  unfold feedTile
  split
  · exact h
  · obtain ⟨htiles, hpump⟩ := pumpTile_keeps (heldSlots k u) (pumpFuel u) k (decodeMore (heldSlots k u) u)
    have hshape : SameShape u (pumpTile (heldSlots k u) (pumpFuel u) k (decodeMore (heldSlots k u) u)).2 :=
      (decodeMore_sameShape _ u u.decoded).trans hpump
    have hfed {v v' : TileRun} (hv : v ∈ k.tiles) (hkey : tileKey v = tileKey t)
        (h' : (if tileKey v = tileKey u then (pumpTile (heldSlots k u) (pumpFuel u) k (decodeMore (heldSlots k u) u)).2 else v) = v') :
        SameShape t v' := by
      subst h'
      split
      · next hsame => exact (hu (hsame.symm.trans hkey)).trans hshape
      · exact h.only_tile v hv hkey
    dsimp only
    rw [htiles]
    constructor
    · obtain ⟨v, hv, hv'⟩ := h.some_tile
      exact ⟨_, List.mem_map_of_mem hv, hfed hv hv'.tileKey rfl⟩
    · intro v' hv' hkey
      obtain ⟨v, hv, hvv'⟩ := List.mem_map.1 hv'
      refine hfed hv ?_ hvv'
      subst hvv'
      split at hkey
      · next hsame => rw [hsame, ← hshape.tileKey, hkey]
      · exact hkey

theorem foldl_feedTile_holds {t : TileRun} {l : List TileRun} (hl : ∀ u ∈ l, tileKey u = tileKey t → SameShape t u) {k : Core}
    (h : HoldsTile t k) : HoldsTile t (l.foldl feedTile k) := by
  induction l generalizing k with
  | nil => exact h
  | cons u l ih =>
    exact ih (fun v hv => hl v (List.mem_cons_of_mem _ hv)) (feedTile_holds h (hl u List.mem_cons_self))

/-- A tile that is issued is the one under its base and width, whether it runs or waits for a page. -/
theorem issueTile_holds (k : Core) (t : TileRun) (page : Option Nat) : HoldsTile t (issueTile k t page) := by
  unfold issueTile
  cases page with
  | none =>
    unfold beginRun feedCore
    have h (k : Core) (u : TileRun) (hu : SameShape t u) : HoldsTile t ((putTile k u).tiles.foldl feedTile (putTile k u)) :=
      foldl_feedTile_holds (putTile_holds k hu).only_tile (putTile_holds k hu)
    exact h _ _ ⟨rfl, rfl, rfl, rfl, rfl⟩
  | some n => exact putTile_holds _ ⟨rfl, rfl, rfl, rfl, rfl⟩

/-- The counts of pre-shifted products change neither camps nor memory. -/
theorem countPre_keeps (p layer op : Nat) (l : List (Nat × Nat × Nat)) (s : State) :
    (countPre p layer op l s).camps = s.camps ∧ (countPre p layer op l s).mem = s.mem := by
  induction l generalizing s with
  | nil => exact ⟨rfl, rfl⟩
  | cons x t ih =>
    obtain ⟨h, pos, k⟩ := x
    rw [countPre]
    split
    · exact ih s
    · simpa using ih (countPreshift (onPitch s p fun x => { x with preshifted := x.preshifted ++ [(h, pos, layer, op, k)] }) p h layer 1)

/-- Core `k` of a camp holds a tile of shape `t`. -/
abbrev CoreHolds (s : State) (camp k : Nat) (t : TileRun) : Prop := HoldsTile t (coreOf (campOf s camp) k)

theorem coreOf_onCore (s : State) (camp core k : Nat) (f : Core → Core) :
    coreOf (campOf (onCore s camp core f) camp) k = if k = core then f (coreOf (campOf s camp) core) else coreOf (campOf s camp) k := by
  simp only [onCore, campOf_putCamp]
  split
  · next h => rw [h, coreOf_putCore]
  · next h => exact coreOf_putCore_ne _ _ h

/-- Each core of the list then holds a tile of the shape that was issued to it, and one that held such a tile still does. -/
theorem issueTiles_spec (c : Ctx) (page : Option Nat) {t : TileRun} {l : List (Nat × TileRun)} (hl : ∀ x ∈ l, SameShape t x.2) (s : State) :
    let u := issueTiles c page l s
    u.mem = s.mem ∧ (campOf u c.camp).prog = (campOf s c.camp).prog
      ∧ ∀ k, k ∈ l.map Prod.fst ∨ CoreHolds s c.camp k t → CoreHolds u c.camp k t := by
  induction l generalizing s with
  | nil => exact ⟨rfl, rfl, fun k hk => hk.resolve_left (by simp)⟩
  | cons x l ih =>
    obtain ⟨core, y⟩ := x
    obtain ⟨hcamps, hmem⟩ := countPre_keeps c.pr.pitch y.layer y.op (preshifts y) (onCore s c.camp core fun k => issueTile k y page)
    have hcamp : campOf (countPre c.pr.pitch y.layer y.op (preshifts y) (onCore s c.camp core fun k => issueTile k y page)) c.camp
        = campOf (onCore s c.camp core fun k => issueTile k y page) c.camp := by simp [campOf, hcamps]
    obtain ⟨hmemRest, hprogRest, hholdsRest⟩ := ih (fun z hz => hl z (List.mem_cons_of_mem _ hz))
      (countPre c.pr.pitch y.layer y.op (preshifts y) (onCore s c.camp core fun k => issueTile k y page))
    rw [hcamp] at hprogRest
    refine ⟨hmemRest.trans hmem, hprogRest.trans (by simp [onCore, putCore]), fun k hk => hholdsRest k ?_⟩
    rw [CoreHolds, hcamp, coreOf_onCore]
    by_cases hcore : k = core
    · rw [if_pos hcore]
      exact .inr ((issueTile_holds _ y page).congr (hl (core, y) List.mem_cons_self))
    · rw [if_neg hcore]
      simpa [hcore] using hk

/-! ### TILE -/

/-- What a TILE notes before its tiles are issued changes neither camps nor memory. -/
abbrev NotesOnly (s t : State) : Prop := t.camps = s.camps ∧ t.mem = s.mem

theorem NotesOnly.trans {s t u : State} (h₁ : NotesOnly s t) (h₂ : NotesOnly t u) : NotesOnly s u := ⟨h₂.1.trans h₁.1, h₂.2.trans h₁.2⟩

theorem noteSidecars_notesOnly (s : State) (c : Ctx) (st : Stream) (cfg : TileCfg) (tbl : LengthTable) (j : Nat) :
    NotesOnly s (noteSidecars s c st cfg tbl j) := by
  have hfold (f : State → Nat → State) (hf : ∀ s n, NotesOnly s (f s n)) (l : List Nat) (s : State) : NotesOnly s (l.foldl f s) := by
    induction l generalizing s with
    | nil => exact ⟨rfl, rfl⟩
    | cons a t ih => exact ⟨(ih _).1.trans (hf s a).1, (ih _).2.trans (hf s a).2⟩
  unfold noteSidecars
  split
  · exact ⟨rfl, rfl⟩
  · refine NotesOnly.trans ?_ (hfold _ (fun s n => ⟨by simp, by simp⟩) _ _)
    split
    · exact ⟨rfl, rfl⟩
    · exact ⟨by simp, by simp⟩

theorem noteRows_notesOnly (c : Ctx) (st : Stream) (cfg : TileCfg) (tbl : LengthTable) (js : List Nat) (s : State) :
    NotesOnly s (noteRows c st cfg tbl js s) := by
  induction js generalizing s with
  | nil => exact ⟨rfl, rfl⟩
  | cons j t ih => exact (noteSidecars_notesOnly s c st cfg tbl j).trans (ih _)

theorem noteChunk_notesOnly (c : Ctx) (d : MultDesc) (h first n : Nat) (s : State) : NotesOnly s (noteChunk c d h first n s) := by
  unfold noteChunk
  extract_lets which s₁ s₂
  split
  · exact ⟨rfl, rfl⟩
  · exact ⟨by simp [s₂, s₁], by simp [s₂, s₁]⟩

theorem noteChunks_notesOnly (c : Ctx) (d : MultDesc) (e : TableRow) (keys : List KeyRef) (live : KeyRef → Bool) (is : List Nat) (s : State) :
    NotesOnly s (noteChunks c d e keys live is s) := by
  induction is generalizing s with
  | nil => exact ⟨rfl, rfl⟩
  | cons i t ih => exact (noteChunk_notesOnly c d e.handle _ _ s).trans (ih _)

theorem noteBlind_notesOnly (c : Ctx) (st : Stream) (cfg : TileCfg) (d : MultDesc) (tbl : LengthTable) (js : List Nat) (s : State) :
    NotesOnly s (noteBlind c st cfg d tbl js s) := by
  induction js generalizing s with
  | nil => exact ⟨rfl, rfl⟩
  | cons j t ih =>
    refine NotesOnly.trans ?_ (ih _)
    split
    · exact ⟨rfl, rfl⟩
    · unfold countBlind
      split
      · exact ⟨rfl, rfl⟩
      · exact ⟨by simp, by simp⟩

/-- Tiles by rank: each core of the list has its own. -/
theorem map_fst_rankTiles (cores : List Nat) (f : Nat → TileRun) : (cores.zipIdx.map fun x => (x.1, f x.2)).map Prod.fst = cores := by
  rw [List.map_map]
  exact List.zipIdx_map_fst 0 cores

/-- The shape that a TILE gives its tiles (R74, R150). -/
def tileShape (w : CmdWord) (layer : Nat) : TileRun := freshTile w layer none [] [] none []

theorem rankTiles_shape (w : CmdWord) (layer : Nat) (cores : List Nat) (f : Nat → TileRun) (hf : ∀ q, SameShape (tileShape w layer) (f q)) :
    ∀ x ∈ cores.zipIdx.map (fun x => (x.1, f x.2)), SameShape (tileShape w layer) x.2 := by
  intro x hx
  obtain ⟨y, -, rfl⟩ := List.mem_map.1 hx
  exact hf y.2

/-- A TILE notes what it reads and issues a tile of its shape to each core of the mask. -/
theorem runTile_issues (c : Ctx) (cores : List Nat) (st : Stream) (cfg : TileCfg) (tbl : LengthTable) (found : List Finding) (s : State) :
    ∃ (page : Option Nat) (f : Nat → TileRun) (u : State), runTile c cores st cfg tbl found s = issueTiles c page (cores.zipIdx.map fun x => (x.1, f x.2)) u
      ∧ (∀ q, SameShape (tileShape c.w cfg.layer) (f q)) ∧ u.mem = s.mem ∧ (campOf u c.camp).prog = (campOf s c.camp).prog := by
  have hdrop : (campOf (dropAhead c s) c.camp).prog = (campOf s c.camp).prog := by simp [dropAhead]
  have hprog {t u : State} (h : NotesOnly t u) : (campOf u c.camp).prog = (campOf t c.camp).prog := keepsPrograms_of_camps h.1 c.camp
  cases st with
  | weights t fr rc =>
    unfold runTile
    dsimp only
    split
    · exact ⟨_, _, _, rfl, fun q => ⟨rfl, rfl, rfl, rfl, rfl⟩, rfl, hdrop⟩
    · have hnote := noteRows_notesOnly c (.weights t fr rc) cfg tbl (List.range (tileRows c.w)) (dropAhead c s)
      exact ⟨_, _, _, rfl, fun q => ⟨rfl, rfl, rfl, rfl, rfl⟩, hnote.2, (hprog hnote).trans hdrop⟩
  | chunks d =>
    have hblind (u : State) (hu : NotesOnly s u) :
        NotesOnly s (if d.product = 1 then noteBlind c (.chunks d) cfg d tbl (List.range (tileRows c.w)) u else u) := by
      split
      · exact hu.trans (noteBlind_notesOnly _ _ _ _ _ _ _)
      · exact hu
    unfold runTile
    cases hrow : (List.range (tileRows c.w)).findSome? (tileRowEntry tbl (.chunks d) cfg) with
    | none =>
      have hnote := hblind s ⟨rfl, rfl⟩
      simp only [hrow]
      exact ⟨_, _, _, rfl, fun q => ⟨rfl, rfl, rfl, rfl, rfl⟩, hnote.2, hprog hnote⟩
    | some e =>
      have hnote := hblind _ (noteChunks_notesOnly c d e (keysOf s c.pr d) (keyLive (rowMask s c.pr e) e d)
        (chunksRead s c (.chunks d) cfg d tbl e (keysOf s c.pr d) cores) s)
      simp only [hrow]
      exact ⟨_, _, _, rfl, fun q => ⟨rfl, rfl, rfl, rfl, rfl⟩, hnote.2, hprog hnote⟩

/-- After a TILE each core of the mask holds a tile of its shape; memory and the program are as before. -/
theorem runTile_spec (c : Ctx) (cores : List Nat) (st : Stream) (cfg : TileCfg) (tbl : LengthTable) (found : List Finding) (s : State) :
    let t := runTile c cores st cfg tbl found s
    t.mem = s.mem ∧ (campOf t c.camp).prog = (campOf s c.camp).prog ∧ ∀ k ∈ cores, CoreHolds t c.camp k (tileShape c.w cfg.layer) := by
  obtain ⟨page, f, u, hrun, hf, hmem, hprog⟩ := runTile_issues c cores st cfg tbl found s
  obtain ⟨hmemIssue, hprogIssue, hholds⟩ := issueTiles_spec c page (rankTiles_shape c.w cfg.layer cores f hf) u
  rw [map_fst_rankTiles] at hholds
  rw [hrun]
  exact ⟨hmemIssue.trans hmem, hprogIssue.trans hprog, fun k hk => hholds k (.inl hk)⟩

/-- A TILE that nothing holds back (R131, R149, R150): a bound stream and configuration, a readable length table `x`, rows that the window holds and no
unaccepted tile in its accumulators. -/
structure TileReady (s : State) (c : Ctx) (st : Stream) (cfg : TileCfg) (x : Slot) (tbl : LengthTable) : Prop where
  clear : reservedClear c.w [(127, 32)] = true
  rule : tileRule c.w = true
  cores : cmdCores c.w ≠ []
  stream : (campOf s c.camp).stream = some st
  config : (campOf s c.camp).cfg = some cfg
  slice : cfg.k0 + orMax (fld c.w 87 64) ≤ cfg.kTotal
  mode : modeFits (fld c.w 34 32) st = true
  slot : slotOf s c.pr c.prog.tableSlot = some x
  readable : canRead x c.rel = true
  running : slicePaused s c.pr x = false
  table : parseTable (peekBytes s (slotDa s c.pr x) x.size) = tbl
  lengths : ∀ e ∈ tbl.rows, e.context + e.newTokens ≤ 2 ^ 32
  rows : tileRowFault s c st cfg tbl = none
  masks : maskFault s c st cfg tbl = none
  chunks : chunkFault s c st cfg tbl (cmdCores c.w) = none
  free : ∀ k ∈ cmdCores c.w, ∀ t ∈ (coreOf (campOf s c.camp) k).tiles,
    t.state = .accepted ∨ spansMeet (tileSpan (fld c.w 41 39) (flag c.w 37) (tileRows c.w)) (tileSpan t.base t.wide t.height) = false

/-- Such a TILE reads, acts on what the checks find, and then issues its tiles. -/
theorem TileReady.doTile {s : State} {c : Ctx} {st : Stream} {cfg : TileCfg} {x : Slot} {tbl : LengthTable} (h : TileReady s c st cfg x tbl)
    (hadmit : CampAdmitted s c.camp (tileReadRanges s c (cmdCores c.w) st cfg tbl)) (hnotes : aheadNotes c s = []) (found : List Finding) :
    doTile found c s = withTileFindings c found (touched s (tileReadRanges s c (cmdCores c.w) st cfg tbl)) fun s2 =>
      withStream c (goldenPoison found) (streamsOf c st cfg) s2 fun s1 => .done (runTile c (cmdCores c.w) st cfg tbl found s1) := by
  have hlengths : ¬(tbl.rows.any fun r => decide (2 ^ 32 < r.context + r.newTokens)) = true := by
    simpa only [List.any_eq_true, decide_eq_true_eq, not_exists, not_and, Nat.not_lt] using h.lengths
  have hfree : ¬((cmdCores c.w).any fun core => (coreOf (campOf s c.camp) core).tiles.any fun t => decide (t.state ≠ .accepted)
      && spansMeet (tileSpan (fld c.w 41 39) (flag c.w 37) (tileRows c.w)) (tileSpan t.base t.wide t.height)) = true := by
    simp only [List.any_eq_true, Bool.and_eq_true, decide_eq_true_eq, not_exists, not_and, Bool.not_eq_true]
    exact fun k hk t ht hstate => (h.free k hk t ht).resolve_left hstate
  unfold Machine.doTile
  dsimp only
  rw [coreCommand_clear h.clear h.rule h.cores]
  simp only [h.stream, h.config]
  rw [if_neg (by simp [h.slice, h.mode])]
  unfold withTable withSlot reading
  simp only [h.slot]
  rw [if_pos ⟨h.readable, h.running⟩, h.table, if_neg hlengths, unlessFault_none h.rows, unlessFault_none h.masks, unlessFault_none h.chunks,
    if_neg hfree, access_admitted hadmit, aheadNotes_touched, hnotes, List.nil_append]

/-- A TILE whose findings do not abandon the step completes with its tiles (R89). -/
theorem TileReady.doTile_clean {s t : State} {c : Ctx} {st : Stream} {cfg : TileCfg} {x : Slot} {tbl : LengthTable}
    (h : TileReady s c st cfg x tbl) (hadmit : CampAdmitted s c.camp (tileReadRanges s c (cmdCores c.w) st cfg tbl))
    (hnotes : aheadNotes c s = [])
    (hdecode : withStream c false (streamsOf c st cfg) (touched s (tileReadRanges s c (cmdCores c.w) st cfg tbl)) .done = .done t) :
    Machine.doTile [] c s = .done (runTile c (cmdCores c.w) st cfg tbl [] t) := by
  rw [h.doTile hadmit hnotes]
  exact (withStream_done hdecode).1 _

/-- A finding that abandons the step takes the place of the tiles (R243). -/
theorem TileReady.doTile_abandons {s u : State} {c : Ctx} {st : Stream} {cfg : TileCfg} {x : Slot} {tbl : LengthTable}
    (h : TileReady s c st cfg x tbl) (hadmit : CampAdmitted s c.camp (tileReadRanges s c (cmdCores c.w) st cfg tbl))
    (hnotes : aheadNotes c s = []) {found : List Finding}
    (hwaits : found.any (findingWaits (touched s (tileReadRanges s c (cmdCores c.w) st cfg tbl)) true) = false)
    (hstops : applyFindings c.camp c.pr.pitch true found (touched s (tileReadRanges s c (cmdCores c.w) st cfg tbl)) = (u, true)) :
    Machine.doTile found c s = .settled u := by
  rw [h.doTile hadmit hnotes]
  unfold withTileFindings
  rw [if_neg (by simp [hwaits])]
  simp only [hstops]

/-- The state in which a camp has bound a stream and gone on to its next command. -/
abbrev streamBound (t : State) (camp : Nat) (p : Program) (x : Stream) : State :=
  putCamp t camp { campOf t camp with prog := some (nextProg p), blocked := none, stream := some x }

section
variable {s t : State} {camp : Nat} {w : CmdWord} {r : PitchRecord} {rel : Nat} {p : Program} (hat : AtCommand s camp w r rel p)
  (hnext : HasNext p)

theorem prog_touched (hprog : (campOf s camp).prog = some p) (rs : List (Nat × Nat)) : (campOf (touched s rs) camp).prog = some p := by
  simpa [campOf] using hprog

theorem codedAt_touched (s : State) (rs : List (Nat × Nat)) (q a : Nat) : codedAt (touched s rs) q a = codedAt s q a := by
  simp [codedAt, pitchOf]

include hat hnext

theorem exec_cWstream_binds (hfields : FieldsClear w 0x0A [(127, 32)]) (hcount : 1 ≤ fld w 127 104) {x : Stream}
    (hbind : (if flag w 79 then bindMult [] (ctxAt camp r rel p w) (fld w 78 32) s else bindWeights [] (ctxAt camp r rel p w) (fld w 78 32) s)
      = .done (putCamp t camp { campOf t camp with stream := some x }))
    (hprog : (campOf t camp).prog = some p) : exec (.cWstream camp w []) s = .next (streamBound t camp p x) := by
  obtain ⟨hop, hclear⟩ := hfields
  have hword : doWstream [] (ctxAt camp r rel p w) s = _ := campCommand_clear hclear (decide_eq_true hcount) _
  show runCommand s camp w _ _ = _
  rw [runCommand_at hat (decide_eq_true hop), hword, hbind]
  exact congrArg Host.Outcome.next (advance_bound hprog hnext x)

end

/-! ### O16 -/

/-- Settles O16: WSTREAM binds by `bindWeights_binds` or `bindMult_binds`; TILE issues by `runTile_spec`; the program goes on from there. -/
theorem streamsAndTilesIssue : Obligations.StreamsAndTilesIssue := by
  unfold Obligations.StreamsAndTilesIssue
  refine ⟨?_, ?_⟩
  · intro s camp w r rel p hat hnext hfields hcount a c bound
    have hprog : (campOf s camp).prog = some p := hat.2.2.1
    refine ⟨?_, ?_⟩
    · intro hkind haddr ahead rs hnotes hadmit t hdecode h hok hrows hbound
      have hbind := bindWeights_binds (c := c) rfl rfl haddr hnotes hadmit hdecode.1 rfl hok hrows hbound
      have hprogT : (campOf t camp).prog = some p := ((withStream_done hdecode.1).2 camp).trans (prog_touched hprog rs)
      exact exec_cWstream_binds hat hnext hfields hcount (by rw [hkind]; exact hbind) (by simpa [dropAhead, c] using hprogT)
    · intro hkind halign haddr hadmit t hdecode d n list hok rs hlist hadmit' u hdecode' chunks hchunks htags
      have hbind := bindMult_binds (c := c) halign haddr hadmit hdecode.1 rfl hok hlist hadmit' hdecode'.1 hchunks htags
      have hprogT : (campOf t camp).prog = some p := ((withStream_done hdecode.1).2 camp).trans (prog_touched hprog _)
      have hprogU : (campOf u camp).prog = some p := ((withStream_done hdecode'.1).2 camp).trans (prog_touched hprogT rs)
      exact exec_cWstream_binds hat hnext hfields hcount (by rw [hkind]; exact hbind) hprogU
  · intro s camp w r rel p st cfg x hat hnext hfields hrule hcores hstream hcfg hslice hmode hslot hread hpaused tbl c hlengths hrows hmasks
      hchunks hfree rs hadmit hnotes
    have hready : TileReady s c st cfg x tbl :=
      ⟨hfields.2, hrule, hcores, hstream, hcfg, hslice, hmode, hslot, hread, hpaused, rfl, hlengths, hrows, hmasks, hchunks, hfree⟩
    have hexec (found : List Finding) : exec (.cTile camp w found) s = .next (settle s camp w (doTile found c s)) :=
      runCommand_at hat (decide_eq_true hfields.1) (doTile found)
    refine ⟨fun found u hwaits hstops => ?_, fun t hdecode => ?_⟩
    · rw [hexec, hready.doTile_abandons hadmit hnotes hwaits hstops]
      rfl
    · have hrun : exec (.cTile camp w []) s = .next (advance (runTile c (cmdCores w) st cfg tbl [] t) camp) := by
        rw [hexec, hready.doTile_clean hadmit hnotes hdecode.1]
        rfl
      obtain ⟨hmem, hprog, hholds⟩ := runTile_spec c (cmdCores w) st cfg tbl [] t
      have hprogT := (hprog.trans ((withStream_done hdecode.1).2 camp)).trans (prog_touched hat.2.2.1 rs)
      refine ⟨hrun, fun u hu => ?_⟩
      obtain rfl := Host.Outcome.next.inj (hrun.symm.trans hu)
      rw [advance_of_hasNext hprogT hnext]
      refine ⟨hmem, fun hcoded => ?_, fun k hk => ?_⟩
      · obtain ⟨us, late, htouch⟩ := touchUnits_eq (unitsAsked s rs) s
        have hsame := hdecode.2 fun y hy => (codedAt_touched s rs _ _).trans (hcoded y hy)
        rw [putCamp_mem, hmem, hsame, touched, htouch]
        rfl
      · obtain ⟨y, hy, hshape⟩ := (hholds k hk).exists_tileAt
        rw [campOf_putCamp]
        exact ⟨y, hy, hshape.mode, hshape.height, hshape.layer⟩

end Sys2Proof.Machine
end

section
/-! SUPPORT. What putting and feeding a tile leave of it (R88, R98, R102, R131). -/

namespace Sys2Proof.Machine

/-! ### Tiles that are put -/

/-- A tile that has been put is the one under its base and width. -/
@[simp] theorem tileAt_putTile (k : Core) (t : TileRun) : tileAt (putTile k t) t.base t.wide = some t := by
  have hold : (k.tiles.filter fun x => !(decide (x.base = t.base) && decide (x.wide = t.wide))).find?
      (fun x => decide (x.base = t.base) && decide (x.wide = t.wide)) = none := by
    rw [List.find?_eq_none]
    intro x hx
    simpa only [Bool.not_eq_true', Bool.not_eq_true] using (List.mem_filter.1 hx).2
  simp only [tileAt, putTile, List.find?_append, hold]
  simp

/-- It is the only one under its key. -/
theorem mem_putTile_key {k : Core} {t u : TileRun} (hmem : u ∈ (putTile k t).tiles) (hkey : tileKey u = tileKey t) : u = t := by
  rcases List.mem_append.1 hmem with hold | hnew
  · obtain ⟨hbase, hwide⟩ := (tileKey_eq_iff u t).1 hkey
    have hne := (List.mem_filter.1 hold).2
    simp [hbase, hwide] at hne
  · exact List.mem_singleton.1 hnew

theorem tileAt_some {k : Core} {base : Nat} {wide : Bool} {t : TileRun} (h : tileAt k base wide = some t) : t.base = base ∧ t.wide = wide := by
  simpa using List.find?_some h

/-! ### Feeding (R88, R98, R102) -/

/-- A tile without what of its run is still on its way to the lane queues. -/
def unfed (t : TileRun) : TileRun := { t with coming := [], decoded := [], plan := [], feed := [] }

theorem tileKey_unfed (t : TileRun) : tileKey (unfed t) = tileKey t := rfl

theorem tileKey_eq_of_unfed {t u : TileRun} (h : unfed t = unfed u) : tileKey t = tileKey u := by
  rw [← tileKey_unfed, h, tileKey_unfed]

theorem reachSlot_unfed (held : List Nat) (pos n : Nat) (t : TileRun) : unfed (reachSlot held pos n t) = unfed t := by
  induction n generalizing t with
  | zero => rfl
  | succ n ih =>
    rw [reachSlot]
    split
    · rfl
    · exact ih _

/-- Feeding a tile changes the lane queues of the core, and of the tile what is still to be fed. -/
theorem pumpTile_frame (held : List Nat) (n : Nat) (k : Core) (t : TileRun) :
    (pumpTile held n k t).1 = { k with queues := (pumpTile held n k t).1.queues } ∧ unfed (pumpTile held n k t).2 = unfed t := by
  induction n generalizing k t with
  | zero => exact ⟨rfl, rfl⟩
  | succ n ih =>
    rw [pumpTile]
    split
    · split
      · exact ⟨rfl, rfl⟩
      · dsimp only
        split
        · exact ⟨rfl, rfl⟩
        · exact ih _ _
    · split
      · exact ⟨rfl, rfl⟩
      · next pos ps rest _ =>
        have hreach := reachSlot_unfed held pos ((t.coming.map List.length).sum + 1) t
        dsimp only
        split
        · exact ⟨rfl, hreach⟩
        · exact ⟨(ih _ _).1, (ih _ _).2.trans hreach⟩

/-- Core `k'` is core `k` after some feeding: other lane queues, and under the same keys tiles that differ in what is still to be fed. -/
structure Fed (k k' : Core) : Prop where
  frame : k' = { k with tiles := k'.tiles, queues := k'.queues }
  keys : k'.tiles.map tileKey = k.tiles.map tileKey
  tiles : ∀ u ∈ k'.tiles, ∃ v ∈ k.tiles, unfed u = unfed v

theorem feedTile_fed {k k' : Core} {t : TileRun} (h : Fed k k') (ht : t ∈ k.tiles) : Fed k (feedTile k' t) := by
  unfold feedTile
  split
  · exact h
  · obtain ⟨hframe, hunfed⟩ := pumpTile_frame (heldSlots k' t) (pumpFuel t) k' (decodeMore (heldSlots k' t) t)
    dsimp only
    rw [hframe]
    refine ⟨by rw [h.frame], ?_, fun u hu => ?_⟩
    · rw [← h.keys, List.map_map]
      refine List.map_congr_left fun x _ => ?_
      by_cases hx : tileKey x = tileKey t
      · have hpump : tileKey (pumpTile (heldSlots k' t) (pumpFuel t) k' (decodeMore (heldSlots k' t) t)).2 = tileKey t := tileKey_eq_of_unfed hunfed
        simp [hx, hpump]
      · simp [hx]
    · obtain ⟨x, hx, rfl⟩ := List.mem_map.1 hu
      by_cases hkey : tileKey x = tileKey t
      · exact ⟨t, ht, by rw [if_pos hkey]; exact hunfed⟩
      · rw [if_neg hkey]
        exact h.tiles x hx

theorem feedCore_fed (k : Core) : Fed k (feedCore k) := by
  have hfold (l : List TileRun) (hl : ∀ t ∈ l, t ∈ k.tiles) (k' : Core) (h : Fed k k') : Fed k (l.foldl feedTile k') := by
    induction l generalizing k' with
    | nil => exact h
    | cons t l ih => exact ih (fun u hu => hl u (List.mem_cons_of_mem _ hu)) _ (feedTile_fed h (hl t List.mem_cons_self))
  exact hfold k.tiles (fun _ ht => ht) k ⟨rfl, rfl, fun u hu => ⟨u, hu, rfl⟩⟩

/-- Every tile that is then held under the key of the tile put last is that tile, fed. -/
theorem Fed.unfed_of_key {k k' : Core} {t z : TileRun} (h : Fed (putTile k t) k') (hz : z ∈ k'.tiles) (hkey : tileKey z = tileKey t) :
    unfed z = unfed t := by
  obtain ⟨v, hv, hunfed⟩ := h.tiles z hz
  rw [hunfed, mem_putTile_key hv ((tileKey_eq_of_unfed hunfed).symm.trans hkey)]

theorem Fed.exists_tileAt {k k' : Core} {t : TileRun} (h : Fed (putTile k t) k') :
    ∃ z, tileAt k' t.base t.wide = some z ∧ unfed z = unfed t := by
  have hmem : tileKey t ∈ k'.tiles.map tileKey := by
    rw [h.keys]
    exact List.mem_map_of_mem (List.mem_append_right _ List.mem_cons_self)
  obtain ⟨u, hu, hkey⟩ := List.mem_map.1 hmem
  obtain ⟨hbase, hwide⟩ := (tileKey_eq_iff u t).1 hkey
  have hfind : (tileAt k' t.base t.wide).isSome := List.find?_isSome.2 ⟨u, hu, by simp [hbase, hwide]⟩
  obtain ⟨z, hz⟩ := Option.isSome_iff_exists.1 hfind
  exact ⟨z, hz, h.unfed_of_key (List.mem_of_find?_eq_some hz) ((tileKey_eq_iff z t).2 (tileAt_some hz))⟩

/-- A tile at the start of a run (R89). -/
def begun (t : TileRun) : TileRun := { t with state := .running, mis := [], elems := t.elems.map fun e => { e with overflowed := false } }

theorem tileAt_beginRun (k : Core) (t : TileRun) : ∃ z, tileAt (beginRun k t) t.base t.wide = some z ∧ unfed z = unfed (begun t) :=
  (feedCore_fed (putTile _ _)).exists_tileAt

end Sys2Proof.Machine
end

section
/-! PROOF. O23: the pass of a lane (R64 to R66, R70, R81, R84), and the end of a drained run (R84, R89, R91 to R93, R106, R131). -/

namespace Sys2Proof.Machine

/-! ### Accumulators (R74) -/

/-- An accumulator that has been written reads back, a wide one from its two halves. -/
@[simp] theorem readAcc_writeAcc (acc : NMap Acc) (lane : Nat) (x : Acc) (place : AccPlace) : readAcc (writeAcc acc lane x place) lane place = x := by
  cases place with
  | slot n => simp [readAcc, writeAcc]
  | beside n => simp [readAcc, writeAcc]
  | pair n =>
    have hkeys : slotKey lane (2 * n) ≠ slotKey lane (2 * n + 1) := by simp [slotKey]
    simp [readAcc, writeAcc, mgetD_mset_ne _ _ _ hkeys, Int.ediv_mul_add_emod]

/-! ### LANE_PASS -/

/-- The value of one addition (R64). -/
def sumAfter (acc : NMap Acc) (t : TileRun) (lane slab : Nat) (x : LaneOp) : Int :=
  (readAcc acc lane (accPlace t slab)).v + x.sigma * (x.op * 2 ^ x.sh)

/-- The accumulators after one addition, with the residue of the new value (R64, R66). -/
def accAfter (acc : NMap Acc) (t : TileRun) (lane slab : Nat) (x : LaneOp) : NMap Acc :=
  writeAcc acc lane ⟨sumAfter acc t lane slab x, res7 (sumAfter acc t lane slab x)⟩ (accPlace t slab)

/-- The partial sum that ends a position passes the 32-bit accumulator (R65, R81). -/
def sumOverflows (acc : NMap Acc) (t : TileRun) (lane slab : Nat) (x : LaneOp) : Bool :=
  x.last && !t.wide && !t.wideRerun && !fits32 (sumAfter acc t lane slab x)

/-- An addition writes the lane's accumulator and may note a mismatch in the tile (R64, R90). -/
theorem laneAdd_eq (k : Core) (t : TileRun) (core lane slab mode : Nat) (x : LaneOp) (seen : Option Nat) :
    ∃ mis, laneAdd k t core lane slab mode x seen
      = ({ k with acc := accAfter k.acc t lane slab x }, { t with mis := mis }, sumOverflows k.acc t lane slab x) := by
  unfold laneAdd
  dsimp only
  split
  · exact ⟨_, rfl⟩
  · exact ⟨t.mis, rfl⟩

/-- The element of a lane and slab has overflowed in every tile of the core under a key. -/
def ElemStopped (k : Core) (key lane slab : Nat) : Prop :=
  ∀ z ∈ k.tiles, tileKey z = key → ∀ e ∈ z.elems, elemLane e = lane → e.row / 16 = slab → e.overflowed = true

/-- Core `k'` is core `k` with accumulators `acc`, and other tiles and lane queues. -/
abbrev Added (k k' : Core) (acc : NMap Acc) : Prop := k' = { k with acc := acc, tiles := k'.tiles, queues := k'.queues }

theorem stopElem_stops (k : Core) (t : TileRun) (lane slab : Nat) :
    Added k (stopElem k t lane slab) k.acc ∧ ElemStopped (stopElem k t lane slab) (tileKey t) lane slab := by
  refine ⟨rfl, fun z hz hkey e he hlane hslab => ?_⟩
  rw [mem_putTile_key (t := { t with elems := _, feed := _, plan := _ }) hz hkey] at he
  obtain ⟨e₀, -, rfl⟩ := List.mem_map.1 he
  split
  · rfl
  · next hother =>
    rw [if_neg hother] at hlane hslab
    exact absurd ⟨hlane, hslab⟩ hother

theorem Fed.added {k k₁ k₂ : Core} {acc : NMap Acc} (h : Fed k₁ k₂) (hadd : Added k k₁ acc) : Added k k₂ acc := by
  rw [Added, h.frame, hadd]

theorem Fed.elemStopped {k₁ k₂ : Core} {key lane slab : Nat} (h : Fed k₁ k₂) (hstop : ElemStopped k₁ key lane slab) :
    ElemStopped k₂ key lane slab := by
  intro z hz hkey e he
  obtain ⟨v, hv, hunfed⟩ := h.tiles z hz
  have helems : z.elems = v.elems := (congrArg TileRun.elems hunfed :)
  exact hstop v hv ((tileKey_eq_of_unfed hunfed).symm.trans hkey) e (helems ▸ he)

section
variable (k : Core) (t : TileRun) (core lane : Nat) (p : Pass) (seen : Option Nat)

/-- A pass of one position, or whose first position stops its element, makes one addition. -/
theorem passStep_first (h : p.second = none ∨ sumOverflows k.acc t lane p.slab p.first = true) :
    Added k (passStep k t core lane p seen) (accAfter k.acc t lane p.slab p.first) := by
  obtain ⟨mis, hadd⟩ := laneAdd_eq k t core lane p.slab p.mode p.first seen
  simp only [passStep, hadd]
  split
  · rw [Added, (stopElem_stops _ _ lane p.slab).1]
  · next hfit => rw [h.resolve_right hfit]; rfl

/-- Otherwise the second position's addition follows in the same step (R70). -/
theorem passStep_second {x : LaneOp} (h : p.second = some x) (hfit : sumOverflows k.acc t lane p.slab p.first = false) :
    Added k (passStep k t core lane p seen) (accAfter (accAfter k.acc t lane p.slab p.first) t lane p.slab x) := by
  obtain ⟨mis, hadd⟩ := laneAdd_eq k t core lane p.slab p.mode p.first seen
  obtain ⟨mis₂, hadd₂⟩ := laneAdd_eq { k with acc := accAfter k.acc t lane p.slab p.first } { t with mis := mis } core lane p.slab p.mode x none
  simp only [passStep, hadd, hfit, h, hadd₂]
  split
  · next hne => exact absurd hne (by simp)
  · split
    · rw [Added, (stopElem_stops _ _ lane p.slab).1]; rfl
    · rfl

/-- Either way a pass changes nothing but accumulators, tiles and lane queues. -/
theorem passStep_added : ∃ acc, Added k (passStep k t core lane p seen) acc := by
  by_cases h : p.second = none ∨ sumOverflows k.acc t lane p.slab p.first = true
  · exact ⟨_, passStep_first k t core lane p seen h⟩
  · obtain ⟨hsome, hfit⟩ := not_or.1 h
    obtain ⟨x, hx⟩ := Option.ne_none_iff_exists'.1 hsome
    exact ⟨_, passStep_second k t core lane p seen hx (by simpa using hfit)⟩

theorem passStep_stops (h : sumOverflows k.acc t lane p.slab p.first = true) :
    ElemStopped (passStep k t core lane p seen) (tileKey t) lane p.slab := by
  obtain ⟨mis, hadd⟩ := laneAdd_eq k t core lane p.slab p.mode p.first seen
  simp only [passStep, hadd, h, if_true]
  exact (stopElem_stops _ _ lane p.slab).2

end

/-- A lane with a pass for a tile that the core holds takes it, and the core is fed. -/
theorem laneStep_pass {k : Core} {lane : Nat} {p : Pass} {q : List Pass} {y : TileRun} (hqueue : queueOf k lane = p :: q)
    (htile : (k.tiles.find? fun t => decide (tileKey t = p.tile)) = some y) (core : Nat) (seen : Option Nat) :
    laneStep k core lane seen = feedCore (passStep (putQueue k lane q) y core lane p seen) := by
  simp only [laneStep, hqueue, putQueue, htile]

/-- A change of one core changes its camp's cores alone. -/
theorem onCore_eq (s : State) (camp core : Nat) (f : Core → Core) :
    onCore s camp core f = putCamp s camp { campOf s camp with cores := (campOf (onCore s camp core f) camp).cores } := by
  simp only [onCore, campOf_putCamp]
  rfl

theorem blocked_onCore (s : State) (camp core : Nat) (f : Core → Core) : (campOf (onCore s camp core f) camp).blocked = (campOf s camp).blocked := by
  rw [onCore_eq, campOf_putCamp]

theorem exec_lanePass_empty {s : State} {camp core lane : Nat} (hcamp : camp < 20000) (hcore : core < 16) (hlane : lane < 128)
    (hqueue : queueOf (coreOf (campOf s camp) core) lane = []) (seen : Option Nat) : exec (.lanePass camp core lane seen) s = .next s := by
  show execLanePass camp core lane seen s = _
  rw [execLanePass, if_pos ⟨campOk_of_lt hcamp, decide_eq_true hcore, hlane⟩, if_pos hqueue]

theorem exec_lanePass_pass {s : State} {camp core lane : Nat} (hcamp : camp < 20000) (hcore : core < 16) (hlane : lane < 128)
    (hqueue : queueOf (coreOf (campOf s camp) core) lane ≠ []) (seen : Option Nat) :
    exec (.lanePass camp core lane seen) s = .next (onCore s camp core fun k => laneStep k core lane seen) := by
  show execLanePass camp core lane seen s = _
  rw [execLanePass, if_pos ⟨campOk_of_lt hcamp, decide_eq_true hcore, hlane⟩, if_neg hqueue]

/-! ### TILE_RUN_JOIN -/

section
variable {s : State} {camp core base : Nat} {wide : Bool} {r : PitchRecord} {rel : Nat} {y : TileRun} (hcamp : camp < 20000) (hcore : core < 16)
  (hhome : homeOf s camp = some (r, rel)) (htile : tileAt (coreOf (campOf s camp) core) base wide = some y)

include hcamp hcore hhome htile

theorem exec_tileRunJoin_waits (hopen : y.state ≠ .running ∨ drained (coreOf (campOf s camp) core) y = false) :
    exec (.tileRunJoin camp core base wide) s = .next s := by
  have hnot : ¬(y.state = .running ∧ drained (coreOf (campOf s camp) core) y = true) := fun ⟨hrun, hdrained⟩ =>
    hopen.elim (fun h => h hrun) (fun h => by simp [hdrained] at h)
  show execTileRunJoin camp core base wide s = _
  rw [execTileRunJoin, if_pos ⟨campOk_of_lt hcamp, decide_eq_true hcore⟩]
  simp only [hhome, htile]
  rw [if_neg hnot]

theorem exec_tileRunJoin_joins (hrun : y.state = .running) (hdrained : drained (coreOf (campOf s camp) core) y = true) :
    exec (.tileRunJoin camp core base wide) s = .next (joinRun s camp core r y) := by
  show execTileRunJoin camp core base wide s = _
  rw [execTileRunJoin, if_pos ⟨campOk_of_lt hcamp, decide_eq_true hcore⟩]
  simp only [hhome, htile]
  rw [if_pos ⟨hrun, hdrained⟩]

end

/-! ### Waits that end (R164) -/

@[simp] theorem coreOf_releaseBlocked (s : State) (p : Nat) (f : WaitReason → Bool) (c core : Nat) :
    coreOf (campOf (releaseBlocked s p f) c) core = coreOf (campOf s c) core := by
  suffices h : (campOf (releaseBlocked s p f) c).cores = (campOf s c).cores by rw [coreOf, h, coreOf]
  simp only [campOf, mgetD, releaseBlocked, mget_mmap]
  cases mget s.camps c with
  | none => rfl
  | some x =>
    dsimp only [Option.map_some, Option.getD_some]
    split
    · split <;> rfl
    · rfl

/-- A wait of the pitch's camp for one of the reasons is ready to be taken again. -/
theorem blocked_releaseBlocked {s : State} {p c : Nat} {f : WaitReason → Bool} {b : Blocked} (hblocked : (campOf s c).blocked = some b)
    (hreason : f b.reason = true) (hin : campIn s p c = true) :
    (campOf (releaseBlocked s p f) c).blocked = some { b with ready := true } := by
  simp only [campOf, mgetD, releaseBlocked, mget_mmap] at hblocked ⊢
  cases hget : mget s.camps c with
  | none => simp [hget, Camp.fresh] at hblocked
  | some x =>
    rw [hget] at hblocked
    simp only [Option.map_some, Option.getD_some] at hblocked ⊢
    simp [hblocked, hreason, hin]

theorem campIn_of_homeOf {s : State} {camp : Nat} {r : PitchRecord} {rel : Nat} (h : homeOf s camp = some (r, rel)) :
    campIn s r.pitch camp = true := by
  simp [campIn, h]

/-! ### Runs that end or begin again -/

/-- What the join of a run without a mismatch makes of an element: it runs again one level up, or it is done (R84). -/
def raiseElem (e : Elem) : Elem := if e.overflowed then { e with level := e.level + 1 } else { e with done := true }

/-- A run without overflow and without wide elements is accepted (R84, R89, R131). -/
theorem decideRun_accepts {y : TileRun} (hwide : y.wideRerun = false) (hclean : ∀ e ∈ y.elems, e.overflowed = false ∧ e.level ≠ 4) (s : State)
    (camp core p : Nat) :
    ∃ es, decideRun s camp core p y = releaseBlocked (onCore s camp core fun k => putTile k { y with state := .accepted, elems := es }) p
      fun r => decide (r = .join ∨ r = .fence) := by
  have hovf : (y.elems.filter fun e => e.overflowed) = [] := by
    rw [List.filter_eq_nil_iff]
    exact fun e he => by simp [(hclean e he).1]
  have hlevel : ((y.elems.map raiseElem).filter fun e => decide (e.level = 4)) = [] := by
    rw [List.filter_eq_nil_iff]
    intro e he
    obtain ⟨e₀, he₀, rfl⟩ := List.mem_map.1 he
    simp [raiseElem, hclean e₀ he₀]
  refine ⟨(y.elems.map raiseElem).map fun e => { e with done := true }, ?_⟩
  rw [decideRun, if_neg (by simp [hwide])]
  simp only [hovf, if_true]
  show acceptTile s camp core p { y with elems := y.elems.map raiseElem } = _
  simp only [acceptTile, hlevel]
  rfl

/-- The tile whose overflowed elements run again one level up (R84). -/
def raised (t : TileRun) : TileRun := { t with run := t.run + 1, elems := t.elems.map raiseElem }

theorem decideRun_replays {y : TileRun} (hwide : y.wideRerun = false) (hovf : ∃ e ∈ y.elems, e.overflowed = true) (hrun : y.run < 3) (s : State)
    (camp core p : Nat) :
    decideRun s camp core p y = nextRun (countElems countReplays p y (y.elems.filter fun e => e.overflowed) s) camp core (raised y) := by
  obtain ⟨e, he, hoverflowed⟩ := hovf
  have hne : (y.elems.filter fun e => e.overflowed) ≠ [] := List.ne_nil_of_mem (List.mem_filter.2 ⟨he, hoverflowed⟩)
  rw [decideRun, if_neg (by simp [hwide])]
  simp only [hne, if_false, hrun, if_true]
  rfl

/-- After a core has begun a run its tile is the one that began. -/
theorem tileAt_onCore_beginRun (s : State) (camp core : Nat) (t : TileRun) :
    ∃ z, tileAt (coreOf (campOf (onCore s camp core fun k => beginRun k t) camp) core) t.base t.wide = some z ∧ unfed z = unfed (begun t) := by
  rw [coreOf_onCore, if_pos rfl]
  exact tileAt_beginRun _ t

/-- A discard that retires no core repeats the run, after its record or the lanes that it retires (R91 to R93). -/
theorem discardRun_repeats {s : State} {camp core p : Nat} {y : TileRun} (hkept : coreLoss core (coreOf (campOf s camp) core) y = none) :
    discardRun s camp core p y = onCore
      (if lanesDue y = [] then
        residueEvent s camp core p 0x0001 ((misLanes y).headD ⟨core, 0, 0, 0, 0⟩) (spareLanesLeft (coreOf (campOf s camp) core))
        else retireLanes camp core p (lanesDue y) s) camp core
      fun k => beginRun k { y with discards := y.discards + 1, lastMis := (misLanes y).map (·.unit) } := by
  simp only [discardRun, hkept]

/-- A run that is repeated alone keeps its discards: its weights are read again, and it begins. -/
theorem repeatRuns_single {s : State} {camp core : Nat} {r : PitchRecord} {rel : Nat} (hhome : homeOf s camp = some (r, rel)) (r0 : PitchRecord)
    (y : TileRun) :
    ∃ z, tileAt (coreOf (campOf (repeatRuns r0 [(camp, core, y)] s) camp) core) y.base y.wide = some z ∧ z.state = .running
      ∧ z.discards = y.discards := by
  simp only [repeatRuns, hhome]
  generalize ht : reread s _ y = t
  have hshape : t.base = y.base ∧ t.wide = y.wide ∧ t.discards = y.discards := by
    subst ht
    unfold reread
    split <;> exact ⟨rfl, rfl, rfl⟩
  obtain ⟨hbase, hwide, hdiscards⟩ := hshape
  obtain ⟨z, hz, hunfed⟩ := tileAt_onCore_beginRun s camp core t
  rw [hbase, hwide] at hz
  refine ⟨z, ?_, (congrArg TileRun.state hunfed :), (congrArg TileRun.discards hunfed :).trans hdiscards⟩
  rw [campOf, (countPre_keeps _ _ _ _ _).1]
  exact hz

/-! ### The cases of the join -/

section
variable {s : State} {camp core : Nat} {r : PitchRecord} {y : TileRun}

theorem joinRun_unmarked (hmark : y.mark = none) (hmis : y.mis = []) : joinRun s camp core r y = decideRun s camp core r.pitch y := by
  simp [joinRun, hmark, hmis]

theorem joinRun_mismatched (hmark : y.mark = none) (hmis : y.mis ≠ []) : joinRun s camp core r y = discardRun s camp core r.pitch y := by
  simp [joinRun, hmark, hmis]

/-- The tile that waits for its damaged block to be written again (R106). -/
def awaiting (t : TileRun) (m : WeightMark) : TileRun :=
  { t with state := .awaitingBlock m.block, mark := none, mis := [], elems := t.elems.map fun e => { e with overflowed := false } }

theorem joinRun_marked {m : WeightMark} (hmark : y.mark = some m) (hcode : m.code ≠ 1) :
    joinRun s camp core r y = onCore (markEvent s camp r.pitch m 0) camp core fun k => putTile k (awaiting y m) := by
  simp only [joinRun, hmark, hcode, if_false]
  rfl

theorem joinRun_decoderMark {m : WeightMark} (hmark : y.mark = some m) (hcode : m.code = 1) :
    joinRun s camp core r y
      = repeatRuns r [(camp, core, { y with elems := y.elems.map fun e => { e with overflowed := false } })] s := by
  simp only [joinRun, hmark, hcode, if_true]

end

/-! ### O23 -/

/-- Settles O23: a pass by `passStep_first`, `passStep_second` and `passStep_stops`, a join by the case that `joinRun` takes. -/
theorem lanesAccumulateAndRunsEnd : Obligations.LanesAccumulateAndRunsEnd := by
  unfold Obligations.LanesAccumulateAndRunsEnd
  refine ⟨?_, ?_⟩
  · intro s camp core lane seen hcamp hcore hlane k
    refine ⟨fun hqueue => exec_lanePass_empty hcamp hcore hlane hqueue seen, ?_⟩
    intro y p q hqueue htile at_ v ovf acc1
    have hkey : tileKey y = p.tile := by simpa using List.find?_some htile
    have hfed := feedCore_fed (passStep (putQueue k lane q) y core lane p seen)
    have hpassed : coreOf (campOf (onCore s camp core fun k => laneStep k core lane seen) camp) core
        = feedCore (passStep (putQueue k lane q) y core lane p seen) := by
      rw [coreOf_onCore, if_pos rfl, laneStep_pass hqueue htile]
    obtain ⟨acc, hadded⟩ := passStep_added (putQueue k lane q) y core lane p seen
    have hframe : Added k (feedCore (passStep (putQueue k lane q) y core lane p seen)) acc := hfed.added hadded
    refine ⟨_, exec_lanePass_pass hcamp hcore hlane (hqueue ▸ List.cons_ne_nil p q) seen, ?_⟩
    rw [hpassed]
    refine ⟨fun h => ?_, fun h => ?_, fun x hx hfit => ?_, ?_, ?_, ?_, fun d hd => ?_, onCore_eq s camp core _⟩
    · have hfirst : Added k (feedCore _) acc1 := hfed.added (passStep_first (putQueue k lane q) y core lane p seen h)
      rw [hfirst]
    · rw [← hkey]
      exact hfed.elemStopped (passStep_stops (putQueue k lane q) y core lane p seen h)
    · have hsecond : Added k (feedCore _) (accAfter acc1 y lane p.slab x) :=
        hfed.added (passStep_second (putQueue k lane q) y core lane p seen hx hfit)
      rw [hsecond]
      simp [accAfter, sumAfter, acc1, at_]
    · rw [hframe]
    · rw [hframe]
    · rw [hframe]
    · rw [coreOf_onCore, if_neg hd]
  · intro s camp core base wide r rel y hcamp hcore hhome htile
    refine ⟨exec_tileRunJoin_waits hcamp hcore hhome htile, fun hrun hdrained => ?_⟩
    rw [exec_tileRunJoin_joins hcamp hcore hhome htile hrun hdrained]
    obtain ⟨rfl, rfl⟩ := tileAt_some htile
    refine ⟨rfl, fun hmark hmis hwide => ⟨fun hclean => ?_, fun hovf hlast => ?_⟩, fun hmark hmis => ⟨fun m hloss => ?_, fun hkept => ?_⟩,
      fun m hmark => ⟨fun hcode => ?_, fun hcode => ?_⟩⟩
    · obtain ⟨es, haccept⟩ := decideRun_accepts hwide hclean s camp core r.pitch
      rw [joinRun_unmarked hmark hmis, haccept]
      refine ⟨_, { y with state := .accepted, elems := es }, rfl, ?_, rfl, ?_, fun b hb hreason => ?_, rfl⟩
      · rw [coreOf_releaseBlocked, coreOf_onCore, if_pos rfl]
        exact tileAt_putTile _ { y with state := .accepted, elems := es }
      · rw [coreOf_releaseBlocked, coreOf_onCore, if_pos rfl]
        rfl
      · exact blocked_releaseBlocked ((blocked_onCore s camp core _).trans hb) (decide_eq_true hreason) (campIn_of_homeOf (rel := rel) hhome)
    · obtain ⟨z, hz, hunfed⟩ := tileAt_onCore_beginRun (countElems countReplays r.pitch y (y.elems.filter fun e => e.overflowed) s) camp core
        { raised y with discards := 0, lastMis := [] }
      have helems : z.elems = (y.elems.map raiseElem).map fun e => { e with overflowed := false } := (congrArg TileRun.elems hunfed :)
      rw [joinRun_unmarked hmark hmis, decideRun_replays hwide hovf hlast]
      refine ⟨_, z, rfl, hz, (congrArg TileRun.state hunfed :), (congrArg TileRun.run hunfed :), by simp [helems], fun j e f he hf => ?_⟩
      rw [helems, List.getElem?_map, List.getElem?_map, he] at hf
      obtain rfl := Option.some.inj hf
      exact ⟨rfl, by unfold raiseElem; split <;> rfl⟩
    · rw [joinRun_mismatched hmark hmis, discardRun, hloss]
    · obtain ⟨z, hz, hunfed⟩ := tileAt_onCore_beginRun _ camp core
        { y with discards := y.discards + 1, lastMis := (misLanes y).map (·.unit) }
      rw [joinRun_mismatched hmark hmis, discardRun_repeats hkept]
      exact ⟨_, z, rfl, hz, (congrArg TileRun.state hunfed :), (congrArg TileRun.run hunfed :), (congrArg TileRun.discards hunfed :),
        (congrArg TileRun.mis hunfed :), (congrArg TileRun.lastMis hunfed :), rfl⟩
    · rw [joinRun_marked hmark hcode]
      refine ⟨_, awaiting y m, rfl, ?_, rfl, rfl, rfl, rfl⟩
      rw [coreOf_onCore, if_pos rfl]
      exact tileAt_putTile _ (awaiting y m)
    · obtain ⟨z, hz, hstate, hdiscards⟩ := repeatRuns_single hhome r { y with elems := y.elems.map fun e => { e with overflowed := false } }
      rw [joinRun_decoderMark hmark hcode]
      exact ⟨_, z, rfl, hz, hstate, hdiscards⟩

end Sys2Proof.Machine
end

section
/-! SUPPORT. What an access notes leaves of the slots and of the next access (R158, R259, R261), and what slots and cores hold after they are put. -/

namespace Sys2Proof.Machine

/-! ### After an access -/

section
variable (s : State) (rs : List (Nat × Nat))

@[simp] theorem slotOf_touched (r : PitchRecord) (n : Nat) : slotOf (touched s rs) r n = slotOf s r n := by
  obtain ⟨us, late, h⟩ := touchUnits_eq (unitsAsked s rs) s
  rw [touched, h]
  rfl

@[simp] theorem slotDa_touched (r : PitchRecord) (x : Slot) : slotDa (touched s rs) r x = slotDa s r x := by
  obtain ⟨us, late, h⟩ := touchUnits_eq (unitsAsked s rs) s
  rw [touched, h]
  rfl

@[simp] theorem bytes_touched : (touched s rs).mem.bytes = s.mem.bytes := by
  obtain ⟨us, late, h⟩ := touchUnits_eq (unitsAsked s rs) s
  rw [touched, h]
  rfl

theorem peekBytes_touched (da n : Nat) : peekBytes (touched s rs) da n = peekBytes s da n := by
  rw [peekBytes, bytes_touched, peekBytes]

theorem slicePaused_touched (r : PitchRecord) (x : Slot) : slicePaused (touched s rs) r x = slicePaused s r x := by
  obtain ⟨us, late, h⟩ := touchUnits_eq (unitsAsked s rs) s
  rw [touched, h]
  rfl

@[simp] theorem campOf_touched (camp : Nat) : campOf (touched s rs) camp = campOf s camp := by
  simp [campOf]

end

theorem touched_nil (s : State) : touched s [] = s := by
  rw [touched, show unitsAsked s [] = [] by unfold unitsAsked; split <;> rfl, touchUnits]

/-- The unit takes accesses: it is neither retained nor waking (R260, R261). -/
abbrev InService (s : State) (u : Nat) : Prop := (unitAt s u).state ≠ .retained ∧ (unitAt s u).state ≠ .waking

theorem touchUnit_inService {s : State} {u : Nat} (h : InService s u) (v : Nat) : InService (touchUnit s v) u := by
  have hlate : InService (lateAccess s v) u := by
    unfold lateAccess
    dsimp only
    by_cases huv : u = v
    · subst huv
      obtain ⟨hretained, hwaking⟩ := h
      cases hstate : (unitAt s u).state with
      | active => exact ⟨hretained, hwaking⟩
      | draining =>
        have hunit : unitAt (countLate (putUnit s u { unitAt s u with state := .active, last := s.cairn.count }) u) u
          = { unitAt s u with state := .active, last := s.cairn.count } := unitAt_putUnit s u _
        simp [InService, hunit]
      | retained => exact absurd hstate hretained
      | waking => exact absurd hstate hwaking
    · have hput (x : RetUnit) : InService (countLate (putUnit s v x) v) u := by
        have hunit : unitAt (countLate (putUnit s v x) v) u = unitAt s u := unitAt_putUnit_of_ne s x huv
        rw [InService, hunit]
        exact h
      split
      · exact h
      · exact hput _
      · exact hput _
      · exact hput _
  unfold touchUnit
  dsimp only
  by_cases huv : u = v
  · subst huv
    simpa [InService] using hlate
  · rw [InService, unitAt_putUnit_of_ne _ _ huv]
    exact hlate

theorem touchUnits_inService {s : State} {u : Nat} (h : InService s u) (l : List Nat) : InService (touchUnits l s) u := by
  induction l generalizing s with
  | nil => exact h
  | cons v l ih => exact ih (touchUnit_inService h v)

theorem touchUnits_usesRetention {s : State} (h : usesRetention s = true) (l : List Nat) : usesRetention (touchUnits l s) = true := by
  induction l generalizing s with
  | nil => exact h
  | cons v l ih =>
    refine ih ?_
    have hne : (mset (lateAccess s v).mem.units v { unitAt (lateAccess s v) v with last := s.cairn.count }) ≠ [] := by
      intro hnil
      have hget := mget_mset_same (lateAccess s v).mem.units v { unitAt (lateAccess s v) v with last := s.cairn.count }
      simp [hnil] at hget
    simp [usesRetention, touchUnit, putUnit, hne]

/-- The units that an access meets do not depend on what an access before it has noted. -/
theorem unitsAsked_touched (s : State) (rs rs' : List (Nat × Nat)) : unitsAsked (touched s rs) rs' = unitsAsked s rs' := by
  cases huses : usesRetention s with
  | false => rw [touched, unitsAsked_of_not_usesRetention huses rs, touchUnits]
  | true =>
    have huses' : usesRetention (touched s rs) = true := touchUnits_usesRetention huses _
    have hunits : unitsOf (touched s rs) = unitsOf s := by
      obtain ⟨us, late, h⟩ := touchUnits_eq (unitsAsked s rs) s
      rw [touched, h]
      rfl
    generalize touched s rs = t at huses' hunits ⊢
    simp only [unitsAsked, huses, huses', hunits]

/-- An access that would be admitted still is after another one. -/
theorem campAdmitted_touched {s : State} {camp : Nat} {rs' : List (Nat × Nat)} (h : CampAdmitted s camp rs') (rs : List (Nat × Nat)) :
    CampAdmitted (touched s rs) camp rs' := by
  obtain ⟨hslice, hstalls, hunits⟩ := h
  obtain ⟨us, late, htouch⟩ := touchUnits_eq (unitsAsked s rs) s
  have hrange : rangeStalls (touched s rs) = rangeStalls s := by rw [touched, htouch]; rfl
  have hlimited : sliceLimited (touched s rs) (sliceOf camp) = sliceLimited s (sliceOf camp) := by rw [touched, htouch]; rfl
  refine ⟨by rwa [hlimited], by rwa [hrange], fun u hu => ?_⟩
  rw [unitsAsked_touched] at hu
  exact touchUnits_inService (hunits u hu) _

/-- Byte memory in which bytes have been put holds them there, and elsewhere what it held. -/
theorem written_of_bytes_eq {s t : State} {da : Nat} {bs : List Byte} (h : t.mem.bytes = wrBytes s.mem.bytes da bs) :
    peekBytes t da bs.length = bs ∧ MemoryElsewhere s t da bs.length := by
  unfold MemoryElsewhere peekBytes
  rw [h]
  exact ⟨rdBytes_wrBytes s.mem.bytes da bs, fun x hx => rdByte_wrBytes_out bs s.mem.bytes da x hx⟩

/-- Bytes that are put make run-ahead data stale, and leave the rest of each camp. -/
theorem campOf_pokeBytes (s : State) (da : Nat) (bs : List Byte) (c : Nat) :
    campOf (pokeBytes s da bs) c = { campOf s c with ahead := (campOf (pokeBytes s da bs) c).ahead } := by
  simp only [campOf, mgetD, pokeBytes, mget_mmap]
  cases mget s.camps c with
  | none => rfl
  | some x => rfl

/-! ### Slots that are put -/

theorem slotOf_putSlot_same {s : State} {r : PitchRecord} {n : Nat} {x : Slot} (h : slotOf s r n = some x) (y : Slot) :
    slotOf (putSlot s r.pitch n y) r n = some y := by
  have hn : n < r.slots := by
    by_contra hn
    simp [slotOf, hn] at h
  simp [slotOf, putSlot, hn]

theorem slotOf_putSlot_ne (s : State) (r : PitchRecord) {n m : Nat} (y : Slot) (h : m ≠ n) :
    slotOf (putSlot s r.pitch n y) r m = slotOf s r m := by
  simp [slotOf, putSlot, mget_mset_ne _ _ h]

/-- Transfers of `l` bytes by rank lie within a slot that holds those of every core (R157). -/
theorem slotFaults_none {cores : List Nat} {x : Slot} {l : Nat} (h : l * cores.length ≤ x.size) (n : Nat) : slotFaults cores x n 0 l l = none := by
  rw [slotFaults, firstFault, List.findSome?_eq_none_iff]
  intro y hy
  have hrank : y.2 + 1 ≤ cores.length := List.snd_lt_of_mem_zipIdx hy
  have hbytes : y.2 * l + l ≤ x.size :=
    calc y.2 * l + l = l * (y.2 + 1) := by ring
      _ ≤ l * cores.length := Nat.mul_le_mul_left l hrank
      _ ≤ x.size := h
  rw [if_neg (by omega)]

/-! ### Cores of a mask -/

theorem eachCore_cores (f : Nat → Nat → Core → Core) (l : List (Nat × Nat)) (c : Camp) :
    eachCore f l c = { c with cores := (eachCore f l c).cores } := by
  induction l generalizing c with
  | nil => rfl
  | cons x l ih =>
    rw [eachCore, ih]
    rfl

theorem coreOf_eachCore_of_notMem (f : Nat → Nat → Core → Core) {l : List (Nat × Nat)} {k : Nat} (h : k ∉ l.map Prod.fst) (c : Camp) :
    coreOf (eachCore f l c) k = coreOf c k := by
  induction l generalizing c with
  | nil => rfl
  | cons x l ih =>
    simp only [List.map_cons, List.mem_cons, not_or] at h
    rw [eachCore, ih h.2, coreOf_putCore_ne _ _ h.1]

theorem coreOf_eachCore (f : Nat → Nat → Core → Core) {l : List (Nat × Nat)} (hnodup : (l.map Prod.fst).Nodup) {k q : Nat} (h : (k, q) ∈ l)
    (c : Camp) : coreOf (eachCore f l c) k = f q k (coreOf c k) := by
  induction l generalizing c with
  | nil => exact absurd h List.not_mem_nil
  | cons x l ih =>
    obtain ⟨hfresh, hrest⟩ := List.nodup_cons.1 hnodup
    rcases List.mem_cons.1 h with rfl | hl
    · rw [eachCore, coreOf_eachCore_of_notMem f hfresh, coreOf_putCore]
    · have hne : k ≠ x.1 := fun heq => hfresh (heq ▸ List.mem_map_of_mem hl)
      rw [eachCore, ih hrest hl, coreOf_putCore_ne _ _ hne]

theorem campOf_onCores (s : State) (camp : Nat) (cores : List Nat) (f : Nat → Nat → Core → Core) :
    campOf (onCores s camp cores f) camp = eachCore f cores.zipIdx (campOf s camp) := by
  simp [onCores]

theorem cmdCores_nodup (w : CmdWord) : (cmdCores w).Nodup := List.nodup_range.filter _

end Sys2Proof.Machine
end

section
/-! PROOF. O22: TRED in tiles and through slots (R86, R157 to R159, R172, R173). -/

namespace Sys2Proof.Machine

/-! ### What TRED asks -/

/-- A TRED at its word: each core of the mask has an accepted tile of one height under the word's base and width (R149, R173). -/
structure TredReady (s : State) (c : Ctx) (h : Nat) : Prop where
  clear : reservedClear c.w [(57, 32), (83, 64)] = true
  rule : flag c.w 53 = true → flag c.w 57 = true
  cores : cmdCores c.w ≠ []
  tiles : ∀ core ∈ cmdCores c.w,
    ∃ t, tileAt (coreOf (campOf s c.camp) core) (fld c.w 56 54) (flag c.w 57) = some t ∧ t.state = .accepted ∧ t.height = h

/-- Slot `n`, which is `x`, lies where the command may go and holds `bytes` bytes, and its slice takes accesses (R157, R172, R476). -/
structure SlotHolds (s : State) (c : Ctx) (n : Nat) (x : Slot) (bytes : Nat) : Prop where
  slot : slotOf s c.pr n = some x
  size : bytes ≤ x.size
  route : routeStays c.pr c.rel x.home = true
  running : slicePaused s c.pr x = false

theorem SlotHolds.touched {s : State} {c : Ctx} {n : Nat} {x : Slot} {bytes : Nat} (h : SlotHolds s c n x bytes) (rs : List (Nat × Nat)) :
    SlotHolds (touched s rs) c n x bytes :=
  ⟨(slotOf_touched s rs c.pr n).trans h.slot, h.size, h.route, (slicePaused_touched s rs c.pr x).trans h.running⟩

/-- The number of the slot that a TRED reads: its field, with the strides of the enclosing loops (R149, R151). -/
abbrev inputSlot (c : Ctx) : Nat := fld c.w 51 32 + c.slot

/-- What a TRED reads of its input slot. -/
def inputRanges (s : State) (c : Ctx) (h : Nat) : Option Slot → List (Nat × Nat)
  | none => []
  | some z => [(slotDa s c.pr z, 64 * h * (cmdCores c.w).length)]

/-- The bytes of the input slot. -/
abbrev inputBytes (s : State) (c : Ctx) (y : Option Slot) : Option (List Byte) := y.map fun z => peekBytes s (slotDa s c.pr z) z.size

/-- The state in which the input slot has been released (R158). -/
def inputReleased (c : Ctx) : Option Slot → State → State
  | none, u => u
  | some z, u => putSlot u c.pr.pitch (inputSlot c) (releaseSlot z c.rel)

/-- The input of a TRED: none with the `first` bit (R149), and otherwise a slot that it may read. -/
inductive TredInput (s : State) (c : Ctx) (h : Nat) : Option Slot → Prop
  | first (hfirst : flag c.w 52 = true) : TredInput s c h none
  | slot {z : Slot} (hfirst : flag c.w 52 = false) (holds : SlotHolds s c (inputSlot c) z (64 * h * (cmdCores c.w).length))
      (readable : canRead z c.rel = true) (admitted : CampAdmitted s c.camp (inputRanges s c h (some z))) : TredInput s c h (some z)

theorem tredInput_of_flag {s : State} {c : Ctx} {h : Nat} {y : Option Slot} (hfirst : flag c.w 52 = true → y = none)
    (hinput : flag c.w 52 = false → y = slotOf s c.pr (inputSlot c) ∧ y.any (fun z => decide (64 * h * (cmdCores c.w).length ≤ z.size)
      && routeStays c.pr c.rel z.home && canRead z c.rel && !slicePaused s c.pr z) = true)
    (hadmit : ∀ z, y = some z → CampAdmitted s c.camp (inputRanges s c h (some z))) : TredInput s c h y := by
  cases hflag : flag c.w 52 with
  | true => exact hfirst hflag ▸ .first hflag
  | false =>
    obtain ⟨hslot, hany⟩ := hinput hflag
    cases y with
    | none => exact nomatch hany
    | some z =>
      simp only [Option.any_some, Bool.and_eq_true, decide_eq_true_eq, Bool.not_eq_true'] at hany
      obtain ⟨⟨⟨hsize, hroute⟩, hread⟩, hrunning⟩ := hany
      exact .slot hflag ⟨hslot.symm, hsize, hroute, hrunning⟩ hread (hadmit z rfl)

theorem TredInput.slotOf {s : State} {c : Ctx} {h : Nat} {y : Option Slot} (hin : TredInput s c h y) {z : Slot} (hz : y = some z) :
    slotOf s c.pr (inputSlot c) = some z := by
  cases hin with
  | first => exact nomatch hz
  | slot _ holds => exact Option.some.inj hz ▸ holds.slot

theorem slotOf_inputReleased {c : Ctx} {u : State} {z : Slot} (h : slotOf u c.pr (inputSlot c) = some z) :
    slotOf (inputReleased c (some z) u) c.pr (inputSlot c) = some (releaseSlot z c.rel) := slotOf_putSlot_same h _

/-- The release of the input slot changes neither memory nor camps nor another slot. -/
theorem inputReleased_keeps (c : Ctx) (y : Option Slot) (u : State) :
    (inputReleased c y u).mem = u.mem ∧ (inputReleased c y u).camps = u.camps
      ∧ ∀ n, (y ≠ none → n ≠ inputSlot c) → slotOf (inputReleased c y u) c.pr n = slotOf u c.pr n := by
  cases y with
  | none => exact ⟨rfl, rfl, fun _ _ => rfl⟩
  | some z => exact ⟨rfl, rfl, fun n hn => slotOf_putSlot_ne u c.pr _ (hn (Option.some_ne_none z))⟩

section
variable {s : State} {c : Ctx} {h : Nat} (hready : TredReady s c h)

/-- The tiles that a TRED names, by rank. -/
abbrev tredTiles (s : State) (c : Ctx) : List (Option TileRun) :=
  (cmdCores c.w).map fun core => tileAt (coreOf (campOf s c.camp) core) (fld c.w 56 54) (flag c.w 57)

include hready

theorem TredReady.fieldRule : (!flag c.w 53 || flag c.w 57) = true := by
  cases hlast : flag c.w 53 with
  | false => rfl
  | true => simpa using hready.rule hlast

theorem TredReady.height : (((tredTiles s c).headD none).map (·.height)).getD 0 = h := by
  obtain ⟨core, rest, hcores⟩ := List.exists_cons_of_ne_nil hready.cores
  obtain ⟨t, ht, -, hheight⟩ := hready.tiles core (hcores ▸ List.mem_cons_self)
  simp [tredTiles, hcores, ht, hheight]

/-- What no accepted tile of the height shows, none of its tiles shows. -/
theorem TredReady.none_of_tiles {f : Option TileRun → Bool} (hf : ∀ t : TileRun, t.state = .accepted → t.height = h → f (some t) = false) :
    ¬(tredTiles s c).any f = true := by
  rw [Bool.not_eq_true, List.any_eq_false]
  intro o ho
  obtain ⟨core, hcore, rfl⟩ := List.mem_map.1 ho
  obtain ⟨t, ht, hstate, hheight⟩ := hready.tiles core hcore
  simp [ht, hf t hstate hheight]

/-- Its tiles neither fault nor wait: the input slot comes next. -/
theorem TredReady.tiles_pass {α : Type} (a b d : α) :
    (if ((tredTiles s c).any fun t => t.isNone) ∨ ((tredTiles s c).any fun t => decide ((t.map (·.height)).getD 0 ≠ h)) then a
      else if (tredTiles s c).any fun t => decide ((t.map (·.state)) ≠ some .accepted) then b else d) = d := by
  rw [if_neg (not_or.2 ⟨hready.none_of_tiles fun t _ _ => rfl, hready.none_of_tiles fun t _ hheight => by simp [hheight]⟩),
    if_neg (hready.none_of_tiles fun t hstate _ => by simp [hstate])]

/-- Such a TRED reads its input slot, where it has one, before its output, and releases the slot where the output completes (R158). -/
theorem TredReady.doTred_done {y : Option Slot} (hin : TredInput s c h y) {u : State}
    (hout : tredOut [] c (cmdCores c.w) h (inputBytes s c y) (touched s (inputRanges s c h y)) = .done u)
    (hslot : ∀ z, y = some z → slotOf u c.pr (inputSlot c) = some z) : doTred [] c s = .done (inputReleased c y u) := by
  unfold doTred
  dsimp only
  rw [coreCommand_clear hready.clear hready.fieldRule hready.cores, hready.height, hready.tiles_pass]
  cases hin with
  | first hfirst =>
    rw [inputRanges, touched_nil] at hout
    rw [if_pos hfirst]
    exact hout
  | @slot z hfirst hz hread hadmit =>
    simp only [inputBytes, inputRanges, Option.map_some] at hout hadmit
    rw [if_neg (by simp [hfirst])]
    simp only [withSlot, hz.slot]
    rw [unlessFault_none (slotFaults_none hz.size _), routed, if_pos hz.route, reading, if_pos ⟨hread, hz.running⟩, access_admitted hadmit,
      peekBytes_touched, slotDa_touched, hout]
    simp only [hslot z rfl]
    rfl

end

/-! ### Where the sums go -/

/-- The sums that TRED leaves in the core of rank `q`: where a tile is under the word's base and width, its own (R86, R173). -/
def tredCore (w : CmdWord) (slot : Option (List Byte)) (q : Nat) (k : Core) : Core :=
  match tileAt k (fld w 56 54) (flag w 57) with
  | none => k
  | some t => tredIntoTile k t (tredSums k t slot q)

theorem tredOut_last {c : Ctx} (hlast : flag c.w 53 = true) (cores : List Nat) (h : Nat) (slot : Option (List Byte)) (s : State) :
    tredOut [] c cores h slot s = .done (onCores s c.camp cores fun q _ k => tredCore c.w slot q k) := by
  unfold tredOut
  dsimp only
  rw [if_pos hlast]
  rfl

/-- The bytes of the sums of a core of rank `q` (R173). -/
def tredCoreBytes (w : CmdWord) (slot : Option (List Byte)) (q : Nat) (k : Core) : List Byte :=
  match tileAt k (fld w 56 54) (flag w 57) with
  | none => []
  | some t => tredBytes (tredSums k t slot q)

/-- The bytes that go to the output slot, in rank order (R173). -/
def tredOutput (s : State) (c : Ctx) (slot : Option (List Byte)) : List Byte :=
  ((cmdCores c.w).zipIdx.map fun y => tredCoreBytes c.w slot y.2 (coreOf (campOf s c.camp) y.1)).flatten

/-- From `s` to `u` a TRED has written `out` to slot `n`, which was `x`, with a closing write (R158): no core or program has changed. -/
structure TredWritten (s u : State) (camp : Nat) (r : PitchRecord) (n : Nat) (x : Slot) (out : List Byte) : Prop where
  bytes : u.mem.bytes = wrBytes s.mem.bytes (slotDa s r x) out
  slot : slotOf u r n = some (fillSlot x true)
  cores : (campOf u camp).cores = (campOf s camp).cores
  prog : (campOf u camp).prog = (campOf s camp).prog

theorem tredOut_slot {s : State} {c : Ctx} {h : Nat} {x : Slot} {slot : Option (List Byte)} (hlast : flag c.w 53 = false)
    (hx : SlotHolds s c (fld c.w 83 64 + c.slot) x (64 * h * (cmdCores c.w).length)) (hproducer : x.producer = c.rel) (hwrite : canWrite x = true)
    (hadmit : CampAdmitted s c.camp [(slotDa s c.pr x, (tredOutput s c slot).length)]) :
    ∃ u, tredOut [] c (cmdCores c.w) h slot s = .done u ∧ TredWritten s u c.camp c.pr (fld c.w 83 64 + c.slot) x (tredOutput s c slot)
      ∧ ∀ m, m ≠ fld c.w 83 64 + c.slot → slotOf u c.pr m = slotOf s c.pr m := by
  refine ⟨putSlot (pokeBytes (touched s [(slotDa s c.pr x, (tredOutput s c slot).length)]) (slotDa s c.pr x) (tredOutput s c slot))
    c.pr.pitch (fld c.w 83 64 + c.slot) (fillSlot x true), ?_, ?_, ?_⟩
  · unfold tredOut
    dsimp only
    rw [if_neg (by simp [hlast])]
    simp only [withSlot, hx.slot]
    rw [unlessFault_none (slotFaults_none hx.size _), routed, if_pos hx.route, writing, if_neg (by simp [hproducer]),
      if_pos ⟨hwrite, hx.running⟩]
    show access c s [(slotDa s c.pr x, (tredOutput s c slot).length)] _ = _
    rw [access_admitted hadmit]
    show CmdRes.done (putSlot (pokeBytes _ (slotDa (touched s _) c.pr x) (tredOutput s c slot)) _ _ _) = _
    rw [slotDa_touched]
  · generalize htouch : touched s _ = t
    have hcamp : campOf t c.camp = campOf s c.camp := htouch ▸ campOf_touched s _ _
    refine ⟨?_, slotOf_putSlot_same (x := x) ?_ _, ?_, ?_⟩
    · rw [← bytes_touched s, htouch]
      rfl
    · rw [← hx.slot, ← slotOf_touched s, htouch]
      rfl
    · show (campOf (pokeBytes t _ _) c.camp).cores = _
      rw [campOf_pokeBytes, hcamp]
    · show (campOf (pokeBytes t _ _) c.camp).prog = _
      rw [campOf_pokeBytes, hcamp]
  · intro m hm
    rw [slotOf_putSlot_ne _ _ _ hm, ← slotOf_touched s]
    rfl

theorem tredOutput_touched (s : State) (c : Ctx) (slot : Option (List Byte)) (rs : List (Nat × Nat)) :
    tredOutput (touched s rs) c slot = tredOutput s c slot := by
  simp only [tredOutput, campOf_touched]

/-- The same holds from the state before an access was noted. -/
theorem TredWritten.of_touched {s u : State} {rs : List (Nat × Nat)} {camp : Nat} {r : PitchRecord} {n : Nat} {x : Slot} {out : List Byte}
    (h : TredWritten (touched s rs) u camp r n x out) : TredWritten s u camp r n x out := by
  obtain ⟨hbytes, hslot, hcores, hprog⟩ := h
  simp only [bytes_touched, slotDa_touched, campOf_touched] at hbytes hcores hprog
  exact ⟨hbytes, hslot, hcores, hprog⟩

/-- And to the state after another slot has been released. -/
theorem TredWritten.released {s u : State} {camp n : Nat} {c : Ctx} {x : Slot} {out : List Byte} (h : TredWritten s u camp c.pr n x out)
    {y : Option Slot} (hne : y ≠ none → n ≠ inputSlot c) : TredWritten s (inputReleased c y u) camp c.pr n x out := by
  obtain ⟨hmem, hcamps, hslots⟩ := inputReleased_keeps c y u
  have hcamp : campOf (inputReleased c y u) camp = campOf u camp := by rw [campOf, hcamps, campOf]
  exact ⟨hmem ▸ h.bytes, (hslots n hne).trans h.slot, hcamp ▸ h.cores, hcamp ▸ h.prog⟩

/-! ### TRED -/

section
variable {s : State} {c : Ctx} {h : Nat} {y : Option Slot} (hready : TredReady s c h) (hin : TredInput s c h y)

include hready hin

/-- A TRED that ends in the tiles changes the cores of the mask, and releases its input slot. -/
theorem TredReady.doTred_last (hlast : flag c.w 53 = true) :
    ∃ u, doTred [] c s = .done u ∧ u.mem.bytes = s.mem.bytes
      ∧ campOf u c.camp = eachCore (fun q _ k => tredCore c.w (inputBytes s c y) q k) (cmdCores c.w).zipIdx (campOf s c.camp)
      ∧ (∀ z, y = some z → slotOf u c.pr (inputSlot c) = some (releaseSlot z c.rel))
      ∧ (y = none → ∃ cores, u = putCamp s c.camp { campOf s c.camp with cores := cores }) := by
  have hout := tredOut_last hlast (cmdCores c.w) h (inputBytes s c y) (touched s (inputRanges s c h y))
  generalize hu : onCores (touched s (inputRanges s c h y)) c.camp (cmdCores c.w) (fun q _ k => tredCore c.w (inputBytes s c y) q k) = u at hout
  have hslot (z : Slot) (hz : y = some z) : slotOf u c.pr (inputSlot c) = some z := by
    rw [← hin.slotOf hz, ← slotOf_touched s (inputRanges s c h y), ← hu]
    rfl
  obtain ⟨hmem, hcamps, -⟩ := inputReleased_keeps c y u
  refine ⟨_, hready.doTred_done hin hout hslot, ?_, ?_, fun z hz => ?_, fun hy => ?_⟩
  · rw [hmem, ← bytes_touched s (inputRanges s c h y), ← hu]
    rfl
  · rw [campOf, hcamps, ← campOf, ← hu, campOf_onCores, campOf_touched]
  · subst hz
    exact slotOf_inputReleased (hslot z rfl)
  · subst hy hu
    rw [inputReleased, inputRanges, touched_nil, onCores, eachCore_cores]
    exact ⟨_, rfl⟩

/-- A TRED through slots writes its output slot, and releases its input slot, which is another one. -/
theorem TredReady.doTred_writes (hlast : flag c.w 53 = false) {x : Slot}
    (hx : SlotHolds s c (fld c.w 83 64 + c.slot) x (64 * h * (cmdCores c.w).length)) (hproducer : x.producer = c.rel) (hwrite : canWrite x = true)
    (hadmit : CampAdmitted s c.camp [(slotDa s c.pr x, (tredOutput s c (inputBytes s c y)).length)])
    (hne : y ≠ none → inputSlot c ≠ fld c.w 83 64 + c.slot) :
    ∃ u, doTred [] c s = .done u ∧ TredWritten s u c.camp c.pr (fld c.w 83 64 + c.slot) x (tredOutput s c (inputBytes s c y))
      ∧ ∀ z, y = some z → slotOf u c.pr (inputSlot c) = some (releaseSlot z c.rel) := by
  obtain ⟨u, hout, hwritten, hothers⟩ := tredOut_slot hlast (hx.touched (inputRanges s c h y)) hproducer hwrite
    (by simpa only [tredOutput_touched, slotDa_touched] using campAdmitted_touched hadmit (inputRanges s c h y))
  rw [tredOutput_touched] at hwritten
  have hslot (z : Slot) (hz : y = some z) : slotOf u c.pr (inputSlot c) = some z :=
    (hothers _ (hne (by simp [hz]))).trans ((slotOf_touched s _ _ _).trans (hin.slotOf hz))
  refine ⟨_, hready.doTred_done hin hout hslot, hwritten.of_touched.released fun hy => (hne hy).symm, fun z hz => ?_⟩
  subst hz
  exact slotOf_inputReleased (hslot z rfl)

end

/-! ### O22 -/

/-- A TRED that completes lets its program go on. -/
theorem exec_cTred_done {s u : State} {camp : Nat} {w : CmdWord} {r : PitchRecord} {rel : Nat} {p : Program} (hat : AtCommand s camp w r rel p)
    (hnext : HasNext p) (hop : cmdOpcode w = 0x10) (hdone : doTred [] (ctxAt camp r rel p w) s = .done u)
    (hprog : (campOf u camp).prog = (campOf s camp).prog) :
    exec (.cTred camp w []) s = .next (putCamp u camp { campOf u camp with prog := some (nextProg p), blocked := none }) := by
  have ⟨_, _, hprogram, _⟩ := hat
  show runCommand s camp w _ _ = _
  rw [runCommand_at hat (decide_eq_true hop), hdone]
  exact congrArg Host.Outcome.next (advance_of_hasNext (hprog.trans hprogram) hnext)

section
variable {s u : State} {camp : Nat} {w : CmdWord} {slot : Option (List Byte)}
  (hcamp : campOf u camp = eachCore (fun q _ k => tredCore w slot q k) (cmdCores w).zipIdx (campOf s camp))

include hcamp

theorem coreOf_tredCores {c q : Nat} (hrank : (c, q) ∈ (cmdCores w).zipIdx) :
    coreOf (campOf u camp) c = tredCore w slot q (coreOf (campOf s camp) c) := by
  have hnodup : ((cmdCores w).zipIdx.map Prod.fst).Nodup := (List.zipIdx_map_fst 0 (cmdCores w)).symm ▸ cmdCores_nodup w
  rw [hcamp, coreOf_eachCore _ hnodup hrank]

theorem coreOf_tredCores_of_notMem {c : Nat} (hc : c ∉ cmdCores w) : coreOf (campOf u camp) c = coreOf (campOf s camp) c := by
  rw [hcamp, coreOf_eachCore_of_notMem _ ((List.zipIdx_map_fst 0 (cmdCores w)).symm ▸ hc)]

theorem prog_tredCores : (campOf u camp).prog = (campOf s camp).prog := by
  rw [hcamp, eachCore_cores]

end

/-- Settles O22: `TredReady.doTred_last` for the tiles, `TredReady.doTred_writes` for the output slot. -/
theorem tredReducesTiles : Obligations.TredReducesTiles := by
  unfold Obligations.TredReducesTiles
  refine ⟨?_, ?_⟩
  · intro s camp w r rel p h y hat hnext ⟨hop, hclear⟩ hcores hwide hlast m hfirst hinput hadmit htiles
    have hready : TredReady s (ctxAt camp r rel p w) h := ⟨hclear, fun _ => hwide, hcores, hwide ▸ htiles⟩
    obtain ⟨u, hdone, hbytes, hcamp, hreleased, honly⟩ := hready.doTred_last (tredInput_of_flag hfirst hinput hadmit) hlast
    refine ⟨_, exec_cTred_done hat hnext hop hdone (prog_tredCores hcamp), fun c q hrank => ?_, fun c hc => ?_, hbytes, hreleased, fun hy => ?_⟩
    · rw [campOf_putCamp, ← hwide]
      exact coreOf_tredCores hcamp hrank
    · rw [campOf_putCamp]
      exact coreOf_tredCores_of_notMem hcamp hc
    · obtain ⟨cores, rfl⟩ := honly hy
      rw [OnlyCoresOf, campOf_putCamp, campOf_putCamp, putCamp_putCamp]
  · intro s camp w r rel p h x y hat hnext ⟨hop, hclear⟩ hcores hlast htiles n m bytes hx hsize hroute hproducer hwrite hrunning hfirst hinput
      sums out hadmitIn hadmitOut
    have hready : TredReady s (ctxAt camp r rel p w) h := ⟨hclear, fun h => by simp [hlast] at h, hcores, htiles⟩
    have hin : TredInput s (ctxAt camp r rel p w) h y := tredInput_of_flag hfirst (fun hflag => (hinput hflag).2) hadmitIn
    have hne (hy : y ≠ none) : m ≠ n := (hinput (Bool.eq_false_iff.2 fun hflag => hy (hfirst hflag))).1
    have hout : out = tredOutput s (ctxAt camp r rel p w) (inputBytes s (ctxAt camp r rel p w) y) := by
      refine congrArg List.flatten (List.map_congr_left fun z _ => ?_)
      simp only [sums, tredCoreBytes]
      cases tileAt (coreOf (campOf s camp) z.1) (fld w 56 54) (flag w 57) with
      | none => rfl
      | some t => rfl
    rw [hout] at hadmitOut ⊢
    obtain ⟨u, hdone, hwritten, hreleased⟩ := hready.doTred_writes hin hlast ⟨hx, hsize, hroute, hrunning⟩ hproducer hwrite hadmitOut hne
    obtain ⟨hpeek, helsewhere⟩ := written_of_bytes_eq hwritten.bytes
    refine ⟨_, exec_cTred_done hat hnext hop hdone hwritten.prog, hpeek, helsewhere, hwritten.slot, hreleased, ?_⟩
    rw [campOf_putCamp]
    exact hwritten.cores

end Sys2Proof.Machine
end

section
/-! PROOF. O6: the state after reset (R115, R333, R413). -/

namespace Sys2Proof.Machine

/-- Settles O6: every field of the reset state is empty or at its reset value. -/
theorem resetStateIsSound : Obligations.ResetStateIsSound := by
  unfold Obligations.ResetStateIsSound
  refine ⟨rfl, rfl, ?_, rfl, rfl, rfl, fun _ => rfl, fun _ => rfl⟩
  decide

end Sys2Proof.Machine
end

section
/-! PROOF. O8: the bucket of a hash key (R114). -/

namespace Sys2Proof.Machine

/-- A bit field of a word, as bits of a narrower word. -/
theorem ofNat_bitsOf (key : Word) (lo n : Nat) : BitVec.ofNat n (bitsOf key.toNat (lo + n - 1) lo) = key.extractLsb' lo n := by
  apply BitVec.eq_of_toNat_eq
  cases n with
  | zero => simp [BitVec.toNat_zero_length]
  | succ n =>
    rw [BitVec.extractLsb'_toNat, BitVec.toNat_ofNat, bitsOf, Nat.shiftRight_eq_div_pow, show lo + (n + 1) - 1 + 1 - lo = n + 1 by omega, Nat.mod_mod]

theorem bitsOf_lt (v : Nat) {hi lo n : Nat} (h : hi + 1 - lo ≤ n) : bitsOf v hi lo < 2 ^ n :=
  (Nat.mod_lt _ (Nat.two_pow_pos _)).trans_le (Nat.pow_le_pow_right (by decide) h)

/-- Settles O8: each field of the key is a bit field of at most 13 bits. -/
theorem hashBucketFoldsTheKey : Obligations.HashBucketFoldsTheKey := by
  unfold Obligations.HashBucketFoldsTheKey
  intro key
  have hlow := bitsOf_lt key.toNat (hi := 12) (lo := 0) (n := 13) (by decide)
  have hmid := bitsOf_lt key.toNat (hi := 25) (lo := 13) (n := 13) (by decide)
  have htop := bitsOf_lt key.toNat (hi := 31) (lo := 26) (n := 13) (by decide)
  refine ⟨?_, Nat.xor_lt_two_pow (Nat.xor_lt_two_pow hlow hmid) htop⟩
  have hset : (key.extractLsb' 26 6).setWidth 13 = BitVec.ofNat 13 (bitsOf key.toNat 31 26) := by
    rw [← ofNat_bitsOf key 26 6, BitVec.setWidth_ofNat_of_le_of_lt (by decide) (bitsOf_lt _ (by decide))]
  rw [hset, ← ofNat_bitsOf key 0 13, ← ofNat_bitsOf key 13 13, ← BitVec.ofNat_xor, ← BitVec.ofNat_xor]
  rfl

end Sys2Proof.Machine
end

section
/-! PROOF. O10, O33: the ranking order of R110, and what selections keep. -/

namespace Sys2Proof.Machine

/-! ### The order as an order of numbers -/

/-- What a number is ordered by: its key, with one key for both zeros. -/
def fpRank (w : Word) : Int := if isZero w then 0 else fpKey w

/-- What an element is ordered by before its position: a NaN is below every number. -/
def rankKey (int : Bool) (w : Word) : Int := if int then w.toInt else if isNaN w then -2 ^ 32 else fpRank w

theorem isZero_iff (w : Word) : isZero w = true ↔ w.toNat = 0 ∨ w.toNat = 2 ^ 31 := by
  have := w.isLt
  rw [isZero, decide_eq_true_iff]
  simp only [fpExp, fpFrac, bitsOf, show (30 + 1 - 23 : Nat) = 8 from rfl, show (22 + 1 - 0 : Nat) = 23 from rfl]
  omega

theorem fpNeg_iff (w : Word) : fpNeg w = true ↔ 2 ^ 31 ≤ w.toNat := by
  have h := BitVec.msb_eq_decide w
  rw [BitVec.msb_eq_getLsbD_last] at h
  rw [fpNeg, h, decide_eq_true_eq]

theorem not_isNaN_of_isZero {w : Word} (h : isZero w = true) : isNaN w = false := by
  simp only [isZero, decide_eq_true_eq] at h
  simp [isNaN, h]

theorem fpRank_gt (w : Word) : -2 ^ 32 < fpRank w := by
  have := w.isLt
  unfold fpRank fpKey
  split
  · decide
  · split <;> omega

/-- Two keys that are not both of zeros are in the order of the ranks. -/
theorem fpRank_lt_iff (a b : Word) : fpRank a < fpRank b ↔ ¬(isZero a = true ∧ isZero b = true) ∧ fpKey a < fpKey b := by
  have ha := a.isLt
  have hb := b.isLt
  have za := isZero_iff a
  have zb := isZero_iff b
  have na := fpNeg_iff a
  have nb := fpNeg_iff b
  unfold fpRank fpKey
  split <;> split <;> split <;> split <;> simp_all <;> omega

theorem fpLt_iff {a b : Word} (ha : isNaN a = false) (hb : isNaN b = false) : fpLt a b = true ↔ fpRank a < fpRank b := by
  rw [fpRank_lt_iff, fpLt, ha, hb]
  cases isZero a <;> simp

/-- R110 as an order of numbers: the greater key first, and the lower position among equals. -/
theorem ranksBefore_iff (int : Bool) (a b : Ranked) :
    ranksBefore int a b = true ↔ rankKey int b.v < rankKey int a.v ∨ rankKey int b.v = rankKey int a.v ∧ a.pos < b.pos := by
  have ga := fpRank_gt a.v
  have gb := fpRank_gt b.v
  cases int with
  | true =>
    simp only [ranksBefore, rankKey]
    grind
  | false =>
    cases ha : isNaN a.v <;> cases hb : isNaN b.v
    · have hba := fpLt_iff hb ha
      have hab := fpLt_iff ha hb
      simp only [ranksBefore, rankKey, ha, hb]
      grind
    · simp [ranksBefore, rankKey, ha, hb]; omega
    · simp [ranksBefore, rankKey, ha, hb]; omega
    · simp [ranksBefore, rankKey, ha, hb]

theorem ranksBefore_of_key_eq {int : Bool} {a b : Ranked} (h : rankKey int a.v = rankKey int b.v) :
    ranksBefore int a b = decide (a.pos < b.pos) := by
  rw [Bool.eq_iff_iff, ranksBefore_iff, decide_eq_true_iff]
  omega

theorem ranksBefore_total {int : Bool} {a b : Ranked} (h : a.pos ≠ b.pos) : ranksBefore int a b = !ranksBefore int b a := by
  rw [Bool.eq_iff_iff, Bool.not_eq_true', ← Bool.not_eq_true, ranksBefore_iff, ranksBefore_iff]
  omega

theorem ranksBefore_trans {int : Bool} {a b c : Ranked} (hab : ranksBefore int a b = true) (hbc : ranksBefore int b c = true) :
    ranksBefore int a c = true := by
  rw [ranksBefore_iff] at *
  omega

theorem rankKey_zero {w : Word} (h : isZero w = true) : rankKey false w = 0 := by
  simp [rankKey, fpRank, not_isNaN_of_isZero h, h]

/-- Settles O10: each clause is one of the order of `rankKey`. -/
theorem rankingIsTotal : Obligations.RankingIsTotal := by
  unfold Obligations.RankingIsTotal
  refine ⟨fun a b => ⟨fun h => ?_, fun h => ?_, fun ha hb => ?_, fun ha hb => ?_, fun ha hb => ?_, fun int h => ?_⟩,
    fun int a b c => ⟨ranksBefore_total, ranksBefore_trans⟩, fun int e => ?_⟩
  · exact (ranksBefore_iff true a b).2 (.inl h)
  · obtain ⟨hb, ha⟩ : isNaN b.v = false ∧ isNaN a.v = false := by
      simp only [fpLt, Bool.and_eq_true, Bool.not_eq_true'] at h
      exact h.1.1
    rw [ranksBefore_iff]
    simp [rankKey, ha, hb, (fpLt_iff hb ha).1 h]
  · have hlow : rankKey false b.v < rankKey false a.v := by simpa [rankKey, ha, hb] using fpRank_gt a.v
    exact (ranksBefore_iff false a b).2 (.inl hlow)
  · exact ranksBefore_of_key_eq ((rankKey_zero ha).trans (rankKey_zero hb).symm)
  · exact ranksBefore_of_key_eq (by simp [rankKey, ha, hb])
  · exact ranksBefore_of_key_eq (by rw [h])
  · simp [topBytes, leBytes]

/-! ### Selections -/

theorem insertRanked_perm (int : Bool) (e : Ranked) (l : List Ranked) : (insertRanked int e l).Perm (e :: l) := by
  induction l with
  | nil => exact .refl _
  | cons a t ih =>
    unfold insertRanked
    split
    · exact .refl _
    · exact (ih.cons a).trans (.swap e a t)

theorem insertRanked_pairwise {int : Bool} {e : Ranked} {l : List Ranked} (hl : l.Pairwise (fun a b => ranksBefore int a b = true))
    (he : ∀ a ∈ l, e.pos ≠ a.pos) : (insertRanked int e l).Pairwise (fun a b => ranksBefore int a b = true) := by
  induction l with
  | nil => exact List.pairwise_singleton _ _
  | cons a t ih =>
    obtain ⟨ha, ht⟩ := List.pairwise_cons.1 hl
    unfold insertRanked
    split
    · rename_i hea
      refine List.pairwise_cons.2 ⟨fun b hb => ?_, hl⟩
      rcases List.mem_cons.1 hb with rfl | hb
      · exact hea
      · exact ranksBefore_trans hea (ha b hb)
    · rename_i hea
      refine List.pairwise_cons.2 ⟨fun b hb => ?_, ih ht fun b hb => he b (List.mem_cons_of_mem _ hb)⟩
      rcases List.mem_cons.1 ((insertRanked_perm int e t).mem_iff.1 hb) with rfl | hb
      · rw [ranksBefore_total (he a List.mem_cons_self).symm, Bool.eq_false_iff.2 hea]
        rfl
      · exact ha b hb

/-- An element that is cut off before an insertion would be cut off after it. -/
theorem take_insertRanked_take (int : Bool) (e : Ranked) (l : List Ranked) (k : Nat) :
    (insertRanked int e (l.take k)).take k = (insertRanked int e l).take k := by
  induction l generalizing k with
  | nil => rw [List.take_nil]
  | cons a t ih =>
    cases k with
    | zero => simp
    | succ k =>
      simp only [List.take_succ_cons, insertRanked]
      split
      · cases k with
        | zero => simp
        | succ k => simp [List.take_take]
      · rw [List.take_succ_cons, List.take_succ_cons, ih]

/-- Elements in the order of R110. -/
def rankSorted (int : Bool) (es : List Ranked) : List Ranked := es.foldl (fun acc e => insertRanked int e acc) []

theorem foldl_take_insertRanked (int : Bool) (k : Nat) (es acc : List Ranked) :
    es.foldl (fun acc e => (insertRanked int e acc).take k) (acc.take k) = (es.foldl (fun acc e => insertRanked int e acc) acc).take k := by
  induction es generalizing acc with
  | nil => rfl
  | cons e t ih => rw [List.foldl_cons, List.foldl_cons, take_insertRanked_take, ih]

theorem selectTop_eq (int : Bool) (k : Nat) (es : List Ranked) : selectTop int k es = (rankSorted int es).take k := by
  simpa [selectTop, rankSorted] using foldl_take_insertRanked int k es []

theorem foldl_insertRanked_perm (int : Bool) (es acc : List Ranked) : (es.foldl (fun acc e => insertRanked int e acc) acc).Perm (es ++ acc) := by
  induction es generalizing acc with
  | nil => exact .refl _
  | cons e t ih => exact (ih _).trans (((insertRanked_perm int e acc).append_left t).trans List.perm_middle)

theorem rankSorted_perm (int : Bool) (es : List Ranked) : (rankSorted int es).Perm es := by
  simpa [rankSorted] using foldl_insertRanked_perm int es []

theorem foldl_insertRanked_pairwise {int : Bool} (es : List Ranked) {acc : List Ranked} (hacc : acc.Pairwise (fun a b => ranksBefore int a b = true))
    (hnodup : ((es ++ acc).map (·.pos)).Nodup) :
    (es.foldl (fun acc e => insertRanked int e acc) acc).Pairwise (fun a b => ranksBefore int a b = true) := by
  induction es generalizing acc with
  | nil => exact hacc
  | cons e t ih =>
    have hperm : (t ++ insertRanked int e acc).Perm (e :: t ++ acc) := ((insertRanked_perm int e acc).append_left t).trans List.perm_middle
    refine ih (insertRanked_pairwise hacc fun a ha he => ?_) ((hperm.map _).nodup_iff.2 hnodup)
    refine (List.nodup_cons.1 hnodup).1 (List.mem_map.2 ⟨a, List.mem_append_right t ha, he.symm⟩)

theorem rankSorted_pairwise {int : Bool} {es : List Ranked} (hnodup : (es.map (·.pos)).Nodup) :
    (rankSorted int es).Pairwise (fun a b => ranksBefore int a b = true) :=
  foldl_insertRanked_pairwise es .nil (by simpa using hnodup)

theorem selectTop_pairwise {int : Bool} (k : Nat) {es : List Ranked} (hnodup : (es.map (·.pos)).Nodup) :
    (selectTop int k es).Pairwise (fun a b => ranksBefore int a b = true) := by
  rw [selectTop_eq]
  exact (rankSorted_pairwise hnodup).sublist (List.take_sublist k _)

theorem length_selectTop (int : Bool) (k : Nat) (es : List Ranked) : (selectTop int k es).length = min k es.length := by
  rw [selectTop_eq, List.length_take, (rankSorted_perm int es).length_eq]

theorem mem_of_mem_selectTop {int : Bool} {k : Nat} {es : List Ranked} {a : Ranked} (h : a ∈ selectTop int k es) : a ∈ es := by
  rw [selectTop_eq] at h
  exact (rankSorted_perm int es).mem_iff.1 (List.mem_of_mem_take h)

/-- What a selection leaves out stands behind all that it keeps. -/
theorem ranksBefore_of_notMem_selectTop {int : Bool} {k : Nat} {es : List Ranked} (hnodup : (es.map (·.pos)).Nodup) {a b : Ranked}
    (ha : a ∈ es) (hout : a ∉ selectTop int k es) (hb : b ∈ selectTop int k es) : ranksBefore int b a = true := by
  rw [selectTop_eq] at hout hb
  have hsplit := rankSorted_pairwise (int := int) hnodup
  rw [← List.take_append_drop k (rankSorted int es), List.pairwise_append] at hsplit
  have hmem : a ∈ (rankSorted int es).take k ++ (rankSorted int es).drop k := by
    rw [List.take_append_drop]
    exact (rankSorted_perm int es).mem_iff.2 ha
  exact hsplit.2.2 b hb a ((List.mem_append.1 hmem).resolve_left hout)

/-! ### Greedy sampling -/

/-- The logits of a row with their positions, as the sampler ranks them. -/
def rankedLogits (q : SampleParams) (ls : List Word) : List Ranked := (maskedLogits q ls).zipIdx.map fun x => ⟨x.1, x.2⟩

theorem length_maskedLogits (q : SampleParams) (ls : List Word) : (maskedLogits q ls).length = ls.length := by
  simp [maskedLogits]

theorem rankedLogits_nodup (q : SampleParams) (ls : List Word) : ((rankedLogits q ls).map (·.pos)).Nodup := by
  have h : (rankedLogits q ls).map (·.pos) = List.range (maskedLogits q ls).length := by
    rw [rankedLogits, List.map_map, List.range_eq_range']
    exact List.zipIdx_map_snd 0 (maskedLogits q ls)
  exact h ▸ List.nodup_range

theorem mem_rankedLogits {q : SampleParams} {ls : List Word} {a : Ranked} :
    a ∈ rankedLogits q ls ↔ a.pos < ls.length ∧ (maskedLogits q ls).getD a.pos 0#32 = a.v := by
  obtain ⟨v, pos⟩ := a
  rw [← length_maskedLogits q ls]
  simp only [rankedLogits, List.mem_map, Prod.exists, List.mk_mem_zipIdx_iff_getElem?, Ranked.mk.injEq]
  constructor
  · rintro ⟨_, _, hget, rfl, rfl⟩
    exact ⟨(List.getElem?_eq_some_iff.1 hget).1, by rw [List.getD_eq_getElem?_getD, hget]; rfl⟩
  · rintro ⟨hlt, rfl⟩
    exact ⟨_, _, by rw [List.getD_eq_getElem?_getD, List.getElem?_eq_getElem hlt]; rfl, rfl, rfl⟩

theorem sampleToken_greedy (seed pos stream : Nat) {q : SampleParams} (hq : isZero q.temperature = true) (ls : List Word) :
    sampleToken seed pos stream q ls = ((selectTop false 1 (rankedLogits q ls)).headD ⟨0#32, 0⟩).pos := by
  rw [sampleToken, if_pos hq]
  rfl

/-- A selection of one among some logits is one of them. -/
theorem selectTop_one_logits {q : SampleParams} {ls : List Word} (hls : ls ≠ []) : ∃ a, selectTop false 1 (rankedLogits q ls) = [a] := by
  refine List.length_eq_one_iff.1 ?_
  have hpos := List.length_pos_iff.2 hls
  rw [length_selectTop, rankedLogits, List.length_map, List.length_zipIdx, length_maskedLogits]
  omega

/-- Settles O33: the greedy sampler is a selection of one among the ranked logits. -/
theorem greedySamplingTakesTheMaximum : Obligations.GreedySamplingTakesTheMaximum := by
  unfold Obligations.GreedySamplingTakesTheMaximum
  intro seed pos stream q ls hq hls
  obtain ⟨a, ha⟩ := selectTop_one_logits (q := q) hls
  have hv (seed pos stream : Nat) : sampleToken seed pos stream q ls = a.pos := by
    rw [sampleToken_greedy _ _ _ hq, ha, List.headD_cons]
  obtain ⟨hlt, hget⟩ := mem_rankedLogits.1 (mem_of_mem_selectTop (int := false) (k := 1) (ha ▸ List.mem_singleton_self a))
  refine ⟨fun _ _ _ => by rw [hv, hv], hv seed pos stream ▸ hlt, fun i hi hne => ?_⟩
  rw [hv] at hne ⊢
  have hout : (⟨(maskedLogits q ls).getD i 0#32, i⟩ : Ranked) ∉ selectTop false 1 (rankedLogits q ls) := by
    rw [ha, List.mem_singleton]
    rintro rfl
    exact hne rfl
  dsimp only
  rw [hget]
  exact ranksBefore_of_notMem_selectTop (rankedLogits_nodup q ls) (mem_rankedLogits.2 ⟨hi, rfl⟩) hout (ha ▸ List.mem_singleton_self a)

end Sys2Proof.Machine
end

section
/-! SUPPORT. How a camp command that completes, or that findings of the array checks end, answers (R146, R242, R243), and what an access leaves of
the reads of tables and sequences. -/

namespace Sys2Proof.Machine

/-- A command that comes to a next state lets its program go on from there. -/
theorem runCommand_done {s u : State} {camp : Nat} {w : CmdWord} {r : PitchRecord} {rel : Nat} {p : Program} (hat : AtCommand s camp w r rel p)
    (hnext : HasNext p) {mine : Bool} (hmine : mine = true) {f : Ctx → State → CmdRes} (hdone : f (ctxAt camp r rel p w) s = .done u)
    (hprog : (campOf u camp).prog = (campOf s camp).prog) :
    runCommand s camp w mine f = .next (putCamp u camp { campOf u camp with prog := some (nextProg p), blocked := none }) := by
  have ⟨_, _, hprogram, _⟩ := hat
  rw [runCommand_at hat hmine, hdone]
  exact congrArg Host.Outcome.next (advance_of_hasNext (hprog.trans hprogram) hnext)

/-- Findings that abandon the step take the place of a command that admits its access. -/
theorem runCommand_findings {s : State} {camp : Nat} {w : CmdWord} {r : PitchRecord} {rel : Nat} {p : Program} (hat : AtCommand s camp w r rel p)
    {mine : Bool} (hmine : mine = true) {f : List Finding → Ctx → State → CmdRes} {rs : List (Nat × Nat)} {k : State → CmdRes}
    (hf : ∀ found, f found (ctxAt camp r rel p w) s = withFindings (ctxAt camp r rel p w) found (touched s rs) k) :
    ∀ found u, found.any (findingWaits (touched s rs) false) = false → applyFindings camp r.pitch false found (touched s rs) = (u, true) →
      runCommand s camp w mine (f found) = .next u := by
  intro found u hwaits hstops
  rw [runCommand_at hat hmine, hf, withFindings, if_neg (by simp [hwaits])]
  simp only [hstops]
  rfl

@[simp] theorem withFindings_nil (c : Ctx) (s : State) (k : State → CmdRes) : withFindings c [] s k = k s := rfl

theorem windowFaults_none {s : State} {camp : Nat} {w : CmdWord} {o l : Nat} {write : Bool} (h : WindowHolds s camp w o l write) :
    windowFaults (campOf s camp) (cmdCores w) (cmdTask w) o l write = none := by
  rw [windowFaults, firstFault, List.findSome?_eq_none_iff]
  exact fun y hy => h y.1 (List.fst_mem_of_mem_zipIdx hy)

section
variable {s t : State} (hcfg : t.cfg = s.cfg) (hseqs : t.seqs = s.seqs)

include hcfg in
theorem layerIndex_of_cfg (p layer : Nat) : layerIndex t p layer = layerIndex s p layer := by
  simp [layerIndex, recordOf, hcfg]

include hcfg hseqs in
theorem onLayer_seqs (p h layer : Nat) (f : LayerState → LayerState) : (onLayer t p h layer f).seqs = (onLayer s p h layer f).seqs := by
  have hlive : seqLive t h = seqLive s h := by
    have hentry : seqOf t (handleIndex h) = seqOf s (handleIndex h) := by rw [seqOf, hseqs, seqOf]
    rw [seqLive, hentry, seqLive]
  unfold onLayer
  rw [hlive, layerIndex_of_cfg hcfg]
  split
  · simp [onSeq, seqOf, hseqs]
  · exact hseqs

end

end Sys2Proof.Machine
end

section
/-! PROOF. O20: TOPK (R109 to R111, R149). -/

namespace Sys2Proof.Machine

/-! ### What TOPK reads -/

/-- Entries that a TOPK word asks for. -/
abbrev topkCount (w : CmdWord) : Nat := fld w 111 104 + 1
/-- Lists that it merges. -/
abbrev topkLists (w : CmdWord) : Nat := fld w 117 113 + 1
/-- Bytes that it reads of its slot (R109, R111). -/
abbrev topkSize (w : CmdWord) : Nat := if topkLists w = 1 then 4 * orMax (fld w 103 80) else 8 * topkCount w * topkLists w
/-- Its elements or entries. -/
abbrev topkElems (w : CmdWord) (bs : List Byte) : List Ranked :=
  if topkLists w = 1 then inputElems (orMax (fld w 103 80)) bs else inputEntries (topkCount w * topkLists w) bs
/-- The NaN inputs that it counts (R111). -/
abbrev topkNans (w : CmdWord) (es : List Ranked) : Nat :=
  if topkLists w = 1 ∧ flag w 112 = false then (es.filter fun e => isNaN e.v).length else 0
/-- Its output. -/
abbrev topkOut (w : CmdWord) (es : List Ranked) : List Byte := topBytes (flag w 112) (topkCount w) (selectTop (flag w 112) (topkCount w) es)
/-- Its slot. -/
abbrev topkSlot (c : Ctx) : Nat := fld c.w 51 32 + c.slot

/-- TOPK is well formed, its windows hold its output, and its slot has its input and takes reads (R109, R149, R158). -/
structure TopkReady (s : State) (c : Ctx) (x : Slot) : Prop where
  clear : reservedClear c.w [(52, 32), (125, 64)] = true
  cores : cmdCores c.w ≠ []
  windows : WindowHolds s c.camp c.w (fld c.w 79 64 + c.sp) (topkCount c.w) true
  slot : slotOf s c.pr (topkSlot c) = some x
  size : topkSize c.w ≤ x.size
  route : routeStays c.pr c.rel x.home = true
  readable : canRead x c.rel = true
  running : slicePaused s c.pr x = false
  admitted : CampAdmitted s c.camp [(slotDa s c.pr x, topkSize c.w)]

/-- The table that counts NaN inputs can be read, where a row is to be found for them (R111, R176, R185). -/
def TopkCounts (s : State) (c : Ctx) (nans : Nat) : Prop :=
  nans = 0 ∨ (campOf s c.camp).cfg = none ∨ ∃ y, slotOf s c.pr c.prog.tableSlot = some y ∧ canRead y c.rel = true ∧ slicePaused s c.pr y = false
    ∧ ∀ e ∈ (parseTable (peekBytes s (slotDa s c.pr y) y.size)).rows, e.context + e.newTokens ≤ 2 ^ 32

/-- The state in which TOPK has written its output to each core and released its slot where the word says so. -/
def topkWrite (c : Ctx) (x : Slot) (es : List Ranked) (s : State) : State :=
  let s2 := onCores s c.camp (cmdCores c.w) fun _ _ kc => spWrite kc (cmdTask c.w) (fld c.w 79 64 + c.sp) (topkOut c.w es)
  if flag c.w 52 then putSlot s2 c.pr.pitch (topkSlot c) (releaseSlot x c.rel) else s2

/-- What TOPK does with its elements: it counts, and writes. -/
def topkEffect (c : Ctx) (x : Slot) (es : List Ranked) (s : State) : CmdRes :=
  countTopNan c (fld c.w 125 118) (topkNans c.w es) s fun s1 => .done (topkWrite c x es s1)

section
variable {s : State} {c : Ctx} {x : Slot} (h : TopkReady s c x)
include h

theorem TopkReady.fieldRule : (decide (c.pr.slots ≤ topkSlot c) || (mget (pitchOf s c.pr.pitch).slots (topkSlot c)).isSome) = true := by
  have hslot := h.slot
  unfold slotOf at hslot
  split at hslot
  · simp [hslot]
  · exact absurd hslot (by simp)

/-- Such a TOPK reads its slot, and findings of the read come before its effect. -/
theorem TopkReady.doTopk_reads (found : List Finding) : doTopk found c s = withFindings c found (touched s [(slotDa s c.pr x, topkSize c.w)])
    fun s3 => topkEffect c x (topkElems c.w (peekBytes s3 (slotDa s3 c.pr x) (topkSize c.w))) s3 := by
  have hfaults : slotFaults (cmdCores c.w) x (topkSlot c) 0 0 (topkSize c.w) = none := by
    rw [slotFaults, firstFault, List.findSome?_eq_none_iff]
    intro y _
    rw [if_neg (by have := h.size; omega)]
  unfold doTopk
  dsimp only
  rw [coreCommand_clear h.clear h.fieldRule h.cores, unlessFault_none (windowFaults_none h.windows), withSlot]
  simp only [h.slot]
  rw [unlessFault_none hfaults, routed, if_pos h.route, reading, if_pos ⟨h.readable, h.running⟩, access_admitted h.admitted]
  congr 1
  funext s3
  simp only [topkEffect, topkWrite, Bool.not_eq_true]

end

/-! ### What TOPK does -/

/-- Counting NaN inputs changes the sequences alone, and only where there are some; a row that the table has gets their number (R111). -/
theorem countTopNan_done {s : State} {c : Ctx} {nans : Nat} (h : TopkCounts s c nans) (row : Nat) (k : State → CmdRes) :
    ∃ u, countTopNan c row nans s k = k u ∧ (∃ seqs, u = { s with seqs := seqs }) ∧ (nans = 0 → u = s)
      ∧ ∀ g y e, nans ≠ 0 → (campOf s c.camp).cfg = some g → slotOf s c.pr c.prog.tableSlot = some y →
        (parseTable (peekBytes s (slotDa s c.pr y) y.size)).rows[row]? = some e → u = countSaturated s c.pr.pitch e.handle g.layer nans := by
  unfold countTopNan
  cases hcfg : (campOf s c.camp).cfg with
  | none => exact ⟨s, rfl, ⟨s.seqs, rfl⟩, fun _ => rfl, by simp⟩
  | some g =>
    by_cases hzero : nans = 0
    · exact ⟨s, if_pos hzero, ⟨s.seqs, rfl⟩, fun _ => rfl, fun _ _ _ hne => absurd hzero hne⟩
    · obtain ⟨y, hslot, hread, hpaused, hfit⟩ := (h.resolve_left hzero).resolve_left (by simp [hcfg])
      have hrows : ¬((parseTable (peekBytes s (slotDa s c.pr y) y.size)).rows.any fun r => decide (2 ^ 32 < r.context + r.newTokens)) = true := by
        simpa [List.any_eq_true] using hfit
      simp only [withTable, withSlot, hslot, reading]
      rw [if_neg hzero, if_pos ⟨hread, hpaused⟩, if_neg hrows]
      cases hrow : (parseTable (peekBytes s (slotDa s c.pr y) y.size)).rows[row]? with
      | none =>
        refine ⟨s, rfl, ⟨s.seqs, rfl⟩, fun _ => rfl, fun g' y' e _ _ hy' he => ?_⟩
        obtain rfl := Option.some.inj hy'
        simp [hrow] at he
      | some e =>
        refine ⟨countSaturated s c.pr.pitch e.handle g.layer nans, rfl, ⟨(countSaturated s c.pr.pitch e.handle g.layer nans).seqs, ?_⟩,
          fun h0 => absurd h0 hzero, fun g' y' e' _ hg' hy' he' => ?_⟩
        · unfold countSaturated onLayer
          split
          · rfl
          · rfl
        · obtain rfl := Option.some.inj hy'
          obtain rfl := Option.some.inj (hrow.symm.trans he')
          obtain rfl := Option.some.inj hg'
          rfl

/-- What a TOPK has changed from `s` to `u`. -/
structure TopkDone (s u : State) (c : Ctx) (x : Slot) (es : List Ranked) : Prop where
  core : ∀ k ∈ cmdCores c.w, coreOf (campOf u c.camp) k
    = spWrite (coreOf (campOf s c.camp) k) (cmdTask c.w) (fld c.w 79 64 + c.sp) (topkOut c.w es)
  otherCore : ∀ k, k ∉ cmdCores c.w → coreOf (campOf u c.camp) k = coreOf (campOf s c.camp) k
  prog : (campOf u c.camp).prog = (campOf s c.camp).prog
  slot : slotOf u c.pr (topkSlot c) = some (if flag c.w 52 then releaseSlot x c.rel else x)
  rest : u = { s with camps := u.camps, pitches := u.pitches, seqs := u.seqs }

theorem topkWrite_keeps (c : Ctx) (x : Slot) (es : List Ranked) (s : State) :
    topkWrite c x es s = { s with camps := (topkWrite c x es s).camps, pitches := (topkWrite c x es s).pitches } := by
  unfold topkWrite
  dsimp only
  split
  · rfl
  · rfl

theorem topkWrite_done {c : Ctx} {x : Slot} {s : State} (hslot : slotOf s c.pr (topkSlot c) = some x) (es : List Ranked) :
    TopkDone s (topkWrite c x es s) c x es := by
  have hcamp : campOf (topkWrite c x es s) c.camp
      = eachCore (fun _ _ kc => spWrite kc (cmdTask c.w) (fld c.w 79 64 + c.sp) (topkOut c.w es)) (cmdCores c.w).zipIdx (campOf s c.camp) := by
    unfold topkWrite
    dsimp only
    split
    · exact campOf_onCores _ _ _ _
    · exact campOf_onCores _ _ _ _
  have hfst : (cmdCores c.w).zipIdx.map Prod.fst = cmdCores c.w := List.zipIdx_map_fst 0 (cmdCores c.w)
  refine ⟨fun k hk => ?_, fun k hk => ?_, ?_, ?_, ?_⟩
  · obtain ⟨y, hy, rfl⟩ := List.mem_map.1 (hfst.symm ▸ hk)
    rw [hcamp, coreOf_eachCore _ (hfst.symm ▸ cmdCores_nodup c.w) hy]
  · rw [hcamp, coreOf_eachCore_of_notMem _ (hfst.symm ▸ hk)]
  · rw [hcamp, eachCore_cores]
  · unfold topkWrite
    dsimp only
    split
    · exact slotOf_putSlot_same hslot _
    · exact hslot
  · rw [topkWrite_keeps]

theorem topkEffect_done {s : State} {c : Ctx} {x : Slot} {es : List Ranked} (hslot : slotOf s c.pr (topkSlot c) = some x)
    (hcount : TopkCounts s c (topkNans c.w es)) :
    ∃ u, topkEffect c x es s = .done u ∧ TopkDone s u c x es ∧ (topkNans c.w es = 0 → u.seqs = s.seqs)
      ∧ ∀ g y e, topkNans c.w es ≠ 0 → (campOf s c.camp).cfg = some g → slotOf s c.pr c.prog.tableSlot = some y →
        (parseTable (peekBytes s (slotDa s c.pr y) y.size)).rows[fld c.w 125 118]? = some e →
        u.seqs = (countSaturated s c.pr.pitch e.handle g.layer (topkNans c.w es)).seqs := by
  obtain ⟨v, hdone, ⟨seqs, rfl⟩, hnone, hsome⟩ := countTopNan_done hcount (fld c.w 125 118) fun s1 => .done (topkWrite c x es s1)
  obtain ⟨hcore, hother, hprog, hreleased, hrest⟩ := topkWrite_done (s := { s with seqs := seqs }) hslot es
  refine ⟨_, hdone, ⟨hcore, hother, hprog, hreleased, ?_⟩, fun h0 => ?_, fun g y e hne hg hy he => ?_⟩
  · rw [topkWrite_keeps]
  · rw [topkWrite_keeps]
    exact (congrArg State.seqs (hnone h0) :)
  · rw [topkWrite_keeps]
    exact (congrArg State.seqs (hsome g y e hne hg hy he) :)

/-! ### O20 -/

/-- Settles O20: `TopkReady.doTopk_reads` leads to `topkEffect_done`; what a selection keeps is `selectTop_pairwise` and the lemmas after it. -/
theorem topkWritesTheHighestRanked : Obligations.TopkWritesTheHighestRanked := by
  unfold Obligations.TopkWritesTheHighestRanked
  refine ⟨?_, fun int k es hnodup => ⟨selectTop_pairwise k hnodup, length_selectTop int k es, fun a => mem_of_mem_selectTop,
    fun a ha hout b hb => ranksBefore_of_notMem_selectTop hnodup ha hout hb⟩⟩
  intro s camp w r rel p x hat hnext ⟨hop, hclear⟩ hcores n o len k lists size bs es hwin hslot hsize hroute hread hpaused hadmit nans hcount
  have hready : TopkReady s (ctxAt camp r rel p w) x := ⟨hclear, hcores, hwin, hslot, hsize, hroute, hread, hpaused, hadmit⟩
  have hmine : decide (cmdOpcode w = 0x12) = true := decide_eq_true hop
  refine ⟨runCommand_findings hat hmine hready.doTopk_reads, ?_⟩
  have helems : topkElems w (peekBytes (touched s [(slotDa s r x, size)]) (slotDa (touched s [(slotDa s r x, size)]) r x) size) = es := by
    rw [peekBytes_touched, slotDa_touched]
  have hcount' : TopkCounts (touched s [(slotDa s r x, size)]) (ctxAt camp r rel p w) nans := by
    simpa only [TopkCounts, campOf_touched, slotOf_touched, slicePaused_touched, peekBytes_touched, slotDa_touched] using hcount
  obtain ⟨u, heffect, hu, hzero, hsome⟩ := topkEffect_done ((slotOf_touched s _ r n).trans hslot) hcount'
  have hdone : doTopk [] (ctxAt camp r rel p w) s = .done u := by
    rw [hready.doTopk_reads, withFindings_nil, helems]
    exact heffect
  refine ⟨_, runCommand_done hat hnext hmine hdone (by rw [hu.prog, campOf_touched]), fun c hc => ?_, fun c hc => ?_, ?_, ?_, fun h0 => ?_,
    fun g y e hne hg hy he => ?_⟩
  · rw [campOf_putCamp]
    exact (hu.core c hc).trans (by rw [campOf_touched])
  · rw [campOf_putCamp]
    exact (hu.otherCore c hc).trans (by rw [campOf_touched])
  · exact hu.slot
  · rw [hu.rest]
    rfl
  · exact (hzero h0).trans (by simp)
  · refine (hsome g y e hne (by rwa [campOf_touched]) (by rwa [slotOf_touched]) (by rwa [peekBytes_touched, slotDa_touched])).trans ?_
    exact onLayer_seqs (by simp) (by simp) _ _ _ _

end Sys2Proof.Machine
end

section
/-! SUPPORT. What an access notes leaves of addresses and of the hash accumulators, and what putting an instance does (R113, R368). -/

namespace Sys2Proof.Machine

section
variable (s : State) (rs : List (Nat × Nat))

theorem translate_of_cfg {s t : State} (h : t.cfg = s.cfg) (r : PitchRecord) (a len : Nat) (write : Bool) :
    translate t r a len write = translate s r a len write := by
  simp only [translate, h]

@[simp] theorem daOf_touched (r : PitchRecord) (a : Nat) : daOf (touched s rs) r a = daOf s r a := by
  rw [daOf, translate_of_cfg (s := s) (by simp), daOf]

theorem addressFault_touched (r : PitchRecord) (core a len : Nat) (write : Bool) :
    addressFault (touched s rs) r core a len write = addressFault s r core a len write := by
  rw [addressFault, translate_of_cfg (s := s) (by simp), addressFault]

@[simp] theorem hashOf_touched (i : Nat) : hashOf (touched s rs) i = hashOf s i := by
  simp [hashOf]

@[simp] theorem recordOf_touched (p : Nat) : recordOf (touched s rs) p = recordOf s p := by
  simp [recordOf]

@[simp] theorem syncOf_touched (p n : Nat) : syncOf (touched s rs) p n = syncOf s p n := by
  simp [syncOf, pitchOf]

end

theorem hashOf_putHash {s : State} {i : Nat} (hi : i < s.hash.length) (h : HashInst) : hashOf (putHash s i h) i = h := by
  simp [hashOf, putHash, lset, hi]

/-- A range of no bytes meets no port, stack or unit. -/
theorem admitted_nothing (s : State) (a : Nat) : Admitted s [(a, 0)] ∧ touched s [(a, 0)] = s := by
  have hunits : unitsAsked s [(a, 0)] = [] := by simp [unitsAsked, unitsOf]
  refine ⟨⟨by simp [rangeStalls], fun u hu => ?_⟩, ?_⟩
  · rw [hunits] at hu
    exact absurd hu List.not_mem_nil
  · rw [touched, hunits]
    rfl

end Sys2Proof.Machine
end

section
/-! PROOF. O21: the hash accumulators (R113 to R120). -/

namespace Sys2Proof.Machine

/-! ### HOPEN and HCLOSE (R115, R116, R119) -/

theorem doHopen_opens {s : State} {c : Ctx} {a : Nat} (ha : a = fld c.w 79 32) (hclear : reservedClear c.w [(79, 32)] = true) (halign : a % 32 = 0)
    (haddr : addressFault s c.pr noCore a 32 false = none) {d : List Byte} (hd : d = peekBytes s (daOf s c.pr a) 32)
    (hinst : leAt d 0 1 ≤ 7) (hmin : 1 ≤ leAt d 4 4) (hmax : leAt d 4 4 < 2 ^ 24) (hpad : zerosAt d 1 3 = true) (htail : zerosAt d 24 8 = true)
    (hgranted : bitOf c.pr.hash (leAt d 0 1) = true) (hclosed : (hashOf s (leAt d 0 1)).epoch = none)
    (hadmit : CampAdmitted s c.camp [(daOf s c.pr a, 32)]) :
    doHopen [] c s = .done (putHash (touched s [(daOf s c.pr a, 32)]) (leAt d 0 1)
      ⟨some ⟨c.pr.pitch, leAt d 4 4, leAt d 8 8, leAt d 16 8, 0, 0, none⟩, []⟩) := by
  subst ha hd
  unfold doHopen
  dsimp only
  rw [campCommand_clear hclear (decide_eq_true halign), unlessFault_none haddr, access_admitted hadmit, withFindings_nil,
    daOf_touched, peekBytes_touched, if_neg (by simp [hpad, htail]; omega), if_neg (by simp [hgranted]), hashOf_touched]
  simp only [hclosed]

/-- A wait that is recorded names its command and waits to be taken again. -/
theorem block_eq (s : State) (camp : Nat) (w : CmdWord) (reason : WaitReason) :
    ∃ b : Blocked, b.reason = reason ∧ b.w = w ∧ b.ready = false ∧ block s camp w reason = putCamp s camp { campOf s camp with blocked := some b } := by
  unfold block
  dsimp only
  cases (campOf s camp).blocked with
  | none => exact ⟨_, rfl, rfl, rfl, rfl⟩
  | some b =>
    by_cases h : b.reason = reason ∧ b.w = w
    · exact ⟨{ b with ready := false }, h.1, h.2, rfl, by simp only [if_pos h]⟩
    · exact ⟨⟨reason, w, s.cairn.count, false⟩, rfl, rfl, rfl, by simp only [if_neg h]⟩

theorem doHclose_closes {s : State} {c : Ctx} {e : Epoch} (hclear : reservedClear c.w [(34, 32), (63, 48)] = true)
    (hgranted : bitOf c.pr.hash (fld c.w 34 32) = true) (hsync : fld c.w 63 48 < c.pr.syncCount)
    (hepoch : (hashOf s (fld c.w 34 32)).epoch = some e) (hpitch : e.pitch = c.pr.pitch) (hopen : e.closing = none) :
    doHclose c s = .settled (block (putHash s (fld c.w 34 32)
      { hashOf s (fld c.w 34 32) with epoch := some { e with closing := some (fld c.w 63 48, c.camp) } }) c.camp c.w (.hclose (fld c.w 34 32))) := by
  unfold doHclose
  dsimp only
  rw [campCommand_clear hclear rfl, if_neg (by simp [hgranted]), if_neg (by omega)]
  simp only [hepoch]
  rw [if_neg (by simp [hopen]), if_neg (by simp [hopen, hpitch])]

/-! ### HADD (R117, R118) -/

/-- The records of the cores of the mask, in rank order. -/
abbrev haddRecords (s : State) (c : Ctx) : List (Nat × Int) :=
  ((cmdCores c.w).map fun core =>
    hashRecords (fld c.w 63 48) (spRead (coreOf (campOf s c.camp) core) (cmdTask c.w) (fld c.w 47 32 + c.sp) (16 * fld c.w 63 48))).flatten

/-- The instance that the word names. -/
abbrev haddInst (c : Ctx) : Nat := fld c.w 66 64

/-- The spill records of the epoch after the command. -/
abbrev haddSpilled (s : State) (c : Ctx) : Nat :=
  ((hashOf (contributeAll c.pr (haddInst c) (haddRecords s c) s) (haddInst c)).epoch.map (·.spilled)).getD 0

/-- The part of the spill area that the command writes. -/
abbrev haddRanges (s : State) (c : Ctx) (e : Epoch) : List (Nat × Nat) :=
  [(daOf s c.pr (e.spillBase + 16 * e.spilled), 16 * (haddSpilled s c - e.spilled))]

/-- HADD is well formed, its records lie in its windows and within the limits of the open epoch `e`, and its spill records have their place (R117,
R118, R149). -/
structure HaddReady (s : State) (c : Ctx) (e : Epoch) : Prop where
  clear : reservedClear c.w [(66, 32)] = true
  cores : cmdCores c.w ≠ []
  count : 1 ≤ fld c.w 63 48
  aligned : (fld c.w 47 32 + c.sp) % 2 = 0
  windows : WindowHolds s c.camp c.w (fld c.w 47 32 + c.sp) (2 * fld c.w 63 48) false
  epoch : (hashOf s (haddInst c)).epoch = some e
  pitch : e.pitch = c.pr.pitch
  isOpen : e.closing = none
  contributions : e.contributions + (haddRecords s c).length ≤ e.maxContributions
  values : ∀ kv ∈ haddRecords s c, kv.2.natAbs < 2 ^ 47
  spills : e.spilled < haddSpilled s c → addressFault s c.pr (lowCore c.w) e.spillBase (16 * haddSpilled s c) true = none
  instRuns : sliceLimited s (haddInst c) = false
  campRuns : sliceLimited s (sliceOf c.camp) = false
  admitted : Admitted s (haddRanges s c e)

theorem firstRefused_none {e : Epoch} {recs : List (Nat × Int)} (hcount : e.contributions + recs.length ≤ e.maxContributions)
    (hvalues : ∀ kv ∈ recs, kv.2.natAbs < 2 ^ 47) : firstRefused e recs = none := by
  rw [firstRefused, Option.map_eq_none_iff, List.find?_eq_none]
  intro x hx
  have hplace : x.2 < recs.length := List.snd_lt_of_mem_zipIdx hx
  have hvalue := hvalues x.1 (List.fst_mem_of_mem_zipIdx hx)
  simp only [Bool.or_eq_true, decide_eq_true_eq]
  omega

/-- Such a HADD writes its spill area after the findings of its access, and adds its records. -/
theorem HaddReady.doHadd_adds {s : State} {c : Ctx} {e : Epoch} (h : HaddReady s c e) (found : List Finding) :
    doHadd found c s = withFindings c found (touched s (haddRanges s c e))
      fun s1 => .done (contributeAll c.pr (haddInst c) (haddRecords s c) s1) := by
  have hrule : (decide (1 ≤ fld c.w 63 48) && decide ((fld c.w 47 32 + c.sp) % 2 = 0)) = true := by simp [h.count, h.aligned]
  have haddr : (if e.spilled < haddSpilled s c then addressFault s c.pr (lowCore c.w) e.spillBase (16 * haddSpilled s c) true else none) = none := by
    split
    · exact h.spills ‹_›
    · rfl
  unfold doHadd
  dsimp only
  rw [coreCommand_clear h.clear hrule h.cores, unlessFault_none (windowFaults_none h.windows)]
  simp only [h.epoch]
  rw [if_neg (by simp [h.pitch, h.isOpen]), firstRefused_none h.contributions h.values, Option.map_none, unlessFault_none rfl, unlessFault_none haddr,
    if_neg (by simp [h.instRuns, h.campRuns]), access_admitted ⟨.inr h.campRuns, h.admitted⟩]

section
variable {s : State} {r : PitchRecord} {i key : Nat} {v : Int} {e : Epoch} (hepoch : (hashOf s i).epoch = some e)
include hepoch

theorem contribute_way {way : Nat} (hway : wayOf (hashOf s i) key = some way) : contribute s r i key v
    = putHash s i ⟨some { e with contributions := e.contributions + 1 },
      mset (hashOf s i).entries way (addEntry ((mget (hashOf s i).entries way).getD ⟨key, 0, 0, 0⟩) v)⟩ := by
  unfold contribute
  simp only [hepoch, hway]

theorem contribute_spill (hway : wayOf (hashOf s i) key = none) : contribute s r i key v
    = pokeBytes (putHash s i ⟨some { e with contributions := e.contributions + 1, spilled := e.spilled + 1 }, (hashOf s i).entries⟩)
      (daOf s r (e.spillBase + 16 * e.spilled)) (leBytes 4 key ++ leBytes 8 (unsignedOf 64 v) ++ leBytes 4 0) := by
  unfold contribute
  simp only [hepoch, hway]

end

/-- A new entry is one with no contribution, which gets its first. -/
theorem addEntry_getD (o : Option HashEntry) (key : Nat) (v : Int) : addEntry (o.getD ⟨key, 0, 0, 0⟩) v
    = match o with
      | some old => ⟨old.key, old.sum + v, res7 ((old.res : Int) + v), old.count + 1⟩
      | none => ⟨key, v, res7 v, 1⟩ := by
  cases o with
  | none => simp [addEntry]
  | some old => rfl

/-- The 16 bytes of a spill record (R117). -/
abbrev spillBytes (key : Nat) (v : Int) : List Byte := leBytes 4 key ++ leBytes 8 (unsignedOf 64 v) ++ leBytes 4 0

section
variable {s : State} {c : Ctx} {e : Epoch} {key : Nat} {v : Int} (hi : haddInst c < s.hash.length) (hepoch : (hashOf s (haddInst c)).epoch = some e)
  (hrecs : haddRecords s c = [(key, v)])
include hi hepoch hrecs

/-- A record whose key has a way leaves the spill area alone, and no unit notes an access. -/
theorem haddSpilled_way {way : Nat} (hway : wayOf (hashOf s (haddInst c)) key = some way) : haddSpilled s c = e.spilled
    ∧ Admitted s (haddRanges s c e) ∧ touched s (haddRanges s c e) = s := by
  have hspilled : haddSpilled s c = e.spilled := by
    rw [haddSpilled, hrecs, contributeAll, contributeAll, contribute_way hepoch hway, hashOf_putHash hi]
    rfl
  rw [haddRanges, hspilled, Nat.sub_self]
  exact ⟨rfl, admitted_nothing s _⟩

/-- A record without a way takes the next place of the spill area. -/
theorem haddSpilled_spill (hway : wayOf (hashOf s (haddInst c)) key = none) : haddSpilled s c = e.spilled + 1
    ∧ haddRanges s c e = [(daOf s c.pr (e.spillBase + 16 * e.spilled), 16)] := by
  have hspilled : haddSpilled s c = e.spilled + 1 := by
    rw [haddSpilled, hrecs, contributeAll, contributeAll, contribute_spill hepoch hway]
    exact congrArg (fun h : HashInst => (h.epoch.map (·.spilled)).getD 0) (hashOf_putHash hi _)
  rw [haddRanges, hspilled, Nat.add_sub_cancel_left]
  exact ⟨rfl, rfl⟩

theorem HaddReady.doHadd_way (h : HaddReady s c e) {way : Nat} (hway : wayOf (hashOf s (haddInst c)) key = some way) : doHadd [] c s
    = .done (putHash s (haddInst c) ⟨some { e with contributions := e.contributions + 1 },
      mset (hashOf s (haddInst c)).entries way (addEntry ((mget (hashOf s (haddInst c)).entries way).getD ⟨key, 0, 0, 0⟩) v)⟩) := by
  rw [h.doHadd_adds, withFindings_nil, (haddSpilled_way hi hepoch hrecs hway).2.2, hrecs, contributeAll, contributeAll, contribute_way hepoch hway]

theorem HaddReady.doHadd_spill (h : HaddReady s c e) (hway : wayOf (hashOf s (haddInst c)) key = none) :
    ∃ u, doHadd [] c s = .done u ∧ (campOf u c.camp).prog = (campOf s c.camp).prog ∧ (campOf u c.camp).cores = (campOf s c.camp).cores
      ∧ hashOf u (haddInst c) = ⟨some { e with contributions := e.contributions + 1, spilled := e.spilled + 1 }, (hashOf s (haddInst c)).entries⟩
      ∧ peekBytes u (daOf s c.pr (e.spillBase + 16 * e.spilled)) 16 = spillBytes key v
      ∧ MemoryElsewhere s u (daOf s c.pr (e.spillBase + 16 * e.spilled)) 16 := by
  have hadd := contribute_spill (s := touched s (haddRanges s c e)) (r := c.pr) (v := v) (by rwa [hashOf_touched]) (by rwa [hashOf_touched])
  rw [daOf_touched, hashOf_touched] at hadd
  have hbytes := congrArg (fun u => u.mem.bytes) hadd
  have hcamp := congrArg (fun u => campOf u c.camp) hadd
  have hhash := congrArg (fun u => hashOf u (haddInst c)) hadd
  rw [campOf_pokeBytes] at hcamp
  have hsame := congrArg (fun x : Camp => (x.prog, x.cores)) (campOf_touched s (haddRanges s c e) c.camp)
  have hkept := (congrArg (fun x : Camp => (x.prog, x.cores)) hcamp).trans hsame
  obtain ⟨hpeek, helse⟩ := written_of_bytes_eq (s := s) (hbytes.trans (congrArg (wrBytes · _ _) (bytes_touched s (haddRanges s c e))))
  refine ⟨_, ?_, congrArg Prod.fst hkept, congrArg Prod.snd hkept,
    hhash.trans (hashOf_putHash (by simpa using hi) _), hpeek, helse⟩
  rw [h.doHadd_adds, withFindings_nil, hrecs]
  rfl

end

/-! ### The closing merge (R119, R120) -/

/-- Waits that end keep their camp's program and what they waited for. -/
theorem campOf_releaseBlocked (s : State) (p : Nat) (f : WaitReason → Bool) (camp : Nat) :
    (campOf (releaseBlocked s p f) camp).prog = (campOf s camp).prog
      ∧ ∀ b, (campOf (releaseBlocked s p f) camp).blocked = some b → ∃ b0, (campOf s camp).blocked = some b0 ∧ b0.reason = b.reason := by
  simp only [campOf, mgetD, releaseBlocked, mget_mmap]
  cases hx : mget s.camps camp with
  | none => exact ⟨rfl, fun b hb => ⟨b, hb, rfl⟩⟩
  | some x =>
    simp only [Option.map_some, Option.getD_some]
    cases hb0 : x.blocked with
    | none => exact ⟨rfl, fun b hb => absurd (hb0.symm.trans hb) (by simp)⟩
    | some b0 =>
      dsimp only
      split
      · refine ⟨rfl, fun b hb => ⟨b0, rfl, ?_⟩⟩
        rw [← Option.some.inj hb]
      · exact ⟨rfl, fun b hb => ⟨b0, rfl, by rw [Option.some.inj (hb0.symm.trans hb)]⟩⟩

/-- The output of a merge of an instance's entries and the epoch's spill records. -/
abbrev mergeOutput (s : State) (i : Nat) (r : PitchRecord) (e : Epoch) : List Byte :=
  closeBytes (mergedRuns (hashOf s i).entries (spillRecords e.spilled (peekBytes s (daOf s r e.spillBase) (16 * e.spilled))))

/-- The merge has written its output and freed its instance, and no wait for the instance stands. -/
abbrev mergeFreed (s : State) (i : Nat) (r : PitchRecord) (e : Epoch) : State :=
  releaseBlocked (putHash (pokeBytes s (daOf s r e.outBase) (mergeOutput s i r e)) i HashInst.fresh) e.pitch fun w => decide (w = .hopen i)

/-- The merge has signalled its sync object as well. -/
abbrev mergeSignalled (s : State) (i n : Nat) (r : PitchRecord) (e : Epoch) : State :=
  putSync (mergeFreed s i r e) e.pitch n { syncOf s e.pitch n with count := (syncOf s e.pitch n).count + 1 }

theorem mergeFreed_camp (s : State) (i : Nat) (r : PitchRecord) (e : Epoch) (camp : Nat) :
    (campOf (mergeFreed s i r e) camp).prog = (campOf s camp).prog
      ∧ ∀ b, (campOf (mergeFreed s i r e) camp).blocked = some b → ∃ b0, (campOf s camp).blocked = some b0 ∧ b0.reason = b.reason := by
  have hpoke := campOf_pokeBytes s (daOf s r e.outBase) (mergeOutput s i r e) camp
  obtain ⟨hprog, hblocked⟩ := campOf_releaseBlocked (putHash (pokeBytes s (daOf s r e.outBase) (mergeOutput s i r e)) i HashInst.fresh) e.pitch
    (fun w => decide (w = .hopen i)) camp
  refine ⟨hprog.trans (congrArg Camp.prog hpoke :), fun b hb => ?_⟩
  obtain ⟨b0, hb0, hreason⟩ := hblocked b hb
  exact ⟨b0, (congrArg Camp.blocked hpoke :).symm.trans hb0, hreason⟩

theorem mergeHash_merges {s : State} {i n camp : Nat} {r : PitchRecord} {e : Epoch} (hepoch : (hashOf s i).epoch = some e)
    (hclosing : e.closing = some (n, camp)) (hrecord : recordOf s e.pitch = some r)
    (haddr : addressFault s r noCore e.outBase (mergeOutput s i r e).length true = none) (hcount : (syncOf s e.pitch n).count + 1 < 2 ^ 32)
    (hwaits : ∀ c b, (campOf s c).blocked = some b → b.reason ≠ .sync n) : mergeHash s i = advance (mergeSignalled s i n r e) camp := by
  have hsync : syncOf (mergeFreed s i r e) e.pitch n = syncOf s e.pitch n := by simp [syncOf, pitchOf]
  have hsignal : signalSync (mergeFreed s i r e) e.pitch n 1 = some (mergeSignalled s i n r e) := by
    rw [signalSync_of_none (by rwa [hsync]), hsync]
    intro c b hb hreason
    obtain ⟨b0, hb0, hsame⟩ := (mergeFreed_camp s i r e c).2 b hb
    exact hwaits c b0 hb0 (hsame.trans hreason)
  unfold mergeHash
  simp only [hepoch, hclosing, hrecord, haddr, hsignal]

/-! ### O21 -/

/-- Settles O21: HOPEN and HCLOSE by `doHopen_opens` and `doHclose_closes`, HADD by `HaddReady.doHadd_adds`, the merge by `mergeHash_merges`. -/
theorem hashAccumulatorsSumAndClose : Obligations.HashAccumulatorsSumAndClose := by
  unfold Obligations.HashAccumulatorsSumAndClose
  refine ⟨?_, ?_, ?_, ?_⟩
  · intro s camp w r rel p hat hnext
    refine ⟨?_, ?_⟩
    · intro ⟨hop, hclear⟩ halign haddr d i hinst hmin hmax hpad htail hgranted hclosed hadmit
      have hopen := doHopen_opens (c := ctxAt camp r rel p w) rfl hclear halign haddr rfl hinst hmin hmax hpad htail hgranted hclosed hadmit
      have hexec := runCommand_done (mine := decide (cmdOpcode w = 0x13)) hat hnext (decide_eq_true hop) hopen (by simp [campOf])
      have hhash : (touched s [(daOf s r (fld w 79 32), 32)]).hash = s.hash := by simp
      rw [← campOf_touched s [(daOf s r (fld w 79 32), 32)], ← hhash]
      exact hexec
    · intro ⟨hop, hclear⟩ hgranted hsync e hepoch hpitch hopen
      have hclose := doHclose_closes (s := s) (c := ctxAt camp r rel p w) hclear hgranted hsync hepoch hpitch hopen
      obtain ⟨b, hreason, hword, hready, hblock⟩ := block_eq (putHash s (fld w 34 32)
        { hashOf s (fld w 34 32) with epoch := some { e with closing := some (fld w 63 48, camp) } }) camp w (.hclose (fld w 34 32))
      refine ⟨b, hreason, hword, hready, ?_⟩
      show runCommand s camp w _ _ = _
      rw [runCommand_at hat (decide_eq_true hop), hclose]
      exact congrArg Host.Outcome.next hblock
  · intro s camp w r rel p e hat hnext ⟨hop, hclear⟩ hcores hcount o i recs spilled rs halign hwin hepoch hpitch hopen hmax hvalues haddr hslice
      hadmit
    have hready : HaddReady s (ctxAt camp r rel p w) e := ⟨hclear, hcores, hcount, halign, hwin, hepoch, hpitch, hopen, hmax, hvalues, haddr, hslice,
      hadmit.1.resolve_left (by simp [rs]), hadmit.2⟩
    refine ⟨runCommand_findings hat (decide_eq_true hop) hready.doHadd_adds, ?_⟩
    show runCommand s camp w _ _ = _
    rw [runCommand_at hat (decide_eq_true hop), hready.doHadd_adds, withFindings_nil]
    rfl
  · intro s camp w r rel p core e hat hnext ⟨hop, hclear⟩ hcores hone o i rec1 key v halign hwin hi hepoch hpitch hopen hmax hvalue hslice hcamp
    have hmine : decide (cmdOpcode w = 0x14) = true := decide_eq_true hop
    have hrecs : haddRecords s (ctxAt camp r rel p w) = [(key, v)] := by
      simp [haddRecords, hcores, hone, hashRecords, rec1, key, v, o]
    have hready (haddr : e.spilled < haddSpilled s (ctxAt camp r rel p w) → _)
        (hadmit : Admitted s (haddRanges s (ctxAt camp r rel p w) e)) : HaddReady s (ctxAt camp r rel p w) e :=
      ⟨hclear, by simp [hcores], hone.ge, halign, by simpa only [hone] using hwin, hepoch, hpitch, hopen, by rw [hrecs]; exact hmax,
        by simpa [hrecs] using hvalue, haddr, hslice, hcamp, hadmit⟩
    refine ⟨fun way hway => ?_, fun hway haddr => ?_⟩
    · obtain ⟨hspilled, hadmit, -⟩ := haddSpilled_way hi hepoch hrecs hway
      have hdone := (hready (fun hlt => absurd hspilled hlt.ne') hadmit).doHadd_way hi hepoch hrecs hway
      refine ⟨_, runCommand_done hat hnext hmine hdone rfl, rfl, ?_, ?_⟩
      · rw [campOf_putCamp]
        rfl
      · exact (hashOf_putHash hi _).trans (congrArg (fun x => (⟨_, mset _ way x⟩ : HashInst)) (addEntry_getD _ key v))
    · intro a hadmit
      obtain ⟨hspilled, hranges⟩ := haddSpilled_spill hi hepoch hrecs hway
      have hlow : lowCore w = core := by simp [lowCore, hcores]
      obtain ⟨u, hdone, hprog, hcore, hhash, hpeek, helse⟩ :=
        (hready (fun _ => by rw [hspilled, hlow, haddr]) (hranges ▸ hadmit)).doHadd_spill hi hepoch hrecs hway
      refine ⟨_, runCommand_done hat hnext hmine hdone hprog, ?_, hhash, hpeek, helse⟩
      rw [campOf_putCamp]
      exact hcore
  · intro s i n camp r e p h8 hi hprog hnext hepoch hclosing hrecord spills out haddr hcount hwaits hadmit
    have hout : mergeOutput (touched s (mergeRanges s i)) i r e = out := by
      rw [mergeOutput, daOf_touched, hashOf_touched, peekBytes_touched]
    have hmerge := mergeHash_merges (s := touched s (mergeRanges s i)) (by rwa [hashOf_touched]) hclosing (by rwa [recordOf_touched])
      (by rwa [addressFault_touched, hout]) (by rwa [syncOf_touched]) (fun c => by rw [campOf_touched]; exact hwaits c)
    have hprog' := (mergeFreed_camp (touched s (mergeRanges s i)) i r e camp).1.trans ((congrArg Camp.prog (campOf_touched s _ camp)).trans hprog)
    rw [advance_of_hasNext (s := mergeSignalled _ i n r e) hprog' hnext] at hmerge
    have hbytes : (mergeHash (touched s (mergeRanges s i)) i).mem.bytes = wrBytes s.mem.bytes (daOf s r e.outBase) out := by
      rw [hmerge, ← hout, ← daOf_touched s (mergeRanges s i), ← bytes_touched s (mergeRanges s i)]
      rfl
    obtain ⟨hpeek, helse⟩ := written_of_bytes_eq hbytes
    refine ⟨mergeHash (touched s (mergeRanges s i)) i, ?_, ?_, ?_, ?_, hpeek, helse, ?_⟩
    · show execHashCloseMerge i [] s = _
      rw [execHashCloseMerge, hashOk, if_pos (decide_eq_true h8), doHashClose]
      simp only [hepoch, hclosing, Option.bind_some, Option.map_some]
      rw [rangerAccess_admitted hadmit]
      rfl
    · rw [hmerge, campOf_putCamp]
    · rw [hmerge, campOf_putCamp]
    · rw [hmerge]
      exact hashOf_putHash (by simpa using hi) _
    · rw [hmerge]
      exact (congrArg Sync.count (syncOf_putSync_same _ _ _ _)).trans (by rw [syncOf_touched])

end Sys2Proof.Machine
end

section
/-! SUPPORT. O5: what keeps the event log sound (R113, R413): the writers of the log, and the results of commands and rows. -/

namespace Sys2Proof.Machine

/-! ### Changes of the state that keep the log sound -/

theorem logOk_iff (s : State) : s.logOk = true ↔
    s.ev.window.length ≤ 1024 ∧ s.ev.written < 2 ^ 32 ∧ s.ev.ramRing.length ≤ 65536 ∧ s.hash.length = 8 := by
  simp [State.logOk, and_assoc]

/-- The window, the count and the number of hash accumulators are kept, and the ring in Ranger memory is kept or cut to its size. -/
theorem logOk_of_bounds {s t : State} (h : s.logOk = true) (hwindow : t.ev.window = s.ev.window) (hwritten : t.ev.written = s.ev.written)
    (hring : t.ev.ramRing = s.ev.ramRing ∨ t.ev.ramRing.length ≤ 65536) (hhash : t.hash.length = s.hash.length) : t.logOk = true := by
  obtain ⟨hw, hn, hr, hh⟩ := (logOk_iff s).1 h
  exact (logOk_iff t).2 ⟨hwindow ▸ hw, hwritten ▸ hn, hring.elim (fun e => e ▸ hr) id, hhash.trans hh⟩

/-- A change that touches neither the event log nor the hash accumulators; `simp` knows which operations those are. -/
theorem logOk_congr {s t : State} (h : s.logOk = true) (ht : t.ev = s.ev ∧ t.hash = s.hash) : t.logOk = true := by
  obtain ⟨hev, hhash⟩ := ht
  exact logOk_of_bounds h (by rw [hev]) (by rw [hev]) (.inl (by rw [hev])) (by rw [hhash])

theorem ite_logOk {q : Prop} [Decidable q] {s t : State} (hs : s.logOk = true) (ht : t.logOk = true) :
    (if q then s else t).logOk = true := by
  split
  · exact hs
  · exact ht

theorem getD_logOk {o : Option State} {d : State} (ho : ∀ t, o = some t → t.logOk = true) (hd : d.logOk = true) : (o.getD d).logOk = true := by
  cases o with
  | none => exact hd
  | some t => exact ho t rfl

/-- The state of a pair that an operation answers. -/
theorem fst_logOk {α : Type} {x : State × α} {t : State} {a : α} (hx : x = (t, a)) (h : x.1.logOk = true) : t.logOk = true := by
  subst hx
  exact h

theorem foldl_logOk {α : Type} {f : State → α → State} {l : List α} {s : State} (hf : ∀ t, t.logOk = true → ∀ a, (f t a).logOk = true)
    (h : s.logOk = true) : (l.foldl f s).logOk = true := by
  induction l generalizing s with
  | nil => exact h
  | cons a t ih => exact ih (hf _ h _)

theorem iterate_logOk {f : State → State} {n : Nat} {s : State} (hf : ∀ t, t.logOk = true → (f t).logOk = true) (h : s.logOk = true) :
    (iterate f n s).logOk = true := by
  induction n generalizing s with
  | zero => exact h
  | succ n ih => exact ih (hf _ h)

/-! ### Results of camp commands and of rows -/

/-- Every state that the result of a camp command holds has a sound log. -/
def CmdRes.LogOk : CmdRes → Prop
  | .done t => t.logOk = true
  | .settled t => t.logOk = true
  | .wait _ => True
  | .fault _ => True

theorem CmdRes.LogOk.congr {r r1 : CmdRes} (h : r.LogOk) (e : r = r1) : r1.LogOk := e ▸ h

theorem CmdRes.LogOk.ite {q : Prop} [Decidable q] {r r1 : CmdRes} (hr : r.LogOk) (hr1 : r1.LogOk) : (if q then r else r1).LogOk := by
  split
  · exact hr
  · exact hr1

/-- The next state, where a row has one, has a sound log. -/
def AnswerLogOk : Answer State → Prop
  | .next t => t.logOk = true
  | .fault _ => True
  | .refused _ => True

theorem AnswerLogOk.next {a : Answer State} {t : State} (h : AnswerLogOk a) (e : a = .next t) : t.logOk = true := by
  subst e
  exact h

theorem AnswerLogOk.ite {q : Prop} [Decidable q] {a b : Answer State} (ha : AnswerLogOk a) (hb : AnswerLogOk b) :
    AnswerLogOk (if q then a else b) := by
  split
  · exact ha
  · exact hb

/-- A row that is refused where its operand names no unit. -/
theorem nextIf_logOk {q : Prop} [Decidable q] {t : State} {e : Refusal} (h : t.logOk = true) :
    AnswerLogOk (if q then .next t else .refused e) :=
  .ite h trivial

/-- A row of a pitch, which does nothing where the pitch has no record. -/
theorem pitchRow_logOk {p : Nat} {s : State} {f : PitchRecord → State} (h : s.logOk = true) (hf : ∀ r, (f r).logOk = true) :
    AnswerLogOk (if pitchOk p then
      match recordOf s p with
      | none => .next s
      | some r => .next (f r)
      else .refused .noSuchUnit) := by
  split
  · split
    · exact h
    · exact hf _
  · trivial

end Sys2Proof.Machine
end

section
/-! SUPPORT. O5: the event log stays sound under the named operations over the state (R113, R413). -/

namespace Sys2Proof.Machine

theorem putCamp_logOk {s : State} {camp : Nat} {c : Camp} (h : s.logOk = true) : (putCamp s camp c).logOk = true := logOk_congr h (by simp)

theorem onCore_logOk {s : State} {camp core : Nat} {f : Core → Core} (h : s.logOk = true) : (onCore s camp core f).logOk = true :=
  logOk_congr h (by simp)

theorem onPitch_logOk {s : State} {p : Nat} {f : Pitch → Pitch} (h : s.logOk = true) : (onPitch s p f).logOk = true := logOk_congr h (by simp)

theorem putSeq_logOk {s : State} {i : Nat} {e : SeqEntry} (h : s.logOk = true) : (putSeq s i e).logOk = true := logOk_congr h (by simp)

theorem onSeq_logOk {s : State} {i : Nat} {f : SeqEntry → SeqEntry} (h : s.logOk = true) : (onSeq s i f).logOk = true :=
  logOk_congr h (by simp)

theorem putFn_logOk {s : State} {fn : Nat} {f : Function} (h : s.logOk = true) : (putFn s fn f).logOk = true := logOk_congr h (by simp)

theorem putLink_logOk {s : State} {l : Nat} {k : Link} (h : s.logOk = true) : (putLink s l k).logOk = true := logOk_congr h (by simp)

theorem send_logOk {s : State} {o : Output} (h : s.logOk = true) : (send s o).logOk = true := logOk_congr h (by simp)

theorem tellGroup_logOk {s : State} {p : Nat} {d : LeadDecision} (h : s.logOk = true) : (tellGroup s p d).logOk = true :=
  logOk_congr h (by simp)

theorem freeEntry_logOk {s : State} {i : Nat} (h : s.logOk = true) : (freeEntry s i).logOk = true := logOk_congr h (by simp)

end Sys2Proof.Machine
end

section
/-! SUPPORT. O5: the event log stays sound under completions, transport messages and holding a sequence (R113, R413). -/

namespace Sys2Proof.Machine

theorem sendMessage_logOk {s : State} {n type : Nat} {body : List Byte} (h : s.logOk = true) : (sendMessage s n type body).logOk = true :=
  logOk_congr h (by simp)

theorem answer_logOk {s : State} {o : Origin} {int : Bool} {bytes : List Byte} {tokens : List Nat} (h : s.logOk = true) :
    (answer s o int bytes tokens).logOk = true := logOk_congr h (by simp)

theorem finish_logOk {s : State} {r : Request} {result endCode handle value : Nat} (h : s.logOk = true) :
    (finish s r result endCode handle value).logOk = true := logOk_congr h (by simp)

theorem finishPlain_logOk {s : State} {r : Request} {result : Nat} (h : s.logOk = true) : (finishPlain s r result).logOk = true :=
  logOk_congr h (by simp)

theorem onReq_logOk {s : State} {rid : Nat} {f : Request → Request} (h : s.logOk = true) : (onReq s rid f).logOk = true :=
  logOk_congr h (by simp)

theorem endPark_logOk {s : State} {i result value : Nat} {silent : Bool} (h : s.logOk = true) : (endPark s i result value silent).logOk = true := by
  unfold endPark
  dsimp only
  split
  · exact h
  · split
    · exact rangerEvent_logOk _ _ _ _ (logOk_congr h (by simp))
    · exact ite_logOk (rangerEvent_logOk _ _ _ _ (logOk_congr h (by simp))) (finish_logOk (rangerEvent_logOk _ _ _ _ (logOk_congr h (by simp))))

theorem losePark_logOk {s : State} {i : Nat} (h : s.logOk = true) : (losePark s i).logOk = true := by
  unfold losePark
  exact ite_logOk (onSeq_logOk (endPark_logOk h)) (endPark_logOk h)

theorem endHeld_logOk {result : Nat} {l : List Request} {s : State} (h : s.logOk = true) : (endHeld result l s).logOk = true :=
  logOk_congr h (by simp)

theorem holdSeq_logOk {s0 : State} {i cause result : Nat} (h : s0.logOk = true) : (holdSeq s0 i cause result).logOk = true := by
  unfold holdSeq
  refine ite_logOk (ite_logOk (losePark_logOk h) h) ?_
  dsimp only
  split
  · refine endHeld_logOk ?_
    refine ite_logOk (putSeq_logOk (ite_logOk (losePark_logOk h) h)) ?_
    exact rangerEvent_logOk _ _ _ _ (putSeq_logOk (ite_logOk (losePark_logOk h) h))
  · exact endHeld_logOk (finish_logOk (rangerEvent_logOk _ _ _ _ (putSeq_logOk (ite_logOk (losePark_logOk h) h))))

theorem holdAll_logOk {cause result : Nat} {l : List Nat} {s : State} (h : s.logOk = true) : (holdAll cause result l s).logOk = true := by
  induction l generalizing s with
  | nil => exact h
  | cons x t ih =>
    rw [holdAll]
    exact ih (holdSeq_logOk h)

end Sys2Proof.Machine
end

section
/-! SUPPORT. O5: the event log stays sound under the operations of the context store (R113, R413). -/

namespace Sys2Proof.Machine

theorem pokeBytes_logOk {s : State} {da : Nat} {bs : List Byte} (h : s.logOk = true) : (pokeBytes s da bs).logOk = true :=
  logOk_congr h (by simp)

theorem placeIn_logOk {s : State} {r : PitchRecord} {seg da size len : Nat} {res : Nat × State} (h : s.logOk = true)
    (hx : placeIn s r seg da size len = some res) : res.2.logOk = true := by
  unfold placeIn at hx
  dsimp only at hx
  split at hx
  · cases hx
    exact h
  · split at hx
    · cases hx
      exact logOk_congr h (by simp)
    · cases hx

theorem allocHot_logOk {s : State} {p len : Nat} {res : Nat × State} (h : s.logOk = true) (hx : allocHot s p len = some res) :
    res.2.logOk = true := by
  unfold allocHot at hx
  split at hx
  · cases hx
  · dsimp only at hx
    split at hx
    · cases hx
    · next hy =>
        cases hx
        exact logOk_congr (placeIn_logOk h hy) (by simp)

theorem allocWarm_logOk {s : State} {p n len : Nat} {res : Nat × State} (h : s.logOk = true) (hx : allocWarm s p n len = some res) :
    res.2.logOk = true := by
  unfold allocWarm at hx
  split at hx
  · cases hx
  · dsimp only at hx
    split at hx
    · cases hx
    · split at hx
      · cases hx
      · next hy =>
          cases hx
          exact logOk_congr (placeIn_logOk h hy) (by simp)

theorem freeRange_logOk {s : State} {p a : Nat} (h : s.logOk = true) : (freeRange s p a).logOk = true := logOk_congr h (by simp)

theorem putPage_logOk {s : State} {p n : Nat} {g : Page} (h : s.logOk = true) : (putPage s p n g).logOk = true := logOk_congr h (by simp)

theorem freePage_logOk {s : State} {p n : Nat} (h : s.logOk = true) : (freePage s p n).logOk = true := logOk_congr h (by simp)

theorem dropRefs_logOk {p : Nat} {l : List Nat} {s : State} (h : s.logOk = true) : (dropRefs p l s).logOk = true := logOk_congr h (by simp)

theorem discardAll_logOk {l : List Nat} {s : State} (h : s.logOk = true) : (discardAll l s).logOk = true := logOk_congr h (by simp)

theorem leaveBatch_logOk {s : State} {p : Nat} {is : List Nat} (h : s.logOk = true) : (leaveBatch s p is).logOk = true :=
  logOk_congr h (by simp)

theorem holdAtBoundary_logOk {s : State} {i cause result : Nat} (h : s.logOk = true) : (holdAtBoundary s i cause result).logOk = true := by
  unfold holdAtBoundary
  exact leaveBatch_logOk (holdSeq_logOk (logOk_congr h (by simp)))

theorem holdAllAtBoundary_logOk {cause result : Nat} {l : List Nat} {s : State} (h : s.logOk = true) :
    (holdAllAtBoundary cause result l s).logOk = true := by
  induction l generalizing s with
  | nil => exact h
  | cons x t ih =>
    rw [holdAllAtBoundary]
    exact ih (holdAtBoundary_logOk h)

theorem resummarise_logOk {s : State} {p n : Nat} (h : s.logOk = true) : (resummarise s p n).logOk = true := by
  unfold resummarise
  exact ite_logOk h (logOk_congr h (by simp))

theorem resuper_logOk {s : State} {i j k : Nat} (h : s.logOk = true) : (resuper s i j k).logOk = true := by
  unfold resuper
  dsimp only
  split
  · exact h
  · exact ite_logOk h (logOk_congr h (by simp))

end Sys2Proof.Machine
end

section
/-! SUPPORT. O5: the event log stays sound under abandoned steps and camp faults (R113, R413). -/

namespace Sys2Proof.Machine

theorem endQueued_logOk {l : List Request} {s : State} (h : s.logOk = true) : (endQueued l s).logOk = true := logOk_congr h (by simp)

theorem abortPark_logOk {s : State} {i result value : Nat} {silent : Bool} (h : s.logOk = true) :
    (abortPark s i result value silent).logOk = true := by
  unfold abortPark
  dsimp only
  split
  · exact h
  · exact ite_logOk (holdSeq_logOk (onSeq_logOk (endPark_logOk h))) (endPark_logOk h)

theorem devicePark_logOk {s : State} {r : PitchRecord} {i : Nat} (h : s.logOk = true) : (devicePark s r i).logOk = true := by
  unfold devicePark
  refine ite_logOk h ?_
  refine ite_logOk ?_ ?_
  · refine abortPark_logOk (tellGroup_logOk (onSeq_logOk (endQueued_logOk ?_)))
    split
    · exact h
    · exact logOk_congr h (by simp)
  · refine tellGroup_logOk (onSeq_logOk (endQueued_logOk ?_))
    split
    · exact h
    · exact logOk_congr h (by simp)

theorem deviceParks_logOk {r : PitchRecord} {l : List Nat} {s : State} (h : s.logOk = true) : (deviceParks r l s).logOk = true := by
  induction l generalizing s with
  | nil => exact h
  | cons x t ih =>
    rw [deviceParks]
    exact ih (devicePark_logOk h)

theorem residueEvent_logOk {s : State} {camp core p code : Nat} {m : Mismatch} {spares : Nat} (h : s.logOk = true) :
    (residueEvent s camp core p code m spares).logOk = true := by
  unfold residueEvent
  exact writeEvent_logOk _ _ _ _ _ h

theorem retireLanes_logOk {camp core p : Nat} {l : List Mismatch} {s : State} (h : s.logOk = true) : (retireLanes camp core p l s).logOk = true := by
  induction l generalizing s with
  | nil => exact h
  | cons x t ih =>
    rw [retireLanes]
    exact ih (residueEvent_logOk (logOk_congr h (by simp)))

theorem refillSlots_logOk {r : PitchRecord} {rel : Nat} {l : NMap Slot} {s : State} (h : s.logOk = true) : (refillSlots r rel l s).logOk = true :=
  logOk_congr h (by simp)

theorem fenceOne_logOk {s : State} {camp core : Nat} (h : s.logOk = true) : (fenceOne s camp core).logOk = true := by
  unfold fenceOne
  dsimp only
  split
  · exact logOk_congr h (by simp)
  · split
    · exact writeEvent_logOk _ _ _ _ _ (refillSlots_logOk (putCamp_logOk (onPitch_logOk (writeEvent_logOk _ _ _ _ _ (logOk_congr h (by simp))))))
    · refine ite_logOk (writeEvent_logOk _ _ _ _ _ (logOk_congr h (by simp))) ?_
      exact deviceParks_logOk (writeEvent_logOk _ _ _ _ _ (onPitch_logOk (leaveBatch_logOk (writeEvent_logOk _ _ _ _ _ (logOk_congr h (by simp))))))

theorem closeEpochs_logOk {s : State} {p : Nat} (h : s.logOk = true) : (closeEpochs s p).logOk = true :=
  logOk_of_bounds h rfl rfl (.inl rfl) (List.length_map _)

theorem freeLists_logOk {p : Nat} {l : List Chosen} {s : State} (h : s.logOk = true) : (freeLists p l s).logOk = true :=
  logOk_congr h (by simp)

theorem abandonStep_logOk {s : State} {p : Nat} (h : s.logOk = true) : (abandonStep s p).logOk = true := by
  unfold abandonStep
  exact onPitch_logOk (freeLists_logOk (discardAll_logOk (closeEpochs_logOk (logOk_congr h (by simp)))))

theorem loseCore_logOk {s : State} {camp core p : Nat} {m : Mismatch} (h : s.logOk = true) : (loseCore s camp core p m).logOk = true := by
  unfold loseCore
  exact ite_logOk h (fenceOne_logOk (onCore_logOk (residueEvent_logOk h)))

theorem makeRepair_logOk {s : State} {p : Nat} {l : Repair} (h : s.logOk = true) : (makeRepair s p l).logOk = true := by
  unfold makeRepair
  split
  · exact logOk_congr h (by simp)
  · exact ite_logOk h (ite_logOk (loseCore_logOk h) (retireLanes_logOk h))
  · exact loseCore_logOk h

theorem makeRepairs_logOk {p : Nat} {l : List Repair} {s : State} (h : s.logOk = true) : (makeRepairs p l s).logOk = true := by
  induction l generalizing s with
  | nil => exact h
  | cons x t ih =>
    rw [makeRepairs]
    exact ih (makeRepair_logOk h)

theorem repairNow_logOk {s : State} {p : Nat} (h : s.logOk = true) : (repairNow s p).logOk = true := by
  unfold repairNow
  exact makeRepairs_logOk (logOk_congr h (by simp))

theorem dropBlock_logOk {da : Nat} {l : List Nat} {s : State} (h : s.logOk = true) : (dropBlock da l s).logOk = true :=
  logOk_congr h (by simp)

theorem rerunStep_logOk {s : State} {p : Nat} (h : s.logOk = true) : (rerunStep s p).logOk = true := by
  unfold rerunStep
  exact repairNow_logOk (onPitch_logOk (abandonStep_logOk h))

theorem failStep_logOk {s : State} {p result : Nat} (h : s.logOk = true) : (failStep s p result).logOk = true := by
  unfold failStep
  exact onPitch_logOk (leaveBatch_logOk (holdAll_logOk (abandonStep_logOk h)))

theorem uncorrectableWord_logOk {s : State} {p : Nat} (h : s.logOk = true) : (uncorrectableWord s p).logOk = true := by
  unfold uncorrectableWord
  exact ite_logOk (onPitch_logOk (rerunStep_logOk h)) (failStep_logOk h)

theorem raiseFault_logOk {s : State} {camp : Nat} {f : CampFault} {opcode attempt : Nat} (h : s.logOk = true) :
    (raiseFault s camp f opcode attempt).logOk = true := by
  unfold raiseFault
  split
  · exact h
  · exact failStep_logOk (writeEvent_logOk _ _ _ _ _ h)

theorem fenceCamp_logOk {s : State} {camp core : Nat} (h : s.logOk = true) : (fenceCamp s camp core).logOk = true := by
  unfold fenceCamp
  split
  · exact logOk_congr h (by simp)
  · exact fenceOne_logOk (rerunStep_logOk (logOk_congr h (by simp)))

end Sys2Proof.Machine
end

section
/-! SUPPORT. O5: the event log stays sound under the events of the memory arrays (R113, R413). -/

namespace Sys2Proof.Machine

theorem pageLost_logOk {s : State} {p n copy code : Nat} (h : s.logOk = true) : (pageLost s p n copy code).logOk = true := by
  unfold pageLost
  exact ite_logOk (logOk_congr h (by simp)) (holdAllAtBoundary_logOk (putPage_logOk (rangerEvent_logOk _ _ _ _ h)))

theorem markChannel_logOk {s : State} {ch seconds : Nat} (h : s.logOk = true) : (markChannel s ch seconds).logOk = true := by
  unfold markChannel
  exact ite_logOk h (rangerEvent_logOk _ _ _ _ (logOk_congr h (by simp)))

theorem countCorrection_logOk {s : State} {ch : Nat} (h : s.logOk = true) : (countCorrection s ch).logOk = true := by
  unfold countCorrection
  exact ite_logOk (markChannel_logOk (logOk_congr h (by simp))) (logOk_congr h (by simp))

theorem hbmCorrected_logOk {s : State} {source da symbol : Nat} (h : s.logOk = true) : (hbmCorrected s source da symbol).logOk = true := by
  unfold hbmCorrected
  exact countCorrection_logOk (eventOnce_logOk _ _ _ (fun _ h1 => writeEvent_logOk _ _ _ _ _ h1) h)

theorem hbmBad_logOk {s : State} {source da : Nat} {address : Bool} (h : s.logOk = true) : (hbmBad s source da address).logOk = true := by
  unfold hbmBad
  exact markChannel_logOk (writeEvent_logOk _ _ _ _ _ h)

theorem rerunAll_logOk {l : List Nat} {s : State} (h : s.logOk = true) : (rerunAll l s).logOk = true := by
  induction l generalizing s with
  | nil => exact h
  | cons x t ih =>
    rw [rerunAll]
    exact ih (ite_logOk h (rerunStep_logOk h))

theorem larderBad_logOk {s : State} {source p da : Nat} (h : s.logOk = true) : (larderBad s source p da).logOk = true := by
  unfold larderBad
  exact writeEvent_logOk _ _ _ _ _ h

end Sys2Proof.Machine
end

section
/-! SUPPORT. O5: the event log stays sound under weight regions and coded regions (R113, R413). -/

namespace Sys2Proof.Machine

theorem noteRegion_logOk {g : Option Nat} {l : List Nat} {s : State} (h : s.logOk = true) : (noteRegion g l s).logOk = true :=
  logOk_congr h (by simp)

theorem holdRegions_logOk {g : Option Nat} {l : List Nat} {s : State} (h : s.logOk = true) : (holdRegions g l s).logOk = true := by
  induction l generalizing s with
  | nil => exact h
  | cons x t ih =>
    rw [holdRegions]
    exact ih (onPitch_logOk (leaveBatch_logOk (noteRegion_logOk (holdAll_logOk (abandonStep_logOk h)))))

theorem modelIntegrity_logOk {s : State} {p da : Nat} (h : s.logOk = true) : (modelIntegrity s p da).logOk = true := by
  unfold modelIntegrity
  exact ite_logOk (holdRegions_logOk h) (rangerEvent_logOk _ _ _ _ (holdRegions_logOk h))

theorem weightRefetchedEvent_logOk {s : State} {p da : Nat} (h : s.logOk = true) : (weightRefetchedEvent s p da).logOk = true := by
  unfold weightRefetchedEvent
  exact rangerEvent_logOk _ _ _ _ h

theorem goldenFailed_logOk {s : State} {p da : Nat} {t : LoadedTensor} {j : Nat} (h : s.logOk = true) : (goldenFailed s p da t j).logOk = true := by
  unfold goldenFailed
  exact onPitch_logOk (dropBlock_logOk (modelIntegrity_logOk h))

theorem codedFailed_logOk {s : State} {p da : Nat} {c : CodedRegion} {i : Nat} (h : s.logOk = true) : (codedFailed s p da c i).logOk = true := by
  unfold codedFailed
  exact onPitch_logOk (modelIntegrity_logOk h)

theorem cxlEvent_logOk {s : State} {source p da : Nat} (h : s.logOk = true) : (cxlEvent s source p da).logOk = true := by
  unfold cxlEvent
  exact writeEvent_logOk _ _ _ _ _ h

theorem cxlBad_logOk {s : State} {p da : Nat} (h : s.logOk = true) : (cxlBad s p da).logOk = true := by
  unfold cxlBad
  exact cxlEvent_logOk (logOk_congr h (by simp))

theorem decodeEvent_logOk {s : State} {source p at_ : Nat} {f : DecodeFault} (h : s.logOk = true) : (decodeEvent s source p at_ f).logOk = true := by
  unfold decodeEvent
  exact writeEvent_logOk _ _ _ _ _ h

theorem refetchCoded_logOk {source p : Nat} {c : CodedRegion} {base gbase : Nat} {poison : Bool} {i : Nat} {s : State} (h : s.logOk = true) :
    (refetchCoded source p c base gbase poison i s).1.logOk = true := by
  unfold refetchCoded
  dsimp only
  split
  · exact codedFailed_logOk h
  · split
    · exact codedFailed_logOk (cxlEvent_logOk h)
    · split
      · exact codedFailed_logOk (ite_logOk (cxlEvent_logOk (decodeEvent_logOk h)) (decodeEvent_logOk h))
      · exact weightRefetchedEvent_logOk (logOk_congr h (by simp))

theorem readBlocks_logOk {source p : Nat} {c : CodedRegion} {base gbase : Nat} {poison : Bool} {l : List Nat} {s : State} (h : s.logOk = true) :
    (readBlocks source p c base gbase poison l s).1.logOk = true := by
  induction l generalizing s with
  | nil =>
    rw [readBlocks]
    exact h
  | cons x t ih =>
    rw [readBlocks]
    split
    · split
      · next hx => exact fst_logOk hx (ih h)
      · next hx => exact fst_logOk hx (ih h)
    · dsimp only
      split
      · exact h
      · split
        · exact holdAllAtBoundary_logOk (decodeEvent_logOk h)
        · split
          · next hx => exact fst_logOk hx (refetchCoded_logOk (decodeEvent_logOk h))
          · next hx =>
              split
              · next hx1 => exact fst_logOk hx1 (ih (fst_logOk hx (refetchCoded_logOk (decodeEvent_logOk h))))
              · next hx1 => exact fst_logOk hx1 (ih (fst_logOk hx (refetchCoded_logOk (decodeEvent_logOk h))))

theorem readCoded_logOk {s : State} {source : Nat} {r : PitchRecord} {c : CodedRegion} {o n : Nat} {poison : Bool} (h : s.logOk = true) :
    (readCoded s source r c o n poison).1.logOk = true := by
  unfold readCoded
  split
  · next hx => exact fst_logOk hx (readBlocks_logOk h)
  · next hx => exact fst_logOk hx (readBlocks_logOk h)

theorem storeBlocks_logOk {r : PitchRecord} {c : CodedRegion} {base : Nat} {l : List Nat} {l1 : List Byte} {s : State} (h : s.logOk = true) :
    (storeBlocks r c base l l1 s).logOk = true := by
  induction l generalizing l1 s with
  | nil => exact h
  | cons x t ih =>
    rw [storeBlocks]
    exact ih (logOk_congr h (by simp))

theorem writeCoded_logOk {s : State} {source : Nat} {r : PitchRecord} {c : CodedRegion} {o : Nat} {bs : List Byte} (h : s.logOk = true) :
    (writeCoded s source r c o bs).1.logOk = true := by
  unfold writeCoded
  dsimp only
  split
  · exact storeBlocks_logOk h
  · split
    · next hx => exact fst_logOk hx (readBlocks_logOk h)
    · next hx => exact storeBlocks_logOk (fst_logOk hx (readBlocks_logOk h))

end Sys2Proof.Machine
end

section
/-! SUPPORT. O5: the event log stays sound under the findings of array checks (R113, R413). -/

namespace Sys2Proof.Machine

theorem slotBad_logOk {s : State} {p slot : Nat} (h : s.logOk = true) : (slotBad s p slot).logOk = true := by
  unfold slotBad
  split
  · exact ite_logOk (pokeBytes_logOk (rerunStep_logOk h)) (uncorrectableWord_logOk h)
  · exact uncorrectableWord_logOk h

theorem scrubCoded_logOk {s : State} {da : Nat} {poison : Bool} (h : s.logOk = true) : (scrubCoded s da poison).logOk = true := by
  unfold scrubCoded
  split
  · exact h
  · exact ite_logOk h (refetchCoded_logOk (logOk_congr h (by simp)))

theorem scrubWeights_logOk {s : State} {da : Nat} {poison : Bool} (h : s.logOk = true) : (scrubWeights s da poison).logOk = true := by
  unfold scrubWeights
  split
  · exact scrubCoded_logOk h
  · refine ite_logOk h ?_
    refine ite_logOk (goldenFailed_logOk h) ?_
    exact ite_logOk (goldenFailed_logOk (cxlBad_logOk h)) (weightRefetchedEvent_logOk (logOk_congr h (by simp)))

theorem rebuildRowStarts_logOk {s : State} {p k : Nat} {poison : Bool} (h : s.logOk = true) : (rebuildRowStarts s p k poison).logOk = true := by
  unfold rebuildRowStarts
  split
  · refine ite_logOk h ?_
    refine ite_logOk (goldenFailed_logOk h) ?_
    refine ite_logOk (goldenFailed_logOk (cxlBad_logOk h)) ?_
    dsimp only
    split
    · exact goldenFailed_logOk (cxlBad_logOk h)
    · split
      · exact goldenFailed_logOk h
      · exact weightRefetchedEvent_logOk (logOk_congr h (by simp))
  · exact h

theorem hotCopyBad_logOk {s : State} {p n : Nat} (h : s.logOk = true) : (hotCopyBad s p n).logOk = true := by
  unfold hotCopyBad
  split
  · exact h
  · exact h
  · exact pageLost_logOk h

theorem warmCopyBad_logOk {s : State} {p n : Nat} (h : s.logOk = true) : (warmCopyBad s p n).logOk = true := by
  unfold warmCopyBad
  split
  · exact pageLost_logOk h
  · exact pageLost_logOk h
  · exact h

theorem contentBad_logOk {s : State} {da : Nat} {tile poison : Bool} {l : HbmContent} (h : s.logOk = true) :
    (contentBad s da tile poison l).logOk = true := by
  unfold contentBad
  split
  · exact ite_logOk h (scrubWeights_logOk h)
  · exact rebuildRowStarts_logOk h
  · exact hotCopyBad_logOk h
  · exact resummarise_logOk h
  · exact resuper_logOk h
  · exact holdAllAtBoundary_logOk h
  · exact logOk_congr h (by simp)
  · exact holdAtBoundary_logOk h
  · exact holdAllAtBoundary_logOk h
  · exact uncorrectableWord_logOk h
  · exact h

theorem capacityBad_logOk {s : State} {da : Nat} {l : HbmContent} (h : s.logOk = true) : (capacityBad s da l).logOk = true := by
  unfold capacityBad
  split
  · exact warmCopyBad_logOk h
  · split
    · exact goldenFailed_logOk h
    · exact h
  · exact contentBad_logOk h

theorem larderFound_logOk {s : State} {camp p da : Nat} {k : State → State} (h : s.logOk = true) (hk : ∀ t, t.logOk = true → (k t).logOk = true) :
    (larderFound s camp p da k).logOk = true := by
  unfold larderFound
  exact hk _ (larderBad_logOk h)

theorem hashEntryBad_logOk {s : State} {camp p inst entry : Nat} (h : s.logOk = true) : (hashEntryBad s camp p inst entry).logOk = true := by
  unfold hashEntryBad
  exact larderFound_logOk h (fun _ h1 => uncorrectableWord_logOk h1)

theorem applyFinding_logOk {s : State} {camp p : Nat} {tile : Bool} {l : Finding} (h : s.logOk = true) :
    (applyFinding s camp p tile l).logOk = true := by
  unfold applyFinding
  split
  · exact eventOnce_logOk _ _ _ (fun _ h1 => writeEvent_logOk _ _ _ _ _ h1) h
  · exact larderFound_logOk h (fun _ h1 => h1)
  · exact larderFound_logOk h (fun _ h1 => slotBad_logOk h1)
  · exact larderFound_logOk h (fun _ h1 => uncorrectableWord_logOk h1)
  · exact hashEntryBad_logOk h
  · exact larderFound_logOk h (fun _ h1 => holdAtBoundary_logOk h1)
  · exact larderFound_logOk h (fun _ h1 => rerunAll_logOk h1)
  · exact hashEntryBad_logOk h
  · exact eventOnce_logOk _ _ _ (fun _ h1 => writeEvent_logOk _ _ _ _ _ h1) h
  · exact uncorrectableWord_logOk (writeEvent_logOk _ _ _ _ _ h)
  · exact hbmCorrected_logOk h
  · exact contentBad_logOk (hbmBad_logOk h)
  · exact capacityBad_logOk (cxlEvent_logOk h)

theorem applyFindings_logOk {camp p : Nat} {tile : Bool} {l : List Finding} {s : State} (h : s.logOk = true) :
    (applyFindings camp p tile l s).1.logOk = true := by
  induction l generalizing s with
  | nil =>
    rw [applyFindings]
    exact h
  | cons x t ih =>
    rw [applyFindings]
    split
    · exact applyFinding_logOk h
    · exact ih (applyFinding_logOk h)

theorem rangerFinding_logOk {s0 : State} {p : Nat} {f : Finding} (h : s0.logOk = true) : (rangerFinding s0 p f).logOk = true := by
  unfold rangerFinding
  dsimp only
  split
  · exact eventOnce_logOk _ _ _ (fun _ h1 => writeEvent_logOk _ _ _ _ _ (logOk_congr h1 (by simp))) h
  · exact slotBad_logOk (larderBad_logOk (logOk_congr h (by simp)))
  · exact holdAtBoundary_logOk (larderBad_logOk (logOk_congr h (by simp)))
  · exact rerunAll_logOk (larderBad_logOk (logOk_congr h (by simp)))
  · exact hbmCorrected_logOk (logOk_congr h (by simp))
  · exact contentBad_logOk (hbmBad_logOk (logOk_congr h (by simp)))
  · exact capacityBad_logOk (cxlBad_logOk h)
  · exact h

theorem rangerFindings_logOk {p : Nat} {l : List Finding} {s : State} (h : s.logOk = true) : (rangerFindings p l s).logOk = true := by
  induction l generalizing s with
  | nil => exact h
  | cons x t ih =>
    rw [rangerFindings]
    exact ih (rangerFinding_logOk h)

end Sys2Proof.Machine
end

section
/-! SUPPORT. O5: the event log stays sound under accesses to memory (R113, R413). -/

namespace Sys2Proof.Machine

theorem rangerAccess_logOk {s : State} {rs : List (Nat × Nat)} {k : State → State} (h : s.logOk = true)
    (hk : ∀ t, t.logOk = true → (k t).logOk = true) : (rangerAccess s rs k).logOk = true := by
  unfold rangerAccess
  exact ite_logOk h (ite_logOk (logOk_congr h (by simp)) (hk _ (logOk_congr h (by simp))))

theorem rangerReads_logOk {s : State} {p : Nat} {found : List Finding} {rs : List (Nat × Nat)} {k : State → State} (h : s.logOk = true)
    (hk : ∀ t, t.logOk = true → (k t).logOk = true) : (rangerReads s p found rs k).logOk = true := by
  unfold rangerReads
  exact ite_logOk h (rangerAccess_logOk h (fun _ h1 => hk _ (rangerFindings_logOk h1)))

end Sys2Proof.Machine
end

section
/-! SUPPORT. O5: the event log stays sound under the camp sequencer (R113, R413). -/

namespace Sys2Proof.Machine

theorem moveTo_logOk {s : State} {camp : Nat} {ls : List LoopFrame} {pc : Nat} (h : s.logOk = true) : (moveTo s camp ls pc).logOk = true := by
  unfold moveTo
  dsimp only
  split
  · exact h
  · exact ite_logOk (raiseFault_logOk (logOk_congr h (by simp))) (logOk_congr h (by simp))

theorem advance_logOk {s : State} {camp : Nat} (h : s.logOk = true) : (advance s camp).logOk = true := by
  unfold advance
  split
  · exact h
  · exact moveTo_logOk h

theorem block_logOk {s : State} {camp : Nat} {w : CmdWord} {r : WaitReason} (h : s.logOk = true) : (block s camp w r).logOk = true :=
  logOk_congr h (by simp)

theorem settle_logOk {s : State} {camp : Nat} {w : CmdWord} {r : CmdRes} (h : s.logOk = true) (hk : r.LogOk) : (settle s camp w r).logOk = true := by
  cases r with
  | done s1 => exact advance_logOk hk
  | wait r => exact block_logOk h
  | fault f => exact raiseFault_logOk h
  | settled s1 => exact hk

theorem takeCommand_logOk {s : State} {camp : Nat} {w : CmdWord} {mine : Bool} {f : Ctx → State → CmdRes} (h : s.logOk = true)
    (hk : ∀ a t, t.logOk = true → (f a t).LogOk) : (takeCommand s camp w mine f).logOk = true := by
  unfold takeCommand
  dsimp only
  split
  · exact ite_logOk (settle_logOk h (hk _ _ h)) h
  · exact h

theorem runCommand_logOk {s : State} {camp : Nat} {w : CmdWord} {mine : Bool} {f : Ctx → State → CmdRes} (h : s.logOk = true)
    (hk : ∀ a t, t.logOk = true → (f a t).LogOk) : AnswerLogOk (runCommand s camp w mine f) := by
  unfold runCommand
  exact nextIf_logOk (takeCommand_logOk h (fun _ _ h1 => hk _ _ h1))

theorem coreCommand_logOk {w : CmdWord} {fields : List (Nat × Nat)} {rule : Bool} {k : List Nat → CmdRes} (hk : ∀ a, (k a).LogOk) :
    (coreCommand w fields rule k).LogOk := by
  unfold coreCommand
  exact .ite trivial (hk _)

theorem campCommand_logOk {w : CmdWord} {fields : List (Nat × Nat)} {rule : Bool} {k : CmdRes} (hk : k.LogOk) :
    (campCommand w fields rule k).LogOk := by
  unfold campCommand
  exact .ite trivial hk

theorem unlessFault_logOk {f : Option CampFault} {k : CmdRes} (hk : k.LogOk) : (unlessFault f k).LogOk := by
  unfold unlessFault
  split
  · exact trivial
  · exact hk

theorem onCores_logOk {s : State} {camp : Nat} {cores : List Nat} {f : Nat → Nat → Core → Core} (h : s.logOk = true) :
    (onCores s camp cores f).logOk = true := logOk_congr h (by simp)

theorem putSlot_logOk {s : State} {p n : Nat} {x : Slot} (h : s.logOk = true) : (putSlot s p n x).logOk = true := logOk_congr h (by simp)

theorem withSlot_logOk {s : State} {c : Ctx} {n core : Nat} {k : Slot → CmdRes} (hk : ∀ a, (k a).LogOk) : (withSlot s c n core k).LogOk := by
  unfold withSlot
  split
  · exact trivial
  · exact hk _

theorem reading_logOk {c : Ctx} {s : State} {x : Slot} {n : Nat} {k : CmdRes} (hk : k.LogOk) : (reading c s x n k).LogOk := by
  unfold reading
  exact .ite hk trivial

theorem writing_logOk {c : Ctx} {s : State} {x : Slot} {n core : Nat} {k : CmdRes} (hk : k.LogOk) : (writing c s x n core k).LogOk := by
  unfold writing
  exact .ite trivial (.ite hk trivial)

theorem withFindings_logOk {c : Ctx} {found : List Finding} {s : State} {k : State → CmdRes} (h : s.logOk = true)
    (hk : ∀ t, t.logOk = true → (k t).LogOk) : (withFindings c found s k).LogOk := by
  unfold withFindings
  refine .ite trivial ?_
  split
  · next hx => exact fst_logOk hx (applyFindings_logOk h)
  · next hx => exact hk _ (fst_logOk hx (applyFindings_logOk h))

theorem withTileFindings_logOk {c : Ctx} {found : List Finding} {s : State} {k : State → CmdRes} (h : s.logOk = true)
    (hk : ∀ t, t.logOk = true → (k t).LogOk) : (withTileFindings c found s k).LogOk := by
  unfold withTileFindings
  refine .ite trivial ?_
  split
  · next hx => exact fst_logOk hx (applyFindings_logOk h)
  · next hx => exact hk _ (fst_logOk hx (applyFindings_logOk h))

theorem access_logOk {c : Ctx} {s : State} {rs : List (Nat × Nat)} {k : State → CmdRes} (h : s.logOk = true)
    (hk : ∀ t, t.logOk = true → (k t).LogOk) : (access c s rs k).LogOk := by
  unfold access
  refine .ite trivial ?_
  exact .ite trivial (.ite (block_logOk (ite_logOk h (logOk_congr h (by simp)))) (hk _ (logOk_congr h (by simp))))

theorem withStream_logOk {c : Ctx} {poison : Bool} {l : List (Nat × Nat)} {s : State} {l1 : State → CmdRes} (h : s.logOk = true)
    (hk : ∀ t, t.logOk = true → (l1 t).LogOk) : (withStream c poison l s l1).LogOk := by
  induction l generalizing s with
  | nil =>
    rw [withStream]
    exact hk _ h
  | cons x t ih =>
    obtain ⟨_, _⟩ := x
    rw [withStream]
    split
    · exact ih h
    · split
      · next hx => exact fst_logOk hx (readCoded_logOk h)
      · next hx => exact ih (fst_logOk hx (readCoded_logOk h))

theorem releaseWaiter_logOk {s : State} {p n camp : Nat} (h : s.logOk = true) : (releaseWaiter s p n camp).logOk = true := by
  unfold releaseWaiter
  split
  · exact h
  · exact ite_logOk (ite_logOk (ite_logOk (advance_logOk (logOk_congr h (by simp))) (advance_logOk h)) h) h

theorem releaseWaiters_logOk {p n : Nat} {l : List Nat} {s : State} (h : s.logOk = true) : (releaseWaiters p n l s).logOk = true := by
  induction l generalizing s with
  | nil => exact h
  | cons x t ih =>
    rw [releaseWaiters]
    exact ih (releaseWaiter_logOk h)

theorem signalSync_logOk {s : State} {p n v : Nat} {res : State} (h : s.logOk = true) (hx : signalSync s p n v = some res) : res.logOk = true := by
  unfold signalSync at hx
  dsimp only at hx
  split at hx
  · cases hx
  · cases hx
    exact releaseWaiters_logOk (logOk_congr h (by simp))

theorem releaseBlocked_logOk {s : State} {p : Nat} {f : WaitReason → Bool} (h : s.logOk = true) : (releaseBlocked s p f).logOk = true :=
  logOk_congr h (by simp)

end Sys2Proof.Machine
end

section
/-! SUPPORT. O5: the event log stays sound under the camp commands (R113, R413). -/

namespace Sys2Proof.Machine

theorem doNop_logOk {c : Ctx} {s : State} (h : s.logOk = true) : (doNop c s).LogOk := by
  unfold doNop
  exact campCommand_logOk h

theorem endProgram_logOk {s : State} {camp : Nat} (h : s.logOk = true) : (endProgram s camp).logOk = true := by
  unfold endProgram
  exact logOk_congr h (by simp)

theorem doEnd_logOk {c : Ctx} {s : State} (h : s.logOk = true) : (doEnd c s).LogOk := by
  unfold doEnd
  refine campCommand_logOk (.ite trivial ?_)
  refine .ite trivial ?_
  refine .ite ?_ (endProgram_logOk h)
  split
  · exact trivial
  · next hx => exact signalSync_logOk (endProgram_logOk h) hx

theorem doSetwin_logOk {c : Ctx} {s : State} (h : s.logOk = true) : (doSetwin c s).LogOk := by
  unfold doSetwin
  exact coreCommand_logOk (fun _ => logOk_congr h (by simp))

theorem onProg_logOk {s : State} {camp : Nat} {f : Program → Program} (h : s.logOk = true) : (onProg s camp f).logOk = true := by
  unfold onProg
  exact logOk_congr h (by simp)

theorem doWdog_logOk {c : Ctx} {s : State} (h : s.logOk = true) : (doWdog c s).LogOk := by
  unfold doWdog
  exact campCommand_logOk (onProg_logOk h)

theorem doLoop_logOk {c : Ctx} {s : State} (h : s.logOk = true) : (doLoop c s).LogOk := by
  unfold doLoop
  exact campCommand_logOk (.ite (moveTo_logOk h) (moveTo_logOk h))

theorem doFence_logOk {c : Ctx} {s : State} (h : s.logOk = true) : (doFence c s).LogOk := by
  unfold doFence
  exact campCommand_logOk (.ite trivial h)

theorem routed_logOk {c : Ctx} {x : Slot} {n : Nat} {k : CmdRes} (hk : k.LogOk) : (routed c x n k).LogOk := by
  unfold routed
  exact .ite hk trivial

theorem doSlotrd_logOk {found : List Finding} {c : Ctx} {s : State} (h : s.logOk = true) : (doSlotrd found c s).LogOk := by
  unfold doSlotrd
  exact coreCommand_logOk (fun _ => unlessFault_logOk (withSlot_logOk (fun _ => unlessFault_logOk (routed_logOk (reading_logOk (access_logOk h (fun _
      h3 => withFindings_logOk h3 (fun _ h4 => ite_logOk (logOk_congr h4 (by simp)) (logOk_congr h4 (by simp))))))))))

theorem storeRanks_logOk {da o step : Nat} {get : Nat → List Byte} {l : List (Nat × Nat)} {s : State} (h : s.logOk = true) :
    (storeRanks da o step get l s).logOk = true := by
  induction l generalizing s with
  | nil => exact h
  | cons x t ih =>
    obtain ⟨_, _⟩ := x
    rw [storeRanks]
    exact ih (logOk_congr h (by simp))

theorem doSlotwr_logOk {found : List Finding} {c : Ctx} {s : State} (h : s.logOk = true) : (doSlotwr found c s).LogOk := by
  unfold doSlotwr
  exact coreCommand_logOk (fun _ => unlessFault_logOk (withSlot_logOk (fun _ => unlessFault_logOk (routed_logOk (writing_logOk (access_logOk h (fun _
      h3 => withFindings_logOk h3 (fun _ h4 => putSlot_logOk (storeRanks_logOk h4)))))))))

theorem dropAhead_logOk {c : Ctx} {s : State} (h : s.logOk = true) : (dropAhead c s).logOk = true := by
  unfold dropAhead
  exact logOk_congr h (by simp)

theorem scatterRanks_logOk {c : Ctx} {cores : List Nat} {o n : Nat} {bs : List Byte} {s : State} (h : s.logOk = true) :
    (scatterRanks c cores o n bs s).logOk = true := by
  unfold scatterRanks
  exact logOk_congr h (by simp)

theorem doMemrd_logOk {found : List Finding} {c : Ctx} {s : State} (h : s.logOk = true) : (doMemrd found c s).LogOk := by
  unfold doMemrd
  refine coreCommand_logOk (fun _ => unlessFault_logOk (unlessFault_logOk ?_))
  split
  · refine access_logOk h (fun _ h1 => withFindings_logOk h1 (fun _ h2 => ?_))
    split
    · next hx => exact fst_logOk hx (readCoded_logOk h2)
    · next hx => exact scatterRanks_logOk (dropAhead_logOk (fst_logOk hx (readCoded_logOk h2)))
  · dsimp only
    split
    · exact withFindings_logOk h (fun _ h1 => scatterRanks_logOk (dropAhead_logOk h1))
    · exact access_logOk h (fun _ h1 => withFindings_logOk h1 (fun _ h2 => scatterRanks_logOk (dropAhead_logOk h2)))

theorem doMemwr_logOk {found : List Finding} {c : Ctx} {s : State} (h : s.logOk = true) : (doMemwr found c s).LogOk := by
  unfold doMemwr
  refine coreCommand_logOk (fun _ => unlessFault_logOk (unlessFault_logOk ?_))
  dsimp only
  split
  · refine access_logOk h (fun _ h1 => withFindings_logOk h1 (fun _ h2 => ?_))
    split
    · next hx => exact fst_logOk hx (writeCoded_logOk h2)
    · next hx => exact fst_logOk hx (writeCoded_logOk h2)
  · exact access_logOk h (fun _ h1 => withFindings_logOk h1 (fun _ h2 => logOk_congr h2 (by simp)))

theorem loseBadTags_logOk {p : Nat} {l : List (Nat × Nat × Nat × Nat)} {s : State} (h : s.logOk = true) : (loseBadTags p l s).logOk = true := by
  induction l generalizing s with
  | nil => exact h
  | cons x t ih =>
    obtain ⟨_, _, _, _⟩ := x
    rw [loseBadTags]
    refine ih (ite_logOk h ?_)
    split
    · exact pageLost_logOk h
    · exact holdAllAtBoundary_logOk h

theorem bindMult_logOk {found : List Finding} {c : Ctx} {a : Nat} {s : State} (h : s.logOk = true) : (bindMult found c a s).LogOk := by
  unfold bindMult
  refine .ite trivial ?_
  refine unlessFault_logOk (access_logOk h (fun _ h1 => withStream_logOk h1 (fun _ h2 => ?_)))
  refine .ite trivial ?_
  refine unlessFault_logOk (access_logOk h2 (fun _ h1 => withFindings_logOk h1 (fun _ h2 => withStream_logOk h2 (fun _ h3 => ?_))))
  split
  · exact trivial
  · exact .ite (loseBadTags_logOk h3) (logOk_congr h3 (by simp))

theorem bindWeights_logOk {found : List Finding} {c : Ctx} {a : Nat} {s : State} (h : s.logOk = true) : (bindWeights found c a s).LogOk := by
  unfold bindWeights
  exact unlessFault_logOk (access_logOk h (fun _ h1 => withFindings_logOk h1 (fun _ h2 => withStream_logOk h2 (fun _ h3 => .ite trivial
      (unlessFault_logOk (putCamp_logOk (dropAhead_logOk h3)))))))

theorem doWstream_logOk {found : List Finding} {c : Ctx} {s : State} (h : s.logOk = true) : (doWstream found c s).LogOk := by
  unfold doWstream
  exact campCommand_logOk (.ite (bindMult_logOk h) (bindWeights_logOk h))

theorem doTilecfg_logOk {c : Ctx} {s : State} (h : s.logOk = true) : (doTilecfg c s).LogOk := by
  unfold doTilecfg
  exact campCommand_logOk (logOk_congr h (by simp))

theorem doVld_logOk {found : List Finding} {c : Ctx} {s : State} (h : s.logOk = true) : (doVld found c s).LogOk := by
  unfold doVld
  refine coreCommand_logOk (fun _ => .ite (unlessFault_logOk (withFindings_logOk h (fun _ h2 => logOk_congr h2 (by simp)))) ?_)
  refine .ite ?_ ?_
  · exact withSlot_logOk (fun _ => unlessFault_logOk (routed_logOk (reading_logOk (access_logOk h (fun _ h2 => withFindings_logOk h2 (fun _ h3 =>
      logOk_congr h3 (by simp)))))))
  · exact logOk_congr h (by simp)

theorem masterNan_logOk {camp p layer : Nat} {l : List (Word × Nat)} {s : State} (h : s.logOk = true) :
    (masterNan camp p layer l s).logOk = true := by
  induction l generalizing s with
  | nil => exact h
  | cons x t ih =>
    obtain ⟨_, _⟩ := x
    rw [masterNan]
    exact ih (ite_logOk (writeEvent_logOk _ _ _ _ _ h) h)

theorem masterNans_logOk {c : Ctx} {cores : List Nat} {s : State} (h : s.logOk = true) : (masterNans c cores s).logOk = true := by
  unfold masterNans
  exact masterNan_logOk h

theorem doVst_logOk {found : List Finding} {c : Ctx} {s : State} (h : s.logOk = true) : (doVst found c s).LogOk := by
  unfold doVst
  refine coreCommand_logOk (fun _ => ?_)
  refine .ite ?_ ?_
  · exact withSlot_logOk (fun _ => unlessFault_logOk (unlessFault_logOk (routed_logOk (writing_logOk (access_logOk h (fun _ h2 => withFindings_logOk
      h2 (fun _ h3 => putSlot_logOk (storeRanks_logOk (ite_logOk (masterNans_logOk h3) h3)))))))))
  · exact unlessFault_logOk (unlessFault_logOk (withFindings_logOk h (fun _ h1 => onCores_logOk (ite_logOk (masterNans_logOk h1) h1))))

theorem doSignal_logOk {c : Ctx} {s : State} (h : s.logOk = true) : (doSignal c s).LogOk := by
  unfold doSignal
  refine campCommand_logOk (.ite trivial ?_)
  split
  · exact trivial
  · next hx => exact signalSync_logOk h hx

theorem doWait_logOk {c : Ctx} {s : State} (h : s.logOk = true) : (doWait c s).LogOk := by
  unfold doWait
  exact campCommand_logOk (.ite trivial (.ite h trivial))

theorem doTake_logOk {c : Ctx} {s : State} (h : s.logOk = true) : (doTake c s).LogOk := by
  unfold doTake
  exact campCommand_logOk (.ite trivial (.ite trivial (.ite (logOk_congr h (by simp)) (logOk_congr h (by simp)))))

theorem doReserved_logOk {a0 : Ctx} {a1 : State}  : (doReserved a0 a1).LogOk := by
  unfold doReserved
  exact trivial

theorem doRunAhead_logOk {found : List Finding} {s : State} {camp index : Nat} (h : s.logOk = true) :
    (doRunAhead found s camp index).logOk = true := by
  unfold doRunAhead
  dsimp only
  split
  · exact ite_logOk (rangerAccess_logOk h (fun _ h1 => ite_logOk h1 (logOk_congr h1 (by simp)))) h
  · exact h

end Sys2Proof.Machine
end

section
/-! SUPPORT. O5: the event log stays sound under the counters of a sequence and layer (R113, R413). -/

namespace Sys2Proof.Machine

theorem withTable_logOk {c : Ctx} {s : State} {core : Nat} {k : LengthTable → CmdRes} (hk : ∀ a, (k a).LogOk) : (withTable c s core k).LogOk := by
  unfold withTable
  exact withSlot_logOk (fun _ => reading_logOk (.ite trivial (hk _)))

theorem onLayer_logOk {s : State} {p i layer : Nat} {f : LayerState → LayerState} (h : s.logOk = true) : (onLayer s p i layer f).logOk = true :=
  logOk_congr h (by simp)

theorem countSaturated_logOk {s : State} {p i layer n : Nat} (h : s.logOk = true) : (countSaturated s p i layer n).logOk = true :=
  logOk_congr h (by simp)

end Sys2Proof.Machine
end

section
/-! SUPPORT. O5: the event log stays sound under top-k and the hash accumulators (R113, R413). -/

namespace Sys2Proof.Machine

theorem countTopNan_logOk {c : Ctx} {row nans : Nat} {s : State} {k : State → CmdRes} (h : s.logOk = true) (hk : ∀ t, t.logOk = true → (k t).LogOk) :
    (countTopNan c row nans s k).LogOk := by
  unfold countTopNan
  split
  · exact hk _ h
  · refine .ite (hk _ h) ?_
    refine withTable_logOk (fun _ => ?_)
    split
    · exact hk _ h
    · exact hk _ (logOk_congr h (by simp))

theorem doTopk_logOk {found : List Finding} {c : Ctx} {s : State} (h : s.logOk = true) : (doTopk found c s).LogOk := by
  unfold doTopk
  exact coreCommand_logOk (fun _ => unlessFault_logOk (withSlot_logOk (fun _ => unlessFault_logOk (routed_logOk (reading_logOk (access_logOk h (fun _
      h3 => withFindings_logOk h3 (fun _ h4 => countTopNan_logOk h4 (fun _ h5 => ite_logOk (logOk_congr h5 (by simp)) (logOk_congr h5
          (by simp)))))))))))

theorem putHash_logOk {s : State} {i : Nat} {x : HashInst} (h : s.logOk = true) : (putHash s i x).logOk = true :=
  logOk_of_bounds h rfl rfl (.inl rfl) List.length_set

theorem doHopen_logOk {found : List Finding} {c : Ctx} {s : State} (h : s.logOk = true) : (doHopen found c s).LogOk := by
  unfold doHopen
  refine campCommand_logOk (unlessFault_logOk (access_logOk h (fun _ h1 => withFindings_logOk h1 (fun _ h2 => ?_))))
  refine .ite trivial ?_
  refine .ite trivial ?_
  split
  · exact trivial
  · exact putHash_logOk h2

theorem contribute_logOk {s : State} {r : PitchRecord} {i key : Nat} {v : Int} (h : s.logOk = true) : (contribute s r i key v).logOk = true := by
  unfold contribute
  dsimp only
  split
  · exact h
  · split
    · exact putHash_logOk h
    · exact pokeBytes_logOk (putHash_logOk h)

theorem contributeAll_logOk {r : PitchRecord} {i : Nat} {l : List (Nat × Int)} {s : State} (h : s.logOk = true) :
    (contributeAll r i l s).logOk = true := by
  induction l generalizing s with
  | nil => exact h
  | cons x t ih =>
    obtain ⟨_, _⟩ := x
    rw [contributeAll]
    exact ih (contribute_logOk h)

theorem doHadd_logOk {found : List Finding} {c : Ctx} {s : State} (h : s.logOk = true) : (doHadd found c s).LogOk := by
  unfold doHadd
  refine coreCommand_logOk (fun _ => unlessFault_logOk ?_)
  dsimp only
  split
  · exact trivial
  · refine .ite trivial ?_
    refine unlessFault_logOk (unlessFault_logOk ?_)
    exact .ite trivial (access_logOk h (fun _ h1 => withFindings_logOk h1 (fun _ h2 => contributeAll_logOk h2)))

theorem doHclose_logOk {c : Ctx} {s : State} (h : s.logOk = true) : (doHclose c s).LogOk := by
  unfold doHclose
  refine campCommand_logOk ?_
  refine .ite trivial ?_
  refine .ite trivial ?_
  dsimp only
  split
  · exact trivial
  · exact .ite trivial (.ite trivial (block_logOk (putHash_logOk h)))

theorem mergeHash_logOk {s : State} {i : Nat} (h : s.logOk = true) : (mergeHash s i).logOk = true := by
  unfold mergeHash
  dsimp only
  split
  · exact h
  · split
    · split
      · exact raiseFault_logOk h
      · split
        · next hx => exact advance_logOk (signalSync_logOk (releaseBlocked_logOk (putHash_logOk (logOk_congr h (by simp)))) hx)
        · exact raiseFault_logOk (releaseBlocked_logOk (putHash_logOk (logOk_congr h (by simp))))
    · exact h

theorem doHashClose_logOk {found : List Finding} {s : State} {i : Nat} (h : s.logOk = true) : (doHashClose found s i).logOk = true := by
  unfold doHashClose
  split
  · exact h
  · refine rangerAccess_logOk h (fun _ h1 => ?_)
    split
    · next hx => exact fst_logOk hx (applyFindings_logOk h1)
    · next hx => exact mergeHash_logOk (fst_logOk hx (applyFindings_logOk h1))

end Sys2Proof.Machine
end

section
/-! SUPPORT. O5: the event log stays sound under tile runs (R113, R413). -/

namespace Sys2Proof.Machine

theorem noteSidecars_logOk {s : State} {c : Ctx} {st : Stream} {cfg : TileCfg} {tbl : LengthTable} {j : Nat} (h : s.logOk = true) :
    (noteSidecars s c st cfg tbl j).logOk = true := by
  unfold noteSidecars
  split
  · exact h
  · exact foldl_logOk (fun _ h1 _ => writeEvent_logOk _ _ _ _ _ h1) (ite_logOk h (logOk_congr h (by simp)))

theorem noteRows_logOk {c : Ctx} {st : Stream} {cfg : TileCfg} {tbl : LengthTable} {l : List Nat} {s : State} (h : s.logOk = true) :
    (noteRows c st cfg tbl l s).logOk = true := by
  induction l generalizing s with
  | nil => exact h
  | cons x t ih =>
    rw [noteRows]
    exact ih (noteSidecars_logOk h)

theorem countPre_logOk {p layer op : Nat} {l : List (Nat × Nat × Nat)} {s : State} (h : s.logOk = true) : (countPre p layer op l s).logOk = true := by
  induction l generalizing s with
  | nil => exact h
  | cons x t ih =>
    obtain ⟨_, _, _⟩ := x
    rw [countPre]
    exact ite_logOk (ih h) (ih (logOk_congr h (by simp)))

theorem issueTiles_logOk {c : Ctx} {page : Option Nat} {l : List (Nat × TileRun)} {s : State} (h : s.logOk = true) :
    (issueTiles c page l s).logOk = true := by
  induction l generalizing s with
  | nil => exact h
  | cons x t ih =>
    obtain ⟨_, _⟩ := x
    rw [issueTiles]
    exact ih (countPre_logOk (logOk_congr h (by simp)))

theorem noteChunk_logOk {c : Ctx} {d : MultDesc} {i first n : Nat} {s : State} (h : s.logOk = true) : (noteChunk c d i first n s).logOk = true := by
  unfold noteChunk
  exact ite_logOk h (countSaturated_logOk (writeEvent_logOk _ _ _ _ _ (logOk_congr h (by simp))))

theorem noteChunks_logOk {c : Ctx} {d : MultDesc} {e : TableRow} {keys : List KeyRef} {live : KeyRef → Bool} {l : List Nat} {s : State}
    (h : s.logOk = true) : (noteChunks c d e keys live l s).logOk = true := by
  induction l generalizing s with
  | nil => exact h
  | cons x t ih =>
    rw [noteChunks]
    exact ih (noteChunk_logOk h)

theorem countBlind_logOk {s : State} {p i layer kvHead head q : Nat} (h : s.logOk = true) : (countBlind s p i layer kvHead head q).logOk = true := by
  unfold countBlind
  exact ite_logOk h (logOk_congr h (by simp))

theorem noteBlind_logOk {c : Ctx} {st : Stream} {cfg : TileCfg} {d : MultDesc} {tbl : LengthTable} {l : List Nat} {s : State} (h : s.logOk = true) :
    (noteBlind c st cfg d tbl l s).logOk = true := by
  induction l generalizing s with
  | nil => exact h
  | cons x t ih =>
    rw [noteBlind]
    refine ih ?_
    split
    · exact h
    · exact countBlind_logOk h

theorem runTile_logOk {c : Ctx} {cores : List Nat} {st : Stream} {cfg : TileCfg} {tbl : LengthTable} {found : List Finding} {s : State}
    (h : s.logOk = true) : (runTile c cores st cfg tbl found s).logOk = true := by
  unfold runTile
  dsimp only
  split
  · exact ite_logOk (issueTiles_logOk (dropAhead_logOk h)) (issueTiles_logOk (noteRows_logOk (dropAhead_logOk h)))
  · refine issueTiles_logOk ?_
    refine ite_logOk ?_ ?_
    · refine noteBlind_logOk ?_
      split
      · exact h
      · exact noteChunks_logOk h
    · split
      · exact h
      · exact noteChunks_logOk h

theorem doTile_logOk {found : List Finding} {c : Ctx} {s : State} (h : s.logOk = true) : (doTile found c s).LogOk := by
  unfold doTile
  refine coreCommand_logOk (fun _ => ?_)
  split
  · refine .ite trivial ?_
    refine withTable_logOk (fun _ => unlessFault_logOk (unlessFault_logOk (unlessFault_logOk ?_)))
    refine .ite trivial ?_
    exact access_logOk h (fun _ h1 => withTileFindings_logOk h1 (fun _ h2 => withStream_logOk h2 (fun _ h3 => runTile_logOk h3)))
  · exact trivial

theorem retireCore_logOk {s : State} {camp core p : Nat} {m : Mismatch} (h : s.logOk = true) : (retireCore s camp core p m).logOk = true := by
  unfold retireCore
  exact fenceCamp_logOk (onCore_logOk (residueEvent_logOk h))

theorem discardRun_logOk {s : State} {camp core p : Nat} {t : TileRun} (h : s.logOk = true) : (discardRun s camp core p t).logOk = true := by
  unfold discardRun
  dsimp only
  split
  · exact retireCore_logOk h
  · exact onCore_logOk (ite_logOk (residueEvent_logOk h) (retireLanes_logOk h))

theorem countElems_logOk {f : State → Nat → Nat → Nat → Nat → State} {p : Nat} {t : TileRun} {l : List Elem} {s : State}
    (hk : ∀ t, t.logOk = true → ∀ a b c d, (f t a b c d).logOk = true) (h : s.logOk = true) : (countElems f p t l s).logOk = true := by
  induction l generalizing s with
  | nil => exact h
  | cons x t ih =>
    rw [countElems]
    refine ih ?_
    split
    · exact h
    · exact hk _ h _ _ _ _

theorem acceptTile_logOk {s : State} {camp core p : Nat} {t : TileRun} (h : s.logOk = true) : (acceptTile s camp core p t).logOk = true := by
  unfold acceptTile
  exact releaseBlocked_logOk (onCore_logOk (countElems_logOk (fun _ h1 _ _ _ _ => logOk_congr h1 (by simp)) h))

theorem nextRun_logOk {s : State} {camp core : Nat} {t : TileRun} (h : s.logOk = true) : (nextRun s camp core t).logOk = true := by
  unfold nextRun
  exact logOk_congr h (by simp)

theorem decideRun_logOk {s : State} {camp core p : Nat} {t : TileRun} (h : s.logOk = true) : (decideRun s camp core p t).logOk = true := by
  unfold decideRun
  refine ite_logOk (ite_logOk (nextRun_logOk h) (acceptTile_logOk h)) ?_
  refine ite_logOk (acceptTile_logOk (countElems_logOk (fun _ h1 _ _ _ _ => logOk_congr h1 (by simp)) h)) ?_
  refine ite_logOk (nextRun_logOk (countElems_logOk (fun _ h1 _ _ _ _ => logOk_congr h1 (by simp)) h)) ?_
  exact nextRun_logOk (countElems_logOk (fun _ h1 _ _ _ _ => logOk_congr h1 (by simp)) h)

theorem markEvent_logOk {s : State} {camp p : Nat} {m : WeightMark} {copy : Nat} (h : s.logOk = true) : (markEvent s camp p m copy).logOk = true := by
  unfold markEvent
  exact ite_logOk h (writeEvent_logOk _ _ _ _ _ h)

theorem repeatRuns_logOk {r0 : PitchRecord} {l : List (Nat × Nat × TileRun)} {s : State} (h : s.logOk = true) : (repeatRuns r0 l s).logOk = true := by
  induction l generalizing s with
  | nil => exact h
  | cons x t ih =>
    obtain ⟨_, _, _⟩ := x
    rw [repeatRuns]
    exact ih (countPre_logOk (logOk_congr h (by simp)))

theorem joinRun_logOk {s : State} {camp core : Nat} {r : PitchRecord} {t : TileRun} (h : s.logOk = true) :
    (joinRun s camp core r t).logOk = true := by
  unfold joinRun
  split
  · exact ite_logOk (repeatRuns_logOk h) (onCore_logOk (markEvent_logOk h))
  · exact ite_logOk (decideRun_logOk h) (discardRun_logOk h)

theorem execTileRunJoin_logOk {camp core base : Nat} {wide : Bool} {s : State} (h : s.logOk = true) :
    AnswerLogOk (execTileRunJoin camp core base wide s) := by
  unfold execTileRunJoin
  refine .ite ?_ trivial
  split
  · exact .ite (joinRun_logOk h) h
  · exact h

theorem refetchBlock_logOk {s : State} {r : PitchRecord} {da : Nat} {poison : Bool} {camp : Nat} {x : TileSource} {ws : List (Nat × Nat × TileRun)}
    (h : s.logOk = true) : (refetchBlock s r da poison camp x ws).logOk = true := by
  unfold refetchBlock
  refine ite_logOk h ?_
  refine ite_logOk (goldenFailed_logOk h) ?_
  refine ite_logOk (goldenFailed_logOk (cxlBad_logOk h)) ?_
  dsimp only
  split
  · exact goldenFailed_logOk (markEvent_logOk (weightRefetchedEvent_logOk (logOk_congr h (by simp))))
  · exact repeatRuns_logOk (weightRefetchedEvent_logOk (logOk_congr h (by simp)))

theorem refetchDue_logOk {s : State} {p da : Nat} {poison : Bool} (h : s.logOk = true) : (refetchDue s p da poison).logOk = true := by
  unfold refetchDue
  split
  · exact logOk_congr h (by simp)
  · exact ite_logOk h (dropBlock_logOk (scrubWeights_logOk h))

theorem execWeightRefetched_logOk {pitch da : Nat} {poison : Bool} {s : State} (h : s.logOk = true) :
    AnswerLogOk (execWeightRefetched pitch da poison s) := by
  unfold execWeightRefetched
  refine .ite ?_ trivial
  split
  · exact h
  · dsimp only
    split
    · split
      · exact refetchBlock_logOk h
      · exact h
    · exact ite_logOk (refetchDue_logOk h) h

theorem tredStore_logOk {c : Ctx} {base : Nat} {wide : Bool} {slot : Option (List Byte)} {cores : List Nat} {s : State} (h : s.logOk = true) :
    (tredStore c base wide slot cores s).logOk = true := by
  unfold tredStore
  exact logOk_congr h (by simp)

theorem tredOut_logOk {found : List Finding} {c : Ctx} {cores : List Nat} {height : Nat} {slot : Option (List Byte)} {s : State}
    (h : s.logOk = true) : (tredOut found c cores height slot s).LogOk := by
  unfold tredOut
  refine .ite (withFindings_logOk h (fun _ h1 => tredStore_logOk h1)) ?_
  exact withSlot_logOk (fun _ => unlessFault_logOk (routed_logOk (writing_logOk (access_logOk h (fun _ h2 => withFindings_logOk h2 (fun _ h3 =>
      logOk_congr h3 (by simp)))))))

theorem doTred_logOk {found : List Finding} {c : Ctx} {s : State} (h : s.logOk = true) : (doTred found c s).LogOk := by
  unfold doTred
  refine coreCommand_logOk (fun _ => ?_)
  dsimp only
  split
  · exact trivial
  · split
    · exact trivial
    · split
      · exact tredOut_logOk h
      · refine withSlot_logOk (fun _ => unlessFault_logOk (routed_logOk (reading_logOk (access_logOk h (fun _ h2 => ?_)))))
        split
        · next hr =>
            have h3 := (tredOut_logOk h2).congr hr
            split
            · exact h3
            · exact putSlot_logOk h3
        · exact tredOut_logOk h2

end Sys2Proof.Machine
end

section
/-! SUPPORT. O5: the event log stays sound under the vector engine (R113, R413). -/

namespace Sys2Proof.Machine

theorem vopCommand_logOk {w : CmdWord} {mask : Nat} {k : List Nat → CmdRes} (hk : ∀ a, (k a).LogOk) : (vopCommand w mask k).LogOk := by
  unfold vopCommand
  exact coreCommand_logOk (fun _ => .ite trivial (hk _))

theorem runVop_logOk {s : State} {camp : Nat} {w : CmdWord} {op : Nat} {f : Ctx → State → CmdRes} (h : s.logOk = true)
    (hk : ∀ a t, t.logOk = true → (f a t).LogOk) : AnswerLogOk (runVop s camp w op f) := by
  unfold runVop
  exact runCommand_logOk h (fun _ _ h1 => hk _ _ h1)

theorem vopRun_logOk {c : Ctx} {cores : List Nat} {f : Core → Core} {s : State} (h : s.logOk = true) : (vopRun c cores f s).logOk = true := by
  unfold vopRun
  exact logOk_congr h (by simp)

theorem doElem_logOk {f : Word → Word → Word → Word} {c : Ctx} {s : State} (h : s.logOk = true) : (doElem f c s).LogOk := by
  unfold doElem
  exact vopCommand_logOk (fun _ => vopRun_logOk h)

theorem retireCores_logOk {camp : Nat} {l : List Nat} {s : State} (h : s.logOk = true) : (retireCores camp l s).logOk = true := by
  induction l generalizing s with
  | nil => exact h
  | cons x t ih =>
    rw [retireCores]
    exact ih (logOk_congr h (by simp))

theorem fmaDiscards_logOk {c : Ctx} {l : Nat} {l1 : List (Nat × Nat)} {l2 : List (List Mismatch)} {s : State} (h : s.logOk = true) :
    (fmaDiscards c l l1 l2 s).1.logOk = true := by
  induction l2 generalizing l l1 s with
  | nil =>
    rw [fmaDiscards]
    exact h
  | cons x t ih =>
    rw [fmaDiscards]
    split
    · exact ih h
    · dsimp only
      split
      · exact fenceCamp_logOk (retireCores_logOk (residueEvent_logOk h))
      · exact ih (residueEvent_logOk h)

theorem withFma_logOk {mis : List (List Mismatch)} {c : Ctx} {s : State} {k : State → CmdRes} (h : s.logOk = true)
    (hk : ∀ t, t.logOk = true → (k t).LogOk) : (withFma mis c s k).LogOk := by
  unfold withFma
  split
  · next hx => exact fst_logOk hx (fmaDiscards_logOk h)
  · next hx => exact hk _ (fst_logOk hx (fmaDiscards_logOk h))

theorem doFmaElem_logOk {f : Word → Word → Word → Word} {mis : List (List Mismatch)} {c : Ctx} {s : State} (h : s.logOk = true) :
    (doFmaElem f mis c s).LogOk := by
  unfold doFmaElem
  exact vopCommand_logOk (fun _ => withFma_logOk h (fun _ h2 => vopRun_logOk h2))

theorem withTiles_logOk {c : Ctx} {s : State} {cores : List Nat} {k : CmdRes} (hk : k.LogOk) : (withTiles c s cores k).LogOk := by
  unfold withTiles
  dsimp only
  split
  · exact trivial
  · exact .ite trivial hk

theorem countScores_logOk {p : Nat} {t : TileRun} {slab : Nat} {vs : List Word} {l : List Nat} {s : State} (h : s.logOk = true) :
    (countScores p t slab vs l s).logOk = true := by
  induction l generalizing s with
  | nil => exact h
  | cons x t ih =>
    rw [countScores]
    refine ih ?_
    split
    · exact h
    · exact h
    · exact logOk_congr h (by simp)

theorem noteNaN_logOk {r : PitchRecord} {t : TileRun} {slab : Nat} {vs : List Word} {bound : List (Nat × Nat)} {l : List Nat} {s : State}
    (h : s.logOk = true) : (noteNaN r t slab vs bound l s).logOk = true := by
  induction l generalizing s with
  | nil => exact h
  | cons x t ih =>
    rw [noteNaN]
    refine ih ?_
    split
    · exact ite_logOk (countBlind_logOk (logOk_congr h (by simp))) (logOk_congr h (by simp))
    · exact h

theorem noteLookout_logOk {r : PitchRecord} {t : TileRun} {slab : Nat} {vs : List Word} {l : List Nat} {s : State} (h : s.logOk = true) :
    (noteLookout r t slab vs l s).logOk = true := by
  induction l generalizing s with
  | nil => exact h
  | cons x t ih =>
    rw [noteLookout]
    refine ih ?_
    split
    · split
      · exact ite_logOk (logOk_congr h (by simp)) h
      · exact h
    · exact h

theorem noteReads_logOk {c : Ctx} {ldacc : Bool} {l : List Nat} {s : State} (h : s.logOk = true) : (noteReads c ldacc l s).logOk = true := by
  induction l generalizing s with
  | nil => exact h
  | cons x t ih =>
    rw [noteReads]
    refine ih ?_
    split
    · exact h
    · exact ite_logOk (noteLookout_logOk (noteNaN_logOk (countScores_logOk h))) (noteNaN_logOk (countScores_logOk h))

theorem doAcc_logOk {ldacc : Bool} {f : Int → Int → Word → Word → Word} {mis : List (List Mismatch)} {c : Ctx} {s : State} (h : s.logOk = true) :
    (doAcc ldacc f mis c s).LogOk := by
  unfold doAcc
  exact vopCommand_logOk (fun _ => withTiles_logOk (withFma_logOk h (fun _ h2 => noteReads_logOk (vopRun_logOk h2))))

theorem nonfiniteEvents_logOk {camp p handle layer level fmt pos : Nat} {l : List (Block × Nat)} {l1 : List ReqVal} {s : State} (h : s.logOk = true) :
    (nonfiniteEvents camp p handle layer level fmt pos l l1 s).logOk = true := by
  induction l generalizing l1 s with
  | nil => exact h
  | cons x t ih =>
    obtain ⟨_, _⟩ := x
    rw [nonfiniteEvents]
    exact ih (ite_logOk (writeEvent_logOk _ _ _ _ _ h) h)

theorem countRow_logOk {s : State} {p i layer : Nat} {f : FormedRow} (h : s.logOk = true) : (countRow s p i layer f).logOk = true := by
  unfold countRow
  exact onLayer_logOk (ite_logOk (logOk_congr h (by simp)) (logOk_congr h (by simp)))

theorem lookoutWrite_logOk {s : State} {c : Ctx} {e : TableRow} {act layer : Nat} {xs : List ReqVal} (h : s.logOk = true) :
    (lookoutWrite s c e act layer xs).logOk = true := by
  unfold lookoutWrite
  split
  · exact h
  · exact ite_logOk (logOk_congr h (by simp)) h

theorem chargeRow_logOk {s : State} {c : Ctx} {tbl : Option LengthTable} {tag : Option (Nat × Nat)} {f : FormedRow} {xs : List ReqVal}
    (h : s.logOk = true) : (chargeRow s c tbl tag f xs).logOk = true := by
  unfold chargeRow
  dsimp only
  split
  · exact nonfiniteEvents_logOk h
  · exact lookoutWrite_logOk (countRow_logOk (nonfiniteEvents_logOk h))

theorem chargeRows_logOk {c : Ctx} {tbl : Option LengthTable} {l : List (FormedRow × List ReqVal × Option (Nat × Nat))} {s : State}
    (h : s.logOk = true) : (chargeRows c tbl l s).logOk = true := by
  induction l generalizing s with
  | nil => exact h
  | cons x t ih =>
    obtain ⟨_, _, _⟩ := x
    rw [chargeRows]
    exact ih (chargeRow_logOk h)

theorem outCore_logOk {c : Ctx} {tbl : Option LengthTable} {core : Nat} {s : State} (h : s.logOk = true) : (outCore c tbl core s).logOk = true := by
  unfold outCore
  exact chargeRows_logOk (logOk_congr h (by simp))

theorem outCores_logOk {c : Ctx} {tbl : Option LengthTable} {l : List Nat} {s : State} (h : s.logOk = true) : (outCores c tbl l s).logOk = true := by
  induction l generalizing s with
  | nil => exact h
  | cons x t ih =>
    rw [outCores]
    exact ih (outCore_logOk h)

theorem finishOut_logOk {found : List Finding} {c : Ctx} {s : State} {cores : List Nat} {tbl : Option LengthTable} (h : s.logOk = true) :
    (finishOut found c s cores tbl).LogOk := by
  unfold finishOut
  exact unlessFault_logOk (withFindings_logOk h (fun _ h1 => iterate_logOk (fun _ h2 => outCores_logOk h2) h1))

theorem doReqout_logOk {found : List Finding} {c : Ctx} {s : State} (h : s.logOk = true) : (doReqout found c s).LogOk := by
  unfold doReqout
  refine vopCommand_logOk (fun _ => .ite trivial ?_)
  split
  · exact trivial
  · exact .ite (finishOut_logOk h) (withTable_logOk (fun _ => finishOut_logOk h))

theorem doVReserved_logOk {c : Ctx} {a0 : State}  : (doVReserved c a0).LogOk := by
  unfold doVReserved
  exact coreCommand_logOk (fun _ => trivial)

end Sys2Proof.Machine
end

section
/-! SUPPORT. O5: the event log stays sound under selection, appends and page moves (R113, R413). -/

namespace Sys2Proof.Machine

theorem markSelected_logOk {p step : Nat} {l : List Nat} {s : State} (h : s.logOk = true) : (markSelected p step l s).logOk = true := by
  induction l generalizing s with
  | nil => exact h
  | cons x t ih =>
    rw [markSelected]
    exact ih (logOk_congr h (by simp))

theorem selectRow_logOk {s : State} {r : PitchRecord} {m : MicroRow} {layer : Nat} {qs : List LanternQuery} (h : s.logOk = true) :
    (selectRow s r m layer qs).logOk = true := by
  unfold selectRow
  dsimp only
  split
  · exact h
  · exact onPitch_logOk (markSelected_logOk h)

theorem doLantern_logOk {s : State} {r : PitchRecord} {row layer : Nat} {qs : List LanternQuery} {found : List Finding} (h : s.logOk = true) :
    (doLantern s r row layer qs found).logOk = true := by
  unfold doLantern
  dsimp only
  split
  · exact h
  · exact ite_logOk h (rangerReads_logOk h (fun _ h1 => ite_logOk (selectRow_logOk h1) h1))

theorem dropHot_logOk {s : State} {p n : Nat} (h : s.logOk = true) : (dropHot s p n).logOk = true := by
  unfold dropHot
  exact logOk_congr h (by simp)

theorem removeIdle_logOk {s : State} {p k : Nat} (h : s.logOk = true) : (removeIdle s p k).logOk = true := by
  unfold removeIdle
  exact logOk_congr h (by simp)

theorem hotSpace_logOk {p len l : Nat} {s : State} {res : Nat × State} (h : s.logOk = true) (hx : hotSpace p len l s = some res) :
    res.2.logOk = true := by
  induction l generalizing s res with
  | zero =>
    rw [hotSpace] at hx
    exact allocHot_logOk h hx
  | succ n ih =>
    rw [hotSpace] at hx
    split at hx
    · next hy =>
        cases hx
        exact allocHot_logOk h hy
    · split at hx
      · exact ih (dropHot_logOk h) hx
      · split at hx
        · exact ih (removeIdle_logOk h) hx
        · cases hx

theorem roomFor_logOk {s : State} {p len : Nat} {res : Nat × State} (h : s.logOk = true) (hx : roomFor s p len = some res) : res.2.logOk = true := by
  unfold roomFor at hx
  exact hotSpace_logOk h hx

theorem warmSpace_logOk {p n len l : Nat} {s : State} {res : Nat × State} (h : s.logOk = true) (hx : warmSpace p n len l s = some res) :
    res.2.logOk = true := by
  induction l generalizing s res with
  | zero =>
    rw [warmSpace] at hx
    exact allocWarm_logOk h hx
  | succ n ih =>
    rw [warmSpace] at hx
    split at hx
    · next hy =>
        cases hx
        exact allocWarm_logOk h hy
    · split at hx
      · exact ih (removeIdle_logOk h) hx
      · cases hx

theorem demoteNow_logOk {s : State} {p n : Nat} {res : State} (h : s.logOk = true) (hx : demoteNow s p n = some res) : res.logOk = true := by
  unfold demoteNow at hx
  dsimp only at hx
  split at hx
  · cases hx
  · next hy =>
      split at hx
      · cases hx
      · split at hx
        · cases hx
          exact dropHot_logOk (logOk_congr (warmSpace_logOk h hy) (by simp))
        · cases hx
          exact logOk_congr (warmSpace_logOk h hy) (by simp)

theorem flushRoom_logOk {p len l : Nat} {s : State} {res : Nat × State} (h : s.logOk = true) (hx : flushRoom p len l s = some res) :
    res.2.logOk = true := by
  induction l generalizing s res with
  | zero =>
    rw [flushRoom] at hx
    exact roomFor_logOk h hx
  | succ n ih =>
    rw [flushRoom] at hx
    split at hx
    · next hy =>
        cases hx
        exact roomFor_logOk h hy
    · split at hx
      · cases hx
      · split at hx
        · cases hx
        · next hy => exact ih (demoteNow_logOk h hy) hx

theorem spaceNow_logOk {s : State} {p len : Nat} {res : Nat × State} (h : s.logOk = true) (hx : spaceNow s p len = some res) :
    res.2.logOk = true := by
  unfold spaceNow at hx
  exact flushRoom_logOk h hx

theorem withPiece_logOk {s : State} {p n : Nat} {res : State} (h : s.logOk = true) (hx : withPiece s p n = some res) : res.logOk = true := by
  unfold withPiece at hx
  split at hx
  · cases hx
    exact h
  · obtain ⟨y, hm, rfl⟩ := Option.map_eq_some_iff.1 hx
    exact onPitch_logOk (spaceNow_logOk h hm)

theorem newPage_logOk {s : State} {p heads d : Nat} {res : Nat × Nat × State} (h : s.logOk = true) (hx : newPage s p heads d = some res) :
    res.2.2.logOk = true := by
  unfold newPage at hx
  dsimp only at hx
  split at hx
  · cases hx
  · next hy =>
      obtain ⟨y, hm, rfl⟩ := Option.map_eq_some_iff.1 hx
      exact spaceNow_logOk (withPiece_logOk h hy) hm

theorem takePlaces_logOk {p len n : Nat} {s : State} {res : List Nat × State} (h : s.logOk = true) (hx : takePlaces p len n s = some res) :
    res.2.logOk = true := by
  induction n generalizing s res with
  | zero =>
    rw [takePlaces] at hx
    cases hx
    exact h
  | succ n ih =>
    rw [takePlaces] at hx
    split at hx
    · cases hx
    · next hy =>
        obtain ⟨y, hm, rfl⟩ := Option.map_eq_some_iff.1 hx
        exact (ih (spaceNow_logOk h hy) hm :)

theorem freePlaces_logOk {p : Nat} {l : List Nat} {s : State} (h : s.logOk = true) : (freePlaces p l s).logOk = true := by
  induction l generalizing s with
  | nil => exact h
  | cons x t ih =>
    rw [freePlaces]
    exact ih (logOk_congr h (by simp))

theorem fitPlaces_logOk {s : State} {p len n : Nat} {have_ : List Nat} {res : List Nat × State} (h : s.logOk = true)
    (hx : fitPlaces s p len n have_ = some res) : res.2.logOk = true := by
  unfold fitPlaces at hx
  obtain ⟨y, hm, rfl⟩ := Option.map_eq_some_iff.1 hx
  exact freePlaces_logOk (takePlaces_logOk h hm)

theorem fitLayer_logOk {s : State} {p i j : Nat} {res : State} (h : s.logOk = true) (hx : fitLayer s p i j = some res) : res.logOk = true := by
  unfold fitLayer at hx
  split at hx
  · cases hx
    exact h
  · dsimp only at hx
    split at hx
    · cases hx
    · next hy =>
        obtain ⟨y, hm, rfl⟩ := Option.map_eq_some_iff.1 hx
        exact onSeq_logOk (fitPlaces_logOk (fitPlaces_logOk h hy) hm)

theorem fitLayers_logOk {p i : Nat} {l : List Nat} {s : State} {res : State} (h : s.logOk = true) (hx : fitLayers p i l s = some res) :
    res.logOk = true := by
  induction l generalizing s res with
  | nil =>
    rw [fitLayers] at hx
    cases hx
    exact h
  | cons x t ih =>
    rw [fitLayers] at hx
    split at hx
    · cases hx
    · next hy => exact ih (fitLayer_logOk h hy) hx

theorem fitSeq_logOk {s : State} {p i : Nat} {res : State} (h : s.logOk = true) (hx : fitSeq s p i = some res) : res.logOk = true := by
  unfold fitSeq at hx
  exact fitLayers_logOk h hx

theorem openStaging_logOk {s : State} {i j tag len : Nat} {res : State} (h : s.logOk = true) (hx : openStaging s i j tag len = some res) :
    res.logOk = true := by
  unfold openStaging at hx
  dsimp only at hx
  split at hx
  · cases hx
    exact h
  · split at hx
    · cases hx
      exact logOk_congr h (by simp)
    · obtain ⟨y, hm, rfl⟩ := Option.map_eq_some_iff.1 hx
      exact onSeq_logOk (spaceNow_logOk h hm)

theorem putToken_logOk {s : State} {r : PitchRecord} {base tag heads d t : Nat} {rows : List Byte} (h : s.logOk = true) :
    (putToken s r base tag heads d t rows).logOk = true := by
  unfold putToken
  exact foldl_logOk (fun _ h1 _ => logOk_congr h1 (by simp)) h

theorem onLayerAt_logOk {s : State} {i j : Nat} {f : LayerState → LayerState} (h : s.logOk = true) : (onLayerAt s i j f).logOk = true := by
  unfold onLayerAt
  exact logOk_congr h (by simp)

theorem flushStaging_logOk {s : State} {r : PitchRecord} {i layer j heads d : Nat} {res : State} (h : s.logOk = true)
    (hx : flushStaging s r i layer j heads d = some res) : res.logOk = true := by
  unfold flushStaging at hx
  split at hx
  · cases hx
    exact h
  · dsimp only at hx
    split at hx
    · cases hx
    · next hy =>
        split at hx
        · cases hx
        · next hy1 => exact fitLayer_logOk (onLayerAt_logOk (logOk_congr (spaceNow_logOk (newPage_logOk h hy) hy1) (by simp))) hx

theorem appendTokens_logOk {r : PitchRecord} {i layer j heads d : Nat} {l : List (List Byte)} {s : State} {res : State} (h : s.logOk = true)
    (hx : appendTokens r i layer j heads d l s = some res) : res.logOk = true := by
  induction l generalizing s res with
  | nil =>
    rw [appendTokens] at hx
    cases hx
    exact h
  | cons x t ih =>
    rw [appendTokens] at hx
    split at hx
    · cases hx
    · next hy =>
        split at hx
        · cases hx
          exact openStaging_logOk h hy
        · dsimp only at hx
          split at hx
          · split at hx
            · cases hx
            · next hy1 => exact ih (flushStaging_logOk (onLayerAt_logOk (putToken_logOk (openStaging_logOk h hy))) hy1) hx
          · exact ih (onLayerAt_logOk (putToken_logOk (openStaging_logOk h hy))) hx

theorem noSpace_logOk {s : State} {r : PitchRecord} {i : Nat} (h : s.logOk = true) : (noSpace s r i).logOk = true := by
  unfold noSpace
  split
  · exact ite_logOk (devicePark_logOk h) (holdAtBoundary_logOk h)
  · exact holdAtBoundary_logOk h

theorem appendRows_logOk {r : PitchRecord} {layer j heads d : Nat} {bs : List Byte} {l : List MicroRow} {s t : State} (h : s.logOk = true)
    (hx : appendRows r layer j heads d bs l s = .ok t) : t.logOk = true := by
  induction l generalizing s with
  | nil =>
    rw [appendRows] at hx
    cases hx
    exact h
  | cons m l ih =>
    rw [appendRows] at hx
    split at hx
    · next hy => exact ih (appendTokens_logOk h hy) hx
    · cases hx

theorem appendSlotFull_logOk {s : State} {r : PitchRecord} {x : Slot} {l : LayerImage} (h : s.logOk = true) :
    (appendSlotFull s r x l).1.logOk = true := by
  unfold appendSlotFull
  split
  · next hy => exact appendRows_logOk h hy
  · exact noSpace_logOk h

theorem writeList_logOk {s : State} {r : PitchRecord} {c : Chosen} {res : State × Chosen} (h : s.logOk = true) (hx : writeList s r c = some res) :
    res.1.logOk = true := by
  unfold writeList at hx
  dsimp only at hx
  split at hx
  · obtain ⟨y, hm, rfl⟩ := Option.map_eq_some_iff.1 hx
    exact pokeBytes_logOk (roomFor_logOk h hm)
  · cases hx
    exact h

theorem writeLists_logOk {r : PitchRecord} {layer : Nat} {l : List Chosen} {s : State} {res : State} (h : s.logOk = true)
    (hx : writeLists r layer l s = some res) : res.logOk = true := by
  induction l generalizing s res with
  | nil =>
    rw [writeLists] at hx
    cases hx
    exact h
  | cons x t ih =>
    rw [writeLists] at hx
    split at hx
    · split at hx
      · cases hx
      · next hy => exact ih (onPitch_logOk (writeList_logOk h hy)) hx
    · exact ih h hx

theorem doChunkLists_logOk {s : State} {r : PitchRecord} {layer : Nat} (h : s.logOk = true) : (doChunkLists s r layer).logOk = true := by
  unfold doChunkLists
  dsimp only
  split
  · exact h
  · refine ite_logOk ?_ h
    split
    · exact h
    · next hx =>
        refine rangerAccess_logOk h (fun _ h2 => ?_)
        split
        · exact h2
        · next hx1 => exact getD_logOk (fun _ hx => signalSync_logOk (writeLists_logOk h2 hx1) hx) (writeLists_logOk h2 hx1)

theorem execPagePromotionStart_logOk {pitch page : Nat} {s : State} (h : s.logOk = true) : AnswerLogOk (execPagePromotionStart pitch page s) := by
  unfold execPagePromotionStart
  refine .ite ?_ trivial
  refine .ite ?_ h
  split
  · exact h
  · next hx => exact .ite (logOk_congr (roomFor_logOk h hx) (by simp)) (logOk_congr (roomFor_logOk h hx) (by simp))

theorem warmBad_logOk {s : State} {p n : Nat} (h : s.logOk = true) : (warmBad s p n).logOk = true := by
  unfold warmBad
  exact cxlBad_logOk h

theorem restartWaits_logOk {s : State} {p n : Nat} (h : s.logOk = true) : (restartWaits s p n).logOk = true := by
  unfold restartWaits
  exact logOk_congr h (by simp)

theorem doPromotionDone_logOk {s : State} {p n : Nat} {ok : Bool} (h : s.logOk = true) : (doPromotionDone s p n ok).logOk = true := by
  unfold doPromotionDone
  refine ite_logOk h ?_
  refine rangerAccess_logOk h (fun _ h1 => ite_logOk (logOk_congr h1 (by simp)) ?_)
  exact ite_logOk (restartWaits_logOk (logOk_congr h1 (by simp))) (pageLost_logOk (putPage_logOk (freeRange_logOk (warmBad_logOk h1))))

theorem doDemotionStart_logOk {s : State} {r : PitchRecord} (h : s.logOk = true) : (doDemotionStart s r).logOk = true := by
  unfold doDemotionStart
  refine ite_logOk ?_ (logOk_congr h (by simp))
  split
  · exact logOk_congr h (by simp)
  · split
    · exact logOk_congr h (by simp)
    · next hx =>
        exact ite_logOk (logOk_congr (warmSpace_logOk (logOk_congr h (by simp)) hx) (by simp)) (logOk_congr (warmSpace_logOk (logOk_congr h
            (by simp)) hx) (by simp))

theorem doDemotionDone_logOk {s : State} {r : PitchRecord} {n : Nat} {found : List Finding} (h : s.logOk = true) :
    (doDemotionDone s r n found).logOk = true := by
  unfold doDemotionDone
  refine ite_logOk h ?_
  exact rangerReads_logOk h (fun _ h1 => ite_logOk h1 (ite_logOk (logOk_congr h1 (by simp)) (ite_logOk (dropHot_logOk (logOk_congr h1 (by simp)))
      (logOk_congr h1 (by simp)))))

theorem startWaitingAll_logOk {s : State} {p n : Nat} (h : s.logOk = true) : (startWaitingAll s p n).logOk = true := by
  unfold startWaitingAll
  exact logOk_congr h (by simp)

theorem doPageRefetched_logOk {s : State} {p n : Nat} {warmOk : Bool} (h : s.logOk = true) : (doPageRefetched s p n warmOk).logOk = true := by
  unfold doPageRefetched
  refine ite_logOk h ?_
  refine rangerAccess_logOk h (fun _ h1 => ?_)
  refine ite_logOk (startWaitingAll_logOk (rangerEvent_logOk _ _ _ _ (logOk_congr h1 (by simp)))) ?_
  exact startWaitingAll_logOk (pageLost_logOk (warmBad_logOk h1))

end Sys2Proof.Machine
end

section
/-! SUPPORT. O5: the event log stays sound under packets that the module sends (R113, R413). -/

namespace Sys2Proof.Machine

theorem pump_logOk {s : State} (h : s.logOk = true) : (pump s).logOk = true := logOk_congr h (by simp)

theorem sendPeer_logOk {s : State} {r : PitchRecord} {device : Nat} {msg : List Byte} (h : s.logOk = true) :
    (sendPeer s r device msg).logOk = true := by
  unfold sendPeer
  exact logOk_congr h (by simp)

end Sys2Proof.Machine
end

section
/-! SUPPORT. O5: the event log stays sound under programs, slots and waits (R113, R413). -/

namespace Sys2Proof.Machine

theorem writeTable_logOk {s : State} {r : PitchRecord} {n : Nat} (h : s.logOk = true) : (writeTable s r n).logOk = true := by
  unfold writeTable
  split
  · exact h
  · exact ite_logOk (logOk_congr h (by simp)) h

theorem startProgram_logOk {s : State} {r : PitchRecord} {camp rel : Nat} {k : LoadedProgram} {first slot : Nat} {params : List Word}
    {ready : NMap Nat} (h : s.logOk = true) : (startProgram s r camp rel k first slot params ready).logOk = true := by
  unfold startProgram
  exact ite_logOk h (ite_logOk (raiseFault_logOk (writeTable_logOk (logOk_congr h (by simp)))) (writeTable_logOk (logOk_congr h (by simp))))

theorem execProgramStart_logOk {pitch camp program first tableSlot : Nat} {params : List Word} {ready : NMap Nat} {s : State} (h : s.logOk = true) :
    AnswerLogOk (execProgramStart pitch camp program first tableSlot params ready s) := by
  unfold execProgramStart
  refine .ite ?_ trivial
  split
  · exact h
  · split
    · exact .ite (startProgram_logOk h) h
    · exact h

theorem fillDone_logOk {s : State} {p n : Nat} {x : Slot} (h : s.logOk = true) : (fillDone s p n x).logOk = true := by
  unfold fillDone
  exact logOk_congr h (by simp)

theorem doSlotFilled_logOk {s : State} {r : PitchRecord} {n : Nat} {found : List Finding} (h : s.logOk = true) :
    (doSlotFilled s r n found).logOk = true := by
  unfold doSlotFilled
  split
  · exact h
  · refine ite_logOk ?_ h
    split
    · exact fillDone_logOk h
    · exact rangerReads_logOk h (fun _ h1 => ite_logOk h1 (ite_logOk (fillDone_logOk (appendSlotFull_logOk h1)) (appendSlotFull_logOk h1)))

theorem doSlotDrained_logOk {s : State} {r : PitchRecord} {n : Nat} (h : s.logOk = true) : (doSlotDrained s r n).logOk = true := by
  unfold doSlotDrained
  split
  · exact h
  · exact ite_logOk (logOk_congr h (by simp)) h

theorem doTimeout_logOk {s : State} {camp : Nat} (h : s.logOk = true) : (doTimeout s camp).logOk = true := by
  unfold doTimeout
  dsimp only
  split
  · exact ite_logOk (ite_logOk (onPitch_logOk (rerunStep_logOk (writeEvent_logOk _ _ _ _ _ h))) (raiseFault_logOk h)) h
  · exact h

end Sys2Proof.Machine
end

section
/-! SUPPORT. O5: the event log stays sound under the operations on sequences (R113, R413). -/

namespace Sys2Proof.Machine

theorem stagingHeader_logOk {s : State} {r : PitchRecord} {i j : Nat} (h : s.logOk = true) : (stagingHeader s r i j).logOk = true := by
  unfold stagingHeader
  split
  · exact h
  · exact ite_logOk h (logOk_congr h (by simp))

theorem reopenPage_logOk {s : State} {r : PitchRecord} {i j p count : Nat} {res : State} (h : s.logOk = true)
    (hx : reopenPage s r i j p count = some res) : res.logOk = true := by
  unfold reopenPage at hx
  split at hx
  · cases hx
    exact h
  · obtain ⟨s1, hopen, rfl⟩ := Option.map_eq_some_iff.1 hx
    have h1 := openStaging_logOk h hopen
    split
    · exact h1
    · exact onLayerAt_logOk (logOk_congr h1 (by simp))

theorem truncateLayer_logOk {s : State} {r : PitchRecord} {i n j : Nat} {res : State} (h : s.logOk = true)
    (hx : truncateLayer s r i n j = some res) : res.logOk = true := by
  unfold truncateLayer at hx
  split at hx
  · cases hx
    exact h
  · obtain ⟨s1, hopen, rfl⟩ := Option.map_eq_some_iff.1 hx
    have h1 : s1.logOk = true := by
      split at hopen
      · cases hopen
        exact onLayerAt_logOk h
      · split at hopen
        · exact reopenPage_logOk h hopen
        · cases hopen
          exact onLayerAt_logOk h
    refine stagingHeader_logOk (getD_logOk (fun _ hfit => fitLayer_logOk ?_ hfit) ?_) <;> exact onLayerAt_logOk (dropRefs_logOk h1)

theorem truncateLayers_logOk {r : PitchRecord} {i n : Nat} {l : List Nat} {s : State} {res : State} (h : s.logOk = true)
    (hx : truncateLayers r i n l s = some res) : res.logOk = true := by
  induction l generalizing s res with
  | nil =>
    rw [truncateLayers] at hx
    cases hx
    exact h
  | cons x t ih =>
    rw [truncateLayers] at hx
    split at hx
    · cases hx
    · next hy => exact ih (truncateLayer_logOk h hy) hx

theorem importDone_logOk {s : State} {i : Nat} (h : s.logOk = true) : (importDone s i).logOk = true := by
  unfold importDone
  dsimp only
  split
  · exact h
  · refine ite_logOk h ?_
    exact ite_logOk (answer_logOk (rangerEvent_logOk _ _ _ _ (logOk_congr h (by simp)))) (rangerEvent_logOk _ _ _ _ (logOk_congr h (by simp)))

theorem truncateSeq_logOk {s : State} {r : PitchRecord} {i n : Nat} {res : State} (h : s.logOk = true) (hx : truncateSeq s r i n = some res) :
    res.logOk = true := by
  unfold truncateSeq at hx
  obtain ⟨y, hm, rfl⟩ := Option.map_eq_some_iff.1 hx
  exact importDone_logOk (logOk_congr (truncateLayers_logOk h hm) (by simp))

theorem journalNote_logOk {s : State} {i : Nat} (h : s.logOk = true) : (journalNote s i).logOk = true := by
  unfold journalNote
  exact logOk_congr h (by simp)

theorem insertNode_logOk {s : State} {r : PitchRecord} {i c : Nat} {tokens : List Nat} (h : s.logOk = true) :
    (insertNode s r i c tokens).logOk = true := by
  unfold insertNode
  refine ite_logOk h ?_
  refine ite_logOk h ?_
  dsimp only
  split
  · exact h
  · next hx => exact logOk_congr (spaceNow_logOk h hx) (by simp)

theorem touchNodes_logOk {s : State} {p : Nat} {chain : List Nat} (h : s.logOk = true) : (touchNodes s p chain).logOk = true := by
  unfold touchNodes
  exact logOk_congr h (by simp)

theorem nodeUsers_logOk {s : State} {p : Nat} {node : Option Nat} {f : Nat → Nat} (h : s.logOk = true) : (nodeUsers s p node f).logOk = true := by
  unfold nodeUsers
  split
  · exact h
  · exact logOk_congr h (by simp)

theorem holdIfLost_logOk {s : State} {i : Nat} (h : s.logOk = true) : (holdIfLost s i).logOk = true := by
  unfold holdIfLost
  exact ite_logOk (holdSeq_logOk h) h

theorem createSeq_logOk {s : State} {r : PitchRecord} {i : Nat} {chain tokens : List Nat} {insert : Bool} (h : s.logOk = true) :
    (createSeq s r i chain tokens insert).logOk = true := by
  unfold createSeq
  exact journalNote_logOk (putSeq_logOk (nodeUsers_logOk (touchNodes_logOk (logOk_congr h (by simp)))))

theorem copyStaging_logOk {s : State} {r : PitchRecord} {i j : Nat} {res : State} (h : s.logOk = true) (hx : copyStaging s r i j = some res) :
    res.logOk = true := by
  unfold copyStaging at hx
  split at hx
  · cases hx
    exact h
  · split at hx
    · cases hx
      exact onLayerAt_logOk h
    · dsimp only at hx
      split at hx
      · cases hx
      · next hy =>
          cases hx
          exact stagingHeader_logOk (onLayerAt_logOk (logOk_congr (spaceNow_logOk h hy) (by simp)))

theorem copyStagings_logOk {r : PitchRecord} {i : Nat} {l : List Nat} {s : State} {res : State} (h : s.logOk = true)
    (hx : copyStagings r i l s = some res) : res.logOk = true := by
  induction l generalizing s res with
  | nil =>
    rw [copyStagings] at hx
    cases hx
    exact h
  | cons x t ih =>
    rw [copyStagings] at hx
    split at hx
    · cases hx
    · next hy => exact ih (copyStaging_logOk h hy) hx

theorem forkSeq_logOk {s : State} {r : PitchRecord} {i k : Nat} {res : State} (h : s.logOk = true) (hx : forkSeq s r i k = some res) :
    res.logOk = true := by
  unfold forkSeq at hx
  dsimp only at hx
  split at hx
  · obtain ⟨s1, hcopy, hfit⟩ := Option.bind_eq_some_iff.1 hx
    exact fitSeq_logOk (copyStagings_logOk (logOk_congr h (by simp)) hcopy) hfit
  · cases hx

theorem freeStagings_logOk {p : Nat} {l : List LayerState} {s : State} (h : s.logOk = true) : (freeStagings p l s).logOk = true := by
  induction l generalizing s with
  | nil => exact h
  | cons x t ih =>
    rw [freeStagings]
    exact ih (freePlaces_logOk (logOk_congr h (by simp)))

theorem releaseSeq_logOk {s : State} {i : Nat} (h : s.logOk = true) : (releaseSeq s i).logOk = true := by
  unfold releaseSeq
  exact freeEntry_logOk (nodeUsers_logOk (freeStagings_logOk (logOk_congr h (by simp))))

theorem freeSeq_logOk {s : State} {i : Nat} (h : s.logOk = true) : (freeSeq s i).logOk = true := by
  unfold freeSeq
  exact tellGroup_logOk (releaseSeq_logOk h)

theorem beginPark_logOk {s : State} {i : Nat} {rid : Option Nat} {tag space : Nat} {d : ParkDesc} (h : s.logOk = true) :
    (beginPark s i rid tag space d).logOk = true := by
  unfold beginPark
  exact logOk_congr h (by simp)

theorem resumeInPlace_logOk {s : State} {i tag : Nat} {o : Origin} {places : NMap (Nat × Nat)} (h : s.logOk = true) :
    (resumeInPlace s i tag o places).logOk = true := by
  unfold resumeInPlace
  exact ite_logOk (logOk_congr h (by simp)) (rangerEvent_logOk _ _ _ _ (logOk_congr h (by simp)))

end Sys2Proof.Machine
end

section
/-! SUPPORT. O5: the event log stays sound under parked images (R113, R413). -/

namespace Sys2Proof.Machine

theorem sendImage_logOk {n tag l l1 : Nat} {l2 : List Byte} {s : State} (h : s.logOk = true) : (sendImage n tag l l1 l2 s).logOk = true := by
  induction l generalizing l1 l2 s with
  | zero => exact h
  | succ n ih =>
    rw [sendImage]
    exact ite_logOk h (ih (logOk_congr h (by simp)))

theorem reserveStaging_logOk {r : PitchRecord} {i : Nat} {m : ImageRead} {l : List Nat} {s : State} {res : State} (h : s.logOk = true)
    (hx : reserveStaging r i m l s = some res) : res.logOk = true := by
  induction l generalizing s res with
  | nil =>
    rw [reserveStaging] at hx
    cases hx
    exact h
  | cons x t ih =>
    rw [reserveStaging] at hx
    dsimp only at hx
    split at hx
    · exact ih (onLayerAt_logOk h) hx
    · split at hx
      · cases hx
      · next hy => exact ih (onLayerAt_logOk (spaceNow_logOk h hy)) hx

theorem addPage_logOk {s : State} {r : PitchRecord} {i j k : Nat} {m : ImageRead} {res : State} (h : s.logOk = true)
    (hx : addPage s r i j k m = some res) : res.logOk = true := by
  unfold addPage at hx
  dsimp only at hx
  split at hx
  · split at hx
    · cases hx
      exact onLayerAt_logOk (logOk_congr h (by simp))
    · cases hx
  · obtain ⟨y, hm, rfl⟩ := Option.map_eq_some_iff.1 hx
    exact onLayerAt_logOk (putPage_logOk (newPage_logOk h hm))

theorem addPages_logOk {r : PitchRecord} {i j : Nat} {m : ImageRead} {l : List Nat} {s : State} {res : State} (h : s.logOk = true)
    (hx : addPages r i j m l s = some res) : res.logOk = true := by
  induction l generalizing s res with
  | nil =>
    rw [addPages] at hx
    cases hx
    exact h
  | cons x t ih =>
    rw [addPages] at hx
    split at hx
    · cases hx
    · next hy => exact ih (addPage_logOk h hy) hx

theorem readLayers_logOk {r : PitchRecord} {i : Nat} {m : ImageRead} {l : List Nat} {s : State} {res : State} (h : s.logOk = true)
    (hx : readLayers r i m l s = some res) : res.logOk = true := by
  induction l generalizing s res with
  | nil =>
    rw [readLayers] at hx
    cases hx
    exact h
  | cons x t ih =>
    rw [readLayers] at hx
    dsimp only at hx
    split at hx
    · cases hx
    · next hy =>
        split at hx
        · cases hx
        · next hy1 =>
            exact ih (stagingHeader_logOk (fitLayer_logOk (onLayerAt_logOk (addPages_logOk (ite_logOk h (logOk_congr h (by simp))) hy)) hy1)) hx

theorem restoreSummaries_logOk {s : State} {p heads d j : Nat} {m : ImageRead} {l : List (Nat × Nat)} {res : State} (h : s.logOk = true)
    (hx : restoreSummaries s p heads d j m l = some res) : res.logOk = true := by
  induction l generalizing s res with
  | nil =>
    rw [restoreSummaries] at hx
    cases hx
    exact h
  | cons x t ih =>
    obtain ⟨_, _⟩ := x
    rw [restoreSummaries] at hx
    split at hx
    · split at hx
      · cases hx
      · next hy => exact ih (logOk_congr (spaceNow_logOk h hy) (by simp)) hx
    · exact ih h hx

theorem restoreLayers_logOk {r : PitchRecord} {i : Nat} {m : ImageRead} {l : List Nat} {s : State} {res : State} (h : s.logOk = true)
    (hx : restoreLayers r i m l s = some res) : res.logOk = true := by
  induction l generalizing s res with
  | nil =>
    rw [restoreLayers] at hx
    cases hx
    exact h
  | cons x t ih =>
    rw [restoreLayers] at hx
    dsimp only at hx
    split at hx
    · cases hx
    · next hy => exact ih (restoreSummaries_logOk h hy) hx

theorem takeImage_logOk {s : State} {r : PitchRecord} {i count space : Nat} {bs : List Byte} {m : ImageRead} {res : State} (h : s.logOk = true)
    (hx : takeImage s r i count space bs m = .ok res) : res.logOk = true := by
  unfold takeImage at hx
  split at hx
  · cases hx
  · dsimp only at hx
    split at hx
    · cases hx
    · next hy =>
        split at hx
        · cases hx
        · split at hx
          · cases hx
          · cases hx
            exact reserveStaging_logOk (logOk_congr h (by simp)) hy

theorem askRange_logOk {s : State} {x : ImageSource} {tag : Nat} {a : Nat × Nat} (h : s.logOk = true) : (askRange s x tag a).logOk = true := by
  unfold askRange
  exact ite_logOk (sendMessage_logOk (ite_logOk (logOk_congr h (by simp)) h)) (logOk_congr h (by simp))

theorem askRanges_logOk {x : ImageSource} {tag : Nat} {l : List (Nat × Nat)} {s : State} (h : s.logOk = true) :
    (askRanges x tag l s).logOk = true := by
  induction l generalizing s with
  | nil => exact h
  | cons x t ih =>
    rw [askRanges]
    exact ih (askRange_logOk h)

theorem askPage_logOk {s : State} {i : Nat} (h : s.logOk = true) : (askPage s i).logOk = true := by
  unfold askPage
  dsimp only
  split
  · split
    · exact askRange_logOk h
    · exact h
  · exact h

theorem imageTaken_logOk {s : State} {i tag : Nat} {o : Origin} {m : ImageRead} (h : s.logOk = true) : (imageTaken s i tag o m).logOk = true := by
  unfold imageTaken
  exact askPage_logOk (logOk_congr h (by simp))

theorem resumeExported_logOk {s : State} {r : PitchRecord} {i tag : Nat} {o : Origin} {m : ImageRead} {res : State} (h : s.logOk = true)
    (hx : resumeExported s r i tag o m = some res) : res.logOk = true := by
  unfold resumeExported at hx
  obtain ⟨y, hm, rfl⟩ := Option.map_eq_some_iff.1 hx
  exact importDone_logOk (askPage_logOk (resumeInPlace_logOk (restoreLayers_logOk h hm)))

end Sys2Proof.Machine
end

section
/-! SUPPORT. O5: the event log stays sound under the decisions of the lead (R113, R413). -/

namespace Sys2Proof.Machine

theorem openEntry_logOk {s : State} {i : Nat} (h : s.logOk = true) : (openEntry s i).logOk = true := by
  unfold openEntry
  exact logOk_congr h (by simp)

theorem heldEntry_logOk {s : State} {r : PitchRecord} {i : Nat} (h : s.logOk = true) : (heldEntry s r i).logOk = true := by
  unfold heldEntry
  exact holdSeq_logOk (logOk_congr h (by simp))

theorem refusedEvent_logOk {s : State} {p check result : Nat} {m : ImageRead} (h : s.logOk = true) :
    (refusedEvent s p check result m).logOk = true := by
  unfold refusedEvent
  exact rangerEvent_logOk _ _ _ _ h

theorem tellRefusal_logOk {s : State} {r : PitchRecord} {i check result : Nat} (h : s.logOk = true) :
    (tellRefusal s r i check result).logOk = true := by
  unfold tellRefusal
  exact sendPeer_logOk h

theorem followResume_logOk {s : State} {r : PitchRecord} {hd tag : Nat} {sources : List Byte} {m : ImageRead} (h : s.logOk = true) :
    (followResume s r hd tag sources m).logOk = true := by
  unfold followResume
  dsimp only
  have hasked (x : ImageSource) : (if sourceOk r x (sourceFor sources r) then askRanges x tag (allReads m) s else s).logOk = true := by
    split
    · exact askRanges_logOk h
    · exact h
  split
  · exact tellRefusal_logOk (refusedEvent_logOk (hasked _))
  · next hy =>
      split
      · exact tellRefusal_logOk (refusedEvent_logOk (hasked _))
      · next hx => exact holdIfLost_logOk (imageTaken_logOk (readLayers_logOk (takeImage_logOk (openEntry_logOk (hasked _)) hy) hx))

theorem followCheck_logOk {s0 : State} {r : PitchRecord} {i tag : Nat} {image : Option ImageRead} (h : s0.logOk = true) :
    (followCheck s0 r i tag image).logOk = true := by
  unfold followCheck
  dsimp only
  split
  · refine ite_logOk h ?_
    refine ite_logOk (tellRefusal_logOk (askRanges_logOk h)) ?_
    exact ite_logOk (tellRefusal_logOk (askRanges_logOk h)) (askRanges_logOk h)
  · exact h

theorem followInPlace_logOk {s : State} {r : PitchRecord} {i tag : Nat} {image : Option ImageRead} (h : s.logOk = true) :
    (followInPlace s r i tag image).logOk = true := by
  unfold followInPlace
  refine ite_logOk h ?_
  split
  · exact resumeInPlace_logOk h
  · exact h
  · exact getD_logOk (fun _ hx => resumeExported_logOk h hx) (holdSeq_logOk h)

theorem followFork_logOk {s : State} {r : PitchRecord} {parent child : Nat} (h : s.logOk = true) : (followFork s r parent child).logOk = true := by
  unfold followFork
  split
  · exact heldEntry_logOk h
  · next hx => exact holdIfLost_logOk (forkSeq_logOk (openEntry_logOk h) hx)

theorem applyDecision_logOk {s : State} {r : PitchRecord} {l : LeadDecision} (h : s.logOk = true) : (applyDecision s r l).logOk = true := by
  unfold applyDecision
  split
  · dsimp only
    split
    · next hx =>
        exact ite_logOk (holdIfLost_logOk (logOk_congr (fitSeq_logOk (createSeq_logOk (openEntry_logOk h)) hx) (by simp))) (heldEntry_logOk h)
    · exact heldEntry_logOk h
  · exact ite_logOk (insertNode_logOk h) h
  · split
    · exact h
    · exact logOk_congr h (by simp)
  · exact ite_logOk (getD_logOk (fun _ hx => truncateSeq_logOk h hx) (holdAtBoundary_logOk h)) h
  · exact ite_logOk (followFork_logOk h) h
  · exact ite_logOk (beginPark_logOk h) h
  · exact ite_logOk (devicePark_logOk h) h
  · exact ite_logOk (followCheck_logOk h) h
  · exact ite_logOk (followInPlace_logOk h) h
  · exact followResume_logOk h
  · exact ite_logOk (releaseSeq_logOk h) h

theorem applyDecisions_logOk {r : PitchRecord} {l : List LeadDecision} {s : State} (h : s.logOk = true) : (applyDecisions r l s).logOk = true := by
  induction l generalizing s with
  | nil => exact h
  | cons x t ih =>
    rw [applyDecisions]
    exact ih (applyDecision_logOk h)

end Sys2Proof.Machine
end

section
/-! SUPPORT. O5: the event log stays sound under the serving loop (R113, R413). -/

namespace Sys2Proof.Machine

theorem endRequest_logOk {s : State} {i : Nat} {q : Request} {result endCode : Nat} (h : s.logOk = true) :
    (endRequest s i q result endCode).logOk = true := by
  unfold endRequest
  exact ite_logOk (freeSeq_logOk (logOk_congr h (by simp))) (logOk_congr h (by simp))

theorem takeRows_logOk {r : PitchRecord} {tick : Nat} {masks : NMap Nat} {l : Room} {l1 : List MicroRow} {l2 : List Nat} {s : State}
    (h : s.logOk = true) : (takeRows r tick masks l l1 l2 s).1.logOk = true := by
  induction l2 generalizing l l1 s with
  | nil =>
    rw [takeRows]
    exact h
  | cons x t ih =>
    rw [takeRows]
    split
    · exact ih h
    · dsimp only
      split
      · exact ih h
      · split
        · exact ih (endRequest_logOk h)
        · split
          · exact ih (endRequest_logOk h)
          · split
            · exact ih (endRequest_logOk h)
            · split
              · exact ih (endRequest_logOk h)
              · split
                · exact ih h
                · exact ih (logOk_congr h (by simp))

theorem compose_logOk {s : State} {r : PitchRecord} {tick : Nat} {masks : NMap Nat} (h : s.logOk = true) :
    (compose s r tick masks).1.logOk = true := by
  unfold compose
  exact takeRows_logOk h

theorem followRow_logOk {s : State} {r : PitchRecord} {x : LengthRow} (h : s.logOk = true) : (followRow s r x).logOk = true := by
  unfold followRow
  exact ite_logOk (logOk_congr h (by simp)) (logOk_congr h (by simp))

theorem followRows_logOk {r : PitchRecord} {l : List LengthRow} {s : State} (h : s.logOk = true) : (followRows r l s).logOk = true := by
  induction l generalizing s with
  | nil => exact h
  | cons x t ih =>
    rw [followRows]
    exact ih (followRow_logOk h)

theorem placeStagings_logOk {s : State} {p : Nat} {rows : List MicroRow} (h : s.logOk = true) : (placeStagings s p rows).logOk = true := by
  unfold placeStagings
  exact logOk_congr h (by simp)

theorem enterStep_logOk {s : State} {p m : Nat} {rows : List MicroRow} (h : s.logOk = true) : (enterStep s p m rows).logOk = true := by
  unfold enterStep
  exact onPitch_logOk (placeStagings_logOk h)

theorem trimTree_logOk {p need l : Nat} {s : State} (h : s.logOk = true) : (trimTree p need l s).logOk = true := by
  induction l generalizing s with
  | zero => exact h
  | succ n ih =>
    rw [trimTree]
    refine ite_logOk h ?_
    split
    · exact h
    · exact ih (removeIdle_logOk h)

theorem sendStarts_logOk {r : PitchRecord} {n tick : Nat} {ds : List LeadDecision} {l : List Nat} {s : State} (h : s.logOk = true) :
    (sendStarts r n tick ds l s).logOk = true := by
  induction l generalizing s with
  | nil => exact h
  | cons x t ih =>
    rw [sendStarts]
    exact ih (sendPeer_logOk h)

theorem leadStart_logOk {s : State} {r : PitchRecord} {n tick : Nat} {rows : List MicroRow} (h : s.logOk = true) :
    (leadStart s r n tick rows).logOk = true := by
  unfold leadStart
  exact onPitch_logOk (sendStarts_logOk (enterStep_logOk (ite_logOk (trimTree_logOk h) h)))

theorem tellStopped_logOk {s : State} {r : PitchRecord} {tick : Nat} (h : s.logOk = true) : (tellStopped s r tick).logOk = true := by
  unfold tellStopped
  exact ite_logOk (onPitch_logOk (sendStarts_logOk h)) h

theorem startStep_logOk {s0 : State} {r : PitchRecord} {table : List LengthRow} {decisions : List LeadDecision} {masks : NMap Nat}
    (h : s0.logOk = true) : (startStep s0 r table decisions masks).logOk = true := by
  unfold startStep
  refine ite_logOk (ite_logOk h (repairNow_logOk h)) ?_
  refine ite_logOk (tellStopped_logOk (ite_logOk h (repairNow_logOk h))) ?_
  refine ite_logOk (leadStart_logOk (compose_logOk (ite_logOk h (repairNow_logOk h)))) ?_
  exact enterStep_logOk (followRows_logOk (applyDecisions_logOk (ite_logOk h (repairNow_logOk h))))

theorem writeToken_logOk {s : State} {q : Request} {k token : Nat} (h : s.logOk = true) : (writeToken s q k token).logOk = true := by
  unfold writeToken
  split
  · exact logOk_congr h (by simp)
  · exact h

theorem progress_logOk {s : State} {i : Nat} {q : Request} (h : s.logOk = true) : (progress s i q).logOk = true := by
  unfold progress
  exact ite_logOk (logOk_congr h (by simp)) h

theorem takeToken_logOk {s : State} {i : Nat} {q : Request} {token : Nat} (h : s.logOk = true) : (takeToken s i q token).logOk = true := by
  unfold takeToken
  refine ite_logOk (endRequest_logOk (progress_logOk (onSeq_logOk (onReq_logOk (writeToken_logOk h))))) ?_
  refine ite_logOk (endRequest_logOk (progress_logOk (onSeq_logOk (onReq_logOk (writeToken_logOk h))))) ?_
  refine ite_logOk (endRequest_logOk (progress_logOk (onSeq_logOk (onReq_logOk (writeToken_logOk h))))) ?_
  exact progress_logOk (onSeq_logOk (onReq_logOk (writeToken_logOk h)))

theorem nextStep_logOk {s : State} {i : Nat} {q : Request} (h : s.logOk = true) : (nextStep s i q).logOk = true := by
  unfold nextStep
  exact ite_logOk (endRequest_logOk h) (logOk_congr h (by simp))

theorem closeRow_logOk {s : State} {m : MicroRow} {token : Option Nat} (h : s.logOk = true) : (closeRow s m token).logOk = true := by
  unfold closeRow
  split
  · exact h
  · refine ite_logOk h ?_
    refine ite_logOk (nextStep_logOk h) ?_
    refine ite_logOk (endRequest_logOk h) ?_
    split
    · exact nextStep_logOk h
    · exact takeToken_logOk h

theorem closeRows_logOk {tokens : NMap Nat} {l : List MicroRow} {s : State} (h : s.logOk = true) : (closeRows tokens l s).logOk = true := by
  induction l generalizing s with
  | nil => exact h
  | cons x t ih =>
    rw [closeRows]
    exact ih (closeRow_logOk h)

theorem commitPages_logOk {r : PitchRecord} {i j : Nat} {l : List Nat} {s : State} (h : s.logOk = true) : (commitPages r i j l s).logOk = true := by
  induction l generalizing s with
  | nil => exact h
  | cons x t ih =>
    rw [commitPages]
    exact ite_logOk (ih h) (ih (ite_logOk (onLayerAt_logOk (onLayerAt_logOk (logOk_congr h (by simp)))) (onLayerAt_logOk (logOk_congr h (by simp)))))

theorem commitLayer_logOk {s : State} {r : PitchRecord} {i j : Nat} (h : s.logOk = true) : (commitLayer s r i j).logOk = true := by
  unfold commitLayer
  split
  · exact h
  · exact stagingHeader_logOk (onLayerAt_logOk (commitPages_logOk (ite_logOk h (logOk_congr h (by simp)))))

theorem commitLayers_logOk {r : PitchRecord} {i : Nat} {l : List Nat} {s : State} (h : s.logOk = true) : (commitLayers r i l s).logOk = true := by
  induction l generalizing s with
  | nil => exact h
  | cons x t ih =>
    rw [commitLayers]
    exact ih (commitLayer_logOk h)

theorem noteDecision_logOk {s : State} {i : Nat} {d : Decision} (h : s.logOk = true) : (noteDecision s i d).logOk = true := by
  unfold noteDecision
  exact logOk_congr h (by simp)

theorem applyOutcome_logOk {s : State} {r : PitchRecord} {i j : Nat} {o : Bool} {value : Nat} (h : s.logOk = true) :
    (applyOutcome s r i j o value).logOk = true := by
  unfold applyOutcome
  dsimp only
  split
  · exact h
  · refine ite_logOk (onLayerAt_logOk h) ?_
    refine ite_logOk (noteDecision_logOk (onLayerAt_logOk h)) ?_
    refine ite_logOk ?_ (rangerEvent_logOk _ _ _ _ (noteDecision_logOk (onLayerAt_logOk h)))
    exact ite_logOk (noteDecision_logOk (onLayerAt_logOk h)) (rangerEvent_logOk _ _ _ _ (noteDecision_logOk (onLayerAt_logOk h)))

theorem applyOutcomes_logOk {r : PitchRecord} {i : Nat} {l : List Nat} {s : State} (h : s.logOk = true) : (applyOutcomes r i l s).logOk = true := by
  induction l generalizing s with
  | nil => exact h
  | cons x t ih =>
    rw [applyOutcomes]
    split
    · exact ih h
    · split
      · exact ih h
      · exact ih (applyOutcome_logOk (ite_logOk (onLayerAt_logOk h) h))

theorem insertNodes_logOk {r : PitchRecord} {i : Nat} {l : List Nat} {s : State} (h : s.logOk = true) : (insertNodes r i l s).logOk = true := by
  induction l generalizing s with
  | nil => exact h
  | cons x t ih =>
    rw [insertNodes]
    exact ih (insertNode_logOk h)

theorem insertRow_logOk {s : State} {r : PitchRecord} {m : MicroRow} (h : s.logOk = true) : (insertRow s r m).logOk = true := by
  unfold insertRow
  exact ite_logOk (insertNodes_logOk h) h

theorem insertRows_logOk {r : PitchRecord} {l : List MicroRow} {s : State} (h : s.logOk = true) : (insertRows r l s).logOk = true := by
  induction l generalizing s with
  | nil => exact h
  | cons x t ih =>
    rw [insertRows]
    exact ih (insertRow_logOk h)

theorem commitRow_logOk {s : State} {r : PitchRecord} {m : MicroRow} (h : s.logOk = true) : (commitRow s r m).logOk = true := by
  unfold commitRow
  refine ite_logOk h ?_
  refine ite_logOk (insertRow_logOk (onSeq_logOk (commitLayers_logOk (applyOutcomes_logOk h)))) ?_
  exact onSeq_logOk (commitLayers_logOk (applyOutcomes_logOk h))

theorem commitRows_logOk {r : PitchRecord} {l : List MicroRow} {s : State} (h : s.logOk = true) : (commitRows r l s).logOk = true := by
  induction l generalizing s with
  | nil => exact h
  | cons x t ih =>
    rw [commitRows]
    exact ih (commitRow_logOk h)

theorem journalRows_logOk {l : List MicroRow} {s : State} (h : s.logOk = true) : (journalRows l s).logOk = true := by
  induction l generalizing s with
  | nil => exact h
  | cons x t ih =>
    rw [journalRows]
    exact ih (ite_logOk h (journalNote_logOk h))

theorem clearStep_logOk {s : State} {p : Nat} (h : s.logOk = true) : (clearStep s p).logOk = true := by
  unfold clearStep
  exact logOk_congr h (by simp)

theorem clearHolds_logOk {s : State} {g : Option Nat} {ps : List Nat} (h : s.logOk = true) : (clearHolds s g ps).logOk = true := by
  unfold clearHolds
  exact logOk_congr h (by simp)

theorem restoreModel_logOk {s : State} {p : Nat} (h : s.logOk = true) : (restoreModel s p).logOk = true := by
  unfold restoreModel
  split
  · exact h
  · split
    · exact h
    · exact rangerEvent_logOk _ _ _ _ (clearHolds_logOk (logOk_congr h (by simp)))

theorem reportClose_logOk {s : State} {r : PitchRecord} {tokens : NMap Nat} (h : s.logOk = true) : (reportClose s r tokens).logOk = true := by
  unfold reportClose
  exact ite_logOk (logOk_congr h (by simp)) (onPitch_logOk (sendPeer_logOk h))

theorem allReported_logOk {s : State} {r : PitchRecord} (h : s.logOk = true) : (allReported s r).logOk = true := by
  unfold allReported
  exact ite_logOk (onPitch_logOk (insertRows_logOk h)) h

theorem parkMarked_logOk {s : State} {r : PitchRecord} (h : s.logOk = true) : (parkMarked s r).logOk = true := by
  unfold parkMarked
  exact deviceParks_logOk (logOk_congr h (by simp))

theorem checkpointPairs_logOk {s : State} (h : s.logOk = true) : (checkpointPairs s).logOk = true := by
  unfold checkpointPairs
  exact logOk_congr h (by simp)

theorem boundary_logOk {s0 : State} {r : PitchRecord} {logits : List RowLogits} {found : List Finding} (h : s0.logOk = true) :
    (boundary s0 r logits found).logOk = true := by
  unfold boundary
  refine ite_logOk h ?_
  refine rangerReads_logOk h (fun _ h1 => ?_)
  refine ite_logOk h1 ?_
  exact checkpointPairs_logOk (parkMarked_logOk (allReported_logOk (reportClose_logOk (restoreModel_logOk (clearStep_logOk (journalRows_logOk
      (ite_logOk (closeRows_logOk (onPitch_logOk (commitRows_logOk h1))) (commitRows_logOk h1))))))))

theorem takeReport_logOk {s : State} {r : PitchRecord} {position : Nat} {tokens : NMap Nat} (h : s.logOk = true) :
    (takeReport s r position tokens).logOk = true := by
  unfold takeReport
  exact ite_logOk h (parkMarked_logOk (allReported_logOk (ite_logOk (closeRows_logOk (logOk_congr h (by simp))) (logOk_congr h (by simp)))))

end Sys2Proof.Machine
end

section
/-! SUPPORT. O5: the event log stays sound under the sequence commands (R113, R413). -/

namespace Sys2Proof.Machine

theorem preemptRequests_logOk {s : State} {i : Nat} (h : s.logOk = true) : (preemptRequests s i).logOk = true := by
  unfold preemptRequests
  refine endQueued_logOk ?_
  split
  · exact h
  · exact logOk_congr h (by simp)

theorem afterPreempt_logOk {s : State} {q : Request} (h : s.logOk = true) : (afterPreempt s q).logOk = true := by
  unfold afterPreempt
  exact ite_logOk (preemptRequests_logOk h) h

theorem onDue_logOk {s0 : State} {rid op : Nat} {f : State → Request → PitchRecord → State} (h : s0.logOk = true)
    (hk : ∀ t, t.logOk = true → ∀ a b, (f t a b).logOk = true) : (onDue s0 rid op f).logOk = true := by
  unfold onDue
  split
  · exact h
  · refine ite_logOk (logOk_congr h (by simp)) ?_
    refine ite_logOk (afterPreempt_logOk h) ?_
    refine ite_logOk (finishPlain_logOk (afterPreempt_logOk h)) ?_
    exact ite_logOk (finishPlain_logOk (afterPreempt_logOk h)) (hk _ (afterPreempt_logOk h) _ _)

theorem doCreate_logOk {s : State} {q : Request} {r : PitchRecord} (h : s.logOk = true) : (doCreate s q r).logOk = true := by
  unfold doCreate
  split
  · exact logOk_congr h (by simp)
  · refine ite_logOk ?_ (logOk_congr h (by simp))
    split
    · exact logOk_congr h (by simp)
    · next hx => exact holdIfLost_logOk (logOk_congr (fitSeq_logOk (createSeq_logOk h) hx) (by simp))

theorem doContinue_logOk {s : State} {q : Request} (h : s.logOk = true) : (doContinue s q).logOk = true := by
  unfold doContinue
  dsimp only
  split
  · exact logOk_congr h (by simp)
  · exact ite_logOk (logOk_congr h (by simp)) (logOk_congr h (by simp))
  · exact logOk_congr h (by simp)

theorem finishTruncate_logOk {s : State} {q : Request} {r : PitchRecord} (h : s.logOk = true) : (finishTruncate s q r).logOk = true := by
  unfold finishTruncate
  split
  · exact logOk_congr h (by simp)
  · next hx => exact logOk_congr (truncateSeq_logOk h hx) (by simp)

theorem doTruncate_logOk {s : State} {q : Request} {r : PitchRecord} (h : s.logOk = true) : (doTruncate s q r).logOk = true := by
  unfold doTruncate
  exact ite_logOk (logOk_congr h (by simp)) (ite_logOk (logOk_congr h (by simp)) (ite_logOk (logOk_congr h (by simp)) (ite_logOk (logOk_congr h
      (by simp)) (finishTruncate_logOk h))))

theorem doCopyDone_logOk {s : State} {q : Request} {r : PitchRecord} {found : List Finding} (h : s.logOk = true) :
    (doCopyDone s q r found).logOk = true := by
  unfold doCopyDone
  refine ite_logOk (logOk_congr h (by simp)) ?_
  exact ite_logOk h (rangerReads_logOk h (fun _ h1 => ite_logOk h1 (ite_logOk (logOk_congr h1 (by simp)) (finishTruncate_logOk h1))))

theorem execTruncationCopyDone_logOk {rid : Nat} {found : List Finding} {s : State} (h : s.logOk = true) :
    AnswerLogOk (execTruncationCopyDone rid found s) := by
  unfold execTruncationCopyDone
  split
  · exact h
  · split
    · exact h
    · exact .ite (doCopyDone_logOk h) h

theorem doFork_logOk {s : State} {q : Request} {r : PitchRecord} (h : s.logOk = true) : (doFork s q r).logOk = true := by
  unfold doFork
  refine ite_logOk (logOk_congr h (by simp)) ?_
  split
  · exact logOk_congr h (by simp)
  · split
    · exact logOk_congr h (by simp)
    · next hx => exact holdIfLost_logOk (logOk_congr (forkSeq_logOk h hx) (by simp))

theorem doFree_logOk {s : State} {q : Request} (h : s.logOk = true) : (doFree s q).logOk = true := by
  unfold doFree
  exact freeSeq_logOk (logOk_congr h (by simp))

theorem doPark_logOk {s : State} {q : Request} (h : s.logOk = true) : (doPark s q).logOk = true := by
  unfold doPark
  refine ite_logOk (logOk_congr h (by simp)) ?_
  exact ite_logOk (finishPlain_logOk (tellGroup_logOk (beginPark_logOk h))) (onReq_logOk (tellGroup_logOk (beginPark_logOk h)))

theorem doFormDone_logOk {s : State} {r : PitchRecord} {i : Nat} {back : NMap (List Byte)} {found : List Finding} (h : s.logOk = true) :
    (doFormDone s r i back found).logOk = true := by
  unfold doFormDone
  dsimp only
  split
  · exact h
  · refine ite_logOk h ?_
    split
    · exact pageLost_logOk h
    · refine rangerReads_logOk h (fun _ h1 => ite_logOk h1 ?_)
      exact ite_logOk (abortPark_logOk (logOk_congr h1 (by simp))) (onSeq_logOk (ite_logOk (logOk_congr h1 (by simp)) (sendImage_logOk (logOk_congr
          h1 (by simp)))))

theorem execParkFormDone_logOk {seq : Nat} {exported : NMap (List Byte)} {found : List Finding} {s : State} (h : s.logOk = true) :
    AnswerLogOk (execParkFormDone seq exported found s) := by
  unfold execParkFormDone
  refine .ite ?_ trivial
  split
  · exact h
  · exact doFormDone_logOk h

theorem exportPage_logOk {s : State} {p n : Nat} (h : s.logOk = true) : (exportPage s p n).logOk = true := by
  unfold exportPage
  exact ite_logOk (logOk_congr h (by simp)) h

theorem exportPages_logOk {p : Nat} {l : List Nat} {s : State} (h : s.logOk = true) : (exportPages p l s).logOk = true := by
  induction l generalizing s with
  | nil => exact h
  | cons x t ih =>
    rw [exportPages]
    exact ih (exportPage_logOk h)

theorem completePark_logOk {s : State} {k : ParkState} (h : s.logOk = true) : (completePark s k).logOk = true := by
  unfold completePark
  split
  · exact h
  · exact logOk_congr h (by simp)

theorem doParkCommit_logOk {s : State} {i : Nat} {error : Bool} (h : s.logOk = true) : (doParkCommit s i error).logOk = true := by
  unfold doParkCommit
  dsimp only
  split
  · exact h
  · refine ite_logOk h ?_
    refine ite_logOk (abortPark_logOk h) ?_
    refine ite_logOk h ?_
    refine ite_logOk (releaseSeq_logOk (completePark_logOk (logOk_congr h (by simp)))) ?_
    exact onSeq_logOk (exportPages_logOk (completePark_logOk (logOk_congr h (by simp))))

theorem refuseResume_logOk {s : State} {q : Request} {check result : Nat} {m : ImageRead} (h : s.logOk = true) :
    (refuseResume s q check result m).logOk = true := by
  unfold refuseResume
  exact finish_logOk (refusedEvent_logOk h)

theorem withImage_logOk {s : State} {q : Request} {x : ImageSource} {m : ImageRead} {k : State → State} (h : s.logOk = true)
    (hk : ∀ t, t.logOk = true → (k t).logOk = true) : (withImage s q x m k).logOk = true := by
  unfold withImage
  refine ite_logOk h ?_
  split
  · exact hk _ h
  · exact askRanges_logOk (logOk_congr h (by simp))

theorem resumeImage_logOk {s : State} {q : Request} {r : PitchRecord} {m : ImageRead} (h : s.logOk = true) :
    (resumeImage s q r m).logOk = true := by
  unfold resumeImage
  split
  · exact refuseResume_logOk h
  · split
    · exact refuseResume_logOk h
    · next hx => exact tellGroup_logOk (onReq_logOk (takeImage_logOk h hx))

theorem finishInPlace_logOk {s : State} {q : Request} {r : PitchRecord} {m : ImageRead} (h : s.logOk = true) :
    (finishInPlace s q r m).logOk = true := by
  unfold finishInPlace
  split
  · exact logOk_congr h (by simp)
  · next hx => exact logOk_congr (resumeExported_logOk (logOk_congr h (by simp)) hx) (by simp)

theorem resumeHere_logOk {s : State} {q : Request} {r : PitchRecord} {m : ImageRead} (h : s.logOk = true) : (resumeHere s q r m).logOk = true := by
  unfold resumeHere
  refine ite_logOk (logOk_congr h (by simp)) ?_
  split
  · exact finishPlain_logOk (tellGroup_logOk (resumeInPlace_logOk h))
  · exact withImage_logOk h (fun _ h1 => ite_logOk (logOk_congr h1 (by simp)) (ite_logOk (finishInPlace_logOk h1) (logOk_congr h1 (by simp))))

theorem doResume_logOk {image : Option ImageRead} {s : State} {q : Request} {r : PitchRecord} (h : s.logOk = true) :
    (doResume image s q r).logOk = true := by
  unfold doResume
  refine ite_logOk (resumeHere_logOk h) ?_
  split
  · exact refuseResume_logOk h
  · exact withImage_logOk h (fun _ h1 => resumeImage_logOk h1)

theorem dropResume_logOk {s : State} {q : Request} (h : s.logOk = true) : (dropResume s q).logOk = true := by
  unfold dropResume
  exact ite_logOk h (freeSeq_logOk h)

theorem doRecordsRead_logOk {s : State} {q : Request} {r : PitchRecord} {peer : Option (Nat × Nat)} (h : s.logOk = true) :
    (doRecordsRead s q r peer).logOk = true := by
  unfold doRecordsRead
  refine ite_logOk (finish_logOk (dropResume_logOk h)) ?_
  split
  · exact h
  · exact finish_logOk (dropResume_logOk h)
  · refine ite_logOk (ite_logOk (ite_logOk (finishInPlace_logOk h) (logOk_congr h (by simp))) h) ?_
    split
    · exact refuseResume_logOk (dropResume_logOk h)
    · next hx => exact holdIfLost_logOk (finish_logOk (imageTaken_logOk (readLayers_logOk h hx)))

theorem execResumeRecordsRead_logOk {rid : Nat} {peer : Option (Nat × Nat)} {s : State} (h : s.logOk = true) :
    AnswerLogOk (execResumeRecordsRead rid peer s) := by
  unfold execResumeRecordsRead
  split
  · exact h
  · split
    · exact h
    · exact .ite (doRecordsRead_logOk h) h

theorem landImport_logOk {s : State} {p n i : Nat} {bs : List Byte} {hot : Bool} {o : Option (Nat × State)} (h : s.logOk = true)
    (ho : ∀ x, o = some x → x.2.logOk = true) : (landImport s p n i bs hot o).logOk = true := by
  unfold landImport
  split
  · exact h
  · have h1 := ho _ rfl
    dsimp only at h1 ⊢
    split
    · exact h
    · split
      · exact logOk_congr h1 (by simp)
      · exact importDone_logOk (askPage_logOk (logOk_congr h1 (by simp)))

theorem importLost_logOk {s : State} {p n code i : Nat} (h : s.logOk = true) : (importLost s p n code i).logOk = true := by
  unfold importLost
  exact importDone_logOk (askPage_logOk (pageLost_logOk h))

theorem doPageImport_logOk {s : State} {p n : Nat} {ok : Bool} {payload : List Byte} (h : s.logOk = true) :
    (doPageImport s p n ok payload).logOk = true := by
  unfold doPageImport
  dsimp only
  split
  · exact h
  · split
    · exact h
    · split
      · exact importLost_logOk h
      · refine landImport_logOk h (fun _ hx => ?_)
        split at hx
        · exact roomFor_logOk h hx
        · exact warmSpace_logOk h hx

theorem doReadTimeout_logOk {s : State} {p n : Nat} (h : s.logOk = true) : (doReadTimeout s p n).logOk = true := by
  unfold doReadTimeout
  split
  · exact h
  · exact ite_logOk (importLost_logOk h) h

theorem doStatus_logOk {peers : List (List Byte)} {s : State} {q : Request} {r : PitchRecord} (h : s.logOk = true) :
    (doStatus peers s q r).logOk = true := by
  unfold doStatus
  refine ite_logOk h ?_
  refine ite_logOk (logOk_congr h (by simp)) ?_
  refine finish_logOk ?_
  split
  · exact logOk_congr h (by simp)
  · exact h

end Sys2Proof.Machine
end

section
/-! SUPPORT. O5: the event log stays sound under accepted submissions (R113, R413). -/

namespace Sys2Proof.Machine

theorem acceptEntry_logOk {s : State} {o : Origin} {p : Nat} {d : FetchedData} (h : s.logOk = true) : (acceptEntry s o p d).logOk = true := by
  unfold acceptEntry
  dsimp only
  split
  · exact logOk_congr h (by simp)
  · split <;> exact logOk_congr h (by simp)

end Sys2Proof.Machine
end

section
/-! SUPPORT. O5: the event log stays sound under datagrams (R113, R413). -/

namespace Sys2Proof.Machine

theorem acceptDatagram_logOk {s : State} {d : Datagram} (h : s.logOk = true) : (acceptDatagram s d).logOk = true := by
  unfold acceptDatagram
  exact logOk_congr h (by simp)

theorem withDatagram_logOk {s : State} {d : Datagram} {type : Nat} {f : State → State} (h : s.logOk = true)
    (hk : ∀ t, t.logOk = true → (f t).logOk = true) : (withDatagram s d type f).logOk = true := by
  unfold withDatagram
  exact ite_logOk (hk _ (acceptDatagram_logOk (logOk_congr h (by simp)))) (logOk_congr h (by simp))

end Sys2Proof.Machine
end

section
/-! SUPPORT. O5: the event log stays sound under the host port (R113, R413). -/

namespace Sys2Proof.Machine

theorem doorbellInvalid_logOk {s : State} {fn object : Nat} {value : Word} (h : s.logOk = true) :
    (doorbellInvalid s fn object value).logOk = true := by
  unfold doorbellInvalid
  exact eventOnce_logOk _ _ _ (fun _ h1 => writeEvent_logOk _ _ _ _ _ h1) h

theorem readEntries_logOk {fn base entries l l1 : Nat} {s : State} (h : s.logOk = true) : (readEntries fn base entries l l1 s).logOk = true := by
  induction l generalizing l1 s with
  | zero => exact h
  | succ n ih =>
    rw [readEntries]
    exact ih (logOk_congr h (by simp))

theorem doSubmissionDoorbell_logOk {s : State} {fn ring : Nat} {value : Word} (h : s.logOk = true) :
    (doSubmissionDoorbell s fn ring value).logOk = true := by
  unfold doSubmissionDoorbell
  refine ite_logOk h ?_
  dsimp only
  split
  · exact doorbellInvalid_logOk h
  · exact ite_logOk (doorbellInvalid_logOk h) (readEntries_logOk (logOk_congr h (by simp)))

theorem doCompletionDoorbell_logOk {s : State} {fn ring : Nat} {value : Word} (h : s.logOk = true) :
    (doCompletionDoorbell s fn ring value).logOk = true := by
  unfold doCompletionDoorbell
  refine ite_logOk h ?_
  dsimp only
  split
  · exact doorbellInvalid_logOk h
  · exact ite_logOk (doorbellInvalid_logOk h) (ite_logOk h (logOk_congr h (by simp)))

theorem sendReads_logOk {fn : Nat} {l : List (Nat × Nat)} {s : State} (h : s.logOk = true) : (sendReads fn l s).logOk = true := by
  induction l generalizing s with
  | nil => exact h
  | cons x t ih =>
    rw [sendReads]
    exact ih (logOk_congr h (by simp))

theorem doSubmissionFetch_logOk {s0 : State} {fn ring : Nat} {d : Option FetchedData} {poisoned : Bool} (h : s0.logOk = true) :
    (doSubmissionFetch s0 fn ring d poisoned).logOk = true := by
  unfold doSubmissionFetch
  dsimp only
  split
  · exact ite_logOk (logOk_congr h (by simp)) h
  · refine ite_logOk (ite_logOk (logOk_congr h (by simp)) h) ?_
    split
    · exact writeEvent_logOk _ _ _ _ _ (putFn_logOk (ite_logOk (logOk_congr h (by simp)) h))
    · exact acceptEntry_logOk (sendReads_logOk (putFn_logOk (ite_logOk (logOk_congr h (by simp)) h)))

theorem collisionEvent_logOk {s : State} {fn mb : Nat} (h : s.logOk = true) : (collisionEvent s fn mb).logOk = true := by
  unfold collisionEvent
  exact eventOnce_logOk _ _ _ (fun _ h1 => writeEvent_logOk _ _ _ _ _ h1) h

theorem mailWrite_logOk {s : State} {fn mb : Nat} {words : NMap Word} (h : s.logOk = true) : (mailWrite s fn mb words).logOk = true := by
  unfold mailWrite
  refine ite_logOk h ?_
  dsimp only
  split
  · exact logOk_congr h (by simp)
  · split
    · exact logOk_congr h (by simp)
    · exact collisionEvent_logOk (logOk_congr h (by simp))
    · exact logOk_congr h (by simp)
    · exact collisionEvent_logOk (logOk_congr h (by simp))

theorem ackMail_logOk {s : State} {fn mb code : Nat} {reply : List Word} (h : s.logOk = true) : (ackMail s fn mb code reply).logOk = true :=
  logOk_congr h (by simp)

theorem mailWrites_logOk {fn mb : Nat} {l : List (NMap Word)} {s : State} (h : s.logOk = true) : (mailWrites fn mb l s).logOk = true := by
  induction l generalizing s with
  | nil => exact h
  | cons x t ih =>
    rw [mailWrites]
    exact ih (mailWrite_logOk h)

theorem mailRun_logOk {s : State} {fn mb type : Nat} {posts : List (NMap Word)} {act : List Word → State → MailResult} (h : s.logOk = true)
    (hk : ∀ a t, t.logOk = true → (act a t).state.logOk = true) : (mailRun s fn mb type posts act).logOk = true := by
  unfold mailRun
  have h1 : (mailWrites fn mb posts (takeMail s fn mb)).logOk = true := mailWrites_logOk (logOk_congr h (by simp))
  dsimp only
  split
  · exact h
  · split
    · exact ackMail_logOk h1
    · split
      · exact ackMail_logOk (hk _ _ h1)
      · exact h

theorem actRingCreate_logOk {fn : Nat} {msg : List Word} {s : State} (h : s.logOk = true) : (actRingCreate fn msg s).state.logOk = true := by
  unfold actRingCreate
  dsimp only
  split
  · exact h
  · split
    · exact h
    · split
      · split
        · exact h
        · exact logOk_congr h (by simp)
      · split
        · exact h
        · exact logOk_congr h (by simp)

theorem actRingDestroy_logOk {fn : Nat} {msg : List Word} {s : State} (h : s.logOk = true) : (actRingDestroy fn msg s).state.logOk = true := by
  unfold actRingDestroy
  dsimp only
  split
  · exact h
  · split
    · split
      · exact h
      · exact logOk_congr h (by simp)
    · split
      · exact h
      · exact logOk_congr h (by simp)

theorem actAttachBegin_logOk {fn : Nat} {_msg : List Word} {s : State} (h : s.logOk = true) : (actAttachBegin fn _msg s).state.logOk = true := by
  unfold actAttachBegin
  split
  · exact h
  · exact logOk_congr h (by simp)

theorem actAttach_logOk {fn mb : Nat} {msg : List Word} {s : State} (h : s.logOk = true) : (actAttach fn mb msg s).state.logOk = true := by
  unfold actAttach
  dsimp only
  split
  · split
    · exact logOk_congr h (by simp)
    · exact writeEvent_logOk _ _ _ _ _ (logOk_congr h (by simp))
  · exact writeEvent_logOk _ _ _ _ _ h

theorem msixWrite_logOk {s : State} {fn entry word : Nat} {value : Word} (h : s.logOk = true) : (msixWrite s fn entry word value).logOk = true := by
  unfold msixWrite
  exact ite_logOk (logOk_congr h (by simp)) (ite_logOk (logOk_congr h (by simp)) (ite_logOk (logOk_congr h (by simp)) (ite_logOk (logOk_congr h
      (by simp)) (logOk_congr h (by simp)))))

theorem doRegisterWrite_logOk {s : State} {fn bar offset : Nat} {value : Word} (h : s.logOk = true) :
    (doRegisterWrite s fn bar offset value).logOk = true := by
  unfold doRegisterWrite
  refine ite_logOk h ?_
  refine ite_logOk (ite_logOk (logOk_congr h (by simp)) h) ?_
  exact ite_logOk (msixWrite_logOk h) (ite_logOk (ite_logOk (mailWrite_logOk h) (ite_logOk (logOk_congr h (by simp)) h)) h)

theorem endFor_logOk {s : State} {q : Request} (h : s.logOk = true) : (endFor s q).1.logOk = true := by
  unfold endFor
  dsimp only
  split
  · exact logOk_congr h (by simp)
  · exact logOk_congr h (by simp)
  · split
    · exact freeSeq_logOk (logOk_congr h (by simp))
    · exact logOk_congr h (by simp)
  · split
    · exact abortPark_logOk h
    · exact logOk_congr h (by simp)
  · exact dropResume_logOk (logOk_congr h (by simp))

theorem endCommands_logOk {l : List Request} {s : State} {l1 : Nat} (h : s.logOk = true) : (endCommands l s l1).1.logOk = true := by
  induction l generalizing s l1 with
  | nil =>
    rw [endCommands]
    exact h
  | cons x t ih =>
    rw [endCommands]
    exact ih (endFor_logOk h)

theorem abortParksTo_logOk {fn : Nat} {l : List Nat} {s : State} (h : s.logOk = true) : (abortParksTo fn l s).logOk = true := by
  induction l generalizing s with
  | nil => exact h
  | cons x t ih =>
    rw [abortParksTo]
    refine ih ?_
    split
    · exact h
    · exact ite_logOk (abortPark_logOk h) h

theorem dropNotices_logOk {s : State} {fn : Nat} (h : s.logOk = true) : (dropNotices s fn).logOk = true := by
  unfold dropNotices
  exact logOk_congr h (by simp)

theorem undoCreates_logOk {l : List Nat} {s : State} (h : s.logOk = true) : (undoCreates l s).1.logOk = true := by
  induction l generalizing s with
  | nil =>
    rw [undoCreates]
    exact h
  | cons x t ih =>
    rw [undoCreates]
    split
    · exact ih (logOk_congr h (by simp))
    · exact ih h

theorem resetFn_logOk {s : State} {fn : Nat} (h : s.logOk = true) : (resetFn s fn).logOk = true := by
  unfold resetFn
  exact writeEvent_logOk _ _ _ _ _ (dropNotices_logOk (abortParksTo_logOk (undoCreates_logOk (endCommands_logOk (logOk_congr h (by simp))))))

theorem resetFns_logOk {l : List Nat} {s : State} (h : s.logOk = true) : (resetFns l s).logOk = true := by
  induction l generalizing s with
  | nil => exact h
  | cons x t ih =>
    rw [resetFns]
    exact ih (resetFn_logOk h)

theorem vfsOff_logOk {s : State} (h : s.logOk = true) : (vfsOff s).logOk = true := by
  unfold vfsOff
  exact resetFns_logOk h

theorem vfsCount_logOk {s : State} {n : Nat} (h : s.logOk = true) : (vfsCount s n).logOk = true := by
  unfold vfsCount
  exact resetFns_logOk h

theorem resetPf_logOk {s : State} (h : s.logOk = true) : (resetPf s).logOk = true := by
  unfold resetPf
  have h1 : (vfsOff (resetFn s 0)).logOk = true := vfsOff_logOk (resetFn_logOk h)
  exact logOk_congr h1 (by simp)

theorem hostTrain_logOk {s : State} {rate width : Nat} (h : s.logOk = true) : (hostTrain s rate width).logOk = true := by
  unfold hostTrain
  exact ite_logOk (logOk_congr h (by simp)) (writeEvent_logOk _ _ _ _ _ (logOk_congr h (by simp)))

theorem ideOff_logOk {s : State} (h : s.logOk = true) : (ideOff s).logOk = true := by
  unfold ideOff
  exact logOk_congr h (by simp)

theorem doFunctionReset_logOk {s : State} {kind : ResetKind} {rate width : Nat} (h : s.logOk = true) :
    (doFunctionReset s kind rate width).logOk = true := by
  unfold doFunctionReset
  split
  · exact ite_logOk (resetPf_logOk h) (ite_logOk (resetFn_logOk h) h)
  · exact vfsOff_logOk h
  · exact vfsCount_logOk h
  · exact resetPf_logOk h
  · exact hostTrain_logOk (ideOff_logOk (resetPf_logOk h))
  · exact hostTrain_logOk (ideOff_logOk (resetPf_logOk h))

theorem sendPending_logOk {fn : Nat} {l : List Nat} {s : State} (h : s.logOk = true) : (sendPending fn l s).logOk = true := by
  induction l generalizing s with
  | nil => exact h
  | cons x t ih =>
    rw [sendPending]
    exact ih (ite_logOk (logOk_congr h (by simp)) h)

theorem doConfigWrite_logOk {s : State} {fn offset : Nat} {value : Word} (h : s.logOk = true) : (doConfigWrite s fn offset value).logOk = true := by
  unfold doConfigWrite
  refine ite_logOk h ?_
  refine ite_logOk (sendPending_logOk (logOk_congr h (by simp))) ?_
  refine ite_logOk h ?_
  refine ite_logOk (logOk_congr h (by simp)) ?_
  refine ite_logOk (ite_logOk (logOk_congr h (by simp)) (ite_logOk (vfsOff_logOk h) h)) ?_
  exact ite_logOk (ite_logOk h (vfsCount_logOk h)) (ite_logOk (logOk_congr h (by simp)) h)

end Sys2Proof.Machine
end

section
/-! SUPPORT. O5: the event log stays sound under the phases of start-up (R113, R413). -/

namespace Sys2Proof.Machine

theorem refuseConfig_logOk {s : State} (h : s.logOk = true) : (refuseConfig s).logOk = true := by
  unfold refuseConfig
  exact rangerEvent_logOk _ _ _ _ (logOk_congr h (by simp))

theorem railsOff_logOk (s : State) : (railsOff s).logOk = true :=
  logOk_of_bounds (s := State.reset) (by decide) rfl rfl (.inl rfl) rfl

theorem reportLatches_logOk {s : State} (h : s.logOk = true) : (reportLatches s).logOk = true := by
  unfold reportLatches
  refine ite_logOk (rangerEvent_logOk _ _ _ _ (ite_logOk (rangerEvent_logOk _ _ _ _ (logOk_congr h (by simp))) h)) ?_
  exact ite_logOk (rangerEvent_logOk _ _ _ _ (logOk_congr h (by simp))) h

theorem takeConfig_logOk {s : State} {f : BootFindings} (h : s.logOk = true) : (takeConfig s f).logOk = true := by
  unfold takeConfig
  dsimp only
  split
  · exact refuseConfig_logOk h
  · exact ite_logOk (logOk_congr h (by simp)) (refuseConfig_logOk (logOk_congr h (by simp)))

theorem bootOn_logOk {s1 : State} {f : BootFindings} (h : s1.logOk = true) : (bootOn s1 f).logOk = true := by
  unfold bootOn
  refine ite_logOk h ?_
  dsimp only
  split
  · exact ite_logOk (rangerEvent_logOk _ _ _ _ (logOk_congr h (by simp))) (logOk_congr h (by simp))
  · refine takeConfig_logOk (reportLatches_logOk ?_)
    refine ite_logOk (rangerEvent_logOk _ _ _ _ (ite_logOk (rangerEvent_logOk _ _ _ _ (logOk_congr h (by simp))) (logOk_congr h (by simp)))) ?_
    exact ite_logOk (rangerEvent_logOk _ _ _ _ (logOk_congr h (by simp))) (logOk_congr h (by simp))

theorem raiseRails_logOk {s : State} {f : BootFindings} (h : s.logOk = true) : (raiseRails s f).logOk = true := by
  unfold raiseRails
  exact ite_logOk (bootOn_logOk (logOk_congr h (by simp))) h

theorem startUp_logOk {s : State} {f : BootFindings} : (startUp s f).logOk = true := by
  unfold startUp
  exact raiseRails_logOk (logOk_congr (railsOff_logOk s) (by simp))

theorem reapplyLanes_logOk {m : CampMap} {l : List LaneLoss} {s : State} (h : s.logOk = true) : (reapplyLanes m l s).logOk = true := by
  induction l generalizing s with
  | nil => exact h
  | cons x t ih =>
    rw [reapplyLanes]
    refine ih ?_
    split
    · exact h
    · exact logOk_congr h (by simp)

theorem fenceAll_logOk {l : List Nat} {s : State} (h : s.logOk = true) : (fenceAll l s).logOk = true := by
  induction l generalizing s with
  | nil => exact h
  | cons x t ih =>
    rw [fenceAll]
    exact ih (logOk_congr h (by simp))

theorem reachCheck_logOk {s : State} (h : s.logOk = true) : (reachCheck s).logOk = true := by
  unfold reachCheck
  exact ite_logOk (logOk_congr h (by simp)) h

theorem failCamps_logOk {l : List Nat} {x : State × CampMap} (h : x.1.logOk = true) :
    (failCamps l x).1.logOk = true := by
  induction l generalizing x with
  | nil => exact h
  | cons c t ih =>
    obtain ⟨s, m⟩ := x
    rw [failCamps]
    refine ih ?_
    split
    · exact h
    · exact rangerEvent_logOk _ _ _ _ h

theorem doArraysTested_logOk {s : State} {failedCamps : List Nat} (h : s.logOk = true) : (doArraysTested s failedCamps).logOk = true := by
  unfold doArraysTested
  exact reachCheck_logOk (fenceAll_logOk (reapplyLanes_logOk (failCamps_logOk h)))

theorem channelRecords_logOk {l : List Nat} {s : State} (h : s.logOk = true) : (channelRecords l s).logOk = true := by
  induction l generalizing s with
  | nil => exact h
  | cons x t ih =>
    rw [channelRecords]
    exact ih (rangerEvent_logOk _ _ _ _ h)

theorem trainPorts_logOk {c : Configuration} {l : List (PortReport × Nat)} {s : State} (h : s.logOk = true) : (trainPorts c l s).logOk = true := by
  induction l generalizing s with
  | nil => exact h
  | cons x t ih =>
    obtain ⟨_, _⟩ := x
    rw [trainPorts]
    exact ite_logOk (ih (rangerEvent_logOk _ _ _ _ (logOk_congr h (by simp)))) (ite_logOk (ih (logOk_congr h (by simp))) (ih (logOk_congr h
        (by simp))))

theorem sendIdentity_logOk {s : State} {l : Nat} (h : s.logOk = true) : (sendIdentity s l).logOk = true := by
  unfold sendIdentity
  exact logOk_congr h (by simp)

theorem sendIdentities_logOk {l : List Nat} {s : State} (h : s.logOk = true) : (sendIdentities l s).logOk = true := by
  induction l generalizing s with
  | nil => exact h
  | cons x t ih =>
    rw [sendIdentities]
    exact ih (ite_logOk (sendIdentity_logOk h) h)

theorem ethUpRecords_logOk {l : List Nat} {s : State} (h : s.logOk = true) : (ethUpRecords l s).logOk = true := by
  induction l generalizing s with
  | nil => exact h
  | cons x t ih =>
    rw [ethUpRecords]
    exact ih (ite_logOk (rangerEvent_logOk _ _ _ _ h) h)

theorem doLinksTrained_logOk {s : State} {links : List Bool} {ports : List PortReport} {eth : List Bool} {hostRate hostWidth : Nat}
    (h : s.logOk = true) : (doLinksTrained s links ports eth hostRate hostWidth).logOk = true := by
  unfold doLinksTrained
  dsimp only
  split
  · exact reachCheck_logOk (hostTrain_logOk (logOk_congr h (by simp)))
  · refine reachCheck_logOk ?_
    refine ite_logOk ?_ ?_
    · exact hostTrain_logOk (sendIdentities_logOk (ethUpRecords_logOk (ite_logOk (logOk_congr h (by simp)) (trainPorts_logOk (logOk_congr h
        (by simp))))))
    · exact sendIdentities_logOk (ethUpRecords_logOk (ite_logOk (logOk_congr h (by simp)) (trainPorts_logOk (logOk_congr h (by simp)))))

theorem linkEvent_logOk {s : State} {l code peer attempt : Nat} (h : s.logOk = true) : (linkEvent s l code peer attempt).logOk = true := by
  unfold linkEvent
  exact rangerEvent_logOk _ _ _ _ h

theorem doLinkIdentity_logOk {s : State} {l device peerLink : Nat} (h : s.logOk = true) : (doLinkIdentity s l device peerLink).logOk = true := by
  unfold doLinkIdentity
  split
  · exact ite_logOk h (ite_logOk (linkEvent_logOk (logOk_congr h (by simp))) (linkEvent_logOk (logOk_congr h (by simp))))
  · exact h

theorem powerChecks_logOk {s : State} {c : Configuration} {inlet backupMv : Nat} (h : s.logOk = true) :
    (powerChecks s c inlet backupMv).1.logOk = true := by
  unfold powerChecks
  refine ite_logOk (rangerEvent_logOk _ _ _ _ (ite_logOk (rangerEvent_logOk _ _ _ _ h) h)) ?_
  exact ite_logOk (rangerEvent_logOk _ _ _ _ h) h

theorem pitchCheckEvent_logOk {s : State} {x : CheckFailure} (h : s.logOk = true) : (pitchCheckEvent s x).logOk = true := by
  unfold pitchCheckEvent
  exact rangerEvent_logOk _ _ _ _ h

theorem portDownRecords_logOk {c : Configuration} {l : List Nat} {s : State} (h : s.logOk = true) : (portDownRecords c l s).logOk = true := by
  induction l generalizing s with
  | nil => exact h
  | cons x t ih =>
    rw [portDownRecords]
    refine ih ?_
    split
    · exact h
    · exact ite_logOk (rangerEvent_logOk _ _ _ _ h) h

theorem doConfigCheck_logOk {s : State} {inlet backupMv : Nat} (h : s.logOk = true) : (doConfigCheck s inlet backupMv).logOk = true := by
  unfold doConfigCheck
  dsimp only
  split
  · exact logOk_congr h (by simp)
  · refine ite_logOk (logOk_congr h (by simp)) ?_
    refine ite_logOk ?_ ?_
    · refine refuseConfig_logOk ?_
      split
      · exact powerChecks_logOk (portDownRecords_logOk (logOk_congr h (by simp)))
      · exact pitchCheckEvent_logOk (powerChecks_logOk (portDownRecords_logOk (logOk_congr h (by simp))))
    · refine ite_logOk ?_ ?_
      · split
        · exact powerChecks_logOk (portDownRecords_logOk (logOk_congr h (by simp)))
        · exact pitchCheckEvent_logOk (powerChecks_logOk (portDownRecords_logOk (logOk_congr h (by simp))))
      · split
        · exact powerChecks_logOk (portDownRecords_logOk (logOk_congr h (by simp)))
        · exact pitchCheckEvent_logOk (powerChecks_logOk (portDownRecords_logOk (logOk_congr h (by simp))))

theorem sendDigest_logOk {r : PitchRecord} {l : List Nat} {s : State} (h : s.logOk = true) : (sendDigest r l s).logOk = true := by
  induction l generalizing s with
  | nil => exact h
  | cons x t ih =>
    rw [sendDigest]
    exact ih (sendPeer_logOk h)

theorem sendDigests_logOk {l : List PitchRecord} {s : State} (h : s.logOk = true) : (sendDigests l s).logOk = true := by
  induction l generalizing s with
  | nil => exact h
  | cons x t ih =>
    rw [sendDigests]
    exact ih (ite_logOk (sendDigest_logOk h) h)

theorem joinPitches_logOk {answers : NMap (List MemberAnswer)} {l : List PitchRecord} {s : State} (h : s.logOk = true) :
    (joinPitches answers l s).logOk = true := by
  induction l generalizing s with
  | nil => exact h
  | cons x t ih =>
    rw [joinPitches]
    refine ih (ite_logOk ?_ h)
    split
    · exact logOk_congr h (by simp)
    · exact rangerEvent_logOk _ _ _ _ (logOk_congr h (by simp))

theorem execGroupJoin_logOk {now : Nat} {answers : NMap (List MemberAnswer)} {s : State} (h : s.logOk = true) :
    AnswerLogOk (execGroupJoin now answers s) := by
  unfold execGroupJoin
  split
  · exact h
  · exact .ite (joinPitches_logOk (sendDigests_logOk (logOk_congr h (by simp)))) h

theorem nameTime_logOk {r : PitchRecord} {time : Nat} {l : List Nat} {s : State} (h : s.logOk = true) : (nameTime r time l s).logOk = true := by
  induction l generalizing s with
  | nil => exact h
  | cons x t ih =>
    rw [nameTime]
    exact ih (sendPeer_logOk h)

theorem doDigestRetry_logOk {s0 : State} {r : PitchRecord} {answers : List MemberAnswer} {joinTime : Nat} (h : s0.logOk = true) :
    (doDigestRetry s0 r answers joinTime).logOk = true := by
  unfold doDigestRetry
  refine ite_logOk ?_ h
  exact ite_logOk (onPitch_logOk (ite_logOk (nameTime_logOk (sendDigest_logOk h)) (sendDigest_logOk h))) (sendDigest_logOk h)

theorem doGroupJoined_logOk {s : State} {r : PitchRecord} (h : s.logOk = true) : (doGroupJoined s r).logOk = true := by
  unfold doGroupJoined
  split
  · exact h
  · exact ite_logOk h (rangerEvent_logOk _ _ _ _ (logOk_congr h (by simp)))

end Sys2Proof.Machine
end

section
/-! SUPPORT. O5: the event log stays sound under the tensor fabric (R113, R413). -/

namespace Sys2Proof.Machine

theorem flitRetry_logOk {s : State} {l : Nat} (h : s.logOk = true) : (flitRetry s l).logOk = true := by
  unfold flitRetry
  exact eventOnce_logOk _ _ _ (fun _ h1 => linkEvent_logOk h1) h

theorem refuseFrame_logOk {s : State} {l : Nat} {k : Link} (h : s.logOk = true) : (refuseFrame s l k).logOk = true := by
  unfold refuseFrame
  exact flitRetry_logOk (logOk_congr h (by simp))

theorem doFlitData_logOk {s : State} {l : Nat} {f : Frame} (h : s.logOk = true) : (doFlitData s l f).logOk = true := by
  unfold doFlitData
  split
  · exact h
  · refine ite_logOk h ?_
    exact ite_logOk h (ite_logOk (ite_logOk (logOk_congr h (by simp)) (ite_logOk h (refuseFrame_logOk h))) (refuseFrame_logOk h))

theorem doFlitIdle_logOk {s : State} {l : Nat} {f : Frame} (h : s.logOk = true) : (doFlitIdle s l f).logOk = true := by
  unfold doFlitIdle
  split
  · exact h
  · exact ite_logOk (logOk_congr h (by simp)) h

theorem resendFrames_logOk {l : Nat} {l1 : List Frame} {s : State} (h : s.logOk = true) : (resendFrames l l1 s).logOk = true := by
  induction l1 generalizing s with
  | nil => exact h
  | cons x t ih =>
    rw [resendFrames]
    exact ih (logOk_congr h (by simp))

theorem doRetryRequest_logOk {s : State} {l : Nat} {f : Frame} (h : s.logOk = true) : (doRetryRequest s l f).logOk = true := by
  unfold doRetryRequest
  split
  · exact h
  · exact ite_logOk (ite_logOk (flitRetry_logOk (logOk_congr h (by simp))) (pump_logOk (resendFrames_logOk (flitRetry_logOk (logOk_congr h
      (by simp)))))) h

theorem cairnEvent_logOk {s : State} {code : Nat} (h : s.logOk = true) : (cairnEvent s code).logOk = true := by
  unfold cairnEvent
  exact rangerEvent_logOk _ _ _ _ h

theorem holdover_logOk {s : State} (h : s.logOk = true) : (holdover s).logOk = true := by
  unfold holdover
  exact ite_logOk (cairnEvent_logOk (logOk_congr h (by simp))) h

theorem requeue_logOk {s : State} {l : Nat} {k : Link} (h : s.logOk = true) : (requeue s l k).logOk = true := logOk_congr h (by simp)

theorem doLinkDown_logOk {s : State} {l : Nat} (h : s.logOk = true) : (doLinkDown s l).logOk = true := by
  unfold doLinkDown
  split
  · exact h
  · exact ite_logOk (holdover_logOk (linkEvent_logOk (logOk_congr h (by simp)))) h

theorem portDown_logOk {s : State} {l : Nat} (h : s.logOk = true) : (portDown s l).logOk = true := by
  unfold portDown
  exact ite_logOk (linkEvent_logOk h) h

theorem doLinkUp_logOk {s0 : State} {l device peerLink : Nat} (h : s0.logOk = true) : (doLinkUp s0 l device peerLink).logOk = true := by
  unfold doLinkUp
  split
  · refine ite_logOk ?_ h
    refine ite_logOk (pump_logOk (linkEvent_logOk (requeue_logOk (putLink_logOk (sendIdentity_logOk h))))) ?_
    exact pump_logOk (holdover_logOk (portDown_logOk (linkEvent_logOk (requeue_logOk (putLink_logOk (sendIdentity_logOk h))))))
  · exact h

theorem doLinkLost_logOk {s : State} {l : Nat} (h : s.logOk = true) : (doLinkLost s l).logOk = true := by
  unfold doLinkLost
  split
  · exact h
  · exact ite_logOk (pump_logOk (holdover_logOk (portDown_logOk (linkEvent_logOk (logOk_congr h (by simp)))))) h

theorem withPacket_logOk {s : State} {kind : Nat} {pkt : List Byte} {f : Nat → State} (h : s.logOk = true) (hk : ∀ a, (f a).logOk = true) :
    (withPacket s kind pkt f).logOk = true := by
  unfold withPacket
  refine ite_logOk ?_ h
  split
  · exact h
  · exact hk _

theorem startTransfer_logOk {s : State} {r : PitchRecord} {d : TransferDesc} {raw : List Byte} (h : s.logOk = true) :
    (startTransfer s r d raw).logOk = true := by
  unfold startTransfer
  exact logOk_congr h (by simp)

theorem doSlotTransfer_logOk {s : State} {r : PitchRecord} {bs : List Byte} {found : List Finding} (h : s.logOk = true) :
    (doSlotTransfer s r bs found).logOk = true := by
  unfold doSlotTransfer
  dsimp only
  split
  · exact h
  · refine ite_logOk ?_ ?_
    · exact rangerAccess_logOk h (fun _ h1 => ite_logOk (rangerFindings_logOk h1) (startTransfer_logOk (rangerFindings_logOk h1)))
    · exact h

theorem doResponse_logOk {s : State} {pkt : List Byte} (h : s.logOk = true) : (doResponse s pkt).logOk = true := by
  unfold doResponse
  dsimp only
  split
  · exact h
  · refine ite_logOk h ?_
    refine ite_logOk ?_ (ite_logOk (logOk_congr h (by simp)) h)
    split
    · exact ite_logOk (logOk_congr h (by simp)) (logOk_congr h (by simp))
    · exact logOk_congr h (by simp)

theorem doTransferResend_logOk {s : State} {n : Nat} (h : s.logOk = true) : (doTransferResend s n).logOk = true := by
  unfold doTransferResend
  split
  · exact h
  · exact ite_logOk h (ite_logOk (logOk_congr h (by simp)) (rangerEvent_logOk _ _ _ _ (logOk_congr h (by simp))))

theorem codecEvent_logOk {s : State} {p src attempt : Nat} {f : DecodeFault} {head : List Byte} (h : s.logOk = true) :
    (codecEvent s p src attempt f head).logOk = true := by
  unfold codecEvent
  exact writeEvent_logOk _ _ _ _ _ h

theorem sendResponse_logOk {s : State} {port dest group transfer result block : Nat} (h : s.logOk = true) :
    (sendResponse s port dest group transfer result block).logOk = true := by
  unfold sendResponse
  exact logOk_congr h (by simp)

theorem putRecv_logOk {s : State} {x : Recv} (h : s.logOk = true) : (putRecv s x).logOk = true := by
  unfold putRecv
  exact logOk_congr h (by simp)

theorem dropRecv_logOk {s : State} {v : Recv} (h : s.logOk = true) : (dropRecv s v).logOk = true := by
  unfold dropRecv
  exact logOk_congr h (by simp)

theorem endRecv_logOk {s : State} {source transfer : Nat} (h : s.logOk = true) : (endRecv s source transfer).logOk = true := by
  unfold endRecv
  exact logOk_congr h (by simp)

theorem fabricForeign_logOk {s : State} {l p src transfer : Nat} (h : s.logOk = true) : (fabricForeign s l p src transfer).logOk = true := by
  unfold fabricForeign
  exact writeEvent_logOk _ _ _ _ _ h

theorem landed_logOk {s : State} {l : Nat} {r : PitchRecord} {v : Recv} {x : Slot} (h : s.logOk = true) : (landed s l r v x).logOk = true := by
  unfold landed
  exact sendResponse_logOk (endRecv_logOk (logOk_congr h (by simp)))

theorem blockFailed_logOk {s : State} {l : Nat} {r : PitchRecord} {v : Recv} {b : ArrivedBlock} {f : DecodeFault} (h : s.logOk = true) :
    (blockFailed s l r v b f).1.logOk = true := by
  unfold blockFailed
  dsimp only
  split
  · exact uncorrectableWord_logOk (dropRecv_logOk (codecEvent_logOk h))
  · exact sendResponse_logOk (codecEvent_logOk h)

theorem landBlocks_logOk {l : Nat} {r : PitchRecord} {x : Slot} {l1 : List ArrivedBlock} {s : State} {l2 : Recv} (h : s.logOk = true) :
    (landBlocks l r x l1 s l2).1.logOk = true := by
  induction l1 generalizing s l2 with
  | nil =>
    rw [landBlocks]
    exact h
  | cons x t ih =>
    rw [landBlocks]
    split
    · split
      · next hx => exact fst_logOk hx (blockFailed_logOk h)
      · next hx => exact ih (fst_logOk hx (blockFailed_logOk h))
    · split
      · exact fabricForeign_logOk (dropRecv_logOk h)
      · exact ih (logOk_congr h (by simp))

theorem landedMore_logOk {s : State} {l : Nat} {r : PitchRecord} {v : Recv} {x : Slot} (h : s.logOk = true) :
    (landedMore s l r v x).logOk = true := by
  unfold landedMore
  exact ite_logOk (putRecv_logOk h) (landed_logOk (putRecv_logOk h))

theorem landBody_logOk {s : State} {l : Nat} {r : PitchRecord} {v : Recv} {x : Slot} {offset : Nat} {body : List Byte} (h : s.logOk = true) :
    (landBody s l r v x offset body).logOk = true := by
  unfold landBody
  refine ite_logOk ?_ (landedMore_logOk (logOk_congr h (by simp)))
  split
  · next hx => exact fst_logOk hx (landBlocks_logOk (logOk_congr h (by simp)))
  · next hx => exact landedMore_logOk (fst_logOk hx (landBlocks_logOk (logOk_congr h (by simp))))

theorem doSlotData_logOk {s : State} {l : Nat} {pkt : List Byte} {destOffset : Nat} (h : s.logOk = true) :
    (doSlotData s l pkt destOffset).logOk = true := by
  unfold doSlotData
  refine ite_logOk (logOk_congr h (by simp)) ?_
  dsimp only
  split
  · exact pump_logOk (fabricForeign_logOk (logOk_congr h (by simp)))
  · refine ite_logOk (pump_logOk (fabricForeign_logOk (logOk_congr h (by simp)))) ?_
    exact ite_logOk (rangerAccess_logOk h (fun _ h1 => pump_logOk (landBody_logOk (logOk_congr h1 (by simp))))) h

theorem doTimeRequest_logOk {s : State} (h : s.logOk = true) : (doTimeRequest s).logOk = true := by
  unfold doTimeRequest
  split
  · exact h
  · exact logOk_congr h (by simp)

theorem withTimeFrame_logOk {s : State} {l : Nat} {f : Frame} {k : State → State} (h : s.logOk = true)
    (hk : ∀ t, t.logOk = true → (k t).logOk = true) : (withTimeFrame s l f k).logOk = true := by
  unfold withTimeFrame
  split
  · exact h
  · exact ite_logOk (pump_logOk (hk _ (logOk_congr h (by simp)))) h

theorem doTimeAnswer_logOk {s : State} {l : Nat} {payload : List Byte} {t2 t2frac t3 t3frac : Nat} (h : s.logOk = true) :
    (doTimeAnswer s l payload t2 t2frac t3 t3frac).logOk = true := by
  unfold doTimeAnswer
  exact ite_logOk (logOk_congr h (by simp)) h

theorem countExchange_logOk {s : State} {offset : Int} (h : s.logOk = true) : (countExchange s offset).logOk = true := by
  unfold countExchange
  exact ite_logOk (cairnEvent_logOk (logOk_congr h (by simp))) (logOk_congr h (by simp))

theorem doTimeResponse_logOk {s : State} {l : Nat} {payload : List Byte} {t4 t4frac : Nat} (h : s.logOk = true) :
    (doTimeResponse s l payload t4 t4frac).logOk = true := by
  unfold doTimeResponse
  split
  · exact h
  · exact ite_logOk h (ite_logOk (ite_logOk (logOk_congr h (by simp)) (logOk_congr h (by simp))) (holdover_logOk (countExchange_logOk (logOk_congr h
      (by simp)))))

theorem doPpsEdge_logOk {s : State} (h : s.logOk = true) : (doPpsEdge s).logOk = true := by
  unfold doPpsEdge
  exact ite_logOk (ite_logOk (logOk_congr h (by simp)) (logOk_congr h (by simp))) h

end Sys2Proof.Machine
end

section
/-! SUPPORT. O5: the event log stays sound under firmware and configuration update (R113, R413). -/

namespace Sys2Proof.Machine

theorem writeSlot_logOk {s : State} {target offset : Nat} {data : List Byte} (h : s.logOk = true) :
    (writeSlot s target offset data).logOk = true := logOk_congr h (by simp)

theorem eraseSlot_logOk {s : State} {target : Nat} (h : s.logOk = true) : (eraseSlot s target).logOk = true := logOk_congr h (by simp)

theorem verifyFail_logOk {s : State} {target code : Nat} (h : s.logOk = true) : (verifyFail s target code).logOk = true := by
  unfold verifyFail
  exact rangerEvent_logOk _ _ _ _ h

theorem verifySlot_logOk {s : State} {target : Nat} {sigOk : Bool} (h : s.logOk = true) : (verifySlot s target sigOk).1.logOk = true := by
  unfold verifySlot
  dsimp only
  split
  · exact logOk_congr h (by simp)
  · exact verifyFail_logOk h

theorem forwardImage_logOk {s : State} {refusing : List Nat} {target : Nat} (h : s.logOk = true) : (forwardImage s refusing target).logOk = true :=
  logOk_congr h (by simp)

theorem fwRun_logOk {s : State} {src : FwSource} {type : Nat} {act : Bool → List Byte → List Word → State → MailResult} {dma : List Byte}
    (h : s.logOk = true) (hk : ∀ a b c t, t.logOk = true → (act a b c t).state.logOk = true) : (fwRun s src type act dma).logOk = true := by
  unfold fwRun
  cases src with
  | mailbox fn mb posts => exact mailRun_logOk h (fun _ _ h1 => hk _ _ _ _ h1)
  | session d =>
    dsimp only
    split
    · have h1 : (acceptDatagram (atTime s d.now) d).logOk = true := acceptDatagram_logOk (logOk_congr h (by simp))
      split
      · exact sendMessage_logOk h1
      · split
        · exact sendMessage_logOk (hk _ _ _ _ h1)
        · exact logOk_congr h (by simp)
    · exact logOk_congr h (by simp)

theorem fwRow_logOk {s : State} {src : FwSource} {type : Nat} {act : Bool → List Byte → List Word → State → MailResult} {dma : List Byte}
    (h : s.logOk = true) (hk : ∀ a b c t, t.logOk = true → (act a b c t).state.logOk = true) : AnswerLogOk (fwRow s src type act dma) := by
  unfold fwRow
  exact nextIf_logOk (fwRun_logOk h (fun _ _ _ _ h1 => hk _ _ _ _ h1))

theorem readIova_logOk {s : State} {inline : Bool} {iova len : Nat} (h : s.logOk = true) : (readIova s inline iova len).logOk = true := by
  unfold readIova
  exact ite_logOk h (logOk_congr h (by simp))

theorem actFwWrite_logOk {inline : Bool} {data : List Byte} {msg : List Word} {s : State} (h : s.logOk = true) :
    (actFwWrite inline data msg s).state.logOk = true := by
  unfold actFwWrite
  dsimp only
  split
  · exact h
  · split
    · exact h
    · split
      · exact h
      · split
        · exact h
        · split
          · exact h
          · exact writeSlot_logOk (ite_logOk (eraseSlot_logOk (readIova_logOk h)) (readIova_logOk h))

theorem actFwVerify_logOk {sigOk : Bool} {refusing : List Nat} {_inline : Bool} {_data : List Byte} {msg : List Word} {s : State}
    (h : s.logOk = true) : (actFwVerify sigOk refusing _inline _data msg s).state.logOk = true := by
  unfold actFwVerify
  dsimp only
  split
  · exact h
  · split
    · exact ite_logOk (forwardImage_logOk (verifySlot_logOk h)) (verifySlot_logOk h)
    · exact verifySlot_logOk h

theorem activate_logOk {s : State} {msg : List Word} (h : s.logOk = true) : (activate s msg).1.logOk = true := by
  unfold activate
  dsimp only
  split
  · exact h
  · split
    · exact h
    · split
      · exact h
      · split
        · exact h
        · split
          · exact h
          · exact rangerEvent_logOk _ _ _ _ (logOk_congr h (by simp))

theorem forwarded_logOk {s : State} {refusing : List Nat} {op : Nat} {flag : Bool} {msg : List Word} (h : s.logOk = true) :
    (forwarded s refusing op flag msg).logOk = true := by
  unfold forwarded
  exact ite_logOk (logOk_congr h (by simp)) h

theorem actFwActivate_logOk {refusing : List Nat} {_inline : Bool} {_data : List Byte} {msg : List Word} {s : State} (h : s.logOk = true) :
    (actFwActivate refusing _inline _data msg s).state.logOk = true := by
  unfold actFwActivate
  exact forwarded_logOk (activate_logOk h)

theorem disarm_logOk {s : State} {msg : List Word} (h : s.logOk = true) : (disarm s msg).1.logOk = true := by
  unfold disarm
  split
  · exact h
  · exact logOk_congr h (by simp)

theorem actFwDisarm_logOk {refusing : List Nat} {_inline : Bool} {_data : List Byte} {msg : List Word} {s : State} (h : s.logOk = true) :
    (actFwDisarm refusing _inline _data msg s).state.logOk = true := by
  unfold actFwDisarm
  exact forwarded_logOk (disarm_logOk h)

theorem confirm_logOk {s : State} {msg : List Word} (h : s.logOk = true) : (confirm s msg).1.logOk = true := by
  unfold confirm
  split
  · exact h
  · split
    · exact h
    · exact rangerEvent_logOk _ _ _ _ (logOk_congr h (by simp))

theorem actFwConfirm_logOk {refusing : List Nat} {_inline : Bool} {_data : List Byte} {msg : List Word} {s : State} (h : s.logOk = true) :
    (actFwConfirm refusing _inline _data msg s).state.logOk = true := by
  unfold actFwConfirm
  exact forwarded_logOk (confirm_logOk h)

theorem actLockWrite_logOk {sigOk inline : Bool} {data : List Byte} {msg : List Word} {s : State} (h : s.logOk = true) :
    (actLockWrite sigOk inline data msg s).state.logOk = true := by
  unfold actLockWrite
  dsimp only
  split
  · exact h
  · split
    · exact readIova_logOk h
    · split
      · exact rangerEvent_logOk _ _ _ _ (readIova_logOk h)
      · split <;> exact readIova_logOk h

theorem actFwStatus_logOk {_inline : Bool} {_data : List Byte} {_msg : List Word} {s : State} (h : s.logOk = true) :
    (actFwStatus _inline _data _msg s).state.logOk = true := by
  unfold actFwStatus
  exact h

theorem doArmedRestart_logOk {s : State} {f : BootFindings} (h : s.logOk = true) : (doArmedRestart s f).logOk = true := by
  unfold doArmedRestart
  split
  · exact h
  · exact ite_logOk h (ite_logOk (rangerEvent_logOk _ _ _ _ (logOk_congr h (by simp))) startUp_logOk)

theorem chainDone_logOk {s : State} {refusing : List Nat} {c : ChainIn} {sigOk : Bool} (h : s.logOk = true) :
    (chainDone s refusing c sigOk).logOk = true := by
  unfold chainDone
  exact ite_logOk (forwardImage_logOk (verifySlot_logOk (logOk_congr h (by simp)))) (verifySlot_logOk (logOk_congr h (by simp)))

theorem chainBlock_logOk {s : State} {refusing : List Nat} {target offset length id : Nat} {data : List Byte} {sigOk : Bool} (h : s.logOk = true) :
    (chainBlock s refusing target offset length id data sigOk).logOk = true := by
  unfold chainBlock
  refine ite_logOk h ?_
  dsimp only
  split
  · split <;> exact ite_logOk (logOk_congr h (by simp)) (chainDone_logOk (logOk_congr h (by simp)))
  · exact ite_logOk (logOk_congr h (by simp)) (chainDone_logOk (logOk_congr h (by simp)))

theorem doFirmwareBlock_logOk {s : State} {refusing : List Nat} {body : List Byte} {sigOk : Bool} (h : s.logOk = true) :
    (doFirmwareBlock s refusing body sigOk).logOk = true := by
  unfold doFirmwareBlock
  refine ite_logOk h ?_
  refine ite_logOk (chainBlock_logOk h) ?_
  refine ite_logOk (forwarded_logOk (activate_logOk h)) ?_
  exact ite_logOk (forwarded_logOk (disarm_logOk h)) (ite_logOk (forwarded_logOk (confirm_logOk h)) h)

end Sys2Proof.Machine
end

section
/-! SUPPORT. O5: the event log stays sound under the Ethernet ports (R113, R413). -/

namespace Sys2Proof.Machine

theorem abortSessionParks_logOk {n : Nat} {l : List Nat} {s : State} (h : s.logOk = true) : (abortSessionParks n l s).logOk = true := by
  induction l generalizing s with
  | nil => exact h
  | cons x t ih =>
    rw [abortSessionParks]
    refine ih ?_
    split
    · exact h
    · exact ite_logOk (abortPark_logOk h) h

theorem dropSession_logOk {s : State} {n : Nat} (h : s.logOk = true) : (dropSession s n).logOk = true := by
  unfold dropSession
  exact abortSessionParks_logOk (logOk_congr h (by simp))

theorem sendHeld_logOk {n : Nat} {l : List (List Byte)} {s : State} (h : s.logOk = true) : (sendHeld n l s).logOk = true := by
  induction l generalizing s with
  | nil => exact h
  | cons x t ih =>
    rw [sendHeld]
    exact ih (logOk_congr h (by simp))

theorem doOpen_logOk {s : State} {d : Datagram} (h : s.logOk = true) : (doOpen s d).logOk = true := by
  unfold doOpen
  refine ite_logOk ?_ h
  have h1 : (dropSession s d.session).logOk = true := dropSession_logOk h
  exact sendHeld_logOk (logOk_congr h1 (by simp))

theorem takePart_logOk {s : State} {n p : Nat} {body : List Byte} (h : s.logOk = true) : (takePart s n p body).logOk = true := by
  unfold takePart
  exact ite_logOk (logOk_congr h (by simp)) (acceptEntry_logOk (logOk_congr h (by simp)))

theorem doSubmit_logOk {s : State} {d : Datagram} (h : s.logOk = true) : (doSubmit s d).logOk = true := by
  unfold doSubmit
  refine ite_logOk (logOk_congr h (by simp)) ?_
  refine ite_logOk h ?_
  refine withDatagram_logOk h (fun _ h1 => ?_)
  split
  · exact h1
  · exact ite_logOk h1 (takePart_logOk h1)

theorem storeImage_logOk {s : State} {n : Nat} {body : List Byte} (h : s.logOk = true) : (storeImage s n body).logOk = true := by
  unfold storeImage
  exact logOk_congr h (by simp)

theorem doInvalidDatagram_logOk {s : State} {d : Datagram} (h : s.logOk = true) : (doInvalidDatagram s d).logOk = true := by
  unfold doInvalidDatagram
  exact ite_logOk (eventOnce_logOk _ _ _ (fun _ h1 => writeEvent_logOk _ _ _ _ _ h1) h) h

theorem doAckTimer_logOk {s : State} {n : Nat} (h : s.logOk = true) : (doAckTimer s n).logOk = true := by
  unfold doAckTimer
  exact ite_logOk (logOk_congr h (by simp)) h

theorem resendDue_logOk {n now : Nat} {l : List Unacked} {s : State} (h : s.logOk = true) : (resendDue n now l s).logOk = true := by
  induction l generalizing s with
  | nil => exact h
  | cons x t ih =>
    rw [resendDue]
    exact ite_logOk (ih (logOk_congr h (by simp))) (ih h)

theorem sessionLost_logOk {s : State} {n : Nat} (h : s.logOk = true) : (sessionLost s n).logOk = true := by
  unfold sessionLost
  exact writeEvent_logOk _ _ _ _ _ (dropSession_logOk h)

theorem doResend_logOk {s : State} {n : Nat} (h : s.logOk = true) : (doResend s n).logOk = true := by
  unfold doResend
  exact ite_logOk h (ite_logOk (sessionLost_logOk h) (resendDue_logOk h))

theorem doEthLink_logOk {s : State} {port : Nat} {up : Bool} (h : s.logOk = true) : (doEthLink s port up).logOk = true := by
  unfold doEthLink
  exact ite_logOk (rangerEvent_logOk _ _ _ _ (logOk_congr h (by simp))) h

theorem learnNeighbour_logOk {s : State} {a : List Byte} (h : s.logOk = true) : (learnNeighbour s a).logOk = true := by
  unfold learnNeighbour
  exact ite_logOk h (logOk_congr h (by simp))

theorem doIcmp_logOk {s : State} {m : IcmpMessage} (h : s.logOk = true) : (doIcmp s m).logOk = true := by
  unfold doIcmp
  split
  · exact h
  · refine ite_logOk h ?_
    refine ite_logOk (logOk_congr h (by simp)) ?_
    refine ite_logOk (ite_logOk (send_logOk (learnNeighbour_logOk h)) h) ?_
    exact ite_logOk (learnNeighbour_logOk h) (ite_logOk (logOk_congr h (by simp)) h)

theorem doSpdm_logOk {s : State} {r : SpdmRequest} (h : s.logOk = true) : (doSpdm s r).logOk = true := by
  unfold doSpdm
  exact ite_logOk h (ite_logOk (logOk_congr h (by simp)) (ite_logOk (logOk_congr h (by simp)) (ite_logOk (logOk_congr h (by simp)) (logOk_congr h
      (by simp)))))

end Sys2Proof.Machine
end

section
/-! SUPPORT. O5: the event log stays sound under the memory system's own rows (R113, R413). -/

namespace Sys2Proof.Machine

theorem dropRange_logOk {s : State} {p a : Nat} (h : s.logOk = true) : (dropRange s p a).logOk = true := by
  unfold dropRange
  exact logOk_congr h (by simp)

theorem loseWarm_logOk {s : State} {p n : Nat} (h : s.logOk = true) : (loseWarm s p n).logOk = true := by
  unfold loseWarm
  dsimp only
  split
  · exact putPage_logOk (dropRange_logOk h)
  · exact ite_logOk (freePage_logOk (putPage_logOk (dropRange_logOk h))) (putPage_logOk (dropRange_logOk h))
  · exact pageLost_logOk (putPage_logOk (dropRange_logOk h))
  · exact pageLost_logOk (freeRange_logOk (putPage_logOk (dropRange_logOk h)))
  · exact h

theorem loseWarms_logOk {q p : Nat} {l : List Nat} {s : State} (h : s.logOk = true) : (loseWarms q p l s).logOk = true := by
  induction l generalizing s with
  | nil => exact h
  | cons x t ih =>
    rw [loseWarms]
    exact ih (ite_logOk (loseWarm_logOk h) h)

theorem loseAllWarm_logOk {q : Nat} {l : List Nat} {s : State} (h : s.logOk = true) : (loseAllWarm q l s).logOk = true := by
  induction l generalizing s with
  | nil => exact h
  | cons x t ih =>
    rw [loseAllWarm]
    exact ih (loseWarms_logOk h)

theorem doPortLost_logOk {s : State} {q : Nat} (h : s.logOk = true) : (doPortLost s q).logOk = true := by
  unfold doPortLost
  exact ite_logOk (loseAllWarm_logOk (rangerEvent_logOk _ _ _ _ (logOk_congr h (by simp)))) h

theorem scrubBad_logOk {s : State} {da : Nat} {address : Bool} {content : HbmContent} {poison : Bool} (h : s.logOk = true) :
    (scrubBad s da address content poison).logOk = true := by
  unfold scrubBad
  exact contentBad_logOk (hbmBad_logOk h)

theorem doPatrolScrub_logOk {s : State} {da : Nat} {errors : List (BitVec 16)} {content : HbmContent} {poison : Bool} (h : s.logOk = true) :
    (doPatrolScrub s da errors content poison).logOk = true := by
  unfold doPatrolScrub
  dsimp only
  split
  · exact h
  · exact hbmCorrected_logOk (logOk_congr h (by simp))
  · exact scrubBad_logOk h
  · exact scrubBad_logOk h

theorem stackHot_logOk {s : State} {k : Nat} {t : Int} (h : s.logOk = true) : (stackHot s k t).logOk = true := by
  unfold stackHot
  exact ite_logOk h (rangerEvent_logOk _ _ _ _ (logOk_congr h (by simp)))

theorem stackRestore_logOk {s : State} {d : Nat} (h : s.logOk = true) : (stackRestore s d).logOk = true := by
  unfold stackRestore
  exact ite_logOk (ite_logOk (logOk_congr h (by simp)) (logOk_congr h (by simp))) h

theorem doStackReading_logOk {s : State} {k : Nat} {t : Int} (h : s.logOk = true) : (doStackReading s k t).logOk = true := by
  unfold doStackReading
  refine stackRestore_logOk ?_
  refine ite_logOk ?_ ?_
  · refine stackHot_logOk ?_
    refine ite_logOk (ite_logOk (logOk_congr h (by simp)) (rangerEvent_logOk _ _ _ _ (logOk_congr h (by simp)))) ?_
    exact rangerEvent_logOk _ _ _ _ (ite_logOk (logOk_congr h (by simp)) (rangerEvent_logOk _ _ _ _ (logOk_congr h (by simp))))
  · refine ite_logOk (ite_logOk (logOk_congr h (by simp)) (rangerEvent_logOk _ _ _ _ (logOk_congr h (by simp)))) ?_
    exact rangerEvent_logOk _ _ _ _ (ite_logOk (logOk_congr h (by simp)) (rangerEvent_logOk _ _ _ _ (logOk_congr h (by simp))))

theorem doRetentionClose_logOk {s : State} {u : Nat} (h : s.logOk = true) : (doRetentionClose s u).logOk = true := by
  unfold doRetentionClose
  exact ite_logOk (logOk_congr h (by simp)) h

theorem doRetentionEntered_logOk {s : State} {u : Nat} (h : s.logOk = true) : (doRetentionEntered s u).logOk = true := by
  unfold doRetentionEntered
  exact ite_logOk h (ite_logOk (logOk_congr h (by simp)) (ite_logOk (logOk_congr h (by simp)) (logOk_congr h (by simp))))

theorem doWakeDone_logOk {s : State} {u : Nat} (h : s.logOk = true) : (doWakeDone s u).logOk = true := by
  unfold doWakeDone
  exact ite_logOk (logOk_congr h (by simp)) h

theorem execFreedRangeScrubbed_logOk {index : Nat} {s : State} (h : s.logOk = true) : AnswerLogOk (execFreedRangeScrubbed index s) := by
  unfold execFreedRangeScrubbed
  split
  · exact h
  · exact logOk_congr h (by simp)

theorem restorePair_logOk {s : State} {pair : Nat} (h : s.logOk = true) : (restorePair s pair).logOk = true := by
  unfold restorePair
  exact logOk_congr h (by simp)

theorem doLockstep_logOk {s : State} {pair : Nat} {f : BootFindings} (h : s.logOk = true) : (doLockstep s pair f).logOk = true := by
  unfold doLockstep
  refine ite_logOk (startUp_logOk) ?_
  exact rerunAll_logOk (restorePair_logOk (rangerEvent_logOk _ _ _ _ h))

theorem ringToRam_logOk {s : State} {pos : Nat} (h : s.logOk = true) : (ringToRam s pos).logOk = true := by
  unfold ringToRam
  exact rangerEvent_logOk _ _ _ _ (logOk_of_bounds h rfl rfl (.inr (length_lastN 65536 _)) rfl)

theorem openSector_logOk {s : State} {pos phys erases : Nat} (h : s.logOk = true) : (openSector s pos phys erases).logOk = true :=
  logOk_of_bounds h rfl rfl (.inl rfl) rfl

theorem remapSector_logOk {s : State} {pos : Nat} {open_ : State → Nat → State} (h : s.logOk = true)
    (hk : ∀ t, t.logOk = true → ∀ a, (open_ t a).logOk = true) : (remapSector s pos open_).logOk = true := by
  unfold remapSector
  exact ite_logOk (rangerEvent_logOk _ _ _ _ (hk _ (logOk_congr h (by simp)) _)) (ringToRam_logOk h)

theorem moveHead_logOk {s : State} {phys : Nat} (h : s.logOk = true) : (moveHead s phys).logOk = true := by
  unfold moveHead
  exact logOk_congr h (by simp)

theorem doSectorErase_logOk {s : State} {headOk ok : Bool} (h : s.logOk = true) : (doSectorErase s headOk ok).logOk = true := by
  unfold doSectorErase
  refine ite_logOk h ?_
  refine ite_logOk (remapSector_logOk h (fun _ h1 _ => moveHead_logOk h1)) ?_
  exact ite_logOk h (ite_logOk (openSector_logOk h) (remapSector_logOk h (fun _ h1 _ => openSector_logOk h1)))

end Sys2Proof.Machine
end

section
/-! SUPPORT. O5: the event log stays sound under the load of a package (R113, R413). -/

namespace Sys2Proof.Machine

theorem writeTensors_logOk {r : PitchRecord} {l : List TensorImage} {s : State} (h : s.logOk = true) : (writeTensors r l s).logOk = true := by
  induction l generalizing s with
  | nil => exact h
  | cons x t ih =>
    rw [writeTensors]
    exact ih (logOk_congr h (by simp))

theorem writeCodedRegions_logOk {r : PitchRecord} {l : List CodedRegion} {s : State} (h : s.logOk = true) :
    (writeCodedRegions r l s).logOk = true := by
  induction l generalizing s with
  | nil => exact h
  | cons x t ih =>
    rw [writeCodedRegions]
    exact ih (ite_logOk (logOk_congr h (by simp)) (logOk_congr h (by simp)))

theorem fillPersistent_logOk {r : PitchRecord} {l : List Slot} {s : State} (h : s.logOk = true) : (fillPersistent r l s).logOk = true := by
  induction l generalizing s with
  | nil => exact h
  | cons x t ih =>
    rw [fillPersistent]
    exact ih (ite_logOk (logOk_congr h (by simp)) h)

theorem placeProgram_logOk {r : PitchRecord} {p : ProgramImage} {l : List Nat} {x : State × List LoadedProgram} (h : x.1.logOk = true) :
    (placeProgram r p l x).1.logOk = true := by
  induction l generalizing x with
  | nil => exact h
  | cons rel t ih =>
    obtain ⟨s, done⟩ := x
    rw [placeProgram]
    exact ih (putCamp_logOk h)

theorem placePrograms_logOk {r : PitchRecord} {l : List ProgramImage} {x : State × List LoadedProgram} (h : x.1.logOk = true) :
    (placePrograms r l x).1.logOk = true := by
  induction l generalizing x with
  | nil => exact h
  | cons p t ih =>
    rw [placePrograms]
    exact ih (placeProgram_logOk h)

theorem clearCommands_logOk {r : PitchRecord} {l : List Nat} {s : State} (h : s.logOk = true) : (clearCommands r l s).logOk = true := by
  induction l generalizing s with
  | nil => exact h
  | cons x t ih =>
    rw [clearCommands]
    exact ih (logOk_congr h (by simp))

theorem loadPackage_logOk {s : State} {r : PitchRecord} {k : PackageImage} (h : s.logOk = true) : (loadPackage s r k).logOk = true := by
  unfold loadPackage
  exact onPitch_logOk (fillPersistent_logOk (placePrograms_logOk (clearCommands_logOk (writeCodedRegions_logOk (writeTensors_logOk h)))))

theorem writeBlocks_logOk {r : PitchRecord} {x : LoadedTensor} {i : TensorImage} {l : List Nat} {s : State} (h : s.logOk = true) :
    (writeBlocks r x i l s).logOk = true := by
  induction l generalizing s with
  | nil => exact h
  | cons x t ih =>
    rw [writeBlocks]
    exact ih (logOk_congr h (by simp))

theorem restoreTensors_logOk {r : PitchRecord} {imgs : List TensorImage} {l : List LoadedTensor} {s : State} (h : s.logOk = true) :
    (restoreTensors r imgs l s).logOk = true := by
  induction l generalizing s with
  | nil => exact h
  | cons x t ih =>
    rw [restoreTensors]
    refine ih ?_
    split
    · exact h
    · exact writeBlocks_logOk h

theorem restoreCoded_logOk {r : PitchRecord} {imgs : List CodedRegion} {k : LoadedPackage} {l : List (Nat × Nat)} {s : State} (h : s.logOk = true) :
    (restoreCoded r imgs k l s).logOk = true := by
  induction l generalizing s with
  | nil => exact h
  | cons x t ih =>
    rw [restoreCoded]
    refine ih ?_
    split
    · exact h
    · exact logOk_congr h (by simp)

theorem healAll_logOk {img : PackageImage} {da : Nat} {l : List Nat} {s : State} (h : s.logOk = true) : (healAll img da l s).logOk = true := by
  induction l generalizing s with
  | nil => exact h
  | cons x t ih =>
    rw [healAll]
    exact ih (logOk_congr h (by simp))

theorem restoreAll_logOk {r : PitchRecord} {img : PackageImage} {l : List Nat} {s : State} (h : s.logOk = true) :
    (restoreAll r img l s).logOk = true := by
  induction l generalizing s with
  | nil => exact h
  | cons x t ih =>
    rw [restoreAll]
    refine ih ?_
    split
    · exact h
    · exact restoreCoded_logOk (restoreTensors_logOk h)

theorem reloadPackage_logOk {s : State} {r : PitchRecord} {k : PackageImage} (h : s.logOk = true) : (reloadPackage s r k).logOk = true := by
  unfold reloadPackage
  exact onPitch_logOk (healAll_logOk (restoreAll_logOk h))

theorem doPackageLoad_logOk {s : State} {r : PitchRecord} {k : PackageImage} (h : s.logOk = true) : (doPackageLoad s r k).logOk = true := by
  unfold doPackageLoad
  refine ite_logOk h ?_
  refine ite_logOk (logOk_congr h (by simp)) ?_
  refine ite_logOk (reloadPackage_logOk h) ?_
  split
  · exact logOk_congr h (by simp)
  · exact loadPackage_logOk h

end Sys2Proof.Machine
end

section
/-! SUPPORT. O5: the event log stays sound under power and cooling (R113, R413). -/

namespace Sys2Proof.Machine

theorem restartBelow_logOk {s : State} (h : s.logOk = true) : (restartBelow s).logOk = true := by
  unfold restartBelow
  exact logOk_congr h (by simp)

theorem capDies_logOk {cap : Nat} {l : List Nat} {s : State} (h : s.logOk = true) : (capDies cap l s).logOk = true := logOk_congr h (by simp)

theorem inputRange_logOk {s : State} {input mv : Nat} (h : s.logOk = true) : (inputRange s input mv).logOk = true := by
  unfold inputRange
  exact rangerEvent_logOk _ _ _ _ h

theorem mainLeaves_logOk {s : State} {mv : Nat} (h : s.logOk = true) : (mainLeaves s mv).logOk = true := by
  unfold mainLeaves
  exact ite_logOk h (ite_logOk (inputRange_logOk (logOk_congr h (by simp))) (logOk_congr h (by simp)))

theorem doMainFailure_logOk {s : State} {mv : Nat} (h : s.logOk = true) : (doMainFailure s mv).logOk = true := by
  unfold doMainFailure
  refine ite_logOk (mainLeaves_logOk h) ?_
  exact ite_logOk (rangerEvent_logOk _ _ _ _ (restartBelow_logOk (capDies_logOk (mainLeaves_logOk h)))) (mainLeaves_logOk h)

theorem doMainRestored_logOk {s : State} {f : BootFindings} (h : s.logOk = true) : (doMainRestored s f).logOk = true := by
  unfold doMainRestored
  refine ite_logOk (ite_logOk (raiseRails_logOk (logOk_congr h (by simp))) (logOk_congr h (by simp))) ?_
  exact ite_logOk (rangerEvent_logOk _ _ _ _ (restartBelow_logOk (logOk_congr h (by simp)))) (logOk_congr h (by simp))

theorem doVinBackup_logOk {s : State} {mv : Nat} {f : BootFindings} (h : s.logOk = true) : (doVinBackup s mv f).logOk = true := by
  unfold doVinBackup
  refine ite_logOk h ?_
  refine ite_logOk (ite_logOk (raiseRails_logOk (logOk_congr h (by simp))) (logOk_congr h (by simp))) ?_
  exact ite_logOk (ite_logOk (inputRange_logOk (logOk_congr h (by simp))) (logOk_congr h (by simp))) h

theorem policyParks_logOk {policy : Nat} {l : List PitchRecord} {s : State} (h : s.logOk = true) : (policyParks policy l s).logOk = true := by
  induction l generalizing s with
  | nil => exact h
  | cons x t ih =>
    rw [policyParks]
    exact ih (ite_logOk (deviceParks_logOk h) h)

theorem parkAllMarked_logOk {l : List PitchRecord} {s : State} (h : s.logOk = true) : (parkAllMarked l s).logOk = true := by
  induction l generalizing s with
  | nil => exact h
  | cons x t ih =>
    rw [parkAllMarked]
    exact ih (ite_logOk (parkMarked_logOk h) h)

theorem doBackupPark_logOk {s0 : State} (h : s0.logOk = true) : (doBackupPark s0).logOk = true := by
  unfold doBackupPark
  dsimp only
  split
  · exact ite_logOk (parkAllMarked_logOk h) (policyParks_logOk (parkAllMarked_logOk h))
  · exact parkAllMarked_logOk h

theorem powerLimited_logOk {s : State} {die point : Nat} (h : s.logOk = true) : (powerLimited s die point).logOk = true := by
  unfold powerLimited
  exact eventOnce_logOk _ _ _ (fun _ h1 => rangerEvent_logOk _ _ _ _ h1) h

theorem doGovernorLower_logOk {s0 : State} {power power20 : Nat} (h : s0.logOk = true) : (doGovernorLower s0 power power20).logOk = true := by
  unfold doGovernorLower
  refine ite_logOk (logOk_congr h (by simp)) ?_
  exact ite_logOk (powerLimited_logOk (logOk_congr h (by simp))) (ite_logOk (powerLimited_logOk (logOk_congr h (by simp))) (logOk_congr h (by simp)))

theorem doGovernorRaise_logOk {s0 : State} {power : Nat} (h : s0.logOk = true) : (doGovernorRaise s0 power).logOk = true := by
  unfold doGovernorRaise
  dsimp only
  split
  · exact ite_logOk (logOk_congr h (by simp)) (logOk_congr h (by simp))
  · exact logOk_congr h (by simp)

theorem throttleEvent_logOk {s : State} {d : Nat} (h : s.logOk = true) : (throttleEvent s d).logOk = true := by
  unfold throttleEvent
  exact eventOnce_logOk _ _ _ (fun _ h1 => rangerEvent_logOk _ _ _ _ h1) h

theorem throttlePoint_logOk {s : State} {d : Nat} (h : s.logOk = true) : (throttlePoint s d).logOk = true := by
  unfold throttlePoint
  refine ite_logOk (throttleEvent_logOk (ite_logOk (logOk_congr h (by simp)) (ite_logOk (logOk_congr h (by simp)) h))) ?_
  exact ite_logOk (logOk_congr h (by simp)) (ite_logOk (logOk_congr h (by simp)) h)

theorem resumeSlots_logOk {l : List Nat} {s : State} (h : s.logOk = true) : (resumeSlots l s).logOk = true := by
  induction l generalizing s with
  | nil => exact h
  | cons x t ih =>
    rw [resumeSlots]
    refine ih ?_
    split
    · exact h
    · exact logOk_congr h (by simp)

theorem readDie_logOk {s : State} {d : Nat} {j : Int} (h : s.logOk = true) : (readDie s d j).logOk = true := by
  unfold readDie
  refine ite_logOk (rangerEvent_logOk _ _ _ _ (throttlePoint_logOk (logOk_congr h (by simp)))) ?_
  exact ite_logOk (resumeSlots_logOk (throttlePoint_logOk (logOk_congr h (by simp)))) (throttlePoint_logOk (logOk_congr h (by simp)))

theorem readDies_logOk {l : List (List Int × Nat)} {s : State} (h : s.logOk = true) : (readDies l s).logOk = true := by
  induction l generalizing s with
  | nil => exact h
  | cons x t ih =>
    obtain ⟨_, _⟩ := x
    rw [readDies]
    exact ih (readDie_logOk h)

theorem senseDies_logOk {l : List (List Int × Nat)} {s : State} (h : s.logOk = true) : (senseDies l s).logOk = true := by
  induction l generalizing s with
  | nil => exact h
  | cons x t ih =>
    obtain ⟨_, _⟩ := x
    rw [senseDies]
    exact ih (logOk_congr h (by simp))

theorem doJunctions_logOk {s : State} {sensors : List (List Int)} (h : s.logOk = true) : (doJunctions s sensors).logOk = true := by
  unfold doJunctions
  refine ite_logOk (ite_logOk (senseDies_logOk h) h) ?_
  split
  · exact senseDies_logOk (logOk_congr (railsOff_logOk s) (by simp))
  · exact readDies_logOk h

theorem doCoolantHigh_logOk {s : State} {inlet : Nat} (h : s.logOk = true) : (doCoolantHigh s inlet).logOk = true := by
  unfold doCoolantHigh
  exact ite_logOk (rangerEvent_logOk _ _ _ _ (logOk_congr h (by simp))) (logOk_congr h (by simp))

theorem doCoolantLifted_logOk {s : State} {inlet : Nat} (h : s.logOk = true) : (doCoolantLifted s inlet).logOk = true := by
  unfold doCoolantLifted
  exact ite_logOk (logOk_congr h (by simp)) (logOk_congr h (by simp))

end Sys2Proof.Machine
end

section
/-! PROOF. O5: every step keeps the event log and the hash accumulators within their bounds (R113, R413, R450, R463). -/

namespace Sys2Proof.Machine

/-- Every row keeps the event log sound: the commands of camps through the result of the command, the others by their one operation. -/
theorem exec_logOk (c : Instr) {s : State} (h : s.logOk = true) : AnswerLogOk (exec c s) := by
  cases c with
  | vauxGood => exact startUp_logOk
  | hbmTrainingDone => exact .ite (reachCheck_logOk (channelRecords_logOk (logOk_congr h (by simp)))) h
  | linksTrained => exact .ite (doLinksTrained_logOk h) h
  | linkIdentity => exact nextIf_logOk (doLinkIdentity_logOk h)
  | configCheck => exact .ite (doConfigCheck_logOk h) h
  | capacityClearDone => exact .ite (logOk_congr h (by simp)) h
  | groupJoin => exact execGroupJoin_logOk h
  | groupDigestRetry => exact pitchRow_logOk h (fun _ => doDigestRetry_logOk h)
  | groupJoined => exact pitchRow_logOk h (fun _ => doGroupJoined_logOk (logOk_congr h (by simp)))
  | modReset => exact .ite startUp_logOk h
  | modelPackageLoad => exact pitchRow_logOk h (fun _ => doPackageLoad_logOk h)
  | programStart => exact execProgramStart_logOk h
  | cNop => exact runCommand_logOk h (fun _ _ h1 => doNop_logOk h1)
  | cEnd => exact runCommand_logOk h (fun _ _ h1 => doEnd_logOk h1)
  | cSetwin => exact runCommand_logOk h (fun _ _ h1 => doSetwin_logOk h1)
  | cWdog => exact runCommand_logOk h (fun _ _ h1 => doWdog_logOk h1)
  | cLoop => exact runCommand_logOk h (fun _ _ h1 => doLoop_logOk h1)
  | cFence => exact runCommand_logOk h (fun _ _ h1 => doFence_logOk h1)
  | cSlotrd => exact runCommand_logOk h (fun _ _ h1 => doSlotrd_logOk h1)
  | cSlotwr => exact runCommand_logOk h (fun _ _ h1 => doSlotwr_logOk h1)
  | cMemrd => exact runCommand_logOk h (fun _ _ h1 => doMemrd_logOk h1)
  | cMemwr => exact runCommand_logOk h (fun _ _ h1 => doMemwr_logOk h1)
  | cWstream => exact runCommand_logOk h (fun _ _ h1 => doWstream_logOk h1)
  | cTilecfg => exact runCommand_logOk h (fun _ _ h1 => doTilecfg_logOk h1)
  | cTile => exact runCommand_logOk h (fun _ _ h1 => doTile_logOk h1)
  | cVld => exact runCommand_logOk h (fun _ _ h1 => doVld_logOk h1)
  | cVst => exact runCommand_logOk h (fun _ _ h1 => doVst_logOk h1)
  | cTred => exact runCommand_logOk h (fun _ _ h1 => doTred_logOk h1)
  | cSignal => exact runCommand_logOk h (fun _ _ h1 => doSignal_logOk h1)
  | cWait => exact runCommand_logOk h (fun _ _ h1 => doWait_logOk h1)
  | cTake => exact runCommand_logOk h (fun _ _ h1 => doTake_logOk h1)
  | cTopk => exact runCommand_logOk h (fun _ _ h1 => doTopk_logOk h1)
  | cHopen => exact runCommand_logOk h (fun _ _ h1 => doHopen_logOk h1)
  | cHadd => exact runCommand_logOk h (fun _ _ h1 => doHadd_logOk h1)
  | cHclose => exact runCommand_logOk h (fun _ _ h1 => doHclose_logOk h1)
  | hashCloseMerge => exact nextIf_logOk (doHashClose_logOk h)
  | cReserved => exact runCommand_logOk h (fun _ _ _ => doReserved_logOk)
  | vNop => exact runVop_logOk h (fun _ _ h1 => vopCommand_logOk (fun _ => h1))
  | vAdd => exact runVop_logOk h (fun _ _ h1 => doFmaElem_logOk h1)
  | vMul => exact runVop_logOk h (fun _ _ h1 => doFmaElem_logOk h1)
  | vFma => exact runVop_logOk h (fun _ _ h1 => doFmaElem_logOk h1)
  | vMin => exact runVop_logOk h (fun _ _ h1 => doElem_logOk h1)
  | vMax => exact runVop_logOk h (fun _ _ h1 => doElem_logOk h1)
  | vCmpeq => exact runVop_logOk h (fun _ _ h1 => doElem_logOk h1)
  | vCmplt => exact runVop_logOk h (fun _ _ h1 => doElem_logOk h1)
  | vCmple => exact runVop_logOk h (fun _ _ h1 => doElem_logOk h1)
  | vSel => exact runVop_logOk h (fun _ _ h1 => doElem_logOk h1)
  | vCvtfi => exact runVop_logOk h (fun _ _ h1 => doElem_logOk h1)
  | vCvtif => exact runVop_logOk h (fun _ _ h1 => doElem_logOk h1)
  | vCvtbf => exact runVop_logOk h (fun _ _ h1 => doElem_logOk h1)
  | vExpx => exact runVop_logOk h (fun _ _ h1 => doElem_logOk h1)
  | vExpi => exact runVop_logOk h (fun _ _ h1 => doElem_logOk h1)
  | vScalb => exact runVop_logOk h (fun _ _ h1 => doElem_logOk h1)
  | vSumg => exact runVop_logOk h (fun _ _ h1 => vopCommand_logOk (fun _ => withFma_logOk h1 (fun _ h3 => vopRun_logOk h3)))
  | vMaxg => exact runVop_logOk h (fun _ _ h1 => vopCommand_logOk (fun _ => vopRun_logOk h1))
  | vLdacc => exact runVop_logOk h (fun _ _ h1 => doAcc_logOk h1)
  | vLdacca => exact runVop_logOk h (fun _ _ h1 => doAcc_logOk h1)
  | vLdaccm => exact runVop_logOk h (fun _ _ h1 => doAcc_logOk h1)
  | vReqacc => exact runVop_logOk h (fun _ _ h1 => vopCommand_logOk (fun _ => withTiles_logOk (withFma_logOk h1 (fun _ h3 => vopRun_logOk h3))))
  | vReqreg => exact runVop_logOk h (fun _ _ h1 => vopCommand_logOk (fun _ => vopRun_logOk h1))
  | vReqout => exact runVop_logOk h (fun _ _ h1 => doReqout_logOk h1)
  | vExp2 => exact runVop_logOk h (fun _ _ h1 => doFmaElem_logOk h1)
  | vRcp => exact runVop_logOk h (fun _ _ h1 => doFmaElem_logOk h1)
  | vRsq => exact runVop_logOk h (fun _ _ h1 => doFmaElem_logOk h1)
  | vRotcs =>
    exact runVop_logOk h (fun _ _ h1 => vopCommand_logOk (fun _ => .ite trivial (withFma_logOk h1 (fun _ h3 => vopRun_logOk h3))))
  | vReserved => exact runCommand_logOk h (fun _ _ _ => doVReserved_logOk)
  | lanePass => exact .ite (.ite h (logOk_congr h (by simp))) trivial
  | runAhead => exact nextIf_logOk (doRunAhead_logOk h)
  | tileRunJoin => exact execTileRunJoin_logOk h
  | weightRefetched => exact execWeightRefetched_logOk h
  | slotFilled => exact pitchRow_logOk h (fun _ => doSlotFilled_logOk h)
  | slotDrained => exact pitchRow_logOk h (fun _ => doSlotDrained_logOk h)
  | syncTimeout => exact nextIf_logOk (doTimeout_logOk (logOk_congr h (by simp)))
  | groupStepStart => exact pitchRow_logOk h (fun _ => startStep_logOk (logOk_congr h (by simp)))
  | stepCloseReport => exact pitchRow_logOk h (fun _ => takeReport_logOk (logOk_congr h (by simp)))
  | lanternSelect => exact pitchRow_logOk h (fun _ => doLantern_logOk h)
  | chunkListsReady => exact pitchRow_logOk h (fun _ => doChunkLists_logOk h)
  | pagePromotionStart => exact execPagePromotionStart_logOk h
  | pagePromotionDone => exact nextIf_logOk (doPromotionDone_logOk h)
  | pageDemotionStart => exact pitchRow_logOk h (fun _ => doDemotionStart_logOk h)
  | pageDemotionDone => exact pitchRow_logOk h (fun _ => doDemotionDone_logOk h)
  | pageRefetched => exact nextIf_logOk (doPageRefetched_logOk h)
  | stepBoundary => exact pitchRow_logOk h (fun _ => boundary_logOk (logOk_congr h (by simp)))
  | qCreate => exact onDue_logOk (logOk_congr h (by simp)) (fun _ h1 _ _ => doCreate_logOk h1)
  | qContinue => exact onDue_logOk (logOk_congr h (by simp)) (fun _ h1 _ _ => doContinue_logOk h1)
  | qTruncate => exact onDue_logOk h (fun _ h1 _ _ => doTruncate_logOk h1)
  | truncationCopyDone => exact execTruncationCopyDone_logOk h
  | qFork => exact onDue_logOk h (fun _ h1 _ _ => doFork_logOk h1)
  | qPark => exact onDue_logOk h (fun _ h1 _ _ => doPark_logOk h1)
  | parkFormDone => exact execParkFormDone_logOk h
  | parkCommit => exact nextIf_logOk (doParkCommit_logOk h)
  | qResume => exact onDue_logOk h (fun _ h1 _ _ => doResume_logOk h1)
  | resumeRecordsRead => exact execResumeRecordsRead_logOk h
  | pageImport => exact nextIf_logOk (doPageImport_logOk h)
  | imageReadTimeout => exact nextIf_logOk (doReadTimeout_logOk h)
  | qStatus => exact onDue_logOk h (fun _ h1 _ _ => doStatus_logOk h1)
  | qFree => exact onDue_logOk h (fun _ h1 _ _ => doFree_logOk h1)
  | submissionDoorbell => exact nextIf_logOk (doSubmissionDoorbell_logOk h)
  | completionDoorbell => exact nextIf_logOk (doCompletionDoorbell_logOk h)
  | submissionFetch => exact nextIf_logOk (doSubmissionFetch_logOk (logOk_congr h (by simp)))
  | mailboxPost => exact nextIf_logOk (mailWrite_logOk h)
  | collisionClear => exact .ite (.ite (logOk_congr h (by simp)) h) trivial
  | cairnLoRead => exact .ite (.ite (logOk_congr h (by simp)) h) trivial
  | supplyLatchClear => exact logOk_congr h (by simp)
  | registerWrite => exact nextIf_logOk (ite_logOk (doConfigWrite_logOk h) (doRegisterWrite_logOk h))
  | ringCreate => exact nextIf_logOk (mailRun_logOk h (fun _ _ h1 => actRingCreate_logOk h1))
  | ringDestroy => exact nextIf_logOk (mailRun_logOk h (fun _ _ h1 => actRingDestroy_logOk h1))
  | attachBegin => exact nextIf_logOk (mailRun_logOk h (fun _ _ h1 => actAttachBegin_logOk h1))
  | attach => exact nextIf_logOk (mailRun_logOk h (fun _ _ h1 => actAttach_logOk h1))
  | fwWrite => exact fwRow_logOk h (fun _ _ _ _ h1 => actFwWrite_logOk h1)
  | fwVerify => exact fwRow_logOk h (fun _ _ _ _ h1 => actFwVerify_logOk h1)
  | fwActivate => exact fwRow_logOk h (fun _ _ _ _ h1 => actFwActivate_logOk h1)
  | fwDisarm => exact fwRow_logOk h (fun _ _ _ _ h1 => actFwDisarm_logOk h1)
  | fwConfirm => exact fwRow_logOk h (fun _ _ _ _ h1 => actFwConfirm_logOk h1)
  | lockWrite => exact fwRow_logOk h (fun _ _ _ _ h1 => actLockWrite_logOk h1)
  | fwStatus => exact fwRow_logOk h (fun _ _ _ _ h1 => actFwStatus_logOk h1)
  | fwArmedRestart => exact doArmedRestart_logOk (logOk_congr h (by simp))
  | firmwareBlock => exact withPacket_logOk h (fun _ => pump_logOk (doFirmwareBlock_logOk (logOk_congr h (by simp))))
  | functionReset => exact .ite (.ite (doFunctionReset_logOk h) h) trivial
  | functionResetDone => exact nextIf_logOk (logOk_congr h (by simp))
  | openSession => exact doOpen_logOk (logOk_congr h (by simp))
  | submitPart => exact doSubmit_logOk (logOk_congr h (by simp))
  | ackMsg => exact withDatagram_logOk h (fun _ h1 => h1)
  | imageData => exact withDatagram_logOk h (fun _ h1 => ite_logOk h1 (storeImage_logOk h1))
  | invalidDatagram => exact doInvalidDatagram_logOk (logOk_congr h (by simp))
  | ackTimer => exact doAckTimer_logOk (logOk_congr h (by simp))
  | datagramResend => exact doResend_logOk (logOk_congr h (by simp))
  | ethLink => exact nextIf_logOk (doEthLink_logOk h)
  | flitData => exact nextIf_logOk (doFlitData_logOk h)
  | flitIdle => exact nextIf_logOk (doFlitIdle_logOk h)
  | retryRequest => exact nextIf_logOk (doRetryRequest_logOk h)
  | linkDown => exact nextIf_logOk (doLinkDown_logOk (logOk_congr h (by simp)))
  | linkUp => exact nextIf_logOk (doLinkUp_logOk (logOk_congr h (by simp)))
  | linkLost => exact nextIf_logOk (doLinkLost_logOk (logOk_congr h (by simp)))
  | slotTransfer => exact pitchRow_logOk h (fun _ => doSlotTransfer_logOk (logOk_congr h (by simp)))
  | slotDataPacket => exact withPacket_logOk h (fun _ => doSlotData_logOk h)
  | transferResponse => exact withPacket_logOk h (fun _ => pump_logOk (doResponse_logOk (logOk_congr h (by simp))))
  | transferResend => exact doTransferResend_logOk (logOk_congr h (by simp))
  | managementMessage => exact withPacket_logOk h (fun _ => logOk_congr h (by simp))
  | timeRequest => exact doTimeRequest_logOk (logOk_congr h (by simp))
  | timeRequestReceived => exact nextIf_logOk (withTimeFrame_logOk h (fun _ h1 => doTimeAnswer_logOk h1))
  | timeResponse => exact nextIf_logOk (withTimeFrame_logOk h (fun _ h1 => doTimeResponse_logOk h1))
  | ppsEdge => exact doPpsEdge_logOk h
  | cxlLinkDown => exact .ite (.ite (logOk_congr h (by simp)) (logOk_congr h (by simp))) trivial
  | cxlRetrainDone => exact .ite (.ite (logOk_congr h (by simp)) (logOk_congr h (by simp))) trivial
  | cxlPortLost => exact nextIf_logOk (doPortLost_logOk (logOk_congr h (by simp)))
  | patrolScrub => exact .ite trivial (rangerAccess_logOk h (fun _ h1 => doPatrolScrub_logOk h1))
  | stackTemperatureReading => exact nextIf_logOk (doStackReading_logOk (logOk_congr h (by simp)))
  | retentionClose => exact nextIf_logOk (doRetentionClose_logOk (logOk_congr h (by simp)))
  | retentionEntered => exact nextIf_logOk (doRetentionEntered_logOk h)
  | lateWake => exact nextIf_logOk (logOk_congr h (by simp))
  | wakeDone => exact nextIf_logOk (doWakeDone_logOk h)
  | rangerLockstep => exact nextIf_logOk (doLockstep_logOk (logOk_congr h (by simp)))
  | sectorErase => exact doSectorErase_logOk h
  | mainFailure => exact doMainFailure_logOk (logOk_congr h (by simp))
  | mainRestored => exact doMainRestored_logOk (logOk_congr h (by simp))
  | powerLoss => exact .ite (logOk_congr (railsOff_logOk s) (by simp)) h
  | backupPark => exact doBackupPark_logOk (logOk_congr h (by simp))
  | governorLower => exact doGovernorLower_logOk (logOk_congr h (by simp))
  | governorRaise => exact doGovernorRaise_logOk (logOk_congr h (by simp))
  | junctionReading => exact doJunctions_logOk (logOk_congr h (by simp))
  | coolantHigh => exact doCoolantHigh_logOk (logOk_congr h (by simp))
  | coolantCapLifted => exact doCoolantLifted_logOk (logOk_congr h (by simp))
  | vauxLoss => exact logOk_congr (railsOff_logOk s) (by simp)
  | vinBackupOutOfRange => exact doVinBackup_logOk h
  | vddCoreGood => exact .ite (logOk_congr h (by simp)) h
  | arraysTested => exact .ite (.ite (doArraysTested_logOk h) h) trivial
  | freedRangeScrubbed => exact execFreedRangeScrubbed_logOk h
  | spdmRequest => exact doSpdm_logOk h
  | icmpv6Message => exact nextIf_logOk (doIcmp_logOk h)

/-- Settles O5: an empty queue lets time pass, and every row keeps the log sound. -/
theorem eventLogStaysBounded : Obligations.EventLogStaysBounded := by
  unfold Obligations.EventLogStaysBounded
  intro s t h hstep
  unfold step at hstep
  cases hqueue : s.pending with
  | nil =>
    rw [hqueue] at hstep
    cases hstep
    exact logOk_congr h (by simp)
  | cons c rest =>
    rw [hqueue] at hstep
    exact (exec_logOk c (logOk_congr h (by simp))).next hstep

end Sys2Proof.Machine
end

section
/-! SUPPORT. How commands on the cores of a mask and vector operations answer (R123, R125, R146, R148, R149): what they come to, and that nothing but
those cores changes. -/

namespace Sys2Proof.Machine

/-! ### The program after a command -/

/-- The state in which the camp's program has gone on to its next command and its wait is cleared. -/
abbrev gone (u : State) (camp : Nat) (p : Program) : State := putCamp u camp { campOf u camp with prog := some (nextProg p), blocked := none }

/-- A command that ends by itself leaves the state that it says. -/
theorem runCommand_settled {s u : State} {camp : Nat} {w : CmdWord} {r : PitchRecord} {rel : Nat} {p : Program} (hat : AtCommand s camp w r rel p)
    {mine : Bool} (hmine : mine = true) {f : Ctx → State → CmdRes} (hsettled : f (ctxAt camp r rel p w) s = .settled u) :
    runCommand s camp w mine f = .next u := by
  rw [runCommand_at hat hmine, hsettled]
  rfl

/-- A program that is moved to a command within it stands there. -/
theorem moveTo_within {s : State} {camp : Nat} {p : Program} (hprog : (campOf s camp).prog = some p) {ls ls' : List LoopFrame} {pc pc' : Nat}
    (hclose : closeLoops ls pc = (ls', pc')) (hpc : pc' < p.commands) :
    moveTo s camp ls pc = putCamp s camp { campOf s camp with prog := some { p with loops := ls', pc := pc' }, blocked := none } := by
  unfold moveTo
  simp only [hprog, hclose]
  rw [if_neg (by omega)]

/-! ### Cores of a mask -/

/-- A command that changes each core of the mask by its rank and number, over a state with the camps of `s`. -/
theorem runCommand_onCores {s u : State} {camp : Nat} {w : CmdWord} {r : PitchRecord} {rel : Nat} {p : Program} (hat : AtCommand s camp w r rel p)
    (hnext : HasNext p) {mine : Bool} (hmine : mine = true) {f : Ctx → State → CmdRes} {g : Nat → Nat → Core → Core}
    (hdone : f (ctxAt camp r rel p w) s = .done (onCores u camp (cmdCores w) g)) (hcamp : campOf u camp = campOf s camp) :
    ∃ t, runCommand s camp w mine f = .next t ∧ OnlyCoresOf u t camp p
      ∧ (∀ c q, (c, q) ∈ (cmdCores w).zipIdx → coreOf (campOf t camp) c = g q c (coreOf (campOf s camp) c))
      ∧ ∀ c, c ∉ cmdCores w → coreOf (campOf t camp) c = coreOf (campOf s camp) c := by
  have hfst : (cmdCores w).zipIdx.map Prod.fst = cmdCores w := List.zipIdx_map_fst 0 (cmdCores w)
  have hcores : campOf (onCores u camp (cmdCores w) g) camp = eachCore g (cmdCores w).zipIdx (campOf s camp) := by rw [campOf_onCores, hcamp]
  have hprog : (campOf (onCores u camp (cmdCores w) g) camp).prog = (campOf s camp).prog := by rw [hcores, eachCore_cores]
  refine ⟨_, runCommand_done hat hnext hmine hdone hprog, ?_, fun c q hc => ?_, fun c hc => ?_⟩
  · rw [OnlyCoresOf, campOf_putCamp, hcores, onCores, putCamp_putCamp, eachCore_cores, hcamp]
  · rw [campOf_putCamp, hcores]
    exact coreOf_eachCore g (hfst.symm ▸ cmdCores_nodup w) hc _
  · rw [campOf_putCamp, hcores]
    exact coreOf_eachCore_of_notMem g (hfst.symm ▸ hc) _

/-! ### Vector operations -/

section
variable {s : State} {camp : Nat} {w : CmdWord} {r : PitchRecord} {rel : Nat} {p : Program} {op mask : Nat}

/-- A vector operation whose word is well formed and uses only its own imm bits acts on the cores of the mask. -/
theorem vopCommand_clear (hword : VectorWord w op mask) (k : List Nat → CmdRes) : vopCommand w mask k = k (cmdCores w) := by
  obtain ⟨⟨_, hclear⟩, _, hrepeat, hcores, himm⟩ := hword
  rw [vopCommand, coreCommand_clear hclear (decide_eq_true hrepeat) hcores, if_neg (by simpa using himm)]

/-- The word is one of the operation's row. -/
theorem vop_mine (hword : VectorWord w op mask) : (decide (cmdOpcode w = 0x0D) && decide (vopOp w = op)) = true := by
  obtain ⟨⟨hopcode, _⟩, hop, _⟩ := hword
  simp [hopcode, hop]

end

end Sys2Proof.Machine
end

section
/-! PROOF. O11: NOP, FENCE, WDOG, LOOP, TILECFG and END (R146, R149, R151, R162, R171). -/

namespace Sys2Proof.Machine

/-- No tile run and no closing write keeps a FENCE or END waiting. -/
theorem fenceWaits_false {s : State} {camp : Nat} {w : CmdWord} {r : PitchRecord} {rel : Nat} {p : Program}
    (hbusy : campBusy (campOf s camp) = false) (hland : landing s r rel = false) : fenceWaits (ctxAt camp r rel p w) s = false := by
  simp [fenceWaits, hbusy, hland]

/-- The program under the limit of a WDOG word (R149). -/
def limited (w : CmdWord) (p : Program) : Program := { p with limitUs := if fld w 63 32 = 0 then 1000 else fld w 63 32 }

/-- A LOOP that the rules allow has a body of one command or more within the program. -/
theorem loopRule_body {p : Program} {w : CmdWord} (hrule : loopRule p w = true) : 1 ≤ fld w 47 32 ∧ p.pc + 1 + fld w 47 32 ≤ p.commands := by
  simp only [loopRule, Bool.and_eq_true, decide_eq_true_eq] at hrule
  obtain ⟨⟨⟨⟨hbody, _⟩, _⟩, hstop⟩, _⟩ := hrule
  exact ⟨hbody.1, hstop⟩

section
variable {s : State} {camp : Nat} {w : CmdWord} {r : PitchRecord} {rel : Nat} {p : Program} (hat : AtCommand s camp w r rel p)

include hat

/-! ### Commands that only go on -/

theorem exec_cNop_goesOn (hnext : HasNext p) (hword : FieldsClear w 0x00 []) : exec (.cNop camp w) s = .next (gone s camp p) :=
  runCommand_done hat hnext (decide_eq_true hword.1) (campCommand_clear hword.2 rfl _) rfl

theorem exec_cFence_goesOn (hnext : HasNext p) (hword : FieldsClear w 0x05 []) (hbusy : campBusy (campOf s camp) = false)
    (hland : landing s r rel = false) : exec (.cFence camp w) s = .next (gone s camp p) := by
  have hdone : doFence (ctxAt camp r rel p w) s = .done s := by
    rw [doFence, campCommand_clear hword.2 rfl, fenceWaits_false hbusy hland]
    rfl
  exact runCommand_done hat hnext (decide_eq_true hword.1) hdone rfl

theorem exec_vNop_goesOn (hnext : HasNext p) (hword : VectorWord w 0x00 0) : exec (.vNop camp w) s = .next (gone s camp p) :=
  runCommand_done hat hnext (vop_mine hword) (vopCommand_clear hword _) rfl

/-! ### WDOG and TILECFG -/

theorem exec_cWdog_sets (hnext : HasNext p) (hword : FieldsClear w 0x03 [(63, 32)]) (hlimit : fld w 63 32 ≤ 1000000) :
    exec (.cWdog camp w) s = .next (putCamp s camp { campOf s camp with
      prog := some { nextProg p with limitUs := if fld w 63 32 = 0 then 1000 else fld w 63 32 }, blocked := none }) := by
  have ⟨_, _, hprog, _⟩ := hat
  have hdone : doWdog (ctxAt camp r rel p w) s = .done (onProg s camp (limited w)) := campCommand_clear hword.2 (decide_eq_true hlimit) _
  have hset : (campOf (onProg s camp (limited w)) camp).prog = some (limited w p) := by simp [onProg, hprog]
  show runCommand s camp w _ _ = _
  rw [runCommand_at hat (decide_eq_true hword.1), hdone]
  refine congrArg Host.Outcome.next ((advance_of_hasNext hset hnext).trans ?_)
  rw [onProg, campOf_putCamp, putCamp_putCamp]
  rfl

theorem exec_cTilecfg_binds (hnext : HasNext p) (hword : FieldsClear w 0x0B [(127, 32)]) :
    exec (.cTilecfg camp w) s = .next (putCamp s camp { campOf s camp with
      prog := some (nextProg p), blocked := none
      cfg := some ⟨cmdTask w, fld w 55 32, fld w 71 56 + strideSum (·.spStride) p.loops, fld w 87 72, orMax (fld w 111 88), fld w 127 112⟩ }) := by
  have hbound := runCommand_done hat hnext (decide_eq_true hword.1) (f := doTilecfg) (campCommand_clear hword.2 rfl _) (by rw [campOf_putCamp])
  rw [campOf_putCamp, putCamp_putCamp] at hbound
  exact hbound

/-! ### LOOP -/

theorem exec_cLoop_enters (hword : FieldsClear w 0x04 [(52, 32), (87, 64), (127, 96)]) (hrule : loopRule p w = true) (hcount : 0 < loopCount p w) :
    exec (.cLoop camp w) s = .next (putCamp s camp { campOf s camp with
      prog := some { p with
        loops := ⟨p.pc + 1, p.pc + 1 + fld w 47 32, loopCount p w, 0, fld w 111 96, fld w 127 112⟩ :: p.loops, pc := p.pc + 1 }
      blocked := none }) := by
  have ⟨_, _, hprog, _⟩ := hat
  obtain ⟨hbody, hstop⟩ := loopRule_body hrule
  have hclose (l : LoopFrame) (hl : l.stop = p.pc + 1 + fld w 47 32) : closeLoops (l :: p.loops) (p.pc + 1) = (l :: p.loops, p.pc + 1) := by
    rw [closeLoops, if_neg (by omega)]
  refine runCommand_settled hat (decide_eq_true hword.1) (f := doLoop) ?_
  rw [doLoop, campCommand_clear hword.2 hrule, if_neg (by simpa using hcount.ne'), moveTo_within hprog (hclose _ rfl) (by omega)]

theorem exec_cLoop_passes (hword : FieldsClear w 0x04 [(52, 32), (87, 64), (127, 96)]) (hrule : loopRule p w = true) (hcount : loopCount p w = 0) :
    exec (.cLoop camp w) s = .next (moveTo s camp p.loops (p.pc + 1 + fld w 47 32)) := by
  refine runCommand_settled hat (decide_eq_true hword.1) (f := doLoop) ?_
  rw [doLoop, campCommand_clear hword.2 hrule, if_pos hcount]

/-! ### END -/

section
variable (hword : FieldsClear w 0x01 [(48, 32)]) (hbusy : campBusy (campOf s camp) = false) (hland : landing s r rel = false)

include hword hbusy hland

theorem exec_cEnd_ends (hflag : flag w 48 = false) : exec (.cEnd camp w) s = .next (endProgram s camp) := by
  refine runCommand_settled hat (decide_eq_true hword.1) (f := doEnd) ?_
  rw [doEnd, campCommand_clear hword.2 rfl, fenceWaits_false hbusy hland]
  simp [hflag]

theorem exec_cEnd_signals (hflag : flag w 48 = true) (hobject : fld w 47 32 < r.syncCount) {u : State}
    (hsignal : signalSync (endProgram s camp) r.pitch (fld w 47 32) 1 = some u) : exec (.cEnd camp w) s = .next u := by
  refine runCommand_settled hat (decide_eq_true hword.1) (f := doEnd) ?_
  rw [doEnd, campCommand_clear hword.2 rfl, fenceWaits_false hbusy hland, if_neg (fun h => absurd h.2 (by simpa using hobject))]
  simp [hflag, hsignal]

end

end

/-! ### O11 -/

/-- Settles O11: each command is well formed, so it comes to the effect of its row, and the program goes on from there. -/
theorem sequencerCommandsMoveTheProgram : Obligations.SequencerCommandsMoveTheProgram := by
  unfold Obligations.SequencerCommandsMoveTheProgram
  refine ⟨fun s camp w r rel p hat hnext => ?_, fun s camp w r rel p hat => ?_, fun s camp w r rel p hat hword hbusy hland => ?_⟩
  · exact ⟨exec_cNop_goesOn hat hnext, exec_cFence_goesOn hat hnext, exec_vNop_goesOn hat hnext⟩
  · exact ⟨fun hword hlimit hnext => exec_cWdog_sets hat hnext hword hlimit, exec_cLoop_enters hat, exec_cLoop_passes hat,
      fun hword hnext => exec_cTilecfg_binds hat hnext hword⟩
  · exact ⟨exec_cEnd_ends hat hword hbusy hland, fun hflag hobject u => exec_cEnd_signals hat hword hbusy hland hflag hobject⟩

end Sys2Proof.Machine
end

section
/-! SUPPORT. What a record changes (R450 to R452, R461), what a fence leaves (R457), and what the residue checks of the FMA units come to (R142). -/

namespace Sys2Proof.Machine

/-! ### Records -/

/-- From `s` to `t` nothing changes but what a record may write: the log, the ring in the NOR, and the interrupt that it raises. -/
abbrev RecordsOnly (s t : State) : Prop := t = { s with ev := t.ev, host := t.host, out := t.out, nvm := t.nvm }

theorem RecordsOnly.trans {s t u : State} (h₁ : RecordsOnly s t) (h₂ : RecordsOnly t u) : RecordsOnly s u :=
  Eq.trans h₂ (congrArg (fun x : State => { x with ev := u.ev, host := u.host, out := u.out, nvm := u.nvm }) h₁)

theorem appendCritical_recordsOnly (s : State) (e : EventRec) : RecordsOnly s (appendCritical s e) := by
  unfold appendCritical
  dsimp only
  split
  · rfl
  · split
    · rfl
    · rfl

theorem raiseInterrupt_recordsOnly (s : State) (fn vector : Nat) : RecordsOnly s (raiseInterrupt s fn vector) := by
  unfold raiseInterrupt
  dsimp only
  split
  · split
    · rfl
    · rfl
  · rfl

theorem writeEvent_recordsOnly (s : State) (source cls code pitch : Nat) (detail : List Byte) :
    RecordsOnly s (writeEvent s source cls code pitch detail) := by
  have hcritical (t : State) (e : EventRec) (q : Bool) (h : RecordsOnly s t) : RecordsOnly s (if q then appendCritical t e else t) := by
    split
    · exact h.trans (appendCritical_recordsOnly t e)
    · exact h
  have hinterrupt (t : State) (q : Bool) (vector : Nat) (h : RecordsOnly s t) : RecordsOnly s (if q then raiseInterrupt t 0 vector else t) := by
    split
    · exact h.trans (raiseInterrupt_recordsOnly t 0 vector)
    · exact h
  exact hinterrupt _ _ _ (hcritical _ _ _ rfl)

/-! ### Fences (R457) -/

theorem campOf_refillSlots (r : PitchRecord) (rel : Nat) (xs : NMap Slot) (s : State) (c : Nat) :
    campOf (refillSlots r rel xs s) c = { campOf s c with ahead := (campOf (refillSlots r rel xs s) c).ahead } := by
  induction xs generalizing s with
  | nil => rfl
  | cons y xs ih =>
    rw [refillSlots, ih]
    split
    · rw [campOf_pokeBytes]
    · rfl

/-- The camp of a core that is retired leaves service. -/
theorem fenceOne_fenced (s : State) (camp core : Nat) : (campOf (fenceOne s camp core) camp).fenced = true := by
  have hput (t : State) (c : Nat) (words : NMap CmdWord) (h : (campOf t camp).fenced = true) :
      (campOf (putCamp t c { campOf t c with cmdMem := words }) camp).fenced = true := by
    by_cases hc : camp = c
    · subst hc
      simpa using h
    · rwa [campOf_putCamp_ne _ _ hc]
  have hfirst : (campOf (putCamp s camp { campOf s camp with fenced := true }) camp).fenced = true := by simp
  unfold fenceOne
  dsimp only
  split
  · exact hfirst
  · generalize putCamp s camp { campOf s camp with fenced := true } = s1 at hfirst ⊢
    split
    · rw [campOf, (writeEvent_keeps _ _ _ _ _ _).2.2.2.2.2.2.2.2.2.2.1, ← campOf, campOf_refillSlots]
      exact hput _ _ _ (by simpa [campOf] using hfirst)
    · split
      · simpa [campOf] using hfirst
      · simpa [campOf] using hfirst

theorem fenceCamp_fenced (s : State) (camp core : Nat) : (campOf (fenceCamp s camp core) camp).fenced = true := by
  unfold fenceCamp
  split
  · simp
  · exact fenceOne_fenced _ camp core

/-! ### Discards of the FMA units (R142) -/

/-- The commands that the residue checks discard, oldest first. -/
abbrev discardsOf (mis : List (List Mismatch)) : List (List Mismatch) := mis.filter fun ms => decide (ms ≠ [])

theorem discardsOf_cons_nil (mis : List (List Mismatch)) : discardsOf ([] :: mis) = discardsOf mis := rfl

theorem discardsOf_cons {ms : List Mismatch} (h : ms ≠ []) (mis : List (List Mismatch)) : discardsOf (ms :: mis) = ms :: discardsOf mis :=
  List.filter_cons_of_pos (decide_eq_true h)

/-- The FMA units of cores that mismatched in a discarded command. -/
abbrev unitsOfDiscard (ms : List Mismatch) : List (Nat × Nat) := ms.map fun m => (m.core, m.unit)

/-- Fewer than four discards in which no unit mismatches again write a record each, and the command goes on. -/
theorem fmaDiscards_goesOn (c : Ctx) (mis : List (List Mismatch)) (n : Nat) (seen : List (Nat × Nat)) (s : State)
    (hfew : n + (discardsOf mis).length < 4)
    (hunits : (discardsOf mis).Pairwise fun a b => ∀ m ∈ a, ∀ m' ∈ b, (m.core, m.unit) ≠ (m'.core, m'.unit))
    (hfresh : ∀ ms ∈ discardsOf mis, ∀ m ∈ ms, (m.core, m.unit) ∉ seen) :
    ∃ u, fmaDiscards c n seen mis s = (u, false) ∧ RecordsOnly s u ∧ (discardsOf mis = [] → u = s)
      ∧ (discardsOf mis ≠ [] → u.ev.written = (s.ev.written + (discardsOf mis).length) % 2 ^ 32) := by
  induction mis generalizing n seen s with
  | nil => exact ⟨s, rfl, rfl, fun _ => rfl, fun h => absurd rfl h⟩
  | cons ms mis ih =>
    by_cases hms : ms = []
    · subst hms
      exact ih n seen s hfew hunits hfresh
    · rw [discardsOf_cons hms] at hfew hunits hfresh ⊢
      rw [List.length_cons] at hfew
      obtain ⟨hfirst, hrest⟩ := List.pairwise_cons.1 hunits
      have hagain : (ms.filter fun m => decide ((m.core, m.unit) ∈ seen)) = [] := by
        simpa [List.filter_eq_nil_iff] using hfresh ms List.mem_cons_self
      have hfresh' : ∀ ms' ∈ discardsOf mis, ∀ m ∈ ms', (m.core, m.unit) ∉ seen ++ unitsOfDiscard ms := by
        intro ms' hms' m hm hmem
        rcases List.mem_append.1 hmem with hseen | hnew
        · exact hfresh ms' (List.mem_cons_of_mem _ hms') m hm hseen
        · obtain ⟨m', hm', heq⟩ := List.mem_map.1 hnew
          exact hfirst ms' hms' m' hm' m hm heq
      rw [fmaDiscards, if_neg hms]
      dsimp only
      rw [if_neg fun h => h.elim (fun hne => hne hagain) (by omega)]
      have hwritten := (writeEvent_log s (srcCamp c.camp) 0x01 0x0004 c.pr.pitch (residueDetail c.camp (fmaReport ms).core
        { fmaReport ms with unit := 0x80 + (fmaReport ms).unit, mode := vopOp c.w }
        (spareLanesLeft (coreOf (campOf s c.camp) (fmaReport ms).core)))).2.1
      obtain ⟨u, hu, honly, hnone, hsome⟩ := ih (n + 1) (seen ++ unitsOfDiscard ms) _ (by omega) hrest hfresh'
      refine ⟨u, hu, (writeEvent_recordsOnly s _ _ _ _ _).trans honly, fun h => absurd h (by simp), fun _ => ?_⟩
      by_cases hlast : discardsOf mis = []
      · rw [hnone hlast, hlast]
        exact hwritten
      · rw [hsome hlast, residueEvent, hwritten, List.length_cons]
        omega

/-- A fourth discard, or a unit that mismatches again before it, retires a core, whose camp is fenced. -/
theorem fmaDiscards_fences (c : Ctx) (mis : List (List Mismatch)) (n : Nat) (seen : List (Nat × Nat)) (s : State) (hn : n < 4)
    (hmany : 4 ≤ n + (discardsOf mis).length) : ∃ u, fmaDiscards c n seen mis s = (u, true) ∧ (campOf u c.camp).fenced = true := by
  induction mis generalizing n seen s with
  | nil => exact absurd hmany (by simpa using hn)
  | cons ms mis ih =>
    by_cases hms : ms = []
    · subst hms
      exact ih n seen s hn hmany
    · rw [discardsOf_cons hms, List.length_cons] at hmany
      rw [fmaDiscards, if_neg hms]
      dsimp only
      split
      · exact ⟨_, rfl, fenceCamp_fenced _ _ _⟩
      · next hgoes => exact ih (n + 1) _ _ (by omega) (by omega)

end Sys2Proof.Machine
end

section
/-! PROOF. O17: elementwise operations (R124, R126, R136 to R139) and the discards of commands that use the FMA units (R142). -/

namespace Sys2Proof.Machine

/-! ### Elementwise operations -/

/-- A row of the elementwise operations applies its function. -/
theorem exec_elementRow (s : State) (camp : Nat) (w : CmdWord) :
    ∀ x ∈ elementRows, exec (x.row camp w) s = runVop s camp w x.op (doElem x.f) := by
  simp only [elementRows, List.forall_mem_cons]
  exact ⟨rfl, rfl, rfl, rfl, rfl, rfl, rfl, rfl, rfl, rfl, rfl, rfl, rfl, rfl, rfl, rfl, rfl, rfl, List.forall_mem_nil _⟩

/-! ### Commands that use the FMA units -/

section
variable {s : State} {camp : Nat} {w : CmdWord} {r : PitchRecord} {rel : Nat} {p : Program}

/-- Operations that read a tile go on where every core has its tile accepted, with the slab inside it. -/
theorem withTiles_ready (hready : TilesReady s camp w) (k : CmdRes) : withTiles (ctxAt camp r rel p w) s (cmdCores w) k = k := by
  have htile (c : Nat) (hc : c ∈ cmdCores w) :
      ∃ t, tileAt (coreOf (campOf s camp) c) (vopBase w) (vopWide w) = some t ∧ t.state = .accepted ∧ 16 * vopSlab w < t.height := by
    simpa [Option.any_eq_true_iff_get, Option.eq_some_iff_get_eq] using hready c hc
  have hheight : ((cmdCores w).map fun c => (c, tileAt (coreOf (campOf s camp) c) (vopBase w) (vopWide w))).find?
      (fun t => decide (((t.2.map (·.height)).getD 0) ≤ 16 * vopSlab w)) = none := by
    rw [List.find?_eq_none]
    intro x hx
    obtain ⟨c, hc, rfl⟩ := List.mem_map.1 hx
    obtain ⟨t, ht, _, hslab⟩ := htile c hc
    simpa [ht] using hslab
  have hstate : ((cmdCores w).map fun c => (c, tileAt (coreOf (campOf s camp) c) (vopBase w) (vopWide w))).any
      (fun t => decide (t.2.map (·.state) ≠ some .accepted)) = false := by
    rw [List.any_eq_false]
    intro x hx
    obtain ⟨c, hc, rfl⟩ := List.mem_map.1 hx
    obtain ⟨t, ht, haccepted, _⟩ := htile c hc
    simp [ht, haccepted]
  unfold withTiles
  dsimp only
  rw [hheight]
  dsimp only
  rw [if_neg (by rw [hstate]; exact Bool.false_ne_true)]

/-- The row runs as operation `op`, which is discarded and then has the effect `k`, in every state with the camp of `s`. -/
def FmaRuns (s : State) (camp : Nat) (w : CmdWord) (r : PitchRecord) (rel : Nat) (p : Program)
    (row : Nat → CmdWord → List (List Mismatch) → Instr) (op : Nat) : Prop :=
  ∃ (f : List (List Mismatch) → Ctx → State → CmdRes) (k : State → State), ∀ mis u, exec (row camp w mis) u = runVop u camp w op (f mis)
    ∧ (campOf u camp = campOf s camp → f mis (ctxAt camp r rel p w) u = withFma mis (ctxAt camp r rel p w) u fun v => .done (k v))

/-- An elementwise operation of the FMA units runs so. -/
theorem fmaRuns_elem {row : Nat → CmdWord → List (List Mismatch) → Instr} {op : Nat} {f : Word → Word → Word → Word}
    (hword : VectorWord w op 0) (hrow : ∀ mis u, exec (row camp w mis) u = runVop u camp w op (doFmaElem f mis)) : FmaRuns s camp w r rel p row op :=
  ⟨doFmaElem f, _, fun mis u => ⟨hrow mis u, fun _ => vopCommand_clear hword _⟩⟩

/-- So does a read of the accumulators. -/
theorem fmaRuns_acc {row : Nat → CmdWord → List (List Mismatch) → Instr} {op : Nat} {b : Bool} {f : Int → Int → Word → Word → Word}
    (hword : VectorWord w op 0x07) (hready : TilesReady s camp w)
    (hrow : ∀ mis u, exec (row camp w mis) u = runVop u camp w op (doAcc b f mis)) : FmaRuns s camp w r rel p row op :=
  ⟨doAcc b f, _, fun mis u => ⟨hrow mis u, fun hcamp => (vopCommand_clear hword _).trans (withTiles_ready (by rwa [TilesReady, hcamp]) _)⟩⟩

end

/-- The operations that the residue checks of the FMA units cover, with their opcodes and imm bits. -/
abbrev fmaRows : List ((Nat → CmdWord → List (List Mismatch) → Instr) × Nat × Nat) :=
  [(.vAdd, 0x01, 0), (.vMul, 0x02, 0), (.vFma, 0x03, 0), (.vSumg, 0x10, 1), (.vLdacc, 0x12, 0x07), (.vLdacca, 0x13, 0x07), (.vLdaccm, 0x14, 0x07),
    (.vExp2, 0x18, 0), (.vRcp, 0x19, 0), (.vRsq, 0x1A, 0), (.vRotcs, 0x1B, 0), (.vReqacc, 0x15, 0xF7)]

section
variable {s : State} {camp : Nat} {w : CmdWord} {r : PitchRecord} {rel : Nat} {p : Program}

theorem fmaRows_run : ∀ y ∈ fmaRows, VectorWord w y.2.1 y.2.2 → (y.2.1 ∈ [0x12, 0x13, 0x14, 0x15] → TilesReady s camp w) →
    (y.2.1 = 0x1B → vopD w % 2 = 0) → FmaRuns s camp w r rel p y.1 y.2.1 := by
  simp only [fmaRows, List.forall_mem_cons]
  refine ⟨?add, ?mul, ?fma, ?sumg, ?ldacc, ?ldacca, ?ldaccm, ?exp2, ?rcp, ?rsq, ?rotcs, ?reqacc, List.forall_mem_nil _⟩
  case add => exact fun hword _ _ => fmaRuns_elem hword fun _ _ => rfl
  case mul => exact fun hword _ _ => fmaRuns_elem hword fun _ _ => rfl
  case fma => exact fun hword _ _ => fmaRuns_elem hword fun _ _ => rfl
  case exp2 => exact fun hword _ _ => fmaRuns_elem hword fun _ _ => rfl
  case rcp => exact fun hword _ _ => fmaRuns_elem hword fun _ _ => rfl
  case rsq => exact fun hword _ _ => fmaRuns_elem hword fun _ _ => rfl
  case ldacc => exact fun hword hready _ => fmaRuns_acc hword (hready (by simp)) fun _ _ => rfl
  case ldacca => exact fun hword hready _ => fmaRuns_acc hword (hready (by simp)) fun _ _ => rfl
  case ldaccm => exact fun hword hready _ => fmaRuns_acc hword (hready (by simp)) fun _ _ => rfl
  case sumg => exact fun hword _ _ => ⟨_, _, fun mis u => ⟨rfl, fun _ => vopCommand_clear hword _⟩⟩
  case rotcs =>
    refine fun hword _ heven => ⟨_, _, fun mis u => ⟨rfl, fun _ => (vopCommand_clear hword _).trans (if_neg ?_)⟩⟩
    rw [heven trivial]
    exact Nat.zero_ne_one
  case reqacc =>
    refine fun hword hready _ => ⟨_, _, fun mis u => ⟨rfl, fun hcamp => (vopCommand_clear hword _).trans (withTiles_ready ?_ _)⟩⟩
    rw [TilesReady, hcamp]
    exact hready (by simp)

variable (hat : AtCommand s camp w r rel p) {row : Nat → CmdWord → List (List Mismatch) → Instr} {op mask : Nat} (hword : VectorWord w op mask)
  (hruns : FmaRuns s camp w r rel p row op) {mis : List (List Mismatch)}

include hat hword hruns

/-- After records alone the command runs as if nothing had been discarded. -/
theorem FmaRuns.exec_goesOn {u : State} (hdiscards : fmaDiscards (ctxAt camp r rel p w) 0 [] mis s = (u, false)) (honly : RecordsOnly s u) :
    exec (row camp w mis) s = exec (row camp w []) u := by
  obtain ⟨f, k, hf⟩ := hruns
  have hcamp : campOf u camp = campOf s camp := by rw [honly]; rfl
  have hat' : AtCommand u camp w r rel p := by rw [honly]; exact hat
  rw [(hf mis s).1, (hf [] u).1, runVop, runVop, runCommand_at hat (vop_mine hword), runCommand_at hat' (vop_mine hword), (hf mis s).2 rfl,
    (hf [] u).2 hcamp, withFma, hdiscards]
  rfl

/-- A command whose discards retire a core ends with them. -/
theorem FmaRuns.exec_ends {u : State} (hdiscards : fmaDiscards (ctxAt camp r rel p w) 0 [] mis s = (u, true)) :
    exec (row camp w mis) s = .next u := by
  obtain ⟨f, k, hf⟩ := hruns
  rw [(hf mis s).1]
  refine runCommand_settled hat (vop_mine hword) ?_
  rw [(hf mis s).2 rfl, withFma, hdiscards]

end

/-! ### O17 -/

/-- Settles O17: an elementwise row by `exec_elementRow`, the discards by `fmaDiscards_goesOn` and `fmaDiscards_fences`. -/
theorem elementwiseOperationsWriteTheirRegister : Obligations.ElementwiseOperationsWriteTheirRegister := by
  unfold Obligations.ElementwiseOperationsWriteTheirRegister
  refine ⟨?_, ?_⟩
  · intro x hx s camp w r rel p hat hnext hword
    rw [exec_elementRow s camp w x hx]
    exact runCommand_onCores hat hnext (vop_mine hword) (vopCommand_clear hword _) rfl
  · intro s camp w r rel p mis hat discards y hy hword hready heven
    have hruns : FmaRuns s camp w r rel p y.1 y.2.1 := fmaRows_run y hy hword hready heven
    refine ⟨fun hfew hunits => ?_, fun hmany => ?_⟩
    · obtain ⟨u, hu, honly, -, hwritten⟩ := fmaDiscards_goesOn (ctxAt camp r rel p w) mis 0 [] s (by rwa [Nat.zero_add]) hunits
        fun _ _ _ _ => List.not_mem_nil
      exact ⟨u, hruns.exec_goesOn hat hword hu honly, hwritten, honly⟩
    · obtain ⟨u, hu, hfenced⟩ := fmaDiscards_fences (ctxAt camp r rel p w) mis 0 [] s (by decide) (by rwa [Nat.zero_add])
      exact ⟨u, hruns.exec_ends hat hword hu, hfenced⟩

end Sys2Proof.Machine
end

section
/-! PROOF. O19: REQOUT (R135, R154, R176). -/

namespace Sys2Proof.Machine

/-! ### What REQOUT comes to -/

/-- REQOUT has a usable format and thresholds, the table that it needs, and windows that hold its rows (R135, R154, R176). -/
structure ReqoutReady (s : State) (camp : Nat) (w : CmdWord) (r : PitchRecord) (rel : Nat) (p : Program) (tbl : Option LengthTable) : Prop where
  word : VectorWord w 0x17 0x07
  format : bitsOf (vopImm w) 1 0 ≠ 3
  thresholds : bitOf (vopImm w) 2 = true → 8 ≤ vopA w ∧ ∀ c ∈ cmdCores w, badThreshold (sOf (coreOf (campOf s camp) c) (vopA w - 8)) = false
  table : TableFor s r rel p (cmdCores w) camp tbl
  windows : ∀ c ∈ cmdCores w, windowFault (coreOf (campOf s camp) c) c (cmdTask w) (outOffset (ctxAt camp r rel p w))
    (outUnits (ctxAt camp r rel p w) (outRows s (ctxAt camp r rel p w) tbl (coreOf (campOf s camp) c))) true = none

section
variable {s : State} {camp : Nat} {w : CmdWord} {r : PitchRecord} {rel : Nat} {p : Program} {tbl : Option LengthTable}
  (h : ReqoutReady s camp w r rel p tbl)

include h

/-- No core of the mask has a threshold that R135 refuses. -/
theorem ReqoutReady.thresholds_good : (cmdCores w).find? (fun c =>
    bitOf (vopImm w) 2 && (decide (vopA w < 8) || badThreshold (sOf (coreOf (campOf s camp) c) (vopA w - 8)))) = none := by
  rw [List.find?_eq_none]
  intro c hc
  cases himm : bitOf (vopImm w) 2 with
  | false => simp
  | true =>
    obtain ⟨hsource, hgood⟩ := h.thresholds himm
    simp [hgood c hc, hsource]

theorem ReqoutReady.finishOut_done : finishOut [] (ctxAt camp r rel p w) s (cmdCores w) tbl
    = .done (iterate (outCores (ctxAt camp r rel p w) tbl (cmdCores w)) (vopRepeat w) s) := by
  have hwindows : firstFault (cmdCores w) (fun _ c => windowFault (coreOf (campOf s camp) c) c (cmdTask w) (outOffset (ctxAt camp r rel p w))
      (outUnits (ctxAt camp r rel p w) (outRows s (ctxAt camp r rel p w) tbl (coreOf (campOf s camp) c))) true) = none := by
    rw [firstFault, List.findSome?_eq_none_iff]
    exact fun y hy => h.windows y.1 (List.fst_mem_of_mem_zipIdx hy)
  exact unlessFault_none hwindows _

/-- It runs under the table that its rows need, or under none. -/
theorem ReqoutReady.doReqout_done : doReqout [] (ctxAt camp r rel p w) s
    = .done (iterate (outCores (ctxAt camp r rel p w) tbl (cmdCores w)) (vopRepeat w) s) := by
  have htable := h.table
  unfold TableFor at htable
  rw [doReqout, vopCommand_clear h.word]
  dsimp only
  rw [if_neg h.format, h.thresholds_good]
  dsimp only
  cases hslot : slotOf s r p.tableSlot with
  | none =>
    rw [hslot] at htable
    obtain ⟨huntagged, rfl⟩ := htable
    rw [if_pos huntagged, h.finishOut_done]
  | some x =>
    rw [hslot] at htable
    dsimp only at htable
    split at htable
    · next huntagged =>
      subst htable
      rw [if_pos huntagged, h.finishOut_done]
    · next htagged =>
      obtain ⟨hread, hpaused, hrows, rfl⟩ := htable
      have hfit : ¬((parseTable (peekBytes s (slotDa s r x) x.size)).rows.any fun e => decide (2 ^ 32 < e.context + e.newTokens)) = true := by
        simpa [List.any_eq_true] using hrows
      rw [if_neg htagged, withTable, withSlot]
      simp only [hslot]
      rw [reading, if_pos ⟨hread, hpaused⟩, if_neg hfit, h.finishOut_done]

end

/-! ### Rows without a table -/

/-- The format of a row that no table places. -/
theorem outFormat_none (s : State) (c : Ctx) (tag : Option (Nat × Nat)) : outFormat s c none tag
    = if formsOf s c = [] then bitsOf (vopImm c.w) 1 0 else if c.pr.profile.quality.reference then 2 else bitsOf (vopImm c.w) 1 0 := by
  unfold outFormat
  cases tag with
  | none => rfl
  | some x => rfl

theorem outRows_none_congr {s t : State} (h : t.pitches = s.pitches) (c : Ctx) (k : Core) : outRows t c none k = outRows s c none k := by
  have hforms : formsOf t c = formsOf s c := by rw [formsOf, pitchOf, h, formsOf, pitchOf]
  simp only [outRows, outFormat_none, hforms]

theorem nonfiniteEvents_recordsOnly (camp p handle layer level fmt pos : Nat) (bs : List (Block × Nat)) (xs : List ReqVal) (s : State) :
    RecordsOnly s (nonfiniteEvents camp p handle layer level fmt pos bs xs s) := by
  induction bs generalizing s with
  | nil => rfl
  | cons b bs ih =>
    refine RecordsOnly.trans ?_ (ih _)
    split
    · exact writeEvent_recordsOnly _ _ _ _ _ _
    · rfl

/-- Rows that no table places are charged to no sequence. -/
theorem chargeRows_none_recordsOnly (c : Ctx) (rows : List (FormedRow × List ReqVal × Option (Nat × Nat))) (s : State) :
    RecordsOnly s (chargeRows c none rows s) := by
  induction rows generalizing s with
  | nil => rfl
  | cons x rows ih =>
    obtain ⟨f, xs, tag⟩ := x
    refine RecordsOnly.trans ?_ (ih _)
    cases tag with
    | none => exact nonfiniteEvents_recordsOnly _ _ _ _ _ _ _ _ _ _
    | some y => exact nonfiniteEvents_recordsOnly _ _ _ _ _ _ _ _ _ _

/-- A core that has written the rows of its buffer and cleared it. -/
def rowsWritten (s : State) (c : Ctx) (k : Core) : Core :=
  { k with
    sp := writeRows (outSidecar c) (windowByte k (cmdTask c.w) (outOffset c)) ((outRows s c none k).map (·.1)) k.sp
    req := ⟨[], []⟩ }

theorem outCore_none (c : Ctx) (core : Nat) (s : State) :
    RecordsOnly (putCamp s c.camp (putCore (campOf s c.camp) core (rowsWritten s c (coreOf (campOf s c.camp) core)))) (outCore c none core s) :=
  chargeRows_none_recordsOnly c _ _

/-- From `s` to `t` a run without a table has written the rows of the listed cores of its camp, and records. -/
structure RowsOut (s t : State) (c : Ctx) (cores : List Nat) : Prop where
  mem : t.mem = s.mem
  pitches : t.pitches = s.pitches
  prog : (campOf t c.camp).prog = (campOf s c.camp).prog
  written : ∀ k ∈ cores, coreOf (campOf t c.camp) k = rowsWritten s c (coreOf (campOf s c.camp) k)
  others : ∀ k, k ∉ cores → coreOf (campOf t c.camp) k = coreOf (campOf s c.camp) k

theorem outCore_rowsOut (c : Ctx) (core : Nat) (s : State) : RowsOut s (outCore c none core s) c [core] := by
  have hcamp : campOf (outCore c none core s) c.camp = putCore (campOf s c.camp) core (rowsWritten s c (coreOf (campOf s c.camp) core)) := by
    rw [outCore_none]
    exact campOf_putCamp _ _ _
  refine ⟨by rw [outCore_none]; rfl, by rw [outCore_none]; rfl, by rw [hcamp]; rfl, fun k hk => ?_, fun k hk => ?_⟩
  · obtain rfl := List.mem_singleton.1 hk
    rw [hcamp, coreOf_putCore]
  · rw [hcamp, coreOf_putCore_ne _ _ fun heq => hk (List.mem_singleton.2 heq)]

theorem outCores_rowsOut (c : Ctx) {cores : List Nat} (hnodup : cores.Nodup) (s : State) : RowsOut s (outCores c none cores s) c cores := by
  induction cores generalizing s with
  | nil => exact ⟨rfl, rfl, rfl, fun k hk => absurd hk List.not_mem_nil, fun _ _ => rfl⟩
  | cons core cores ih =>
    obtain ⟨hnotin, hrest⟩ := List.nodup_cons.1 hnodup
    have hfirst := outCore_rowsOut c core s
    have hthen := ih hrest (outCore c none core s)
    refine ⟨hthen.mem.trans hfirst.mem, hthen.pitches.trans hfirst.pitches, hthen.prog.trans hfirst.prog, fun k hk => ?_, fun k hk => ?_⟩
    · rcases List.mem_cons.1 hk with rfl | hk
      · exact (hthen.others k hnotin).trans (hfirst.written k (List.mem_singleton.2 rfl))
      · have hne : k ∉ [core] := fun h => hnotin (List.mem_singleton.1 h ▸ hk)
        refine (hthen.written k hk).trans ?_
        rw [hfirst.others k hne, rowsWritten, rowsWritten, outRows_none_congr hfirst.pitches]
    · obtain ⟨hne, hk⟩ := not_or.1 fun h => hk (List.mem_cons.2 h)
      exact (hthen.others k hk).trans (hfirst.others k fun h => hne (List.mem_singleton.1 h))

/-! ### O19 -/

/-- Settles O19: `ReqoutReady.doReqout_done` runs it, and without a table `outCores_rowsOut` says what one run writes. -/
theorem reqoutFormsAndWritesRows : Obligations.ReqoutFormsAndWritesRows := by
  unfold Obligations.ReqoutFormsAndWritesRows
  intro s camp w r rel p tbl hat hnext hword hformat hthresholds htable o hwindows
  have hready : ReqoutReady s camp w r rel p tbl := ⟨hword, hformat, hthresholds, htable, hwindows⟩
  refine ⟨?_, ?_⟩
  · show runCommand s camp w _ _ = _
    rw [runCommand_at hat (vop_mine hword), hready.doReqout_done]
    rfl
  · rintro rfl honce
    have hout := outCores_rowsOut (ctxAt camp r rel p w) (cmdCores_nodup w) s
    have hdone := hready.doReqout_done
    rw [honce] at hdone
    refine ⟨_, runCommand_done hat hnext (vop_mine hword) hdone hout.prog, hout.mem, fun c hc => ?_, fun c hc => ?_⟩
    · rw [campOf_putCamp]
      exact hout.written c hc
    · rw [campOf_putCamp]
      exact hout.others c hc

end Sys2Proof.Machine
end

section
/-! SUPPORT. What abandoning a step leaves (R160, R166, R167, R210), and what holding the sequences of its micro-batch does (R167, R336). -/

namespace Sys2Proof.Machine

/-! ### Pages that are given back -/

/-- From `s` to `t` nothing of the pitch changes but its pages and the space in its quotas. -/
abbrev PagesOnly (p : Nat) (s t : State) : Prop :=
  pitchOf t p = { pitchOf s p with
    pages := (pitchOf t p).pages, allocated := (pitchOf t p).allocated, carried := (pitchOf t p).carried }

theorem pagesOnly_trans {p : Nat} {s t u : State} (h₁ : PagesOnly p s t) (h₂ : PagesOnly p t u) : PagesOnly p s u :=
  Eq.trans h₂ (congrArg (fun x : Pitch => { x with
    pages := (pitchOf u p).pages, allocated := (pitchOf u p).allocated, carried := (pitchOf u p).carried }) h₁)

/-- A change of any pitch that leaves all else of it. -/
theorem onPitch_pagesOnly (s : State) (q : Nat) {f : Pitch → Pitch}
    (hf : ∀ x, f x = { x with pages := (f x).pages, allocated := (f x).allocated, carried := (f x).carried }) (p : Nat) :
    PagesOnly p s (onPitch s q f) := by
  by_cases hq : p = q
  · subst hq
    rw [PagesOnly, pitchOf_onPitch]
    exact hf _
  · rw [PagesOnly, pitchOf_onPitch_ne _ _ hq]

theorem freeRange_pagesOnly (s : State) (q a p : Nat) : PagesOnly p s (freeRange s q a) := by
  have hspace : PagesOnly p s (onPitch s q fun x => { x with allocated := mdel x.allocated a }) := onPitch_pagesOnly s q (fun _ => rfl) p
  unfold freeRange
  split
  · exact hspace
  · rfl

theorem freeIf_pagesOnly (s : State) (q a p : Nat) : PagesOnly p s (freeIf s q a) := by
  unfold freeIf
  split
  · rfl
  · exact freeRange_pagesOnly s q a p

theorem freePage_pagesOnly (s : State) (q n p : Nat) : PagesOnly p s (freePage s q n) := by
  have hput (t : State) (g : Page) : PagesOnly p t (putPage t q n g) := onPitch_pagesOnly t q (fun _ => rfl) p
  have hcarried (t : State) (l : Pitch → List Nat) : PagesOnly p t (onPitch t q fun x => { x with carried := l x }) :=
    onPitch_pagesOnly t q (fun _ => rfl) p
  exact pagesOnly_trans (pagesOnly_trans (pagesOnly_trans (pagesOnly_trans (freeIf_pagesOnly s q _ p) (freeIf_pagesOnly _ q _ p))
    (freeIf_pagesOnly _ q _ p)) (hput _ _)) (hcarried _ _)

theorem freePages_pagesOnly (q : Nat) (ns : List Nat) (s : State) (p : Nat) : PagesOnly p s (freePages q ns s) := by
  induction ns generalizing s with
  | nil => rfl
  | cons n ns ih => exact pagesOnly_trans (freePage_pagesOnly s q n p) (ih _)

theorem discardAll_pagesOnly (is : List Nat) (s : State) (p : Nat) : PagesOnly p s (discardAll is s) := by
  induction is generalizing s with
  | nil => rfl
  | cons i is ih => exact pagesOnly_trans (freePages_pagesOnly _ _ s p) (ih (discardAppends s i))

theorem freeLists_pagesOnly (q : Nat) (cs : List Chosen) (s : State) (p : Nat) : PagesOnly p s (freeLists q cs s) := by
  induction cs generalizing s with
  | nil => rfl
  | cons c cs ih =>
    refine pagesOnly_trans ?_ (ih _)
    split
    · rfl
    · exact freeRange_pagesOnly s q _ p

/-! ### Appends that are taken back (R210) -/

/-- From `s` to `t` every sequence keeps all but the state of its layers. -/
abbrev LayersOnly (s t : State) : Prop := ∀ i, seqOf t i = { seqOf s i with layers := (seqOf t i).layers }

theorem layersOnly_of_seqs {s t : State} (h : t.seqs = s.seqs) : LayersOnly s t := fun i => by rw [seqOf, h, ← seqOf]

theorem discardAppends_layersOnly (s : State) (i : Nat) : LayersOnly s (discardAppends s i) := by
  intro j
  have hfree : seqOf (freePages (seqOf s i).pitch (((seqOf s i).layers.map (·.pendingPages)).flatten) s) j = seqOf s j := by simp [seqOf]
  unfold discardAppends
  dsimp only
  by_cases hj : j = i
  · subst hj
    rw [seqOf_onSeq, hfree]
  · rw [seqOf_onSeq_ne _ _ hj, hfree]

theorem discardAll_layersOnly (is : List Nat) (s : State) : LayersOnly s (discardAll is s) := by
  induction is generalizing s with
  | nil => exact fun _ => rfl
  | cons i is ih =>
    intro j
    rw [discardAll, ih _ j, discardAppends_layersOnly s i j]

/-! ### The abandoned step -/

theorem campOf_stopCamps {s : State} {p c : Nat} (h : campIn s p c = true) : (campOf (stopCamps s p) c).prog = none := by
  simp only [campOf, mgetD, stopCamps, mget_mmap]
  cases mget s.camps c with
  | none => rfl
  | some x => simp [h, stopCamp]

theorem restoreSlot_empties {x : Slot} (h : (restoreSlot x).persistent = false) : (restoreSlot x).state = .empty ∧ (restoreSlot x).released = [] := by
  by_cases hx : x.persistent = true
  · rw [restoreSlot, if_pos hx] at h
    exact absurd (hx.symm.trans h) (by decide)
  · rw [restoreSlot, if_neg hx]
    exact ⟨rfl, rfl⟩

/-- Every slot of the pitch that does not persist is empty (R160). -/
abbrev SlotsEmptied (t : State) (p : Nat) : Prop :=
  ∀ n x, mget (pitchOf t p).slots n = some x → x.persistent = false → x.state = .empty ∧ x.released = []

/-- No camp of `s` in the pitch runs a program in `t`. -/
abbrev ProgramsStopped (s t : State) (p : Nat) : Prop := ∀ c, campIn s p c = true → (campOf t c).prog = none

/-- The step of the pitch has been abandoned from `s` to `t`. -/
structure Abandoned (s t : State) (p : Nat) : Prop where
  stopped : ProgramsStopped s t p
  slots : SlotsEmptied t p
  batch : (pitchOf t p).batch = (pitchOf s p).batch
  inStep : (pitchOf t p).inStep = (pitchOf s p).inStep
  reruns : (pitchOf t p).reruns = (pitchOf s p).reruns
  chosen : (pitchOf t p).chosen = []
  repairs : (pitchOf t p).repairs = (pitchOf s p).repairs ++ (repairsDue s p).filter fun d => decide (d ∉ (pitchOf s p).repairs)
  seqs : LayersOnly s t

theorem abandonStep_abandoned (s : State) (p : Nat) : Abandoned s (abandonStep s p) p := by
  have hstopped (t : State) (h : t.camps = (stopCamps s p).camps) : ProgramsStopped s t p := fun c hc => by
    rw [campOf, h]
    exact campOf_stopCamps hc
  have hpitch : PagesOnly p s (freeLists p (pitchOf (discardAll ((pitchOf (closeEpochs (stopCamps s p) p) p).batch.map (·.seq))
      (closeEpochs (stopCamps s p) p)) p).chosen (discardAll ((pitchOf (closeEpochs (stopCamps s p) p) p).batch.map (·.seq))
        (closeEpochs (stopCamps s p) p))) :=
    pagesOnly_trans (t := closeEpochs (stopCamps s p) p) rfl (pagesOnly_trans (discardAll_pagesOnly _ _ p) (freeLists_pagesOnly p _ _ p))
  unfold abandonStep
  dsimp only
  generalize hs3 : freeLists p _ _ = s3 at hpitch ⊢
  refine ⟨hstopped _ (by simp [← hs3]), fun n x hx hpersistent => ?_, ?_, ?_, ?_, ?_, ?_, ?_⟩
  · rw [pitchOf_onPitch, mget_mmap] at hx
    obtain ⟨y, -, rfl⟩ := Option.map_eq_some_iff.1 hx
    exact restoreSlot_empties hpersistent
  · rw [pitchOf_onPitch, hpitch]
  · rw [pitchOf_onPitch, hpitch]
  · rw [pitchOf_onPitch, hpitch]
  · rw [pitchOf_onPitch]
  · rw [pitchOf_onPitch, hpitch]
  · intro i
    have hdiscarded := discardAll_layersOnly ((pitchOf (closeEpochs (stopCamps s p) p) p).batch.map (·.seq)) (closeEpochs (stopCamps s p) p) i
    simpa [seqOf, ← hs3] using hdiscarded

end Sys2Proof.Machine
end

section
/-! PROOF. O26: reserved opcodes, timeouts and camp faults (R125, R149, R160, R165 to R168, R220). -/

namespace Sys2Proof.Machine

/-! ### Sequences that are held (R336) -/

/-- The state of a sequence that is held: a parked one stays parked. -/
abbrev heldState (x : SeqState) : SeqState := if x = .parked then .parked else .held

/-- Its cause after cause 1: cause 4 never clears. -/
abbrev heldCause (n : Nat) : Nat := if n = 4 then 4 else 1

/-- From `s` to `t` the sequence has been held with cause 1. -/
abbrev Held (s t : State) (i : Nat) : Prop := (seqOf t i).hold = heldCause (seqOf s i).hold ∧ (seqOf t i).state = heldState (seqOf s i).state

/-- From `s` to `t` its hold cause and state stay. -/
abbrev HoldKept (s t : State) (i : Nat) : Prop := (seqOf t i).hold = (seqOf s i).hold ∧ (seqOf t i).state = (seqOf s i).state

theorem heldState_ne_free (x : SeqState) : heldState x ≠ .free := by
  unfold heldState
  split
  · simp
  · simp

theorem HoldKept.held {s t u : State} {i : Nat} (h₁ : HoldKept s t i) (h₂ : Held t u i) : Held s u i := by rwa [Held, h₁.1, h₁.2] at h₂

/-- Holding a sequence again changes nothing of its cause and state. -/
theorem Held.again {s t u : State} {i : Nat} (h₁ : Held s t i) (h₂ : Held t u i) : Held s u i := by
  rw [Held, h₁.1, h₁.2] at h₂
  refine ⟨h₂.1.trans ?_, h₂.2.trans ?_⟩
  · by_cases hcause : (seqOf s i).hold = 4
    · simp [heldCause, hcause]
    · simp [heldCause, hcause]
  · by_cases hstate : (seqOf s i).state = .parked
    · simp [heldState, hstate]
    · simp [heldState, hstate]

/-- What HELD does is to put the sequence's entry; records and completions leave the table. -/
theorem holdSeq_seqs {s : State} {i : Nat} (h : (seqOf s i).state ≠ .free) (result : Nat) :
    (holdSeq s i 1 result).seqs = (putSeq s i { seqOf s i with
      state := heldState (seqOf s i).state, hold := heldCause (seqOf s i).hold
      importing := (seqOf s i).importing.map fun m => { m with notice := false } }).seqs := by
  have hcause : ¬(1 : Nat) = 4 := by decide
  simp only [holdSeq, if_neg hcause, if_neg h, endHeld]
  split
  · split
    · simp
    · simp
  · simp

theorem holdSeq_same {s : State} {i : Nat} (h : (seqOf s i).state ≠ .free) (result : Nat) : Held s (holdSeq s i 1 result) i := by
  have hentry : seqOf (holdSeq s i 1 result) i = { seqOf s i with
      state := heldState (seqOf s i).state, hold := heldCause (seqOf s i).hold
      importing := (seqOf s i).importing.map fun m => { m with notice := false } } := by
    rw [seqOf, holdSeq_seqs h, ← seqOf, seqOf_putSeq]
  rw [Held, hentry]
  exact ⟨rfl, rfl⟩

theorem holdSeq_other (s : State) {i j : Nat} (hj : j ≠ i) (result : Nat) : seqOf (holdSeq s i 1 result) j = seqOf s j := by
  by_cases h : (seqOf s i).state = .free
  · have hcause : ¬(1 : Nat) = 4 := by decide
    simp only [holdSeq, if_neg hcause, if_pos h]
  · rw [seqOf, holdSeq_seqs h, ← seqOf, seqOf_putSeq_ne _ _ hj]

/-- Every sequence of the list that is not free is held, and the others stay. -/
theorem holdAll_holds (result : Nat) (l : List Nat) (s : State) {i : Nat} (h : (seqOf s i).state ≠ .free) :
    (i ∈ l → Held s (holdAll 1 result l s) i) ∧ (i ∉ l → HoldKept s (holdAll 1 result l s) i) := by
  induction l generalizing s with
  | nil => exact ⟨fun hi => absurd hi List.not_mem_nil, fun _ => ⟨rfl, rfl⟩⟩
  | cons a l ih =>
    by_cases ha : i = a
    · subst ha
      have hfirst : Held s (holdSeq s i 1 result) i := holdSeq_same h result
      obtain ⟨hin, hout⟩ := ih (holdSeq s i 1 result) (hfirst.2 ▸ heldState_ne_free _)
      refine ⟨fun _ => ?_, fun hi => absurd List.mem_cons_self hi⟩
      by_cases hl : i ∈ l
      · exact hfirst.again (hin hl)
      · exact ⟨(hout hl).1.trans hfirst.1, (hout hl).2.trans hfirst.2⟩
    · have hsame : seqOf (holdSeq s a 1 result) i = seqOf s i := holdSeq_other s ha result
      obtain ⟨hin, hout⟩ := ih (holdSeq s a 1 result) (hsame ▸ h)
      have hkept : HoldKept s (holdSeq s a 1 result) i := ⟨by rw [hsame], by rw [hsame]⟩
      refine ⟨fun hi => hkept.held (hin ((List.mem_cons.1 hi).resolve_left ha)), fun hi => ?_⟩
      obtain ⟨hhold, hstate⟩ := hout fun hl => hi (List.mem_cons_of_mem a hl)
      exact ⟨hhold.trans hkept.1, hstate.trans hkept.2⟩

/-! ### Steps that fail (R167) -/

/-- From `s` to `t` the step of the pitch has failed: its programs have stopped, and the sequences of its micro-batch are held. -/
structure Failed (s t : State) (p : Nat) : Prop where
  batch : (pitchOf t p).batch = []
  inStep : (pitchOf t p).inStep = false
  stopped : ProgramsStopped s t p
  held : ∀ m ∈ (pitchOf s p).batch, (seqOf s m.seq).state ≠ .free → Held s t m.seq
  slots : SlotsEmptied t p

theorem failStep_failed (s : State) (p result : Nat) : Failed s (failStep s p result) p := by
  have habandoned := abandonStep_abandoned s p
  unfold failStep
  dsimp only
  generalize abandonStep s p = s1 at habandoned ⊢
  have hpitch : pitchOf (holdAll 1 result ((pitchOf s1 p).batch.map (·.seq)) s1) p = pitchOf s1 p := by simp [pitchOf]
  refine ⟨?_, by rw [pitchOf_onPitch], fun c hc => ?_, fun m hm hlive => ?_, fun n x hx => ?_⟩
  · rw [pitchOf_onPitch, leaveBatch, pitchOf_onPitch, hpitch, List.filter_eq_nil_iff]
    intro m hm
    simpa using ⟨m, hm, rfl⟩
  · have hcamp := habandoned.stopped c hc
    simpa [campOf] using hcamp
  · have hkept : HoldKept s s1 m.seq := ⟨by rw [habandoned.seqs], by rw [habandoned.seqs]⟩
    have hmem : m.seq ∈ (pitchOf s1 p).batch.map (·.seq) := List.mem_map_of_mem (habandoned.batch ▸ hm)
    exact hkept.held ((holdAll_holds result _ s1 (hkept.2 ▸ hlive)).1 hmem)
  · rw [pitchOf_onPitch, leaveBatch, pitchOf_onPitch, hpitch] at hx
    exact habandoned.slots n x hx

/-- A step that fails after records alone has failed. -/
theorem Failed.of_records {s u t : State} {p : Nat} (honly : RecordsOnly s u) (h : Failed u t p) : Failed s t p := by
  rw [honly] at h
  exact ⟨h.batch, h.inStep, h.stopped, h.held, h.slots⟩

/-! ### Camp faults (R167 to R169) -/

theorem raiseFault_failed {s : State} {camp : Nat} {r : PitchRecord} {rel : Nat} (hhome : homeOf s camp = some (r, rel)) (f : CampFault)
    (opcode attempt : Nat) : Failed s (raiseFault s camp f opcode attempt) r.pitch := by
  unfold raiseFault
  rw [hhome]
  exact (failStep_failed _ r.pitch rcInternal).of_records (writeEvent_recordsOnly _ _ _ _ _ _)

/-- A command that faults raises its fault. -/
theorem runCommand_fault {s : State} {camp : Nat} {w : CmdWord} {r : PitchRecord} {rel : Nat} {p : Program} (hat : AtCommand s camp w r rel p)
    {mine : Bool} (hmine : mine = true) {g : Ctx → State → CmdRes} {f : CampFault} (hfault : g (ctxAt camp r rel p w) s = .fault f) :
    runCommand s camp w mine g = .next (raiseFault s camp f (cmdOpcode w) 0) := by
  rw [runCommand_at hat hmine, hfault]
  rfl

/-! ### Repairs before a step runs again (R459) -/

theorem onCore_keepsPrograms (s : State) (camp core : Nat) (f : Core → Core) : KeepsPrograms s (onCore s camp core f) := by
  intro c
  by_cases hc : c = camp
  · subst hc
    rw [onCore, campOf_putCamp]
    rfl
  · rw [onCore, campOf_putCamp_ne _ _ hc]

/-- Putting a camp with its program as it was keeps every program. -/
theorem putCamp_keepsPrograms (s : State) (camp : Nat) {x : Camp} (hx : x.prog = (campOf s camp).prog) : KeepsPrograms s (putCamp s camp x) := by
  intro c
  by_cases hc : c = camp
  · subst hc
    rw [campOf_putCamp, hx]
  · rw [campOf_putCamp_ne _ _ hc]

theorem keepsPrograms_trans {s t u : State} (h₁ : KeepsPrograms s t) (h₂ : KeepsPrograms t u) : KeepsPrograms s u :=
  fun c => (h₂ c).trans (h₁ c)

theorem refillSlots_keepsPrograms (r : PitchRecord) (rel : Nat) (xs : NMap Slot) (s : State) : KeepsPrograms s (refillSlots r rel xs s) := fun c => by
  rw [campOf_refillSlots]

theorem fenceOne_keepsPrograms (s : State) (camp core : Nat) : KeepsPrograms s (fenceOne s camp core) := by
  have hfirst : KeepsPrograms s (putCamp s camp { campOf s camp with fenced := true }) := putCamp_keepsPrograms s camp rfl
  unfold fenceOne
  dsimp only
  generalize putCamp s camp { campOf s camp with fenced := true } = s1 at hfirst ⊢
  split
  · exact hfirst
  · next r rel _ =>
    split
    · next k _ =>
      refine keepsPrograms_trans hfirst (keepsPrograms_trans ?_ (keepsPrograms_of_camps (writeEvent_keeps _ _ _ _ _ _).2.2.2.2.2.2.2.2.2.2.1))
      refine keepsPrograms_trans ?_ (refillSlots_keepsPrograms _ _ _ _)
      exact keepsPrograms_trans (keepsPrograms_of_camps (by simp)) (putCamp_keepsPrograms _ _ rfl)
    · split
      · exact keepsPrograms_trans hfirst (keepsPrograms_of_camps (by simp))
      · exact keepsPrograms_trans hfirst (keepsPrograms_of_camps (by simp))

theorem loseCore_keepsPrograms (s : State) (camp core p : Nat) (m : Mismatch) : KeepsPrograms s (loseCore s camp core p m) := by
  unfold loseCore
  dsimp only
  split
  · exact fun _ => rfl
  · refine keepsPrograms_trans (keepsPrograms_trans (keepsPrograms_of_camps ?_) (onCore_keepsPrograms _ _ _ _)) (fenceOne_keepsPrograms _ _ _)
    simp

theorem makeRepair_keepsPrograms (s : State) (p : Nat) (d : Repair) : KeepsPrograms s (makeRepair s p d) := by
  cases d with
  | block da => exact fun _ => rfl
  | core camp core m => exact loseCore_keepsPrograms s camp core p m
  | lane camp core m =>
    unfold makeRepair
    dsimp only
    split
    · exact fun _ => rfl
    · split
      · exact loseCore_keepsPrograms s camp core p m
      · exact keepsPrograms_trans (onCore_keepsPrograms s camp core fun k => retireLane k m.unit) (keepsPrograms_of_camps (by simp [retireLanes]))

theorem makeRepairs_keepsPrograms (p : Nat) (l : List Repair) (s : State) : KeepsPrograms s (makeRepairs p l s) := by
  induction l generalizing s with
  | nil => exact fun _ => rfl
  | cons d l ih => exact keepsPrograms_trans (makeRepair_keepsPrograms s p d) (ih _)

/-! ### Steps that run again (R166) -/

/-- A step that runs again has its programs stopped, whatever is repaired before. -/
theorem rerunStep_stopped (s : State) (p : Nat) : ProgramsStopped s (rerunStep s p) p := by
  have hstopped := (abandonStep_abandoned s p).stopped
  rw [rerunStep, repairNow]
  generalize abandonStep s p = s1 at hstopped ⊢
  exact fun c hc => (makeRepairs_keepsPrograms p _ _ c).trans (hstopped c hc)

/-- Without repairs nothing else happens between the abandoned step and the next run. -/
theorem rerunStep_unrepaired {s : State} {p : Nat} (hrepairs : (pitchOf s p).repairs = []) (hdue : repairsDue s p = []) :
    rerunStep s p = onPitch (onPitch (abandonStep s p) p fun x => { x with reruns := x.reruns + 1 }) p fun x => { x with repairs := [] } := by
  have hnone : (pitchOf (abandonStep s p) p).repairs = [] := by
    rw [(abandonStep_abandoned s p).repairs, hrepairs, hdue]
    rfl
  rw [rerunStep, repairNow, pitchOf_onPitch]
  dsimp only
  rw [hnone]
  rfl

/-! ### SYNC_TIMEOUT -/

section
variable {s : State} {camp now : Nat} {r : PitchRecord} {rel : Nat} {p : Program} {b : Blocked}

/-- The record of a timeout at the count `now` (R165, R169). -/
abbrev timeoutNoted (s : State) (camp now : Nat) (r : PitchRecord) (p : Program) (b : Blocked) (attempt : Nat) : State :=
  writeEvent (atTime s now) (srcCamp camp) 0x0C 0x0309 r.pitch
    (campDetail camp (p.base + p.pc) (waitCore b) (cmdOpcode b.w) attempt (waitObject b.reason))

/-- A camp's wait is timed, has not come, and has reached its program's limit. -/
structure TimedOut (s : State) (camp now : Nat) (r : PitchRecord) (rel : Nat) (p : Program) (b : Blocked) : Prop where
  inRange : camp < 20000
  home : homeOf s camp = some (r, rel)
  prog : (campOf s camp).prog = some p
  blocked : (campOf s camp).blocked = some b
  isTimed : timed b.reason = true
  waiting : b.ready = false
  limit : b.since + 1000 * p.limitUs ≤ (atTime s now).cairn.count

variable (h : TimedOut s camp now r rel p b)

include h

theorem TimedOut.exec_syncTimeout : exec (.syncTimeout camp now) s = .next (doTimeout (atTime s now) camp) :=
  if_pos (campOk_of_lt h.inRange)

theorem TimedOut.commandIndex : commandIndex (campOf (atTime s now) camp) = p.base + p.pc := by
  have hprog : (campOf (atTime s now) camp).prog = some p := h.prog
  rw [Machine.commandIndex, hprog]

/-- A step that stalls for a page is not timed out (R31, R220). -/
theorem TimedOut.doTimeout_stalls (hstalls : fetchStalls s r.pitch b.reason = true) : doTimeout (atTime s now) camp = atTime s now := by
  have hhome : homeOf (atTime s now) camp = some (r, rel) := h.home
  have hprog : (campOf (atTime s now) camp).prog = some p := h.prog
  have hblocked : (campOf (atTime s now) camp).blocked = some b := h.blocked
  have hstalls' : fetchStalls (atTime s now) r.pitch b.reason = true := by
    rw [← hstalls]
    cases b.reason <;> rfl
  unfold doTimeout
  simp only [hhome, hprog, hblocked]
  rw [if_neg (by simp [hstalls'])]

/-- Any other ends the step: the first to run it again, a later one to hold its sequences (R165 to R167). -/
theorem TimedOut.doTimeout_ends (hstalls : fetchStalls s r.pitch b.reason = false) : doTimeout (atTime s now) camp
    = if (pitchOf s r.pitch).timeouts = 0 then
        onPitch (rerunStep (timeoutNoted s camp now r p b 1) r.pitch) r.pitch fun x => { x with timeouts := 1 }
      else failStep (timeoutNoted s camp now r p b 2) r.pitch rcInternal := by
  have hhome : homeOf (atTime s now) camp = some (r, rel) := h.home
  have hprog : (campOf (atTime s now) camp).prog = some p := h.prog
  have hblocked : (campOf (atTime s now) camp).blocked = some b := h.blocked
  have hstalls' : fetchStalls (atTime s now) r.pitch b.reason = false := by
    rw [← hstalls]
    cases b.reason <;> rfl
  unfold doTimeout
  simp only [hhome, hprog, hblocked]
  rw [if_pos ⟨h.isTimed, h.waiting, hstalls', h.limit⟩, h.commandIndex, raiseFault, hhome]
  dsimp only
  rw [h.commandIndex]
  rfl

theorem TimedOut.exec_first (hstalls : fetchStalls s r.pitch b.reason = false) (hfirst : (pitchOf s r.pitch).timeouts = 0) :
    exec (.syncTimeout camp now) s
      = .next (onPitch (rerunStep (timeoutNoted s camp now r p b 1) r.pitch) r.pitch fun x => { x with timeouts := 1 }) := by
  rw [h.exec_syncTimeout, h.doTimeout_ends hstalls, if_pos hfirst]

theorem TimedOut.exec_later (hstalls : fetchStalls s r.pitch b.reason = false) (hlater : (pitchOf s r.pitch).timeouts ≠ 0) :
    exec (.syncTimeout camp now) s = .next (failStep (timeoutNoted s camp now r p b 2) r.pitch rcInternal) := by
  rw [h.exec_syncTimeout, h.doTimeout_ends hstalls, if_neg hlater]

end

/-- From `s` to `u` nothing changes but the count and what a record may write. -/
abbrev NotedOnly (s u : State) : Prop :=
  ∃ cairn ev host out nvm, u = { s with cairn := cairn, ev := ev, host := host, out := out, nvm := nvm }

theorem timeoutNoted_notedOnly (s : State) (camp now : Nat) (r : PitchRecord) (p : Program) (b : Blocked) (attempt : Nat) :
    NotedOnly s (timeoutNoted s camp now r p b attempt) :=
  ⟨_, _, _, _, _, writeEvent_recordsOnly (atTime s now) _ _ _ _ _⟩

/-- What a first timeout leaves where no run is due a repair. -/
theorem rerun_unrepaired {s u : State} {p : Nat} (honly : NotedOnly s u) (hrepairs : (pitchOf s p).repairs = [])
    (hdue : repairsDue s p = []) :
    let t := onPitch (rerunStep u p) p fun x => { x with timeouts := 1 }
    t.ev = u.ev ∧ (pitchOf t p).inStep = (pitchOf s p).inStep ∧ (pitchOf t p).batch = (pitchOf s p).batch
      ∧ (pitchOf t p).reruns = (pitchOf s p).reruns + 1 ∧ (pitchOf t p).chosen = [] ∧ SlotsEmptied t p ∧ ProgramsStopped s t p := by
  have habandoned : Abandoned s (abandonStep u p) p := by
    have hown := abandonStep_abandoned u p
    obtain ⟨cairn, ev, host, out, nvm, rfl⟩ := honly
    exact ⟨hown.stopped, hown.slots, hown.batch, hown.inStep, hown.reruns, hown.chosen, hown.repairs, hown.seqs⟩
  have hev : (abandonStep u p).ev = u.ev := (abandonStep_keeps u p).2.1
  have hrerun : rerunStep u p = _ := rerunStep_unrepaired (by obtain ⟨cairn, ev, host, out, nvm, rfl⟩ := honly; exact hrepairs)
    (by obtain ⟨cairn, ev, host, out, nvm, rfl⟩ := honly; exact hdue)
  rw [hrerun]
  generalize abandonStep u p = s1 at habandoned hev ⊢
  refine ⟨hev, ?_, ?_, ?_, ?_, fun n x hx => ?_, fun c hc => habandoned.stopped c hc⟩
  · simp only [pitchOf_onPitch]
    exact habandoned.inStep
  · simp only [pitchOf_onPitch]
    exact habandoned.batch
  · simp only [pitchOf_onPitch]
    exact congrArg (· + 1) habandoned.reruns
  · simp only [pitchOf_onPitch]
    exact habandoned.chosen
  · simp only [pitchOf_onPitch] at hx
    exact habandoned.slots n x hx

/-! ### O26 -/

/-- Settles O26: a reserved opcode faults; `TimedOut.doTimeout_ends` runs the step again or fails it; and `failStep_failed` says what a failed step
leaves, as `raiseFault_failed` does of a fault. -/
theorem timeoutsAndFaultsStopTheStep : Obligations.TimeoutsAndFaultsStopTheStep := by
  unfold Obligations.TimeoutsAndFaultsStopTheStep
  refine ⟨?_, ?_, ?_⟩
  · intro s camp w r rel p hat
    refine ⟨fun hop => runCommand_fault hat (decide_eq_true hop) rfl, fun ⟨hop, hclear⟩ hreserved hrepeat hcores => ?_⟩
    have hmine : (decide (cmdOpcode w = 0x0D) && decide (0x1C ≤ vopOp w)) = true := by simp [hop, hreserved]
    rw [← hop]
    exact runCommand_fault hat hmine (coreCommand_clear hclear (decide_eq_true hrepeat) hcores _)
  · intro s camp now r rel p b hcamp hhome hprog hblocked htimed hwaiting hlimit detail event
    have hout : TimedOut s camp now r rel p b := ⟨hcamp, hhome, hprog, hblocked, htimed, hwaiting, hlimit⟩
    have hevent (attempt : Nat) : event attempt = timeoutNoted s camp now r p b attempt := rfl
    clear_value event
    have hnoted (attempt : Nat) := timeoutNoted_notedOnly s camp now r p b attempt
    refine ⟨fun hstalls => ?_, fun hstalls hfirst => ?_, fun hstalls hlater => ?_⟩
    · rw [hout.exec_syncTimeout, hout.doTimeout_stalls hstalls]
    · rw [hout.exec_first hstalls hfirst, hevent]
      refine ⟨_, rfl, by rw [pitchOf_onPitch], ?_, rfl, rerun_unrepaired (hnoted 1)⟩
      have hstopped := rerunStep_stopped (timeoutNoted s camp now r p b 1) r.pitch camp
      obtain ⟨cairn, ev, host, out, nvm, heq⟩ := hnoted 1
      rw [heq] at hstopped ⊢
      exact hstopped (campIn_of_homeOf hhome)
    · have hfailed := failStep_failed (timeoutNoted s camp now r p b 2) r.pitch rcInternal
      rw [hout.exec_later hstalls hlater, hevent]
      refine ⟨_, rfl, rfl, hfailed.inStep, hfailed.batch, ?_⟩
      obtain ⟨cairn, ev, host, out, nvm, heq⟩ := hnoted 2
      rw [heq] at hfailed ⊢
      exact hfailed.held
  · intro s camp f opcode attempt r rel hhome t
    have hfailed := raiseFault_failed hhome f opcode attempt
    exact ⟨hfailed.batch, hfailed.inStep, hfailed.stopped, hfailed.held, hfailed.slots⟩

end Sys2Proof.Machine
end

section
/-! SUPPORT. A small module at a camp command: one pitch of one camp, whose program stands at the command. The refutations below start from it. -/

namespace Sys2Proof.Machine.Example

/-- A pitch of one camp at the origin, with 8 slots. -/
def pitch : PitchRecord where
  pitch := 0
  enabled := true
  sealed := false
  x0 := 0
  y0 := 0
  width := 1
  height := 1
  spares := 0
  hash := 255
  hbmBase := 0
  hbmSize := 1
  seqFirst := 0
  seqCount := 8
  syncFirst := 0
  syncCount := 16
  slots := 8
  larder := List.replicate 8 16
  capacity := []
  shares := []
  sessions := []
  parkKind := 1
  parkSession := 0
  parkAddress := 0
  parkLength := 0
  regions := 0
  profile := ⟨⟨2, 1, 1, 1, true, 80, 60⟩, ⟨8, false, 0, 0⟩, ⟨32, 8, 64⟩, 8, 1, [0], 0, true⟩
  group := ⟨0, 0, 1, 0, 0, 1, [5]⟩
  keys := none
  reservedZero := true

/-- A configuration of that pitch alone. -/
def config : Configuration where
  generation := 1
  deviceId := 5
  digest := 0
  pitches := [pitch]
  regions := []
  links := []
  ports := []
  hostPort := true
  eth := []
  timeRoot := 5
  ppsUsed := false
  power := ⟨1000, 300, 1, false, false, false, 4, 1, 10, true⟩
  successors := []
  management := none
  managementKeys := none
  managementKeysOk := true
  reservedZero := true

/-- A program of two commands that stands at its first one. -/
def program : Program := ⟨1, 0, 2, 0, 7, [], 1000, []⟩

/-- The camp's program stands at the word `w`; the camp has the given cores, and the pitch the given slots and length-table slot. -/
def standing (w : CmdWord) (cores : NMap Core) (slots : NMap Slot) (table : Option Nat) : State :=
  { State.reset with
    cfg := some config
    pitches := [(0, { Pitch.fresh with enabled := true, slots := slots, tableSlot := table })]
    camps := [(0, { Camp.fresh with cmdMem := [(0, w)], prog := some program, cores := cores })] }

/-- A slot of the given size and state at home in the camp, which produces it and reads it once. -/
def slot (size : Nat) (st : SlotState) : Slot := ⟨0, size, 0, 0, 1, false, st, false, [], [], .empty, []⟩

/-- The word of the given fields: lowest bit and value. -/
def word (fields : List (Nat × Nat)) : CmdWord := BitVec.ofNat 128 (fields.map fun x => x.2 * 2 ^ x.1).sum

/-- The state that an answer goes on to. -/
def next (a : Answer State) (s : State) : State :=
  match a with
  | .next t => t
  | _ => s

end Sys2Proof.Machine.Example
end

section
/-! PROOF. O18 fails: a read of a score tile notes, in the state of the pitch, the visible pairs whose score it has read as NaN (R192, R198). -/

namespace Sys2Proof.Machine.Example

/-- LDACC of slab 0 of the tile at base 0 into T[0] of core 0, by S[0]. -/
def readScores : CmdWord := word [(0, 0x0D), (16, 1), (32, 0x12), (41, 8), (64, 1)]

/-- An accepted tile of scores: its first element is the visible pair of KV head 0 and key 0, and its first row belongs to sequence handle 0. -/
def scoreTile : TileRun where
  base := 0
  wide := false
  height := 16
  mode := 0
  layer := 0
  op := 0
  src := none
  rows := [⟨0, some 0, 0, 0, 0, 0, []⟩]
  elems := [⟨0, 0, some (0, 0), 0, false, false, 0, []⟩]
  run := 0
  wideRerun := false
  half := 0
  state := .accepted
  discards := 0
  lastMis := []
  mark := none
  mis := []
  slots := []
  coming := []
  decoded := []
  plan := []
  feed := []

/-- Core 0 has that tile and a NaN in S[0], and the step's length table, in slot 7, has one entry, of handle 0. -/
def atScores : State :=
  pokeBytes (standing readScores [(0, { Core.fresh with sreg := [(0, qNaN)], tiles := [scoreTile] })] [(7, slot 64 .full)] (some 7))
    (slotDa (standing readScores [] [] none) pitch (slot 64 .full)) [1#8]

theorem atScores_ready : AtCommand atScores 0 readScores pitch 0 program ∧ HasNext program ∧ VectorWord readScores 0x12 0x07
    ∧ TilesReady atScores 0 readScores := by decide +kernel

/-- The pair (KV head 0, key 0) of the row's query joins the NaN scores of the pitch. -/
theorem nanScores_readScores : (pitchOf (next (exec (.vLdacc 0 readScores []) atScores) atScores) 0).nanScores = [(0, 0, 0, 0, 0, 0)]
    ∧ (pitchOf atScores 0).nanScores = [] := by decide +kernel

end Sys2Proof.Machine.Example

namespace Sys2Proof.Machine

open Example in
/-- Refutes O18: it says that an LDACC leaves the pitch's state but for what the Lookout has read, while one that reads the NaN score of a visible pair
adds the pair to `nanScores`, by which a query without another visible key is known (R198). -/
theorem not_groupsRotationsAndAccumulatorReads : ¬ Obligations.GroupsRotationsAndAccumulatorReads := by
  unfold Obligations.GroupsRotationsAndAccumulatorReads
  rintro ⟨-, hreads⟩
  obtain ⟨hat, hnext, hword, htiles⟩ := atScores_ready
  obtain ⟨t, hexec, -, -, -, -, -, hpitches, -⟩ :=
    (hreads atScores 0 readScores pitch 0 program hat hnext).1 _ List.mem_cons_self hword htiles
  obtain ⟨hnoted, hbefore⟩ := nanScores_readScores
  have hkept : (pitchOf t 0).nanScores = (pitchOf atScores 0).nanScores := by rw [hpitches 0]
  have hread : next (exec (.vLdacc 0 readScores []) atScores) atScores = t := congrArg (next · atScores) hexec
  rw [hread, hkept, hbefore] at hnoted
  exact absurd hnoted (by decide)

end Sys2Proof.Machine
end

section
/-! PROOF. O12 fails: it bounds the bytes of a slot store by the size of its format, but not the number of elements in the register that is stored. -/

namespace Sys2Proof.Machine.Example

/-- VST of T[0] of cores 0 and 1 as T5 to slot 0. -/
def storeRegisters : CmdWord := word [(0, 0x0F), (16, 3), (35, 2), (37, 1)]

/-- T[0] of core 0 holds 165 elements of 1.0, which take 33 bytes, and that of core 1 is fresh. -/
def longRegister : State :=
  standing storeRegisters [(0, { Core.fresh with t := [(0, List.replicate 165 0x3F800000#32)] })] [(0, slot 64 .empty)] none

theorem longRegister_ready : AtCommand longRegister 0 storeRegisters pitch 0 program ∧ HasNext program
    ∧ FieldsClear storeRegisters 0x0F [(39, 32), (123, 64)] ∧ cmdCores storeRegisters ≠ [] ∧ fld storeRegisters 36 35 = 2
    ∧ flag storeRegisters 37 = true ∧ fld storeRegisters 123 100 = 0 := by decide +kernel

theorem longRegister_trits :
    ∀ c ∈ cmdCores storeRegisters, ∀ v ∈ stored storeRegisters (coreOf (campOf longRegister 0) c), storeTrit v ≠ none := by
  have hall : (cmdCores storeRegisters).all (fun c =>
    (stored storeRegisters (coreOf (campOf longRegister 0) c)).all fun v => (storeTrit v).isSome) = true := by decide +kernel
  intro c hc v hv
  exact Option.isSome_iff_ne_none.1 (List.all_eq_true.1 (List.all_eq_true.1 hall c hc) v hv)

theorem longRegister_slot : slotOf longRegister pitch 0 = some (slot 64 .empty) ∧ (slot 64 .empty).producer = 0
    ∧ canWrite (slot 64 .empty) = true ∧ routeStays pitch 0 0 = true ∧ slicePaused longRegister pitch (slot 64 .empty) = false
    ∧ CampAdmitted longRegister 0 [(slotDa longRegister pitch (slot 64 .empty), 64)] := by decide +kernel

theorem longRegister_bytes : (storeBytes 2 (stored storeRegisters (coreOf (campOf longRegister 0) 0))).length = 33 := by decide +kernel

/-- The bytes of core 1, at slot byte 32, take the place of the last one of core 0. -/
theorem longRegister_overlaps : peekBytes (next (exec (.cVst 0 storeRegisters []) longRegister) longRegister)
    (slotDa longRegister pitch (slot 64 .empty)) 33 ≠ storeBytes 2 (stored storeRegisters (coreOf (campOf longRegister 0) 0)) := by decide +kernel

end Sys2Proof.Machine.Example

namespace Sys2Proof.Machine

open Example in
/-- Refutes O12: it says that a slot store leaves the bytes of every core of the mask at slot offset + rank × size, in every state. Commands write
registers of 128 elements (R121), but the statement does not ask that of the state: where the register of rank 0 has 165, its 33 bytes reach into those
of rank 1, which are stored after it. -/
theorem not_windowsAndRegistersAreLoadedAndStored : ¬ Obligations.WindowsAndRegistersAreLoadedAndStored := by
  unfold Obligations.WindowsAndRegistersAreLoadedAndStored
  rintro ⟨-, -, hstores⟩
  obtain ⟨hat, hnext, hword, hcores, hformat, hflag, hoffset⟩ := longRegister_ready
  obtain ⟨hslot, hproducer, hwrite, hroute, hpaused, hadmit⟩ := longRegister_slot
  obtain ⟨t, hexec, hbytes, -⟩ := (hstores longRegister 0 storeRegisters pitch 0 program hat hnext hword hcores hformat.le
    fun _ => longRegister_trits).2 hflag (slot 64 .empty) hslot (by decide +kernel) hroute hproducer hwrite hpaused hadmit
  have hstored : next (exec (.cVst 0 storeRegisters []) longRegister) longRegister = t := congrArg (next · longRegister) hexec
  have hrank := hbytes 0 0 (by decide +kernel)
  simp only [hformat, hoffset, longRegister_bytes, Nat.mul_zero, Nat.zero_mul, Nat.add_zero] at hrank
  exact longRegister_overlaps (hstored ▸ hrank)

end Sys2Proof.Machine
end

section
/-! SUPPORT. Where camps and slots are (R240, R367, R457): what a state's configuration and the take-overs of its pitches give. -/

namespace Sys2Proof.Machine

/-- From `s` to `t` the camps of every pitch stay under their numbers: neither the configuration nor a take-over changes. -/
structure KeepsHomes (s t : State) : Prop where
  cfg : t.cfg = s.cfg
  camps : ∀ p, (pitchOf t p).campOf = (pitchOf s p).campOf

theorem KeepsHomes.of_eq {s t : State} (hcfg : t.cfg = s.cfg) (hpitches : t.pitches = s.pitches) : KeepsHomes s t :=
  ⟨hcfg, fun p => by rw [pitchOf, hpitches, pitchOf]⟩

theorem KeepsHomes.trans {s t u : State} (h₁ : KeepsHomes s t) (h₂ : KeepsHomes t u) : KeepsHomes s u :=
  ⟨h₂.cfg.trans h₁.cfg, fun p => (h₂.camps p).trans (h₁.camps p)⟩

theorem onPitch_keepsHomes (s : State) (p : Nat) {f : Pitch → Pitch} (hf : (f (pitchOf s p)).campOf = (pitchOf s p).campOf) :
    KeepsHomes s (onPitch s p f) := by
  refine ⟨rfl, fun q => ?_⟩
  by_cases hq : q = p
  · rw [hq, pitchOf_onPitch, hf]
  · rw [pitchOf_onPitch_ne _ _ hq]

theorem putSlot_keepsHomes (s : State) (p n : Nat) (x : Slot) : KeepsHomes s (putSlot s p n x) := onPitch_keepsHomes s p rfl

theorem putSync_keepsHomes (s : State) (p n : Nat) (y : Sync) : KeepsHomes s (putSync s p n y) := onPitch_keepsHomes s p rfl

section
variable {s t : State} (h : KeepsHomes s t)
include h

theorem KeepsHomes.homeOf (camp : Nat) : homeOf t camp = homeOf s camp := by
  simp only [Machine.homeOf, h.cfg, h.camps]

theorem KeepsHomes.campIn (p camp : Nat) : campIn t p camp = campIn s p camp := by
  simp only [Machine.campIn, h.homeOf]

theorem KeepsHomes.slotDa (r : PitchRecord) (x : Slot) : slotDa t r x = slotDa s r x := by
  simp only [Machine.slotDa, logicalCamp, quotaBefore, h.cfg, h.camps]

theorem KeepsHomes.recordOf (p : Nat) : recordOf t p = recordOf s p := by
  simp only [Machine.recordOf, h.cfg]

theorem KeepsHomes.daOf (r : PitchRecord) (a : Nat) : daOf t r a = daOf s r a := by
  rw [Machine.daOf, translate_of_cfg h.cfg, Machine.daOf]

end

end Sys2Proof.Machine
end

section
/-! PROOF. O13: SIGNAL, WAIT and TAKE (R162 to R164). -/

namespace Sys2Proof.Machine

/-! ### The waits on an object -/

/-- Camp `c` of pitch `p` has blocked on object `n`. -/
abbrev Waits (s : State) (p n c : Nat) (b : Blocked) : Prop := (campOf s c).blocked = some b ∧ campIn s p c = true ∧ b.reason = .sync n

theorem releaseWaiter_of_noWait {s : State} {p n c : Nat} (h : ∀ b, ¬Waits s p n c b) : releaseWaiter s p n c = s := by
  unfold releaseWaiter
  split
  · rfl
  · next b hb => rw [if_neg fun hw => h b ⟨hb, hw.2, hw.1⟩]

theorem releaseWaiters_of_noWaits {s : State} {p n : Nat} (h : ∀ c b, ¬Waits s p n c b) (l : List Nat) : releaseWaiters p n l s = s := by
  induction l with
  | nil => rfl
  | cons c l ih => rw [releaseWaiters, releaseWaiter_of_noWait (h c), ih]

/-- A wait whose value the count has not reached goes on. -/
theorem releaseWaiter_short {s : State} {p n c : Nat} {b : Blocked} (hw : Waits s p n c b) (hshort : (syncOf s p n).count < syncValue b.w) :
    releaseWaiter s p n c = s := by
  obtain ⟨hblocked, hin, hreason⟩ := hw
  simp only [releaseWaiter, hblocked]
  rw [if_pos ⟨hreason, hin⟩, if_neg (by omega)]

/-- A WAIT whose value the count has reached completes: its program goes on. -/
theorem releaseWaiter_wait {s : State} {p n c : Nat} {b : Blocked} {q : Program} (hw : Waits s p n c b) (hop : fld b.w 51 48 ≠ 2)
    (hprog : (campOf s c).prog = some q) (hnext : HasNext q) (hreached : syncValue b.w ≤ (syncOf s p n).count) :
    releaseWaiter s p n c = gone s c q := by
  obtain ⟨hblocked, hin, hreason⟩ := hw
  simp only [releaseWaiter, hblocked]
  rw [if_pos ⟨hreason, hin⟩, if_pos hreached, if_neg hop, advance_of_hasNext hprog hnext]

/-- A TAKE completes with its subtraction, which makes the camp the object's consumer. -/
theorem releaseWaiter_take {s : State} {p n c : Nat} {b : Blocked} {q : Program} (hw : Waits s p n c b) (hop : fld b.w 51 48 = 2)
    (hprog : (campOf s c).prog = some q) (hnext : HasNext q) (hreached : syncValue b.w ≤ (syncOf s p n).count) :
    releaseWaiter s p n c = gone (putSync s p n ⟨(syncOf s p n).count - syncValue b.w, some (srcCamp c)⟩) c q := by
  obtain ⟨hblocked, hin, hreason⟩ := hw
  simp only [releaseWaiter, hblocked]
  rw [if_pos ⟨hreason, hin⟩, if_pos hreached, if_pos hop]
  exact advance_of_hasNext (s := putSync s p n _) hprog hnext

theorem gone_keepsHomes (s : State) (c : Nat) (q : Program) : KeepsHomes s (gone s c q) := .of_eq rfl rfl

/-- A camp that has gone on waits no more, and every other camp waits as before. -/
theorem waits_gone {s : State} {p n c d : Nat} {q : Program} {b : Blocked} (h : Waits (gone s c q) p n d b) : d ≠ c ∧ Waits s p n d b := by
  obtain ⟨hblocked, hin, hreason⟩ := h
  have hne : d ≠ c := by
    rintro rfl
    simp [gone] at hblocked
  rw [campOf_putCamp_ne _ _ hne] at hblocked
  exact ⟨hne, hblocked, by rwa [(gone_keepsHomes s c q).campIn] at hin, hreason⟩

/-- Every wait on the object is a WAIT, of a camp whose program has a command after it. -/
abbrev WaitsGoOn (s : State) (p n : Nat) : Prop :=
  ∀ c b, Waits s p n c b → fld b.w 51 48 ≠ 2 ∧ ∃ q, (campOf s c).prog = some q ∧ HasNext q

/-- From `s` to `t` WAITs of the object have completed: sync objects stay, and a camp that does not wait for a count reached stays. -/
structure WaitsEnded (s t : State) (p n : Nat) : Prop where
  pitches : t.pitches = s.pitches
  stays : ∀ c, (∀ b, Waits s p n c b → (syncOf s p n).count < syncValue b.w) → campOf t c = campOf s c

theorem WaitsGoOn.gone {s : State} {p n c : Nat} {q : Program} (h : WaitsGoOn s p n) : WaitsGoOn (gone s c q) p n := by
  intro d b hw
  obtain ⟨hne, hw'⟩ := waits_gone hw
  rw [campOf_putCamp_ne _ _ hne]
  exact h d b hw'

theorem releaseWaiters_end {p n : Nat} (l : List Nat) {s : State} (h : WaitsGoOn s p n) : WaitsEnded s (releaseWaiters p n l s) p n
    ∧ ∀ c b, c ∈ l → Waits s p n c b → syncValue b.w ≤ (syncOf s p n).count →
      ∃ q, (campOf s c).prog = some q
        ∧ campOf (releaseWaiters p n l s) c = { campOf s c with prog := some (nextProg q), blocked := none } := by
  induction l generalizing s with
  | nil => exact ⟨⟨rfl, fun _ _ => rfl⟩, fun c b hc => absurd hc List.not_mem_nil⟩
  | cons d l ih =>
    rw [releaseWaiters]
    by_cases hd : ∃ b, Waits s p n d b ∧ syncValue b.w ≤ (syncOf s p n).count
    · obtain ⟨b, hw, hreached⟩ := hd
      obtain ⟨hop, q, hprog, hnext⟩ := h d b hw
      rw [releaseWaiter_wait hw hop hprog hnext hreached]
      have hother {c : Nat} (hne : c ≠ d) : campOf (gone s d q) c = campOf s c := campOf_putCamp_ne _ _ hne
      have hwaits {c : Nat} {b : Blocked} (hne : c ≠ d) (hc : Waits s p n c b) : Waits (gone s d q) p n c b := by
        rwa [Waits, hother hne, (gone_keepsHomes s d q).campIn]
      obtain ⟨⟨hpitches, hstays⟩, hends⟩ := ih (h.gone (c := d) (q := q))
      refine ⟨⟨hpitches, fun c hc => ?_⟩, fun c b' hc hw' hreached' => ?_⟩
      · have hne : c ≠ d := fun heq => absurd hreached (not_le.2 (hc b (heq ▸ hw)))
        rw [hstays c fun b' hb' => hc b' (waits_gone hb').2, hother hne]
      · by_cases hne : c = d
        · subst hne
          refine ⟨q, hprog, ?_⟩
          rw [hstays c fun b' hb' => absurd rfl (waits_gone hb').1, campOf_putCamp]
        · have hcl : c ∈ l := (List.mem_cons.1 hc).resolve_left hne
          have hgo := hends c b' hcl (hwaits hne hw') hreached'
          rwa [hother hne] at hgo
    · have hone : releaseWaiter s p n d = s := by
        by_cases hw : ∃ b, Waits s p n d b
        · obtain ⟨b, hw⟩ := hw
          exact releaseWaiter_short hw (not_le.1 fun hle => hd ⟨b, hw, hle⟩)
        · exact releaseWaiter_of_noWait fun b hb => hw ⟨b, hb⟩
      rw [hone]
      obtain ⟨hended, hends⟩ := ih h
      refine ⟨hended, fun c b hc hw hreached => hends c b ?_ hw hreached⟩
      exact (List.mem_cons.1 hc).resolve_left fun heq => hd ⟨b, heq ▸ hw, hreached⟩

/-- The only wait on the object, a TAKE whose value the count has reached, completes. -/
theorem releaseWaiters_take {p n d : Nat} {b : Blocked} {q : Program} (l : List Nat) {s : State} (honly : ∀ c b', Waits s p n c b' → c = d)
    (hw : Waits s p n d b) (hop : fld b.w 51 48 = 2) (hprog : (campOf s d).prog = some q) (hnext : HasNext q)
    (hreached : syncValue b.w ≤ (syncOf s p n).count) (hd : d ∈ l) :
    releaseWaiters p n l s = gone (putSync s p n ⟨(syncOf s p n).count - syncValue b.w, some (srcCamp d)⟩) d q := by
  induction l with
  | nil => exact absurd hd List.not_mem_nil
  | cons c l ih =>
    rw [releaseWaiters]
    by_cases hc : c = d
    · subst hc
      rw [releaseWaiter_take hw hop hprog hnext hreached]
      refine releaseWaiters_of_noWaits (fun c' b' hb' => ?_) l
      obtain ⟨hne, hblocked, hin, hreason⟩ := waits_gone hb'
      rw [(putSync_keepsHomes s p n _).campIn] at hin
      exact hne (honly c' b' ⟨hblocked, hin, hreason⟩)
    · rw [releaseWaiter_of_noWait fun b' hb' => hc (honly c b' hb'), ih ((List.mem_cons.1 hd).resolve_left fun heq => hc heq.symm)]

/-! ### The signal -/

/-- A camp that waits is listed. -/
theorem mem_camps_of_blocked {s : State} {c : Nat} {b : Blocked} (h : (campOf s c).blocked = some b) : c ∈ s.camps.map (·.1) := by
  by_contra hc
  have hnone : mget s.camps c = none := by
    generalize s.camps = m at hc
    induction m with
    | nil => rfl
    | cons y m ih =>
      simp only [List.map_cons, List.mem_cons, not_or] at hc
      rw [mget, if_neg fun heq => hc.1 heq.symm, ih hc.2]
  simp [campOf, mgetD, hnone, Camp.fresh] at h

section
variable {s : State} {p n v : Nat}

/-- The object with its count raised, before any wait ends. -/
abbrev raisedSync (s : State) (p n v : Nat) : State := putSync s p n { syncOf s p n with count := (syncOf s p n).count + v }

theorem waits_raisedSync (c : Nat) (b : Blocked) : Waits (raisedSync s p n v) p n c b ↔ Waits s p n c b := by
  rw [Waits, (putSync_keepsHomes s p n _).campIn]
  rfl

theorem signalSync_within (hcount : (syncOf s p n).count + v < 2 ^ 32) :
    signalSync s p n v = some (releaseWaiters p n (s.camps.map (·.1)) (raisedSync s p n v)) := by
  rw [signalSync, if_neg (by omega)]
  rfl

theorem signalSync_beyond (hcount : 2 ^ 32 ≤ (syncOf s p n).count + v) : signalSync s p n v = none := by
  rw [signalSync, if_pos (by omega)]

end

section
variable {s : State} {camp : Nat} {w : CmdWord} {r : PitchRecord} {rel : Nat} {p : Program} (hat : AtCommand s camp w r rel p)
  (hclear : reservedClear w syncFields = true)

include hat hclear

/-- A SIGNAL of an object of the pitch comes to what its addition comes to. -/
theorem exec_cSignal (hopcode : cmdOpcode w = 0x11) (hop : fld w 51 48 = 0) (hn : fld w 47 32 < r.syncCount) :
    exec (.cSignal camp w) s = .next ((signalSync s r.pitch (fld w 47 32) (syncValue w)).elim
      (raiseFault s camp (progFault 0x0306 noCore (fld w 47 32)) 0x11 0) fun u => advance u camp) := by
  have hmine : (decide (cmdOpcode w = 0x11) && !isSync w 1 && !isSync w 2) = true := by simp [isSync, hopcode, hop]
  show runCommand s camp w _ doSignal = _
  rw [runCommand_at hat hmine, doSignal, campCommand_clear hclear (decide_eq_true hop), if_neg (by simpa using hn)]
  cases signalSync s r.pitch (fld w 47 32) (syncValue w) with
  | none => simp only [settle, hopcode, Option.elim_none]
  | some u => rfl

variable (hnext : HasNext p) (hn : fld w 47 32 < r.syncCount) (hcount : syncValue w ≤ (syncOf s r.pitch (fld w 47 32)).count)

include hnext hn hcount

theorem exec_cWait_goesOn (hop : isSync w 1 = true) : exec (.cWait camp w) s = .next (gone s camp p) := by
  refine runCommand_done hat hnext hop (f := doWait) (u := s) ?_ rfl
  rw [doWait, campCommand_clear hclear rfl, if_neg (by simpa using hn), if_pos hcount]

theorem exec_cTake_takes (hop : isSync w 2 = true) (hconsumer : (syncOf s r.pitch (fld w 47 32)).consumer = none
      ∨ (syncOf s r.pitch (fld w 47 32)).consumer = some (srcCamp camp)) :
    exec (.cTake camp w) s = .next (gone (putSync s r.pitch (fld w 47 32)
      ⟨(syncOf s r.pitch (fld w 47 32)).count - syncValue w, some (srcCamp camp)⟩) camp p) := by
  refine runCommand_done hat hnext hop (f := doTake) ?_ rfl
  have hmine : ¬((syncOf s r.pitch (fld w 47 32)).consumer ≠ none ∧ (syncOf s r.pitch (fld w 47 32)).consumer ≠ some (srcCamp camp)) := by
    rintro ⟨hnone, hother⟩
    exact hconsumer.elim hnone hother
  rw [doTake, campCommand_clear hclear rfl, if_neg (by simpa using hn), if_neg hmine, if_pos hcount]

end

theorem syncOf_putSync_ne (s : State) (p : Nat) {n m : Nat} (y : Sync) (h : m ≠ n) : syncOf (putSync s p n y) p m = syncOf s p m := by
  simp [syncOf, putSync, mgetD_mset_ne _ _ _ h]

/-! ### O13 -/

/-- Settles O13: a SIGNAL raises the count and ends waits by `releaseWaiters_end` and `releaseWaiters_take`; a satisfied WAIT or TAKE goes on. -/
theorem syncCommandsMoveTheirCount : Obligations.SyncCommandsMoveTheirCount := by
  unfold Obligations.SyncCommandsMoveTheirCount
  refine ⟨?_, ?_⟩
  · intro s camp w r rel p hat hnext ⟨hopcode, hclear⟩ hop n total waits gone' hn
    have hexec := exec_cSignal hat hclear hopcode hop hn
    refine ⟨fun hbeyond => ?_, fun hwithin => ?_⟩
    · rw [hexec, signalSync_beyond hbeyond]
      rfl
    · have hsignal := signalSync_within hwithin
      refine ⟨_, hsignal, ?_, fun hnone => ?_, fun hwaits => ?_, ?_⟩
      · rw [hexec, hsignal, Option.elim_some]
      · exact releaseWaiters_of_noWaits (fun c b hb => hnone c b ((waits_raisedSync c b).1 hb)) _
      · have hgo : WaitsGoOn (raisedSync s r.pitch n (syncValue w)) r.pitch n := fun c b hb => hwaits c b ((waits_raisedSync c b).1 hb)
        obtain ⟨⟨hpitches, hstays⟩, hends⟩ := releaseWaiters_end (s.camps.map (·.1)) hgo
        have hcount : (syncOf (raisedSync s r.pitch n (syncValue w)) r.pitch n).count = total := by rw [syncOf_putSync_same]
        rw [hcount] at hstays hends
        refine ⟨by rw [syncOf, pitchOf, hpitches, ← pitchOf, ← syncOf, hcount], fun c b hb => ⟨fun hreached => ?_, fun hshort => ?_⟩⟩
        · exact hends c b (mem_camps_of_blocked hb.1) ((waits_raisedSync c b).2 hb) hreached
        · refine hstays c fun b' hb' => ?_
          rw [Option.some.inj (hb'.1.symm.trans hb.1)]
          exact hshort
      · intro d q b honly hb hprog hnextq htake hreached
        have hcount : (syncOf (raisedSync s r.pitch n (syncValue w)) r.pitch n).count = total := by rw [syncOf_putSync_same]
        rw [releaseWaiters_take (s := raisedSync s r.pitch n (syncValue w)) _ (fun c b' hb' => honly c b' ((waits_raisedSync c b').1 hb'))
          ((waits_raisedSync d b).2 hb) htake hprog hnextq (hcount ▸ hreached) (mem_camps_of_blocked hb.1), hcount]
        exact ⟨syncOf_putSync_same _ _ _ _, q, hprog, campOf_putCamp _ _ _⟩
  · intro s camp w r rel p hat hnext hclear hn hcount
    refine ⟨exec_cWait_goesOn hat hclear hnext hn hcount, fun hop hconsumer => ?_⟩
    refine ⟨_, exec_cTake_takes hat hclear hnext hn hcount hop hconsumer, syncOf_putSync_same _ _ _ _, fun m hm => ?_, ?_, rfl⟩
    · exact syncOf_putSync_ne s r.pitch _ hm
    · rw [campOf_putCamp]

end Sys2Proof.Machine
end

section
/-! PROOF. O14: SLOTRD and SLOTWR (R149, R157 to R159, R243). -/

namespace Sys2Proof.Machine

/-! ### What SLOTRD and SLOTWR ask -/

/-- A transfer of `l` bytes by rank from byte `o` on lies within a slot that holds those of every core (R157). -/
theorem slotFaults_within {cores : List Nat} {x : Slot} {o l : Nat} (h : o + cores.length * l ≤ x.size) (n : Nat) :
    slotFaults cores x n o l l = none := by
  rw [slotFaults, firstFault, List.findSome?_eq_none_iff]
  intro y hy
  have hrank : (y.2 + 1) * l ≤ cores.length * l := Nat.mul_le_mul_right l (List.snd_lt_of_mem_zipIdx hy)
  rw [Nat.add_mul, Nat.one_mul] at hrank
  rw [if_neg (by omega)]

/-- Scratchpad offset of the transfer of a SLOTRD or SLOTWR, in 8-byte units (R149, R151). -/
abbrev transferOffset (c : Ctx) : Nat := fld c.w 79 64 + c.sp

/-- Bytes that each core of such a command transfers (R149). -/
abbrev transferBytes (c : Ctx) : Nat := 8 * fld c.w 95 80

/-- First device byte of the transfer (R149). -/
abbrev transferDa (s : State) (c : Ctx) (x : Slot) : Nat := slotDa s c.pr x + 8 * fld c.w 119 96

/-- The range of device memory that the transfer meets. -/
abbrev transferRange (s : State) (c : Ctx) (x : Slot) : List (Nat × Nat) := [(transferDa s c x, transferBytes c * (cmdCores c.w).length)]

/-- A SLOTRD or SLOTWR is well formed, the windows of its cores hold its offset, and its slot holds what it transfers, can be reached and is not
paused (R148, R149, R154, R157, R172, R476). -/
structure TransferReady (s : State) (c : Ctx) (x : Slot) (write : Bool) : Prop where
  clear : reservedClear c.w slotFields = true
  cores : cmdCores c.w ≠ []
  length : 1 ≤ fld c.w 95 80
  windows : WindowHolds s c.camp c.w (transferOffset c) (fld c.w 95 80) write
  slot : slotOf s c.pr (inputSlot c) = some x
  size : 8 * fld c.w 119 96 + (cmdCores c.w).length * transferBytes c ≤ x.size
  route : routeStays c.pr c.rel x.home = true
  running : slicePaused s c.pr x = false
  admitted : CampAdmitted s c.camp (transferRange s c x)

/-! ### SLOTRD -/

/-- What a SLOTRD does: the bytes of each core go to its window, and a releasing read counts for the camp (R149, R158, R159). -/
def slotRead (c : Ctx) (x : Slot) (s : State) : State :=
  let s2 := onCores s c.camp (cmdCores c.w) fun q _ k =>
    spWrite k (cmdTask c.w) (transferOffset c) (peekBytes s (transferDa s c x + 8 * q * fld c.w 95 80) (transferBytes c))
  if flag c.w 52 then putSlot s2 c.pr.pitch (inputSlot c) (releaseSlot x c.rel) else s2

section
variable {s : State} {c : Ctx} {x : Slot}

theorem TransferReady.doSlotrd_reads (h : TransferReady s c x true) (hread : canRead x c.rel = true) (found : List Finding) :
    doSlotrd found c s = withFindings c found (touched s (transferRange s c x)) fun s1 => .done (slotRead c x s1) := by
  rw [doSlotrd, coreCommand_clear h.clear (decide_eq_true h.length) h.cores]
  dsimp only
  rw [unlessFault_none (windowFaults_none h.windows), withSlot, h.slot]
  dsimp only
  rw [unlessFault_none (slotFaults_within h.size _), routed, if_pos h.route, reading, if_pos ⟨hread, h.running⟩, access_admitted h.admitted]
  rfl

theorem campOf_slotRead (c : Ctx) (x : Slot) (s : State) : campOf (slotRead c x s) c.camp
    = eachCore (fun q _ k => spWrite k (cmdTask c.w) (transferOffset c)
        (peekBytes s (transferDa s c x + 8 * q * fld c.w 95 80) (transferBytes c))) (cmdCores c.w).zipIdx (campOf s c.camp) := by
  rw [← campOf_onCores, slotRead]
  split <;> rfl

theorem slotOf_slotRead (hslot : slotOf s c.pr (inputSlot c) = some x) :
    slotOf (slotRead c x s) c.pr (inputSlot c) = some (if flag c.w 52 then releaseSlot x c.rel else x) := by
  rw [slotRead]
  split
  · exact slotOf_putSlot_same (x := x) hslot _
  · exact hslot

theorem slotRead_only (c : Ctx) (x : Slot) (s : State) :
    slotRead c x s = { s with camps := (slotRead c x s).camps, pitches := (slotRead c x s).pitches } := by
  rw [slotRead]
  split <;> rfl

end

/-! ### SLOTWR -/

/-- Bytes that are stored by rank stand at their places, and every other byte reads as before. -/
theorem storeRanks_stores (da o n : Nat) {get : Nat → List Byte} (hget : ∀ core, (get core).length = n) (cores : List Nat) (k : Nat) (s : State) :
    (∀ core q, (core, q) ∈ cores.zipIdx k → peekBytes (storeRanks da o n get (cores.zipIdx k) s) (da + o + q * n) n = get core)
      ∧ MemoryElsewhere s (storeRanks da o n get (cores.zipIdx k) s) (da + o + k * n) (cores.length * n) := by
  induction cores generalizing k s with
  | nil => exact ⟨fun _ _ h => absurd h List.not_mem_nil, fun _ _ => rfl⟩
  | cons core cores ih =>
    rw [List.zipIdx_cons, storeRanks]
    obtain ⟨hstored, helse⟩ := ih (k + 1) (pokeBytes s (da + o + k * n) (get core))
    have hplace : da + o + (k + 1) * n = da + o + k * n + n := by ring
    have hsize : (core :: cores).length * n = n + cores.length * n := by rw [List.length_cons]; ring
    rw [hplace] at helse
    refine ⟨fun c q hc => ?_, fun x hx => ?_⟩
    · rcases List.mem_cons.1 hc with heq | hc
      · obtain ⟨rfl, rfl⟩ := Prod.mk.inj heq
        have hkept : peekBytes (storeRanks da o n get (cores.zipIdx (q + 1)) (pokeBytes s (da + o + q * n) (get c))) (da + o + q * n) n
            = peekBytes (pokeBytes s (da + o + q * n) (get c)) (da + o + q * n) n :=
          List.map_congr_left fun i hi => helse _ (.inl (by have := List.mem_range.1 hi; omega))
        rw [hkept, ← hget c, peekBytes_pokeBytes]
      · exact hstored c q hc
    · rw [hsize] at hx
      rw [helse x (by omega), pokeBytes_elsewhere s _ _ x (by rw [hget]; omega)]

/-- Storing by rank changes memory, and of a camp only what its run-ahead buffer holds. -/
theorem storeRanks_keeps (da o n : Nat) (get : Nat → List Byte) (l : List (Nat × Nat)) (s : State) :
    (storeRanks da o n get l s).pitches = s.pitches
      ∧ ∀ c, (campOf (storeRanks da o n get l s) c).cores = (campOf s c).cores
        ∧ (campOf (storeRanks da o n get l s) c).prog = (campOf s c).prog := by
  induction l generalizing s with
  | nil => exact ⟨rfl, fun _ => ⟨rfl, rfl⟩⟩
  | cons y l ih =>
    rw [storeRanks]
    obtain ⟨hpitches, hcamps⟩ := ih (pokeBytes s (da + o + y.2 * n) (get y.1))
    refine ⟨hpitches, fun c => ?_⟩
    rw [(hcamps c).1, (hcamps c).2, campOf_pokeBytes]
    exact ⟨rfl, rfl⟩

/-- The bytes that a core gives to a SLOTWR (R149). -/
abbrev windowBytes (c : Ctx) (cm : Camp) (core : Nat) : List Byte := spRead (coreOf cm core) (cmdTask c.w) (transferOffset c) (transferBytes c)

/-- What a SLOTWR does with the windows of the camp's state `cm`: each core's bytes go to the slot, which is FILLING (R149, R158). -/
def slotWrite (c : Ctx) (x : Slot) (cm : Camp) (s : State) : State :=
  putSlot (storeRanks (slotDa s c.pr x) (8 * fld c.w 119 96) (transferBytes c) (windowBytes c cm) (cmdCores c.w).zipIdx s) c.pr.pitch (inputSlot c)
    (fillSlot x (flag c.w 52))

section
variable {s : State} {c : Ctx} {x : Slot}

theorem TransferReady.doSlotwr_writes (h : TransferReady s c x false) (hproducer : x.producer = c.rel) (hwrite : canWrite x = true)
    (found : List Finding) : doSlotwr found c s
      = withFindings c found (touched s (transferRange s c x)) fun s1 => .done (slotWrite c x (campOf s c.camp) s1) := by
  rw [doSlotwr, coreCommand_clear h.clear (decide_eq_true h.length) h.cores]
  dsimp only
  rw [unlessFault_none (windowFaults_none h.windows), withSlot, h.slot]
  dsimp only
  rw [unlessFault_none (slotFaults_within h.size _), routed, if_pos h.route, writing, if_neg (by simp [hproducer]),
    if_pos ⟨hwrite, h.running⟩, access_admitted h.admitted]
  rfl

theorem slotWrite_stores (c : Ctx) (x : Slot) (cm : Camp) (s : State) :
    (∀ core q, (core, q) ∈ (cmdCores c.w).zipIdx →
        peekBytes (slotWrite c x cm s) (transferDa s c x + q * transferBytes c) (transferBytes c) = windowBytes c cm core)
      ∧ MemoryElsewhere s (slotWrite c x cm s) (transferDa s c x) ((cmdCores c.w).length * transferBytes c) := by
  have h := storeRanks_stores (slotDa s c.pr x) (8 * fld c.w 119 96) (transferBytes c) (get := windowBytes c cm) (fun _ => length_rdBytes _ _ _)
    (cmdCores c.w) 0 s
  rw [Nat.zero_mul, Nat.add_zero] at h
  exact h

theorem campOf_slotWrite (c : Ctx) (x : Slot) (cm : Camp) (s : State) (d : Nat) :
    (campOf (slotWrite c x cm s) d).cores = (campOf s d).cores ∧ (campOf (slotWrite c x cm s) d).prog = (campOf s d).prog :=
  (storeRanks_keeps _ _ _ _ _ s).2 d

theorem slotOf_slotWrite (hslot : slotOf s c.pr (inputSlot c) = some x) (cm : Camp) :
    slotOf (slotWrite c x cm s) c.pr (inputSlot c) = some (fillSlot x (flag c.w 52)) := by
  refine slotOf_putSlot_same (x := x) ?_ _
  rw [← hslot, slotOf, slotOf, pitchOf, (storeRanks_keeps _ _ _ _ _ s).1, ← pitchOf]

end

/-! ### O14 -/

/-- Settles O14: a SLOTRD comes to `slotRead` and a SLOTWR to `slotWrite`, unless findings end them, and the program goes on from there. -/
theorem slotCommandsMoveTheirBytes : Obligations.SlotCommandsMoveTheirBytes := by
  unfold Obligations.SlotCommandsMoveTheirBytes
  refine ⟨?_, ?_⟩
  · intro s camp w r rel p x hat hnext ⟨hop, hclear⟩ hcores hlength n o l so hwindows hslot hsize hroute hread hpaused rs hadmit
    have hready : TransferReady s (ctxAt camp r rel p w) x true := ⟨hclear, hcores, hlength, hwindows, hslot, hsize, hroute, hpaused, hadmit⟩
    have hdone := hready.doSlotrd_reads hread
    have hcamp := campOf_slotRead (ctxAt camp r rel p w) x (touched s rs)
    rw [campOf_touched] at hcamp
    have hfst : (cmdCores w).zipIdx.map Prod.fst = cmdCores w := List.zipIdx_map_fst 0 (cmdCores w)
    have hexec : exec (.cSlotrd camp w []) s = .next (gone (slotRead (ctxAt camp r rel p w) x (touched s rs)) camp p) :=
      runCommand_done hat hnext (decide_eq_true hop) (hdone []) (by rw [hcamp, eachCore_cores])
    refine ⟨runCommand_findings hat (decide_eq_true hop) hdone, _, hexec, fun c q hc => ?_, fun c hc => ?_, ?_, ?_, ?_⟩
    · rw [campOf_putCamp, hcamp]
      refine (coreOf_eachCore _ (hfst.symm ▸ cmdCores_nodup w) hc _).trans ?_
      rw [peekBytes_touched, transferDa, slotDa_touched]
    · rw [campOf_putCamp, hcamp]
      exact coreOf_eachCore_of_notMem _ (hfst.symm ▸ hc) _
    · exact slotOf_slotRead (c := ctxAt camp r rel p w) ((slotOf_touched s rs r n).trans hslot)
    · rw [putCamp_mem, slotRead_only, bytes_touched]
    · rw [gone, putCamp, slotRead_only]
  · intro s camp w r rel p x hat hnext ⟨hop, hclear⟩ hcores hlength n o l so hwindows hslot hsize hroute hproducer hwrite hpaused rs hadmit
    have hready : TransferReady s (ctxAt camp r rel p w) x false := ⟨hclear, hcores, hlength, hwindows, hslot, hsize, hroute, hpaused, hadmit⟩
    have hdone := hready.doSlotwr_writes hproducer hwrite
    have hcamp := campOf_slotWrite (ctxAt camp r rel p w) x (campOf s camp) (touched s rs) camp
    rw [campOf_touched] at hcamp
    have hexec : exec (.cSlotwr camp w []) s
        = .next (gone (slotWrite (ctxAt camp r rel p w) x (campOf s camp) (touched s rs)) camp p) :=
      runCommand_done hat hnext (decide_eq_true hop) (hdone []) hcamp.2
    obtain ⟨hstored, helse⟩ := slotWrite_stores (ctxAt camp r rel p w) x (campOf s camp) (touched s rs)
    rw [transferDa, slotDa_touched] at hstored helse
    refine ⟨runCommand_findings hat (decide_eq_true hop) hdone, _, hexec, hstored, fun a ha => ?_, ?_, ?_⟩
    · exact (helse a ha).trans (by rw [bytes_touched])
    · exact slotOf_slotWrite (c := ctxAt camp r rel p w) ((slotOf_touched s rs r n).trans hslot) _
    · rw [campOf_putCamp]
      exact hcamp.1

end Sys2Proof.Machine
end

section
/-! PROOF. O15: MEMRD and MEMWR (R149, R170, R171, R243, R275 to R277, R368). -/

namespace Sys2Proof.Machine

/-! ### Bytes in rank order -/

/-- Bytes inside a range that is read. -/
theorem rdBytes_inside (m : List Host.Cell) (a : Nat) {i n k : Nat} (h : i + n ≤ k) : rdBytes m (a + i) n = ((rdBytes m a k).drop i).take n := by
  refine List.ext_getElem (by simp; omega) fun j hj _ => ?_
  simp [rdBytes, Nat.add_assoc]

/-- In a row of pieces of `n` bytes the piece of rank `q` begins at byte `q * n`. -/
theorem take_drop_flatten {f : Nat → List Byte} {n : Nat} (hf : ∀ core, (f core).length = n) {cores : List Nat} {core q : Nat}
    (h : cores[q]? = some core) : (((cores.map f).flatten).drop (q * n)).take n = f core := by
  induction cores generalizing q with
  | nil => simp at h
  | cons d cores ih =>
    rw [List.map_cons, List.flatten_cons]
    cases q with
    | zero =>
      obtain rfl : d = core := by simpa using h
      rw [Nat.zero_mul, List.drop_zero, List.take_left' (hf d)]
    | succ q =>
      have hplace : (q + 1) * n = (f d).length + q * n := by rw [hf]; ring
      rw [hplace, List.drop_length_add_append]
      exact ih (by simpa using h)

/-! ### What MEMRD and MEMWR ask -/

/-- The pitch address of a MEMRD or MEMWR (R149). -/
abbrev memAddress (c : Ctx) : Nat := fld c.w 79 32

/-- Its scratchpad offset, in 8-byte units (R149, R151). -/
abbrev memOffset (c : Ctx) : Nat := fld c.w 95 80 + c.sp

/-- Bytes that each core transfers (R149). -/
abbrev memPiece (c : Ctx) : Nat := 8 * fld c.w 111 96

/-- Bytes that the mask transfers. -/
abbrev memBytes (c : Ctx) : Nat := memPiece c * (cmdCores c.w).length

/-- A MEMRD or MEMWR is well formed, its windows hold its offset, and its references lie within bound (R148, R149, R154, R369). -/
structure MemReady (s : State) (c : Ctx) (write : Bool) : Prop where
  clear : reservedClear c.w memFields = true
  cores : cmdCores c.w ≠ []
  length : 1 ≤ fld c.w 111 96
  align : memAddress c % 8 = 0
  windows : WindowHolds s c.camp c.w (memOffset c) (fld c.w 111 96) (!write)
  bound : memFault s c.pr (cmdCores c.w) (memAddress c) (fld c.w 111 96) write = none

section
variable {s : State} {c : Ctx} {write : Bool}

/-- The checks of such a command pass; a read writes its windows. -/
theorem MemReady.command (h : MemReady s c write) {intoWindow : Bool} (hdir : (!write) = intoWindow) (k : List Nat → CmdRes) :
    (coreCommand c.w memFields (decide (1 ≤ fld c.w 111 96) && decide (fld c.w 79 32 % 8 = 0)) fun cores =>
      unlessFault (windowFaults (campOf s c.camp) cores (cmdTask c.w) (memOffset c) (fld c.w 111 96) intoWindow) <|
      unlessFault (memFault s c.pr cores (memAddress c) (fld c.w 111 96) write) (k cores)) = k (cmdCores c.w) := by
  rw [← hdir, coreCommand_clear h.clear (by simp [h.length, h.align]) h.cores, unlessFault_none (windowFaults_none h.windows), unlessFault_none h.bound]

end

/-! ### MEMRD -/

theorem readPitch_touched (s : State) (rs : List (Nat × Nat)) (p a da n : Nat) : readPitch (touched s rs) p a da n = readPitch s p a da n := by
  obtain ⟨us, late, h⟩ := touchUnits_eq (unitsAsked s rs) s
  rw [touched, h]
  rfl

/-- What a MEMRD does with the bytes that it reads (R149, R170). -/
abbrev memRead (c : Ctx) (bs : List Byte) (s : State) : State := scatterRanks c (cmdCores c.w) (memOffset c) (memPiece c) bs (dropAhead c s)

section
variable {s : State} {c : Ctx} (h : MemReady s c false)
include h

/-- A MEMRD of a coded region reads its decoded bytes, unless the region's fault ends it (R275, R283). -/
theorem MemReady.doMemrd_coded {g : CodedRegion} (hcoded : codedAt s c.pr.pitch (memAddress c) = some g)
    (hadmit : CampAdmitted s c.camp (codedReads s c.pr g (memAddress c - g.address) (memBytes c))) {t : State} {bs : Option (List Byte)}
    (hread : readCoded (touched s (codedReads s c.pr g (memAddress c - g.address) (memBytes c))) (srcCamp c.camp) c.pr g
      (memAddress c - g.address) (memBytes c) false = (t, bs)) :
    doMemrd [] c s = bs.elim (.settled t) fun bs => .done (memRead c bs t) := by
  unfold doMemrd
  dsimp only
  rw [h.command (intoWindow := true) rfl]
  rw [hcoded]
  dsimp only
  rw [access_admitted hadmit]
  show (match readCoded (touched s _) (srcCamp c.camp) c.pr g (memAddress c - g.address) (memBytes c) false with
    | (s2, none) => CmdRes.settled s2
    | (s2, some bs) => CmdRes.done (memRead c bs s2)) = _
  rw [hread]
  cases bs <;> rfl

variable (hplain : codedAt s c.pr.pitch (memAddress c) = none)
include hplain

/-- A MEMRD takes data that run-ahead brought for it, where they are the memory's (R170, R171). -/
theorem MemReady.doMemrd_ahead {bs : List Byte} (hahead : aheadFor c s (daOf s c.pr (memAddress c)) (memBytes c) = some bs)
    (hsame : bs = readPitch s c.pr.pitch (memAddress c) (daOf s c.pr (memAddress c)) (memBytes c)) (hnotes : aheadNotes c s = []) :
    doMemrd [] c s = .done (memRead c bs s) := by
  unfold doMemrd
  dsimp only
  rw [h.command (intoWindow := true) rfl]
  rw [hplain]
  dsimp only
  rw [hahead, Option.filter_some, if_pos (decide_eq_true hsame), hnotes]
  rfl

/-- And otherwise it reads memory (R149). -/
theorem MemReady.doMemrd_plain (hother : aheadFor c s (daOf s c.pr (memAddress c)) (memBytes c)
      ≠ some (readPitch s c.pr.pitch (memAddress c) (daOf s c.pr (memAddress c)) (memBytes c)))
    (hadmit : CampAdmitted s c.camp [(daOf s c.pr (memAddress c), memBytes c)]) (found : List Finding) :
    doMemrd found c s = withFindings c found (touched s [(daOf s c.pr (memAddress c), memBytes c)]) fun s1 =>
      .done (memRead c (readPitch s1 c.pr.pitch (memAddress c) (daOf s c.pr (memAddress c)) (memBytes c)) s1) := by
  have hfilter : (aheadFor c s (daOf s c.pr (memAddress c)) (memBytes c)).filter (fun bs =>
      decide (bs = readPitch s c.pr.pitch (memAddress c) (daOf s c.pr (memAddress c)) (memBytes c))) = none := by
    rw [Option.filter_eq_none_iff]
    intro bs hbs heq
    exact hother (of_decide_eq_true heq ▸ hbs)
  unfold doMemrd
  dsimp only
  rw [h.command (intoWindow := true) rfl]
  rw [hplain]
  dsimp only
  rw [hfilter]
  exact access_admitted hadmit _

end

/-- A command that changes each core of the mask by its rank, and then goes on, changes nothing else. -/
theorem coresChanged_gone (u : State) (camp : Nat) (p : Program) (w : CmdWord) (f : Nat → Core → Core) :
    CoresChanged u (gone (onCores u camp (cmdCores w) fun q _ k => f q k) camp p) camp p (cmdCores w) f := by
  have hfst : (cmdCores w).zipIdx.map Prod.fst = cmdCores w := List.zipIdx_map_fst 0 (cmdCores w)
  refine ⟨?_, fun c q hc => ?_, fun c hc => ?_⟩
  · rw [OnlyCoresOf, gone, campOf_putCamp, campOf_onCores, onCores, putCamp_putCamp, eachCore_cores]
  · rw [campOf_putCamp, campOf_onCores]
    exact coreOf_eachCore _ (hfst.symm ▸ cmdCores_nodup w) hc _
  · rw [campOf_putCamp, campOf_onCores]
    exact coreOf_eachCore_of_notMem _ (hfst.symm ▸ hc) _

theorem prog_memRead (c : Ctx) (bs : List Byte) (s : State) : (campOf (memRead c bs s) c.camp).prog = (campOf s c.camp).prog := by
  rw [memRead, scatterRanks, campOf_onCores, eachCore_cores, dropAhead, campOf_putCamp]

/-! ### MEMWR -/

theorem length_gatherRanks (c : Ctx) (cores : List Nat) (o n : Nat) (s : State) : (gatherRanks c cores o n s).length = n * cores.length := by
  simp [gatherRanks, spRead, Function.comp_def, Nat.mul_comm]

section
variable {s : State} {c : Ctx} (h : MemReady s c true)
include h

/-- A MEMWR of a writable coded region encodes the cores' bytes, unless the region's fault ends it (R275 to R277). -/
theorem MemReady.doMemwr_coded {g : CodedRegion} (hcoded : codedAt s c.pr.pitch (memAddress c) = some g) (hwritable : g.writable = true)
    (hadmit : CampAdmitted s c.camp (codedWrites s c.pr g (memAddress c - g.address)
      (gatherRanks c (cmdCores c.w) (memOffset c) (memPiece c) s).length)) {t : State} {ok : Bool}
    (hwrite : writeCoded (touched s (codedWrites s c.pr g (memAddress c - g.address)
        (gatherRanks c (cmdCores c.w) (memOffset c) (memPiece c) s).length)) (srcCamp c.camp) c.pr g (memAddress c - g.address)
      (gatherRanks c (cmdCores c.w) (memOffset c) (memPiece c) s) = (t, ok)) :
    doMemwr [] c s = if ok then .done t else .settled t := by
  unfold doMemwr
  dsimp only
  rw [h.command (intoWindow := false) rfl]
  rw [hcoded, Option.filter_some, if_pos hwritable]
  dsimp only
  rw [access_admitted hadmit]
  show (match writeCoded (touched s _) (srcCamp c.camp) c.pr g (memAddress c - g.address) (gatherRanks c (cmdCores c.w) (memOffset c) (memPiece c) s) with
    | (s2, false) => CmdRes.settled s2
    | (s2, true) => CmdRes.done s2) = _
  rw [hwrite]
  cases ok <;> rfl

/-- A MEMWR of other memory stores them there (R149). -/
theorem MemReady.doMemwr_plain (hplain : ((codedAt s c.pr.pitch (memAddress c)).all fun g => !g.writable) = true)
    (hadmit : CampAdmitted s c.camp [(daOf s c.pr (memAddress c), memBytes c)]) (found : List Finding) :
    doMemwr found c s = withFindings c found (touched s [(daOf s c.pr (memAddress c), memBytes c)]) fun s1 =>
      .done (pokeBytes s1 (daOf s1 c.pr (memAddress c)) (gatherRanks c (cmdCores c.w) (memOffset c) (memPiece c) s)) := by
  have hfilter : (codedAt s c.pr.pitch (memAddress c)).filter (·.writable) = none := by
    rw [Option.filter_eq_none_iff]
    intro g hg
    rw [hg] at hplain
    simpa using hplain
  unfold doMemwr
  dsimp only
  rw [h.command (intoWindow := false) rfl]
  rw [hfilter]
  dsimp only
  rw [length_gatherRanks]
  exact access_admitted hadmit _

end

/-- Bytes gathered from the cores and put at a place stand there by rank. -/
theorem peekBytes_gathered {s t : State} {c : Ctx} {o n da : Nat} {cores : List Nat}
    (hput : t.mem.bytes = wrBytes s.mem.bytes da (gatherRanks c cores o n s)) {core q : Nat} (hcore : (core, q) ∈ cores.zipIdx) :
    peekBytes t (da + q * n) n = spRead (coreOf (campOf s c.camp) core) (cmdTask c.w) o n := by
  have hindex : cores[q]? = some core := List.mk_mem_zipIdx_iff_getElem?.1 hcore
  have hrank : (q + 1) * n ≤ cores.length * n := Nat.mul_le_mul_right n (List.getElem?_eq_some_iff.1 hindex).1
  rw [Nat.add_mul, Nat.one_mul] at hrank
  have hinside := rdBytes_inside t.mem.bytes da (i := q * n) (n := n) (k := (gatherRanks c cores o n s).length)
    (by rw [length_gatherRanks, Nat.mul_comm n]; exact hrank)
  rw [peekBytes, hinside, hput, rdBytes_wrBytes]
  exact take_drop_flatten (fun _ => length_rdBytes _ _ _) hindex

/-! ### O15 -/

/-- Settles O15: each command is ready (`MemReady`), so it comes to the transfer of its case, and the program goes on from there. -/
theorem memoryCommandsMoveTheirBytes : Obligations.MemoryCommandsMoveTheirBytes := by
  unfold Obligations.MemoryCommandsMoveTheirBytes
  refine ⟨?_, ?_⟩
  · intro s camp w r rel p hat hnext hclear hcores hlength a o l n c rs halign
    refine ⟨fun hop hwindows hplain hbound => ?_, fun hop hwindows hplain hbound hadmit => ?_⟩
    · intro now
      have hready : MemReady s c false := ⟨hclear, hcores, hlength, halign, hwindows, hbound⟩
      refine ⟨fun bs hahead hsame hnotes => ?_, fun hother hadmit => ?_⟩
      · show runCommand s camp w _ _ = _
        rw [runCommand_at hat (decide_eq_true hop), hready.doMemrd_ahead hplain hahead hsame hnotes]
        rfl
      · have hdone := hready.doMemrd_plain hplain hother hadmit
        refine ⟨runCommand_findings hat (decide_eq_true hop) hdone, _, ?_, coresChanged_gone (dropAhead c (touched s rs)) camp p w _⟩
        refine runCommand_done hat hnext (decide_eq_true hop) (f := doMemrd []) ?_ ?_
        · rw [hdone, withFindings_nil, readPitch_touched]
          rfl
        · exact (prog_memRead c now (touched s rs)).trans (by rw [campOf_touched])
    · have hready : MemReady s c true := ⟨hclear, hcores, hlength, halign, hwindows, hbound⟩
      have hdone := hready.doMemwr_plain hplain hadmit
      have hexec : exec (.cMemwr camp w []) s = .next (gone (pokeBytes (touched s rs) (daOf (touched s rs) r a)
          (gatherRanks c (cmdCores w) o (8 * l) s)) camp p) :=
        runCommand_done hat hnext (decide_eq_true hop) (hdone []) (by rw [campOf_pokeBytes, campOf_touched])
      have hbytes : (gone (pokeBytes (touched s rs) (daOf (touched s rs) r a) (gatherRanks c (cmdCores w) o (8 * l) s)) camp p).mem.bytes
          = wrBytes s.mem.bytes (daOf s r a) (gatherRanks c (cmdCores w) o (8 * l) s) := by
        rw [putCamp_mem, daOf_touched, ← bytes_touched s rs]
        rfl
      refine ⟨runCommand_findings hat (decide_eq_true hop) hdone, _, hexec, fun core q hcore => peekBytes_gathered (c := c) hbytes hcore, ?_, ?_⟩
      · rw [Nat.mul_comm (cmdCores w).length, ← length_gatherRanks c (cmdCores w) o (8 * l) s]
        exact (written_of_bytes_eq hbytes).2
      · rw [campOf_putCamp, campOf_pokeBytes, campOf_touched]
  · intro s camp w r rel p g hat hclear hcores hlength a o l c n rd wr halign hcoded
    refine ⟨fun hop hadmit hwindows hbound s1 bs hread => ?_, fun hop hadmit hwindows hbound hwritable s1 ok hwrite => ?_⟩
    · have hready : MemReady s c false := ⟨hclear, hcores, hlength, halign, hwindows, hbound⟩
      show runCommand s camp w _ _ = _
      rw [runCommand_at hat (decide_eq_true hop), hready.doMemrd_coded hcoded hadmit hread]
      cases bs <;> rfl
    · have hready : MemReady s c true := ⟨hclear, hcores, hlength, halign, hwindows, hbound⟩
      show runCommand s camp w _ _ = _
      rw [runCommand_at hat (decide_eq_true hop), hready.doMemwr_coded hcoded hwritable hadmit hwrite]
      cases ok <;> rfl

end Sys2Proof.Machine
end

section
/-! PROOF. O25: programs start, and slots fill and drain (R146, R156, R158, R164, R165, R176, R185, R209). -/

namespace Sys2Proof.Machine

/-! ### What a write of the Ranger leaves of a camp -/

/-- From `s` to `t` a camp changes at most in what it waits for and in the data that run-ahead has brought. -/
abbrev CampRuns (s t : State) (c : Nat) : Prop :=
  campOf t c = { campOf s c with blocked := (campOf t c).blocked, ahead := (campOf t c).ahead }

theorem pokeBytes_campRuns (s : State) (da : Nat) (bs : List Byte) (c : Nat) : CampRuns s (pokeBytes s da bs) c := by
  rw [CampRuns, campOf_pokeBytes]

theorem releaseBlocked_campRuns (s : State) (p : Nat) (f : WaitReason → Bool) (c : Nat) : CampRuns s (releaseBlocked s p f) c := by
  simp only [CampRuns, campOf, mgetD, releaseBlocked, mget_mmap]
  cases mget s.camps c with
  | none => rfl
  | some x =>
    dsimp only [Option.map_some, Option.getD_some]
    split
    · split <;> rfl
    · rfl

theorem CampRuns.trans {s t u : State} {c : Nat} (h₁ : CampRuns s t c) (h₂ : CampRuns t u c) : CampRuns s u c := by
  rw [CampRuns] at *
  rw [h₂, h₁]

/-! ### PROGRAM_START -/

section
variable {s : State} {r : PitchRecord} {n : Nat}

theorem writeTable_campRuns (c : Nat) : CampRuns s (writeTable s r n) c := by
  unfold writeTable
  split
  · rfl
  · split
    · exact (pokeBytes_campRuns s _ _ c).trans (releaseBlocked_campRuns _ _ _ c)
    · rfl

theorem readySyncs_putSlot (s : State) (q n : Nat) (x : Slot) (p : Nat) : (pitchOf (putSlot s q n x) p).readySyncs = (pitchOf s p).readySyncs := by
  by_cases hp : p = q
  · rw [hp, putSlot, pitchOf_onPitch]
  · rw [putSlot, pitchOf_onPitch_ne _ _ hp]

theorem readySyncs_writeTable (p : Nat) : (pitchOf (writeTable s r n) p).readySyncs = (pitchOf s p).readySyncs := by
  unfold writeTable
  split
  · rfl
  · split
    · exact readySyncs_putSlot (pokeBytes s _ _) _ _ _ p
    · rfl

/-- The table's slot, where it is EMPTY, takes the bytes of the step's length table and is FULL (R176, R185). -/
theorem writeTable_empty {x : Slot} (hslot : slotOf s r n = some x) (hempty : x.state = .empty) :
    (∃ y, slotOf (writeTable s r n) r n = some y ∧ y.state = .full)
      ∧ (writeTable s r n).mem.bytes = wrBytes s.mem.bytes (slotDa s r x) ((tableBytes s (pitchOf s r.pitch).batch).take x.size) := by
  simp only [writeTable, hslot, hempty]
  exact ⟨⟨_, slotOf_putSlot_same (s := pokeBytes s _ _) hslot _, rfl⟩, rfl⟩

end

theorem startCore_fresh : startCore Core.fresh = Core.fresh := rfl

theorem coreOf_mmap_startCore (c : Camp) (core : Nat) :
    mgetD (mmap c.cores fun _ x => startCore x) core Core.fresh = startCore (coreOf c core) := by
  rw [coreOf, mgetD, mgetD, mget_mmap]
  cases mget c.cores core with
  | none => exact startCore_fresh.symm
  | some k => rfl

/-- The camp, and the objects of the layers' chunk lists, before the length table is written (R146, R176, R217). -/
abbrev started (s : State) (r : PitchRecord) (camp : Nat) (p : Program) (ready : NMap Nat) : State :=
  onPitch (putCamp s camp { campOf s camp with prog := some p, blocked := none, stream := none, cfg := none, ahead := [],
                                               cores := mmap (campOf s camp).cores fun _ x => startCore x }) r.pitch
    fun x => { x with readySyncs := ready.foldl (fun m y => mset m y.1 y.2) x.readySyncs }

section
variable {s : State} {r : PitchRecord} {camp : Nat} {p : Program} {ready : NMap Nat}

theorem started_keepsHomes : KeepsHomes s (started s r camp p ready) :=
  KeepsHomes.trans (t := putCamp s camp _) (.of_eq rfl rfl) (onPitch_keepsHomes _ _ rfl)

theorem slotOf_started (n : Nat) : slotOf (started s r camp p ready) r n = slotOf s r n := by
  simp [slotOf]

theorem batch_started : (pitchOf (started s r camp p ready) r.pitch).batch = (pitchOf s r.pitch).batch := by
  rw [started, pitchOf_onPitch, pitchOf_putCamp]

theorem campOf_started : campOf (started s r camp p ready) camp =
    { campOf s camp with prog := some p, blocked := none, stream := none, cfg := none, ahead := [], cores := mmap (campOf s camp).cores fun _ x => startCore x } :=
  campOf_putCamp s camp _

end

/-- In a step with no repair due, an idle camp in service starts a program that the package gives it (R146, R176, R459). -/
theorem startProgram_starts {s : State} {r : PitchRecord} {camp rel first slot : Nat} {k : LoadedProgram} (params : List Word) (ready : NMap Nat)
    (hin : (pitchOf s r.pitch).inStep = true) (hrep : (pitchOf s r.pitch).repairs = []) (hprog : (campOf s camp).prog = none)
    (hfenced : (campOf s camp).fenced = false) (hmem : rel ∈ k.camps) (hfirst : first < k.commands) :
    startProgram s r camp rel k first slot params ready
      = writeTable (started s r camp ⟨k.program, k.base, k.commands, first, slot, params, startLimit k, []⟩ ready) r slot := by
  unfold startProgram
  dsimp only
  rw [if_neg (by simp [hin, hrep, hprog, hfenced, hmem]), if_neg (by omega)]

/-! ### The append slot (R209) -/

/-- The bytes that a token's rows leave in memory depend on the memory and on where the pitch's addresses lie. -/
theorem bytes_putToken {s t : State} (r : PitchRecord) (hbytes : t.mem.bytes = s.mem.bytes) (hhomes : KeepsHomes s t)
    (base tag heads d k : Nat) (rows : List Byte) :
    (putToken t r base tag heads d k rows).mem.bytes = (putToken s r base tag heads d k rows).mem.bytes := by
  refine (List.foldl_rel (r := fun (u v : State) => u.mem.bytes = v.mem.bytes ∧ KeepsHomes v u) ⟨hbytes, hhomes⟩ ?_).1
  intro h _ u v ⟨hb, hk⟩
  refine ⟨?_, hk.cfg, hk.camps⟩
  dsimp only [pokeBytes]
  rw [hb, hk.daOf, hk.daOf]

theorem seqOf_putToken (s : State) (r : PitchRecord) (base tag heads d k : Nat) (rows : List Byte) (i : Nat) :
    seqOf (putToken s r base tag heads d k rows) i = seqOf s i := by
  unfold putToken
  exact List.foldlRecOn _ _ (motive := fun u => seqOf u i = seqOf s i) rfl fun u hu _ _ => hu

/-- A layer whose staging holds tokens already has a buffer and a tag (R208, R209). -/
theorem openStaging_open {s : State} {i j tag len : Nat} {z : LayerState} (hlayer : (seqOf s i).layers[j]? = some z) (hplace : z.staging.address ≠ 0)
    (hstaged : z.staging.staged ≠ 0) : openStaging s i j tag len = some (onSeq s i fun e => { e with layers := e.layers.set j z }) := by
  simp only [openStaging, hlayer]
  rw [if_pos hplace, if_neg hstaged]

theorem getElem?_set_getElem? {α : Type} {l : List α} {j : Nat} {z : α} (h : l[j]? = some z) (y : α) : (l.set j y)[j]? = some y := by
  rw [List.getElem?_set_self (List.getElem?_eq_some_iff.1 h).1]

/-- One token after tokens that are staged, where it does not fill the page: its rows stand in the buffer, and the count rises (R209). -/
theorem appendTokens_one {s : State} {r : PitchRecord} {i layer j heads d : Nat} {z : LayerState} (hlayer : (seqOf s i).layers[j]? = some z)
    (hplace : z.staging.address ≠ 0) (hstaged : z.staging.staged ≠ 0) (hroom : z.staging.staged < 255) (rows : List Byte) :
    ∃ u, appendTokens r i layer j heads d [rows] s = some u
      ∧ u.mem.bytes = (putToken s r (stagingBase z (stagingHalf heads d)) z.staging.tag heads d z.staging.staged rows).mem.bytes
      ∧ (seqOf u i).layers[j]?.map (·.staging.staged) = some (z.staging.staged + 1) := by
  have hopen : (seqOf (onSeq s i fun e => { e with layers := e.layers.set j z }) i).layers[j]? = some z := by
    rw [seqOf_onSeq]
    exact getElem?_set_getElem? hlayer z
  refine ⟨_, by rw [appendTokens, openStaging_open hlayer hplace hstaged]; simp only [hopen]; rw [if_neg (by omega), appendTokens], ?_, ?_⟩
  · show (putToken (onSeq s i _) r _ _ _ _ _ _).mem.bytes = _
    exact bytes_putToken (s := s) (t := onSeq s i _) r rfl (.of_eq rfl rfl) _ _ _ _ _ _
  · rw [onLayerAt, seqOf_onSeq, seqOf_putToken]
    simp only [hopen]
    rw [getElem?_set_getElem? hopen, Option.map_some]

/-- In a step of one row with one token the append is that token's (R209). -/
theorem appendSlotFull_one {s u : State} {r : PitchRecord} {x : Slot} {l : LayerImage} {m : MicroRow} {z : LayerState}
    (happend : appendSlotFull s r x l = (u, true)) (hbatch : (pitchOf s r.pitch).batch = [m]) (htokens : m.newTokens = 1)
    (hlayer : (seqOf s m.seq).layers[layerIndex s r.pitch l.layer]? = some z) (hplace : z.staging.address ≠ 0) (hstaged : z.staging.staged ≠ 0)
    (hroom : z.staging.staged < 255) :
    let size := l.kvHeads * (keyRowBytes z.staging.tag l.headDim + valueRowBytes z.staging.tag l.headDim)
    u.mem.bytes = (putToken s r (stagingBase z (stagingHalf l.kvHeads l.headDim)) z.staging.tag l.kvHeads l.headDim z.staging.staged
        (((peekBytes s (slotDa s r x) x.size).drop (size * m.tokenBase)).take size)).mem.bytes
      ∧ (seqOf u m.seq).layers[layerIndex s r.pitch l.layer]?.map (·.staging.staged) = some (z.staging.staged + 1) := by
  intro size
  have htag : (seqOf s m.seq).layers.getD (layerIndex s r.pitch l.layer) LayerState.fresh = z := by
    rw [List.getD_eq_getElem?_getD, hlayer, Option.getD_some]
  obtain ⟨v, hv, hbytes, hcount⟩ := appendTokens_one (r := r) (layer := l.layer) (heads := l.kvHeads) (d := l.headDim) hlayer hplace hstaged hroom
    (((peekBytes s (slotDa s r x) x.size).drop (size * m.tokenBase)).take size)
  have hrows : appendRows r l.layer (layerIndex s r.pitch l.layer) l.kvHeads l.headDim (peekBytes s (slotDa s r x) x.size) [m] s = .ok v := by
    simp only [appendRows, htag, if_neg hstaged, htokens]
    exact hv ▸ rfl
  rw [appendSlotFull, hbatch, hrows] at happend
  obtain ⟨rfl, -⟩ := Prod.mk.inj happend
  exact ⟨hbytes, hcount⟩

/-! ### SLOT_FILLED and SLOT_DRAINED -/

/-- A slot that a transfer's end puts leaves every other slot, and lets the waits for it go on (R158, R164). -/
theorem putSlot_released {s : State} {r : PitchRecord} {n : Nat} {x : Slot} (hslot : slotOf s r n = some x) (y : Slot) (f : WaitReason → Bool) :
    let t := releaseBlocked (putSlot s r.pitch n y) r.pitch f
    slotOf t r n = some y ∧ (∀ m, m ≠ n → slotOf t r m = slotOf s r m) ∧ t = { s with camps := t.camps, pitches := t.pitches }
      ∧ ∀ c b, (campOf s c).blocked = some b → f b.reason = true → campIn s r.pitch c = true → (campOf t c).blocked = some { b with ready := true } := by
  refine ⟨slotOf_putSlot_same hslot y, fun m hm => slotOf_putSlot_ne s r y hm, rfl, fun c b hblocked hreason hin => ?_⟩
  refine blocked_releaseBlocked (s := putSlot s r.pitch n y) hblocked hreason ?_
  rw [(putSlot_keepsHomes s r.pitch n y).campIn, hin]

section
variable {s : State} {r : PitchRecord} {n : Nat} {x : Slot}

/-- What the last transfer of a closing write to an append slot does, once its reads are admitted. -/
theorem doSlotFilled_append {l : LayerImage} (hslot : slotOf s r n = some x) (hfilling : x.state = .filling) (hclosing : x.closing = true)
    (happend : appendLayer s r.pitch n = some l) {found : List Finding} (hgo : found.any (findingWaits s false) = false)
    (hadmit : Admitted s (appendRanges s (appendSlotFull s r x l).1 r x l.layer)) :
    doSlotFilled s r n found =
      let s0 := rangerFindings r.pitch found (touched s (appendRanges s (appendSlotFull s r x l).1 r x l.layer))
      if found.any stopsCommand ∨ (found ≠ [] ∧ slotOf s0 r n ≠ some x) then s0
      else
        let u := appendSlotFull s0 r x l
        if u.2 then fillDone u.1 r.pitch n (releaseSlot (filled x) engineReader) else u.1 := by
  simp only [doSlotFilled, hslot]
  rw [if_pos ⟨hfilling, hclosing⟩]
  simp only [happend]
  rw [rangerReads, hgo, if_neg Bool.false_ne_true, rangerAccess_admitted hadmit]

theorem doSlotFilled_plain (hslot : slotOf s r n = some x) (hfilling : x.state = .filling) (hclosing : x.closing = true)
    (happend : appendLayer s r.pitch n = none) : doSlotFilled s r n [] = fillDone s r.pitch n (filled x) := by
  simp only [doSlotFilled, hslot]
  rw [if_pos ⟨hfilling, hclosing⟩]
  simp only [happend]

theorem doSlotDrained_draining (hslot : slotOf s r n = some x) (hdraining : x.state = .draining) : doSlotDrained s r n =
    releaseBlocked (putSlot s r.pitch n { x with state := .empty, released := [] }) r.pitch fun w => decide (w = .slotWrite n) := by
  simp only [doSlotDrained, hslot]
  rw [if_pos hdraining]

end

@[simp] theorem pitchOf_touched (s : State) (rs : List (Nat × Nat)) (p : Nat) : pitchOf (touched s rs) p = pitchOf s p := by
  obtain ⟨us, late, h⟩ := touchUnits_eq (unitsAsked s rs) s
  rw [touched, h]
  rfl

@[simp] theorem seqOf_touched (s : State) (rs : List (Nat × Nat)) (i : Nat) : seqOf (touched s rs) i = seqOf s i := by
  obtain ⟨us, late, h⟩ := touchUnits_eq (unitsAsked s rs) s
  rw [touched, h]
  rfl

theorem touched_keepsHomes (s : State) (rs : List (Nat × Nat)) : KeepsHomes s (touched s rs) := by
  obtain ⟨us, late, h⟩ := touchUnits_eq (unitsAsked s rs) s
  rw [touched, h]
  exact .of_eq rfl rfl

theorem layerIndex_touched (s : State) (rs : List (Nat × Nat)) (p layer : Nat) : layerIndex (touched s rs) p layer = layerIndex s p layer := by
  obtain ⟨us, late, h⟩ := touchUnits_eq (unitsAsked s rs) s
  rw [touched, h]
  rfl

/-! ### O25 -/

theorem exec_slotFilled {s : State} {r : PitchRecord} (hpitch : r.pitch < 64) (hrecord : recordOf s r.pitch = some r) (n : Nat) (found : List Finding) :
    exec (.slotFilled r.pitch n found) s = .next (doSlotFilled s r n found) := by
  have hok : pitchOk r.pitch = true := decide_eq_true hpitch
  show execSlotFilled r.pitch n found s = _
  rw [execSlotFilled, if_pos hok, hrecord]

theorem exec_slotDrained {s : State} {r : PitchRecord} (hpitch : r.pitch < 64) (hrecord : recordOf s r.pitch = some r) (n : Nat) :
    exec (.slotDrained r.pitch n) s = .next (doSlotDrained s r n) := by
  have hok : pitchOk r.pitch = true := decide_eq_true hpitch
  show execSlotDrained r.pitch n s = _
  rw [execSlotDrained, if_pos hok, hrecord]

theorem exec_programStart {s : State} {r : PitchRecord} {camp rel program first slot : Nat} {k : LoadedProgram} (params : List Word) (ready : NMap Nat)
    (hcamp : camp < 20000) (hpitch : r.pitch < 64) (hhome : homeOf s camp = some (r, rel))
    (hprogram : ((pitchOf s r.pitch).package.bind fun g => g.programs.find? fun x => decide (x.program = program) && x.camps.contains rel) = some k)
    (hprog : (campOf s camp).prog = none) (hfenced : (campOf s camp).fenced = false) (hfirst : first < k.commands)
    (hin : (pitchOf s r.pitch).inStep = true) (hrep : (pitchOf s r.pitch).repairs = []) :
    exec (.programStart r.pitch camp program first slot params ready) s
      = .next (writeTable (started s r camp ⟨k.program, k.base, k.commands, first, slot, params, startLimit k, []⟩ ready) r slot) := by
  have hok : campOk camp = true ∧ pitchOk r.pitch = true := ⟨decide_eq_true hcamp, decide_eq_true hpitch⟩
  have hrel : rel ∈ k.camps := by
    obtain ⟨g, -, hfind⟩ := Option.bind_eq_some_iff.1 hprogram
    have hk := List.find?_some hfind
    rw [Bool.and_eq_true, List.contains_iff_mem] at hk
    exact hk.2
  show execProgramStart r.pitch camp program first slot params ready s = _
  rw [execProgramStart, if_pos hok]
  simp only [hhome, hprogram]
  rw [if_pos trivial, startProgram_starts params ready hin hrep hprog hfenced hrel hfirst]

/-- Settles O25: PROGRAM_START writes the camp, then the length table, which leaves the program; a transfer's end puts its slot and releases its waits. -/
theorem programsStartAndSlotsFill : Obligations.ProgramsStartAndSlotsFill := by
  unfold Obligations.ProgramsStartAndSlotsFill
  refine ⟨?_, ?_⟩
  · rintro s pitch camp program first slot params ready r rel k hcamp hpitch hhome rfl hprogram hprog hfenced hfirst hin hrep
    let s0 := started s r camp ⟨k.program, k.base, k.commands, first, slot, params, startLimit k, []⟩ ready
    have hruns : CampRuns s0 (writeTable s0 r slot) camp := writeTable_campRuns camp
    rw [CampRuns, campOf_started] at hruns
    refine ⟨writeTable s0 r slot, exec_programStart params ready hcamp hpitch hhome hprogram hprog hfenced hfirst hin hrep, ?_⟩
    refine ⟨?_, by rw [hruns, startLimit], by rw [hruns], by rw [hruns], by rw [hruns], fun c => ?_, fun x hx hempty => ?_⟩
    · rw [readySyncs_writeTable, pitchOf_onPitch, pitchOf_putCamp]
    · rw [hruns]
      exact coreOf_mmap_startCore _ c
    · obtain ⟨⟨y, hy, hfull⟩, hbytes⟩ := writeTable_empty (s := s0) ((slotOf_started slot).trans hx) hempty
      rw [started_keepsHomes.slotDa, batch_started] at hbytes
      exact ⟨y, hy, hfull, written_of_bytes_eq hbytes⟩
  · rintro s pitch n r x hpitch hrecord rfl hslot
    refine ⟨?_, fun hfilling hclosing happend => ?_, fun hdraining => ?_⟩
    · intro hfilling hclosing l happend rs hadmit
      refine ⟨fun found hstops hgo => ?_, fun u hu => ⟨?_, fun m z hbatch htokens hlayer hplace hstaged hroom => ?_⟩⟩
      · rw [exec_slotFilled hpitch hrecord, doSlotFilled_append hslot hfilling hclosing happend hgo hadmit]
        exact congrArg Host.Outcome.next (if_pos (.inl hstops))
      · rw [exec_slotFilled hpitch hrecord, doSlotFilled_append hslot hfilling hclosing happend rfl hadmit]
        dsimp only [rangerFindings]
        rw [if_neg (by simp)]
        exact hu ▸ rfl
      · have hone := appendSlotFull_one hu (z := z) (by rwa [pitchOf_touched]) htokens (by rwa [seqOf_touched, layerIndex_touched]) hplace (by omega) hroom
        rw [layerIndex_touched, slotDa_touched, peekBytes_touched] at hone
        exact ⟨hone.1.trans (bytes_putToken r (bytes_touched s rs) (touched_keepsHomes s rs) _ _ _ _ _ _), hone.2⟩
    · obtain ⟨hput, hother, hframe, hwaits⟩ := putSlot_released hslot (filled x) fun w => decide (w = .slotRead n ∨ w = .fence)
      refine ⟨fillDone s r.pitch n (filled x), ?_, hput, hother, hframe, ?_⟩
      · rw [exec_slotFilled hpitch hrecord, doSlotFilled_plain hslot hfilling hclosing happend]
      · exact fun c b hblocked hreason hcamp => hwaits c b hblocked (decide_eq_true (.inl hreason)) hcamp
    · obtain ⟨hput, hother, hframe, hwaits⟩ := putSlot_released hslot { x with state := .empty, released := [] } fun w => decide (w = .slotWrite n)
      refine ⟨_, ?_, hput, hother, hframe, fun c b hblocked hreason hcamp => hwaits c b hblocked (decide_eq_true hreason) hcamp⟩
      rw [exec_slotDrained hpitch hrecord, doSlotDrained_draining hslot hdraining]

end Sys2Proof.Machine
end

section
/-! SUPPORT. What a step boundary sets, and the operations over pages, sequences, requests and links that leave it (R29, R156, R160, R161, R362, R453). -/

namespace Sys2Proof.Machine

/-! ### The part of the state that a boundary sets -/

/-- The fields of a pitch that tell the step it is in, the group step, and where its camps are. -/
structure StepView where
  inStep : Bool
  batch : List MicroRow
  chosen : List Chosen
  stepCount : Nat
  syncs : NMap Sync
  slots : NMap Slot
  campOf : NMap Nat
  reports : List Nat
  groupStep : Nat
  nextTick : Option Nat

/-- These fields of a pitch. -/
def stepView (x : Pitch) : StepView :=
  ⟨x.inStep, x.batch, x.chosen, x.stepCount, x.syncs, x.slots, x.campOf, x.reports, x.groupStep, x.nextTick⟩

/-- Besides them a boundary sets the cores of the pitch's camps and the checkpoints; it reads the configuration and the clock. -/
structure StepPart where
  cfg : Option Configuration
  cairn : Cairn
  ranger : Ranger
  cores : Nat → NMap Core
  views : Nat → StepView

/-- That part of a state. -/
def stepPart (s : State) : StepPart := ⟨s.cfg, s.cairn, s.ranger, fun c => (campOf s c).cores, fun p => stepView (pitchOf s p)⟩

section
variable {s t : State}

theorem stepPart_congr (hcfg : t.cfg = s.cfg) (hcairn : t.cairn = s.cairn) (hranger : t.ranger = s.ranger)
    (hcores : ∀ c, (campOf t c).cores = (campOf s c).cores) (hviews : ∀ p, stepView (pitchOf t p) = stepView (pitchOf s p)) :
    stepPart t = stepPart s := by
  rw [stepPart, hcfg, hcairn, hranger, funext hcores, funext hviews, stepPart]

variable (h : stepPart t = stepPart s)
include h

theorem cfg_of_stepPart : t.cfg = s.cfg := congrArg StepPart.cfg h

theorem cairn_of_stepPart : t.cairn = s.cairn := congrArg StepPart.cairn h

theorem ranger_of_stepPart : t.ranger = s.ranger := congrArg StepPart.ranger h

theorem cores_of_stepPart (c : Nat) : (campOf t c).cores = (campOf s c).cores := congrFun (congrArg StepPart.cores h) c

theorem stepView_of_stepPart (p : Nat) : stepView (pitchOf t p) = stepView (pitchOf s p) := congrFun (congrArg StepPart.views h) p

theorem keepsHomes_of_stepPart : KeepsHomes s t := ⟨cfg_of_stepPart h, fun p => congrArg StepView.campOf (stepView_of_stepPart h p)⟩

end

/-- A change of a pitch that leaves these fields. -/
theorem stepPart_onPitch (s : State) (p : Nat) {f : Pitch → Pitch} (hf : ∀ x, stepView (f x) = stepView x := by exact fun _ => rfl) :
    stepPart (onPitch s p f) = stepPart s := by
  refine stepPart_congr rfl rfl rfl (fun _ => rfl) fun q => ?_
  by_cases hq : q = p
  · rw [hq, pitchOf_onPitch, hf]
  · rw [pitchOf_onPitch_ne _ _ hq]

/-- A choice between a state and what an operation makes of it. -/
theorem stepPart_ite {q : Prop} [Decidable q] {s t u : State} (ht : stepPart t = stepPart s) (hu : stepPart u = stepPart s) :
    stepPart (if q then t else u) = stepPart s := by
  split
  · exact ht
  · exact hu

/-! ### Events, outputs, sequences and requests -/

section
variable (s : State)

@[simp] theorem stepPart_onSeq (i : Nat) (f : SeqEntry → SeqEntry) : stepPart (onSeq s i f) = stepPart s := rfl

@[simp] theorem stepPart_putSeq (i : Nat) (e : SeqEntry) : stepPart (putSeq s i e) = stepPart s := rfl

@[simp] theorem stepPart_onReq (rid : Nat) (f : Request → Request) : stepPart (onReq s rid f) = stepPart s := rfl

@[simp] theorem stepPart_send (o : Output) : stepPart (send s o) = stepPart s := rfl

@[simp] theorem stepPart_putFn (fn : Nat) (f : Function) : stepPart (putFn s fn f) = stepPart s := rfl

@[simp] theorem stepPart_putLink (l : Nat) (k : Link) : stepPart (putLink s l k) = stepPart s := rfl

@[simp] theorem stepPart_putSession (n : Nat) (x : Session) : stepPart (putSession s n x) = stepPart s := rfl

@[simp] theorem stepPart_raiseInterrupt (fn vector : Nat) : stepPart (raiseInterrupt s fn vector) = stepPart s := by
  unfold raiseInterrupt
  dsimp only
  exact stepPart_ite (stepPart_ite rfl rfl) rfl

@[simp] theorem stepPart_appendCritical (e : EventRec) : stepPart (appendCritical s e) = stepPart s := by
  unfold appendCritical
  dsimp only
  exact stepPart_ite rfl (stepPart_ite rfl rfl)

@[simp] theorem stepPart_writeEvent (source cls code pitch : Nat) (detail : List Byte) : stepPart (writeEvent s source cls code pitch detail) = stepPart s := by
  unfold writeEvent
  dsimp only
  exact stepPart_ite ((stepPart_raiseInterrupt _ _ _).trans (stepPart_ite (stepPart_appendCritical _ _) rfl))
    (stepPart_ite (stepPart_appendCritical _ _) rfl)

@[simp] theorem stepPart_rangerEvent (cls code pitch : Nat) (detail : List Byte) : stepPart (rangerEvent s cls code pitch detail) = stepPart s :=
  stepPart_writeEvent _ _ _ _ _ _

/-! ### Completions (R337 to R342, R347 to R351) -/

@[simp] theorem stepPart_writeEntry (fn ring : Nat) (k : Ring) (bytes : List Byte) (int : Bool) :
    stepPart (writeEntry s fn ring k bytes int) = stepPart s := by
  unfold writeEntry
  dsimp only
  exact stepPart_ite (by simp) (by simp)

@[simp] theorem stepPart_postRing (fn ring : Nat) (bytes : List Byte) (int : Bool) : stepPart (postRing s fn ring bytes int) = stepPart s := by
  unfold postRing
  dsimp only
  split
  · rfl
  · exact stepPart_ite (by simp) (by simp)

@[simp] theorem stepPart_solicit (h : FrameHead) : stepPart (solicit s h) = stepPart s := stepPart_ite rfl rfl

@[simp] theorem stepPart_sendMessage (n type : Nat) (body : List Byte) : stepPart (sendMessage s n type body) = stepPart s := by
  simp [sendMessage]

@[simp] theorem stepPart_sendComplete (n : Nat) (body : List Byte) : stepPart (sendComplete s n body) = stepPart s :=
  stepPart_ite (by simp) (by simp)

@[simp] theorem stepPart_sendTokens (n : Nat) (bytes : List Byte) (k : Nat) (tokens : List Nat) : stepPart (sendTokens n bytes k tokens s) = stepPart s := by
  induction k generalizing bytes tokens s with
  | zero => rfl
  | succ k ih => exact stepPart_ite (by simp) (by simp [ih])

@[simp] theorem stepPart_answer (o : Origin) (int : Bool) (bytes : List Byte) (tokens : List Nat) : stepPart (answer s o int bytes tokens) = stepPart s := by
  cases o with
  | ring fn ring => exact stepPart_postRing s fn ring bytes int
  | session n => exact stepPart_sendTokens s n bytes _ tokens
  | device => rfl

@[simp] theorem stepPart_finish (q : Request) (result endCode handle value : Nat) : stepPart (finish s q result endCode handle value) = stepPart s :=
  stepPart_answer _ _ _ _ _

@[simp] theorem stepPart_endQueued (l : List Request) : stepPart (endQueued l s) = stepPart s := by
  induction l generalizing s with
  | nil => rfl
  | cons q l ih => simp [endQueued, ih]

@[simp] theorem stepPart_endHeld (result : Nat) (l : List Request) : stepPart (endHeld result l s) = stepPart s := by
  induction l generalizing s with
  | nil => rfl
  | cons q l ih => simp [endHeld, ih]

/-! ### Links (R361, R390 to R398) -/

@[simp] theorem stepPart_noteSent (pkt : List Byte) : stepPart (noteSent s pkt) = stepPart s := by
  unfold noteSent
  refine stepPart_ite ?_ rfl
  split <;> rfl

@[simp] theorem stepPart_sendData (l vc : Nat) (first : Bool) (payload : List Byte) : stepPart (sendData s l vc first payload) = stepPart s := by
  unfold sendData
  split <;> rfl

@[simp] theorem stepPart_sendFlit (y : Live) (i : Nat) : stepPart (sendFlit s y i) = stepPart s := by
  unfold sendFlit
  dsimp only
  split
  · rfl
  · exact stepPart_sendData _ _ _ _ _

theorem stepPart_flitOf {live : List Live} {xs : List Startable} {p : Nat} {x : State × Live} (h : flitOf s live xs p = some x) :
    stepPart x.1 = stepPart s := by
  unfold flitOf at h
  split at h
  · obtain rfl := Option.some.inj h
    rfl
  · obtain ⟨y, -, rfl⟩ := Option.map_eq_some_iff.1 h
    exact stepPart_noteSent _ _

@[simp] theorem stepPart_pumpN (n : Nat) (live : List Live) : stepPart (pumpN n live s) = stepPart s := by
  induction n generalizing live s with
  | zero => rfl
  | succ n ih =>
    unfold pumpN
    dsimp only
    split
    · rfl
    · split
      · rfl
      · next hflit => exact (ih _ _).trans ((stepPart_sendFlit _ _ _).trans (stepPart_flitOf s hflit))

@[simp] theorem stepPart_sendPeer (r : PitchRecord) (device : Nat) (msg : List Byte) : stepPart (sendPeer s r device msg) = stepPart s :=
  stepPart_pumpN _ _ _

@[simp] theorem stepPart_tellGroup (p : Nat) (d : LeadDecision) : stepPart (tellGroup s p d) = stepPart s := by
  unfold tellGroup
  split
  · rfl
  · exact stepPart_ite (stepPart_onPitch s p) rfl

/-! ### Holds and parks (R311 to R316, R336) -/

@[simp] theorem stepPart_endPark (i result value : Nat) (silent : Bool) : stepPart (endPark s i result value silent) = stepPart s := by
  unfold endPark
  dsimp only
  split
  · rfl
  · split
    · simp
    · exact stepPart_ite (stepPart_rangerEvent (putSeq s i _) _ _ _ _) (by simp)

@[simp] theorem stepPart_losePark (i : Nat) : stepPart (losePark s i) = stepPart s := stepPart_ite (by simp) (by simp)

@[simp] theorem stepPart_holdSeq (i cause result : Nat) : stepPart (holdSeq s i cause result) = stepPart s := by
  have hlost : stepPart (if cause = 4 then losePark s i else s) = stepPart s := stepPart_ite (stepPart_losePark s i) rfl
  unfold holdSeq
  dsimp only
  refine stepPart_ite hlost ?_
  split
  · rw [stepPart_endHeld]
    exact stepPart_ite hlost ((stepPart_rangerEvent _ _ _ _ _).trans hlost)
  · rw [stepPart_endHeld, stepPart_finish, stepPart_rangerEvent, stepPart_putSeq]
    exact hlost

@[simp] theorem stepPart_abortPark (i result value : Nat) (silent : Bool) : stepPart (abortPark s i result value silent) = stepPart s := by
  unfold abortPark
  dsimp only
  split
  · rfl
  · exact stepPart_ite (by simp) (by simp)

@[simp] theorem stepPart_devicePark (r : PitchRecord) (i : Nat) : stepPart (devicePark s r i) = stepPart s := by
  unfold devicePark
  refine stepPart_ite rfl ?_
  dsimp only
  cases runningReq s i with
  | none => exact stepPart_ite (by simp) (by simp)
  | some q => exact stepPart_ite (by simp) (by simp)

@[simp] theorem stepPart_deviceParks (r : PitchRecord) (l : List Nat) : stepPart (deviceParks r l s) = stepPart s := by
  induction l generalizing s with
  | nil => rfl
  | cons i l ih => simp [deviceParks, ih]

/-- The parks of marked sequences leave what the boundary has set (R316). -/
@[simp] theorem stepPart_parkMarked (r : PitchRecord) : stepPart (parkMarked s r) = stepPart s := stepPart_deviceParks _ _ _

end

end Sys2Proof.Machine
end

section
/-! SUPPORT. The operations over space, pages, tree and commits leave what a step boundary sets (R209 to R213, R222 to R224, R229 to R232, R374). -/

namespace Sys2Proof.Machine

section
variable (s : State)

/-! ### Space and pages -/

theorem cores_pokeBytes (da : Nat) (bs : List Byte) (c : Nat) : (campOf (pokeBytes s da bs) c).cores = (campOf s c).cores := by
  rw [campOf_pokeBytes]

@[simp] theorem stepPart_pokeBytes (da : Nat) (bs : List Byte) : stepPart (pokeBytes s da bs) = stepPart s :=
  stepPart_congr rfl rfl rfl (cores_pokeBytes s da bs) fun _ => rfl

@[simp] theorem stepPart_freeRange (p a : Nat) : stepPart (freeRange s p a) = stepPart s := by
  unfold freeRange
  split
  · exact stepPart_onPitch s p (f := fun x => { x with allocated := mdel x.allocated a })
  · rfl

@[simp] theorem stepPart_freeIf (p a : Nat) : stepPart (freeIf s p a) = stepPart s := stepPart_ite rfl (stepPart_freeRange s p a)

@[simp] theorem stepPart_putPage (p n : Nat) (g : Page) : stepPart (putPage s p n g) = stepPart s := stepPart_onPitch s p

@[simp] theorem stepPart_freePage (p n : Nat) : stepPart (freePage s p n) = stepPart s := by
  unfold freePage
  exact (stepPart_onPitch _ p).trans (by simp)

@[simp] theorem stepPart_dropRef (p n : Nat) : stepPart (dropRef s p n) = stepPart s :=
  stepPart_ite (stepPart_ite (by simp) (by simp)) (by simp)

@[simp] theorem stepPart_dropRefs (p : Nat) (l : List Nat) : stepPart (dropRefs p l s) = stepPart s := by
  induction l generalizing s with
  | nil => rfl
  | cons n l ih => simp [dropRefs, ih]

@[simp] theorem stepPart_addRefs (p : Nat) (l : List Nat) : stepPart (addRefs p l s) = stepPart s := by
  induction l generalizing s with
  | nil => rfl
  | cons n l ih => simp [addRefs, ih]

@[simp] theorem stepPart_freePlaces (p : Nat) (l : List Nat) : stepPart (freePlaces p l s) = stepPart s := by
  induction l generalizing s with
  | nil => rfl
  | cons a l ih => simp [freePlaces, ih]

@[simp] theorem stepPart_freeStagings (p : Nat) (l : List LayerState) : stepPart (freeStagings p l s) = stepPart s := by
  induction l generalizing s with
  | nil => rfl
  | cons x l ih => simp [freeStagings, ih]

@[simp] theorem stepPart_freeLists (p : Nat) (l : List Chosen) : stepPart (freeLists p l s) = stepPart s := by
  induction l generalizing s with
  | nil => rfl
  | cons c l ih =>
    rw [freeLists, ih]
    split
    · rfl
    · exact stepPart_freeRange s p _

@[simp] theorem stepPart_removeNode (p n : Nat) : stepPart (removeNode s p n) = stepPart s := by
  unfold removeNode
  split
  · rfl
  · rw [stepPart_dropRefs, stepPart_freeRange]
    exact stepPart_onPitch s p

@[simp] theorem stepPart_removeIdle (p k : Nat) : stepPart (removeIdle s p k) = stepPart s := by
  simp [removeIdle]

@[simp] theorem stepPart_dropHot (p n : Nat) : stepPart (dropHot s p n) = stepPart s := by
  simp [dropHot]

@[simp] theorem stepPart_nodeUsers (p : Nat) (node : Option Nat) (f : Nat → Nat) : stepPart (nodeUsers s p node f) = stepPart s := by
  cases node with
  | none => rfl
  | some k => exact stepPart_onPitch s p

@[simp] theorem stepPart_releaseSeq (i : Nat) : stepPart (releaseSeq s i) = stepPart s := by
  simp [releaseSeq, freeEntry]

@[simp] theorem stepPart_freeSeq (i : Nat) : stepPart (freeSeq s i) = stepPart s := by
  simp [freeSeq]

end

/-! ### Space that is found -/

section
variable {s t : State} {p : Nat}

theorem stepPart_placeIn {r : PitchRecord} {seg da size len : Nat} {x : Nat × State} (h : placeIn s r seg da size len = some x) :
    stepPart x.2 = stepPart s := by
  simp only [placeIn] at h
  split at h
  · obtain rfl := Option.some.inj h
    rfl
  · split at h
    · obtain rfl := Option.some.inj h
      rfl
    · exact nomatch h

theorem stepPart_allocHot {len : Nat} {x : Nat × State} (h : allocHot s p len = some x) : stepPart x.2 = stepPart s := by
  simp only [allocHot] at h
  split at h
  · exact nomatch h
  · split at h
    · exact nomatch h
    · next hplace =>
      obtain rfl := Option.some.inj h
      exact (stepPart_onPitch _ p).trans (stepPart_placeIn hplace)

theorem stepPart_allocWarm {n len : Nat} {x : Nat × State} (h : allocWarm s p n len = some x) : stepPart x.2 = stepPart s := by
  simp only [allocWarm] at h
  split at h
  · exact nomatch h
  · split at h
    · exact nomatch h
    · split at h
      · exact nomatch h
      · next hplace =>
        obtain rfl := Option.some.inj h
        exact (stepPart_onPitch _ p).trans (stepPart_placeIn hplace)

theorem stepPart_hotSpace {len n : Nat} {x : Nat × State} (h : hotSpace p len n s = some x) : stepPart x.2 = stepPart s := by
  induction n generalizing s with
  | zero => exact stepPart_allocHot h
  | succ n ih =>
    rw [hotSpace] at h
    split at h
    · next halloc =>
      obtain rfl := Option.some.inj h
      exact stepPart_allocHot halloc
    · split at h
      · exact (ih h).trans (stepPart_dropHot s p _)
      · split at h
        · exact (ih h).trans (stepPart_removeIdle s p _)
        · exact nomatch h

theorem stepPart_warmSpace {m len n : Nat} {x : Nat × State} (h : warmSpace p m len n s = some x) : stepPart x.2 = stepPart s := by
  induction n generalizing s with
  | zero => exact stepPart_allocWarm h
  | succ n ih =>
    rw [warmSpace] at h
    split at h
    · next halloc =>
      obtain rfl := Option.some.inj h
      exact stepPart_allocWarm halloc
    · split at h
      · exact (ih h).trans (stepPart_removeIdle s p _)
      · exact nomatch h

theorem stepPart_demoteNow {n : Nat} (h : demoteNow s p n = some t) : stepPart t = stepPart s := by
  simp only [demoteNow] at h
  split at h
  · exact nomatch h
  · next hwarm =>
    split at h
    · exact nomatch h
    · split at h
      · obtain rfl := Option.some.inj h
        simpa using stepPart_warmSpace hwarm
      · obtain rfl := Option.some.inj h
        simpa using stepPart_warmSpace hwarm

theorem stepPart_flushRoom {len n : Nat} {x : Nat × State} (h : flushRoom p len n s = some x) : stepPart x.2 = stepPart s := by
  induction n generalizing s with
  | zero => exact stepPart_hotSpace h
  | succ n ih =>
    rw [flushRoom] at h
    split at h
    · next hroom =>
      obtain rfl := Option.some.inj h
      exact stepPart_hotSpace hroom
    · split at h
      · exact nomatch h
      · split at h
        · exact nomatch h
        · next hdemote => exact (ih h).trans (stepPart_demoteNow hdemote)

end

/-! ### Tree nodes and rows (R210, R229, R231) -/

section
variable (s : State) (r : PitchRecord)

@[simp] theorem stepPart_insertNode (i c : Nat) (tokens : List Nat) : stepPart (insertNode s r i c tokens) = stepPart s := by
  unfold insertNode
  dsimp only
  refine stepPart_ite rfl (stepPart_ite rfl ?_)
  split
  · rfl
  · next hspace =>
    rw [stepPart_tellGroup]
    refine (stepPart_onPitch _ r.pitch).trans ?_
    rw [stepPart_addRefs]
    exact stepPart_flushRoom hspace

@[simp] theorem stepPart_insertNodes (i : Nat) (l : List Nat) : stepPart (insertNodes r i l s) = stepPart s := by
  induction l generalizing s with
  | nil => rfl
  | cons c l ih => simp [insertNodes, ih]

@[simp] theorem stepPart_insertRow (m : MicroRow) : stepPart (insertRow s r m) = stepPart s := stepPart_ite (by simp) rfl

@[simp] theorem stepPart_insertRows (l : List MicroRow) : stepPart (insertRows r l s) = stepPart s := by
  induction l generalizing s with
  | nil => rfl
  | cons m l ih => simp [insertRows, ih]

@[simp] theorem stepPart_onLayerAt (i j : Nat) (f : LayerState → LayerState) : stepPart (onLayerAt s i j f) = stepPart s := rfl

@[simp] theorem stepPart_noteDecision (i : Nat) (d : Decision) : stepPart (noteDecision s i d) = stepPart s := rfl

@[simp] theorem stepPart_applyOutcome (i j : Nat) (o : Bool) (value : Nat) : stepPart (applyOutcome s r i j o value) = stepPart s := by
  unfold applyOutcome
  dsimp only
  split
  · rfl
  · exact stepPart_ite rfl (stepPart_ite rfl (stepPart_ite (stepPart_ite rfl (by simp)) (by simp)))

@[simp] theorem stepPart_applyOutcomes (i : Nat) (l : List Nat) : stepPart (applyOutcomes r i l s) = stepPart s := by
  induction l generalizing s with
  | nil => rfl
  | cons j l ih =>
    unfold applyOutcomes
    split
    · exact ih s
    · split
      · exact ih s
      · exact (ih _).trans ((stepPart_applyOutcome _ r i j _ _).trans (stepPart_ite rfl rfl))

@[simp] theorem stepPart_commitPages (i j : Nat) (l : List Nat) : stepPart (commitPages r i j l s) = stepPart s := by
  induction l generalizing s with
  | nil => rfl
  | cons n l ih =>
    unfold commitPages
    dsimp only
    exact stepPart_ite (ih s) ((ih _).trans (stepPart_ite (by simp) (by simp)))

@[simp] theorem stepPart_stagingHeader (i j : Nat) : stepPart (stagingHeader s r i j) = stepPart s := by
  unfold stagingHeader
  split
  · rfl
  · exact stepPart_ite rfl (stepPart_pokeBytes s _ _)

@[simp] theorem stepPart_commitLayer (i j : Nat) : stepPart (commitLayer s r i j) = stepPart s := by
  unfold commitLayer
  split
  · rfl
  · dsimp only
    rw [stepPart_stagingHeader, stepPart_onLayerAt, stepPart_commitPages]
    exact stepPart_ite rfl (stepPart_pokeBytes s _ _)

@[simp] theorem stepPart_commitLayers (i : Nat) (l : List Nat) : stepPart (commitLayers r i l s) = stepPart s := by
  induction l generalizing s with
  | nil => rfl
  | cons j l ih => simp [commitLayers, ih]

@[simp] theorem stepPart_commitRow (m : MicroRow) : stepPart (commitRow s r m) = stepPart s := by
  unfold commitRow
  dsimp only
  exact stepPart_ite rfl (stepPart_ite (by simp) (by simp))

/-- The commits of the rows leave what the boundary sets. -/
@[simp] theorem stepPart_commitRows (l : List MicroRow) : stepPart (commitRows r l s) = stepPart s := by
  induction l generalizing s with
  | nil => rfl
  | cons m l ih => simp [commitRows, ih]

@[simp] theorem stepPart_journalRows (l : List MicroRow) : stepPart (journalRows l s) = stepPart s := by
  induction l generalizing s with
  | nil => rfl
  | cons m l ih =>
    rw [journalRows, ih]
    exact stepPart_ite rfl rfl

/-! ### The close of rows on the lead (R342, R354, R357 to R359) -/

@[simp] theorem stepPart_endRequest (i : Nat) (q : Request) (result endCode : Nat) : stepPart (endRequest s i q result endCode) = stepPart s :=
  stepPart_ite (by simp) (by simp)

@[simp] theorem stepPart_nextStep (i : Nat) (q : Request) : stepPart (nextStep s i q) = stepPart s := stepPart_ite (by simp) (by simp)

@[simp] theorem stepPart_writeToken (q : Request) (k token : Nat) : stepPart (writeToken s q k token) = stepPart s := by
  unfold writeToken
  split
  · exact stepPart_send s _
  · rfl

@[simp] theorem stepPart_progress (i : Nat) (q : Request) : stepPart (progress s i q) = stepPart s := stepPart_ite (by simp) rfl

@[simp] theorem stepPart_takeToken (i : Nat) (q : Request) (token : Nat) : stepPart (takeToken s i q token) = stepPart s := by
  unfold takeToken
  dsimp only
  exact stepPart_ite (by simp) (stepPart_ite (by simp) (stepPart_ite (by simp) (by simp)))

@[simp] theorem stepPart_closeRow (m : MicroRow) (token : Option Nat) : stepPart (closeRow s m token) = stepPart s := by
  unfold closeRow
  split
  · rfl
  · refine stepPart_ite rfl (stepPart_ite (by simp) (stepPart_ite (by simp) ?_))
    cases token with
    | none => exact stepPart_nextStep s _ _
    | some t => exact stepPart_takeToken s _ _ t

@[simp] theorem stepPart_closeRows (tokens : NMap Nat) (l : List MicroRow) : stepPart (closeRows tokens l s) = stepPart s := by
  induction l generalizing s with
  | nil => rfl
  | cons m l ih => simp [closeRows, ih]

/-! ### What follows the clearing (R362, R456) -/

theorem stepPart_restoreModel (p : Nat) : stepPart (restoreModel s p) = stepPart s := by
  unfold restoreModel
  split
  · rfl
  · split
    · rfl
    · refine (stepPart_rangerEvent _ _ _ _ _).trans (stepPart_congr rfl rfl rfl (fun _ => rfl) fun q => ?_)
      simp only [clearHolds, pitchOf, mgetD, mget_mmap]
      cases mget s.pitches q with
      | none => rfl
      | some x =>
        dsimp only [Option.map_some, Option.getD_some]
        split <;> rfl

end

end Sys2Proof.Machine
end

section
/-! PROOF. O30: a group step begins, ends at its boundary, and the reports start the next (R29, R156, R160, R161, R355, R361, R362, R453, R458, R459). -/

namespace Sys2Proof.Machine

/-! ### GROUP_STEP_START -/

theorem pitchOf_sendPeer (s : State) (r : PitchRecord) (device : Nat) (msg : List Byte) (p : Nat) :
    pitchOf (sendPeer s r device msg) p = pitchOf s p := by
  simp [pitchOf, sendPeer, drawBytes, drawNat]

theorem pitchOf_sendStarts (r : PitchRecord) (n tick : Nat) (ds : List LeadDecision) (l : List Nat) (s : State) (p : Nat) :
    pitchOf (sendStarts r n tick ds l s) p = pitchOf s p := by
  induction l generalizing s with
  | nil => rfl
  | cons j l ih => rw [sendStarts, ih, pitchOf_sendPeer]

/-- The pitch has entered a step with a micro-batch (R29). -/
structure Entered (t : State) (p : Nat) (rows : List MicroRow) : Prop where
  inStep : (pitchOf t p).inStep = true
  timeouts : (pitchOf t p).timeouts = 0
  uncorrectable : (pitchOf t p).uncorrectable = 0
  batch : (pitchOf t p).batch = rows

theorem enterStep_entered (s : State) (p m : Nat) (rows : List MicroRow) : Entered (enterStep s p m rows) p rows := by
  constructor <;> rw [enterStep, pitchOf_onPitch]

/-- The decisions that go out with the start leave the step that has been entered. -/
theorem leadStart_entered (s : State) (r : PitchRecord) (n tick : Nat) (rows : List MicroRow) : Entered (leadStart s r n tick rows) r.pitch rows := by
  unfold leadStart
  dsimp only
  generalize (if 1 < r.group.groupSize then trimTree _ _ _ s else s) = s0
  obtain ⟨hin, htimeouts, huncorrectable, hbatch⟩ := enterStep_entered s0 r.pitch (microBatchOf r n 0) rows
  constructor <;> rw [pitchOf_onPitch, pitchOf_sendStarts] <;> assumption

section
variable {s0 : State} {r : PitchRecord} (hin : (pitchOf s0 r.pitch).inStep = false)
include hin

variable {s : State} (hs : s = repairNow s0 r.pitch) (henabled : (pitchOf s r.pitch).enabled = true) (hdisabled : (pitchOf s r.pitch).groupDisabled = false)
  (hpackage : (pitchOf s r.pitch).package ≠ none) (hout : (pitchOf s r.pitch).inStep = false)
  (htick : (pitchOf s r.pitch).nextTick.getD (nextMicro s.cairn.count) ≤ s.cairn.count)
include hs henabled hdisabled hpackage hout htick

/-- At or after its start tick a step of an enabled pitch follows the repairs that are due (R361, R459). -/
theorem startStep_due (table : List LengthRow) (decisions : List LeadDecision) (masks : NMap Nat) :
    startStep s0 r table decisions masks =
      let x := pitchOf s r.pitch
      let tick := x.nextTick.getD (nextMicro s.cairn.count)
      if x.stopped then tellStopped s r tick
      else if isLead r then leadStart (compose s r tick masks).1 r x.groupStep tick (compose s r tick masks).2
      else enterStep (followRows r table (applyDecisions r decisions s)) r.pitch (microBatchOf r x.groupStep r.group.groupPosition) (tableRows table) := by
  have hgo : ¬(¬(pitchOf s r.pitch).enabled ∨ (pitchOf s r.pitch).groupDisabled ∨ (pitchOf s r.pitch).inStep
      ∨ s.cairn.count < (pitchOf s r.pitch).nextTick.getD (nextMicro s.cairn.count) ∨ (pitchOf s r.pitch).package = none) := by
    simp [henabled, hdisabled, hout, hpackage, htick]
  unfold startStep
  dsimp only
  rw [hin, if_neg Bool.false_ne_true, ← hs, if_neg hgo]

end

/-! ### STEP_BOUNDARY -/

theorem stepPart_touched (s : State) (rs : List (Nat × Nat)) : stepPart (touched s rs) = stepPart s := by
  obtain ⟨us, late, h⟩ := touchUnits_eq (unitsAsked s rs) s
  rw [touched, h]
  rfl

/-- From `s` to `t` the boundary of the pitch's step has cleared what belongs to a step, and the Ranger pairs stay (R156, R160, R161). -/
structure StepCleared (s t : State) (p : Nat) : Prop where
  ranger : t.ranger = s.ranger
  inStep : (pitchOf t p).inStep = false
  batch : (pitchOf t p).batch = []
  chosen : (pitchOf t p).chosen = []
  stepCount : (pitchOf t p).stepCount = (pitchOf s p).stepCount + 1
  syncs : (pitchOf t p).syncs = []
  slots : ∀ n x, mget (pitchOf t p).slots n = some x → x.persistent = false → x.state = .empty
  cores : ∀ c k, campIn s p c = true → (coreOf (campOf t c) k).sp = [] ∧ (coreOf (campOf t c) k).win = []

theorem boundarySlot_empties {x : Slot} (h : (boundarySlot x).persistent = false) : (boundarySlot x).state = .empty := by
  by_cases hx : x.persistent = true
  · rw [boundarySlot, if_pos hx] at h
    exact absurd (hx.symm.trans h) (by decide)
  · rw [boundarySlot, if_neg hx]

/-- A core of a camp that is cleared has no scratchpad bytes and no windows (R156). -/
theorem coreOf_clearCamp (c : Camp) (k : Nat) : (coreOf (clearCamp c) k).sp = [] ∧ (coreOf (clearCamp c) k).win = [] := by
  simp only [coreOf, mgetD, clearCamp, mget_mmap]
  cases mget c.cores k <;> exact ⟨rfl, rfl⟩

/-- The camps of the pitch that have been cleared, with all their cores. -/
theorem cores_cleared {s t : State} {p c : Nat} (hcamps : t.camps = mmap s.camps fun n x => if campIn s p n then clearCamp x else x)
    (hc : campIn s p c = true) (k : Nat) : (coreOf (campOf t c) k).sp = [] ∧ (coreOf (campOf t c) k).win = [] := by
  rw [campOf, hcamps, mgetD, mget_mmap]
  cases mget s.camps c with
  | none => exact ⟨rfl, rfl⟩
  | some x =>
    rw [Option.map_some, Option.getD_some, if_pos hc]
    exact coreOf_clearCamp x k

theorem clearStep_cleared (s : State) (p : Nat) : StepCleared s (clearStep s p) p := by
  have hfreed := stepPart_freeLists s p (pitchOf s p).chosen
  unfold clearStep
  dsimp only
  generalize freeLists p (pitchOf s p).chosen s = s1 at hfreed
  have hranger : s1.ranger = s.ranger := ranger_of_stepPart hfreed
  refine ⟨hranger, ?_, ?_, ?_, ?_, ?_, fun n x hx hpersistent => ?_, fun c k hc => ?_⟩
  · rw [pitchOf_onPitch]
  · rw [pitchOf_onPitch]
  · rw [pitchOf_onPitch]
  · rw [pitchOf_onPitch]
    exact congrArg (fun v => v.stepCount + 1) (stepView_of_stepPart hfreed p)
  · rw [pitchOf_onPitch]
  · rw [pitchOf_onPitch, mget_mmap] at hx
    obtain ⟨y, -, rfl⟩ := Option.map_eq_some_iff.1 hx
    exact boundarySlot_empties hpersistent
  · exact cores_cleared (s := s1) rfl ((keepsHomes_of_stepPart hfreed).campIn p c ▸ hc) k

section
variable {s t u : State} {p : Nat} (h : StepCleared s t p)
include h

/-- What leaves the step's part of the state leaves it cleared. -/
theorem StepCleared.after (hu : stepPart u = stepPart t) : StepCleared s u p := by
  have hview := stepView_of_stepPart hu p
  refine ⟨(ranger_of_stepPart hu).trans h.ranger, (congrArg StepView.inStep hview).trans h.inStep, (congrArg StepView.batch hview).trans h.batch,
    (congrArg StepView.chosen hview).trans h.chosen, (congrArg StepView.stepCount hview).trans h.stepCount, (congrArg StepView.syncs hview).trans h.syncs,
    fun n x hx => ?_, fun c k hc => ?_⟩
  · have hslots : (pitchOf u p).slots = (pitchOf t p).slots := congrArg StepView.slots hview
    exact h.slots n x (hslots ▸ hx)
  · rw [coreOf, cores_of_stepPart hu, ← coreOf]
    exact h.cores c k hc

/-- It may have been cleared after a change that leaves that part. -/
theorem StepCleared.before (hs : stepPart s = stepPart u) : StepCleared u t p := by
  refine ⟨h.ranger.trans (ranger_of_stepPart hs), h.inStep, h.batch, h.chosen, ?_, h.syncs, h.slots, fun c k hc => h.cores c k ?_⟩
  · rw [h.stepCount]
    exact congrArg (fun v => v.stepCount + 1) (stepView_of_stepPart hs p)
  · rw [(keepsHomes_of_stepPart hs).campIn, hc]

/-- The reports of a step and the group step that follows concern no cleared field. -/
theorem StepCleared.onPitch {f : Pitch → Pitch} (hf : ∀ x, f x = { x with
      reports := (f x).reports, toInsert := (f x).toInsert, groupStep := (f x).groupStep, nextTick := (f x).nextTick } := by exact fun _ => rfl) :
    StepCleared s (onPitch t p f) p := by
  refine ⟨h.ranger, ?_, ?_, ?_, ?_, ?_, fun n x hx => ?_, h.cores⟩
  · rw [pitchOf_onPitch, hf, h.inStep]
  · rw [pitchOf_onPitch, hf, h.batch]
  · rw [pitchOf_onPitch, hf, h.chosen]
  · rw [pitchOf_onPitch, hf, h.stepCount]
  · rw [pitchOf_onPitch, hf, h.syncs]
  · rw [pitchOf_onPitch, hf] at hx
    exact h.slots n x hx

end

theorem reportClose_cleared {s t : State} {r : PitchRecord} (h : StepCleared s t r.pitch) (tokens : NMap Nat) : StepCleared s (reportClose t r tokens) r.pitch := by
  unfold reportClose
  split
  · exact h.onPitch
  · exact (h.after (stepPart_sendPeer _ _ _ _)).onPitch

theorem allReported_cleared {s t : State} {r : PitchRecord} (h : StepCleared s t r.pitch) : StepCleared s (allReported t r) r.pitch := by
  unfold allReported
  dsimp only
  split
  · exact (h.after (stepPart_insertRows _ _ _)).onPitch
  · exact h

/-- A step ends when its rows have gone through its phases, its programs have ended and its send is done (R29). -/
abbrev stepEnds (s : State) (r : PitchRecord) (logits : List RowLogits) : Bool :=
  (pitchOf s r.pitch).inStep && !programsRun s r.pitch && phasesDone s r && sendDone s r logits

section
variable {s : State} {r : PitchRecord} {logits : List RowLogits}

theorem stepEnds_iff : stepEnds s r logits = true ↔
    ¬(¬(pitchOf s r.pitch).inStep ∨ programsRun s r.pitch ∨ phasesDone s r = false ∨ sendDone s r logits = false) := by
  simp [stepEnds, and_assoc]

theorem boundary_waits (h : stepEnds s r logits = false) (found : List Finding) : boundary s r logits found = s := by
  unfold boundary
  dsimp only
  rw [if_pos]
  by_contra hends
  exact Bool.false_ne_true (h.symm.trans (stepEnds_iff.2 hends))

variable (h : stepEnds s r logits = true) (hadmit : Admitted s (boundaryRanges s r))
include h hadmit

/-- The checks of the staging buffers come before the boundary (R242, R243). -/
theorem boundary_reads {found : List Finding} (hstops : found.any stopsCommand = true) (hgo : found.any (findingWaits s false) = false) :
    boundary s r logits found = rangerFindings r.pitch found (touched s (boundaryRanges s r)) := by
  unfold boundary
  dsimp only
  rw [if_neg (stepEnds_iff.1 h), rangerReads, hgo, if_neg Bool.false_ne_true, rangerAccess_admitted hadmit, if_pos hstops]

/-- The boundary clears the step, and the pairs then checkpoint (R453). -/
theorem boundary_clears : ∃ t, boundary s r logits [] = checkpointPairs t ∧ StepCleared s t r.pitch := by
  unfold boundary
  dsimp only
  rw [if_neg (stepEnds_iff.1 h), rangerReads, List.any_nil, if_neg Bool.false_ne_true, rangerAccess_admitted hadmit, List.any_nil,
    if_neg Bool.false_ne_true]
  refine ⟨_, rfl, ?_⟩
  refine StepCleared.after ?_ (stepPart_parkMarked _ _)
  refine allReported_cleared (reportClose_cleared (StepCleared.after (StepCleared.before (clearStep_cleared _ _) ?_) (stepPart_restoreModel _ _)) _)
  rw [stepPart_journalRows]
  exact stepPart_ite ((stepPart_closeRows _ _ _).trans ((stepPart_onPitch _ r.pitch).trans ((stepPart_commitRows _ _ _).trans (stepPart_touched s _))))
    ((stepPart_commitRows _ _ _).trans (stepPart_touched s _))

end

/-! ### STEP_CLOSE_REPORT -/

/-- Every module of the group has reported (R362). -/
abbrev AllReported (r : PitchRecord) (reports : List Nat) : Prop := ∀ j, j < r.group.groupSize → j ∈ reports

theorem all_contains_iff (n : Nat) (l : List Nat) : ((List.range n).all fun j => l.contains j) = true ↔ ∀ j, j < n → j ∈ l := by
  simp

/-- When every module has reported, the next step starts at the first multiple of 1,000 ns at least 20 µs later (R362). -/
theorem allReported_next {s : State} {r : PitchRecord} (h : AllReported r (pitchOf s r.pitch).reports) :
    (pitchOf (allReported s r) r.pitch).reports = [] ∧ (pitchOf (allReported s r) r.pitch).groupStep = (pitchOf s r.pitch).groupStep + 1
      ∧ (pitchOf (allReported s r) r.pitch).nextTick = some (nextMicro (s.cairn.count + 20000)) := by
  unfold allReported
  dsimp only
  rw [if_pos ((all_contains_iff _ _).2 h), pitchOf_onPitch]
  exact ⟨rfl, congrArg (fun v => v.groupStep + 1) (stepView_of_stepPart (stepPart_insertRows s r _) r.pitch), rfl⟩

theorem allReported_waits {s : State} {r : PitchRecord} (h : ¬AllReported r (pitchOf s r.pitch).reports) : allReported s r = s := by
  unfold allReported
  dsimp only
  rw [if_neg (mt (all_contains_iff _ _).1 h)]

/-- A close report that the lead has not had yet is noted, and the rows of the last module close (R358, R362). -/
theorem takeReport_notes {s : State} {r : PitchRecord} {position : Nat} (tokens : NMap Nat) (hlead : isLead r = true) (hpos : 0 < position)
    (hsize : position < r.group.groupSize) (hnew : position ∉ (pitchOf s r.pitch).reports) :
    ∃ t, takeReport s r position tokens = parkMarked (allReported t r) r
      ∧ stepPart t = stepPart (onPitch s r.pitch fun x => { x with reports := x.reports ++ [position] }) := by
  have hgo : ¬(¬isLead r ∨ position = 0 ∨ r.group.groupSize ≤ position ∨ (pitchOf s r.pitch).reports.contains position) := by
    simp [hlead, hnew]
    omega
  unfold takeReport
  dsimp only
  rw [if_neg hgo]
  exact ⟨_, rfl, stepPart_ite ((stepPart_closeRows _ _ _).trans (stepPart_onPitch _ r.pitch)) rfl⟩

/-- What the report comes to: the next step where it is the last that was missing, and otherwise one report more (R362). -/
theorem takeReport_reports {s : State} {r : PitchRecord} {position : Nat} (tokens : NMap Nat) (hlead : isLead r = true) (hpos : 0 < position)
    (hsize : position < r.group.groupSize) (hnew : position ∉ (pitchOf s r.pitch).reports) :
    let reports := (pitchOf s r.pitch).reports ++ [position]
    let x := pitchOf (takeReport s r position tokens) r.pitch
    (AllReported r reports → x.reports = [] ∧ x.groupStep = (pitchOf s r.pitch).groupStep + 1 ∧ x.nextTick = some (nextMicro (s.cairn.count + 20000)))
      ∧ (¬AllReported r reports → x.reports = reports ∧ x.groupStep = (pitchOf s r.pitch).groupStep) := by
  intro reports x
  obtain ⟨t, ht, hpart⟩ := takeReport_notes tokens hlead hpos hsize hnew
  have hview := stepView_of_stepPart hpart r.pitch
  rw [pitchOf_onPitch] at hview
  have hreports : (pitchOf t r.pitch).reports = reports := congrArg StepView.reports hview
  have hgroup : (pitchOf t r.pitch).groupStep = (pitchOf s r.pitch).groupStep := congrArg StepView.groupStep hview
  have hcairn := cairn_of_stepPart hpart
  have hparked : stepView x = stepView (pitchOf (allReported t r) r.pitch) := by
    rw [show x = pitchOf (parkMarked (allReported t r) r) r.pitch from congrArg (pitchOf · r.pitch) ht]
    exact stepView_of_stepPart (stepPart_parkMarked (allReported t r) r) r.pitch
  have hlast : x.reports = (pitchOf (allReported t r) r.pitch).reports := congrArg StepView.reports hparked
  have hlastGroup : x.groupStep = (pitchOf (allReported t r) r.pitch).groupStep := congrArg StepView.groupStep hparked
  have hlastTick : x.nextTick = (pitchOf (allReported t r) r.pitch).nextTick := congrArg StepView.nextTick hparked
  rw [hlast, hlastGroup, hlastTick]
  refine ⟨fun hall => ?_, fun hsome => ?_⟩
  · obtain ⟨hnone, hstep, htick⟩ := allReported_next (s := t) (r := r) (by rwa [hreports])
    exact ⟨hnone, hstep.trans (by rw [hgroup]), htick.trans (by rw [hcairn]; rfl)⟩
  · rw [allReported_waits (by rwa [hreports])]
    exact ⟨hreports, hgroup⟩

/-! ### O30 -/

section
variable {s : State} {r : PitchRecord} (hpitch : r.pitch < 64) (hrecord : recordOf s r.pitch = some r) (now : Nat)
include hpitch hrecord

theorem exec_groupStepStart (table : List LengthRow) (decisions : List LeadDecision) (masks : NMap Nat) :
    exec (.groupStepStart r.pitch now table decisions masks) s = .next (startStep (atTime s now) r table decisions masks) := by
  have hok : pitchOk r.pitch = true := decide_eq_true hpitch
  show execGroupStepStart r.pitch now table decisions masks s = _
  rw [execGroupStepStart, if_pos hok, hrecord]

theorem exec_stepBoundary (logits : List RowLogits) (found : List Finding) :
    exec (.stepBoundary r.pitch now logits found) s = .next (boundary (atTime s now) r logits found) := by
  have hok : pitchOk r.pitch = true := decide_eq_true hpitch
  show execStepBoundary r.pitch now logits found s = _
  rw [execStepBoundary, if_pos hok, hrecord]

theorem exec_stepCloseReport (position : Nat) (tokens : NMap Nat) :
    exec (.stepCloseReport r.pitch position now tokens) s = .next (takeReport (atTime s now) r position tokens) := by
  have hok : pitchOk r.pitch = true := decide_eq_true hpitch
  show execStepCloseReport r.pitch position now tokens s = _
  rw [execStepCloseReport, if_pos hok, hrecord]

end

/-- Settles O30: a start enters the step after all else of it; the commits before the clearing of a boundary, and the reports and parks after it, leave
the step's part of the state (`stepPart`), so what it clears stays cleared. -/
theorem stepsBeginAndEnd : Obligations.StepsBeginAndEnd := by
  unfold Obligations.StepsBeginAndEnd
  refine ⟨?_, ?_, ?_⟩
  · rintro s pitch now table decisions masks r hpitch hrecord rfl hin s1 x tick henabled hdisabled hpackage hout htick
    have hexec := exec_groupStepStart hpitch hrecord now table decisions masks
    have hdue := startStep_due (s0 := atTime s now) hin (s := s1) rfl henabled hdisabled hpackage hout htick table decisions masks
    refine ⟨fun hstopped => ?_, fun hrunning => ⟨_, hexec, ?_⟩⟩
    · rw [hexec, hdue]
      exact congrArg Host.Outcome.next (if_pos hstopped)
    · have hentered : Entered (startStep (atTime s now) r table decisions masks) r.pitch
          (if isLead r then (compose s1 r tick masks).2 else tableRows table) := by
        rw [hdue]
        dsimp only
        rw [if_neg (by rw [hrunning]; exact Bool.false_ne_true)]
        split
        · exact leadStart_entered _ _ _ _ _
        · exact enterStep_entered _ _ _ _
      exact ⟨hentered.inStep, hentered.timeouts, hentered.uncorrectable, hentered.batch⟩
  · rintro s pitch now logits r hpitch hrecord rfl s1 ended
    have hexec := exec_stepBoundary hpitch hrecord now logits
    have hends : stepEnds s1 r logits = ended := rfl
    refine ⟨fun hended found => ?_, fun hended hadmit => ⟨fun found hstops hgo => ?_, ?_⟩⟩
    · rw [hexec, boundary_waits (hends.trans hended)]
    · rw [hexec, boundary_reads (hends.trans hended) hadmit hstops hgo]
    · obtain ⟨t, ht, hcleared⟩ := boundary_clears (hends.trans hended) hadmit
      refine ⟨checkpointPairs t, by rw [hexec, ht], hcleared.inStep, hcleared.batch, hcleared.chosen, hcleared.stepCount, fun n => ?_, hcleared.slots,
        fun c k hc => hcleared.cores c k hc, ?_⟩
      · show mgetD (pitchOf t r.pitch).syncs n Sync.fresh = _
        rw [hcleared.syncs]
        rfl
      · have hranger : t.ranger = s.ranger := hcleared.ranger
        rw [checkpointPairs, hranger]
  · rintro s pitch position now tokens r hpitch hrecord rfl hlead hpos hsize hnew reports
    obtain ⟨hnext, hmore⟩ := takeReport_reports (s := atTime s now) tokens hlead hpos hsize hnew
    refine ⟨_, exec_stepCloseReport hpitch hrecord now position tokens, ?_⟩
    split
    · next hall => exact hnext hall
    · next hsome => exact hmore hsome

end Sys2Proof.Machine
end

section
/-! PROOF. O31: the composition of a micro-batch keeps within the serving profile (R185, R354, R355). -/

namespace Sys2Proof.Machine

/-- A row of 1 to prefill_chunk tokens, counted by `newTokens` (R354). -/
structure RowFits (r : PitchRecord) (m : MicroRow) : Prop where
  nonempty : 1 ≤ m.newTokens
  within_chunk : m.newTokens ≤ r.profile.serving.prefillChunk
  counted : m.tokens.length = m.newTokens

/-- Every row's token base counts the tokens of the rows before it (R185). -/
def BasesFollow (rows : List MicroRow) : Prop :=
  ∀ (j : Nat) (m : MicroRow), rows[j]? = some m → m.tokenBase = ((rows.take j).map (·.newTokens)).sum

/-- What a composition keeps: the rows taken and the room left together stay within the profile's limits (R355), and the rows fit and follow
one another. -/
structure WithinProfile (r : PitchRecord) (room : Room) (rows : List MicroRow) : Prop where
  row_limit : rows.length + room.rows ≤ r.profile.serving.rows
  token_limit : (rows.map (·.newTokens)).sum + room.tokens ≤ r.profile.serving.tokens
  rows_fit : ∀ m ∈ rows, RowFits r m
  bases_follow : BasesFollow rows

/-- An admission: a row that fits goes behind the rows taken so far, and its place and its tokens come off the room (R355). -/
structure Admission (r : PitchRecord) (room : Room) (rows : List MicroRow) (room' : Room) (m : MicroRow) : Prop where
  row_taken : room'.rows + 1 = room.rows
  tokens_taken : room'.tokens + m.newTokens = room.tokens
  fits : RowFits r m
  base : m.tokenBase = (rows.map (·.newTokens)).sum

theorem rowTokens_length_le (r : PitchRecord) (e : SeqEntry) (q : Request) : (rowTokens r e q).length ≤ r.profile.serving.prefillChunk :=
  List.length_take_le _ _

/-- A sequence of the list either takes no row, whatever becomes of its request, or is admitted (R355). -/
theorem takeRows_cons (r : PitchRecord) (tick : Nat) (masks : NMap Nat) (room : Room) (rows : List MicroRow) (i : Nat) (t : List Nat) (s : State) :
    (∃ s', takeRows r tick masks room rows (i :: t) s = takeRows r tick masks room rows t s')
      ∨ ∃ room' m s', Admission r room rows room' m
        ∧ takeRows r tick masks room rows (i :: t) s = takeRows r tick masks room' (rows ++ [m]) t s' := by
  rw [takeRows]
  split
  · exact .inl ⟨_, rfl⟩
  · next q _ =>
    dsimp only
    split
    · exact .inl ⟨_, rfl⟩
    split
    · exact .inl ⟨_, rfl⟩
    split
    · exact .inl ⟨_, rfl⟩
    rename_i hdone
    split
    · exact .inl ⟨_, rfl⟩
    split
    · exact .inl ⟨_, rfl⟩
    split
    · exact .inl ⟨_, rfl⟩
    rename_i hroom
    obtain ⟨hrows, htokens, -⟩ := not_or.1 hroom |>.imp_right not_or.1
    refine .inr ⟨_, _, _, ?_, rfl⟩
    exact {
      row_taken := Nat.sub_add_cancel (Nat.pos_of_ne_zero hrows)
      tokens_taken := Nat.sub_add_cancel (Nat.not_lt.1 htokens)
      fits := ⟨List.length_pos_iff.2 hdone, rowTokens_length_le _ _ _, rfl⟩
      base := rfl }

theorem basesFollow_nil : BasesFollow [] := by
  intro j m hm
  simp at hm

/-- A row behind the others, with their tokens as its base, follows them. -/
theorem BasesFollow.append {rows : List MicroRow} {m : MicroRow} (h : BasesFollow rows) (hbase : m.tokenBase = (rows.map (·.newTokens)).sum) :
    BasesFollow (rows ++ [m]) := by
  intro j m' hm
  rcases lt_or_ge j rows.length with hj | hj
  · rw [List.getElem?_append_left hj] at hm
    rw [List.take_append_of_le_length hj.le]
    exact h j m' hm
  · rw [List.getElem?_append_right hj, List.getElem?_singleton] at hm
    obtain ⟨hlast, hsame⟩ := Option.ite_none_right_eq_some.1 hm
    obtain rfl : j = rows.length := by omega
    rw [List.take_left, ← Option.some_inj.1 hsame, hbase]

/-- An admission keeps the composition within the profile. -/
theorem WithinProfile.append {r : PitchRecord} {room room' : Room} {rows : List MicroRow} {m : MicroRow} (h : WithinProfile r room rows)
    (hm : Admission r room rows room' m) : WithinProfile r room' (rows ++ [m]) where
  row_limit := by
    have hlimit := h.row_limit
    have htaken := hm.row_taken
    rw [List.length_append, List.length_singleton]
    omega
  token_limit := by
    have hlimit := h.token_limit
    have htaken := hm.tokens_taken
    rw [List.map_append, List.sum_append, List.map_singleton, List.sum_singleton]
    omega
  rows_fit := List.forall_mem_append.2 ⟨h.rows_fit, List.forall_mem_singleton.2 hm.fits⟩
  bases_follow := h.bases_follow.append hm.base

/-- The composition keeps within the profile to the end of the list, whatever room is left. -/
theorem takeRows_withinProfile {r : PitchRecord} (tick : Nat) (masks : NMap Nat) {room : Room} {rows : List MicroRow} (l : List Nat) (s : State)
    (h : WithinProfile r room rows) : ∃ left, WithinProfile r left (takeRows r tick masks room rows l s).2 := by
  induction l generalizing room rows s with
  | nil => exact ⟨room, h⟩
  | cons i t ih =>
    rcases takeRows_cons r tick masks room rows i t s with ⟨s', hskip⟩ | ⟨room', m, s', hm, htake⟩
    · rw [hskip]
      exact ih s' h
    · rw [htake]
      exact ih s' (h.append hm)

/-- The lead begins with no row and the whole room that the profile gives (R355). -/
theorem compose_withinProfile (s : State) (r : PitchRecord) (tick : Nat) (masks : NMap Nat) :
    ∃ left, WithinProfile r left (compose s r tick masks).2 := by
  unfold compose
  refine takeRows_withinProfile tick masks _ s ⟨?_, ?_, List.forall_mem_nil _, basesFollow_nil⟩
  · exact (Nat.zero_add _).le
  · exact (Nat.zero_add _).le

/-- Settles O31: every admission takes its row and its tokens off the room, so what is taken and what is left stay within the profile together. -/
theorem composedBatchesStayWithinTheProfile : Obligations.ComposedBatchesStayWithinTheProfile := by
  unfold Obligations.ComposedBatchesStayWithinTheProfile
  intro s r tick masks rows
  obtain ⟨left, hrows, htokens, hfit, hbases⟩ := compose_withinProfile s r tick masks
  exact ⟨le_of_add_le_left hrows, le_of_add_le_left htokens, fun m hm => ⟨(hfit m hm).nonempty, (hfit m hm).within_chunk, (hfit m hm).counted⟩,
    hbases⟩

end Sys2Proof.Machine
end

section
/-! PROOF. O28: what a selection keeps (R214, R216). -/

namespace Sys2Proof.Machine

/-- The page at place i of n is a sink page or a recent one. -/
def isFixedPage (b : LanternBlock) (n i : Nat) : Bool := decide (i < b.sink) || decide (n ≤ i + b.recent)

theorem contains_fixedPages (b : LanternBlock) {n i : Nat} (hi : i < n) :
    ((List.range n).filter fun i => decide (i < b.sink) || decide (n ≤ i + b.recent)).contains i = isFixedPage b n i := by
  rw [Bool.eq_iff_iff, List.contains_iff_mem, List.mem_filter, List.mem_range]
  exact and_iff_right hi

/-- The choice of R216 runs through the page list in order and takes the fixed pages and some others, at most k. -/
theorem selectPages_chosen (b : LanternBlock) (n : Nat) (f g : Nat → Word) :
    ∃ others : List Nat, others.length ≤ b.k
      ∧ (selectPages b false n f g).chosen = (List.range n).filter fun i => isFixedPage b n i || others.contains i := by
  by_cases hall : ChoosesAll b false n
  · refine ⟨(List.range n).filter fun i => !isFixedPage b n i, ?_, ?_⟩
    · have hfew : n ≤ ((List.range n).filter (isFixedPage b n)).length + b.k := hall.resolve_left Bool.false_ne_true
      have hsplit : n = ((List.range n).filter (isFixedPage b n)).length + ((List.range n).filter fun i => !isFixedPage b n i).length := by
        simpa using (List.range n).length_eq_length_filter_add (isFixedPage b n)
      omega
    · rw [selectPages_all hall]
      refine (List.filter_eq_self.2 fun i hi => ?_).symm
      by_cases hfixed : isFixedPage b n i = true
      · rw [hfixed, Bool.true_or]
      · rw [List.contains_iff_mem.2 (List.mem_filter.2 ⟨hi, by simp [hfixed]⟩), Bool.or_true]
  · have hchosen : (selectPages b false n f g).chosen = _ := congrArg Selection.chosen (if_neg hall)
    refine ⟨_, ?_, hchosen.trans (List.filter_congr fun i hi => congrArg (· || _) (contains_fixedPages b (List.mem_range.1 hi)))⟩
    exact List.length_take_le b.k _

/-- Settles O28: the choice is a part of the page list in order, and the pages besides the fixed ones are among at most k. -/
theorem lanternKeepsSinkAndRecentPages : Obligations.LanternKeepsSinkAndRecentPages := by
  unfold Obligations.LanternKeepsSinkAndRecentPages
  intro b n f g sel
  obtain ⟨others, hk, hchosen⟩ := selectPages_chosen b n f g
  have hmem (i : Nat) : i ∈ sel.chosen ↔ i < n ∧ (isFixedPage b n i = true ∨ i ∈ others) := by
    simp [sel, hchosen]
  have hrises : sel.chosen.Pairwise (· < ·) := hchosen ▸ List.pairwise_lt_range.filter _
  refine ⟨hrises, fun i hi => ((hmem i).1 hi).1, fun i hi hfixed => (hmem i).2 ⟨hi, .inl (by simpa [isFixedPage] using hfixed)⟩, ?_⟩
  have hothers : sel.chosen.filter (fun i => !isFixedPage b n i) ⊆ others := fun i hi => by
    obtain ⟨hi, hfree⟩ := List.mem_filter.1 hi
    exact ((hmem i).1 hi).2.resolve_left (by simpa using hfree)
  have hnodup : (sel.chosen.filter fun i => !isFixedPage b n i).Nodup := (hrises.imp ne_of_lt).filter _
  exact (hnodup.subperm hothers).length_le.trans hk

end Sys2Proof.Machine
end

section
/-! SUPPORT. Making space in the quotas of a pitch (R222 to R224, R231, R374) leaves the tables of sequences and of requests. -/

namespace Sys2Proof.Machine

/-- From `s` to `t` no sequence and no request changes. -/
structure KeepsTables (s t : State) : Prop where
  seqs : t.seqs = s.seqs
  reqs : t.reqs = s.reqs

theorem KeepsTables.refl (s : State) : KeepsTables s s := ⟨rfl, rfl⟩

theorem KeepsTables.trans {s t u : State} (h₁ : KeepsTables s t) (h₂ : KeepsTables t u) : KeepsTables s u :=
  ⟨h₂.seqs.trans h₁.seqs, h₂.reqs.trans h₁.reqs⟩

theorem KeepsTables.seqOf {s t : State} (h : KeepsTables s t) (i : Nat) : seqOf t i = seqOf s i := by
  rw [Machine.seqOf, h.seqs, ← Machine.seqOf]

/-! ### Space that is found -/

section
variable {s : State} {p : Nat}

theorem placeIn_keepsTables {r : PitchRecord} {seg da size len : Nat} {x : Nat × State} (h : placeIn s r seg da size len = some x) :
    KeepsTables s x.2 := by
  simp only [placeIn] at h
  split at h
  · obtain rfl := Option.some.inj h
    exact .refl s
  · split at h
    · obtain rfl := Option.some.inj h
      exact ⟨by simp, by simp⟩
    · exact nomatch h

theorem allocHot_keepsTables {len : Nat} {x : Nat × State} (h : allocHot s p len = some x) : KeepsTables s x.2 := by
  simp only [allocHot] at h
  split at h
  · exact nomatch h
  · split at h
    · exact nomatch h
    · next hplace =>
      obtain rfl := Option.some.inj h
      obtain ⟨hseqs, hreqs⟩ := placeIn_keepsTables hplace
      exact ⟨hseqs, hreqs⟩

theorem allocWarm_keepsTables {n len : Nat} {x : Nat × State} (h : allocWarm s p n len = some x) : KeepsTables s x.2 := by
  simp only [allocWarm] at h
  split at h
  · exact nomatch h
  · split at h
    · exact nomatch h
    · split at h
      · exact nomatch h
      · next hplace =>
        obtain rfl := Option.some.inj h
        obtain ⟨hseqs, hreqs⟩ := placeIn_keepsTables hplace
        exact ⟨hseqs, hreqs⟩

theorem dropHot_keepsTables (s : State) (p n : Nat) : KeepsTables s (dropHot s p n) := ⟨by simp [dropHot], by simp [dropHot]⟩

theorem removeIdle_keepsTables (s : State) (p k : Nat) : KeepsTables s (removeIdle s p k) := ⟨by simp [removeIdle], by simp [removeIdle]⟩

theorem hotSpace_keepsTables {len n : Nat} {x : Nat × State} (h : hotSpace p len n s = some x) : KeepsTables s x.2 := by
  induction n generalizing s with
  | zero => exact allocHot_keepsTables h
  | succ n ih =>
    rw [hotSpace] at h
    split at h
    · next halloc =>
      obtain rfl := Option.some.inj h
      exact allocHot_keepsTables halloc
    · split at h
      · exact (dropHot_keepsTables s p _).trans (ih h)
      · split at h
        · exact (removeIdle_keepsTables s p _).trans (ih h)
        · exact nomatch h

theorem warmSpace_keepsTables {m len n : Nat} {x : Nat × State} (h : warmSpace p m len n s = some x) : KeepsTables s x.2 := by
  induction n generalizing s with
  | zero => exact allocWarm_keepsTables h
  | succ n ih =>
    rw [warmSpace] at h
    split at h
    · next halloc =>
      obtain rfl := Option.some.inj h
      exact allocWarm_keepsTables halloc
    · split at h
      · exact (removeIdle_keepsTables s p _).trans (ih h)
      · exact nomatch h

theorem demoteNow_keepsTables {n : Nat} {t : State} (h : demoteNow s p n = some t) : KeepsTables s t := by
  simp only [demoteNow] at h
  split at h
  · exact nomatch h
  · next hwarm =>
    have hspace := warmSpace_keepsTables hwarm
    split at h
    · exact nomatch h
    · split at h
      · obtain rfl := Option.some.inj h
        exact hspace.trans ⟨by simp [dropHot], by simp [dropHot]⟩
      · obtain rfl := Option.some.inj h
        exact hspace.trans ⟨by simp, by simp⟩

theorem flushRoom_keepsTables {len n : Nat} {x : Nat × State} (h : flushRoom p len n s = some x) : KeepsTables s x.2 := by
  induction n generalizing s with
  | zero => exact hotSpace_keepsTables h
  | succ n ih =>
    rw [flushRoom] at h
    split at h
    · next hroom =>
      obtain rfl := Option.some.inj h
      exact hotSpace_keepsTables hroom
    · split at h
      · exact nomatch h
      · split at h
        · exact nomatch h
        · next hdemote => exact (demoteNow_keepsTables hdemote).trans (ih h)

theorem spaceNow_keepsTables {len : Nat} {x : Nat × State} (h : spaceNow s p len = some x) : KeepsTables s x.2 := flushRoom_keepsTables h

theorem freePlaces_keepsTables (p : Nat) (l : List Nat) (s : State) : KeepsTables s (freePlaces p l s) := by
  induction l generalizing s with
  | nil => exact .refl s
  | cons a l ih => exact KeepsTables.trans ⟨by simp, by simp⟩ (ih (freeRange s p a))

theorem takePlaces_keepsTables {len n : Nat} {x : List Nat × State} (h : takePlaces p len n s = some x) : KeepsTables s x.2 := by
  induction n generalizing s x with
  | zero =>
    obtain rfl := Option.some.inj h
    exact .refl s
  | succ n ih =>
    rw [takePlaces] at h
    split at h
    · exact nomatch h
    · next hspace =>
      obtain ⟨y, hrest, rfl⟩ := Option.map_eq_some_iff.1 h
      have htail : KeepsTables _ y.2 := ih hrest
      exact (spaceNow_keepsTables hspace).trans htail

theorem fitPlaces_keepsTables {len n : Nat} {l : List Nat} {x : List Nat × State} (h : fitPlaces s p len n l = some x) : KeepsTables s x.2 := by
  obtain ⟨y, htake, rfl⟩ := Option.map_eq_some_iff.1 h
  exact (takePlaces_keepsTables htake).trans (freePlaces_keepsTables p _ y.2)

end

/-! ### Tree nodes -/

theorem insertNode_keepsTables (s : State) (r : PitchRecord) (i c : Nat) (tokens : List Nat) : KeepsTables s (insertNode s r i c tokens) := by
  simp only [insertNode]
  split
  · exact .refl s
  · split
    · exact .refl s
    · split
      · exact .refl s
      · next hspace => exact (spaceNow_keepsTables hspace).trans ⟨by simp, by simp⟩

theorem insertNodes_keepsTables (r : PitchRecord) (i : Nat) (l : List Nat) (s : State) : KeepsTables s (insertNodes r i l s) := by
  induction l generalizing s with
  | nil => exact .refl s
  | cons c l ih => exact (insertNode_keepsTables s r i c _).trans (ih _)

theorem insertRow_keepsTables (s : State) (r : PitchRecord) (m : MicroRow) : KeepsTables s (insertRow s r m) := by
  unfold insertRow
  dsimp only
  split
  · exact insertNodes_keepsTables r m.seq _ s
  · exact .refl s

end Sys2Proof.Machine
end

section
/-! SUPPORT. A change of one layer of a sequence leaves the rest of it, and the other sequences. -/

namespace Sys2Proof.Machine

@[simp] theorem seqOf_onLayerAt (s : State) (i j : Nat) (f : LayerState → LayerState) :
    seqOf (onLayerAt s i j f) i = { seqOf s i with layers := (seqOf s i).layers.modify j f } := by
  rw [onLayerAt, seqOf_onSeq, List.modify_eq_set_getElem?]
  cases (seqOf s i).layers[j]? with
  | none => rfl
  | some l => rfl

theorem seqOf_onLayerAt_ne (s : State) {i k : Nat} (j : Nat) (f : LayerState → LayerState) (h : k ≠ i) :
    seqOf (onLayerAt s i j f) k = seqOf s k :=
  seqOf_onSeq_ne s _ h

/-- Writing the header of a staging buffer writes memory alone. -/
theorem stagingHeader_keepsTables (s : State) (r : PitchRecord) (i j : Nat) : KeepsTables s (stagingHeader s r i j) := by
  unfold stagingHeader
  split
  · exact .refl s
  · split
    · exact .refl s
    · exact ⟨by simp, by simp⟩

end Sys2Proof.Machine
end

section
/-! PROOF. O32: the commit of a row (R210, R213, R298, R304). -/

namespace Sys2Proof.Machine

/-- How far a sequence has come, its state, and the number of its layers. -/
structure Progress where
  length : Nat
  step : Nat
  tokens : List Nat
  state : SeqState
  generation : Nat
  layers : Nat

/-- That of an entry. -/
def progressOf (e : SeqEntry) : Progress := ⟨e.length, e.step, e.tokens, e.state, e.generation, e.layers.length⟩

section
variable (s : State) (r : PitchRecord) (i : Nat)

/-! ### Outcomes and latches (R298, R302 to R306) -/

theorem progressOf_onLayerAt (j : Nat) (f : LayerState → LayerState) : progressOf (seqOf (onLayerAt s i j f) i) = progressOf (seqOf s i) := by
  simp [progressOf]

theorem progressOf_noteDecision (d : Decision) : progressOf (seqOf (noteDecision s i d) i) = progressOf (seqOf s i) := by
  rw [noteDecision, seqOf_onSeq]
  rfl

theorem seqOf_rangerEvent (cls code pitch : Nat) (detail : List Byte) : seqOf (rangerEvent s cls code pitch detail) i = seqOf s i := by
  simp [seqOf]

theorem progressOf_applyOutcome (j : Nat) (o : Bool) (value : Nat) : progressOf (seqOf (applyOutcome s r i j o value) i) = progressOf (seqOf s i) := by
  have hnote (x : Latch) (d : Decision) :
      progressOf (seqOf (noteDecision (onLayerAt s i j fun l => { l with latch := x }) i d) i) = progressOf (seqOf s i) := by
    rw [progressOf_noteDecision, progressOf_onLayerAt]
  simp only [applyOutcome]
  split
  · rfl
  · split
    · exact progressOf_onLayerAt s i j _
    · split
      · exact hnote _ _
      · split
        · split
          · exact hnote _ _
          · rw [seqOf_rangerEvent, hnote]
        · rw [seqOf_rangerEvent, hnote]

theorem progressOf_applyOutcomes (js : List Nat) : progressOf (seqOf (applyOutcomes r i js s) i) = progressOf (seqOf s i) := by
  induction js generalizing s with
  | nil => rfl
  | cons j js ih =>
    rw [applyOutcomes]
    split
    · exact ih s
    · split
      · exact ih s
      · rw [ih, progressOf_applyOutcome]
        split
        · exact progressOf_onLayerAt s i j _
        · rfl

/-! ### Layers that are committed (R210, R213) -/

/-- Nothing of the layer is PENDING, and all that it has staged is committed. -/
def LayerCommitted (l : LayerState) : Prop := l.pendingPages = [] ∧ l.staging.count = l.staging.staged

/-- From `s` to `t` the sequence keeps its progress and every layer but the one at place j. -/
structure LayerAtOnly (j : Nat) (t : State) : Prop where
  progress : progressOf (seqOf t i) = progressOf (seqOf s i)
  layers : ∀ k, k ≠ j → (seqOf t i).layers[k]? = (seqOf s i).layers[k]?

variable {s r i}

theorem KeepsTables.layerAtOnly {t : State} (h : KeepsTables s t) (j : Nat) : LayerAtOnly s i j t :=
  ⟨by rw [h.seqOf], fun _ _ => by rw [h.seqOf]⟩

theorem LayerAtOnly.trans {j : Nat} {t u : State} (h₁ : LayerAtOnly s i j t) (h₂ : LayerAtOnly t i j u) : LayerAtOnly s i j u :=
  ⟨h₂.progress.trans h₁.progress, fun k hk => (h₂.layers k hk).trans (h₁.layers k hk)⟩

theorem onLayerAt_layerAtOnly (j : Nat) (f : LayerState → LayerState) : LayerAtOnly s i j (onLayerAt s i j f) := by
  refine ⟨progressOf_onLayerAt s i j f, fun k hk => ?_⟩
  rw [seqOf_onLayerAt]
  exact List.getElem?_modify_ne f _ hk.symm

theorem commitPages_layerAtOnly (j : Nat) (ns : List Nat) : LayerAtOnly s i j (commitPages r i j ns s) := by
  induction ns generalizing s with
  | nil => exact (KeepsTables.refl s).layerAtOnly j
  | cons n ns ih =>
    simp only [commitPages]
    have hpage (g : Page) : LayerAtOnly s i j (putPage s r.pitch n g) := KeepsTables.layerAtOnly ⟨by simp, by simp⟩ j
    split
    · exact ih
    · refine LayerAtOnly.trans ?_ ih
      split
      · exact ((hpage _).trans (onLayerAt_layerAtOnly j _)).trans (onLayerAt_layerAtOnly j _)
      · exact (hpage _).trans (onLayerAt_layerAtOnly j _)

/-- A layer that is committed is so whatever it held, and the others stay. -/
theorem commitLayer_commits (s : State) (r : PitchRecord) (i j : Nat) : LayerAtOnly s i j (commitLayer s r i j)
    ∧ ∀ l, (seqOf (commitLayer s r i j) i).layers[j]? = some l → LayerCommitted l := by
  unfold commitLayer
  split
  · next hnone => exact ⟨(KeepsTables.refl s).layerAtOnly j, fun l hl => nomatch hnone.symm.trans hl⟩
  · dsimp only
    refine ⟨LayerAtOnly.trans ?_ ((commitPages_layerAtOnly j _).trans
      ((onLayerAt_layerAtOnly j _).trans ((stagingHeader_keepsTables _ r i j).layerAtOnly j))), fun l hl => ?_⟩
    · split
      · exact (KeepsTables.refl s).layerAtOnly j
      · exact KeepsTables.layerAtOnly ⟨by simp, by simp⟩ j
    · rw [(stagingHeader_keepsTables _ r i j).seqOf, seqOf_onLayerAt, List.getElem?_modify_eq] at hl
      obtain ⟨l₀, -, rfl⟩ := Option.map_eq_some_iff.1 hl
      exact ⟨rfl, rfl⟩

/-- Once the layers of a list are committed, those and the ones committed before are. -/
theorem commitLayers_commits (r : PitchRecord) (i : Nat) (js : List Nat) (s : State) :
    progressOf (seqOf (commitLayers r i js s) i) = progressOf (seqOf s i)
      ∧ ∀ k, k ∈ js ∨ (∀ l, (seqOf s i).layers[k]? = some l → LayerCommitted l) →
        ∀ l, (seqOf (commitLayers r i js s) i).layers[k]? = some l → LayerCommitted l := by
  induction js generalizing s with
  | nil => exact ⟨rfl, fun k hk => hk.resolve_left List.not_mem_nil⟩
  | cons j js ih =>
    obtain ⟨honly, hcommitted⟩ := commitLayer_commits s r i j
    obtain ⟨hprogress, hlayers⟩ := ih (commitLayer s r i j)
    refine ⟨hprogress.trans honly.progress, fun k hk => hlayers k ?_⟩
    by_cases hkj : k = j
    · exact .inr (hkj ▸ hcommitted)
    · rw [honly.layers k hkj]
      exact hk.imp_left fun hmem => (List.mem_cons.1 hmem).resolve_left hkj

end

/-! ### O32 -/

/-- A commit of a row with new tokens: the sequence after the outcomes and the layers goes on by the row, whatever tree nodes are inserted. -/
theorem seqOf_commitRow {s : State} {r : PitchRecord} {m : MicroRow} (hlive : (seqOf s m.seq).state ≠ .free) (hnew : m.newTokens ≠ 0) :
    let js := List.range (seqOf s m.seq).layers.length
    let e := seqOf (commitLayers r m.seq js (applyOutcomes r m.seq js s)) m.seq
    seqOf (commitRow s r m) m.seq
      = { e with length := e.length + m.newTokens, step := e.step + 1, tokens := e.tokens ++ m.tokens, pending := none } := by
  simp only [commitRow]
  rw [if_neg (not_or.2 ⟨hlive, hnew⟩)]
  split
  · rw [(insertRow_keepsTables _ r m).seqOf, seqOf_onSeq]
  · rw [seqOf_onSeq]

/-- Settles O32: outcomes and commits of layers leave how far the sequence has come, and every layer of it is committed. -/
theorem committedRowsAdvanceTheirSequence : Obligations.CommittedRowsAdvanceTheirSequence := by
  unfold Obligations.CommittedRowsAdvanceTheirSequence
  intro s r m hlive hnew e f
  have hf : f = _ := seqOf_commitRow (r := r) hlive hnew
  have houtcomes := progressOf_applyOutcomes s r m.seq (List.range e.layers.length)
  obtain ⟨hkept, hcommitted⟩ := commitLayers_commits r m.seq (List.range e.layers.length) (applyOutcomes r m.seq (List.range e.layers.length) s)
  have hprogress := hkept.trans houtcomes
  simp only [progressOf, Progress.mk.injEq] at hprogress
  obtain ⟨hlength, hstep, htokens, hstate, hgeneration, hlayers⟩ := hprogress
  rw [hf]
  refine ⟨by rw [← hlength], by rw [← hstep], by rw [← htokens], rfl, hstate, hgeneration, fun l hl => ?_⟩
  obtain ⟨k, hk, rfl⟩ := List.mem_iff_getElem.1 hl
  exact hcommitted k (.inl (List.mem_range.2 (hlayers ▸ hk))) _ (List.getElem?_eq_getElem hk)

end Sys2Proof.Machine
end

section
/-! SUPPORT. An accepted command that is due acts (R311, R334, R341, R445, R458), and a command that has completed is no longer there (R342). -/

namespace Sys2Proof.Machine

/-! ### Accepted commands -/

theorem rid_of_reqOf {s : State} {rid : Nat} {q : Request} (h : reqOf s rid = some q) : q.rid = rid := by
  simpa using List.find?_some h

theorem reqOf_finish (s : State) (q : Request) (result endCode handle value : Nat) : reqOf (finish s q result endCode handle value) q.rid = none := by
  rw [reqOf, List.find?_eq_none]
  intro x hx
  simpa using (List.mem_filter.1 hx).2

theorem reqOf_finishPlain (s : State) (q : Request) (result : Nat) : reqOf (finishPlain s q result) q.rid = none := reqOf_finish s q result 0 q.handle 0

/-- A change of an accepted command that leaves its number. -/
theorem reqOf_onReq {s : State} {rid : Nat} {q : Request} {f : Request → Request} (hf : ∀ x, (f x).rid = x.rid) (h : reqOf s rid = some q) :
    reqOf (onReq s rid f) rid = some (f q) := by
  have hmatch : ((fun x : Request => decide (x.rid = rid)) ∘ fun x => if x.rid = rid then f x else x) = fun x => decide (x.rid = rid) := by
    funext x
    by_cases hx : x.rid = rid
    · simp [hx, hf]
    · simp [hx]
  rw [reqOf, onReq, List.find?_map, hmatch, ← reqOf, h, Option.map_some, if_pos (rid_of_reqOf h)]

theorem pitch_of_recordOf {s : State} {p : Nat} {r : PitchRecord} (h : recordOf s p = some r) : r.pitch = p := by
  unfold recordOf at h
  split at h
  · exact nomatch h
  · simpa using List.find?_some h

/-! ### Commands that are due -/

theorem of_dueReq {s : State} {rid op : Nat} {q : Request} {r : PitchRecord} (h : dueReq s rid op = some (q, r)) :
    reqOf s rid = some q ∧ recordOf s q.pitch = some r ∧ q.opcode = op := by
  unfold dueReq at h
  split at h
  · exact nomatch h
  · next hreq =>
    split at h
    · exact nomatch h
    · next hrecord =>
      obtain ⟨⟨hop, -⟩, hpair⟩ := Option.ite_none_right_eq_some.1 h
      obtain ⟨rfl, rfl⟩ := Prod.mk.inj (Option.some.inj hpair)
      exact ⟨hreq, hrecord, hop⟩

/-- The requests that a preempting park ends leave pitches, configuration and start as they were. -/
theorem preemptRequests_keeps (s : State) (i : Nat) :
    (preemptRequests s i).pitches = s.pitches ∧ (preemptRequests s i).boot = s.boot := by
  unfold preemptRequests
  cases runningReq s i with
  | none => simp
  | some x => simp

theorem afterPreempt_keeps (s : State) (q : Request) : (afterPreempt s q).pitches = s.pitches ∧ (afterPreempt s q).boot = s.boot := by
  unfold afterPreempt
  split
  · exact preemptRequests_keeps s _
  · exact ⟨rfl, rfl⟩

/-- A park that stops the requests of the command's sequence is before it. -/
def Preempted (s : State) (q : Request) : Prop := namesNone q = false ∧ preempted s (handleIndex q.handle) = true

theorem afterPreempt_preempted {s : State} {q : Request} (h : Preempted s q) : afterPreempt s q = preemptRequests s (handleIndex q.handle) :=
  if_pos ⟨by simp [h.1], h.2⟩

theorem afterPreempt_acts {s : State} {q : Request} (h : namesNone q = true ∨ preempted s (handleIndex q.handle) = false) : afterPreempt s q = s :=
  if_neg fun ⟨hnames, hpre⟩ => h.elim hnames fun hfalse => Bool.false_ne_true (hfalse.symm.trans hpre)

section
variable {s : State} {rid op : Nat} {q : Request} {r : PitchRecord} (f : State → Request → PitchRecord → State)

/-- A due command acts, unless it is one that a preempting park ends (R311). -/
theorem onDue_due (h : Due s rid op q r) (hop : 4 < op ∨ ¬Preempted s q) : onDue s rid op f = f (afterPreempt s q) q r := by
  obtain ⟨hdue, hhandle, hrun, harm⟩ := h
  obtain ⟨hpitches, hboot⟩ := afterPreempt_keeps s q
  have hstopped : (pitchOf (afterPreempt s q) q.pitch).stopped = false := by rw [pitchOf, hpitches, ← pitchOf, hrun]
  unfold onDue
  simp only [hdue]
  rw [if_neg fun ⟨hnames, hbad⟩ => hhandle.elim hnames fun hgood => Bool.false_ne_true (hbad.symm.trans hgood), if_neg, if_neg, if_neg]
  · rw [hboot]
    exact fun ⟨harmed, _⟩ => harmed harm
  · rw [hstopped]
    exact fun ⟨htrue, _⟩ => Bool.false_ne_true htrue
  · rintro ⟨hle, hnames, hpre⟩
    rcases hop with hlt | hnot
    · omega
    · exact hnot ⟨by simpa using hnames, hpre⟩

/-- A due CREATE, CONTINUE, TRUNCATE or FORK ends with the requests that a preempting park stops (R311). -/
theorem onDue_preempted (h : Due s rid op q r) (hop : op ≤ 4) (hpre : Preempted s q) :
    onDue s rid op f = preemptRequests s (handleIndex q.handle) := by
  obtain ⟨hdue, hhandle, -, -⟩ := h
  obtain ⟨hnames, hpark⟩ := hpre
  unfold onDue
  simp only [hdue]
  rw [if_neg fun ⟨_, hbad⟩ => hhandle.elim (fun htrue => Bool.false_ne_true (hnames.symm.trans htrue))
    fun hgood => Bool.false_ne_true (hbad.symm.trans hgood), if_pos ⟨hop, by simp [hnames], hpark⟩]
  exact afterPreempt_preempted ⟨hnames, hpark⟩

/-- A command that may act acts. -/
theorem onDue_acts (h : MayAct s rid op q r) : onDue s rid op f = f s q r := by
  obtain ⟨hdue, hfree⟩ := h
  have hnot : ¬Preempted s q := fun ⟨hnames, hpre⟩ =>
    hfree.elim (fun htrue => Bool.false_ne_true (hnames.symm.trans htrue)) fun hfalse => Bool.false_ne_true (hfalse.symm.trans hpre)
  rw [onDue_due f hdue (.inr hnot), afterPreempt_acts hfree]

end

end Sys2Proof.Machine
end

section
/-! SUPPORT. What changes of a sequence's layers, and the end of an import, leave of the tables (R206, R208, R235, R330). -/

namespace Sys2Proof.Machine

/-- From `s` to `t` nothing of the tables changes but the layers of sequence i. -/
structure LayersOf (i : Nat) (s t : State) : Prop where
  entry : seqOf t i = { seqOf s i with layers := (seqOf t i).layers }
  others : ∀ k, k ≠ i → seqOf t k = seqOf s k
  reqs : t.reqs = s.reqs

theorem KeepsTables.layersOf {s t : State} (h : KeepsTables s t) (i : Nat) : LayersOf i s t :=
  ⟨by rw [h.seqOf], fun k _ => h.seqOf k, h.reqs⟩

theorem LayersOf.refl (i : Nat) (s : State) : LayersOf i s s := (KeepsTables.refl s).layersOf i

theorem LayersOf.trans {i : Nat} {s t u : State} (h₁ : LayersOf i s t) (h₂ : LayersOf i t u) : LayersOf i s u := by
  refine ⟨?_, fun k hk => (h₂.others k hk).trans (h₁.others k hk), h₂.reqs.trans h₁.reqs⟩
  rw [h₂.entry, h₁.entry]

theorem onSeq_layersOf (s : State) (i : Nat) {f : SeqEntry → SeqEntry} (hf : ∀ e, f e = { e with layers := (f e).layers }) :
    LayersOf i s (onSeq s i f) := by
  refine ⟨?_, fun k hk => seqOf_onSeq_ne s f hk, rfl⟩
  rw [seqOf_onSeq]
  exact hf _

theorem onLayerAt_layersOf (s : State) (i j : Nat) (f : LayerState → LayerState) : LayersOf i s (onLayerAt s i j f) :=
  ⟨by rw [seqOf_onLayerAt], fun _ hk => seqOf_onLayerAt_ne s j f hk, rfl⟩

/-- The places of a layer's page list and superpage summaries (R206). -/
theorem fitLayer_layersOf {s t : State} {p i j : Nat} (h : fitLayer s p i j = some t) : LayersOf i s t := by
  simp only [fitLayer] at h
  split at h
  · obtain rfl := Option.some.inj h
    exact .refl i s
  · split at h
    · exact nomatch h
    · next hlists =>
      obtain ⟨x, hsupers, rfl⟩ := Option.map_eq_some_iff.1 h
      refine (((fitPlaces_keepsTables hlists).trans (fitPlaces_keepsTables hsupers)).layersOf i).trans (onSeq_layersOf x.2 i fun e => ?_)
      cases e.layers[j]? with
      | none => rfl
      | some l => rfl

theorem openStaging_layersOf {s t : State} {i j tag len : Nat} (h : openStaging s i j tag len = some t) : LayersOf i s t := by
  simp only [openStaging] at h
  split at h
  · obtain rfl := Option.some.inj h
    exact .refl i s
  · split at h
    · obtain rfl := Option.some.inj h
      exact onSeq_layersOf s i fun _ => rfl
    · obtain ⟨x, hspace, rfl⟩ := Option.map_eq_some_iff.1 h
      exact ((spaceNow_keepsTables hspace).layersOf i).trans (onSeq_layersOf x.2 i fun _ => rfl)

/-- The end of an import changes of the tables the import of the sequence alone. -/
structure ImportEnds (i : Nat) (s t : State) : Prop where
  entry : seqOf t i = { seqOf s i with importing := (seqOf t i).importing, source := (seqOf t i).source }
  others : ∀ k, k ≠ i → seqOf t k = seqOf s k
  reqs : t.reqs = s.reqs
  pitches : t.pitches = s.pitches
  mem : t.mem = s.mem

theorem importDone_ends (s : State) (i : Nat) : ImportEnds i s (importDone s i) := by
  unfold importDone
  dsimp only
  split
  · exact ⟨rfl, fun _ _ => rfl, rfl, rfl, rfl⟩
  · next m _ =>
    split
    · exact ⟨rfl, fun _ _ => rfl, rfl, rfl, rfl⟩
    · have hput (k : Nat) (t : State) (h : t.seqs = (putSeq s i { seqOf s i with importing := none, source := none }).seqs) :
          seqOf t k = seqOf (putSeq s i { seqOf s i with importing := none, source := none }) k := by
        rw [seqOf, h, ← seqOf]
      split
      · refine ⟨?_, fun k hk => ?_, by simp, by simp, by simp⟩
        · rw [hput i _ (by simp), seqOf_putSeq]
        · rw [hput k _ (by simp), seqOf_putSeq_ne _ _ hk]
      · refine ⟨?_, fun k hk => ?_, by simp, by simp, by simp⟩
        · rw [hput i _ (by simp), seqOf_putSeq]
        · rw [hput k _ (by simp), seqOf_putSeq_ne _ _ hk]

end Sys2Proof.Machine
end

section
/-! PROOF. O35: TRUNCATE (R14, R234 to R236, R458). -/

namespace Sys2Proof.Machine

/-! ### Layers that are truncated (R213, R235) -/

theorem reopenPage_layersOf {s t : State} {r : PitchRecord} {i j p count : Nat} (h : reopenPage s r i j p count = some t) : LayersOf i s t := by
  simp only [reopenPage] at h
  split at h
  · obtain rfl := Option.some.inj h
    exact .refl i s
  · obtain ⟨u, hopen, rfl⟩ := Option.map_eq_some_iff.1 h
    refine (openStaging_layersOf hopen).trans ?_
    split
    · exact .refl i u
    · exact (KeepsTables.layersOf ⟨by simp, by simp⟩ i).trans (onLayerAt_layersOf _ i j _)

theorem truncateLayer_layersOf {s t : State} {r : PitchRecord} {i n j : Nat} (h : truncateLayer s r i n j = some t) : LayersOf i s t := by
  simp only [truncateLayer] at h
  split at h
  · obtain rfl := Option.some.inj h
    exact .refl i s
  · next l _ =>
    obtain ⟨u, hopened, rfl⟩ := Option.map_eq_some_iff.1 h
    have hopen : LayersOf i s u := by
      split at hopened
      · obtain rfl := Option.some.inj hopened
        exact onLayerAt_layersOf s i j _
      · split at hopened
        · exact reopenPage_layersOf hopened
        · obtain rfl := Option.some.inj hopened
          exact onLayerAt_layersOf s i j _
    have hfit (v : State) : LayersOf i v ((fitLayer v r.pitch i j).getD v) := by
      cases hv : fitLayer v r.pitch i j with
      | none => exact .refl i v
      | some w => exact fitLayer_layersOf hv
    have hdrop (v : State) (ns : List Nat) : LayersOf i v (dropRefs r.pitch ns v) := KeepsTables.layersOf ⟨by simp, by simp⟩ i
    exact (((hopen.trans (hdrop u _)).trans (onLayerAt_layersOf _ i j _)).trans (hfit _)).trans ((stagingHeader_keepsTables _ r i j).layersOf i)

theorem truncateLayers_layersOf {r : PitchRecord} {i n : Nat} {js : List Nat} {s t : State} (h : truncateLayers r i n js s = some t) :
    LayersOf i s t := by
  induction js generalizing s with
  | nil =>
    obtain rfl := Option.some.inj h
    exact .refl i s
  | cons j js ih =>
    rw [truncateLayers] at h
    split at h
    · exact nomatch h
    · next hlayer => exact (truncateLayer_layersOf hlayer).trans (ih h)

theorem truncateEntry_cuts (r : PitchRecord) (n : Nat) (e : SeqEntry) :
    (truncateEntry r n e).length = n ∧ (truncateEntry r n e).tokens = e.tokens.take n := by
  simp only [truncateEntry]
  split
  · exact ⟨rfl, rfl⟩
  · exact ⟨rfl, rfl⟩

/-- From `s` to `t` sequence i has been truncated to length n. -/
structure Truncated (i n : Nat) (s t : State) : Prop where
  length : (seqOf t i).length = n
  tokens : (seqOf t i).tokens = (seqOf s i).tokens.take n
  others : ∀ k, k ≠ i → seqOf t k = seqOf s k

theorem truncateSeq_truncates {s t : State} {r : PitchRecord} {i n : Nat} (h : truncateSeq s r i n = some t) : Truncated i n s t := by
  obtain ⟨u, hlayers, rfl⟩ := Option.map_eq_some_iff.1 h
  have hcut := truncateLayers_layersOf hlayers
  have hdone := importDone_ends (onSeq u i (truncateEntry r n)) i
  obtain ⟨hlength, htokens⟩ := truncateEntry_cuts r n (seqOf u i)
  refine ⟨?_, ?_, fun k hk => ?_⟩
  · rw [hdone.entry, seqOf_onSeq, hlength]
  · rw [hdone.entry, seqOf_onSeq, htokens, hcut.entry]
  · rw [hdone.others k hk, seqOf_onSeq_ne _ _ hk, hcut.others k hk]

/-! ### TRUNCATE -/

/-- A truncation that finds its space completes the command. -/
theorem finishTruncate_truncates {s : State} {q : Request} {r : PitchRecord} (h : truncateSeq s r (handleIndex q.handle) q.count ≠ none) :
    Truncated (handleIndex q.handle) q.count s (finishTruncate s q r) ∧ reqOf (finishTruncate s q r) q.rid = none := by
  obtain ⟨u, hu⟩ := Option.ne_none_iff_exists'.1 h
  have htables (k : Nat) : seqOf (finishPlain (tellGroup u r.pitch (.truncate q.handle q.count)) q rcDone) k = seqOf u k := by simp [seqOf]
  obtain ⟨hlength, htokens, hothers⟩ := truncateSeq_truncates hu
  simp only [finishTruncate, hu]
  exact ⟨⟨by rw [htables, hlength], by rw [htables, htokens], fun k hk => by rw [htables, hothers k hk]⟩, reqOf_finishPlain _ q _⟩

section
variable {s : State} {q : Request} {r : PitchRecord} (hparked : (seqOf s (handleIndex q.handle)).state ≠ .parked)
  (hheld : (seqOf s (handleIndex q.handle)).state ≠ .held)
include hparked hheld

theorem doTruncate_beyond (hlong : (seqOf s (handleIndex q.handle)).length < q.count) : doTruncate s q r = finishPlain s q rcBadArgument := by
  simp only [doTruncate]
  rw [if_neg (not_or.2 ⟨hparked, hheld⟩), if_pos hlong]

theorem doTruncate_forgotten (hlong : q.count ≤ (seqOf s (handleIndex q.handle)).length)
    (hold : q.count < oldestLength (seqOf s (handleIndex q.handle))) : doTruncate s q r = finishPlain s q rcRefusedState := by
  simp only [doTruncate]
  rw [if_neg (not_or.2 ⟨hparked, hheld⟩), if_neg hlong.not_gt, if_pos hold]

/-- Within the journal the command waits for the copy of a page without a hot one, and otherwise truncates at once. -/
theorem doTruncate_within (hlong : q.count ≤ (seqOf s (handleIndex q.handle)).length)
    (hold : oldestLength (seqOf s (handleIndex q.handle)) ≤ q.count) :
    doTruncate s q r = if reopensWarm s (handleIndex q.handle) q.count then onReq s q.rid fun q => { q with state := .copying }
      else finishTruncate s q r := by
  simp only [doTruncate]
  rw [if_neg (not_or.2 ⟨hparked, hheld⟩), if_neg hlong.not_gt, if_neg hold.not_gt]

end

/-! ### TRUNCATION_COPY_DONE -/

theorem exec_truncationCopyDone {s : State} {rid : Nat} {q : Request} {r : PitchRecord} (hreq : reqOf s rid = some q)
    (hrecord : recordOf s q.pitch = some r) (hop : q.opcode = 3) (hstate : q.state = .copying) (found : List Finding) :
    exec (.truncationCopyDone rid found) s = .next (doCopyDone s q r found) := by
  show execTruncationCopyDone rid found s = _
  simp only [execTruncationCopyDone, hreq, hrecord]
  exact if_pos ⟨hop, hstate⟩

/-- The copies have been read: their findings come first, then a lost page ends the command, and otherwise it truncates. -/
theorem doCopyDone_reads {s : State} {q : Request} {r : PitchRecord} (hrun : (pitchOf s q.pitch).stopped = false)
    (hready : copiesReady s (handleIndex q.handle) q.count = true) (hopen : groupOpen s r 3 = true)
    (hadm : Admitted s (copyRanges s r (handleIndex q.handle) q.count)) {found : List Finding}
    (hfound : found.any (findingWaits s false) = false) :
    let u := rangerFindings q.pitch found (touched s (copyRanges s r (handleIndex q.handle) q.count))
    doCopyDone s q r found = if found.any stopsCommand then u
      else if (seqOf u (handleIndex q.handle)).hold = 4 then finishPlain u q rcIntegrityFail else finishTruncate u q r := by
  simp only [doCopyDone]
  rw [if_neg (by simp [hrun]), if_neg (by simp [hready, hopen]), rangerReads, if_neg (by simp [hfound]), rangerAccess_admitted hadm]

/-! ### O35 -/

/-- Settles O35: the layers of the truncated sequence are the only other part of the tables that a truncation changes. -/
theorem truncateSetsTheLength : Obligations.TruncateSetsTheLength := by
  unfold Obligations.TruncateSetsTheLength
  intro s rid q r i e
  have hexec (hmay : MayAct s rid 3 q r) : exec (.qTruncate rid) s = .next (doTruncate s q r) := congrArg _ (onDue_acts doTruncate hmay)
  have hreq (hmay : MayAct s rid 3 q r) : reqOf s rid = some q := (of_dueReq hmay.1.1).1
  refine ⟨fun hmay hparked hheld => ⟨fun hlong => ?_, fun hlong hold => ?_⟩,
    fun hmay hparked hheld hlong hold => ⟨fun hhot hspace => ?_, fun hwarm => ?_⟩, fun hreq hrecord hop hstate => ?_⟩
  · rw [hexec hmay, doTruncate_beyond hparked hheld hlong, rcBadArgument]
  · rw [hexec hmay, doTruncate_forgotten hparked hheld hlong hold, rcRefusedState]
  · obtain rfl := rid_of_reqOf (hreq hmay)
    obtain ⟨⟨hlength, htokens, hothers⟩, hgone⟩ := finishTruncate_truncates hspace
    refine ⟨_, hexec hmay, ?_⟩
    rw [doTruncate_within hparked hheld hlong hold, if_neg (by simpa [i] using hhot)]
    exact ⟨hlength, htokens, hothers, hgone⟩
  · obtain rfl := rid_of_reqOf (hreq hmay)
    refine ⟨_, { q with state := .copying }, hexec hmay, ?_⟩
    rw [doTruncate_within hparked hheld hlong hold, if_pos hwarm]
    exact ⟨reqOf_onReq (fun _ => rfl) (hreq hmay), rfl, rfl⟩
  · intro rs
    obtain rfl := rid_of_reqOf hreq
    simp only [exec_truncationCopyDone hreq hrecord hop hstate]
    refine ⟨fun hstopped found => congrArg _ (if_pos hstopped), fun hrun hready hopen hadm => ?_⟩
    have hdone (found : List Finding) := doCopyDone_reads hrun hready hopen hadm (found := found)
    have hclean : doCopyDone s q r [] = if e.hold = 4 then finishPlain (touched s rs) q rcIntegrityFail else finishTruncate (touched s rs) q r := by
      rw [show e = seqOf (touched s rs) i from (seqOf_touched s rs i).symm]
      exact hdone [] rfl
    refine ⟨fun found hstops hfound => ?_, fun hlost => ?_, fun hgood hspace => ?_⟩
    · rw [hdone found hfound, if_pos hstops]
    · rw [hclean, if_pos hlost, rcIntegrityFail]
    · obtain ⟨⟨hlength, htokens, hothers⟩, hgone⟩ := finishTruncate_truncates hspace
      refine ⟨_, congrArg _ (hclean.trans (if_neg hgood)), hlength, ?_, fun k hk => ?_, hgone⟩
      · rw [htokens, seqOf_touched]
      · rw [hothers k hk, seqOf_touched]

end Sys2Proof.Machine
end

section
/-! SUPPORT. Reading an image (R325, R327, R348) and losing a page (R225) leave sequences, pages and the bytes of memory. -/

namespace Sys2Proof.Machine

/-! ### Ranges that are asked for -/

/-- From `s` to `t` no sequence, request, pitch or memory changes. -/
structure AsksOnly (s t : State) : Prop extends KeepsTables s t where
  pitches : t.pitches = s.pitches
  mem : t.mem = s.mem

theorem AsksOnly.refl (s : State) : AsksOnly s s := ⟨.refl s, rfl, rfl⟩

theorem AsksOnly.trans {s t u : State} (h₁ : AsksOnly s t) (h₂ : AsksOnly t u) : AsksOnly s u :=
  ⟨h₁.toKeepsTables.trans h₂.toKeepsTables, h₂.pitches.trans h₁.pitches, h₂.mem.trans h₁.mem⟩

theorem AsksOnly.pageOf {s t : State} (h : AsksOnly s t) (p n : Nat) : pageOf t p n = pageOf s p n := by
  rw [Machine.pageOf, pitchOf, h.pitches, ← pitchOf, ← Machine.pageOf]

theorem askRange_asksOnly (s : State) (x : ImageSource) (tag : Nat) (a : Nat × Nat) : AsksOnly s (askRange s x tag a) := by
  simp only [askRange]
  split
  · split
    · exact ⟨⟨by simp, by simp⟩, by simp, by simp⟩
    · exact ⟨⟨by simp, by simp⟩, by simp, by simp⟩
  · exact ⟨⟨by simp, by simp⟩, by simp, by simp⟩

theorem askRanges_asksOnly (x : ImageSource) (tag : Nat) (l : List (Nat × Nat)) (s : State) : AsksOnly s (askRanges x tag l s) := by
  induction l generalizing s with
  | nil => exact .refl s
  | cons a l ih => exact (askRange_asksOnly s x tag a).trans (ih _)

theorem askPage_asksOnly (s : State) (i : Nat) : AsksOnly s (askPage s i) := by
  unfold askPage
  dsimp only
  split
  · split
    · exact askRange_asksOnly s _ _ _
    · exact .refl s
  · exact .refl s

/-! ### Pages that are lost -/

theorem freePages_bytes (p : Nat) (ns : List Nat) (s : State) : (freePages p ns s).mem.bytes = s.mem.bytes := by
  induction ns generalizing s with
  | nil => rfl
  | cons n ns ih => exact (ih _).trans (freePage_bytes s p n)

theorem holdAtBoundary_bytes (s : State) (i cause result : Nat) : (holdAtBoundary s i cause result).mem.bytes = s.mem.bytes := by
  simp [holdAtBoundary, discardAppends, freePages_bytes]

theorem holdAllAtBoundary_bytes (cause result : Nat) (l : List Nat) (s : State) :
    (holdAllAtBoundary cause result l s).mem.bytes = s.mem.bytes := by
  induction l generalizing s with
  | nil => rfl
  | cons i l ih => exact (ih _).trans (holdAtBoundary_bytes s i cause result)

theorem pageLost_bytes (s : State) (p n copy code : Nat) : (pageLost s p n copy code).mem.bytes = s.mem.bytes := by
  simp only [pageLost]
  split
  · exact freePage_bytes s p n
  · simp [holdAllAtBoundary_bytes]

theorem importLost_bytes (s : State) (p n code i : Nat) : (importLost s p n code i).mem.bytes = s.mem.bytes := by
  rw [importLost, (importDone_ends _ i).mem, (askPage_asksOnly _ i).mem, pageLost_bytes]

/-! ### Places that are taken -/

/-- From `s` to `t` neither the configuration nor a page of the pitch changes. -/
structure KeepsPages (p : Nat) (s t : State) : Prop where
  cfg : t.cfg = s.cfg
  pages : (pitchOf t p).pages = (pitchOf s p).pages

theorem KeepsPages.pageOf {p : Nat} {s t : State} (h : KeepsPages p s t) (n : Nat) : pageOf t p n = pageOf s p n := by
  rw [Machine.pageOf, h.pages, ← Machine.pageOf]

theorem KeepsPages.pitchDa {p : Nat} {s t : State} (h : KeepsPages p s t) (a : Nat) : pitchDa t p a = pitchDa s p a := by
  simp only [Machine.pitchDa, recordOf, daOf, translate, h.cfg]

theorem placeIn_keepsPages {s : State} {r : PitchRecord} {seg da size len p : Nat} {x : Nat × State} (h : placeIn s r seg da size len = some x) :
    KeepsPages p s x.2 := by
  simp only [placeIn] at h
  split at h
  · obtain rfl := Option.some.inj h
    exact ⟨rfl, rfl⟩
  · split at h
    · obtain rfl := Option.some.inj h
      exact ⟨rfl, rfl⟩
    · exact nomatch h

theorem allocHot_keepsPages {s : State} {p len : Nat} {x : Nat × State} (h : allocHot s p len = some x) : KeepsPages p s x.2 := by
  simp only [allocHot] at h
  split at h
  · exact nomatch h
  · split at h
    · exact nomatch h
    · next hplace =>
      obtain rfl := Option.some.inj h
      obtain ⟨hcfg, hpages⟩ := placeIn_keepsPages (p := p) hplace
      exact ⟨hcfg, by rw [pitchOf_onPitch]; exact hpages⟩

theorem allocWarm_keepsPages {s : State} {p n len : Nat} {x : Nat × State} (h : allocWarm s p n len = some x) : KeepsPages p s x.2 := by
  simp only [allocWarm] at h
  split at h
  · exact nomatch h
  · split at h
    · exact nomatch h
    · split at h
      · exact nomatch h
      · next hplace =>
        obtain rfl := Option.some.inj h
        obtain ⟨hcfg, hpages⟩ := placeIn_keepsPages (p := p) hplace
        exact ⟨hcfg, by rw [pitchOf_onPitch]; exact hpages⟩

/-- Where hot space is free none is made (R222). -/
theorem roomFor_of_allocHot {s : State} {p len : Nat} {x : Nat × State} (h : allocHot s p len = some x) : roomFor s p len = some x := by
  unfold roomFor
  cases spaceFuel s p with
  | zero => exact h
  | succ n => simp only [hotSpace, h]

/-- Where warm space is free none is made (R231). -/
theorem warmSpace_of_allocWarm {s : State} {p n len : Nat} {x : Nat × State} (h : allocWarm s p n len = some x) (fuel : Nat) :
    warmSpace p n len fuel s = some x := by
  cases fuel with
  | zero => exact h
  | succ k => simp only [warmSpace, h]

end Sys2Proof.Machine
end

section
/-! PROOF. O37: RESUME in place and from images (R299, R325 to R327, R330, R348), and the import of pages (R220, R221, R324, R327, R330, R331). -/

namespace Sys2Proof.Machine

/-! ### What reading an image has given -/

section
variable {s : State} {q : Request} {x : ImageSource} {m : ImageRead} (k : State → State)

/-- Where nothing more is to be read the image is taken. -/
theorem withImage_complete (hheader : headerHeld s x q.tag m = true) (hreads : nextReads m = []) : withImage s q x m k = k s := by
  simp only [withImage, hheader, hreads]
  exact if_neg Bool.noConfusion

/-- Otherwise the next ranges are asked for, and the command waits. -/
theorem withImage_reads (hheader : headerHeld s x q.tag m = true) (hreads : nextReads m ≠ []) :
    withImage s q x m k = askRanges x q.tag (nextReads m) (onReq s q.rid fun q => { q with state := .copying }) := by
  simp only [withImage, hheader, Bool.true_eq_false, if_false]

end

/-! ### RESUME in place (R325) -/

theorem doResume_here (image : Option ImageRead) {s : State} {q : Request} {r : PitchRecord} (hhandle : q.handle ≠ 0) (hcount : q.count = 0) :
    doResume image s q r = resumeHere s q r (image.getD noImage) :=
  if_pos ⟨hhandle, hcount⟩

theorem resumeHere_refused {s : State} {q : Request} {r : PitchRecord} (m : ImageRead)
    (hstate : (seqOf s (handleIndex q.handle)).state ≠ .parked) : resumeHere s q r m = finishPlain s q rcRefusedState :=
  if_pos hstate

/-- A sequence parked on its pitch is resumed at once. -/
theorem resumeHere_kept {s : State} {q : Request} {r : PitchRecord} (m : ImageRead) (hstate : (seqOf s (handleIndex q.handle)).state = .parked)
    (hkept : (seqOf s (handleIndex q.handle)).exported = none) :
    resumeHere s q r m = finishPlain (tellGroup (resumeInPlace s (handleIndex q.handle) q.tag q.origin []) r.pitch (.resumeInPlace q.handle q.tag none))
      q rcDone := by
  simp only [resumeHere, hstate, hkept]
  exact if_neg (not_not.2 rfl)

/-- For an exported one the tags of its image decide, and the other modules of a group are asked first. -/
theorem resumeHere_exported {s : State} {q : Request} {r : PitchRecord} {m : ImageRead} {x : ImageSource}
    (hstate : (seqOf s (handleIndex q.handle)).state = .parked) (hexported : (seqOf s (handleIndex q.handle)).exported = some x)
    (hheader : headerHeld s x q.tag m = true) (hreads : nextReads m = []) :
    resumeHere s q r m = if m.directoryTag = false ∨ m.recordsTag = false then finishPlain s q rcAuthFail
      else if r.group.groupSize ≤ 1 then finishInPlace s q r m
      else tellGroup (onReq s q.rid fun q => { q with image := some m, state := .reading }) r.pitch (.checkInPlace q.handle q.tag none) := by
  simp only [resumeHere, hstate, hexported]
  rw [if_neg (not_not.2 rfl), withImage_complete _ hheader hreads]

/-- The entry of a sequence that is resumed in place without an image: IDLE, or HELD while its hold cause stands, with counters at zero (R299). -/
theorem seqOf_resumeInPlace {s : State} {i : Nat} (hkept : (seqOf s i).exported = none) (tag : Nat) (o : Origin) (places : NMap (Nat × Nat)) :
    seqOf (resumeInPlace s i tag o places) i = zeroCounters { seqOf s i with state := if (seqOf s i).hold = 0 then .idle else .held }
      ∧ ∀ k, k ≠ i → seqOf (resumeInPlace s i tag o places) k = seqOf s k := by
  have hevent (t : State) (p detail) (k : Nat) : seqOf (rangerEvent t 0x0C 0x0A03 p detail) k = seqOf t k := seqOf_rangerEvent t k _ _ _ _
  simp only [resumeInPlace, onSeq, hkept]
  split
  · exact ⟨seqOf_putSeq _ _ _, fun k hk => seqOf_putSeq_ne _ _ hk⟩
  · exact ⟨(hevent _ _ _ _).trans (seqOf_putSeq _ _ _), fun k hk => (hevent _ _ _ _).trans (seqOf_putSeq_ne _ _ hk)⟩

theorem counters_zeroCounters {e : SeqEntry} {l : LayerState} (h : l ∈ (zeroCounters e).layers) : l.counters = Counters.zeros := by
  obtain ⟨l₀, -, rfl⟩ := List.mem_map.1 h
  rfl

/-- The lead of a group of more than one module notes its decision behind the others (R229). -/
theorem decisions_tellGroup {s : State} {p : Nat} {r : PitchRecord} (hrecord : recordOf s p = some r) (hlead : r.group.groupPosition = 0)
    (hgroup : 1 < r.group.groupSize) (d : LeadDecision) : (pitchOf (tellGroup s p d) p).decisions = (pitchOf s p).decisions ++ [d] := by
  simp only [tellGroup, hrecord]
  rw [if_pos ⟨hlead, hgroup⟩, pitchOf_onPitch]

/-! ### RESUME from an image (R326, R327) -/

theorem doResume_refused {s : State} {q : Request} {r : PitchRecord} {m : ImageRead} {f : Nat × Nat} (himage : q.handle = 0 ∨ q.count ≠ 0)
    (hcheck : earlyCheck s q r m = some f) : doResume (some m) s q r = refuseResume s q f.1 f.2 m := by
  simp only [doResume, Option.getD_some, hcheck]
  exact if_neg fun ⟨hhandle, hcount⟩ => himage.elim hhandle fun hne => hne hcount

theorem doResume_image {s : State} {q : Request} {r : PitchRecord} {m : ImageRead} (himage : q.handle = 0 ∨ q.count ≠ 0)
    (hcheck : earlyCheck s q r m = none) :
    doResume (some m) s q r = withImage s q (sourceOf (spaceOf q.origin q.pitch) (sourceFor q.descriptor r)) m fun s => resumeImage s q r m := by
  simp only [doResume, Option.getD_some, hcheck]
  exact if_neg fun ⟨hhandle, hcount⟩ => himage.elim hhandle fun hne => hne hcount

theorem reserveStaging_layersOf {r : PitchRecord} {i : Nat} {m : ImageRead} {js : List Nat} {s t : State}
    (h : reserveStaging r i m js s = some t) : LayersOf i s t := by
  induction js generalizing s with
  | nil =>
    obtain rfl := Option.some.inj h
    exact .refl i s
  | cons j js ih =>
    simp only [reserveStaging] at h
    split at h
    · exact (onLayerAt_layersOf s i j _).trans (ih h)
    · split at h
      · exact nomatch h
      · next hspace => exact ((spaceNow_keepsTables hspace).layersOf i).trans ((onLayerAt_layersOf _ i j _).trans (ih h))

/-- An image that passes every check takes an entry: it is parked at its generation until every record has been read, and no request changes. -/
theorem takeImage_takes {s t : State} {r : PitchRecord} {i count space : Nat} {bs : List Byte} {m : ImageRead}
    (h : takeImage s r i count space bs m = .ok t) :
    (seqOf t i).state = .parked ∧ (seqOf t i).generation = (seqOf s i).generation ∧ t.reqs = s.reqs := by
  simp only [takeImage] at h
  split at h
  · exact nomatch h
  · split at h
    · exact nomatch h
    · next hreserve =>
      split at h
      · exact nomatch h
      · split at h
        · exact nomatch h
        · obtain rfl := Except.ok.inj h
          have hlayers := reserveStaging_layersOf hreserve
          rw [hlayers.entry, seqOf_putSeq]
          exact ⟨rfl, rfl, hlayers.reqs⟩

theorem resumeImage_takes {s t : State} {q : Request} {r : PitchRecord} {m : ImageRead} {k : Nat} (hfree : freeIndex s r = some k)
    (htake : takeImage s r k q.count (spaceOf q.origin q.pitch) (sourceFor q.descriptor r) m = .ok t) :
    resumeImage s q r m = tellGroup (onReq t q.rid fun q => { q with handle := handleOf t k, image := some m, state := .reading }) r.pitch
      (.resume (handleOf t k) q.tag q.descriptor noImage) := by
  simp only [resumeImage, hfree, htake]

/-! ### RESUME_RECORDS_READ (R327, R330, R458) -/

theorem exec_resumeRecordsRead {s : State} {rid : Nat} {q : Request} {r : PitchRecord} (hreq : reqOf s rid = some q)
    (hrecord : recordOf s q.pitch = some r) (hop : q.opcode = 6) (hstate : q.state = .reading) (peer : Option (Nat × Nat)) :
    exec (.resumeRecordsRead rid peer) s = .next (doRecordsRead s q r peer) := by
  show execResumeRecordsRead rid peer s = _
  simp only [execResumeRecordsRead, hreq, hrecord]
  exact if_pos ⟨hop, hstate⟩

section
variable {s : State} {q : Request} {r : PitchRecord} {m : ImageRead} (hrun : (pitchOf s q.pitch).stopped = false) (himage : q.image = some m)
include hrun himage

theorem doRecordsRead_peer (f : Nat × Nat) :
    doRecordsRead s q r (some f) = finish (dropResume s q) q f.2 0 (refusedHandle q) 0 := by
  simp only [doRecordsRead, himage, hrun]
  exact if_neg Bool.noConfusion

theorem doRecordsRead_inPlace (hcount : q.count = 0) (hopen : groupOpen s r 6 = true) (hstate : (seqOf s (handleIndex q.handle)).state = .parked) :
    doRecordsRead s q r none = finishInPlace s q r m := by
  simp only [doRecordsRead, himage, hrun]
  rw [if_neg Bool.noConfusion, if_pos hcount, if_pos hopen, if_pos hstate]

theorem doRecordsRead_read {t : State} (hcount : q.count ≠ 0)
    (hread : readLayers r (handleIndex q.handle) m (List.range r.profile.layers) s = some t) :
    doRecordsRead s q r none = holdIfLost (finish (imageTaken t (handleIndex q.handle) q.tag q.origin m) q rcDone 0 q.handle 0) (handleIndex q.handle) := by
  simp only [doRecordsRead, himage, hrun, hread]
  rw [if_neg Bool.noConfusion, if_neg hcount]

end

/-- A sequence none of whose pages is lost is not held (R225). -/
theorem holdIfLost_good {s : State} {i : Nat} (h : ∀ l ∈ (seqOf s i).layers, ∀ n ∈ l.pages, (pageOf s (seqOf s i).pitch n).state ≠ lostState) :
    holdIfLost s i = s := by
  refine if_neg fun hlost => ?_
  obtain ⟨n, hn, hstate⟩ := List.any_eq_true.1 hlost
  obtain ⟨pages, hpages, hmem⟩ := List.mem_flatten.1 hn
  obtain ⟨l, hl, rfl⟩ := List.mem_map.1 hpages
  exact h l hl n hmem (of_decide_eq_true hstate)

/-- The sequence of an image whose records are read is IDLE; it keeps its pages (R327). -/
theorem imageTaken_taken (s : State) (i tag : Nat) (o : Origin) (m : ImageRead) :
    seqOf (imageTaken s i tag o m) i = { seqOf s i with state := .idle, importing := (seqOf (imageTaken s i tag o m) i).importing }
      ∧ ∀ p n, pageOf (imageTaken s i tag o m) p n = pageOf s p n := by
  have hask (t : State) : AsksOnly t (askPage t i) := askPage_asksOnly t i
  refine ⟨?_, fun p n => (hask _).pageOf p n⟩
  rw [imageTaken, (hask _).seqOf, seqOf_onSeq]

/-! ### Imports (R220, R221, R324, R327, R330) -/

theorem exec_pageImport {s : State} {p n i : Nat} (hp : p < 64) (himporter : importer s p n = some i) (hstate : (pageOf s p n).state = .exported)
    (tagOk digestOk : Bool) (payload : List Byte) :
    exec (.pageImport p n tagOk digestOk payload) s = .next (if (tagOk && digestOk) = false then importLost s p n 0x0403 i
      else landImport s p n i (padTo (payloadBytes (pageOf s p n)) payload) (pageOf s p n).wanted
        (if (pageOf s p n).wanted then roomFor s p (padTo (payloadBytes (pageOf s p n)) payload).length
          else warmSpace p n (padTo (payloadBytes (pageOf s p n)) payload).length (spaceFuel s p) s)) := by
  show execPageImport p n tagOk digestOk payload s = _
  rw [execPageImport, if_pos (by simpa [pitchOk] using hp)]
  simp only [doPageImport, himporter]
  rw [if_neg (not_not.2 hstate)]

theorem exec_imageReadTimeout {s : State} {p n i : Nat} (hp : p < 64) (himporter : importer s p n = some i)
    (hstate : (pageOf s p n).state = .exported) : exec (.imageReadTimeout p n) s = .next (importLost s p n 0x0402 i) := by
  show execImageReadTimeout p n s = _
  rw [execImageReadTimeout, if_pos (by simpa [pitchOk] using hp)]
  simp only [doReadTimeout, himporter]
  rw [if_pos hstate]

theorem padTo_length_self (bs : List Byte) : padTo bs.length bs = bs := by
  simp [padTo]

/-- A page that lands at a place found for it: its state and its place, with its payload there and no byte elsewhere changed. -/
theorem landImport_lands {s s₁ : State} {p n i a : Nat} {bs : List Byte} (hot : Bool) (hkeep : KeepsPages p s s₁)
    (hstalls : rangeStalls s₁ (pitchDa s p a, bs.length) = false) (hstate : (pageOf s p n).state = .exported) :
    let t := landImport s p n i bs hot (some (a, s₁))
    (pageOf t p n).state = (if hot then .hot else .warm) ∧ (if hot then (pageOf t p n).hot else (pageOf t p n).warm) = a
      ∧ (pageOf t p n).wanted = false ∧ peekBytes t (pitchDa s p a) bs.length = bs ∧ MemoryElsewhere s₁ t (pitchDa s p a) bs.length := by
  intro t
  have hland : t = importDone (askPage (putPage (pokeBytes s₁ (pitchDa s p a) bs) p n
      (if hot then { pageOf s p n with state := .hot, wanted := false, summary := importedSummary (pageOf s p n) bs, hot := a }
        else { pageOf s p n with state := .warm, wanted := false, summary := importedSummary (pageOf s p n) bs, warm := a })) i) i := by
    simp only [t, landImport, hkeep.pitchDa, hkeep.pageOf]
    rw [if_neg (by simp [hstalls]), if_neg (not_not.2 hstate)]
    cases hot with
    | true => rfl
    | false => rfl
  have hafter (u : State) : (importDone (askPage u i) i).mem = u.mem ∧ pageOf (importDone (askPage u i) i) p n = pageOf u p n := by
    have hends := importDone_ends (askPage u i) i
    have hask := askPage_asksOnly u i
    refine ⟨hends.mem.trans hask.mem, ?_⟩
    rw [pageOf, pitchOf, hends.pitches, ← pitchOf, ← pageOf, hask.pageOf]
  obtain ⟨hmem, hpage⟩ := hafter (putPage (pokeBytes s₁ (pitchDa s p a) bs) p n
      (if hot then { pageOf s p n with state := .hot, wanted := false, summary := importedSummary (pageOf s p n) bs, hot := a }
        else { pageOf s p n with state := .warm, wanted := false, summary := importedSummary (pageOf s p n) bs, warm := a }))
  rw [← hland] at hmem hpage
  rw [pageOf_putPage_same] at hpage
  have hbytes : t.mem.bytes = (pokeBytes s₁ (pitchDa s p a) bs).mem.bytes := by rw [hmem, (putPage_keeps _ _ _ _).2.2.2.2.2.1]
  refine ⟨?_, ?_, ?_, ?_, fun x hx => ?_⟩
  · rw [hpage]
    cases hot <;> rfl
  · rw [hpage]
    cases hot <;> rfl
  · rw [hpage]
    cases hot <;> rfl
  · rw [peekBytes, hbytes]
    exact peekBytes_pokeBytes s₁ _ bs
  · rw [hbytes]
    exact pokeBytes_elsewhere s₁ _ bs x hx

end Sys2Proof.Machine
end

section
/-! PROOF. O37: its two parts, the commands and the imports. -/

namespace Sys2Proof.Machine

section
variable {s : State} {rid : Nat} {q : Request} {r : PitchRecord}

/-! ### The cases of RESUME -/

theorem exec_qResume (h : MayAct s rid 6 q r) (image : Option ImageRead) : exec (.qResume rid image) s = .next (doResume image s q r) :=
  congrArg _ (onDue_acts (doResume image) h)

/-- A parked sequence that is kept on its pitch is IDLE or HELD, and the command completes. -/
theorem doResume_kept (image : Option ImageRead) (hhandle : q.handle ≠ 0) (hcount : q.count = 0)
    (hstate : (seqOf s (handleIndex q.handle)).state = .parked) (hkept : (seqOf s (handleIndex q.handle)).exported = none) :
    let i := handleIndex q.handle
    let e := seqOf s i
    let t := doResume image s q r
    reqOf t q.rid = none ∧ (seqOf t i).state = (if e.hold = 0 then .idle else .held) ∧ (seqOf t i).length = e.length ∧ (seqOf t i).tokens = e.tokens
      ∧ (∀ l ∈ (seqOf t i).layers, l.counters = Counters.zeros) ∧ ∀ k, k ≠ i → seqOf t k = seqOf s k := by
  intro i e t
  obtain ⟨hentry, hothers⟩ := seqOf_resumeInPlace hkept q.tag q.origin []
  have ht : t = finishPlain (tellGroup (resumeInPlace s i q.tag q.origin []) r.pitch (.resumeInPlace q.handle q.tag none)) q rcDone :=
    (doResume_here image hhandle hcount).trans (resumeHere_kept _ hstate hkept)
  have hseq (k : Nat) : seqOf t k = seqOf (resumeInPlace s i q.tag q.origin []) k := by simp [ht, seqOf]
  rw [hseq i, hentry]
  exact ⟨ht ▸ reqOf_finishPlain _ q _, rfl, rfl, rfl, fun l => counters_zeroCounters, fun k hk => (hseq k).trans (hothers k hk)⟩

/-- An exported sequence on a group: the lead asks the other modules, and no sequence and no byte changes. -/
theorem doResume_asksGroup {m : ImageRead} {x : ImageSource} (hhandle : q.handle ≠ 0) (hcount : q.count = 0)
    (hstate : (seqOf s (handleIndex q.handle)).state = .parked) (hexported : (seqOf s (handleIndex q.handle)).exported = some x)
    (hheader : headerHeld s x q.tag m = true) (hreads : nextReads m = []) (hdirectory : m.directoryTag = true) (hrecords : m.recordsTag = true)
    (hgroup : 1 < r.group.groupSize) :
    let t := doResume (some m) s q r
    t.seqs = s.seqs ∧ t.mem = s.mem ∧ (r.group.groupPosition = 0 → recordOf s r.pitch = some r →
      (pitchOf t r.pitch).decisions = (pitchOf s r.pitch).decisions ++ [.checkInPlace q.handle q.tag none]) := by
  intro t
  have ht : t = tellGroup (onReq s q.rid fun q => { q with image := some m, state := .reading }) r.pitch (.checkInPlace q.handle q.tag none) := by
    rw [show t = _ from doResume_here _ hhandle hcount, Option.getD_some, resumeHere_exported hstate hexported hheader hreads,
      if_neg (by simp [hdirectory, hrecords]), if_neg hgroup.not_ge]
  rw [ht]
  exact ⟨by simp, by simp, fun hlead hrecord => decisions_tellGroup (s := onReq s q.rid _) hrecord hlead hgroup _⟩

/-- An image of which more is to be read: its next ranges are asked for, and the command waits for them. -/
theorem doResume_waits {m : ImageRead} (hreq : reqOf s q.rid = some q) (himage : q.handle = 0 ∨ q.count ≠ 0) (hcheck : earlyCheck s q r m = none)
    (hheader : headerHeld s (sourceOf (spaceOf q.origin q.pitch) (sourceFor q.descriptor r)) q.tag m = true) (hreads : nextReads m ≠ []) :
    let t := doResume (some m) s q r
    reqOf t q.rid = some { q with state := .copying } ∧ t.seqs = s.seqs := by
  intro t
  have ht : t = _ := (doResume_image himage hcheck).trans (withImage_reads _ hheader hreads)
  have hask := askRanges_asksOnly (sourceOf (spaceOf q.origin q.pitch) (sourceFor q.descriptor r)) q.tag (nextReads m)
    (onReq s q.rid fun q => { q with state := .copying })
  rw [← ht] at hask
  exact ⟨by rw [reqOf, hask.reqs]; exact reqOf_onReq (fun _ => rfl) hreq, hask.seqs⟩

/-- An image that passes every check: the command takes the lowest free entry and reads the records. -/
theorem doResume_takes {m : ImageRead} {k : Nat} {u : State} (hreq : reqOf s q.rid = some q) (himage : q.handle = 0 ∨ q.count ≠ 0)
    (hcheck : earlyCheck s q r m = none)
    (hheader : headerHeld s (sourceOf (spaceOf q.origin q.pitch) (sourceFor q.descriptor r)) q.tag m = true) (hreads : nextReads m = [])
    (hfree : freeIndex s r = some k) (htake : takeImage s r k q.count (spaceOf q.origin q.pitch) (sourceFor q.descriptor r) m = .ok u) :
    let t := doResume (some m) s q r
    reqOf t q.rid = some { q with handle := handleOf u k, image := some m, state := .reading } ∧ (seqOf t k).state = .parked
      ∧ (seqOf t k).generation = (seqOf s k).generation := by
  intro t
  have ht : t = _ := (doResume_image himage hcheck).trans ((withImage_complete _ hheader hreads).trans (resumeImage_takes hfree htake))
  obtain ⟨hstate, hgeneration, hreqs⟩ := takeImage_takes htake
  have hseq : seqOf t k = seqOf u k := by simp [ht, seqOf]
  rw [hseq]
  refine ⟨?_, hstate, hgeneration⟩
  rw [ht, reqOf, (tellGroup_keeps _ _ _).2.2.2.2.2.2.2.2.2.1]
  refine reqOf_onReq (s := u) (f := fun q => { q with handle := handleOf u k, image := some m, state := .reading }) (fun _ => rfl) ?_
  rw [reqOf, hreqs]
  exact hreq

/-- The records of an image without a lost page: the sequence is IDLE and the resume completes. -/
theorem doRecordsRead_completes {m : ImageRead} {u : State} (hrun : (pitchOf s q.pitch).stopped = false) (himage : q.image = some m)
    (hcount : q.count ≠ 0) (hread : readLayers r (handleIndex q.handle) m (List.range r.profile.layers) s = some u)
    (hgood : ∀ l ∈ (seqOf u (handleIndex q.handle)).layers, ∀ n ∈ l.pages,
      (pageOf u (seqOf u (handleIndex q.handle)).pitch n).state ≠ lostState) :
    let t := doRecordsRead s q r none
    reqOf t q.rid = none ∧ (seqOf t (handleIndex q.handle)).state = .idle := by
  intro t
  obtain ⟨hentry, hpages⟩ := imageTaken_taken u (handleIndex q.handle) q.tag q.origin m
  have hfinish (k : Nat) : seqOf (finish (imageTaken u (handleIndex q.handle) q.tag q.origin m) q rcDone 0 q.handle 0) k
      = seqOf (imageTaken u (handleIndex q.handle) q.tag q.origin m) k := by simp [seqOf]
  have hpage (p n : Nat) : pageOf (finish (imageTaken u (handleIndex q.handle) q.tag q.origin m) q rcDone 0 q.handle 0) p n = pageOf u p n := by
    rw [← hpages]
    simp [pageOf, pitchOf]
  have ht : t = finish (imageTaken u (handleIndex q.handle) q.tag q.origin m) q rcDone 0 q.handle 0 := by
    refine (doRecordsRead_read hrun himage hcount hread).trans (holdIfLost_good ?_)
    simp only [hfinish, hpage]
    rw [hentry]
    exact hgood
  rw [ht, hfinish, hentry]
  exact ⟨reqOf_finish _ q _ _ _ _, rfl⟩

end

/-! ### O37 -/

/-- Settles O37: its clauses on RESUME are the cases of `doResume` and `doRecordsRead`, and those on pages the landing of a payload. -/
theorem resumesBringTheSequenceBack : Obligations.ResumesBringTheSequenceBack := by
  unfold Obligations.ResumesBringTheSequenceBack
  refine ⟨fun s rid q r => ?_, fun s p n i r hp hrecord himporter hstate => ?_⟩
  · intro i e x0
    have hreq {op : Nat} (hmay : MayAct s rid op q r) : reqOf s rid = some q := (of_dueReq hmay.1.1).1
    refine ⟨fun image hdue => congrArg _ (onDue_due (doResume image) hdue (.inl (by decide))), fun image hmay hhandle hcount hstate => ?_,
      fun image hmay hhandle hcount hstate hkept => ?_, fun m x hmay hhandle hcount hstate hexported hheader hreads => ⟨fun hbad => ?_,
      fun hdirectory hrecords hgroup => ?_, fun hdirectory hrecords hgroup u hresume => ?_⟩, fun m f hmay himage hcheck => ?_,
      fun m hmay himage hcheck hheader hreads => ?_, fun m k u hmay himage hcheck hheader hreads hfree htake => ?_,
      fun m hreq hrecord hop hstate himage => ⟨fun hstopped peer => ?_, fun hrun => ⟨fun f => ?_, fun hcount hopen hparked => ?_,
        fun hcount u hread hgood => ?_⟩⟩⟩
    · rw [exec_qResume hmay, doResume_here image hhandle hcount, resumeHere_refused _ hstate, rcRefusedState]
    · obtain rfl := rid_of_reqOf (hreq hmay)
      exact ⟨_, exec_qResume hmay image, doResume_kept image hhandle hcount hstate hkept⟩
    · rw [exec_qResume hmay, doResume_here _ hhandle hcount, Option.getD_some, resumeHere_exported hstate hexported hheader hreads, if_pos hbad,
        rcAuthFail]
    · exact ⟨_, exec_qResume hmay _, doResume_asksGroup hhandle hcount hstate hexported hheader hreads hdirectory hrecords hgroup⟩
    · rw [exec_qResume hmay, doResume_here _ hhandle hcount, Option.getD_some, resumeHere_exported hstate hexported hheader hreads,
        if_neg (by simp [hdirectory, hrecords]), if_pos hgroup]
      simp only [finishInPlace, rcDone]
      rw [hresume]
    · rw [exec_qResume hmay, doResume_refused himage hcheck]
    · obtain rfl := rid_of_reqOf (hreq hmay)
      obtain ⟨hwaits, hseqs⟩ := doResume_waits (hreq hmay) himage hcheck hheader hreads
      exact ⟨_, _, exec_qResume hmay _, hwaits, rfl, hseqs⟩
    · obtain rfl := rid_of_reqOf (hreq hmay)
      obtain ⟨hreading, hparked, hgeneration⟩ := doResume_takes (hreq hmay) himage hcheck hheader hreads hfree htake
      exact ⟨_, _, exec_qResume hmay _, hreading, rfl, rfl, hparked, hgeneration⟩
    · rw [exec_resumeRecordsRead hreq hrecord hop hstate]
      exact congrArg _ (if_pos hstopped)
    · rw [exec_resumeRecordsRead hreq hrecord hop hstate, doRecordsRead_peer hrun himage]
    · rw [exec_resumeRecordsRead hreq hrecord hop hstate, doRecordsRead_inPlace hrun himage hcount hopen hparked]
    · obtain rfl := rid_of_reqOf hreq
      exact ⟨_, exec_resumeRecordsRead hreq hrecord hop hstate none, doRecordsRead_completes hrun himage hcount hread hgood⟩
  · intro g
    refine ⟨fun payload a u hlength => ?_, exec_imageReadTimeout hp himporter hstate, importLost_bytes s p n 0x0402 i⟩
    have hexec (tag digest : Bool) := exec_pageImport hp himporter hstate tag digest payload
    rw [← hlength, padTo_length_self] at hexec
    refine ⟨fun tag digest hbad => ⟨?_, importLost_bytes s p n 0x0403 i⟩, fun hwanted halloc hstalls => ?_, fun hunwanted halloc hstalls => ?_⟩
    · rw [hexec, if_pos hbad]
    · obtain ⟨hhot, hat_, hdone, hpayload, helse⟩ := landImport_lands (i := i) true (allocHot_keepsPages halloc) hstalls hstate
      refine ⟨_, ?_, hhot, hat_, hdone, hpayload, helse⟩
      rw [hexec, if_neg Bool.noConfusion, show (pageOf s p n).wanted = true from hwanted, if_pos rfl, hlength, roomFor_of_allocHot halloc]
    · obtain ⟨hwarm, hat_, -, hpayload, helse⟩ := landImport_lands (i := i) false (allocWarm_keepsPages halloc) hstalls hstate
      refine ⟨_, ?_, hwarm, hat_, hpayload, helse⟩
      rw [hexec, if_neg Bool.noConfusion, show (pageOf s p n).wanted = false from hunwanted, if_neg Bool.noConfusion, hlength,
        warmSpace_of_allocWarm halloc]

end Sys2Proof.Machine
end

section
/-! PROOF. O29 fails: the demotion takes its page by the entries of the page table, and reads the descriptor by its number. -/

namespace Sys2Proof.Machine.Example

/-- The pitch with the marks of its hot pages at 0 % and one capacity port. -/
def fullPitch : PitchRecord :=
  { pitch with
    capacity := (0, 1) :: List.replicate 7 (0, 0)
    profile := { pitch.profile with lantern := { pitch.profile.lantern with hotHigh := 0, hotLow := 0 } } }

/-- Page 1 stands twice in the page table: WARM in the entry that its number gives, and HOT in another. -/
def listedTwice : State :=
  { State.reset with
    cfg := some { config with pitches := [fullPitch] }
    mem := { Memory.reset with ports := ⟨.up, 1, none, true⟩ :: List.replicate 7 CapPort.reset }
    pitches := [(0, { Pitch.fresh with
      enabled := true
      pages := [(1, { Page.fresh with state := .warm, refcount := 1 }),
        (1, { Page.fresh with state := .hot, refcount := 1, kvHeads := 1, dim32 := 1, hot := 0x1000 })] })] }

/-- That state when the demotions have begun. -/
def demoting : State := onPitch listedTwice 0 fun x => { x with demoting := true }

theorem listedTwice_demotes : recordOf listedTwice 0 = some fullPitch
    ∧ occupancyAbove listedTwice fullPitch fullPitch.profile.lantern.hotHigh = true
    ∧ firstPage demoting 0 ((pagesIn demoting 0 .hot).filter fun m => !pageParks demoting 0 m) = some 1
    ∧ (allocWarm demoting 0 1 (payloadBytes (pageOf listedTwice 0 1))).isSome = true := by decide +kernel

/-- The page's descriptor is that of the first entry, which stays WARM. -/
theorem listedTwice_stays : (pageOf (next (exec (.pageDemotionStart 0) listedTwice) listedTwice) 0 1).state = .warm := by decide +kernel

end Sys2Proof.Machine.Example

namespace Sys2Proof.Machine

open Example in
/-- Refutes O29: it says in every state that a demotion makes the first HOT page DEMOTING. A page table has one descriptor for each number (R203), but
the statement does not ask that of the state: where the table lists page 1 as WARM and again as HOT, the second entry makes it the page to demote, its
descriptor is WARM, and the warm space is given back. -/
theorem not_pagesMoveBetweenHotAndWarm : ¬ Obligations.PagesMoveBetweenHotAndWarm := by
  unfold Obligations.PagesMoveBetweenHotAndWarm
  rintro ⟨-, hdemotions, -⟩
  obtain ⟨hrecord, habove, hfirst, hspace⟩ := listedTwice_demotes
  obtain ⟨⟨a, s1⟩, hspace⟩ := Option.isSome_iff_exists.1 hspace
  obtain ⟨t, hexec, hdemoting, -⟩ := (hdemotions listedTwice 0 1 fullPitch (by decide) hrecord rfl).1 a s1 habove hfirst hspace
  have hnext : next (exec (.pageDemotionStart 0) listedTwice) listedTwice = t := congrArg (next · listedTwice) hexec
  have hwarm := listedTwice_stays
  rw [hnext, hdemoting] at hwarm
  exact absurd (show PageState.demoting = .warm from hwarm) (by decide)

end Sys2Proof.Machine
end

section
/-! PROOF. O34 fails: making space for the page lists of a CREATE can change the state of an adopted page. -/

namespace Sys2Proof.Machine.Example

/-- The 257 input tokens of a CREATE. -/
def input : List Nat := List.replicate 257 1

/-- CREATE with adoption, from host ring 0 of function 1. -/
def create : Request where
  rid := 0
  origin := .ring 1 0
  opcode := 1
  flags := 1
  tag := 0
  handle := 0
  pitch := 0
  deadline := 0
  maxNew := 1
  count := 257
  data := 0
  tokens := input
  params := ⟨0#32, 0x3F800000#32, 0, 0, 0, 0, none, []⟩
  descriptor := []
  image := none
  undo := false
  state := .queued
  consumed := 0
  produced := 0
  adopted := 0
  sinceProgress := 0
  clearedHold := 0

/-- The tree node (R228) of the first 256 of them, with page 1. -/
def inputNode : TreeNode := ⟨chunkHash (prefixKey pitch) 0 0 (input.take 256), 0, 0, [1], [], 0, 0, input.take 256⟩

/-- The last 4 KiB of the quota of 1 GiB. -/
def lastPlace : Nat := 2 ^ 30 - 4096

/-- Page 1 stands twice in the page table: lost in the entry that its number gives, whose hot copy has the last place of the full quota, and BOTH in
another. -/
def lostOrBoth : NMap Page :=
  [(1, { Page.fresh with state := lostState, refcount := 1, hot := lastPlace }), (1, { Page.fresh with state := .both, refcount := 1 })]

/-- The CREATE is queued, its first chunk stands in the tree, and HBM is full. -/
def atCreate : State :=
  { State.reset with
    cfg := some config
    reqs := [create]
    reqNext := 1
    pitches := [(0, { Pitch.fresh with
      enabled := true
      pages := lostOrBoth
      tree := [(1, inputNode)]
      allocated := [(0, lastPlace), (lastPlace, 4096)] })] }

theorem atCreate_acts : MayAct atCreate 0 1 create pitch ∧ freeIndex atCreate pitch = some 0 := by decide +kernel

theorem atCreate_adopts : adoptChain atCreate pitch input = [1] := by decide +kernel

theorem atCreate_fits : refsFit atCreate 0 (chainPages atCreate 0 [1]) = true
    ∧ (fitSeq (createSeq (atTime atCreate 0) pitch 0 [1] input false) 0 0).isSome = true := by decide +kernel

/-- The page list takes the place of the page's hot copy, the page becomes WARM, and the sequence runs. -/
theorem atCreate_runs : (seqOf (next (exec (.qCreate 0 0) atCreate) atCreate) 0).state = .running := by decide +kernel

/-- A page of the adopted layers is lost. -/
theorem atCreate_lost : (((List.range pitch.profile.layers).map (adoptedLayer atCreate pitch [1])).any fun l => l.pages.any fun n =>
    decide ((pageOf atCreate 0 n).state = lostState)) = true := by decide +kernel

end Sys2Proof.Machine.Example

namespace Sys2Proof.Machine

open Example in
/-- Refutes O34: it says in every state that a CREATE which adopts a lost page makes a HELD sequence. A page table has one descriptor for each number
(R203), but the statement does not ask that of the state: where the table lists page 1 as lost and again as BOTH, the space for the page list of the new
sequence is made by dropping the hot copy of page 1 (R222), which leaves it WARM, and the sequence runs. -/
theorem not_sequencesAreCreatedForkedAndFreed : ¬ Obligations.SequencesAreCreatedForkedAndFreed := by
  unfold Obligations.SequencesAreCreatedForkedAndFreed
  rintro ⟨hcreate, -, -⟩
  obtain ⟨hacts, hfree⟩ := atCreate_acts
  obtain ⟨hrefs, hspace⟩ := atCreate_fits
  obtain ⟨u, hspace⟩ := Option.isSome_iff_exists.1 hspace
  have hchain : (if bitOf create.flags 0 then adoptChain atCreate pitch create.tokens else []) = [1] :=
    (if_pos rfl).trans atCreate_adopts
  have hcase := hcreate atCreate 0 0 create pitch 0 hacts hfree
  rw [hchain] at hcase
  obtain ⟨t, hexec, -, -, hheld, -⟩ := hcase u hrefs hspace
  have hnext : next (exec (.qCreate 0 0) atCreate) atCreate = t := congrArg (next · atCreate) hexec
  have hruns := atCreate_runs
  rw [hnext, hheld.trans (if_pos atCreate_lost)] at hruns
  exact absurd hruns (by decide)

end Sys2Proof.Machine
end

section
/-! SUPPORT. O4: what keeps device memory and the scratchpads in canonical form (R237, R239; notes/assumptions/3.md, 45.md). -/

namespace Sys2Proof.Machine

/-! ### Sound states -/

/-- Every scratchpad of the camp is in canonical form. -/
def Camp.PadsOk (c : Camp) : Prop := ∀ k ∈ c.cores, memWf k.2.sp = true

/-- Device memory and every scratchpad are in canonical form. -/
def State.Canonical (s : State) : Prop := memWf s.mem.bytes = true ∧ ∀ c ∈ s.camps, c.2.PadsOk

theorem canonical_iff (s : State) : s.Canonical ↔ s.memOk = true ∧ s.scratchOk = true := by
  simp [State.Canonical, Camp.PadsOk, State.memOk, State.scratchOk]

/-- A change that leaves the bytes of memory and the camps. -/
theorem State.Canonical.congr {s t : State} (h : s.Canonical) (ht : t.mem.bytes = s.mem.bytes ∧ t.camps = s.camps) : t.Canonical := by
  obtain ⟨hbytes, hcamps⟩ := ht
  unfold State.Canonical
  rwa [hbytes, hcamps]

/-- A change of the bytes of memory that keeps their form. -/
theorem State.Canonical.store {s t : State} (h : s.Canonical) (ht : memWf t.mem.bytes = true ∧ t.camps = s.camps) : t.Canonical := by
  obtain ⟨hbytes, hcamps⟩ := ht
  exact ⟨hbytes, hcamps ▸ h.2⟩

theorem mem_of_mget {α : Type} {m : NMap α} {k : Nat} {v : α} (h : mget m k = some v) : (k, v) ∈ m := by
  induction m with
  | nil => cases h
  | cons x t ih =>
    obtain ⟨a, w⟩ := x
    rw [mget] at h
    split at h
    · next hkey =>
        cases h
        exact hkey ▸ List.mem_cons_self
    · exact List.mem_cons_of_mem _ (ih h)

/-! ### Cores and camps -/

theorem Camp.PadsOk.coreOf {c : Camp} (h : c.PadsOk) (core : Nat) : memWf (coreOf c core).sp = true := by
  unfold Machine.coreOf mgetD
  cases hk : mget c.cores core with
  | none => exact memWf_nil
  | some k => exact h _ (mem_of_mget hk)

theorem Camp.PadsOk.putCore {c : Camp} (h : c.PadsOk) {core : Nat} {k : Core} (hk : memWf k.sp = true) : (putCore c core k).PadsOk := by
  intro x hx
  rcases mem_mset hx with rfl | hm
  · exact hk
  · exact h x hm

theorem Camp.PadsOk.mapCores {c : Camp} (h : c.PadsOk) {f : Nat → Core → Core} (hf : ∀ n k, memWf k.sp = true → memWf (f n k).sp = true) :
    Camp.PadsOk { c with cores := mmap c.cores f } := by
  intro x hx
  obtain ⟨k, hk, rfl⟩ := List.mem_map.1 hx
  exact hf _ _ (h k hk)

theorem Camp.PadsOk.eachCore {f : Nat → Nat → Core → Core} (hf : ∀ q n k, memWf k.sp = true → memWf (f q n k).sp = true)
    {l : List (Nat × Nat)} {c : Camp} (h : c.PadsOk) : (eachCore f l c).PadsOk := by
  induction l generalizing c with
  | nil => exact h
  | cons x t ih =>
    obtain ⟨core, q⟩ := x
    exact ih (h.putCore (hf _ _ _ (h.coreOf core)))

theorem State.Canonical.campOf {s : State} (h : s.Canonical) (camp : Nat) : (campOf s camp).PadsOk := by
  unfold Machine.campOf mgetD
  cases hc : mget s.camps camp with
  | none => simp [Camp.PadsOk, Camp.fresh]
  | some c => exact h.2 _ (mem_of_mget hc)

theorem State.Canonical.putCamp {s : State} (h : s.Canonical) {camp : Nat} {c : Camp} (hc : c.PadsOk) : (putCamp s camp c).Canonical := by
  refine ⟨h.1, fun x hx => ?_⟩
  rcases mem_mset hx with rfl | hm
  · exact hc
  · exact h.2 x hm

/-- A change of a camp that leaves its cores. -/
theorem State.Canonical.sameCores {s : State} (h : s.Canonical) {camp : Nat} {c : Camp} (hc : c.cores = (Machine.campOf s camp).cores) :
    (Machine.putCamp s camp c).Canonical :=
  h.putCamp fun k hk => h.campOf camp k (hc ▸ hk)

theorem State.Canonical.onCore {s : State} (h : s.Canonical) {camp core : Nat} {f : Core → Core}
    (hf : ∀ k, memWf k.sp = true → memWf (f k).sp = true) : (onCore s camp core f).Canonical :=
  h.putCamp ((h.campOf camp).putCore (hf _ ((h.campOf camp).coreOf core)))

theorem State.Canonical.onCores {s : State} (h : s.Canonical) {camp : Nat} {cores : List Nat} {f : Nat → Nat → Core → Core}
    (hf : ∀ q n k, memWf k.sp = true → memWf (f q n k).sp = true) : (onCores s camp cores f).Canonical :=
  h.putCamp ((h.campOf camp).eachCore hf)

theorem State.Canonical.spWrites {s : State} (h : s.Canonical) {camp task o : Nat} {cores : List Nat} {bs : Nat → Nat → Core → List Byte} :
    (Machine.onCores s camp cores fun q n k => spWrite k task o (bs q n k)).Canonical :=
  h.onCores fun _ _ _ hk => spWrite_wf _ _ _ hk

theorem State.Canonical.mapCamps {s : State} (h : s.Canonical) {f : Nat → Camp → Camp} (hf : ∀ n c, c.PadsOk → (f n c).PadsOk) :
    State.Canonical { s with camps := mmap s.camps f } := by
  refine ⟨h.1, fun x hx => ?_⟩
  obtain ⟨c, hc, rfl⟩ := List.mem_map.1 hx
  exact hf _ _ (h.2 c hc)

/-! ### Bytes of memory -/

theorem State.Canonical.pokeBytes {s : State} (h : s.Canonical) {da : Nat} {bs : List Byte} : (pokeBytes s da bs).Canonical :=
  State.Canonical.mapCamps (s := { s with mem := { s.mem with bytes := wrBytes s.mem.bytes da bs } }) ⟨memWf_wrBytes da bs h.1, h.2⟩
    fun _ _ hc => hc

theorem State.Canonical.finishScrubs {s : State} (h : s.Canonical) {da len : Nat} : (finishScrubs s da len).Canonical :=
  h.store ⟨finishScrubs_memOk da len h.1, rfl⟩

/-! ### Operations on a core that leave its scratchpad -/

theorem loadInto_sp (w : CmdWord) (k : Core) (vs : List Word) : (loadInto w k vs).sp = k.sp := by
  unfold loadInto
  split
  · rfl
  · rfl

theorem loadInto_wf {w : CmdWord} (vs : Nat → Nat → Core → List Word) (q n : Nat) (k : Core) (hk : memWf k.sp = true) :
    memWf (loadInto w k (vs q n k)).sp = true := by
  rwa [loadInto_sp]

theorem feedCore_sp (k : Core) : (feedCore k).sp = k.sp := congrArg (·.sp) (feedCore_fed k).frame

theorem beginRun_sp (k : Core) (t : TileRun) : (beginRun k t).sp = k.sp := feedCore_sp _

theorem issueTile_sp (k : Core) (t : TileRun) (page : Option Nat) : (issueTile k t page).sp = k.sp := by
  cases page with
  | none => exact beginRun_sp _ t
  | some n => rfl

theorem startWaiting_sp (n : Nat) (k : Core) : (startWaiting n k).sp = k.sp := by
  have hfold (l : List TileRun) (k : Core) : (l.foldl beginRun k).sp = k.sp := by
    induction l generalizing k with
    | nil => rfl
    | cons t l ih => exact (ih _).trans (beginRun_sp k t)
  exact hfold _ k

theorem passStep_sp (k : Core) (t : TileRun) (core lane : Nat) (p : Pass) (seen : Option Nat) : (passStep k t core lane p seen).sp = k.sp := by
  unfold passStep
  dsimp only
  split
  · rfl
  · split
    · rfl
    · split
      · rfl
      · rfl

theorem laneStep_sp (k : Core) (core lane : Nat) (seen : Option Nat) : (laneStep k core lane seen).sp = k.sp := by
  unfold laneStep
  split
  · rfl
  · dsimp only
    split
    · exact feedCore_sp _
    · exact (feedCore_sp _).trans (passStep_sp _ _ core lane _ seen)

theorem accStep_sp (w : CmdWord) (f : Int → Int → Word → Word → Word) (k : Core) : (accStep w f k).sp = k.sp := by
  unfold accStep
  split
  · rfl
  · rfl

theorem reqaccStep_sp (w : CmdWord) (k : Core) : (reqaccStep w k).sp = k.sp := by
  unfold reqaccStep
  split
  · rfl
  · rfl

theorem iterate_sp {f : Core → Core} (hf : ∀ k, (f k).sp = k.sp) (n : Nat) (k : Core) : (iterate f n k).sp = k.sp := by
  induction n generalizing k with
  | zero => rfl
  | succ n ih => exact (ih _).trans (hf k)

/-! ### Operations on a core that keep its scratchpad in form -/

theorem memWf_filter {m : List Host.Cell} (p : Host.Cell → Bool) (h : memWf m = true) : memWf (m.filter p) = true := by
  obtain ⟨hrise, hlisted⟩ := (memWf_iff m).1 h
  exact (memWf_iff _).2 ⟨keysRise_filter p hrise, fun c hc => hlisted c (List.mem_of_mem_filter hc)⟩

theorem startCore_wf {k : Core} (h : memWf k.sp = true) : memWf (startCore k).sp = true := memWf_filter _ h

theorem writePieces_wf {a : Nat} {l : List (Nat × List Byte)} {m : List Host.Cell} (h : memWf m = true) : memWf (writePieces a l m) = true := by
  induction l generalizing m with
  | nil => exact h
  | cons x t ih => exact ih (memWf_wrBytes _ _ h)

theorem writeRows_wf {sc : Bool} {a : Nat} {l : List FormedRow} {m : List Host.Cell} (h : memWf m = true) : memWf (writeRows sc a l m) = true := by
  induction l generalizing a m with
  | nil => exact h
  | cons x t ih => exact ih (writePieces_wf h)

theorem Camp.PadsOk.stopCamp {c : Camp} (h : c.PadsOk) : (stopCamp c).PadsOk := h.mapCores fun _ _ _ => memWf_nil

theorem Camp.PadsOk.clearCamp {c : Camp} (h : c.PadsOk) : (clearCamp c).PadsOk := h.mapCores fun _ _ _ => memWf_nil

/-! ### Retention units -/

theorem lateAccess_bytes (s : State) (u : Nat) : (lateAccess s u).mem.bytes = s.mem.bytes := by
  unfold lateAccess
  dsimp only
  split
  · rfl
  · rfl
  · rfl
  · rfl

theorem wakeUnits_canonical {l : List Nat} {s : State} (h : s.Canonical) : (wakeUnits l s).Canonical := by
  induction l generalizing s with
  | nil => exact h
  | cons u t ih =>
    rw [wakeUnits]
    refine ih ?_
    split
    · exact h.congr ⟨lateAccess_bytes s u, by simp⟩
    · exact h

theorem touched_canonical {s : State} {rs : List (Nat × Nat)} (h : s.Canonical) : (touched s rs).Canonical := h.congr (by simp)

/-! ### Conditions and repetition -/

theorem writeEvent_canonical {s : State} {source cls code pitch : Nat} {detail : List Byte} (h : s.Canonical) :
    (writeEvent s source cls code pitch detail).Canonical := h.congr (by simp)

theorem rangerEvent_canonical {s : State} {cls code pitch : Nat} {detail : List Byte} (h : s.Canonical) :
    (rangerEvent s cls code pitch detail).Canonical := h.congr (by simp)

theorem eventOnce_canonical {s : State} {code unit : Nat} {f : State → State} (hf : ∀ s, s.Canonical → (f s).Canonical)
    (h : s.Canonical) : (eventOnce s code unit f).Canonical := by
  unfold eventOnce
  dsimp only
  split
  · exact h
  · exact hf _ h

theorem ite_canonical {q : Prop} [Decidable q] {s t : State} (hs : s.Canonical) (ht : t.Canonical) :
    (if q then s else t).Canonical := by
  split
  · exact hs
  · exact ht

theorem getD_canonical {o : Option State} {d : State} (ho : ∀ t, o = some t → t.Canonical) (hd : d.Canonical) : (o.getD d).Canonical := by
  cases o with
  | none => exact hd
  | some t => exact ho t rfl

/-- The state of a pair that an operation answers. -/
theorem fst_canonical {α : Type} {x : State × α} {t : State} {a : α} (hx : x = (t, a)) (h : x.1.Canonical) : t.Canonical := by
  subst hx
  exact h

theorem foldl_canonical {α : Type} {f : State → α → State} {l : List α} {s : State} (hf : ∀ t, t.Canonical → ∀ a, (f t a).Canonical)
    (h : s.Canonical) : (l.foldl f s).Canonical := by
  induction l generalizing s with
  | nil => exact h
  | cons a t ih => exact ih (hf _ h _)

theorem iterate_canonical {f : State → State} {n : Nat} {s : State} (hf : ∀ t, t.Canonical → (f t).Canonical) (h : s.Canonical) :
    (iterate f n s).Canonical := by
  induction n generalizing s with
  | zero => exact h
  | succ n ih => exact ih (hf _ h)

/-! ### Results of camp commands and of rows -/

/-- Every state that the result of a camp command holds is canonical. -/
def CmdRes.Canonical : CmdRes → Prop
  | .done t => t.Canonical
  | .settled t => t.Canonical
  | .wait _ => True
  | .fault _ => True

theorem CmdRes.Canonical.congr {r r1 : CmdRes} (h : r.Canonical) (e : r = r1) : r1.Canonical := e ▸ h

theorem CmdRes.Canonical.ite {q : Prop} [Decidable q] {r r1 : CmdRes} (hr : r.Canonical) (hr1 : r1.Canonical) : (if q then r else r1).Canonical := by
  split
  · exact hr
  · exact hr1

/-- The next state, where a row has one, is canonical. -/
def AnswerCanonical : Answer State → Prop
  | .next t => t.Canonical
  | .fault _ => True
  | .refused _ => True

theorem AnswerCanonical.next {a : Answer State} {t : State} (h : AnswerCanonical a) (e : a = .next t) : t.Canonical := by
  subst e
  exact h

theorem AnswerCanonical.ite {q : Prop} [Decidable q] {a b : Answer State} (ha : AnswerCanonical a) (hb : AnswerCanonical b) :
    AnswerCanonical (if q then a else b) := by
  split
  · exact ha
  · exact hb

/-- A row that is refused where its operand names no unit. -/
theorem nextIf_canonical {q : Prop} [Decidable q] {t : State} {e : Refusal} (h : t.Canonical) :
    AnswerCanonical (if q then .next t else .refused e) :=
  .ite h trivial

/-- A row of a pitch, which does nothing where the pitch has no record. -/
theorem pitchRow_canonical {p : Nat} {s : State} {f : PitchRecord → State} (h : s.Canonical) (hf : ∀ r, (f r).Canonical) :
    AnswerCanonical (if pitchOk p then
      match recordOf s p with
      | none => .next s
      | some r => .next (f r)
      else .refused .noSuchUnit) := by
  split
  · split
    · exact h
    · exact hf _
  · trivial

end Sys2Proof.Machine
end

section
/-! SUPPORT. O4: memory and scratchpads stay canonical under the named operations over the state (R237, R239). -/

namespace Sys2Proof.Machine

theorem onPitch_canonical {s : State} {p : Nat} {f : Pitch → Pitch} (h : s.Canonical) : (onPitch s p f).Canonical := h.congr (by simp)

theorem putSeq_canonical {s : State} {i : Nat} {e : SeqEntry} (h : s.Canonical) : (putSeq s i e).Canonical := h.congr (by simp)

theorem onSeq_canonical {s : State} {i : Nat} {f : SeqEntry → SeqEntry} (h : s.Canonical) : (onSeq s i f).Canonical :=
  h.congr (by simp)

theorem putFn_canonical {s : State} {fn : Nat} {f : Function} (h : s.Canonical) : (putFn s fn f).Canonical := h.congr (by simp)

theorem putLink_canonical {s : State} {l : Nat} {k : Link} (h : s.Canonical) : (putLink s l k).Canonical := h.congr (by simp)

theorem send_canonical {s : State} {o : Output} (h : s.Canonical) : (send s o).Canonical := h.congr (by simp)

theorem tellGroup_canonical {s : State} {p : Nat} {d : LeadDecision} (h : s.Canonical) : (tellGroup s p d).Canonical :=
  h.congr (by simp)

theorem freeEntry_canonical {s : State} {i : Nat} (h : s.Canonical) : (freeEntry s i).Canonical := h.congr (by simp)

end Sys2Proof.Machine
end

section
/-! SUPPORT. O4: memory and scratchpads stay canonical under completions, transport messages and holding a sequence (R237, R239). -/

namespace Sys2Proof.Machine

theorem sendMessage_canonical {s : State} {n type : Nat} {body : List Byte} (h : s.Canonical) : (sendMessage s n type body).Canonical :=
  h.congr (by simp)

theorem answer_canonical {s : State} {o : Origin} {int : Bool} {bytes : List Byte} {tokens : List Nat} (h : s.Canonical) :
    (answer s o int bytes tokens).Canonical := h.congr (by simp)

theorem finish_canonical {s : State} {r : Request} {result endCode handle value : Nat} (h : s.Canonical) :
    (finish s r result endCode handle value).Canonical := h.congr (by simp)

theorem finishPlain_canonical {s : State} {r : Request} {result : Nat} (h : s.Canonical) : (finishPlain s r result).Canonical :=
  h.congr (by simp)

theorem onReq_canonical {s : State} {rid : Nat} {f : Request → Request} (h : s.Canonical) : (onReq s rid f).Canonical :=
  h.congr (by simp)

theorem holdSeq_canonical {s : State} {i cause result : Nat} (h : s.Canonical) : (holdSeq s i cause result).Canonical := h.congr (by simp)

theorem holdAll_canonical {cause result : Nat} {l : List Nat} {s : State} (h : s.Canonical) : (holdAll cause result l s).Canonical :=
  h.congr (by simp)

end Sys2Proof.Machine
end

section
/-! SUPPORT. O4: memory and scratchpads stay canonical under the operations of the context store (R237, R239). -/

namespace Sys2Proof.Machine

theorem placeIn_canonical {s : State} {r : PitchRecord} {seg da size len : Nat} {res : Nat × State} (h : s.Canonical)
    (hx : placeIn s r seg da size len = some res) : res.2.Canonical := by
  unfold placeIn at hx
  dsimp only at hx
  split at hx
  · cases hx
    exact h
  · split at hx
    · cases hx
      exact h.finishScrubs
    · cases hx

theorem allocHot_canonical {s : State} {p len : Nat} {res : Nat × State} (h : s.Canonical) (hx : allocHot s p len = some res) :
    res.2.Canonical := by
  unfold allocHot at hx
  split at hx
  · cases hx
  · dsimp only at hx
    split at hx
    · cases hx
    · next hy =>
        cases hx
        exact (placeIn_canonical h hy).congr (by simp)

theorem allocWarm_canonical {s : State} {p n len : Nat} {res : Nat × State} (h : s.Canonical) (hx : allocWarm s p n len = some res) :
    res.2.Canonical := by
  unfold allocWarm at hx
  split at hx
  · cases hx
  · dsimp only at hx
    split at hx
    · cases hx
    · split at hx
      · cases hx
      · next hy =>
          cases hx
          exact (placeIn_canonical h hy).congr (by simp)

theorem freeRange_canonical {s : State} {p a : Nat} (h : s.Canonical) : (freeRange s p a).Canonical := h.congr (by simp [freeRange_bytes])

theorem putPage_canonical {s : State} {p n : Nat} {g : Page} (h : s.Canonical) : (putPage s p n g).Canonical := h.congr (by simp)

theorem freePage_canonical {s : State} {p n : Nat} (h : s.Canonical) : (freePage s p n).Canonical := h.congr (by simp [freePage_bytes])

theorem dropRefs_canonical {p : Nat} {l : List Nat} {s : State} (h : s.Canonical) : (dropRefs p l s).Canonical := h.congr (by simp [dropRefs_bytes])

theorem discardAppends_canonical {s : State} {i : Nat} (h : s.Canonical) : (discardAppends s i).Canonical :=
  h.congr (by simp [discardAppends, freePages_bytes])

theorem discardAll_canonical {l : List Nat} {s : State} (h : s.Canonical) : (discardAll l s).Canonical := by
  induction l generalizing s with
  | nil => exact h
  | cons x t ih => exact ih (discardAppends_canonical h)

theorem leaveBatch_canonical {s : State} {p : Nat} {is : List Nat} (h : s.Canonical) : (leaveBatch s p is).Canonical :=
  h.congr (by simp)

theorem holdAtBoundary_canonical {s : State} {i cause result : Nat} (h : s.Canonical) : (holdAtBoundary s i cause result).Canonical :=
  leaveBatch_canonical (holdSeq_canonical (discardAppends_canonical h))

theorem holdAllAtBoundary_canonical {cause result : Nat} {l : List Nat} {s : State} (h : s.Canonical) :
    (holdAllAtBoundary cause result l s).Canonical := by
  induction l generalizing s with
  | nil => exact h
  | cons x t ih => exact ih (holdAtBoundary_canonical h)

theorem resummarise_canonical {s : State} {p n : Nat} (h : s.Canonical) : (resummarise s p n).Canonical :=
  ite_canonical h (h.congr (by simp))

theorem resuper_canonical {s : State} {i j k : Nat} (h : s.Canonical) : (resuper s i j k).Canonical := by
  unfold resuper
  dsimp only
  split
  · exact h
  · exact ite_canonical h (h.congr (by simp))

end Sys2Proof.Machine
end

section
/-! SUPPORT. O4: memory and scratchpads stay canonical under abandoned steps and camp faults (R237, R239). -/

namespace Sys2Proof.Machine

theorem endQueued_canonical {l : List Request} {s : State} (h : s.Canonical) : (endQueued l s).Canonical := h.congr (by simp)

theorem abortPark_canonical {s : State} {i result value : Nat} {silent : Bool} (h : s.Canonical) :
    (abortPark s i result value silent).Canonical := h.congr (by simp)

theorem devicePark_canonical {s : State} {r : PitchRecord} {i : Nat} (h : s.Canonical) : (devicePark s r i).Canonical := h.congr (by simp)

theorem deviceParks_canonical {r : PitchRecord} {l : List Nat} {s : State} (h : s.Canonical) : (deviceParks r l s).Canonical := h.congr (by simp)

theorem residueEvent_canonical {s : State} {camp core p code : Nat} {m : Mismatch} {spares : Nat} (h : s.Canonical) :
    (residueEvent s camp core p code m spares).Canonical := h.congr (by simp)

theorem retireLanes_canonical {camp core p : Nat} {l : List Mismatch} {s : State} (h : s.Canonical) : (retireLanes camp core p l s).Canonical := by
  induction l generalizing s with
  | nil => exact h
  | cons x t ih => exact ih (residueEvent_canonical (h.onCore fun _ hk => hk))

theorem refillSlots_canonical {r : PitchRecord} {rel : Nat} {l : NMap Slot} {s : State} (h : s.Canonical) : (refillSlots r rel l s).Canonical := by
  induction l generalizing s with
  | nil => exact h
  | cons x t ih => exact ih (ite_canonical h.pokeBytes h)

theorem stopCamps_canonical {s : State} {p : Nat} (h : s.Canonical) : (stopCamps s p).Canonical := by
  refine h.mapCamps fun n c hc => ?_
  split
  · exact hc.stopCamp
  · exact hc

theorem removeNode_canonical {s : State} {p n : Nat} (h : s.Canonical) : (removeNode s p n).Canonical := by
  unfold removeNode
  split
  · exact h
  · exact dropRefs_canonical (freeRange_canonical (onPitch_canonical h))

theorem fenceOne_canonical {s : State} {camp core : Nat} (h : s.Canonical) : (fenceOne s camp core).Canonical := by
  unfold fenceOne
  dsimp only
  split
  · exact h.sameCores rfl
  · split
    · refine writeEvent_canonical (refillSlots_canonical (State.Canonical.sameCores ?_ rfl))
      exact onPitch_canonical (writeEvent_canonical (h.sameCores rfl))
    · refine ite_canonical (writeEvent_canonical (h.sameCores rfl)) ?_
      exact deviceParks_canonical (writeEvent_canonical (onPitch_canonical (leaveBatch_canonical (writeEvent_canonical (h.sameCores rfl)))))

theorem closeEpochs_canonical {s : State} {p : Nat} (h : s.Canonical) : (closeEpochs s p).Canonical :=
  h.congr ⟨rfl, rfl⟩

theorem freeLists_canonical {p : Nat} {l : List Chosen} {s : State} (h : s.Canonical) : (freeLists p l s).Canonical := by
  induction l generalizing s with
  | nil => exact h
  | cons x t ih =>
    rw [freeLists]
    refine ih ?_
    split
    · exact h
    · exact freeRange_canonical h

theorem abandonStep_canonical {s : State} {p : Nat} (h : s.Canonical) : (abandonStep s p).Canonical :=
  onPitch_canonical (freeLists_canonical (discardAll_canonical (closeEpochs_canonical (stopCamps_canonical h))))

theorem loseCore_canonical {s : State} {camp core p : Nat} {m : Mismatch} (h : s.Canonical) : (loseCore s camp core p m).Canonical :=
  ite_canonical h (fenceOne_canonical ((residueEvent_canonical h).onCore fun _ hk => hk))

theorem makeRepair_canonical {s : State} {p : Nat} {l : Repair} (h : s.Canonical) : (makeRepair s p l).Canonical := by
  unfold makeRepair
  split
  · exact h.congr (by simp)
  · exact ite_canonical h (ite_canonical (loseCore_canonical h) (retireLanes_canonical h))
  · exact loseCore_canonical h

theorem makeRepairs_canonical {p : Nat} {l : List Repair} {s : State} (h : s.Canonical) : (makeRepairs p l s).Canonical := by
  induction l generalizing s with
  | nil => exact h
  | cons x t ih => exact ih (makeRepair_canonical h)

theorem repairNow_canonical {s : State} {p : Nat} (h : s.Canonical) : (repairNow s p).Canonical :=
  makeRepairs_canonical (h.congr (by simp))

theorem dropBlock_canonical {da : Nat} {l : List Nat} {s : State} (h : s.Canonical) : (dropBlock da l s).Canonical :=
  h.congr (by simp)

theorem rerunStep_canonical {s : State} {p : Nat} (h : s.Canonical) : (rerunStep s p).Canonical :=
  repairNow_canonical (onPitch_canonical (abandonStep_canonical h))

theorem failStep_canonical {s : State} {p result : Nat} (h : s.Canonical) : (failStep s p result).Canonical :=
  onPitch_canonical (leaveBatch_canonical (holdAll_canonical (abandonStep_canonical h)))

theorem uncorrectableWord_canonical {s : State} {p : Nat} (h : s.Canonical) : (uncorrectableWord s p).Canonical :=
  ite_canonical (onPitch_canonical (rerunStep_canonical h)) (failStep_canonical h)

theorem raiseFault_canonical {s : State} {camp : Nat} {f : CampFault} {opcode attempt : Nat} (h : s.Canonical) :
    (raiseFault s camp f opcode attempt).Canonical := by
  unfold raiseFault
  split
  · exact h
  · exact failStep_canonical (writeEvent_canonical h)

theorem fenceCamp_canonical {s : State} {camp core : Nat} (h : s.Canonical) : (fenceCamp s camp core).Canonical := by
  unfold fenceCamp
  split
  · exact h.putCamp (h.campOf camp).stopCamp
  · exact fenceOne_canonical (rerunStep_canonical (h.sameCores rfl))

end Sys2Proof.Machine
end

section
/-! SUPPORT. O4: memory and scratchpads stay canonical under the events of the memory arrays (R237, R239). -/

namespace Sys2Proof.Machine

theorem pageLost_canonical {s : State} {p n copy code : Nat} (h : s.Canonical) : (pageLost s p n copy code).Canonical :=
  ite_canonical (freePage_canonical h) (holdAllAtBoundary_canonical (putPage_canonical (rangerEvent_canonical h)))

theorem markChannel_canonical {s : State} {ch seconds : Nat} (h : s.Canonical) : (markChannel s ch seconds).Canonical :=
  ite_canonical h (rangerEvent_canonical (h.congr (by simp)))

theorem countCorrection_canonical {s : State} {ch : Nat} (h : s.Canonical) : (countCorrection s ch).Canonical :=
  ite_canonical (markChannel_canonical (h.congr (by simp))) (h.congr (by simp))

theorem hbmCorrected_canonical {s : State} {source da symbol : Nat} (h : s.Canonical) : (hbmCorrected s source da symbol).Canonical :=
  countCorrection_canonical (eventOnce_canonical (fun _ h1 => writeEvent_canonical h1) h)

theorem hbmBad_canonical {s : State} {source da : Nat} {address : Bool} (h : s.Canonical) : (hbmBad s source da address).Canonical :=
  markChannel_canonical (writeEvent_canonical h)

theorem rerunAll_canonical {l : List Nat} {s : State} (h : s.Canonical) : (rerunAll l s).Canonical := by
  induction l generalizing s with
  | nil => exact h
  | cons x t ih => exact ih (ite_canonical h (rerunStep_canonical h))

theorem larderBad_canonical {s : State} {source p da : Nat} (h : s.Canonical) : (larderBad s source p da).Canonical := h.congr (by simp)

end Sys2Proof.Machine
end

section
/-! SUPPORT. O4: memory and scratchpads stay canonical under weight regions and coded regions (R237, R239). -/

namespace Sys2Proof.Machine

theorem noteRegion_canonical {g : Option Nat} {l : List Nat} {s : State} (h : s.Canonical) : (noteRegion g l s).Canonical :=
  h.congr (by simp)

theorem holdRegions_canonical {g : Option Nat} {l : List Nat} {s : State} (h : s.Canonical) : (holdRegions g l s).Canonical := by
  induction l generalizing s with
  | nil => exact h
  | cons x t ih => exact ih (onPitch_canonical (leaveBatch_canonical (noteRegion_canonical (holdAll_canonical (abandonStep_canonical h)))))

theorem modelIntegrity_canonical {s : State} {p da : Nat} (h : s.Canonical) : (modelIntegrity s p da).Canonical :=
  ite_canonical (holdRegions_canonical h) (rangerEvent_canonical (holdRegions_canonical h))

theorem weightRefetchedEvent_canonical {s : State} {p da : Nat} (h : s.Canonical) : (weightRefetchedEvent s p da).Canonical := h.congr (by simp)

theorem goldenFailed_canonical {s : State} {p da : Nat} {t : LoadedTensor} {j : Nat} (h : s.Canonical) : (goldenFailed s p da t j).Canonical :=
  onPitch_canonical (dropBlock_canonical (modelIntegrity_canonical h))

theorem codedFailed_canonical {s : State} {p da : Nat} {c : CodedRegion} {i : Nat} (h : s.Canonical) : (codedFailed s p da c i).Canonical :=
  onPitch_canonical (modelIntegrity_canonical h)

theorem cxlEvent_canonical {s : State} {source p da : Nat} (h : s.Canonical) : (cxlEvent s source p da).Canonical := h.congr (by simp)

theorem cxlBad_canonical {s : State} {p da : Nat} (h : s.Canonical) : (cxlBad s p da).Canonical := h.congr (by simp)

theorem decodeEvent_canonical {s : State} {source p at_ : Nat} {f : DecodeFault} (h : s.Canonical) : (decodeEvent s source p at_ f).Canonical :=
  writeEvent_canonical h

theorem refetchCoded_canonical {source p : Nat} {c : CodedRegion} {base gbase : Nat} {poison : Bool} {i : Nat} {s : State} (h : s.Canonical) :
    (refetchCoded source p c base gbase poison i s).1.Canonical := by
  unfold refetchCoded
  dsimp only
  split
  · exact codedFailed_canonical h
  · split
    · exact codedFailed_canonical (cxlEvent_canonical h)
    · split
      · exact codedFailed_canonical (ite_canonical (cxlEvent_canonical (decodeEvent_canonical h)) (decodeEvent_canonical h))
      · exact weightRefetchedEvent_canonical h.pokeBytes

theorem readBlocks_canonical {source p : Nat} {c : CodedRegion} {base gbase : Nat} {poison : Bool} {l : List Nat} {s : State} (h : s.Canonical) :
    (readBlocks source p c base gbase poison l s).1.Canonical := by
  induction l generalizing s with
  | nil =>
    rw [readBlocks]
    exact h
  | cons x t ih =>
    rw [readBlocks]
    split
    · split
      · next hx => exact fst_canonical hx (ih h)
      · next hx => exact fst_canonical hx (ih h)
    · dsimp only
      split
      · exact h
      · split
        · exact holdAllAtBoundary_canonical (decodeEvent_canonical h)
        · split
          · next hx => exact fst_canonical hx (refetchCoded_canonical (decodeEvent_canonical h))
          · next hx =>
              split
              · next hx1 => exact fst_canonical hx1 (ih (fst_canonical hx (refetchCoded_canonical (decodeEvent_canonical h))))
              · next hx1 => exact fst_canonical hx1 (ih (fst_canonical hx (refetchCoded_canonical (decodeEvent_canonical h))))

theorem readCoded_canonical {s : State} {source : Nat} {r : PitchRecord} {c : CodedRegion} {o n : Nat} {poison : Bool} (h : s.Canonical) :
    (readCoded s source r c o n poison).1.Canonical := by
  unfold readCoded
  split
  · next hx => exact fst_canonical hx (readBlocks_canonical h)
  · next hx => exact fst_canonical hx (readBlocks_canonical h)

theorem storeBlocks_canonical {r : PitchRecord} {c : CodedRegion} {base : Nat} {l : List Nat} {l1 : List Byte} {s : State} (h : s.Canonical) :
    (storeBlocks r c base l l1 s).Canonical := by
  induction l generalizing l1 s with
  | nil => exact h
  | cons x t ih => exact ih h.pokeBytes

theorem writeCoded_canonical {s : State} {source : Nat} {r : PitchRecord} {c : CodedRegion} {o : Nat} {bs : List Byte} (h : s.Canonical) :
    (writeCoded s source r c o bs).1.Canonical := by
  unfold writeCoded
  dsimp only
  split
  · exact storeBlocks_canonical h
  · split
    · next hx => exact fst_canonical hx (readBlocks_canonical h)
    · next hx => exact storeBlocks_canonical (fst_canonical hx (readBlocks_canonical h))

end Sys2Proof.Machine
end

section
/-! SUPPORT. O4: memory and scratchpads stay canonical under the findings of array checks (R237, R239). -/

namespace Sys2Proof.Machine

theorem slotBad_canonical {s : State} {p slot : Nat} (h : s.Canonical) : (slotBad s p slot).Canonical := by
  unfold slotBad
  split
  · exact ite_canonical ((rerunStep_canonical h).pokeBytes) (uncorrectableWord_canonical h)
  · exact uncorrectableWord_canonical h

theorem scrubCoded_canonical {s : State} {da : Nat} {poison : Bool} (h : s.Canonical) : (scrubCoded s da poison).Canonical := by
  unfold scrubCoded
  split
  · exact h
  · exact ite_canonical h (refetchCoded_canonical (h.congr (by simp)))

theorem scrubWeights_canonical {s : State} {da : Nat} {poison : Bool} (h : s.Canonical) : (scrubWeights s da poison).Canonical := by
  unfold scrubWeights
  split
  · exact scrubCoded_canonical h
  · refine ite_canonical h ?_
    refine ite_canonical (goldenFailed_canonical h) ?_
    exact ite_canonical (goldenFailed_canonical (cxlBad_canonical h)) (weightRefetchedEvent_canonical h.pokeBytes)

theorem rebuildRowStarts_canonical {s : State} {p k : Nat} {poison : Bool} (h : s.Canonical) : (rebuildRowStarts s p k poison).Canonical := by
  unfold rebuildRowStarts
  split
  · refine ite_canonical h ?_
    refine ite_canonical (goldenFailed_canonical h) ?_
    refine ite_canonical (goldenFailed_canonical (cxlBad_canonical h)) ?_
    dsimp only
    split
    · exact goldenFailed_canonical (cxlBad_canonical h)
    · split
      · exact goldenFailed_canonical h
      · exact weightRefetchedEvent_canonical (h.congr (by simp))
  · exact h

theorem hotCopyBad_canonical {s : State} {p n : Nat} (h : s.Canonical) : (hotCopyBad s p n).Canonical := by
  unfold hotCopyBad
  split
  · exact h
  · exact h
  · exact pageLost_canonical h

theorem warmCopyBad_canonical {s : State} {p n : Nat} (h : s.Canonical) : (warmCopyBad s p n).Canonical := by
  unfold warmCopyBad
  split
  · exact pageLost_canonical h
  · exact pageLost_canonical h
  · exact h

theorem contentBad_canonical {s : State} {da : Nat} {tile poison : Bool} {l : HbmContent} (h : s.Canonical) :
    (contentBad s da tile poison l).Canonical := by
  unfold contentBad
  split
  · exact ite_canonical h (scrubWeights_canonical h)
  · exact rebuildRowStarts_canonical h
  · exact hotCopyBad_canonical h
  · exact resummarise_canonical h
  · exact resuper_canonical h
  · exact holdAllAtBoundary_canonical h
  · exact removeNode_canonical h
  · exact holdAtBoundary_canonical h
  · exact holdAllAtBoundary_canonical h
  · exact uncorrectableWord_canonical h
  · exact h

theorem capacityBad_canonical {s : State} {da : Nat} {l : HbmContent} (h : s.Canonical) : (capacityBad s da l).Canonical := by
  unfold capacityBad
  split
  · exact warmCopyBad_canonical h
  · split
    · exact goldenFailed_canonical h
    · exact h
  · exact contentBad_canonical h

theorem larderFound_canonical {s : State} {camp p da : Nat} {k : State → State} (h : s.Canonical) (hk : ∀ t, t.Canonical → (k t).Canonical) :
    (larderFound s camp p da k).Canonical :=
  hk _ (larderBad_canonical h)

theorem hashEntryBad_canonical {s : State} {camp p inst entry : Nat} (h : s.Canonical) : (hashEntryBad s camp p inst entry).Canonical :=
  larderFound_canonical h (fun _ h1 => uncorrectableWord_canonical h1)

theorem applyFinding_canonical {s : State} {camp p : Nat} {tile : Bool} {l : Finding} (h : s.Canonical) :
    (applyFinding s camp p tile l).Canonical := by
  unfold applyFinding
  split
  · exact eventOnce_canonical (fun _ h1 => writeEvent_canonical h1) h
  · exact larderFound_canonical h (fun _ h1 => h1)
  · exact larderFound_canonical h (fun _ h1 => slotBad_canonical h1)
  · exact larderFound_canonical h (fun _ h1 => uncorrectableWord_canonical h1)
  · exact hashEntryBad_canonical h
  · exact larderFound_canonical h (fun _ h1 => holdAtBoundary_canonical h1)
  · exact larderFound_canonical h (fun _ h1 => rerunAll_canonical h1)
  · exact hashEntryBad_canonical h
  · exact eventOnce_canonical (fun _ h1 => writeEvent_canonical h1) h
  · exact uncorrectableWord_canonical (writeEvent_canonical h)
  · exact hbmCorrected_canonical h
  · exact contentBad_canonical (hbmBad_canonical h)
  · exact capacityBad_canonical (cxlEvent_canonical h)

theorem applyFindings_canonical {camp p : Nat} {tile : Bool} {l : List Finding} {s : State} (h : s.Canonical) :
    (applyFindings camp p tile l s).1.Canonical := by
  induction l generalizing s with
  | nil =>
    rw [applyFindings]
    exact h
  | cons x t ih =>
    rw [applyFindings]
    split
    · exact applyFinding_canonical h
    · exact ih (applyFinding_canonical h)

theorem rangerFinding_canonical {s0 : State} {p : Nat} {f : Finding} (h : s0.Canonical) : (rangerFinding s0 p f).Canonical := by
  unfold rangerFinding
  dsimp only
  split
  · exact eventOnce_canonical (fun _ h1 => writeEvent_canonical (h1.congr (by simp))) h
  · exact slotBad_canonical (larderBad_canonical (h.congr (by simp)))
  · exact holdAtBoundary_canonical (larderBad_canonical (h.congr (by simp)))
  · exact rerunAll_canonical (larderBad_canonical (h.congr (by simp)))
  · exact hbmCorrected_canonical (h.congr (by simp))
  · exact contentBad_canonical (hbmBad_canonical (h.congr (by simp)))
  · exact capacityBad_canonical (cxlBad_canonical h)
  · exact h

theorem rangerFindings_canonical {p : Nat} {l : List Finding} {s : State} (h : s.Canonical) : (rangerFindings p l s).Canonical := by
  induction l generalizing s with
  | nil => exact h
  | cons x t ih => exact ih (rangerFinding_canonical h)

end Sys2Proof.Machine
end

section
/-! SUPPORT. O4: memory and scratchpads stay canonical under accesses to memory (R237, R239). -/

namespace Sys2Proof.Machine

theorem rangerAccess_canonical {s : State} {rs : List (Nat × Nat)} {k : State → State} (h : s.Canonical)
    (hk : ∀ t, t.Canonical → (k t).Canonical) : (rangerAccess s rs k).Canonical :=
  ite_canonical h (ite_canonical (wakeUnits_canonical h) (hk _ (touched_canonical h)))

theorem rangerReads_canonical {s : State} {p : Nat} {found : List Finding} {rs : List (Nat × Nat)} {k : State → State} (h : s.Canonical)
    (hk : ∀ t, t.Canonical → (k t).Canonical) : (rangerReads s p found rs k).Canonical :=
  ite_canonical h (rangerAccess_canonical h (fun _ h1 => hk _ (rangerFindings_canonical h1)))

end Sys2Proof.Machine
end

section
/-! SUPPORT. O4: memory and scratchpads stay canonical under the camp sequencer (R237, R239). -/

namespace Sys2Proof.Machine

theorem moveTo_canonical {s : State} {camp : Nat} {ls : List LoopFrame} {pc : Nat} (h : s.Canonical) : (moveTo s camp ls pc).Canonical := by
  unfold moveTo
  dsimp only
  split
  · exact h
  · exact ite_canonical (raiseFault_canonical (h.sameCores rfl)) (h.sameCores rfl)

theorem advance_canonical {s : State} {camp : Nat} (h : s.Canonical) : (advance s camp).Canonical := by
  unfold advance
  split
  · exact h
  · exact moveTo_canonical h

theorem block_canonical {s : State} {camp : Nat} {w : CmdWord} {r : WaitReason} (h : s.Canonical) : (block s camp w r).Canonical := by
  unfold block
  dsimp only
  split
  · exact h.sameCores rfl
  · exact h.sameCores rfl

theorem settle_canonical {s : State} {camp : Nat} {w : CmdWord} {r : CmdRes} (h : s.Canonical) (hk : r.Canonical) :
    (settle s camp w r).Canonical := by
  cases r with
  | done s1 => exact advance_canonical hk
  | wait r => exact block_canonical h
  | fault f => exact raiseFault_canonical h
  | settled s1 => exact hk

theorem takeCommand_canonical {s : State} {camp : Nat} {w : CmdWord} {mine : Bool} {f : Ctx → State → CmdRes} (h : s.Canonical)
    (hk : ∀ a t, t.Canonical → (f a t).Canonical) : (takeCommand s camp w mine f).Canonical := by
  unfold takeCommand
  dsimp only
  split
  · exact ite_canonical (settle_canonical h (hk _ _ h)) h
  · exact h

theorem runCommand_canonical {s : State} {camp : Nat} {w : CmdWord} {mine : Bool} {f : Ctx → State → CmdRes} (h : s.Canonical)
    (hk : ∀ a t, t.Canonical → (f a t).Canonical) : AnswerCanonical (runCommand s camp w mine f) :=
  nextIf_canonical (takeCommand_canonical h (fun _ _ h1 => hk _ _ h1))

theorem coreCommand_canonical {w : CmdWord} {fields : List (Nat × Nat)} {rule : Bool} {k : List Nat → CmdRes} (hk : ∀ a, (k a).Canonical) :
    (coreCommand w fields rule k).Canonical :=
  .ite trivial (hk _)

theorem campCommand_canonical {w : CmdWord} {fields : List (Nat × Nat)} {rule : Bool} {k : CmdRes} (hk : k.Canonical) :
    (campCommand w fields rule k).Canonical :=
  .ite trivial hk

theorem unlessFault_canonical {f : Option CampFault} {k : CmdRes} (hk : k.Canonical) : (unlessFault f k).Canonical := by
  unfold unlessFault
  split
  · exact trivial
  · exact hk

theorem putSlot_canonical {s : State} {p n : Nat} {x : Slot} (h : s.Canonical) : (putSlot s p n x).Canonical := h.congr (by simp)

theorem withSlot_canonical {s : State} {c : Ctx} {n core : Nat} {k : Slot → CmdRes} (hk : ∀ a, (k a).Canonical) :
    (withSlot s c n core k).Canonical := by
  unfold withSlot
  split
  · exact trivial
  · exact hk _

theorem reading_canonical {c : Ctx} {s : State} {x : Slot} {n : Nat} {k : CmdRes} (hk : k.Canonical) : (reading c s x n k).Canonical :=
  .ite hk trivial

theorem writing_canonical {c : Ctx} {s : State} {x : Slot} {n core : Nat} {k : CmdRes} (hk : k.Canonical) : (writing c s x n core k).Canonical :=
  .ite trivial (.ite hk trivial)

theorem withFindings_canonical {c : Ctx} {found : List Finding} {s : State} {k : State → CmdRes} (h : s.Canonical)
    (hk : ∀ t, t.Canonical → (k t).Canonical) : (withFindings c found s k).Canonical := by
  unfold withFindings
  refine .ite trivial ?_
  split
  · next hx => exact fst_canonical hx (applyFindings_canonical h)
  · next hx => exact hk _ (fst_canonical hx (applyFindings_canonical h))

theorem withTileFindings_canonical {c : Ctx} {found : List Finding} {s : State} {k : State → CmdRes} (h : s.Canonical)
    (hk : ∀ t, t.Canonical → (k t).Canonical) : (withTileFindings c found s k).Canonical := by
  unfold withTileFindings
  refine .ite trivial ?_
  split
  · next hx => exact fst_canonical hx (applyFindings_canonical h)
  · next hx => exact hk _ (fst_canonical hx (applyFindings_canonical h))

theorem access_canonical {c : Ctx} {s : State} {rs : List (Nat × Nat)} {k : State → CmdRes} (h : s.Canonical)
    (hk : ∀ t, t.Canonical → (k t).Canonical) : (access c s rs k).Canonical := by
  unfold access
  refine .ite trivial ?_
  exact .ite trivial (.ite (block_canonical (ite_canonical h (wakeUnits_canonical h))) (hk _ (touched_canonical h)))

theorem withStream_canonical {c : Ctx} {poison : Bool} {l : List (Nat × Nat)} {s : State} {l1 : State → CmdRes} (h : s.Canonical)
    (hk : ∀ t, t.Canonical → (l1 t).Canonical) : (withStream c poison l s l1).Canonical := by
  induction l generalizing s with
  | nil =>
    rw [withStream]
    exact hk _ h
  | cons x t ih =>
    obtain ⟨_, _⟩ := x
    rw [withStream]
    split
    · exact ih h
    · split
      · next hx => exact fst_canonical hx (readCoded_canonical h)
      · next hx => exact ih (fst_canonical hx (readCoded_canonical h))

theorem releaseWaiter_canonical {s : State} {p n camp : Nat} (h : s.Canonical) : (releaseWaiter s p n camp).Canonical := by
  unfold releaseWaiter
  split
  · exact h
  · exact ite_canonical (ite_canonical (ite_canonical (advance_canonical (h.congr (by simp))) (advance_canonical h)) h) h

theorem releaseWaiters_canonical {p n : Nat} {l : List Nat} {s : State} (h : s.Canonical) : (releaseWaiters p n l s).Canonical := by
  induction l generalizing s with
  | nil => exact h
  | cons x t ih => exact ih (releaseWaiter_canonical h)

theorem signalSync_canonical {s : State} {p n v : Nat} {res : State} (h : s.Canonical) (hx : signalSync s p n v = some res) : res.Canonical := by
  unfold signalSync at hx
  dsimp only at hx
  split at hx
  · cases hx
  · cases hx
    exact releaseWaiters_canonical (h.congr (by simp))

theorem releaseBlocked_canonical {s : State} {p : Nat} {f : WaitReason → Bool} (h : s.Canonical) : (releaseBlocked s p f).Canonical :=
  h.mapCamps fun n c hc => by
    split
    · split
      · exact hc
      · exact hc
    · exact hc

end Sys2Proof.Machine
end

section
/-! SUPPORT. O4: memory and scratchpads stay canonical under the camp commands (R237, R239). -/

namespace Sys2Proof.Machine

theorem doNop_canonical {c : Ctx} {s : State} (h : s.Canonical) : (doNop c s).Canonical :=
  campCommand_canonical h

theorem endProgram_canonical {s : State} {camp : Nat} (h : s.Canonical) : (endProgram s camp).Canonical :=
  h.sameCores rfl

theorem doEnd_canonical {c : Ctx} {s : State} (h : s.Canonical) : (doEnd c s).Canonical := by
  unfold doEnd
  refine campCommand_canonical (.ite trivial ?_)
  refine .ite trivial ?_
  refine .ite ?_ (endProgram_canonical h)
  split
  · exact trivial
  · next hx => exact signalSync_canonical (endProgram_canonical h) hx

theorem doSetwin_canonical {c : Ctx} {s : State} (h : s.Canonical) : (doSetwin c s).Canonical :=
  coreCommand_canonical (fun _ => h.onCores fun _ _ _ hk => hk)

theorem onProg_canonical {s : State} {camp : Nat} {f : Program → Program} (h : s.Canonical) : (onProg s camp f).Canonical :=
  h.sameCores rfl

theorem doWdog_canonical {c : Ctx} {s : State} (h : s.Canonical) : (doWdog c s).Canonical :=
  campCommand_canonical (onProg_canonical h)

theorem doLoop_canonical {c : Ctx} {s : State} (h : s.Canonical) : (doLoop c s).Canonical :=
  campCommand_canonical (.ite (moveTo_canonical h) (moveTo_canonical h))

theorem doFence_canonical {c : Ctx} {s : State} (h : s.Canonical) : (doFence c s).Canonical :=
  campCommand_canonical (.ite trivial h)

theorem routed_canonical {c : Ctx} {x : Slot} {n : Nat} {k : CmdRes} (hk : k.Canonical) : (routed c x n k).Canonical :=
  .ite hk trivial

/-- A command that reads a slot, once the slot is there, its place is in range and its bytes are admitted. -/
theorem slotInput_canonical {s : State} {c : Ctx} {n core : Nat} {fault : Slot → Option CampFault} {rs : Slot → List (Nat × Nat)}
    {found : List Finding} {k : Slot → State → CmdRes} (h : s.Canonical) (hk : ∀ x t, t.Canonical → (k x t).Canonical) :
    (withSlot s c n core fun x => unlessFault (fault x) <| routed c x n <| reading c s x n <| access c s (rs x) fun s0 =>
      withFindings c found s0 (k x)).Canonical :=
  withSlot_canonical fun x => unlessFault_canonical (routed_canonical (reading_canonical (access_canonical h fun _ h1 =>
    withFindings_canonical h1 (hk x))))

/-- A command that writes a slot. -/
theorem slotOutput_canonical {s : State} {c : Ctx} {n core low : Nat} {fault : Slot → Option CampFault} {rs : Slot → List (Nat × Nat)}
    {found : List Finding} {k : Slot → State → CmdRes} (h : s.Canonical) (hk : ∀ x t, t.Canonical → (k x t).Canonical) :
    (withSlot s c n core fun x => unlessFault (fault x) <| routed c x n <| writing c s x n low <| access c s (rs x) fun s0 =>
      withFindings c found s0 (k x)).Canonical :=
  withSlot_canonical fun x => unlessFault_canonical (routed_canonical (writing_canonical (access_canonical h fun _ h1 =>
    withFindings_canonical h1 (hk x))))

theorem doSlotrd_canonical {found : List Finding} {c : Ctx} {s : State} (h : s.Canonical) : (doSlotrd found c s).Canonical := by
  unfold doSlotrd
  refine coreCommand_canonical fun _ => unlessFault_canonical (slotInput_canonical h fun _ _ h1 => ?_)
  exact ite_canonical (putSlot_canonical h1.spWrites) h1.spWrites

theorem storeRanks_canonical {da o step : Nat} {get : Nat → List Byte} {l : List (Nat × Nat)} {s : State} (h : s.Canonical) :
    (storeRanks da o step get l s).Canonical := by
  induction l generalizing s with
  | nil => exact h
  | cons x t ih => exact ih h.pokeBytes

theorem doSlotwr_canonical {found : List Finding} {c : Ctx} {s : State} (h : s.Canonical) : (doSlotwr found c s).Canonical := by
  unfold doSlotwr
  exact coreCommand_canonical fun _ => unlessFault_canonical (slotOutput_canonical h fun _ _ h1 => putSlot_canonical (storeRanks_canonical h1))

theorem dropAhead_canonical {c : Ctx} {s : State} (h : s.Canonical) : (dropAhead c s).Canonical :=
  h.sameCores rfl

theorem scatterRanks_canonical {c : Ctx} {cores : List Nat} {o n : Nat} {bs : List Byte} {s : State} (h : s.Canonical) :
    (scatterRanks c cores o n bs s).Canonical :=
  h.onCores fun _ _ _ hk => spWrite_wf _ _ _ hk

theorem doMemrd_canonical {found : List Finding} {c : Ctx} {s : State} (h : s.Canonical) : (doMemrd found c s).Canonical := by
  unfold doMemrd
  refine coreCommand_canonical (fun _ => unlessFault_canonical (unlessFault_canonical ?_))
  split
  · refine access_canonical h (fun _ h1 => withFindings_canonical h1 (fun _ h2 => ?_))
    split
    · next hx => exact fst_canonical hx (readCoded_canonical h2)
    · next hx => exact scatterRanks_canonical (dropAhead_canonical (fst_canonical hx (readCoded_canonical h2)))
  · dsimp only
    split
    · exact withFindings_canonical h (fun _ h1 => scatterRanks_canonical (dropAhead_canonical h1))
    · exact access_canonical h (fun _ h1 => withFindings_canonical h1 (fun _ h2 => scatterRanks_canonical (dropAhead_canonical h2)))

theorem doMemwr_canonical {found : List Finding} {c : Ctx} {s : State} (h : s.Canonical) : (doMemwr found c s).Canonical := by
  unfold doMemwr
  refine coreCommand_canonical (fun _ => unlessFault_canonical (unlessFault_canonical ?_))
  dsimp only
  split
  · refine access_canonical h (fun _ h1 => withFindings_canonical h1 (fun _ h2 => ?_))
    split
    · next hx => exact fst_canonical hx (writeCoded_canonical h2)
    · next hx => exact fst_canonical hx (writeCoded_canonical h2)
  · exact access_canonical h (fun _ h1 => withFindings_canonical h1 (fun _ h2 => h2.pokeBytes))

theorem loseBadTags_canonical {p : Nat} {l : List (Nat × Nat × Nat × Nat)} {s : State} (h : s.Canonical) : (loseBadTags p l s).Canonical := by
  induction l generalizing s with
  | nil => exact h
  | cons x t ih =>
    obtain ⟨_, _, _, _⟩ := x
    rw [loseBadTags]
    refine ih (ite_canonical h ?_)
    split
    · exact pageLost_canonical h
    · exact holdAllAtBoundary_canonical h

theorem bindMult_canonical {found : List Finding} {c : Ctx} {a : Nat} {s : State} (h : s.Canonical) : (bindMult found c a s).Canonical := by
  unfold bindMult
  refine .ite trivial ?_
  refine unlessFault_canonical (access_canonical h (fun _ h1 => withStream_canonical h1 (fun _ h2 => ?_)))
  refine .ite trivial ?_
  refine unlessFault_canonical (access_canonical h2 (fun _ h1 => withFindings_canonical h1 (fun _ h2 => withStream_canonical h2 (fun _ h3 => ?_))))
  split
  · exact trivial
  · exact .ite (loseBadTags_canonical h3) (h3.sameCores rfl)

theorem bindWeights_canonical {found : List Finding} {c : Ctx} {a : Nat} {s : State} (h : s.Canonical) : (bindWeights found c a s).Canonical :=
  unlessFault_canonical (access_canonical h (fun _ h1 => withFindings_canonical h1 (fun _ h2 => withStream_canonical h2 (fun _ h3 => .ite trivial
      (unlessFault_canonical ((dropAhead_canonical h3).sameCores rfl))))))

theorem doWstream_canonical {found : List Finding} {c : Ctx} {s : State} (h : s.Canonical) : (doWstream found c s).Canonical :=
  campCommand_canonical (.ite (bindMult_canonical h) (bindWeights_canonical h))

theorem doTilecfg_canonical {c : Ctx} {s : State} (h : s.Canonical) : (doTilecfg c s).Canonical :=
  campCommand_canonical (h.sameCores rfl)

theorem doVld_canonical {found : List Finding} {c : Ctx} {s : State} (h : s.Canonical) : (doVld found c s).Canonical := by
  unfold doVld
  refine coreCommand_canonical fun _ => .ite ?_ (.ite ?_ ?_)
  · exact unlessFault_canonical (withFindings_canonical h fun _ h1 => h1.onCores (loadInto_wf _))
  · exact slotInput_canonical h fun _ _ h1 => h1.onCores (loadInto_wf _)
  · exact h.onCores fun _ _ _ hk => hk

theorem masterNan_canonical {camp p layer : Nat} {l : List (Word × Nat)} {s : State} (h : s.Canonical) :
    (masterNan camp p layer l s).Canonical := by
  induction l generalizing s with
  | nil => exact h
  | cons x t ih => exact ih (ite_canonical (writeEvent_canonical h) h)

theorem masterNans_canonical {c : Ctx} {cores : List Nat} {s : State} (h : s.Canonical) : (masterNans c cores s).Canonical :=
  masterNan_canonical h

theorem doVst_canonical {found : List Finding} {c : Ctx} {s : State} (h : s.Canonical) : (doVst found c s).Canonical := by
  unfold doVst
  refine coreCommand_canonical fun _ => .ite ?_ ?_
  · refine withSlot_canonical fun _ => unlessFault_canonical (unlessFault_canonical (routed_canonical (writing_canonical ?_)))
    refine access_canonical h fun _ h1 => withFindings_canonical h1 fun _ h2 => ?_
    exact putSlot_canonical (storeRanks_canonical (ite_canonical (masterNans_canonical h2) h2))
  · refine unlessFault_canonical (unlessFault_canonical (withFindings_canonical h fun _ h1 => ?_))
    exact (ite_canonical (masterNans_canonical h1) h1).spWrites

theorem doSignal_canonical {c : Ctx} {s : State} (h : s.Canonical) : (doSignal c s).Canonical := by
  unfold doSignal
  refine campCommand_canonical (.ite trivial ?_)
  split
  · exact trivial
  · next hx => exact signalSync_canonical h hx

theorem doWait_canonical {c : Ctx} {s : State} (h : s.Canonical) : (doWait c s).Canonical :=
  campCommand_canonical (.ite trivial (.ite h trivial))

theorem doTake_canonical {c : Ctx} {s : State} (h : s.Canonical) : (doTake c s).Canonical :=
  campCommand_canonical (.ite trivial (.ite trivial (.ite (h.congr (by simp)) (block_canonical (h.congr (by simp))))))

theorem doReserved_canonical {a0 : Ctx} {a1 : State}  : (doReserved a0 a1).Canonical :=
  trivial

theorem doRunAhead_canonical {found : List Finding} {s : State} {camp index : Nat} (h : s.Canonical) :
    (doRunAhead found s camp index).Canonical := by
  unfold doRunAhead
  dsimp only
  split
  · exact ite_canonical (rangerAccess_canonical h (fun _ h1 => ite_canonical h1 (h1.sameCores rfl))) h
  · exact h

end Sys2Proof.Machine
end

section
/-! SUPPORT. O4: memory and scratchpads stay canonical under the counters of a sequence and layer (R237, R239). -/

namespace Sys2Proof.Machine

theorem withTable_canonical {c : Ctx} {s : State} {core : Nat} {k : LengthTable → CmdRes} (hk : ∀ a, (k a).Canonical) :
    (withTable c s core k).Canonical :=
  withSlot_canonical (fun _ => reading_canonical (.ite trivial (hk _)))

theorem onLayer_canonical {s : State} {p i layer : Nat} {f : LayerState → LayerState} (h : s.Canonical) : (onLayer s p i layer f).Canonical :=
  h.congr (by simp)

theorem countSaturated_canonical {s : State} {p i layer n : Nat} (h : s.Canonical) : (countSaturated s p i layer n).Canonical :=
  h.congr (by simp)

end Sys2Proof.Machine
end

section
/-! SUPPORT. O4: memory and scratchpads stay canonical under top-k and the hash accumulators (R237, R239). -/

namespace Sys2Proof.Machine

theorem countTopNan_canonical {c : Ctx} {row nans : Nat} {s : State} {k : State → CmdRes} (h : s.Canonical)
    (hk : ∀ t, t.Canonical → (k t).Canonical) : (countTopNan c row nans s k).Canonical := by
  unfold countTopNan
  split
  · exact hk _ h
  · refine .ite (hk _ h) ?_
    refine withTable_canonical (fun _ => ?_)
    split
    · exact hk _ h
    · exact hk _ (h.congr (by simp))

theorem doTopk_canonical {found : List Finding} {c : Ctx} {s : State} (h : s.Canonical) : (doTopk found c s).Canonical := by
  unfold doTopk
  refine coreCommand_canonical fun _ => unlessFault_canonical (slotInput_canonical h fun _ _ h1 => countTopNan_canonical h1 fun _ h2 => ?_)
  exact ite_canonical (putSlot_canonical h2.spWrites) h2.spWrites

theorem putHash_canonical {s : State} {i : Nat} {x : HashInst} (h : s.Canonical) : (putHash s i x).Canonical :=
  h.congr ⟨rfl, rfl⟩

theorem doHopen_canonical {found : List Finding} {c : Ctx} {s : State} (h : s.Canonical) : (doHopen found c s).Canonical := by
  unfold doHopen
  refine campCommand_canonical (unlessFault_canonical (access_canonical h (fun _ h1 => withFindings_canonical h1 (fun _ h2 => ?_))))
  refine .ite trivial ?_
  refine .ite trivial ?_
  split
  · exact trivial
  · exact putHash_canonical h2

theorem contribute_canonical {s : State} {r : PitchRecord} {i key : Nat} {v : Int} (h : s.Canonical) : (contribute s r i key v).Canonical := by
  unfold contribute
  dsimp only
  split
  · exact h
  · split
    · exact putHash_canonical h
    · exact (putHash_canonical h).pokeBytes

theorem contributeAll_canonical {r : PitchRecord} {i : Nat} {l : List (Nat × Int)} {s : State} (h : s.Canonical) :
    (contributeAll r i l s).Canonical := by
  induction l generalizing s with
  | nil => exact h
  | cons x t ih => exact ih (contribute_canonical h)

theorem doHadd_canonical {found : List Finding} {c : Ctx} {s : State} (h : s.Canonical) : (doHadd found c s).Canonical := by
  unfold doHadd
  refine coreCommand_canonical (fun _ => unlessFault_canonical ?_)
  dsimp only
  split
  · exact trivial
  · refine .ite trivial ?_
    refine unlessFault_canonical (unlessFault_canonical ?_)
    exact .ite trivial (access_canonical h (fun _ h1 => withFindings_canonical h1 (fun _ h2 => contributeAll_canonical h2)))

theorem doHclose_canonical {c : Ctx} {s : State} (h : s.Canonical) : (doHclose c s).Canonical := by
  unfold doHclose
  refine campCommand_canonical ?_
  refine .ite trivial ?_
  refine .ite trivial ?_
  dsimp only
  split
  · exact trivial
  · exact .ite trivial (.ite trivial (block_canonical (putHash_canonical h)))

theorem mergeHash_canonical {s : State} {i : Nat} (h : s.Canonical) : (mergeHash s i).Canonical := by
  unfold mergeHash
  dsimp only
  split
  · exact h
  · split
    · split
      · exact raiseFault_canonical h
      · split
        · next hx => exact advance_canonical (signalSync_canonical (releaseBlocked_canonical (putHash_canonical h.pokeBytes)) hx)
        · exact raiseFault_canonical (releaseBlocked_canonical (putHash_canonical h.pokeBytes))
    · exact h

theorem doHashClose_canonical {found : List Finding} {s : State} {i : Nat} (h : s.Canonical) : (doHashClose found s i).Canonical := by
  unfold doHashClose
  split
  · exact h
  · refine rangerAccess_canonical h (fun _ h1 => ?_)
    split
    · next hx => exact fst_canonical hx (applyFindings_canonical h1)
    · next hx => exact mergeHash_canonical (fst_canonical hx (applyFindings_canonical h1))

end Sys2Proof.Machine
end

section
/-! SUPPORT. O4: memory and scratchpads stay canonical under tile runs (R237, R239). -/

namespace Sys2Proof.Machine

theorem noteSidecars_canonical {s : State} {c : Ctx} {st : Stream} {cfg : TileCfg} {tbl : LengthTable} {j : Nat} (h : s.Canonical) :
    (noteSidecars s c st cfg tbl j).Canonical := by
  unfold noteSidecars
  split
  · exact h
  · exact foldl_canonical (fun _ h1 _ => writeEvent_canonical h1) (ite_canonical h (h.congr (by simp)))

theorem noteRows_canonical {c : Ctx} {st : Stream} {cfg : TileCfg} {tbl : LengthTable} {l : List Nat} {s : State} (h : s.Canonical) :
    (noteRows c st cfg tbl l s).Canonical := by
  induction l generalizing s with
  | nil => exact h
  | cons x t ih => exact ih (noteSidecars_canonical h)

theorem countPre_canonical {p layer op : Nat} {l : List (Nat × Nat × Nat)} {s : State} (h : s.Canonical) : (countPre p layer op l s).Canonical := by
  induction l generalizing s with
  | nil => exact h
  | cons x t ih =>
    obtain ⟨_, _, _⟩ := x
    rw [countPre]
    exact ite_canonical (ih h) (ih (h.congr (by simp)))

theorem issueTiles_canonical {c : Ctx} {page : Option Nat} {l : List (Nat × TileRun)} {s : State} (h : s.Canonical) :
    (issueTiles c page l s).Canonical := by
  induction l generalizing s with
  | nil => exact h
  | cons x t ih => exact ih (countPre_canonical (h.onCore fun k hk => by rwa [issueTile_sp]))

theorem noteChunk_canonical {c : Ctx} {d : MultDesc} {i first n : Nat} {s : State} (h : s.Canonical) : (noteChunk c d i first n s).Canonical :=
  ite_canonical h (countSaturated_canonical (writeEvent_canonical (h.congr (by simp))))

theorem noteChunks_canonical {c : Ctx} {d : MultDesc} {e : TableRow} {keys : List KeyRef} {live : KeyRef → Bool} {l : List Nat} {s : State}
    (h : s.Canonical) : (noteChunks c d e keys live l s).Canonical := by
  induction l generalizing s with
  | nil => exact h
  | cons x t ih => exact ih (noteChunk_canonical h)

theorem countBlind_canonical {s : State} {p i layer kvHead head q : Nat} (h : s.Canonical) : (countBlind s p i layer kvHead head q).Canonical :=
  ite_canonical h (h.congr (by simp))

theorem noteBlind_canonical {c : Ctx} {st : Stream} {cfg : TileCfg} {d : MultDesc} {tbl : LengthTable} {l : List Nat} {s : State} (h : s.Canonical) :
    (noteBlind c st cfg d tbl l s).Canonical := by
  induction l generalizing s with
  | nil => exact h
  | cons x t ih =>
    rw [noteBlind]
    refine ih ?_
    split
    · exact h
    · exact countBlind_canonical h

theorem runTile_canonical {c : Ctx} {cores : List Nat} {st : Stream} {cfg : TileCfg} {tbl : LengthTable} {found : List Finding} {s : State}
    (h : s.Canonical) : (runTile c cores st cfg tbl found s).Canonical := by
  unfold runTile
  dsimp only
  split
  · exact ite_canonical (issueTiles_canonical (dropAhead_canonical h)) (issueTiles_canonical (noteRows_canonical (dropAhead_canonical h)))
  · refine issueTiles_canonical ?_
    refine ite_canonical ?_ ?_
    · refine noteBlind_canonical ?_
      split
      · exact h
      · exact noteChunks_canonical h
    · split
      · exact h
      · exact noteChunks_canonical h

theorem doTile_canonical {found : List Finding} {c : Ctx} {s : State} (h : s.Canonical) : (doTile found c s).Canonical := by
  unfold doTile
  refine coreCommand_canonical (fun _ => ?_)
  split
  · refine .ite trivial ?_
    refine withTable_canonical (fun _ => unlessFault_canonical (unlessFault_canonical (unlessFault_canonical ?_)))
    refine .ite trivial ?_
    exact access_canonical h (fun _ h1 => withTileFindings_canonical h1 (fun _ h2 => withStream_canonical h2 (fun _ h3 => runTile_canonical h3)))
  · exact trivial

theorem retireCore_canonical {s : State} {camp core p : Nat} {m : Mismatch} (h : s.Canonical) : (retireCore s camp core p m).Canonical :=
  fenceCamp_canonical ((residueEvent_canonical h).onCore fun _ hk => hk)

theorem discardRun_canonical {s : State} {camp core p : Nat} {t : TileRun} (h : s.Canonical) : (discardRun s camp core p t).Canonical := by
  unfold discardRun
  dsimp only
  split
  · exact retireCore_canonical h
  · exact (ite_canonical (residueEvent_canonical h) (retireLanes_canonical h)).onCore fun _ hk => by rwa [beginRun_sp]

theorem countElems_canonical {f : State → Nat → Nat → Nat → Nat → State} {p : Nat} {t : TileRun} {l : List Elem} {s : State}
    (hk : ∀ t, t.Canonical → ∀ a b c d, (f t a b c d).Canonical) (h : s.Canonical) : (countElems f p t l s).Canonical := by
  induction l generalizing s with
  | nil => exact h
  | cons x t ih =>
    rw [countElems]
    refine ih ?_
    split
    · exact h
    · exact hk _ h _ _ _ _

theorem acceptTile_canonical {s : State} {camp core p : Nat} {t : TileRun} (h : s.Canonical) : (acceptTile s camp core p t).Canonical :=
  releaseBlocked_canonical ((countElems_canonical (fun _ h1 _ _ _ _ => h1.congr (by simp)) h).onCore fun _ hk => hk)

theorem nextRun_canonical {s : State} {camp core : Nat} {t : TileRun} (h : s.Canonical) : (nextRun s camp core t).Canonical :=
  h.onCore fun k hk => by rwa [beginRun_sp]

theorem decideRun_canonical {s : State} {camp core p : Nat} {t : TileRun} (h : s.Canonical) : (decideRun s camp core p t).Canonical := by
  unfold decideRun
  refine ite_canonical (ite_canonical (nextRun_canonical h) (acceptTile_canonical h)) ?_
  refine ite_canonical (acceptTile_canonical (countElems_canonical (fun _ h1 _ _ _ _ => h1.congr (by simp)) h)) ?_
  refine ite_canonical (nextRun_canonical (countElems_canonical (fun _ h1 _ _ _ _ => h1.congr (by simp)) h)) ?_
  exact nextRun_canonical (countElems_canonical (fun _ h1 _ _ _ _ => h1.congr (by simp)) h)

theorem markEvent_canonical {s : State} {camp p : Nat} {m : WeightMark} {copy : Nat} (h : s.Canonical) : (markEvent s camp p m copy).Canonical :=
  ite_canonical h (writeEvent_canonical h)

theorem repeatRuns_canonical {r0 : PitchRecord} {l : List (Nat × Nat × TileRun)} {s : State} (h : s.Canonical) : (repeatRuns r0 l s).Canonical := by
  induction l generalizing s with
  | nil => exact h
  | cons x t ih => exact ih (countPre_canonical (h.onCore fun k hk => by rwa [beginRun_sp]))

theorem joinRun_canonical {s : State} {camp core : Nat} {r : PitchRecord} {t : TileRun} (h : s.Canonical) :
    (joinRun s camp core r t).Canonical := by
  unfold joinRun
  split
  · exact ite_canonical (repeatRuns_canonical h) ((markEvent_canonical h).onCore fun _ hk => hk)
  · exact ite_canonical (decideRun_canonical h) (discardRun_canonical h)

theorem execTileRunJoin_canonical {camp core base : Nat} {wide : Bool} {s : State} (h : s.Canonical) :
    AnswerCanonical (execTileRunJoin camp core base wide s) := by
  unfold execTileRunJoin
  refine .ite ?_ trivial
  split
  · exact .ite (joinRun_canonical h) h
  · exact h

theorem refetchBlock_canonical {s : State} {r : PitchRecord} {da : Nat} {poison : Bool} {camp : Nat} {x : TileSource}
    {ws : List (Nat × Nat × TileRun)} (h : s.Canonical) : (refetchBlock s r da poison camp x ws).Canonical := by
  unfold refetchBlock
  refine ite_canonical h ?_
  refine ite_canonical (goldenFailed_canonical h) ?_
  refine ite_canonical (goldenFailed_canonical (cxlBad_canonical h)) ?_
  dsimp only
  split
  · exact goldenFailed_canonical (markEvent_canonical (weightRefetchedEvent_canonical (dropBlock_canonical h.pokeBytes)))
  · exact repeatRuns_canonical (weightRefetchedEvent_canonical (dropBlock_canonical h.pokeBytes))

theorem refetchDue_canonical {s : State} {p da : Nat} {poison : Bool} (h : s.Canonical) : (refetchDue s p da poison).Canonical := by
  unfold refetchDue
  split
  · exact h.congr (by simp)
  · exact ite_canonical h (dropBlock_canonical (scrubWeights_canonical h))

theorem execWeightRefetched_canonical {pitch da : Nat} {poison : Bool} {s : State} (h : s.Canonical) :
    AnswerCanonical (execWeightRefetched pitch da poison s) := by
  unfold execWeightRefetched
  refine .ite ?_ trivial
  split
  · exact h
  · dsimp only
    split
    · split
      · exact refetchBlock_canonical h
      · exact h
    · exact ite_canonical (refetchDue_canonical h) h

theorem tredStore_canonical {c : Ctx} {base : Nat} {wide : Bool} {slot : Option (List Byte)} {cores : List Nat} {s : State} (h : s.Canonical) :
    (tredStore c base wide slot cores s).Canonical :=
  h.onCores fun _ _ _ hk => by
    split
    · exact hk
    · exact hk

theorem tredOut_canonical {found : List Finding} {c : Ctx} {cores : List Nat} {height : Nat} {slot : Option (List Byte)} {s : State}
    (h : s.Canonical) : (tredOut found c cores height slot s).Canonical :=
  .ite (withFindings_canonical h fun _ h1 => tredStore_canonical h1)
    (slotOutput_canonical h fun _ _ h1 => putSlot_canonical h1.pokeBytes)

theorem doTred_canonical {found : List Finding} {c : Ctx} {s : State} (h : s.Canonical) : (doTred found c s).Canonical := by
  unfold doTred
  refine coreCommand_canonical (fun _ => ?_)
  dsimp only
  split
  · exact trivial
  · split
    · exact trivial
    · split
      · exact tredOut_canonical h
      · refine withSlot_canonical (fun _ => unlessFault_canonical (routed_canonical (reading_canonical (access_canonical h (fun _ h2 => ?_)))))
        split
        · next hr =>
            have h3 := (tredOut_canonical h2).congr hr
            split
            · exact h3
            · exact putSlot_canonical h3
        · exact tredOut_canonical h2

end Sys2Proof.Machine
end

section
/-! SUPPORT. O4: memory and scratchpads stay canonical under the vector engine (R237, R239). -/

namespace Sys2Proof.Machine

theorem vopCommand_canonical {w : CmdWord} {mask : Nat} {k : List Nat → CmdRes} (hk : ∀ a, (k a).Canonical) : (vopCommand w mask k).Canonical :=
  coreCommand_canonical (fun _ => .ite trivial (hk _))

theorem runVop_canonical {s : State} {camp : Nat} {w : CmdWord} {op : Nat} {f : Ctx → State → CmdRes} (h : s.Canonical)
    (hk : ∀ a t, t.Canonical → (f a t).Canonical) : AnswerCanonical (runVop s camp w op f) :=
  runCommand_canonical h (fun _ _ h1 => hk _ _ h1)

theorem vopRun_canonical {c : Ctx} {cores : List Nat} {f : Core → Core} {s : State} (hf : ∀ k, (f k).sp = k.sp) (h : s.Canonical) :
    (vopRun c cores f s).Canonical :=
  h.onCores fun _ _ _ hk => by rwa [iterate_sp hf]

theorem doElem_canonical {f : Word → Word → Word → Word} {c : Ctx} {s : State} (h : s.Canonical) : (doElem f c s).Canonical :=
  vopCommand_canonical (fun _ => vopRun_canonical (fun _ => rfl) h)

theorem retireCores_canonical {camp : Nat} {l : List Nat} {s : State} (h : s.Canonical) : (retireCores camp l s).Canonical := by
  induction l generalizing s with
  | nil => exact h
  | cons x t ih => exact ih (h.onCore fun _ hk => hk)

theorem fmaDiscards_canonical {c : Ctx} {l : Nat} {l1 : List (Nat × Nat)} {l2 : List (List Mismatch)} {s : State} (h : s.Canonical) :
    (fmaDiscards c l l1 l2 s).1.Canonical := by
  induction l2 generalizing l l1 s with
  | nil =>
    rw [fmaDiscards]
    exact h
  | cons x t ih =>
    rw [fmaDiscards]
    split
    · exact ih h
    · dsimp only
      split
      · exact fenceCamp_canonical (retireCores_canonical (residueEvent_canonical h))
      · exact ih (residueEvent_canonical h)

theorem withFma_canonical {mis : List (List Mismatch)} {c : Ctx} {s : State} {k : State → CmdRes} (h : s.Canonical)
    (hk : ∀ t, t.Canonical → (k t).Canonical) : (withFma mis c s k).Canonical := by
  unfold withFma
  split
  · next hx => exact fst_canonical hx (fmaDiscards_canonical h)
  · next hx => exact hk _ (fst_canonical hx (fmaDiscards_canonical h))

theorem doFmaElem_canonical {f : Word → Word → Word → Word} {mis : List (List Mismatch)} {c : Ctx} {s : State} (h : s.Canonical) :
    (doFmaElem f mis c s).Canonical :=
  vopCommand_canonical (fun _ => withFma_canonical h (fun _ h2 => vopRun_canonical (fun _ => rfl) h2))

theorem withTiles_canonical {c : Ctx} {s : State} {cores : List Nat} {k : CmdRes} (hk : k.Canonical) : (withTiles c s cores k).Canonical := by
  unfold withTiles
  dsimp only
  split
  · exact trivial
  · exact .ite trivial hk

theorem countScores_canonical {p : Nat} {t : TileRun} {slab : Nat} {vs : List Word} {l : List Nat} {s : State} (h : s.Canonical) :
    (countScores p t slab vs l s).Canonical := by
  induction l generalizing s with
  | nil => exact h
  | cons x t ih =>
    rw [countScores]
    refine ih ?_
    split
    · exact h
    · exact h
    · exact h.congr (by simp)

theorem noteNaN_canonical {r : PitchRecord} {t : TileRun} {slab : Nat} {vs : List Word} {bound : List (Nat × Nat)} {l : List Nat} {s : State}
    (h : s.Canonical) : (noteNaN r t slab vs bound l s).Canonical := by
  induction l generalizing s with
  | nil => exact h
  | cons x t ih =>
    rw [noteNaN]
    refine ih ?_
    split
    · exact ite_canonical (countBlind_canonical (h.congr (by simp))) (h.congr (by simp))
    · exact h

theorem noteLookout_canonical {r : PitchRecord} {t : TileRun} {slab : Nat} {vs : List Word} {l : List Nat} {s : State} (h : s.Canonical) :
    (noteLookout r t slab vs l s).Canonical := by
  induction l generalizing s with
  | nil => exact h
  | cons x t ih =>
    rw [noteLookout]
    refine ih ?_
    split
    · split
      · exact ite_canonical (h.congr (by simp)) h
      · exact h
    · exact h

theorem noteReads_canonical {c : Ctx} {ldacc : Bool} {l : List Nat} {s : State} (h : s.Canonical) : (noteReads c ldacc l s).Canonical := by
  induction l generalizing s with
  | nil => exact h
  | cons x t ih =>
    rw [noteReads]
    refine ih ?_
    split
    · exact h
    · exact ite_canonical (noteLookout_canonical (noteNaN_canonical (countScores_canonical h))) (noteNaN_canonical (countScores_canonical h))

theorem doAcc_canonical {ldacc : Bool} {f : Int → Int → Word → Word → Word} {mis : List (List Mismatch)} {c : Ctx} {s : State}
    (h : s.Canonical) : (doAcc ldacc f mis c s).Canonical :=
  vopCommand_canonical (fun _ => withTiles_canonical (withFma_canonical h (fun _ h2 => noteReads_canonical (vopRun_canonical (accStep_sp _ _) h2))))

theorem nonfiniteEvents_canonical {camp p handle layer level fmt pos : Nat} {l : List (Block × Nat)} {l1 : List ReqVal} {s : State}
    (h : s.Canonical) : (nonfiniteEvents camp p handle layer level fmt pos l l1 s).Canonical := by
  induction l generalizing l1 s with
  | nil => exact h
  | cons x t ih => exact ih (ite_canonical (writeEvent_canonical h) h)

theorem countRow_canonical {s : State} {p i layer : Nat} {f : FormedRow} (h : s.Canonical) : (countRow s p i layer f).Canonical :=
  onLayer_canonical (ite_canonical (h.congr (by simp)) (h.congr (by simp)))

theorem lookoutWrite_canonical {s : State} {c : Ctx} {e : TableRow} {act layer : Nat} {xs : List ReqVal} (h : s.Canonical) :
    (lookoutWrite s c e act layer xs).Canonical := by
  unfold lookoutWrite
  split
  · exact h
  · exact ite_canonical (h.congr (by simp)) h

theorem chargeRow_canonical {s : State} {c : Ctx} {tbl : Option LengthTable} {tag : Option (Nat × Nat)} {f : FormedRow} {xs : List ReqVal}
    (h : s.Canonical) : (chargeRow s c tbl tag f xs).Canonical := by
  unfold chargeRow
  dsimp only
  split
  · exact nonfiniteEvents_canonical h
  · exact lookoutWrite_canonical (countRow_canonical (nonfiniteEvents_canonical h))

theorem chargeRows_canonical {c : Ctx} {tbl : Option LengthTable} {l : List (FormedRow × List ReqVal × Option (Nat × Nat))} {s : State}
    (h : s.Canonical) : (chargeRows c tbl l s).Canonical := by
  induction l generalizing s with
  | nil => exact h
  | cons x t ih => exact ih (chargeRow_canonical h)

theorem outCore_canonical {c : Ctx} {tbl : Option LengthTable} {core : Nat} {s : State} (h : s.Canonical) : (outCore c tbl core s).Canonical :=
  chargeRows_canonical (h.onCore fun _ _ => writeRows_wf ((h.campOf _).coreOf _))

theorem outCores_canonical {c : Ctx} {tbl : Option LengthTable} {l : List Nat} {s : State} (h : s.Canonical) : (outCores c tbl l s).Canonical := by
  induction l generalizing s with
  | nil => exact h
  | cons x t ih => exact ih (outCore_canonical h)

theorem finishOut_canonical {found : List Finding} {c : Ctx} {s : State} {cores : List Nat} {tbl : Option LengthTable} (h : s.Canonical) :
    (finishOut found c s cores tbl).Canonical :=
  unlessFault_canonical (withFindings_canonical h (fun _ h1 => iterate_canonical (fun _ h2 => outCores_canonical h2) h1))

theorem doReqout_canonical {found : List Finding} {c : Ctx} {s : State} (h : s.Canonical) : (doReqout found c s).Canonical := by
  unfold doReqout
  refine vopCommand_canonical (fun _ => .ite trivial ?_)
  split
  · exact trivial
  · exact .ite (finishOut_canonical h) (withTable_canonical (fun _ => finishOut_canonical h))

theorem doVReserved_canonical {c : Ctx} {a0 : State}  : (doVReserved c a0).Canonical :=
  coreCommand_canonical (fun _ => trivial)

end Sys2Proof.Machine
end

section
/-! SUPPORT. O4: memory and scratchpads stay canonical under selection, appends and page moves (R237, R239). -/

namespace Sys2Proof.Machine

theorem markSelected_canonical {p step : Nat} {l : List Nat} {s : State} (h : s.Canonical) : (markSelected p step l s).Canonical := by
  induction l generalizing s with
  | nil => exact h
  | cons x t ih => exact ih (h.congr (by simp))

theorem selectRow_canonical {s : State} {r : PitchRecord} {m : MicroRow} {layer : Nat} {qs : List LanternQuery} (h : s.Canonical) :
    (selectRow s r m layer qs).Canonical := by
  unfold selectRow
  dsimp only
  split
  · exact h
  · exact onPitch_canonical (markSelected_canonical h)

theorem doLantern_canonical {s : State} {r : PitchRecord} {row layer : Nat} {qs : List LanternQuery} {found : List Finding} (h : s.Canonical) :
    (doLantern s r row layer qs found).Canonical := by
  unfold doLantern
  dsimp only
  split
  · exact h
  · exact ite_canonical h (rangerReads_canonical h (fun _ h1 => ite_canonical (selectRow_canonical h1) h1))

theorem dropHot_canonical {s : State} {p n : Nat} (h : s.Canonical) : (dropHot s p n).Canonical := by
  unfold dropHot
  exact h.congr (by simp [freeRange_bytes])

theorem removeIdle_canonical {s : State} {p k : Nat} (h : s.Canonical) : (removeIdle s p k).Canonical :=
  tellGroup_canonical (removeNode_canonical h)

theorem hotSpace_canonical {p len l : Nat} {s : State} {res : Nat × State} (h : s.Canonical) (hx : hotSpace p len l s = some res) :
    res.2.Canonical := by
  induction l generalizing s res with
  | zero =>
    rw [hotSpace] at hx
    exact allocHot_canonical h hx
  | succ n ih =>
    rw [hotSpace] at hx
    split at hx
    · next hy =>
        cases hx
        exact allocHot_canonical h hy
    · split at hx
      · exact ih (dropHot_canonical h) hx
      · split at hx
        · exact ih (removeIdle_canonical h) hx
        · cases hx

theorem roomFor_canonical {s : State} {p len : Nat} {res : Nat × State} (h : s.Canonical) (hx : roomFor s p len = some res) : res.2.Canonical := by
  unfold roomFor at hx
  exact hotSpace_canonical h hx

theorem warmSpace_canonical {p n len l : Nat} {s : State} {res : Nat × State} (h : s.Canonical) (hx : warmSpace p n len l s = some res) :
    res.2.Canonical := by
  induction l generalizing s res with
  | zero =>
    rw [warmSpace] at hx
    exact allocWarm_canonical h hx
  | succ n ih =>
    rw [warmSpace] at hx
    split at hx
    · next hy =>
        cases hx
        exact allocWarm_canonical h hy
    · split at hx
      · exact ih (removeIdle_canonical h) hx
      · cases hx

theorem demoteNow_canonical {s : State} {p n : Nat} {res : State} (h : s.Canonical) (hx : demoteNow s p n = some res) : res.Canonical := by
  unfold demoteNow at hx
  dsimp only at hx
  split at hx
  · cases hx
  · next hy =>
      split at hx
      · cases hx
      · split at hx
        · cases hx
          exact dropHot_canonical (putPage_canonical (warmSpace_canonical h hy).pokeBytes)
        · cases hx
          exact freeRange_canonical (warmSpace_canonical h hy)

theorem flushRoom_canonical {p len l : Nat} {s : State} {res : Nat × State} (h : s.Canonical) (hx : flushRoom p len l s = some res) :
    res.2.Canonical := by
  induction l generalizing s res with
  | zero =>
    rw [flushRoom] at hx
    exact roomFor_canonical h hx
  | succ n ih =>
    rw [flushRoom] at hx
    split at hx
    · next hy =>
        cases hx
        exact roomFor_canonical h hy
    · split at hx
      · cases hx
      · split at hx
        · cases hx
        · next hy => exact ih (demoteNow_canonical h hy) hx

theorem spaceNow_canonical {s : State} {p len : Nat} {res : Nat × State} (h : s.Canonical) (hx : spaceNow s p len = some res) :
    res.2.Canonical := by
  unfold spaceNow at hx
  exact flushRoom_canonical h hx

theorem withPiece_canonical {s : State} {p n : Nat} {res : State} (h : s.Canonical) (hx : withPiece s p n = some res) : res.Canonical := by
  unfold withPiece at hx
  split at hx
  · cases hx
    exact h
  · obtain ⟨y, hm, rfl⟩ := Option.map_eq_some_iff.1 hx
    exact onPitch_canonical (spaceNow_canonical h hm)

theorem newPage_canonical {s : State} {p heads d : Nat} {res : Nat × Nat × State} (h : s.Canonical) (hx : newPage s p heads d = some res) :
    res.2.2.Canonical := by
  unfold newPage at hx
  dsimp only at hx
  split at hx
  · cases hx
  · next hy =>
      obtain ⟨y, hm, rfl⟩ := Option.map_eq_some_iff.1 hx
      exact spaceNow_canonical (withPiece_canonical h hy) hm

theorem takePlaces_canonical {p len n : Nat} {s : State} {res : List Nat × State} (h : s.Canonical) (hx : takePlaces p len n s = some res) :
    res.2.Canonical := by
  induction n generalizing s res with
  | zero =>
    rw [takePlaces] at hx
    cases hx
    exact h
  | succ n ih =>
    rw [takePlaces] at hx
    split at hx
    · cases hx
    · next hy =>
        obtain ⟨y, hm, rfl⟩ := Option.map_eq_some_iff.1 hx
        exact (ih (spaceNow_canonical h hy) hm :)

theorem freePlaces_canonical {p : Nat} {l : List Nat} {s : State} (h : s.Canonical) : (freePlaces p l s).Canonical := by
  induction l generalizing s with
  | nil => exact h
  | cons x t ih => exact ih (freeRange_canonical h)

theorem fitPlaces_canonical {s : State} {p len n : Nat} {have_ : List Nat} {res : List Nat × State} (h : s.Canonical)
    (hx : fitPlaces s p len n have_ = some res) : res.2.Canonical := by
  unfold fitPlaces at hx
  obtain ⟨y, hm, rfl⟩ := Option.map_eq_some_iff.1 hx
  exact freePlaces_canonical (takePlaces_canonical h hm)

theorem fitLayer_canonical {s : State} {p i j : Nat} {res : State} (h : s.Canonical) (hx : fitLayer s p i j = some res) : res.Canonical := by
  unfold fitLayer at hx
  split at hx
  · cases hx
    exact h
  · dsimp only at hx
    split at hx
    · cases hx
    · next hy =>
        obtain ⟨y, hm, rfl⟩ := Option.map_eq_some_iff.1 hx
        exact onSeq_canonical (fitPlaces_canonical (fitPlaces_canonical h hy) hm)

theorem fitLayers_canonical {p i : Nat} {l : List Nat} {s : State} {res : State} (h : s.Canonical) (hx : fitLayers p i l s = some res) :
    res.Canonical := by
  induction l generalizing s res with
  | nil =>
    rw [fitLayers] at hx
    cases hx
    exact h
  | cons x t ih =>
    rw [fitLayers] at hx
    split at hx
    · cases hx
    · next hy => exact ih (fitLayer_canonical h hy) hx

theorem fitSeq_canonical {s : State} {p i : Nat} {res : State} (h : s.Canonical) (hx : fitSeq s p i = some res) : res.Canonical := by
  unfold fitSeq at hx
  exact fitLayers_canonical h hx

theorem openStaging_canonical {s : State} {i j tag len : Nat} {res : State} (h : s.Canonical) (hx : openStaging s i j tag len = some res) :
    res.Canonical := by
  unfold openStaging at hx
  dsimp only at hx
  split at hx
  · cases hx
    exact h
  · split at hx
    · cases hx
      exact h.congr (by simp)
    · obtain ⟨y, hm, rfl⟩ := Option.map_eq_some_iff.1 hx
      exact onSeq_canonical (spaceNow_canonical h hm)

theorem putToken_canonical {s : State} {r : PitchRecord} {base tag heads d t : Nat} {rows : List Byte} (h : s.Canonical) :
    (putToken s r base tag heads d t rows).Canonical :=
  foldl_canonical (fun _ h1 _ => h1.pokeBytes.pokeBytes) h

theorem onLayerAt_canonical {s : State} {i j : Nat} {f : LayerState → LayerState} (h : s.Canonical) : (onLayerAt s i j f).Canonical := by
  unfold onLayerAt
  exact h.congr (by simp)

theorem flushStaging_canonical {s : State} {r : PitchRecord} {i layer j heads d : Nat} {res : State} (h : s.Canonical)
    (hx : flushStaging s r i layer j heads d = some res) : res.Canonical := by
  unfold flushStaging at hx
  split at hx
  · cases hx
    exact h
  · dsimp only at hx
    split at hx
    · cases hx
    · next hy =>
        split at hx
        · cases hx
        · next hy1 =>
            have h1 := spaceNow_canonical (newPage_canonical h hy) hy1
            exact fitLayer_canonical (onLayerAt_canonical (putPage_canonical h1.pokeBytes)) hx

theorem appendTokens_canonical {r : PitchRecord} {i layer j heads d : Nat} {l : List (List Byte)} {s : State} {res : State} (h : s.Canonical)
    (hx : appendTokens r i layer j heads d l s = some res) : res.Canonical := by
  induction l generalizing s res with
  | nil =>
    rw [appendTokens] at hx
    cases hx
    exact h
  | cons x t ih =>
    rw [appendTokens] at hx
    split at hx
    · cases hx
    · next hy =>
        split at hx
        · cases hx
          exact openStaging_canonical h hy
        · dsimp only at hx
          split at hx
          · split at hx
            · cases hx
            · next hy1 => exact ih (flushStaging_canonical (onLayerAt_canonical (putToken_canonical (openStaging_canonical h hy))) hy1) hx
          · exact ih (onLayerAt_canonical (putToken_canonical (openStaging_canonical h hy))) hx

theorem noSpace_canonical {s : State} {r : PitchRecord} {i : Nat} (h : s.Canonical) : (noSpace s r i).Canonical := by
  unfold noSpace
  split
  · exact ite_canonical (devicePark_canonical h) (holdAtBoundary_canonical h)
  · exact holdAtBoundary_canonical h

theorem appendRows_canonical {r : PitchRecord} {layer j heads d : Nat} {bs : List Byte} {l : List MicroRow} {s t : State} (h : s.Canonical)
    (hx : appendRows r layer j heads d bs l s = .ok t) : t.Canonical := by
  induction l generalizing s with
  | nil =>
    rw [appendRows] at hx
    cases hx
    exact h
  | cons m l ih =>
    rw [appendRows] at hx
    split at hx
    · next hy => exact ih (appendTokens_canonical h hy) hx
    · cases hx

theorem appendSlotFull_canonical {s : State} {r : PitchRecord} {x : Slot} {l : LayerImage} (h : s.Canonical) :
    (appendSlotFull s r x l).1.Canonical := by
  unfold appendSlotFull
  split
  · next hy => exact appendRows_canonical h hy
  · exact noSpace_canonical h

theorem writeList_canonical {s : State} {r : PitchRecord} {c : Chosen} {res : State × Chosen} (h : s.Canonical) (hx : writeList s r c = some res) :
    res.1.Canonical := by
  unfold writeList at hx
  dsimp only at hx
  split at hx
  · obtain ⟨y, hm, rfl⟩ := Option.map_eq_some_iff.1 hx
    exact (roomFor_canonical h hm).pokeBytes
  · cases hx
    exact h

theorem writeLists_canonical {r : PitchRecord} {layer : Nat} {l : List Chosen} {s : State} {res : State} (h : s.Canonical)
    (hx : writeLists r layer l s = some res) : res.Canonical := by
  induction l generalizing s res with
  | nil =>
    rw [writeLists] at hx
    cases hx
    exact h
  | cons x t ih =>
    rw [writeLists] at hx
    split at hx
    · split at hx
      · cases hx
      · next hy => exact ih (onPitch_canonical (writeList_canonical h hy)) hx
    · exact ih h hx

theorem doChunkLists_canonical {s : State} {r : PitchRecord} {layer : Nat} (h : s.Canonical) : (doChunkLists s r layer).Canonical := by
  unfold doChunkLists
  dsimp only
  split
  · exact h
  · refine ite_canonical ?_ h
    split
    · exact h
    · next hx =>
        refine rangerAccess_canonical h (fun _ h2 => ?_)
        split
        · exact h2
        · next hx1 => exact getD_canonical (fun _ hx => signalSync_canonical (writeLists_canonical h2 hx1) hx) (writeLists_canonical h2 hx1)

theorem execPagePromotionStart_canonical {pitch page : Nat} {s : State} (h : s.Canonical) :
    AnswerCanonical (execPagePromotionStart pitch page s) := by
  unfold execPagePromotionStart
  refine .ite ?_ trivial
  refine .ite ?_ h
  split
  · exact h
  · next hx => exact .ite (putPage_canonical (roomFor_canonical h hx)) (freeRange_canonical (roomFor_canonical h hx))

theorem warmBad_canonical {s : State} {p n : Nat} (h : s.Canonical) : (warmBad s p n).Canonical :=
  cxlBad_canonical h

theorem restartWaits_canonical {s : State} {p n : Nat} (h : s.Canonical) : (restartWaits s p n).Canonical :=
  h.mapCamps fun n c hc => by
    split
    · split
      · exact hc
      · exact hc
    · exact hc

theorem doPromotionDone_canonical {s : State} {p n : Nat} {ok : Bool} (h : s.Canonical) : (doPromotionDone s p n ok).Canonical := by
  unfold doPromotionDone
  refine ite_canonical h (rangerAccess_canonical h fun _ h1 => ite_canonical (freePage_canonical h1) (ite_canonical ?_ ?_))
  · exact restartWaits_canonical (putPage_canonical h1.pokeBytes)
  · exact pageLost_canonical (putPage_canonical (freeRange_canonical (warmBad_canonical h1)))

theorem doDemotionStart_canonical {s : State} {r : PitchRecord} (h : s.Canonical) : (doDemotionStart s r).Canonical := by
  unfold doDemotionStart
  refine ite_canonical ?_ (h.congr (by simp))
  split
  · exact h.congr (by simp)
  · split
    · exact h.congr (by simp)
    · next hx =>
        have h1 := warmSpace_canonical (h.congr (by simp)) hx
        exact ite_canonical (h1.congr (by simp)) (freeRange_canonical h1)

theorem doDemotionDone_canonical {s : State} {r : PitchRecord} {n : Nat} {found : List Finding} (h : s.Canonical) :
    (doDemotionDone s r n found).Canonical := by
  unfold doDemotionDone
  refine ite_canonical h (rangerReads_canonical h fun _ h1 => ite_canonical h1 (ite_canonical (freePage_canonical h1) ?_))
  exact ite_canonical (dropHot_canonical (putPage_canonical h1.pokeBytes)) (putPage_canonical h1.pokeBytes)

theorem startWaitingAll_canonical {s : State} {p n : Nat} (h : s.Canonical) : (startWaitingAll s p n).Canonical :=
  h.mapCamps fun n c hc => by
    split
    · exact hc.mapCores fun _ k hk => by rwa [startWaiting_sp]
    · exact hc

theorem doPageRefetched_canonical {s : State} {p n : Nat} {warmOk : Bool} (h : s.Canonical) : (doPageRefetched s p n warmOk).Canonical := by
  unfold doPageRefetched
  refine ite_canonical h ?_
  refine rangerAccess_canonical h (fun _ h1 => ?_)
  refine ite_canonical (startWaitingAll_canonical (rangerEvent_canonical h1.pokeBytes)) ?_
  exact startWaitingAll_canonical (pageLost_canonical (warmBad_canonical h1))

end Sys2Proof.Machine
end

section
/-! SUPPORT. O4: memory and scratchpads stay canonical under packets that the module sends (R237, R239). -/

namespace Sys2Proof.Machine

theorem pump_canonical {s : State} (h : s.Canonical) : (pump s).Canonical := h.congr (by simp)

theorem sendPeer_canonical {s : State} {r : PitchRecord} {device : Nat} {msg : List Byte} (h : s.Canonical) :
    (sendPeer s r device msg).Canonical := by
  unfold sendPeer
  exact h.congr (by simp)

end Sys2Proof.Machine
end

section
/-! SUPPORT. O4: memory and scratchpads stay canonical under programs, slots and waits (R237, R239). -/

namespace Sys2Proof.Machine

theorem writeTable_canonical {s : State} {r : PitchRecord} {n : Nat} (h : s.Canonical) : (writeTable s r n).Canonical := by
  unfold writeTable
  split
  · exact h
  · exact ite_canonical (releaseBlocked_canonical (putSlot_canonical h.pokeBytes)) h

theorem startProgram_canonical {s : State} {r : PitchRecord} {camp rel : Nat} {k : LoadedProgram} {first slot : Nat} {params : List Word}
    {ready : NMap Nat} (h : s.Canonical) : (startProgram s r camp rel k first slot params ready).Canonical := by
  have hstart := (h.campOf camp).mapCores fun _ _ hk => startCore_wf hk
  exact ite_canonical h (ite_canonical (raiseFault_canonical (writeTable_canonical (h.putCamp hstart))) (writeTable_canonical (h.putCamp hstart)))

theorem execProgramStart_canonical {pitch camp program first tableSlot : Nat} {params : List Word} {ready : NMap Nat} {s : State} (h : s.Canonical) :
    AnswerCanonical (execProgramStart pitch camp program first tableSlot params ready s) := by
  unfold execProgramStart
  refine .ite ?_ trivial
  split
  · exact h
  · split
    · exact .ite (startProgram_canonical h) h
    · exact h

theorem fillDone_canonical {s : State} {p n : Nat} {x : Slot} (h : s.Canonical) : (fillDone s p n x).Canonical :=
  releaseBlocked_canonical (h.congr (by simp))

theorem doSlotFilled_canonical {s : State} {r : PitchRecord} {n : Nat} {found : List Finding} (h : s.Canonical) :
    (doSlotFilled s r n found).Canonical := by
  unfold doSlotFilled
  split
  · exact h
  · refine ite_canonical ?_ h
    split
    · exact fillDone_canonical h
    · refine rangerReads_canonical h fun _ h1 => ite_canonical h1 (ite_canonical (fillDone_canonical ?_) ?_)
      · exact appendSlotFull_canonical h1
      · exact appendSlotFull_canonical h1

theorem doSlotDrained_canonical {s : State} {r : PitchRecord} {n : Nat} (h : s.Canonical) : (doSlotDrained s r n).Canonical := by
  unfold doSlotDrained
  split
  · exact h
  · exact ite_canonical (releaseBlocked_canonical (h.congr (by simp))) h

theorem doTimeout_canonical {s : State} {camp : Nat} (h : s.Canonical) : (doTimeout s camp).Canonical := by
  unfold doTimeout
  dsimp only
  split
  · exact ite_canonical (ite_canonical (onPitch_canonical (rerunStep_canonical (writeEvent_canonical h))) (raiseFault_canonical h)) h
  · exact h

end Sys2Proof.Machine
end

section
/-! SUPPORT. O4: memory and scratchpads stay canonical under the operations on sequences (R237, R239). -/

namespace Sys2Proof.Machine

theorem stagingHeader_canonical {s : State} {r : PitchRecord} {i j : Nat} (h : s.Canonical) : (stagingHeader s r i j).Canonical := by
  unfold stagingHeader
  split
  · exact h
  · exact ite_canonical h h.pokeBytes

theorem reopenPage_canonical {s : State} {r : PitchRecord} {i j p count : Nat} {res : State} (h : s.Canonical)
    (hx : reopenPage s r i j p count = some res) : res.Canonical := by
  unfold reopenPage at hx
  split at hx
  · cases hx
    exact h
  · obtain ⟨s1, hopen, rfl⟩ := Option.map_eq_some_iff.1 hx
    have h1 := openStaging_canonical h hopen
    split
    · exact h1
    · exact onLayerAt_canonical h1.pokeBytes

theorem truncateLayer_canonical {s : State} {r : PitchRecord} {i n j : Nat} {res : State} (h : s.Canonical)
    (hx : truncateLayer s r i n j = some res) : res.Canonical := by
  unfold truncateLayer at hx
  split at hx
  · cases hx
    exact h
  · obtain ⟨s1, hopen, rfl⟩ := Option.map_eq_some_iff.1 hx
    have h1 : s1.Canonical := by
      split at hopen
      · cases hopen
        exact onLayerAt_canonical h
      · split at hopen
        · exact reopenPage_canonical h hopen
        · cases hopen
          exact onLayerAt_canonical h
    refine stagingHeader_canonical (getD_canonical (fun _ hfit => fitLayer_canonical ?_ hfit) ?_)
    · exact onLayerAt_canonical (dropRefs_canonical h1)
    · exact onLayerAt_canonical (dropRefs_canonical h1)

theorem truncateLayers_canonical {r : PitchRecord} {i n : Nat} {l : List Nat} {s : State} {res : State} (h : s.Canonical)
    (hx : truncateLayers r i n l s = some res) : res.Canonical := by
  induction l generalizing s res with
  | nil =>
    rw [truncateLayers] at hx
    cases hx
    exact h
  | cons x t ih =>
    rw [truncateLayers] at hx
    split at hx
    · cases hx
    · next hy => exact ih (truncateLayer_canonical h hy) hx

theorem importDone_canonical {s : State} {i : Nat} (h : s.Canonical) : (importDone s i).Canonical := by
  unfold importDone
  dsimp only
  split
  · exact h
  · refine ite_canonical h ?_
    exact ite_canonical (answer_canonical (rangerEvent_canonical (h.congr (by simp)))) (rangerEvent_canonical (h.congr (by simp)))

theorem truncateSeq_canonical {s : State} {r : PitchRecord} {i n : Nat} {res : State} (h : s.Canonical) (hx : truncateSeq s r i n = some res) :
    res.Canonical := by
  unfold truncateSeq at hx
  obtain ⟨y, hm, rfl⟩ := Option.map_eq_some_iff.1 hx
  exact importDone_canonical ((truncateLayers_canonical h hm).congr (by simp))

theorem journalNote_canonical {s : State} {i : Nat} (h : s.Canonical) : (journalNote s i).Canonical := by
  unfold journalNote
  exact h.congr (by simp)

theorem insertNode_canonical {s : State} {r : PitchRecord} {i c : Nat} {tokens : List Nat} (h : s.Canonical) :
    (insertNode s r i c tokens).Canonical := by
  unfold insertNode
  refine ite_canonical h ?_
  refine ite_canonical h ?_
  dsimp only
  split
  · exact h
  · next hx => exact (spaceNow_canonical h hx).congr (by simp)

theorem touchNodes_canonical {s : State} {p : Nat} {chain : List Nat} (h : s.Canonical) : (touchNodes s p chain).Canonical := by
  unfold touchNodes
  exact h.congr (by simp)

theorem nodeUsers_canonical {s : State} {p : Nat} {node : Option Nat} {f : Nat → Nat} (h : s.Canonical) : (nodeUsers s p node f).Canonical := by
  unfold nodeUsers
  split
  · exact h
  · exact h.congr (by simp)

theorem holdIfLost_canonical {s : State} {i : Nat} (h : s.Canonical) : (holdIfLost s i).Canonical :=
  ite_canonical (holdSeq_canonical h) h

theorem createSeq_canonical {s : State} {r : PitchRecord} {i : Nat} {chain tokens : List Nat} {insert : Bool} (h : s.Canonical) :
    (createSeq s r i chain tokens insert).Canonical :=
  journalNote_canonical (putSeq_canonical (nodeUsers_canonical (touchNodes_canonical (h.congr (by simp)))))

theorem copyStaging_canonical {s : State} {r : PitchRecord} {i j : Nat} {res : State} (h : s.Canonical) (hx : copyStaging s r i j = some res) :
    res.Canonical := by
  unfold copyStaging at hx
  split at hx
  · cases hx
    exact h
  · split at hx
    · cases hx
      exact onLayerAt_canonical h
    · dsimp only at hx
      split at hx
      · cases hx
      · next hy =>
          cases hx
          exact stagingHeader_canonical (onLayerAt_canonical ((spaceNow_canonical h hy).pokeBytes))

theorem copyStagings_canonical {r : PitchRecord} {i : Nat} {l : List Nat} {s : State} {res : State} (h : s.Canonical)
    (hx : copyStagings r i l s = some res) : res.Canonical := by
  induction l generalizing s res with
  | nil =>
    rw [copyStagings] at hx
    cases hx
    exact h
  | cons x t ih =>
    rw [copyStagings] at hx
    split at hx
    · cases hx
    · next hy => exact ih (copyStaging_canonical h hy) hx

theorem forkSeq_canonical {s : State} {r : PitchRecord} {i k : Nat} {res : State} (h : s.Canonical) (hx : forkSeq s r i k = some res) :
    res.Canonical := by
  unfold forkSeq at hx
  dsimp only at hx
  split at hx
  · obtain ⟨s1, hcopy, hfit⟩ := Option.bind_eq_some_iff.1 hx
    exact fitSeq_canonical (copyStagings_canonical (h.congr (by simp)) hcopy) hfit
  · cases hx

theorem freeStagings_canonical {p : Nat} {l : List LayerState} {s : State} (h : s.Canonical) : (freeStagings p l s).Canonical := by
  induction l generalizing s with
  | nil => exact h
  | cons x t ih => exact ih (freePlaces_canonical (h.congr (by simp [freeIf_bytes])))

theorem releaseSeq_canonical {s : State} {i : Nat} (h : s.Canonical) : (releaseSeq s i).Canonical :=
  freeEntry_canonical (nodeUsers_canonical (freeStagings_canonical (dropRefs_canonical h)))

theorem freeSeq_canonical {s : State} {i : Nat} (h : s.Canonical) : (freeSeq s i).Canonical :=
  tellGroup_canonical (releaseSeq_canonical h)

theorem beginPark_canonical {s : State} {i : Nat} {rid : Option Nat} {tag space : Nat} {d : ParkDesc} (h : s.Canonical) :
    (beginPark s i rid tag space d).Canonical := by
  unfold beginPark
  exact h.congr (by simp)

theorem resumeInPlace_canonical {s : State} {i tag : Nat} {o : Origin} {places : NMap (Nat × Nat)} (h : s.Canonical) :
    (resumeInPlace s i tag o places).Canonical :=
  ite_canonical (h.congr (by simp)) (rangerEvent_canonical (h.congr (by simp)))

end Sys2Proof.Machine
end

section
/-! SUPPORT. O4: memory and scratchpads stay canonical under parked images (R237, R239). -/

namespace Sys2Proof.Machine

theorem sendImage_canonical {n tag l l1 : Nat} {l2 : List Byte} {s : State} (h : s.Canonical) : (sendImage n tag l l1 l2 s).Canonical := by
  induction l generalizing l1 l2 s with
  | zero => exact h
  | succ n ih =>
    rw [sendImage]
    exact ite_canonical h (ih (h.congr (by simp)))

theorem reserveStaging_canonical {r : PitchRecord} {i : Nat} {m : ImageRead} {l : List Nat} {s : State} {res : State} (h : s.Canonical)
    (hx : reserveStaging r i m l s = some res) : res.Canonical := by
  induction l generalizing s res with
  | nil =>
    rw [reserveStaging] at hx
    cases hx
    exact h
  | cons x t ih =>
    rw [reserveStaging] at hx
    dsimp only at hx
    split at hx
    · exact ih (onLayerAt_canonical h) hx
    · split at hx
      · cases hx
      · next hy => exact ih (onLayerAt_canonical (spaceNow_canonical h hy)) hx

theorem addPage_canonical {s : State} {r : PitchRecord} {i j k : Nat} {m : ImageRead} {res : State} (h : s.Canonical)
    (hx : addPage s r i j k m = some res) : res.Canonical := by
  unfold addPage at hx
  dsimp only at hx
  split at hx
  · split at hx
    · cases hx
      exact onLayerAt_canonical (h.congr (by simp))
    · cases hx
  · obtain ⟨y, hm, rfl⟩ := Option.map_eq_some_iff.1 hx
    exact onLayerAt_canonical (putPage_canonical (newPage_canonical h hm))

theorem addPages_canonical {r : PitchRecord} {i j : Nat} {m : ImageRead} {l : List Nat} {s : State} {res : State} (h : s.Canonical)
    (hx : addPages r i j m l s = some res) : res.Canonical := by
  induction l generalizing s res with
  | nil =>
    rw [addPages] at hx
    cases hx
    exact h
  | cons x t ih =>
    rw [addPages] at hx
    split at hx
    · cases hx
    · next hy => exact ih (addPage_canonical h hy) hx

theorem readLayers_canonical {r : PitchRecord} {i : Nat} {m : ImageRead} {l : List Nat} {s : State} {res : State} (h : s.Canonical)
    (hx : readLayers r i m l s = some res) : res.Canonical := by
  induction l generalizing s res with
  | nil =>
    rw [readLayers] at hx
    cases hx
    exact h
  | cons x t ih =>
    rw [readLayers] at hx
    dsimp only at hx
    split at hx
    · cases hx
    · next hy =>
        split at hx
        · cases hx
        · next hy1 =>
            exact ih (stagingHeader_canonical (fitLayer_canonical (onLayerAt_canonical (addPages_canonical (ite_canonical h h.pokeBytes) hy)) hy1)) hx

theorem restoreSummaries_canonical {s : State} {p heads d j : Nat} {m : ImageRead} {l : List (Nat × Nat)} {res : State} (h : s.Canonical)
    (hx : restoreSummaries s p heads d j m l = some res) : res.Canonical := by
  induction l generalizing s res with
  | nil =>
    rw [restoreSummaries] at hx
    cases hx
    exact h
  | cons x t ih =>
    obtain ⟨_, _⟩ := x
    rw [restoreSummaries] at hx
    split at hx
    · split at hx
      · cases hx
      · next hy => exact ih ((spaceNow_canonical h hy).congr (by simp)) hx
    · exact ih h hx

theorem restoreLayers_canonical {r : PitchRecord} {i : Nat} {m : ImageRead} {l : List Nat} {s : State} {res : State} (h : s.Canonical)
    (hx : restoreLayers r i m l s = some res) : res.Canonical := by
  induction l generalizing s res with
  | nil =>
    rw [restoreLayers] at hx
    cases hx
    exact h
  | cons x t ih =>
    rw [restoreLayers] at hx
    dsimp only at hx
    split at hx
    · cases hx
    · next hy => exact ih (restoreSummaries_canonical h hy) hx

theorem takeImage_canonical {s : State} {r : PitchRecord} {i count space : Nat} {bs : List Byte} {m : ImageRead} {res : State} (h : s.Canonical)
    (hx : takeImage s r i count space bs m = .ok res) : res.Canonical := by
  unfold takeImage at hx
  split at hx
  · cases hx
  · dsimp only at hx
    split at hx
    · cases hx
    · next hy =>
        split at hx
        · cases hx
        · split at hx
          · cases hx
          · cases hx
            exact reserveStaging_canonical (h.congr (by simp)) hy

theorem askRange_canonical {s : State} {x : ImageSource} {tag : Nat} {a : Nat × Nat} (h : s.Canonical) : (askRange s x tag a).Canonical :=
  ite_canonical (sendMessage_canonical (ite_canonical (h.congr (by simp)) h)) (h.congr (by simp))

theorem askRanges_canonical {x : ImageSource} {tag : Nat} {l : List (Nat × Nat)} {s : State} (h : s.Canonical) :
    (askRanges x tag l s).Canonical := by
  induction l generalizing s with
  | nil => exact h
  | cons x t ih => exact ih (askRange_canonical h)

theorem askPage_canonical {s : State} {i : Nat} (h : s.Canonical) : (askPage s i).Canonical := by
  unfold askPage
  dsimp only
  split
  · split
    · exact askRange_canonical h
    · exact h
  · exact h

theorem imageTaken_canonical {s : State} {i tag : Nat} {o : Origin} {m : ImageRead} (h : s.Canonical) : (imageTaken s i tag o m).Canonical :=
  askPage_canonical (h.congr (by simp))

theorem resumeExported_canonical {s : State} {r : PitchRecord} {i tag : Nat} {o : Origin} {m : ImageRead} {res : State} (h : s.Canonical)
    (hx : resumeExported s r i tag o m = some res) : res.Canonical := by
  unfold resumeExported at hx
  obtain ⟨y, hm, rfl⟩ := Option.map_eq_some_iff.1 hx
  exact importDone_canonical (askPage_canonical (resumeInPlace_canonical (restoreLayers_canonical h hm)))

end Sys2Proof.Machine
end

section
/-! SUPPORT. O4: memory and scratchpads stay canonical under the decisions of the lead (R237, R239). -/

namespace Sys2Proof.Machine

theorem openEntry_canonical {s : State} {i : Nat} (h : s.Canonical) : (openEntry s i).Canonical := by
  unfold openEntry
  exact h.congr (by simp)

theorem heldEntry_canonical {s : State} {r : PitchRecord} {i : Nat} (h : s.Canonical) : (heldEntry s r i).Canonical :=
  holdSeq_canonical (h.congr (by simp))

theorem refusedEvent_canonical {s : State} {p check result : Nat} {m : ImageRead} (h : s.Canonical) :
    (refusedEvent s p check result m).Canonical :=
  rangerEvent_canonical h

theorem tellRefusal_canonical {s : State} {r : PitchRecord} {i check result : Nat} (h : s.Canonical) :
    (tellRefusal s r i check result).Canonical :=
  sendPeer_canonical h

theorem followResume_canonical {s : State} {r : PitchRecord} {hd tag : Nat} {sources : List Byte} {m : ImageRead} (h : s.Canonical) :
    (followResume s r hd tag sources m).Canonical := by
  unfold followResume
  dsimp only
  have hasked (x : ImageSource) : (if sourceOk r x (sourceFor sources r) then askRanges x tag (allReads m) s else s).Canonical := by
    split
    · exact askRanges_canonical h
    · exact h
  split
  · exact tellRefusal_canonical (refusedEvent_canonical (hasked _))
  · next hy =>
      split
      · exact tellRefusal_canonical (refusedEvent_canonical (hasked _))
      · next hx =>
          have htaken := takeImage_canonical (openEntry_canonical (hasked _)) hy
          exact holdIfLost_canonical (imageTaken_canonical (readLayers_canonical htaken hx))

theorem followCheck_canonical {s0 : State} {r : PitchRecord} {i tag : Nat} {image : Option ImageRead} (h : s0.Canonical) :
    (followCheck s0 r i tag image).Canonical := by
  unfold followCheck
  dsimp only
  split
  · refine ite_canonical h ?_
    refine ite_canonical (tellRefusal_canonical (askRanges_canonical h)) ?_
    exact ite_canonical (tellRefusal_canonical (askRanges_canonical h)) (askRanges_canonical h)
  · exact h

theorem followInPlace_canonical {s : State} {r : PitchRecord} {i tag : Nat} {image : Option ImageRead} (h : s.Canonical) :
    (followInPlace s r i tag image).Canonical := by
  unfold followInPlace
  refine ite_canonical h ?_
  split
  · exact resumeInPlace_canonical h
  · exact h
  · exact getD_canonical (fun _ hx => resumeExported_canonical h hx) (holdSeq_canonical h)

theorem followFork_canonical {s : State} {r : PitchRecord} {parent child : Nat} (h : s.Canonical) : (followFork s r parent child).Canonical := by
  unfold followFork
  split
  · exact heldEntry_canonical h
  · next hx => exact holdIfLost_canonical (forkSeq_canonical (openEntry_canonical h) hx)

theorem applyDecision_canonical {s : State} {r : PitchRecord} {l : LeadDecision} (h : s.Canonical) : (applyDecision s r l).Canonical := by
  unfold applyDecision
  split
  · dsimp only
    split
    · next hx =>
        have hfit := fitSeq_canonical (createSeq_canonical (openEntry_canonical h)) hx
        exact ite_canonical (holdIfLost_canonical (hfit.congr (by simp))) (heldEntry_canonical h)
    · exact heldEntry_canonical h
  · exact ite_canonical (insertNode_canonical h) h
  · split
    · exact h
    · exact removeNode_canonical h
  · exact ite_canonical (getD_canonical (fun _ hx => truncateSeq_canonical h hx) (holdAtBoundary_canonical h)) h
  · exact ite_canonical (followFork_canonical h) h
  · exact ite_canonical (beginPark_canonical h) h
  · exact ite_canonical (devicePark_canonical h) h
  · exact ite_canonical (followCheck_canonical h) h
  · exact ite_canonical (followInPlace_canonical h) h
  · exact followResume_canonical h
  · exact ite_canonical (releaseSeq_canonical h) h

theorem applyDecisions_canonical {r : PitchRecord} {l : List LeadDecision} {s : State} (h : s.Canonical) : (applyDecisions r l s).Canonical := by
  induction l generalizing s with
  | nil => exact h
  | cons x t ih => exact ih (applyDecision_canonical h)

end Sys2Proof.Machine
end

section
/-! SUPPORT. O4: memory and scratchpads stay canonical under the serving loop (R237, R239). -/

namespace Sys2Proof.Machine

theorem endRequest_canonical {s : State} {i : Nat} {q : Request} {result endCode : Nat} (h : s.Canonical) :
    (endRequest s i q result endCode).Canonical :=
  ite_canonical (freeSeq_canonical (h.congr (by simp))) (h.congr (by simp))

theorem takeRows_canonical {r : PitchRecord} {tick : Nat} {masks : NMap Nat} {l : Room} {l1 : List MicroRow} {l2 : List Nat} {s : State}
    (h : s.Canonical) : (takeRows r tick masks l l1 l2 s).1.Canonical := by
  induction l2 generalizing l l1 s with
  | nil =>
    rw [takeRows]
    exact h
  | cons x t ih =>
    rw [takeRows]
    split
    · exact ih h
    · dsimp only
      split
      · exact ih h
      · split
        · exact ih (endRequest_canonical h)
        · split
          · exact ih (endRequest_canonical h)
          · split
            · exact ih (endRequest_canonical h)
            · split
              · exact ih (endRequest_canonical h)
              · split
                · exact ih h
                · exact ih (h.congr (by simp))

theorem compose_canonical {s : State} {r : PitchRecord} {tick : Nat} {masks : NMap Nat} (h : s.Canonical) :
    (compose s r tick masks).1.Canonical :=
  takeRows_canonical h

theorem followRow_canonical {s : State} {r : PitchRecord} {x : LengthRow} (h : s.Canonical) : (followRow s r x).Canonical :=
  ite_canonical (h.congr (by simp)) (h.congr (by simp))

theorem followRows_canonical {r : PitchRecord} {l : List LengthRow} {s : State} (h : s.Canonical) : (followRows r l s).Canonical := by
  induction l generalizing s with
  | nil => exact h
  | cons x t ih => exact ih (followRow_canonical h)

theorem placeStagings_canonical {s : State} {p : Nat} {rows : List MicroRow} (h : s.Canonical) : (placeStagings s p rows).Canonical := by
  unfold placeStagings
  exact h.congr (by simp)

theorem enterStep_canonical {s : State} {p m : Nat} {rows : List MicroRow} (h : s.Canonical) : (enterStep s p m rows).Canonical :=
  onPitch_canonical (placeStagings_canonical h)

theorem trimTree_canonical {p need l : Nat} {s : State} (h : s.Canonical) : (trimTree p need l s).Canonical := by
  induction l generalizing s with
  | zero => exact h
  | succ n ih =>
    rw [trimTree]
    refine ite_canonical h ?_
    split
    · exact h
    · exact ih (removeIdle_canonical h)

theorem sendStarts_canonical {r : PitchRecord} {n tick : Nat} {ds : List LeadDecision} {l : List Nat} {s : State} (h : s.Canonical) :
    (sendStarts r n tick ds l s).Canonical := by
  induction l generalizing s with
  | nil => exact h
  | cons x t ih => exact ih (sendPeer_canonical h)

theorem leadStart_canonical {s : State} {r : PitchRecord} {n tick : Nat} {rows : List MicroRow} (h : s.Canonical) :
    (leadStart s r n tick rows).Canonical :=
  onPitch_canonical (sendStarts_canonical (enterStep_canonical (ite_canonical (trimTree_canonical h) h)))

theorem tellStopped_canonical {s : State} {r : PitchRecord} {tick : Nat} (h : s.Canonical) : (tellStopped s r tick).Canonical :=
  ite_canonical (onPitch_canonical (sendStarts_canonical h)) h

theorem startStep_canonical {s0 : State} {r : PitchRecord} {table : List LengthRow} {decisions : List LeadDecision} {masks : NMap Nat}
    (h : s0.Canonical) : (startStep s0 r table decisions masks).Canonical := by
  unfold startStep
  refine ite_canonical (ite_canonical h (repairNow_canonical h)) ?_
  refine ite_canonical (tellStopped_canonical (ite_canonical h (repairNow_canonical h))) ?_
  refine ite_canonical (leadStart_canonical (compose_canonical (ite_canonical h (repairNow_canonical h)))) ?_
  exact enterStep_canonical (followRows_canonical (applyDecisions_canonical (ite_canonical h (repairNow_canonical h))))

theorem writeToken_canonical {s : State} {q : Request} {k token : Nat} (h : s.Canonical) : (writeToken s q k token).Canonical := by
  unfold writeToken
  split
  · exact h.congr (by simp)
  · exact h

theorem progress_canonical {s : State} {i : Nat} {q : Request} (h : s.Canonical) : (progress s i q).Canonical :=
  ite_canonical (h.congr (by simp)) h

theorem takeToken_canonical {s : State} {i : Nat} {q : Request} {token : Nat} (h : s.Canonical) : (takeToken s i q token).Canonical := by
  unfold takeToken
  refine ite_canonical (endRequest_canonical (progress_canonical (onSeq_canonical (onReq_canonical (writeToken_canonical h))))) ?_
  refine ite_canonical (endRequest_canonical (progress_canonical (onSeq_canonical (onReq_canonical (writeToken_canonical h))))) ?_
  refine ite_canonical (endRequest_canonical (progress_canonical (onSeq_canonical (onReq_canonical (writeToken_canonical h))))) ?_
  exact progress_canonical (onSeq_canonical (onReq_canonical (writeToken_canonical h)))

theorem nextStep_canonical {s : State} {i : Nat} {q : Request} (h : s.Canonical) : (nextStep s i q).Canonical :=
  ite_canonical (endRequest_canonical h) (h.congr (by simp))

theorem closeRow_canonical {s : State} {m : MicroRow} {token : Option Nat} (h : s.Canonical) : (closeRow s m token).Canonical := by
  unfold closeRow
  split
  · exact h
  · refine ite_canonical h ?_
    refine ite_canonical (nextStep_canonical h) ?_
    refine ite_canonical (endRequest_canonical h) ?_
    split
    · exact nextStep_canonical h
    · exact takeToken_canonical h

theorem closeRows_canonical {tokens : NMap Nat} {l : List MicroRow} {s : State} (h : s.Canonical) : (closeRows tokens l s).Canonical := by
  induction l generalizing s with
  | nil => exact h
  | cons x t ih => exact ih (closeRow_canonical h)

theorem commitPages_canonical {r : PitchRecord} {i j : Nat} {l : List Nat} {s : State} (h : s.Canonical) : (commitPages r i j l s).Canonical := by
  induction l generalizing s with
  | nil => exact h
  | cons x t ih =>
    rw [commitPages]
    refine ite_canonical (ih h) (ih (ite_canonical (onLayerAt_canonical (onLayerAt_canonical ?_)) (onLayerAt_canonical ?_)))
    · exact h.congr (by simp)
    · exact h.congr (by simp)

theorem commitLayer_canonical {s : State} {r : PitchRecord} {i j : Nat} (h : s.Canonical) : (commitLayer s r i j).Canonical := by
  unfold commitLayer
  split
  · exact h
  · exact stagingHeader_canonical (onLayerAt_canonical (commitPages_canonical (ite_canonical h h.pokeBytes)))

theorem commitLayers_canonical {r : PitchRecord} {i : Nat} {l : List Nat} {s : State} (h : s.Canonical) : (commitLayers r i l s).Canonical := by
  induction l generalizing s with
  | nil => exact h
  | cons x t ih => exact ih (commitLayer_canonical h)

theorem noteDecision_canonical {s : State} {i : Nat} {d : Decision} (h : s.Canonical) : (noteDecision s i d).Canonical := by
  unfold noteDecision
  exact h.congr (by simp)

theorem applyOutcome_canonical {s : State} {r : PitchRecord} {i j : Nat} {o : Bool} {value : Nat} (h : s.Canonical) :
    (applyOutcome s r i j o value).Canonical := by
  unfold applyOutcome
  dsimp only
  split
  · exact h
  · refine ite_canonical (onLayerAt_canonical h) ?_
    refine ite_canonical (noteDecision_canonical (onLayerAt_canonical h)) ?_
    refine ite_canonical ?_ (rangerEvent_canonical (noteDecision_canonical (onLayerAt_canonical h)))
    exact ite_canonical (noteDecision_canonical (onLayerAt_canonical h)) (rangerEvent_canonical (noteDecision_canonical (onLayerAt_canonical h)))

theorem applyOutcomes_canonical {r : PitchRecord} {i : Nat} {l : List Nat} {s : State} (h : s.Canonical) : (applyOutcomes r i l s).Canonical := by
  induction l generalizing s with
  | nil => exact h
  | cons x t ih =>
    rw [applyOutcomes]
    split
    · exact ih h
    · split
      · exact ih h
      · exact ih (applyOutcome_canonical (ite_canonical (onLayerAt_canonical h) h))

theorem insertNodes_canonical {r : PitchRecord} {i : Nat} {l : List Nat} {s : State} (h : s.Canonical) : (insertNodes r i l s).Canonical := by
  induction l generalizing s with
  | nil => exact h
  | cons x t ih => exact ih (insertNode_canonical h)

theorem insertRow_canonical {s : State} {r : PitchRecord} {m : MicroRow} (h : s.Canonical) : (insertRow s r m).Canonical :=
  ite_canonical (insertNodes_canonical h) h

theorem insertRows_canonical {r : PitchRecord} {l : List MicroRow} {s : State} (h : s.Canonical) : (insertRows r l s).Canonical := by
  induction l generalizing s with
  | nil => exact h
  | cons x t ih => exact ih (insertRow_canonical h)

theorem commitRow_canonical {s : State} {r : PitchRecord} {m : MicroRow} (h : s.Canonical) : (commitRow s r m).Canonical := by
  unfold commitRow
  refine ite_canonical h ?_
  refine ite_canonical (insertRow_canonical (onSeq_canonical (commitLayers_canonical (applyOutcomes_canonical h)))) ?_
  exact onSeq_canonical (commitLayers_canonical (applyOutcomes_canonical h))

theorem commitRows_canonical {r : PitchRecord} {l : List MicroRow} {s : State} (h : s.Canonical) : (commitRows r l s).Canonical := by
  induction l generalizing s with
  | nil => exact h
  | cons x t ih => exact ih (commitRow_canonical h)

theorem journalRows_canonical {l : List MicroRow} {s : State} (h : s.Canonical) : (journalRows l s).Canonical := by
  induction l generalizing s with
  | nil => exact h
  | cons x t ih => exact ih (ite_canonical h (journalNote_canonical h))

theorem clearStep_canonical {s : State} {p : Nat} (h : s.Canonical) : (clearStep s p).Canonical := by
  unfold clearStep
  refine onPitch_canonical ((freeLists_canonical h).mapCamps fun n c hc => ?_)
  split
  · refine hc.clearCamp
  · refine hc

theorem clearHolds_canonical {s : State} {g : Option Nat} {ps : List Nat} (h : s.Canonical) : (clearHolds s g ps).Canonical := by
  unfold clearHolds
  exact h.congr (by simp)

theorem restoreModel_canonical {s : State} {p : Nat} (h : s.Canonical) : (restoreModel s p).Canonical := by
  unfold restoreModel
  split
  · exact h
  · split
    · exact h
    · exact rangerEvent_canonical (clearHolds_canonical (h.congr (by simp)))

theorem reportClose_canonical {s : State} {r : PitchRecord} {tokens : NMap Nat} (h : s.Canonical) : (reportClose s r tokens).Canonical :=
  ite_canonical (h.congr (by simp)) (onPitch_canonical (sendPeer_canonical h))

theorem allReported_canonical {s : State} {r : PitchRecord} (h : s.Canonical) : (allReported s r).Canonical :=
  ite_canonical (onPitch_canonical (insertRows_canonical h)) h

theorem parkMarked_canonical {s : State} {r : PitchRecord} (h : s.Canonical) : (parkMarked s r).Canonical := h.congr (by simp)

theorem checkpointPairs_canonical {s : State} (h : s.Canonical) : (checkpointPairs s).Canonical := by
  unfold checkpointPairs
  exact h.congr (by simp)

theorem boundary_canonical {s0 : State} {r : PitchRecord} {logits : List RowLogits} {found : List Finding} (h : s0.Canonical) :
    (boundary s0 r logits found).Canonical := by
  unfold boundary
  refine ite_canonical h (rangerReads_canonical h fun _ h1 => ite_canonical h1 ?_)
  refine checkpointPairs_canonical (parkMarked_canonical (allReported_canonical (reportClose_canonical (restoreModel_canonical ?_))))
  refine clearStep_canonical (journalRows_canonical (ite_canonical (closeRows_canonical (onPitch_canonical ?_)) ?_))
  · exact commitRows_canonical h1
  · exact commitRows_canonical h1

theorem takeReport_canonical {s : State} {r : PitchRecord} {position : Nat} {tokens : NMap Nat} (h : s.Canonical) :
    (takeReport s r position tokens).Canonical :=
  ite_canonical h (parkMarked_canonical (allReported_canonical (ite_canonical (closeRows_canonical (h.congr (by simp))) (h.congr (by simp)))))

end Sys2Proof.Machine
end

section
/-! SUPPORT. O4: memory and scratchpads stay canonical under the sequence commands (R237, R239). -/

namespace Sys2Proof.Machine

theorem preemptRequests_canonical {s : State} {i : Nat} (h : s.Canonical) : (preemptRequests s i).Canonical := by
  unfold preemptRequests
  refine endQueued_canonical ?_
  split
  · exact h
  · exact h.congr (by simp)

theorem afterPreempt_canonical {s : State} {q : Request} (h : s.Canonical) : (afterPreempt s q).Canonical :=
  ite_canonical (preemptRequests_canonical h) h

theorem onDue_canonical {s0 : State} {rid op : Nat} {f : State → Request → PitchRecord → State} (h : s0.Canonical)
    (hk : ∀ t, t.Canonical → ∀ a b, (f t a b).Canonical) : (onDue s0 rid op f).Canonical := by
  unfold onDue
  split
  · exact h
  · refine ite_canonical (h.congr (by simp)) ?_
    refine ite_canonical (afterPreempt_canonical h) ?_
    refine ite_canonical (finishPlain_canonical (afterPreempt_canonical h)) ?_
    exact ite_canonical (finishPlain_canonical (afterPreempt_canonical h)) (hk _ (afterPreempt_canonical h) _ _)

theorem doCreate_canonical {s : State} {q : Request} {r : PitchRecord} (h : s.Canonical) : (doCreate s q r).Canonical := by
  unfold doCreate
  split
  · exact h.congr (by simp)
  · refine ite_canonical ?_ (h.congr (by simp))
    split
    · exact h.congr (by simp)
    · next hx => exact holdIfLost_canonical ((fitSeq_canonical (createSeq_canonical h) hx).congr (by simp))

theorem doContinue_canonical {s : State} {q : Request} (h : s.Canonical) : (doContinue s q).Canonical := by
  unfold doContinue
  dsimp only
  split
  · exact h.congr (by simp)
  · exact ite_canonical (h.congr (by simp)) (h.congr (by simp))
  · exact h.congr (by simp)

theorem finishTruncate_canonical {s : State} {q : Request} {r : PitchRecord} (h : s.Canonical) : (finishTruncate s q r).Canonical := by
  unfold finishTruncate
  split
  · exact h.congr (by simp)
  · next hx => exact (truncateSeq_canonical h hx).congr (by simp)

theorem doTruncate_canonical {s : State} {q : Request} {r : PitchRecord} (h : s.Canonical) : (doTruncate s q r).Canonical :=
  ite_canonical (h.congr (by simp)) (ite_canonical (h.congr (by simp)) (ite_canonical (h.congr (by simp)) (ite_canonical (h.congr
      (by simp)) (finishTruncate_canonical h))))

theorem doCopyDone_canonical {s : State} {q : Request} {r : PitchRecord} {found : List Finding} (h : s.Canonical) :
    (doCopyDone s q r found).Canonical := by
  unfold doCopyDone
  refine ite_canonical (h.congr (by simp)) ?_
  exact ite_canonical h (rangerReads_canonical h (fun _ h1 => ite_canonical h1 (ite_canonical (h1.congr (by simp)) (finishTruncate_canonical h1))))

theorem execTruncationCopyDone_canonical {rid : Nat} {found : List Finding} {s : State} (h : s.Canonical) :
    AnswerCanonical (execTruncationCopyDone rid found s) := by
  unfold execTruncationCopyDone
  split
  · exact h
  · split
    · exact h
    · exact .ite (doCopyDone_canonical h) h

theorem doFork_canonical {s : State} {q : Request} {r : PitchRecord} (h : s.Canonical) : (doFork s q r).Canonical := by
  unfold doFork
  refine ite_canonical (h.congr (by simp)) ?_
  split
  · exact h.congr (by simp)
  · split
    · exact h.congr (by simp)
    · next hx => exact holdIfLost_canonical ((forkSeq_canonical h hx).congr (by simp))

theorem doFree_canonical {s : State} {q : Request} (h : s.Canonical) : (doFree s q).Canonical :=
  freeSeq_canonical (h.congr (by simp))

theorem doPark_canonical {s : State} {q : Request} (h : s.Canonical) : (doPark s q).Canonical := by
  unfold doPark
  refine ite_canonical (h.congr (by simp)) ?_
  refine ite_canonical (finishPlain_canonical (tellGroup_canonical ?_)) (onReq_canonical (tellGroup_canonical ?_))
  · exact beginPark_canonical h
  · exact beginPark_canonical h

theorem doFormDone_canonical {s : State} {r : PitchRecord} {i : Nat} {back : NMap (List Byte)} {found : List Finding} (h : s.Canonical) :
    (doFormDone s r i back found).Canonical := by
  unfold doFormDone
  dsimp only
  split
  · exact h
  · refine ite_canonical h ?_
    split
    · exact pageLost_canonical h
    · refine rangerReads_canonical h (fun _ h1 => ite_canonical h1 ?_)
      refine ite_canonical (abortPark_canonical (h1.congr (by simp))) (onSeq_canonical (ite_canonical ?_ (sendImage_canonical ?_)))
      · exact h1.congr (by simp)
      · exact h1.congr (by simp)

theorem execParkFormDone_canonical {seq : Nat} {exported : NMap (List Byte)} {found : List Finding} {s : State} (h : s.Canonical) :
    AnswerCanonical (execParkFormDone seq exported found s) := by
  unfold execParkFormDone
  refine .ite ?_ trivial
  split
  · exact h
  · exact doFormDone_canonical h

theorem exportPage_canonical {s : State} {p n : Nat} (h : s.Canonical) : (exportPage s p n).Canonical :=
  ite_canonical (h.congr (by simp [freeIf_bytes])) h

theorem exportPages_canonical {p : Nat} {l : List Nat} {s : State} (h : s.Canonical) : (exportPages p l s).Canonical := by
  induction l generalizing s with
  | nil => exact h
  | cons x t ih => exact ih (exportPage_canonical h)

theorem completePark_canonical {s : State} {k : ParkState} (h : s.Canonical) : (completePark s k).Canonical := by
  unfold completePark
  split
  · exact h
  · exact h.congr (by simp)

theorem doParkCommit_canonical {s : State} {i : Nat} {error : Bool} (h : s.Canonical) : (doParkCommit s i error).Canonical := by
  unfold doParkCommit
  dsimp only
  split
  · exact h
  · refine ite_canonical h ?_
    refine ite_canonical (abortPark_canonical h) ?_
    refine ite_canonical h ?_
    refine ite_canonical (releaseSeq_canonical (completePark_canonical (h.congr (by simp)))) ?_
    exact onSeq_canonical (exportPages_canonical (completePark_canonical (h.congr (by simp))))

theorem refuseResume_canonical {s : State} {q : Request} {check result : Nat} {m : ImageRead} (h : s.Canonical) :
    (refuseResume s q check result m).Canonical :=
  finish_canonical (refusedEvent_canonical h)

theorem withImage_canonical {s : State} {q : Request} {x : ImageSource} {m : ImageRead} {k : State → State} (h : s.Canonical)
    (hk : ∀ t, t.Canonical → (k t).Canonical) : (withImage s q x m k).Canonical := by
  unfold withImage
  refine ite_canonical h ?_
  split
  · exact hk _ h
  · exact askRanges_canonical (h.congr (by simp))

theorem resumeImage_canonical {s : State} {q : Request} {r : PitchRecord} {m : ImageRead} (h : s.Canonical) :
    (resumeImage s q r m).Canonical := by
  unfold resumeImage
  split
  · exact refuseResume_canonical h
  · split
    · exact refuseResume_canonical h
    · next hx => exact tellGroup_canonical (onReq_canonical (takeImage_canonical h hx))

theorem finishInPlace_canonical {s : State} {q : Request} {r : PitchRecord} {m : ImageRead} (h : s.Canonical) :
    (finishInPlace s q r m).Canonical := by
  unfold finishInPlace
  split
  · exact h.congr (by simp)
  · next hx => exact (resumeExported_canonical (h.congr (by simp)) hx).congr (by simp)

theorem resumeHere_canonical {s : State} {q : Request} {r : PitchRecord} {m : ImageRead} (h : s.Canonical) : (resumeHere s q r m).Canonical := by
  unfold resumeHere
  refine ite_canonical (h.congr (by simp)) ?_
  split
  · exact finishPlain_canonical (tellGroup_canonical (resumeInPlace_canonical h))
  · exact withImage_canonical h (fun _ h1 => ite_canonical (h1.congr (by simp)) (ite_canonical (finishInPlace_canonical h1) (h1.congr (by simp))))

theorem doResume_canonical {image : Option ImageRead} {s : State} {q : Request} {r : PitchRecord} (h : s.Canonical) :
    (doResume image s q r).Canonical := by
  unfold doResume
  refine ite_canonical (resumeHere_canonical h) ?_
  split
  · exact refuseResume_canonical h
  · exact withImage_canonical h (fun _ h1 => resumeImage_canonical h1)

theorem dropResume_canonical {s : State} {q : Request} (h : s.Canonical) : (dropResume s q).Canonical :=
  ite_canonical h (freeSeq_canonical h)

theorem doRecordsRead_canonical {s : State} {q : Request} {r : PitchRecord} {peer : Option (Nat × Nat)} (h : s.Canonical) :
    (doRecordsRead s q r peer).Canonical := by
  unfold doRecordsRead
  refine ite_canonical (finish_canonical (dropResume_canonical h)) ?_
  split
  · exact h
  · exact finish_canonical (dropResume_canonical h)
  · refine ite_canonical (ite_canonical (ite_canonical (finishInPlace_canonical h) (h.congr (by simp))) h) ?_
    split
    · exact refuseResume_canonical (dropResume_canonical h)
    · next hx => exact holdIfLost_canonical (finish_canonical (imageTaken_canonical (readLayers_canonical h hx)))

theorem execResumeRecordsRead_canonical {rid : Nat} {peer : Option (Nat × Nat)} {s : State} (h : s.Canonical) :
    AnswerCanonical (execResumeRecordsRead rid peer s) := by
  unfold execResumeRecordsRead
  split
  · exact h
  · split
    · exact h
    · exact .ite (doRecordsRead_canonical h) h

theorem landImport_canonical {s : State} {p n i : Nat} {bs : List Byte} {hot : Bool} {o : Option (Nat × State)} (h : s.Canonical)
    (ho : ∀ x, o = some x → x.2.Canonical) : (landImport s p n i bs hot o).Canonical := by
  unfold landImport
  split
  · exact h
  · have h1 := ho _ rfl
    dsimp only at h1 ⊢
    split
    · exact h
    · split
      · exact freeRange_canonical h1
      · exact importDone_canonical (askPage_canonical (putPage_canonical h1.pokeBytes))

theorem importLost_canonical {s : State} {p n code i : Nat} (h : s.Canonical) : (importLost s p n code i).Canonical :=
  importDone_canonical (askPage_canonical (pageLost_canonical h))

theorem doPageImport_canonical {s : State} {p n : Nat} {ok : Bool} {payload : List Byte} (h : s.Canonical) :
    (doPageImport s p n ok payload).Canonical := by
  unfold doPageImport
  dsimp only
  split
  · exact h
  · split
    · exact h
    · split
      · exact importLost_canonical h
      · refine landImport_canonical h (fun _ hx => ?_)
        split at hx
        · exact roomFor_canonical h hx
        · exact warmSpace_canonical h hx

theorem doReadTimeout_canonical {s : State} {p n : Nat} (h : s.Canonical) : (doReadTimeout s p n).Canonical := by
  unfold doReadTimeout
  split
  · exact h
  · exact ite_canonical (importLost_canonical h) h

theorem doStatus_canonical {peers : List (List Byte)} {s : State} {q : Request} {r : PitchRecord} (h : s.Canonical) :
    (doStatus peers s q r).Canonical := by
  unfold doStatus
  refine ite_canonical h ?_
  refine ite_canonical (h.congr (by simp)) ?_
  refine finish_canonical ?_
  split
  · exact h.congr (by simp)
  · exact h

end Sys2Proof.Machine
end

section
/-! SUPPORT. O4: memory and scratchpads stay canonical under accepted submissions (R237, R239). -/

namespace Sys2Proof.Machine

theorem acceptEntry_canonical {s : State} {o : Origin} {p : Nat} {d : FetchedData} (h : s.Canonical) : (acceptEntry s o p d).Canonical := by
  unfold acceptEntry
  dsimp only
  split
  · exact h.congr (by simp)
  · split <;> exact h.congr (by simp)

end Sys2Proof.Machine
end

section
/-! SUPPORT. O4: memory and scratchpads stay canonical under datagrams (R237, R239). -/

namespace Sys2Proof.Machine

theorem acceptDatagram_canonical {s : State} {d : Datagram} (h : s.Canonical) : (acceptDatagram s d).Canonical := by
  unfold acceptDatagram
  exact h.congr (by simp)

theorem withDatagram_canonical {s : State} {d : Datagram} {type : Nat} {f : State → State} (h : s.Canonical)
    (hk : ∀ t, t.Canonical → (f t).Canonical) : (withDatagram s d type f).Canonical :=
  ite_canonical (hk _ (acceptDatagram_canonical (h.congr (by simp)))) (h.congr (by simp))

end Sys2Proof.Machine
end

section
/-! SUPPORT. O4: memory and scratchpads stay canonical under the host port (R237, R239). -/

namespace Sys2Proof.Machine

theorem doorbellInvalid_canonical {s : State} {fn object : Nat} {value : Word} (h : s.Canonical) :
    (doorbellInvalid s fn object value).Canonical :=
  eventOnce_canonical (fun _ h1 => writeEvent_canonical h1) h

theorem readEntries_canonical {fn base entries l l1 : Nat} {s : State} (h : s.Canonical) : (readEntries fn base entries l l1 s).Canonical := by
  induction l generalizing l1 s with
  | zero => exact h
  | succ n ih =>
    rw [readEntries]
    exact ih (h.congr (by simp))

theorem doSubmissionDoorbell_canonical {s : State} {fn ring : Nat} {value : Word} (h : s.Canonical) :
    (doSubmissionDoorbell s fn ring value).Canonical := by
  unfold doSubmissionDoorbell
  refine ite_canonical h ?_
  dsimp only
  split
  · exact doorbellInvalid_canonical h
  · exact ite_canonical (doorbellInvalid_canonical h) (readEntries_canonical (h.congr (by simp)))

theorem doCompletionDoorbell_canonical {s : State} {fn ring : Nat} {value : Word} (h : s.Canonical) :
    (doCompletionDoorbell s fn ring value).Canonical := by
  unfold doCompletionDoorbell
  refine ite_canonical h ?_
  dsimp only
  split
  · exact doorbellInvalid_canonical h
  · exact ite_canonical (doorbellInvalid_canonical h) (ite_canonical h (h.congr (by simp)))

theorem sendReads_canonical {fn : Nat} {l : List (Nat × Nat)} {s : State} (h : s.Canonical) : (sendReads fn l s).Canonical := by
  induction l generalizing s with
  | nil => exact h
  | cons x t ih => exact ih (h.congr (by simp))

theorem doSubmissionFetch_canonical {s0 : State} {fn ring : Nat} {d : Option FetchedData} {poisoned : Bool} (h : s0.Canonical) :
    (doSubmissionFetch s0 fn ring d poisoned).Canonical := by
  unfold doSubmissionFetch
  dsimp only
  split
  · exact ite_canonical (h.congr (by simp)) h
  · refine ite_canonical (ite_canonical (h.congr (by simp)) h) ?_
    split
    · exact writeEvent_canonical (putFn_canonical (ite_canonical (h.congr (by simp)) h))
    · exact acceptEntry_canonical (sendReads_canonical (putFn_canonical (ite_canonical (h.congr (by simp)) h)))

theorem collisionEvent_canonical {s : State} {fn mb : Nat} (h : s.Canonical) : (collisionEvent s fn mb).Canonical :=
  eventOnce_canonical (fun _ h1 => writeEvent_canonical h1) h

theorem mailWrite_canonical {s : State} {fn mb : Nat} {words : NMap Word} (h : s.Canonical) : (mailWrite s fn mb words).Canonical := by
  unfold mailWrite
  refine ite_canonical h ?_
  dsimp only
  split
  · exact h.congr (by simp)
  · split
    · exact h.congr (by simp)
    · exact collisionEvent_canonical (h.congr (by simp))
    · exact h.congr (by simp)
    · exact collisionEvent_canonical (h.congr (by simp))

theorem ackMail_canonical {s : State} {fn mb code : Nat} {reply : List Word} (h : s.Canonical) : (ackMail s fn mb code reply).Canonical :=
  h.congr (by simp)

theorem mailWrites_canonical {fn mb : Nat} {l : List (NMap Word)} {s : State} (h : s.Canonical) : (mailWrites fn mb l s).Canonical := by
  induction l generalizing s with
  | nil => exact h
  | cons x t ih => exact ih (mailWrite_canonical h)

theorem mailRun_canonical {s : State} {fn mb type : Nat} {posts : List (NMap Word)} {act : List Word → State → MailResult} (h : s.Canonical)
    (hk : ∀ a t, t.Canonical → (act a t).state.Canonical) : (mailRun s fn mb type posts act).Canonical := by
  unfold mailRun
  have h1 : (mailWrites fn mb posts (takeMail s fn mb)).Canonical := mailWrites_canonical (h.congr (by simp))
  dsimp only
  split
  · exact h
  · split
    · exact ackMail_canonical h1
    · split
      · exact ackMail_canonical (hk _ _ h1)
      · exact h

theorem actRingCreate_canonical {fn : Nat} {msg : List Word} {s : State} (h : s.Canonical) : (actRingCreate fn msg s).state.Canonical := by
  unfold actRingCreate
  dsimp only
  split
  · exact h
  · split
    · exact h
    · split
      · split
        · exact h
        · exact h.congr (by simp)
      · split
        · exact h
        · exact h.congr (by simp)

theorem actRingDestroy_canonical {fn : Nat} {msg : List Word} {s : State} (h : s.Canonical) : (actRingDestroy fn msg s).state.Canonical := by
  unfold actRingDestroy
  dsimp only
  split
  · exact h
  · split
    · split
      · exact h
      · exact h.congr (by simp)
    · split
      · exact h
      · exact h.congr (by simp)

theorem actAttachBegin_canonical {fn : Nat} {_msg : List Word} {s : State} (h : s.Canonical) : (actAttachBegin fn _msg s).state.Canonical := by
  unfold actAttachBegin
  split
  · exact h
  · exact h.congr (by simp)

theorem actAttach_canonical {fn mb : Nat} {msg : List Word} {s : State} (h : s.Canonical) : (actAttach fn mb msg s).state.Canonical := by
  unfold actAttach
  dsimp only
  split
  · split
    · exact h.congr (by simp)
    · exact writeEvent_canonical (h.congr (by simp))
  · exact writeEvent_canonical h

theorem msixWrite_canonical {s : State} {fn entry word : Nat} {value : Word} (h : s.Canonical) : (msixWrite s fn entry word value).Canonical :=
  ite_canonical (h.congr (by simp)) (ite_canonical (h.congr (by simp)) (ite_canonical (h.congr (by simp)) (ite_canonical (h.congr
      (by simp)) (h.congr (by simp)))))

theorem doRegisterWrite_canonical {s : State} {fn bar offset : Nat} {value : Word} (h : s.Canonical) :
    (doRegisterWrite s fn bar offset value).Canonical := by
  unfold doRegisterWrite
  refine ite_canonical h ?_
  refine ite_canonical (ite_canonical (h.congr (by simp)) h) ?_
  exact ite_canonical (msixWrite_canonical h) (ite_canonical (ite_canonical (mailWrite_canonical h) (ite_canonical (h.congr (by simp)) h)) h)

theorem endFor_canonical {s : State} {q : Request} (h : s.Canonical) : (endFor s q).1.Canonical := by
  unfold endFor
  dsimp only
  split
  · exact h.congr (by simp)
  · exact h.congr (by simp)
  · split
    · exact freeSeq_canonical (h.congr (by simp))
    · exact h.congr (by simp)
  · split
    · exact abortPark_canonical h
    · exact h.congr (by simp)
  · exact dropResume_canonical (h.congr (by simp))

theorem endCommands_canonical {l : List Request} {s : State} {l1 : Nat} (h : s.Canonical) : (endCommands l s l1).1.Canonical := by
  induction l generalizing s l1 with
  | nil =>
    rw [endCommands]
    exact h
  | cons x t ih => exact ih (endFor_canonical h)

theorem abortParksTo_canonical {fn : Nat} {l : List Nat} {s : State} (h : s.Canonical) : (abortParksTo fn l s).Canonical := by
  induction l generalizing s with
  | nil => exact h
  | cons x t ih =>
    rw [abortParksTo]
    refine ih ?_
    split
    · exact h
    · exact ite_canonical (abortPark_canonical h) h

theorem dropNotices_canonical {s : State} {fn : Nat} (h : s.Canonical) : (dropNotices s fn).Canonical := by
  unfold dropNotices
  exact h.congr (by simp)

theorem undoCreates_canonical {l : List Nat} {s : State} (h : s.Canonical) : (undoCreates l s).1.Canonical := by
  induction l generalizing s with
  | nil =>
    rw [undoCreates]
    exact h
  | cons x t ih =>
    rw [undoCreates]
    split
    · exact ih (h.congr (by simp))
    · exact ih h

theorem resetFn_canonical {s : State} {fn : Nat} (h : s.Canonical) : (resetFn s fn).Canonical :=
  writeEvent_canonical (dropNotices_canonical (abortParksTo_canonical (undoCreates_canonical (endCommands_canonical (h.congr (by simp))))))

theorem resetFns_canonical {l : List Nat} {s : State} (h : s.Canonical) : (resetFns l s).Canonical := by
  induction l generalizing s with
  | nil => exact h
  | cons x t ih => exact ih (resetFn_canonical h)

theorem vfsOff_canonical {s : State} (h : s.Canonical) : (vfsOff s).Canonical :=
  resetFns_canonical h

theorem vfsCount_canonical {s : State} {n : Nat} (h : s.Canonical) : (vfsCount s n).Canonical :=
  resetFns_canonical h

theorem resetPf_canonical {s : State} (h : s.Canonical) : (resetPf s).Canonical := by
  unfold resetPf
  have h1 : (vfsOff (resetFn s 0)).Canonical := vfsOff_canonical (resetFn_canonical h)
  exact h1.congr (by simp)

theorem hostTrain_canonical {s : State} {rate width : Nat} (h : s.Canonical) : (hostTrain s rate width).Canonical :=
  ite_canonical (h.congr (by simp)) (writeEvent_canonical (h.congr (by simp)))

theorem ideOff_canonical {s : State} (h : s.Canonical) : (ideOff s).Canonical := by
  unfold ideOff
  exact h.congr (by simp)

theorem doFunctionReset_canonical {s : State} {kind : ResetKind} {rate width : Nat} (h : s.Canonical) :
    (doFunctionReset s kind rate width).Canonical := by
  unfold doFunctionReset
  split
  · exact ite_canonical (resetPf_canonical h) (ite_canonical (resetFn_canonical h) h)
  · exact vfsOff_canonical h
  · exact vfsCount_canonical h
  · exact resetPf_canonical h
  · exact hostTrain_canonical (ideOff_canonical (resetPf_canonical h))
  · exact hostTrain_canonical (ideOff_canonical (resetPf_canonical h))

theorem sendPending_canonical {fn : Nat} {l : List Nat} {s : State} (h : s.Canonical) : (sendPending fn l s).Canonical := by
  induction l generalizing s with
  | nil => exact h
  | cons x t ih => exact ih (ite_canonical (h.congr (by simp)) h)

theorem doConfigWrite_canonical {s : State} {fn offset : Nat} {value : Word} (h : s.Canonical) : (doConfigWrite s fn offset value).Canonical := by
  unfold doConfigWrite
  refine ite_canonical h ?_
  refine ite_canonical (sendPending_canonical (h.congr (by simp))) ?_
  refine ite_canonical h ?_
  refine ite_canonical (h.congr (by simp)) ?_
  refine ite_canonical (ite_canonical (h.congr (by simp)) (ite_canonical (vfsOff_canonical h) h)) ?_
  exact ite_canonical (ite_canonical h (vfsCount_canonical h)) (ite_canonical (h.congr (by simp)) h)

end Sys2Proof.Machine
end

section
/-! SUPPORT. O4: memory and scratchpads stay canonical under the phases of start-up (R237, R239). -/

namespace Sys2Proof.Machine

theorem refuseConfig_canonical {s : State} (h : s.Canonical) : (refuseConfig s).Canonical :=
  rangerEvent_canonical (h.congr (by simp))

theorem railsOff_canonical (s : State) : (railsOff s).Canonical :=
  ⟨memWf_nil, fun _ hc => absurd hc List.not_mem_nil⟩

theorem reportLatches_canonical {s : State} (h : s.Canonical) : (reportLatches s).Canonical := by
  unfold reportLatches
  refine ite_canonical (rangerEvent_canonical (ite_canonical (rangerEvent_canonical (h.congr (by simp))) h)) ?_
  exact ite_canonical (rangerEvent_canonical (h.congr (by simp))) h

theorem takeConfig_canonical {s : State} {f : BootFindings} (h : s.Canonical) : (takeConfig s f).Canonical := by
  unfold takeConfig
  dsimp only
  split
  · exact refuseConfig_canonical h
  · exact ite_canonical (h.congr (by simp)) (refuseConfig_canonical (h.congr (by simp)))

theorem bootOn_canonical {s1 : State} {f : BootFindings} (h : s1.Canonical) : (bootOn s1 f).Canonical := by
  unfold bootOn
  refine ite_canonical h ?_
  dsimp only
  split
  · exact ite_canonical (rangerEvent_canonical (h.congr (by simp))) (h.congr (by simp))
  · refine takeConfig_canonical (reportLatches_canonical ?_)
    refine ite_canonical (rangerEvent_canonical (ite_canonical (rangerEvent_canonical (h.congr (by simp))) (h.congr (by simp)))) ?_
    exact ite_canonical (rangerEvent_canonical (h.congr (by simp))) (h.congr (by simp))

theorem raiseRails_canonical {s : State} {f : BootFindings} (h : s.Canonical) : (raiseRails s f).Canonical :=
  ite_canonical (bootOn_canonical (h.congr (by simp))) h

theorem startUp_canonical {s : State} {f : BootFindings} : (startUp s f).Canonical :=
  raiseRails_canonical ((railsOff_canonical s).congr (by simp))

theorem reapplyLanes_canonical {m : CampMap} {l : List LaneLoss} {s : State} (h : s.Canonical) : (reapplyLanes m l s).Canonical := by
  induction l generalizing s with
  | nil => exact h
  | cons x t ih =>
    rw [reapplyLanes]
    refine ih ?_
    split
    · exact h
    · exact h.onCore fun _ hk => hk

theorem fenceAll_canonical {l : List Nat} {s : State} (h : s.Canonical) : (fenceAll l s).Canonical := by
  induction l generalizing s with
  | nil => exact h
  | cons x t ih => exact ih (h.sameCores rfl)

theorem reachCheck_canonical {s : State} (h : s.Canonical) : (reachCheck s).Canonical :=
  ite_canonical (h.congr (by simp)) h

theorem failCamps_canonical {l : List Nat} {x : State × CampMap} (h : x.1.Canonical) :
    (failCamps l x).1.Canonical := by
  induction l generalizing x with
  | nil => exact h
  | cons c t ih =>
    obtain ⟨s, m⟩ := x
    rw [failCamps]
    refine ih ?_
    split
    · exact h
    · exact rangerEvent_canonical h

theorem doArraysTested_canonical {s : State} {failedCamps : List Nat} (h : s.Canonical) : (doArraysTested s failedCamps).Canonical :=
  reachCheck_canonical (fenceAll_canonical (reapplyLanes_canonical (failCamps_canonical h)))

theorem channelRecords_canonical {l : List Nat} {s : State} (h : s.Canonical) : (channelRecords l s).Canonical := by
  induction l generalizing s with
  | nil => exact h
  | cons x t ih => exact ih (rangerEvent_canonical h)

theorem trainPorts_canonical {c : Configuration} {l : List (PortReport × Nat)} {s : State} (h : s.Canonical) : (trainPorts c l s).Canonical := by
  induction l generalizing s with
  | nil => exact h
  | cons x t ih =>
    obtain ⟨_, _⟩ := x
    rw [trainPorts]
    exact ite_canonical (ih (rangerEvent_canonical (h.congr (by simp)))) (ite_canonical (ih (h.congr (by simp))) (ih (h.congr
        (by simp))))

theorem sendIdentity_canonical {s : State} {l : Nat} (h : s.Canonical) : (sendIdentity s l).Canonical := by
  unfold sendIdentity
  exact h.congr (by simp)

theorem sendIdentities_canonical {l : List Nat} {s : State} (h : s.Canonical) : (sendIdentities l s).Canonical := by
  induction l generalizing s with
  | nil => exact h
  | cons x t ih => exact ih (ite_canonical (sendIdentity_canonical h) h)

theorem ethUpRecords_canonical {l : List Nat} {s : State} (h : s.Canonical) : (ethUpRecords l s).Canonical := by
  induction l generalizing s with
  | nil => exact h
  | cons x t ih => exact ih (ite_canonical (rangerEvent_canonical h) h)

theorem doLinksTrained_canonical {s : State} {links : List Bool} {ports : List PortReport} {eth : List Bool} {hostRate hostWidth : Nat}
    (h : s.Canonical) : (doLinksTrained s links ports eth hostRate hostWidth).Canonical := by
  unfold doLinksTrained
  dsimp only
  split
  · exact reachCheck_canonical (hostTrain_canonical (h.congr (by simp)))
  · refine reachCheck_canonical ?_
    refine ite_canonical ?_ ?_
    · exact hostTrain_canonical (sendIdentities_canonical (ethUpRecords_canonical (ite_canonical (h.congr (by simp)) (trainPorts_canonical (h.congr
        (by simp))))))
    · exact sendIdentities_canonical (ethUpRecords_canonical (ite_canonical (h.congr (by simp)) (trainPorts_canonical (h.congr (by simp)))))

theorem linkEvent_canonical {s : State} {l code peer attempt : Nat} (h : s.Canonical) : (linkEvent s l code peer attempt).Canonical :=
  h.congr (by simp)

theorem doLinkIdentity_canonical {s : State} {l device peerLink : Nat} (h : s.Canonical) : (doLinkIdentity s l device peerLink).Canonical := by
  unfold doLinkIdentity
  split
  · exact ite_canonical h (ite_canonical (linkEvent_canonical (h.congr (by simp))) (linkEvent_canonical (h.congr (by simp))))
  · exact h

theorem powerChecks_canonical {s : State} {c : Configuration} {inlet backupMv : Nat} (h : s.Canonical) :
    (powerChecks s c inlet backupMv).1.Canonical := by
  unfold powerChecks
  refine ite_canonical (rangerEvent_canonical (ite_canonical (rangerEvent_canonical h) h)) ?_
  exact ite_canonical (rangerEvent_canonical h) h

theorem pitchCheckEvent_canonical {s : State} {x : CheckFailure} (h : s.Canonical) : (pitchCheckEvent s x).Canonical :=
  rangerEvent_canonical h

theorem portDownRecords_canonical {c : Configuration} {l : List Nat} {s : State} (h : s.Canonical) : (portDownRecords c l s).Canonical := by
  induction l generalizing s with
  | nil => exact h
  | cons x t ih =>
    rw [portDownRecords]
    refine ih ?_
    split
    · exact h
    · exact ite_canonical (rangerEvent_canonical h) h

theorem doConfigCheck_canonical {s : State} {inlet backupMv : Nat} (h : s.Canonical) : (doConfigCheck s inlet backupMv).Canonical := by
  unfold doConfigCheck
  dsimp only
  split
  · exact h.congr (by simp)
  · refine ite_canonical (h.congr (by simp)) ?_
    refine ite_canonical ?_ ?_
    · refine refuseConfig_canonical ?_
      split
      · exact powerChecks_canonical (portDownRecords_canonical (h.congr (by simp)))
      · exact pitchCheckEvent_canonical (powerChecks_canonical (portDownRecords_canonical (h.congr (by simp))))
    · refine ite_canonical ?_ ?_
      · split
        · exact powerChecks_canonical (portDownRecords_canonical (h.congr (by simp)))
        · exact pitchCheckEvent_canonical (powerChecks_canonical (portDownRecords_canonical (h.congr (by simp))))
      · split
        · exact powerChecks_canonical (portDownRecords_canonical (h.congr (by simp)))
        · exact pitchCheckEvent_canonical (powerChecks_canonical (portDownRecords_canonical (h.congr (by simp))))

theorem sendDigest_canonical {r : PitchRecord} {l : List Nat} {s : State} (h : s.Canonical) : (sendDigest r l s).Canonical := by
  induction l generalizing s with
  | nil => exact h
  | cons x t ih => exact ih (sendPeer_canonical h)

theorem sendDigests_canonical {l : List PitchRecord} {s : State} (h : s.Canonical) : (sendDigests l s).Canonical := by
  induction l generalizing s with
  | nil => exact h
  | cons x t ih => exact ih (ite_canonical (sendDigest_canonical h) h)

theorem joinPitches_canonical {answers : NMap (List MemberAnswer)} {l : List PitchRecord} {s : State} (h : s.Canonical) :
    (joinPitches answers l s).Canonical := by
  induction l generalizing s with
  | nil => exact h
  | cons x t ih =>
    rw [joinPitches]
    refine ih (ite_canonical ?_ h)
    split
    · exact h.congr (by simp)
    · exact rangerEvent_canonical (h.congr (by simp))

theorem execGroupJoin_canonical {now : Nat} {answers : NMap (List MemberAnswer)} {s : State} (h : s.Canonical) :
    AnswerCanonical (execGroupJoin now answers s) := by
  unfold execGroupJoin
  split
  · exact h
  · exact .ite (joinPitches_canonical (sendDigests_canonical (h.congr (by simp)))) h

theorem nameTime_canonical {r : PitchRecord} {time : Nat} {l : List Nat} {s : State} (h : s.Canonical) : (nameTime r time l s).Canonical := by
  induction l generalizing s with
  | nil => exact h
  | cons x t ih => exact ih (sendPeer_canonical h)

theorem doDigestRetry_canonical {s0 : State} {r : PitchRecord} {answers : List MemberAnswer} {joinTime : Nat} (h : s0.Canonical) :
    (doDigestRetry s0 r answers joinTime).Canonical := by
  unfold doDigestRetry
  refine ite_canonical ?_ h
  refine ite_canonical (onPitch_canonical (ite_canonical (nameTime_canonical ?_) ?_)) ?_
  · exact sendDigest_canonical h
  · exact sendDigest_canonical h
  · exact sendDigest_canonical h

theorem doGroupJoined_canonical {s : State} {r : PitchRecord} (h : s.Canonical) : (doGroupJoined s r).Canonical := by
  unfold doGroupJoined
  split
  · exact h
  · exact ite_canonical h (rangerEvent_canonical (h.congr (by simp)))

end Sys2Proof.Machine
end

section
/-! SUPPORT. O4: memory and scratchpads stay canonical under the tensor fabric (R237, R239). -/

namespace Sys2Proof.Machine

theorem flitRetry_canonical {s : State} {l : Nat} (h : s.Canonical) : (flitRetry s l).Canonical :=
  eventOnce_canonical (fun _ h1 => linkEvent_canonical h1) h

theorem refuseFrame_canonical {s : State} {l : Nat} {k : Link} (h : s.Canonical) : (refuseFrame s l k).Canonical :=
  flitRetry_canonical (h.congr (by simp))

theorem doFlitData_canonical {s : State} {l : Nat} {f : Frame} (h : s.Canonical) : (doFlitData s l f).Canonical := by
  unfold doFlitData
  split
  · exact h
  · refine ite_canonical h ?_
    exact ite_canonical h (ite_canonical (ite_canonical (h.congr (by simp)) (ite_canonical h (refuseFrame_canonical h))) (refuseFrame_canonical h))

theorem doFlitIdle_canonical {s : State} {l : Nat} {f : Frame} (h : s.Canonical) : (doFlitIdle s l f).Canonical := by
  unfold doFlitIdle
  split
  · exact h
  · exact ite_canonical (h.congr (by simp)) h

theorem resendFrames_canonical {l : Nat} {l1 : List Frame} {s : State} (h : s.Canonical) : (resendFrames l l1 s).Canonical := by
  induction l1 generalizing s with
  | nil => exact h
  | cons x t ih => exact ih (h.congr (by simp))

theorem doRetryRequest_canonical {s : State} {l : Nat} {f : Frame} (h : s.Canonical) : (doRetryRequest s l f).Canonical := by
  unfold doRetryRequest
  split
  · exact h
  · refine ite_canonical (ite_canonical (flitRetry_canonical ?_) (pump_canonical (resendFrames_canonical (flitRetry_canonical ?_)))) h
    · exact h.congr (by simp)
    · exact h.congr (by simp)

theorem cairnEvent_canonical {s : State} {code : Nat} (h : s.Canonical) : (cairnEvent s code).Canonical := h.congr (by simp)

theorem holdover_canonical {s : State} (h : s.Canonical) : (holdover s).Canonical := h.congr (by simp)

theorem requeue_canonical {s : State} {l : Nat} {k : Link} (h : s.Canonical) : (requeue s l k).Canonical := h.congr (by simp)

theorem doLinkDown_canonical {s : State} {l : Nat} (h : s.Canonical) : (doLinkDown s l).Canonical := by
  unfold doLinkDown
  split
  · exact h
  · exact ite_canonical (holdover_canonical (linkEvent_canonical (h.congr (by simp)))) h

theorem portDown_canonical {s : State} {l : Nat} (h : s.Canonical) : (portDown s l).Canonical :=
  ite_canonical (linkEvent_canonical h) h

theorem doLinkUp_canonical {s0 : State} {l device peerLink : Nat} (h : s0.Canonical) : (doLinkUp s0 l device peerLink).Canonical := by
  unfold doLinkUp
  split
  · refine ite_canonical ?_ h
    refine ite_canonical (pump_canonical (linkEvent_canonical (requeue_canonical (putLink_canonical (sendIdentity_canonical h))))) ?_
    refine pump_canonical (holdover_canonical (portDown_canonical (linkEvent_canonical (requeue_canonical ?_))))
    exact putLink_canonical (sendIdentity_canonical h)
  · exact h

theorem doLinkLost_canonical {s : State} {l : Nat} (h : s.Canonical) : (doLinkLost s l).Canonical := by
  unfold doLinkLost
  split
  · exact h
  · exact ite_canonical (pump_canonical (holdover_canonical (portDown_canonical (linkEvent_canonical (h.congr (by simp)))))) h

theorem withPacket_canonical {s : State} {kind : Nat} {pkt : List Byte} {f : Nat → State} (h : s.Canonical) (hk : ∀ a, (f a).Canonical) :
    (withPacket s kind pkt f).Canonical := by
  unfold withPacket
  refine ite_canonical ?_ h
  split
  · exact h
  · exact hk _

theorem startTransfer_canonical {s : State} {r : PitchRecord} {d : TransferDesc} {raw : List Byte} (h : s.Canonical) :
    (startTransfer s r d raw).Canonical := by
  unfold startTransfer
  exact h.congr (by simp)

theorem doSlotTransfer_canonical {s : State} {r : PitchRecord} {bs : List Byte} {found : List Finding} (h : s.Canonical) :
    (doSlotTransfer s r bs found).Canonical := by
  unfold doSlotTransfer
  dsimp only
  split
  · exact h
  · refine ite_canonical ?_ ?_
    · refine rangerAccess_canonical h fun _ h1 => ite_canonical ?_ (startTransfer_canonical ?_)
      · exact rangerFindings_canonical h1
      · exact rangerFindings_canonical h1
    · exact h

theorem doResponse_canonical {s : State} {pkt : List Byte} (h : s.Canonical) : (doResponse s pkt).Canonical := by
  unfold doResponse
  dsimp only
  split
  · exact h
  · refine ite_canonical h ?_
    refine ite_canonical ?_ (ite_canonical (h.congr (by simp)) h)
    split
    · exact ite_canonical (h.congr (by simp)) (h.congr (by simp))
    · exact h.congr (by simp)

theorem doTransferResend_canonical {s : State} {n : Nat} (h : s.Canonical) : (doTransferResend s n).Canonical := by
  unfold doTransferResend
  split
  · exact h
  · exact ite_canonical h (ite_canonical (h.congr (by simp)) (rangerEvent_canonical (h.congr (by simp))))

theorem codecEvent_canonical {s : State} {p src attempt : Nat} {f : DecodeFault} {head : List Byte} (h : s.Canonical) :
    (codecEvent s p src attempt f head).Canonical :=
  writeEvent_canonical h

theorem sendResponse_canonical {s : State} {port dest group transfer result block : Nat} (h : s.Canonical) :
    (sendResponse s port dest group transfer result block).Canonical := by
  unfold sendResponse
  exact h.congr (by simp)

theorem putRecv_canonical {s : State} {x : Recv} (h : s.Canonical) : (putRecv s x).Canonical := by
  unfold putRecv
  exact h.congr (by simp)

theorem dropRecv_canonical {s : State} {v : Recv} (h : s.Canonical) : (dropRecv s v).Canonical := by
  unfold dropRecv
  exact h.congr (by simp)

theorem endRecv_canonical {s : State} {source transfer : Nat} (h : s.Canonical) : (endRecv s source transfer).Canonical := by
  unfold endRecv
  exact h.congr (by simp)

theorem fabricForeign_canonical {s : State} {l p src transfer : Nat} (h : s.Canonical) : (fabricForeign s l p src transfer).Canonical :=
  writeEvent_canonical h

theorem landed_canonical {s : State} {l : Nat} {r : PitchRecord} {v : Recv} {x : Slot} (h : s.Canonical) : (landed s l r v x).Canonical :=
  sendResponse_canonical (endRecv_canonical (h.congr (by simp)))

theorem blockFailed_canonical {s : State} {l : Nat} {r : PitchRecord} {v : Recv} {b : ArrivedBlock} {f : DecodeFault} (h : s.Canonical) :
    (blockFailed s l r v b f).1.Canonical := by
  unfold blockFailed
  dsimp only
  split
  · exact uncorrectableWord_canonical (dropRecv_canonical (codecEvent_canonical h))
  · exact sendResponse_canonical (codecEvent_canonical h)

theorem landBlocks_canonical {l : Nat} {r : PitchRecord} {x : Slot} {l1 : List ArrivedBlock} {s : State} {l2 : Recv} (h : s.Canonical) :
    (landBlocks l r x l1 s l2).1.Canonical := by
  induction l1 generalizing s l2 with
  | nil =>
    rw [landBlocks]
    exact h
  | cons x t ih =>
    rw [landBlocks]
    split
    · split
      · next hx => exact fst_canonical hx (blockFailed_canonical h)
      · next hx => exact ih (fst_canonical hx (blockFailed_canonical h))
    · split
      · exact fabricForeign_canonical (dropRecv_canonical h)
      · exact ih h.pokeBytes

theorem landedMore_canonical {s : State} {l : Nat} {r : PitchRecord} {v : Recv} {x : Slot} (h : s.Canonical) :
    (landedMore s l r v x).Canonical :=
  ite_canonical (putRecv_canonical h) (landed_canonical (putRecv_canonical h))

theorem landBody_canonical {s : State} {l : Nat} {r : PitchRecord} {v : Recv} {x : Slot} {offset : Nat} {body : List Byte} (h : s.Canonical) :
    (landBody s l r v x offset body).Canonical := by
  unfold landBody
  refine ite_canonical ?_ (landedMore_canonical h.pokeBytes)
  split
  · next hx => exact fst_canonical hx (landBlocks_canonical (h.congr (by simp)))
  · next hx => exact landedMore_canonical (fst_canonical hx (landBlocks_canonical (h.congr (by simp))))

theorem doSlotData_canonical {s : State} {l : Nat} {pkt : List Byte} {destOffset : Nat} (h : s.Canonical) :
    (doSlotData s l pkt destOffset).Canonical := by
  unfold doSlotData
  refine ite_canonical (h.congr (by simp)) ?_
  dsimp only
  split
  · exact pump_canonical (fabricForeign_canonical (h.congr (by simp)))
  · refine ite_canonical (pump_canonical (fabricForeign_canonical (h.congr (by simp)))) ?_
    exact ite_canonical (rangerAccess_canonical h (fun _ h1 => pump_canonical (landBody_canonical (h1.congr (by simp))))) h

theorem doTimeRequest_canonical {s : State} (h : s.Canonical) : (doTimeRequest s).Canonical := by
  unfold doTimeRequest
  split
  · exact h
  · exact h.congr (by simp)

theorem withTimeFrame_canonical {s : State} {l : Nat} {f : Frame} {k : State → State} (h : s.Canonical)
    (hk : ∀ t, t.Canonical → (k t).Canonical) : (withTimeFrame s l f k).Canonical := by
  unfold withTimeFrame
  split
  · exact h
  · exact ite_canonical (pump_canonical (hk _ (h.congr (by simp)))) h

theorem doTimeAnswer_canonical {s : State} {l : Nat} {payload : List Byte} {t2 t2frac t3 t3frac : Nat} (h : s.Canonical) :
    (doTimeAnswer s l payload t2 t2frac t3 t3frac).Canonical :=
  ite_canonical (h.congr (by simp)) h

theorem countExchange_canonical {s : State} {offset : Int} (h : s.Canonical) : (countExchange s offset).Canonical :=
  ite_canonical (cairnEvent_canonical (h.congr (by simp))) (h.congr (by simp))

theorem doTimeResponse_canonical {s : State} {l : Nat} {payload : List Byte} {t4 t4frac : Nat} (h : s.Canonical) :
    (doTimeResponse s l payload t4 t4frac).Canonical := by
  unfold doTimeResponse
  split
  · exact h
  · refine ite_canonical h (ite_canonical (ite_canonical (h.congr (by simp)) (h.congr (by simp))) ?_)
    exact holdover_canonical (countExchange_canonical (h.congr (by simp)))

theorem doPpsEdge_canonical {s : State} (h : s.Canonical) : (doPpsEdge s).Canonical :=
  ite_canonical (ite_canonical (h.congr (by simp)) (h.congr (by simp))) h

end Sys2Proof.Machine
end

section
/-! SUPPORT. O4: memory and scratchpads stay canonical under firmware and configuration update (R237, R239). -/

namespace Sys2Proof.Machine

theorem writeSlot_canonical {s : State} {target offset : Nat} {data : List Byte} (h : s.Canonical) :
    (writeSlot s target offset data).Canonical := h.congr (by simp)

theorem eraseSlot_canonical {s : State} {target : Nat} (h : s.Canonical) : (eraseSlot s target).Canonical := h.congr (by simp)

theorem verifyFail_canonical {s : State} {target code : Nat} (h : s.Canonical) : (verifyFail s target code).Canonical :=
  rangerEvent_canonical h

theorem verifySlot_canonical {s : State} {target : Nat} {sigOk : Bool} (h : s.Canonical) : (verifySlot s target sigOk).1.Canonical := by
  unfold verifySlot
  dsimp only
  split
  · exact h.congr (by simp)
  · exact verifyFail_canonical h

theorem forwardImage_canonical {s : State} {refusing : List Nat} {target : Nat} (h : s.Canonical) : (forwardImage s refusing target).Canonical :=
  h.congr (by simp)

theorem fwRun_canonical {s : State} {src : FwSource} {type : Nat} {act : Bool → List Byte → List Word → State → MailResult} {dma : List Byte}
    (h : s.Canonical) (hk : ∀ a b c t, t.Canonical → (act a b c t).state.Canonical) : (fwRun s src type act dma).Canonical := by
  unfold fwRun
  cases src with
  | mailbox fn mb posts => exact mailRun_canonical h (fun _ _ h1 => hk _ _ _ _ h1)
  | session d =>
    dsimp only
    split
    · have h1 : (acceptDatagram (atTime s d.now) d).Canonical := acceptDatagram_canonical (h.congr (by simp))
      split
      · exact sendMessage_canonical h1
      · split
        · exact sendMessage_canonical (hk _ _ _ _ h1)
        · exact h.congr (by simp)
    · exact h.congr (by simp)

theorem fwRow_canonical {s : State} {src : FwSource} {type : Nat} {act : Bool → List Byte → List Word → State → MailResult} {dma : List Byte}
    (h : s.Canonical) (hk : ∀ a b c t, t.Canonical → (act a b c t).state.Canonical) : AnswerCanonical (fwRow s src type act dma) :=
  nextIf_canonical (fwRun_canonical h (fun _ _ _ _ h1 => hk _ _ _ _ h1))

theorem readIova_canonical {s : State} {inline : Bool} {iova len : Nat} (h : s.Canonical) : (readIova s inline iova len).Canonical :=
  ite_canonical h (h.congr (by simp))

theorem actFwWrite_canonical {inline : Bool} {data : List Byte} {msg : List Word} {s : State} (h : s.Canonical) :
    (actFwWrite inline data msg s).state.Canonical := by
  unfold actFwWrite
  dsimp only
  split
  · exact h
  · split
    · exact h
    · split
      · exact h
      · split
        · exact h
        · split
          · exact h
          · exact writeSlot_canonical (ite_canonical (eraseSlot_canonical (readIova_canonical h)) (readIova_canonical h))

theorem actFwVerify_canonical {sigOk : Bool} {refusing : List Nat} {_inline : Bool} {_data : List Byte} {msg : List Word} {s : State}
    (h : s.Canonical) : (actFwVerify sigOk refusing _inline _data msg s).state.Canonical := by
  unfold actFwVerify
  dsimp only
  split
  · exact h
  · split
    · exact ite_canonical (forwardImage_canonical (verifySlot_canonical h)) (verifySlot_canonical h)
    · exact verifySlot_canonical h

theorem activate_canonical {s : State} {msg : List Word} (h : s.Canonical) : (activate s msg).1.Canonical := by
  unfold activate
  dsimp only
  split
  · exact h
  · split
    · exact h
    · split
      · exact h
      · split
        · exact h
        · split
          · exact h
          · exact rangerEvent_canonical (h.congr (by simp))

theorem forwarded_canonical {s : State} {refusing : List Nat} {op : Nat} {flag : Bool} {msg : List Word} (h : s.Canonical) :
    (forwarded s refusing op flag msg).Canonical :=
  ite_canonical (h.congr (by simp)) h

theorem actFwActivate_canonical {refusing : List Nat} {_inline : Bool} {_data : List Byte} {msg : List Word} {s : State} (h : s.Canonical) :
    (actFwActivate refusing _inline _data msg s).state.Canonical :=
  forwarded_canonical (activate_canonical h)

theorem disarm_canonical {s : State} {msg : List Word} (h : s.Canonical) : (disarm s msg).1.Canonical := by
  unfold disarm
  split
  · exact h
  · exact h.congr (by simp)

theorem actFwDisarm_canonical {refusing : List Nat} {_inline : Bool} {_data : List Byte} {msg : List Word} {s : State} (h : s.Canonical) :
    (actFwDisarm refusing _inline _data msg s).state.Canonical :=
  forwarded_canonical (disarm_canonical h)

theorem confirm_canonical {s : State} {msg : List Word} (h : s.Canonical) : (confirm s msg).1.Canonical := by
  unfold confirm
  split
  · exact h
  · split
    · exact h
    · exact rangerEvent_canonical (h.congr (by simp))

theorem actFwConfirm_canonical {refusing : List Nat} {_inline : Bool} {_data : List Byte} {msg : List Word} {s : State} (h : s.Canonical) :
    (actFwConfirm refusing _inline _data msg s).state.Canonical :=
  forwarded_canonical (confirm_canonical h)

theorem actLockWrite_canonical {sigOk inline : Bool} {data : List Byte} {msg : List Word} {s : State} (h : s.Canonical) :
    (actLockWrite sigOk inline data msg s).state.Canonical := by
  unfold actLockWrite
  dsimp only
  split
  · exact h
  · split
    · exact readIova_canonical h
    · split
      · exact rangerEvent_canonical (readIova_canonical h)
      · split <;> exact readIova_canonical h

theorem actFwStatus_canonical {_inline : Bool} {_data : List Byte} {_msg : List Word} {s : State} (h : s.Canonical) :
    (actFwStatus _inline _data _msg s).state.Canonical :=
  h

theorem doArmedRestart_canonical {s : State} {f : BootFindings} (h : s.Canonical) : (doArmedRestart s f).Canonical := by
  unfold doArmedRestart
  split
  · exact h
  · exact ite_canonical h (ite_canonical (rangerEvent_canonical (h.congr (by simp))) startUp_canonical)

theorem chainDone_canonical {s : State} {refusing : List Nat} {c : ChainIn} {sigOk : Bool} (h : s.Canonical) :
    (chainDone s refusing c sigOk).Canonical :=
  ite_canonical (forwardImage_canonical (verifySlot_canonical (h.congr (by simp)))) (verifySlot_canonical (h.congr (by simp)))

theorem chainBlock_canonical {s : State} {refusing : List Nat} {target offset length id : Nat} {data : List Byte} {sigOk : Bool} (h : s.Canonical) :
    (chainBlock s refusing target offset length id data sigOk).Canonical := by
  unfold chainBlock
  refine ite_canonical h ?_
  dsimp only
  split
  · split <;> exact ite_canonical (h.congr (by simp)) (chainDone_canonical (h.congr (by simp)))
  · exact ite_canonical (h.congr (by simp)) (chainDone_canonical (h.congr (by simp)))

theorem doFirmwareBlock_canonical {s : State} {refusing : List Nat} {body : List Byte} {sigOk : Bool} (h : s.Canonical) :
    (doFirmwareBlock s refusing body sigOk).Canonical := by
  unfold doFirmwareBlock
  refine ite_canonical h ?_
  refine ite_canonical (chainBlock_canonical h) ?_
  refine ite_canonical (forwarded_canonical (activate_canonical h)) ?_
  exact ite_canonical (forwarded_canonical (disarm_canonical h)) (ite_canonical (forwarded_canonical (confirm_canonical h)) h)

end Sys2Proof.Machine
end

section
/-! SUPPORT. O4: memory and scratchpads stay canonical under the Ethernet ports (R237, R239). -/

namespace Sys2Proof.Machine

theorem abortSessionParks_canonical {n : Nat} {l : List Nat} {s : State} (h : s.Canonical) : (abortSessionParks n l s).Canonical := by
  induction l generalizing s with
  | nil => exact h
  | cons x t ih =>
    rw [abortSessionParks]
    refine ih ?_
    split
    · exact h
    · exact ite_canonical (abortPark_canonical h) h

theorem dropSession_canonical {s : State} {n : Nat} (h : s.Canonical) : (dropSession s n).Canonical :=
  abortSessionParks_canonical (h.congr (by simp))

theorem sendHeld_canonical {n : Nat} {l : List (List Byte)} {s : State} (h : s.Canonical) : (sendHeld n l s).Canonical := by
  induction l generalizing s with
  | nil => exact h
  | cons x t ih => exact ih (h.congr (by simp))

theorem doOpen_canonical {s : State} {d : Datagram} (h : s.Canonical) : (doOpen s d).Canonical := by
  unfold doOpen
  refine ite_canonical ?_ h
  have h1 : (dropSession s d.session).Canonical := dropSession_canonical h
  exact sendHeld_canonical (h1.congr (by simp))

theorem takePart_canonical {s : State} {n p : Nat} {body : List Byte} (h : s.Canonical) : (takePart s n p body).Canonical :=
  ite_canonical (h.congr (by simp)) (acceptEntry_canonical (h.congr (by simp)))

theorem doSubmit_canonical {s : State} {d : Datagram} (h : s.Canonical) : (doSubmit s d).Canonical := by
  unfold doSubmit
  refine ite_canonical (h.congr (by simp)) ?_
  refine ite_canonical h ?_
  refine withDatagram_canonical h (fun _ h1 => ?_)
  split
  · exact h1
  · exact ite_canonical h1 (takePart_canonical h1)

theorem storeImage_canonical {s : State} {n : Nat} {body : List Byte} (h : s.Canonical) : (storeImage s n body).Canonical := by
  unfold storeImage
  exact h.congr (by simp)

theorem doInvalidDatagram_canonical {s : State} {d : Datagram} (h : s.Canonical) : (doInvalidDatagram s d).Canonical :=
  ite_canonical (eventOnce_canonical (fun _ h1 => writeEvent_canonical h1) h) h

theorem doAckTimer_canonical {s : State} {n : Nat} (h : s.Canonical) : (doAckTimer s n).Canonical :=
  ite_canonical (h.congr (by simp)) h

theorem resendDue_canonical {n now : Nat} {l : List Unacked} {s : State} (h : s.Canonical) : (resendDue n now l s).Canonical := by
  induction l generalizing s with
  | nil => exact h
  | cons x t ih =>
    rw [resendDue]
    exact ite_canonical (ih (h.congr (by simp))) (ih h)

theorem sessionLost_canonical {s : State} {n : Nat} (h : s.Canonical) : (sessionLost s n).Canonical :=
  writeEvent_canonical (dropSession_canonical h)

theorem doResend_canonical {s : State} {n : Nat} (h : s.Canonical) : (doResend s n).Canonical :=
  ite_canonical h (ite_canonical (sessionLost_canonical h) (resendDue_canonical h))

theorem doEthLink_canonical {s : State} {port : Nat} {up : Bool} (h : s.Canonical) : (doEthLink s port up).Canonical :=
  ite_canonical (rangerEvent_canonical (h.congr (by simp))) h

theorem learnNeighbour_canonical {s : State} {a : List Byte} (h : s.Canonical) : (learnNeighbour s a).Canonical :=
  ite_canonical h (h.congr (by simp))

theorem doIcmp_canonical {s : State} {m : IcmpMessage} (h : s.Canonical) : (doIcmp s m).Canonical := by
  unfold doIcmp
  split
  · exact h
  · refine ite_canonical h ?_
    refine ite_canonical (h.congr (by simp)) ?_
    refine ite_canonical (ite_canonical (send_canonical (learnNeighbour_canonical h)) h) ?_
    exact ite_canonical (learnNeighbour_canonical h) (ite_canonical (h.congr (by simp)) h)

theorem doSpdm_canonical {s : State} {r : SpdmRequest} (h : s.Canonical) : (doSpdm s r).Canonical :=
  ite_canonical h (ite_canonical (h.congr (by simp)) (ite_canonical (h.congr (by simp)) (ite_canonical (h.congr (by simp)) (h.congr
      (by simp)))))

end Sys2Proof.Machine
end

section
/-! SUPPORT. O4: memory and scratchpads stay canonical under the memory system's own rows (R237, R239). -/

namespace Sys2Proof.Machine

theorem dropRange_canonical {s : State} {p a : Nat} (h : s.Canonical) : (dropRange s p a).Canonical := by
  unfold dropRange
  exact h.congr (by simp)

theorem loseWarm_canonical {s : State} {p n : Nat} (h : s.Canonical) : (loseWarm s p n).Canonical := by
  unfold loseWarm
  dsimp only
  split
  · exact putPage_canonical (dropRange_canonical h)
  · exact ite_canonical (freePage_canonical (putPage_canonical (dropRange_canonical h))) (putPage_canonical (dropRange_canonical h))
  · exact pageLost_canonical (putPage_canonical (dropRange_canonical h))
  · exact pageLost_canonical (freeRange_canonical (putPage_canonical (dropRange_canonical h)))
  · exact h

theorem loseWarms_canonical {q p : Nat} {l : List Nat} {s : State} (h : s.Canonical) : (loseWarms q p l s).Canonical := by
  induction l generalizing s with
  | nil => exact h
  | cons x t ih => exact ih (ite_canonical (loseWarm_canonical h) h)

theorem loseAllWarm_canonical {q : Nat} {l : List Nat} {s : State} (h : s.Canonical) : (loseAllWarm q l s).Canonical := by
  induction l generalizing s with
  | nil => exact h
  | cons x t ih => exact ih (loseWarms_canonical h)

theorem doPortLost_canonical {s : State} {q : Nat} (h : s.Canonical) : (doPortLost s q).Canonical :=
  ite_canonical (loseAllWarm_canonical (rangerEvent_canonical (h.congr (by simp [onPort])))) h

theorem scrubBad_canonical {s : State} {da : Nat} {address : Bool} {content : HbmContent} {poison : Bool} (h : s.Canonical) :
    (scrubBad s da address content poison).Canonical :=
  contentBad_canonical (hbmBad_canonical h)

theorem doPatrolScrub_canonical {s : State} {da : Nat} {errors : List (BitVec 16)} {content : HbmContent} {poison : Bool} (h : s.Canonical) :
    (doPatrolScrub s da errors content poison).Canonical := by
  unfold doPatrolScrub
  dsimp only
  split
  · exact h
  · exact hbmCorrected_canonical h.pokeBytes
  · exact scrubBad_canonical h
  · exact scrubBad_canonical h

theorem stackHot_canonical {s : State} {k : Nat} {t : Int} (h : s.Canonical) : (stackHot s k t).Canonical :=
  ite_canonical h (rangerEvent_canonical (h.congr (by simp)))

theorem stackRestore_canonical {s : State} {d : Nat} (h : s.Canonical) : (stackRestore s d).Canonical :=
  ite_canonical (ite_canonical (h.congr (by simp)) (h.congr (by simp))) h

theorem doStackReading_canonical {s : State} {k : Nat} {t : Int} (h : s.Canonical) : (doStackReading s k t).Canonical := by
  unfold doStackReading
  refine stackRestore_canonical ?_
  refine ite_canonical ?_ ?_
  · refine stackHot_canonical ?_
    refine ite_canonical (ite_canonical (h.congr (by simp)) (rangerEvent_canonical (h.congr (by simp)))) ?_
    exact rangerEvent_canonical (ite_canonical (h.congr (by simp)) (rangerEvent_canonical (h.congr (by simp))))
  · refine ite_canonical (ite_canonical (h.congr (by simp)) (rangerEvent_canonical (h.congr (by simp)))) ?_
    exact rangerEvent_canonical (ite_canonical (h.congr (by simp)) (rangerEvent_canonical (h.congr (by simp))))

theorem doRetentionClose_canonical {s : State} {u : Nat} (h : s.Canonical) : (doRetentionClose s u).Canonical :=
  ite_canonical (h.congr (by simp [putUnit])) h

theorem doRetentionEntered_canonical {s : State} {u : Nat} (h : s.Canonical) : (doRetentionEntered s u).Canonical :=
  ite_canonical h (ite_canonical (h.congr (by simp [putUnit])) (ite_canonical (h.congr (by simp [putUnit])) (h.congr (by simp [putUnit]))))

theorem doWakeDone_canonical {s : State} {u : Nat} (h : s.Canonical) : (doWakeDone s u).Canonical :=
  ite_canonical (h.congr (by simp [putUnit])) h

theorem execFreedRangeScrubbed_canonical {index : Nat} {s : State} (h : s.Canonical) : AnswerCanonical (execFreedRangeScrubbed index s) := by
  unfold execFreedRangeScrubbed
  split
  · exact h
  · exact h.store ⟨memWf_zeroRange _ _ h.1, rfl⟩

theorem restorePair_canonical {s : State} {pair : Nat} (h : s.Canonical) : (restorePair s pair).Canonical := by
  unfold restorePair
  exact h.congr (by simp)

theorem doLockstep_canonical {s : State} {pair : Nat} {f : BootFindings} (h : s.Canonical) : (doLockstep s pair f).Canonical := by
  unfold doLockstep
  refine ite_canonical (startUp_canonical) ?_
  exact rerunAll_canonical (restorePair_canonical (rangerEvent_canonical h))

theorem ringToRam_canonical {s : State} {pos : Nat} (h : s.Canonical) : (ringToRam s pos).Canonical :=
  rangerEvent_canonical (h.congr ⟨rfl, rfl⟩)

theorem openSector_canonical {s : State} {pos phys erases : Nat} (h : s.Canonical) : (openSector s pos phys erases).Canonical :=
  h.congr ⟨rfl, rfl⟩

theorem remapSector_canonical {s : State} {pos : Nat} {open_ : State → Nat → State} (h : s.Canonical)
    (hk : ∀ t, t.Canonical → ∀ a, (open_ t a).Canonical) : (remapSector s pos open_).Canonical :=
  ite_canonical (rangerEvent_canonical (hk _ (h.congr (by simp)) _)) (ringToRam_canonical h)

theorem moveHead_canonical {s : State} {phys : Nat} (h : s.Canonical) : (moveHead s phys).Canonical := by
  unfold moveHead
  exact h.congr (by simp)

theorem doSectorErase_canonical {s : State} {headOk ok : Bool} (h : s.Canonical) : (doSectorErase s headOk ok).Canonical := by
  unfold doSectorErase
  refine ite_canonical h ?_
  refine ite_canonical (remapSector_canonical h (fun _ h1 _ => moveHead_canonical h1)) ?_
  exact ite_canonical h (ite_canonical (openSector_canonical h) (remapSector_canonical h (fun _ h1 _ => openSector_canonical h1)))

end Sys2Proof.Machine
end

section
/-! SUPPORT. O4: memory and scratchpads stay canonical under the load of a package (R237, R239). -/

namespace Sys2Proof.Machine

theorem writeTensors_canonical {r : PitchRecord} {l : List TensorImage} {s : State} (h : s.Canonical) : (writeTensors r l s).Canonical := by
  induction l generalizing s with
  | nil => exact h
  | cons x t ih => exact ih h.pokeBytes.pokeBytes

theorem writeCodedRegions_canonical {r : PitchRecord} {l : List CodedRegion} {s : State} (h : s.Canonical) :
    (writeCodedRegions r l s).Canonical := by
  induction l generalizing s with
  | nil => exact h
  | cons x t ih => exact ih (ite_canonical h.pokeBytes h.pokeBytes.pokeBytes)

theorem fillPersistent_canonical {r : PitchRecord} {l : List Slot} {s : State} (h : s.Canonical) : (fillPersistent r l s).Canonical := by
  induction l generalizing s with
  | nil => exact h
  | cons x t ih => exact ih (ite_canonical h.pokeBytes h)

theorem placeProgram_canonical {r : PitchRecord} {p : ProgramImage} {l : List Nat} {x : State × List LoadedProgram} (h : x.1.Canonical) :
    (placeProgram r p l x).1.Canonical := by
  induction l generalizing x with
  | nil => exact h
  | cons rel t ih =>
    obtain ⟨s, done⟩ := x
    rw [placeProgram]
    exact ih (h.sameCores rfl)

theorem placePrograms_canonical {r : PitchRecord} {l : List ProgramImage} {x : State × List LoadedProgram} (h : x.1.Canonical) :
    (placePrograms r l x).1.Canonical := by
  induction l generalizing x with
  | nil => exact h
  | cons p t ih =>
    rw [placePrograms]
    exact ih (placeProgram_canonical h)

theorem clearCommands_canonical {r : PitchRecord} {l : List Nat} {s : State} (h : s.Canonical) : (clearCommands r l s).Canonical := by
  induction l generalizing s with
  | nil => exact h
  | cons x t ih => exact ih (h.sameCores rfl)

theorem loadPackage_canonical {s : State} {r : PitchRecord} {k : PackageImage} (h : s.Canonical) : (loadPackage s r k).Canonical :=
  have hweights := writeCodedRegions_canonical (writeTensors_canonical h)
  onPitch_canonical (fillPersistent_canonical (placePrograms_canonical (clearCommands_canonical hweights)))

theorem writeBlocks_canonical {r : PitchRecord} {x : LoadedTensor} {i : TensorImage} {l : List Nat} {s : State} (h : s.Canonical) :
    (writeBlocks r x i l s).Canonical := by
  induction l generalizing s with
  | nil => exact h
  | cons x t ih => exact ih h.pokeBytes.pokeBytes

theorem restoreTensors_canonical {r : PitchRecord} {imgs : List TensorImage} {l : List LoadedTensor} {s : State} (h : s.Canonical) :
    (restoreTensors r imgs l s).Canonical := by
  induction l generalizing s with
  | nil => exact h
  | cons x t ih =>
    rw [restoreTensors]
    refine ih ?_
    split
    · exact h
    · exact writeBlocks_canonical h

theorem restoreCoded_canonical {r : PitchRecord} {imgs : List CodedRegion} {k : LoadedPackage} {l : List (Nat × Nat)} {s : State} (h : s.Canonical) :
    (restoreCoded r imgs k l s).Canonical := by
  induction l generalizing s with
  | nil => exact h
  | cons x t ih =>
    rw [restoreCoded]
    refine ih ?_
    split
    · exact h
    · exact h.pokeBytes.pokeBytes

theorem healAll_canonical {img : PackageImage} {da : Nat} {l : List Nat} {s : State} (h : s.Canonical) : (healAll img da l s).Canonical := by
  induction l generalizing s with
  | nil => exact h
  | cons x t ih => exact ih (h.congr (by simp))

theorem restoreAll_canonical {r : PitchRecord} {img : PackageImage} {l : List Nat} {s : State} (h : s.Canonical) :
    (restoreAll r img l s).Canonical := by
  induction l generalizing s with
  | nil => exact h
  | cons x t ih =>
    rw [restoreAll]
    refine ih ?_
    split
    · exact h
    · exact restoreCoded_canonical (restoreTensors_canonical h)

theorem reloadPackage_canonical {s : State} {r : PitchRecord} {k : PackageImage} (h : s.Canonical) : (reloadPackage s r k).Canonical :=
  onPitch_canonical (healAll_canonical (restoreAll_canonical h))

theorem doPackageLoad_canonical {s : State} {r : PitchRecord} {k : PackageImage} (h : s.Canonical) : (doPackageLoad s r k).Canonical := by
  unfold doPackageLoad
  refine ite_canonical h ?_
  refine ite_canonical (h.congr (by simp)) ?_
  refine ite_canonical (reloadPackage_canonical h) ?_
  split
  · exact h.congr (by simp)
  · exact loadPackage_canonical h

end Sys2Proof.Machine
end

section
/-! SUPPORT. O4: memory and scratchpads stay canonical under power and cooling (R237, R239). -/

namespace Sys2Proof.Machine

theorem restartBelow_canonical {s : State} (h : s.Canonical) : (restartBelow s).Canonical := by
  unfold restartBelow
  exact h.congr (by simp)

theorem capDies_canonical {cap : Nat} {l : List Nat} {s : State} (h : s.Canonical) : (capDies cap l s).Canonical := h.congr (by simp)

theorem inputRange_canonical {s : State} {input mv : Nat} (h : s.Canonical) : (inputRange s input mv).Canonical :=
  rangerEvent_canonical h

theorem mainLeaves_canonical {s : State} {mv : Nat} (h : s.Canonical) : (mainLeaves s mv).Canonical :=
  ite_canonical h (ite_canonical (inputRange_canonical (h.congr (by simp))) (h.congr (by simp)))

theorem doMainFailure_canonical {s : State} {mv : Nat} (h : s.Canonical) : (doMainFailure s mv).Canonical := by
  unfold doMainFailure
  refine ite_canonical (mainLeaves_canonical h) ?_
  exact ite_canonical (rangerEvent_canonical (restartBelow_canonical (capDies_canonical (mainLeaves_canonical h)))) (mainLeaves_canonical h)

theorem doMainRestored_canonical {s : State} {f : BootFindings} (h : s.Canonical) : (doMainRestored s f).Canonical := by
  unfold doMainRestored
  refine ite_canonical (ite_canonical (raiseRails_canonical (h.congr (by simp))) (h.congr (by simp))) ?_
  exact ite_canonical (rangerEvent_canonical (restartBelow_canonical (h.congr (by simp)))) (h.congr (by simp))

theorem doVinBackup_canonical {s : State} {mv : Nat} {f : BootFindings} (h : s.Canonical) : (doVinBackup s mv f).Canonical := by
  unfold doVinBackup
  refine ite_canonical h ?_
  refine ite_canonical (ite_canonical (raiseRails_canonical (h.congr (by simp))) (h.congr (by simp))) ?_
  exact ite_canonical (ite_canonical (inputRange_canonical (h.congr (by simp))) (h.congr (by simp))) h

theorem policyParks_canonical {policy : Nat} {l : List PitchRecord} {s : State} (h : s.Canonical) : (policyParks policy l s).Canonical :=
  h.congr (by simp)

theorem parkAllMarked_canonical {l : List PitchRecord} {s : State} (h : s.Canonical) : (parkAllMarked l s).Canonical := h.congr (by simp)

theorem doBackupPark_canonical {s0 : State} (h : s0.Canonical) : (doBackupPark s0).Canonical := by
  unfold doBackupPark
  dsimp only
  split
  · exact ite_canonical (parkAllMarked_canonical h) (policyParks_canonical (parkAllMarked_canonical h))
  · exact parkAllMarked_canonical h

theorem powerLimited_canonical {s : State} {die point : Nat} (h : s.Canonical) : (powerLimited s die point).Canonical :=
  eventOnce_canonical (fun _ h1 => rangerEvent_canonical h1) h

theorem doGovernorLower_canonical {s0 : State} {power power20 : Nat} (h : s0.Canonical) : (doGovernorLower s0 power power20).Canonical := by
  unfold doGovernorLower
  refine ite_canonical (h.congr (by simp)) ?_
  exact ite_canonical (powerLimited_canonical (h.congr (by simp))) (ite_canonical (powerLimited_canonical (h.congr (by simp))) (h.congr (by simp)))

theorem doGovernorRaise_canonical {s0 : State} {power : Nat} (h : s0.Canonical) : (doGovernorRaise s0 power).Canonical := by
  unfold doGovernorRaise
  dsimp only
  split
  · exact ite_canonical (h.congr (by simp)) (h.congr (by simp))
  · exact h.congr (by simp)

theorem throttleEvent_canonical {s : State} {d : Nat} (h : s.Canonical) : (throttleEvent s d).Canonical :=
  eventOnce_canonical (fun _ h1 => rangerEvent_canonical h1) h

theorem throttlePoint_canonical {s : State} {d : Nat} (h : s.Canonical) : (throttlePoint s d).Canonical := by
  unfold throttlePoint
  refine ite_canonical (throttleEvent_canonical (ite_canonical (h.congr (by simp)) (ite_canonical (h.congr (by simp)) h))) ?_
  exact ite_canonical (h.congr (by simp)) (ite_canonical (h.congr (by simp)) h)

theorem resumeSlots_canonical {l : List Nat} {s : State} (h : s.Canonical) : (resumeSlots l s).Canonical := by
  induction l generalizing s with
  | nil => exact h
  | cons x t ih =>
    rw [resumeSlots]
    refine ih ?_
    split
    · exact h
    · exact releaseBlocked_canonical h

theorem readDie_canonical {s : State} {d : Nat} {j : Int} (h : s.Canonical) : (readDie s d j).Canonical := by
  unfold readDie
  refine ite_canonical (rangerEvent_canonical (throttlePoint_canonical (h.congr (by simp)))) ?_
  exact ite_canonical (resumeSlots_canonical (throttlePoint_canonical (h.congr (by simp)))) (throttlePoint_canonical (h.congr (by simp)))

theorem readDies_canonical {l : List (List Int × Nat)} {s : State} (h : s.Canonical) : (readDies l s).Canonical := by
  induction l generalizing s with
  | nil => exact h
  | cons x t ih => exact ih (readDie_canonical h)

theorem senseDies_canonical {l : List (List Int × Nat)} {s : State} (h : s.Canonical) : (senseDies l s).Canonical := by
  induction l generalizing s with
  | nil => exact h
  | cons x t ih => exact ih (h.congr (by simp))

theorem doJunctions_canonical {s : State} {sensors : List (List Int)} (h : s.Canonical) : (doJunctions s sensors).Canonical := by
  unfold doJunctions
  refine ite_canonical (ite_canonical (senseDies_canonical h) h) ?_
  split
  · exact senseDies_canonical ((railsOff_canonical s).congr (by simp))
  · exact readDies_canonical h

theorem doCoolantHigh_canonical {s : State} {inlet : Nat} (h : s.Canonical) : (doCoolantHigh s inlet).Canonical :=
  ite_canonical (rangerEvent_canonical (h.congr (by simp))) (h.congr (by simp))

theorem doCoolantLifted_canonical {s : State} {inlet : Nat} (h : s.Canonical) : (doCoolantLifted s inlet).Canonical :=
  ite_canonical (h.congr (by simp)) (h.congr (by simp))

end Sys2Proof.Machine
end

section
/-! PROOF. O4: every step keeps device memory and the scratchpads in canonical form (R237, R239; notes/assumptions/3.md, 45.md). -/

namespace Sys2Proof.Machine

/-- Every row keeps memory and scratchpads canonical: the commands of camps through the result of the command, the others by their one operation. -/
theorem exec_canonical (c : Instr) {s : State} (h : s.Canonical) : AnswerCanonical (exec c s) := by
  cases c with
  | vauxGood => exact startUp_canonical
  | hbmTrainingDone => exact .ite (reachCheck_canonical (channelRecords_canonical (h.congr (by simp)))) h
  | linksTrained => exact .ite (doLinksTrained_canonical h) h
  | linkIdentity => exact nextIf_canonical (doLinkIdentity_canonical h)
  | configCheck => exact .ite (doConfigCheck_canonical h) h
  | capacityClearDone => exact .ite (h.congr (by simp)) h
  | groupJoin => exact execGroupJoin_canonical h
  | groupDigestRetry => exact pitchRow_canonical h (fun _ => doDigestRetry_canonical h)
  | groupJoined => exact pitchRow_canonical h (fun _ => doGroupJoined_canonical (h.congr (by simp)))
  | modReset => exact .ite startUp_canonical h
  | modelPackageLoad => exact pitchRow_canonical h (fun _ => doPackageLoad_canonical h)
  | programStart => exact execProgramStart_canonical h
  | cNop => exact runCommand_canonical h (fun _ _ h1 => doNop_canonical h1)
  | cEnd => exact runCommand_canonical h (fun _ _ h1 => doEnd_canonical h1)
  | cSetwin => exact runCommand_canonical h (fun _ _ h1 => doSetwin_canonical h1)
  | cWdog => exact runCommand_canonical h (fun _ _ h1 => doWdog_canonical h1)
  | cLoop => exact runCommand_canonical h (fun _ _ h1 => doLoop_canonical h1)
  | cFence => exact runCommand_canonical h (fun _ _ h1 => doFence_canonical h1)
  | cSlotrd => exact runCommand_canonical h (fun _ _ h1 => doSlotrd_canonical h1)
  | cSlotwr => exact runCommand_canonical h (fun _ _ h1 => doSlotwr_canonical h1)
  | cMemrd => exact runCommand_canonical h (fun _ _ h1 => doMemrd_canonical h1)
  | cMemwr => exact runCommand_canonical h (fun _ _ h1 => doMemwr_canonical h1)
  | cWstream => exact runCommand_canonical h (fun _ _ h1 => doWstream_canonical h1)
  | cTilecfg => exact runCommand_canonical h (fun _ _ h1 => doTilecfg_canonical h1)
  | cTile => exact runCommand_canonical h (fun _ _ h1 => doTile_canonical h1)
  | cVld => exact runCommand_canonical h (fun _ _ h1 => doVld_canonical h1)
  | cVst => exact runCommand_canonical h (fun _ _ h1 => doVst_canonical h1)
  | cTred => exact runCommand_canonical h (fun _ _ h1 => doTred_canonical h1)
  | cSignal => exact runCommand_canonical h (fun _ _ h1 => doSignal_canonical h1)
  | cWait => exact runCommand_canonical h (fun _ _ h1 => doWait_canonical h1)
  | cTake => exact runCommand_canonical h (fun _ _ h1 => doTake_canonical h1)
  | cTopk => exact runCommand_canonical h (fun _ _ h1 => doTopk_canonical h1)
  | cHopen => exact runCommand_canonical h (fun _ _ h1 => doHopen_canonical h1)
  | cHadd => exact runCommand_canonical h (fun _ _ h1 => doHadd_canonical h1)
  | cHclose => exact runCommand_canonical h (fun _ _ h1 => doHclose_canonical h1)
  | hashCloseMerge => exact nextIf_canonical (doHashClose_canonical h)
  | cReserved => exact runCommand_canonical h (fun _ _ _ => doReserved_canonical)
  | vNop => exact runVop_canonical h (fun _ _ h1 => vopCommand_canonical (fun _ => h1))
  | vAdd => exact runVop_canonical h (fun _ _ h1 => doFmaElem_canonical h1)
  | vMul => exact runVop_canonical h (fun _ _ h1 => doFmaElem_canonical h1)
  | vFma => exact runVop_canonical h (fun _ _ h1 => doFmaElem_canonical h1)
  | vMin => exact runVop_canonical h (fun _ _ h1 => doElem_canonical h1)
  | vMax => exact runVop_canonical h (fun _ _ h1 => doElem_canonical h1)
  | vCmpeq => exact runVop_canonical h (fun _ _ h1 => doElem_canonical h1)
  | vCmplt => exact runVop_canonical h (fun _ _ h1 => doElem_canonical h1)
  | vCmple => exact runVop_canonical h (fun _ _ h1 => doElem_canonical h1)
  | vSel => exact runVop_canonical h (fun _ _ h1 => doElem_canonical h1)
  | vCvtfi => exact runVop_canonical h (fun _ _ h1 => doElem_canonical h1)
  | vCvtif => exact runVop_canonical h (fun _ _ h1 => doElem_canonical h1)
  | vCvtbf => exact runVop_canonical h (fun _ _ h1 => doElem_canonical h1)
  | vExpx => exact runVop_canonical h (fun _ _ h1 => doElem_canonical h1)
  | vExpi => exact runVop_canonical h (fun _ _ h1 => doElem_canonical h1)
  | vScalb => exact runVop_canonical h (fun _ _ h1 => doElem_canonical h1)
  | vSumg =>
    exact runVop_canonical h fun _ _ h1 => vopCommand_canonical fun _ => withFma_canonical h1 fun _ h2 => vopRun_canonical (fun _ => rfl) h2
  | vMaxg => exact runVop_canonical h (fun _ _ h1 => vopCommand_canonical (fun _ => vopRun_canonical (fun _ => rfl) h1))
  | vLdacc => exact runVop_canonical h (fun _ _ h1 => doAcc_canonical h1)
  | vLdacca => exact runVop_canonical h (fun _ _ h1 => doAcc_canonical h1)
  | vLdaccm => exact runVop_canonical h (fun _ _ h1 => doAcc_canonical h1)
  | vReqacc =>
    refine runVop_canonical h fun _ _ h1 => vopCommand_canonical fun _ => withTiles_canonical (withFma_canonical h1 fun _ h2 => ?_)
    exact vopRun_canonical (reqaccStep_sp _) h2
  | vReqreg => exact runVop_canonical h (fun _ _ h1 => vopCommand_canonical (fun _ => vopRun_canonical (fun _ => rfl) h1))
  | vReqout => exact runVop_canonical h (fun _ _ h1 => doReqout_canonical h1)
  | vExp2 => exact runVop_canonical h (fun _ _ h1 => doFmaElem_canonical h1)
  | vRcp => exact runVop_canonical h (fun _ _ h1 => doFmaElem_canonical h1)
  | vRsq => exact runVop_canonical h (fun _ _ h1 => doFmaElem_canonical h1)
  | vRotcs =>
    refine runVop_canonical h fun _ _ h1 => vopCommand_canonical fun _ => .ite trivial (withFma_canonical h1 fun _ h2 => ?_)
    exact vopRun_canonical (fun _ => rfl) h2
  | vReserved => exact runCommand_canonical h (fun _ _ _ => doVReserved_canonical)
  | lanePass => exact .ite (.ite h (h.onCore fun k hk => by rwa [laneStep_sp])) trivial
  | runAhead => exact nextIf_canonical (doRunAhead_canonical h)
  | tileRunJoin => exact execTileRunJoin_canonical h
  | weightRefetched => exact execWeightRefetched_canonical h
  | slotFilled => exact pitchRow_canonical h (fun _ => doSlotFilled_canonical h)
  | slotDrained => exact pitchRow_canonical h (fun _ => doSlotDrained_canonical h)
  | syncTimeout => exact nextIf_canonical (doTimeout_canonical (h.congr (by simp)))
  | groupStepStart => exact pitchRow_canonical h (fun _ => startStep_canonical (h.congr (by simp)))
  | stepCloseReport => exact pitchRow_canonical h (fun _ => takeReport_canonical (h.congr (by simp)))
  | lanternSelect => exact pitchRow_canonical h (fun _ => doLantern_canonical h)
  | chunkListsReady => exact pitchRow_canonical h (fun _ => doChunkLists_canonical h)
  | pagePromotionStart => exact execPagePromotionStart_canonical h
  | pagePromotionDone => exact nextIf_canonical (doPromotionDone_canonical h)
  | pageDemotionStart => exact pitchRow_canonical h (fun _ => doDemotionStart_canonical h)
  | pageDemotionDone => exact pitchRow_canonical h (fun _ => doDemotionDone_canonical h)
  | pageRefetched => exact nextIf_canonical (doPageRefetched_canonical h)
  | stepBoundary => exact pitchRow_canonical h (fun _ => boundary_canonical (h.congr (by simp)))
  | qCreate => exact onDue_canonical (h.congr (by simp)) (fun _ h1 _ _ => doCreate_canonical h1)
  | qContinue => exact onDue_canonical (h.congr (by simp)) (fun _ h1 _ _ => doContinue_canonical h1)
  | qTruncate => exact onDue_canonical h (fun _ h1 _ _ => doTruncate_canonical h1)
  | truncationCopyDone => exact execTruncationCopyDone_canonical h
  | qFork => exact onDue_canonical h (fun _ h1 _ _ => doFork_canonical h1)
  | qPark => exact onDue_canonical h (fun _ h1 _ _ => doPark_canonical h1)
  | parkFormDone => exact execParkFormDone_canonical h
  | parkCommit => exact nextIf_canonical (doParkCommit_canonical h)
  | qResume => exact onDue_canonical h (fun _ h1 _ _ => doResume_canonical h1)
  | resumeRecordsRead => exact execResumeRecordsRead_canonical h
  | pageImport => exact nextIf_canonical (doPageImport_canonical h)
  | imageReadTimeout => exact nextIf_canonical (doReadTimeout_canonical h)
  | qStatus => exact onDue_canonical h (fun _ h1 _ _ => doStatus_canonical h1)
  | qFree => exact onDue_canonical h (fun _ h1 _ _ => doFree_canonical h1)
  | submissionDoorbell => exact nextIf_canonical (doSubmissionDoorbell_canonical h)
  | completionDoorbell => exact nextIf_canonical (doCompletionDoorbell_canonical h)
  | submissionFetch => exact nextIf_canonical (doSubmissionFetch_canonical (h.congr (by simp)))
  | mailboxPost => exact nextIf_canonical (mailWrite_canonical h)
  | collisionClear => exact .ite (.ite (h.congr (by simp)) h) trivial
  | cairnLoRead => exact .ite (.ite (h.congr (by simp)) h) trivial
  | supplyLatchClear => exact h.congr (by simp)
  | registerWrite => exact nextIf_canonical (ite_canonical (doConfigWrite_canonical h) (doRegisterWrite_canonical h))
  | ringCreate => exact nextIf_canonical (mailRun_canonical h (fun _ _ h1 => actRingCreate_canonical h1))
  | ringDestroy => exact nextIf_canonical (mailRun_canonical h (fun _ _ h1 => actRingDestroy_canonical h1))
  | attachBegin => exact nextIf_canonical (mailRun_canonical h (fun _ _ h1 => actAttachBegin_canonical h1))
  | attach => exact nextIf_canonical (mailRun_canonical h (fun _ _ h1 => actAttach_canonical h1))
  | fwWrite => exact fwRow_canonical h (fun _ _ _ _ h1 => actFwWrite_canonical h1)
  | fwVerify => exact fwRow_canonical h (fun _ _ _ _ h1 => actFwVerify_canonical h1)
  | fwActivate => exact fwRow_canonical h (fun _ _ _ _ h1 => actFwActivate_canonical h1)
  | fwDisarm => exact fwRow_canonical h (fun _ _ _ _ h1 => actFwDisarm_canonical h1)
  | fwConfirm => exact fwRow_canonical h (fun _ _ _ _ h1 => actFwConfirm_canonical h1)
  | lockWrite => exact fwRow_canonical h (fun _ _ _ _ h1 => actLockWrite_canonical h1)
  | fwStatus => exact fwRow_canonical h (fun _ _ _ _ h1 => actFwStatus_canonical h1)
  | fwArmedRestart => exact doArmedRestart_canonical (h.congr (by simp))
  | firmwareBlock => exact withPacket_canonical h (fun _ => pump_canonical (doFirmwareBlock_canonical (h.congr (by simp))))
  | functionReset => exact .ite (.ite (doFunctionReset_canonical h) h) trivial
  | functionResetDone => exact nextIf_canonical (h.congr (by simp))
  | openSession => exact doOpen_canonical (h.congr (by simp))
  | submitPart => exact doSubmit_canonical (h.congr (by simp))
  | ackMsg => exact withDatagram_canonical h (fun _ h1 => h1)
  | imageData => exact withDatagram_canonical h (fun _ h1 => ite_canonical h1 (storeImage_canonical h1))
  | invalidDatagram => exact doInvalidDatagram_canonical (h.congr (by simp))
  | ackTimer => exact doAckTimer_canonical (h.congr (by simp))
  | datagramResend => exact doResend_canonical (h.congr (by simp))
  | ethLink => exact nextIf_canonical (doEthLink_canonical h)
  | flitData => exact nextIf_canonical (doFlitData_canonical h)
  | flitIdle => exact nextIf_canonical (doFlitIdle_canonical h)
  | retryRequest => exact nextIf_canonical (doRetryRequest_canonical h)
  | linkDown => exact nextIf_canonical (doLinkDown_canonical (h.congr (by simp)))
  | linkUp => exact nextIf_canonical (doLinkUp_canonical (h.congr (by simp)))
  | linkLost => exact nextIf_canonical (doLinkLost_canonical (h.congr (by simp)))
  | slotTransfer => exact pitchRow_canonical h (fun _ => doSlotTransfer_canonical (h.congr (by simp)))
  | slotDataPacket => exact withPacket_canonical h (fun _ => doSlotData_canonical h)
  | transferResponse => exact withPacket_canonical h (fun _ => pump_canonical (doResponse_canonical (h.congr (by simp))))
  | transferResend => exact doTransferResend_canonical (h.congr (by simp))
  | managementMessage => exact withPacket_canonical h (fun _ => h.congr (by simp))
  | timeRequest => exact doTimeRequest_canonical (h.congr (by simp))
  | timeRequestReceived => exact nextIf_canonical (withTimeFrame_canonical h (fun _ h1 => doTimeAnswer_canonical h1))
  | timeResponse => exact nextIf_canonical (withTimeFrame_canonical h (fun _ h1 => doTimeResponse_canonical h1))
  | ppsEdge => exact doPpsEdge_canonical h
  | cxlLinkDown => exact .ite (.ite (h.congr (by simp [onPort])) (h.congr (by simp))) trivial
  | cxlRetrainDone => exact .ite (.ite (h.congr (by simp [onPort])) (h.congr (by simp))) trivial
  | cxlPortLost => exact nextIf_canonical (doPortLost_canonical (h.congr (by simp)))
  | patrolScrub => exact .ite trivial (rangerAccess_canonical h (fun _ h1 => doPatrolScrub_canonical h1))
  | stackTemperatureReading => exact nextIf_canonical (doStackReading_canonical (h.congr (by simp)))
  | retentionClose => exact nextIf_canonical (doRetentionClose_canonical (h.congr (by simp)))
  | retentionEntered => exact nextIf_canonical (doRetentionEntered_canonical h)
  | lateWake => exact nextIf_canonical (h.congr (by simp [lateAccess_bytes]))
  | wakeDone => exact nextIf_canonical (doWakeDone_canonical h)
  | rangerLockstep => exact nextIf_canonical (doLockstep_canonical (h.congr (by simp)))
  | sectorErase => exact doSectorErase_canonical h
  | mainFailure => exact doMainFailure_canonical (h.congr (by simp))
  | mainRestored => exact doMainRestored_canonical (h.congr (by simp))
  | powerLoss => exact .ite ((railsOff_canonical s).congr (by simp)) h
  | backupPark => exact doBackupPark_canonical (h.congr (by simp))
  | governorLower => exact doGovernorLower_canonical (h.congr (by simp))
  | governorRaise => exact doGovernorRaise_canonical (h.congr (by simp))
  | junctionReading => exact doJunctions_canonical (h.congr (by simp))
  | coolantHigh => exact doCoolantHigh_canonical (h.congr (by simp))
  | coolantCapLifted => exact doCoolantLifted_canonical (h.congr (by simp))
  | vauxLoss => exact (railsOff_canonical s).congr (by simp)
  | vinBackupOutOfRange => exact doVinBackup_canonical h
  | vddCoreGood => exact .ite (h.congr (by simp)) h
  | arraysTested => exact .ite (.ite (doArraysTested_canonical h) h) trivial
  | freedRangeScrubbed => exact execFreedRangeScrubbed_canonical h
  | spdmRequest => exact doSpdm_canonical h
  | icmpv6Message => exact nextIf_canonical (doIcmp_canonical h)

/-- Settles O4: an empty queue lets time pass, and every row keeps memory and scratchpads canonical. That memory is a canonical list is of the model
(notes/assumptions/3.md, 45.md). -/
theorem memoryStaysCanonical : Obligations.MemoryStaysCanonical := by
  unfold Obligations.MemoryStaysCanonical
  intro s t hmem hscratch hstep
  have h := (canonical_iff s).2 ⟨hmem, hscratch⟩
  refine (canonical_iff t).1 ?_
  unfold step at hstep
  cases hqueue : s.pending with
  | nil =>
    rw [hqueue] at hstep
    cases hstep
    exact h.congr (by simp)
  | cons c rest =>
    rw [hqueue] at hstep
    exact (exec_canonical c (h.congr (by simp))).next hstep

end Sys2Proof.Machine
end


section
/-! PROOF. O50: capacity ports that fail (R258, R262). -/

namespace Sys2Proof.Machine

/-! ### Ports -/

/-- A change of one port. -/
theorem portAt_onPort {s : State} {q : Nat} (hq : q < s.mem.ports.length) (f : CapPort → CapPort) : portAt (onPort s q f) q = f (portAt s q) := by
  simp [portAt, onPort, List.getD, hq]

theorem portAt_onPort_of_ne {s : State} {q j : Nat} (h : j ≠ q) (f : CapPort → CapPort) : portAt (onPort s q f) j = portAt s j := by
  unfold portAt onPort
  cases hj : s.mem.ports[j]? with
  | none => simp [List.getD, hj]
  | some k => simp [List.getD, hj, h]

/-! ### Freed places -/

/-- Of the memory state, nothing changes but the ranges that wait for their scrub. -/
def ScrubsOnly (s t : State) : Prop := t.mem = { s.mem with scrub := t.mem.scrub }

theorem ScrubsOnly.of_mem {s t : State} (h : t.mem = s.mem) : ScrubsOnly s t := by
  unfold ScrubsOnly
  rw [h]

theorem ScrubsOnly.trans {s t u : State} (h₁ : ScrubsOnly s t) (h₂ : ScrubsOnly t u) : ScrubsOnly s u := by
  unfold ScrubsOnly at *
  rw [h₂, h₁]

theorem ScrubsOnly.then_mem {s t u : State} (h : ScrubsOnly s t) (hu : u.mem = t.mem) : ScrubsOnly s u := h.trans (.of_mem hu)

theorem ScrubsOnly.portAt {s t : State} (h : ScrubsOnly s t) (q : Nat) : portAt t q = portAt s q := by
  unfold Machine.portAt
  rw [h]

theorem freeRange_scrubsOnly (s : State) (p a : Nat) : ScrubsOnly s (freeRange s p a) := by
  unfold freeRange
  split
  · rfl
  · rfl

theorem freeIf_scrubsOnly (s : State) (p a : Nat) : ScrubsOnly s (freeIf s p a) := by
  unfold freeIf
  split
  · rfl
  · exact freeRange_scrubsOnly s p a

theorem freePage_scrubsOnly (s : State) (p n : Nat) : ScrubsOnly s (freePage s p n) := by
  let g := pageOf s p n
  have hplaces : ScrubsOnly s (freeIf (freeIf (freeIf s p g.hot) p g.warm) p g.summaryAt) :=
    ((freeIf_scrubsOnly s p g.hot).trans (freeIf_scrubsOnly _ p g.warm)).trans (freeIf_scrubsOnly _ p g.summaryAt)
  exact hplaces.then_mem rfl

theorem freePages_scrubsOnly (p : Nat) (l : List Nat) (s : State) : ScrubsOnly s (freePages p l s) := by
  induction l generalizing s with
  | nil => rfl
  | cons n l ih => exact (freePage_scrubsOnly s p n).trans (ih _)

theorem holdAtBoundary_scrubsOnly (s : State) (i cause result : Nat) : ScrubsOnly s (holdAtBoundary s i cause result) := by
  have hpages := freePages_scrubsOnly (seqOf s i).pitch ((seqOf s i).layers.map (·.pendingPages)).flatten s
  exact hpages.then_mem (by simp [holdAtBoundary, discardAppends])

theorem holdAllAtBoundary_scrubsOnly (cause result : Nat) (l : List Nat) (s : State) : ScrubsOnly s (holdAllAtBoundary cause result l s) := by
  induction l generalizing s with
  | nil => rfl
  | cons i l ih => exact (holdAtBoundary_scrubsOnly s i cause result).trans (ih _)

theorem pageLost_scrubsOnly (s : State) (p n copy code : Nat) : ScrubsOnly s (pageLost s p n copy code) := by
  unfold pageLost
  dsimp only
  split
  · exact freePage_scrubsOnly s p n
  · exact (ScrubsOnly.of_mem (by simp)).trans (holdAllAtBoundary_scrubsOnly _ _ _ _)

/-! ### Warm copies of a lost port -/

theorem loseWarm_scrubsOnly (s : State) (p n : Nat) : ScrubsOnly s (loseWarm s p n) := by
  have hrange (a : Nat) (g : Page) : ScrubsOnly s (putPage (dropRange s p a) p n g) := .of_mem (by simp [dropRange])
  unfold loseWarm
  dsimp only
  split
  · exact hrange _ _
  · split
    · exact (hrange _ _).trans (freePage_scrubsOnly _ p n)
    · exact hrange _ _
  · exact (hrange _ _).trans (pageLost_scrubsOnly _ p n _ _)
  · exact ((hrange _ _).trans (freeRange_scrubsOnly _ p _)).trans (pageLost_scrubsOnly _ p n _ _)
  · rfl

theorem loseWarms_scrubsOnly (q p : Nat) (l : List Nat) (s : State) : ScrubsOnly s (loseWarms q p l s) := by
  induction l generalizing s with
  | nil => rfl
  | cons n l ih =>
    rw [loseWarms]
    refine ScrubsOnly.trans ?_ (ih _)
    split
    · exact loseWarm_scrubsOnly s p n
    · rfl

theorem loseAllWarm_scrubsOnly (q : Nat) (l : List Nat) (s : State) : ScrubsOnly s (loseAllWarm q l s) := by
  induction l generalizing s with
  | nil => rfl
  | cons p l ih => exact (loseWarms_scrubsOnly q p _ s).trans (ih _)

/-- No page of any pitch has its warm copy on the port. -/
def PortUnused (s : State) (q : Nat) : Prop :=
  ∀ p n, (pageOf s p n).warm = 0 ∨ pitchDa s p (pageOf s p n).warm < portBase q ∨ portBase (q + 1) ≤ pitchDa s p (pageOf s p n).warm

theorem loseWarms_unused {s : State} {q : Nat} (h : PortUnused s q) (p : Nat) (l : List Nat) : loseWarms q p l s = s := by
  induction l with
  | nil => rfl
  | cons n l ih =>
    have hcase := h p n
    rw [loseWarms, if_neg (by omega), ih]

theorem loseAllWarm_unused {s : State} {q : Nat} (h : PortUnused s q) (l : List Nat) : loseAllWarm q l s = s := by
  induction l with
  | nil => rfl
  | cons p l ih => rw [loseAllWarm, loseWarms_unused h, ih]

/-- Whether a port is used depends on the configuration and the pitches. -/
theorem PortUnused.congr {s t : State} {q : Nat} (h : PortUnused s q) (hcfg : t.cfg = s.cfg) (hpitches : t.pitches = s.pitches) : PortUnused t q := by
  have hpage (p n : Nat) : pageOf t p n = pageOf s p n := by simp only [pageOf, pitchOf, hpitches]
  have hda (p a : Nat) : pitchDa t p a = pitchDa s p a := by simp only [pitchDa, recordOf, daOf, translate, hcfg]
  intro p n
  rw [hpage, hda]
  exact h p n

/-! ### The rows -/

theorem portOk_of_lt {q : Nat} (h : q < 8) : portOk q = true := decide_eq_true h

theorem portOverdue_iff (s : State) {k : CapPort} {d : Nat} (h : k.downSince = some d) : portOverdue s k = true ↔ d + 100000000 < s.cairn.count := by
  rw [portOverdue, h, Option.all_some, decide_eq_true_iff]

theorem exec_cxlLinkDown {s : State} {q : Nat} (now : Nat) (hq : q < 8) (hup : (portAt s q).state = .up) :
    exec (.cxlLinkDown q now) s
      = .next (onPort (atTime s now) q fun k => { k with state := .retraining, downSince := some (atTime s now).cairn.count }) := by
  change execCxlLinkDown q now s = _
  rw [execCxlLinkDown, if_pos (portOk_of_lt hq), if_pos hup]

theorem exec_cxlRetrainDone {s : State} {q now d : Nat} (hq : q < 8) (hstate : (portAt s q).state = .retraining) (hdown : (portAt s q).downSince = some d)
    (hsoon : (atTime s now).cairn.count ≤ d + 100000000) :
    exec (.cxlRetrainDone q now) s = .next (onPort (atTime s now) q fun k => { k with state := .up, downSince := none }) := by
  have hdue : portOverdue (atTime s now) (portAt s q) = false := Bool.eq_false_iff.2 fun h => absurd ((portOverdue_iff _ hdown).1 h) (Nat.not_lt.2 hsoon)
  change execCxlRetrainDone q now s = _
  rw [execCxlRetrainDone, if_pos (portOk_of_lt hq), if_pos ⟨hstate, hdue⟩]

/-- The port is marked as lost, and that is recorded (R262). -/
def portMarkedLost (s : State) (q : Nat) : State :=
  rangerEvent (onPort s q fun k => { k with state := .lost }) 0x05 0x0705 noPitch (memDetail 0 3 q 0 noPosition 0)

theorem portMarkedLost_mem (s : State) (q : Nat) : (portMarkedLost s q).mem = (onPort s q fun k => { k with state := .lost }).mem := by
  simp [portMarkedLost]

theorem portMarkedLost_keeps (s : State) (q : Nat) : (portMarkedLost s q).cfg = s.cfg ∧ (portMarkedLost s q).pitches = s.pitches
    ∧ (portMarkedLost s q).seqs = s.seqs ∧ (portMarkedLost s q).mem.bytes = s.mem.bytes := by
  simp [portMarkedLost, onPort]

theorem exec_cxlPortLost {s : State} {q now d : Nat} (hq : q < 8) (hstate : (portAt s q).state = .retraining) (hdown : (portAt s q).downSince = some d)
    (hlate : d + 100000000 < (atTime s now).cairn.count) :
    let u := portMarkedLost (atTime s now) q
    exec (.cxlPortLost q now) s = .next (loseAllWarm q (u.pitches.map (·.1)) u) := by
  have hdue : portOverdue (atTime s now) (portAt s q) = true := (portOverdue_iff _ hdown).2 hlate
  change execCxlPortLost q now s = _
  rw [execCxlPortLost, if_pos (portOk_of_lt hq), doPortLost, if_pos ⟨hstate, hdue⟩]
  rfl

theorem portMarkedLost_written (s : State) (q : Nat) : (portMarkedLost s q).ev.written = (s.ev.written + 1) % 2 ^ 32 :=
  (writeEvent_log _ _ _ _ _ _).2.1

/-! ### O50 -/

/-- Settles O50: each row changes its port alone by `portAt_onPort`; a lost port changes no pitch where no warm copy lies on it, by `loseAllWarm_unused`. -/
theorem capacityPortsGoDownAndReturn : Obligations.CapacityPortsGoDownAndReturn := by
  unfold Obligations.CapacityPortsGoDownAndReturn
  intro s q now hq hlen
  dsimp only
  have hat (f : CapPort → CapPort) : portAt (onPort (atTime s now) q f) q = f (portAt s q) := portAt_onPort (s := atTime s now) hlen f
  have hne (f : CapPort → CapPort) (j : Nat) (hj : j ≠ q) : portAt (onPort (atTime s now) q f) j = portAt s j :=
    portAt_onPort_of_ne (s := atTime s now) hj f
  refine ⟨fun hup => ⟨_, exec_cxlLinkDown now hq hup, hat _, hne _, rfl⟩, fun d hstate hdown => ⟨fun hsoon => ?_, fun hlate => ?_⟩⟩
  · exact ⟨_, exec_cxlRetrainDone hq hstate hdown hsoon, hat _, hne _, rfl⟩
  · have hlost (l : List Nat) (j : Nat) : portAt (loseAllWarm q l (portMarkedLost (atTime s now) q)) j
        = portAt (onPort (atTime s now) q fun k => { k with state := .lost }) j :=
      ((loseAllWarm_scrubsOnly q _ _).portAt j).trans ((ScrubsOnly.of_mem (portMarkedLost_mem _ q)).portAt j)
    refine ⟨_, exec_cxlPortLost hq hstate hdown hlate, (hlost _ q).trans (hat _), fun j hj => (hlost _ j).trans (hne _ j hj), fun hunused => ?_⟩
    obtain ⟨hcfg, hpitches, hseqs, hbytes⟩ := portMarkedLost_keeps (atTime s now) q
    rw [loseAllWarm_unused (PortUnused.congr hunused hcfg hpitches)]
    exact ⟨hpitches, hseqs, hbytes, portMarkedLost_written _ q⟩

end Sys2Proof.Machine
end

section
/-! PROOF. O52: stack temperatures (R247, R248) and retention (R259 to R261). -/

namespace Sys2Proof.Machine

/-! ### Refresh and throttle -/

theorem nextMult_hot (m : Nat) {t : Int} (h : 16 * 95 ≤ t) : nextMult m t = 4 := by
  unfold nextMult
  dsimp only
  rw [if_pos h]
  split
  · rfl
  · split <;> rfl

theorem nextMult_cooling (m : Nat) {t : Int} (hlow : 16 * 92 < t) (hhigh : t < 16 * 95) : nextMult m t = if m = 4 then 4 else 2 := by
  unfold nextMult
  dsimp only
  rw [if_neg (by omega), if_pos (by omega)]
  by_cases h : m = 4
  · rw [if_pos ⟨h, hlow⟩, if_pos h]
    rfl
  · rw [if_neg (by tauto), if_neg h]
    split <;> rfl

theorem nextMult_warm (m : Nat) {t : Int} (hlow : 16 * 85 ≤ t) (hhigh : t ≤ 16 * 92) : nextMult m t = 2 := by
  unfold nextMult
  dsimp only
  rw [if_neg (by omega), if_pos hlow, if_neg (by omega)]
  split <;> rfl

theorem nextMult_mild (m : Nat) {t : Int} (hlow : 16 * 82 < t) (hhigh : t < 16 * 85) : nextMult m t = if 2 ≤ m then 2 else 1 := by
  unfold nextMult
  dsimp only
  rw [if_neg (by omega), if_neg (by omega), if_neg (by omega)]
  by_cases h : 2 ≤ m
  · rw [if_pos ⟨h, hlow⟩, if_pos h]
    rfl
  · rw [if_neg (by tauto), if_neg h]
    rfl

theorem nextMult_cool (m : Nat) {t : Int} (h : t ≤ 16 * 82) : nextMult m t = 1 := by
  unfold nextMult
  dsimp only
  rw [if_neg (by omega), if_neg (by omega), if_neg (by omega), if_neg (by omega)]
  rfl

theorem nextThrottle_hot (on : Bool) {t : Int} (h : 16 * 105 ≤ t) : nextThrottle on t = true := by
  simp [nextThrottle, show 1680 ≤ t by omega]

theorem nextThrottle_between (on : Bool) {t : Int} (hlow : 16 * 102 < t) (hhigh : t < 16 * 105) : nextThrottle on t = on := by
  simp [nextThrottle, show ¬ 1680 ≤ t by omega, show 1632 < t by omega]

theorem nextThrottle_cool (on : Bool) {t : Int} (h : t ≤ 16 * 102) : nextThrottle on t = false := by
  simp [nextThrottle, show ¬ 1680 ≤ t by omega, show ¬ 1632 < t by omega]

/-! ### A reading -/

/-- Memory and pitches are the same. -/
def SameMemory (s t : State) : Prop := t.mem = s.mem ∧ t.pitches = s.pitches

theorem SameMemory.trans {s t u : State} (h₁ : SameMemory s t) (h₂ : SameMemory t u) : SameMemory s u :=
  ⟨h₂.1.trans h₁.1, h₂.2.trans h₁.2⟩

theorem SameMemory.ite {p : Prop} [Decidable p] {s t u : State} (ht : SameMemory s t) (hu : SameMemory s u) : SameMemory s (if p then t else u) := by
  split
  · exact ht
  · exact hu

theorem rangerEvent_sameMemory (s : State) (cls code pitch : Nat) (detail : List Byte) : SameMemory s (rangerEvent s cls code pitch detail) :=
  ⟨by simp, by simp⟩

theorem stackHot_sameMemory (s : State) (k : Nat) (t : Int) : SameMemory s (stackHot s k t) := by
  unfold stackHot
  exact .ite ⟨rfl, rfl⟩ ⟨by simp, by simp⟩

theorem stackRestore_sameMemory (s : State) (d : Nat) : SameMemory s (stackRestore s d) := by
  unfold stackRestore
  exact .ite (.ite ⟨by simp, by simp⟩ ⟨by simp, by simp⟩) ⟨rfl, rfl⟩

/-- A stack after a reading. -/
def stackRead (old : Stack) (t : Int) (count : Nat) : Stack :=
  ⟨t, nextMult old.mult t, nextThrottle old.throttle t, if t ≤ 16 * 97 then some (old.coolSince.getD count) else none⟩

/-- Of memory and the pitches, a reading changes its stack; besides it may be recorded, and move the operating point of the die. -/
theorem doStackReading_sameMemory (s : State) (k : Nat) (t : Int) :
    SameMemory { s with mem := { s.mem with
        hbmStacks := s.mem.hbmStacks.set k (stackRead (s.mem.hbmStacks.getD k Stack.reset) t s.cairn.count) } } (doStackReading s k t) := by
  unfold doStackReading
  have hif (p : Prop) [Decidable p] (u v : State) (h : SameMemory u v) : SameMemory u (if p then u else v) := .ite ⟨rfl, rfl⟩ h
  refine SameMemory.trans ?_ ((SameMemory.ite (stackHot_sameMemory _ k t) ⟨rfl, rfl⟩).trans (stackRestore_sameMemory _ _))
  exact (hif _ _ _ (rangerEvent_sameMemory _ _ _ _ _)).trans (hif _ _ _ (rangerEvent_sameMemory _ _ _ _ _))

theorem exec_stackTemperatureReading {k : Nat} (hk : k < 16) (s : State) (temp : Int) (now : Nat) :
    exec (.stackTemperatureReading k temp now) s = .next (doStackReading (atTime s now) k temp) :=
  if_pos (decide_eq_true hk)

/-! ### Units -/

/-- Unit `u` has become `y`, and every other unit is as it was. -/
def UnitMoved (s t : State) (u : Nat) (y : RetUnit) : Prop := unitAt t u = y ∧ ∀ v, v ≠ u → unitAt t v = unitAt s v

theorem putUnit_moved (s : State) (u : Nat) (y : RetUnit) : UnitMoved s (putUnit s u y) u y :=
  ⟨unitAt_putUnit s u y, fun _ hv => unitAt_putUnit_of_ne s y hv⟩

/-- The unit has been moved by an access that came late, and that is counted (R261). -/
theorem countLate_counts (s : State) (u : Nat) (y : RetUnit) :
    UnitMoved s (countLate (putUnit s u y) u) u y
      ∧ mgetD (countLate (putUnit s u y) u).mem.late (lateCounter u) 0 = mgetD s.mem.late (lateCounter u) 0 + 1 :=
  ⟨putUnit_moved s u y, mgetD_mset_same _ _ _ _⟩

theorem idleLong_iff (s : State) (u : Nat) :
    idleLong s u = true ↔ (unitAt s u).last + (if u < 8192 then 10000 else 100000) ≤ s.cairn.count := by
  simp [idleLong, idleNs, isBank]

section
variable {s : State} {u : Nat}

theorem lateAccess_active (h : (unitAt s u).state = .active) : lateAccess s u = s := by simp only [lateAccess, h]

theorem lateAccess_draining (h : (unitAt s u).state = .draining) :
    lateAccess s u = countLate (putUnit s u { unitAt s u with state := .active, last := s.cairn.count }) u := by simp only [lateAccess, h]

theorem lateAccess_retained (h : (unitAt s u).state = .retained) :
    lateAccess s u = countLate (putUnit s u { unitAt s u with state := .waking, waiting := 1 }) u := by simp only [lateAccess, h]

theorem lateAccess_waking (h : (unitAt s u).state = .waking) :
    lateAccess s u = countLate (putUnit s u { unitAt s u with waiting := (unitAt s u).waiting + 1 }) u := by simp only [lateAccess, h]

end

/-! ### The rows of a unit -/

section
variable {s : State} {u : Nat} (hu : u < 8704)
include hu

theorem exec_retentionClose (now : Nat) : exec (.retentionClose u now) s = .next (doRetentionClose (atTime s now) u) := if_pos (decide_eq_true hu)

theorem exec_retentionEntered : exec (.retentionEntered u) s = .next (doRetentionEntered s u) := if_pos (decide_eq_true hu)

theorem exec_lateWake : exec (.lateWake u) s = .next (lateAccess s u) := if_pos (decide_eq_true hu)

theorem exec_wakeDone : exec (.wakeDone u) s = .next (doWakeDone s u) := if_pos (decide_eq_true hu)

end

/-! ### Retention that is entered, or not (R259, R260) -/

section
variable {s : State} {u : Nat} (hstate : (unitAt s u).state = .draining)
include hstate

theorem doRetentionEntered_retains (hmay : mayRetain s u = true) (hnone : admitted s u = 0) :
    doRetentionEntered s u = putUnit s u { unitAt s u with state := .retained, inFlight := 0 } := by
  simp [doRetentionEntered, hstate, hmay, hnone]

theorem doRetentionEntered_waits (hmay : mayRetain s u = true) (hsome : 0 < admitted s u) :
    doRetentionEntered s u = putUnit s u { unitAt s u with inFlight := admitted s u } := by
  simp [doRetentionEntered, hstate, hmay, Nat.ne_of_gt hsome]

theorem doRetentionEntered_returns (hmay : mayRetain s u = false) :
    doRetentionEntered s u = putUnit s u { unitAt s u with state := .active, inFlight := admitted s u } := by
  simp [doRetentionEntered, hstate, hmay]

end

/-! ### O52 -/

/-- The stack that is read, after its reading. -/
theorem stackTemperatures (s : State) (k now : Nat) (temp : Int) (hk : k < 16) (hlen : k < s.mem.hbmStacks.length) :
    ∃ t, exec (.stackTemperatureReading k temp now) s = .next t
      ∧ t.mem.hbmStacks.getD k Stack.reset = stackRead (s.mem.hbmStacks.getD k Stack.reset) temp (atTime s now).cairn.count
      ∧ (∀ j, j ≠ k → t.mem.hbmStacks[j]? = s.mem.hbmStacks[j]?) ∧ t.mem.bytes = s.mem.bytes ∧ t.pitches = s.pitches := by
  obtain ⟨hmem, hpitches⟩ := doStackReading_sameMemory (atTime s now) k temp
  refine ⟨_, exec_stackTemperatureReading hk s temp now, ?_, fun j hj => ?_, ?_, hpitches⟩
  · simp [hmem, List.getD, hlen]
  · simp [hmem, hj.symm]
  · simp [hmem]

/-- Settles O52: a reading gives `stackRead`, whose multiplier and throttle are those of `nextMult` and `nextThrottle`; and each row of a unit puts that
unit alone. -/
theorem temperaturesAndRetentionMoveTheirUnit : Obligations.TemperaturesAndRetentionMoveTheirUnit := by
  unfold Obligations.TemperaturesAndRetentionMoveTheirUnit
  refine ⟨fun s k now temp hk hlen => ?_, fun s u now hu => ?_⟩
  · dsimp only
    obtain ⟨t, hexec, hstack, hothers, hbytes, hpitches⟩ := stackTemperatures s k now temp hk hlen
    refine ⟨t, hexec, ?_, hothers, hbytes, hpitches⟩
    rw [hstack]
    exact ⟨rfl, nextMult_hot _, nextMult_cooling _, nextMult_warm _, nextMult_mild _, nextMult_cool _, nextThrottle_hot _, nextThrottle_between _,
      nextThrottle_cool _⟩
  · dsimp only
    rw [exec_retentionClose hu, exec_retentionEntered hu, exec_lateWake hu, exec_wakeDone hu]
    refine ⟨fun h hmay hidle => ⟨_, congrArg _ (if_pos ⟨h, hmay, (idleLong_iff _ u).2 hidle⟩), putUnit_moved _ u _, rfl⟩,
      fun hstays => congrArg _ (if_neg fun ⟨_, hmay, hidle⟩ => ?_), fun h => congrArg _ (lateAccess_active h),
      fun h hmay hnone => ⟨_, congrArg _ (doRetentionEntered_retains h hmay hnone), putUnit_moved s u _, rfl⟩,
      fun h hmay hsome => ⟨_, congrArg _ (doRetentionEntered_waits h hmay hsome), putUnit_moved s u _, rfl⟩,
      fun h hmay => ⟨_, congrArg _ (doRetentionEntered_returns h hmay), putUnit_moved s u _, rfl⟩,
      fun h => ⟨_, congrArg _ (lateAccess_draining h), countLate_counts s u _⟩,
      fun h => ⟨_, congrArg _ (lateAccess_retained h), countLate_counts s u _⟩,
      fun h => ⟨_, congrArg _ (lateAccess_waking h), countLate_counts s u _⟩,
      fun h => ⟨_, congrArg _ (if_pos h), putUnit_moved s u _, rfl⟩⟩
    have hlong := (idleLong_iff (atTime s now) u).1 hidle
    rcases hstays with hno | hsoon
    · exact absurd (hmay.symm.trans hno) (by decide)
    · exact absurd hlong (Nat.not_le.2 hsoon)

end Sys2Proof.Machine
end

section
/-! SUPPORT. Little-endian fields and packets (R7, R394, R395): a field reads back what it was made of, and a packet's body is the one that it was
made with. -/

namespace Sys2Proof.Machine

/-! ### Little-endian fields (R7) -/

@[simp] theorem length_leBytes (n v : Nat) : (leBytes n v).length = n := by
  induction n generalizing v with
  | zero => rfl
  | succ n ih => rw [leBytes, List.length_cons, ih]

theorem leVal_leBytes (n v : Nat) : leVal (leBytes n v) = v % 256 ^ n := by
  induction n generalizing v with
  | zero => simp [leBytes, leVal, Nat.mod_one]
  | succ n ih =>
    show v % 256 + 256 * leVal (leBytes n (v / 256)) = _
    rw [ih, pow_succ', Nat.mod_mul]

/-- A field reads back at the place where it stands. -/
theorem leAt_append (pre post : List Byte) (n v : Nat) : leAt (pre ++ (leBytes n v ++ post)) pre.length n = v % 256 ^ n := by
  rw [leAt, List.drop_left, List.take_left' (length_leBytes n v), leVal_leBytes]

/-! ### Packets (R394, R395) -/

/-- The header of a packet before its body length, and after it. -/
theorem makePacket_split (src : Nat) (padding : List Byte) (h : PacketHead) (body : List Byte) :
    ∃ pre post tail : List Byte, pre.length = 10 ∧ post.length = 20
      ∧ makePacket src padding h body = pre ++ (leBytes 2 body.length ++ (post ++ (body ++ tail))) := by
  refine ⟨leBytes 1 h.kind ++ leBytes 1 (ceilDiv (32 + body.length) 256) ++ leBytes 2 h.dest ++ leBytes 2 src ++ leBytes 2 h.group
      ++ leBytes 1 h.pitch ++ leBytes 1 ((if h.coded then 1 else 0) + (if h.last then 2 else 0)),
    leBytes 4 h.transfer ++ leBytes 4 h.slot ++ leBytes 4 h.offset ++ leBytes 4 h.stream ++ leBytes 4 0,
    padTo (256 * ceilDiv (32 + body.length) 256 - 32 - body.length) padding, by simp, by simp, ?_⟩
  simp only [makePacket, List.append_assoc]

theorem packetBody_makePacket (src : Nat) (padding : List Byte) (h : PacketHead) {body : List Byte} (hlen : body.length < 65536) :
    packetBody (makePacket src padding h body) = body := by
  obtain ⟨pre, post, tail, hpre, hpost, hpkt⟩ := makePacket_split src padding h body
  have hfield : leAt (makePacket src padding h body) 10 2 = body.length := by
    rw [hpkt, ← hpre, leAt_append]
    exact Nat.mod_eq_of_lt hlen
  have hhead : (pre ++ leBytes 2 body.length ++ post).length = 32 := by simp [hpre, hpost]
  rw [packetBody, hfield, hpkt, ← List.append_assoc, ← List.append_assoc, ← hhead, List.drop_left, List.take_left]

/-- The bodies of a stream, in order, are the stream. -/
theorem flatten_bodies {n : Nat} {bs : List Byte} (h : bs.length < 4064 * n) : (bodies n bs).flatten = bs := by
  induction n generalizing bs with
  | zero => omega
  | succ n ih =>
    rw [bodies]
    split
    · next hnil => rw [hnil, List.flatten_nil]
    · next hne =>
      rw [List.flatten_cons]
      by_cases hlast : bs.length ≤ 4064
      · have hrest : bodies n (bs.drop 4064) = [] := by
          rw [List.drop_eq_nil_of_le hlast]
          cases n <;> rfl
        rw [hrest, List.flatten_nil, List.append_nil, List.take_of_length_le hlast]
      · rw [ih (by rw [List.length_drop]; omega), List.take_append_drop]

theorem length_le_of_mem_bodies {n : Nat} {bs b : List Byte} (h : b ∈ bodies n bs) : b.length ≤ 4064 := by
  induction n generalizing bs with
  | zero => exact absurd h List.not_mem_nil
  | succ n ih =>
    rw [bodies] at h
    split at h
    · exact absurd h List.not_mem_nil
    · rcases List.mem_cons.1 h with rfl | hrest
      · exact List.length_take_le _ _
      · exact ih hrest

theorem transferPackets_bodies (s : State) (d : TransferDesc) (number : Nat) (stream padding : List Byte) :
    (transferPackets s d number stream padding).map packetBody = bodies (stream.length / 4064 + 1) stream := by
  unfold transferPackets
  dsimp only
  generalize hbs : bodies (stream.length / 4064 + 1) stream = bs
  have hbody : ∀ b ∈ bs, b.length < 65536 := fun b hb => by
    have hlen := length_le_of_mem_bodies (hbs ▸ hb)
    omega
  rw [List.map_map]
  calc bs.zipIdx.map _ = bs.zipIdx.map Prod.fst :=
        List.map_congr_left fun b hb => packetBody_makePacket _ _ _ (hbody b.1 (List.fst_mem_of_mem_zipIdx hb))
    _ = bs := List.zipIdx_map_fst 0 bs

end Sys2Proof.Machine
end

section
/-! SUPPORT. What the egress of the fabric leaves of the transfers that the module sends and has received (R387, R397, R398, R399). -/

namespace Sys2Proof.Machine

/-- From `s` to `t` the transfers stay: the next number, those that are complete, and each that is sent, but for when its last packet went out. -/
structure KeepsTransfers (s t : State) : Prop where
  next : t.fab.nextTransfer = s.fab.nextTransfer
  done : t.fab.doneTransfers = s.fab.doneTransfers
  sends : ∀ n x, mget s.fab.sends n = some x → ∃ at_, mget t.fab.sends n = some { x with lastSent := at_ }

theorem KeepsTransfers.of_eq {s t : State} (hnext : t.fab.nextTransfer = s.fab.nextTransfer) (hdone : t.fab.doneTransfers = s.fab.doneTransfers)
    (hsends : t.fab.sends = s.fab.sends) : KeepsTransfers s t :=
  ⟨hnext, hdone, fun _ x h => ⟨x.lastSent, by rw [hsends, h]⟩⟩

theorem KeepsTransfers.refl (s : State) : KeepsTransfers s s := .of_eq rfl rfl rfl

theorem KeepsTransfers.trans {s t u : State} (h₁ : KeepsTransfers s t) (h₂ : KeepsTransfers t u) : KeepsTransfers s u := by
  refine ⟨h₂.next.trans h₁.next, h₂.done.trans h₁.done, fun n x hx => ?_⟩
  obtain ⟨at₁, hx₁⟩ := h₁.sends n x hx
  obtain ⟨at₂, hx₂⟩ := h₂.sends n _ hx₁
  exact ⟨at₂, hx₂⟩

theorem noteSent_keepsTransfers (s : State) (pkt : List Byte) : KeepsTransfers s (noteSent s pkt) := by
  unfold noteSent
  split
  · split
    · exact .refl s
    · next y hy =>
      refine ⟨rfl, rfl, fun n x hx => ?_⟩
      by_cases hn : n = leAt pkt 12 4
      · subst hn
        obtain rfl := Option.some.inj (hy.symm.trans hx)
        exact ⟨s.cairn.count, mget_mset_same _ _ _⟩
      · exact ⟨x.lastSent, (mget_mset_ne _ _ hn).trans hx⟩
  · exact .refl s

theorem sendData_keepsTransfers (s : State) (l vc : Nat) (first : Bool) (payload : List Byte) :
    KeepsTransfers s (sendData s l vc first payload) := by
  unfold sendData
  split
  · exact .refl s
  · exact .of_eq rfl rfl rfl

theorem sendFlit_keepsTransfers (s : State) (y : Live) (i : Nat) : KeepsTransfers s (sendFlit s y i) := by
  unfold sendFlit
  dsimp only
  split
  · exact .of_eq rfl rfl rfl
  · refine KeepsTransfers.trans ?_ (sendData_keepsTransfers _ _ _ _ _)
    exact .of_eq rfl rfl rfl

theorem startPacket_keepsTransfers (s : State) (x : Startable) : KeepsTransfers s (startPacket s x).1 := by
  refine KeepsTransfers.trans ?_ (noteSent_keepsTransfers _ _)
  exact .of_eq rfl rfl rfl

/-- The flit that a grant's owner sends is one of a packet on its way, or the first of one that starts. -/
theorem flitOf_cases {s s1 : State} {live : List Live} {xs : List Startable} {p : Nat} {y : Live} (h : flitOf s live xs p = some (s1, y)) :
    y.owner = p ∧ (s1 = s ∨ ∃ x, s1 = (startPacket s x).1) := by
  unfold flitOf at h
  split at h
  · next hfind =>
    obtain ⟨rfl, rfl⟩ := Prod.mk.inj (Option.some.inj h)
    exact ⟨by simpa using List.find?_some hfind, .inl rfl⟩
  · obtain ⟨x, hfind, hx⟩ := Option.map_eq_some_iff.1 h
    have howner : x.owner = p := by simpa using List.find?_some hfind
    obtain ⟨rfl, rfl⟩ := Prod.mk.inj hx
    exact ⟨howner, .inr ⟨x, rfl⟩⟩

theorem pumpN_keepsTransfers (n : Nat) (live : List Live) (s : State) : KeepsTransfers s (pumpN n live s) := by
  induction n generalizing live s with
  | zero => exact .refl s
  | succ n ih =>
    unfold pumpN
    dsimp only
    split
    · exact .refl s
    · split
      · exact .refl s
      · next hflit =>
        have hrest := fun s1 y i => (sendFlit_keepsTransfers s1 y i).trans (ih (afterFlit y live) (sendFlit s1 y i))
        obtain ⟨-, rfl | ⟨x, rfl⟩⟩ := flitOf_cases hflit
        · exact hrest _ _ _
        · exact (startPacket_keepsTransfers s x).trans (hrest _ _ _)

theorem pump_keepsTransfers (s : State) : KeepsTransfers s (pump s) := pumpN_keepsTransfers _ _ s

theorem sendPackets_keepsTransfers (s : State) (port : Nat) (pkts : List (List Byte)) : KeepsTransfers s (sendPackets s port pkts) := by
  refine KeepsTransfers.trans ?_ (pump_keepsTransfers _)
  exact .of_eq rfl rfl rfl

end Sys2Proof.Machine
end

section
/-! PROOF. O45: slot transfers are cut (R395) and land (R278, R396, R397), and the egress arbiter orders what goes out (R379, R399). -/

namespace Sys2Proof.Machine

/-! ### The egress arbiter (R379, R399) -/

/-- The owner to which a grant slot goes, if it does not stay idle: its sealed owner, or the round-robin turn of the others. -/
def grantee (s : State) (owners : List Nat) (i : Nat) : Option Nat :=
  match slotOwner s i with
  | some p => if owners.contains p then some p else none
  | none => nextTurn s.fab.turn (owners.filter fun p => !isSealed s p)

theorem grantee_sealed {s : State} {i p : Nat} (h : slotOwner s i = some p) (owners : List Nat) :
    grantee s owners i = if owners.contains p then some p else none := by
  rw [grantee, h]

theorem grantee_shared {s : State} {i : Nat} (h : slotOwner s i = none) (owners : List Nat) :
    grantee s owners i = nextTurn s.fab.turn (owners.filter fun p => !isSealed s p) := by
  rw [grantee, h]

theorem grantOf_succ (s : State) (owners : List Nat) (n i : Nat) :
    grantOf s owners (n + 1) i = ((grantee s owners i).map fun p => (p, i)).or (grantOf s owners n ((i + 1) % 1000)) := by
  show (match grantee s owners i with
    | some p => some (p, i)
    | none => grantOf s owners n ((i + 1) % 1000)) = _
  cases grantee s owners i <;> rfl

/-- A slot that goes to an owner is granted at once. -/
theorem grantOf_grantee {s : State} {owners : List Nat} {i p : Nat} (h : grantee s owners i = some p) (n : Nat) :
    grantOf s owners (n + 1) i = some (p, i) := by
  rw [grantOf_succ, h]
  rfl

/-- A grant is that of a slot of the frame, to the owner to which the slot goes. -/
theorem grantOf_some {s : State} {owners : List Nat} {n i p j : Nat} (h : grantOf s owners n i = some (p, j)) (hi : i < 1000) :
    j < 1000 ∧ grantee s owners j = some p := by
  induction n generalizing i with
  | zero => exact nomatch h
  | succ n ih =>
    rw [grantOf_succ, Option.or_eq_some_iff] at h
    rcases h with hnow | ⟨-, hlater⟩
    · obtain ⟨q, hq, heq⟩ := Option.map_eq_some_iff.1 hnow
      obtain ⟨rfl, rfl⟩ := Prod.mk.inj heq
      exact ⟨hi, hq⟩
    · exact ih hlater (Nat.mod_lt _ (by decide))

theorem nextTurn_eq (last : Nat) (owners : List Nat) :
    nextTurn last owners = ((owners.filter fun p => decide (last < p)).min?).or owners.min? := by
  unfold nextTurn
  cases owners.filter fun p => decide (last < p) <;> cases owners <;> rfl

theorem nextTurn_isSome {owners : List Nat} (h : owners ≠ []) (last : Nat) : ∃ p, nextTurn last owners = some p := by
  obtain ⟨p, hp⟩ := Option.isSome_iff_exists.1 (List.isSome_min?_of_ne_nil h)
  rw [nextTurn_eq, hp]
  cases (owners.filter fun p => decide (last < p)).min? with
  | none => exact ⟨p, rfl⟩
  | some q => exact ⟨q, rfl⟩

/-- The turn goes to the lowest owner after the last, and where none follows to the lowest of all. -/
theorem nextTurn_some {last p : Nat} {owners : List Nat} (h : nextTurn last owners = some p) :
    p ∈ owners ∧ ((last < p ∧ ∀ q ∈ owners, last < q → p ≤ q) ∨ ∀ q ∈ owners, q ≤ last ∧ p ≤ q) := by
  rw [nextTurn_eq, Option.or_eq_some_iff, List.min?_eq_some_iff, List.min?_eq_some_iff, List.min?_eq_none_iff] at h
  rcases h with ⟨hmem, hleast⟩ | ⟨hnone, hmem, hleast⟩
  · obtain ⟨hp, hlast⟩ := List.mem_filter.1 hmem
    exact ⟨hp, .inl ⟨of_decide_eq_true hlast, fun q hq hlt => hleast q (List.mem_filter.2 ⟨hq, decide_eq_true hlt⟩)⟩⟩
  · refine ⟨hmem, .inr fun q hq => ⟨?_, hleast q hq⟩⟩
    simpa using List.filter_eq_nil_iff.1 hnone q hq

theorem mem_unsealed {s : State} {owners : List Nat} {q : Nat} :
    q ∈ owners.filter (fun p => !isSealed s p) ↔ q ∈ owners ∧ isSealed s q = false := by
  simp

/-- A grant goes to an owner of a waiting packet: to the sealed owner of its slot, or in turn to one that is not sealed. -/
theorem grantOf_spec {s : State} {owners : List Nat} {n i p j : Nat} (h : grantOf s owners n i = some (p, j)) (hi : i < 1000) :
    p ∈ owners ∧ j < 1000 ∧ (∀ q, slotOwner s j = some q → p = q)
      ∧ (slotOwner s j = none → isSealed s p = false
        ∧ ((s.fab.turn < p ∧ ∀ q ∈ owners, isSealed s q = false → s.fab.turn < q → p ≤ q)
          ∨ (∀ q ∈ owners, isSealed s q = false → q ≤ s.fab.turn ∧ p ≤ q))) := by
  obtain ⟨hj, hto⟩ := grantOf_some h hi
  cases hslot : slotOwner s j with
  | some q =>
    rw [grantee_sealed hslot, Option.ite_none_right_eq_some] at hto
    obtain ⟨hmem, hq⟩ := hto
    obtain rfl := Option.some.inj hq
    exact ⟨List.contains_iff_mem.1 hmem, hj, fun _ h => Option.some.inj h, (nomatch ·)⟩
  | none =>
    rw [grantee_shared hslot] at hto
    obtain ⟨hmem, hturn⟩ := nextTurn_some hto
    obtain ⟨hp, hopen⟩ := mem_unsealed.1 hmem
    exact ⟨hp, hj, fun _ => (nomatch ·), fun _ => ⟨hopen, hturn.imp
      (fun ⟨hlt, hleast⟩ => ⟨hlt, fun q hq ho => hleast q (mem_unsealed.2 ⟨hq, ho⟩)⟩)
      (fun hall q hq ho => hall q (mem_unsealed.2 ⟨hq, ho⟩))⟩⟩

theorem grantOf_shared {s : State} {owners : List Nat} {i q : Nat} (hslot : slotOwner s i = none) (hq : q ∈ owners) (hopen : isSealed s q = false)
    (n : Nat) : ∃ p, grantOf s owners (n + 1) i = some (p, i) := by
  obtain ⟨p, hp⟩ := nextTurn_isSome (List.ne_nil_of_mem (mem_unsealed.2 ⟨hq, hopen⟩)) s.fab.turn
  exact ⟨p, grantOf_grantee ((grantee_shared hslot owners).trans hp) n⟩

theorem grantOf_sealed {s : State} {owners : List Nat} {i q : Nat} (hslot : slotOwner s i = some q) (hq : q ∈ owners) (n : Nat) :
    grantOf s owners (n + 1) i = some (q, i) :=
  grantOf_grantee ((grantee_sealed hslot owners).trans (if_pos (List.contains_iff_mem.2 hq))) n

theorem sendData_grant (s : State) (l vc : Nat) (first : Bool) (payload : List Byte) :
    (sendData s l vc first payload).fab.grant = s.fab.grant := by
  unfold sendData
  split <;> rfl

/-- A flit takes one slot. -/
theorem sendFlit_grant (s : State) (y : Live) (i : Nat) : (sendFlit s y i).fab.grant = (i + 1) % 1000 := by
  unfold sendFlit
  dsimp only
  split
  · rfl
  · exact sendData_grant _ _ _ _ _

/-! ### SLOT_TRANSFER (R395) -/

/-- The state in which a transfer has been recorded under the next number and its pitch is marked (R395). -/
def withTransfer (s : State) (r : PitchRecord) (d : TransferDesc) (pkts : List (List Byte)) : State :=
  let s1 := onPitch s r.pitch fun y => { y with sent := y.sent || y.inStep }
  { s1 with fab := { s1.fab with
      sends := mset s.fab.sends s.fab.nextTransfer ⟨r.pitch, d, pkts, s.cairn.count, 0, [], false⟩
      nextTransfer := (s.fab.nextTransfer + 1) % 2 ^ 32 } }

/-- The bytes that a transfer sends: those of the slot, coded where the descriptor says so (R278, R395). -/
def streamOf (d : TransferDesc) (raw : List Byte) : List Byte := if d.coded then encodeStream coderZeroRun false raw else raw

theorem startTransfer_eq (s : State) (r : PitchRecord) (d : TransferDesc) (raw : List Byte) :
    ∃ u pkts, u = (drawBytes s 4096).2 ∧ pkts.map packetBody = bodies ((streamOf d raw).length / 4064 + 1) (streamOf d raw)
      ∧ startTransfer s r d raw = sendPackets (withTransfer u r d pkts) d.port pkts :=
  ⟨_, _, rfl, transferPackets_bodies _ d s.fab.nextTransfer (streamOf d raw) (drawBytes s 4096).1, rfl⟩

theorem pitchOf_of_pitches {s t : State} (h : t.pitches = s.pitches) (q : Nat) : pitchOf t q = pitchOf s q := by
  rw [pitchOf, h, pitchOf]

/-- A pitch that is marked as having sent differs in that mark alone, and no other pitch differs. -/
theorem pitchOf_markedSent {s t : State} {p : Nat} (h : t.pitches = (onPitch s p fun y => { y with sent := y.sent || y.inStep }).pitches) (q : Nat) :
    pitchOf t q = { pitchOf s q with sent := (pitchOf t q).sent } := by
  rw [pitchOf_of_pitches h]
  by_cases hq : q = p
  · rw [hq, pitchOf_onPitch]
  · rw [pitchOf_onPitch_ne _ _ hq]

/-- A transfer that starts is recorded with the packets of its stream; one pitch is marked, and memory stays. -/
theorem startTransfer_spec (s : State) (r : PitchRecord) (d : TransferDesc) (raw : List Byte) :
    let t := startTransfer s r d raw
    (∃ v, mget t.fab.sends s.fab.nextTransfer = some v ∧ v.desc = d ∧ v.pitch = r.pitch ∧ v.resends = 0 ∧ v.lost = false
      ∧ v.packets.map packetBody = bodies ((streamOf d raw).length / 4064 + 1) (streamOf d raw))
    ∧ t.fab.nextTransfer = (s.fab.nextTransfer + 1) % 2 ^ 32 ∧ t.mem = s.mem
    ∧ t.pitches = (onPitch s r.pitch fun y => { y with sent := y.sent || y.inStep }).pitches := by
  obtain ⟨u, pkts, rfl, hbodies, ht⟩ := startTransfer_eq s r d raw
  intro t
  have hkeep := sendPackets_keepsTransfers (withTransfer (drawBytes s 4096).2 r d pkts) d.port pkts
  obtain ⟨at_, hat⟩ := hkeep.sends s.fab.nextTransfer _ (mget_mset_same _ _ _)
  simp only [t, ht, sendPackets_keeps]
  exact ⟨⟨_, hat, rfl, rfl, rfl, rfl, hbodies⟩, hkeep.next, rfl, rfl⟩

section
variable {s : State} {pitch now : Nat} {descriptor : List Byte} {r : PitchRecord} {x : Slot} (hpitch : pitch < 64) (hr : recordOf s pitch = some r)
  (hslot : slotOf s r (transferDesc descriptor).srcSlot = some x) (hdesc : descOk descriptor = true) (hfull : x.state = .full)
  (hin : (transferDesc descriptor).srcOffset + (transferDesc descriptor).length ≤ x.size)
  (hadmit : Admitted (atTime s now) [(slotDa s r x + (transferDesc descriptor).srcOffset, (transferDesc descriptor).length)])
include hpitch hr hslot hdesc hfull hin hadmit

/-- The row of a FULL slot whose banks admit the read: the response to what the checks find comes first, and an uncorrectable word keeps the transfer
from starting (R243). -/
theorem exec_slotTransfer (found : List Finding) :
    let a := slotDa s r x + (transferDesc descriptor).srcOffset
    let u := rangerFindings r.pitch found (touched (atTime s now) [(a, (transferDesc descriptor).length)])
    exec (.slotTransfer pitch now descriptor found) s = .next (if found.any stopsCommand then u
      else startTransfer u r (transferDesc descriptor) (peekBytes u a (transferDesc descriptor).length)) := by
  intro a u
  have hslot' : slotOf (atTime s now) r (transferDesc descriptor).srcSlot = some x := hslot
  show execSlotTransfer pitch now descriptor found s = _
  rw [execSlotTransfer, if_pos (by simpa [pitchOk] using hpitch), hr]
  dsimp only
  rw [doSlotTransfer, hslot']
  dsimp only
  rw [if_pos ⟨hdesc, hfull, hin⟩]
  exact congrArg _ (rangerAccess_admitted hadmit _)

/-- Where the checks find nothing, the transfer starts from the bytes of the slot. -/
theorem exec_slotTransfer_clean :
    let a := slotDa s r x + (transferDesc descriptor).srcOffset
    exec (.slotTransfer pitch now descriptor []) s = .next (startTransfer (touched (atTime s now) [(a, (transferDesc descriptor).length)]) r
      (transferDesc descriptor) (peekBytes s a (transferDesc descriptor).length)) := by
  have hexec := exec_slotTransfer hpitch hr hslot hdesc hfull hin hadmit []
  dsimp only at hexec
  rw [List.any_nil, if_neg Bool.false_ne_true, rangerFindings, peekBytes_touched] at hexec
  exact hexec

/-- An uncorrectable word of the slot is answered, and the fabric stays as it was. -/
theorem exec_slotTransfer_bad (n byte : Nat) : exec (.slotTransfer pitch now descriptor [.larderSlot n byte]) s
    = .next (rangerFinding (touched (atTime s now) [(slotDa s r x + (transferDesc descriptor).srcOffset, (transferDesc descriptor).length)]) r.pitch
      (.larderSlot n byte)) := by
  have hexec := exec_slotTransfer hpitch hr hslot hdesc hfull hin hadmit [.larderSlot n byte]
  have hstops : [Finding.larderSlot n byte].any stopsCommand = true := rfl
  dsimp only at hexec
  rw [if_pos hstops] at hexec
  exact hexec

end

theorem slotBad_fab (s : State) (p n : Nat) : (slotBad s p n).fab = s.fab := by
  unfold slotBad
  split
  · split <;> simp
  · simp

theorem rangerFinding_larderSlot_fab (s : State) (p n byte : Nat) : (rangerFinding s p (.larderSlot n byte)).fab = s.fab := by
  show (slotBad (larderBad { s with freeCtr := s.freeCtr + 1 } _ _ _) _ _).fab = _
  rw [slotBad_fab]
  simp

/-! ### SLOT_DATA_PACKET: which packets land (R158, R396, R397) -/

theorem exec_slotDataPacket {s : State} {pkt : List Byte} {l : Nat} (hkind : leAt pkt 0 1 = 1) (hlink : linkWith s pkt = some l) (destOffset : Nat) :
    exec (.slotDataPacket pkt destOffset) s = .next (doSlotData s l pkt destOffset) := by
  show execSlotDataPacket pkt destOffset s = _
  rw [execSlotDataPacket, withPacket, if_pos hkind, hlink]

section
variable {s : State} {pkt : List Byte} {l : Nat} (destOffset : Nat) (hnew : (leAt pkt 4 2 % 4096, leAt pkt 12 4) ∉ s.fab.doneTransfers)
include hnew

/-- A packet that names no slot of the group's pitch is foreign. -/
theorem doSlotData_noSlot (hslot : landingSlot s pkt = none) :
    ∃ p, doSlotData s l pkt destOffset = pump (fabricForeign (takePacket s l pkt) l p (leAt pkt 4 2 % 4096) (leAt pkt 12 4)) := by
  rw [doSlotData, if_neg hnew, hslot]
  exact ⟨_, rfl⟩

variable {r : PitchRecord} {x : Slot} (hslot : landingSlot s pkt = some (r, x))
include hslot

/-- A raw body that lies beyond its slot is foreign. -/
theorem doSlotData_beyond (hraw : (recvOf s pkt destOffset).coded = false)
    (hbeyond : x.size < (recvOf s pkt destOffset).destOffset + leAt pkt 20 4 + (packetBody pkt).length) :
    doSlotData s l pkt destOffset = pump (fabricForeign (takePacket s l pkt) l r.pitch (leAt pkt 4 2 % 4096) (leAt pkt 12 4)) := by
  rw [doSlotData, if_neg hnew, hslot]
  exact if_pos ⟨by simp [hraw], hbeyond⟩

/-- Another one lands once its slot can be written and its banks, channels and ports admit the write. -/
theorem doSlotData_within (hwithin : (recvOf s pkt destOffset).coded = true
      ∨ (recvOf s pkt destOffset).destOffset + leAt pkt 20 4 + (packetBody pkt).length ≤ x.size) :
    doSlotData s l pkt destOffset
      = if canWrite x then
          rangerAccess s (landingRanges s r (recvOf s pkt destOffset) x (leAt pkt 20 4) (packetBody pkt)) fun u =>
            pump (landBody (takePacket u l pkt) l r (recvOf s pkt destOffset) x (leAt pkt 20 4) (packetBody pkt))
        else s := by
  have hin : ¬(¬(recvOf s pkt destOffset).coded = true
      ∧ x.size < (recvOf s pkt destOffset).destOffset + leAt pkt 20 4 + (packetBody pkt).length) :=
    fun ⟨hraw, hbeyond⟩ => hwithin.elim hraw (Nat.not_le.2 hbeyond)
  rw [doSlotData, if_neg hnew, hslot]
  dsimp only
  rw [if_neg hin]

end

/-- A foreign packet is recorded and leaves its buffer; memory and pitches stay (R396). -/
theorem fabricForeign_spec (s : State) (l p src transfer : Nat) (pkt : List Byte) :
    let t := pump (fabricForeign (takePacket s l pkt) l p src transfer)
    t.mem = s.mem ∧ t.pitches = s.pitches ∧ t.ev.written = (s.ev.written + 1) % 2 ^ 32 := by
  intro t
  obtain ⟨-, hwritten, -⟩ := writeEvent_log (takePacket s l pkt) (srcPeer src) 0x0A 0x0109 p
    (fabricDetail l (portOfLink (takePacket s l pkt) l) src transfer 0 0)
  refine ⟨by simp [t, fabricForeign], by simp [t, fabricForeign], ?_⟩
  simp only [t, pump_keeps, fabricForeign, hwritten, takePacket_keeps]

theorem wakeUnits_bytes (us : List Nat) (s : State) : (wakeUnits us s).mem.bytes = s.mem.bytes := by
  induction us generalizing s with
  | nil => rfl
  | cons u us ih =>
    rw [wakeUnits, ih]
    split
    · exact lateAccess_bytes s u
    · rfl

/-- A row of the Ranger whose ranges are not admitted waits: at most wakes begin (R260, R261). -/
theorem rangerAccess_waits {s : State} {rs : List (Nat × Nat)} (h : ¬Admitted s rs) (k : State → State) :
    let t := rangerAccess s rs k
    t.fab = s.fab ∧ t.mem.bytes = s.mem.bytes ∧ t.pitches = s.pitches := by
  dsimp only
  unfold rangerAccess
  dsimp only
  split
  · exact ⟨rfl, rfl, rfl⟩
  · next hstalls =>
    split
    · exact ⟨by simp, wakeUnits_bytes _ _, by simp⟩
    · next hawake =>
      refine absurd ⟨Bool.eq_false_iff.2 hstalls, fun u hu => ?_⟩ h
      simpa using List.any_eq_false.1 (Bool.eq_false_iff.2 hawake) u hu

/-! ### SLOT_DATA_PACKET: what landing does (R278, R283, R284, R397) -/

/-- From `s`, whose slot the landing has made FILLING, to `t` a transfer goes on or ends: memory and the log stay, the slot has the closing write when
every byte of the stream has landed, and the transfer is then remembered as complete. -/
structure GoesOn (s t : State) (r : PitchRecord) (v : Recv) (x : Slot) : Prop where
  mem : t.mem = s.mem
  ev : t.ev = s.ev
  slot : slotOf t r v.slot = some (fillSlot x (decide (v.length ≤ contiguous v.landed)))
  done : v.length ≤ contiguous v.landed → (v.source, v.transfer) ∈ t.fab.doneTransfers

/-- A second write finds the slot as the first one did. -/
theorem fillSlot_fillSlot (x : Slot) (b c : Bool) : fillSlot (fillSlot x b) c = fillSlot x c := rfl

theorem slotOf_of_pitches {s t : State} (h : t.pitches = s.pitches) (r : PitchRecord) (n : Nat) : slotOf t r n = slotOf s r n := by
  rw [slotOf, pitchOf_of_pitches h, slotOf]

theorem mem_lastN_append {α : Type} (n : Nat) (l : List α) (a : α) : a ∈ lastN (n + 1) (l ++ [a]) := by
  simp [lastN]

theorem sendResponse_keepsTransfers (s : State) (port dest group transfer result block : Nat) :
    KeepsTransfers s (sendResponse s port dest group transfer result block) := by
  refine KeepsTransfers.trans ?_ (sendPackets_keepsTransfers _ _ _)
  exact .of_eq rfl rfl rfl

theorem sendResponse_keeps (s : State) (port dest group transfer result block : Nat) :
    let t := sendResponse s port dest group transfer result block
    t.mem = s.mem ∧ t.ev = s.ev ∧ t.pitches = s.pitches := by
  simp [sendResponse]

/-- The closing write, and the transfer among those that are complete (R278, R397). -/
theorem landed_spec (s : State) (l : Nat) (r : PitchRecord) (v : Recv) (x : Slot) :
    let t := landed s l r v x
    t.mem = s.mem ∧ t.ev = s.ev ∧ t.pitches = (putSlot s r.pitch v.slot (fillSlot x true)).pitches
      ∧ (v.source, v.transfer) ∈ t.fab.doneTransfers := by
  intro t
  have hkeep (u : State) := sendResponse_keeps (endRecv u v.source v.transfer) (portOfLink s l) v.source r.group.pitchGroup v.transfer rcDone 0
  obtain ⟨hmem, hev, hpitches⟩ := hkeep (putSlot s r.pitch v.slot (fillSlot x true))
  refine ⟨hmem, hev, hpitches, ?_⟩
  show _ ∈ (sendResponse _ _ _ _ _ _ _).fab.doneTransfers
  rw [(sendResponse_keepsTransfers _ _ _ _ _ _ _).done]
  exact List.mem_append_right _ (mem_lastN_append 255 _ _)

section
variable {s : State} {r : PitchRecord} {v : Recv} {x : Slot} (l : Nat)

theorem landedMore_short (hmore : contiguous v.landed < v.length) : landedMore s l r v x = putRecv s v := if_pos hmore

theorem landedMore_whole (hall : v.length ≤ contiguous v.landed) : landedMore s l r v x = landed (putRecv s v) l r v x :=
  if_neg (Nat.not_lt.2 hall)

theorem landedMore_mem_ev : (landedMore s l r v x).mem = s.mem ∧ (landedMore s l r v x).ev = s.ev := by
  rcases Nat.lt_or_ge (contiguous v.landed) v.length with hmore | hall
  · rw [landedMore_short l hmore]
    exact ⟨rfl, rfl⟩
  · obtain ⟨hmem, hev, -⟩ := landed_spec (putRecv s v) l r v x
    rw [landedMore_whole l hall]
    exact ⟨hmem, hev⟩

theorem landedMore_goesOn (hslot : slotOf s r v.slot = some (fillSlot x false)) : GoesOn s (landedMore s l r v (fillSlot x false)) r v x := by
  obtain ⟨hmem, hev⟩ := landedMore_mem_ev (s := s) (r := r) (v := v) (x := fillSlot x false) l
  rcases Nat.lt_or_ge (contiguous v.landed) v.length with hmore | hall
  · refine ⟨hmem, hev, ?_, fun hall => absurd hmore (Nat.not_lt.2 hall)⟩
    rw [landedMore_short l hmore, decide_eq_false (Nat.not_le.2 hmore)]
    exact hslot
  · obtain ⟨-, -, hpitches, hdone⟩ := landed_spec (putRecv s v) l r v (fillSlot x false)
    rw [← landedMore_whole l hall] at hpitches hdone
    refine ⟨hmem, hev, ?_, fun _ => hdone⟩
    rw [slotOf_of_pitches hpitches, decide_eq_true hall, fillSlot_fillSlot]
    exact slotOf_putSlot_same (s := putRecv s v) hslot _

end

theorem GoesOn.pump {s t : State} {r : PitchRecord} {v : Recv} {x : Slot} (h : GoesOn s t r v x) : GoesOn s (pump t) r v x :=
  ⟨by rw [← h.mem]; simp, by rw [← h.ev]; simp, (slotOf_of_pitches (by simp) r v.slot).trans h.slot,
    fun hall => by rw [(pump_keepsTransfers t).done]; exact h.done hall⟩

section
variable {s : State} {l : Nat} {r : PitchRecord} {v : Recv} {x : Slot} {offset : Nat} {body : List Byte}

/-- The transfer with the body of one more packet. -/
def withBody (v : Recv) (offset : Nat) (body : List Byte) : Recv := { v with landed := mset v.landed offset body }

/-- The state in which the slot of a transfer has begun to fill. -/
def filling (s : State) (r : PitchRecord) (v : Recv) (x : Slot) : State := putSlot s r.pitch v.slot (fillSlot x false)

theorem slotOf_filling (hslot : slotOf s r v.slot = some x) : slotOf (filling s r v x) r v.slot = some (fillSlot x false) :=
  slotOf_putSlot_same hslot _

theorem slotDa_filling (y : Slot) : slotDa (filling s r v x) r y = slotDa s r y := (putSlot_keepsHomes s r.pitch v.slot _).slotDa r y

/-- A raw body is put at its offset. -/
theorem landBody_raw (hslot : slotOf s r v.slot = some x) (hraw : v.coded = false) :
    GoesOn (pokeBytes (filling s r v x) (slotDa s r x + v.destOffset + offset) body) (landBody s l r v x offset body) r (withBody v offset body) x := by
  have hland : landBody s l r v x offset body = landedMore (pokeBytes (filling s r v x) (slotDa s r x + v.destOffset + offset) body) l r
      (withBody v offset body) (fillSlot x false) := if_neg (by simp [hraw])
  rw [hland]
  exact landedMore_goesOn (s := pokeBytes (filling s r v x) _ _) (v := withBody v offset body) l (slotOf_filling hslot)

/-- A body of a coded stream, of which the new blocks do not end the transfer. -/
theorem landBody_coded (hcoded : v.coded = true) {s2 : State} {v2 : Recv}
    (hblocks : landBlocks l r (fillSlot x false) (newBlocks (withBody v offset body)) (filling s r v x) (withBody v offset body) = (s2, some v2)) :
    landBody s l r v x offset body = landedMore s2 l r v2 (fillSlot x false) := by
  unfold landBody
  dsimp only
  rw [if_pos hcoded]
  unfold withBody filling at hblocks
  rw [hblocks]

variable {b : ArrivedBlock}

/-- A block that passes its checks is put decoded. -/
theorem landBlocks_good {out coded : List Byte} (hdecode : decodeBlock false b.bytes = .ok (out, coded))
    (hwithin : v.destOffset + b.out + out.length ≤ x.size) :
    landBlocks l r x [b] s v = (pokeBytes s (slotDa s r x + v.destOffset + b.out) out, some { v with done := v.done ++ [b.index] }) := by
  rw [landBlocks, hdecode]
  exact if_neg (Nat.not_lt.2 hwithin)

/-- The first failure of a block is recorded, and the block asked for again; nothing of it lands. -/
theorem landBlocks_firstBad {e : DecodeFault} (hdecode : decodeBlock false b.bytes = .error e) (hfirst : mgetD v.failed b.index 0 = 0) :
    ∃ s2 v2, landBlocks l r x [b] s v = (s2, some v2) ∧ s2.mem = s.mem ∧ s2.ev.written = (s.ev.written + 1) % 2 ^ 32 := by
  have hfailed : ∃ v2, blockFailed s l r v b e
      = (sendResponse (codecEvent s r.pitch v.source 1 e (b.bytes.take 16))
          (portOfLink s l) v.source r.group.pitchGroup v.transfer rcIntegrityFail b.index, some v2) := by
    unfold blockFailed
    rw [hfirst]
    exact ⟨_, rfl⟩
  obtain ⟨v2, hfailed⟩ := hfailed
  obtain ⟨hmem, hev, -⟩ := sendResponse_keeps (codecEvent s r.pitch v.source 1 e (b.bytes.take 16))
    (portOfLink s l) v.source r.group.pitchGroup v.transfer rcIntegrityFail b.index
  obtain ⟨-, hwritten, -⟩ := writeEvent_log s (srcPeer v.source) 0x06 (decodeCode e) r.pitch (decodeDetail 0 (b.bytes.take 16) v.source 1)
  refine ⟨_, v2, ?_, hmem.trans (by simp [codecEvent]), (congrArg EventLog.written hev).trans hwritten⟩
  rw [landBlocks, hdecode]
  dsimp only
  rw [hfailed]
  rfl

variable (hcoded : v.coded = true) (hblock : newBlocks (withBody v offset body) = [b])
include hcoded hblock

/-- The one block that a body completes is put where it belongs in the slot. -/
theorem landBody_good {out coded : List Byte} (hslot : slotOf s r v.slot = some x) (hdecode : decodeBlock false b.bytes = .ok (out, coded))
    (hwithin : v.destOffset + b.out + out.length ≤ x.size) :
    GoesOn (pokeBytes (filling s r v x) (slotDa s r x + v.destOffset + b.out) out) (landBody s l r v x offset body) r
      { withBody v offset body with done := v.done ++ [b.index] } x := by
  have hblocks := landBlocks_good (s := filling s r v x) (l := l) (r := r) (x := fillSlot x false) (v := withBody v offset body) hdecode hwithin
  rw [← hblock] at hblocks
  rw [landBody_coded hcoded hblocks, slotDa_filling]
  exact landedMore_goesOn (s := pokeBytes (filling s r v x) _ _) (v := { withBody v offset body with done := v.done ++ [b.index] }) l
    (slotOf_filling hslot)

/-- Where it fails for the first time, memory stays and a record is written. -/
theorem landBody_firstBad {e : DecodeFault} (hdecode : decodeBlock false b.bytes = .error e) (hfirst : mgetD v.failed b.index 0 = 0) :
    (landBody s l r v x offset body).mem = s.mem ∧ (landBody s l r v x offset body).ev.written = (s.ev.written + 1) % 2 ^ 32 := by
  obtain ⟨s2, v2, hblocks, hmem, hwritten⟩ :=
    landBlocks_firstBad (s := filling s r v x) (l := l) (r := r) (x := fillSlot x false) (v := withBody v offset body) hdecode hfirst
  rw [← hblock] at hblocks
  obtain ⟨hmore, hev⟩ := landedMore_mem_ev (s := s2) (r := r) (v := v2) (x := fillSlot x false) l
  rw [landBody_coded hcoded hblocks, hmore, hev]
  exact ⟨hmem, hwritten⟩

end

/-! ### SLOT_DATA_PACKET: what it leaves -/

theorem landingSlot_slotOf {s : State} {pkt : List Byte} {r : PitchRecord} {x : Slot} (h : landingSlot s pkt = some (r, x)) :
    slotOf s r (leAt pkt 16 4) = some x := by
  unfold landingSlot at h
  split at h
  · exact nomatch h
  · split at h
    · exact nomatch h
    · next hslot =>
      obtain ⟨-, heq⟩ := Option.ite_none_right_eq_some.1 h
      obtain ⟨rfl, rfl⟩ := Prod.mk.inj (Option.some.inj heq)
      exact hslot

/-- Bytes that a landing has put stand in memory, and the slot and the transfer are as the landing left them. -/
theorem GoesOn.lands {s u t : State} {r : PitchRecord} {v v' : Recv} {x : Slot} {a : Nat} {bs : List Byte} (hbytes : u.mem.bytes = s.mem.bytes)
    (h : GoesOn (pokeBytes (filling u r v x) a bs) t r v' x) :
    peekBytes t a bs.length = bs ∧ MemoryElsewhere s t a bs.length
      ∧ slotOf t r v'.slot = some (fillSlot x (decide (v'.length ≤ contiguous v'.landed)))
      ∧ (v'.length ≤ contiguous v'.landed → (v'.source, v'.transfer) ∈ t.fab.doneTransfers) := by
  have hwritten : t.mem.bytes = wrBytes s.mem.bytes a bs := by
    rw [h.mem, ← hbytes]
    rfl
  obtain ⟨hpeek, helse⟩ := written_of_bytes_eq hwritten
  exact ⟨hpeek, helse, h.slot, h.done⟩

section
variable {s : State} {pkt : List Byte} {l destOffset : Nat} {r : PitchRecord} {x : Slot}

/-- The state in which a packet that lands has left its buffer and its access has been noted. -/
def taken (s : State) (l : Nat) (pkt : List Byte) (rs : List (Nat × Nat)) : State := takePacket (touched s rs) l pkt

theorem taken_keeps (rs : List (Nat × Nat)) : (taken s l pkt rs).mem.bytes = s.mem.bytes ∧ (taken s l pkt rs).ev = s.ev
    ∧ (taken s l pkt rs).pitches = s.pitches ∧ (taken s l pkt rs).cfg = s.cfg := by
  simp [taken]

theorem slotOf_taken (rs : List (Nat × Nat)) (n : Nat) : slotOf (taken s l pkt rs) r n = slotOf s r n :=
  slotOf_of_pitches (by simp [taken]) r n

theorem slotDa_taken (rs : List (Nat × Nat)) (y : Slot) : slotDa (taken s l pkt rs) r y = slotDa s r y := by
  obtain ⟨-, -, hpitches, hcfg⟩ := taken_keeps (s := s) (l := l) (pkt := pkt) rs
  exact (KeepsHomes.of_eq hcfg hpitches).slotDa r y

variable (hkind : leAt pkt 0 1 = 1) (hlink : linkWith s pkt = some l)
  (hnew : (leAt pkt 4 2 % 4096, leAt pkt 12 4) ∉ s.fab.doneTransfers) (hslot : landingSlot s pkt = some (r, x))
include hkind hlink hnew

theorem slotDataPacket_noSlot (hnone : landingSlot s pkt = none) :
    ∃ t, exec (.slotDataPacket pkt destOffset) s = .next t ∧ t.mem = s.mem ∧ t.pitches = s.pitches
      ∧ t.ev.written = (s.ev.written + 1) % 2 ^ 32 := by
  obtain ⟨p, hp⟩ := doSlotData_noSlot (l := l) destOffset hnew hnone
  rw [exec_slotDataPacket hkind hlink, hp]
  exact ⟨_, rfl, fabricForeign_spec _ _ _ _ _ _⟩

include hslot

theorem slotDataPacket_beyond (hraw : (recvOf s pkt destOffset).coded = false)
    (hbeyond : x.size < (recvOf s pkt destOffset).destOffset + leAt pkt 20 4 + (packetBody pkt).length) :
    ∃ t, exec (.slotDataPacket pkt destOffset) s = .next t ∧ t.mem = s.mem ∧ t.pitches = s.pitches
      ∧ t.ev.written = (s.ev.written + 1) % 2 ^ 32 := by
  rw [exec_slotDataPacket hkind hlink, doSlotData_beyond destOffset hnew hslot hraw hbeyond]
  exact ⟨_, rfl, fabricForeign_spec _ _ _ _ _ _⟩

variable (hwithin : (recvOf s pkt destOffset).coded = true
  ∨ (recvOf s pkt destOffset).destOffset + leAt pkt 20 4 + (packetBody pkt).length ≤ x.size)
include hwithin

theorem slotDataPacket_closed (hwrite : canWrite x = false) : exec (.slotDataPacket pkt destOffset) s = .next s := by
  rw [exec_slotDataPacket hkind hlink, doSlotData_within destOffset hnew hslot hwithin, if_neg (by simp [hwrite])]

theorem slotDataPacket_waits (hwrite : canWrite x = true)
    (hadmit : ¬Admitted s (landingRanges s r (recvOf s pkt destOffset) x (leAt pkt 20 4) (packetBody pkt))) :
    ∃ t, exec (.slotDataPacket pkt destOffset) s = .next t ∧ t.fab = s.fab ∧ t.mem.bytes = s.mem.bytes ∧ t.pitches = s.pitches := by
  rw [exec_slotDataPacket hkind hlink, doSlotData_within destOffset hnew hslot hwithin, if_pos hwrite]
  exact ⟨_, rfl, rangerAccess_waits hadmit _⟩

theorem slotDataPacket_lands (hwrite : canWrite x = true)
    (hadmit : Admitted s (landingRanges s r (recvOf s pkt destOffset) x (leAt pkt 20 4) (packetBody pkt))) :
    exec (.slotDataPacket pkt destOffset) s
      = .next (pump (landBody (taken s l pkt (landingRanges s r (recvOf s pkt destOffset) x (leAt pkt 20 4) (packetBody pkt))) l r
          (recvOf s pkt destOffset) x (leAt pkt 20 4) (packetBody pkt))) := by
  rw [exec_slotDataPacket hkind hlink, doSlotData_within destOffset hnew hslot hwithin, if_pos hwrite, rangerAccess_admitted hadmit]
  rfl

end

/-! ### O45 -/

/-- Settles O45: a transfer's packets carry the bodies of its stream (`transferPackets_bodies`), a body lands where `landBody_raw` and `landBody_good`
say, and a grant is one of `grantOf_spec`. -/
theorem transfersAreCutAndLand : Obligations.TransfersAreCutAndLand := by
  unfold Obligations.TransfersAreCutAndLand
  refine ⟨?_, ?_, fun s owners i hi => ⟨fun p j h => grantOf_spec h hi, fun hslot ⟨q, hq, hopen⟩ => grantOf_shared hslot hq hopen 999,
    fun q hq hslot => grantOf_sealed hslot hq 999, fun live xs p s1 y h => ⟨(flitOf_cases h).1, sendFlit_grant s1 y i⟩⟩⟩
  · intro s pitch now descriptor r x hpitch hr d hslot hdesc hfull hin hadmit raw
    refine ⟨?_, fun n byte => ⟨_, exec_slotTransfer_bad hpitch hr hslot hdesc hfull hin hadmit n byte, ?_⟩⟩
    · obtain ⟨⟨v, hv, hd, hp, hresends, hlost, hbodies⟩, hnext, hmem, hpitches⟩ :=
        startTransfer_spec (touched (atTime s now) [(slotDa s r x + d.srcOffset, d.length)]) r d raw
      refine ⟨_, v, exec_slotTransfer_clean hpitch hr hslot hdesc hfull hin hadmit, by simpa using hv, hd, hp, hresends, hlost, ?_, fun p hp => ?_,
        by simpa using hnext, by rw [hmem, bytes_touched]; rfl, fun q => (pitchOf_markedSent hpitches q).trans (by rw [pitchOf_touched]; rfl)⟩
      · rw [hbodies]
        exact flatten_bodies (by omega)
      · exact length_le_of_mem_bodies (hbodies ▸ List.mem_map_of_mem hp)
    · exact (rangerFinding_larderSlot_fab _ _ _ _).trans (by simp)
  · intro s pkt destOffset l hkind hlink hnew v body o parts
    refine ⟨fun r x hslot hnumber hwrite hadmit => ?_, fun hforeign => ?_, fun r x hslot hwithin => ?_⟩
    · have hfull : slotOf (taken s l pkt (landingRanges s r v x o body)) r v.slot = some x := by
        rw [hnumber, slotOf_taken]
        exact landingSlot_slotOf hslot
      obtain ⟨hbytes, hev, -, -⟩ := taken_keeps (s := s) (l := l) (pkt := pkt) (landingRanges s r v x o body)
      have hda := slotDa_taken (s := s) (l := l) (pkt := pkt) (r := r) (landingRanges s r v x o body) x
      refine ⟨fun hraw hwithin => ?_, fun b hcoded hblock => ?_⟩
      · have hland := (landBody_raw (l := l) (offset := o) (body := body) hfull hraw).pump
        rw [hda] at hland
        exact ⟨_, slotDataPacket_lands hkind hlink hnew hslot (.inr hwithin) hwrite hadmit, hland.lands hbytes⟩
      · have hexec := slotDataPacket_lands (destOffset := destOffset) hkind hlink hnew hslot (.inl hcoded) hwrite hadmit
        refine ⟨fun out coded hdecode hfits => ?_, fun e hdecode hfirst => ?_⟩
        · have hland := (landBody_good (l := l) hcoded hblock hfull hdecode hfits).pump
          rw [hda] at hland
          exact ⟨_, hexec, hland.lands hbytes⟩
        · obtain ⟨hmem, hwritten⟩ := landBody_firstBad (s := taken s l pkt (landingRanges s r v x o body)) (l := l) (r := r) (x := x)
            hcoded hblock hdecode hfirst
          refine ⟨_, hexec, ?_, ?_⟩ <;> simp only [pump_keeps]
          · exact (congrArg Memory.bytes hmem).trans hbytes
          · exact hwritten.trans (by rw [hev])
    · rcases hforeign with hnone | ⟨r, x, hslot, hraw, hbeyond⟩
      · exact slotDataPacket_noSlot hkind hlink hnew hnone
      · exact slotDataPacket_beyond hkind hlink hnew hslot hraw hbeyond
    · exact ⟨slotDataPacket_closed hkind hlink hnew hslot hwithin, slotDataPacket_waits hkind hlink hnew hslot hwithin⟩

end Sys2Proof.Machine
end

section
/-! SUPPORT. O7: while a module is ready its count does not go below a bound that it has reached (R403): what it means for a state, for the result of a
camp command and for the answer of a row. -/

namespace Sys2Proof.Machine

variable {lo : Nat}

/-! ### Changes of the state -/

/-- Where the module is ready, its count has not fallen below the bound. -/
def State.Past (lo : Nat) (s : State) : Prop := s.boot.ready = true → lo ≤ s.cairn.count

/-- A change that touches neither the count nor whether the module is ready; `simp` knows which operations those are. -/
theorem State.Past.congr {s t : State} (h : s.Past lo) (ht : t.cairn.count = s.cairn.count ∧ t.boot.ready = s.boot.ready) : t.Past lo := by
  obtain ⟨hcount, hready⟩ := ht
  intro h1
  rw [hcount]
  exact h (hready ▸ h1)

/-- A module that is not ready has no bound. -/
theorem past_of_not_ready {s : State} (h : s.boot.ready = false) : s.Past lo := fun h1 => absurd h1 (by simp [h])

/-- A row at a later time raises the count to it. -/
theorem atTime_past {s : State} {now : Nat} (h : s.Past lo) : (atTime s now).Past lo :=
  fun h1 => (h h1).trans (Nat.le_max_left _ _)

theorem writeEvent_past {s : State} {source cls code pitch : Nat} {detail : List Byte} (h : s.Past lo) :
    (writeEvent s source cls code pitch detail).Past lo := h.congr (by simp)

theorem rangerEvent_past {s : State} {cls code pitch : Nat} {detail : List Byte} (h : s.Past lo) :
    (rangerEvent s cls code pitch detail).Past lo := h.congr (by simp)

theorem eventOnce_past {s : State} {code unit : Nat} {f : State → State} (hf : ∀ s, s.Past lo → (f s).Past lo)
    (h : s.Past lo) : (eventOnce s code unit f).Past lo := by
  unfold eventOnce
  dsimp only
  split
  · exact h
  · exact hf _ h

theorem ite_past {q : Prop} [Decidable q] {s t : State} (hs : s.Past lo) (ht : t.Past lo) :
    (if q then s else t).Past lo := by
  split
  · exact hs
  · exact ht

theorem getD_past {o : Option State} {d : State} (ho : ∀ t, o = some t → t.Past lo) (hd : d.Past lo) : (o.getD d).Past lo := by
  cases o with
  | none => exact hd
  | some t => exact ho t rfl

/-- The state of a pair that an operation answers. -/
theorem fst_past {α : Type} {x : State × α} {t : State} {a : α} (hx : x = (t, a)) (h : x.1.Past lo) : t.Past lo := by
  subst hx
  exact h

theorem foldl_past {α : Type} {f : State → α → State} {l : List α} {s : State} (hf : ∀ t, t.Past lo → ∀ a, (f t a).Past lo)
    (h : s.Past lo) : (l.foldl f s).Past lo := by
  induction l generalizing s with
  | nil => exact h
  | cons a t ih => exact ih (hf _ h _)

theorem iterate_past {f : State → State} {n : Nat} {s : State} (hf : ∀ t, t.Past lo → (f t).Past lo) (h : s.Past lo) :
    (iterate f n s).Past lo := by
  induction n generalizing s with
  | zero => exact h
  | succ n ih => exact ih (hf _ h)

/-! ### Results of camp commands and of rows -/

/-- No state that the result of a camp command holds is before the bound. -/
def CmdRes.Past (lo : Nat) : CmdRes → Prop
  | .done t => t.Past lo
  | .settled t => t.Past lo
  | .wait _ => True
  | .fault _ => True

theorem CmdRes.Past.congr {r r1 : CmdRes} (h : r.Past lo) (e : r = r1) : r1.Past lo := e ▸ h

theorem CmdRes.Past.ite {q : Prop} [Decidable q] {r r1 : CmdRes} (hr : r.Past lo) (hr1 : r1.Past lo) : (if q then r else r1).Past lo := by
  split
  · exact hr
  · exact hr1

/-- The next state, where a row has one, is not before the bound. -/
def AnswerPast (lo : Nat) : Answer State → Prop
  | .next t => t.Past lo
  | .fault _ => True
  | .refused _ => True

theorem AnswerPast.next {a : Answer State} {t : State} (h : AnswerPast lo a) (e : a = .next t) : t.Past lo := by
  subst e
  exact h

theorem AnswerPast.ite {q : Prop} [Decidable q] {a b : Answer State} (ha : AnswerPast lo a) (hb : AnswerPast lo b) :
    AnswerPast lo (if q then a else b) := by
  split
  · exact ha
  · exact hb

/-- A row that is refused where its operand names no unit. -/
theorem nextIf_past {q : Prop} [Decidable q] {t : State} {e : Refusal} (h : t.Past lo) :
    AnswerPast lo (if q then .next t else .refused e) :=
  .ite h trivial

/-- A row of a pitch, which does nothing where the pitch has no record. -/
theorem pitchRow_past {p : Nat} {s : State} {f : PitchRecord → State} (h : s.Past lo) (hf : ∀ r, (f r).Past lo) :
    AnswerPast lo (if pitchOk p then
      match recordOf s p with
      | none => .next s
      | some r => .next (f r)
      else .refused .noSuchUnit) := by
  split
  · split
    · exact h
    · exact hf _
  · trivial

end Sys2Proof.Machine
end

section
/-! SUPPORT. O7: the count of a ready module does not fall under the named operations over the state (R403). -/

namespace Sys2Proof.Machine

variable {lo : Nat}

theorem putCamp_past {s : State} {camp : Nat} {c : Camp} (h : s.Past lo) : (putCamp s camp c).Past lo := h.congr (by simp)

theorem onCore_past {s : State} {camp core : Nat} {f : Core → Core} (h : s.Past lo) : (onCore s camp core f).Past lo :=
  h.congr (by simp)

theorem onPitch_past {s : State} {p : Nat} {f : Pitch → Pitch} (h : s.Past lo) : (onPitch s p f).Past lo := h.congr (by simp)

theorem putSeq_past {s : State} {i : Nat} {e : SeqEntry} (h : s.Past lo) : (putSeq s i e).Past lo := h.congr (by simp)

theorem onSeq_past {s : State} {i : Nat} {f : SeqEntry → SeqEntry} (h : s.Past lo) : (onSeq s i f).Past lo :=
  h.congr (by simp)

theorem putFn_past {s : State} {fn : Nat} {f : Function} (h : s.Past lo) : (putFn s fn f).Past lo := h.congr (by simp)

theorem putLink_past {s : State} {l : Nat} {k : Link} (h : s.Past lo) : (putLink s l k).Past lo := h.congr (by simp)

theorem send_past {s : State} {o : Output} (h : s.Past lo) : (send s o).Past lo := h.congr (by simp)

theorem tellGroup_past {s : State} {p : Nat} {d : LeadDecision} (h : s.Past lo) : (tellGroup s p d).Past lo :=
  h.congr (by simp)

theorem freeEntry_past {s : State} {i : Nat} (h : s.Past lo) : (freeEntry s i).Past lo := h.congr (by simp)

end Sys2Proof.Machine
end

section
/-! SUPPORT. O7: the count of a ready module does not fall under completions, transport messages and holding a sequence (R403). -/

namespace Sys2Proof.Machine

variable {lo : Nat}

theorem sendMessage_past {s : State} {n type : Nat} {body : List Byte} (h : s.Past lo) : (sendMessage s n type body).Past lo :=
  h.congr (by simp)

theorem answer_past {s : State} {o : Origin} {int : Bool} {bytes : List Byte} {tokens : List Nat} (h : s.Past lo) :
    (answer s o int bytes tokens).Past lo := h.congr (by simp)

theorem finish_past {s : State} {r : Request} {result endCode handle value : Nat} (h : s.Past lo) :
    (finish s r result endCode handle value).Past lo := h.congr (by simp)

theorem finishPlain_past {s : State} {r : Request} {result : Nat} (h : s.Past lo) : (finishPlain s r result).Past lo :=
  h.congr (by simp)

theorem onReq_past {s : State} {rid : Nat} {f : Request → Request} (h : s.Past lo) : (onReq s rid f).Past lo :=
  h.congr (by simp)

theorem holdSeq_past {s0 : State} {i cause result : Nat} (h : s0.Past lo) : (holdSeq s0 i cause result).Past lo := h.congr (by simp)

end Sys2Proof.Machine
end

section
/-! SUPPORT. O7: the count of a ready module does not fall under the operations of the context store (R403). -/

namespace Sys2Proof.Machine

variable {lo : Nat}

theorem pokeBytes_past {s : State} {da : Nat} {bs : List Byte} (h : s.Past lo) : (pokeBytes s da bs).Past lo :=
  h.congr (by simp)

theorem placeIn_past {s : State} {r : PitchRecord} {seg da size len : Nat} {res : Nat × State} (h : s.Past lo)
    (hx : placeIn s r seg da size len = some res) : res.2.Past lo := by
  unfold placeIn at hx
  dsimp only at hx
  split at hx
  · cases hx
    exact h
  · split at hx
    · cases hx
      exact h.congr (by simp)
    · cases hx

theorem allocHot_past {s : State} {p len : Nat} {res : Nat × State} (h : s.Past lo) (hx : allocHot s p len = some res) :
    res.2.Past lo := by
  unfold allocHot at hx
  split at hx
  · cases hx
  · dsimp only at hx
    split at hx
    · cases hx
    · next hy =>
        cases hx
        exact (placeIn_past h hy).congr (by simp)

theorem allocWarm_past {s : State} {p n len : Nat} {res : Nat × State} (h : s.Past lo) (hx : allocWarm s p n len = some res) :
    res.2.Past lo := by
  unfold allocWarm at hx
  split at hx
  · cases hx
  · dsimp only at hx
    split at hx
    · cases hx
    · split at hx
      · cases hx
      · next hy =>
          cases hx
          exact (placeIn_past h hy).congr (by simp)

theorem freeRange_past {s : State} {p a : Nat} (h : s.Past lo) : (freeRange s p a).Past lo := h.congr (by simp)

theorem putPage_past {s : State} {p n : Nat} {g : Page} (h : s.Past lo) : (putPage s p n g).Past lo := h.congr (by simp)

theorem freePage_past {s : State} {p n : Nat} (h : s.Past lo) : (freePage s p n).Past lo := h.congr (by simp)

theorem dropRefs_past {p : Nat} {l : List Nat} {s : State} (h : s.Past lo) : (dropRefs p l s).Past lo := h.congr (by simp)

theorem holdAtBoundary_past {s : State} {i cause result : Nat} (h : s.Past lo) : (holdAtBoundary s i cause result).Past lo :=
  h.congr (by simp)

theorem holdAllAtBoundary_past {cause result : Nat} {l : List Nat} {s : State} (h : s.Past lo) :
    (holdAllAtBoundary cause result l s).Past lo := h.congr (by simp)

theorem resummarise_past {s : State} {p n : Nat} (h : s.Past lo) : (resummarise s p n).Past lo := by
  unfold resummarise
  exact ite_past h (h.congr (by simp))

theorem resuper_past {s : State} {i j k : Nat} (h : s.Past lo) : (resuper s i j k).Past lo := by
  unfold resuper
  dsimp only
  split
  · exact h
  · exact ite_past h (h.congr (by simp))

end Sys2Proof.Machine
end

section
/-! SUPPORT. O7: the count of a ready module does not fall under abandoned steps and camp faults (R403). -/

namespace Sys2Proof.Machine

variable {lo : Nat}

theorem endQueued_past {l : List Request} {s : State} (h : s.Past lo) : (endQueued l s).Past lo := h.congr (by simp)

theorem abortPark_past {s : State} {i result value : Nat} {silent : Bool} (h : s.Past lo) :
    (abortPark s i result value silent).Past lo := h.congr (by simp)

theorem devicePark_past {s : State} {r : PitchRecord} {i : Nat} (h : s.Past lo) : (devicePark s r i).Past lo := h.congr (by simp)

theorem residueEvent_past {s : State} {camp core p code : Nat} {m : Mismatch} {spares : Nat} (h : s.Past lo) :
    (residueEvent s camp core p code m spares).Past lo := h.congr (by simp)

theorem retireLanes_past {camp core p : Nat} {l : List Mismatch} {s : State} (h : s.Past lo) : (retireLanes camp core p l s).Past lo :=
  h.congr (by simp)

theorem repairNow_past {s : State} {p : Nat} (h : s.Past lo) : (repairNow s p).Past lo := h.congr (by simp)

theorem dropBlock_past {da : Nat} {l : List Nat} {s : State} (h : s.Past lo) : (dropBlock da l s).Past lo :=
  h.congr (by simp)

theorem rerunStep_past {s : State} {p : Nat} (h : s.Past lo) : (rerunStep s p).Past lo := h.congr (by simp)

theorem uncorrectableWord_past {s : State} {p : Nat} (h : s.Past lo) : (uncorrectableWord s p).Past lo := h.congr (by simp)

theorem raiseFault_past {s : State} {camp : Nat} {f : CampFault} {opcode attempt : Nat} (h : s.Past lo) :
    (raiseFault s camp f opcode attempt).Past lo := h.congr (by simp)

theorem fenceCamp_past {s : State} {camp core : Nat} (h : s.Past lo) : (fenceCamp s camp core).Past lo := h.congr (by simp)

end Sys2Proof.Machine
end

section
/-! SUPPORT. O7: the count of a ready module does not fall under the events of the memory arrays (R403). -/

namespace Sys2Proof.Machine

variable {lo : Nat}

theorem pageLost_past {s : State} {p n copy code : Nat} (h : s.Past lo) : (pageLost s p n copy code).Past lo := h.congr (by simp)

theorem countCorrection_past {s : State} {ch : Nat} (h : s.Past lo) : (countCorrection s ch).Past lo := h.congr (by simp)

theorem hbmCorrected_past {s : State} {source da symbol : Nat} (h : s.Past lo) : (hbmCorrected s source da symbol).Past lo := by
  unfold hbmCorrected
  exact countCorrection_past (eventOnce_past (fun _ h1 => writeEvent_past h1) h)

theorem hbmBad_past {s : State} {source da : Nat} {address : Bool} (h : s.Past lo) : (hbmBad s source da address).Past lo :=
  h.congr (by simp)

theorem rerunAll_past {l : List Nat} {s : State} (h : s.Past lo) : (rerunAll l s).Past lo := h.congr (by simp)

theorem larderBad_past {s : State} {source p da : Nat} (h : s.Past lo) : (larderBad s source p da).Past lo := h.congr (by simp)

end Sys2Proof.Machine
end

section
/-! SUPPORT. O7: the count of a ready module does not fall under weight regions and coded regions (R403). -/

namespace Sys2Proof.Machine

variable {lo : Nat}

theorem modelIntegrity_past {s : State} {p da : Nat} (h : s.Past lo) : (modelIntegrity s p da).Past lo := h.congr (by simp)

theorem weightRefetchedEvent_past {s : State} {p da : Nat} (h : s.Past lo) : (weightRefetchedEvent s p da).Past lo := h.congr (by simp)

theorem goldenFailed_past {s : State} {p da : Nat} {t : LoadedTensor} {j : Nat} (h : s.Past lo) : (goldenFailed s p da t j).Past lo :=
  h.congr (by simp)

theorem codedFailed_past {s : State} {p da : Nat} {c : CodedRegion} {i : Nat} (h : s.Past lo) : (codedFailed s p da c i).Past lo := by
  unfold codedFailed
  exact onPitch_past (modelIntegrity_past h)

theorem cxlEvent_past {s : State} {source p da : Nat} (h : s.Past lo) : (cxlEvent s source p da).Past lo := h.congr (by simp)

theorem cxlBad_past {s : State} {p da : Nat} (h : s.Past lo) : (cxlBad s p da).Past lo := h.congr (by simp)

theorem decodeEvent_past {s : State} {source p at_ : Nat} {f : DecodeFault} (h : s.Past lo) : (decodeEvent s source p at_ f).Past lo := by
  unfold decodeEvent
  exact writeEvent_past h

theorem refetchCoded_past {source p : Nat} {c : CodedRegion} {base gbase : Nat} {poison : Bool} {i : Nat} {s : State} (h : s.Past lo) :
    (refetchCoded source p c base gbase poison i s).1.Past lo := by
  unfold refetchCoded
  dsimp only
  split
  · exact codedFailed_past h
  · split
    · exact codedFailed_past (cxlEvent_past h)
    · split
      · exact codedFailed_past (ite_past (cxlEvent_past (decodeEvent_past h)) (decodeEvent_past h))
      · exact weightRefetchedEvent_past (h.congr (by simp))

theorem readBlocks_past {source p : Nat} {c : CodedRegion} {base gbase : Nat} {poison : Bool} {l : List Nat} {s : State} (h : s.Past lo) :
    (readBlocks source p c base gbase poison l s).1.Past lo := by
  induction l generalizing s with
  | nil =>
    rw [readBlocks]
    exact h
  | cons x t ih =>
    rw [readBlocks]
    split
    · split
      · next hx => exact fst_past hx (ih h)
      · next hx => exact fst_past hx (ih h)
    · dsimp only
      split
      · exact h
      · split
        · exact holdAllAtBoundary_past (decodeEvent_past h)
        · split
          · next hx => exact fst_past hx (refetchCoded_past (decodeEvent_past h))
          · next hx =>
              split
              · next hx1 => exact fst_past hx1 (ih (fst_past hx (refetchCoded_past (decodeEvent_past h))))
              · next hx1 => exact fst_past hx1 (ih (fst_past hx (refetchCoded_past (decodeEvent_past h))))

theorem readCoded_past {s : State} {source : Nat} {r : PitchRecord} {c : CodedRegion} {o n : Nat} {poison : Bool} (h : s.Past lo) :
    (readCoded s source r c o n poison).1.Past lo := by
  unfold readCoded
  split
  · next hx => exact fst_past hx (readBlocks_past h)
  · next hx => exact fst_past hx (readBlocks_past h)

theorem storeBlocks_past {r : PitchRecord} {c : CodedRegion} {base : Nat} {l : List Nat} {l1 : List Byte} {s : State} (h : s.Past lo) :
    (storeBlocks r c base l l1 s).Past lo := by
  induction l generalizing l1 s with
  | nil => exact h
  | cons x t ih =>
    rw [storeBlocks]
    exact ih (h.congr (by simp))

theorem writeCoded_past {s : State} {source : Nat} {r : PitchRecord} {c : CodedRegion} {o : Nat} {bs : List Byte} (h : s.Past lo) :
    (writeCoded s source r c o bs).1.Past lo := by
  unfold writeCoded
  dsimp only
  split
  · exact storeBlocks_past h
  · split
    · next hx => exact fst_past hx (readBlocks_past h)
    · next hx => exact storeBlocks_past (fst_past hx (readBlocks_past h))

end Sys2Proof.Machine
end

section
/-! SUPPORT. O7: the count of a ready module does not fall under the findings of array checks (R403). -/

namespace Sys2Proof.Machine

variable {lo : Nat}

theorem slotBad_past {s : State} {p slot : Nat} (h : s.Past lo) : (slotBad s p slot).Past lo := by
  unfold slotBad
  split
  · exact ite_past (pokeBytes_past (rerunStep_past h)) (uncorrectableWord_past h)
  · exact uncorrectableWord_past h

theorem scrubCoded_past {s : State} {da : Nat} {poison : Bool} (h : s.Past lo) : (scrubCoded s da poison).Past lo := by
  unfold scrubCoded
  split
  · exact h
  · exact ite_past h (refetchCoded_past (h.congr (by simp)))

theorem scrubWeights_past {s : State} {da : Nat} {poison : Bool} (h : s.Past lo) : (scrubWeights s da poison).Past lo := by
  unfold scrubWeights
  split
  · exact scrubCoded_past h
  · refine ite_past h ?_
    refine ite_past (goldenFailed_past h) ?_
    exact ite_past (goldenFailed_past (cxlBad_past h)) (weightRefetchedEvent_past (h.congr (by simp)))

theorem rebuildRowStarts_past {s : State} {p k : Nat} {poison : Bool} (h : s.Past lo) : (rebuildRowStarts s p k poison).Past lo := by
  unfold rebuildRowStarts
  split
  · refine ite_past h ?_
    refine ite_past (goldenFailed_past h) ?_
    refine ite_past (goldenFailed_past (cxlBad_past h)) ?_
    dsimp only
    split
    · exact goldenFailed_past (cxlBad_past h)
    · split
      · exact goldenFailed_past h
      · exact weightRefetchedEvent_past (h.congr (by simp))
  · exact h

theorem hotCopyBad_past {s : State} {p n : Nat} (h : s.Past lo) : (hotCopyBad s p n).Past lo := h.congr (by simp)

theorem warmCopyBad_past {s : State} {p n : Nat} (h : s.Past lo) : (warmCopyBad s p n).Past lo := by
  unfold warmCopyBad
  split
  · exact pageLost_past h
  · exact pageLost_past h
  · exact h

theorem contentBad_past {s : State} {da : Nat} {tile poison : Bool} {l : HbmContent} (h : s.Past lo) :
    (contentBad s da tile poison l).Past lo := by
  unfold contentBad
  split
  · exact ite_past h (scrubWeights_past h)
  · exact rebuildRowStarts_past h
  · exact hotCopyBad_past h
  · exact resummarise_past h
  · exact resuper_past h
  · exact holdAllAtBoundary_past h
  · exact h.congr (by simp)
  · exact holdAtBoundary_past h
  · exact holdAllAtBoundary_past h
  · exact uncorrectableWord_past h
  · exact h

theorem capacityBad_past {s : State} {da : Nat} {l : HbmContent} (h : s.Past lo) : (capacityBad s da l).Past lo := by
  unfold capacityBad
  split
  · exact warmCopyBad_past h
  · split
    · exact goldenFailed_past h
    · exact h
  · exact contentBad_past h

theorem larderFound_past {s : State} {camp p da : Nat} {k : State → State} (h : s.Past lo) (hk : ∀ t, t.Past lo → (k t).Past lo) :
    (larderFound s camp p da k).Past lo := by
  unfold larderFound
  exact hk _ (larderBad_past h)

theorem hashEntryBad_past {s : State} {camp p inst entry : Nat} (h : s.Past lo) : (hashEntryBad s camp p inst entry).Past lo := by
  unfold hashEntryBad
  exact larderFound_past h (fun _ h1 => uncorrectableWord_past h1)

theorem applyFinding_past {s : State} {camp p : Nat} {tile : Bool} {l : Finding} (h : s.Past lo) :
    (applyFinding s camp p tile l).Past lo := by
  unfold applyFinding
  split
  · exact eventOnce_past (fun _ h1 => writeEvent_past h1) h
  · exact larderFound_past h (fun _ h1 => h1)
  · exact larderFound_past h (fun _ h1 => slotBad_past h1)
  · exact larderFound_past h (fun _ h1 => uncorrectableWord_past h1)
  · exact hashEntryBad_past h
  · exact larderFound_past h (fun _ h1 => holdAtBoundary_past h1)
  · exact larderFound_past h (fun _ h1 => rerunAll_past h1)
  · exact hashEntryBad_past h
  · exact eventOnce_past (fun _ h1 => writeEvent_past h1) h
  · exact uncorrectableWord_past (writeEvent_past h)
  · exact hbmCorrected_past h
  · exact contentBad_past (hbmBad_past h)
  · exact capacityBad_past (cxlEvent_past h)

theorem applyFindings_past {camp p : Nat} {tile : Bool} {l : List Finding} {s : State} (h : s.Past lo) :
    (applyFindings camp p tile l s).1.Past lo := by
  induction l generalizing s with
  | nil =>
    rw [applyFindings]
    exact h
  | cons x t ih =>
    rw [applyFindings]
    split
    · exact applyFinding_past h
    · exact ih (applyFinding_past h)

theorem rangerFinding_past {s0 : State} {p : Nat} {f : Finding} (h : s0.Past lo) : (rangerFinding s0 p f).Past lo := by
  unfold rangerFinding
  dsimp only
  split
  · exact eventOnce_past (fun _ h1 => writeEvent_past (h1.congr (by simp))) h
  · exact slotBad_past (larderBad_past (h.congr (by simp)))
  · exact holdAtBoundary_past (larderBad_past (h.congr (by simp)))
  · exact rerunAll_past (larderBad_past (h.congr (by simp)))
  · exact hbmCorrected_past (h.congr (by simp))
  · exact contentBad_past (hbmBad_past (h.congr (by simp)))
  · exact capacityBad_past (cxlBad_past h)
  · exact h

theorem rangerFindings_past {p : Nat} {l : List Finding} {s : State} (h : s.Past lo) : (rangerFindings p l s).Past lo := by
  induction l generalizing s with
  | nil => exact h
  | cons x t ih =>
    rw [rangerFindings]
    exact ih (rangerFinding_past h)

end Sys2Proof.Machine
end

section
/-! SUPPORT. O7: the count of a ready module does not fall under accesses to memory (R403). -/

namespace Sys2Proof.Machine

variable {lo : Nat}

theorem rangerAccess_past {s : State} {rs : List (Nat × Nat)} {k : State → State} (h : s.Past lo)
    (hk : ∀ t, t.Past lo → (k t).Past lo) : (rangerAccess s rs k).Past lo := by
  unfold rangerAccess
  exact ite_past h (ite_past (h.congr (by simp)) (hk _ (h.congr (by simp))))

theorem rangerReads_past {s : State} {p : Nat} {found : List Finding} {rs : List (Nat × Nat)} {k : State → State} (h : s.Past lo)
    (hk : ∀ t, t.Past lo → (k t).Past lo) : (rangerReads s p found rs k).Past lo := by
  unfold rangerReads
  exact ite_past h (rangerAccess_past h (fun _ h1 => hk _ (rangerFindings_past h1)))

end Sys2Proof.Machine
end

section
/-! SUPPORT. O7: the count of a ready module does not fall under the camp sequencer (R403). -/

namespace Sys2Proof.Machine

variable {lo : Nat}

theorem moveTo_past {s : State} {camp : Nat} {ls : List LoopFrame} {pc : Nat} (h : s.Past lo) : (moveTo s camp ls pc).Past lo :=
  h.congr (by simp)

theorem advance_past {s : State} {camp : Nat} (h : s.Past lo) : (advance s camp).Past lo := h.congr (by simp)

theorem block_past {s : State} {camp : Nat} {w : CmdWord} {r : WaitReason} (h : s.Past lo) : (block s camp w r).Past lo :=
  h.congr (by simp)

theorem settle_past {s : State} {camp : Nat} {w : CmdWord} {r : CmdRes} (h : s.Past lo) (hk : r.Past lo) : (settle s camp w r).Past lo := by
  cases r with
  | done s1 => exact advance_past hk
  | wait r => exact block_past h
  | fault f => exact raiseFault_past h
  | settled s1 => exact hk

theorem takeCommand_past {s : State} {camp : Nat} {w : CmdWord} {mine : Bool} {f : Ctx → State → CmdRes} (h : s.Past lo)
    (hk : ∀ a t, t.Past lo → (f a t).Past lo) : (takeCommand s camp w mine f).Past lo := by
  unfold takeCommand
  dsimp only
  split
  · exact ite_past (settle_past h (hk _ _ h)) h
  · exact h

theorem runCommand_past {s : State} {camp : Nat} {w : CmdWord} {mine : Bool} {f : Ctx → State → CmdRes} (h : s.Past lo)
    (hk : ∀ a t, t.Past lo → (f a t).Past lo) : AnswerPast lo (runCommand s camp w mine f) := by
  unfold runCommand
  exact nextIf_past (takeCommand_past h (fun _ _ h1 => hk _ _ h1))

theorem coreCommand_past {w : CmdWord} {fields : List (Nat × Nat)} {rule : Bool} {k : List Nat → CmdRes} (hk : ∀ a, (k a).Past lo) :
    (coreCommand w fields rule k).Past lo := by
  unfold coreCommand
  exact .ite trivial (hk _)

theorem campCommand_past {w : CmdWord} {fields : List (Nat × Nat)} {rule : Bool} {k : CmdRes} (hk : k.Past lo) :
    (campCommand w fields rule k).Past lo := by
  unfold campCommand
  exact .ite trivial hk

theorem unlessFault_past {f : Option CampFault} {k : CmdRes} (hk : k.Past lo) : (unlessFault f k).Past lo := by
  unfold unlessFault
  split
  · exact trivial
  · exact hk

theorem onCores_past {s : State} {camp : Nat} {cores : List Nat} {f : Nat → Nat → Core → Core} (h : s.Past lo) :
    (onCores s camp cores f).Past lo := h.congr (by simp)

theorem putSlot_past {s : State} {p n : Nat} {x : Slot} (h : s.Past lo) : (putSlot s p n x).Past lo := h.congr (by simp)

theorem withSlot_past {s : State} {c : Ctx} {n core : Nat} {k : Slot → CmdRes} (hk : ∀ a, (k a).Past lo) : (withSlot s c n core k).Past lo := by
  unfold withSlot
  split
  · exact trivial
  · exact hk _

theorem reading_past {c : Ctx} {s : State} {x : Slot} {n : Nat} {k : CmdRes} (hk : k.Past lo) : (reading c s x n k).Past lo := by
  unfold reading
  exact .ite hk trivial

theorem writing_past {c : Ctx} {s : State} {x : Slot} {n core : Nat} {k : CmdRes} (hk : k.Past lo) : (writing c s x n core k).Past lo := by
  unfold writing
  exact .ite trivial (.ite hk trivial)

theorem withFindings_past {c : Ctx} {found : List Finding} {s : State} {k : State → CmdRes} (h : s.Past lo)
    (hk : ∀ t, t.Past lo → (k t).Past lo) : (withFindings c found s k).Past lo := by
  unfold withFindings
  refine .ite trivial ?_
  split
  · next hx => exact fst_past hx (applyFindings_past h)
  · next hx => exact hk _ (fst_past hx (applyFindings_past h))

theorem withTileFindings_past {c : Ctx} {found : List Finding} {s : State} {k : State → CmdRes} (h : s.Past lo)
    (hk : ∀ t, t.Past lo → (k t).Past lo) : (withTileFindings c found s k).Past lo := by
  unfold withTileFindings
  refine .ite trivial ?_
  split
  · next hx => exact fst_past hx (applyFindings_past h)
  · next hx => exact hk _ (fst_past hx (applyFindings_past h))

theorem access_past {c : Ctx} {s : State} {rs : List (Nat × Nat)} {k : State → CmdRes} (h : s.Past lo)
    (hk : ∀ t, t.Past lo → (k t).Past lo) : (access c s rs k).Past lo := by
  unfold access
  refine .ite trivial ?_
  exact .ite trivial (.ite (block_past (ite_past h (h.congr (by simp)))) (hk _ (h.congr (by simp))))

theorem withStream_past {c : Ctx} {poison : Bool} {l : List (Nat × Nat)} {s : State} {l1 : State → CmdRes} (h : s.Past lo)
    (hk : ∀ t, t.Past lo → (l1 t).Past lo) : (withStream c poison l s l1).Past lo := by
  induction l generalizing s with
  | nil =>
    rw [withStream]
    exact hk _ h
  | cons x t ih =>
    obtain ⟨_, _⟩ := x
    rw [withStream]
    split
    · exact ih h
    · split
      · next hx => exact fst_past hx (readCoded_past h)
      · next hx => exact ih (fst_past hx (readCoded_past h))

theorem releaseWaiters_past {p n : Nat} {l : List Nat} {s : State} (h : s.Past lo) : (releaseWaiters p n l s).Past lo :=
  h.congr (by simp)

theorem signalSync_past {s : State} {p n v : Nat} {res : State} (h : s.Past lo) (hx : signalSync s p n v = some res) : res.Past lo := by
  unfold signalSync at hx
  dsimp only at hx
  split at hx
  · cases hx
  · cases hx
    exact releaseWaiters_past (h.congr (by simp))

theorem releaseBlocked_past {s : State} {p : Nat} {f : WaitReason → Bool} (h : s.Past lo) : (releaseBlocked s p f).Past lo :=
  h.congr (by simp)

end Sys2Proof.Machine
end

section
/-! SUPPORT. O7: the count of a ready module does not fall under the camp commands (R403). -/

namespace Sys2Proof.Machine

variable {lo : Nat}

theorem doNop_past {c : Ctx} {s : State} (h : s.Past lo) : (doNop c s).Past lo := by
  unfold doNop
  exact campCommand_past h

theorem endProgram_past {s : State} {camp : Nat} (h : s.Past lo) : (endProgram s camp).Past lo := by
  unfold endProgram
  exact h.congr (by simp)

theorem doEnd_past {c : Ctx} {s : State} (h : s.Past lo) : (doEnd c s).Past lo := by
  unfold doEnd
  refine campCommand_past (.ite trivial ?_)
  refine .ite trivial ?_
  refine .ite ?_ (endProgram_past h)
  split
  · exact trivial
  · next hx => exact signalSync_past (endProgram_past h) hx

theorem doSetwin_past {c : Ctx} {s : State} (h : s.Past lo) : (doSetwin c s).Past lo := by
  unfold doSetwin
  exact coreCommand_past (fun _ => h.congr (by simp))

theorem onProg_past {s : State} {camp : Nat} {f : Program → Program} (h : s.Past lo) : (onProg s camp f).Past lo := by
  unfold onProg
  exact h.congr (by simp)

theorem doWdog_past {c : Ctx} {s : State} (h : s.Past lo) : (doWdog c s).Past lo := by
  unfold doWdog
  exact campCommand_past (onProg_past h)

theorem doLoop_past {c : Ctx} {s : State} (h : s.Past lo) : (doLoop c s).Past lo := by
  unfold doLoop
  exact campCommand_past (.ite (moveTo_past h) (moveTo_past h))

theorem doFence_past {c : Ctx} {s : State} (h : s.Past lo) : (doFence c s).Past lo := by
  unfold doFence
  exact campCommand_past (.ite trivial h)

theorem routed_past {c : Ctx} {x : Slot} {n : Nat} {k : CmdRes} (hk : k.Past lo) : (routed c x n k).Past lo := by
  unfold routed
  exact .ite hk trivial

theorem doSlotrd_past {found : List Finding} {c : Ctx} {s : State} (h : s.Past lo) : (doSlotrd found c s).Past lo := by
  unfold doSlotrd
  exact coreCommand_past (fun _ => unlessFault_past (withSlot_past (fun _ => unlessFault_past (routed_past (reading_past (access_past h (fun _
      h3 => withFindings_past h3 (fun _ h4 => ite_past (h4.congr (by simp)) (h4.congr (by simp))))))))))

theorem storeRanks_past {da o step : Nat} {get : Nat → List Byte} {l : List (Nat × Nat)} {s : State} (h : s.Past lo) :
    (storeRanks da o step get l s).Past lo := by
  induction l generalizing s with
  | nil => exact h
  | cons x t ih =>
    obtain ⟨_, _⟩ := x
    rw [storeRanks]
    exact ih (h.congr (by simp))

theorem doSlotwr_past {found : List Finding} {c : Ctx} {s : State} (h : s.Past lo) : (doSlotwr found c s).Past lo := by
  unfold doSlotwr
  exact coreCommand_past (fun _ => unlessFault_past (withSlot_past (fun _ => unlessFault_past (routed_past (writing_past (access_past h (fun _
      h3 => withFindings_past h3 (fun _ h4 => putSlot_past (storeRanks_past h4)))))))))

theorem dropAhead_past {c : Ctx} {s : State} (h : s.Past lo) : (dropAhead c s).Past lo := by
  unfold dropAhead
  exact h.congr (by simp)

theorem scatterRanks_past {c : Ctx} {cores : List Nat} {o n : Nat} {bs : List Byte} {s : State} (h : s.Past lo) :
    (scatterRanks c cores o n bs s).Past lo := by
  unfold scatterRanks
  exact h.congr (by simp)

theorem doMemrd_past {found : List Finding} {c : Ctx} {s : State} (h : s.Past lo) : (doMemrd found c s).Past lo := by
  unfold doMemrd
  refine coreCommand_past (fun _ => unlessFault_past (unlessFault_past ?_))
  split
  · refine access_past h (fun _ h1 => withFindings_past h1 (fun _ h2 => ?_))
    split
    · next hx => exact fst_past hx (readCoded_past h2)
    · next hx => exact scatterRanks_past (dropAhead_past (fst_past hx (readCoded_past h2)))
  · dsimp only
    split
    · exact withFindings_past h (fun _ h1 => scatterRanks_past (dropAhead_past h1))
    · exact access_past h (fun _ h1 => withFindings_past h1 (fun _ h2 => scatterRanks_past (dropAhead_past h2)))

theorem doMemwr_past {found : List Finding} {c : Ctx} {s : State} (h : s.Past lo) : (doMemwr found c s).Past lo := by
  unfold doMemwr
  refine coreCommand_past (fun _ => unlessFault_past (unlessFault_past ?_))
  dsimp only
  split
  · refine access_past h (fun _ h1 => withFindings_past h1 (fun _ h2 => ?_))
    split
    · next hx => exact fst_past hx (writeCoded_past h2)
    · next hx => exact fst_past hx (writeCoded_past h2)
  · exact access_past h (fun _ h1 => withFindings_past h1 (fun _ h2 => h2.congr (by simp)))

theorem loseBadTags_past {p : Nat} {l : List (Nat × Nat × Nat × Nat)} {s : State} (h : s.Past lo) : (loseBadTags p l s).Past lo := by
  induction l generalizing s with
  | nil => exact h
  | cons x t ih =>
    obtain ⟨_, _, _, _⟩ := x
    rw [loseBadTags]
    refine ih (ite_past h ?_)
    split
    · exact pageLost_past h
    · exact holdAllAtBoundary_past h

theorem bindMult_past {found : List Finding} {c : Ctx} {a : Nat} {s : State} (h : s.Past lo) : (bindMult found c a s).Past lo := by
  unfold bindMult
  refine .ite trivial ?_
  refine unlessFault_past (access_past h (fun _ h1 => withStream_past h1 (fun _ h2 => ?_)))
  refine .ite trivial ?_
  refine unlessFault_past (access_past h2 (fun _ h1 => withFindings_past h1 (fun _ h2 => withStream_past h2 (fun _ h3 => ?_))))
  split
  · exact trivial
  · exact .ite (loseBadTags_past h3) (h3.congr (by simp))

theorem bindWeights_past {found : List Finding} {c : Ctx} {a : Nat} {s : State} (h : s.Past lo) : (bindWeights found c a s).Past lo := by
  unfold bindWeights
  exact unlessFault_past (access_past h (fun _ h1 => withFindings_past h1 (fun _ h2 => withStream_past h2 (fun _ h3 => .ite trivial
      (unlessFault_past (putCamp_past (dropAhead_past h3)))))))

theorem doWstream_past {found : List Finding} {c : Ctx} {s : State} (h : s.Past lo) : (doWstream found c s).Past lo := by
  unfold doWstream
  exact campCommand_past (.ite (bindMult_past h) (bindWeights_past h))

theorem doTilecfg_past {c : Ctx} {s : State} (h : s.Past lo) : (doTilecfg c s).Past lo := by
  unfold doTilecfg
  exact campCommand_past (h.congr (by simp))

theorem doVld_past {found : List Finding} {c : Ctx} {s : State} (h : s.Past lo) : (doVld found c s).Past lo := by
  unfold doVld
  refine coreCommand_past (fun _ => .ite (unlessFault_past (withFindings_past h (fun _ h2 => h2.congr (by simp)))) ?_)
  refine .ite ?_ ?_
  · exact withSlot_past (fun _ => unlessFault_past (routed_past (reading_past (access_past h (fun _ h2 => withFindings_past h2 (fun _ h3 =>
      h3.congr (by simp)))))))
  · exact h.congr (by simp)

theorem masterNan_past {camp p layer : Nat} {l : List (Word × Nat)} {s : State} (h : s.Past lo) :
    (masterNan camp p layer l s).Past lo := by
  induction l generalizing s with
  | nil => exact h
  | cons x t ih =>
    obtain ⟨_, _⟩ := x
    rw [masterNan]
    exact ih (ite_past (writeEvent_past h) h)

theorem masterNans_past {c : Ctx} {cores : List Nat} {s : State} (h : s.Past lo) : (masterNans c cores s).Past lo := by
  unfold masterNans
  exact masterNan_past h

theorem doVst_past {found : List Finding} {c : Ctx} {s : State} (h : s.Past lo) : (doVst found c s).Past lo := by
  unfold doVst
  refine coreCommand_past (fun _ => ?_)
  refine .ite ?_ ?_
  · exact withSlot_past (fun _ => unlessFault_past (unlessFault_past (routed_past (writing_past (access_past h (fun _ h2 => withFindings_past
      h2 (fun _ h3 => putSlot_past (storeRanks_past (ite_past (masterNans_past h3) h3)))))))))
  · exact unlessFault_past (unlessFault_past (withFindings_past h (fun _ h1 => onCores_past (ite_past (masterNans_past h1) h1))))

theorem doSignal_past {c : Ctx} {s : State} (h : s.Past lo) : (doSignal c s).Past lo := by
  unfold doSignal
  refine campCommand_past (.ite trivial ?_)
  split
  · exact trivial
  · next hx => exact signalSync_past h hx

theorem doWait_past {c : Ctx} {s : State} (h : s.Past lo) : (doWait c s).Past lo := by
  unfold doWait
  exact campCommand_past (.ite trivial (.ite h trivial))

theorem doTake_past {c : Ctx} {s : State} (h : s.Past lo) : (doTake c s).Past lo := by
  unfold doTake
  exact campCommand_past (.ite trivial (.ite trivial (.ite (h.congr (by simp)) (h.congr (by simp)))))

theorem doReserved_past {a0 : Ctx} {a1 : State}  : (doReserved a0 a1).Past lo := by
  unfold doReserved
  exact trivial

theorem doRunAhead_past {found : List Finding} {s : State} {camp index : Nat} (h : s.Past lo) :
    (doRunAhead found s camp index).Past lo := by
  unfold doRunAhead
  dsimp only
  split
  · exact ite_past (rangerAccess_past h (fun _ h1 => ite_past h1 (h1.congr (by simp)))) h
  · exact h

end Sys2Proof.Machine
end

section
/-! SUPPORT. O7: the count of a ready module does not fall under the counters of a sequence and layer (R403). -/

namespace Sys2Proof.Machine

variable {lo : Nat}

theorem withTable_past {c : Ctx} {s : State} {core : Nat} {k : LengthTable → CmdRes} (hk : ∀ a, (k a).Past lo) : (withTable c s core k).Past lo := by
  unfold withTable
  exact withSlot_past (fun _ => reading_past (.ite trivial (hk _)))

theorem onLayer_past {s : State} {p i layer : Nat} {f : LayerState → LayerState} (h : s.Past lo) : (onLayer s p i layer f).Past lo :=
  h.congr (by simp)

theorem countSaturated_past {s : State} {p i layer n : Nat} (h : s.Past lo) : (countSaturated s p i layer n).Past lo :=
  h.congr (by simp)

end Sys2Proof.Machine
end

section
/-! SUPPORT. O7: the count of a ready module does not fall under top-k and the hash accumulators (R403). -/

namespace Sys2Proof.Machine

variable {lo : Nat}

theorem countTopNan_past {c : Ctx} {row nans : Nat} {s : State} {k : State → CmdRes} (h : s.Past lo) (hk : ∀ t, t.Past lo → (k t).Past lo) :
    (countTopNan c row nans s k).Past lo := by
  unfold countTopNan
  split
  · exact hk _ h
  · refine .ite (hk _ h) ?_
    refine withTable_past (fun _ => ?_)
    split
    · exact hk _ h
    · exact hk _ (h.congr (by simp))

theorem doTopk_past {found : List Finding} {c : Ctx} {s : State} (h : s.Past lo) : (doTopk found c s).Past lo := by
  unfold doTopk
  exact coreCommand_past (fun _ => unlessFault_past (withSlot_past (fun _ => unlessFault_past (routed_past (reading_past (access_past h (fun _
      h3 => withFindings_past h3 (fun _ h4 => countTopNan_past h4 (fun _ h5 => ite_past (h5.congr (by simp)) (h5.congr
          (by simp)))))))))))

theorem putHash_past {s : State} {i : Nat} {x : HashInst} (h : s.Past lo) : (putHash s i x).Past lo := h.congr (by simp)

theorem doHopen_past {found : List Finding} {c : Ctx} {s : State} (h : s.Past lo) : (doHopen found c s).Past lo := by
  unfold doHopen
  refine campCommand_past (unlessFault_past (access_past h (fun _ h1 => withFindings_past h1 (fun _ h2 => ?_))))
  refine .ite trivial ?_
  refine .ite trivial ?_
  split
  · exact trivial
  · exact putHash_past h2

theorem contribute_past {s : State} {r : PitchRecord} {i key : Nat} {v : Int} (h : s.Past lo) : (contribute s r i key v).Past lo := by
  unfold contribute
  dsimp only
  split
  · exact h
  · split
    · exact putHash_past h
    · exact pokeBytes_past (putHash_past h)

theorem contributeAll_past {r : PitchRecord} {i : Nat} {l : List (Nat × Int)} {s : State} (h : s.Past lo) :
    (contributeAll r i l s).Past lo := by
  induction l generalizing s with
  | nil => exact h
  | cons x t ih =>
    obtain ⟨_, _⟩ := x
    rw [contributeAll]
    exact ih (contribute_past h)

theorem doHadd_past {found : List Finding} {c : Ctx} {s : State} (h : s.Past lo) : (doHadd found c s).Past lo := by
  unfold doHadd
  refine coreCommand_past (fun _ => unlessFault_past ?_)
  dsimp only
  split
  · exact trivial
  · refine .ite trivial ?_
    refine unlessFault_past (unlessFault_past ?_)
    exact .ite trivial (access_past h (fun _ h1 => withFindings_past h1 (fun _ h2 => contributeAll_past h2)))

theorem doHclose_past {c : Ctx} {s : State} (h : s.Past lo) : (doHclose c s).Past lo := by
  unfold doHclose
  refine campCommand_past ?_
  refine .ite trivial ?_
  refine .ite trivial ?_
  dsimp only
  split
  · exact trivial
  · exact .ite trivial (.ite trivial (block_past (putHash_past h)))

theorem mergeHash_past {s : State} {i : Nat} (h : s.Past lo) : (mergeHash s i).Past lo := by
  unfold mergeHash
  dsimp only
  split
  · exact h
  · split
    · split
      · exact raiseFault_past h
      · split
        · next hx => exact advance_past (signalSync_past (releaseBlocked_past (putHash_past (h.congr (by simp)))) hx)
        · exact raiseFault_past (releaseBlocked_past (putHash_past (h.congr (by simp))))
    · exact h

theorem doHashClose_past {found : List Finding} {s : State} {i : Nat} (h : s.Past lo) : (doHashClose found s i).Past lo := by
  unfold doHashClose
  split
  · exact h
  · refine rangerAccess_past h (fun _ h1 => ?_)
    split
    · next hx => exact fst_past hx (applyFindings_past h1)
    · next hx => exact mergeHash_past (fst_past hx (applyFindings_past h1))

end Sys2Proof.Machine
end

section
/-! SUPPORT. O7: the count of a ready module does not fall under tile runs (R403). -/

namespace Sys2Proof.Machine

variable {lo : Nat}

theorem noteSidecars_past {s : State} {c : Ctx} {st : Stream} {cfg : TileCfg} {tbl : LengthTable} {j : Nat} (h : s.Past lo) :
    (noteSidecars s c st cfg tbl j).Past lo := by
  unfold noteSidecars
  split
  · exact h
  · exact foldl_past (fun _ h1 _ => writeEvent_past h1) (ite_past h (h.congr (by simp)))

theorem noteRows_past {c : Ctx} {st : Stream} {cfg : TileCfg} {tbl : LengthTable} {l : List Nat} {s : State} (h : s.Past lo) :
    (noteRows c st cfg tbl l s).Past lo := by
  induction l generalizing s with
  | nil => exact h
  | cons x t ih =>
    rw [noteRows]
    exact ih (noteSidecars_past h)

theorem countPre_past {p layer op : Nat} {l : List (Nat × Nat × Nat)} {s : State} (h : s.Past lo) : (countPre p layer op l s).Past lo := by
  induction l generalizing s with
  | nil => exact h
  | cons x t ih =>
    obtain ⟨_, _, _⟩ := x
    rw [countPre]
    exact ite_past (ih h) (ih (h.congr (by simp)))

theorem issueTiles_past {c : Ctx} {page : Option Nat} {l : List (Nat × TileRun)} {s : State} (h : s.Past lo) :
    (issueTiles c page l s).Past lo := by
  induction l generalizing s with
  | nil => exact h
  | cons x t ih =>
    obtain ⟨_, _⟩ := x
    rw [issueTiles]
    exact ih (countPre_past (h.congr (by simp)))

theorem noteChunk_past {c : Ctx} {d : MultDesc} {i first n : Nat} {s : State} (h : s.Past lo) : (noteChunk c d i first n s).Past lo := by
  unfold noteChunk
  exact ite_past h (countSaturated_past (writeEvent_past (h.congr (by simp))))

theorem noteChunks_past {c : Ctx} {d : MultDesc} {e : TableRow} {keys : List KeyRef} {live : KeyRef → Bool} {l : List Nat} {s : State}
    (h : s.Past lo) : (noteChunks c d e keys live l s).Past lo := by
  induction l generalizing s with
  | nil => exact h
  | cons x t ih =>
    rw [noteChunks]
    exact ih (noteChunk_past h)

theorem countBlind_past {s : State} {p i layer kvHead head q : Nat} (h : s.Past lo) : (countBlind s p i layer kvHead head q).Past lo := by
  unfold countBlind
  exact ite_past h (h.congr (by simp))

theorem noteBlind_past {c : Ctx} {st : Stream} {cfg : TileCfg} {d : MultDesc} {tbl : LengthTable} {l : List Nat} {s : State} (h : s.Past lo) :
    (noteBlind c st cfg d tbl l s).Past lo := by
  induction l generalizing s with
  | nil => exact h
  | cons x t ih =>
    rw [noteBlind]
    refine ih ?_
    split
    · exact h
    · exact countBlind_past h

theorem runTile_past {c : Ctx} {cores : List Nat} {st : Stream} {cfg : TileCfg} {tbl : LengthTable} {found : List Finding} {s : State}
    (h : s.Past lo) : (runTile c cores st cfg tbl found s).Past lo := by
  unfold runTile
  dsimp only
  split
  · exact ite_past (issueTiles_past (dropAhead_past h)) (issueTiles_past (noteRows_past (dropAhead_past h)))
  · refine issueTiles_past ?_
    refine ite_past ?_ ?_
    · refine noteBlind_past ?_
      split
      · exact h
      · exact noteChunks_past h
    · split
      · exact h
      · exact noteChunks_past h

theorem doTile_past {found : List Finding} {c : Ctx} {s : State} (h : s.Past lo) : (doTile found c s).Past lo := by
  unfold doTile
  refine coreCommand_past (fun _ => ?_)
  split
  · refine .ite trivial ?_
    refine withTable_past (fun _ => unlessFault_past (unlessFault_past (unlessFault_past ?_)))
    refine .ite trivial ?_
    exact access_past h (fun _ h1 => withTileFindings_past h1 (fun _ h2 => withStream_past h2 (fun _ h3 => runTile_past h3)))
  · exact trivial

theorem retireCore_past {s : State} {camp core p : Nat} {m : Mismatch} (h : s.Past lo) : (retireCore s camp core p m).Past lo := by
  unfold retireCore
  exact fenceCamp_past (onCore_past (residueEvent_past h))

theorem discardRun_past {s : State} {camp core p : Nat} {t : TileRun} (h : s.Past lo) : (discardRun s camp core p t).Past lo := by
  unfold discardRun
  dsimp only
  split
  · exact retireCore_past h
  · exact onCore_past (ite_past (residueEvent_past h) (retireLanes_past h))

theorem countElems_past {f : State → Nat → Nat → Nat → Nat → State} {p : Nat} {t : TileRun} {l : List Elem} {s : State}
    (hk : ∀ t, t.Past lo → ∀ a b c d, (f t a b c d).Past lo) (h : s.Past lo) : (countElems f p t l s).Past lo := by
  induction l generalizing s with
  | nil => exact h
  | cons x t ih =>
    rw [countElems]
    refine ih ?_
    split
    · exact h
    · exact hk _ h _ _ _ _

theorem acceptTile_past {s : State} {camp core p : Nat} {t : TileRun} (h : s.Past lo) : (acceptTile s camp core p t).Past lo := by
  unfold acceptTile
  exact releaseBlocked_past (onCore_past (countElems_past (fun _ h1 _ _ _ _ => h1.congr (by simp)) h))

theorem nextRun_past {s : State} {camp core : Nat} {t : TileRun} (h : s.Past lo) : (nextRun s camp core t).Past lo := by
  unfold nextRun
  exact h.congr (by simp)

theorem decideRun_past {s : State} {camp core p : Nat} {t : TileRun} (h : s.Past lo) : (decideRun s camp core p t).Past lo := by
  unfold decideRun
  refine ite_past (ite_past (nextRun_past h) (acceptTile_past h)) ?_
  refine ite_past (acceptTile_past (countElems_past (fun _ h1 _ _ _ _ => h1.congr (by simp)) h)) ?_
  refine ite_past (nextRun_past (countElems_past (fun _ h1 _ _ _ _ => h1.congr (by simp)) h)) ?_
  exact nextRun_past (countElems_past (fun _ h1 _ _ _ _ => h1.congr (by simp)) h)

theorem markEvent_past {s : State} {camp p : Nat} {m : WeightMark} {copy : Nat} (h : s.Past lo) : (markEvent s camp p m copy).Past lo := by
  unfold markEvent
  exact ite_past h (writeEvent_past h)

theorem repeatRuns_past {r0 : PitchRecord} {l : List (Nat × Nat × TileRun)} {s : State} (h : s.Past lo) : (repeatRuns r0 l s).Past lo := by
  induction l generalizing s with
  | nil => exact h
  | cons x t ih =>
    obtain ⟨_, _, _⟩ := x
    rw [repeatRuns]
    exact ih (countPre_past (h.congr (by simp)))

theorem joinRun_past {s : State} {camp core : Nat} {r : PitchRecord} {t : TileRun} (h : s.Past lo) :
    (joinRun s camp core r t).Past lo := by
  unfold joinRun
  split
  · exact ite_past (repeatRuns_past h) (onCore_past (markEvent_past h))
  · exact ite_past (decideRun_past h) (discardRun_past h)

theorem execTileRunJoin_past {camp core base : Nat} {wide : Bool} {s : State} (h : s.Past lo) :
    AnswerPast lo (execTileRunJoin camp core base wide s) := by
  unfold execTileRunJoin
  refine .ite ?_ trivial
  split
  · exact .ite (joinRun_past h) h
  · exact h

theorem refetchBlock_past {s : State} {r : PitchRecord} {da : Nat} {poison : Bool} {camp : Nat} {x : TileSource} {ws : List (Nat × Nat × TileRun)}
    (h : s.Past lo) : (refetchBlock s r da poison camp x ws).Past lo := by
  unfold refetchBlock
  refine ite_past h ?_
  refine ite_past (goldenFailed_past h) ?_
  refine ite_past (goldenFailed_past (cxlBad_past h)) ?_
  dsimp only
  split
  · exact goldenFailed_past (markEvent_past (weightRefetchedEvent_past (h.congr (by simp))))
  · exact repeatRuns_past (weightRefetchedEvent_past (h.congr (by simp)))

theorem refetchDue_past {s : State} {p da : Nat} {poison : Bool} (h : s.Past lo) : (refetchDue s p da poison).Past lo := by
  unfold refetchDue
  split
  · exact h.congr (by simp)
  · exact ite_past h (dropBlock_past (scrubWeights_past h))

theorem execWeightRefetched_past {pitch da : Nat} {poison : Bool} {s : State} (h : s.Past lo) :
    AnswerPast lo (execWeightRefetched pitch da poison s) := by
  unfold execWeightRefetched
  refine .ite ?_ trivial
  split
  · exact h
  · dsimp only
    split
    · split
      · exact refetchBlock_past h
      · exact h
    · exact ite_past (refetchDue_past h) h

theorem tredStore_past {c : Ctx} {base : Nat} {wide : Bool} {slot : Option (List Byte)} {cores : List Nat} {s : State} (h : s.Past lo) :
    (tredStore c base wide slot cores s).Past lo := by
  unfold tredStore
  exact h.congr (by simp)

theorem tredOut_past {found : List Finding} {c : Ctx} {cores : List Nat} {height : Nat} {slot : Option (List Byte)} {s : State}
    (h : s.Past lo) : (tredOut found c cores height slot s).Past lo := by
  unfold tredOut
  refine .ite (withFindings_past h (fun _ h1 => tredStore_past h1)) ?_
  exact withSlot_past (fun _ => unlessFault_past (routed_past (writing_past (access_past h (fun _ h2 => withFindings_past h2 (fun _ h3 =>
      h3.congr (by simp)))))))

theorem doTred_past {found : List Finding} {c : Ctx} {s : State} (h : s.Past lo) : (doTred found c s).Past lo := by
  unfold doTred
  refine coreCommand_past (fun _ => ?_)
  dsimp only
  split
  · exact trivial
  · split
    · exact trivial
    · split
      · exact tredOut_past h
      · refine withSlot_past (fun _ => unlessFault_past (routed_past (reading_past (access_past h (fun _ h2 => ?_)))))
        split
        · next hr =>
            have h3 := (tredOut_past h2).congr hr
            split
            · exact h3
            · exact putSlot_past h3
        · exact tredOut_past h2

end Sys2Proof.Machine
end

section
/-! SUPPORT. O7: the count of a ready module does not fall under the vector engine (R403). -/

namespace Sys2Proof.Machine

variable {lo : Nat}

theorem vopCommand_past {w : CmdWord} {mask : Nat} {k : List Nat → CmdRes} (hk : ∀ a, (k a).Past lo) : (vopCommand w mask k).Past lo := by
  unfold vopCommand
  exact coreCommand_past (fun _ => .ite trivial (hk _))

theorem runVop_past {s : State} {camp : Nat} {w : CmdWord} {op : Nat} {f : Ctx → State → CmdRes} (h : s.Past lo)
    (hk : ∀ a t, t.Past lo → (f a t).Past lo) : AnswerPast lo (runVop s camp w op f) := by
  unfold runVop
  exact runCommand_past h (fun _ _ h1 => hk _ _ h1)

theorem vopRun_past {c : Ctx} {cores : List Nat} {f : Core → Core} {s : State} (h : s.Past lo) : (vopRun c cores f s).Past lo := by
  unfold vopRun
  exact h.congr (by simp)

theorem doElem_past {f : Word → Word → Word → Word} {c : Ctx} {s : State} (h : s.Past lo) : (doElem f c s).Past lo := by
  unfold doElem
  exact vopCommand_past (fun _ => vopRun_past h)

theorem retireCores_past {camp : Nat} {l : List Nat} {s : State} (h : s.Past lo) : (retireCores camp l s).Past lo := by
  induction l generalizing s with
  | nil => exact h
  | cons x t ih =>
    rw [retireCores]
    exact ih (h.congr (by simp))

theorem fmaDiscards_past {c : Ctx} {l : Nat} {l1 : List (Nat × Nat)} {l2 : List (List Mismatch)} {s : State} (h : s.Past lo) :
    (fmaDiscards c l l1 l2 s).1.Past lo := by
  induction l2 generalizing l l1 s with
  | nil =>
    rw [fmaDiscards]
    exact h
  | cons x t ih =>
    rw [fmaDiscards]
    split
    · exact ih h
    · dsimp only
      split
      · exact fenceCamp_past (retireCores_past (residueEvent_past h))
      · exact ih (residueEvent_past h)

theorem withFma_past {mis : List (List Mismatch)} {c : Ctx} {s : State} {k : State → CmdRes} (h : s.Past lo)
    (hk : ∀ t, t.Past lo → (k t).Past lo) : (withFma mis c s k).Past lo := by
  unfold withFma
  split
  · next hx => exact fst_past hx (fmaDiscards_past h)
  · next hx => exact hk _ (fst_past hx (fmaDiscards_past h))

theorem doFmaElem_past {f : Word → Word → Word → Word} {mis : List (List Mismatch)} {c : Ctx} {s : State} (h : s.Past lo) :
    (doFmaElem f mis c s).Past lo := by
  unfold doFmaElem
  exact vopCommand_past (fun _ => withFma_past h (fun _ h2 => vopRun_past h2))

theorem withTiles_past {c : Ctx} {s : State} {cores : List Nat} {k : CmdRes} (hk : k.Past lo) : (withTiles c s cores k).Past lo := by
  unfold withTiles
  dsimp only
  split
  · exact trivial
  · exact .ite trivial hk

theorem countScores_past {p : Nat} {t : TileRun} {slab : Nat} {vs : List Word} {l : List Nat} {s : State} (h : s.Past lo) :
    (countScores p t slab vs l s).Past lo := by
  induction l generalizing s with
  | nil => exact h
  | cons x t ih =>
    rw [countScores]
    refine ih ?_
    split
    · exact h
    · exact h
    · exact h.congr (by simp)

theorem noteNaN_past {r : PitchRecord} {t : TileRun} {slab : Nat} {vs : List Word} {bound : List (Nat × Nat)} {l : List Nat} {s : State}
    (h : s.Past lo) : (noteNaN r t slab vs bound l s).Past lo := by
  induction l generalizing s with
  | nil => exact h
  | cons x t ih =>
    rw [noteNaN]
    refine ih ?_
    split
    · exact ite_past (countBlind_past (h.congr (by simp))) (h.congr (by simp))
    · exact h

theorem noteLookout_past {r : PitchRecord} {t : TileRun} {slab : Nat} {vs : List Word} {l : List Nat} {s : State} (h : s.Past lo) :
    (noteLookout r t slab vs l s).Past lo := by
  induction l generalizing s with
  | nil => exact h
  | cons x t ih =>
    rw [noteLookout]
    refine ih ?_
    split
    · split
      · exact ite_past (h.congr (by simp)) h
      · exact h
    · exact h

theorem noteReads_past {c : Ctx} {ldacc : Bool} {l : List Nat} {s : State} (h : s.Past lo) : (noteReads c ldacc l s).Past lo := by
  induction l generalizing s with
  | nil => exact h
  | cons x t ih =>
    rw [noteReads]
    refine ih ?_
    split
    · exact h
    · exact ite_past (noteLookout_past (noteNaN_past (countScores_past h))) (noteNaN_past (countScores_past h))

theorem doAcc_past {ldacc : Bool} {f : Int → Int → Word → Word → Word} {mis : List (List Mismatch)} {c : Ctx} {s : State} (h : s.Past lo) :
    (doAcc ldacc f mis c s).Past lo := by
  unfold doAcc
  exact vopCommand_past (fun _ => withTiles_past (withFma_past h (fun _ h2 => noteReads_past (vopRun_past h2))))

theorem nonfiniteEvents_past {camp p handle layer level fmt pos : Nat} {l : List (Block × Nat)} {l1 : List ReqVal} {s : State} (h : s.Past lo) :
    (nonfiniteEvents camp p handle layer level fmt pos l l1 s).Past lo := by
  induction l generalizing l1 s with
  | nil => exact h
  | cons x t ih =>
    obtain ⟨_, _⟩ := x
    rw [nonfiniteEvents]
    exact ih (ite_past (writeEvent_past h) h)

theorem countRow_past {s : State} {p i layer : Nat} {f : FormedRow} (h : s.Past lo) : (countRow s p i layer f).Past lo := by
  unfold countRow
  exact onLayer_past (ite_past (h.congr (by simp)) (h.congr (by simp)))

theorem lookoutWrite_past {s : State} {c : Ctx} {e : TableRow} {act layer : Nat} {xs : List ReqVal} (h : s.Past lo) :
    (lookoutWrite s c e act layer xs).Past lo := by
  unfold lookoutWrite
  split
  · exact h
  · exact ite_past (h.congr (by simp)) h

theorem chargeRow_past {s : State} {c : Ctx} {tbl : Option LengthTable} {tag : Option (Nat × Nat)} {f : FormedRow} {xs : List ReqVal}
    (h : s.Past lo) : (chargeRow s c tbl tag f xs).Past lo := by
  unfold chargeRow
  dsimp only
  split
  · exact nonfiniteEvents_past h
  · exact lookoutWrite_past (countRow_past (nonfiniteEvents_past h))

theorem chargeRows_past {c : Ctx} {tbl : Option LengthTable} {l : List (FormedRow × List ReqVal × Option (Nat × Nat))} {s : State}
    (h : s.Past lo) : (chargeRows c tbl l s).Past lo := by
  induction l generalizing s with
  | nil => exact h
  | cons x t ih =>
    obtain ⟨_, _, _⟩ := x
    rw [chargeRows]
    exact ih (chargeRow_past h)

theorem outCore_past {c : Ctx} {tbl : Option LengthTable} {core : Nat} {s : State} (h : s.Past lo) : (outCore c tbl core s).Past lo := by
  unfold outCore
  exact chargeRows_past (h.congr (by simp))

theorem outCores_past {c : Ctx} {tbl : Option LengthTable} {l : List Nat} {s : State} (h : s.Past lo) : (outCores c tbl l s).Past lo := by
  induction l generalizing s with
  | nil => exact h
  | cons x t ih =>
    rw [outCores]
    exact ih (outCore_past h)

theorem finishOut_past {found : List Finding} {c : Ctx} {s : State} {cores : List Nat} {tbl : Option LengthTable} (h : s.Past lo) :
    (finishOut found c s cores tbl).Past lo := by
  unfold finishOut
  exact unlessFault_past (withFindings_past h (fun _ h1 => iterate_past (fun _ h2 => outCores_past h2) h1))

theorem doReqout_past {found : List Finding} {c : Ctx} {s : State} (h : s.Past lo) : (doReqout found c s).Past lo := by
  unfold doReqout
  refine vopCommand_past (fun _ => .ite trivial ?_)
  split
  · exact trivial
  · exact .ite (finishOut_past h) (withTable_past (fun _ => finishOut_past h))

theorem doVReserved_past {c : Ctx} {a0 : State}  : (doVReserved c a0).Past lo := by
  unfold doVReserved
  exact coreCommand_past (fun _ => trivial)

end Sys2Proof.Machine
end

section
/-! SUPPORT. O7: the count of a ready module does not fall under selection, appends and page moves (R403). -/

namespace Sys2Proof.Machine

variable {lo : Nat}

theorem markSelected_past {p step : Nat} {l : List Nat} {s : State} (h : s.Past lo) : (markSelected p step l s).Past lo := by
  induction l generalizing s with
  | nil => exact h
  | cons x t ih =>
    rw [markSelected]
    exact ih (h.congr (by simp))

theorem selectRow_past {s : State} {r : PitchRecord} {m : MicroRow} {layer : Nat} {qs : List LanternQuery} (h : s.Past lo) :
    (selectRow s r m layer qs).Past lo := by
  unfold selectRow
  dsimp only
  split
  · exact h
  · exact onPitch_past (markSelected_past h)

theorem doLantern_past {s : State} {r : PitchRecord} {row layer : Nat} {qs : List LanternQuery} {found : List Finding} (h : s.Past lo) :
    (doLantern s r row layer qs found).Past lo := by
  unfold doLantern
  dsimp only
  split
  · exact h
  · exact ite_past h (rangerReads_past h (fun _ h1 => ite_past (selectRow_past h1) h1))

theorem dropHot_past {s : State} {p n : Nat} (h : s.Past lo) : (dropHot s p n).Past lo := by
  unfold dropHot
  exact h.congr (by simp)

theorem removeIdle_past {s : State} {p k : Nat} (h : s.Past lo) : (removeIdle s p k).Past lo := by
  unfold removeIdle
  exact h.congr (by simp)

theorem hotSpace_past {p len l : Nat} {s : State} {res : Nat × State} (h : s.Past lo) (hx : hotSpace p len l s = some res) :
    res.2.Past lo := by
  induction l generalizing s res with
  | zero =>
    rw [hotSpace] at hx
    exact allocHot_past h hx
  | succ n ih =>
    rw [hotSpace] at hx
    split at hx
    · next hy =>
        cases hx
        exact allocHot_past h hy
    · split at hx
      · exact ih (dropHot_past h) hx
      · split at hx
        · exact ih (removeIdle_past h) hx
        · cases hx

theorem roomFor_past {s : State} {p len : Nat} {res : Nat × State} (h : s.Past lo) (hx : roomFor s p len = some res) : res.2.Past lo := by
  unfold roomFor at hx
  exact hotSpace_past h hx

theorem warmSpace_past {p n len l : Nat} {s : State} {res : Nat × State} (h : s.Past lo) (hx : warmSpace p n len l s = some res) :
    res.2.Past lo := by
  induction l generalizing s res with
  | zero =>
    rw [warmSpace] at hx
    exact allocWarm_past h hx
  | succ n ih =>
    rw [warmSpace] at hx
    split at hx
    · next hy =>
        cases hx
        exact allocWarm_past h hy
    · split at hx
      · exact ih (removeIdle_past h) hx
      · cases hx

theorem demoteNow_past {s : State} {p n : Nat} {res : State} (h : s.Past lo) (hx : demoteNow s p n = some res) : res.Past lo := by
  unfold demoteNow at hx
  dsimp only at hx
  split at hx
  · cases hx
  · next hy =>
      split at hx
      · cases hx
      · split at hx
        · cases hx
          exact dropHot_past ((warmSpace_past h hy).congr (by simp))
        · cases hx
          exact (warmSpace_past h hy).congr (by simp)

theorem flushRoom_past {p len l : Nat} {s : State} {res : Nat × State} (h : s.Past lo) (hx : flushRoom p len l s = some res) :
    res.2.Past lo := by
  induction l generalizing s res with
  | zero =>
    rw [flushRoom] at hx
    exact roomFor_past h hx
  | succ n ih =>
    rw [flushRoom] at hx
    split at hx
    · next hy =>
        cases hx
        exact roomFor_past h hy
    · split at hx
      · cases hx
      · split at hx
        · cases hx
        · next hy => exact ih (demoteNow_past h hy) hx

theorem spaceNow_past {s : State} {p len : Nat} {res : Nat × State} (h : s.Past lo) (hx : spaceNow s p len = some res) :
    res.2.Past lo := by
  unfold spaceNow at hx
  exact flushRoom_past h hx

theorem withPiece_past {s : State} {p n : Nat} {res : State} (h : s.Past lo) (hx : withPiece s p n = some res) : res.Past lo := by
  unfold withPiece at hx
  split at hx
  · cases hx
    exact h
  · obtain ⟨y, hm, rfl⟩ := Option.map_eq_some_iff.1 hx
    exact onPitch_past (spaceNow_past h hm)

theorem newPage_past {s : State} {p heads d : Nat} {res : Nat × Nat × State} (h : s.Past lo) (hx : newPage s p heads d = some res) :
    res.2.2.Past lo := by
  unfold newPage at hx
  dsimp only at hx
  split at hx
  · cases hx
  · next hy =>
      obtain ⟨y, hm, rfl⟩ := Option.map_eq_some_iff.1 hx
      exact spaceNow_past (withPiece_past h hy) hm

theorem takePlaces_past {p len n : Nat} {s : State} {res : List Nat × State} (h : s.Past lo) (hx : takePlaces p len n s = some res) :
    res.2.Past lo := by
  induction n generalizing s res with
  | zero =>
    rw [takePlaces] at hx
    cases hx
    exact h
  | succ n ih =>
    rw [takePlaces] at hx
    split at hx
    · cases hx
    · next hy =>
        obtain ⟨y, hm, rfl⟩ := Option.map_eq_some_iff.1 hx
        exact (ih (spaceNow_past h hy) hm :)

theorem freePlaces_past {p : Nat} {l : List Nat} {s : State} (h : s.Past lo) : (freePlaces p l s).Past lo := by
  induction l generalizing s with
  | nil => exact h
  | cons x t ih =>
    rw [freePlaces]
    exact ih (h.congr (by simp))

theorem fitPlaces_past {s : State} {p len n : Nat} {have_ : List Nat} {res : List Nat × State} (h : s.Past lo)
    (hx : fitPlaces s p len n have_ = some res) : res.2.Past lo := by
  unfold fitPlaces at hx
  obtain ⟨y, hm, rfl⟩ := Option.map_eq_some_iff.1 hx
  exact freePlaces_past (takePlaces_past h hm)

theorem fitLayer_past {s : State} {p i j : Nat} {res : State} (h : s.Past lo) (hx : fitLayer s p i j = some res) : res.Past lo := by
  unfold fitLayer at hx
  split at hx
  · cases hx
    exact h
  · dsimp only at hx
    split at hx
    · cases hx
    · next hy =>
        obtain ⟨y, hm, rfl⟩ := Option.map_eq_some_iff.1 hx
        exact onSeq_past (fitPlaces_past (fitPlaces_past h hy) hm)

theorem fitLayers_past {p i : Nat} {l : List Nat} {s : State} {res : State} (h : s.Past lo) (hx : fitLayers p i l s = some res) :
    res.Past lo := by
  induction l generalizing s res with
  | nil =>
    rw [fitLayers] at hx
    cases hx
    exact h
  | cons x t ih =>
    rw [fitLayers] at hx
    split at hx
    · cases hx
    · next hy => exact ih (fitLayer_past h hy) hx

theorem fitSeq_past {s : State} {p i : Nat} {res : State} (h : s.Past lo) (hx : fitSeq s p i = some res) : res.Past lo := by
  unfold fitSeq at hx
  exact fitLayers_past h hx

theorem openStaging_past {s : State} {i j tag len : Nat} {res : State} (h : s.Past lo) (hx : openStaging s i j tag len = some res) :
    res.Past lo := by
  unfold openStaging at hx
  dsimp only at hx
  split at hx
  · cases hx
    exact h
  · split at hx
    · cases hx
      exact h.congr (by simp)
    · obtain ⟨y, hm, rfl⟩ := Option.map_eq_some_iff.1 hx
      exact onSeq_past (spaceNow_past h hm)

theorem putToken_past {s : State} {r : PitchRecord} {base tag heads d t : Nat} {rows : List Byte} (h : s.Past lo) :
    (putToken s r base tag heads d t rows).Past lo := by
  unfold putToken
  exact foldl_past (fun _ h1 _ => h1.congr (by simp)) h

theorem onLayerAt_past {s : State} {i j : Nat} {f : LayerState → LayerState} (h : s.Past lo) : (onLayerAt s i j f).Past lo := by
  unfold onLayerAt
  exact h.congr (by simp)

theorem flushStaging_past {s : State} {r : PitchRecord} {i layer j heads d : Nat} {res : State} (h : s.Past lo)
    (hx : flushStaging s r i layer j heads d = some res) : res.Past lo := by
  unfold flushStaging at hx
  split at hx
  · cases hx
    exact h
  · dsimp only at hx
    split at hx
    · cases hx
    · next hy =>
        split at hx
        · cases hx
        · next hy1 => exact fitLayer_past (onLayerAt_past ((spaceNow_past (newPage_past h hy) hy1).congr (by simp))) hx

theorem appendTokens_past {r : PitchRecord} {i layer j heads d : Nat} {l : List (List Byte)} {s : State} {res : State} (h : s.Past lo)
    (hx : appendTokens r i layer j heads d l s = some res) : res.Past lo := by
  induction l generalizing s res with
  | nil =>
    rw [appendTokens] at hx
    cases hx
    exact h
  | cons x t ih =>
    rw [appendTokens] at hx
    split at hx
    · cases hx
    · next hy =>
        split at hx
        · cases hx
          exact openStaging_past h hy
        · dsimp only at hx
          split at hx
          · split at hx
            · cases hx
            · next hy1 => exact ih (flushStaging_past (onLayerAt_past (putToken_past (openStaging_past h hy))) hy1) hx
          · exact ih (onLayerAt_past (putToken_past (openStaging_past h hy))) hx

theorem noSpace_past {s : State} {r : PitchRecord} {i : Nat} (h : s.Past lo) : (noSpace s r i).Past lo := by
  unfold noSpace
  split
  · exact ite_past (devicePark_past h) (holdAtBoundary_past h)
  · exact holdAtBoundary_past h

theorem appendRows_past {r : PitchRecord} {layer j heads d : Nat} {bs : List Byte} {l : List MicroRow} {s t : State} (h : s.Past lo)
    (hx : appendRows r layer j heads d bs l s = .ok t) : t.Past lo := by
  induction l generalizing s with
  | nil =>
    rw [appendRows] at hx
    cases hx
    exact h
  | cons m l ih =>
    rw [appendRows] at hx
    split at hx
    · next hy => exact ih (appendTokens_past h hy) hx
    · cases hx

theorem appendSlotFull_past {s : State} {r : PitchRecord} {x : Slot} {l : LayerImage} (h : s.Past lo) :
    (appendSlotFull s r x l).1.Past lo := by
  unfold appendSlotFull
  split
  · next hy => exact appendRows_past h hy
  · exact noSpace_past h

theorem writeList_past {s : State} {r : PitchRecord} {c : Chosen} {res : State × Chosen} (h : s.Past lo) (hx : writeList s r c = some res) :
    res.1.Past lo := by
  unfold writeList at hx
  dsimp only at hx
  split at hx
  · obtain ⟨y, hm, rfl⟩ := Option.map_eq_some_iff.1 hx
    exact pokeBytes_past (roomFor_past h hm)
  · cases hx
    exact h

theorem writeLists_past {r : PitchRecord} {layer : Nat} {l : List Chosen} {s : State} {res : State} (h : s.Past lo)
    (hx : writeLists r layer l s = some res) : res.Past lo := by
  induction l generalizing s res with
  | nil =>
    rw [writeLists] at hx
    cases hx
    exact h
  | cons x t ih =>
    rw [writeLists] at hx
    split at hx
    · split at hx
      · cases hx
      · next hy => exact ih (onPitch_past (writeList_past h hy)) hx
    · exact ih h hx

theorem doChunkLists_past {s : State} {r : PitchRecord} {layer : Nat} (h : s.Past lo) : (doChunkLists s r layer).Past lo := by
  unfold doChunkLists
  dsimp only
  split
  · exact h
  · refine ite_past ?_ h
    split
    · exact h
    · next hx =>
        refine rangerAccess_past h (fun _ h2 => ?_)
        split
        · exact h2
        · next hx1 => exact getD_past (fun _ hx => signalSync_past (writeLists_past h2 hx1) hx) (writeLists_past h2 hx1)

theorem execPagePromotionStart_past {pitch page : Nat} {s : State} (h : s.Past lo) : AnswerPast lo (execPagePromotionStart pitch page s) := by
  unfold execPagePromotionStart
  refine .ite ?_ trivial
  refine .ite ?_ h
  split
  · exact h
  · next hx => exact .ite ((roomFor_past h hx).congr (by simp)) ((roomFor_past h hx).congr (by simp))

theorem warmBad_past {s : State} {p n : Nat} (h : s.Past lo) : (warmBad s p n).Past lo := by
  unfold warmBad
  exact cxlBad_past h

theorem restartWaits_past {s : State} {p n : Nat} (h : s.Past lo) : (restartWaits s p n).Past lo := by
  unfold restartWaits
  exact h.congr (by simp)

theorem doPromotionDone_past {s : State} {p n : Nat} {ok : Bool} (h : s.Past lo) : (doPromotionDone s p n ok).Past lo := by
  unfold doPromotionDone
  refine ite_past h ?_
  refine rangerAccess_past h (fun _ h1 => ite_past (h1.congr (by simp)) ?_)
  exact ite_past (restartWaits_past (h1.congr (by simp))) (pageLost_past (putPage_past (freeRange_past (warmBad_past h1))))

theorem doDemotionStart_past {s : State} {r : PitchRecord} (h : s.Past lo) : (doDemotionStart s r).Past lo := by
  unfold doDemotionStart
  refine ite_past ?_ (h.congr (by simp))
  split
  · exact h.congr (by simp)
  · split
    · exact h.congr (by simp)
    · next hx =>
        exact ite_past ((warmSpace_past (h.congr (by simp)) hx).congr (by simp)) ((warmSpace_past (h.congr
            (by simp)) hx).congr (by simp))

theorem doDemotionDone_past {s : State} {r : PitchRecord} {n : Nat} {found : List Finding} (h : s.Past lo) :
    (doDemotionDone s r n found).Past lo := by
  unfold doDemotionDone
  refine ite_past h ?_
  exact rangerReads_past h (fun _ h1 => ite_past h1 (ite_past (h1.congr (by simp)) (ite_past (dropHot_past (h1.congr (by simp)))
      (h1.congr (by simp)))))

theorem startWaitingAll_past {s : State} {p n : Nat} (h : s.Past lo) : (startWaitingAll s p n).Past lo := by
  unfold startWaitingAll
  exact h.congr (by simp)

theorem doPageRefetched_past {s : State} {p n : Nat} {warmOk : Bool} (h : s.Past lo) : (doPageRefetched s p n warmOk).Past lo := by
  unfold doPageRefetched
  refine ite_past h ?_
  refine rangerAccess_past h (fun _ h1 => ?_)
  refine ite_past (startWaitingAll_past (rangerEvent_past (h1.congr (by simp)))) ?_
  exact startWaitingAll_past (pageLost_past (warmBad_past h1))

end Sys2Proof.Machine
end

section
/-! SUPPORT. O7: the count of a ready module does not fall under packets that the module sends (R403). -/

namespace Sys2Proof.Machine

variable {lo : Nat}

theorem pump_past {s : State} (h : s.Past lo) : (pump s).Past lo := h.congr (by simp)

@[simp] theorem sendPeer_clock (s : State) (r : PitchRecord) (device : Nat) (msg : List Byte) :
    (sendPeer s r device msg).cairn = s.cairn ∧ (sendPeer s r device msg).boot = s.boot := by
  simp [sendPeer]

theorem sendPeer_past {s : State} {r : PitchRecord} {device : Nat} {msg : List Byte} (h : s.Past lo) :
    (sendPeer s r device msg).Past lo := h.congr (by simp)

end Sys2Proof.Machine
end

section
/-! SUPPORT. O7: the count of a ready module does not fall under programs, slots and waits (R403). -/

namespace Sys2Proof.Machine

variable {lo : Nat}

theorem writeTable_past {s : State} {r : PitchRecord} {n : Nat} (h : s.Past lo) : (writeTable s r n).Past lo := by
  unfold writeTable
  split
  · exact h
  · exact ite_past (h.congr (by simp)) h

theorem startProgram_past {s : State} {r : PitchRecord} {camp rel : Nat} {k : LoadedProgram} {first slot : Nat} {params : List Word}
    {ready : NMap Nat} (h : s.Past lo) : (startProgram s r camp rel k first slot params ready).Past lo := by
  unfold startProgram
  exact ite_past h (ite_past (raiseFault_past (writeTable_past (h.congr (by simp)))) (writeTable_past (h.congr (by simp))))

theorem execProgramStart_past {pitch camp program first tableSlot : Nat} {params : List Word} {ready : NMap Nat} {s : State} (h : s.Past lo) :
    AnswerPast lo (execProgramStart pitch camp program first tableSlot params ready s) := by
  unfold execProgramStart
  refine .ite ?_ trivial
  split
  · exact h
  · split
    · exact .ite (startProgram_past h) h
    · exact h

theorem fillDone_past {s : State} {p n : Nat} {x : Slot} (h : s.Past lo) : (fillDone s p n x).Past lo := by
  unfold fillDone
  exact h.congr (by simp)

theorem doSlotFilled_past {s : State} {r : PitchRecord} {n : Nat} {found : List Finding} (h : s.Past lo) :
    (doSlotFilled s r n found).Past lo := by
  unfold doSlotFilled
  split
  · exact h
  · refine ite_past ?_ h
    split
    · exact fillDone_past h
    · exact rangerReads_past h (fun _ h1 => ite_past h1 (ite_past (fillDone_past (appendSlotFull_past h1)) (appendSlotFull_past h1)))

theorem doSlotDrained_past {s : State} {r : PitchRecord} {n : Nat} (h : s.Past lo) : (doSlotDrained s r n).Past lo := by
  unfold doSlotDrained
  split
  · exact h
  · exact ite_past (h.congr (by simp)) h

theorem doTimeout_past {s : State} {camp : Nat} (h : s.Past lo) : (doTimeout s camp).Past lo := by
  unfold doTimeout
  dsimp only
  split
  · exact ite_past (ite_past (onPitch_past (rerunStep_past (writeEvent_past h))) (raiseFault_past h)) h
  · exact h

end Sys2Proof.Machine
end

section
/-! SUPPORT. O7: the count of a ready module does not fall under the operations on sequences (R403). -/

namespace Sys2Proof.Machine

variable {lo : Nat}

theorem stagingHeader_past {s : State} {r : PitchRecord} {i j : Nat} (h : s.Past lo) : (stagingHeader s r i j).Past lo := by
  unfold stagingHeader
  split
  · exact h
  · exact ite_past h (h.congr (by simp))

theorem reopenPage_past {s : State} {r : PitchRecord} {i j p count : Nat} {res : State} (h : s.Past lo)
    (hx : reopenPage s r i j p count = some res) : res.Past lo := by
  unfold reopenPage at hx
  split at hx
  · cases hx
    exact h
  · obtain ⟨s1, hopen, rfl⟩ := Option.map_eq_some_iff.1 hx
    have h1 := openStaging_past h hopen
    split
    · exact h1
    · exact onLayerAt_past (h1.congr (by simp))

theorem truncateLayer_past {s : State} {r : PitchRecord} {i n j : Nat} {res : State} (h : s.Past lo)
    (hx : truncateLayer s r i n j = some res) : res.Past lo := by
  unfold truncateLayer at hx
  split at hx
  · cases hx
    exact h
  · obtain ⟨s1, hopen, rfl⟩ := Option.map_eq_some_iff.1 hx
    have h1 : s1.Past lo := by
      split at hopen
      · cases hopen
        exact onLayerAt_past h
      · split at hopen
        · exact reopenPage_past h hopen
        · cases hopen
          exact onLayerAt_past h
    refine stagingHeader_past (getD_past (fun _ hfit => fitLayer_past ?_ hfit) ?_) <;> exact onLayerAt_past (dropRefs_past h1)

theorem truncateLayers_past {r : PitchRecord} {i n : Nat} {l : List Nat} {s : State} {res : State} (h : s.Past lo)
    (hx : truncateLayers r i n l s = some res) : res.Past lo := by
  induction l generalizing s res with
  | nil =>
    rw [truncateLayers] at hx
    cases hx
    exact h
  | cons x t ih =>
    rw [truncateLayers] at hx
    split at hx
    · cases hx
    · next hy => exact ih (truncateLayer_past h hy) hx

theorem importDone_past {s : State} {i : Nat} (h : s.Past lo) : (importDone s i).Past lo := by
  unfold importDone
  dsimp only
  split
  · exact h
  · refine ite_past h ?_
    exact ite_past (answer_past (rangerEvent_past (h.congr (by simp)))) (rangerEvent_past (h.congr (by simp)))

theorem truncateSeq_past {s : State} {r : PitchRecord} {i n : Nat} {res : State} (h : s.Past lo) (hx : truncateSeq s r i n = some res) :
    res.Past lo := by
  unfold truncateSeq at hx
  obtain ⟨y, hm, rfl⟩ := Option.map_eq_some_iff.1 hx
  exact importDone_past ((truncateLayers_past h hm).congr (by simp))

theorem journalNote_past {s : State} {i : Nat} (h : s.Past lo) : (journalNote s i).Past lo := by
  unfold journalNote
  exact h.congr (by simp)

theorem insertNode_past {s : State} {r : PitchRecord} {i c : Nat} {tokens : List Nat} (h : s.Past lo) :
    (insertNode s r i c tokens).Past lo := by
  unfold insertNode
  refine ite_past h ?_
  refine ite_past h ?_
  dsimp only
  split
  · exact h
  · next hx => exact (spaceNow_past h hx).congr (by simp)

theorem touchNodes_past {s : State} {p : Nat} {chain : List Nat} (h : s.Past lo) : (touchNodes s p chain).Past lo := by
  unfold touchNodes
  exact h.congr (by simp)

theorem nodeUsers_past {s : State} {p : Nat} {node : Option Nat} {f : Nat → Nat} (h : s.Past lo) : (nodeUsers s p node f).Past lo := by
  unfold nodeUsers
  split
  · exact h
  · exact h.congr (by simp)

theorem holdIfLost_past {s : State} {i : Nat} (h : s.Past lo) : (holdIfLost s i).Past lo := by
  unfold holdIfLost
  exact ite_past (holdSeq_past h) h

theorem createSeq_past {s : State} {r : PitchRecord} {i : Nat} {chain tokens : List Nat} {insert : Bool} (h : s.Past lo) :
    (createSeq s r i chain tokens insert).Past lo := by
  unfold createSeq
  exact journalNote_past (putSeq_past (nodeUsers_past (touchNodes_past (h.congr (by simp)))))

theorem copyStaging_past {s : State} {r : PitchRecord} {i j : Nat} {res : State} (h : s.Past lo) (hx : copyStaging s r i j = some res) :
    res.Past lo := by
  unfold copyStaging at hx
  split at hx
  · cases hx
    exact h
  · split at hx
    · cases hx
      exact onLayerAt_past h
    · dsimp only at hx
      split at hx
      · cases hx
      · next hy =>
          cases hx
          exact stagingHeader_past (onLayerAt_past ((spaceNow_past h hy).congr (by simp)))

theorem copyStagings_past {r : PitchRecord} {i : Nat} {l : List Nat} {s : State} {res : State} (h : s.Past lo)
    (hx : copyStagings r i l s = some res) : res.Past lo := by
  induction l generalizing s res with
  | nil =>
    rw [copyStagings] at hx
    cases hx
    exact h
  | cons x t ih =>
    rw [copyStagings] at hx
    split at hx
    · cases hx
    · next hy => exact ih (copyStaging_past h hy) hx

theorem forkSeq_past {s : State} {r : PitchRecord} {i k : Nat} {res : State} (h : s.Past lo) (hx : forkSeq s r i k = some res) :
    res.Past lo := by
  unfold forkSeq at hx
  dsimp only at hx
  split at hx
  · obtain ⟨s1, hcopy, hfit⟩ := Option.bind_eq_some_iff.1 hx
    exact fitSeq_past (copyStagings_past (h.congr (by simp)) hcopy) hfit
  · cases hx

theorem freeStagings_past {p : Nat} {l : List LayerState} {s : State} (h : s.Past lo) : (freeStagings p l s).Past lo := by
  induction l generalizing s with
  | nil => exact h
  | cons x t ih =>
    rw [freeStagings]
    exact ih (freePlaces_past (h.congr (by simp)))

theorem releaseSeq_past {s : State} {i : Nat} (h : s.Past lo) : (releaseSeq s i).Past lo := by
  unfold releaseSeq
  exact freeEntry_past (nodeUsers_past (freeStagings_past (h.congr (by simp))))

theorem freeSeq_past {s : State} {i : Nat} (h : s.Past lo) : (freeSeq s i).Past lo := by
  unfold freeSeq
  exact tellGroup_past (releaseSeq_past h)

theorem beginPark_past {s : State} {i : Nat} {rid : Option Nat} {tag space : Nat} {d : ParkDesc} (h : s.Past lo) :
    (beginPark s i rid tag space d).Past lo := by
  unfold beginPark
  exact h.congr (by simp)

theorem resumeInPlace_past {s : State} {i tag : Nat} {o : Origin} {places : NMap (Nat × Nat)} (h : s.Past lo) :
    (resumeInPlace s i tag o places).Past lo := by
  unfold resumeInPlace
  exact ite_past (h.congr (by simp)) (rangerEvent_past (h.congr (by simp)))

end Sys2Proof.Machine
end

section
/-! SUPPORT. O7: the count of a ready module does not fall under parked images (R403). -/

namespace Sys2Proof.Machine

variable {lo : Nat}

theorem sendImage_past {n tag l l1 : Nat} {l2 : List Byte} {s : State} (h : s.Past lo) : (sendImage n tag l l1 l2 s).Past lo := by
  induction l generalizing l1 l2 s with
  | zero => exact h
  | succ n ih =>
    rw [sendImage]
    exact ite_past h (ih (h.congr (by simp)))

theorem reserveStaging_past {r : PitchRecord} {i : Nat} {m : ImageRead} {l : List Nat} {s : State} {res : State} (h : s.Past lo)
    (hx : reserveStaging r i m l s = some res) : res.Past lo := by
  induction l generalizing s res with
  | nil =>
    rw [reserveStaging] at hx
    cases hx
    exact h
  | cons x t ih =>
    rw [reserveStaging] at hx
    dsimp only at hx
    split at hx
    · exact ih (onLayerAt_past h) hx
    · split at hx
      · cases hx
      · next hy => exact ih (onLayerAt_past (spaceNow_past h hy)) hx

theorem addPage_past {s : State} {r : PitchRecord} {i j k : Nat} {m : ImageRead} {res : State} (h : s.Past lo)
    (hx : addPage s r i j k m = some res) : res.Past lo := by
  unfold addPage at hx
  dsimp only at hx
  split at hx
  · split at hx
    · cases hx
      exact onLayerAt_past (h.congr (by simp))
    · cases hx
  · obtain ⟨y, hm, rfl⟩ := Option.map_eq_some_iff.1 hx
    exact onLayerAt_past (putPage_past (newPage_past h hm))

theorem addPages_past {r : PitchRecord} {i j : Nat} {m : ImageRead} {l : List Nat} {s : State} {res : State} (h : s.Past lo)
    (hx : addPages r i j m l s = some res) : res.Past lo := by
  induction l generalizing s res with
  | nil =>
    rw [addPages] at hx
    cases hx
    exact h
  | cons x t ih =>
    rw [addPages] at hx
    split at hx
    · cases hx
    · next hy => exact ih (addPage_past h hy) hx

theorem readLayers_past {r : PitchRecord} {i : Nat} {m : ImageRead} {l : List Nat} {s : State} {res : State} (h : s.Past lo)
    (hx : readLayers r i m l s = some res) : res.Past lo := by
  induction l generalizing s res with
  | nil =>
    rw [readLayers] at hx
    cases hx
    exact h
  | cons x t ih =>
    rw [readLayers] at hx
    dsimp only at hx
    split at hx
    · cases hx
    · next hy =>
        split at hx
        · cases hx
        · next hy1 =>
            exact ih (stagingHeader_past (fitLayer_past (onLayerAt_past (addPages_past (ite_past h (h.congr (by simp))) hy)) hy1)) hx

theorem restoreSummaries_past {s : State} {p heads d j : Nat} {m : ImageRead} {l : List (Nat × Nat)} {res : State} (h : s.Past lo)
    (hx : restoreSummaries s p heads d j m l = some res) : res.Past lo := by
  induction l generalizing s res with
  | nil =>
    rw [restoreSummaries] at hx
    cases hx
    exact h
  | cons x t ih =>
    obtain ⟨_, _⟩ := x
    rw [restoreSummaries] at hx
    split at hx
    · split at hx
      · cases hx
      · next hy => exact ih ((spaceNow_past h hy).congr (by simp)) hx
    · exact ih h hx

theorem restoreLayers_past {r : PitchRecord} {i : Nat} {m : ImageRead} {l : List Nat} {s : State} {res : State} (h : s.Past lo)
    (hx : restoreLayers r i m l s = some res) : res.Past lo := by
  induction l generalizing s res with
  | nil =>
    rw [restoreLayers] at hx
    cases hx
    exact h
  | cons x t ih =>
    rw [restoreLayers] at hx
    dsimp only at hx
    split at hx
    · cases hx
    · next hy => exact ih (restoreSummaries_past h hy) hx

theorem takeImage_past {s : State} {r : PitchRecord} {i count space : Nat} {bs : List Byte} {m : ImageRead} {res : State} (h : s.Past lo)
    (hx : takeImage s r i count space bs m = .ok res) : res.Past lo := by
  unfold takeImage at hx
  split at hx
  · cases hx
  · dsimp only at hx
    split at hx
    · cases hx
    · next hy =>
        split at hx
        · cases hx
        · split at hx
          · cases hx
          · cases hx
            exact reserveStaging_past (h.congr (by simp)) hy

theorem askRange_past {s : State} {x : ImageSource} {tag : Nat} {a : Nat × Nat} (h : s.Past lo) : (askRange s x tag a).Past lo := by
  unfold askRange
  exact ite_past (sendMessage_past (ite_past (h.congr (by simp)) h)) (h.congr (by simp))

theorem askRanges_past {x : ImageSource} {tag : Nat} {l : List (Nat × Nat)} {s : State} (h : s.Past lo) :
    (askRanges x tag l s).Past lo := by
  induction l generalizing s with
  | nil => exact h
  | cons x t ih =>
    rw [askRanges]
    exact ih (askRange_past h)

theorem askPage_past {s : State} {i : Nat} (h : s.Past lo) : (askPage s i).Past lo := by
  unfold askPage
  dsimp only
  split
  · split
    · exact askRange_past h
    · exact h
  · exact h

theorem imageTaken_past {s : State} {i tag : Nat} {o : Origin} {m : ImageRead} (h : s.Past lo) : (imageTaken s i tag o m).Past lo := by
  unfold imageTaken
  exact askPage_past (h.congr (by simp))

theorem resumeExported_past {s : State} {r : PitchRecord} {i tag : Nat} {o : Origin} {m : ImageRead} {res : State} (h : s.Past lo)
    (hx : resumeExported s r i tag o m = some res) : res.Past lo := by
  unfold resumeExported at hx
  obtain ⟨y, hm, rfl⟩ := Option.map_eq_some_iff.1 hx
  exact importDone_past (askPage_past (resumeInPlace_past (restoreLayers_past h hm)))

end Sys2Proof.Machine
end

section
/-! SUPPORT. O7: the count of a ready module does not fall under the decisions of the lead (R403). -/

namespace Sys2Proof.Machine

variable {lo : Nat}

theorem openEntry_past {s : State} {i : Nat} (h : s.Past lo) : (openEntry s i).Past lo := by
  unfold openEntry
  exact h.congr (by simp)

theorem heldEntry_past {s : State} {r : PitchRecord} {i : Nat} (h : s.Past lo) : (heldEntry s r i).Past lo := by
  unfold heldEntry
  exact holdSeq_past (h.congr (by simp))

theorem refusedEvent_past {s : State} {p check result : Nat} {m : ImageRead} (h : s.Past lo) :
    (refusedEvent s p check result m).Past lo := by
  unfold refusedEvent
  exact rangerEvent_past h

theorem tellRefusal_past {s : State} {r : PitchRecord} {i check result : Nat} (h : s.Past lo) :
    (tellRefusal s r i check result).Past lo := by
  unfold tellRefusal
  exact sendPeer_past h

theorem followResume_past {s : State} {r : PitchRecord} {hd tag : Nat} {sources : List Byte} {m : ImageRead} (h : s.Past lo) :
    (followResume s r hd tag sources m).Past lo := by
  unfold followResume
  dsimp only
  have hasked (x : ImageSource) : (if sourceOk r x (sourceFor sources r) then askRanges x tag (allReads m) s else s).Past lo := by
    split
    · exact askRanges_past h
    · exact h
  split
  · exact tellRefusal_past (refusedEvent_past (hasked _))
  · next hy =>
      split
      · exact tellRefusal_past (refusedEvent_past (hasked _))
      · next hx => exact holdIfLost_past (imageTaken_past (readLayers_past (takeImage_past (openEntry_past (hasked _)) hy) hx))

theorem followCheck_past {s0 : State} {r : PitchRecord} {i tag : Nat} {image : Option ImageRead} (h : s0.Past lo) :
    (followCheck s0 r i tag image).Past lo := by
  unfold followCheck
  dsimp only
  split
  · refine ite_past h ?_
    refine ite_past (tellRefusal_past (askRanges_past h)) ?_
    exact ite_past (tellRefusal_past (askRanges_past h)) (askRanges_past h)
  · exact h

theorem followInPlace_past {s : State} {r : PitchRecord} {i tag : Nat} {image : Option ImageRead} (h : s.Past lo) :
    (followInPlace s r i tag image).Past lo := by
  unfold followInPlace
  refine ite_past h ?_
  split
  · exact resumeInPlace_past h
  · exact h
  · exact getD_past (fun _ hx => resumeExported_past h hx) (holdSeq_past h)

theorem followFork_past {s : State} {r : PitchRecord} {parent child : Nat} (h : s.Past lo) : (followFork s r parent child).Past lo := by
  unfold followFork
  split
  · exact heldEntry_past h
  · next hx => exact holdIfLost_past (forkSeq_past (openEntry_past h) hx)

theorem applyDecision_past {s : State} {r : PitchRecord} {l : LeadDecision} (h : s.Past lo) : (applyDecision s r l).Past lo := by
  unfold applyDecision
  split
  · dsimp only
    split
    · next hx =>
        exact ite_past (holdIfLost_past ((fitSeq_past (createSeq_past (openEntry_past h)) hx).congr (by simp))) (heldEntry_past h)
    · exact heldEntry_past h
  · exact ite_past (insertNode_past h) h
  · split
    · exact h
    · exact h.congr (by simp)
  · exact ite_past (getD_past (fun _ hx => truncateSeq_past h hx) (holdAtBoundary_past h)) h
  · exact ite_past (followFork_past h) h
  · exact ite_past (beginPark_past h) h
  · exact ite_past (devicePark_past h) h
  · exact ite_past (followCheck_past h) h
  · exact ite_past (followInPlace_past h) h
  · exact followResume_past h
  · exact ite_past (releaseSeq_past h) h

theorem applyDecisions_past {r : PitchRecord} {l : List LeadDecision} {s : State} (h : s.Past lo) : (applyDecisions r l s).Past lo := by
  induction l generalizing s with
  | nil => exact h
  | cons x t ih =>
    rw [applyDecisions]
    exact ih (applyDecision_past h)

end Sys2Proof.Machine
end

section
/-! SUPPORT. O7: the count of a ready module does not fall under the serving loop (R403). -/

namespace Sys2Proof.Machine

variable {lo : Nat}

theorem endRequest_past {s : State} {i : Nat} {q : Request} {result endCode : Nat} (h : s.Past lo) :
    (endRequest s i q result endCode).Past lo := by
  unfold endRequest
  exact ite_past (freeSeq_past (h.congr (by simp))) (h.congr (by simp))

theorem takeRows_past {r : PitchRecord} {tick : Nat} {masks : NMap Nat} {l : Room} {l1 : List MicroRow} {l2 : List Nat} {s : State}
    (h : s.Past lo) : (takeRows r tick masks l l1 l2 s).1.Past lo := by
  induction l2 generalizing l l1 s with
  | nil =>
    rw [takeRows]
    exact h
  | cons x t ih =>
    rw [takeRows]
    split
    · exact ih h
    · dsimp only
      split
      · exact ih h
      · split
        · exact ih (endRequest_past h)
        · split
          · exact ih (endRequest_past h)
          · split
            · exact ih (endRequest_past h)
            · split
              · exact ih (endRequest_past h)
              · split
                · exact ih h
                · exact ih (h.congr (by simp))

theorem compose_past {s : State} {r : PitchRecord} {tick : Nat} {masks : NMap Nat} (h : s.Past lo) :
    (compose s r tick masks).1.Past lo := by
  unfold compose
  exact takeRows_past h

theorem followRow_past {s : State} {r : PitchRecord} {x : LengthRow} (h : s.Past lo) : (followRow s r x).Past lo := by
  unfold followRow
  exact ite_past (h.congr (by simp)) (h.congr (by simp))

theorem followRows_past {r : PitchRecord} {l : List LengthRow} {s : State} (h : s.Past lo) : (followRows r l s).Past lo := by
  induction l generalizing s with
  | nil => exact h
  | cons x t ih =>
    rw [followRows]
    exact ih (followRow_past h)

theorem placeStagings_past {s : State} {p : Nat} {rows : List MicroRow} (h : s.Past lo) : (placeStagings s p rows).Past lo := by
  unfold placeStagings
  exact h.congr (by simp)

theorem enterStep_past {s : State} {p m : Nat} {rows : List MicroRow} (h : s.Past lo) : (enterStep s p m rows).Past lo := by
  unfold enterStep
  exact onPitch_past (placeStagings_past h)

theorem trimTree_past {p need l : Nat} {s : State} (h : s.Past lo) : (trimTree p need l s).Past lo := by
  induction l generalizing s with
  | zero => exact h
  | succ n ih =>
    rw [trimTree]
    refine ite_past h ?_
    split
    · exact h
    · exact ih (removeIdle_past h)

theorem sendStarts_past {r : PitchRecord} {n tick : Nat} {ds : List LeadDecision} {l : List Nat} {s : State} (h : s.Past lo) :
    (sendStarts r n tick ds l s).Past lo := by
  induction l generalizing s with
  | nil => exact h
  | cons x t ih =>
    rw [sendStarts]
    exact ih (sendPeer_past h)

theorem leadStart_past {s : State} {r : PitchRecord} {n tick : Nat} {rows : List MicroRow} (h : s.Past lo) :
    (leadStart s r n tick rows).Past lo := by
  unfold leadStart
  exact onPitch_past (sendStarts_past (enterStep_past (ite_past (trimTree_past h) h)))

theorem tellStopped_past {s : State} {r : PitchRecord} {tick : Nat} (h : s.Past lo) : (tellStopped s r tick).Past lo := by
  unfold tellStopped
  exact ite_past (onPitch_past (sendStarts_past h)) h

theorem startStep_past {s0 : State} {r : PitchRecord} {table : List LengthRow} {decisions : List LeadDecision} {masks : NMap Nat}
    (h : s0.Past lo) : (startStep s0 r table decisions masks).Past lo := by
  unfold startStep
  refine ite_past (ite_past h (repairNow_past h)) ?_
  refine ite_past (tellStopped_past (ite_past h (repairNow_past h))) ?_
  refine ite_past (leadStart_past (compose_past (ite_past h (repairNow_past h)))) ?_
  exact enterStep_past (followRows_past (applyDecisions_past (ite_past h (repairNow_past h))))

theorem writeToken_past {s : State} {q : Request} {k token : Nat} (h : s.Past lo) : (writeToken s q k token).Past lo := by
  unfold writeToken
  split
  · exact h.congr (by simp)
  · exact h

theorem progress_past {s : State} {i : Nat} {q : Request} (h : s.Past lo) : (progress s i q).Past lo := by
  unfold progress
  exact ite_past (h.congr (by simp)) h

theorem takeToken_past {s : State} {i : Nat} {q : Request} {token : Nat} (h : s.Past lo) : (takeToken s i q token).Past lo := by
  unfold takeToken
  refine ite_past (endRequest_past (progress_past (onSeq_past (onReq_past (writeToken_past h))))) ?_
  refine ite_past (endRequest_past (progress_past (onSeq_past (onReq_past (writeToken_past h))))) ?_
  refine ite_past (endRequest_past (progress_past (onSeq_past (onReq_past (writeToken_past h))))) ?_
  exact progress_past (onSeq_past (onReq_past (writeToken_past h)))

theorem nextStep_past {s : State} {i : Nat} {q : Request} (h : s.Past lo) : (nextStep s i q).Past lo := by
  unfold nextStep
  exact ite_past (endRequest_past h) (h.congr (by simp))

theorem closeRow_past {s : State} {m : MicroRow} {token : Option Nat} (h : s.Past lo) : (closeRow s m token).Past lo := by
  unfold closeRow
  split
  · exact h
  · refine ite_past h ?_
    refine ite_past (nextStep_past h) ?_
    refine ite_past (endRequest_past h) ?_
    split
    · exact nextStep_past h
    · exact takeToken_past h

theorem closeRows_past {tokens : NMap Nat} {l : List MicroRow} {s : State} (h : s.Past lo) : (closeRows tokens l s).Past lo := by
  induction l generalizing s with
  | nil => exact h
  | cons x t ih =>
    rw [closeRows]
    exact ih (closeRow_past h)

theorem commitPages_past {r : PitchRecord} {i j : Nat} {l : List Nat} {s : State} (h : s.Past lo) : (commitPages r i j l s).Past lo := by
  induction l generalizing s with
  | nil => exact h
  | cons x t ih =>
    rw [commitPages]
    exact ite_past (ih h) (ih (ite_past (onLayerAt_past (onLayerAt_past (h.congr (by simp)))) (onLayerAt_past (h.congr (by simp)))))

theorem commitLayer_past {s : State} {r : PitchRecord} {i j : Nat} (h : s.Past lo) : (commitLayer s r i j).Past lo := by
  unfold commitLayer
  split
  · exact h
  · exact stagingHeader_past (onLayerAt_past (commitPages_past (ite_past h (h.congr (by simp)))))

theorem commitLayers_past {r : PitchRecord} {i : Nat} {l : List Nat} {s : State} (h : s.Past lo) : (commitLayers r i l s).Past lo := by
  induction l generalizing s with
  | nil => exact h
  | cons x t ih =>
    rw [commitLayers]
    exact ih (commitLayer_past h)

theorem noteDecision_past {s : State} {i : Nat} {d : Decision} (h : s.Past lo) : (noteDecision s i d).Past lo := by
  unfold noteDecision
  exact h.congr (by simp)

theorem applyOutcome_past {s : State} {r : PitchRecord} {i j : Nat} {o : Bool} {value : Nat} (h : s.Past lo) :
    (applyOutcome s r i j o value).Past lo := by
  unfold applyOutcome
  dsimp only
  split
  · exact h
  · refine ite_past (onLayerAt_past h) ?_
    refine ite_past (noteDecision_past (onLayerAt_past h)) ?_
    refine ite_past ?_ (rangerEvent_past (noteDecision_past (onLayerAt_past h)))
    exact ite_past (noteDecision_past (onLayerAt_past h)) (rangerEvent_past (noteDecision_past (onLayerAt_past h)))

theorem applyOutcomes_past {r : PitchRecord} {i : Nat} {l : List Nat} {s : State} (h : s.Past lo) : (applyOutcomes r i l s).Past lo := by
  induction l generalizing s with
  | nil => exact h
  | cons x t ih =>
    rw [applyOutcomes]
    split
    · exact ih h
    · split
      · exact ih h
      · exact ih (applyOutcome_past (ite_past (onLayerAt_past h) h))

theorem insertNodes_past {r : PitchRecord} {i : Nat} {l : List Nat} {s : State} (h : s.Past lo) : (insertNodes r i l s).Past lo := by
  induction l generalizing s with
  | nil => exact h
  | cons x t ih =>
    rw [insertNodes]
    exact ih (insertNode_past h)

theorem insertRow_past {s : State} {r : PitchRecord} {m : MicroRow} (h : s.Past lo) : (insertRow s r m).Past lo := by
  unfold insertRow
  exact ite_past (insertNodes_past h) h

theorem insertRows_past {r : PitchRecord} {l : List MicroRow} {s : State} (h : s.Past lo) : (insertRows r l s).Past lo := by
  induction l generalizing s with
  | nil => exact h
  | cons x t ih =>
    rw [insertRows]
    exact ih (insertRow_past h)

theorem commitRow_past {s : State} {r : PitchRecord} {m : MicroRow} (h : s.Past lo) : (commitRow s r m).Past lo := by
  unfold commitRow
  refine ite_past h ?_
  refine ite_past (insertRow_past (onSeq_past (commitLayers_past (applyOutcomes_past h)))) ?_
  exact onSeq_past (commitLayers_past (applyOutcomes_past h))

theorem commitRows_past {r : PitchRecord} {l : List MicroRow} {s : State} (h : s.Past lo) : (commitRows r l s).Past lo := by
  induction l generalizing s with
  | nil => exact h
  | cons x t ih =>
    rw [commitRows]
    exact ih (commitRow_past h)

theorem journalRows_past {l : List MicroRow} {s : State} (h : s.Past lo) : (journalRows l s).Past lo := by
  induction l generalizing s with
  | nil => exact h
  | cons x t ih =>
    rw [journalRows]
    exact ih (ite_past h (journalNote_past h))

theorem clearStep_past {s : State} {p : Nat} (h : s.Past lo) : (clearStep s p).Past lo := by
  unfold clearStep
  exact h.congr (by simp)

theorem clearHolds_past {s : State} {g : Option Nat} {ps : List Nat} (h : s.Past lo) : (clearHolds s g ps).Past lo := by
  unfold clearHolds
  exact h.congr (by simp)

theorem restoreModel_past {s : State} {p : Nat} (h : s.Past lo) : (restoreModel s p).Past lo := by
  unfold restoreModel
  split
  · exact h
  · split
    · exact h
    · exact rangerEvent_past (clearHolds_past (h.congr (by simp)))

theorem reportClose_past {s : State} {r : PitchRecord} {tokens : NMap Nat} (h : s.Past lo) : (reportClose s r tokens).Past lo := by
  unfold reportClose
  exact ite_past (h.congr (by simp)) (onPitch_past (sendPeer_past h))

theorem allReported_past {s : State} {r : PitchRecord} (h : s.Past lo) : (allReported s r).Past lo := by
  unfold allReported
  exact ite_past (onPitch_past (insertRows_past h)) h

theorem parkMarked_past {s : State} {r : PitchRecord} (h : s.Past lo) : (parkMarked s r).Past lo := h.congr (by simp)

theorem checkpointPairs_past {s : State} (h : s.Past lo) : (checkpointPairs s).Past lo := by
  unfold checkpointPairs
  exact h.congr (by simp)

theorem boundary_past {s0 : State} {r : PitchRecord} {logits : List RowLogits} {found : List Finding} (h : s0.Past lo) :
    (boundary s0 r logits found).Past lo := by
  unfold boundary
  refine ite_past h ?_
  refine rangerReads_past h (fun _ h1 => ?_)
  refine ite_past h1 ?_
  exact checkpointPairs_past (parkMarked_past (allReported_past (reportClose_past (restoreModel_past (clearStep_past (journalRows_past
      (ite_past (closeRows_past (onPitch_past (commitRows_past h1))) (commitRows_past h1))))))))

theorem takeReport_past {s : State} {r : PitchRecord} {position : Nat} {tokens : NMap Nat} (h : s.Past lo) :
    (takeReport s r position tokens).Past lo := by
  unfold takeReport
  exact ite_past h (parkMarked_past (allReported_past (ite_past (closeRows_past (h.congr (by simp))) (h.congr (by simp)))))

end Sys2Proof.Machine
end

section
/-! SUPPORT. O7: the count of a ready module does not fall under the sequence commands (R403). -/

namespace Sys2Proof.Machine

variable {lo : Nat}

theorem preemptRequests_past {s : State} {i : Nat} (h : s.Past lo) : (preemptRequests s i).Past lo := by
  unfold preemptRequests
  refine endQueued_past ?_
  split
  · exact h
  · exact h.congr (by simp)

theorem afterPreempt_past {s : State} {q : Request} (h : s.Past lo) : (afterPreempt s q).Past lo := by
  unfold afterPreempt
  exact ite_past (preemptRequests_past h) h

theorem onDue_past {s0 : State} {rid op : Nat} {f : State → Request → PitchRecord → State} (h : s0.Past lo)
    (hk : ∀ t, t.Past lo → ∀ a b, (f t a b).Past lo) : (onDue s0 rid op f).Past lo := by
  unfold onDue
  split
  · exact h
  · refine ite_past (h.congr (by simp)) ?_
    refine ite_past (afterPreempt_past h) ?_
    refine ite_past (finishPlain_past (afterPreempt_past h)) ?_
    exact ite_past (finishPlain_past (afterPreempt_past h)) (hk _ (afterPreempt_past h) _ _)

theorem doCreate_past {s : State} {q : Request} {r : PitchRecord} (h : s.Past lo) : (doCreate s q r).Past lo := by
  unfold doCreate
  split
  · exact h.congr (by simp)
  · refine ite_past ?_ (h.congr (by simp))
    split
    · exact h.congr (by simp)
    · next hx => exact holdIfLost_past ((fitSeq_past (createSeq_past h) hx).congr (by simp))

theorem doContinue_past {s : State} {q : Request} (h : s.Past lo) : (doContinue s q).Past lo := by
  unfold doContinue
  dsimp only
  split
  · exact h.congr (by simp)
  · exact ite_past (h.congr (by simp)) (h.congr (by simp))
  · exact h.congr (by simp)

theorem finishTruncate_past {s : State} {q : Request} {r : PitchRecord} (h : s.Past lo) : (finishTruncate s q r).Past lo := by
  unfold finishTruncate
  split
  · exact h.congr (by simp)
  · next hx => exact (truncateSeq_past h hx).congr (by simp)

theorem doTruncate_past {s : State} {q : Request} {r : PitchRecord} (h : s.Past lo) : (doTruncate s q r).Past lo := by
  unfold doTruncate
  exact ite_past (h.congr (by simp)) (ite_past (h.congr (by simp)) (ite_past (h.congr (by simp)) (ite_past (h.congr
      (by simp)) (finishTruncate_past h))))

theorem doCopyDone_past {s : State} {q : Request} {r : PitchRecord} {found : List Finding} (h : s.Past lo) :
    (doCopyDone s q r found).Past lo := by
  unfold doCopyDone
  refine ite_past (h.congr (by simp)) ?_
  exact ite_past h (rangerReads_past h (fun _ h1 => ite_past h1 (ite_past (h1.congr (by simp)) (finishTruncate_past h1))))

theorem execTruncationCopyDone_past {rid : Nat} {found : List Finding} {s : State} (h : s.Past lo) :
    AnswerPast lo (execTruncationCopyDone rid found s) := by
  unfold execTruncationCopyDone
  split
  · exact h
  · split
    · exact h
    · exact .ite (doCopyDone_past h) h

theorem doFork_past {s : State} {q : Request} {r : PitchRecord} (h : s.Past lo) : (doFork s q r).Past lo := by
  unfold doFork
  refine ite_past (h.congr (by simp)) ?_
  split
  · exact h.congr (by simp)
  · split
    · exact h.congr (by simp)
    · next hx => exact holdIfLost_past ((forkSeq_past h hx).congr (by simp))

theorem doFree_past {s : State} {q : Request} (h : s.Past lo) : (doFree s q).Past lo := by
  unfold doFree
  exact freeSeq_past (h.congr (by simp))

theorem doPark_past {s : State} {q : Request} (h : s.Past lo) : (doPark s q).Past lo := by
  unfold doPark
  refine ite_past (h.congr (by simp)) ?_
  exact ite_past (finishPlain_past (tellGroup_past (beginPark_past h))) (onReq_past (tellGroup_past (beginPark_past h)))

theorem doFormDone_past {s : State} {r : PitchRecord} {i : Nat} {back : NMap (List Byte)} {found : List Finding} (h : s.Past lo) :
    (doFormDone s r i back found).Past lo := by
  unfold doFormDone
  dsimp only
  split
  · exact h
  · refine ite_past h ?_
    split
    · exact pageLost_past h
    · refine rangerReads_past h (fun _ h1 => ite_past h1 ?_)
      exact ite_past (abortPark_past (h1.congr (by simp))) (onSeq_past (ite_past (h1.congr (by simp)) (sendImage_past (h1.congr (by simp)))))

theorem execParkFormDone_past {seq : Nat} {exported : NMap (List Byte)} {found : List Finding} {s : State} (h : s.Past lo) :
    AnswerPast lo (execParkFormDone seq exported found s) := by
  unfold execParkFormDone
  refine .ite ?_ trivial
  split
  · exact h
  · exact doFormDone_past h

theorem exportPage_past {s : State} {p n : Nat} (h : s.Past lo) : (exportPage s p n).Past lo := by
  unfold exportPage
  exact ite_past (h.congr (by simp)) h

theorem exportPages_past {p : Nat} {l : List Nat} {s : State} (h : s.Past lo) : (exportPages p l s).Past lo := by
  induction l generalizing s with
  | nil => exact h
  | cons x t ih =>
    rw [exportPages]
    exact ih (exportPage_past h)

theorem completePark_past {s : State} {k : ParkState} (h : s.Past lo) : (completePark s k).Past lo := by
  unfold completePark
  split
  · exact h
  · exact h.congr (by simp)

theorem doParkCommit_past {s : State} {i : Nat} {error : Bool} (h : s.Past lo) : (doParkCommit s i error).Past lo := by
  unfold doParkCommit
  dsimp only
  split
  · exact h
  · refine ite_past h ?_
    refine ite_past (abortPark_past h) ?_
    refine ite_past h ?_
    refine ite_past (releaseSeq_past (completePark_past (h.congr (by simp)))) ?_
    exact onSeq_past (exportPages_past (completePark_past (h.congr (by simp))))

theorem refuseResume_past {s : State} {q : Request} {check result : Nat} {m : ImageRead} (h : s.Past lo) :
    (refuseResume s q check result m).Past lo := by
  unfold refuseResume
  exact finish_past (refusedEvent_past h)

theorem withImage_past {s : State} {q : Request} {x : ImageSource} {m : ImageRead} {k : State → State} (h : s.Past lo)
    (hk : ∀ t, t.Past lo → (k t).Past lo) : (withImage s q x m k).Past lo := by
  unfold withImage
  refine ite_past h ?_
  split
  · exact hk _ h
  · exact askRanges_past (h.congr (by simp))

theorem resumeImage_past {s : State} {q : Request} {r : PitchRecord} {m : ImageRead} (h : s.Past lo) :
    (resumeImage s q r m).Past lo := by
  unfold resumeImage
  split
  · exact refuseResume_past h
  · split
    · exact refuseResume_past h
    · next hx => exact tellGroup_past (onReq_past (takeImage_past h hx))

theorem finishInPlace_past {s : State} {q : Request} {r : PitchRecord} {m : ImageRead} (h : s.Past lo) :
    (finishInPlace s q r m).Past lo := by
  unfold finishInPlace
  split
  · exact h.congr (by simp)
  · next hx => exact (resumeExported_past (h.congr (by simp)) hx).congr (by simp)

theorem resumeHere_past {s : State} {q : Request} {r : PitchRecord} {m : ImageRead} (h : s.Past lo) : (resumeHere s q r m).Past lo := by
  unfold resumeHere
  refine ite_past (h.congr (by simp)) ?_
  split
  · exact finishPlain_past (tellGroup_past (resumeInPlace_past h))
  · exact withImage_past h (fun _ h1 => ite_past (h1.congr (by simp)) (ite_past (finishInPlace_past h1) (h1.congr (by simp))))

theorem doResume_past {image : Option ImageRead} {s : State} {q : Request} {r : PitchRecord} (h : s.Past lo) :
    (doResume image s q r).Past lo := by
  unfold doResume
  refine ite_past (resumeHere_past h) ?_
  split
  · exact refuseResume_past h
  · exact withImage_past h (fun _ h1 => resumeImage_past h1)

theorem dropResume_past {s : State} {q : Request} (h : s.Past lo) : (dropResume s q).Past lo := by
  unfold dropResume
  exact ite_past h (freeSeq_past h)

theorem doRecordsRead_past {s : State} {q : Request} {r : PitchRecord} {peer : Option (Nat × Nat)} (h : s.Past lo) :
    (doRecordsRead s q r peer).Past lo := by
  unfold doRecordsRead
  refine ite_past (finish_past (dropResume_past h)) ?_
  split
  · exact h
  · exact finish_past (dropResume_past h)
  · refine ite_past (ite_past (ite_past (finishInPlace_past h) (h.congr (by simp))) h) ?_
    split
    · exact refuseResume_past (dropResume_past h)
    · next hx => exact holdIfLost_past (finish_past (imageTaken_past (readLayers_past h hx)))

theorem execResumeRecordsRead_past {rid : Nat} {peer : Option (Nat × Nat)} {s : State} (h : s.Past lo) :
    AnswerPast lo (execResumeRecordsRead rid peer s) := by
  unfold execResumeRecordsRead
  split
  · exact h
  · split
    · exact h
    · exact .ite (doRecordsRead_past h) h

theorem landImport_past {s : State} {p n i : Nat} {bs : List Byte} {hot : Bool} {o : Option (Nat × State)} (h : s.Past lo)
    (ho : ∀ x, o = some x → x.2.Past lo) : (landImport s p n i bs hot o).Past lo := by
  unfold landImport
  split
  · exact h
  · have h1 := ho _ rfl
    dsimp only at h1 ⊢
    split
    · exact h
    · split
      · exact h1.congr (by simp)
      · exact importDone_past (askPage_past (h1.congr (by simp)))

theorem importLost_past {s : State} {p n code i : Nat} (h : s.Past lo) : (importLost s p n code i).Past lo := by
  unfold importLost
  exact importDone_past (askPage_past (pageLost_past h))

theorem doPageImport_past {s : State} {p n : Nat} {ok : Bool} {payload : List Byte} (h : s.Past lo) :
    (doPageImport s p n ok payload).Past lo := by
  unfold doPageImport
  dsimp only
  split
  · exact h
  · split
    · exact h
    · split
      · exact importLost_past h
      · refine landImport_past h (fun _ hx => ?_)
        split at hx
        · exact roomFor_past h hx
        · exact warmSpace_past h hx

theorem doReadTimeout_past {s : State} {p n : Nat} (h : s.Past lo) : (doReadTimeout s p n).Past lo := by
  unfold doReadTimeout
  split
  · exact h
  · exact ite_past (importLost_past h) h

theorem doStatus_past {peers : List (List Byte)} {s : State} {q : Request} {r : PitchRecord} (h : s.Past lo) :
    (doStatus peers s q r).Past lo := by
  unfold doStatus
  refine ite_past h ?_
  refine ite_past (h.congr (by simp)) ?_
  refine finish_past ?_
  split
  · exact h.congr (by simp)
  · exact h

end Sys2Proof.Machine
end

section
/-! SUPPORT. O7: the count of a ready module does not fall under accepted submissions (R403). -/

namespace Sys2Proof.Machine

variable {lo : Nat}

theorem acceptEntry_past {s : State} {o : Origin} {p : Nat} {d : FetchedData} (h : s.Past lo) : (acceptEntry s o p d).Past lo := by
  unfold acceptEntry
  dsimp only
  split
  · exact h.congr (by simp)
  · split <;> exact h.congr (by simp)

end Sys2Proof.Machine
end

section
/-! SUPPORT. O7: the count of a ready module does not fall under datagrams (R403). -/

namespace Sys2Proof.Machine

variable {lo : Nat}

theorem acceptDatagram_past {s : State} {d : Datagram} (h : s.Past lo) : (acceptDatagram s d).Past lo := by
  unfold acceptDatagram
  exact h.congr (by simp)

theorem withDatagram_past {s : State} {d : Datagram} {type : Nat} {f : State → State} (h : s.Past lo)
    (hk : ∀ t, t.Past lo → (f t).Past lo) : (withDatagram s d type f).Past lo := by
  unfold withDatagram
  exact ite_past (hk _ (acceptDatagram_past (atTime_past h))) (atTime_past h)

end Sys2Proof.Machine
end

section
/-! SUPPORT. O7: the count of a ready module does not fall under the host port (R403). -/

namespace Sys2Proof.Machine

variable {lo : Nat}

theorem doorbellInvalid_past {s : State} {fn object : Nat} {value : Word} (h : s.Past lo) :
    (doorbellInvalid s fn object value).Past lo := by
  unfold doorbellInvalid
  exact eventOnce_past (fun _ h1 => writeEvent_past h1) h

theorem readEntries_past {fn base entries l l1 : Nat} {s : State} (h : s.Past lo) : (readEntries fn base entries l l1 s).Past lo := by
  induction l generalizing l1 s with
  | zero => exact h
  | succ n ih =>
    rw [readEntries]
    exact ih (h.congr (by simp))

theorem doSubmissionDoorbell_past {s : State} {fn ring : Nat} {value : Word} (h : s.Past lo) :
    (doSubmissionDoorbell s fn ring value).Past lo := by
  unfold doSubmissionDoorbell
  refine ite_past h ?_
  dsimp only
  split
  · exact doorbellInvalid_past h
  · exact ite_past (doorbellInvalid_past h) (readEntries_past (h.congr (by simp)))

theorem doCompletionDoorbell_past {s : State} {fn ring : Nat} {value : Word} (h : s.Past lo) :
    (doCompletionDoorbell s fn ring value).Past lo := by
  unfold doCompletionDoorbell
  refine ite_past h ?_
  dsimp only
  split
  · exact doorbellInvalid_past h
  · exact ite_past (doorbellInvalid_past h) (ite_past h (h.congr (by simp)))

theorem sendReads_past {fn : Nat} {l : List (Nat × Nat)} {s : State} (h : s.Past lo) : (sendReads fn l s).Past lo := by
  induction l generalizing s with
  | nil => exact h
  | cons x t ih =>
    rw [sendReads]
    exact ih (h.congr (by simp))

theorem doSubmissionFetch_past {s0 : State} {fn ring : Nat} {d : Option FetchedData} {poisoned : Bool} (h : s0.Past lo) :
    (doSubmissionFetch s0 fn ring d poisoned).Past lo := by
  unfold doSubmissionFetch
  dsimp only
  split
  · exact ite_past (h.congr (by simp)) h
  · refine ite_past (ite_past (h.congr (by simp)) h) ?_
    split
    · exact writeEvent_past (putFn_past (ite_past (h.congr (by simp)) h))
    · exact acceptEntry_past (sendReads_past (putFn_past (ite_past (h.congr (by simp)) h)))

theorem collisionEvent_past {s : State} {fn mb : Nat} (h : s.Past lo) : (collisionEvent s fn mb).Past lo := by
  unfold collisionEvent
  exact eventOnce_past (fun _ h1 => writeEvent_past h1) h

theorem mailWrite_past {s : State} {fn mb : Nat} {words : NMap Word} (h : s.Past lo) : (mailWrite s fn mb words).Past lo := by
  unfold mailWrite
  refine ite_past h ?_
  dsimp only
  split
  · exact h.congr (by simp)
  · split
    · exact h.congr (by simp)
    · exact collisionEvent_past (h.congr (by simp))
    · exact h.congr (by simp)
    · exact collisionEvent_past (h.congr (by simp))

theorem ackMail_past {s : State} {fn mb code : Nat} {reply : List Word} (h : s.Past lo) : (ackMail s fn mb code reply).Past lo :=
  h.congr (by simp)

theorem mailWrites_past {fn mb : Nat} {l : List (NMap Word)} {s : State} (h : s.Past lo) : (mailWrites fn mb l s).Past lo := by
  induction l generalizing s with
  | nil => exact h
  | cons x t ih =>
    rw [mailWrites]
    exact ih (mailWrite_past h)

theorem mailRun_past {s : State} {fn mb type : Nat} {posts : List (NMap Word)} {act : List Word → State → MailResult} (h : s.Past lo)
    (hk : ∀ a t, t.Past lo → (act a t).state.Past lo) : (mailRun s fn mb type posts act).Past lo := by
  unfold mailRun
  have h1 : (mailWrites fn mb posts (takeMail s fn mb)).Past lo := mailWrites_past (h.congr (by simp))
  dsimp only
  split
  · exact h
  · split
    · exact ackMail_past h1
    · split
      · exact ackMail_past (hk _ _ h1)
      · exact h

theorem actRingCreate_past {fn : Nat} {msg : List Word} {s : State} (h : s.Past lo) : (actRingCreate fn msg s).state.Past lo := by
  unfold actRingCreate
  dsimp only
  split
  · exact h
  · split
    · exact h
    · split
      · split
        · exact h
        · exact h.congr (by simp)
      · split
        · exact h
        · exact h.congr (by simp)

theorem actRingDestroy_past {fn : Nat} {msg : List Word} {s : State} (h : s.Past lo) : (actRingDestroy fn msg s).state.Past lo := by
  unfold actRingDestroy
  dsimp only
  split
  · exact h
  · split
    · split
      · exact h
      · exact h.congr (by simp)
    · split
      · exact h
      · exact h.congr (by simp)

theorem actAttachBegin_past {fn : Nat} {_msg : List Word} {s : State} (h : s.Past lo) : (actAttachBegin fn _msg s).state.Past lo := by
  unfold actAttachBegin
  split
  · exact h
  · exact h.congr (by simp)

theorem actAttach_past {fn mb : Nat} {msg : List Word} {s : State} (h : s.Past lo) : (actAttach fn mb msg s).state.Past lo := by
  unfold actAttach
  dsimp only
  split
  · split
    · exact h.congr (by simp)
    · exact writeEvent_past (h.congr (by simp))
  · exact writeEvent_past h

theorem msixWrite_past {s : State} {fn entry word : Nat} {value : Word} (h : s.Past lo) : (msixWrite s fn entry word value).Past lo := by
  unfold msixWrite
  exact ite_past (h.congr (by simp)) (ite_past (h.congr (by simp)) (ite_past (h.congr (by simp)) (ite_past (h.congr
      (by simp)) (h.congr (by simp)))))

theorem doRegisterWrite_past {s : State} {fn bar offset : Nat} {value : Word} (h : s.Past lo) :
    (doRegisterWrite s fn bar offset value).Past lo := by
  unfold doRegisterWrite
  refine ite_past h ?_
  refine ite_past (ite_past (h.congr (by simp)) h) ?_
  exact ite_past (msixWrite_past h) (ite_past (ite_past (mailWrite_past h) (ite_past (h.congr (by simp)) h)) h)

theorem endFor_past {s : State} {q : Request} (h : s.Past lo) : (endFor s q).1.Past lo := by
  unfold endFor
  dsimp only
  split
  · exact h.congr (by simp)
  · exact h.congr (by simp)
  · split
    · exact freeSeq_past (h.congr (by simp))
    · exact h.congr (by simp)
  · split
    · exact abortPark_past h
    · exact h.congr (by simp)
  · exact dropResume_past (h.congr (by simp))

theorem endCommands_past {l : List Request} {s : State} {l1 : Nat} (h : s.Past lo) : (endCommands l s l1).1.Past lo := by
  induction l generalizing s l1 with
  | nil =>
    rw [endCommands]
    exact h
  | cons x t ih =>
    rw [endCommands]
    exact ih (endFor_past h)

theorem abortParksTo_past {fn : Nat} {l : List Nat} {s : State} (h : s.Past lo) : (abortParksTo fn l s).Past lo := by
  induction l generalizing s with
  | nil => exact h
  | cons x t ih =>
    rw [abortParksTo]
    refine ih ?_
    split
    · exact h
    · exact ite_past (abortPark_past h) h

theorem dropNotices_past {s : State} {fn : Nat} (h : s.Past lo) : (dropNotices s fn).Past lo := by
  unfold dropNotices
  exact h.congr (by simp)

theorem undoCreates_past {l : List Nat} {s : State} (h : s.Past lo) : (undoCreates l s).1.Past lo := by
  induction l generalizing s with
  | nil =>
    rw [undoCreates]
    exact h
  | cons x t ih =>
    rw [undoCreates]
    split
    · exact ih (h.congr (by simp))
    · exact ih h

theorem resetFn_past {s : State} {fn : Nat} (h : s.Past lo) : (resetFn s fn).Past lo := by
  unfold resetFn
  exact writeEvent_past (dropNotices_past (abortParksTo_past (undoCreates_past (endCommands_past (h.congr (by simp))))))

theorem resetFns_past {l : List Nat} {s : State} (h : s.Past lo) : (resetFns l s).Past lo := by
  induction l generalizing s with
  | nil => exact h
  | cons x t ih =>
    rw [resetFns]
    exact ih (resetFn_past h)

theorem vfsOff_past {s : State} (h : s.Past lo) : (vfsOff s).Past lo := by
  unfold vfsOff
  exact resetFns_past h

theorem vfsCount_past {s : State} {n : Nat} (h : s.Past lo) : (vfsCount s n).Past lo := by
  unfold vfsCount
  exact resetFns_past h

theorem resetPf_past {s : State} (h : s.Past lo) : (resetPf s).Past lo := by
  unfold resetPf
  have h1 : (vfsOff (resetFn s 0)).Past lo := vfsOff_past (resetFn_past h)
  exact h1.congr (by simp)

theorem hostTrain_past {s : State} {rate width : Nat} (h : s.Past lo) : (hostTrain s rate width).Past lo := by
  unfold hostTrain
  exact ite_past (h.congr (by simp)) (writeEvent_past (h.congr (by simp)))

theorem ideOff_past {s : State} (h : s.Past lo) : (ideOff s).Past lo := by
  unfold ideOff
  exact h.congr (by simp)

theorem doFunctionReset_past {s : State} {kind : ResetKind} {rate width : Nat} (h : s.Past lo) :
    (doFunctionReset s kind rate width).Past lo := by
  unfold doFunctionReset
  split
  · exact ite_past (resetPf_past h) (ite_past (resetFn_past h) h)
  · exact vfsOff_past h
  · exact vfsCount_past h
  · exact resetPf_past h
  · exact hostTrain_past (ideOff_past (resetPf_past h))
  · exact hostTrain_past (ideOff_past (resetPf_past h))

theorem sendPending_past {fn : Nat} {l : List Nat} {s : State} (h : s.Past lo) : (sendPending fn l s).Past lo := by
  induction l generalizing s with
  | nil => exact h
  | cons x t ih =>
    rw [sendPending]
    exact ih (ite_past (h.congr (by simp)) h)

theorem doConfigWrite_past {s : State} {fn offset : Nat} {value : Word} (h : s.Past lo) : (doConfigWrite s fn offset value).Past lo := by
  unfold doConfigWrite
  refine ite_past h ?_
  refine ite_past (sendPending_past (h.congr (by simp))) ?_
  refine ite_past h ?_
  refine ite_past (h.congr (by simp)) ?_
  refine ite_past (ite_past (h.congr (by simp)) (ite_past (vfsOff_past h) h)) ?_
  exact ite_past (ite_past h (vfsCount_past h)) (ite_past (h.congr (by simp)) h)

end Sys2Proof.Machine
end

section
/-! SUPPORT. O7: the count of a ready module does not fall under the phases of start-up (R403). -/

namespace Sys2Proof.Machine

variable {lo : Nat}

theorem refuseConfig_past {s : State} (h : s.Past lo) : (refuseConfig s).Past lo := by
  unfold refuseConfig
  exact rangerEvent_past (h.congr (by simp))

theorem railsOff_past (s : State) : (railsOff s).Past lo :=
  past_of_not_ready rfl

theorem reportLatches_past {s : State} (h : s.Past lo) : (reportLatches s).Past lo := by
  unfold reportLatches
  refine ite_past (rangerEvent_past (ite_past (rangerEvent_past (h.congr (by simp))) h)) ?_
  exact ite_past (rangerEvent_past (h.congr (by simp))) h

theorem takeConfig_past {s : State} {f : BootFindings} (h : s.Past lo) : (takeConfig s f).Past lo := by
  unfold takeConfig
  dsimp only
  split
  · exact refuseConfig_past h
  · exact ite_past (h.congr (by simp)) (refuseConfig_past (h.congr (by simp)))

theorem bootOn_past {s1 : State} {f : BootFindings} (h : s1.Past lo) : (bootOn s1 f).Past lo := by
  unfold bootOn
  refine ite_past h ?_
  dsimp only
  split
  · exact ite_past (rangerEvent_past (h.congr (by simp))) (h.congr (by simp))
  · refine takeConfig_past (reportLatches_past ?_)
    refine ite_past (rangerEvent_past (ite_past (rangerEvent_past (h.congr (by simp))) (h.congr (by simp)))) ?_
    exact ite_past (rangerEvent_past (h.congr (by simp))) (h.congr (by simp))

theorem raiseRails_past {s : State} {f : BootFindings} (h : s.Past lo) : (raiseRails s f).Past lo := by
  unfold raiseRails
  exact ite_past (bootOn_past (h.congr (by simp))) h

theorem startUp_past {s : State} {f : BootFindings} : (startUp s f).Past lo := by
  unfold startUp
  exact raiseRails_past ((railsOff_past s).congr (by simp))

theorem reapplyLanes_past {m : CampMap} {l : List LaneLoss} {s : State} (h : s.Past lo) : (reapplyLanes m l s).Past lo := by
  induction l generalizing s with
  | nil => exact h
  | cons x t ih =>
    rw [reapplyLanes]
    refine ih ?_
    split
    · exact h
    · exact h.congr (by simp)

theorem fenceAll_past {l : List Nat} {s : State} (h : s.Past lo) : (fenceAll l s).Past lo := by
  induction l generalizing s with
  | nil => exact h
  | cons x t ih =>
    rw [fenceAll]
    exact ih (h.congr (by simp))

theorem reachCheck_past {s : State} (h : s.Past lo) : (reachCheck s).Past lo := by
  unfold reachCheck
  exact ite_past (h.congr (by simp)) h

theorem failCamps_past {l : List Nat} {x : State × CampMap} (h : x.1.Past lo) :
    (failCamps l x).1.Past lo := by
  induction l generalizing x with
  | nil => exact h
  | cons c t ih =>
    obtain ⟨s, m⟩ := x
    rw [failCamps]
    refine ih ?_
    split
    · exact h
    · exact rangerEvent_past h

theorem doArraysTested_past {s : State} {failedCamps : List Nat} (h : s.Past lo) : (doArraysTested s failedCamps).Past lo := by
  unfold doArraysTested
  exact reachCheck_past (fenceAll_past (reapplyLanes_past (failCamps_past h)))

theorem channelRecords_past {l : List Nat} {s : State} (h : s.Past lo) : (channelRecords l s).Past lo := by
  induction l generalizing s with
  | nil => exact h
  | cons x t ih =>
    rw [channelRecords]
    exact ih (rangerEvent_past h)

theorem trainPorts_past {c : Configuration} {l : List (PortReport × Nat)} {s : State} (h : s.Past lo) : (trainPorts c l s).Past lo := by
  induction l generalizing s with
  | nil => exact h
  | cons x t ih =>
    obtain ⟨_, _⟩ := x
    rw [trainPorts]
    exact ite_past (ih (rangerEvent_past (h.congr (by simp)))) (ite_past (ih (h.congr (by simp))) (ih (h.congr
        (by simp))))

theorem sendIdentity_past {s : State} {l : Nat} (h : s.Past lo) : (sendIdentity s l).Past lo := by
  unfold sendIdentity
  exact h.congr (by simp)

theorem sendIdentities_past {l : List Nat} {s : State} (h : s.Past lo) : (sendIdentities l s).Past lo := by
  induction l generalizing s with
  | nil => exact h
  | cons x t ih =>
    rw [sendIdentities]
    exact ih (ite_past (sendIdentity_past h) h)

theorem ethUpRecords_past {l : List Nat} {s : State} (h : s.Past lo) : (ethUpRecords l s).Past lo := by
  induction l generalizing s with
  | nil => exact h
  | cons x t ih =>
    rw [ethUpRecords]
    exact ih (ite_past (rangerEvent_past h) h)

theorem doLinksTrained_past {s : State} {links : List Bool} {ports : List PortReport} {eth : List Bool} {hostRate hostWidth : Nat}
    (h : s.Past lo) : (doLinksTrained s links ports eth hostRate hostWidth).Past lo := by
  unfold doLinksTrained
  dsimp only
  split
  · exact reachCheck_past (hostTrain_past (h.congr (by simp)))
  · refine reachCheck_past ?_
    refine ite_past ?_ ?_
    · exact hostTrain_past (sendIdentities_past (ethUpRecords_past (ite_past (h.congr (by simp)) (trainPorts_past (h.congr
        (by simp))))))
    · exact sendIdentities_past (ethUpRecords_past (ite_past (h.congr (by simp)) (trainPorts_past (h.congr (by simp)))))

theorem linkEvent_past {s : State} {l code peer attempt : Nat} (h : s.Past lo) : (linkEvent s l code peer attempt).Past lo :=
  h.congr (by simp)

theorem doLinkIdentity_past {s : State} {l device peerLink : Nat} (h : s.Past lo) : (doLinkIdentity s l device peerLink).Past lo := by
  unfold doLinkIdentity
  split
  · exact ite_past h (ite_past (linkEvent_past (h.congr (by simp))) (linkEvent_past (h.congr (by simp))))
  · exact h

theorem powerChecks_past {s : State} {c : Configuration} {inlet backupMv : Nat} (h : s.Past lo) :
    (powerChecks s c inlet backupMv).1.Past lo := by
  unfold powerChecks
  refine ite_past (rangerEvent_past (ite_past (rangerEvent_past h) h)) ?_
  exact ite_past (rangerEvent_past h) h

theorem pitchCheckEvent_past {s : State} {x : CheckFailure} (h : s.Past lo) : (pitchCheckEvent s x).Past lo := by
  unfold pitchCheckEvent
  exact rangerEvent_past h

theorem portDownRecords_past {c : Configuration} {l : List Nat} {s : State} (h : s.Past lo) : (portDownRecords c l s).Past lo := by
  induction l generalizing s with
  | nil => exact h
  | cons x t ih =>
    rw [portDownRecords]
    refine ih ?_
    split
    · exact h
    · exact ite_past (rangerEvent_past h) h

theorem doConfigCheck_past {s : State} {inlet backupMv : Nat} (h : s.Past lo) : (doConfigCheck s inlet backupMv).Past lo := by
  unfold doConfigCheck
  dsimp only
  split
  · exact h.congr (by simp)
  · refine ite_past (h.congr (by simp)) ?_
    refine ite_past ?_ ?_
    · refine refuseConfig_past ?_
      split
      · exact powerChecks_past (portDownRecords_past (h.congr (by simp)))
      · exact pitchCheckEvent_past (powerChecks_past (portDownRecords_past (h.congr (by simp))))
    · refine ite_past ?_ ?_
      · split
        · exact powerChecks_past (portDownRecords_past (h.congr (by simp)))
        · exact pitchCheckEvent_past (powerChecks_past (portDownRecords_past (h.congr (by simp))))
      · split
        · exact powerChecks_past (portDownRecords_past (h.congr (by simp)))
        · exact pitchCheckEvent_past (powerChecks_past (portDownRecords_past (h.congr (by simp))))

@[simp] theorem sendDigest_clock (r : PitchRecord) (l : List Nat) (s : State) :
    (sendDigest r l s).cairn = s.cairn ∧ (sendDigest r l s).boot = s.boot := by
  induction l generalizing s with
  | nil => exact ⟨rfl, rfl⟩
  | cons x t ih => simp [sendDigest, ih]

@[simp] theorem sendDigests_clock (l : List PitchRecord) (s : State) :
    (sendDigests l s).cairn = s.cairn ∧ (sendDigests l s).boot = s.boot := by
  induction l generalizing s with
  | nil => exact ⟨rfl, rfl⟩
  | cons x t ih =>
    rw [sendDigests]
    split <;> simp [ih]

@[simp] theorem joinPitches_clock (answers : NMap (List MemberAnswer)) (l : List PitchRecord) (s : State) :
    (joinPitches answers l s).cairn = s.cairn ∧ (joinPitches answers l s).boot = s.boot := by
  induction l generalizing s with
  | nil => exact ⟨rfl, rfl⟩
  | cons x t ih =>
    rw [joinPitches]
    split
    · split <;> simp [ih]
    · exact ih s

/-- The join makes the module ready at a count that is not before its own. -/
theorem execGroupJoin_past {now : Nat} {answers : NMap (List MemberAnswer)} {s : State} (h : s.Past lo) (hcount : lo ≤ s.cairn.count) :
    AnswerPast lo (execGroupJoin now answers s) := by
  unfold execGroupJoin
  split
  · exact h
  · refine .ite (fun _ => ?_) h
    simp only [joinPitches_clock, sendDigests_clock]
    exact hcount.trans (Nat.le_max_left _ _)

theorem nameTime_past {r : PitchRecord} {time : Nat} {l : List Nat} {s : State} (h : s.Past lo) : (nameTime r time l s).Past lo := by
  induction l generalizing s with
  | nil => exact h
  | cons x t ih =>
    rw [nameTime]
    exact ih (sendPeer_past h)

theorem doDigestRetry_past {s0 : State} {r : PitchRecord} {answers : List MemberAnswer} {joinTime : Nat} (h : s0.Past lo) :
    (doDigestRetry s0 r answers joinTime).Past lo := by
  unfold doDigestRetry
  refine ite_past ?_ h
  have h1 : (sendDigest r (otherMembers r) s0).Past lo := h.congr (by simp)
  exact ite_past (onPitch_past (ite_past (nameTime_past h1) h1)) h1

theorem doGroupJoined_past {s : State} {r : PitchRecord} (h : s.Past lo) : (doGroupJoined s r).Past lo := by
  unfold doGroupJoined
  split
  · exact h
  · exact ite_past h (rangerEvent_past (h.congr (by simp)))

end Sys2Proof.Machine
end

section
/-! SUPPORT. O7: the count of a ready module does not fall under the tensor fabric (R403). -/

namespace Sys2Proof.Machine

variable {lo : Nat}

theorem flitRetry_past {s : State} {l : Nat} (h : s.Past lo) : (flitRetry s l).Past lo := by
  unfold flitRetry
  exact eventOnce_past (fun _ h1 => linkEvent_past h1) h

theorem refuseFrame_past {s : State} {l : Nat} {k : Link} (h : s.Past lo) : (refuseFrame s l k).Past lo := by
  unfold refuseFrame
  exact flitRetry_past (h.congr (by simp))

theorem doFlitData_past {s : State} {l : Nat} {f : Frame} (h : s.Past lo) : (doFlitData s l f).Past lo := by
  unfold doFlitData
  split
  · exact h
  · refine ite_past h ?_
    exact ite_past h (ite_past (ite_past (h.congr (by simp)) (ite_past h (refuseFrame_past h))) (refuseFrame_past h))

theorem doFlitIdle_past {s : State} {l : Nat} {f : Frame} (h : s.Past lo) : (doFlitIdle s l f).Past lo := by
  unfold doFlitIdle
  split
  · exact h
  · exact ite_past (h.congr (by simp)) h

theorem resendFrames_past {l : Nat} {l1 : List Frame} {s : State} (h : s.Past lo) : (resendFrames l l1 s).Past lo := by
  induction l1 generalizing s with
  | nil => exact h
  | cons x t ih =>
    rw [resendFrames]
    exact ih (h.congr (by simp))

theorem doRetryRequest_past {s : State} {l : Nat} {f : Frame} (h : s.Past lo) : (doRetryRequest s l f).Past lo := by
  unfold doRetryRequest
  split
  · exact h
  · exact ite_past (ite_past (flitRetry_past (h.congr (by simp))) (pump_past (resendFrames_past (flitRetry_past (h.congr
      (by simp)))))) h

theorem cairnEvent_past {s : State} {code : Nat} (h : s.Past lo) : (cairnEvent s code).Past lo := h.congr (by simp)

theorem holdover_past {s : State} (h : s.Past lo) : (holdover s).Past lo := by
  unfold holdover
  exact ite_past (cairnEvent_past (h.congr (by simp))) h

theorem requeue_past {s : State} {l : Nat} {k : Link} (h : s.Past lo) : (requeue s l k).Past lo := h.congr (by simp)

theorem doLinkDown_past {s : State} {l : Nat} (h : s.Past lo) : (doLinkDown s l).Past lo := by
  unfold doLinkDown
  split
  · exact h
  · exact ite_past (holdover_past (linkEvent_past (h.congr (by simp)))) h

theorem portDown_past {s : State} {l : Nat} (h : s.Past lo) : (portDown s l).Past lo := by
  unfold portDown
  exact ite_past (linkEvent_past h) h

theorem doLinkUp_past {s0 : State} {l device peerLink : Nat} (h : s0.Past lo) : (doLinkUp s0 l device peerLink).Past lo := by
  unfold doLinkUp
  split
  · refine ite_past ?_ h
    refine ite_past (pump_past (linkEvent_past (requeue_past (putLink_past (sendIdentity_past h))))) ?_
    exact pump_past (holdover_past (portDown_past (linkEvent_past (requeue_past (putLink_past (sendIdentity_past h))))))
  · exact h

theorem doLinkLost_past {s : State} {l : Nat} (h : s.Past lo) : (doLinkLost s l).Past lo := by
  unfold doLinkLost
  split
  · exact h
  · exact ite_past (pump_past (holdover_past (portDown_past (linkEvent_past (h.congr (by simp)))))) h

theorem withPacket_past {s : State} {kind : Nat} {pkt : List Byte} {f : Nat → State} (h : s.Past lo) (hk : ∀ a, (f a).Past lo) :
    (withPacket s kind pkt f).Past lo := by
  unfold withPacket
  refine ite_past ?_ h
  split
  · exact h
  · exact hk _

theorem startTransfer_past {s : State} {r : PitchRecord} {d : TransferDesc} {raw : List Byte} (h : s.Past lo) :
    (startTransfer s r d raw).Past lo := by
  unfold startTransfer
  exact h.congr (by simp)

theorem doSlotTransfer_past {s : State} {r : PitchRecord} {bs : List Byte} {found : List Finding} (h : s.Past lo) :
    (doSlotTransfer s r bs found).Past lo := by
  unfold doSlotTransfer
  dsimp only
  split
  · exact h
  · refine ite_past ?_ ?_
    · exact rangerAccess_past h (fun _ h1 => ite_past (rangerFindings_past h1) (startTransfer_past (rangerFindings_past h1)))
    · exact h

theorem doResponse_past {s : State} {pkt : List Byte} (h : s.Past lo) : (doResponse s pkt).Past lo := by
  unfold doResponse
  dsimp only
  split
  · exact h
  · refine ite_past h ?_
    refine ite_past ?_ (ite_past (h.congr (by simp)) h)
    split
    · exact ite_past (h.congr (by simp)) (h.congr (by simp))
    · exact h.congr (by simp)

theorem doTransferResend_past {s : State} {n : Nat} (h : s.Past lo) : (doTransferResend s n).Past lo := by
  unfold doTransferResend
  split
  · exact h
  · exact ite_past h (ite_past (h.congr (by simp)) (rangerEvent_past (h.congr (by simp))))

theorem codecEvent_past {s : State} {p src attempt : Nat} {f : DecodeFault} {head : List Byte} (h : s.Past lo) :
    (codecEvent s p src attempt f head).Past lo := by
  unfold codecEvent
  exact writeEvent_past h

theorem sendResponse_past {s : State} {port dest group transfer result block : Nat} (h : s.Past lo) :
    (sendResponse s port dest group transfer result block).Past lo := by
  unfold sendResponse
  exact h.congr (by simp)

theorem putRecv_past {s : State} {x : Recv} (h : s.Past lo) : (putRecv s x).Past lo := by
  unfold putRecv
  exact h.congr (by simp)

theorem dropRecv_past {s : State} {v : Recv} (h : s.Past lo) : (dropRecv s v).Past lo := by
  unfold dropRecv
  exact h.congr (by simp)

theorem endRecv_past {s : State} {source transfer : Nat} (h : s.Past lo) : (endRecv s source transfer).Past lo := by
  unfold endRecv
  exact h.congr (by simp)

theorem fabricForeign_past {s : State} {l p src transfer : Nat} (h : s.Past lo) : (fabricForeign s l p src transfer).Past lo := by
  unfold fabricForeign
  exact writeEvent_past h

theorem landed_past {s : State} {l : Nat} {r : PitchRecord} {v : Recv} {x : Slot} (h : s.Past lo) : (landed s l r v x).Past lo := by
  unfold landed
  exact sendResponse_past (endRecv_past (h.congr (by simp)))

theorem blockFailed_past {s : State} {l : Nat} {r : PitchRecord} {v : Recv} {b : ArrivedBlock} {f : DecodeFault} (h : s.Past lo) :
    (blockFailed s l r v b f).1.Past lo := by
  unfold blockFailed
  dsimp only
  split
  · exact uncorrectableWord_past (dropRecv_past (codecEvent_past h))
  · exact sendResponse_past (codecEvent_past h)

theorem landBlocks_past {l : Nat} {r : PitchRecord} {x : Slot} {l1 : List ArrivedBlock} {s : State} {l2 : Recv} (h : s.Past lo) :
    (landBlocks l r x l1 s l2).1.Past lo := by
  induction l1 generalizing s l2 with
  | nil =>
    rw [landBlocks]
    exact h
  | cons x t ih =>
    rw [landBlocks]
    split
    · split
      · next hx => exact fst_past hx (blockFailed_past h)
      · next hx => exact ih (fst_past hx (blockFailed_past h))
    · split
      · exact fabricForeign_past (dropRecv_past h)
      · exact ih (h.congr (by simp))

theorem landedMore_past {s : State} {l : Nat} {r : PitchRecord} {v : Recv} {x : Slot} (h : s.Past lo) :
    (landedMore s l r v x).Past lo := by
  unfold landedMore
  exact ite_past (putRecv_past h) (landed_past (putRecv_past h))

theorem landBody_past {s : State} {l : Nat} {r : PitchRecord} {v : Recv} {x : Slot} {offset : Nat} {body : List Byte} (h : s.Past lo) :
    (landBody s l r v x offset body).Past lo := by
  unfold landBody
  refine ite_past ?_ (landedMore_past (h.congr (by simp)))
  split
  · next hx => exact fst_past hx (landBlocks_past (h.congr (by simp)))
  · next hx => exact landedMore_past (fst_past hx (landBlocks_past (h.congr (by simp))))

theorem doSlotData_past {s : State} {l : Nat} {pkt : List Byte} {destOffset : Nat} (h : s.Past lo) :
    (doSlotData s l pkt destOffset).Past lo := by
  unfold doSlotData
  refine ite_past (h.congr (by simp)) ?_
  dsimp only
  split
  · exact pump_past (fabricForeign_past (h.congr (by simp)))
  · refine ite_past (pump_past (fabricForeign_past (h.congr (by simp)))) ?_
    exact ite_past (rangerAccess_past h (fun _ h1 => pump_past (landBody_past (h1.congr (by simp))))) h

theorem doTimeRequest_past {s : State} (h : s.Past lo) : (doTimeRequest s).Past lo := by
  unfold doTimeRequest
  split
  · exact h
  · exact h.congr (by simp)

theorem withTimeFrame_past {s : State} {l : Nat} {f : Frame} {k : State → State} (h : s.Past lo)
    (hk : ∀ t, t.Past lo → (k t).Past lo) : (withTimeFrame s l f k).Past lo := by
  unfold withTimeFrame
  split
  · exact h
  · exact ite_past (pump_past (hk _ (h.congr (by simp)))) h

theorem doTimeAnswer_past {s : State} {l : Nat} {payload : List Byte} {t2 t2frac t3 t3frac : Nat} (h : s.Past lo) :
    (doTimeAnswer s l payload t2 t2frac t3 t3frac).Past lo := by
  unfold doTimeAnswer
  exact ite_past ((atTime_past (now := t3) h).congr (by simp)) h

theorem countExchange_past {s : State} {offset : Int} (h : s.Past lo) : (countExchange s offset).Past lo := by
  unfold countExchange
  exact ite_past (cairnEvent_past (h.congr (by simp))) (h.congr (by simp))

theorem doTimeResponse_past {s : State} {l : Nat} {payload : List Byte} {t4 t4frac : Nat} (h : s.Past lo) :
    (doTimeResponse s l payload t4 t4frac).Past lo := by
  unfold doTimeResponse
  split
  · exact h
  · refine ite_past h ?_
    have h1 := atTime_past (now := t4) h
    dsimp only
    split
    · split
      · next htaken => exact past_of_not_ready htaken.2.1
      · exact h1.congr (by simp)
    · refine holdover_past (countExchange_past ?_)
      cases hready : s.boot.ready
      · exact past_of_not_ready hready
      · exact h1.congr (by simp [hready])

theorem doPpsEdge_past {s : State} (h : s.Past lo) : (doPpsEdge s).Past lo := by
  unfold doPpsEdge
  split
  · split
    · next hstep => exact past_of_not_ready hstep.2
    · exact h.congr (by simp)
  · exact h

end Sys2Proof.Machine
end

section
/-! SUPPORT. O7: the count of a ready module does not fall under firmware and configuration update (R403). -/

namespace Sys2Proof.Machine

variable {lo : Nat}

@[simp] theorem writeSlot_ready (s : State) (target offset : Nat) (data : List Byte) :
    (writeSlot s target offset data).boot.ready = s.boot.ready := rfl

@[simp] theorem eraseSlot_ready (s : State) (target : Nat) : (eraseSlot s target).boot.ready = s.boot.ready := rfl

theorem writeSlot_past {s : State} {target offset : Nat} {data : List Byte} (h : s.Past lo) :
    (writeSlot s target offset data).Past lo := h.congr (by simp)

theorem eraseSlot_past {s : State} {target : Nat} (h : s.Past lo) : (eraseSlot s target).Past lo := h.congr (by simp)

theorem verifyFail_past {s : State} {target code : Nat} (h : s.Past lo) : (verifyFail s target code).Past lo := by
  unfold verifyFail
  exact rangerEvent_past h

theorem verifySlot_past {s : State} {target : Nat} {sigOk : Bool} (h : s.Past lo) : (verifySlot s target sigOk).1.Past lo := by
  unfold verifySlot
  dsimp only
  split
  · exact h.congr (by simp)
  · exact verifyFail_past h

theorem forwardImage_past {s : State} {refusing : List Nat} {target : Nat} (h : s.Past lo) : (forwardImage s refusing target).Past lo :=
  h.congr (by simp)

theorem fwRun_past {s : State} {src : FwSource} {type : Nat} {act : Bool → List Byte → List Word → State → MailResult} {dma : List Byte}
    (h : s.Past lo) (hk : ∀ a b c t, t.Past lo → (act a b c t).state.Past lo) : (fwRun s src type act dma).Past lo := by
  unfold fwRun
  cases src with
  | mailbox fn mb posts => exact mailRun_past h (fun _ _ h1 => hk _ _ _ _ h1)
  | session d =>
    dsimp only
    split
    · have h1 : (acceptDatagram (atTime s d.now) d).Past lo := acceptDatagram_past (atTime_past h)
      split
      · exact sendMessage_past h1
      · split
        · exact sendMessage_past (hk _ _ _ _ h1)
        · exact atTime_past h
    · exact atTime_past h

theorem fwRow_past {s : State} {src : FwSource} {type : Nat} {act : Bool → List Byte → List Word → State → MailResult} {dma : List Byte}
    (h : s.Past lo) (hk : ∀ a b c t, t.Past lo → (act a b c t).state.Past lo) : AnswerPast lo (fwRow s src type act dma) := by
  unfold fwRow
  exact nextIf_past (fwRun_past h (fun _ _ _ _ h1 => hk _ _ _ _ h1))

theorem readIova_past {s : State} {inline : Bool} {iova len : Nat} (h : s.Past lo) : (readIova s inline iova len).Past lo := by
  unfold readIova
  exact ite_past h (h.congr (by simp))

theorem actFwWrite_past {inline : Bool} {data : List Byte} {msg : List Word} {s : State} (h : s.Past lo) :
    (actFwWrite inline data msg s).state.Past lo := by
  unfold actFwWrite
  dsimp only
  split
  · exact h
  · split
    · exact h
    · split
      · exact h
      · split
        · exact h
        · split
          · exact h
          · exact writeSlot_past (ite_past (eraseSlot_past (readIova_past h)) (readIova_past h))

theorem actFwVerify_past {sigOk : Bool} {refusing : List Nat} {_inline : Bool} {_data : List Byte} {msg : List Word} {s : State}
    (h : s.Past lo) : (actFwVerify sigOk refusing _inline _data msg s).state.Past lo := by
  unfold actFwVerify
  dsimp only
  split
  · exact h
  · split
    · exact ite_past (forwardImage_past (verifySlot_past h)) (verifySlot_past h)
    · exact verifySlot_past h

theorem activate_past {s : State} {msg : List Word} (h : s.Past lo) : (activate s msg).1.Past lo := by
  unfold activate
  dsimp only
  split
  · exact h
  · split
    · exact h
    · split
      · exact h
      · split
        · exact h
        · split
          · exact h
          · exact rangerEvent_past (h.congr (by simp))

theorem forwarded_past {s : State} {refusing : List Nat} {op : Nat} {flag : Bool} {msg : List Word} (h : s.Past lo) :
    (forwarded s refusing op flag msg).Past lo := by
  unfold forwarded
  exact ite_past (h.congr (by simp)) h

theorem actFwActivate_past {refusing : List Nat} {_inline : Bool} {_data : List Byte} {msg : List Word} {s : State} (h : s.Past lo) :
    (actFwActivate refusing _inline _data msg s).state.Past lo := by
  unfold actFwActivate
  exact forwarded_past (activate_past h)

theorem disarm_past {s : State} {msg : List Word} (h : s.Past lo) : (disarm s msg).1.Past lo := by
  unfold disarm
  split
  · exact h
  · exact h.congr (by simp)

theorem actFwDisarm_past {refusing : List Nat} {_inline : Bool} {_data : List Byte} {msg : List Word} {s : State} (h : s.Past lo) :
    (actFwDisarm refusing _inline _data msg s).state.Past lo := by
  unfold actFwDisarm
  exact forwarded_past (disarm_past h)

theorem confirm_past {s : State} {msg : List Word} (h : s.Past lo) : (confirm s msg).1.Past lo := by
  unfold confirm
  split
  · exact h
  · split
    · exact h
    · exact rangerEvent_past (h.congr (by simp))

theorem actFwConfirm_past {refusing : List Nat} {_inline : Bool} {_data : List Byte} {msg : List Word} {s : State} (h : s.Past lo) :
    (actFwConfirm refusing _inline _data msg s).state.Past lo := by
  unfold actFwConfirm
  exact forwarded_past (confirm_past h)

theorem actLockWrite_past {sigOk inline : Bool} {data : List Byte} {msg : List Word} {s : State} (h : s.Past lo) :
    (actLockWrite sigOk inline data msg s).state.Past lo := by
  unfold actLockWrite
  dsimp only
  split
  · exact h
  · split
    · exact readIova_past h
    · split
      · exact rangerEvent_past (readIova_past h)
      · split <;> exact readIova_past h

theorem actFwStatus_past {_inline : Bool} {_data : List Byte} {_msg : List Word} {s : State} (h : s.Past lo) :
    (actFwStatus _inline _data _msg s).state.Past lo := by
  unfold actFwStatus
  exact h

theorem doArmedRestart_past {s : State} {f : BootFindings} (h : s.Past lo) : (doArmedRestart s f).Past lo := by
  unfold doArmedRestart
  split
  · exact h
  · exact ite_past h (ite_past (rangerEvent_past (h.congr (by simp))) startUp_past)

theorem chainDone_past {s : State} {refusing : List Nat} {c : ChainIn} {sigOk : Bool} (h : s.Past lo) :
    (chainDone s refusing c sigOk).Past lo := by
  unfold chainDone
  exact ite_past (forwardImage_past (verifySlot_past (h.congr (by simp)))) (verifySlot_past (h.congr (by simp)))

theorem chainBlock_past {s : State} {refusing : List Nat} {target offset length id : Nat} {data : List Byte} {sigOk : Bool} (h : s.Past lo) :
    (chainBlock s refusing target offset length id data sigOk).Past lo := by
  unfold chainBlock
  refine ite_past h ?_
  dsimp only
  split
  · split <;> exact ite_past (h.congr (by simp)) (chainDone_past (h.congr (by simp)))
  · exact ite_past (h.congr (by simp)) (chainDone_past (h.congr (by simp)))

theorem doFirmwareBlock_past {s : State} {refusing : List Nat} {body : List Byte} {sigOk : Bool} (h : s.Past lo) :
    (doFirmwareBlock s refusing body sigOk).Past lo := by
  unfold doFirmwareBlock
  refine ite_past h ?_
  refine ite_past (chainBlock_past h) ?_
  refine ite_past (forwarded_past (activate_past h)) ?_
  exact ite_past (forwarded_past (disarm_past h)) (ite_past (forwarded_past (confirm_past h)) h)

end Sys2Proof.Machine
end

section
/-! SUPPORT. O7: the count of a ready module does not fall under the Ethernet ports (R403). -/

namespace Sys2Proof.Machine

variable {lo : Nat}

theorem abortSessionParks_past {n : Nat} {l : List Nat} {s : State} (h : s.Past lo) : (abortSessionParks n l s).Past lo := by
  induction l generalizing s with
  | nil => exact h
  | cons x t ih =>
    rw [abortSessionParks]
    refine ih ?_
    split
    · exact h
    · exact ite_past (abortPark_past h) h

theorem dropSession_past {s : State} {n : Nat} (h : s.Past lo) : (dropSession s n).Past lo := by
  unfold dropSession
  exact abortSessionParks_past (h.congr (by simp))

theorem sendHeld_past {n : Nat} {l : List (List Byte)} {s : State} (h : s.Past lo) : (sendHeld n l s).Past lo := by
  induction l generalizing s with
  | nil => exact h
  | cons x t ih =>
    rw [sendHeld]
    exact ih (h.congr (by simp))

theorem doOpen_past {s : State} {d : Datagram} (h : s.Past lo) : (doOpen s d).Past lo := by
  unfold doOpen
  refine ite_past ?_ h
  have h1 : (dropSession s d.session).Past lo := dropSession_past h
  exact sendHeld_past (h1.congr (by simp))

theorem takePart_past {s : State} {n p : Nat} {body : List Byte} (h : s.Past lo) : (takePart s n p body).Past lo := by
  unfold takePart
  exact ite_past (h.congr (by simp)) (acceptEntry_past (h.congr (by simp)))

theorem doSubmit_past {s : State} {d : Datagram} (h : s.Past lo) : (doSubmit s d).Past lo := by
  unfold doSubmit
  refine ite_past (h.congr (by simp)) ?_
  refine ite_past h ?_
  refine withDatagram_past h (fun _ h1 => ?_)
  split
  · exact h1
  · exact ite_past h1 (takePart_past h1)

theorem storeImage_past {s : State} {n : Nat} {body : List Byte} (h : s.Past lo) : (storeImage s n body).Past lo := by
  unfold storeImage
  exact h.congr (by simp)

theorem doInvalidDatagram_past {s : State} {d : Datagram} (h : s.Past lo) : (doInvalidDatagram s d).Past lo := by
  unfold doInvalidDatagram
  exact ite_past (eventOnce_past (fun _ h1 => writeEvent_past h1) h) h

theorem doAckTimer_past {s : State} {n : Nat} (h : s.Past lo) : (doAckTimer s n).Past lo := by
  unfold doAckTimer
  exact ite_past (h.congr (by simp)) h

theorem resendDue_past {n now : Nat} {l : List Unacked} {s : State} (h : s.Past lo) : (resendDue n now l s).Past lo := by
  induction l generalizing s with
  | nil => exact h
  | cons x t ih =>
    rw [resendDue]
    exact ite_past (ih (h.congr (by simp))) (ih h)

theorem sessionLost_past {s : State} {n : Nat} (h : s.Past lo) : (sessionLost s n).Past lo := by
  unfold sessionLost
  exact writeEvent_past (dropSession_past h)

theorem doResend_past {s : State} {n : Nat} (h : s.Past lo) : (doResend s n).Past lo := by
  unfold doResend
  exact ite_past h (ite_past (sessionLost_past h) (resendDue_past h))

theorem doEthLink_past {s : State} {port : Nat} {up : Bool} (h : s.Past lo) : (doEthLink s port up).Past lo := by
  unfold doEthLink
  exact ite_past (rangerEvent_past (h.congr (by simp))) h

theorem learnNeighbour_past {s : State} {a : List Byte} (h : s.Past lo) : (learnNeighbour s a).Past lo := by
  unfold learnNeighbour
  exact ite_past h (h.congr (by simp))

theorem doIcmp_past {s : State} {m : IcmpMessage} (h : s.Past lo) : (doIcmp s m).Past lo := by
  unfold doIcmp
  split
  · exact h
  · refine ite_past h ?_
    refine ite_past (h.congr (by simp)) ?_
    refine ite_past (ite_past (send_past (learnNeighbour_past h)) h) ?_
    exact ite_past (learnNeighbour_past h) (ite_past (h.congr (by simp)) h)

theorem doSpdm_past {s : State} {r : SpdmRequest} (h : s.Past lo) : (doSpdm s r).Past lo := by
  unfold doSpdm
  exact ite_past h (ite_past (h.congr (by simp)) (ite_past (h.congr (by simp)) (ite_past (h.congr (by simp)) (h.congr
      (by simp)))))

end Sys2Proof.Machine
end

section
/-! SUPPORT. O7: the count of a ready module does not fall under the memory system's own rows (R403). -/

namespace Sys2Proof.Machine

variable {lo : Nat}

theorem dropRange_past {s : State} {p a : Nat} (h : s.Past lo) : (dropRange s p a).Past lo := by
  unfold dropRange
  exact h.congr (by simp)

theorem loseWarm_past {s : State} {p n : Nat} (h : s.Past lo) : (loseWarm s p n).Past lo := by
  unfold loseWarm
  dsimp only
  split
  · exact putPage_past (dropRange_past h)
  · exact ite_past (freePage_past (putPage_past (dropRange_past h))) (putPage_past (dropRange_past h))
  · exact pageLost_past (putPage_past (dropRange_past h))
  · exact pageLost_past (freeRange_past (putPage_past (dropRange_past h)))
  · exact h

theorem loseWarms_past {q p : Nat} {l : List Nat} {s : State} (h : s.Past lo) : (loseWarms q p l s).Past lo := by
  induction l generalizing s with
  | nil => exact h
  | cons x t ih =>
    rw [loseWarms]
    exact ih (ite_past (loseWarm_past h) h)

theorem loseAllWarm_past {q : Nat} {l : List Nat} {s : State} (h : s.Past lo) : (loseAllWarm q l s).Past lo := by
  induction l generalizing s with
  | nil => exact h
  | cons x t ih =>
    rw [loseAllWarm]
    exact ih (loseWarms_past h)

theorem doPortLost_past {s : State} {q : Nat} (h : s.Past lo) : (doPortLost s q).Past lo := by
  unfold doPortLost
  exact ite_past (loseAllWarm_past (rangerEvent_past (h.congr (by simp)))) h

theorem scrubBad_past {s : State} {da : Nat} {address : Bool} {content : HbmContent} {poison : Bool} (h : s.Past lo) :
    (scrubBad s da address content poison).Past lo := by
  unfold scrubBad
  exact contentBad_past (hbmBad_past h)

theorem doPatrolScrub_past {s : State} {da : Nat} {errors : List (BitVec 16)} {content : HbmContent} {poison : Bool} (h : s.Past lo) :
    (doPatrolScrub s da errors content poison).Past lo := by
  unfold doPatrolScrub
  dsimp only
  split
  · exact h
  · exact hbmCorrected_past (h.congr (by simp))
  · exact scrubBad_past h
  · exact scrubBad_past h

theorem stackHot_past {s : State} {k : Nat} {t : Int} (h : s.Past lo) : (stackHot s k t).Past lo := by
  unfold stackHot
  exact ite_past h (rangerEvent_past (h.congr (by simp)))

theorem stackRestore_past {s : State} {d : Nat} (h : s.Past lo) : (stackRestore s d).Past lo := by
  unfold stackRestore
  exact ite_past (ite_past (h.congr (by simp)) (h.congr (by simp))) h

theorem doStackReading_past {s : State} {k : Nat} {t : Int} (h : s.Past lo) : (doStackReading s k t).Past lo := by
  unfold doStackReading
  refine stackRestore_past ?_
  refine ite_past ?_ ?_
  · refine stackHot_past ?_
    refine ite_past (ite_past (h.congr (by simp)) (rangerEvent_past (h.congr (by simp)))) ?_
    exact rangerEvent_past (ite_past (h.congr (by simp)) (rangerEvent_past (h.congr (by simp))))
  · refine ite_past (ite_past (h.congr (by simp)) (rangerEvent_past (h.congr (by simp)))) ?_
    exact rangerEvent_past (ite_past (h.congr (by simp)) (rangerEvent_past (h.congr (by simp))))

theorem doRetentionClose_past {s : State} {u : Nat} (h : s.Past lo) : (doRetentionClose s u).Past lo := by
  unfold doRetentionClose
  exact ite_past (h.congr (by simp)) h

theorem doRetentionEntered_past {s : State} {u : Nat} (h : s.Past lo) : (doRetentionEntered s u).Past lo := by
  unfold doRetentionEntered
  exact ite_past h (ite_past (h.congr (by simp)) (ite_past (h.congr (by simp)) (h.congr (by simp))))

theorem doWakeDone_past {s : State} {u : Nat} (h : s.Past lo) : (doWakeDone s u).Past lo := by
  unfold doWakeDone
  exact ite_past (h.congr (by simp)) h

theorem execFreedRangeScrubbed_past {index : Nat} {s : State} (h : s.Past lo) : AnswerPast lo (execFreedRangeScrubbed index s) := by
  unfold execFreedRangeScrubbed
  split
  · exact h
  · exact h.congr (by simp)

theorem restorePair_past {s : State} {pair : Nat} (h : s.Past lo) : (restorePair s pair).Past lo := by
  unfold restorePair
  exact h.congr (by simp)

theorem doLockstep_past {s : State} {pair : Nat} {f : BootFindings} (h : s.Past lo) : (doLockstep s pair f).Past lo := by
  unfold doLockstep
  refine ite_past (startUp_past) ?_
  exact rerunAll_past (restorePair_past (rangerEvent_past h))

theorem ringToRam_past {s : State} {pos : Nat} (h : s.Past lo) : (ringToRam s pos).Past lo := by
  unfold ringToRam
  exact rangerEvent_past (h.congr ⟨rfl, rfl⟩)

theorem openSector_past {s : State} {pos phys erases : Nat} (h : s.Past lo) : (openSector s pos phys erases).Past lo :=
  h.congr ⟨rfl, rfl⟩

theorem remapSector_past {s : State} {pos : Nat} {open_ : State → Nat → State} (h : s.Past lo)
    (hk : ∀ t, t.Past lo → ∀ a, (open_ t a).Past lo) : (remapSector s pos open_).Past lo := by
  unfold remapSector
  exact ite_past (rangerEvent_past (hk _ (h.congr (by simp)) _)) (ringToRam_past h)

theorem moveHead_past {s : State} {phys : Nat} (h : s.Past lo) : (moveHead s phys).Past lo := by
  unfold moveHead
  exact h.congr (by simp)

theorem doSectorErase_past {s : State} {headOk ok : Bool} (h : s.Past lo) : (doSectorErase s headOk ok).Past lo := by
  unfold doSectorErase
  refine ite_past h ?_
  refine ite_past (remapSector_past h (fun _ h1 _ => moveHead_past h1)) ?_
  exact ite_past h (ite_past (openSector_past h) (remapSector_past h (fun _ h1 _ => openSector_past h1)))

end Sys2Proof.Machine
end

section
/-! SUPPORT. O7: the count of a ready module does not fall under the load of a package (R403). -/

namespace Sys2Proof.Machine

variable {lo : Nat}

theorem writeTensors_past {r : PitchRecord} {l : List TensorImage} {s : State} (h : s.Past lo) : (writeTensors r l s).Past lo := by
  induction l generalizing s with
  | nil => exact h
  | cons x t ih =>
    rw [writeTensors]
    exact ih (h.congr (by simp))

theorem writeCodedRegions_past {r : PitchRecord} {l : List CodedRegion} {s : State} (h : s.Past lo) :
    (writeCodedRegions r l s).Past lo := by
  induction l generalizing s with
  | nil => exact h
  | cons x t ih =>
    rw [writeCodedRegions]
    exact ih (ite_past (h.congr (by simp)) (h.congr (by simp)))

theorem fillPersistent_past {r : PitchRecord} {l : List Slot} {s : State} (h : s.Past lo) : (fillPersistent r l s).Past lo := by
  induction l generalizing s with
  | nil => exact h
  | cons x t ih =>
    rw [fillPersistent]
    exact ih (ite_past (h.congr (by simp)) h)

theorem placeProgram_past {r : PitchRecord} {p : ProgramImage} {l : List Nat} {x : State × List LoadedProgram} (h : x.1.Past lo) :
    (placeProgram r p l x).1.Past lo := by
  induction l generalizing x with
  | nil => exact h
  | cons rel t ih =>
    obtain ⟨s, done⟩ := x
    rw [placeProgram]
    exact ih (putCamp_past h)

theorem placePrograms_past {r : PitchRecord} {l : List ProgramImage} {x : State × List LoadedProgram} (h : x.1.Past lo) :
    (placePrograms r l x).1.Past lo := by
  induction l generalizing x with
  | nil => exact h
  | cons p t ih =>
    rw [placePrograms]
    exact ih (placeProgram_past h)

theorem clearCommands_past {r : PitchRecord} {l : List Nat} {s : State} (h : s.Past lo) : (clearCommands r l s).Past lo := by
  induction l generalizing s with
  | nil => exact h
  | cons x t ih =>
    rw [clearCommands]
    exact ih (h.congr (by simp))

theorem loadPackage_past {s : State} {r : PitchRecord} {k : PackageImage} (h : s.Past lo) : (loadPackage s r k).Past lo := by
  unfold loadPackage
  exact onPitch_past (fillPersistent_past (placePrograms_past (clearCommands_past (writeCodedRegions_past (writeTensors_past h)))))

theorem writeBlocks_past {r : PitchRecord} {x : LoadedTensor} {i : TensorImage} {l : List Nat} {s : State} (h : s.Past lo) :
    (writeBlocks r x i l s).Past lo := by
  induction l generalizing s with
  | nil => exact h
  | cons x t ih =>
    rw [writeBlocks]
    exact ih (h.congr (by simp))

theorem restoreTensors_past {r : PitchRecord} {imgs : List TensorImage} {l : List LoadedTensor} {s : State} (h : s.Past lo) :
    (restoreTensors r imgs l s).Past lo := by
  induction l generalizing s with
  | nil => exact h
  | cons x t ih =>
    rw [restoreTensors]
    refine ih ?_
    split
    · exact h
    · exact writeBlocks_past h

theorem restoreCoded_past {r : PitchRecord} {imgs : List CodedRegion} {k : LoadedPackage} {l : List (Nat × Nat)} {s : State} (h : s.Past lo) :
    (restoreCoded r imgs k l s).Past lo := by
  induction l generalizing s with
  | nil => exact h
  | cons x t ih =>
    rw [restoreCoded]
    refine ih ?_
    split
    · exact h
    · exact h.congr (by simp)

theorem healAll_past {img : PackageImage} {da : Nat} {l : List Nat} {s : State} (h : s.Past lo) : (healAll img da l s).Past lo := by
  induction l generalizing s with
  | nil => exact h
  | cons x t ih =>
    rw [healAll]
    exact ih (h.congr (by simp))

theorem restoreAll_past {r : PitchRecord} {img : PackageImage} {l : List Nat} {s : State} (h : s.Past lo) :
    (restoreAll r img l s).Past lo := by
  induction l generalizing s with
  | nil => exact h
  | cons x t ih =>
    rw [restoreAll]
    refine ih ?_
    split
    · exact h
    · exact restoreCoded_past (restoreTensors_past h)

theorem reloadPackage_past {s : State} {r : PitchRecord} {k : PackageImage} (h : s.Past lo) : (reloadPackage s r k).Past lo := by
  unfold reloadPackage
  exact onPitch_past (healAll_past (restoreAll_past h))

theorem doPackageLoad_past {s : State} {r : PitchRecord} {k : PackageImage} (h : s.Past lo) : (doPackageLoad s r k).Past lo := by
  unfold doPackageLoad
  refine ite_past h ?_
  refine ite_past (h.congr (by simp)) ?_
  refine ite_past (reloadPackage_past h) ?_
  split
  · exact h.congr (by simp)
  · exact loadPackage_past h

end Sys2Proof.Machine
end

section
/-! SUPPORT. O7: the count of a ready module does not fall under power and cooling (R403). -/

namespace Sys2Proof.Machine

variable {lo : Nat}

theorem restartBelow_past {s : State} (h : s.Past lo) : (restartBelow s).Past lo := by
  unfold restartBelow
  exact h.congr (by simp)

theorem capDies_past {cap : Nat} {l : List Nat} {s : State} (h : s.Past lo) : (capDies cap l s).Past lo := h.congr (by simp)

theorem inputRange_past {s : State} {input mv : Nat} (h : s.Past lo) : (inputRange s input mv).Past lo := by
  unfold inputRange
  exact rangerEvent_past h

theorem mainLeaves_past {s : State} {mv : Nat} (h : s.Past lo) : (mainLeaves s mv).Past lo := by
  unfold mainLeaves
  exact ite_past h (ite_past (inputRange_past (h.congr (by simp))) (h.congr (by simp)))

theorem doMainFailure_past {s : State} {mv : Nat} (h : s.Past lo) : (doMainFailure s mv).Past lo := by
  unfold doMainFailure
  refine ite_past (mainLeaves_past h) ?_
  exact ite_past (rangerEvent_past (restartBelow_past (capDies_past (mainLeaves_past h)))) (mainLeaves_past h)

theorem doMainRestored_past {s : State} {f : BootFindings} (h : s.Past lo) : (doMainRestored s f).Past lo := by
  unfold doMainRestored
  refine ite_past (ite_past (raiseRails_past (h.congr (by simp))) (h.congr (by simp))) ?_
  exact ite_past (rangerEvent_past (restartBelow_past (h.congr (by simp)))) (h.congr (by simp))

theorem doVinBackup_past {s : State} {mv : Nat} {f : BootFindings} (h : s.Past lo) : (doVinBackup s mv f).Past lo := by
  unfold doVinBackup
  refine ite_past h ?_
  refine ite_past (ite_past (raiseRails_past (h.congr (by simp))) (h.congr (by simp))) ?_
  exact ite_past (ite_past (inputRange_past (h.congr (by simp))) (h.congr (by simp))) h

theorem policyParks_past {policy : Nat} {l : List PitchRecord} {s : State} (h : s.Past lo) : (policyParks policy l s).Past lo :=
  h.congr (by simp)

theorem parkAllMarked_past {l : List PitchRecord} {s : State} (h : s.Past lo) : (parkAllMarked l s).Past lo := h.congr (by simp)

theorem doBackupPark_past {s0 : State} (h : s0.Past lo) : (doBackupPark s0).Past lo := by
  unfold doBackupPark
  dsimp only
  split
  · exact ite_past (parkAllMarked_past h) (policyParks_past (parkAllMarked_past h))
  · exact parkAllMarked_past h

theorem powerLimited_past {s : State} {die point : Nat} (h : s.Past lo) : (powerLimited s die point).Past lo := by
  unfold powerLimited
  exact eventOnce_past (fun _ h1 => rangerEvent_past h1) h

theorem doGovernorLower_past {s0 : State} {power power20 : Nat} (h : s0.Past lo) : (doGovernorLower s0 power power20).Past lo := by
  unfold doGovernorLower
  refine ite_past (h.congr (by simp)) ?_
  exact ite_past (powerLimited_past (h.congr (by simp))) (ite_past (powerLimited_past (h.congr (by simp))) (h.congr (by simp)))

theorem doGovernorRaise_past {s0 : State} {power : Nat} (h : s0.Past lo) : (doGovernorRaise s0 power).Past lo := by
  unfold doGovernorRaise
  dsimp only
  split
  · exact ite_past (h.congr (by simp)) (h.congr (by simp))
  · exact h.congr (by simp)

theorem throttleEvent_past {s : State} {d : Nat} (h : s.Past lo) : (throttleEvent s d).Past lo := by
  unfold throttleEvent
  exact eventOnce_past (fun _ h1 => rangerEvent_past h1) h

theorem throttlePoint_past {s : State} {d : Nat} (h : s.Past lo) : (throttlePoint s d).Past lo := by
  unfold throttlePoint
  refine ite_past (throttleEvent_past (ite_past (h.congr (by simp)) (ite_past (h.congr (by simp)) h))) ?_
  exact ite_past (h.congr (by simp)) (ite_past (h.congr (by simp)) h)

theorem resumeSlots_past {l : List Nat} {s : State} (h : s.Past lo) : (resumeSlots l s).Past lo := by
  induction l generalizing s with
  | nil => exact h
  | cons x t ih =>
    rw [resumeSlots]
    refine ih ?_
    split
    · exact h
    · exact h.congr (by simp)

theorem readDie_past {s : State} {d : Nat} {j : Int} (h : s.Past lo) : (readDie s d j).Past lo := by
  unfold readDie
  refine ite_past (rangerEvent_past (throttlePoint_past (h.congr (by simp)))) ?_
  exact ite_past (resumeSlots_past (throttlePoint_past (h.congr (by simp)))) (throttlePoint_past (h.congr (by simp)))

theorem readDies_past {l : List (List Int × Nat)} {s : State} (h : s.Past lo) : (readDies l s).Past lo := by
  induction l generalizing s with
  | nil => exact h
  | cons x t ih =>
    obtain ⟨_, _⟩ := x
    rw [readDies]
    exact ih (readDie_past h)

theorem senseDies_past {l : List (List Int × Nat)} {s : State} (h : s.Past lo) : (senseDies l s).Past lo := by
  induction l generalizing s with
  | nil => exact h
  | cons x t ih =>
    obtain ⟨_, _⟩ := x
    rw [senseDies]
    exact ih (h.congr (by simp))

theorem doJunctions_past {s : State} {sensors : List (List Int)} (h : s.Past lo) : (doJunctions s sensors).Past lo := by
  unfold doJunctions
  refine ite_past (ite_past (senseDies_past h) h) ?_
  split
  · exact senseDies_past ((railsOff_past s).congr (by simp))
  · exact readDies_past h

theorem doCoolantHigh_past {s : State} {inlet : Nat} (h : s.Past lo) : (doCoolantHigh s inlet).Past lo := by
  unfold doCoolantHigh
  exact ite_past (rangerEvent_past (h.congr (by simp))) (h.congr (by simp))

theorem doCoolantLifted_past {s : State} {inlet : Nat} (h : s.Past lo) : (doCoolantLifted s inlet).Past lo := by
  unfold doCoolantLifted
  exact ite_past (h.congr (by simp)) (h.congr (by simp))

end Sys2Proof.Machine
end

section
/-! PROOF. O7: no row leaves a ready module before the count that it had, and neither does a nanosecond (R401, R403). -/

namespace Sys2Proof.Machine

variable {lo : Nat}

/-- No row leaves a ready module before the bound: the commands of camps through the result of the command, the others by their one operation. -/
theorem exec_past (c : Instr) {s : State} (h : s.Past lo) (hcount : lo ≤ s.cairn.count) : AnswerPast lo (exec c s) := by
  cases c with
  | vauxGood => exact startUp_past
  | hbmTrainingDone => exact .ite (reachCheck_past (channelRecords_past (h.congr (by simp)))) h
  | linksTrained => exact .ite (doLinksTrained_past h) h
  | linkIdentity => exact nextIf_past (doLinkIdentity_past h)
  | configCheck => exact .ite (doConfigCheck_past h) h
  | capacityClearDone => exact .ite (h.congr (by simp)) h
  | groupJoin => exact execGroupJoin_past h hcount
  | groupDigestRetry => exact pitchRow_past h (fun _ => doDigestRetry_past h)
  | groupJoined => exact pitchRow_past h (fun _ => doGroupJoined_past (atTime_past h))
  | modReset => exact .ite startUp_past h
  | modelPackageLoad => exact pitchRow_past h (fun _ => doPackageLoad_past h)
  | programStart => exact execProgramStart_past h
  | cNop => exact runCommand_past h (fun _ _ h1 => doNop_past h1)
  | cEnd => exact runCommand_past h (fun _ _ h1 => doEnd_past h1)
  | cSetwin => exact runCommand_past h (fun _ _ h1 => doSetwin_past h1)
  | cWdog => exact runCommand_past h (fun _ _ h1 => doWdog_past h1)
  | cLoop => exact runCommand_past h (fun _ _ h1 => doLoop_past h1)
  | cFence => exact runCommand_past h (fun _ _ h1 => doFence_past h1)
  | cSlotrd => exact runCommand_past h (fun _ _ h1 => doSlotrd_past h1)
  | cSlotwr => exact runCommand_past h (fun _ _ h1 => doSlotwr_past h1)
  | cMemrd => exact runCommand_past h (fun _ _ h1 => doMemrd_past h1)
  | cMemwr => exact runCommand_past h (fun _ _ h1 => doMemwr_past h1)
  | cWstream => exact runCommand_past h (fun _ _ h1 => doWstream_past h1)
  | cTilecfg => exact runCommand_past h (fun _ _ h1 => doTilecfg_past h1)
  | cTile => exact runCommand_past h (fun _ _ h1 => doTile_past h1)
  | cVld => exact runCommand_past h (fun _ _ h1 => doVld_past h1)
  | cVst => exact runCommand_past h (fun _ _ h1 => doVst_past h1)
  | cTred => exact runCommand_past h (fun _ _ h1 => doTred_past h1)
  | cSignal => exact runCommand_past h (fun _ _ h1 => doSignal_past h1)
  | cWait => exact runCommand_past h (fun _ _ h1 => doWait_past h1)
  | cTake => exact runCommand_past h (fun _ _ h1 => doTake_past h1)
  | cTopk => exact runCommand_past h (fun _ _ h1 => doTopk_past h1)
  | cHopen => exact runCommand_past h (fun _ _ h1 => doHopen_past h1)
  | cHadd => exact runCommand_past h (fun _ _ h1 => doHadd_past h1)
  | cHclose => exact runCommand_past h (fun _ _ h1 => doHclose_past h1)
  | hashCloseMerge => exact nextIf_past (doHashClose_past h)
  | cReserved => exact runCommand_past h (fun _ _ _ => doReserved_past)
  | vNop => exact runVop_past h (fun _ _ h1 => vopCommand_past (fun _ => h1))
  | vAdd => exact runVop_past h (fun _ _ h1 => doFmaElem_past h1)
  | vMul => exact runVop_past h (fun _ _ h1 => doFmaElem_past h1)
  | vFma => exact runVop_past h (fun _ _ h1 => doFmaElem_past h1)
  | vMin => exact runVop_past h (fun _ _ h1 => doElem_past h1)
  | vMax => exact runVop_past h (fun _ _ h1 => doElem_past h1)
  | vCmpeq => exact runVop_past h (fun _ _ h1 => doElem_past h1)
  | vCmplt => exact runVop_past h (fun _ _ h1 => doElem_past h1)
  | vCmple => exact runVop_past h (fun _ _ h1 => doElem_past h1)
  | vSel => exact runVop_past h (fun _ _ h1 => doElem_past h1)
  | vCvtfi => exact runVop_past h (fun _ _ h1 => doElem_past h1)
  | vCvtif => exact runVop_past h (fun _ _ h1 => doElem_past h1)
  | vCvtbf => exact runVop_past h (fun _ _ h1 => doElem_past h1)
  | vExpx => exact runVop_past h (fun _ _ h1 => doElem_past h1)
  | vExpi => exact runVop_past h (fun _ _ h1 => doElem_past h1)
  | vScalb => exact runVop_past h (fun _ _ h1 => doElem_past h1)
  | vSumg => exact runVop_past h (fun _ _ h1 => vopCommand_past (fun _ => withFma_past h1 (fun _ h3 => vopRun_past h3)))
  | vMaxg => exact runVop_past h (fun _ _ h1 => vopCommand_past (fun _ => vopRun_past h1))
  | vLdacc => exact runVop_past h (fun _ _ h1 => doAcc_past h1)
  | vLdacca => exact runVop_past h (fun _ _ h1 => doAcc_past h1)
  | vLdaccm => exact runVop_past h (fun _ _ h1 => doAcc_past h1)
  | vReqacc => exact runVop_past h (fun _ _ h1 => vopCommand_past (fun _ => withTiles_past (withFma_past h1 (fun _ h3 => vopRun_past h3))))
  | vReqreg => exact runVop_past h (fun _ _ h1 => vopCommand_past (fun _ => vopRun_past h1))
  | vReqout => exact runVop_past h (fun _ _ h1 => doReqout_past h1)
  | vExp2 => exact runVop_past h (fun _ _ h1 => doFmaElem_past h1)
  | vRcp => exact runVop_past h (fun _ _ h1 => doFmaElem_past h1)
  | vRsq => exact runVop_past h (fun _ _ h1 => doFmaElem_past h1)
  | vRotcs =>
    exact runVop_past h (fun _ _ h1 => vopCommand_past (fun _ => .ite trivial (withFma_past h1 (fun _ h3 => vopRun_past h3))))
  | vReserved => exact runCommand_past h (fun _ _ _ => doVReserved_past)
  | lanePass => exact .ite (.ite h (h.congr (by simp))) trivial
  | runAhead => exact nextIf_past (doRunAhead_past h)
  | tileRunJoin => exact execTileRunJoin_past h
  | weightRefetched => exact execWeightRefetched_past h
  | slotFilled => exact pitchRow_past h (fun _ => doSlotFilled_past h)
  | slotDrained => exact pitchRow_past h (fun _ => doSlotDrained_past h)
  | syncTimeout => exact nextIf_past (doTimeout_past (atTime_past h))
  | groupStepStart => exact pitchRow_past h (fun _ => startStep_past (atTime_past h))
  | stepCloseReport => exact pitchRow_past h (fun _ => takeReport_past (atTime_past h))
  | lanternSelect => exact pitchRow_past h (fun _ => doLantern_past h)
  | chunkListsReady => exact pitchRow_past h (fun _ => doChunkLists_past h)
  | pagePromotionStart => exact execPagePromotionStart_past h
  | pagePromotionDone => exact nextIf_past (doPromotionDone_past h)
  | pageDemotionStart => exact pitchRow_past h (fun _ => doDemotionStart_past h)
  | pageDemotionDone => exact pitchRow_past h (fun _ => doDemotionDone_past h)
  | pageRefetched => exact nextIf_past (doPageRefetched_past h)
  | stepBoundary => exact pitchRow_past h (fun _ => boundary_past (atTime_past h))
  | qCreate => exact onDue_past (atTime_past h) (fun _ h1 _ _ => doCreate_past h1)
  | qContinue => exact onDue_past (atTime_past h) (fun _ h1 _ _ => doContinue_past h1)
  | qTruncate => exact onDue_past h (fun _ h1 _ _ => doTruncate_past h1)
  | truncationCopyDone => exact execTruncationCopyDone_past h
  | qFork => exact onDue_past h (fun _ h1 _ _ => doFork_past h1)
  | qPark => exact onDue_past h (fun _ h1 _ _ => doPark_past h1)
  | parkFormDone => exact execParkFormDone_past h
  | parkCommit => exact nextIf_past (doParkCommit_past h)
  | qResume => exact onDue_past h (fun _ h1 _ _ => doResume_past h1)
  | resumeRecordsRead => exact execResumeRecordsRead_past h
  | pageImport => exact nextIf_past (doPageImport_past h)
  | imageReadTimeout => exact nextIf_past (doReadTimeout_past h)
  | qStatus => exact onDue_past h (fun _ h1 _ _ => doStatus_past h1)
  | qFree => exact onDue_past h (fun _ h1 _ _ => doFree_past h1)
  | submissionDoorbell => exact nextIf_past (doSubmissionDoorbell_past h)
  | completionDoorbell => exact nextIf_past (doCompletionDoorbell_past h)
  | submissionFetch => exact nextIf_past (doSubmissionFetch_past (atTime_past h))
  | mailboxPost => exact nextIf_past (mailWrite_past h)
  | collisionClear => exact .ite (.ite (h.congr (by simp)) h) trivial
  | cairnLoRead => exact .ite (.ite (h.congr (by simp)) h) trivial
  | supplyLatchClear => exact h.congr (by simp)
  | registerWrite => exact nextIf_past (ite_past (doConfigWrite_past h) (doRegisterWrite_past h))
  | ringCreate => exact nextIf_past (mailRun_past h (fun _ _ h1 => actRingCreate_past h1))
  | ringDestroy => exact nextIf_past (mailRun_past h (fun _ _ h1 => actRingDestroy_past h1))
  | attachBegin => exact nextIf_past (mailRun_past h (fun _ _ h1 => actAttachBegin_past h1))
  | attach => exact nextIf_past (mailRun_past h (fun _ _ h1 => actAttach_past h1))
  | fwWrite => exact fwRow_past h (fun _ _ _ _ h1 => actFwWrite_past h1)
  | fwVerify => exact fwRow_past h (fun _ _ _ _ h1 => actFwVerify_past h1)
  | fwActivate => exact fwRow_past h (fun _ _ _ _ h1 => actFwActivate_past h1)
  | fwDisarm => exact fwRow_past h (fun _ _ _ _ h1 => actFwDisarm_past h1)
  | fwConfirm => exact fwRow_past h (fun _ _ _ _ h1 => actFwConfirm_past h1)
  | lockWrite => exact fwRow_past h (fun _ _ _ _ h1 => actLockWrite_past h1)
  | fwStatus => exact fwRow_past h (fun _ _ _ _ h1 => actFwStatus_past h1)
  | fwArmedRestart => exact doArmedRestart_past (atTime_past h)
  | firmwareBlock => exact withPacket_past h (fun _ => pump_past (doFirmwareBlock_past (h.congr (by simp))))
  | functionReset => exact .ite (.ite (doFunctionReset_past h) h) trivial
  | functionResetDone => exact nextIf_past (h.congr (by simp))
  | openSession => exact doOpen_past (atTime_past h)
  | submitPart => exact doSubmit_past (atTime_past h)
  | ackMsg => exact withDatagram_past h (fun _ h1 => h1)
  | imageData => exact withDatagram_past h (fun _ h1 => ite_past h1 (storeImage_past h1))
  | invalidDatagram => exact doInvalidDatagram_past (atTime_past h)
  | ackTimer => exact doAckTimer_past (atTime_past h)
  | datagramResend => exact doResend_past (atTime_past h)
  | ethLink => exact nextIf_past (doEthLink_past h)
  | flitData => exact nextIf_past (doFlitData_past h)
  | flitIdle => exact nextIf_past (doFlitIdle_past h)
  | retryRequest => exact nextIf_past (doRetryRequest_past h)
  | linkDown => exact nextIf_past (doLinkDown_past (atTime_past h))
  | linkUp => exact nextIf_past (doLinkUp_past (atTime_past h))
  | linkLost => exact nextIf_past (doLinkLost_past (atTime_past h))
  | slotTransfer => exact pitchRow_past h (fun _ => doSlotTransfer_past (atTime_past h))
  | slotDataPacket => exact withPacket_past h (fun _ => doSlotData_past h)
  | transferResponse => exact withPacket_past h (fun _ => pump_past (doResponse_past (h.congr (by simp))))
  | transferResend => exact doTransferResend_past (atTime_past h)
  | managementMessage => exact withPacket_past h (fun _ => h.congr (by simp))
  | timeRequest => exact doTimeRequest_past (atTime_past h)
  | timeRequestReceived => exact nextIf_past (withTimeFrame_past h (fun _ h1 => doTimeAnswer_past h1))
  | timeResponse => exact nextIf_past (withTimeFrame_past h (fun _ h1 => doTimeResponse_past h1))
  | ppsEdge => exact doPpsEdge_past h
  | cxlLinkDown port now => exact .ite (.ite (State.Past.congr (atTime_past (now := now) h) (by simp)) (atTime_past h)) trivial
  | cxlRetrainDone port now => exact .ite (.ite (State.Past.congr (atTime_past (now := now) h) (by simp)) (atTime_past h)) trivial
  | cxlPortLost => exact nextIf_past (doPortLost_past (atTime_past h))
  | patrolScrub => exact .ite trivial (rangerAccess_past h (fun _ h1 => doPatrolScrub_past h1))
  | stackTemperatureReading => exact nextIf_past (doStackReading_past (atTime_past h))
  | retentionClose => exact nextIf_past (doRetentionClose_past (atTime_past h))
  | retentionEntered => exact nextIf_past (doRetentionEntered_past h)
  | lateWake => exact nextIf_past (h.congr (by simp))
  | wakeDone => exact nextIf_past (doWakeDone_past h)
  | rangerLockstep => exact nextIf_past (doLockstep_past (atTime_past h))
  | sectorErase => exact doSectorErase_past h
  | mainFailure => exact doMainFailure_past (atTime_past h)
  | mainRestored => exact doMainRestored_past (atTime_past h)
  | powerLoss => exact .ite ((railsOff_past s).congr (by simp)) h
  | backupPark => exact doBackupPark_past (atTime_past h)
  | governorLower => exact doGovernorLower_past (atTime_past h)
  | governorRaise => exact doGovernorRaise_past (atTime_past h)
  | junctionReading => exact doJunctions_past (atTime_past h)
  | coolantHigh => exact doCoolantHigh_past (atTime_past h)
  | coolantCapLifted => exact doCoolantLifted_past (atTime_past h)
  | vauxLoss => exact past_of_not_ready rfl
  | vinBackupOutOfRange => exact doVinBackup_past h
  | vddCoreGood => exact .ite (h.congr (by simp)) h
  | arraysTested => exact .ite (.ite (doArraysTested_past h) h) trivial
  | freedRangeScrubbed => exact execFreedRangeScrubbed_past h
  | spdmRequest => exact doSpdm_past h
  | icmpv6Message => exact nextIf_past (doIcmp_past h)

/-- A nanosecond of the reference adds at most 2 to the count and takes nothing off it. -/
theorem le_tick_count {c : Cairn} (h : c.count + 2 < 2 ^ 64) : c.count ≤ (tick c).count := by
  have h1 : count64 (c.count + 1) = c.count + 1 := Nat.mod_eq_of_lt (by omega)
  have h2 : count64 (c.count + 2) = c.count + 2 := Nat.mod_eq_of_lt h
  unfold tick
  split
  · split
    · simp [h2]
    · simp [h1]
  · split
    · split
      · exact le_rfl
      · simp [h1]
    · simp [h1]

/-- Settles O7: a nanosecond takes nothing off the count, and no row leaves a ready module before the count that it had. -/
theorem countNeverRunsBackwards : Obligations.CountNeverRunsBackwards := by
  unfold Obligations.CountNeverRunsBackwards
  intro s t _ hcount hstep hready
  unfold step at hstep
  cases hqueue : s.pending with
  | nil =>
    rw [hqueue] at hstep
    cases hstep
    exact le_tick_count hcount
  | cons c rest =>
    rw [hqueue] at hstep
    exact (exec_past (s := { s with pending := rest }) c (fun _ => le_rfl) le_rfl).next hstep hready

end Sys2Proof.Machine
end

section
/-! PROOF. O1 and O2: a step runs the front command, and on an empty queue a nanosecond passes (R401, R403). -/

namespace Sys2Proof.Machine

/-- Settles O1: it is what `step` does with a queue that is not empty. -/
theorem stepRunsTheFrontCommand : Obligations.StepRunsTheFrontCommand := by
  unfold Obligations.StepRunsTheFrontCommand
  intro s c rest hqueue
  unfold step
  rw [hqueue]

/-- Without a correction in progress a nanosecond counts one. -/
theorem tick_of_no_slew {c : Cairn} (h : c.slew = 0) : tick c = { c with count := (c.count + 1) % 2 ^ 64 } := by
  simp [tick, h, count64]

/-- Settles O2: the step is `idle`, which changes the count by `tick` alone. -/
theorem emptyQueueCountsANanosecond : Obligations.EmptyQueueCountsANanosecond := by
  unfold Obligations.EmptyQueueCountsANanosecond
  intro s hqueue
  refine ⟨idle s, ?_, rfl, le_tick_count, tick_of_no_slew⟩
  unfold step
  rw [hqueue]

end Sys2Proof.Machine
end

section
/-! SUPPORT. Events of the Ranger: each writes one record (R413, R450). -/

namespace Sys2Proof.Machine

@[simp] theorem rangerEvent_written (s : State) (cls code pitch : Nat) (detail : List Byte) :
    (rangerEvent s cls code pitch detail).ev.written = (s.ev.written + 1) % 2 ^ 32 :=
  (writeEvent_log _ _ _ _ _ _).2.1

end Sys2Proof.Machine
end

section
/-! SUPPORT. Dies and their operating points (R471, R473). -/

namespace Sys2Proof.Machine

theorem dieAt_onDie (s : State) (d e : Nat) (f : Die → Die) (he : e < s.pw.dies.length) :
    dieAt (onDie s d f) e = if e = d then f (dieAt s e) else dieAt s e := by
  simp [dieAt, onDie, List.getD_eq_getElem?_getD, List.getElem?_map, List.getElem?_zipIdx, List.getElem?_eq_getElem he]

theorem dieAt_of_length_le {s : State} {d : Nat} (h : s.pw.dies.length ≤ d) : dieAt s d = Die.reset := by
  simp [dieAt, List.getD_eq_getElem?_getD, List.getElem?_eq_none h]

@[simp] theorem onDie_length (s : State) (d : Nat) (f : Die → Die) : (onDie s d f).pw.dies.length = s.pw.dies.length := by
  simp [onDie]

/-- A change of one die leaves the others. -/
theorem dieAt_onDie_ne (s : State) {d e : Nat} (f : Die → Die) (h : e ≠ d) : dieAt (onDie s d f) e = dieAt s e := by
  rcases Nat.lt_or_ge e s.pw.dies.length with he | he
  · rw [dieAt_onDie s d e f he, if_neg h]
  · rw [dieAt_of_length_le he, dieAt_of_length_le (by simpa using he)]

theorem dieAt_onDie_same {s : State} {d : Nat} (f : Die → Die) (h : d < s.pw.dies.length) : dieAt (onDie s d f) d = f (dieAt s d) := by
  rw [dieAt_onDie s d d f h, if_pos rfl]

/-- Only dies and the moment of the last change differ. -/
structure DiesOnly (s t : State) : Prop where
  rest : t = { s with pw := { s.pw with dies := t.pw.dies, lastChange := t.pw.lastChange } }
  length : t.pw.dies.length = s.pw.dies.length

theorem DiesOnly.refl (s : State) : DiesOnly s s := ⟨rfl, rfl⟩

theorem DiesOnly.trans {s t u : State} (h : DiesOnly s t) (h' : DiesOnly t u) : DiesOnly s u := by
  refine ⟨?_, h'.length.trans h.length⟩
  rw [h'.rest, h.rest]

theorem onDie_diesOnly (s : State) (d : Nat) (f : Die → Die) : DiesOnly s (onDie s d f) := ⟨rfl, onDie_length s d f⟩

theorem dieAt_congr {s t : State} (h : t.pw.dies = s.pw.dies) (d : Nat) : dieAt t d = dieAt s d := by rw [dieAt, dieAt, h]

/-- A die at a new point. -/
def Die.pointed (p : Nat) (x : Die) : Die := { x with point := p, hotTook := x.hotTook && decide (x.point < p) }

/-- A new point changes the die and notes the moment. -/
theorem setPoint_changes {s : State} {d p : Nat} (h : (dieAt s d).point ≠ p) :
    setPoint s d p = { onDie s d (Die.pointed p) with pw := { (onDie s d (Die.pointed p)).pw with lastChange := s.cairn.count } } := by
  rw [setPoint, if_neg h]
  rfl

theorem setPoint_same {s : State} {d p : Nat} (h : (dieAt s d).point = p) : setPoint s d p = s := if_pos h

theorem setPoint_diesOnly (s : State) (d p : Nat) : DiesOnly s (setPoint s d p) := by
  by_cases h : (dieAt s d).point = p
  · rw [setPoint_same h]
    exact .refl s
  · rw [setPoint_changes h]
    exact ⟨rfl, onDie_length s d _⟩

theorem dieAt_setPoint_ne (s : State) {d e : Nat} (p : Nat) (h : e ≠ d) : dieAt (setPoint s d p) e = dieAt s e := by
  by_cases hp : (dieAt s d).point = p
  · rw [setPoint_same hp]
  · rw [setPoint_changes hp]
    exact dieAt_onDie_ne s _ h

/-- A die at a new point keeps all but that point and what the stack rule took. -/
theorem dieAt_setPoint {s : State} {d : Nat} (p : Nat) (h : d < s.pw.dies.length) :
    ∃ took, dieAt (setPoint s d p) d = { dieAt s d with point := p, hotTook := took } := by
  by_cases hp : (dieAt s d).point = p
  · rw [setPoint_same hp, ← hp]
    exact ⟨_, rfl⟩
  · rw [setPoint_changes hp]
    exact ⟨_, dieAt_onDie_same _ h⟩

theorem point_setPoint {s : State} {d : Nat} (p : Nat) (h : d < s.pw.dies.length) : (dieAt (setPoint s d p) d).point = p := by
  obtain ⟨_, hdie⟩ := dieAt_setPoint p h
  rw [hdie]

/-- Give each die of a list the point that a rule makes of its own. -/
def movePoints (f : Nat → Nat) : List Nat → State → State
  | [], s => s
  | d :: t, s => movePoints f t (setPoint s d (f (dieAt s d).point))

theorem lowerAll_eq (l : List Nat) (s : State) : lowerAll l s = movePoints (· - 1) l s := by
  induction l generalizing s with
  | nil => rfl
  | cons d t ih => exact ih _

theorem capDies_eq (cap : Nat) (l : List Nat) (s : State) : capDies cap l s = movePoints (min cap) l s := by
  induction l generalizing s with
  | nil => rfl
  | cons d t ih => exact ih _

theorem movePoints_diesOnly (f : Nat → Nat) (l : List Nat) (s : State) : DiesOnly s (movePoints f l s) := by
  induction l generalizing s with
  | nil => exact .refl s
  | cons d t ih => exact (setPoint_diesOnly s d _).trans (ih _)

theorem dieAt_movePoints_of_notMem (f : Nat → Nat) {l : List Nat} {d : Nat} (h : d ∉ l) (s : State) : dieAt (movePoints f l s) d = dieAt s d := by
  induction l generalizing s with
  | nil => rfl
  | cons e t ih =>
    rw [List.mem_cons, not_or] at h
    exact (ih h.2 _).trans (dieAt_setPoint_ne s _ h.1)

theorem point_movePoints (f : Nat → Nat) {l : List Nat} (hl : l.Nodup) {d : Nat} (hd : d ∈ l) {s : State} (h : d < s.pw.dies.length) :
    (dieAt (movePoints f l s) d).point = f (dieAt s d).point := by
  induction l generalizing s with
  | nil => cases hd
  | cons e t ih =>
    obtain ⟨he, ht⟩ := List.nodup_cons.1 hl
    rcases List.mem_cons.1 hd with rfl | hmem
    · rw [movePoints, dieAt_movePoints_of_notMem f he, point_setPoint _ h]
    · rw [movePoints, ih ht hmem (by rwa [(setPoint_diesOnly s e _).length]), dieAt_setPoint_ne s _ fun hde : d = e => he (hde ▸ hmem)]

/-- Every die takes its new point; where the list of the state is short, the rule has to leave a die at point 0. -/
theorem point_movePoints_all {f : Nat → Nat} (hf : f 0 = 0) {d : Nat} (hd : d < 8) (s : State) :
    (dieAt (movePoints f allDies s) d).point = f (dieAt s d).point := by
  rcases Nat.lt_or_ge d s.pw.dies.length with h | h
  · exact point_movePoints f List.nodup_range (List.mem_range.2 hd) h
  · rw [dieAt_of_length_le h, dieAt_of_length_le (by rwa [(movePoints_diesOnly f allDies s).length])]
    exact hf.symm

end Sys2Proof.Machine
end

section
/-! PROOF. O55: the governor (R473). -/

namespace Sys2Proof.Machine

/-! ### The highest and the lowest die -/

theorem foldl_max_le_iff (l : List Nat) (a m : Nat) : l.foldl max a ≤ m ↔ a ≤ m ∧ ∀ x ∈ l, x ≤ m := by
  induction l generalizing a with
  | nil => simp
  | cons b t ih => simp [ih, and_assoc]

/-- The die that a search for the highest point ends at, of those it has looked at. -/
theorem foldl_highest (s : State) (l : List Nat) (b : Nat) :
    let r := l.foldl (fun b d => if (dieAt s b).point < (dieAt s d).point then d else b) b
    (r = b ∨ r ∈ l) ∧ (dieAt s b).point ≤ (dieAt s r).point ∧ ∀ d ∈ l, (dieAt s d).point ≤ (dieAt s r).point := by
  induction l generalizing b with
  | nil => simp
  | cons a t ih =>
    obtain ⟨hmem, hle, hall⟩ := ih (if (dieAt s b).point < (dieAt s a).point then a else b)
    have hab : (dieAt s b).point ≤ (dieAt s (if (dieAt s b).point < (dieAt s a).point then a else b)).point
        ∧ (dieAt s a).point ≤ (dieAt s (if (dieAt s b).point < (dieAt s a).point then a else b)).point := by
      split <;> omega
    refine ⟨?_, hab.1.trans hle, fun d hd => ?_⟩
    · rcases hmem with h | h
      · rw [List.foldl_cons, h]
        split <;> simp
      · exact .inr (List.mem_cons_of_mem _ h)
    · rcases List.mem_cons.1 hd with rfl | hd
      · exact hab.2.trans hle
      · exact hall d hd

theorem highestDie_lt (s : State) : highestDie s < 8 := by
  rcases (foldl_highest s allDies 0).1 with h | h
  · exact h.trans_lt (by decide)
  · exact List.mem_range.1 h

theorem le_point_highestDie (s : State) {d : Nat} (hd : d < 8) : (dieAt s d).point ≤ (dieAt s (highestDie s)).point :=
  (foldl_highest s allDies 0).2.2 d (List.mem_range.2 hd)

theorem dieAt_mem {s : State} {d : Nat} (h : d < s.pw.dies.length) : dieAt s d ∈ s.pw.dies := by
  rw [dieAt, List.getD_eq_getElem _ _ h]
  exact List.getElem_mem h

theorem point_highestDie {s : State} (h : s.pw.dies.length = 8) : (dieAt s (highestDie s)).point = highestPoint s := by
  refine le_antisymm ?_ ((foldl_max_le_iff _ _ _).2 ⟨Nat.zero_le _, fun x hx => ?_⟩)
  · exact ((foldl_max_le_iff _ _ _).1 le_rfl).2 _ (List.mem_map_of_mem (dieAt_mem (h ▸ highestDie_lt s)))
  · obtain ⟨d, hd, rfl⟩ := List.mem_map.1 hx
    obtain ⟨k, hk, rfl⟩ := List.mem_iff_getElem.1 hd
    rw [← List.getD_eq_getElem s.pw.dies Die.reset hk]
    exact le_point_highestDie s (h ▸ hk)

/-- The die that a search for the lowest point ends at is one that it has looked at. -/
theorem foldl_lowest_mem {f : Option Nat → Nat → Option Nat} (hf : ∀ b d, f b d = b ∨ f b d = some d) {l : List Nat} {b : Option Nat} {d : Nat}
    (h : l.foldl f b = some d) : b = some d ∨ d ∈ l := by
  induction l generalizing b with
  | nil => exact .inl h
  | cons a t ih =>
    rcases ih h with h1 | h1
    · rcases hf b a with h2 | h2
      · exact .inl (h2.symm.trans h1)
      · exact .inr (by simp_all)
    · exact .inr (List.mem_cons_of_mem _ h1)

theorem lt_of_lowestDie {s : State} {d : Nat} (h : lowestDie s = some d) : d < 8 := by
  have hstep (b : Option Nat) (d : Nat) : (match b with
      | none => some d
      | some e => if (dieAt s d).point < (dieAt s e).point then some d else some e) = b ∨ (match b with
      | none => some d
      | some e => if (dieAt s d).point < (dieAt s e).point then some d else some e) = some d := by
    cases b with
    | none => exact .inr rfl
    | some e => exact (ite_eq_or_eq _ (some d) (some e)).symm
  rcases foldl_lowest_mem hstep h with h1 | h1
  · cases h1
  · exact List.mem_range.1 (List.mem_of_mem_filter h1)

/-! ### Rows -/

theorem powerLimited_keeps (s : State) (die point : Nat) :
    (powerLimited s die point).pw = s.pw ∧ (powerLimited s die point).mem = s.mem ∧ (powerLimited s die point).pitches = s.pitches :=
  ⟨eventOnce_field (·.pw) (fun _ _ => rfl) (fun _ => by simp) s _ _, eventOnce_field (·.mem) (fun _ _ => rfl) (fun _ => by simp) s _ _,
    eventOnce_field (·.pitches) (fun _ _ => rfl) (fun _ => by simp) s _ _⟩

theorem since_of_le {s : State} {t : Option Nat} {gap : Nat} (h : ∀ u, t = some u → u + gap ≤ s.cairn.count) : since s t gap = true := by
  cases t with
  | none => rfl
  | some u => simpa [since] using h u rfl

/-- A module whose moment of the last fall of every die is noted. -/
def fallsAt (s : State) : State := { s with pw := { s.pw with emergencyAt := some s.cairn.count } }

/-- A module whose moment of the last fall of one die is noted. -/
def lowersAt (s : State) : State := { s with pw := { s.pw with lastLower := some s.cairn.count } }

/-- The governor as it has noted a reading: above 1.1 times the limit every die falls, and above the limit the highest. -/
theorem doGovernorLower_noted {s0 s : State} {power power20 : Nat} (hs : s = notePower s0 power) (hgov : governs s = true)
    (hpoint : 0 < highestPoint s) :
    (11 * activeLimit s < 10 * power20 → since s s.pw.emergencyAt 20000 = true →
      doGovernorLower s0 power power20 = powerLimited (lowerAll allDies (fallsAt s)) 8 0)
    ∧ (10 * power20 ≤ 11 * activeLimit s → activeLimit s < power → since s s.pw.lastLower 1000000 = true →
      ∃ point, doGovernorLower s0 power power20
        = powerLimited (setPoint (lowersAt s) (highestDie s) ((dieAt s (highestDie s)).point - 1)) (highestDie s) point) := by
  have hruns : ¬(governs s = false ∨ highestPoint s = 0) := not_or.2 ⟨by simp [hgov], hpoint.ne'⟩
  unfold doGovernorLower
  rw [← hs]
  dsimp only
  rw [if_neg hruns]
  refine ⟨fun habove hsince => if_pos ⟨habove, hsince⟩, fun hwithin habove hsince =>
    ⟨(dieAt (setPoint (lowersAt s) (highestDie s) ((dieAt s (highestDie s)).point - 1)) (highestDie s)).point, ?_⟩⟩
  rw [if_neg fun h => absurd h.1 (not_lt.2 hwithin), if_pos ⟨habove, hsince⟩]
  rfl

/-- Settles O55: the points by `point_movePoints` and `point_setPoint`; the highest die by `point_highestDie`. -/
theorem governorMovesOperatingPoints : Obligations.GovernorMovesOperatingPoints := by
  unfold Obligations.GovernorMovesOperatingPoints
  intro s now power hlength hgov
  refine ⟨fun power20 hpoint habove hgap => ?_, fun power20 hpoint hwithin habove hgap => ?_, fun b d hbelow hsince hlowest hgap => ?_⟩
  · have hdo := (doGovernorLower_noted (s0 := atTime s now) (power := power) rfl hgov hpoint).1 habove (since_of_le hgap)
    obtain ⟨hpw, hmem, hpitches⟩ := powerLimited_keeps (lowerAll allDies (fallsAt (notePower (atTime s now) power))) 8 0
    refine ⟨_, congrArg Host.Outcome.next hdo, fun d hd => ?_, ?_, ?_, hmem.trans (by simp [fallsAt]), hpitches.trans (by simp [fallsAt])⟩
    · rw [dieAt_congr (congrArg Power.dies hpw), lowerAll_eq]
      exact point_movePoints_all rfl hd _
    · rw [hpw, lowerAll_eq, (movePoints_diesOnly _ _ _).rest]
      rfl
    · rw [hpw, lowerAll_eq, (movePoints_diesOnly _ _ _).rest]
      rfl
  · obtain ⟨point, hdo⟩ : ∃ point, doGovernorLower (atTime s now) power power20
        = powerLimited (setPoint (lowersAt (notePower (atTime s now) power)) (highestDie s) ((dieAt s (highestDie s)).point - 1)) (highestDie s) point :=
      (doGovernorLower_noted (s0 := atTime s now) (power := power) rfl hgov hpoint).2 hwithin habove (since_of_le hgap)
    obtain ⟨hpw, hmem, hpitches⟩ := powerLimited_keeps (setPoint (lowersAt (notePower (atTime s now) power)) (highestDie s)
      ((dieAt s (highestDie s)).point - 1)) (highestDie s) point
    refine ⟨_, congrArg Host.Outcome.next hdo, ?_, point_highestDie hlength, fun d hd => ?_, ?_, hmem.trans (by simp [lowersAt]),
      hpitches.trans (by simp [lowersAt])⟩
    · rw [dieAt_congr (congrArg Power.dies hpw)]
      exact point_setPoint _ (hlength ▸ highestDie_lt s)
    · rw [dieAt_congr (congrArg Power.dies hpw)]
      exact dieAt_setPoint_ne _ _ hd
    · rw [hpw, (setPoint_diesOnly _ _ _).rest]
      rfl
  · have hnoted : (notePower (atTime s now) power).pw.belowSince = some b := by
      have hbelow : decide (10 * power < 9 * activeLimit (atTime s now)) = true := decide_eq_true hbelow
      simp [notePower, hbelow, hsince]
    have hexec : exec (.governorRaise now power) s = .next (setPoint (notePower (atTime s now) power) d ((dieAt s d).point + 1)) := by
      show Host.Outcome.next (doGovernorRaise (atTime s now) power) = _
      unfold doGovernorRaise
      simp only [hnoted, show lowestDie (notePower (atTime s now) power) = some d from hlowest]
      exact congrArg _ (if_pos ⟨hgov, hgap⟩)
    exact ⟨_, hexec, point_setPoint _ (hlength ▸ lt_of_lowestDie hlowest), fun e he => dieAt_setPoint_ne _ _ he, by simp, by simp⟩

end Sys2Proof.Machine
end

section
/-! PROOF. O56: junction and coolant limits (R475 to R478). -/

namespace Sys2Proof.Machine

/-! ### Readings of a die -/

/-- What a reading makes of a die (R476). -/
structure DieRead (x : Die) (j : Int) (y : Die) : Prop where
  junction : y.junction = j
  limited : y.limited = (decide (16 * 105 ≤ j) || (x.limited && decide (16 * 103 < j)))
  throttled : 16 * 100 ≤ j → y.throttled = true
  point : y.point ≤ x.point
  off : y.limited = true → y.point = 0

/-- What a reading of one die leaves. -/
structure ReadsOne (s t : State) (d : Nat) : Prop where
  mem : t.mem = s.mem
  seqs : t.seqs = s.seqs
  length : t.pw.dies.length = s.pw.dies.length
  others : ∀ e, e ≠ d → dieAt t e = dieAt s e

theorem throttleEvent_keeps (s : State) (d : Nat) :
    (throttleEvent s d).pw = s.pw ∧ (throttleEvent s d).mem = s.mem ∧ (throttleEvent s d).seqs = s.seqs :=
  ⟨eventOnce_field (·.pw) (fun _ _ => rfl) (fun _ => by simp) s _ _, eventOnce_field (·.mem) (fun _ _ => rfl) (fun _ => by simp) s _ _,
    eventOnce_field (·.seqs) (fun _ _ => rfl) (fun _ => by simp) s _ _⟩

theorem resumeSlots_keeps (l : List Nat) (s : State) :
    (resumeSlots l s).pw = s.pw ∧ (resumeSlots l s).mem = s.mem ∧ (resumeSlots l s).seqs = s.seqs := by
  induction l generalizing s with
  | nil => exact ⟨rfl, rfl, rfl⟩
  | cons p t ih =>
    rw [resumeSlots]
    split
    · exact ih s
    · obtain ⟨hpw, hmem, hseqs⟩ := ih (releaseBlocked s p (slotCame s ‹_›))
      exact ⟨hpw.trans (by simp), hmem.trans (by simp), hseqs.trans (by simp)⟩

theorem ReadsOne.refl (s : State) (d : Nat) : ReadsOne s s d := ⟨rfl, rfl, rfl, fun _ _ => rfl⟩

theorem ReadsOne.trans {s t u : State} {d : Nat} (h : ReadsOne s t d) (h' : ReadsOne t u d) : ReadsOne s u d :=
  ⟨h'.mem.trans h.mem, h'.seqs.trans h.seqs, h'.length.trans h.length, fun e he => (h'.others e he).trans (h.others e he)⟩

theorem onDie_readsOne (s : State) (d : Nat) (f : Die → Die) : ReadsOne s (onDie s d f) d :=
  ⟨by simp, by simp, onDie_length s d f, fun _ he => dieAt_onDie_ne s f he⟩

theorem setPoint_readsOne (s : State) (d p : Nat) : ReadsOne s (setPoint s d p) d :=
  ⟨by simp, by simp, (setPoint_diesOnly s d p).length, fun _ he => dieAt_setPoint_ne s p he⟩

/-- A change that leaves the dies. -/
theorem ReadsOne.of_eq {s t : State} (d : Nat) (hpw : t.pw = s.pw) (hmem : t.mem = s.mem) (hseqs : t.seqs = s.seqs) : ReadsOne s t d :=
  ⟨hmem, hseqs, by rw [hpw], fun _ _ => dieAt_congr (by rw [hpw]) _⟩

/-- What the rule for a hot die makes of it: its point may fall, and 0 it is while the die is limited. -/
structure Throttled (x y : Die) : Prop where
  point : y.point ≤ x.point
  off : x.limited = true → y.point = 0
  junction : y.junction = x.junction
  limited : y.limited = x.limited
  throttled : y.throttled = x.throttled

theorem setPoint_throttled {s : State} {d p : Nat} (h : d < s.pw.dies.length) (hp : p ≤ (dieAt s d).point)
    (hoff : (dieAt s d).limited = true → p = 0) : Throttled (dieAt s d) (dieAt (setPoint s d p) d) := by
  obtain ⟨_, hdie⟩ := dieAt_setPoint p h
  rw [hdie]
  exact ⟨hp, hoff, rfl, rfl, rfl⟩

/-- A die after the rule for a hot one, before it is reported. -/
def heatMoved (s : State) (d : Nat) : State :=
  let x := dieAt s d
  if x.limited then setPoint s d 0
  else if 16 * 100 ≤ x.junction ∧ since s x.lastThrottle 1000000 then
    setPoint (onDie s d fun x => { x with lastThrottle := some s.cairn.count }) d (x.point - 1)
  else s

theorem heatMoved_spec {s : State} {d : Nat} (h : d < s.pw.dies.length) :
    ReadsOne s (heatMoved s d) d ∧ Throttled (dieAt s d) (dieAt (heatMoved s d) d) := by
  unfold heatMoved
  dsimp only
  split
  · exact ⟨setPoint_readsOne s d 0, setPoint_throttled h (Nat.zero_le _) fun _ => rfl⟩
  · next hlimited =>
    split
    · refine ⟨(onDie_readsOne s d _).trans (setPoint_readsOne _ d _), ?_⟩
      obtain ⟨_, hdie⟩ := dieAt_setPoint (s := onDie s d fun x => { x with lastThrottle := some s.cairn.count }) ((dieAt s d).point - 1)
        (by rwa [onDie_length])
      rw [hdie, dieAt_onDie_same _ h]
      exact ⟨Nat.sub_le _ _, fun hl => absurd hl hlimited, rfl, rfl, rfl⟩
    · exact ⟨.refl s d, le_rfl, fun hl => absurd hl hlimited, rfl, rfl, rfl⟩

theorem throttlePoint_spec {s : State} {d : Nat} (h : d < s.pw.dies.length) :
    ReadsOne s (throttlePoint s d) d ∧ Throttled (dieAt s d) (dieAt (throttlePoint s d) d) := by
  obtain ⟨hone, hdie⟩ := heatMoved_spec h
  have hdo : throttlePoint s d = if 16 * 100 ≤ (dieAt s d).junction then throttleEvent (heatMoved s d) d else heatMoved s d := rfl
  rw [hdo]
  split
  · obtain ⟨hpw, hmem, hseqs⟩ := throttleEvent_keeps (heatMoved s d) d
    rw [dieAt_congr (congrArg Power.dies hpw)]
    exact ⟨hone.trans (.of_eq d hpw hmem hseqs), hdie⟩
  · exact ⟨hone, hdie⟩

theorem readDie_spec {s : State} {d : Nat} (j : Int) (h : d < s.pw.dies.length) :
    ReadsOne s (readDie s d j) d ∧ DieRead (dieAt s d) j (dieAt (readDie s d j) d) := by
  let u := throttlePoint (onDie s d fun x => nextDie x j s.cairn.count) d
  obtain ⟨hone, hthrottled⟩ := throttlePoint_spec (s := onDie s d fun x => nextDie x j s.cairn.count) (d := d) (by rwa [onDie_length])
  rw [dieAt_onDie_same _ h] at hthrottled
  have hu : ReadsOne s u d := (onDie_readsOne s d _).trans hone
  have hread : DieRead (dieAt s d) j (dieAt u d) := by
    refine ⟨hthrottled.junction, hthrottled.limited, fun hj => hthrottled.throttled.trans ?_, hthrottled.point, fun hl => ?_⟩
    · rw [nextDie, decide_eq_true hj, Bool.true_or]
    · exact hthrottled.off (hthrottled.limited.symm.trans hl)
  have hdone (t : State) (hpw : t.pw = u.pw) (hmem : t.mem = u.mem) (hseqs : t.seqs = u.seqs) :
      ReadsOne s t d ∧ DieRead (dieAt s d) j (dieAt t d) :=
    ⟨hu.trans (.of_eq d hpw hmem hseqs), dieAt_congr (congrArg Power.dies hpw) d ▸ hread⟩
  unfold readDie
  dsimp only
  split
  · exact hdone _ (by simp [u]) (by simp [u]) (by simp [u])
  · split
    · obtain ⟨hpw, hmem, hseqs⟩ := resumeSlots_keeps (u.pitches.map (·.1)) u
      exact hdone _ hpw hmem hseqs
    · exact hdone u rfl rfl rfl

/-- The readings of several dies each act on their own. -/
theorem readDies_spec {l : List (List Int × Nat)} (hl : (l.map (·.2)).Nodup) {s : State} (h : ∀ x ∈ l, x.2 < s.pw.dies.length) :
    (readDies l s).mem = s.mem ∧ (readDies l s).seqs = s.seqs ∧ (∀ d, d ∉ l.map (·.2) → dieAt (readDies l s) d = dieAt s d)
      ∧ ∀ x ∈ l, DieRead (dieAt s x.2) (junctionOf x.1) (dieAt (readDies l s) x.2) := by
  induction l generalizing s with
  | nil => exact ⟨rfl, rfl, fun _ _ => rfl, by simp⟩
  | cons a t ih =>
    obtain ⟨ls, d⟩ := a
    obtain ⟨hnot, hnodup⟩ := List.nodup_cons.1 hl
    obtain ⟨hone, hread⟩ := readDie_spec (junctionOf ls) (h _ List.mem_cons_self)
    obtain ⟨hmem, hseqs, hothers, hall⟩ := ih hnodup fun x hx => by
      rw [hone.length]
      exact h x (List.mem_cons_of_mem _ hx)
    refine ⟨hmem.trans hone.mem, hseqs.trans hone.seqs, fun e he => ?_, fun x hx => ?_⟩
    · rw [List.map_cons, List.mem_cons, not_or] at he
      exact (hothers e he.2).trans (hone.others e he.1)
    · rcases List.mem_cons.1 hx with rfl | hx
      · exact hothers d hnot ▸ hread
      · have hne : x.2 ≠ d := fun hxd => hnot (List.mem_map.2 ⟨x, hx, hxd⟩)
        exact hone.others _ hne ▸ hall x hx

theorem senseDies_pw (l : List (List Int × Nat)) (s : State) : ∃ pw, senseDies l s = { s with pw := pw } ∧ pw.rails = s.pw.rails := by
  induction l generalizing s with
  | nil => exact ⟨s.pw, rfl, rfl⟩
  | cons a t ih =>
    obtain ⟨pw, hs, hrails⟩ := ih (onDie s a.2 fun x => { x with junction := junctionOf a.1 })
    exact ⟨pw, hs, hrails⟩

theorem mem_readings {sensors : List (List Int)} (hlength : sensors.length = 8) {d : Nat} (hd : d < 8) :
    (sensors.getD d [], d) ∈ sensors.zipIdx.take 8 := by
  rw [List.take_of_length_le (by simp [hlength])]
  exact List.mem_zipIdx_iff_getElem?.2 (by simp [List.getD_eq_getElem?_getD, hlength, hd])

theorem of_mem_readings {sensors : List (List Int)} {x : List Int × Nat} (h : x ∈ sensors.zipIdx.take 8) :
    x.2 < 8 ∧ x.1 = sensors.getD x.2 [] := by
  obtain ⟨k, hk, hx⟩ := List.mem_iff_getElem.1 h
  simp only [List.length_take, List.length_zipIdx] at hk
  rw [List.getElem_take, List.getElem_zipIdx] at hx
  subst hx
  simp only [Nat.zero_add]
  exact ⟨by omega, (List.getD_eq_getElem _ _ (by omega)).symm⟩

theorem nodup_readings (sensors : List (List Int)) : ((sensors.zipIdx.take 8).map (·.2)).Nodup := by
  rw [List.map_take, List.zipIdx_map_snd]
  exact (List.nodup_range' (step := 1)).sublist (List.take_sublist _ _)

/-- A junction at 110 °C trips the module (R477). -/
theorem doJunctions_trips {s : State} {sensors : List (List Int)} (hrails : s.pw.rails = true) {x : List Int × Nat}
    (hx : x ∈ sensors.zipIdx.take 8) (hot : 16 * 110 ≤ junctionOf x.1) :
    let t := doJunctions s sensors
    t.pw.trip = true ∧ t.pw.rails = false ∧ t.mem = State.reset.mem ∧ t.pitches = State.reset.pitches ∧ t.nvm = { s.nvm with head := t.nvm.head } := by
  have hfound : ((sensors.zipIdx.take 8).find? fun x => decide (16 * 110 ≤ junctionOf x.1)).isSome = true :=
    List.find?_isSome.2 ⟨x, hx, decide_eq_true hot⟩
  obtain ⟨y, hy⟩ := Option.isSome_iff_exists.1 hfound
  obtain ⟨pw, hsense, hoff⟩ := senseDies_pw (sensors.zipIdx.take 8) (railsOff s)
  unfold doJunctions
  dsimp only
  rw [if_neg (by simp [hrails]), hy]
  dsimp only
  rw [hsense]
  exact ⟨rfl, hoff, rfl, rfl, rfl⟩

/-- Below it every die has its reading (R476). -/
theorem doJunctions_reads {s : State} {sensors : List (List Int)} (hrails : s.pw.rails = true)
    (hcool : ∀ x ∈ sensors.zipIdx.take 8, junctionOf x.1 < 16 * 110) : doJunctions s sensors = readDies (sensors.zipIdx.take 8) s := by
  have hfound : ((sensors.zipIdx.take 8).find? fun x => decide (16 * 110 ≤ junctionOf x.1)) = none :=
    List.find?_eq_none.2 fun x hx => by simpa using hcool x hx
  unfold doJunctions
  dsimp only
  rw [if_neg (by simp [hrails]), hfound]

/-! ### The coolant -/

theorem classCap_congr {s t : State} (hcfg : t.cfg = s.cfg) (hhigh : t.pw.coolantHigh = s.pw.coolantHigh) : classCap t = classCap s := by
  unfold classCap
  rw [hcfg, hhigh]

/-- A hot inlet caps every die (R478). -/
theorem doCoolantHigh_caps {s : State} {inlet : Nat} (hcfg : s.cfg.isSome = true) (hnew : s.pw.coolantHigh = false) (hhot : inletMax s + 2 < inlet) :
    let t := doCoolantHigh s inlet
    t.pw.coolantHigh = true ∧ t.pw.inlet = inlet ∧ (∀ d, d < 8 → (dieAt t d).point = min (classCap t) (dieAt s d).point)
      ∧ t.ev.written = (s.ev.written + 1) % 2 ^ 32 ∧ t.mem = s.mem := by
  let u := { s with pw := { s.pw with inlet := inlet, coolantHigh := true } }
  have hdo : ∃ detail, doCoolantHigh s inlet = rangerEvent (capDies (classCap u) allDies u) 0x09 0x0F14 noPitch detail :=
    ⟨_, if_pos ⟨hcfg, hnew, hhot⟩⟩
  obtain ⟨detail, hdo⟩ := hdo
  have hpw : (rangerEvent (capDies (classCap u) allDies u) 0x09 0x0F14 noPitch detail).pw = (movePoints (min (classCap u)) allDies u).pw := by
    rw [← capDies_eq]
    simp
  have hrest := (movePoints_diesOnly (min (classCap u)) allDies u).rest
  have hcap : classCap (rangerEvent (capDies (classCap u) allDies u) 0x09 0x0F14 noPitch detail) = classCap u :=
    classCap_congr (by simp) (by rw [hpw, hrest])
  rw [hdo]
  refine ⟨?_, ?_, fun d hd => ?_, by simp [u], by simp [u]⟩
  · rw [hpw, hrest]
  · rw [hpw, hrest]
  · rw [hcap, dieAt_congr (congrArg Power.dies hpw)]
    exact point_movePoints_all (Nat.min_zero _) hd u

/-- Settles O56: readings by `readDies_spec`, the trip by `doJunctions_trips`, the coolant by `doCoolantHigh_caps`. -/
theorem temperatureLimits : Obligations.TemperatureLimits := by
  unfold Obligations.TemperatureLimits
  refine fun s now => ⟨fun sensors hrails hlength hsensors => ⟨fun ⟨d, hd, hot⟩ => ?_, fun hcool => ?_⟩, fun inlet c hcfg hnew hhot => ?_,
    fun inlet hlo hhi => ?_⟩
  · exact ⟨_, rfl, doJunctions_trips (s := atTime s now) hrails (mem_readings hsensors hd) hot⟩
  · have hdo := doJunctions_reads (s := atTime s now) (sensors := sensors) hrails fun x hx => by
      obtain ⟨hlt, hval⟩ := of_mem_readings hx
      rw [hval]
      exact hcool _ hlt
    obtain ⟨hmem, hseqs, -, hread⟩ := readDies_spec (nodup_readings sensors) (s := atTime s now) fun x hx => by
      simpa [hlength] using (of_mem_readings hx).1
    refine ⟨_, congrArg Host.Outcome.next hdo, hmem, hseqs, fun d hd => ?_⟩
    have hdie := hread _ (mem_readings hsensors hd)
    refine ⟨hdie.junction, fun hhot => ?_, fun hlo hhi => ?_, fun hlow => ?_, fun hwarm => hdie.throttled hwarm, hdie.point⟩
    · have hlimited : (dieAt (readDies (sensors.zipIdx.take 8) (atTime s now)) d).limited = true := by
        rw [hdie.limited, decide_eq_true hhot, Bool.true_or]
      exact ⟨hlimited, hdie.off hlimited⟩
    · rw [hdie.limited, decide_eq_false (not_le.2 hhi), decide_eq_true hlo, Bool.and_true, Bool.false_or]
      rfl
    · rw [hdie.limited, decide_eq_false (show ¬16 * 105 ≤ junctionOf (sensors.getD d []) by have : junctionOf (sensors.getD d []) ≤ 16 * 103 := hlow; omega), decide_eq_false (not_lt.2 hlow), Bool.and_false, Bool.or_false]
  · exact ⟨_, rfl, doCoolantHigh_caps (s := atTime s now) (by simp [hcfg]) hnew hhot⟩
  · exact congrArg Host.Outcome.next (if_pos ⟨hlo, hhi⟩)

end Sys2Proof.Machine
end

section
/-! SUPPORT. Mailboxes (R417 to R420): what posting, taking and acknowledging leave in a mailbox, and what an interrupt and an event leave of the
functions of the host port. -/

namespace Sys2Proof.Machine

/-! ### Rows that touch the host port alone -/

/-- Two states differ in the host port and in what was sent alone. -/
def HostOnly (s t : State) : Prop := t = { s with host := t.host, out := t.out }

theorem HostOnly.trans {s t u : State} (h₁ : HostOnly s t) (h₂ : HostOnly t u) : HostOnly s u :=
  Eq.trans h₂ (congrArg (fun x : State => { x with host := u.host, out := u.out }) h₁)

theorem raiseInterrupt_hostOnly (s : State) (fn vector : Nat) : HostOnly s (raiseInterrupt s fn vector) := by
  unfold raiseInterrupt
  dsimp only
  split
  · split <;> rfl
  · rfl

/-! ### Functions after interrupts and events -/

/-- Two states agree in every function of the host port but for its MSI-X table. -/
def FunctionsKept (s t : State) : Prop := ∀ fn, fnOf t fn = { fnOf s fn with msix := (fnOf t fn).msix }

theorem FunctionsKept.of_host_eq {s t : State} (h : t.host = s.host) : FunctionsKept s t := fun fn => by
  have hfn : fnOf t fn = fnOf s fn := by simp only [fnOf, h]
  rw [hfn]

theorem FunctionsKept.trans {s t u : State} (h₁ : FunctionsKept s t) (h₂ : FunctionsKept t u) : FunctionsKept s u := fun fn =>
  (h₂ fn).trans (congrArg (fun f : Function => { f with msix := (fnOf u fn).msix }) (h₁ fn))

theorem FunctionsKept.mailOf_eq {s t : State} (h : FunctionsKept s t) (fn mb : Nat) : mailOf t fn mb = mailOf s fn mb := by
  rw [mailOf, mailOf, h fn]

/-- An interrupt may mark the vector of its function as pending. -/
theorem raiseInterrupt_functionsKept (s : State) (fn vector : Nat) : FunctionsKept s (raiseInterrupt s fn vector) := by
  unfold raiseInterrupt
  dsimp only
  split
  · split
    · intro g
      by_cases hg : g = fn
      · subst hg
        simp only [fnOf, mgetD_mset_same]
        split <;> rfl
      · simp only [fnOf, mgetD_mset_ne _ _ _ hg]
    · exact .of_host_eq rfl
  · exact .of_host_eq rfl

theorem writeEvent_functionsKept (s : State) (source cls code pitch : Nat) (detail : List Byte) :
    FunctionsKept s (writeEvent s source cls code pitch detail) := by
  unfold writeEvent
  extract_lets e ev s₁ s₂ pf
  have hlog : FunctionsKept s s₂ := by
    unfold s₂
    split
    · exact .of_host_eq (appendCritical_host s₁ e)
    · exact .of_host_eq rfl
  split
  · exact hlog.trans (raiseInterrupt_functionsKept s₂ 0 _)
  · exact hlog

theorem eventOnce_functionsKept {write : State → State} (hw : ∀ t, FunctionsKept t (write t)) (s : State) (code unit : Nat) :
    FunctionsKept s (eventOnce s code unit write) := by
  unfold eventOnce
  dsimp only
  split
  · exact .of_host_eq rfl
  · exact FunctionsKept.trans (.of_host_eq rfl) (hw _)

theorem collisionEvent_functionsKept (s : State) (fn mb : Nat) : FunctionsKept s (collisionEvent s fn mb) :=
  eventOnce_functionsKept (fun _ => writeEvent_functionsKept _ _ _ _ _ _) s _ _

/-! ### Mailboxes -/

@[simp] theorem mailOf_putMail (s : State) (fn mb : Nat) (m : Mailbox) : mailOf (putMail s fn mb m) fn mb = m := by
  have hmail : (fnOf (putMail s fn mb m) fn).mail = mset (fnOf s fn).mail mb m := by
    rw [putMail, fnOf_putFn_same]
    split <;> rfl
  rw [mailOf, hmail, mgetD_mset_same]

theorem putMail_hostOnly (s : State) (fn mb : Nat) (m : Mailbox) : putMail s fn mb m = { s with host := (putMail s fn mb m).host } := rfl

/-- A function whose mailbox is put keeps everything else. -/
theorem fnOf_putMail (s : State) (fn mb : Nat) (m : Mailbox) :
    fnOf (putMail s fn mb m) fn = { fnOf s fn with mail := mset (fnOf s fn).mail mb m } := by
  rw [putMail, fnOf_putFn_same]
  split
  · next h => simp [fnOf, h]
  · rfl

/-- Putting a function with its mailboxes leaves them as they were. -/
theorem mailOf_putFn {s : State} {fn : Nat} {f : Function} (h : f.mail = (fnOf s fn).mail) (mb : Nat) :
    mailOf (putFn s fn f) fn mb = mailOf s fn mb := by
  have hmail : (fnOf (putFn s fn f) fn).mail = (fnOf s fn).mail := by
    rw [fnOf_putFn_same, ← h]
    split <;> rfl
  rw [mailOf, mailOf, hmail]

/-- The message that is taken keeps its words, and its number is the one acknowledged. -/
@[simp] theorem mailOf_takeMail (s : State) (fn mb : Nat) :
    mailOf (takeMail s fn mb) fn mb = { mailOf s fn mb with state := .taken, takenSeq := (mailOf s fn mb).postedSeq } := by
  rw [takeMail]
  exact mailOf_putMail _ _ _ _

/-- Taking a message leaves the rest of its function. -/
theorem fnOf_takeMail (s : State) (fn mb : Nat) : fnOf (takeMail s fn mb) fn = { fnOf s fn with mail := (fnOf (takeMail s fn mb) fn).mail } := by
  rw [takeMail]
  dsimp only
  rw [fnOf_putMail]

theorem takeMail_hostOnly (s : State) (fn mb : Nat) : HostOnly s (takeMail s fn mb) := putMail_hostOnly _ _ _ _

/-- What an acknowledgement leaves in its mailbox (R417, R419). -/
def ackedMail (m : Mailbox) (code : Nat) (reply : List Word) : Mailbox :=
  { m with
    state := if m.state = .takenPosted then .posted else .empty
    reply := (0#32 :: reply) ++ List.replicate (15 - reply.length) 0#32
    ackCode := code, ackSeq := m.takenSeq, ackValid := true }

/-- An acknowledgement puts the mailbox, and may raise the mailbox's interrupt. -/
theorem ackMail_functionsKept (s : State) (fn mb code : Nat) (reply : List Word) :
    FunctionsKept (putMail s fn mb (ackedMail (mailOf s fn mb) code reply)) (ackMail s fn mb code reply) := by
  unfold ackMail
  dsimp only
  split
  · exact raiseInterrupt_functionsKept _ _ _
  · exact .of_host_eq rfl

theorem mailOf_ackMail (s : State) (fn mb code : Nat) (reply : List Word) :
    mailOf (ackMail s fn mb code reply) fn mb = ackedMail (mailOf s fn mb) code reply := by
  rw [(ackMail_functionsKept s fn mb code reply).mailOf_eq, mailOf_putMail]

theorem ackMail_hostOnly (s : State) (fn mb code : Nat) (reply : List Word) : HostOnly s (ackMail s fn mb code reply) := by
  unfold ackMail
  dsimp only
  split
  · exact HostOnly.trans (putMail_hostOnly s fn mb _) (raiseInterrupt_hostOnly _ _ _)
  · exact putMail_hostOnly s fn mb _

/-- An acknowledgement leaves the rest of its function, but for a pending interrupt. -/
theorem fnOf_ackMail (s : State) (fn mb code : Nat) (reply : List Word) :
    fnOf (ackMail s fn mb code reply) fn
      = { fnOf s fn with mail := (fnOf (ackMail s fn mb code reply) fn).mail, msix := (fnOf (ackMail s fn mb code reply) fn).msix } := by
  rw [ackMail_functionsKept s fn mb code reply fn, fnOf_putMail]

/-- A mailbox holds the acknowledgement, with a code, of the message that stood posted in `m`, and is EMPTY (R419). -/
def Acknowledged (m : Mailbox) (code : Nat) (k : Mailbox) : Prop :=
  k.state = .empty ∧ k.ackCode = code ∧ k.ackValid = true ∧ k.ackSeq = m.postedSeq

/-- A message that is taken, acted on and acknowledged, where no post lands meanwhile and the action leaves the mailbox. -/
theorem acknowledged_ackMail {s t : State} {fn mb : Nat} (h : mailOf t fn mb = mailOf (takeMail s fn mb) fn mb) (code : Nat) (reply : List Word) :
    Acknowledged (mailOf s fn mb) code (mailOf (ackMail t fn mb code reply) fn mb) := by
  rw [mailOf_ackMail, h, mailOf_takeMail]
  exact ⟨rfl, rfl, rfl, rfl⟩

/-! ### Running a message -/

/-- A message with a fixed answer is acknowledged with it (R410, R420, R437). -/
theorem mailRun_barred {s : State} {fn mb : Nat} {code : Nat} (hreach : fnReachable s fn = true) (hphase : 9 ≤ s.boot.phase)
    (hposted : (mailOf s fn mb).state = .posted) (hbar : mailBarred s fn (mailType (mailOf s fn mb).message) = some code)
    (type : Nat) (posts : List (NMap Word)) (act : List Word → State → MailResult) :
    mailRun s fn mb type posts act = ackMail (mailWrites fn mb posts (takeMail s fn mb)) fn mb code [] := by
  unfold mailRun
  dsimp only
  rw [if_neg (by simp [hreach, hposted, Nat.not_lt.mpr hphase]), hbar]

/-- A message of the row's type that has no fixed answer is acted on, and acknowledged with the action's code and reply (R419). -/
theorem mailRun_acts {s : State} {fn mb : Nat} (hreach : fnReachable s fn = true) (hphase : 9 ≤ s.boot.phase)
    (hposted : (mailOf s fn mb).state = .posted) (hbar : mailBarred s fn (mailType (mailOf s fn mb).message) = none) {type : Nat}
    (htype : mailType (mailOf s fn mb).message = type) (posts : List (NMap Word)) (act : List Word → State → MailResult) :
    mailRun s fn mb type posts act
      = ackMail (act (mailOf s fn mb).message (mailWrites fn mb posts (takeMail s fn mb))).state fn mb
          (act (mailOf s fn mb).message (mailWrites fn mb posts (takeMail s fn mb))).code
          (act (mailOf s fn mb).message (mailWrites fn mb posts (takeMail s fn mb))).reply := by
  unfold mailRun
  dsimp only
  rw [if_neg (by simp [hreach, hposted, Nat.not_lt.mpr hphase]), hbar]
  exact if_pos htype

end Sys2Proof.Machine
end

section
/-! PROOF. O9: a VF without an enabled pitch is answered NOT_PERMITTED, and its doorbells are ignored (R410). -/

namespace Sys2Proof.Machine

/-- A VF without an enabled pitch is barred. -/
theorem fnBarred_of_record {s : State} {fn : Nat} (hfn : 1 ≤ fn)
    (h : recordOf s (fn - 1) = none ∨ ∃ r, recordOf s (fn - 1) = some r ∧ (r.enabled = false ∨ (pitchOf s (fn - 1)).groupDisabled = true)) :
    fnBarred s fn = true := by
  unfold fnBarred
  rw [if_neg (by omega)]
  rcases h with h | ⟨r, h, henabled | hdisabled⟩
  · rw [h]
  · rw [h]
    simp [henabled]
  · rw [h]
    simp [hdisabled]

/-- A message of a barred function is acknowledged with NOT_PERMITTED, whatever its type, and nothing else happens (R410). -/
theorem mailRun_of_fnBarred {s : State} {fn mb : Nat} (hbar : fnBarred s fn = true) (hreach : fnReachable s fn = true) (hphase : 9 ≤ s.boot.phase)
    (hposted : (mailOf s fn mb).state = .posted) (type : Nat) (act : List Word → State → MailResult) :
    Acknowledged (mailOf s fn mb) 0x0030 (mailOf (mailRun s fn mb type [] act) fn mb) ∧ HostOnly s (mailRun s fn mb type [] act) := by
  have hcode : mailBarred s fn (mailType (mailOf s fn mb).message) = some 0x0030 := if_pos hbar
  rw [mailRun_barred hreach hphase hposted hcode]
  exact ⟨acknowledged_ackMail rfl _ _, (takeMail_hostOnly s fn mb).trans (ackMail_hostOnly _ _ _ _ _)⟩

/-- Each row of a message runs it from its mailbox. -/
theorem exec_mail_row {s : State} {fn mb : Nat} (hmb : mailOk fn mb = true) (dma : List Byte) (ok : Bool) :
    ∀ c ∈ [Instr.ringCreate fn mb [], .ringDestroy fn mb [], .attachBegin fn mb [], .attach fn mb [], .fwWrite (.mailbox fn mb []) dma,
        .fwVerify (.mailbox fn mb []) ok [], .fwActivate (.mailbox fn mb []) [], .fwDisarm (.mailbox fn mb []) [], .fwConfirm (.mailbox fn mb []) [],
        .lockWrite (.mailbox fn mb []) dma ok, .fwStatus (.mailbox fn mb [])],
      ∃ type act, exec c s = .next (mailRun s fn mb type [] act) := by
  simp only [List.forall_mem_cons, List.not_mem_nil, false_implies, implies_true, and_true]
  exact ⟨⟨_, _, if_pos hmb⟩, ⟨_, _, if_pos hmb⟩, ⟨_, _, if_pos hmb⟩, ⟨_, _, if_pos hmb⟩, ⟨_, _, if_pos hmb⟩, ⟨_, _, if_pos hmb⟩, ⟨_, _, if_pos hmb⟩,
    ⟨_, _, if_pos hmb⟩, ⟨_, _, if_pos hmb⟩, ⟨_, _, if_pos hmb⟩, ⟨_, _, if_pos hmb⟩⟩

/-- The doorbells of a barred function are ignored (R410). -/
theorem exec_doorbells_of_fnBarred {s : State} {fn ring : Nat} (hring : ringOk fn ring = true) (hbar : fnBarred s fn = true) (value : Word) :
    exec (.submissionDoorbell fn ring value) s = .next s ∧ exec (.completionDoorbell fn ring value) s = .next s := by
  constructor
  · show execSubmissionDoorbell fn ring value s = .next s
    rw [execSubmissionDoorbell, if_pos hring, doSubmissionDoorbell, if_pos (.inr hbar)]
  · show execCompletionDoorbell fn ring value s = .next s
    rw [execCompletionDoorbell, if_pos hring, doCompletionDoorbell, if_pos (.inr hbar)]

/-- Settles O9: every message of a barred function has the fixed answer NOT_PERMITTED, and its doorbells return before they look at a ring. -/
theorem barredFunctionsAreNotServed : Obligations.BarredFunctionsAreNotServed := by
  intro s fn hfn hlt hreach hrecord
  have hbar := fnBarred_of_record hfn hrecord
  constructor
  · intro mb dma ok hmb hphase hposted c hc
    obtain ⟨type, act, hrun⟩ := exec_mail_row (s := s) hmb dma ok c hc
    obtain ⟨⟨hstate, hcode, hvalid, hseq⟩, hframe⟩ := mailRun_of_fnBarred hbar hreach hphase hposted type act
    exact ⟨_, hrun, hcode, hvalid, hseq, hstate, hframe⟩
  · intro ring value hring
    exact exec_doorbells_of_fnBarred (by simp [ringOk, fnOk, hlt, hring]) hbar value

end Sys2Proof.Machine
end

section
/-! PROOF. O40: mailboxes take posts, and their messages act and are acknowledged (R344, R417 to R421, R435). -/

namespace Sys2Proof.Machine

/-! ### Posts (R417 to R419) -/

/-- The state of a mailbox after a post. -/
def statePosted : MailState → MailState
  | .empty => .posted
  | .posted => .posted
  | .taken => .takenPosted
  | .takenPosted => .takenPosted

/-- A mailbox after a post whose word 0 is `w`. -/
def postedMail (m : Mailbox) (fn mb : Nat) (words : NMap Word) (w : Word) : Mailbox :=
  { m with
    staging := stageWords m.staging words
    message := stampWord fn mb w :: stageWords m.staging words
    postedSeq := nextPost m.postedSeq
    state := statePosted m.state
    collision := m.collision || decide (m.state = .posted) || decide (m.state = .takenPosted) }

/-- A post puts the mailbox; a post over another is recorded as a collision. -/
theorem mailWrite_posts {s : State} {fn mb : Nat} (hreach : fnReachable s fn = true) {words : NMap Word} {w : Word} (hw : mget words 0 = some w) :
    let t := putMail s fn mb (postedMail (mailOf s fn mb) fn mb words w)
    mailWrite s fn mb words
      = if (mailOf s fn mb).state = .posted ∨ (mailOf s fn mb).state = .takenPosted then collisionEvent t fn mb else t := by
  unfold mailWrite postedMail
  dsimp only
  rw [if_neg (by simp [hreach]), hw]
  dsimp only
  cases hstate : (mailOf s fn mb).state <;> simp [statePosted]

theorem mailOf_mailWrite {s : State} {fn mb : Nat} (hreach : fnReachable s fn = true) {words : NMap Word} {w : Word} (hw : mget words 0 = some w) :
    mailOf (mailWrite s fn mb words) fn mb = postedMail (mailOf s fn mb) fn mb words w := by
  rw [mailWrite_posts hreach hw]
  split
  · rw [(collisionEvent_functionsKept _ fn mb).mailOf_eq, mailOf_putMail]
  · rw [mailOf_putMail]

/-! ### The messages of a function (R344, R420, R421) -/

/-- A message that the Ranger takes: posted in a mailbox of a function that is served, from phase 9 of a start on (R410, R435). -/
structure Takes (s : State) (fn mb : Nat) : Prop where
  ok : mailOk fn mb = true
  reach : fnReachable s fn = true
  phase : 9 ≤ s.boot.phase
  posted : (mailOf s fn mb).state = .posted
  bar : fnBarred s fn = false
  config : s.boot.configRefused = false

/-- A message of R420 has no fixed answer. -/
theorem Takes.mailBarred {s : State} {fn mb type : Nat} (h : Takes s fn mb) (htype : 1 ≤ type ∧ type ≤ 4) : mailBarred s fn type = none := by
  unfold Machine.mailBarred
  rw [if_neg (by simp [h.bar]), if_neg (by omega), if_neg (by simp [h.config]), if_pos (by simp [mailKnown, htype])]

/-- A message of R420 is acted on and acknowledged. -/
theorem Takes.mailRun {s : State} {fn mb type : Nat} (h : Takes s fn mb) (htype : mailType (mailOf s fn mb).message = type)
    (hrange : 1 ≤ type ∧ type ≤ 4) {act : List Word → State → MailResult} {t : State} {code : Nat} {reply : List Word}
    (hact : act (mailOf s fn mb).message (takeMail s fn mb) = ⟨t, code, reply⟩) :
    mailRun s fn mb type [] act = ackMail t fn mb code reply := by
  rw [mailRun_acts h.reach h.phase h.posted (htype ▸ h.mailBarred hrange) htype]
  simp only [mailWrites, hact]

/-- The rings, the attachment and the challenge of a function are those of a state before its message is acknowledged. -/
theorem fnOf_ackMail_fields (s : State) (fn mb code : Nat) (reply : List Word) :
    (fnOf (ackMail s fn mb code reply) fn).sub = (fnOf s fn).sub ∧ (fnOf (ackMail s fn mb code reply) fn).comp = (fnOf s fn).comp
      ∧ (fnOf (ackMail s fn mb code reply) fn).attached = (fnOf s fn).attached
      ∧ (fnOf (ackMail s fn mb code reply) fn).challenge = (fnOf s fn).challenge := by
  rw [fnOf_ackMail]
  exact ⟨rfl, rfl, rfl, rfl⟩

theorem fnOf_takeMail_fields (s : State) (fn mb : Nat) :
    (fnOf (takeMail s fn mb) fn).sub = (fnOf s fn).sub ∧ (fnOf (takeMail s fn mb) fn).comp = (fnOf s fn).comp
      ∧ (fnOf (takeMail s fn mb) fn).attached = (fnOf s fn).attached ∧ (fnOf (takeMail s fn mb) fn).challenge = (fnOf s fn).challenge := by
  rw [fnOf_takeMail]
  exact ⟨rfl, rfl, rfl, rfl⟩

/-- The fields of a function that has been put. -/
theorem fnOf_putFn_fields (s : State) (fn : Nat) (f : Function) :
    (fnOf (putFn s fn f) fn).sub = f.sub ∧ (fnOf (putFn s fn f) fn).comp = f.comp ∧ (fnOf (putFn s fn f) fn).challenge = f.challenge := by
  rw [fnOf_putFn_same]
  split <;> exact ⟨rfl, rfl, rfl⟩

/-- A ring descriptor that is good for a function is so while its message is taken. -/
theorem ringDescOk_takeMail (s : State) (fn mb : Nat) (bs : List Byte) : ringDescOk (takeMail s fn mb) fn bs = ringDescOk s fn bs := by
  obtain ⟨-, hcomp, -, -⟩ := fnOf_takeMail_fields s fn mb
  rw [ringDescOk, ringDescOk, hcomp]
  rfl

/-- A message that puts its function with its mailboxes, and is acknowledged with DONE. -/
theorem Takes.acknowledged_putFn {s : State} {fn mb : Nat} {f : Function} (hmail : f.mail = (fnOf (takeMail s fn mb) fn).mail) (reply : List Word) :
    Acknowledged (mailOf s fn mb) 0 (mailOf (ackMail (putFn (takeMail s fn mb) fn f) fn mb 0 reply) fn mb) :=
  acknowledged_ackMail (mailOf_putFn hmail mb) 0 reply

/-- The ring that a descriptor describes to a function (R344, R420). -/
def describedRing (fn : Nat) (bs : List Byte) : Ring :=
  freshRing (if fn = 0 then leAt bs 2 1 else fn - 1) (leAt bs 3 1) (leAt bs 4 4) (leAt bs 8 8) (leAt bs 16 2)

/-- RING_CREATE makes a submission ring (R344, R420). -/
theorem Takes.ringCreate_sub {s : State} {fn mb : Nat} (h : Takes s fn mb) (htype : mailType (mailOf s fn mb).message = 0x01)
    (hattached : (fnOf s fn).attached = true) (hdesc : ringDescOk s fn (wordBytes (mailOf s fn mb).message 8) = true)
    (hkind : leAt (wordBytes (mailOf s fn mb).message 8) 0 1 = 0)
    (hnone : mget (fnOf s fn).sub (leAt (wordBytes (mailOf s fn mb).message 8) 1 1) = none) :
    let bs := wordBytes (mailOf s fn mb).message 8
    ∃ t, exec (.ringCreate fn mb []) s = .next t ∧ Acknowledged (mailOf s fn mb) 0 (mailOf t fn mb)
      ∧ mget (fnOf t fn).sub (leAt bs 1 1) = some (describedRing fn bs) := by
  intro bs
  obtain ⟨hsub, -, hatt, -⟩ := fnOf_takeMail_fields s fn mb
  have hact : actRingCreate fn (mailOf s fn mb).message (takeMail s fn mb) = ⟨putFn (takeMail s fn mb) fn
      { fnOf (takeMail s fn mb) fn with sub := mset (fnOf (takeMail s fn mb) fn).sub (leAt bs 1 1) (describedRing fn bs) }, 0, []⟩ := by
    unfold actRingCreate
    dsimp only
    rw [if_neg (by simp [hatt, hattached]), if_neg (by simp [ringDescOk_takeMail, hdesc]), if_pos hkind, if_neg (by simp [hsub, hnone])]
    rfl
  refine ⟨_, (if_pos h.ok).trans (congrArg Host.Outcome.next (h.mailRun htype (by decide) hact)), Takes.acknowledged_putFn (by rfl) [], ?_⟩
  rw [(fnOf_ackMail_fields _ _ _ _ _).1, (fnOf_putFn_fields _ _ _).1]
  exact mget_mset_same _ _ _

/-- RING_CREATE makes a completion ring (R344, R420). -/
theorem Takes.ringCreate_comp {s : State} {fn mb : Nat} (h : Takes s fn mb) (htype : mailType (mailOf s fn mb).message = 0x01)
    (hattached : (fnOf s fn).attached = true) (hdesc : ringDescOk s fn (wordBytes (mailOf s fn mb).message 8) = true)
    (hkind : leAt (wordBytes (mailOf s fn mb).message 8) 0 1 = 1)
    (hnone : mget (fnOf s fn).comp (leAt (wordBytes (mailOf s fn mb).message 8) 1 1) = none) :
    let bs := wordBytes (mailOf s fn mb).message 8
    ∃ t, exec (.ringCreate fn mb []) s = .next t ∧ Acknowledged (mailOf s fn mb) 0 (mailOf t fn mb)
      ∧ mget (fnOf t fn).comp (leAt bs 1 1) = some (describedRing fn bs) := by
  intro bs
  obtain ⟨-, hcomp, hatt, -⟩ := fnOf_takeMail_fields s fn mb
  have hact : actRingCreate fn (mailOf s fn mb).message (takeMail s fn mb) = ⟨putFn (takeMail s fn mb) fn
      { fnOf (takeMail s fn mb) fn with comp := mset (fnOf (takeMail s fn mb) fn).comp (leAt bs 1 1) (describedRing fn bs) }, 0, []⟩ := by
    unfold actRingCreate
    dsimp only
    rw [if_neg (by simp [hatt, hattached]), if_neg (by simp [ringDescOk_takeMail, hdesc]), if_neg (by omega), if_neg (by simp [hcomp, hnone])]
    rfl
  refine ⟨_, (if_pos h.ok).trans (congrArg Host.Outcome.next (h.mailRun htype (by decide) hact)), Takes.acknowledged_putFn (by rfl) [], ?_⟩
  rw [(fnOf_ackMail_fields _ _ _ _ _).2.1, (fnOf_putFn_fields _ _ _).2.1]
  exact mget_mset_same _ _ _

/-- RING_DESTROY removes a submission ring (R420). -/
theorem Takes.ringDestroy_sub {s : State} {fn mb ring : Nat} (h : Takes s fn mb) (htype : mailType (mailOf s fn mb).message = 0x02)
    (hring : bitsOf (wordAt (mailOf s fn mb).message 1) 11 8 = ring)
    (hword : wordAt (mailOf s fn mb).message 1 = wordAt (mailOf s fn mb).message 1 % 2 + 256 * ring)
    (hkind : wordAt (mailOf s fn mb).message 1 % 2 = 0) (hsome : mget (fnOf s fn).sub ring ≠ none) :
    ∃ t, exec (.ringDestroy fn mb []) s = .next t ∧ Acknowledged (mailOf s fn mb) 0 (mailOf t fn mb) ∧ mget (fnOf t fn).sub ring = none := by
  obtain ⟨hsub, -, -, -⟩ := fnOf_takeMail_fields s fn mb
  have hact : actRingDestroy fn (mailOf s fn mb).message (takeMail s fn mb) = ⟨putFn (takeMail s fn mb) fn
      { fnOf (takeMail s fn mb) fn with sub := mdel (fnOf (takeMail s fn mb) fn).sub ring }, 0, []⟩ := by
    unfold actRingDestroy
    dsimp only
    rw [hring, if_neg (by omega), if_pos hkind, if_neg (by simpa [hsub] using hsome)]
    rfl
  refine ⟨_, (if_pos h.ok).trans (congrArg Host.Outcome.next (h.mailRun htype (by decide) hact)), Takes.acknowledged_putFn (by rfl) [], ?_⟩
  rw [(fnOf_ackMail_fields _ _ _ _ _).1, (fnOf_putFn_fields _ _ _).1]
  exact mget_mdel_same _ _

/-- RING_DESTROY removes a completion ring that no active submission ring names (R420). -/
theorem Takes.ringDestroy_comp {s : State} {fn mb ring : Nat} (h : Takes s fn mb) (htype : mailType (mailOf s fn mb).message = 0x02)
    (hring : bitsOf (wordAt (mailOf s fn mb).message 1) 11 8 = ring)
    (hword : wordAt (mailOf s fn mb).message 1 = wordAt (mailOf s fn mb).message 1 % 2 + 256 * ring)
    (hkind : wordAt (mailOf s fn mb).message 1 % 2 = 1) (hsome : mget (fnOf s fn).comp ring ≠ none)
    (hfree : ∀ x ∈ (fnOf s fn).sub, x.2.completion ≠ ring ∨ x.2.fetchError = true) :
    ∃ t, exec (.ringDestroy fn mb []) s = .next t ∧ Acknowledged (mailOf s fn mb) 0 (mailOf t fn mb) ∧ mget (fnOf t fn).comp ring = none := by
  obtain ⟨hsub, hcomp, -, -⟩ := fnOf_takeMail_fields s fn mb
  have hheld : ((fnOf s fn).sub.any fun k => decide (k.2.completion = ring) && !k.2.fetchError) = false := by
    rw [List.any_eq_false]
    intro x hx
    rcases hfree x hx with hx | hx <;> simp [hx]
  have hact : actRingDestroy fn (mailOf s fn mb).message (takeMail s fn mb) = ⟨putFn (takeMail s fn mb) fn
      { fnOf (takeMail s fn mb) fn with comp := mdel (fnOf (takeMail s fn mb) fn).comp ring }, 0, []⟩ := by
    unfold actRingDestroy
    dsimp only
    rw [hring, if_neg (by omega), if_neg (by omega), if_neg (by simpa [hsub, hcomp, hheld] using hsome)]
    rfl
  refine ⟨_, (if_pos h.ok).trans (congrArg Host.Outcome.next (h.mailRun htype (by decide) hact)), Takes.acknowledged_putFn (by rfl) [], ?_⟩
  rw [(fnOf_ackMail_fields _ _ _ _ _).2.1, (fnOf_putFn_fields _ _ _).2.1]
  exact mget_mdel_same _ _

/-- ATTACH_BEGIN draws a challenge of 16 bytes for a VF (R421). -/
theorem Takes.attachBegin {s : State} {fn mb : Nat} (h : Takes s fn mb) (htype : mailType (mailOf s fn mb).message = 0x03) (hfn : fn ≠ 0) :
    ∃ t c, exec (.attachBegin fn mb []) s = .next t ∧ Acknowledged (mailOf s fn mb) 0 (mailOf t fn mb) ∧ (fnOf t fn).challenge = some c
      ∧ c.length = 16 := by
  let u := (drawBytes (takeMail s fn mb) 16).2
  let c := (drawBytes (takeMail s fn mb) 16).1
  let v := putFn u fn { fnOf u fn with challenge := some c }
  have hact : actAttachBegin fn (mailOf s fn mb).message (takeMail s fn mb)
      = ⟨v, 0, (List.range 4).map fun k => BitVec.ofNat 32 (leAt c (4 * k) 4)⟩ := if_neg hfn
  have hmail : mailOf v fn mb = mailOf (takeMail s fn mb) fn mb :=
    mailOf_putFn (s := u) (f := { fnOf u fn with challenge := some c }) rfl mb
  refine ⟨_, c, (if_pos h.ok).trans (congrArg Host.Outcome.next (h.mailRun htype (by decide) hact)), acknowledged_ackMail hmail 0 _, ?_, ?_⟩
  · rw [(fnOf_ackMail_fields _ _ _ _ _).2.2.2, (fnOf_putFn_fields _ _ _).2.2]
  · simp only [c, drawBytes, padTo, List.length_append, List.length_take, List.length_replicate]
    omega

/-- ATTACH with the right response attaches the VF (R421). -/
theorem Takes.attach_right {s : State} {fn mb : Nat} (h : Takes s fn mb) (htype : mailType (mailOf s fn mb).message = 0x04) {c : List Byte}
    (hchallenge : (fnOf s fn).challenge = some c) (hresponse : wordBytes (mailOf s fn mb).message 4 = attachResponse s (fn - 1) c) :
    ∃ t, exec (.attach fn mb []) s = .next t ∧ Acknowledged (mailOf s fn mb) 0 (mailOf t fn mb) ∧ (fnOf t fn).attached = true := by
  obtain ⟨-, -, -, hch⟩ := fnOf_takeMail_fields s fn mb
  have hact : actAttach fn mb (mailOf s fn mb).message (takeMail s fn mb)
      = ⟨putFn (takeMail s fn mb) fn { fnOf (takeMail s fn mb) fn with attached := true }, 0, []⟩ := by
    unfold actAttach
    dsimp only
    rw [hch, hchallenge]
    exact if_pos hresponse
  refine ⟨_, (if_pos h.ok).trans (congrArg Host.Outcome.next (h.mailRun htype (by decide) hact)), Takes.acknowledged_putFn (by rfl) [], ?_⟩
  rw [(fnOf_ackMail_fields _ _ _ _ _).2.2.1, fnOf_putFn_same]
  split <;> rfl

/-- A function whose challenge is gone, with the rest of it as it was. -/
theorem fnOf_discard (s : State) (fn : Nat) :
    (fnOf (putFn s fn { fnOf s fn with challenge := none }) fn).challenge = none
      ∧ (fnOf (putFn s fn { fnOf s fn with challenge := none }) fn).attached = (fnOf s fn).attached := by
  rw [fnOf_putFn_same]
  split
  · next h => simp [fnOf, h]
  · exact ⟨rfl, rfl⟩

/-- ATTACH with another response fails: a record is written and no challenge is left (R421). -/
theorem actAttach_wrong {s : State} {fn mb : Nat} {msg : List Word}
    (h : ∀ c, (fnOf s fn).challenge = some c → wordBytes msg 4 ≠ attachResponse s (fn - 1) c) :
    ∃ t, actAttach fn mb msg s = ⟨t, 0x41, []⟩ ∧ mailOf t fn mb = mailOf s fn mb ∧ (fnOf t fn).challenge = none
      ∧ (fnOf t fn).attached = (fnOf s fn).attached ∧ t.ev.written = (s.ev.written + 1) % 2 ^ 32 := by
  have hkept (t : State) := writeEvent_functionsKept t (srcFn fn mb) 0x07 0x0D05 (fnPitch fn) (hostDetail fn mb 0 0 0)
  cases hc : (fnOf s fn).challenge with
  | none =>
    refine ⟨_, by unfold actAttach; dsimp only; rw [hc]; rfl, (hkept s).mailOf_eq fn mb, ?_, ?_, (writeEvent_log _ _ _ _ _ _).2.1⟩
    · rw [hkept s fn]
      exact hc
    · rw [hkept s fn]
  | some c =>
    let u := putFn s fn { fnOf s fn with challenge := none }
    obtain ⟨hchallenge, hattached⟩ := fnOf_discard s fn
    refine ⟨_, by unfold actAttach; dsimp only; rw [hc]; exact if_neg (h c hc), ((hkept u).mailOf_eq fn mb).trans (mailOf_putFn (by rfl) mb), ?_, ?_,
      (writeEvent_log _ _ _ _ _ _).2.1⟩
    · rw [hkept u fn]
      exact hchallenge
    · rw [hkept u fn]
      exact hattached

/-- ATTACH with another response is acknowledged with AUTH_FAIL (R421). -/
theorem Takes.attach_wrong {s : State} {fn mb : Nat} (h : Takes s fn mb) (htype : mailType (mailOf s fn mb).message = 0x04)
    (hresponse : ∀ c, (fnOf s fn).challenge = some c → wordBytes (mailOf s fn mb).message 4 ≠ attachResponse s (fn - 1) c) :
    ∃ t, exec (.attach fn mb []) s = .next t ∧ Acknowledged (mailOf s fn mb) 0x41 (mailOf t fn mb) ∧ (fnOf t fn).challenge = none
      ∧ (fnOf t fn).attached = (fnOf s fn).attached ∧ t.ev.written = (s.ev.written + 1) % 2 ^ 32 := by
  obtain ⟨-, -, hatt, hch⟩ := fnOf_takeMail_fields s fn mb
  have htaken : ∀ c, (fnOf (takeMail s fn mb) fn).challenge = some c →
      wordBytes (mailOf s fn mb).message 4 ≠ attachResponse (takeMail s fn mb) (fn - 1) c := fun c hc => hresponse c (hch ▸ hc)
  obtain ⟨t, hact, hmail, hchallenge, hattached, hwritten⟩ := actAttach_wrong (mb := mb) htaken
  obtain ⟨-, -, hatt2, hch2⟩ := fnOf_ackMail_fields t fn mb 0x41 []
  refine ⟨_, (if_pos h.ok).trans (congrArg Host.Outcome.next (h.mailRun htype (by decide) hact)), acknowledged_ackMail hmail _ _, ?_, ?_, ?_⟩
  · rw [hch2, hchallenge]
  · rw [hatt2, hattached, hatt]
  · simpa using hwritten

/-- Settles O40: a post is `mailWrite_posts`; each message is taken, acted on and acknowledged (`Takes.mailRun`). -/
theorem mailboxesCarryMessages : Obligations.MailboxesCarryMessages := by
  refine ⟨fun s fn mb hok hreach => ⟨fun words w hw => ?_, fun value hvalue => ?_⟩, fun s fn mb hok hreach hphase hposted hbar hconfig => ?_⟩
  · refine ⟨_, if_pos hok, ?_⟩
    rw [mailOf_mailWrite hreach hw]
    refine ⟨rfl, rfl, by cases h : (mailOf s fn mb).state <;> simp [postedMail, statePosted, h], fun h => ?_, fun h => ?_⟩
    · rcases h with h | h <;> simp [postedMail, h]
    · rw [mailWrite_posts hreach hw, if_neg (by rcases h with h | h <;> simp [h])]
      exact putMail_hostOnly _ _ _ _
  · exact ⟨_, (if_pos hok).trans (if_pos ⟨hreach, hvalue⟩), mailOf_putMail _ _ _ _, putMail_hostOnly _ _ _ _⟩
  · have h : Takes s fn mb := ⟨hok, hreach, hphase, hposted, hbar, hconfig⟩
    refine ⟨fun htype hattached hdesc => ⟨h.ringCreate_sub htype hattached hdesc, h.ringCreate_comp htype hattached hdesc⟩,
      fun htype hword => ⟨h.ringDestroy_sub htype rfl hword, h.ringDestroy_comp htype rfl hword⟩, h.attachBegin,
      fun htype _ c hc hresponse => h.attach_right htype hc hresponse, fun htype hresponse => ?_⟩
    obtain ⟨t, hexec, ⟨hstate, hcode, -, -⟩, hrest⟩ := h.attach_wrong htype hresponse
    exact ⟨t, hexec, hstate, hcode, hrest⟩

end Sys2Proof.Machine
end

section
/-! SUPPORT. What the egress of the fabric leaves of the links and of the packets that wait (R387 to R392, R399): a link keeps what it has received,
outputs are only added, and a packet that stops waiting has had its first flit sent. -/

namespace Sys2Proof.Machine

/-- A link without what sending changes in it: its next seq, its credits, those that it owes, and its retry buffer. -/
def sentApart (k : Link) : Link := { k with txSeq := 0, credits := [], owed := [], retry := [] }

/-- Links that differ in the sending side alone have received the same. -/
theorem received_of_sentApart {a b : Link} (h : sentApart a = sentApart b) :
    a.state = b.state ∧ a.rxSeq = b.rxSeq ∧ a.acked = b.acked ∧ a.discarding = b.discarding ∧ a.sameAck = b.sameAck ∧ a.inbox = b.inbox := by
  simp only [sentApart, Link.mk.injEq] at h
  obtain ⟨hstate, -, hrx, hack, -, -, -, hdisc, hsame, -, -, hinbox, -⟩ := h
  exact ⟨hstate, hrx, hack, hdisc, hsame, hinbox⟩

/-- A packet waits at its port, or its first flit is among the outputs. -/
def WaitsOrSent (t : State) (out : List Output) (q : Nat × List Byte) : Prop :=
  q ∈ t.fab.waiting ∨ ∃ l f, Output.frame l f ∈ out ∧ f.payload = q.2.take 256

/-- From `s` to `t` the fabric has sent: nothing but it and the outputs changes, and of it no link's received side, no arrived message and no transfer. -/
structure Egress (s t : State) : Prop where
  frame : t = { s with fab := t.fab, out := t.out }
  links : ∀ j, (linkAt t j).map sentApart = (linkAt s j).map sentApart
  mgmtIn : t.fab.mgmtIn = s.fab.mgmtIn
  unsent : ∀ n, mget s.fab.sends n = none → mget t.fab.sends n = none
  out : ∃ post, t.out = s.out ++ post ∧ ∀ q ∈ s.fab.waiting, q.2 ≠ [] → WaitsOrSent t post q

/-- The received side of a link is the same. -/
theorem Egress.link {s t : State} (h : Egress s t) {l : Nat} {k : Link} (hk : linkAt s l = some k) :
    ∃ k2, linkAt t l = some k2 ∧ sentApart k2 = sentApart k := by
  have hl := h.links l
  rw [hk, Option.map_some] at hl
  exact Option.map_eq_some_iff.1 hl

/-- A state that differs in links whose received side is the same has sent nothing. -/
theorem Egress.of_links {s t : State} (hframe : t = { s with fab := { s.fab with links := t.fab.links } })
    (hlinks : ∀ j, (linkAt t j).map sentApart = (linkAt s j).map sentApart) : Egress s t := by
  have hfab : t.fab = { s.fab with links := t.fab.links } := congrArg State.fab hframe
  have hout : t.out = s.out := by rw [hframe]
  refine ⟨hframe.trans ?_, hlinks, by rw [hfab], fun n hn => by rwa [hfab], [], by rw [hout, List.append_nil], fun q hq _ => .inl (by rwa [hfab])⟩
  rw [hout, ← hfab]

theorem Egress.refl (s : State) : Egress s s := .of_links rfl fun _ => rfl

theorem Egress.trans {s t u : State} (h₁ : Egress s t) (h₂ : Egress t u) : Egress s u := by
  obtain ⟨post₁, hout₁, hwait₁⟩ := h₁.out
  obtain ⟨post₂, hout₂, hwait₂⟩ := h₂.out
  refine ⟨Eq.trans h₂.frame (congrArg (fun x : State => { x with fab := u.fab, out := u.out }) h₁.frame), fun j => (h₂.links j).trans (h₁.links j),
    h₂.mgmtIn.trans h₁.mgmtIn, fun n hn => h₂.unsent n (h₁.unsent n hn), post₁ ++ post₂, by rw [hout₂, hout₁, List.append_assoc], fun q hq hne => ?_⟩
  rcases hwait₁ q hq hne with hw | ⟨l, f, hf, hp⟩
  · rcases hwait₂ q hw hne with hw | ⟨l, f, hf, hp⟩
    · exact .inl hw
    · exact .inr ⟨l, f, List.mem_append_right _ hf, hp⟩
  · exact .inr ⟨l, f, List.mem_append_left _ hf, hp⟩

/-- A packet that waited in `s` is one that is sent again, whatever `s` is (R397, R398). -/
theorem Egress.sentAgain {s t : State} (h : Egress s t) {port : Nat} {p : List Byte} (hp : (port, p) ∈ s.fab.waiting) (hne : p ≠ []) :
    SentAgain s t port p := by
  obtain ⟨post, hout, hwait⟩ := h.out
  have hdrop : t.out.drop s.out.length = post := by rw [hout, List.drop_left]
  rw [SentAgain, hdrop]
  exact hwait (port, p) hp hne

/-! ### Frames -/

/-- Putting a link whose received side is that of the link before leaves every link's received side. -/
theorem map_linkAt_putLink {s : State} {l : Nat} {k k1 : Link} (hk : linkAt s l = some k) (h : sentApart k1 = sentApart k) (j : Nat) :
    (linkAt (putLink s l k1) j).map sentApart = (linkAt s j).map sentApart := by
  by_cases hj : j = l
  · rw [hj, linkAt_putLink_same hk, hk, Option.map_some, Option.map_some, h]
  · rw [linkAt_putLink_ne _ _ hj]

theorem send_putLink_egress {s : State} {l : Nat} {k k1 : Link} (hk : linkAt s l = some k) (h : sentApart k1 = sentApart k) (o : Output) :
    Egress s (send (putLink s l k1) o) :=
  ⟨rfl, map_linkAt_putLink hk h, rfl, fun _ hn => hn, [o], rfl, fun _ hq _ => .inl hq⟩

theorem sendPlain_egress (s : State) (l type : Nat) (payload : List Byte) : Egress s (sendPlain s l type payload) := by
  unfold sendPlain
  split
  · exact .refl s
  · next k hk =>
    exact send_putLink_egress (k1 := { k with owed := lmod k.owed (creditsToReturn k.owed).1 (· - (creditsToReturn k.owed).2) }) hk rfl _

theorem sendIdle_egress (s : State) (l : Nat) : Egress s (sendIdle s l) := sendPlain_egress s l 0 _

/-- A data frame with its payload goes out over a link that is there. -/
theorem sendData_sends {s : State} {l : Nat} {k : Link} (hk : linkAt s l = some k) (vc : Nat) (first : Bool) (payload : List Byte) :
    ∃ k1 f, sendData s l vc first payload = send (putLink s l k1) (.frame l f) ∧ sentApart k1 = sentApart k ∧ f.payload = payload := by
  unfold sendData
  rw [hk]
  exact ⟨_, _, rfl, rfl, rfl⟩

theorem sendData_egress (s : State) (l vc : Nat) (first : Bool) (payload : List Byte) : Egress s (sendData s l vc first payload) := by
  cases hk : linkAt s l with
  | none =>
    rw [sendData, hk]
    exact .refl s
  | some k =>
    obtain ⟨k1, f, hsend, h1, -⟩ := sendData_sends hk vc first payload
    rw [hsend]
    exact send_putLink_egress hk h1 _

/-! ### Grants and flits -/

/-- The grant slot moves on, and the owner's turn is over. -/
def granted (s : State) (y : Live) (i : Nat) : State :=
  { s with fab := { s.fab with grant := (i + 1) % 1000, turn := if isSealed s y.owner then s.fab.turn else y.owner } }

theorem granted_egress (s : State) (y : Live) (i : Nat) : Egress s (granted s y i) :=
  ⟨rfl, fun _ => rfl, rfl, fun _ hn => hn, [], (List.append_nil _).symm, fun _ hq _ => .inl hq⟩

theorem sendFlit_egress (s : State) (y : Live) (i : Nat) : Egress s (sendFlit s y i) := by
  unfold sendFlit
  dsimp only
  split
  · exact granted_egress s y i
  · exact (granted_egress s y i).trans (sendData_egress _ _ _ _ _)

theorem noteSent_links (s : State) (pkt : List Byte) (j : Nat) : linkAt (noteSent s pkt) j = linkAt s j := by
  unfold noteSent
  split
  · split <;> rfl
  · rfl

theorem noteSent_unsent (s : State) (pkt : List Byte) {n : Nat} (h : mget s.fab.sends n = none) : mget (noteSent s pkt).fab.sends n = none := by
  unfold noteSent
  split
  · split
    · exact h
    · next x hx =>
      have hne : n ≠ leAt pkt 12 4 := by
        rintro rfl
        exact absurd (hx.symm.trans h) (Option.some_ne_none x)
      exact (mget_mset_ne _ _ hne).trans h
  · exact h

theorem noteSent_rest (s : State) (pkt : List Byte) :
    noteSent s pkt = { s with fab := { s.fab with sends := (noteSent s pkt).fab.sends } } := by
  unfold noteSent
  split
  · split <;> rfl
  · rfl

/-- A packet that starts leaves the queue of its port, and every other waits on. -/
theorem startPacket_fst_waiting (s : State) (x : Startable) : (startPacket s x).1.fab.waiting = s.fab.waiting.erase (x.port, x.pkt) := by
  rw [startPacket, noteSent_rest]

theorem flitsOf_head {p : List Byte} (h : p ≠ []) (n : Nat) : flitsOf (n + 1) p = p.take 256 :: flitsOf n (p.drop 256) := if_neg h

/-- A packet that starts on a link that is there has its first flit sent at once. -/
theorem startPacket_sendFlit_egress {s : State} {x : Startable} {k : Link} (hk : linkAt s x.link = some k) (i : Nat) :
    Egress s (sendFlit (startPacket s x).1 (startPacket s x).2 i) := by
  have hlinks : ∀ j, linkAt (startPacket s x).1 j = linkAt s j := fun j => noteSent_links _ _ _
  have hsent := sendFlit_egress (startPacket s x).1 (startPacket s x).2 i
  have hstart : (startPacket s x).1 = { s with fab := (startPacket s x).1.fab } := by
    rw [startPacket, noteSent_rest]
  obtain ⟨post, hout, hwait⟩ := hsent.out
  have hout0 : (startPacket s x).1.out = s.out := by rw [hstart]
  refine ⟨Eq.trans hsent.frame (congrArg (fun y : State => { y with
      fab := (sendFlit (startPacket s x).1 (startPacket s x).2 i).fab, out := (sendFlit (startPacket s x).1 (startPacket s x).2 i).out }) hstart),
    fun j => (hsent.links j).trans (by rw [hlinks]), hsent.mgmtIn.trans (by rw [startPacket, noteSent_rest]),
    fun n hn => hsent.unsent n (noteSent_unsent _ _ hn), post, by rw [hout, hout0], fun q hq hne => ?_⟩
  by_cases hx : q = (x.port, x.pkt)
  · subst hx
    have hk' : linkAt (granted (startPacket s x).1 (startPacket s x).2 i) x.link = some k := (hlinks x.link).trans hk
    obtain ⟨k1, f, hf, -, hp⟩ := sendData_sends hk' (packetVc x.pkt) true (x.pkt.take 256)
    have hflit : sendFlit (startPacket s x).1 (startPacket s x).2 i
        = sendData (granted (startPacket s x).1 (startPacket s x).2 i) x.link (packetVc x.pkt) true (x.pkt.take 256) := by
      have hleft : (startPacket s x).2.left = x.pkt.take 256 :: flitsOf 15 (x.pkt.drop 256) := flitsOf_head hne 15
      rw [sendFlit, hleft]
      rfl
    have hpost : post = [.frame x.link f] := by
      rw [hflit, hf] at hout
      exact List.append_cancel_left (hout.symm.trans (by rfl))
    exact .inr ⟨x.link, f, by rw [hpost]; exact List.mem_singleton_self _, hp⟩
  · exact hwait q (by rw [startPacket_fst_waiting]; exact (List.mem_erase_of_ne hx).2 hq) hne

/-! ### The packets that can start -/

/-- The best of a list is one of the list, or the best so far. -/
theorem foldl_best_mem (f : Nat → Nat) (l : List Nat) (best : Option Nat) {b : Nat}
    (h : l.foldl (fun (best : Option Nat) x => match best with
      | none => some x
      | some b => if f b < f x then some x else some b) best = some b) : b ∈ l ∨ best = some b := by
  induction l generalizing best with
  | nil => exact .inr h
  | cons a l ih =>
    rw [List.foldl_cons] at h
    rcases ih _ h with hb | hb
    · exact .inl (List.mem_cons_of_mem _ hb)
    · cases best with
      | none =>
        obtain rfl := Option.some.inj hb
        exact .inl List.mem_cons_self
      | some c =>
        dsimp only at hb
        split at hb
        · obtain rfl := Option.some.inj hb
          exact .inl List.mem_cons_self
        · exact .inr hb

/-- A packet takes a link that is there. -/
theorem startLink_linkAt {s : State} {busy : List Nat} {port vc flits l : Nat} (h : startLink s busy port vc flits = some l) :
    ∃ k, linkAt s l = some k := by
  rcases foldl_best_mem _ _ _ h with hl | hl
  · have hworks := (List.mem_filter.1 (List.mem_filter.1 hl).1).2
    cases hk : linkAt s l with
    | none => simp [hk] at hworks
    | some k => exact ⟨k, rfl⟩
  · exact nomatch hl

theorem startable_linkAt {s : State} {busy : List Nat} {ws : List (Nat × List Byte)} {seen : List (Nat × Nat × Nat)} {x : Startable}
    (h : x ∈ startable s busy ws seen) : ∃ k, linkAt s x.link = some k := by
  induction ws generalizing seen with
  | nil => exact absurd h List.not_mem_nil
  | cons w ws ih =>
    rw [startable] at h
    split at h
    · exact ih h
    · split at h
      · exact ih h
      · next l hl =>
        rcases List.mem_cons.1 h with rfl | h
        · exact startLink_linkAt hl
        · exact ih h

/-- The packet that a grant's owner sends is on its way, or starts on a link that is there. -/
theorem flitOf_sendFlit_egress {s s1 : State} {live : List Live} {busy : List Nat} {ws : List (Nat × List Byte)} {seen : List (Nat × Nat × Nat)}
    {p : Nat} {y : Live} (h : flitOf s live (startable s busy ws seen) p = some (s1, y)) (i : Nat) : Egress s (sendFlit s1 y i) := by
  unfold flitOf at h
  split at h
  · obtain ⟨rfl, rfl⟩ := Prod.mk.inj (Option.some.inj h)
    exact sendFlit_egress _ _ _
  · obtain ⟨x, hfind, hx⟩ := Option.map_eq_some_iff.1 h
    obtain ⟨k, hk⟩ := startable_linkAt (List.mem_of_find?_eq_some hfind)
    obtain ⟨rfl, rfl⟩ := Prod.mk.inj hx
    exact startPacket_sendFlit_egress hk i

theorem pumpN_egress (n : Nat) (live : List Live) (s : State) : Egress s (pumpN n live s) := by
  induction n generalizing live s with
  | zero => exact .refl s
  | succ n ih =>
    unfold pumpN
    dsimp only
    split
    · exact .refl s
    · split
      · exact .refl s
      · next hflit => exact (flitOf_sendFlit_egress hflit _).trans (ih _ _)

theorem pump_egress (s : State) : Egress s (pump s) := pumpN_egress _ _ s

/-- Where no packet waits, nothing starts. -/
theorem pump_of_waiting_nil {s : State} (h : s.fab.waiting = []) : pump s = s := by
  rw [pump, waitingFlits, h]
  rfl

end Sys2Proof.Machine
end

section
/-! PROOF. O43: frames on a working link are accepted in order or asked for again (R390 to R393). -/

namespace Sys2Proof.Machine

/-! ### Outputs and events -/

theorem eventOnce_out_subset {write : State → State} (hw : ∀ t, t.out ⊆ (write t).out) (s : State) (code unit : Nat) :
    s.out ⊆ (eventOnce s code unit write).out := by
  unfold eventOnce
  dsimp only
  split
  · exact List.Subset.refl _
  · refine List.Subset.trans ?_ (hw _)
    exact List.Subset.refl _

theorem linkEvent_out_subset (s : State) (l code peer attempt : Nat) : s.out ⊆ (linkEvent s l code peer attempt).out := by
  unfold linkEvent rangerEvent
  refine List.Subset.trans ?_ (writeEvent_out_subset _ _ _ _ _ _)
  exact List.Subset.refl _

/-- The record of a retry leaves the fabric, the memory and the pitches, and takes no output away. -/
theorem flitRetry_spec (s : State) (l : Nat) :
    (flitRetry s l).fab = s.fab ∧ (flitRetry s l).mem = s.mem ∧ (flitRetry s l).pitches = s.pitches ∧ s.out ⊆ (flitRetry s l).out := by
  unfold flitRetry
  exact ⟨eventOnce_field (·.fab) (fun _ _ => rfl) (fun _ => by simp) s _ _, eventOnce_field (·.mem) (fun _ _ => rfl) (fun _ => by simp) s _ _,
    eventOnce_field (·.pitches) (fun _ _ => rfl) (fun _ => by simp) s _ _, eventOnce_out_subset (fun _ => linkEvent_out_subset _ _ _ _ _) s _ _⟩

theorem flitRetry_linkAt (s : State) (l j : Nat) : linkAt (flitRetry s l) j = linkAt s j := by
  rw [linkAt, (flitRetry_spec s l).1, linkAt]

theorem pump_mem (s : State) : (pump s).mem = s.mem := by simp

theorem pump_pitches (s : State) : (pump s).pitches = s.pitches := by simp

/-- A frame without data carries the ack of the link over which it goes (R390). -/
theorem sendPlain_sends {s : State} {l type : Nat} {k : Link} (hk : linkAt s l = some k) (htype : type < 16) (payload : List Byte) :
    ∃ k1 f, sendPlain s l type payload = send (putLink s l k1) (.frame l f) ∧ sentApart k1 = sentApart k ∧ f.payload = payload ∧ frType f = type
      ∧ frAck f = (k.rxSeq + 4095) % 4096 := by
  obtain ⟨hv, hn⟩ : (creditsToReturn k.owed).1 < 8 ∧ (creditsToReturn k.owed).2 < 32 := by
    unfold creditsToReturn
    split
    · exact ⟨by decide, by decide⟩
    · next v hfind =>
      have hv := List.mem_range.1 (List.mem_of_find?_eq_some hfind)
      exact ⟨by dsimp only; omega, by dsimp only; omega⟩
  obtain ⟨hftype, -, -, hfack, -, -⟩ := fields_makeFrame type 0 false 0 (seqBefore k.rxSeq) (creditsToReturn k.owed).1 (creditsToReturn k.owed).2
    payload htype (by decide) (by decide) (Nat.mod_lt _ (by decide)) hv hn
  refine ⟨{ k with owed := lmod k.owed (creditsToReturn k.owed).1 (· - (creditsToReturn k.owed).2) },
    makeFrame type 0 false 0 (seqBefore k.rxSeq) (creditsToReturn k.owed).1 (creditsToReturn k.owed).2 payload, ?_, rfl, rfl, hftype, hfack⟩
  rw [sendPlain, hk]

/-! ### Taking control fields (R390, R391) -/

/-- Taking the ack and the credits of a frame changes the sending side alone, and the ack. -/
theorem takeControl_received (k : Link) (f : Frame) :
    takeControl k f = { k with acked := (takeControl k f).acked, credits := (takeControl k f).credits, retry := (takeControl k f).retry } := by
  unfold takeControl takeCredits takeAck
  dsimp only
  split <;> rfl

@[simp] theorem takeControl_rxSeq (k : Link) (f : Frame) : (takeControl k f).rxSeq = k.rxSeq := by
  rw [takeControl_received]

@[simp] theorem takeControl_state (k : Link) (f : Frame) : (takeControl k f).state = k.state := by
  rw [takeControl_received]

theorem completePacket_received (k : Link) (vc : Nat) (pkt : List Byte) :
    (completePacket k vc pkt).rxSeq = k.rxSeq ∧ (completePacket k vc pkt).discarding = k.discarding := by
  unfold completePacket
  dsimp only
  split <;> exact ⟨rfl, rfl⟩

/-- A data frame in order moves the expected seq on, and ends a discard (R392). -/
theorem acceptFlit_received (k : Link) (f : Frame) : (acceptFlit k f).rxSeq = (k.rxSeq + 1) % 4096 ∧ (acceptFlit k f).discarding = false := by
  obtain ⟨hrx, hdisc⟩ : (takeControl { k with rxSeq := (k.rxSeq + 1) % 4096, discarding := false } f).rxSeq = (k.rxSeq + 1) % 4096
      ∧ (takeControl { k with rxSeq := (k.rxSeq + 1) % 4096, discarding := false } f).discarding = false := by
    rw [takeControl_received]
    exact ⟨rfl, rfl⟩
  unfold acceptFlit
  extract_lets k1 pkt n
  split
  · exact ⟨hrx, hdisc⟩
  · split
    · exact ⟨hrx, hdisc⟩
    · split
      · obtain ⟨h1, h2⟩ := completePacket_received k1 (frVc f) pkt
        exact ⟨h1.trans hrx, h2.trans hdisc⟩
      · exact ⟨hrx, hdisc⟩

/-! ### Rows -/

section
variable {s : State} {l : Nat} {f : Frame} {k : Link} (hl : l < 24) (hk : linkAt s l = some k) (hup : k.state = .up)
include hl hk hup

theorem flitData_inOrder (hok : frameOk f = true) (htype : frType f = 1) (hvc : frVc f < 3) (hseq : frSeq f = k.rxSeq) :
    ∃ t k2, exec (.flitData l f) s = .next t ∧ linkAt t l = some k2 ∧ k2.rxSeq = (k.rxSeq + 1) % 4096 ∧ k2.discarding = false ∧ t.mem = s.mem
      ∧ t.pitches = s.pitches := by
  have hdo : doFlitData s l f = pump (sendIdle (putLink s l (acceptFlit k f)) l) := by
    unfold doFlitData
    rw [hk]
    dsimp only
    rw [if_neg (by simp [hup]), if_neg (by simp [htype]), if_pos ⟨hok, htype, hvc⟩, if_pos hseq]
  obtain ⟨k2, hk2, hrest⟩ := ((sendIdle_egress (putLink s l (acceptFlit k f)) l).trans (pump_egress _)).link (linkAt_putLink_same hk _)
  obtain ⟨hrx, hdisc⟩ := acceptFlit_received k f
  obtain ⟨-, hrx2, -, hdisc2, -, -⟩ := received_of_sentApart hrest
  exact ⟨_, k2, (if_pos (by simpa [linkOk] using hl)).trans (congrArg Host.Outcome.next hdo), hk2, hrx2.trans hrx, hdisc2.trans hdisc,
    by simp, by simp⟩

omit hl hup in
/-- A frame that is not taken leaves its link discarding, and a retry request with the link's ack goes out (R392). -/
theorem refuseFrame_spec :
    ∃ k2 g, linkAt (refuseFrame s l k) l = some k2 ∧ k2.rxSeq = k.rxSeq ∧ k2.discarding = true ∧ Output.frame l g ∈ (refuseFrame s l k).out
      ∧ frType g = 2 ∧ frAck g = (k.rxSeq + 4095) % 4096 ∧ (refuseFrame s l k).mem = s.mem ∧ (refuseFrame s l k).pitches = s.pitches := by
  have hk1 := linkAt_putLink_same hk { k with discarding := true }
  obtain ⟨k2, g, hsend, hrest, -, htype, hack⟩ := sendPlain_sends hk1 (type := 2) (by decide) zeroPayload
  have hu : refuseFrame s l k = flitRetry (send (putLink (putLink s l { k with discarding := true }) l k2) (.frame l g)) l := by
    rw [refuseFrame, sendRetry, hsend]
  obtain ⟨-, hmem, hpitches, hout⟩ := flitRetry_spec (send (putLink (putLink s l { k with discarding := true }) l k2) (.frame l g)) l
  obtain ⟨-, hrx, -, hdisc, -, -⟩ := received_of_sentApart hrest
  rw [hu]
  refine ⟨k2, g, ?_, hrx, hdisc, ?_, htype, hack, hmem, hpitches⟩
  · rw [flitRetry_linkAt]
    exact linkAt_putLink_same hk1 k2
  · exact hout (List.mem_append_right _ (List.mem_singleton_self _))

theorem flitData_refused (h : frameOk f = false ∨ 3 < frType f ∨ (frType f = 1 ∧ 3 ≤ frVc f)
      ∨ (frType f = 1 ∧ frVc f < 3 ∧ frSeq f ≠ k.rxSeq ∧ k.discarding = false)) :
    exec (.flitData l f) s = .next (refuseFrame s l k) := by
  have hdo : doFlitData s l f = refuseFrame s l k := by
    unfold doFlitData
    rw [hk]
    dsimp only
    rw [if_neg (by simp [hup])]
    rcases h with hbad | htype | ⟨htype, hvc⟩ | ⟨htype, hvc, hseq, hdisc⟩
    · rw [if_neg (by simp [hbad]), if_neg (by simp [hbad])]
    · rw [if_neg (by omega), if_neg (by omega)]
    · rw [if_neg (by omega), if_neg (by omega)]
    · rw [if_neg (by omega)]
      split
      · rw [if_neg (by simp [hdisc])]
      · rfl
  exact (if_pos (by simpa [linkOk] using hl)).trans (congrArg Host.Outcome.next hdo)

theorem flitIdle_taken (hok : frameOk f = true) (htype : frType f = 0) :
    ∃ t k2, exec (.flitIdle l f) s = .next t ∧ linkAt t l = some k2 ∧ k2.rxSeq = k.rxSeq ∧ k2.acked = (takeAck k (frAck f)).acked
      ∧ (s.fab.waiting = [] → t = putLink s l (takeCredits (takeAck k (frAck f)) (frCreditVc f) (frCredits f))) ∧ t.mem = s.mem
      ∧ t.pitches = s.pitches := by
  have hdo : doFlitIdle s l f = pump (putLink s l (takeControl k f)) := by
    unfold doFlitIdle
    rw [hk]
    exact if_pos ⟨hup, hok, htype⟩
  obtain ⟨k2, hk2, hrest⟩ := (pump_egress (putLink s l (takeControl k f))).link (linkAt_putLink_same hk _)
  obtain ⟨-, hrx, hack, -, -, -⟩ := received_of_sentApart hrest
  exact ⟨_, k2, (if_pos (by simpa [linkOk] using hl)).trans (congrArg Host.Outcome.next hdo), hk2,
    hrx.trans (takeControl_rxSeq k f), hack, fun hnone => pump_of_waiting_nil hnone, by simp, by simp⟩

end

theorem resendFrames_eq (l : Nat) (fs : List Frame) (s : State) : resendFrames l fs s = { s with out := s.out ++ fs.map (Output.frame l) } := by
  induction fs generalizing s with
  | nil => simp [resendFrames]
  | cons f fs ih => simp [resendFrames, ih, send]

/-- A link after a retry request (R393). -/
def retriedLink (k : Link) (f : Frame) : Link :=
  { takeControl k f with lastRetryAck := some (frAck f), sameAck := if k.lastRetryAck = some (frAck f) then k.sameAck + 1 else 1 }

theorem retryRequest_answered {s : State} {l : Nat} {f : Frame} {k : Link} (hl : l < 24) (hk : linkAt s l = some k) (hup : k.state = .up)
    (hok : frameOk f = true) (htype : frType f = 2) :
    let n := if k.lastRetryAck = some (frAck f) then k.sameAck + 1 else 1
    let k1 := takeControl k f
    ∃ t k2, exec (.retryRequest l f) s = .next t ∧ linkAt t l = some k2 ∧ k2.rxSeq = k.rxSeq ∧ k2.acked = k1.acked ∧ k2.sameAck = n
      ∧ (n < 8 → ∃ pre post, t.out = pre ++ (k1.retry.drop (k1.retry.length - outstanding k1)).map (Output.frame l) ++ post)
      ∧ t.mem = s.mem ∧ t.pitches = s.pitches := by
  intro n k1
  let u := flitRetry (putLink s l (retriedLink k f)) l
  let again := k1.retry.drop (k1.retry.length - outstanding k1)
  have hdo : doRetryRequest s l f = if 8 ≤ n then u else pump (resendFrames l again u) := by
    unfold doRetryRequest
    rw [hk]
    exact if_pos ⟨hup, hok, htype⟩
  have hrow : exec (.retryRequest l f) s = .next (if 8 ≤ n then u else pump (resendFrames l again u)) :=
    (if_pos (by simpa [linkOk] using hl)).trans (congrArg Host.Outcome.next hdo)
  obtain ⟨-, hmem, hpitches, -⟩ := flitRetry_spec (putLink s l (retriedLink k f)) l
  have hku : linkAt u l = some (retriedLink k f) := by
    rw [flitRetry_linkAt]
    exact linkAt_putLink_same hk _
  have hrx : (retriedLink k f).rxSeq = k.rxSeq := takeControl_rxSeq k f
  by_cases h8 : 8 ≤ n
  · rw [if_pos h8] at hrow
    exact ⟨u, _, hrow, hku, hrx, rfl, rfl, fun hlt => absurd h8 (Nat.not_le.2 hlt), hmem, hpitches⟩
  · rw [if_neg h8, resendFrames_eq] at hrow
    have hpump := pump_egress { u with out := u.out ++ again.map (Output.frame l) }
    obtain ⟨k2, hk2, hrest⟩ := hpump.link (l := l) hku
    obtain ⟨post, hout, -⟩ := hpump.out
    obtain ⟨-, hrx2, hack, -, hsame, -⟩ := received_of_sentApart hrest
    refine ⟨_, k2, hrow, hk2, hrx2.trans hrx, hack, hsame,
      fun _ => ⟨u.out, post, hout⟩, ?_, ?_⟩
    · rw [pump_mem]
      exact hmem
    · rw [pump_pitches]
      exact hpitches

/-- Settles O43: each row puts its link, and what is sent afterwards leaves the received side of every link (`Egress`). -/
theorem framesAreAcceptedOrSentAgain : Obligations.FramesAreAcceptedOrSentAgain := by
  intro s l f k hl hk hup
  refine ⟨flitData_inOrder hl hk hup, fun h => ?_, flitIdle_taken hl hk hup, retryRequest_answered hl hk hup⟩
  obtain ⟨k2, g, hspec⟩ := refuseFrame_spec hk
  exact ⟨_, k2, g, flitData_refused hl hk hup h, hspec⟩

end Sys2Proof.Machine
end

section
/-! PROOF. O44: links go down, return within 100 ms or are lost (R385, R388, R389, R393). -/

namespace Sys2Proof.Machine

/-! ### Events of links -/

@[simp] theorem portDown_keepsLinks (s : State) (l : Nat) :
    (portDown s l).fab = s.fab ∧ (portDown s l).mem = s.mem ∧ (portDown s l).pitches = s.pitches := by
  unfold portDown
  split
  · simp
  · exact ⟨rfl, rfl, rfl⟩

/-- The state of a link, if it is there. -/
def linkStateAt (s : State) (l : Nat) : Option LinkState := (linkAt s l).map (·.state)

theorem linkStateAt_of_fab {s t : State} (h : t.fab.links = s.fab.links) (l : Nat) : linkStateAt t l = linkStateAt s l := by
  rw [linkStateAt, linkAt, h, linkStateAt, linkAt]

theorem Egress.linkState {s t : State} (h : Egress s t) (l : Nat) : linkStateAt t l = linkStateAt s l := by
  have hl := congrArg (Option.map (·.state)) (h.links l)
  rwa [Option.map_map, Option.map_map] at hl

theorem linkStateAt_putLink_ne (s : State) {l j : Nat} (k : Link) (h : j ≠ l) : linkStateAt (putLink s l k) j = linkStateAt s j := by
  rw [linkStateAt, linkAt_putLink_ne _ _ h, linkStateAt]

/-! ### A link that has been down -/

/-- A link after its retraining has ended: its counters are reset, and the packets of its receive buffer are kept (R393). -/
def endedLink (k : Link) (x : LinkState) : Link := { Link.reset with state := x, inbox := k.inbox }

/-- Where a link's retraining ends in a state, its unacknowledged packets wait again, records are written and packets start: the link is in that state with
its receive buffer, and no other link changes its state. -/
theorem pump_endedLink {s u : State} {l : Nat} {k : Link} {x : LinkState} (hk : linkAt s l = some k)
    (hlinks : u.fab.links = (putLink s l (endedLink k x)).fab.links) (hmem : u.mem = s.mem) (hpitches : u.pitches = s.pitches) :
    ∃ k2, linkAt (pump u) l = some k2 ∧ k2.inbox = k.inbox ∧ k2.rxSeq = 0 ∧ k2.state = x
      ∧ (∀ j, j ≠ l → (linkAt (pump u) j).map (·.state) = (linkAt s j).map (·.state)) ∧ (pump u).mem = s.mem ∧ (pump u).pitches = s.pitches := by
  have hu : linkAt u l = some (endedLink k x) := by
    rw [linkAt, hlinks]
    exact linkAt_putLink_same hk _
  obtain ⟨k2, hk2, hrest⟩ := (pump_egress u).link hu
  obtain ⟨hstate, hrx, -, -, -, hinbox⟩ := received_of_sentApart hrest
  refine ⟨k2, hk2, hinbox, hrx, hstate, fun j hj => ?_, by rw [pump_mem, hmem], by rw [pump_pitches, hpitches]⟩
  calc linkStateAt (pump u) j = linkStateAt u j := (pump_egress u).linkState j
    _ = linkStateAt (putLink s l (endedLink k x)) j := linkStateAt_of_fab hlinks j
    _ = linkStateAt s j := linkStateAt_putLink_ne s _ hj

section
variable {s : State} {l now : Nat} {k : Link} (hl : l < 24) (hk : linkAt s l = some k)
include hl hk

theorem linkDown_retrains (hup : k.state = .up) :
    ∃ t, exec (.linkDown l now) s = .next t
      ∧ linkAt t l = some { k with state := .retraining, downSince := some (atTime s now).cairn.count, partialPkt := [] }
      ∧ (∀ j, j ≠ l → linkAt t j = linkAt s j) ∧ t.fab.waiting = s.fab.waiting ∧ t.mem = s.mem ∧ t.pitches = s.pitches := by
  let u := putLink (atTime s now) l { k with state := .retraining, downSince := some (atTime s now).cairn.count, partialPkt := [] }
  have hk0 : linkAt (atTime s now) l = some k := hk
  have hdo : doLinkDown (atTime s now) l = holdover (linkEvent u l 0x0C02 (neighbourOf (atTime s now) l) 1) := by
    unfold doLinkDown
    rw [hk0]
    exact if_pos hup
  have hfab : (holdover (linkEvent u l 0x0C02 (neighbourOf (atTime s now) l) 1)).fab = u.fab := by simp
  refine ⟨_, (if_pos (by simpa [linkOk] using hl)).trans (congrArg Host.Outcome.next hdo), ?_, fun j hj => ?_, ?_, by simp [u], by simp [u]⟩
  · rw [linkAt, hfab]
    exact linkAt_putLink_same hk0 _
  · rw [linkAt, hfab]
    exact linkAt_putLink_ne _ _ hj
  · rw [hfab]
    rfl

theorem linkUp_ends {d : Nat} {e : LinkEntry} (hstate : k.state = .retraining) (hdown : k.downSince = some d) (he : linkEntry s l = some e)
    (hsoon : (atTime s now).cairn.count ≤ d + 100000000) (device peer : Nat) :
    ∃ t k2, exec (.linkUp l device peer now) s = .next t ∧ linkAt t l = some k2 ∧ k2.inbox = k.inbox ∧ k2.rxSeq = 0
      ∧ k2.state = (if e.peerDevice = device ∧ e.peerLink = peer then .up else .refused)
      ∧ (∀ j, j ≠ l → (linkAt t j).map (·.state) = (linkAt s j).map (·.state)) ∧ t.mem = s.mem ∧ t.pitches = s.pitches := by
  let s0 := atTime s now
  let v := sendIdentity s0 l
  have hk0 : linkAt s0 l = some k := hk
  have he0 : linkEntry s0 l = some e := he
  have hintime : overdue s0 k.downSince = false := by
    rw [overdue, hdown, Option.all_some, decide_eq_false_iff_not]
    exact Nat.not_lt.2 hsoon
  by_cases hsame : e.peerDevice = device ∧ e.peerLink = peer
  · have hdo : doLinkUp s0 l device peer = pump (linkEvent (requeue (putLink v l (endedLink k .up)) l k) l 0x0C03 device 0) := by
      unfold doLinkUp
      rw [hk0, he0]
      dsimp only
      rw [if_pos ⟨hstate, hintime⟩, if_pos hsame]
      rfl
    obtain ⟨k2, hspec⟩ := pump_endedLink (s := s) (u := linkEvent (requeue (putLink v l (endedLink k .up)) l k) l 0x0C03 device 0) (x := .up) hk
      (by simp [requeue, v, s0, sendIdentity, putLink, send, atTime]) (by simp [v, s0, sendIdentity]) (by simp [v, s0, sendIdentity])
    rw [if_pos hsame]
    exact ⟨_, k2, (if_pos (by simpa [linkOk] using hl)).trans (congrArg Host.Outcome.next hdo), hspec⟩
  · have hdo : doLinkUp s0 l device peer
        = pump (holdover (portDown (linkEvent (requeue (putLink v l (endedLink k .refused)) l k) l 0x0C01 device 0) l)) := by
      unfold doLinkUp
      rw [hk0, he0]
      dsimp only
      rw [if_pos ⟨hstate, hintime⟩, if_neg hsame]
      rfl
    obtain ⟨k2, hspec⟩ := pump_endedLink (s := s)
      (u := holdover (portDown (linkEvent (requeue (putLink v l (endedLink k .refused)) l k) l 0x0C01 device 0) l)) (x := .refused) hk
      (by simp [requeue, v, s0, sendIdentity, putLink, send, atTime]) (by simp [v, s0, sendIdentity]) (by simp [v, s0, sendIdentity])
    rw [if_neg hsame]
    exact ⟨_, k2, (if_pos (by simpa [linkOk] using hl)).trans (congrArg Host.Outcome.next hdo), hspec⟩

theorem linkLost_ends {d : Nat} (hstate : k.state = .retraining) (hdown : k.downSince = some d)
    (hlate : d + 100000000 < (atTime s now).cairn.count) :
    ∃ t k2, exec (.linkLost l now) s = .next t ∧ linkAt t l = some k2 ∧ k2.state = .lost ∧ k2.inbox = k.inbox
      ∧ (∀ j, j ≠ l → (linkAt t j).map (·.state) = (linkAt s j).map (·.state)) ∧ t.mem = s.mem ∧ t.pitches = s.pitches := by
  let s0 := atTime s now
  let u := holdover (portDown (linkEvent (requeue (putLink s0 l (endedLink k .lost)) l k) l 0x0C02 (neighbourOf s0 l) 2) l)
  have hk0 : linkAt s0 l = some k := hk
  have hlong : overdue s0 k.downSince = true := by
    rw [overdue, hdown, Option.all_some, decide_eq_true_iff]
    exact hlate
  have hdo : doLinkLost s0 l = pump u := by
    unfold doLinkLost
    rw [hk0]
    exact if_pos ⟨hstate, hlong⟩
  obtain ⟨k2, hk2, hinbox, -, hlost, hrest⟩ := pump_endedLink (s := s) (u := u) (x := .lost) hk
    (by simp [u, requeue, s0, putLink, atTime]) (by simp [u, s0]) (by simp [u, s0])
  exact ⟨_, k2, (if_pos (by simpa [linkOk] using hl)).trans (congrArg Host.Outcome.next hdo), hk2, hlost, hinbox, hrest⟩

end

/-- Settles O44: each row puts its link, and the events, the holdover and the packets that start afterwards leave every link's state. -/
theorem linksGoDownAndReturn : Obligations.LinksGoDownAndReturn := fun _ _ _ _ hl hk =>
  ⟨linkDown_retrains hl hk, fun _ _ hstate hdown he =>
    ⟨fun device peer hsoon => linkUp_ends hl hk hstate hdown he hsoon device peer, linkLost_ends hl hk hstate hdown⟩⟩

end Sys2Proof.Machine
end

section
/-! PROOF. O46: transfers end with their response or are sent again, and management messages arrive (R394, R397, R398). -/

namespace Sys2Proof.Machine

/-- Taking a packet changes the links alone, and may send an idle frame. -/
theorem takePacket_fab (s : State) (l : Nat) (pkt : List Byte) :
    (takePacket s l pkt).fab = { s.fab with links := (takePacket s l pkt).fab.links } := by
  unfold takePacket
  split
  · rfl
  · dsimp only
    split
    · rw [sendIdle, sendPlain]
      split <;> rfl
    · rfl

/-- What an egress sends comes after what was sent before. -/
theorem Egress.out_prefix {s t : State} (h : Egress s t) : s.out <+: t.out := by
  obtain ⟨post, hout, -⟩ := h.out
  exact ⟨post, hout.symm⟩

/-- What taking a packet sends comes after what was sent before. -/
theorem takePacket_out_prefix (s : State) (l : Nat) (pkt : List Byte) : s.out <+: (takePacket s l pkt).out := by
  unfold takePacket
  split
  · exact List.prefix_refl _
  · next k hk =>
    dsimp only
    split
    · exact (sendIdle_egress (putLink s l
        { k with inbox := k.inbox.erase pkt, owed := lmod k.owed (packetVc pkt) (· + pkt.length / 256) }) l).out_prefix
    · exact List.prefix_refl _

/-- A packet of the row's kind that is next in a receive buffer is acted on. -/
theorem withPacket_acts {s : State} {kind l : Nat} {pkt : List Byte} (hkind : leAt pkt 0 1 = kind) (hlink : linkWith s pkt = some l)
    (f : Nat → State) : withPacket s kind pkt f = f l := by
  rw [withPacket, if_pos hkind, hlink]

/-! ### Packets that are sent again -/

/-- A packet that is sent again waits on or goes out while more is sent. -/
theorem sentAgain_egress {s u t : State} {port : Nat} {p : List Byte} (hout : s.out <+: u.out) (h : SentAgain s u port p) (hne : p ≠ [])
    (he : Egress u t) : SentAgain s t port p := by
  obtain ⟨pre, hpre⟩ := hout
  obtain ⟨post, hpost, hwait⟩ := he.out
  have hu : u.out.drop s.out.length = pre := by rw [← hpre, List.drop_left]
  have ht : t.out.drop s.out.length = pre ++ post := by rw [hpost, ← hpre, List.append_assoc, List.drop_left]
  rw [SentAgain, ht]
  rw [SentAgain, hu] at h
  rcases h with hw | ⟨l, f, hf, hp⟩
  · rcases hwait _ hw hne with hw | ⟨l, f, hf, hp⟩
    · exact .inl hw
    · exact .inr ⟨l, f, List.mem_append_right _ hf, hp⟩
  · exact .inr ⟨l, f, List.mem_append_left _ hf, hp⟩

/-- Packets that are given to a port. -/
def queued (s : State) (port : Nat) (pkts : List (List Byte)) : State :=
  { s with fab := { s.fab with waiting := s.fab.waiting ++ pkts.map fun p => (port, p) } }

theorem sendPackets_egress (s : State) (port : Nat) (pkts : List (List Byte)) : Egress (queued s port pkts) (sendPackets s port pkts) :=
  pump_egress _

theorem sendPackets_out_prefix (s : State) (port : Nat) (pkts : List (List Byte)) : s.out <+: (sendPackets s port pkts).out :=
  (sendPackets_egress s port pkts).out_prefix

/-- A packet that is given to a port is sent again. -/
theorem sentAgain_sendPackets {s u : State} {port : Nat} {pkts : List (List Byte)} {p : List Byte} (hout : s.out <+: u.out) (hp : p ∈ pkts)
    (hne : p ≠ []) : SentAgain s (sendPackets u port pkts) port p :=
  sentAgain_egress (u := queued u port pkts) hout (.inl (List.mem_append_right _ (List.mem_map.2 ⟨p, hp, rfl⟩))) hne (sendPackets_egress u port pkts)

/-! ### Responses (R397) -/

/-- The state after a transfer has ended: it is gone, and its packets wait no longer. -/
def transferEnded (s : State) (n : Nat) (x : Send) : State :=
  { s with fab := { s.fab with sends := mdel s.fab.sends n, waiting := s.fab.waiting.filter fun q => !decide (q.2 ∈ x.packets) } }

theorem transferResponse_done {s : State} {pkt : List Byte} {l : Nat} {x : Send} {r : PitchRecord} {k : Slot} (hkind : leAt pkt 0 1 = 2)
    (hlink : linkWith s pkt = some l) (hsend : mget s.fab.sends (leAt pkt 12 4) = some x) (hdest : leAt pkt 4 2 % 4096 = x.desc.destDevice)
    (hdone : leAt (packetBody pkt) 0 2 = 0) (hr : recordOf s x.pitch = some r) (hslot : slotOf s r x.desc.srcSlot = some k)
    (hfull : k.state = .full) :
    ∃ t, exec (.transferResponse pkt) s = .next t ∧ mget t.fab.sends (leAt pkt 12 4) = none
      ∧ slotOf t r x.desc.srcSlot = some (releaseSlot k 0xFFFF) ∧ t.mem = s.mem := by
  let s1 := takePacket s l pkt
  have hsend1 : mget s1.fab.sends (leAt pkt 12 4) = some x := by
    rw [takePacket_fab]
    exact hsend
  let u := transferEnded s1 (leAt pkt 12 4) x
  have hslotu : slotOf u r x.desc.srcSlot = some k := by
    have hpitch : pitchOf u r.pitch = pitchOf s r.pitch := pitchOf_of_pitches (by simp [u, s1, transferEnded]) _
    rw [slotOf, hpitch]
    exact hslot
  have hrecord : recordOf u x.pitch = some r := by
    have hcfg : u.cfg = s.cfg := by simp [u, s1, transferEnded]
    rw [recordOf, hcfg]
    exact hr
  have hread : ((recordOf (transferEnded s1 (leAt pkt 12 4) x) x.pitch).bind fun r => slotOf (transferEnded s1 (leAt pkt 12 4) x) r x.desc.srcSlot)
      = some k := by
    rw [hrecord, Option.bind_some]
    exact hslotu
  have hdo : doResponse s1 pkt = putSlot u x.pitch x.desc.srcSlot (releaseSlot k engineReader) := by
    unfold transferEnded at hread
    unfold doResponse
    dsimp only
    rw [hsend1]
    dsimp only
    rw [if_neg (by simpa using hdest), if_pos (show leAt (packetBody pkt) 0 2 = rcDone from hdone), hread]
    exact if_pos hfull
  let v := putSlot u x.pitch x.desc.srcSlot (releaseSlot k engineReader)
  have hrow : exec (.transferResponse pkt) s = .next (pump v) := congrArg Host.Outcome.next ((withPacket_acts hkind hlink _).trans (by rw [hdo]))
  have hvslot : slotOf v r x.desc.srcSlot = some (releaseSlot k 0xFFFF) := by
    have hp : x.pitch = r.pitch := (recordOf_pitch hr).symm
    show slotOf (putSlot u x.pitch x.desc.srcSlot (releaseSlot k engineReader)) r x.desc.srcSlot = _
    rw [hp]
    exact slotOf_putSlot_same hslotu _
  refine ⟨_, hrow, (pump_egress v).unsent _ (mget_mdel_same _ _), ?_, ?_⟩
  · have hpitch : pitchOf (pump v) r.pitch = pitchOf v r.pitch := pitchOf_of_pitches (pump_pitches v) _
    rw [slotOf, hpitch]
    exact hvslot
  · rw [pump_mem]
    show s1.mem = s.mem
    simp [s1]

/-- The entry of a transfer of which a block has been asked for again. -/
def blockAsked (x : Send) (block at_ : Nat) : Send := { x with blockResent := x.blockResent ++ [block], lastSent := at_ }

/-- Put the entry of a transfer. -/
def putSend (s : State) (n : Nat) (x : Send) : State := { s with fab := { s.fab with sends := mset s.fab.sends n x } }

/-- Sending packets keeps the entry of a transfer, but for when its last packet went out, and then starts the packets that can start. -/
theorem sendPackets_putSend (s : State) (n : Nat) (x : Send) (port : Nat) (pkts : List (List Byte)) :
    ∃ at_, mget (sendPackets (putSend s n x) port pkts).fab.sends n = some { x with lastSent := at_ } :=
  (sendPackets_keepsTransfers (putSend s n x) port pkts).sends n x (mget_mset_same _ _ _)

theorem transferResponse_block {s : State} {pkt : List Byte} {l : Nat} {x : Send} (hkind : leAt pkt 0 1 = 2) (hlink : linkWith s pkt = some l)
    (hsend : mget s.fab.sends (leAt pkt 12 4) = some x) (hdest : leAt pkt 4 2 % 4096 = x.desc.destDevice)
    (hfail : leAt (packetBody pkt) 0 2 = rcIntegrityFail) (hfirst : leAt (packetBody pkt) 2 4 ∉ x.blockResent) :
    ∃ t y, exec (.transferResponse pkt) s = .next t ∧ mget t.fab.sends (leAt pkt 12 4) = some y ∧ y.packets = x.packets ∧ y.desc = x.desc
      ∧ y.blockResent = x.blockResent ++ [leAt (packetBody pkt) 2 4]
      ∧ (let span := blockSpan (x.packets.map packetBody).flatten (leAt (packetBody pkt) 2 4) 0
        ∀ p ∈ x.packets, p ≠ [] → meetsRange p span.1 span.2 = true → SentAgain s t x.desc.port p)
      ∧ t.mem = s.mem ∧ t.pitches = s.pitches := by
  let s1 := takePacket s l pkt
  let block := leAt (packetBody pkt) 2 4
  let span := blockSpan (x.packets.map packetBody).flatten block 0
  let u := putSend s1 (leAt pkt 12 4) (blockAsked x block s1.cairn.count)
  let v := sendPackets u x.desc.port (x.packets.filter fun p => meetsRange p span.1 span.2)
  have hsend1 : mget s1.fab.sends (leAt pkt 12 4) = some x := by
    rw [takePacket_fab]
    exact hsend
  have hdo : doResponse s1 pkt = v := by
    unfold doResponse
    dsimp only
    rw [hsend1]
    dsimp only
    rw [if_neg (by simpa using hdest), if_neg (by rw [hfail]; decide), if_pos ⟨hfail, hfirst⟩]
    rfl
  have hrow : exec (.transferResponse pkt) s = .next (pump v) := congrArg Host.Outcome.next ((withPacket_acts hkind hlink _).trans (by rw [hdo]))
  obtain ⟨at1, hat1⟩ := sendPackets_putSend s1 (leAt pkt 12 4) (blockAsked x block s1.cairn.count) x.desc.port
    (x.packets.filter fun p => meetsRange p span.1 span.2)
  obtain ⟨at2, hat2⟩ := (pump_keepsTransfers v).sends _ _ hat1
  have hout : s.out <+: u.out := takePacket_out_prefix s l pkt
  refine ⟨_, _, hrow, hat2, rfl, rfl, rfl, fun p hp hne hmeets => ?_, ?_, ?_⟩
  · exact sentAgain_egress (hout.trans (sendPackets_out_prefix u _ _)) (sentAgain_sendPackets hout (List.mem_filter.2 ⟨hp, hmeets⟩) hne) hne
      (pump_egress v)
  · simp [v, u, s1, putSend]
  · simp [v, u, s1, putSend]

/-! ### Transfers without a response (R398) -/

/-- Without a response in time every packet goes again, four times. -/
theorem doTransferResend_again {s : State} {n : Nat} {x : Send} (hsend : mget s.fab.sends n = some x) (hlive : x.lost = false)
    (hgone : ∀ q ∈ s.fab.waiting, q.2 ∉ x.packets) (hlate : x.lastSent + 200000 ≤ s.cairn.count) (hfew : x.resends < 4) :
    doTransferResend s n
      = sendPackets (putSend s n { x with resends := x.resends + 1, lastSent := s.cairn.count }) x.desc.port x.packets := by
  unfold doTransferResend
  rw [hsend]
  dsimp only
  rw [if_neg, if_pos hfew]
  · rfl
  · simp only [hlive, Bool.false_eq_true, false_or, not_or, List.any_eq_true, decide_eq_true_eq, not_exists, not_and, Nat.not_lt]
    exact ⟨hgone, hlate⟩

/-- The fifth time the transfer is lost, with a record. -/
theorem doTransferResend_lost {s : State} {n : Nat} {x : Send} (hsend : mget s.fab.sends n = some x) (hlive : x.lost = false)
    (hgone : ∀ q ∈ s.fab.waiting, q.2 ∉ x.packets) (hlate : x.lastSent + 200000 ≤ s.cairn.count) (hmany : 4 ≤ x.resends) :
    ∃ detail, doTransferResend s n = rangerEvent (putSend s n { x with lost := true }) 0x06 0x0C06 x.pitch detail := by
  unfold doTransferResend
  rw [hsend]
  dsimp only
  rw [if_neg, if_neg (Nat.not_lt.2 hmany)]
  · exact ⟨_, rfl⟩
  · simp only [hlive, Bool.false_eq_true, false_or, not_or, List.any_eq_true, decide_eq_true_eq, not_exists, not_and, Nat.not_lt]
    exact ⟨hgone, hlate⟩

theorem transferResend_due {s : State} {n now : Nat} {x : Send} (hsend : mget s.fab.sends n = some x) (hlive : x.lost = false)
    (hgone : ∀ q ∈ s.fab.waiting, q.2 ∉ x.packets) (hlate : x.lastSent + 200000 ≤ (atTime s now).cairn.count) :
    ∃ t y, exec (.transferResend n now) s = .next t ∧ mget t.fab.sends n = some y ∧ y.packets = x.packets ∧ y.desc = x.desc
      ∧ (x.resends < 4 → y.resends = x.resends + 1 ∧ y.lost = false ∧ ∀ p ∈ x.packets, p ≠ [] → SentAgain s t x.desc.port p)
      ∧ (4 ≤ x.resends → y = { x with lost := true } ∧ t.ev.written = (s.ev.written + 1) % 2 ^ 32)
      ∧ t.mem = s.mem ∧ t.pitches = s.pitches := by
  let s0 := atTime s now
  have hsend0 : mget s0.fab.sends n = some x := hsend
  by_cases hfew : x.resends < 4
  · let x1 : Send := { x with resends := x.resends + 1, lastSent := s0.cairn.count }
    obtain ⟨at_, hat⟩ := sendPackets_putSend s0 n x1 x.desc.port x.packets
    refine ⟨_, _, congrArg Host.Outcome.next (doTransferResend_again hsend0 hlive hgone hlate hfew), hat, rfl, rfl,
      fun _ => ⟨rfl, hlive, fun p hp hne => sentAgain_sendPackets (List.prefix_refl _) hp hne⟩, fun h => absurd hfew (Nat.not_lt.2 h), ?_, ?_⟩
    · simp [putSend]
    · simp [putSend]
  · obtain ⟨detail, hlost⟩ := doTransferResend_lost hsend0 hlive hgone hlate (Nat.not_lt.1 hfew)
    refine ⟨_, { x with lost := true }, congrArg Host.Outcome.next hlost, ?_, rfl, rfl, fun h => absurd h hfew, fun _ => ⟨rfl, ?_⟩, ?_, ?_⟩
    · simp [putSend]
    · rw [rangerEvent_written]
      rfl
    · simp [putSend, s0]
    · simp [putSend, s0]

/-! ### Management messages (R394) -/

theorem managementMessage_arrives {s : State} {pkt : List Byte} {l : Nat} (hkind : leAt pkt 0 1 = 3) (hlink : linkWith s pkt = some l) :
    ∃ t, exec (.managementMessage pkt) s = .next t
      ∧ t.fab.mgmtIn = s.fab.mgmtIn ++ [stampPeer (leAt pkt 4 2 % 4096) (packetBody pkt)] ∧ t.mem = s.mem ∧ t.pitches = s.pitches := by
  let s1 := takePacket s l pkt
  let u : State := { s1 with fab := { s1.fab with mgmtIn := s1.fab.mgmtIn ++ [stampPeer (leAt pkt 4 2 % 4096) (packetBody pkt)] } }
  have hin : s1.fab.mgmtIn = s.fab.mgmtIn := by rw [takePacket_fab]
  refine ⟨pump u, congrArg Host.Outcome.next (withPacket_acts hkind hlink _), ?_, by simp [u, s1], by simp [u, s1]⟩
  rw [(pump_egress u).mgmtIn, ← hin]

/-- Settles O46: a response and the lapse of its time put the entry of their transfer; what is sent again is given to its port, where it waits or goes out
(`sentAgain_sendPackets`). -/
theorem transfersEndOrAreSentAgain : Obligations.TransfersEndOrAreSentAgain :=
  ⟨fun _ _ _ _ _ _ => transferResponse_done, fun _ _ _ _ => transferResponse_block, fun _ _ _ _ => transferResend_due,
    fun _ _ _ => managementMessage_arrives⟩

end Sys2Proof.Machine
end

section
/-! PROOF. O47: the exchange of time corrects the count (R401 to R405). -/

namespace Sys2Proof.Machine

/-! ### Lists and fields -/

theorem mem_insertBy {α : Type} (le : α → α → Bool) (a : α) (xs : List α) {x : α} : x ∈ insertBy le a xs ↔ x = a ∨ x ∈ xs := by
  induction xs with
  | nil => simp [insertBy]
  | cons b xs ih =>
    rw [insertBy]
    split
    · exact List.mem_cons
    · rw [List.mem_cons, ih, List.mem_cons]
      exact or_left_comm

theorem mem_sortBy {α : Type} (le : α → α → Bool) (xs : List α) {x : α} : x ∈ sortBy le xs ↔ x ∈ xs := by
  induction xs with
  | nil => rfl
  | cons a xs ih => rw [sortBy, mem_insertBy, ih, List.mem_cons]

theorem leVal_lt (bs : List Byte) : leVal bs < 256 ^ bs.length := by
  induction bs with
  | nil => exact Nat.one_pos
  | cons b bs ih =>
    have hb : b.toNat < 256 := b.isLt
    rw [leVal, List.length_cons, pow_succ']
    omega

theorem leAt_lt (bs : List Byte) (a n : Nat) : leAt bs a n < 256 ^ n :=
  (leVal_lt _).trans_le (Nat.pow_le_pow_right (by decide) (List.length_take_le _ _))

/-! ### Time links (R401) -/

theorem mem_timeLinks {s : State} {x : Nat × LinkEntry} (h : x ∈ timeLinks s) : ∃ k, linkAt s x.1 = some k := by
  obtain ⟨l, -, hl⟩ := List.mem_filterMap.1 h
  split at hl
  · next k e hk he =>
    split at hl
    · obtain rfl := Option.some.inj hl
      exact ⟨k, hk⟩
    · exact nomatch hl
  · exact nomatch hl

/-- The time links depend on the links' states and on the configuration alone. -/
theorem timeLinks_congr {s t : State} (hcfg : t.cfg = s.cfg) (hstate : ∀ l, linkStateAt t l = linkStateAt s l) : timeLinks t = timeLinks s := by
  refine List.filterMap_congr fun l _ => ?_
  have hl := hstate l
  have he : linkEntry t l = linkEntry s l := by rw [linkEntry, hcfg, linkEntry]
  rw [he]
  unfold linkStateAt at hl
  cases hs : linkAt s l with
  | none =>
    rw [hs] at hl
    rw [Option.map_eq_none_iff.1 hl]
  | some k =>
    rw [hs] at hl
    obtain ⟨k', hk', hsame⟩ := Option.map_eq_some_iff.1 hl
    rw [hk']
    cases linkEntry s l with
    | none => rfl
    | some e =>
      dsimp only
      rw [hsame]

/-- The lowest rank of a list is that of one of its links, or the lowest so far. -/
theorem foldl_rank_mem (xs : List (Nat × LinkEntry)) (best : Option (Nat × Nat)) {b : Nat × Nat}
    (h : xs.foldl (fun (best : Option (Nat × Nat)) x => match best with
      | none => some (x.2.timeRank, x.1)
      | some b => if x.2.timeRank < b.1 then some (x.2.timeRank, x.1) else some b) best = some b) :
    (∃ x ∈ xs, x.1 = b.2) ∨ best = some b := by
  induction xs generalizing best with
  | nil => exact .inr h
  | cons a xs ih =>
    rw [List.foldl_cons] at h
    rcases ih _ h with ⟨x, hx, hb⟩ | hb
    · exact .inl ⟨x, List.mem_cons_of_mem _ hx, hb⟩
    · cases best with
      | none =>
        obtain rfl := Option.some.inj hb
        exact .inl ⟨a, List.mem_cons_self, rfl⟩
      | some c =>
        dsimp only at hb
        split at hb
        · obtain rfl := Option.some.inj hb
          exact .inl ⟨a, List.mem_cons_self, rfl⟩
        · exact .inr hb

theorem timeParent_linkAt {s : State} {l : Nat} (h : timeParent s = some l) : ∃ k, linkAt s l = some k := by
  obtain ⟨b, hb, rfl⟩ := Option.map_eq_some_iff.1 h
  rcases foldl_rank_mem _ _ hb with ⟨x, hx, hl⟩ | hnone
  · exact hl ▸ mem_timeLinks hx
  · exact nomatch hnone

/-- A module asks for the time on a link that is there. -/
theorem timeAsked_linkAt {s : State} {l : Nat} (h : timeAsked s = some l) : ∃ k, linkAt s l = some k := by
  unfold timeAsked at h
  split at h
  · exact timeParent_linkAt h
  · split at h
    · exact nomatch h
    · obtain ⟨x, hx, rfl⟩ := Option.map_eq_some_iff.1 h
      exact mem_timeLinks ((mem_sortBy _ _).1 (List.mem_of_find?_eq_some hx))

/-! ### Time frames (R402) -/

/-- The fields of a time frame's payload. -/
theorem timePayload_fields (s : State) (kind exchange t1 t2 t3 f1 f2 f3 : Nat) :
    let p := timePayload s kind exchange t1 t2 t3 f1 f2 f3
    leAt p 0 1 = kind % 256 ∧ leAt p 4 4 = exchange % 2 ^ 32 ∧ leAt p 8 8 = t1 % 2 ^ 64 ∧ leAt p 16 8 = t2 % 2 ^ 64 ∧ leAt p 24 8 = t3 % 2 ^ 64 := by
  intro p
  obtain ⟨depth, root, tail, hp⟩ : ∃ depth root tail, p = leBytes 1 kind ++ (leBytes 1 depth ++ (leBytes 2 root ++ (leBytes 4 exchange ++ (leBytes 8 t1
      ++ (leBytes 8 t2 ++ (leBytes 8 t3 ++ tail)))))) := by
    unfold p timePayload padTo
    extract_lets root depth
    rw [List.take_of_length_le (by simp)]
    simp only [List.append_assoc]
    exact ⟨depth, root, _, rfl⟩
  rw [hp]
  refine ⟨leAt_append [] _ 1 kind, ?_, ?_, ?_, ?_⟩
  · have h := leAt_append (leBytes 1 kind ++ leBytes 1 depth ++ leBytes 2 root) (leBytes 8 t1 ++ (leBytes 8 t2 ++ (leBytes 8 t3 ++ tail))) 4 exchange
    simpa using h
  · have h := leAt_append (leBytes 1 kind ++ leBytes 1 depth ++ leBytes 2 root ++ leBytes 4 exchange) (leBytes 8 t2 ++ (leBytes 8 t3 ++ tail)) 8 t1
    simpa using h
  · have h := leAt_append (leBytes 1 kind ++ leBytes 1 depth ++ leBytes 2 root ++ leBytes 4 exchange ++ leBytes 8 t1) (leBytes 8 t3 ++ tail) 8 t2
    simpa using h
  · have h := leAt_append (leBytes 1 kind ++ leBytes 1 depth ++ leBytes 2 root ++ leBytes 4 exchange ++ leBytes 8 t1 ++ leBytes 8 t2) tail 8 t3
    simpa using h

/-! ### Requests (R402, R405) -/

/-- The clock of a module that asks on a link. -/
def askingCairn (s : State) (l : Nat) : Cairn :=
  { s.cairn with
    exchange := (s.cairn.exchange + 1) % 2 ^ 32, t1 := some (s.cairn.count, s.cairn.frac), parent := some l
    asked := if isRoot s then s.cairn.asked ++ [l] else s.cairn.asked }

theorem timeRequest_asks {s : State} {now l : Nat} (h : timeAsked (atTime s now) = some l) :
    ∃ t f, exec (.timeRequest now) s = .next t ∧ t.out = s.out ++ [.frame l f] ∧ frType f = 3 ∧ leAt f.payload 0 1 = 1
      ∧ leAt f.payload 4 4 = t.cairn.exchange ∧ leAt f.payload 8 8 = (atTime s now).cairn.count % 2 ^ 64
      ∧ t.cairn.t1 = some ((atTime s now).cairn.count, s.cairn.frac) ∧ t.cairn.parent = some l
      ∧ (isRoot s = true → t.cairn.asked = s.cairn.asked ++ [l]) := by
  let s0 := atTime s now
  let s1 : State := { s0 with cairn := askingCairn s0 l }
  let payload := timePayload s1 1 s1.cairn.exchange s1.cairn.count 0 0 s1.cairn.frac 0 0
  obtain ⟨k, hk⟩ := timeAsked_linkAt h
  have hk1 : linkAt s1 l = some k := hk
  have hdo : doTimeRequest s0 = sendPlain s1 l 3 payload := by
    unfold doTimeRequest
    rw [h]
    rfl
  obtain ⟨k1, f, hsend, -, hpayload, htype, -⟩ := sendPlain_sends hk1 (type := 3) (by decide) payload
  obtain ⟨hkind, hexchange, ht1, -, -⟩ := timePayload_fields s1 1 s1.cairn.exchange s1.cairn.count 0 0 s1.cairn.frac 0 0
  refine ⟨_, f, congrArg Host.Outcome.next (hdo.trans hsend), rfl, htype, ?_, ?_, ?_, rfl, rfl, fun hroot => ?_⟩
  · rw [hpayload]
    exact hkind
  · rw [hpayload]
    exact hexchange.trans (Nat.mod_mod _ _)
  · rw [hpayload]
    exact ht1
  · have hroot0 : isRoot s0 = true := hroot
    show (askingCairn s0 l).asked = _
    simp only [askingCairn, hroot0, if_true]
    rfl

/-! ### Arriving time frames -/

/-- A time frame on a working link is acted on after its ack and credits have been taken. -/
theorem withTimeFrame_acts {s : State} {l : Nat} {f : Frame} {k : Link} (hk : linkAt s l = some k) (hup : k.state = .up) (hok : frameOk f = true)
    (htype : frType f = 3) (g : State → State) : withTimeFrame s l f g = pump (g (putLink s l (takeControl k f))) := by
  unfold withTimeFrame
  rw [hk]
  exact if_pos ⟨hup, hok, htype⟩

/-- A time frame that fails its CRC has no effect. -/
theorem withTimeFrame_bad {s : State} {l : Nat} {f : Frame} (hbad : frameOk f = false) (g : State → State) : withTimeFrame s l f g = s := by
  unfold withTimeFrame
  split
  · rfl
  · exact if_neg (by simp [hbad])

theorem linkStateAt_takeControl {s : State} {l : Nat} {k : Link} (hk : linkAt s l = some k) (f : Frame) (j : Nat) :
    linkStateAt (putLink s l (takeControl k f)) j = linkStateAt s j := by
  by_cases hj : j = l
  · rw [hj, linkStateAt, linkAt_putLink_same hk, linkStateAt, hk, Option.map_some, Option.map_some, takeControl_state]
  · exact linkStateAt_putLink_ne s _ hj

/-- Taking the control fields of a frame leaves the time links. -/
theorem timeLinks_takeControl {s : State} {l : Nat} {k : Link} (hk : linkAt s l = some k) (f : Frame) :
    timeLinks (putLink s l (takeControl k f)) = timeLinks s := timeLinks_congr rfl (linkStateAt_takeControl hk f)

theorem servesTime_takeControl {s : State} {l : Nat} {k : Link} (hk : linkAt s l = some k) (f : Frame) :
    servesTime (putLink s l (takeControl k f)) = servesTime s := by
  rw [servesTime, rootLooked, timeLinks_takeControl hk]
  rfl

theorem timeRequestReceived_answers {s : State} {l : Nat} {f : Frame} {k : Link} (hl : l < 24) (hk : linkAt s l = some k) (hup : k.state = .up)
    (hok : frameOk f = true) (htype : frType f = 3) (t2 t2frac t3 t3frac : Nat) (hkind : leAt f.payload 0 1 = 1) (hserves : servesTime s = true) :
    ∃ t g post, exec (.timeRequestReceived l f t2 t2frac t3 t3frac) s = .next t ∧ t.out = s.out ++ [.frame l g] ++ post ∧ frType g = 3
      ∧ leAt g.payload 0 1 = 2 ∧ leAt g.payload 4 4 = leAt f.payload 4 4 ∧ leAt g.payload 8 8 = leAt f.payload 8 8
      ∧ leAt g.payload 16 8 = t2 % 2 ^ 64 ∧ leAt g.payload 24 8 = t3 % 2 ^ 64 := by
  let u := putLink s l (takeControl k f)
  let payload := timePayload u 2 (leAt f.payload 4 4) (leAt f.payload 8 8) (count64 t2) (count64 t3) (leAt f.payload 32 1) (t2frac % 256) (t3frac % 256)
  have hku : linkAt (atTime u t3) l = some (takeControl k f) := linkAt_putLink_same hk _
  have hdo : doTimeAnswer u l f.payload t2 t2frac t3 t3frac = sendPlain (atTime u t3) l 3 payload :=
    if_pos ⟨hkind, (servesTime_takeControl hk f).trans hserves⟩
  obtain ⟨k1, g, hsend, -, hpayload, hgtype, -⟩ := sendPlain_sends hku (type := 3) (by decide) payload
  obtain ⟨hkind2, hexchange, ht1, ht2, ht3⟩ := timePayload_fields u 2 (leAt f.payload 4 4) (leAt f.payload 8 8) (count64 t2) (count64 t3)
    (leAt f.payload 32 1) (t2frac % 256) (t3frac % 256)
  have hrow : exec (.timeRequestReceived l f t2 t2frac t3 t3frac) s = .next (pump (send (putLink (atTime u t3) l k1) (.frame l g))) := by
    refine (if_pos (by simpa [linkOk] using hl)).trans (congrArg Host.Outcome.next ((withTimeFrame_acts hk hup hok htype _).trans ?_))
    exact congrArg pump (hdo.trans hsend)
  obtain ⟨post, hpost, -⟩ := (pump_egress (send (putLink (atTime u t3) l k1) (.frame l g))).out
  refine ⟨_, g, post, hrow, hpost, hgtype, ?_, ?_, ?_, ?_, ?_⟩
  · rw [hpayload]
    exact hkind2
  · rw [hpayload]
    exact hexchange.trans (Nat.mod_eq_of_lt (leAt_lt _ _ 4))
  · rw [hpayload]
    exact ht1.trans (Nat.mod_eq_of_lt (leAt_lt _ _ 8))
  · rw [hpayload]
    exact ht2.trans (Nat.mod_mod _ _)
  · rw [hpayload]
    exact ht3.trans (Nat.mod_mod _ _)

/-! ### Responses (R402, R403, R405) -/

/-- A step of the count by an offset that leaves it among 64-bit counts is exact. -/
theorem fine_stepCount {c : Cairn} {offset : Int} (hlow : 0 ≤ fine c.count c.frac + offset) (hhigh : fine c.count c.frac + offset < 2 ^ 72) :
    fine (stepCount c offset).count (stepCount c offset).frac = fine c.count c.frac + offset := by
  unfold stepCount
  dsimp only
  generalize hv : fine c.count c.frac + offset = v at hlow hhigh ⊢
  rw [fine, count64, Nat.mod_eq_of_lt (by omega), Nat.div_add_mod]
  exact Int.toNat_of_nonneg hlow

/-- What counting an exchange leaves in the clock (R403). -/
theorem countExchange_cairn (s : State) (offset : Int) :
    (countExchange s offset).cairn = { s.cairn with
      good := if offset.natAbs < 256 then min (s.cairn.good + 1) 16 else 0
      offset := offset
      locked := s.cairn.locked || decide (offset.natAbs < 256 ∧ 16 ≤ s.cairn.good + 1) } := by
  unfold countExchange
  dsimp only
  by_cases hnear : offset.natAbs < 256
  · simp only [hnear, if_true, true_and]
    by_cases hmany : 16 ≤ s.cairn.good + 1
    · cases hlocked : s.cairn.locked
      · simp [hmany]
      · simp [hmany]
    · simp [hmany]
  · simp [hnear]

theorem countExchange_frame (s : State) (offset : Int) : (countExchange s offset).fab = s.fab ∧ (countExchange s offset).cfg = s.cfg := by
  unfold countExchange
  extract_lets good
  split
  · simp only [cairnEvent_keeps]
    exact ⟨rfl, rfl⟩
  · exact ⟨rfl, rfl⟩

/-- A locked module without a working time parent is in holdover (R403). -/
theorem holdover_cairn {s : State} (hnot : s.cairn.holdover = false) (hchild : isRoot s = false) :
    (holdover s).cairn = { s.cairn with
      holdover := s.cairn.locked && (timeParent s).isNone
      parent := if s.cairn.locked && (timeParent s).isNone then none else s.cairn.parent } := by
  unfold holdover
  by_cases hlost : s.cairn.locked = true ∧ timeParent s = none
  · obtain ⟨hlocked, hparent⟩ := hlost
    rw [if_pos ⟨hlocked, hnot, hchild, hparent⟩, hlocked, hparent]
    simp [cairnEvent_keeps]
  · have hcond : (s.cairn.locked && (timeParent s).isNone) = false := by
      rw [Bool.and_eq_false_iff, Option.isNone_eq_false_iff]
      by_cases hlocked : s.cairn.locked = true
      · exact .inr (Option.isSome_iff_ne_none.2 fun h => hlost ⟨hlocked, h⟩)
      · exact .inl (by simpa using hlocked)
    rw [if_neg fun h => hlost ⟨h.1, h.2.2.2⟩, hcond]
    simp only [Bool.false_eq_true, if_false]
    rw [← hnot]

/-- A response that answers the module's open request. -/
structure Answers (s : State) (l : Nat) (payload : List Byte) (t1 : Nat × Nat) : Prop where
  asked : s.cairn.t1 = some t1
  kind : leAt payload 0 1 = 2
  exchange : leAt payload 4 4 = s.cairn.exchange
  parent : s.cairn.parent = some l

/-- The clock once the answer to its request has come. -/
def answeredCairn (s : State) (t4 : Nat) : Cairn := { (atTime s t4).cairn with t1 := none }

/-- A root takes the count of a locked neighbour once, before it is ready (R405). -/
theorem doTimeResponse_root {s : State} {l : Nat} {payload : List Byte} {t1 : Nat × Nat} (h : Answers s l payload t1) (t4 t4frac : Nat)
    (hroot : isRoot s = true) (hlocked : bitOf (leAt payload 35 1) 0 = true) (hready : s.boot.ready = false)
    (hfirst : s.cairn.tookNeighbour = false) :
    doTimeResponse s l payload t4 t4frac = { s with
      cairn := { stepCount (answeredCairn s t4) (exchangeOffset payload t1 t4 t4frac) with tookNeighbour := true } } := by
  unfold doTimeResponse
  rw [h.asked]
  dsimp only
  rw [if_neg (by simp [h.kind, h.exchange, h.parent])]
  exact (if_pos hroot).trans (if_pos ⟨hlocked, hready, hfirst⟩)

/-- The clock of a child that has been answered, before the exchange is counted (R402, R403). -/
def correctedCairn (s : State) (payload : List Byte) (offset : Int) (t4 : Nat) : Cairn :=
  let c := if s.boot.ready then { answeredCairn s t4 with slew := offset } else stepCount (answeredCairn s t4) offset
  { c with depth := (leAt payload 1 1 + 1) % 256, holdover := false, ppsSeen := bitOf (leAt payload 35 1) 1 }

theorem doTimeResponse_child {s : State} {l : Nat} {payload : List Byte} {t1 : Nat × Nat} (h : Answers s l payload t1) (t4 t4frac : Nat)
    (hchild : isRoot s = false) :
    doTimeResponse s l payload t4 t4frac
      = holdover (countExchange { s with cairn := correctedCairn s payload (exchangeOffset payload t1 t4 t4frac) t4 }
          (exchangeOffset payload t1 t4 t4frac)) := by
  unfold doTimeResponse
  rw [h.asked]
  dsimp only
  rw [if_neg (by simp [h.kind, h.exchange, h.parent])]
  have hnot : ¬isRoot s = true := by simp [hchild]
  exact if_neg hnot

/-- The count of a child after a correction: it is stepped before the module is ready, and stays afterwards (R403). -/
theorem correctedCairn_spec (s : State) (payload : List Byte) (offset : Int) (t4 : Nat) :
    let c := correctedCairn s payload offset t4
    c.t1 = none ∧ c.good = s.cairn.good ∧ c.locked = s.cairn.locked ∧ c.holdover = false ∧ c.ppsSeen = bitOf (leAt payload 35 1) 1
      ∧ (s.boot.ready = true → c.slew = offset ∧ c.count = (atTime s t4).cairn.count ∧ c.frac = s.cairn.frac)
      ∧ (s.boot.ready = false → 0 ≤ fine (atTime s t4).cairn.count s.cairn.frac + offset →
        fine (atTime s t4).cairn.count s.cairn.frac + offset < 2 ^ 72 →
        fine c.count c.frac = fine (atTime s t4).cairn.count s.cairn.frac + offset) := by
  unfold correctedCairn
  cases hready : s.boot.ready
  · exact ⟨rfl, rfl, rfl, rfl, rfl, (fun h => nomatch h), fun _ hlow hhigh => fine_stepCount hlow hhigh⟩
  · exact ⟨rfl, rfl, rfl, rfl, rfl, fun _ => ⟨rfl, rfl, rfl⟩, fun h => nomatch h⟩

/-- The clock of a child after the response: the offset, the lock and the holdover (R402, R403). -/
theorem doTimeResponse_child_cairn {s : State} {l : Nat} {payload : List Byte} {t1 : Nat × Nat} (h : Answers s l payload t1) (t4 t4frac : Nat)
    (hchild : isRoot s = false) :
    let offset := exchangeOffset payload t1 t4 t4frac
    let c := (doTimeResponse s l payload t4 t4frac).cairn
    c.offset = offset ∧ c.t1 = none ∧ c.holdover = (c.locked && (timeParent s).isNone)
      ∧ (s.boot.ready = true → c.slew = offset ∧ c.count = (atTime s t4).cairn.count ∧ c.frac = s.cairn.frac)
      ∧ (s.boot.ready = false → 0 ≤ fine (atTime s t4).cairn.count s.cairn.frac + offset →
        fine (atTime s t4).cairn.count s.cairn.frac + offset < 2 ^ 72 →
        fine c.count c.frac = fine (atTime s t4).cairn.count s.cairn.frac + offset)
      ∧ c.good = (if offset.natAbs < 256 then min (s.cairn.good + 1) 16 else 0) ∧ (c.good = 16 → c.locked = true)
      ∧ c.ppsSeen = bitOf (leAt payload 35 1) 1 := by
  intro offset c
  let v : State := { s with cairn := correctedCairn s payload offset t4 }
  obtain ⟨ht1, hgood, hlocked, hnot, hpps, hready, hstep⟩ := correctedCairn_spec s payload offset t4
  obtain ⟨hfab, hcfg⟩ := countExchange_frame v offset
  have hcount := countExchange_cairn v offset
  have hparent : timeParent (countExchange v offset) = timeParent s := by
    rw [timeParent, timeLinks_congr (s := s) hcfg (linkStateAt_of_fab (by rw [hfab])), timeParent]
  have hc : c = { (countExchange v offset).cairn with
      holdover := (countExchange v offset).cairn.locked && (timeParent s).isNone
      parent := if (countExchange v offset).cairn.locked && (timeParent s).isNone then none else (countExchange v offset).cairn.parent } := by
    rw [← hparent, ← holdover_cairn (by rw [hcount]; exact hnot) (by rw [isRoot, hcfg]; exact hchild)]
    exact congrArg State.cairn (doTimeResponse_child h t4 t4frac hchild)
  rw [hc, hcount]
  refine ⟨rfl, ht1, rfl, hready, hstep, ?_, fun h16 => ?_, hpps⟩
  · show (if offset.natAbs < 256 then min (v.cairn.good + 1) 16 else 0) = _
    rw [show v.cairn.good = s.cairn.good from hgood]
  · dsimp only at h16 ⊢
    split at h16
    · next hnear => simp [hnear, show 16 ≤ v.cairn.good + 1 by omega]
    · exact absurd h16 (by decide)

section
variable {s : State} {l : Nat} {f : Frame} {k : Link} (hl : l < 24) (hk : linkAt s l = some k) (hup : k.state = .up) (hok : frameOk f = true)
  (htype : frType f = 3)
include hl hk hup hok htype

theorem exec_timeResponse (t4 t4frac : Nat) :
    exec (.timeResponse l f t4 t4frac) s = .next (pump (doTimeResponse (putLink s l (takeControl k f)) l f.payload t4 t4frac)) :=
  (if_pos (by simpa [linkOk] using hl)).trans (congrArg Host.Outcome.next (withTimeFrame_acts hk hup hok htype _))

theorem timeResponse_root {t1 : Nat × Nat} (h : Answers s l f.payload t1) (t4 t4frac : Nat) (hroot : isRoot s = true)
    (hlocked : bitOf (leAt f.payload 35 1) 0 = true) (hready : s.boot.ready = false) (hfirst : s.cairn.tookNeighbour = false) :
    let offset := exchangeOffset f.payload t1 t4 t4frac
    let c := (atTime s t4).cairn.count
    0 ≤ fine c s.cairn.frac + offset ∧ fine c s.cairn.frac + offset < 2 ^ 72 →
    ∃ t, exec (.timeResponse l f t4 t4frac) s = .next t ∧ t.cairn.t1 = none ∧ t.cairn.tookNeighbour = true
      ∧ fine t.cairn.count t.cairn.frac = fine c s.cairn.frac + offset ∧ t = { s with cairn := t.cairn, fab := t.fab, out := t.out } := by
  intro offset c ⟨hlow, hhigh⟩
  let u := putLink s l (takeControl k f)
  let v : State := { u with cairn := { stepCount (answeredCairn u t4) offset with tookNeighbour := true } }
  have hu : Answers u l f.payload t1 := ⟨h.asked, h.kind, h.exchange, h.parent⟩
  have hdo : doTimeResponse u l f.payload t4 t4frac = v := doTimeResponse_root hu t4 t4frac hroot hlocked hready hfirst
  have hpump := pump_egress v
  have hcairn : (pump v).cairn = v.cairn := by simp
  refine ⟨pump v, (exec_timeResponse hl hk hup hok htype t4 t4frac).trans (by rw [hdo]), ?_, ?_, ?_, ?_⟩
  · rw [hcairn]
    rfl
  · rw [hcairn]
  · rw [hcairn]
    exact fine_stepCount (c := answeredCairn u t4) hlow hhigh
  · rw [hcairn]
    exact hpump.frame

theorem timeResponse_child {t1 : Nat × Nat} (h : Answers s l f.payload t1) (t4 t4frac : Nat) (hchild : isRoot s = false) :
    let offset := exchangeOffset f.payload t1 t4 t4frac
    let c := (atTime s t4).cairn.count
    let steps := 0 ≤ fine c s.cairn.frac + offset ∧ fine c s.cairn.frac + offset < 2 ^ 72
    ∃ t, exec (.timeResponse l f t4 t4frac) s = .next t ∧ t.cairn.offset = offset ∧ t.cairn.t1 = none
      ∧ t.cairn.holdover = (t.cairn.locked && (timeParent s).isNone)
      ∧ (s.boot.ready = true → t.cairn.slew = offset ∧ t.cairn.count = c ∧ t.cairn.frac = s.cairn.frac)
      ∧ (s.boot.ready = false → steps → fine t.cairn.count t.cairn.frac = fine c s.cairn.frac + offset)
      ∧ t.cairn.good = (if offset.natAbs < 256 then min (s.cairn.good + 1) 16 else 0)
      ∧ (t.cairn.good = 16 → t.cairn.locked = true)
      ∧ t.cairn.ppsSeen = bitOf (leAt f.payload 35 1) 1 := by
  intro offset c steps
  let u := putLink s l (takeControl k f)
  have hu : Answers u l f.payload t1 := ⟨h.asked, h.kind, h.exchange, h.parent⟩
  obtain ⟨hoffset, ht1, hhold, hready, hstep, hrest⟩ := doTimeResponse_child_cairn hu t4 t4frac hchild
  have hparent : timeParent u = timeParent s := by
    rw [timeParent, timeLinks_takeControl hk, timeParent]
  have hcairn : (pump (doTimeResponse u l f.payload t4 t4frac)).cairn = (doTimeResponse u l f.payload t4 t4frac).cairn := by simp
  refine ⟨_, exec_timeResponse hl hk hup hok htype t4 t4frac, ?_⟩
  rw [hcairn]
  refine ⟨hoffset, ht1, ?_, hready, fun hnot hsteps => hstep hnot hsteps.1 hsteps.2, hrest⟩
  rw [← hparent]
  exact hhold

end

/-! ### The pulse input (R405) -/

theorem ppsEdge_steps {s : State} (hroot : isRoot s = true) (hpps : s.cfg.any (·.ppsUsed) = true) (hfirst : s.cairn.steppedPps = false)
    (hready : s.boot.ready = false) (hbound : s.cairn.count + 1000000000 < 2 ^ 64) :
    ∃ t, exec .ppsEdge s = .next t ∧ t.cairn.count % 1000000000 = 0 ∧ s.cairn.count < t.cairn.count
      ∧ t.cairn.count ≤ s.cairn.count + 1000000000 ∧ t.cairn.frac = 0 ∧ t.cairn.ppsSeen = true ∧ t = { s with cairn := t.cairn } := by
  have hcount : count64 ((s.cairn.count / 1000000000 + 1) * 1000000000) = (s.cairn.count / 1000000000 + 1) * 1000000000 :=
    Nat.mod_eq_of_lt (by omega)
  have hdo : doPpsEdge s = { s with cairn := { s.cairn with
      count := count64 ((s.cairn.count / 1000000000 + 1) * 1000000000), frac := 0, steppedPps := true, ppsSeen := true } } := by
    unfold doPpsEdge
    rw [if_pos ⟨hroot, hpps⟩, if_pos ⟨hfirst, hready⟩]
  refine ⟨_, congrArg Host.Outcome.next hdo, ?_, ?_, ?_, rfl, rfl, rfl⟩
  · dsimp only
    rw [hcount]
    omega
  · dsimp only
    rw [hcount]
    omega
  · dsimp only
    rw [hcount]
    omega

theorem ppsEdge_disciplines {s : State} (hroot : isRoot s = true) (hpps : s.cfg.any (·.ppsUsed) = true)
    (h : s.cairn.steppedPps = true ∨ s.boot.ready = true) :
    exec .ppsEdge s = .next { s with cairn := { s.cairn with slew := secondOffset s.cairn, ppsSeen := true } } := by
  refine congrArg Host.Outcome.next ?_
  unfold doPpsEdge
  rw [if_pos ⟨hroot, hpps⟩, if_neg (by rcases h with h | h <;> simp [h])]

theorem ppsEdge_ignored {s : State} (h : isRoot s = false ∨ s.cfg.any (·.ppsUsed) = false) : exec .ppsEdge s = .next s := by
  refine congrArg Host.Outcome.next ?_
  exact if_neg (by rcases h with h | h <;> simp [h])

/-- Settles O47: requests and answers are frames without data whose payload fields read back; a response steps or slews the count, and what is sent
afterwards leaves the clock. -/
theorem timeExchangesCorrectTheCount : Obligations.TimeExchangesCorrectTheCount := by
  refine ⟨fun s now l => timeRequest_asks, fun s l f k hl hk hup => ⟨fun hbad => ?_, fun hok htype => ⟨?_, ?_⟩⟩, fun s hroot hpps =>
    ⟨ppsEdge_steps hroot hpps, ppsEdge_disciplines hroot hpps⟩, fun s => ppsEdge_ignored⟩
  · exact ⟨fun a b c d => (if_pos (by simpa [linkOk] using hl)).trans (congrArg Host.Outcome.next (withTimeFrame_bad hbad _)),
      fun a b => (if_pos (by simpa [linkOk] using hl)).trans (congrArg Host.Outcome.next (withTimeFrame_bad hbad _))⟩
  · exact timeRequestReceived_answers hl hk hup hok htype
  · intro t4 t4frac t1 hasked hkind hexchange hparent
    have h : Answers s l f.payload t1 := ⟨hasked, hkind, hexchange, hparent⟩
    exact ⟨fun hroot hlocked hready hfirst => timeResponse_root hl hk hup hok htype h t4 t4frac hroot hlocked hready hfirst,
      fun hchild => timeResponse_child hl hk hup hok htype h t4 t4frac hchild⟩

end Sys2Proof.Machine
end

section
/-! PROOF. O49: the SPDM responder answers every request over a reachable transport with one message (R447). -/

namespace Sys2Proof.Machine

/-! ### The four kinds of answers -/

/-- The state in which the responder has drawn the bytes that the standard leaves free, and its bytes. -/
def spdmDrawn (s : State) : State := (drawBytes s 256).2
/-- The free bytes of an answer. -/
def spdmFree (s : State) : List Byte := (drawBytes s 256).1

/-- Answers of the responder: the code asks for the version, for a part of the negotiation, for what follows it, or for nothing that is due. -/
inductive SpdmAnswer (s : State) (q : SpdmRequest) : State → List Byte → Prop
  | version (h : q.code = 0x84) :
    SpdmAnswer s q { spdmDrawn s with ranger := { s.ranger with spdmVersion := true, spdmAlgorithms := false } }
      (leBytes 1 0x10 ++ leBytes 1 0x04 ++ leBytes 2 0 ++ spdmFree s)
  | negotiation (hversion : s.ranger.spdmVersion = true) (h : q.code = 0xE1 ∨ q.code = 0xE3) :
    SpdmAnswer s q { spdmDrawn s with ranger := { s.ranger with spdmAlgorithms := s.ranger.spdmAlgorithms || decide (q.code = 0xE3) } }
      (spdmMessage (q.code - 0x80) 0 0 (if q.code = 0xE3 then spdmAlgorithmBody else spdmFree s))
  | body (halgorithms : s.ranger.spdmAlgorithms = true) (h : spdmAfterAlgorithms q.code = true) :
    SpdmAnswer s q (spdmDrawn s) (spdmMessage (q.code - 0x80) q.param1 q.param2 (spdmBody s q (spdmFree s)))
  | error (code : Nat) (hversion : q.code ≠ 0x84) (hnegotiation : s.ranger.spdmVersion = true → q.code ≠ 0xE3)
      (hbody : s.ranger.spdmAlgorithms = true → spdmAfterAlgorithms q.code = false) :
    SpdmAnswer s q s (spdmMessage 0x7F code 0 [])

/-- A request that reaches the responder is answered with one message. -/
theorem doSpdm_answers {s : State} {q : SpdmRequest} (h : spdmReachable s q.transport = true) :
    ∃ u bytes, doSpdm s q = send u (.spdm q.transport bytes) ∧ SpdmAnswer s q u bytes := by
  unfold doSpdm
  rw [if_neg (by simp [h])]
  dsimp only
  split
  · next hversion => exact ⟨_, _, rfl, .version hversion⟩
  · next hversion =>
    split
    · next hnegotiation => exact ⟨_, _, rfl, .negotiation hnegotiation.1 hnegotiation.2⟩
    · next hnegotiation =>
      split
      · next hbody => exact ⟨_, _, rfl, .body hbody.1 hbody.2⟩
      · next hbody =>
        exact ⟨_, _, rfl, .error _ hversion (fun hv he => hnegotiation ⟨hv, .inr he⟩) fun ha => by
          rw [← Bool.not_eq_true]
          exact fun hcode => hbody ⟨ha, hcode⟩⟩

/-! ### What the answers hold -/

@[simp] theorem drop_spdmMessage (code p1 p2 : Nat) (body : List Byte) : (spdmMessage code p1 p2 body).drop 4 = body := by
  have hhead : (leBytes 1 0x13 ++ leBytes 1 code ++ leBytes 1 p1 ++ leBytes 1 p2).length = 4 := by simp
  rw [spdmMessage, ← hhead, List.drop_left]

/-- An answer touches the responder's state and the free values alone, and is then sent. -/
theorem SpdmAnswer.send_frame {s u : State} {q : SpdmRequest} {bytes : List Byte} (h : SpdmAnswer s q u bytes) (o : Output) :
    send u o = { s with ranger := (send u o).ranger, out := (send u o).out, freeCtr := (send u o).freeCtr } := by
  cases h <;> rfl

theorem SpdmAnswer.out_eq {s u : State} {q : SpdmRequest} {bytes : List Byte} (h : SpdmAnswer s q u bytes) : u.out = s.out := by
  cases h <;> rfl

theorem SpdmAnswer.of_version {s u : State} {q : SpdmRequest} {bytes : List Byte} (h : SpdmAnswer s q u bytes) (hcode : q.code = 0x84) :
    u.ranger.spdmVersion = true ∧ u.ranger.spdmAlgorithms = false := by
  cases h with
  | version => exact ⟨rfl, rfl⟩
  | negotiation _ h => omega
  | body _ h => simp [spdmAfterAlgorithms, hcode] at h
  | error _ h => exact absurd hcode h

/-- The negotiation of the algorithms, once the version has been asked for. -/
theorem SpdmAnswer.of_algorithms {s u : State} {q : SpdmRequest} {bytes : List Byte} (h : SpdmAnswer s q u bytes) (hcode : q.code = 0xE3)
    (hversion : s.ranger.spdmVersion = true) : u.ranger.spdmAlgorithms = true ∧ bytes.drop 4 = spdmAlgorithmBody := by
  cases h with
  | version h => omega
  | negotiation => simp [hcode]
  | body _ h => simp [spdmAfterAlgorithms, hcode] at h
  | error _ _ h => exact absurd hcode (h hversion)

/-- After the negotiation a supported request is answered with its body. -/
theorem SpdmAnswer.of_body {s u : State} {q : SpdmRequest} {bytes : List Byte} (h : SpdmAnswer s q u bytes)
    (halgorithms : s.ranger.spdmAlgorithms = true) (hcode : spdmAfterAlgorithms q.code = true) : bytes.drop 4 = spdmBody s q (spdmFree s) := by
  cases h with
  | version h => simp [spdmAfterAlgorithms, h] at hcode
  | negotiation _ h => rcases h with h | h <;> simp [spdmAfterAlgorithms, h] at hcode
  | body => rw [drop_spdmMessage]
  | error _ _ _ h => rw [h halgorithms] at hcode; exact nomatch hcode

/-- Before the version and the negotiation every other request is answered with ERROR, and changes nothing. -/
theorem SpdmAnswer.of_early {s u : State} {q : SpdmRequest} {bytes : List Byte} (h : SpdmAnswer s q u bytes) (hcode : q.code ≠ 0x84)
    (hversion : s.ranger.spdmVersion = false) (halgorithms : s.ranger.spdmAlgorithms = false) : u = s ∧ leAt bytes 1 1 = 0x7F := by
  cases h with
  | version h => exact absurd h hcode
  | negotiation h => rw [hversion] at h; exact nomatch h
  | body h => rw [halgorithms] at h; exact nomatch h
  | error code =>
    refine ⟨rfl, ?_⟩
    have h := leAt_append (leBytes 1 0x13) (leBytes 1 code ++ (leBytes 1 0 ++ [])) 1 0x7F
    simpa [spdmMessage] using h

/-- A measurement that the request names begins the body, signed or not. -/
theorem spdmBody_measurement {s : State} {q : SpdmRequest} (hcode : q.code = 0xE0) (hsome : q.param2 ≠ 0) (hone : q.param2 ≠ 0xFF) {m : List Byte}
    (hm : (measurements s)[q.param2 - 1]? = some m) (free : List Byte) : m <+: spdmBody s q free := by
  have hget : (measurements s).getD (q.param2 - 1) [] = m := by rw [List.getD_eq_getElem?_getD, hm, Option.getD_some]
  unfold spdmBody
  rw [if_neg (by omega), if_neg (by omega), if_neg (by omega), if_pos hcode, if_neg hsome, if_neg hone, hget]
  dsimp only
  split
  · rw [spdmSigned, List.append_assoc]
    exact List.prefix_append _ _
  · exact List.prefix_append _ _

/-- Settles O49: every request that reaches the responder has one of the four answers of `SpdmAnswer`. -/
theorem spdmRequestsAreAnswered : Obligations.SpdmRequestsAreAnswered := by
  intro s q hreach
  obtain ⟨u, bytes, hdo, h⟩ := doSpdm_answers hreach
  refine ⟨_, bytes, congrArg Host.Outcome.next hdo, congrArg (· ++ [Output.spdm q.transport bytes]) h.out_eq, ?_, fun hcode => h.of_version hcode,
    fun hcode hversion => (h.of_algorithms hcode hversion).1, fun ha hcode => ?_, fun ha hcode => ?_,
    fun hversion hcode => (h.of_algorithms hcode hversion).2, fun m ha hcode hsome hone hm => ?_, fun hcode hversion ha => ?_⟩
  · exact h.send_frame _
  · rw [h.of_body ha (by simp [spdmAfterAlgorithms, hcode])]
    simp [spdmBody, hcode]
  · rw [h.of_body ha (by simp [spdmAfterAlgorithms, hcode])]
    simp [spdmBody, hcode]
  · rw [h.of_body ha (by simp [spdmAfterAlgorithms, hcode])]
    exact spdmBody_measurement hcode hsome hone hm _
  · obtain ⟨rfl, herror⟩ := h.of_early hcode hversion ha
    exact ⟨rfl, herror⟩

end Sys2Proof.Machine
end

section
/-! SUPPORT. What messages to other modules and records leave of the state (R437, R450, R461): a message changes the fabric, the outputs and the free
values alone, and a record leaves the images of the NOR. -/

namespace Sys2Proof.Machine

/-- Two states differ in the fabric, the outputs and the free values alone. -/
def SentOnly (s t : State) : Prop := t = { s with fab := t.fab, out := t.out, freeCtr := t.freeCtr }

theorem SentOnly.refl (s : State) : SentOnly s s := rfl

theorem SentOnly.trans {s t u : State} (h₁ : SentOnly s t) (h₂ : SentOnly t u) : SentOnly s u :=
  Eq.trans h₂ (congrArg (fun x : State => { x with fab := u.fab, out := u.out, freeCtr := u.freeCtr }) h₁)

theorem Egress.sentOnly {s t : State} (h : Egress s t) : SentOnly s t := by
  have hfree : t.freeCtr = s.freeCtr := by rw [h.frame]
  rw [SentOnly, hfree]
  exact h.frame

theorem sendPackets_sentOnly (s : State) (port : Nat) (pkts : List (List Byte)) : SentOnly s (sendPackets s port pkts) :=
  SentOnly.trans (t := queued s port pkts) rfl (sendPackets_egress s port pkts).sentOnly

theorem sendPeer_sentOnly (s : State) (r : PitchRecord) (device : Nat) (msg : List Byte) : SentOnly s (sendPeer s r device msg) :=
  SentOnly.trans (t := (drawNat (drawBytes s 256).2).2) rfl (sendPackets_sentOnly _ _ _)

/-! ### Images of the NOR -/

theorem appendCritical_nvm (s : State) (e : EventRec) :
    (appendCritical s e).nvm = { s.nvm with sectors := (appendCritical s e).nvm.sectors } := by
  unfold appendCritical
  dsimp only
  split
  · rfl
  · split <;> rfl

theorem raiseInterrupt_nvm (s : State) (fn vector : Nat) : (raiseInterrupt s fn vector).nvm = s.nvm := by
  rw [raiseInterrupt_hostOnly s fn vector]

/-- A record leaves everything in the NOR but the sectors of the ring. -/
theorem writeEvent_nvm (s : State) (source cls code pitch : Nat) (detail : List Byte) :
    (writeEvent s source cls code pitch detail).nvm = { s.nvm with sectors := (writeEvent s source cls code pitch detail).nvm.sectors } := by
  unfold writeEvent
  extract_lets e ev s₁ s₂ pf
  have hlog : s₂.nvm = { s.nvm with sectors := s₂.nvm.sectors } := by
    unfold s₂
    split
    · exact appendCritical_nvm s₁ e
    · rfl
  split
  · rw [raiseInterrupt_nvm]
    exact hlog
  · exact hlog

theorem rangerEvent_nvm (s : State) (cls code pitch : Nat) (detail : List Byte) :
    (rangerEvent s cls code pitch detail).nvm = { s.nvm with sectors := (rangerEvent s cls code pitch detail).nvm.sectors } :=
  writeEvent_nvm _ _ _ _ _ _

/-- The digest of the firmware that runs is that of the image in its slot. -/
theorem firmwareDigest_congr {s t : State} (hboot : t.boot.slot = s.boot.slot) (ha : t.nvm.fwA = s.nvm.fwA) (hb : t.nvm.fwB = s.nvm.fwB) :
    firmwareDigest t = firmwareDigest s := by
  have hslot : fwSlot t.nvm t.boot.slot = fwSlot s.nvm s.boot.slot := by rw [fwSlot, fwSlot, hboot, ha, hb]
  rw [firmwareDigest, activeImage, hslot, firmwareDigest, activeImage]

theorem firmwareDigest_rangerEvent (s : State) (cls code pitch : Nat) (detail : List Byte) :
    firmwareDigest (rangerEvent s cls code pitch detail) = firmwareDigest s :=
  firmwareDigest_congr (by simp) (by rw [rangerEvent_nvm]) (by rw [rangerEvent_nvm])

theorem SentOnly.firmwareDigest {s t : State} (h : SentOnly s t) : firmwareDigest t = Machine.firmwareDigest s := by
  rw [h]
  rfl

end Sys2Proof.Machine
end

section
/-! PROOF. O59: groups whose members agree join (R435, R437, R438). -/

namespace Sys2Proof.Machine

/-! ### Messages of a join -/

theorem sendDigest_sentOnly (r : PitchRecord) (ds : List Nat) (s : State) : SentOnly s (sendDigest r ds s) := by
  induction ds generalizing s with
  | nil => exact .refl s
  | cons d ds ih => exact (sendPeer_sentOnly s r d _).trans (ih _)

theorem sendDigests_sentOnly (rs : List PitchRecord) (s : State) : SentOnly s (sendDigests rs s) := by
  induction rs generalizing s with
  | nil => exact .refl s
  | cons r rs ih =>
    rw [sendDigests]
    refine SentOnly.trans ?_ (ih _)
    split
    · exact sendDigest_sentOnly _ _ _
    · exact .refl s

theorem nameTime_sentOnly (r : PitchRecord) (time : Nat) (ds : List Nat) (s : State) : SentOnly s (nameTime r time ds s) := by
  induction ds generalizing s with
  | nil => exact .refl s
  | cons d ds ih => exact (sendPeer_sentOnly s r d _).trans (ih _)

/-! ### One pitch of a join (R437) -/

/-- The join of one pitch. -/
def joinOne (answers : NMap (List MemberAnswer)) (r : PitchRecord) (s : State) : State :=
  if r.enabled then
    match mismatchOf s r (mgetD answers r.pitch []) with
    | none => onPitch s r.pitch fun x => { x with enabled := true, groupDisabled := joinsLate (mgetD answers r.pitch []) }
    | some d =>
      rangerEvent (onPitch s r.pitch fun x => { x with enabled := true, groupDisabled := true }) 0x0B 0x0B09 r.pitch
        (bootDetail s.boot.release s.boot.slot 0 0 d r.group.pitchGroup)
  else s

theorem joinPitches_cons (answers : NMap (List MemberAnswer)) (r : PitchRecord) (rs : List PitchRecord) (s : State) :
    joinPitches answers (r :: rs) s = joinPitches answers rs (joinOne answers r s) := rfl

theorem pitchOf_rangerEvent (s : State) (cls code pitch : Nat) (detail : List Byte) (p : Nat) :
    pitchOf (rangerEvent s cls code pitch detail) p = pitchOf s p := pitchOf_of_pitches (by simp) p

/-- A pitch that joins is enabled, and its group is disabled over a mismatch or until the others join (R437, R438). -/
theorem pitchOf_joinOne (answers : NMap (List MemberAnswer)) {r : PitchRecord} (s : State) (h : r.enabled = true) :
    pitchOf (joinOne answers r s) r.pitch = { pitchOf s r.pitch with
      enabled := true, groupDisabled := (mismatchOf s r (mgetD answers r.pitch [])).isSome || joinsLate (mgetD answers r.pitch []) } := by
  unfold joinOne
  rw [if_pos h]
  cases mismatchOf s r (mgetD answers r.pitch []) with
  | none => exact pitchOf_onPitch _ _ _
  | some d =>
    dsimp only
    rw [pitchOf_rangerEvent, pitchOf_onPitch]
    rfl

theorem pitchOf_joinOne_ne (answers : NMap (List MemberAnswer)) (r : PitchRecord) (s : State) {p : Nat} (hp : p ≠ r.pitch) :
    pitchOf (joinOne answers r s) p = pitchOf s p := by
  unfold joinOne
  split
  · split
    · exact pitchOf_onPitch_ne _ _ hp
    · rw [pitchOf_rangerEvent, pitchOf_onPitch_ne _ _ hp]
  · rfl

/-- The join of a pitch leaves the memory, the clock and the firmware. -/
theorem joinOne_frame (answers : NMap (List MemberAnswer)) (r : PitchRecord) (s : State) :
    (joinOne answers r s).mem = s.mem ∧ (joinOne answers r s).cairn = s.cairn ∧ firmwareDigest (joinOne answers r s) = firmwareDigest s := by
  unfold joinOne
  split
  · split
    · exact ⟨rfl, rfl, rfl⟩
    · rw [firmwareDigest_rangerEvent]
      simp only [rangerEvent_keeps]
      exact ⟨rfl, rfl, rfl⟩
  · exact ⟨rfl, rfl, rfl⟩

theorem mismatchOf_congr {s t : State} (h : firmwareDigest t = firmwareDigest s) (r : PitchRecord) (l : List MemberAnswer) :
    mismatchOf t r l = mismatchOf s r l := by
  rw [mismatchOf, h, mismatchOf]

/-! ### All pitches of a join -/

theorem joinPitches_frame (answers : NMap (List MemberAnswer)) (rs : List PitchRecord) (s : State) :
    (joinPitches answers rs s).mem = s.mem ∧ (joinPitches answers rs s).cairn = s.cairn := by
  induction rs generalizing s with
  | nil => exact ⟨rfl, rfl⟩
  | cons r rs ih =>
    obtain ⟨hmem, hcairn⟩ := ih (joinOne answers r s)
    obtain ⟨hmem1, hcairn1, -⟩ := joinOne_frame answers r s
    exact ⟨hmem.trans hmem1, hcairn.trans hcairn1⟩

theorem pitchOf_joinPitches_ne (answers : NMap (List MemberAnswer)) (rs : List PitchRecord) (s : State) {p : Nat}
    (hp : p ∉ rs.map (·.pitch)) : pitchOf (joinPitches answers rs s) p = pitchOf s p := by
  induction rs generalizing s with
  | nil => rfl
  | cons r rs ih =>
    rw [List.map_cons, List.mem_cons, not_or] at hp
    rw [joinPitches_cons, ih _ hp.2, pitchOf_joinOne_ne answers r s hp.1]

/-- Each enabled pitch of a join is that of its own join, for no two records name one pitch. -/
theorem pitchOf_joinPitches (answers : NMap (List MemberAnswer)) {rs : List PitchRecord} (s : State) (hnodup : (rs.map (·.pitch)).Nodup)
    {r : PitchRecord} (hr : r ∈ rs) (h : r.enabled = true) :
    pitchOf (joinPitches answers rs s) r.pitch = { pitchOf s r.pitch with
      enabled := true, groupDisabled := (mismatchOf s r (mgetD answers r.pitch [])).isSome || joinsLate (mgetD answers r.pitch []) } := by
  induction rs generalizing s with
  | nil => exact absurd hr List.not_mem_nil
  | cons a rs ih =>
    rw [List.map_cons, List.nodup_cons] at hnodup
    rw [joinPitches_cons]
    rcases List.mem_cons.1 hr with rfl | hin
    · rw [pitchOf_joinPitches_ne answers rs _ hnodup.1, pitchOf_joinOne answers s h]
    · have hne : r.pitch ≠ a.pitch := fun he => hnodup.1 (he ▸ List.mem_map_of_mem hin)
      rw [ih _ hnodup.2 hin, pitchOf_joinOne_ne answers a s hne, mismatchOf_congr (joinOne_frame answers a s).2.2]

/-! ### The rows -/

theorem groupJoin_ready {s : State} {now : Nat} {answers : NMap (List MemberAnswer)} {c : Configuration} (hcfg : s.cfg = some c)
    (hphase : s.boot.phase = 11) (htime : timeSettled s c = true) (hnodup : (c.pitches.map (·.pitch)).Nodup) :
    ∃ t, exec (.groupJoin now answers) s = .next t ∧ t.boot.phase = 12 ∧ t.boot.ready = true ∧ t.boot.readyAt = some (atTime s now).cairn.count
      ∧ t.mem = s.mem
      ∧ ∀ r ∈ c.pitches, r.enabled = true → pitchOf t r.pitch = { pitchOf s r.pitch with
          enabled := true, groupDisabled := (mismatchOf s r (mgetD answers r.pitch [])).isSome || joinsLate (mgetD answers r.pitch []) } := by
  let s1 := sendDigests c.pitches (atTime s now)
  let s2 := joinPitches answers c.pitches s1
  have hsent : SentOnly (atTime s now) s1 := sendDigests_sentOnly _ _
  obtain ⟨hmem, hcairn⟩ := joinPitches_frame answers c.pitches s1
  have hrow : exec (.groupJoin now answers) s
      = .next { s2 with boot := { s2.boot with phase := 12, ready := true, readyAt := some s2.cairn.count } } := by
    show execGroupJoin now answers s = _
    rw [execGroupJoin, hcfg]
    exact if_pos ⟨hphase, htime⟩
  refine ⟨_, hrow, rfl, rfl, ?_, ?_, fun r hr henabled => ?_⟩
  · show some s2.cairn.count = _
    rw [hcairn, hsent]
  · show s2.mem = s.mem
    rw [hmem, hsent]
    rfl
  · show pitchOf s2 r.pitch = _
    have hpitch : pitchOf s1 r.pitch = pitchOf s r.pitch := by
      rw [hsent]
      rfl
    have hdigest : firmwareDigest s1 = firmwareDigest s := hsent.firmwareDigest
    rw [pitchOf_joinPitches answers s1 hnodup hr henabled, hpitch, mismatchOf_congr hdigest]

theorem groupDigestRetry_agrees {s : State} {pitch joinTime : Nat} {answers : List MemberAnswer} {r : PitchRecord} (hpitch : pitch < 64)
    (hr : recordOf s pitch = some r) (hdisabled : (pitchOf s pitch).groupDisabled = true) :
    let agreed := allAgree s r answers = true ∧ s.cairn.count + 1000000000 ≤ joinTime
    ∃ t, exec (.groupDigestRetry pitch answers joinTime) s = .next t ∧ (∀ p, p ≠ pitch → pitchOf t p = pitchOf s p) ∧ t.mem = s.mem ∧ t.seqs = s.seqs
      ∧ (agreed → pitchOf t pitch = { pitchOf s pitch with joinAt := some joinTime }) ∧ (¬agreed → pitchOf t pitch = pitchOf s pitch) := by
  intro agreed
  obtain rfl := recordOf_pitch hr
  let s1 := sendDigest r (otherMembers r) s
  have hsent : SentOnly s s1 := sendDigest_sentOnly _ _ _
  have hagreed : (allAgree s1 r answers = true ∧ s1.cairn.count + 1000000000 ≤ joinTime) ↔ agreed := by
    have hdigest : firmwareDigest s1 = firmwareDigest s := hsent.firmwareDigest
    have hcairn : s1.cairn = s.cairn := by rw [hsent]
    rw [allAgree, hdigest, hcairn, ← allAgree]
  have hrow (t : State) (h : doDigestRetry s r answers joinTime = t) : exec (.groupDigestRetry r.pitch answers joinTime) s = .next t := by
    show execGroupDigestRetry r.pitch answers joinTime s = _
    rw [execGroupDigestRetry, if_pos (by simpa [pitchOk] using hpitch), hr]
    exact congrArg Host.Outcome.next h
  by_cases ha : agreed
  · let s2 := if r.group.groupPosition = 0 then nameTime r joinTime (otherMembers r) s1 else s1
    have hsent2 : SentOnly s s2 := by
      refine hsent.trans ?_
      unfold s2
      split
      · exact nameTime_sentOnly _ _ _ _
      · exact .refl _
    have hpitches (p : Nat) : pitchOf s2 p = pitchOf s p := by
      rw [hsent2]
      rfl
    have hdo : doDigestRetry s r answers joinTime = onPitch s2 r.pitch fun x => { x with joinAt := some joinTime } := by
      unfold doDigestRetry
      rw [if_pos hdisabled]
      exact if_pos (hagreed.2 ha)
    refine ⟨_, hrow _ hdo, fun p hp => (pitchOf_onPitch_ne _ _ hp).trans (hpitches p), ?_, ?_, fun _ => ?_, fun h => absurd ha h⟩
    · show s2.mem = s.mem
      rw [hsent2]
    · show s2.seqs = s.seqs
      rw [hsent2]
    · rw [pitchOf_onPitch, hpitches]
  · have hdo : doDigestRetry s r answers joinTime = s1 := by
      unfold doDigestRetry
      rw [if_pos hdisabled]
      exact if_neg fun h => ha (hagreed.1 h)
    have hpitches (p : Nat) : pitchOf s1 p = pitchOf s p := by
      rw [hsent]
      rfl
    refine ⟨s1, hrow _ hdo, fun p _ => hpitches p, ?_, ?_, fun h => absurd h ha, fun _ => hpitches _⟩
    · rw [hsent]
    · rw [hsent]

theorem groupJoined_works {s : State} {pitch now t0 : Nat} {r : PitchRecord} (hpitch : pitch < 64) (hr : recordOf s pitch = some r)
    (hjoin : (pitchOf s pitch).joinAt = some t0) (hdue : t0 ≤ (atTime s now).cairn.count) :
    ∃ t, exec (.groupJoined pitch now) s = .next t ∧ pitchOf t pitch = { pitchOf s pitch with groupDisabled := false, joinAt := none }
      ∧ (∀ p, p ≠ pitch → pitchOf t p = pitchOf s p) ∧ t.ev.written = (s.ev.written + 1) % 2 ^ 32 ∧ t.mem = s.mem := by
  obtain rfl := recordOf_pitch hr
  have hjoin0 : (pitchOf (atTime s now) r.pitch).joinAt = some t0 := hjoin
  obtain ⟨detail, hdo⟩ : ∃ detail, doGroupJoined (atTime s now) r
      = rangerEvent (onPitch (atTime s now) r.pitch fun x => { x with groupDisabled := false, joinAt := none }) 0x0B 0x0B0A r.pitch detail := by
    unfold doGroupJoined
    rw [hjoin0]
    exact ⟨_, if_neg (Nat.not_lt.2 hdue)⟩
  have hrow : exec (.groupJoined r.pitch now) s = .next (doGroupJoined (atTime s now) r) := by
    show execGroupJoined r.pitch now s = _
    rw [execGroupJoined, if_pos (by simpa [pitchOk] using hpitch), hr]
  refine ⟨_, hrow.trans (congrArg Host.Outcome.next hdo), ?_, fun p hp => ?_, ?_, ?_⟩
  · rw [pitchOf_rangerEvent, pitchOf_onPitch]
    rfl
  · rw [pitchOf_rangerEvent, pitchOf_onPitch_ne _ _ hp]
    rfl
  · rw [rangerEvent_written]
    rfl
  · simp only [rangerEvent_keeps]
    rfl

/-- Settles O59: the digests that are sent leave the pitches, each pitch of a join is put by its own join (`joinOne`), and a later agreement and its time
put one pitch. -/
theorem groupsJoin : Obligations.GroupsJoin :=
  ⟨fun _ _ _ _ => groupJoin_ready, fun _ _ _ _ _ => groupDigestRetry_agrees, fun _ _ _ _ _ => groupJoined_works⟩

end Sys2Proof.Machine
end

section
/-! SUPPORT. The Ranger's own state (R446, R453) stays while steps are abandoned and run again. -/

namespace Sys2Proof.Machine

/-! ### Abandoning a step (R166, R210) -/

theorem freePages_ranger (p : Nat) (l : List Nat) (s : State) : (freePages p l s).ranger = s.ranger := by
  induction l generalizing s with
  | nil => rfl
  | cons n l ih => rw [freePages, ih, ranger_of_stepPart (stepPart_freePage s p n)]

theorem discardAll_ranger (is : List Nat) (s : State) : (discardAll is s).ranger = s.ranger := by
  induction is generalizing s with
  | nil => rfl
  | cons i is ih =>
    rw [discardAll, ih]
    exact freePages_ranger _ _ s

theorem abandonStep_ranger (s : State) (p : Nat) : (abandonStep s p).ranger = s.ranger := by
  show (freeLists p _ (discardAll _ (closeEpochs (stopCamps s p) p))).ranger = s.ranger
  rw [ranger_of_stepPart (stepPart_freeLists _ p _), discardAll_ranger]
  rfl

/-! ### Repairs (R457, R459) -/

theorem writeEvent_ranger (s : State) (source cls code pitch : Nat) (detail : List Byte) :
    (writeEvent s source cls code pitch detail).ranger = s.ranger := ranger_of_stepPart (stepPart_writeEvent s _ _ _ _ _)

theorem residueEvent_ranger (s : State) (camp core p code : Nat) (m : Mismatch) (spares : Nat) :
    (residueEvent s camp core p code m spares).ranger = s.ranger := writeEvent_ranger _ _ _ _ _ _

theorem retireLanes_ranger (camp core p : Nat) (l : List Mismatch) (s : State) : (retireLanes camp core p l s).ranger = s.ranger := by
  induction l generalizing s with
  | nil => rfl
  | cons m l ih =>
    rw [retireLanes, ih, residueEvent_ranger]
    rfl

theorem refillSlots_ranger (r : PitchRecord) (rel : Nat) (xs : NMap Slot) (s : State) : (refillSlots r rel xs s).ranger = s.ranger := by
  induction xs generalizing s with
  | nil => rfl
  | cons x xs ih =>
    rw [refillSlots, ih]
    split <;> rfl

theorem fenceOne_ranger (s : State) (camp core : Nat) : (fenceOne s camp core).ranger = s.ranger := by
  unfold fenceOne
  dsimp only
  split
  · rfl
  · split
    · rw [writeEvent_ranger, refillSlots_ranger]
      exact writeEvent_ranger _ _ _ _ _ _
    · split
      · exact writeEvent_ranger _ _ _ _ _ _
      · rw [ranger_of_stepPart (stepPart_deviceParks _ _ _), writeEvent_ranger]
        exact writeEvent_ranger _ _ _ _ _ _

theorem loseCore_ranger (s : State) (camp core p : Nat) (m : Mismatch) : (loseCore s camp core p m).ranger = s.ranger := by
  unfold loseCore
  split
  · rfl
  · rw [fenceOne_ranger]
    exact residueEvent_ranger _ _ _ _ _ _ _

theorem makeRepair_ranger (s : State) (p : Nat) (d : Repair) : (makeRepair s p d).ranger = s.ranger := by
  cases d with
  | block da => rfl
  | core camp core m => exact loseCore_ranger _ _ _ _ _
  | lane camp core m =>
    rw [makeRepair]
    split
    · rfl
    · split
      · exact loseCore_ranger _ _ _ _ _
      · exact retireLanes_ranger _ _ _ _ _

theorem makeRepairs_ranger (p : Nat) (ds : List Repair) (s : State) : (makeRepairs p ds s).ranger = s.ranger := by
  induction ds generalizing s with
  | nil => rfl
  | cons d ds ih => rw [makeRepairs, ih, makeRepair_ranger]

theorem rerunStep_ranger (s : State) (p : Nat) : (rerunStep s p).ranger = s.ranger := by
  unfold rerunStep repairNow
  rw [makeRepairs_ranger]
  exact abandonStep_ranger s p

theorem rerunAll_ranger (ps : List Nat) (s : State) : (rerunAll ps s).ranger = s.ranger := by
  induction ps generalizing s with
  | nil => rfl
  | cons p ps ih =>
    rw [rerunAll, ih]
    split
    · rfl
    · exact rerunStep_ranger s p

/-- Where no pitch has rows, no step runs again. -/
theorem rerunAll_of_no_rows {s : State} (h : ∀ p, (pitchOf s p).batch = []) (ps : List Nat) : rerunAll ps s = s := by
  induction ps with
  | nil => rfl
  | cons p ps ih => rw [rerunAll, if_pos (h p), ih]

end Sys2Proof.Machine
end

section
/-! PROOF. O53: freed ranges are zeroed (R374), lockstep mismatches are noted (R453), and full sectors give way (R461 to R463). -/

namespace Sys2Proof.Machine

/-! ### Freed ranges (R374) -/

theorem freedRangeScrubbed_zeroes {s : State} {i : Nat} {x : ScrubRange} (h : s.mem.scrub[i]? = some x) :
    ∃ t, exec (.freedRangeScrubbed i) s = .next t ∧ t.mem.scrub = s.mem.scrub.eraseIdx i
      ∧ (∀ a, x.da ≤ a → a < x.da + x.length → rdByte t.mem.bytes a = 0#8) ∧ MemoryElsewhere s t x.da x.length ∧ t = { s with mem := t.mem } := by
  have hrow : exec (.freedRangeScrubbed i) s
      = .next { s with mem := { s.mem with bytes := zeroRange s.mem.bytes x.da x.length, scrub := s.mem.scrub.eraseIdx i } } := by
    show execFreedRangeScrubbed i s = _
    rw [execFreedRangeScrubbed, h]
  refine ⟨_, hrow, rfl, fun a hlow hhigh => ?_, fun a ha => ?_, rfl⟩
  · exact (rdByte_zeroRange _ _ _ _).trans (if_pos ⟨hlow, hhigh⟩)
  · exact (rdByte_zeroRange _ _ _ _).trans (if_neg (by omega))

/-! ### Lockstep (R453) -/

/-- The record of a pair whose cores disagree. -/
def lockstepRecord (s : State) (pair : Nat) : State := rangerEvent s 0x01 0x0E0A noPitch (wearDetail 0 pair 0 0 0 0)

/-- A pair whose mismatch is noted goes back to its checkpoint. -/
def pairRestored (s : State) (pair : Nat) : State :=
  restorePair { lockstepRecord s pair with
    ranger := { (lockstepRecord s pair).ranger with pairMismatch := mset (lockstepRecord s pair).ranger.pairMismatch pair (second s) } } pair

theorem rangerLockstep_noted {s : State} {pair : Nat} {f : BootFindings} (hpair : pair < 4)
    (hfirst : mget s.ranger.pairMismatch pair ≠ some (second (atTime s f.now))) :
    ∃ t, exec (.rangerLockstep pair f) s = .next t ∧ mget t.ranger.pairMismatch pair = some (second (atTime s f.now))
      ∧ (let c := mgetD s.ranger.checkpoints pair ⟨0, false, false⟩; t.ranger.spdmVersion = c.spdmVersion ∧ t.ranger.spdmAlgorithms = c.spdmAlgorithms)
      ∧ ((∀ p ∈ s.pitches, p.2.batch = []) → t.pitches = s.pitches ∧ t.seqs = s.seqs ∧ t.mem = s.mem
          ∧ t.ev.written = (s.ev.written + 1) % 2 ^ 32) := by
  let u := pairRestored (atTime s f.now) pair
  have hdo : doLockstep (atTime s f.now) pair f = rerunAll (u.pitches.map (·.1)) u := if_neg hfirst
  have hranger0 : (lockstepRecord (atTime s f.now) pair).ranger = s.ranger := writeEvent_ranger _ _ _ _ _ _
  have hranger : (rerunAll (u.pitches.map (·.1)) u).ranger = u.ranger := rerunAll_ranger _ _
  refine ⟨_, (if_pos hpair).trans (congrArg Host.Outcome.next hdo), ?_, ?_, fun hempty => ?_⟩
  · rw [hranger]
    exact mget_mset_same _ _ _
  · rw [hranger]
    show (mgetD (lockstepRecord (atTime s f.now) pair).ranger.checkpoints pair ⟨0, false, false⟩).spdmVersion = _
      ∧ (mgetD (lockstepRecord (atTime s f.now) pair).ranger.checkpoints pair ⟨0, false, false⟩).spdmAlgorithms = _
    rw [hranger0]
    exact ⟨rfl, rfl⟩
  · have hpitches : u.pitches = s.pitches := by simp [u, pairRestored, restorePair, lockstepRecord]
    have hrows (p : Nat) : (pitchOf u p).batch = [] := by
      rw [pitchOf_of_pitches hpitches p, pitchOf, mgetD]
      cases hp : mget s.pitches p with
      | none => rfl
      | some x => exact hempty _ (mem_of_mget hp)
    rw [rerunAll_of_no_rows hrows]
    exact ⟨hpitches, by simp [u, pairRestored, restorePair, lockstepRecord], by simp [u, pairRestored, restorePair, lockstepRecord],
      rangerEvent_written _ _ _ _ _⟩

/-! ### The ring of critical records (R461 to R463) -/

/-- What a critical record may change of a sector: it is appended, and the header stays. -/
def AppendedTo (x y : RingSector) : Prop := y.header = x.header ∧ x.records <+: y.records

/-- A critical record is appended at the head, waits, or goes to memory: no sector that is there loses a record. -/
theorem appendCritical_sector (s : State) (e : EventRec) {k : Nat} {x : RingSector} (h : mget s.nvm.sectors k = some x) :
    ∃ y, mget (appendCritical s e).nvm.sectors k = some y ∧ AppendedTo x y := by
  unfold appendCritical
  dsimp only
  split
  · exact ⟨x, h, rfl, List.prefix_refl _⟩
  · split
    · by_cases hk : k = sectorOf s.nvm s.nvm.head
      · have hhead : headSector s.nvm = x := by rw [headSector, ← hk, mgetD, h, Option.getD_some]
        subst hk
        exact ⟨_, mget_mset_same _ _ _, show (headSector s.nvm).header = x.header by rw [hhead], hhead ▸ List.prefix_append _ _⟩
      · exact ⟨x, (mget_mset_ne _ _ hk).trans h, rfl, List.prefix_refl _⟩
    · exact ⟨x, h, rfl, List.prefix_refl _⟩

theorem writeEvent_sector (s : State) (source cls code pitch : Nat) (detail : List Byte) {k : Nat} {x : RingSector}
    (h : mget s.nvm.sectors k = some x) :
    ∃ y, mget (writeEvent s source cls code pitch detail).nvm.sectors k = some y ∧ AppendedTo x y := by
  unfold writeEvent
  extract_lets e ev s₁ s₂ pf
  have hlog : ∃ y, mget s₂.nvm.sectors k = some y ∧ AppendedTo x y := by
    unfold s₂
    split
    · exact appendCritical_sector s₁ e h
    · exact ⟨x, h, rfl, List.prefix_refl _⟩
  split
  · rw [raiseInterrupt_nvm]
    exact hlog
  · exact hlog

theorem appendCritical_inRam (s : State) (e : EventRec) : (appendCritical s e).ev.inRam = s.ev.inRam := by
  unfold appendCritical
  dsimp only
  split
  · rfl
  · split <;> rfl

/-- Once the ring keeps to memory, a record leaves the NOR and the records that wait. -/
theorem appendCritical_inRam_nvm {s : State} (h : s.ev.inRam = true) (e : EventRec) :
    (appendCritical s e).nvm = s.nvm ∧ (appendCritical s e).ev.waiting = s.ev.waiting := by
  unfold appendCritical
  rw [if_pos h]
  exact ⟨rfl, rfl⟩

theorem writeEvent_inRam (s : State) (source cls code pitch : Nat) (detail : List Byte) :
    (writeEvent s source cls code pitch detail).ev.inRam = s.ev.inRam := by
  unfold writeEvent
  extract_lets e ev s₁ s₂ pf
  have hlog : s₂.ev.inRam = s.ev.inRam := by
    unfold s₂
    split
    · exact appendCritical_inRam s₁ e
    · rfl
  split
  · rw [raiseInterrupt_ev]
    exact hlog
  · exact hlog

theorem writeEvent_inRam_nvm {s : State} (h : s.ev.inRam = true) (source cls code pitch : Nat) (detail : List Byte) :
    (writeEvent s source cls code pitch detail).nvm = s.nvm ∧ (writeEvent s source cls code pitch detail).ev.waiting = s.ev.waiting := by
  unfold writeEvent
  extract_lets e ev s₁ s₂ pf
  have hlog : s₂.nvm = s.nvm ∧ s₂.ev.waiting = s.ev.waiting := by
    unfold s₂
    split
    · exact appendCritical_inRam_nvm (s := s₁) h e
    · exact ⟨rfl, rfl⟩
  split
  · rw [raiseInterrupt_nvm, raiseInterrupt_ev]
    exact hlog
  · exact hlog

/-! ### SECTOR_ERASE (R462, R463) -/

/-- The state in which the next spare sector has been taken (R463). -/
def spareTaken (s : State) : State := { s with nvm := { s.nvm with sparesUsed := s.nvm.sparesUsed + 1 } }

/-- A position that moves to a spare sector leaves there what is opened on it, with the record of the move. -/
theorem remapSector_spare {s : State} {pos head : Nat} {open_ : State → Nat → State} {x : RingSector} (hspare : s.nvm.sparesUsed < 16)
    (hsector : mget (open_ (spareTaken s) (128 + s.nvm.sparesUsed)).nvm.sectors (128 + s.nvm.sparesUsed) = some x)
    (hhead : (open_ (spareTaken s) (128 + s.nvm.sparesUsed)).nvm.head = head)
    (hused : (open_ (spareTaken s) (128 + s.nvm.sparesUsed)).nvm.sparesUsed = s.nvm.sparesUsed + 1)
    (hram : (open_ (spareTaken s) (128 + s.nvm.sparesUsed)).ev.inRam = false) :
    ∃ y, (remapSector s pos open_).nvm.head = head ∧ (remapSector s pos open_).nvm.sparesUsed = s.nvm.sparesUsed + 1
      ∧ mget (remapSector s pos open_).nvm.sectors (128 + s.nvm.sparesUsed) = some ⟨x.header, y⟩ ∧ x.records <+: y
      ∧ (remapSector s pos open_).ev.inRam = false := by
  let u := open_ (spareTaken s) (128 + s.nvm.sparesUsed)
  have hdo : remapSector s pos open_
      = rangerEvent u 0x05 0x0E08 noPitch (wearDetail 0 noCore (15 - s.nvm.sparesUsed) pos 0 (norOffset (128 + s.nvm.sparesUsed))) := if_pos hspare
  rw [hdo]
  obtain ⟨y, hy, hheader, hrecords⟩ := writeEvent_sector { u with freeCtr := u.freeCtr + 1 } (srcRanger u) 0x05 0x0E08 noPitch
    (wearDetail 0 noCore (15 - s.nvm.sparesUsed) pos 0 (norOffset (128 + s.nvm.sparesUsed))) hsector
  have hy' : y = ⟨x.header, y.records⟩ := by rw [← hheader]
  refine ⟨y.records, ?_, ?_, hy' ▸ hy, hrecords, ?_⟩
  · rw [rangerEvent_nvm]
    exact hhead
  · rw [rangerEvent_nvm]
    exact hused
  · exact (writeEvent_inRam _ _ _ _ _ _).trans hram

/-- Without a spare the ring keeps to memory. -/
theorem remapSector_noSpare {s : State} {pos : Nat} {open_ : State → Nat → State} (hnone : 16 ≤ s.nvm.sparesUsed) :
    (remapSector s pos open_).ev.inRam = true ∧ (remapSector s pos open_).ev.waiting = [] ∧ (remapSector s pos open_).nvm = s.nvm := by
  have hdo : remapSector s pos open_ = ringToRam s pos := if_neg (Nat.not_lt.2 hnone)
  rw [hdo]
  let u : State := { s with ev := { s.ev with inRam := true, ramRing := lastN 65536 (ringRecords s.nvm ++ s.ev.waiting), waiting := [] } }
  obtain ⟨hnvm, hwaiting⟩ := writeEvent_inRam_nvm (s := { u with freeCtr := u.freeCtr + 1 }) rfl (srcRanger u) 0x05 0x0E09 noPitch
    (wearDetail 0 noCore 0 pos 0 0)
  exact ⟨writeEvent_inRam _ _ _ _ _ _, hwaiting, hnvm⟩

section
variable {s : State} (hnor : s.ev.inRam = false)
include hnor

theorem doSectorErase_headFailed (ok : Bool) : doSectorErase s false ok = remapSector s s.nvm.head moveHead := by
  unfold doSectorErase
  rw [if_neg (by simp [hnor]), if_pos rfl]

theorem doSectorErase_opens (hfull : sectorRecords ≤ (headSector s.nvm).records.length) :
    doSectorErase s true true = openSector s ((s.nvm.head + 1) % 128) (sectorOf s.nvm ((s.nvm.head + 1) % 128))
      (sectorErases (mgetD s.nvm.sectors (sectorOf s.nvm ((s.nvm.head + 1) % 128)) (freshSector 0 ((s.nvm.head + 1) % 128) 0)) + 1) := by
  unfold doSectorErase
  rw [if_neg (by simp [hnor]), if_neg (by decide), if_neg (Nat.not_lt.2 hfull)]
  rfl

theorem doSectorErase_moves (hfull : sectorRecords ≤ (headSector s.nvm).records.length) :
    doSectorErase s true false = remapSector s ((s.nvm.head + 1) % 128) fun s k => openSector s ((s.nvm.head + 1) % 128) k 0 := by
  unfold doSectorErase
  rw [if_neg (by simp [hnor]), if_neg (by decide), if_neg (Nat.not_lt.2 hfull)]
  rfl

theorem doSectorErase_room (hroom : (headSector s.nvm).records.length < sectorRecords) (ok : Bool) : doSectorErase s true ok = s := by
  unfold doSectorErase
  rw [if_neg (by simp [hnor]), if_neg (by decide), if_pos hroom]

end

/-- Settles O53: a scrub zeroes its range; a pair's mismatch is noted in the Ranger, whose state the steps that run again leave; and a sector that gives way
keeps its repairs and the records that wait. -/
theorem scrubLockstepAndSectorErase : Obligations.ScrubLockstepAndSectorErase := by
  refine ⟨fun s i x => freedRangeScrubbed_zeroes, fun s pair f hpair => ?_, fun s headOk eraseOk programOk => ?_⟩
  · exact ⟨fun hsecond => (if_pos hpair).trans (congrArg Host.Outcome.next (if_pos hsecond)), rangerLockstep_noted hpair⟩
  · intro cur pos phys old l spare full hnor
    have hrow (t : State) (h : doSectorErase s headOk (eraseOk && programOk) = t) : exec (.sectorErase headOk eraseOk programOk) s = .next t :=
      congrArg Host.Outcome.next h
    refine ⟨fun ⟨hhead, hfull⟩ hok => ?_, fun ⟨hhead, hfull⟩ hfail hspare => ?_, fun hhead hspare => ?_, fun hcase hnone => ?_, fun hhead hroom => ?_⟩
    · have hdo : doSectorErase s headOk (eraseOk && programOk) = openSector s pos phys (sectorErases old + 1) := by
        rw [hhead, hok]
        exact doSectorErase_opens hnor hfull
      exact ⟨_, hrow _ hdo, rfl, rfl, mget_mset_same _ _ _, fun k hk => mget_mset_ne _ _ hk, rfl⟩
    · obtain ⟨y, hpos, hused, hsector, hrecords, hram⟩ := remapSector_spare (pos := pos) (open_ := fun s k => openSector s pos k 0) hspare
        (mget_mset_same _ _ _) rfl rfl hnor
      exact ⟨_, y, hrow _ (by rw [hhead, hfail]; exact doSectorErase_moves hnor hfull), hpos, hused, hsector, hrecords, hram⟩
    · subst hhead
      obtain ⟨y, hpos, hused, hsector, hrecords, hram⟩ := remapSector_spare (pos := s.nvm.head) (open_ := moveHead) hspare
        (mget_mset_same _ _ _) rfl rfl hnor
      exact ⟨_, y, hrow _ (doSectorErase_headFailed hnor _), hpos, hused, hsector, hrecords, hram⟩
    · rcases hcase with hhead | ⟨⟨hhead, hfull⟩, hfail⟩
      · subst hhead
        exact ⟨_, hrow _ (doSectorErase_headFailed hnor _), remapSector_noSpare hnone⟩
      · exact ⟨_, hrow _ (by rw [hhead, hfail]; exact doSectorErase_moves hnor hfull), remapSector_noSpare hnone⟩
    · exact hrow _ (hhead ▸ doSectorErase_room hnor hroom _)

end Sys2Proof.Machine
end

section
/-! SUPPORT. Starts (R434, R435, R439): what the boot ROM and the Ranger firmware choose from the NOR, and what a start leaves of the state. -/

namespace Sys2Proof.Machine

/-! ### Records -/

/-- From `s` to `t` the Ranger has written records: nothing but the log, the host port's pending interrupts, the outputs and the free values changes. -/
def Recorded (s t : State) : Prop := t = { s with ev := t.ev, host := t.host, out := t.out, nvm := t.nvm, freeCtr := t.freeCtr }

theorem Recorded.refl (s : State) : Recorded s s := rfl

theorem Recorded.trans {s t u : State} (h₁ : Recorded s t) (h₂ : Recorded t u) : Recorded s u :=
  Eq.trans h₂ (congrArg (fun x : State => { x with ev := u.ev, host := u.host, out := u.out, nvm := u.nvm, freeCtr := u.freeCtr }) h₁)

theorem rangerEvent_recorded (s : State) (cls code pitch : Nat) (detail : List Byte) : Recorded s (rangerEvent s cls code pitch detail) := by
  have h := writeEvent_recordsOnly { s with freeCtr := s.freeCtr + 1 } (srcRanger s) cls code pitch detail
  have hfree : (rangerEvent s cls code pitch detail).freeCtr = s.freeCtr + 1 := by rw [rangerEvent, h]
  rw [Recorded, hfree]
  exact h

/-! ### Images of the NOR (R428 to R434) -/

/-- Two NORs hold the same images, fuses and certificates. -/
def SameImages (n m : Nvm) : Prop := m = { n with header0 := m.header0, header1 := m.header1, sectors := m.sectors, head := m.head }

theorem SameImages.refl (n : Nvm) : SameImages n n := rfl

theorem SameImages.trans {n m k : Nvm} (h₁ : SameImages n m) (h₂ : SameImages m k) : SameImages n k :=
  Eq.trans h₂ (congrArg (fun x : Nvm => { x with header0 := k.header0, header1 := k.header1, sectors := k.sectors, head := k.head }) h₁)

theorem SameImages.fwSlot_eq {n m : Nvm} (h : SameImages n m) (k : Nat) : fwSlot m k = fwSlot n k := by
  rw [fwSlot, fwSlot, h]

theorem SameImages.cfgSlot_eq {n m : Nvm} (h : SameImages n m) (k : Nat) : cfgSlot m k = cfgSlot n k := by
  rw [cfgSlot, cfgSlot, h]

theorem SameImages.fuses_eq {n m : Nvm} (h : SameImages n m) : m.fuses = n.fuses := by
  rw [h]

theorem SameImages.chooseConfig_eq {n m : Nvm} (h : SameImages n m) (f : BootFindings) (format : Nat) :
    chooseConfig m f format = chooseConfig n f format := by
  rw [h]
  rfl

theorem SameImages.slotVerifies_eq {n m : Nvm} (h : SameImages n m) (f : BootFindings) (k : Nat) : slotVerifies m f k = slotVerifies n f k := by
  rw [slotVerifies, h.fwSlot_eq, h.fuses_eq, ← slotVerifies]

theorem writeHeader_sameImages (n : Nvm) (h : BootHeader) : SameImages n (writeHeader n h) := by
  unfold writeHeader
  dsimp only
  split <;> rfl

theorem rangerEvent_sameImages (s : State) (cls code pitch : Nat) (detail : List Byte) :
    SameImages s.nvm (rangerEvent s cls code pitch detail).nvm := by
  rw [SameImages, rangerEvent_nvm]

/-- Choosing a firmware slot leaves the images (R439). -/
theorem chooseSlot_sameImages (n : Nvm) (f : BootFindings) : SameImages n (chooseSlot n f).nvm := by
  unfold chooseSlot
  dsimp only
  split
  · exact .refl n
  · split
    · exact writeHeader_sameImages _ _
    · exact writeHeader_sameImages _ _

/-- The slot that is chosen: the one on trial, or the active one, where it verifies (R439). -/
theorem chooseSlot_slot (n : Nvm) (f : BootFindings) :
    (chooseSlot n f).slot = (match (headerOf n).trial with
        | some t => if (headerOf n).trialStarts = 0 ∧ slotVerifies n f t then some t
            else if slotVerifies n f (headerOf n).active then some (headerOf n).active else none
        | none => if slotVerifies n f (headerOf n).active then some (headerOf n).active else none)
      ∧ (chooseSlot n f).onTrial = (headerOf n).trial.any fun t => decide ((headerOf n).trialStarts = 0 ∧ slotVerifies n f t = true) := by
  unfold chooseSlot
  dsimp only
  cases (headerOf n).trial with
  | none => exact ⟨rfl, rfl⟩
  | some t =>
    dsimp only
    by_cases ht : (headerOf n).trialStarts = 0 ∧ slotVerifies n f t = true
    · rw [if_pos ht, if_pos ht]
      exact ⟨rfl, by simp [ht]⟩
    · rw [if_neg ht, if_neg ht, (writeHeader_sameImages n _).slotVerifies_eq]
      exact ⟨rfl, by simpa using ht⟩

/-- The place at which records are appended has no part in the choice of a slot. -/
theorem chooseSlot_head (n : Nvm) (f : BootFindings) (head : Nat) :
    (chooseSlot { n with head := head } f).slot = (chooseSlot n f).slot ∧ (chooseSlot { n with head := head } f).onTrial = (chooseSlot n f).onTrial := by
  obtain ⟨hslot, htrial⟩ := chooseSlot_slot { n with head := head } f
  obtain ⟨hslot', htrial'⟩ := chooseSlot_slot n f
  exact ⟨hslot.trans hslot'.symm, htrial.trans htrial'.symm⟩

/-! ### What a start leaves -/

/-- What the phases of a start change: records, the boot state, the configuration, and the latches that have been reported; images stay. -/
structure StartFrame (s t : State) : Prop where
  frame : t = { s with
    ev := t.ev, host := t.host, out := t.out, freeCtr := t.freeCtr, nvm := t.nvm, boot := t.boot, cfg := t.cfg
    pw := { s.pw with trip := t.pw.trip, tripDie := t.pw.tripDie, powerLoss := t.pw.powerLoss } }
  straps : t.boot.straps = s.boot.straps
  images : SameImages s.nvm t.nvm

theorem StartFrame.refl (s : State) : StartFrame s s := ⟨rfl, rfl, .refl _⟩

theorem StartFrame.trans {s t u : State} (h₁ : StartFrame s t) (h₂ : StartFrame t u) : StartFrame s u := by
  refine ⟨Eq.trans h₂.frame ?_, h₂.straps.trans h₁.straps, h₁.images.trans h₂.images⟩
  exact congrArg (fun x : State => { x with
    ev := u.ev, host := u.host, out := u.out, freeCtr := u.freeCtr, nvm := u.nvm, boot := u.boot, cfg := u.cfg
    pw := { x.pw with trip := u.pw.trip, tripDie := u.pw.tripDie, powerLoss := u.pw.powerLoss } }) h₁.frame

theorem rangerEvent_startFrame (s : State) (cls code pitch : Nat) (detail : List Byte) : StartFrame s (rangerEvent s cls code pitch detail) := by
  have h := rangerEvent_recorded s cls code pitch detail
  have hpw : (rangerEvent s cls code pitch detail).pw = s.pw := by simp
  have hboot : (rangerEvent s cls code pitch detail).boot = s.boot := by simp
  have hcfg : (rangerEvent s cls code pitch detail).cfg = s.cfg := by simp
  refine ⟨?_, by rw [hboot], rangerEvent_sameImages _ _ _ _ _⟩
  rw [hpw, hboot, hcfg]
  exact h

/-- The supply controller's latches change. -/
def latched (s : State) (trip : Bool) (die : Option Nat) (loss : Bool) : State :=
  { s with pw := { s.pw with trip := trip, tripDie := die, powerLoss := loss } }

theorem latched_startFrame (s : State) (trip : Bool) (die : Option Nat) (loss : Bool) : StartFrame s (latched s trip die loss) :=
  ⟨rfl, rfl, .refl _⟩

/-- A latch that is reported changes the latches alone, with a record. -/
theorem latched_reported (s : State) (trip : Bool) (die : Option Nat) (loss : Bool) (cls code : Nat) (detail : List Byte) :
    let t := rangerEvent (latched s trip die loss) cls code noPitch detail
    StartFrame s t ∧ t.boot = s.boot ∧ t.cfg = s.cfg :=
  ⟨(latched_startFrame s trip die loss).trans (rangerEvent_startFrame _ _ _ _ _), by simp [latched], by simp [latched]⟩

/-- THERMAL_TRIP of the latch, which is then cleared (R476). -/
def tripReported (s : State) : State :=
  if s.pw.trip then rangerEvent (latched s false none s.pw.powerLoss) 0x09 0x0F13 noPitch (powerDetail (s.pw.tripDie.getD noUnit) noUnit 0 0 0)
  else s

theorem tripReported_startFrame (s : State) :
    StartFrame s (tripReported s) ∧ (tripReported s).boot = s.boot ∧ (tripReported s).cfg = s.cfg := by
  unfold tripReported
  split
  · exact latched_reported s false none s.pw.powerLoss _ _ _
  · exact ⟨.refl s, rfl, rfl⟩

theorem reportLatches_eq (s : State) :
    reportLatches s = (let u := tripReported s
      if u.pw.powerLoss then
        rangerEvent (latched u u.pw.trip u.pw.tripDie false) 0x08 0x0F05 noPitch (powerDetail noUnit noUnit 0 0 0)
      else u) := rfl

/-- The latches are reported and cleared, and the boot state and the configuration stay. -/
theorem reportLatches_startFrame (s : State) :
    StartFrame s (reportLatches s) ∧ (reportLatches s).boot = s.boot ∧ (reportLatches s).cfg = s.cfg := by
  obtain ⟨hframe, hboot, hcfg⟩ := tripReported_startFrame s
  rw [reportLatches_eq]
  dsimp only
  split
  · obtain ⟨hframe2, hboot2, hcfg2⟩ := latched_reported (tripReported s) (tripReported s).pw.trip (tripReported s).pw.tripDie false 0x08 0x0F05
      (powerDetail noUnit noUnit 0 0 0)
    exact ⟨hframe.trans hframe2, hboot2.trans hboot, hcfg2.trans hcfg⟩
  · exact ⟨hframe, hboot, hcfg⟩

/-! ### The configuration of a start (R432, R434, R437) -/

/-- The configuration is refused. -/
def refused (s : State) : State := { s with boot := { s.boot with configRefused := true } }

theorem refuseConfig_spec (s : State) :
    StartFrame s (refuseConfig s) ∧ (refuseConfig s).boot = { s.boot with configRefused := true } ∧ (refuseConfig s).cfg = s.cfg := by
  have h : refuseConfig s = rangerEvent (refused s) 0x0B 0x0B02 noPitch (bootDetail 0 (s.boot.cfgSlot.getD noUnit) 1 0 0 0) := rfl
  have hrefused : StartFrame s (refused s) := ⟨rfl, rfl, .refl _⟩
  rw [h]
  exact ⟨hrefused.trans (rangerEvent_startFrame _ _ _ _ _), by simp [refused], by simp [refused]⟩

/-- A configuration slot has been read. -/
def configRead (s : State) (k : Nat) (c : Configuration) : State :=
  { s with boot := { s.boot with cfgSlot := some k, cfgSigOk := true }, cfg := some c }

theorem configRead_startFrame (s : State) (k : Nat) (c : Configuration) : StartFrame s (configRead s k c) := ⟨rfl, rfl, .refl _⟩

theorem takeConfig_none {s : State} {f : BootFindings} (h : chooseConfig s.nvm f s.boot.configFormat = none) : takeConfig s f = refuseConfig s := by
  unfold takeConfig
  dsimp only
  rw [h]

/-- A chosen slot is read with the device's identity: whole where its directory is good, and else its management session alone, and refused. -/
theorem takeConfig_some {s : State} {f : BootFindings} {d : Identity} {k : Nat} (hidentity : s.boot.identity = some d)
    (h : chooseConfig s.nvm f s.boot.configFormat = some k) :
    takeConfig s f = if directoryOk (cfgSlot s.nvm k) then configRead s k (configurationOf d (cfgSlot s.nvm k))
      else refuseConfig (configRead s k (managementOnly d (cfgSlot s.nvm k))) := by
  have hd : s.boot.identity.getD (identityOf s.nvm.fuses.uniqueSecret 0) = d := by rw [hidentity, Option.getD_some]
  unfold takeConfig
  dsimp only
  rw [h]
  dsimp only
  rw [hd]
  rfl

/-- What a start has chosen stays. -/
def ChoiceKept (b b' : Boot) : Prop := b'.phase = b.phase ∧ b'.slot = b.slot ∧ b'.onTrial = b.onTrial ∧ b'.identity = b.identity

/-- What phase 3 leaves: the slot, the trial and the identity stay, and the configuration is in force or refused. -/
theorem takeConfig_spec (s : State) (f : BootFindings) {d : Identity} (hidentity : s.boot.identity = some d) :
    let t := takeConfig s f
    let chosen := chooseConfig s.nvm f s.boot.configFormat
    StartFrame s t ∧ ChoiceKept s.boot t.boot
      ∧ (chosen = none → t.boot.configRefused = true ∧ t.cfg = s.cfg)
      ∧ (∀ j, chosen = some j → directoryOk (cfgSlot s.nvm j) = true →
        t.boot.configRefused = s.boot.configRefused ∧ t.cfg = some (configurationOf d (cfgSlot s.nvm j)))
      ∧ (∀ j, chosen = some j → directoryOk (cfgSlot s.nvm j) = false →
        t.boot.configRefused = true ∧ t.cfg = some (managementOnly d (cfgSlot s.nvm j))) := by
  dsimp only
  cases hchosen : chooseConfig s.nvm f s.boot.configFormat with
  | none =>
    obtain ⟨hframe, hboot, hcfg⟩ := refuseConfig_spec s
    rw [takeConfig_none hchosen, hboot]
    exact ⟨hframe, ⟨rfl, rfl, rfl, rfl⟩, fun _ => ⟨rfl, hcfg⟩, (fun _ h => nomatch h), (fun _ h => nomatch h)⟩
  | some k =>
    rw [takeConfig_some hidentity hchosen]
    cases hok : directoryOk (cfgSlot s.nvm k) with
    | true =>
      rw [if_pos rfl]
      refine ⟨configRead_startFrame _ _ _, ⟨rfl, rfl, rfl, rfl⟩, (fun h => nomatch h), fun j h _ => ?_, fun j h hbad => ?_⟩
      · obtain rfl := Option.some.inj h
        exact ⟨rfl, rfl⟩
      · obtain rfl := Option.some.inj h
        exact absurd (hok.symm.trans hbad) (by decide)
    | false =>
      rw [if_neg (by decide)]
      obtain ⟨hframe, hboot, hcfg⟩ := refuseConfig_spec (configRead s k (managementOnly d (cfgSlot s.nvm k)))
      rw [hboot]
      refine ⟨(configRead_startFrame _ _ _).trans hframe, ⟨rfl, rfl, rfl, rfl⟩, (fun h => nomatch h), fun j h hgood => ?_, fun j h _ => ?_⟩
      · obtain rfl := Option.some.inj h
        exact absurd (hok.symm.trans hgood) (by decide)
      · obtain rfl := Option.some.inj h
        exact ⟨rfl, hcfg⟩

/-! ### Phases 1 to 3 (R435, R439) -/

/-- A slot of the NOR has been chosen, and its boot header written, with a record where a trial was given up (R439). -/
def slotChosen (s : State) (f : BootFindings) : State :=
  let c := chooseSlot s.nvm f
  if c.rolledBack then
    rangerEvent { s with nvm := c.nvm } 0x0B 0x0B07 noPitch (bootDetail (leAt (fwSlot c.nvm c.active) 8 4) c.active 0 0 0 0)
  else { s with nvm := c.nvm }

theorem slotChosen_spec (s : State) (f : BootFindings) :
    StartFrame s (slotChosen s f) ∧ (slotChosen s f).boot = s.boot ∧ (slotChosen s f).cfg = s.cfg := by
  have hwritten : StartFrame s { s with nvm := (chooseSlot s.nvm f).nvm } := ⟨rfl, rfl, chooseSlot_sameImages _ _⟩
  unfold slotChosen
  dsimp only
  split
  · exact ⟨hwritten.trans (rangerEvent_startFrame _ _ _ _ _), by simp, by simp⟩
  · exact ⟨hwritten, rfl, rfl⟩

/-- The boot state once the firmware runs from slot k, with its identity (R435 phase 3, R446). -/
def bootedFrom (s : State) (f : BootFindings) (k : Nat) : State :=
  let bs := fwSlot (chooseSlot s.nvm f).nvm k
  let u := slotChosen s f
  let v : State := { u with
    boot := { u.boot with phase := 4, slot := k, onTrial := (chooseSlot s.nvm f).onTrial, release := leAt bs 8 4, configFormat := leAt bs 12 2 } }
  { v with boot := { v.boot with identity := some (identityOf v.nvm.fuses.uniqueSecret (firmwareDigest v)) } }

/-- A trial is recorded. -/
def trialNoted (s : State) (onTrial : Bool) (detail : List Byte) : State := if onTrial then rangerEvent s 0x0B 0x0B05 noPitch detail else s

theorem trialNoted_spec (s : State) (onTrial : Bool) (detail : List Byte) :
    StartFrame s (trialNoted s onTrial detail) ∧ (trialNoted s onTrial detail).boot = s.boot ∧ (trialNoted s onTrial detail).cfg = s.cfg := by
  unfold trialNoted
  split
  · exact ⟨rangerEvent_startFrame _ _ _ _ _, by simp, by simp⟩
  · exact ⟨.refl s, rfl, rfl⟩

section
variable {s : State} {f : BootFindings}

theorem bootOn_stands (h : f.pairsAgree = false ∨ f.xspiUp = false) : bootOn s f = s := if_pos h

theorem bootOn_noSlot (hgood : ¬(f.pairsAgree = false ∨ f.xspiUp = false)) (hslot : (chooseSlot s.nvm f).slot = none) :
    bootOn s f = { slotChosen s f with boot := { (slotChosen s f).boot with phase := 13 } } := by
  unfold bootOn
  rw [if_neg hgood]
  dsimp only
  rw [hslot]
  rfl

theorem bootOn_slot (hgood : ¬(f.pairsAgree = false ∨ f.xspiUp = false)) {k : Nat} (hslot : (chooseSlot s.nvm f).slot = some k) :
    ∃ detail, bootOn s f = takeConfig (reportLatches (trialNoted (bootedFrom s f k) (chooseSlot s.nvm f).onTrial detail)) f := by
  unfold bootOn
  rw [if_neg hgood]
  dsimp only
  rw [hslot]
  exact ⟨_, rfl⟩

end

/-- The firmware of slot k and the identity that it has been given. -/
theorem bootedFrom_spec (s : State) (f : BootFindings) (k : Nat) :
    let d := identityOf s.nvm.fuses.uniqueSecret (Config.sha384 ((fwSlot s.nvm k).take (leAt (fwSlot s.nvm k) 16 8)))
    StartFrame s (bootedFrom s f k)
      ∧ (bootedFrom s f k).boot = { s.boot with
          phase := 4, slot := k, onTrial := (chooseSlot s.nvm f).onTrial, release := leAt (fwSlot s.nvm k) 8 4
          configFormat := leAt (fwSlot s.nvm k) 12 2, identity := some d }
      ∧ (bootedFrom s f k).cfg = s.cfg := by
  intro d
  obtain ⟨hframe, hboot, hcfg⟩ := slotChosen_spec s f
  have hfw : fwSlot (slotChosen s f).nvm k = fwSlot s.nvm k := hframe.images.fwSlot_eq k
  have hfw' : fwSlot (chooseSlot s.nvm f).nvm k = fwSlot s.nvm k := (chooseSlot_sameImages s.nvm f).fwSlot_eq k
  have hfuses : (slotChosen s f).nvm.fuses = s.nvm.fuses := hframe.images.fuses_eq
  have hbooted : StartFrame (slotChosen s f) (bootedFrom s f k) := ⟨rfl, rfl, .refl _⟩
  refine ⟨hframe.trans hbooted, ?_, hcfg⟩
  unfold bootedFrom
  dsimp only
  rw [firmwareDigest, activeImage]
  dsimp only
  rw [hfw, hfw', hfuses, hboot]

/-- What the phases of a start leave, from a state in which no configuration is in force. -/
theorem bootOn_spec (s : State) (f : BootFindings) (hcfg : s.cfg = none) :
    let t := bootOn s f
    let bad := f.pairsAgree = false ∨ f.xspiUp = false
    StartFrame s t ∧ (bad → t.boot = s.boot ∧ t.cfg = none)
      ∧ (¬bad → (chooseSlot s.nvm f).slot = none → t.boot = { s.boot with phase := 13 } ∧ t.cfg = none)
      ∧ (∀ k, ¬bad → (chooseSlot s.nvm f).slot = some k →
        let d := identityOf s.nvm.fuses.uniqueSecret (Config.sha384 ((fwSlot s.nvm k).take (leAt (fwSlot s.nvm k) 16 8)))
        let chosen := chooseConfig s.nvm f (leAt (fwSlot s.nvm k) 12 2)
        t.boot.phase = 4 ∧ t.boot.slot = k ∧ t.boot.onTrial = (chooseSlot s.nvm f).onTrial ∧ t.boot.identity = some d
          ∧ (chosen = none → t.boot.configRefused = true ∧ t.cfg = none)
          ∧ (∀ j, chosen = some j → directoryOk (cfgSlot s.nvm j) = true →
            t.boot.configRefused = s.boot.configRefused ∧ t.cfg = some (configurationOf d (cfgSlot s.nvm j)))
          ∧ (∀ j, chosen = some j → directoryOk (cfgSlot s.nvm j) = false →
            t.boot.configRefused = true ∧ t.cfg = some (managementOnly d (cfgSlot s.nvm j)))) := by
  dsimp only
  by_cases hbad : f.pairsAgree = false ∨ f.xspiUp = false
  · rw [bootOn_stands hbad]
    exact ⟨.refl s, fun _ => ⟨rfl, hcfg⟩, fun h => absurd hbad h, fun k h => absurd hbad h⟩
  · cases hslot : (chooseSlot s.nvm f).slot with
    | none =>
      obtain ⟨hframe, hboot, hcfg1⟩ := slotChosen_spec s f
      rw [bootOn_noSlot hbad hslot]
      refine ⟨hframe.trans ⟨rfl, rfl, .refl _⟩, fun h => absurd h hbad, fun _ _ => ⟨?_, hcfg1.trans hcfg⟩, (fun _ _ h => nomatch h)⟩
      rw [hboot]
    | some k =>
      obtain ⟨detail, hboot⟩ := bootOn_slot hbad hslot
      let u := trialNoted (bootedFrom s f k) (chooseSlot s.nvm f).onTrial detail
      obtain ⟨hframe1, hboot1, hcfg1⟩ := bootedFrom_spec s f k
      obtain ⟨hframe2, hboot2, hcfg2⟩ := trialNoted_spec (bootedFrom s f k) (chooseSlot s.nvm f).onTrial detail
      obtain ⟨hframe3, hboot3, hcfg3⟩ := reportLatches_startFrame u
      have hb : (reportLatches u).boot = _ := hboot3.trans (hboot2.trans hboot1)
      have hc : (reportLatches u).cfg = none := hcfg3.trans (hcfg2.trans (hcfg1.trans hcfg))
      have hframe := (hframe1.trans hframe2).trans hframe3
      obtain ⟨hframe4, ⟨hphase, hkslot, htrial, hidentity⟩, hnone, hread, hmanaged⟩ := takeConfig_spec (reportLatches u) f (by rw [hb])
      rw [hframe.images.chooseConfig_eq, hb] at hnone hread hmanaged
      rw [hc] at hnone
      rw [hb] at hphase hkslot htrial hidentity
      simp only [hframe.images.cfgSlot_eq] at hread hmanaged
      rw [hboot]
      refine ⟨hframe.trans hframe4, fun h => absurd h hbad, (fun _ h => nomatch h), fun j _ h => ?_⟩
      obtain rfl := Option.some.inj h
      exact ⟨hphase, hkslot, htrial, hidentity, hnone, hread, hmanaged⟩

end Sys2Proof.Machine
end

section
/-! PROOF. Starts and the check of the configuration (R373, R435, R436, R439, R470, R479). -/

namespace Sys2Proof.Machine

/-! ### A start (R435, R465, R479) -/

/-- A module whose rails have been removed, in phase 1 of a start, with the inputs that the boot ROM finds. -/
def atPhaseOne (s : State) (f : BootFindings) : State :=
  let s0 := railsOff s
  let n := f.nor.getD s0.nvm
  { s0 with
    nvm := { n with head := newestSector n }
    pw := { s0.pw with vaux := true, mainGood := f.mainGood, backupGood := f.backupGood }
    boot := { s0.boot with phase := 1 } }

/-- The Ranger and PHY rails are up (R465). -/
def railsUp (s : State) : State :=
  let back := !s.pw.mainGood
  { s with pw := { s.pw with rails := true, onBackup := back, backupSince := if back then some s.cairn.count else none } }

theorem startUp_eq (s : State) (f : BootFindings) :
    startUp s f = if f.mainGood || f.backupGood then bootOn (railsUp (atPhaseOne s f)) f else atPhaseOne s f := rfl

/-- The images that a start finds, up to the place where records are appended. -/
theorem atPhaseOne_nvm (s : State) (f : BootFindings) : ∃ head, (atPhaseOne s f).nvm = { f.nor.getD s.nvm with head := head } := by
  unfold atPhaseOne
  dsimp only
  cases f.nor with
  | none => exact ⟨_, rfl⟩
  | some m => exact ⟨_, rfl⟩

/-- What a start from the images n leaves. -/
def Started (n : Nvm) (f : BootFindings) (straps : BitVec 4) (t : State) : Prop :=
  t.mem = State.reset.mem ∧ t.seqs = State.reset.seqs ∧ t.pitches = State.reset.pitches ∧ t.camps = State.reset.camps ∧ t.boot.straps = straps
    ∧ t.pw.vaux = true ∧ t.pw.rails = (f.mainGood || f.backupGood) ∧ t.pw.onBackup = (!f.mainGood && f.backupGood)
    ∧ (let bad := f.pairsAgree = false ∨ f.xspiUp = false ∨ (f.mainGood = false ∧ f.backupGood = false)
      (bad → t.boot.phase = 1 ∧ t.cfg = none)
      ∧ (¬bad → (chooseSlot n f).slot = none → t.boot.phase = 13 ∧ t.cfg = none)
      ∧ (∀ k, ¬bad → (chooseSlot n f).slot = some k →
          let d := identityOf n.fuses.uniqueSecret (Config.sha384 ((fwSlot n k).take (leAt (fwSlot n k) 16 8)))
          let chosen := chooseConfig n f (leAt (fwSlot n k) 12 2)
          t.boot.phase = 4 ∧ t.boot.slot = k ∧ t.boot.onTrial = (chooseSlot n f).onTrial ∧ t.boot.identity = some d
          ∧ (chosen = none → t.boot.configRefused = true ∧ t.cfg = none)
          ∧ (∀ j, chosen = some j → directoryOk (cfgSlot n j) = true → t.boot.configRefused = false ∧ t.cfg = some (configurationOf d (cfgSlot n j)))
          ∧ (∀ j, chosen = some j → directoryOk (cfgSlot n j) = false → t.boot.configRefused = true ∧ t.cfg = some (managementOnly d (cfgSlot n j)))))

/-- Without an input in range a start waits in phase 1. -/
theorem started_atPhaseOne (s : State) (f : BootFindings) (h : (f.mainGood || f.backupGood) = false) :
    Started (f.nor.getD s.nvm) f s.boot.straps (atPhaseOne s f) := by
  obtain ⟨hmain, hback⟩ := Bool.or_eq_false_iff.1 h
  have hbad : f.pairsAgree = false ∨ f.xspiUp = false ∨ (f.mainGood = false ∧ f.backupGood = false) := .inr (.inr ⟨hmain, hback⟩)
  refine ⟨rfl, rfl, rfl, rfl, rfl, rfl, h.symm, ?_, fun _ => ⟨rfl, rfl⟩, fun hgood => absurd hbad hgood, fun _ hgood => absurd hbad hgood⟩
  rw [hback, Bool.and_false]
  rfl

/-- With an input in range the rails are raised and the boot ROM runs. -/
theorem started_bootOn (s : State) (f : BootFindings) (h : (f.mainGood || f.backupGood) = true) :
    Started (f.nor.getD s.nvm) f s.boot.straps (bootOn (railsUp (atPhaseOne s f)) f) := by
  have hinput : ¬(f.mainGood = false ∧ f.backupGood = false) := fun ⟨h₁, h₂⟩ => by simp [h₁, h₂] at h
  obtain ⟨head, hnvm⟩ := atPhaseOne_nvm s f
  obtain ⟨hframe, hbad, hnoSlot, hslot⟩ := bootOn_spec (railsUp (atPhaseOne s f)) f rfl
  have hnvm' : (railsUp (atPhaseOne s f)).nvm = { f.nor.getD s.nvm with head := head } := hnvm
  rw [hnvm'] at hnoSlot hslot
  obtain ⟨hchosen, htrial⟩ := chooseSlot_head (f.nor.getD s.nvm) f head
  rw [hchosen] at hnoSlot
  rw [hchosen, htrial] at hslot
  have himages : SameImages (f.nor.getD s.nvm) { f.nor.getD s.nvm with head := head } := rfl
  simp only [himages.fwSlot_eq, himages.cfgSlot_eq, himages.chooseConfig_eq] at hslot
  have hb : ∀ {P : Prop}, (f.pairsAgree = false ∨ f.xspiUp = false ∨ (f.mainGood = false ∧ f.backupGood = false)) →
      ((f.pairsAgree = false ∨ f.xspiUp = false) → P) → P := fun hor hp => by
    rcases hor with h1 | h1 | h1
    · exact hp (.inl h1)
    · exact hp (.inr h1)
    · exact absurd h1 hinput
  have hgood : ¬(f.pairsAgree = false ∨ f.xspiUp = false ∨ (f.mainGood = false ∧ f.backupGood = false)) →
      ¬(f.pairsAgree = false ∨ f.xspiUp = false) := fun hn hor => hn (hor.imp_right .inl)
  have hpw := congrArg State.pw hframe.frame
  refine ⟨?_, ?_, ?_, ?_, hframe.straps, ?_, ?_, ?_, fun hor => hb hor fun hbad' => ?_, fun hn hs => ?_, fun k hn hk => ?_⟩
  · rw [hframe.frame]; rfl
  · rw [hframe.frame]; rfl
  · rw [hframe.frame]; rfl
  · rw [hframe.frame]; rfl
  · rw [hpw]; rfl
  · rw [hpw, h]; rfl
  · rw [hpw]
    change (!f.mainGood) = _
    cases hm : f.mainGood <;> simp_all
  · obtain ⟨hboot, hcfg⟩ := hbad hbad'
    exact ⟨by rw [hboot]; rfl, hcfg⟩
  · obtain ⟨hboot, hcfg⟩ := hnoSlot (hgood hn) hs
    exact ⟨by rw [hboot], hcfg⟩
  · exact hslot k (hgood hn) hk

theorem started_startUp (s : State) (f : BootFindings) : Started (f.nor.getD s.nvm) f s.boot.straps (startUp s f) := by
  rw [startUp_eq]
  cases h : f.mainGood || f.backupGood with
  | false => exact started_atPhaseOne s f h
  | true => exact started_bootOn s f h

/-! ### The check (R373, R389, R436, R470) -/

theorem portDownRecords_recorded (c : Configuration) (ports : List Nat) (s : State) : Recorded s (portDownRecords c ports s) := by
  induction ports generalizing s with
  | nil => exact .refl s
  | cons p rest ih =>
    unfold portDownRecords
    dsimp only
    refine Recorded.trans ?_ (ih _)
    split
    · exact .refl s
    · split
      · exact rangerEvent_recorded _ _ _ _ _
      · exact .refl s

/-- The records of R470 change nothing else, and the configuration is refused where a rule of R470 or R389 is broken. -/
theorem powerChecks_recorded (s : State) (c : Configuration) (inlet mv : Nat) :
    Recorded s (powerChecks s c inlet mv).1
      ∧ (powerChecks s c inlet mv).2
        = (!powerOk c.power || c.power.backupFitted && !inRange54 mv || decide ((coolantRange c.power.coolant).2.1 < inlet) || portWithoutLink s c) := by
  have hmaybe : ∀ (b : Bool) (u : State) (cls code : Nat) (detail : List Byte),
      Recorded u (if b = true then rangerEvent u cls code noPitch detail else u) := fun b u cls code detail => by
    cases b with
    | true => exact rangerEvent_recorded _ _ _ _ _
    | false => exact .refl u
  exact ⟨(hmaybe _ s _ _ _).trans (hmaybe _ _ _ _ _), rfl⟩

/-- The checks of R373 read the configuration, the device memory and the fenced camps. -/
theorem checkConfiguration_congr {s t : State} (c : Configuration) (hmem : t.mem = s.mem) (hboot : t.boot = s.boot) :
    checkConfiguration t c = checkConfiguration s c := by
  have haccepted : ∀ p, portAccepted t p = portAccepted s p := fun p => by rw [portAccepted, portAccepted, hmem]
  have hport : portGib t c = portGib s c := by
    funext p
    rw [portGib, haccepted, ← portGib]
  have hgolden : goldenOk t c = goldenOk s c := by
    funext g
    simp only [goldenOk, hport]
  simp only [checkConfiguration, hport, hgolden, hmem, hboot]

/-- The inlet has been read. -/
def inletRead (s : State) (inlet : Nat) : State := { s with pw := { s.pw with inlet := inlet } }

/-- A module that stands in phase 14. -/
def stoodAt14 (s : State) : State := { s with boot := { s.boot with phase := 14 } }

/-- A check that finds a failure writes it, and the configuration is refused (R373). -/
def checkNoted (s : State) : Option CheckFailure → State
  | none => s
  | some x => pitchCheckEvent (refused s) x

/-- What a refused check leaves. -/
structure CheckRefused (s t : State) : Prop where
  mem : t.mem = s.mem
  cfg : t.cfg = s.cfg
  pitches : t.pitches = s.pitches
  refusedNow : t.boot.configRefused = true

theorem pitchCheckEvent_refused (s : State) (x : CheckFailure) : CheckRefused s (pitchCheckEvent (refused s) x) := by
  have h := rangerEvent_startFrame (refused s) 0x0B 0x0B01 noPitch (leBytes 1 x.check ++ leBytes 1 x.pitch ++ leBytes 1 x.other ++ leBytes 13 0)
  have hboot : (pitchCheckEvent (refused s) x).boot = (refused s).boot := by simp [pitchCheckEvent]
  have hcfg : (pitchCheckEvent (refused s) x).cfg = (refused s).cfg := by simp [pitchCheckEvent]
  exact ⟨by rw [pitchCheckEvent, h.frame]; rfl, hcfg, by rw [pitchCheckEvent, h.frame]; rfl, by rw [hboot]; rfl⟩

theorem refuseConfig_refused (s : State) : CheckRefused s (refuseConfig s) := by
  obtain ⟨hframe, hboot, hcfg⟩ := refuseConfig_spec s
  exact ⟨by rw [hframe.frame], hcfg, by rw [hframe.frame], by rw [hboot]⟩

theorem CheckRefused.stood {s t : State} (h : CheckRefused s t) : CheckRefused s (stoodAt14 t) := ⟨h.mem, h.cfg, h.pitches, h.refusedNow⟩

section
variable {s : State} {inlet mv : Nat}

theorem configCheck_stands (hphase : s.boot.phase = 9) (h : s.cfg = none ∨ s.boot.configRefused = true) :
    exec (.configCheck inlet mv) s = .next (stoodAt14 (inletRead s inlet)) := by
  have hexec : exec (.configCheck inlet mv) s = execConfigCheck inlet mv s := rfl
  rw [hexec, execConfigCheck, if_pos hphase, doConfigCheck]
  dsimp only
  split
  next => rfl
  next c hcfg =>
    rw [if_pos (h.resolve_left (by rw [hcfg]; exact Option.some_ne_none c))]
    rfl

/-- The records of phase 9 that concern ports and power (R389, R470). -/
def powerChecked (s : State) (c : Configuration) (inlet mv : Nat) : State :=
  (powerChecks (portDownRecords c (List.range 24) (inletRead s inlet)) c inlet mv).1

/-- A configuration has passed: its pitches are open and every die is at the starting point. -/
def checkPassed (s : State) (c : Configuration) : State :=
  { s with
    boot := { s.boot with phase := 10 }
    pitches := openPitches c
    pw := { s.pw with dies := s.pw.dies.map fun d => { d with point := startPoint c } } }

/-- A check of a configuration that has not been refused, by what it finds. -/
theorem configCheck_finds {c : Configuration} (hphase : s.boot.phase = 9) (hcfg : s.cfg = some c) (hrefused : s.boot.configRefused = false) :
    let s1 := powerChecked s c inlet mv
    let bad := (powerChecks (portDownRecords c (List.range 24) (inletRead s inlet)) c inlet mv).2
    let fail := checkConfiguration s1 c
    let s2 := checkNoted s1 fail
    exec (.configCheck inlet mv) s = .next (if bad then stoodAt14 (refuseConfig s2) else if fail.isSome then stoodAt14 s2
      else checkPassed s2 c) := by
  have hexec : exec (.configCheck inlet mv) s = execConfigCheck inlet mv s := rfl
  rw [hexec, execConfigCheck, if_pos hphase, doConfigCheck]
  dsimp only
  split
  next hnone => exact absurd (hcfg.symm.trans hnone) (Option.some_ne_none c)
  next c' hsome =>
    obtain rfl := Option.some.inj (hcfg.symm.trans hsome)
    rw [if_neg (by rw [hrefused]; decide)]
    rfl

/-- What the ports and the supplies are found to be. -/
theorem powerChecked_recorded (s : State) (c : Configuration) (inlet mv : Nat) : Recorded (inletRead s inlet) (powerChecked s c inlet mv) :=
  (portDownRecords_recorded c (List.range 24) (inletRead s inlet)).trans (powerChecks_recorded _ c inlet mv).1

/-- Whether the rules of R470 and R389 refuse a configuration. -/
theorem powerChecks_bad (s : State) (c : Configuration) (inlet mv : Nat) :
    (powerChecks (portDownRecords c (List.range 24) (inletRead s inlet)) c inlet mv).2 = false
      ↔ powerOk c.power = true ∧ (c.power.backupFitted = true → 44000 ≤ mv ∧ mv ≤ 59500) ∧ inlet ≤ (coolantRange c.power.coolant).2.1
        ∧ portWithoutLink s c = false := by
  have hports : portWithoutLink (portDownRecords c (List.range 24) (inletRead s inlet)) c = portWithoutLink s c := by
    rw [portDownRecords_recorded c (List.range 24) (inletRead s inlet)]
    rfl
  rw [(powerChecks_recorded _ c inlet mv).2, hports]
  simp only [Bool.or_eq_false_iff, Bool.and_eq_false_imp, Bool.not_eq_false', inRange54, decide_eq_true_eq, decide_eq_false_iff_not, not_lt,
    and_assoc]

end

/-- A noted check leaves the device memory, the configuration and the pitches, and refuses where there is a failure. -/
theorem checkNoted_keeps (s : State) (fail : Option CheckFailure) :
    (checkNoted s fail).mem = s.mem ∧ (checkNoted s fail).cfg = s.cfg ∧ (checkNoted s fail).pitches = s.pitches
      ∧ (fail.isSome = true → (checkNoted s fail).boot.configRefused = true) := by
  cases fail with
  | none => exact ⟨rfl, rfl, rfl, (fun h => nomatch h)⟩
  | some x =>
    obtain ⟨hmem, hcfg, hpitches, hrefused⟩ := pitchCheckEvent_refused s x
    exact ⟨hmem, hcfg, hpitches, fun _ => hrefused⟩

/-- The check of a configuration that has not been refused (R373, R436, R470). -/
theorem configCheck_checks {s : State} {c : Configuration} (inlet mv : Nat) (hphase : s.boot.phase = 9) (hcfg : s.cfg = some c)
    (hrefused : s.boot.configRefused = false) :
    let passes := powerOk c.power = true ∧ (c.power.backupFitted = true → 44000 ≤ mv ∧ mv ≤ 59500) ∧ inlet ≤ (coolantRange c.power.coolant).2.1
      ∧ portWithoutLink s c = false ∧ checkConfiguration s c = none
    ∃ t, exec (.configCheck inlet mv) s = .next t ∧ t.mem = s.mem ∧ t.cfg = s.cfg
      ∧ (passes → t.boot.phase = 10 ∧ t.boot.configRefused = false ∧ t.pitches = openPitches c
          ∧ t.pw.dies = s.pw.dies.map (fun d => { d with point := startPoint c }))
      ∧ (¬passes → t.boot.phase = 14 ∧ t.boot.configRefused = true ∧ t.pitches = s.pitches) := by
  have hrec := powerChecked_recorded s c inlet mv
  have hboot : (powerChecked s c inlet mv).boot = s.boot := by rw [hrec]; rfl
  have hcheck : checkConfiguration (powerChecked s c inlet mv) c = checkConfiguration s c :=
    checkConfiguration_congr c (by rw [hrec]; rfl) hboot
  have hbad := powerChecks_bad s c inlet mv
  refine ⟨_, configCheck_finds hphase hcfg hrefused, ?_⟩
  rw [hcheck]
  have hmem : (powerChecked s c inlet mv).mem = s.mem := by rw [hrec]; rfl
  have hcfg' : (powerChecked s c inlet mv).cfg = s.cfg := by rw [hrec]; rfl
  have hpitches : (powerChecked s c inlet mv).pitches = s.pitches := by rw [hrec]; rfl
  have hpw : (powerChecked s c inlet mv).pw = { s.pw with inlet := inlet } := by rw [hrec]; rfl
  obtain ⟨kmem, kcfg, kpitches, krefused⟩ := checkNoted_keeps (powerChecked s c inlet mv) (checkConfiguration s c)
  by_cases hb : (powerChecks (portDownRecords c (List.range 24) (inletRead s inlet)) c inlet mv).2 = true
  · rw [if_pos hb]
    obtain ⟨rmem, rcfg, rpitches, rrefused⟩ := (refuseConfig_refused (checkNoted (powerChecked s c inlet mv) (checkConfiguration s c))).stood
    refine ⟨(rmem.trans kmem).trans hmem, (rcfg.trans kcfg).trans hcfg', fun ⟨hp, hv, hi, hw, _⟩ => ?_,
      fun _ => ⟨rfl, rrefused, (rpitches.trans kpitches).trans hpitches⟩⟩
    exact absurd (hb.symm.trans (hbad.2 ⟨hp, hv, hi, hw⟩)) (by decide)
  · rw [if_neg hb]
    obtain ⟨hp, hv, hi, hw⟩ := hbad.1 (Bool.eq_false_iff.2 hb)
    cases hfail : checkConfiguration s c with
    | some x =>
      rw [hfail] at kmem kcfg kpitches krefused
      rw [if_pos Option.isSome_some]
      exact ⟨kmem.trans hmem, kcfg.trans hcfg', (fun ⟨_, _, _, _, hnone⟩ => nomatch hnone),
        fun _ => ⟨rfl, krefused rfl, kpitches.trans hpitches⟩⟩
    | none =>
      rw [if_neg (by decide)]
      refine ⟨hmem, hcfg', fun _ => ⟨rfl, ?_, rfl, ?_⟩, fun hn => absurd ⟨hp, hv, hi, hw, rfl⟩ hn⟩
      · exact (congrArg Boot.configRefused hboot).trans hrefused
      · exact congrArg (fun p : Power => p.dies.map fun d => { d with point := startPoint c }) hpw

/-- Settles O57: a start is `bootOn` once an input is in range, and the check is read off its records, which leave what it reads. -/
theorem startsAreCheckedAndRefused : Obligations.StartsAreCheckedAndRefused := by
  unfold Obligations.StartsAreCheckedAndRefused
  refine ⟨fun s f us => ⟨fun h => ?_, ⟨_, rfl, started_startUp { s with boot := { s.boot with straps := f.straps } } f⟩, fun hlow hvaux => ?_⟩,
    fun s inlet mv hphase => ⟨fun h => configCheck_stands hphase (.inl h), fun c _ h => configCheck_stands hphase (.inr h), fun c hcfg hrefused => ?_⟩⟩
  · refine if_neg fun ⟨hlow, hvaux⟩ => ?_
    rcases h with h | h
    · omega
    · exact absurd (h.symm.trans hvaux) (by decide)
  · exact ⟨startUp s f, if_pos ⟨hlow, hvaux⟩, started_startUp s f⟩
  · exact configCheck_checks inlet mv hphase hcfg hrefused

end Sys2Proof.Machine
end

section
/-! PROOF. Rings and their doorbells (R340, R345, R346, R407, R411, R416, R427). -/

namespace Sys2Proof.Machine

/-! ### Submission doorbell (R345, R416) -/

/-- The entries that a new tail makes visible are read, one read each, and nothing else changes. -/
theorem readEntries_spec (fn base entries n k : Nat) (s : State) :
    readEntries fn base entries n k s = { s with out := (readEntries fn base entries n k s).out }
      ∧ (readEntries fn base entries n k s).out.length = s.out.length + n := by
  induction n generalizing k s with
  | zero => exact ⟨rfl, rfl⟩
  | succ n ih =>
    obtain ⟨hframe, hlength⟩ := ih ((k + 1) % entries) (send s (.dmaRead fn (base + 64 * k) 64))
    have hsent : (send s (.dmaRead fn (base + 64 * k) 64)).out.length = s.out.length + 1 := by simp [send]
    exact ⟨hframe, by rw [readEntries, hlength, hsent]; omega⟩

/-- Rings of a function that has been put. -/
theorem comp_putFn (s : State) (fn : Nat) (f : Function) : (fnOf (putFn s fn f) fn).comp = f.comp := (fnOf_putFn_fields s fn f).2.1

theorem sub_putFn (s : State) (fn : Nat) (f : Function) : (fnOf (putFn s fn f) fn).sub = f.sub := (fnOf_putFn_fields s fn f).1

/-- The ring's tail is moved. -/
def tailMoved (s : State) (fn ring : Nat) (k : Ring) (value : Word) : State :=
  putFn s fn { fnOf s fn with sub := mset (fnOf s fn).sub ring { k with doorbell := value.toNat } }

/-- What a new tail leaves once its entries are read. -/
theorem readEntries_tail (s : State) (fn ring : Nat) (k : Ring) (value : Word) :
    let n := (value.toNat + k.entries - k.doorbell) % k.entries
    let t := readEntries fn k.base k.entries n k.doorbell (tailMoved s fn ring k value)
    mget (fnOf t fn).sub ring = some { k with doorbell := value.toNat } ∧ (∀ j, j ≠ ring → mget (fnOf t fn).sub j = mget (fnOf s fn).sub j)
      ∧ t.out.length = s.out.length + n ∧ t = { s with host := t.host, out := t.out } := by
  dsimp only
  obtain ⟨hframe, hlength⟩ := readEntries_spec fn k.base k.entries ((value.toNat + k.entries - k.doorbell) % k.entries) k.doorbell
    (tailMoved s fn ring k value)
  have hsub : (fnOf (readEntries fn k.base k.entries ((value.toNat + k.entries - k.doorbell) % k.entries) k.doorbell
      (tailMoved s fn ring k value)) fn).sub = mset (fnOf s fn).sub ring { k with doorbell := value.toNat } := by
    rw [hframe]
    exact sub_putFn s fn _
  refine ⟨by rw [hsub, mget_mset_same], fun j hj => by rw [hsub, mget_mset_ne _ _ hj], hlength, ?_⟩
  rw [hframe]
  rfl

/-- The ring's head is moved. -/
def headMoved (s : State) (fn ring : Nat) (k : Ring) (head : Nat) : State :=
  putFn s fn { fnOf s fn with comp := mset (fnOf s fn).comp ring { k with doorbell := head, inFlight := k.inFlight - freedBy k head } }

theorem headMoved_ring (s : State) (fn ring : Nat) (k : Ring) (head : Nat) :
    mget (fnOf (headMoved s fn ring k head) fn).comp ring = some { k with doorbell := head, inFlight := k.inFlight - freedBy k head } := by
  rw [headMoved, comp_putFn, mget_mset_same]

section
variable {s : State} {fn ring : Nat} {value : Word} {k : Ring}

theorem ringOk_of_lt (hfn : fn < 65) (hring : ring < 16) : ringOk fn ring = true := by simp [ringOk, fnOk, hfn, hring]

theorem not_ignored (hreach : fnReachable s fn = true) (hbar : fnBarred s fn = false) : ¬(fnReachable s fn = false ∨ fnBarred s fn = true) := by
  simp [hreach, hbar]

/-- A new tail is taken, and its entries are read. -/
theorem submissionDoorbell_moves (hring : ringOk fn ring = true) (hreach : fnReachable s fn = true) (hbar : fnBarred s fn = false)
    (hk : mget (fnOf s fn).sub ring = some k) (herror : k.fetchError = false) (hvalue : doorbellOk k value = true) :
    exec (.submissionDoorbell fn ring value) s = .next (readEntries fn k.base k.entries ((value.toNat + k.entries - k.doorbell) % k.entries) k.doorbell
      (tailMoved s fn ring k value)) := by
  refine (if_pos hring).trans (congrArg Host.Outcome.next ?_)
  rw [doSubmissionDoorbell, if_neg (not_ignored hreach hbar)]
  dsimp only
  rw [hk]
  exact if_neg (by simp [herror, hvalue])

/-! ### Completion doorbell (R345, R346, R416) -/

/-- A head beyond the tail is ignored. -/
theorem completionDoorbell_ignored (hring : ringOk fn ring = true) (hreach : fnReachable s fn = true) (hbar : fnBarred s fn = false)
    (hk : mget (fnOf s fn).comp ring = some k) (hvalue : doorbellOk k value = true) (hbeyond : k.inFlight < freedBy k value.toNat) :
    exec (.completionDoorbell fn ring value) s = .next s := by
  refine (if_pos hring).trans (congrArg Host.Outcome.next ?_)
  rw [doCompletionDoorbell, if_neg (not_ignored hreach hbar)]
  dsimp only
  rw [hk]
  dsimp only
  rw [if_neg (by simp [hvalue]), if_pos hbeyond]

/-- A head up to the tail frees its entries, and the held completions are posted. -/
theorem completionDoorbell_frees (hring : ringOk fn ring = true) (hreach : fnReachable s fn = true) (hbar : fnBarred s fn = false)
    (hk : mget (fnOf s fn).comp ring = some k) (hvalue : doorbellOk k value = true) (hwithin : freedBy k value.toNat ≤ k.inFlight) :
    exec (.completionDoorbell fn ring value) s = .next (flushHeld fn ring k.held.length (headMoved s fn ring k value.toNat)) := by
  refine (if_pos hring).trans (congrArg Host.Outcome.next ?_)
  rw [doCompletionDoorbell, if_neg (not_ignored hreach hbar)]
  dsimp only
  rw [hk]
  dsimp only
  rw [if_neg (by simp [hvalue]), if_neg (Nat.not_lt.mpr hwithin)]
  rfl

end

/-- One completion is written at the tail. -/
theorem writeEntry_ring (s : State) (fn ring : Nat) (k : Ring) (bytes : List Byte) (int : Bool) :
    HostOnly s (writeEntry s fn ring k bytes int)
      ∧ mget (fnOf (writeEntry s fn ring k bytes int) fn).comp ring
        = some { k with position := (k.position + 1) % k.entries, inFlight := k.inFlight + 1
                        phase := if (k.position + 1) % k.entries = 0 then !k.phase else k.phase } := by
  unfold writeEntry
  extract_lets flags out next k1 f s1
  have hframe : HostOnly s s1 := rfl
  have hcomp : mget (fnOf s1 fn).comp ring = some k1 := by
    unfold s1
    rw [fnOf_send, comp_putFn, mget_mset_same]
  cases int with
  | false => exact ⟨hframe, hcomp⟩
  | true =>
    refine ⟨hframe.trans (raiseInterrupt_hostOnly _ _ _), ?_⟩
    rw [if_pos rfl, raiseInterrupt_functionsKept]
    exact hcomp

/-- The completions that a ring holds are posted in order while there is room (R346). -/
theorem flushHeld_posts {fn ring : Nat} (held : List (List Byte × Bool)) {s : State} {k : Ring} (hk : mget (fnOf s fn).comp ring = some k)
    (hheld : k.held = held) :
    let t := flushHeld fn ring held.length s
    let posted := min held.length (k.entries - k.inFlight)
    HostOnly s t ∧ ∃ k2, mget (fnOf t fn).comp ring = some k2 ∧ k2.doorbell = k.doorbell ∧ k2.inFlight = k.inFlight + posted
      ∧ k2.held = held.drop posted := by
  induction held generalizing s k with
  | nil =>
    refine ⟨rfl, k, hk, rfl, ?_, ?_⟩
    · simp
    · simpa using hheld
  | cons x rest ih =>
    obtain ⟨bytes, int⟩ := x
    dsimp only [List.length_cons]
    unfold flushHeld
    rw [hk]
    dsimp only
    rw [hheld]
    dsimp only
    by_cases hroom : k.inFlight < k.entries
    · rw [if_pos hroom]
      obtain ⟨hframe, hcomp⟩ := writeEntry_ring s fn ring { k with held := rest } bytes int
      obtain ⟨hrest, k2, hk2, hdoorbell, hinFlight, hdrop⟩ := ih hcomp rfl
      have hposted : min (rest.length + 1) (k.entries - k.inFlight) = min rest.length (k.entries - (k.inFlight + 1)) + 1 := by omega
      refine ⟨hframe.trans hrest, k2, hk2, hdoorbell, ?_, ?_⟩
      · rw [hposted]
        exact hinFlight.trans (by dsimp only; omega)
      · rw [hposted, List.drop_succ_cons]
        exact hdrop
    · rw [if_neg hroom]
      have hnone : min (rest.length + 1) (k.entries - k.inFlight) = 0 := by omega
      exact ⟨rfl, k, hk, rfl, by rw [hnone]; rfl, by rw [hnone]; exact hheld⟩

/-! ### Fetched entries (R340, R346, R411, R427) -/

/-- The ranges that an entry names are read, and nothing else changes. -/
theorem sendReads_spec (fn : Nat) (reads : List (Nat × Nat)) (s : State) :
    sendReads fn reads s = { s with out := (sendReads fn reads s).out } ∧ s.out ⊆ (sendReads fn reads s).out
      ∧ ∀ x ∈ reads, Output.dmaRead fn x.1 x.2 ∈ (sendReads fn reads s).out := by
  induction reads generalizing s with
  | nil => exact ⟨rfl, List.Subset.refl _, (fun _ h => nomatch h)⟩
  | cons x rest ih =>
    obtain ⟨hframe, hsubset, hsent⟩ := ih (send s (.dmaRead fn x.1 x.2))
    refine ⟨hframe, fun o ho => hsubset (List.mem_append_left _ ho), fun y hy => ?_⟩
    rcases List.mem_cons.1 hy with rfl | hy
    · exact hsubset (List.mem_append_right _ (List.mem_singleton.2 rfl))
    · exact hsent y hy

/-- A poisoned answer to a read of an entry sets AER's status (R407). -/
def poisonNoted (s : State) (fn : Nat) (d : Option FetchedData) (poisoned : Bool) : State :=
  if fnReachable s fn ∧ d = none ∧ poisoned then { s with host := { s.host with aer := s.host.aer ||| 0x1000#32 } } else s

theorem poisonNoted_spec (s : State) (fn : Nat) (d : Option FetchedData) (poisoned : Bool) :
    poisonNoted s fn d poisoned = { s with host := { s.host with aer := (poisonNoted s fn d poisoned).host.aer } } := by
  unfold poisonNoted
  split <;> rfl

theorem poisonNoted_some (s : State) (fn : Nat) (d : FetchedData) (poisoned : Bool) : poisonNoted s fn (some d) poisoned = s :=
  if_neg fun ⟨_, h, _⟩ => nomatch h

theorem poisonNoted_none {s : State} {fn : Nat} (hreach : fnReachable s fn = true) (poisoned : Bool) :
    (poisonNoted s fn none poisoned).host.aer = if poisoned then s.host.aer ||| 0x1000#32 else s.host.aer := by
  cases poisoned with
  | true => rw [poisonNoted, if_pos ⟨hreach, rfl, rfl⟩, if_pos rfl]
  | false => rw [poisonNoted, if_neg (fun ⟨_, _, h⟩ => nomatch h), if_neg (by decide)]

/-- A ring whose entry could not be read is stopped, with a record (R427). -/
def ringStopped (s : State) (fn ring : Nat) (k : Ring) : State :=
  writeEvent (putFn s fn { fnOf s fn with sub := mset (fnOf s fn).sub ring { k with fetchError := true } }) (srcFn fn 0) 0x07 0x0D03 (fnPitch fn)
    (hostDetail fn ring 0 0 (k.base + 64 * k.position))

/-- An entry that has been read moves the ring's head, and the ranges that it names are read. -/
def entryTaken (s : State) (fn ring : Nat) (k : Ring) (d : FetchedData) : State :=
  sendReads fn (entryReads d) (putFn s fn { fnOf s fn with sub := mset (fnOf s fn).sub ring { k with position := (k.position + 1) % k.entries } })

section
variable {s : State} {fn ring now : Nat} {k : Ring}

/-- A ring in use with an entry that is visible and room for its completion takes what the read brings. -/
theorem submissionFetch_reads (hring : ringOk fn ring = true) (hreach : fnReachable s fn = true) (hbar : fnBarred s fn = false)
    (hk : mget (fnOf s fn).sub ring = some k) (herror : k.fetchError = false) (hvisible : k.position ≠ k.doorbell)
    (hroom : completionRoom (fnOf s fn) k = true) (d : Option FetchedData) (poisoned : Bool) :
    let u := poisonNoted (atTime s now) fn d poisoned
    exec (.submissionFetch fn ring now d poisoned) s = .next (match d with
      | none => ringStopped u fn ring k
      | some d => acceptEntry (entryTaken u fn ring k d) (.ring fn k.completion) (if fn = 0 then k.pitch else fn - 1) d) := by
  intro u
  refine (if_pos hring).trans (congrArg Host.Outcome.next ?_)
  have hu : u = { atTime s now with host := { s.host with aer := u.host.aer } } := poisonNoted_spec (atTime s now) fn d poisoned
  have hfn : fnOf u fn = fnOf s fn := by rw [hu]; rfl
  have hreach' : fnReachable u fn = true := Eq.trans (by rw [hu]; rfl) hreach
  have hbar' : fnBarred u fn = false := Eq.trans (by rw [hu]; rfl) hbar
  have hdo : doSubmissionFetch (atTime s now) fn ring d poisoned = match mget (fnOf u fn).sub ring with
      | none => u
      | some k =>
        if fnReachable u fn = false ∨ fnBarred u fn ∨ k.fetchError ∨ k.position = k.doorbell ∨ completionRoom (fnOf u fn) k = false then u
        else match d with
          | none => ringStopped u fn ring k
          | some d => acceptEntry (entryTaken u fn ring k d) (.ring fn k.completion) (if fn = 0 then k.pitch else fn - 1) d := rfl
  rw [hdo, hfn, hk]
  exact if_neg (by simp [hreach', hbar', herror, hvisible, hroom])

end

/-- An entry that nothing refuses becomes a command at the end of the queue (R340). -/
theorem acceptEntry_accepts {s : State} {p : Nat} {d : FetchedData} {r : PitchRecord} (hr : recordOf s p = some r)
    (hgood : refusalOf s r (entryOf d.entry) d = none) (o : Origin) :
    acceptEntry s o p d = { s with reqNext := s.reqNext + 1, reqs := s.reqs ++ [requestOf s.reqNext o p (entryOf d.entry) d] } := by
  unfold acceptEntry
  dsimp only
  rw [hr]
  dsimp only
  rw [hgood]

/-- What an entry that is taken leaves. -/
theorem entryTaken_spec (s : State) (fn ring : Nat) (k : Ring) (d : FetchedData) :
    HostOnly s (entryTaken s fn ring k d)
      ∧ mget (fnOf (entryTaken s fn ring k d) fn).sub ring = some { k with position := (k.position + 1) % k.entries }
      ∧ ∀ x ∈ entryReads d, Output.dmaRead fn x.1 x.2 ∈ (entryTaken s fn ring k d).out := by
  let f : Function := { fnOf s fn with sub := mset (fnOf s fn).sub ring { k with position := (k.position + 1) % k.entries } }
  obtain ⟨hframe, -, hsent⟩ := sendReads_spec fn (entryReads d) (putFn s fn f)
  have hput : HostOnly s (putFn s fn f) := rfl
  have hframe' : HostOnly (putFn s fn f) (entryTaken s fn ring k d) := by
    unfold HostOnly entryTaken
    rw [hframe]
  have hfn : fnOf (entryTaken s fn ring k d) fn = fnOf (putFn s fn f) fn := by
    unfold entryTaken
    rw [hframe]
    rfl
  exact ⟨hput.trans hframe', by rw [hfn, sub_putFn, mget_mset_same], hsent⟩

theorem raiseInterrupt_aer (s : State) (fn vector : Nat) : (raiseInterrupt s fn vector).host.aer = s.host.aer := by
  unfold raiseInterrupt
  dsimp only
  split
  · split <;> rfl
  · rfl

/-- A record leaves AER's status. -/
theorem writeEvent_aer (s : State) (source cls code pitch : Nat) (detail : List Byte) :
    (writeEvent s source cls code pitch detail).host.aer = s.host.aer := by
  unfold writeEvent
  extract_lets e ev s₁ s₂ pf
  have hlog : s₂.host.aer = s.host.aer := by
    unfold s₂
    split
    · rw [appendCritical_host]
    · rfl
  split
  · rw [raiseInterrupt_aer, hlog]
  · exact hlog

/-- What an entry that cannot be read leaves (R427). -/
theorem ringStopped_spec (s : State) (fn ring : Nat) (k : Ring) :
    mget (fnOf (ringStopped s fn ring k) fn).sub ring = some { k with fetchError := true }
      ∧ (ringStopped s fn ring k).host.aer = s.host.aer ∧ (ringStopped s fn ring k).reqs = s.reqs
      ∧ (ringStopped s fn ring k).ev.written = (s.ev.written + 1) % 2 ^ 32 := by
  unfold ringStopped
  refine ⟨?_, ?_, ?_, ?_⟩
  · rw [writeEvent_functionsKept, sub_putFn, mget_mset_same]
  · rw [writeEvent_aer]
    rfl
  · simp [putFn]
  · rw [(writeEvent_log _ _ _ _ _ _).2.1]
    rfl

/-- Settles O39: each row is read off the ring that its function holds. -/
theorem ringsMoveWithTheirDoorbells : Obligations.RingsMoveWithTheirDoorbells := by
  unfold Obligations.RingsMoveWithTheirDoorbells
  refine ⟨fun s fn ring value k hfn hring hreach hbar hk herror hvalue => ?_, fun s fn ring value k hfn hring hreach hbar hk hvalue => ?_,
    fun s fn ring now k hfn hring hreach hbar hk herror hvisible hroom => ⟨fun d r hr hgood poisoned => ?_, fun poisoned => ?_⟩⟩
  · exact ⟨_, submissionDoorbell_moves (ringOk_of_lt hfn hring) hreach hbar hk herror hvalue, readEntries_tail s fn ring k value⟩
  · refine ⟨fun hwithin => ?_, fun hbeyond => completionDoorbell_ignored (ringOk_of_lt hfn hring) hreach hbar hk hvalue hbeyond⟩
    obtain ⟨hframe, k2, hk2, hdoorbell, hinFlight, hheld⟩ := flushHeld_posts k.held (headMoved_ring s fn ring k value.toNat) rfl
    exact ⟨_, k2, completionDoorbell_frees (ringOk_of_lt hfn hring) hreach hbar hk hvalue hwithin, hk2, hdoorbell, hinFlight, hheld, hframe⟩
  · have hexec := submissionFetch_reads (now := now) (ringOk_of_lt hfn hring) hreach hbar hk herror hvisible hroom (some d) poisoned
    obtain ⟨hframe, hk', hsent⟩ := entryTaken_spec (atTime s now) fn ring k d
    rw [poisonNoted_some] at hexec
    have hrefusal : refusalOf (entryTaken (atTime s now) fn ring k d) r (entryOf d.entry) d = none := by
      rw [hframe]
      exact hgood
    have hrecord : recordOf (entryTaken (atTime s now) fn ring k d) (if fn = 0 then k.pitch else fn - 1) = some r := by
      rw [hframe]
      exact hr
    have haccept := acceptEntry_accepts hrecord hrefusal (.ring fn k.completion)
    refine ⟨_, hexec, ?_⟩
    dsimp only
    rw [haccept]
    exact ⟨hsent, by rw [hframe]; rfl, by rw [hframe]; rfl, hk', by rw [hframe]; rfl, by rw [hframe]; rfl⟩
  · obtain ⟨hk', haer, hreqs, hwritten⟩ := ringStopped_spec (poisonNoted (atTime s now) fn none poisoned) fn ring k
    refine ⟨_, submissionFetch_reads (ringOk_of_lt hfn hring) hreach hbar hk herror hvisible hroom none poisoned, hk', haer.trans ?_,
      hreqs.trans ?_, hwritten.trans ?_⟩
    · exact poisonNoted_none (s := atTime s now) hreach poisoned
    · rw [poisonNoted_spec]
      rfl
    · rw [poisonNoted_spec]
      rfl

end Sys2Proof.Machine
end

section
/-! SUPPORT. What the end of a park, and holding a sequence, leave of the sequences and of the accepted commands (R314, R336, R458). -/

namespace Sys2Proof.Machine

/-! ### Commands that end -/

/-- From `s` to `t` accepted commands have only ended: those whose number is not kept are no longer there. -/
def ReqsEnded (s t : State) : Prop := ∃ kept : Nat → Bool, t.reqs = s.reqs.filter fun q => kept q.rid

theorem ReqsEnded.of_eq {s t : State} (h : t.reqs = s.reqs) : ReqsEnded s t := ⟨fun _ => true, by rw [h, List.filter_eq_self.2 fun _ _ => rfl]⟩

theorem ReqsEnded.trans {s t u : State} (h₁ : ReqsEnded s t) (h₂ : ReqsEnded t u) : ReqsEnded s u := by
  obtain ⟨kept₁, h₁⟩ := h₁
  obtain ⟨kept₂, h₂⟩ := h₂
  exact ⟨fun rid => kept₁ rid && kept₂ rid, by rw [h₂, h₁, List.filter_filter]; simp only [Bool.and_comm]⟩

/-- A command that is no longer there stays so. -/
theorem ReqsEnded.reqOf_none {s t : State} (h : ReqsEnded s t) {rid : Nat} (hnone : reqOf s rid = none) : reqOf t rid = none := by
  obtain ⟨kept, hreqs⟩ := h
  rw [reqOf, List.find?_eq_none] at hnone ⊢
  rw [hreqs]
  exact fun x hx => hnone x (List.mem_of_mem_filter hx)

theorem find?_filter_of_find? {α : Type} {p f : α → Bool} {l : List α} {a : α} (h : l.find? f = some a) (ha : p a = true) :
    (l.filter p).find? f = some a := by
  rw [List.find?_filter]
  refine List.find?_eq_some_iff_append.2 ?_
  obtain ⟨hf, as, bs, rfl, hbefore⟩ := List.find?_eq_some_iff_append.1 h
  exact ⟨by simp [hf, ha], as, bs, rfl, fun b hb => by simp [hbefore b hb]⟩

/-- The running request of a sequence that keeps its handle has ended, or is still the running one. -/
theorem ReqsEnded.runningReq_kept {s t : State} (h : ReqsEnded s t) {i : Nat} {q : Request} (hhandle : handleOf t i = handleOf s i)
    (hq : runningReq s i = some q) : reqOf t q.rid = none ∨ runningReq t i = some q := by
  obtain ⟨kept, hreqs⟩ := h
  cases hkept : kept q.rid with
  | false =>
    refine .inl (List.find?_eq_none.2 fun x hx hrid => ?_)
    have hx' := (List.mem_filter.1 (hreqs ▸ hx)).2
    rw [of_decide_eq_true hrid, hkept] at hx'
    exact Bool.false_ne_true hx'
  | true =>
    refine .inr ?_
    unfold runningReq at hq ⊢
    rw [hreqs, hhandle]
    exact find?_filter_of_find? hq hkept

theorem finish_reqs (s : State) (q : Request) (result endCode handle value : Nat) :
    (finish s q result endCode handle value).reqs = s.reqs.filter fun x => decide (x.rid ≠ q.rid) := by
  unfold finish
  simp

theorem finish_reqsEnded (s : State) (q : Request) (result endCode handle value : Nat) : ReqsEnded s (finish s q result endCode handle value) :=
  ⟨fun rid => decide (rid ≠ q.rid), finish_reqs s q result endCode handle value⟩

theorem endHeld_reqsEnded (result : Nat) (l : List Request) (s : State) : ReqsEnded s (endHeld result l s) := by
  induction l generalizing s with
  | nil => exact .of_eq rfl
  | cons q rest ih => exact (finish_reqsEnded s q result 5 q.handle 0).trans (ih _)

/-! ### The end of a park (R314, R315, R458) -/

/-- The end of a park takes the park from its sequence, leaves every other entry, and ends the park's command at most. -/
theorem endPark_spec (s : State) (i result value : Nat) (silent : Bool) :
    seqOf (endPark s i result value silent) i = { seqOf s i with park := none }
      ∧ (∀ j, j ≠ i → seqOf (endPark s i result value silent) j = seqOf s j) ∧ ReqsEnded s (endPark s i result value silent) := by
  unfold endPark
  dsimp only
  split
  next hnone => exact ⟨by rw [← hnone], fun _ _ => rfl, .of_eq rfl⟩
  next k hk =>
    let s2 := rangerEvent (putSeq s i { seqOf s i with park := none }) 0x0C 0x0901 (seqOf s i).pitch
      (waypointDetail (handleOf s i) (seqOf s i).streamId result k.phase (if k.device then 1 else 0))
    have hseqs : s2.seqs = (putSeq s i { seqOf s i with park := none }).seqs := by simp [s2]
    have hreqs : s2.reqs = s.reqs := by simp [s2, putSeq]
    have hmine : seqOf s2 i = { seqOf s i with park := none } := by rw [seqOf, hseqs, ← seqOf, seqOf_putSeq]
    have hothers (j : Nat) (hj : j ≠ i) : seqOf s2 j = seqOf s j := by rw [seqOf, hseqs, ← seqOf, seqOf_putSeq_ne _ _ hj]
    split
    next => exact ⟨hmine, hothers, .of_eq hreqs⟩
    next r hr =>
      split
      · exact ⟨hmine, hothers, (ReqsEnded.of_eq hreqs).trans ⟨fun rid => decide (rid ≠ r.rid), rfl⟩⟩
      · have hfinish (j : Nat) : seqOf (finish s2 r result 0 r.handle value) j = seqOf s2 j := by simp [seqOf]
        exact ⟨(hfinish i).trans hmine, fun j hj => (hfinish j).trans (hothers j hj), (ReqsEnded.of_eq hreqs).trans (finish_reqsEnded _ _ _ _ _ _)⟩

/-- The entry of a sequence whose park an uncorrectable word ends. -/
def parkLost (s : State) (e : SeqEntry) : SeqEntry :=
  if e.park ≠ none ∧ (pitchOf s e.pitch).stopped = true then { e with park := none, state := .idle } else { e with park := none }

theorem losePark_spec (s : State) (i : Nat) :
    seqOf (losePark s i) i = parkLost s (seqOf s i) ∧ (∀ j, j ≠ i → seqOf (losePark s i) j = seqOf s j) ∧ ReqsEnded s (losePark s i) := by
  obtain ⟨hmine, hothers, hended⟩ := endPark_spec s i rcIntegrityFail 0 false
  unfold losePark parkLost
  dsimp only
  split
  · exact ⟨by rw [seqOf_onSeq, hmine], fun j hj => (seqOf_onSeq_ne _ _ hj).trans (hothers j hj), hended.trans (.of_eq rfl)⟩
  · exact ⟨hmine, hothers, hended⟩

/-! ### Holding (R336) -/

/-- The entry of a sequence that is held. -/
def entryHeld (e : SeqEntry) (cause : Nat) : SeqEntry :=
  { e with
    state := if e.state = .parked then .parked else .held
    hold := if e.hold = 4 then 4 else cause
    importing := e.importing.map fun m => { m with notice := false } }

/-- A sequence is put into HELD, after its park is lost where that is so. -/
def putHeld (s : State) (i cause result : Nat) : State :=
  let e := seqOf s i
  let c := if e.hold = 4 then 4 else cause
  let waiting := if cause = 4 then waitingContinues s i else []
  let s1 := putSeq s i (entryHeld e cause)
  match runningReq s i with
  | none =>
    endHeld result waiting (if e.state = .parked ∨ e.state = .held then s1
      else rangerEvent s1 0x0C 0x0A03 e.pitch (servingDetail (handleOf s i) 0 0xFFFF 0 c))
  | some r =>
    let s2 := rangerEvent s1 0x0C 0x0A03 e.pitch (servingDetail (handleOf s i) r.tag (originSession r.origin) result c)
    endHeld result waiting (finish s2 r result 5 r.handle 0)

theorem holdSeq_eq {s : State} {i cause : Nat} {u : State} (hu : u = if cause = 4 then losePark s i else s) (hlive : (seqOf u i).state ≠ .free)
    (result : Nat) : holdSeq s i cause result = putHeld u i cause result := by
  subst hu
  exact if_neg hlive

/-- Holding puts the entry of the sequence alone, and its running request ends. -/
theorem putHeld_spec (s : State) (i cause result : Nat) :
    (putHeld s i cause result).seqs = (putSeq s i (entryHeld (seqOf s i) cause)).seqs
      ∧ ReqsEnded s (putHeld s i cause result) ∧ ∀ q, runningReq s i = some q → reqOf (putHeld s i cause result) q.rid = none := by
  unfold putHeld
  dsimp only
  split
  next hnone =>
    refine ⟨?_, ReqsEnded.trans (.of_eq ?_) (endHeld_reqsEnded _ _ _), fun q hq => nomatch hnone.symm.trans hq⟩
    · obtain ⟨-, -, -, -, -, -, -, hseqs, -⟩ := endHeld_keeps result (if cause = 4 then waitingContinues s i else []) (if (seqOf s i).state = .parked
          ∨ (seqOf s i).state = .held then putSeq s i (entryHeld (seqOf s i) cause) else _)
      rw [hseqs]
      split <;> simp
    · split <;> simp [putSeq]
  next r hr =>
    refine ⟨by simp, ReqsEnded.trans ((ReqsEnded.of_eq (by simp [putSeq])).trans (finish_reqsEnded _ r result 5 r.handle 0)) (endHeld_reqsEnded _ _ _),
      fun q hq => ?_⟩
    obtain rfl := Option.some.inj (hr.symm.trans hq)
    exact (endHeld_reqsEnded _ _ _).reqOf_none (reqOf_finish _ _ _ _ _ _)

end Sys2Proof.Machine
end

section
/-! PROOF. STATUS, and holding a sequence (R314, R336, R343, R458). -/

namespace Sys2Proof.Machine

/-! ### Holding (R336) -/

/-- What a held sequence is, by its cause: an entry that is held after its park has been lost where cause 4 ends it. -/
theorem holdSeq_spec {s : State} {i : Nat} (h : (seqOf s i).state ≠ .free) (cause result : Nat) :
    let t := holdSeq s i cause result
    let e := if cause = 4 then parkLost s (seqOf s i) else seqOf s i
    seqOf t i = entryHeld e cause ∧ (∀ j, j ≠ i → seqOf t j = seqOf s j) ∧ ∀ q, runningReq s i = some q → reqOf t q.rid = none := by
  intro t e
  let u := if cause = 4 then losePark s i else s
  have hu : seqOf u i = e ∧ (∀ j, j ≠ i → seqOf u j = seqOf s j) ∧ ReqsEnded s u := by
    unfold u e
    split
    · exact losePark_spec s i
    · exact ⟨rfl, fun _ _ => rfl, .of_eq rfl⟩
  obtain ⟨hmine, hothers, hended⟩ := hu
  have hlive : e.state ≠ .free := by
    unfold e parkLost
    split
    · split
      · exact fun h => nomatch h
      · exact h
    · exact h
  have hgeneration : e.generation = (seqOf s i).generation := by
    unfold e parkLost
    split
    · split <;> rfl
    · rfl
  have ht : t = putHeld u i cause result := holdSeq_eq rfl (hmine ▸ hlive) result
  obtain ⟨hseqs, hheld, hrunning⟩ := putHeld_spec u i cause result
  rw [ht]
  refine ⟨?_, fun j hj => ?_, fun q hq => ?_⟩
  · rw [seqOf, hseqs, ← seqOf, seqOf_putSeq, hmine]
  · rw [seqOf, hseqs, ← seqOf, seqOf_putSeq_ne _ _ hj, hothers j hj]
  · have hhandle : handleOf u i = handleOf s i := by rw [handleOf, hmine, hgeneration, ← handleOf]
    rcases hended.runningReq_kept hhandle hq with hnone | hsame
    · exact hheld.reqOf_none hnone
    · exact hrunning q hsame

/-- Holding a sequence (R336), in the terms of its state. -/
theorem holdSeq_holds {s : State} {i : Nat} (h : (seqOf s i).state ≠ .free) (cause result : Nat) :
    let t := holdSeq s i cause result
    let ended := cause = 4 ∧ (seqOf s i).park ≠ none ∧ (pitchOf s (seqOf s i).pitch).stopped = true
    (seqOf t i).state = (if (seqOf s i).state = .parked ∧ ¬ended then .parked else .held)
      ∧ (seqOf t i).hold = (if (seqOf s i).hold = 4 then 4 else cause) ∧ (cause = 4 → (seqOf t i).park = none)
      ∧ (seqOf t i).length = (seqOf s i).length := by
  intro t ended
  obtain ⟨hentry, -, -⟩ := holdSeq_spec h cause result
  rw [hentry]
  by_cases hcause : cause = 4
  · rw [if_pos hcause, parkLost]
    by_cases hstopped : (seqOf s i).park ≠ none ∧ (pitchOf s (seqOf s i).pitch).stopped = true
    · rw [if_pos hstopped, if_neg fun hn => hn.2 ⟨hcause, hstopped⟩]
      exact ⟨rfl, rfl, fun _ => rfl, rfl⟩
    · rw [if_neg hstopped]
      refine ⟨if_congr ?_ rfl rfl, rfl, fun _ => rfl, rfl⟩
      exact ⟨fun hparked => ⟨hparked, fun hended => hstopped hended.2⟩, fun hparked => hparked.1⟩
  · rw [if_neg hcause]
    refine ⟨if_congr ?_ rfl rfl, rfl, fun h4 => absurd h4 hcause, rfl⟩
    exact ⟨fun hparked => ⟨hparked, fun hended => hcause hended.1⟩, fun hparked => hparked.1⟩

/-! ### The status record (R343) -/

/-- Blocks that are padded to whole units have a length of that many units. -/
theorem length_padTo (n : Nat) (bs : List Byte) : (padTo n bs).length = n := by
  rw [padTo, List.length_append, List.length_take, List.length_replicate]
  omega

theorem length_counterBytes (c : Counters) : (counterBytes c).length = 32 := by simp [counterBytes]

theorem length_latchBytes (l : Latch) : (latchBytes l).length = 16 := by simp [latchBytes]

/-- The records of the other modules, each padded to whole layers. -/
def peerRecords (peers : List (List Byte)) : List Byte := (peers.map fun b => padTo (48 * ceilDiv b.length 48) b).flatten

theorem length_peerRecords (peers : List (List Byte)) : (peerRecords peers).length = 48 * (peers.map fun b => ceilDiv b.length 48).sum := by
  unfold peerRecords
  induction peers with
  | nil => rfl
  | cons b rest ih => rw [List.map_cons, List.flatten_cons, List.length_append, ih, length_padTo, List.map_cons, List.sum_cons, Nat.mul_add]

theorem length_layerRecords (layers : List LayerState) :
    (layers.map fun l => counterBytes l.counters ++ latchBytes l.latch).flatten.length = 48 * layers.length := by
  induction layers with
  | nil => rfl
  | cons l rest ih =>
    rw [List.map_cons, List.flatten_cons, List.length_append, ih, List.length_append, length_counterBytes, length_latchBytes, List.length_cons]
    omega

/-- The status record's length, and the fields that it begins with. -/
theorem statusRecord_spec (s : State) (i : Nat) (peers : List (List Byte)) :
    let bs := statusRecord s i (peerRecords peers)
    bs.length = 32 + 48 * ((seqOf s i).layers.length + (peers.map fun b => ceilDiv b.length 48).sum)
      ∧ bs.take 4 = leBytes 4 (handleOf s i) ∧ (bs.drop 4).take 1 = leBytes 1 (seqStateCode (seqOf s i).state)
      ∧ (bs.drop 12).take 4 = leBytes 4 (seqOf s i).length := by
  intro bs
  refine ⟨?_, ?_, ?_, ?_⟩
  · unfold bs statusRecord
    dsimp only
    simp only [List.length_append, length_leBytes, length_layerRecords, length_peerRecords]
    omega
  · simp [bs, statusRecord]
  · simp [bs, statusRecord]
  · simp [bs, statusRecord, List.drop_append, List.drop_eq_nil_of_le]

/-! ### STATUS (R343) -/

theorem writeEntry_out_subset (s : State) (fn ring : Nat) (k : Ring) (bytes : List Byte) (int : Bool) :
    s.out ⊆ (writeEntry s fn ring k bytes int).out := by
  unfold writeEntry
  extract_lets flags out next k1 f s1
  have hsent : s.out ⊆ s1.out := fun o ho => List.mem_append_left _ ho
  split
  · exact List.Subset.trans hsent (raiseInterrupt_out_subset _ _ _)
  · exact hsent

theorem postRing_out_subset (s : State) (fn ring : Nat) (bytes : List Byte) (int : Bool) : s.out ⊆ (postRing s fn ring bytes int).out := by
  unfold postRing
  dsimp only
  split
  · exact List.Subset.refl _
  · split
    · exact writeEntry_out_subset _ _ _ _ _ _
    · exact List.Subset.refl _

/-- A ring's command that completes leaves what has been sent. -/
theorem finish_out_subset {q : Request} {fn ring : Nat} (horigin : q.origin = .ring fn ring) (s : State) (result endCode handle value : Nat) :
    s.out ⊆ (finish s q result endCode handle value).out := by
  unfold finish
  dsimp only
  rw [horigin]
  exact postRing_out_subset _ _ _ _ _

section
variable {s : State} {rid : Nat} {q : Request} {r : PitchRecord} {peers : List (List Byte)}

theorem exec_qStatus (h : MayAct s rid 7 q r) : exec (.qStatus rid peers) s = .next (doStatus peers s q r) :=
  congrArg _ (onDue_acts (doStatus peers) h)

/-- A record that the output buffer holds is written there, and the command completes. -/
theorem doStatus_writes (hpeers : peers.length + 1 = r.group.groupSize)
    (hfits : (statusRecord s (handleIndex q.handle) (peerRecords peers)).length ≤ q.descriptor.length) :
    let bs := statusRecord s (handleIndex q.handle) (peerRecords peers)
    let t := doStatus peers s q r
    (∀ fn ring, q.origin = .ring fn ring → Output.dmaWrite fn q.data bs ∈ t.out) ∧ reqOf t q.rid = none
      ∧ t.seqs = s.seqs ∧ t.pitches = s.pitches ∧ t.mem = s.mem := by
  intro bs t
  let u := match q.origin with
    | .ring fn _ => send s (.dmaWrite fn q.data bs)
    | _ => s
  have ht : t = finish u q rcDone 0 q.handle bs.length := by
    unfold t doStatus
    dsimp only
    rw [if_neg (not_not.2 hpeers)]
    exact if_neg (Nat.not_lt.2 hfits)
  have hu : u.seqs = s.seqs ∧ u.pitches = s.pitches ∧ u.mem = s.mem := by
    unfold u
    split
    · exact ⟨rfl, rfl, rfl⟩
    · exact ⟨rfl, rfl, rfl⟩
  rw [ht]
  refine ⟨fun fn ring horigin => finish_out_subset horigin _ _ _ _ _ ?_, reqOf_finish _ _ _ _ _ _, ?_⟩
  · unfold u
    rw [horigin]
    exact List.mem_append_right _ (List.mem_singleton.2 rfl)
  · simpa using hu

end

/-- Settles O38: the record is read off its fields, and a held sequence is `entryHeld` of what its park leaves. -/
theorem statusAndHoldingOfASequence : Obligations.StatusAndHoldingOfASequence := by
  unfold Obligations.StatusAndHoldingOfASequence
  refine ⟨fun s rid peers q r hdue => ?_, fun s i cause result h => ?_⟩
  · refine ⟨congrArg _ (onDue_due (doStatus peers) hdue (.inl (by decide))), fun hact hpeers => ?_, fun hact hpeers hsmall => ?_, fun hact hpeers hfits => ?_⟩
    · exact (exec_qStatus hact).trans (congrArg _ (if_pos hpeers))
    · refine (exec_qStatus hact).trans (congrArg _ ?_)
      exact (if_neg (not_not.2 hpeers)).trans (if_pos hsmall)
    · obtain ⟨hrid, -, -⟩ := of_dueReq hact.1.1
      obtain ⟨hout, hnone, hseqs, hpitches, hmem⟩ := doStatus_writes hpeers hfits
      obtain ⟨hlength, hhandle, hstate, hseqLength⟩ := statusRecord_spec s (handleIndex q.handle) peers
      exact ⟨_, exec_qStatus hact, hout, hlength, hhandle, hstate, hseqLength, rid_of_reqOf hrid ▸ hnone, hseqs, hpitches, hmem⟩
  · obtain ⟨hstate, hhold, hpark, hlength⟩ := holdSeq_holds h cause result
    obtain ⟨-, hothers, hrunning⟩ := holdSeq_spec h cause result
    exact ⟨hstate, hhold, hpark, hlength, hothers, hrunning, (holdSeq_keeps _ _ _ _).2.2.2.2.1⟩

end Sys2Proof.Machine
end

section
/-! SUPPORT. Parks (R309 to R316): the requests that a preempting park ends, and the image of a sequence whose staging buffers are in HBM. -/

namespace Sys2Proof.Machine

/-! ### Commands that end -/

/-- A command of another number stays as it is when one completes. -/
theorem reqOf_finish_ne (s : State) {q : Request} {rid : Nat} (h : rid ≠ q.rid) (result endCode handle value : Nat) :
    reqOf (finish s q result endCode handle value) rid = reqOf s rid := by
  rw [reqOf, finish_reqs, List.find?_filter, reqOf]
  refine congrArg (fun f => s.reqs.find? f) (funext fun x => ?_)
  by_cases hx : x.rid = rid
  · simp [hx, h]
  · simp [hx]

theorem endQueued_reqsEnded (l : List Request) (s : State) : ReqsEnded s (endQueued l s) := by
  induction l generalizing s with
  | nil => exact .of_eq rfl
  | cons q rest ih => exact (finish_reqsEnded s q rcRefusedState 0 q.handle 0).trans (ih _)

/-- Every command of the list ends, and one of another number stays. -/
theorem endQueued_ends (l : List Request) (s : State) :
    (∀ x ∈ l, reqOf (endQueued l s) x.rid = none) ∧ ∀ rid, (∀ x ∈ l, rid ≠ x.rid) → reqOf (endQueued l s) rid = reqOf s rid := by
  induction l generalizing s with
  | nil => exact ⟨(fun _ h => nomatch h), fun _ _ => rfl⟩
  | cons q rest ih =>
    obtain ⟨hends, hstays⟩ := ih (finish s q rcRefusedState 0 q.handle 0)
    refine ⟨fun x hx => ?_, fun rid hrid => ?_⟩
    · rcases List.mem_cons.1 hx with rfl | hx
      · exact (endQueued_reqsEnded rest _).reqOf_none (reqOf_finish _ _ _ _ _ _)
      · exact hends x hx
    · rw [List.forall_mem_cons] at hrid
      exact (hstays rid hrid.2).trans (reqOf_finish_ne s hrid.1 _ _ _ _)

/-! ### Preempting parks (R311) -/

/-- The running request has ended with end 4. -/
def runningEnded (s : State) (i : Nat) : State :=
  match runningReq s i with
  | none => s
  | some x => finish (onSeq s i fun e => { e with state := .idle }) x rcRefusedState 4 x.handle 0

theorem preemptRequests_eq (s : State) (i : Nat) : preemptRequests s i = endQueued (queuedOf (runningEnded s i) i) (runningEnded s i) := rfl

theorem mem_of_runningReq {s : State} {i : Nat} {x : Request} (h : runningReq s i = some x) : x ∈ s.reqs ∧ (x.opcode = 1 ∨ x.opcode = 2) := by
  have hx := List.find?_some h
  simp only [Bool.and_eq_true, decide_eq_true_eq] at hx
  exact ⟨List.mem_of_find?_eq_some h, hx.1.2⟩

/-- What ending the running request leaves: other sequences, the sequence's handle, pitches and memory. -/
theorem runningEnded_spec (s : State) (i : Nat) :
    (∀ j, j ≠ i → seqOf (runningEnded s i) j = seqOf s j) ∧ handleOf (runningEnded s i) i = handleOf s i
      ∧ (runningEnded s i).pitches = s.pitches ∧ (runningEnded s i).mem = s.mem ∧ (runningEnded s i).cfg = s.cfg := by
  unfold runningEnded
  cases runningReq s i with
  | none => exact ⟨fun _ _ => rfl, rfl, rfl, rfl, rfl⟩
  | some x =>
    have hseq (j : Nat) : seqOf (finish (onSeq s i fun e => { e with state := .idle }) x rcRefusedState 4 x.handle 0) j
        = seqOf (onSeq s i fun e => { e with state := .idle }) j := by simp [seqOf]
    refine ⟨fun j hj => (hseq j).trans (seqOf_onSeq_ne _ _ hj), ?_, by simp, by simp, by simp⟩
    dsimp only
    rw [handleOf, hseq i, seqOf_onSeq]
    rfl

/-- The running request of a sequence that a park preempts ends, and a command of another number stays. -/
theorem runningEnded_reqs (s : State) (i : Nat) :
    (∀ x, runningReq s i = some x → (runningEnded s i).reqs = s.reqs.filter fun y => decide (y.rid ≠ x.rid))
      ∧ (runningReq s i = none → (runningEnded s i).reqs = s.reqs) := by
  unfold runningEnded
  refine ⟨fun x hx => ?_, fun hx => ?_⟩
  · rw [hx]
    exact finish_reqs _ _ _ _ _ _
  · rw [hx]

/-- The requests of a sequence that a park preempts end, and a PARK stays. -/
theorem preemptRequests_ends (s : State) (i : Nat) :
    let t := preemptRequests s i
    (∀ x, runningReq s i = some x → reqOf t x.rid = none) ∧ (∀ x ∈ queuedOf s i, reqOf t x.rid = none)
      ∧ ∀ rid, (∀ x ∈ s.reqs, x.rid = rid → x.opcode = 5) → reqOf t rid = reqOf s rid := by
  intro t
  obtain ⟨hsome, hnone⟩ := runningEnded_reqs s i
  have hhandle := (runningEnded_spec s i).2.1
  obtain ⟨hends, hstays⟩ := endQueued_ends (queuedOf (runningEnded s i) i) (runningEnded s i)
  have hlater : ReqsEnded (runningEnded s i) t := endQueued_reqsEnded _ _
  have hqueued (x : Request) : x ∈ queuedOf (runningEnded s i) i ↔ x ∈ (runningEnded s i).reqs ∧ x ∈ queuedOf s i := by
    have hsub : x ∈ (runningEnded s i).reqs → x ∈ s.reqs := fun hx => by
      cases hrun : runningReq s i with
      | none => exact hnone hrun ▸ hx
      | some y => exact List.mem_of_mem_filter (hsome y hrun ▸ hx)
    simp only [queuedOf, List.mem_filter, hhandle]
    exact ⟨fun h => ⟨h.1, hsub h.1, h.2⟩, fun h => ⟨h.1, h.2.2⟩⟩
  have hrunning (x : Request) (hx : runningReq s i = some x) : reqOf (runningEnded s i) x.rid = none := by
    rw [reqOf, hsome x hx, List.find?_eq_none]
    exact fun y hy => by simpa using (List.mem_filter.1 hy).2
  refine ⟨fun x hx => hlater.reqOf_none (hrunning x hx), fun x hx => ?_, fun rid hrid => ?_⟩
  · by_cases hthere : x ∈ (runningEnded s i).reqs
    · exact hends x ((hqueued x).2 ⟨hthere, hx⟩)
    · cases hrun : runningReq s i with
      | none => exact absurd (hnone hrun ▸ List.mem_of_mem_filter hx) hthere
      | some y =>
        have hsame : x.rid = y.rid := by
          by_contra hne
          exact hthere (hsome y hrun ▸ List.mem_filter.2 ⟨List.mem_of_mem_filter hx, by simpa using hne⟩)
        exact hsame ▸ hlater.reqOf_none (hrunning y hrun)
  · have hfirst : reqOf (runningEnded s i) rid = reqOf s rid := by
      cases hrun : runningReq s i with
      | none => rw [reqOf, hnone hrun, reqOf]
      | some y =>
        obtain ⟨hy, hop⟩ := mem_of_runningReq hrun
        have hne : rid ≠ y.rid := fun h => by
          have := hrid y hy h.symm
          omega
        unfold runningEnded
        rw [hrun]
        exact reqOf_finish_ne _ hne _ _ _ _
    refine (hstays rid fun x hx h => ?_).trans hfirst
    have hx' := ((hqueued x).1 hx).2
    have hop := hrid x (List.mem_of_mem_filter hx') h.symm
    have hle := (List.mem_filter.1 hx').2
    simp only [Bool.and_eq_true, decide_eq_true_eq] at hle
    omega

/-- What the requests that a preempting park ends leave. -/
theorem preemptRequests_spec (s : State) (i : Nat) :
    (∀ j, j ≠ i → seqOf (preemptRequests s i) j = seqOf s j) ∧ (preemptRequests s i).pitches = s.pitches ∧ (preemptRequests s i).mem = s.mem := by
  obtain ⟨hothers, -, hpitches, hmem, -⟩ := runningEnded_spec s i
  rw [preemptRequests_eq]
  refine ⟨fun j hj => Eq.trans ?_ (hothers j hj), by simp [hpitches], by simp [hmem]⟩
  simp [seqOf]

/-! ### What the lead tells its group (R361) -/

/-- Nothing of a pitch changes but the decisions that its lead has still to send. -/
theorem pitchOf_tellGroup (s : State) (p : Nat) (d : LeadDecision) (m : Nat) :
    pitchOf (tellGroup s p d) m = { pitchOf s m with decisions := (pitchOf (tellGroup s p d) m).decisions } := by
  unfold tellGroup
  split
  · rfl
  · split
    · by_cases hm : m = p
      · subst hm
        rw [pitchOf_onPitch]
      · rw [pitchOf_onPitch_ne _ _ hm]
    · rfl

/-! ### The image of a sequence (R317 to R323) -/

/-- The staging buffers of a sequence are in HBM (R313). -/
def inHbm (l : LayerState) : LayerState := { l with staging := { l.staging with inLarder := false } }

/-- In `t` everything that an image is formed from is what it is in `s`. -/
structure ImagesAlike (i : Nat) (s t : State) : Prop where
  entry : seqOf t i = { seqOf s i with layers := (seqOf s i).layers.map inHbm }
  page : ∀ p n, pageOf t p n = pageOf s p n
  shape : ∀ r j, shapeAt t r j = shapeAt s r j
  da : ∀ r a, daOf t r a = daOf s r a
  pitchDa : ∀ p a, pitchDa t p a = pitchDa s p a
  bytes : t.mem.bytes = s.mem.bytes

section
variable {i : Nat} {s t : State} (h : ImagesAlike i s t)
include h

theorem ImagesAlike.peek (a n : Nat) : peekBytes t a n = peekBytes s a n := by rw [peekBytes, h.bytes, ← peekBytes]

theorem ImagesAlike.handle : handleOf t i = handleOf s i := by rw [handleOf, h.entry, ← handleOf]

theorem ImagesAlike.payloads (p : Nat) (back : NMap (List Byte)) (ns : List Nat) : payloadsOf t p back ns = payloadsOf s p back ns := by
  have hpayload : payloadOf t p back = payloadOf s p back := by
    funext n
    simp only [payloadOf, h.page, h.peek, h.pitchDa]
  simp only [payloadsOf, h.page, hpayload]

theorem ImagesAlike.staging (r : PitchRecord) (j : Nat) (l : LayerState) : stagingRecord t r i j (inHbm l) = stagingRecord s r i j l := by
  simp only [stagingRecord, h.shape, h.handle, h.da, h.peek, inHbm]

theorem ImagesAlike.pageList (p first : Nat) (pay : List (Nat × List Byte)) (l : LayerState) :
    pageListRecord t p first pay (inHbm l) = pageListRecord s p first pay l := by
  have hentry : pageListEntry t p first pay = pageListEntry s p first pay := by
    funext n
    rw [pageListEntry, h.page, ← pageListEntry]
  simp only [pageListRecord, hentry, inHbm]

theorem ImagesAlike.summaries (p : Nat) (l : LayerState) : summariesRecord t p (inHbm l) = summariesRecord s p l := by
  simp only [summariesRecord, h.page, inHbm]

theorem ImagesAlike.layerRecords_eq (r : PitchRecord) (layers : List LayerState) (j first : Nat) (pays : List (List (Nat × List Byte))) :
    layerRecords t r i j first (layers.map inHbm) pays = layerRecords s r i j first layers pays := by
  induction layers generalizing j first pays with
  | nil => rfl
  | cons l rest ih =>
    rw [List.map_cons, layerRecords, layerRecords]
    rw [h.staging, h.pageList, h.summaries, ih]

/-- Moving the staging buffers to HBM changes no record of the image. -/
theorem ImagesAlike.records (r : PitchRecord) (back : NMap (List Byte)) : imageRecords t r i back = imageRecords s r i back := by
  have hpays : (seqOf s i).layers.map ((fun l => payloadsOf t r.pitch back l.pages) ∘ inHbm)
      = (seqOf s i).layers.map fun l => payloadsOf s r.pitch back l.pages :=
    List.map_congr_left fun l _ => h.payloads r.pitch back l.pages
  have hlatches : (seqOf s i).layers.map ((fun l => latchBytes l.latch) ∘ inHbm) = (seqOf s i).layers.map fun l => latchBytes l.latch := rfl
  unfold imageRecords
  rw [h.entry]
  dsimp only
  rw [List.map_map, List.map_map, hpays, hlatches, List.length_map, h.layerRecords_eq]
  rfl

end

end Sys2Proof.Machine
end

section
/-! PROOF. Parks: the command, the forming of the image and the commit (R309 to R315, R317, R321, R324). -/

namespace Sys2Proof.Machine

/-! ### PARK (R310 to R313) -/

section
variable {s : State} {rid : Nat} {q : Request} {r : PitchRecord}

theorem exec_qPark (h : Due s rid 5 q r) : exec (.qPark rid) s = .next (doPark (afterPreempt s q) q) :=
  congrArg _ (onDue_due (fun s q _ => doPark s q) h (.inl (by decide)))

/-- A sequence that is exported, that KEEP finds parked, or of which a fork is pending refuses the park (R312). -/
theorem doPark_refuses (h : (seqOf s (handleIndex q.handle)).exported ≠ none
    ∨ ((seqOf s (handleIndex q.handle)).state = .parked ∧ (parkDesc q.descriptor).disposition = 0) ∨ forkPending s q = true) :
    doPark s q = finishPlain s q rcRefusedState := if_pos h

/-- The sequence is marked parked, on every module of its group. -/
def parkBegun (s : State) (q : Request) : State :=
  tellGroup (beginPark s (handleIndex q.handle) (some q.rid) q.tag (spaceOf q.origin q.pitch) (parkDesc q.descriptor)) q.pitch
    (.park q.handle q.tag q.descriptor)

theorem doPark_parks (h : ¬((seqOf s (handleIndex q.handle)).exported ≠ none
    ∨ ((seqOf s (handleIndex q.handle)).state = .parked ∧ (parkDesc q.descriptor).disposition = 0) ∨ forkPending s q = true)) :
    doPark s q = if (parkDesc q.descriptor).disposition = 0 then finishPlain (parkBegun s q) q rcDone
      else onReq (parkBegun s q) q.rid fun q => { q with state := .inFlight } := if_neg h

/-- What the begin of a park leaves. -/
theorem parkBegun_spec (s : State) (q : Request) :
    let i := handleIndex q.handle
    let d := parkDesc q.descriptor
    seqOf (parkBegun s q) i = { seqOf s i with
        state := .parked
        park := if d.disposition = 0 then none
          else some ⟨some q.rid, false, d.disposition, d.destKind, d.address, d.length, d.session, 3, 0, q.tag, spaceOf q.origin q.pitch⟩ }
      ∧ (∀ j, j ≠ i → seqOf (parkBegun s q) j = seqOf s j) ∧ (parkBegun s q).reqs = s.reqs ∧ (parkBegun s q).mem = s.mem
      ∧ ∀ m, pitchOf (parkBegun s q) m = { pitchOf s m with decisions := (pitchOf (parkBegun s q) m).decisions } := by
  intro i d
  let u := beginPark s i (some q.rid) q.tag (spaceOf q.origin q.pitch) d
  have hseq (j : Nat) : seqOf (parkBegun s q) j = seqOf u j := by simp [parkBegun, seqOf, u, i, d]
  refine ⟨?_, fun j hj => ?_, ?_, ?_, fun m => pitchOf_tellGroup u q.pitch _ m⟩
  · rw [hseq, show seqOf u i = _ from seqOf_onSeq _ _ _]
  · rw [hseq, show seqOf u j = _ from seqOf_onSeq_ne _ _ hj]
  · simp [parkBegun, beginPark, onSeq, putSeq]
  · simp [parkBegun, beginPark, onSeq, putSeq]

/-- What a PARK that nothing refuses leaves, where the command is accepted under its number. -/
theorem doPark_spec (hreq : reqOf s q.rid = some q) (h : ¬((seqOf s (handleIndex q.handle)).exported ≠ none
    ∨ ((seqOf s (handleIndex q.handle)).state = .parked ∧ (parkDesc q.descriptor).disposition = 0) ∨ forkPending s q = true)) :
    let i := handleIndex q.handle
    let d := parkDesc q.descriptor
    let t := doPark s q
    (∀ j, j ≠ i → seqOf t j = seqOf s j) ∧ t.mem = s.mem ∧ (∀ m, pitchOf t m = { pitchOf s m with decisions := (pitchOf t m).decisions })
      ∧ (∀ n, reqOf s n = none → reqOf t n = none)
      ∧ (d.disposition = 0 → seqOf t i = { seqOf s i with state := .parked, park := none } ∧ reqOf t q.rid = none)
      ∧ (d.disposition ≠ 0 → seqOf t i = { seqOf s i with
            state := .parked
            park := some ⟨some q.rid, false, d.disposition, d.destKind, d.address, d.length, d.session, 3, 0, q.tag, spaceOf q.origin q.pitch⟩ }
          ∧ ∃ q1, reqOf t q.rid = some q1 ∧ q1.state = .inFlight) := by
  intro i d t
  obtain ⟨hentry, hothers, hreqs, hmem, hpitches⟩ := parkBegun_spec s q
  have ht : t = _ := doPark_parks h
  by_cases hkeep : d.disposition = 0
  · rw [if_pos hkeep] at ht hentry
    have hseq (j : Nat) : seqOf t j = seqOf (parkBegun s q) j := by simp [ht, seqOf]
    have hpitch (m : Nat) : pitchOf t m = pitchOf (parkBegun s q) m := by simp [ht, pitchOf]
    refine ⟨fun j hj => (hseq j).trans (hothers j hj), by simpa [ht] using hmem, fun m => by rw [hpitch]; exact hpitches m, fun n hn => ?_,
      fun _ => ⟨(hseq i).trans hentry, ht ▸ reqOf_finishPlain _ _ _⟩, fun hne => absurd hkeep hne⟩
    have hended : ReqsEnded s t := (ReqsEnded.of_eq hreqs).trans (ht ▸ finish_reqsEnded _ _ _ _ _ _)
    exact hended.reqOf_none hn
  · rw [if_neg hkeep] at ht hentry
    have hreq' : reqOf (parkBegun s q) q.rid = some q := by rw [reqOf, hreqs, ← reqOf, hreq]
    refine ⟨fun j hj => ?_, ?_, fun m => ?_, fun n hn => ?_, fun hz => absurd hz hkeep, fun _ => ⟨?_, ?_⟩⟩
    · rw [ht]; exact hothers j hj
    · rw [ht]; exact hmem
    · rw [ht]; exact hpitches m
    · rw [reqOf, List.find?_eq_none] at hn ⊢
      rw [ht]
      intro x hx
      obtain ⟨y, hy, rfl⟩ := List.mem_map.1 hx
      have hy' := hn y (hreqs ▸ hy)
      split
      · exact hy'
      · exact hy'
    · rw [ht]; exact hentry
    · rw [ht]; exact ⟨_, reqOf_onReq (fun _ => rfl) hreq', rfl⟩

end

/-- PARK (R309 to R313). -/
theorem qPark_parks {s : State} {rid : Nat} {q : Request} {r : PitchRecord} (hdue : Due s rid 5 q r)
    (hparks : preempted s (handleIndex q.handle) = true → ∀ x ∈ s.reqs, x.rid = rid → x.opcode = 5) :
    let i := handleIndex q.handle
    let u := afterPreempt s q
    let e := seqOf u i
    let d := parkDesc q.descriptor
    (e.exported ≠ none ∨ (e.state = .parked ∧ d.disposition = 0) ∨ forkPending u q = true → exec (.qPark rid) s = .next (finishPlain u q 0x0011))
    ∧ (e.exported = none → ¬(e.state = .parked ∧ d.disposition = 0) → forkPending u q = false →
      ∃ t, exec (.qPark rid) s = .next t ∧ (∀ j, j ≠ i → seqOf t j = seqOf s j) ∧ t.mem = s.mem
        ∧ (∀ m, pitchOf t m = { pitchOf s m with decisions := (pitchOf t m).decisions })
        ∧ (preempted s i = true → (∀ x, runningReq s i = some x → reqOf t x.rid = none) ∧ ∀ x ∈ queuedOf s i, reqOf t x.rid = none)
        ∧ (d.disposition = 0 → seqOf t i = { e with state := .parked, park := none } ∧ reqOf t rid = none)
        ∧ (d.disposition ≠ 0 →
            seqOf t i = { e with
              state := .parked
              park := some ⟨some rid, false, d.disposition, d.destKind, d.address, d.length, d.session, 3, 0, q.tag, spaceOf q.origin q.pitch⟩ }
            ∧ ∃ q1, reqOf t rid = some q1 ∧ q1.state = .inFlight)) := by
  intro i u e d
  obtain ⟨hreq, -, hop⟩ := of_dueReq hdue.1
  obtain rfl := rid_of_reqOf hreq
  refine ⟨fun h => (exec_qPark hdue).trans (congrArg _ (doPark_refuses h)), fun hexported hkeep hfork => ?_⟩
  have hnot : ¬(e.exported ≠ none ∨ (e.state = .parked ∧ d.disposition = 0) ∨ forkPending u q = true) := by
    simp only [hexported, hfork, not_or]
    exact ⟨fun h => h rfl, hkeep, Bool.false_ne_true⟩
  have hu : (∀ j, j ≠ i → seqOf u j = seqOf s j) ∧ u.pitches = s.pitches ∧ u.mem = s.mem ∧ reqOf u q.rid = some q
      ∧ (preempted s i = true → (∀ x, runningReq s i = some x → reqOf u x.rid = none) ∧ ∀ x ∈ queuedOf s i, reqOf u x.rid = none) := by
    have hnames : namesNone q = false := by simp [namesNone, hop]
    cases hpre : preempted s i with
    | false =>
      rw [show u = s from afterPreempt_acts (.inr hpre)]
      exact ⟨fun _ _ => rfl, rfl, rfl, hreq, fun h => nomatch h⟩
    | true =>
      rw [show u = preemptRequests s i from afterPreempt_preempted ⟨hnames, hpre⟩]
      obtain ⟨hothers, hpitches, hmem⟩ := preemptRequests_spec s i
      obtain ⟨hrunning, hqueued, hstays⟩ := preemptRequests_ends s i
      exact ⟨hothers, hpitches, hmem, (hstays _ (hparks hpre)).trans hreq, fun _ => ⟨hrunning, hqueued⟩⟩
  obtain ⟨hothers, hpitches, hmem, hreq', hended⟩ := hu
  obtain ⟨kothers, kmem, kpitches, knone, kkeep, kpark⟩ := doPark_spec hreq' hnot
  refine ⟨_, exec_qPark hdue, fun j hj => (kothers j hj).trans (hothers j hj), kmem.trans hmem, fun m => ?_, fun hpre => ?_, kkeep, kpark⟩
  · have hpitch : pitchOf u m = pitchOf s m := by rw [pitchOf, hpitches, ← pitchOf]
    exact hpitch ▸ kpitches m
  · obtain ⟨hrunning, hqueued⟩ := hended hpre
    exact ⟨fun x hx => knone _ (hrunning x hx), fun x hx => knone _ (hqueued x hx)⟩

end Sys2Proof.Machine
end

section
/-! PROOF. O36: the forming of the image and the commit, and its parts put together. -/

namespace Sys2Proof.Machine

/-! ### PARK_FORM_DONE (R313, R315, R317, R321, R324) -/

/-- The staging buffers of a sequence are moved to HBM. -/
def stagingsInHbm (s : State) (i : Nat) : State := onSeq s i fun e => { e with layers := e.layers.map inHbm }

/-- The sealed image of a sequence has been sent to its destination. -/
def imageSent (s : State) (r : PitchRecord) (i : Nat) (k : ParkState) (xs : List ImageRec) : State :=
  let (salt, s2) := drawBytes s 32
  let image := sealImage r (imageHeader s2 r i (decide (k.disposition = 2)) salt xs) salt xs
  if k.destKind = 1 then send s2 (.dmaWrite k.space k.destAddress image) else sendImage k.session k.tag (image.length / 8880 + 1) 0 image s2

/-- What forming the image does once its ranges have been read: a destination that is too small ends the park, and otherwise phase 4 begins. -/
def imageFormed (s : State) (r : PitchRecord) (i : Nat) (back : NMap (List Byte)) (k : ParkState) : State :=
  let s1 := stagingsInHbm s i
  let xs := imageRecords s1 r i back
  if k.destKind = 1 ∧ k.destLength < imageLength xs then abortPark s1 i rcNoCapacity (imageLength xs) false
  else onSeq (imageSent s1 r i k xs) i fun e => { e with park := some { k with phase := 4, imageLength := imageLength xs } }

section
variable {s : State} {i : Nat} {r : PitchRecord} {k : ParkState} {back : NMap (List Byte)} {found : List Finding}

theorem exec_parkFormDone (hi : i < 65536) (hr : recordOf s (seqOf s i).pitch = some r) :
    exec (.parkFormDone i back found) s = .next (doFormDone s r i back found) := by
  have hexec : exec (.parkFormDone i back found) s = execParkFormDone i back found s := rfl
  rw [hexec, execParkFormDone, if_pos (by simp [seqOk, hi]), hr]

/-- A park that is not in phase 3, of which a page moves or of which a payload has still to be read back waits. -/
theorem doFormDone_waits (hk : (seqOf s i).park = some k)
    (h : k.phase ≠ 3 ∨ pagesMove s (seqOf s i) = true ∨ ∃ n ∈ toImport s i, mget back n = none) : doFormDone s r i back found = s := by
  unfold doFormDone
  dsimp only
  rw [hk]
  refine if_pos (h.imp_right (Or.imp_right fun ⟨n, hn, hnone⟩ => ?_))
  exact List.any_eq_true.2 ⟨n, hn, by rw [hnone]; rfl⟩

/-- A park in phase 3 whose pages stand and have been read back goes on. -/
theorem doFormDone_reads (hk : (seqOf s i).park = some k) (hphase : k.phase = 3) (hmove : pagesMove s (seqOf s i) = false)
    (hback : ∀ n ∈ toImport s i, mget back n ≠ none) :
    doFormDone s r i back found = match badBack s i back with
      | some n => pageLost s r.pitch n 2 0x0403
      | none => rangerReads s r.pitch found (formRanges s r i) fun s =>
          if found.any stopsCommand = true ∨ (seqOf s i).park ≠ some k then s else imageFormed s r i back k := by
  have hthere : ((toImport s i).any fun n => (mget back n).isNone) = false :=
    List.any_eq_false.2 fun n hn => by simpa using hback n hn
  have hgo : ¬(k.phase ≠ 3 ∨ pagesMove s (seqOf s i) = true ∨ ((toImport s i).any fun n => (mget back n).isNone) = true) := by
    simp [hphase, hmove, hthere]
  unfold doFormDone
  dsimp only
  rw [hk]
  exact if_neg hgo

theorem rangerReads_admitted {p : Nat} {rs : List (Nat × Nat)} {f : State → State} (hwaits : found.any (findingWaits s false) = false)
    (hadmit : Admitted s rs) : rangerReads s p found rs f = f (rangerFindings p found (touched s rs)) := by
  rw [rangerReads, if_neg (by rw [hwaits]; decide), rangerAccess_admitted hadmit]

end

theorem pitches_touched (s : State) (rs : List (Nat × Nat)) : (touched s rs).pitches = s.pitches ∧ (touched s rs).out = s.out := by
  obtain ⟨us, late, h⟩ := touchUnits_eq (unitsAsked s rs) s
  rw [touched, h]
  exact ⟨rfl, rfl⟩

/-- The image is formed from what stands before the access notes its units and the buffers move. -/
theorem imagesAlike_stagingsInHbm (s : State) (rs : List (Nat × Nat)) (i : Nat) : ImagesAlike i s (stagingsInHbm (touched s rs) i) := by
  obtain ⟨us, late, h⟩ := touchUnits_eq (unitsAsked s rs) s
  rw [touched, h]
  refine ⟨?_, fun _ _ => rfl, fun _ _ => rfl, fun _ _ => rfl, fun _ _ => rfl, rfl⟩
  exact seqOf_onSeq _ _ _

theorem sendImage_frame (n tag k o : Nat) (bs : List Byte) (s : State) :
    (sendImage n tag k o bs s).seqs = s.seqs ∧ (sendImage n tag k o bs s).mem = s.mem ∧ (sendImage n tag k o bs s).pitches = s.pitches := by
  induction k generalizing o bs s with
  | zero => exact ⟨rfl, rfl, rfl⟩
  | succ k ih =>
    unfold sendImage
    split
    · exact ⟨rfl, rfl, rfl⟩
    · obtain ⟨hseqs, hmem, hpitches⟩ := ih (o + 8880) (bs.drop 8880)
        (sendMessage s n msgImageData (leBytes 4 tag ++ leBytes 4 0 ++ leBytes 8 o ++ bs.take 8880))
      exact ⟨hseqs.trans (by simp), hmem.trans (by simp), hpitches.trans (by simp)⟩

/-- Sending the image leaves sequences, memory and pitches; to host memory it is one write. -/
theorem imageSent_spec (s : State) (r : PitchRecord) (i : Nat) (k : ParkState) (xs : List ImageRec) :
    (imageSent s r i k xs).seqs = s.seqs ∧ (imageSent s r i k xs).mem = s.mem ∧ (imageSent s r i k xs).pitches = s.pitches
      ∧ (k.destKind = 1 → ∃ image, (imageSent s r i k xs).out = s.out ++ [.dmaWrite k.space k.destAddress image]) := by
  unfold imageSent
  dsimp only
  split
  · exact ⟨rfl, rfl, rfl, fun _ => ⟨_, rfl⟩⟩
  next hkind =>
    obtain ⟨hseqs, hmem, hpitches⟩ := sendImage_frame k.session k.tag _ 0 _ (drawBytes s 32).2
    exact ⟨hseqs, hmem, hpitches, fun h => absurd h hkind⟩

/-- An aborted park has no park state left (R314). -/
theorem park_abortPark (s : State) (i result value : Nat) (silent : Bool) : (seqOf (abortPark s i result value silent) i).park = none := by
  obtain ⟨hentry, -, -⟩ := endPark_spec s i result value silent
  have hended : (seqOf (endPark s i result value silent) i).park = none := by rw [hentry]
  unfold abortPark
  dsimp only
  split
  next hnone => exact hnone
  next =>
    split
    · let u := onSeq (endPark s i result value silent) i fun e => { e with state := .idle }
      have hu : seqOf u i = { seqOf (endPark s i result value silent) i with state := .idle } := seqOf_onSeq _ _ _
      obtain ⟨hheld, -, -⟩ := holdSeq_spec (s := u) (i := i) (by rw [hu]; exact fun h => nomatch h) 5 rcRefusedState
      rw [hheld, if_neg (by decide), hu]
      exact hended
    · exact hended

/-- What forming an image leaves, once its ranges are admitted (R313, R315). -/
theorem imageFormed_spec (s : State) (rs : List (Nat × Nat)) (r : PitchRecord) (i : Nat) (back : NMap (List Byte)) (k : ParkState) :
    let t := imageFormed (touched s rs) r i back k
    let len := imageLength (imageRecords s r i back)
    t.mem.bytes = s.mem.bytes ∧ (k.destKind = 1 → k.destLength < len → (seqOf t i).park = none)
      ∧ ((k.destKind = 1 → len ≤ k.destLength) → (seqOf t i).park = some { k with phase := 4, imageLength := len }
        ∧ (seqOf t i).state = (seqOf s i).state ∧ t.pitches = s.pitches
        ∧ (k.destKind = 1 → ∃ image, t.out = s.out ++ [.dmaWrite k.space k.destAddress image])) := by
  intro t len
  have halike := imagesAlike_stagingsInHbm s rs i
  let s1 := stagingsInHbm (touched s rs) i
  let xs := imageRecords s1 r i back
  have hlen : imageLength xs = len := by rw [show xs = _ from halike.records r back]
  obtain ⟨hpitches0, hout0⟩ := pitches_touched s rs
  by_cases hsmall : k.destKind = 1 ∧ k.destLength < len
  · have ht : t = abortPark s1 i rcNoCapacity (imageLength xs) false := if_pos (by rw [← hlen] at hsmall; exact hsmall)
    rw [ht]
    refine ⟨?_, fun _ _ => park_abortPark _ _ _ _ _, fun hfits => absurd (hfits hsmall.1) (Nat.not_le.2 hsmall.2)⟩
    rw [(abortPark_keeps _ _ _ _ _).2.2.2.2.1]
    exact halike.bytes
  · have ht : t = onSeq (imageSent s1 r i k xs) i fun e => { e with park := some { k with phase := 4, imageLength := imageLength xs } } :=
      if_neg (by rw [← hlen] at hsmall; exact hsmall)
    obtain ⟨hseqs, hmem, hpitches, hout⟩ := imageSent_spec s1 r i k xs
    have hentry : seqOf t i = { seqOf s1 i with park := some { k with phase := 4, imageLength := len } } := by
      rw [ht, seqOf_onSeq, hlen, seqOf, hseqs, ← seqOf]
    refine ⟨?_, fun hkind hlt => absurd ⟨hkind, hlt⟩ hsmall, fun _ => ⟨?_, ?_, ?_, fun hkind => ?_⟩⟩
    · rw [ht]
      exact (congrArg Memory.bytes hmem).trans halike.bytes
    · rw [hentry]
    · rw [hentry, halike.entry]
    · rw [ht]
      exact hpitches.trans hpitches0
    · obtain ⟨image, himage⟩ := hout hkind
      rw [ht]
      refine ⟨image, himage.trans ?_⟩
      rw [← hout0]
      rfl

/-- PARK_FORM_DONE (R313, R315, R321, R324). -/
theorem parkFormDone_forms {s : State} {i : Nat} {r : PitchRecord} {k : ParkState} (back : NMap (List Byte)) (hi : i < 65536)
    (hr : recordOf s (seqOf s i).pitch = some r) (hk : (seqOf s i).park = some k) (hphase : k.phase = 3) (hmove : pagesMove s (seqOf s i) = false)
    (hback : ∀ n ∈ toImport s i, mget back n ≠ none) :
    (∀ n, badBack s i back = some n → ∀ found, exec (.parkFormDone i back found) s = .next (pageLost s r.pitch n 2 0x0403))
      ∧ (badBack s i back = none → Admitted s (formRanges s r i) →
        (∀ found, found.any stopsCommand = true → found.any (findingWaits s false) = false →
          exec (.parkFormDone i back found) s = .next (rangerFindings r.pitch found (touched s (formRanges s r i))))
        ∧ exec (.parkFormDone i back []) s = .next (imageFormed (touched s (formRanges s r i)) r i back k)) := by
  have hexec (found : List Finding) := (exec_parkFormDone (back := back) (found := found) hi hr).trans
    (congrArg _ (doFormDone_reads hk hphase hmove hback))
  refine ⟨fun n hn found => ?_, fun hbad hadmit => ⟨fun found hstops hwaits => ?_, ?_⟩⟩
  · rw [hexec, hn]
  · rw [hexec, hbad]
    dsimp only
    rw [rangerReads_admitted hwaits hadmit, if_pos (.inl hstops)]
  · rw [hexec, hbad]
    dsimp only
    rw [rangerReads_admitted rfl hadmit]
    exact congrArg _ (if_neg (by simp [rangerFindings, hk]))

/-! ### PARK_COMMIT (R310, R313, R314) -/

section
variable {s : State} {i : Nat} {k : ParkState}

theorem exec_parkCommit (hi : i < 65536) (error : Bool) : exec (.parkCommit i error) s = .next (doParkCommit s i error) :=
  if_pos (by simp [seqOk, hi])

theorem doParkCommit_error (hk : (seqOf s i).park = some k) (hphase : k.phase = 4) : doParkCommit s i true = abortPark s i rcIntegrityFail 0 false := by
  unfold doParkCommit
  dsimp only
  rw [hk]
  dsimp only
  rw [if_neg (not_not.2 hphase), if_pos rfl]

theorem doParkCommit_waits (hk : (seqOf s i).park = some k) (hphase : k.phase = 4) (hacked : imageAcked s k = false) : doParkCommit s i false = s := by
  unfold doParkCommit
  dsimp only
  rw [hk]
  dsimp only
  rw [if_neg (not_not.2 hphase), if_neg (by decide), if_pos hacked]

/-- The park has left its sequence, and its command has completed. -/
def parkEnded (s : State) (i : Nat) (k : ParkState) : State := completePark (putSeq s i { seqOf s i with park := none }) k

/-- The place of an exported sequence's image. -/
def exportedTo (k : ParkState) : ImageSource := ⟨0, k.destKind, k.destAddress, k.imageLength, k.session, k.space⟩

theorem doParkCommit_commits (hk : (seqOf s i).park = some k) (hphase : k.phase = 4) (hacked : imageAcked s k = true) :
    doParkCommit s i false = if k.disposition = 2 then releaseSeq (parkEnded s i k) i
      else onSeq (exportPages (seqOf s i).pitch (((seqOf s i).layers.map (·.pages)).flatten) (parkEnded s i k)) i
        fun e => { e with exported := some (exportedTo k) } := by
  unfold doParkCommit
  dsimp only
  rw [hk]
  dsimp only
  rw [if_neg (not_not.2 hphase), if_neg (by decide), if_neg (by rw [hacked]; decide)]
  rfl

end

/-- The command of a park that ends is no longer there, and the sequence's pages stand. -/
theorem parkEnded_spec (s : State) (i : Nat) (k : ParkState) :
    seqOf (parkEnded s i k) i = { seqOf s i with park := none } ∧ (parkEnded s i k).pitches = s.pitches
      ∧ ∀ q : Request, k.rid = some q.rid → reqOf s q.rid = some q → reqOf (parkEnded s i k) q.rid = none := by
  let u := putSeq s i { seqOf s i with park := none }
  have hu : seqOf u i = { seqOf s i with park := none } := seqOf_putSeq _ _ _
  have hended : parkEnded s i k = match k.rid.bind (reqOf u) with
      | none => u
      | some q => finish u q rcDone 0 q.handle k.imageLength := rfl
  rw [hended]
  cases hrid : k.rid.bind (reqOf u) with
  | none =>
    refine ⟨hu, rfl, fun q hq hreq => ?_⟩
    rw [hq, Option.bind_some] at hrid
    exact nomatch hrid.symm.trans hreq
  | some x =>
    refine ⟨?_, by simp [u], fun q hq hreq => ?_⟩
    · exact Eq.trans (by simp [seqOf]) hu
    · rw [hq, Option.bind_some] at hrid
      obtain rfl := Option.some.inj (hrid.symm.trans hreq)
      exact reqOf_finish _ _ _ _ _ _

theorem releaseSeq_frees (s : State) (i : Nat) : (seqOf (releaseSeq s i) i).state = .free ∧ (releaseSeq s i).reqs = s.reqs := by
  constructor
  · unfold releaseSeq
    dsimp only
    rw [freeEntry, seqOf_onSeq]
    rfl
  · have hstagings (p : Nat) (l : List LayerState) (t : State) : (freeStagings p l t).reqs = t.reqs := by
      induction l generalizing t with
      | nil => rfl
      | cons x rest ih => exact (ih _).trans ((freePlaces_keepsTables p _ _).reqs.trans (by simp))
    have hnode (t : State) (p : Nat) (n : Option Nat) (f : Nat → Nat) : (nodeUsers t p n f).reqs = t.reqs := by
      cases n <;> rfl
    unfold releaseSeq
    dsimp only
    rw [freeEntry_reqs, hnode, hstagings]
    simp

/-! ### Pages that are exported (R310, R221) -/

/-- A page of which the parked sequence holds the only reference and of which the module has a copy. -/
def Exports (g : Page) : Prop := g.refcount = 1 ∧ (g.state = .hot ∨ g.state = .warm ∨ g.state = .both)

/-- A page whose copies have been freed. -/
def Exported (g : Page) : Prop := g.state = .exported ∧ g.hot = 0 ∧ g.warm = 0

theorem Exported.not_exports {g : Page} (h : Exported g) : ¬Exports g := by
  rintro ⟨-, hstate⟩
  rw [h.1] at hstate
  rcases hstate with h | h | h <;> exact nomatch h

theorem pageOf_freeIf (s : State) (q a p n : Nat) : pageOf (freeIf s q a) p n = pageOf s p n := by
  have hspace (x : Nat) : pageOf (onPitch s q fun y => { y with allocated := mdel y.allocated x }) p n = pageOf s p n := by
    unfold pageOf
    by_cases hp : p = q
    · subst hp
      rw [pitchOf_onPitch]
    · rw [pitchOf_onPitch_ne _ _ hp]
  unfold freeIf
  split
  · rfl
  · unfold freeRange
    split
    · exact hspace a
    · rfl

theorem exportPage_eq (s : State) (p n : Nat) (h : Exports (pageOf s p n)) : exportPage s p n
    = putPage (freeIf (freeIf (freeIf s p (pageOf s p n).hot) p (pageOf s p n).warm) p (pageOf s p n).summaryAt) p n
      { pageOf s p n with state := .exported, hot := 0, warm := 0, summaryAt := 0, summary := [] } := if_pos h

theorem exportPage_not (s : State) (p n : Nat) (h : ¬Exports (pageOf s p n)) : exportPage s p n = s := if_neg h

/-- A page that exports is exported; an exported one stays, and so does every page that another is. -/
theorem exportPage_spec (s : State) (p n : Nat) :
    (Exports (pageOf s p n) → Exported (pageOf (exportPage s p n) p n)) ∧ (∀ m, Exported (pageOf s p m) → Exported (pageOf (exportPage s p n) p m))
      ∧ ∀ m, m ≠ n → pageOf (exportPage s p n) p m = pageOf s p m := by
  by_cases h : Exports (pageOf s p n)
  · have hmine : Exported (pageOf (exportPage s p n) p n) := by
      rw [exportPage_eq s p n h, pageOf_putPage_same]
      exact ⟨rfl, rfl, rfl⟩
    have hother (m : Nat) (hm : m ≠ n) : pageOf (exportPage s p n) p m = pageOf s p m := by
      rw [exportPage_eq s p n h, pageOf_putPage_ne _ _ _ hm, pageOf_freeIf, pageOf_freeIf, pageOf_freeIf]
    refine ⟨fun _ => hmine, fun m hm => ?_, hother⟩
    by_cases hmn : m = n
    · exact hmn ▸ hmine
    · rwa [hother m hmn]
  · rw [exportPage_not s p n h]
    exact ⟨fun h' => absurd h' h, fun _ hm => hm, fun _ _ => rfl⟩

/-- Every page of the list that exports is exported. -/
theorem exportPages_spec (p : Nat) (l : List Nat) (s : State) :
    (∀ n ∈ l, Exports (pageOf s p n) → Exported (pageOf (exportPages p l s) p n))
      ∧ ∀ m, Exported (pageOf s p m) → Exported (pageOf (exportPages p l s) p m) := by
  induction l generalizing s with
  | nil => exact ⟨(fun _ h => nomatch h), fun _ h => h⟩
  | cons n rest ih =>
    obtain ⟨hends, hstays⟩ := ih (exportPage s p n)
    obtain ⟨hmine, hkept, hother⟩ := exportPage_spec s p n
    refine ⟨fun m hm hexports => ?_, fun m hm => hstays m (hkept m hm)⟩
    by_cases hmn : m = n
    · subst hmn
      exact hstays m (hmine hexports)
    · exact hends m ((List.mem_cons.1 hm).resolve_left hmn) (by rwa [hother m hmn])

theorem exportPages_keepsTables (p : Nat) (l : List Nat) (s : State) : KeepsTables s (exportPages p l s) := by
  induction l generalizing s with
  | nil => exact .refl s
  | cons n rest ih =>
    refine KeepsTables.trans ?_ (ih _)
    by_cases h : Exports (pageOf s p n)
    · rw [exportPage_eq s p n h]
      exact ⟨by simp [putPage], by simp [putPage]⟩
    · rw [exportPage_not s p n h]
      exact .refl s

/-- What a commit leaves (R310, R313). -/
theorem doParkCommit_spec {s : State} {i : Nat} {k : ParkState} (hk : (seqOf s i).park = some k) (hphase : k.phase = 4) (hacked : imageAcked s k = true) :
    let t := doParkCommit s i false
    (k.disposition = 2 → (seqOf t i).state = .free)
      ∧ (k.disposition ≠ 2 → (seqOf t i).park = none ∧ (seqOf t i).state = (seqOf s i).state ∧ (seqOf t i).exported = some (exportedTo k)
        ∧ ∀ n ∈ ((seqOf s i).layers.map (·.pages)).flatten, Exports (pageOf s (seqOf s i).pitch n) → Exported (pageOf t (seqOf s i).pitch n))
      ∧ ∀ q : Request, k.rid = some q.rid → reqOf s q.rid = some q → reqOf t q.rid = none := by
  intro t
  obtain ⟨hentry, hpitches, hended⟩ := parkEnded_spec s i k
  have ht : t = _ := doParkCommit_commits hk hphase hacked
  by_cases hrelease : k.disposition = 2
  · rw [if_pos hrelease] at ht
    obtain ⟨hfree, hreqs⟩ := releaseSeq_frees (parkEnded s i k) i
    refine ⟨fun _ => ht ▸ hfree, fun h => absurd hrelease h, fun q hq hreq => ?_⟩
    rw [reqOf, ht, hreqs]
    exact hended q hq hreq
  · rw [if_neg hrelease] at ht
    have htables := exportPages_keepsTables (seqOf s i).pitch (((seqOf s i).layers.map (·.pages)).flatten) (parkEnded s i k)
    obtain ⟨hexported, -⟩ := exportPages_spec (seqOf s i).pitch (((seqOf s i).layers.map (·.pages)).flatten) (parkEnded s i k)
    have hseq : seqOf t i = { seqOf s i with park := none, exported := some (exportedTo k) } := by
      rw [ht, seqOf_onSeq, htables.seqOf, hentry]
    refine ⟨fun h => absurd h hrelease, fun _ => ⟨by rw [hseq], by rw [hseq], by rw [hseq], fun n hn hexports => ?_⟩, fun q hq hreq => ?_⟩
    · have hpage : pageOf (parkEnded s i k) (seqOf s i).pitch n = pageOf s (seqOf s i).pitch n := by simp only [pageOf, pitchOf, hpitches]
      rw [ht]
      exact hexported n hn (hpage ▸ hexports)
    · have hkept : ReqsEnded (parkEnded s i k) t := .of_eq (by rw [ht]; exact htables.reqs)
      exact hkept.reqOf_none (hended q hq hreq)

/-- Settles O36: each row is read off the park that its sequence stands in. -/
theorem parksWriteTheirImage : Obligations.ParksWriteTheirImage := by
  unfold Obligations.ParksWriteTheirImage
  refine ⟨fun s rid q r hdue hparks => qPark_parks hdue hparks, fun s i r k back hi hr hk => ⟨fun h found => ?_, fun hphase hmove hback => ?_,
    fun hphase => ?_, fun hphase hacked => ?_, fun hphase hacked => ?_⟩⟩
  · exact (exec_parkFormDone hi hr).trans (congrArg _ (doFormDone_waits hk h))
  · obtain ⟨hbad, hgood⟩ := parkFormDone_forms back hi hr hk hphase hmove hback
    refine ⟨hbad, fun hnone hadmit => ?_⟩
    obtain ⟨hstops, hforms⟩ := hgood hnone hadmit
    exact ⟨hstops, _, hforms, imageFormed_spec s (formRanges s r i) r i back k⟩
  · exact (exec_parkCommit hi true).trans (congrArg _ (doParkCommit_error hk hphase))
  · exact (exec_parkCommit hi false).trans (congrArg _ (doParkCommit_waits hk hphase hacked))
  · obtain ⟨hrelease, hexport, hended⟩ := doParkCommit_spec hk hphase hacked
    refine ⟨_, exec_parkCommit hi false, hrelease, fun h => ?_, hended⟩
    obtain ⟨hpark, hstate, hexported, hpages⟩ := hexport h
    exact ⟨hpark, hstate, hexported, fun n hn hcount hcopies => hpages n hn ⟨hcount, hcopies⟩⟩

end Sys2Proof.Machine
end

section
/-! SUPPORT. Parks that the device starts (R316, R474): what starting them leaves of every sequence. -/

namespace Sys2Proof.Machine

/-! ### Changes of one entry -/

/-- From `s` to `t` the table of sequences changes in entry j alone, which keeps its pitch and its handle. -/
structure EntryOnly (j : Nat) (s t : State) : Prop where
  others : ∀ k, k ≠ j → seqOf t k = seqOf s k
  pitch : (seqOf t j).pitch = (seqOf s j).pitch
  generation : (seqOf t j).generation = (seqOf s j).generation
  listed : ∀ x ∈ t.seqs, x ∈ s.seqs ∨ (x.1 = j ∧ x.2.pitch = (seqOf s j).pitch)

theorem EntryOnly.of_seqs {s t : State} (j : Nat) (h : t.seqs = s.seqs) : EntryOnly j s t := by
  have hseq (k : Nat) : seqOf t k = seqOf s k := by rw [seqOf, h, ← seqOf]
  exact ⟨fun k _ => hseq k, by rw [hseq], by rw [hseq], fun x hx => .inl (h ▸ hx)⟩

theorem EntryOnly.trans {j : Nat} {s t u : State} (h₁ : EntryOnly j s t) (h₂ : EntryOnly j t u) : EntryOnly j s u := by
  refine ⟨fun k hk => (h₂.others k hk).trans (h₁.others k hk), h₂.pitch.trans h₁.pitch, h₂.generation.trans h₁.generation, fun x hx => ?_⟩
  rcases h₂.listed x hx with hx | ⟨hj, hp⟩
  · exact h₁.listed x hx
  · exact .inr ⟨hj, hp.trans h₁.pitch⟩

theorem putSeq_entryOnly {s : State} {j : Nat} {e : SeqEntry} (hpitch : e.pitch = (seqOf s j).pitch) (hgeneration : e.generation = (seqOf s j).generation) :
    EntryOnly j s (putSeq s j e) := by
  refine ⟨fun k hk => seqOf_putSeq_ne _ _ hk, by rw [seqOf_putSeq, hpitch], by rw [seqOf_putSeq, hgeneration], fun x hx => ?_⟩
  rcases mem_mset hx with rfl | hx
  · exact .inr ⟨rfl, hpitch⟩
  · exact .inl hx

theorem endPark_entryOnly (s : State) (i result value : Nat) (silent : Bool) : EntryOnly i s (endPark s i result value silent) := by
  have hput : EntryOnly i s (putSeq s i { seqOf s i with park := none }) := putSeq_entryOnly rfl rfl
  unfold endPark
  dsimp only
  split
  · exact .of_seqs i rfl
  · split
    · exact hput.trans (.of_seqs i (by simp))
    · split
      · exact hput.trans (.of_seqs i (by simp))
      · exact hput.trans (.of_seqs i (by simp))

theorem abortPark_entryOnly (s : State) (i result value : Nat) (silent : Bool) : EntryOnly i s (abortPark s i result value silent) := by
  have hend := endPark_entryOnly s i result value silent
  unfold abortPark
  dsimp only
  split
  · exact .of_seqs i rfl
  · split
    · let u := onSeq (endPark s i result value silent) i fun e => { e with state := .idle }
      have hidle : EntryOnly i (endPark s i result value silent) u := putSeq_entryOnly rfl rfl
      have hlive : (seqOf u i).state ≠ .free := by
        rw [show seqOf u i = _ from seqOf_onSeq _ _ _]
        exact fun h => nomatch h
      have hheld : EntryOnly i u (holdSeq u i 5 rcRefusedState) := by
        rw [holdSeq_eq (if_neg (by decide)).symm hlive]
        have hput : EntryOnly i u (putSeq u i (entryHeld (seqOf u i) 5)) := putSeq_entryOnly rfl rfl
        exact hput.trans (.of_seqs i (putHeld_spec u i 5 rcRefusedState).1)
      exact (hend.trans hidle).trans hheld
    · exact hend

/-! ### A park of the device's own (R316) -/

/-- From `s` to `t` no pitch changes but in the decisions that its lead has still to send. -/
def DecisionsOnly (s t : State) : Prop := ∀ m, pitchOf t m = { pitchOf s m with decisions := (pitchOf t m).decisions }

theorem DecisionsOnly.of_pitches {s t : State} (h : t.pitches = s.pitches) : DecisionsOnly s t := fun m => by
  have hm : pitchOf t m = pitchOf s m := by rw [pitchOf, h, ← pitchOf]
  rw [hm]

theorem DecisionsOnly.trans {s t u : State} (h₁ : DecisionsOnly s t) (h₂ : DecisionsOnly t u) : DecisionsOnly s u := fun m =>
  (h₂ m).trans (congrArg (fun x : Pitch => { x with decisions := (pitchOf u m).decisions }) (h₁ m))

theorem DecisionsOnly.inFlight {s t : State} (h : DecisionsOnly s t) (p i : Nat) : inFlight t p i = inFlight s p i := by
  unfold Machine.inFlight
  rw [h p]

/-- A sequence that stands in a park. -/
def InPark (e : SeqEntry) : Prop := e.state = .parked ∧ e.park ≠ none

/-- The sequence has been marked parked by the device, and its waiting requests have ended. -/
def deviceParked (s : State) (r : PitchRecord) (i : Nat) : State :=
  let s1 := match runningReq s i with
    | none => s
    | some q => finish s q rcRefusedState 4 q.handle 0
  let s2 := endQueued (queuedOf s1 i) s1
  let k : ParkState := ⟨none, true, 1, r.parkKind, r.parkAddress, r.parkLength, r.parkSession, 3, 0, 0, r.pitch + 1⟩
  tellGroup (onSeq s2 i fun e => { e with state := .parked, park := some k }) r.pitch (.devicePark (handleOf s i))

/-- A sequence that the device may park. -/
def Parkable (e : SeqEntry) : Prop := e.state ≠ .free ∧ e.exported = none ∧ e.park = none

theorem devicePark_parks {s : State} {r : PitchRecord} {i : Nat} (h : Parkable (seqOf s i)) :
    devicePark s r i = if r.parkKind = 0 then abortPark (deviceParked s r i) i rcIntegrityFail 0 false else deviceParked s r i := by
  obtain ⟨hlive, hexported, hpark⟩ := h
  refine if_neg ?_
  rintro (h | h | h)
  · exact hlive h
  · exact h hexported
  · exact h hpark

theorem devicePark_not {s : State} {r : PitchRecord} {i : Nat} (h : ¬Parkable (seqOf s i)) : devicePark s r i = s := by
  refine if_pos ?_
  by_contra hnot
  simp only [not_or, not_not] at hnot
  exact h hnot

/-- What marking a sequence leaves. -/
theorem deviceParked_spec (s : State) (r : PitchRecord) (i : Nat) :
    EntryOnly i s (deviceParked s r i) ∧ InPark (seqOf (deviceParked s r i) i) ∧ DecisionsOnly s (deviceParked s r i) := by
  let s1 := match runningReq s i with
    | none => s
    | some q => finish s q rcRefusedState 4 q.handle 0
  have h1 : s1.seqs = s.seqs ∧ s1.pitches = s.pitches := by
    unfold s1
    split <;> simp
  let s2 := endQueued (queuedOf s1 i) s1
  have h2 : s2.seqs = s.seqs ∧ s2.pitches = s.pitches := ⟨Eq.trans (by simp [s2]) h1.1, Eq.trans (by simp [s2]) h1.2⟩
  let k : ParkState := ⟨none, true, 1, r.parkKind, r.parkAddress, r.parkLength, r.parkSession, 3, 0, 0, r.pitch + 1⟩
  let s3 := onSeq s2 i fun e => { e with state := .parked, park := some k }
  have ht : deviceParked s r i = tellGroup s3 r.pitch (.devicePark (handleOf s i)) := rfl
  have hput : EntryOnly i s2 s3 := putSeq_entryOnly rfl rfl
  have htell : (deviceParked s r i).seqs = s3.seqs := by simp [ht]
  refine ⟨((EntryOnly.of_seqs i h2.1).trans hput).trans (.of_seqs i htell), ?_, ?_⟩
  · rw [seqOf, htell, ← seqOf, show seqOf s3 i = _ from seqOf_onSeq _ _ _]
    exact ⟨rfl, Option.some_ne_none k⟩
  · exact (DecisionsOnly.of_pitches (t := s3) h2.2).trans (pitchOf_tellGroup s3 r.pitch _)

/-- What a park of the device's own leaves: another entry stays, one that may be parked stands in a park where there is a destination. -/
theorem devicePark_spec (s : State) (r : PitchRecord) (j : Nat) :
    EntryOnly j s (devicePark s r j) ∧ DecisionsOnly s (devicePark s r j)
      ∧ (Parkable (seqOf s j) → r.parkKind ≠ 0 → InPark (seqOf (devicePark s r j) j)) ∧ (¬Parkable (seqOf s j) → devicePark s r j = s) := by
  by_cases h : Parkable (seqOf s j)
  · obtain ⟨hentry, hin, hpitches⟩ := deviceParked_spec s r j
    rw [devicePark_parks h]
    split
    next hkind =>
      refine ⟨hentry.trans (abortPark_entryOnly _ _ _ _ _), hpitches.trans (.of_pitches (by simp)), fun _ hne => absurd hkind hne, fun hn => absurd h hn⟩
    next => exact ⟨hentry, hpitches, fun _ _ => hin, fun hn => absurd h hn⟩
  · rw [devicePark_not h]
    exact ⟨.of_seqs j rfl, .of_pitches rfl, fun hp => absurd hp h, fun _ => rfl⟩

/-! ### Lists of parks -/

/-- A key that a map lists once is read as its entry. -/
theorem mget_of_mem {α : Type} {m : NMap α} (h : (m.map (·.1)).Nodup) {x : Nat × α} (hx : x ∈ m) : mget m x.1 = some x.2 := by
  induction m with
  | nil => exact nomatch hx
  | cons y rest ih =>
    obtain ⟨a, w⟩ := y
    obtain ⟨hfirst, hrest⟩ : a ∉ rest.map (·.1) ∧ (rest.map (·.1)).Nodup := List.nodup_cons.1 h
    unfold mget
    rcases List.mem_cons.1 hx with rfl | hx
    · exact if_pos rfl
    · have hne : a ≠ x.1 := fun ha => hfirst (ha ▸ List.mem_map_of_mem hx)
      rw [if_neg hne]
      exact ih hrest hx

/-- A sequence that is not free stands in the table. -/
theorem mem_of_live {s : State} {k : Nat} (h : (seqOf s k).state ≠ .free) : (k, seqOf s k) ∈ s.seqs := by
  unfold seqOf mgetD at h ⊢
  cases hget : mget s.seqs k with
  | none =>
    rw [hget] at h
    exact absurd rfl h
  | some e => exact mem_of_mget hget

/-- A run of the device's parks has led from `s0` to `t`, seen from sequence i: it stands as before or stands in a park, and the pitches and
handles of the table are those of before. -/
structure ParksRun (s0 : State) (i : Nat) (t : State) : Prop where
  listed : ∀ x ∈ t.seqs, x.2.pitch = (seqOf s0 x.1).pitch ∧ x.1 ∈ s0.seqs.map (·.1)
  pitch : ∀ k, (seqOf t k).pitch = (seqOf s0 k).pitch
  handle : ∀ k, handleOf t k = handleOf s0 k
  decisions : DecisionsOnly s0 t
  entry : seqOf t i = seqOf s0 i ∨ InPark (seqOf t i)

theorem InPark.not_parkable {e : SeqEntry} (h : InPark e) : ¬Parkable e := fun hp => h.2 hp.2.2

section
variable {s0 t : State} {i : Nat}

/-- A table that lists each sequence once. -/
theorem ParksRun.start (h : (s0.seqs.map (·.1)).Nodup) : ParksRun s0 i s0 := by
  refine ⟨fun x hx => ⟨?_, List.mem_map_of_mem hx⟩, fun _ => rfl, fun _ => rfl, .of_pitches rfl, .inl rfl⟩
  rw [seqOf, mgetD, mget_of_mem h hx, Option.getD_some]

/-- A park is started in a run, with a destination where it is that of sequence i. -/
theorem ParksRun.devicePark (h : ParksRun s0 i t) (r : PitchRecord) (j : Nat) (hkind : j = i → r.parkKind ≠ 0) :
    ParksRun s0 i (devicePark t r j) ∧ (InPark (seqOf t i) → InPark (seqOf (Machine.devicePark t r j) i))
      ∧ (j = i → Parkable (seqOf s0 i) → InPark (seqOf (Machine.devicePark t r j) i)) ∧ (j ≠ i → seqOf (Machine.devicePark t r j) i = seqOf t i) := by
  obtain ⟨hentry, hdecisions, hparks, hnot⟩ := devicePark_spec t r j
  have hother (hj : j ≠ i) : seqOf (Machine.devicePark t r j) i = seqOf t i := hentry.others i (Ne.symm hj)
  have hpitch (k : Nat) : (seqOf (Machine.devicePark t r j) k).pitch = (seqOf t k).pitch := by
    by_cases hk : k = j
    · exact hk ▸ hentry.pitch
    · rw [hentry.others k hk]
  have hgeneration (k : Nat) : (seqOf (Machine.devicePark t r j) k).generation = (seqOf t k).generation := by
    by_cases hk : k = j
    · exact hk ▸ hentry.generation
    · rw [hentry.others k hk]
  have hkeeps (hin : InPark (seqOf t i)) : InPark (seqOf (Machine.devicePark t r j) i) := by
    by_cases hj : j = i
    · subst hj
      rw [hnot hin.not_parkable]
      exact hin
    · rwa [hother hj]
  refine ⟨⟨fun x hx => ?_, fun k => (hpitch k).trans (h.pitch k), fun k => ?_, h.decisions.trans hdecisions, ?_⟩, hkeeps, fun hj hp => ?_, hother⟩
  · by_cases hp : Parkable (seqOf t j)
    · rcases hentry.listed x hx with hx | ⟨rfl, hx⟩
      · exact h.listed x hx
      · exact ⟨hx.trans (h.pitch _), (h.listed _ (mem_of_live hp.1)).2⟩
    · rw [hnot hp] at hx
      exact h.listed x hx
  · rw [handleOf, hgeneration, ← handleOf]
    exact h.handle k
  · rcases h.entry with hsame | hin
    · by_cases hj : j = i
      · subst hj
        by_cases hp : Parkable (seqOf t j)
        · exact .inr (hparks hp (hkind rfl))
        · exact .inl (by rw [hnot hp]; exact hsame)
      · exact .inl ((hother hj).trans hsame)
    · exact .inr (hkeeps hin)
  · subst hj
    rcases h.entry with hsame | hin
    · exact hparks (hsame ▸ hp) (hkind rfl)
    · exact hkeeps hin

/-- A list of parks. -/
theorem ParksRun.deviceParks (h : ParksRun s0 i t) (r : PitchRecord) (l : List Nat) (hkind : i ∈ l → r.parkKind ≠ 0) :
    ParksRun s0 i (deviceParks r l t) ∧ (InPark (seqOf t i) → InPark (seqOf (Machine.deviceParks r l t) i))
      ∧ (i ∈ l → Parkable (seqOf s0 i) → InPark (seqOf (Machine.deviceParks r l t) i)) ∧ (i ∉ l → seqOf (Machine.deviceParks r l t) i = seqOf t i) := by
  induction l generalizing t with
  | nil => exact ⟨h, fun hin => hin, (fun hi => nomatch hi), fun _ => rfl⟩
  | cons j rest ih =>
    obtain ⟨hrun, hkeeps, hparks, hother⟩ := h.devicePark r j fun hj => hkind (hj ▸ List.mem_cons_self)
    obtain ⟨krun, kkeeps, kparks, kother⟩ := ih hrun fun hi => hkind (List.mem_cons_of_mem j hi)
    refine ⟨krun, fun hin => kkeeps (hkeeps hin), fun hi hp => ?_, fun hi => ?_⟩
    · rcases List.mem_cons.1 hi with rfl | hi
      · exact kkeeps (hparks rfl hp)
      · exact kparks hi hp
    · obtain ⟨hne, hrest⟩ := not_or.1 (mt List.mem_cons.2 hi)
      exact (kother hrest).trans (hother (Ne.symm hne))

end

end Sys2Proof.Machine
end

section
/-! SUPPORT. The backup policy (R316, R474): the sequences that it parks, and those that it marks. -/

namespace Sys2Proof.Machine

theorem mem_seqsWhere {s : State} {p i : Nat} {f : Nat → SeqEntry → Bool} :
    i ∈ seqsWhere s p f ↔ ∃ e, (i, e) ∈ s.seqs ∧ e.state ≠ .free ∧ e.pitch = p ∧ f i e = true := by
  simp only [seqsWhere, List.mem_map, List.mem_filter, Bool.and_eq_true, decide_eq_true_eq]
  constructor
  · rintro ⟨⟨k, e⟩, ⟨hmem, ⟨hlive, hpitch⟩, hf⟩, rfl⟩
    exact ⟨e, hmem, hlive, hpitch, hf⟩
  · rintro ⟨e, hmem, hlive, hpitch, hf⟩
    exact ⟨(i, e), ⟨hmem, ⟨hlive, hpitch⟩, hf⟩, rfl⟩

/-- The policy parks the sequence now: an IDLE one, or one that is not parked and runs no row. -/
def PolicyPicks (s : State) (policy i : Nat) : Prop :=
  if policy = 1 then (seqOf s i).state = .idle else (seqOf s i).state ≠ .parked ∧ inFlight s (seqOf s i).pitch i = false

section
variable {s0 t : State} {i : Nat} {rs : List PitchRecord} {r : PitchRecord}

/-- A sequence of a list stands in the pitch that the list is of. -/
theorem ParksRun.pitch_of_mem (h : ParksRun s0 i t) {p : Nat} {f : Nat → SeqEntry → Bool} (hi : i ∈ seqsWhere t p f) : (seqOf s0 i).pitch = p := by
  obtain ⟨e, hmem, -, hpitch, -⟩ := mem_seqsWhere.1 hi
  exact (h.listed _ hmem).1.symm.trans hpitch

/-- The parks of the policy: a sequence that it picks in a pitch that the module leads stands in a park. -/
theorem ParksRun.policyParks (h : ParksRun s0 i t) (policy : Nat) (hkind : ∀ r ∈ rs, r.pitch = (seqOf s0 i).pitch → r.parkKind ≠ 0) :
    ParksRun s0 i (policyParks policy rs t) ∧ (InPark (seqOf t i) → InPark (seqOf (Machine.policyParks policy rs t) i))
      ∧ (∀ r ∈ rs, r.enabled = true → isLead r = true → r.pitch = (seqOf s0 i).pitch → Parkable (seqOf s0 i) → PolicyPicks s0 policy i →
          InPark (seqOf (Machine.policyParks policy rs t) i)) := by
  induction rs generalizing t with
  | nil => exact ⟨h, fun hin => hin, (fun _ hr => nomatch hr)⟩
  | cons r rest ih =>
    let l := policySeqs t policy r.pitch
    obtain ⟨hrun, hkeeps, hparks, -⟩ := h.deviceParks r l fun hi => hkind r List.mem_cons_self (h.pitch_of_mem hi).symm
    let u := if r.enabled ∧ isLead r then Machine.deviceParks r l t else t
    have hu : ParksRun s0 i u ∧ (InPark (seqOf t i) → InPark (seqOf u i)) := by
      unfold u
      split
      · exact ⟨hrun, hkeeps⟩
      · exact ⟨h, fun hin => hin⟩
    obtain ⟨krun, kkeeps, kparks⟩ := ih hu.1 fun r' hr' => hkind r' (List.mem_cons_of_mem r hr')
    refine ⟨krun, fun hin => kkeeps (hu.2 hin), fun r' hr' henabled hlead hpitch hp hpicks => ?_⟩
    rcases List.mem_cons.1 hr' with rfl | hr'
    · refine kkeeps ?_
      have hu' : u = Machine.deviceParks r' l t := if_pos ⟨henabled, hlead⟩
      rw [hu']
      rcases h.entry with hsame | hin
      · refine hparks (mem_seqsWhere.2 ⟨seqOf t i, mem_of_live (hsame ▸ hp.1), hsame ▸ hp.1, hsame ▸ hpitch.symm, ?_⟩) hp
        rw [hsame]
        unfold PolicyPicks at hpicks
        split
        next h1 =>
          rw [if_pos h1] at hpicks
          exact decide_eq_true hpicks
        next h1 =>
          rw [if_neg h1, ← hpitch] at hpicks
          rw [h.decisions.inFlight, hpicks.2]
          simpa using hpicks.1
      · exact hkeeps hin
    · exact kparks r' hr' henabled hlead hpitch hp hpicks

/-! ### Marked sequences -/

/-- The handles of the marked sequences of a pitch that are in no step any more. -/
def dueMarks (s : State) (p : Nat) : List Nat :=
  s.pw.toPark.filter fun h => decide ((seqOf s (handleIndex h)).pitch = p) && !inFlight s p (handleIndex h)

theorem mem_dueMarks {s : State} {p h : Nat} :
    h ∈ dueMarks s p ↔ h ∈ s.pw.toPark ∧ (seqOf s (handleIndex h)).pitch = p ∧ inFlight s p (handleIndex h) = false := by
  simp [dueMarks]

theorem parkMarked_eq (s : State) (r : PitchRecord) :
    parkMarked s r = deviceParks r (((dueMarks s r.pitch).filter fun h => decide (handleOf s (handleIndex h) = h)).map handleIndex)
      { s with pw := { s.pw with toPark := s.pw.toPark.filter fun h => decide (h ∉ dueMarks s r.pitch) } } := rfl

theorem parkMarked_pw (s : State) (r : PitchRecord) :
    (parkMarked s r).pw = { s.pw with toPark := s.pw.toPark.filter fun h => decide (h ∉ dueMarks s r.pitch) } := by
  rw [parkMarked_eq]
  simp

theorem ParksRun.withPw (h : ParksRun s0 i t) (pw : Power) : ParksRun s0 i { t with pw := pw } :=
  ⟨h.listed, h.pitch, h.handle, h.decisions, h.entry⟩

/-- A marked sequence of the pitch that is in no step stands in a park, and is marked no longer; one in a step stays as it is. -/
theorem ParksRun.parkMarked (h : ParksRun s0 i t) (hkind : r.pitch = (seqOf s0 i).pitch → r.parkKind ≠ 0) :
    ParksRun s0 i (parkMarked t r) ∧ (InPark (seqOf t i) → InPark (seqOf (Machine.parkMarked t r) i))
      ∧ (i < 65536 → handleOf s0 i ∈ t.pw.toPark → r.pitch = (seqOf s0 i).pitch → inFlight s0 r.pitch i = false → Parkable (seqOf s0 i) →
          InPark (seqOf (Machine.parkMarked t r) i) ∧ handleOf s0 i ∉ (Machine.parkMarked t r).pw.toPark)
      ∧ (inFlight s0 (seqOf s0 i).pitch i = true → seqOf (Machine.parkMarked t r) i = seqOf t i) := by
  rw [parkMarked_pw, parkMarked_eq]
  let l := ((dueMarks t r.pitch).filter fun h => decide (handleOf t (handleIndex h) = h)).map handleIndex
  have hl (hi : i ∈ l) : r.pitch = (seqOf s0 i).pitch ∧ inFlight s0 r.pitch i = false := by
    obtain ⟨m, hm, hindex⟩ := List.mem_map.1 hi
    obtain ⟨-, hpitch, hflight⟩ := mem_dueMarks.1 (List.mem_of_mem_filter hm)
    rw [hindex] at hpitch hflight
    rw [h.decisions.inFlight] at hflight
    exact ⟨hpitch.symm.trans (h.pitch i), hflight⟩
  obtain ⟨hrun, hkeeps, hparks, hother⟩ := (h.withPw { t.pw with toPark := t.pw.toPark.filter fun h => decide (h ∉ dueMarks t r.pitch) }).deviceParks r l
    fun hi => hkind (hl hi).1
  refine ⟨hrun, hkeeps, fun hlt hmark hpitch hflight hp => ?_, fun hflight => hother fun hi => ?_⟩
  · have hindex : handleIndex (handleOf s0 i) = i := by
      rw [handleIndex, handleOf]
      omega
    have hdue : handleOf s0 i ∈ dueMarks t r.pitch :=
      mem_dueMarks.2 ⟨hmark, by rw [hindex, h.pitch, hpitch], by rw [hindex, h.decisions.inFlight, hflight]⟩
    refine ⟨hparks (List.mem_map.2 ⟨handleOf s0 i, List.mem_filter.2 ⟨hdue, ?_⟩, hindex⟩) hp, fun hmem => ?_⟩
    · rw [hindex, h.handle]
      exact decide_eq_true rfl
    · exact of_decide_eq_true (List.mem_filter.1 hmem).2 hdue
  · obtain ⟨hpitch, hfree⟩ := hl hi
    rw [hpitch, hflight] at hfree
    exact Bool.noConfusion hfree

/-- The marks of the other pitches stand. -/
theorem parkMarked_keepsMark (h : ParksRun s0 i t) (hlt : i < 65536) (hpitch : r.pitch ≠ (seqOf s0 i).pitch) (hmark : handleOf s0 i ∈ t.pw.toPark) :
    handleOf s0 i ∈ (parkMarked t r).pw.toPark := by
  rw [parkMarked_pw]
  refine List.mem_filter.2 ⟨hmark, decide_eq_true fun hdue => hpitch ?_⟩
  have hindex : handleIndex (handleOf s0 i) = i := by
    rw [handleIndex, handleOf]
    omega
  obtain ⟨-, hp, -⟩ := mem_dueMarks.1 hdue
  rw [hindex, h.pitch] at hp
  exact hp.symm

theorem parkMarked_dropsMark (s : State) (r : PitchRecord) {m : Nat} (hm : m ∉ s.pw.toPark) : m ∉ (parkMarked s r).pw.toPark := by
  rw [parkMarked_pw]
  exact fun hmem => hm (List.mem_of_mem_filter hmem)

/-- The parks of the marked sequences, over the pitches of a list. -/
theorem ParksRun.parkAllMarked (h : ParksRun s0 i t) (hkind : ∀ r ∈ rs, r.pitch = (seqOf s0 i).pitch → r.parkKind ≠ 0) :
    ParksRun s0 i (parkAllMarked rs t) ∧ (InPark (seqOf t i) → InPark (seqOf (Machine.parkAllMarked rs t) i))
      ∧ (inFlight s0 (seqOf s0 i).pitch i = true → seqOf (Machine.parkAllMarked rs t) i = seqOf t i) := by
  induction rs generalizing t with
  | nil => exact ⟨h, fun hin => hin, fun _ => rfl⟩
  | cons r rest ih =>
    obtain ⟨hrun, hkeeps, -, hstays⟩ := h.parkMarked (hkind r List.mem_cons_self)
    have hrest : ∀ r' ∈ rest, r'.pitch = (seqOf s0 i).pitch → r'.parkKind ≠ 0 := fun r' hr' => hkind r' (List.mem_cons_of_mem r hr')
    unfold Machine.parkAllMarked
    split
    · obtain ⟨krun, kkeeps, kstays⟩ := ih hrun hrest
      exact ⟨krun, fun hin => kkeeps (hkeeps hin), fun hflight => (kstays hflight).trans (hstays hflight)⟩
    · exact ih h hrest

theorem parkAllMarked_dropsMark (rs : List PitchRecord) (s : State) {m : Nat} (hm : m ∉ s.pw.toPark) : m ∉ (parkAllMarked rs s).pw.toPark := by
  induction rs generalizing s with
  | nil => exact hm
  | cons r rest ih =>
    unfold parkAllMarked
    split
    · exact ih _ (parkMarked_dropsMark s r hm)
    · exact ih _ hm

theorem parkAllMarked_pw (rs : List PitchRecord) (s : State) :
    (parkAllMarked rs s).pw = { s.pw with toPark := (parkAllMarked rs s).pw.toPark } := by
  induction rs generalizing s with
  | nil => rfl
  | cons r rest ih =>
    unfold parkAllMarked
    rw [ih]
    split
    · rw [parkMarked_pw]
    · rfl

/-- A marked sequence of a led pitch that is in no step stands in a park, and is marked no longer (R316, R474). -/
theorem ParksRun.parkAllMarked_parks (h : ParksRun s0 i t) (hkind : ∀ r ∈ rs, r.pitch = (seqOf s0 i).pitch → r.parkKind ≠ 0) (hr : r ∈ rs)
    (hlead : isLead r = true) (hpitch : r.pitch = (seqOf s0 i).pitch) (hflight : inFlight s0 r.pitch i = false) (hlt : i < 65536)
    (hp : Parkable (seqOf s0 i)) (hmark : handleOf s0 i ∈ t.pw.toPark) :
    InPark (seqOf (Machine.parkAllMarked rs t) i) ∧ handleOf s0 i ∉ (Machine.parkAllMarked rs t).pw.toPark := by
  induction rs generalizing t with
  | nil => exact nomatch hr
  | cons r' rest ih =>
    have hkind' : r'.pitch = (seqOf s0 i).pitch → r'.parkKind ≠ 0 := hkind r' List.mem_cons_self
    have hrest : ∀ r ∈ rest, r.pitch = (seqOf s0 i).pitch → r.parkKind ≠ 0 := fun r hr => hkind r (List.mem_cons_of_mem r' hr)
    obtain ⟨hrun, -, hparks, -⟩ := h.parkMarked hkind'
    unfold Machine.parkAllMarked
    by_cases hlead' : isLead r' = true
    · rw [if_pos hlead']
      by_cases hsame : r'.pitch = (seqOf s0 i).pitch
      · obtain ⟨hin, hgone⟩ := hparks hlt hmark hsame (by rwa [hsame, ← hpitch]) hp
        exact ⟨(hrun.parkAllMarked hrest).2.1 hin, parkAllMarked_dropsMark rest _ hgone⟩
      · have hr' : r ∈ rest := (List.mem_cons.1 hr).resolve_left fun heq => hsame (heq ▸ hpitch)
        exact ih hrun hrest hr' (parkMarked_keepsMark h hlt hsame hmark)
    · rw [if_neg hlead']
      have hr' : r ∈ rest := (List.mem_cons.1 hr).resolve_left fun heq => hlead' (heq ▸ hlead)
      exact ih h hrest hr' hmark

end

end Sys2Proof.Machine
end

section
/-! PROOF. Supplies: inputs that fail and return, losses of power, and the backup policy (R465 to R467, R474, R481, R482, R484). -/

namespace Sys2Proof.Machine

/-! ### The backup policy (R316, R474) -/

section
variable {s : State} {now : Nat} {c : Configuration} {b i : Nat}

/-- The marked sequences that are in no step have been parked. -/
def marksParked (s : State) (now : Nat) (c : Configuration) : State := parkAllMarked c.pitches (atTime s now)

/-- What the policy parks and marks at its time. -/
def policyParked (u : State) (c : Configuration) : State :=
  let marks := if c.power.backupPolicy = 2 then policyMarks u c else []
  let s1 := policyParks c.power.backupPolicy c.pitches u
  { s1 with pw := { s1.pw with parked := true, toPark := s1.pw.toPark ++ marks.filter fun h => decide (h ∉ s1.pw.toPark) } }

theorem parkAllMarked_cfg (rs : List PitchRecord) (u : State) : (parkAllMarked rs u).cfg = u.cfg ∧ (parkAllMarked rs u).cairn = u.cairn := by
  induction rs generalizing u with
  | nil => exact ⟨rfl, rfl⟩
  | cons r rest ih =>
    unfold parkAllMarked
    split
    · exact ⟨(ih _).1.trans (by simp), (ih _).2.trans (by simp)⟩
    · exact ih _

theorem policyParks_pw (policy : Nat) (rs : List PitchRecord) (u : State) : (policyParks policy rs u).pw = u.pw := by
  induction rs generalizing u with
  | nil => rfl
  | cons r rest ih =>
    unfold policyParks
    rw [ih]
    split
    · simp
    · rfl

/-- The row parks the marked sequences, and then those of the policy where its time has come. -/
theorem exec_backupPark (hcfg : s.cfg = some c) :
    exec (.backupPark now) s = .next (match s.pw.backupSince with
      | none => marksParked s now c
      | some b =>
        if s.pw.onBackup = false ∨ s.pw.parked = true ∨ c.power.backupPolicy = 0
            ∨ (atTime s now).cairn.count < b + c.power.backupParkS * 1000000000 then marksParked s now c
        else policyParked (marksParked s now c) c) := by
  have hexec : exec (.backupPark now) s = .next (doBackupPark (atTime s now)) := rfl
  have hmarked : parkAllMarked (((atTime s now).cfg.map (·.pitches)).getD []) (atTime s now) = marksParked s now c := by
    rw [show (atTime s now).cfg = some c from hcfg]
    rfl
  have hcfg' : (marksParked s now c).cfg = some c := (parkAllMarked_cfg _ _).1.trans hcfg
  have hcount : (marksParked s now c).cairn = (atTime s now).cairn := (parkAllMarked_cfg _ _).2
  have hpw : (marksParked s now c).pw = { s.pw with toPark := (marksParked s now c).pw.toPark } := parkAllMarked_pw _ _
  rw [hexec, doBackupPark, hmarked]
  dsimp only
  rw [hcfg', hpw, hcount]
  cases s.pw.backupSince with
  | none => rfl
  | some b => rfl

theorem exec_backupPark_policy (hcfg : s.cfg = some c) (hsince : s.pw.backupSince = some b) (hbackup : s.pw.onBackup = true)
    (hparked : s.pw.parked = false) (hpolicy : c.power.backupPolicy ≠ 0) (htime : b + c.power.backupParkS * 1000000000 ≤ (atTime s now).cairn.count) :
    exec (.backupPark now) s = .next (policyParked (marksParked s now c) c) := by
  rw [exec_backupPark hcfg, hsince]
  exact congrArg _ (if_neg (by simp [hbackup, hparked, hpolicy, Nat.not_lt.2 htime]))

/-- The row leaves either the parks of the marked sequences or those of the policy as well. -/
theorem exec_backupPark_or (hcfg : s.cfg = some c) :
    exec (.backupPark now) s = .next (marksParked s now c) ∨ exec (.backupPark now) s = .next (policyParked (marksParked s now c) c) := by
  rw [exec_backupPark hcfg]
  split
  · exact .inl rfl
  · split
    · exact .inl rfl
    · exact .inr rfl

/-- The pitch of a sequence has a destination for the device's parks, where its record has one and the configuration names each pitch once. -/
theorem parkKind_of_pitch {r : PitchRecord} (hpitches : (c.pitches.map (·.pitch)).Nodup) (hr : r ∈ c.pitches) (hpitch : (seqOf s i).pitch = r.pitch)
    (hkind : r.parkKind ≠ 0) : ∀ r' ∈ c.pitches, r'.pitch = (seqOf (atTime s now) i).pitch → r'.parkKind ≠ 0 := fun r' hr' h => by
  rw [List.inj_on_of_nodup_map hpitches hr' hr (h.trans hpitch)]
  exact hkind

/-- The policy's parks: a sequence that it picks in a led pitch stands in a park. -/
theorem policyParked_parks {r : PitchRecord} (hseqs : (s.seqs.map (·.1)).Nodup) (hpitches : (c.pitches.map (·.pitch)).Nodup) (hr : r ∈ c.pitches)
    (henabled : r.enabled = true) (hlead : isLead r = true) (hkind : r.parkKind ≠ 0) (hpitch : (seqOf s i).pitch = r.pitch)
    (hp : Parkable (seqOf s i)) (hpicks : PolicyPicks s c.power.backupPolicy i) :
    (seqOf (policyParked (marksParked s now c) c) i).state = .parked := by
  have hone := parkKind_of_pitch (now := now) hpitches hr hpitch hkind
  have hstart : ParksRun (atTime s now) i (atTime s now) := .start hseqs
  obtain ⟨hrun, -, -⟩ := hstart.parkAllMarked hone
  obtain ⟨-, -, hparks⟩ := hrun.policyParks c.power.backupPolicy hone
  exact (hparks r hr henabled hlead hpitch.symm hp hpicks).1

/-- The policy's marks: a sequence of a led pitch that is in a step is marked (R474). -/
theorem policyParked_marks {r : PitchRecord} (hseqs : (s.seqs.map (·.1)).Nodup) (hpitches : (c.pitches.map (·.pitch)).Nodup) (hr : r ∈ c.pitches)
    (henabled : r.enabled = true) (hlead : isLead r = true) (hkind : r.parkKind ≠ 0) (hpitch : (seqOf s i).pitch = r.pitch)
    (hp : Parkable (seqOf s i)) (hstate : (seqOf s i).state ≠ .parked) (hflight : inFlight s r.pitch i = true) (hpolicy : c.power.backupPolicy = 2) :
    handleOf s i ∈ (policyParked (marksParked s now c) c).pw.toPark := by
  have hone := parkKind_of_pitch (now := now) hpitches hr hpitch hkind
  have hstart : ParksRun (atTime s now) i (atTime s now) := .start hseqs
  obtain ⟨hrun, -, hstays⟩ := hstart.parkAllMarked hone
  have hsame : seqOf (marksParked s now c) i = seqOf s i := hstays (by rw [show (seqOf (atTime s now) i).pitch = r.pitch from hpitch]; exact hflight)
  have hlisted : i ∈ seqsWhere (marksParked s now c) r.pitch fun i e => decide (e.state ≠ .parked) && inFlight (marksParked s now c) r.pitch i := by
    refine mem_seqsWhere.2 ⟨_, mem_of_live (hsame ▸ hp.1), hsame ▸ hp.1, hsame ▸ hpitch, ?_⟩
    have hflight' : inFlight (marksParked s now c) r.pitch i = true := (hrun.decisions.inFlight _ _).trans hflight
    rw [hsame, hflight']
    simpa using hstate
  have hmark : handleOf s i ∈ policyMarks (marksParked s now c) c := by
    refine List.mem_flatten.2 ⟨_, List.mem_map_of_mem (List.mem_filter.2 ⟨hr, by simp [henabled, hlead]⟩), ?_⟩
    exact List.mem_map.2 ⟨i, hlisted, hrun.handle i⟩
  unfold policyParked
  dsimp only
  rw [if_pos hpolicy, policyParks_pw, List.mem_append]
  by_cases hthere : handleOf s i ∈ (marksParked s now c).pw.toPark
  · exact .inl hthere
  · exact .inr (List.mem_filter.2 ⟨hmark, decide_eq_true hthere⟩)

/-- A sequence that is in no step gets no mark. -/
theorem ParksRun.not_mem_policyMarks {s0 u : State} (h : ParksRun s0 i u) (hkeys : ∀ e ∈ s0.seqs, e.1 < 65536) (hlt : i < 65536)
    (hflight : inFlight s0 (seqOf s0 i).pitch i = false) : handleOf s0 i ∉ policyMarks u c := by
  intro hmark
  obtain ⟨l, hl, hmem⟩ := List.mem_flatten.1 hmark
  obtain ⟨r', -, rfl⟩ := List.mem_map.1 hl
  obtain ⟨j, hj, hhandle⟩ := List.mem_map.1 hmem
  obtain ⟨e, he, -, hpitch, htest⟩ := mem_seqsWhere.1 hj
  obtain ⟨hlisted, hkey⟩ := h.listed _ he
  obtain ⟨x, hx, hxj⟩ := List.mem_map.1 hkey
  have hjlt : j < 65536 := Eq.subst (motive := (· < 65536)) hxj (hkeys x hx)
  obtain rfl : j = i := by
    rw [h.handle, handleOf, handleOf] at hhandle
    omega
  rw [Bool.and_eq_true, h.decisions.inFlight, ← hpitch, hlisted, hflight] at htest
  exact Bool.false_ne_true htest.2

/-- A marked sequence that is in no step any more stands in a park, and is marked no longer, whatever the policy does then. -/
theorem backupPark_boundary {r : PitchRecord} (hseqs : (s.seqs.map (·.1)).Nodup) (hkeys : ∀ e ∈ s.seqs, e.1 < 65536)
    (hpitches : (c.pitches.map (·.pitch)).Nodup) (hr : r ∈ c.pitches) (hlead : isLead r = true) (hkind : r.parkKind ≠ 0)
    (hmark : handleOf s i ∈ s.pw.toPark) (hpitch : (seqOf s i).pitch = r.pitch) (hflight : inFlight s r.pitch i = false) (hp : Parkable (seqOf s i))
    {t : State} (ht : t = marksParked s now c ∨ t = policyParked (marksParked s now c) c) :
    (seqOf t i).state = .parked ∧ handleOf s i ∉ t.pw.toPark := by
  have hone := parkKind_of_pitch (now := now) hpitches hr hpitch hkind
  have hstart : ParksRun (atTime s now) i (atTime s now) := .start hseqs
  have hlt : i < 65536 := hkeys _ (mem_of_live hp.1)
  obtain ⟨hrun, -, -⟩ := hstart.parkAllMarked hone
  obtain ⟨hin, hgone⟩ := hstart.parkAllMarked_parks hone hr hlead hpitch.symm hflight hlt hp hmark
  rcases ht with rfl | rfl
  · exact ⟨hin.1, hgone⟩
  · obtain ⟨-, hkeeps, -⟩ := hrun.policyParks c.power.backupPolicy hone
    refine ⟨(hkeeps hin).1, ?_⟩
    have hmarks : handleOf s i ∉ policyMarks (marksParked s now c) c :=
      hrun.not_mem_policyMarks hkeys hlt (by rw [show (seqOf (atTime s now) i).pitch = r.pitch from hpitch]; exact hflight)
    unfold policyParked
    dsimp only
    rw [policyParks_pw, List.mem_append, not_or]
    refine ⟨hgone, fun hmem => ?_⟩
    have hmem' := List.mem_of_mem_filter hmem
    split at hmem'
    · exact hmarks hmem'
    · exact nomatch hmem'

end

/-! ### Starts that go on (R465) -/

/-- The phases of a start change what `StartFrame` says alone. -/
theorem bootOn_startFrame (s : State) (f : BootFindings) : StartFrame s (bootOn s f) := by
  by_cases hbad : f.pairsAgree = false ∨ f.xspiUp = false
  · rw [bootOn_stands hbad]
    exact .refl s
  · cases hslot : (chooseSlot s.nvm f).slot with
    | none =>
      rw [bootOn_noSlot hbad hslot]
      exact (slotChosen_spec s f).1.trans ⟨rfl, rfl, .refl _⟩
    | some k =>
      obtain ⟨detail, hboot⟩ := bootOn_slot hbad hslot
      obtain ⟨hframe1, hboot1, -⟩ := bootedFrom_spec s f k
      obtain ⟨hframe2, hboot2, -⟩ := trialNoted_spec (bootedFrom s f k) (chooseSlot s.nvm f).onTrial detail
      obtain ⟨hframe3, hboot3, -⟩ := reportLatches_startFrame (trialNoted (bootedFrom s f k) (chooseSlot s.nvm f).onTrial detail)
      have hidentity := congrArg Boot.identity (hboot3.trans (hboot2.trans hboot1))
      rw [hboot]
      exact ((hframe1.trans hframe2).trans hframe3).trans (takeConfig_spec _ f hidentity).1

/-- With an input in range the rails are raised, and a start goes on. -/
theorem raiseRails_pw (s : State) (f : BootFindings) (h : (s.pw.mainGood || s.pw.backupGood) = true) :
    (raiseRails s f).pw.rails = true ∧ (raiseRails s f).pw.mainGood = s.pw.mainGood ∧ (raiseRails s f).pw.onBackup = !s.pw.mainGood
      ∧ (raiseRails s f).pw.backupSince = if s.pw.mainGood then none else some s.cairn.count := by
  have hraise : raiseRails s f = bootOn (railsUp s) f := if_pos h
  have hpw := congrArg State.pw (bootOn_startFrame (railsUp s) f).frame
  rw [hraise, hpw]
  refine ⟨rfl, rfl, rfl, ?_⟩
  cases hmain : s.pw.mainGood <;> simp [railsUp, hmain]

/-! ### Supplies (R465 to R467, R474, R482, R484) -/

section
variable {s : State} {now mv : Nat}

/-- A main input out of its operating range clears main_good. -/
theorem mainLeaves_spec (s : State) (mv : Nat) (h : inRange54 mv = false) :
    (mainLeaves s mv).pw = { s.pw with mainGood := false } ∧ (mainLeaves s mv).mem = s.mem ∧ (mainLeaves s mv).seqs = s.seqs
      ∧ (mainLeaves s mv).pitches = s.pitches ∧ (mainLeaves s mv).cairn = s.cairn
      ∧ (s.pw.mainGood = true → s.pw.rails = true → (mainLeaves s mv).ev.written = (s.ev.written + 1) % 2 ^ 32) := by
  unfold mainLeaves
  split
  next hnot =>
    have hmain : s.pw.mainGood = false := hnot.resolve_right (by rw [h]; decide)
    refine ⟨?_, rfl, rfl, rfl, rfl, fun hgood => absurd (hmain.symm.trans hgood) (by decide)⟩
    rw [← hmain]
  next =>
    dsimp only
    split
    · exact ⟨by simp [inputRange], by simp [inputRange], by simp [inputRange], by simp [inputRange], by simp [inputRange],
        fun _ _ => rangerEvent_written _ _ _ _ _⟩
    next hrails => exact ⟨rfl, rfl, rfl, rfl, rfl, fun _ hr => absurd hr hrails⟩

/-- The load moves to the backup, and every die is shed. -/
def loadOnBackup (s : State) : State :=
  { s with pw := { s.pw with onBackup := true, backupSince := some s.cairn.count, parked := false } }

/-- The load has moved, and the power is counted anew. -/
def backupReported (v : State) (mv power : Nat) : State := rangerEvent (restartBelow v) 0x08 0x0F01 noPitch (powerDetail 0 0 0 (mv / 10) power)

theorem doMainFailure_eq (s : State) (mv : Nat) :
    doMainFailure s mv = if s.pw.rails = false ∨ s.pw.onBackup = true ∨ (42000 ≤ mv ∧ mv ≤ 60000) then mainLeaves s mv
      else if (mainLeaves s mv).pw.backupGood = true then
        backupReported (capDies 0 allDies (loadOnBackup (mainLeaves s mv))) mv (mainLeaves s mv).pw.power
      else mainLeaves s mv := rfl

theorem backupReported_spec (v : State) (mv power : Nat) :
    (backupReported v mv power).pw = { v.pw with belowSince := (backupReported v mv power).pw.belowSince }
      ∧ (backupReported v mv power).mem = v.mem ∧ (backupReported v mv power).seqs = v.seqs ∧ (backupReported v mv power).pitches = v.pitches := by
  have hpw : (backupReported v mv power).pw = (restartBelow v).pw := by simp [backupReported]
  refine ⟨?_, by simp [backupReported, restartBelow, notePower], by simp [backupReported, restartBelow, notePower],
    by simp [backupReported, restartBelow, notePower]⟩
  rw [hpw]
  rfl

/-- A main input that fails: a good backup takes the load, with every die at point 0 (R466). -/
theorem doMainFailure_spec (hrails : s.pw.rails = true) (hmain : s.pw.onBackup = false) (hmv : mv < 42000 ∨ 60000 < mv) :
    let t := doMainFailure s mv
    t.pw.mainGood = false ∧ t.mem = s.mem ∧ t.seqs = s.seqs ∧ t.pitches = s.pitches
      ∧ (s.pw.backupGood = true → t.pw.onBackup = true ∧ t.pw.backupSince = some s.cairn.count ∧ t.pw.parked = false
          ∧ ∀ d, d < 8 → (dieAt t d).point = 0)
      ∧ (s.pw.backupGood = false → t.pw.onBackup = s.pw.onBackup ∧ t.pw.dies = s.pw.dies) := by
  intro t
  obtain ⟨hpw, hmem, hseqs, hpitches, hcairn, -⟩ := mainLeaves_spec s mv (by simp only [inRange54, decide_eq_false_iff_not]; omega)
  have hgood : (mainLeaves s mv).pw.backupGood = s.pw.backupGood := by rw [hpw]
  have hgo : ¬(s.pw.rails = false ∨ s.pw.onBackup = true ∨ (42000 ≤ mv ∧ mv ≤ 60000)) := by
    rintro (h | h | h)
    · exact Bool.noConfusion (hrails.symm.trans h)
    · exact Bool.noConfusion (hmain.symm.trans h)
    · omega
  have ht : t = _ := (doMainFailure_eq s mv).trans (if_neg hgo)
  rw [hgood] at ht
  cases hback : s.pw.backupGood with
  | false =>
    rw [if_neg (by rw [hback]; decide)] at ht
    rw [ht, hpw]
    exact ⟨rfl, hmem, hseqs, hpitches, (fun h => nomatch h), fun _ => ⟨rfl, rfl⟩⟩
  | true =>
    rw [if_pos hback] at ht
    obtain ⟨kpw, kmem, kseqs, kpitches⟩ := backupReported_spec (capDies 0 allDies (loadOnBackup (mainLeaves s mv))) mv (mainLeaves s mv).pw.power
    have hmoved := movePoints_diesOnly (min 0) allDies (loadOnBackup (mainLeaves s mv))
    rw [← capDies_eq] at hmoved
    have hrest := hmoved.rest
    rw [← ht] at kpw kmem kseqs kpitches
    refine ⟨?_, ?_, ?_, ?_, fun _ => ⟨?_, ?_, ?_, fun d hd => ?_⟩, (fun h => nomatch h)⟩
    · rw [kpw, hrest]
      exact congrArg Power.mainGood hpw
    · rw [kmem, hrest]
      exact hmem
    · rw [kseqs, hrest]
      exact hseqs
    · rw [kpitches, hrest]
      exact hpitches
    · rw [kpw, hrest]
      rfl
    · rw [kpw, hrest]
      exact congrArg (fun c : Cairn => some c.count) hcairn
    · rw [kpw, hrest]
      rfl
    · have hdies : t.pw.dies = (movePoints (min 0) allDies (loadOnBackup (mainLeaves s mv))).pw.dies := by
        rw [kpw, capDies_eq]
      rw [dieAt_congr hdies]
      exact (point_movePoints_all (Nat.min_zero 0) hd _).trans (Nat.zero_min _)

/-- A main input out of its operating range alone is reported (R484). -/
theorem doMainFailure_range (hlo : 42000 ≤ mv) (hhi : mv ≤ 60000) : doMainFailure s mv = mainLeaves s mv :=
  (doMainFailure_eq s mv).trans (if_pos (.inr (.inr ⟨hlo, hhi⟩)))

/-- VIN_MAIN has returned: the module returns to main, and its dies stay (R467). -/
theorem doMainRestored_spec (f : BootFindings) (hrails : s.pw.rails = true) :
    let t := doMainRestored s f
    t.pw.mainGood = true ∧ t.pw.onBackup = false ∧ t.pw.dies = s.pw.dies ∧ t.mem = s.mem ∧ t.seqs = s.seqs ∧ t.pitches = s.pitches := by
  intro t
  cases hback : s.pw.onBackup with
  | true =>
    have ht : ∃ detail, t = rangerEvent (restartBelow { s with pw := { s.pw with mainGood := true, onBackup := false, backupSince := none, parked := false } })
        0x08 0x0F02 noPitch detail := ⟨_, (if_neg (by rw [hrails]; decide)).trans (if_pos hback)⟩
    obtain ⟨detail, ht⟩ := ht
    rw [ht]
    simp [restartBelow, notePower]
  | false =>
    have ht : t = { s with pw := { s.pw with mainGood := true } } :=
      (if_neg (by rw [hrails]; decide)).trans (if_neg (by rw [hback]; decide))
    rw [ht]
    exact ⟨rfl, hback, rfl, rfl, rfl, rfl⟩

theorem rails_of_startWaits (h : startWaits s = true) : s.pw.rails = false ∧ s.pw.vaux = true := by
  simp only [startWaits, Bool.and_eq_true, Bool.not_eq_true'] at h
  exact ⟨h.2, h.1.1⟩

/-- Without the rails main_good follows alone, or a start that waits for an input goes on (R465, R482). -/
theorem doMainRestored_off (f : BootFindings) (hrails : s.pw.rails = false) :
    doMainRestored s f = if startWaits s then raiseRails { s with pw := { s.pw with mainGood := s.pw.vaux } } f
      else { s with pw := { s.pw with mainGood := s.pw.vaux } } := if_pos hrails

/-- A backup input in range is good, and a start that waits for an input goes on (R465). -/
theorem doVinBackup_good (f : BootFindings) (hvaux : s.pw.vaux = true) (hlo : 44000 ≤ mv) (hhi : mv ≤ 59500) :
    doVinBackup s mv f = if startWaits s then raiseRails { s with pw := { s.pw with backupGood := true } } f
      else { s with pw := { s.pw with backupGood := true } } :=
  (if_neg (by rw [hvaux]; decide)).trans (if_pos (decide_eq_true ⟨hlo, hhi⟩))

/-- A backup input that leaves its range is good no longer, which is reported (R484). -/
theorem doVinBackup_leaves (f : BootFindings) (hvaux : s.pw.vaux = true) (hrails : s.pw.rails = true) (hgood : s.pw.backupGood = true)
    (hmv : mv < 44000 ∨ 59500 < mv) : doVinBackup s mv f = inputRange { s with pw := { s.pw with backupGood := false } } 1 mv := by
  have hrange : inRange54 mv = false := by
    simp only [inRange54, decide_eq_false_iff_not]
    omega
  unfold doVinBackup
  rw [if_neg (by rw [hvaux]; decide), if_neg (by rw [hrange]; decide), if_pos hgood]
  exact if_pos hrails

theorem inputRange_spec (u : State) (input mv : Nat) :
    (inputRange u input mv).pw = u.pw ∧ (inputRange u input mv).ev.written = (u.ev.written + 1) % 2 ^ 32 ∧ (inputRange u input mv).mem = u.mem
      ∧ (inputRange u input mv).seqs = u.seqs :=
  ⟨by simp [inputRange], rangerEvent_written _ _ _ _ _, by simp [inputRange], by simp [inputRange]⟩

end

/-- Settles O54: the inputs row by row, and the backup policy by what a run of the device's parks leaves of a sequence. -/
theorem suppliesFailAndReturn : Obligations.SuppliesFailAndReturn := by
  unfold Obligations.SuppliesFailAndReturn
  refine fun s => ⟨fun now mv hrails hmain hmv => ⟨_, rfl, doMainFailure_spec (s := atTime s now) hrails hmain hmv⟩,
    fun now mv hrails hmain hlo hhi hmv => ?_, fun now f hrails => ⟨_, rfl, doMainRestored_spec (s := atTime s now) f hrails⟩,
    fun now f hrails hwaits => ?_, fun now f hwaits => ?_, fun hrails => ⟨_, if_pos hrails, rfl, rfl, rfl, rfl, rfl, rfl, rfl, rfl, rfl⟩,
    ⟨_, rfl, rfl, rfl, rfl, rfl, rfl⟩, fun mv f hvaux hrails hgood hmv => ?_, fun mv f hvaux hwaits hlo hhi => ?_, fun mv f hwaits hmain hlo hhi => ?_,
    fun now c b hcfg hsince hbackup hparked hpolicy htime hseqs hpitches => ?_, fun now c b hcfg hsince hbackup hparked hpolicy htime hseqs hpitches => ?_,
    fun now c hcfg hseqs hkeys hpitches => ?_⟩
  · have hrange : inRange54 mv = false := by
      simp only [inRange54, decide_eq_false_iff_not]
      omega
    obtain ⟨hpw, hmem, hseqs, -, -, hwritten⟩ := mainLeaves_spec (atTime s now) mv hrange
    exact ⟨_, congrArg Host.Outcome.next (doMainFailure_range hlo hhi), hpw, hwritten hmain hrails, hmem, hseqs⟩
  · have hwaits' : startWaits (atTime s now) = false := hwaits
    refine congrArg Host.Outcome.next ((doMainRestored_off (s := atTime s now) f hrails).trans ?_)
    rw [hwaits']
    rfl
  · obtain ⟨hrails, hvaux⟩ := rails_of_startWaits hwaits
    have hrun : exec (.mainRestored now f) s = .next _ :=
      congrArg Host.Outcome.next ((doMainRestored_off (s := atTime s now) f hrails).trans (if_pos hwaits))
    obtain ⟨hup, hmain, hback, -⟩ := raiseRails_pw { atTime s now with pw := { s.pw with mainGood := s.pw.vaux } } f (by simp [hvaux])
    exact ⟨_, hrun, hup, hmain.trans hvaux, hback.trans (by simp [hvaux])⟩
  · obtain ⟨hpw, hwritten, hmem, hseqs⟩ := inputRange_spec { s with pw := { s.pw with backupGood := false } } 1 mv
    exact ⟨_, congrArg Host.Outcome.next (doVinBackup_leaves f hvaux hrails hgood hmv), hpw, hwritten, hmem, hseqs⟩
  · refine congrArg Host.Outcome.next ((doVinBackup_good f hvaux hlo hhi).trans ?_)
    rw [hwaits]
    rfl
  · obtain ⟨-, hvaux⟩ := rails_of_startWaits hwaits
    obtain ⟨hup, -, hback, hsince⟩ := raiseRails_pw { s with pw := { s.pw with backupGood := true } } f (by simp)
    refine ⟨_, congrArg Host.Outcome.next ((doVinBackup_good f hvaux hlo hhi).trans (if_pos hwaits)), hup, hback.trans (by simp [hmain]), hsince.trans ?_⟩
    exact if_neg (by simp [hmain])
  · refine ⟨_, exec_backupPark_policy hcfg hsince hbackup hparked (by rw [hpolicy]; decide) htime, ?_, ?_⟩
    · unfold policyParked
      dsimp only
      rw [policyParks_pw, marksParked, parkAllMarked_pw]
      rfl
    · intro r hr henabled hlead hkind i hidle hpitch hexported hpark
      refine policyParked_parks hseqs hpitches hr henabled hlead hkind hpitch ⟨by rw [hidle]; decide, hexported, hpark⟩ ?_
      rw [hpolicy]
      exact hidle
  · refine ⟨_, exec_backupPark_policy hcfg hsince hbackup hparked (by rw [hpolicy]; decide) htime, ?_⟩
    intro r hr henabled hlead hkind i hlive hstate hpitch hexported hpark
    refine ⟨fun hflight => ?_, fun hflight => ?_⟩
    · refine policyParked_parks hseqs hpitches hr henabled hlead hkind hpitch ⟨hlive, hexported, hpark⟩ ?_
      rw [hpolicy]
      exact ⟨hstate, hpitch ▸ hflight⟩
    · exact policyParked_marks hseqs hpitches hr henabled hlead hkind hpitch ⟨hlive, hexported, hpark⟩ hstate hflight hpolicy
  · rcases exec_backupPark_or (now := now) hcfg with hrun | hrun
    · exact ⟨_, hrun, fun r hr hlead hkind i hmark hlive hpitch hflight hexported hpark =>
        backupPark_boundary hseqs hkeys hpitches hr hlead hkind hmark hpitch hflight ⟨hlive, hexported, hpark⟩ (.inl rfl)⟩
    · exact ⟨_, hrun, fun r hr hlead hkind i hmark hlive hpitch hflight hexported hpark =>
        backupPark_boundary hseqs hkeys hpitches hr hlead hkind hmark hpitch hflight ⟨hlive, hexported, hpark⟩ (.inr rfl)⟩

end Sys2Proof.Machine
end

section
/-! PROOF. O42 fails: FW_VERIFY writes its record into the NOR (R443, R448, R452). -/

namespace Sys2Proof.Machine

/-- A module in phase 9 of a start whose PF has FW_VERIFY of firmware posted in its first mailbox; the slot that is not in use is erased. -/
def verifyPosted : State :=
  { State.reset with
    boot := { Boot.reset with phase := 9 }
    host := { HostPort.reset with
      up := true
      fns := [(0, { Function.reset with mail := [(0, { Mailbox.reset with state := .posted, message := [0x11000000#32, 0#32] })] })] } }

/-- The sectors of the NOR that hold records after a step. -/
def nvmSectors : Answer State → Nat
  | .next t => t.nvm.sectors.length
  | _ => 0

/-- The message meets the premises of its row: the PF is reachable, and the target is firmware. -/
theorem verifyPosted_posted :
    fnReachable verifyPosted 0 = true ∧ 9 ≤ verifyPosted.boot.phase ∧ (mailOf verifyPosted 0 0).state = .posted
      ∧ mailType (mailOf verifyPosted 0 0).message = 0x11 ∧ wordAt (mailOf verifyPosted 0 0).message 1 < 4 := by decide +kernel

/-- The erased slot fails check 5 of R443, and FW_VERIFY_FAIL is a critical record, which goes to the NOR (R448, R452). -/
theorem verifyPosted_writes :
    nvmSectors (exec (.fwVerify (.mailbox 0 0 []) true []) verifyPosted) = 1 ∧ verifyPosted.nvm.sectors.length = 0 := by decide +kernel

/-- Refutes O42: FW_VERIFY of an image that fails its check writes FW_VERIFY_FAIL, a critical record, into a sector of the NOR, so that the NOR
is not as it was; the statement says `t.nvm = s.nvm` for every FW_VERIFY. -/
theorem not_updatesWriteAndRestart : ¬ Obligations.UpdatesWriteAndRestart := by
  unfold Obligations.UpdatesWriteAndRestart
  rintro ⟨-, hmailbox, -⟩
  obtain ⟨hreach, hphase, hposted, htype, htarget⟩ := verifyPosted_posted
  obtain ⟨hbefore, hempty⟩ := verifyPosted_writes
  obtain ⟨-, hverify, -⟩ := hmailbox verifyPosted 0 [] true [] (by decide) hreach hphase hposted
  obtain ⟨t, hexec, -, hnvm, -⟩ := hverify htype htarget
  have hsectors : nvmSectors (.next t) = 0 := (congrArg (fun n : Nvm => n.sectors.length) hnvm).trans hempty
  rw [hexec] at hbefore
  exact absurd (hbefore.symm.trans hsectors) (by decide)

end Sys2Proof.Machine
end

section
/-! SUPPORT. Sessions of the request transport (R347 to R350): what a message is made of, what sending one leaves, and what the loss of a session leaves. -/

namespace Sys2Proof.Machine

/-! ### Sessions -/

@[simp] theorem sessionOf_putSession (s : State) (n : Nat) (x : Session) : sessionOf (putSession s n x) n = x := by
  rw [sessionOf, putSession, mgetD, mget_mset_same]
  rfl

theorem sessionOf_putSession_ne {n m : Nat} (h : m ≠ n) (s : State) (x : Session) : sessionOf (putSession s n x) m = sessionOf s m := by
  rw [sessionOf, putSession, mgetD, mget_mset_ne _ _ h, ← mgetD, ← sessionOf]

theorem sessionOf_congr {s t : State} (h : t.eth = s.eth) (n : Nat) : sessionOf t n = sessionOf s n := by
  rw [sessionOf, h, ← sessionOf]

theorem atTime_atTime (s : State) (now : Nat) : atTime (atTime s now) now = atTime s now := by
  unfold atTime
  dsimp only
  rw [max_eq_left (Nat.le_max_right _ _)]

/-! ### What a message is made of (R347, R349, R366) -/

/-- Two states agree in what the addresses and keys of datagrams come from: the configuration and the fuses. -/
def SameTransport (s t : State) : Prop := t.cfg = s.cfg ∧ t.nvm.fuses = s.nvm.fuses

section
variable {s t : State} (h : SameTransport s t)
include h

theorem SameTransport.frameHead_eq (port : Nat) (dest : List Byte) : frameHead t port dest = frameHead s port dest := by
  obtain ⟨hcfg, hfuses⟩ := h
  rw [frameHead, frameHead, hcfg, hfuses]

theorem SameTransport.datagramHead_eq (n : Nat) : datagramHead t n = datagramHead s n := by
  have hframe := h.frameHead_eq
  obtain ⟨hcfg, -⟩ := h
  unfold datagramHead sessionEntry
  simp only [hcfg, hframe]

theorem SameTransport.isManagement_eq (n : Nat) : isManagement t n = isManagement s n := by
  obtain ⟨hcfg, -⟩ := h
  rw [isManagement, isManagement, hcfg]

theorem SameTransport.transportKey_eq (n : Nat) : sessionTransportKey t n = sessionTransportKey s n := by
  obtain ⟨hcfg, -⟩ := h
  unfold sessionTransportKey sessionPitch transportKey recordOf
  rw [hcfg]

theorem SameTransport.header_eq (n type length seq ack : Nat) : datagramHeader t n type length seq ack = datagramHeader s n type length seq ack := by
  rw [datagramHeader, datagramHeader, h.isManagement_eq]

/-- An OPEN_ACK's bytes do not depend on the session. -/
theorem SameTransport.openAck_eq (n seq ack : Nat) (body : List Byte) : wireBytes t n msgOpenAck seq ack body = wireBytes s n msgOpenAck seq ack body := by
  unfold wireBytes
  rw [h.header_eq, h.transportKey_eq]
  rfl

/-- Under the same session key a message has the same bytes. -/
theorem SameTransport.wireBytes_eq {n : Nat} (hkey : (sessionOf t n).key = (sessionOf s n).key) (type seq ack : Nat) (body : List Byte) :
    wireBytes t n type seq ack body = wireBytes s n type seq ack body := by
  unfold wireBytes
  rw [h.header_eq, h.transportKey_eq, hkey]

end

/-! ### Sending a message (R347, R400) -/

theorem solicit_frame (s : State) (h : FrameHead) : solicit s h = { s with out := (solicit s h).out } := by
  unfold solicit
  split <;> rfl

theorem solicit_out (s : State) (h : FrameHead) :
    (solicit s h).out = s.out ++ if h.nextHop ∈ s.eth.neighbours then [] else [.icmp h icmpSolicit h.nextHop []] := by
  unfold solicit
  split
  · exact (List.append_nil _).symm
  · rfl

theorem solicit_out_subset (s : State) (h : FrameHead) : s.out ⊆ (solicit s h).out := by
  rw [solicit_out]
  exact List.subset_append_left _ _

/-- A session after a message of it was sent. -/
def messageSent (x : Session) (type : Nat) (body : List Byte) (now : Nat) : Session :=
  { x with txSeq := x.txSeq + 1, unacked := x.unacked ++ [⟨x.txSeq, x.contiguous, type, body, now, 1⟩], ackDue := none }

/-- A message goes out behind what its next hop needs, and its session keeps it. -/
theorem sendMessage_spec (s : State) (n type : Nat) (body : List Byte) :
    let x := sessionOf s n
    let t := sendMessage s n type body
    t = { s with eth := t.eth, out := t.out } ∧ sessionOf t n = messageSent x type body s.cairn.count
      ∧ (∀ m, m ≠ n → sessionOf t m = sessionOf s m)
      ∧ t.out = (solicit s (datagramHead s n).frame).out
          ++ [.datagram (datagramHead s n) n type x.txSeq x.contiguous body (wireBytes s n type x.txSeq x.contiguous body)] := by
  intro x t
  let u := putSession s n (messageSent x type body s.cairn.count)
  have ht : t = send (solicit u (datagramHead s n).frame)
      (.datagram (datagramHead s n) n type x.txSeq x.contiguous body (wireBytes s n type x.txSeq x.contiguous body)) := rfl
  have heth : t.eth = u.eth := by rw [ht, solicit_frame]; rfl
  have hout : (solicit u (datagramHead s n).frame).out = (solicit s (datagramHead s n).frame).out := by
    rw [solicit_out, solicit_out]
    rfl
  refine ⟨?_, (sessionOf_congr heth n).trans (sessionOf_putSession _ _ _),
    fun m hm => (sessionOf_congr heth m).trans (sessionOf_putSession_ne hm _ _), ?_⟩
  · rw [ht, solicit_frame]
    rfl
  · rw [ht, ← hout]
    rfl

theorem sendMessage_out_subset (s : State) (n type : Nat) (body : List Byte) : s.out ⊆ (sendMessage s n type body).out := by
  obtain ⟨-, -, -, hout⟩ := sendMessage_spec s n type body
  rw [hout]
  exact List.Subset.trans (solicit_out_subset _ _) (List.subset_append_left _ _)

/-! ### A lost session (R314, R350) -/

/-- A session that is lost and sends nothing again. -/
def SessionEnded (s : State) (n : Nat) : Prop := (sessionOf s n).lost = true ∧ (sessionOf s n).unacked = []

/-- From `s` to `t` the configuration and the fuses stay, and a session that is lost stays lost. -/
structure EndedKept (n : Nat) (s t : State) : Prop where
  transport : SameTransport s t
  ended : SessionEnded s n → SessionEnded t n

theorem EndedKept.of_eq {n : Nat} {s t : State} (hcfg : t.cfg = s.cfg) (hfuses : t.nvm.fuses = s.nvm.fuses) (heth : t.eth = s.eth) : EndedKept n s t :=
  ⟨⟨hcfg, hfuses⟩, fun h => by rwa [SessionEnded, sessionOf_congr heth]⟩

theorem EndedKept.refl (n : Nat) (s : State) : EndedKept n s s := .of_eq rfl rfl rfl

theorem EndedKept.with_reqs (n : Nat) (s : State) (l : List Request) : EndedKept n s { s with reqs := l } := .of_eq rfl rfl rfl

theorem EndedKept.with_seqs (n : Nat) (s : State) (l : NMap SeqEntry) : EndedKept n s { s with seqs := l } := .of_eq rfl rfl rfl

theorem EndedKept.trans {n : Nat} {s t u : State} (h₁ : EndedKept n s t) (h₂ : EndedKept n t u) : EndedKept n s u :=
  ⟨⟨h₂.transport.1.trans h₁.transport.1, h₂.transport.2.trans h₁.transport.2⟩, fun h => h₂.ended (h₁.ended h)⟩

theorem writeEvent_endedKept (n : Nat) (s : State) (source cls code pitch : Nat) (detail : List Byte) :
    EndedKept n s (writeEvent s source cls code pitch detail) :=
  .of_eq (by simp) (by simpa using congrArg (fun f : Nvm => f.fuses) (writeEvent_nvm s source cls code pitch detail)) (by simp)

theorem rangerEvent_endedKept (n : Nat) (s : State) (cls code pitch : Nat) (detail : List Byte) : EndedKept n s (rangerEvent s cls code pitch detail) :=
  .of_eq (by simp) (rangerEvent_sameImages s cls code pitch detail).fuses_eq (by simp)

theorem writeEntry_nvm_eth (s : State) (fn ring : Nat) (k : Ring) (bytes : List Byte) (int : Bool) :
    (writeEntry s fn ring k bytes int).nvm = s.nvm ∧ (writeEntry s fn ring k bytes int).eth = s.eth := by
  unfold writeEntry
  dsimp only
  split
  · exact ⟨raiseInterrupt_nvm _ _ _, by simp [send, putFn]⟩
  · exact ⟨rfl, rfl⟩

theorem postRing_endedKept (n : Nat) (s : State) (fn ring : Nat) (bytes : List Byte) (int : Bool) : EndedKept n s (postRing s fn ring bytes int) := by
  have h : (postRing s fn ring bytes int).nvm = s.nvm ∧ (postRing s fn ring bytes int).eth = s.eth := by
    unfold postRing
    dsimp only
    split
    · exact ⟨rfl, rfl⟩
    · split
      · exact writeEntry_nvm_eth _ _ _ _ _ _
      · exact ⟨rfl, rfl⟩
  obtain ⟨hnvm, heth⟩ := h
  exact .of_eq (by simp) (congrArg (fun f : Nvm => f.fuses) hnvm) heth

/-- A COMPLETE of a lost session waits, and that of another session is its own. -/
theorem sendComplete_endedKept (n : Nat) (s : State) (m : Nat) (body : List Byte) : EndedKept n s (sendComplete s m body) := by
  unfold sendComplete
  dsimp only
  split
  next hopen =>
    obtain ⟨hframe, -, hothers, -⟩ := sendMessage_spec s m msgComplete body
    refine ⟨by rw [hframe]; exact ⟨rfl, rfl⟩, fun h => ?_⟩
    by_cases hn : n = m
    · subst hn
      exact absurd h.1 hopen.2
    · rwa [SessionEnded, hothers n hn]
  next hwaits =>
    refine ⟨⟨rfl, rfl⟩, fun h => ?_⟩
    by_cases hn : n = m
    · subst hn
      rwa [SessionEnded, sessionOf_putSession]
    · rwa [SessionEnded, sessionOf_putSession_ne hn]

theorem sendTokens_endedKept (n m : Nat) (bytes : List Byte) (k : Nat) (tokens : List Nat) (s : State) :
    EndedKept n s (sendTokens m bytes k tokens s) := by
  induction k generalizing s tokens with
  | zero => exact .refl _ _
  | succ k ih =>
    unfold sendTokens
    split
    · exact sendComplete_endedKept _ _ _ _
    · exact (sendComplete_endedKept _ _ _ _).trans (ih _ _)

theorem answer_endedKept (n : Nat) (s : State) (o : Origin) (int : Bool) (bytes : List Byte) (tokens : List Nat) :
    EndedKept n s (answer s o int bytes tokens) := by
  cases o with
  | ring fn ring => exact postRing_endedKept _ _ _ _ _ _
  | session m => exact sendTokens_endedKept _ _ _ _ _ _
  | device => exact .refl _ _

theorem finish_endedKept (n : Nat) (s : State) (r : Request) (result endCode handle value : Nat) :
    EndedKept n s (finish s r result endCode handle value) := by
  unfold finish
  exact (answer_endedKept n s r.origin _ _ _).trans (.with_reqs _ _ _)

theorem endHeld_endedKept (n result : Nat) (l : List Request) (s : State) : EndedKept n s (endHeld result l s) := by
  induction l generalizing s with
  | nil => exact .refl _ _
  | cons q rest ih => exact (finish_endedKept _ _ _ _ _ _ _).trans (ih _)

theorem endPark_endedKept (n : Nat) (s : State) (i result value : Nat) (silent : Bool) : EndedKept n s (endPark s i result value silent) := by
  unfold endPark
  dsimp only
  split
  next => exact .refl _ _
  next k hk =>
    have hput : EndedKept n s (putSeq s i { seqOf s i with park := none }) := .with_seqs _ _ _
    split
    next => exact hput.trans (rangerEvent_endedKept _ _ _ _ _ _)
    next r hr =>
      split
      · exact (hput.trans (rangerEvent_endedKept _ _ _ _ _ _)).trans (.with_reqs _ _ _)
      · exact (hput.trans (rangerEvent_endedKept _ _ _ _ _ _)).trans (finish_endedKept _ _ _ _ _ _ _)

theorem putHeld_endedKept (n : Nat) (s : State) (i cause result : Nat) : EndedKept n s (putHeld s i cause result) := by
  have hput : EndedKept n s (putSeq s i (entryHeld (seqOf s i) cause)) := .with_seqs _ _ _
  unfold putHeld
  dsimp only
  split
  · refine EndedKept.trans ?_ (endHeld_endedKept _ _ _ _)
    split
    · exact hput
    · exact hput.trans (rangerEvent_endedKept _ _ _ _ _ _)
  · exact (hput.trans (rangerEvent_endedKept _ _ _ _ _ _)).trans ((finish_endedKept _ _ _ _ _ _ _).trans (endHeld_endedKept _ _ _ _))

theorem holdSeq_endedKept (n : Nat) {cause : Nat} (hcause : cause ≠ 4) (s : State) (i result : Nat) : EndedKept n s (holdSeq s i cause result) := by
  have hu : s = if cause = 4 then losePark s i else s := (if_neg hcause).symm
  by_cases hfree : (seqOf s i).state = .free
  · have h : holdSeq s i cause result = s := by
      unfold holdSeq
      rw [← hu]
      exact if_pos hfree
    rw [h]
    exact .refl _ _
  · rw [holdSeq_eq hu hfree]
    exact putHeld_endedKept _ _ _ _ _

theorem abortPark_endedKept (n : Nat) (s : State) (i result value : Nat) (silent : Bool) : EndedKept n s (abortPark s i result value silent) := by
  have hend := endPark_endedKept n s i result value silent
  unfold abortPark
  dsimp only
  split
  · exact .refl _ _
  · split
    · exact hend.trans ((EndedKept.with_seqs _ _ _).trans (holdSeq_endedKept n (by decide) _ _ _))
    · exact hend

theorem abortSessionParks_endedKept (n m : Nat) (l : List Nat) (s : State) : EndedKept n s (abortSessionParks m l s) := by
  induction l generalizing s with
  | nil => exact .refl _ _
  | cons i rest ih =>
    refine EndedKept.trans ?_ (ih _)
    split
    · exact .refl _ _
    · split
      · exact abortPark_endedKept _ _ _ _ _ _
      · exact .refl _ _

theorem abortSessionParks_mem (m : Nat) (l : List Nat) (s : State) : (abortSessionParks m l s).mem = s.mem := by
  induction l generalizing s with
  | nil => rfl
  | cons i rest ih =>
    refine (ih _).trans ?_
    split
    · rfl
    · split
      · simp
      · rfl

/-- What the loss of a session leaves: it is lost and sends nothing again, and memory, configuration and fuses stay. -/
theorem dropSession_spec (s : State) (n : Nat) : SameTransport s (dropSession s n) ∧ SessionEnded (dropSession s n) n ∧ (dropSession s n).mem = s.mem := by
  unfold dropSession
  dsimp only
  generalize ((sessionOf s n).unacked.filter fun u => decide (u.type = msgComplete)).map (·.body) ++ (sessionOf s n).held = held
  let u := putSession s n { sessionOf s n with lost := true, held := held, unacked := [], ackDue := none }
  have hu : SessionEnded u n := by
    rw [SessionEnded, sessionOf_putSession]
    exact ⟨rfl, rfl⟩
  have hkept := abortSessionParks_endedKept n n (u.seqs.map (·.1)) u
  exact ⟨hkept.transport, hkept.ended hu, abortSessionParks_mem _ _ _⟩

end Sys2Proof.Machine
end

section
/-! PROOF. Sessions of the request transport and the Ethernet ports (R347 to R351, R363, R400, R406). -/

namespace Sys2Proof.Machine

/-! ### OPEN (R349) -/

/-- A session that opens under both sides' random bytes. -/
def sessionOpened (x : Session) (key rh rd : List Byte) : Session :=
  { x with
    isOpen := true, lost := false, key := key, rh := rh, rd := rd
    txSeq := 1, highest := 1, contiguous := 1, accepted := [], unacked := [], held := [], images := [] }

/-- What sending messages keeps of a session. -/
def SameOpening (x y : Session) : Prop :=
  y.isOpen = x.isOpen ∧ y.lost = x.lost ∧ y.key = x.key ∧ y.rh = x.rh ∧ y.rd = x.rd ∧ y.contiguous = x.contiguous

theorem sendMessage_sameOpening (s : State) (n type : Nat) (body : List Byte) : SameOpening (sessionOf s n) (sessionOf (sendMessage s n type body) n) := by
  obtain ⟨-, hsession, -⟩ := sendMessage_spec s n type body
  rw [hsession]
  exact ⟨rfl, rfl, rfl, rfl, rfl, rfl⟩

theorem SameOpening.trans {x y z : Session} (h₁ : SameOpening x y) (h₂ : SameOpening y z) : SameOpening x z := by
  obtain ⟨hopen, hlost, hkey, hrh, hrd, hcontiguous⟩ := h₁
  obtain ⟨hopen', hlost', hkey', hrh', hrd', hcontiguous'⟩ := h₂
  exact ⟨hopen'.trans hopen, hlost'.trans hlost, hkey'.trans hkey, hrh'.trans hrh, hrd'.trans hrd, hcontiguous'.trans hcontiguous⟩

/-- The completions that waited are sent as messages of the session. -/
theorem sendHeld_spec (n : Nat) (l : List (List Byte)) (s : State) :
    SameOpening (sessionOf s n) (sessionOf (sendHeld n l s) n) ∧ s.out ⊆ (sendHeld n l s).out ∧ (sendHeld n l s).mem = s.mem := by
  induction l generalizing s with
  | nil => exact ⟨⟨rfl, rfl, rfl, rfl, rfl, rfl⟩, List.Subset.refl _, rfl⟩
  | cons b rest ih =>
    obtain ⟨hsame, hout, hmem⟩ := ih (sendMessage s n msgComplete b)
    exact ⟨(sendMessage_sameOpening s n msgComplete b).trans hsame, List.Subset.trans (sendMessage_out_subset _ _ _ _) hout, hmem.trans (by simp)⟩

section
variable {s : State} {d : Datagram}

/-- The state of an opened session before its OPEN_ACK, where `u` is left by the loss of the old key. -/
def openedState (u : State) (d : Datagram) : State :=
  let rd := (drawBytes u 16).1
  putSession (drawBytes u 16).2 d.session (sessionOpened (sessionOf (drawBytes u 16).2 d.session)
    (sessionKey (sessionTransportKey (drawBytes u 16).2 d.session) d.session d.body rd) d.body rd)

/-- An OPEN with a good tag opens its session, and answers OPEN_ACK before the completions that waited (R349, R350). -/
theorem doOpen_opens (htype : d.type = 0x01) (hknown : knownDatagram s d = true) (htag : d.tagOk = true) (hbody : d.body.length = 16) :
    let u := dropSession s d.session
    doOpen s d = sendHeld d.session (sessionOf (drawBytes u 16).2 d.session).held
      (sendMessage (openedState u d) d.session msgOpenAck (drawBytes u 16).1) :=
  if_pos ⟨htype, hknown, htag, hbody⟩

theorem openedState_transport (u : State) (d : Datagram) : SameTransport u (openedState u d) := ⟨rfl, rfl⟩

theorem openSession_opens (htype : d.type = 0x01) (hknown : knownDatagram s d = true) (htag : d.tagOk = true) (hbody : d.body.length = 16) :
    ∃ t, exec (.openSession d) s = .next t ∧ (sessionOf t d.session).isOpen = true ∧ (sessionOf t d.session).lost = false
      ∧ (sessionOf t d.session).rh = d.body ∧ (sessionOf t d.session).rd.length = 16 ∧ (sessionOf t d.session).contiguous = 1
      ∧ (sessionOf t d.session).key = sessionKey (sessionTransportKey s d.session) d.session d.body (sessionOf t d.session).rd
      ∧ Output.datagram (datagramHead s d.session) d.session 0x02 1 1 (sessionOf t d.session).rd
          (wireBytes s d.session 0x02 1 1 (sessionOf t d.session).rd) ∈ t.out
      ∧ t.mem = s.mem := by
  let n := d.session
  let u := dropSession (atTime s d.now) n
  let rd := (drawBytes u 16).1
  let w := sendMessage (openedState u d) n msgOpenAck rd
  let t := sendHeld n (sessionOf (drawBytes u 16).2 n).held w
  obtain ⟨hdropped, -, hmem⟩ := dropSession_spec (atTime s d.now) n
  have hsu : SameTransport s u := hdropped
  have htransport : SameTransport s (openedState u d) := hsu
  have hopened : sessionOf (openedState u d) n = sessionOpened (sessionOf (drawBytes u 16).2 n) (sessionKey (sessionTransportKey s n) n d.body rd) d.body rd := by
    rw [← hsu.transportKey_eq]
    exact sessionOf_putSession _ _ _
  obtain ⟨-, -, -, hout⟩ := sendMessage_spec (openedState u d) n msgOpenAck rd
  obtain ⟨hheld, hsubset, htmem⟩ := sendHeld_spec n (sessionOf (drawBytes u 16).2 n).held w
  have hsame := (sendMessage_sameOpening (openedState u d) n msgOpenAck rd).trans hheld
  rw [hopened] at hsame hout
  obtain ⟨hisOpen, hlost, hkey, hrh, hrd, hcontiguous⟩ := hsame
  have hrd : (sessionOf t n).rd = rd := hrd
  refine ⟨t, congrArg Host.Outcome.next (doOpen_opens (s := atTime s d.now) htype hknown htag hbody), hisOpen, hlost, hrh, ?_, hcontiguous, ?_, ?_, ?_⟩
  · rw [hrd]
    exact length_padTo _ _
  · rw [hrd]
    exact hkey
  · rw [hrd]
    refine hsubset ?_
    rw [hout, htransport.datagramHead_eq, htransport.openAck_eq]
    exact List.mem_append_right _ (List.mem_singleton.2 rfl)
  · exact htmem.trans ((sendMessage_keeps _ _ _ _).2.2.2.2.2.1.trans hmem)

end

/-! ### Datagrams that are accepted (R347, R350) -/

/-- A seq at or below the highest without gaps, or accepted beyond it, stays one of these. -/
theorem closeGaps_accepts {q : Nat} (n c : Nat) (l : List Nat) (h : q ≤ c ∨ q ∈ l) : q ≤ (closeGaps n c l).1 ∨ q ∈ (closeGaps n c l).2 := by
  induction n generalizing c l with
  | zero => exact h
  | succ n ih =>
    unfold closeGaps
    split
    · refine ih _ _ ?_
      by_cases hq : q = c + 1
      · exact .inl hq.le
      · exact h.imp Nat.le_succ_of_le fun hmem => List.mem_filter.2 ⟨hmem, decide_eq_true hq⟩
    · exact h

/-- A session after a datagram of it was accepted. -/
def datagramTaken (x : Session) (d : Datagram) (count : Nat) : Session :=
  let g := closeGaps (x.accepted.length + 1) x.contiguous (x.accepted ++ [d.seq])
  { x with
    contiguous := g.1, accepted := g.2, highest := max x.highest d.seq
    unacked := x.unacked.filter fun u => decide (d.ack < u.seq), ackDue := some (count + 100000) }

theorem acceptDatagram_eq (s : State) (d : Datagram) :
    acceptDatagram s d = putSession s d.session (datagramTaken (sessionOf s d.session) d s.cairn.count) := rfl

theorem seqFresh_datagramTaken (x : Session) (d : Datagram) (count : Nat) : seqFresh (datagramTaken x d count) d.seq = false := by
  rcases closeGaps_accepts (x.accepted.length + 1) x.contiguous (x.accepted ++ [d.seq])
    (.inr (List.mem_append_right _ (List.mem_singleton.2 rfl))) with hbelow | hbeyond
  · have hold : decide ((datagramTaken x d count).contiguous < d.seq) = false := decide_eq_false (Nat.not_lt.2 hbelow)
    rw [seqFresh, hold, Bool.false_and, Bool.false_and]
  · have hold : decide (d.seq ∉ (datagramTaken x d count).accepted) = false := decide_eq_false (not_not.2 hbeyond)
    rw [seqFresh, hold, Bool.and_false, Bool.false_and]

/-- The datagram has been accepted: its seq, its acknowledgement, and the acknowledgement that is due. -/
def Taken (s : State) (d : Datagram) (t : State) : Prop :=
  seqFresh (sessionOf t d.session) d.seq = false
    ∧ (sessionOf t d.session).unacked = (sessionOf s d.session).unacked.filter (fun u => decide (d.ack < u.seq))
    ∧ (sessionOf t d.session).ackDue = some ((atTime s d.now).cairn.count + 100000)

/-- The session that an accepted datagram leaves, before what its type does. -/
def sessionTaken (s : State) (d : Datagram) : Session := datagramTaken (sessionOf s d.session) d (atTime s d.now).cairn.count

/-- A session whose parts and images a message's type has changed. -/
def sessionActed (x : Session) (submits : List PartialSubmit) (images : NMap (NMap (List Byte))) : Session :=
  { x with submits := submits, images := images }

/-- What a message's type does to a session's parts and images does not touch its acceptance. -/
theorem taken_of_session {s t : State} {d : Datagram} {submits : List PartialSubmit} {images : NMap (NMap (List Byte))}
    (h : sessionOf t d.session = sessionActed (sessionTaken s d) submits images) : Taken s d t := by
  have hfresh : seqFresh (sessionActed (sessionTaken s d) submits images) d.seq = false :=
    seqFresh_datagramTaken (sessionOf s d.session) d (atTime s d.now).cairn.count
  rw [Taken, h]
  exact ⟨hfresh, rfl, rfl⟩

section
variable {s : State} {d : Datagram}

/-- A fresh message of a row's type is accepted and acts. -/
theorem withDatagram_takes {type : Nat} (htype : d.type = type) (hok : datagramOk s d = true) (hfresh : seqFresh (sessionOf s d.session) d.seq = true)
    (f : State → State) : withDatagram s d type f = f (putSession (atTime s d.now) d.session (sessionTaken s d)) :=
  if_pos ⟨htype, hok, hfresh⟩

theorem exec_ackMsg_takes (htype : d.type = msgAck) (hok : datagramOk s d = true) (hfresh : seqFresh (sessionOf s d.session) d.seq = true) :
    ∃ t, exec (.ackMsg d) s = .next t ∧ Taken s d t ∧ t = { atTime s d.now with eth := t.eth } :=
  ⟨_, congrArg Host.Outcome.next (withDatagram_takes htype hok hfresh id), taken_of_session (sessionOf_putSession _ _ _), rfl⟩

/-- Image bytes are kept at their offset (R348). -/
theorem exec_imageData_takes (htype : d.type = msgImageData) (hok : datagramOk s d = true) (hfresh : seqFresh (sessionOf s d.session) d.seq = true) :
    ∃ t, exec (.imageData d) s = .next t ∧ Taken s d t ∧ t = { atTime s d.now with eth := t.eth }
      ∧ (16 ≤ d.body.length →
        mget (mgetD (sessionOf t d.session).images (leAt d.body 0 4) []) (leAt d.body 8 8) = some (d.body.drop 16)) := by
  have hrow := withDatagram_takes htype hok hfresh fun s => if d.body.length < 16 then s else storeImage s d.session d.body
  by_cases hshort : d.body.length < 16
  · exact ⟨_, congrArg Host.Outcome.next (hrow.trans (if_pos hshort)), taken_of_session (sessionOf_putSession _ _ _), rfl,
      fun h => absurd hshort (Nat.not_lt.2 h)⟩
  · let u := putSession (atTime s d.now) d.session (sessionTaken s d)
    have hstored : sessionOf (storeImage u d.session d.body) d.session = sessionActed (sessionTaken s d) (sessionTaken s d).submits
        (mset (sessionTaken s d).images (leAt d.body 0 4)
          (mset (mgetD (sessionTaken s d).images (leAt d.body 0 4) []) (leAt d.body 8 8) (d.body.drop 16))) := by
      rw [storeImage, sessionOf_putSession, sessionOf_putSession]
      rfl
    refine ⟨_, congrArg Host.Outcome.next (hrow.trans (if_neg hshort)), taken_of_session hstored, rfl, fun _ => ?_⟩
    rw [hstored]
    dsimp only [sessionActed]
    rw [mgetD, mget_mset_same]
    exact mget_mset_same _ _ _

end

end Sys2Proof.Machine
end

section
/-! PROOF. SUBMIT, datagrams that are dropped, the timers of sessions, and the Ethernet ports (R340, R350, R351, R363, R400, R406, R442). -/

namespace Sys2Proof.Machine

/-! ### SUBMIT (R340, R351) -/

/-- The parts that a session holds of a SUBMIT's tag. -/
def partsHeld (x : Session) (d : Datagram) : PartialSubmit :=
  (x.submits.find? fun w => decide (w.tag = leAt d.body 0 4)).getD ⟨leAt d.body 0 4, leAt d.body 6 2, []⟩

/-- The parts of its tag with the one that a SUBMIT brings. -/
def partsWith (x : Session) (d : Datagram) : NMap (List Byte) :=
  if (mget (partsHeld x d).got (leAt d.body 4 2)).isSome then (partsHeld x d).got
  else mset (partsHeld x d).got (leAt d.body 4 2) (d.body.drop 8)

/-- What a session holds of other tags. -/
def otherSubmits (x : Session) (d : Datagram) : List PartialSubmit := x.submits.filter fun w => decide (w.tag ≠ leAt d.body 0 4)

theorem takePart_eq (s : State) (d : Datagram) (p : Nat) :
    let n := d.session
    let x := sessionOf s n
    takePart s n p d.body =
      if (partsWith x d).length < (partsHeld x d).parts then
        putSession s n (sessionActed x (otherSubmits x d ++ [{ partsHeld x d with got := partsWith x d }]) x.images)
      else acceptEntry (putSession s n (sessionActed x (otherSubmits x d) x.images)) (.session n) p (assembled ((partsWith x d).map (·.2)).flatten) := rfl

section
variable {s : State} {d : Datagram} {p : Nat}

/-- A fresh SUBMIT of a pitch's session joins the parts of its tag. -/
theorem exec_submitPart_takes (htype : d.type = 0x03) (hok : datagramOk s d = true) (hfresh : seqFresh (sessionOf s d.session) d.seq = true)
    (hmanagement : isManagement s d.session = false) (hp : sessionPitch s d.session = some p) (hbody : 8 ≤ d.body.length) :
    exec (.submitPart d) s = .next (takePart (putSession (atTime s d.now) d.session (sessionTaken s d)) d.session p d.body) := by
  let s1 := atTime s d.now
  let act (s : State) : State :=
    match sessionPitch s d.session with
    | none => s
    | some p => if d.body.length < 8 then s else takePart s d.session p d.body
  have hold : ¬(d.type = 0x03 ∧ datagramOk s1 d = true ∧ seqFresh (sessionOf s1 d.session) d.seq = false ∧ d.seq ≤ (sessionOf s1 d.session).highest) :=
    fun h => Bool.noConfusion (hfresh.symm.trans h.2.2.1)
  have hdo : doSubmit s1 d = withDatagram s1 d 0x03 act := (if_neg hold).trans (if_neg (Bool.eq_false_iff.1 hmanagement))
  have htakes : withDatagram s1 d 0x03 act = act (putSession s1 d.session (sessionTaken s d)) := by
    rw [withDatagram_takes (s := s1) htype hok hfresh, atTime_atTime, sessionTaken, sessionTaken, atTime_atTime]
    rfl
  have hpitch : sessionPitch (putSession s1 d.session (sessionTaken s d)) d.session = some p := hp
  have hact : act (putSession s1 d.session (sessionTaken s d)) = takePart (putSession s1 d.session (sessionTaken s d)) d.session p d.body := by
    unfold act
    rw [hpitch]
    exact if_neg (Nat.not_lt.2 hbody)
  exact congrArg Host.Outcome.next (hdo.trans (htakes.trans hact))

/-- What the parts of a tag are after a SUBMIT was accepted. -/
theorem takePart_taken (s : State) (d : Datagram) (p : Nat) :
    let x := sessionOf s d.session
    let u := putSession (atTime s d.now) d.session (sessionTaken s d)
    takePart u d.session p d.body =
      if (partsWith x d).length < (partsHeld x d).parts then
        putSession u d.session (sessionActed (sessionTaken s d) (otherSubmits x d ++ [{ partsHeld x d with got := partsWith x d }]) x.images)
      else acceptEntry (putSession u d.session (sessionActed (sessionTaken s d) (otherSubmits x d) x.images)) (.session d.session) p
        (assembled ((partsWith x d).map (·.2)).flatten) := by
  intro x u
  rw [takePart_eq, sessionOf_putSession]
  rfl

/-- A SUBMIT that completes its tag becomes an accepted command where nothing refuses it (R340, R351). -/
theorem submit_completes {r : PitchRecord} (hr : recordOf s p = some r)
    (hparts : (partsHeld (sessionOf s d.session) d).parts ≤ (partsWith (sessionOf s d.session) d).length)
    (hgood : let a := assembled ((partsWith (sessionOf s d.session) d).map (·.2)).flatten
      refusalOf s r (entryOf a.entry) a = none) :
    let a := assembled ((partsWith (sessionOf s d.session) d).map (·.2)).flatten
    let t := takePart (putSession (atTime s d.now) d.session (sessionTaken s d)) d.session p d.body
    Taken s d t ∧ t.reqs = s.reqs ++ [requestOf s.reqNext (.session d.session) p (entryOf a.entry) a] ∧ t.seqs = s.seqs ∧ t.mem = s.mem := by
  intro a t
  let u := putSession (atTime s d.now) d.session (sessionTaken s d)
  let v := putSession u d.session (sessionActed (sessionTaken s d) (otherSubmits (sessionOf s d.session) d) (sessionOf s d.session).images)
  have hrecord : recordOf v p = some r := hr
  have hadmits : refusalOf v r (entryOf a.entry) a = none := hgood
  have ht : t = acceptEntry v (.session d.session) p a := (takePart_taken s d p).trans (if_neg (Nat.not_lt.2 hparts))
  rw [ht, acceptEntry_accepts hrecord hadmits]
  exact ⟨taken_of_session (sessionOf_putSession _ _ _), rfl, rfl, rfl⟩

/-- A part of several is kept (R351). -/
theorem submit_keepsPart (hparts : (partsWith (sessionOf s d.session) d).length < (partsHeld (sessionOf s d.session) d).parts) :
    let t := takePart (putSession (atTime s d.now) d.session (sessionTaken s d)) d.session p d.body
    Taken s d t ∧ t.reqs = s.reqs ∧ t.seqs = s.seqs ∧ t.mem = s.mem
      ∧ { partsHeld (sessionOf s d.session) d with got := partsWith (sessionOf s d.session) d } ∈ (sessionOf t d.session).submits := by
  intro t
  have ht := (takePart_taken s d p).trans (if_pos hparts)
  unfold t
  rw [ht]
  refine ⟨taken_of_session (sessionOf_putSession _ _ _), rfl, rfl, rfl, ?_⟩
  rw [sessionOf_putSession]
  exact List.mem_append_right _ (List.mem_singleton.2 rfl)

/-- A seq accepted before is only acknowledged again (R350). -/
theorem exec_submitPart_again (htype : d.type = 0x03) (hok : datagramOk s d = true) (hfresh : seqFresh (sessionOf s d.session) d.seq = false)
    (hseq : d.seq ≤ (sessionOf s d.session).highest) :
    ∃ t, exec (.submitPart d) s = .next t
      ∧ sessionOf t d.session = { sessionOf s d.session with ackDue := some ((atTime s d.now).cairn.count + 100000) }
      ∧ t = { atTime s d.now with eth := t.eth } :=
  ⟨_, congrArg Host.Outcome.next (if_pos ⟨htype, hok, hfresh, hseq⟩), sessionOf_putSession _ _ _, rfl⟩

/-- A SUBMIT of the management session is left to its own command (R442). -/
theorem exec_submitPart_management (hmanagement : isManagement s d.session = true)
    (hseq : d.seq ≤ (sessionOf s d.session).highest → seqFresh (sessionOf s d.session) d.seq = true) :
    exec (.submitPart d) s = .next (atTime s d.now) := by
  have hnew (h : d.type = 0x03 ∧ datagramOk s d = true ∧ seqFresh (sessionOf s d.session) d.seq = false ∧ d.seq ≤ (sessionOf s d.session).highest) :
      False := by
    obtain ⟨-, -, hold, hle⟩ := h
    exact Bool.noConfusion (hold.symm.trans (hseq hle))
  exact congrArg Host.Outcome.next ((if_neg hnew).trans (if_pos hmanagement))

/-! ### A datagram whose tag fails (R350, R363) -/

/-- An event that is written once in a Cairn second counts one record unless this second has it (R363). -/
theorem eventOnce_written {f : State → State} (hf : ∀ s, (f s).ev.written = (s.ev.written + 1) % 2 ^ 32) (s : State) (code unit : Nat) :
    (eventOnce s code unit f).ev.written
      = if mget s.ev.seen (eventKey code unit) = some (second s) then s.ev.written else (s.ev.written + 1) % 2 ^ 32 := by
  unfold eventOnce
  dsimp only
  split
  · rfl
  · exact hf _

/-- The record of a datagram whose tag fails (R363). -/
def authRecorded (d : Datagram) (s : State) : State :=
  writeEvent s (if isManagement s d.session then srcManagement else srcSession d.session) 0x0C 0x0A01 ((sessionPitch s d.session).getD noPitch)
    (servingDetail 0 0 d.session 0 0)

theorem authRecorded_written (d : Datagram) (s : State) : (authRecorded d s).ev.written = (s.ev.written + 1) % 2 ^ 32 :=
  (writeEvent_log _ _ _ _ _ _).2.1

/-- A known datagram whose tag fails is dropped; the first in a Cairn second writes SESSION_AUTH. -/
theorem invalidDatagram_dropped (hknown : knownDatagram s d = true) (htag : d.tagOk = false) :
    ∃ t, exec (.invalidDatagram d) s = .next t ∧ t.eth = s.eth ∧ t.reqs = s.reqs ∧ t.seqs = s.seqs ∧ t.mem = s.mem
      ∧ t.ev.written = (if mget s.ev.seen (eventKey 0x0A01 0) = some (second (atTime s d.now)) then s.ev.written else (s.ev.written + 1) % 2 ^ 32) := by
  have hdo : doInvalidDatagram (atTime s d.now) d = eventOnce (atTime s d.now) 0x0A01 0 (authRecorded d) := if_pos ⟨hknown, htag⟩
  refine ⟨_, congrArg Host.Outcome.next hdo, ?_, ?_, ?_, ?_, eventOnce_written (authRecorded_written d) (atTime s d.now) _ _⟩
  · exact eventOnce_field (·.eth) (fun _ _ => rfl) (fun s => by simp [authRecorded]) _ _ _
  · exact eventOnce_field (·.reqs) (fun _ _ => rfl) (fun s => by simp [authRecorded]) _ _ _
  · exact eventOnce_field (·.seqs) (fun _ _ => rfl) (fun s => by simp [authRecorded]) _ _ _
  · exact eventOnce_field (·.mem) (fun _ _ => rfl) (fun s => by simp [authRecorded]) _ _ _

end

end Sys2Proof.Machine
end

section
/-! PROOF. The timers of sessions and the Ethernet ports (R350, R363, R400, R406), and the statement on sessions. -/

namespace Sys2Proof.Machine

/-! ### Timers (R350) -/

/-- A due acknowledgement goes out as an ACK. -/
theorem ackTimer_sends {s : State} {n now : Nat} (hopen : (sessionOf s n).isOpen = true) (hlost : (sessionOf s n).lost = false)
    (hdue : (sessionOf s n).ackDue ≠ none) :
    let x := sessionOf s n
    ∃ t, exec (.ackTimer n now) s = .next t
      ∧ t.out = (solicit s (datagramHead s n).frame).out
          ++ [.datagram (datagramHead s n) n msgAck x.txSeq x.contiguous [] (wireBytes s n msgAck x.txSeq x.contiguous [])]
      ∧ (sessionOf t n).ackDue = none ∧ (sessionOf t n).txSeq = x.txSeq + 1 ∧ t = { atTime s now with eth := t.eth, out := t.out } := by
  intro x
  have hlive : sessionLive x = true ∧ x.ackDue.isSome = true := by
    refine ⟨?_, Option.isSome_iff_ne_none.2 hdue⟩
    rw [sessionLive, hopen, hlost]
    rfl
  obtain ⟨hframe, hsession, -, hout⟩ := sendMessage_spec (atTime s now) n msgAck []
  refine ⟨_, congrArg Host.Outcome.next (if_pos hlive), ?_, ?_, ?_, hframe⟩
  · rw [hout, solicit_out, solicit_out]
    rfl
  · rw [hsession, messageSent]
  · rw [hsession, messageSent]
    rfl

/-- A message as it goes out. -/
def resent (s : State) (n : Nat) (u : Unacked) : Output :=
  .datagram (datagramHead s n) n u.type u.seq u.ack u.body (wireBytes s n u.type u.seq u.ack u.body)

/-- A message of a session after the one of a seq was sent again. -/
def sentOnce (seq now : Nat) (v : Unacked) : Unacked := if v.seq = seq then { v with sentAt := now, attempts := v.attempts + 1 } else v

theorem seq_sentOnce (seq now : Nat) (v : Unacked) : (sentOnce seq now v).seq = v.seq := by
  unfold sentOnce
  split <;> rfl

/-- The messages of a session of which one has been sent again. -/
def sentAgain (l : List Unacked) (seq now : Nat) : List Unacked := l.map (sentOnce seq now)

theorem seqs_sentAgain (l : List Unacked) (seq now : Nat) : (sentAgain l seq now).map (·.seq) = l.map (·.seq) := by
  rw [sentAgain, List.map_map]
  exact List.map_congr_left fun v _ => seq_sentOnce seq now v

/-- The state after one message was sent again. -/
def resentState (s : State) (n now : Nat) (u : Unacked) : State :=
  send (putSession s n { sessionOf s n with unacked := sentAgain (sessionOf s n).unacked u.seq now }) (resent s n u)

/-- Sending a message again leaves what other messages are made of. -/
theorem resent_resentState (s : State) (n now : Nat) (u v : Unacked) : resent (resentState s n now u) n v = resent s n v := by
  have htransport : SameTransport s (resentState s n now u) := ⟨rfl, rfl⟩
  have hsession : sessionOf (resentState s n now u) n = { sessionOf s n with unacked := sentAgain (sessionOf s n).unacked u.seq now } :=
    sessionOf_putSession _ _ _
  rw [resent, htransport.datagramHead_eq, htransport.wireBytes_eq (by rw [hsession]), ← resent]

/-- The messages of a list that have waited 2 ms. -/
def waited (now : Nat) (l : List Unacked) : List Unacked := l.filter fun u => decide (u.sentAt + 2000000 ≤ now)

theorem waited_cons_due {now : Nat} {u : Unacked} (h : u.sentAt + 2000000 ≤ now) (l : List Unacked) : waited now (u :: l) = u :: waited now l :=
  List.filter_cons_of_pos (decide_eq_true h)

theorem waited_cons_early {now : Nat} {u : Unacked} (h : ¬u.sentAt + 2000000 ≤ now) (l : List Unacked) : waited now (u :: l) = waited now l :=
  List.filter_cons_of_neg fun hd => h (of_decide_eq_true hd)

/-- The messages of a list that have waited 2 ms go out again, unchanged and in order. -/
theorem resendDue_spec (n now : Nat) (l : List Unacked) (s : State) :
    let t := resendDue n now l s
    t.out = s.out ++ (waited now l).map (resent s n)
      ∧ (sessionOf t n).unacked.map (·.seq) = (sessionOf s n).unacked.map (·.seq) ∧ t = { s with eth := t.eth, out := t.out } := by
  induction l generalizing s with
  | nil => exact ⟨(List.append_nil _).symm, rfl, rfl⟩
  | cons u rest ih =>
    intro t
    by_cases hdue : u.sentAt + 2000000 ≤ now
    · have ht : t = resendDue n now rest (resentState s n now u) := if_pos hdue
      obtain ⟨hout, hseqs, hframe⟩ := ih (resentState s n now u)
      rw [← ht] at hout hseqs hframe
      refine ⟨?_, hseqs.trans ?_, hframe⟩
      · rw [hout, waited_cons_due hdue, List.map_cons, funext (resent_resentState s n now u)]
        exact (List.append_assoc _ [_] _)
      · rw [resentState, sessionOf_congr (t := send _ _) (s := putSession _ _ _) rfl, sessionOf_putSession, seqs_sentAgain]
    · have ht : t = resendDue n now rest s := if_neg hdue
      rw [ht, waited_cons_early hdue]
      exact ih s

section
variable {s : State} {n now : Nat} (hopen : (sessionOf s n).isOpen = true) (hlost : (sessionOf s n).lost = false)
include hopen hlost

/-- An open session is lost where a message has waited 2 ms after 32 attempts; otherwise those that have waited are sent again. -/
theorem doResend_live : doResend (atTime s now) n =
    if (sessionOf s n).unacked.any fun u => decide (32 ≤ u.attempts ∧ u.sentAt + 2000000 ≤ (atTime s now).cairn.count) then sessionLost (atTime s now) n
    else resendDue n (atTime s now).cairn.count (sessionOf s n).unacked (atTime s now) := by
  have hlive : sessionLive (sessionOf s n) ≠ false := by simp [sessionLive, hopen, hlost]
  exact if_neg hlive

theorem datagramResend_resends (hfew : ∀ u ∈ (sessionOf s n).unacked, u.attempts < 32) :
    let x := sessionOf s n
    let c := (atTime s now).cairn.count
    ∃ t, exec (.datagramResend n now) s = .next t
      ∧ t.out = s.out ++ (x.unacked.filter (fun u => decide (u.sentAt + 2000000 ≤ c))).map
          (fun u => .datagram (datagramHead s n) n u.type u.seq u.ack u.body (wireBytes s n u.type u.seq u.ack u.body))
      ∧ (sessionOf t n).unacked.map (·.seq) = x.unacked.map (·.seq) ∧ t = { atTime s now with eth := t.eth, out := t.out } := by
  intro x c
  have hnone : ¬x.unacked.any (fun u => decide (32 ≤ u.attempts ∧ u.sentAt + 2000000 ≤ c)) = true := by
    rw [List.any_eq_true]
    rintro ⟨u, hu, hmany⟩
    exact Nat.not_lt.2 (of_decide_eq_true hmany).1 (hfew u hu)
  exact ⟨_, congrArg Host.Outcome.next ((doResend_live hopen hlost).trans (if_neg hnone)), resendDue_spec n c x.unacked (atTime s now)⟩

theorem datagramResend_loses {u : Unacked} (hu : u ∈ (sessionOf s n).unacked) (hmany : 32 ≤ u.attempts)
    (hdue : u.sentAt + 2000000 ≤ (atTime s now).cairn.count) :
    ∃ t, exec (.datagramResend n now) s = .next t ∧ (sessionOf t n).lost = true ∧ (sessionOf t n).unacked = [] := by
  have hany : (sessionOf s n).unacked.any (fun u => decide (32 ≤ u.attempts ∧ u.sentAt + 2000000 ≤ (atTime s now).cairn.count)) = true :=
    List.any_eq_true.2 ⟨u, hu, decide_eq_true ⟨hmany, hdue⟩⟩
  obtain ⟨-, hended, -⟩ := dropSession_spec (atTime s now) n
  exact ⟨_, congrArg Host.Outcome.next ((doResend_live hopen hlost).trans (if_pos hany)), (writeEvent_endedKept n _ _ _ _ _ _).ended hended⟩

end

/-! ### Ports (R400, R406) -/

/-- The link state of a port is put. -/
def portPut (s : State) (port : Nat) (up : Bool) : State := { s with eth := { s.eth with up := s.eth.up.set port up } }

/-- The link of a configured port follows its state with a record. -/
theorem ethLink_follows {s : State} {port : Nat} {up : Bool} {c : Configuration} {e : EthEntry} (hport : port < 2) (hcfg : s.cfg = some c)
    (he : c.eth[port]? = some e) (huse : e.inUse = true) (hnew : s.eth.up.getD port false ≠ up) :
    ∃ t, exec (.ethLink port up) s = .next t ∧ t.eth = { s.eth with up := s.eth.up.set port up } ∧ t.ev.written = (s.ev.written + 1) % 2 ^ 32
      ∧ t.mem = s.mem ∧ t.seqs = s.seqs := by
  have hconfigured : (s.cfg.bind fun c => c.eth[port]?).any (·.inUse) = true := by
    rw [hcfg, Option.bind_some, he]
    exact huse
  have hdo : doEthLink s port up = rangerEvent (portPut s port up) 0x06 0x0C09 noPitch
      (fabricDetail port 0xFF 0 0 ((portPut s port up).eth.up.filter id).length 0) := if_pos ⟨hconfigured, hnew⟩
  refine ⟨_, (if_pos (decide_eq_true hport)).trans (congrArg Host.Outcome.next hdo), ?_, rangerEvent_written _ _ _ _ _, ?_, ?_⟩
  · simp [portPut]
  · simp [portPut]
  · simp [portPut]

section
variable {s : State} {m : IcmpMessage} {c : Configuration} {e : EthEntry}

/-- The address that a message of a configured port is for (RFC 4861). -/
def icmpDest (m : IcmpMessage) (e : EthEntry) : List Byte := if m.type = icmpSolicit ∧ m.dest = solicitedNode e.address then e.address else m.dest

/-- What a message does that is for its port. -/
def icmpTaken (s : State) (m : IcmpMessage) (e : EthEntry) : State :=
  let h := frameHead s m.port m.source
  if m.type = icmpEcho then send (solicit s h) (.icmp h icmpEchoReply m.source m.payload)
  else if m.type = icmpSolicit then
    (if m.target = e.address then send (learnNeighbour s m.source) (.icmp h icmpAdvertise m.source e.address) else s)
  else if m.type = icmpAdvertise then learnNeighbour s m.target
  else if m.type = icmpTooBig then { s with eth := { s.eth with pathMtu := mset s.eth.pathMtu (leVal m.target) m.value } }
  else s

variable (hport : m.port < 2) (hcfg : s.cfg = some c) (he : c.eth[m.port]? = some e)
include hport hcfg he

theorem exec_icmpv6Message : exec (.icmpv6Message m) s =
    .next (if frameReaches s m.port m.vlan (icmpDest m e) = false ∨ icmpFits m = false then s else icmpTaken s m e) := by
  have hentry : (s.cfg.bind fun c => c.eth[m.port]?) = some e := by rw [hcfg, Option.bind_some, he]
  have hdo : doIcmp s m = if frameReaches s m.port m.vlan (icmpDest m e) = false ∨ icmpFits m = false then s else icmpTaken s m e := by
    unfold doIcmp
    rw [hentry]
    rfl
  exact (if_pos (decide_eq_true hport)).trans (congrArg Host.Outcome.next hdo)

/-- A message that reaches its port acts by its type. -/
theorem icmpv6Message_reaches (hreach : frameReaches s m.port m.vlan (icmpDest m e) = true) (hfits : icmpFits m = true) :
    exec (.icmpv6Message m) s = .next (icmpTaken s m e) := by
  rw [exec_icmpv6Message hport hcfg he, if_neg (by simp [hreach, hfits])]

/-- What is not for the port has no effect. -/
theorem icmpv6Message_dropped (htype : m.type ≠ 135) (hout : frameReaches s m.port m.vlan m.dest = false ∨ icmpFits m = false) :
    exec (.icmpv6Message m) s = .next s := by
  have hdest : icmpDest m e = m.dest := if_neg fun h => htype h.1
  rw [exec_icmpv6Message hport hcfg he, hdest, if_pos hout]

omit hport in
/-- A message that reaches its port by its own destination does so by the address that it is taken to be for. -/
theorem frameReaches_icmpDest (hreach : frameReaches s m.port m.vlan m.dest = true) : frameReaches s m.port m.vlan (icmpDest m e) = true := by
  have hmine : m.dest = e.address := by
    unfold frameReaches at hreach
    rw [hcfg, Option.bind_some, he] at hreach
    simp only [Option.any_some, Bool.and_eq_true, decide_eq_true_eq] at hreach
    exact hreach.2.1.2
  have hdest : icmpDest m e = m.dest := by
    unfold icmpDest
    split
    · exact hmine.symm
    · rfl
  rwa [hdest]

/-- A solicitation for the port's address is answered, and its sender learnt. -/
theorem icmpv6Message_solicited (htype : m.type = 135) (htarget : m.target = e.address) (hreach : frameReaches s m.port m.vlan (icmpDest m e) = true)
    (hfits : icmpFits m = true) :
    exec (.icmpv6Message m) s = .next (send (learnNeighbour s m.source) (.icmp (frameHead s m.port m.source) 136 m.source e.address)) := by
  rw [icmpv6Message_reaches hport hcfg he hreach hfits, icmpTaken, htype]
  exact congrArg Host.Outcome.next (if_pos htarget)

/-- What a message that reaches the port by its address does, by its type. -/
theorem icmpv6Message_taken (hreach : frameReaches s m.port m.vlan m.dest = true) (hfits : icmpFits m = true) :
    let h := frameHead s m.port m.source
    (m.type = 128 → exec (.icmpv6Message m) s = .next (send (solicit s h) (.icmp h 129 m.source m.payload)))
      ∧ (m.type = 135 → m.target = e.address →
        exec (.icmpv6Message m) s = .next (send (learnNeighbour s m.source) (.icmp h 136 m.source e.address)))
      ∧ (m.type = 136 → exec (.icmpv6Message m) s = .next (learnNeighbour s m.target))
      ∧ (m.type = 2 → exec (.icmpv6Message m) s = .next { s with eth := { s.eth with pathMtu := mset s.eth.pathMtu (leVal m.target) m.value } }) := by
  have hreach' := frameReaches_icmpDest hcfg he hreach
  have htaken := icmpv6Message_reaches hport hcfg he hreach' hfits
  refine ⟨fun htype => htaken.trans ?_, fun htype htarget => icmpv6Message_solicited hport hcfg he htype htarget hreach' hfits,
    fun htype => htaken.trans ?_, fun htype => htaken.trans ?_⟩ <;>
    · rw [icmpTaken, htype]
      rfl

end

/-- Settles O48: a message is accepted once by its seq, a lost session stays ended whatever completes, and a port acts on what reaches it. -/
theorem sessionsCarryDatagrams : Obligations.SessionsCarryDatagrams := by
  unfold Obligations.SessionsCarryDatagrams
  refine ⟨fun s d => ⟨fun htype hknown htag hbody => openSession_opens htype hknown htag hbody, fun hok hfresh => ⟨?_, ?_, ?_⟩, ?_, ?_, ?_⟩, ?_, ?_, ?_⟩
  · exact fun htype => exec_ackMsg_takes htype hok hfresh
  · exact fun htype => exec_imageData_takes htype hok hfresh
  · refine fun p r htype hmanagement hp hr hbody => ⟨fun hparts hgood => ?_, fun hparts => ?_⟩
    · exact ⟨_, exec_submitPart_takes htype hok hfresh hmanagement hp hbody, submit_completes hr hparts hgood⟩
    · exact ⟨_, exec_submitPart_takes htype hok hfresh hmanagement hp hbody, submit_keepsPart hparts⟩
  · exact fun hok hfresh hseq htype => exec_submitPart_again htype hok hfresh hseq
  · exact fun _ hmanagement hseq => exec_submitPart_management hmanagement hseq
  · exact fun hknown htag => invalidDatagram_dropped hknown htag
  · refine fun s n now hopen hlost => ⟨fun hdue => ackTimer_sends hopen hlost hdue, fun hfew => datagramResend_resends hopen hlost hfew, ?_⟩
    exact fun u hu hmany hdue => datagramResend_loses hopen hlost hu hmany hdue
  · exact fun s port up c e hport _ hcfg he huse hnew => ethLink_follows hport hcfg he huse hnew
  · refine fun s m c e hport hcfg he => ⟨fun hreach hfits => icmpv6Message_taken hport hcfg he hreach hfits, ?_, ?_⟩
    · intro htype hdest htarget hreach hfits
      have hmine : icmpDest m e = e.address := if_pos ⟨htype, hdest⟩
      exact icmpv6Message_solicited hport hcfg he htype htarget (hmine ▸ hreach) hfits
    · exact fun htype hout => icmpv6Message_dropped hport hcfg he htype hout

end Sys2Proof.Machine
end
